-- ==== Sys2Proof/Word.lean ====
section
/-!
DEFINITION. The plain data types of the model: bytes and codes as bit vectors, byte strings as a
length and a little-endian number (00_scope R9, R10), sparse tables, and the element formats of
streams (05 Table 5.8).
-/

namespace Sys2Proof

/-- One byte. -/
abbrev Byte := BitVec 8

/-- A binary32 value as its IEEE 754 code (02_log_formats R59). -/
abbrev F32 := BitVec 32

/-- An accumulator value as its A40 code (02_log_formats R67). -/
abbrev A40 := BitVec 40

/-- A string of `len` bytes held as one little-endian number: byte `k` is bits
`[8k + 7 : 8k]` of `val` (00_scope R9, R10). Images, sections, payloads and messages are blobs. -/
structure Blob where
  len : Nat
  val : Nat
  deriving DecidableEq, Repr

/-- The empty byte string. -/
def Blob.empty : Blob := ⟨0, 0⟩

/-- A sparse table keyed by number, in ascending order of key. -/
abbrev Tbl (α : Type) := List (Nat × α)

/-- The element formats (02 Table 2.1, 05 Table 5.8). -/
inductive Fmt where
  | log8 | log16 | log32 | binary32 | bf16 | e4m3 | e5m2 | bbf12 | u32 | record
  deriving DecidableEq, Repr

/-- The array modes (03 Tables 3.1 and 3.9). -/
inductive AMode where
  | off | log8 | log16 | mixedA16 | mixedW16 | bbf12
  deriving DecidableEq, Repr

/-- One element inside a core: its code and its own poison flag (02 R97). A BBF12 element carries its
mantissa in bits [11:0] and its block's exponent in bits [23:16]; a record carries 256 bits. -/
structure Elem where
  code : BitVec 256
  poison : Bool
  deriving DecidableEq, Repr

/-- One stream word with its sideband (05 R181). -/
structure SWord where
  bits : BitVec 1024
  header : Bool
  last : Bool
  poison : Bool
  deriving DecidableEq, Repr

/-- What an access meets in a memory (06 Table 6.5): nothing, a correctable error, an uncorrectable error, or the
failure of a CXL link while the read is in flight (06 R240). -/
inductive Ecc where
  | clean | corrected | uncorrected | linkLost
  deriving DecidableEq, Repr

/-- What the Reed-Solomon decoder says as a flit or a frame arrives (09 R343, R344): the codewords corrected and those not
correctable since the one before, and whether this one touches a codeword that is not correctable. -/
structure Fec where
  corrected : Nat := 0
  uncorrectable : Nat := 0
  touched : Bool := false
  deriving DecidableEq, Repr

/-- A flit of 256 bytes as it crosses a link (09 R344): its header, its body and its tag. -/
structure Flit where
  hdr : BitVec 64
  body : BitVec 1856
  tag : BitVec 128
  deriving DecidableEq, Repr

/-- Who makes a memory access (06 R217, R218): a stage, the prefetch engine for a core, or the device itself
(its loader, ledger and fills). -/
inductive Engine where
  | stage (core : Nat)
  | prefetch (core : Nat)
  | device
  deriving DecidableEq, Repr

/-- One plane of a decoded picture: its width, its height and its samples in raster order. -/
structure Plane where
  w : Nat
  h : Nat
  px : List Nat
  deriving DecidableEq, Repr

/-- A decoded picture (07 R272): its size, its planes (Y, Cb, Cr; or R, G, B; or Y alone), bit depth, whether the
range is full, the matrix that the bitstream gives (0 BT.601, 1 BT.709, 2 BT.2020), whether the planes are R, G, B,
and whether it has film grain parameters. -/
structure Frame where
  w : Nat
  h : Nat
  planes : List Plane
  depth : Nat
  full : Bool
  matrix : Option Nat
  rgb : Bool
  grain : Bool
  deriving DecidableEq, Repr

/-- What the decoder of a compressed sample yields (07 R267 to R271): the frames in output order, or the channels of
binary32 samples (Opus), or the channels of integers (FLAC), and the cause of Table 7.5 that ended it, 0 for a clean
end. -/
structure Decoded where
  frames : List Frame := []
  channels : List (List F32) := []
  ints : List (List Int) := []
  cause : Nat := 0
  deriving DecidableEq, Repr

/-- The profile or process that the headers of a video or image stream name (07 Table 7.6). -/
inductive Profile where
  | constrainedBaseline | main | high | main10 | baseline | progressive | other
  deriving DecidableEq, Repr

/-- The sampling of chroma. -/
inductive Chroma where
  | mono | c420 | c422 | c440 | c444 | other
  deriving DecidableEq, Repr

/-- What a stream may use that 07 Table 7.6 does not support. -/
inductive CodecTool where
  | fieldPictures | mbaff | multiview | scalable | range | screenContent | largeScaleTile | arithmetic | lossless
  | hierarchical | other
  deriving DecidableEq, Repr

/-- A defect that ends the reading of a stream's headers (07 Table 7.5: SYNTAX, TRUNCATED). -/
inductive StreamDefect where
  | malformed | truncated
  deriving DecidableEq, Repr

/-- What the sequence, frame or stream headers of a compressed sample say (07 R265 step 5), as the codec's own standard
reads them. `defect`: what ended the reading, if anything did. `level` is ten times the level;
`ids` the component identifiers of a JPEG; `family` the channel mapping family of an Opus stream; `full` and `matrix`
the colour description of a video. -/
structure StreamInfo where
  defect : Option StreamDefect := none
  profile : Profile := .main
  level : Nat := 0
  tools : List CodecTool := []
  depth : Nat := 8
  chroma : Chroma := .c420
  components : Nat := 3
  ids : List Nat := []
  width : Nat := 0
  height : Nat := 0
  full : Bool := false
  matrix : Option Nat := none
  family : Nat := 0
  channels : Nat := 0
  rate : Nat := 0
  deriving DecidableEq, Repr

/-- What a firmware package says of itself (14 R519, 12 R474): its security version, whether its confirmation raises
MIN_SVN, the blocks of 16 KiB that its core firmware image takes, and that image's digest. -/
structure PkgFacts where
  svn : Nat := 0
  burnSvn : Bool := false
  blocks : Nat := 32
  coreDigest : BitVec 256 := 0
  deriving DecidableEq, Repr

end Sys2Proof
end

