-- ==== Sys2Proof/Syntax.lean ====
section
/-!
DEFINITION. The commands of the block: one constructor for each row of the table of commands. A command says what happens
to the module from outside it, or what one of its own units does next; its operands are what the module's state cannot
tell. Units are numbered as 01 and 17 number them.
-/

namespace Sys2Proof

inductive Instr where
  /-- COUNTER_LOW_HALF_READ, R20. `requester`: 0 the host, 1 the management controller; `offset` from
  01F0_0000_0000h. -/
  | counterLowHalfRead (requester : Nat) (offset : Nat)
  /-- REGISTER_WRITE_IGNORED, R428. -/
  | registerWriteIgnored (bar : Nat) (offset : Nat)
  /-- ROW_ISSUE, R113. `ecc`: what the row's read of the line buffers meets (06 R227). -/
  | rowIssue (core : Nat) (ecc : Ecc)
  /-- ROW_ENTRY, R117. -/
  | rowEntry (core : Nat)
  /-- DRAIN_UNIT, R124. -/
  | drainUnit (core : Nat)
  /-- WEIGHT_LOAD_START, R130. `ecc`: what the read of the tile meets, at its first word. -/
  | weightLoadStart (core : Nat) (array : Nat) (bank : Nat) (ecc : Ecc)
  /-- WEIGHT_LOAD_DONE, R129. -/
  | weightLoadDone (core : Nat) (array : Nat)
  /-- TREE_NODE, R134. -/
  | treeNode (ctx : Nat) (node : Nat)
  /-- WINDOW_TENSOR, R145. -/
  | windowTensor (core : Nat)
  /-- INPUT_ROW_ARRIVAL, R154. -/
  | inputRowArrival (core : Nat)
  /-- HALO_COPY, R161. `ecc`: what the read of the owner's row meets, at its first word. -/
  | haloCopy (core : Nat) (ecc : Ecc)
  /-- POOL_POSITION, R164. -/
  | poolPosition (core : Nat)
  /-- BOX_DECODE, R167. -/
  | boxDecode (core : Nat)
  /-- NMS_CANDIDATE, R169. -/
  | nmsCandidate (core : Nat)
  /-- NMS_SELECT, R170. -/
  | nmsSelect (core : Nat)
  /-- STREAM_WORD, R181. `ecc`: what the read of the word from its buffer's store meets. -/
  | streamWord (ctx : Nat) (stream : Nat) (consumer : Nat) (ecc : Ecc)
  /-- TENSOR_HEADER_EMIT, R187. -/
  | tensorHeaderEmit (core : Nat) (port : Nat)
  /-- PASS_START, R199. -/
  | passStart (core : Nat)
  /-- STAGING_FILL, R196. -/
  | stagingFill (core : Nat)
  /-- STAGING_FILL_DONE, R250. -/
  | stagingFillDone (core : Nat)
  /-- STALL_CYCLE, R206. `advanced`: a unit advanced or no work is outstanding; `timed`: of the causes of 05 Table 5.14
  those that only time shows, by index: an access of the stage's own to a tier under way (4 to 6), a read of the
  parameter block (10), a spill (11). -/
  | stallCycle (core : Nat) (advanced : Bool) (timed : BitVec 12)
  /-- WEDGED, R210. -/
  | wedged (core : Nat)
  /-- WEDGED_REPORT, R211. -/
  | wedgedReport (shelf : Nat)
  /-- ESCAPE_CONFIRM, R212. -/
  | escapeConfirm (shelf : Nat)
  /-- GATHER_INDEX, R178. -/
  | gatherIndex (core : Nat)
  /-- ROUTE_TENSOR, R186. -/
  | routeTensor (core : Nat)
  /-- VECTOR_ELEMENT, R179. -/
  | vectorElement (core : Nat)
  /-- MEM_ACCESS, R217. A write brings `data` and its `poison`, a read none; `ecc`: what the access meets. -/
  | memAccess (engine : Engine) (addr : Nat) (data : Option (BitVec 1024)) (poison : Bool) (ecc : Ecc)
  /-- PATROL_SCRUB, R232. -/
  | patrolScrub (stack : Nat) (ecc : Ecc)
  /-- GRANULE_FILL_DONE, R225. -/
  | granuleFillDone (granule : Nat)
  /-- CXL_WRITE_DURABLE, R236. -/
  | cxlWriteDurable (port : Nat)
  /-- CXL_LINK_FAIL, R240. -/
  | cxlLinkFail (port : Nat)
  /-- CXL_RETRAIN_DONE, R240. -/
  | cxlRetrainDone (port : Nat) (ok : Bool)
  /-- PREFETCH_TURN, R253. -/
  | prefetchTurn (shelf : Nat) (ecc : Ecc)
  /-- SAMPLE_RECORD, R265: the whole record at the front of the stream of a context's loader table entry goes to its
  queue. `poisoned`: a payload word came poisoned; `info`: what the payload's own headers say (07 R265 steps 5 and 6). -/
  | sampleRecord (ctx : Nat) (entry : Nat) (poisoned : Bool) (info : StreamInfo)
  /-- DECODE_START, R291. `yields`: what the decoder will give; `waited`: the cycles that the sample waited for
  room. -/
  | decodeStart (complex : Nat) (queue : Nat) (position : Nat) (yields : Decoded) (waited : BitVec 48)
  /-- DECODE_DONE, R286. -/
  | decodeDone (complex : Nat) (queue : Nat) (position : Nat)
  /-- CREDIT_TIMER, R287. -/
  | creditTimer (complex : Nat) (queue : Nat)
  /-- INTAKE_TENSOR_EMIT, R274. -/
  | intakeTensorEmit (complex : Nat) (queue : Nat)
  /-- LATE_CORRUPT, R271. -/
  | lateCorrupt (complex : Nat) (queue : Nat)
  /-- ROI_SET_TAKE, R276. -/
  | roiSetTake (complex : Nat) (queue : Nat) (waited : BitVec 48)
  /-- SUBSTITUTION, R289. -/
  | substitution (complex : Nat) (queue : Nat)
  /-- VERDICT_BARRIER, R296. -/
  | verdictBarrier (ctx : Nat)
  /-- VERDICT_RECEIVED, R335. `code`: the job verdict that the root broadcasts. -/
  | verdictReceived (ctx : Nat) (code : Nat)
  /-- END_OF_STEP_BARRIER, R296. -/
  | endOfStepBarrier (ctx : Nat)
  /-- LAYER_UPDATE, R316. -/
  | layerUpdate (core : Nat)
  /-- LOSS_TENSOR, R330. -/
  | lossTensor (core : Nat)
  /-- LINK_TRAINED, R341. `lanes`: the lanes of the port that trained. -/
  | linkTrained (link : Nat) (lanes : BitVec 8)
  /-- LOSS_OF_SIGNAL, R351. -/
  | lossOfSignal (link : Nat)
  /-- KEEPALIVE_TIMEOUT, R351. -/
  | keepaliveTimeout (link : Nat)
  /-- FLIT_SLOT, R345. -/
  | flitSlot (link : Nat)
  /-- FLIT_IDLE, R347. `count`: the IDLE flits that the partner had sent under the key; `fec`: the decoder's answer. -/
  | flitIdle (link : Nat) (flit : Flit) (count : Nat) (fec : Fec)
  /-- FLIT_DATA, R346. `count`: the DATA flits that the partner had sent under the key when it first sent this one. -/
  | flitData (link : Nat) (flit : Flit) (count : Nat) (fec : Fec)
  /-- KEY_OFFER, R543. `chainOk`: the chain verifies and its SERIAL is the OFFER's; `k`: the 320 bits that the exchange of the
  two ends' keys yields. -/
  | keyOffer (link : Nat) (serial : BitVec 64) (ownerDigest : BitVec 256) (chainOk : Bool) (k : BitVec 320)
  /-- KEY_CONFIRM, R543. -/
  | keyConfirm (link : Nat) (ok : Bool)
  /-- KEY_ABORT, R545. -/
  | keyAbort (link : Nat)
  /-- KEYING_TIMEOUT, R545. -/
  | keyingTimeout (link : Nat)
  /-- KEYING_RETRY, R545. -/
  | keyingRetry (link : Nat)
  /-- HELLO, R353. -/
  | hello (link : Nat)
  /-- FABRIC_MISMATCH_RETRY, R353. -/
  | fabricMismatchRetry (link : Nat)
  /-- SYNC_OFFER, R354. -/
  | syncOffer (link : Nat)
  /-- SYNC_RECORDS, R361. -/
  | syncRecords (link : Nat)
  /-- SYNC_DONE, R361. -/
  | syncDone (link : Nat)
  /-- SYNC_NOT_READY, R355. -/
  | syncNotReady (link : Nat)
  /-- SYNC_BACKOFF, R355. -/
  | syncBackoff (link : Nat)
  /-- ACCESSION_SETTLE, R359. -/
  | accessionSettle
  /-- LSR, R361. -/
  | lsr (link : Nat)
  /-- LSDB_RECORD_EXPIRY, R362. -/
  | lsdbRecordExpiry (serial : Nat)
  /-- ROUTE_RECOMPUTE, R366. -/
  | routeRecompute
  /-- PACKET_FORWARD, R367. -/
  | packetForward (link : Nat)
  /-- STREAM, R372. -/
  | stream (link : Nat)
  /-- CREDIT, R372. -/
  | credit (link : Nat)
  /-- WRITE, R373. -/
  | write (link : Nat)
  /-- READ, R373. -/
  | read (link : Nat)
  /-- READ_DATA, R373. -/
  | readData (link : Nat)
  /-- ACK, R370. -/
  | ack (link : Nat)
  /-- COLLECTIVE, R374. -/
  | collective (link : Nat)
  /-- MCAST, R376. -/
  | mcast (link : Nat)
  /-- LOAN, R377. -/
  | loan (link : Nat)
  /-- LOAN_DATA, R377. -/
  | loanData (link : Nat)
  /-- SAMPLE, R383. -/
  | sample (link : Nat)
  /-- NOTICE_LAGGED, R377. -/
  | noticeLagged (link : Nat)
  /-- NOTICE_DONE, R378. -/
  | noticeDone (link : Nat)
  /-- TRANSPORT_RETRANSMIT, R370. `connection`: its place among the connections that the device sends on. -/
  | transportRetransmit (connection : Nat)
  /-- MCAST_SEND, R376. -/
  | mcastSend (job : BitVec 32) (session : Nat) (child : Nat)
  /-- ETH_FRAME, R379. `fec`: the decoder's answer; `lapsed`: the time of the last pause had run out before it. -/
  | ethFrame (link : Nat) (frame : Blob) (fec : Fec) (lapsed : Bool)
  /-- SEGMENT_OPEN, R381. `source`: the link that the segment came by. -/
  | segmentOpen (source : Nat)
  /-- SEGMENT_DATA, R381. -/
  | segmentData (source : Nat)
  /-- EXPORT_ACK, R384. -/
  | exportAck (source : Nat)
  /-- EXPORT_RESEND, R384. -/
  | exportResend (ctx : Nat)
  /-- COMMIT_START, R393. -/
  | commitStart (ctx : Nat)
  /-- SNAPSHOT_DONE, R393. -/
  | snapshotDone (ctx : Nat)
  /-- PARITY_COMPUTE, R400. -/
  | parityCompute (ctx : Nat) (group : Nat)
  /-- COPY_OBJECT, R396. -/
  | copyObject (ctx : Nat) (object : Nat)
  /-- COMMIT_RECORD_WRITE, R401. -/
  | commitRecordWrite (ctx : Nat)
  /-- COMMIT_LEAF, R402. -/
  | commitLeaf (ctx : Nat)
  /-- SEALED, R403. -/
  | sealed (ctx : Nat)
  /-- COMMIT_FAILED, R402. -/
  | commitFailed (ctx : Nat) (cause : Nat) (rank : Nat)
  /-- LOST, R408. -/
  | lost (ctx : Nat)
  /-- FAULT, R408. -/
  | fault (ctx : Nat)
  /-- HALT, R410. -/
  | halt (ctx : Nat)
  /-- BIND, R445. -/
  | bind (ctx : Nat)
  /-- BIND_ACK, R410. -/
  | bindAck (ctx : Nat)
  /-- REBIND, R410. `stripes`: what the loader is told of striped windows. -/
  | rebind (ctx : Nat) (stripes : Tbl (List Nat))
  /-- RESTORE_DONE, R413. What other ranks hold: this rank's `record`, the candidate copies of its objects, the
  partner copies that it held, the parity images of other ranks, and the P and Q of its group. -/
  | restoreDone (ctx : Nat) (record : Blob) (data : Tbl (List Blob)) (copies : Tbl Blob) (images : Tbl Blob)
      (parity : List Blob)
  /-- RESTORED, R410. -/
  | restored (ctx : Nat)
  /-- RESUME, R414. -/
  | resume (ctx : Nat)
  /-- DROP, R421. -/
  | drop (ctx : Nat)
  /-- RELEASE_RECORD, R418. -/
  | releaseRecord (job : BitVec 32)
  /-- JOIN, R422. -/
  | join (ctx : Nat)
  /-- HOT_RESET, R429. -/
  | hotReset
  /-- FUNCTION_LEVEL_RESET, R429. -/
  | functionLevelReset
  /-- PCIE_LINK_DOWN, R429. -/
  | pcieLinkDown
  /-- PERST_ASSERT, R570. -/
  | perstAssert
  /-- PERST_RELEASE, R570. -/
  | perstRelease
  /-- CALL_DOORBELL, R432. `writes`: the call slots written before it. -/
  | callDoorbell (ring : Nat) (value : BitVec 32) (writes : Tbl (BitVec 1024))
  /-- SLIP_TAKE, R432. -/
  | slipTake (ring : Nat)
  /-- SLIP_END, R432. -/
  | slipEnd (ring : Nat) (seq : BitVec 32)
  /-- RET_ACK, R432. -/
  | retAck (ring : Nat) (value : BitVec 32)
  /-- RING_RESET, R435. -/
  | ringReset (ring : Nat)
  /-- RING_RESET_EFFECT, R435. -/
  | ringResetEffect (ring : Nat)
  /-- UPLOAD, R439. `volume`: the bytes in host memory; the answers of the transfer and of the signature. -/
  | upload (ring : Nat) (seq : BitVec 32) (volume : Blob) (dmaOk : Bool) (sigOk : Bool)
  /-- PULL, R440. -/
  | pull (ring : Nat) (seq : BitVec 32) (sigOk : Bool)
  /-- CREATE, R443. -/
  | create (ring : Nat) (seq : BitVec 32)
  /-- LOAD, R444. -/
  | load (ring : Nat) (seq : BitVec 32) (stripes : Tbl (List Nat))
  /-- UNLOAD, R444. -/
  | unload (ring : Nat) (seq : BitVec 32)
  /-- DESTROY, R446. -/
  | destroy (ring : Nat) (seq : BitVec 32)
  /-- PIN, R452. -/
  | pin (ring : Nat) (seq : BitVec 32)
  /-- UNPIN, R452. -/
  | unpin (ring : Nat) (seq : BitVec 32)
  /-- WEED, R451. -/
  | weed (ring : Nat) (seq : BitVec 32)
  /-- WAIT, R449. -/
  | wait (ring : Nat) (seq : BitVec 32)
  /-- READ_RESUME, R436. -/
  | readResume (ring : Nat) (seq : BitVec 32)
  /-- TEARDOWN, R446. -/
  | teardown (ctx : Nat)
  /-- TEARDOWN_DONE, R446. -/
  | teardownDone (ctx : Nat)
  /-- MSIX_UNMASK, R454. -/
  | msixUnmask (vector : Nat)
  /-- BRINGUP_START, R457. -/
  | bringupStart
  /-- PHASE_INPUT_END, R460. `cycles`: DC0 cycles since the start of bring-up. -/
  | phaseInputEnd (cycles : BitVec 48)
  /-- PHASE_IMPRINT_END, R461. -/
  | phaseImprintEnd (cycles : BitVec 48)
  /-- PHASE_MEMORY_END, R458. What training found: the CXL ports that trained and whose buffers kept their contents,
  whether the warm record verifies, the HBM stacks that are ready. -/
  | phaseMemoryEnd (cycles : BitVec 48) (trained : BitVec 4) (retained : BitVec 4) (warmOk : Bool) (hbmReady :
      BitVec 8)
  /-- PHASE_WAVES_END, R467. -/
  | phaseWavesEnd (cycles : BitVec 48)
  /-- PHASE_SELF_TEST_END, R471. `clocks`: what a recalibration finds. -/
  | phaseSelfTestEnd (cycles : BitVec 48) (clocks : Tbl Nat)
  /-- PHASE_AGEING_END, R473. `results`: by island, its slowdown and the answers of vf_ok and power_ok (13 R501). -/
  | phaseAgeingEnd (cycles : BitVec 48) (results : Tbl (BitVec 16 × List Bool))
  /-- PHASE_YIELD_END, R477. -/
  | phaseYieldEnd (cycles : BitVec 48)
  /-- PHASE_ACCESSION_END, R466. -/
  | phaseAccessionEnd (cycles : BitVec 48)
  /-- WAVE_SETTLED, R468. -/
  | waveSettled
  /-- WAVE_TIMEOUT, R468. -/
  | waveTimeout
  /-- LIMIT_EXCEEDED, R459. -/
  | limitExceeded
  /-- SELF_TEST_RESULT, R471. `unit'`: the island index; `direct`: the failure is of a link to a neighbour. -/
  | selfTestResult (unit' : Nat) (cause : BitVec 4) (direct : Bool)
  /-- FW_BLOCK, R475. -/
  | fwBlock (site : Nat) (block : Nat) (ok : Bool) (unicast : Bool)
  /-- FW_NAK, R475. -/
  | fwNak (site : Nat) (block : Nat)
  /-- FW_NAK_TIMEOUT, R475. -/
  | fwNakTimeout (site : Nat)
  /-- FW_VERIFIED, R476. -/
  | fwVerified (site : Nat) (ok : Bool)
  /-- CORE_CHECK, R478. -/
  | coreCheck (site : Nat)
  /-- SPARE_TEST_DONE, R479. -/
  | spareTestDone (shelf : Nat) (ok : Bool)
  /-- CAMPAIGN_OPEN, R483. `request`: the message on the management interface (16 R576). -/
  | campaignOpen (request : Blob)
  /-- CAMPAIGN_PACKAGE_CHECK, R484. The answers of the signature and of the read-back, and what the package says of
  itself. -/
  | campaignPackageCheck (sigOk : Bool) (backOk : Bool) (facts : PkgFacts)
  /-- CAMPAIGN_ACTIVATE, R486. -/
  | campaignActivate (request : Blob)
  /-- CAMPAIGN_ABORT, R486. -/
  | campaignAbort (request : Blob)
  /-- INPUT_OUT_OF_RANGE, R491. -/
  | inputOutOfRange (mv : BitVec 32)
  /-- GOVERNOR_EVALUATION, R493. -/
  | governorEvaluation (watts : BitVec 32) (mv : BitVec 32) (temps : Tbl (BitVec 8))
  /-- DOMAIN_IDLE_TIMEOUT, R496. `unit'`: a shelf below 12; else complex − 12 for a decode domain, complex − 14 for
  a streams domain. -/
  | domainIdleTimeout (unit' : Nat)
  /-- MEASUREMENT_DONE, R501. -/
  | measurementDone (results : Tbl (BitVec 16 × List Bool))
  /-- MU_RECORD, R513. -/
  | muRecord (energy : BitVec 32) (powerMw : BitVec 32) (voltageMv : BitVec 32) (selfCheckOk : Bool)
  /-- MU_INPUT_LOSS, R514. -/
  | muInputLoss
  /-- MU_INPUT_RETURN, R514. -/
  | muInputReturn
  /-- MU_RECORD_TIMEOUT, R514. -/
  | muRecordTimeout
  /-- MU_SEAL_OPEN, R582. -/
  | muSealOpen
  /-- MU_FIRMWARE_LOAD, R582. -/
  | muFirmwareLoad (ok : Bool) (version : BitVec 32) (digest : BitVec 256)
  /-- ATTEST, R546. -/
  | attest (request : Blob) (signature : BitVec 512)
  /-- ENROL, R529. -/
  | enrol (request : Blob) (sigOk : Bool)
  /-- RELEASE, R530. -/
  | release (request : Blob) (sigOk : Bool)
  /-- RECALIBRATE, R505. -/
  | recalibrate (request : Blob) (sigOk : Bool)
  /-- KEY_SLOT_GRANT, R533. -/
  | keySlotGrant (slot : Nat)
  /-- MODULE_INSERTION, R565. -/
  | moduleInsertion (mv : BitVec 32)
  /-- INPUT_SETTLED, R573. -/
  | inputSettled
  /-- MOD_RESET_ASSERT, R572. -/
  | modResetAssert
  /-- RESET_DEADLINE, R572. -/
  | resetDeadline
  /-- MOD_RESET_RELEASE, R572. -/
  | modResetRelease
  /-- TRIP_RELEASE, R574. -/
  | tripRelease
  /-- IDENTIFY, R577. -/
  | identify (request : Blob)
  /-- READ_CONTROL, R577. -/
  | readControl (request : Blob)
  /-- IMPRINT_WRITE, R580. -/
  | imprintWrite (request : Blob)
  /-- IMPRINT_COMMIT, R580. -/
  | imprintCommit (request : Blob) (sigOk : Bool) (facts : PkgFacts)
  /-- REBUILD_BOOT, R581. -/
  | rebuildBoot (request : Blob)
  /-- MANAGEMENT_RESPONSE_READ, R576. -/
  | managementResponseRead
  /-- SETDASA, R575. -/
  | setdasa (static : BitVec 7) (dyn : BitVec 7)
  /-- ENTDAA, R575. -/
  | entdaa (dyn : BitVec 7)
  /-- RSTDAA, R575. -/
  | rstdaa
  /-- SETNEWDA, R575. -/
  | setnewda (dyn : BitVec 7)
  /-- GETPID, R575. -/
  | getpid
  /-- GETBCR, R575. -/
  | getbcr
  /-- GETDCR, R575. -/
  | getdcr
  /-- GETSTATUS, R575. -/
  | getstatus
  /-- ENEC, R575. -/
  | enec (mask : BitVec 8)
  /-- DISEC, R575. -/
  | disec (mask : BitVec 8)
  /-- LANE_SIGNAL, R350. -/
  | laneSignal (link : Nat)
  /-- ETH_LINK_LOSS, R350. -/
  | ethLinkLoss (link : Nat)
  /-- REGULATOR_FAULT, R573. -/
  | regulatorFault
  /-- PULL_UNAVAILABLE, R440. -/
  | pullUnavailable (ring : Nat) (seq : BitVec 32)
  /-- MU_RESEAL, R582. -/
  | muReseal
  /-- CONFIGURATION_REQUEST, R465. `settled`: the time in which a request may get Request Retry Status has passed.
  -/
  | configurationRequest (settled : Bool)
  deriving DecidableEq, Repr

end Sys2Proof
end

