-- ==== Sys2Proof/Decode.lean ====
section
/-!
DEFINITION. The decoding of table words. The block fetches no program: no row of its table of commands gives its command
any bits (log entry 38), so no word spells a command.
-/

namespace Sys2Proof

/-- The command that a word of `nbits` bits spells: none. -/
def decodeTableWord (nbits w : Nat) : Option Instr :=
  match nbits, w with
  | _, _ => none

end Sys2Proof
end

