-- ==== Sys2Proof/Config.lean ====
section
/-!
DEFINITION. What an implementation fixes and the specification does not state: opaque constants. No
proof can see a value of any of them.
-/

namespace Sys2Proof

/-- The free values: draw `n` of the model, `w` bits wide. A step that meets a value the specification
leaves open takes the draw that `State.freeCtr` names and advances the counter (log entry 1). -/
opaque Config.freeValue (w n : Nat) : BitVec w

/-- The scale descriptor of a tree root's output endpoint (03 R133): the image format gives it no place, so a value of
the image and the node (log entry 19). -/
opaque Config.rootDesc : Nat → Nat → BitVec 34

/-- The hardware secret of the fuses, which has no read path (14 R517). -/
opaque Config.huk : BitVec 256

/-- The identity private key as the factory folio holds it, wrapped under a key (14 R520): how a key wraps is not stated. -/
opaque Config.wrapIdentity : BitVec 128 → BitVec 256 → BitVec 256

/-- The confirmation that a key exchange gives an end (14 R543), of the keys that it yields. -/
opaque Config.confirmHash : BitVec 320 → Bool → BitVec 256

/-- The 16 upper bits of the provisional ID of the I3C port (16 R575 states the lower 32). -/
opaque Config.pidHigh : BitVec 16

/-- The PCIe Vendor ID of Horloth (11 Table 11.1 names it and gives no number). -/
opaque Config.pcieVendor : BitVec 16

/-- The bus and the device characteristics registers of the I3C port (16 R575). -/
opaque Config.bcr : BitVec 8
opaque Config.dcr : BitVec 8

end Sys2Proof
end

