-- ==== Sys2Proof/Machine/Operands.lean ====
section
/-!
DEFINITION. The operand forms: the number formats of 02_log_formats and the exact arithmetic that
every unit of the module computes with. A number is a dyadic `m * 2^e`; each rounding of the
specification is one call of a rounding function below.
-/

namespace Sys2Proof

/-! ### Exact dyadic numbers -/

/-- The exact number `m * 2^e`. -/
structure Dy where
  m : Int
  e : Int
  deriving DecidableEq, Repr

namespace Dy

def zero : Dy := ⟨0, 0⟩

/-- The mantissa of `x` seen at the lower exponent `e`. -/
def mantAt (x : Dy) (e : Int) : Int := x.m * (2 : Int) ^ (x.e - e).toNat

def add (x y : Dy) : Dy :=
  let e := min x.e y.e
  ⟨x.mantAt e + y.mantAt e, e⟩

def neg (x : Dy) : Dy := ⟨-x.m, x.e⟩

def sub (x y : Dy) : Dy := x.add y.neg

def mul (x y : Dy) : Dy := ⟨x.m * y.m, x.e + y.e⟩

def lt (x y : Dy) : Bool :=
  let e := min x.e y.e
  x.mantAt e < y.mantAt e

def le (x y : Dy) : Bool := !(y.lt x)

def abs (x : Dy) : Dy := ⟨x.m.natAbs, x.e⟩

/-- `2^k`. -/
def pow2 (k : Int) : Dy := ⟨1, k⟩

/-- The largest `k` with `2^k` not above the magnitude of a non-zero `x`. -/
def floorLog2 (x : Dy) : Int := (x.m.natAbs.log2 : Int) + x.e

end Dy

/-- How a rounding treats the part it cuts off (02 R76, R80, R106; 03 R116, R117). -/
inductive Rnd where
  | nearestEven
  | towardZero
  deriving DecidableEq, Repr

/-- The quotient of `n` by `d` as a whole number, rounded as `r` says. -/
def roundDiv (r : Rnd) (n d : Nat) : Nat :=
  let q := n / d
  let rem := n % d
  match r with
  | .towardZero => q
  | .nearestEven => if 2 * rem > d || (2 * rem == d && q % 2 == 1) then q + 1 else q

/-- The magnitude `num / den * 2^e` rounded to `p` significant bits with no bit below `2^emin`:
the result is `(M, q)` for `M * 2^q`. -/
def roundMag (r : Rnd) (p : Nat) (emin : Int) (num den : Nat) (e : Int) : Nat × Int :=
  if num = 0 then (0, emin) else
  let l0 : Int := (num.log2 : Int) - (den.log2 : Int)
  let ge : Bool := if l0 ≥ 0 then num ≥ den * 2 ^ l0.toNat else num * 2 ^ (-l0).toNat ≥ den
  let k : Int := (if ge then l0 else l0 - 1) + e
  let q : Int := max (k - ((p : Int) - 1)) emin
  let s : Int := e - q
  let M := if s ≥ 0 then roundDiv r (num * 2 ^ s.toNat) den else roundDiv r num (den * 2 ^ (-s).toNat)
  (M, q)

/-! ### binary32, BF16, E4M3 and E5M2 (02 Table 2.1) -/

/-- The shape of an IEEE-like format: significand bits, exponent of the least bit, code of the largest
finite magnitude (02 R81), canonical NaN code (02 R80), width. -/
structure FpShape where
  p : Nat
  emin : Int
  maxCode : Nat
  nanCode : Nat
  width : Nat
  deriving DecidableEq, Repr

def shapeB32 : FpShape := ⟨24, -149, 0x7F7FFFFF, 0x7FC00000, 32⟩
def shapeBF16 : FpShape := ⟨8, -133, 0x7F7F, 0x7FC0, 16⟩
def shapeE4M3 : FpShape := ⟨4, -9, 0x7E, 0x7F, 8⟩
def shapeE5M2 : FpShape := ⟨3, -16, 0x7B, 0x7E, 8⟩

/-- The code, without range limit, of a rounded magnitude: a carry out of the significand passes into
the exponent field. -/
def FpShape.pack (f : FpShape) (M : Nat) (q : Int) : Nat :=
  (q - f.emin).toNat * 2 ^ (f.p - 1) + M

/-- The code, without range limit and without sign, of the magnitude `num / den * 2^e`. -/
def FpShape.magCode (f : FpShape) (r : Rnd) (num den : Nat) (e : Int) : Nat :=
  let m := roundMag r f.p f.emin num den e
  f.pack m.1 m.2

def signBit (b : Bool) (w : Nat) : Nat := if b then 2 ^ (w - 1) else 0

namespace F32

def sign (x : F32) : Bool := x.msb
def expField (x : F32) : Nat := x.toNat / 2 ^ 23 % 256
def frac (x : F32) : Nat := x.toNat % 2 ^ 23
def isNaN (x : F32) : Bool := expField x == 255 && frac x != 0
def isInf (x : F32) : Bool := expField x == 255 && frac x == 0
def isZero (x : F32) : Bool := expField x == 0 && frac x == 0
def isFinite (x : F32) : Bool := expField x != 255

/-- Significand and exponent of a finite magnitude. -/
def mag (x : F32) : Nat × Int :=
  if expField x = 0 then (frac x, -149) else (2 ^ 23 + frac x, (expField x : Int) - 150)

/-- The exact value of a finite code. -/
def val (x : F32) : Dy :=
  let m := mag x
  ⟨if sign x then -(m.1 : Int) else m.1, m.2⟩

def nan : F32 := 0x7FC00000#32
def posZero : F32 := 0#32
def one : F32 := 0x3F800000#32
def inf (neg : Bool) : F32 := if neg then 0xFF800000#32 else 0x7F800000#32
def maxFinite (neg : Bool) : F32 := if neg then 0xFF7FFFFF#32 else 0x7F7FFFFF#32
def neg (x : F32) : F32 := x ^^^ 0x80000000#32
def abs (x : F32) : F32 := x &&& 0x7FFFFFFF#32

/-- The code of a magnitude code without range limit: an infinity beyond the largest finite magnitude
(05 R179). -/
def ofMagCode (neg : Bool) (c : Nat) : F32 :=
  if c > 0x7F7FFFFF then inf neg else BitVec.ofNat 32 (signBit neg 32 + c)

/-- `rne32` of an exact number; an exact zero takes sign `z` (05 R179). -/
def rne (z : Bool) (x : Dy) : F32 :=
  if x.m = 0 then BitVec.ofNat 32 (signBit z 32)
  else ofMagCode (x.m < 0) (shapeB32.magCode .nearestEven x.m.natAbs 1 x.e)

/-- binary32 addition. -/
def add (x y : F32) : F32 :=
  if isNaN x || isNaN y then nan
  else if isInf x then (if isInf y && sign x != sign y then nan else x)
  else if isInf y then y
  else rne (sign x && sign y) ((val x).add (val y))

def sub (x y : F32) : F32 := if isNaN y then nan else add x (neg y)

/-- binary32 multiplication. -/
def mul (x y : F32) : F32 :=
  let s := sign x != sign y
  if isNaN x || isNaN y then nan
  else if isInf x || isInf y then (if isZero x || isZero y then nan else inf s)
  else rne s ((val x).mul (val y))

/-- binary32 division, one rounding (02 R75). -/
def div (x y : F32) : F32 :=
  let s := sign x != sign y
  if isNaN x || isNaN y then nan
  else if isInf x then (if isInf y then nan else inf s)
  else if isInf y then BitVec.ofNat 32 (signBit s 32)
  else if isZero y then (if isZero x then nan else inf s)
  else
    let a := mag x
    let b := mag y
    if a.1 = 0 then BitVec.ofNat 32 (signBit s 32)
    else ofMagCode s (shapeB32.magCode .nearestEven a.1 b.1 (a.2 - b.2))

/-- The order of two binary32 codes that are not NaN: `-1`, `0` or `1` (02 R93, R94). -/
def cmp (x y : F32) : Int :=
  let k (z : F32) : Int := if sign z then -((abs z).toNat : Int) else (abs z).toNat
  if k x < k y then -1 else if k x > k y then 1 else 0

def lt (x y : F32) : Bool := !isNaN x && !isNaN y && cmp x y < 0
def le (x y : F32) : Bool := !isNaN x && !isNaN y && cmp x y ≤ 0
def gt (x y : F32) : Bool := lt y x
def ge (x y : F32) : Bool := le y x
def eq (x y : F32) : Bool := !isNaN x && !isNaN y && cmp x y = 0
def ne (x y : F32) : Bool := !eq x y

/-- MAX (02 R95): NaN wins, and +0.0 beats -0.0. -/
def max (x y : F32) : F32 :=
  if isNaN x || isNaN y then nan
  else if isZero x && isZero y then (if sign x && sign y then x else posZero)
  else if cmp x y ≥ 0 then x else y

/-- MIN (02 R95): NaN wins, and -0.0 beats +0.0. -/
def min (x y : F32) : F32 :=
  if isNaN x || isNaN y then nan
  else if isZero x && isZero y then (if sign x || sign y then 0x80000000#32 else posZero)
  else if cmp x y ≤ 0 then x else y

/-- A positive, finite, normal code: what a tensor scale must be (02 R84). -/
def isScale (x : F32) : Bool := 0x00800000 ≤ x.toNat && x.toNat ≤ 0x7F7FFFFF

/-- `rne32` of a natural number. -/
def ofNat (n : Nat) : F32 := rne false ⟨n, 0⟩

/-- The correctly rounded `1 / sqrt x` of the vector engine (05 R179): the greatest `t` with
`t^2 * x ≤ 2^(2k)` carries 40 bits beyond the significand, and a sticky bit keeps the rest. -/
def sqrtNewton : Nat → Nat → Nat → Nat
  | 0, _, x => x
  | f + 1, n, x => if x = 0 then 0 else
      let y := (x + n / x) / 2
      if y < x then sqrtNewton f n y else x

/-- The integer square root of `n`, by Newton's iteration from above. -/
def isqrt (n : Nat) : Nat :=
  if n = 0 then 0 else sqrtNewton (n.log2 + 2) n (2 ^ (n.log2 / 2 + 1))

/-- Correctly rounded square root of a positive finite number `m * 2^e`, as a magnitude code. -/
def sqrtMag (m : Nat) (e : Int) : Nat :=
  let m' := if e % 2 = 0 then m else 2 * m
  let e' := if e % 2 = 0 then e else e - 1
  let n := m' * 2 ^ 80
  let t := isqrt n
  let st := if t * t = n then 2 * t else 2 * t + 1
  shapeB32.magCode .nearestEven st 1 (e' / 2 - 41)

/-- binary32 square root. -/
def sqrt (x : F32) : F32 :=
  if isNaN x then nan
  else if isZero x then x
  else if sign x then nan
  else if isInf x then x
  else ofMagCode false (sqrtMag (mag x).1 (mag x).2)

/-- Correctly rounded reciprocal square root (05 R179). Of a zero it is an infinity of the zero's sign,
of +Inf it is +0.0, and of a negative number it is NaN. -/
def rsqrt (x : F32) : F32 :=
  if isNaN x then nan
  else if isZero x then inf (sign x)
  else if sign x then nan
  else if isInf x then posZero
  else
    let m := mag x
    let m' := if m.2 % 2 = 0 then m.1 else 2 * m.1
    let e' := if m.2 % 2 = 0 then m.2 else m.2 - 1
    -- 1 / sqrt (m' 2^e') = sqrt (2^160 / m') * 2^(-80 - e'/2)
    let n := 2 ^ 160 / m'
    let t := isqrt n
    let st := if t * t = n && 2 ^ 160 % m' = 0 then 2 * t else 2 * t + 1
    ofMagCode false (shapeB32.magCode .nearestEven st 1 (-81 - e' / 2))

end F32

/-! ### A40 (02 R67, 03 R117) -/

namespace A40

def zero : A40 := 0#40
def nan : A40 := 0x7FE0000000#40
def expField (x : A40) : Nat := x.toNat / 2 ^ 29 % 1024
def isNaN (x : A40) : Bool := expField x == 1023

/-- The exact value of a code that is not NaN. -/
def val (x : A40) : Dy :=
  if expField x = 0 then Dy.zero
  else
    let m : Int := (2 ^ 29 + x.toNat % 2 ^ 29 : Nat)
    ⟨if x.msb then -m else m, (expField x : Int) - 540⟩

/-- The rounding of an exact number into A40, on the 30-bit significand. -/
def round (r : Rnd) (x : Dy) : A40 :=
  if x.m = 0 then zero
  else
    let m := roundMag r 30 (-600) x.m.natAbs 1 x.e
    let M := if m.1 ≥ 2 ^ 30 then m.1 / 2 else m.1
    let q := if m.1 ≥ 2 ^ 30 then m.2 + 1 else m.2
    BitVec.ofNat 40 (signBit (x.m < 0) 40 + (q + 540).toNat * 2 ^ 29 + (M - 2 ^ 29))

/-- One addition into an accumulator: the exact sum, rounded once. -/
def addTo (r : Rnd) (g : A40) (x : Dy) : A40 := round r ((val g).add x)

/-- A finite binary32 value as an A40 value, exact (03 R134). -/
def ofF32 (x : F32) : A40 := if F32.isNaN x then nan else round .nearestEven (F32.val x)

end A40

/-- `floorLog2` of `m^(2^k)` read from an enclosure `[lo, hi]` of the running power at `w` fraction bits;
no answer where the enclosure does not decide a bit. -/
def log2Enclosure (w : Nat) : Nat → Nat → Nat → Nat → Option Nat
  | 0, acc, _, _ => some acc
  | k + 1, acc, lo, hi =>
    let lo' := lo * lo / 2 ^ w
    let hi' := hi * hi / 2 ^ w + 1
    if lo' ≥ 2 ^ (w + 1) then log2Enclosure w k (2 * acc + 1) (lo' / 2) (hi' / 2 + 1)
    else if hi' < 2 ^ (w + 1) then log2Enclosure w k (2 * acc) lo' hi'
    else none

/-- `m^(2^k)` by squaring. -/
def powTwoPow : Nat → Nat → Nat
  | 0, m => m
  | k + 1, m => powTwoPow k (m * m)

/-- The exact `floor (log2 (m^(2^k)))` of a non-zero `m`. A power of two is exact at once; otherwise an
enclosure of 200 bits decides it, and the full power where the enclosure would not. -/
def floorLog2Pow (m k : Nat) : Nat :=
  let l := m.log2
  if m = 2 ^ l then l * 2 ^ k
  else
    let x := m * 2 ^ 200 / 2 ^ l
    match log2Enclosure 200 k 0 x (x + 1) with
    | some f => l * 2 ^ k + f
    | none => (powTwoPow k m).log2

/-! ### LOG8, LOG16 and LOG32 (02 R60 to R66) -/

/-- `T16[f]` (02 R69): `2^(f/512) * 2^23` to the nearest integer; `2^(f/512 + 24)` is the floor of nine
square roots of `2^(f + 24 * 512)`. -/
def t16 (f : Nat) : Nat :=
  let r := (List.range 9).foldl (fun n _ => F32.isqrt n) (2 ^ (f + 24 * 512))
  (r + 1) / 2

/-- `T8[f] = T16[64 f]` (02 R69, R73). -/
def t8 (f : Nat) : Nat := t16 (64 * f)

/-- The logarithmic formats that an array or a conversion works in: exponent width, fraction bits. -/
structure LogShape where
  width : Nat
  fbits : Nat
  deriving DecidableEq, Repr

def shapeLog8 : LogShape := ⟨8, 3⟩
def shapeLog16 : LogShape := ⟨16, 9⟩

/-- What a LOG8 or LOG16 code denotes (02 Table 2.2): zero, NaN, or sign and exponent field. -/
inductive LogVal where
  | zero
  | nan
  | num (neg : Bool) (e : Int)
  deriving DecidableEq, Repr

/-- The exponent field, two's complement. -/
def LogShape.expOf (f : LogShape) (c : Nat) : Int :=
  let h := 2 ^ (f.width - 2)
  let v := c % (2 * h)
  if v ≥ h then (v : Int) - 2 * h else v

/-- The class and exponent of a code (02 R60, R61). -/
def LogShape.decode (f : LogShape) (c : Nat) : LogVal :=
  let e := f.expOf c
  let s := c / 2 ^ (f.width - 1) % 2 = 1
  if e = -(2 ^ (f.width - 2) : Nat) then (if s then .nan else .zero) else .num s e

def LogShape.zeroCode (f : LogShape) : Nat := 2 ^ (f.width - 2)
def LogShape.nanCode (f : LogShape) : Nat := 2 ^ (f.width - 1) + 2 ^ (f.width - 2)
def LogShape.emax (f : LogShape) : Int := (2 ^ (f.width - 2) : Nat) - 1

/-- The code of a sign and an exponent field. -/
def LogShape.encode (f : LogShape) (neg : Bool) (e : Int) : Nat :=
  signBit neg f.width + (e % (2 ^ (f.width - 1) : Nat)).toNat

/-- The significand of `2^(e / 512)` with its binary exponent: `T16[e AND 511] * 2^((e >> 9) - 23)`
(02 R70, R71, R80). -/
def log16Mag (e : Int) : Dy := ⟨t16 (e % 512).toNat, e / 512 - 23⟩

/-- The exponent of a code widened to LOG16 steps: LOG8 widens exactly by 64 (02 R71). -/
def LogShape.widen (f : LogShape) (e : Int) : Int := e * (2 ^ (9 - f.fbits) : Nat)

/-- The exact value of a LOG8 or LOG16 number at scale 1 (02 R80). -/
def LogShape.value (f : LogShape) (neg : Bool) (e : Int) : Dy :=
  let m := log16Mag (f.widen e)
  if neg then m.neg else m

/-- An event that one conversion counts (02 R100). -/
inductive CvtEvent where
  | saturation | nonfinite | nanZeroed
  deriving DecidableEq, Repr

/-- The outcome of converting one element: the code and the counter it adds to, if any (02 R83). -/
structure Cvt where
  code : Nat
  ev : Option CvtEvent
  deriving DecidableEq, Repr

/-- `E` of 02 R76 before its limits: the exponent nearest to the magnitude `m * 2^e` in steps of
`2^-k`, or with a draw `u` the stochastic exponent of R78. -/
def nearestExp (k : Nat) (m : Nat) (e : Int) : Int :=
  ((floorLog2Pow m (k + 1) : Int) + 2 ^ (k + 1) * e + 1) / 2

def stochasticExp (k : Nat) (m : Nat) (e : Int) (u : BitVec 16) : Int :=
  ((floorLog2Pow m (k + 16) : Int) + 2 ^ (k + 16) * e + (u.toNat : Int)) / 2 ^ 16

/-- `to_log` of 02 R76: conversion of `x` into LOG8 or LOG16 with divisor `d`. -/
def toLog (f : LogShape) (x d : F32) (sr : Option (BitVec 16)) : Cvt :=
  if F32.isNaN x || F32.isInf x then ⟨f.nanCode, some .nonfinite⟩
  else
    let q := F32.div x d
    if F32.isZero q then ⟨f.zeroCode, none⟩
    else
      let e : Int :=
        if F32.isInf q then f.emax + 1
        else
          let m := F32.mag q
          match sr with
          | none => nearestExp f.fbits m.1 m.2
          | some u => stochasticExp f.fbits m.1 m.2 u
      let sat := e > f.emax
      let e := if sat then f.emax else e
      if e < -f.emax then ⟨f.zeroCode, none⟩
      else ⟨f.encode (F32.sign q) e, if sat then some .saturation else none⟩

/-- Conversion into LOG32 (02 R79): `E32` saturates and the offset of half a LOG16 step is stored. -/
def toLog32 (x d : F32) : Cvt :=
  if F32.isNaN x || F32.isInf x then ⟨0xC0000000, some .nonfinite⟩
  else
    let q := F32.div x d
    if F32.isZero q then ⟨0x40000000, none⟩
    else
      let top : Int := 2 ^ 30 - 2 ^ 15 - 1
      let e : Int := if F32.isInf q then top + 1 else nearestExp 25 (F32.mag q).1 (F32.mag q).2
      let sat := e > top
      let e := if sat then top else e
      if e < -(2 ^ 30) + 2 ^ 15 then ⟨0x40000000, none⟩
      else ⟨signBit (F32.sign q) 32 + ((e + 2 ^ 15) % 2 ^ 31).toNat, if sat then some .saturation else none⟩

/-- Rounding of an exact number to an IEEE-like target under 02 R80 and R81. -/
def toFp (f : FpShape) (r : Rnd) (neg : Bool) (num den : Nat) (e : Int) : Cvt :=
  let c := if num = 0 then 0 else f.magCode r num den e
  if c > f.maxCode then ⟨signBit neg f.width + f.maxCode, some .saturation⟩
  else ⟨signBit neg f.width + c, none⟩

/-- Conversion of a binary32 value into an IEEE-like target, an infinity and a NaN included (02 R81). -/
def f32ToFp (f : FpShape) (r : Rnd) (x : F32) : Cvt :=
  if F32.isNaN x then ⟨f.nanCode, some .nonfinite⟩
  else if F32.isInf x then ⟨signBit (F32.sign x) f.width + f.maxCode, some .saturation⟩
  else toFp f r (F32.sign x) (F32.mag x).1 1 (F32.mag x).2

/-- The value of a BF16, E4M3 or E5M2 code as binary32, exact (02 R75). -/
def fpToF32 (f : FpShape) (c : Nat) : F32 :=
  let s := c / 2 ^ (f.width - 1) % 2 = 1
  let mg := c % 2 ^ (f.width - 1)
  let fr := mg % 2 ^ (f.p - 1)
  let ex := mg / 2 ^ (f.p - 1)
  if mg > f.maxCode then
    -- E5M2 and BF16 have an infinity at the code after the largest finite one; E4M3 has none
    (if mg = f.maxCode + 1 && f.p ≠ 4 then F32.inf s else F32.nan)
  else
    let m := if ex = 0 then fr else fr + 2 ^ (f.p - 1)
    let e : Int := if ex = 0 then f.emin else f.emin + (ex : Int) - 1
    F32.rne s ⟨if s then -(m : Int) else m, e⟩

/-- A LOG8 or LOG16 code decoded to binary32 with a scale (02 R80, R81). -/
def logToF32 (f : LogShape) (c : Nat) (scale : F32) : Cvt :=
  match f.decode c with
  | .zero => ⟨0, none⟩
  | .nan => ⟨0x7FC00000, none⟩
  | .num s e =>
    let v := (f.value s e).mul (F32.val scale)
    toFp shapeB32 .nearestEven (v.m < 0) v.m.natAbs 1 v.e

/-! ### BBF12 (02 R103 to R106) -/

/-- The mantissa of a BBF12 element, two's complement. -/
def bbfMant (c : Nat) : Int :=
  let v := c % 4096
  if v ≥ 2048 then (v : Int) - 4096 else v

/-- The exact value of a BBF12 element: mantissa in bits [11:0], shared exponent in bits [23:16]. -/
def bbfVal (c : Nat) : Dy := ⟨bbfMant c, (c / 65536 % 256 : Nat) - 138⟩

/-- The mantissa of `x * 2^(138 - X)` toward zero (02 R105). -/
def bbfTrunc (x : F32) (X : Nat) : Int :=
  let m := F32.mag x
  let s : Int := m.2 + 138 - X
  let t : Nat := if s ≥ 0 then m.1 * 2 ^ s.toNat else m.1 / 2 ^ (-s).toNat
  if F32.sign x then -(t : Int) else t

/-- `to_bbf12` of 02 R105 for one block: the elements (mantissa and shared exponent) with the event each
counts. -/
def toBbf12 (xs : List F32) : List Cvt :=
  let bad (x : F32) : Bool := F32.isNaN x || F32.isInf x
  let ys := xs.map fun x => if bad x then F32.posZero else x
  let a := ys.foldl (fun a x => F32.max a (F32.abs x)) F32.posZero
  let X : Nat := if F32.isZero a then 0 else ((F32.val a).floorLog2 + 128).toNat
  (xs.zip ys).map fun p =>
    ⟨((bbfTrunc p.2 X) % 4096).toNat + X * 65536, if bad p.1 then some .nanZeroed else none⟩

/-! ### The functions of the vector engine (04 R167, 05 R179, 08 R313) -/

namespace F32

/-- `2^(2^-i)` at 160 fraction bits from below, for `i` square roots of 2. -/
def rootTwo : Nat → Nat
  | 0 => 2 * 2 ^ 160
  | i + 1 => isqrt (rootTwo i * 2 ^ 160)

/-- An enclosure of `2^(f / 2^48)` at 160 fraction bits: the product over the set bits of `f`, bit `47 - i`
standing for `2^(2^-(i + 1))`. -/
def exp2Frac : List Nat → Nat → Nat × Nat → Nat × Nat
  | [], _, acc => acc
  | i :: t, f, acc =>
    let r := rootTwo (i + 1)
    let acc' := if f / 2 ^ (47 - i) % 2 = 1
      then (acc.1 * r / 2 ^ 160, acc.2 * (r + 1) / 2 ^ 160 + 1) else acc
    exp2Frac t f acc'

/-- The correctly rounded `2^x` of the vector engine (05 R179, 08 R313). -/
def exp2 (x : F32) : F32 :=
  if isNaN x then nan
  else if isInf x then (if sign x then posZero else x)
  else
    let m := mag x
    if m.1 = 0 || m.2 + 24 ≤ -25 then one
    else if m.2 ≥ 10 then (if sign x then posZero else inf false)
    else
      -- 2^48 * x, exact in the range that is left
      let k : Int := (if sign x then -1 else 1) *
        (if m.2 + 48 ≥ 0 then (m.1 : Int) * 2 ^ (m.2 + 48).toNat else (m.1 : Int) / 2 ^ (-(m.2 + 48)).toNat)
      let n := k / 2 ^ 48
      let f := (k % 2 ^ 48).toNat
      if n < -160 then posZero
      else if f = 0 then ofMagCode false (shapeB32.magCode .nearestEven 1 1 n)
      else
        let e := exp2Frac (List.range 48) f (2 ^ 160, 2 ^ 160)
        ofMagCode false (shapeB32.magCode .nearestEven (2 * e.1 + 1) 1 (n - 161))

/-- The correctly rounded `log2 x` of the vector engine (08 R313): 80 bits behind the point and a sticky
bit. Of a zero it is -Inf, of a negative number NaN. -/
def log2 (x : F32) : F32 :=
  if isNaN x then nan
  else if isZero x then inf true
  else if sign x then nan
  else if isInf x then x
  else
    let m := mag x
    let l := m.1.log2
    if m.1 = 2 ^ l then rne false ⟨(l : Int) + m.2, 0⟩
    else
      let n : Int := (floorLog2Pow m.1 80 : Int) + 2 ^ 80 * m.2
      rne false ⟨2 * n + 1, -81⟩

/-- `expf` of 04 R167. -/
def expf (x : F32) : F32 := exp2 (mul x 0x3FB8AA3B#32)

/-- A sum of binary32 terms in an A40 accumulator, in the order given, with the rule of 05 R179 for infinite
terms; the result is `rne32` of the accumulator. -/
def sumA40 (xs : List F32) : F32 :=
  if xs.any isNaN then nan
  else
    let infs := xs.filter isInf
    match infs with
    | i :: _ => if infs.all fun j => sign j == sign i then i else nan
    | [] => rne false (A40.val (xs.foldl (fun a x => A40.addTo .nearestEven a (val x)) A40.zero))

end F32

/-! ### The counter-based generator (08 R325) -/

def rotl32 (x : BitVec 32) (n : Nat) : BitVec 32 := (x <<< n) ||| (x >>> (32 - n))

structure GenState where
  a : BitVec 32
  b : BitVec 32
  c : BitVec 32
  d : BitVec 32
  deriving DecidableEq, Repr

def GenState.mix (g : GenState) : GenState :=
  let a := g.a + g.b
  let d := rotl32 (g.d ^^^ a) 16
  let c := g.c + d
  let b := rotl32 (g.b ^^^ c) 12
  let a := a + b
  let d := rotl32 (d ^^^ a) 8
  let c := c + d
  let b := rotl32 (b ^^^ c) 4
  ⟨a, b, c, d⟩

/-- One round with its key step. -/
def GenState.round (key : BitVec 64) (g : GenState) (r : Nat) : GenState :=
  let g := g.mix
  { g with a := g.a + key.setWidth 32, b := g.b + (key >>> 32).setWidth 32, c := g.c + BitVec.ofNat 32 (r + 1) }

/-- The 128-bit output of the generator: `w0` in bits [31:0] to `w3` in bits [127:96]. -/
def gen (key : BitVec 64) (stream : BitVec 32) (ctr : BitVec 64) : BitVec 128 :=
  let g : GenState := ⟨ctr.setWidth 32, (ctr >>> 32).setWidth 32, stream, 0x9E3779B9#32⟩
  let g := (((g.round key 0).round key 1).round key 2).round key 3
  g.d ++ g.c ++ g.b ++ g.a

/-- The 16-bit draw of element `n` of a stochastic rounding stream (08 Table 8.9). -/
def srDraw (seed : BitVec 64) (stream jobStep : BitVec 32) (n : Nat) : BitVec 16 :=
  let o := gen (seed ^^^ 0x5352000000000000#64) stream (jobStep ++ BitVec.ofNat 32 (n / 8))
  BitVec.ofNat 16 (o.toNat / 2 ^ (16 * (n % 8)))

/-- The 32-bit draw of element `n` of a dropout stream (08 Table 8.9). -/
def dropDraw (seed : BitVec 64) (stream jobStep : BitVec 32) (n : Nat) : BitVec 32 :=
  let o := gen (seed ^^^ 0x4450000000000000#64) stream (jobStep ++ BitVec.ofNat 32 (n / 4))
  BitVec.ofNat 32 (o.toNat / 2 ^ (32 * (n % 4)))

end Sys2Proof
end

