-- ==== Sys2Proof/Machine/StateCore.lean ====
section
/-!
DEFINITION. The state of a logical core and of a shelf: arrays (03), window engine (04), stage, ports and
stall counters (05), update, loss and monitor (08), shelf store, prefetch engine and deadlock detector
(05, 06), and the check channels of a shelf (15).
-/

namespace Sys2Proof.Machine

/-! ### Tensors and endpoints (02, 05) -/

/-- The fields of a tensor header (05 Table 5.9) that a consumer reads. `flags` is bits [79:72]: CONV_EMPTY,
PAD_REFLECT_SHORT, NMS_TRUNCATED, LONG_ACCUM, SUBSTITUTED, SHAPED. -/
structure THdr where
  length : Nat
  scale : F32
  format : Nat
  flags : BitVec 8
  c : Nat
  w : Nat
  h : Nat
  sample : Nat
  use : Nat
  deriving DecidableEq, Repr

/-- One value waiting at an output endpoint: a drained binary32 value in bits [31:0] with the mark of a
clamped rounding (02 R82, R83), or, with `raw`, an element already in the output format. -/
structure OVal where
  code : BitVec 256
  raw : Bool
  sat : Bool
  poison : Bool
  deriving DecidableEq, Repr

/-- A tensor under construction at an output endpoint: its shape and flags, and its values by element
index. -/
structure OutTensor where
  length : Nat
  c : Nat
  w : Nat
  h : Nat
  sample : Nat
  flags : BitVec 8
  hpoison : Bool
  vals : Tbl OVal
  deriving DecidableEq, Repr

/-- An output endpoint: tensors begun and not emitted, amax history (02 R89 to R91), tensors emitted since
load (05 R185 USE), draws taken in the running step (08 R327); and, where a leaf discards tensors of frozen layers (08 R320),
those discarded since load and those of the running step that have left or been discarded. -/
structure OutPort where
  outs : List OutTensor
  hist : Option F32
  use : BitVec 32
  draws : Nat
  dropped : Nat := 0
  stepNo : Nat := 0
  deriving DecidableEq, Repr

/-- An input port: the header of the tensor being taken, its converted elements, whether the header came
poisoned (15 R559), whether the whole tensor has arrived, whether the tensor is already in use. -/
structure InPort where
  hdr : Option THdr
  elems : List Elem
  hpoison : Bool
  done : Bool
  deriving DecidableEq, Repr

/-- The endpoint conversion counters (02 Table 2.9). -/
structure EpCtr where
  saturations : BitVec 48
  nonfinite : BitVec 48
  poisonedWords : BitVec 48
  nanZeroed : BitVec 48
  prepasses : BitVec 32
  scaleInUse : F32
  amaxLast : F32
  deriving DecidableEq, Repr

def OutPort.empty : OutPort := ⟨[], none, 0, 0, 0, 0⟩
def InPort.empty : InPort := ⟨none, [], false, false⟩
def EpCtr.zero : EpCtr := ⟨0, 0, 0, 0, 0, 0x3F800000#32, 0⟩

/-! ### Arrays (03) -/

/-- One weight bank: the tile image of 06 R249, in BBF12 the exponent of each weight, a poison bit per weight, `scaleB`, and which tile it is
(`run` names the pass run, and the block where each block loads anew, 04 R153; and the slice that it serves). -/
structure Bank where
  tile : Nat
  exps : Nat
  poison : Nat
  scaleB : F32
  run : Nat
  slice : Nat
  deriving DecidableEq, Repr

/-- One accumulation group of one array: 16 columns, count, flags, scale pair (03 R118, R122). -/
structure Group where
  vals : List A40
  products : BitVec 28
  longAccum : Bool
  poisoned : Bool
  pair : Option (F32 × F32)
  deriving DecidableEq, Repr

/-- Where a drained row goes: output port, the tensor's place among the tensors begun at that port since
load, element index of the first column and how many columns count. -/
structure Dest where
  port : Nat
  seq : Nat
  base : Nat
  cols : Nat
  deriving DecidableEq, Repr

/-- A row in flight: its tag (03 Table 3.2), its activations, scaleA, the weights latched in cycle 1 by
array, and where a drain goes. -/
structure Row where
  tag : BitVec 32
  acts : List Elem
  scaleA : F32
  banks : Tbl Bank
  dest : Dest
  deriving DecidableEq, Repr

/-- A snapshot register taken by a DRAIN and not yet handled by the drain unit (03 R123, R124). `last`
marks the last array of its DRAIN. -/
structure Snap where
  array : Nat
  vals : List A40
  longAccum : Bool
  poisoned : Bool
  pair : Option (F32 × F32)
  dest : Dest
  last : Bool
  deriving DecidableEq, Repr

/-- Why the next row is held at issue (03 R125, R131). -/
inductive Hold where
  | bank | output
  deriving DecidableEq, Repr

/-- A tile load in progress (03 R129): its bank and the tile that it brings. -/
structure TileLoad where
  bank : Nat
  content : Bank
  deriving DecidableEq, Repr

/-- The arrays of a core (03 Tables 3.8 to 3.11). `banks` is keyed `2 a + b`, `groups` is keyed `4 a + g`. `drainWait`
is the number of core cycles before the snapshot of a further DRAIN row can fall late enough (R125). -/
structure ArrayUnit where
  mode : AMode
  arraysUsed : BitVec 4
  selected : BitVec 4
  banks : Tbl Bank
  loading : Tbl TileLoad
  groups : Tbl Group
  flight : List Row
  held : Option Hold
  snaps : List Snap
  drainWait : Nat
  rowsIssued : BitVec 48
  drains : BitVec 48
  longAccumDrains : BitVec 32
  farProducts : BitVec 48
  deriving DecidableEq, Repr

def ArrayUnit.cleared : ArrayUnit :=
  ⟨.off, 0, 0, [], [], [], [], none, [], 0, 0, 0, 0, 0⟩

/-! ### Window engine and post-processing (04) -/

/-- One row held in the line buffers: its columns, its reference count (04 R162), whether this
core's own decrement is done, and whether it is a copy of the neighbour's row (R161). -/
structure LineRow where
  cols : Tbl (List Elem)
  count : Nat
  ownerDone : Bool
  halo : Bool
  deriving DecidableEq, Repr

/-- The tensor a window stage works on: header, output size, padding in force per axis, the next of the rows that
arrive and of the halo rows to copy in the running pass and tile, how many arriving rows the counters of 04 R154 have
met, and whether the last row of the last pass has issued. -/
structure WinTensor where
  hdr : THdr
  oh : Nat
  ow : Nat
  padV : Nat
  padH : Nat
  nextRow : Nat
  nextHalo : Nat
  counted : Nat
  issued : Bool
  deriving DecidableEq, Repr

/-- A candidate kept for selection (04 Table 4.5), with its number. -/
structure Cand where
  box : BitVec 256
  index : Nat
  deriving DecidableEq, Repr

/-- The window engine, the pooling unit and the candidates of the running tensor (04 Table 4.6, R141). `lines` is keyed by
pass run, column tile and input row: each pass and each tile fetches its rows anew (R156). `taps` is the
window register: of each tap of the running window, the lanes that the slice at hand takes. -/
structure WindowUnit where
  cur : Option WinTensor
  lines : Tbl LineRow
  taps : List (List Elem)
  pool : List A40
  poolPoison : List Bool
  poolTaken : Nat
  boxes : Nat
  decoded : List Elem
  cands : List Cand
  candNext : Nat
  truncated : Bool
  convEmptyTensors : BitVec 32
  padReflectShorts : BitVec 32
  skippedRows : BitVec 48
  skippedColumns : BitVec 48
  haloCopies : BitVec 32
  nmsKept : BitVec 32
  nmsDropped : BitVec 32
  nmsInvalid : BitVec 32
  deriving DecidableEq, Repr

def WindowUnit.cleared : WindowUnit :=
  ⟨none, [], [], [], [], 0, 0, [], [], 0, false, 0, 0, 0, 0, 0, 0, 0, 0⟩

/-! ### Stages (05) -/

/-- The states of a stage (05 R205, Table 5.15). -/
inductive StageSt where
  | empty | config | ready | running | stopped
  deriving DecidableEq, Repr

/-- A scale descriptor (02 Table 2.7). -/
structure ScaleDesc where
  scale : F32
  auto : Bool
  sr : Bool
  deriving DecidableEq, Repr

/-- A stage record (05 Table 5.2) with its parameter block. -/
structure StageRec where
  lcore : Nat
  stage : Nat
  member : Nat
  opclass : Nat
  mode : Nat
  arrays : BitVec 4
  npassM1 : Nat
  window : Bool
  post : Bool
  stagingKib : Nat
  paramOff : Nat
  paramLen : Nat
  passFirst : Nat
  scales : List ScaleDesc
  streams : List Nat
  param : Blob
  deriving DecidableEq, Repr

/-- A prefetch descriptor (06 Table 6.6). -/
structure PfDesc where
  addr : Nat
  format : Nat
  op : Nat
  linked : Bool
  scaleb : F32
  stride : Nat
  count : Nat
  link : Nat
  deriving DecidableEq, Repr

/-- A pass descriptor (05 Table 5.11). -/
structure PassRec where
  wdesc : Nat
  tiles : Nat
  accKeep : Bool
  drainEnd : Bool
  replay : Bool
  outPort : Nat
  deriving DecidableEq, Repr

/-- A weight staging area: the pass run it holds or is being filled with, its tiles in order with a poison
bit per word, SCALEB, how many words have arrived, and whether it is full (05 R196, 06 R250). -/
structure Staging where
  run : Nat
  pass : Nat
  tiles : Tbl (Nat × Nat)
  scaleB : F32
  arrived : Nat
  full : Bool
  deriving DecidableEq, Repr

/-- The stage sequencer (05 R195 to R200, 04 R152): the pass run since load, the pass of the tensor, the
first slice of the pass, the block's first position, the slice and the position in the block that issue
next, the column tile of a window, and whether the pass has begun. -/
structure Sequencer where
  run : Nat
  pass : Nat
  slice0 : Nat
  block : Nat
  t : Nat
  p : Nat
  tile : Nat
  active : Bool
  deriving DecidableEq, Repr

def Sequencer.start : Sequencer := ⟨0, 0, 0, 0, 0, 0, 0, false⟩

/-- The stage on a logical core (05 Table 5.15). `turn` is the input that an UNDEAL takes next, `tps` and
`phase` are its step plan entry (08 Table 8.1), `passNow` the pass to which it last switched and `switchLeft` the core
cycles that the switch still takes (05 R199). -/
structure StageUnit where
  st : StageSt
  wedged : Bool
  area : Bool
  ctx : Nat
  info : Option StageRec
  passes : List PassRec
  pfs : List PfDesc
  stripeFirst : List Nat
  staging : Tbl Staging
  seq : Sequencer
  rowDone : Nat
  outFullRun : Nat
  gatherRange : BitVec 32
  passesRun : BitVec 48
  stalls : Tbl (BitVec 48)
  activeCycles : BitVec 48
  wedgedReports : BitVec 32
  turn : Nat
  tps : Nat
  phase : Nat
  passNow : Nat
  switchLeft : Nat
  deriving DecidableEq, Repr

def StageUnit.cleared : StageUnit :=
  ⟨.empty, false, false, 0, none, [], [], [], [], Sequencer.start, 0, 0, 0, 0, [], 0, 0, 0, 0, 0, 0, 0⟩

/-! ### Update, loss and monitor (08) -/

/-- A coefficient entry, a schedule entry and their keys, copied at load (08 R303, R312). -/
structure UpdTables where
  coefs : Tbl Blob
  scheds : Tbl Blob
  deriving DecidableEq, Repr

/-- The update engine of a core (08 Table 8.14). -/
structure UpdateUnit where
  tables : UpdTables
  expectT : Tbl (BitVec 32)
  layer : Nat
  updatesApplied : BitVec 48
  frozenUpdates : BitVec 32
  stepSkews : BitVec 32
  stepAdoptions : BitVec 32
  skippedUpdates : BitVec 32
  updateNonfinite : BitVec 48
  updateSaturations : BitVec 48
  updatePoisoned : BitVec 48
  lastLr : F32
  lastSkewLayer : BitVec 16
  deriving DecidableEq, Repr

def UpdateUnit.cleared : UpdateUnit := ⟨⟨[], []⟩, [], 0, 0, 0, 0, 0, 0, 0, 0, 0, 0, 0⟩

/-- The loss unit and its monitor (08 R330 to R333, Table 8.14). -/
structure LossUnit where
  monitorN : BitVec 32
  monitorMean : F32
  monitorM2 : F32
  monitorVar : F32
  lastLoss : F32
  lossSpikes : BitVec 32
  ignoredRows : BitVec 32
  stepLoss : Option (F32 × Bool)
  deriving DecidableEq, Repr

def LossUnit.cleared : LossUnit := ⟨0, 0, 0, 0, 0, 0, 0, none⟩

/-- Step snapshots of one endpoint (08 R299): SATURATIONS, NONFINITE, POISONED_WORDS, NAN_ZEROED. -/
structure EpSnap where
  saturations : BitVec 48
  nonfinite : BitVec 48
  poisonedWords : BitVec 48
  nanZeroed : BitVec 48
  deriving DecidableEq, Repr

def EpSnap.zero : EpSnap := ⟨0, 0, 0, 0⟩

/-- One logical core. Ports 0 to 3 are inputs and 4 to 7 outputs in `ctrs` and `snaps`. `taken` counts the
tensors consumed on port 0 in the running step (08 R295), `takes` the tensors begun on each port in it,
`dropNext` the elements that DROPOUT has drawn for in it, `vecPos` the row or element that is next, `leafSkips` the places in
a step of the tensors that an output port discards (08 R320). -/
structure Core where
  arr : ArrayUnit
  win : WindowUnit
  stage : StageUnit
  inp : Tbl InPort
  out : Tbl OutPort
  ctrs : Tbl EpCtr
  snaps : Tbl EpSnap
  upd : UpdateUnit
  loss : LossUnit
  taken : Nat
  takes : Tbl Nat
  dropNext : Nat
  vecPos : Nat
  leafSkips : Tbl (List Nat) := []
  deriving DecidableEq, Repr

def Core.cleared : Core :=
  ⟨ArrayUnit.cleared, WindowUnit.cleared, StageUnit.cleared, [], [], [], [], UpdateUnit.cleared,
   LossUnit.cleared, 0, [], 0, 0, []⟩

/-! ### Shelves (01, 05, 06, 15) -/

/-- The state of a shelf's spare (01 Table 1.6). -/
inductive SpareSt where
  | free | bound | degraded
  deriving DecidableEq, Repr

/-- An LMAP entry (01 Table 1.5). -/
structure LMap where
  site : BitVec 4
  retired : Bool
  rebindPending : Bool
  deriving DecidableEq, Repr

/-- A wedged report received by a detector (05 R210, R211): the core, its full output buffer, and which of the core's
reports it is (WEDGED_REPORTS once it was sent). -/
structure Wedge where
  core : Nat
  stream : Nat
  consumer : Nat
  nth : BitVec 32
  deriving DecidableEq, Repr

/-- A descriptor held by a prefetch engine with its position: the slot in progress, the word in it, the header
of the tensor under way, the words gathered for a stripe, whether a word came poisoned, and, of a WRITE that a READ is
linked to, the slots that hold a tensor not yet read (06 R246, R251; 15 R558, R559). -/
structure PfHeld where
  desc : PfDesc
  ctx : Nat
  stream : Nat
  slot : Nat := 0
  word : Nat := 0
  hdr : Option THdr := none
  got : List SWord := []
  bad : Bool := false
  full : List Nat := []
  deriving DecidableEq, Repr

/-- A request that a prefetch engine has taken (06 R253): the staging fill of a core, or the endpoint of a descriptor,
and the words of its 2 KiB still to move. -/
structure PfReq where
  fill : Bool
  id : Nat
  left : Nat
  deriving DecidableEq, Repr

/-- One live channel of a shelf's check unit (15 R554 to R560): its descriptor, whether a slot is open, the
algorithm, the running value, the bytes taken, and its recency. -/
structure CheckCh where
  desc : Nat
  open' : Bool
  alg : Nat
  value : Nat
  bytes : Nat
  stamp : Nat
  deriving DecidableEq, Repr

/-- The check unit of a shelf (15 Table 15.6). -/
structure CheckUnit where
  live : List CheckCh
  saved : Tbl CheckCh
  clock : Nat
  failures : BitVec 32
  slotsChecked : BitVec 48
  slotsUnchecked : BitVec 32
  switches : BitVec 32
  deriving DecidableEq, Repr

def CheckUnit.zero : CheckUnit := ⟨[], [], 0, 0, 0, 0, 0⟩

/-- One shelf. `carrel` is keyed by site: corrected and uncorrected counts (06 Table 6.10). `pfReqs` are the requests that
the engine holds, the oldest first; `pfFill` says that it took a staging fill last, `pfCore` and `pfEnd` which core's fill
and which endpoint it took last (06 R253). -/
structure Shelf where
  sitesPassed : BitVec 4
  spareSite : BitVec 4
  spareSt : SpareSt
  lmap : Tbl LMap
  escapeSize : BitVec 16
  escapes : BitVec 32
  cancels : BitVec 32
  reports : List Wedge
  confirming : Option (List Wedge × Wedge)
  carrel : Tbl (BitVec 32 × BitVec 32)
  sstoreCorrected : BitVec 32
  sstoreUncorrected : BitVec 32
  pfBase : BitVec 44
  pf : Tbl PfHeld
  pfCount : BitVec 11
  pfRead : BitVec 48
  pfWritten : BitVec 48
  pfReqs : List PfReq
  pfFill : Bool
  pfCore : Nat
  pfEnd : Nat
  check : CheckUnit
  deriving DecidableEq, Repr

/-- A shelf at reset. Until the yield map is written LMAP_n names site Fh, no spare is named and SITES_PASSED is 0: Tables 1.4 to
1.6 say only that bring-up sets them (DESIGN CHOICE, log entry 3). -/
def Shelf.reset : Shelf :=
  ⟨0, 0xF, .free, [], 0, 0, 0, [], none, [], 0, 0, 0, [], 0, 0, 0, [], false, 0, 0, CheckUnit.zero⟩

end Sys2Proof.Machine
end

