-- ==== Sys2Proof/Machine/StateMem.lean ====
section
/-!
DEFINITION. The state of the memory tiers (06): the bytes of the device address space, poison, HBM stacks,
CXL ports and granules; and the loaded image of a context with its streams and trees (05, 03).
-/

namespace Sys2Proof.Machine

/-- Memory: the listed bytes in rising order of address, none of them zero, and the word numbers
(address / 128) that read as poisoned, in rising order (06 R216, R227). An unlisted byte reads as zero. -/
structure Mem where
  cells : List Host.Cell
  poison : List Nat
  deriving DecidableEq, Repr

/-- HBM_STATE (06 Table 6.8). -/
inductive HbmSt where
  | off | training | ready | failed
  deriving DecidableEq, Repr

/-- One HBM controller (06 Table 6.8) with the next word its patrol reads (R232). -/
structure Hbm where
  st : HbmSt
  eccCorrected : BitVec 48
  eccUncorrected : BitVec 48
  patrolPasses : BitVec 32
  patrolUncorrected : BitVec 32
  poisonStored : BitVec 48
  patrolNext : Nat
  deriving DecidableEq, Repr

def Hbm.reset : Hbm := ⟨.off, 0, 0, 0, 0, 0, 0⟩

/-- CXL_STATE LINK (06 Table 6.9). -/
inductive CxlSt where
  | down | training | up | selfRefresh | failed
  deriving DecidableEq, Repr

/-- A write handed to a CXL port and not yet durable: the word number, and the word with its poison that it
replaced (06 R236, R240). -/
structure CxlOp where
  word : Nat
  old : BitVec 1024
  oldPoison : Bool
  deriving DecidableEq, Repr

/-- One CXL port (06 Table 6.9). -/
structure Cxl where
  st : CxlSt
  retained : Bool
  held : Bool
  poisonIn : BitVec 48
  corrected : BitVec 48
  retrains : BitVec 32
  writesLost : BitVec 32
  flight : List CxlOp
  deriving DecidableEq, Repr

def Cxl.reset : Cxl := ⟨.down, false, false, 0, 0, 0, 0, []⟩

/-- One entry of the granule table (06 Table 6.12); `filling` says that its zero fill is still to come, and
`job` names the job of a LEDGER granule. -/
structure Granule where
  context : BitVec 4
  assigned : Bool
  system : Bool
  ledger : Bool
  retain : Bool
  scrubbed : Bool
  lost : Bool
  filling : Bool
  job : Nat
  deriving DecidableEq, Repr

def Granule.reset : Granule := ⟨0, false, false, false, false, false, false, false, 0⟩

/-- The memory tiers and their registers (06); `ledgerLost` is LEDGER_GRANULES_LOST (10 Table 10.14). -/
structure MemSys where
  mem : Mem
  hbm : Tbl Hbm
  cxl : Tbl Cxl
  granules : Tbl Granule
  interleave : Bool
  systemGranules : BitVec 10
  addressFaults : BitVec 32
  ledgerLost : BitVec 32
  deriving DecidableEq, Repr

def MemSys.reset : MemSys := ⟨⟨[], []⟩, [], [], [], false, 128, 0, 0⟩

/-! ### The loaded image (05, 03) -/

/-- A stream table entry (05 Table 5.7); endpoints are kept as their 32-bit references. -/
structure StreamRec where
  producer : BitVec 32
  consumers : List (BitVec 32)
  format : Nat
  cls : Nat
  fanout : Nat
  place : Bool
  chunk : Nat
  maxLen : Nat
  capacity : Nat
  deriving DecidableEq, Repr

/-- A tree node descriptor (03 Table 3.6). -/
structure TreeRec where
  node : Nat
  fanin : Nat
  op : Nat
  shelf : Nat
  fabric : Bool
  out : BitVec 32
  children : List (BitVec 32)
  deriving DecidableEq, Repr

/-- A pipeline image, taken apart (05 R172). -/
structure Image where
  shelves : Nat
  escape : List Nat
  stages : List StageRec
  streams : List StreamRec
  trees : List TreeRec
  passes : List PassRec
  deriving DecidableEq, Repr

/-- One consumer's buffer: words in the escape region of a shelf, each with that shelf, read first (05 R212), then the
buffer's own. `kept` counts the words read that still stand in the buffer, of a tensor that its consumer holds there
(05 R195 REPLAY, R200). -/
structure Buf where
  esc : List (Nat × SWord) := []
  words : List SWord := []
  kept : Nat := 0
  deriving DecidableEq, Repr

/-- The end of a stream at a fabric peer (09 R372): whether the start-of-stream check has passed, the words the peer
may still be sent, and, at a consumer, the words held for which no CREDIT has gone out. -/
structure FabEnd where
  started : Bool := false
  credit : Nat := 0
  held : Nat := 0
  deriving DecidableEq, Repr

/-- A running stream: words that its producer has formed and that wait for space (by consumer; for a
broadcast under key 0), the buffers by consumer, the deal turn (05 R184), its fabric ends by consumer (16 for a producer
on another device), and the words of a tensor gathered for a stripe. -/
structure Stream where
  wait : Tbl (List SWord)
  bufs : Tbl Buf
  turn : Nat
  fab : Tbl FabEnd
  got : List SWord
  deriving DecidableEq, Repr

def Stream.empty : Stream := ⟨[], [], 0, [], []⟩

/-- One child of a tree node: the values that wait, with the tensor headers they belong to, and the header of the tensor being
taken. -/
structure KidQ where
  hdrs : List THdr := []
  vals : List (F32 × Bool) := []
  cur : Option THdr := none
  got : Nat := 0
  deriving DecidableEq, Repr

/-- A tree node at run time (03 R134): child queues, the element next combined, and at a root its output
endpoint with its counters and its scale descriptor (R133). -/
structure TreeNode where
  kids : Tbl KidQ
  pos : Nat
  out : OutPort
  ctr : EpCtr
  desc : ScaleDesc := ⟨0x3F800000#32, false, false⟩
  deriving DecidableEq, Repr

def TreeNode.empty : TreeNode := { kids := [], pos := 0, out := OutPort.empty, ctr := EpCtr.zero }

end Sys2Proof.Machine
end

