-- ==== Sys2Proof/Machine/StateHost.lean ====
section
/-!
DEFINITION. The names that the specification gives to stops and refusals (17 Table 17.5), and the state of
the host link, the job contexts and the catalogue (11).
-/

namespace Sys2Proof.Machine

/-- Run-time stops and faults (17 Table 17.5, second column). -/
inductive StopName where
  | badScale | bbf12GroupOverflow | accScaleMismatch | poolLength | windowGeometry
  | tensorLength | tensorSkew | shapeMissing | deadlockUnresolved | addressFault | memTensorBad
  | intakeOrder | roiSkew | shardHeader | stepSkew | stepLimit | lossTarget
  | fabricStreamMismatch | connectionLimit | coreFailed | granuleLost
  deriving DecidableEq, Repr

/-- The text of a stop, as FAULT_NAME carries it (11 R448). -/
def StopName.text : StopName → String
  | .badScale => "BAD_SCALE" | .bbf12GroupOverflow => "BBF12_GROUP_OVERFLOW"
  | .accScaleMismatch => "ACC_SCALE_MISMATCH" | .poolLength => "POOL_LENGTH"
  | .windowGeometry => "WINDOW_GEOMETRY" | .tensorLength => "TENSOR_LENGTH"
  | .tensorSkew => "TENSOR_SKEW" | .shapeMissing => "SHAPE_MISSING"
  | .deadlockUnresolved => "DEADLOCK_UNRESOLVED" | .addressFault => "ADDRESS_FAULT"
  | .memTensorBad => "MEM_TENSOR_BAD" | .intakeOrder => "INTAKE_ORDER" | .roiSkew => "ROI_SKEW"
  | .shardHeader => "SHARD_HEADER" | .stepSkew => "STEP_SKEW" | .stepLimit => "STEP_LIMIT"
  | .lossTarget => "LOSS_TARGET" | .fabricStreamMismatch => "FABRIC_STREAM_MISMATCH"
  | .connectionLimit => "CONNECTION_LIMIT" | .coreFailed => "CORE_FAILED" | .granuleLost => "LOST"

/-- Refusals at load, at creation and of slips (17 Table 17.5, first column; 11 Table 11.10). -/
inductive RefName where
  | coreRetired | badScale | prepassSpace | bbf12Array | bbf12Mixed | bbf12Limit | bbf12Format
  | bbf12Autoscale | treeFanin | treeDepth | treeShape | windowFormat | padMode | windowShape
  | linebufSpace | stripeThin | stripeVariable | postParam | imageFormat | stageShelf | portConflict
  | streamFormat | streamClass | passSize | passReplay | bufferSpace | imageCyclic | joinDepth
  | escapeSpace | pfDesc | intakeDesc | roiStream | mergeTable | tokenizerSpace | stepPlan | updateDesc
  | updateCoef | schedParam | updateMix | lossDesc | rankTable | ledgerPlan | ledgerTap | ledgerSpace
  | badOp | slipSeq | contextState | notResident | jobPresent | shelfBusy | contextMemory | volumeFormat
  | volumeConflict | hostDma | pullUnavailable | catalogueFull | catalogueSpace | cataloguePinned
  | entryInUse | volumeOwner | volumeSignature | volumeKey
  deriving DecidableEq, Repr

/-- The text of a refusal, as NAME of a return slip carries it (11 Table 11.4). -/
def RefName.text : RefName → String
  | .coreRetired => "CORE_RETIRED" | .badScale => "BAD_SCALE" | .prepassSpace => "PREPASS_SPACE"
  | .bbf12Array => "BBF12_ARRAY" | .bbf12Mixed => "BBF12_MIXED" | .bbf12Limit => "BBF12_LIMIT"
  | .bbf12Format => "BBF12_FORMAT" | .bbf12Autoscale => "BBF12_AUTOSCALE" | .treeFanin => "TREE_FANIN"
  | .treeDepth => "TREE_DEPTH" | .treeShape => "TREE_SHAPE" | .windowFormat => "WINDOW_FORMAT"
  | .padMode => "PAD_MODE" | .windowShape => "WINDOW_SHAPE" | .linebufSpace => "LINEBUF_SPACE"
  | .stripeThin => "STRIPE_THIN" | .stripeVariable => "STRIPE_VARIABLE" | .postParam => "POST_PARAM"
  | .imageFormat => "IMAGE_FORMAT" | .stageShelf => "STAGE_SHELF" | .portConflict => "PORT_CONFLICT"
  | .streamFormat => "STREAM_FORMAT" | .streamClass => "STREAM_CLASS" | .passSize => "PASS_SIZE"
  | .passReplay => "PASS_REPLAY" | .bufferSpace => "BUFFER_SPACE" | .imageCyclic => "IMAGE_CYCLIC"
  | .joinDepth => "JOIN_DEPTH" | .escapeSpace => "ESCAPE_SPACE" | .pfDesc => "PF_DESC"
  | .intakeDesc => "INTAKE_DESC" | .roiStream => "ROI_STREAM" | .mergeTable => "MERGE_TABLE"
  | .tokenizerSpace => "TOKENIZER_SPACE" | .stepPlan => "STEP_PLAN" | .updateDesc => "UPDATE_DESC"
  | .updateCoef => "UPDATE_COEF" | .schedParam => "SCHED_PARAM" | .updateMix => "UPDATE_MIX"
  | .lossDesc => "LOSS_DESC" | .rankTable => "RANK_TABLE" | .ledgerPlan => "LEDGER_PLAN"
  | .ledgerTap => "LEDGER_TAP" | .ledgerSpace => "LEDGER_SPACE" | .badOp => "BAD_OP"
  | .slipSeq => "SLIP_SEQ" | .contextState => "CONTEXT_STATE" | .notResident => "NOT_RESIDENT"
  | .jobPresent => "JOB_PRESENT" | .shelfBusy => "SHELF_BUSY" | .contextMemory => "CONTEXT_MEMORY"
  | .volumeFormat => "VOLUME_FORMAT" | .volumeConflict => "VOLUME_CONFLICT" | .hostDma => "HOST_DMA"
  | .pullUnavailable => "PULL_UNAVAILABLE" | .catalogueFull => "CATALOGUE_FULL"
  | .catalogueSpace => "CATALOGUE_SPACE" | .cataloguePinned => "CATALOGUE_PINNED"
  | .entryInUse => "ENTRY_IN_USE" | .volumeOwner => "VOLUME_OWNER"
  | .volumeSignature => "VOLUME_SIGNATURE" | .volumeKey => "VOLUME_KEY"

/-! ### Rings and slips -/

/-- The result of a slip that has run: RESULT0, RESULT1 and RESULT_EXT, or a refusal. -/
inductive SlipResult where
  | done (r0 r1 : BitVec 64) (ext : BitVec 576)
  | refused (n : RefName)
  deriving DecidableEq, Repr

/-- The STATE of a return slip (11 Table 11.4). -/
inductive RetSt where
  | pending | done | refused | consumed
  deriving DecidableEq, Repr

/-- A return slip (11 Table 11.4). -/
structure RetSlot where
  seq : BitVec 32
  st : RetSt
  op : BitVec 8
  ctx : BitVec 4
  name : Option RefName
  result0 : BitVec 64
  result1 : BitVec 64
  ext : BitVec 576
  deriving DecidableEq, Repr

/-- A ring (11 R429 to R435). `bell` is the last doorbell value taken: slips before it are available. -/
structure Ring where
  calls : Tbl (BitVec 1024)
  rets : Tbl RetSlot
  callSeq : BitVec 32
  bell : BitVec 32
  resetWaiting : Bool
  ackIgnored : BitVec 32
  slipsDone : BitVec 32
  slipsRefused : BitVec 32
  deriving DecidableEq, Repr

def Ring.reset : Ring := ⟨[], [], 0, 0, false, 0, 0, 0⟩

/-- A slip taken and not ended, with its number among all slips ever taken: `running` once its operation has begun,
with its result once it has run; `discard` after a link reset. -/
structure Taken where
  number : Nat
  ring : Nat
  seq : BitVec 32
  slip : BitVec 1024
  result : Option SlipResult
  discard : Bool
  running : Bool := false
  deriving DecidableEq, Repr

/-! ### Contexts -/

/-- Context states (11 Table 11.8). -/
inductive CtxSt where
  | free | creating | idle | loaded | standby | teardown
  deriving DecidableEq, Repr

/-- Context events (11 Table 11.8): 1h FAULTED, 2h RECOVERING, 3h RESUMED, 4h HALTED, 5h BOUND,
6h DESTROYED. -/
inductive CtxEvent where
  | none | faulted | recovering | resumed | halted | bound | destroyed
  deriving DecidableEq, Repr

/-- The source of a fault (11 Table 11.9, FAULT_WHERE_c). -/
inductive FaultSrc where
  | stage | intake | memory | fabric | retirement
  deriving DecidableEq, Repr

/-- The fault record of a context (11 R448). -/
structure FaultRec where
  name : StopName
  core : Option Nat
  src : FaultSrc
  addr : Nat
  deriving DecidableEq, Repr

/-- Why a teardown runs (11 R446): a fault, or DESTROY with its RELEASE_LEDGER bit. -/
inductive TearWhy where
  | fault
  | destroy (releaseLedger : Bool)
  deriving DecidableEq, Repr

/-! ### Volumes and the catalogue -/

/-- A section of a resident volume (11 R437, Table 11.7). -/
structure Section where
  type : Nat
  const : Bool
  image : Nat
  addr : Nat
  data : Blob
  deriving DecidableEq, Repr

/-- A resident volume: its job, its sections kept, its colophon digest, its size in MiB, the index of the
device's own image, and its bytes as a lender gives them (R440). -/
structure Volume where
  job : BitVec 32
  sections : List Section
  digest : BitVec 256
  mib : Nat
  bytes : Nat
  ownImage : Option Nat
  raw : Blob
  vk : BitVec 128
  deriving DecidableEq, Repr

/-- A catalogue entry (11 R450, R451). -/
structure CatEntry where
  job : BitVec 32
  image : Nat
  pinned : Bool
  stamp : BitVec 64
  deriving DecidableEq, Repr

/-! ### The host block -/

/-- A message that leaves the module by PCIe: an MSI-X message of a vector (11 R454). -/
structure MsiX where
  masked : Bool
  pba : Bool
  sent : Nat
  deriving DecidableEq, Repr

def MsiX.reset : MsiX := ⟨true, false, 0⟩

/-- The answer to a PCIe configuration request (12 R465). -/
inductive CfgAnswer where
  | none | retry | normal
  deriving DecidableEq, Repr

/-- The PCIe block and the host control block (11 Table 11.9). `ready` is FABRIC_READY of HOST_STATUS, and `takes`
numbers the slips taken. -/
structure HostLink where
  inReset : Bool
  live : Bool
  ready : Bool
  busy : Bool
  epoch : BitVec 32
  writesIgnored : BitVec 32
  linkResets : BitVec 32
  rings : Tbl Ring
  taken : List Taken
  takes : Nat
  volumes : List Volume
  cat : Tbl CatEntry
  useCount : BitVec 64
  weedings : BitVec 32
  msix : Tbl MsiX
  cfgAnswer : CfgAnswer
  deriving DecidableEq, Repr

def HostLink.reset : HostLink :=
  ⟨true, false, false, true, 0, 0, 0, [], [], 0, [], [], 0, 0, [], .none⟩

end Sys2Proof.Machine
end

