-- ==== Sys2Proof/Machine/StateFabric.lean ====
section
/-!
DEFINITION. The state of the fabric (09): links, packets, the link-state database, accession, connections,
multicast sessions and Ethernet; and of the security engine (14).
-/

namespace Sys2Proof.Machine

/-! ### Links -/

/-- LINK_STATE (09 Table 9.6). -/
inductive LinkSt where
  | down | training | keying | notReady | ready | ethUp
  deriving DecidableEq, Repr

/-- LINK_MODE (09 Table 9.2). -/
inductive LinkMode where
  | off | verhel | ethernet
  deriving DecidableEq, Repr

/-- A packet (09 Table 9.10): its 32-byte header and its payload. -/
structure Pkt where
  hdr : BitVec 256
  payload : Blob
  deriving DecidableEq, Repr

/-- The body of a DATA flit and whether it begins a packet (09 R344). -/
structure FlitBody where
  first : Bool
  body : BitVec 1856
  deriving DecidableEq, Repr

/-- A DATA flit held until an ACK covers it (09 R346, R347): its SEQ, the flit as first sent under it, and how often it
was replayed since ACK last advanced. -/
structure HeldFlit where
  seq : Nat
  flit : Flit
  replays : Nat
  deriving DecidableEq, Repr

/-- A codeword of a Verhel link (09 R343): the lane within the link and the count of its header, and 5,120 bits of flit
data. -/
structure Codeword where
  lane : Nat
  count : Nat
  data : BitVec 5120
  deriving DecidableEq, Repr

/-- The database sync of a link (09 R354, R355, R361): none, an offer still to be made, an offer outstanding, a wait
before the offer is repeated, records being exchanged. -/
inductive SyncSt where
  | idle | wanted | offered | backoff | running
  deriving DecidableEq, Repr

/-- The counters of a link (09 Table 9.16). -/
structure LinkCtr where
  fecCorrected : BitVec 48 := 0
  fecUncorrectable : BitVec 48 := 0
  flitsReplayed : BitVec 48 := 0
  tagFailures : BitVec 32 := 0
  retryExhausted : BitVec 32 := 0
  keepaliveLosses : BitVec 32 := 0
  losEvents : BitVec 32 := 0
  notReadySent : BitVec 32 := 0
  backoffs : BitVec 32 := 0
  creditWait : BitVec 48 := 0
  replayFull : BitVec 48 := 0
  droppedNoLink : BitVec 32 := 0
  fabricMismatches : BitVec 32 := 0
  ethIn : BitVec 48 := 0
  ethOut : BitVec 48 := 0
  ethDropped : BitVec 32 := 0
  pfc : BitVec 32 := 0
  outOfOrder : BitVec 32 := 0
  deriving DecidableEq, Repr

/-- A frame that leaves by Ethernet (09 R379): a sample-transport segment with its header and data to a next hop
(0 = still unresolved), an ARP or neighbour request, or the answer to one. -/
inductive EthOut where
  | segment (ip port hdr : Nat) (data : Blob)
  | resolve (ip : Nat)
  | answer (ip mac : Nat)
  deriving DecidableEq, Repr

/-- One link (09). `mode` and `half` come from the folio; `up4` says that the link runs on four lanes. -/
structure Link where
  mode : LinkMode := .off
  half : Bool := false
  signal : Bool := false
  st : LinkSt := .down
  up4 : Bool := false
  degraded : Bool := false
  lanes : BitVec 8 := 0
  peerReady : Bool := false
  peerAcc : BitVec 16 := 0
  peerLink : BitVec 4 := 0
  peerSerial : BitVec 64 := 0
  -- keying (14 R542 to R545)
  offer : Option (BitVec 64) := none
  confirming : Bool := false
  retryWait : Bool := false
  mismatchWait : Bool := false
  aborts : Nat := 0
  leaving : Nat := 0
  -- sender
  txSeq : Nat := 0
  acked : Nat := 0
  held : List HeldFlit := []
  replay : Option Nat := none
  tx : Tbl (List FlitBody) := []
  credits : Tbl Nat := []
  turn : Tbl Nat := []
  idles : Nat := 0
  datas : Nat := 0
  frag : Nat := 0
  confirmK : BitVec 320 := 0
  out : Option Flit := none
  -- codewords: flit data not yet in one, how many have been sent, and those that the last flit completed
  frame : Blob := Blob.empty
  codes : Nat := 0
  line : List Codeword := []
  -- receiver
  rxSeq : Nat := 0
  nak : Bool := false
  grants : Tbl Nat := []
  asm : Tbl (List FlitBody) := []
  rx : List (Nat × Pkt) := []
  -- database sync
  sync : SyncSt := .idle
  syncSent : Bool := false
  backoffK : Nat := 0
  -- Ethernet
  arp : List (Nat × Nat) := []
  unresolved : List EthOut := []
  paused : Bool := false
  ethHeld : List EthOut := []
  eth : List EthOut := []
  ctr : LinkCtr := {}
  deriving DecidableEq, Repr

/-! ### The fabric unit -/

/-- ACCESSION STATE (09 Table 9.17). -/
inductive AccSt where
  | none | claiming | done | exhausted
  deriving DecidableEq, Repr

/-- A path (09 R363): the links left by, the accession numbers after each hop, its turns and its cost. -/
structure Path where
  links : List Nat
  accs : List Nat
  turns : Nat
  cost : Nat
  deriving DecidableEq, Repr

/-- A packet that a connection's sender holds (09 R370). -/
structure HeldPkt where
  tseq : BitVec 32
  kind : Nat
  operand : Nat
  payload : Blob
  deriving DecidableEq, Repr

/-- A connection that the device sends on (09 R369, R370): peer accession, JOB, CHANNEL, its FLOW, the next TSEQ, the
packets held and those that wait for room among 64. -/
structure TxConn where
  peer : Nat
  job : BitVec 32
  channel : Nat
  flow : BitVec 8
  next : BitVec 32
  held : List HeldPkt
  waiting : List HeldPkt
  deriving DecidableEq, Repr

/-- A connection that the device receives on: the TSEQ it expects, and the FLOW of the reverse connection, on which its
ACKs travel. -/
structure RxConn where
  peer : Nat
  job : BitVec 32
  channel : Nat
  expect : BitVec 32
  flow : BitVec 8
  deriving DecidableEq, Repr

/-- A child in a multicast session (09 R376 to R378): its accession, the bytes sent, whether it is attached, whether
it has sent DONE. -/
structure McastChild where
  acc : Nat
  sent : Nat := 0
  attached : Bool := true
  done : Bool := false
  deriving DecidableEq, Repr

/-- A loan that a lender has still to answer (09 R377): the borrower, the offset and the length. -/
structure Loan where
  peer : Nat
  off : Nat
  len : Nat
  deriving DecidableEq, Repr

/-- A multicast session at a member (09 Table 9.12, R376 to R378). `got` is how far its copy is written from the
start; `borrow` is the next offset it asks for while it borrows, up to `borrowEnd`; `verified` says that the owner of
the session has accepted the copy (12 R485). -/
structure Session where
  job : BitVec 32
  number : Nat
  parent : Option Nat
  root : Option Nat := none
  children : List McastChild
  dest : Nat
  length : Nat
  budget : Nat
  got : Nat
  borrowing : Bool := false
  borrow : Nat := 0
  outstanding : List (Nat × Nat) := []
  loans : List Loan := []
  verified : Bool := true
  doneSent : Bool := false
  deriving DecidableEq, Repr

/-- A fabric pull of a job volume (11 R440): the lender, the chunks of 64 KiB still to be asked for, those outstanding
with the bytes that have come, and those that are whole. -/
structure Pull where
  peer : Nat
  job : BitVec 32
  want : List Nat
  out : Tbl Blob
  chunks : Tbl Blob
  headed : Bool
  deriving DecidableEq, Repr

/-- A sample-transport segment that has arrived (09 Table 9.14): the link it came by, Ethernet or the relay's; the context
and the entry; its header and its data. -/
structure Seg where
  src : Nat
  ctx : Nat
  entry : Nat
  hdr : BitVec 256
  data : Blob
  deriving DecidableEq, Repr

/-- The fabric unit (09 Table 9.17) and its tables. `lsdb` is keyed by SERIAL. `dirty` says that the database has
changed since the last computation of routes. -/
structure Fabric where
  links : Tbl Link := []
  folio : Option Blob := none
  folioInvalid : Bool := false
  accInvalid : Bool := false
  accConflict : Bool := false
  acc : Nat := 0
  provisional : Bool := false
  accSt : AccSt := .none
  flooded : Bool := false
  seq : BitVec 32 := 0
  lsdb : Tbl (BitVec 1728) := []
  routes : Tbl (List Path) := []
  dirty : Bool := false
  tx : List TxConn := []
  rx : List RxConn := []
  sessions : List Session := []
  pulls : List Pull := []
  segs : List Seg := []
  relays : List (BitVec 32 × Nat × Nat) := []
  conflicts : BitVec 32 := 0
  lsdbOverflows : BitVec 32 := 0
  recomputes : BitVec 32 := 0
  lostReports : BitVec 32 := 0
  misdelivered : BitVec 32 := 0
  retransmits : BitVec 48 := 0
  remoteDenied : BitVec 32 := 0
  laggedDetaches : BitVec 32 := 0
  loansServed : BitVec 32 := 0
  loansTaken : BitVec 32 := 0
  deriving DecidableEq, Repr

/-! ### The security engine (14) -/

/-- The keys that a slot can hold (14 Table 14.6). -/
inductive KeyId where
  | identity | memDev | ledger (job : BitVec 32) | ctxMem (c : Nat) | volume (job : BitVec 32)
  | sample (job : BitVec 32) | exported (job : BitVec 32) | hop (link dir : Nat) | ephemeral (link : Nat)
  deriving DecidableEq, Repr

/-- A key slot (14 R533): the key itself where it cannot be computed again, whether a cipher unit or the engine uses it,
and when it was last used. -/
structure KeySlot where
  key : KeyId
  bits : BitVec 256
  inUse : Bool
  stamp : Nat
  deriving DecidableEq, Repr

/-- LIFECYCLE (14 Table 14.12). -/
inductive Lifecycle where
  | manufacture | deployed | returned
  deriving DecidableEq, Repr

/-- The base point of the curve of GB/T 32918, x then y: the public key of the private key 1. -/
def sm2Base : BitVec 512 :=
  0xBC3736A2F4F6779C59BDCEE36B692153D0A9877CC62A474002DF32E52139F0A032C4AE2C1F1981195F9904466A39C9948FE30BBFF2660BE1715A4589334C74C7

/-- The fuses, the certificate facts and the security engine block (14 R517, Table 14.12). `identity` is the identity
private key as it is inside the engine (R520); at reset the pair is that of the private key 1 (log entry 9). `release` is a RELEASE that
waits for the volumes under way: its NEXT_OWNER_DIGEST and the slips taken before it (R530). -/
structure Sec where
  serial : BitVec 64 := 1
  siliconRev : BitVec 8 := 0
  lifecycle : Lifecycle := .deployed
  debugLocked : Bool := true
  minSvn : Nat := 0
  chain : Blob := Blob.empty
  identity : BitVec 256 := 1
  publicKey : BitVec 512 := sm2Base
  slots : Tbl KeySlot := []
  clock : Nat := 0
  waiting : List (KeyId × BitVec 256) := []
  reqType : BitVec 8 := 0
  reqResult : BitVec 8 := 0
  colophonFailures : BitVec 32 := 0
  volumeRefusals : BitVec 32 := 0
  keyings : BitVec 32 := 0
  keyingFailures : BitVec 32 := 0
  lastKeyFail : BitVec 8 := 0
  reports : BitVec 32 := 0
  slotWaits : BitVec 32 := 0
  report : Blob := Blob.empty
  release : Option (BitVec 256 × Nat) := none
  deriving DecidableEq, Repr

end Sys2Proof.Machine
end

