-- ==== Sys2Proof/Machine/StateLedger.lean ====
section
/-!
DEFINITION. The ledger of a context (10): its commit, its recovery, its control records and its block of Table
10.15; and the sessions of its loaders and its export (09 R381, R384; 10 R423).
-/

namespace Sys2Proof.Machine

/-- LEDGER_CTX_STATE (10 Table 10.15). -/
inductive LedgerSt where
  | none | running | committing | recovering | halted | standby
  deriving DecidableEq, Repr

/-- A control record (10 R406). -/
structure Ctrl where
  typ : Nat
  seq : BitVec 32
  src : Nat
  rank : Nat := 0
  acc : Nat := 0
  step : Nat := 0
  arg : Nat := 0
  deriving DecidableEq, Repr

/-- A commit in progress (10 R393 to R402). `digests` holds the digests of the rank's own objects by plan index; `layers`,
`monitor` and `batches` are the per-layer steps, the loss monitor state and the next batches as they stood at the commit
point; `leaf` is what the rank's leaf has sent, 0 or a cause, and `answer` what the root's broadcast has said. -/
structure Commit where
  c : Nat
  slot : Nat
  snapDone : Bool := false
  cause : Nat := 0
  digests : Tbl (BitVec 256) := []
  record : Option Blob := none
  parity : List Nat := []
  copied : List Nat := []
  layers : Tbl (BitVec 32) := []
  monitor : BitVec 128 := 0
  batches : List (Nat × Nat × Nat) := []
  leaf : Option Nat := none
  answer : Option Nat := none
  deriving DecidableEq, Repr

/-- A recovery as its coordinator runs it (10 R410): the ranks still to be bound, the spares already tried for the
first of them, the spare that a BIND is under way to, the answers RESTORED by rank, and the ranks whose contexts faulted; `rejoin` says that no recovery runs, but a
dropped rank is offered to a spare (R422). -/
structure Recovery where
  unbound : List Nat
  tried : List Nat := []
  offered : Option Nat := none
  answers : Tbl Nat := []
  faulted : List Nat := []
  rejoin : Bool := false
  deriving DecidableEq, Repr

/-- The ledger of a context. `waiting` is a commit point whose snapshot is still to start, and `point` what held there; `taps`
holds the bytes of tap objects copied in the running step, by plan index, and whether their tensor is whole; `copies` has the
digests of the partner copies held here and `got` the bytes of COPY objects written so far, both by twice the plan index and
the slot; `wards` holds the latest records of other ranks, `leaves` the commit and the value that their leaves have sent to this
rank's node of the commit tree; `queues` counts the intake queues of the rank's image, `aux` the bytes that one slot has for
partner copies and parity, as they were reserved; `joining` is a dropped rank with the spare that
is to rejoin it, `joinReady` that the spare has its state; `ranks` is the rank table, by accession; `partners` names the partner of each TAP or COPY
object by plan index; `sealedPartners` those of the last sealed commit; `reads` collects what READs of other ranks'
images have returned; `incoming` gathers what WRITEs of other ranks
bring that may be their records, with the next address; `stripes` is what the loader was told of striped
windows; `rebound` says that the recovery under way has had a REBIND, `adopting` that this
device, a spare, has taken the rank and has still to restore it. -/
structure Ledger where
  st : LedgerSt := .none
  coordinator : Bool := false
  feedShared : Bool := false
  elasticDegraded : Bool := false
  lastSealed : BitVec 32 := 0
  hasSealed : Bool := false
  sealedSlot : Nat := 1
  commit : Option Commit := none
  waiting : Option Nat := none
  point : Commit := { c := 0, slot := 0 }
  taps : Tbl (Blob × Bool) := []
  copies : Tbl (BitVec 256) := []
  got : Tbl Nat := []
  wards : Tbl Blob := []
  leaves : Tbl (Nat × Nat) := []
  queues : Nat := 0
  aux : Nat := 0
  recovery : Option Recovery := none
  seq : BitVec 32 := 0
  heard : Option Nat := none
  retries : Nat := 0
  ranks : List Nat := []
  former : List Nat := []
  dropped : List Nat := []
  drops : BitVec 32 := 0
  partners : Tbl Nat := []
  sealedPartners : Tbl Nat := []
  fallback : List Nat := []
  reads : Tbl Blob := []
  incoming : Tbl (Nat × Blob) := []
  stripes : Tbl (List Nat) := []
  restoring : Bool := false
  rebound : Bool := false
  adopting : Bool := false
  resume : List (Nat × Nat × Nat) := []
  mail : List Ctrl := []
  sent : List (Nat × Ctrl) := []
  joining : Option (Nat × Nat) := none
  joinReady : Bool := false
  noSpare : Bool := false
  sealed' : BitVec 32 := 0
  failed : BitVec 32 := 0
  lastFail : BitVec 18 := 0
  waits : BitVec 32 := 0
  haltCause : BitVec 4 := 0
  snapshotBytes : BitVec 48 := 0
  recoveries : BitVec 32 := 0
  rebinds : BitVec 32 := 0
  localRollbacks : BitVec 32 := 0
  mismatches : BitVec 32 := 0
  elasticDrops : BitVec 32 := 0
  elasticJoins : BitVec 32 := 0
  feedSharedObjects : BitVec 32 := 0
  resumeStep : BitVec 32 := 0
  exports : BitVec 32 := 0
  deriving DecidableEq, Repr

/-- The session of a loader table entry at the receiver (09 R381, 14 R541): the next byte expected, the wraps of SEQ,
the bytes accepted and not yet handed on, and the segments accepted since the last ACK. -/
structure LoadSession where
  next : Nat
  wrap : Nat
  buf : Blob
  since : Nat
  deriving DecidableEq, Repr

/-- An export under way (10 R423): the commit, its slot, its byte stream, how much is sent and acknowledged. -/
structure ExportRun where
  c : Nat
  slot : Nat
  data : Blob
  acked : Nat
  sent : Nat
  deriving DecidableEq, Repr

/-- A job of the ledger directory (10 Table 10.6, TYPE 1). -/
structure LedgerJob where
  job : BitVec 32
  rank : Nat
  slot : Nat
  sealed' : BitVec 32
  deriving DecidableEq, Repr

/-- The ledger unit (10 Table 10.14): the directory's state, its jobs, and the jobs whose RELEASE record has come. -/
structure LedgerUnit where
  valid : Bool := false
  copy : Bool := false
  generation : BitVec 32 := 0
  jobs : List LedgerJob := []
  releases : BitVec 32 := 0
  releaseMail : List (BitVec 32) := []
  deriving DecidableEq, Repr

end Sys2Proof.Machine
end

