-- ==== Sys2Proof/Machine/StateCtx.lean ====
section
/-!
DEFINITION. The state of a job context: its slot (11 Table 11.9), its loaded image and streams (05), its
step block and verdict (08 Table 8.15), and its ledger block (10).
-/

namespace Sys2Proof.Machine

/-- The context step block (08 Table 8.15) and the progress of the running step: the verdict taken for it
(R335), the leaf value sent (R334) and the sources that fired. -/
structure StepBlk where
  jobStep : BitVec 32 := 0
  verdictLast : BitVec 7 := 0
  stepNonfinite : BitVec 48 := 0
  stepSaturations : BitVec 48 := 0
  stepPoisoned : BitVec 48 := 0
  stepsApplied : BitVec 32 := 0
  stepsSkipped : BitVec 32 := 0
  stepRollbacks : BitVec 32 := 0
  fired : BitVec 5 := 0
  leaf : Option Nat := none
  verdict : Option Nat := none
  deriving DecidableEq, Repr

/-- A teardown under way (11 R446). -/
structure Tear where
  why : TearWhy
  started : Bool
  deriving DecidableEq, Repr

/-- One context slot; `loading` says that an image is placed and not every stage is READY (11 R444), `tC` holds the
per-layer steps T_C of the last sealed commit by layer number (10 R386), `plan` is the ledger plan, `taps` counts the tensors of the running step by stream (10 R395), `loader` is the loader
table with its sessions by entry (09 R380). -/
structure Ctx where
  st : CtxSt := .free
  standby : Bool := false
  mask : BitVec 12 := 0
  lastEvent : CtxEvent := .none
  job : BitVec 32 := 0
  rank : BitVec 14 := 0
  entry : Option Nat := none
  faults : BitVec 32 := 0
  teardowns : BitVec 32 := 0
  fault : Option FaultRec := none
  unload : Bool := false
  loading : Bool := false
  tear : Option Tear := none
  image : Option Image := none
  streams : Tbl Stream := []
  nodes : Tbl TreeNode := []
  options : Blob := Blob.empty
  plan : Blob := Blob.empty
  step : StepBlk := {}
  tC : Tbl (BitVec 32) := []
  taps : Tbl Nat := []
  loader : Blob := Blob.empty
  sessions : Tbl LoadSession := []
  exporting : Option ExportRun := none
  led : Ledger := {}
  deriving DecidableEq, Repr

end Sys2Proof.Machine
end

