-- ==== Sys2Proof/Machine/StateBring.lean ====
section
/-!
DEFINITION. The state of bring-up, yield and core firmware (12), of power, ageing, defaults and the Metering
Unit (13), of the imprint (14 Table 14.2, 16 Table 16.8) and of the connectors (16).
-/

namespace Sys2Proof.Machine

/-- The ordering codes (00 Table 0.1). -/
inductive Variant where
  | oqt5424 | oqt5418 | oqt5412
  deriving DecidableEq, Repr

/-! ### The imprint -/

/-- A boot folio copy (12 Table 12.2); `valid` says that its colophon verifies. -/
structure BootFolio where
  valid : Bool := false
  generation : BitVec 32 := 0
  slotB : Bool := false
  trial : Bool := false
  trialStarted : Bool := false
  epoch : BitVec 32 := 0
  lastCampaign : BitVec 32 := 0
  deriving DecidableEq, Repr

/-- A firmware slot: its bytes, whether its colophon verifies, what its package says, its colophon's DIGEST. -/
structure FwSlot where
  data : Blob := Blob.empty
  valid : Bool := false
  facts : PkgFacts := {}
  digest : BitVec 256 := 0
  deriving DecidableEq, Repr

/-- The entry of one island in the wear ledger (13 Table 13.2); `lowered` counts the steps taken by clock (R501). -/
structure Wear where
  s : BitVec 16 := 0
  level : BitVec 8 := 0
  guard : BitVec 6 := 0
  ageingLimit : Bool := false
  clk : BitVec 16 := 0
  lowered : Nat := 0
  deriving DecidableEq, Repr

/-- A wear ledger folio copy (13 Table 13.2). -/
structure WearFolio where
  valid : Bool := false
  generation : BitVec 32 := 0
  epoch : BitVec 32 := 0
  measurements : BitVec 32 := 0
  baselineEpoch : BitVec 32 := 0
  islands : Tbl Wear := []
  deriving DecidableEq, Repr

/-- The owner folio (14 R526). -/
structure OwnerFolio where
  valid : Bool := true
  key : Option (BitVec 512) := none
  nonce : BitVec 32 := 0
  nextDigest : BitVec 256 := 0
  sequence : BitVec 32 := 0
  deriving DecidableEq, Repr

/-- The imprint (16 Table 16.8): boot folio copies, firmware slots A and B, the factory folio (whether it verifies, its
DIGEST), the wear ledger and owner folio copies, the calibration folio (whether it verifies, its DIGEST, its header, the
highest clock that its V/F table allows an island, where that is below the fused maximum), the fabric folio and the owner
layer with their colophons, the stored owner request, and, by REGION, the bytes written and not committed (16 R580). -/
structure Imprint where
  boot0 : BootFolio := { valid := true, generation := 1 }
  boot1 : BootFolio := { valid := true }
  slotA : FwSlot := { valid := true }
  slotB : FwSlot := {}
  factoryValid : Bool := true
  factoryDigest : BitVec 256 := 0
  calValid : Bool := true
  calDigest : BitVec 256 := 0
  calClock : Tbl Nat := []
  calOwner : Bool := false
  baselineEmpty : Bool := true
  recalCount : BitVec 8 := 0
  recalPending : Bool := false
  wear0 : WearFolio := { valid := true, generation := 1 }
  wear1 : WearFolio := { valid := true }
  fabric : Option Blob := none
  ownerLayer : Option Blob := none
  owner0 : OwnerFolio := { sequence := 1 }
  owner1 : OwnerFolio := {}
  writes : Tbl Blob := []
  deriving DecidableEq, Repr

/-! ### Bring-up (12) -/

/-- A core site (12 Table 12.9, R471, R475): its cause and failure, its firmware failures, whether a self-test
result is known, the blocks held, the next block expected, NAKs under way to the shelf controller, unicast copies
under way to the site, whether it has reported VERIFIED and whether it runs the firmware. -/
structure Site where
  cause : BitVec 4 := 0
  failed : Bool := false
  fwFailures : BitVec 2 := 0
  tested : Bool := false
  blocks : List Nat := []
  next : Nat := 0
  naks : List Nat := []
  unicasts : List Nat := []
  verified : Bool := false
  running : Bool := false
  deriving DecidableEq, Repr

/-- The warm record (12 R470). -/
structure Warm where
  epoch : BitVec 32
  calDigest : BitVec 256
  complete : Bool
  sites : Tbl Site
  deriving DecidableEq, Repr

/-- A power wave under way (12 R468): its number, its domains that are on and not settled, and, in the retry of
a wave, the domains still to be switched on one at a time. `wake` marks a run-time wave (13 R497). -/
structure WaveRun where
  wave : Nat
  on : List Nat
  retry : List Nat
  retrying : Bool
  wake : Bool
  deriving DecidableEq, Repr

/-- The campaign of a member (12 Tables 12.6, 12.10). -/
structure Campaign where
  state : BitVec 3 := 0
  slot : Option Nat := none
  attempts : BitVec 2 := 0
  id : BitVec 32 := 0
  record : BitVec 512 := 0
  deriving DecidableEq, Repr

/-- The bring-up and firmware block (12 Table 12.10) and the progress behind it. `fwNext` is the next block that
a shelf controller multicasts; `spareTests` the logical cores whose spare is under test; `wakes` the shelves
whose cores wake at run time, `waveQueue` the domains that wait to be switched on at run time, `mediaFailed` the media
complexes that failed their own test (R471). -/
structure Bringup where
  phase : BitVec 4 := 0
  warm : Bool := false
  recal : Bool := false
  halted : Bool := false
  limitExceeded : Bool := false
  failCode : BitVec 8 := 0
  slotB : Bool := false
  slotFallback : Bool := false
  trial : Bool := false
  fwRolledBack : Bool := false
  wearReset : Bool := false
  ownerInvalid : Bool := false
  wave : Option WaveRun := none
  waveQueue : List Nat := []
  lastWave : BitVec 4 := 0
  waveRetries : BitVec 8 := 0
  phaseEnd : Tbl (BitVec 48) := []
  domainOn : BitVec 80 := 0
  domainFailed : BitVec 80 := 0
  retirements : BitVec 32 := 0
  spareBindings : BitVec 32 := 0
  spareTestFails : BitVec 32 := 0
  fwNaks : BitVec 32 := 0
  fwUnicasts : BitVec 32 := 0
  fwSiteFails : BitVec 32 := 0
  campaign : Campaign := {}
  sites : Tbl Site := []
  shelfTested : List Nat := []
  mediaFailed : List Nat := []
  fwNext : Tbl Nat := []
  spareTests : List Nat := []
  wakes : List Nat := []
  warmRec : Option Warm := none
  deriving DecidableEq, Repr

/-! ### Power, ageing, defaults and the Metering Unit (13) -/

/-- An owner value of a default and what became of it (13 R508 to R510). -/
structure OwnerVal where
  value : BitVec 32
  rejected : Bool
  deriving DecidableEq, Repr

/-- The Metering Unit's published record (13 Table 13.8). -/
structure MuRec where
  seq : BitVec 32 := 0
  sealIntact : Bool := true
  selfCheckOk : Bool := false
  inClass : Bool := false
  inputPresent : Bool := false
  energyMj : BitVec 64 := 0
  powerMw : BitVec 32 := 0
  voltageMv : BitVec 32 := 0
  inputLosses : BitVec 32 := 0
  fwVersion : BitVec 32 := 0
  fwDigest : BitVec 256 := 0
  deriving DecidableEq, Repr

/-- The Metering Unit (13 R511 to R514, 16 R582): what it counts and holds itself, its committed totals, and the
window that its last record wrote. -/
structure Mu where
  seq : BitVec 32 := 0
  energyMj : BitVec 64 := 0
  inputLosses : BitVec 32 := 0
  committed : Option (BitVec 64) := none
  powered : Bool := false
  sealIntact : Bool := true
  fwVersion : BitVec 32 := 0
  fwDigest : BitVec 256 := 0
  present : Bool := false
  window : MuRec := {}
  tx : Blob := Blob.empty
  sent : Nat := 0
  deriving DecidableEq, Repr

/-- The power and ageing block (13 Table 13.7) and what it counts. `wear` holds the entries of every island, `sinceBase`
and `baseEpoch` the measurements since the baseline and its EPOCH; `defaults` holds owner values by ID; `systemGib` is the
value of SYSTEM_HBM_GIB in force in this bring-up. -/
structure Power where
  powerUnmet : Bool := false
  resetCause : BitVec 4 := 0
  nextCause : BitVec 4 := 0
  inputMv : BitVec 32 := 0
  inputPowerW : BitVec 32 := 0
  govCeiling : Nat := 3000
  govBelow : Nat := 0
  thermal : Tbl Nat := []
  thermalBelow : Tbl Nat := []
  govStepsDown : BitVec 32 := 0
  thermalSteps : BitVec 32 := 0
  measurements : BitVec 32 := 0
  wearWrites : BitVec 32 := 0
  guardRaises : BitVec 32 := 0
  clockLowered : BitVec 32 := 0
  domainGatings : BitVec 32 := 0
  domainWakes : BitVec 32 := 0
  measuring : Bool := false
  temps : Tbl (BitVec 8) := []
  wear : Tbl Wear := []
  sinceWrite : Nat := 0
  sinceBase : BitVec 32 := 0
  baseEpoch : BitVec 32 := 0
  defaults : Tbl OwnerVal := []
  systemGib : Nat := 8
  deriving DecidableEq, Repr

/-! ### Connectors (16) -/

/-- Input, pins and the die resets (16 R565, R572 to R574). -/
structure Pins where
  inserted : Bool := false
  modResetN : Bool := true
  perstN : Bool := true
  pwrGood : Bool := false
  thermAlertN : Bool := true
  addrSel0 : Bool := true
  addrSel1 : Bool := true
  inRange : Bool := false
  diesInReset : Bool := true
  resetRequested : Bool := false
  tripLatched : Bool := false
  deriving DecidableEq, Repr

/-- The management interface (16 R575 to R578): the dynamic address, the event enable, the last request (its OPCODE and
TAG, and whether its response waits for a RELEASE under way), the response not yet read, the data bytes of the in-band
interrupts raised, and what has been read from the port. -/
structure Mgmt where
  dyn : Option (BitVec 7) := none
  events : Bool := true
  opcode : Nat := 0
  tag : Nat := 0
  waiting : Bool := false
  response : Option Blob := none
  interrupts : List Nat := []
  answers : List Blob := []
  deriving DecidableEq, Repr

end Sys2Proof.Machine
end

