-- ==== Sys2Proof/Machine/StateMedia.lean ====
section
/-!
DEFINITION. The state of the media complexes (07): queues with their descriptors, samples, reserve pools, counters
and manifests, the tokenizer store and the credit records sent.
-/

namespace Sys2Proof.Machine

/-- A sample record as a queue holds it (07 Table 7.3): the header word, the payload, whether a payload word came
poisoned, and the cause that parsing its stream headers finds, 0 for none (R265 steps 5 and 6),
and the working memory that it holds (R587). -/
structure Sample where
  hdr : BitVec 512
  payload : Blob
  poisoned : Bool
  info : StreamInfo
  heldMib : Option Nat
  deriving DecidableEq, Repr

/-- The progress of the sample that fills a position: it waits for room or a decoder, decodes, is decoded, or is
corrupt and awaits a reserve sample (07 R266, R289, R291). -/
inductive SamplePhase where
  | waiting | decoding | decoded | corrupt
  deriving DecidableEq, Repr

/-- A batch position in progress: the sample it belongs to, the sample that fills it, the cost held for it, what
decoding yields, the tensors emitted on the main output and frames done on the region output, the manifest records of
skipped samples, and whether its wait for a reserve sample is counted. -/
structure Position where
  owner : Sample
  batch : Nat
  pos : Nat
  cand : Sample
  substituted : Bool
  phase : SamplePhase
  cost : Nat
  yields : Decoded
  tokens : List Nat
  emitted : Nat
  regions : Nat
  skips : List (BitVec 256)
  waited : Bool
  deriving DecidableEq, Repr

/-- QUEUE_STATE (07 Table 7.13). -/
inductive QueueSt where
  | closed | opened | stopped
  deriving DecidableEq, Repr

/-- An intake queue (07 Tables 7.2, 7.13). `expect` is the next batch and position; `freed` the credits freed since
the last credit record, `lastFree` the FREE that it carried; `roiDrop` the region sets still to be discarded;
`nextBatch` the batch after the last whole one consumed, `snap` the step snapshot of its main output (08 R299). -/
structure Queue where
  st : QueueSt := .closed
  ctx : Nat := 0
  desc : Blob := Blob.empty
  expect : Option (Nat × Nat) := none
  positions : List Position := []
  pool : List Sample := []
  seq : BitVec 32 := 0
  freed : Nat := 0
  lastFree : Nat := 0
  roiDrop : Nat := 0
  nextBatch : Nat := 0
  manifest : List (BitVec 256) := []
  outs : Tbl OutPort := []
  ctrs : Tbl EpCtr := []
  snap : EpSnap := EpSnap.zero
  accepted : BitVec 48 := 0
  emitted : BitVec 48 := 0
  corrupt : BitVec 32 := 0
  implausible : BitVec 32 := 0
  substitutions : BitVec 32 := 0
  lateCorrupt : BitVec 32 := 0
  reserveWaits : BitVec 32 := 0
  creditOverruns : BitVec 32 := 0
  predecoded : BitVec 32 := 0
  shortSamples : BitVec 32 := 0
  roiInvalid : BitVec 32 := 0
  roiWait : BitVec 48 := 0
  roomWait : BitVec 48 := 0
  utf8Replaced : BitVec 32 := 0
  textTruncated : BitVec 32 := 0
  lastCause : BitVec 8 := 0
  lastCorruptIndex : BitVec 64 := 0
  deriving DecidableEq, Repr

/-- A merge table in a tokenizer store (07 R283): the context that holds it, its address, its entries. -/
structure TokenTable where
  ctx : Nat
  addr : Nat
  merges : List (Nat × Nat)
  deriving DecidableEq, Repr

/-- A media complex (07 Table 7.12, 15 Table 15.7) with the credit records it has sent, each with its LOADER_REF. -/
structure Complex where
  queues : Tbl Queue := []
  tables : List TokenTable := []
  credits : List (Nat × BitVec 128) := []
  closedDrops : BitVec 32 := 0
  pixelsDecoded : BitVec 48 := 0
  jpegPixels : BitVec 48 := 0
  audioSamples : BitVec 48 := 0
  textBytes : BitVec 48 := 0
  filmGrain : BitVec 32 := 0
  recordChecks : BitVec 48 := 0
  recordCheckFails : BitVec 32 := 0
  deriving DecidableEq, Repr

end Sys2Proof.Machine
end

