-- ==== Sys2Proof/Machine/State.lean ====
section
/-!
DEFINITION. The state of the module, and the reasons a command can stop.
-/

namespace Sys2Proof.Machine

/-- Why a command stops. -/
inductive Fault where
  /-- A command names a unit that the module does not have (a core beyond 143, a shelf beyond 11, a context
  beyond 15 and so on). Raised by `withUnit` before any effect. Safe: the module has no such unit. -/
  | noSuchUnit
  deriving DecidableEq, Repr

/-- Why a command has no meaning. -/
inductive Refusal where
  /-- The command's meaning is not modelled yet; raised only by an arm of `exec`. Safe: nothing happens. -/
  | notModelled (mnemonic : String)
  deriving DecidableEq, Repr

/-- The state of the module. `variant` is the ordering code: the fuses fix it at manufacture and the specification names none
for reset, the model starts as OQT-5424 (DESIGN CHOICE, log entry 2). `latches` holds, by requester and address, the high half that the read of a low half has
latched (00 R20). -/
structure State where
  variant : Variant := .oqt5424
  cores : Tbl Core := []
  shelves : Tbl Shelf := []
  mem : MemSys := MemSys.reset
  ctxs : Tbl Ctx := []
  media : Tbl Complex := []
  host : HostLink := HostLink.reset
  fab : Fabric := {}
  sec : Sec := {}
  ledger : LedgerUnit := {}
  bring : Bringup := {}
  power : Power := {}
  mu : Mu := {}
  imprint : Imprint := {}
  pins : Pins := {}
  mgmt : Mgmt := {}
  latches : Tbl (Tbl Nat) := []
  freeCtr : Nat := 0
  pending : List Instr := []
  deriving DecidableEq, Repr

/-- The state right after reset, with the dies without supply: every register at the value that its table gives, the
retention granule marked (06 Table 6.12), memory with nothing listed and the queue of commands empty. -/
def State.reset : State :=
  { mem := { MemSys.reset with granules := [(4608, { Granule.reset with retain := true })] } }

end Sys2Proof.Machine
end

