-- ==== Sys2Proof/Machine/Ops.lean ====
section
/-!
DEFINITION. The shared operations: sparse tables, field slices, the records of cores, shelves and contexts,
bytes and words of memory, context faults and stage stops.
-/

namespace Sys2Proof

/-! ### Sparse tables -/

/-- The entry under key `k`. -/
def tget {α : Type} : Tbl α → Nat → Option α
  | [], _ => none
  | (j, v) :: t, k => if j = k then some v else tget t k

/-- The entry under key `k`, or `d` where there is none. -/
def tgetD {α : Type} (t : Tbl α) (k : Nat) (d : α) : α := (tget t k).getD d

/-- The table with `v` under key `k`, in its place in the order of keys. -/
def tset {α : Type} : Tbl α → Nat → α → Tbl α
  | [], k, v => [(k, v)]
  | (j, w) :: t, k, v =>
    if k < j then (k, v) :: (j, w) :: t
    else if k = j then (k, v) :: t
    else (j, w) :: tset t k v

/-- The table without key `k`. -/
def terase {α : Type} : Tbl α → Nat → Tbl α
  | [], _ => []
  | (j, w) :: t, k => if j = k then t else (j, w) :: terase t k

/-- The table with the entry under `k` changed by `f` from what it holds, or from `d`. -/
def tmod {α : Type} (t : Tbl α) (k : Nat) (d : α) (f : α → α) : Tbl α := tset t k (f (tgetD t k d))

/-! ### Field slices of byte strings and words (00 R9) -/

/-- Bits `[lo + w - 1 : lo]` of a number. -/
def bits (n lo w : Nat) : Nat := n / 2 ^ lo % 2 ^ w

/-- Bit `i` of a number. -/
def bit (n i : Nat) : Bool := n / 2 ^ i % 2 = 1

/-- Bits of a blob. -/
def Blob.bits (b : Blob) (lo w : Nat) : Nat := Sys2Proof.bits b.val lo w

/-- The bytes `[off, off + n)` of a blob, zero beyond its end. -/
def Blob.slice (b : Blob) (off n : Nat) : Blob := ⟨n, Sys2Proof.bits b.val (8 * off) (8 * n)⟩

/-- Two byte strings one after the other. -/
def Blob.append (a b : Blob) : Blob := ⟨a.len + b.len, a.val + b.val * 2 ^ (8 * a.len)⟩

/-- Byte `i` of a blob. -/
def Blob.byte (b : Blob) (i : Nat) : Nat := b.val / 2 ^ (8 * i) % 256

/-- The bytes of a blob, in order. -/
def Blob.bytes (b : Blob) : List Nat := (List.range b.len).map b.byte

/-- A blob of given bytes. -/
def Blob.ofBytes (l : List Nat) : Blob := ⟨l.length, l.foldr (fun b acc => b % 256 + 256 * acc) 0⟩

def boolNat (b : Bool) : Nat := if b then 1 else 0

/-- The text of a name as a number: its ASCII bytes from the lowest address, padded with 00h (11 R431). -/
def asciiNat (s : String) : Nat := s.toList.foldr (fun c acc => c.toNat + 256 * acc) 0

/-- A number as sections placed one above another: each value with its width, the first at bit 0. -/
def packFields : List (Nat × Nat) → Nat
  | [] => 0
  | (v, w) :: t => v % 2 ^ w + 2 ^ w * packFields t

namespace Machine

abbrev Out := Host.Outcome State Fault Refusal

/-! ### Units and their records -/

def State.core (s : State) (n : Nat) : Core := tgetD s.cores n Core.cleared
def State.setCore (s : State) (n : Nat) (c : Core) : State := { s with cores := tset s.cores n c }
def State.modCore (s : State) (n : Nat) (f : Core → Core) : State := s.setCore n (f (s.core n))
def State.shelf (s : State) (n : Nat) : Shelf := tgetD s.shelves n Shelf.reset
def State.setShelf (s : State) (n : Nat) (x : Shelf) : State := { s with shelves := tset s.shelves n x }
def State.modShelf (s : State) (n : Nat) (f : Shelf → Shelf) : State := s.setShelf n (f (s.shelf n))
def State.ctx (s : State) (n : Nat) : Ctx := tgetD s.ctxs n {}
def State.setCtx (s : State) (n : Nat) (c : Ctx) : State := { s with ctxs := tset s.ctxs n c }
def State.modCtx (s : State) (n : Nat) (f : Ctx → Ctx) : State := s.setCtx n (f (s.ctx n))
def State.hbm (s : State) (n : Nat) : Hbm := tgetD s.mem.hbm n Hbm.reset
def State.modHbm (s : State) (n : Nat) (f : Hbm → Hbm) : State :=
  { s with mem := { s.mem with hbm := tset s.mem.hbm n (f (s.hbm n)) } }
def State.cxl (s : State) (n : Nat) : Cxl := tgetD s.mem.cxl n Cxl.reset
def State.modCxl (s : State) (n : Nat) (f : Cxl → Cxl) : State :=
  { s with mem := { s.mem with cxl := tset s.mem.cxl n (f (s.cxl n)) } }

/-- Counts of the device (01 R24 to R29, 11 R441). -/
def nCores : Nat := 144
def nShelves : Nat := 12
def nSites : Nat := 156
def nCtx : Nat := 16
def nGranules : Nat := 12800

/-- A command on a unit: the fault `noSuchUnit` where the unit does not exist. -/
def withUnit (ok : Bool) (r : State) : Out := if ok then .next r else .fault .noSuchUnit

/-! ### Free values -/

/-- A free value of `w` bits and the state in which it is taken (log entry 1). -/
def State.free (s : State) (w : Nat) : BitVec w × State :=
  (Config.freeValue w s.freeCtr, { s with freeCtr := s.freeCtr + 1 })

/-! ### Placement of cores (01 R24, R25, 05 R174) -/

/-- The shelves of a SHELF_MASK, in ascending order. -/
def shelvesOf (mask : BitVec 12) : List Nat := (List.range 12).filter fun i => mask.getLsbD i

/-- The logical core of image core `n` of a context (05 R174); no core where the context lacks the shelf. -/
def lcoreOf (c : Ctx) (n : Nat) : Option Nat := ((shelvesOf c.mask)[n / 12]?).map fun sh => sh * 12 + n % 12

/-- The context that holds a shelf. -/
def shelfOwner (s : State) (sh : Nat) : Option Nat :=
  (List.range nCtx).find? fun c => (s.ctx c).st != .free && (s.ctx c).mask.getLsbD sh

/-- The site that holds a logical core (01 Table 1.5). -/
def lmapOf (s : State) (core : Nat) : LMap := tgetD (s.shelf (core / 12)).lmap (core % 12) ⟨0xF, false, false⟩

def siteOf (s : State) (core : Nat) : Nat := (lmapOf s core).site.toNat

/-! ### The device address space (06 Table 6.2, R216 to R220) -/

/-- The regions of the address map. -/
inductive Tier where
  | hbm | cxl | shelf (n : Nat) | carrel (core : Nat) | control | unmapped
  deriving DecidableEq, Repr

def tierOf (a : Nat) : Tier :=
  if a < 0x4800000000 then .hbm
  else if 0x8000000000 ≤ a && a < 0x10000000000 then .cxl
  else if 0x10000000000 ≤ a && a < 0x10018000000 then
    (if (a - 0x10000000000) % 0x2000000 < 0x1800000 then .shelf ((a - 0x10000000000) / 0x2000000) else .unmapped)
  else if 0x14000000000 ≤ a && a < 0x14024000000 then .carrel ((a - 0x14000000000) / 0x400000)
  else if 0x1F000000000 ≤ a && a < 0x20000000000 then .control
  else .unmapped

def shelfWindow (sh : Nat) : Nat := 0x10000000000 + sh * 0x2000000
def carrelWindow (core : Nat) : Nat := 0x14000000000 + core * 0x400000

/-- The granule of an HBM or CXL address (06 R220). -/
def granuleOf (a : Nat) : Nat := if a < 0x8000000000 then a / 2 ^ 26 else 4608 + (a - 0x8000000000) / 2 ^ 26

/-- The first address of a granule. -/
def granuleBase (n : Nat) : Nat := if n < 4608 then n * 2 ^ 26 else 0x8000000000 + (n - 4608) * 2 ^ 26

def State.granule (s : State) (n : Nat) : Granule := tgetD s.mem.granules n Granule.reset
def State.modGranule (s : State) (n : Nat) (f : Granule → Granule) : State :=
  { s with mem := { s.mem with granules := tset s.mem.granules n (f (s.granule n)) } }

/-- A context owns a granule: assigned to it, and neither LEDGER, SYSTEM, RETAIN nor LOST (06 Table 6.12). -/
def ownsGranule (s : State) (c n : Nat) : Bool :=
  let g := s.granule n
  g.assigned && g.context.toNat == c && !g.system && !g.retain && !g.lost && !g.ledger

/-- The stack, the offset in it and the pseudo-channel of an HBM address (06 R229). -/
def hbmPlace (a : Nat) (deviceMode : Bool) : Nat × Nat × Nat :=
  let c := a / 2 ^ 11
  let die := if a ≥ 0x2400000000 then 1 else 0
  let cd := c - die * 0x4800000
  let stack := if deviceMode then c % 8 else 4 * die + cd % 4
  let off := (if deviceMode then c / 8 else cd / 4) * 2 ^ 11 + a % 2 ^ 11
  (stack, off, off / 2 ^ 11 % 32)

/-- The port and the offset in its buffer of a CXL address (06 R234). -/
def cxlPlace (a : Nat) : Nat × Nat :=
  let die := if a ≥ 0xC000000000 then 1 else 0
  (2 * die + a / 2 ^ 12 % 2, a % 2 ^ 38 / 2 ^ 13 * 2 ^ 12 + a % 2 ^ 12)

/-! ### Bytes and words of memory -/

/-- What an unlisted address reads as (log entry 5). -/
def unlistedByte : Byte := 0

def cellsRead : List Host.Cell → Nat → Byte
  | [], _ => unlistedByte
  | (b, v) :: t, a => if b = a then v else cellsRead t a

/-- A write keeps the form: rising addresses, no entry equal to what an unlisted address reads as. -/
def cellsWrite : List Host.Cell → Nat → Byte → List Host.Cell
  | [], a, v => if v = unlistedByte then [] else [(a, v)]
  | (b, w) :: t, a, v =>
    if a < b then (if v = unlistedByte then (b, w) :: t else (a, v) :: (b, w) :: t)
    else if a = b then (if v = unlistedByte then t else (a, v) :: t)
    else (b, w) :: cellsWrite t a v

/-- The canonical form of the listed bytes. -/
def cellsWf : List Host.Cell → Bool
  | [] => true
  | (_, v) :: [] => v != unlistedByte
  | (a, v) :: (b, w) :: t => v != unlistedByte && a < b && cellsWf ((b, w) :: t)

/-- A set of numbers in rising order. -/
def setInsert : List Nat → Nat → List Nat
  | [], n => [n]
  | m :: t, n => if n < m then n :: m :: t else if n = m then m :: t else m :: setInsert t n

def setErase : List Nat → Nat → List Nat
  | [], _ => []
  | m :: t, n => if n = m then t else m :: setErase t n

def risingWf : List Nat → Bool
  | [] => true
  | _ :: [] => true
  | a :: b :: t => a < b && risingWf (b :: t)

/-- The canonical form of memory. -/
def Mem.wf (m : Mem) : Bool := cellsWf m.cells && risingWf m.poison

def Mem.read (m : Mem) (a : Nat) : Byte := cellsRead m.cells a
def Mem.write (m : Mem) (a : Nat) (v : Byte) : Mem := { m with cells := cellsWrite m.cells a v }

/-- The 128-byte word at `128 * w`, its byte at the lowest address in bits [7:0] (00 R10, 06 R217). -/
def Mem.word (m : Mem) (w : Nat) : BitVec 1024 :=
  BitVec.ofNat 1024 ((List.range 128).foldr (fun i acc => (m.read (128 * w + i)).toNat + 256 * acc) 0)

/-- Write the bytes `i` to 127 of a word. -/
def Mem.writeBytes (m : Mem) (base : Nat) (v : Nat) : Nat → Mem
  | 0 => m
  | n + 1 => (m.writeBytes base v n).write (base + n) (BitVec.ofNat 8 (v / 2 ^ (8 * n)))

/-- Write one whole word and its poison (06 R217, R227: a whole word written over poison clears it). -/
def Mem.setWord (m : Mem) (w : Nat) (v : BitVec 1024) (poison : Bool) : Mem :=
  let m' := m.writeBytes (128 * w) v.toNat 128
  { m' with poison := if poison then setInsert m'.poison w else setErase m'.poison w }

def Mem.poisoned (m : Mem) (w : Nat) : Bool := m.poison.contains w

/-- The listed bytes and the poison of `[lo, hi)` set to zero: a zero fill (06 R225, R228). -/
def Mem.zeroRange (m : Mem) (lo hi : Nat) : Mem :=
  ⟨m.cells.filter fun c => c.1 < lo || hi ≤ c.1, m.poison.filter fun w => 128 * w < lo || hi ≤ 128 * w⟩

/-- `n` bytes from `a` as a number. -/
def Mem.readNat (m : Mem) (a n : Nat) : Nat :=
  (List.range n).foldr (fun i acc => (m.read (a + i)).toNat + 256 * acc) 0

/-- `n` bytes written at `a` from a number, leaving poison alone. -/
def Mem.writeNat (m : Mem) (a n v : Nat) : Mem := m.writeBytes a v n

/-- Some word of `[a, a + n)` is poisoned. -/
def Mem.poisonedRange (m : Mem) (a n : Nat) : Bool := m.poison.any fun w => a / 128 ≤ w && 128 * w < a + n

def State.setMem (s : State) (m : Mem) : State := { s with mem := { s.mem with mem := m } }

/-! ### Context events and faults (11 R448, R449) -/

/-- Between HALT and RESUME, and while its job is halted, no word of a context moves (10 R410, R414). -/
def Ctx.held (x : Ctx) : Bool := x.led.st = .recovering || x.led.st = .halted

def EpCtr.addSat (c : EpCtr) : EpCtr := { c with saturations := c.saturations + 1 }
def EpCtr.addNonfinite (c : EpCtr) : EpCtr := { c with nonfinite := c.nonfinite + 1 }
def EpCtr.addNanZeroed (c : EpCtr) : EpCtr := { c with nanZeroed := c.nanZeroed + 1 }
def EpCtr.addPoison (c : EpCtr) (n : Nat) : EpCtr :=
  { c with poisonedWords := c.poisonedWords + BitVec.ofNat 48 n }

/-- One MSI-X message of a vector, or its PBA bit where the vector is masked (11 R454). -/
def raiseVector (s : State) (v : Nat) : State :=
  let f (m : MsiX) : MsiX := if m.masked then { m with pba := true } else { m with sent := m.sent + 1 }
  { s with host := { s.host with msix := tmod s.host.msix v MsiX.reset f } }

/-- A fault of a context (11 R446, R448): the first one is recorded, each one counts, and a teardown
becomes due. -/
def contextFault (s : State) (c : Nat) (f : FaultRec) : State :=
  s.modCtx c fun x =>
    { x with
      faults := x.faults + 1
      fault := match x.fault with | none => some f | some g => some g
      tear := match x.tear with | none => some ⟨.fault, false⟩ | some t => some t }

/-- The source that FAULT_WHERE shows for a name that stops a stage: memory for the names of the memory chapter, fabric
for a stream that does not match, the stage for every other (11 Table 11.9). -/
def stopSource : StopName → FaultSrc
  | .addressFault | .memTensorBad => .memory
  | .fabricStreamMismatch => .fabric
  | _ => .stage

/-- A stage stops under a name and its context faults (05 R205). Rows in flight are discarded and no pending
drain is emitted (03 R127). -/
def stopStage (s : State) (core : Nat) (n : StopName) (addr : Nat) : State :=
  let s1 := s.modCore core fun c =>
    { c with
      stage := { c.stage with st := .stopped }
      arr := { c.arr with flight := [], held := none, snaps := [] } }
  contextFault s1 (s.core core).stage.ctx ⟨n, some core, stopSource n, addr⟩

/-- An address fault of a stage (06 R218): nothing is accessed and ADDRESS_FAULTS counts it. -/
def addressFault (s : State) (core addr : Nat) : State :=
  let s1 := { s with mem := { s.mem with addressFaults := s.mem.addressFaults + 1 } }
  stopStage s1 core .addressFault addr

/-- Whether a context's stage or engine may reach `[a, a + n)` (06 R218): HBM and CXL granules it owns, and
the shelf stores of its shelves. -/
def mayReach (s : State) (c a n : Nat) : Bool :=
  let lo := a / 128
  let hi := (a + (n - 1)) / 128
  let ok (x : Nat) : Bool :=
    match tierOf x with
    | .hbm | .cxl => ownsGranule s c (granuleOf x)
    | .shelf sh => (s.ctx c).mask.getLsbD sh
    | _ => false
  -- a range is contiguous: its ends, and every granule between them, decide
  ok (128 * lo) && ok (128 * hi) &&
    (List.range (granuleOf (128 * hi) - granuleOf (128 * lo) + 1)).all fun i =>
      match tierOf (128 * lo) with
      | .hbm | .cxl => ownsGranule s c (granuleOf (128 * lo) + i) && tierOf (128 * lo) = tierOf (128 * hi)
      | _ => tierOf (128 * lo) = tierOf (128 * hi)

/-- A context owns every granule of `[a, a + n)` (06 R221); a granule is memory of HBM or CXL. -/
def ownsBytes (s : State) (c a n : Nat) : Bool :=
  (match tierOf a with | .hbm | .cxl => true | _ => false) && mayReach s c a n

end Machine

end Sys2Proof
end

