-- ==== Sys2Proof/Machine/Site.lean ====
section
/-!
DEFINITION. Islands, power domains and core sites: which domain holds an island (01 Tables 1.8, 1.9), the
effective defaults (13 R508, R509), the yield map (12 R477), the failure of a site and the binding of a spare
(12 R478, R479; 01 R34 to R37), and the consequence of a failed domain (12 R469).
-/

namespace Sys2Proof.Machine

/-! ### The ordering code and the defaults (00 Table 0.1, 13 Table 13.5) -/

/-- ORDERING of DEVICE_ID (11 Table 11.9). -/
def ordering : Variant → Nat
  | .oqt5424 => 24 | .oqt5418 => 18 | .oqt5412 => 12

/-- The fused clock maximum in MHz. -/
def fusedClock : Variant → Nat
  | .oqt5424 => 3000 | .oqt5418 => 2600 | .oqt5412 => 2000

/-- The fused power limit in W. -/
def fusedPower : Variant → Nat
  | .oqt5424 => 2400 | .oqt5418 => 1800 | .oqt5412 => 1200

/-- Factory values of the defaults (13 Table 13.5). -/
def factoryDefault (v : Variant) (id : Nat) : Nat :=
  match id with
  | 0 => fusedPower v | 1 => fusedClock v | 2 => 8 | 3 => 0 | 4 => 8 | 5 => 1 | 6 => 26 | 7 => 100 | 8 => 50
  | 9 => 40 | 10 => 1600
  | _ => 0

/-- The owner range of a default (13 Table 13.5). -/
def ownerInRange (id v : Nat) : Bool :=
  match id with
  | 0 => 100 ≤ v && v ≤ 65535
  | 1 => 1000 ≤ v && v ≤ 65535 && v % 100 = 0
  | 2 => 2 ≤ v && v ≤ 32
  | 3 => v ≤ 1
  | 4 => v ≤ 65535
  | 5 => v ≤ 1
  | 6 => 20 ≤ v && v ≤ 34
  | 7 => 85 ≤ v && v ≤ 105
  | 8 => 10 ≤ v && v ≤ 500
  | 9 => v ≤ 60 && v % 5 = 0
  | 10 => 1000 ≤ v && v ≤ 2000 && v % 100 = 0
  | _ => false

/-- The value of a default that an owner layer makes effective (13 R508). -/
def effectiveOf (v : Variant) (layer : Tbl OwnerVal) (id : Nat) : Nat :=
  match tget layer id with
  | none => factoryDefault v id
  | some o => if o.rejected then factoryDefault v id
    else if id ≤ 1 then min (factoryDefault v id) o.value.toNat else o.value.toNat

/-- The effective value of a default (13 R508). -/
def State.default (s : State) (id : Nat) : Nat := effectiveOf s.variant s.power.defaults id

/-! ### Islands, sites and domains (01 Tables 1.8, 1.9) -/

/-- The domain of a core site: its group in its shelf. -/
def siteDomain (i : Nat) : Nat :=
  let sh := i / 13
  let t := i % 13
  let g := if t < 4 then 0 else if t < 7 then 1 else if t < 10 then 2 else 3
  (if sh < 6 then 0 else 40) + sh % 6 * 4 + g

/-- The domain of the shelf store island of a shelf. -/
def shelfDomain (sh : Nat) : Nat := (if sh < 6 then 0 else 40) + 24 + sh % 6

/-- The four core-group domains of a shelf. -/
def coreDomains (sh : Nat) : List Nat := (List.range 4).map fun g => (if sh < 6 then 0 else 40) + sh % 6 * 4 + g

/-- The domain of an island (a media complex island by its streams domain). -/
def islandDomain (i : Nat) : Nat :=
  if i < 156 then siteDomain i
  else if i < 168 then shelfDomain (i - 156)
  else if i < 176 then (if i < 172 then 30 + (i - 168) else 70 + (i - 172))
  else if i < 180 then (if i < 178 then 39 else 79)
  else if i < 188 then (let p := i - 180; (if p < 4 then 36 else 76) + p % 4 / 2)
  else if i = 188 then 35
  else if i = 189 then 75
  else if i = 190 then 38
  else if i = 191 then 78
  else 39

def domainOn (s : State) (d : Nat) : Bool := s.bring.domainOn.getLsbD d
def islandOn (s : State) (i : Nat) : Bool := domainOn s (islandDomain i)

/-- The island of a logical core's site runs. -/
def coreOn (s : State) (core : Nat) : Bool :=
  siteOf s core < 13 && islandOn s (core / 12 * 13 + siteOf s core)

/-- The die of an island of a core site or a shelf. -/
def islandDie (i : Nat) : Nat :=
  if i < 156 then i / 78
  else if i < 168 then (i - 156) / 6
  else if i < 176 then (i - 168) / 4
  else if i < 180 then (i - 176) / 2
  else if i < 188 then (i - 180) / 4
  else if i = 189 ∨ i = 191 then 1 else 0

def State.site (s : State) (i : Nat) : Site := tgetD s.bring.sites i {}
def State.modSite (s : State) (i : Nat) (f : Site → Site) : State :=
  { s with bring := { s.bring with sites := tset s.bring.sites i (f (s.site i)) } }
def State.modBring (s : State) (f : Bringup → Bringup) : State := { s with bring := f s.bring }

/-! ### The warm record (12 R470) -/

/-- Whether CXL granules are there to hold the warm record: its port is up. -/
def warmHeld (s : State) : Bool := (s.cxl 0).st = .up

/-- The warm record is written, complete or not. -/
def writeWarm (s : State) (complete : Bool) : State :=
  if warmHeld s then
    s.modBring fun b => { b with
      warmRec := some ⟨s.host.epoch, s.imprint.calDigest, complete, b.sites⟩ }
  else s

/-- The record is rewritten at a retirement with the flag that it has. -/
def rewriteWarm (s : State) : State :=
  match s.bring.warmRec with
  | some w => writeWarm s w.complete
  | none => s

/-! ### The yield map (12 R477) -/

def goodSites (s : State) (sh : Nat) : List Nat := (List.range 13).filter fun t => !(s.site (sh * 13 + t)).failed

/-- LMAP, SPARE_STATE and SITES_PASSED of a shelf from its good sites. -/
def yieldMap (good : List Nat) (x : Shelf) : Shelf :=
  { x with
    sitesPassed := BitVec.ofNat 4 good.length
    lmap := (List.range 12).map fun n =>
      (n, match good[n]? with
        | some t => ⟨BitVec.ofNat 4 t, false, false⟩
        | none => ⟨0xF, true, false⟩)
    spareSite := if good.length = 13 then 12 else 0xF
    spareSt := if good.length = 13 then .free else if good.length = 12 then .bound else .degraded }

/-! ### Failures of sites while the device runs (12 R478, R479) -/

/-- The logical core that a site serves. -/
def coreOfSite (s : State) (i : Nat) : Option Nat :=
  ((List.range 12).find? fun n =>
    (tgetD (s.shelf (i / 13)).lmap n ⟨0xF, true, false⟩).site.toNat = i % 13 &&
      !(tgetD (s.shelf (i / 13)).lmap n ⟨0xF, true, false⟩).retired).map fun n => i / 13 * 12 + n

/-- A shelf that a rebinding may change at once: held by no context, by an IDLE one, or after step 3 of a
teardown (12 R479, R489). -/
def atBoundary (s : State) (sh : Nat) : Bool :=
  match shelfOwner s sh with
  | none => true
  | some c => ((s.ctx c).st = .idle && !(s.ctx c).loading) ||
    ((s.ctx c).st = .teardown && match (s.ctx c).tear with | some t => t.started | none => false)

/-- The pending rebinding of a logical core takes effect: its spare goes under test (12 R479, step 4). -/
def rebindNow (s : State) (core : Nat) : State :=
  if (lmapOf s core).rebindPending && !s.bring.spareTests.contains core then
    s.modBring fun b => { b with spareTests := b.spareTests ++ [core] }
  else s

/-- Every pending rebinding of a shelf takes effect (11 R446 step 3). -/
def rebindShelf (s : State) (sh : Nat) : State := (List.range 12).foldl (fun s n => rebindNow s (sh * 12 + n)) s

/-- The stage on a retired core stops with CORE_FAILED and its context faults, its source the retirement. A context that is
still being loaded is IDLE and does not fault: its load is over (12 R489). -/
def retireStage (s : State) (core : Nat) : State :=
  let c := s.core core
  match c.stage.info with
  | none => s
  | some _ =>
    if c.stage.st = .stopped then s
    else
      let s1 := s.modCore core fun c => { c with
        stage := { c.stage with st := .stopped }
        arr := { c.arr with flight := [], held := none, snaps := [] } }
      if (s.ctx c.stage.ctx).st = .idle then s1.modCtx c.stage.ctx fun x => { x with loading := false }
      else contextFault s1 c.stage.ctx ⟨.coreFailed, some core, .retirement, 0⟩

/-- The spare of a shelf fails outside the test of 12 R479: no core can be bound to it any more, a test of it is over, and
the shelf is DEGRADED where a logical core waits for it; otherwise STATE reads SPARE_BOUND (DESIGN CHOICE, log entry 40). -/
def spareLost (s : State) (sh : Nat) : State :=
  (s.modShelf sh fun x => { x with
    spareSite := 0xF
    lmap := x.lmap.map fun p => (p.1, { p.2 with rebindPending := false })
    spareSt := if x.lmap.any (fun p => p.2.retired) then .degraded else if x.spareSt = .free then .bound else x.spareSt
    }).modBring fun b => { b with spareTests := b.spareTests.filter fun c => c / 12 ≠ sh }

/-- A core site fails while the device runs (12 R478, R479). -/
def siteFail (s : State) (i : Nat) (cause : BitVec 4) : State :=
  if (s.site i).failed then s
  else
    let s1 := s.modSite i fun x => { x with cause := cause, failed := true, running := false }
    let sh := i / 13
    match coreOfSite s i with
    | none =>
      rewriteWarm (if (s1.shelf sh).spareSite.toNat = i % 13 then spareLost s1 sh else s1)
    | some core =>
      let s2 := retireStage s1 core
      let s3 := s2.modBring fun b => { b with retirements := b.retirements + 1 }
      let x := s3.shelf sh
      let free : Bool := x.spareSt = .free && !(x.lmap.any fun p => p.2.rebindPending)
      let s4 := s3.modShelf sh fun x => { x with
        lmap := tset x.lmap (core % 12) { tgetD x.lmap (core % 12) ⟨0xF, false, false⟩ with
          retired := true, rebindPending := free }
        spareSt := if free then x.spareSt else .degraded }
      let s5 := rewriteWarm s4
      if free && atBoundary s5 sh then rebindNow s5 core else s5

/-- The spare's test ends (12 R479, step 4). The table changes only at a job boundary (01 R36): a test that ends while
the shelf's context is at work takes effect at its next boundary. A shelf that has lost a further core stays DEGRADED
(01 R37). What the core's carrel window holds stays (DESIGN CHOICE, log entry 41). -/
def spareTestDone (s : State) (sh : Nat) (ok : Bool) : State :=
  match s.bring.spareTests.find? fun c => c / 12 = sh with
  | none => s
  | some core =>
    if !atBoundary s sh then s else
    let x := s.shelf sh
    let s1 := s.modBring fun b => { b with spareTests := b.spareTests.filter (· ≠ core) }
    if ok then
      let m := tset x.lmap (core % 12) ⟨x.spareSite, false, false⟩
      (s1.modShelf sh fun x => { x with
          lmap := m, spareSite := 0xF
          spareSt := if m.any fun p => p.2.retired then .degraded else .bound }).modBring fun b =>
        { b with spareBindings := b.spareBindings + 1 }
    else
      let s2 := s1.modSite (sh * 13 + x.spareSite.toNat) fun t => { t with cause := 0xA, failed := true, running := false }
      rewriteWarm ((s2.modShelf sh fun x => { x with
          lmap := tset x.lmap (core % 12) { tgetD x.lmap (core % 12) ⟨0xF, true, false⟩ with rebindPending := false }
          spareSite := 0xF
          spareSt := .degraded }).modBring fun b => { b with spareTestFails := b.spareTestFails + 1 })

/-- A site fails during bring-up, before the yield maps are written: it is left out of its map (12 R477). -/
def siteFailBoot (s : State) (i : Nat) (cause : BitVec 4) : State :=
  if (s.site i).failed then s
  else s.modSite i fun x => { x with cause := cause, failed := true, running := false }

/-- Whether the yield maps of this bring-up stand. -/
def mapsWritten (s : State) : Bool := s.bring.phase = 8 || s.bring.phase = 0xF

/-- A site fails, before or after the yield maps. -/
def failSite (s : State) (i : Nat) (cause : BitVec 4) : State :=
  if mapsWritten s then siteFail s i cause else siteFailBoot s i cause

/-- A domain that stays off (12 R468, R469). A halt is decided by the phase. -/
def domainFailed (s : State) (d : Nat) : State :=
  let s1 := s.modBring fun b => { b with
    domainFailed := b.domainFailed ||| (1#80 <<< d)
    domainOn := b.domainOn &&& ~~~(1#80 <<< d) }
  let sites := (List.range nSites).filter fun i => siteDomain i = d || shelfDomain (i / 13) = d
  sites.foldl (fun s i => failSite s i 1) s1

/-! ### Stores and tiers that stand still or err (01 R52; 06 R227, R228, R240; 12 R478) -/

/-- The HBM stack of an address under the interleave in force (06 R229). -/
def hbmStack (s : State) (a : Nat) : Nat := (hbmPlace a s.mem.interleave).1

/-- An access to the address stalls: the island that answers it is stopped (01 R52), the stack is not ready, or the CXL
port is not up (06 R240). -/
def tierStalls (s : State) (a : Nat) : Bool :=
  match tierOf a with
  | .cxl => (s.cxl (cxlPlace a).1).st ≠ .up || !islandOn s (176 + (cxlPlace a).1)
  | .hbm => (s.hbm (hbmStack s a)).st ≠ .ready || !islandOn s (168 + hbmStack s a)
  | .shelf n => !domainOn s (shelfDomain n)
  | .carrel n => !coreOn s n
  | _ => false

/-- Some part of `[a, a + n)` stalls: no piece of 2 KiB lies on two stacks, ports or stores. -/
def rangeStalls (s : State) (a n : Nat) : Bool :=
  n ≠ 0 && (List.range ((a + n - 1) / 2048 - a / 2048 + 1)).any fun i => tierStalls s (2048 * (a / 2048 + i))

/-- A counter of a carrel store, kept at the physical site (06 R228). -/
def countCarrel (s : State) (core : Nat) (unc : Bool) : State :=
  s.modShelf (core / 12) fun x =>
    let t := siteOf s core
    let v := tgetD x.carrel t (0, 0)
    { x with carrel := tset x.carrel t (if unc then (v.1, v.2 + 1) else (v.1 + 1, v.2)) }

/-- A site whose carrel store has reached RETIRE_UNCORRECTED fails (12 R478); 0 means never. -/
def carrelTrigger (s : State) (core : Nat) : State :=
  let t := siteOf s core
  let n := (tgetD (s.shelf (core / 12)).carrel t (0, 0)).2.toNat
  if s.default 4 ≠ 0 && n ≥ s.default 4 then failSite s (core / 12 * 13 + t) 9 else s

/-- The event of an error that a read of a carrel or shelf store meets (06 R227). -/
def storeEvent (s : State) (t : Tier) (e : Ecc) : State :=
  match e, t with
  | .corrected, .shelf n => s.modShelf n fun x => { x with sstoreCorrected := x.sstoreCorrected + 1 }
  | .corrected, .carrel n => countCarrel s n false
  | .uncorrected, .shelf n => s.modShelf n fun x => { x with sstoreUncorrected := x.sstoreUncorrected + 1 }
  | .uncorrected, .carrel n => carrelTrigger (countCarrel s n true) n
  | _, _ => s

end Sys2Proof.Machine
end

