-- ==== Sys2Proof/Machine/Check.lean ====
section
/-!
DEFINITION. Check values (15): the algorithms of Table 15.1, the pseudocode of R553, and the channels of a
shelf's check unit.
-/

namespace Sys2Proof.Machine

/-- An algorithm of 15 Table 15.1. -/
structure CrcAlg where
  w : Nat
  poly : Nat
  init : Nat
  reflected : Bool
  xorout : Nat
  deriving DecidableEq, Repr

/-- ALG 1h to 4h. -/
def crc32c : CrcAlg := ⟨32, 0x1EDC6F41, 0xFFFFFFFF, true, 0xFFFFFFFF⟩
def crc32 : CrcAlg := ⟨32, 0x04C11DB7, 0xFFFFFFFF, true, 0xFFFFFFFF⟩
def crc64 : CrcAlg := ⟨64, 0x42F0E1EBA9EA3693, 0, false, 0⟩
def crc16 : CrcAlg := ⟨16, 0x1021, 0xFFFF, false, 0⟩

/-- A number of `w` bits read backwards: RPOLY of 15 Table 15.1. -/
def reverseBits (w n : Nat) : Nat := (List.range w).foldl (fun acc i => 2 * acc + n / 2 ^ i % 2) 0

/-- `crc_byte` of 15 R553. -/
def crcByte (a : CrcAlg) (v b : Nat) : Nat :=
  if a.reflected then
    (List.range 8).foldl (fun v _ => if v % 2 = 1 then Nat.xor (v / 2) (reverseBits a.w a.poly) else v / 2)
      (Nat.xor v b)
  else
    (List.range 8).foldl
      (fun v _ => if v / 2 ^ (a.w - 1) % 2 = 1 then Nat.xor (v * 2) a.poly % 2 ^ a.w else v * 2 % 2 ^ a.w)
      (Nat.xor v (b * 2 ^ (a.w - 8)))

/-- The running value after `n` bytes of a little-endian number. -/
def crcBytes (a : CrcAlg) (v data n : Nat) : Nat :=
  (List.range n).foldl (fun v k => crcByte a v (data / 2 ^ (8 * k) % 256)) v

/-- The running value of a channel that has just opened: the initial value, the tag absorbed (15 R553, R556). -/
def crcOpen (a : CrcAlg) (tag : Nat) : Nat := crcBytes a a.init tag 8

/-- `check_value` of 15 R553 with a tag. -/
def checkValue (a : CrcAlg) (tag : Nat) (b : Blob) : Nat := Nat.xor (crcBytes a (crcOpen a tag) b.val b.len) a.xorout

/-- A check with no tag (16 R576, R582). -/
def checkPlain (a : CrcAlg) (b : Blob) : Nat := Nat.xor (crcBytes a a.init b.val b.len) a.xorout

end Sys2Proof.Machine
end

