-- ==== Sys2Proof/Machine/Cipher.lean ====
section
/-!
DEFINITION. The algorithms that the specification names by their standards (PRESUMED, log entries 20 and 21): the SM3
digest (GB/T 32905), the SM4 block cipher (GB/T 32907), its counter, Galois/counter and XTS modes (IEEE 1619), the key
derivation function and the curve of GB/T 32918. Byte strings are little-endian numbers, first byte lowest (00 R9, R10).
-/

namespace Sys2Proof.Machine

/-! ### SM3 (PRESUMED: GB/T 32905; log entry 20) -/

def sm3Iv : List (BitVec 32) :=
  [0x7380166F#32, 0x4914B2B9#32, 0x172442D7#32, 0xDA8A0600#32, 0xA96F30BC#32, 0x163138AA#32, 0xE38DEE4D#32,
   0xB0FB0E4E#32]

def sm3P0 (x : BitVec 32) : BitVec 32 := x ^^^ x.rotateLeft 9 ^^^ x.rotateLeft 17
def sm3P1 (x : BitVec 32) : BitVec 32 := x ^^^ x.rotateLeft 15 ^^^ x.rotateLeft 23

/-- The expansion of a block: 68 words, newest first. -/
def sm3Expand : Nat → List (BitVec 32) → List (BitVec 32)
  | 0, w => w
  | n + 1, w =>
    let f (k : Nat) : BitVec 32 := w.getD (k - 1) 0
    sm3Expand n ((sm3P1 (f 16 ^^^ f 9 ^^^ (f 3).rotateLeft 15) ^^^ (f 13).rotateLeft 7 ^^^ f 6) :: w)

/-- One round `j` with its two words. -/
def sm3Round (v : List (BitVec 32)) (j : Nat) (w w' : BitVec 32) : List (BitVec 32) :=
  match v with
  | [a, b, c, d, e, f, g, h] =>
    let t : BitVec 32 := if j < 16 then 0x79CC4519#32 else 0x7A879D8A#32
    let ss1 := (a.rotateLeft 12 + e + t.rotateLeft (j % 32)).rotateLeft 7
    let ss2 := ss1 ^^^ a.rotateLeft 12
    let ff := if j < 16 then a ^^^ b ^^^ c else (a &&& b) ||| (a &&& c) ||| (b &&& c)
    let gg := if j < 16 then e ^^^ f ^^^ g else (e &&& f) ||| (~~~e &&& g)
    let tt1 := ff + d + ss2 + w'
    let tt2 := gg + h + ss1 + w
    [tt1, a, b.rotateLeft 9, c, sm3P0 tt2, e, f.rotateLeft 19, g]
  | v => v

def sm3Rounds : Nat → List (BitVec 32) → List (BitVec 32) → List (BitVec 32)
  | j, w :: ws, v => if 64 ≤ j then v else sm3Rounds (j + 1) ws (sm3Round v j w (w ^^^ ws.getD 3 0))
  | _, [], v => v

/-- A block of 64 bytes. -/
def sm3Block (v : List (BitVec 32)) (bytes : List Nat) : List (BitVec 32) :=
  let word (k : Nat) : BitVec 32 :=
    BitVec.ofNat 32 ((List.range 4).foldl (fun acc i => 256 * acc + bytes.getD (4 * k + i) 0) 0)
  let w := (sm3Expand 52 ((List.range 16).map word).reverse).reverse
  List.zipWith (· ^^^ ·) v (sm3Rounds 0 w v)

def sm3Blocks : Nat → List Nat → List (BitVec 32) → List (BitVec 32)
  | 0, _, v => v
  | n + 1, l, v => sm3Blocks n (l.drop 64) (sm3Block v (l.take 64))

/-- The SM3 digest of a byte string; its first byte in bits [7:0] (00 R9). -/
def sm3 (b : Blob) : BitVec 256 :=
  let pad := (119 - b.len % 64) % 64
  let tail : List Nat := 0x80 :: (List.replicate pad 0 ++ (List.range 8).map fun i => 8 * b.len / 2 ^ (8 * (7 - i)) % 256)
  let l := b.bytes ++ tail
  let v := sm3Blocks (l.length / 64) l sm3Iv
  let out := v.flatMap fun x => (List.range 4).map fun i => x.toNat / 2 ^ (8 * (3 - i)) % 256
  BitVec.ofNat 256 (Blob.ofBytes out).val

/-- The key derivation function of GB/T 32918: `n` bytes of the digests of the string with a counter from 1 after it. -/
def kdf (z : Blob) (n : Nat) : Blob :=
  let part (i : Nat) : List Nat := (List.range 4).map fun j => (i + 1) / 2 ^ (8 * (3 - j)) % 256
  Blob.ofBytes (((List.range ((n + 31) / 32)).flatMap fun i =>
    (Blob.mk 32 (sm3 (Blob.append z (Blob.ofBytes (part i)))).toNat).bytes).take n)

/-! ### SM4 (14 R532, R537; log entry 21) -/

/-- The S-box as four numbers of 64 bytes, entry 0 lowest. -/
def sm4Table : List Nat := [
  0xA63F8F75FA94DF8095E808C9A91CB3E462ACCFED430B54337A98EF91F450429C99068649261344AAC304BE2A769A672B052CFB28C214B616B73DE1CCFEE990D6,
  0x9EC8C4A0E702364C5227D39F574600D4877821013B7C2225A2D158635E0E241E359D56704B0FEBF88BDA6471B2816B68A84F85E6193C5983BA1773F3FCA70747,
  0x515B6C6D726AFF032F8EFDDE4537DBD56F4E530DAB2329C060CA66822EE2F61DE3B18CF5303293AD551A349BA45DAEE0A11561F9CEF2F7A3B538C740D28ABFEA,
  0x4839CBD73E5FEE79204DDC3AEC7DF01884C66EC509F1B9657E77960C4A976989B0B4E5B812D0742DBD7BCDA58831C10AD85A101F415CD9117FBCDDBB92AF1B8D]

def sm4Sub (b : Nat) : Nat := bits (sm4Table.getD (b / 64) 0) (8 * (b % 64)) 8

/-- The S-box on the four bytes of a word. -/
def sm4Tau (x : BitVec 32) : BitVec 32 :=
  BitVec.ofNat 32 ((List.range 4).foldl (fun acc i => acc + sm4Sub (bits x.toNat (8 * i) 8) * 2 ^ (8 * i)) 0)

/-- The transformation of a round, and that of the key schedule. -/
def sm4T (x : BitVec 32) : BitVec 32 :=
  let b := sm4Tau x
  b ^^^ b.rotateLeft 2 ^^^ b.rotateLeft 10 ^^^ b.rotateLeft 18 ^^^ b.rotateLeft 24
def sm4T' (x : BitVec 32) : BitVec 32 :=
  let b := sm4Tau x
  b ^^^ b.rotateLeft 13 ^^^ b.rotateLeft 23

/-- The constant of round `i`: bytes 7 (4 i + j) mod 256, the first one highest. -/
def sm4Ck (i : Nat) : BitVec 32 :=
  BitVec.ofNat 32 ((List.range 4).foldl (fun acc j => 256 * acc + 7 * (4 * i + j) % 256) 0)

def sm4Fk : List (BitVec 32) := [0xA3B1BAC6#32, 0x56AA3350#32, 0x677D9197#32, 0xB27022DC#32]

/-- Word `i` of 16 bytes, its first byte highest. -/
def beWord (x : BitVec 128) (i : Nat) : BitVec 32 :=
  BitVec.ofNat 32 ((List.range 4).foldl (fun acc j => 256 * acc + bits x.toNat (32 * i + 8 * j) 8) 0)

/-- The round keys from round `i` on. -/
def sm4Schedule : Nat → Nat → List (BitVec 32) → List (BitVec 32)
  | 0, _, _ => []
  | n + 1, i, [a, b, c, d] =>
    let k := a ^^^ sm4T' (b ^^^ c ^^^ d ^^^ sm4Ck i)
    k :: sm4Schedule n (i + 1) [b, c, d, k]
  | _ + 1, _, _ => []

def sm4Keys (key : BitVec 128) : List (BitVec 32) :=
  sm4Schedule 32 0 ((List.range 4).map fun i => beWord key i ^^^ sm4Fk.getD i 0)

/-- The rounds on four words. -/
def sm4Rounds : List (BitVec 32) → List (BitVec 32) → List (BitVec 32)
  | k :: ks, [a, b, c, d] => sm4Rounds ks [b, c, d, a ^^^ sm4T (b ^^^ c ^^^ d ^^^ k)]
  | _, x => x

/-- 16 bytes of four words, each with its highest byte first. -/
def beBlock (ws : List (BitVec 32)) : BitVec 128 :=
  BitVec.ofNat 128 (Blob.ofBytes (ws.flatMap fun w => (List.range 4).map fun j => bits w.toNat (8 * (3 - j)) 8)).val

/-- One block under a list of round keys: encryption, or decryption with the keys in reverse. -/
def sm4With (ks : List (BitVec 32)) (x : BitVec 128) : BitVec 128 :=
  beBlock (sm4Rounds ks ((List.range 4).map (beWord x))).reverse

def sm4 (key : BitVec 128) (x : BitVec 128) : BitVec 128 := sm4With (sm4Keys key) x

/-! ### Modes -/

/-- Bytes XORed with a key stream whose block `i` is `f i`. -/
def streamXor (f : Nat → BitVec 128) (b : Blob) : Blob :=
  let ks := (List.range ((b.len + 15) / 16)).foldr (fun i acc => (f i).toNat + 2 ^ 128 * acc) 0
  ⟨b.len, Nat.xor (bits b.val 0 (8 * b.len)) (bits ks 0 (8 * b.len))⟩

/-- The bytes from `off` on of a body in counter mode (14 R537): the counter block of byte `o` holds `o / 16`. It
encrypts and decrypts. -/
def bodyCtr (key : BitVec 128) (off : Nat) (b : Blob) : Blob :=
  let ks := sm4Keys key
  let lead := off % 16
  let whole : Blob := ⟨lead + b.len, b.val * 2 ^ (8 * lead)⟩
  (streamXor (fun i => sm4With ks (BitVec.ofNat 128 ((off / 16 + i) % 2 ^ 64))) whole).slice lead b.len

/-- 16 bytes in reverse order. -/
def flip16 (x : BitVec 128) : BitVec 128 :=
  BitVec.ofNat 128 ((List.range 16).foldl (fun acc i => 256 * acc + bits x.toNat (8 * i) 8) 0)

/-- The product of two elements of GHASH's field, first bit highest. -/
def ghashMul (x y : Nat) : Nat :=
  ((List.range 128).foldl (fun (zv : Nat × Nat) i =>
    (if bit x (127 - i) then Nat.xor zv.1 zv.2 else zv.1,
      Nat.xor (zv.2 / 2) (if zv.2 % 2 = 1 then 0xE1 * 2 ^ 120 else 0))) (0, y)).1

/-- GHASH over a string of whole blocks. -/
def ghash (h : Nat) (b : Blob) : Nat :=
  (List.range ((b.len + 15) / 16)).foldl (fun y i =>
    ghashMul (Nat.xor y (flip16 (BitVec.ofNat 128 (b.bits (128 * i) 128))).toNat) h) 0

/-- A string filled with zeros to whole blocks. -/
def pad16 (b : Blob) : Blob := ⟨(b.len + 15) / 16 * 16, Sys2Proof.bits b.val 0 (8 * b.len)⟩

/-- Counter block `i` of a 96-bit nonce. -/
def gcmCounter (nonce i : Nat) : BitVec 128 :=
  BitVec.ofNat 128 (nonce % 2 ^ 96 + 2 ^ 96 * ((List.range 4).foldl (fun acc j => 256 * acc + bits i (8 * j) 8) 0))

/-- The tag of authenticated data and a ciphertext. -/
def gcmTag (ks : List (BitVec 32)) (nonce : Nat) (aad cipher : Blob) : BitVec 128 :=
  let h := (flip16 (sm4With ks 0)).toNat
  let lens := (flip16 (BitVec.ofNat 128 (2 ^ 64 * (8 * aad.len) + 8 * cipher.len))).toNat
  let g := ghash h (Blob.append (Blob.append (pad16 aad) (pad16 cipher)) ⟨16, lens⟩)
  flip16 (BitVec.ofNat 128 g) ^^^ sm4With ks (gcmCounter nonce 1)

/-- SM4-GCM with a 96-bit nonce: the ciphertext and the tag. -/
def gcmSeal (key : BitVec 128) (nonce : Nat) (aad plain : Blob) : Blob × BitVec 128 :=
  let ks := sm4Keys key
  let c := streamXor (fun i => sm4With ks (gcmCounter nonce (i + 2))) plain
  (c, gcmTag ks nonce aad c)

/-- SM4-GCM opened: the plaintext, where the tag is right. -/
def gcmOpen (key : BitVec 128) (nonce : Nat) (aad cipher : Blob) (tag : BitVec 128) : Option Blob :=
  let ks := sm4Keys key
  if gcmTag ks nonce aad cipher = tag then some (streamXor (fun i => sm4With ks (gcmCounter nonce (i + 2))) cipher)
  else none

/-- The next tweak of a data unit. -/
def xtsNext (t : BitVec 128) : BitVec 128 := (t <<< 1) ^^^ (if t.msb then 0x87#128 else 0#128)

/-- Blocks of a data unit, each between its tweak. -/
def xtsBlocks (f : BitVec 128 → BitVec 128) : Nat → BitVec 128 → Nat → Nat
  | 0, _, _ => 0
  | n + 1, t, x => (f (BitVec.ofNat 128 x ^^^ t) ^^^ t).toNat + 2 ^ 128 * xtsBlocks f n (xtsNext t) (x / 2 ^ 128)

/-- The first tweak of a data unit: the word's device address under the second key of the pair. -/
def xtsTweak (pair : BitVec 256) (addr : Nat) : BitVec 128 := sm4 (BitVec.ofNat 128 (pair.toNat / 2 ^ 128)) (BitVec.ofNat 128 addr)

/-- A 128-byte data unit of eight blocks under a pair of keys (06 R242), and back. -/
def xtsEncrypt (pair : BitVec 256) (addr : Nat) (x : BitVec 1024) : BitVec 1024 :=
  BitVec.ofNat 1024 (xtsBlocks (sm4With (sm4Keys (pair.setWidth 128))) 8 (xtsTweak pair addr) x.toNat)
def xtsDecrypt (pair : BitVec 256) (addr : Nat) (x : BitVec 1024) : BitVec 1024 :=
  BitVec.ofNat 1024 (xtsBlocks (sm4With (sm4Keys (pair.setWidth 128)).reverse) 8 (xtsTweak pair addr) x.toNat)

/-! ### The curve of GB/T 32918 (14 R520, R536) -/

def sm2P : Nat := 0xFFFFFFFEFFFFFFFFFFFFFFFFFFFFFFFFFFFFFFFF00000000FFFFFFFFFFFFFFFF
def sm2B : Nat := 0x28E9FA9E9D9F5E344D5A9E4BCF6509A7F39789F515AB8F92DDBCBD414D940E93
def sm2N : Nat := 0xFFFFFFFEFFFFFFFFFFFFFFFFFFFFFFFF7203DF6B21C6052B53BBF40939D54123
def sm2Gx : Nat := 0x32C4AE2C1F1981195F9904466A39C9948FE30BBFF2660BE1715A4589334C74C7
def sm2Gy : Nat := 0xBC3736A2F4F6779C59BDCEE36B692153D0A9877CC62A474002DF32E52139F0A0

/-- A point with its denominator: the point is (x / z^2, y / z^3), and z = 0 the identity. -/
structure Sm2Point where
  x : Nat
  y : Nat
  z : Nat
  deriving DecidableEq, Repr

/-- A power in the field. -/
def powMod (b : Nat) : Nat → Nat → Nat
  | 0, _ => 1
  | n + 1, e =>
    let h := powMod (b * b % sm2P) n (e / 2)
    if e % 2 = 1 then b * h % sm2P else h

/-- A difference in the field. -/
def subP (a b : Nat) : Nat := (a + (sm2P - b % sm2P)) % sm2P

/-- A pair of numbers is a point of the curve; the identity is no such pair. -/
def onCurve (x y : Nat) : Bool :=
  x < sm2P && y < sm2P && y * y % sm2P = (x * x * x + (sm2P - 3) * x + sm2B) % sm2P

def Sm2Point.double (q : Sm2Point) : Sm2Point :=
  let yy := q.y * q.y % sm2P
  let s := 4 * q.x * yy % sm2P
  let zz := q.z * q.z % sm2P
  let m := 3 * subP q.x zz * (q.x + zz) % sm2P
  let x := subP (m * m) (2 * s)
  ⟨x, subP (m * subP s x) (8 * yy * yy), 2 * q.y * q.z % sm2P⟩

def Sm2Point.add (p q : Sm2Point) : Sm2Point :=
  if p.z = 0 then q
  else if q.z = 0 then p
  else
    let zp := p.z * p.z % sm2P
    let zq := q.z * q.z % sm2P
    let u := p.x * zq % sm2P
    let h := subP (q.x * zp) u
    let s := p.y * zq * q.z % sm2P
    let r := subP (q.y * zp * p.z) s
    if h = 0 then (if r = 0 then p.double else ⟨1, 1, 0⟩)
    else
      let hh := h * h % sm2P
      let v := u * hh % sm2P
      let x := subP (r * r) (h * hh + 2 * v)
      ⟨x, subP (r * subP v x) (s * h * hh), h * p.z * q.z % sm2P⟩

/-- A multiple of a point, by the bits of the number. -/
def sm2Times (p : Sm2Point) : Nat → Nat → Sm2Point
  | 0, _ => ⟨1, 1, 0⟩
  | n + 1, k =>
    let q := (sm2Times p n (k / 2)).double
    if k % 2 = 1 then q.add p else q

/-- The coordinates of a multiple of a point; none for the identity. -/
def sm2Mul (k x y : Nat) : Option (Nat × Nat) :=
  let q := sm2Times ⟨x, y, 1⟩ 256 k
  if q.z = 0 then none
  else
    let i := powMod q.z 256 (sm2P - 2)
    some (q.x * (i * i % sm2P) % sm2P, q.y * (i * i % sm2P * i % sm2P) % sm2P)

/-- The public key of a private key, x then y (14 R520). -/
def sm2Public (d : Nat) : BitVec 512 :=
  match sm2Mul d sm2Gx sm2Gy with
  | some (x, y) => BitVec.ofNat 512 (x + 2 ^ 256 * y)
  | none => 0

end Sys2Proof.Machine
end

