-- ==== Sys2Proof/Machine/LedgerPlan.lean ====
section
/-!
DEFINITION. The fields of the ledger plan (10 R389, R390, R399, R419).
-/

namespace Sys2Proof.Machine

/-! ### Sections of a resident volume (11 R437, Table 11.7) -/

def volumeOf (s : State) (job : BitVec 32) : Option Volume := s.host.volumes.find? fun v => v.job = job

/-- The data of a job-wide section. -/
def Volume.jobWide (v : Volume) (typ : Nat) : Blob :=
  ((v.sections.find? fun x => x.type = typ).map (·.data)).getD Blob.empty

/-- The data of a section of an image. -/
def Volume.ofImage (v : Volume) (typ image : Nat) : Blob :=
  ((v.sections.find? fun x => x.type = typ && x.image = image).map (·.data)).getD Blob.empty

/-- The image index of a rank (TYPE 01h). -/
def Volume.imageOf (v : Volume) (rank : Nat) : Nat := (v.jobWide 1).bits (16 * rank) 16

/-- A rank runs the same image as a context. -/
def sameImage (s : State) (c r : Nat) : Bool :=
  match volumeOf s (s.ctx c).job with
  | some v => v.imageOf r = v.imageOf (s.ctx c).rank.toNat
  | none => false

/-! ### The ledger plan (10 Tables 10.1, 10.2, 10.4, 10.11) -/

def planN (p : Blob) : Nat := p.bits 0 16
def planHops (p : Blob) : Nat := p.bits 16 4
def planRetry (p : Blob) : Nat := if p.bits 20 4 = 0 then 3 else p.bits 20 4
def planExport (p : Blob) : Nat := p.bits 24 8
def planObjects (p : Blob) : Nat := p.bits 32 32
def planGroups (p : Blob) : Nat := p.bits 64 16
def planElastic (p : Blob) : Nat := p.bits 80 16
def planTreeNodes (p : Blob) : Nat := p.bits 96 16
def planSpareCount (p : Blob) : Nat := p.bits 112 8
def planSpares (p : Blob) : List Nat := (List.range (planSpareCount p)).map fun i => p.bits (8 * p.bits 256 32 + 16 * i) 16

def objBits (p : Blob) (i lo w : Nat) : Nat := p.bits (8 * p.bits 128 32 + 256 * i + lo) w
def objOwner (p : Blob) (i : Nat) : Nat := objBits p i 0 14
def objClass (p : Blob) (i : Nat) : Nat := objBits p i 14 2
def objSource (p : Blob) (i : Nat) : Nat := objBits p i 16 2
def objAddr (p : Blob) (i : Nat) : Nat := objBits p i 32 44
def objBytes (p : Blob) (i : Nat) : Nat := objBits p i 80 40
def objLayer (p : Blob) (i : Nat) : Nat := objBits p i 128 16
def objReplica (p : Blob) (i : Nat) : Option Nat := if objBits p i 158 1 = 1 then some (objBits p i 144 14) else none
def objReplicaRank (p : Blob) (i : Nat) : Nat := objBits p i 144 14
def objCands (p : Blob) (i : Nat) : List Nat := (List.range (objBits p i 216 2 + 1)).map fun k => objBits p i (160 + 14 * k) 14
def objTapStream (p : Blob) (i : Nat) : Nat := objBits p i 224 12
def objTapTensor (p : Blob) (i : Nat) : Nat := objBits p i 236 16
def objIsTap (p : Blob) (i : Nat) : Bool := objClass p i = 1 && objSource p i = 0
def objIsCopy (p : Blob) (i : Nat) : Bool := objClass p i = 1 && objSource p i = 1
def objIsReplica (p : Blob) (i : Nat) : Bool := objClass p i = 1 && objSource p i = 2

def groupBits (p : Blob) (g lo w : Nat) : Nat := p.bits (8 * p.bits 160 32 + 512 * g + lo) w
def groupMembers (p : Blob) (g : Nat) : List Nat := (List.range (groupBits p g 0 5)).map fun i => groupBits p g (64 + 16 * i) 14
def groupRs (p : Blob) (g : Nat) : Bool := groupBits p g 5 1 = 1
def groupHolder0 (p : Blob) (g : Nat) : Nat := groupBits p g 16 14
def groupHolder1 (p : Blob) (g : Nat) : Nat := groupBits p g 30 14

def elasticBits (p : Blob) (g lo w : Nat) : Nat := p.bits (8 * p.bits 192 32 + 256 * g + lo) w
def elasticMembers (p : Blob) (g : Nat) : List Nat :=
  (List.range (elasticBits p g 16 15)).map fun i => elasticBits p g 0 14 + i * elasticBits p g 32 14
def elasticMin (p : Blob) (g : Nat) : Nat := elasticBits p g 48 15
def elasticNodes (p : Blob) (g : Nat) : List Nat :=
  ((List.range 8).map fun j => elasticBits p g (64 + 16 * j) 16).filter (· ≠ 0xFFFF)

/-- The parity group of a rank. -/
def groupOf (p : Blob) (r : Nat) : Option Nat := (List.range (planGroups p)).find? fun g => (groupMembers p g).contains r
def elasticOf (p : Blob) (r : Nat) : Option Nat := (List.range (planElastic p)).find? fun g => (elasticMembers p g).contains r

/-- The objects of a rank, in plan order. -/
def objectsOf (p : Blob) (r : Nat) : List Nat := (List.range (planObjects p)).filter fun i => objOwner p i = r

/-! ### Slots in the LEDGER granules (10 R392, R404; layout of the model's, log entry 30) -/

/-- The LEDGER granules of a job, lowest first. -/
def ledgerGranules (s : State) (job : BitVec 32) : List Nat :=
  (s.mem.granules.filter fun g => g.2.ledger && g.2.job = job.toNat).map (·.1)

/-- The offset of an address in a job's ledger. -/
def ledgerOffset (s : State) (job : BitVec 32) (a : Nat) : Option Nat :=
  ((ledgerGranules s job).findIdx? fun n => n = granuleOf a).map fun i => i * 2 ^ 26 + a % 2 ^ 26

def ledgerAddr (s : State) (job : BitVec 32) (off : Nat) : Nat :=
  granuleBase ((ledgerGranules s job).getD (off / 2 ^ 26) 4608) + off % 2 ^ 26

def mailboxBytes : Nat := 4 * 2 ^ 20

def sumBytes (p : Blob) (l : List Nat) : Nat := (l.map (objBytes p)).sum

/-- The objects of the members' parity images: class A, then fallback class B, each in plan order (10 R399). -/
def parityObjects (x : Ctx) (r : Nat) : List Nat :=
  ((objectsOf x.plan r).filter fun i => objClass x.plan i = 0) ++
    ((objectsOf x.plan r).filter fun i => objClass x.plan i = 1 && x.led.fallback.contains i)

def parityLen (x : Ctx) (g : Nat) : Nat :=
  (groupMembers x.plan g).foldl (fun m r => max m (sumBytes x.plan (parityObjects x r))) 0

/-- The bytes of the rank's commit record (10 Table 10.5). -/
def recordRoom (x : Ctx) : Nat := 64 + 48 * (objectsOf x.plan x.rank.toNat).length + 8 * x.led.queues + 32

def partnerObjects (x : Ctx) (r : Nat) : List Nat :=
  (List.range (planObjects x.plan)).filter fun i => tget x.led.partners i = some r

/-- The parity slots that a rank holds: group and whether it is Q. -/
def heldParity (p : Blob) (r : Nat) : List (Nat × Bool) :=
  (List.range (planGroups p)).flatMap fun g =>
    (if groupHolder0 p g = r then [(g, false)] else []) ++ (if groupRs p g && groupHolder1 p g = r then [(g, true)] else [])

/-- The bytes of the partner copies and the parity slots that a rank holds in one slot (10 R392). -/
def auxBytes (x : Ctx) : Nat :=
  let r := x.rank.toNat
  sumBytes x.plan (partnerObjects x r) + ((heldParity x.plan r).map fun h => parityLen x h.1).sum

/-- The bytes of one slot set. What stands for copies and parity is as it was reserved, so that a partner chosen again in a
recovery moves nothing that is sealed (10 R398; log entry 30). -/
def slotBytes (x : Ctx) : Nat :=
  sumBytes x.plan (objectsOf x.plan x.rank.toNat) + recordRoom x + x.led.aux

/-- LEDGER granules that a context needs (10 R392). -/
def ledgerNeed (x : Ctx) : Nat := (mailboxBytes + 2 * slotBytes x + 2 ^ 26 - 1) / 2 ^ 26

def slotOff (x : Ctx) (t : Nat) : Nat := mailboxBytes + t * slotBytes x
def ownOff (x : Ctx) (t i : Nat) : Nat :=
  slotOff x t + sumBytes x.plan ((objectsOf x.plan x.rank.toNat).takeWhile (· ≠ i))
def recordOff (x : Ctx) (t : Nat) : Nat := slotOff x t + sumBytes x.plan (objectsOf x.plan x.rank.toNat)
def copyOff (x : Ctx) (t i : Nat) : Nat :=
  recordOff x t + recordRoom x + sumBytes x.plan ((partnerObjects x x.rank.toNat).takeWhile (· ≠ i))
def parityOff (x : Ctx) (t : Nat) (h : Nat × Bool) : Nat :=
  recordOff x t + recordRoom x + sumBytes x.plan (partnerObjects x x.rank.toNat) +
    (((heldParity x.plan x.rank.toNat).takeWhile (· ≠ h)).map fun k => parityLen x k.1).sum


/-- Where in a job's ledger the writes stand that its CXL ports have not yet completed (06 R236). -/
def ledgerFlight (s : State) (job : BitVec 32) : List Nat :=
  (List.range 4).flatMap fun p => (s.cxl p).flight.filterMap fun o => ledgerOffset s job (128 * o.word)

/-- `[off, off + n)` of a job's ledger is durable. -/
def ledgerDurable (s : State) (job : BitVec 32) (off n : Nat) : Bool :=
  (ledgerFlight s job).all fun a => a + 128 ≤ off || off + n ≤ a

/-- The snapshot of the shards of these layers is durable (10 R393). -/
def layersDurable (s : State) (x : Ctx) (slot : Nat) (layers : List Nat) : Bool :=
  (objectsOf x.plan x.rank.toNat).all fun i =>
    !layers.contains (objLayer x.plan i) || ledgerDurable s x.job (ownOff x slot i) (objBytes x.plan i)

end Sys2Proof.Machine
end

