-- ==== Sys2Proof/Machine/Stream.lean ====
section
/-!
DEFINITION. Streams, tensor headers and endpoints (05 R180 to R194, 02 R75 to R101): packing, conversion at
input and output ports, emission of a tensor, fan-out and the movement of words into buffers.
-/

namespace Sys2Proof.Machine

/-! ### Element formats and packing (05 Table 5.8, R186) -/

def fmtOf (n : Nat) : Option Fmt :=
  match n with
  | 0 => some .log8 | 1 => some .log16 | 2 => some .log32 | 3 => some .binary32 | 4 => some .bf16
  | 5 => some .e4m3 | 6 => some .e5m2 | 7 => some .bbf12 | 8 => some .u32 | 9 => some .record
  | _ => none

/-- Bits per element (05 Table 5.8). -/
def fmtBits : Fmt → Nat
  | .log8 | .e4m3 | .e5m2 => 8
  | .log16 | .bf16 | .bbf12 => 16
  | .log32 | .binary32 | .u32 => 32
  | .record => 256

def fmtBitsOf (n : Nat) : Nat := ((fmtOf n).map fmtBits).getD 8

/-- Elements in one data word. -/
def perWord (f : Fmt) : Nat := 1024 / fmtBits f

/-- `words(n, f)` of 05 R191. -/
def wordsOf (n : Nat) (f : Nat) : Nat := (n * fmtBitsOf f + 1023) / 1024

/-- The zero code of a format (05 R186). -/
def zeroCode : Fmt → Nat
  | .log8 => 0x40 | .log16 => 0x4000 | .log32 => 0x40000000
  | _ => 0

/-- The NaN code of a format (02 R62, R80); BBF12 receives mantissa 0 (R98), and U32 and records 0. -/
def nanCode : Fmt → Nat
  | .log8 => 0xC0 | .log16 => 0xC000 | .log32 => 0xC0000000 | .binary32 => 0x7FC00000
  | .bf16 => 0x7FC0 | .e4m3 => 0x7F | .e5m2 => 0x7E
  | .bbf12 | .u32 | .record => 0

/-- A code is a NaN of its format. -/
def isNanCode (f : Fmt) (c : Nat) : Bool :=
  match f with
  | .log8 => c = 0xC0 | .log16 => c = 0xC000 | .log32 => c / 65536 = 0xC000
  | .binary32 => F32.isNaN (BitVec.ofNat 32 c)
  | .bf16 => F32.isNaN (fpToF32 shapeBF16 c) | .e4m3 => F32.isNaN (fpToF32 shapeE4M3 c)
  | .e5m2 => F32.isNaN (fpToF32 shapeE5M2 c)
  | .bbf12 | .u32 | .record => false

/-- A list cut into runs of `n` elements; `fuel` bounds the runs. -/
def chunksFuel {α : Type} (n : Nat) : Nat → List α → List (List α)
  | 0, _ => []
  | _ + 1, [] => []
  | f + 1, l => l.take n :: chunksFuel n f (l.drop n)

def chunks {α : Type} (n : Nat) (l : List α) : List (List α) := chunksFuel n (l.length + 1) l

/-- One BBF12 block of up to 16 elements in 256 bits (02 Table 2.10). -/
def bbfBlock (es : List Nat) : Nat :=
  let x := match es with | [] => 0 | e :: _ => e / 65536 % 256
  es.foldr (fun e acc => e % 4096 + 4096 * acc) 0 + x * 2 ^ 192

/-- The binary32 value of a BBF12 element, exact (02 R104). -/
def bbfF32 (c : Nat) : F32 := F32.rne false (bbfVal c)

/-- The elements of one block: as they are where they share their exponent, else `to_bbf12` of their values
(02 R105). -/
def bbfShared (es : List Nat) : List Nat :=
  if es.all fun e => e / 65536 % 256 = es.headD 0 / 65536 % 256 then es
  else (toBbf12 (es.map bbfF32)).map (·.code)

/-- The data word of up to a word's worth of codes, filled up with zero codes (05 R186). -/
def packWord (f : Fmt) (es : List Nat) : BitVec 1024 :=
  match f with
  | .bbf12 => BitVec.ofNat 1024 ((chunks 16 es).foldr (fun b acc => bbfBlock (bbfShared b) + 2 ^ 256 * acc) 0)
  | _ =>
    let w := fmtBits f
    let fill := es ++ List.replicate (perWord f - es.length) (zeroCode f)
    BitVec.ofNat 1024 (fill.foldr (fun e acc => e % 2 ^ w + 2 ^ w * acc) 0)

/-- Element `i` of a data word. -/
def unpackElem (f : Fmt) (w : BitVec 1024) (i : Nat) : Nat :=
  match f with
  | .bbf12 =>
    let b := i / 16 * 256
    bits w.toNat (b + 12 * (i % 16)) 12 + bits w.toNat (b + 192) 8 * 65536
  | _ => bits w.toNat (fmtBits f * i) (fmtBits f)

/-- The data words of a tensor: poison per word (02 R97), LAST on the final one. -/
def packTensor (f : Fmt) (es : List Elem) : List SWord :=
  let ws := (chunks (perWord f) es).map fun c =>
    (⟨packWord f (c.map fun e => e.code.toNat), false, false, c.any fun e => e.poison⟩ : SWord)
  match ws.reverse with
  | [] => []
  | l :: r => r.reverse ++ [{ l with last := true }]

/-- The elements of a list, with their places, by the share that each belongs to; the shares in the order in which
they first occur. -/
def byShare {α : Type} (share : Nat → Nat) (vs : List α) : List (List (α × Nat)) :=
  let is := vs.zipIdx
  (is.map fun p => share p.2).eraseDups.map fun k => is.filter fun p => share p.2 = k

/-! ### Tensor headers (05 Table 5.9) -/

def flagConvEmpty : BitVec 8 := 1
def flagPadShort : BitVec 8 := 2
def flagNmsTruncated : BitVec 8 := 4
def flagLongAccum : BitVec 8 := 8
def flagSubstituted : BitVec 8 := 16
def flagShaped : BitVec 8 := 32

def THdr.shaped (h : THdr) : Bool := h.flags.getLsbD 5
def THdr.longAccum (h : THdr) : Bool := h.flags.getLsbD 3

/-- The header word. -/
def THdr.word (h : THdr) : BitVec 1024 :=
  BitVec.ofNat 1024 (packFields [(h.length, 32), (h.scale.toNat, 32), (h.format, 4), (0, 4),
    (h.flags.toNat % 64, 8), (h.c, 16), (h.w, 16), (h.h, 16), (h.sample, 32), (h.use, 32)])

/-- The header that a word carries. -/
def THdr.parse (w : BitVec 1024) : THdr :=
  let n := w.toNat
  ⟨bits n 0 32, BitVec.ofNat 32 (bits n 32 32), bits n 64 4, BitVec.ofNat 8 (bits n 72 6),
   bits n 80 16, bits n 96 16, bits n 112 16, bits n 128 32, bits n 160 32⟩

/-! ### Endpoint references (05 Table 5.6) -/

def epKind (e : BitVec 32) : Nat := bits e.toNat 0 4
def epPort (e : BitVec 32) : Nat := bits e.toNat 4 2
def epLcore (e : BitVec 32) : Nat := bits e.toNat 6 8
def epNode (e : BitVec 32) : Nat := bits e.toNat 4 16
def epChild (e : BitVec 32) : Nat := bits e.toNat 20 4
def epEngine (e : BitVec 32) : Nat := bits e.toNat 4 4
def epDesc (e : BitVec 32) : Nat := bits e.toNat 8 16
def epComplex (e : BitVec 32) : Nat := bits e.toNat 4 1
def epChannel (e : BitVec 32) : Nat := bits e.toNat 5 12
def epLrank (e : BitVec 32) : Nat := bits e.toNat 4 16
def epPeerStream (e : BitVec 32) : Nat := bits e.toNat 20 12

/-! ### Accessors of the loaded image -/

def streamRec (c : Ctx) (i : Nat) : Option StreamRec := c.image.bind fun im => im.streams[i]?

def State.stream (s : State) (c i : Nat) : Stream := tgetD (s.ctx c).streams i Stream.empty

def State.modStream (s : State) (c i : Nat) (f : Stream → Stream) : State :=
  s.modCtx c fun x => { x with streams := tmod x.streams i Stream.empty f }

def Stream.buf (t : Stream) (k : Nat) : Buf := tgetD t.bufs k {esc := [], words := []}

/-- The stream bound to port `q` of a core, with its number (05 Table 5.2 STREAM_q). -/
def boundStream (s : State) (core q : Nat) : Option (Nat × StreamRec) :=
  (s.core core).stage.info.bind fun r =>
    (r.streams[q]?).bind fun i => (streamRec (s.ctx (s.core core).stage.ctx) i).map fun t => (i, t)

/-- Consumers of a stream that carries a fan-out: stripes of a window take rows (04 R160). -/
def stageOfLcore (c : Ctx) (n : Nat) : Option StageRec :=
  c.image.bind fun im => im.stages.find? fun r => r.lcore = n

/-- The job's training options (08 Table 8.12): JOB_SEED. -/
def jobSeed (c : Ctx) : BitVec 64 := BitVec.ofNat 64 (c.options.bits 128 64)

/-! ### Where a buffer stands (05 Table 5.10) -/

/-- Where a buffer of a stream stands: a carrel store by image core, or a shelf store by image shelf. -/
inductive Place where
  | carrel (lcore : Nat) | shelf (n : Nat) | none
  deriving DecidableEq, Repr

/-- The shelf of a tree node's reduction unit; a node in the fabric has none. -/
def nodePlace (im : Image) (n : Nat) : Place :=
  match im.trees.find? fun t => t.node = n with
  | some t => if t.fabric then .none else .shelf t.shelf
  | none => .none

/-- The place of consumer `k`'s buffer (05 Table 5.10): at a core its carrel store or its shelf store, at a tree node
and at a memory endpoint the shelf store of the unit. A SHARED buffer stands in its producer's shelf store, and where
no shelf has the producer, in that of the first consumer that is a core (log entry 42). -/
def placeOf (im : Image) (t : StreamRec) (k : Nat) : Place :=
  let firstCore : Place := match t.consumers.find? fun e => epKind e = 0 with
    | some e => .shelf (epLcore e / 12)
    | none => .none
  if t.cls = 3 then
    match epKind t.producer with
    | 1 => .shelf (epLcore t.producer / 12)
    | 3 => (match nodePlace im (epNode t.producer) with | .none => firstCore | p => p)
    | 4 => .shelf (epEngine t.producer)
    | _ => firstCore
  else match t.consumers[k]? with
    | some e =>
      match epKind e with
      | 0 => if t.place then .shelf (epLcore e / 12) else .carrel (epLcore e)
      | 2 => nodePlace im (epNode e)
      | 4 => .shelf (epEngine e)
      | _ => .none
    | none => .none

/-- The shelf of image shelf `k` of a context (05 R174). -/
def imageShelf (x : Ctx) (k : Nat) : Option Nat := (shelvesOf x.mask)[k]?

/-- The island of the store that holds a buffer runs: it answers on its crossings (01 R52). -/
def placeOn (s : State) (x : Ctx) : Place → Bool
  | .carrel n => match lcoreOf x n with | some core => coreOn s core | none => false
  | .shelf n => match imageShelf x n with | some sh => domainOn s (shelfDomain sh) | none => false
  | .none => true

def bufferOn (s : State) (c : Nat) (t : StreamRec) (k : Nat) : Bool :=
  let x := s.ctx c
  match x.image with
  | some im => placeOn s x (placeOf im t k)
  | none => true

/-- The island of an endpoint runs (01 R52); a peer in the fabric answers for itself. -/
def endpointOn (s : State) (x : Ctx) (e : BitVec 32) : Bool :=
  let shelf (k : Nat) : Bool := match imageShelf x k with | some sh => domainOn s (shelfDomain sh) | none => false
  match epKind e with
  | 0 | 1 => match lcoreOf x (epLcore e) with | some core => coreOn s core | none => false
  | 2 | 3 => match (x.image.map fun im => nodePlace im (epNode e)) with | some (.shelf k) => shelf k | _ => true
  | 4 => shelf (epEngine e)
  | 5 => islandOn s (188 + epComplex e)
  | _ => true

/-- The store that holds the head word of consumer `k`'s buffer: a shelf's escape region, or the buffer's own place. -/
def headStore (s : State) (c : Nat) (r : StreamRec) (b : Buf) (k : Nat) : Tier :=
  let x := s.ctx c
  match b.esc, x.image.map fun im => placeOf im r k with
  | (sh, _) :: _, _ => .shelf sh
  | [], some (.carrel n) => ((lcoreOf x n).map Tier.carrel).getD .unmapped
  | [], some (.shelf n) => ((imageShelf x n).map Tier.shelf).getD .unmapped
  | [], _ => .unmapped

/-! ### Movement of words (05 R184, R190, R210) -/

/-- Any word moving on a stage's ports clears WEDGED and the count of R210. -/
def wordMoved (s : State) (core : Nat) : State :=
  s.modCore core fun c => { c with stage := { c.stage with wedged := false, outFullRun := 0 } }

/-- The logical core of an endpoint that is a port of a core. -/
def endpointCore (c : Ctx) (e : BitVec 32) : Option Nat :=
  if epKind e = 0 ∨ epKind e = 1 then lcoreOf c (epLcore e) else none

/-- Words that stand in a buffer: those not yet read, and those read of a tensor held there. -/
def Buf.occupied (b : Buf) : Nat := b.kept + b.words.length

/-- Words that stand in the one buffer of a broadcast: a word stays until the slowest consumer has read it (05 Table
5.10 SHARED). -/
def sharedUsed (n : Nat) (t : Stream) : Nat := (List.range n).foldl (fun m k => max m (t.buf k).occupied) 0

/-- Words that stand in the buffer of consumer `k`. -/
def bufUsed (r : StreamRec) (t : Stream) (k : Nat) : Nat :=
  if r.fanout = 1 then sharedUsed r.consumers.length t else (t.buf k).occupied

/-- The waiting words of consumer `k` that its buffer has room for, where its store's island runs. -/
def pumpOne (on : Nat → Bool) (cap : Nat) (t : Stream) (k : Nat) : Stream :=
  let w := tgetD t.wait k []
  let b := t.buf k
  let n := if on k then cap - b.occupied else 0
  { t with wait := tset t.wait k (w.drop n), bufs := tset t.bufs k { b with words := b.words ++ w.take n } }

/-- A broadcast word enters the one shared buffer, and every consumer reads it from there. -/
def pumpShared (on : Bool) (cap n : Nat) (t : Stream) : Stream :=
  let w := tgetD t.wait 0 []
  let room := if on then cap - sharedUsed n t else 0
  let bufs := (List.range n).foldl
    (fun bs k => tset bs k { t.buf k with words := (t.buf k).words ++ w.take room }) t.bufs
  { t with wait := tset t.wait 0 (w.drop room), bufs := bufs }

def waiting (t : Stream) : Nat := (t.wait.map fun p => p.2.length).sum

/-- Words of an output port wait for space in its buffers: the stage stalls under OUTPUT_FULL (05 Table 5.14). -/
def portFull (s : State) (core p : Nat) : Bool :=
  match boundStream s core (4 + p) with
  | some (i, _) => waiting (s.stream (s.core core).stage.ctx i) ≠ 0
  | none => false

def outputFull (s : State) (core : Nat) : Bool := (List.range 4).any (portFull s core)

/-- Words move from the producer into the buffers as far as CAPACITY allows and the stores' islands run. -/
def pump (s : State) (c i : Nat) : State :=
  match streamRec (s.ctx c) i with
  | none => s
  | some r =>
    let n := r.consumers.length
    let t := s.stream c i
    let on (k : Nat) : Bool := endpointOn s (s.ctx c) r.producer && bufferOn s c r k
    let t' := if r.fanout = 1 then pumpShared (on 0) r.capacity n t
      else (List.range n).foldl (pumpOne on r.capacity) t
    let s1 := s.modStream c i fun _ => t'
    if waiting t' < waiting t then
      match endpointCore (s.ctx c) r.producer with
      | some core => wordMoved s1 core
      | none => s1
    else s1

/-- The word at place `n` of a list comes poisoned. -/
def poisonAt (ws : List SWord) (n : Nat) : List SWord := ws.modify n fun w => { w with poison := true }

/-- An uncorrected error of the head word of consumer `k`'s buffer: the word stands poisoned in its store (06 R227). The
consumers of a broadcast that have not read it yet read it so too. -/
def poisonHead (r : StreamRec) (k : Nat) (t : Stream) : Stream :=
  let b := t.buf k
  let hit (j : Nat) : Buf :=
    let u := t.buf j
    if b.esc ≠ [] then
      if u.esc.length < b.esc.length then u
      else { u with esc := u.esc.modify (u.esc.length - b.esc.length) fun p => (p.1, { p.2 with poison := true }) }
    else if u.words.length < b.words.length then u
    else { u with words := poisonAt u.words (u.words.length - b.words.length) }
  let js := if r.fanout = 1 then List.range r.consumers.length else [k]
  { t with bufs := js.foldl (fun bs j => tset bs j (hit j)) t.bufs }

/-- What the read of the head word of consumer `k`'s buffer meets in the store that holds it (06 R227). -/
def bufferError (s : State) (c i k : Nat) (e : Ecc) : State :=
  match streamRec (s.ctx c) i with
  | none => s
  | some r =>
    match headStore s c r ((s.stream c i).buf k) k with
    | .unmapped => s
    | t =>
      let s1 := storeEvent s t e
      if e = .uncorrected then s1.modStream c i (poisonHead r k) else s1

/-! ### Windows and stripes (04 R154, R160), as a fan-out needs them -/

/-- Window descriptor and geometry word of a WINDOW stage's parameter block (04 Tables 4.1, 4.2, 4.7). -/
structure WinDesc where
  sh : Nat
  sw : Nat
  dh : Nat
  dw : Nat
  padMode : Nat
  padTop : Nat
  padBottom : Nat
  padLeft : Nat
  padRight : Nat
  blockM1 : Nat
  haloUp : Bool
  haloDown : Bool
  tileW : Nat
  subCount : Nat
  inC : Nat
  maxW : Nat
  inH : Nat
  subs : List (Nat × Nat × Nat × Nat)
  deriving DecidableEq, Repr

/-- The sub-windows of a filter: (row offset, column offset, height, width) (04 R150, R158). -/
def WinDesc.parse (b : Blob) : WinDesc :=
  let n := b.bits 54 5
  let single := [(0, 0, b.bits 0 3 + 1, b.bits 3 3 + 1)]
  let entry (k : Nat) : Nat × Nat × Nat × Nat :=
    let o := 128 + 32 * k
    (b.bits o 5, b.bits (o + 5) 5, b.bits (o + 10) 3 + 1, b.bits (o + 13) 3 + 1)
  ⟨b.bits 6 3 + 1, b.bits 9 3 + 1, b.bits 12 2 + 1, b.bits 14 2 + 1, b.bits 16 2, b.bits 18 5, b.bits 23 5,
   b.bits 28 5, b.bits 33 5, b.bits 38 2, b.bits 40 1 = 1, b.bits 41 1 = 1, b.bits 42 12, n,
   b.bits 64 16, b.bits 80 16, b.bits 96 16,
   if n = 0 then single else (List.range n).map entry⟩

/-- Full filter sizes KH and KW (04 R158). -/
def WinDesc.kh (w : WinDesc) : Nat := w.subs.foldl (fun m e => max m (e.1 + e.2.2.1)) 0
def WinDesc.kw (w : WinDesc) : Nat := w.subs.foldl (fun m e => max m (e.2.1 + e.2.2.2)) 0
/-- The extents EH and EW (04 R145). -/
def WinDesc.eh (w : WinDesc) : Nat := w.dh * (w.kh - 1) + 1
def WinDesc.ew (w : WinDesc) : Nat := w.dw * (w.kw - 1) + 1

/-- OH and OW of 04 R146; floor rounds toward minus infinity, so a negative size is negative. -/
def WinDesc.outH (w : WinDesc) (h : Nat) : Int :=
  ((h : Int) + w.padTop + w.padBottom - w.eh) / (w.sh : Int) + 1
def WinDesc.outW (w : WinDesc) (x : Nat) : Int :=
  ((x : Int) + w.padLeft + w.padRight - w.ew) / (w.sw : Int) + 1

/-- The tap rows of the filter: ROW_OFF + i over the sub-windows (04 R154, R159). -/
def WinDesc.tapRows (w : WinDesc) : List Nat :=
  (w.subs.flatMap fun e => (List.range e.2.2.1).map fun i => e.1 + i).eraseDups
def WinDesc.tapCols (w : WinDesc) : List Nat :=
  (w.subs.flatMap fun e => (List.range e.2.2.2).map fun j => e.2.1 + j).eraseDups

/-- The input row or column that a padded position reads: itself, its reflection (04 R148), or none (a
zero). -/
def reflectPos (reflect : Bool) (n : Nat) (r : Int) : Option Nat :=
  if 0 ≤ r ∧ r < n then some r.toNat
  else if reflect then
    let m := if r < 0 then -r else 2 * ((n : Int) - 1) - r
    if 0 ≤ m ∧ m < n then some m.toNat else none
  else none

/-- Input row of output row `o` and tap row `i` (04 R154, R159). -/
def WinDesc.rowAt (w : WinDesc) (o i : Nat) : Int := (o : Int) * w.sh - w.padTop + (i : Int) * w.dh
def WinDesc.colAt (w : WinDesc) (o j : Nat) : Int := (o : Int) * w.sw - w.padLeft + (j : Int) * w.dw

/-- An input row `r` of a tensor of height `h` is needed by some output row in `[lo, hi)` (04 R154). A
padded position that reflects reads the row that it copies. -/
def WinDesc.rowNeeded (w : WinDesc) (reflect : Bool) (h lo hi r : Nat) : Bool :=
  (List.range (hi - lo)).any fun o =>
    w.tapRows.any fun i => reflectPos reflect h (w.rowAt (lo + o) i) = some r

def WinDesc.colNeeded (w : WinDesc) (reflect : Bool) (x lo hi r : Nat) : Bool :=
  (List.range (hi - lo)).any fun o =>
    w.tapCols.any fun j => reflectPos reflect x (w.colAt (lo + o) j) = some r

/-- The padding in force on an axis of a tensor: 0 none, 1 zero, 2 reflect (04 R148, R149): reflect needs one
more input position than the larger padding. -/
def padInForce (mode padA padB n : Nat) : Nat :=
  if mode = 2 && n < max padA padB + 1 then 1 else mode

/-- The output rows `[lo, hi)` of stripe `m` among stripes that begin at `firsts` (04 R160). -/
def stripeRows (firsts : List Nat) (oh m : Nat) : Nat × Nat :=
  match firsts with
  | [] => (0, oh)
  | _ => (min oh (firsts.getD m 0), min oh (firsts.getD (m + 1) oh))

/-- The stripe that owns input row `r`: the first that needs it (04 R160). -/
def WinDesc.rowOwner (w : WinDesc) (reflect : Bool) (firsts : List Nat) (h oh r : Nat) : Option Nat :=
  (List.range firsts.length).find? fun m =>
    w.rowNeeded reflect h (stripeRows firsts oh m).1 (stripeRows firsts oh m).2 r

/-- The stripe to whose core input row `r` goes: its owner's, and a row that no stripe needs to the first stripe that
needs a later row, or to the last (log entry 43). -/
def WinDesc.rowHome (w : WinDesc) (reflect : Bool) (firsts : List Nat) (h oh r : Nat) : Nat :=
  match w.rowOwner reflect firsts h oh r with
  | some m => m
  | none => ((List.range firsts.length).find? fun m => (List.range (h - r)).any fun i =>
      w.rowNeeded reflect h (stripeRows firsts oh m).1 (stripeRows firsts oh m).2 (r + i)).getD (firsts.length - 1)

/-- The stripe firsts and the window of a consumer that is a striped window stage. -/
def stripedWindow (s : State) (c : Nat) (r : StreamRec) : Option (WinDesc × List Nat) :=
  match r.consumers with
  | [] => none
  | e :: _ =>
    match endpointCore (s.ctx c) e with
    | none => none
    | some core =>
      let st := (s.core core).stage
      match st.info with
      | some i => if i.opclass = 1 && st.stripeFirst.length > 0
          then some (WinDesc.parse i.param, st.stripeFirst) else none
      | none => none

/-! ### Fan-out (05 R184) -/

/-- A tensor handed to one consumer's waiting words. -/
def streamAppend (s : State) (c i k : Nat) (ws : List SWord) : State :=
  s.modStream c i fun t => { t with wait := tmod t.wait k [] (· ++ ws) }

/-- A header word with its sideband: LAST when no data follow (05 R189). -/
def hdrSWord (h : THdr) (poison : Bool) : SWord := ⟨h.word, true, h.length = 0, poison⟩

/-- The MEMBER of the stage at consumer `k` of a stream. -/
def consumerMember (s : State) (c : Nat) (r : StreamRec) (k : Nat) : Option Nat :=
  (r.consumers[k]?).bind fun e => (endpointCore (s.ctx c) e).bind fun core =>
    (s.core core).stage.info.map (·.member)

/-- The consumer that a stripe fan-out gives each element of a tensor to: by R160 the core of the member whose stripe
the row belongs to, else chunk `j` to consumer `j mod n` (05 R184). Nothing where the stream is no stripe. -/
def stripeMap (s : State) (c : Nat) (r : StreamRec) (h : THdr) : Option (Nat → Nat) :=
  let n := r.consumers.length
  if r.fanout ≠ 3 then none
  else match stripedWindow s c r with
    | some (w, firsts) =>
      let oh := (w.outH h.h).toNat
      let reflect := padInForce w.padMode w.padTop w.padBottom h.h = 2
      let homes := (List.range h.h).map fun x =>
        ((List.range n).find? fun k => consumerMember s c r k = some (w.rowHome reflect firsts h.h oh x)).getD n
      some fun e => homes.getD (e / max (h.w * h.c) 1) n
    | none => some fun e => e / max h.c 1 / max r.chunk 1 % n

/-- The header of a stripe's share of `len` elements: a window stage's keeps the height and width of the picture, any
other's has H = 1 and W = its rows (05 R184). -/
def shareHeader (window : Bool) (h : THdr) (len : Nat) : THdr :=
  if window then { h with length := len } else { h with length := len, h := 1, w := len / max h.c 1 }

/-- A whole tensor leaves a producing endpoint: its words wait for the consumers that its fan-out names, and
move as far as there is room. A stripe needs a shaped header; the answer says whether it had one. -/
def streamPush (s : State) (c i : Nat) (h : THdr) (f : Fmt) (es : List Elem) (hpoison : Bool) : State × Bool :=
  match streamRec (s.ctx c) i with
  | none => (s, true)
  | some r =>
    let n := r.consumers.length
    let whole := hdrSWord h hpoison :: packTensor f es
    match stripeMap s c r h with
    | some share =>
      if !h.shaped then (s, false)
      else
        let window := (stripedWindow s c r).isSome
        let s1 := (List.range n).foldl (fun s k =>
          let mine := (es.zipIdx.filter fun p => share p.2 = k).map (·.1)
          streamAppend s c i k (hdrSWord (shareHeader window h mine.length) hpoison :: packTensor f mine)) s
        (pump s1 c i, true)
    | none =>
      if r.fanout = 2 then
        let k := (s.stream c i).turn
        (pump ((streamAppend s c i k whole).modStream c i fun t => { t with turn := (k + 1) % n }) c i, true)
      else (pump (streamAppend s c i 0 whole) c i, true)

/-! ### Conversion at an input endpoint (02 R75, R80, R586) -/

/-- What a port makes of an element: a LOG code or BBF12 element for the arrays, a binary32 value with the
tensor's scale or without it, or the element as it is. -/
inductive InForm where
  | log8 | log16 | bbf12 | value | unscaled | raw
  deriving DecidableEq, Repr

/-- The binary32 value of an element at a scale (02 R80, R81, R84). An infinity is clamped and counted here, as by any
conversion into binary32 that R81 names; 05 R179 names output conversions and stored update values alone (DEDUCED,
log entry 46). -/
def elemValue (f : Fmt) (c : Nat) (scale : F32) : Cvt :=
  let times (x : F32) : Cvt :=
    if F32.isNaN x then ⟨0x7FC00000, none⟩
    else if F32.isInf x then ⟨(F32.maxFinite (F32.sign x)).toNat, some .saturation⟩
    else
      let v := (F32.val x).mul (F32.val scale)
      if v.m = 0 then ⟨signBit (F32.sign x) 32, none⟩
      else toFp shapeB32 .nearestEven (v.m < 0) v.m.natAbs 1 v.e
  match f with
  | .log8 => logToF32 shapeLog8 c scale
  | .log16 => logToF32 shapeLog16 c scale
  | .log32 => logToF32 shapeLog16 (c / 65536) scale
  | .binary32 => times (BitVec.ofNat 32 c)
  | .bf16 => times (fpToF32 shapeBF16 c)
  | .e4m3 => times (fpToF32 shapeE4M3 c)
  | .e5m2 => times (fpToF32 shapeE5M2 c)
  | .bbf12 =>
    let v := (bbfVal c).mul (F32.val scale)
    toFp shapeB32 .nearestEven (v.m < 0) v.m.natAbs 1 v.e
  | .u32 | .record => ⟨c, none⟩

/-- The binary32 code that a source widens to, exact (02 R75). -/
def widenF32 (f : Fmt) (c : Nat) : F32 :=
  match f with
  | .binary32 => BitVec.ofNat 32 c
  | .bf16 => fpToF32 shapeBF16 c
  | .e4m3 => fpToF32 shapeE4M3 c
  | .e5m2 => fpToF32 shapeE5M2 c
  | _ => BitVec.ofNat 32 (elemValue f c F32.one).code

/-- A LOG code taken into another LOG format of the arrays (02 R586): the NaN code is not counted again. -/
def logToLog (src : Nat) (fromLog8 : Bool) (tgt : LogShape) : Cvt :=
  let from' := if fromLog8 then shapeLog8 else shapeLog16
  match from'.decode src with
  | .zero => ⟨tgt.zeroCode, none⟩
  | .nan => ⟨tgt.nanCode, none⟩
  | .num s e =>
    if tgt.fbits ≥ from'.fbits then ⟨tgt.encode s (e * (2 ^ (tgt.fbits - from'.fbits) : Nat)), none⟩
    else toLog tgt (BitVec.ofNat 32 (logToF32 from' src F32.one).code) F32.one none

/-- Conversion of one element into an array operand of LOG format `to`. -/
def toArrayLog (f : Fmt) (tgt : LogShape) (c : Nat) : Cvt :=
  match f with
  | .log8 => logToLog c true tgt
  | .log16 => logToLog c false tgt
  | .log32 => logToLog (c / 65536) false tgt
  | _ => toLog tgt (widenF32 f c) F32.one none

/-- The count that a conversion adds to an endpoint (02 R100, R101). -/
def EpCtr.count (k : EpCtr) : Option CvtEvent → EpCtr
  | none => k
  | some .saturation => k.addSat
  | some .nonfinite => k.addNonfinite
  | some .nanZeroed => k.addNanZeroed

/-- Conversion of the elements of one word at an input endpoint. A poisoned word gives poisoned elements and
one count (02 R97, R98, R100). -/
def convIn (form : InForm) (f : Fmt) (scale : F32) (es : List Nat) (poison : Bool) : List (Cvt × Bool) :=
  if poison then
    let code : Nat := match form with
      | .log8 => nanCode .log8 | .log16 => nanCode .log16 | .bbf12 => 0
      | .value | .unscaled => (match f with | .u32 | .record => 0 | _ => nanCode .binary32)
      | .raw => 0
    es.map fun _ => (⟨code, none⟩, true)
  else
    match form with
    | .log8 => es.map fun e => (toArrayLog f shapeLog8 e, false)
    | .log16 => es.map fun e => (toArrayLog f shapeLog16 e, false)
    | .bbf12 =>
      match f with
      | .bbf12 => es.map fun e => (⟨e, none⟩, false)
      | _ => ((chunks 16 es).flatMap fun b => toBbf12 (b.map (widenF32 f))).map fun c => (c, false)
    | .value => es.map fun e => (elemValue f e scale, false)
    | .unscaled => es.map fun e => (elemValue f e F32.one, false)
    | .raw => es.map fun e => (⟨e, none⟩, false)

/-- The count of an input word's conversions: a poisoned word counts once (02 R100). -/
def countIn (k : EpCtr) (cs : List (Cvt × Bool)) (poison : Bool) : EpCtr :=
  if poison then k.addPoison 1 else cs.foldl (fun k c => k.count c.1.ev) k

def State.epCtr (s : State) (core q : Nat) : EpCtr := tgetD (s.core core).ctrs q EpCtr.zero

def State.modEp (s : State) (core q : Nat) (f : EpCtr → EpCtr) : State :=
  s.modCore core fun c => { c with ctrs := tmod c.ctrs q EpCtr.zero f }

/-! ### Conversion at an output endpoint (02 R75 to R91) -/

/-- Conversion of one drained value into the format of an endpoint, divisor `sOut` (02 R82 step 3, R106).
A clamp of an earlier rounding counts where the conversion itself counts nothing (R83). Poison is the element's own: a
clean element of a word that a neighbour poisons is converted and counted like any other (log entry 44). -/
def convOut (f : Fmt) (r : Rnd) (v : OVal) (sOut : F32) (draw : Option (BitVec 16)) : Cvt :=
  if v.poison then ⟨nanCode f, none⟩
  else if v.raw then ⟨v.code.toNat, if isNanCode f v.code.toNat then some .nonfinite else none⟩
  else
    let x : F32 := v.code.setWidth 32
    let q := F32.div x sOut
    let c := match f with
      | .log8 => toLog shapeLog8 x sOut draw
      | .log16 => toLog shapeLog16 x sOut draw
      | .log32 => toLog32 x sOut
      | .binary32 => f32ToFp shapeB32 r q
      | .bf16 => f32ToFp shapeBF16 r q
      | .e4m3 => f32ToFp shapeE4M3 r q
      | .e5m2 => f32ToFp shapeE5M2 r q
      | .bbf12 | .u32 | .record => ⟨v.code.toNat, none⟩
    match c.ev with
    | none => if v.sat then { c with ev := some .saturation } else c
    | some _ => c

/-- Conversion of a run of up to 16 values into one BBF12 block (02 R105, R106, R98). Elements that come in the format
with one exponent stay as they are (05 R178). -/
def convOutBbf (vs : List OVal) (sOut : F32) : List Cvt :=
  let x := match vs.find? fun v => v.raw && !v.poison with | some v => v.code.toNat / 65536 % 256 | none => 0
  if vs.all fun v => v.poison || (v.raw && v.code.toNat / 65536 % 256 = x) then
    vs.map fun v => ⟨(if v.poison then 0 else v.code.toNat % 4096) + x * 65536, none⟩
  else
    let xs := vs.map fun v =>
      if v.poison then F32.posZero
      else F32.div (if v.raw then bbfF32 v.code.toNat else v.code.setWidth 32) sOut
    ((toBbf12 xs).zip vs).map fun p =>
      match p.1.ev with
      | none => if p.2.sat && !p.2.poison then { p.1 with ev := some .saturation } else p.1
      | some _ => p.1

/-- The largest finite magnitude of the drained, non-poisoned values (02 R89). A code that a GATHER takes from its table
is no drained value and gives none (DESIGN CHOICE, log entry 45). -/
def amaxOf (vs : List OVal) : F32 :=
  vs.foldl (fun a v =>
    let x : F32 := v.code.setWidth 32
    if v.poison || v.raw || F32.isNaN x || F32.isInf x then a else F32.max a (F32.abs x)) F32.posZero

/-- `D` of 02 R88. -/
def autoD : Fmt → Int
  | .log8 => 7 | .log16 => 31 | .e4m3 => 8 | .e5m2 => 15
  | _ => 0

/-- `s_out = amax * 2^-D`, raised to 2^-126 (02 R88). -/
def autoScale (f : Fmt) (amax : F32) : F32 :=
  let v := (F32.val amax).mul (Dy.pow2 (-(autoD f)))
  if v.lt (Dy.pow2 (-126)) then 0x00800000#32 else F32.rne false v

/-- What an endpoint emits for one tensor. -/
structure Emission where
  elems : List Elem
  scale : F32
  ctr : EpCtr
  port : OutPort
  deriving DecidableEq, Repr

/-- One use of an output endpoint: the scale is fixed first (02 R90), every value is converted, and the
counters, the amax history, USE and the draws are brought up to date (R89, R91, 08 R327). `share` says which of a
stripe's tensors each element goes into: a BBF12 block and a word hold elements of one tensor. A word with a poisoned
element is poisoned and counts once (R97, R100); its elements that are not poisoned themselves keep their codes, their events and
their place in the amax history (DEDUCED, log entry 44). -/
def emitUse (f : Fmt) (bbf : Bool) (d : ScaleDesc) (draw : Nat → BitVec 16) (share : Nat → Nat) (p : OutPort)
    (k : EpCtr) (t : OutTensor) : Emission :=
  let vs := t.vals.map (·.2)
  let plain : Bool := f = .u32 || f = .record
  let own := amaxOf vs
  let parts := byShare share vs
  let prepass : Bool := d.auto && p.hist.isNone && !plain
  let sOut : F32 := if plain then F32.one
    else if d.auto then autoScale f (p.hist.getD own) else d.scale
  let r : Rnd := if bbf then .towardZero else .nearestEven
  let cs : List Cvt := match f with
    | .bbf12 =>
      let done : Tbl Cvt := (parts.flatMap (chunks 16)).foldl (fun m b =>
        ((convOutBbf (b.map (·.1)) sOut).zip (b.map (·.2))).foldl (fun m q => tset m q.2 q.1) m) []
      done.map (·.2)
    | _ => vs.zipIdx.map fun q => convOut f r q.1 sOut (if d.sr then some (draw (p.draws + q.2)) else none)
  let k1 := cs.foldl (fun k c => k.count c.ev) k
  let bad := ((parts.flatMap (chunks (perWord f))).filter fun c => c.any fun q => q.1.poison).length
  let k2 := k1.addPoison bad
  let k3 := if prepass then { k2 with prepasses := k2.prepasses + 1 } else k2
  let k4 := if plain then k3 else { k3 with scaleInUse := sOut, amaxLast := own }
  ⟨(cs.zip vs).map fun q => ⟨BitVec.ofNat 256 q.1.code, q.2.poison⟩, sOut, k4,
   { p with hist := if F32.isZero own then none else some own, use := p.use + 1,
            draws := p.draws + vs.length, outs := p.outs.drop 1, stepNo := p.stepNo + 1 }⟩

def Core.outPort (c : Core) (p : Nat) : OutPort := tgetD c.out p OutPort.empty
def Core.inPort (c : Core) (q : Nat) : InPort := tgetD c.inp q InPort.empty

/-- The tensors begun at an endpoint since load that it no longer holds. -/
def OutPort.gone (p : OutPort) : Nat := p.use.toNat + p.dropped

/-- A tensor whose every value has been drained. -/
def OutTensor.complete (t : OutTensor) : Bool := t.vals.length = t.length

/-- The tensor at the head of an output port leaves it (05 R185 to R187): a LENGTH beyond MAX_LEN stops the
stage. An empty tensor emitted for a poisoned header carries POISON (15 R559), and its header words count as poisoned
words (02 R101). A leaf that the loader has marked as discarding emits nothing for a frozen layer (08 R320). -/
def emitHead (s : State) (core p : Nat) : State :=
  let c := s.core core
  match c.stage.info, boundStream s core (4 + p), (c.outPort p).outs with
  | some rec, some (i, r), t :: _ =>
    if !t.complete then s
    else if t.length > r.maxLen then stopStage s core .tensorLength 0
    else if (tgetD c.leafSkips p []).contains (c.outPort p).stepNo then
      s.modCore core fun c => { c with out := tmod c.out p OutPort.empty fun o =>
        { o with outs := o.outs.drop 1, dropped := o.dropped + 1, stepNo := o.stepNo + 1 } }
    else
      match fmtOf r.format with
      | none => s
      | some f =>
        let x := s.ctx c.stage.ctx
        let stream := BitVec.ofNat 32 (x.rank.toNat * 65536 + rec.lcore * 4 + p)
        let h (scale : F32) : THdr :=
          ⟨t.length, scale, r.format, t.flags, t.c, t.w, t.h, t.sample, (c.outPort p).use.toNat⟩
        let share := stripeMap s c.stage.ctx r (h F32.one)
        let e := emitUse f (rec.mode = 5) (rec.scales.getD p ⟨F32.one, false, false⟩)
          (srDraw (jobSeed x) stream x.step.jobStep) (share.getD fun _ => 0) (c.outPort p) (s.epCtr core (4 + p)) t
        let bad : Bool := t.hpoison && t.length = 0
        let ctr := if bad then e.ctr.addPoison (if share.isSome then r.consumers.length else 1) else e.ctr
        let s1 := (s.modCore core fun c => { c with out := tset c.out p e.port }).modEp core (4 + p) fun _ => ctr
        let (s2, ok) := streamPush s1 c.stage.ctx i (h e.scale) f e.elems bad
        if ok then s2 else stopStage s1 core .shapeMissing 0
  | _, _, _ => s

/-- A new tensor begun at a bound output port. Its place among the tensors begun there since load is the number of
tensors emitted plus those still held. -/
def beginOut (s : State) (core p : Nat) (t : OutTensor) : State :=
  if (boundStream s core (4 + p)).isSome then
    s.modCore core fun c =>
      let o := c.outPort p
      { c with out := tset c.out p { o with outs := o.outs ++ [t] } }
  else s

/-- The place of the next tensor that begins at a port. -/
def nextOutSeq (c : Core) (p : Nat) : Nat := (c.outPort p).gone + (c.outPort p).outs.length

/-- Values put into the tensor at place `seq` of a port, from element index `base` on. -/
def putVals (s : State) (core p seq base : Nat) (vs : List OVal) : State :=
  s.modCore core fun c =>
    let o := c.outPort p
    let k := seq - o.gone
    let outs := o.outs.modify k fun t =>
      { t with vals := (vs.zipIdx).foldl (fun m v => tset m (base + v.2) v.1) t.vals }
    { c with out := tset c.out p { o with outs := outs } }

/-- Flags set in the tensor at place `seq` of a port. -/
def putFlags (s : State) (core p seq : Nat) (fl : BitVec 8) : State :=
  s.modCore core fun c =>
    let o := c.outPort p
    { c with out := tset c.out p { o with outs := o.outs.modify (seq - o.gone) fun t =>
      { t with flags := t.flags ||| fl } } }

/-- An output endpoint has room for `n` more values: no word of its stream waits, and the buffers that they may go to
have space for the words that they fill (03 R125; log entry 13). -/
def outRoom (s : State) (core p n : Nat) : Bool :=
  match boundStream s core (4 + p) with
  | some (i, r) =>
    let t := s.stream (s.core core).stage.ctx i
    let ks := if r.fanout = 1 then [0] else if r.fanout = 2 then [t.turn] else List.range r.consumers.length
    waiting t = 0 && ks.all fun k => bufUsed r t k + wordsOf n r.format ≤ r.capacity
  | none => true

/-- The stream and the consumer that feed input port `q` of a core. -/
def feedOf (s : State) (core q : Nat) : Option (Nat × Nat) :=
  let x := s.ctx (s.core core).stage.ctx
  (boundStream s core q).bind fun (i, r) =>
    (r.consumers.findIdx? fun e => epKind e = 0 && epPort e = q && lcoreOf x (epLcore e) = some core).map fun k => (i, k)

/-- The tensor of an input port is released: the port may take the next one, and a tensor held in its stream's buffer
leaves it. -/
def releaseIn (s : State) (core q : Nat) : State :=
  let s1 := s.modCore core fun c => { c with inp := tset c.inp q InPort.empty }
  match feedOf s core q with
  | some (i, k) =>
    let c := (s.core core).stage.ctx
    if ((s.stream c i).buf k).kept = 0 then s1
    else pump (s1.modStream c i fun t => { t with bufs := tset t.bufs k { t.buf k with kept := 0 } }) c i
  | none => s1

/-- A plain output value. -/
def oval (x : F32) (poison : Bool) : OVal := ⟨x.setWidth 256, false, false, poison⟩

end Sys2Proof.Machine
end

