-- ==== Sys2Proof/Machine/Array.lean ====
section
/-!
DEFINITION. The matrix arrays (03): row tags, products, the column window, entry into A40, accumulation
groups, snapshots and drains, weight banks, and the sequencer that issues rows for MATMUL and WINDOW stages
(04 R150 to R160, 05 R195 to R200).
-/

namespace Sys2Proof.Machine

/-! ### Row tags (03 Table 3.2) -/

def mkTag (group : Nat) (opn keep drain products : Bool) (len bank : Nat) (arrays : BitVec 4) : BitVec 32 :=
  BitVec.ofNat 32 (packFields [(group, 2), (boolNat opn, 1), (boolNat keep, 1), (boolNat drain, 1),
    (boolNat products, 1), (len, 7), (bank, 1), (arrays.toNat, 4)])

def tagGroup (t : BitVec 32) : Nat := bits t.toNat 0 2
def tagOpen (t : BitVec 32) : Bool := t.getLsbD 2
def tagKeep (t : BitVec 32) : Bool := t.getLsbD 3
def tagDrain (t : BitVec 32) : Bool := t.getLsbD 4
def tagProducts (t : BitVec 32) : Bool := t.getLsbD 5
/-- Valid reduction lanes of the row (LEN holds one less). -/
def tagLanes (t : BitVec 32) : Nat := bits t.toNat 6 7 + 1
def tagBank (t : BitVec 32) : Nat := bits t.toNat 13 1
def tagArrays (t : BitVec 32) : BitVec 4 := BitVec.ofNat 4 (bits t.toNat 14 4)

/-- The arrays of a mask, in ascending order. -/
def arraysOf (m : BitVec 4) : List Nat := (List.range 4).filter fun a => m.getLsbD a

/-! ### Modes (03 Table 3.1) -/

def modeOf (n : Nat) : AMode :=
  match n with
  | 1 => .log8 | 2 => .log16 | 3 => .mixedA16 | 4 => .mixedW16 | 5 => .bbf12
  | _ => .off

def modeCode : AMode → Nat
  | .off => 0 | .log8 => 1 | .log16 => 2 | .mixedA16 => 3 | .mixedW16 => 4 | .bbf12 => 5

/-- Activation and weight formats of a mode. -/
def actFmt : AMode → Fmt
  | .log16 | .mixedA16 => .log16 | .bbf12 => .bbf12 | _ => .log8
def weightFmt : AMode → Fmt
  | .log16 | .mixedW16 => .log16 | .bbf12 => .bbf12 | _ => .log8

def logShape : Fmt → LogShape
  | .log16 => shapeLog16
  | _ => shapeLog8

/-- Bytes of a tile in a weight format (03 R128). -/
def tileBytes : Fmt → Nat
  | .log8 => 2048 | _ => 4096

/-- The weight of lane `l`, column `j` of a tile image (06 R249). -/
def tileWeight (f : Fmt) (tile l j : Nat) : Nat :=
  match f with
  | .log16 => bits tile (8 * (j * 256 + 2 * l)) 16
  | .bbf12 =>
    let b := 8 * (j * 256 + 32 * (l / 16))
    bits tile (b + 12 * (l % 16)) 12 + bits tile (b + 192) 8 * 65536
  | _ => bits tile (8 * (j * 128 + l)) 8

/-- The weight that a bank gives lane `l` of column `j`. A BBF12 weight has its own block's exponent (log entry 48). -/
def Bank.weight (f : Fmt) (b : Bank) (l j : Nat) : Nat :=
  match f with
  | .bbf12 => tileWeight f b.tile l j % 4096 + bits b.exps (8 * (128 * j + l)) 8 * 65536
  | _ => tileWeight f b.tile l j

/-- The byte of a tile image that holds the weight of lane `l`, column `j`. -/
def tileByte (f : Fmt) (l j : Nat) : Nat :=
  match f with
  | .log16 => j * 256 + 2 * l
  | .bbf12 => j * 256 + 32 * (l / 16)
  | _ => j * 128 + l

/-! ### Products and the column window (02 R70 to R72, R106; 03 R115, R116) -/

/-- A product (02 Table 2.3). -/
inductive Prod where
  | nan
  | zero
  | num (v : Dy)
  deriving DecidableEq, Repr

/-- The product of an activation and a weight, poison apart. -/
def product (m : AMode) (a w : Nat) : Prod :=
  match m with
  | .bbf12 =>
    let v := (bbfVal a).mul (bbfVal w)
    if v.m = 0 then .zero else .num v
  | _ =>
    let fa := logShape (actFmt m)
    let fw := logShape (weightFmt m)
    match fa.decode a, fw.decode w with
    | .nan, _ => .nan
    | _, .nan => .nan
    | .zero, _ => .zero
    | _, .zero => .zero
    | .num sa ea, .num sb eb =>
      let v := log16Mag (fa.widen ea + fw.widen eb)
      .num (if sa != sb then v.neg else v)

/-- A product rounded into the window whose least bit weighs `2^lsb`, and whether it was far (03 R116). -/
def intoWindow (r : Rnd) (lsb : Int) (v : Dy) : Dy × Bool :=
  if v.e ≥ lsb then (v, false)
  else
    let d : Nat := 2 ^ (lsb - v.e).toNat
    if v.m % (d : Int) = 0 then (v, false)
    else
      let n := roundDiv r v.m.natAbs d
      (⟨if v.m < 0 then -(n : Int) else n, lsb⟩, true)

/-- The window sum of one column's products: the sum, or NaN where a product is NaN, and the number of far products,
which the window changes whatever the other products are. -/
def columnSum (r : Rnd) (ps : List Prod) : Option Dy × Nat :=
  let vs := ps.filterMap fun p => match p with | .num v => some v | _ => none
  let sum : Dy × Nat := match vs with
    | [] => (Dy.zero, 0)
    | v :: rest =>
      let top := rest.foldl (fun k x => max k x.floorLog2) v.floorLog2
      let ws := vs.map (intoWindow r (top - 55))
      (ws.foldl (fun a x => a.add x.1) Dy.zero, (ws.filter (·.2)).length)
  (if ps.any fun p => p = .nan then none else some sum.1, sum.2)

/-- The products of one column of a row; a poisoned operand gives NaN (02 R98). -/
def columnProducts (m : AMode) (row : Row) (b : Bank) (j : Nat) : List Prod :=
  (List.range (tagLanes row.tag)).map fun l =>
    match row.acts[l]? with
    | some e => if e.poison || bit b.poison (128 * j + l) then .nan
        else product m e.code.toNat (b.weight (weightFmt m) l j)
    | none => if bit b.poison (128 * j + l) then .nan
        else product m (zeroCode (actFmt m)) (b.weight (weightFmt m) l j)

/-! ### Accumulation groups (03 R117 to R123) -/

def Group.opened : Group := ⟨List.replicate 16 A40.zero, 0, false, false, none⟩

/-- The group's value is NaN in some column (03 Table 3.11 NAN), poison included (02 R98). -/
def Group.isNaN (g : Group) : Bool := g.poisoned || g.vals.any A40.isNaN

/-- PRODUCTS after `n` more products: it saturates at 0FFF_FFFFh (03 R122). -/
def addProducts (p : BitVec 28) (n : Nat) : BitVec 28 :=
  if p.toNat + n > 0x0FFFFFFF then 0x0FFFFFFF#28 else p + BitVec.ofNat 28 n

/-- What the entry of a row into one group does: the new group and its far products, or a stop. -/
inductive Entry where
  | ok (g : Group) (far : Nat)
  | stop (n : StopName)
  deriving DecidableEq, Repr

/-- Entry of a row into one group of one array (03 R117, R119 to R122, 02 R107). A NaN product makes its column of the
group NaN and leaves the other columns (DEDUCED, log entry 47); poison makes every column NaN. -/
def enterGroup (m : AMode) (row : Row) (b : Option Bank) (g : Group) : Entry :=
  let g1 := if tagOpen row.tag && !tagKeep row.tag then Group.opened else g
  if !tagProducts row.tag then .ok g1 0
  else
    match b with
    | none => .ok g1 0
    | some b =>
      let pair := (row.scaleA, b.scaleB)
      let n := tagLanes row.tag
      if g1.pair.isSome && g1.pair ≠ some pair then .stop .accScaleMismatch
      else if m = .bbf12 && g1.products.toNat + n > 4096 then .stop .bbf12GroupOverflow
      else
        let pr := addProducts g1.products n
        let long := g1.longAccum || (decide (m ≠ .bbf12) && decide (g1.products.toNat + n > 2 ^ 20))
        let poison := (row.acts.take n).any (·.poison) ||
          (List.range 16).any fun j => (List.range n).any fun l => bit b.poison (128 * j + l)
        let r : Rnd := if m = .bbf12 then .towardZero else .nearestEven
        let sums := (List.range 16).map fun j => columnSum r (columnProducts m row b j)
        let far := (sums.map (·.2)).sum
        if poison || g1.poisoned then .ok ⟨List.replicate 16 A40.nan, pr, long, true, some pair⟩ far
        else
          let vals := (g1.vals.zip sums).map fun p =>
            match p.2.1 with
            | none => A40.nan
            | some d => if A40.isNaN p.1 then A40.nan else A40.addTo r p.1 d
          .ok ⟨vals, pr, long, false, some pair⟩ far

def ArrayUnit.group (u : ArrayUnit) (a g : Nat) : Group := tgetD u.groups (4 * a + g) Group.opened

/-- The outcome of a row's entry over its arrays. -/
def enterRow (m : AMode) (row : Row) : List Nat → ArrayUnit → ArrayUnit × Option StopName
  | [], u => (u, none)
  | a :: rest, u =>
    let g := tagGroup row.tag
    match enterGroup m row (tget row.banks a) (u.group a g) with
    | .stop n => (u, some n)
    | .ok g' far =>
      enterRow m row rest
        { u with groups := tset u.groups (4 * a + g) g', farProducts := u.farProducts + BitVec.ofNat 48 far }

/-- The snapshots that a DRAIN row takes, in the order A0 to A3 (03 R123, R124). -/
def snapshots (row : Row) (u : ArrayUnit) : List Snap :=
  let as := arraysOf (tagArrays row.tag)
  as.zipIdx.map fun p =>
    let g := u.group p.1 (tagGroup row.tag)
    ⟨p.1, g.vals, g.longAccum, g.poisoned, g.pair,
     { row.dest with base := row.dest.base + 16 * p.2, cols := min 16 (row.dest.cols - 16 * p.2) },
     p.2 + 1 = as.length⟩

/-- A row enters A40 (03 R117): the oldest row in flight. A DRAIN row's snapshot waits for the last snapshot
register of the previous DRAIN to be taken (R125). -/
def rowEntry (s : State) (core : Nat) : State :=
  let u := (s.core core).arr
  match u.flight with
  | [] => s
  | row :: rest =>
    if tagDrain row.tag && !u.snaps.isEmpty then s
    else
      let (u1, stop) := enterRow u.mode row (arraysOf (tagArrays row.tag)) { u with flight := rest }
      match stop with
      | some n => stopStage (s.modCore core fun c => { c with arr := u1 }) core n 0
      | none =>
        let u2 := if tagDrain row.tag then { u1 with snaps := snapshots row u1 } else u1
        s.modCore core fun c => { c with arr := u2 }

/-! ### Drain (02 R82, R106; 03 R124, R126) -/

/-- The drained value of one column: rounded once, clamped beyond the binary32 range (02 R82, R81, R106). -/
def drainValue (bbf : Bool) (sa sb : F32) (poison : Bool) (g : A40) : OVal :=
  if A40.isNaN g then ⟨BitVec.ofNat 256 0x7FC00000, false, false, poison⟩
  else
    let v := if bbf then A40.val g else ((A40.val g).mul (F32.val sa)).mul (F32.val sb)
    let c := shapeB32.magCode (if bbf then .towardZero else .nearestEven) v.m.natAbs 1 v.e
    let big : Bool := if bbf then (F32.val (F32.maxFinite false)).lt v.abs else c > 0x7F7FFFFF
    let mg := if big then 0x7F7FFFFF else c
    ⟨BitVec.ofNat 256 (signBit (v.m < 0) 32 + mg), false, big, poison⟩

/-- The drain unit takes one snapshot register and writes its values to the output endpoint. -/
def drainUnit (s : State) (core : Nat) : State :=
  let u := (s.core core).arr
  match u.snaps with
  | [] => s
  | x :: rest =>
    if portFull s core x.dest.port then s
    else
    let pr := x.pair.getD (F32.one, F32.one)
    let vs := (x.vals.take x.dest.cols).map (drainValue (u.mode = .bbf12) pr.1 pr.2 x.poisoned)
    let u1 := { u with
      snaps := rest
      longAccumDrains := u.longAccumDrains + (if x.longAccum then 1 else 0)
      drains := u.drains + (if x.last then 1 else 0) }
    let s1 := putVals (s.modCore core fun c => { c with arr := u1 }) core x.dest.port x.dest.seq x.dest.base vs
    if x.longAccum then putFlags s1 core x.dest.port x.dest.seq flagLongAccum else s1

/-! ### The parameter block of a MATMUL stage (05 Table 5.4) -/

def matK (p : Blob) : Nat := p.bits 0 21
def matWsrc (p : Blob) : Bool := p.bits 21 1 = 1
def matWt (p : Blob) : Bool := p.bits 22 1 = 1
def matBlock (p : Blob) : Nat := p.bits 23 2 + 1

def StageRec.isMatmul (r : StageRec) : Bool := r.opclass = 0
def StageRec.isWindow (r : StageRec) : Bool := r.opclass = 1
def StageRec.wsrc (r : StageRec) : Bool := r.isMatmul && matWsrc r.param
def StageRec.nArrays (r : StageRec) : Nat := max 1 (arraysOf r.arrays).length
def StageRec.npass (r : StageRec) : Nat := r.npassM1 + 1

/-! ### The plan of the running pass -/

/-- What the sequencer works on: rows (positions) of the tensor, slices and their lengths in the pass,
passes, block size, columns per position of the output, first column of the pass and its columns. -/
structure Plan where
  rows : Nat
  slices : Nat
  passes : Nat
  block : Nat
  outCols : Nat
  colBase : Nat
  cols : Nat
  outPort : Nat
  drains : Bool
  keep : Bool
  deriving DecidableEq, Repr

/-- Rows, K and output columns of a WSRC = 1 MATMUL from its port-1 tensor (05 R200). -/
def wsrcK (r : StageRec) (h1 : THdr) : Nat := if matWt r.param then h1.length / max h1.c 1 else matK r.param
def wsrcCols (r : StageRec) (h1 : THdr) : Nat := if matWt r.param then h1.c else h1.length / max (matK r.param) 1

/-- Columns that the passes before `i` with the same output port give to a position, of the draining passes. -/
def passColBase (ps : List PassRec) (window : Bool) (na i : Nat) : Nat :=
  match ps[i]? with
  | none => 0
  | some p => ((ps.take i).filter fun q => q.outPort = p.outPort && (window || q.drainEnd)).length * 16 * na

def passCols (ps : List PassRec) (window : Bool) (na port : Nat) : Nat :=
  (ps.filter fun q => q.outPort = port && (window || q.drainEnd)).length * 16 * na

/-- Slices of the window's sub-windows: (sub-window number, slice in it) for t = 0 to T - 1 (04 R150, R151). -/
def winSlices (w : WinDesc) (c : Nat) : List (Nat × Nat) :=
  w.subs.zipIdx.flatMap fun p =>
    (List.range ((p.1.2.2.1 * p.1.2.2.2 * c + 127) / 128)).map fun k => (p.2, k)

/-- Output columns per column tile and the number of tiles (04 R156). -/
def tileCols (w : WinDesc) (ow : Nat) : Nat :=
  if w.tileW = 0 then max ow 1 else (w.tileW - w.ew) / w.sw + 1
def tileCount (w : WinDesc) (ow : Nat) : Nat := (ow + tileCols w ow - 1) / tileCols w ow

/-- The output rows of this core's stripe. -/
def myRows (st : StageUnit) (r : StageRec) (oh : Nat) : Nat × Nat := stripeRows st.stripeFirst oh r.member

/-- Position `i` of column tile `tile`: output row and column (04 R152, R156). -/
def tilePos (w : WinDesc) (lo ow tile i : Nat) : Nat × Nat :=
  let m := tileCols w ow
  let n := max 1 (min m (ow - tile * m))
  (lo + i / n, tile * m + i % n)

/-- The plan of the pass that the sequencer stands at. -/
def planOf (s : State) (core : Nat) : Option Plan :=
  let c := s.core core
  match c.stage.info with
  | none => none
  | some r =>
    let na := r.nArrays
    let q := c.stage.seq
    if r.isWindow then
      match c.win.cur, c.stage.passes[q.pass]? with
      | some t, some p =>
        let w := WinDesc.parse r.param
        let (lo, hi) := myRows c.stage r t.oh
        let m := tileCols w t.ow
        let n := min m (t.ow - q.tile * m)
        some ⟨(hi - lo) * n, (winSlices w w.inC).length, r.npass, w.blockM1 + 1,
          passCols c.stage.passes true na p.outPort, passColBase c.stage.passes true na q.pass, 16 * na,
          p.outPort, true, false⟩
      | _, _ => none
    else if r.isMatmul then
      match (c.inPort 0).hdr with
      | none => none
      | some h =>
        if r.wsrc then
          match (c.inPort 1).hdr with
          | none => none
          | some h1 =>
            let k := wsrcK r h1
            let n := wsrcCols r h1
            let wid := 16 * na
            some ⟨h.length / max k 1, (k + 127) / 128, (n + wid - 1) / wid, matBlock r.param, n, q.pass * wid,
              min wid (n - q.pass * wid), 0, true, false⟩
        else
          match c.stage.passes[q.pass]? with
          | none => none
          | some p =>
            some ⟨h.length / max (matK r.param) 1, p.tiles / na, r.npass, matBlock r.param,
              passCols c.stage.passes false na p.outPort, passColBase c.stage.passes false na q.pass, 16 * na,
              p.outPort, p.drainEnd, p.accKeep⟩
    else none

/-! ### Row formation -/

/-- Elements `[lo, lo + n)` of a list, each missing one the zero code. -/
def lanes (z : Nat) (es : List Elem) (lo n : Nat) : List Elem :=
  let got := (es.drop lo).take n
  got ++ List.replicate (n - got.length) ⟨BitVec.ofNat 256 z, false⟩

/-- A row to be issued: its lanes, or a control row of padding (04 R157). -/
inductive Formed where
  | lanes (es : List Elem)
  | control
  | wait
  deriving DecidableEq, Repr

/-- The slice `t` of position `pos` of a MATMUL row of `k` elements; a slice beyond K is one lane of zero. -/
def matRow (m : AMode) (k : Nat) (p : InPort) (pos slice : Nat) : Formed :=
  let lo := 128 * slice
  let z := zeroCode (actFmt m)
  if lo ≥ k then .lanes [⟨BitVec.ofNat 256 z, false⟩]
  else
    let n := min 128 (k - lo)
    if p.elems.length < pos * k + lo + n && !p.done then .wait
    else .lanes (lanes z p.elems (pos * k + lo) n)

/-- A filter of one tap, which never uses the line buffers (04 R157). -/
def WinDesc.oneTap (w : WinDesc) : Bool := w.subCount = 0 && w.kh = 1 && w.kw = 1

/-- The input rows that reach this core's port, in order: every row, or the rows that go to its stripe (04 R160). -/
def arrivingRows (st : StageUnit) (r : StageRec) (w : WinDesc) (t : WinTensor) : List Nat :=
  if st.stripeFirst = [] then List.range t.hdr.h
  else (List.range t.hdr.h).filter fun x => w.rowHome (t.padV = 2) st.stripeFirst t.hdr.h t.oh x = r.member

/-- The key of input row `x` in the line buffers, in the pass run and column tile at the sequencer. -/
def lineKey (q : Sequencer) (x : Nat) : Nat := (q.run * 65536 + q.tile) * 65536 + x

/-- The channels of one tap of a window: from the port for a filter of one tap, where input row `r` is the one of that
place among the rows that arrive, else from the line buffers; zero for padding; or nothing yet. -/
def tapElems (z n : Nat) (c : Core) (direct : Option (List Nat × Nat)) (row col : Option Nat) : Option (List Elem) :=
  match row, col with
  | some r, some x =>
    match direct with
    | some (rows, w) =>
      (rows.findIdx? (· = r)).bind fun i =>
        let es := (c.inPort 0).elems
        if es.length < (i * w + x + 1) * n then none else some (lanes z es ((i * w + x) * n) n)
    | none => (tget c.win.lines (lineKey c.stage.seq r)).bind fun l => tget l.cols x
  | _, _ => some (List.replicate n ⟨BitVec.ofNat 256 z, false⟩)

/-- A window of a filter of one tap lies wholly in zero padding (04 R157). -/
def inPadding (w : WinDesc) (t : WinTensor) (o x : Nat) : Bool :=
  (reflectPos (t.padV = 2) t.hdr.h (w.rowAt o 0)).isNone || (reflectPos (t.padH = 2) t.hdr.w (w.colAt x 0)).isNone

/-- The window register for slice `slice` of the window at output position `(o, x)`: of each tap of its sub-window, in
the order of R150, the lanes that the slice takes (04 R141, R150, R158, R159). -/
def winTaps (m : AMode) (c : Core) (r : StageRec) (w : WinDesc) (t : WinTensor) (o x slice : Nat) :
    Option (List (List Elem)) :=
  let z := zeroCode (actFmt m)
  (winSlices w w.inC)[slice]?.bind fun (k, part) =>
    (w.subs[k]?).bind fun (ro, co, kh, kw) =>
      let row (i : Nat) := reflectPos (t.padV = 2) t.hdr.h (w.rowAt o (ro + i))
      let col (j : Nat) := reflectPos (t.padH = 2) t.hdr.w (w.colAt x (co + j))
      let direct := if w.oneTap then some (arrivingRows c.stage r w t, t.hdr.w) else none
      let taps := (List.range kh).flatMap fun i => (List.range kw).map fun j =>
        tapElems z w.inC c direct (row i) (col j)
      if taps.any (·.isNone) then none
      else
        let lo := 128 * part
        let hi := min (lo + 128) (kh * kw * w.inC)
        some ((taps.filterMap id).zipIdx.map fun p =>
          let a := max lo (p.2 * w.inC)
          let b := min hi ((p.2 + 1) * w.inC)
          (p.1.drop (a - p.2 * w.inC)).take (b - a))

/-- Slice `slice` of the window at output position `(o, x)`: what the window register holds of it (04 R150, R157). -/
def winRow (m : AMode) (c : Core) (r : StageRec) (w : WinDesc) (t : WinTensor) (o x slice : Nat) : Formed :=
  if w.oneTap && inPadding w t o x then .control
  else match winTaps m c r w t o x slice with
    | some ts => .lanes ts.flatten
    | none => .wait

/-- The tile identity that a bank must hold for a row: the pass run. Where the tiles of a pass are more than the banks
hold, each block of positions loads them anew (04 R153), and the block counts too. A stage of one pass whose tiles fit
keeps them (05 R197), so that identity is 0. -/
def bankKey (r : StageRec) (q : Sequencer) (slices block : Nat) : Nat :=
  if slices ≤ 2 then (if r.npassM1 = 0 && !r.wsrc then 0 else q.run)
  else (q.run * 65536 + q.tile) * 2 ^ 32 + block

def bankHolds (u : ArrayUnit) (a b run slice : Nat) : Bool :=
  match tget u.banks (2 * a + b) with
  | some k => k.run = run && k.slice = slice
  | none => false

/-- Whether a pass may begin: its tensor is there, and its staging area is full (05 R199). -/
def stagingFull (c : Core) (r : StageRec) : Bool :=
  r.wsrc ||
    match tget c.stage.staging (if r.npassM1 = 0 then 0 else c.stage.seq.run % 2) with
    | some g => g.full && (r.npassM1 = 0 || g.run = c.stage.seq.run)
    | none => false

/-- The output tensors that a tensor of `rows` positions begins: one for each port that a pass drains to, or
an empty one for each bound port where nothing drains (05 R189). -/
def beginPasses (s : State) (core : Nat) (r : StageRec) (h : THdr) (rows w hgt : Nat) (fl : BitVec 8)
    (hpoison : Bool) : State :=
  let c := s.core core
  let na := r.nArrays
  let cols (p : Nat) : Nat :=
    if r.wsrc then (if p = 0 then ((c.inPort 1).hdr.map (wsrcCols r)).getD 0 else 0)
    else passCols c.stage.passes r.isWindow na p
  let ports := (List.range 4).filter fun p => (boundStream s core (4 + p)).isSome
  let drained := ports.filter fun p => rows * cols p ≠ 0
  let mk (p : Nat) : OutTensor :=
    if rows * cols p = 0 then ⟨0, cols p, 0, if rows = 0 then hgt else 0, h.sample, fl ||| flagShaped, hpoison, []⟩
    else ⟨rows * cols p, cols p, w, hgt, h.sample, fl ||| flagShaped, hpoison, []⟩
  (if drained = [] then ports else drained).foldl (fun s p => beginOut s core p (mk p)) s

/-- Empty tensors of a shape (C, W, H) on every bound output, and the inputs released (05 R189). -/
def passEmpty (s : State) (core : Nat) (h : THdr) (fl : BitVec 8) (hpoison : Bool) (ins : List Nat)
    (shape : Nat × Nat × Nat) : State :=
  let ports := (List.range 4).filter fun p => (boundStream s core (4 + p)).isSome
  let s1 := ports.foldl (fun s p => beginOut s core p
    ⟨0, shape.1, shape.2.1, shape.2.2, h.sample, fl ||| flagShaped, hpoison, []⟩) s
  ins.foldl (fun s q => releaseIn s core q) s1

/-- The start of a MATMUL tensor: its length is checked against K and its outputs begin. -/
def startMatmul (s : State) (core : Nat) (r : StageRec) (h : THdr) : State :=
  let c := s.core core
  let k := if r.wsrc then ((c.inPort 1).hdr.map (wsrcK r)).getD 0 else matK r.param
  -- an empty tensor on either port gives empty outputs, once the other has come whole (05 R189)
  let empty : Bool := h.length = 0 || (r.wsrc && ((c.inPort 1).hdr.map fun g => decide (g.length = 0)).getD false)
  if empty then
    if !(c.inPort 0).done then s
    else (if r.wsrc then [0, 1] else [0]).foldl (fun s q => releaseIn s core q)
      (beginPasses s core r h 0 0 1 0 ((c.inPort 0).hpoison || (r.wsrc && (c.inPort 1).hpoison)))
  else if k = 0 || h.length % k ≠ 0 then stopStage s core .tensorLength 0
  else
    let n := h.length / k
    let s1 := beginPasses s core r h n n 1 0 (c.inPort 0).hpoison
    s1.modCore core fun c => { c with stage := { c.stage with seq := { c.stage.seq with
      active := true, pass := 0, slice0 := 0, block := 0, t := 0, p := 0, tile := 0 } } }

/-- The start of a pass at the sequencer, where it may start (05 R199). -/
def startPass (s : State) (core : Nat) : State :=
  let c := s.core core
  match c.stage.info with
  | none => s
  | some r =>
    -- a switch from one pass to the next takes 2 core cycles
    let switch := if r.npassM1 = 0 || c.stage.seq.run = 0 then 0 else 2
    if c.stage.seq.active || !stagingFull c r then s
    else if r.isWindow then
      if (c.win.cur.map fun t => !t.issued).getD false then
        s.modCore core fun c => { c with stage := { c.stage with
          area := c.stage.seq.run % 2 = 1 && r.npassM1 ≠ 0, passNow := c.stage.seq.pass, switchLeft := switch
          seq := { c.stage.seq with active := true, block := 0, t := 0, p := 0, tile := 0 } } }
      else s
    else if r.isMatmul then
      match (c.inPort 0).hdr with
      | none => s
      | some h =>
        if r.wsrc && !(c.inPort 1).done then s
        else
          let s1 := s.modCore core fun c => { c with stage := { c.stage with
            area := c.stage.seq.run % 2 = 1 && r.npassM1 ≠ 0, passNow := c.stage.seq.pass, switchLeft := switch } }
          if c.stage.seq.pass = 0 then startMatmul s1 core r h
          else s1.modCore core fun c => { c with stage := { c.stage with seq := { c.stage.seq with
            active := true, block := 0, t := 0, p := 0, tile := 0 } } }
    else s

/-- Rows of the line buffers that no window of this pass and tile from output row `o` on uses: this core's own decrement
(04 R162). A row whose count reaches 0 leaves its slot. -/
def releaseLines (w : WinDesc) (t : WinTensor) (q : Sequencer) (o hi : Nat) (ls : Tbl LineRow) : Tbl LineRow :=
  ls.filterMap fun p =>
    let l := p.2
    if l.ownerDone || (p.1 / 65536 = lineKey q 0 / 65536 && w.rowNeeded (t.padV = 2) t.hdr.h o hi (p.1 % 65536))
    then some p
    else if l.count ≤ 1 then none else some (p.1, { l with count := l.count - 1, ownerDone := true })

/-- A window tensor ends once its last row has issued and every row that arrives has been met (04 R154). -/
def endWindow (s : State) (core : Nat) : State :=
  let c := s.core core
  match c.stage.info, c.win.cur with
  | some r, some t =>
    if t.issued && (c.inPort 0).done && t.counted ≥ (arrivingRows c.stage r (WinDesc.parse r.param) t).length then
      releaseIn (s.modCore core fun c => { c with win := { c.win with cur := none } }) core 0
    else s
  | _, _ => s

/-- The sequencer after a row has issued: the next position, slice, block, tile, pass or tensor
(04 R152, R156; 05 R196, R200). -/
def advance (s : State) (core : Nat) (r : StageRec) (pl : Plan) : State :=
  let c := s.core core
  let q := c.stage.seq
  let inBlock := min pl.block (pl.rows - q.block)
  let put (s : State) (q : Sequencer) : State := s.modCore core fun c => { c with stage := { c.stage with seq := q } }
  let countPass (s : State) : State :=
    s.modCore core fun c => { c with stage := { c.stage with passesRun := c.stage.passesRun + 1 } }
  -- the rows that the next block of this tile no longer uses; at the end of a tile or pass none is used
  let winLines (s : State) (next : Option Nat) : State :=
    match c.win.cur with
    | some t =>
      let w := WinDesc.parse r.param
      let (lo, hi) := myRows c.stage r t.oh
      let o := match next with | some b => (tilePos w lo t.ow q.tile b).1 | none => hi
      s.modCore core fun c => { c with win := { c.win with
        lines := releaseLines w t q o hi c.win.lines
        cur := if next.isSome then c.win.cur else c.win.cur.map fun t => { t with nextRow := 0, nextHalo := 0 } } }
    | none => s
  if q.p + 1 < inBlock then put s { q with p := q.p + 1 }
  else if q.t + 1 < pl.slices then put s { q with p := 0, t := q.t + 1 }
  else if r.wsrc then
    -- every pass of a block in turn, then the next block
    let s1 := (countPass s).modCore core fun c => { c with stage := { c.stage with
      passNow := if q.pass + 1 < pl.passes then q.pass + 1 else if q.block + pl.block < pl.rows then 0 else q.pass } }
    if q.pass + 1 < pl.passes then put s1 { q with p := 0, t := 0, pass := q.pass + 1, run := q.run + 1 }
    else if q.block + pl.block < pl.rows then
      put s1 { q with p := 0, t := 0, pass := 0, run := q.run + 1, block := q.block + pl.block }
    else
      releaseIn (releaseIn (put s1 { Sequencer.start with run := q.run + 1 }) core 0) core 1
  else if q.block + pl.block < pl.rows then
    winLines (put s { q with p := 0, t := 0, block := q.block + pl.block }) (some (q.block + pl.block))
  else
    let tiles := match c.win.cur with
      | some t => if r.isWindow then tileCount (WinDesc.parse r.param) t.ow else 1
      | none => 1
    if q.tile + 1 < tiles then
      winLines (put s { q with p := 0, t := 0, block := 0, tile := q.tile + 1 }) none
    else
      let s1 := countPass s
      let keepNext := match c.stage.passes[q.pass + 1]? with | some p => p.accKeep | none => false
      if q.pass + 1 < pl.passes then
        let q' : Sequencer := { Sequencer.start with
          run := q.run + 1
          pass := q.pass + 1
          slice0 := if keepNext then q.slice0 + pl.slices else 0 }
        winLines (put s1 q') none
      else
        let s2 := put s1 { Sequencer.start with run := q.run + 1 }
        if r.isWindow then
          endWindow ((winLines s2 none).modCore core fun c => { c with win := { c.win with
            taps := [], cur := c.win.cur.map fun t => { t with issued := true } } }) core
        else releaseIn s2 core 0

/-- The row that the sequencer forms next, with its tag and destination. -/
def nextRow (s : State) (core : Nat) (r : StageRec) (pl : Plan) : Formed × Dest × Nat × F32 :=
  let c := s.core core
  let q := c.stage.seq
  let i := q.block + q.p
  let h := ((c.inPort 0).hdr.map (·.scale)).getD F32.one
  let seqOf (p : Nat) : Nat := nextOutSeq c p - 1
  if r.isWindow then
    match c.win.cur with
    | none => (.wait, ⟨0, 0, 0, 0⟩, q.t, h)
    | some t =>
      let w := WinDesc.parse r.param
      let (lo, _) := myRows c.stage r t.oh
      let (o, x) := tilePos w lo t.ow q.tile i
      (winRow c.arr.mode c r w t o x q.t,
       ⟨pl.outPort, seqOf pl.outPort, ((o - lo) * t.ow + x) * pl.outCols + pl.colBase, pl.cols⟩, q.t, h)
  else
    let k := if r.wsrc then ((c.inPort 1).hdr.map (wsrcK r)).getD 0 else matK r.param
    (matRow c.arr.mode k (c.inPort 0) i (q.slice0 + q.t),
     ⟨pl.outPort, seqOf pl.outPort, i * pl.outCols + pl.colBase, pl.cols⟩, q.t, h)

/-- Core cycles between two issue slots (03 Table 3.1). -/
def issueCycles : AMode → Nat
  | .log8 => 1 | _ => 2

/-- The snapshot of a DRAIN row that issued now would fall no earlier than the taking of the last snapshot register of
the previous DRAIN (03 R125): its cycles have passed, or the drain unit has taken all. -/
def drainClear (u : ArrayUnit) : Bool :=
  u.drainWait = 0 || (u.snaps.isEmpty && !u.flight.any fun r => tagDrain r.tag)

/-- One row issues, or is held, or there is none to issue (03 R113, R125, R131). -/
def issueFormed (s : State) (core : Nat) (r : StageRec) (pl : Plan) (es : List Elem) (products : Bool)
    (d : Dest) (t : Nat) (scaleA : F32) : State :=
  let c := s.core core
  let u := c.arr
  let b := t % 2
  let run := bankKey r c.stage.seq pl.slices c.stage.seq.block
  let as := arraysOf r.arrays
  let drain := pl.drains && t + 1 = pl.slices
  let slot := issueCycles u.mode
  if products && !(as.all fun a => bankHolds u a b run t) then
    s.modCore core fun c => { c with arr := { c.arr with held := some .bank } }
  else if drain && !(outRoom s core d.port (16 * as.length) && drainClear u) then
    s.modCore core fun c => { c with arr := { c.arr with held := some .output } }
  else
    let n := if products then es.length else 1
    let tag := mkTag c.stage.seq.p (t = 0) pl.keep drain products (n - 1) b r.arrays
    let banks : Tbl Bank := if products
      then as.filterMap fun a => (tget u.banks (2 * a + b)).map fun k => (a, k) else []
    let sel := as.foldl (fun m a => if products then
      (if b = 1 then m ||| (1#4 <<< a) else m &&& ~~~(1#4 <<< a)) else m) u.selected
    let s1 := s.modCore core fun c => { c with arr := { c.arr with
      held := none, rowsIssued := c.arr.rowsIssued + 1, selected := sel,
      drainWait := (if drain then as.length else c.arr.drainWait) - slot,
      flight := c.arr.flight ++ [⟨tag, es, scaleA, banks, d⟩] } }
    advance s1 core r pl

/-- The window register takes the taps of the row at the sequencer (04 R141); a filter of one tap never uses it (R157). -/
def formTaps (s : State) (core : Nat) (r : StageRec) : State :=
  let c := s.core core
  match c.win.cur with
  | some t =>
    let w := WinDesc.parse r.param
    if !r.isWindow || w.oneTap then s
    else
      let q := c.stage.seq
      let (o, x) := tilePos w (myRows c.stage r t.oh).1 t.ow q.tile (q.block + q.p)
      s.modCore core fun c => { c with win := { c.win with taps := (winTaps c.arr.mode c r w t o x q.t).getD [] } }
  | none => s

/-- The first `n` elements of a list, poisoned. -/
def poisonFirst (n : Nat) (es : List Elem) : List Elem := (es.take n).map (fun e => { e with poison := true }) ++ es.drop n

/-- What the read of the first word of a column of a row in a core's line buffers meets (06 R227): the carrel store holds
them (05 R193). -/
def lineError (s : State) (core key col : Nat) (e : Ecc) : State :=
  let s1 := storeEvent s (.carrel core) e
  if e ≠ .uncorrected then s1
  else s1.modCore core fun c => { c with win := { c.win with
    lines := match tget c.win.lines key with
      | some l => tset c.win.lines key { l with cols := match tget l.cols col with
          | some es => tset l.cols col (poisonFirst (perWord (actFmt c.arr.mode)) es)
          | none => l.cols }
      | none => c.win.lines } }

/-- The row and the column of the first tap that the row at the sequencer reads from the line buffers. -/
def firstTap (c : Core) (r : StageRec) : Option (Nat × Nat) :=
  match c.win.cur with
  | some t =>
    let w := WinDesc.parse r.param
    if !r.isWindow || w.oneTap then none
    else
      let q := c.stage.seq
      let (o, x) := tilePos w (myRows c.stage r t.oh).1 t.ow q.tile (q.block + q.p)
      ((winSlices w w.inC)[q.t]?.bind fun p => w.subs[p.1]?).bind fun (ro, co, kh, kw) =>
        ((List.range kh).flatMap fun i => (List.range kw).map fun j => (ro + i, co + j)).findSome? fun p =>
          (reflectPos (t.padV = 2) t.hdr.h (w.rowAt o p.1)).bind fun row =>
            (reflectPos (t.padH = 2) t.hdr.w (w.colAt x p.2)).map fun col => (row, col)
  | none => none

/-- What the read of the line buffers for the row at the sequencer meets. -/
def rowError (s : State) (core : Nat) (r : StageRec) (e : Ecc) : State :=
  match firstTap (s.core core) r with
  | some (row, col) => lineError s core (lineKey (s.core core).stage.seq row) col e
  | none => s

/-- The stage sequencer issues one tagged row (03 R113). -/
def issueRow (s : State) (core : Nat) (ecc : Ecc) : State :=
  let c := s.core core
  match c.stage.info with
  | none => s
  | some r =>
    if c.stage.st ≠ .running then s
    else
      -- a stage of one pass starts its pass by itself; a folded stage by PASS_START, its first pass apart
      let s0 := if c.stage.seq.active then s
        else if r.npassM1 = 0 || r.wsrc || c.stage.seq.run = 0 then startPass s core else s
      let c0 := s0.core core
      if !c0.stage.seq.active || c0.stage.switchLeft ≠ 0 then s0
      else
        match planOf s0 core with
        | none => s0
        | some pl =>
          if pl.rows = 0 || pl.slices = 0 then advance s0 core r { pl with block := max pl.rows 1, slices := 1 }
          else
            match (nextRow s0 core r pl).1 with
            | .wait => s0
            | _ =>
              let s1 := rowError s0 core r ecc
              let (f, d, t, sc) := nextRow s1 core r pl
              -- an error that retires the core leaves nothing to issue (12 R478)
              if (s1.core core).stage.st ≠ .running then s1
              else match f with
              | .wait => s1
              | .control => issueFormed s1 core r pl [] false d t sc
              | .lanes es => issueFormed (formTaps s1 core r) core r pl es true d t sc

/-! ### Weight loads (03 R128 to R130, 05 R200, 06 R250) -/

/-- Position `i` of the pass at the sequencer issues a control row. -/
def controlAt (c : Core) (r : StageRec) (i : Nat) : Bool :=
  match c.win.cur with
  | some t =>
    let w := WinDesc.parse r.param
    let (o, x) := tilePos w (myRows c.stage r t.oh).1 t.ow c.stage.seq.tile i
    r.isWindow && w.oneTap && inPadding w t o x
  | none => false

/-- The slice that bank `b` must hold next for the pass at the sequencer, with the block that it serves: the next slice
of its parity for which a product row is still to issue in the block at hand, or the first of its parity for the next
block. A control row counts for none (03 R112). -/
def nextSlice (c : Core) (r : StageRec) (pl : Plan) (b : Nat) : Option (Nat × Nat) :=
  let q := c.stage.seq
  let t0 := if q.active then q.t else 0
  let p0 := if q.active then q.p else 0
  let products (lo hi : Nat) : Bool := (List.range (hi - lo)).any fun i => !controlAt c r (lo + i)
  let stop (k : Nat) : Nat := min (k + pl.block) pl.rows
  match (List.range pl.slices).find? fun t =>
      t0 ≤ t && t % 2 = b && products (q.block + if t = t0 then p0 else 0) (stop q.block) with
  | some t => some (t, q.block)
  | none =>
    let k := q.block + pl.block
    -- a WSRC = 1 MATMUL runs every pass of a block before the next block
    if r.wsrc || k ≥ pl.rows || !products k (stop k) then none
    else ((List.range pl.slices).find? fun t => t % 2 = b).map fun t => (t, k)

/-- The tile of slice `t` for array `a` of a WSRC = 1 MATMUL, from the port-1 tensor (05 R200): lanes and
columns with no element hold the zero code. -/
def wsrcTile (r : StageRec) (p1 : InPort) (h1 : THdr) (f : Fmt) (pass t rank run : Nat) : Bank :=
  let k := wsrcK r h1
  let n := wsrcCols r h1
  let at' (l j : Nat) : Option Elem :=
    let col := pass * 16 * r.nArrays + 16 * rank + j
    let e := 128 * t + l
    if col ≥ n || e ≥ k then none
    else if matWt r.param then p1.elems[e * n + col]? else p1.elems[col * k + e]?
  let cells := (List.range 16).flatMap fun j => (List.range 128).map fun l => (l, j)
  let code (p : Nat × Nat) : Nat := ((at' p.1 p.2).map (·.code.toNat)).getD (zeroCode f)
  let place (p : Nat × Nat) : Nat :=
    match f with
    | .bbf12 => (code p % 4096) * 2 ^ (8 * tileByte f p.1 p.2 + 12 * (p.1 % 16))
    | _ => code p * 2 ^ (8 * tileByte f p.1 p.2)
  ⟨(cells.map place).sum,
   if f = .bbf12 then (cells.map fun p => code p / 65536 % 256 * 2 ^ (8 * (128 * p.2 + p.1))).sum else 0,
   (cells.map fun p => if ((at' p.1 p.2).map (·.poison)).getD false then 2 ^ (128 * p.2 + p.1) else 0).sum,
   h1.scale, run, t⟩

/-- A bank's content from a tile of a staging area: poison of a byte's word is poison of the weight there. -/
def stagedTile (f : Fmt) (g : Staging) (u run slice : Nat) : Bank :=
  let t := tgetD g.tiles u (0, 0)
  let cells := (List.range 16).flatMap fun j => (List.range 128).map fun l => (l, j)
  ⟨t.1,
   if f = .bbf12 then
     (cells.map fun p => tileWeight f t.1 p.1 p.2 / 65536 % 256 * 2 ^ (8 * (128 * p.2 + p.1))).sum else 0,
   if t.2 = 0 then 0 else
      (cells.map fun p => if bit t.2 (tileByte f p.1 p.2 / 128) then 2 ^ (128 * p.2 + p.1) else 0).sum,
   g.scaleB, run, slice⟩

/-- The tile that slice `t` brings to the array of place `rank`: from the port-1 tensor, or from the staging area of the
pass; nothing while it is not there (05 R199, R200). -/
def tileFor (c : Core) (r : StageRec) (t rank run : Nat) : Option Bank :=
  let q := c.stage.seq
  let f := weightFmt c.arr.mode
  if r.wsrc then
    (c.inPort 1).hdr.bind fun h1 =>
      if (c.inPort 1).done then some (wsrcTile r (c.inPort 1) h1 f q.pass t rank run) else none
  else if stagingFull c r then
    (tget c.stage.staging (if r.npassM1 = 0 then 0 else q.run % 2)).map fun g => stagedTile f g (t * r.nArrays + rank) run t
  else none

/-- What the read of a tile meets at its first word (06 R227): the word of the staging area, or of the port-1 tensor in
its buffer, stands poisoned after an uncorrected error. -/
def tileError (s : State) (core : Nat) (r : StageRec) (t rank : Nat) (e : Ecc) : State :=
  let c := s.core core
  let q := c.stage.seq
  if r.wsrc then
    match boundStream s core 1, (c.inPort 1).hdr with
    | some (_, st), some h1 =>
      let k := ((feedOf s core 1).map (·.2)).getD 0
      let s1 := storeEvent s (headStore s c.stage.ctx st { esc := [] } k) e
      if e ≠ .uncorrected then s1
      else
        let col := q.pass * 16 * r.nArrays + 16 * rank
        let i := if matWt r.param then 128 * t * wsrcCols r h1 + col else col * wsrcK r h1 + 128 * t
        let n := ((fmtOf h1.format).map perWord).getD 1
        s1.modCore core fun c => { c with inp := tmod c.inp 1 InPort.empty fun p => { p with
          elems := p.elems.zipIdx.map fun x => if x.2 / n = i / n then { x.1 with poison := true } else x.1 } }
    | _, _ => s
  else
    let s1 := storeEvent s (.carrel core) e
    if e ≠ .uncorrected then s1
    else s1.modCore core fun c =>
      let a := if r.npassM1 = 0 then 0 else q.run % 2
      match tget c.stage.staging a with
      | some g =>
        let u := t * r.nArrays + rank
        let x := tgetD g.tiles u (0, 0)
        { c with stage := { c.stage with
            staging := tset c.stage.staging a { g with tiles := tset g.tiles u (x.1, if bit x.2 0 then x.2 else x.2 + 1) } } }
      | none => c

/-- A tile load into bank `b` of array `a` begins, once the core's one load path is free and no row waits for
the tile that the bank holds (03 R129, R130). -/
def loadStart (s : State) (core a b : Nat) (ecc : Ecc) : State :=
  let c := s.core core
  match c.stage.info, planOf s core with
  | some r, some pl =>
    match nextSlice c r pl b, (arraysOf r.arrays).idxOf? a with
    | some (t, blk), some rank =>
      let run := bankKey r c.stage.seq pl.slices blk
      if !c.arr.loading.isEmpty || bankHolds c.arr a b run t || (tileFor c r t rank run).isNone then s
      else
        let s1 := tileError s core r t rank ecc
        match tileFor (s1.core core) r t rank run with
        | none => s1
        | some k =>
          if (s1.core core).stage.st = .stopped then s1
          else s1.modCore core fun c => { c with arr := { c.arr with
            banks := terase c.arr.banks (2 * a + b), loading := tset c.arr.loading a ⟨b, k⟩ } }
    | _, _ => s
  | _, _ => s

/-- A tile load completes: the bank holds the tile and its scaleB (03 R128, R129). -/
def loadDone (s : State) (core a : Nat) : State :=
  s.modCore core fun c =>
    match tget c.arr.loading a with
    | none => c
    | some l => { c with arr := { c.arr with
        banks := tset c.arr.banks (2 * a + l.bank) l.content, loading := terase c.arr.loading a } }

end Sys2Proof.Machine
end

