-- ==== Sys2Proof/Machine/Window.lean ====
section
/-!
DEFINITION. The window engine beside the arrays (04): tensors taken by a window stage, input rows, halo
copies, global average pooling, box decoding and non-maximum suppression.
-/

namespace Sys2Proof.Machine

def Core.opclass (c : Core) : Nat := ((c.stage.info.map (·.opclass)).getD 15)

/-! ### Window tensors (04 R145 to R149) -/

/-- A window stage takes the header at its port 0, checks it against the geometry word and computes the output
size. An empty output waits for the whole input tensor, which it consumes (04 R147). -/
def windowTensor (s : State) (core : Nat) : State :=
  let c := s.core core
  match c.stage.info, (c.inPort 0).hdr with
  | some r, some h =>
    if !r.isWindow || c.win.cur.isSome || c.stage.st ≠ .running then s
    else
      let w := WinDesc.parse r.param
      let none' : Bool := h.h = 0 || h.w = 0
      if h.c ≠ w.inC then stopStage s core .windowGeometry 0
      else if !none' && (h.w > w.maxW || (w.inH ≠ 0 && h.h ≠ w.inH)) then stopStage s core .windowGeometry 0
      else if none' || w.outH h.h ≤ 0 || w.outW h.w ≤ 0 then
        if !(c.inPort 0).done then s
        else
          let s1 := s.modCore core fun c => { c with win := { c.win with
            convEmptyTensors := c.win.convEmptyTensors + 1 } }
          passEmpty s1 core h flagConvEmpty (c.inPort 0).hpoison [0] (0, 0, 0)
      else
        let oh := (w.outH h.h).toNat
        let ow := (w.outW h.w).toNat
        let pv := padInForce w.padMode w.padTop w.padBottom h.h
        let ph := padInForce w.padMode w.padLeft w.padRight h.w
        let short := (if pv ≠ w.padMode then 1 else 0) + (if ph ≠ w.padMode then 1 else 0)
        let s1 := s.modCore core fun c => { c with win := { c.win with
          cur := some ⟨h, oh, ow, pv, ph, 0, 0, 0, false⟩
          padReflectShorts := c.win.padReflectShorts + BitVec.ofNat 32 short } }
        let (lo, hi) := myRows c.stage r oh
        beginPasses s1 core r h ((hi - lo) * ow) ow (hi - lo) (if short > 0 then flagPadShort else 0)
          (c.inPort 0).hpoison
  | _, _ => s

/-! ### Input rows (04 R154, R160, R162) -/

/-- The stripe below also needs row `x`, and this core serves it (04 R161). -/
def belowNeeds (st : StageUnit) (r : StageRec) (w : WinDesc) (t : WinTensor) (x : Nat) : Bool :=
  w.haloDown && st.stripeFirst ≠ [] && r.member + 1 < st.stripeFirst.length &&
    (let (lo, hi) := stripeRows st.stripeFirst t.oh (r.member + 1)
     w.rowNeeded (t.padV = 2) t.hdr.h lo hi x)

/-- The halo rows that this core copies from the stripe above, in order (04 R161). -/
def haloRows (st : StageUnit) (r : StageRec) (w : WinDesc) (t : WinTensor) : List Nat :=
  if !w.haloUp || r.member = 0 || st.stripeFirst = [] || w.oneTap then []
  else
    let (lo, hi) := myRows st r t.oh
    (List.range t.hdr.h).filter fun x => w.rowNeeded (t.padV = 2) t.hdr.h lo hi x &&
      w.rowOwner (t.padV = 2) st.stripeFirst t.hdr.h t.oh x = some (r.member - 1)

/-- Line-buffer slots that hold a row (04 R155); reflected edge rows stay as long as padding reads them (log
entry 49). -/
def lineSlots (w : WinDesc) : Nat := w.eh + 1 + (if w.padMode = 2 then w.padTop + w.padBottom else 0)

/-- Slots that an own row may take: those held, and those that the halo rows still to come will take, are not free. -/
def slotsFree (c : Core) (r : StageRec) (w : WinDesc) (t : WinTensor) : Nat :=
  lineSlots w - (c.win.lines.length + ((haloRows c.stage r w t).length - t.nextHalo))

/-- The output columns of a column tile (04 R156). -/
def tileSpan (w : WinDesc) (ow tile : Nat) : Nat × Nat :=
  (tile * tileCols w ow, min ((tile + 1) * tileCols w ow) ow)

/-- The next input row reaches the window port: dropped where no window of the stripe needs it, else stored with the
columns that the windows of the running tile need. The counters of R154 meet each row once. -/
def inputRowArrival (s : State) (core : Nat) : State :=
  let c := s.core core
  match c.stage.info, c.win.cur with
  | some r, some t =>
    let w := WinDesc.parse r.param
    let n := if t.issued then t.counted else t.nextRow
    match (arrivingRows c.stage r w t)[n]? with
    | none => s
    | some x =>
      let base := n * t.hdr.w * t.hdr.c
      if (c.inPort 0).elems.length < base + t.hdr.w * t.hdr.c then s
      else
        let (lo, hi) := myRows c.stage r t.oh
        let first : Bool := n ≥ t.counted
        let step (u : WindowUnit) : WindowUnit := { u with
          cur := some { t with nextRow := n + 1, counted := max t.counted (n + 1) } }
        if t.issued || !w.rowNeeded (t.padV = 2) t.hdr.h lo hi x then
          endWindow (s.modCore core fun c => { c with win := { step c.win with
            skippedRows := c.win.skippedRows + (if first then 1 else 0) } }) core
        else
          let never := ((List.range t.hdr.w).filter fun y => !w.colNeeded (t.padH = 2) t.hdr.w 0 t.ow y).length
          let skip := BitVec.ofNat 48 (if first then never else 0)
          if w.oneTap then
            s.modCore core fun c => { c with win := { step c.win with skippedColumns := c.win.skippedColumns + skip } }
          else if slotsFree c r w t = 0 then s
          else
            let (a, b) := tileSpan w t.ow c.stage.seq.tile
            let keep := (List.range t.hdr.w).filter fun y => w.colNeeded (t.padH = 2) t.hdr.w a b y
            let cols := keep.map fun y =>
              (y, lanes (zeroCode (actFmt c.arr.mode)) (c.inPort 0).elems (base + y * t.hdr.c) t.hdr.c)
            s.modCore core fun c => { c with win := { step c.win with
              lines := tset c.win.lines (lineKey c.stage.seq x)
                ⟨cols, if belowNeeds c.stage r w t x then 2 else 1, false, false⟩
              skippedColumns := c.win.skippedColumns + skip } }
  | _, _ => s

/-- The core of member `m` of a stage in a context. -/
def memberCore (x : Ctx) (stage m : Nat) : Option Nat :=
  x.image.bind fun im => (im.stages.find? fun q => q.stage = stage && q.member = m).bind fun q => lcoreOf x q.lcore

/-- The owner of the halo row that a core copies next, the row, and its key in the line buffers. -/
def nextHalo (s : State) (core : Nat) : Option (Nat × Nat) :=
  let c := s.core core
  match c.stage.info, c.win.cur with
  | some r, some t =>
    if t.issued then none
    else ((haloRows c.stage r (WinDesc.parse r.param) t)[t.nextHalo]?).bind fun x =>
      (memberCore (s.ctx c.stage.ctx) r.stage (r.member - 1)).map fun up => (up, lineKey c.stage.seq x)
  | _, _ => none

/-- A striped neighbour copies the next halo row that its owner holds, into a slot of its own; the owner's count of the
row drops (04 R161, R162). -/
def haloCopy (s : State) (core : Nat) (ecc : Ecc) : State :=
  let c := s.core core
  match c.stage.info, nextHalo s core with
  | some r, some (up, key) =>
    match tget (s.core up).win.lines key with
    | none => s
    | some l0 =>
      if c.win.lines.length ≥ lineSlots (WinDesc.parse r.param) || !coreOn s core || !coreOn s up then s
      else
        let s := lineError s up key ((l0.cols.map (·.1)).headD 0) ecc
        let l := tgetD (s.core up).win.lines key l0
        let s1 := s.modCore core fun c => { c with win := { c.win with
          lines := tset c.win.lines key ⟨l.cols, 1, false, true⟩
          cur := c.win.cur.map fun t => { t with nextHalo := t.nextHalo + 1 }
          haloCopies := c.win.haloCopies + 1 } }
        s1.modCore up fun u => { u with win := { u.win with
          lines := if l.count ≤ 1 then terase u.win.lines key
            else tset u.win.lines key { l with count := l.count - 1 } } }
  | _, _ => s

/-! ### Global average pooling (04 R164, R165) -/

/-- One mean of a channel: `r = rne32(G * scale_in * inv)`, clamped by 02 R82. -/
def poolMean (scale inv : F32) (g : A40) (poison : Bool) : OVal :=
  if A40.isNaN g || F32.isNaN inv then ⟨BitVec.ofNat 256 0x7FC00000, false, false, poison⟩
  else
    let v := ((A40.val g).mul (F32.val scale)).mul (F32.val inv)
    let m := shapeB32.magCode .nearestEven v.m.natAbs 1 v.e
    let big : Bool := m > 0x7F7FFFFF
    ⟨BitVec.ofNat 256 (signBit (v.m < 0) 32 + (if big then 0x7F7FFFFF else m)), false, big, poison⟩

/-- A global-average stage adds one input position of up to 128 channels. After the last position of a channel
group the means are emitted; after the last group the tensor ends. -/
def poolPosition (s : State) (core : Nat) : State :=
  let c := s.core core
  let p := c.inPort 0
  match c.stage.info, p.hdr with
  | some r, some h =>
    if r.opclass ≠ 2 || c.stage.st ≠ .running || outputFull s core then s
    else
      let n := h.h * h.w
      if n > 2 ^ 32 - 1 then stopStage s core .poolLength 0
      else if n = 0 || h.c = 0 then
        if !p.done then s
        else
          let s1 := s.modCore core fun c => { c with win := { c.win with
            convEmptyTensors := c.win.convEmptyTensors + 1 } }
          passEmpty s1 core h flagConvEmpty p.hpoison [0] (0, 0, 0)
      else
        let g := c.win.poolTaken / n
        let i := c.win.poolTaken % n
        let lo := 128 * g
        let w := min 128 (h.c - lo)
        if p.elems.length < i * h.c + lo + w then s
        else
          let es := (p.elems.drop (i * h.c + lo)).take w
          let acc := if i = 0 then List.replicate w A40.zero else c.win.pool
          let bad := if i = 0 then List.replicate w false else c.win.poolPoison
          let acc' := (acc.zip es).map fun q =>
            let x : F32 := q.2.code.setWidth 32
            if q.2.poison || A40.isNaN q.1 || F32.isNaN x then A40.nan
            else A40.addTo .nearestEven q.1 (F32.val x)
          let bad' := (bad.zip es).map fun q => q.1 || q.2.poison
          let s1 := if c.win.poolTaken = 0 then
              beginOut s core 0 ⟨h.c, h.c, 1, 1, h.sample,
                flagShaped ||| (if n > 2 ^ 23 then flagLongAccum else 0), p.hpoison, []⟩
            else s
          let endG : Bool := i + 1 = n
          let endT : Bool := endG && lo + w = h.c
          let s2 := s1.modCore core fun c => { c with
            win := { c.win with pool := acc', poolPoison := bad', poolTaken := if endT then 0 else c.win.poolTaken + 1 }
            arr := { c.arr with longAccumDrains :=
              c.arr.longAccumDrains + (if endT && n > 2 ^ 23 then 1 else 0) } }
          let inv := F32.div F32.one (F32.ofNat n)
          let s3 := if endG then
              putVals s2 core 0 (nextOutSeq (s2.core core) 0 - 1) lo
                ((acc'.zip bad').map fun q => poolMean h.scale inv q.1 q.2)
            else s2
          if endT then releaseIn s3 core 0 else s3
  | _, _ => s

/-! ### Box decoding (04 R166, R167) -/

/-- The post-processing descriptor (04 Table 4.4). -/
def postOp (p : Blob) : Nat := p.bits 0 2
def postFmt (p : Blob) : Bool := p.bits 2 1 = 1
def postClip (p : Blob) : Bool := p.bits 3 1 = 1
def postPerClass (p : Blob) : Bool := p.bits 4 1 = 1
def postKeepMax (p : Blob) : Nat := p.bits 5 11
def postF (p : Blob) (lo : Nat) : F32 := BitVec.ofNat 32 (p.bits lo 32)
def postIou (p : Blob) : F32 := postF p 32
def postScoreMin (p : Blob) : F32 := postF p 64
def postVarXY (p : Blob) : F32 := postF p 96
def postVarWH (p : Blob) : F32 := postF p 128
def postImgW (p : Blob) : F32 := postF p 160
def postImgH (p : Blob) : F32 := postF p 192
def postAnchors (p : Blob) : Nat := p.bits 224 32

/-- `decode` of 04 R167: corners (X1, Y1, X2, Y2) from four inputs and an anchor. -/
def decodeBox (p : Blob) (t a : Nat → F32) : List F32 :=
  let vx := postVarXY p
  let vw := postVarWH p
  let ex (x : F32) : F32 := F32.expf (F32.min (F32.mul x vw) 0x40845232#32)
  let anchor := !postFmt p
  let cx := if anchor then F32.add (a 0) (F32.mul (F32.mul (t 0) vx) (a 2)) else t 0
  let cy := if anchor then F32.add (a 1) (F32.mul (F32.mul (t 1) vx) (a 3)) else t 1
  let w := if anchor then F32.mul (a 2) (ex (t 2)) else t 2
  let h := if anchor then F32.mul (a 3) (ex (t 3)) else t 3
  let hw := F32.mul 0x3F000000#32 w
  let hh := F32.mul 0x3F000000#32 h
  let clip (x m : F32) : F32 := if postClip p then F32.min (F32.max x F32.posZero) m else x
  [clip (F32.sub cx hw) (postImgW p), clip (F32.sub cy hh) (postImgH p),
   clip (F32.add cx hw) (postImgW p), clip (F32.add cy hh) (postImgH p)]

/-- A record (04 Table 4.5) from corners, score and class. -/
def candRecord (b : List F32) (score : F32) (cls : Nat) : BitVec 256 :=
  BitVec.ofNat 256 (packFields ((b.map fun x => (x.toNat, 32)) ++ [(score.toNat, 32), (cls, 16), (0, 16)]))

/-- The whole part of a non-negative class value (log entry 14). -/
def classOf (x : F32) : Nat :=
  if F32.isNaN x || F32.isInf x || F32.sign x then 0
  else
    let m := F32.mag x
    if m.2 ≥ 0 then m.1 * 2 ^ m.2.toNat else m.1 / 2 ^ (-m.2).toNat

/-- A post-processing stage decodes one candidate: four values of each input row (log entry 14). -/
def boxDecode (s : State) (core : Nat) : State :=
  let c := s.core core
  let p := c.inPort 0
  match c.stage.info, p.hdr with
  | some r, some h =>
    if r.opclass ≠ 3 || postOp r.param = 1 || c.stage.st ≠ .running || outputFull s core then s
    else if h.length = 0 then passEmpty s core h 0 p.hpoison [0] (4, 0, 1)
    else if h.c < 4 then stopStage s core .tensorLength 0
    else
      let i := c.win.boxes
      let n := h.length / h.c
      if i ≥ n || p.elems.length < (i + 1) * h.c then s
      else
        let es := (p.elems.drop (i * h.c)).take h.c
        let f (k : Nat) : F32 := ((es[k]?).map fun e => e.code.setWidth 32).getD F32.posZero
        let base := carrelWindow core + postAnchors r.param + 16 * i
        let a (k : Nat) : F32 := BitVec.ofNat 32 (s.mem.mem.readNat (base + 4 * k) 4)
        let poison := es.any (·.poison) || (!postFmt r.param && s.mem.mem.poisonedRange base 16)
        let b := decodeBox r.param f a
        let s1 := s.modCore core fun c => { c with win := { c.win with boxes := i + 1 } }
        if postOp r.param = 0 then
          let s2 := if i = 0 then beginOut s1 core 0 ⟨4 * n, 4, n, 1, h.sample, flagShaped, p.hpoison, []⟩ else s1
          let s3 := putVals s2 core 0 (nextOutSeq (s2.core core) 0 - 1) (4 * i)
            (b.map fun x => oval (if poison then F32.nan else x) poison)
          if i + 1 = n then
            releaseIn (s3.modCore core fun c => { c with win := { c.win with boxes := 0 } }) core 0
          else s3
        else
          let clamp (x : F32) : F32 := if F32.isInf x then F32.maxFinite (F32.sign x) else x
          let rec' := candRecord (b.map clamp) (if h.c > 4 then f 4 else F32.posZero)
            (if h.c > 5 then classOf (f 5) else 0)
          let s2 := if !poison && b.any F32.isInf then s1.modEp core 4 EpCtr.addSat else s1
          s2.modCore core fun c => { c with win := { c.win with decoded := c.win.decoded ++ [⟨rec', poison⟩] } }
  | _, _ => s

/-! ### Non-maximum suppression (04 R168 to R170) -/

def recF (x : BitVec 256) (lo : Nat) : F32 := BitVec.ofNat 32 (bits x.toNat lo 32)
def recX1 (x : BitVec 256) : F32 := recF x 0
def recY1 (x : BitVec 256) : F32 := recF x 32
def recX2 (x : BitVec 256) : F32 := recF x 64
def recY2 (x : BitVec 256) : F32 := recF x 96
def recScore (x : BitVec 256) : F32 := recF x 128
def recClass (x : BitVec 256) : Nat := bits x.toNat 160 16

/-- The record with its INDEX. -/
def recIndexed (x : BitVec 256) (i : Nat) : BitVec 256 :=
  BitVec.ofNat 256 (x.toNat % 2 ^ 176 + i % 2 ^ 32 * 2 ^ 192)

/-- Candidates of the running tensor: of the input tensor, or of the boxes decoded. -/
def candCount (r : StageRec) (h : THdr) : Nat :=
  if postOp r.param = 1 then h.length else if h.c < 4 then 0 else h.length / h.c

/-- An NMS stage takes one candidate (04 R169; log entry 50 for POISONED_WORDS). -/
def nmsCandidate (s : State) (core : Nat) : State :=
  let c := s.core core
  let p := c.inPort 0
  match c.stage.info, p.hdr with
  | some r, some h =>
    if r.opclass ≠ 3 || postOp r.param = 0 || c.stage.st ≠ .running then s
    else
      let n := c.win.candNext
      let e := if postOp r.param = 1 then p.elems[n]? else c.win.decoded[n]?
      match e with
      | none => s
      | some e =>
        if n ≥ candCount r h then s
        else
          let s1 := s.modCore core fun c => { c with win := { c.win with candNext := n + 1 } }
          let nan := [recX1 e.code, recY1 e.code, recX2 e.code, recY2 e.code, recScore e.code].any F32.isNaN
          if n ≥ 4096 then
            s1.modCore core fun c => { c with win := { c.win with
              truncated := true, nmsDropped := c.win.nmsDropped + 1 } }
          else if e.poison then
            -- the port has counted a poisoned word once (02 R100); a candidate that only its anchor poisons counts here
            let counted : Bool := postOp r.param = 1 ||
              ((p.elems.drop (n * h.c)).take h.c).any fun x => x.poison
            if counted then s1 else s1.modEp core 0 fun k => k.addPoison 1
          else if nan then
            s1.modCore core fun c => { c with win := { c.win with nmsInvalid := c.win.nmsInvalid + 1 } }
          else if F32.lt (recScore e.code) (postScoreMin r.param) then s1
          else
            s1.modCore core fun c => { c with win := { c.win with
              cands := c.win.cands ++ [⟨recIndexed e.code n, n⟩] } }
  | _, _ => s

def recArea (b : BitVec 256) : F32 :=
  F32.mul (F32.max F32.posZero (F32.sub (recX2 b) (recX1 b))) (F32.max F32.posZero (F32.sub (recY2 b) (recY1 b)))

/-- `overlaps` of 04 R170. -/
def recOverlaps (a b : BitVec 256) (thr : F32) : Bool :=
  let iw := F32.max F32.posZero (F32.sub (F32.min (recX2 a) (recX2 b)) (F32.max (recX1 a) (recX1 b)))
  let ih := F32.max F32.posZero (F32.sub (F32.min (recY2 a) (recY2 b)) (F32.max (recY1 a) (recY1 b)))
  let inter := F32.mul iw ih
  let uni := F32.sub (F32.add (recArea a) (recArea b)) inter
  F32.gt inter (F32.mul thr uni)

/-- Insertion in the order of SCORE descending, then INDEX ascending. -/
def insertCand : List Cand → Cand → List Cand
  | [], x => [x]
  | y :: t, x =>
    if F32.gt (recScore x.box) (recScore y.box) then x :: y :: t
    else if F32.eq (recScore x.box) (recScore y.box) && x.index < y.index then x :: y :: t
    else y :: insertCand t x

/-- `nms` of 04 R170: the records kept, in order of selection. -/
def nmsKeep (p : Blob) : List Cand → List (BitVec 256) → List (BitVec 256)
  | [], kept => kept
  | x :: t, kept =>
    if kept.length = postKeepMax p then kept
    else if kept.any fun k => (!postPerClass p || recClass k = recClass x.box) && recOverlaps k x.box (postIou p)
      then nmsKeep p t kept
      else nmsKeep p t (kept ++ [x.box])

/-- At the end of a tensor the candidates are sorted and suppressed, and the kept records are emitted. -/
def nmsSelect (s : State) (core : Nat) : State :=
  let c := s.core core
  let p := c.inPort 0
  match c.stage.info, p.hdr with
  | some r, some h =>
    if r.opclass ≠ 3 || postOp r.param = 0 || c.stage.st ≠ .running || outputFull s core || !p.done
        || c.win.candNext < candCount r h then s
    else if h.length = 0 then passEmpty s core h 0 p.hpoison [0] (1, 0, 1)
    else
      let kept := nmsKeep r.param (c.win.cands.foldl insertCand []) []
      let t : OutTensor := ⟨kept.length, 1, kept.length, 1, h.sample,
        flagShaped ||| (if c.win.truncated then flagNmsTruncated else 0), p.hpoison,
        kept.zipIdx.map fun q => (q.2, ⟨q.1, true, false, false⟩)⟩
      let s1 := beginOut s core 0 t
      let s2 := s1.modCore core fun c => { c with win := { c.win with
        cands := [], candNext := 0, truncated := false, decoded := [], boxes := 0
        nmsKept := c.win.nmsKept + BitVec.ofNat 32 kept.length } }
      releaseIn s2 core 0
  | _, _ => s

end Sys2Proof.Machine
end

