-- ==== Sys2Proof/Machine/Stage.lean ====
section
/-!
DEFINITION. What a stage does with the words that reach its ports (05 R181, R188, R189, R205), passes and
staging areas (05 R196 to R199), and the classes GATHER, ROUTE and VECTOR (05 R178, R179, R186).
-/

namespace Sys2Proof.Machine

/-! ### Parameter blocks (05 Tables 5.4, 5.5; 08 Tables 8.10, 8.11) -/

def gatherRows (p : Blob) : Nat := p.bits 0 20
def gatherC (p : Blob) : Nat := p.bits 20 16
/-- TABLE of a GATHER and GAMMA of a VECTOR stand at the same bits. -/
def tableAddr (p : Blob) : Nat := p.bits 64 44
def routeMode (p : Blob) : Nat := p.bits 0 2
def routeNin (p : Blob) : Nat := p.bits 2 2 + 1
def routeChunk (p : Blob) : Nat := p.bits 4 16
def vecFunc (p : Blob) : Nat := p.bits 0 4
def vecEps (p : Blob) : F32 := BitVec.ofNat 32 (p.bits 32 32)
def dropThr (p : Blob) : Nat := p.bits 32 32
def dropGain (p : Blob) : F32 := BitVec.ofNat 32 (p.bits 64 32)
def dropId (p : Blob) : Nat := p.bits 96 16
def lossFunc (p : Blob) : Nat := p.bits 0 4
def lossMonitor (p : Blob) : Bool := p.bits 4 1 = 1
def lossScale (p : Blob) : F32 := BitVec.ofNat 32 (p.bits 32 32)
def lossIgnore (p : Blob) : Nat := p.bits 64 32
def lossAlpha (p : Blob) : F32 := BitVec.ofNat 32 (p.bits 96 32)
def lossSigma (p : Blob) : F32 := BitVec.ofNat 32 (p.bits 128 32)

/-! ### What a port makes of its elements -/

/-- The form in which port `q` of a stage takes elements of a format (02 R75, R80, R586). A value stage works on binary32,
a ROUTE too: its output then rounds a LOG element a second time (DESIGN CHOICE, log entry 51). -/
def portForm (r : StageRec) (q : Nat) (f : Fmt) : InForm :=
  let asFmt (f : Fmt) : InForm := match f with | .log16 => .log16 | .bbf12 => .bbf12 | _ => .log8
  match r.opclass with
  | 0 => asFmt (if q = 1 then weightFmt (modeOf r.mode) else actFmt (modeOf r.mode))
  | 1 => asFmt (actFmt (modeOf r.mode))
  | 2 => .unscaled
  | 7 => .raw
  | _ => match f with
    | .u32 | .record => .raw
    | _ => .value

/-- The array form needs scale 1.0 on a BBF12 array (02 R107). -/
def scaleAccepted (r : StageRec) (h : THdr) : Bool :=
  F32.isScale h.scale && (r.mode ≠ 5 || h.scale = F32.one)

/-- A stage that needs H, W or C of the tensor at port `q` (05 R186). -/
def needsShape (r : StageRec) (q : Nat) : Bool :=
  match r.opclass with
  | 0 => matWsrc r.param && matWt r.param && q = 1
  | 1 | 2 => true
  | 3 => postOp r.param ≠ 1
  | 4 => 4 ≤ vecFunc r.param && vecFunc r.param ≤ 6
  | 5 => q = 0
  | 8 => routeMode r.param = 2
  | _ => false

/-- Port `q` and port `k` take matched tensors in one operation (05 R188). A deal hands different samples to
its consumers, so UNDEAL matches none; the step loss on port 2 of a LOSS stage stands alone. -/
def matched (r : StageRec) (q k : Nat) : Bool :=
  q ≠ k &&
  match r.opclass with
  | 0 => matWsrc r.param
  | 4 => vecFunc r.param ≤ 1
  | 5 => q ≤ 1 && k ≤ 1
  | 8 => routeMode r.param = 1 || routeMode r.param = 2
  | _ => false

/-- Rows of C elements of a tensor. -/
def hdrRows (h : THdr) : Nat := if h.c = 0 then 0 else h.length / h.c

/-- The length relation between ports 0 and 1 (05 R188). -/
def lengthsRelate (r : StageRec) (h0 h1 : THdr) : Bool :=
  match r.opclass with
  | 4 => vecFunc r.param > 1 || h0.length = h1.length
  | 5 => if lossFunc r.param = 0 then h1.length = hdrRows h0 else h0.length = h1.length
  | _ => true

/-- The tensors that the matched ports hold agree with one just received on port `q`. -/
def skewed (c : Core) (r : StageRec) (q : Nat) (h : THdr) : Bool :=
  (List.range 4).any fun k =>
    matched r q k &&
      match (c.inPort k).hdr with
      | none => false
      | some g => g.sample ≠ h.sample ||
        (if q = 0 && k = 1 then !lengthsRelate r h g else if q = 1 && k = 0 then !lengthsRelate r g h else false)

/-! ### The step gate (08 R295, R297, R335) -/

/-- No snapshot of the shards of an UPDATE stage is still to come, or not yet durable (10 R393, R404). -/
def snapshotDurable (s : State) (x : Ctx) (r : StageRec) : Bool :=
  x.led.waiting.isNone && match x.led.commit with
    | some k => k.snapDone || layersDurable s x k.slot ((List.range (r.param.bits 0 9)).map fun i => r.param.bits (64 + 384 * i) 16)
    | none => true

/-- The port may take a tensor in the running step: TPS on each port and one step loss; an UPDATE stage only
after a verdict that is not a rollback and once the snapshot of its shards is durable. -/
def stepGate (s : State) (c : Core) (r : StageRec) (q : Nat) : Bool :=
  let n := tgetD c.takes q 0
  if r.opclass = 5 && q = 2 then n < 1
  else n < c.stage.tps &&
    (r.opclass ≠ 6 ||
      (snapshotDurable s (s.ctx c.stage.ctx) r && match (s.ctx c.stage.ctx).step.verdict with
      | some v => v ≤ 1
      | none => false))

/-- Ports that wait: the tensor at hand must be used before its successor is taken; a WSRC = 1 MATMUL takes
port 1 whole before port 0 (05 R200). -/
def portOpen (c : Core) (r : StageRec) (q : Nat) : Bool :=
  !(c.inPort q).done && (!(r.wsrc && q = 0) || (c.inPort 1).done)

/-! ### One word at a core input port (05 R181) -/

/-- A header word at a port. -/
def takeHeader (s : State) (core q : Nat) (w : SWord) : State :=
  let c := s.core core
  match c.stage.info with
  | none => s
  | some r =>
    let h := THdr.parse w.bits
    let s1 := if w.poison then s.modEp core q fun k => k.addPoison 1 else s
    let s2 := s1.modCore core fun c => { c with
      stage := { c.stage with st := .running }
      takes := tset c.takes q (tgetD c.takes q 0 + 1)
      taken := c.taken + (if q = 0 && h.length = 0 then 1 else 0)
      inp := tset c.inp q ⟨some h, [], w.poison, h.length = 0⟩ }
    if !scaleAccepted r h then stopStage s2 core .badScale 0
    else
      -- SCALE_IN_USE of an input is the scale of the tensor that it takes (02 Table 2.9, R85)
      let s3 := s2.modEp core q fun k => { k with scaleInUse := h.scale }
      if needsShape r q && !h.shaped then stopStage s3 core .shapeMissing 0
      else if skewed c r q h then stopStage s3 core .tensorSkew 0
      else s3

/-- A data word at a port: its elements are converted and counted (02 R97 to R101). -/
def takeData (s : State) (core q : Nat) (w : SWord) : State :=
  let c := s.core core
  let p := c.inPort q
  match c.stage.info, p.hdr with
  | some r, some h =>
    match fmtOf h.format with
    | none => s
    | some f =>
      let n := min (perWord f) (h.length - p.elems.length)
      let es := (List.range n).map fun i => unpackElem f w.bits i
      let cs := convIn (portForm r q f) f h.scale es w.poison
      let els : List Elem := cs.map fun x => ⟨BitVec.ofNat 256 x.1.code, x.2⟩
      (s.modEp core q fun k => countIn k cs w.poison).modCore core fun c => { c with
        inp := tset c.inp q { p with elems := p.elems ++ els, done := w.last }
        taken := c.taken + (if q = 0 && w.last then 1 else 0) }
  | _, _ => s

/-- Whether a port takes a word now. -/
def portTakes (s : State) (core q : Nat) (w : SWord) : Bool :=
  let c := s.core core
  match c.stage.info with
  | none => false
  | some r =>
    (c.stage.st = .ready || c.stage.st = .running) && portOpen c r q &&
      (if w.header then (c.inPort q).hdr.isNone && stepGate s c r q else (c.inPort q).hdr.isSome)

/-- The step loss has come whole on port 2 of a LOSS stage: it is kept for the verdict barrier (08 R329, R331), and the
port is free again. -/
def keepStepLoss (s : State) (core : Nat) : State :=
  let c := s.core core
  let p := c.inPort 2
  match c.stage.info, p.elems with
  | some r, e :: _ =>
    if r.opclass = 5 && p.done then
      s.modCore core fun c => { c with
        loss := { c.loss with stepLoss := some (e.code.setWidth 32, e.poison || p.hpoison) }
        inp := tset c.inp 2 InPort.empty }
    else s
  | _, _ => s

/-- The stage takes the word. -/
def takeWord (s : State) (core q : Nat) (w : SWord) : State :=
  let s1 := if w.header then takeHeader s core q w else takeData s core q w
  wordMoved (if q = 2 then keepStepLoss s1 core else s1) core

/-- The words that a consumer has not read: the escaped ones first (05 R212). -/
def Buf.unread (b : Buf) : List SWord := b.esc.map (·.2) ++ b.words

/-- The head of consumer `k`'s buffer. -/
def Buf.head (b : Buf) : Option SWord := b.unread.head?

/-- The buffer once its head has been read; with `keep` the word still stands in it. -/
def Buf.pop (b : Buf) (keep : Bool) : Buf :=
  match b.esc with
  | _ :: t => { b with esc := t }
  | [] => { b with words := b.words.drop 1, kept := b.kept + (if keep && b.words ≠ [] then 1 else 0) }

/-- A port whose tensor is held whole in its stream's buffer until it is released: the weights of a WSRC = 1 MATMUL, and
the input of a stage with a pass that re-reads it (05 R195 REPLAY, R200). -/
def portHolds (s : State) (core q : Nat) : Bool :=
  let st := (s.core core).stage
  match st.info with
  | some r => (r.wsrc && q = 1) || (q = 0 && st.passes.any (·.replay))
  | none => false

/-- Consumer `k` reads the head of its buffer, and the producer's waiting words move up. -/
def popWord (s : State) (c i k : Nat) : State :=
  let keep : Bool := match (streamRec (s.ctx c) i).bind fun r => r.consumers[k]? with
    | some e => epKind e = 0 && ((lcoreOf (s.ctx c) (epLcore e)).map fun core => portHolds s core (epPort e)).getD false
    | none => false
  pump (s.modStream c i fun t => { t with bufs := tset t.bufs k ((t.buf k).pop keep) }) c i

/-! ### Passes and staging areas (05 R196 to R199) -/

/-- A folded stage switches to its next pass (05 R199): the last row of the previous pass has issued and the
staging area is full. -/
def passStart (s : State) (core : Nat) : State :=
  if (s.core core).stage.st = .running then startPass s core else s

/-- The pass that runs as pass run `k`. -/
def passOfRun (r : StageRec) (k : Nat) : Nat := k % r.npass

/-- The descriptor of a pass, by its device address among those copied at load. -/
def passDesc (st : StageUnit) (k : Nat) : Option PfDesc :=
  (st.passes[k]?).bind fun p => st.pfs[k]?.map fun d => { d with count := p.tiles }

/-- While pass run `k` runs, the fill of the other area with the following pass begins (05 R196, R198). -/
def stagingFill (s : State) (core : Nat) : State :=
  let c := s.core core
  match c.stage.info with
  | none => s
  | some r =>
    let k := c.stage.seq.run + 1
    let area := k % 2
    if r.npassM1 = 0 || c.stage.passes = [] || !c.stage.seq.active || c.stage.st ≠ .running then s
    else
      match tget c.stage.staging area with
      | some g => if g.run = k || !g.full then s
          else s.modCore core fun c => { c with stage := { c.stage with
            staging := tset c.stage.staging area ⟨k, passOfRun r k, [], F32.one, 0, false⟩ } }
      | none => s.modCore core fun c => { c with stage := { c.stage with
            staging := tset c.stage.staging area ⟨k, passOfRun r k, [], F32.one, 0, false⟩ } }

/-- Words of a pass's tiles. -/
def passWords (c : Core) (k : Nat) : Nat :=
  ((passDesc c.stage k).map fun d => d.count * (tileBytes (weightFmt c.arr.mode) / 128)).getD 0

/-- A fill ends once every word of its tiles has come (06 R250); the fill of pass 0 makes a loading stage READY
(05 R197). -/
def stagingFillDone (s : State) (core : Nat) : State :=
  s.modCore core fun c =>
    match c.stage.staging.find? fun g => !g.2.full && g.2.arrived = passWords c g.2.pass with
    | none => c
    | some (a, g) =>
      let sb := ((passDesc c.stage g.pass).map (·.scaleb)).getD F32.one
      { c with stage := { c.stage with
          staging := tset c.stage.staging a { g with full := true, scaleB := sb }
          st := if c.stage.st = .config && g.run = 0 then .ready else c.stage.st } }

/-! ### Tables in memory (05 R178, 06 R218) -/

/-- A table address in the carrel window of the stage's image logical core moves with the core (06 R218). -/
def relocated (r : StageRec) (core a : Nat) : Nat :=
  if carrelWindow r.lcore ≤ a && a < carrelWindow r.lcore + 0x400000 then
    carrelWindow core + (a - carrelWindow r.lcore) else a

/-- A stage may read `[a, a + n)`: its own carrel store, or memory its context may reach. -/
def stageReads (s : State) (core a n : Nat) : Bool :=
  (carrelWindow core ≤ a && a + n ≤ carrelWindow core + 0x400000) || mayReach s (s.core core).stage.ctx a n

/-- Element `k` of a table of codes of `w` bits at `base`. -/
def tableElem (m : Mem) (f : Fmt) (base k : Nat) : Elem :=
  match f with
  | .bbf12 =>
    let b := base + k / 16 * 32
    let v := m.readNat b 32
    ⟨BitVec.ofNat 256 (bits v (12 * (k % 16)) 12 + bits v 192 8 * 65536), m.poisonedRange b 32⟩
  | _ =>
    let n := fmtBits f / 8
    ⟨BitVec.ofNat 256 (m.readNat (base + k * n) n), m.poisonedRange (base + k * n) n⟩

/-- Bytes of a table row of `c` elements. -/
def tableRowBytes (f : Fmt) (c : Nat) : Nat :=
  match f with
  | .bbf12 => (c + 15) / 16 * 32
  | _ => c * (fmtBits f / 8)

/-- A GATHER stage emits the table row of its next index (05 R178): the raw codes of the table, or zero codes
and a count where the index is out of range. -/
def gatherIndex (s : State) (core : Nat) : State :=
  let c := s.core core
  let p := c.inPort 0
  match c.stage.info, p.hdr, boundStream s core 4 with
  | some r, some h, some (_, st) =>
    match fmtOf st.format with
    | none => s
    | some f =>
      if r.opclass ≠ 7 || c.stage.st ≠ .running || outputFull s core then s
      else if h.length = 0 then passEmpty s core h 0 p.hpoison [0] (gatherC r.param, 0, 1)
      else
        match p.elems[c.vecPos]? with
        | none => s
        | some e =>
          let i := c.vecPos
          let n := gatherC r.param
          let a := relocated r core (tableAddr r.param) + e.code.toNat * tableRowBytes f n
          let out : Bool := e.code.toNat ≥ gatherRows r.param
          if !e.poison && !out && n ≠ 0 && !stageReads s core a (tableRowBytes f n) then addressFault s core a
          else if !e.poison && !out && rangeStalls s a (tableRowBytes f n) then s
          else
            let vs : List OVal := (List.range n).map fun k =>
              if e.poison then ⟨BitVec.ofNat 256 (nanCode f), true, false, true⟩
              else if out then ⟨BitVec.ofNat 256 (zeroCode f), true, false, false⟩
              else let x := tableElem s.mem.mem f a k; ⟨x.code, true, false, x.poison⟩
            let s1 := if i = 0 then beginOut s core 0 ⟨h.length * n, n, h.length, 1, h.sample, flagShaped,
                p.hpoison, []⟩ else s
            let s2 := putVals s1 core 0 (nextOutSeq (s1.core core) 0 - 1) (n * i) vs
            let fin : Bool := i + 1 = h.length
            let s3 := s2.modCore core fun c => { c with
              vecPos := if fin then 0 else i + 1
              stage := { c.stage with gatherRange := c.stage.gatherRange + (if !e.poison && out then 1 else 0) } }
            if fin then releaseIn s3 core 0 else s3
  | _, _, _ => s

/-! ### ROUTE (05 R178, R184, R186) -/

/-- A converted input element as a value of an output endpoint. -/
def routeVal (raw : Bool) (e : Elem) : OVal := ⟨e.code, raw, false, e.poison⟩

/-- Rows dealt back in chunks: chunk `j` from input `j mod n` (05 R184, UNSTRIPE). -/
def unstripe (chunk : Nat) (ins : List (List (List Elem))) : Nat → Nat → List (List Elem)
  | 0, _ => []
  | f + 1, j =>
    if ins.all (· = []) then []
    else
      let k := j % ins.length
      (ins.getD k []).take (max chunk 1) ++
        unstripe chunk (ins.set k ((ins.getD k []).drop (max chunk 1))) f (j + 1)

/-- The shape of a concatenation (05 R186): C and W where every non-empty input is shaped with one C. -/
def concatShape (hs : List THdr) (len : Nat) : Option (Nat × Nat) :=
  match hs.filter fun h => h.length ≠ 0 with
  | [] => none
  | h :: t => if h.shaped && h.c ≠ 0 && t.all (fun g => g.shaped && g.c = h.c) then some (h.c, len / h.c) else none

/-- A ROUTE stage forwards, concatenates, unstripes or undeals whole tensors (05 R186). It keeps the marks of
the tensors it passes (log entry 15). -/
def routeTensor (s : State) (core : Nat) : State :=
  let c := s.core core
  match c.stage.info with
  | none => s
  | some r =>
    let mode := routeMode r.param
    let n := routeNin r.param
    let used := match mode with
      | 0 => [0]
      | 3 => [c.stage.turn % n]
      | _ => List.range n
    if r.opclass ≠ 8 || c.stage.st ≠ .running || outputFull s core || !(used.all fun q => (c.inPort q).done) then s
    else
      let hs := used.filterMap fun q => (c.inPort q).hdr
      match hs with
      | [] => s
      | h0 :: _ =>
        let h := if mode = 2 then (hs.find? fun g => g.length ≠ 0).getD h0 else h0
        let raw : Bool := h.format = 8 || h.format = 9
        let hp := used.any fun q => (c.inPort q).hpoison
        let es := if mode = 2 then
            (unstripe (routeChunk r.param) (used.map fun q => chunks (max h.c 1) (c.inPort q).elems)
              ((used.map fun q => (c.inPort q).elems.length + 1).sum * n + n) 0).flatten
          else used.flatMap fun q => (c.inPort q).elems
        let fl := hs.foldl (fun f g => f ||| g.flags) 0
        let len := es.length
        let t : OutTensor := match mode with
          | 1 => match concatShape hs len with
            | some (cc, w) => ⟨len, cc, w, 1, h.sample, fl ||| flagShaped, hp, []⟩
            | none => ⟨len, 0, 0, 0, h.sample, fl &&& ~~~flagShaped, hp, []⟩
          | 2 => ⟨len, h.c, if h.c = 0 then 0 else len / h.c, 1, h.sample, fl ||| flagShaped, hp, []⟩
          | _ => ⟨len, if h.shaped then h.c else 0, if h.shaped then h.w else 0, if h.shaped then h.h else 0,
              h.sample, fl, hp, []⟩
        let s1 := beginOut s core 0 { t with vals := es.zipIdx.map fun x => (x.2, routeVal raw x.1) }
        let s2 := s1.modCore core fun c => { c with stage := { c.stage with
          turn := if mode = 3 then (c.stage.turn + 1) % n else c.stage.turn } }
        used.foldl (fun s q => releaseIn s core q) s2

/-! ### VECTOR (05 R179, Table 5.5; 08 R328) -/

def eVal (e : Elem) : F32 := e.code.setWidth 32

/-- The output value of an element from its operands: any poisoned operand gives NaN with poison (02 R98). -/
def vecOut (poison : Bool) (x : F32) : OVal := if poison then oval F32.nan true else oval x false

/-- `rne32(1 / C)`. -/
def recipOf (n : Nat) : F32 := F32.div F32.one (F32.ofNat n)

/-- The mean square of a row (05 Table 5.5, RMSNORM). -/
def meanSquare (xs : List F32) : F32 :=
  F32.mul (F32.sumA40 (xs.map fun x => F32.mul x x)) (recipOf xs.length)

/-- A row function of binary32 values: SOFTMAX, RMSNORM, LAYERNORM. -/
def vecRow (f : Nat) (eps : F32) (g b : List F32) (xs : List F32) : List F32 :=
  match f with
  | 4 =>
    let m := xs.foldl F32.max (xs.headD F32.posZero)
    let es := xs.map fun x => F32.expf (F32.sub x m)
    let inv := F32.div F32.one (F32.sumA40 es)
    es.map fun e => F32.mul e inv
  | 5 =>
    let q := F32.rsqrt (F32.add (meanSquare xs) eps)
    (xs.zip g).map fun p => F32.mul (F32.mul p.1 q) p.2
  | _ =>
    let mu := F32.mul (F32.sumA40 xs) (recipOf xs.length)
    let ds := xs.map fun x => F32.sub x mu
    let q := F32.rsqrt (F32.add (meanSquare ds) eps)
    (ds.zip (g.zip b)).map fun p => F32.add (F32.mul (F32.mul p.1 q) p.2.1) p.2.2

/-- An element function of binary32 values: ADD, MUL, RELU, SILU. -/
def vecElem (f : Nat) (x y : F32) : F32 :=
  match f with
  | 0 => F32.add x y
  | 1 => F32.mul x y
  | 2 => F32.max x F32.posZero
  | _ => F32.mul x (F32.div F32.one (F32.add F32.one (F32.expf (F32.neg x))))

/-- The gain or bias of the channels, from memory (05 Table 5.4, GAMMA). -/
def vecTable (m : Mem) (a n : Nat) : List Elem := (List.range n).map fun k => tableElem m .binary32 a k

/-- The header of a tensor of the shape of an input (log entry 16 where the input has none). -/
def likeTensor (h : THdr) (hp : Bool) : OutTensor :=
  if h.shaped then ⟨h.length, h.c, h.w, h.h, h.sample, flagShaped, hp, []⟩
  else if h.length > 65535 then ⟨h.length, 0, 0, 0, h.sample, 0, hp, []⟩
  else ⟨h.length, h.length, 1, 1, h.sample, flagShaped, hp, []⟩

/-- A VECTOR stage computes its function on the next element, or on the next row (05 R179). -/
def vectorElement (s : State) (core : Nat) : State :=
  let c := s.core core
  let p := c.inPort 0
  match c.stage.info, p.hdr with
  | some r, some h =>
    let f := vecFunc r.param
    let two : Bool := f ≤ 1
    let ins := if two then [0, 1] else [0]
    if r.opclass ≠ 4 || c.stage.st ≠ .running || outputFull s core || (two && (c.inPort 1).hdr.isNone) then s
    else if h.length = 0 then passEmpty s core h 0 p.hpoison ins (h.c, h.w, h.h)
    else
      let row : Bool := 4 ≤ f && f ≤ 6
      let n := if row then max h.c 1 else 1
      let lo := c.vecPos * n
      if p.elems.length < lo + n || (two && (c.inPort 1).elems.length < lo + n) then s
      else
        let es := (p.elems.drop lo).take n
        let ys := ((c.inPort 1).elems.drop lo).take n
        let base := relocated r core (tableAddr r.param)
        let need := if f = 5 then 4 * n else 8 * n
        if (f = 5 || f = 6) && !stageReads s core base need then addressFault s core base
        else if (f = 5 || f = 6) && rangeStalls s base need then s
        else
          let g := vecTable s.mem.mem base n
          let b := vecTable s.mem.mem (base + 4 * n) n
          let x := s.ctx c.stage.ctx
          let draw (i : Nat) := (dropDraw (jobSeed x) (BitVec.ofNat 32 (x.rank.toNat * 65536 + dropId r.param))
            x.step.jobStep i).toNat
          let outs : List OVal :=
            if row then
              let bad := es.any (·.poison)
              (((vecRow f (vecEps r.param) (g.map eVal) (b.map eVal) (es.map eVal)).zip g).zip b).map fun q =>
                vecOut (bad || (f ≠ 4 && q.1.2.poison) || (f = 6 && q.2.poison)) q.1.1
            else if f = 7 then
              es.map fun e => vecOut e.poison
                (if draw c.dropNext ≥ dropThr r.param then F32.mul (eVal e) (dropGain r.param) else F32.posZero)
            else if two then (es.zip ys).map fun q => vecOut (q.1.poison || q.2.poison) (vecElem f (eVal q.1) (eVal q.2))
            else es.map fun e => vecOut e.poison (vecElem f (eVal e) F32.posZero)
          let hp := ins.any fun q => (c.inPort q).hpoison
          let s1 := if c.vecPos = 0 then beginOut s core 0 (likeTensor h hp) else s
          let s2 := putVals s1 core 0 (nextOutSeq (s1.core core) 0 - 1) lo outs
          let fin : Bool := lo + n ≥ h.length
          let s3 := s2.modCore core fun c => { c with
            vecPos := if fin then 0 else c.vecPos + 1
            dropNext := if f = 7 then c.dropNext + 1 else c.dropNext }
          if fin then ins.foldl (fun s q => releaseIn s core q) s3 else s3
  | _, _ => s

end Sys2Proof.Machine
end

