-- ==== Sys2Proof/Machine/Memory.lean ====
section
/-!
DEFINITION. The memory tiers (06): whole words read and written with their errors and poison (R217, R227 to
R241), granules (R220 to R225), the patrol scrub (R232) and the CXL ports (R236, R240).
-/

namespace Sys2Proof.Machine

/-! ### Words (06 R217, R227, R231, R235, R241) -/

def State.modMemSys (s : State) (f : MemSys → MemSys) : State := { s with mem := f s.mem }

/-- The poison code is stored for a word (06 R227). -/
def storePoison (s : State) (w : Nat) : State :=
  s.setMem { s.mem.mem with poison := setInsert s.mem.mem.poison w }

/-- The event of an error met by an access to word `w` (06 Table 6.5). -/
def eccEvent (s : State) (w : Nat) (e : Ecc) : State :=
  match e with
  | .clean | .linkLost => s
  | .corrected =>
    match tierOf (128 * w) with
    | .hbm => s.modHbm (hbmStack s (128 * w)) fun h => { h with eccCorrected := h.eccCorrected + 1 }
    | .cxl => s.modCxl (cxlPlace (128 * w)).1 fun x => { x with corrected := x.corrected + 1 }
    | t => storeEvent s t e
  | .uncorrected =>
    let s1 := storePoison s w
    match tierOf (128 * w) with
    | .hbm => s1.modHbm (hbmStack s (128 * w)) fun h => { h with eccUncorrected := h.eccUncorrected + 1 }
    | t => storeEvent s1 t e

/-- The word lies in a granule that belongs to no one and has not been filled since: the key that its contents are under has
been destroyed (06 R243). -/
def keyGone (s : State) (w : Nat) : Bool :=
  (tierOf (128 * w) = .hbm || tierOf (128 * w) = .cxl) &&
    let g := s.granule (granuleOf (128 * w))
    !g.assigned && !g.scrubbed && !g.system && !g.retain

/-- One whole word read: its bits, its poison, and the state with the errors met counted. What stands in a granule whose key
is gone cannot be read: a free value. A word that a failing link loses is not one that the buffer returned. -/
def readWord (s : State) (w : Nat) (e : Ecc) : BitVec 1024 × Bool × State :=
  let s1 := eccEvent s w e
  let lost : Bool := e = .linkLost && tierOf (128 * w) = .cxl
  let p := s1.mem.mem.poisoned w || lost
  let s2 := if s1.mem.mem.poisoned w && !lost && tierOf (128 * w) = .cxl then
      s1.modCxl (cxlPlace (128 * w)).1 fun x => { x with poisonIn := x.poisonIn + 1 } else s1
  if keyGone s w then
    let f := s2.free 1024
    (f.1, p, f.2)
  else (s1.mem.mem.word w, p, s2)

/-- One whole word written. A CXL write stays in flight until it is durable (06 R236). -/
def writeWord (s : State) (w : Nat) (v : BitVec 1024) (poison : Bool) : State :=
  let s1 := match tierOf (128 * w) with
    | .hbm => if poison then
        s.modHbm (hbmStack s (128 * w)) fun h => { h with poisonStored := h.poisonStored + 1 } else s
    | .cxl => s.modCxl (cxlPlace (128 * w)).1 fun x =>
      { x with flight := x.flight ++ [CxlOp.mk w (s.mem.mem.word w) (s.mem.mem.poisoned w)] }
    | _ => s
  s1.setMem (s1.mem.mem.setWord w v poison)

/-- The bytes `[a, a + n)` written word by word: a word that they cover in part keeps its other bytes, and its poison (06 R217,
R227). -/
def writeRange (s : State) (a n v : Nat) : State :=
  if n = 0 then s
  else
    (List.range ((a + n - 1) / 128 - a / 128 + 1)).foldl (fun s i =>
      let w := a / 128 + i
      let lo := max a (128 * w)
      let k := min (a + n) (128 * w + 128) - lo
      let old := (s.mem.mem.word w).toNat
      let at' := 8 * (lo - 128 * w)
      let new := old - bits old at' (8 * k) * 2 ^ at' + bits v (8 * (lo - a)) (8 * k) * 2 ^ at'
      writeWord s w (BitVec.ofNat 1024 new) (k < 128 && s.mem.mem.poisoned w)) s

/-- `n` bytes from `a` as they leave for another device, which has no place for their poison: what stands for a poisoned word
is a free value. -/
def readRange (s : State) (a n : Nat) : Nat × State :=
  if n = 0 then (0, s)
  else
    (List.range ((a + n - 1) / 128 - a / 128 + 1)).foldl (fun (r : Nat × State) i =>
      let w := a / 128 + i
      let lo := max a (128 * w)
      let k := min (a + n) (128 * w + 128) - lo
      let f : Nat × State := if r.2.mem.mem.poisoned w then (let u := r.2.free 1024; (u.1.toNat, u.2)) else ((r.2.mem.mem.word w).toNat, r.2)
      (r.1 + bits f.1 (8 * (lo - 128 * w)) (8 * k) * 2 ^ (8 * (lo - a)), f.2)) (0, s)

/-- An engine reads or writes one whole word (06 R217, R218). -/
def memAccess (s : State) (who : Engine) (addr : Nat) (data : Option (BitVec 1024)) (poison : Bool) (e : Ecc) :
    State :=
  let w := addr / 128
  let ok : Bool := match who with
    | .stage core =>
      (data.isNone && carrelWindow core ≤ addr && addr < carrelWindow core + 0x400000) ||
        mayReach s (s.core core).stage.ctx (128 * w) 128
    | .prefetch core => mayReach s (s.core core).stage.ctx (128 * w) 128
    | .device => match tierOf addr with | .unmapped | .control => false | _ => true
  let go (s : State) : State :=
    match data with
    | some v => writeWord s w v poison
    | none => (readWord s w e).2.2
  match who with
  | .device => if ok && !tierStalls s addr then go s else s
  | .stage core | .prefetch core =>
    if (s.core core).stage.info.isNone || (s.core core).stage.st = .stopped then s
    else if !ok then addressFault s core addr
    else if tierStalls s addr then s
    else go s

/-! ### Patrol scrub (06 R232) -/

/-- Words of one HBM stack. -/
def stackWords : Nat := 0x900000000 / 128

/-- The device address of word `n` of a stack: `hbm_place` undone. -/
def stackAddr (stack n : Nat) (deviceMode : Bool) : Nat :=
  let off := 128 * n
  let c := if deviceMode then off / 2 ^ 11 * 8 + stack else off / 2 ^ 11 * 4 + stack % 4 + stack / 4 * 0x4800000
  c * 2 ^ 11 + off % 2 ^ 11

/-- The patrol reads its next word, corrects it or stores the poison code. -/
def patrolScrub (s : State) (stack : Nat) (e : Ecc) : State :=
  let h := s.hbm stack
  if h.st ≠ .ready then s
  else
    let w := stackAddr stack h.patrolNext s.mem.interleave / 128
    let last : Bool := h.patrolNext + 1 = stackWords
    let s1 := s.modHbm stack fun h => { h with
      patrolNext := if last then 0 else h.patrolNext + 1
      patrolPasses := h.patrolPasses + (if last then 1 else 0)
      eccCorrected := h.eccCorrected + (if e = .corrected then 1 else 0)
      patrolUncorrected := h.patrolUncorrected + (if e = .uncorrected then 1 else 0) }
    if e = .uncorrected then storePoison s1 w else s1

/-! ### Granules (06 R221, R225, R239) -/

/-- A background fill of a granule completes: it reads zero and is SCRUBBED. A LOST granule is never filled. -/
def granuleFillDone (s : State) (n : Nat) : State :=
  let g := s.granule n
  if !g.filling || g.lost then s
  else
    let s1 := s.setMem (s.mem.mem.zeroRange (granuleBase n) (granuleBase n + 2 ^ 26))
    s1.modGranule n fun g => { g with filling := false, scrubbed := true }

/-- A granule is released (06 R225): unassigned, unscrubbed, its fill to come. -/
def releaseGranule (s : State) (n : Nat) : State :=
  s.modGranule n fun g => { g with
    assigned := false, ledger := false, context := 0, scrubbed := false, filling := !g.lost, job := 0 }

/-- The granules of a context that are not LEDGER are released (06 R225). -/
def releaseGranules (s : State) (c : Nat) : State :=
  (s.mem.granules.filter fun p => p.2.assigned && !p.2.ledger && !p.2.system && !p.2.retain &&
    p.2.context.toNat = c).foldl (fun s p => releaseGranule s p.1) s

/-- Granules awaiting their fill (06 Table 6.11). -/
def scrubPending (s : State) : Nat := (s.mem.granules.filter fun p => p.2.filling).length

/-! ### CXL ports (06 R236, R237, R240) -/

/-- The oldest write in flight of a port becomes durable. -/
def cxlWriteDurable (s : State) (port : Nat) : State :=
  s.modCxl port fun x => { x with flight := x.flight.drop 1 }

/-- Writes in flight are undone, the newest first. -/
def undoWrites (m : Mem) : List CxlOp → Mem
  | [] => m
  | o :: t => (undoWrites m t).setWord o.word o.old o.oldPoison

/-- A CXL link fails while it runs: the writes in flight are counted and lost, and one retrain begins. -/
def cxlLinkFail (s : State) (port : Nat) : State :=
  let x := s.cxl port
  if x.st ≠ .up then s
  else
    let s1 := s.setMem (undoWrites s.mem.mem x.flight)
    s1.modCxl port fun x => { x with
      st := .training
      retrains := x.retrains + 1
      writesLost := x.writesLost + BitVec.ofNat 32 x.flight.length
      flight := [] }

/-- The granules with a chunk behind a port: every granule of its die's region (06 R234). -/
def portGranules (port : Nat) : List Nat := (List.range 4096).map fun i => 4608 + port / 2 * 4096 + i

/-- The granules `ns` are LOST: contexts that own one fault, and the ledger's are counted. -/
def loseAll (s : State) (ns : List Nat) : State :=
  let hit := (List.range nCtx).filter fun c => ns.any fun n => ownsGranule s c n
  let led := (ns.filter fun n => (s.granule n).ledger && !(s.granule n).lost).length
  let s1 := s.modMemSys fun m => { m with
    granules := ns.foldl (fun t n => tset t n { tgetD t n Granule.reset with
      lost := true, scrubbed := false, filling := false }) m.granules
    ledgerLost := m.ledgerLost + BitVec.ofNat 32 led }
  hit.foldl (fun s c => contextFault s c ⟨.granuleLost, none, .memory, 0⟩) s1

/-- The granules behind a FAILED port are LOST. -/
def loseGranules (s : State) (port : Nat) : State := loseAll s (portGranules port)

/-- A retrain ends: traffic resumes, or the port is FAILED (06 R240). -/
def cxlRetrainDone (s : State) (port : Nat) (ok : Bool) : State :=
  if (s.cxl port).st ≠ .training then s
  else if ok then s.modCxl port fun x => { x with st := .up }
  else loseGranules (s.modCxl port fun x => { x with st := .failed }) port

/-- A device reset strikes a port (06 R236, R237): each write in flight is kept or not, by a free value, and WRITES_LOST counts
them, cleared of what it held before (R255); the buffer holds self-refresh while it has its supply. -/
def cxlReset (s : State) (port : Nat) (supply : Bool) : State :=
  let x := s.cxl port
  let step (p : State × List CxlOp) (o : CxlOp) : State × List CxlOp :=
    let (b, s') := p.1.free 1
    (s', if b = 1 then p.2 else p.2 ++ [o])
  let (s1, gone) := x.flight.foldl step (s, [])
  let s2 := s1.setMem (undoWrites s1.mem.mem gone)
  s2.modCxl port fun x => { x with
    st := if supply then .selfRefresh else .down
    held := supply
    writesLost := BitVec.ofNat 32 x.flight.length
    flight := [] }

end Sys2Proof.Machine
end

