-- ==== Sys2Proof/Machine/Keys.lean ====
section
/-!
DEFINITION. The keys of the security engine and its key slots (14 R520, R531 to R536).
-/

namespace Sys2Proof.Machine

/-! ### Key slots (14 R533, R534) -/

def State.modSec (s : State) (f : Sec → Sec) : State := { s with sec := f s.sec }

/-- Keys that cannot be computed again: never evicted. -/
def KeyId.fixed : KeyId → Bool
  | .ctxMem _ | .hop _ _ | .ephemeral _ => true
  | _ => false

/-- The slot least recently used among those that may be evicted. -/
def evictable : List (Nat × KeySlot) → Option (Nat × KeySlot)
  | [] => none
  | (i, k) :: t =>
    match evictable t with
    | none => if k.key.fixed || k.inUse then none else some (i, k)
    | some (j, m) => if !(k.key.fixed || k.inUse) && k.stamp ≤ m.stamp then some (i, k) else some (j, m)

/-- The place for a new key: a free slot of the 128, else the one that is evicted. -/
def freeSlot (x : Sec) : Option Nat :=
  match (List.range 128).find? fun i => (tget x.slots i).isNone with
  | some i => some i
  | none => (evictable x.slots).map (·.1)

/-- A key is wanted: one already in a slot is used again; else it takes a slot, or waits for one and counts the wait.
`v` is the key itself where it cannot be computed again. -/
def Sec.want (x : Sec) (k : KeyId) (v : BitVec 256) (inUse : Bool) : Sec :=
  let x := { x with clock := x.clock + 1 }
  match x.slots.find? fun p => p.2.key = k with
  | some (i, e) => { x with slots := tset x.slots i { e with inUse := e.inUse || inUse, stamp := x.clock } }
  | none =>
    match freeSlot x with
    | some i => { x with slots := tset x.slots i ⟨k, v, inUse, x.clock⟩ }
    | none => { x with
        waiting := if x.waiting.any (fun p => p.1 = k) then x.waiting else x.waiting ++ [(k, v)]
        slotWaits := x.slotWaits + 1 }

/-- A key is destroyed: its slot is cleared, and nothing waits for it (14 R534). -/
def Sec.destroy (x : Sec) (k : KeyId) : Sec :=
  { x with slots := x.slots.filter fun p => p.2.key ≠ k, waiting := x.waiting.filter fun p => p.1 ≠ k }

/-- The use of a key ends; it stays in its slot and may now be evicted. -/
def Sec.unuse (x : Sec) (k : KeyId) : Sec :=
  { x with slots := x.slots.map fun p => if p.2.key = k then (p.1, { p.2 with inUse := false }) else p }

/-- A key that can be computed again is wanted. -/
def wantKey (s : State) (k : KeyId) : State := s.modSec fun x => x.want k 0 k.fixed

/-- A key that cannot be computed again is made. -/
def makeKey (s : State) (k : KeyId) (v : BitVec 256) : State := s.modSec fun x => x.want k v true

/-- A key from the entropy source: a free value. -/
def freshKey (s : State) (k : KeyId) : State := let f := s.free 256; makeKey f.2 k f.1

def destroyKey (s : State) (k : KeyId) : State := s.modSec fun x => x.destroy k

/-- A slot is freed and the oldest waiting request takes it (14 R533). -/
def keySlotGrant (s : State) (slot : Nat) : State :=
  match s.sec.waiting with
  | [] => s
  | k :: t =>
    let put : State := s.modSec fun x => { x with
      clock := x.clock + 1, waiting := t, slots := tset x.slots slot ⟨k.1, k.2, k.1.fixed, x.clock + 1⟩ }
    match tget s.sec.slots slot with
    | some e => if e.key.fixed || e.inUse then s else put
    | none => put

/-! ### The owner (14 R525, R526) -/

/-- The owner folio that stands (14 R526). -/
def ownerFolio (s : State) : OwnerFolio :=
  let a := s.imprint.owner0
  let b := s.imprint.owner1
  if a.valid && (!b.valid || b.sequence.ult a.sequence) then a else b

def ownerInvalid (s : State) : Bool := !s.imprint.owner0.valid && !s.imprint.owner1.valid

/-- The owner key, where one is enrolled and the folio is valid. -/
def ownerKey (s : State) : Option (BitVec 512) := if ownerInvalid s then none else (ownerFolio s).key

/-- The digest of a public key: SM3 of x, then y. -/
def keyDigest (k : BitVec 512) : BitVec 256 := sm3 ⟨64, k.toNat⟩

/-- The owner digest that an OFFER carries, zero with no owner (14 R543). -/
def ownerDigest (s : State) : BitVec 256 := ((ownerKey s).map keyDigest).getD 0

/-! ### Keys themselves (14 R520, R531, R532) -/

/-- `derive(label, ctx, n)` of 14 R531, `n` in bytes: the label in ASCII, the context little-endian. -/
def derive (label : List Nat) (ctx : Blob) (n : Nat) : Blob :=
  kdf (Blob.append (Blob.append ⟨32, Config.huk.toNat⟩ (Blob.ofBytes label)) ctx) n

/-- "IDENTITY", "MEM-DEV" and "LEDGER". -/
def labelIdentity : List Nat := [0x49, 0x44, 0x45, 0x4E, 0x54, 0x49, 0x54, 0x59]
def labelMemDev : List Nat := [0x4D, 0x45, 0x4D, 0x2D, 0x44, 0x45, 0x56]
def labelLedger : List Nat := [0x4C, 0x45, 0x44, 0x47, 0x45, 0x52]

/-- The identity wrap key, and the identity private key as the factory folio holds it (14 R520). -/
def identityWrapKey : BitVec 128 := BitVec.ofNat 128 (derive labelIdentity Blob.empty 16).val
def wrappedIdentity (s : State) : BitVec 256 := Config.wrapIdentity identityWrapKey s.sec.identity

/-- The identity pair that the engine generates at manufacture, from its entropy source (14 R520): a private key from 1 to
the curve's order less 2, and its public key. -/
def generateIdentity (s : State) : State :=
  let f := s.free 256
  let d := f.1.toNat % (sm2N - 2) + 1
  f.2.modSec fun x => { x with identity := BitVec.ofNat 256 d, publicKey := sm2Public d }

/-- The volume key of a resident volume (14 R533: it can always be unwrapped again). -/
def volumeKey (s : State) (job : BitVec 32) : BitVec 128 := ((s.host.volumes.find? fun v => v.job = job).map (·.vk)).getD 0

/-- "SAMPLE" and "EXPORT". -/
def labelSample : List Nat := [0x53, 0x41, 0x4D, 0x50, 0x4C, 0x45]
def labelExport : List Nat := [0x45, 0x58, 0x50, 0x4F, 0x52, 0x54]

/-- The sample key of a job, and the export key of a rank's commit (14 Table 14.6). -/
def sampleKey (vk : BitVec 128) : BitVec 128 :=
  BitVec.ofNat 128 (kdf (Blob.append ⟨16, vk.toNat⟩ (Blob.ofBytes labelSample)) 16).val
def exportKey (vk : BitVec 128) (rank c : Nat) : BitVec 128 :=
  BitVec.ofNat 128 (kdf (Blob.append (Blob.append (Blob.append ⟨16, vk.toNat⟩ (Blob.ofBytes labelExport)) ⟨2, rank⟩) ⟨4, c⟩) 16).val

/-- The key of a slot, or of a request that waits for one, that cannot be computed again. -/
def slotKey (s : State) (k : KeyId) : BitVec 256 :=
  match s.sec.slots.find? fun p => p.2.key = k with
  | some p => p.2.bits
  | none => ((s.sec.waiting.find? fun p => p.1 = k).map (·.2)).getD 0

/-- The ledger key of a job: an SM4-XTS pair. -/
def ledgerKey (s : State) (job : Nat) : BitVec 256 :=
  BitVec.ofNat 256 (derive labelLedger (Blob.append ⟨32, (ownerDigest s).toNat⟩ ⟨4, job⟩) 32).val

/-- The device memory key. -/
def deviceKey : BitVec 256 := BitVec.ofNat 256 (derive labelMemDev Blob.empty 32).val

/-! ### Memory under its keys (06 R238, R242, R243) -/

/-- The key that a granule is encrypted under, chosen by its owner: a job's ledger, a context, or the device. -/
def granuleKey (s : State) (n : Nat) : KeyId :=
  let g := s.granule n
  if g.ledger then .ledger (BitVec.ofNat 32 g.job)
  else if g.assigned then .ctxMem g.context.toNat
  else .memDev

/-- The pair of keys of a granule. -/
def granulePair (s : State) (n : Nat) : BitVec 256 :=
  match granuleKey s n with
  | .ledger job => ledgerKey s job.toNat
  | .ctxMem c => slotKey s (.ctxMem c)
  | _ => deviceKey

/-- What an HBM stack or a CXL buffer holds for a word: the word as one data unit of XTS under its granule's pair, the
tweak its device address. `Mem` holds the words as the memory controllers give them, decrypted. -/
def storedWord (s : State) (w : Nat) : BitVec 1024 :=
  xtsEncrypt (granulePair s (granuleOf (128 * w))) (128 * w) (s.mem.mem.word w)

/-! ### The unwrap of a volume key (14 R536, R540) -/

/-- VK from a wrap entry under a private key, with the volume's 64-byte header as authenticated data: none for a key that
is not a point of the curve, or a tag that fails. -/
def unwrapVk (d serial : Nat) (header entry : Blob) : Option (BitVec 128) :=
  let x := entry.bits 128 256
  let y := entry.bits 384 256
  if !onCurve x y then none
  else
    match sm2Mul d x y with
    | none => none
    | some (px, py) =>
      let w := kdf (Blob.append (Blob.append ⟨32, px⟩ ⟨32, py⟩) ⟨8, serial⟩) 28
      (gcmOpen (BitVec.ofNat 128 (w.bits 0 128)) (w.bits 128 96) header ⟨16, entry.bits 640 128⟩
        (BitVec.ofNat 128 (entry.bits 768 128))).map fun b => BitVec.ofNat 128 b.val

end Sys2Proof.Machine
end

