-- ==== Sys2Proof/Machine/Link.lean ====
section
/-!
DEFINITION. Verhel links (09 R339 to R355): training, flits and their replay, credits, packets in flits, the going
down of a link, the device's own link-state record and its flooding.
-/

namespace Sys2Proof.Machine

/-! ### Access to the fabric's state -/

def State.modFab (s : State) (f : Fabric → Fabric) : State := { s with fab := f s.fab }
def State.link (s : State) (h : Nat) : Link := tgetD s.fab.links h {}
def State.setLink (s : State) (h : Nat) (l : Link) : State := s.modFab fun x => { x with links := tset x.links h l }
def State.modLink (s : State) (h : Nat) (f : Link → Link) : State := s.setLink h (f (s.link h))
def State.modLinkCtr (s : State) (h : Nat) (f : LinkCtr → LinkCtr) : State :=
  s.modLink h fun l => { l with ctr := f l.ctr }

/-- The links of the module, 0 to 15 (09 R339). -/
def linkNumbers : List Nat := List.range 16

/-- An encrypted link: NOT_READY or READY. -/
def Link.isUp (l : Link) : Bool := l.st = .notReady || l.st = .ready

/-- The fields of the fabric folio (09 Table 9.2). -/
def folioBits (s : State) (lo w : Nat) : Nat := ((s.fab.folio).map fun b => b.bits lo w).getD 0

def fabricId (s : State) : Nat := folioBits s 0 32
def ownSerial (s : State) : Nat := s.sec.serial.toNat

/-- The boot folio copy that stands: the valid one of higher generation (14 R525). -/
def bootFolio (s : State) : BootFolio :=
  let a := s.imprint.boot0
  let b := s.imprint.boot1
  if a.valid && (!b.valid || b.generation.ult a.generation) then a else b

def ownEpoch (s : State) : Nat := (bootFolio s).epoch.toNat

/-! ### Fabric readiness and the own record (09 R354, R356, R360) -/

/-- Fabric-ready: accession DONE and no database sync outstanding on any link that is up. -/
def fabricReady (s : State) : Bool :=
  s.fab.accSt = .done && linkNumbers.all fun h => !(s.link h).isUp || (s.link h).sync = .idle

/-- The fields of a link-state record (09 Table 9.7). -/
def recBits (r : BitVec 1728) (lo w : Nat) : Nat := bits r.toNat lo w
def recSerial (r : BitVec 1728) : Nat := recBits r 0 64
def recEpoch (r : BitVec 1728) : Nat := recBits r 64 32
def recSeq (r : BitVec 1728) : Nat := recBits r 96 32
def recAcc (r : BitVec 1728) : Nat := recBits r 128 16
def recDone (r : BitVec 1728) : Bool := recBits r 144 2 = 1
def recRole (r : BitVec 1728) : Nat := recBits r 147 2
def recFeed (r : BitVec 1728) : Nat := recBits r 160 16

/-- A link entry of a record: local link, whether it is four lanes wide, the peer's link and SERIAL. -/
structure RecLink where
  loc : Nat
  half : Bool
  peerLink : Nat
  peer : Nat
  deriving DecidableEq, Repr

def recLinks (r : BitVec 1728) : List RecLink :=
  (List.range (min (recBits r 176 5) 16)).map fun k =>
    let e := recBits r (96 * k + 192) 96
    ⟨bits e 0 4, bit e 4, bits e 8 4, bits e 32 64⟩

/-- The record that describes the device now, under a given SEQ. -/
def ownRecord (s : State) (seq : BitVec 32) : BitVec 1728 :=
  let ls := linkNumbers.filter fun h => (s.link h).st = .ready
  let ent (h : Nat) : Nat × Nat :=
    let l := s.link h
    (packFields [(h, 4), (boolNat l.up4, 1), (0, 3), (l.peerLink.toNat, 4), (0, 20), (l.peerSerial.toNat, 64)], 96)
  BitVec.ofNat 1728 (packFields ([(ownSerial s, 64), (ownEpoch s, 32), (seq.toNat, 32), (s.fab.acc, 16),
    (boolNat (s.fab.accSt = .done), 2), (boolNat s.fab.provisional, 1), (folioBits s 64 2, 2), (0, 11),
    (folioBits s 48 16, 16), (ls.length, 5), (0, 11)] ++ ls.map ent))

/-! ### Packets into flits (09 R368, R344) -/

def flitBytes : Nat := 232

def flitsOf (first : Bool) (v : Nat) : Nat → List FlitBody
  | 0 => []
  | n + 1 => ⟨first, BitVec.ofNat 1856 v⟩ :: flitsOf false (v / 2 ^ 1856) n

/-- The flits of a packet: its header, then its payload, in bodies of 232 bytes. -/
def Pkt.flits (p : Pkt) : List FlitBody :=
  flitsOf true (p.hdr.toNat + p.payload.val * 2 ^ 256) ((32 + p.payload.len + flitBytes - 1) / flitBytes)

/-- Fields of a packet header (09 Table 9.10). -/
def Pkt.field (p : Pkt) (lo w : Nat) : Nat := bits p.hdr.toNat lo w
def Pkt.kind (p : Pkt) : Nat := p.field 0 4
def Pkt.dst (p : Pkt) : Nat := p.field 4 16
def Pkt.src (p : Pkt) : Nat := p.field 20 16
def Pkt.channel (p : Pkt) : Nat := p.field 36 12
def Pkt.flow (p : Pkt) : Nat := p.field 48 8
def Pkt.hop (p : Pkt) : Nat := p.field 56 5
def Pkt.nhops (p : Pkt) : Nat := p.field 144 5
def Pkt.route (p : Pkt) (j : Nat) : Nat := p.field (64 + 4 * j) 4
def Pkt.levelup (p : Pkt) : Nat := p.field 128 16
def Pkt.tseq (p : Pkt) : BitVec 32 := BitVec.ofNat 32 (p.field 152 32)
def Pkt.length (p : Pkt) : Nat := p.field 184 13
def Pkt.job (p : Pkt) : BitVec 32 := BitVec.ofNat 32 (p.field 200 32)
def Pkt.operand (p : Pkt) : Nat := p.field 232 24

/-- The first virtual lane of a kind's class (09 Tables 9.5, 9.11). -/
def classLane (kind : Nat) : Nat :=
  if kind = 1 || kind = 4 || kind = 5 || kind = 9 || kind = 0xB then 2
  else if kind = 6 then 4
  else if 0xC ≤ kind then 7
  else 0

/-- The level on hop `j` (09 R364): the turns at devices 1 to `j`. -/
def levelAt (levelup j : Nat) : Nat := ((List.range (j + 1)).filter fun i => i ≥ 1 && bit levelup i).length

/-- The virtual lane of a packet on hop `j` (09 R349, R364). -/
def laneOf (kind levelup j : Nat) : Nat :=
  if classLane kind = 7 then 7
  else if levelAt levelup j ≥ 2 then 6
  else classLane kind + levelAt levelup j

/-- A packet joins the flits that wait on a virtual lane of a link. -/
def enqueue (s : State) (h vl : Nat) (p : Pkt) : State :=
  s.modLink h fun l => { l with tx := tmod l.tx vl [] (· ++ p.flits) }

/-- A management packet to the neighbour (09 R349, R368). -/
def sendMgmt (s : State) (h kind operand : Nat) (payload : Blob) : State :=
  let hdr := packFields [(kind, 4), (0, 16), (s.fab.acc, 16), (0, 148), (payload.len, 13), (0, 3), (0, 32), (operand, 24)]
  enqueue s h 7 ⟨BitVec.ofNat 256 hdr, payload⟩

/-- Bytes of a link-state record. -/
def recordBytes : Nat := 216

def recordsBlob (rs : List (BitVec 1728)) : Blob :=
  ⟨recordBytes * rs.length, packFields (rs.map fun r => (r.toNat, 1728))⟩

def blobRecords (b : Blob) : List (BitVec 1728) :=
  (List.range (b.len / recordBytes)).map fun i => BitVec.ofNat 1728 (b.bits (1728 * i) 1728)

/-- A record is flooded on every NOT_READY or READY link but the one it came on (09 R361). -/
def floodRecord (s : State) (from' : Option Nat) (r : BitVec 1728) : State :=
  linkNumbers.foldl (fun s h =>
    if (s.link h).isUp && from' ≠ some h then sendMgmt s h 0xD 0 (recordsBlob [r]) else s) s

/-- The own record is made anew; where it has changed, its SEQ rises and it is flooded (09 R352, R360). -/
def refreshOwn (s : State) : State :=
  if s.fab.accSt = .none || s.fab.accSt = .exhausted then s
  else
    match tget s.fab.lsdb (ownSerial s) with
    | some r =>
      if ownRecord s s.fab.seq = r then s
      else
        let r' := ownRecord s (s.fab.seq + 1)
        floodRecord (s.modFab fun x => { x with
          seq := x.seq + 1, lsdb := tset x.lsdb (ownSerial s) r', dirty := true }) none r'
    | none =>
      let r' := ownRecord s s.fab.seq
      floodRecord (s.modFab fun x => { x with lsdb := tset x.lsdb (ownSerial s) r', dirty := true }) none r'

/-! ### READY (09 R348, R350, R354) -/

/-- Receive buffers (09 Table 9.5). -/
def laneBuffer (vl : Nat) : Nat := if vl = 7 then 16 else if vl = 6 then 128 else 256

/-- A NOT_READY link whose two ends are fabric-ready becomes READY: the receiver grants its buffers, and the device's
record changes. -/
def tryReady (s : State) (h : Nat) : State :=
  let l := s.link h
  if l.st = .notReady && l.peerReady && fabricReady s then
    refreshOwn (s.modLink h fun l => { l with
      st := .ready, grants := (List.range 7).foldl (fun g v => tmod g v 0 (· + laneBuffer v)) l.grants })
  else s

def tryReadyAll (s : State) : State := linkNumbers.foldl tryReady s

/-! ### Going down (09 R351, 14 R544) -/

/-- What a link keeps when it goes down: its mode, its waits, its counters, its Ethernet queues, the flit last sent. -/
def Link.cleared (l : Link) (st : LinkSt) : Link :=
  { mode := l.mode, half := l.half, signal := l.signal, st := st, retryWait := l.retryWait
    mismatchWait := l.mismatchWait, aborts := l.aborts, leaving := l.leaving, arp := l.arp, paused := l.paused
    ethHeld := l.ethHeld, eth := l.eth, out := l.out, ctr := l.ctr }

/-- A Verhel link goes DOWN: held and buffered flits are discarded, its hop and ephemeral keys are destroyed, and it
retrains at once where it has a signal and no wait holds it. -/
def linkDown (s : State) (h : Nat) : State :=
  let l := s.link h
  let again : Bool := l.signal && !l.retryWait && !l.mismatchWait
  let s1 := [KeyId.hop h 0, .hop h 1, .ephemeral h].foldl destroyKey s
  tryReadyAll (refreshOwn (s1.setLink h (l.cleared (if again then .training else .down))))

/-- A link that a reset, a gated domain or its folio takes down: no retraining (09 R342, R351). -/
def linkOff (s : State) (h : Nat) : State :=
  let s1 := [KeyId.hop h 0, .hop h 1, .ephemeral h].foldl destroyKey s
  refreshOwn (s1.modLink h fun l => { l.cleared .down with signal := false, retryWait := false, mismatchWait := false })

/-- The domain of a link's port (01 Tables 1.8, 1.9). -/
def linkDomain (h : Nat) : Nat := islandDomain (180 + h / 2)

/-- Signal arrives on every lane a link uses: training begins; an Ethernet link trains likewise (09 R341, R350). -/
def laneSignal (s : State) (h : Nat) : State :=
  let l := s.link h
  if l.mode = .off || !domainOn s (linkDomain h) || l.st ≠ .down then s
  else s.setLink h { l with signal := true, st := if l.retryWait || l.mismatchWait then .down else .training }

/-- The lanes a link may use: those of its port or of its half (09 R339). -/
def halfLanes (k : Nat) : Nat := if k = 0 then 0x0F else 0xF0

/-- Lanes that have trained at both ends, as the port numbers them (09 R341). A whole Verhel port that lacks a lane
comes up as a half, half 0 preferred. -/
def linkTrained (s : State) (h : Nat) (trained : BitVec 8) : State :=
  let l := s.link h
  if l.st ≠ .training then s
  else
    let has (m : Nat) : Bool := (trained &&& BitVec.ofNat 8 m) = BitVec.ofNat 8 m
    let mine : BitVec 8 := if l.half then trained &&& BitVec.ofNat 8 (halfLanes (h % 2)) else trained
    let whole : Bool := has (if l.half then halfLanes (h % 2) else 0xFF)
    if l.mode = .ethernet then
      s.setLink h { l with lanes := mine, st := if whole then .ethUp else .down }
    else if whole || (!l.half && (has 0x0F || has 0xF0)) then
      let l' := { l with lanes := mine, st := .keying, up4 := l.half || !whole, degraded := !whole }
      freshKey (s.setLink h l') (.ephemeral h)
    else s.setLink h { l with lanes := mine, st := .down }

/-- Loss of signal on a lane of a Verhel link (09 R351). -/
def lossOfSignal (s : State) (h : Nat) : State :=
  let l := s.link h
  if l.mode ≠ .verhel || !l.signal then s
  else linkDown (s.setLink h { l with signal := false, ctr := { l.ctr with losEvents := l.ctr.losEvents + 1 } }) h

/-- 12,500 cycles without a flit that passes its tag check (09 R351). -/
def keepaliveTimeout (s : State) (h : Nat) : State :=
  let l := s.link h
  if !l.isUp then s
  else linkDown (s.modLinkCtr h fun k => { k with keepaliveLosses := k.keepaliveLosses + 1 }) h

/-- The loss of an Ethernet link (09 Table 9.6). -/
def ethLinkLoss (s : State) (h : Nat) : State :=
  let l := s.link h
  if l.st ≠ .ethUp then s
  else s.setLink h { l with st := .down, signal := false, ctr := { l.ctr with losEvents := l.ctr.losEvents + 1 } }

/-! ### The sender (09 R345 to R349) -/

/-- LSTATE sent: LEAVING, READY once fabric-ready, else NOT_READY (09 R351, R354). -/
def lstate (s : State) (h : Nat) : Nat :=
  if (s.link h).leaving > 0 then 2 else if fabricReady s then 1 else 0

/-- Virtual lanes in the order in which they are served (09 Table 9.5; 1 is served first, log entry 26). -/
def laneClasses : List (List Nat) := [[7], [4, 5], [2, 3], [6], [0, 1]]

/-- A lane has a flit and a credit, and is open in the link's state. -/
def laneReady (l : Link) (v : Nat) : Bool :=
  !(tgetD l.tx v []).isEmpty && tgetD l.credits v 0 > 0 && (v = 7 || l.st = .ready)

/-- The lane to serve next: by priority, equal priorities in turn. -/
def nextLane (l : Link) : Option Nat :=
  laneClasses.findSome? fun vs =>
    let first := tgetD l.turn (vs.headD 0) 0
    let order := (vs.drop first) ++ (vs.take first)
    order.find? (laneReady l)

/-- The link header of a flit (09 Table 9.4). -/
def linkHeader (seq ack : Nat) (nak : Bool) (vl typ lst cvl cred : Nat) (first : Bool) : BitVec 64 :=
  BitVec.ofNat 64 (packFields [(seq, 12), (ack, 12), (boolNat nak, 1), (vl, 3), (typ, 2), (lst, 2), (cvl, 3), (cred, 12),
    (boolNat first, 1)])

/-- The credits that the next flit returns: those of the lowest lane that has any (log entry 26). -/
def grantOf (l : Link) : Nat × Nat :=
  match l.grants.find? fun p => p.2 > 0 with
  | some (v, n) => (v, min n 4095)
  | none => (0, 0)

/-- Port-island cycles of a flit slot (09 Table 9.1). -/
def slotCycles (l : Link) : Nat := if l.up4 then 4 else 2

/-- The bytes of a flit: header, body, tag. -/
def flitBlob (f : Flit) : Blob := ⟨256, f.hdr.toNat + f.body.toNat * 2 ^ 64 + f.tag.toNat * 2 ^ 1920⟩

/-- Bytes of flit data in a codeword. -/
def codeBytes : Nat := 640

/-- The codewords that flit data complete (09 R343): the link's lanes take them in turn, and the count is that of the
lane's codewords, modulo 2^16. -/
def codewords (lanes : Nat) : Nat → Nat → Blob → List Codeword × Blob × Nat
  | 0, n, b => ([], b, n)
  | fuel + 1, n, b =>
    if b.len < codeBytes then ([], b, n)
    else
      let r := codewords lanes fuel (n + 1) (b.slice codeBytes (b.len - codeBytes))
      (⟨n % lanes, n / lanes % 65536, BitVec.ofNat 5120 b.val⟩ :: r.1, r.2)

/-- A flit is sent: it joins the flit data of the next codewords. -/
def Link.send (l : Link) (f : Flit) : Link :=
  let r := codewords (if l.up4 then 4 else 8) 2 l.codes (Blob.append l.frame (flitBlob f))
  { l with out := some f, line := r.1, frame := r.2.1, codes := r.2.2 }

/-- The direction of the hop key that the device sends under: 0 from initiator to responder, the lower SERIAL first (14 R543,
R544); it receives under the other. -/
def sendDir (s : State) (h : Nat) : Nat := if ownSerial s < (s.link h).peerSerial.toNat then 0 else 1

/-- A hop key and its salt. -/
def hopKey (s : State) (h dir : Nat) : BitVec 128 := (slotKey s (.hop h dir)).setWidth 128
def hopSalt (s : State) (h dir : Nat) : Nat := bits (slotKey s (.hop h dir)).toNat 128 32

/-- The nonce of a flit (09 R344): the salt, then the count of its type with the top bit set for IDLE. -/
def flitNonce (salt : Nat) (idle : Bool) (count : Nat) : Nat := salt + 2 ^ 32 * (count % 2 ^ 63 + (if idle then 2 ^ 63 else 0))

/-- A flit sealed under the hop key of a direction. -/
def sealFlit (s : State) (h : Nat) (idle : Bool) (count : Nat) (hdr : BitVec 64) (body : BitVec 1856) : Flit :=
  let d := sendDir s h
  let r := gcmSeal (hopKey s h d) (flitNonce (hopSalt s h d) idle count) ⟨8, hdr.toNat⟩ ⟨flitBytes, body.toNat⟩
  ⟨hdr, BitVec.ofNat 1856 r.1.val, r.2⟩

/-- The body of a flit received, where it touches no codeword that is not correctable and its tag is right. -/
def openFlit (s : State) (h : Nat) (idle : Bool) (count : Nat) (f : Flit) (fec : Fec) : Option (BitVec 1856) :=
  if fec.touched then none
  else
    let d := 1 - sendDir s h
    (gcmOpen (hopKey s h d) (flitNonce (hopSalt s h d) idle count) ⟨8, f.hdr.toNat⟩ ⟨flitBytes, f.body.toNat⟩ f.tag).map
      fun b => BitVec.ofNat 1856 b.val

/-- The codewords that the decoder has met at a link (09 Table 9.16). -/
def countFec (s : State) (h : Nat) (fec : Fec) : State :=
  s.modLinkCtr h fun k => { k with
    fecCorrected := k.fecCorrected + BitVec.ofNat 48 fec.corrected
    fecUncorrectable := k.fecUncorrectable + BitVec.ofNat 48 fec.uncorrectable }

/-- An IDLE flit with current values; its body holds no field and is zero. -/
def sendIdle (s : State) (h : Nat) : State :=
  let l := s.link h
  let g := grantOf l
  let hdr := linkHeader 0 l.rxSeq l.nak 0 0 (lstate s h) g.1 g.2 false
  s.setLink h ({ l with idles := l.idles + 1, grants := tmod l.grants g.1 0 (· - g.2) }.send
    (sealFlit s h true l.idles hdr 0))

/-- The flit at place `i` of those held is sent again as it was (09 R347); at its sixteenth replay the link goes
down (R346). -/
def sendReplay (s : State) (h i : Nat) (f : HeldFlit) : State :=
  let l := s.link h
  let held := l.held.modify i fun x => { x with replays := x.replays + 1 }
  let l' := { l with
    held := held, replay := if i + 1 < held.length then some (i + 1) else none
    ctr := { l.ctr with flitsReplayed := l.ctr.flitsReplayed + 1 } }.send f.flit
  if f.replays + 1 = 16 then
    linkDown (s.setLink h { l' with ctr := { l'.ctr with retryExhausted := l'.ctr.retryExhausted + 1 } }) h
  else s.setLink h l'

/-- A DATA flit of lane `v` is sent for the first time. -/
def sendData (s : State) (h v : Nat) : State :=
  let l := s.link h
  match tgetD l.tx v [] with
  | [] => s
  | b :: t =>
    let g := grantOf l
    let seq := (l.txSeq + 1) % 4096
    let f := sealFlit s h false l.datas (linkHeader seq l.rxSeq l.nak v 1 (lstate s h) g.1 g.2 b.first) b.body
    let cls := (laneClasses.find? fun vs => vs.contains v).getD []
    let l' : Link := { l with
      tx := tset l.tx v t, credits := tmod l.credits v 0 (· - 1), txSeq := seq, datas := l.datas + 1
      grants := tmod l.grants g.1 0 (· - g.2)
      turn := tset l.turn (cls.headD 0) (if cls.length = 2 && v = cls.headD 0 then 1 else 0)
      held := l.held ++ [⟨seq, f, 0⟩] }
    s.setLink h (l'.send f)

/-! ### KEY flits (14 R542, R543) -/

/-- The data of a key message: an OFFER's SERIAL, certificate chain, ephemeral public key and owner digest; a CONFIRM's
confirmation; nothing for an ABORT. -/
def keyMessage (s : State) (h msg : Nat) : Blob :=
  match msg with
  | 1 => Blob.append (Blob.append (Blob.append ⟨8, ownSerial s⟩ s.sec.chain)
      ⟨64, (sm2Public (slotKey s (.ephemeral h)).toNat).toNat⟩) ⟨32, (ownerDigest s).toNat⟩
  | 2 => ⟨32, (Config.confirmHash (s.link h).confirmK (sendDir s h = 0)).toNat⟩
  | _ => Blob.empty

/-- Fragments of at most 240 bytes. -/
def keyFragments (b : Blob) : Nat := max 1 ((b.len + 239) / 240)

/-- The next fragment of a key message in a KEY flit; after the last one the message begins again. -/
def sendKey (s : State) (h msg : Nat) : State :=
  let l := s.link h
  let b := keyMessage s h msg
  let n := keyFragments b
  let i := l.frag % n
  let d := b.slice (240 * i) (min 240 (b.len - 240 * i))
  let v := packFields [(msg, 8), (i, 8), (n, 8), (d.len, 16), (0, 24), (d.val, 1920)]
  s.setLink h ({ l with frag := (i + 1) % n }.send
    ⟨linkHeader 0 0 false 0 2 (lstate s h) 0 0 false, BitVec.ofNat 1856 v, BitVec.ofNat 128 (v / 2 ^ 1856)⟩)

/-- A flit slot (09 R345): what the sender puts in it, and the cycles that the slot's waits count. -/
def flitSlot (s : State) (h : Nat) : State :=
  let l := s.link h
  if l.leaving > 0 && l.isUp then (sendIdle s h).modLink h fun l => { l with leaving := l.leaving - 1 }
  else if l.aborts > 0 then (sendKey s h 3).modLink h fun l => { l with aborts := l.aborts - 1 }
  else if l.st = .keying then sendKey s h (if l.confirming then 2 else 1)
  else if !l.isUp then s
  else
    let n := slotCycles l
    let waits : Bool := (List.range 8).any fun v =>
      !(tgetD l.tx v []).isEmpty && tgetD l.credits v 0 = 0 && (v = 7 || l.st = .ready)
    let full : Bool := l.held.length ≥ 2048
    let s1 := s.modLinkCtr h fun k => { k with
      creditWait := k.creditWait + (if waits then BitVec.ofNat 48 n else 0)
      replayFull := k.replayFull + (if full then BitVec.ofNat 48 n else 0) }
    match l.replay with
    | some i =>
      match l.held[i]? with
      | some f => sendReplay s1 h i f
      | none => sendIdle (s1.modLink h fun l => { l with replay := none }) h
    | none =>
      if full then sendIdle s1 h
      else
        match nextLane l with
        | some v => sendData s1 h v
        | none => sendIdle s1 h

/-- LEAVING for 64 flit slots, on a link that a reset or a gated domain is about to take down (09 R351). -/
def leaveLink (s : State) (h : Nat) : State :=
  if !(s.link h).isUp then s
  else (List.range 64).foldl (fun s _ => flitSlot s h) (s.modLink h fun l => { l with leaving := 64 })

/-! ### The receiver (09 R346 to R348) -/

def hdrBits (h : BitVec 64) (lo w : Nat) : Nat := bits h.toNat lo w

/-- ACK and NAK of a flit: an ACK within the window releases held flits; a NAK on the newest ACK starts a replay of
every flit held, unless one is under way. -/
def takeAck (l : Link) (ack : Nat) (nak : Bool) : Link :=
  let d := (ack + 4096 - l.acked) % 4096
  let l1 := if 0 < d && d ≤ l.held.length then
      { l with held := (l.held.drop d).map fun f => { f with replays := 0 }, acked := ack, replay := l.replay.bind fun i =>
          if i < d then (if d < l.held.length then some 0 else none) else some (i - d) }
    else l
  if nak && ack = l1.acked && l1.replay.isNone && !l1.held.isEmpty then { l1 with replay := some 0 } else l1

/-- Credits returned for a lane. -/
def takeCredit (l : Link) (v n : Nat) : Link := { l with credits := tmod l.credits v 0 (· + n) }

/-- An IDLE flit (09 R347): ACK, NAK, LSTATE and credits are taken; LEAVING takes the link down (R351). -/
def flitIdle (s : State) (h : Nat) (f : Flit) (count : Nat) (fec : Fec) : State :=
  let s := countFec s h fec
  let l := s.link h
  let hdr := f.hdr
  if !l.isUp then s
  else if (openFlit s h true count f fec).isNone then s.modLinkCtr h fun k => { k with tagFailures := k.tagFailures + 1 }
  else
    let lst := hdrBits hdr 30 2
    let l1 := takeCredit (takeAck l (hdrBits hdr 12 12) (bit hdr.toNat 24)) (hdrBits hdr 32 3) (hdrBits hdr 35 12)
    let s1 := s.setLink h { l1 with peerReady := lst = 1 }
    if lst = 2 then linkDown s1 h else tryReady s1 h

/-- The packet that a lane's flits make, once they hold all of it. -/
def assembled (fs : List FlitBody) : Option Pkt :=
  match fs with
  | [] => none
  | f :: _ =>
    let hdr : BitVec 256 := f.body.setWidth 256
    let len := bits hdr.toNat 184 13
    if fs.length * flitBytes < 32 + len then none
    else
      let v := packFields (fs.map fun b => (b.body.toNat, 1856))
      some ⟨hdr, ⟨len, bits v 256 (8 * len)⟩⟩

/-- The flits that a packet takes in a receive buffer. -/
def Pkt.flitCount (p : Pkt) : Nat := (32 + p.payload.len + flitBytes - 1) / flitBytes

/-- A packet leaves the receive buffer of a lane, and its credits are returned (09 R348). The flits of VL7 leave theirs one
by one, as the die-control island takes them in (R349). -/
def freeFlits (s : State) (h vl : Nat) (p : Pkt) : State :=
  if vl = 7 then s else s.modLink h fun l => { l with grants := tmod l.grants vl 0 (· + p.flitCount) }

/-- A whole packet has arrived at a link. One that has reached the end of its route with another device's number is
dropped (09 R367); the others wait for the command of their kind, or to be forwarded. -/
def packetIn (s : State) (h vl : Nat) (p : Pkt) : State :=
  if p.kind < 0xC && p.hop = p.nhops && p.dst ≠ s.fab.acc then
    (freeFlits s h vl p).modFab fun x => { x with misdelivered := x.misdelivered + 1 }
  else s.modLink h fun l => { l with rx := l.rx ++ [(vl, p)] }

/-- A DATA flit (09 R346, R347): accepted only in sequence, else discarded with NAK set until the right one comes. -/
def flitData (s : State) (h : Nat) (f : Flit) (count : Nat) (fec : Fec) : State :=
  let s := countFec s h fec
  let l := s.link h
  let hdr := f.hdr
  match l.isUp, openFlit s h false count f fec with
  | false, _ => s
  | true, none => s.modLinkCtr h fun k => { k with tagFailures := k.tagFailures + 1 }
  | true, some body =>
  if hdrBits hdr 30 2 = 2 then linkDown s h
  else if hdrBits hdr 0 12 ≠ (l.rxSeq + 1) % 4096 then s.setLink h { l with nak := true }
  else
    let vl := hdrBits hdr 25 3
    let first := bit hdr.toNat 47
    let l1 := takeCredit (takeAck l (hdrBits hdr 12 12) (bit hdr.toNat 24)) (hdrBits hdr 32 3) (hdrBits hdr 35 12)
    let fs := (if first then [] else tgetD l1.asm vl []) ++ [⟨first, body⟩]
    let l2 := { l1 with
      rxSeq := hdrBits hdr 0 12, nak := false, peerReady := hdrBits hdr 30 2 = 1
      grants := if vl = 7 then tmod l1.grants 7 0 (· + 1) else l1.grants }
    match assembled fs with
    | some p => packetIn (tryReady (s.setLink h { l2 with asm := tset l2.asm vl [] }) h) h vl p
    | none => tryReady (s.setLink h { l2 with asm := tset l2.asm vl fs }) h

/-- The first packet of a kind that has arrived at a link; it leaves the receive buffer. -/
def takePacket (s : State) (h kind : Nat) : Option (Pkt × State) :=
  match (s.link h).rx.find? fun e => e.2.kind = kind && (kind ≥ 0xC || e.2.hop = e.2.nhops) with
  | some (vl, p) =>
    some (p, freeFlits (s.modLink h fun l => { l with rx := l.rx.erase (vl, p) }) h vl p)
  | none => none

/-- A transit packet is forwarded on the link that its route names, or dropped where that link is not READY
(09 R367). -/
def packetForward (s : State) (h : Nat) : State :=
  match (s.link h).rx.find? fun e => e.2.kind < 0xC && e.2.hop ≠ e.2.nhops with
  | none => s
  | some (vl, p) =>
    let s1 := freeFlits (s.modLink h fun l => { l with rx := l.rx.erase (vl, p) }) h vl p
    let j := p.hop
    let o := p.route j
    if (s1.link o).st ≠ .ready then s1.modLinkCtr o fun k => { k with droppedNoLink := k.droppedNoLink + 1 }
    else
      let hdr := p.hdr.toNat - p.hop * 2 ^ 56 + (j + 1) % 32 * 2 ^ 56
      enqueue s1 o (laneOf p.kind p.levelup j) ⟨BitVec.ofNat 256 hdr, p.payload⟩

/-! ### Keying (14 R542 to R545) -/

/-- A link enters NOT_READY: it grants the 16 flits of VL7 and sends HELLO (09 R353, R354); the first such link floods
the device's claim (R356). -/
def enterNotReady (s : State) (h : Nat) : State :=
  let s1 := s.modLink h fun l => { l with
    st := .notReady, offer := none, confirming := false, grants := tmod l.grants 7 0 (· + laneBuffer 7)
    credits := tmod l.credits 7 0 (· + 0) }
  let st : Nat := match s.fab.accSt with | .none => 0 | .claiming => 1 | .done => 2 | .exhausted => 3
  let hello := packFields [(ownSerial s, 64), (fabricId s, 32), (ownEpoch s, 32), (s.fab.acc, 16), (st, 2), (h, 4)]
  let s2 := sendMgmt s1 h 0xC 0 ⟨19, hello⟩
  if s2.fab.accSt = .claiming && !s2.fab.flooded then
    let s3 := s2.modFab fun x => { x with flooded := true }
    match tget s3.fab.lsdb (ownSerial s3) with
    | some r => floodRecord s3 none r
    | none => s3
  else s2

/-- A keying fails: ABORT for 64 flit slots, the link goes DOWN, and it retries after 2^20 cycles. -/
def keyingFail (s : State) (h cause : Nat) : State :=
  let s1 := s.modSec fun x => { x with
    keyingFailures := x.keyingFailures + 1, lastKeyFail := BitVec.ofNat 8 (h + 16 * cause) }
  linkDown (s1.modLink h fun l => { l with aborts := 64, retryWait := true }) h

/-- A complete OFFER (14 R543, steps 1 and 2). `chainOk`: the chain verifies and its SERIAL is the OFFER's; `k` is what the
key exchange of the two ends yields. -/
def keyOffer (s : State) (h : Nat) (serial : BitVec 64) (digest : BitVec 256) (chainOk : Bool) (k : BitVec 320) : State :=
  if (s.link h).st ≠ .keying then s
  else if !chainOk then keyingFail s h 1
  else if digest ≠ ownerDigest s then keyingFail s h 2
  else
    let s1 := wantKey s .identity
    s1.modLink h fun l => { l with
      offer := some serial, peerSerial := serial, confirming := serial.toNat < ownSerial s, frag := 0, confirmK := k }

/-- The 320 bits of a key exchange as the two hop keys with their salts (14 R544). -/
def hopBits (k : BitVec 320) (dir : Nat) : BitVec 256 :=
  BitVec.ofNat 256 (bits k.toNat (128 * dir) 128 + 2 ^ 128 * bits k.toNat (256 + 32 * dir) 32)

/-- A CONFIRM (14 R543 step 3, R544). The initiator answers it with its own and enters NOT_READY; the responder enters
NOT_READY once it has checked it. -/
def keyConfirm (s : State) (h : Nat) (ok : Bool) : State :=
  let l := s.link h
  match l.st, l.offer with
  | .keying, some p =>
    if !ok then keyingFail s h 3
    else
      let s1 := makeKey (makeKey (destroyKey s (.ephemeral h)) (.hop h 0) (hopBits l.confirmK 0)) (.hop h 1)
        (hopBits l.confirmK 1)
      let s2 := (s1.modSec fun x => { x with keyings := x.keyings + 1 }).modLink h fun l => { l with frag := 0 }
      enterNotReady (if ownSerial s < p.toNat then sendKey s2 h 2 else s2) h
  | _, _ => s

def keyAbort (s : State) (h : Nat) : State := if (s.link h).st = .keying then keyingFail s h 4 else s
def keyingTimeout (s : State) (h : Nat) : State := if (s.link h).st = .keying then keyingFail s h 5 else s

/-- The wait after a failed keying ends, and the link trains again. -/
def keyingRetry (s : State) (h : Nat) : State :=
  let l := s.link h
  if !l.retryWait then s
  else s.setLink h { l with retryWait := false, st := if l.signal && l.st = .down && !l.mismatchWait then .training else l.st }

/-- The wait after a fabric mismatch ends (09 R353). -/
def fabricMismatchRetry (s : State) (h : Nat) : State :=
  let l := s.link h
  if !l.mismatchWait then s
  else s.setLink h { l with mismatchWait := false, st := if l.signal && l.st = .down && !l.retryWait then .training else l.st }

end Sys2Proof.Machine
end

