-- ==== Sys2Proof/Machine/Fabric.lean ====
section
/-!
DEFINITION. The fabric unit (09 R353 to R371): HELLO and database syncs, link-state records, accession, routes, and
the transport of packets in connections.
-/

namespace Sys2Proof.Machine

/-! ### The graph of the database (09 R362, R363) -/

/-- The hops out of a device: the links that the records at both ends report, with the peer, the link left by and
the hop's cost. -/
def hopsOut (db : Tbl (BitVec 1728)) (a : Nat) : List (Nat × Nat × Nat) :=
  match tget db a with
  | none => []
  | some ra =>
    (recLinks ra).filterMap fun e =>
      if e.peer = a then none
      else
        match tget db e.peer with
        | none => none
        | some rb =>
          ((recLinks rb).find? fun f => f.loc = e.peerLink && f.peer = a && f.peerLink = e.loc).map fun f =>
            (e.peer, e.loc, if e.half || f.half then 2 else 1)

/-- A place that a path has come to: a device by SERIAL, whether the last hop went down, and the turns passed. -/
structure Reach where
  at' : Nat
  down : Bool
  turns : Nat
  deriving DecidableEq, Repr

/-- The accession number of a device by its record. -/
def recordAcc (db : Tbl (BitVec 1728)) (n : Nat) : Nat := ((tget db n).map recAcc).getD 0

/-- The places one hop on, through a device whose accession is DONE or from the source itself (09 R363). -/
def Reach.next (db : Tbl (BitVec 1728)) (src : Nat) (p : Reach) : List Reach :=
  if p.at' ≠ src && !((tget db p.at').map recDone).getD false then []
  else
    (hopsOut db p.at').filterMap fun e =>
      let up : Bool := recordAcc db p.at' < recordAcc db e.1
      let t := p.turns + boolNat (p.down && up)
      if 2 < t then none else some ⟨e.1, !up, t⟩

/-- The places met within `n` more hops. -/
def reachWithin (db : Tbl (BitVec 1728)) (src : Nat) : Nat → List Reach → List Reach → List Reach
  | 0, _, seen => seen
  | n + 1, edge, seen =>
    let new := ((edge.flatMap fun p => p.next db src).eraseDups).filter fun p => !seen.contains p
    if new.isEmpty then seen else reachWithin db src n new (seen ++ new)

/-- The devices to which a route of 09 R363 exists: over hops that both records report, and the hop to a partner on a link
that is up, of at most 16 hops and two turns, through devices that are DONE. The device at its end may still be CLAIMING
(log entry 27). -/
def reachable (s : State) : List Nat :=
  let db := s.fab.lsdb
  let near := (linkNumbers.filter fun h => (s.link h).isUp && (tget db (s.link h).peerSerial.toNat).isSome).map
    fun h => (s.link h).peerSerial.toNat
  let first := (near.map fun n => (⟨n, !(s.fab.acc < recordAcc db n : Bool), 0⟩ : Reach)) ++ (⟨ownSerial s, false, 0⟩ : Reach).next db (ownSerial s)
  (ownSerial s :: (reachWithin db (ownSerial s) 15 first.eraseDups first.eraseDups).map (·.at')).eraseDups

/-! ### Accession (09 R356 to R359) -/

/-- A provisional claim: the lowest number from FF00h to FFFEh that no reachable record holds. -/
def claimProvisional (s : State) : State :=
  let taken := (reachable s).filterMap fun n =>
    if n = ownSerial s then none else (tget s.fab.lsdb n).map recAcc
  match (List.range 255).find? fun i => !taken.contains (0xFF00 + i) with
  | some i =>
    let up : Bool := linkNumbers.any fun h => (s.link h).isUp
    refreshOwn (s.modFab fun x => { x with
      acc := 0xFF00 + i, provisional := true, accSt := .claiming, flooded := up })
  | none => s.modFab fun x => { x with accSt := .exhausted }

/-- A device that loses a number it held as DONE closes every connection; the ledger then sees the device lost
(09 R357). -/
def closeAllConnections (s : State) : State := s.modFab fun x => { x with tx := [], rx := [] }

/-- The comparison of the claim with every reachable record (09 R357): a lower SERIAL with the same number wins. -/
def checkConflict (s : State) : State :=
  if s.fab.accSt ≠ .claiming && s.fab.accSt ≠ .done then s
  else if (reachable s).any fun n =>
      n < ownSerial s && ((tget s.fab.lsdb n).map recAcc) = some s.fab.acc then
    let s1 := if s.fab.accSt = .done then closeAllConnections s else s
    claimProvisional (s1.modFab fun x => { x with conflicts := x.conflicts + 1, accConflict := true })
  else s

/-- The settle interval ends with the claim unlost: accession is DONE and the record is flooded (09 R359). -/
def accessionSettle (s : State) : State :=
  if s.fab.accSt = .claiming && s.fab.flooded then
    tryReadyAll (refreshOwn (s.modFab fun x => { x with accSt := .done }))
  else s

/-! ### Records (09 R360 to R362) -/

def recNewer (a b : BitVec 1728) : Bool := recEpoch b < recEpoch a || (recEpoch a = recEpoch b && recSeq b < recSeq a)

/-- A record received: stored and flooded where it is newer, unless the database is full. -/
def storeRecord (s : State) (from' : Nat) (r : BitVec 1728) : State :=
  let n := recSerial r
  if n = ownSerial s then s
  else
    let old := tget s.fab.lsdb n
    let newer : Bool := match old with | none => true | some o => recNewer r o
    if !newer then s
    else if old.isNone && 16384 ≤ s.fab.lsdb.length then
      s.modFab fun x => { x with lsdbOverflows := x.lsdbOverflows + 1 }
    else
      let s1 := s.modFab fun x => { x with lsdb := tset x.lsdb n r, dirty := true }
      let s2 := linkNumbers.foldl (fun s h =>
        if (s.link h).isUp && (s.link h).peerSerial.toNat = n then
          s.modLink h fun l => { l with peerAcc := BitVec.ofNat 16 (recAcc r) } else s) s1
      checkConflict (floodRecord s2 (some from') r)

/-- A flooded LSR packet. -/
def lsr (s : State) (h : Nat) : State :=
  match takePacket s h 0xD with
  | none => s
  | some (p, s1) => (blobRecords p.payload).foldl (fun s r => storeRecord s h r) s1

/-- A record unreachable for 2^32 cycles of DC0 is deleted. -/
def lsdbRecordExpiry (s : State) (serial : Nat) : State :=
  if serial ≠ ownSerial s && !(reachable s).contains serial && (tget s.fab.lsdb serial).isSome then
    s.modFab fun x => { x with lsdb := terase x.lsdb serial, dirty := true }
  else s

/-! ### HELLO and SYNC (09 R353 to R355, R361) -/

/-- Another link has a sync outstanding with this device: an offer or an exchange of records. -/
def syncBusy (s : State) (h : Nat) : Bool :=
  linkNumbers.any fun o => o ≠ h && (s.link o).isUp && ((s.link o).sync = .offered || (s.link o).sync = .running)

/-- A SYNC packet: OPERAND 0 offer, 1 records, 2 DONE, 3 the NOT_READY answer (09 Table 9.11). -/
def sendSync (s : State) (h op : Nat) (b : Blob) : State := sendMgmt s h 0xE op b

/-- The device offers a sync on a link, or will once no other is outstanding. -/
def offerSync (s : State) (h : Nat) : State :=
  if syncBusy s h && !(s.fab.accSt = .done && linkNumbers.all fun o => o = h || !(s.link o).isUp || (s.link o).sync = .idle)
  then s.modLink h fun l => { l with sync := .wanted }
  else sendSync (s.modLink h fun l => { l with sync := .offered, syncSent := false }) h 0 Blob.empty

/-- Every record held, then DONE. -/
def sendRecords (s : State) (h : Nat) : State :=
  let rs := s.fab.lsdb.map (·.2)
  let s1 := (chunks' 18 (rs.length + 1) rs).foldl (fun s g => sendSync s h 1 (recordsBlob g)) s
  (sendSync s1 h 2 Blob.empty).modLink h fun l => { l with sync := .running, syncSent := true, backoffK := 0 }
where
  chunks' (n : Nat) : Nat → List (BitVec 1728) → List (List (BitVec 1728))
    | 0, _ => []
    | _ + 1, [] => []
    | f + 1, l => l.take n :: chunks' n f (l.drop n)

/-- A HELLO (09 R353): another FABRIC_ID takes the link back to DOWN; else the partner is known and a sync is
offered. -/
def hello (s : State) (h : Nat) : State :=
  match takePacket s h 0xC with
  | none => s
  | some (p, s1) =>
    let b := p.payload
    if b.bits 64 32 ≠ fabricId s1 then
      linkDown (s1.modLink h fun l => { l with
        mismatchWait := true, ctr := { l.ctr with fabricMismatches := l.ctr.fabricMismatches + 1 } }) h
    else
      let s2 := s1.modLink h fun l => { l with
        peerSerial := BitVec.ofNat 64 (b.bits 0 64), peerAcc := BitVec.ofNat 16 (b.bits 128 16)
        peerLink := BitVec.ofNat 4 (b.bits 146 4) }
      offerSync s2 h

/-- The first SYNC packet of an OPERAND that has arrived at a link. -/
def takeSync (s : State) (h op : Nat) : Option (Pkt × State) :=
  match (s.link h).rx.find? fun e => e.2.kind = 0xE && e.2.operand % 4 = op with
  | some (vl, p) => some (p, freeFlits (s.modLink h fun l => { l with rx := l.rx.erase (vl, p) }) h vl p)
  | none => none

/-- A SYNC offer (09 R354): accepted, or answered NOT_READY while another sync is outstanding and the device is not
yet fabric-ready. An offer that crosses the device's own on the link is the same sync. -/
def syncOffer (s : State) (h : Nat) : State :=
  match takeSync s h 0 with
  | none => s
  | some (_, s1) =>
    if !fabricReady s1 && syncBusy s1 h then
      (sendSync s1 h 3 Blob.empty).modLinkCtr h fun k => { k with notReadySent := k.notReadySent + 1 }
    else if (s1.link h).sync = .running then s1
    else sendRecords s1 h

/-- Records received in a sync; the first ones show that the device's own offer was accepted. -/
def syncRecords (s : State) (h : Nat) : State :=
  match takeSync s h 1 with
  | none => s
  | some (p, s1) =>
    let s2 := if (s1.link h).sync = .offered then sendRecords s1 h else s1
    (blobRecords p.payload).foldl (fun s r => storeRecord s h r) s2

/-- A sync ends with the partner's DONE, and the next offer that waits is made; the device may now be fabric-ready. -/
def syncDone (s : State) (h : Nat) : State :=
  match takeSync s h 2 with
  | none => s
  | some (_, s1) =>
    let s2 := if (s1.link h).sync = .offered then sendRecords s1 h else s1
    let s3 := s2.modLink h fun l => { l with sync := .idle, syncSent := false }
    let s4 := match linkNumbers.find? fun o => (s3.link o).isUp && (s3.link o).sync = .wanted with
      | some o => offerSync s3 o
      | none => s3
    tryReadyAll s4

/-- A NOT_READY answer (09 R355): the offer is repeated after a wait. -/
def syncNotReady (s : State) (h : Nat) : State :=
  match takeSync s h 3 with
  | none => s
  | some (_, s1) =>
    if (s1.link h).sync ≠ .offered then s1
    else s1.modLink h fun l => { l with
      sync := .backoff, backoffK := l.backoffK + 1, ctr := { l.ctr with backoffs := l.ctr.backoffs + 1 } }

/-- The wait of 09 R355 in port-island cycles for the `k`-th answer in a row. -/
def backoffCycles (k serial : Nat) : Nat := 2 ^ (9 + min k 11) + serial % 512

/-- The wait ends and the offer is repeated. -/
def syncBackoff (s : State) (h : Nat) : State := if (s.link h).sync = .backoff then offerSync s h else s

/-! ### Routes (09 R363 to R366) -/

/-- A device of the database that routes may pass: its accession is DONE. -/
def routable (s : State) (n : Nat) : Bool := ((tget s.fab.lsdb n).map recDone).getD false

def accOf (s : State) (n : Nat) : Nat := ((tget s.fab.lsdb n).map recAcc).getD 0

/-- The remaining cost to a destination by device, after `n` rounds. -/
def costsTo (s : State) (nodes : List Nat) : Nat → Tbl Nat → Tbl Nat
  | 0, d => d
  | n + 1, d =>
    let d' := nodes.foldl (fun t a =>
      (hopsOut s.fab.lsdb a).foldl (fun t e =>
        match tget t e.1 with
        | some c => (match tget t a with
            | some o => if c + e.2.2 < o then tset t a (c + e.2.2) else t
            | none => tset t a (c + e.2.2))
        | none => t) t) d
    if d' = d then d else costsTo s nodes n d'

/-- The paths from `at'` to `dst` with at most `fuel` more hops, at most two turns and cost exactly `left` more:
`down` says that the last hop went down, `seen` what the path has passed. -/
def pathsFrom (s : State) (nodes : List Nat) (dst : Nat) (best : Tbl Nat) :
    Nat → Nat → Nat → Bool → Nat → List Nat → List Path
  | 0, _, _, _, _, _ => []
  | fuel + 1, at', left, down, turns, seen =>
    (hopsOut s.fab.lsdb at').flatMap fun e =>
      let m := e.1
      let up : Bool := accOf s at' < accOf s m
      let t := turns + boolNat (down && up)
      if seen.contains m || !nodes.contains m || 2 < t || left < e.2.2 + tgetD best m 1000 then []
      else if m = dst then (if left = e.2.2 then [⟨[e.2.1], [accOf s m], t, e.2.2⟩] else [])
      else
        (pathsFrom s nodes dst best fuel m (left - e.2.2) (!up) t (m :: seen)).map fun p =>
          ⟨e.2.1 :: p.links, accOf s m :: p.accs, p.turns, p.cost + e.2.2⟩

def listLt : List Nat → List Nat → Bool
  | [], [] => false
  | [], _ => true
  | _, [] => false
  | a :: s, b :: t => a < b || (a = b && listLt s t)

/-- The order of 09 Table 9.8. -/
def pathBefore (p q : Path) : Bool :=
  listLt ([p.turns, p.links.length]) ([q.turns, q.links.length]) ||
    (p.turns = q.turns && p.links.length = q.links.length &&
      (listLt p.accs q.accs || (p.accs = q.accs && listLt p.links q.links)))

def insertPath (p : Path) : List Path → List Path
  | [] => [p]
  | q :: t => if pathBefore p q then p :: q :: t else q :: insertPath p t

/-- The route set from device `src` to device `dst`, both by SERIAL (09 R363). -/
def routeSet (s : State) (src dst : Nat) : List Path :=
  if src = dst || !routable s dst || !routable s src then []
  else
    let nodes := (s.fab.lsdb.map (·.1)).filter fun n => routable s n
    let best := costsTo s nodes nodes.length [(dst, 0)]
    match tget best src with
    | none => []
    | some c0 =>
      match (List.range (33 - c0)).findSome? fun i =>
          match pathsFrom s nodes dst best 16 src (c0 + i) false 0 [src] with
          | [] => none
          | ps => some ps with
      | some ps => (ps.foldl (fun l p => insertPath p l) []).take 4
      | none => []

/-- The routes of the device to every other one, by accession number. -/
def computeRoutes (s : State) : Tbl (List Path) :=
  s.fab.lsdb.foldl (fun t e =>
    if e.1 = ownSerial s || !recDone e.2 then t
    else
      match routeSet s (ownSerial s) e.1 with
      | [] => t
      | ps => tset t (recAcc e.2) ps) []

/-- The path of a flow to a peer (09 R365). -/
def pathFor (s : State) (peer flow : Nat) : Option Path :=
  match tgetD s.fab.routes peer [] with
  | [] => none
  | ps => ps[flow % ps.length]?

/-- LEVELUP of a path from an accession number (09 R364). -/
def levelups (src : Nat) (accs : List Nat) : Nat :=
  let all := src :: accs
  (List.range (accs.length - 1)).foldl (fun v i =>
    let a := all.getD i 0
    let b := all.getD (i + 1) 0
    let c := all.getD (i + 2) 0
    if !(a < b) && b < c then v + 2 ^ (i + 1) else v) 0

/-! ### Transport (09 R368 to R371) -/

/-- A packet header with its route (09 Table 9.10). -/
def packetHeader (s : State) (kind dst channel flow : Nat) (p : Path) (tseq : BitVec 32) (len : Nat) (job : BitVec 32)
    (operand : Nat) : BitVec 256 :=
  let route := packFields (p.links.map fun l => (l, 4))
  BitVec.ofNat 256 (packFields [(kind, 4), (dst, 16), (s.fab.acc, 16), (channel, 12), (flow, 8), (0, 8), (route, 64),
    (levelups s.fab.acc p.accs, 16), (p.links.length, 5), (0, 3), (tseq.toNat, 32), (len, 13), (0, 3), (job.toNat, 32),
    (operand, 24)])

/-- A packet leaves on the first hop of its path, or is dropped where that link is not READY (09 R367). -/
def transmit (s : State) (kind dst channel flow : Nat) (p : Path) (tseq : BitVec 32) (payload : Blob) (job : BitVec 32)
    (operand : Nat) : State :=
  let hdr := packetHeader s kind dst channel flow p tseq payload.len job operand
  let o := p.links.headD 0
  if (s.link o).st ≠ .ready then s.modLinkCtr o fun k => { k with droppedNoLink := k.droppedNoLink + 1 }
  else enqueue s o (laneOf kind 0 0) ⟨BitVec.ofNat 256 (hdr.toNat + 2 ^ 56), payload⟩

/-- Send again what a connection holds; each packet counts. -/
def resend (s : State) (c : TxConn) : State :=
  match pathFor s c.peer c.flow.toNat with
  | none => s
  | some p =>
    c.held.foldl (fun s k =>
      (transmit s k.kind c.peer c.channel c.flow.toNat p k.tseq k.payload c.job k.operand).modFab fun x =>
        { x with retransmits := x.retransmits + 1 }) s

/-- The connections that a device holds, each in one direction. -/
def connectionsOpen (s : State) : Nat := s.fab.tx.length + s.fab.rx.length

def connLimit : Nat := 8192

/-- The context of a job. -/
def jobCtx (s : State) (job : BitVec 32) : Option Nat :=
  (List.range nCtx).find? fun c => (s.ctx c).st != .free && (s.ctx c).job = job

/-- The slot whose ledger runs a job, its context torn down or not (10 R409). -/
def ledgerCtx (s : State) (job : BitVec 32) : Option Nat :=
  (List.range nCtx).find? fun c => ((s.ctx c).st != .free || (s.ctx c).led.st != .none) && (s.ctx c).job = job

/-- A context needs a connection beyond the limit (11 R447). -/
def connectionFault (s : State) (job : BitVec 32) : State :=
  match jobCtx s job with
  | some c => contextFault s c ⟨.connectionLimit, none, .fabric, 0⟩
  | none => s

def findTx (s : State) (peer : Nat) (job : BitVec 32) (channel : Nat) : Option TxConn :=
  s.fab.tx.find? fun c => c.peer = peer && c.job = job && c.channel = channel

/-- The next TSEQ and a place among the 64 packets held, for the packet at the head of those that wait. -/
def TxConn.takeSlot (c : TxConn) : TxConn × Option HeldPkt :=
  match c.waiting with
  | k :: t =>
    if c.held.length < 64 then
      let k' := { k with tseq := c.next }
      ({ c with held := c.held ++ [k'], waiting := t, next := c.next + 1 }, some k')
    else (c, none)
  | [] => (c, none)

/-- Send the packets that now have a place. -/
def admitAll : Nat → State → TxConn → State × TxConn
  | 0, s, c => (s, c)
  | n + 1, s, c =>
    match c.takeSlot with
    | (c', some k) =>
      let s1 := match pathFor s c.peer c.flow.toNat with
        | some p => transmit s k.kind c.peer c.channel c.flow.toNat p k.tseq k.payload c.job k.operand
        | none => s
      admitAll n s1 c'
    | (c', none) => (s, c')

def putTx (s : State) (c : TxConn) : State :=
  s.modFab fun x => { x with
    tx := x.tx.map fun d => if d.peer = c.peer && d.job = c.job && d.channel = c.channel then c else d }

/-- The FLOW of a connection that opens: the one that ACKs to that peer already travel under, else a free value (09 R365). -/
def reverseFlow (s : State) (peer : Nat) (job : BitVec 32) (channel : Nat) : BitVec 8 × State :=
  match s.fab.rx.find? fun c => c.peer = peer && c.job = job && c.channel = channel with
  | some c => (c.flow, s)
  | none => s.free 8

/-- Send one packet on a connection, which is opened where it is not yet (09 R369, R370). Its FLOW is a free value. -/
def sendPacket (s : State) (peer : Nat) (job : BitVec 32) (channel kind operand : Nat) (payload : Blob) : State :=
  let k : HeldPkt := ⟨0, kind, operand, payload⟩
  match findTx s peer job channel with
  | some c =>
    let r := admitAll 64 s { c with waiting := c.waiting ++ [k] }
    putTx r.1 r.2
  | none =>
    if connLimit ≤ connectionsOpen s then connectionFault s job
    else
      let f := reverseFlow s peer job channel
      let c : TxConn := ⟨peer, job, channel, f.1, 0, [], [k]⟩
      let r := admitAll 64 (f.2.modFab fun x => { x with tx := x.tx ++ [c] }) c
      putTx r.1 r.2

/-- An ACK packet (09 R370): TSEQ names the last packet accepted. It travels on the reverse connection, under its FLOW
(R365, R369). -/
def sendAck (s : State) (p : Pkt) (flow : BitVec 8) (tseq : BitVec 32) : State :=
  match pathFor s p.src flow.toNat with
  | some q => transmit s 5 p.src p.channel flow.toNat q tseq Blob.empty p.job (tseq.toNat % 2 ^ 24)
  | none => s

/-- The receiver's side of a connection (09 R370): a packet in sequence is accepted and acknowledged; any other is
discarded and answered with the last TSEQ accepted. `false` where the packet is not accepted. -/
def acceptPacket (s : State) (p : Pkt) : State × Bool :=
  match s.fab.rx.find? fun c => c.peer = p.src && c.job = p.job && c.channel = p.channel with
  | some c =>
    if p.tseq = c.expect then
      let s1 := s.modFab fun x => { x with
        rx := x.rx.map fun d => if d.peer = p.src && d.job = p.job && d.channel = p.channel
          then { d with expect := d.expect + 1 } else d }
      (sendAck s1 p c.flow p.tseq, true)
    else (sendAck s p c.flow (c.expect - 1), false)
  | none =>
    if connLimit ≤ connectionsOpen s then (connectionFault s p.job, false)
    else
      let ok : Bool := p.tseq = 0
      let f := match findTx s p.src p.job p.channel with | some c => (c.flow, s) | none => s.free 8
      let s1 := f.2.modFab fun x => { x with rx := x.rx ++ [⟨p.src, p.job, p.channel, if ok then 1 else 0, f.1⟩] }
      (sendAck s1 p f.1 (if ok then 0 else 0 - 1), ok)

/-- An ACK (09 R370): the packets it covers are released, and those that wait move up. -/
def ack (s : State) (h : Nat) : State :=
  match takePacket s h 5 with
  | none => s
  | some (p, s1) =>
    match findTx s1 p.src p.job p.channel with
    | none => s1
    | some c =>
      let covers (k : HeldPkt) : Bool := (p.tseq - k.tseq).toNat < 2 ^ 31
      let r := admitAll 64 s1 { c with held := c.held.filter fun k => !covers k }
      putTx r.1 r.2

/-- 131,072 cycles without a new ACK: a connection sends again from its first unacknowledged packet. -/
def transportRetransmit (s : State) (n : Nat) : State :=
  match s.fab.tx[n]? with
  | some c => resend s c
  | none => s

/-- The connections of a job close (11 R446), or those to one peer (09 R371). -/
def closeJob (s : State) (job : BitVec 32) : State :=
  s.modFab fun x => { x with tx := x.tx.filter fun c => c.job ≠ job, rx := x.rx.filter fun c => c.job ≠ job }

def closePeer (s : State) (peer : Nat) : State :=
  s.modFab fun x => { x with tx := x.tx.filter fun c => c.peer ≠ peer, rx := x.rx.filter fun c => c.peer ≠ peer }

/-- The accession number of a rank of a context, and the rank of an accession number (09 R371). -/
def rankAcc (x : Ctx) (r : Nat) : Option Nat := x.led.ranks[r]?
def accRank (x : Ctx) (a : Nat) : Option Nat := x.led.ranks.findIdx? (· = a)

/-- Routes are computed and installed (09 R366): connections whose path has changed send again at once. The answer lists
the numbers that have lost their route. -/
def installRoutes (s : State) : State × List Nat :=
  let new := computeRoutes s
  let old := s.fab.routes
  let s1 := s.modFab fun x => { x with routes := new, dirty := false, recomputes := x.recomputes + 1 }
  let pathIn (t : Tbl (List Path)) (c : TxConn) : Option Path :=
    let ps := tgetD t c.peer []
    if ps.isEmpty then none else ps[c.flow.toNat % ps.length]?
  let s2 := s1.fab.tx.foldl (fun s c => if pathIn new c ≠ pathIn old c then resend s c else s) s1
  (s2, (old.map (·.1)).filter fun a => (tget new a).isNone)

end Sys2Proof.Machine
end

