-- ==== Sys2Proof/Machine/Shape.lean ====
section
/-!
DEFINITION. The shaping of pictures, sound and text in intake (07 R270, R272, R273, R278 to R285): colour
conversion, cropping, resizing and augmentation; resampling and log-mel frames; UTF-8, pieces and merges.
-/

namespace Sys2Proof.Machine

/-! ### Real functions in fixed point

The chapter gives sinc, the Bessel series, the Hann window, twiddle factors and the mel scale as real functions
rounded to binary32. They are evaluated with 200 bits behind the point and rounded once. -/

namespace Real'

def one : Int := 2 ^ 200
def mul (x y : Int) : Int := x * y / one
def div (x y : Int) : Int := if y = 0 then 0 else x * one / y

/-- `sum r^(2k+1) / (2k+1)`, with alternating signs or without: the series of arctangent and of its hyperbolic
counterpart. -/
def oddSeries (alternate : Bool) (r : Int) (terms : Nat) : Int :=
  let r2 := mul r r
  ((List.range terms).foldl (fun (acc : Int × Int) k =>
    let t := acc.2 / (2 * k + 1 : Nat)
    (acc.1 + (if alternate && k % 2 = 1 then -t else t), mul acc.2 r2)) (0, r)).1

def pi : Int := 16 * oddSeries true (one / 5) 50 - 4 * oddSeries true (one / 239) 20
def ln2 : Int := 2 * oddSeries false (one / 3) 70

/-- `exp x` of a small argument. -/
def exp (x : Int) : Int :=
  ((List.range 60).foldl (fun (acc : Int × Int) k =>
    let t := mul acc.2 x / (k + 1 : Nat)
    (acc.1 + t, t)) (one, one)).1

/-- The natural logarithm of a positive fraction. -/
def ln (num den : Nat) : Int :=
  let y : Nat := num * 2 ^ 200 / den
  let l : Int := (y.log2 : Int) - 200
  let z : Int := if l ≥ 0 then (y : Int) / 2 ^ l.toNat else (y : Int) * 2 ^ (-l).toNat
  l * ln2 + 2 * oddSeries false (div (z - one) (z + one)) 70

/-- Values smaller than `2^-100` are a rounding of an exact zero. -/
def snap (x : Int) : Int := if x.natAbs < 2 ^ 100 then 0 else x

/-- Cosine and sine of an angle in `[0, 2 pi]`. -/
def cosSin (a : Int) : Int × Int :=
  let r := (List.range 100).foldl (fun (acc : (Int × Int) × Int) k =>
    let t := acc.2
    let c := if k % 4 = 0 then acc.1.1 + t else if k % 4 = 2 then acc.1.1 - t else acc.1.1
    let s := if k % 4 = 1 then acc.1.2 + t else if k % 4 = 3 then acc.1.2 - t else acc.1.2
    ((c, s), mul t a / (k + 1 : Nat))) (((0, 0) : Int × Int), one)
  (snap r.1.1, snap r.1.2)

/-- Cosine and sine of `2 pi p / q`. -/
def turn (p q : Nat) : Int × Int := cosSin (2 * pi * (p % q : Nat) / (q : Nat))

/-- The nearest binary32. -/
def toF32 (x : Int) : F32 := F32.rne false ⟨x, -200⟩

/-- A finite binary32 value in fixed point. -/
def ofF32 (x : F32) : Int :=
  let v := F32.val x
  if v.e ≥ -200 then v.m * 2 ^ (v.e + 200).toNat else v.m / 2 ^ (-200 - v.e).toNat

end Real'

/-- The binary32 nearest to a fraction. -/
def f32Ratio (neg : Bool) (num den : Nat) : F32 :=
  if num = 0 then F32.posZero else F32.ofMagCode neg (shapeB32.magCode .nearestEven num den 0)

/-- `rne32(x / d)` of an integer `x`. -/
def f32IntRatio (x : Int) (den : Nat) : F32 := f32Ratio (x < 0) x.natAbs den

/-! ### The queue descriptor (07 Table 7.2) -/

def qModality (d : Blob) : Nat := d.bits 0 4
def qFormat (d : Blob) : Nat := d.bits 4 4
def qBatchSize (d : Blob) : Nat := d.bits 8 16
def qReserveMin (d : Blob) : Nat := d.bits 24 16
def qCreditCap (d : Blob) : Nat := d.bits 40 16
def qQuantum (d : Blob) : Nat := d.bits 56 8
def qAugBase (d : Blob) : Nat := d.bits 64 16
def qAug (d : Blob) (k : Nat) : Bool := d.bits (80 + k) 1 = 1
def qScale (d : Blob) : F32 := BitVec.ofNat 32 (d.bits 96 32)
def qMem (d : Blob) : Nat := d.bits 128 44
def qMib (d : Blob) : Nat := d.bits 192 32
def qLoader (d : Blob) : Nat := d.bits 224 32
def orDefault (v d : Nat) : Nat := if v = 0 then d else v
def qMaxW (d : Blob) : Nat := orDefault (d.bits 256 16) 8192
def qMaxH (d : Blob) : Nat := orDefault (d.bits 272 16) 8192
def qMaxFrames (d : Blob) : Nat := orDefault (d.bits 288 32) 36000
def qRatio (d : Blob) : Nat := orDefault (d.bits 320 8) 16
def qMaxAudio (d : Blob) : Nat := orDefault (d.bits 336 16) 600
def qMaxText (d : Blob) : Nat := orDefault (d.bits 352 16) 16384
def qOutW (d : Blob) : Nat := d.bits 384 16
def qOutH (d : Blob) : Nat := d.bits 400 16
def qCropW (d : Blob) : Nat := d.bits 416 16
def qCropH (d : Blob) : Nat := d.bits 432 16
def qFrameStep (d : Blob) : Nat := max (d.bits 448 8) 1
def qFrameLimit (d : Blob) : Nat := d.bits 456 16
def qMatrix (d : Blob) : Nat := d.bits 472 2
def qMatrixForce (d : Blob) : Bool := d.bits 474 1 = 1
def qGray (d : Blob) : Bool := d.bits 475 1 = 1
/-- ROI binds on a video queue only (07 R260). -/
def qRoi (d : Blob) : Bool := qModality d = 0 && d.bits 476 1 = 1
def qLag (d : Blob) : Nat := d.bits 477 3 + 1
def qRoiMax (d : Blob) : Nat := d.bits 480 4
def qRoiW (d : Blob) : Nat := d.bits 488 16
def qRoiH (d : Blob) : Nat := d.bits 504 16
def qMean (d : Blob) (c : Nat) : F32 := BitVec.ofNat 32 (d.bits (544 + 32 * c) 32)
def qNscale (d : Blob) (c : Nat) : F32 := BitVec.ofNat 32 (d.bits (640 + 32 * c) 32)
def qFlip (d : Blob) : Nat := d.bits 736 32
def qBright (d : Blob) : F32 := BitVec.ofNat 32 (d.bits 768 32)
def qContrast (d : Blob) : F32 := BitVec.ofNat 32 (d.bits 800 32)
def qRateOut (d : Blob) : Nat := d.bits 384 32
def qChannelMode (d : Blob) : Nat := d.bits 416 2
def qChannelSel (d : Blob) : Nat := d.bits 418 3
def qLogmel (d : Blob) : Bool := d.bits 421 1 = 1
def qNwin (d : Blob) : Nat := d.bits 432 16
def qHop (d : Blob) : Nat := d.bits 448 16
def qNfft (d : Blob) : Nat := d.bits 464 16
def qNmel (d : Blob) : Nat := d.bits 480 8
def qFmin (d : Blob) : F32 := BitVec.ofNat 32 (d.bits 512 32)
def qFmax (d : Blob) : F32 := BitVec.ofNat 32 (d.bits 544 32)
def qFloor (d : Blob) : F32 := BitVec.ofNat 32 (d.bits 576 32)
def qGainDb (d : Blob) : F32 := BitVec.ofNat 32 (d.bits 608 32)
def qTimeLen (d : Blob) : Nat := d.bits 640 32
def qMergeAddr (d : Blob) : Nat := d.bits 384 44
def qMergeCount (d : Blob) : Nat := d.bits 432 19
def qUtf8Reject (d : Blob) : Bool := d.bits 451 1 = 1
def qPresplit (d : Blob) : Nat := d.bits 452 2
def qMaxTokens (d : Blob) : Nat := d.bits 464 32
def qBos (d : Blob) : Nat := d.bits 496 19
def qBosEn (d : Blob) : Bool := d.bits 515 1 = 1
def qEos (d : Blob) : Nat := d.bits 516 19
def qEosEn (d : Blob) : Bool := d.bits 535 1 = 1

/-! ### Augmentation draws (07 R285, Table 7.8) -/

/-- Word `k` of the generator for augmentation `op` of a sample. -/
def augWord (d : Blob) (seed : BitVec 64) (op idx k : Nat) : Nat :=
  bits (gen seed (BitVec.ofNat 32 (qAugBase d * 65536 + op)) (BitVec.ofNat 64 idx)).toNat (32 * k) 32

/-- `rne32(2 u(w) - 1)`. -/
def augUnit (w : Nat) : F32 := F32.sub (f32Ratio false (w / 256) (2 ^ 23)) F32.one

/-! ### Pictures (07 R272, R273) -/

/-- An image: rows of pixels of one channel. -/
abbrev Grid := List (List F32)

/-- Kr and Kb of 07 Table 7.7 in units of 1/10000. -/
def matrixK (m : Nat) : Nat × Nat :=
  match m with
  | 0 => (2990, 1140)
  | 1 => (2126, 722)
  | _ => (2627, 593)

/-- The constants a, b, c, d of 07 Table 7.7. -/
def matrixABCD (m : Nat) : F32 × F32 × F32 × F32 :=
  let (kr, kb) := matrixK m
  let kg := 10000 - kr - kb
  let a := 2 * (10000 - kr)
  let d := 2 * (10000 - kb)
  (f32Ratio false a 10000, f32Ratio false (kb * d) (kg * 10000), f32Ratio false (kr * a) (kg * 10000),
   f32Ratio false d 10000)

/-- The sample of plane `k` at a pixel: each sample is repeated over the pixels that it covers. -/
def planeAt (f : Frame) (k x y : Nat) : Option Nat :=
  (f.planes[k]?).bind fun p =>
    let fx := (f.w + p.w - 1) / max p.w 1
    let fy := (f.h + p.h - 1) / max p.h 1
    p.px[y / max fy 1 * p.w + x / max fx 1]?

/-- `Y'` and `C'` of a sample. -/
def lumaOf (f : Frame) (v : Nat) : F32 :=
  let k : Nat := 2 ^ (f.depth - 8)
  if f.full then f32Ratio false v (2 ^ f.depth - 1) else f32IntRatio ((v : Int) - 16 * k) (219 * k)

def chromaOf (f : Frame) (v : Nat) : F32 :=
  let k : Nat := 2 ^ (f.depth - 8)
  if f.full then f32IntRatio ((v : Int) - 2 ^ (f.depth - 1)) (2 ^ f.depth - 1)
  else f32IntRatio ((v : Int) - 128 * k) (224 * k)

/-- The grid of a function of the pixel. -/
def gridOf (w h : Nat) (g : Nat → Nat → F32) : Grid := (List.range h).map fun y => (List.range w).map fun x => g x y

/-- A decoded frame as RGB, or as luma alone (07 R272). A picture without chroma has neutral chroma. -/
def toRgb (d : Blob) (f : Frame) : List Grid :=
  let m := if qMatrixForce d then qMatrix d else f.matrix.getD (qMatrix d)
  if f.rgb then
    let ch (k : Nat) : Grid := gridOf f.w f.h fun x y => f32Ratio false ((planeAt f k x y).getD 0) (2 ^ f.depth - 1)
    if qGray d then
      let (kr, kb) := matrixK (qMatrix d)
      let r := ch 0; let g := ch 1; let b := ch 2
      let at' (p : Grid) (x y : Nat) : F32 := (p.getD y []).getD x F32.posZero
      [gridOf f.w f.h fun x y =>
        F32.add (F32.add (F32.mul (f32Ratio false kr 10000) (at' r x y))
          (F32.mul (f32Ratio false (10000 - kr - kb) 10000) (at' g x y)))
          (F32.mul (f32Ratio false kb 10000) (at' b x y))]
    else [ch 0, ch 1, ch 2]
  else
    let yv (x y : Nat) : F32 := lumaOf f ((planeAt f 0 x y).getD 0)
    let cv (k x y : Nat) : F32 := ((planeAt f k x y).map (chromaOf f)).getD F32.posZero
    if qGray d then [gridOf f.w f.h yv]
    else
      let (a, b, c, e) := matrixABCD m
      [gridOf f.w f.h fun x y => F32.add (yv x y) (F32.mul a (cv 2 x y)),
       gridOf f.w f.h fun x y => F32.sub (F32.sub (yv x y) (F32.mul b (cv 1 x y))) (F32.mul c (cv 2 x y)),
       gridOf f.w f.h fun x y => F32.add (yv x y) (F32.mul e (cv 1 x y))]

def lerp (p q f : F32) : F32 := F32.add p (F32.mul f (F32.sub q p))

/-- Floor of a finite binary32 value. -/
def f32Floor (x : F32) : Int :=
  let v := F32.val x
  if v.e ≥ 0 then v.m * 2 ^ v.e.toNat else v.m / 2 ^ (-v.e).toNat

def srcPos (o nIn nOut : Nat) : Nat × Nat × F32 :=
  let half : F32 := 0x3F000000
  let r := f32Ratio false nIn nOut
  let s0 := F32.sub (F32.mul (F32.add (F32.ofNat o) half) r) half
  let s := F32.min (F32.max s0 F32.posZero) (F32.ofNat (nIn - 1))
  let i0 := (f32Floor s).toNat
  (i0, min (i0 + 1) (nIn - 1), F32.sub s (F32.ofNat i0))

def resizeGrid (p : Grid) (w h ow oh : Nat) : Grid :=
  let xs := (List.range ow).map fun x => srcPos x w ow
  let t := p.map fun row => xs.map fun q => lerp (row.getD q.1 F32.posZero) (row.getD q.2.1 F32.posZero) q.2.2
  (List.range oh).map fun y =>
    let q := srcPos y h oh
    ((t.getD q.1 []).zip (t.getD q.2.1 [])).map fun v => lerp v.1 v.2 q.2.2

def cropGrid (p : Grid) (x0 y0 w h : Nat) : Grid := ((p.drop y0).take h).map fun r => (r.drop x0).take w

/-- A shaped picture: its width, height and channels, and its values with the channel innermost. -/
structure Shaped where
  w : Nat
  h : Nat
  c : Nat
  vals : List F32
  deriving DecidableEq, Repr

/-- Interleave the channels of an image. -/
def interleave (ps : List Grid) (w h : Nat) : List F32 :=
  (List.range h).flatMap fun y => (List.range w).flatMap fun x => ps.map fun p => (p.getD y []).getD x F32.posZero

/-- `shape` of 07 R273 up to its conversion; `crop` gives a region instead (R275), `noResize` leaves out the
resize. -/
def shapePicture (d : Blob) (seed : BitVec 64) (idx : Nat) (noResize : Bool) (crop : Option (Nat × Nat × Nat × Nat))
    (f : Frame) : Shaped :=
  let img0 := toRgb d f
  let (img1, w1, h1) := match crop with
    | some (x0, y0, w, h) => (img0.map fun p => cropGrid p x0 y0 w h, w, h)
    | none =>
      if qCropW d ≠ 0 && qCropH d ≠ 0 then
        let cw := min (qCropW d) f.w
        let ch := min (qCropH d) f.h
        let nx := f.w - cw + 1
        let ny := f.h - ch + 1
        let x0 := if qAug d 0 then augWord d seed 1 idx 0 * nx / 2 ^ 32 else (f.w - cw) / 2
        let y0 := if qAug d 0 then augWord d seed 1 idx 1 * ny / 2 ^ 32 else (f.h - ch) / 2
        (img0.map fun p => cropGrid p x0 y0 cw ch, cw, ch)
      else (img0, f.w, f.h)
  let img2 := if qAug d 1 && augWord d seed 2 idx 0 < qFlip d then img1.map fun p => p.map List.reverse else img1
  let (img3, w3, h3) := if qOutW d ≠ 0 && qOutH d ≠ 0 && !noResize then
      (img2.map fun p => resizeGrid p w1 h1 (qOutW d) (qOutH d), qOutW d, qOutH d) else (img2, w1, h1)
  let img4 := if qAug d 2 then
      let bo := F32.mul (qBright d) (augUnit (augWord d seed 3 idx 0))
      let co := F32.add F32.one (F32.mul (qContrast d) (augUnit (augWord d seed 3 idx 1)))
      let half : F32 := 0x3F000000
      img3.map fun p => p.map fun r => r.map fun v => F32.add (F32.add (F32.mul (F32.sub v half) co) half) bo
    else img3
  let img5 := img4.zipIdx.map fun p => p.1.map fun r => r.map fun v => F32.div (F32.sub v (qMean d p.2)) (qNscale d p.2)
  ⟨w3, h3, img5.length, interleave img5 w3 h3⟩

/-! ### Sound (07 R270, R278 to R280) -/

/-- Integer or binary32 PCM by channel (07 R270, Table 7.4). -/
def pcmChannels (codec channels : Nat) (p : Blob) : List (List F32) :=
  let size := match codec with | 7 => 2 | 8 => 3 | _ => 4
  let n := p.len / size / max channels 1
  (List.range channels).map fun c => (List.range n).map fun i =>
    let v := p.bits (8 * size * (i * channels + c)) (8 * size)
    if codec = 10 then BitVec.ofNat 32 v
    else
      let x : Int := if v ≥ 2 ^ (8 * size - 1) then (v : Int) - 2 ^ (8 * size) else v
      f32IntRatio x (2 ^ (8 * size - 1))

/-- The channels kept (07 R278 step 1). -/
def mixChannels (d : Blob) (chs : List (List F32)) : List (List F32) :=
  match qChannelMode d with
  | 0 =>
    let n := (chs.headD []).length
    let inv := f32Ratio false 1 (max chs.length 1)
    [(List.range n).map fun i =>
      let xs := chs.map fun c => c.getD i F32.posZero
      F32.mul ((xs.drop 1).foldl F32.add (xs.headD F32.posZero)) inv]
  | 1 => [chs.getD (qChannelSel d) []]
  | _ => chs

/-- `i0` to 20 terms of the square of half its argument. -/
def besselI0 (q : Int) : Int :=
  ((List.range 20).foldl (fun (acc : Int × Int) k =>
    (acc.1 + acc.2, Real'.mul acc.2 q / ((k + 1) * (k + 1) : Nat))) (0, Real'.one)).1

/-- `kaiser` of 07 R279: beta 8.0, so the square of half the argument is `16 (1 - t^2)`. -/
def kaiser (t : F32) : F32 :=
  if F32.gt (F32.abs t) F32.one then F32.posZero
  else
    let x := Real'.ofF32 t
    Real'.toF32 (Real'.div (besselI0 (16 * (Real'.one - Real'.mul x x))) (besselI0 (16 * Real'.one)))

/-- `sinc(y) = sin(pi y) / (pi y)`. -/
def sincFix (y : F32) : Int :=
  let v := Real'.ofF32 y
  if v = 0 then Real'.one
  else Real'.div (Real'.cosSin (Real'.mul Real'.pi (v % (2 * Real'.one)))).2 (Real'.mul Real'.pi v)

/-- `coef` of 07 R279. -/
def resampleCoef (p : Nat) (k : Int) (c : F32) : F32 :=
  let kf : F32 := F32.rne false ⟨k, 0⟩
  let d := F32.sub kf (f32Ratio false p 4096)
  let y := F32.mul c d
  let s := F32.rne false ⟨(F32.val c).m * sincFix y, (F32.val c).e - 200⟩
  F32.mul s (kaiser (F32.div d (F32.ofNat 16)))

/-- `resample` of 07 R279. -/
def resample (s : List F32) (fi fo : Nat) : List F32 :=
  let n := s.length
  let c := F32.min F32.one (f32Ratio false fo fi)
  (List.range (n * fo / fi)).map fun j =>
    let q := j * fi
    let base := q / fo
    let p := q % fo * 4096 / fo
    (List.range 32).foldl (fun acc (i : Nat) =>
      let k : Int := (i : Int) - 15
      let x : Int := (base : Int) + k
      let v := if 0 ≤ x ∧ x < n then s.getD x.toNat F32.posZero else F32.posZero
      F32.add acc (F32.mul v (resampleCoef p k c))) F32.posZero

/-- GAIN and TIME_CROP (07 Table 7.8). -/
def augmentSound (d : Blob) (seed : BitVec 64) (idx : Nat) (s : List F32) : List F32 :=
  let s1 := if qAug d 3 then
      let g := F32.mul (qGainDb d) (augUnit (augWord d seed 4 idx 0))
      let k := F32.exp2 (F32.mul g 0x3E2A152D#32)
      s.map fun x => F32.mul x k
    else s
  let n := s1.length
  if qAug d 4 && n > qTimeLen d then
    (s1.drop (augWord d seed 5 idx 0 * (n - qTimeLen d + 1) / 2 ^ 32)).take (qTimeLen d)
  else s1

/-- Elements at even and at odd places. -/
def splitEvenOdd {α : Type} : List α → List α × List α
  | [] => ([], [])
  | [x] => ([x], [])
  | x :: y :: t => let r := splitEvenOdd t; (x :: r.1, y :: r.2)

/-- The twiddle factor `exp(-2 pi i k / n)`. -/
def twiddle (k n : Nat) : F32 × F32 := let r := Real'.turn k n; (Real'.toF32 r.1, Real'.toF32 (-r.2))

/-- The radix-2 decimation-in-time FFT in binary32 (07 R280). -/
def fft : Nat → List (F32 × F32) → List (F32 × F32)
  | 0, xs => xs
  | f + 1, xs =>
    match xs with
    | [] => []
    | [x] => [x]
    | _ =>
      let (e, o) := splitEvenOdd xs
      let ev := fft f e
      let od := fft f o
      let n := xs.length
      let ts := od.zipIdx.map fun q =>
        let w := twiddle q.2 n
        (F32.sub (F32.mul w.1 q.1.1) (F32.mul w.2 q.1.2), F32.add (F32.mul w.1 q.1.2) (F32.mul w.2 q.1.1))
      ((ev.zip ts).map fun q => (F32.add q.1.1 q.2.1, F32.add q.1.2 q.2.2)) ++
        (ev.zip ts).map fun q => (F32.sub q.1.1 q.2.1, F32.sub q.1.2 q.2.2)

/-- `1 + f / 700` of a frequency, as a logarithm. -/
def melLog (f : F32) : Int :=
  let v := Real'.ofF32 f
  Real'.ln (700 * 2 ^ 200 + v.toNat) (700 * 2 ^ 200)

/-- Edge `i` of the mel filters: `f_i` with `m_i` evenly between `mel(F_MIN)` and `mel(F_MAX)`. -/
def melEdge (d : Blob) (i : Nat) : Int :=
  let a := melLog (qFmin d)
  let b := melLog (qFmax d)
  let l := a + (b - a) * (i : Int) / ((qNmel d + 1 : Nat) : Int)
  let k := l / Real'.ln2
  700 * ((Real'.exp (l - k * Real'.ln2)) * 2 ^ k.toNat - Real'.one)

/-- Weights of filter `i` (from 0) by bin. -/
def melWeights (d : Blob) (i : Nat) : List F32 :=
  let f0 := melEdge d i
  let f1 := melEdge d (i + 1)
  let f2 := melEdge d (i + 2)
  (List.range (qNfft d / 2 + 1)).map fun k =>
    let f : Int := Real'.one * ((k * qRateOut d : Nat) : Int) / ((qNfft d : Nat) : Int)
    if f0 ≤ f ∧ f ≤ f1 then Real'.toF32 (Real'.div (f - f0) (f1 - f0))
    else if f1 < f ∧ f ≤ f2 then Real'.toF32 (Real'.div (f2 - f) (f2 - f1))
    else F32.posZero

/-- The log-mel elements of a sequence (07 R280): T frames of N_MEL energies. -/
def logMel (d : Blob) (x : List F32) : Nat × List F32 :=
  let frames := (x.length + qHop d - 1) / max (qHop d) 1
  let hann := (List.range (qNwin d)).map fun i =>
    Real'.toF32 ((Real'.one - (Real'.turn i (qNwin d)).1) / 2)
  let filters := (List.range (qNmel d)).map (melWeights d)
  (frames, (List.range frames).flatMap fun t =>
    let win := hann.zipIdx.map fun q => F32.mul (x.getD (t * qHop d + q.2) F32.posZero) q.1
    let ins := (win ++ List.replicate (qNfft d - qNwin d) F32.posZero).map fun v => (v, F32.posZero)
    let ps := ((fft 13 ins).take (qNfft d / 2 + 1)).map fun z => F32.add (F32.mul z.1 z.1) (F32.mul z.2 z.2)
    filters.map fun ws => F32.max (F32.sumA40 ((ws.zip ps).map fun q => F32.mul q.1 q.2)) (qFloor d))

/-- The tensors of a decoded sound, by channel (07 R278). -/
def shapeSound (d : Blob) (seed : BitVec 64) (idx rateIn : Nat) (chs : List (List F32)) : List Shaped :=
  (mixChannels d chs).map fun s =>
    let s1 := if qRateOut d ≠ 0 && qRateOut d ≠ rateIn then resample s rateIn (qRateOut d) else s
    let s2 := augmentSound d seed idx s1
    if qLogmel d then let (t, vs) := logMel d s2; ⟨t, 1, qNmel d, vs⟩ else ⟨s2.length, 1, 1, s2⟩

/-! ### Text (07 R281 to R284) -/

/-- RFC 3629: continuation bytes after a lead byte, and the range of the first. -/
def utf8Lead (b : Nat) : Nat × Nat × Nat :=
  if 0xC2 ≤ b && b ≤ 0xDF then (1, 0x80, 0xBF)
  else if b = 0xE0 then (2, 0xA0, 0xBF)
  else if b = 0xED then (2, 0x80, 0x9F)
  else if 0xE1 ≤ b && b ≤ 0xEF then (2, 0x80, 0xBF)
  else if b = 0xF0 then (3, 0x90, 0xBF)
  else if 0xF1 ≤ b && b ≤ 0xF3 then (3, 0x80, 0xBF)
  else if b = 0xF4 then (3, 0x80, 0x8F)
  else (0, 0, 0)

/-- Valid continuation bytes at the head of a list, at most `n`, the first in `[lo, hi]`. -/
def continuation : Nat → Nat → Nat → List Nat → Nat
  | 0, _, _, _ => 0
  | _, _, _, [] => 0
  | n + 1, lo, hi, b :: t => if lo ≤ b && b ≤ hi then 1 + continuation n 0x80 0xBF t else 0

/-- Code points as their bytes, each maximal invalid subpart replaced by EF BF BD, and how many were replaced. -/
def utf8Points : Nat → List Nat → List (List Nat) × Nat
  | 0, _ => ([], 0)
  | _, [] => ([], 0)
  | f + 1, b :: t =>
    if b < 0x80 then let r := utf8Points f t; ([b] :: r.1, r.2)
    else
      let (n, lo, hi) := utf8Lead b
      let k := continuation n lo hi t
      let r := utf8Points f (t.drop k)
      if n ≠ 0 && k = n then ((b :: t.take k) :: r.1, r.2) else ([0xEF, 0xBF, 0xBD] :: r.1, r.2 + 1)

/-- The class of a code point: 0 L, 1 D, 2 S, 3 O (07 R282). -/
def charClass (p : List Nat) : Nat :=
  match p with
  | [b] =>
    if (0x41 ≤ b && b ≤ 0x5A) || (0x61 ≤ b && b ≤ 0x7A) then 0
    else if 0x30 ≤ b && b ≤ 0x39 then 1
    else if b = 0x09 || b = 0x0A || b = 0x0D || b = 0x20 then 2
    else 3
  | _ => 0

/-- Runs of one class. -/
def classRuns : List (List Nat) → List (Nat × List (List Nat))
  | [] => []
  | p :: t =>
    match classRuns t with
    | (k, r) :: u => if charClass p = k then (k, p :: r) :: u else (charClass p, [p]) :: (k, r) :: u
    | [] => [(charClass p, [p])]

/-- A final 20h of an S run leaves it and begins the run that follows; `carry` says that the run before gave one. -/
def moveSpaces (carry : Bool) : List (Nat × List (List Nat)) → List (List (List Nat))
  | [] => []
  | (k, r) :: t =>
    let run := if carry then [0x20] :: r else r
    if k = 2 && !t.isEmpty && run.getLast? = some [0x20] then
      (if run.length = 1 then [] else [run.dropLast]) ++ moveSpaces true t
    else run :: moveSpaces false t

/-- The rank of a pair. -/
def mergeRank (ms : List (Nat × Nat)) (a b : Nat) : Option Nat := ms.findIdx? fun m => m.1 = a && m.2 = b

def bestRank (ms : List (Nat × Nat)) : List Nat → Option Nat
  | a :: b :: t =>
    match mergeRank ms a b, bestRank ms (b :: t) with
    | some r, some q => some (min r q)
    | some r, none => some r
    | none, q => q
  | _ => none

/-- One pass of merges of one rank, left to right. -/
def mergeOnce (best : Nat) (pair : Nat × Nat) : Nat → List Nat → List Nat
  | 0, t => t
  | f + 1, a :: b :: t =>
    if (a, b) = pair then (256 + best) :: mergeOnce best pair f t else a :: mergeOnce best pair f (b :: t)
  | _, t => t

/-- `bpe` of 07 R284; each pass shortens the piece. -/
def bpe (ms : List (Nat × Nat)) : Nat → List Nat → List Nat
  | 0, t => t
  | f + 1, t =>
    match bestRank ms t with
    | none => t
    | some r => bpe ms f (mergeOnce r (ms.getD r (0, 0)) t.length t)

/-- The bytes of a text after its byte-order mark. -/
def dropBom (l : List Nat) : List Nat :=
  match l with
  | 0xEF :: 0xBB :: 0xBF :: t => t
  | _ => l

/-- Token identifiers of a text payload and how many subparts were replaced (07 R281, R282, R284). -/
def textTokens (d : Blob) (ms : List (Nat × Nat)) (p : Blob) : List Nat × Nat :=
  let l := dropBom p.bytes
  let (points, bad) := utf8Points (l.length + 1) l
  let pieces := if qPresplit d = 1 then moveSpaces false (classRuns points) else [points]
  (pieces.flatMap fun q => let b := q.flatten; bpe ms b.length b, bad)

/-- BOS, truncation and EOS (07 R284), and whether tokens were dropped. -/
def placeTokens (d : Blob) (ids : List Nat) : List Nat × Bool :=
  let t0 := (if qBosEn d then [qBos d] else []) ++ ids
  let eos := boolNat (qEosEn d)
  let cut : Bool := qMaxTokens d ≠ 0 && t0.length > qMaxTokens d - eos
  let t1 := if cut then t0.take (qMaxTokens d - eos) else t0
  (t1 ++ (if qEosEn d then [qEos d] else []), cut)

/-! ### Pre-decoded pictures (07 Table 7.4) -/

/-- Frame `k` of a pre-decoded payload. -/
def rawFrame (codec w h k : Nat) (p : Blob) : Frame :=
  let cw := (w + 1) / 2
  let ch := (h + 1) / 2
  if codec = 0x12 then
    let o := 3 * w * h * k
    let pl (c : Nat) : Plane := ⟨w, h, (List.range (w * h)).map fun i => p.byte (o + 3 * i + c)⟩
    ⟨w, h, [pl 0, pl 1, pl 2], 8, true, none, true, false⟩
  else
    let bpp := if codec = 0x11 then 2 else 1
    let o := (w * h + 2 * cw * ch) * k
    let px (from' n : Nat) : List Nat := (List.range n).map fun i => p.bits (8 * bpp * (o + from' + i)) (8 * bpp)
    ⟨w, h, [⟨w, h, px 0 (w * h)⟩, ⟨cw, ch, px (w * h) (cw * ch)⟩, ⟨cw, ch, px (w * h + cw * ch) (cw * ch)⟩],
     if codec = 0x11 then 10 else 8, false, none, false, false⟩

def rawFrameBytes (codec w h : Nat) : Nat :=
  if codec = 0x12 then 3 * w * h
  else (w * h + 2 * ((w + 1) / 2) * ((h + 1) / 2)) * (if codec = 0x11 then 2 else 1)

end Sys2Proof.Machine
end

