-- ==== Sys2Proof/Machine/Intake.lean ====
section
/-!
DEFINITION. Intake (07 R256 to R294, R587): sample records and their checks, decoding, tensors and manifests, the
reserve pool, credit records, regions of interest, and the opening and closing of queues.
-/

namespace Sys2Proof.Machine

/-! ### Records of complexes and queues -/

def State.complex (s : State) (x : Nat) : Complex := tgetD s.media x {}
def State.modComplex (s : State) (x : Nat) (f : Complex → Complex) : State :=
  { s with media := tset s.media x (f (s.complex x)) }
def State.queue (s : State) (x q : Nat) : Queue := tgetD (s.complex x).queues q {}
def State.modQueue (s : State) (x q : Nat) (f : Queue → Queue) : State :=
  s.modComplex x fun c => { c with queues := tset c.queues q (f (tgetD c.queues q {})) }

/-- The domains of a complex: decoders, and streams (01 Table 1.9). -/
def decodeDomain (x : Nat) : Nat := if x = 0 then 34 else 74
def streamsDomain (x : Nat) : Nat := if x = 0 then 35 else 75

/-! ### Sample records (07 Tables 7.3, 7.4) -/

def Sample.field (s : Sample) (lo w : Nat) : Nat := bits s.hdr.toNat lo w
def Sample.index (s : Sample) : Nat := s.field 0 64
def Sample.batch (s : Sample) : Nat := s.field 64 32
def Sample.pos (s : Sample) : Nat := s.field 96 16
def Sample.reserve (s : Sample) : Bool := s.field 112 1 = 1
def Sample.codec (s : Sample) : Nat := s.field 120 8
def Sample.declW (s : Sample) : Nat := s.field 128 16
def Sample.declH (s : Sample) : Nat := s.field 144 16
def Sample.declFrames (s : Sample) : Nat := s.field 160 32
def Sample.declChannels (s : Sample) : Nat := s.field 192 4
def Sample.bytes (s : Sample) : Nat := s.field 224 32
def Sample.rateIn (s : Sample) : Nat := s.field 256 32
def Sample.check (s : Sample) : Nat := s.field 288 32

/-- The payload of a record: its PAYLOAD_BYTES bytes. -/
def Sample.data (s : Sample) : Blob := ⟨s.bytes, bits s.payload.val 0 (8 * s.bytes)⟩

/-- The codecs of a modality (07 Table 7.4). -/
def codecsOf (modality : Nat) : List Nat :=
  match modality with
  | 0 => [1, 2, 3, 0x10, 0x11, 0x12]
  | 1 => [4, 0x10, 0x11, 0x12]
  | 2 => [5, 6, 7, 8, 9, 0xA]
  | _ => [0xB, 0x13]

/-- Pre-decoded samples: CODEC 0Ah and 10h to 13h. -/
def predecoded (codec : Nat) : Bool := codec = 0xA || (0x10 ≤ codec && codec ≤ 0x13)

/-- The credits that a sample costs (07 R286). -/
def sampleCost (modality : Nat) (s : Sample) : Nat :=
  if predecoded s.codec then 0
  else
    let units := match modality with
      | 0 | 1 => s.declW * s.declH * s.declFrames
      | 2 => s.declFrames * s.declChannels
      | _ => s.bytes
    max 1 ((units + 2 ^ 20 - 1) / 2 ^ 20)

/-- The working memory a sample needs, in MiB (07 R587, Table 7.14). -/
def sampleNeed (d : Blob) (s : Sample) : Nat :=
  let px := s.declW * s.declH
  let ow := if qModality d ≤ 1 then qOutW d * qOutH d else 0
  let f1 := 12 * max px ow
  let f := if qRoi d then 2 * f1 else f1
  let n := match s.codec with
    | 1 | 2 | 3 => s.bytes + 51 * px + f
    | 4 => s.bytes + 3 * px + f
    | 0x10 | 0x11 | 0x12 => s.bytes + f
    | 0xB => 16 * s.bytes + 8
    | 0x13 => s.bytes + 8
    | _ =>
      let ri := max s.rateIn 1
      let ro := orDefault (qRateOut d) ri
      s.bytes + 4 * s.declFrames * s.declChannels * (2 + (ro + ri - 1) / ri)
  (n + 2 ^ 20 - 1) / 2 ^ 20

/-- MiB of the working region that samples hold. -/
def Queue.held (q : Queue) : Nat := (q.positions.map fun p => p.cand.heldMib.getD 0).sum + (q.pool.map fun r => r.heldMib.getD 0).sum

/-- The sample with its working memory taken, where it fits the free part of the region (07 R266, R587). -/
def Queue.room (q : Queue) (s : Sample) : Sample :=
  let n := sampleNeed q.desc s
  if s.heldMib.isNone && n + q.held ≤ qMib q.desc then { s with heldMib := some n } else s

/-- Causes of 07 Table 7.5. -/
def causeCrc : Nat := 1
def causeUnsupported : Nat := 2
def causeMalformed : Nat := 3
def causeTruncated : Nat := 4
def causeMismatch : Nat := 5
def causeImplausible : Nat := 6
def causeUtf8 : Nat := 7
def causeNoRoom : Nat := 9
def causeShape : Nat := 0xA
def causePoisoned : Nat := 0xB

/-- The declared size is implausible (07 R265 step 4). -/
def implausible (d : Blob) (s : Sample) : Bool :=
  match qModality d with
  | 0 | 1 => s.declW > qMaxW d || s.declH > qMaxH d || s.declFrames > qMaxFrames d ||
      (s.codec ≤ 4 && s.declW * s.declH * s.declFrames > 2 ^ qRatio d * s.bytes)
  | 2 => s.declFrames > qMaxAudio d * s.rateIn || s.declChannels = 0 || s.declChannels > 8
  | _ => s.bytes > qMaxText d * 1024

/-- A compressed stream lies within Table 7.6 and the audio rules (07 R267, R270). -/
def supported (s : Sample) : Bool :=
  let i := s.info
  i.tools.isEmpty && match s.codec with
  | 1 => (i.profile = .constrainedBaseline || i.profile = .main || i.profile = .high) && i.level ≤ 52 && i.depth = 8 &&
      i.chroma = .c420
  | 2 => ((i.profile = .main && i.depth = 8) || (i.profile = .main10 && (i.depth = 8 || i.depth = 10))) &&
      i.level ≤ 61 && (i.chroma = .c420 || i.chroma = .mono) && i.width ≤ 8192 && i.height ≤ 4320
  | 3 => i.profile = .main && i.level ≤ 60 && (i.depth = 8 || i.depth = 10) && (i.chroma = .c420 || i.chroma = .mono)
  | 4 => (i.profile = .baseline || i.profile = .progressive) && i.depth = 8 && (i.components = 1 || (i.components = 3 &&
      (i.chroma = .c444 || i.chroma = .c422 || i.chroma = .c440 || i.chroma = .c420)))
  | 5 => i.family ≤ 1 && s.rateIn = 48000
  | 6 => 8 ≤ i.depth && i.depth ≤ 24 && i.rate ≤ 192000 && i.channels ≤ 8
  | _ => true

/-- The stream headers agree with the declared values (07 R265 step 6). An Opus stream decodes at 48,000 Hz whatever its
header says of its source's rate. -/
def declaredRight (s : Sample) : Bool :=
  let i := s.info
  match s.codec with
  | 1 | 2 | 3 | 4 => i.width = s.declW && i.height = s.declH
  | 5 => i.channels = s.declChannels
  | 6 => i.channels = s.declChannels && i.rate = s.rateIn
  | _ => true

/-- What the stream headers of a sample give (07 R265 steps 5 and 6): for a compressed stream a defect that ends their
reading, then what is not supported, then the comparison with the declared values; for PCM and pre-decoded samples
whether the payload reaches its end or its first frame. -/
def headerCause (s : Sample) : Nat :=
  match s.codec with
  | 7 | 8 | 9 | 0xA =>
    let size := match s.codec with | 7 => 2 | 8 => 3 | _ => 4
    if s.bytes < size * s.declFrames * s.declChannels then causeTruncated else 0
  | 0x10 | 0x11 | 0x12 => if s.bytes < rawFrameBytes s.codec s.declW s.declH || s.declFrames = 0 ||
      s.declW * s.declH = 0 then causeTruncated else 0
  | 0xB | 0x13 => 0
  | _ =>
    match s.info.defect with
    | some .malformed => causeMalformed
    | some .truncated => causeTruncated
    | none => if !supported s then causeUnsupported else if !declaredRight s then causeMismatch else 0

/-- The checks before decoding in order (07 R265): the cause found, 0 for none, and whether CHECK was compared. -/
def sampleChecks (d : Blob) (s : Sample) : Nat × Bool :=
  if s.poisoned then (causePoisoned, false)
  else if checkValue crc32c s.index s.data ≠ s.check then (causeCrc, true)
  else if !(codecsOf (qModality d)).contains s.codec then (causeShape, true)
  else if implausible d s then (causeImplausible, true)
  else if headerCause s ≠ 0 then (headerCause s, true)
  else if qRoi d && (s.declW < qRoiW d || s.declH < qRoiH d) then (causeShape, true)
  else if sampleNeed d s > qMib d then (causeNoRoom, true)
  else (0, true)

/-! ### Credits (07 R286 to R288) -/

/-- FREE: the capacity less the cost of the compressed samples accepted and not fully decoded. -/
def Queue.free (q : Queue) : Nat := qCreditCap q.desc - (q.positions.map (·.cost)).sum

/-- A credit record (07 Table 7.9). -/
def creditRecord (x n : Nat) (q : Queue) (closed : Bool) : BitVec 128 :=
  BitVec.ofNat 128 (packFields [(n, 8), (x, 1), (0, 7), (q.free, 16), (q.accepted.toNat, 32), (q.seq.toNat, 32),
    (q.pool.length, 16), (boolNat (q.pool.length < qReserveMin q.desc), 1), (boolNat closed, 1)])

/-- A queue sends a credit record to its loader. -/
def sendCredit (s : State) (x n : Nat) (closed : Bool) : State :=
  let q := s.queue x n
  let s1 := s.modComplex x fun c => { c with credits := c.credits ++ [(qLoader q.desc, creditRecord x n q closed)] }
  s1.modQueue x n fun q => { q with seq := q.seq + 1, freed := 0, lastFree := q.free }

/-- 65,536 island cycles have passed since the last record: one is sent if FREE has changed. -/
def creditTimer (s : State) (x n : Nat) : State :=
  let q := s.queue x n
  if q.st = .opened && q.free ≠ q.lastFree then sendCredit s x n false else s

/-! ### Corrupt samples (07 R289) -/

/-- The manifest record of a sample (07 Table 7.10); `kind` 0 PLACED, 1 SKIPPED, 2 PLACED_LATE. -/
def manifestRecord (x n : Nat) (p : Position) (cause kind tensors : Nat) : BitVec 256 :=
  BitVec.ofNat 256 (packFields [(p.cand.index, 64), (p.owner.index, 64), (p.batch, 32), (p.pos, 16), (cause, 8),
    (kind, 2), (boolNat p.cand.reserve, 1), (boolNat (predecoded p.cand.codec), 1), (0, 4), (n, 8), (x, 1), (0, 23),
    (tensors, 32)])

/-- A position's sample is found corrupt: it is counted and skipped, its memory and its credits are free. -/
def corruptPosition (x n : Nat) (q : Queue) (p : Position) (cause : Nat) : Queue × Position :=
  ({ q with
      corrupt := q.corrupt + 1
      implausible := q.implausible + (if cause = causeImplausible then 1 else 0)
      lastCause := BitVec.ofNat 8 cause
      lastCorruptIndex := BitVec.ofNat 64 p.cand.index
      freed := q.freed + p.cost },
   { p with
      phase := .corrupt
      cost := 0
      skips := p.skips ++ [manifestRecord x n p cause 1 0]
      cand := { p.cand with heldMib := none } })

/-- Counts of the check-value unit of a complex (15 Table 15.7). -/
def countCheck (s : State) (x : Nat) (r : Nat × Bool) : State :=
  s.modComplex x fun c => { c with
    recordChecks := c.recordChecks + (if r.2 then 1 else 0)
    recordCheckFails := c.recordCheckFails + (if r.1 = causeCrc then 1 else 0) }

/-! ### Decoded on arrival (07 Table 7.4, R269, R284) -/

/-- What a sample that is decoded on arrival yields. -/
def ownYield (s : Sample) : Decoded :=
  match s.codec with
  | 0x10 | 0x11 | 0x12 =>
    let n := min s.declFrames (s.bytes / max (rawFrameBytes s.codec s.declW s.declH) 1)
    { frames := (List.range n).map fun k => rawFrame s.codec s.declW s.declH k s.data }
  | 7 | 8 | 9 | 0xA => { channels := (pcmChannels s.codec s.declChannels s.data).map (·.take s.declFrames) }
  | _ => {}

/-- The merge table that a queue uses. -/
def queueMerges (s : State) (x : Nat) (q : Queue) : List (Nat × Nat) :=
  (((s.complex x).tables.find? fun t => t.ctx = q.ctx && t.addr = qMergeAddr q.desc &&
    t.merges.length = qMergeCount q.desc).map (·.merges)).getD []

/-- The frames of a sample that are emitted (07 R269). -/
def emittedFrames (d : Blob) (y : Decoded) : List Frame :=
  if qModality d = 0 then
    let fs := (y.frames.zipIdx.filter fun q => q.2 % qFrameStep d = 0).map (·.1)
    if qFrameLimit d = 0 then fs else fs.take (qFrameLimit d)
  else y.frames.take 1

/-- Decoding of the sample at place `i` has ended: its counters, its cost, and whether it is corrupt (07 R268 to
R271, R281, R284). -/
def finishDecode (s : State) (x n i : Nat) : State :=
  let q := s.queue x n
  match q.positions[i]? with
  | none => s
  | some p =>
    let c := p.cand
    let d := q.desc
    let put (s : State) (q : Queue) (p : Position) : State :=
      s.modQueue x n fun _ => { q with positions := q.positions.set i p }
    let px := p.yields.frames.length * c.declW * c.declH
    let sound := (p.yields.channels.map List.length).sum
    let grain := ((emittedFrames d p.yields).filter (·.grain)).length
    let s1 := s.modComplex x fun m => { m with
      pixelsDecoded := m.pixelsDecoded + (if c.codec ≤ 3 then BitVec.ofNat 48 px else 0)
      jpegPixels := m.jpegPixels + (if c.codec = 4 then BitVec.ofNat 48 px else 0)
      audioSamples := m.audioSamples + (if 5 ≤ c.codec && c.codec ≤ 9 then BitVec.ofNat 48 sound else 0)
      textBytes := m.textBytes + (if c.codec = 0xB then BitVec.ofNat 48 c.bytes else 0)
      filmGrain := m.filmGrain + BitVec.ofNat 32 grain }
    let freedQ : Queue := { q with freed := q.freed + p.cost }
    let p0 : Position := { p with phase := .decoded, cost := 0 }
    let bad (cause : Nat) : State := let r := corruptPosition x n q p cause; put s1 r.1 r.2
    match qModality d with
    | 0 =>
      if p.yields.frames.isEmpty || (p.yields.cause ≠ 0 && p.emitted = 0) then
        bad (orDefault p.yields.cause causeTruncated)
      else
        let short : Bool := p.yields.cause = 0 && p.yields.frames.length < c.declFrames
        put s1 { freedQ with shortSamples := freedQ.shortSamples + (if short then 1 else 0) } p0
    | 1 =>
      if p.yields.cause ≠ 0 || p.yields.frames.isEmpty then bad (orDefault p.yields.cause causeTruncated)
      else put s1 freedQ p0
    | 2 =>
      if p.yields.cause ≠ 0 then bad p.yields.cause
      else if qChannelMode d = 1 && qChannelSel d ≥ c.declChannels then bad causeShape
      else put s1 freedQ p0
    | _ =>
      let (ids, repl) := if c.codec = 0x13 then ((List.range (c.bytes / 4)).map fun k => c.data.bits (32 * k) 32, 0)
        else textTokens d (queueMerges s x q) c.data
      if qUtf8Reject d && repl ≠ 0 then bad causeUtf8
      else
        let (toks, cut) := placeTokens d ids
        put s1 { freedQ with
          utf8Replaced := freedQ.utf8Replaced + BitVec.ofNat 32 repl
          textTruncated := freedQ.textTruncated + (if cut then 1 else 0) } { p0 with tokens := toks }

/-- A sample decoded on arrival is ready once it holds its working memory. -/
def arriveDecoded (s : State) (x n i : Nat) : State :=
  match (s.queue x n).positions[i]? with
  | some p =>
    if p.phase = .waiting && predecoded p.cand.codec && p.cand.heldMib.isSome then
      finishDecode (s.modQueue x n fun q => { q with
        positions := q.positions.set i { p with yields := ownYield p.cand } }) x n i
    else s
  | none => s

/-! ### Sample records (07 R263 to R266, R288) -/

/-- A queue stops and its context faults (07 R264, R276, 11 R446). -/
def stopQueue (s : State) (x n : Nat) (name : StopName) : State :=
  contextFault (s.modQueue x n fun q => { q with st := .stopped }) (s.queue x n).ctx ⟨name, none, .intake, 0⟩

/-- A position for a sample just taken, with the result of its checks. -/
def newPosition (owner : Sample) (batch pos : Nat) (cand : Sample) (sub : Bool) (cost : Nat)
    (skips : List (BitVec 256)) : Position :=
  ⟨owner, batch, pos, cand, sub, .waiting, cost, {}, [], 0, 0, skips, false⟩

/-- The checks of the sample at place `i`, its room, and its decoding where it is decoded on arrival. -/
def checkPosition (s : State) (x n i : Nat) : State :=
  let q := s.queue x n
  match q.positions[i]? with
  | none => s
  | some p =>
    let r := sampleChecks q.desc p.cand
    let s1 := countCheck s x r
    if r.1 ≠ 0 then
      let (q1, p1) := corruptPosition x n q p r.1
      s1.modQueue x n fun _ => { q1 with positions := q1.positions.set i p1 }
    else
      let c := q.room p.cand
      arriveDecoded (s1.modQueue x n fun q => { q with positions := q.positions.set i { p with cand := c } }) x n i

/-- A whole sample record reaches queue `n` of a complex. -/
def sampleRecord (s : State) (x : Nat) (hdr : BitVec 512) (payload : Blob) (poisoned : Bool) (info : StreamInfo) :
    State :=
  let smp : Sample := ⟨hdr, payload, poisoned, info, none⟩
  let n := smp.field 320 8
  let q := s.queue x n
  if q.st ≠ .opened then s.modComplex x fun c => { c with closedDrops := c.closedDrops + 1 }
  else
    let count (q : Queue) : Queue := { q with
      accepted := q.accepted + 1
      predecoded := q.predecoded + (if predecoded smp.codec then 1 else 0) }
    if smp.reserve then
      s.modQueue x n fun q => count { q with pool := q.pool ++ [q.room smp] }
    else
      let bad : Bool := smp.pos ≥ qBatchSize q.desc || match q.expect with
        | none => false
        | some e => e ≠ (smp.batch, smp.pos)
      if bad then stopQueue s x n .intakeOrder
      else
        let next := if smp.pos + 1 < qBatchSize q.desc then (smp.batch, smp.pos + 1) else ((smp.batch + 1) % 2 ^ 32, 0)
        let cost := sampleCost (qModality q.desc) smp
        let above : Bool := cost ≠ 0 && cost > q.free && q.free < qCreditCap q.desc
        let s1 := s.modQueue x n fun q => count { q with
          expect := some next
          nextBatch := if q.expect.isNone then smp.batch else q.nextBatch
          creditOverruns := q.creditOverruns + (if above then 1 else 0)
          positions := q.positions ++ [newPosition smp smp.batch smp.pos smp false cost []] }
        checkPosition s1 x n q.positions.length

/-- The oldest reserve sample takes the place of the corrupt sample at the head of the queue (07 R289, R290); an
empty pool makes the substitution wait. -/
def substitution (s : State) (x n : Nat) : State :=
  let q := s.queue x n
  match q.positions, q.pool with
  | p :: t, r :: pool =>
    if q.st ≠ .opened || p.phase ≠ .corrupt then s
    else
      let p1 := newPosition p.owner p.batch p.pos r true (sampleCost (qModality q.desc) r) p.skips
      checkPosition (s.modQueue x n fun q => { q with positions := p1 :: t, pool := pool }) x n 0
  | p :: t, [] =>
    if q.st ≠ .opened || p.phase ≠ .corrupt || p.waited then s
    else s.modQueue x n fun q => { q with
      reserveWaits := q.reserveWaits + 1
      positions := { p with waited := true } :: t }
  | [], _ => s

/-! ### Decoding (07 R256, R266, R291) -/

/-- Video samples decoding at a complex, and audio channels (07 Table 7.12 DECODES_ACTIVE). -/
def decodesActive (c : Complex) (modality : Nat) : Nat :=
  (c.queues.map fun e => if qModality e.2.desc = modality then
    ((e.2.positions.filter fun p => p.phase = .decoding).map fun p =>
      if modality = 2 then p.cand.declChannels else 1).sum else 0).sum

/-- A decoder is free and its domain is on (07 Table 7.1, R256). -/
def decoderFree (s : State) (x : Nat) (modality : Nat) (c : Sample) : Bool :=
  domainOn s (streamsDomain x) &&
  (match modality with
  | 0 => domainOn s (decodeDomain x) && decodesActive (s.complex x) 0 < 256
  | 1 => domainOn s (decodeDomain x)
  | 2 => decodesActive (s.complex x) 2 + c.declChannels ≤ 2048
  | _ => true)

/-- The identifiers of the three components of an RGB JPEG (07 R272). -/
def rgbIds : List Nat := [0x52, 0x47, 0x42]

/-- A decoded frame with its colour description (07 R272): a JPEG is full-range BT.601, or full-range RGB by the
identifiers of its components; a video has the range and matrix of its bitstream. -/
def codecFrame (codec : Nat) (i : StreamInfo) (f : Frame) : Frame :=
  if codec = 4 then
    let rgb : Bool := i.components = 3 && i.ids = rgbIds
    { f with depth := 8, rgb := rgb, full := true, matrix := if rgb then none else some 0 }
  else { f with depth := i.depth, rgb := false, full := i.full, matrix := i.matrix }

/-- What the decoder of a compressed video, image or audio sample gives the queue: at most DECL_FRAMES frames, the error
of a payload that is ignored beyond them left out (07 R269); FLAC's integers as binary32 (R270). -/
def codecYield (c : Sample) (y : Decoded) : Decoded :=
  if c.codec ≤ 4 then
    { frames := (y.frames.take c.declFrames).map (codecFrame c.codec c.info)
      cause := if c.declFrames ≤ y.frames.length then 0 else y.cause }
  else if c.codec = 6 then
    { channels := y.ints.map fun ch => ch.map fun v => f32IntRatio v (2 ^ (c.info.depth - 1)), cause := y.cause }
  else { channels := y.channels, cause := y.cause }

/-- A checked sample takes its working memory and begins decoding. `yields` is what decoding will give, `waited` the
island cycles for which it waited for room. -/
def decodeStart (s : State) (x n i : Nat) (yields : Decoded) (waited : BitVec 48) : State :=
  let q := s.queue x n
  match q.positions[i]? with
  | none => s
  | some p =>
    if q.st ≠ .opened || p.phase ≠ .waiting then s
    else
      let c := q.room p.cand
      let roomed : Queue := if p.cand.heldMib.isNone then { q with roomWait := q.roomWait + waited } else q
      if c.heldMib.isNone then s
      else if predecoded c.codec then
        arriveDecoded (s.modQueue x n fun _ => { roomed with
          positions := roomed.positions.set i { p with cand := c } }) x n i
      else if !decoderFree s x (qModality q.desc) c then s
      else
        let y := if c.codec ≤ 6 then codecYield c yields else ownYield c
        s.modQueue x n fun _ => { roomed with
          positions := roomed.positions.set i { p with cand := c, phase := .decoding, yields := y } }

/-! ### Tensors (07 R269, R274, R275) -/

/-- The stream that output `e` of a queue produces. -/
def queueStream (s : State) (x n e : Nat) : Option (Nat × StreamRec) :=
  (s.ctx (s.queue x n).ctx).image.bind fun im =>
    (im.streams.zipIdx.find? fun p => epKind p.1.producer = 5 && epComplex p.1.producer = x &&
      epChannel p.1.producer = 4 * n + e).map fun p => (p.2, p.1)

/-- No word of an output's stream waits for space. -/
def queueRoom (s : State) (x n e : Nat) : Bool :=
  match queueStream s x n e with
  | some (i, _) => waiting (s.stream (s.queue x n).ctx i) = 0
  | none => true

/-- One tensor leaves output `e` of a queue (07 R274, 05 R187). -/
def queueEmit (s : State) (x n e : Nat) (fmt : Nat) (scale : F32) (t : OutTensor) : State :=
  let q := s.queue x n
  let counted (s : State) : State := s.modQueue x n fun q => { q with emitted := q.emitted + (if e < 2 then 1 else 0) }
  match fmtOf fmt with
  | none => s
  | some f =>
    let st := queueStream s x n e
    let h0 : THdr := ⟨t.length, scale, fmt, t.flags, t.c, t.w, t.h, t.sample, (tgetD q.outs e OutPort.empty).use.toNat⟩
    let share := ((st.bind fun r => stripeMap s q.ctx r.2 h0).getD fun _ => 0)
    let em := emitUse f false ⟨scale, false, false⟩ (fun _ => 0) share { tgetD q.outs e OutPort.empty with outs := [t] }
      (tgetD q.ctrs e EpCtr.zero) t
    let h : THdr := { h0 with scale := em.scale }
    let s1 := counted (s.modQueue x n fun q => { q with outs := tset q.outs e em.port, ctrs := tset q.ctrs e em.ctr })
    match st with
    | none => s1
    | some (i, r) =>
      if t.length > r.maxLen then stopQueue s x n .tensorLength
      else
        let (s2, ok) := streamPush s1 q.ctx i h f em.elems false
        if ok then s2 else stopQueue s1 x n .shapeMissing

/-- Values as a tensor under construction. -/
def shapedTensor (sh : Shaped) (sample : Nat) (flags : BitVec 8) (poison : Bool) : OutTensor :=
  ⟨sh.vals.length, sh.c, sh.w, sh.h, sample, flags, false, sh.vals.zipIdx.map fun v =>
    (v.2, if poison then oval F32.nan true else oval v.1 false)⟩

/-- The flags of the tensors of a position. -/
def positionFlags (p : Position) : BitVec 8 := flagShaped ||| (if p.substituted then flagSubstituted else 0)

/-- The tensors of a sample on the main output. -/
def sampleTensors (s : State) (q : Queue) (p : Position) : List Shaped :=
  let seed := jobSeed (s.ctx q.ctx)
  match qModality q.desc with
  | 0 | 1 => (emittedFrames q.desc p.yields).map (shapePicture q.desc seed p.cand.index false none)
  | 2 => shapeSound q.desc seed p.cand.index p.cand.rateIn p.yields.channels
  | _ => []

/-- How many tensors a sample sends on the main output. -/
def tensorCount (q : Queue) (p : Position) : Nat :=
  match qModality q.desc with
  | 0 | 1 => (emittedFrames q.desc p.yields).length
  | 2 => if qChannelMode q.desc = 2 then p.yields.channels.length else 1
  | _ => 1

/-- The head sample is consumed: its memory is free, its manifest record follows those of the samples skipped before
it, and the batch's manifest leaves after its last position (07 R292). -/
def consumeHead (s : State) (x n : Nat) (cause kind : Nat) : State :=
  let q := s.queue x n
  match q.positions with
  | [] => s
  | p :: t =>
    let last : Bool := p.pos + 1 = qBatchSize q.desc
    let recs := q.manifest ++ p.skips ++ [manifestRecord x n p cause kind p.emitted]
    let drops := if qRoi q.desc then p.emitted - (p.regions - qLag q.desc) else 0
    let s1 := s.modQueue x n fun q => { q with
      positions := t
      substitutions := q.substitutions + (if p.substituted then 1 else 0)
      roiDrop := q.roiDrop + drops
      manifest := if last then [] else recs
      nextBatch := if last then (p.batch + 1) % 2 ^ 32 else p.batch }
    if last then
      let vals : Tbl OVal := recs.zipIdx.map fun r => (r.2, ⟨r.1, true, false, false⟩)
      queueEmit s1 x n 2 9 F32.one ⟨recs.length, 1, recs.length, 1, 0, flagShaped, false, vals⟩
    else s1

/-- Whether the head sample has sent all it will send without an error. -/
def headFinished (q : Queue) (p : Position) : Bool :=
  p.phase = .decoded && p.emitted ≥ tensorCount q p && p.yields.cause = 0

/-- Decoding of the sample at place `i` completes, and a credit record is sent once a quantum has been freed. A video
sample that has sent all its frames is consumed. -/
def decodeDone (s : State) (x n i : Nat) : State :=
  let q := s.queue x n
  match q.positions[i]? with
  | none => s
  | some p =>
    if q.st ≠ .opened || p.phase ≠ .decoding then s
    else
      let s1 := finishDecode s x n i
      let s2 := if (s1.queue x n).freed ≥ qQuantum q.desc then sendCredit s1 x n false else s1
      match (s2.queue x n).positions with
      | p2 :: _ => if i = 0 && headFinished q p2 then consumeHead s2 x n 0 0 else s2
      | [] => s2

/-- The next shaped tensor of the head sample leaves the main output; a frame of a region queue without history sends
the whole frame on the region output too (07 R275). A frame from L onward waits for its region set (R277). -/
def intakeTensorEmit (s : State) (x n : Nat) : State :=
  let q := s.queue x n
  match q.positions with
  | [] => s
  | p :: t =>
    let k := p.emitted
    let video : Bool := qModality q.desc = 0
    let begun : Bool := p.phase = .decoded || (video && p.phase = .decoding)
    if q.st ≠ .opened || !begun || !domainOn s (streamsDomain x) || !queueRoom s x n 0 ||
        k ≥ tensorCount q p || (qRoi q.desc && k ≥ qLag q.desc && p.regions ≤ k) then s
    else
      let fl := positionFlags p
      let s0 := s.modQueue x n fun q => { q with positions := { p with
        emitted := k + 1, regions := if k < qLag q.desc then k + 1 else p.regions } :: t }
      let s1 :=
        if qModality q.desc = 3 then
          queueEmit s0 x n 0 8 F32.one ⟨p.tokens.length, 1, p.tokens.length, 1, p.pos, fl, false,
            p.tokens.zipIdx.map fun v => (v.2, ⟨BitVec.ofNat 256 v.1, true, false, false⟩)⟩
        else
          match (sampleTensors s q p)[k]? with
          | none => s0
          | some sh => queueEmit s0 x n 0 (qFormat q.desc) (qScale q.desc) (shapedTensor sh p.pos fl false)
      let s2 :=
        if qRoi q.desc && k < qLag q.desc then
          match (emittedFrames q.desc p.yields)[k]? with
          | none => s1
          | some f =>
            let sh := shapePicture q.desc (jobSeed (s.ctx q.ctx)) p.cand.index true none f
            queueEmit s1 x n 1 (qFormat q.desc) (qScale q.desc) (shapedTensor sh p.pos fl false)
        else s1
      let q2 := s2.queue x n
      match q2.positions with
      | p2 :: _ => if q2.st = .opened && headFinished q2 p2 then consumeHead s2 x n 0 0 else s2
      | [] => s2

/-- A decoding error after the first tensor (07 R271): one more tensor, shaped as the previous frame, every word of
it poisoned, and the sample ends as PLACED_LATE. -/
def lateCorrupt (s : State) (x n : Nat) : State :=
  let q := s.queue x n
  match q.positions with
  | [] => s
  | p :: t =>
    if q.st ≠ .opened || qModality q.desc ≠ 0 || p.phase ≠ .decoded || p.yields.cause = 0 || p.emitted = 0 ||
        p.emitted < tensorCount q p || !queueRoom s x n 0 then s
    else
      match (sampleTensors s q p).getLast? with
      | none => s
      | some sh =>
        let s0 := s.modQueue x n fun q => { q with
          positions := { p with emitted := p.emitted + 1 } :: t, lateCorrupt := q.lateCorrupt + 1 }
        let s1 := queueEmit s0 x n 0 (qFormat q.desc) (qScale q.desc) (shapedTensor sh p.pos (positionFlags p) true)
        if (s1.queue x n).st = .opened then consumeHead s1 x n p.yields.cause 2 else s1

/-! ### Regions of interest (07 R275 to R277) -/

/-- The stream that feeds a queue's region input. -/
def roiStream (s : State) (x n : Nat) : Option (Nat × Nat) :=
  (s.ctx (s.queue x n).ctx).image.bind fun im =>
    im.streams.zipIdx.findSome? fun p =>
      (p.1.consumers.findIdx? fun e => epKind e = 5 && epComplex e = x && epChannel e = 4 * n + 3).map fun k => (p.2, k)

/-- The whole tensor at the head of a buffer: its words to LAST. -/
def wholeTensor (ws : List SWord) : Option (List SWord) :=
  (ws.findIdx? (·.last)).map fun i => ws.take (i + 1)

/-- The records of a region set, each with its poison. -/
def regionRecords (ws : List SWord) : List Elem :=
  match ws with
  | [] => []
  | h :: t => ((t.flatMap fun w => (List.range 4).map fun i =>
      (⟨BitVec.ofNat 256 (unpackElem .record w.bits i), w.poison⟩ : Elem)).take (THdr.parse h.bits).length)

/-- A record is usable (07 R276). -/
def regionUsable (e : Elem) : Bool := !e.poison && (List.range 4).all fun k => !F32.isNaN (recF e.code (32 * k))

/-- The first row or column of a crop about the centre of two edges. An infinite edge is clamped; a centre that is
not a number takes a free place. -/
def cropStart (s : State) (a b : F32) (crop n : Nat) : Nat × State :=
  let c := F32.mul (F32.add a b) 0x3F000000
  if F32.isNaN c then let r := s.free 16; (r.1.toNat % (n - crop + 1), r.2)
  else if F32.isInf c then (if F32.sign c then 0 else n - crop, s)
  else
    let v := f32Floor c - ((crop / 2 : Nat) : Int)
    (if v < 0 then 0 else min v.toNat (n - crop), s)

/-- A region queue takes its next set: one owed by a finished sample is discarded, and otherwise the crops of the
head sample's frame leave the region output in one tensor. `waited` counts the island cycles of the wait. -/
def roiSetTake (s : State) (x n : Nat) (waited : BitVec 48) : State :=
  let q := s.queue x n
  match roiStream s x n with
  | none => s
  | some (i, k) =>
    let b := (s.stream q.ctx i).buf k
    match wholeTensor b.unread with
    | none => s
    | some ws =>
      let pop (s : State) : State := (List.range ws.length).foldl (fun s _ => popWord s q.ctx i k) s
      if q.st ≠ .opened || !qRoi q.desc then s
      else if q.roiDrop ≠ 0 then (pop s).modQueue x n fun q => { q with roiDrop := q.roiDrop - 1 }
      else
        match q.positions with
        | [] => s
        | p :: t =>
          match (emittedFrames q.desc p.yields)[p.regions]? with
          | none => s
          | some f =>
            let begun : Bool := p.phase = .decoded || p.phase = .decoding
            if !begun || p.regions < qLag q.desc || p.regions ≠ p.emitted || !domainOn s (streamsDomain x) ||
                !queueRoom s x n 1 then s
            else if ((ws.head?.map fun h => (THdr.parse h.bits).sample).getD 0) ≠ p.pos then
              stopQueue (pop s) x n .roiSkew
            else
              let rs := regionRecords ws
              let good := (rs.filter regionUsable).take (qRoiMax q.desc)
              let invalid := (rs.filter fun e => !regionUsable e).length
              let s0 := (pop s).modQueue x n fun q => { q with
                roiInvalid := q.roiInvalid + BitVec.ofNat 32 invalid
                roiWait := q.roiWait + waited
                positions := { p with regions := p.regions + 1 } :: t }
              let w := qRoiW q.desc
              let h := qRoiH q.desc
              let (s1, vals) := good.foldl (fun (acc : State × List F32) e =>
                let (x0, sa) := cropStart acc.1 (recF e.code 0) (recF e.code 64) w f.w
                let (y0, sb) := cropStart sa (recF e.code 32) (recF e.code 96) h f.h
                let sh := shapePicture q.desc (jobSeed (s.ctx q.ctx)) p.cand.index true (some (x0, y0, w, h)) f
                (sb, acc.2 ++ sh.vals)) (s0, [])
              let c := if qGray q.desc then 1 else 3
              queueEmit s1 x n 1 (qFormat q.desc) (qScale q.desc)
                (shapedTensor ⟨w, good.length * h, c, vals⟩ p.pos (positionFlags p) false)

/-! ### Opening and closing (07 R258, R283, R287, R293, R294) -/

/-- The merges of a table in memory (07 R283). -/
def readMerges (m : Mem) (addr count : Nat) : List (Nat × Nat) :=
  (List.range count).map fun r => let e := m.readNat (addr + 8 * r) 8; (bits e 0 19, bits e 19 19)

/-- A queue opens for a context: its block is cleared, its merge table has a copy in the tokenizer store, and its
first credit record leaves. -/
def openQueue (s : State) (ctx x n : Nat) (d : Blob) : State :=
  let have' : Bool := (s.complex x).tables.any fun t => t.ctx = ctx && t.addr = qMergeAddr d &&
    t.merges.length = qMergeCount d
  let s1 := if qModality d = 3 && qMergeCount d ≠ 0 && !have' then
      s.modComplex x fun c => { c with
        tables := c.tables ++ [⟨ctx, qMergeAddr d, readMerges s.mem.mem (qMergeAddr d) (qMergeCount d)⟩] }
    else s
  sendCredit (s1.modQueue x n fun _ => { st := .opened, ctx := ctx, desc := d }) x n false

/-- The tables that an open queue of a complex uses. -/
def usedTables (c : Complex) : List TokenTable :=
  c.tables.filter fun t => c.queues.any fun e => e.2.st ≠ .closed && e.2.ctx = t.ctx && qModality e.2.desc = 3 &&
    qMergeAddr e.2.desc = t.addr && qMergeCount e.2.desc = t.merges.length

/-- A queue closes: samples in flight and the unfinished batch are discarded, and a last credit record leaves. A
teardown also clears its block. -/
def closeQueue (s : State) (x n : Nat) (clear : Bool) : State :=
  if (s.queue x n).st = .closed then s
  else
    let s1 := s.modQueue x n fun q => { q with positions := [], pool := [], manifest := [] }
    let s2 := (sendCredit s1 x n true).modQueue x n fun q =>
      if clear then {} else { q with st := .closed, expect := none, roiDrop := 0 }
    s2.modComplex x fun c => { c with tables := usedTables c }

/-- The open or stopped queues of a context. -/
def queuesOf (s : State) (ctx : Nat) : List (Nat × Nat) :=
  [0, 1].flatMap fun x => ((s.complex x).queues.filter fun e => e.2.st ≠ .closed && e.2.ctx = ctx).map fun e => (x, e.1)

/-- Every queue of a context closes; at a teardown the blocks of its queues that an UNLOAD closed before are cleared too
(R294). -/
def closeQueues (s : State) (ctx : Nat) (clear : Bool) : State :=
  let s1 := (queuesOf s ctx).foldl (fun s q => closeQueue s q.1 q.2 clear) s
  if clear then
    [0, 1].foldl (fun s x => s.modComplex x fun c => { c with
      queues := c.queues.filter fun e => !(e.2.st = .closed && e.2.ctx = ctx) }) s1
  else s1

/-! ### Records of sessions (09 R380, R381; 15 R554, R556) -/

/-- Bytes of the record at the front of a session's stream: its header, and once that is whole its payload. -/
def LoadSession.recordLen (t : LoadSession) : Nat := if t.buf.len < 64 then 64 else 64 + t.buf.bits 224 32

/-- Bytes of the front record that have come: they are the open record of the intake unit's channel. -/
def LoadSession.taken (t : LoadSession) : Nat := min t.buf.len t.recordLen

/-- Bytes behind the front record, which the session's 1 MiB buffer holds. -/
def LoadSession.held (t : LoadSession) : Nat := t.buf.len - t.taken

/-- The whole record at the front of a session's stream: header and payload. -/
def LoadSession.front (t : LoadSession) : Option (BitVec 512 × Blob) :=
  if t.recordLen ≤ t.buf.len && 64 ≤ t.buf.len then
    some (BitVec.ofNat 512 (t.buf.bits 0 512), t.buf.slice 64 (t.recordLen - 64))
  else none

/-- The stream without its front record. -/
def LoadSession.drop (t : LoadSession) : LoadSession :=
  { t with buf := t.buf.slice t.recordLen (t.buf.len - t.recordLen) }

/-- Payload bytes of the open record that the channel has absorbed. -/
def LoadSession.absorbed (t : LoadSession) : Nat := t.taken - 64

/-- The running value of the channel: SAMPLE_INDEX, then the payload bytes absorbed (15 R553). -/
def LoadSession.running (t : LoadSession) : Nat :=
  crcBytes crc32c (crcOpen crc32c (t.buf.bits 0 64)) (t.buf.slice 64 t.absorbed).val t.absorbed

/-- KiB of a tokenizer store in use: 16 bytes an entry. -/
def tokenizerKib (c : Complex) : Nat := ((c.tables.map fun t => 16 * t.merges.length).sum + 1023) / 1024

end Sys2Proof.Machine
end

