-- ==== Sys2Proof/Machine/Ether.lean ====
section
/-!
DEFINITION. Ethernet mode and sample ingress (09 R379 to R384): frames, address resolution, the segments of the sample
transport, relays and export.
-/

namespace Sys2Proof.Machine

/-! ### Loader table entries and interface records (09 Tables 9.3, 9.15) -/

def entryBits (x : Ctx) (e lo w : Nat) : Nat := x.loader.bits (256 * e + lo) w
def entryCount (x : Ctx) : Nat := x.loader.len / 32
def entryKind (x : Ctx) (e : Nat) : Nat := entryBits x e 0 2
def entryLink (x : Ctx) (e : Nat) : Nat := entryBits x e 2 4
def entryComplex (x : Ctx) (e : Nat) : Nat := entryBits x e 6 1
def entryEncrypted (x : Ctx) (e : Nat) : Bool := entryBits x e 7 1 = 1
def entryExport (x : Ctx) (e : Nat) : Bool := entryBits x e 8 1 = 1
def entryPeer (x : Ctx) (e : Nat) : Nat := entryBits x e 16 16
def entrySession (x : Ctx) (e : Nat) : Nat := entryBits x e 32 32
def entryPort (x : Ctx) (e : Nat) : Nat := entryBits x e 64 16
def entryAddress (x : Ctx) (e : Nat) : Nat := entryBits x e 96 128

/-- LINK_MODE of a link in the folio. -/
def folioMode (b : Blob) (h : Nat) : Nat := b.bits (80 + 2 * h) 2

/-- Bits of the interface record of an Ethernet link: the records follow the folio header in the order of links. -/
def ifaceBits (s : State) (h lo w : Nat) : Nat :=
  match s.fab.folio with
  | none => 0
  | some b => b.bits (192 + 512 * ((List.range h).filter fun i => folioMode b i = 2).length + lo) w

def ifAddress (s : State) (h : Nat) : Nat := ifaceBits s h 0 128
def ifGateway (s : State) (h : Nat) : Nat := ifaceBits s h 128 128
def ifPrefix (s : State) (h : Nat) : Nat := ifaceBits s h 256 8
def ifV6 (s : State) (h : Nat) : Bool := ifaceBits s h 264 1 = 1
def ifMtu (s : State) (h : Nat) : Nat := ifaceBits s h 266 14
def ifUdp (s : State) (h : Nat) : Nat := ifaceBits s h 280 16
def ifPriority (s : State) (h : Nat) : Nat := ifaceBits s h 296 3
def ifVlan (s : State) (h : Nat) : Option Nat := if ifaceBits s h 299 1 = 1 then some (ifaceBits s h 300 12) else none
def ifMac (s : State) (h : Nat) : Nat := folioBits s 112 48 + h

/-! ### Frames received (09 Table 9.13; wire formats PRESUMED, log entry 28) -/

/-- A big-endian field of `n` bytes at an offset of a frame. -/
def be (b : Blob) (off n : Nat) : Nat := (List.range n).foldl (fun v i => 256 * v + b.byte (off + i)) 0

/-- The ones' complement sum of 16-bit words, folded. -/
def onesSum (l : List Nat) : Nat :=
  let t := l.sum
  let u := t % 65536 + t / 65536
  let v := u % 65536 + u / 65536
  v % 65536 + v / 65536

def beWords (b : Blob) (off n : Nat) : List Nat :=
  (List.range ((n + 1) / 2)).map fun i =>
    256 * b.byte (off + 2 * i) + (if 2 * i + 1 < n then b.byte (off + 2 * i + 1) else 0)

/-- What a received frame is to a link. -/
inductive EthIn where
  | drop
  | pfc (time : Nat)
  | ask (ip mac : Nat)
  | tell (ip mac : Nat)
  | udp (ip port : Nat) (data : Blob)
  deriving DecidableEq, Repr

/-- The frame's type and where its payload begins: with VLAN_EN one tag of VLAN_ID, else none. -/
def ethType (s : State) (h : Nat) (f : Blob) : Option (Nat × Nat) :=
  match ifVlan s h with
  | some v => if be f 12 2 = 0x8100 && be f 14 2 % 4096 = v then some (be f 16 2, 18) else none
  | none => if be f 12 2 = 0x8100 then none else some (be f 12 2, 14)

/-- A UDP datagram to UDP_PORT; a zero checksum passes over IPv4 only. -/
def udpIn (s : State) (h : Nat) (f : Blob) (o len ip : Nat) (v6 : Bool) (pseudo : List Nat) : EthIn :=
  let ulen := be f (o + 4) 2
  let sum := be f (o + 6) 2
  if ulen < 8 || len < ulen || be f (o + 2) 2 ≠ ifUdp s h then .drop
  else if (sum = 0 && v6) || (sum ≠ 0 && onesSum (pseudo ++ beWords f o ulen) ≠ 0xFFFF) then .drop
  else .udp ip (be f o 2) (f.slice (o + 8) (ulen - 8))

/-- IPv4 without options or fragments. -/
def ipv4In (s : State) (h : Nat) (f : Blob) (o : Nat) : EthIn :=
  let len := be f (o + 2) 2
  if f.len < o + 20 || be f o 1 ≠ 0x45 || len < 28 || f.len < o + len || be f (o + 6) 2 % 16384 ≠ 0 || be f (o + 9) 1 ≠ 17 ||
      be f (o + 16) 4 ≠ ifAddress s h || onesSum (beWords f o 20) ≠ 0xFFFF then .drop
  else udpIn s h f (o + 20) (len - 20) (be f (o + 12) 4) false (beWords f (o + 12) 8 ++ [17, be f (o + 24) 2])

/-- IPv6 without extension headers: UDP, or neighbour solicitation and advertisement. -/
def ipv6In (s : State) (h : Nat) (f : Blob) (o : Nat) : EthIn :=
  let len := be f (o + 4) 2
  let next := be f (o + 6) 1
  let src := be f (o + 8) 16
  if f.len < o + 40 + len || be f o 1 / 16 ≠ 6 then .drop
  else if next = 17 && len ≥ 8 && be f (o + 24) 16 = ifAddress s h then
    udpIn s h f (o + 40) len src true (beWords f (o + 8) 32 ++ [17, be f (o + 44) 2])
  else if next = 58 && len ≥ 32 && be f (o + 7) 1 = 255 &&
      onesSum (beWords f (o + 8) 32 ++ [len, 58] ++ beWords f (o + 40) len) = 0xFFFF then
    if be f (o + 40) 1 = 135 && be f (o + 48) 16 = ifAddress s h then .ask src (be f 6 6)
    else if be f (o + 40) 1 = 136 then .tell (be f (o + 48) 16) (be f (o + 66) 6)
    else .drop
  else .drop

def arpIn (s : State) (h : Nat) (f : Blob) (o : Nat) : EthIn :=
  if f.len < o + 28 || be f o 6 ≠ 0x000108000604 then .drop
  else if be f (o + 6) 2 = 1 && be f (o + 24) 4 = ifAddress s h then .ask (be f (o + 14) 4) (be f (o + 8) 6)
  else if be f (o + 6) 2 = 2 then .tell (be f (o + 14) 4) (be f (o + 8) 6)
  else .drop

/-- A frame at an Ethernet link, without its FCS. -/
def classify (s : State) (h : Nat) (f : Blob) : EthIn :=
  let dst := be f 0 6
  if f.len < 14 then .drop
  else if dst = 0x0180C2000001 && be f 12 2 = 0x8808 && be f 14 2 = 0x0101 && bit (be f 16 2) (ifPriority s h) then
    .pfc (be f (18 + 2 * ifPriority s h) 2)
  else
    match ethType s h f with
    | none => .drop
    | some (t, o) =>
      let mine : Bool := dst = ifMac s h
      if f.len > ifMtu s h + o then .drop
      else if t = 0x0806 && !ifV6 s h && (mine || dst = 0xFFFFFFFFFFFF) then arpIn s h f o
      else if t = 0x0800 && !ifV6 s h && mine then ipv4In s h f o
      else if t = 0x86DD && ifV6 s h && (mine || dst = 0x3333FF000000 + ifAddress s h % 2 ^ 24) then ipv6In s h f o
      else .drop

/-! ### Frames sent -/

/-- The next hop to an address: itself in the subnet, else GATEWAY. -/
def nextHop (s : State) (h ip : Nat) : Nat :=
  let w := if ifV6 s h then 128 else 32
  let p := min (ifPrefix s h) w
  if ip / 2 ^ (w - p) = ifAddress s h / 2 ^ (w - p) then ip else ifGateway s h

/-- A frame leaves, or waits while a PFC frame for PRIORITY pauses the link (09 Table 9.13). -/
def ethPut (s : State) (h : Nat) (o : EthOut) : State :=
  s.modLink h fun l =>
    if l.paused then { l with ethHeld := l.ethHeld ++ [o] }
    else { l with eth := l.eth ++ [o], ctr := { l.ctr with ethOut := l.ctr.ethOut + 1 } }

/-- A pause ends: what waited leaves, in order. -/
def ethResume (s : State) (h : Nat) : State :=
  let held := (s.link h).ethHeld
  held.foldl (fun s o => ethPut s h o) (s.modLink h fun l => { l with paused := false, ethHeld := [] })

/-- A segment leaves by an Ethernet link, once its next hop is resolved. -/
def ethSend (s : State) (h ip port hdr : Nat) (data : Blob) : State :=
  let o := EthOut.segment ip port hdr data
  if (s.link h).st ≠ .ethUp then s
  else if (s.link h).arp.any fun p => p.1 = nextHop s h ip then ethPut s h o
  else ethPut (s.modLink h fun l => { l with unresolved := l.unresolved ++ [o] }) h (.resolve (nextHop s h ip))

/-- A neighbour's address is learned, in a cache of 1,024 (the oldest entry goes), and what waited for it leaves. -/
def ethLearn (s : State) (h ip mac : Nat) : State :=
  let s1 := s.modLink h fun l =>
    let a := l.arp.filter fun p => p.1 ≠ ip
    { l with arp := (if 1024 ≤ a.length then a.drop 1 else a) ++ [(ip, mac)] }
  let ready (o : EthOut) : Bool := match o with | .segment d _ _ _ => nextHop s h d = ip | _ => false
  let go := (s1.link h).unresolved.filter ready
  go.foldl (fun s o => ethPut s h o) (s1.modLink h fun l => { l with unresolved := l.unresolved.filter fun o => !ready o })

/-! ### Segments (09 Table 9.14, R380 to R383) -/

def segMagic : Nat := 0x5153

def segHeader (typ session seq ack window len : Nat) : Nat :=
  packFields [(segMagic, 16), (typ, 4), (0, 12), (session, 32), (seq, 32), (ack, 32), (window, 32), (len, 16)]

def Seg.field (g : Seg) (lo w : Nat) : Nat := bits g.hdr.toNat lo w
def Seg.typ (g : Seg) : Nat := g.field 16 4
def Seg.session (g : Seg) : Nat := g.field 32 32
def Seg.seqNo (g : Seg) : Nat := g.field 64 32
def Seg.ackNo (g : Seg) : Nat := g.field 96 32

/-- A segment leaves by the entry's link, or by its relay in a SAMPLE packet on channel FFEh. -/
def sendSegment (s : State) (c e hdr : Nat) (data : Blob) : State :=
  let x := s.ctx c
  if entryKind x e = 2 then
    match rankAcc x (entryPeer x e) with
    | some a => sendPacket s a x.job 0xFFE 0xA 0 (Blob.append ⟨32, hdr⟩ data)
    | none => s
  else ethSend s (entryLink x e) (entryAddress x e) (entryPort x e) hdr data

/-- The contexts with a loader table, and their entries that a test accepts. -/
def findEntry (s : State) (ok : Ctx → Nat → Bool) : Option (Nat × Nat) :=
  (List.range nCtx).findSome? fun c =>
    let x := s.ctx c
    if x.st = .free then none else ((List.range (entryCount x)).find? fun e => ok x e).map fun e => (c, e)

/-- The device relays a session: a KIND 10b entry of it names the device's own rank. -/
def relays (x : Ctx) (session : Nat) : Bool :=
  (List.range (entryCount x)).any fun e => entryKind x e = 2 && entrySession x e = session && entryPeer x e = x.rank.toNat

/-- The most payload that a packet carries (09 R368): a longer segment cannot be relayed (log entry 53). -/
def packetBytes : Nat := 4096

/-- A datagram of the sample transport at an Ethernet link: its segment waits for its command, or goes on to the rank
that the device relays it for (R383). -/
def segmentIn (s : State) (h ip port : Nat) (d : Blob) : State × Bool :=
  let session := d.bits 32 32
  let len := d.bits 160 16
  if d.len < 32 + len || d.bits 0 16 ≠ segMagic || 5 < d.bits 16 4 then (s, false)
  else
    match findEntry s fun x e => entryKind x e < 2 && entryLink x e = h && entrySession x e = session &&
        entryAddress x e = ip && entryPort x e = port with
    | none => (s, false)
    | some (c, e) =>
      let x := s.ctx c
      if relays x session then
        match s.fab.relays.find? fun r => r.1 = x.job && r.2.1 = session with
        | some (_, _, a) =>
          if packetBytes < 32 + len then (s, false) else (sendPacket s a x.job 0xFFE 0xA 0 (d.slice 0 (32 + len)), true)
        | none => (s, false)
      else if !([0, 1, 5].contains (d.bits 16 4)) then (s, false)
      else
        (s.modFab fun f => { f with
          segs := f.segs ++ [⟨h, c, e, BitVec.ofNat 256 (d.bits 0 256), d.slice 32 len⟩] }, true)

/-- An Ethernet frame (09 R379): accepted and handled, or dropped. A PFC frame for PRIORITY pauses the link's frames until
one with no time comes, or its time has lapsed; a frame with a codeword that is not correctable is not accepted. -/
def ethFrame (s : State) (h : Nat) (f : Blob) (fec : Fec) (lapsed : Bool) : State :=
  let s := countFec (if lapsed then ethResume s h else s) h fec
  let dropped (s : State) : State := s.modLinkCtr h fun k => { k with ethDropped := k.ethDropped + 1 }
  let accepted (s : State) : State := s.modLinkCtr h fun k => { k with ethIn := k.ethIn + 1 }
  if (s.link h).st ≠ .ethUp then s
  else
    match if fec.touched then .drop else classify s h f with
    | .drop => dropped s
    | .pfc t =>
      let s1 := (accepted s).modLinkCtr h fun k => { k with pfc := k.pfc + 1 }
      if t = 0 then ethResume s1 h else s1.modLink h fun l => { l with paused := true }
    | .ask ip mac => ethPut (ethLearn (accepted s) h ip mac) h (.answer ip mac)
    | .tell ip mac => ethLearn (accepted s) h ip mac
    | .udp ip port d =>
      match segmentIn s h ip port d with
      | (s1, true) => accepted s1
      | (s1, false) => dropped s1

/-- A SAMPLE packet (09 R383): a relaying device passes the segment to the loader and remembers whom it serves; at the
far end the segment waits for its command. -/
def sample (s : State) (h : Nat) : State :=
  match takePacket s h 0xA with
  | none => s
  | some (p, s0) =>
    match acceptPacket s0 p with
    | (s1, false) => s1
    | (s1, true) =>
      match jobCtx s1 p.job with
      | none => s1
      | some c =>
        let x := s1.ctx c
        let d := p.payload
        let session := d.bits 32 32
        if relays x session then
          let s2 := s1.modFab fun f => { f with
            relays := (f.relays.filter fun r => !(r.1 = p.job && r.2.1 = session)) ++ [(p.job, session, p.src)] }
          match (List.range (entryCount x)).find? fun e => entryKind x e < 2 && entrySession x e = session with
          | some e => ethSend s2 (entryLink x e) (entryAddress x e) (entryPort x e) (d.bits 0 256) (d.slice 32 (d.len - 32))
          | none => s2
        else
          match (List.range (entryCount x)).find? fun e => entryKind x e = 2 && entrySession x e = session &&
              rankAcc x (entryPeer x e) = some p.src with
          | some e => s1.modFab fun f => { f with
              segs := f.segs ++ [⟨h, c, e, BitVec.ofNat 256 (d.bits 0 256), d.slice 32 (min (d.bits 160 16) (d.len - 32))⟩] }
          | none => s1

/-- The first segment of a TYPE that has come from a source. -/
def takeSegment (s : State) (src typ : Nat) : Option (Seg × State) :=
  match s.fab.segs.find? fun g => g.src = src && g.typ = typ with
  | some g => some (g, s.modFab fun f => { f with segs := f.segs.erase g })
  | none => none

/-- The buffer of a session (09 R381). -/
def sessionBuffer : Nat := 2 ^ 20

/-- OPEN (09 R381, 14 R541): the next byte expected is its SEQ, and the starting WRAP is in its ACK field. -/
def segmentOpen (s : State) (src : Nat) : State :=
  match takeSegment s src 0 with
  | none => s
  | some (g, s1) =>
    if entryExport (s1.ctx g.ctx) g.entry then s1
    else s1.modCtx g.ctx fun x => { x with sessions := tset x.sessions g.entry ⟨g.seqNo, g.ackNo, Blob.empty, 0⟩ }

/-- An ACK segment with the window that is free. Before any OPEN no next byte is stated: it is a free value. -/
def sendSegAck (s : State) (c e : Nat) : State :=
  let put (s : State) (next window : Nat) : State :=
    sendSegment s c e (segHeader 2 (entrySession (s.ctx c) e) 0 next window 0) Blob.empty
  match tget (s.ctx c).sessions e with
  | some t => put s t.next (sessionBuffer - t.held)
  | none => let f := s.free 32; put f.2 f.1.toNat sessionBuffer

/-- The nonce of segment data (14 R541). -/
def segNonce (session wrap seq : Nat) : Nat := session + 2 ^ 32 * (wrap % 2 ^ 32) + 2 ^ 64 * (seq % 2 ^ 32)

/-- The data of a DATA segment, decrypted under the sample key where the entry is ENCRYPTED; none where they do not
authenticate (09 R382). -/
def segPlain (s : State) (g : Seg) (t : LoadSession) : Option Blob :=
  let x := s.ctx g.ctx
  if !entryEncrypted x g.entry then some g.data
  else if g.data.len < 16 then none
  else
    let n := g.data.len - 16
    gcmOpen (sampleKey (volumeKey s x.job)) (segNonce g.session t.wrap g.seqNo) ⟨32, g.hdr.toNat⟩ (g.data.slice 0 n)
      (BitVec.ofNat 128 (g.data.bits (8 * n) 128))

/-- DATA (09 R381, R382): accepted in order where it fits the window and its data authenticate, with an ACK after each
eighth; else discarded, counted at the link that it came by, and answered with an ACK. -/
def segmentData (s : State) (src : Nat) : State :=
  match takeSegment s src 1 with
  | none => s
  | some (g, s1) =>
    let x := s1.ctx g.ctx
    let s2 := if entryEncrypted x g.entry then wantKey s1 (.sample x.job) else s1
    let discard (s : State) : State := sendSegAck (s.modLinkCtr src fun k => { k with outOfOrder := k.outOfOrder + 1 }) g.ctx g.entry
    match tget x.sessions g.entry with
    | none => discard s2
    | some t =>
      match segPlain s1 g t with
      | none => discard s2
      | some d =>
        let next := (t.next + d.len) % 2 ^ 32
        let t' : LoadSession := { t with
          next := next, wrap := t.wrap + (if next < t.next then 1 else 0), buf := Blob.append t.buf d, since := (t.since + 1) % 8 }
        if g.seqNo ≠ t.next || sessionBuffer < t'.held then discard s2
        else
          let s3 := s2.modCtx g.ctx fun x => { x with sessions := tset x.sessions g.entry t' }
          if t'.since = 0 then sendSegAck s3 g.ctx g.entry else s3

/-- A session's whole front record goes to the queue that it names, of the entry's COMPLEX, and leaves the stream (09 R380,
R381). -/
def sessionRecord (s : State) (c e : Nat) (poisoned : Bool) (info : StreamInfo) : State :=
  match tget (s.ctx c).sessions e with
  | none => s
  | some t =>
    match t.front with
    | none => s
    | some (hdr, payload) =>
      sampleRecord (s.modCtx c fun x => { x with sessions := tset x.sessions e t.drop }) (entryComplex (s.ctx c) e) hdr
        payload poisoned info

/-- Credit records sent by the complexes between two states leave in CREDIT segments (09 R381). -/
def flushCredits (before after : State) : State :=
  [0, 1].foldl (fun s x =>
    ((s.complex x).credits.drop (before.complex x).credits.length).foldl (fun s r =>
      let n := bits r.2.toNat 0 8
      let c := if (before.queue x n).st ≠ .closed then (before.queue x n).ctx else (s.queue x n).ctx
      let e := r.1 % 256
      sendSegment s c e (segHeader 3 (entrySession (s.ctx c) e) 0 0 0 16) ⟨16, r.2.toNat⟩) s) after

/-! ### Export (09 R384, 10 R423) -/

/-- The data bytes of one segment to an entry: what the MTU leaves after the IP, UDP and segment headers and a tag. -/
def segmentRoom (s : State) (c e : Nat) : Nat :=
  let x := s.ctx c
  let tag := if entryEncrypted x e then 16 else 0
  if entryKind x e = 2 then 4096 - 32 - tag
  else ifMtu s (entryLink x e) - (if ifV6 s (entryLink x e) then 48 else 28) - 32 - tag

/-- Export data under the export key of their commit, their tag after them (14 R541). -/
def exportSeal (s : State) (x : Ctx) (e : Nat) (r : ExportRun) (hdr : Nat) (d : Blob) : Blob :=
  let k := gcmSeal (exportKey (volumeKey s x.job) x.rank.toNat r.c) (segNonce (entrySession x e) (r.sent / 2 ^ 32) r.sent)
    ⟨32, hdr⟩ d
  Blob.append k.1 ⟨16, k.2.toNat⟩

/-- Export segments of the bytes from `sent` up to the window's end leave, in order. -/
def exportSend (c e limit : Nat) : Nat → State → State
  | 0, s => s
  | n + 1, s =>
    match (s.ctx c).exporting with
    | none => s
    | some r =>
      let room := max 1 (segmentRoom s c e)
      let len := min room (min r.data.len limit - r.sent)
      if len = 0 then s
      else
        let x := s.ctx c
        let d := r.data.slice r.sent len
        let tag := if entryEncrypted x e then 16 else 0
        let hdr := segHeader 4 (entrySession x e) (r.sent % 2 ^ 32) 0 0 (len + tag)
        let s1 := sendSegment s c e hdr (if entryEncrypted x e then exportSeal s x e r hdr d else d)
        exportSend c e limit n (s1.modCtx c fun x => { x with exporting := some { r with sent := r.sent + len } })

def exportRounds (r : ExportRun) : Nat := r.data.len + 1

/-- The loader table entry of exports (10 Table 10.1). -/
def exportEntry (x : Ctx) : Nat := x.plan.bits 120 8

/-- Send the export from a byte on, within a window beyond what is acknowledged. -/
def exportFrom (s : State) (c at' window : Nat) : State :=
  match (s.ctx c).exporting with
  | none => s
  | some r =>
    let s1 := s.modCtx c fun x => { x with exporting := some { r with sent := at' } }
    exportSend c (exportEntry (s.ctx c)) (r.acked + window) (exportRounds r) s1

/-- EXPORT_ACK (09 R384), on the session of the export's entry: the bytes it covers are released; the last one ends the export. -/
def exportAck (s : State) (src : Nat) : State :=
  match takeSegment s src 5 with
  | none => s
  | some (g, s1) =>
    match (s1.ctx g.ctx).exporting, decide (g.entry = exportEntry (s1.ctx g.ctx)) with
    | none, _ => s1
    | some _, false => s1
    | some r, true =>
      let d := (g.ackNo + 2 ^ 32 - r.acked % 2 ^ 32) % 2 ^ 32
      if r.acked + d > r.sent then s1
      else
        let s2 := s1.modCtx g.ctx fun x => { x with exporting := some { r with acked := r.acked + d } }
        if r.acked + d = r.data.len then
          s2.modCtx g.ctx fun x => { x with exporting := none, led := { x.led with exports := x.led.exports + 1 } }
        else exportFrom s2 g.ctx r.sent (g.field 128 32)

/-- 2^20 cycles without an advancing acknowledgement: the export is sent again from the acknowledged byte. -/
def exportResend (s : State) (c : Nat) : State :=
  match (s.ctx c).exporting with
  | none => s
  | some r => exportFrom s c r.acked (r.sent - r.acked)

end Sys2Proof.Machine
end

