-- ==== Sys2Proof/Machine/Tree.lean ====
section
/-!
DEFINITION. Reduction trees (03 R134 to R139): the values that reach a node's children, their combination in
child order, and the emission of a root's tensors.
-/

namespace Sys2Proof.Machine

def treeRec (x : Ctx) (node : Nat) : Option TreeRec := x.image.bind fun im => im.trees.find? fun t => t.node = node

def State.node (s : State) (c n : Nat) : TreeNode := tgetD (s.ctx c).nodes n TreeNode.empty
def State.modNode (s : State) (c n : Nat) (f : TreeNode → TreeNode) : State :=
  s.modCtx c fun x => { x with nodes := tset x.nodes n (f (tgetD x.nodes n TreeNode.empty)) }

def TreeNode.kid (t : TreeNode) (k : Nat) : KidQ := tgetD t.kids k {}

/-- The stream that a tree root produces. -/
def rootStream (x : Ctx) (node : Nat) : Option (Nat × StreamRec) :=
  x.image.bind fun im =>
    (im.streams.zipIdx.find? fun p => epKind p.1.producer = 3 && epNode p.1.producer = node).map fun p => (p.2, p.1)

/-- The root above a node; `fuel` bounds the depth, at most 16 nodes (03 Table 3.7). -/
def rootOf (x : Ctx) : Nat → Nat → Nat
  | 0, n => n
  | f + 1, n =>
    match treeRec x n with
    | some t => if epKind t.out = 2 then rootOf x f (epNode t.out) else n
    | none => n

/-! ### Frozen layers (08 R320) -/

def updNlayers (p : Blob) : Nat := p.bits 0 9
def updLayerNo (p : Blob) (i : Nat) : Nat := p.bits (64 + 384 * i) 16
def optReduceFrozen (o : Blob) : Bool := o.bits 107 1 = 1

/-- The coefficient entry of a layer is FROZEN. -/
def coefFrozen (t : UpdTables) (layer : Nat) : Bool := ((tget t.coefs layer).map fun b => b.bits 0 1 == 1).getD false

/-! ### Values that reach a child -/

/-- The child of a node is another node's output, and not a leaf. -/
def childIsNode (x : Ctx) (node k : Nat) : Bool :=
  (x.image.map fun im => im.trees.any fun t => epKind t.out = 2 && epNode t.out = node && epChild t.out = k).getD false

/-- A word of a leaf's stream reaches its child entry: a header opens a tensor, data words are decoded to
binary32 by 02 R80. -/
def treeTake (s : State) (c node k : Nat) (w : SWord) : State :=
  let q := (s.node c node).kid k
  let put (q : KidQ) : State := s.modNode c node fun t => { t with kids := tset t.kids k q }
  if w.header then
    let h := THdr.parse w.bits
    put { q with cur := if w.last then none else some h, got := 0, hdrs := q.hdrs ++ [h] }
  else
    match q.cur with
    | none => s
    | some h =>
      match fmtOf h.format with
      | none => s
      | some f =>
        let n := min (perWord f) (h.length - q.got)
        let vs : List (F32 × Bool) := (List.range n).map fun i =>
          if w.poison then (F32.nan, true)
          else (BitVec.ofNat 32 (elemValue f (unpackElem f w.bits i) h.scale).code, false)
        put { q with
          cur := if w.last then none else some h, got := q.got + n, vals := q.vals ++ vs }

/-! ### Combination (03 R134) -/

/-- `tree_node` of 03 R134: the value, whether it came saturated, and its poison. -/
def treeCombine (op : Nat) (xs : List (F32 × Bool)) : OVal :=
  if xs.any (·.2) then oval F32.nan true
  else
    let vs := xs.map (·.1)
    if vs.any F32.isNaN then oval F32.nan false
    else
      match op with
      | 0 =>
        let r := F32.sumA40 vs
        if F32.isInf r then ⟨(F32.maxFinite (F32.sign r)).setWidth 256, false, true, false⟩ else oval r false
      | 1 => oval ((vs.drop 1).foldl F32.max (vs.headD F32.posZero)) false
      | _ => oval ((vs.drop 1).foldl F32.min (vs.headD F32.posZero)) false

/-- A complete tensor leaves a tree root in the format and with the scale descriptor of its endpoint (05 R187; 03 R133,
R134; log entry 19), with the draws of 08 R327. -/
def rootEmit (s : State) (c node : Nat) : State :=
  let t := s.node c node
  match t.out.outs, rootStream (s.ctx c) node with
  | o :: _, some (i, r) =>
    if !o.complete then s
    else if o.length > r.maxLen then contextFault s c ⟨.tensorLength, none, .stage, 0⟩
    else
      match fmtOf r.format with
      | none => s
      | some f =>
        let x := s.ctx c
        let stream := BitVec.ofNat 32 (x.rank.toNat * 65536 + 0x8000 + node)
        let hdr (scale : F32) : THdr := ⟨o.length, scale, r.format, o.flags, o.c, o.w, o.h, o.sample, t.out.use.toNat⟩
        let share := (stripeMap s c r (hdr F32.one)).getD fun _ => 0
        let e := emitUse f false t.desc (srDraw (jobSeed x) stream x.step.jobStep) share t.out t.ctr o
        let h := hdr e.scale
        let s1 := s.modNode c node fun t => { t with out := e.port, ctr := e.ctr }
        (streamPush s1 c i h f e.elems false).1
  | _, _ => s

/-- The header that a node gives its own tensor: its children's, LONG_ACCUM where any child has it. -/
def treeHeader (hs : List THdr) : THdr :=
  match hs with
  | [] => ⟨0, F32.one, 3, 0, 0, 0, 0, 0, 0⟩
  | h :: t => { h with flags := flagShaped ||| (if (h :: t).any THdr.longAccum then flagLongAccum else 0) }

/-- A child of a node takes part: a node with a child that does, or a leaf whose rank is not dropped (10 R421). -/
def kidLive (s : State) (c : Nat) : Nat → Nat → Nat → Bool
  | 0, _, _ => true
  | f + 1, node, k =>
    let x := s.ctx c
    match x.image.bind fun im => im.trees.find? fun t => epKind t.out = 2 && epNode t.out = node && epChild t.out = k with
    | some t => (List.range (t.fanin + 1)).any fun j => kidLive s c f t.node j
    | none =>
      match x.image.bind fun im => im.streams.find? fun r =>
          r.consumers.any fun e => epKind e = 2 && epNode e = node && epChild e = k with
      | some r => !(epKind r.producer = 6 && x.led.dropped.contains (epLrank r.producer))
      | none => true

/-- A mean node's factor rne32(1 / f32(a)) over the live members of its group, `extra` of the dropped ones included
(10 R419, R421). -/
def meanFactor (x : Ctx) (node extra : Nat) : Option F32 :=
  ((List.range (planElastic x.plan)).find? fun g => (elasticNodes x.plan g).contains node).map fun g =>
    let gone := ((elasticMembers x.plan g).filter fun r => x.led.dropped.contains r).length
    F32.div F32.one (F32.ofNat ((elasticMembers x.plan g).length - gone + extra))

/-- The value a node gives: at a mean node the sum times its factor. -/
def nodeValue (x : Ctx) (node op extra : Nat) (xs : List (F32 × Bool)) : OVal :=
  let r := treeCombine op xs
  match meanFactor x node extra with
  | some f => if op = 0 && !r.poison then { r with code := (F32.mul (r.code.setWidth 32) f).setWidth 256 } else r
  | none => r

/-- The fabric port whose reduction unit runs a node with FABRIC = 1 (09 R374): NODE mod 8, or the next port upward whose domain
is on. -/
def nodePort (s : State) (node : Nat) : Option Nat :=
  ((List.range 8).map fun i => (node + i) % 8).find? fun p => islandOn s (180 + p)

/-- The reduction unit of a node runs: a powered fabric port's, or its shelf's. -/
def nodeRuns (s : State) (x : Ctx) (d : TreeRec) : Bool :=
  if d.fabric then (nodePort s d.node).isSome
  else match (shelvesOf x.mask)[d.shelf]? with
    | some sh => domainOn s (shelfDomain sh)
    | none => false

/-- A node whose every child has the next element combines them and emits the result: to its parent's child
entry, or into the tensor of its root. A dropped rank's leaf counts only where its element has come. -/
def treeNode (s : State) (c node : Nat) : State :=
  match treeRec (s.ctx c) node with
  | none => s
  | some d =>
    let t := s.node c node
    let all := List.range (d.fanin + 1)
    let live := all.filter fun k => kidLive s c 64 node k
    let hs := live.filterMap fun k => (t.kid k).hdrs.head?
    let rootFull : Bool := match rootStream (s.ctx c) node with
      | some (i, _) => waiting (s.stream c i) ≠ 0
      | none => false
    if live.isEmpty || hs.length ≠ live.length || rootFull || !nodeRuns s (s.ctx c) d then s
    else
      let h := treeHeader hs
      let toParent : Bool := epKind d.out = 2
      let p := epNode d.out
      let ch := epChild d.out
      let open' (s : State) : State :=
        if toParent then s.modNode c p fun t => { t with kids := tmod t.kids ch {} fun q =>
          { q with hdrs := q.hdrs ++ [h] } }
        else s.modNode c node fun t => { t with out := { t.out with
          outs := t.out.outs ++ [⟨h.length, h.c, h.w, h.h, h.sample, h.flags, false, []⟩] } }
      let popHdrs (s : State) : State := s.modNode c node fun t => { t with
        pos := 0
        kids := all.foldl (fun m k => tmod m k {} fun q => { q with hdrs := q.hdrs.drop 1 }) t.kids }
      if h.length = 0 then rootEmit (popHdrs (open' s)) c node
      else if live.any fun k => (t.kid k).vals = [] then s
      else
        let part := all.filter fun k => (t.kid k).vals ≠ []
        let xs := part.filterMap fun k => (t.kid k).vals.head?
        let r := nodeValue (s.ctx c) node d.op (part.length - live.length) xs
        let s1 := if t.pos = 0 then open' s else s
        let s2 := s1.modNode c node fun t => { t with
          pos := t.pos + 1
          kids := part.foldl (fun m k => tmod m k {} fun q => { q with vals := q.vals.drop 1 }) t.kids
          ctr := if toParent && r.sat then t.ctr.addSat else t.ctr }
        let s3 := if toParent then
            s2.modNode c p fun t => { t with kids := tmod t.kids ch {} fun q =>
              { q with vals := q.vals ++ [(r.code.setWidth 32, r.poison)] } }
          else s2.modNode c node fun t => { t with out := { t.out with
            outs := t.out.outs.modify (t.out.outs.length - 1) fun o => { o with vals := tset o.vals (t.pos - 1) r } } }
        if t.pos + 1 = h.length then rootEmit (popHdrs s3) c node else s3

end Sys2Proof.Machine
end

