-- ==== Sys2Proof/Machine/Update.lean ====
section
/-!
DEFINITION. The parameter update (08 R300 to R324): layer entries, coefficients and schedules, the recurrence, the
LOG32 master step, whole-layer mixing, steps and their checks, and working copies; and the loss stage (R329,
R330).
-/

namespace Sys2Proof.Machine

/-! ### Layer, coefficient and schedule entries (08 Tables 8.2, 8.4, 8.6, 8.12) -/

/-- A layer entry. -/
structure LayerEnt where
  layer : Nat
  rows : Nat
  cols : Nat
  shard : Nat
  firstRow : Nat
  shardRows : Nat
  wfmt : Nat
  tiled : Bool
  waddr : Nat
  wscale : F32
  nsWork : Nat
  deriving DecidableEq, Repr

def LayerEnt.parse (p : Blob) (i : Nat) : LayerEnt :=
  let o := 64 + 384 * i
  ⟨p.bits o 16, p.bits (o + 16) 20, p.bits (o + 36) 20, p.bits (o + 64) 44, p.bits (o + 128) 20,
   p.bits (o + 148) 20, p.bits (o + 168) 4, p.bits (o + 172) 1 = 1, p.bits (o + 176) 44,
   BitVec.ofNat 32 (p.bits (o + 224) 32), p.bits (o + 256) 44⟩

def LayerEnt.elems (e : LayerEnt) : Nat := e.shardRows * e.cols

/-- A region of a shard, padded to whole words (08 R301). -/
def LayerEnt.region (e : LayerEnt) : Nat := (4 * e.elems + 127) / 128 * 128

/-- A field of 32 bits of a coefficient entry as binary32. -/
def coefF (b : Blob) (lo : Nat) : F32 := BitVec.ofNat 32 (b.bits lo 32)
/-- C1 to C10. -/
def coefC (b : Blob) (k : Nat) : F32 := coefF b (32 * k)
def coefPhi (b : Blob) : Nat := b.bits 1 2
def coefIters (b : Blob) : Nat := b.bits 3 4
def coefStates (b : Blob) : Nat := b.bits 7 2
def coefSched (b : Blob) : Nat := b.bits 9 8
def coefBeta1 (b : Blob) : F32 := coefF b 352
def coefBeta2 (b : Blob) : F32 := coefF b 384
def coefRowEps (b : Blob) : F32 := coefF b 416
def coefNsEps (b : Blob) : F32 := coefF b 448
def coefNsGain (b : Blob) : F32 := coefF b 480
def coefNsA (b : Blob) (i : Nat) : F32 := coefF b (512 + 96 * i)
def coefNsB (b : Blob) (i : Nat) : F32 := coefF b (544 + 96 * i)
def coefNsC (b : Blob) (i : Nat) : F32 := coefF b (576 + 96 * i)

def optAdopt (o : Blob) : Bool := o.bits 106 1 = 1
def optDevices (o : Blob) : Nat := o.bits 192 14 + 1
def optCoefAddr (o : Blob) : Nat := o.bits 256 44
def optSchedAddr (o : Blob) : Nat := o.bits 320 44

/-- LOG32 split masters are selected (08 R321). -/
def log32Masters (o : Blob) : Bool :=
  match o.bits 108 2 with
  | 1 => false
  | 2 => true
  | _ => decide (optDevices o > 256)

/-! ### The schedule engine (08 R313 to R315) -/

def pow32 (b : F32) (n : Nat) : F32 :=
  if b = F32.one || n = 0 then F32.one else F32.exp2 (F32.mul (F32.ofNat n) (F32.log2 b))

/-- The binary32 coefficients of 08 Table 8.7, S11 to S1. -/
def sinPi (y : F32) : F32 :=
  let z := F32.mul y y
  let p := [0x3DA83C1A#32, 0xBF196966#32, 0x402335E3#32, 0xC0A55DE7#32, 0x40490FDB#32].foldl
    (fun p s => F32.add (F32.mul p z) s) 0xBBF183A8#32
  F32.mul p y

/-- Position and period of a restarting schedule; `fuel` bounds the restarts. -/
def restart (mult : Nat) : Nat → Nat → Nat → Nat × Nat
  | 0, q, p => (q, p)
  | f + 1, q, p => if q > p then restart mult f (q - p) (p * mult) else (q, p)

/-- A cycle of equal periods is a remainder; a longer one grows by its multiplier. -/
def restartPos (mult tau p : Nat) : Nat × Nat :=
  if mult = 1 then (if p = 0 then (tau, p) else if tau = 0 then (0, p) else ((tau - 1) % p + 1, p))
  else restart mult 64 tau p

/-- `lr(t)` of a schedule entry. -/
def lrAt (b : Blob) (t : Nat) : F32 :=
  let warm := b.bits 0 2
  let decay := b.bits 2 3
  let tw := b.bits 32 32
  let d := b.bits 64 32
  let peak := coefF b 96
  let low := coefF b 128
  if warm ≠ 0 && t ≤ tw then
    let x := F32.div (F32.ofNat t) (F32.ofNat tw)
    if warm = 1 then F32.mul peak x
    else F32.mul peak (F32.exp2 (F32.mul (F32.sub F32.one x) (F32.log2 (coefF b 160))))
  else
    let tau := if warm ≠ 0 then t - tw else t
    let phi : F32 :=
      match decay with
      | 0 => F32.one
      | 1 | 2 =>
        let (q, p) := if b.bits 5 1 = 1 then restartPos (b.bits 8 8) tau d else (min tau d, d)
        let x := F32.div (F32.ofNat q) (F32.ofNat p)
        if decay = 1 then F32.mul 0x3F000000#32 (F32.sub F32.one (sinPi (F32.sub x 0x3F000000#32)))
        else F32.sub F32.one x
      | 3 => F32.rsqrt (F32.add F32.one (F32.div (F32.ofNat tau) (F32.ofNat d)))
      | _ => pow32 (coefF b 192) (tau / max d 1)
    F32.add low (F32.mul (F32.sub peak low) phi)

/-- Bias correction (08 R315). -/
def biasCorr (beta : F32) (t : Nat) : F32 :=
  if F32.isZero beta then F32.one
  else
    let d := F32.sub F32.one (pow32 beta t)
    if F32.isZero d then F32.one else F32.div F32.one d

/-! ### The recurrence (08 R304 to R307) -/

/-- One element in work: its master's code and value, its states, `d`, and the poison of each. -/
structure UElem where
  code : BitVec 32
  w : F32
  wp : Bool
  s1 : F32
  p1 : Bool
  s2 : F32
  p2 : Bool
  d : F32
  dp : Bool
  deriving DecidableEq, Repr

/-- `update_elem`; `u` times the correctly rounded inverse root of `v`. -/
def updateElem (b : Blob) (bc1 bc2 w g s1 s2 : F32) : F32 × F32 × F32 :=
  let m := F32.mul
  let a := F32.add
  let n1 := a (a (m (coefC b 1) s1) (m (coefC b 2) g)) (m (coefC b 3) w)
  let n2 := a (m (coefC b 4) s2) (m (coefC b 5) (m g g))
  let u := a (m (m (coefC b 6) bc1) n1) (m (coefC b 7) g)
  let v := a (m (m (coefC b 8) bc2) n2) (coefC b 9)
  (n1, n2, m u (F32.rsqrt v))

/-- The binary32 value of a master code: itself, or the upper half of a LOG32 code (02 R66, R80). -/
def masterValue (log32 : Bool) (code : BitVec 32) : F32 :=
  if log32 then BitVec.ofNat 32 (logToF32 shapeLog16 (code.toNat / 65536) F32.one).code else code

/-- A LOG32 code of an exponent E32 under 02 R79. -/
def log32Code (neg : Bool) (e : Int) : Cvt :=
  let top : Int := 2 ^ 30 - 2 ^ 15 - 1
  if e > top then ⟨signBit neg 32 + ((top + 2 ^ 15) % 2 ^ 31).toNat, some .saturation⟩
  else if e < -(2 ^ 30) + 2 ^ 15 then ⟨0x40000000, none⟩
  else ⟨signBit neg 32 + ((e + 2 ^ 15) % 2 ^ 31).toNat, none⟩

/-- The LOG32 code nearest to an exact non-zero number. -/
def log32Near (y : Dy) : Cvt :=
  if y.m = 0 then ⟨0x40000000, none⟩ else log32Code (y.m < 0) (nearestExp 25 y.m.natAbs y.e)

/-- The new code of a LOG32 master (08 R307): nearest to `W - delta`, `W` the exact value of the whole code. An
irrational `W` is taken from a product of roots of 2 with 160 bits behind the point. -/
def log32Step (code : BitVec 32) (delta : F32) : Cvt :=
  let hi := code.toNat / 65536
  if hi = 0xC000 || F32.isNaN delta then ⟨0xC0000000, some .nonfinite⟩
  else if F32.isInf delta then log32Code (!F32.sign delta) (2 ^ 30)
  else if hi = 0x4000 then log32Near (F32.val delta).neg
  else if F32.isZero delta then ⟨code.toNat, none⟩
  else
    let low : Nat := code.toNat % 2 ^ 31
    let sf : Int := if low ≥ 2 ^ 30 then (low : Int) - 2 ^ 31 else low
    let e := sf - 2 ^ 15
    let ip := e / 2 ^ 25
    let fr := (e % 2 ^ 25).toNat
    let w : Dy := if fr = 0 then Dy.pow2 ip
      else ⟨2 * ((F32.exp2Frac (List.range 48) (fr * 2 ^ 23) (2 ^ 160, 2 ^ 160)).1 : Int) + 1, ip - 161⟩
    log32Near ((if code.msb then w.neg else w).sub (F32.val delta))

/-- What storing a binary32 value makes of it (08 R306): a poisoned one, a NaN, a clamped infinity. -/
inductive UFlag where
  | poison | nan | sat
  deriving DecidableEq, Repr

def storeF32 (x : F32) (p : Bool) : BitVec 32 × List UFlag :=
  if p then (F32.nan, [.poison])
  else if F32.isNaN x then (F32.nan, [.nan])
  else if F32.isInf x then (F32.maxFinite (F32.sign x), [.sat])
  else (x, [])

/-- The new master of an element with its Δ (08 R307). -/
def newMaster (log32 : Bool) (lr c10 : F32) (x : UElem) : BitVec 32 × List UFlag :=
  let p := x.wp || x.dp
  let delta := F32.mul lr (F32.add x.d (F32.mul c10 x.w))
  if !log32 then storeF32 (F32.sub x.w delta) p
  else if p then (0xC0000000#32, [.poison])
  else
    let c := log32Step x.code delta
    (BitVec.ofNat 32 c.code, match c.ev with | some .saturation => [.sat] | some _ => [.nan] | none => [])

/-! ### Whole-layer mixing (08 R308 to R310) -/

/-- ROWNORM of one row. -/
def rowNorm (eps : F32) (row : List F32) : List F32 :=
  let q := F32.rsqrt (F32.add (meanSquare row) eps)
  row.map fun d => F32.mul d q

def transposeM (x : List (List F32)) (n : Nat) : List (List F32) :=
  (List.range n).map fun j => x.map fun r => r.getD j F32.posZero

/-- A product with a transposed right side: entry (p, q) from row p and row q. -/
def mulRows (x y : List (List F32)) : List (List F32) :=
  x.map fun r => y.map fun c => F32.sumA40 ((r.zip c).map fun p => F32.mul p.1 p.2)

def mapM (f : F32 → F32) (x : List (List F32)) : List (List F32) := x.map (·.map f)
def zipM (f : F32 → F32 → F32) (x y : List (List F32)) : List (List F32) :=
  (x.zip y).map fun p => (p.1.zip p.2).map fun q => f q.1 q.2

/-- `ns` of 08 R309. -/
def nsMix (b : Blob) (rows cols : Nat) (d : List (List F32)) : List (List F32) :=
  let tr : Bool := rows > cols
  let x0 := if tr then transposeM d cols else d
  let n := if tr then rows else cols
  let nrm := F32.sqrt (F32.sumA40 (x0.flatten.map fun x => F32.mul x x))
  let inv := F32.div F32.one (F32.add nrm (coefNsEps b))
  let x1 := mapM (fun x => F32.mul x inv) x0
  let x2 := (List.range (coefIters b)).foldl (fun x i =>
    let a := mulRows x x
    let aa := mulRows a (transposeM a a.length)
    let bm := zipM (fun p q => F32.add (F32.mul (coefNsB b i) p) (F32.mul (coefNsC b i) q)) a aa
    zipM (fun p q => F32.add (F32.mul (coefNsA b i) p) q) x (mulRows bm (transposeM x n))) x1
  let x3 := mapM (fun x => F32.mul (coefNsGain b) x) x2
  if tr then transposeM x3 rows else x3

/-! ### Shards in memory (08 R301) -/

/-- `n` values of 32 bits from `a`, each with the poison of its word. -/
def read32s (m : Mem) (a n : Nat) : List (BitVec 32 × Bool) :=
  (List.range n).map fun i => (BitVec.ofNat 32 (m.readNat (a + 4 * i) 4), m.poisoned ((a + 4 * i) / 128))

/-- Values written in whole words; the padding of the last word is zero. -/
def write32s (s : State) (a : Nat) (vs : List (BitVec 32 × Bool)) : State :=
  ((chunks 32 vs).zipIdx).foldl (fun s p =>
    writeWord s (a / 128 + p.2) (BitVec.ofNat 1024 (packFields (p.1.map fun v => (v.1.toNat, 32))))
      (p.1.any (·.2))) s

/-- The shard header agrees with the layer entry (08 R317). -/
def shardHeaderOk (w : BitVec 1024) (e : LayerEnt) (log32 : Bool) (states : Nat) : Bool :=
  let n := w.toNat
  bits n 32 16 = e.layer && bits n 48 1 = boolNat log32 && bits n 49 2 = states &&
    bits n 64 20 = e.firstRow && bits n 84 20 = e.shardRows && bits n 104 20 = e.cols

/-- T written into a shard header. -/
def setShardT (s : State) (e : LayerEnt) (t : Nat) : State :=
  let w := s.mem.mem.word (e.shard / 128)
  writeWord s (e.shard / 128) (BitVec.ofNat 1024 (w.toNat / 2 ^ 32 * 2 ^ 32 + t % 2 ^ 32)) false

/-! ### Working copies (08 R322, R323) -/

/-- The working-copy code of one new master with its flag. -/
def copyCode (wfmt : Nat) (log32 : Bool) (s : F32) (code : BitVec 32) (p : Bool) : Nat × List UFlag :=
  let sh := if wfmt = 0 then shapeLog8 else shapeLog16
  if p then (sh.nanCode, [.poison])
  else if log32 && wfmt = 1 then
    (code.toNat / 65536, if code.toNat / 65536 = 0xC000 then [.nan] else [])
  else
    let c := toLog sh (masterValue log32 code) s none
    (c.code, match c.ev with | some .saturation => [.sat] | some _ => [.nan] | none => [])

/-- The copy's scale: fixed, or automatic from the shard (02 R88). -/
def copyScale (e : LayerEnt) (log32 : Bool) (ws : List (BitVec 32 × Bool)) : F32 :=
  if F32.isZero e.wscale then
    autoScale (if e.wfmt = 0 then .log8 else .log16)
      (amaxOf (ws.map fun w => oval (masterValue log32 w.1) w.2))
  else e.wscale

/-- An untiled copy: the shard's stored tensor. -/
def writeStored (s : State) (e : LayerEnt) (scale : F32) (use : Nat) (cs : List (Nat × Bool)) : State :=
  let f : Fmt := if e.wfmt = 0 then .log8 else .log16
  let h : THdr := ⟨e.elems, scale, e.wfmt, flagShaped, e.cols, e.shardRows, 1, 0, use⟩
  let ws := packTensor f (cs.map fun c => ⟨BitVec.ofNat 256 c.1, c.2⟩)
  (ws.zipIdx).foldl (fun s p => writeWord s (e.waddr / 128 + 1 + p.2) p.1.bits p.1.poison)
    (writeWord s (e.waddr / 128) h.word false)

/-- A tiled copy: each row is one column of its tiles, 128 lanes to a slice; a column or lane with no element
holds the zero code. -/
def writeTiled (s : State) (e : LayerEnt) (cs : List (Nat × Bool)) : State :=
  let f : Fmt := if e.wfmt = 0 then .log8 else .log16
  let slices := (e.cols + 127) / 128
  let col := if e.wfmt = 0 then 128 else 256
  let tile := 16 * col
  let hi := (e.firstRow + e.shardRows + 63) / 64 * 64
  (List.range (hi - e.firstRow)).foldl (fun s i =>
    let r := e.firstRow + i
    let row := if i < e.shardRows then (cs.drop (i * e.cols)).take e.cols else []
    (List.range slices).foldl (fun s t =>
      let u := r / 64 * (4 * slices) + t * 4 + r / 16 % 4
      let got := (row.drop (128 * t)).take 128
      let ls : List Elem := (got ++ List.replicate (128 - got.length) (zeroCode f, false)).map fun c =>
        ⟨BitVec.ofNat 256 c.1, c.2⟩
      let a := e.waddr + u * tile + r % 16 * col
      ((packTensor f ls).zipIdx).foldl (fun s p => writeWord s (a / 128 + p.2) p.1.bits p.1.poison) s) s) s

/-! ### One layer (08 R316 to R323) -/

/-- The cores of a stage in member order. -/
def stageMembers (x : Ctx) (stage : Nat) : List Nat :=
  (x.image.map fun im =>
    ((List.range nCores).filterMap fun m => (im.stages.find? fun r => r.stage = stage && r.member = m).bind fun r =>
      lcoreOf x r.lcore)).getD []

def modUpd (s : State) (core : Nat) (f : UpdateUnit → UpdateUnit) : State :=
  s.modCore core fun c => { c with upd := f c.upd }

/-- Every member's stage stops, with one fault of its context. -/
def stopAll (s : State) (ms : List Nat) (n : StopName) : State :=
  match ms with
  | [] => s
  | m :: t => t.foldl (fun s k => s.modCore k fun c => { c with stage := { c.stage with st := .stopped } })
      (stopStage s m n 0)

/-- The gradients of the layer are consumed, and the next layer of the step is next. -/
def layerDone (s : State) (ms : List Nat) (consume : Bool) : State :=
  ms.foldl (fun s m => modUpd (if consume then releaseIn s m 0 else s) m fun u => { u with layer := u.layer + 1 }) s

/-- The element counts of one member (08 R306): poison before NaN before saturation. -/
def countFlags (u : UpdateUnit) (fs : List (List UFlag)) : UpdateUnit :=
  fs.foldl (fun u f =>
    if f.contains .poison then { u with updatePoisoned := u.updatePoisoned + 1 }
    else if f.contains .nan then { u with updateNonfinite := u.updateNonfinite + 1 }
    else if f.contains .sat then { u with updateSaturations := u.updateSaturations + 1 } else u) u

/-- One member's elements before Φ. -/
def memberElems (s : State) (m : Nat) (e : LayerEnt) (b : Blob) (log32 : Bool) (bc1 bc2 : F32) : List UElem :=
  let n := e.elems
  let base := e.shard + 128
  let st := coefStates b
  let ws := read32s s.mem.mem base n
  let zero : List (BitVec 32 × Bool) := List.replicate n (0#32, false)
  let s1 := if st ≥ 1 then read32s s.mem.mem (base + e.region) n else zero
  let s2 := if st = 2 then read32s s.mem.mem (base + 2 * e.region) n else zero
  let gs := ((s.core m).inPort 0).elems
  ((ws.zip gs).zip (s1.zip s2)).map fun q =>
    let w := masterValue log32 q.1.1.1
    let wp := q.1.1.2
    let g := eVal q.1.2
    let gp := q.1.2.poison
    let r := updateElem b bc1 bc2 w g q.2.1.1 q.2.2.1
    let p1 := q.2.1.2 || gp || wp
    let p2 := q.2.2.2 || gp
    ⟨q.1.1.1, w, wp, r.1, p1, r.2.1, p2, if p1 || p2 then F32.nan else r.2.2, p1 || p2⟩

/-- Φ over a layer: the elements of every member, by member. -/
def mixLayer (b : Blob) (es : List (LayerEnt × List UElem)) : List (LayerEnt × List UElem) :=
  match coefPhi b with
  | 1 => es.map fun p => (p.1, (chunks (max p.1.cols 1) p.2).flatMap fun row =>
      let bad := row.any (·.dp)
      (row.zip (rowNorm (coefRowEps b) (row.map (·.d)))).map fun q =>
        { q.1 with d := if bad then F32.nan else q.2, dp := bad })
  | 2 =>
    let all := es.flatMap (·.2)
    if all.any (·.dp) then es.map fun p => (p.1, p.2.map fun x => { x with d := F32.nan, dp := true })
    else
      match es with
      | [] => []
      | (e, _) :: _ =>
        -- rows of the whole layer in order of FIRST_ROW; the shards cover it once (R311)
        let rowOf (r : Nat) : List F32 :=
          ((es.find? fun p => p.1.firstRow ≤ r && r < p.1.firstRow + p.1.shardRows).map fun p =>
            ((p.2.drop ((r - p.1.firstRow) * e.cols)).take e.cols).map (·.d)).getD []
        let out := nsMix b e.rows e.cols ((List.range e.rows).map rowOf)
        es.map fun p => (p.1, (p.2.zip ((out.drop p.1.firstRow).take p.1.shardRows).flatten).map fun q =>
          { q.1 with d := q.2 })
  | _ => es

/-- The stores of one member: masters, states, T and the working copy. -/
def storeMember (s : State) (m : Nat) (e : LayerEnt) (b : Blob) (log32 : Bool) (lr : F32) (t : Nat)
    (es : List UElem) : State :=
  let st := coefStates b
  let base := e.shard + 128
  let ws := es.map (newMaster log32 lr (coefC b 10))
  let wv : List (BitVec 32 × Bool) := (ws.zip es).map fun q => (q.1.1, q.2.wp || q.2.dp)
  let s1v := es.map fun x => storeF32 x.s1 x.p1
  let s2v := es.map fun x => storeF32 x.s2 x.p2
  let st1 := write32s s base wv
  let st2 := if st ≥ 1 then write32s st1 (base + e.region) ((s1v.zip es).map fun q => (q.1.1, q.2.p1)) else st1
  let st3 := if st = 2 then write32s st2 (base + 2 * e.region) ((s2v.zip es).map fun q => (q.1.1, q.2.p2)) else st2
  let st4 := setShardT st3 e t
  let scale := copyScale e log32 wv
  let cs := wv.map fun w => copyCode e.wfmt log32 scale w.1 w.2
  let copied : Bool := e.wfmt ≠ 15
  let cv := (cs.zip wv).map fun q => (q.1.1, q.2.2)
  let step := (s.ctx (s.core m).stage.ctx).step.jobStep.toNat
  let st5 := if !copied then st4 else if e.tiled then writeTiled st4 e cv else writeStored st4 e scale step cv
  let none' : List (List UFlag) := es.map fun _ => []
  let fs := ((ws.map (·.2)).zip ((if st ≥ 1 then s1v.map (·.2) else none').zip
      ((if st = 2 then s2v.map (·.2) else none').zip (if copied then cs.map (·.2) else none')))).map fun q =>
    q.1 ++ q.2.1 ++ q.2.2.1 ++ q.2.2.2
  modUpd st5 m fun u => { countFlags u fs with
    updatesApplied := u.updatesApplied + 1, lastLr := lr }

/-- The memory of a layer entry that its update reads or writes stands still (06 R240). -/
def layerStalls (s : State) (e : LayerEnt) (states : Nat) : Bool :=
  rangeStalls s e.shard (128 + (states + 1) * e.region) || (e.wfmt ≠ 15 && rangeStalls s e.waddr 128)

/-- An UPDATE stage takes its next layer once the verdict has reached it and every member holds the layer's
gradient (08 R316 to R320, R335). -/
def layerUpdate (s : State) (core : Nat) : State :=
  let c := s.core core
  match c.stage.info with
  | none => s
  | some r =>
    let x := s.ctx c.stage.ctx
    let ms := stageMembers x r.stage
    match ms.head?, x.step.verdict with
    | some m0, some v =>
      let i := (s.core m0).upd.layer
      if r.opclass ≠ 6 || v > 1 || i ≥ updNlayers r.param then s
      else
        let ents := ms.map fun m => (m, LayerEnt.parse (((s.core m).stage.info.map (·.param)).getD Blob.empty) i)
        let layer := updLayerNo r.param i
        let u0 := (s.core m0).upd
        let b := ((tget u0.tables.coefs layer).getD Blob.empty)
        let frozen := coefFrozen u0.tables layer
        let carried : Bool := !frozen || optReduceFrozen x.options
        let ready := ms.all fun m => ((s.core m).inPort 0).done && (s.core m).stage.st = .running
        if carried && !ready then s
        else
          match if carried then ents.find? fun q => ((s.core q.1).inPort 0).elems.length ≠ q.2.elems else none with
          | some q => stopAll s (q.1 :: ms.filter (· ≠ q.1)) .tensorLength
          | none =>
            if frozen then
              layerDone (if v = 0 then modUpd s m0 fun u => { u with frozenUpdates := u.frozenUpdates + 1 } else s) ms carried
            else if v = 1 then layerDone s ms true
            else if ents.any fun q => layerStalls s q.2 (coefStates b) then s
            else
              let log32 := log32Masters x.options
              let bad := ents.find? fun q => !mayReach s c.stage.ctx q.2.shard (128 + 3 * q.2.region)
                && !mayReach s c.stage.ctx q.2.shard (128 + (coefStates b + 1) * q.2.region)
              match bad with
              | some q => addressFault s q.1 q.2.shard
              | none =>
                if ents.any fun q => s.mem.mem.poisoned (q.2.shard / 128) ||
                    !shardHeaderOk (s.mem.mem.word (q.2.shard / 128)) q.2 log32 (coefStates b) then
                  stopAll s ms .shardHeader
                else
                  let ex := (tgetD u0.expectT i 0).toNat
                  if ents.any fun q => bits (s.mem.mem.word (q.2.shard / 128)).toNat 0 32 ≠ ex then
                    let s1 := modUpd s m0 fun u => { u with
                      stepSkews := u.stepSkews + 1, lastSkewLayer := BitVec.ofNat 16 layer }
                    if optAdopt x.options then
                      let tc := tgetD x.tC layer 0
                      let s2 := ents.foldl (fun s q => setShardT s q.2 tc.toNat) s1
                      let s3 := ms.foldl (fun s m => modUpd s m fun u => { u with
                        expectT := tset u.expectT i tc
                        stepAdoptions := u.stepAdoptions + 1
                        lastSkewLayer := BitVec.ofNat 16 layer }) s2
                      layerDone s3 ms true
                    else stopAll s1 ms .stepSkew
                  else if ex = 0xFFFFFFFF then stopAll s ms .stepLimit
                  else
                    let t := ex + 1
                    let lr := lrAt ((tget u0.tables.scheds (coefSched b)).getD Blob.empty) t
                    let bc1 := biasCorr (coefBeta1 b) t
                    let bc2 := biasCorr (coefBeta2 b) t
                    let es := mixLayer b (ents.map fun q => (q.2, memberElems s q.1 q.2 b log32 bc1 bc2))
                    let s1 := (ms.zip es).foldl (fun s q => storeMember s q.1 q.2.1 b log32 lr t q.2.2) s
                    let s2 := ms.foldl (fun s m => modUpd s m fun u => { u with
                      expectT := tset u.expectT i (BitVec.ofNat 32 t) }) s1
                    layerDone s2 ms true
    | _, _ => s

/-! ### The loss stage (08 R330) -/

/-- Row loss and gradient of one row, with poison. -/
def rowLoss (p : Blob) (xs : List Elem) (y : Elem) (ys : List Elem) : OVal × List OVal :=
  let scale := lossScale p
  let xp := xs.any (·.poison)
  if lossFunc p = 0 then
    if y.poison then (oval F32.nan true, xs.map fun _ => oval F32.nan true)
    else if y.code.toNat = lossIgnore p then (oval F32.posZero false, xs.map fun _ => oval F32.posZero false)
    else if xp then (oval F32.nan true, xs.map fun _ => oval F32.nan true)
    else
      let v := xs.map eVal
      let m := (v.drop 1).foldl F32.max (v.headD F32.posZero)
      let es := v.map fun x => F32.expf (F32.sub x m)
      let sum := F32.sumA40 es
      let inv := F32.div F32.one sum
      let lse := F32.add m (F32.mul (F32.log2 sum) 0x3F317218#32)
      (oval (F32.sub lse (v.getD y.code.toNat F32.posZero)) false,
       es.zipIdx.map fun q => oval (F32.mul (F32.sub (F32.mul q.1 inv)
         (if q.2 = y.code.toNat then F32.one else F32.posZero)) scale) false)
  else
    let ds := (xs.zip ys).map fun q => (F32.sub (eVal q.1) (eVal q.2), q.1.poison || q.2.poison)
    let bad := ds.any (·.2)
    (vecOut bad (F32.sumA40 (ds.map fun d => F32.mul 0x3F000000#32 (F32.mul d.1 d.1))),
     ds.map fun d => vecOut d.2 (F32.mul d.1 scale))

/-- A LOSS stage computes one prediction tensor against its targets. -/
def lossTensor (s : State) (core : Nat) : State :=
  let c := s.core core
  let p0 := c.inPort 0
  let p1 := c.inPort 1
  match c.stage.info, p0.hdr with
  | some r, some h =>
    if r.opclass ≠ 5 || c.stage.st ≠ .running || outputFull s core || !p0.done || !p1.done then s
    else if h.length = 0 then passEmpty s core h 0 (p0.hpoison || p1.hpoison) [0, 1] (h.c, h.w, h.h)
    else
      let n := max h.c 1
      let rows := chunks n p0.elems
      let ce : Bool := lossFunc r.param = 0
      let ys := if ce then [] else chunks n p1.elems
      if ce && p1.elems.any fun y => !y.poison && y.code.toNat ≠ lossIgnore r.param && y.code.toNat ≥ h.c then
        stopStage s core .lossTarget 0
      else
        let res := rows.zipIdx.map fun q =>
          rowLoss r.param q.1 (p1.elems.getD q.2 ⟨0, false⟩) (ys.getD q.2 [])
        let ignored := if ce then (p1.elems.filter fun y => !y.poison && y.code.toNat = lossIgnore r.param).length else 0
        let bad := res.any fun q => q.1.poison
        let total := F32.mul (F32.sumA40 (res.map fun q => q.1.code.setWidth 32)) (lossScale r.param)
        let s1 := s.modCore core fun c => { c with loss := { c.loss with
          ignoredRows := c.loss.ignoredRows + BitVec.ofNat 32 ignored } }
        let s2 := beginOut s1 core 0 { likeTensor h false with
          vals := (res.flatMap (·.2)).zipIdx.map fun q => (q.2, q.1) }
        let s3 := beginOut s2 core 1 ⟨1, 1, 1, 1, h.sample, flagShaped, false, [(0, vecOut bad total)]⟩
        releaseIn (releaseIn s3 core 0) core 1
  | _, _ => s

end Sys2Proof.Machine
end

