-- ==== Sys2Proof/Machine/Image.lean ====
section
/-!
DEFINITION. The pipeline image (05 R172 to R184, 03 R137, 06 R247): its parts read from their bytes, and the
checks of orders 1 to 6 of 05 Table 5.13.
-/

namespace Sys2Proof.Machine

/-! ### The parts of an image -/

def imShelves (b : Blob) : Nat := b.bits 48 8
def imStages (b : Blob) : Nat := b.bits 64 16
def imStreams (b : Blob) : Nat := b.bits 80 16
def imTrees (b : Blob) : Nat := b.bits 96 16
def imPasses (b : Blob) : Nat := b.bits 112 16
def imStageOff (b : Blob) : Nat := b.bits 128 32
def imStreamOff (b : Blob) : Nat := b.bits 160 32
def imTreeOff (b : Blob) : Nat := b.bits 192 32
def imPassOff (b : Blob) : Nat := b.bits 224 32
def imEscape (b : Blob) : List Nat := (List.range (imShelves b)).map fun k => b.bits (256 + 16 * k) 16

/-- Stage record `i` with its parameter block (05 Table 5.2). -/
def parseStage (b : Blob) (i : Nat) : StageRec :=
  let o := 8 * imStageOff b + 512 * i
  { lcore := b.bits o 8, stage := b.bits (o + 8) 12, member := b.bits (o + 20) 8, opclass := b.bits (o + 28) 4
    mode := b.bits (o + 32) 3, arrays := BitVec.ofNat 4 (b.bits (o + 36) 4), npassM1 := b.bits (o + 40) 8
    window := b.bits (o + 48) 1 = 1, post := b.bits (o + 49) 1 = 1, stagingKib := b.bits (o + 54) 10
    paramOff := b.bits (o + 64) 32, paramLen := b.bits (o + 96) 16, passFirst := b.bits (o + 112) 16
    scales := (List.range 4).map fun p => ⟨BitVec.ofNat 32 (b.bits (o + 128 + 64 * p) 32),
      b.bits (o + 160 + 64 * p) 1 = 1, b.bits (o + 161 + 64 * p) 1 = 1⟩
    streams := (List.range 8).map fun q => b.bits (o + 384 + 16 * q) 16
    param := b.slice (b.bits (o + 64) 32) (b.bits (o + 96) 16) }

/-- Stream table entry `i` (05 Table 5.7). -/
def parseStream (b : Blob) (i : Nat) : StreamRec :=
  let o := 8 * imStreamOff b + 256 * i
  { producer := BitVec.ofNat 32 (b.bits o 32)
    consumers := (List.range (b.bits (o + 169) 2 + 1)).map fun k => BitVec.ofNat 32 (b.bits (o + 32 + 32 * k) 32)
    format := b.bits (o + 160) 4, cls := b.bits (o + 164) 2, fanout := b.bits (o + 166) 2
    place := b.bits (o + 168) 1 = 1, chunk := b.bits (o + 176) 16, maxLen := b.bits (o + 192) 32
    capacity := b.bits (o + 224) 32 }

/-- Tree node descriptor `i` with its 16 child entries (03 Table 3.6). -/
def parseTree (b : Blob) (i : Nat) : TreeRec :=
  let o := 8 * imTreeOff b + 576 * i
  { node := b.bits o 16, fanin := b.bits (o + 16) 4, op := b.bits (o + 20) 2, shelf := b.bits (o + 22) 4
    fabric := b.bits (o + 26) 1 = 1, out := BitVec.ofNat 32 (b.bits (o + 32) 32)
    children := (List.range (b.bits (o + 16) 4 + 1)).map fun k => BitVec.ofNat 32 (b.bits (o + 64 + 32 * k) 32) }

/-- Pass descriptor `i` (05 Table 5.11). -/
def parsePass (b : Blob) (i : Nat) : PassRec :=
  let o := 8 * imPassOff b + 128 * i
  ⟨b.bits o 44, b.bits (o + 48) 16, b.bits (o + 64) 1 = 1, b.bits (o + 65) 1 = 1, b.bits (o + 66) 1 = 1,
   b.bits (o + 67) 2⟩

def parseImage (b : Blob) : Image :=
  { shelves := imShelves b, escape := imEscape b
    stages := (List.range (imStages b)).map (parseStage b)
    streams := (List.range (imStreams b)).map (parseStream b)
    trees := (List.range (imTrees b)).map (parseTree b)
    passes := (List.range (imPasses b)).map (parsePass b) }

/-- A stage takes weights by pass descriptors: MATMUL with WSRC = 0, and WINDOW (05 R176). -/
def StageRec.usesPasses (r : StageRec) : Bool := r.isWindow || (r.isMatmul && !matWsrc r.param)

/-- The pass descriptors of a stage. -/
def stagePasses (im : Image) (r : StageRec) : List PassRec :=
  if r.usesPasses then (im.passes.drop r.passFirst).take r.npass else []

/-- The stream bound to port `q`, with its number. -/
def imBound (im : Image) (r : StageRec) (q : Nat) : Option (Nat × StreamRec) :=
  (r.streams[q]?).bind fun i => (im.streams[i]?).map fun t => (i, t)

def imStage (im : Image) (lcore : Nat) : Option StageRec := im.stages.find? fun r => r.lcore = lcore

/-- The first word that a list of named breaches gives. -/
def ref (bad : Bool) (n : RefName) : Option RefName := if bad then some n else none

/-! ### Order 1: IMAGE_FORMAT (05 R173, R176 to R178) -/

/-- No two of a list of spans (offset, length) share a byte. -/
def spansApart : List (Nat × Nat) → Bool
  | [] => true
  | a :: t => (t.all fun b => a.2 = 0 || b.2 = 0 || a.1 + a.2 ≤ b.1 || b.1 + b.2 ≤ a.1) && spansApart t

/-- The sections of an image: header, stage records, stream table, trees, pass list and parameter blocks. -/
def imSpans (b : Blob) (im : Image) : List (Nat × Nat) :=
  [(0, 64), (imStageOff b, 64 * imStages b), (imStreamOff b, 32 * imStreams b), (imTreeOff b, 72 * imTrees b),
   (imPassOff b, 16 * imPasses b)] ++ im.stages.map fun r => (r.paramOff, r.paramLen)

/-- Header ranges and sections (05 R173). -/
def headerBad (b : Blob) : Bool :=
  b.bits 0 32 ≠ 0x4950514F || b.bits 32 16 ≠ 1 || imShelves b = 0 || imShelves b > 12 || imStages b = 0 ||
    imStages b > 144 || imStreams b > 4091

def spansBad (b : Blob) (im : Image) : Bool :=
  !((imSpans b im).all fun p => p.1 + p.2 ≤ b.len) || !spansApart (imSpans b im)

/-- Members are numbered from 0 without gaps (05 R176). -/
def membersBad (im : Image) (r : StageRec) : Bool :=
  let ms := im.stages.filter fun q => q.stage = r.stage
  !((List.range ms.length).all fun m => (ms.filter fun q => q.member = m).length = 1) ||
    ms.any fun q => q.opclass ≠ r.opclass || q.mode ≠ r.mode || q.npassM1 ≠ r.npassM1

/-- The input ports that a stage has bound. -/
def boundInputs (im : Image) (r : StageRec) : List Nat := (List.range 4).filter fun q => (imBound im r q).isSome

/-- The opening fields of a parameter block outside their ranges (05 Table 5.4). -/
def paramBad (im : Image) (r : StageRec) : Bool :=
  match r.opclass with
  | 0 => matK r.param > 2 ^ 20 || (matK r.param = 0 && !(matWsrc r.param && matWt r.param))
  | 4 => vecFunc r.param > 7
  | 8 => boundInputs im r ≠ List.range (routeNin r.param) || (routeMode r.param = 0 && routeNin r.param ≠ 1)
  | _ => false

/-- A stage record breaks 05 R176, R177 or R178. -/
def stageBad (im : Image) (r : StageRec) : Bool :=
  let arr : Bool := r.opclass ≤ 1
  r.lcore ≥ 12 * im.shelves || r.member > 143 || r.opclass > 8 ||
    (im.stages.filter fun q => q.lcore = r.lcore).length ≠ 1 || membersBad im r ||
    (arr && (r.mode = 0 || r.mode > 5 || r.arrays = 0)) || (!arr && (r.mode ≠ 0 || r.arrays ≠ 0)) ||
    r.window != (r.opclass = 1) || r.post != (r.opclass = 3) ||
    (r.usesPasses && r.passFirst + r.npassM1 ≥ im.passes.length) ||
    paramBad im r

/-- A stream table entry or a pass descriptor holds a reserved code (05 Tables 5.6 to 5.8, 5.11). -/
def streamBad (t : StreamRec) : Bool := t.format > 9 || (t.producer :: t.consumers).any fun e => epKind e > 6
def passBad (p : PassRec) : Bool := p.tiles = 0

def imageFormatBad (b : Blob) (im : Image) : Bool :=
  headerBad b || spansBad b im || im.stages.any (stageBad im) || im.streams.any streamBad || im.passes.any passBad

/-! ### Order 3: retired cores (01 R37) -/

def coreRetired (s : State) (c : Nat) (im : Image) : Bool :=
  im.stages.any fun r => match lcoreOf (s.ctx c) r.lcore with
    | some n => (lmapOf s n).retired
    | none => true

/-! ### Order 4: ports (05 R183, 07 R257) -/

/-- Every end of the streams: its reference, whether it produces, its stream and its place among consumers. -/
def imEnds (im : Image) : List (BitVec 32 × Bool × Nat × Nat) :=
  (im.streams.zipIdx).flatMap fun e =>
    (e.1.producer, true, e.2, 0) :: (e.1.consumers.zipIdx).map fun k => (k.1, false, e.2, k.2)

/-- The port number of a core's end: inputs 0 to 3, outputs 4 to 7. -/
def endPort (e : BitVec 32) (producer : Bool) : Nat := epPort e + if producer then 4 else 0

/-- The streams that name a port of a core. -/
def namers (im : Image) (lcore q : Nat) : List Nat :=
  ((imEnds im).filter fun e => epKind e.1 ≤ 1 && epLcore e.1 = lcore && endPort e.1 e.2.1 = q).map (·.2.2.1)

/-- An end stands in a role that its kind does not have. -/
def roleBad (e : BitVec 32) (producer : Bool) : Bool :=
  match epKind e with
  | 0 => producer
  | 1 => !producer
  | 2 => producer
  | 3 => !producer
  | _ => false

/-- The queues that an image names, by 256 × complex + queue, ascending (07 R258). -/
def namedQueues (im : Image) : List Nat :=
  (List.range 512).filter fun n => (imEnds im).any fun e =>
    epKind e.1 = 5 && epChannel e.1 < 1024 && epComplex e.1 * 256 + epChannel e.1 / 4 = n

/-- Queue descriptor `i` of the TYPE 08h section. -/
def queueBlob (qs : Blob) (i : Nat) : Blob := qs.slice (128 * i) 128

/-- The descriptor of a named queue, where the section holds one. -/
def queueFor (im : Image) (qs : Blob) (n : Nat) : Option Blob :=
  ((namedQueues im).findIdx? (· = n)).bind fun i => if 128 * i + 128 ≤ qs.len then some (queueBlob qs i) else none

/-- ROI of a queue as the port checks read it: bit 476 of its descriptor. -/
def roiBit (im : Image) (qs : Blob) (n : Nat) : Bool := ((queueFor im qs n).map fun d => d.bits 476 1 == 1).getD false

/-- An intake reference breaks 07 R257. -/
def intakeEndBad (im : Image) (qs : Blob) (e : BitVec 32) (producer : Bool) : Bool :=
  epKind e = 5 &&
    (epChannel e ≥ 1024 ||
      (epChannel e % 4 % 2 = 1 && !roiBit im qs (epComplex e * 256 + epChannel e / 4)) ||
      producer != (epChannel e % 4 ≠ 3))

/-- PORT_CONFLICT: ports and streams do not name each other once (05 R183), or an intake reference is wrong. -/
def portConflict (im : Image) (qs : Blob) : Bool :=
  ((imEnds im).any fun e => roleBad e.1 e.2.1 || intakeEndBad im qs e.1 e.2.1 ||
    (epKind e.1 ≤ 1 && (namers im (epLcore e.1) (endPort e.1 e.2.1)).length ≠ 1)) ||
  (im.stages.any fun r => (List.range 8).any fun q =>
    let i := r.streams.getD q 0xFFFF
    i ≠ 0xFFFF && namers im r.lcore q ≠ [i]) ||
  ((imEnds im).any fun e => epKind e.1 ≤ 1 &&
    match imStage im (epLcore e.1) with
    | some r => r.streams.getD (endPort e.1 e.2.1) 0xFFFF ≠ e.2.2.1
    | none => true)

/-! ### Order 5: formats (05 R183, 02 R75, R586) -/

/-- A format of numbers: neither U32 nor RECORD. -/
def numeric (f : Nat) : Bool := f ≠ 8 && f ≠ 9

/-- A stage emits a format on an output port. A ROUTE converts numbers and passes U32 and records unchanged. -/
def emitsFormat (im : Image) (r : StageRec) (f : Nat) : Bool :=
  match r.opclass with
  | 3 => if postOp r.param = 0 then numeric f else f = 9
  | 7 => true
  | 8 => (List.range 4).all fun q => match imBound im r q with
      | some (_, t) => (numeric t.format && numeric f) || t.format = f
      | none => true
  | _ => numeric f

/-- A stage accepts a format on input port `q`; the target's format of a LOSS stage is checked by LOSS_DESC. -/
def acceptsFormat (r : StageRec) (q f : Nat) : Bool :=
  match r.opclass with
  | 3 => if postOp r.param = 1 then f = 9 else numeric f
  | 5 => (q = 1 && lossFunc r.param = 0) || numeric f
  | 7 => f = 8
  | 8 => true
  | _ => numeric f

/-- The prefetch descriptor at a device address (06 Table 6.6). -/
def readPf (m : Mem) (a : Nat) : PfDesc :=
  let n := m.readNat a 32
  ⟨bits n 0 44, bits n 44 4, bits n 48 3, bits n 51 1 = 1, BitVec.ofNat 32 (bits n 64 32), bits n 96 32, bits n 128 16,
   bits n 144 16⟩

/-- PF_TABLE_BASE of image shelf `k`: entries 0 to 11 of the memory plan (11 Table 11.7). -/
def pfBaseOf (memplan : Blob) (k : Nat) : Nat := memplan.bits (64 * k) 44

/-- The descriptor that a memory endpoint names. -/
def endPf (m : Mem) (memplan : Blob) (e : BitVec 32) : PfDesc := readPf m (pfBaseOf memplan (epEngine e) + 32 * epDesc e)

/-- STREAM_FORMAT at one end. -/
def endFormatBad (m : Mem) (memplan qs : Blob) (im : Image) (f : Nat) (e : BitVec 32) (producer : Bool) : Bool :=
  match epKind e with
  | 0 | 1 => match imStage im (epLcore e) with
    | some r => if producer then !emitsFormat im r f else !acceptsFormat r (epPort e) f
    | none => false
  | 4 => (endPf m memplan e).format ≠ f
  | 5 => match epChannel e % 4, queueFor im qs (epComplex e * 256 + epChannel e / 4) with
    | 0, some d | 1, some d => qFormat d ≠ f
    | 2, _ | 3, _ => f ≠ 9
    | _, _ => false
  | _ => false

def streamFormatBad (m : Mem) (memplan qs : Blob) (im : Image) : Bool :=
  (imEnds im).any fun e => match im.streams[e.2.2.1]? with
    | some t => endFormatBad m memplan qs im t.format e.1 e.2.1
    | none => false

/-! ### Order 6: class, capacity and fan-out (05 R184, R190 to R192) -/

/-- Stream words of one maximum tensor (05 R191). -/
def maxTensor (t : StreamRec) : Nat := wordsOf t.maxLen t.format + 1

/-- A stream is deep (05 R191). -/
def deep (t : StreamRec) : Bool := maxTensor t ≤ t.capacity

/-- The minimum CAPACITY of a class (05 Table 5.10). -/
def minCapacity (t : StreamRec) : Nat :=
  match t.cls with
  | 1 => maxTensor t
  | 2 => 2 * maxTensor t
  | _ => 2

def streamClassBad (im : Image) : Bool :=
  im.streams.any fun t =>
    (t.fanout = 1) != (t.cls = 3) || (t.fanout = 0 && t.consumers.length > 1) || t.capacity < minCapacity t ||
      ((t.producer :: t.consumers).any (fun e => epKind e = 6) && t.cls ≠ 1 && t.cls ≠ 2)

end Sys2Proof.Machine
end

