-- ==== Sys2Proof/Machine/Prefetch.lean ====
section
/-!
DEFINITION. The shelf prefetch engine (06 R244 to R253): staging fills, READ and WRITE endpoints, and the check
unit that guards stored tensors (15 R554 to R560).
-/

namespace Sys2Proof.Machine

/-! ### The check unit (15 R554 to R560) -/

/-- The least recently used live channel. -/
def oldestChannel : List CheckCh → Option CheckCh
  | [] => none
  | c :: t => match oldestChannel t with
    | none => some c
    | some d => some (if c.stamp ≤ d.stamp then c else d)

/-- The channel of a descriptor is live for its turn: a switch saves the least recently used of eight
(15 R555). -/
def CheckUnit.use (u : CheckUnit) (d : Nat) : CheckUnit :=
  let now := u.clock + 1
  if u.live.any (·.desc = d) then
    { u with clock := now, live := u.live.map fun c => if c.desc = d then { c with stamp := now } else c }
  else
    let c := { tgetD u.saved d ⟨d, false, 0, 0, 0, 0⟩ with stamp := now }
    match (if u.live.length < 8 then none else oldestChannel u.live) with
    | none => { u with clock := now, live := u.live ++ [c], saved := terase u.saved d }
    | some o => { u with
        clock := now
        live := u.live.map fun x => if x.desc = o.desc then c else x
        saved := tset (terase u.saved d) o.desc o
        switches := u.switches + 1 }

def CheckUnit.channel (u : CheckUnit) (d : Nat) : CheckCh := (u.live.find? (·.desc = d)).getD ⟨d, false, 0, 0, 0, 0⟩

def CheckUnit.put (u : CheckUnit) (c : CheckCh) : CheckUnit :=
  { u with live := u.live.map fun x => if x.desc = c.desc then c else x }

/-- Bytes absorbed by the channel of a descriptor; the first word of a slot opens it with the slot's device
address as tag (15 R556, Table 15.2). -/
def CheckUnit.absorb (u : CheckUnit) (d tag : Nat) (w : BitVec 1024) : CheckUnit :=
  let c := u.channel d
  let v := if c.open' then c.value else crcOpen crc64 tag
  u.put { c with open' := true, alg := 3, value := crcBytes crc64 v w.toNat 128, bytes := (if c.open' then c.bytes else 0) + 128 }

/-- The channel closes and its running value reads 0 (15 R556). -/
def CheckUnit.close (u : CheckUnit) (d : Nat) : CheckUnit :=
  u.put { u.channel d with open' := false, alg := 0, value := 0, bytes := 0 }

/-- A check word (15 Table 15.3). -/
def checkWord (words use check : Nat) : BitVec 1024 :=
  let v := packFields [(0x4B43514F, 32), (words, 32), (use, 32), (0, 32), (check, 64)]
  BitVec.ofNat 1024 (v + 2 ^ 1008 * checkValue crc16 0 ⟨126, v⟩)

/-- A check word is valid (15 R559). -/
def checkWordValid (w : BitVec 1024) : Bool :=
  let n := w.toNat
  bits n 0 32 = 0x4B43514F && bits n 32 32 ≠ 0 && bits n 1008 16 = checkValue crc16 0 ⟨126, bits n 0 1008⟩

def State.modCheck (s : State) (sh : Nat) (f : CheckUnit → CheckUnit) : State :=
  s.modShelf sh fun x => { x with check := f x.check }

/-! ### Slots (06 R251, R252) -/

/-- Stored words of a tensor: its header and its data words. -/
def storedWords (h : THdr) : Nat := wordsOf h.length h.format + 1

def slotAddr (d : PfDesc) (k : Nat) : Nat := d.addr + k * d.stride

/-- The slot has a word left for a check word (15 R557). -/
def slotHasCheck (d : PfDesc) (h : THdr) : Bool := 128 * storedWords h + 128 ≤ d.stride

def PfHeld.put (s : State) (sh d : Nat) (p : PfHeld) : State := s.modShelf sh fun x => { x with pf := tset x.pf d p }

/-- The cores that consume the tensor under way on a stream: at a deal the one whose turn it is, else every one. -/
def consumingCores (s : State) (c i : Nat) (r : StreamRec) : List Nat :=
  let es := if r.fanout = 2 then (r.consumers[(s.stream c i).turn]?).toList else r.consumers
  es.filterMap (endpointCore (s.ctx c))

/-- The stages at one end of a memory endpoint stop, or the context faults where that end is no stage. -/
def stopEnd (s : State) (c : Nat) (cores : List Nat) (n : StopName) (addr : Nat) : State :=
  if cores = [] then
    let s1 := if n = .addressFault then s.modMemSys fun m => { m with addressFaults := m.addressFaults + 1 } else s
    contextFault s1 c ⟨n, none, if n = .shapeMissing then .stage else .memory, addr⟩
  else cores.foldl (fun s k => if n = .addressFault then addressFault s k addr else stopStage s k n addr) s

/-! ### READ (06 R251, R252; 15 R559) -/

/-- One word of a stored tensor joins the stream: to the consumer whose turn a deal gives it, or to the shared
wait of the others. A stripe is cut once the tensor is whole; one that is not SHAPED stops the stages that would take it
(05 R186). -/
def readEmit (s : State) (p : PfHeld) (w : SWord) : State × PfHeld :=
  match streamRec (s.ctx p.ctx) p.stream with
  | none => (s, p)
  | some r =>
    match r.fanout with
    | 3 =>
      let p1 := { p with got := p.got ++ [w] }
      if !w.last then (s, p1)
      else
        match p1.got, fmtOf r.format with
        | hw :: ws, some f =>
          let h := THdr.parse hw.bits
          let es : List Elem := (ws.flatMap fun x => (List.range (perWord f)).map fun i =>
            (⟨BitVec.ofNat 256 (unpackElem f x.bits i), x.poison⟩ : Elem)).take h.length
          let (s1, ok) := streamPush s p.ctx p.stream h f es hw.poison
          (if ok then s1 else stopEnd s p.ctx (consumingCores s p.ctx p.stream r) .shapeMissing 0, { p1 with got := [] })
        | _, _ => (s, { p1 with got := [] })
    | 2 =>
      let k := (s.stream p.ctx p.stream).turn
      let s1 := streamAppend s p.ctx p.stream k [w]
      let s2 := if w.last then s1.modStream p.ctx p.stream fun t => { t with turn := (k + 1) % r.consumers.length }
        else s1
      (pump s2 p.ctx p.stream, p)
    | _ => (pump (streamAppend s p.ctx p.stream 0 [w]) p.ctx p.stream, p)

/-- The LAST word's check (15 R559): whether it comes poisoned, and the counters. -/
def slotCheck (s : State) (sh d : Nat) (p : PfHeld) (h : THdr) (bad : Bool) (base : Nat) : Bool × State :=
  let u := (s.shelf sh).check
  let cw := s.mem.mem.word (base / 128 + p.desc.stride / 128 - 1)
  let s1 := s.modCheck sh fun u => u.close d
  if bad then (false, s1)
  else if slotHasCheck p.desc h && checkWordValid cw &&
      !s.mem.mem.poisoned (base / 128 + p.desc.stride / 128 - 1) then
    let okk : Bool := bits cw.toNat 32 32 = storedWords h && bits cw.toNat 128 64 = (u.channel d).value
    (!okk, s1.modCheck sh fun u => { u with
      slotsChecked := u.slotsChecked + 1
      failures := u.failures + (if okk then 0 else 1) })
  else (false, s1.modCheck sh fun u => { u with slotsUnchecked := u.slotsUnchecked + 1 })

/-- A linked READ has read the LAST word of its slot: the slot may be written again (06 R246). -/
def slotRead (s : State) (sh : Nat) (p : PfHeld) (last : Bool) : State :=
  match tget (s.shelf sh).pf p.desc.link with
  | some q => if last && p.desc.linked then PfHeld.put s sh p.desc.link { q with full := q.full.erase p.slot } else s
  | none => s

/-- A READ moves its next word (06 R251). -/
def readTurn (s : State) (sh d : Nat) (p : PfHeld) (e : Ecc) : State :=
  let base := slotAddr p.desc p.slot
  let a := base + 128 * p.word
  match streamRec (s.ctx p.ctx) p.stream with
  | none => s
  | some r =>
    let cores := consumingCores s p.ctx p.stream r
    if !mayReach s p.ctx a 128 then stopEnd s p.ctx cores .addressFault a
    else
      let (w, poison, s0) := readWord s (a / 128) e
      let s1 := s0.modShelf sh fun x => { x with pfRead := x.pfRead + 128 }
      let h := match p.hdr with | some h => h | none => THdr.parse w
      if p.word = 0 && (poison || h.format ≠ p.desc.format || h.length > r.maxLen ||
          128 * storedWords h > p.desc.stride) then
        stopEnd s1 p.ctx cores .memTensorBad 0
      else
        let s2 := s1.modCheck sh fun u => (u.use d).absorb d base w
        let last : Bool := p.word + 1 = storedWords h
        let bad := p.bad || poison
        let (fail, s3) := if last then slotCheck s2 sh d p h bad base else (false, s2)
        let (s4, p1) := readEmit s3 p ⟨w, p.word = 0, last, poison || fail⟩
        let p2 : PfHeld := if last then { p1 with
            slot := (p.slot + 1) % max p.desc.count 1, word := 0, hdr := none, bad := false }
          else { p1 with word := p.word + 1, hdr := some h, bad := bad }
        slotRead (p2.put s4 sh d) sh p last

/-! ### WRITE (06 R251, R252; 15 R557, R558) -/

/-- The consumer place of a memory endpoint in its stream. -/
def memConsumer (r : StreamRec) (engine d : Nat) : Nat :=
  (r.consumers.findIdx? fun e => epKind e = 4 && epEngine e = engine && epDesc e = d).getD 0

/-- The check word of a finished slot: WORDS is 0 where a word came poisoned or the tensor was cut off. -/
def writeCheck (s : State) (sh d : Nat) (p : PfHeld) (h : THdr) (ok : Bool) : State :=
  let base := slotAddr p.desc p.slot
  let v := ((s.shelf sh).check.channel d).value
  let s1 := s.modCheck sh fun u => u.close d
  if slotHasCheck p.desc h then
    writeWord s1 (base / 128 + p.desc.stride / 128 - 1)
      (checkWord (if ok then storedWords h else 0) h.use (if ok then v else 0)) false
  else s1.modCheck sh fun u => { u with slotsUnchecked := u.slotsUnchecked + 1 }

/-- A READ of the shelf is linked to descriptor `d`. -/
def linkedRead (s : State) (sh d : Nat) : Bool :=
  (s.shelf sh).pf.any fun q => q.2.desc.op = 1 && q.2.desc.linked && q.2.desc.link = d

/-- The slot of the tensor that a header opens (06 R251). -/
def useSlot (d : PfDesc) (h : THdr) : Nat := h.use % max d.count 1

/-- A WRITE takes the next word of its stream into the slot USE mod COUNT. -/
def writeTurn (s : State) (sh d k : Nat) (p : PfHeld) (r : StreamRec) (w : SWord) : State :=
  let cores := (endpointCore (s.ctx p.ctx) r.producer).toList
  let h := match p.hdr with | some h => h | none => THdr.parse w.bits
  let slot := if w.header then useSlot p.desc h else p.slot
  let a := slotAddr p.desc slot + 128 * p.word
  if w.header && 128 * storedWords h > p.desc.stride then stopEnd s p.ctx cores .memTensorBad 0
  else if !mayReach s p.ctx a 128 then stopEnd s p.ctx cores .addressFault a
  else
    let s1 := popWord s p.ctx p.stream k
    let s2 := writeWord s1 (a / 128) w.bits w.poison
    let s3 := s2.modShelf sh fun x => { x with pfWritten := x.pfWritten + 128 }
    let s4 := s3.modCheck sh fun u => (u.use d).absorb d (slotAddr p.desc slot) w.bits
    let bad := p.bad || w.poison
    let p1 : PfHeld := { p with slot := slot, word := p.word + 1, hdr := some h, bad := bad }
    if w.last then
      let s5 := writeCheck s4 sh d p1 h (!bad)
      PfHeld.put s5 sh d { p1 with
        word := 0, hdr := none, bad := false
        full := if linkedRead s sh d then setInsert p.full slot else p.full }
    else p1.put s4 sh d

/-- A WRITE that stops before its LAST word completes with a check word of WORDS = 0 (15 R558). -/
def cutWrites (s : State) (c : Nat) : State :=
  (List.range nShelves).foldl (fun s sh =>
    ((s.shelf sh).pf.filter fun q => q.2.ctx = c && q.2.desc.op = 2 && q.2.word ≠ 0).foldl (fun s q =>
      match q.2.hdr with
      | some h => PfHeld.put (writeCheck s sh q.1 q.2 h false) sh q.1 { q.2 with word := 0, hdr := none, bad := false }
      | none => s) s) s

/-! ### Requests and turns (06 R246, R253) -/

/-- The word that a WRITE's buffer offers. -/
def writeHead (s : State) (sh d : Nat) (p : PfHeld) : Option (Nat × StreamRec × SWord) :=
  (streamRec (s.ctx p.ctx) p.stream).bind fun r =>
    let eng := ((shelvesOf (s.ctx p.ctx).mask).findIdx? (· = sh)).getD 0
    let k := memConsumer r eng d
    if bufferOn s p.ctx r k then (((s.stream p.ctx p.stream).buf k).head).map fun w => (k, r, w) else none

/-- A linked READ waits until the slot has been written whole, and its WRITE until the slot has been read whole
(06 R246). -/
def linkAllows (s : State) (sh d : Nat) (p : PfHeld) : Bool :=
  p.word ≠ 0 ||
  if p.desc.op = 1 then
    !p.desc.linked || ((tget (s.shelf sh).pf p.desc.link).map fun q => q.full.contains p.slot).getD false
  else match writeHead s sh d p with
    | some (_, _, w) => !(linkedRead s sh d && p.full.contains (useSlot p.desc (THdr.parse w.bits)))
    | none => true

/-- An endpoint has a word to move. -/
def endpointReady (s : State) (sh d : Nat) (p : PfHeld) : Bool :=
  linkAllows s sh d p && (s.ctx p.ctx).tear.isNone && !(s.ctx p.ctx).held &&
    (if p.desc.op = 1 then
      (streamRec (s.ctx p.ctx) p.stream).isSome && decide (waiting (s.stream p.ctx p.stream) = 0)
    else (writeHead s sh d p).isSome)

/-- The address of the next word of an endpoint. -/
def endpointAddr (s : State) (sh d : Nat) (p : PfHeld) : Nat :=
  let slot := match p.desc.op, p.word, writeHead s sh d p with
    | 2, 0, some (_, _, w) => useSlot p.desc (THdr.parse w.bits)
    | _, _, _ => p.slot
  slotAddr p.desc slot + 128 * p.word

/-- The staging fill under way of a core. -/
def fillOf (s : State) (core : Nat) : Option (Nat × Staging) :=
  let c := s.core core
  if c.stage.st = .config || c.stage.st = .running || c.stage.st = .ready then
    c.stage.staging.find? fun g => !g.2.full && g.2.arrived < passWords c g.2.pass
  else none

/-- The address of word `n` of a fill. -/
def fillAddr (c : Core) (g : Staging) : Nat :=
  let tb := tileBytes (weightFmt c.arr.mode) / 128
  match passDesc c.stage g.pass with
  | some d => d.addr + g.arrived / tb * d.stride + 128 * (g.arrived % tb)
  | none => 0

/-- The core whose turn an endpoint has: a READ's first consumer, a WRITE's producer, and after every core where that end
is none. -/
def endCore (s : State) (p : PfHeld) : Nat :=
  ((streamRec (s.ctx p.ctx) p.stream).bind fun r =>
    if p.desc.op = 1 then r.consumers.findSome? (endpointCore (s.ctx p.ctx))
    else endpointCore (s.ctx p.ctx) r.producer).getD nCores

/-- The place of an endpoint in the round: by core, then by descriptor. -/
def endKey (s : State) (d : Nat) (p : PfHeld) : Nat := endCore s p * 2048 + d

/-- A request has work at its requester, and the tier of its next word answers. -/
def reqMoves (s : State) (sh : Nat) (q : PfReq) : Bool :=
  if q.fill then match fillOf s q.id with
    | some g => !tierStalls s (fillAddr (s.core q.id) g.2) && coreOn s q.id
    | none => false
  else match tget (s.shelf sh).pf q.id with
    | some p => endpointReady s sh q.id p && !tierStalls s (endpointAddr s sh q.id p)
    | none => false

/-- The requester of a request is still there. -/
def reqStands (s : State) (sh : Nat) (q : PfReq) : Bool :=
  if q.fill then (fillOf s q.id).isSome else (tget (s.shelf sh).pf q.id).isSome

/-- The least of a list that is not below `lo`, or the least of all. -/
def nextFrom (lo : Nat) (ks : List Nat) : Option Nat :=
  let least (l : List Nat) : Option Nat := match l with | [] => none | k :: t => some (t.foldl min k)
  match least (ks.filter fun k => lo ≤ k) with
  | some k => some k
  | none => least ks

/-- The requesters that no request stands for: the cores of fills, and the keys of endpoints. -/
def fillsDue (s : State) (sh : Nat) : List Nat :=
  ((List.range 12).map fun n => sh * 12 + n).filter fun n =>
    (fillOf s n).isSome && !(s.shelf sh).pfReqs.any fun q => q.fill && q.id = n
def endsDue (s : State) (sh : Nat) : List Nat :=
  ((s.shelf sh).pf.filter fun q => endpointReady s sh q.1 q.2 &&
    !(s.shelf sh).pfReqs.any fun r => !r.fill && r.id = q.1).map fun q => endKey s q.1 q.2

/-- The engine takes a request of 2 KiB where it holds fewer than 64: fills and endpoints in turn, each round-robin in
ascending order of core. -/
def takeRequest (s : State) (sh : Nat) : State :=
  let x := s.shelf sh
  if x.pfReqs.length ≥ 64 then s
  else
    match nextFrom x.pfCore (fillsDue s sh), nextFrom x.pfEnd (endsDue s sh) with
    | none, none => s
    | some n, e => if e.isSome && x.pfFill then
        s.modShelf sh fun x => { x with
          pfReqs := x.pfReqs ++ [⟨false, e.getD 0 % 2048, 16⟩], pfFill := false, pfEnd := e.getD 0 + 1 }
      else s.modShelf sh fun x => { x with pfReqs := x.pfReqs ++ [⟨true, n, 16⟩], pfFill := true, pfCore := n + 1 }
    | none, some e => s.modShelf sh fun x => { x with
        pfReqs := x.pfReqs ++ [⟨false, e % 2048, 16⟩], pfFill := false, pfEnd := e + 1 }

/-- A staging fill moves one word of its tiles (06 R250). -/
def fillTurn (s : State) (sh core : Nat) (area : Nat) (g : Staging) (e : Ecc) : State :=
  let c := s.core core
  let a := fillAddr c g
  if !mayReach s c.stage.ctx a 128 then addressFault s core a
  else
    let (w, poison, s1) := readWord s (a / 128) e
    let tb := tileBytes (weightFmt c.arr.mode) / 128
    let u := g.arrived / tb
    let k := g.arrived % tb
    let t := tgetD g.tiles u (0, 0)
    let g1 := { g with
      arrived := g.arrived + 1
      tiles := tset g.tiles u (t.1 + w.toNat * 2 ^ (1024 * k), t.2 + if poison then 2 ^ k else 0) }
    (s1.modCore core fun c => { c with stage := { c.stage with staging := tset c.stage.staging area g1 } }).modShelf
      sh fun x => { x with pfRead := x.pfRead + 128 }

/-- One word of a request moves. -/
def serveRequest (s : State) (sh : Nat) (q : PfReq) (e : Ecc) : State :=
  if q.fill then match fillOf s q.id with
    | some (area, g) => fillTurn s sh q.id area g e
    | none => s
  else match tget (s.shelf sh).pf q.id with
    | none => s
    | some p =>
      if p.desc.op = 1 then readTurn s sh q.id p e
      else match writeHead s sh q.id p with
        | some (k, r, w) => writeTurn s sh q.id k p r w
        | none => s

/-- The requester has come to the end of its fill, or of its slot. -/
def reqEnded (s : State) (sh : Nat) (q : PfReq) : Bool :=
  if q.fill then (fillOf s q.id).isNone else ((tget (s.shelf sh).pf q.id).map fun p => decide (p.word = 0)).getD true

/-- The engine of a shelf takes a request that is due, and the oldest request that can moves one word (06 R244, R253; one
word is one turn, log entry 17). A request ends with its 2 KiB, its slot or its fill. -/
def prefetchTurn (s : State) (sh : Nat) (e : Ecc) : State :=
  if !domainOn s (shelfDomain sh) then s
  else
    let s0 := s.modShelf sh fun x => { x with pfReqs := x.pfReqs.filter (reqStands s sh) }
    let s1 := takeRequest s0 sh
    match (s1.shelf sh).pfReqs.find? (reqMoves s1 sh) with
    | none => s1
    | some q =>
      let s2 := serveRequest s1 sh q e
      let ended : Bool := q.left ≤ 1 || reqEnded s2 sh q
      s2.modShelf sh fun x => { x with pfReqs := x.pfReqs.filterMap fun r =>
        if r.fill != q.fill || r.id ≠ q.id then some r
        else if ended then none else some { r with left := q.left - 1 } }

end Sys2Proof.Machine
end

