-- ==== Sys2Proof/Machine/LoadCheck.lean ====
section
/-!
DEFINITION. The loader's checks of orders 7 to 13 of 05 Table 5.13: scales and BBF12, trees, windows and
post-processing, intake descriptors, the step plan, updates and losses, passes, store fit, the wait-for graph, joins
and escape regions.
-/

namespace Sys2Proof.Machine

/-- What an image is loaded with: its bytes, its step plan, the training options, its queue descriptors, its memory
plan, the loader table, the first output rows of striped stages by stage number (04 R160), and whether the load
precedes a restore (10 R412). -/
structure LoadIn where
  img : Blob
  plan : Blob
  options : Blob
  queues : Blob
  memplan : Blob
  loader : Blob
  stripes : Tbl (List Nat)
  restoring : Bool
  deriving DecidableEq, Repr

/-! ### Order 7: scales and BBF12 (02 R84 to R87, R107) -/

def outsOf (im : Image) (r : StageRec) : List (Nat × StreamRec) :=
  (List.range 4).filterMap fun p => (imBound im r (4 + p)).map fun t => (p, t.2)

/-- A scale descriptor of a bound output breaks 02 R84, R86, R87 or the BBF12 rule of scales. -/
def scaleBad (r : StageRec) (f : Nat) (d : ScaleDesc) : Bool :=
  (if d.auto then d.scale ≠ 0 || !(f = 0 || f = 1 || f = 5 || f = 6) else !F32.isScale d.scale) ||
    (d.sr && f > 1) || (r.mode = 5 && (d.auto || d.scale ≠ F32.one))

/-- The scale descriptor of a tree root's endpoint: the image format names no place for it (log entry 19). -/
def rootScale (img : Blob) (node : Nat) : ScaleDesc :=
  let v := Config.rootDesc img.val node
  ⟨v.setWidth 32, v.getLsbD 32, v.getLsbD 33⟩

/-- A root's scale descriptor breaks 02 R84 to R87, or its draws have no stream of their own (08 R327). -/
def rootScaleBad (img : Blob) (im : Image) : Bool :=
  im.streams.any fun t => epKind t.producer = 3 &&
    (let d := rootScale img (epNode t.producer)
     (if d.auto then d.scale ≠ 0 || !(t.format = 0 || t.format = 1 || t.format = 5 || t.format = 6)
      else !F32.isScale d.scale) || (d.sr && (t.format > 1 || epNode t.producer ≥ 32768)))

/-- The scale of every tensor of a stream is 1.0, as far as its producer's descriptor tells: a stored tensor and one from
another device bring theirs, which the stage checks as they come (02 R107). -/
def unitScale (img : Blob) (qs : Blob) (im : Image) (t : StreamRec) : Bool :=
  let unit (d : ScaleDesc) : Bool := !d.auto && d.scale = F32.one
  t.format = 8 || t.format = 9 ||
  match epKind t.producer with
  | 1 => match imStage im (epLcore t.producer) with
    | some r => unit (r.scales.getD (epPort t.producer) ⟨0, false, false⟩)
    | none => true
  | 3 => unit (rootScale img (epNode t.producer))
  | 5 => match queueFor im qs (epComplex t.producer * 256 + epChannel t.producer / 4) with
    | some d => epChannel t.producer % 4 ≥ 2 || qScale d = F32.one
    | none => true
  | _ => true

/-- BAD_SCALE: an output's descriptor, or a scale other than 1.0 at an input, or in the weights, of a BBF12 stage. -/
def scalesBad (m : Mem) (img qs : Blob) (im : Image) : Bool :=
  (im.stages.any fun r => (outsOf im r).any fun t => scaleBad r t.2.format (r.scales.getD t.1 ⟨0, false, false⟩)) ||
    rootScaleBad img im ||
    (im.stages.filter fun r => r.mode = 5).any fun r =>
      ((List.range 4).any fun q => match imBound im r q with
        | some (_, t) => !unitScale img qs im t
        | none => false) ||
      (stagePasses im r).any fun p => (readPf m p.wdesc).scaleb ≠ F32.one

/-- The BBF12 restrictions in the order of 02 Table 2.11. -/
def bbfRefusal (m : Mem) (im : Image) : Option RefName :=
  let bs := im.stages.filter fun r => r.mode = 5
  if bs.any fun r => r.arrays.getLsbD 2 || r.arrays.getLsbD 3 then some .bbf12Array
  else if bs.any fun r => (stagePasses im r).any fun p => (readPf m p.wdesc).format ≤ 2 then some .bbf12Mixed
  else if bs.any fun r => r.isMatmul && matK r.param > 4096 then some .bbf12Limit
  else if bs.any fun r => (outsOf im r).any fun t => !(t.2.format = 3 || t.2.format = 4 || t.2.format = 7) then
    some .bbf12Format
  else if bs.any fun r => (outsOf im r).any fun t => t.2.consumers.any fun e => epKind e = 0 &&
      match imStage im (epLcore e) with
      | some q => (outsOf im q).any fun u => (q.scales.getD u.1 ⟨0, false, false⟩).auto
      | none => false then some .bbf12Autoscale
  else none

/-! ### Order 8: trees (03 R133, R138) -/

def imTree (im : Image) (n : Nat) : Option TreeRec := im.trees.find? fun t => t.node = n

/-- Nodes from a node up to its root; no number where the way does not end within `fuel` nodes. -/
def nodesUp (im : Image) : Nat → Nat → Option Nat
  | 0, _ => none
  | f + 1, n =>
    match imTree im n with
    | some t => if epKind t.out = 2 then (nodesUp im f (epNode t.out)).map (· + 1) else some 1
    | none => some 0

/-- The root above a node, at most `fuel` nodes up. -/
def imRoot (im : Image) : Nat → Nat → Nat
  | 0, n => n
  | f + 1, n =>
    match imTree im n with
    | some t => if epKind t.out = 2 then imRoot im f (epNode t.out) else n
    | none => n

/-- How often child entry `k` of a node is fed: by leaf streams and by node outputs. -/
def childFeeds (im : Image) (n k : Nat) : Nat :=
  ((imEnds im).filter fun e => epKind e.1 = 2 && epNode e.1 = n && epChild e.1 = k).length +
    (im.trees.filter fun t => epKind t.out = 2 && epNode t.out = n && epChild t.out = k).length

/-- A reference to a child entry or to a root names what stands in the image. -/
def treeEndBad (im : Image) (e : BitVec 32) (f : Nat) : Bool :=
  match epKind e, imTree im (epNode e) with
  | 2, some t => epChild e > t.fanin || f ≠ 3
  | 3, some t => epKind t.out ≠ 3
  | 2, none | 3, none => true
  | _, _ => false

/-- Child entry `k` of a node names what feeds it: a leaf by its producing endpoint, a node by its number (log entry 52). -/
def childNamed (im : Image) (t : TreeRec) (k : Nat) : Bool :=
  match t.children[k]? with
  | none => false
  | some e => (im.streams.any fun r => r.producer = e && r.consumers.any fun u =>
      epKind u = 2 && epNode u = t.node && epChild u = k) ||
    ((epKind e = 2 || epKind e = 3) && im.trees.any fun u =>
      u.node = epNode e && epKind u.out = 2 && epNode u.out = t.node && epChild u.out = k)

/-- A leaf feeds more than one parent. -/
def leafShared (im : Image) : Bool := im.streams.any fun r => (r.consumers.filter fun e => epKind e = 2).length > 1

/-- A node breaks the shape rules: its number, OP, SHELF, output and the one parent of each child. -/
def treeNodeBad (im : Image) (t : TreeRec) : Bool :=
  (im.trees.filter fun u => u.node = t.node).length ≠ 1 || t.op = 3 || (!t.fabric && t.shelf ≥ im.shelves) ||
    (match epKind t.out with
      | 2 => (match imTree im (epNode t.out) with | some p => epChild t.out > p.fanin | none => true)
      | 3 => epNode t.out ≠ t.node
      | _ => true) ||
    (List.range (t.fanin + 1)).any fun k => childFeeds im t.node k ≠ 1 || !childNamed im t k

def treeRefusal (im : Image) : Option RefName :=
  let up (t : TreeRec) := nodesUp im (im.trees.length + 1) t.node
  if im.trees.any fun t => t.fanin = 0 then some .treeFanin
  else if im.trees.any fun t => match up t with | some n => n > 16 | none => false then some .treeDepth
  else if im.trees.any (fun t => (up t).isNone || treeNodeBad im t) || leafShared im ||
      (imEnds im).any (fun e => treeEndBad im e.1 ((im.streams[e.2.2.1]?.map (·.format)).getD 15)) then some .treeShape
  else none

/-! ### Order 8: windows and post-processing (04 R142 to R145, R155, R156, R158, R160, R166) -/

def winStages (im : Image) : List (StageRec × WinDesc) :=
  (im.stages.filter (·.isWindow)).map fun r => (r, WinDesc.parse r.param)

/-- The format of a window stage's input. -/
def inFormat (im : Image) (r : StageRec) : Option Nat := (imBound im r 0).map (·.2.format)

def windowFormatBad (im : Image) (r : StageRec) : Bool :=
  r.mode = 5 || match inFormat im r with | some f => f > 1 | none => false

def padModeBad (w : WinDesc) : Bool :=
  let ps := [w.padTop, w.padBottom, w.padLeft, w.padRight]
  w.padMode = 3 || (w.padMode = 0 && ps.any (· ≠ 0)) || ps.any (· > 24)

/-- The taps (row, column) of a sub-window. -/
def subTaps (e : Nat × Nat × Nat × Nat) : List (Nat × Nat) :=
  (List.range e.2.2.1).flatMap fun i => (List.range e.2.2.2).map fun j => (e.1 + i, e.2.1 + j)

def noRepeats : List (Nat × Nat) → Bool
  | [] => true
  | a :: t => !t.contains a && noRepeats t

def windowShapeBad (w : WinDesc) : Bool :=
  w.subCount = 1 || w.subCount > 16 || (w.subs.any fun e => e.2.2.1 > 7 || e.2.2.2 > 7) ||
    w.inC = 0 || w.maxW = 0 || w.kh > 28 || w.kw > 28 || !noRepeats (w.subs.flatMap subTaps) ||
    (w.tileW ≠ 0 && w.tileW < w.ew)

/-- The line-buffer need in bytes (04 R155). -/
def lineNeed (im : Image) (r : StageRec) (w : WinDesc) : Nat :=
  if w.oneTap then 0
  else
    let tw := if w.tileW = 0 then w.maxW + w.padLeft + w.padRight else w.tileW
    (w.eh + 1) * tw * w.inC * (if inFormat im r = some 1 then 2 else 1)

/-- Members of a stage. -/
def memberCount (im : Image) (stage : Nat) : Nat := (im.stages.filter fun q => q.stage = stage).length

/-- A stripe of a striped stage is too thin: each produces at least ceil(EH / sh) output rows, one stripe per member,
the first from row 0. -/
def stripeThin (im : Image) (stripes : Tbl (List Nat)) (r : StageRec) (w : WinDesc) : Bool :=
  match tget stripes r.stage with
  | none => false
  | some fs =>
    let oh := (w.outH w.inH).toNat
    let least := (w.eh + w.sh - 1) / w.sh
    fs.length ≠ memberCount im r.stage || fs.head? ≠ some 0 ||
      (w.inH ≠ 0 && (List.range fs.length).any fun m => fs.getD (m + 1) oh < fs.getD m 0 + least)

def stripeVariable (stripes : Tbl (List Nat)) (r : StageRec) (w : WinDesc) : Bool :=
  (tget stripes r.stage).isSome && w.inH = 0

def positive (x : F32) : Bool := F32.isFinite x && F32.gt x F32.posZero

def postBad (p : Blob) : Bool :=
  postOp p = 3 || postKeepMax p = 0 || postKeepMax p > 1024 || !F32.le F32.posZero (postIou p) ||
    !F32.le (postIou p) F32.one || F32.isNaN (postScoreMin p) ||
    !([postVarXY p, postVarWH p, postImgW p, postImgH p].all positive)

def windowRefusal (im : Image) (stripes : Tbl (List Nat)) : Option RefName :=
  let ws := winStages im
  if ws.any fun p => windowFormatBad im p.1 then some .windowFormat
  else if ws.any fun p => padModeBad p.2 then some .padMode
  else if ws.any fun p => windowShapeBad p.2 then some .windowShape
  else if ws.any fun p => lineNeed im p.1 p.2 > 65536 then some .linebufSpace
  else if ws.any fun p => stripeThin im stripes p.1 p.2 then some .stripeThin
  else if ws.any fun p => stripeVariable stripes p.1 p.2 then some .stripeVariable
  else if im.stages.any fun r => r.opclass = 3 && postBad r.param then some .postParam
  else none

/-! ### Order 8: intake descriptors (07 R258 to R261, R283, R285) -/

def inRange (lo hi n : Nat) : Bool := lo ≤ n && n ≤ hi

/-- OUT_FORMAT belongs to the modality. -/
def queueFormatBad (d : Blob) : Bool :=
  match qModality d with
  | 0 | 1 => !(qFormat d = 0 || qFormat d = 1 || inRange 3 6 (qFormat d))
  | 2 => if qLogmel d then qFormat d ≠ 1 else !(qFormat d = 3 || qFormat d = 4)
  | _ => qFormat d ≠ 8

/-- Fields of a picture queue (07 Table 7.2). -/
def pictureBad (d : Blob) : Bool :=
  let roi : Bool := d.bits 476 1 = 1
  qMatrix d = 3 || !positive (qNscale d 0) || (!qGray d && !(positive (qNscale d 1) && positive (qNscale d 2))) ||
    (qModality d = 0 && d.bits 448 8 = 0) ||
    (roi && (qModality d ≠ 0 || qAug d 0 || qAug d 1 || qCropW d ≠ 0 || qCropH d ≠ 0 || qRoiMax d = 0 ||
      !inRange 1 8192 (qRoiW d) || !inRange 1 8192 (qRoiH d))) ||
    qAug d 3 || qAug d 4

/-- Fields of an audio queue. -/
def audioBad (d : Blob) : Bool :=
  (qRateOut d ≠ 0 && !inRange 8000 48000 (qRateOut d)) || qChannelMode d = 3 ||
    (qLogmel d && (qRateOut d = 0 || !inRange 1 4096 (qNwin d) || !inRange 1 4096 (qHop d) ||
      !inRange 16 4096 (qNfft d) || 2 ^ (qNfft d).log2 ≠ qNfft d || qNfft d < qNwin d || !inRange 1 128 (qNmel d) ||
      !(F32.isFinite (qFmin d) && F32.ge (qFmin d) F32.posZero) || !F32.isFinite (qFmax d) ||
      !F32.gt (qFmax d) (qFmin d) || (Dy.lt ⟨qRateOut d, -1⟩ (F32.val (qFmax d))) || !F32.isScale (qFloor d))) ||
    (qAug d 4 && qTimeLen d = 0) || qAug d 0 || qAug d 1 || qAug d 2

/-- Fields of a text queue. -/
def textBad (s : State) (c : Nat) (d : Blob) : Bool :=
  qPresplit d > 1 || qMergeCount d > 262144 ||
    (qMergeCount d ≠ 0 && (qMergeAddr d % 128 ≠ 0 || !ownsBytes s c (qMergeAddr d) (8 * qMergeCount d))) ||
    (List.range 5).any (qAug d)

/-- INTAKE_DESC: a field outside its range or an excluded combination. -/
def queueBad (s : State) (c : Nat) (loader d : Blob) : Bool :=
  qModality d > 3 || queueFormatBad d || qBatchSize d = 0 || qCreditCap d = 0 || qQuantum d = 0 ||
    qMem d % 2048 ≠ 0 || qMib d = 0 || !ownsBytes s c (qMem d) (qMib d * 2 ^ 20) || d.bits 320 8 > 40 ||
    qLoader d ≥ 256 || 32 * qLoader d + 32 > loader.len ||
    match qModality d with
    | 0 | 1 => pictureBad d
    | 2 => audioBad d
    | _ => textBad s c d

/-- The stream that brings a queue's region sets. -/
def roiInput (im : Image) (n : Nat) : Option StreamRec :=
  ((imEnds im).find? fun e => epKind e.1 = 5 && !e.2.1 && epChannel e.1 % 4 = 3 &&
    epComplex e.1 * 256 + epChannel e.1 / 4 = n).bind fun e => im.streams[e.2.2.1]?

def roiStreamBad (im : Image) (n : Nat) (d : Blob) : Bool :=
  qRoi d && match roiInput im n with
    | none => true
    | some t => t.cls ≠ 2 || t.capacity < qLag d * maxTensor t

/-- MERGE_TABLE (07 R283). -/
def mergesBad (ms : List (Nat × Nat)) : Bool :=
  !noRepeats ms || (ms.zipIdx).any fun p => p.1.1 ≥ 256 + p.2 || p.1.2 ≥ 256 + p.2

/-- The distinct merge tables (address, entries) of the queues on a complex. -/
def newTables (im : Image) (qs : Blob) (x : Nat) : List (Nat × Nat) :=
  ((namedQueues im).filterMap fun n => if n / 256 = x then queueFor im qs n else none).foldl (fun l d =>
    let k := (qMergeAddr d, qMergeCount d)
    if qModality d = 3 && qMergeCount d ≠ 0 && !l.contains k then l ++ [k] else l) []

/-- TOKENIZER_SPACE: 16 bytes an entry beside the copies of other contexts. -/
def tokenizerFull (s : State) (c : Nat) (im : Image) (qs : Blob) (x : Nat) : Bool :=
  16 * (((newTables im qs x).map (·.2)).sum +
    ((((s.complex x).tables.filter fun t => t.ctx ≠ c).map fun t => t.merges.length).sum)) > 8 * 2 ^ 20

def intakeRefusal (s : State) (c : Nat) (im : Image) (qs loader : Blob) : Option RefName :=
  let names := namedQueues im
  let ds := names.filterMap fun n => (queueFor im qs n).map fun d => (n, d)
  if qs.len ≠ 128 * names.length || ds.any fun p => queueBad s c loader p.2 then some .intakeDesc
  else if ds.any fun p => !F32.isScale (qScale p.2) || (qModality p.2 = 3 && qScale p.2 ≠ F32.one) then some .badScale
  else if ds.any fun p => roiStreamBad im p.1 p.2 then some .roiStream
  else if ds.any fun p => qModality p.2 = 3 &&
      mergesBad (readMerges s.mem.mem (qMergeAddr p.2) (qMergeCount p.2)) then some .mergeTable
  else if tokenizerFull s c im qs 0 || tokenizerFull s c im qs 1 then some .tokenizerSpace
  else none

/-! ### Order 8: the step plan, updates and losses (08 R295, R300 to R333) -/

def stepPlanBad (im : Image) (plan : Blob) : Bool :=
  plan.len ≠ 8 * im.stages.length ||
    (im.stages.zipIdx).any fun p =>
      plan.bits (64 * p.2) 16 = 0 || (plan.bits (64 * p.2 + 16) 1 = 1) != (p.1.opclass = 6) || (imBound im p.1 0).isNone

def layersOf (r : StageRec) : List LayerEnt := (List.range (updNlayers r.param)).map (LayerEnt.parse r.param)

def coefEntry (m : Mem) (o : Blob) (layer : Nat) : Blob := ⟨256, m.readNat (optCoefAddr o + 256 * layer) 256⟩
def schedEntry (m : Mem) (o : Blob) (n : Nat) : Blob := ⟨64, m.readNat (optSchedAddr o + 64 * n) 64⟩

def updStages (im : Image) : List StageRec := im.stages.filter fun r => r.opclass = 6

/-- The layers that the image's UPDATE stages name. -/
def namedLayers (im : Image) : List Nat := ((updStages im).flatMap layersOf).foldl (fun l e =>
  if l.contains e.layer then l else l ++ [e.layer]) []

/-- The bytes of a layer's tiled copy, or of a shard's stored copy (08 R323). -/
def copyBytes (e : LayerEnt) : Nat :=
  if e.tiled then (e.rows + 63) / 64 * 4 * ((e.cols + 127) / 128) * (if e.wfmt = 0 then 2048 else 4096)
  else 128 * (1 + wordsOf e.elems e.wfmt)

/-- A layer entry outside 08 R324. -/
def layerBad (s : State) (c : Nat) (o : Blob) (restoring : Bool) (e : LayerEnt) : Bool :=
  let b := coefEntry s.mem.mem o e.layer
  let log32 := log32Masters o
  e.rows = 0 || e.cols = 0 || e.shardRows = 0 || e.firstRow + e.shardRows > e.rows || e.shard % 128 ≠ 0 ||
    !(e.wfmt = 0 || e.wfmt = 1 || e.wfmt = 15) || (e.wscale ≠ 0 && !F32.isScale e.wscale) ||
    (coefPhi b ≠ 2 && e.nsWork ≠ 0) ||
    !mayReach s c e.shard (128 + e.region * (1 + coefStates b)) ||
    (e.wfmt ≠ 15 && (e.waddr % 128 ≠ 0 || !mayReach s c e.waddr (copyBytes e))) ||
    (coefPhi b = 2 && !mayReach s c e.nsWork (8 * min e.rows e.cols * min e.rows e.cols)) ||
    (e.tiled && (e.wscale = 0 || e.wfmt = 15 || e.firstRow % 64 ≠ 0 ||
      (e.shardRows % 64 ≠ 0 && e.firstRow + e.shardRows ≠ e.rows))) ||
    e.elems > 2 ^ 32 - 1 || (log32 && e.wfmt = 1 && e.wscale ≠ F32.one) ||
    (!restoring && !shardHeaderOk (s.mem.mem.word (e.shard / 128)) e log32 (coefStates b))

/-- Two members carry the same layer entry (08 R300). -/
def sameLayer (phiNs : Bool) (a b : LayerEnt) : Bool :=
  a.layer = b.layer && a.rows = b.rows && a.cols = b.cols && a.wfmt = b.wfmt && a.tiled = b.tiled &&
    a.wscale = b.wscale && (!a.tiled || a.waddr = b.waddr) && (!phiNs || a.nsWork = b.nsWork)

/-- The rows of every shard of a layer in the image. -/
def layerSpans (im : Image) (layer : Nat) : List (Nat × Nat) :=
  (((updStages im).flatMap layersOf).filter fun e => e.layer = layer).map fun e => (e.firstRow, e.shardRows)

/-- The members' shards of entry `i`. -/
def shardsOf (im : Image) (stage i : Nat) : List LayerEnt :=
  ((updStages im).filter fun r => r.stage = stage).map fun r => LayerEnt.parse r.param i

def updateDescBad (s : State) (c : Nat) (o : Blob) (restoring : Bool) (im : Image) : Bool :=
  o.bits 108 2 = 3 || ((List.range 5).any fun k => o.bits (96 + 2 * k) 2 = 3) ||
    (updStages im).any fun r =>
      updNlayers r.param = 0 || updNlayers r.param > 256 ||
      (layersOf r).any (layerBad s c o restoring) ||
      ((updStages im).any fun q => q.stage = r.stage &&
        (updNlayers q.param ≠ updNlayers r.param ||
          ((layersOf q).zip (layersOf r)).any fun p =>
            !sameLayer (coefPhi (coefEntry s.mem.mem o p.1.layer) = 2) p.1 p.2)) ||
      (layersOf r).any fun e => !spansApart (layerSpans im e.layer)

/-- UPDATE_COEF (08 R303). -/
def coefBad (b : Blob) : Bool :=
  let nonneg (x : F32) : Bool := !F32.lt x F32.posZero
  let unit (x : F32) : Bool := nonneg x && F32.lt x F32.one
  let fs := ((List.range 10).map fun k => coefC b (k + 1)) ++
    [coefBeta1 b, coefBeta2 b, coefRowEps b, coefNsEps b, coefNsGain b] ++
    (List.range 8).flatMap fun i => [coefNsA b i, coefNsB b i, coefNsC b i]
  !(fs.all F32.isFinite) || !nonneg (coefC b 4) || !nonneg (coefC b 5) || !nonneg (coefC b 8) ||
    !F32.gt (coefC b 9) F32.posZero || !unit (coefBeta1 b) || !unit (coefBeta2 b) || !nonneg (coefRowEps b) ||
    !F32.gt (coefNsEps b) F32.posZero || coefPhi b = 3 || coefStates b = 3 ||
    (coefPhi b = 2 && !inRange 1 8 (coefIters b))

/-- SCHED_PARAM (08 R312). -/
def schedBad (b : Blob) : Bool :=
  let warm := b.bits 0 2
  let decay := b.bits 2 3
  let f (lo : Nat) : F32 := BitVec.ofNat 32 (b.bits lo 32)
  let rate (x : F32) : Bool := F32.isFinite x && !F32.lt x F32.posZero
  warm = 3 || decay ≥ 5 || !rate (f 96) || !rate (f 128) || F32.gt (f 128) (f 96) ||
    (b.bits 32 32 = 0 && warm ≠ 0) || (b.bits 64 32 = 0 && decay ≠ 0) ||
    (warm = 2 && !(F32.gt (f 160) F32.posZero && F32.lt (f 160) F32.one)) ||
    (decay = 4 && !(F32.gt (f 192) F32.posZero && F32.le (f 192) F32.one)) ||
    (b.bits 5 1 = 1 && (!(decay = 1 || decay = 2) || !inRange 1 16 (b.bits 8 8)))

/-- UPDATE_MIX (08 R311). -/
def mixBad (s : State) (c : Nat) (o : Blob) (im : Image) : Bool :=
  (updStages im).any fun r => ((layersOf r).zipIdx).any fun p =>
    let e := p.1
    let m := min e.rows e.cols
    coefPhi (coefEntry s.mem.mem o e.layer) = 2 &&
      (((shardsOf im r.stage p.2).map (·.shardRows)).sum ≠ e.rows ||
        !spansApart ((shardsOf im r.stage p.2).map fun q => (q.firstRow, q.shardRows)) || m > 4096 ||
        !mayReach s c e.nsWork (8 * m * m))

/-- LOSS_DESC (08 R329). -/
def lossBad (im : Image) : Bool :=
  let ls := im.stages.filter fun r => r.opclass = 5
  (ls.filter fun r => lossMonitor r.param).length > 1 ||
    ls.any fun r =>
      let p := r.param
      lossFunc p > 1 || !F32.isFinite (lossScale p) ||
        (lossMonitor p && !(F32.gt (lossAlpha p) F32.posZero && F32.lt (lossAlpha p) F32.one &&
          F32.gt (lossSigma p) F32.posZero)) ||
        (lossFunc p = 0 && match imBound im r 1 with | some t => t.2.format ≠ 8 | none => false) ||
        (imBound im r 2).isSome != lossMonitor p

def updateRefusal (s : State) (c : Nat) (L : LoadIn) (im : Image) : Option RefName :=
  let coefs := (namedLayers im).map (coefEntry s.mem.mem L.options)
  if stepPlanBad im L.plan then some .stepPlan
  else if updateDescBad s c L.options L.restoring im then some .updateDesc
  else if coefs.any coefBad then some .updateCoef
  else if coefs.any fun b => schedBad (schedEntry s.mem.mem L.options (coefSched b)) then some .schedParam
  else if mixBad s c L.options im then some .updateMix
  else if lossBad im then some .lossDesc
  else none

/-! ### Order 9: prefetch descriptors and passes (06 R247 to R249, 05 R196, R200) -/

/-- A descriptor of a pass breaks 06 R248. -/
def tilesPfBad (s : State) (c : Nat) (r : StageRec) (p : PassRec) : Bool :=
  let d := readPf s.mem.mem p.wdesc
  let wf := weightFmt (modeOf r.mode)
  d.op ≠ 0 || d.linked || d.addr % 128 ≠ 0 || fmtOf d.format ≠ some wf || !F32.isScale d.scaleb || d.stride % 128 ≠ 0 ||
    d.stride < tileBytes wf || d.count ≠ 0 || !mayReach s c d.addr ((p.tiles - 1) * d.stride + tileBytes wf)

/-- A READ or WRITE descriptor breaks a field rule of 06 Table 6.6, or reaches memory that its context does not own. Its
reserved bits are ignored (00 R18). -/
def slotsPfBad (s : State) (c : Nat) (d : PfDesc) : Bool :=
  d.addr % 128 ≠ 0 || d.format > 9 || d.scaleb ≠ 0 || d.stride % 128 ≠ 0 || d.count = 0 || (d.linked && d.op ≠ 1) ||
    !mayReach s c d.addr (max 1 (d.count * d.stride))

/-- The WRITE descriptor that a READ is linked to, on the same shelf. -/
def linkPf (m : Mem) (memplan : Blob) (e : BitVec 32) (d : PfDesc) : PfDesc :=
  readPf m (pfBaseOf memplan (epEngine e) + 32 * d.link)

/-- The descriptor of a memory endpoint, or the one that it is linked to, breaks 06 R246 or R248. -/
def endPfBad (s : State) (c : Nat) (im : Image) (memplan : Blob) (e : BitVec 32) (producer : Bool) : Bool :=
  let d := endPf s.mem.mem memplan e
  epEngine e ≥ im.shelves || d.op ≠ (if producer then 1 else 2) || slotsPfBad s c d ||
    (d.linked && ((linkPf s.mem.mem memplan e d).op ≠ 2 || slotsPfBad s c (linkPf s.mem.mem memplan e d)))

/-- The indices of the endpoint descriptors that a shelf references, those of LINK among them. -/
def endRefs (m : Mem) (im : Image) (memplan : Blob) (sh : Nat) : List Nat :=
  ((imEnds im).filter fun e => epKind e.1 = 4 && epEngine e.1 = sh).flatMap fun e =>
    let d := endPf m memplan e.1
    epDesc e.1 :: if d.linked then [d.link] else []

/-- The device addresses of the descriptors that a shelf references, each once. -/
def pfRefs (m : Mem) (im : Image) (memplan : Blob) (sh : Nat) : List Nat :=
  let ps := (im.stages.filter fun r => r.lcore / 12 = sh).flatMap fun r => (stagePasses im r).map (·.wdesc)
  let es := (endRefs m im memplan sh).map fun d => pfBaseOf memplan sh + 32 * d
  (ps ++ es).foldl (fun l a => if l.contains a then l else l ++ [a]) []

def passRefusal (s : State) (c : Nat) (memplan : Blob) (im : Image) : Option RefName :=
  if (im.stages.any fun r => (stagePasses im r).any (tilesPfBad s c r)) ||
      ((imEnds im).any fun e => epKind e.1 = 4 && endPfBad s c im memplan e.1 e.2.1) ||
      ((List.range im.shelves).any fun sh => (pfRefs s.mem.mem im memplan sh).length > 1024) then some .pfDesc
  else if im.stages.any fun r => (stagePasses im r).any fun p =>
      p.tiles * tileBytes (weightFmt (modeOf r.mode)) > r.stagingKib * 1024 then some .passSize
  else if im.stages.any fun r =>
      let shallow (q : Nat) : Bool := match imBound im r q with | some t => !deep t.2 | none => true
      ((stagePasses im r).any (·.replay) && shallow 0) || (r.wsrc && shallow 1) then some .passReplay
  else none

/-! ### Order 10: store fit (05 R193, 02 R92) -/

/-- The buffers of a stream: one per consumer, one in all for SHARED. -/
def bufferKeys (t : StreamRec) : List Nat := if t.cls = 3 then [0] else List.range t.consumers.length

/-- Bytes of the buffers in a place. -/
def placedBytes (im : Image) (p : Place) : Nat :=
  (im.streams.map fun t => 128 * t.capacity * ((bufferKeys t).filter fun k => placeOf im t k = p).length).sum

def carrelNeed (im : Image) (r : StageRec) : Nat :=
  placedBytes im (.carrel r.lcore) + 2048 * r.stagingKib + r.paramLen +
    (if r.isWindow then lineNeed im r (WinDesc.parse r.param) else 0)

def prepassNeed (im : Image) (r : StageRec) : Nat :=
  ((outsOf im r).map fun t => if (r.scales.getD t.1 ⟨0, false, false⟩).auto then 4 * t.2.maxLen else 0).sum

def fitRefusal (im : Image) : Option RefName :=
  let carrelKib := 4 * 2 ^ 20
  if (im.stages.any fun r => carrelNeed im r > carrelKib) ||
      ((List.range im.shelves).any fun k =>
        placedBytes im (.shelf k) + 1024 * im.escape.getD k 0 > 24 * 2 ^ 20) then some .bufferSpace
  else if im.stages.any fun r => carrelNeed im r + prepassNeed im r > carrelKib then some .prepassSpace
  else none

/-! ### Orders 11 and 13: the wait-for graph (05 R203, R214; 06 R246) -/

/-- The stream that a WRITE descriptor of a shelf takes, where a READ is linked to it. -/
def linkedWrite (m : Mem) (memplan : Blob) (im : Image) (t : StreamRec) : Option (Nat × Nat) :=
  if epKind t.producer ≠ 4 then none
  else
    let d := endPf m memplan t.producer
    if !d.linked then none
    else ((imEnds im).find? fun e => !e.2.1 && epKind e.1 = 4 && epEngine e.1 = epEngine t.producer &&
      epDesc e.1 = d.link).map fun e => (e.2.2.1, e.2.2.2)

/-- The graph's node of consumer `k` of stream `i`: one per consumer of a deal or stripe, else one per stream; a linked
pair is the node of its WRITE's stream. -/
def bufNode (m : Mem) (memplan : Blob) (im : Image) (i k : Nat) : Nat :=
  match im.streams[i]? with
  | none => 4 * i
  | some t =>
    match linkedWrite m memplan im t with
    | some (j, q) => match im.streams[j]? with
      | some u => if u.fanout ≥ 2 then 4 * j + q else 4 * j
      | none => 4 * j
    | none => if t.fanout ≥ 2 then 4 * i + k else 4 * i

/-- A node is a target: its class is not LOOSE, or it is a linked pair. -/
def isTarget (m : Mem) (memplan : Blob) (im : Image) (t : StreamRec) (i : Nat) : Bool :=
  t.cls ≠ 2 || (linkedWrite m memplan im t).isSome ||
    im.streams.any fun u => match linkedWrite m memplan im u with | some (j, _) => j = i | none => false

/-- The node of the halo stream from a member of a stage to the next. -/
def haloNode (im : Image) (stage member : Nat) : Nat := 4 * im.streams.length + 256 * stage + member

/-- The input buffers of a stage, as nodes. -/
def inNodes (m : Mem) (memplan : Blob) (im : Image) (r : StageRec) : List Nat :=
  ((imEnds im).filter fun e => !e.2.1 && epKind e.1 = 0 && epLcore e.1 = r.lcore).map fun e =>
    bufNode m memplan im e.2.2.1 e.2.2.2

/-- The output buffers of a stage, as nodes, each with whether it is a target. -/
def outNodes (m : Mem) (memplan : Blob) (im : Image) (r : StageRec) : List (Nat × Bool) :=
  (im.streams.zipIdx).flatMap fun p =>
    if epKind p.1.producer = 1 && epLcore p.1.producer = r.lcore then
      (List.range p.1.consumers.length).map fun k => (bufNode m memplan im p.2 k, isTarget m memplan im p.1 p.2)
    else []

/-- The edges of the graph; `loose` keeps the LOOSE streams as targets. -/
def waitEdges (m : Mem) (memplan : Blob) (im : Image) (loose : Bool) : List (Nat × Nat) :=
  im.stages.flatMap fun r =>
    let ins := inNodes m memplan im r
    let outs := (outNodes m memplan im r).filterMap fun b => if loose || b.2 then some b.1 else none
    let w := WinDesc.parse r.param
    (ins.flatMap fun a => outs.map fun b => (a, b)) ++
      (if r.isWindow && w.haloDown then ins.map fun a => (a, haloNode im r.stage r.member) else []) ++
      (if r.isWindow && w.haloUp then outs.map fun b => (haloNode im r.stage (r.member - 1), b) else [])

/-- The edges left when those into nodes without outgoing edges are taken away again and again. -/
def pruneEdges : Nat → List (Nat × Nat) → List (Nat × Nat)
  | 0, es => es
  | f + 1, es => pruneEdges f (es.filter fun e => es.any fun d => d.1 = e.2)

/-- The graph holds a directed cycle. -/
def cyclic (es : List (Nat × Nat)) : Bool := !(pruneEdges es.length es).isEmpty

/-- Nodes reached from a set of nodes. -/
def reachNodes (es : List (Nat × Nat)) : Nat → List Nat → List Nat
  | 0, ns => ns
  | f + 1, ns => reachNodes es f (es.foldl (fun l e => if l.contains e.1 && !l.contains e.2 then l ++ [e.2] else l) ns)

/-- A node lies on a cycle through a LOOSE node. -/
def onLooseCycle (es : List (Nat × Nat)) (looses : List Nat) (n : Nat) : Bool :=
  let succ := (es.filter fun e => e.1 = n).map (·.2)
  let fwd := reachNodes es es.length succ
  looses.any fun l => (l = n && fwd.contains n) ||
    (fwd.contains l && (reachNodes es es.length ((es.filter fun e => e.1 = l).map (·.2))).contains n)

/-- ESCAPE_SPACE (05 R214). -/
def escapeBad (m : Mem) (memplan : Blob) (im : Image) : Bool :=
  let es := waitEdges m memplan im true
  let looses := (im.streams.zipIdx).flatMap fun p => if p.1.cls = 2 then
    (List.range p.1.consumers.length).map fun k => bufNode m memplan im p.2 k else []
  (im.streams.zipIdx).any fun p => (bufferKeys p.1).any fun k =>
    let sh := match placeOf im p.1 k with | .carrel n => some (n / 12) | .shelf n => some n | .none => none
    match sh with
    | none => false
    | some n => 1024 * im.escape.getD n 0 < 128 * p.1.capacity &&
        onLooseCycle es looses (bufNode m memplan im p.2 k)

/-! ### Order 12: joins (05 R204) -/

/-- The edge into an input port: the stream and the consumer. -/
def portEdge (im : Image) (lcore q : Nat) : Option (Nat × Nat) :=
  ((imEnds im).find? fun e => !e.2.1 && epKind e.1 = 0 && epLcore e.1 = lcore && epPort e.1 = q).map (·.2.2)

/-- The edges of the leaves of a tree, by its root. -/
def leafEdges (im : Image) (root : Nat) : List (Nat × Nat) :=
  ((imEnds im).filter fun e => !e.2.1 && epKind e.1 = 2 && imRoot im 16 (epNode e.1) = root).map (·.2.2)

/-- Every path that ends in an edge, with its source: a stage by its core, or an intake channel. A path goes through a
tree from a leaf to the root, and through a linked pair from the WRITE to the READ; its cores are distinct. -/
def pathsInto (m : Mem) (memplan : Blob) (im : Image) :
    Nat → List Nat → Nat × Nat → List ((Nat × Nat) × List (Nat × Nat))
  | 0, _, _ => []
  | f + 1, seen, e =>
    let before (seen : List Nat) (es : List (Nat × Nat)) := es.flatMap fun d =>
      (pathsInto m memplan im f seen d).map fun r => (r.1, r.2 ++ [e])
    match im.streams[e.1]? with
    | none => []
    | some t =>
      match epKind t.producer with
      | 1 =>
        let c := epLcore t.producer
        ((0, c), [e]) :: if seen.contains c then []
          else before (c :: seen) ((List.range 4).filterMap (portEdge im c))
      | 3 => before seen (leafEdges im (epNode t.producer))
      | 4 => before seen (linkedWrite m memplan im t).toList
      | 5 => [((1, bits t.producer.toNat 4 13), [e])]
      | _ => []

def pathsTo (m : Mem) (memplan : Blob) (im : Image) (r : StageRec) (q : Nat) : List ((Nat × Nat) × List (Nat × Nat)) :=
  match portEdge im r.lcore q with
  | some e => pathsInto m memplan im (im.stages.length + im.streams.length + 1) [r.lcore] e
  | none => []

/-- The lead port (05 R204). -/
def leadPort (r : StageRec) : Nat := if r.wsrc then 1 else 0

/-- Inputs that gather one stripe or deal stream in consumer order. -/
def pairedSplit (m : Mem) (memplan : Blob) (im : Image) (r : StageRec) : Bool :=
  let ins := boundInputs im r
  r.opclass = 8 && routeMode r.param ≥ 2 &&
    (im.streams.zipIdx).any fun p =>
      p.1.fanout ≥ 2 && p.1.chunk = routeChunk r.param && p.1.consumers.length = ins.length &&
        ins.all fun k =>
          let behind := (pathsTo m memplan im r k).flatMap (·.2)
          behind.contains (p.2, k) && (List.range p.1.consumers.length).all fun j => j = k || !behind.contains (p.2, j)

def joinBad (m : Mem) (memplan : Blob) (im : Image) (r : StageRec) : Bool :=
  let lead := leadPort r
  !pairedSplit m memplan im r && (boundInputs im r).any fun i =>
    i ≠ lead && (pathsTo m memplan im r i).any fun p =>
      !(p.2.any fun e => match im.streams[e.1]? with | some t => deep t | none => false) &&
        (pathsTo m memplan im r lead).any fun q => q.1 = p.1 && !(q.2.any fun e => p.2.contains e)

/-! ### The checks in order (05 R201, R202) -/

/-- The first check of 05 Table 5.13 that an image fails. -/
def loadRefusal (s : State) (c : Nat) (L : LoadIn) : Option RefName :=
  let im := parseImage L.img
  let m := s.mem.mem
  if imageFormatBad L.img im then some .imageFormat
  else if im.shelves > (shelvesOf (s.ctx c).mask).length then some .stageShelf
  else if coreRetired s c im then some .coreRetired
  else if portConflict im L.queues then some .portConflict
  else if streamFormatBad m L.memplan L.queues im then some .streamFormat
  else if streamClassBad im then some .streamClass
  else if scalesBad m L.img L.queues im then some .badScale
  else
    (bbfRefusal m im).or <| (treeRefusal im).or <| (windowRefusal im L.stripes).or <|
    (intakeRefusal s c im L.queues L.loader).or <| (updateRefusal s c L im).or <|
    (passRefusal s c L.memplan im).or <| (fitRefusal im).or <|
    (ref (cyclic (waitEdges m L.memplan im false)) .imageCyclic).or <|
    (ref (im.stages.any (joinBad m L.memplan im)) .joinDepth).or <| ref (escapeBad m L.memplan im) .escapeSpace

end Sys2Proof.Machine
end

