-- ==== Sys2Proof/Machine/Ledger.lean ====
section
/-!
DEFINITION. The ledger's commits (10 R386 to R405, R423): partners, the local slots, snapshots, taps, parity,
commit records, sealing and the directory; and the sending of control records (R406).
-/

namespace Sys2Proof.Machine

def State.modLed (s : State) (c : Nat) (f : Ledger → Ledger) : State := s.modCtx c fun x => { x with led := f x.led }
def State.modCommit (s : State) (c : Nat) (f : Commit → Commit) : State :=
  s.modLed c fun l => { l with commit := l.commit.map f }

/-! ### Partners (10 R398) -/

/-- The SERIAL behind an accession number, a DONE record first. -/
def serialOfAcc (s : State) (a : Nat) : Option Nat :=
  match s.fab.lsdb.find? fun e => recAcc e.2 = a && recDone e.2 with
  | some e => some e.1
  | none => (s.fab.lsdb.find? fun e => recAcc e.2 = a).map (·.1)

/-- The hops of path 0 between two accession numbers. -/
def hopsBetween (s : State) (a b : Nat) : Option Nat :=
  match serialOfAcc s a, serialOfAcc s b with
  | some x, some y => ((routeSet s x y).head?).map fun p => p.links.length
  | _, _ => none

def powerFeed (s : State) (a : Nat) : Option Nat := (serialOfAcc s a).bind fun n => (tget s.fab.lsdb n).map recFeed

/-- A rank may be the partner of an owner: within HOP_LIMIT hops, on another feed, a rank of the job. -/
def partnerHops (s : State) (x : Ctx) (owner cand : Nat) : Option Nat :=
  match rankAcc x owner, rankAcc x cand with
  | some a, some b =>
    match hopsBetween s a b with
    | some n => if n ≤ planHops x.plan && powerFeed s a ≠ powerFeed s b then some n else none
    | none => none
  | _, _ => none

/-- The candidate with the fewest hops, ties to the one listed first. -/
def choosePartner (s : State) (x : Ctx) (i : Nat) : Option Nat :=
  ((objCands x.plan i).foldl (fun (best : Option (Nat × Nat)) r =>
    match partnerHops s x (objOwner x.plan i) r, best with
    | some n, some (_, m) => if n < m then some (r, n) else best
    | some n, none => some (r, n)
    | none, _ => best) none).map (·.1)

/-- A REPLICA object counts only where the replica is on another feed. -/
def replicaShares (s : State) (x : Ctx) (i : Nat) : Bool :=
  match rankAcc x (objOwner x.plan i), rankAcc x (objReplicaRank x.plan i) with
  | some a, some b => powerFeed s a = powerFeed s b
  | _, _ => false

/-- The partner of object `i` is chosen, or the object falls back to class A. -/
def chooseFor (s : State) (c i : Nat) : State :=
  let x := s.ctx c
  let p := x.plan
  if objClass p i ≠ 1 then s
  else
    let fall (s : State) : State := s.modLed c fun l =>
      let mine : Bool := objOwner p i = x.rank.toNat
      { l with
        partners := terase l.partners i
        fallback := if l.fallback.contains i then l.fallback else l.fallback ++ [i]
        feedShared := l.feedShared || mine
        feedSharedObjects := l.feedSharedObjects + (if mine && !l.fallback.contains i then 1 else 0) }
    if objIsReplica p i then (if replicaShares s x i then fall s else s)
    else
      match choosePartner s x i with
      | some r => s.modLed c fun l => { l with partners := tset l.partners i r, fallback := l.fallback.filter (· ≠ i) }
      | none => fall s

/-- Partners of every object of the plan, and the bytes that copies and parity then take in a slot. -/
def choosePartners (s : State) (c : Nat) : State :=
  let s1 := (List.range (planObjects (s.ctx c).plan)).foldl (fun s i => chooseFor s c i) s
  s1.modLed c fun l => { l with aux := auxBytes (s1.ctx c) }

/-! ### The ledger's bytes -/

/-- `[off, off + n)` of a ledger cut at its granules: where each piece begins, and its length. -/
def ledgerPieces (off n : Nat) : List (Nat × Nat) :=
  if n = 0 then []
  else
    (List.range ((off + n - 1) / 2 ^ 26 - off / 2 ^ 26 + 1)).map fun i =>
      let g := off / 2 ^ 26 + i
      let lo := max off (2 ^ 26 * g)
      (lo, min (off + n) (2 ^ 26 * g + 2 ^ 26) - lo)

def memRead (s : State) (a n : Nat) : Blob := ⟨n, s.mem.mem.readNat a n⟩
def memWrite (s : State) (a : Nat) (b : Blob) : State := writeRange s a b.len b.val

def ledgerRead (s : State) (job : BitVec 32) (off n : Nat) : Blob :=
  (ledgerPieces off n).foldl (fun b p => Blob.append b (memRead s (ledgerAddr s job p.1) p.2)) Blob.empty

def ledgerWrite (s : State) (job : BitVec 32) (off : Nat) (b : Blob) : State :=
  (ledgerPieces off b.len).foldl (fun s p => memWrite s (ledgerAddr s job p.1) (b.slice (p.1 - off) p.2)) s

/-- Some word of `[off, off + n)` of a ledger is poisoned. -/
def ledgerPoisoned (s : State) (job : BitVec 32) (off n : Nat) : Bool :=
  (ledgerPieces off n).any fun p => s.mem.mem.poisonedRange (ledgerAddr s job p.1) p.2

/-- An access to a job's ledger stalls: a port behind one of its granules is not up (06 R240). -/
def ledgerStalls (s : State) (job : BitVec 32) : Bool :=
  (ledgerGranules s job).any fun n => tierStalls s (granuleBase n) || tierStalls s (granuleBase n + 4096)

/-! ### Control records (10 R406) -/

def Ctrl.blob (c : Ctrl) (job : BitVec 32) : Blob :=
  ⟨256, packFields [(c.typ, 4), (0, 28), (job.toNat, 32), (c.seq.toNat, 32), (c.src, 14), (c.rank, 14), (0, 4), (c.acc, 16),
    (c.step, 32), (c.arg, 8)]⟩

def Ctrl.parse (b : Blob) : Ctrl :=
  ⟨b.bits 0 4, BitVec.ofNat 32 (b.bits 64 32), b.bits 96 14, b.bits 110 14, b.bits 128 16, b.bits 144 32, b.bits 176 8⟩

/-- A WRITE to a peer (09 R373). How a sender learns the address of another device's LEDGER granules is not stated: it is
a free value (log entry 31). -/
def sendWrite (s : State) (peer : Nat) (job : BitVec 32) (data : Blob) : State :=
  let a := s.free 44
  sendPacket a.2 peer job 0xFFC 2 0 (Blob.append ⟨8, a.1.toNat⟩ data)

/-- A control record to an accession number: into the own mailbox, or by one WRITE. -/
def sendCtrlTo (s : State) (c : Nat) (acc : Nat) (k : Ctrl) : State :=
  let s1 := s.modLed c fun l => { l with sent := l.sent ++ [(acc, k)] }
  if acc = s.fab.acc then s1.modLed c fun l => { l with mail := l.mail ++ [k] }
  else sendWrite s1 acc (s.ctx c).job (k.blob (s.ctx c).job)

/-- A control record to a rank, in the current RECOVERY_SEQ. -/
def sendCtrl (s : State) (c dst : Nat) (k : Ctrl) : State :=
  match rankAcc (s.ctx c) dst with
  | some a => sendCtrlTo s c a { k with seq := (s.ctx c).led.seq, src := (s.ctx c).rank.toNat }
  | none => s

/-- A device can reach a rank: its own, or one whose accession number has a route. -/
def canReach (s : State) (c r : Nat) : Bool :=
  r = (s.ctx c).rank.toNat || match rankAcc (s.ctx c) r with
    | some a => !(tgetD s.fab.routes a []).isEmpty
    | none => false

/-- The coordinator: the lowest-numbered rank that the device can reach (10 R407). -/
def coordinatorOf (s : State) (c : Nat) : Nat :=
  ((List.range (s.ctx c).led.ranks.length).find? fun r => canReach s c r).getD (s.ctx c).rank.toNat

/-- A report to the coordinator. -/
def report (s : State) (c : Nat) (typ rank arg : Nat) : State :=
  sendCtrl s c (coordinatorOf s c) { typ := typ, seq := 0, src := 0, rank := rank, arg := arg }

/-- A LEDGER granule of a rank has become LOST (06 R240): the rank is reported lost, with ARG 1 (10 R408). -/
def ledgerLost (before after : State) : State :=
  (List.range nCtx).foldl (fun s c =>
    let x := s.ctx c
    let hit : Bool := (ledgerGranules s x.job).any fun n => (s.granule n).lost && !(before.granule n).lost
    if hit && x.led.st ≠ .none && x.led.st ≠ .standby then report s c 1 x.rank.toNat 1 else s) after

/-- Routes are recomputed (09 R366): a rank of a local context that has lost its route is reported DEVICE_LOST. -/
def routeRecompute (s : State) : State :=
  if !s.fab.dirty then s
  else
    let r := installRoutes s
    (List.range nCtx).foldl (fun s c =>
      let x := s.ctx c
      if x.st = .free && x.led.st = .none then s
      else
        (List.range x.led.ranks.length).foldl (fun s q =>
          if r.2.contains (x.led.ranks.getD q 0) then
            (report s c 1 q 0).modFab fun f => { f with lostReports := f.lostReports + 1 }
          else s) s) r.1

/-! ### Snapshots (10 R393, R394) -/

/-- The UPDATE layers of a context: core, entry index, entry. -/
def updateLayers (s : State) (c : Nat) : List (Nat × Nat × LayerEnt) :=
  (List.range nCores).flatMap fun core =>
    match (s.core core).stage.info with
    | some r =>
      if r.opclass = 6 && (s.core core).stage.ctx = c then
        (List.range (updNlayers r.param)).map fun i => (core, i, LayerEnt.parse r.param i)
      else []
    | none => []

/-- A shard of the layer at an address stands at another T than EXPECT_T. -/
def layerSkewed (s : State) (c layer addr bytes : Nat) : Bool :=
  (updateLayers s c).any fun e => e.2.2.layer = layer &&
    e.2.2.shard ≤ addr && addr + bytes ≤ e.2.2.shard + 128 + 3 * e.2.2.region &&
    bits (s.mem.mem.word (e.2.2.shard / 128)).toNat 0 32 ≠ (tgetD (s.core e.1).upd.expectT e.2.1 0).toNat

/-- A commit meets its first failure (10 R402). -/
def commitCause (s : State) (c cause : Nat) : State :=
  s.modCommit c fun k => if k.cause = 0 then { k with cause := cause } else k

/-- One owned object is copied into the free slot and digested. -/
def snapshotObject (s : State) (c slot i : Nat) : State :=
  let x := s.ctx c
  let p := x.plan
  let b := memRead s (objAddr p i) (objBytes p i)
  let s1 := if s.mem.mem.poisonedRange (objAddr p i) (objBytes p i) then commitCause s c 1 else s
  let s2 := if objLayer p i ≠ 0xFFFF && layerSkewed s c (objLayer p i) (objAddr p i) (objBytes p i)
    then commitCause s1 c 2 else s1
  let s3 := ledgerWrite s2 x.job (ownOff x slot i) b
  (s3.modCommit c fun k => { k with digests := tset k.digests i (sm3 b) }).modLed c fun l =>
    { l with snapshotBytes := l.snapshotBytes + BitVec.ofNat 48 b.len }

/-- The slot that the next commit writes: the one that does not hold the last sealed commit (10 R404). -/
def freeSlotOf (l : Ledger) : Nat := 1 - l.sealedSlot % 2

/-- The next commit has to wait: for the commit before it, or for an export that still needs the slot. -/
def commitBlocked (x : Ctx) : Bool :=
  x.led.commit.isSome || (match x.exporting with | some e => e.slot = freeSlotOf x.led | none => false)

/-- A tapped tensor is whole (10 R395): it is written into the partner slot and digested; a length other than BYTES
fails the commit. -/
def tapFinish (s : State) (c i : Nat) (b : Blob) : State :=
  let x := s.ctx c
  match x.led.commit with
  | none => s
  | some k =>
    if b.len ≠ objBytes x.plan i then commitCause s c 3
    else (ledgerWrite s x.job (copyOff x k.slot i) b).modLed c fun l => { l with
      copies := tset l.copies (2 * i + k.slot) (sm3 b), taps := terase l.taps i }

/-- The core whose loss stage has the monitor. -/
def monitorCore (s : State) (c : Nat) : Option Nat :=
  (List.range nCores).find? fun core =>
    (s.core core).stage.ctx = c && match (s.core core).stage.info with
      | some r => r.opclass = 5 && lossMonitor r.param
      | none => false

/-- NEXT_BATCH of each queue of a context, in the order of complex and queue. -/
def nextBatches (s : State) (c : Nat) : List (Nat × Nat × Nat) :=
  (queuesOf s c).map fun q => (q.1, q.2, (s.queue q.1 q.2).nextBatch)

/-- What a commit holds beside the objects: the steps of the layers, the monitor state and the next batches (10 R401). -/
def commitFacts (s : State) (c : Nat) (k : Commit) : Commit :=
  let u := ((monitorCore s c).map fun m => (s.core m).loss).getD LossUnit.cleared
  { k with
    layers := (updateLayers s c).foldl (fun t e => tset t e.2.2.layer (tgetD (s.core e.1).upd.expectT e.2.1 0)) []
    monitor := BitVec.ofNat 128 (packFields [(u.monitorN.toNat, 32), (u.monitorMean.toNat, 32), (u.monitorM2.toNat, 32),
      (u.monitorVar.toNat, 32)])
    batches := nextBatches s c }

/-- A commit point is reached (10 R386, R404): the commit holds what stands now (R387). -/
def commitPoint (s : State) (c C : Nat) : State :=
  s.modCtx c fun x => { x with led := { x.led with
    waiting := some C, point := commitFacts s c { c := C, slot := 0 }, taps := [], waits := x.led.waits + (if commitBlocked x then 1 else 0) } }

/-- A snapshot's accesses stall: an object, or the ledger, stands behind what is stopped or not settled (06 R240). -/
def snapshotStalls (s : State) (x : Ctx) : Bool :=
  ledgerStalls s x.job ||
    (objectsOf x.plan x.rank.toNat).any fun i => rangeStalls s (objAddr x.plan i) (objBytes x.plan i)

/-- COMMIT_START: once the previous commit is settled, every owned object is snapshotted, and the taps that came whole while
the snapshot waited are kept. -/
def commitSnapshot (s : State) (c : Nat) : State :=
  let x := s.ctx c
  match x.led.waiting with
  | none => s
  | some C =>
    if commitBlocked x || (x.led.st ≠ .running && x.led.st ≠ .committing) || snapshotStalls s x then s
    else
      let slot := freeSlotOf x.led
      let s1 := s.modLed c fun l => { l with
        waiting := none, st := .committing, commit := some { x.led.point with c := C, slot := slot } }
      let s2 := (objectsOf x.plan x.rank.toNat).foldl (fun s i => snapshotObject s c slot i) s1
      x.led.taps.foldl (fun s e => if e.2.2 then tapFinish s c e.1 e.2.1 else s) s2

/-- The local snapshot of a commit is durable (06 R236). -/
def ownDurable (s : State) (x : Ctx) (k : Commit) : Bool :=
  ledgerDurable s x.job (slotOff x k.slot) (sumBytes x.plan (objectsOf x.plan x.rank.toNat))

/-- SNAPSHOT_DONE: once no write of the snapshot is in flight. -/
def snapshotDone (s : State) (c : Nat) : State :=
  let x := s.ctx c
  match x.led.commit with
  | none => s
  | some k => if ownDurable s x k then s.modCommit c fun k => { k with snapDone := true } else s

/-- A CXL link that fails has lost writes of a commit: the rank's part of it can no longer become durable, and fails with
WRITE. -/
def failLost (before after : State) (port : Nat) : State :=
  (List.range nCtx).foldl (fun s c =>
    let x := s.ctx c
    match x.led.commit with
    | none => s
    | some k =>
      let hit : Bool := (before.cxl port).flight.any fun o => match ledgerOffset before x.job (128 * o.word) with
        | some a => slotOff x k.slot < a + 128 && a < slotOff x k.slot + slotBytes x
        | none => false
      if hit && (before.cxl port).st = .up then commitCause s c 6 else s) after

/-! ### Taps and copies (10 R395, R396) -/

/-- The tap objects that this rank copies from tensor `n` of a stream. -/
def tapObjects (x : Ctx) (stream n : Nat) : List Nat :=
  (partnerObjects x x.rank.toNat).filter fun i =>
    objIsTap x.plan i && objTapStream x.plan i = stream && objTapTensor x.plan i = n && !x.led.dropped.contains (objOwner x.plan i)

/-- The commit whose step runs: taken, or still waiting for its snapshot. -/
def commitOfStep (x : Ctx) : Bool :=
  match x.led.waiting, x.led.commit with
  | some C, _ => C = x.step.jobStep.toNat
  | none, some k => k.c = x.step.jobStep.toNat
  | none, none => false

/-- A word reaches the device on a stream: a header counts a tensor of the step, and data words of a tapped tensor are
copied. -/
def tapWord (s : State) (c stream : Nat) (w : SWord) : State :=
  let x := s.ctx c
  let n := tgetD x.taps stream 0
  let s1 := if w.header then s.modCtx c fun x => { x with taps := tset x.taps stream (n + 1) } else s
  let idx := if w.header then n else n - 1
  if !commitOfStep x then s1
  else
    (tapObjects x stream idx).foldl (fun s i =>
      let b := if w.header then Blob.empty
        else Blob.append (tgetD (s.ctx c).led.taps i (Blob.empty, false)).1 ⟨128, w.bits.toNat⟩
      let s2 := s.modLed c fun l => { l with taps := tset l.taps i (b, w.last) }
      if w.last && x.led.waiting.isNone then tapFinish s2 c i b else s2) s1

/-- Bytes of one WRITE packet's data. -/
def writeChunk : Nat := 31 * 128

/-- A byte string sent in WRITEs. -/
def sendWrites (s : State) (peer : Nat) (job : BitVec 32) (b : Blob) : State :=
  (List.range ((b.len + writeChunk - 1) / writeChunk)).foldl (fun s i =>
    sendWrite s peer job (b.slice (writeChunk * i) (min writeChunk (b.len - writeChunk * i)))) s

/-- COPY_OBJECT: the owner writes a COPY object from its local slot into its partner's slot. -/
def copyObject (s : State) (c i : Nat) : State :=
  let x := s.ctx c
  match x.led.commit, (tget x.led.partners i).bind (rankAcc x) with
  | some k, some a =>
    if !objIsCopy x.plan i || objOwner x.plan i ≠ x.rank.toNat || !k.snapDone || k.copied.contains i || ledgerStalls s x.job then s
    else
      (sendWrites s a x.job (ledgerRead s x.job (ownOff x k.slot i) (objBytes x.plan i))).modCommit c fun k =>
        { k with copied := k.copied ++ [i] }
  | _, _ => s

/-! ### Parity (10 R400) -/

/-- `gf_mul` of 10 R400. -/
def gfMul (a b : Nat) : Nat :=
  ((List.range 8).foldl (fun (st : Nat × Nat) i =>
    let p := if bit b i then Nat.xor st.1 st.2 else st.1
    let a' := st.2 * 2
    (p, if 256 ≤ a' then Nat.xor (a' % 256) 0x1D else a')) (0, a)).1

/-- The inverse in GF(2^8). -/
def gfInv (a : Nat) : Nat := ((List.range 256).find? fun b => gfMul a b = 1).getD 0

/-- The coefficients 1, 2, 4, … of Q. -/
def qCoef : Nat → Nat
  | 0 => 1
  | n + 1 => gfMul (qCoef n) 2

/-- `parity` of 10 R400: P, or Q, of images of `len` bytes in MEMBER order. -/
def parityOf (q : Bool) (len : Nat) (ds : List Blob) : Blob :=
  Blob.ofBytes ((List.range len).map fun j =>
    ((ds.zipIdx).foldl (fun v d => Nat.xor v (if q then gfMul (qCoef d.2) (d.1.byte j) else d.1.byte j)) 0))

/-- The image of member `m` of a group of `n` from what is left of it (10 R400): `ds` has the other members' images, none where one
is lost too, and `p` and `q` the parities, where they are there. -/
def solveParity (len n m : Nat) (ds : Nat → Option Blob) (p q : Option Blob) : Option Blob :=
  let others := (List.range n).filter (· ≠ m)
  let sum (f : Nat → Nat → Nat) (j : Nat) : Nat :=
    others.foldl (fun v i => match ds i with | some d => Nat.xor v (f i (d.byte j)) | none => v) 0
  let bytes (f : Nat → Nat) : Option Blob := some (Blob.ofBytes ((List.range len).map f))
  let p' (b : Blob) (j : Nat) : Nat := Nat.xor (b.byte j) (sum (fun _ v => v) j)
  let q' (b : Blob) (j : Nat) : Nat := Nat.xor (b.byte j) (sum (fun i v => gfMul (qCoef i) v) j)
  match others.filter fun i => (ds i).isNone, p, q with
  | [], some b, _ => bytes (p' b)
  | [], none, some b => bytes fun j => gfMul (gfInv (qCoef m)) (q' b j)
  | [k], some b, some c => bytes fun j =>
      gfMul (gfInv (Nat.xor (qCoef m) (qCoef k))) (Nat.xor (q' c j) (gfMul (qCoef k) (p' b j)))
  | _, _, _ => none

/-- A holder READs the image of each live member that it has not yet asked for, 4,096 bytes at a time. Where an image
stands in the member's memory is not stated: a free value (log entry 31). -/
def parityReads (s : State) (c g : Nat) : State :=
  (groupMembers (s.ctx c).plan g).foldl (fun s r =>
    let x := s.ctx c
    match rankAcc x r with
    | none => s
    | some a =>
      if x.led.dropped.contains r || (tget x.led.reads r).isSome then s
      else
        let n := sumBytes x.plan (parityObjects x r)
        (List.range ((n + 4095) / 4096)).foldl (fun s i =>
          let v := s.free 44
          sendPacket v.2 a x.job 0xFFC 3 (min 4096 (n - 4096 * i)) ⟨8, v.1.toNat⟩)
          (s.modLed c fun l => { l with reads := tset l.reads r Blob.empty })) s

/-- PARITY_COMPUTE: a holder READs the members' images, and once it has them all writes P or Q into its slot. A dropped
member counts as zero (R421). -/
def parityCompute (s : State) (c g : Nat) : State :=
  let x := s.ctx c
  match x.led.commit with
  | none => s
  | some k =>
    let ms := groupMembers x.plan g
    let need (r : Nat) : Nat := sumBytes x.plan (parityObjects x r)
    let have' := ms.all fun r => x.led.dropped.contains r || (tgetD x.led.reads r Blob.empty).len = need r
    let mine := (heldParity x.plan x.rank.toNat).filter fun h => h.1 = g
    if mine.isEmpty || ledgerStalls s x.job then s
    else if !have' then parityReads s c g
    else
      let images := ms.map fun r => if x.led.dropped.contains r then Blob.empty else tgetD x.led.reads r Blob.empty
      let s1 := mine.foldl (fun s h =>
        ledgerWrite s x.job (parityOff x k.slot h) (parityOf h.2 (parityLen x g) images)) s
      (s1.modCommit c fun k => { k with parity := k.parity ++ [g] }).modLed c fun l =>
        { l with reads := l.reads.filter fun e => !ms.contains e.1 }

/-! ### The commit record (10 R401) -/

/-- A record with its digest. -/
def sealRecord (body : Blob) : Blob := Blob.append body ⟨32, (sm3 body).toNat⟩

def commitRecord (s : State) (c : Nat) (k : Commit) : Blob :=
  let x := s.ctx c
  let p := x.plan
  let objs := objectsOf p x.rank.toNat
  let qs := k.batches
  let head := packFields [(x.job.toNat, 32), (k.c, 32), (x.rank.toNat, 14), (0, 2), (objs.length, 16), (qs.length, 10), (0, 22),
    (k.monitor.toNat, 128), (x.led.drops.toNat, 32), (0, 224)]
  let ents := objs.flatMap fun i => [(i, 32), (if objLayer p i = 0xFFFF then 0 else (tgetD k.layers (objLayer p i) 0).toNat, 32),
    (boolNat (x.led.fallback.contains i), 1), (0, 63), ((tgetD k.digests i 0).toNat, 256)]
  let qent := qs.flatMap fun q => [(q.2.1, 8), (q.1, 1), (0, 23), (q.2.2, 32)]
  sealRecord ⟨64 + 48 * objs.length + 8 * qs.length, head + 2 ^ 512 * packFields (ents ++ qent)⟩

/-- A byte string is a commit record whose trailer matches. -/
def recordValid (b : Blob) : Bool :=
  let n := 64 + 48 * b.bits 80 16 + 8 * b.bits 96 10
  b.len ≥ 96 && b.len = n + 32 && b.bits (8 * n) 256 = (sm3 (b.slice 0 n)).toNat

/-- The digest of plan object `i` in a record, with its T_C. -/
def recordObject (b : Blob) (i : Nat) : Option (BitVec 256 × BitVec 32) :=
  ((List.range (b.bits 80 16)).find? fun k => b.bits (512 + 384 * k) 32 = i).map fun k =>
    (BitVec.ofNat 256 (b.bits (512 + 384 * k + 128) 256), BitVec.ofNat 32 (b.bits (512 + 384 * k + 32) 32))

/-- The objects of rank `r` that its parity image at a commit holds, by the FALLBACK bits of its record (10 R399, R401). -/
def recordImage (p b : Blob) (r : Nat) : List Nat :=
  let fell (i : Nat) : Bool := (List.range (b.bits 80 16)).any fun k =>
    b.bits (512 + 384 * k) 32 = i && b.bits (512 + 384 * k + 64) 1 = 1
  ((objectsOf p r).filter fun i => objClass p i = 0) ++ (objectsOf p r).filter fun i => objClass p i = 1 && fell i

def recordQueues (b : Blob) : List (Nat × Nat × Nat) :=
  (List.range (b.bits 96 10)).map fun k =>
    let o := 512 + 384 * b.bits 80 16 + 64 * k
    (b.bits (o + 8) 1, b.bits o 8, b.bits (o + 32) 32)

/-- The record partner of a rank: the partner of its largest TAP or COPY object, ties to the first; else HOLDER0 of its
group (10 R401). -/
def recordPartner (x : Ctx) (r : Nat) : Option Nat :=
  let big := ((objectsOf x.plan r).filter fun i => (tget x.led.partners i).isSome).foldl (fun (m : Option Nat) i =>
    match m with
    | none => some i
    | some j => if objBytes x.plan j < objBytes x.plan i then some i else some j) none
  match big with
  | some i => tget x.led.partners i
  | none => (groupOf x.plan r).map (groupHolder0 x.plan)

/-- COMMIT_RECORD_WRITE: into the own record slot, then to the record partner. -/
def commitRecordWrite (s : State) (c : Nat) : State :=
  let x := s.ctx c
  match x.led.commit with
  | none => s
  | some k =>
    if !k.snapDone || k.record.isSome || ledgerStalls s x.job then s
    else
      let b := commitRecord s c k
      let s1 := ledgerWrite s x.job (recordOff x k.slot) b
      let s2 := s1.modCommit c fun k => { k with record := some b }
      match (recordPartner x x.rank.toNat).bind (rankAcc x) with
      | some a => sendWrites s2 a x.job b
      | none => s2

/-- The wards of a rank: live owners of objects it is partner for. -/
def wardObjects (x : Ctx) : List Nat :=
  (partnerObjects x x.rank.toNat).filter fun i => !x.led.dropped.contains (objOwner x.plan i)

/-! ### The commit tree (10 R402; 09 R369, R374) -/

/-- The words of a stream, at most 31, as a payload (09 Table 9.11). -/
def wordsPayload (ws : List SWord) : Blob :=
  let map := packFields (ws.map fun w => (boolNat w.header + 2 * boolNat w.last + 4 * boolNat w.poison, 3))
  ⟨16 + 128 * ws.length, map + 2 ^ 128 * packFields (ws.map fun w => (w.bits.toNat, 1024))⟩

/-- The commit-tree channel. -/
def treeChannel : Nat := 0xFFB

/-- A value of the commit tree as a tensor of one element: 0.0, or 1.0 with its cause in USE; SAMPLE is the commit. -/
def leafPayload (C cause : Nat) : Blob :=
  let h : THdr := ⟨1, F32.one, 3, flagShaped, 1, 1, 1, C, cause⟩
  wordsPayload [⟨h.word, true, false, false⟩,
    ⟨(if cause = 0 then F32.posZero else F32.one).setWidth 1024, false, true, false⟩]

/-- The rank that runs the commit tree: the plan names no device for its nodes, and the lowest rank that is not dropped has
them. -/
def commitRoot (x : Ctx) : Nat := ((List.range x.led.ranks.length).find? fun r => !x.led.dropped.contains r).getD 0

/-- A packet on the commit-tree channel to a rank. -/
def sendTree (s : State) (c r operand : Nat) (b : Blob) : State :=
  match rankAcc (s.ctx c) r with
  | some a => sendPacket s a (s.ctx c).job treeChannel 6 operand b
  | none => s

/-- The root has a leaf of commit C from every live rank: the greatest of them is broadcast. -/
def answerCommit (s : State) (c : Nat) : State :=
  let x := s.ctx c
  match x.led.commit with
  | none => s
  | some k =>
    let live := (List.range x.led.ranks.length).filter fun r => !x.led.dropped.contains r
    let got := live.filterMap fun r => match tget x.led.leaves r with
      | some (C, v) => if C = k.c then some v else none
      | none => none
    if commitRoot x ≠ x.rank.toNat || k.answer.isSome || got.length ≠ live.length then s
    else
      let v := (got.find? (· ≠ 0)).getD 0
      let s1 := s.modCommit c fun k => { k with answer := some v }
      live.foldl (fun s r => if r = x.rank.toNat then s else sendTree s c r (2 ^ 23 + 2) (leafPayload k.c v)) s1

/-- The rank's leaf sends its value to the commit tree. -/
def sendLeaf (s : State) (c v : Nat) : State :=
  let x := s.ctx c
  match x.led.commit with
  | none => s
  | some k =>
    let s1 := s.modCommit c fun k => { k with leaf := some v }
    if commitRoot x = x.rank.toNat then
      answerCommit (s1.modLed c fun l => { l with leaves := tset l.leaves x.rank.toNat (k.c, v) }) c
    else sendTree s1 c (commitRoot x) 2 (leafPayload k.c v)

/-- The digest of a partner copy equals the one in its ward's record; none while either is still to come. -/
def copyVerdict (x : Ctx) (k : Commit) (i : Nat) : Option Bool :=
  match tget x.led.copies (2 * i + k.slot), tget x.led.wards (objOwner x.plan i) with
  | some d, some b => if b.bits 32 32 = k.c then (recordObject b i).map fun w => d = w.1 else none
  | _, _ => none

/-- COMMIT_LEAF (10 R402): 0.0 once the snapshot, the record, every partner copy with the digest of its ward's record and
every parity slot are durable; at the first failure 1.0 with its cause. -/
def commitLeaf (s : State) (c : Nat) : State :=
  let x := s.ctx c
  match x.led.commit with
  | none => s
  | some k =>
    let vs := (wardObjects x).map (copyVerdict x k)
    if k.leaf.isSome then s
    else if k.cause ≠ 0 then sendLeaf s c k.cause
    else if vs.any (· = some false) then sendLeaf (commitCause s c 4) c 4
    else if k.snapDone && k.record.isSome && vs.all (· = some true) &&
        ((heldParity x.plan x.rank.toNat).all fun h => k.parity.contains h.1) &&
        ledgerDurable s x.job (slotOff x k.slot) (slotBytes x) then sendLeaf s c 0
    else s

/-! ### The directory (10 R405) -/

/-- Where the directory copies stand: the retention granule at offsets 0 and 32 MiB. -/
def directoryAddr (copy : Bool) : Nat := granuleBase 4608 + (if copy then 32 * 2 ^ 20 else 0)

def directoryEntries (s : State) : List Nat :=
  ((s.mem.granules.filter fun g => g.2.ledger).map fun g => packFields [(0, 16), (g.2.job, 32), (g.1, 14)]) ++
    (s.ledger.jobs.map fun j => packFields [(1, 16), (j.job.toNat, 32), (0, 14), (j.rank, 14), (j.slot, 1), (0, 19),
      (j.sealed'.toNat, 32)])

/-- The copy of lower GENERATION is written, one generation higher. -/
def directoryWrite (s : State) : State :=
  let es := directoryEntries s
  let gen := s.ledger.generation + 1
  let copy := !s.ledger.copy
  let body : Blob := ⟨32 + 16 * es.length, packFields ([(gen.toNat, 32), (es.length, 16), (0, 208)] ++ es.map fun e => (e, 128))⟩
  let s1 := memWrite s (directoryAddr copy) (sealRecord body)
  { s1 with ledger := { s1.ledger with valid := true, copy := copy, generation := gen } }

/-- The digest of a stored copy matches; with its generation. -/
def directoryCopy (s : State) (copy : Bool) : Option (Nat × List Nat) :=
  let a := directoryAddr copy
  let n := bits (s.mem.mem.word (a / 128)).toNat 32 16
  let b := memRead s a (32 + 16 * n + 32)
  let body := b.slice 0 (32 + 16 * n)
  if b.bits (8 * (32 + 16 * n)) 256 = (sm3 body).toNat && !s.mem.mem.poisonedRange a b.len then
    some (b.bits 0 32, (List.range n).map fun i => b.bits (256 + 128 * i) 128)
  else none

/-- The copy that bring-up takes: of higher GENERATION among those whose digest matches (06 R239, 10 R405). -/
def directoryTake (s : State) : Option (Bool × Nat × List Nat) :=
  match directoryCopy s false, directoryCopy s true with
  | some a, some b => if a.1 < b.1 then some (true, b) else some (false, a)
  | some a, none => some (false, a)
  | none, some b => some (true, b)
  | none, none => none

def putJob (s : State) (j : LedgerJob) : State :=
  { s with ledger := { s.ledger with jobs := (s.ledger.jobs.filter fun k => k.job ≠ j.job) ++ [j] } }

/-- A job's LEDGER granules are released and filled, and the directory is written (10 R418). -/
def releaseLedger (s : State) (job : BitVec 32) : State :=
  let gs := ledgerGranules s job
  if gs.isEmpty && !(s.ledger.jobs.any fun j => j.job = job) then s
  else
    let s1 := gs.foldl releaseGranule s
    directoryWrite { s1 with ledger := { s1.ledger with
      jobs := s1.ledger.jobs.filter fun j => j.job ≠ job, releases := s1.ledger.releases + 1 } }

/-! ### Sealing (10 R402 to R405, R423) -/

/-- The export of a sealed commit begins: OPEN with the first byte's number, then the commit record and the objects in plan
order. -/
def exportStart (s : State) (c : Nat) : State :=
  let x := s.ctx c
  let e := planExport x.plan
  let C := x.led.lastSealed.toNat
  if e = 0 || x.exporting.isSome || C / max 1 (planN x.plan) % e ≠ 0 then s
  else
    let t := x.led.sealedSlot
    let n := 64 + 48 * (ledgerRead s x.job (recordOff x t) 64).bits 80 16 + 8 * (ledgerRead s x.job (recordOff x t) 64).bits 96 10 + 32
    let data := (objectsOf x.plan x.rank.toNat).foldl (fun b i =>
      Blob.append b (ledgerRead s x.job (ownOff x t i) (objBytes x.plan i))) (ledgerRead s x.job (recordOff x t) n)
    let s1 := (wantKey s (.exported x.job)).modCtx c fun x => { x with exporting := some ⟨C, t, data, 0, 0⟩ }
    let e := exportEntry (s1.ctx c)
    exportFrom (sendSegment s1 c e (segHeader 0 (entrySession (s1.ctx c) e) 0 0 0 0) Blob.empty) c 0 sessionBuffer

/-- The slot of a settled commit takes new copies. -/
def clearCopies (l : Ledger) (slot : Nat) : Ledger :=
  { l with copies := l.copies.filter fun e => e.1 % 2 ≠ slot, got := l.got.filter fun e => e.1 % 2 ≠ slot }

/-- SEALED reaches a rank whose own leaf is 0.0: the commit becomes C_s. -/
def sealed (s : State) (c : Nat) : State :=
  let x := s.ctx c
  match x.led.commit with
  | none => s
  | some k =>
    if k.leaf ≠ some 0 || (k.answer.getD 0) ≠ 0 then s
    else
    let s1 := s.modCtx c fun x => { x with
      tC := k.layers.foldl (fun t e => tset t e.1 e.2) x.tC
      led := { clearCopies x.led k.slot with
        st := .running, commit := none, lastSealed := BitVec.ofNat 32 k.c, hasSealed := true, sealedSlot := k.slot
        sealedPartners := x.led.partners, retries := 0, drops := 0, sealed' := x.led.sealed' + 1 } }
    let s2 := putJob s1 ⟨x.job, x.rank.toNat, k.slot, BitVec.ofNat 32 k.c⟩
    exportStart (directoryWrite s2) c

/-- COMMIT_FAILED reaches a rank: the previous sealed commit stays. -/
def commitFailed (s : State) (c cause rank : Nat) : State :=
  match (s.ctx c).led.commit with
  | none => s
  | some k =>
    if k.answer = some 0 then s
    else s.modLed c fun l => { clearCopies l k.slot with
    st := .running, commit := none, failed := l.failed + 1, lastFail := BitVec.ofNat 18 (cause % 16 + 16 * (rank % 2 ^ 14)) }

end Sys2Proof.Machine
end

