-- ==== Sys2Proof/Machine/Remote.lean ====
section
/-!
DEFINITION. What packets do at their destination (09 R372 to R378): fabric streams, remote memory accesses,
collectives, multicast and loans; and the going of stream words to a fabric peer.
-/

namespace Sys2Proof.Machine

/-! ### Streams over the fabric (09 R372) -/

/-- The key of the fabric end of a stream whose producer is on another device. -/
def farEnd : Nat := 16

def Stream.end' (t : Stream) (k : Nat) : FabEnd := tgetD t.fab k {}

def State.modEnd (s : State) (c i k : Nat) (f : FabEnd → FabEnd) : State :=
  s.modStream c i fun t => { t with fab := tmod t.fab k {} f }

/-- The device that a fabric end names. -/
def endPeer (x : Ctx) (e : BitVec 32) : Option Nat := rankAcc x (epLrank e)

/-- The start-of-stream check: FORMAT, CLASS, MAX_LEN and CAPACITY (its layout is the model's, log entry 29). -/
def checkPayload (r : StreamRec) : Blob :=
  ⟨32, packFields [(0, 128), (r.format, 8), (r.cls, 8), (0, 16), (r.maxLen, 32), (r.capacity, 32), (0, 32)]⟩

/-- The fabric ends of a stream: their keys and references. -/
def fabricEnds (r : StreamRec) : List (Nat × BitVec 32) :=
  (if epKind r.producer = 6 then [(farEnd, r.producer)] else []) ++
    ((r.consumers.zipIdx).filter fun e => epKind e.1 = 6).map fun e => (e.2, e.1)

/-- Each fabric end of a context's streams sends its start-of-stream check. -/
def sendChecks (s : State) (c : Nat) : State :=
  match (s.ctx c).image with
  | none => s
  | some im =>
    (im.streams.zipIdx).foldl (fun s e =>
      (fabricEnds e.1).foldl (fun s k =>
        match endPeer (s.ctx c) k.2 with
        | some a => sendPacket s a (s.ctx c).job (epPeerStream k.2) 0 0 (checkPayload e.1)
        | none => s) s) s

/-- A mismatch stops the stage at this end (09 R372). -/
def fabricMismatch (s : State) (c : Nat) (r : StreamRec) (k : Nat) : State :=
  let cores := if k = farEnd then r.consumers.filterMap (endpointCore (s.ctx c)) else (endpointCore (s.ctx c) r.producer).toList
  if cores = [] then contextFault s c ⟨.fabricStreamMismatch, none, .fabric, 0⟩
  else cores.foldl (fun s n => stopStage s n .fabricStreamMismatch 0) s

/-- Words that have come from a peer join the stream as those of a local producer do (05 R184); a tensor that a stripe
cannot cut stops the stages that would take it (R186). -/
def arriveWord (s : State) (c i : Nat) (r : StreamRec) (w : SWord) : State :=
  match r.fanout with
  | 3 =>
    let got := (s.stream c i).got ++ [w]
    if !w.last then s.modStream c i fun t => { t with got := got }
    else
      let s1 := s.modStream c i fun t => { t with got := [] }
      match got, fmtOf r.format with
      | hw :: ws, some f =>
        let h := THdr.parse hw.bits
        let es : List Elem := (ws.flatMap fun x => (List.range (perWord f)).map fun j =>
          (⟨BitVec.ofNat 256 (unpackElem f x.bits j), x.poison⟩ : Elem)).take h.length
        let (s2, ok) := streamPush s1 c i h f es hw.poison
        if ok then s2 else stopEnd s1 c (consumingCores s1 c i r) .shapeMissing 0
      | _, _ => s1
  | 2 =>
    let k := (s.stream c i).turn
    let s1 := streamAppend s c i k [w]
    pump (if w.last then s1.modStream c i fun t => { t with turn := (k + 1) % r.consumers.length } else s1) c i
  | _ => pump (streamAppend s c i 0 [w]) c i

/-- The words of a STREAM payload with their sideband map (09 Table 9.11). -/
def payloadWords (b : Blob) (n : Nat) : List SWord :=
  (List.range n).map fun k =>
    ⟨BitVec.ofNat 1024 (b.bits (128 + 1024 * k) 1024), b.bits (3 * k) 1 = 1, b.bits (3 * k + 1) 1 = 1, b.bits (3 * k + 2) 1 = 1⟩

/-- A request that only a local context of its JOB may receive (09 R373). -/
def deny (s : State) : State := s.modFab fun x => { x with remoteDenied := x.remoteDenied + 1 }

/-- The first packet of a kind at a link, accepted by the transport for a context of its JOB. -/
def takeFor (s : State) (h kind : Nat) : State × Option (Pkt × Nat) :=
  match takePacket s h kind with
  | none => (s, none)
  | some (p, s1) =>
    match jobCtx s1 p.job with
    | none => (deny s1, none)
    | some c =>
      match acceptPacket s1 p with
      | (s2, true) => (s2, some (p, c))
      | (s2, false) => (s2, none)

/-- A STREAM or COLLECTIVE packet with words for stream CHANNEL, or its start-of-stream check. -/
def streamPacket (s : State) (p : Pkt) (c : Nat) : State :=
  let i := p.channel
  let x := s.ctx c
  match streamRec x i with
  | none => s
  | some r =>
    match (fabricEnds r).find? fun e => endPeer x e.2 = some p.src with
    | none => s
    | some (k, _) =>
      if p.operand = 0 then
        if p.payload = checkPayload r then
          s.modEnd c i k fun e => { e with started := true, credit := if k = farEnd then e.credit else r.capacity }
        else fabricMismatch s c r k
      else if k ≠ farEnd then s
      else
        let ws := payloadWords p.payload (p.operand % 32)
        let s1 := s.modEnd c i k fun e => { e with held := e.held + ws.length }
        ws.foldl (fun s w => arriveWord (tapWord s c i w) c i r w) s1

def stream (s : State) (h : Nat) : State :=
  match takeFor s h 0 with
  | (s1, some (p, c)) => streamPacket s1 p c
  | (s1, none) => s1

/-- A broadcast leaves a node along every edge from another device below it (09 R374). -/
def sendBroadcast (s : State) (c node operand : Nat) (b : Blob) : State :=
  let x := s.ctx c
  match x.image with
  | none => s
  | some im =>
    im.streams.foldl (fun s r =>
      let feeds : Bool := epKind r.producer = 6 && r.consumers.any fun k => epKind k = 2 && rootOf x 64 (epNode k) = node
      match feeds, endPeer x r.producer with
      | true, some a => sendPacket s a x.job (epPeerStream r.producer) 6 operand b
      | _, _ => s) s

/-- A broadcast that has come down an edge passes on below the node that the edge leaves. -/
def forwardBroadcast (s : State) (p : Pkt) (c : Nat) : State :=
  match streamRec (s.ctx c) p.channel with
  | some r => if epKind r.producer ≠ 3 then s else sendBroadcast s c (epNode r.producer) p.operand p.payload
  | none => s

/-- A barrier root (08 R296): a root with OP = MAX whose output no stream takes. Its complete tensor of one element is
broadcast down the tree's edges. -/
def barrierRoot (s : State) (c node : Nat) : State :=
  match treeRec (s.ctx c) node, (s.node c node).out.outs, rootStream (s.ctx c) node with
  | some d, o :: _, none =>
    if d.op ≠ 1 || epKind d.out ≠ 3 || !o.complete || o.length ≠ 1 then s
    else
      let v := (o.vals.map (·.2)).head?.getD (oval F32.posZero false)
      let h : THdr := ⟨1, F32.one, 3, o.flags, o.c, o.w, o.h, o.sample, (s.node c node).out.use.toNat⟩
      let s1 := s.modNode c node fun t => { t with out := { t.out with outs := t.out.outs.drop 1, use := t.out.use + 1 } }
      sendBroadcast s1 c node (2 ^ 23 + 2) (wordsPayload
        [⟨h.word, true, false, false⟩, ⟨v.code.setWidth 1024, false, true, v.poison⟩])
  | _, _, _ => s

/-- A value of the commit tree: a leaf's at the root, or the root's broadcast (10 R402). -/
def commitWord (s : State) (p : Pkt) (c : Nat) : State :=
  match payloadWords p.payload (p.operand % 32) with
  | hw :: _ =>
    let h := THdr.parse hw.bits
    if bit p.operand 23 then
      s.modCommit c fun k => if k.c = h.sample then { k with answer := some h.use } else k
    else
      match accRank (s.ctx c) p.src with
      | some r => answerCommit (s.modLed c fun l => { l with leaves := tset l.leaves r (h.sample, h.use) }) c
      | none => s
  | [] => s

/-- A COLLECTIVE packet: tree words, a value of the commit tree, or a broadcast from a root. -/
def collective (s : State) (h : Nat) : State :=
  match takeFor s h 6 with
  | (s1, some (p, c)) =>
    if p.channel = treeChannel then commitWord s1 p c
    else if bit p.operand 23 then forwardBroadcast s1 p c else streamPacket s1 p c
  | (s1, none) => s1

/-- A CREDIT packet: the consumer has freed words. -/
def credit (s : State) (h : Nat) : State :=
  match takeFor s h 1 with
  | (s1, some (p, c)) =>
    let x := s1.ctx c
    match x.image with
    | none => s1
    | some im =>
      ((im.streams.zipIdx).flatMap fun e => (fabricEnds e.1).map fun k => (e.2, k.1, k.2)).foldl (fun s e =>
        if e.2.1 ≠ farEnd && epPeerStream e.2.2 = p.channel && endPeer x e.2.2 = some p.src then
          s.modEnd c e.1 e.2.1 fun f => { f with credit := f.credit + p.operand }
        else s) s1
  | (s1, none) => s1

/-- An edge over the fabric belongs to a tree (09 R374): a node produces it, or a child entry takes it at the far end, as far as
the peer's image is the own one. -/
def treeEdge (s : State) (c i : Nat) (e : BitVec 32) : Bool :=
  let x := s.ctx c
  (match streamRec x i with | some r => epKind r.producer = 3 | none => false) ||
    (sameImage s c (epLrank e) && match streamRec x (epPeerStream e) with
      | some r => r.consumers.any fun k => epKind k = 2
      | none => false)

/-- Words wait for a fabric consumer: as many as its credits allow, at most 31, leave in one packet, by the collective
class on a tree edge. -/
def sendStream (s : State) (c i k : Nat) (e : BitVec 32) : State :=
  let x := s.ctx c
  let t := s.stream c i
  let f := t.end' k
  let ws := (t.buf k).unread.take (min 31 f.credit)
  match endPeer x e with
  | none => s
  | some a =>
    if !f.started || ws.isEmpty || (tgetD s.fab.routes a []).isEmpty then s
    else
      let s1 := ws.foldl (fun s _ => popWord s c i k) s
      let s2 := s1.modEnd c i k fun g => { g with credit := g.credit - ws.length }
      sendPacket s2 a x.job (epPeerStream e) (if treeEdge s c i e then 6 else 0) ws.length (wordsPayload ws)

/-- Words of a stream still held for a consumer: those that wait and those of the fullest buffer. -/
def wordsHeld (t : Stream) : Nat :=
  waiting t + t.got.length + t.bufs.foldl (fun m b => max m (b.2.occupied + b.2.esc.length)) 0

/-- Consumers return CREDIT for the words that have left their buffers (09 R372). -/
def returnCredits (s : State) : State :=
  (List.range nCtx).foldl (fun s c =>
    match (s.ctx c).image with
    | none => s
    | some im =>
      (im.streams.zipIdx).foldl (fun s e =>
        if epKind e.1.producer ≠ 6 then s
        else
          let t := s.stream c e.2
          let n := (t.end' farEnd).held - wordsHeld t
          match endPeer (s.ctx c) e.1.producer with
          | some a =>
            if n = 0 then s
            else sendPacket (s.modEnd c e.2 farEnd fun f => { f with held := f.held - n }) a (s.ctx c).job e.2 1 n Blob.empty
          | none => s) s) s

/-! ### Remote memory (09 R373) -/

/-- The granule belongs to a context of the job, or to its ledger; a context under teardown owns nothing (14 R534). -/
def jobOwns (s : State) (job : BitVec 32) (n : Nat) : Bool :=
  let g := s.granule n
  (g.ledger && g.assigned && !g.lost && g.job = job.toNat) ||
    match jobCtx s job with
    | some c => (s.ctx c).st ≠ .teardown && ownsGranule s c n
    | none => false

/-- A remote access to `[a, a + n)` is allowed. -/
def remoteOk (s : State) (job : BitVec 32) (a n : Nat) : Bool :=
  let hi := a + (n - 1)
  (tierOf a = .hbm || tierOf a = .cxl) && tierOf a = tierOf hi &&
    (List.range (granuleOf hi - granuleOf a + 1)).all fun i => jobOwns s job (granuleOf a + i)

/-- A READ_DATA answer on the reverse connection: OPERAND 0 with data, or 1 REMOTE_DENIED. -/
def answerRead (s : State) (p : Pkt) (denied : Bool) (b : Blob) : State :=
  sendPacket s p.src p.job p.channel 4 (boolNat denied) b

/-- A ward's record, gathered from the WRITEs that bring it (10 R401, log entry 30). -/
def gatherRecord (s : State) (c : Nat) (r a : Nat) (d : Blob) : State :=
  let x := s.ctx c
  let cur := match tget x.led.incoming r with
    | some (next, b) => if next = a then Blob.append b d else d
    | none => d
  let mine : Bool := cur.bits 0 32 = x.job.toNat && cur.bits 64 14 = r
  if recordValid cur && mine then
    s.modLed c fun l => { l with incoming := terase l.incoming r, wards := tset l.wards r cur }
  else s.modLed c fun l => { l with incoming := if mine then tset l.incoming r (a + d.len, cur) else terase l.incoming r }

/-- Bytes that reach the copy of a COPY object in a slot; the last of them gives its digest (10 R396). -/
def copyArrived (s : State) (c : Nat) (off n : Nat) : State :=
  let x := s.ctx c
  (wardObjects x).foldl (fun s i =>
    (List.range 2).foldl (fun s t =>
      let o := copyOff x t i
      if !objIsCopy x.plan i || off < o || o + objBytes x.plan i < off + n then s
      else
        let key := 2 * i + t
        let g := (if off = o then 0 else tgetD (s.ctx c).led.got key 0) + n
        s.modLed c fun l => { l with
          got := tset l.got key g
          copies := if g = objBytes x.plan i then tset l.copies key (sm3 (ledgerRead s x.job o g)) else terase l.copies key }) s) s

/-- A control record for a standby context, which has no granules and so no mailbox of its own: it is taken as it comes
(log entry 35). -/
def standbyMail (s : State) (p : Pkt) (d : Blob) : Bool :=
  p.channel = 0xFFC && d.len = 256 && d.bits 32 32 = p.job.toNat && (ledgerGranules s p.job).isEmpty &&
    match jobCtx s p.job with
    | some c => (s.ctx c).standby
    | none => false

/-- The first packet of a kind that has arrived at a link asks for bytes that stall (06 R240): it waits in its buffer. -/
def packetStalls (s : State) (h kind : Nat) (range : Pkt → Nat × Nat) : Bool :=
  match takePacket s h kind with
  | none => false
  | some (p, _) => let r := range p; rangeStalls s r.1 r.2

/-- A WRITE (09 R373): checked and written, or refused; a write into the mailbox is a control record (10 R406). -/
def write (s : State) (h : Nat) : State :=
  if packetStalls s h 2 fun p => (p.payload.bits 0 44, p.payload.len - 8) then s
  else match takePacket s h 2 with
  | none => s
  | some (p, s0) =>
    match acceptPacket s0 p with
    | (s1, false) => s1
    | (s1, true) =>
      let a := p.payload.bits 0 44
      let n := p.payload.len - 8
      let d := p.payload.slice 8 n
      if p.payload.len ≤ 8 then s1
      else if standbyMail s1 p d then
        match jobCtx s1 p.job with
        | some c => s1.modLed c fun l => { l with mail := l.mail ++ [Ctrl.parse d] }
        | none => s1
      else if !remoteOk s1 p.job a n then answerRead (deny s1) p true Blob.empty
      else
        let s2 := writeRange s1 a n d.val
        match ledgerOffset s2 p.job a with
        | none => s2
        | some off =>
          let k := Ctrl.parse d
          match ledgerCtx s2 p.job with
          | none =>
            if off < mailboxBytes && k.typ = 0xA then
              { s2 with ledger := { s2.ledger with releaseMail := s2.ledger.releaseMail ++ [p.job] } }
            else s2
          | some c =>
            if off < mailboxBytes then
              if n = 256 && d.bits 32 32 = p.job.toNat && off = 256 * k.src then
                s2.modLed c fun l => { l with mail := l.mail ++ [k] }
              else s2
            else
              match accRank (s2.ctx c) p.src with
              | some r => gatherRecord (copyArrived s2 c off n) c r a d
              | none => s2

/-- A READ (09 R373): answered with its data, or refused with none; OPERAND has the range of Table 9.11. -/
def read (s : State) (h : Nat) : State :=
  if packetStalls s h 3 fun p => (p.payload.bits 0 44, p.operand) then s
  else match takePacket s h 3 with
  | none => s
  | some (p, s0) =>
    match acceptPacket s0 p with
    | (s1, false) => s1
    | (s1, true) =>
      let a := p.payload.bits 0 44
      if p.operand < 128 || packetBytes < p.operand || !remoteOk s1 p.job a p.operand then answerRead (deny s1) p true Blob.empty
      else
        let v := readRange s1 a p.operand
        answerRead v.2 p false ⟨p.operand, v.1⟩

/-- READ_DATA: the data go to what the ledger reads from that rank; a denial fails the commit with WRITE. -/
def readData (s : State) (h : Nat) : State :=
  match takePacket s h 4 with
  | none => s
  | some (p, s0) =>
    match acceptPacket s0 p, jobCtx s0 p.job with
    | (s1, true), some c =>
      if p.operand = 1 then commitCause s1 c 6
      else
        match accRank (s1.ctx c) p.src with
        | some r => s1.modLed c fun l => { l with reads := match tget l.reads r with
            | some b => tset l.reads r (Blob.append b p.payload)
            | none => l.reads }
        | none => s1
    | (s1, _), _ => s1

/-! ### Multicast and loans (09 R375 to R378) -/

def findSession (s : State) (job : BitVec 32) (n : Nat) : Option Session :=
  s.fab.sessions.find? fun x => x.job = job && x.number = n

def putSession (s : State) (x : Session) : State :=
  s.modFab fun f => { f with sessions := f.sessions.map fun y => if y.job = x.job && y.number = x.number then x else y }

/-- A data packet's bytes after its 8-byte offset. -/
def rangeBytes : Nat := 4088

def loanBytes : Nat := 65536

/-- Ranges of at most 4,088 bytes that make `[off, off + len)`. -/
def ranges (off len : Nat) : List (Nat × Nat) :=
  (List.range ((len + rangeBytes - 1) / rangeBytes)).map fun i => (off + rangeBytes * i, min rangeBytes (len - rangeBytes * i))

/-- A member answers the loans at the head of its list whose ranges it holds, in order (09 R377). -/
def serveLoans (job : BitVec 32) (n : Nat) : Nat → State → State
  | 0, s => s
  | f + 1, s =>
    match findSession s job n with
    | none => s
    | some x =>
      match x.loans with
      | [] => s
      | l :: t =>
        if x.got < min (l.off + l.len) x.length then s
        else
          let s1 := (ranges l.off (min l.len (x.length - l.off))).foldl (fun s r =>
            let v := readRange s (x.dest + r.1) r.2
            sendPacket v.2 l.peer job 0xFFD 9 n (Blob.append ⟨8, r.1⟩ ⟨r.2, v.1⟩)) s
          let s2 := s1.modFab fun f => { f with loansServed := f.loansServed + 1 }
          serveLoans job n f (putSession s2 { x with loans := t })

/-- NOTICE DONE leaves once the own copy is complete and every child has sent its own (09 R378). At the root the session
is complete. -/
def tryDone (s : State) (job : BitVec 32) (n : Nat) : State :=
  match findSession s job n with
  | none => s
  | some x =>
    if x.got < x.length || !x.verified || x.doneSent || x.children.any fun k => !k.done then s
    else
      let s1 := putSession s { x with doneSent := true }
      match x.parent with
      | some a => sendPacket s1 a job 0xFFF 0xB (0x020000 + n) ⟨8, x.length⟩
      | none => s1

/-- A borrowing member keeps 16 loans of 64 KiB outstanding (09 R377). -/
def borrowMore (job : BitVec 32) (n : Nat) : Nat → State → State
  | 0, s => s
  | f + 1, s =>
    match findSession s job n with
    | none => s
    | some x =>
      let from' := if x.parent.isSome then x.parent else x.root
      match from' with
      | none => s
      | some a =>
        if !x.borrowing || x.outstanding.length ≥ 16 || x.length ≤ x.borrow then s
        else
          let len := min loanBytes (x.length - x.borrow)
          let s1 := sendPacket s a job 0xFFD 8 n ⟨12, packFields [(x.borrow, 64), (len, 32)]⟩
          borrowMore job n f (putSession s1 { x with borrow := x.borrow + len, outstanding := x.outstanding ++ [(x.borrow, len)] })

/-- A member begins to borrow from a byte on. -/
def startBorrow (s : State) (job : BitVec 32) (n off : Nat) : State :=
  match findSession s job n with
  | none => s
  | some x => borrowMore job n 16 (putSession s { x with borrowing := true, borrow := off, outstanding := [] })

/-- The next bytes of a member's copy are written, in order; loans and DONE may follow. -/
def memberWrite (s : State) (x : Session) (off : Nat) (d : Blob) : State :=
  if off ≠ x.got || x.length < off + d.len then s
  else
    let s1 := writeRange s (x.dest + off) d.len d.val
    let s2 := putSession s1 { x with got := x.got + d.len }
    tryDone (serveLoans x.job x.number (x.loans.length + 1) s2) x.job x.number

/-- Where in memory the data of an MCAST or LOAN_DATA packet go. -/
def sessionRange (s : State) (p : Pkt) : Nat × Nat :=
  match findSession s p.job (p.operand % 65536) with
  | some x => (x.dest + p.payload.bits 0 64, p.payload.len - 8)
  | none => (0, 0)

/-- MCAST (09 R376). -/
def mcast (s : State) (h : Nat) : State :=
  if packetStalls s h 7 (sessionRange s) then s
  else match takeFor s h 7 with
  | (s1, some (p, _)) =>
    match findSession s1 p.job (p.operand % 65536) with
    | some x => memberWrite s1 x (p.payload.bits 0 64) (p.payload.slice 8 (p.payload.len - 8))
    | none => s1
  | (s1, none) => s1

/-- A parent detaches the attached children, but for child `k`, whose lag would pass the budget when the furthest child
stands at `top`; each is sent NOTICE LAGGED (09 R376). -/
def detachLagging (s : State) (x : Session) (k top : Nat) : State × Session :=
  (x.children.zipIdx).foldl (fun (st : State × Session) e =>
    if e.2 ≠ k && e.1.attached && x.budget < top - e.1.sent then
      let s1 := sendPacket st.1 e.1.acc x.job 0xFFF 0xB (0x010000 + x.number) ⟨8, e.1.sent⟩
      (s1.modFab fun f => { f with laggedDetaches := f.laggedDetaches + 1 },
        { st.2 with children := st.2.children.modify e.2 fun c => { c with attached := false } })
    else st) (s, x)

/-- MCAST_SEND (09 R376): the next range goes to a child that has credit, from what the parent holds. -/
def mcastSend (s : State) (job : BitVec 32) (n k : Nat) : State :=
  match findSession s job n with
  | none => s
  | some x =>
    match x.children[k]? with
    | none => s
    | some c =>
      let credit : Bool := match findTx s c.acc job 0xFFD with | some t => t.held.length < 64 | none => true
      let len := min rangeBytes (min x.got x.length - c.sent)
      if !c.attached || len = 0 || !credit || rangeStalls s (x.dest + c.sent) len then s
      else
        let top := x.children.foldl (fun m e => if e.attached then max m e.sent else m) (c.sent + len)
        let r := detachLagging s x k top
        let v := readRange r.1 (x.dest + c.sent) len
        let s1 := sendPacket v.2 c.acc job 0xFFD 7 n (Blob.append ⟨8, c.sent⟩ ⟨len, v.1⟩)
        putSession s1 { r.2 with children := r.2.children.modify k fun e => { e with sent := e.sent + len } }

/-- LOAN (09 R377, 11 R440): a volume's range from its resident copy; a session's range once it is held. A lender
without the object, or whose object lies where the job may not reach (R373), does not answer. -/
def loan (s : State) (h : Nat) : State :=
  if packetStalls s h 8 fun p => (let r := sessionRange s p; (r.1, if r.1 = 0 then 0 else p.payload.bits 64 32)) then s
  else match takePacket s h 8 with
  | none => s
  | some (p, s0) =>
    match acceptPacket s0 p with
    | (s1, false) => s1
    | (s1, true) =>
      let off := p.payload.bits 0 64
      let len := p.payload.bits 64 32
      let n := p.operand % 65536
      if n = 0xFFFF then
        match s1.host.volumes.find? fun v => v.job = p.job with
        | none => s1
        | some v =>
          let len' := min len (v.raw.len - off)
          let s2 := (ranges off len').foldl (fun s r =>
            sendPacket s p.src p.job 0xFFD 9 n (Blob.append ⟨8, r.1⟩ (v.raw.slice r.1 r.2))) s1
          s2.modFab fun f => { f with loansServed := f.loansServed + 1 }
      else
        match findSession s1 p.job n with
        | none => s1
        | some x =>
          if !remoteOk s1 p.job (x.dest + off) (min len (x.length - off)) then deny s1
          else serveLoans p.job n (x.loans.length + 1) (putSession s1 { x with loans := x.loans ++ [⟨p.src, off, len⟩] })

/-! ### Fabric pulls (11 R440) -/

/-- Keep at most 16 loans outstanding. -/
def pullMore (peer : Nat) (job : BitVec 32) : Nat → State → State
  | 0, s => s
  | f + 1, s =>
    match s.fab.pulls.find? fun u => u.peer = peer && u.job = job with
    | none => s
    | some u =>
      match u.want with
      | [] => s
      | i :: t =>
        if 16 ≤ u.out.length then s
        else
          let u' := { u with want := t, out := tset u.out i Blob.empty }
          let s1 := s.modFab fun x => { x with pulls := x.pulls.map fun y => if y = u then u' else y }
          pullMore peer job f (sendPacket s1 peer job 0xFFD 8 0xFFFF ⟨12, packFields [(loanBytes * i, 64), (loanBytes, 32)]⟩)

/-- The bytes pulled so far, chunk by chunk; what has not come is zero. -/
def pullBlob (u : Pull) (len : Nat) : Blob :=
  ⟨len, bits (u.chunks.foldl (fun v c => v + c.2.val * 2 ^ (8 * loanBytes * c.1)) 0) 0 (8 * len)⟩

/-- Loaned bytes of a volume join their chunk; the chunk is whole at 64 KiB or at the volume's end. -/
def pullData (s : State) (u : Pull) (off : Nat) (d : Blob) : State :=
  let i := off / loanBytes
  match tget u.out i with
  | none => s
  | some b =>
    if off ≠ loanBytes * i + b.len then s
    else
      let b' := Blob.append b d
      let total := if i = 0 && !u.headed then b'.bits 96 64 else (pullBlob u loanBytes).bits 96 64
      let whole : Bool := b'.len = min loanBytes (total - loanBytes * i)
      let u' := if whole then { u with out := terase u.out i, chunks := tset u.chunks i b' } else { u with out := tset u.out i b' }
      let s1 := s.modFab fun x => { x with
        pulls := x.pulls.map fun y => if y = u then u' else y
        loansTaken := x.loansTaken + (if whole then 1 else 0) }
      if whole then pullMore u.peer u.job 16 s1 else s1

/-- LOAN_DATA (09 R377). -/
def loanData (s : State) (h : Nat) : State :=
  if packetStalls s h 9 (sessionRange s) then s
  else match takePacket s h 9 with
  | none => s
  | some (p, s0) =>
    match acceptPacket s0 p with
    | (s1, false) => s1
    | (s1, true) =>
      let off := p.payload.bits 0 64
      let d := p.payload.slice 8 (p.payload.len - 8)
      let n := p.operand % 65536
      if n = 0xFFFF then
        match s1.fab.pulls.find? fun u => u.peer = p.src && u.job = p.job with
        | some u => pullData s1 u off d
        | none => s1
      else
        match findSession s1 p.job n with
        | none => s1
        | some x =>
          let ends : Bool := x.outstanding.any fun o => o.1 + o.2 = off + d.len
          let s2 := if ends then s1.modFab fun f => { f with loansTaken := f.loansTaken + 1 } else s1
          let x' := { x with outstanding := x.outstanding.filter fun o => o.1 + o.2 ≠ off + d.len }
          borrowMore p.job n 16 (memberWrite (putSession s2 x') x' off d)

/-- The first NOTICE of a code at a link, accepted for a context of its JOB. -/
def takeNotice (s : State) (h code : Nat) : State × Option Pkt :=
  match (s.link h).rx.find? fun e => e.2.kind = 0xB && e.2.hop = e.2.nhops && bits e.2.operand 16 8 = code with
  | none => (s, none)
  | some (vl, p) =>
    let s1 := freeFlits (s.modLink h fun l => { l with rx := l.rx.erase (vl, p) }) h vl p
    if (jobCtx s1 p.job).isNone then (deny s1, none)
    else
      match acceptPacket s1 p with
      | (s2, true) => (s2, some p)
      | (s2, false) => (s2, none)

/-- NOTICE LAGGED: the child borrows what it lacks. -/
def noticeLagged (s : State) (h : Nat) : State :=
  match takeNotice s h 1 with
  | (s1, some p) => startBorrow s1 p.job (p.operand % 65536) (p.payload.bits 0 64)
  | (s1, none) => s1

/-- NOTICE DONE of a child. -/
def noticeDone (s : State) (h : Nat) : State :=
  match takeNotice s h 2 with
  | (s1, some p) =>
    let n := p.operand % 65536
    match findSession s1 p.job n with
    | none => s1
    | some x =>
      tryDone (putSession s1 { x with children := x.children.map fun k => if k.acc = p.src then { k with done := true } else k })
        p.job n
  | (s1, none) => s1

/-- A member borrows what it lacks from the root of its session; which device that is, a session that does not name it leaves
open: a free value. -/
def borrowRoot (s : State) (x : Session) : State :=
  let r : Nat × State := match x.root with
    | some a => (a, s)
    | none => let f := s.free 16; (f.1.toNat, f.2)
  startBorrow (putSession r.2 { x with parent := none, root := some r.1 }) x.job x.number x.got

/-- Members whose parent has become unreachable borrow from the root (09 R377). -/
def orphanSessions (s : State) : State :=
  s.fab.sessions.foldl (fun s x =>
    match x.parent with
    | some a => if (tgetD s.fab.routes a []).isEmpty then borrowRoot s x else s
    | none => s) s

end Sys2Proof.Machine
end

