-- ==== Sys2Proof/Machine/Train.lean ====
section
/-!
DEFINITION. The barriers of a step (08 R296 to R299), the loss monitor (R331, R332), the step verdict (R334, R335), and
the taking effect of UNLOAD (11 R444).
-/

namespace Sys2Proof.Machine

/-! ### The training options (08 Table 8.12) -/

def optLimit (o : Blob) (k : Nat) : Nat := o.bits (32 * k) 32
/-- The policy of source `k`: NONFINITE, SATURATION, POISON, LOSS_SPIKE, LOSS_NONFINITE. -/
def optPolicy (o : Blob) (k : Nat) : Nat := o.bits (96 + 2 * k) 2

/-- The cores of a context that carry a stage. -/
def coresOf (s : State) (c : Nat) : List Nat :=
  (List.range nCores).filter fun n => (s.core n).stage.info.isSome && (s.core n).stage.ctx = c

/-- A stage has reached the end of its step: TPS tensors consumed on port 0, nothing in work and nothing still to be
emitted (08 R295; log entry 33). -/
def atStepEnd (s : State) (n : Nat) : Bool :=
  let c := s.core n
  c.taken ≥ c.stage.tps && (c.inPort 0).hdr.isNone && c.arr.flight.isEmpty && c.arr.snaps.isEmpty &&
    c.out.all fun p => p.2.outs.isEmpty

/-! ### Snapshots and totals (08 R299) -/

/-- Four counters of an endpoint. -/
def EpCtr.snap (k : EpCtr) : EpSnap := ⟨k.saturations, k.nonfinite, k.poisonedWords, k.nanZeroed⟩

/-- The step counts of an endpoint: the differences from its previous snapshot. -/
def EpSnap.since (n o : EpSnap) : EpSnap :=
  ⟨n.saturations - o.saturations, n.nonfinite - o.nonfinite, n.poisonedWords - o.poisonedWords, n.nanZeroed - o.nanZeroed⟩

def EpSnap.add (a b : EpSnap) : EpSnap :=
  ⟨a.saturations + b.saturations, a.nonfinite + b.nonfinite, a.poisonedWords + b.poisonedWords, a.nanZeroed + b.nanZeroed⟩

/-- The endpoints of a PHASE-0 stage are snapshotted; the answer adds their step counts. -/
def snapCore (st : State × EpSnap) (n : Nat) : State × EpSnap :=
  let c := st.1.core n
  let ports := (List.range 8).filter fun q => (boundStream st.1 n q).isSome
  let new (q : Nat) : EpSnap := (tgetD c.ctrs q EpCtr.zero).snap
  let tot := ports.foldl (fun t q => t.add ((new q).since (tgetD c.snaps q EpSnap.zero))) st.2
  (st.1.modCore n fun c => { c with snaps := ports.foldl (fun m q => tset m q (new q)) c.snaps }, tot)

/-- The main output of an intake queue is snapshotted. -/
def snapQueue (st : State × EpSnap) (q : Nat × Nat) : State × EpSnap :=
  let k := st.1.queue q.1 q.2
  let new := (tgetD k.ctrs 0 EpCtr.zero).snap
  (st.1.modQueue q.1 q.2 fun k => { k with snap := new }, st.2.add (new.since k.snap))

/-! ### The monitor (08 R331, R332) -/

/-- What the monitor tests: its core, the step loss and whether the loss came poisoned. -/
def monitorLoss (s : State) (c : Nat) : Option (Nat × F32 × Bool) :=
  (monitorCore s c).bind fun m => ((s.core m).loss.stepLoss).map fun l => (m, l.1, l.2)

/-- LOSS_NONFINITE and LOSS_SPIKE. -/
def monitorFires (p : Blob) (u : LossUnit) (l : F32) (poison : Bool) : Bool × Bool :=
  let bad : Bool := poison || !F32.isFinite l
  let limit := F32.add u.monitorMean (F32.mul (lossSigma p) (F32.sqrt u.monitorVar))
  (bad, !bad && 32 ≤ u.monitorN.toNat && F32.gt l limit)

/-- `absorb` of 08 R332. -/
def absorb (alpha l : F32) (u : LossUnit) : LossUnit :=
  let delta := F32.sub l u.monitorMean
  if u.monitorN.toNat < 32 then
    let n := u.monitorN + 1
    let mean := F32.add u.monitorMean (F32.div delta (F32.ofNat n.toNat))
    let m2 := F32.add u.monitorM2 (F32.mul delta (F32.sub l mean))
    { u with monitorN := n, monitorMean := mean, monitorM2 := m2, monitorVar := F32.div m2 (F32.ofNat n.toNat) }
  else
    let n := if u.monitorN = 0xFFFFFFFF then u.monitorN else u.monitorN + 1
    let var := F32.mul (F32.sub F32.one alpha) (F32.add u.monitorVar (F32.mul alpha (F32.mul delta delta)))
    { u with monitorN := n, monitorMean := F32.add u.monitorMean (F32.mul alpha delta), monitorVar := var }

/-! ### The verdict barrier (08 R296, R334) -/

/-- Every PHASE-0 stage has reached the end of the step, and a monitor has its step loss. -/
def verdictReady (s : State) (c : Nat) : Bool :=
  ((coresOf s c).all fun n => (s.core n).stage.phase = 1 || atStepEnd s n) &&
    match monitorCore s c with
    | some m => (s.core m).loss.stepLoss.isSome
    | none => true

/-- The context runs its step: loaded, its ledger neither recovering nor halted, no teardown due. -/
def stepRuns (s : State) (c : Nat) : Bool :=
  let x := s.ctx c
  x.st = .loaded && x.tear.isNone && (x.led.st = .running || x.led.st = .committing)

/-- VERDICT_BARRIER: counters are snapshotted, the totals formed, the monitor and the watchdogs evaluated, and the leaf
value is the largest policy among the sources that fired. -/
def verdictBarrier (s : State) (c : Nat) : State :=
  let x := s.ctx c
  if !stepRuns s c || x.step.leaf.isSome || !verdictReady s c then s
  else
    let phase0 := (coresOf s c).filter fun n => (s.core n).stage.phase = 0
    let r := (queuesOf s c).foldl snapQueue (phase0.foldl snapCore (s, EpSnap.zero))
    let nf : BitVec 48 := r.2.nonfinite + r.2.nanZeroed
    let (lossBad, spike) : Bool × Bool := match monitorLoss s c with
      | some (m, l, p) => monitorFires (((s.core m).stage.info.map (·.param)).getD Blob.empty) (s.core m).loss l p
      | none => (false, false)
    let above (v : BitVec 48) (k : Nat) : Bool := optLimit x.options k ≠ 0xFFFFFFFF && optLimit x.options k < v.toNat
    let fired := [above nf 0, above r.2.saturations 1, above r.2.poisonedWords 2, spike, lossBad]
    let leaf := (fired.zipIdx).foldl (fun m f => if f.1 then max m (optPolicy x.options f.2) else m) 0
    let s1 := match monitorLoss s c with
      | some (m, l, _) => r.1.modCore m fun k => { k with loss := { k.loss with
          lastLoss := l, lossSpikes := k.loss.lossSpikes + (if spike then 1 else 0) } }
      | none => r.1
    s1.modCtx c fun x => { x with step := { x.step with
      stepNonfinite := nf, stepSaturations := r.2.saturations, stepPoisoned := r.2.poisonedWords
      fired := BitVec.ofNat 5 (packFields (fired.map fun f => (boolNat f, 1))), leaf := some leaf } }

/-- SKIPPED_UPDATES of every UPDATE stage, in each member's block. -/
def countSkipped (s : State) (c : Nat) : State :=
  (coresOf s c).foldl (fun s n =>
    match (s.core n).stage.info with
    | some r => if r.opclass = 6 then modUpd s n fun u => { u with skippedUpdates := u.skippedUpdates + 1 } else s
    | none => s) s

/-- A code is the MAX of a tree that has this leaf: it is no less, and it is the leaf where the job has no other rank
(08 R334). -/
def verdictFits (x : Ctx) (leaf code : Nat) : Bool :=
  code ≤ 2 && leaf ≤ code && (1 < x.led.ranks.length - x.led.dropped.length || code = leaf)

/-- VERDICT_RECEIVED (08 R335). A ROLLBACK is reported to the ledger's coordinator (10 R408). -/
def verdictReceived (s : State) (c code : Nat) : State :=
  let x := s.ctx c
  if !stepRuns s c || x.step.verdict.isSome || !(x.step.leaf.any fun l => verdictFits x l code) then s
  else
    let s1 := s.modCtx c fun x => { x with step := { x.step with
      verdict := some code, verdictLast := BitVec.ofNat 7 (code + 4 * x.step.fired.toNat)
      stepsApplied := x.step.stepsApplied + (if code = 0 then 1 else 0)
      stepsSkipped := x.step.stepsSkipped + (if code = 1 then 1 else 0)
      stepRollbacks := x.step.stepRollbacks + (if code = 2 then 1 else 0) } }
    if code = 0 then
      match monitorLoss s c with
      | some (m, l, _) =>
        if x.step.fired.getLsbD 3 || x.step.fired.getLsbD 4 then s1
        else
          let p := ((s.core m).stage.info.map (·.param)).getD Blob.empty
          s1.modCore m fun k => { k with loss := absorb (lossAlpha p) l k.loss }
      | none => s1
    else if code = 1 then countSkipped s1 c
    else report s1 c 2 0 1

/-! ### The end of a step (08 R296 to R298) -/

/-- No word of a stream waits for a consumer of a kind. -/
def streamEmpty (s : State) (c i kind : Nat) (r : StreamRec) : Bool :=
  let t := s.stream c i
  waiting t = 0 && (r.consumers.zipIdx).all fun k => epKind k.1 ≠ kind || (t.buf k.2).unread.isEmpty && (t.buf k.2).esc.isEmpty

/-- Nothing is under way in a node. -/
def TreeNode.idle (t : TreeNode) : Bool :=
  t.out.outs.isEmpty && t.kids.all fun k => k.2.hdrs.isEmpty && k.2.vals.isEmpty && k.2.cur.isNone

/-- Every WRITE endpoint has written the step's tensors: no word waits in a stream for a memory endpoint, nor, where a tree
root feeds one, in the trees and on their way into them. -/
def writesDone (s : State) (c : Nat) : Bool :=
  match (s.ctx c).image with
  | none => true
  | some im =>
    let writes (r : StreamRec) : Bool := r.consumers.any fun k => epKind k = 4
    let fromTree := im.streams.any fun r => writes r && epKind r.producer = 3
    ((im.streams.zipIdx).all fun e =>
      (!writes e.1 || streamEmpty s c e.2 4 e.1) &&
        (!fromTree || !(e.1.consumers.any fun k => epKind k = 2) || streamEmpty s c e.2 2 e.1)) &&
      (!fromTree || (s.ctx c).nodes.all fun n => n.2.idle)

/-- Every UPDATE stage has come to the end of its layers. -/
def updatesDone (s : State) (c : Nat) : Bool :=
  (coresOf s c).all fun n => match (s.core n).stage.info with
    | some r => r.opclass ≠ 6 || updNlayers r.param ≤ (s.core n).upd.layer
    | none => true

/-- What a new step begins with on a core. -/
def Core.newStep (c : Core) : Core :=
  { c with
    taken := 0, takes := [], dropNext := 0
    out := c.out.map fun p => (p.1, { p.2 with draws := 0, stepNo := 0 })
    upd := { c.upd with layer := 0 }
    loss := { c.loss with stepLoss := none } }

/-- What a new step begins with in a context. -/
def newStep (s : State) (c : Nat) : State :=
  let s1 := (coresOf s c).foldl (fun s n => s.modCore n Core.newStep) s
  let s2 := (queuesOf s c).foldl (fun s q => s.modQueue q.1 q.2 fun k => { k with
    outs := k.outs.map fun p => (p.1, { p.2 with draws := 0 }) }) s1
  s2.modCtx c fun x => { x with
    taps := [], step := { x.step with leaf := none, verdict := none, fired := 0 }
    nodes := x.nodes.map fun n => (n.1, { n.2 with
      out := { n.2.out with draws := 0 } }) }

/-- A core without its stage: its counters stand until the next load or teardown. -/
def Core.unloaded (c : Core) : Core :=
  { c with
    stage := { c.stage with
      st := .empty, wedged := false, info := none, passes := [], pfs := [], stripeFirst := [], staging := []
      seq := Sequencer.start, rowDone := 0 }
    arr := { c.arr with mode := .off, banks := [], loading := [], groups := [], flight := [], held := none, snaps := [] }
    win := { c.win with cur := none, lines := [], pool := [], poolPoison := [], poolTaken := 0, decoded := [], cands := [] }
    inp := [], out := [], taken := 0, takes := [], vecPos := 0, leafSkips := [] }

/-- UNLOAD takes effect (11 R444): every stage stops, the queues close, and the context enters IDLE, where a pending
rebinding may take effect (01 R36). -/
def unloadNow (s : State) (c : Nat) : State :=
  let x := s.ctx c
  let s1 := (coresOf s c).foldl (fun s n => s.modCore n Core.unloaded) s
  let s2 := closeQueues s1 c false
  let s3 := (shelvesOf x.mask).foldl (fun s sh => s.modShelf sh fun y => { y with
    pf := [], pfReqs := [], reports := [], confirming := none }) s2
  let s4 := s3.modCtx c fun x => { x with
    st := .idle, unload := false, entry := none, image := none, streams := [], nodes := []
    led := { x.led with st := .none, commit := none, waiting := none } }
  (shelvesOf x.mask).foldl rebindShelf s4

/-- The root holds the completion of a commit boundary's barrier for a spare that it can reach and that has not yet the
state of the rank that rejoins (10 R422). -/
def joinHolds (s : State) (c : Nat) : Bool :=
  match (s.ctx c).led.joining with
  | some (_, a) => !(s.ctx c).led.joinReady && !(tgetD s.fab.routes a []).isEmpty
  | none => false

/-- A dropped rank rejoins at this boundary: the coordinator sends JOIN to every rank (10 R422). A spare that is gone is given
up. -/
def joinAtBoundary (s : State) (c step : Nat) : State :=
  match (s.ctx c).led.joining with
  | none => s
  | some (r, a) =>
    if !(s.ctx c).led.joinReady then s.modLed c fun l => { l with joining := none }
    else
    let k : Ctrl := { typ := 0xB, seq := 0, src := 0, rank := r, acc := a, step := step }
    let s1 := s.modLed c fun l => { l with joining := none }
    let s2 := (List.range (s1.ctx c).led.ranks.length).foldl (fun s q =>
      if q = r || (s.ctx c).led.dropped.contains q then s else sendCtrl s c q k) s1
    sendCtrlTo s2 c a { k with seq := (s2.ctx c).led.seq, src := (s2.ctx c).rank.toNat }

/-- END_OF_STEP_BARRIER: JOB_STEP advances, the next step's inputs are released, a commit point may be reached, and a
pending UNLOAD takes effect. -/
def endOfStepBarrier (s : State) (c : Nat) : State :=
  let x := s.ctx c
  let applied : Bool := match x.step.verdict with | some v => v ≤ 1 | none => false
  if !stepRuns s c || !applied || !((coresOf s c).all (atStepEnd s)) || !writesDone s c || !updatesDone s c then s
  else
    let n := x.step.jobStep + 1
    let due : Bool := planN x.plan ≠ 0 && n.toNat % planN x.plan = 0
    if due && joinHolds s c then s
    else
    let s1 := newStep (s.modCtx c fun x => { x with step := { x.step with jobStep := n } }) c
    let s2 := if due then joinAtBoundary (commitPoint s1 c n.toNat) c n.toNat else s1
    if x.unload then unloadNow s2 c else s2

end Sys2Proof.Machine
end

