-- ==== Sys2Proof/Machine/Load.lean ====
section
/-!
DEFINITION. Loading an image into a context (11 R444, R445; 05 R196, R197, R205): the volume's sections, the stages,
shelves and queues that a load sets up, and the moment at which every stage is READY.
-/

namespace Sys2Proof.Machine

/-- What a context's image is loaded with. -/
def loadInput (s : State) (c image : Nat) (stripes : Tbl (List Nat)) (restoring : Bool) : LoadIn :=
  let v := (volumeOf s (s.ctx c).job).getD ⟨0, [], 0, 0, 0, none, Blob.empty, 0⟩
  ⟨v.ofImage 2 image, v.ofImage 3 image, v.jobWide 4, v.ofImage 8 image, v.ofImage 10 image, v.jobWide 7, stripes,
   restoring⟩

/-! ### Stages (05 R197, R205) -/

/-- A stage as it stands after a load or a resume: its first staging area is filled with pass 0, or it is READY at
once where it uses no pass descriptors (05 R196, R197). -/
def freshStage (u : StageUnit) : StageUnit :=
  let fills : Bool := u.passes ≠ []
  { u with
    st := if fills then .config else .ready
    wedged := false, staging := if fills then [(0, ⟨0, 0, [], F32.one, 0, false⟩)] else []
    seq := Sequencer.start, passNow := 0, area := false, rowDone := 0, outFullRun := 0, turn := 0 }

/-- The EXPECT_T of a stage's layers: T_C of the ledger before a restore, else T of the shard on member 0
(08 R316). -/
def loadedT (s : State) (c : Nat) (im : Image) (r : StageRec) (restoring : Bool) : Tbl (BitVec 32) :=
  ((layersOf r).zipIdx).map fun p =>
    (p.2, if restoring then tgetD (s.ctx c).tC p.1.layer 0
      else
        let lead := ((im.stages.find? fun q => q.opclass = 6 && q.stage = r.stage && q.member = 0).getD r)
        BitVec.ofNat 32 (bits (s.mem.mem.word ((LayerEnt.parse lead.param p.2).shard / 128)).toNat 0 32))

/-- The UPDATE stage that stream `i` of an image leads to by trees and over the fabric, as far as the peers' images are the own
one, which `same` says of a rank. -/
def leadsTo (im : Image) (same : Nat → Bool) : Nat → Nat → Option StageRec
  | 0, _ => none
  | f + 1, i =>
    (im.streams[i]?).bind fun t => t.consumers.findSome? fun e =>
      match epKind e with
      | 0 => if epPort e = 0 then (imStage im (epLcore e)).bind fun r => if r.opclass = 6 then some r else none else none
      | 2 => (im.streams.findIdx? fun u => epKind u.producer = 3 && epNode u.producer = imRoot im 16 (epNode e)).bind
          (leadsTo im same f)
      | 6 => if same (epLrank e) then leadsTo im same f (epPeerStream e) else none
      | _ => none

/-- The places in a step of the tensors that an output discards as the leaf of a frozen layer (08 R320): the port carries one
tensor for each layer, in entry order. -/
def leafSkipsOf (m : Mem) (o : Blob) (im : Image) (same : Nat → Bool) (r : StageRec) : Tbl (List Nat) :=
  if optReduceFrozen o then []
  else
    (List.range 4).filterMap fun p =>
      (imBound im r (4 + p)).bind fun t => (leadsTo im same 8 t.1).map fun u =>
        (p, ((layersOf u).zipIdx).filterMap fun e => if (coefEntry m o e.1.layer).bits 0 1 = 1 then some e.2 else none)

/-- The core that carries stage record `i` of an image, every counter cleared (02 R101, 03 R140, 04 R171, 05 R209,
08 R337). -/
def loadedCore (s : State) (c : Nat) (L : LoadIn) (im : Image) (i : Nat) (r : StageRec) : Core :=
  let ps := stagePasses im r
  let coefs := if r.opclass = 6 then (layersOf r).map fun e => (e.layer, coefEntry s.mem.mem L.options e.layer) else []
  { Core.cleared with
    leafSkips := leafSkipsOf s.mem.mem L.options im (sameImage s c) r
    arr := { ArrayUnit.cleared with mode := modeOf r.mode, arraysUsed := r.arrays }
    stage := freshStage { StageUnit.cleared with
      ctx := c, info := some r, passes := ps, pfs := ps.map fun p => readPf s.mem.mem p.wdesc
      stripeFirst := if r.isWindow then tgetD L.stripes r.stage [] else []
      tps := L.plan.bits (64 * i) 16, phase := L.plan.bits (64 * i + 16) 1 }
    upd := { UpdateUnit.cleared with
      tables := ⟨coefs.foldl (fun t e => tset t e.1 e.2) [],
        coefs.foldl (fun t e => tset t (coefSched e.2) (schedEntry s.mem.mem L.options (coefSched e.2))) []⟩
      expectT := if r.opclass = 6 then loadedT s c im r L.restoring else [] } }

/-- The endpoint descriptors that the engine of image shelf `k` holds, by index. -/
def loadedPf (s : State) (c : Nat) (L : LoadIn) (im : Image) (k : Nat) : Tbl PfHeld :=
  let held (d : Nat) : PfDesc := readPf s.mem.mem (pfBaseOf L.memplan k + 32 * d)
  -- a WRITE that only a LINK names is held, and serves no stream
  let linked := (endRefs s.mem.mem im L.memplan k).foldl
    (fun t d => tset t d ({ desc := held d, ctx := c, stream := im.streams.length } : PfHeld)) []
  (imEnds im).foldl (fun t e =>
    if epKind e.1 = 4 && epEngine e.1 = k then
      tset t (epDesc e.1) { desc := held (epDesc e.1), ctx := c, stream := e.2.2.1 }
    else t) linked

/-- A shelf as a load leaves it (05 R215, 06 Table 6.10, 15 R556). -/
def loadShelf (s : State) (c : Nat) (L : LoadIn) (im : Image) (k sh : Nat) : State :=
  let pf := loadedPf s c L im k
  s.modShelf sh fun x => { x with
    escapeSize := BitVec.ofNat 16 (im.escape.getD k 0), escapes := 0, cancels := 0, reports := [], confirming := none
    pfBase := BitVec.ofNat 44 (pfBaseOf L.memplan k), pf := pf
    pfCount := BitVec.ofNat 11 (pfRefs s.mem.mem im L.memplan k).length
    pfRead := 0, pfWritten := 0, pfReqs := [], pfFill := false, pfCore := 0, pfEnd := 0
    check := { x.check with live := [], saved := [] } }

/-- The tree roots of an image, each with its endpoint's scale descriptor (03 R133). -/
def rootNodes (img : Blob) (im : Image) : Tbl TreeNode :=
  (im.trees.filter fun t => epKind t.out = 3).foldl
    (fun m t => tset m t.node { TreeNode.empty with desc := rootScale img t.node }) []

/-- The image of a context is placed: stages, shelves, streams and queues. The queues of a context that is being restored
open on RESUME (10 R414). -/
def placeImage (s : State) (c : Nat) (L : LoadIn) : State :=
  let im := parseImage L.img
  let x := s.ctx c
  let s1 := (im.stages.zipIdx).foldl (fun t p => match lcoreOf x p.1.lcore with
    | some n => t.setCore n (loadedCore s c L im p.2 p.1)
    | none => t) s
  let s2 := (((shelvesOf x.mask).take im.shelves).zipIdx).foldl (fun s p => loadShelf s c L im p.2 p.1) s1
  let s3 := s2.modCtx c fun x => { x with
    image := some im, streams := [], nodes := rootNodes L.img im, taps := [], options := L.options, loader := L.loader, loading := true
    unload := false
    led := { x.led with stripes := L.stripes } }
  if L.restoring then s3
  else (namedQueues im).foldl (fun s n => match queueFor im L.queues n with
    | some d => openQueue s c (n / 256) (n % 256) d
    | none => s) s3

/-- No stage of a context waits for its first fill. -/
def allReady (s : State) (c : Nat) : Bool := (coresOf s c).all fun n => (s.core n).stage.st ≠ .config

/-- The EVENT code of a context event (11 Table 11.8). -/
def CtxEvent.code : CtxEvent → Nat
  | .none => 0 | .faulted => 1 | .recovering => 2 | .resumed => 3 | .halted => 4 | .bound => 5 | .destroyed => 6

/-! ### Taken slips -/

def Taken.op (t : Taken) : Nat := bits t.slip.toNat 32 8
def Taken.ctx (t : Taken) : Nat := bits t.slip.toNat 40 4
/-- ARG0 to ARG2 of 11 Table 11.3. -/
def Taken.arg (t : Taken) (k : Nat) : Nat := bits t.slip.toNat (64 + 64 * k) 64

def State.modTaken (s : State) (f : Taken → Taken) : State :=
  { s with host := { s.host with taken := s.host.taken.map f } }

/-- An event of a context (11 R449, Table 11.8): LAST_EVENT, its vector, and every WAIT that is pending on it ends. -/
def ctxEvent (s : State) (c : Nat) (e : CtxEvent) (step : BitVec 32) : State :=
  let s1 := raiseVector (s.modCtx c fun x => { x with lastEvent := e }) (16 + c)
  s1.modTaken fun t =>
    if t.result.isNone && t.op = 0x0A && t.ctx = c then
      { t with result := some (.done (BitVec.ofNat 64 e.code) (step.setWidth 64) 0) }
    else t

/-- Once every stage is READY the context is LOADED (11 R444): the ledger runs and takes the starting commit of the job,
or, before a restore, a standby context is BOUND. The start-of-stream checks go out. -/
def settleLoad (s : State) (c : Nat) : State :=
  let x := s.ctx c
  if !x.loading || !allReady s c || x.tear.isSome then s
  else
    let s1 := s.modCtx c fun x => { x with loading := false, st := .loaded }
    if x.led.restoring then
      if x.standby then ctxEvent (s1.modCtx c fun x => { x with standby := false }) c .bound x.led.lastSealed else s1
    else
      let s2 := sendChecks (s1.modLed c fun l => { l with st := .running }) c
      commitPoint s2 c x.step.jobStep.toNat

/-- Every load that can settle does. -/
def settleLoads (s : State) : State := (List.range nCtx).foldl settleLoad s

end Sys2Proof.Machine
end

