-- ==== Sys2Proof/Machine/Volume.lean ====
section
/-!
DEFINITION. Job volumes and the catalogue (11 R437 to R440, R450 to R453; 14 R535 to R540): the checks of a volume, what
a device keeps of it, residency, weeding, and the slips UPLOAD, PULL, PIN, UNPIN and WEED.
-/

namespace Sys2Proof.Machine

/-! ### Taken slips that run (11 R434) -/

/-- HOST_STATUS BUSY (12 R466). -/
def busy (s : State) : Bool := s.host.busy

def findTaken (s : State) (ring : Nat) (seq : BitVec 32) : Option Taken :=
  s.host.taken.find? fun t => t.ring = ring && t.seq = seq && t.result.isNone

/-- A slip gets its result. -/
def endWith (s : State) (t : Taken) (r : SlipResult) : State :=
  s.modTaken fun u => if u.number = t.number && u.result.isNone then { u with result := some r } else u

def refuse (s : State) (t : Taken) (n : RefName) : State := endWith s t (.refused n)

def startSlip (s : State) (t : Taken) : State :=
  s.modTaken fun u => if u.number = t.number then { u with running := true } else u

/-- The slips taken before one. -/
def earlier (s : State) (t : Taken) : List Taken := s.host.taken.takeWhile fun u => u.number ≠ t.number

/-- An operation of Table 11.5 that names a context and runs in order with others on it: all but WAIT, which R449 lets
several hold at once. -/
def Taken.ordered (t : Taken) : Bool := (3 ≤ t.op && t.op ≤ 6) || t.op = 0xB

/-- A slip of operation `op` that may run now (11 R434, R456). -/
def slipReady (s : State) (ring : Nat) (seq : BitVec 32) (op : Nat) : Option Taken :=
  match findTaken s ring seq with
  | none => none
  | some t =>
    let x := s.ctx t.ctx
    let before := (earlier s t).filter fun u => u.result.isNone
    let clash : Bool := t.ordered && before.any fun u => u.ordered && u.ctx = t.ctx
    let settles : Bool := t.ordered && !t.running &&
      (x.st = .creating || (x.st = .teardown && op ≠ 6) || (x.loading && op ≠ 6) || (x.tear.isSome && op ≠ 6))
    let job : Nat := if op = 3 then t.arg 0 % 2 ^ 32 else x.job.toNat
    let volumeComes : Bool := (op = 3 || op = 4) && before.any fun u =>
      u.op = 1 || (u.op = 2 && u.arg 1 % 2 ^ 32 = job)
    -- a RELEASE that waits holds the UPLOADs and PULLs taken after it (14 R530, R549)
    let released : Bool := (op = 1 || op = 2) && match s.sec.release with | some (_, m) => m ≤ t.number | none => false
    if t.op ≠ op || t.result.isSome || busy s || clash || settles || volumeComes || released then none else some t

/-! ### Fields of a volume (11 Tables 11.6, 11.7; 14 Tables 14.1, 14.7, 14.8) -/

def volJob (b : Blob) : BitVec 32 := BitVec.ofNat 32 (b.bits 64 32)
def volBytes (b : Blob) : Nat := b.bits 96 64
def volSections (b : Blob) : Nat := b.bits 160 16
def volImages (b : Blob) : Nat := b.bits 176 16
def volKeys (b : Blob) : Nat := b.bits 192 16
def volBody (b : Blob) : Nat := 64 + 128 * volKeys b
def volBodyBytes (b : Blob) : Nat := b.bits 256 64
/-- A field of the colophon that closes the volume. -/
def volColophon (b : Blob) (lo w : Nat) : Nat := b.bits (8 * (volBody b + volBodyBytes b) + lo) w
def volDigest (b : Blob) : BitVec 256 := BitVec.ofNat 256 (volColophon b 192 256)
def volSerials (b : Blob) : List Nat := (List.range (volKeys b)).map fun i => b.bits (8 * (64 + 128 * i)) 64

def secBits (b : Blob) (i lo w : Nat) : Nat := b.bits (8 * (volBody b + 64 * i) + lo) w
def secType (b : Blob) (i : Nat) : Nat := secBits b i 0 8
def secConst (b : Blob) (i : Nat) : Bool := secBits b i 8 1 = 1
def secImage (b : Blob) (i : Nat) : Nat := secBits b i 16 16
def secOff (b : Blob) (i : Nat) : Nat := secBits b i 32 64
def secBytes (b : Blob) (i : Nat) : Nat := secBits b i 96 64
def secAddr (b : Blob) (i : Nat) : Nat := secBits b i 160 44
def secData (b : Blob) (i : Nat) : Blob := b.slice (volBody b + secOff b i) (secBytes b i)

def rising : List Nat → Bool
  | a :: b :: t => a < b && rising (b :: t)
  | _ => true

/-- Check 1 of 14 R538: fields, layout and the order of the key list. -/
def layoutBad (b : Blob) : Bool :=
  b.bits 0 32 ≠ 0x4A56514F || b.bits 32 16 ≠ 1 || volJob b = 0 || volSections b = 0 ||
    volImages b = 0 || 16384 < volImages b || volKeys b = 0 || volBodyBytes b % 16 ≠ 0 || b.bits 320 8 ≠ 1 ||
    volBytes b ≠ volBody b + volBodyBytes b + 152 || b.len ≠ volBytes b ||
    volColophon b 128 64 ≠ volBody b + 64 * volSections b || !rising (volSerials b)

/-- The bytes that the colophon covers: header, key list and the ciphertext of the section table (14 R535). -/
def volCovered (b : Blob) : Blob := b.slice 0 (volBody b + 64 * volSections b)

/-- The wrap entry of the device, and the volume key that it gives (14 R536, R540). -/
def volEntry (s : State) (b : Blob) : Option Nat := (volSerials b).findIdx? (· = ownSerial s)
def vkOf (s : State) (b : Blob) : Option (BitVec 128) :=
  (volEntry s b).bind fun i => unwrapVk s.sec.identity.toNat (ownSerial s) (b.slice 0 64) (b.slice (64 + 128 * i) 128)

/-- The volume with its body decrypted (14 R537). -/
def volPlain (vk : BitVec 128) (b : Blob) : Blob :=
  Blob.append (Blob.append (b.slice 0 (volBody b)) (bodyCtr vk 0 (b.slice (volBody b) (volBodyBytes b))))
    (b.slice (volBody b + volBodyBytes b) 152)

/-- Checks 1 to 4 of 14 R538; `sigOk` is the outcome of the signature of R539. -/
def openRefusal (s : State) (b : Blob) (sigOk : Bool) : Option RefName :=
  if layoutBad b then some .volumeFormat
  else if (ownerKey s).isNone || volColophon b 0 8 ≠ 2 || volColophon b 448 256 ≠ (ownerDigest s).toNat then
    some .volumeOwner
  else if !sigOk || volColophon b 8 8 ≠ 9 || volColophon b 64 64 ≠ 0 || volDigest b ≠ sm3 (volCovered b) then
    some .volumeSignature
  else if (vkOf s b).isNone then some .volumeKey
  else none

def perImage (typ : Nat) : Bool := typ = 2 || typ = 3 || typ = 8 || typ = 9 || typ = 0xA

/-- The image index of a rank of the volume, and the device's own image. -/
def volSection (b : Blob) (typ image : Nat) : Option Nat :=
  (List.range (volSections b)).find? fun i => secType b i = typ && (image = 0xFFFF || secImage b i = image)
def volRanks (b : Blob) : List Nat :=
  match volSection b 6 0xFFFF with
  | some i => (List.range (secBytes b i / 2)).map fun k => (secData b i).bits (16 * k) 16
  | none => []
def volImageOf (b : Blob) (rank : Nat) : Nat :=
  match volSection b 1 0xFFFF with
  | some i => (secData b i).bits (16 * rank) 16
  | none => 0
def volOwnImage (s : State) (b : Blob) : Option Nat := ((volRanks b).findIdx? (· = s.fab.acc)).map (volImageOf b)

/-- A device keeps a section (11 R439). -/
def keeps (b : Blob) (own : Option Nat) (i : Nat) : Bool :=
  secType b i ≠ 9 || secConst b i || own = some (secImage b i)

/-- Check 5 of 14 R538: 11 R438 beyond the header. `some`: only the sections that this device keeps are here. -/
def sectionsBad (b : Blob) (have' : Nat → Bool) : Bool :=
  let is := List.range (volSections b)
  let images := List.range (volImages b) ++ (List.range (volRanks b).length).map (volImageOf b)
  (is.any fun i =>
    let t := secType b i
    t = 0 || 0xA < t || (perImage t && secImage b i = 0xFFFF) || (!perImage t && secImage b i ≠ 0xFFFF) ||
      volBodyBytes b < secOff b i + secBytes b i) ||
    !spansApart (is.map fun i => (secOff b i, secBytes b i)) ||
    ([1, 4, 5, 6, 7].any fun t => (is.filter fun i => secType b i = t).length ≠ 1) ||
    (images.eraseDups.any fun k => [2, 3, 0xA].any fun t => (volSection b t k).isNone) ||
    is.any fun i => have' i && secBits b i 256 256 ≠ (sm3 (secData b i)).toNat

/-! ### The catalogue (11 R450, R451) -/

/-- MiB of the volume store: the system region less 1 GiB. -/
def storeMib (s : State) : Nat := 1024 * s.power.systemGib - 1024
def storeUsed (s : State) : Nat := (s.host.volumes.map (·.mib)).sum

/-- An entry is in use: a context has it loaded, or is, or will be, creating from it. -/
def entryInUse (s : State) (e : Nat) : Bool :=
  (List.range nCtx).any fun c =>
    let x := s.ctx c
    x.entry = some e && (x.st = .creating || x.st = .loaded || x.st = .teardown || x.loading || x.led.st ≠ .none)

def State.modHost (s : State) (f : HostLink → HostLink) : State := { s with host := f s.host }

/-- A volume to which no entry and no context refers leaves the store, and its keys leave their slots. -/
def dropVolume (s : State) (job : BitVec 32) : State :=
  let held : Bool := (s.host.cat.any fun e => e.2.job = job) || (ledgerCtx s job).isSome
  if held then s
  else [KeyId.volume job, .sample job, .exported job].foldl destroyKey
    (s.modHost fun h => { h with volumes := h.volumes.filter fun v => v.job ≠ job })

/-- One entry is weeded. -/
def weedEntry (s : State) (e : Nat) : State :=
  match tget s.host.cat e with
  | none => s
  | some x => dropVolume (s.modHost fun h => { h with cat := terase h.cat e, weedings := h.weedings + 1 }) x.job

/-- The unpinned entry not in use of lowest stamp. -/
def weedable (s : State) : Option Nat :=
  ((s.host.cat.filter fun e => !e.2.pinned && !entryInUse s e.1).foldl (fun (m : Option (Nat × Nat)) e =>
    match m with
    | some (_, v) => if e.2.stamp.toNat < v then some (e.1, e.2.stamp.toNat) else m
    | none => some (e.1, e.2.stamp.toNat)) none).map (·.1)

/-- Weeding until a need is met; `none` where nothing weedable remains. -/
def weedUntil (met : State → Bool) : Nat → State → Option State
  | 0, s => if met s then some s else none
  | n + 1, s =>
    if met s then some s
    else
      match weedable s with
      | some e => weedUntil met n (weedEntry s e)
      | none => none

/-- The next use stamp. -/
def useStamp (s : State) : BitVec 64 × State :=
  (s.host.useCount + 1, s.modHost fun h => { h with useCount := h.useCount + 1 })

def entryOf (s : State) (job : BitVec 32) (image : Nat) : Option Nat :=
  (s.host.cat.find? fun e => e.2.job = job && e.2.image = image).map (·.1)

/-- A stamp for an entry. -/
def stampEntry (s : State) (e : Nat) : State :=
  let (v, s1) := useStamp s
  match tget s1.host.cat e with
  | some x => s1.modHost fun h => { h with cat := tset h.cat e { x with stamp := v } }
  | none => s1

/-- The entry of the device's own image is made, or found; `none` where the catalogue is full. -/
def ensureEntry (s : State) (job : BitVec 32) (image : Nat) : Option (Nat × State) :=
  match entryOf s job image with
  | some e => some (e, stampEntry s e)
  | none =>
    (weedUntil (fun s => s.host.cat.length < 64) 65 s).bind fun s1 =>
      ((List.range 64).find? fun e => (tget s1.host.cat e).isNone).map fun e =>
        (e, stampEntry (s1.modHost fun h => { h with cat := tset h.cat e ⟨job, image, false, 0⟩ }) e)

/-- The result of UPLOAD and PULL (11 Table 11.5). -/
def volumeResult (job : BitVec 32) (entry : Option Nat) (new : Bool) : SlipResult :=
  .done (job.setWidth 64)
    (BitVec.ofNat 64 (match entry with | some e => e + 128 | none => 0) ||| (if new then 0x40#64 else 0)) 0

/-- The entry of a resident volume's own image, if it has one, and the slip ends DONE. -/
def finishVolume (s : State) (t : Taken) (job : BitVec 32) (own : Option Nat) (new : Bool) : State :=
  match own with
  | none => endWith (useStamp s).2 t (volumeResult job none new)
  | some k =>
    match ensureEntry s job k with
    | some (e, s1) => endWith s1 t (volumeResult job (some e) new)
    | none => refuse s t .catalogueFull

/-- The sections that a device keeps of a volume, as the loader decrypts them, and its bytes as they came, which it can lend
(14 R540). `p` is the volume with its body decrypted. -/
def keptVolume (vk : BitVec 128) (b p : Blob) (own : Option Nat) : Volume :=
  let is := (List.range (volSections p)).filter (keeps p own)
  let gone := (List.range (volSections p)).filter fun i => !keeps p own i
  let bytes := volBytes b - (gone.map (secBytes p)).sum
  { job := volJob b, digest := volDigest b, ownImage := own, bytes := bytes, mib := (bytes + 2 ^ 20 - 1) / 2 ^ 20
    sections := is.map fun i => ⟨secType p i, secConst p i, secImage p i, secAddr p i, secData p i⟩
    vk := vk
    raw := ⟨b.len, gone.foldl (fun v i => v - (b.slice (volBody b + secOff p i) (secBytes p i)).val * 2 ^ (8 * (volBody b + secOff p i))) b.val⟩ }

/-- Room in the store for a number of MiB, by weeding (R451). -/
def makeRoom (s : State) (mib : Nat) : Option State := weedUntil (fun s => storeUsed s + mib ≤ storeMib s) 65 s

/-- A volume is kept in the store in place of any other of its job. -/
def keepVolume (s : State) (v : Volume) : State :=
  s.modHost fun h => { h with volumes := (h.volumes.filter fun u => u.job ≠ v.job) ++ [v] }

/-- A volume whose slip has been refused after all does not stay. -/
def undoRefused (s : State) (t : Taken) (job : BitVec 32) : State :=
  match (s.host.taken.find? fun u => u.number = t.number).bind (·.result) with
  | some (.refused _) => dropVolume s job
  | _ => s

/-- A volume that is not resident: check 5, room in the store, and its entry. -/
def addVolume (s : State) (t : Taken) (b : Blob) (have' : Nat → Bool) (own : Option Nat) (v : Volume) : State :=
  if sectionsBad b have' then
    refuse (s.modSec fun x => { x with volumeRefusals := x.volumeRefusals + 1 }) t .volumeFormat
  else
    match makeRoom s v.mib with
    | none => refuse s t .catalogueSpace
    | some s1 => undoRefused (finishVolume (keepVolume s1 v) t v.job own true) t v.job

/-- A volume of a job gives way to another: its entries are weeded. -/
def replaceVolume (s : State) (job : BitVec 32) : State :=
  ((s.host.cat.filter fun e => e.2.job = job).foldl (fun s e => weedEntry s e.1) s).modHost fun h =>
    { h with volumes := h.volumes.filter fun u => u.job ≠ job }

/-- A volume whose header and signature have passed: one already resident is not copied, one with another digest
replaces it where no context holds it (11 R453), and a new one takes room in the store (R451). -/
def admitVolume (s : State) (t : Taken) (b : Blob) (vk : BitVec 128) (have' : Blob → Nat → Bool) : State :=
  let p := volPlain vk b
  match volumeOf s (volJob b) with
  | none => addVolume s t p (have' p) (volOwnImage s p) (keptVolume vk b p (volOwnImage s p))
  | some u =>
    if u.digest = volDigest b then finishVolume s t (volJob b) u.ownImage false
    else if (ledgerCtx s (volJob b)).isSome then refuse s t .volumeConflict
    else addVolume (replaceVolume s (volJob b)) t p (have' p) (volOwnImage s p) (keptVolume vk b p (volOwnImage s p))

/-- Checks 1 to 4, with their counts, and then the volume. -/
def takeVolume (s : State) (t : Taken) (b : Blob) (sigOk : Bool) (have' : Blob → Nat → Bool) : State :=
  match openRefusal s b sigOk with
  | some n =>
    refuse (s.modSec fun x => { x with
      volumeRefusals := x.volumeRefusals + 1
      colophonFailures := x.colophonFailures + (if n = .volumeSignature then 1 else 0) }) t n
  | none => admitVolume (wantKey (wantKey s .identity) (.volume (volJob b))) t b ((vkOf s b).getD 0) have'

/-- UPLOAD (11 R439). -/
def upload (s : State) (ring : Nat) (seq : BitVec 32) (b : Blob) (dmaOk sigOk : Bool) : State :=
  match slipReady s ring seq 1 with
  | none => s
  | some t =>
    if !dmaOk then refuse s t .hostDma
    else takeVolume s t ⟨t.arg 1, bits b.val 0 (8 * t.arg 1)⟩ sigOk fun _ _ => true

/-! ### PULL (11 R440) -/

def findPull (s : State) (peer : Nat) (job : BitVec 32) : Option Pull :=
  s.fab.pulls.find? fun u => u.peer = peer && u.job = job

/-- The chunks of 64 KiB that hold `[off, off + n)`. -/
def chunksOf (off n : Nat) : List Nat :=
  if n = 0 then [] else (List.range ((off + n - 1) / loanBytes - off / loanBytes + 1)).map fun i => off / loanBytes + i

/-- What a puller needs first: the header, the key list, the section table and the colophon. -/
def headChunks (b : Blob) : List Nat :=
  chunksOf 0 (volBody b + 64 * volSections b) ++ chunksOf (volBody b + volBodyBytes b) 152

/-- Every chunk of a list has come. -/
def pullHas (u : Pull) (l : List Nat) : Bool := l.all fun i => (tget u.chunks i).isSome

/-- More chunks are asked for. -/
def askChunks (s : State) (u : Pull) (l : List Nat) (headed : Bool) : State :=
  let new := (l.eraseDups.filter fun i => (tget u.chunks i).isNone && (tget u.out i).isNone && !u.want.contains i)
  pullMore u.peer u.job 16 (s.modFab fun x => { x with
    pulls := x.pulls.map fun y => if y.peer = u.peer && y.job = u.job then { y with want := y.want ++ new, headed := headed } else y })

def dropPull (s : State) (peer : Nat) (job : BitVec 32) : State :=
  s.modFab fun x => { x with pulls := x.pulls.filter fun u => !(u.peer = peer && u.job = job) }

/-- The chunks of the sections that the device keeps, by the section table as the volume key opens it. -/
def sectionChunks (s : State) (b : Blob) : List Nat :=
  let p := volPlain ((vkOf s b).getD 0) b
  (List.range (volSections p)).flatMap fun i =>
    if keeps p (volOwnImage s p) i then chunksOf (volBody p + secOff p i) (secBytes p i) else []

/-- PULL: the first chunk is asked for; then the rest of the header parts; then, once these pass checks 1 to 4, the
sections that the device keeps; then the volume is taken. -/
def pull (s : State) (ring : Nat) (seq : BitVec 32) (sigOk : Bool) : State :=
  match slipReady s ring seq 2 with
  | none => s
  | some t =>
    let peer := t.arg 0 % 65536
    let job := BitVec.ofNat 32 (t.arg 1)
    match findPull s peer job with
    | none =>
      pullMore peer job 16 ((startSlip s t).modFab fun x => { x with pulls := x.pulls ++ [⟨peer, job, [0], [], [], false⟩] })
    | some u =>
      if !pullHas u [0] then s
      else
        let b := pullBlob u (volBytes (pullBlob u loanBytes))
        if !u.headed then
          if !pullHas u (headChunks b) then askChunks s u (headChunks b) false
          else
            match openRefusal s b sigOk with
            | some _ => takeVolume (dropPull s peer job) t b sigOk fun _ _ => false
            | none =>
              if (volumeOf s job).any (fun v => v.digest = volDigest b) then
                takeVolume (dropPull s peer job) t b sigOk fun _ _ => false
              else
                askChunks s u (sectionChunks s b) true
        else if !u.want.isEmpty || !u.out.isEmpty then s
        else if !pullHas u (sectionChunks s b) then askChunks s u (sectionChunks s b) true
        else takeVolume (dropPull s peer job) t b true fun p => keeps p (volOwnImage s p)

/-- PULL_UNAVAILABLE: an outstanding loan has had no answer. -/
def pullUnavailable (s : State) (ring : Nat) (seq : BitVec 32) : State :=
  match slipReady s ring seq 2 with
  | none => s
  | some t =>
    let peer := t.arg 0 % 65536
    let job := BitVec.ofNat 32 (t.arg 1)
    match findPull s peer job with
    | some u => if u.out.isEmpty then s else refuse (dropPull s peer job) t .pullUnavailable
    | none => s

/-! ### PIN, UNPIN and WEED (11 R451, R452) -/

def setPin (s : State) (e : Nat) (p : Bool) : State :=
  match tget s.host.cat e with
  | some x => s.modHost fun h => { h with cat := tset h.cat e { x with pinned := p } }
  | none => s

def pin (s : State) (ring : Nat) (seq : BitVec 32) : State :=
  match slipReady s ring seq 7 with
  | none => s
  | some t =>
    if 60 ≤ (s.host.cat.filter fun e => e.2.pinned).length then refuse s t .cataloguePinned
    else endWith (setPin s (t.arg 0 % 64) true) t (.done 0 0 0)

def unpin (s : State) (ring : Nat) (seq : BitVec 32) : State :=
  match slipReady s ring seq 8 with
  | none => s
  | some t => endWith (setPin s (t.arg 0 % 64) false) t (.done 0 0 0)

def weed (s : State) (ring : Nat) (seq : BitVec 32) : State :=
  match slipReady s ring seq 9 with
  | none => s
  | some t =>
    let e := t.arg 0 % 64
    match tget s.host.cat e with
    | none => endWith s t (.done 0 0 0)
    | some x =>
      if x.pinned || entryInUse s e then refuse s t .entryInUse else endWith (weedEntry s e) t (.done 0 0 0)

end Sys2Proof.Machine
end

