-- ==== Sys2Proof/Machine/Host.lean ====
section
/-!
DEFINITION. The PCIe endpoint and the rings (11 R426 to R435, R454; 12 R465, R466; 16 R570): link resets, slips taken
and ended, acknowledgements, ring resets, interrupts, configuration requests and writes that nothing takes.
-/

namespace Sys2Proof.Machine

/-! ### HOST_STATUS (12 R466) -/

/-- FABRIC_READY stands from fabric-ready until the accession is lost; a change of HOST_STATUS raises vector 32. -/
def hostStatus (before after : State) : State :=
  let ready : Bool := after.fab.accSt = .done && (after.host.ready || (after.bring.phase = 0xF && fabricReady after))
  let s := after.modHost fun h => { h with ready := ready }
  if before.host.busy = s.host.busy && before.host.ready = ready then s else raiseVector s 32

/-! ### Link resets (11 R429, 16 R570) -/

/-- A vector of a block that has been reset: masked, nothing pending. -/
def MsiX.afterReset (m : MsiX) : MsiX := { m with masked := true, pba := false }

/-- A slip taken before a link reset: an UPLOAD and a WAIT end without result; any other runs on and its result is
discarded. -/
def afterLinkReset (ts : List Taken) : List Taken :=
  (ts.filter fun t => t.op ≠ 1 && t.op ≠ 0x0A).map fun t => { t with discard := true }

/-- A Hot Reset, a Function Level Reset or a link-down: the PCIe block and every ring are reset. -/
def linkReset (s : State) : State :=
  s.modHost fun h => { h with
    rings := [], taken := afterLinkReset h.taken, linkResets := h.linkResets + 1
    msix := h.msix.map fun m => (m.1, m.2.afterReset) }

def hotReset (s : State) : State := if s.host.inReset then s else linkReset s
def functionLevelReset (s : State) : State := if s.host.inReset then s else linkReset s
def pcieLinkDown (s : State) : State := if s.host.inReset then s else linkReset s

/-- Whether the dies and PERST_N leave the PCIe block out of reset; its domain comes up in wave 0 (12 R465). -/
def pcieHeld (s : State) : Bool := s.pins.diesInReset || !s.pins.perstN || !domainOn s 39

def holdPcie (s : State) : State := s.modHost fun h => { h with inReset := pcieHeld s }

/-- PERST_N falls: the PCIe block is held in reset, and nothing else is. -/
def perstAssert (s : State) : State := holdPcie { s with pins := { s.pins with perstN := false } }

/-- PERST_N rises: a link reset. -/
def perstRelease (s : State) : State :=
  if s.pins.perstN then s
  else
    let s1 := holdPcie { s with pins := { s.pins with perstN := true } }
    if s1.host.inReset then s1 else linkReset s1

/-- A configuration request (12 R465): `settled` says that 20 ms have passed since PERST_N rose (16 R570). -/
def configurationRequest (s : State) (settled : Bool) : State :=
  s.modHost fun h => { h with
    cfgAnswer := if h.inReset then .none else if h.live && settled then .normal else .retry }

/-! ### Rings (11 R430 to R433, R435) -/

def State.ring (s : State) (q : Nat) : Ring := tgetD s.host.rings q Ring.reset
def State.modRing (s : State) (q : Nat) (f : Ring → Ring) : State :=
  s.modHost fun h => { h with rings := tset h.rings q (f (s.ring q)) }

/-- A return slot as bring-up leaves it. -/
def RetSlot.reset (k : Nat) : RetSlot := ⟨BitVec.ofNat 32 k - 256, .consumed, 0, 0, none, 0, 0, 0⟩

def Ring.ret (r : Ring) (k : Nat) : RetSlot := tgetD r.rets k (RetSlot.reset k)

/-- The slot of a sequence number. -/
def slotOf (seq : BitVec 32) : Nat := seq.toNat % 256

/-- The host control block takes accesses. -/
def hostServed (s : State) : Bool := s.host.live && !s.host.inReset

/-- A doorbell write (R432), with the call slots that the host wrote before it. -/
def callDoorbell (s : State) (q : Nat) (value : BitVec 32) (writes : Tbl (BitVec 1024)) : State :=
  if !hostServed s then s
  else s.modRing q fun r =>
    let r1 := { r with calls := writes.foldl (fun t (w : Nat × BitVec 1024) => tset t (w.1 % 256) w.2) r.calls }
    if 256 < (value - r.callSeq).toNat then { r1 with ackIgnored := r1.ackIgnored + 1 } else { r1 with bell := value + 1 }

/-- What a slip is refused with as it is taken (R433, R436). -/
def takenRefusal (slip : BitVec 1024) (seq : BitVec 32) : Option SlipResult :=
  let op := bits slip.toNat 32 8
  if slip.setWidth 32 ≠ seq then some (.refused .slipSeq)
  else if op = 0 || 0x0B < op then some (.refused .badOp)
  else none

/-- The device takes the next slip of a ring once its return slot reads CONSUMED (R432, steps 3 and 4). -/
def slipTake (s : State) (q : Nat) : State :=
  let r := s.ring q
  let k := slotOf r.callSeq
  let slot := r.ret k
  if s.host.inReset || r.resetWaiting || r.callSeq = r.bell || slot.st ≠ .consumed then s
  else
    let slip := tgetD r.calls k 0
    let slot' : RetSlot :=
      ⟨slot.seq, .pending, BitVec.ofNat 8 (bits slip.toNat 32 8), BitVec.ofNat 4 (bits slip.toNat 40 4), none, 0, 0, 0⟩
    let t : Taken := ⟨s.host.takes, q, r.callSeq, slip, takenRefusal slip r.callSeq, false, false⟩
    (s.modRing q fun r => { r with callSeq := r.callSeq + 1, rets := tset r.rets k slot' }).modHost fun h =>
      { h with taken := h.taken ++ [t], takes := h.takes + 1 }

/-- The return slot of a slip that has ended (R431, R432 step 5). -/
def RetSlot.ended (x : RetSlot) (seq : BitVec 32) : SlipResult → RetSlot
  | .done a b e => { x with seq := seq, st := .done, name := none, result0 := a, result1 := b, ext := e }
  | .refused n => { x with seq := seq, st := .refused, name := some n, result0 := 0, result1 := 0, ext := 0 }

def SlipResult.isDone : SlipResult → Bool
  | .done .. => true
  | .refused _ => false

/-- A slip ends: its return slot takes the result and the vector of the ring is raised; the result of a slip taken
before a link reset is discarded (R429). A slip taken while BUSY stays PENDING until BUSY clears (R434). -/
def slipEnd (s : State) (q : Nat) (seq : BitVec 32) : State :=
  match s.host.taken.find? fun t => t.ring = q && t.seq = seq && t.result.isSome with
  | none => s
  | some t =>
    match t.result with
    | none => s
    | some r =>
      if !t.discard && busy s then s
      else
        let s1 := s.modHost fun h => { h with taken := h.taken.filter fun u => u.number ≠ t.number }
        if t.discard then s1
        else
          let k := slotOf seq
          raiseVector (s1.modRing q fun x => { x with
            rets := tset x.rets k ((x.ret k).ended seq r)
            slipsDone := x.slipsDone + (if r.isDone then 1 else 0)
            slipsRefused := x.slipsRefused + (if r.isDone then 0 else 1) }) q

/-- An acknowledgement (R432 step 6, R433). -/
def retAck (s : State) (q : Nat) (value : BitVec 32) : State :=
  if !hostServed s then s
  else s.modRing q fun r =>
    let slot := r.ret (slotOf value)
    if (slot.st = .done || slot.st = .refused) && slot.seq = value then
      { r with rets := tset r.rets (slotOf value) { slot with st := .consumed } }
    else { r with ackIgnored := r.ackIgnored + 1 }

/-- A RESET written to RING_CONTROL: the slips not yet taken are discarded (R435). -/
def ringReset (s : State) (q : Nat) : State :=
  if !hostServed s then s else s.modRing q fun r => { r with bell := r.callSeq, resetWaiting := true }

/-- Slips PENDING on a ring. -/
def ringPending (s : State) (q : Nat) : Nat := (s.host.taken.filter fun t => t.ring = q && !t.discard).length

/-- The reset of a ring takes effect once none of its slips is PENDING. -/
def ringResetEffect (s : State) (q : Nat) : State :=
  if (s.ring q).resetWaiting && ringPending s q = 0 then s.modRing q fun _ => Ring.reset else s

/-! ### Interrupts and writes (11 R428, R454) -/

/-- A vector is unmasked: one message if its PBA bit is set. -/
def msixUnmask (s : State) (v : Nat) : State :=
  if s.host.inReset then s
  else s.modHost fun h => { h with
    msix := tmod h.msix v MsiX.reset fun m =>
      { masked := false, pba := false, sent := if m.pba then m.sent + 1 else m.sent } }

/-- A place of BAR0 that takes writes: the WO registers of Table 11.9, the call slots, the MSI-X table. -/
def bar0Takes (off : Nat) : Bool :=
  (0x100 ≤ off && off < 0x300 && (off % 0x20 < 4 || (8 ≤ off % 0x20 && off % 0x20 < 0x0C) ||
    (0x10 ≤ off % 0x20 && off % 0x20 < 0x14))) ||
  (0x100000 ≤ off && off < 0x180000) || (0x10000 ≤ off && off < 0x10210)

/-- A write that nothing takes is discarded and counted. -/
def registerWriteIgnored (s : State) (bar off : Nat) : State :=
  if !hostServed s then s
  else if (bar = 2 && off < 0x10000000) || (bar = 0 && off < 0x200000 && !bar0Takes off) then
    s.modHost fun h => { h with writesIgnored := h.writesIgnored + 1 }
  else s

end Sys2Proof.Machine
end

