-- ==== Sys2Proof/Machine/Wake.lean ====
section
/-!
DEFINITION. Power domains in waves (12 R467 to R469), run-time wakes (13 R496, R497), and the start of a distribution
of core firmware (12 R474).
-/

namespace Sys2Proof.Machine

/-- The waves of 12 Table 12.4. -/
def waveDomains (w : Nat) : List Nat :=
  let span (a b : Nat) : List Nat := (List.range (b + 1 - a)).map (a + ·)
  match w with
  | 0 => [38, 78, 39]
  | 1 => span 30 33 ++ span 70 73 ++ [79]
  | 2 => span 24 29 ++ span 64 67
  | 3 => [68, 69] ++ span 34 37 ++ span 74 77
  | 4 => span 0 9
  | 5 => span 10 19
  | 6 => span 20 23 ++ span 40 45
  | 7 => span 46 55
  | 8 => span 56 63
  | _ => []

def domainMask (ds : List Nat) : BitVec 80 := ds.foldl (fun m d => m ||| (1#80 <<< d)) 0

def switchOn (s : State) (ds : List Nat) : State := s.modBring fun b => { b with domainOn := b.domainOn ||| domainMask ds }
def switchOff (s : State) (ds : List Nat) : State :=
  s.modBring fun b => { b with domainOn := b.domainOn &&& ~~~(domainMask ds) }

/-- A wave starts: its domains are switched on together. -/
def startWave (s : State) (w : Nat) (ds : List Nat) (wake : Bool) : State :=
  let s1 := (switchOn s ds).modBring fun b => { b with wave := some ⟨w, ds, [], false, wake⟩ }
  if wake then { s1 with power := { s1.power with domainWakes := s1.power.domainWakes + BitVec.ofNat 32 ds.length } }
  else s1

/-- A bring-up halts in its phase (12 R463, R464). The host control block is live in every case (R465). -/
def halt' (s : State) (code : BitVec 8) : State :=
  { s.modBring fun b => { b with halted := true, failCode := code, wave := none } with
    host := { s.host with live := true } }

/-- A distribution of core firmware to a shelf begins (12 R474): each site that has not failed starts afresh. -/
def startDistribution (s : State) (sh : Nat) : State :=
  let s1 := (List.range 13).foldl (fun s t => s.modSite (sh * 13 + t) fun x =>
    if x.failed then x
    else { x with
      blocks := [], next := 0, naks := [], unicasts := [], verified := false, running := false, tested := false
      fwFailures := 0 }) s
  s1.modBring fun b => { b with fwNext := tset b.fwNext sh 0 }

/-- A domain has been decided: it is on and settled, or it has failed. -/
def domainSettled (s : State) (d : Nat) : Bool :=
  (domainOn s d || s.bring.domainFailed.getLsbD d || s.bring.mediaFailed.any fun x => d = 34 + 40 * x || d = 35 + 40 * x) &&
    !s.bring.waveQueue.contains d &&
    match s.bring.wave with
    | some w => !(w.on ++ w.retry).contains d
    | none => true

/-- Shelves whose core groups have just come up are sent the core firmware. -/
def wokenShelves (s : State) : State :=
  s.bring.wakes.foldl (fun s sh =>
    if (tget s.bring.fwNext sh).isNone && (coreDomains sh).all (domainSettled s) then
      if (List.range 13).all fun t => (s.site (sh * 13 + t)).failed then
        s.modBring fun b => { b with wakes := b.wakes.filter (· ≠ sh) }
      else startDistribution s sh
    else s) s

/-- The next run-time wave: at most 10 of the domains that wait. -/
def nextWakeWave (s : State) : State :=
  if s.bring.wave.isSome || s.bring.waveQueue.isEmpty then s
  else
    let ds := s.bring.waveQueue.take 10
    startWave (s.modBring fun b => { b with waveQueue := b.waveQueue.drop 10 }) s.bring.lastWave.toNat ds true

/-- The domain of a media complex that failed its own test: it stays off (12 R471). -/
def mediaOff (s : State) (d : Nat) : Bool := s.bring.mediaFailed.any fun x => d = 34 + 40 * x || d = 35 + 40 * x

/-- Domains are wanted at run time. -/
def wakeDomains (s : State) (ds : List Nat) : State :=
  let new := ds.filter fun d =>
    !domainOn s d && !s.bring.domainFailed.getLsbD d && !mediaOff s d && !s.bring.waveQueue.contains d
  nextWakeWave (s.modBring fun b => { b with waveQueue := b.waveQueue ++ new })

/-- A shelf is wanted: its core groups, if off, come up and are sent the firmware (13 R497). -/
def wakeShelf (s : State) (sh : Nat) : State :=
  if s.bring.wakes.contains sh || (coreDomains sh).all (fun d => domainOn s d || s.bring.domainFailed.getLsbD d) then s
  else wakeDomains (s.modBring fun b => { b with wakes := b.wakes ++ [sh] }) (coreDomains sh)

def shelfAwake (s : State) (sh : Nat) : Bool := !s.bring.wakes.contains sh && (coreDomains sh).all (domainSettled s)

/-- The links of a port pair's domain. -/
def pairLinks (d : Nat) : List Nat := linkNumbers.filter fun h => linkDomain h = d

/-- The domain of a port pair is switched off when every link of both its ports is off in the folio (13 Table 13.1). -/
def gatePorts (s : State) : State :=
  if s.default 5 = 0 then s
  else
    [36, 37, 76, 77].foldl (fun s d =>
      if domainOn s d && (pairLinks d).all fun h => (s.link h).mode = .off then
        { switchOff s [d] with power := { s.power with domainGatings := s.power.domainGatings + 1 } }
      else s) s

/-- Every domain of the wave is decided: the next one starts. -/
def waveEnd (s : State) (w : WaveRun) : State :=
  let s1 := s.modBring fun b => { b with wave := none, lastWave := if w.wake then b.lastWave else BitVec.ofNat 4 w.wave }
  if w.wake then wokenShelves (nextWakeWave s1)
  else
    let s2 := if w.wave = 3 then gatePorts s1 else s1
    let next : Bool := (s2.bring.phase = 4 && 2 ≤ w.wave && w.wave < 8) || (s2.bring.phase = 3 && w.wave = 0)
    if next then startWave s2 (w.wave + 1) (waveDomains (w.wave + 1)) false else s2

/-- The next domain of a retried wave is switched on by itself. -/
def retryNext (s : State) (w : WaveRun) : State :=
  match w.retry with
  | [] => waveEnd s w
  | d :: t => (switchOn s [d]).modBring fun b => { b with wave := some { w with on := [d], retry := t, retrying := true } }

/-- WAVE_SETTLED: the regulator reports settled. -/
def waveSettled (s : State) : State :=
  match s.bring.wave with
  | none => s
  | some w => if w.retrying then retryNext s w else waveEnd s w

/-- What a domain that stays off costs (12 R469, Table 12.3): a halt for the domains of waves 0 and 1, else its sites or
its links. -/
def domainLost (s : State) (d : Nat) : State :=
  let s1 := domainFailed s d
  if (waveDomains 0 ++ waveDomains 1).contains d then halt' s1 5
  else (pairLinks d).foldl (fun s h => linkOff (leaveLink s h) h) s1

/-- WAVE_TIMEOUT (12 R468): the wave is switched off and tried again domain by domain; one that does not settle by
itself stays off. -/
def waveTimeout (s : State) : State :=
  match s.bring.wave with
  | none => s
  | some w =>
    if !w.retrying then
      retryNext ((switchOff s w.on).modBring fun b => { b with waveRetries := b.waveRetries + 1 })
        { w with on := [], retry := w.on }
    else
      let s1 := w.on.foldl domainLost s
      if s1.bring.halted then s1 else retryNext s1 w

end Sys2Proof.Machine
end

