-- ==== Sys2Proof/Machine/Context.lean ====
section
/-!
DEFINITION. Job contexts (11 R441 to R449): creation with its checks and the ledger plan's (10 R391), loading and
unloading, teardown, and the slips that name a context.
-/

namespace Sys2Proof.Machine

/-! ### The ledger plan's checks (10 R391) -/

/-- The granule ranges of a memory plan (TYPE 0Ah): every entry after the first 12. -/
def planGranules (mp : Blob) : List Nat :=
  (List.range (mp.len / 8 - 12)).flatMap fun i =>
    (List.range (mp.bits (64 * (i + 12) + 14) 14)).map fun k => mp.bits (64 * (i + 12)) 14 + k

/-- Whether granules cover `[a, a + n)`. -/
def granulesCover (gs : List Nat) (a n : Nat) : Bool :=
  let hi := a + (n - 1)
  (tierOf a = .hbm || tierOf a = .cxl) && tierOf a = tierOf hi &&
    (List.range (granuleOf hi - granuleOf a + 1)).all fun i => gs.contains (granuleOf a + i)

/-- An object entry breaks a range of 10 Table 10.2. -/
def objectBad (p : Blob) (n i : Nat) : Bool :=
  n ≤ objOwner p i || 1 < objClass p i || (objClass p i = 0 && objSource p i ≠ 0) || (objClass p i = 1 && objSource p i = 3) ||
    objAddr p i % 128 ≠ 0 || objBytes p i % 128 ≠ 0 || objBytes p i = 0 ||
    (match objReplica p i with | some r => n ≤ r | none => objIsReplica p i) ||
    ((objIsTap p i || objIsCopy p i) && (objCands p i).any fun r => n ≤ r)

def hasRepeat : List Nat → Bool
  | [] => false
  | a :: t => t.contains a || hasRepeat t

/-- A parity group breaks 10 Table 10.4, or a holder is a member. -/
def groupBad (p : Blob) (n g : Nat) : Bool :=
  let ms := groupMembers p g
  ms.length < 4 || 16 < ms.length || hasRepeat ms || ms.any (fun r => n ≤ r) || n ≤ groupHolder0 p g ||
    ms.contains (groupHolder0 p g) || (groupRs p g && (n ≤ groupHolder1 p g || ms.contains (groupHolder1 p g)))

/-- An elastic group breaks 10 Table 10.11. -/
def elasticBad (p : Blob) (n g : Nat) : Bool :=
  let cnt := elasticBits p g 16 15
  let stride := elasticBits p g 32 14
  cnt < 2 || 16384 < cnt || stride = 0 || elasticMin p g = 0 || cnt < elasticMin p g ||
    n ≤ elasticBits p g 0 14 + (cnt - 1) * stride

/-- The ranks that the leaves of the commit tree name (10 R402). -/
def commitLeaves (p : Blob) : List Nat :=
  (List.range (planTreeNodes p)).flatMap fun i =>
    let o := 8 * p.bits 224 32 + 576 * i
    ((List.range (p.bits (o + 16) 4 + 1)).map fun k => BitVec.ofNat 32 (p.bits (o + 64 + 32 * k) 32)).filterMap fun e =>
      if epKind e = 6 && epPeerStream e = 0xFFB then some (epLrank e) else none

/-- The intake queues of a rank's image. -/
def Volume.queuesOf (v : Volume) (rank : Nat) : Nat := (namedQueues (parseImage (v.ofImage 2 (v.imageOf rank)))).length

/-- The memory plan of a rank. -/
def Volume.memPlan (v : Volume) (rank : Nat) : Blob := v.ofImage 0xA (v.imageOf rank)

/-- A node of the commit tree breaks 10 R402 or 03 Table 3.6: OP = MAX, FABRIC = 1, and children that are leaves or nodes of
the tree. -/
def commitNodeBad (p : Blob) (i : Nat) : Bool :=
  let o (i : Nat) : Nat := 8 * p.bits 224 32 + 576 * i
  let number (i : Nat) : Nat := p.bits (o i) 16
  let others := (List.range (planTreeNodes p)).filter (· ≠ i)
  others.any (fun j => number j = number i) || p.bits (o i + 16) 4 = 0 || p.bits (o i + 20) 2 ≠ 1 || p.bits (o i + 26) 1 ≠ 1 ||
    (List.range (p.bits (o i + 16) 4 + 1)).any fun k =>
      let e := BitVec.ofNat 32 (p.bits (o i + 64 + 32 * k) 32)
      !(epKind e = 6 && epPeerStream e = 0xFFB) && !((epKind e = 2 || epKind e = 3) && others.any fun j => number j = epNode e)

/-- The entry that exports go by is one of the loader table's with EXPORT = 1. -/
def exportEntryBad (v : Volume) : Bool :=
  let p := v.jobWide 5
  let e := p.bits 120 8
  planExport p ≠ 0 && ((v.jobWide 7).len ≤ 32 * e || (v.jobWide 7).bits (256 * e + 8) 1 = 0)

/-- The memory of an object is what its owner's context will own: granules of its memory plan, or the stores of its shelves,
which the creation names for the own rank. -/
def objectCovered (v : Volume) (own : Nat) (mask : BitVec 12) (i : Nat) : Bool :=
  let p := v.jobWide 5
  granulesCover (planGranules (v.memPlan (objOwner p i))) (objAddr p i) (objBytes p i) ||
    match tierOf (objAddr p i) with
    | .shelf sh => tierOf (objAddr p i + (objBytes p i - 1)) = .shelf sh && (objOwner p i ≠ own || mask.getLsbD sh)
    | _ => false

def ledgerPlanBad (v : Volume) (own : Nat) (mask : BitVec 12) : Bool :=
  let p := v.jobWide 5
  let n := (v.jobWide 6).len / 2
  let ranks := List.range n
  let os := List.range (planObjects p)
  let leaves := commitLeaves p
  let table := ranks.map fun r => (v.jobWide 6).bits (16 * r) 16
  planN p = 0 || planHops p = 0 || os.any (objectBad p n) ||
    (List.range (planGroups p)).any (groupBad p n) || (List.range (planElastic p)).any (elasticBad p n) ||
    (os.any fun i => !objectCovered v own mask i) || exportEntryBad v ||
    (List.range (planTreeNodes p)).any (commitNodeBad p) ||
    (ranks.any fun r => !spansApart ((objectsOf p r).map fun i => (objAddr p i, objBytes p i))) ||
    (ranks.any fun r => ((List.range (planGroups p)).filter fun g => (groupMembers p g).contains r).length ≠ 1) ||
    leaves.length ≠ n || (ranks.any fun r => !leaves.contains r) ||
    (planSpares p).any fun a => table.contains a

/-- A TAP object whose stream, in a candidate's image, has another format than the owner's masters, or whose tensor
does not take exactly BYTES (its MAX_LEN elements; log entry 34). -/
def ledgerTapBad (v : Volume) : Bool :=
  let p := v.jobWide 5
  let fmt := if log32Masters (v.jobWide 4) then 2 else 3
  (List.range (planObjects p)).any fun i =>
    objIsTap p i && (objCands p i).any fun r =>
      match (parseImage (v.ofImage 2 (v.imageOf r))).streams[objTapStream p i]? with
      | some t => t.format ≠ fmt || 128 * wordsOf t.maxLen t.format ≠ objBytes p i
      | none => true

/-! ### Creation (11 R443) -/

/-- Checks 1 to 4. -/
def createRefusal (s : State) (c : Nat) (job : BitVec 32) (mask : BitVec 12) : Option RefName :=
  if (s.ctx c).st ≠ .free then some .contextState
  else if (volumeOf s job).isNone then some .notResident
  else if (List.range nCtx).any fun d => (s.ctx d).st ≠ .free && (s.ctx d).job = job then some .jobPresent
  else if (shelvesOf mask).any fun sh => (shelfOwner s sh).isSome then some .shelfBusy
  else none

/-- Checks 5 and 6. -/
def planRefusal (s : State) (v : Volume) (mask : BitVec 12) : Option RefName :=
  let table := (List.range ((v.jobWide 6).len / 2)).map fun r => (v.jobWide 6).bits (16 * r) 16
  let named := (table.filter (· = s.fab.acc)).length
  if 1 < named || (named = 0 && !(planSpares (v.jobWide 5)).contains s.fab.acc) then some .rankTable
  else if ledgerPlanBad v ((table.findIdx? (· = s.fab.acc)).getD table.length) mask then some .ledgerPlan
  else if ledgerTapBad v then some .ledgerTap
  else none

/-- A granule that can never be assigned to a new context (11 R443). -/
def granuleTaken (s : State) (n : Nat) : Bool :=
  let g := s.granule n
  nGranules ≤ n || g.assigned || g.lost || g.system || g.retain

/-- The granules of a plan are assigned (06 R221). -/
def assignGranules (s : State) (c : Nat) (gs : List Nat) : State :=
  gs.foldl (fun s n => s.modGranule n fun g => { g with assigned := true, context := BitVec.ofNat 4 c }) s

/-- A data section reaches only memory that the context owns: its granules, and the stores of its shelves. -/
def dataOwned (s : State) (c a n : Nat) : Bool :=
  n = 0 || mayReach s c a n || match tierOf a with
    | .carrel core => (s.ctx c).mask.getLsbD (core / 12) && tierOf (a + (n - 1)) = tierOf a
    | _ => false

/-- Initial contents are written; words written whole lose their poison (06 R227). -/
def writeData (s : State) (a : Nat) (b : Blob) : State :=
  writeRange s a b.len b.val

/-- The data sections of an image (11 R443; only the CONST ones for a spare, R445). -/
def dataSections (v : Volume) (image : Nat) (constOnly : Bool) : List Section :=
  v.sections.filter fun x => x.type = 9 && x.image = image && (x.const || !constOnly)

/-- The ledger reserves its granules: those of the job that it has kept count, the lowest free ones follow (10 R392). -/
def reserveLedger (s : State) (c : Nat) : Option State :=
  let x := s.ctx c
  let have' := (ledgerGranules s x.job).length
  let need := ledgerNeed x - have'
  let free := ((s.mem.granules.filter fun g => 4608 < g.1 && g.2.scrubbed && !g.2.assigned && !g.2.lost && !g.2.filling).map
    (·.1)).take need
  if free.length < need then none
  else some (directoryWrite (free.foldl (fun s n => s.modGranule n fun g => { g with
    assigned := true, ledger := true, context := BitVec.ofNat 4 c, job := x.job.toNat }) (wantKey s (.ledger x.job))))

/-- A slot given up by a refused creation. -/
def abandonCreate (s : State) (c : Nat) : State :=
  let s1 := destroyKey (releaseGranules s c) (.ctxMem c)
  s1.modCtx c fun x => { x with st := .free, mask := 0, standby := false, entry := none, led := { x.led with st := .none } }

/-- What building a rank's context needs: its granules free and filled, its sections inside them. `none`: a granule
still awaits its fill. -/
def buildContext (s : State) (c : Nat) (v : Volume) (rank : Nat) (constOnly : Bool) : Option (Except RefName State) :=
  let gs := planGranules (v.memPlan rank)
  if gs.any (granuleTaken s) then some (.error .contextMemory)
  else if gs.any fun n => !(s.granule n).scrubbed then none
  else
    let s1 := freshKey (assignGranules s c gs) (.ctxMem c)
    let ds := dataSections v (v.imageOf rank) constOnly
    if ds.any fun d => !dataOwned s1 c d.addr d.data.len then some (.error .contextMemory)
    else some (.ok (ds.foldl (fun s d => writeData s d.addr d.data) s1))

/-- A slot that has passed its checks: a new job's ledger block, fault record and step block (10 R425, 11 R448). -/
def newContext (s : State) (c : Nat) (job : BitVec 32) (mask : BitVec 12) (v : Volume) : State :=
  let table := (List.range ((v.jobWide 6).len / 2)).map fun r => (v.jobWide 6).bits (16 * r) 16
  s.modCtx c fun x =>
    { ({} : Ctx) with
      st := .creating, mask := mask, job := job, lastEvent := x.lastEvent, teardowns := x.teardowns
      rank := BitVec.ofNat 14 ((table.findIdx? (· = s.fab.acc)).getD 0), standby := !table.contains s.fab.acc
      faults := if x.job = job then x.faults else 0, fault := if x.job = job then x.fault else none
      plan := v.jobWide 5, loader := v.jobWide 7, options := v.jobWide 4
      led := { ranks := table, queues := v.queuesOf ((table.findIdx? (· = s.fab.acc)).getD 0) } }

/-- The end of a creation whose context is built, with what the reservation for the ledger gave: IDLE, or refused. -/
def reserveEnd (s : State) (c : Nat) (t : Taken) (rank : BitVec 14) : Option State → State
  | none => refuse (abandonCreate s c) t .ledgerSpace
  | some s1 => endWith ((shelvesOf (s1.ctx c).mask).foldl rebindShelf
      (s1.modCtx c fun x => { x with st := .idle, entry := none })) t (.done (rank.setWidth 64) 0 0)

/-- The rank's context is built and IDLE, or it waits, or it is refused. -/
def continueCreate (s : State) (c : Nat) (t : Taken) (v : Volume) : State :=
  let x := s.ctx c
  match buildContext s c v x.rank.toNat false with
  | none => s
  | some (.error n) => refuse (abandonCreate s c) t n
  | some (.ok s1) => reserveEnd s1 c t x.rank (reserveLedger (choosePartners s1 c) c)

/-- CREATE. After check 4 it waits for the shelves to wake (13 R498); then the slot is CREATING until its granules are
there. -/
def create (s : State) (ring : Nat) (seq : BitVec 32) : State :=
  match slipReady s ring seq 3 with
  | none => s
  | some t =>
    let c := t.ctx
    let job := BitVec.ofNat 32 (t.arg 0)
    let mask := BitVec.ofNat 12 (t.arg 0 / 2 ^ 32)
    match (if t.running && (s.ctx c).st = .creating then none else createRefusal s c job mask), volumeOf s job with
    | some n, _ => refuse s t n
    | none, none => refuse s t .notResident
    | none, some v =>
      let s0 := startSlip s t
      if (s.ctx c).st = .creating then continueCreate s0 c t v
      else if (shelvesOf mask).any fun sh => !shelfAwake s sh then (shelvesOf mask).foldl wakeShelf s0
      else
        match planRefusal s v mask with
        | some n => refuse s0 t n
        | none =>
          let s1 := newContext s0 c job mask v
          if (s1.ctx c).standby then
            endWith (s1.modCtx c fun x => { x with st := .standby, led := { x.led with st := .standby } }) t
              (.done 0x4000 0 0)
          else
            continueCreate (s1.modCtx c fun x => { x with entry := entryOf s job (v.imageOf x.rank.toNat) }) c t v

/-! ### Loading (11 R444) -/

/-- The complex domains that an image's queues need (13 Table 13.1). -/
def mediaNeeds (L : LoadIn) : List Nat :=
  let im := parseImage L.img
  ((namedQueues im).flatMap fun n =>
    match queueFor im L.queues n with
    | some d => streamsDomain (n / 256) :: (if qModality d ≤ 1 then [decodeDomain (n / 256)] else [])
    | none => []).eraseDups

/-- Slips under way whose context has settled: LOAD once LOADED, UNLOAD once IDLE, DESTROY once FREE; a LOAD or an
UNLOAD whose context has faulted is refused (11 R444, R456). -/
def settleSlips (s : State) : State :=
  s.modTaken fun t =>
    let x := s.ctx t.ctx
    if t.result.isSome || !t.running then t
    else if t.op = 4 && x.st = .loaded && !x.loading then
      { t with result := some (.done (BitVec.ofNat 64 (x.entry.getD 0)) 0 0) }
    else if t.op = 5 && x.st = .idle then { t with result := some (.done 0 0 0) }
    else if t.op = 6 && x.st = .free then { t with result := some (.done 0 0 0) }
    else if (t.op = 4 || t.op = 5) && x.st = .free then { t with result := some (.refused .contextState) }
    else t

/-- LOAD: the checks of the loader; then the image is placed, and the slip ends once every stage is READY. -/
def load (s : State) (ring : Nat) (seq : BitVec 32) (stripes : Tbl (List Nat)) : State :=
  match slipReady s ring seq 4 with
  | none => s
  | some t =>
    let c := t.ctx
    let x := s.ctx c
    if x.st ≠ .idle || x.loading then (if t.running then s else refuse s t .contextState)
    else
      match volumeOf s x.job with
      | none => refuse s t .notResident
      | some v =>
        match entryOf s x.job (v.imageOf x.rank.toNat) with
        | none => refuse s t .notResident
        | some e =>
          let L := loadInput s c (v.imageOf x.rank.toNat) stripes false
          match loadRefusal s c L with
          | some n => refuse s t n
          | none =>
            let s0 := startSlip s t
            if (mediaNeeds L).any fun d => !domainSettled s d then wakeDomains s0 (mediaNeeds L)
            else
              let s1 := placeImage (stampEntry s0 e) c L
              settleSlips (settleLoads (s1.modCtx c fun x => { x with entry := some e }))

/-- UNLOAD (11 R444): pending until the next end-of-step barrier, at once where the ledger is HALTED. -/
def unload (s : State) (ring : Nat) (seq : BitVec 32) : State :=
  match slipReady s ring seq 5 with
  | none => s
  | some t =>
    let x := s.ctx t.ctx
    if t.running then s
    else if x.st ≠ .loaded then refuse s t .contextState
    else
      let s1 := (startSlip s t).modCtx t.ctx fun x => { x with unload := true }
      if x.led.st = .halted then settleSlips (unloadNow s1 t.ctx) else s1

/-- DESTROY (11 R446): a teardown becomes due, or the one under way is taken over (R456). -/
def destroy (s : State) (ring : Nat) (seq : BitVec 32) : State :=
  match slipReady s ring seq 6 with
  | none => s
  | some t =>
    let x := s.ctx t.ctx
    if t.running then s
    else if x.st = .free then refuse s t .contextState
    else
      let why := TearWhy.destroy (bit (t.arg 0) 0)
      (startSlip s t).modCtx t.ctx fun x => { x with
        tear := some ⟨why, match x.tear with | some r => r.started | none => false⟩ }

/-- WAIT (11 R449): it ends at the next event of the context. -/
def wait (s : State) (ring : Nat) (seq : BitVec 32) : State :=
  match slipReady s ring seq 0xA with
  | none => s
  | some t => startSlip s t

/-- READ_RESUME (11 R436): at most nine values of NEXT_BATCH from queue `i` on. -/
def readResume (s : State) (ring : Nat) (seq : BitVec 32) : State :=
  match slipReady s ring seq 0xB with
  | none => s
  | some t =>
    let x := s.ctx t.ctx
    if x.st = .free then refuse s t .contextState
    else
      let qs := (x.led.resume.drop (t.arg 0 % 512)).take 9
      let ext := packFields (qs.map fun q => (q.2.1 + 256 * q.1 + 2 ^ 32 * q.2.2, 64))
      endWith s t (.done (BitVec.ofNat 64 qs.length) 0 (BitVec.ofNat 576 ext))

/-! ### Teardown (11 R446) -/

/-- The memory of a shelf's stores is zero-filled. -/
def zeroStores (s : State) (sh : Nat) : State :=
  let m := s.mem.mem.zeroRange (shelfWindow sh) (shelfWindow sh + 0x1800000)
  s.setMem (m.zeroRange (carrelWindow (12 * sh)) (carrelWindow (12 * sh + 12)))

/-- A shelf as a teardown leaves it (05 R215, 06 Table 6.10, 15 R556). -/
def resetShelf (s : State) (sh : Nat) : State :=
  let s1 := (List.range 12).foldl (fun s n => s.setCore (12 * sh + n) Core.cleared) s
  s1.modShelf sh fun x => { x with
    escapeSize := 0, escapes := 0, cancels := 0, reports := [], confirming := none
    pf := [], pfCount := 0, pfBase := 0, pfRead := 0, pfWritten := 0, pfReqs := [], pfFill := false, pfCore := 0, pfEnd := 0
    check := { x.check with live := [], saved := [] } }

/-- TEARDOWN: steps 1 to 3. The rank's leaf of a commit under way fails with LOST_PEER (10 R424). -/
def teardown (s : State) (c : Nat) : State :=
  let x := s.ctx c
  match x.tear with
  | none => s
  | some t =>
    if t.started || x.st = .free then s
    else
      let s1 := cutWrites (closeQueues s c true) c
      let s2 := closeJob s1 x.job
      let s3 := s2.modFab fun f => { f with
        sessions := f.sessions.filter fun k => k.job ≠ x.job, pulls := f.pulls.filter fun u => u.job ≠ x.job }
      let s4 := s3.modCommit c fun k => if k.leaf.isSome then k else { k with cause := 5, leaf := some 5 }
      let s5 := destroyKey s4 (.ctxMem c)
      let s6 := (shelvesOf x.mask).foldl (fun s sh => zeroStores (resetShelf s sh) sh) s5
      let s7 := s6.modCtx c fun y => { y with
        st := .teardown, tear := some { t with started := true }, teardowns := y.teardowns + 1, loading := false
        image := none, streams := [], nodes := [], taps := [], sessions := [], exporting := none }
      (shelvesOf x.mask).foldl rebindShelf s7

/-- TEARDOWN_DONE: steps 4 and 5. After a fault the ledger reports it to the coordinator (10 R408) and keeps what a
recreation needs; after a DESTROY the slot stays FREE. -/
def teardownDone (s : State) (c : Nat) : State :=
  let x := s.ctx c
  match x.tear with
  | none => s
  | some t =>
    if !t.started then s
    else
      let s1 := releaseGranules s c
      match t.why with
      | .fault =>
        let s2 := s1.modCtx c fun y => { y with st := .free, tear := none, unload := false }
        let s3 := ctxEvent (settleSlips s2) c .faulted x.step.jobStep
        if x.led.st = .none || x.led.st = .standby then s3.modCtx c fun y => { y with mask := 0, entry := none, standby := false }
        else report s3 c 2 x.rank.toNat 0
      | .destroy rel =>
        let s2 := if rel then releaseLedger s1 x.job else s1
        let s3 := s2.modCtx c fun y => { y with
          st := .free, tear := none, unload := false, mask := 0, entry := none, standby := false
          led := { y.led with st := .none, commit := none, waiting := none, recovery := none, mail := [], joining := none
                              restoring := false } }
        dropVolume (ctxEvent (settleSlips s3) c .destroyed x.step.jobStep) x.job

end Sys2Proof.Machine
end

