-- ==== Sys2Proof/Machine/Record.lean ====
section
/-!
DEFINITION. Colophons (14 R522 to R524) and the records of the imprint: the boot folio and its writing (12 R461, R462),
the fabric folio (09 R340), the owner layer (13 R510), the wear ledger (13 R502) and the owner folio (14 R526).
-/

namespace Sys2Proof.Machine

/-! ### Colophons (14 Table 14.1) -/

def colophonBytes : Nat := 152

/-- A field of the colophon that closes a record. -/
def recColophon (b : Blob) (lo w : Nat) : Nat := b.bits (8 * (b.len - colophonBytes) + lo) w

def recDigest (b : Blob) : BitVec 256 := BitVec.ofNat 256 (recColophon b 192 256)
def recSequence (b : Blob) : Nat := recColophon b 32 32

/-- The checks of R523 but for the signature: DIGEST, KIND, and SERIAL, the device's own or, where 0 is required, 0. -/
def colophonFits (s : State) (b : Blob) (kind : Nat) (anyDevice : Bool) : Bool :=
  colophonBytes ≤ b.len && recColophon b 8 8 = kind &&
    recColophon b 64 64 = (if anyDevice then 0 else ownSerial s) &&
    (recDigest b).toNat = (sm3 (b.slice 0 (recColophon b 128 64))).toNat

/-- The device has no owner: no key is enrolled. -/
def noOwner (s : State) : Bool := (ownerKey s).isNone

/-- The signer of a fabric folio or an owner layer (14 Table 14.2): the enrolled owner; NONE for a fabric folio while
no owner is enrolled. -/
def ownerSigned (s : State) (b : Blob) (noneAllowed : Bool) : Bool :=
  if recColophon b 0 8 = 2 then !noOwner s && recColophon b 448 256 = (ownerDigest s).toNat
  else recColophon b 0 8 = 0 && noneAllowed && noOwner s

def countColophon (s : State) (ok : Bool) : State :=
  if ok then s else s.modSec fun x => { x with colophonFailures := x.colophonFailures + 1 }

/-! ### The boot folio (12 R461, R462; 14 R525) -/

/-- The copy that does not stand is written, with GENERATION one higher. -/
def writeBoot (s : State) (f : BootFolio) : State :=
  let cur := bootFolio s
  let new := { f with valid := true, generation := cur.generation + 1 }
  let a := s.imprint.boot0
  let b := s.imprint.boot1
  let first : Bool := a.valid && (!b.valid || b.generation.ult a.generation)
  { s with imprint := if first then { s.imprint with boot1 := new } else { s.imprint with boot0 := new } }

def fwSlot (s : State) (b : Bool) : FwSlot := if b then s.imprint.slotB else s.imprint.slotA
def setSlot (s : State) (b : Bool) (x : FwSlot) : State :=
  { s with imprint := if b then { s.imprint with slotB := x } else { s.imprint with slotA := x } }

/-- A slot that the boot ROM may boot (14 R519). -/
def slotBoots (s : State) (b : Bool) : Bool := (fwSlot s b).valid && s.sec.minSvn ≤ (fwSlot s b).facts.svn

/-- What the boot ROM makes of the boot folio (12 R462): the folio to be written, and whether a trial is rolled back. -/
def bootChoice (f : BootFolio) : BootFolio × Bool :=
  if f.trial && !f.trialStarted then ({ f with trialStarted := true }, false)
  else if f.trial then ({ f with slotB := !f.slotB, trial := false, trialStarted := false }, true)
  else (f, false)

/-! ### The wear ledger (13 R502) -/

def wearFolio (s : State) : WearFolio :=
  let a := s.imprint.wear0
  let b := s.imprint.wear1
  if a.valid && (!b.valid || b.generation.ult a.generation) then a else b

def wearValid (s : State) : Bool := s.imprint.wear0.valid || s.imprint.wear1.valid

/-- The copy of lower GENERATION is written with the entries of every island. -/
def writeWear (s : State) : State :=
  let cur := wearFolio s
  let new : WearFolio := ⟨true, cur.generation + 1, s.host.epoch, s.power.sinceBase, s.power.baseEpoch, s.power.wear⟩
  let a := s.imprint.wear0
  let b := s.imprint.wear1
  let first : Bool := a.valid && (!b.valid || b.generation.ult a.generation)
  { s with
    imprint := if first then { s.imprint with wear1 := new } else { s.imprint with wear0 := new }
    power := { s.power with wearWrites := s.power.wearWrites + 1, sinceWrite := 0 } }

/-! ### The owner folio (14 R525, R526) -/

/-- The copy of lower SEQUENCE is written, one higher. -/
def writeOwner (s : State) (key : Option (BitVec 512)) (nonce : BitVec 32) (next : BitVec 256) : State :=
  let cur := ownerFolio s
  let new : OwnerFolio := ⟨true, key, nonce, next, cur.sequence + 1⟩
  let a := s.imprint.owner0
  let b := s.imprint.owner1
  let first : Bool := a.valid && (!b.valid || b.sequence.ult a.sequence)
  { s with imprint := if first then { s.imprint with owner1 := new } else { s.imprint with owner0 := new } }

/-! ### The owner layer of the defaults (13 R508 to R510) -/

def layerEntries (b : Blob) : List (Nat × BitVec 32) :=
  (List.range ((b.len - colophonBytes) / 8)).map fun i => (b.bits (64 * i) 16, BitVec.ofNat 32 (b.bits (64 * i + 32) 32))

/-- A layer that names one ID twice is invalid. -/
def layerTwice (b : Blob) : Bool := ((layerEntries b).map (·.1)).eraseDups.length ≠ (layerEntries b).length

/-- The owner values of a valid layer: unknown IDs ignored, values out of range rejected. -/
def layerValues (b : Blob) : Tbl OwnerVal :=
  (layerEntries b).foldl (fun t e =>
    if e.1 ≤ 10 then tset t e.1 ⟨e.2, !ownerInRange e.1 e.2.toNat⟩ else t) []

/-- The owner layer of the imprint takes effect: none, its values, or the factory layer alone where it is invalid. -/
def applyLayer (s : State) : State :=
  let good (b : Blob) : Bool := colophonFits s b 6 false && ownerSigned s b false && !layerTwice b
  match s.imprint.ownerLayer with
  | none => { s with power := { s.power with defaults := [] }, bring := { s.bring with ownerInvalid := false } }
  | some b =>
    { s with
      power := { s.power with defaults := if good b then layerValues b else [] }
      bring := { s.bring with ownerInvalid := !good b } }

/-! ### The fabric folio (09 R340, Table 9.2) -/

/-- The Ethernet links of a folio, in order. -/
def folioEther (b : Blob) : List Nat := (List.range 16).filter fun h => folioMode b h = 2

/-- A rule of Table 9.2 or Table 9.3 is broken. -/
def folioBad (b : Blob) : Bool :=
  2 ≤ b.bits 64 2 ||
    ((List.range 16).any fun h =>
      folioMode b h = 3 || (h % 2 = 1 && b.bits (72 + h / 2) 1 = 0 && folioMode b h ≠ 0)) ||
    ((folioEther b).zipIdx.any fun e =>
      let mtu := b.bits (192 + 512 * e.2 + 266) 14
      mtu < 1500 || 9000 < mtu) ||
    b.len ≠ 24 + 64 * (folioEther b).length + colophonBytes

/-- The folio that governs this bring-up: one that verifies and keeps the rules; else every link is off. -/
def takeFolio (s : State) : State :=
  match s.imprint.fabric with
  | none => s.modFab fun x => { x with folio := none }
  | some b =>
    if !colophonFits s b 5 false || !ownerSigned s b true || folioBad b then
      s.modFab fun x => { x with folio := none, folioInvalid := true }
    else
      let link (h : Nat) : Link :=
        { mode := if folioMode b h = 1 then .verhel else if folioMode b h = 2 then .ethernet else .off
          half := b.bits (72 + h / 2) 1 = 1 }
      s.modFab fun x => { x with
        folio := some b, folioInvalid := false
        links := ((List.range 16).filter fun h => folioMode b h ≠ 0).map fun h => (h, link h) }

/-- No link is on. -/
def allLinksOff (s : State) : Bool := linkNumbers.all fun h => (s.link h).mode = .off

end Sys2Proof.Machine
end

