-- ==== Sys2Proof/Machine/Recovery.lean ====
section
/-!
DEFINITION. Recovery (10 R406 to R422): the control records as a rank and a coordinator take them, spares, restores
and their verification, drops and rejoins, and the release of former devices.
-/

namespace Sys2Proof.Machine

/-! ### Control records taken from the mailbox (10 R406, R407) -/

/-- The oldest record of a TYPE; one of an older RECOVERY_SEQ is ignored. -/
def takeMail (s : State) (c typ : Nat) : State × Option Ctrl :=
  match (s.ctx c).led.mail.find? fun k => k.typ = typ with
  | none => (s, none)
  | some k =>
    let s1 := s.modLed c fun l => { l with mail := l.mail.erase k }
    (s1, if k.seq < (s.ctx c).led.seq then none else some k)

/-- A record of a coordinator: taken only from the lowest rank heard in its RECOVERY_SEQ, before which a rank of higher
number stops acting as one. -/
def heed (s : State) (c : Nat) (k : Ctrl) : State × Bool :=
  let l := (s.ctx c).led
  let heard := if l.seq < k.seq then none else l.heard
  match heard with
  | some h =>
    if h < k.src then (s, false)
    else (s.modLed c fun l => { l with
      heard := some k.src
      recovery := if k.src < (s.ctx c).rank.toNat then none else l.recovery
      coordinator := l.coordinator && !(k.src < (s.ctx c).rank.toNat) }, true)
  | none => (s.modLed c fun l => { l with
      seq := k.seq, heard := some k.src
      recovery := if k.src < (s.ctx c).rank.toNat then none else l.recovery
      coordinator := l.coordinator && !(k.src < (s.ctx c).rank.toNat) }, true)

/-- Ranks of the job that take part: not dropped. -/
def liveRanks (x : Ctx) : List Nat := (List.range x.led.ranks.length).filter fun r => !x.led.dropped.contains r

/-- One record to every live rank. -/
def sendAll (s : State) (c : Nat) (k : Ctrl) : State := (liveRanks (s.ctx c)).foldl (fun s r => sendCtrl s c r k) s

/-! ### Halts (10 R413, R416, R417) -/

/-- The ledger halts the job at this rank: event HALTED, and a pending UNLOAD takes effect at once (11 R444). -/
def haltJob (s : State) (c cause : Nat) : State :=
  let s1 := s.modLed c fun l => { l with st := .halted, haltCause := BitVec.ofNat 4 cause }
  let s2 := ctxEvent s1 c .halted (s.ctx c).step.jobStep
  if (s2.ctx c).unload then settleSlips (unloadNow s2 c) else s2

/-! ### Spares (10 R411, R417) -/

/-- The anchor of a lost rank: the device with its largest partner copy, or its HOLDER0. -/
def anchorOf (x : Ctx) (r : Nat) : Option Nat :=
  (recordPartner { x with led := { x.led with partners := x.led.sealedPartners } } r).bind (rankAcc x)

/-- A device of the spare list that may take a rank: its role is SPARE, it is reachable and DONE, and holds no rank. -/
def spareEligible (s : State) (x : Ctx) (a : Nat) : Bool :=
  !x.led.ranks.contains a && match s.fab.lsdb.find? fun e => recAcc e.2 = a && recDone e.2 with
    | some e => recRole e.2 = 1 && (a = s.fab.acc || !(tgetD s.fab.routes a []).isEmpty)
    | none => false

/-- The first spare in the order of R411 that has not been tried. -/
def chooseSpare (s : State) (c r : Nat) (tried : List Nat) : Option Nat :=
  let x := s.ctx c
  let hops (a : Nat) : Nat := ((anchorOf x r).bind fun b => if a = b then some 0 else hopsBetween s b a).getD 100
  (((planSpares x.plan).filter fun a => spareEligible s x a && !tried.contains a).foldl (fun (m : Option Nat) a =>
    match m with
    | none => some a
    | some b => if hops a < hops b || (hops a = hops b && a < b) then some a else m) none)

/-- BIND goes to the next spare for the first rank that is still to be bound; with none left the job is halted, NO_SPARE,
or, for a rejoin, goes on as it is. -/
def bindNext (s : State) (c : Nat) : State :=
  match (s.ctx c).led.recovery with
  | none => s
  | some v =>
    match v.unbound with
    | [] => s
    | r :: _ =>
      match chooseSpare s c r v.tried with
      | some a =>
        let s1 := s.modLed c fun l => { l with recovery := some { v with offered := some a }, noSpare := false }
        sendCtrlTo s1 c a { typ := 4, seq := (s.ctx c).led.seq, src := (s.ctx c).rank.toNat, rank := r }
      | none =>
        let s1 := s.modLed c fun l => { l with recovery := some { v with offered := none, tried := [] }, noSpare := true }
        if v.rejoin then s1 else haltJob s1 c 0xA

/-! ### The coordinator's responses (10 R408 to R410, R416, R420) -/

/-- A recovery starts, or starts again with every failure known, under a new RECOVERY_SEQ. After more rollbacks to one
commit than RETRY_LIMIT the job halts. -/
def startRecovery (s : State) (c : Nat) (lost faulted : List Nat) : State :=
  let x := s.ctx c
  let old := match x.led.recovery with
    | some v => if v.rejoin then ([], []) else (v.unbound, v.faulted)
    | none => ([], [])
  let v : Recovery := { unbound := (old.1 ++ lost).eraseDups, faulted := (old.2 ++ faulted).eraseDups }
  let s1 := s.modLed c fun l => { l with
    seq := l.seq + 1, heard := some x.rank.toNat, coordinator := true, recovery := some v, joining := none, rebound := false }
  let s2 := sendAll s1 c { typ := 3, seq := 0, src := 0 }
  if planRetry x.plan ≤ x.led.retries then haltJob s2 c 9 else bindNext s2 c

/-- The conditions of an elastic drop (10 R420). -/
def mayDrop (s : State) (c r : Nat) : Bool :=
  let x := s.ctx c
  let trees := ((volumeOf s x.job).map fun v => (parseImage (v.ofImage 2 (v.imageOf r))).trees).getD []
  match elasticOf x.plan r with
  | none => false
  | some g =>
    elasticMin x.plan g ≤ ((elasticMembers x.plan g).filter fun q => q ≠ r && !x.led.dropped.contains q).length &&
      trees.isEmpty && r ≠ commitRoot x && (heldParity x.plan r).isEmpty && (x.led.st = .running || x.led.st = .committing)

/-- LOST at the coordinator: an elastic drop, or a rebind recovery. -/
def lost (s : State) (c : Nat) : State :=
  match takeMail s c 1 with
  | (s1, none) => s1
  | (s1, some k) =>
    let x := s1.ctx c
    let known : Bool := x.led.dropped.contains k.rank ||
      match x.led.recovery with | some v => v.unbound.contains k.rank | none => false
    if known then s1
    else if mayDrop s1 c k.rank then sendAll s1 c { typ := 9, seq := 0, src := 0, rank := k.rank }
    else startRecovery s1 c [k.rank] []

/-- FAULT at the coordinator: a local recovery (10 R409). -/
def fault (s : State) (c : Nat) : State :=
  match takeMail s c 2 with
  | (s1, none) => s1
  | (s1, some k) => startRecovery s1 c [] (if k.arg = 1 then [] else [k.rank])

/-! ### HALT (10 R410 step 1) -/

/-- A stage stopped by HALT: its work is discarded, and it does not fault its context. -/
def Core.halted (k : Core) : Core :=
  { k with
    stage := { k.stage with st := .stopped, wedged := false, staging := [], seq := Sequencer.start, rowDone := 0, turn := 0 }
    arr := { k.arr with banks := [], loading := [], groups := [], flight := [], held := none, snaps := [] }
    win := { k.win with cur := none, lines := [], pool := [], poolPoison := [], poolTaken := 0, decoded := [], cands := [] }
    inp := [], out := k.out.map fun p => (p.1, { p.2 with outs := [] }), vecPos := 0 }

/-- The prefetch engine of a halted context: its endpoints start again at slot 0 on RESUME. -/
def Shelf.halted (x : Shelf) (c : Nat) : Shelf :=
  { x with
    pf := x.pf.map fun q => if q.2.ctx = c then (q.1, { desc := q.2.desc, ctx := c, stream := q.2.stream }) else q
    pfReqs := [], reports := [], confirming := none, check := { x.check with live := [], saved := [] } }

/-- HALT: every stage stops, buffers are cleared, the queues close, and a commit under way is given up. -/
def halt (s : State) (c : Nat) : State :=
  match takeMail s c 3 with
  | (s1, none) => s1
  | (s1, some k) =>
    let old := (s.ctx c).led
    match heed s1 c k with
    | (s2, false) => s2
    | (s2, true) =>
      let x := s2.ctx c
      if old.st = .none || old.st = .standby || (old.st = .recovering && old.seq = x.led.seq && old.heard = some k.src &&
          old.recovery.isNone) then s2
      else
        let stays : Bool := old.st = .halted && old.seq = x.led.seq
        let s3 := closeQueues (cutWrites s2 c) c false
        let s4 := (shelvesOf x.mask).foldl (fun s sh => s.modShelf sh fun k => k.halted c)
          ((coresOf s3 c).foldl (fun s n => s.modCore n Core.halted) s3)
        let s5 := s4.modCtx c fun x => { x with
          streams := [], nodes := x.nodes.map fun n => (n.1, { n.2 with kids := [], pos := 0, out := { n.2.out with outs := [] } })
          taps := []
          led := { x.led with
            st := if stays then .halted else .recovering, commit := none, waiting := none, taps := [], copies := [], got := [], wards := [], leaves := [], reads := [], incoming := [], rebound := false
            recoveries := x.led.recoveries + 1 } }
        if stays then s5 else ctxEvent s5 c .recovering x.step.jobStep

/-! ### BIND and BIND_ACK (10 R410 step 2, 11 R445) -/

/-- The check of R445 at a spare: shelves enough for the image, and every granule of the plan free and filled. -/
def bindOk (s : State) (c : Nat) (v : Volume) (rank : Nat) : Bool :=
  imShelves (v.ofImage 2 (v.imageOf rank)) ≤ (shelvesOf (s.ctx c).mask).length &&
    (planGranules (v.memPlan rank)).all fun n => !granuleTaken s n && (s.granule n).scrubbed

/-- BIND at a spare: it takes the plan's granules under a new memory key and accepts, or refuses. -/
def bind (s : State) (c : Nat) : State :=
  match takeMail s c 4 with
  | (s1, none) => s1
  | (s1, some k) =>
    let x := s1.ctx c
    let answer (s : State) (ok : Nat) : State :=
      sendCtrl (s.modLed c fun l => { l with seq := k.seq }) c k.src
        { typ := 5, seq := 0, src := 0, rank := k.rank, acc := s.fab.acc, arg := ok }
    match volumeOf s1 x.job with
    | none => answer s1 0
    | some v =>
      if x.st ≠ .standby || x.tear.isSome || s1.pins.resetRequested || !bindOk s1 c v k.rank then answer s1 0
      else
        let s2 := freshKey (assignGranules s1 c (planGranules (v.memPlan k.rank))) (.ctxMem c)
        answer (s2.modCtx c fun x => { x with rank := BitVec.ofNat 14 k.rank, st := .creating }) 1

/-- BIND_ACK at the coordinator: REBIND to every rank and the spare, or the next spare is tried. For a rank that was
dropped only the spare is told, and the rank joins at a commit boundary (R422). -/
def bindAck (s : State) (c : Nat) : State :=
  match takeMail s c 5 with
  | (s1, none) => s1
  | (s1, some k) =>
    let x := s1.ctx c
    match x.led.recovery with
    | none => s1
    | some v =>
      if v.offered ≠ some k.acc then s1
      else if k.arg ≠ 1 then
        bindNext (s1.modLed c fun l => { l with recovery := some { v with tried := v.tried ++ [k.acc], offered := none } }) c
      else
        let r : Ctrl := { typ := 6, seq := x.led.seq, src := x.rank.toNat, rank := k.rank, acc := k.acc, step := x.led.lastSealed.toNat }
        let s2 := s1.modLed c fun l => { l with recovery := some { v with unbound := v.unbound.drop 1, tried := [], offered := none } }
        if v.rejoin then
          sendCtrlTo (s2.modLed c fun l => { l with joining := some (k.rank, k.acc), joinReady := false, recovery := none }) c k.acc r
        else bindNext (sendCtrlTo (sendAll s2 c r) c k.acc r) c

/-! ### REBIND (10 R410 steps 3 and 4, R398; 09 R371) -/

/-- An accession number takes a rank: connections to the old one close, and partners are chosen again for the objects
whose owner or partner has changed. -/
def replaceRank (s : State) (c r acc : Nat) : State :=
  let x := s.ctx c
  let s1 := match rankAcc x r with
    | some old => if old = acc then s else closePeer s old
    | none => s
  let s2 := s1.modLed c fun l => { l with
    ranks := l.ranks.set r acc
    former := match rankAcc x r with | some old => if old = acc then l.former else l.former ++ [old] | none => l.former }
  ((List.range (planObjects x.plan)).filter fun i =>
    objOwner x.plan i = r || tget x.led.partners i = some r || (objIsReplica x.plan i && objReplicaRank x.plan i = r)).foldl
    (fun s i => chooseFor s c i) s2

/-- The answer of a rank to its coordinator (10 R413): ARG 0, or a cause. -/
def sendRestored (s : State) (c arg : Nat) : State :=
  let x := s.ctx c
  sendCtrl s c (x.led.heard.getD (coordinatorOf s c))
    { typ := 7, seq := 0, src := 0, rank := x.rank.toNat, step := x.led.lastSealed.toNat, arg := arg }

/-- A context's image is placed before a restore; `none` where the loader refuses it. -/
def loadForRestore (s : State) (c : Nat) (v : Volume) (stripes : Tbl (List Nat)) : Option State :=
  let image := v.imageOf (s.ctx c).rank.toNat
  let L := loadInput s c image stripes true
  match loadRefusal s c L with
  | some _ => none
  | none => some (settleLoads ((placeImage s c L).modLed c fun l => { l with restoring := true }))

/-- A load that lost a core before its context was LOADED is refused with CORE_RETIRED (12 R489): the context stays IDLE, its
LOAD ends, a spare answers its coordinator, and a recreation reports its rank lost (12 R480). -/
def cancelLoad (s : State) (c : Nat) : State :=
  let x := s.ctx c
  if x.st ≠ .idle || x.loading || x.image.isNone then s
  else
    let s1 := (flushCredits s (unloadNow s c)).modTaken fun t =>
      if t.op = 4 && t.ctx = c && t.running && t.result.isNone then { t with result := some (.refused .coreRetired) } else t
    if !x.led.restoring then s1
    else
      let s2 := s1.modLed c fun _ => { x.led with restoring := false }
      if x.standby then sendRestored s2 c 8 else report s2 c 1 x.rank.toNat 0

/-- Every load that is over ends. -/
def cancelLoads (s : State) : State := (List.range nCtx).foldl cancelLoad s

/-- The spare's image is placed once its ledger has its granules; else the coordinator is told the cause. -/
def spareImage (s : State) (c : Nat) (v : Volume) (stripes : Tbl (List Nat)) : Option State → State
  | none => sendRestored s c 0xB
  | some s1 => (loadForRestore s1 c v stripes).getD (sendRestored s1 c 8)

/-- The spare loads the rank: its CONST data, its ledger's granules, its image. -/
def spareLoad (s : State) (c : Nat) (stripes : Tbl (List Nat)) : State :=
  let x := s.ctx c
  match volumeOf s x.job with
  | none => sendRestored s c 8
  | some v =>
    let ds := dataSections v (v.imageOf x.rank.toNat) true
    let s0 := s.modLed c fun l => { l with queues := v.queuesOf x.rank.toNat }
    let s1 := ds.foldl (fun s d => writeData s d.addr d.data) (choosePartners s0 c)
    spareImage s1 c v stripes (reserveLedger s1 c)

/-- REBIND at a rank or at the spare. -/
def rebind (s : State) (c : Nat) (stripes : Tbl (List Nat)) : State :=
  match takeMail s c 6 with
  | (s1, none) => s1
  | (s1, some k) =>
    match heed s1 c k with
    | (s2, false) => s2
    | (s2, true) =>
      let s3 := (replaceRank s2 c k.rank k.acc).modLed c fun l => { l with rebinds := l.rebinds + 1, rebound := true }
      let x := s3.ctx c
      if k.acc = s3.fab.acc && x.standby && x.rank.toNat = k.rank && x.st = .creating then
        spareLoad (s3.modLed c fun l => { l with
          st := .recovering, lastSealed := BitVec.ofNat 32 k.step, hasSealed := true, sealedSlot := 0, adopting := true }) c stripes
      else s3

/-! ### Restores (10 R412, R413) -/

/-- A shard header from its layer entry, with T (08 Table 8.3, 10 R390). -/
def shardHeader (x : Ctx) (states : Nat) (e : LayerEnt) (t : BitVec 32) : BitVec 1024 :=
  BitVec.ofNat 1024 (packFields [(t.toNat, 32), (e.layer, 16), (boolNat (log32Masters x.options), 1), (states, 2), (0, 13),
    (e.firstRow, 20), (e.shardRows, 20), (e.cols, 20)])

/-- The shard headers of every layer that a restored object covers, with T = T_C. -/
def rebuildHeaders (s : State) (c : Nat) : State :=
  let x := s.ctx c
  (updateLayers s c).foldl (fun s e =>
    let core := s.core e.1
    let states := ((tget core.upd.tables.coefs e.2.2.layer).map coefStates).getD 0
    writeWord s (e.2.2.shard / 128) (shardHeader x states e.2.2 (tgetD x.tC e.2.2.layer 0)) false) s

/-- The first of several byte strings with a digest; with how many before it did not match. -/
def firstMatch (d : BitVec 256) (n : Nat) : List Blob → Option Blob × Nat
  | [] => (none, 0)
  | b :: t =>
    if b.len = n && sm3 b = d then (some b, 0)
    else
      let r := firstMatch d n t
      (r.1, r.2 + 1)

/-- The rank's parity image as the holders' parities and the other members' images give it (10 R400, R412). `parity` is P,
then Q; an empty one has no source. A dropped member counts as zero. -/
def ownImage' (x : Ctx) (record : Blob) (images : Tbl Blob) (parity : List Blob) : Option Blob :=
  let r := x.rank.toNat
  (groupOf x.plan r).bind fun g =>
    let ms := groupMembers x.plan g
    let has (b : Blob) : Option Blob := if b.len = 0 then none else some b
    let len := max (((parity.headD Blob.empty).len)) ((parity.getD 1 Blob.empty).len)
    if sumBytes x.plan (recordImage x.plan record r) ≤ len then
      solveParity len ms.length (ms.findIdx (· = r))
        (fun i => let q := ms.getD i 0; if x.led.dropped.contains q then some Blob.empty else tget images q)
        (has (parity.headD Blob.empty)) (has (parity.getD 1 Blob.empty))
    else none

/-- Where an object stands in the rank's parity image. -/
def fromImage (x : Ctx) (record : Blob) (image : Option Blob) (i : Nat) : List Blob :=
  let os := recordImage x.plan record x.rank.toNat
  match image with
  | some b => if os.contains i then [b.slice (sumBytes x.plan (os.takeWhile (· ≠ i))) (objBytes x.plan i)] else []
  | none => []

/-- One object is restored from the first source that matches the record: a survivor's own slot, then what other devices
hold. The slot of C_s keeps it. The answer says whether some source matched. -/
def restoreObject (s : State) (c : Nat) (record : Blob) (own : Bool) (image : Option Blob) (data : Tbl (List Blob)) (i : Nat) :
    State × Bool :=
  let x := s.ctx c
  let n := objBytes x.plan i
  match recordObject record i with
  | none => (s, false)
  | some (d, _) =>
    let slot := x.led.sealedSlot
    let mine := if own && !ledgerPoisoned s x.job (ownOff x slot i) n then [ledgerRead s x.job (ownOff x slot i) n] else []
    let r := firstMatch d n (mine ++ fromImage x record image i ++ tgetD data i [])
    let s1 := s.modLed c fun l => { l with mismatches := l.mismatches + BitVec.ofNat 32 r.2 }
    match r.1 with
    | none => (s1, false)
    | some b => (ledgerWrite (memWrite s1 (objAddr x.plan i) b) x.job (ownOff x slot i) b, true)

/-- The per-layer steps of a record. -/
def recordSteps (x : Ctx) (record : Blob) : Tbl (BitVec 32) :=
  (objectsOf x.plan x.rank.toNat).foldl (fun t i =>
    match recordObject record i with
    | some (_, v) => if objLayer x.plan i = 0xFFFF then t else tset t (objLayer x.plan i) v
    | none => t) x.tC

/-- The commit record in the rank's own slot of C_s. -/
def ownRecord' (s : State) (c : Nat) : Blob :=
  let x := s.ctx c
  let at' := recordOff x x.led.sealedSlot
  let h := ledgerRead s x.job at' 64
  ledgerRead s x.job at' (64 + 48 * h.bits 80 16 + 8 * h.bits 96 10 + 32)

/-- A record is that of a rank for C_s. -/
def recordFor (x : Ctx) (b : Blob) : Bool :=
  recordValid b && b.bits 0 32 = x.job.toNat && b.bits 32 32 = x.led.lastSealed.toNat && b.bits 64 14 = x.rank.toNat

/-- What the spare takes over of the lost rank's other roles: partner copies, and parity from the members' images. -/
def takeRoles (s : State) (c : Nat) (copies : Tbl Blob) (images : Tbl Blob) : State :=
  let x := s.ctx c
  let slot := x.led.sealedSlot
  let s1 := (partnerObjects x x.rank.toNat).foldl (fun s i =>
    match tget copies i with
    | some b => if b.len = objBytes x.plan i then ledgerWrite s x.job (copyOff x slot i) b else s
    | none => s) s
  (heldParity x.plan x.rank.toNat).foldl (fun s h =>
    ledgerWrite s x.job (parityOff x slot h)
      (parityOf h.2 (parityLen x h.1) ((groupMembers x.plan h.1).map fun r => tgetD images r Blob.empty))) s1

/-- Every object of the rank is restored and verified, and RESTORED goes out. -/
def restoreAll (s : State) (c : Nat) (record : Option Blob) (data : Tbl (List Blob)) (copies images : Tbl Blob)
    (parity : List Blob) : State :=
  let x := s.ctx c
  let own := record.isNone
  let rec' := record.getD (ownRecord' s c)
  if !recordFor x rec' then sendRestored s c 8
  else
    let s1 := s.modCtx c fun x => { x with tC := recordSteps x rec' }
    let r := (objectsOf x.plan x.rank.toNat).foldl (fun (st : State × Bool) i =>
      let o := restoreObject st.1 c rec' own (ownImage' x rec' images parity) data i
      (o.1, st.2 && o.2)) (s1, true)
    if !r.2 then sendRestored r.1 c 8
    else
      let s2 := rebuildHeaders r.1 c
      let s3 := if own then s2
        else takeRoles (ledgerWrite s2 x.job (recordOff x x.led.sealedSlot) rec') c copies images
      sendRestored s3 c 0

/-- A torn-down rank is created again from its volume and loaded (10 R409, 11 R446), its step block cleared (08 R338); `none` while a granule awaits its
fill. A load that is refused leaves the context IDLE, and the rank is reported LOST (12 R480). -/
def recreate (s : State) (c : Nat) : Option State :=
  let x := s.ctx c
  let giveUp (s : State) : State := report (s.modLed c fun l => { l with restoring := false }) c 1 x.rank.toNat 0
  match volumeOf s x.job with
  | none => some (giveUp s)
  | some v =>
    if (shelvesOf x.mask).any fun sh => (shelfOwner s sh).any (· ≠ c) then some (giveUp (abandonCreate s c))
    else
      match buildContext (s.modCtx c fun x => { x with st := .creating, step := {} }) c v x.rank.toNat true with
      | none => none
      | some (.error _) => some (giveUp (abandonCreate s c))
      | some (.ok s1) =>
        let s2 := match x.entry with | some e => stampEntry s1 e | none => s1
        let s3 := s2.modCtx c fun x => { x with st := .idle }
        some ((loadForRestore s3 c v x.led.stripes).getD ((shelvesOf x.mask).foldl rebindShelf (giveUp s3)))

/-- RESTORE_DONE: a rank that is halted and loaded restores itself; one that was torn down is recreated first. A spare is
given the record, the objects, the parities with the other members' images, and what the lost rank held for others, as other
devices sent them. -/
def restoreDone (s : State) (c : Nat) (record : Blob) (data : Tbl (List Blob)) (copies images : Tbl Blob) (parity : List Blob) :
    State :=
  let x := s.ctx c
  if x.led.st ≠ .recovering || x.tear.isSome then s
  else
    match x.st with
    | .free => (recreate s c).getD s
    | .loaded =>
      restoreAll s c (if x.led.adopting then some record else none) data copies images parity
    | _ => s

/-- RESTORED at the coordinator: once every live rank has answered 0, RESUME; another answer halts the job. From the spare of a
rank that is to rejoin it says that the rank is ready (R422). -/
def restored (s : State) (c : Nat) : State :=
  match takeMail s c 7 with
  | (s1, none) => s1
  | (s1, some k) =>
    let x := s1.ctx c
    match x.led.recovery with
    | none => match x.led.joining with
      | some (r, _) =>
        if k.src ≠ r then s1
        else s1.modLed c fun l => if k.arg = 0 then { l with joinReady := true } else { l with joining := none }
      | none => s1
    | some v =>
      if v.rejoin then s1
      else if k.arg ≠ 0 then haltJob (s1.modLed c fun l => { l with recovery := none }) c 8
      else
        let v' := { v with answers := tset v.answers k.src k.arg }
        let s2 := s1.modLed c fun l => { l with recovery := some v' }
        if v'.unbound.isEmpty && (liveRanks x).all fun r => (tget v'.answers r).isSome then
          sendAll (s2.modLed c fun l => { l with recovery := none, coordinator := false }) c
            { typ := 8, seq := 0, src := 0, step := x.led.lastSealed.toNat }
        else s2

/-! ### RESUME (10 R414 to R416) -/

/-- The monitor takes its state from a record. -/
def loadMonitor (s : State) (c : Nat) (record : Blob) : State :=
  match monitorCore s c with
  | none => s
  | some n => s.modCore n fun k => { k with loss := { k.loss with
      monitorN := BitVec.ofNat 32 (record.bits 128 32), monitorMean := BitVec.ofNat 32 (record.bits 160 32)
      monitorM2 := BitVec.ofNat 32 (record.bits 192 32), monitorVar := BitVec.ofNat 32 (record.bits 224 32) } }

/-- EXPECT_T of each layer from T_C (08 R316). -/
def loadExpectT (s : State) (c : Nat) : State :=
  let x := s.ctx c
  (updateLayers s c).foldl (fun s e => modUpd s e.1 fun u => { u with
    expectT := tset u.expectT e.2.1 (tgetD x.tC e.2.2.layer 0) }) s

/-- Queues of the image reopen. -/
def reopenQueues (s : State) (c : Nat) : State :=
  let x := s.ctx c
  match x.image, volumeOf s x.job with
  | some im, some v =>
    (namedQueues im).foldl (fun s n =>
      match queueFor im (v.ofImage 8 (v.imageOf x.rank.toNat)) n with
      | some d => openQueue s c (n / 256) (n % 256) d
      | none => s) s
  | _, _ => s

/-- The stages of a context start afresh, its step begins at a step number, and its streams are checked again. -/
def restartAt (s : State) (c : Nat) (step : BitVec 32) (record : Blob) : State :=
  let s1 := (coresOf s c).foldl (fun s n => s.modCore n fun k => { k with stage := freshStage k.stage }) s
  let s2 := s1.modCtx c fun x => { x with step := { x.step with jobStep := step } }
  sendChecks (reopenQueues (loadMonitor (loadExpectT (newStep s2 c) c) c record) c) c

/-- RESUME: the job goes on from C_s. A recovery without a REBIND was a local one. -/
def resume (s : State) (c : Nat) : State :=
  match takeMail s c 8 with
  | (s1, none) => s1
  | (s1, some k) =>
    match heed s1 c k with
    | (s2, false) => s2
    | (s2, true) =>
      let x := s2.ctx c
      if x.led.st ≠ .recovering || x.st ≠ .loaded then s2
      else
        let record := ownRecord' s2 c
        let s3 := restartAt s2 c (BitVec.ofNat 32 k.step) record
        let s4 := s3.modLed c fun l => { l with
          st := .running, restoring := false, adopting := false, resumeStep := BitVec.ofNat 32 k.step, retries := l.retries + 1
          resume := recordQueues record, localRollbacks := l.localRollbacks + (if l.rebound then 0 else 1), noSpare := false }
        ctxEvent s4 c .resumed (BitVec.ofNat 32 k.step)

/-! ### Elastic drops and rejoins (10 R421, R422) -/

/-- DROP: the rank's leaves leave every tree; the coordinator then offers the rank to a spare. -/
def drop (s : State) (c : Nat) : State :=
  match takeMail s c 9 with
  | (s1, none) => s1
  | (s1, some k) =>
    match heed s1 c k with
    | (s2, false) => s2
    | (s2, true) =>
      let x := s2.ctx c
      if x.led.dropped.contains k.rank then s2
      else
        let s3 := s2.modLed c fun l => { l with
          dropped := l.dropped ++ [k.rank], drops := l.drops + 1, elasticDrops := l.elasticDrops + 1, elasticDegraded := true }
        if k.src = x.rank.toNat && x.led.recovery.isNone then
          bindNext (s3.modLed c fun l => { l with recovery := some { unbound := [k.rank], faulted := [], rejoin := true } }) c
        else s3

/-- JOIN: the rank takes part again from step STEP on. The rejoining device itself starts there. -/
def join (s : State) (c : Nat) : State :=
  match takeMail s c 0xB with
  | (s1, none) => s1
  | (s1, some k) =>
    match heed s1 c k with
    | (s2, false) => s2
    | (s2, true) =>
      let s3 := (replaceRank s2 c k.rank k.acc).modLed c fun l =>
        let left := l.dropped.filter (· ≠ k.rank)
        { l with dropped := left, elasticDegraded := !left.isEmpty, elasticJoins := l.elasticJoins + 1 }
      let x := s3.ctx c
      if k.acc = s3.fab.acc && x.led.st = .recovering && x.st = .loaded then
        (restartAt s3 c (BitVec.ofNat 32 k.step) (ownRecord' s3 c)).modLed c fun l =>
          { l with st := .running, restoring := false, adopting := false }
      else s3

/-! ### Former devices (10 R417, R418) -/

/-- RELEASE at a former device. -/
def releaseRecord (s : State) (job : BitVec 32) : State :=
  let mailed : Option Nat := (List.range nCtx).find? fun c => (s.ctx c).job = job && (s.ctx c).led.mail.any fun k => k.typ = 0xA
  if s.ledger.releaseMail.contains job then
    releaseLedger { s with ledger := { s.ledger with releaseMail := s.ledger.releaseMail.erase job } } job
  else
    match mailed with
    | some c => releaseLedger (s.modLed c fun l => { l with mail := l.mail.filter fun k => k.typ ≠ 0xA }) job
    | none => s

/-- What a coordinator does when link-state records reach DONE: a choice of spare that found none is repeated, and a
former device is told to release. -/
def recordsDone (s : State) (accs : List Nat) : State :=
  (List.range nCtx).foldl (fun s c =>
    let x := s.ctx c
    let back := if x.led.coordinator || coordinatorOf s c = x.rank.toNat then x.led.former.filter fun a => accs.contains a else []
    let s1 := back.foldl (fun s a => sendCtrlTo (s.modLed c fun l => { l with former := l.former.filter (· ≠ a) }) c a
      { typ := 0xA, seq := (s.ctx c).led.seq, src := (s.ctx c).rank.toNat }) s
    if x.led.noSpare && !accs.isEmpty && x.led.recovery.isSome then
      let s2 := bindNext s1 c
      if (s2.ctx c).led.noSpare then s1
      else s2.modLed c fun l => { l with st := if l.st = .halted then .recovering else l.st, haltCause := if l.st = .halted then 0 else l.haltCause }
    else s1) s

/-- The accession numbers whose records are DONE after a change and were not before. -/
def newlyDone (before after : State) : List Nat :=
  (after.fab.lsdb.filter fun e => recDone e.2 && !((tget before.fab.lsdb e.1).map fun r => recDone r && recAcc r = recAcc e.2).getD false).map
    fun e => recAcc e.2

/-- What follows from new records: contexts of a device that has lost its accession number see the device lost (09
R357), and coordinators are told of records that are DONE. -/
def afterRecords (before after : State) : State :=
  let lostAcc : Bool := before.fab.accSt = .done && after.fab.accSt ≠ .done
  let s1 := if lostAcc then
      (List.range nCtx).foldl (fun s c =>
        let x := s.ctx c
        if x.led.st = .none || x.led.st = .standby then s else report s c 1 x.rank.toNat 0) after
    else after
  recordsDone s1 (newlyDone before s1)

end Sys2Proof.Machine
end

