-- ==== Sys2Proof/Machine/Boot.lean ====
section
/-!
DEFINITION. Resets of the dies and bring-up (12 R457 to R473, R477, R481; 13 R491, R492; 16 R572): what a reset leaves,
the phases, the warm decision, the ledger directory, self-tests, the yield maps and the end of phase 8.
-/

namespace Sys2Proof.Machine

/-! ### Resets -/

/-- The granule table before the directory is read: the system region, the retention granule, and every other granule
unscrubbed (06 R222, R239). -/
def granulesUnscrubbed (gib : Nat) : Tbl Granule :=
  (List.range nGranules).map fun n =>
    (n, { Granule.reset with
      system := n < 16 * gib, retain := n = 4608, filling := 16 * gib ≤ n && n ≠ 4608 })

/-- The granule table that reset leaves: SYSTEM is set at bring-up, RETAIN stands (06 Table 6.12). -/
def granulesAtReset : Tbl Granule := [(4608, { Granule.reset with retain := true })]

/-- A CXL port through a reset: its buffer keeps self-refresh while the input is present, and WRITES_LOST shows the
writes that were outstanding (06 R236, R237). -/
def cxlAtReset (s : State) (supply : Bool) (p : Nat) : Cxl :=
  let x := s.cxl p
  { Cxl.reset with
    st := if supply then .selfRefresh else .down
    held := supply && (x.held || x.st = .failed)
    writesLost := if supply && x.st = .selfRefresh then x.writesLost else 0 }

/-- The writes in flight at the CXL ports as a reset strikes: each is kept or not, by a free value. -/
def settleWrites (s : State) : State :=
  (List.range 4).foldl (fun s p => if (s.cxl p).st = .up || (s.cxl p).st = .training then cxlReset s p true else s) s

/-- What a reset of the dies leaves: the fuses, the imprint, the Metering Unit, the pins, and, while the input is
present, the contents of the CXL tier with the warm record. A region half written is to be written again (16 R584). -/
def dieReset (s : State) (supply : Bool) : State :=
  let s1 := settleWrites s
  let cxl := (List.range 4).map fun p => (p, cxlAtReset s1 supply p)
  let m := s1.mem.mem
  let kept : Mem := if supply then
    ⟨m.cells.filter fun c => tierOf c.1 = .cxl, m.poison.filter fun w => tierOf (128 * w) = .cxl⟩ else ⟨[], []⟩
  { ({} : State) with
    variant := s1.variant, mu := s1.mu, imprint := { s1.imprint with writes := [] }
    pins := { s1.pins with diesInReset := true, resetRequested := false, thermAlertN := !s1.pins.tripLatched }
    sec := { serial := s1.sec.serial, siliconRev := s1.sec.siliconRev, lifecycle := s1.sec.lifecycle
             debugLocked := s1.sec.debugLocked, minSvn := s1.sec.minSvn, chain := s1.sec.chain
             identity := s1.sec.identity, publicKey := s1.sec.publicKey }
    mem := { MemSys.reset with mem := kept, cxl := cxl, granules := granulesAtReset }
    power := { nextCause := s1.power.nextCause }
    bring := { warmRec := if supply then s1.bring.warmRec else none }
    freeCtr := s1.freeCtr, pending := s1.pending }

/-- What holds the dies in reset: no input in range, MOD_RESET_N low, a trip (16 R572 to R574). -/
def diesHeld (s : State) : Bool := !s.pins.inRange || !s.pins.modResetN || s.pins.tripLatched

/-- A bring-up begins (12 R457, R460): phase 1 with its wave 0; the cause of the last reset shows (13 R492). -/
def beginBringup (s : State) : State :=
  let s1 := { s with
    pins := { s.pins with diesInReset := false }
    power := { s.power with resetCause := s.power.nextCause, govCeiling := fusedClock s.variant
                            thermal := [(0, fusedClock s.variant), (1, fusedClock s.variant)] } }
  holdPcie (startWave (s1.modBring fun b => { b with phase := 1 }) 0 (waveDomains 0) false)

/-- BRINGUP_START: the reset is released with the input in range, and no bring-up has begun since. -/
def bringupStart (s : State) : State :=
  if diesHeld s || (!s.pins.diesInReset && s.bring.phase ≠ 0) then s else beginBringup s

/-- The end of a phase: its DC0 count, and the next phase. -/
def endPhase (s : State) (p : Nat) (cycles : BitVec 48) (next : BitVec 4) : State :=
  s.modBring fun b => { b with phase := next, phaseEnd := tset b.phaseEnd p cycles }

/-- A phase is under way. -/
def inPhase (s : State) (p : BitVec 4) : Bool := s.bring.phase = p && !s.bring.halted && !s.pins.diesInReset

/-- PHASE_INPUT_END: the boot ROM runs. -/
def phaseInputEnd (s : State) (cycles : BitVec 48) : State := if inPhase s 1 then endPhase s 1 cycles 2 else s

/-! ### Phase 2 (12 R461 to R465) -/

/-- Colophons that fail as the imprint is read: the copies of the two-copy records and the factory folio. -/
def imprintFailures (s : State) : Nat :=
  let i := s.imprint
  ([i.boot0.valid, i.boot1.valid, i.factoryValid, i.calValid, i.wear0.valid, i.wear1.valid, i.owner0.valid, i.owner1.valid].filter
    fun v => !v).length

/-- The folios are verified and the firmware runs: defaults, wear ledger, fabric folio and registers from the imprint,
and wave 1 once wave 0 has settled. -/
def firmwareRuns (s : State) (slotB fallback rolled : Bool) : State :=
  let s1 := s.modBring fun b => { b with
    slotB := slotB, slotFallback := fallback, fwRolledBack := rolled, wearReset := !wearValid s
    recal := s.imprint.recalPending }
  let s2 := takeFolio (applyLayer s1)
  let w := wearFolio s2
  let s3 := { s2 with
    power := { s2.power with
      systemGib := s2.default 2, wear := if wearValid s2 then w.islands else []
      sinceBase := w.measurements, baseEpoch := w.baselineEpoch }
    mem := { s2.mem with interleave := s2.default 3 = 1, systemGranules := BitVec.ofNat 10 (16 * s2.default 2) }
    host := { s2.host with live := true, epoch := (bootFolio s2).epoch } }
  wantKey (wantKey s3 .identity) .memDev

/-- PHASE_IMPRINT_END (12 R461 to R464): the boot ROM reads the imprint; a failure halts in phase 2, else EPOCH rises and
the firmware runs. -/
def phaseImprintEnd (s : State) (cycles : BitVec 48) : State :=
  if !inPhase s 2 then s
  else
    let s0 := s.modSec fun x => { x with colophonFailures := x.colophonFailures + BitVec.ofNat 32 (imprintFailures s) }
    if !s.imprint.boot0.valid && !s.imprint.boot1.valid then halt' s0 1
    else
      let (f, rolled) := bootChoice (bootFolio s)
      let fallback := !slotBoots s f.slotB
      let slot := if fallback then !f.slotB else f.slotB
      if !slotBoots s slot then halt' s0 2
      else if !s.imprint.factoryValid then halt' s0 3
      else if !s.imprint.calValid then halt' s0 4
      else
        let s1 := writeBoot s0 { f with epoch := f.epoch + 1 }
        let s2 := endPhase (firmwareRuns s1 slot fallback rolled) 2 cycles 3
        let s3 := if s2.bring.wave.isNone then startWave s2 1 (waveDomains 1) false else s2
        hostStatus s s3

/-! ### Phase 3 (12 R458, R470; 06 R239) -/

/-- The CXL ports train: a buffer that held self-refresh keeps its contents; a port that fails is FAILED (06 R240). -/
def trainCxl (s : State) (trained retained : BitVec 4) : State :=
  let s1 := (List.range 4).foldl (fun s p => s.modCxl p fun x => { x with
    st := if trained.getLsbD p then .up else .failed
    retained := trained.getLsbD p && retained.getLsbD p && x.held
    held := false }) s
  -- a buffer that did not hold self-refresh leaves no directory and no warm record
  if (s1.cxl 0).retained && (s1.cxl 1).retained then s1
  else (s1.setMem (s1.mem.mem.zeroRange (granuleBase 4608) (granuleBase 4609))).modBring fun b => { b with warmRec := none }

/-- The warm decision; `digestOk`: the warm record passes its digest. A recalibration is cold (13 R505). -/
def warmStart (s : State) (digestOk : Bool) : Bool :=
  match s.bring.warmRec with
  | none => false
  | some w =>
    digestOk && !s.bring.recal && ((List.range 4).all fun p => (s.cxl p).retained) &&
      w.epoch + 1 = s.host.epoch && w.complete && w.calDigest = s.imprint.calDigest

/-- Sites that a warm restart excludes keep their cause (12 R472). -/
def excluded (s : State) : Tbl Site :=
  match s.bring.warmRec with
  | none => []
  | some w => (w.sites.filter fun p => p.2.failed).map fun p =>
      (p.1, { ({} : Site) with cause := p.2.cause, failed := true, fwFailures := p.2.fwFailures })

/-- The directory is taken: its granules and its jobs (06 R239, 10 R405). -/
def takeDirectory (s : State) : State :=
  match (if s.mem.mem.cells.isEmpty then none else directoryTake s) with
  | none => s
  | some (copy, gen, es) =>
    let s1 := es.foldl (fun s e =>
      if bits e 0 1 = 0 then
        s.modGranule (bits e 48 14) fun g => { g with
          assigned := true, ledger := true, job := bits e 16 32, scrubbed := false, filling := false }
      else putJob s ⟨BitVec.ofNat 32 (bits e 16 32), bits e 62 14, bits e 76 1, BitVec.ofNat 32 (bits e 96 32)⟩) s
    { s1 with ledger := { s1.ledger with valid := true, copy := copy, generation := BitVec.ofNat 32 gen } }

/-- PHASE_MEMORY_END: the CXL links train, the warm decision is made, the directory is read, the HBM stacks train; one
that fails halts the bring-up. It ends once wave 1 has settled and every stack is ready. -/
def phaseMemoryEnd (s : State) (cycles : BitVec 48) (trained retained : BitVec 4) (warmOk : Bool) (hbmReady : BitVec 8) :
    State :=
  if !inPhase s 3 || s.bring.wave.isSome || s.bring.lastWave ≠ 1 then s
  else
    let s1 := trainCxl s trained retained
    let warm := warmStart s1 warmOk
    let s2 := s1.modBring fun b => { b with warm := warm, sites := if warm then excluded s1 else b.sites }
    let s3 := takeDirectory (s2.modMemSys fun m => { m with granules := granulesUnscrubbed s.power.systemGib })
    let s4 := (List.range 4).foldl (fun s p => if (s.cxl p).st = .failed then loseGranules s p else s) s3
    let s5 := (List.range 8).foldl (fun s k => s.modHbm k fun h => { h with
      st := if hbmReady.getLsbD k then .ready else .failed }) s4
    if hbmReady ≠ 0xFF then halt' s5 6
    else startWave (endPhase s5 3 cycles 4) 2 (waveDomains 2) false

/-- PHASE_WAVES_END: wave 8 has settled. -/
def phaseWavesEnd (s : State) (cycles : BitVec 48) : State :=
  if inPhase s 4 && s.bring.wave.isNone && s.bring.lastWave = 8 then endPhase s 4 cycles 5 else s

/-! ### Phase 5 (12 R471, R472) -/

/-- Every site of a woken shelf has been tested or has failed: the wake ends (13 R497). -/
def wakeTested (s : State) (sh : Nat) : State :=
  let ok : Bool := (List.range 13).all fun t => (s.site (sh * 13 + t)).failed || (s.site (sh * 13 + t)).tested
  if s.bring.wakes.contains sh && (tget s.bring.fwNext sh).isSome && ok then
    s.modBring fun b => { b with wakes := b.wakes.filter (· ≠ sh), fwNext := terase b.fwNext sh }
  else s

/-- A site's own test fails it with a cause; its failed direct link fails the next site of its shelf. -/
def testSite (s : State) (i : Nat) (cause : BitVec 4) (direct : Bool) : State :=
  let s1 := s.modSite i fun x => { x with tested := true }
  let s2 := if cause = 0 then s1 else failSite s1 i cause
  if direct && i % 13 < 12 then failSite s2 (i + 1) 4 else s2

/-- A site takes a test now: in phase 5, or after the core firmware of a wake has started. -/
def testsRun (s : State) (i : Nat) : Bool :=
  !(s.site i).failed && !(s.site i).tested &&
    (inPhase s 5 || (s.bring.wakes.contains (i / 13) && (s.site i).running))

/-- SELF_TEST_RESULT of a site (islands 0 to 155), a shelf island (156 to 167) or a media complex (188, 189). -/
def selfTestResult (s : State) (unit' : Nat) (cause : BitVec 4) (direct : Bool) : State :=
  if unit' < 156 then
    if testsRun s unit' then wakeTested (testSite s unit' cause direct) (unit' / 13) else s
  else if unit' < 168 then
    if inPhase s 5 && !s.bring.shelfTested.contains (unit' - 156) then
      let sh := unit' - 156
      let s1 := s.modBring fun b => { b with shelfTested := setInsert b.shelfTested sh }
      if cause = 0 then s1 else (List.range 13).foldl (fun s t => failSite s (sh * 13 + t) cause) s1
    else s
  else if unit' = 188 || unit' = 189 then
    let x := unit' - 188
    if inPhase s 5 && cause ≠ 0 then
      switchOff (s.modBring fun b => { b with mediaFailed := setInsert b.mediaFailed x }) [decodeDomain x, streamsDomain x]
    else s
  else s

def allTested (s : State) : Bool :=
  ((List.range nSites).all fun i => (s.site i).failed || (s.site i).tested) &&
    (List.range 12).all fun sh => s.bring.shelfTested.contains sh || s.bring.domainFailed.getLsbD (shelfDomain sh)

/-- A rewritten calibration folio has a digest that the specification does not state: a free value. -/
def rewriteCal (s : State) : State :=
  let (d, s1) := s.free 256
  { s1 with imprint := { s1.imprint with calDigest := d } }

/-- The new calibration set of a recalibration (13 R505): `clocks` is the highest clock that the new V/F tables allow an
island. -/
def recalibrated (s : State) (clocks : Tbl Nat) : State :=
  let s1 := rewriteCal s
  { s1 with imprint := { s1.imprint with
      calClock := clocks, calOwner := true, recalCount := s1.imprint.recalCount + 1, recalPending := false
      baselineEmpty := true } }

/-- PHASE_SELF_TEST_END: every site and shelf island has a result; a recalibration writes its set. -/
def phaseSelfTestEnd (s : State) (cycles : BitVec 48) (clocks : Tbl Nat) : State :=
  if inPhase s 5 && allTested s then
    endPhase (if s.bring.recal then recalibrated s clocks else s) 5 cycles 6
  else s

/-! ### Ageing and re-planning (13 R499 to R507; 12 R473, R481) -/

def State.wear (s : State) (i : Nat) : Wear := tgetD s.power.wear i {}
def State.modWear (s : State) (i : Nat) (f : Wear → Wear) : State :=
  { s with power := { s.power with wear := tset s.power.wear i (f (s.wear i)) } }

/-- Core sites and shelf islands: the islands whose clock is not fixed (01 R49). -/
def clocked (i : Nat) : Bool := i < 168

/-- The clock of R481: the highest that the calibration, the fused maximum and the owner's ceiling allow. -/
def planClock (s : State) (i : Nat) : Nat :=
  if clocked i then
    min (min (tgetD s.imprint.calClock i (fusedClock s.variant)) (fusedClock s.variant)) (s.default 1) / 100 * 100
  else 0

/-- CLK starts at the clock of R481, lowered by 100 MHz for every step taken by clock (R501). -/
def startClocks (s : State) : State :=
  (List.range 193).foldl (fun s i => s.modWear i fun w => { w with clk := BitVec.ofNat 16 (planClock s i - 100 * w.lowered) }) s

/-- `replan` of R501 for one island. `oks` answers, crossing by crossing, whether the calibration folio's tables allow
the raise: vf_ok and power_ok. LEVEL is 8 bits and never decreases: at 255 the loop ends (DESIGN CHOICE, log entry 54). -/
def replan (i sd : Nat) : Nat → List Bool → State → State
  | 0, _, s => s
  | n + 1, oks, s =>
    let w := s.wear i
    if sd < (w.level.toNat + 1) * s.default 8 || w.level = 255 then s
    else
      let s1 := s.modWear i fun w => { w with level := w.level + 1 }
      if w.guard.toNat + 5 ≤ s.default 9 && oks.headD false then
        replan i sd n oks.tail { (s1.modWear i fun w => { w with guard := w.guard + 5 }) with
          power := { (s1.modWear i fun w => { w with guard := w.guard + 5 }).power with
            guardRaises := s1.power.guardRaises + 1 } }
      else if clocked i && s.default 10 + 100 ≤ w.clk.toNat then
        let s2 := s1.modWear i fun w => { w with clk := w.clk - 100, lowered := w.lowered + 1 }
        replan i sd n oks.tail { s2 with power := { s2.power with clockLowered := s2.power.clockLowered + 1 } }
      else if i < 156 then failSite s1 i 6
      else replan i sd n oks.tail (s1.modWear i fun w => { w with ageingLimit := true })

/-- An island is measured: its domain is on and not waking (13 R499, R515). -/
def measured (s : State) (i : Nat) : Bool := i < 193 && islandOn s i && domainSettled s (islandDomain i)

/-- The results of one measurement: the slowdown of each island measured, then its re-plan. -/
def replanAll (s : State) (results : Tbl (BitVec 16 × List Bool)) : State :=
  results.foldl (fun s r =>
    if measured s r.1 then
      replan r.1 r.2.1.toNat 256 r.2.2 (s.modWear r.1 fun w => { w with s := r.2.1 })
    else s) s

/-- The baseline is taken (13 R504): every entry starts again and the calibration folio is rewritten. -/
def takeBaseline (s : State) : State :=
  let s1 := rewriteCal { s with
    imprint := { s.imprint with baselineEmpty := false }
    power := { s.power with sinceBase := 0, baseEpoch := s.host.epoch } }
  (List.range 193).foldl (fun s i => s.modWear i fun _ => { ({} : Wear) with clk := BitVec.ofNat 16 (planClock s i) }) s1

def countMeasurement (s : State) : State :=
  { s with power := { s.power with
      measurements := s.power.measurements + 1, sinceBase := s.power.sinceBase + 1, sinceWrite := s.power.sinceWrite + 1
      measuring := false } }

/-- PHASE_AGEING_END: every island is measured, the baseline taken or the margins re-planned, the wear ledger written; the
core firmware is then distributed to every shelf (12 R473, R474). -/
def phaseAgeingEnd (s : State) (cycles : BitVec 48) (results : Tbl (BitVec 16 × List Bool)) : State :=
  if !inPhase s 6 then s
  else
    let s1 := countMeasurement s
    let s2 := if s.imprint.baselineEmpty || s.bring.wearReset then takeBaseline s1 else replanAll (startClocks s1) results
    (List.range 12).foldl startDistribution (endPhase (writeWear s2) 6 cycles 7)

/-- The entries of the wear ledger but for the measured slowdowns. -/
def planEntries (s : State) : List (Nat × Wear) := s.power.wear.map fun p => (p.1, { p.2 with s := 0 })

/-- MEASUREMENT_DONE (13 R499, R501, R502). -/
def measurementDone (s : State) (results : Tbl (BitVec 16 × List Bool)) : State :=
  if !s.power.measuring then s
  else
    let s1 := replanAll (countMeasurement s) results
    if planEntries s1 ≠ planEntries s || 1024 ≤ s1.power.sinceWrite then writeWear s1 else s1

/-- A commit point starts a measurement, unless one is running (13 R499). -/
def startMeasurement (s : State) : State := { s with power := { s.power with measuring := true } }

/-! ### Phase 7 (12 R474 to R477) -/

/-- The blocks of the core firmware image of the slot that runs (12 R474). -/
def fwBlocks (s : State) : Nat := min (fwSlot s s.bring.slotB).facts.blocks 32

/-- Every site of a shelf has reported VERIFIED or has failed. -/
def shelfReported (s : State) (sh : Nat) : Bool :=
  (List.range 13).all fun t => (s.site (sh * 13 + t)).failed || (s.site (sh * 13 + t)).verified

/-- The verified cores of a shelf start on the firmware. -/
def startCores (s : State) (sh : Nat) : State :=
  (List.range 13).foldl (fun s t => s.modSite (sh * 13 + t) fun x => if x.failed then x else { x with running := true }) s

/-- The firmware starts: on every shelf at once in phase 7, on a woken shelf by itself (12 R476, 13 R497). -/
def firmwareSettle (s : State) : State :=
  if inPhase s 7 then
    if (List.range 12).all (shelfReported s) then
      ((List.range 12).foldl startCores s).modBring fun b => { b with fwNext := [] }
    else s
  else
    s.bring.wakes.foldl (fun s sh =>
      if (tget s.bring.fwNext sh).isSome && shelfReported s sh then wakeTested (startCores s sh) sh else s) s

/-- A site fails with cause FIRMWARE. -/
def firmwareFail (s : State) (i : Nat) : State :=
  firmwareSettle ((failSite s i 5).modBring fun b => { b with fwSiteFails := b.fwSiteFails + 1 })

/-- A distribution reaches a site: its shelf has one under way, and it has neither failed nor reported. -/
def distributing (s : State) (i : Nat) : Bool :=
  (tget s.bring.fwNext (i / 13)).isSome && !(s.site i).failed && !(s.site i).verified

/-- NAKs of a core for blocks. -/
def sendNaks (s : State) (i : Nat) (bs : List Nat) : State :=
  (s.modSite i fun x => { x with naks := x.naks ++ bs }).modBring fun b =>
    { b with fwNaks := b.fwNaks + BitVec.ofNat 32 bs.length }

/-- A block of the multicast reaches a core: one NAK for each block missed, one for a block that fails its digest. -/
def multicastBlock (s : State) (i b : Nat) (ok : Bool) : State :=
  let x := s.site i
  let sent := tgetD s.bring.fwNext (i / 13) 0
  if b < x.next || sent < b || fwBlocks s ≤ b then s
  else
    let s1 := if b = sent then s.modBring fun r => { r with fwNext := tset r.fwNext (i / 13) (b + 1) } else s
    let missed := (List.range (b - x.next)).map (x.next + ·)
    let s2 := s1.modSite i fun x => { x with next := b + 1, blocks := if ok then setInsert x.blocks b else x.blocks }
    sendNaks s2 i (missed ++ if ok then [] else [b])

/-- A unicast copy reaches a core: one that fails its digest is a failure, and the third fails the site. -/
def unicastBlock (s : State) (i b : Nat) (ok : Bool) : State :=
  let x := s.site i
  if !x.unicasts.contains b then s
  else
    let s1 := s.modSite i fun x => { x with unicasts := x.unicasts.erase b }
    if ok then s1.modSite i fun x => { x with blocks := setInsert x.blocks b }
    else
      let s2 := s1.modSite i fun x => { x with fwFailures := x.fwFailures + 1 }
      if x.fwFailures = 2 then firmwareFail s2 i else sendNaks s2 i [b]

/-- FW_BLOCK (12 R475). -/
def fwBlock (s : State) (i b : Nat) (ok unicast : Bool) : State :=
  if !distributing s i then s else if unicast then unicastBlock s i b ok else multicastBlock s i b ok

/-- FW_NAK: the shelf controller queues a unicast copy of a block that it has already multicast. -/
def fwNak (s : State) (i b : Nat) : State :=
  if !distributing s i || !(s.site i).naks.contains b then s
  else
    let s1 := s.modSite i fun x => { x with naks := x.naks.erase b }
    if b < tgetD s.bring.fwNext (i / 13) 0 then
      (s1.modSite i fun x => { x with unicasts := x.unicasts ++ [b] }).modBring fun r =>
        { r with fwUnicasts := r.fwUnicasts + 1 }
    else s1

/-- The block that a core expects next: the next of the multicast, or, once it has ended, the lowest not held. -/
def expectedBlock (s : State) (i : Nat) : Option Nat :=
  let x := s.site i
  if x.next < fwBlocks s then some x.next else (List.range (fwBlocks s)).find? fun b => !x.blocks.contains b

/-- FW_NAK_TIMEOUT: a core that has received nothing sends a NAK. -/
def fwNakTimeout (s : State) (i : Nat) : State :=
  if !distributing s i then s
  else
    match expectedBlock s i with
    | some b => sendNaks s i [b]
    | none => s

/-- FW_VERIFIED: a core that holds every block checks the whole-image digest (12 R476). -/
def fwVerified (s : State) (i : Nat) (ok : Bool) : State :=
  if !distributing s i || (s.site i).blocks.length ≠ fwBlocks s then s
  else if ok then firmwareSettle (s.modSite i fun x => { x with verified := true })
  else firmwareFail s i

/-- CORE_CHECK (12 R478): a parity error fails a site that runs. -/
def coreCheck (s : State) (i : Nat) : State :=
  if (s.site i).failed || !domainOn s (siteDomain i) || s.bring.phase.toNat < 7 then s
  else (fun s => (List.range 12).foldl wakeTested s) (firmwareSettle (failSite s i 8))

/-- The device claims its number (09 R356): the proposal of its folio, or a provisional one. -/
def claim (s : State) : State :=
  if s.fab.folio.isNone then s
  else
    let p := folioBits s 32 16
    let up : Bool := linkNumbers.any fun h => (s.link h).isUp
    if p = 0 || 0xFF00 ≤ p then claimProvisional (s.modFab fun x => { x with accInvalid := true })
    else checkConflict (refreshOwn (s.modFab fun x => { x with acc := p, accSt := .claiming, flooded := up }))

/-- PHASE_YIELD_END: the firmware runs on every shelf; the maps and the warm record are written, and the device claims its
number. -/
def phaseYieldEnd (s : State) (cycles : BitVec 48) : State :=
  if inPhase s 7 && s.bring.fwNext.isEmpty && (List.range 12).all (shelfReported s) then
    let s1 := (List.range 12).foldl (fun s sh => s.modShelf sh (yieldMap (goodSites s sh))) s
    claim (writeWarm (endPhase s1 7 cycles 8) false)
  else s

/-! ### Phase 8 (12 R462, R466; 14 R519) -/

/-- The trial slot that has booted is confirmed. -/
def confirmTrial (s : State) : State :=
  let f := bootFolio s
  if f.trial && f.trialStarted && f.slotB = s.bring.slotB then
    let p := (fwSlot s f.slotB).facts
    let s1 := writeBoot s { f with trial := false, trialStarted := false }
    if p.burnSvn then s1.modSec fun x => { x with minSvn := max x.minSvn p.svn } else s1
  else s

/-- PHASE_ACCESSION_END: at fabric-ready, or at once where every link is off, BUSY clears. -/
def phaseAccessionEnd (s : State) (cycles : BitVec 48) : State :=
  if inPhase s 8 && (fabricReady s || allLinksOff s) then
    let s1 := writeWarm (confirmTrial (endPhase s 8 cycles 0xF)) true
    hostStatus s (s1.modHost fun h => { h with busy := false })
  else s

/-- LIMIT_EXCEEDED (12 R459): never in a recalibrating bring-up (13 R505). -/
def limitExceeded (s : State) : State :=
  if s.bring.phase ≠ 0 && s.bring.phase ≠ 0xF && !s.bring.halted && !s.bring.recal then
    s.modBring fun b => { b with limitExceeded := true }
  else s

end Sys2Proof.Machine
end

