-- ==== Sys2Proof/Machine/Power.lean ====
section
/-!
DEFINITION. The power governor and the thermal ceilings (13 R493 to R495), run-time gating of domains (13 R496), the
Metering Unit (13 R511 to R514, 16 R582) and the pins (13 R491, 16 R564, R565, R571 to R574).
-/

namespace Sys2Proof.Machine

/-! ### Resets asked for by the regulator (13 R491, R492) -/

/-- Input that keeps the standby rail and the CXL buffers (16 R571, Table 16.9). -/
def supplied (mv : BitVec 32) : Bool := 36000 ≤ mv.toNat

/-- The operating range of R491. -/
def inRangeMv (mv : BitVec 32) : Bool := 44000 ≤ mv.toNat && mv.toNat ≤ 59500

/-- DC0 commands every CXL buffer into self-refresh and sends LEAVING on every Verhel link. -/
def warnDies (s : State) : State :=
  let s1 := settleWrites s
  linkNumbers.foldl (fun s h => if (s.link h).isUp then s.modLink h fun l => { l with leaving := 64 } else s) s1

/-- A controlled reset with its cause: LEAVING fills 64 flit slots of every Verhel link, and the dies go into reset; the flit
that each link sent last stays as it was (09 R351). -/
def controlledReset (s : State) (cause : BitVec 4) (supply : Bool) : State :=
  let s1 := if s.pins.diesInReset then s else linkNumbers.foldl leaveLink (settleWrites s)
  let s2 := dieReset { s1 with power := { s1.power with nextCause := cause } } supply
  linkNumbers.foldl (fun t h => if (s1.link h).out.isSome then t.modLink h fun l => { l with out := (s1.link h).out } else t) s2

/-! ### The governor and the thermal ceilings (13 R493, R494) -/

/-- The effective power limit. -/
def powerLimit (s : State) : Nat := s.default 0

/-- The highest governor ceiling: the fused maximum, or the owner's ceiling where it is lower. -/
def ceilingTop (s : State) : Nat := s.default 1 / 100 * 100

/-- One evaluation of the governor. -/
def governorStep (s : State) (watts : Nat) : State :=
  let p := s.power
  let limit := powerLimit s
  let ceil := min p.govCeiling (ceilingTop s)
  let p1 : Power :=
    if limit < watts then
      if 1100 ≤ ceil then { p with govCeiling := ceil - 100, govStepsDown := p.govStepsDown + 1, govBelow := 0 }
      else { p with govCeiling := ceil, powerUnmet := true, govBelow := 0 }
    else
      let below := if 100 * watts < 95 * limit then p.govBelow + 1 else 0
      { p with
        govCeiling := if below = 16 then min (ceil + 100) (ceilingTop s) else ceil
        govBelow := if below = 16 then 0 else below, powerUnmet := false }
  { s with power := p1 }

/-- The temperature of an island in °C. -/
def islandTemp (s : State) (i : Nat) : Int := (tgetD s.power.temps i 0).toInt

/-- The islands of a die. -/
def dieIslands (d : Nat) : List Nat := (List.range 193).filter fun i => islandDie i = d

/-- One evaluation of a die's thermal ceiling. -/
def thermalStep (s : State) (d : Nat) : State :=
  let throttle : Int := s.default 7
  let hot : Bool := (dieIslands d).any fun i => throttle ≤ islandTemp s i
  let cool : Bool := (dieIslands d).all fun i => islandTemp s i + 5 ≤ throttle
  let top := fusedClock s.variant
  let ceil := tgetD s.power.thermal d top
  let below := tgetD s.power.thermalBelow d 0 + 1
  let p := s.power
  let p1 : Power :=
    if hot then { p with
      thermal := tset p.thermal d (max 1000 (ceil - 100)), thermalBelow := tset p.thermalBelow d 0
      thermalSteps := p.thermalSteps + 1 }
    else if cool && below = 16 then { p with
      thermal := tset p.thermal d (min top (ceil + 100)), thermalBelow := tset p.thermalBelow d 0 }
    else { p with thermalBelow := tset p.thermalBelow d (if cool then below else 0) }
  { s with power := p1 }

/-- GOVERNOR_EVALUATION: the measured input, the temperatures read, both ceilings, the alert pin, and the trip. -/
def governorEvaluation (s : State) (watts : BitVec 32) (mv : BitVec 32) (temps : Tbl (BitVec 8)) : State :=
  if s.pins.diesInReset || s.bring.phase.toNat < 3 then s
  else
    let s1 := { s with power := { s.power with
      inputPowerW := watts, inputMv := mv
      temps := temps.foldl (fun t (e : Nat × BitVec 8) => if e.1 < 193 then tset t e.1 e.2 else t) s.power.temps } }
    if (List.range 193).any fun i => 115 ≤ islandTemp s1 i then
      controlledReset { s1 with pins := { s1.pins with tripLatched := true } } 4 true
    else
      let s2 := thermalStep (thermalStep (governorStep s1 watts.toNat) 0) 1
      let hot : Bool := (List.range 193).any fun i => (s.default 7 : Int) ≤ islandTemp s2 i
      { s2 with pins := { s2.pins with thermAlertN := !hot } }

/-! ### Gating (13 R496) -/

/-- Domains are switched off at run time, and each is counted. -/
def gate (s : State) (ds : List Nat) : State :=
  let on := ds.filter (domainOn s)
  { switchOff s on with power := { s.power with domainGatings := s.power.domainGatings + BitVec.ofNat 32 on.length } }

/-- The core groups of a shelf lose their control stores with their supply. -/
def gateShelf (s : State) (sh : Nat) : State :=
  (List.range 13).foldl (fun s t => s.modSite (sh * 13 + t) fun x => { x with
    running := false, verified := false, blocks := [], next := 0, naks := [], unicasts := [] }) (gate s (coreDomains sh))

/-- An open queue of a complex, a video or image queue where `decode`. -/
def queueOpen (s : State) (x : Nat) (decode : Bool) : Bool :=
  (s.complex x).queues.any fun q => q.2.st ≠ .closed && (!decode || qModality q.2.desc ≤ 1)

/-- DOMAIN_IDLE_TIMEOUT: the core groups of shelf `u` below 12; else the decode domain of complex `u − 12` or the streams
domain of complex `u − 14`. -/
def domainIdleTimeout (s : State) (u : Nat) : State :=
  if s.bring.phase ≠ 0xF || s.default 5 = 0 then s
  else if u < 12 then
    if (shelfOwner s u).isSome || s.bring.wakes.contains u || (s.bring.spareTests.any fun c => c / 12 = u) then s
    else gateShelf s u
  else if u < 14 then (if queueOpen s (u - 12) true then s else gate s [decodeDomain (u - 12)])
  else if queueOpen s (u - 14) false then s
  else gate s [streamsDomain (u - 14)]

/-! ### The Metering Unit (13 R511 to R514; 16 R582) -/

/-- The record as MU_TX sends it: 5Ah, A5h, the fields of Table 13.8, and the check. -/
def muBytes (r : MuRec) : Blob :=
  let status := boolNat r.inputPresent * 16 + boolNat r.inClass * 8 + boolNat r.selfCheckOk * 4 + boolNat r.sealIntact * 2 + 1
  let fields : Blob := ⟨68, packFields [(r.seq.toNat, 32), (status, 32), (r.energyMj.toNat, 64), (r.powerMw.toNat, 32),
    (r.voltageMv.toNat, 32), (r.inputLosses.toNat, 32), (r.fwVersion.toNat, 32), (r.fwDigest.toNat, 256), (r.seq.toNat, 32)]⟩
  Blob.append (Blob.append (Blob.ofBytes [0x5A, 0xA5]) fields) ⟨2, checkPlain crc16 fields⟩

/-- MU_RECORD: the energy, mean power and mean voltage of the interval, and the self-check; the record reaches the window
and MU_TX. -/
def muRecord (s : State) (energy : BitVec 32) (powerMw voltageMv : BitVec 32) (selfCheckOk : Bool) : State :=
  if !s.mu.powered then s
  else
    let m := s.mu
    let inClass : Bool := inRangeMv voltageMv && 25000 ≤ powerMw.toNat && powerMw.toNat ≤ 2700000
    let r : MuRec :=
      { seq := m.seq + 1, sealIntact := m.sealIntact, selfCheckOk := selfCheckOk, inClass := inClass
        inputPresent := supplied voltageMv, energyMj := m.energyMj + energy.setWidth 64, powerMw := powerMw
        voltageMv := voltageMv, inputLosses := m.inputLosses, fwVersion := m.fwVersion, fwDigest := m.fwDigest }
    { s with mu := { m with
        seq := r.seq, energyMj := r.energyMj, present := true, window := r, tx := muBytes r, sent := m.sent + 1 } }

/-- MU_INPUT_LOSS: the totals are committed on hold-up energy. -/
def muInputLoss (s : State) : State :=
  if !s.mu.powered then s else { s with mu := { s.mu with committed := some s.mu.energyMj, powered := false } }

/-- MU_INPUT_RETURN: the MU resumes from its committed totals and counts the loss. -/
def muInputReturn (s : State) : State :=
  if s.mu.powered then s
  else
    let loss : BitVec 32 := if s.mu.committed.isSome then 1 else 0
    { s with mu := { s.mu with
        powered := true, energyMj := s.mu.committed.getD s.mu.energyMj, committed := none
        inputLosses := s.mu.inputLosses + loss } }

/-- MU_RECORD_TIMEOUT: PRESENT reads 0 and the window holds the last record. -/
def muRecordTimeout (s : State) : State := { s with mu := { s.mu with present := false } }

def muSealOpen (s : State) : State := { s with mu := { s.mu with sealIntact := false } }
def muReseal (s : State) : State := { s with mu := { s.mu with sealIntact := true } }

/-- MU_FIRMWARE_LOAD: MU_RX is ignored while the seal is intact; `ok` is the MU's own check of the image. -/
def muFirmwareLoad (s : State) (ok : Bool) (version : BitVec 32) (digest : BitVec 256) : State :=
  if s.mu.sealIntact || !ok || !s.mu.powered then s
  else { s with mu := { s.mu with fwVersion := version, fwDigest := digest } }

/-! ### Pins (16 R565, R571 to R574) -/

/-- MODULE_INSERTION: the module is seated; the dies are held in reset, and the MU runs from its own feed. -/
def moduleInsertion (s : State) (mv : BitVec 32) : State :=
  if s.pins.inserted then s
  else
    let s1 := { s with
      pins := { s.pins with inserted := true, pwrGood := false, diesInReset := true }
      power := { s.power with inputMv := mv, nextCause := 0 } }
    if supplied mv then muInputReturn s1 else s1

/-- INPUT_SETTLED: 20 ms in range: PWR_GOOD, and the dies are released unless the pin or a trip holds them. -/
def inputSettled (s : State) : State :=
  if !s.pins.inserted then s
  else
    let s1 := { s with pins := { s.pins with pwrGood := true, inRange := true } }
    if diesHeld s1 then s1 else { s1 with pins := { s1.pins with diesInReset := false } }

/-- INPUT_OUT_OF_RANGE: PWR_GOOD falls, DC0 is warned and the dies go into reset. -/
def inputOutOfRange (s : State) (mv : BitVec 32) : State :=
  if inRangeMv mv || !s.pins.inserted then s
  else
    let s1 := { s with pins := { s.pins with inRange := false, pwrGood := false } }
    controlledReset s1 (if mv.toNat < 44000 then 2 else 3) (supplied mv)

/-- REGULATOR_FAULT: PWR_GOOD falls. -/
def regulatorFault (s : State) : State := { s with pins := { s.pins with pwrGood := false } }

/-- MOD_RESET_ASSERT: a low of 2 µs or more; DC0 is warned, and the dies will be put in reset. -/
def modResetAssert (s : State) : State :=
  let s1 := { s with
    pins := { s.pins with modResetN := false, resetRequested := true }, power := { s.power with nextCause := 1 } }
  if s.pins.diesInReset then s1 else warnDies s1

/-- The dies leave reset once nothing holds them, and a bring-up begins. -/
def releaseDies (s : State) : State := if diesHeld s || !s.pins.diesInReset then s else beginBringup s

/-- RESET_DEADLINE: 100 µs after the falling edge the dies are put in reset. -/
def resetDeadline (s : State) : State :=
  if !s.pins.resetRequested then s
  else
    releaseDies (if s.pins.diesInReset then { s with pins := { s.pins with resetRequested := false } } else dieReset s true)

/-- MOD_RESET_RELEASE: the pin rises; a bring-up starts unless the input or a trip holds the dies. -/
def modResetRelease (s : State) : State := releaseDies { s with pins := { s.pins with modResetN := true } }

/-- TRIP_RELEASE: the cold plate has cooled; the latch and the reset are released. -/
def tripRelease (s : State) : State :=
  if !s.pins.tripLatched then s
  else releaseDies { s with pins := { s.pins with tripLatched := false, thermAlertN := true } }

end Sys2Proof.Machine
end

