-- ==== Sys2Proof/Machine/Mgmt.lean ====
section
/-!
DEFINITION. The management interface (16 R575 to R581): messages and statuses, which operations a state serves, the
imprint's regions, REBUILD_BOOT, and the common commands of the bus.
-/

namespace Sys2Proof.Machine

def State.modMgmt (s : State) (f : Mgmt → Mgmt) : State := { s with mgmt := f s.mgmt }

/-! ### Messages (16 R576, Table 16.6) -/

/-- A message: header, payload and the check of ALG 4h. -/
def mgmtMessage (opcode tag status : Nat) (payload : Blob) : Blob :=
  let m := Blob.append ⟨4, packFields [(opcode, 8), (tag, 8), (status, 8), (0, 8)]⟩ payload
  Blob.append m ⟨2, checkPlain crc16 m⟩

def reqOpcode (r : Blob) : Nat := r.byte 0
def reqTag (r : Blob) : Nat := r.byte 1
def reqPayload (r : Blob) : Blob := r.slice 4 (r.len - 6)

/-- The check of a request holds. -/
def reqIntact (r : Blob) : Bool :=
  6 ≤ r.len && r.len ≤ 4102 && r.bits (8 * (r.len - 2)) 16 = checkPlain crc16 (r.slice 0 (r.len - 2))

/-- Who serves the port: nobody, the boot ROM, or the firmware (16 R578). -/
inductive MgmtMode where
  | off | rom | firmware
  deriving DecidableEq, Repr

def mgmtMode (s : State) : MgmtMode :=
  if s.pins.diesInReset || s.bring.phase = 0 || s.bring.phase = 1 then .off
  else if s.bring.phase = 2 then .rom
  else .firmware

/-- A response is ready: it replaces any not yet read, and an in-band interrupt carries TAG where the bus has I3C
addresses and interrupts are enabled. -/
def respond (s : State) (opcode tag status : Nat) (payload : Blob) : State :=
  s.modMgmt fun m => { m with
    opcode := opcode, tag := tag, waiting := false, response := some (mgmtMessage opcode tag status payload)
    interrupts := if m.dyn.isSome && m.events then m.interrupts ++ [tag] else m.interrupts }

/-- A request of an operation: no answer where nobody serves the port; BAD_FRAME; BAD_OPCODE where the operation is not
the request's own or is not served; else the operation, which gives a status and a payload. `rom` says that the boot ROM
serves it. -/
def request (s : State) (r : Blob) (opcode : Nat) (rom : Bool) (lenOk : Nat → Bool)
    (op : State → Blob → State × Nat × Blob) : State :=
  match mgmtMode s with
  | .off => s
  | m =>
    let say (status : Nat) : State := respond s (reqOpcode r) (reqTag r) status Blob.empty
    if !reqIntact r then say 1
    else if reqOpcode r ≠ opcode || (m = .rom && !rom) then say 2
    else if !lenOk (r.len - 6) then say 1
    else
      let (s1, status, payload) := op s (reqPayload r)
      respond s1 opcode (reqTag r) status payload

/-- An operation that answers with a status alone. -/
def statusOnly (p : State × Nat) : State × Nat × Blob := (p.1, p.2, Blob.empty)

/-- MANAGEMENT_RESPONSE_READ: the response, or PENDING. -/
def managementResponseRead (s : State) : State :=
  if mgmtMode s = .off then s
  else s.modMgmt fun m => { m with
    answers := m.answers ++ [m.response.getD (mgmtMessage m.opcode m.tag 0xFF Blob.empty)], response := none }

/-! ### Regions of the imprint (16 R580) -/

def okStatus : Nat := 0
def notNow : Nat := 3
def badRegion : Nat := 4
def busyStatus : Nat := 5
def verifyFailed : Nat := 6

/-- The slot that a region names. -/
def regionSlot (region : Nat) : Bool := region = 2

def regionBytes (region : Nat) : Nat := if region ≤ 2 then 120 * 2 ^ 20 else 65536

/-- A halt with a FAIL_CODE. -/
def haltedWith (s : State) (code : BitVec 8) : Bool := s.bring.halted && s.bring.failCode = code

/-- The slot that is active: the one that has booted; none while neither boot folio copy verifies. -/
def slotActive (s : State) (b : Bool) : Bool :=
  (s.imprint.boot0.valid || s.imprint.boot1.valid) &&
    b = (if s.bring.phase.toNat < 3 then (bootFolio s).slotB else s.bring.slotB)

/-- A campaign holds the inactive slot: RECEIVING, VERIFIED or COMPLETE. -/
def campaignRuns (s : State) : Bool := 1 ≤ s.bring.campaign.state.toNat && s.bring.campaign.state.toNat ≤ 3

/-- Why a region does not take a write. -/
def regionRefusal (s : State) (region : Nat) : Option Nat :=
  if region = 0 || 4 < region then some badRegion
  else if 2 < region || haltedWith s 2 then none
  else if slotActive s (regionSlot region) then some badRegion
  else if (bootFolio s).trial then some notNow
  else if campaignRuns s then some busyStatus
  else none

/-- The boot ROM serves the slots alone (16 R578). -/
def romRegion (s : State) (region : Nat) : Bool := mgmtMode s = .rom && region ≠ 1 && region ≠ 2

/-- A write at OFFSET 0 erases: a slot, or the staging area that regions 03h and 04h share. -/
def eraseRegion (s : State) (region : Nat) : State :=
  if region ≤ 2 then setSlot s (regionSlot region) {}
  else { s with imprint := { s.imprint with writes := terase s.imprint.writes (7 - region) } }

/-- IMPRINT_WRITE. -/
def imprintWriteOp (s : State) (p : Blob) : State × Nat :=
  let region := p.byte 0
  let off := p.bits 32 32
  let d := p.slice 8 (p.len - 8)
  match regionRefusal s region with
  | some e => (s, e)
  | none =>
    let old := if off = 0 then some Blob.empty else tget s.imprint.writes region
    match old with
    | none => (s, badRegion)
    | some b =>
      if off ≠ b.len || regionBytes region < off + d.len then (s, badRegion)
      else
        let s1 := if off = 0 then eraseRegion s region else s
        let b' := Blob.append b d
        let s2 := if region ≤ 2 then setSlot s1 (regionSlot region) { data := b' } else s1
        ({ s2 with imprint := { s2.imprint with writes := tset s2.imprint.writes region b' } }, okStatus)

def imprintWrite (s : State) (r : Blob) : State :=
  request s r 4 true (fun n => 8 ≤ n && n ≤ 4096) fun s p =>
    statusOnly (if romRegion s (p.byte 0) then (s, 2) else imprintWriteOp s p)

/-- The colophon of a firmware package (14 Table 14.2); `sigOk`: its certificate chains to the root and its signature
verifies. -/
def packageFits (s : State) (b : Blob) (sigOk : Bool) : Bool := sigOk && colophonFits s b 8 true && recColophon b 0 8 = 3

/-- The owner's replacement of a record needs a higher SEQUENCE (14 R524). -/
def newerRecord (old : Option Blob) (b : Blob) : Bool :=
  match old with
  | none => true
  | some o => recColophon b 0 8 ≠ 2 || recSequence o < recSequence b

/-- IMPRINT_COMMIT; `facts` is what a package says of itself. -/
def imprintCommitOp (s : State) (p : Blob) (sigOk : Bool) (facts : PkgFacts) : State × Nat :=
  let region := p.byte 0
  match tget s.imprint.writes region with
  | none => (s, badRegion)
  | some b =>
    let done (s : State) : State := { s with imprint := { s.imprint with writes := terase s.imprint.writes region } }
    let signed : Bool := b.len ≠ 0 && (recColophon b 0 8 = 0 || sigOk)
    if region ≤ 2 then
      if packageFits s b sigOk then
        (done (setSlot s (regionSlot region) { data := b, valid := true, facts := facts, digest := recDigest b }), okStatus)
      else (countColophon s false, verifyFailed)
    else if region = 3 then
      if signed && colophonFits s b 5 false && ownerSigned s b true && newerRecord s.imprint.fabric b then
        ({ done s with imprint := { (done s).imprint with fabric := some b } }, okStatus)
      else (countColophon s false, verifyFailed)
    else if signed && colophonFits s b 6 false && ownerSigned s b false && newerRecord s.imprint.ownerLayer b then
      (applyLayer { done s with imprint := { (done s).imprint with ownerLayer := some b } }, okStatus)
    else (countColophon s false, verifyFailed)

def imprintCommit (s : State) (r : Blob) (sigOk : Bool) (facts : PkgFacts) : State :=
  request s r 5 true (fun n => n = 1) fun s p =>
    statusOnly (if romRegion s (p.byte 0) then (s, 2) else imprintCommitOp s p sigOk facts)

/-- REBUILD_BOOT (16 R581). -/
def rebuildBootOp (s : State) : State × Nat :=
  if haltedWith s 1 && s.imprint.factoryValid then
    let epoch : BitVec 32 := if wearValid s then (wearFolio s).epoch + 65536 else 0x80000000
    let f : BootFolio := { valid := true, generation := 1, slotB := !s.imprint.slotA.valid, epoch := epoch }
    ({ s with imprint := { s.imprint with boot0 := f, boot1 := { f with generation := 2 } } }, okStatus)
  else (s, notNow)

def rebuildBoot (s : State) (r : Blob) : State :=
  request s r 9 true (fun n => n = 0) fun s _ => statusOnly (rebuildBootOp s)

/-! ### The bus (16 R575) -/

/-- The static address: 58h + (ADDR_SEL1 × 2 + ADDR_SEL0). -/
def staticAddress (s : State) : Nat := 0x58 + 2 * boolNat s.pins.addrSel1 + boolNat s.pins.addrSel0

/-- The port answers the bus. -/
def busServed (s : State) : Bool := mgmtMode s ≠ .off

/-- SETDASA: a dynamic address from the static one. -/
def setdasa (s : State) (static dyn : BitVec 7) : State :=
  if busServed s && static.toNat = staticAddress s && s.mgmt.dyn.isNone then s.modMgmt fun m => { m with dyn := some dyn } else s

/-- ENTDAA: a target without a dynamic address is given one. -/
def entdaa (s : State) (dyn : BitVec 7) : State :=
  if busServed s && s.mgmt.dyn.isNone then s.modMgmt fun m => { m with dyn := some dyn } else s

def rstdaa (s : State) : State := if busServed s then s.modMgmt fun m => { m with dyn := none } else s

def setnewda (s : State) (dyn : BitVec 7) : State :=
  if busServed s && s.mgmt.dyn.isSome then s.modMgmt fun m => { m with dyn := some dyn } else s

def busAnswer (s : State) (b : Blob) : State :=
  if busServed s && s.mgmt.dyn.isSome then s.modMgmt fun m => { m with answers := m.answers ++ [b] } else s

/-- GETPID: the provisional ID holds the low 32 bits of SERIAL. -/
def getpid (s : State) : State := busAnswer s ⟨6, (Config.pidHigh ++ s.sec.serial.setWidth 32).toNat⟩
def getbcr (s : State) : State := busAnswer s ⟨1, Config.bcr.toNat⟩
def getdcr (s : State) : State := busAnswer s ⟨1, Config.dcr.toNat⟩

/-- GETSTATUS: the specification does not state the status: a free value. -/
def getstatus (s : State) : State :=
  if busServed s && s.mgmt.dyn.isSome then
    let (v, s1) := s.free 16
    busAnswer s1 ⟨2, v.toNat⟩
  else s

/-- ENEC and DISEC: bit 0 of the mask names the in-band interrupts. -/
def enec (s : State) (mask : BitVec 8) : State :=
  if busServed s && mask.getLsbD 0 then s.modMgmt fun m => { m with events := true } else s
def disec (s : State) (mask : BitVec 8) : State :=
  if busServed s && mask.getLsbD 0 then s.modMgmt fun m => { m with events := false } else s

end Sys2Proof.Machine
end

