-- ==== Sys2Proof/Machine/Campaign.lean ====
section
/-!
DEFINITION. Firmware campaigns (12 R482 to R486): the open record, the firmware context and its multicast session, the
check of a package, activation and abort.
-/

namespace Sys2Proof.Machine

/-! ### The open record (12 Table 12.6) -/

def cmpId (p : Blob) : BitVec 32 := BitVec.ofNat 32 (p.bits 0 32)
def cmpParent (p : Blob) : Option Nat := if p.bits 32 16 = 0xFFFF then none else some (p.bits 32 16)
def cmpNChild (p : Blob) : Nat := p.bits 48 4
def cmpChildren (p : Blob) : List Nat := (List.range (min (cmpNChild p) 8)).map fun c => p.bits (64 + 16 * c) 16
def cmpBytes (p : Blob) : Nat := p.bits 192 32
def cmpBudget (p : Blob) : Nat := 1024 * (if p.bits 224 32 = 0 then 8192 else p.bits 224 32)
def cmpDigest (p : Blob) : BitVec 256 := BitVec.ofNat 256 (p.bits 256 256)

/-- A record in the ranges of Table 12.6. -/
def cmpValid (p : Blob) : Bool := cmpId p ≠ 0 && cmpNChild p ≤ 8 && 0 < cmpBytes p && cmpBytes p ≤ 120 * 2 ^ 20

/-! ### The firmware context (12 R483) -/

/-- The highest-numbered FREE slot. -/
def freeCtxHigh (s : State) : Option Nat :=
  (List.range nCtx).reverse.find? fun c => (s.ctx c).st = .free && (s.ctx c).led.st = .none

/-- An HBM granule that a firmware context may take. -/
def granuleReady (s : State) (n : Nat) : Bool :=
  let g := s.granule n
  g.scrubbed && !g.assigned && !g.system && !g.retain && !g.lost

/-- The lowest-numbered granules, one after the other, that hold the package. -/
def packageGranules (s : State) (bytes : Nat) : Option (List Nat) :=
  let k := (bytes + 2 ^ 26 - 1) / 2 ^ 26
  ((List.range 4608).find? fun n => n + k ≤ 4608 && (List.range k).all fun i => granuleReady s (n + i)).map fun n =>
    (List.range k).map (n + ·)

/-- A member joins a campaign with a context and a session, where it has a slot and granules; else it is REFUSED. -/
def campaignJoin (s : State) (p : Blob) : Option Nat → Option (List Nat) → State
  | some c, some gs =>
    let s1 := gs.foldl (fun s n => s.modGranule n fun g => { g with assigned := true, context := BitVec.ofNat 4 c }) s
    let s2 := (freshKey s1 (.ctxMem c)).modCtx c fun x =>
      { ({} : Ctx) with st := .idle, job := cmpId p, lastEvent := x.lastEvent, teardowns := x.teardowns }
    let session : Session :=
      { job := cmpId p, number := 0, parent := cmpParent p, children := (cmpChildren p).map fun a => { acc := a }
        dest := granuleBase (gs.headD 0), length := cmpBytes p, budget := cmpBudget p, got := 0, verified := false }
    (s2.modFab fun f => { f with sessions := f.sessions ++ [session] }).modBring fun b => { b with
      campaign := { state := 1, slot := some c, id := cmpId p, record := BitVec.ofNat 512 p.val } }
  | _, _ => s.modBring fun b => { b with campaign := { state := 5, id := cmpId p, record := BitVec.ofNat 512 p.val } }

/-- CAMPAIGN_OPEN. A device in a trial takes no part. -/
def campaignOpenOp (s : State) (p : Blob) : State × Nat :=
  if !s.host.ready || campaignRuns s || !cmpValid p then (s, notNow)
  else if (tget s.imprint.writes (if s.bring.slotB then 1 else 2)).isSome then (s, busyStatus)
  else
    (campaignJoin s p (if (bootFolio s).trial then none else freeCtxHigh s) (packageGranules s (cmpBytes p)), okStatus)

def campaignOpen (s : State) (r : Blob) : State :=
  request s r 6 false (fun n => n = 64) fun s p => statusOnly (campaignOpenOp s p)

/-! ### The check of a package (12 R484, R485) -/

def campaignRecord (s : State) : Blob := ⟨64, s.bring.campaign.record.toNat⟩
def campaignSession (s : State) : Option Session := findSession s s.bring.campaign.id 0

/-- A member whose package has passed: VERIFIED; the origin COMPLETE once every child has sent DONE. -/
def campaignSettle (s : State) : State :=
  match campaignSession s with
  | none => s
  | some x =>
    if s.bring.campaign.state = 2 && x.parent.isNone && x.doneSent then
      s.modBring fun b => { b with campaign := { b.campaign with state := 3 } }
    else s

/-- A failed attempt: the package is borrowed again from the parent; the third leaves the member FAILED. -/
def campaignAgain (s : State) (x : Session) : State :=
  let n := s.bring.campaign.attempts + 1
  let s1 := s.modBring fun b => { b with campaign := { b.campaign with attempts := n, state := if n = 3 then 4 else 1 } }
  if n = 3 || x.parent.isNone then s1
  else startBorrow (putSession s1 { x with got := 0 }) x.job x.number 0

/-- CAMPAIGN_PACKAGE_CHECK: the origin reads the package from its inactive slot; another member holds its whole copy and
programs it into its own. `sigOk` is the outcome of the colophon's signature and certificate, `backOk` that of reading the
slot back, `facts` what the package says of itself. -/
def campaignPackageCheck (s : State) (sigOk backOk : Bool) (facts : PkgFacts) : State :=
  match campaignSession s with
  | none => s
  | some x =>
    let rec' := campaignRecord s
    let inactive := !s.bring.slotB
    if s.bring.campaign.state ≠ 1 then s
    else
      let origin := x.parent.isNone
      if !origin && x.got < x.length then s
      else
        let b := if origin then (fwSlot s inactive).data.slice 0 x.length else memRead s x.dest x.length
        let good : Bool := packageFits s b sigOk && (sm3 b) = cmpDigest rec' &&
          (!origin || (fwSlot s inactive).data.len = x.length)
        let s1 := countColophon s (packageFits s b sigOk)
        if !good then campaignAgain s1 x
        else
          let s2 := if origin then memWrite s1 x.dest b
            else setSlot s1 inactive { data := b, valid := backOk, facts := facts, digest := recDigest b }
          if !backOk then campaignAgain s2 x
          else
            let s3 := putSession s2 { x with got := x.length, verified := true, borrowing := false }
            let s4 := s3.modBring fun r => { r with campaign := { r.campaign with state := 2 } }
            campaignSettle (tryDone (serveLoans x.job x.number (x.loans.length + 1) s4) x.job x.number)

/-! ### Activation and abort (12 R486) -/

/-- The firmware context is torn down. -/
def tearFirmware (s : State) : State :=
  match s.bring.campaign.slot with
  | none => s
  | some c =>
    if (s.ctx c).st = .free then s else s.modCtx c fun x => { x with tear := some ⟨.destroy false, false⟩ }

def campaignActivateOp (s : State) (p : Blob) : State × Nat :=
  if p.bits 0 32 ≠ s.bring.campaign.id.toNat then (s, notNow)
  else if s.bring.campaign.state ≠ 2 then (s, okStatus)
  else
    let s1 := writeBoot s { bootFolio s with
      slotB := !s.bring.slotB, trial := true, trialStarted := false, lastCampaign := s.bring.campaign.id }
    ((tearFirmware s1).modBring fun b => { b with campaign := { b.campaign with state := 6 } }, okStatus)

def campaignActivate (s : State) (r : Blob) : State :=
  request s r 7 false (fun n => n = 4) fun s p => statusOnly (campaignActivateOp s p)

/-- CAMPAIGN_ABORT: the context is torn down, the boot folio stands, and no campaign is under way. -/
def campaignAbortOp (s : State) (p : Blob) : State × Nat :=
  if p.bits 0 32 ≠ s.bring.campaign.id.toNat then (s, notNow)
  else
    let ended : Bool := s.bring.campaign.state = 6
    ((if ended then s else tearFirmware s).modBring fun b => { b with
      campaign := { b.campaign with state := if ended then 6 else 0 } }, okStatus)

def campaignAbort (s : State) (r : Blob) : State :=
  request s r 8 false (fun n => n = 4) fun s p => statusOnly (campaignAbortOp s p)

end Sys2Proof.Machine
end

