-- ==== Sys2Proof/Machine/Secure.lean ====
section
/-!
DEFINITION. Owner requests (14 R526 to R530, R546): their checks, enrolment, release, recalibration, and the attestation
report.
-/

namespace Sys2Proof.Machine

/-! ### Requests (14 Tables 14.3 to 14.5) -/

def ownType (p : Blob) : Nat := p.bits 0 8
def ownReserved (p : Blob) : Nat := p.bits 8 24
def ownSerialOf (p : Blob) : Nat := p.bits 32 64
def ownNonce (p : Blob) : BitVec 32 := BitVec.ofNat 32 (p.bits 96 32)
def ownPayload (p : Blob) (lo w : Nat) : Nat := p.bits (128 + lo) w

/-- Bits of PAYLOAD that a TYPE leaves unused; the model counts them as reserved bits, which BAD_FORMAT refuses (DESIGN CHOICE,
log entry 55). -/
def ownUnused (p : Blob) : Nat :=
  match ownType p with
  | 1 | 3 => ownPayload p 256 256
  | 4 => ownPayload p 0 512
  | _ => 0

/-- The colophon of a request (R523): KIND 0Ah, the device's SERIAL, the digest, and the signer that its TYPE asks for. -/
def requestSigned (s : State) (p : Blob) (sigOk : Bool) : Bool :=
  let signer := recColophon p 0 8
  let keyId := recColophon p 448 256
  colophonFits s p 0x0A false && recColophon p 128 64 = 80 &&
    match ownType p with
    | 1 => signer = 0
    | 2 => signer = 2 && sigOk && keyId = (keyDigest (BitVec.ofNat 512 (ownPayload p 0 512))).toNat
    | _ => signer = 2 && sigOk && !noOwner s && keyId = (ownerDigest s).toNat

/-- Every context slot is FREE. -/
def contextsFree (s : State) : Bool := (List.range nCtx).all fun c => (s.ctx c).st = .free

/-- The checks in the order of Table 14.5; 0 where every one passes (R528). -/
def requestResult (s : State) (typ : Nat) (p : Blob) (sigOk : Bool) : Nat :=
  let o := ownerFolio s
  let key := BitVec.ofNat 512 (ownPayload p 0 512)
  if ownType p ≠ typ || ownReserved p ≠ 0 || ownUnused p ≠ 0 then 1
  else if ownSerialOf p ≠ ownSerial s then 2
  else if typ ≠ 1 && ownNonce p ≠ o.nonce then 3
  else if !requestSigned s p sigOk then 4
  else if typ = 1 then 0
  else if ownerInvalid s || (typ = 2 && o.key.isSome) || (typ ≠ 2 && o.key.isNone) then 5
  else if (typ = 2 || typ = 3) && !contextsFree s then 6
  else if typ = 2 && o.nextDigest ≠ 0 && keyDigest key ≠ o.nextDigest then 7
  else 0

/-- REQ_RESULT takes the TYPE and the result. -/
def recordResult (s : State) (typ r : Nat) : State :=
  (countColophon s (r ≠ 4)).modSec fun x => { x with reqType := BitVec.ofNat 8 typ, reqResult := BitVec.ofNat 8 r }

/-- An owner request on the management interface; `accept` is the effect of one that passes. One that arrives while a
RELEASE waits is not taken (R527). -/
def ownerRequest (s : State) (r : Blob) (typ : Nat) (sigOk : Bool) (accept : State → Blob → State × Blob) : State :=
  request s r 3 false (fun n => n = 232) fun s p =>
    if s.sec.release.isSome then (s, notNow, Blob.empty)
    else
      let code := requestResult s typ p sigOk
      let s1 := recordResult s (ownType p) code
      let (s2, extra) := if code = 0 then accept s1 p else (s1, Blob.empty)
      (s2, okStatus, Blob.append ⟨1, code⟩ extra)

/-! ### Attestation (14 R546, Table 14.9) -/

def ctxCode : CtxSt → Nat
  | .free => 0 | .creating => 1 | .idle => 2 | .loaded => 3 | .standby => 4 | .teardown => 5

def lifecycleCode : Lifecycle → Nat
  | .manufacture => 0 | .deployed => 1 | .returned => 2

/-- The volume of a context's job. -/
def ctxVolume (s : State) (c : Nat) : BitVec 256 :=
  if (s.ctx c).st = .free then 0 else ((volumeOf s (s.ctx c).job).map (·.digest)).getD 0

/-- Bits [11007:0] of a report; the active slot is the one that has booted. -/
def reportBody (s : State) (challenge : Nat) : Nat :=
  let o := ownerFolio s
  let act := fwSlot s s.bring.slotB
  let other := fwSlot s (!s.bring.slotB)
  let blob (b : Option Blob) : Nat := match b with | some x => (recDigest x).toNat | none => 0
  packFields ([(1, 16), (0, 16), (s.host.epoch.toNat, 32), (ownSerial s, 64), (ordering s.variant, 8),
    (s.sec.siliconRev.toNat, 8), (fusedClock s.variant, 16), (fusedPower s.variant, 16), (s.sec.minSvn, 6),
    (lifecycleCode s.sec.lifecycle, 2), (boolNat s.sec.debugLocked, 1), (boolNat o.key.isSome, 1),
    (boolNat (ownerInvalid s), 1), (boolNat s.bring.slotB, 1), (boolNat (bootFolio s).trial, 1), (0, 3),
    (o.nonce.toNat, 32), (act.facts.svn, 8), (0, 24), (challenge, 256), (act.digest.toNat, 256),
    (if other.valid then other.digest.toNat else 0, 256), (act.facts.coreDigest.toNat, 256),
    (s.imprint.factoryDigest.toNat, 256), (s.imprint.calDigest.toNat, 256), (blob s.imprint.fabric, 256),
    (blob s.imprint.ownerLayer, 256), ((ownerDigest s).toNat, 256), (s.mu.window.fwDigest.toNat, 256)] ++
    (List.range nCtx).flatMap fun c =>
      [(if (s.ctx c).st = .free then 0 else (s.ctx c).job.toNat, 32), (ctxCode (s.ctx c).st, 3), (0, 221),
       ((ctxVolume s c).toNat, 256)])

/-- ATTEST: the report with its signature, `sig` (R546); it stays in the REPORT window. -/
def attest (s : State) (r : Blob) (sig : BitVec 512) : State :=
  ownerRequest s r 1 true fun s p =>
    let report : Blob := ⟨1440, reportBody s (ownPayload p 0 256) + 2 ^ 11008 * sig.toNat⟩
    ((wantKey s .identity).modSec fun x => { x with report := report, reports := x.reports + 1 }, report)

/-! ### Owners (14 R529, R530; 13 R505) -/

/-- ENROL. -/
def enrol (s : State) (r : Blob) (sigOk : Bool) : State :=
  ownerRequest s r 2 sigOk fun s p =>
    (writeOwner s (some (BitVec.ofNat 512 (ownPayload p 0 512))) ((ownerFolio s).nonce + 1) 0, Blob.empty)

/-- RECALIBRATE: RECAL_PENDING for the next bring-up. -/
def recalibrate (s : State) (r : Blob) (sigOk : Bool) : State :=
  ownerRequest s r 4 sigOk fun s _ =>
    let s1 := writeOwner s (ownerFolio s).key ((ownerFolio s).nonce + 1) (ownerFolio s).nextDigest
    ({ s1 with imprint := { s1.imprint with recalPending := true } }, Blob.empty)

/-- UPLOAD and PULL slips that were taken before a RELEASE and have not ended. -/
def volumesUnderWay (s : State) (mark : Nat) : Bool :=
  s.host.taken.any fun t => (t.op = 1 || t.op = 2) && t.number < mark && t.result.isNone

/-- The ledger of a job that has no context is forgotten with its directory. -/
def emptyLedger (s : State) : State :=
  let s1 := s.ledger.jobs.foldl (fun s j => releaseLedger s j.job) s
  let held := (s1.mem.granules.filter fun g => g.2.ledger).map (·.1)
  let s2 := (List.range nCtx).foldl (fun s c => s.modLed c fun l => { l with st := .none }) (held.foldl releaseGranule s1)
  directoryWrite { s2 with ledger := { s2.ledger with jobs := [] } }

/-- Steps 2 to 5 of R530. -/
def releaseNow (s : State) (next : BitVec 256) : State :=
  let s1 := s.host.cat.foldl (fun s e => weedEntry s e.1) s
  let s2 := (s1.host.volumes.map (·.job)).foldl (fun s j =>
    [KeyId.volume j, .sample j, .exported j].foldl destroyKey s) s1
  let s3 := emptyLedger (s2.modHost fun h => { h with volumes := [] })
  let s4 := applyLayer { s3 with imprint := { s3.imprint with ownerLayer := none, recalPending := false } }
  (writeOwner s4 none ((ownerFolio s4).nonce + 1) next).modSec fun x => { x with release := none }

/-- A RELEASE that waits acts once the volumes under way have ended, and its response becomes ready. -/
def settleRelease (s : State) : State :=
  match s.sec.release with
  | none => s
  | some (next, mark) =>
    if volumesUnderWay s mark then s
    else
      let s1 := releaseNow s next
      if s1.mgmt.waiting then respond s1 s1.mgmt.opcode s1.mgmt.tag okStatus ⟨1, 0⟩ else s1

/-- RELEASE. Its response comes once it has acted. -/
def release (s : State) (r : Blob) (sigOk : Bool) : State :=
  let s1 := ownerRequest s r 3 sigOk fun s p =>
    (s.modSec fun x => { x with release := some (BitVec.ofNat 256 (ownPayload p 0 256), s.host.takes) }, Blob.empty)
  if s.sec.release.isNone && s1.sec.release.isSome then
    settleRelease (s1.modMgmt fun m => { m with
      waiting := true, response := none, interrupts := s.mgmt.interrupts })
  else s1

end Sys2Proof.Machine
end

