-- ==== Sys2Proof/Machine/Stall.lean ====
section
/-!
DEFINITION. Stalls and deadlock (05 R206 to R214; 01 R52): the causes that hold a stage, the counters of its cycles,
wedged stages, and the detectors of the shelves.
-/

namespace Sys2Proof.Machine

/-! ### The causes of Table 5.14 (05 R207, R208) -/

/-- The stall causes in order of priority, the lowest number first (05 Table 5.14). -/
def stallPriority : List Nat := [11, 10, 8, 3, 2, 4, 5, 6, 7, 9, 0, 1]

/-- The cause that names the tier of an address: SHELF_STORE, HBM or CXL. -/
def tierCause (a : Nat) : Nat :=
  match tierOf a with
  | .hbm => 5 | .cxl => 6 | _ => 4

/-- The cause that names the tier of a memory endpoint. -/
def memoryCause (s : State) (x : Ctx) (e : BitVec 32) : Nat :=
  match (imageShelf x (epEngine e)).bind fun sh => tget (s.shelf sh).pf (epDesc e) with
  | some p => tierCause p.desc.addr
  | none => 4

/-- A node waits for a child (03 R139): one of its children has its next element and another has not, or a node below
waits. -/
def nodeWaits (s : State) (c : Nat) : Nat → Nat → Bool
  | 0, _ => false
  | f + 1, node =>
    match treeRec (s.ctx c) node with
    | none => false
    | some d =>
      let live := (List.range (d.fanin + 1)).filter fun k => kidLive s c 64 node k
      let ready (k : Nat) : Bool := match ((s.node c node).kid k).hdrs with
        | [] => false
        | h :: _ => h.length = 0 || ((s.node c node).kid k).vals ≠ []
      (live.any ready && live.any fun k => !ready k) ||
        (match (s.ctx c).image with
          | some im => im.trees.any fun t => epKind t.out = 2 && epNode t.out = node && nodeWaits s c f t.node
          | none => false)

/-- The cause of an empty input: it names the producer. -/
def inputCause (s : State) (c : Nat) (r : StreamRec) : Nat :=
  match epKind r.producer with
  | 3 => if nodeWaits s c 16 (epNode r.producer) then 8 else 0
  | 4 => memoryCause s (s.ctx c) r.producer
  | 5 => 9
  | 6 => 7
  | _ => 0

/-- The cause of a full output: it names the consumer. -/
def outputCause (s : State) (c : Nat) (e : BitVec 32) : Nat :=
  match epKind e with
  | 4 => memoryCause s (s.ctx c) e
  | 6 => 7
  | _ => 1

/-- A buffer whose store's island stands still: SHELF_STORE for a shelf store, `core` for a carrel store. -/
def stoppedCause (s : State) (c : Nat) (r : StreamRec) (k core : Nat) : Nat :=
  match (s.ctx c).image.map fun im => placeOf im r k with
  | some (.shelf _) => 4
  | _ => core

/-- The causes of the inputs that a stage waits on. -/
def inputCauses (s : State) (core : Nat) : List Nat :=
  let c := s.core core
  (List.range 4).flatMap fun q =>
    match c.stage.info, boundStream s core q with
    | some rec, some (i, r) =>
      if !portOpen c rec q then []
      else
        let x := c.stage.ctx
        let k := ((feedOf s core q).map (·.2)).getD 0
        if !bufferOn s x r k then [stoppedCause s x r k 0]
        else match ((s.stream x i).buf k).head with
          | none => [inputCause s x r]
          | some w => if w.header && (c.inPort q).hdr.isNone && !stepGate s c rec q then [8] else []
    | _, _ => []

/-- Consumer `k` of stream `i` has a full buffer. -/
def bufFull (s : State) (c i k : Nat) : Bool :=
  match streamRec (s.ctx c) i with
  | none => false
  | some r => bufUsed r (s.stream c i) k ≥ r.capacity

/-- The causes of the outputs that a stage waits on. -/
def outputCauses (s : State) (core : Nat) : List Nat :=
  let c := (s.core core).stage.ctx
  (List.range 4).flatMap fun p =>
    match boundStream s core (4 + p) with
    | none => []
    | some (i, r) =>
      if waiting (s.stream c i) = 0 then []
      else r.consumers.zipIdx.flatMap fun e =>
        if tgetD (s.stream c i).wait (if r.fanout = 1 then 0 else e.2) [] = [] then []
        else if !bufferOn s c r e.2 then [stoppedCause s c r e.2 1]
        else if bufFull s c i e.2 then [outputCause s c e.1] else []

/-- A window stage waits for a slot, or for a halo row that its owner has not stored (04 R163). -/
def haloWaits (s : State) (core : Nat) : Bool :=
  let c := s.core core
  match c.stage.info, c.win.cur with
  | some r, some t =>
    let w := WinDesc.parse r.param
    let more : Bool := t.nextRow < (arrivingRows c.stage r w t).length
    !t.issued && !w.oneTap && ((more && slotsFree c r w t = 0) ||
      match nextHalo s core with
      | some (up, key) => (tget (s.core up).win.lines key).isNone || c.win.lines.length ≥ lineSlots w
      | none => false)
  | _, _ => false

/-- A pass waits for a staging area that is not full (05 R199), or a product row for a bank (03 R131). -/
def weightsWait (c : Core) : Bool :=
  c.arr.held = some .bank ||
    match c.stage.info with
    | none => false
    | some r => !c.stage.seq.active && !stagingFull c r &&
      (if r.isWindow then (c.win.cur.map fun t => !t.issued).getD false else r.isMatmul && (c.inPort 0).hdr.isSome)

/-- The causes that the state shows for a stage. -/
def stallCauses (s : State) (core : Nat) : List Nat :=
  let c := s.core core
  inputCauses s core ++ outputCauses s core ++ (if c.arr.held = some .output then [1] else []) ++
    (if weightsWait c then [2] else []) ++ (if haloWaits s core then [3] else []) ++
    (if c.stage.switchLeft ≠ 0 then [10] else [])

/-- The causes that only time shows, in the operand of STALL_CYCLE: an access of the stage's own to a tier that is still
under way (4 to 6), a read of the parameter block (10), a spill in its cycle (11). -/
def timedCauses : BitVec 12 := 0xC70

/-- The cause that a stalled cycle counts under (05 R206). -/
def stallOf (s : State) (core : Nat) (timed : BitVec 12) : Option Nat :=
  stallPriority.find? fun k => (stallCauses s core).contains k || (timed &&& timedCauses).getLsbD k

/-- One core cycle of a stage (05 R206). `advanced` says that a unit advanced or no work is outstanding. A pass switch
and the drain unit's rows come one cycle nearer (05 R199, 03 R125). -/
def stallCycle (s : State) (core : Nat) (advanced : Bool) (timed : BitVec 12) : State :=
  let cause := if advanced && (s.core core).stage.switchLeft = 0 then none else stallOf s core timed
  s.modCore core fun c =>
    let c1 := { c with arr := { c.arr with drainWait := c.arr.drainWait - 1 } }
    if c.stage.st ≠ .running then c1
    else
      match cause with
      | none => { c1 with stage := { c.stage with
          activeCycles := c.stage.activeCycles + 1, outFullRun := 0, switchLeft := c.stage.switchLeft - 1 } }
      | some k => { c1 with stage := { c.stage with
          stalls := tset c.stage.stalls k (tgetD c.stage.stalls k 0 + 1)
          outFullRun := if k = 1 then c.stage.outFullRun + 1 else 0
          switchLeft := c.stage.switchLeft - 1 } }

/-! ### Wedged stages and the detectors (05 R210 to R214) -/

/-- The consumer whose words keep a full buffer full: of a broadcast the slowest, the first of those alike. -/
def slowestConsumer (r : StreamRec) (t : Stream) : Nat :=
  ((List.range r.consumers.length).find? fun k => (t.buf k).occupied = sharedUsed r.consumers.length t).getD 0

/-- The full output buffer that words of a stage wait for: the first, by output port and consumer. -/
def fullOutput (s : State) (core : Nat) : Option (Nat × Nat) :=
  (List.range 4).findSome? fun p =>
    (boundStream s core (4 + p)).bind fun (i, r) =>
      let c := (s.core core).stage.ctx
      let t := s.stream c i
      if r.fanout = 1 then
        if waiting t ≠ 0 && bufFull s c i 0 then some (i, slowestConsumer r t) else none
      else ((List.range r.consumers.length).find? fun k =>
        tgetD t.wait k [] ≠ [] && bufFull s c i k).map fun k => (i, k)

/-- After 65,536 consecutive OUTPUT_FULL cycles a stage sets WEDGED and sends one report to the detector of its
shelf (05 R210). Reports of one cycle reach it the lowest core first. -/
def wedge (s : State) (core : Nat) : State :=
  let c := s.core core
  if c.stage.st ≠ .running || c.stage.wedged || c.stage.outFullRun < 65536 then s
  else
    match fullOutput s core with
    | none => s
    | some (i, k) =>
      let n := c.stage.wedgedReports + 1
      let s1 := s.modCore core fun c => { c with stage := { c.stage with wedged := true, wedgedReports := n } }
      s1.modShelf (core / 12) fun x => { x with
        reports := (x.reports.filter fun v => v.core ≠ core) ++ [⟨core, i, k, n⟩] }

/-- The stage of a report is wedged still, and has been since it sent it. -/
def stillWedged (s : State) (w : Wedge) : Bool :=
  (s.core w.core).stage.wedged && (s.core w.core).stage.wedgedReports = w.nth

/-- The stage that reads a report's buffer. -/
def reportNext (s : State) (w : Wedge) : Option Nat :=
  let c := (s.core w.core).stage.ctx
  (streamRec (s.ctx c) w.stream).bind fun r =>
    (r.consumers[w.consumer]?).bind fun e => endpointCore (s.ctx c) e

/-- The report of a stage that is wedged, at its detector. -/
def reportOf (s : State) (core : Nat) : Option Wedge :=
  (s.shelf (core / 12)).reports.find? fun w => w.core = core && stillWedged s w

/-- The chain of full buffers from a report (05 R211): it ends at a stage not wedged, or closes a cycle at one
already visited. -/
def chainFrom (s : State) : Nat → Wedge → List Wedge → Option (List Wedge)
  | 0, _, _ => none
  | f + 1, w, seen =>
    match reportNext s w with
    | none => none
    | some n =>
      match (seen ++ [w]).dropWhile fun v => v.core ≠ n with
      | v :: t => some (v :: t)
      | [] =>
        match reportOf s n with
        | none => none
        | some w' => chainFrom s f w' (seen ++ [w])

/-- The lowest logical core of a cycle. -/
def lowestCore (cyc : List Wedge) : Nat := cyc.foldl (fun m w => min m w.core) nCores

/-- The cycle that a report leads to, where this shelf's detector is the one that acts on it. -/
def cycleFor (s : State) (shelf : Nat) (w : Wedge) : Option (List Wedge) :=
  if !stillWedged s w then none
  else (chainFrom s (nCores + 1) w []).bind fun cyc => if lowestCore cyc / 12 = shelf then some cyc else none

/-- A detector follows the chains of the reports that it holds. The detector of the shelf of the cycle's lowest core acts:
it chooses the buffer reported to it first and starts a confirmation (05 R211, R212). -/
def wedgedReport (s : State) (shelf : Nat) : State :=
  let x := s.shelf shelf
  if x.confirming.isSome then s
  else
    match x.reports.findSome? (cycleFor s shelf) with
    | none => s
    | some cyc =>
      match x.reports.find? fun w => cyc.contains w with
      | none => s
      | some w => s.modShelf shelf fun x => { x with confirming := some (cyc, w) }

/-- Words of one buffer in a shelf's escape region. -/
def Buf.escaped (b : Buf) (shelf : Nat) : Nat := (b.esc.filter fun p => p.1 = shelf).length

/-- Words held in a shelf's escape region; the consumers of a broadcast read one copy. -/
def escapeUsed (s : State) (shelf : Nat) : Nat :=
  ((List.range nCtx).map fun c =>
    ((s.ctx c).streams.map fun p =>
      let ns := p.2.bufs.map fun b => b.2.escaped shelf
      match streamRec (s.ctx c) p.1 with
      | some r => if r.fanout = 1 then ns.foldl max 0 else ns.sum
      | none => ns.sum).sum).sum

/-- The contents of consumer `k`'s buffer, or of the one buffer of a broadcast, move into a shelf's escape region. -/
def escapeBuffer (r : StreamRec) (k shelf : Nat) (t : Stream) : Stream :=
  let move (b : Buf) : Buf := ⟨b.esc ++ b.words.map fun w => (shelf, w), [], 0⟩
  let ks := if r.fanout = 1 then List.range r.consumers.length else [k]
  { t with bufs := ks.foldl (fun bs j => tset bs j (move (t.buf j))) t.bufs }

/-- The acting detector ends its confirmation (05 R212 to R214): a stage of the cycle that has moved a word
cancels it, a region too small stops the stages, the lowest core first, and otherwise the chosen buffer moves into the
escape region. -/
def escapeConfirm (s : State) (shelf : Nat) : State :=
  let x := s.shelf shelf
  match x.confirming with
  | none => s
  | some (cyc, w) =>
    let c := (s.core w.core).stage.ctx
    let s0 := s.modShelf shelf fun x => { x with confirming := none }
    match streamRec (s.ctx c) w.stream with
    | none => s0
    | some r =>
      if cyc.any fun v => !stillWedged s v then s0.modShelf shelf fun x => { x with cancels := x.cancels + 1 }
      else if x.escapeSize.toNat * 8 < escapeUsed s shelf + bufUsed r (s.stream c w.stream) w.consumer then
        ((List.range nCores).filter fun n => cyc.any fun v => v.core = n).foldl
          (fun s n => stopStage s n .deadlockUnresolved 0) s0
      else
        let s1 := s0.modShelf shelf fun x => { x with
          escapes := x.escapes + 1, reports := x.reports.filter fun v => v ≠ w }
        let s2 := s1.modStream c w.stream (escapeBuffer r w.consumer shelf)
        let s3 := cyc.foldl (fun s v => s.modCore v.core fun c => { c with stage := { c.stage with
          stalls := tset c.stage.stalls 11 (tgetD c.stage.stalls 11 0 + 1) } }) s2
        pump s3 c w.stream

end Sys2Proof.Machine
end

