-- ==== Sys2Proof/Machine/Registers.lean ====
section
/-!
DEFINITION. The control space as software reads it: the register blocks of 06 Table 6.7 and 17 Table 17.1, the latch of a
counter's high half (00 R20), and the operations IDENTIFY and READ_CONTROL of the management interface (16 Table 16.7).
-/

namespace Sys2Proof.Machine

/-- A register of a block: its offset, its bytes and its value. -/
structure Reg where
  off : Nat
  bytes : Nat
  val : Nat
  deriving DecidableEq, Repr

def reg32 (off v : Nat) : Reg := ⟨off, 4, v % 2 ^ 32⟩
def reg64 (off v : Nat) : Reg := ⟨off, 8, v % 2 ^ 64⟩

/-- Registers laid one after another from an offset, each with its bytes. -/
def regRow (off : Nat) : List (Nat × Nat) → List Reg
  | [] => []
  | (n, v) :: t => ⟨off, n, v % 2 ^ (8 * n)⟩ :: regRow (off + n) t

/-- The registers of a list moved up by an offset. -/
def regsAt (off : Nat) (rs : List Reg) : List Reg := rs.map fun r => { r with off := r.off + off }

/-! ### The core block (03 Tables 3.8 to 3.11, 04 Table 4.6, 05 Table 5.15, 08 Table 8.14) -/

/-- The counter block of an endpoint (02 Table 2.9). -/
def epRegs (k : EpCtr) : List Reg :=
  regRow 0 [(8, k.saturations.toNat), (8, k.nonfinite.toNat), (8, k.poisonedWords.toNat), (8, k.nanZeroed.toNat),
    (4, k.prepasses.toNat), (4, k.scaleInUse.toNat), (4, k.amaxLast.toNat)]

/-- BANK_STATE (03 Table 3.10). -/
def bankState (u : ArrayUnit) : Nat :=
  packFields ((List.range 4).flatMap fun a =>
    [(boolNat (u.selected.getLsbD a), 1), (boolNat (tget u.banks (2 * a)).isSome, 1),
     (boolNat (tget u.banks (2 * a + 1)).isSome, 1), (boolNat (tget u.loading a).isSome, 1)])

/-- GROUP_STATE_a_g (03 Table 3.11). -/
def groupState (g : Group) : Nat :=
  packFields [(g.products.toNat, 28), (boolNat g.longAccum, 1), (boolNat g.poisoned, 1), (boolNat g.isNaN, 1)]

def arrayRegs (u : ArrayUnit) : List Reg :=
  regRow 0 [(4, modeCode u.mode + 16 * u.arraysUsed.toNat), (4, bankState u)] ++
  ((List.range 16).map fun i => reg32 (0x10 + 4 * i) (((tget u.groups i).map groupState).getD 0)) ++
  regRow 0x50 [(8, u.rowsIssued.toNat), (8, u.drains.toNat), (4, u.longAccumDrains.toNat), (4, 0), (8, u.farProducts.toNat)]

def windowRegs (w : WindowUnit) : List Reg :=
  regRow 0x100 [(4, w.convEmptyTensors.toNat), (4, w.padReflectShorts.toNat), (8, w.skippedRows.toNat),
    (8, w.skippedColumns.toNat), (4, w.haloCopies.toNat), (4, (w.lines.filter fun l => l.2.count ≠ 0).length % 256),
    (4, w.nmsKept.toNat), (4, w.nmsDropped.toNat), (4, w.nmsInvalid.toNat)]

def stageCode : StageSt → Nat
  | .empty => 0 | .config => 1 | .ready => 2 | .running => 3 | .stopped => 4

/-- The words in a port's buffer (05 PORT_OCCUPANCY_q): an input's own, the fullest that an output feeds (log entry 36). -/
def portWords (s : State) (core q : Nat) : Nat :=
  match boundStream s core q with
  | none => 0
  | some (i, t) =>
    let x := s.stream (s.core core).stage.ctx i
    let held (ok : BitVec 32 → Bool) : Nat :=
      ((t.consumers.zipIdx.filter fun k => ok k.1).map fun k => bufUsed t x k.2).foldl max 0
    if q < 4 then
      held fun e => epKind e = 0 && epPort e = q && lcoreOf (s.ctx (s.core core).stage.ctx) (epLcore e) = some core
    else held fun _ => true

def stageRegs (s : State) (core : Nat) : List Reg :=
  let c := s.core core
  let u := c.stage
  let id : Nat := (u.info.map fun r => packFields [(r.stage, 12), (r.member, 8), (r.opclass, 4)]).getD 0
  regRow 0x180 [(4, packFields [(stageCode u.st, 3), (boolNat u.wedged, 1), (0, 4), (u.passNow, 8), (boolNat u.area, 1)]),
    (4, id), (4, u.gatherRange.toNat), (4, 0), (8, u.passesRun.toNat)] ++
  ((List.range 8).flatMap fun q => regsAt (0x200 + 0x40 * q) (epRegs (s.epCtr core q))) ++
  ((List.range 12).map fun k => reg64 (0x400 + 8 * k) (tgetD u.stalls k 0).toNat) ++
  [reg64 0x460 u.activeCycles.toNat, reg32 0x468 u.wedgedReports.toNat] ++
  (List.range 8).map fun q => reg32 (0x480 + 4 * q) (portWords s core q % 2 ^ 24)

def updateRegs (c : Core) : List Reg :=
  ((List.range 8).flatMap fun q =>
    let k := tgetD c.snaps q EpSnap.zero
    regRow (0x500 + 0x20 * q) [(8, k.saturations.toNat), (8, k.nonfinite.toNat), (8, k.poisonedWords.toNat),
      (8, k.nanZeroed.toNat)]) ++
  regRow 0x600 [(8, c.upd.updatesApplied.toNat), (4, c.upd.frozenUpdates.toNat), (4, c.upd.stepSkews.toNat),
    (4, c.upd.stepAdoptions.toNat), (4, c.upd.skippedUpdates.toNat), (8, c.upd.updateNonfinite.toNat),
    (8, c.upd.updateSaturations.toNat), (8, c.upd.updatePoisoned.toNat), (4, c.upd.lastLr.toNat),
    (4, c.upd.lastSkewLayer.toNat)] ++
  regRow 0x680 [(4, c.loss.monitorN.toNat), (4, c.loss.monitorMean.toNat), (4, c.loss.monitorM2.toNat),
    (4, c.loss.monitorVar.toNat), (4, c.loss.lastLoss.toNat), (4, c.loss.lossSpikes.toNat), (4, c.loss.ignoredRows.toNat)] ++
  (List.range 256).map fun i => reg32 (0x700 + 4 * i) (tgetD c.upd.expectT i 0).toNat

def coreRegs (s : State) (core : Nat) : List Reg :=
  if core < nCores then
    arrayRegs (s.core core).arr ++ windowRegs (s.core core).win ++ stageRegs s core ++ updateRegs (s.core core)
  else []

/-! ### The shelf controller block (01 Tables 1.3 to 1.6, 05 Table 5.16, 06 Table 6.10, 15 Table 15.6) -/

def spareCode : SpareSt → Nat
  | .free => 0 | .bound => 1 | .degraded => 2

def lmapValue (m : LMap) : Nat := packFields [(m.site.toNat, 4), (0, 4), (boolNat m.retired, 1), (boolNat m.rebindPending, 1)]

/-- A live channel of the check unit. -/
def liveValue (k : CheckCh) : Nat := packFields [(k.desc, 11), (boolNat k.open', 1), (k.alg, 4)]

def shelfRegs (s : State) (sh : Nat) : List Reg :=
  if sh < nShelves then
    let x := s.shelf sh
    let retired : Nat := ((List.range 12).map fun n => boolNat (lmapOf s (12 * sh + n)).retired * 2 ^ n).sum
    regRow 0 [(4, packFields [(sh, 4), (sh / 6, 1), (0, 3), (x.sitesPassed.toNat, 4)]),
      (4, packFields [(x.spareSite.toNat, 4), (spareCode x.spareSt, 2), (0, 10), (retired, 12)])] ++
    ((List.range 12).map fun n => reg32 (0x10 + 4 * n) (lmapValue (lmapOf s (12 * sh + n)))) ++
    regRow 0x100 [(4, x.escapeSize.toNat), (4, escapeUsed s sh % 2 ^ 24), (4, x.escapes.toNat), (4, x.cancels.toNat)] ++
    ((List.range 13).flatMap fun t =>
      regRow (0x200 + 8 * t) [(4, (tgetD x.carrel t (0, 0)).1.toNat), (4, (tgetD x.carrel t (0, 0)).2.toNat)]) ++
    regRow 0x270 [(4, x.sstoreCorrected.toNat), (4, x.sstoreUncorrected.toNat)] ++
    regRow 0x300 [(8, x.pfBase.toNat), (4, x.pfCount.toNat), (4, 0), (8, x.pfRead.toNat), (8, x.pfWritten.toNat),
      (4, x.pfReqs.length)] ++
    regRow 0x400 [(4, x.check.failures.toNat), (4, x.check.slotsUnchecked.toNat), (8, x.check.slotsChecked.toNat),
      (4, x.check.switches.toNat)] ++
    (x.check.live.zipIdx.filter fun k => k.2 < 8).flatMap fun k =>
      [reg32 (0x440 + 0x10 * k.2) (liveValue k.1), reg64 (0x448 + 0x10 * k.2) k.1.value]
  else []

/-! ### Memory (06 Tables 6.8, 6.9, 6.11, 6.12) -/

def hbmRegs (s : State) (k : Nat) : List Reg :=
  if k < 8 then
    let x := s.hbm k
    let st := match x.st with | .off => 0 | .training => 1 | .ready => 2 | .failed => 3
    regRow 0 [(8, st + 4 * boolNat s.mem.interleave), (8, x.eccCorrected.toNat), (8, x.eccUncorrected.toNat),
      (4, x.patrolPasses.toNat), (4, x.patrolUncorrected.toNat), (8, x.poisonStored.toNat)]
  else []

def cxlRegs (s : State) (p : Nat) : List Reg :=
  if p < 4 then
    let x := s.cxl p
    let st := match x.st with | .down => 0 | .training => 1 | .up => 2 | .selfRefresh => 3 | .failed => 4
    regRow 0 [(8, st + 8 * boolNat x.retained), (8, x.poisonIn.toNat), (8, x.corrected.toNat), (4, x.retrains.toNat),
      (4, x.writesLost.toNat)]
  else []

def granuleValue (g : Granule) : Nat :=
  packFields [(if g.assigned && !g.ledger then g.context.toNat else 0, 4), (boolNat g.assigned, 1), (boolNat g.system, 1),
    (boolNat g.ledger, 1), (boolNat g.retain, 1), (boolNat g.scrubbed, 1), (boolNat g.lost, 1)]

def memoryRegs (s : State) : List Reg :=
  regRow 0 [(4, boolNat s.mem.interleave + 2 ^ 8 * (s.mem.systemGranules.toNat % 1024)),
    (4, (s.mem.granules.filter fun g => g.2.filling).length % 2 ^ 14), (4, s.mem.addressFaults.toNat)] ++
  s.mem.granules.map fun g => reg32 (0x1000 + 4 * g.1) (granuleValue g.2)

/-! ### The fabric (09 Tables 9.16, 9.17) -/

def linkCode : LinkSt → Nat
  | .down => 0 | .training => 1 | .keying => 2 | .notReady => 3 | .ready => 4 | .ethUp => 5

def modeValue : LinkMode → Nat
  | .off => 0 | .verhel => 1 | .ethernet => 2

/-- The register set of a link. -/
def linkRegs (l : Link) : List Reg :=
  let c := l.ctr
  regRow 0 [(4, packFields [(linkCode l.st, 3), (boolNat l.peerReady, 1), (boolNat l.degraded, 1), (modeValue l.mode, 2),
      (0, 1), (l.peerAcc.toNat, 16), (l.peerLink.toNat, 4)]), (4, l.lanes.toNat),
    (8, c.fecCorrected.toNat), (8, c.fecUncorrectable.toNat), (8, c.flitsReplayed.toNat), (4, c.tagFailures.toNat),
    (4, c.retryExhausted.toNat), (4, c.keepaliveLosses.toNat), (4, c.losEvents.toNat), (4, c.notReadySent.toNat),
    (4, c.backoffs.toNat), (8, c.creditWait.toNat), (8, c.replayFull.toNat), (4, c.droppedNoLink.toNat),
    (4, c.fabricMismatches.toNat), (8, c.ethIn.toNat), (8, c.ethOut.toNat), (4, c.ethDropped.toNat), (4, c.pfc.toNat),
    (4, c.outOfOrder.toNat)]

def accCode : AccSt → Nat
  | .none => 0 | .claiming => 1 | .done => 2 | .exhausted => 3

def fabricRegs (s : State) : List Reg :=
  let x := s.fab
  regRow 0x8000 [(4, packFields [(x.acc, 16), (boolNat x.provisional, 1), (accCode x.accSt, 2), (boolNat s.host.ready, 1)]),
    (4, packFields [(boolNat x.folioInvalid, 1), (boolNat x.accInvalid, 1), (boolNat x.accConflict, 1)]),
    (4, x.conflicts.toNat), (4, x.lsdb.length % 2 ^ 15), (4, x.lsdbOverflows.toNat), (4, x.recomputes.toNat),
    (4, x.lostReports.toNat), (4, x.misdelivered.toNat), (8, x.retransmits.toNat), (4, connectionsOpen s % 2 ^ 14),
    (4, x.remoteDenied.toNat), (4, x.laggedDetaches.toNat), (4, x.loansServed.toNat), (4, x.loansTaken.toNat)]

/-- The block of a port; a whole port uses its half-0 set alone, and its half-1 set reads 0 (09 R385). -/
def portRegs (s : State) (p : Nat) : List Reg :=
  if p < 8 then
    let second := if (s.link (2 * p)).half || (s.link (2 * p + 1)).half then regsAt 0x800 (linkRegs (s.link (2 * p + 1))) else []
    linkRegs (s.link (2 * p)) ++ second ++ (if p = 0 then fabricRegs s else [])
  else []

/-! ### The media complexes (07 Tables 7.12, 7.13; 15 Table 15.7) -/

def queueCode : QueueSt → Nat
  | .closed => 0 | .opened => 1 | .stopped => 2

def queueRegs (q : Queue) : List Reg :=
  let modality := if q.st = .closed then 0 else qModality q.desc
  let ctx := if q.st = .closed then 0 else q.ctx
  regRow 0 [(4, packFields [(queueCode q.st, 2), (modality, 4), (ctx, 4)]),
    (4, if q.st = .closed then 0 else q.free % 65536), (8, q.accepted.toNat), (8, q.emitted.toNat), (4, q.corrupt.toNat),
    (4, q.implausible.toNat), (4, q.substitutions.toNat), (4, q.lateCorrupt.toNat), (4, q.pool.length % 65536),
    (4, q.reserveWaits.toNat), (4, q.creditOverruns.toNat), (4, q.predecoded.toNat), (4, q.shortSamples.toNat),
    (4, q.roiInvalid.toNat), (8, q.roiWait.toNat), (8, q.roomWait.toNat), (4, q.utf8Replaced.toNat),
    (4, q.textTruncated.toNat), (4, q.lastCause.toNat), (4, 0), (8, q.lastCorruptIndex.toNat)]

/-- The channels of a complex's intake unit (15 R554): one per session that brings it records, in the order of contexts and
loader table entries. -/
def intakeChannels (s : State) (x : Nat) : List (Nat × LoadSession) :=
  (List.range nCtx).flatMap fun c => (s.ctx c).sessions.filter fun e => entryComplex (s.ctx c) e.1 = x

/-- CHAN_STATE, CHAN_BYTES and CHAN_RUNNING of a channel: closed, they read 0 (15 R556, Table 15.7). -/
def channelRegs (e : Nat × LoadSession) : List (Nat × Nat) :=
  let opened : Bool := e.2.buf.len ≠ 0
  [(4, packFields [(e.1, 8), (boolNat opened, 1)]), (4, e.2.absorbed),
    (8, if opened then e.2.running else 0)]

def mediaRegs (s : State) (x : Nat) : List Reg :=
  if x < 2 then
    let c := s.complex x
    let opened : Nat := (c.queues.filter fun q => q.2.st = .opened).length
    regRow 0 [(4, packFields [(boolNat (domainOn s (decodeDomain x)), 1), (boolNat (domainOn s (streamsDomain x)), 1),
        (opened, 9)]), (4, tokenizerKib c % 2 ^ 14), (4, packFields [(decodesActive c 0, 9), (decodesActive c 2, 12)]),
      (4, c.closedDrops.toNat), (8, c.pixelsDecoded.toNat), (8, c.jpegPixels.toNat), (8, c.audioSamples.toNat),
      (8, c.textBytes.toNat), (4, c.filmGrain.toNat)] ++
    (c.queues.flatMap fun q => regsAt (0x10000 + 0x100 * q.1) (queueRegs q.2) ++
      (List.range 3).flatMap fun e => regsAt (0x20000 + 0x100 * q.1 + 0x40 * e) (epRegs (tgetD q.2.ctrs e EpCtr.zero))) ++
    regRow 0x40000 [(8, c.recordChecks.toNat), (4, c.recordCheckFails.toNat)] ++
    (((intakeChannels s x).take 256).zipIdx.flatMap fun n => regRow (0x41000 + 0x10 * n.2) (channelRegs n.1))
  else []

/-! ### The host control block (11 Table 11.9) -/

/-- A double word of the function's configuration space that the specification states (11 Table 11.1, at the offsets of the PCI
header, PRESUMED): Vendor and Device ID, Revision ID and class code, Subsystem ID; the Subsystem Vendor ID is the Vendor ID. -/
def configWord (s : State) (off : Nat) : Nat :=
  let subsystem : Nat := match s.variant with | .oqt5424 => 0x5424 | .oqt5418 => 0x5418 | .oqt5412 => 0x5412
  if off = 0 then packFields [(Config.pcieVendor.toNat, 16), (0x54, 16)]
  else if off = 8 then packFields [(s.sec.siliconRev.toNat, 8), (0x120000, 24)]
  else if off = 0x2C then packFields [(Config.pcieVendor.toNat, 16), (subsystem, 16)]
  else 0

def deviceId (s : State) : Nat := packFields [(0x54, 16), (ordering s.variant, 8), (s.sec.siliconRev.toNat, 8)]
def hostStatusValue (s : State) : Nat := boolNat s.host.busy + 2 * boolNat s.host.ready

def ringRegs (s : State) (q : Nat) : List Reg :=
  let r := s.ring q
  regRow (0x100 + 0x20 * q) [(4, 0), (4, r.callSeq.toNat), (4, 0),
    (4, ringPending s q % 512 + 512 * boolNat r.resetWaiting), (4, 0), (4, r.ackIgnored.toNat), (4, r.slipsDone.toNat),
    (4, r.slipsRefused.toNat)]

/-- FAULT_WHERE_c. -/
def faultWhere (f : FaultRec) : Nat :=
  let src := match f.src with | .stage => 0 | .intake => 1 | .memory => 2 | .fabric => 3 | .retirement => 4
  packFields [(f.core.getD 255, 8), (src, 4)]

def ctxRegs (s : State) (c : Nat) : List Reg :=
  let x := s.ctx c
  let entry : Nat := match x.entry with
    | some e => e % 64 + 64 * boolNat (x.st = .loaded)
    | none => 0
  let addr : Nat := (x.fault.map fun f => if f.name = .addressFault then f.addr else 0).getD 0
  regRow (0x800 + 0x80 * c) [(4, packFields [(ctxCode x.st, 3), (boolNat x.standby, 1), (x.mask.toNat, 12),
      (x.lastEvent.code, 4)]), (4, x.job.toNat), (4, x.rank.toNat), (4, entry), (4, x.faults.toNat),
    (4, x.teardowns.toNat), (8, addr), (4, (x.fault.map faultWhere).getD 0)] ++
  [⟨0x840 + 0x80 * c, 32, (x.fault.map fun f => asciiNat f.name.text).getD 0⟩]

def catRegs (s : State) : List Reg :=
  let es := s.host.cat
  regRow 0x1000 [(4, es.length % 128 + 128 * (es.filter fun e => e.2.pinned).length), (4, storeUsed s), (4, storeMib s),
    (4, s.host.weedings.toNat)] ++
  es.flatMap fun e => regRow (0x1100 + 0x20 * e.1) [(4, 1 + 2 * boolNat e.2.pinned + 4 * boolNat (entryInUse s e.1)),
    (4, e.2.job.toNat), (4, e.2.image), (4, 0), (8, e.2.stamp.toNat)]

def hostRegs (s : State) : List Reg :=
  let used : Nat := ((List.range nCtx).map fun c => boolNat ((s.ctx c).st ≠ .free) * 2 ^ c).sum
  let idle : Nat := ((List.range nShelves).map fun sh => boolNat (shelfOwner s sh).isNone * 2 ^ sh).sum
  regRow 0 [(4, deviceId s), (4, hostStatusValue s), (8, s.sec.serial.toNat), (4, s.host.epoch.toNat),
    (4, used + 65536 * idle), (4, s.host.writesIgnored.toNat), (4, s.host.linkResets.toNat)] ++
  ((List.range 16).flatMap (ringRegs s)) ++ ((List.range nCtx).flatMap (ctxRegs s)) ++ catRegs s

/-! ### Security, power, ledger and bring-up (14 Table 14.12, 13 Tables 13.7, 13.8, 10 Tables 10.14, 10.15, 08 Table
8.15, 12 Table 12.10) -/

def secStateValue (s : State) : Nat :=
  let o := ownerFolio s
  packFields [(lifecycleCode s.sec.lifecycle, 2), (boolNat s.sec.debugLocked, 1), (boolNat (ownerKey s).isSome, 1),
    (boolNat (ownerInvalid s), 1), (boolNat (o.nextDigest ≠ 0), 1), (0, 2), (s.sec.minSvn, 6), (0, 2),
    ((fwSlot s s.bring.slotB).facts.svn, 8)]

def securityRegs (s : State) : List Reg :=
  let x := s.sec
  regRow 0 [(4, secStateValue s), (4, (ownerFolio s).nonce.toNat), (4, x.reqType.toNat + 256 * x.reqResult.toNat),
    (4, x.slots.length % 256), (4, x.colophonFailures.toNat), (4, x.volumeRefusals.toNat), (4, x.keyings.toNat),
    (4, x.keyingFailures.toNat), (4, x.lastKeyFail.toNat), (4, x.reports.toNat), (4, x.chain.len % 8192),
    (4, x.slotWaits.toNat)] ++
  [⟨0x40, 32, (ownerDigest s).toNat⟩, ⟨0x60, 32, (keyDigest x.publicKey).toNat⟩, ⟨0x80, 64, x.publicKey.toNat⟩,
   ⟨0x1000, 4096, x.chain.val % 2 ^ 32768⟩, ⟨0x2000, 1440, x.report.val % 2 ^ 11520⟩]

/-- The clock of an island that is not a core or shelf island (01 Table 1.8). -/
def fixedClock (i : Nat) : Nat :=
  if i < 176 then 2400 else if i < 180 then 2000 else if i < 188 then 1563 else if i < 190 then 1600 else 1000

def thermalCeiling (s : State) (d : Nat) : Nat := tgetD s.power.thermal d (fusedClock s.variant)

/-- The running clock of an island: the lowest of its re-planned clock and the ceilings (13 R495), 0 while its domain is
off; a fabric port's 1,562.5 MHz reads as 1,563 (log entry 36). -/
def runningClock (s : State) (i : Nat) : Nat :=
  if !islandOn s i || s.pins.diesInReset then 0
  else if clocked i then min (min (s.wear i).clk.toNat s.power.govCeiling) (thermalCeiling s (islandDie i))
  else fixedClock i

def islandRegs (s : State) (i : Nat) : List Reg :=
  let w := s.wear i
  regRow (0x1000 + 0x10 * i) [(4, runningClock s i + 65536 * (if clocked i then w.clk.toNat else 0)),
    (4, packFields [(w.s.toNat, 16), (w.level.toNat, 8), (w.guard.toNat, 6), (boolNat w.ageingLimit, 1)]),
    (4, (tgetD s.power.temps i 0).toNat)]

/-- The value of a default that is in force: SYSTEM_HBM_GIB and HBM_INTERLEAVE take effect at the next bring-up (13
Table 13.5). -/
def inForce (s : State) (id : Nat) : Nat :=
  if id = 2 then s.power.systemGib else if id = 3 then boolNat s.mem.interleave else s.default id

def defaultRegs (s : State) (id : Nat) : List Reg :=
  let o := tget s.power.defaults id
  regRow (0x2000 + 0x10 * id) [(4, s.default id), (4, factoryDefault s.variant id), (4, (o.map fun v => v.value.toNat).getD 0),
    (4, boolNat o.isSome + 2 * boolNat ((o.map fun v => v.rejected).getD false) + 4 * boolNat (inForce s id ≠ s.default id))]

/-- The hottest island of a die, in °C, as a byte. -/
def hottest (s : State) (d : Nat) : Nat :=
  (BitVec.ofInt 8 ((dieIslands d).foldl (fun m i => max m (islandTemp s i)) (-128))).toNat

/-- MU_STATUS. -/
def muStatus (s : State) : Nat :=
  let r := s.mu.window
  boolNat s.mu.present + 2 * boolNat r.sealIntact + 4 * boolNat r.selfCheckOk + 8 * boolNat r.inClass + 16 * boolNat r.inputPresent

def muRegs (s : State) : List Reg :=
  let r := s.mu.window
  regRow 0x3000 [(4, r.seq.toNat), (4, muStatus s), (8, r.energyMj.toNat), (4, r.powerMw.toNat), (4, r.voltageMv.toNat),
    (4, r.inputLosses.toNat), (4, r.fwVersion.toNat), (32, r.fwDigest.toNat), (4, r.seq.toNat)]

def powerRegs (s : State) : List Reg :=
  let p := s.power
  let top := fusedClock s.variant
  let throttled : Bool := thermalCeiling s 0 < top || thermalCeiling s 1 < top
  let status := packFields [(boolNat (p.govCeiling < top), 1), (boolNat p.powerUnmet, 1), (boolNat throttled, 1),
    (s.default 5, 1), (0, 4), (p.resetCause.toNat, 4)]
  regRow 0 [(4, status), (4, p.inputMv.toNat), (4, p.inputPowerW.toNat), (4, powerLimit s), (4, p.govCeiling % 65536),
    (4, thermalCeiling s 0 + 65536 * thermalCeiling s 1), (4, p.govStepsDown.toNat), (4, p.thermalSteps.toNat),
    (4, p.measurements.toNat), (4, p.wearWrites.toNat), (4, p.guardRaises.toNat), (4, p.clockLowered.toNat),
    (4, p.domainGatings.toNat), (4, p.domainWakes.toNat),
    (4, packFields [(boolNat s.imprint.calOwner, 1), (boolNat s.imprint.recalPending, 1), (boolNat s.imprint.baselineEmpty, 1),
      (0, 5), (s.imprint.recalCount.toNat, 8)]),
    (4, if p.temps.isEmpty then 0 else hottest s 0 + 256 * hottest s 1)] ++
  ((List.range 193).flatMap (islandRegs s)) ++ ((List.range 11).flatMap (defaultRegs s)) ++ muRegs s

def stepRegs (x : StepBlk) : List Reg :=
  regRow 0 [(4, x.jobStep.toNat), (4, x.verdictLast.toNat), (8, x.stepNonfinite.toNat), (8, x.stepSaturations.toNat),
    (8, x.stepPoisoned.toNat), (4, x.stepsApplied.toNat), (4, x.stepsSkipped.toNat), (4, x.stepRollbacks.toNat)]

def ledgerCode : LedgerSt → Nat
  | .none => 0 | .running => 1 | .committing => 2 | .recovering => 3 | .halted => 4 | .standby => 5

def ctxLedgerRegs (x : Ctx) : List Reg :=
  let l := x.led
  regRow 0 [(4, packFields [(ledgerCode l.st, 3), (boolNat l.coordinator, 1), (boolNat l.feedShared, 1),
      (boolNat l.elasticDegraded, 1)]), (4, x.rank.toNat), (4, l.lastSealed.toNat), (4, l.sealed'.toNat), (4, l.failed.toNat),
    (4, l.lastFail.toNat), (4, l.waits.toNat), (4, l.haltCause.toNat), (8, l.snapshotBytes.toNat), (4, l.recoveries.toNat),
    (4, l.rebinds.toNat), (4, l.localRollbacks.toNat), (4, l.mismatches.toNat), (4, l.elasticDrops.toNat),
    (4, l.elasticJoins.toNat), (4, l.feedSharedObjects.toNat), (4, l.seq.toNat), (4, l.resumeStep.toNat), (4, l.exports.toNat)]

def ledgerRegs (s : State) : List Reg :=
  let u := s.ledger
  let held : Nat := (s.mem.granules.filter fun g => g.2.ledger).length
  regRow 0 [(4, packFields [(boolNat u.valid, 1), (boolNat u.copy, 1), (held, 14)]), (4, u.generation.toNat),
    (4, u.jobs.length % 256), (4, u.releases.toNat), (4, s.mem.ledgerLost.toNat)] ++
  ((List.range nCtx).flatMap fun c => regsAt (0x10000 + 0x100 * c) (stepRegs (s.ctx c).step)) ++
  (List.range nCtx).flatMap fun c => regsAt (0x20000 + 0x100 * c) (ctxLedgerRegs (s.ctx c))

def siteValue (x : Site) : Nat := packFields [(x.cause.toNat, 4), (boolNat x.failed, 1), (0, 3), (x.fwFailures.toNat, 2)]

def bringRegs (s : State) : List Reg :=
  let b := s.bring
  let k := b.campaign
  regRow 0 [(4, packFields [(b.phase.toNat, 4), (boolNat b.warm, 1), (boolNat b.halted, 1), (boolNat b.limitExceeded, 1), (0, 1),
      (b.failCode.toNat, 8)]),
    (4, packFields [(boolNat b.slotB, 1), (boolNat b.slotFallback, 1), (boolNat b.trial, 1), (boolNat b.fwRolledBack, 1),
      (boolNat b.wearReset, 1), (boolNat b.ownerInvalid, 1)]),
    (4, packFields [(b.lastWave.toNat, 4), (0, 4), (b.waveRetries.toNat, 8)])] ++
  ((List.range 8).map fun p => reg64 (0x10 + 8 * p) (tgetD b.phaseEnd (p + 1) 0).toNat) ++
  regRow 0x50 [(8, b.domainOn.toNat % 2 ^ 64), (8, b.domainOn.toNat / 2 ^ 64), (8, b.domainFailed.toNat % 2 ^ 64),
    (8, b.domainFailed.toNat / 2 ^ 64), (4, b.retirements.toNat), (4, b.spareBindings.toNat), (4, b.spareTestFails.toNat),
    (4, b.fwNaks.toNat), (4, b.fwUnicasts.toNat), (4, b.fwSiteFails.toNat)] ++
  regRow 0x100 [(4, packFields [(k.state.toNat, 3), (k.slot.getD 0, 4), (k.attempts.toNat, 2)]), (4, k.id.toNat),
    (4, ((campaignSession s).map (·.got)).getD 0)] ++
  (List.range nSites).map fun i => reg32 (0x400 + 4 * i) (siteValue (s.site i))

/-! ### The map (06 Table 6.7) -/

/-- The registers of the block at a control-space offset, and the offset within the block. -/
def blockAt (s : State) (o : Nat) : List Reg × Nat :=
  if o < 0x1000000 then (coreRegs s (o / 0x1000), o % 0x1000)
  else if o < 0x2000000 then (shelfRegs s ((o - 0x1000000) / 0x1000), o % 0x1000)
  else if o < 0x2100000 then (hbmRegs s ((o - 0x2000000) / 0x1000), o % 0x1000)
  else if o < 0x3000000 then (cxlRegs s ((o - 0x2100000) / 0x1000), o % 0x1000)
  else if o < 0x3010000 then (memoryRegs s, o - 0x3000000)
  else if o < 0x4000000 then ([], 0)
  else if o < 0x5000000 then (portRegs s ((o - 0x4000000) / 0x10000), o % 0x10000)
  else if o < 0x7000000 then (mediaRegs s ((o - 0x5000000) / 0x100000), o % 0x100000)
  else if o < 0x8000000 then (hostRegs s, o - 0x7000000)
  else if o < 0x9000000 then (securityRegs s, o - 0x8000000)
  else if o < 0xA000000 then (powerRegs s, o - 0x9000000)
  else if o < 0xB000000 then (ledgerRegs s, o - 0xA000000)
  else if o < 0xC000000 then (bringRegs s, o - 0xB000000)
  else ([], 0)

/-- The register that holds an offset of a block. -/
def regHolding (rs : List Reg) (o : Nat) : Option Reg := rs.find? fun r => r.off ≤ o && o < r.off + r.bytes

/-- The 32-bit word at a control-space offset; what no table defines reads 0 (06 R254). -/
def controlWord (s : State) (o : Nat) : Nat :=
  let (rs, i) := blockAt s o
  ((regHolding rs i).map fun r => bits r.val (8 * (i - r.off)) 32).getD 0

/-- `n` bytes of control space, a multiple of 4. -/
def controlBytes (s : State) (o n : Nat) : Blob :=
  ⟨n, (List.range (n / 4)).foldr (fun k acc => controlWord s (o + 4 * k) + 2 ^ 32 * acc) 0⟩

/-! ### Reads by halves (00 R20) -/

/-- The high half of the 64-bit register whose low half lies at an offset. -/
def highHalf (s : State) (o : Nat) : Option Nat :=
  let (rs, i) := blockAt s o
  (regHolding rs i).bind fun r => if r.bytes = 8 && r.off = i then some (r.val / 2 ^ 32) else none

/-- A requester's read of a low half latches the high half. -/
def latchHigh (s : State) (req o : Nat) : State :=
  match highHalf s o with
  | none => s
  | some v => { s with latches := tset s.latches req (tset (tgetD s.latches req []) (o + 4) v) }

/-- COUNTER_LOW_HALF_READ by requester 0, the host, or 1, a management controller. -/
def counterLowHalfRead (s : State) (req o : Nat) : State :=
  if (req = 0 && hostServed s) || (req = 1 && mgmtMode s ≠ .off) then latchHigh s req o else s

/-- A 32-bit read by a requester: a high half that is latched for it is answered from the latch. -/
def controlRead32 (s : State) (req o : Nat) : Nat × State :=
  match tget (tgetD s.latches req []) o with
  | some v => (v, { s with latches := tset s.latches req (terase (tgetD s.latches req []) o) })
  | none => (controlWord s o, latchHigh s req o)

/-! ### The management operations (16 Table 16.7) -/

/-- The boot ROM serves the bring-up and security engine blocks alone (16 R578). -/
def romBlock (o n : Nat) : Bool :=
  (0x8000000 ≤ o && o + n ≤ 0x9000000) || (0xB000000 ≤ o && o + n ≤ 0xC000000)

/-- IDENTIFY: DEVICE_ID, SERIAL, EPOCH, BRINGUP_STATUS, HOST_STATUS, SEC_STATE. -/
def identifyBlob (s : State) : Blob :=
  ⟨28, packFields [(deviceId s, 32), (s.sec.serial.toNat, 64), (s.host.epoch.toNat, 32), (controlWord s 0xB000000, 32),
    (hostStatusValue s, 32), (secStateValue s, 32)]⟩

def identify (s : State) (r : Blob) : State :=
  request s r 1 true (fun n => n = 0) fun s _ => (s, okStatus, identifyBlob s)

/-- READ_CONTROL: an offset or a length outside Table 16.7 gets BAD_REGION (log entry 37). -/
def readControlOp (s : State) (p : Blob) : State × Nat × Blob :=
  let o := p.bits 0 64
  let n := p.bits 64 32
  if o % 4 ≠ 0 || n % 4 ≠ 0 || n < 4 || 4096 < n || 0x10000000 < o + n then (s, badRegion, Blob.empty)
  else if mgmtMode s = .rom && !romBlock o n then (s, 2, Blob.empty)
  else if n = 4 then
    let (v, s1) := controlRead32 s 1 o
    (s1, okStatus, ⟨4, v⟩)
  else (s, okStatus, controlBytes s o n)

def readControl (s : State) (r : Blob) : State := request s r 2 true (fun n => n = 12) readControlOp

end Sys2Proof.Machine
end

