-- ==== Sys2Proof/Machine/Flow.lean ====
section
/-!
DEFINITION. A word that crosses into a consumer (05 R181), and what follows from a command beside its own effect: credits
to fabric producers and loaders (09 R372, R381), loads and slips that settle (11 R444), HOST_STATUS (11 R454), and the
ageing measurement at a commit point (13 R499).
-/

namespace Sys2Proof.Machine

/-! ### STREAM_WORD -/

/-- The tree child of a consumer has room: it takes a value as the node uses the one before. -/
def childTakes (s : State) (c node k : Nat) (w : SWord) : Bool := w.header || ((s.node c node).kid k).vals.isEmpty

/-- A word of a local producer is tapped (10 R395) as it leaves for the first consumer, or for the one whose turn a deal
gives it; what comes from a peer is tapped as it arrives. -/
def tapLocal (s : State) (c i k : Nat) (r : StreamRec) (w : SWord) : State :=
  if epKind r.producer ≠ 6 && (k = 0 || r.fanout = 2) then tapWord s c i w else s

/-- The word at the head of consumer `k`'s buffer crosses into it, where it has a port or a child entry that takes it; the
words for a fabric consumer leave in a packet. An error of the read that retires the core ends the command there. A prefetch engine, or an intake queue, takes its words by commands of its
own. Between HALT and RESUME no word moves. -/
def streamWord (s : State) (c i k : Nat) (ecc : Ecc) : State :=
  match streamRec (s.ctx c) i with
  | none => s
  | some r =>
    if (s.ctx c).held then s
    else match r.consumers[k]?, ((s.stream c i).buf k).head with
    | some e, some w =>
      if !endpointOn s (s.ctx c) e || !bufferOn s c r k then s
      else
        let s1 := bufferError s c i k ecc
        let w1 := (((s1.stream c i).buf k).head).getD w
        match epKind e with
        | 0 =>
          match lcoreOf (s.ctx c) (epLcore e) with
          | some core =>
            if !portTakes s core (epPort e) w then s
            else if !portTakes s1 core (epPort e) w1 then s1
            else takeWord (tapLocal (popWord s1 c i k) c i k r w1) core (epPort e) w1
          | none => s
        | 2 =>
          if childTakes s c (epNode e) (epChild e) w then
            treeTake (tapLocal (popWord s1 c i k) c i k r w1) c (epNode e) (epChild e) w1
          else s
        | 6 => sendStream s1 c i k e
        | _ => s
    | _, _ => s

/-! ### What follows -/

/-- A context has reached a commit point. -/
def pointReached (before after : State) : Bool :=
  (List.range nCtx).any fun c =>
    (after.ctx c).led.waiting.isSome && (after.ctx c).led.waiting ≠ (before.ctx c).led.waiting

/-- A commit point begins an ageing measurement unless one is running (13 R499). -/
def measureAt (before after : State) : State := if pointReached before after then startMeasurement after else after

/-- Loads that are ready settle, and the slips that wait for them end. -/
def settle (before after : State) : State := measureAt before (flushCredits before (settleSlips (settleLoads after)))

/-- An intake command, with the credit records that it has sent. -/
def intakeStep (s : State) (f : State → State) : State := flushCredits s (f s)

/-- A fabric command on a link, with what new records mean for the ledgers and with HOST_STATUS. -/
def fabricStep (s : State) (f : State → State) : State := hostStatus s (afterRecords s (f s))

end Sys2Proof.Machine
end

