-- ==== Sys2Proof/Machine/CmdBring.lean ====
section
/-!
DEFINITION. The meanings of the commands on bring-up, yield, firmware and campaigns (12).
-/

namespace Sys2Proof.Machine

/-- BRINGUP_START (R457). -/
def execBringupStart (s : State) : Out := .next (bringupStart s)

/-- PHASE_INPUT_END (R460). -/
def execPhaseInputEnd (cycles : BitVec 48) (s : State) : Out := .next (phaseInputEnd s cycles)

/-- PHASE_IMPRINT_END (R461). -/
def execPhaseImprintEnd (cycles : BitVec 48) (s : State) : Out := .next (phaseImprintEnd s cycles)

/-- PHASE_MEMORY_END (R458). -/
def execPhaseMemoryEnd (cycles : BitVec 48) (trained : BitVec 4) (retained : BitVec 4) (warmOk : Bool) (hbmReady :
    BitVec 8) (s : State) : Out :=
  .next (phaseMemoryEnd s cycles trained retained warmOk hbmReady)

/-- PHASE_WAVES_END (R467). -/
def execPhaseWavesEnd (cycles : BitVec 48) (s : State) : Out := .next (phaseWavesEnd s cycles)

/-- PHASE_SELF_TEST_END (R471). -/
def execPhaseSelfTestEnd (cycles : BitVec 48) (clocks : Tbl Nat) (s : State) : Out :=
  .next (phaseSelfTestEnd s cycles clocks)

/-- PHASE_AGEING_END (R473). -/
def execPhaseAgeingEnd (cycles : BitVec 48) (results : Tbl (BitVec 16 × List Bool)) (s : State) : Out :=
  .next (phaseAgeingEnd s cycles results)

/-- PHASE_YIELD_END (R477). -/
def execPhaseYieldEnd (cycles : BitVec 48) (s : State) : Out := .next (phaseYieldEnd s cycles)

/-- PHASE_ACCESSION_END (R466). -/
def execPhaseAccessionEnd (cycles : BitVec 48) (s : State) : Out := .next (phaseAccessionEnd s cycles)

/-- WAVE_SETTLED (R468). -/
def execWaveSettled (s : State) : Out := .next (waveSettled s)

/-- WAVE_TIMEOUT (R468). -/
def execWaveTimeout (s : State) : Out := .next (cancelLoads (firmwareSettle (waveTimeout s)))

/-- LIMIT_EXCEEDED (R459). -/
def execLimitExceeded (s : State) : Out := .next (limitExceeded s)

/-- SELF_TEST_RESULT (R471). -/
def execSelfTestResult (unit' : Nat) (cause : BitVec 4) (direct : Bool) (s : State) : Out :=
  withUnit (unit' < 168 || unit' = 188 || unit' = 189) (selfTestResult s unit' cause direct)

/-- FW_BLOCK (R475). -/
def execFwBlock (site : Nat) (block : Nat) (ok : Bool) (unicast : Bool) (s : State) : Out :=
  withUnit (site < nSites && block < 32) (cancelLoads (fwBlock s site block ok unicast))

/-- FW_NAK (R475). -/
def execFwNak (site : Nat) (block : Nat) (s : State) : Out :=
  withUnit (site < nSites && block < 32) (fwNak s site block)

/-- FW_NAK_TIMEOUT (R475). -/
def execFwNakTimeout (site : Nat) (s : State) : Out := withUnit (site < nSites) (fwNakTimeout s site)

/-- FW_VERIFIED (R476). -/
def execFwVerified (site : Nat) (ok : Bool) (s : State) : Out :=
  withUnit (site < nSites) (cancelLoads (fwVerified s site ok))

/-- CORE_CHECK (R478). -/
def execCoreCheck (site : Nat) (s : State) : Out := withUnit (site < nSites) (cancelLoads (coreCheck s site))

/-- SPARE_TEST_DONE (R479). -/
def execSpareTestDone (shelf : Nat) (ok : Bool) (s : State) : Out :=
  withUnit (shelf < nShelves) (spareTestDone s shelf ok)

/-- CAMPAIGN_OPEN (R483). -/
def execCampaignOpen (request : Blob) (s : State) : Out := .next (campaignOpen s request)

/-- CAMPAIGN_PACKAGE_CHECK (R484). -/
def execCampaignPackageCheck (sigOk : Bool) (backOk : Bool) (facts : PkgFacts) (s : State) : Out :=
  .next (campaignPackageCheck s sigOk backOk facts)

/-- CAMPAIGN_ACTIVATE (R486). -/
def execCampaignActivate (request : Blob) (s : State) : Out := .next (campaignActivate s request)

/-- CAMPAIGN_ABORT (R486). -/
def execCampaignAbort (request : Blob) (s : State) : Out := .next (campaignAbort s request)

end Sys2Proof.Machine
end

