-- ==== Sys2Proof/Machine/CmdCore.lean ====
section
/-!
DEFINITION. The meanings of the commands on the array, the window engine, the post-processing unit and the trees (03, 04).
-/

namespace Sys2Proof.Machine

/-- ROW_ISSUE (R113). -/
def execRowIssue (core : Nat) (ecc : Ecc) (s : State) : Out := withUnit (core < nCores) (issueRow s core ecc)

/-- ROW_ENTRY (R117). -/
def execRowEntry (core : Nat) (s : State) : Out := withUnit (core < nCores) (rowEntry s core)

/-- DRAIN_UNIT (R124). -/
def execDrainUnit (core : Nat) (s : State) : Out := withUnit (core < nCores) (drainUnit s core)

/-- WEIGHT_LOAD_START (R130). -/
def execWeightLoadStart (core : Nat) (array : Nat) (bank : Nat) (ecc : Ecc) (s : State) : Out :=
  withUnit (core < nCores && array < 4 && bank < 2) (loadStart s core array bank ecc)

/-- WEIGHT_LOAD_DONE (R129). -/
def execWeightLoadDone (core : Nat) (array : Nat) (s : State) : Out :=
  withUnit (core < nCores && array < 4) (loadDone s core array)

/-- TREE_NODE (R134). -/
def execTreeNode (ctx : Nat) (node : Nat) (s : State) : Out :=
  withUnit (ctx < nCtx && node < 65536) (barrierRoot (treeNode s ctx node) ctx node)

/-- WINDOW_TENSOR (R145). -/
def execWindowTensor (core : Nat) (s : State) : Out := withUnit (core < nCores) (windowTensor s core)

/-- INPUT_ROW_ARRIVAL (R154). -/
def execInputRowArrival (core : Nat) (s : State) : Out := withUnit (core < nCores) (inputRowArrival s core)

/-- HALO_COPY (R161). -/
def execHaloCopy (core : Nat) (ecc : Ecc) (s : State) : Out := withUnit (core < nCores) (haloCopy s core ecc)

/-- POOL_POSITION (R164). -/
def execPoolPosition (core : Nat) (s : State) : Out := withUnit (core < nCores) (poolPosition s core)

/-- BOX_DECODE (R167). -/
def execBoxDecode (core : Nat) (s : State) : Out := withUnit (core < nCores) (boxDecode s core)

/-- NMS_CANDIDATE (R169). -/
def execNmsCandidate (core : Nat) (s : State) : Out := withUnit (core < nCores) (nmsCandidate s core)

/-- NMS_SELECT (R170). -/
def execNmsSelect (core : Nat) (s : State) : Out := withUnit (core < nCores) (nmsSelect s core)

end Sys2Proof.Machine
end

