-- ==== Sys2Proof/Machine/CmdHost.lean ====
section
/-!
DEFINITION. The meanings of the commands on the host link, slips, volumes and contexts (11; 12 R465).
-/

namespace Sys2Proof.Machine

/-- COUNTER_LOW_HALF_READ (R20). -/
def execCounterLowHalfRead (requester : Nat) (offset : Nat) (s : State) : Out :=
  withUnit (requester < 2 && offset % 4 = 0 && offset < 0x10000000) (counterLowHalfRead s requester offset)

/-- REGISTER_WRITE_IGNORED (R428). -/
def execRegisterWriteIgnored (bar : Nat) (offset : Nat) (s : State) : Out :=
  withUnit ((bar = 0 && offset < 0x200000) || (bar = 2 && offset < 0x10000000)) (registerWriteIgnored s bar offset)

/-- HOT_RESET (R429). -/
def execHotReset (s : State) : Out := .next (hotReset s)

/-- FUNCTION_LEVEL_RESET (R429). -/
def execFunctionLevelReset (s : State) : Out := .next (functionLevelReset s)

/-- PCIE_LINK_DOWN (R429). -/
def execPcieLinkDown (s : State) : Out := .next (pcieLinkDown s)

/-- PERST_ASSERT (R570). -/
def execPerstAssert (s : State) : Out := .next (perstAssert s)

/-- PERST_RELEASE (R570). -/
def execPerstRelease (s : State) : Out := .next (perstRelease s)

/-- CALL_DOORBELL (R432). -/
def execCallDoorbell (ring : Nat) (value : BitVec 32) (writes : Tbl (BitVec 1024)) (s : State) : Out :=
  withUnit (ring < 16) (callDoorbell s ring value writes)

/-- SLIP_TAKE (R432). -/
def execSlipTake (ring : Nat) (s : State) : Out := withUnit (ring < 16) (slipTake s ring)

/-- SLIP_END (R432). -/
def execSlipEnd (ring : Nat) (seq : BitVec 32) (s : State) : Out :=
  withUnit (ring < 16) (settleRelease (slipEnd s ring seq))

/-- RET_ACK (R432). -/
def execRetAck (ring : Nat) (value : BitVec 32) (s : State) : Out := withUnit (ring < 16) (retAck s ring value)

/-- RING_RESET (R435). -/
def execRingReset (ring : Nat) (s : State) : Out := withUnit (ring < 16) (ringReset s ring)

/-- RING_RESET_EFFECT (R435). -/
def execRingResetEffect (ring : Nat) (s : State) : Out := withUnit (ring < 16) (ringResetEffect s ring)

/-- UPLOAD (R439). -/
def execUpload (ring : Nat) (seq : BitVec 32) (volume : Blob) (dmaOk : Bool) (sigOk : Bool) (s :
    State) : Out :=
  withUnit (ring < 16) (settleRelease (upload s ring seq volume dmaOk sigOk))

/-- PULL (R440). -/
def execPull (ring : Nat) (seq : BitVec 32) (sigOk : Bool) (s : State) : Out :=
  withUnit (ring < 16) (settleRelease (pull s ring seq sigOk))

/-- CREATE (R443). -/
def execCreate (ring : Nat) (seq : BitVec 32) (s : State) : Out := withUnit (ring < 16) (create s ring seq)

/-- LOAD (R444). -/
def execLoad (ring : Nat) (seq : BitVec 32) (stripes : Tbl (List Nat)) (s : State) : Out :=
  withUnit (ring < 16) (settle s (load s ring seq stripes))

/-- UNLOAD (R444). -/
def execUnload (ring : Nat) (seq : BitVec 32) (s : State) : Out :=
  withUnit (ring < 16) (flushCredits s (unload s ring seq))

/-- DESTROY (R446). -/
def execDestroy (ring : Nat) (seq : BitVec 32) (s : State) : Out := withUnit (ring < 16) (destroy s ring seq)

/-- PIN (R452). -/
def execPin (ring : Nat) (seq : BitVec 32) (s : State) : Out := withUnit (ring < 16) (pin s ring seq)

/-- UNPIN (R452). -/
def execUnpin (ring : Nat) (seq : BitVec 32) (s : State) : Out := withUnit (ring < 16) (unpin s ring seq)

/-- WEED (R451). -/
def execWeed (ring : Nat) (seq : BitVec 32) (s : State) : Out := withUnit (ring < 16) (weed s ring seq)

/-- WAIT (R449). -/
def execWait (ring : Nat) (seq : BitVec 32) (s : State) : Out := withUnit (ring < 16) (wait s ring seq)

/-- READ_RESUME (R436). -/
def execReadResume (ring : Nat) (seq : BitVec 32) (s : State) : Out := withUnit (ring < 16) (readResume s ring seq)

/-- TEARDOWN (R446). -/
def execTeardown (ctx : Nat) (s : State) : Out := withUnit (ctx < nCtx) (flushCredits s (teardown s ctx))

/-- TEARDOWN_DONE (R446). -/
def execTeardownDone (ctx : Nat) (s : State) : Out := withUnit (ctx < nCtx) (settleSlips (teardownDone s ctx))

/-- MSIX_UNMASK (R454). -/
def execMsixUnmask (vector : Nat) (s : State) : Out := withUnit (vector < 33) (msixUnmask s vector)

/-- PULL_UNAVAILABLE (R440). -/
def execPullUnavailable (ring : Nat) (seq : BitVec 32) (s : State) : Out :=
  withUnit (ring < 16) (settleRelease (pullUnavailable s ring seq))

/-- CONFIGURATION_REQUEST (R465). -/
def execConfigurationRequest (settled : Bool) (s : State) : Out := .next (configurationRequest s settled)

end Sys2Proof.Machine
end

