-- ==== Sys2Proof/Machine/CmdLedger.lean ====
section
/-!
DEFINITION. The meanings of the commands on commits and recovery (10).
-/

namespace Sys2Proof.Machine

/-- COMMIT_START (R393). -/
def execCommitStart (ctx : Nat) (s : State) : Out := withUnit (ctx < nCtx) (commitSnapshot s ctx)

/-- SNAPSHOT_DONE (R393). -/
def execSnapshotDone (ctx : Nat) (s : State) : Out := withUnit (ctx < nCtx) (snapshotDone s ctx)

/-- PARITY_COMPUTE (R400). -/
def execParityCompute (ctx : Nat) (group : Nat) (s : State) : Out :=
  withUnit (ctx < nCtx) (parityCompute s ctx group)

/-- COPY_OBJECT (R396). -/
def execCopyObject (ctx : Nat) (object : Nat) (s : State) : Out := withUnit (ctx < nCtx) (copyObject s ctx object)

/-- COMMIT_RECORD_WRITE (R401). -/
def execCommitRecordWrite (ctx : Nat) (s : State) : Out := withUnit (ctx < nCtx) (commitRecordWrite s ctx)

/-- COMMIT_LEAF (R402). -/
def execCommitLeaf (ctx : Nat) (s : State) : Out := withUnit (ctx < nCtx) (commitLeaf s ctx)

/-- SEALED (R403). -/
def execSealed (ctx : Nat) (s : State) : Out := withUnit (ctx < nCtx) (sealed s ctx)

/-- COMMIT_FAILED (R402). -/
def execCommitFailed (ctx : Nat) (cause : Nat) (rank : Nat) (s : State) : Out :=
  withUnit (ctx < nCtx) (commitFailed s ctx cause rank)

/-- LOST (R408). -/
def execLost (ctx : Nat) (s : State) : Out := withUnit (ctx < nCtx) (flushCredits s (lost s ctx))

/-- FAULT (R408). -/
def execFault (ctx : Nat) (s : State) : Out := withUnit (ctx < nCtx) (flushCredits s (fault s ctx))

/-- HALT (R410). -/
def execHalt (ctx : Nat) (s : State) : Out := withUnit (ctx < nCtx) (flushCredits s (halt s ctx))

/-- BIND (R445). -/
def execBind (ctx : Nat) (s : State) : Out := withUnit (ctx < nCtx) (bind s ctx)

/-- BIND_ACK (R410). -/
def execBindAck (ctx : Nat) (s : State) : Out := withUnit (ctx < nCtx) (flushCredits s (bindAck s ctx))

/-- REBIND (R410). -/
def execRebind (ctx : Nat) (stripes : Tbl (List Nat)) (s : State) : Out :=
  withUnit (ctx < nCtx) (rebind s ctx stripes)

/-- RESTORE_DONE (R413). -/
def execRestoreDone (ctx : Nat) (record : Blob) (data : Tbl (List Blob)) (copies : Tbl Blob) (images : Tbl Blob)
    (parity : List Blob) (s : State) : Out :=
  withUnit (ctx < nCtx) (restoreDone s ctx record data copies images parity)

/-- RESTORED (R410). -/
def execRestored (ctx : Nat) (s : State) : Out := withUnit (ctx < nCtx) (flushCredits s (restored s ctx))

/-- RESUME (R414). -/
def execResume (ctx : Nat) (s : State) : Out := withUnit (ctx < nCtx) (flushCredits s (resume s ctx))

/-- DROP (R421). -/
def execDrop (ctx : Nat) (s : State) : Out := withUnit (ctx < nCtx) (drop s ctx)

/-- RELEASE_RECORD (R418). -/
def execReleaseRecord (job : BitVec 32) (s : State) : Out := .next (releaseRecord s job)

/-- JOIN (R422). -/
def execJoin (ctx : Nat) (s : State) : Out := withUnit (ctx < nCtx) (flushCredits s (join s ctx))

end Sys2Proof.Machine
end

