-- ==== Sys2Proof/Machine/CmdLink.lean ====
section
/-!
DEFINITION. The meanings of the commands on links, keying, accession and routes (09, 14).
-/

namespace Sys2Proof.Machine

/-- LINK_TRAINED (R341). -/
def execLinkTrained (link : Nat) (lanes : BitVec 8) (s : State) : Out :=
  withUnit (link < 16) (fabricStep s fun s => linkTrained s link lanes)

/-- LOSS_OF_SIGNAL (R351). -/
def execLossOfSignal (link : Nat) (s : State) : Out :=
  withUnit (link < 16) (fabricStep s fun s => lossOfSignal s link)

/-- KEEPALIVE_TIMEOUT (R351). -/
def execKeepaliveTimeout (link : Nat) (s : State) : Out :=
  withUnit (link < 16) (fabricStep s fun s => keepaliveTimeout s link)

/-- FLIT_SLOT (R345). -/
def execFlitSlot (link : Nat) (s : State) : Out := withUnit (link < 16) (flitSlot s link)

/-- FLIT_IDLE (R347). -/
def execFlitIdle (link : Nat) (flit : Flit) (count : Nat) (fec : Fec) (s : State) : Out :=
  withUnit (link < 16) (fabricStep s fun s => flitIdle s link flit count fec)

/-- FLIT_DATA (R346). -/
def execFlitData (link : Nat) (flit : Flit) (count : Nat) (fec : Fec) (s : State) : Out :=
  withUnit (link < 16) (fabricStep s fun s => flitData s link flit count fec)

/-- KEY_OFFER (R543). -/
def execKeyOffer (link : Nat) (serial : BitVec 64) (ownerDigest : BitVec 256) (chainOk : Bool) (k : BitVec 320)
    (s : State) : Out :=
  withUnit (link < 16) (fabricStep s fun s => keyOffer s link serial ownerDigest chainOk k)

/-- KEY_CONFIRM (R543). -/
def execKeyConfirm (link : Nat) (ok : Bool) (s : State) : Out :=
  withUnit (link < 16) (fabricStep s fun s => keyConfirm s link ok)

/-- KEY_ABORT (R545). -/
def execKeyAbort (link : Nat) (s : State) : Out := withUnit (link < 16) (fabricStep s fun s => keyAbort s link)

/-- KEYING_TIMEOUT (R545). -/
def execKeyingTimeout (link : Nat) (s : State) : Out :=
  withUnit (link < 16) (fabricStep s fun s => keyingTimeout s link)

/-- KEYING_RETRY (R545). -/
def execKeyingRetry (link : Nat) (s : State) : Out :=
  withUnit (link < 16) (fabricStep s fun s => keyingRetry s link)

/-- HELLO (R353). -/
def execHello (link : Nat) (s : State) : Out := withUnit (link < 16) (fabricStep s fun s => hello s link)

/-- FABRIC_MISMATCH_RETRY (R353). -/
def execFabricMismatchRetry (link : Nat) (s : State) : Out :=
  withUnit (link < 16) (fabricStep s fun s => fabricMismatchRetry s link)

/-- SYNC_OFFER (R354). -/
def execSyncOffer (link : Nat) (s : State) : Out := withUnit (link < 16) (fabricStep s fun s => syncOffer s link)

/-- SYNC_RECORDS (R361). -/
def execSyncRecords (link : Nat) (s : State) : Out :=
  withUnit (link < 16) (fabricStep s fun s => syncRecords s link)

/-- SYNC_DONE (R361). -/
def execSyncDone (link : Nat) (s : State) : Out := withUnit (link < 16) (fabricStep s fun s => syncDone s link)

/-- SYNC_NOT_READY (R355). -/
def execSyncNotReady (link : Nat) (s : State) : Out :=
  withUnit (link < 16) (fabricStep s fun s => syncNotReady s link)

/-- SYNC_BACKOFF (R355). -/
def execSyncBackoff (link : Nat) (s : State) : Out :=
  withUnit (link < 16) (fabricStep s fun s => syncBackoff s link)

/-- ACCESSION_SETTLE (R359). -/
def execAccessionSettle (s : State) : Out := .next (fabricStep s accessionSettle)

/-- LSR (R361). -/
def execLsr (link : Nat) (s : State) : Out := withUnit (link < 16) (fabricStep s fun s => lsr s link)

/-- LSDB_RECORD_EXPIRY (R362). -/
def execLsdbRecordExpiry (serial : Nat) (s : State) : Out := .next (fabricStep s fun s => lsdbRecordExpiry s serial)

/-- ROUTE_RECOMPUTE (R366). -/
def execRouteRecompute (s : State) : Out := .next (orphanSessions (routeRecompute s))

/-- PACKET_FORWARD (R367). -/
def execPacketForward (link : Nat) (s : State) : Out := withUnit (link < 16) (packetForward s link)

/-- LANE_SIGNAL (R350). -/
def execLaneSignal (link : Nat) (s : State) : Out := withUnit (link < 16) (laneSignal s link)

/-- ETH_LINK_LOSS (R350). -/
def execEthLinkLoss (link : Nat) (s : State) : Out :=
  withUnit (link < 16) (fabricStep s fun s => ethLinkLoss s link)

end Sys2Proof.Machine
end

