-- ==== Sys2Proof/Machine/CmdMedia.lean ====
section
/-!
DEFINITION. The meanings of the commands on the media complexes (07).
-/

namespace Sys2Proof.Machine

/-- SAMPLE_RECORD (R265). -/
def execSampleRecord (ctx : Nat) (entry : Nat) (poisoned : Bool) (info : StreamInfo) (s : State) : Out :=
  withUnit (ctx < nCtx && entry < 256) (intakeStep s fun s => sessionRecord s ctx entry poisoned info)

/-- DECODE_START (R291). -/
def execDecodeStart (complex : Nat) (queue : Nat) (position : Nat) (yields : Decoded) (waited : BitVec 48) (s :
    State) : Out :=
  withUnit (complex < 2 && queue < 256) (intakeStep s fun s => decodeStart s complex queue position yields waited)

/-- DECODE_DONE (R286). -/
def execDecodeDone (complex : Nat) (queue : Nat) (position : Nat) (s : State) : Out :=
  withUnit (complex < 2 && queue < 256) (intakeStep s fun s => decodeDone s complex queue position)

/-- CREDIT_TIMER (R287). -/
def execCreditTimer (complex : Nat) (queue : Nat) (s : State) : Out :=
  withUnit (complex < 2 && queue < 256) (intakeStep s fun s => creditTimer s complex queue)

/-- INTAKE_TENSOR_EMIT (R274). -/
def execIntakeTensorEmit (complex : Nat) (queue : Nat) (s : State) : Out :=
  withUnit (complex < 2 && queue < 256) (intakeStep s fun s => intakeTensorEmit s complex queue)

/-- LATE_CORRUPT (R271). -/
def execLateCorrupt (complex : Nat) (queue : Nat) (s : State) : Out :=
  withUnit (complex < 2 && queue < 256) (intakeStep s fun s => lateCorrupt s complex queue)

/-- ROI_SET_TAKE (R276). -/
def execRoiSetTake (complex : Nat) (queue : Nat) (waited : BitVec 48) (s : State) : Out :=
  withUnit (complex < 2 && queue < 256) (intakeStep s fun s => returnCredits (roiSetTake s complex queue waited))

/-- SUBSTITUTION (R289). -/
def execSubstitution (complex : Nat) (queue : Nat) (s : State) : Out :=
  withUnit (complex < 2 && queue < 256) (intakeStep s fun s => substitution s complex queue)

end Sys2Proof.Machine
end

