-- ==== Sys2Proof/Machine/CmdMemory.lean ====
section
/-!
DEFINITION. The meanings of the commands on the memory tiers and the prefetch engines (06).
-/

namespace Sys2Proof.Machine

/-- The engine of an access exists. -/
def engineExists : Engine → Bool
  | .stage core => core < nCores
  | .prefetch core => core < nCores
  | .device => true

/-- MEM_ACCESS (R217). -/
def execMemAccess (engine : Engine) (addr : Nat) (data : Option (BitVec 1024)) (poison : Bool) (ecc : Ecc) (s :
    State) : Out :=
  withUnit (engineExists engine) (cancelLoads (memAccess s engine addr data poison ecc))

/-- PATROL_SCRUB (R232). -/
def execPatrolScrub (stack : Nat) (ecc : Ecc) (s : State) : Out := withUnit (stack < 8) (patrolScrub s stack ecc)

/-- GRANULE_FILL_DONE (R225). -/
def execGranuleFillDone (granule : Nat) (s : State) : Out :=
  withUnit (granule < nGranules) (granuleFillDone s granule)

/-- CXL_WRITE_DURABLE (R236). -/
def execCxlWriteDurable (port : Nat) (s : State) : Out := withUnit (port < 4) (cxlWriteDurable s port)

/-- CXL_LINK_FAIL (R240). -/
def execCxlLinkFail (port : Nat) (s : State) : Out := withUnit (port < 4) (failLost s (cxlLinkFail s port) port)

/-- CXL_RETRAIN_DONE (R240). -/
def execCxlRetrainDone (port : Nat) (ok : Bool) (s : State) : Out := withUnit (port < 4) (ledgerLost s (cxlRetrainDone s port ok))

/-- PREFETCH_TURN (R253). -/
def execPrefetchTurn (shelf : Nat) (ecc : Ecc) (s : State) : Out :=
  withUnit (shelf < nShelves) (returnCredits (prefetchTurn s shelf ecc))

end Sys2Proof.Machine
end

