-- ==== Sys2Proof/Machine/CmdMgmt.lean ====
section
/-!
DEFINITION. The meanings of the commands on the security engine and the management interface (14, 16).
-/

namespace Sys2Proof.Machine

/-- ATTEST (R546). -/
def execAttest (request : Blob) (signature : BitVec 512) (s : State) : Out := .next (attest s request signature)

/-- ENROL (R529). -/
def execEnrol (request : Blob) (sigOk : Bool) (s : State) : Out := .next (enrol s request sigOk)

/-- RELEASE (R530). -/
def execRelease (request : Blob) (sigOk : Bool) (s : State) : Out := .next (release s request sigOk)

/-- RECALIBRATE (R505). -/
def execRecalibrate (request : Blob) (sigOk : Bool) (s : State) : Out := .next (recalibrate s request sigOk)

/-- KEY_SLOT_GRANT (R533). -/
def execKeySlotGrant (slot : Nat) (s : State) : Out := withUnit (slot < 128) (keySlotGrant s slot)

/-- IDENTIFY (R577). -/
def execIdentify (request : Blob) (s : State) : Out := .next (identify s request)

/-- READ_CONTROL (R577). -/
def execReadControl (request : Blob) (s : State) : Out := .next (readControl s request)

/-- IMPRINT_WRITE (R580). -/
def execImprintWrite (request : Blob) (s : State) : Out := .next (imprintWrite s request)

/-- IMPRINT_COMMIT (R580). -/
def execImprintCommit (request : Blob) (sigOk : Bool) (facts : PkgFacts) (s : State) : Out :=
  .next (imprintCommit s request sigOk facts)

/-- REBUILD_BOOT (R581). -/
def execRebuildBoot (request : Blob) (s : State) : Out := .next (rebuildBoot s request)

/-- MANAGEMENT_RESPONSE_READ (R576). -/
def execManagementResponseRead (s : State) : Out := .next (managementResponseRead s)

/-- SETDASA (R575). -/
def execSetdasa (static : BitVec 7) (dyn : BitVec 7) (s : State) : Out := .next (setdasa s static dyn)

/-- ENTDAA (R575). -/
def execEntdaa (dyn : BitVec 7) (s : State) : Out := .next (entdaa s dyn)

/-- RSTDAA (R575). -/
def execRstdaa (s : State) : Out := .next (rstdaa s)

/-- SETNEWDA (R575). -/
def execSetnewda (dyn : BitVec 7) (s : State) : Out := .next (setnewda s dyn)

/-- GETPID (R575). -/
def execGetpid (s : State) : Out := .next (getpid s)

/-- GETBCR (R575). -/
def execGetbcr (s : State) : Out := .next (getbcr s)

/-- GETDCR (R575). -/
def execGetdcr (s : State) : Out := .next (getdcr s)

/-- GETSTATUS (R575). -/
def execGetstatus (s : State) : Out := .next (getstatus s)

/-- ENEC (R575). -/
def execEnec (mask : BitVec 8) (s : State) : Out := .next (enec s mask)

/-- DISEC (R575). -/
def execDisec (mask : BitVec 8) (s : State) : Out := .next (disec s mask)

end Sys2Proof.Machine
end

