-- ==== Sys2Proof/Machine/CmdPacket.lean ====
section
/-!
DEFINITION. The meanings of the commands on packets at their destination, multicast, loans, and Ethernet (09).
-/

namespace Sys2Proof.Machine

/-- STREAM (R372). -/
def execStream (link : Nat) (s : State) : Out := withUnit (link < 16) (stream s link)

/-- CREDIT (R372). -/
def execCredit (link : Nat) (s : State) : Out := withUnit (link < 16) (credit s link)

/-- WRITE (R373). -/
def execWrite (link : Nat) (s : State) : Out := withUnit (link < 16) (write s link)

/-- READ (R373). -/
def execRead (link : Nat) (s : State) : Out := withUnit (link < 16) (read s link)

/-- READ_DATA (R373). -/
def execReadData (link : Nat) (s : State) : Out := withUnit (link < 16) (readData s link)

/-- ACK (R370). -/
def execAck (link : Nat) (s : State) : Out := withUnit (link < 16) (ack s link)

/-- COLLECTIVE (R374). -/
def execCollective (link : Nat) (s : State) : Out := withUnit (link < 16) (collective s link)

/-- MCAST (R376). -/
def execMcast (link : Nat) (s : State) : Out := withUnit (link < 16) (mcast s link)

/-- LOAN (R377). -/
def execLoan (link : Nat) (s : State) : Out := withUnit (link < 16) (loan s link)

/-- LOAN_DATA (R377). -/
def execLoanData (link : Nat) (s : State) : Out := withUnit (link < 16) (loanData s link)

/-- SAMPLE (R383). -/
def execSample (link : Nat) (s : State) : Out := withUnit (link < 16) (sample s link)

/-- NOTICE_LAGGED (R377). -/
def execNoticeLagged (link : Nat) (s : State) : Out := withUnit (link < 16) (noticeLagged s link)

/-- NOTICE_DONE (R378). -/
def execNoticeDone (link : Nat) (s : State) : Out := withUnit (link < 16) (campaignSettle (noticeDone s link))

/-- TRANSPORT_RETRANSMIT (R370). -/
def execTransportRetransmit (connection : Nat) (s : State) : Out := .next (transportRetransmit s connection)

/-- MCAST_SEND (R376). -/
def execMcastSend (job : BitVec 32) (session : Nat) (child : Nat) (s : State) : Out :=
  .next (mcastSend s job session child)

/-- ETH_FRAME (R379). -/
def execEthFrame (link : Nat) (frame : Blob) (fec : Fec) (lapsed : Bool) (s : State) : Out :=
  withUnit (link < 16) (ethFrame s link frame fec lapsed)

/-- SEGMENT_OPEN (R381). -/
def execSegmentOpen (source : Nat) (s : State) : Out := withUnit (source < 16) (segmentOpen s source)

/-- SEGMENT_DATA (R381). -/
def execSegmentData (source : Nat) (s : State) : Out := withUnit (source < 16) (segmentData s source)

/-- EXPORT_ACK (R384). -/
def execExportAck (source : Nat) (s : State) : Out := withUnit (source < 16) (exportAck s source)

/-- EXPORT_RESEND (R384). -/
def execExportResend (ctx : Nat) (s : State) : Out := withUnit (ctx < nCtx) (exportResend s ctx)

end Sys2Proof.Machine
end

