-- ==== Sys2Proof/Machine/CmdPower.lean ====
section
/-!
DEFINITION. The meanings of the commands on power, ageing, the Metering Unit and the connectors (13, 16).
-/

namespace Sys2Proof.Machine

/-- INPUT_OUT_OF_RANGE (R491). -/
def execInputOutOfRange (mv : BitVec 32) (s : State) : Out := .next (inputOutOfRange s mv)

/-- GOVERNOR_EVALUATION (R493). -/
def execGovernorEvaluation (watts : BitVec 32) (mv : BitVec 32) (temps : Tbl (BitVec 8)) (s : State) : Out :=
  .next (governorEvaluation s watts mv temps)

/-- DOMAIN_IDLE_TIMEOUT (R496). -/
def execDomainIdleTimeout (unit' : Nat) (s : State) : Out := withUnit (unit' < 16) (domainIdleTimeout s unit')

/-- MEASUREMENT_DONE (R501). -/
def execMeasurementDone (results : Tbl (BitVec 16 × List Bool)) (s : State) : Out :=
  .next (cancelLoads (measurementDone s results))

/-- MU_RECORD (R513). -/
def execMuRecord (energy : BitVec 32) (powerMw : BitVec 32) (voltageMv : BitVec 32) (selfCheckOk : Bool) (s : State)
    : Out :=
  .next (muRecord s energy powerMw voltageMv selfCheckOk)

/-- MU_INPUT_LOSS (R514). -/
def execMuInputLoss (s : State) : Out := .next (muInputLoss s)

/-- MU_INPUT_RETURN (R514). -/
def execMuInputReturn (s : State) : Out := .next (muInputReturn s)

/-- MU_RECORD_TIMEOUT (R514). -/
def execMuRecordTimeout (s : State) : Out := .next (muRecordTimeout s)

/-- MU_SEAL_OPEN (R582). -/
def execMuSealOpen (s : State) : Out := .next (muSealOpen s)

/-- MU_FIRMWARE_LOAD (R582). -/
def execMuFirmwareLoad (ok : Bool) (version : BitVec 32) (digest : BitVec 256) (s : State) : Out :=
  .next (muFirmwareLoad s ok version digest)

/-- MODULE_INSERTION (R565). -/
def execModuleInsertion (mv : BitVec 32) (s : State) : Out := .next (moduleInsertion s mv)

/-- INPUT_SETTLED (R573). -/
def execInputSettled (s : State) : Out := .next (inputSettled s)

/-- MOD_RESET_ASSERT (R572). -/
def execModResetAssert (s : State) : Out := .next (modResetAssert s)

/-- RESET_DEADLINE (R572). -/
def execResetDeadline (s : State) : Out := .next (resetDeadline s)

/-- MOD_RESET_RELEASE (R572). -/
def execModResetRelease (s : State) : Out := .next (modResetRelease s)

/-- TRIP_RELEASE (R574). -/
def execTripRelease (s : State) : Out := .next (tripRelease s)

/-- REGULATOR_FAULT (R573). -/
def execRegulatorFault (s : State) : Out := .next (regulatorFault s)

/-- MU_RESEAL (R582). -/
def execMuReseal (s : State) : Out := .next (muReseal s)

end Sys2Proof.Machine
end

