-- ==== Sys2Proof/Machine/CmdStage.lean ====
section
/-!
DEFINITION. The meanings of the commands on streams, stages, stalls and deadlock, and the classes GATHER, ROUTE and VECTOR (05).
-/

namespace Sys2Proof.Machine

/-- STREAM_WORD (R181). -/
def execStreamWord (ctx : Nat) (stream : Nat) (consumer : Nat) (ecc : Ecc) (s : State) : Out :=
  withUnit (ctx < nCtx && stream < 4096 && consumer < 16) (returnCredits (streamWord s ctx stream consumer ecc))

/-- TENSOR_HEADER_EMIT (R187). -/
def execTensorHeaderEmit (core : Nat) (port : Nat) (s : State) : Out :=
  withUnit (core < nCores && port < 4) (emitHead s core port)

/-- PASS_START (R199). -/
def execPassStart (core : Nat) (s : State) : Out := withUnit (core < nCores) (passStart s core)

/-- STAGING_FILL (R196). -/
def execStagingFill (core : Nat) (s : State) : Out := withUnit (core < nCores) (stagingFill s core)

/-- STAGING_FILL_DONE (R250). -/
def execStagingFillDone (core : Nat) (s : State) : Out :=
  withUnit (core < nCores) (settle s (stagingFillDone s core))

/-- STALL_CYCLE (R206). -/
def execStallCycle (core : Nat) (advanced : Bool) (timed : BitVec 12) (s : State) : Out :=
  withUnit (core < nCores) (stallCycle s core advanced timed)

/-- WEDGED (R210). -/
def execWedged (core : Nat) (s : State) : Out := withUnit (core < nCores) (wedge s core)

/-- WEDGED_REPORT (R211). -/
def execWedgedReport (shelf : Nat) (s : State) : Out := withUnit (shelf < nShelves) (wedgedReport s shelf)

/-- ESCAPE_CONFIRM (R212). -/
def execEscapeConfirm (shelf : Nat) (s : State) : Out := withUnit (shelf < nShelves) (escapeConfirm s shelf)

/-- GATHER_INDEX (R178). -/
def execGatherIndex (core : Nat) (s : State) : Out := withUnit (core < nCores) (gatherIndex s core)

/-- ROUTE_TENSOR (R186). -/
def execRouteTensor (core : Nat) (s : State) : Out := withUnit (core < nCores) (routeTensor s core)

/-- VECTOR_ELEMENT (R179). -/
def execVectorElement (core : Nat) (s : State) : Out := withUnit (core < nCores) (vectorElement s core)

end Sys2Proof.Machine
end

