-- ==== Sys2Proof/Machine/CmdTrain.lean ====
section
/-!
DEFINITION. The meanings of the commands on verdicts, steps, updates and losses (08).
-/

namespace Sys2Proof.Machine

/-- VERDICT_BARRIER (R296). -/
def execVerdictBarrier (ctx : Nat) (s : State) : Out := withUnit (ctx < nCtx) (verdictBarrier s ctx)

/-- VERDICT_RECEIVED (R335). -/
def execVerdictReceived (ctx : Nat) (code : Nat) (s : State) : Out :=
  withUnit (ctx < nCtx && code < 4) (verdictReceived s ctx code)

/-- END_OF_STEP_BARRIER (R296). -/
def execEndOfStepBarrier (ctx : Nat) (s : State) : Out := withUnit (ctx < nCtx) (settle s (endOfStepBarrier s ctx))

/-- LAYER_UPDATE (R316). -/
def execLayerUpdate (core : Nat) (s : State) : Out := withUnit (core < nCores) (layerUpdate s core)

/-- LOSS_TENSOR (R330). -/
def execLossTensor (core : Nat) (s : State) : Out := withUnit (core < nCores) (lossTensor s core)

end Sys2Proof.Machine
end

