-- ==== Sys2Proof/Machine/Dispatch.lean ====
section
/-!
DEFINITION. One arm for each command.
-/

namespace Sys2Proof.Machine

def exec (i : Instr) (s : State) : Host.Outcome State Fault Refusal :=
  match i with
  | .counterLowHalfRead requester offset => Sys2Proof.Machine.execCounterLowHalfRead requester offset s
  | .registerWriteIgnored bar offset => Sys2Proof.Machine.execRegisterWriteIgnored bar offset s
  | .rowIssue core ecc => Sys2Proof.Machine.execRowIssue core ecc s
  | .rowEntry core => Sys2Proof.Machine.execRowEntry core s
  | .drainUnit core => Sys2Proof.Machine.execDrainUnit core s
  | .weightLoadStart core array bank ecc => Sys2Proof.Machine.execWeightLoadStart core array bank ecc s
  | .weightLoadDone core array => Sys2Proof.Machine.execWeightLoadDone core array s
  | .treeNode ctx node => Sys2Proof.Machine.execTreeNode ctx node s
  | .windowTensor core => Sys2Proof.Machine.execWindowTensor core s
  | .inputRowArrival core => Sys2Proof.Machine.execInputRowArrival core s
  | .haloCopy core ecc => Sys2Proof.Machine.execHaloCopy core ecc s
  | .poolPosition core => Sys2Proof.Machine.execPoolPosition core s
  | .boxDecode core => Sys2Proof.Machine.execBoxDecode core s
  | .nmsCandidate core => Sys2Proof.Machine.execNmsCandidate core s
  | .nmsSelect core => Sys2Proof.Machine.execNmsSelect core s
  | .streamWord ctx stream consumer ecc => Sys2Proof.Machine.execStreamWord ctx stream consumer ecc s
  | .tensorHeaderEmit core port => Sys2Proof.Machine.execTensorHeaderEmit core port s
  | .passStart core => Sys2Proof.Machine.execPassStart core s
  | .stagingFill core => Sys2Proof.Machine.execStagingFill core s
  | .stagingFillDone core => Sys2Proof.Machine.execStagingFillDone core s
  | .stallCycle core advanced timed => Sys2Proof.Machine.execStallCycle core advanced timed s
  | .wedged core => Sys2Proof.Machine.execWedged core s
  | .wedgedReport shelf => Sys2Proof.Machine.execWedgedReport shelf s
  | .escapeConfirm shelf => Sys2Proof.Machine.execEscapeConfirm shelf s
  | .gatherIndex core => Sys2Proof.Machine.execGatherIndex core s
  | .routeTensor core => Sys2Proof.Machine.execRouteTensor core s
  | .vectorElement core => Sys2Proof.Machine.execVectorElement core s
  | .memAccess engine addr data poison ecc => Sys2Proof.Machine.execMemAccess engine addr data poison ecc s
  | .patrolScrub stack ecc => Sys2Proof.Machine.execPatrolScrub stack ecc s
  | .granuleFillDone granule => Sys2Proof.Machine.execGranuleFillDone granule s
  | .cxlWriteDurable port => Sys2Proof.Machine.execCxlWriteDurable port s
  | .cxlLinkFail port => Sys2Proof.Machine.execCxlLinkFail port s
  | .cxlRetrainDone port ok => Sys2Proof.Machine.execCxlRetrainDone port ok s
  | .prefetchTurn shelf ecc => Sys2Proof.Machine.execPrefetchTurn shelf ecc s
  | .sampleRecord ctx entry poisoned info => Sys2Proof.Machine.execSampleRecord ctx entry poisoned info s
  | .decodeStart complex queue position yields waited => Sys2Proof.Machine.execDecodeStart complex queue position yields waited s
  | .decodeDone complex queue position => Sys2Proof.Machine.execDecodeDone complex queue position s
  | .creditTimer complex queue => Sys2Proof.Machine.execCreditTimer complex queue s
  | .intakeTensorEmit complex queue => Sys2Proof.Machine.execIntakeTensorEmit complex queue s
  | .lateCorrupt complex queue => Sys2Proof.Machine.execLateCorrupt complex queue s
  | .roiSetTake complex queue waited => Sys2Proof.Machine.execRoiSetTake complex queue waited s
  | .substitution complex queue => Sys2Proof.Machine.execSubstitution complex queue s
  | .verdictBarrier ctx => Sys2Proof.Machine.execVerdictBarrier ctx s
  | .verdictReceived ctx code => Sys2Proof.Machine.execVerdictReceived ctx code s
  | .endOfStepBarrier ctx => Sys2Proof.Machine.execEndOfStepBarrier ctx s
  | .layerUpdate core => Sys2Proof.Machine.execLayerUpdate core s
  | .lossTensor core => Sys2Proof.Machine.execLossTensor core s
  | .linkTrained link lanes => Sys2Proof.Machine.execLinkTrained link lanes s
  | .lossOfSignal link => Sys2Proof.Machine.execLossOfSignal link s
  | .keepaliveTimeout link => Sys2Proof.Machine.execKeepaliveTimeout link s
  | .flitSlot link => Sys2Proof.Machine.execFlitSlot link s
  | .flitIdle link flit count fec => Sys2Proof.Machine.execFlitIdle link flit count fec s
  | .flitData link flit count fec => Sys2Proof.Machine.execFlitData link flit count fec s
  | .keyOffer link serial ownerDigest chainOk k => Sys2Proof.Machine.execKeyOffer link serial ownerDigest chainOk k s
  | .keyConfirm link ok => Sys2Proof.Machine.execKeyConfirm link ok s
  | .keyAbort link => Sys2Proof.Machine.execKeyAbort link s
  | .keyingTimeout link => Sys2Proof.Machine.execKeyingTimeout link s
  | .keyingRetry link => Sys2Proof.Machine.execKeyingRetry link s
  | .hello link => Sys2Proof.Machine.execHello link s
  | .fabricMismatchRetry link => Sys2Proof.Machine.execFabricMismatchRetry link s
  | .syncOffer link => Sys2Proof.Machine.execSyncOffer link s
  | .syncRecords link => Sys2Proof.Machine.execSyncRecords link s
  | .syncDone link => Sys2Proof.Machine.execSyncDone link s
  | .syncNotReady link => Sys2Proof.Machine.execSyncNotReady link s
  | .syncBackoff link => Sys2Proof.Machine.execSyncBackoff link s
  | .accessionSettle => Sys2Proof.Machine.execAccessionSettle s
  | .lsr link => Sys2Proof.Machine.execLsr link s
  | .lsdbRecordExpiry serial => Sys2Proof.Machine.execLsdbRecordExpiry serial s
  | .routeRecompute => Sys2Proof.Machine.execRouteRecompute s
  | .packetForward link => Sys2Proof.Machine.execPacketForward link s
  | .stream link => Sys2Proof.Machine.execStream link s
  | .credit link => Sys2Proof.Machine.execCredit link s
  | .write link => Sys2Proof.Machine.execWrite link s
  | .read link => Sys2Proof.Machine.execRead link s
  | .readData link => Sys2Proof.Machine.execReadData link s
  | .ack link => Sys2Proof.Machine.execAck link s
  | .collective link => Sys2Proof.Machine.execCollective link s
  | .mcast link => Sys2Proof.Machine.execMcast link s
  | .loan link => Sys2Proof.Machine.execLoan link s
  | .loanData link => Sys2Proof.Machine.execLoanData link s
  | .sample link => Sys2Proof.Machine.execSample link s
  | .noticeLagged link => Sys2Proof.Machine.execNoticeLagged link s
  | .noticeDone link => Sys2Proof.Machine.execNoticeDone link s
  | .transportRetransmit connection => Sys2Proof.Machine.execTransportRetransmit connection s
  | .mcastSend job session child => Sys2Proof.Machine.execMcastSend job session child s
  | .ethFrame link frame fec lapsed => Sys2Proof.Machine.execEthFrame link frame fec lapsed s
  | .segmentOpen source => Sys2Proof.Machine.execSegmentOpen source s
  | .segmentData source => Sys2Proof.Machine.execSegmentData source s
  | .exportAck source => Sys2Proof.Machine.execExportAck source s
  | .exportResend ctx => Sys2Proof.Machine.execExportResend ctx s
  | .commitStart ctx => Sys2Proof.Machine.execCommitStart ctx s
  | .snapshotDone ctx => Sys2Proof.Machine.execSnapshotDone ctx s
  | .parityCompute ctx group => Sys2Proof.Machine.execParityCompute ctx group s
  | .copyObject ctx object => Sys2Proof.Machine.execCopyObject ctx object s
  | .commitRecordWrite ctx => Sys2Proof.Machine.execCommitRecordWrite ctx s
  | .commitLeaf ctx => Sys2Proof.Machine.execCommitLeaf ctx s
  | .sealed ctx => Sys2Proof.Machine.execSealed ctx s
  | .commitFailed ctx cause rank => Sys2Proof.Machine.execCommitFailed ctx cause rank s
  | .lost ctx => Sys2Proof.Machine.execLost ctx s
  | .fault ctx => Sys2Proof.Machine.execFault ctx s
  | .halt ctx => Sys2Proof.Machine.execHalt ctx s
  | .bind ctx => Sys2Proof.Machine.execBind ctx s
  | .bindAck ctx => Sys2Proof.Machine.execBindAck ctx s
  | .rebind ctx stripes => Sys2Proof.Machine.execRebind ctx stripes s
  | .restoreDone ctx record data copies images parity => Sys2Proof.Machine.execRestoreDone ctx record data copies images parity s
  | .restored ctx => Sys2Proof.Machine.execRestored ctx s
  | .resume ctx => Sys2Proof.Machine.execResume ctx s
  | .drop ctx => Sys2Proof.Machine.execDrop ctx s
  | .releaseRecord job => Sys2Proof.Machine.execReleaseRecord job s
  | .join ctx => Sys2Proof.Machine.execJoin ctx s
  | .hotReset => Sys2Proof.Machine.execHotReset s
  | .functionLevelReset => Sys2Proof.Machine.execFunctionLevelReset s
  | .pcieLinkDown => Sys2Proof.Machine.execPcieLinkDown s
  | .perstAssert => Sys2Proof.Machine.execPerstAssert s
  | .perstRelease => Sys2Proof.Machine.execPerstRelease s
  | .callDoorbell ring value writes => Sys2Proof.Machine.execCallDoorbell ring value writes s
  | .slipTake ring => Sys2Proof.Machine.execSlipTake ring s
  | .slipEnd ring seq => Sys2Proof.Machine.execSlipEnd ring seq s
  | .retAck ring value => Sys2Proof.Machine.execRetAck ring value s
  | .ringReset ring => Sys2Proof.Machine.execRingReset ring s
  | .ringResetEffect ring => Sys2Proof.Machine.execRingResetEffect ring s
  | .upload ring seq volume dmaOk sigOk => Sys2Proof.Machine.execUpload ring seq volume dmaOk sigOk s
  | .pull ring seq sigOk => Sys2Proof.Machine.execPull ring seq sigOk s
  | .create ring seq => Sys2Proof.Machine.execCreate ring seq s
  | .load ring seq stripes => Sys2Proof.Machine.execLoad ring seq stripes s
  | .unload ring seq => Sys2Proof.Machine.execUnload ring seq s
  | .destroy ring seq => Sys2Proof.Machine.execDestroy ring seq s
  | .pin ring seq => Sys2Proof.Machine.execPin ring seq s
  | .unpin ring seq => Sys2Proof.Machine.execUnpin ring seq s
  | .weed ring seq => Sys2Proof.Machine.execWeed ring seq s
  | .wait ring seq => Sys2Proof.Machine.execWait ring seq s
  | .readResume ring seq => Sys2Proof.Machine.execReadResume ring seq s
  | .teardown ctx => Sys2Proof.Machine.execTeardown ctx s
  | .teardownDone ctx => Sys2Proof.Machine.execTeardownDone ctx s
  | .msixUnmask vector => Sys2Proof.Machine.execMsixUnmask vector s
  | .bringupStart => Sys2Proof.Machine.execBringupStart s
  | .phaseInputEnd cycles => Sys2Proof.Machine.execPhaseInputEnd cycles s
  | .phaseImprintEnd cycles => Sys2Proof.Machine.execPhaseImprintEnd cycles s
  | .phaseMemoryEnd cycles trained retained warmOk hbmReady => Sys2Proof.Machine.execPhaseMemoryEnd cycles trained retained warmOk hbmReady s
  | .phaseWavesEnd cycles => Sys2Proof.Machine.execPhaseWavesEnd cycles s
  | .phaseSelfTestEnd cycles clocks => Sys2Proof.Machine.execPhaseSelfTestEnd cycles clocks s
  | .phaseAgeingEnd cycles results => Sys2Proof.Machine.execPhaseAgeingEnd cycles results s
  | .phaseYieldEnd cycles => Sys2Proof.Machine.execPhaseYieldEnd cycles s
  | .phaseAccessionEnd cycles => Sys2Proof.Machine.execPhaseAccessionEnd cycles s
  | .waveSettled => Sys2Proof.Machine.execWaveSettled s
  | .waveTimeout => Sys2Proof.Machine.execWaveTimeout s
  | .limitExceeded => Sys2Proof.Machine.execLimitExceeded s
  | .selfTestResult unit' cause direct => Sys2Proof.Machine.execSelfTestResult unit' cause direct s
  | .fwBlock site block ok unicast => Sys2Proof.Machine.execFwBlock site block ok unicast s
  | .fwNak site block => Sys2Proof.Machine.execFwNak site block s
  | .fwNakTimeout site => Sys2Proof.Machine.execFwNakTimeout site s
  | .fwVerified site ok => Sys2Proof.Machine.execFwVerified site ok s
  | .coreCheck site => Sys2Proof.Machine.execCoreCheck site s
  | .spareTestDone shelf ok => Sys2Proof.Machine.execSpareTestDone shelf ok s
  | .campaignOpen request => Sys2Proof.Machine.execCampaignOpen request s
  | .campaignPackageCheck sigOk backOk facts => Sys2Proof.Machine.execCampaignPackageCheck sigOk backOk facts s
  | .campaignActivate request => Sys2Proof.Machine.execCampaignActivate request s
  | .campaignAbort request => Sys2Proof.Machine.execCampaignAbort request s
  | .inputOutOfRange mv => Sys2Proof.Machine.execInputOutOfRange mv s
  | .governorEvaluation watts mv temps => Sys2Proof.Machine.execGovernorEvaluation watts mv temps s
  | .domainIdleTimeout unit' => Sys2Proof.Machine.execDomainIdleTimeout unit' s
  | .measurementDone results => Sys2Proof.Machine.execMeasurementDone results s
  | .muRecord energy powerMw voltageMv selfCheckOk => Sys2Proof.Machine.execMuRecord energy powerMw voltageMv selfCheckOk s
  | .muInputLoss => Sys2Proof.Machine.execMuInputLoss s
  | .muInputReturn => Sys2Proof.Machine.execMuInputReturn s
  | .muRecordTimeout => Sys2Proof.Machine.execMuRecordTimeout s
  | .muSealOpen => Sys2Proof.Machine.execMuSealOpen s
  | .muFirmwareLoad ok version digest => Sys2Proof.Machine.execMuFirmwareLoad ok version digest s
  | .attest request signature => Sys2Proof.Machine.execAttest request signature s
  | .enrol request sigOk => Sys2Proof.Machine.execEnrol request sigOk s
  | .release request sigOk => Sys2Proof.Machine.execRelease request sigOk s
  | .recalibrate request sigOk => Sys2Proof.Machine.execRecalibrate request sigOk s
  | .keySlotGrant slot => Sys2Proof.Machine.execKeySlotGrant slot s
  | .moduleInsertion mv => Sys2Proof.Machine.execModuleInsertion mv s
  | .inputSettled => Sys2Proof.Machine.execInputSettled s
  | .modResetAssert => Sys2Proof.Machine.execModResetAssert s
  | .resetDeadline => Sys2Proof.Machine.execResetDeadline s
  | .modResetRelease => Sys2Proof.Machine.execModResetRelease s
  | .tripRelease => Sys2Proof.Machine.execTripRelease s
  | .identify request => Sys2Proof.Machine.execIdentify request s
  | .readControl request => Sys2Proof.Machine.execReadControl request s
  | .imprintWrite request => Sys2Proof.Machine.execImprintWrite request s
  | .imprintCommit request sigOk facts => Sys2Proof.Machine.execImprintCommit request sigOk facts s
  | .rebuildBoot request => Sys2Proof.Machine.execRebuildBoot request s
  | .managementResponseRead => Sys2Proof.Machine.execManagementResponseRead s
  | .setdasa static dyn => Sys2Proof.Machine.execSetdasa static dyn s
  | .entdaa dyn => Sys2Proof.Machine.execEntdaa dyn s
  | .rstdaa => Sys2Proof.Machine.execRstdaa s
  | .setnewda dyn => Sys2Proof.Machine.execSetnewda dyn s
  | .getpid => Sys2Proof.Machine.execGetpid s
  | .getbcr => Sys2Proof.Machine.execGetbcr s
  | .getdcr => Sys2Proof.Machine.execGetdcr s
  | .getstatus => Sys2Proof.Machine.execGetstatus s
  | .enec mask => Sys2Proof.Machine.execEnec mask s
  | .disec mask => Sys2Proof.Machine.execDisec mask s
  | .laneSignal link => Sys2Proof.Machine.execLaneSignal link s
  | .ethLinkLoss link => Sys2Proof.Machine.execEthLinkLoss link s
  | .regulatorFault => Sys2Proof.Machine.execRegulatorFault s
  | .pullUnavailable ring seq => Sys2Proof.Machine.execPullUnavailable ring seq s
  | .muReseal => Sys2Proof.Machine.execMuReseal s
  | .configurationRequest settled => Sys2Proof.Machine.execConfigurationRequest settled s

end Sys2Proof.Machine
end

