-- ==== Sys2Proof/Safety.lean ====
section
/-!
DEFINITION. What a safe step is, which parts of the state a command touches, what every command keeps, and the terms in
which the statements speak.
-/

namespace Sys2Proof

/-- The step ends in a next state: neither a fault nor a refusal. -/
def Safe (s : Machine.State) : Prop := ∃ t, Machine.step s = .next t

namespace Machine

/-- The parts of the state: each of its fields, with memory taken apart into its bytes and poison, its granule table and
the registers of its tiers. -/
inductive Part where
  | cores | shelves | bytes | granules | tiers | ctxs | media | host | fab | sec | ledger | bring | power | mu | imprint
  | pins | mgmt | latches | freeCtr
  deriving DecidableEq, Repr

/-- A part is the same in two states. -/
def Part.same (p : Part) (s t : State) : Prop :=
  match p with
  | .cores => t.cores = s.cores
  | .shelves => t.shelves = s.shelves
  | .bytes => t.mem.mem = s.mem.mem
  | .granules => t.mem.granules = s.mem.granules
  | .tiers =>
    t.mem.hbm = s.mem.hbm ∧ t.mem.cxl = s.mem.cxl ∧ t.mem.interleave = s.mem.interleave ∧
      t.mem.systemGranules = s.mem.systemGranules ∧ t.mem.addressFaults = s.mem.addressFaults ∧
      t.mem.ledgerLost = s.mem.ledgerLost
  | .ctxs => t.ctxs = s.ctxs
  | .media => t.media = s.media
  | .host => t.host = s.host
  | .fab => t.fab = s.fab
  | .sec => t.sec = s.sec
  | .ledger => t.ledger = s.ledger
  | .bring => t.bring = s.bring
  | .power => t.power = s.power
  | .mu => t.mu = s.mu
  | .imprint => t.imprint = s.imprint
  | .pins => t.pins = s.pins
  | .mgmt => t.mgmt = s.mgmt
  | .latches => t.latches = s.latches
  | .freeCtr => t.freeCtr = s.freeCtr

/-- What every command keeps: the ordering code, the fused identity and the identity pair (00 Table 0.1, 14 R517, R520),
a MIN_SVN that never falls, the queue of commands, and the canonical form of memory. -/
structure Keeps (s t : State) : Prop where
  variant : t.variant = s.variant
  serial : t.sec.serial = s.sec.serial
  revision : t.sec.siliconRev = s.sec.siliconRev
  lifecycle : t.sec.lifecycle = s.sec.lifecycle
  identity : t.sec.identity = s.sec.identity
  publicKey : t.sec.publicKey = s.sec.publicKey
  minSvn : s.sec.minSvn ≤ t.sec.minSvn
  pending : t.pending = s.pending
  memory : s.mem.mem.wf → t.mem.mem.wf

/-- Nothing outside the listed parts changes, and what every command keeps is kept. -/
structure Touches (ps : List Part) (s t : State) : Prop where
  keeps : Keeps s t
  same : ∀ p, p ∉ ps → p.same s t

end Machine

end Sys2Proof

namespace Sys2Proof.Claims

open Sys2Proof.Machine

/-- The command answers a next state with a property. -/
def Answers (i : Instr) (s : State) (P : State → Prop) : Prop := ∃ t, exec i s = .next t ∧ P t

/-- Every logical core but one is as it was. -/
def CoresBut (n : Nat) (s t : State) : Prop := ∀ k, k ≠ n → t.core k = s.core k

/-- Two views of a link that differ at most in the flits waiting to be sent and in DROPPED_NO_LINK. -/
def OnlySends (a b : Link) : Prop := ∃ t d, b = { a with tx := t, ctr := { a.ctr with droppedNoLink := d } }

/-- No slot of the security engine holds a key. -/
def KeyGone (k : KeyId) (t : State) : Prop := ∀ p ∈ t.sec.slots, p.2.key ≠ k

/-- A link has gone down: what it held and buffered is gone, and so are its keys. -/
def WentDown (h : Nat) (t : State) : Prop :=
  (t.link h).held = [] ∧ (t.link h).rx = [] ∧ (t.link h).asm = [] ∧ (t.link h).credits = [] ∧
    KeyGone (.hop h 0) t ∧ KeyGone (.hop h 1) t ∧ KeyGone (.ephemeral h) t

/-- The first packet of a kind at a link is taken, and the transport accepts it. -/
def Delivered (s : State) (h kind : Nat) (p : Pkt) (s1 : State) : Prop :=
  ∃ s0, takePacket s h kind = some (p, s0) ∧ acceptPacket s0 p = (s1, true)

/-- A taken slip has ended with a result, which its return slot takes at SLIP_END. -/
def Ended (t : State) (number : Nat) (r : SlipResult) : Prop := ∃ u ∈ t.host.taken, u.number = number ∧
  u.result = some r

/-- A taken slip of operation `op` may run now (11 R434); it is the first to bear its number, as each slip taken is. -/
def Runs (s : State) (ring : Nat) (seq : BitVec 32) (op : Nat) (x : Taken) : Prop :=
  slipReady s ring seq op = some x ∧ (s.host.taken.find? fun u => u.number = x.number) = some x

/-- A vector is raised: one message, or its PBA bit while it is masked (11 R454). -/
def Raised (s t : State) (v : Nat) : Prop :=
  let m := tgetD s.host.msix v MsiX.reset
  tget t.host.msix v = some (if m.masked then { m with pba := true } else { m with sent := m.sent + 1 })

/-- A phase of bring-up is under way. -/
def InPhase (s : State) (p : BitVec 4) : Prop := s.bring.phase = p ∧ s.bring.halted = false ∧ s.pins.diesInReset = false

/-- A phase has ended after its DC0 cycles, and the next one runs (12 R460). -/
def PhaseEnded (t : State) (p : Nat) (cycles : BitVec 48) (next : BitVec 4) : Prop :=
  t.bring.phase = next ∧ tget t.bring.phaseEnd p = some cycles ∧ t.bring.halted = false

/-- A bring-up has halted in a phase with a code; the host control block is live (12 R464, R465). -/
def HaltedWith (t : State) (p : BitVec 4) (code : BitVec 8) : Prop :=
  t.bring.halted = true ∧ t.bring.failCode = code ∧ t.bring.phase = p ∧ t.host.live = true

/-- A request for an operation that whoever serves the port serves: its frame is intact and its OPCODE is the
operation's; `rom` says that the boot ROM serves it (16 R576 to R578). -/
def Requested (s : State) (r : Blob) (opcode : Nat) (rom : Bool) : Prop :=
  reqIntact r = true ∧ reqOpcode r = opcode ∧ (mgmtMode s = .firmware ∨ mgmtMode s = .rom ∧ rom = true)

/-- The response to a request is ready, with one in-band interrupt where they are on (16 R576). -/
def Replied (s t : State) (r : Blob) (status : Nat) (payload : Blob) : Prop :=
  t.mgmt.response = some (mgmtMessage (reqOpcode r) (reqTag r) status payload) ∧
    t.mgmt.interrupts = s.mgmt.interrupts ++ (if s.mgmt.dyn.isSome && s.mgmt.events then [reqTag r] else [])

/-- A bring-up has begun: the dies are out of reset, and phase 1 runs with its wave 0 (12 R457, R460; 13 R492). -/
def Began (s t : State) : Prop :=
  t.bring.phase = 1 ∧ t.pins.diesInReset = false ∧ t.power.resetCause = s.power.nextCause ∧
    t.bring.wave = some ⟨0, [38, 78, 39], [], false, false⟩

/-- What a reset of the dies keeps: the fuses, the imprint, the Metering Unit and the commands that wait (12 R457, 13
R514). -/
def ResetKeeps (s t : State) : Prop :=
  t.variant = s.variant ∧ t.mu = s.mu ∧ t.imprint = { s.imprint with writes := [] } ∧ t.pending = s.pending ∧
    t.sec.serial = s.sec.serial ∧ t.sec.publicKey = s.sec.publicKey

/-- A core is as it was, but that WEDGED and the count of R210 may have been cleared: a word has moved on its ports. -/
def Moved (a b : Core) : Prop := b = a ∨ b = { a with stage := { a.stage with wedged := false, outFullRun := 0 } }

/-- Every logical core but one is as it was, but that WEDGED may have been cleared where its words have moved. -/
def CoresMoved (n : Nat) (s t : State) : Prop := ∀ k, k ≠ n → Moved (s.core k) (t.core k)

/-- The stage of a core is placed and has not stopped. -/
def StageLive (s : State) (core : Nat) : Prop :=
  core < nCores ∧ (s.core core).stage.info.isSome = true ∧ (s.core core).stage.st ≠ .stopped

/-- An engine may make an access: a live stage, or its prefetch engine, to a word of its context, a stage to read its
own carrel store, and the device to every tier (06 R217, R218, R221). -/
def Accesses (s : State) (who : Engine) (addr : Nat) (data : Option (BitVec 1024)) : Prop :=
  match who with
  | .stage core => StageLive s core ∧ (mayReach s (s.core core).stage.ctx (128 * (addr / 128)) 128 = true ∨
      data = none ∧ carrelWindow core ≤ addr ∧ addr < carrelWindow core + 0x400000)
  | .prefetch core => StageLive s core ∧ mayReach s (s.core core).stage.ctx (128 * (addr / 128)) 128 = true
  | .device => tierOf addr ≠ .unmapped ∧ tierOf addr ≠ .control

/-- Every context that holds an image and is IDLE is still loading it: a load that is over has ended (12 R489). -/
def NoLoadOver (s : State) : Prop :=
  ∀ c, (s.ctx c).st = .idle → (s.ctx c).image.isSome = true → (s.ctx c).loading = true

/-- A context has taken a fault of one of its stages: it is counted, and the first one is recorded (11 R448). -/
def CoreFaulted (s t : State) (c : Nat) (n : StopName) : Prop :=
  (t.ctx c).faults = (s.ctx c).faults + 1 ∧
    ((s.ctx c).fault = none → ∃ k, (t.ctx c).fault = some ⟨n, some k, stopSource n, 0⟩)

/-- A flit has been sent on a link: it joins the flit data that waits, and 640 bytes of it make a codeword of the lane
whose turn it is (09 R343). -/
def Sent (l : Link) (f : Flit) (b : Link) : Prop :=
  let v := Blob.append l.frame (flitBlob f)
  let n := if l.up4 then 4 else 8
  b.out = some f ∧ (v.len < 640 → b.line = [] ∧ b.frame = v ∧ b.codes = l.codes) ∧
    (640 ≤ v.len → v.len < 1280 → b.line = [⟨l.codes % n, l.codes / n % 65536, BitVec.ofNat 5120 v.val⟩] ∧
      b.frame = v.slice 640 (v.len - 640) ∧ b.codes = l.codes + 1)

/-- Only one link has changed, and no key. -/
def OneLink (s t : State) (h : Nat) : Prop := (∀ k, k ≠ h → t.link k = s.link k) ∧ t.sec = s.sec

/-- A job has halted with a cause, and an UNLOAD that waits for it is carried out (10 R416, 11 R444). -/
def HaltedJob (c cause : Nat) (unload : Bool) (t : State) : Prop :=
  (t.ctx c).led.haltCause = BitVec.ofNat 4 cause ∧ (t.ctx c).lastEvent = .halted ∧
    (unload = false → (t.ctx c).led.st = .halted) ∧
    (unload = true → (t.ctx c).st = .idle ∧ (t.ctx c).led.st = .none)

/-- The first rank that a recovery has still to bind has been offered to the spare that is next; where none is left,
the failure is recorded and the job halts, but a rejoin only waits (10 R410, R411, R422). -/
def Offered (s : State) (c : Nat) (v : Recovery) (t : State) : Prop :=
  match v.unbound with
  | [] => (t.ctx c).led.recovery = some v
  | r :: _ =>
    match chooseSpare s c r v.tried with
    | some a => (t.ctx c).led.recovery = some { v with offered := some a } ∧ (t.ctx c).led.noSpare = false ∧
        (a, { typ := 4, seq := (t.ctx c).led.seq, src := (s.ctx c).rank.toNat, rank := r }) ∈ (t.ctx c).led.sent
    | none => (t.ctx c).led.recovery = some { v with offered := none, tried := [] } ∧ (t.ctx c).led.noSpare = true ∧
        (v.rejoin = false → HaltedJob c 0xA (s.ctx c).unload t)

/-- A recovery has started, with the failures of the one that it replaces, under a new RECOVERY_SEQ: this rank is its
coordinator, HALT goes to every live rank, and once the retries are spent the job halts (10 R408, R416). -/
def Restarted (s : State) (c : Nat) (lost faulted : List Nat) (t : State) : Prop :=
  let x := s.ctx c
  let old := match x.led.recovery with
    | some v => if v.rejoin then ([], []) else (v.unbound, v.faulted)
    | none => ([], [])
  let v : Recovery := { unbound := (old.1 ++ lost).eraseDups, faulted := (old.2 ++ faulted).eraseDups }
  (t.ctx c).led.seq = x.led.seq + 1 ∧ (t.ctx c).led.coordinator = true ∧ (t.ctx c).led.heard = some x.rank.toNat ∧
    (t.ctx c).led.joining = none ∧
    (∀ r a, r ∈ liveRanks x → rankAcc x r = some a →
      (a, { typ := 3, seq := x.led.seq + 1, src := x.rank.toNat }) ∈ (t.ctx c).led.sent) ∧
    (planRetry x.plan ≤ x.led.retries → (t.ctx c).led.recovery = some v ∧ HaltedJob c 9 x.unload t) ∧
    (x.led.retries < planRetry x.plan → Offered s c v t) ∧ t.mem = s.mem ∧ t.sec = s.sec

/-- A control record has been sent to a rank, under the RECOVERY_SEQ and from the rank of the context (10 R404). -/
def Told (s : State) (c dst : Nat) (k : Ctrl) (t : State) : Prop :=
  ∀ a, rankAcc (s.ctx c) dst = some a →
    (a, { k with seq := (s.ctx c).led.seq, src := (s.ctx c).rank.toNat }) ∈ (t.ctx c).led.sent

/-- RESTORED has been sent to the coordinator that is heard, with its ARG (10 R410, R413). -/
def Restored (s : State) (c arg : Nat) (t : State) : Prop :=
  Told s c ((s.ctx c).led.heard.getD (coordinatorOf s c))
    { typ := 7, seq := 0, src := 0, rank := (s.ctx c).rank.toNat, step := (s.ctx c).led.lastSealed.toNat, arg := arg } t

/-- A context runs again from a step: JOB_STEP is the step, every stage starts over, the EXPECT_T of each layer is its
T_C, and the monitor has the state of the record (10 R414). -/
def RunsFrom (s : State) (c : Nat) (step : BitVec 32) (t : State) : Prop :=
  let r := ownRecord' s c
  (t.ctx c).led.st = .running ∧ (t.ctx c).led.restoring = false ∧ (t.ctx c).led.adopting = false ∧
    (t.ctx c).step.jobStep = step ∧ (∀ n ∈ coresOf s c, (t.core n).stage = freshStage (s.core n).stage) ∧
    (∀ e ∈ updateLayers s c,
      tget (t.core e.1).upd.expectT e.2.1 = some (tgetD (s.ctx c).tC e.2.2.layer 0)) ∧
    ∀ n, monitorCore s c = some n → (t.core n).loss.monitorN = BitVec.ofNat 32 (r.bits 128 32) ∧
      (t.core n).loss.monitorMean = BitVec.ofNat 32 (r.bits 160 32) ∧
      (t.core n).loss.monitorM2 = BitVec.ofNat 32 (r.bits 192 32) ∧
      (t.core n).loss.monitorVar = BitVec.ofNat 32 (r.bits 224 32)

/-- The command answers a next state in which, last, a RELEASE that waited for its slip is settled (14 R549). -/
def Settles (i : Instr) (s : State) (P : State → Prop) : Prop :=
  ∃ t, exec i s = .next (settleRelease t) ∧ t.sec.release = s.sec.release ∧ P t

/-- A slip ends DONE with a volume and the entry of its own image, and is refused with CATALOGUE_FULL where no entry
can be had (11 R451, Table 11.5). -/
def EntryGiven (r : State) (x : Taken) (job : BitVec 32) (own : Option Nat) (new : BitVec 64) (t : State) : Prop :=
  (own = none → Ended t x.number (.done (job.setWidth 64) new 0) ∧ t.host.cat = r.host.cat ∧
    t.host.volumes = r.host.volumes) ∧
  ∀ k, own = some k →
    (∀ e r1, ensureEntry r job k = some (e, r1) →
      Ended t x.number (.done (job.setWidth 64) (BitVec.ofNat 64 (e + 128) ||| new) 0) ∧
        t.host.cat = r1.host.cat ∧ t.host.volumes = r1.host.volumes) ∧
    (ensureEntry r job k = none → Ended t x.number (.refused .catalogueFull) ∧ t.host.cat = r.host.cat)

/-- A volume that is not resident passes check 5, finds room in the store, is kept and gets its entry; one that is
refused after all is not kept (11 R438, R451). -/
def VolumeAdded (r : State) (x : Taken) (p : Blob) (present : Nat → Bool) (v : Volume) (t : State) : Prop :=
  (sectionsBad p present = true → Ended t x.number (.refused .volumeFormat) ∧ t.host.volumes = r.host.volumes ∧
    t.sec.volumeRefusals = r.sec.volumeRefusals + 1) ∧
  (sectionsBad p present = false →
    (makeRoom r v.mib = none → Ended t x.number (.refused .catalogueSpace) ∧ t.host.volumes = r.host.volumes) ∧
    ∀ r1, makeRoom r v.mib = some r1 →
      (∀ k, v.ownImage = some k → ensureEntry (keepVolume r1 v) v.job k = none →
        Ended t x.number (.refused .catalogueFull) ∧
        ((∀ e ∈ r1.host.cat, e.2.job ≠ v.job) → ledgerCtx r1 v.job = none → volumeOf t v.job = none)) ∧
      ((∀ k, v.ownImage = some k → ensureEntry (keepVolume r1 v) v.job k ≠ none) →
        EntryGiven (keepVolume r1 v) x v.job v.ownImage 0x40 t))

/-- The volume whose bytes have come goes through the checks of 14 R538 in order, each failure counted; one that is
already resident is not copied, another of a job that a context holds is a conflict, and any other is added in place
of the one of its job (11 R439, R453). -/
def VolumeTaken (s : State) (x : Taken) (b : Blob) (sigOk : Bool) (present : Blob → Nat → Bool) (t : State) : Prop :=
  let job := volJob b
  let p := volPlain ((vkOf s b).getD 0) b
  let own := volOwnImage s p
  let v := keptVolume ((vkOf s b).getD 0) b p own
  let r := wantKey (wantKey s .identity) (.volume job)
  (∀ n, openRefusal s b sigOk = some n → Ended t x.number (.refused n) ∧ t.host.volumes = s.host.volumes ∧
    t.sec.volumeRefusals = s.sec.volumeRefusals + 1 ∧
    t.sec.colophonFailures = s.sec.colophonFailures + (if n = .volumeSignature then 1 else 0)) ∧
  (openRefusal s b sigOk = none →
    (∀ u, volumeOf s job = some u → u.digest = volDigest b → EntryGiven r x job u.ownImage 0 t) ∧
    (∀ u, volumeOf s job = some u → u.digest ≠ volDigest b →
      ((ledgerCtx s job).isSome = true → Ended t x.number (.refused .volumeConflict) ∧
        t.host.volumes = s.host.volumes) ∧
      ((ledgerCtx s job).isSome = false → VolumeAdded (replaceVolume r job) x p (present p) v t)) ∧
    (volumeOf s job = none → VolumeAdded r x p (present p) v t))

/-- A pull has asked for chunks: each has come, is outstanding or is still to be asked for, and at most 16 are
outstanding (11 R440). -/
def ChunksAsked (s : State) (u : Pull) (l : List Nat) (headed : Bool) (t : State) : Prop :=
  ∃ y, findPull t u.peer u.job = some y ∧ y.headed = headed ∧ y.chunks = u.chunks ∧
    (∀ i ∈ l, (tget u.chunks i).isSome = true ∨ (tget y.out i).isSome = true ∨ i ∈ y.want) ∧
    (u.out.length ≤ 16 → y.out.length ≤ 16) ∧ t.host = s.host

/-- The command answers a next state in which, last, the LOADs of contexts that have lost a core while loading are
given up (12 R489). -/
def Cancels (i : Instr) (s : State) (P : State → Prop) : Prop := ∃ t, exec i s = .next (cancelLoads t) ∧ P t

/-- The parts of the state that a command may change. -/
def touchedBy : Instr → List Part
  | .counterLowHalfRead _ _ =>
    [.latches]
  | .registerWriteIgnored _ _ | .hotReset | .functionLevelReset | .pcieLinkDown | .callDoorbell _ _ _
  | .slipTake _ | .retAck _ _ | .ringReset _ | .ringResetEffect _ | .pin _ _ | .unpin _ _ | .wait _ _
  | .msixUnmask _ | .configurationRequest _ =>
    [.host]
  | .rowIssue _ _ | .weightLoadStart _ _ _ _ | .haloCopy _ _ | .selfTestResult _ _ _ =>
    [.cores, .shelves, .ctxs, .bring, .freeCtr]
  | .rowEntry _ | .windowTensor _ | .inputRowArrival _ | .poolPosition _ | .boxDecode _ | .nmsSelect _
  | .tensorHeaderEmit _ _ | .passStart _ | .routeTensor _ | .lossTensor _ =>
    [.cores, .ctxs]
  | .drainUnit _ | .weightLoadDone _ _ | .nmsCandidate _ | .stagingFill _ | .stallCycle _ _ _ =>
    [.cores]
  | .treeNode _ _ | .verdictReceived _ _ =>
    [.cores, .ctxs, .fab, .freeCtr]
  | .streamWord _ _ _ _ | .prefetchTurn _ _ =>
    [.cores, .shelves, .bytes, .tiers, .ctxs, .fab, .bring, .freeCtr]
  | .stagingFillDone _ =>
    [.cores, .ctxs, .host, .fab, .power, .freeCtr]
  | .wedged _ =>
    [.cores, .shelves]
  | .wedgedReport _ =>
    [.shelves]
  | .escapeConfirm _ =>
    [.cores, .shelves, .ctxs]
  | .gatherIndex _ | .vectorElement _ =>
    [.cores, .tiers, .ctxs]
  | .memAccess _ _ _ _ _ =>
    [.cores, .shelves, .bytes, .tiers, .ctxs, .media, .host, .fab, .bring, .freeCtr]
  | .patrolScrub _ _ =>
    [.bytes, .tiers]
  | .granuleFillDone _ =>
    [.bytes, .granules]
  | .cxlWriteDurable _ =>
    [.tiers]
  | .cxlLinkFail _ | .commitStart _ =>
    [.bytes, .tiers, .ctxs]
  | .cxlRetrainDone _ _ =>
    [.granules, .tiers, .ctxs, .fab, .freeCtr]
  | .sampleRecord _ _ _ _ | .decodeStart _ _ _ _ _ | .creditTimer _ _ | .substitution _ _ =>
    [.ctxs, .media, .fab, .freeCtr]
  | .decodeDone _ _ _ | .intakeTensorEmit _ _ | .lateCorrupt _ _ | .roiSetTake _ _ _ | .join _ =>
    [.cores, .ctxs, .media, .fab, .freeCtr]
  | .verdictBarrier _ =>
    [.cores, .ctxs, .media]
  | .endOfStepBarrier _ | .load _ _ _ =>
    [.cores, .shelves, .ctxs, .media, .host, .fab, .bring, .power, .freeCtr]
  | .layerUpdate _ =>
    [.cores, .bytes, .tiers, .ctxs]
  | .linkTrained _ _ | .lossOfSignal _ | .keepaliveTimeout _ | .flitIdle _ _ _ _ | .flitData _ _ _ _
  | .keyOffer _ _ _ _ _ | .keyConfirm _ _ | .keyAbort _ | .keyingTimeout _ | .hello _ =>
    [.cores, .shelves, .ctxs, .media, .host, .fab, .sec, .bring, .freeCtr]
  | .flitSlot _ =>
    [.fab, .sec]
  | .keyingRetry _ | .fabricMismatchRetry _ | .syncOffer _ | .syncRecords _ | .syncDone _ | .syncNotReady _
  | .syncBackoff _ | .accessionSettle | .lsr _ | .lsdbRecordExpiry _ | .lost _ | .fault _ | .bindAck _
  | .restored _ | .drop _ | .unload _ _ | .fwBlock _ _ _ _ | .fwVerified _ _ | .coreCheck _ | .ethLinkLoss _ =>
    [.cores, .shelves, .ctxs, .media, .host, .fab, .bring, .freeCtr]
  | .routeRecompute | .credit _ | .read _ | .readData _ | .loan _ | .sample _ | .noticeLagged _
  | .mcastSend _ _ _ | .ethFrame _ _ _ _ | .exportAck _ | .exportResend _ | .copyObject _ _ | .commitLeaf _ =>
    [.ctxs, .fab, .freeCtr]
  | .packetForward _ | .ack _ | .transportRetransmit _ | .laneSignal _ =>
    [.fab]
  | .stream _ | .collective _ =>
    [.cores, .bytes, .tiers, .ctxs, .fab, .freeCtr]
  | .write _ =>
    [.bytes, .tiers, .ctxs, .fab, .ledger, .freeCtr]
  | .mcast _ | .loanData _ | .parityCompute _ _ | .commitRecordWrite _ =>
    [.bytes, .tiers, .ctxs, .fab, .freeCtr]
  | .noticeDone _ =>
    [.ctxs, .fab, .bring, .freeCtr]
  | .segmentOpen _ =>
    [.ctxs, .fab]
  | .segmentData _ =>
    [.ctxs, .fab, .sec, .freeCtr]
  | .snapshotDone _ | .commitFailed _ _ _ =>
    [.ctxs]
  | .sealed _ =>
    [.bytes, .tiers, .ctxs, .fab, .sec, .ledger, .freeCtr]
  | .halt _ =>
    [.cores, .shelves, .bytes, .tiers, .ctxs, .media, .host, .fab, .freeCtr]
  | .bind _ =>
    [.granules, .ctxs, .fab, .sec, .freeCtr]
  | .rebind _ _ =>
    [.cores, .shelves, .bytes, .granules, .tiers, .ctxs, .media, .host, .fab, .sec, .ledger, .freeCtr]
  | .restoreDone _ _ _ _ _ _ =>
    [.cores, .shelves, .bytes, .granules, .tiers, .ctxs, .media, .host, .fab, .sec, .bring, .freeCtr]
  | .resume _ =>
    [.cores, .ctxs, .media, .host, .fab, .freeCtr]
  | .releaseRecord _ =>
    [.bytes, .granules, .tiers, .ctxs, .ledger]
  | .perstAssert | .perstRelease =>
    [.host, .pins]
  | .slipEnd _ _ | .upload _ _ _ _ _ | .release _ _ =>
    [.bytes, .granules, .tiers, .ctxs, .host, .sec, .ledger, .bring, .power, .imprint, .mgmt]
  | .pull _ _ _ =>
    [.bytes, .granules, .tiers, .ctxs, .host, .fab, .sec, .ledger, .bring, .power, .imprint, .mgmt, .freeCtr]
  | .create _ _ =>
    [.bytes, .granules, .tiers, .ctxs, .host, .sec, .ledger, .bring, .power, .freeCtr]
  | .destroy _ _ =>
    [.ctxs, .host, .freeCtr]
  | .weed _ _ =>
    [.host, .sec]
  | .readResume _ _ =>
    [.host, .freeCtr]
  | .teardown _ =>
    [.cores, .shelves, .bytes, .tiers, .ctxs, .media, .fab, .sec, .bring, .freeCtr]
  | .teardownDone _ =>
    [.bytes, .granules, .tiers, .ctxs, .host, .fab, .sec, .ledger, .freeCtr]
  | .bringupStart | .modResetRelease | .tripRelease =>
    [.host, .bring, .power, .pins]
  | .phaseInputEnd _ | .phaseWavesEnd _ | .limitExceeded | .fwNak _ _ | .fwNakTimeout _ =>
    [.bring]
  | .phaseImprintEnd _ =>
    [.tiers, .host, .fab, .sec, .bring, .power, .imprint]
  | .phaseMemoryEnd _ _ _ _ _ =>
    [.bytes, .granules, .tiers, .ctxs, .host, .ledger, .bring, .power]
  | .phaseSelfTestEnd _ _ =>
    [.bring, .imprint, .freeCtr]
  | .phaseAgeingEnd _ _ =>
    [.cores, .shelves, .ctxs, .bring, .power, .imprint, .freeCtr]
  | .phaseYieldEnd _ =>
    [.shelves, .fab, .bring]
  | .phaseAccessionEnd _ =>
    [.host, .sec, .bring, .imprint]
  | .waveSettled | .domainIdleTimeout _ =>
    [.bring, .power]
  | .waveTimeout =>
    [.cores, .shelves, .ctxs, .media, .host, .fab, .sec, .bring, .power, .freeCtr]
  | .spareTestDone _ _ =>
    [.shelves, .bring]
  | .campaignOpen _ =>
    [.granules, .ctxs, .fab, .sec, .bring, .mgmt, .freeCtr]
  | .campaignPackageCheck _ _ _ =>
    [.bytes, .tiers, .ctxs, .fab, .sec, .bring, .imprint, .freeCtr]
  | .campaignActivate _ =>
    [.ctxs, .bring, .imprint, .mgmt, .freeCtr]
  | .campaignAbort _ =>
    [.ctxs, .bring, .mgmt, .freeCtr]
  | .inputOutOfRange _ | .governorEvaluation _ _ _ | .resetDeadline =>
    [.cores, .shelves, .bytes, .granules, .tiers, .ctxs, .media, .host, .fab, .sec, .ledger, .bring, .power,
      .imprint, .pins, .mgmt, .latches, .freeCtr]
  | .measurementDone _ =>
    [.cores, .shelves, .ctxs, .media, .host, .fab, .bring, .power, .imprint, .freeCtr]
  | .muRecord _ _ _ _ | .muInputLoss | .muInputReturn | .muRecordTimeout | .muSealOpen
  | .muFirmwareLoad _ _ _ | .muReseal =>
    [.mu]
  | .attest _ _ =>
    [.ctxs, .fab, .sec, .mgmt, .freeCtr]
  | .enrol _ _ | .recalibrate _ _ =>
    [.sec, .imprint, .mgmt]
  | .keySlotGrant _ =>
    [.sec]
  | .moduleInsertion _ =>
    [.power, .mu, .pins]
  | .inputSettled | .regulatorFault =>
    [.pins]
  | .modResetAssert =>
    [.bytes, .tiers, .fab, .power, .pins, .freeCtr]
  | .identify _ | .managementResponseRead | .setdasa _ _ | .entdaa _ | .rstdaa | .setnewda _ | .getpid
  | .getbcr | .getdcr | .enec _ | .disec _ =>
    [.mgmt]
  | .readControl _ =>
    [.mgmt, .latches]
  | .imprintWrite _ | .rebuildBoot _ =>
    [.imprint, .mgmt]
  | .imprintCommit _ _ _ =>
    [.sec, .bring, .power, .imprint, .mgmt]
  | .getstatus =>
    [.mgmt, .freeCtr]
  | .pullUnavailable _ _ =>
    [.bytes, .granules, .tiers, .ctxs, .host, .fab, .sec, .ledger, .bring, .power, .imprint, .mgmt]

end Sys2Proof.Claims
end

