-- ==== Sys2Proof/WellFormed.lean ====
section
/-!
DEFINITION. Well-formed commands: the unit that a command names exists (01 R24 to R29, 06 Table 6.7, 11 R429, R441).
-/

namespace Sys2Proof

/-- The engine of an access exists. -/
def Engine.wf : Engine → Bool
  | .stage core => core < 144
  | .prefetch core => core < 144
  | .device => true

/-- The units that a command names exist. -/
def wellFormed (i : Instr) : Bool :=
  match i with
  | .counterLowHalfRead requester offset => requester < 2 && offset % 4 = 0 && offset < 0x10000000
  | .registerWriteIgnored bar offset => (bar = 0 && offset < 0x200000) || (bar = 2 && offset < 0x10000000)
  | .rowIssue core _ => core < 144
  | .rowEntry core => core < 144
  | .drainUnit core => core < 144
  | .weightLoadStart core array bank _ => core < 144 && array < 4 && bank < 2
  | .weightLoadDone core array => core < 144 && array < 4
  | .treeNode ctx node => ctx < 16 && node < 65536
  | .windowTensor core => core < 144
  | .inputRowArrival core => core < 144
  | .haloCopy core _ => core < 144
  | .poolPosition core => core < 144
  | .boxDecode core => core < 144
  | .nmsCandidate core => core < 144
  | .nmsSelect core => core < 144
  | .streamWord ctx stream consumer _ => ctx < 16 && stream < 4096 && consumer < 16
  | .tensorHeaderEmit core port => core < 144 && port < 4
  | .passStart core => core < 144
  | .stagingFill core => core < 144
  | .stagingFillDone core => core < 144
  | .stallCycle core _ _ => core < 144
  | .wedged core => core < 144
  | .wedgedReport shelf => shelf < 12
  | .escapeConfirm shelf => shelf < 12
  | .gatherIndex core => core < 144
  | .routeTensor core => core < 144
  | .vectorElement core => core < 144
  | .memAccess engine _ _ _ _ => engine.wf
  | .patrolScrub stack _ => stack < 8
  | .granuleFillDone granule => granule < 12800
  | .cxlWriteDurable port => port < 4
  | .cxlLinkFail port => port < 4
  | .cxlRetrainDone port _ => port < 4
  | .prefetchTurn shelf _ => shelf < 12
  | .sampleRecord ctx entry _ _ => ctx < 16 && entry < 256
  | .decodeStart complex queue _ _ _ => complex < 2 && queue < 256
  | .decodeDone complex queue _ => complex < 2 && queue < 256
  | .creditTimer complex queue => complex < 2 && queue < 256
  | .intakeTensorEmit complex queue => complex < 2 && queue < 256
  | .lateCorrupt complex queue => complex < 2 && queue < 256
  | .roiSetTake complex queue _ => complex < 2 && queue < 256
  | .substitution complex queue => complex < 2 && queue < 256
  | .verdictBarrier ctx => ctx < 16
  | .verdictReceived ctx code => ctx < 16 && code < 4
  | .endOfStepBarrier ctx => ctx < 16
  | .layerUpdate core => core < 144
  | .lossTensor core => core < 144
  | .linkTrained link _ => link < 16
  | .lossOfSignal link => link < 16
  | .keepaliveTimeout link => link < 16
  | .flitSlot link => link < 16
  | .flitIdle link _ _ _ => link < 16
  | .flitData link _ _ _ => link < 16
  | .keyOffer link _ _ _ _ => link < 16
  | .keyConfirm link _ => link < 16
  | .keyAbort link => link < 16
  | .keyingTimeout link => link < 16
  | .keyingRetry link => link < 16
  | .hello link => link < 16
  | .fabricMismatchRetry link => link < 16
  | .syncOffer link => link < 16
  | .syncRecords link => link < 16
  | .syncDone link => link < 16
  | .syncNotReady link => link < 16
  | .syncBackoff link => link < 16
  | .accessionSettle => true
  | .lsr link => link < 16
  | .lsdbRecordExpiry _ => true
  | .routeRecompute => true
  | .packetForward link => link < 16
  | .stream link => link < 16
  | .credit link => link < 16
  | .write link => link < 16
  | .read link => link < 16
  | .readData link => link < 16
  | .ack link => link < 16
  | .collective link => link < 16
  | .mcast link => link < 16
  | .loan link => link < 16
  | .loanData link => link < 16
  | .sample link => link < 16
  | .noticeLagged link => link < 16
  | .noticeDone link => link < 16
  | .transportRetransmit _ => true
  | .mcastSend _ _ _ => true
  | .ethFrame link _ _ _ => link < 16
  | .segmentOpen source => source < 16
  | .segmentData source => source < 16
  | .exportAck source => source < 16
  | .exportResend ctx => ctx < 16
  | .commitStart ctx => ctx < 16
  | .snapshotDone ctx => ctx < 16
  | .parityCompute ctx _ => ctx < 16
  | .copyObject ctx _ => ctx < 16
  | .commitRecordWrite ctx => ctx < 16
  | .commitLeaf ctx => ctx < 16
  | .sealed ctx => ctx < 16
  | .commitFailed ctx _ _ => ctx < 16
  | .lost ctx => ctx < 16
  | .fault ctx => ctx < 16
  | .halt ctx => ctx < 16
  | .bind ctx => ctx < 16
  | .bindAck ctx => ctx < 16
  | .rebind ctx _ => ctx < 16
  | .restoreDone ctx _ _ _ _ _ => ctx < 16
  | .restored ctx => ctx < 16
  | .resume ctx => ctx < 16
  | .drop ctx => ctx < 16
  | .releaseRecord _ => true
  | .join ctx => ctx < 16
  | .hotReset => true
  | .functionLevelReset => true
  | .pcieLinkDown => true
  | .perstAssert => true
  | .perstRelease => true
  | .callDoorbell ring _ _ => ring < 16
  | .slipTake ring => ring < 16
  | .slipEnd ring _ => ring < 16
  | .retAck ring _ => ring < 16
  | .ringReset ring => ring < 16
  | .ringResetEffect ring => ring < 16
  | .upload ring _ _ _ _ => ring < 16
  | .pull ring _ _ => ring < 16
  | .create ring _ => ring < 16
  | .load ring _ _ => ring < 16
  | .unload ring _ => ring < 16
  | .destroy ring _ => ring < 16
  | .pin ring _ => ring < 16
  | .unpin ring _ => ring < 16
  | .weed ring _ => ring < 16
  | .wait ring _ => ring < 16
  | .readResume ring _ => ring < 16
  | .teardown ctx => ctx < 16
  | .teardownDone ctx => ctx < 16
  | .msixUnmask vector => vector < 33
  | .bringupStart => true
  | .phaseInputEnd _ => true
  | .phaseImprintEnd _ => true
  | .phaseMemoryEnd _ _ _ _ _ => true
  | .phaseWavesEnd _ => true
  | .phaseSelfTestEnd _ _ => true
  | .phaseAgeingEnd _ _ => true
  | .phaseYieldEnd _ => true
  | .phaseAccessionEnd _ => true
  | .waveSettled => true
  | .waveTimeout => true
  | .limitExceeded => true
  | .selfTestResult unit' _ _ => unit' < 168 || unit' = 188 || unit' = 189
  | .fwBlock site block _ _ => site < 156 && block < 32
  | .fwNak site block => site < 156 && block < 32
  | .fwNakTimeout site => site < 156
  | .fwVerified site _ => site < 156
  | .coreCheck site => site < 156
  | .spareTestDone shelf _ => shelf < 12
  | .campaignOpen _ => true
  | .campaignPackageCheck _ _ _ => true
  | .campaignActivate _ => true
  | .campaignAbort _ => true
  | .inputOutOfRange _ => true
  | .governorEvaluation _ _ _ => true
  | .domainIdleTimeout unit' => unit' < 16
  | .measurementDone _ => true
  | .muRecord _ _ _ _ => true
  | .muInputLoss => true
  | .muInputReturn => true
  | .muRecordTimeout => true
  | .muSealOpen => true
  | .muFirmwareLoad _ _ _ => true
  | .attest _ _ => true
  | .enrol _ _ => true
  | .release _ _ => true
  | .recalibrate _ _ => true
  | .keySlotGrant slot => slot < 128
  | .moduleInsertion _ => true
  | .inputSettled => true
  | .modResetAssert => true
  | .resetDeadline => true
  | .modResetRelease => true
  | .tripRelease => true
  | .identify _ => true
  | .readControl _ => true
  | .imprintWrite _ => true
  | .imprintCommit _ _ _ => true
  | .rebuildBoot _ => true
  | .managementResponseRead => true
  | .setdasa _ _ => true
  | .entdaa _ => true
  | .rstdaa => true
  | .setnewda _ => true
  | .getpid => true
  | .getbcr => true
  | .getdcr => true
  | .getstatus => true
  | .enec _ => true
  | .disec _ => true
  | .laneSignal link => link < 16
  | .ethLinkLoss link => link < 16
  | .regulatorFault => true
  | .pullUnavailable ring _ => ring < 16
  | .muReseal => true
  | .configurationRequest _ => true

end Sys2Proof
end

