-- ==== Sys2Proof/Certificates/Slice0/Obligations.lean ====
section
/-!
DEFINITION. The statements for the provers.
-/

open Sys2Proof Sys2Proof.Machine Sys2Proof.Claims

/-! ### The queue, the frame and what every step keeps -/

/-- The command at the front of the queue runs, with the queue's rest. -/
def Obligations.StepRunsTheFrontCommand : Prop :=
  ∀ (c : Instr) (rest : List Instr) (s : State),
    step { s with pending := c :: rest } = exec c { s with pending := rest }

/-- On an empty queue the block idles (the model's choice, log entry 39). -/
def Obligations.EmptyQueueIdles : Prop := ∀ s : State, s.pending = [] → step s = .next s

/-- A step that goes on removes exactly the front command. -/
def Obligations.StepRemovesTheFrontCommand : Prop :=
  ∀ (s t : State) (c : Instr) (rest : List Instr), s.pending = c :: rest → step s = .next t → t.pending = rest

/-- A command that names units that exist answers a next state in every state; one that names another stops. -/
def Obligations.CommandsStopOnlyOnMissingUnits : Prop :=
  ∀ (i : Instr) (s : State),
    (wellFormed i = true → ∃ t, exec i s = .next t) ∧ (wellFormed i = false → exec i s = .fault .noSuchUnit)

/-- A command changes no part of the state but those that `touchedBy` lists for it. -/
def Obligations.CommandsTouchOnlyTheirParts : Prop :=
  ∀ (i : Instr) (s t : State), exec i s = .next t → ∀ p, p ∉ touchedBy i → p.same s t

/-- Every step keeps memory in its canonical form: addresses rising, no listed byte equal to what an unlisted address
reads as, poisoned words rising. -/
def Obligations.StepsKeepMemoryCanonical : Prop :=
  ∀ s t : State, s.mem.mem.wf = true → step s = .next t → t.mem.mem.wf = true

/-- Memory at reset is in its canonical form, and stays so over any number of steps. -/
def Obligations.MemoryCanonicalFromReset : Prop :=
  State.reset.mem.mem.wf = true ∧
    ∀ (n : Nat) (cs : List Instr) (t : State), core.run n { State.reset with pending := cs } = .next t →
      t.mem.mem.wf = true

/-- The fused values outlast every step: ordering code, SERIAL, SILICON_REV, LIFECYCLE, the identity key pair; MIN_SVN
never falls. -/
def Obligations.StepsKeepTheFuses : Prop :=
  ∀ s t : State, step s = .next t →
    t.variant = s.variant ∧ t.sec.serial = s.sec.serial ∧ t.sec.siliconRev = s.sec.siliconRev ∧
      t.sec.lifecycle = s.sec.lifecycle ∧ t.sec.identity = s.sec.identity ∧
      t.sec.publicKey = s.sec.publicKey ∧ s.sec.minSvn ≤ t.sec.minSvn

/-! ### The arrays (03) -/

/-- ROW_ISSUE. A stage whose pass has not begun begins it first, where it may; a row that is not there yet waits. A
row that is there, of lanes or of padding (a control row), is tagged, latches the tiles of its banks, takes its place
behind the rows in flight and counts. A row of lanes whose tile is not in every bank is held, a control row never is;
a row that drains is held while its output has no room or its snapshot would fall too early (R112, R113, R125, R131). -/
def Obligations.RowIssueTagsOneRow : Prop :=
  ∀ (s : State) (core : Nat) (e : Ecc) (r : StageRec),
    core < nCores → (s.core core).stage.info = some r → (s.core core).stage.st = .running →
    ((s.core core).stage.seq.active = false →
      (r.npassM1 = 0 ∨ r.wsrc = true ∨ (s.core core).stage.seq.run = 0) →
      let s0 := startPass s core
      (s0.core core).stage.info = some r → (s0.core core).stage.st = .running → (s0.core core).stage.seq.active = true →
      exec (.rowIssue core e) s = exec (.rowIssue core e) s0) ∧
    ((s.core core).stage.seq.active = true → (s.core core).stage.switchLeft = 0 →
      ∀ pl : Plan, planOf s core = some pl → pl.rows ≠ 0 → pl.slices ≠ 0 →
      ((nextRow s core r pl).1 = .wait → exec (.rowIssue core e) s = .next s) ∧
      (e = .clean → rowError s core r e = s) ∧
      ((nextRow s core r pl).1 ≠ .wait →
        let s1 := rowError s core r e
        (s1.core core).stage.st = .running →
        ∀ (es : List Elem) (products : Bool) (d : Dest) (t : Nat) (sc : F32),
          (products = true ∧ nextRow s1 core r pl = (.lanes es, d, t, sc) ∧ 1 ≤ es.length ∧ es.length ≤ 128 ∨
            products = false ∧ nextRow s1 core r pl = (.control, d, t, sc) ∧ es = []) →
          let s2 := if products then formTaps s1 core r else s1
          let u := (s2.core core).arr
          let q := (s2.core core).stage.seq
          let as := arraysOf r.arrays
          let drain := pl.drains && decide (t + 1 = pl.slices)
          let holds := !products || as.all fun a => bankHolds u a (t % 2) (bankKey r q pl.slices q.block) t
          let room := !drain || (outRoom s2 core d.port (16 * as.length) && drainClear u)
          (holds = true → room = true → Answers (.rowIssue core e) s fun s' =>
            let v := (s'.core core).arr
            CoresMoved core s2 s' ∧ v.held = none ∧ v.rowsIssued = u.rowsIssued + 1 ∧ v.groups = u.groups ∧
            v.banks = u.banks ∧ v.snaps = u.snaps ∧
            v.drainWait = (if drain then as.length else u.drainWait) - issueCycles u.mode ∧
            ∃ row, v.flight = u.flight ++ [row] ∧ row.acts = es ∧ row.scaleA = sc ∧ row.dest = d ∧
              (products = true → tagLanes row.tag = es.length) ∧ tagOpen row.tag = decide (t = 0) ∧
              tagKeep row.tag = pl.keep ∧ tagDrain row.tag = drain ∧ tagProducts row.tag = products ∧
              tagBank row.tag = t % 2 ∧ tagArrays row.tag = r.arrays ∧
              ∀ a k, (a, k) ∈ row.banks ↔ products = true ∧ a ∈ as ∧ tget u.banks (2 * a + t % 2) = some k) ∧
          (holds = false → exec (.rowIssue core e) s =
            .next (s2.modCore core fun c => { c with arr := { c.arr with held := some .bank } })) ∧
          (holds = true → room = false → exec (.rowIssue core e) s =
            .next (s2.modCore core fun c => { c with arr := { c.arr with held := some .output } }))))

/-- ROW_ENTRY. The oldest row leaves the rows in flight. In each array that its tag names it enters the group of the
tag, and no group of another array or number changes; a DRAIN row leaves one snapshot for each array of its tag, in
array order. A DRAIN row waits for the snapshots of the one before it; a row that a group stops on stops the stage and
faults its context (R117, R119 to R123, R125). -/
def Obligations.RowEntryUpdatesItsGroups : Prop :=
  ∀ (s : State) (core : Nat) (row : Row) (rest : List Row),
    core < nCores → (s.core core).arr.flight = row :: rest →
    let u := (s.core core).arr
    let as := arraysOf (tagArrays row.tag)
    let waits := tagDrain row.tag && !u.snaps.isEmpty
    (waits = true → exec (.rowEntry core) s = .next s) ∧
    (∀ (u1 : ArrayUnit) (n : StopName), waits = false → enterRow u.mode row as { u with flight := rest } = (u1,
      some n) →
      Answers (.rowEntry core) s fun s' =>
        CoresBut core s s' ∧ (s'.core core).stage.st = .stopped ∧ (s'.core core).arr.groups = u1.groups ∧
        (s'.core core).arr.flight = [] ∧ (s'.core core).arr.snaps = [] ∧
        (s'.ctx (s.core core).stage.ctx).faults = (s.ctx (s.core core).stage.ctx).faults + 1) ∧
    (∀ u1 : ArrayUnit, waits = false → enterRow u.mode row as { u with flight := rest } = (u1, none) →
      Answers (.rowEntry core) s fun s' =>
        let v := (s'.core core).arr
        CoresBut core s s' ∧ v.flight = rest ∧ v.banks = u.banks ∧ v.rowsIssued = u.rowsIssued ∧ v.drains = u.drains ∧
        (s'.core core).stage = (s.core core).stage ∧
        (∀ a g, a < 4 → g < 4 → (a ∉ as ∨ g ≠ tagGroup row.tag) → v.group a g = u.group a g) ∧
        (∀ a, a ∈ as → ∃ far, enterGroup u.mode row (tget row.banks a) (u.group a (tagGroup row.tag)) =
          .ok (v.group a (tagGroup row.tag)) far) ∧
        (tagDrain row.tag = false → v.snaps = u.snaps) ∧
        (tagDrain row.tag = true → v.snaps.map (·.array) = as ∧
          ∀ x ∈ v.snaps, x.vals = (v.group x.array (tagGroup row.tag)).vals ∧
            x.longAccum = (v.group x.array (tagGroup row.tag)).longAccum))

/-- What one row does to one group outside BBF12 mode, with its tile in the bank and no poison: PRODUCTS grows by the
lanes and saturates at 0FFF_FFFFh, LONG_ACCUM is set beyond 2 to the 20 products, the scale pair is the group's, a NaN
column stays NaN and every other column adds its products to nearest even (R117, R119 to R122). -/
def Obligations.GroupAddsTheRowsProducts : Prop :=
  ∀ (m : AMode) (row : Row) (b : Bank) (g : Group),
    m ≠ .bbf12 → tagProducts row.tag = true → tagOpen row.tag = false → g.poisoned = false → g.vals.length = 16 →
    (g.pair = none ∨ g.pair = some (row.scaleA, b.scaleB)) → row.acts.all (fun e => !e.poison) = true → b.poison = 0 →
    ∃ far v, enterGroup m row (some b) g = .ok v far ∧
      v.products.toNat = min (g.products.toNat + tagLanes row.tag) 0x0FFFFFFF ∧
      v.longAccum = (g.longAccum || decide (g.products.toNat + tagLanes row.tag > 2 ^ 20)) ∧
      v.pair = some (row.scaleA, b.scaleB) ∧ v.poisoned = false ∧ v.vals.length = 16 ∧
      ∀ j a, g.vals[j]? = some a →
        v.vals[j]? = some (match (columnSum .nearestEven (columnProducts m row b j)).1 with
          | none => A40.nan
          | some d => if A40.isNaN a then A40.nan else A40.addTo .nearestEven a d)

/-- DRAIN_UNIT, WEIGHT_LOAD_START, WEIGHT_LOAD_DONE. The drain unit takes one snapshot unless its output's words wait,
counts the drain at its last array and LONG_ACCUM with its flag, and puts each column's value, rounded once, at its
place in its tensor alone. A tile load on a free load path empties its bank at the start and fills it with the tile at
the end; it waits while another load is under way, while the bank holds that tile, and while the tile is not there
(R124, R126, R128 to R131). -/
def Obligations.DrainAndWeightLoads : Prop :=
  (∀ (s : State) (core : Nat) (x : Snap) (rest : List Snap) (t : OutTensor),
    core < nCores → (s.core core).arr.snaps = x :: rest →
    let u := (s.core core).arr
    let o := (s.core core).outPort x.dest.port
    let k := x.dest.seq - o.gone
    (portFull s core x.dest.port = true → exec (.drainUnit core) s = .next s) ∧
    (portFull s core x.dest.port = false → o.outs[k]? = some t → Answers (.drainUnit core) s fun s' =>
      let v := (s'.core core).arr
      let o' := (s'.core core).outPort x.dest.port
      CoresBut core s s' ∧ v.snaps = rest ∧ v.groups = u.groups ∧ v.drains = u.drains + (if x.last then 1 else 0) ∧
      v.longAccumDrains = u.longAccumDrains + (if x.longAccum then 1 else 0) ∧
      (∀ i, i ≠ k → o'.outs[i]? = o.outs[i]?) ∧
      ∃ t', o'.outs[k]? = some t' ∧ t'.length = t.length ∧
        t'.flags = (if x.longAccum then t.flags ||| flagLongAccum else t.flags) ∧
        (∀ j a, j < x.dest.cols → x.vals[j]? = some a →
          tget t'.vals (x.dest.base + j) = some (drainValue (u.mode = .bbf12)
            (x.pair.getD (F32.one, F32.one)).1 (x.pair.getD (F32.one, F32.one)).2 x.poisoned a)) ∧
        (∀ j, j < x.dest.base ∨ x.dest.base + x.dest.cols ≤ j → tget t'.vals j = tget t.vals j))) ∧
  (∀ (s : State) (core a b : Nat) (e : Ecc) (r : StageRec) (pl : Plan) (t blk rank : Nat),
    core < nCores → a < 4 → b < 2 → (s.core core).stage.info = some r → planOf s core = some pl →
    nextSlice (s.core core) r pl b = some (t, blk) → (arraysOf r.arrays).idxOf? a = some rank →
    let u := (s.core core).arr
    let run := bankKey r (s.core core).stage.seq pl.slices blk
    let s1 := tileError s core r t rank e
    ((u.loading ≠ [] ∨ bankHolds u a b run t = true ∨ tileFor (s.core core) r t rank run = none) →
      exec (.weightLoadStart core a b e) s = .next s) ∧
    (e = .clean → s1 = s) ∧
    (u.loading = [] → bankHolds u a b run t = false → (tileFor (s.core core) r t rank run).isSome = true →
      (s1.core core).stage.st ≠ .stopped → ∀ k : Bank, tileFor (s1.core core) r t rank run = some k →
      Answers (.weightLoadStart core a b e) s fun s' =>
        let v := (s'.core core).arr
        CoresBut core s1 s' ∧ v.loading = tset (s1.core core).arr.loading a ⟨b, k⟩ ∧
          v.banks = terase (s1.core core).arr.banks (2 * a + b) ∧
        k.run = run ∧ k.slice = t ∧ (∀ n, n ≠ 2 * a + b → tget v.banks n = tget (s1.core core).arr.banks n) ∧
        v.groups = (s1.core core).arr.groups ∧ v.flight = (s1.core core).arr.flight)) ∧
  (∀ (s : State) (core a : Nat) (l : TileLoad),
    core < nCores → a < 4 → tget (s.core core).arr.loading a = some l →
    Answers (.weightLoadDone core a) s fun s' =>
      let v := (s'.core core).arr
      CoresBut core s s' ∧ tget v.banks (2 * a + l.bank) = some l.content ∧
      v.loading = terase (s.core core).arr.loading a ∧
      (∀ k, k ≠ 2 * a + l.bank → tget v.banks k = tget (s.core core).arr.banks k) ∧
      v.groups = (s.core core).arr.groups ∧ v.flight = (s.core core).arr.flight)

/-! ### Trees, the window engine and post-processing (03, 04) -/

/-- TREE_NODE. Where every child of an inner node that runs is live and has its next element, the node takes one
element from each, in child order, and its value is the next one at its parent's child entry, after the header that
goes before the first element; the headers of the children go with the last element. A node with a child that has no
header waits, and so does one whose reduction unit is not powered (R134; 09 R374). -/
def Obligations.TreeNodeCombinesInChildOrder : Prop :=
  ∀ (s : State) (c node : Nat) (d : TreeRec),
    c < nCtx → node < 65536 → treeRec (s.ctx c) node = some d → epKind d.out = 2 → epNode d.out ≠ node →
    rootStream (s.ctx c) node = none →
    let t := s.node c node
    let kids := List.range (d.fanin + 1)
    (nodeRuns s (s.ctx c) d = false → exec (.treeNode c node) s = .next s) ∧
    ((∀ k ∈ kids, kidLive s c 64 node k = true) → (∃ k ∈ kids, (t.kid k).hdrs = []) →
      exec (.treeNode c node) s = .next s) ∧
    (∀ (hs : List THdr) (xs : List (F32 × Bool)),
      nodeRuns s (s.ctx c) d = true → (∀ k ∈ kids, kidLive s c 64 node k = true) →
      kids.map (fun k => (t.kid k).hdrs.head?) = hs.map some → kids.map (fun k => (t.kid k).vals.head?) = xs.map some →
      t.pos < (treeHeader hs).length →
      let r := nodeValue (s.ctx c) node d.op 0 xs
      let last := decide (t.pos + 1 = (treeHeader hs).length)
      let parent := (s.node c (epNode d.out)).kid (epChild d.out)
      Answers (.treeNode c node) s fun s' =>
        (s'.node c node).pos = (if last then 0 else t.pos + 1) ∧
        (∀ k ∈ kids, (s'.node c node).kid k = { t.kid k with
          vals := (t.kid k).vals.drop 1, hdrs := (t.kid k).hdrs.drop (if last then 1 else 0) }) ∧
        (s'.node c (epNode d.out)).kid (epChild d.out) = { parent with
          hdrs := parent.hdrs ++ (if t.pos = 0 then [treeHeader hs] else [])
          vals := parent.vals ++ [(r.code.setWidth 32, r.poison)] } ∧
        s'.cores = s.cores ∧ (∀ k, k ≠ c → s'.ctx k = s.ctx k))

/-- WINDOW_TENSOR, INPUT_ROW_ARRIVAL, HALO_COPY. A shaped tensor that fits the geometry word opens with the output
size of R146 and the padding in force of R148 and R149; one that does not stops the stage. A whole row that some
window needs takes a free line-buffer slot with the columns that the windows of the running tile need, and waits while
none is free; a row that none needs is counted and dropped; a stripe copies the next row that its neighbour holds for
it, and the neighbour's count of the row drops (R145 to R149, R154 to R156, R161, R162). -/
def Obligations.WindowsTakeTensorsAndRows : Prop :=
  (∀ (s : State) (core : Nat) (r : StageRec) (h : THdr),
    core < nCores → (s.core core).stage.info = some r → ((s.core core).inPort 0).hdr = some h → r.isWindow = true →
    (s.core core).win.cur = none → (s.core core).stage.st = .running →
    let w := WinDesc.parse r.param
    let fits := h.c = w.inC ∧ h.w ≤ w.maxW ∧ (w.inH = 0 ∨ h.h = w.inH)
    let pv := padInForce w.padMode w.padTop w.padBottom h.h
    let ph := padInForce w.padMode w.padLeft w.padRight h.w
    h.h ≠ 0 → h.w ≠ 0 →
    (¬fits → exec (.windowTensor core) s = .next (stopStage s core .windowGeometry 0)) ∧
    (fits → 0 < w.outH h.h → 0 < w.outW h.w → Answers (.windowTensor core) s fun s' =>
      CoresBut core s s' ∧ (s'.core core).arr = (s.core core).arr ∧ (s'.core core).stage = (s.core core).stage ∧
      (s'.core core).win.cur = some ⟨h, (w.outH h.h).toNat, (w.outW h.w).toNat, pv, ph, 0, 0, 0, false⟩ ∧
      (s'.core core).win.padReflectShorts = (s.core core).win.padReflectShorts +
        BitVec.ofNat 32 ((if pv ≠ w.padMode then 1 else 0) + (if ph ≠ w.padMode then 1 else 0)))) ∧
  (∀ (s : State) (core : Nat) (r : StageRec) (t : WinTensor) (x : Nat),
    core < nCores → (s.core core).stage.info = some r → (s.core core).win.cur = some t → t.issued = false →
    let w := WinDesc.parse r.param
    let c := s.core core
    let base := t.nextRow * t.hdr.w * t.hdr.c
    (arrivingRows c.stage r w t)[t.nextRow]? = some x → base + t.hdr.w * t.hdr.c ≤ (c.inPort 0).elems.length →
    let needed := w.rowNeeded (t.padV = 2) t.hdr.h (myRows c.stage r t.oh).1 (myRows c.stage r t.oh).2 x
    let met := { t with nextRow := t.nextRow + 1, counted := max t.counted (t.nextRow + 1) }
    (needed = false → exec (.inputRowArrival core) s = .next (s.modCore core fun k => { k with win := { k.win with
        cur := some met, skippedRows := k.win.skippedRows + (if t.counted ≤ t.nextRow then 1 else 0) } })) ∧
    (needed = true → w.oneTap = false → slotsFree c r w t = 0 → exec (.inputRowArrival core) s = .next s) ∧
    (needed = true → w.oneTap = false → slotsFree c r w t ≠ 0 →
      let key := lineKey c.stage.seq x
      let span := tileSpan w t.ow c.stage.seq.tile
      Answers (.inputRowArrival core) s fun s' =>
        CoresBut core s s' ∧ (s'.core core).win.cur = some met ∧
        (s'.core core).inp = c.inp ∧ (s'.core core).win.skippedRows = c.win.skippedRows ∧
        (∀ y, y ≠ key → tget (s'.core core).win.lines y = tget c.win.lines y) ∧
        ∃ l, tget (s'.core core).win.lines key = some l ∧ l.ownerDone = false ∧ l.halo = false ∧
          l.count = (if belowNeeds c.stage r w t x then 2 else 1) ∧
          ∀ y, y < t.hdr.w → tget l.cols y = (if w.colNeeded (t.padH = 2) t.hdr.w span.1 span.2 y
            then some (lanes (zeroCode (actFmt c.arr.mode)) (c.inPort 0).elems (base + y * t.hdr.c) t.hdr.c)
            else none))) ∧
  (∀ (s : State) (core up key : Nat) (r : StageRec) (e : Ecc) (l : LineRow),
    core < nCores → (s.core core).stage.info = some r → nextHalo s core = some (up, key) → up ≠ core →
    (tget (s.core up).win.lines key = none → exec (.haloCopy core e) s = .next s) ∧
    ((coreOn s core = false ∨ coreOn s up = false) → exec (.haloCopy core e) s = .next s) ∧
    (tget (s.core up).win.lines key = some l → lineSlots (WinDesc.parse r.param) ≤ (s.core core).win.lines.length →
      exec (.haloCopy core e) s = .next s) ∧
    (tget (s.core up).win.lines key = some l → (s.core core).win.lines.length < lineSlots (WinDesc.parse r.param) →
      coreOn s core = true → coreOn s up = true →
      let s1 := lineError s up key ((l.cols.map (·.1)).headD 0) e
      let l1 := tgetD (s1.core up).win.lines key l
      (e ≠ .uncorrected → ∀ k, s1.core k = s.core k) ∧ Answers (.haloCopy core e) s fun s' =>
        (∀ k, k ≠ core → k ≠ up → s'.core k = s1.core k) ∧
        tget (s'.core core).win.lines key = some ⟨l1.cols, 1, false, true⟩ ∧
        (s'.core core).win.haloCopies = (s1.core core).win.haloCopies + 1 ∧
        (s'.core core).win.cur = (s1.core core).win.cur.map (fun t => { t with nextHalo := t.nextHalo + 1 }) ∧
        (l1.count ≤ 1 → (s'.core up).win.lines = terase (s1.core up).win.lines key) ∧
        (2 ≤ l1.count → tget (s'.core up).win.lines key = some { l1 with count := l1.count - 1 }) ∧
        (∀ y, y ≠ key → tget (s'.core core).win.lines y = tget (s1.core core).win.lines y ∧
          tget (s'.core up).win.lines y = tget (s1.core up).win.lines y)))

/-- POOL_POSITION, BOX_DECODE. A position of a channel group adds its channels to the A40 sums, which the first of a
group opens at zero, NaN and poison staying; the last of a group puts the means of its channels, the last of a tensor
lets the input go, a tensor of no elements gives an empty one and one of more than 2^32 - 1 positions stops the stage.
A candidate of a decoding stage puts its four corners behind those of the one before it, NaN where one of its values
or its anchor is poisoned, and a candidate of a fused stage is kept with its score and class, an infinity clamped and
counted; the last candidate lets the input go, and rows of fewer than four values stop the stage. A unit whose input
is not there, or whose outputs have no room, waits (R164 to R167; the input rows of a decode are log entry 14). -/
def Obligations.PoolingAndBoxes : Prop :=
  (∀ (s : State) (core : Nat) (r : StageRec) (h : THdr),
    core < nCores → (s.core core).stage.info = some r → ((s.core core).inPort 0).hdr = some h → r.opclass = 2 →
    (s.core core).stage.st = .running → outputFull s core = false →
    let c := s.core core
    let n := h.h * h.w
    let g := c.win.poolTaken / n
    let i := c.win.poolTaken % n
    let w := min 128 (h.c - 128 * g)
    let es := ((c.inPort 0).elems.drop (i * h.c + 128 * g)).take w
    let add := fun (acc : List A40) => (acc.zip es).map fun q =>
      if q.2.poison || A40.isNaN q.1 || F32.isNaN (q.2.code.setWidth 32) then A40.nan
      else A40.addTo .nearestEven q.1 (F32.val (q.2.code.setWidth 32))
    let mark := fun (bad : List Bool) => (bad.zip es).map fun q => q.1 || q.2.poison
    (2 ^ 32 - 1 < n → exec (.poolPosition core) s = .next (stopStage s core .poolLength 0)) ∧
    (n = 0 ∨ h.c = 0 → n ≤ 2 ^ 32 - 1 → (c.inPort 0).done = true →
      exec (.poolPosition core) s = .next (passEmpty (s.modCore core fun k => { k with win := { k.win with
        convEmptyTensors := k.win.convEmptyTensors + 1 } }) core h flagConvEmpty (c.inPort 0).hpoison [0] (0, 0, 0))) ∧
    (n ≤ 2 ^ 32 - 1 → h.c ≠ 0 → 0 < i → i + 1 < n → i * h.c + 128 * g + w ≤ (c.inPort 0).elems.length →
      exec (.poolPosition core) s = .next (s.modCore core fun k => { k with win := { k.win with
        poolTaken := k.win.poolTaken + 1
        pool := add k.win.pool
        poolPoison := mark k.win.poolPoison } })) ∧
    (n ≤ 2 ^ 32 - 1 → n ≠ 0 → h.c ≠ 0 → i = 0 ∨ i + 1 = n → i * h.c + 128 * g + w ≤ (c.inPort 0).elems.length →
      let acc := add (if i = 0 then List.replicate w A40.zero else c.win.pool)
      let bad := mark (if i = 0 then List.replicate w false else c.win.poolPoison)
      let endT : Bool := i + 1 = n && 128 * g + w = h.c
      let s1 := if c.win.poolTaken = 0 then beginOut s core 0 ⟨h.c, h.c, 1, 1, h.sample,
        flagShaped ||| (if n > 2 ^ 23 then flagLongAccum else 0), (c.inPort 0).hpoison, []⟩ else s
      let s2 := s1.modCore core fun k => { k with
        win := { k.win with
          pool := acc, poolPoison := bad, poolTaken := if endT then 0 else k.win.poolTaken + 1 }
        arr := { k.arr with longAccumDrains := k.arr.longAccumDrains + (if endT && n > 2 ^ 23 then 1 else 0) } }
      let s3 := if i + 1 = n then putVals s2 core 0 (nextOutSeq (s2.core core) 0 - 1) (128 * g)
        ((acc.zip bad).map fun q => poolMean h.scale (F32.div F32.one (F32.ofNat n)) q.1 q.2) else s2
      exec (.poolPosition core) s = .next (if endT then releaseIn s3 core 0 else s3))) ∧
  (∀ (s : State) (core : Nat) (r : StageRec) (h : THdr),
    core < nCores → (s.core core).stage.info = some r → ((s.core core).inPort 0).hdr = some h →
    let c := s.core core
    let n := h.h * h.w
    let g := c.win.poolTaken / n
    r.opclass ≠ 2 ∨ c.stage.st ≠ .running ∨ outputFull s core = true ∨
      (n ≤ 2 ^ 32 - 1 ∧ n ≠ 0 ∧ h.c ≠ 0 ∧
        (c.inPort 0).elems.length < c.win.poolTaken % n * h.c + 128 * g + min 128 (h.c - 128 * g)) ∨
      (n ≤ 2 ^ 32 - 1 ∧ (n = 0 ∨ h.c = 0) ∧ (c.inPort 0).done = false) →
    exec (.poolPosition core) s = .next s) ∧
  (∀ (s : State) (core : Nat) (r : StageRec) (h : THdr),
    core < nCores → (s.core core).stage.info = some r → ((s.core core).inPort 0).hdr = some h → r.opclass = 3 →
    (s.core core).stage.st = .running → outputFull s core = false → h.length ≠ 0 → 4 ≤ h.c →
    let c := s.core core
    let i := c.win.boxes
    i < h.length / h.c → (i + 1) * h.c ≤ (c.inPort 0).elems.length →
    let es := ((c.inPort 0).elems.drop (i * h.c)).take h.c
    let at' := carrelWindow core + postAnchors r.param + 16 * i
    let f := fun k => ((es[k]?).map fun e : Elem => (e.code.setWidth 32 : F32)).getD F32.posZero
    let b := decodeBox r.param f fun k => BitVec.ofNat 32 (s.mem.mem.readNat (at' + 4 * k) 4)
    let bad : Bool := es.any (·.poison) || (!postFmt r.param && s.mem.mem.poisonedRange at' 16)
    let s1 := s.modCore core fun k => { k with win := { k.win with boxes := i + 1 } }
    (postOp r.param = 0 → 0 < i → i + 1 < h.length / h.c →
      exec (.boxDecode core) s = .next (putVals s1
        core 0 (nextOutSeq c 0 - 1) (4 * i) (b.map fun x => oval (if bad then F32.nan else x) bad))) ∧
    (postOp r.param = 0 → i = 0 ∨ i + 1 = h.length / h.c →
      let s2 := if i = 0 then beginOut s1 core 0 ⟨4 * (h.length / h.c), 4, h.length / h.c, 1, h.sample, flagShaped,
        (c.inPort 0).hpoison, []⟩ else s1
      let s3 := putVals s2 core 0 (nextOutSeq (s2.core core) 0 - 1) (4 * i)
        (b.map fun x => oval (if bad then F32.nan else x) bad)
      exec (.boxDecode core) s = .next (if i + 1 = h.length / h.c then
        releaseIn (s3.modCore core fun k => { k with win := { k.win with boxes := 0 } }) core 0 else s3)) ∧
    (postOp r.param = 2 → bad = true ∨ b.all (fun x => !F32.isInf x) = true →
      exec (.boxDecode core) s = .next (s.modCore core fun k => { k with win := { k.win with
        boxes := i + 1
        decoded := k.win.decoded ++ [⟨candRecord
          (b.map fun x => if F32.isInf x then F32.maxFinite (F32.sign x) else x) (if h.c > 4 then f 4 else F32.posZero)
          (if h.c > 5 then classOf (f 5) else 0), bad⟩] } })) ∧
    (postOp r.param = 2 → bad = false → b.any F32.isInf = true →
      exec (.boxDecode core) s = .next ((s1.modEp core 4 EpCtr.addSat).modCore core fun k => { k with win :=
        { k.win with
        decoded := k.win.decoded ++ [⟨candRecord
          (b.map fun x => if F32.isInf x then F32.maxFinite (F32.sign x) else x) (if h.c > 4 then f 4 else F32.posZero)
          (if h.c > 5 then classOf (f 5) else 0), false⟩] } }))) ∧
  (∀ (s : State) (core : Nat) (r : StageRec) (h : THdr),
    core < nCores → (s.core core).stage.info = some r → ((s.core core).inPort 0).hdr = some h → r.opclass = 3 →
    postOp r.param ≠ 1 → (s.core core).stage.st = .running → outputFull s core = false →
    let c := s.core core
    (h.length = 0 →
      exec (.boxDecode core) s = .next (passEmpty s core h 0 (c.inPort 0).hpoison [0] (4, 0, 1))) ∧
    (h.length ≠ 0 → h.c < 4 → exec (.boxDecode core) s = .next (stopStage s core .tensorLength 0)) ∧
    (h.length ≠ 0 → 4 ≤ h.c → h.length / h.c ≤ c.win.boxes ∨ (c.inPort 0).elems.length < (c.win.boxes + 1) * h.c →
      exec (.boxDecode core) s = .next s)) ∧
  (∀ (s : State) (core : Nat) (r : StageRec),
    core < nCores → (s.core core).stage.info = some r →
    r.opclass ≠ 3 ∨ postOp r.param = 1 ∨ (s.core core).stage.st ≠ .running ∨ outputFull s core = true ∨
      ((s.core core).inPort 0).hdr = none →
    exec (.boxDecode core) s = .next s)

/-- NMS_CANDIDATE, NMS_SELECT. Of the first 4,096 candidates one with a score of at least SCORE_MIN is kept under its
number; one with a NaN is counted as invalid, a poisoned one is passed over, its poisoned words being counted at the
port and one that only its anchor poisons here (log entry 50); the 4,097th and later ones are dropped and counted. At
the end of the tensor the kept records leave in one tensor, greatest score first, and the candidates are gone; an
empty tensor gives an empty one. A unit whose candidate is not there, or whose output has no room, waits (R168 to
R170). -/
def Obligations.SuppressionKeepsTheBest : Prop :=
  (∀ (s : State) (core : Nat) (r : StageRec) (h : THdr) (e : Elem),
    core < nCores → (s.core core).stage.info = some r → ((s.core core).inPort 0).hdr = some h → r.opclass = 3 →
    postOp r.param ≠ 0 → (s.core core).stage.st = .running →
    let n := (s.core core).win.candNext
    let p := (s.core core).inPort 0
    let nan : Bool := [recX1 e.code, recY1 e.code, recX2 e.code, recY2 e.code, recScore e.code].any F32.isNaN
    n < candCount r h → (if postOp r.param = 1 then p.elems[n]? else (s.core core).win.decoded[n]?) = some e →
    (n < 4096 → e.poison = true →
      exec (.nmsCandidate core) s = .next
        (let s1 := s.modCore core fun k => { k with win := { k.win with candNext := n + 1 } }
         if postOp r.param = 1 ∨ ((p.elems.drop (n * h.c)).take h.c).any (·.poison) = true then s1
         else s1.modEp core 0 fun k => k.addPoison 1)) ∧
    (4096 ≤ n ∨ e.poison = false →
      exec (.nmsCandidate core) s = .next (s.modCore core fun k => { k with win :=
        (if n ≥ 4096 then { k.win with candNext := n + 1, truncated := true, nmsDropped := k.win.nmsDropped + 1 }
         else if nan then { k.win with candNext := n + 1, nmsInvalid := k.win.nmsInvalid + 1 }
         else if F32.lt (recScore e.code) (postScoreMin r.param) then { k.win with candNext := n + 1 }
         else { k.win with candNext := n + 1, cands := k.win.cands ++ [⟨recIndexed e.code n, n⟩] }) }))) ∧
  (∀ (s : State) (core : Nat) (r : StageRec) (h : THdr),
    core < nCores → (s.core core).stage.info = some r → ((s.core core).inPort 0).hdr = some h →
    r.opclass ≠ 3 ∨ postOp r.param = 0 ∨ (s.core core).stage.st ≠ .running ∨
      candCount r h ≤ (s.core core).win.candNext ∨
      (if postOp r.param = 1 then ((s.core core).inPort 0).elems[(s.core core).win.candNext]?
       else (s.core core).win.decoded[(s.core core).win.candNext]?) = none →
    exec (.nmsCandidate core) s = .next s) ∧
  (∀ (s : State) (core : Nat) (r : StageRec) (h : THdr),
    core < nCores → (s.core core).stage.info = some r → ((s.core core).inPort 0).hdr = some h → r.opclass = 3 →
    postOp r.param ≠ 0 → (s.core core).stage.st = .running → outputFull s core = false →
    ((s.core core).inPort 0).done = true → candCount r h ≤ (s.core core).win.candNext →
    (boundStream s core 4).isSome = true →
    let kept := nmsKeep r.param ((s.core core).win.cands.foldl insertCand []) []
    (h.length ≠ 0 → Answers (.nmsSelect core) s fun s' =>
      CoresMoved core s s' ∧ kept.length ≤ postKeepMax r.param ∧ (s'.core core).win.cands = [] ∧
      (s'.core core).win.candNext = 0 ∧ (s'.core core).win.decoded = [] ∧ (s'.core core).win.boxes = 0 ∧
      (s'.core core).win.nmsKept = (s.core core).win.nmsKept + BitVec.ofNat 32 kept.length ∧
      (s'.core core).inPort 0 = InPort.empty ∧
      ∃ t, ((s'.core core).outPort 0).outs = ((s.core core).outPort 0).outs ++ [t] ∧ t.length = kept.length ∧
        t.sample = h.sample ∧ ∀ i, tget t.vals i = (kept[i]?).map fun x => ⟨x, true, false, false⟩) ∧
    (h.length = 0 →
      exec (.nmsSelect core) s = .next (passEmpty s core h 0 ((s.core core).inPort 0).hpoison [0] (1, 0, 1)))) ∧
  (∀ (s : State) (core : Nat) (r : StageRec) (h : THdr),
    core < nCores → (s.core core).stage.info = some r → ((s.core core).inPort 0).hdr = some h →
    r.opclass ≠ 3 ∨ postOp r.param = 0 ∨ (s.core core).stage.st ≠ .running ∨ outputFull s core = true ∨
      ((s.core core).inPort 0).done = false ∨ (s.core core).win.candNext < candCount r h →
    exec (.nmsSelect core) s = .next s)

/-! ### Streams and stages (05) -/

/-- STREAM_WORD, TENSOR_HEADER_EMIT. The word at the head of a consumer's buffer leaves it and reaches the port that
takes it: a header opens a tensor, counts for the step and sets the stage RUNNING, one that the stage does not accept
stops it, and data words are converted in order until LAST ends the tensor. No word moves between HALT and RESUME or
into a port that takes none, and the credits of words read go back. A complete tensor leaves a port as a header word
followed by its packed data words, a stripe's shares with one header each, its USE counted; one that is too long, or
that a stripe finds unshaped, stops the stage (R181, R184 to R189). -/
def Obligations.WordsCrossStreams : Prop :=
  (∀ (s : State) (c i k core : Nat) (ecc : Ecc) (r : StreamRec) (e : BitVec 32) (w : SWord),
    c < nCtx → i < 4096 → k < 16 → streamRec (s.ctx c) i = some r → r.consumers[k]? = some e →
    ((s.stream c i).buf k).head = some w → epKind e = 0 → lcoreOf (s.ctx c) (epLcore e) = some core →
    let q := epPort e
    let s1 := bufferError s c i k ecc
    ((s.ctx c).held = true → exec (.streamWord c i k ecc) s = .next (returnCredits s)) ∧
    (portTakes s core q w = false → exec (.streamWord c i k ecc) s = .next (returnCredits s)) ∧
    (ecc = .clean → s1 = s) ∧
    ∀ (w1 : SWord) (st : StageRec), (s.ctx c).held = false → endpointOn s (s.ctx c) e = true → bufferOn s c r k = true →
      portTakes s core q w = true → portTakes s1 core q w1 = true → ((s1.stream c i).buf k).head = some w1 →
      (s1.core core).stage.info = some st → st.opclass ≠ 5 →
      let p := (s1.core core).inPort q
      (∀ (h : THdr) (f : Fmt), w1.header = false → p.hdr = some h → fmtOf h.format = some f →
        Answers (.streamWord c i k ecc) s fun s' =>
          let p' := (s'.core core).inPort q
          CoresMoved core s1 s' ∧ p'.hdr = some h ∧ p'.done = w1.last ∧
          p'.elems = p.elems ++ (convIn (portForm st q f) f h.scale
            ((List.range (min (perWord f) (h.length - p.elems.length))).map (unpackElem f w1.bits)) w1.poison).map
              (fun x => ⟨BitVec.ofNat 256 x.1.code, x.2⟩)) ∧
      (w1.header = true → let h := THdr.parse w1.bits
        scaleAccepted st h = true → (needsShape st q = true → h.shaped = true) →
        skewed (s1.core core) st q h = false → Answers (.streamWord c i k ecc) s fun s' =>
          CoresMoved core s1 s' ∧ (s'.core core).inPort q = ⟨some h, [], w1.poison, decide (h.length = 0)⟩ ∧
          (s'.core core).stage.st = .running ∧ (s'.epCtr core q).scaleInUse = h.scale ∧
          tgetD (s'.core core).takes q 0 = tgetD (s1.core core).takes q 0 + 1) ∧
      (w1.header = true → let h := THdr.parse w1.bits
        scaleAccepted st h = false ∨ (needsShape st q = true ∧ h.shaped = false) ∨ skewed (s1.core core) st q h = true →
        Answers (.streamWord c i k ecc) s fun s' => (s'.core core).stage.st = .stopped)) ∧
  (∀ (s : State) (core p i : Nat) (rec' : StageRec) (r : StreamRec) (t : OutTensor) (rest : List OutTensor),
    core < nCores → p < 4 → (s.core core).stage.info = some rec' → boundStream s core (4 + p) = some (i, r) →
    ((s.core core).outPort p).outs = t :: rest → t.complete = true →
    let c := (s.core core).stage.ctx
    let x := s.ctx c
    let o := (s.core core).outPort p
    let skip := (tgetD (s.core core).leafSkips p []).contains o.stepNo
    (r.maxLen < t.length → exec (.tensorHeaderEmit core p) s = .next (stopStage s core .tensorLength 0)) ∧
    (t.length ≤ r.maxLen → skip = true → Answers (.tensorHeaderEmit core p) s fun s' =>
      CoresBut core s s' ∧ (∀ d j, s'.stream d j = s.stream d j) ∧
      (s'.core core).outPort p = { o with outs := rest, dropped := o.dropped + 1, stepNo := o.stepNo + 1 }) ∧
    (∀ f : Fmt, t.length ≤ r.maxLen → skip = false → fmtOf r.format = some f →
      let h1 (scale : F32) : THdr := ⟨t.length, scale, r.format, t.flags, t.c, t.w, t.h, t.sample, o.use.toNat⟩
      let share := stripeMap s c r (h1 F32.one)
      let e := emitUse f (rec'.mode = 5) (rec'.scales.getD p ⟨F32.one, false, false⟩)
        (srDraw (jobSeed x) (BitVec.ofNat 32 (x.rank.toNat * 65536 + rec'.lcore * 4 + p)) x.step.jobStep)
        (share.getD fun _ => 0) o (s.epCtr core (4 + p)) t
      let h := h1 e.scale
      let bad := t.hpoison && decide (t.length = 0)
      let n := if bad then (if share.isSome then r.consumers.length else 1) else 0
      (share.isSome = true → h.shaped = false → Answers (.tensorHeaderEmit core p) s fun s' =>
        CoresBut core s s' ∧ (s'.core core).stage.st = .stopped) ∧
      (share = none → ∀ j, j < r.consumers.length →
        (r.fanout = 1 ∨ j = (if r.fanout = 2 then (s.stream c i).turn else 0)) →
        Answers (.tensorHeaderEmit core p) s fun s' =>
          let k := if r.fanout = 1 then 0 else j
          CoresMoved core s s' ∧ ((s'.core core).outPort p).outs = rest ∧ ((s'.core core).outPort p).use = o.use + 1 ∧
          s'.epCtr core (4 + p) = (if bad then e.ctr.addPoison n else e.ctr) ∧
          ((s'.stream c i).buf j).words ++ tgetD (s'.stream c i).wait k [] = ((s.stream c i).buf j).words ++
            (tgetD (s.stream c i).wait k [] ++ hdrSWord h bad :: packTensor f e.elems)) ∧
      (∀ g, share = some g → h.shaped = true → ∀ j, j < r.consumers.length →
        Answers (.tensorHeaderEmit core p) s fun s' =>
          let mine := (e.elems.zipIdx.filter fun q => g q.2 = j).map (·.1)
          CoresMoved core s s' ∧ ((s'.core core).outPort p).outs = rest ∧ ((s'.core core).outPort p).use = o.use + 1 ∧
          s'.epCtr core (4 + p) = (if bad then e.ctr.addPoison n else e.ctr) ∧
          ((s'.stream c i).buf j).words ++ tgetD (s'.stream c i).wait j [] = ((s.stream c i).buf j).words ++
            (tgetD (s.stream c i).wait j [] ++
              hdrSWord (shareHeader (stripedWindow s c r).isSome h mine.length) bad :: packTensor f mine))))

/-- PASS_START, STAGING_FILL, STAGING_FILL_DONE. A folded stage switches pass once the staging area of its run is
full, in 2 core cycles from one pass to the next, and waits until then; the fill of the other area begins while a run
is under way; a fill ends with its last word, and that of run 0 makes a loading stage READY (R196 to R199, R250). -/
def Obligations.PassesAndStaging : Prop :=
  (∀ (s : State) (core : Nat) (r : StageRec),
    core < nCores → (s.core core).stage.info = some r → (s.core core).stage.st = .running →
    (s.core core).stage.seq.active = false →
    (stagingFull (s.core core) r = false → exec (.passStart core) s = .next s) ∧
    (stagingFull (s.core core) r = true → r.npassM1 ≠ 0 →
      (r.isWindow = true ∧ (∃ t, (s.core core).win.cur = some t ∧ t.issued = false) ∨
        r.isMatmul = true ∧ r.wsrc = false ∧ ((s.core core).inPort 0).hdr.isSome = true ∧
          (s.core core).stage.seq.pass ≠ 0) →
      exec (.passStart core) s = .next (s.modCore core fun c => { c with stage := { c.stage with
        area := c.stage.seq.run % 2 = 1, passNow := c.stage.seq.pass
        switchLeft := if (s.core core).stage.seq.run = 0 then 0 else 2
        seq := { c.stage.seq with active := true, block := 0, t := 0, p := 0, tile := 0 } } }))) ∧
  (∀ (s : State) (core : Nat) (r : StageRec),
    core < nCores → (s.core core).stage.info = some r → (s.core core).stage.st = .running →
    (s.core core).stage.seq.active = true → r.npassM1 ≠ 0 → (s.core core).stage.passes ≠ [] →
    let k := (s.core core).stage.seq.run + 1
    (∀ g, tget (s.core core).stage.staging (k % 2) = some g → g.run = k ∨ g.full = false →
      exec (.stagingFill core) s = .next s) ∧
    ((∀ g, tget (s.core core).stage.staging (k % 2) = some g → g.full = true ∧ g.run ≠ k) →
      exec (.stagingFill core) s = .next (s.modCore core fun c => { c with stage := { c.stage with
        staging := tset c.stage.staging (k % 2) ⟨k, k % r.npass, [], F32.one, 0, false⟩ } }))) ∧
  (∀ (s : State) (core a : Nat) (g : Staging) (d : PfDesc),
    core < nCores →
    ((s.core core).stage.staging.find? fun g => !g.2.full &&
      g.2.arrived = passWords (s.core core) g.2.pass) = some (a, g) →
    passDesc (s.core core).stage g.pass = some d →
    Answers (.stagingFillDone core) s fun s' =>
      CoresBut core s s' ∧ tget (s'.core core).stage.staging a = some { g with full := true, scaleB := d.scaleb } ∧
      (∀ b, b ≠ a → tget (s'.core core).stage.staging b = tget (s.core core).stage.staging b) ∧
      (s'.core core).arr = (s.core core).arr ∧ (s'.core core).stage.seq = (s.core core).stage.seq ∧
      ((s.core core).stage.st = .config → g.run = 0 → (s'.core core).stage.st = .ready) ∧
      (g.run ≠ 0 → (s'.core core).stage.st = (s.core core).stage.st))

/-- STALL_CYCLE, WEDGED, WEDGED_REPORT, ESCAPE_CONFIRM. Each cycle of a RUNNING stage counts once, as active or under
the cause of the highest priority that holds; after 65,536 cycles of OUTPUT_FULL the stage is WEDGED and reports its
full buffer; the shelf of the lowest core of a cycle of full buffers confirms with the buffer reported to it first,
and then cancels, moves that buffer into its escape region, or stops the stages of the cycle where it has no room
(R206, R207, R210 to R214). -/
def Obligations.StallsWedgesAndEscapes : Prop :=
  (∀ (s : State) (core : Nat) (advanced : Bool) (timed : BitVec 12),
    core < nCores →
    let a := (s.core core).stage
    let cause := if advanced && a.switchLeft = 0 then none else stallOf s core timed
    (∀ k, stallOf s core timed = some k → k ∈ stallPriority ∧ (k ∈ stallCauses s core ∨
      (timed &&& timedCauses).getLsbD k = true)) ∧
    Answers (.stallCycle core advanced timed) s fun s' =>
      let b := (s'.core core).stage
      CoresBut core s s' ∧ b.st = a.st ∧ b.wedged = a.wedged ∧ b.seq = a.seq ∧
      (s'.core core).arr = { (s.core core).arr with drainWait := (s.core core).arr.drainWait - 1 } ∧
      (a.st ≠ .running → b = a) ∧
      (a.st = .running → b.switchLeft = a.switchLeft - 1 ∧
        (cause = none → b.activeCycles = a.activeCycles + 1 ∧ b.stalls = a.stalls ∧ b.outFullRun = 0) ∧
        (∀ k, cause = some k → b.activeCycles = a.activeCycles ∧ tgetD b.stalls k 0 = tgetD a.stalls k 0 + 1 ∧
          (∀ j, j ≠ k → tgetD b.stalls j 0 = tgetD a.stalls j 0) ∧
          b.outFullRun = if k = 1 then a.outFullRun + 1 else 0))) ∧
  (∀ (s : State) (core i k : Nat),
    core < nCores → (s.core core).stage.st = .running → (s.core core).stage.wedged = false →
    ((s.core core).stage.outFullRun < 65536 → exec (.wedged core) s = .next s) ∧
    (65536 ≤ (s.core core).stage.outFullRun → fullOutput s core = some (i, k) →
      Answers (.wedged core) s fun s' =>
        let n := (s.core core).stage.wedgedReports + 1
        CoresBut core s s' ∧ (s'.core core).stage.wedged = true ∧ (s'.core core).stage.wedgedReports = n ∧
        (s'.shelf (core / 12)).reports =
          ((s.shelf (core / 12)).reports.filter fun v => v.core ≠ core) ++ [⟨core, i, k, n⟩] ∧
        ∀ j, j ≠ core / 12 → s'.shelf j = s.shelf j)) ∧
  (∀ (s : State) (sh : Nat),
    sh < nShelves →
    ((s.shelf sh).confirming.isSome = true → exec (.wedgedReport sh) s = .next s) ∧
    ((∀ w ∈ (s.shelf sh).reports, cycleFor s sh w = none) → exec (.wedgedReport sh) s = .next s) ∧
    (∀ (cyc : List Wedge) (w : Wedge), (s.shelf sh).confirming = none →
      (s.shelf sh).reports.findSome? (cycleFor s sh) = some cyc →
      (s.shelf sh).reports.find? (fun w => cyc.contains w) = some w →
      lowestCore cyc / 12 = sh ∧
      exec (.wedgedReport sh) s = .next (s.modShelf sh fun x => { x with confirming := some (cyc, w) }))) ∧
  (∀ (s : State) (sh : Nat) (cyc : List Wedge) (w : Wedge) (r : StreamRec),
    sh < nShelves → (s.shelf sh).confirming = some (cyc, w) →
    let c := (s.core w.core).stage.ctx
    streamRec (s.ctx c) w.stream = some r →
    let used := escapeUsed s sh + bufUsed r (s.stream c w.stream) w.consumer
    ((∃ v ∈ cyc, stillWedged s v = false) →
      exec (.escapeConfirm sh) s = .next (s.modShelf sh fun x => { x with
        confirming := none, cancels := x.cancels + 1 })) ∧
    ((∀ v ∈ cyc, stillWedged s v = true) → (s.shelf sh).escapeSize.toNat * 8 < used →
      Answers (.escapeConfirm sh) s fun s' => (s'.shelf sh).confirming = none ∧
        ∀ v ∈ cyc, v.core < nCores → (s'.core v.core).stage.st = .stopped) ∧
    ((∀ v ∈ cyc, stillWedged s v = true) → used ≤ (s.shelf sh).escapeSize.toNat * 8 →
      Answers (.escapeConfirm sh) s fun s' =>
        (s'.shelf sh).escapes = (s.shelf sh).escapes + 1 ∧ (s'.shelf sh).confirming = none ∧
        (∀ j, (r.fanout = 1 ∧ j < r.consumers.length) ∨ (r.fanout ≠ 1 ∧ j = w.consumer) →
          let b := (s.stream c w.stream).buf j
          ((s'.stream c w.stream).buf j).esc = b.esc ++ b.words.map fun x => (sh, x)) ∧
        ((cyc.map (·.core)).Nodup → ∀ v ∈ cyc,
          tgetD (s'.core v.core).stage.stalls 11 0 = tgetD (s.core v.core).stage.stalls 11 0 + 1)))

/-! ### GATHER, ROUTE and VECTOR (05) -/

/-- GATHER_INDEX, ROUTE_TENSOR, VECTOR_ELEMENT. An index gives its table row, zero codes and a count beyond the table,
and NaN codes with poison where it is poisoned; it waits while the memory of its row stands still and stops the stage
where the context may not read it. A forwarding stage passes a whole tensor on with its elements and shape. An element
or row gives the values of the stage's function, poison in making poison out; with the first the output tensor begins,
and with the last the inputs are released (R178, R179, R186). -/
def Obligations.GatherRouteAndVector : Prop :=
  (∀ (s : State) (core : Nat) (r : StageRec) (h : THdr) (e : Elem) (i : Nat) (st : StreamRec) (f : Fmt),
    core < nCores → (s.core core).stage.info = some r → ((s.core core).inPort 0).hdr = some h →
    boundStream s core 4 = some (i, st) → fmtOf st.format = some f → r.opclass = 7 → (s.core core).stage.st = .running →
    outputFull s core = false → h.length ≠ 0 → ((s.core core).inPort 0).elems[(s.core core).vecPos]? = some e →
    let n := gatherC r.param
    let v := (s.core core).vecPos
    let a := relocated r core (tableAddr r.param) + e.code.toNat * tableRowBytes f n
    let s1 := if v = 0 then beginOut s core 0 ⟨h.length * n, n, h.length, 1, h.sample, flagShaped,
      ((s.core core).inPort 0).hpoison, []⟩ else s
    let emits (vs : List OVal) (beyond : Nat) : State :=
      let s2 := (putVals s1 core 0 (nextOutSeq (s1.core core) 0 - 1) (n * v) vs).modCore core fun c => { c with
        vecPos := if v + 1 = h.length then 0 else v + 1
        stage := { c.stage with gatherRange := c.stage.gatherRange + BitVec.ofNat 32 beyond } }
      if v + 1 = h.length then releaseIn s2 core 0 else s2
    (e.poison = true → exec (.gatherIndex core) s =
      .next (emits ((List.range n).map fun _ => ⟨BitVec.ofNat 256 (nanCode f), true, false, true⟩) 0)) ∧
    (e.poison = false → e.code.toNat < gatherRows r.param →
      (n ≠ 0 → stageReads s core a (tableRowBytes f n) = false →
        exec (.gatherIndex core) s = .next (addressFault s core a)) ∧
      (stageReads s core a (tableRowBytes f n) = true → rangeStalls s a (tableRowBytes f n) = true →
        exec (.gatherIndex core) s = .next s) ∧
      (stageReads s core a (tableRowBytes f n) = true → rangeStalls s a (tableRowBytes f n) = false →
        exec (.gatherIndex core) s = .next (emits
          ((List.range n).map fun k => let x := tableElem s.mem.mem f a k; ⟨x.code, true, false, x.poison⟩) 0))) ∧
    (e.poison = false → gatherRows r.param ≤ e.code.toNat → exec (.gatherIndex core) s =
      .next (emits ((List.range n).map fun _ => ⟨BitVec.ofNat 256 (zeroCode f), true, false, false⟩) 1))) ∧
  (∀ (s : State) (core : Nat) (r : StageRec) (h : THdr),
    core < nCores → (s.core core).stage.info = some r → ((s.core core).inPort 0).hdr = some h → r.opclass = 8 →
    routeMode r.param = 0 → (s.core core).stage.st = .running → outputFull s core = false →
    (((s.core core).inPort 0).done = false → exec (.routeTensor core) s = .next s) ∧
    (((s.core core).inPort 0).done = true → (boundStream s core 4).isSome = true →
      Answers (.routeTensor core) s fun s' =>
        CoresMoved core s s' ∧ (s'.core core).inPort 0 = InPort.empty ∧ (s'.core core).arr = (s.core core).arr ∧
        ∃ t, ((s'.core core).outPort 0).outs = ((s.core core).outPort 0).outs ++ [t] ∧
          t.length = ((s.core core).inPort 0).elems.length ∧ t.sample = h.sample ∧
          (h.shaped = true → t.c = h.c ∧ t.w = h.w ∧ t.h = h.h) ∧ ∀ k, tget t.vals k =
            (((s.core core).inPort 0).elems[k]?).map fun e => ⟨e.code, h.format = 8 ∨ h.format = 9, false, e.poison⟩)) ∧
  (∀ (s : State) (core : Nat) (r : StageRec) (h : THdr),
    core < nCores → (s.core core).stage.info = some r → ((s.core core).inPort 0).hdr = some h → r.opclass = 4 →
    (s.core core).stage.st = .running → outputFull s core = false → h.length ≠ 0 →
    let c := s.core core
    let f := vecFunc r.param
    let n := if 4 ≤ f ∧ f ≤ 6 then max h.c 1 else 1
    let lo := c.vecPos * n
    let ins := if f ≤ 1 then [0, 1] else [0]
    let es := ((c.inPort 0).elems.drop lo).take n
    let bad := es.any (·.poison)
    let base := relocated r core (tableAddr r.param)
    let g := vecTable s.mem.mem base n
    let b := vecTable s.mem.mem (base + 4 * n) n
    let eps := vecEps r.param
    let s1 := if c.vecPos = 0 then beginOut s core 0 (likeTensor h (ins.any fun q => (c.inPort q).hpoison)) else s
    let emits (outs : List OVal) (drop : Nat) : State :=
      let s2 := (putVals s1 core 0 (nextOutSeq (s1.core core) 0 - 1) lo outs).modCore core fun c => { c with
        vecPos := if h.length ≤ lo + n then 0 else c.vecPos + 1, dropNext := c.dropNext + drop }
      if h.length ≤ lo + n then ins.foldl (fun s q => releaseIn s core q) s2 else s2
    ((c.inPort 0).elems.length < lo + n → (f ≤ 1 → ((c.inPort 1).hdr).isSome = true) →
      exec (.vectorElement core) s = .next s) ∧
    (lo + n ≤ (c.inPort 0).elems.length →
      (f ≤ 1 → ((c.inPort 1).hdr).isSome = true → lo + n ≤ (c.inPort 1).elems.length → exec (.vectorElement core) s =
        .next (emits ((es.zip (((c.inPort 1).elems.drop lo).take n)).map fun q =>
          vecOut (q.1.poison || q.2.poison) (vecElem f (eVal q.1) (eVal q.2))) 0)) ∧
      (f = 2 ∨ f = 3 → exec (.vectorElement core) s =
        .next (emits (es.map fun e => vecOut e.poison (vecElem f (eVal e) F32.posZero)) 0)) ∧
      (f = 4 → exec (.vectorElement core) s = .next (emits
        ((vecRow 4 eps (g.map eVal) (b.map eVal) (es.map eVal)).map fun x => vecOut bad x) 0)) ∧
      (f = 5 → stageReads s core base (4 * n) = false →
        exec (.vectorElement core) s = .next (addressFault s core base)) ∧
      (f = 6 → stageReads s core base (8 * n) = false →
        exec (.vectorElement core) s = .next (addressFault s core base)) ∧
      (f = 5 → stageReads s core base (4 * n) = true → rangeStalls s base (4 * n) = false →
        exec (.vectorElement core) s = .next (emits
          (((vecRow 5 eps (g.map eVal) (b.map eVal) (es.map eVal)).zip (g.zip b)).map fun q =>
            vecOut (bad || q.2.1.poison) q.1) 0)) ∧
      (f = 6 → stageReads s core base (8 * n) = true → rangeStalls s base (8 * n) = false →
        exec (.vectorElement core) s = .next (emits
          (((vecRow 6 eps (g.map eVal) (b.map eVal) (es.map eVal)).zip (g.zip b)).map fun q =>
            vecOut (bad || q.2.1.poison || q.2.2.poison) q.1) 0)) ∧
      (f = 7 → exec (.vectorElement core) s = .next (emits (es.map fun e => vecOut e.poison
        (if (dropDraw (jobSeed (s.ctx c.stage.ctx)) (BitVec.ofNat 32 ((s.ctx c.stage.ctx).rank.toNat * 65536 +
            dropId r.param)) (s.ctx c.stage.ctx).step.jobStep c.dropNext).toNat ≥ dropThr r.param
          then F32.mul (eVal e) (dropGain r.param) else F32.posZero)) 1))))

/-! ### The memory tiers (06) -/

/-- MEM_ACCESS on an owned word. A write stores the whole word and its poison and no other byte of memory changes; one
to HBM counts poison stored, one to CXL stays in flight. A read changes no byte, counts a corrected error where the
tier counts it, and stores the poison code for an uncorrected one. A tier that stands still lets nothing move, and an
access the context may not make touches no memory, counts and stops the stage. A LOAD whose context has lost a core
ends with the command (R489; R217, R218, R227, R228, R235, R236, R240). -/
def Obligations.AccessesMoveWholeWords : Prop :=
  ∀ (s : State) (who : Engine) (addr : Nat), s.mem.mem.wf = true →
    let w := addr / 128
    (∀ d p e, Accesses s who addr d → tierStalls s addr = true →
      exec (.memAccess who addr d p e) s = .next (cancelLoads s)) ∧
    (∀ v poison e, Accesses s who addr (some v) → tierStalls s addr = false →
      Cancels (.memAccess who addr (some v) poison e) s fun t =>
        (∀ i, i < 128 → t.mem.mem.read (128 * w + i) = BitVec.ofNat 8 (v.toNat / 2 ^ (8 * i))) ∧
        (∀ a, a < 128 * w ∨ 128 * w + 128 ≤ a → t.mem.mem.read a = s.mem.mem.read a) ∧
        t.mem.mem.poisoned w = poison ∧ (∀ u, u ≠ w → t.mem.mem.poisoned u = s.mem.mem.poisoned u) ∧
        t.cores = s.cores ∧ t.mem.granules = s.mem.granules ∧
        (tierOf (128 * w) = .hbm → (t.hbm (hbmStack s (128 * w))).poisonStored =
          (s.hbm (hbmStack s (128 * w))).poisonStored + (if poison then 1 else 0)) ∧
        (tierOf (128 * w) = .cxl → (t.cxl (cxlPlace (128 * w)).1).flight =
          (s.cxl (cxlPlace (128 * w)).1).flight ++ [⟨w, s.mem.mem.word w, s.mem.mem.poisoned w⟩])) ∧
    (∀ p e, Accesses s who addr none → tierStalls s addr = false →
      Cancels (.memAccess who addr none p e) s fun t =>
        let k := hbmStack s (128 * w)
        let x := (cxlPlace (128 * w)).1
        (∀ a, t.mem.mem.read a = s.mem.mem.read a) ∧ (e ≠ .uncorrected → t.mem.mem = s.mem.mem) ∧
        (e = .uncorrected → t.mem.mem.poisoned w = true) ∧
        (tierOf (128 * w) = .hbm →
          (t.hbm k).eccCorrected = (s.hbm k).eccCorrected + (if e = .corrected then 1 else 0) ∧
          (t.hbm k).eccUncorrected = (s.hbm k).eccUncorrected + (if e = .uncorrected then 1 else 0)) ∧
        (tierOf (128 * w) = .cxl → (t.cxl x).corrected = (s.cxl x).corrected + (if e = .corrected then 1 else 0) ∧
          (t.cxl x).poisonIn = (s.cxl x).poisonIn +
            (if e ≠ .linkLost ∧ (s.mem.mem.poisoned w = true ∨ e = .uncorrected) then 1 else 0)) ∧
        (∀ n, tierOf (128 * w) = .shelf n →
          (t.shelf n).sstoreCorrected = (s.shelf n).sstoreCorrected + (if e = .corrected then 1 else 0) ∧
          (t.shelf n).sstoreUncorrected = (s.shelf n).sstoreUncorrected + (if e = .uncorrected then 1 else 0)) ∧
        (e = .clean → tierOf (128 * w) ≠ .cxl → keyGone s w = false → t = s)) ∧
    (∀ core d p e, who = .stage core ∨ who = .prefetch core → StageLive s core →
      mayReach s (s.core core).stage.ctx (128 * w) 128 = false →
      (who = .stage core → d = none → addr < carrelWindow core ∨ carrelWindow core + 0x400000 ≤ addr) →
      Cancels (.memAccess who addr d p e) s fun t =>
        let c := (s.core core).stage.ctx
        t.mem.mem = s.mem.mem ∧ t.mem.addressFaults = s.mem.addressFaults + 1 ∧
        (t.core core).stage.st = .stopped ∧ (t.ctx c).faults = (s.ctx c).faults + 1 ∧
        ((s.ctx c).fault = none → (t.ctx c).fault = some ⟨.addressFault, some core, .memory, addr⟩))

/-- PATROL_SCRUB, GRANULE_FILL_DONE, CXL_WRITE_DURABLE, CXL_LINK_FAIL, CXL_RETRAIN_DONE. The patrol of a ready stack
moves to its next word and counts what it meets; a filled granule reads zero and is SCRUBBED; a durable write leaves
the port's writes in flight; a failed link loses and counts them and retrains once; a retrain ends in traffic or in
FAILED with every granule of the region LOST (R225, R232, R236, R239, R240). -/
def Obligations.PatrolFillAndCxlPorts : Prop :=
  (∀ (s : State) (k : Nat) (e : Ecc), k < 8 → (s.hbm k).st = .ready →
    Answers (.patrolScrub k e) s fun t =>
      let h := s.hbm k
      (t.hbm k).patrolNext = (if h.patrolNext + 1 = stackWords then 0 else h.patrolNext + 1) ∧
      (t.hbm k).patrolPasses = h.patrolPasses + (if h.patrolNext + 1 = stackWords then 1 else 0) ∧
      (t.hbm k).eccCorrected = h.eccCorrected + (if e = .corrected then 1 else 0) ∧
      (t.hbm k).patrolUncorrected = h.patrolUncorrected + (if e = .uncorrected then 1 else 0) ∧
      (t.hbm k).eccUncorrected = h.eccUncorrected ∧ (∀ j, j ≠ k → t.hbm j = s.hbm j) ∧
      t.mem.mem.cells = s.mem.mem.cells ∧ (e ≠ .uncorrected → t.mem.mem.poison = s.mem.mem.poison) ∧
      (e = .uncorrected → t.mem.mem.poisoned (stackAddr k h.patrolNext s.mem.interleave / 128) = true)) ∧
  (∀ (s : State) (n : Nat), n < nGranules → s.mem.mem.wf = true → (s.granule n).filling = true →
    (s.granule n).lost = false → Answers (.granuleFillDone n) s fun t =>
      (∀ a, granuleBase n ≤ a → a < granuleBase n + 2 ^ 26 → t.mem.mem.read a = 0) ∧
      (∀ a, a < granuleBase n ∨ granuleBase n + 2 ^ 26 ≤ a → t.mem.mem.read a = s.mem.mem.read a) ∧
      t.granule n = { s.granule n with filling := false, scrubbed := true } ∧
      (∀ m, m ≠ n → t.granule m = s.granule m)) ∧
  (∀ (s : State) (p : Nat), p < 4 →
    exec (.cxlWriteDurable p) s = .next (s.modCxl p fun x => { x with flight := x.flight.drop 1 })) ∧
  (∀ (s : State) (p : Nat), p < 4 → (s.cxl p).st = .up → Answers (.cxlLinkFail p) s fun t =>
    (t.cxl p).st = .training ∧ (t.cxl p).retrains = (s.cxl p).retrains + 1 ∧ (t.cxl p).flight = [] ∧
    (t.cxl p).writesLost = (s.cxl p).writesLost + BitVec.ofNat 32 (s.cxl p).flight.length ∧
    (∀ q, q ≠ p → t.cxl q = s.cxl q) ∧ t.mem.mem = undoWrites s.mem.mem (s.cxl p).flight) ∧
  (∀ (s : State) (p : Nat), p < 4 → (s.cxl p).st ≠ .up → exec (.cxlLinkFail p) s = .next s) ∧
  (∀ (s : State) (p : Nat), p < 4 → (s.cxl p).st = .training →
    Answers (.cxlRetrainDone p true) s (fun t =>
      (t.cxl p).st = .up ∧ (∀ q, q ≠ p → t.cxl q = s.cxl q) ∧ t.mem.granules = s.mem.granules) ∧
    Answers (.cxlRetrainDone p false) s fun t =>
      (t.cxl p).st = .failed ∧ (∀ i, i < 4096 → (t.granule (4608 + p / 2 * 4096 + i)).lost = true) ∧
      (∀ n, n ∉ portGranules p → t.granule n = s.granule n))

/-- PREFETCH_TURN. The oldest request of a shelf engine that can move, moves one word: a staging fill gets the next
word of its tiles, its poison with it, and the engine counts 128 bytes read; a memory endpoint moves the next word of
its slot. A request has 16 words, and ends with them, its fill or its slot; a stopped domain's engine stands still
(R244, R246, R250, R251, R253; one word a turn is log entry 17). -/
def Obligations.PrefetchTurnMovesOneWord : Prop :=
  ∀ (s : State) (sh : Nat), sh < nShelves →
    (∀ e, domainOn s (shelfDomain sh) = false → exec (.prefetchTurn sh e) s = .next (returnCredits s)) ∧
    (∀ s1, s1 = takeRequest (s.modShelf sh fun x => { x with pfReqs := x.pfReqs.filter (reqStands s sh) }) sh →
      domainOn s (shelfDomain sh) = true →
      (s1.shelf sh).pfReqs.length ≤ max 64 (s.shelf sh).pfReqs.length ∧
      (∀ e, (s1.shelf sh).pfReqs.find? (reqMoves s1 sh) = none →
        exec (.prefetchTurn sh e) s = .next (returnCredits s1)) ∧
      (∀ core left area g, (s1.shelf sh).pfReqs.find? (reqMoves s1 sh) = some ⟨true, core, left⟩ →
        fillOf s core = some (area, g) → mayReach s (s.core core).stage.ctx (fillAddr (s.core core) g) 128 = true →
        keyGone s (fillAddr (s.core core) g / 128) = false →
        let a := fillAddr (s.core core) g
        let tb := tileBytes (weightFmt (s.core core).arr.mode) / 128
        let u := g.arrived / tb
        Answers (.prefetchTurn sh .clean) s fun t =>
          CoresBut core s t ∧ (t.shelf sh).pfRead = (s.shelf sh).pfRead + 128 ∧
          (t.core core).arr = (s.core core).arr ∧ t.mem.mem = s.mem.mem ∧
          (∀ r ∈ (t.shelf sh).pfReqs, r.fill = true → r.id = core → 1 < left ∧ r.left = left - 1) ∧
          ∃ g', tget (t.core core).stage.staging area = some g' ∧ g'.arrived = g.arrived + 1 ∧ g'.full = g.full ∧
            (tgetD g'.tiles u (0, 0)).1 = (tgetD g.tiles u (0, 0)).1 +
              (s.mem.mem.word (a / 128)).toNat * 2 ^ (1024 * (g.arrived % tb)) ∧
            (tgetD g'.tiles u (0, 0)).2 = (tgetD g.tiles u (0, 0)).2 +
              (if s.mem.mem.poisoned (a / 128) then 2 ^ (g.arrived % tb) else 0) ∧
            (∀ v, v ≠ u → tget g'.tiles v = tget g.tiles v)) ∧
      (∀ d left p, (s1.shelf sh).pfReqs.find? (reqMoves s1 sh) = some ⟨false, d, left⟩ →
        tget (s.shelf sh).pf d = some p →
        (∀ e, Answers (.prefetchTurn sh e) s fun t =>
          ∀ r ∈ (t.shelf sh).pfReqs, r.fill = false → r.id = d → 1 < left ∧ r.left = left - 1) ∧
        (∀ h, p.desc.op = 1 → (streamRec (s.ctx p.ctx) p.stream).isSome = true → p.hdr = some h → p.word ≠ 0 →
          p.word + 1 ≠ storedWords h →
          let a := slotAddr p.desc p.slot + 128 * p.word
          mayReach s p.ctx a 128 = true → keyGone s (a / 128) = false → Answers (.prefetchTurn sh .clean) s fun t =>
            t.mem.mem = s.mem.mem ∧ (t.shelf sh).pfRead = (s.shelf sh).pfRead + 128 ∧
            ∃ q, tget (t.shelf sh).pf d = some q ∧ q.word = p.word + 1 ∧ q.slot = p.slot ∧ q.hdr = some h ∧
              q.bad = (p.bad || s.mem.mem.poisoned (a / 128))) ∧
        (∀ h k r w, p.desc.op ≠ 1 → writeHead s1 sh d p = some (k, r, w) → w.header = false → w.last = false →
          p.hdr = some h →
          let a := slotAddr p.desc p.slot + 128 * p.word
          mayReach s p.ctx a 128 = true → ∀ e, Answers (.prefetchTurn sh e) s fun t =>
            t.mem.mem = s.mem.mem.setWord (a / 128) w.bits w.poison ∧
            (t.shelf sh).pfWritten = (s.shelf sh).pfWritten + 128 ∧
            tget (t.shelf sh).pf d = some { p with word := p.word + 1, bad := p.bad || w.poison })))

/-! ### Intake (07) -/

/-- SAMPLE_RECORD, DECODE_START, DECODE_DONE, CREDIT_TIMER. The whole front record of a session leaves it and reaches
the queue that it names, at its entry's complex: for a queue that is not open it is dropped and counted; a reserve
record joins the pool; a main record out of batch order stops the queue; one in order takes the next position, with
its cost held where it passes its checks and counted corrupt where it does not. A waiting sample takes its working
memory and decodes once there is room and a decoder; its end frees its cost, or finds it corrupt; a changed FREE
leaves in a credit record with the next SEQ (R263 to R266, R268 to R271, R286 to R288, R291; 09 R380, R381). -/
def Obligations.SamplesReachTheirQueue : Prop :=
  (∀ (s : State) (c e : Nat) (poisoned : Bool) (info : StreamInfo), c < nCtx → e < 256 →
    (∀ v, tget (s.ctx c).sessions e = none ∨ tget (s.ctx c).sessions e = some v ∧ v.front = none →
      Answers (.sampleRecord c e poisoned info) s fun t => t.media = s.media ∧
        (t.ctx c).sessions = (s.ctx c).sessions) ∧
    (∀ v hdr payload, tget (s.ctx c).sessions e = some v → v.front = some (hdr, payload) →
      let x := entryComplex (s.ctx c) e
      let smp : Sample := ⟨hdr, payload, poisoned, info, none⟩
      let n := smp.field 320 8
      let q := s.queue x n
      Answers (.sampleRecord c e poisoned info) s fun t =>
        (t.ctx c).sessions = tset (s.ctx c).sessions e v.drop ∧
        (q.st ≠ .opened → t.media = (s.modComplex x fun c => { c with closedDrops := c.closedDrops + 1 }).media) ∧
        (q.st = .opened → smp.reserve = true →
          (t.queue x n).accepted = q.accepted + 1 ∧ (t.queue x n).pool = q.pool ++ [q.room smp] ∧
          (t.queue x n).positions = q.positions ∧ (t.queue x n).st = .opened) ∧
        (q.st = .opened → smp.reserve = false →
          (qBatchSize q.desc ≤ smp.pos ∨ ∃ e, q.expect = some e ∧ e ≠ (smp.batch, smp.pos)) →
          (t.queue x n).st = .stopped ∧ (t.queue x n).positions = q.positions ∧ (t.queue x n).accepted = q.accepted) ∧
        (q.st = .opened → smp.reserve = false → smp.pos < qBatchSize q.desc →
          (q.expect = none ∨ q.expect = some (smp.batch, smp.pos)) →
          let v := t.queue x n
          v.accepted = q.accepted + 1 ∧ v.pool = q.pool ∧
          v.expect = some (if smp.pos + 1 < qBatchSize q.desc then (smp.batch, smp.pos + 1)
            else ((smp.batch + 1) % 2 ^ 32, 0)) ∧
          ∃ p, v.positions = q.positions ++ [p] ∧ p.batch = smp.batch ∧ p.pos = smp.pos ∧ p.substituted = false ∧
            ((sampleChecks q.desc smp).1 = 0 → predecoded smp.codec = false → p.phase = .waiting ∧
              p.cost = sampleCost (qModality q.desc) smp ∧ v.corrupt = q.corrupt) ∧
            ((sampleChecks q.desc smp).1 ≠ 0 → p.phase = .corrupt ∧ p.cost = 0 ∧ v.corrupt = q.corrupt + 1 ∧
              v.lastCause = BitVec.ofNat 8 (sampleChecks q.desc smp).1)))) ∧
  (∀ (s : State) (x n i : Nat) (y : Decoded) (waited : BitVec 48) (p : Position), x < 2 → n < 256 →
    let q := s.queue x n
    q.st = .opened → q.positions[i]? = some p → p.phase = .waiting →
    predecoded p.cand.codec = false →
    ((q.room p.cand).heldMib = none ∨ decoderFree s x (qModality q.desc) (q.room p.cand) = false →
      Answers (.decodeStart x n i y waited) s fun t => t.media = s.media) ∧
    ((q.room p.cand).heldMib.isSome = true → decoderFree s x (qModality q.desc) (q.room p.cand) = true →
      Answers (.decodeStart x n i y waited) s fun t =>
        (t.queue x n).roomWait = q.roomWait + (if p.cand.heldMib.isNone then waited else 0) ∧
        (t.queue x n).positions = q.positions.set i { p with
          phase := .decoding, cand := q.room p.cand
          yields := if p.cand.codec ≤ 6 then codecYield p.cand y else ownYield p.cand })) ∧
  (∀ (s : State) (x n i : Nat) (p : Position), x < 2 → n < 256 →
    let q := s.queue x n
    let d := q.desc
    let y := p.yields
    let heard : Nat × Nat × List Nat :=
      if qModality d ≤ 2 then (0, 0, []) else if p.cand.codec = 0x13 then
        (0, 0, (List.range (p.cand.bytes / 4)).map fun k => p.cand.data.bits (32 * k) 32)
      else (1, (textTokens d (queueMerges s x q) p.cand.data).2, (textTokens d (queueMerges s x q) p.cand.data).1)
    let why : Nat := match qModality d with
      | 0 => if y.frames = [] ∨ y.cause ≠ 0 ∧ p.emitted = 0 then orDefault y.cause causeTruncated else 0
      | 1 => if y.cause ≠ 0 ∨ y.frames = [] then orDefault y.cause causeTruncated else 0
      | 2 => if y.cause ≠ 0 then y.cause
        else if qChannelMode d = 1 ∧ p.cand.declChannels ≤ qChannelSel d then causeShape else 0
      | _ => if qUtf8Reject d = true ∧ heard.2.1 ≠ 0 then causeUtf8 else 0
    let p' : Position := { p with
      phase := .decoded, cost := 0
      tokens := if qModality d ≤ 2 then p.tokens else (placeTokens d heard.2.2).1 }
    q.st = .opened → q.positions[i]? = some p → p.phase = .decoding →
    (why = 0 → (i = 0 → headFinished q p' = false) → Answers (.decodeDone x n i) s fun t =>
      (t.queue x n).positions = q.positions.set i p' ∧ (t.queue x n).corrupt = q.corrupt ∧
      (q.freed + p.cost < qQuantum d → (t.queue x n).freed = q.freed + p.cost ∧ (t.queue x n).seq = q.seq) ∧
      (qQuantum d ≤ q.freed + p.cost → (t.queue x n).freed = 0 ∧ (t.queue x n).seq = q.seq + 1)) ∧
    (why ≠ 0 → Answers (.decodeDone x n i) s fun t =>
      (t.queue x n).corrupt = q.corrupt + 1 ∧ (t.queue x n).lastCause = BitVec.ofNat 8 why ∧
      ∃ p2, (t.queue x n).positions = q.positions.set i p2 ∧ p2.phase = .corrupt ∧ p2.cost = 0 ∧
        p2.skips = p.skips ++ [manifestRecord x n p why 1 0])) ∧
  (∀ (s : State) (x n : Nat), x < 2 → n < 256 →
    let q := s.queue x n
    (q.st = .opened → q.free ≠ q.lastFree → Answers (.creditTimer x n) s fun t =>
      (t.queue x n).seq = q.seq + 1 ∧ (t.queue x n).lastFree = q.free ∧
      (t.complex x).credits = (s.complex x).credits ++ [(qLoader q.desc, creditRecord x n q false)]) ∧
    (q.st ≠ .opened ∨ q.free = q.lastFree → Answers (.creditTimer x n) s fun t => t.media = s.media))

/-- INTAKE_TENSOR_EMIT, LATE_CORRUPT, ROI_SET_TAKE, SUBSTITUTION. The next tensor of the head sample leaves the main
output, and a whole frame before its history the region output with it, and is counted; a sample that has sent all is
consumed with its manifest record; a tensor beyond MAX_LEN stops the queue; without room it waits. An error after the
first tensor adds one poisoned tensor and counts LATE_CORRUPT; a region set owed by a finished sample is discarded,
one of another sample stops the queue, and one of the head is taken; the oldest reserve sample takes the corrupt
head's place, and an empty pool counts one wait (R269 to R271, R274 to R277, R289, R290, R292). -/
def Obligations.SamplesLeaveTheirQueue : Prop :=
  (∀ (s : State) (x n len : Nat) (p : Position) (rest : List Position), x < 2 → n < 256 →
    let q := s.queue x n
    let k := p.emitted
    let p' : Position := { p with emitted := k + 1, regions := if k < qLag q.desc then k + 1 else p.regions }
    let whole : Bool := qRoi q.desc && k < qLag q.desc
    q.st = .opened → q.positions = p :: rest →
    (queueRoom s x n 0 = false ∨ domainOn s (streamsDomain x) = false ∨ (p.phase ≠ .decoded ∧ p.phase ≠ .decoding) →
      Answers (.intakeTensorEmit x n) s fun t => t.media = s.media) ∧
    ((p.phase = .decoded ∨ qModality q.desc = 0 ∧ p.phase = .decoding) → domainOn s (streamsDomain x) = true →
      queueRoom s x n 0 = true → k < tensorCount q p → (qRoi q.desc = true → qLag q.desc ≤ k → k < p.regions) →
      (qModality q.desc = 3 ∧ len = p.tokens.length ∨ qModality q.desc ≠ 3 ∧ ∃ sh f,
        (sampleTensors s q p)[k]? = some sh ∧ fmtOf (qFormat q.desc) = some f ∧ len = sh.vals.length) →
      ((queueStream s x n 0 = none ∨ ∃ i r, queueStream s x n 0 = some (i, r) ∧ len ≤ r.maxLen) →
        (whole = true → ∃ fr f, (emittedFrames q.desc p.yields)[k]? = some fr ∧ fmtOf (qFormat q.desc) = some f ∧
          (queueStream s x n 1 = none ∨ ∃ i r, queueStream s x n 1 = some (i, r) ∧
            (shapePicture q.desc (jobSeed (s.ctx q.ctx)) p.cand.index true none fr).vals.length ≤ r.maxLen)) →
        (headFinished q p' = false → Answers (.intakeTensorEmit x n) s fun t =>
          (t.queue x n).emitted = q.emitted + 1 + (if whole then 1 else 0) ∧ (t.queue x n).positions = p' :: rest ∧
          (t.queue x n).st = .opened) ∧
        (headFinished q p' = true → p.pos + 1 ≠ qBatchSize q.desc → Answers (.intakeTensorEmit x n) s fun t =>
          (t.queue x n).emitted = q.emitted + 1 + (if whole then 1 else 0) ∧ (t.queue x n).positions = rest ∧
          (t.queue x n).st = .opened ∧
          (t.queue x n).manifest = q.manifest ++ p.skips ++ [manifestRecord x n p' 0 0 (k + 1)])) ∧
      (∀ i r, queueStream s x n 0 = some (i, r) → r.maxLen < len → whole = false →
        Answers (.intakeTensorEmit x n) s fun t =>
          (t.queue x n).st = .stopped ∧ (t.queue x n).positions = p' :: rest ∧ (t.queue x n).emitted = q.emitted))) ∧
  (∀ (s : State) (x n : Nat) (p : Position) (rest : List Position) (sh : Shaped) (f : Fmt), x < 2 → n < 256 →
    let q := s.queue x n
    q.st = .opened → q.positions = p :: rest → qModality q.desc = 0 →
    p.phase = .decoded → p.yields.cause ≠ 0 → p.emitted ≠ 0 → tensorCount q p ≤ p.emitted → queueRoom s x n 0 = true →
    (sampleTensors s q p).getLast? = some sh → fmtOf (qFormat q.desc) = some f →
    (queueStream s x n 0 = none ∨ ∃ i r, queueStream s x n 0 = some (i, r) ∧ sh.vals.length ≤ r.maxLen) →
    Answers (.lateCorrupt x n) s fun t =>
      (t.queue x n).lateCorrupt = q.lateCorrupt + 1 ∧ (t.queue x n).positions = rest ∧
      (t.queue x n).emitted = q.emitted + 1 ∧
      (p.pos + 1 ≠ qBatchSize q.desc → (t.queue x n).manifest = q.manifest ++ p.skips ++
        [manifestRecord x n { p with emitted := p.emitted + 1 } p.yields.cause 2 (p.emitted + 1)]) ∧
      (p.pos + 1 = qBatchSize q.desc → (t.queue x n).manifest = [] ∧
        (t.queue x n).nextBatch = (p.batch + 1) % 2 ^ 32)) ∧
  (∀ (s : State) (x n i k : Nat) (waited : BitVec 48) (ws : List SWord), x < 2 → n < 256 →
    let q := s.queue x n
    q.st = .opened → qRoi q.desc = true → roiStream s x n = some (i, k) →
    wholeTensor ((s.stream q.ctx i).buf k).unread = some ws →
    (q.roiDrop ≠ 0 → Answers (.roiSetTake x n waited) s fun t =>
      (t.queue x n).roiDrop = q.roiDrop - 1 ∧ (t.queue x n).positions = q.positions ∧
      (t.queue x n).roiInvalid = q.roiInvalid) ∧
    (∀ p rest fr, q.roiDrop = 0 → q.positions = p :: rest → (emittedFrames q.desc p.yields)[p.regions]? = some fr →
      (p.phase = .decoded ∨ p.phase = .decoding) → qLag q.desc ≤ p.regions → p.regions = p.emitted →
      domainOn s (streamsDomain x) = true → queueRoom s x n 1 = true → Answers (.roiSetTake x n waited) s fun t =>
        (((ws.head?.map fun h => (THdr.parse h.bits).sample).getD 0) ≠ p.pos →
          (t.queue x n).st = .stopped ∧ (t.queue x n).positions = q.positions ∧
            (t.queue x n).roiInvalid = q.roiInvalid) ∧
        (((ws.head?.map fun h => (THdr.parse h.bits).sample).getD 0) = p.pos →
          (t.queue x n).positions = { p with regions := p.regions + 1 } :: rest ∧
          (t.queue x n).roiWait = q.roiWait + waited ∧
          (t.queue x n).roiInvalid = q.roiInvalid +
            BitVec.ofNat 32 ((regionRecords ws).filter fun e => !regionUsable e).length))) ∧
  (∀ (s : State) (x n : Nat) (p : Position) (rest : List Position), x < 2 → n < 256 →
    let q := s.queue x n
    q.st = .opened → q.positions = p :: rest → p.phase = .corrupt →
    (q.pool = [] → p.waited = false → Answers (.substitution x n) s fun t =>
      (t.queue x n).reserveWaits = q.reserveWaits + 1 ∧ (t.queue x n).positions = { p with waited := true } :: rest) ∧
    (q.pool = [] → p.waited = true → Answers (.substitution x n) s fun t => t.media = s.media) ∧
    (∀ r pool, q.pool = r :: pool → Answers (.substitution x n) s fun t =>
      (t.queue x n).pool = pool ∧
      ∃ p', (t.queue x n).positions = p' :: rest ∧ p'.owner = p.owner ∧ p'.batch = p.batch ∧ p'.pos = p.pos ∧
        p'.substituted = true ∧
        ((sampleChecks q.desc r).1 = 0 → predecoded r.codec = false → p'.phase = .waiting ∧ p'.skips = p.skips ∧
          p'.cand.index = r.index) ∧
        ((sampleChecks q.desc r).1 ≠ 0 → p'.phase = .corrupt ∧ (t.queue x n).corrupt = q.corrupt + 1)))

/-! ### Training (08) -/

/-- VERDICT_BARRIER, VERDICT_RECEIVED, END_OF_STEP_BARRIER. A ready context snapshots its counters, and its leaf is
the largest policy among the sources that fired; a verdict is taken once and counted, ROLLBACK and SKIP without
touching the monitor; the end of an applied or skipped step advances JOB_STEP and clears what the step counted; before
its time each does nothing (R296 to R299, R334, R335). -/
def Obligations.StepBarriers : Prop :=
  (∀ (s : State) (c : Nat), c < nCtx → stepRuns s c = true → (s.ctx c).step.leaf = none → verdictReady s c = true →
    Answers (.verdictBarrier c) s fun t =>
      let o := (s.ctx c).options
      let b := (t.ctx c).step
      ∃ tot : EpSnap, ∃ v : Nat,
        b.stepNonfinite = tot.nonfinite + tot.nanZeroed ∧ b.stepSaturations = tot.saturations ∧
        b.stepPoisoned = tot.poisonedWords ∧ b.leaf = some v ∧
        (b.fired.getLsbD 0 = true ↔ optLimit o 0 ≠ 0xFFFFFFFF ∧ optLimit o 0 < b.stepNonfinite.toNat) ∧
        (b.fired.getLsbD 1 = true ↔ optLimit o 1 ≠ 0xFFFFFFFF ∧ optLimit o 1 < b.stepSaturations.toNat) ∧
        (b.fired.getLsbD 2 = true ↔ optLimit o 2 ≠ 0xFFFFFFFF ∧ optLimit o 2 < b.stepPoisoned.toNat) ∧
        (monitorLoss s c = none → b.fired.getLsbD 3 = false ∧ b.fired.getLsbD 4 = false) ∧
        (∀ k, k < 5 → b.fired.getLsbD k = true → optPolicy o k ≤ v) ∧
        (v = 0 ∨ ∃ k, k < 5 ∧ b.fired.getLsbD k = true ∧ optPolicy o k = v) ∧
        b.jobStep = (s.ctx c).step.jobStep ∧ b.verdict = (s.ctx c).step.verdict) ∧
  (∀ (s : State) (c : Nat), c < nCtx → stepRuns s c = false ∨ (s.ctx c).step.leaf ≠ none ∨ verdictReady s c = false →
    exec (.verdictBarrier c) s = .next s) ∧
  (∀ (s : State) (c v l : Nat), c < nCtx → stepRuns s c = true → (s.ctx c).step.leaf = some l →
    (s.ctx c).step.verdict = none → verdictFits (s.ctx c) l v = true →
    let a := (s.ctx c).step
    Answers (.verdictReceived c v) s fun t =>
      let b := (t.ctx c).step
      b.verdict = some v ∧ b.verdictLast = BitVec.ofNat 7 (v + 4 * a.fired.toNat) ∧ b.jobStep = a.jobStep ∧
      b.stepsApplied = a.stepsApplied + (if v = 0 then 1 else 0) ∧
      b.stepsSkipped = a.stepsSkipped + (if v = 1 then 1 else 0) ∧
      b.stepRollbacks = a.stepRollbacks + (if v = 2 then 1 else 0) ∧
      (v ≠ 0 → ∀ n, (t.core n).loss = (s.core n).loss) ∧
      (∀ m l p, v = 0 → monitorLoss s c = some (m, l, p) → a.fired.getLsbD 3 = false → a.fired.getLsbD 4 = false →
        (t.core m).loss =
          absorb (lossAlpha (((s.core m).stage.info.map (·.param)).getD Blob.empty)) l (s.core m).loss)) ∧
  (∀ (s : State) (c v : Nat), c < nCtx → v < 4 → stepRuns s c = false ∨ (s.ctx c).step.leaf = none ∨
    (s.ctx c).step.verdict ≠ none → exec (.verdictReceived c v) s = .next s) ∧
  (∀ (s : State) (c v : Nat), c < nCtx → stepRuns s c = true → (s.ctx c).step.verdict = some v → v ≤ 1 →
    (coresOf s c).all (atStepEnd s) = true → writesDone s c = true → updatesDone s c = true →
    let n := (s.ctx c).step.jobStep + 1
    let due : Bool := planN (s.ctx c).plan ≠ 0 && n.toNat % planN (s.ctx c).plan = 0
    (due = true → joinHolds s c = false) → Answers (.endOfStepBarrier c) s fun t =>
      (t.ctx c).step.jobStep = n ∧ (t.ctx c).step.leaf = none ∧
      (t.ctx c).step.verdict = none ∧ (t.ctx c).step.fired = 0 ∧
      (t.ctx c).step.stepsApplied = (s.ctx c).step.stepsApplied ∧
      ((s.ctx c).unload = false →
        (∀ n, n ∈ coresOf s c → (t.core n).taken = 0 ∧ (t.core n).upd.layer = 0 ∧ (t.core n).loss.stepLoss = none ∧
          (t.core n).upd.expectT = (s.core n).upd.expectT) ∧
        (∀ n, n ∉ coresOf s c → t.core n = s.core n))) ∧
  (∀ (s : State) (c : Nat), c < nCtx → stepRuns s c = false ∨ (s.ctx c).step.verdict = none ∨
    (s.ctx c).step.verdict = some 2 ∨ (coresOf s c).all (atStepEnd s) = false ∨ writesDone s c = false ∨
    updatesDone s c = false → exec (.endOfStepBarrier c) s = .next (settle s s))

/-- LAYER_UPDATE, LOSS_TENSOR. A stage applies its next layer once the verdict and every member's gradient are there:
T advances by one in the stage's expected steps, the update is counted and the gradient is consumed; a frozen layer
and a skipped step change no byte of memory; a gradient of the wrong length, a shard header that does not fit, a shard
whose T is not the expected one, and the last T stop every member without storing; with ADOPT every member takes T_C
instead. A loss tensor gives its gradients on port 0 and the one step loss on port 1 (R302, R316 to R320, R330, R335).
-/
def Obligations.UpdatesAndLosses : Prop :=
  (∀ (s : State) (core m0 v : Nat) (r : StageRec), core < nCores →
    (s.core core).stage.info = some r → r.opclass = 6 →
    let x := s.ctx (s.core core).stage.ctx
    let ms := stageMembers x r.stage
    let u := (s.core m0).upd
    let i := u.layer
    let ents := ms.map fun m => (m, LayerEnt.parse (((s.core m).stage.info.map (·.param)).getD Blob.empty) i)
    let layer := updLayerNo r.param i
    let b := (tget u.tables.coefs layer).getD Blob.empty
    let ex := (tgetD u.expectT i 0).toNat
    let frozen := coefFrozen u.tables layer
    let carried : Bool := !frozen || optReduceFrozen x.options
    let ready : Prop := ∀ m ∈ ms, ((s.core m).inPort 0).done = true ∧ (s.core m).stage.st = .running
    let fits : Prop := ∀ q ∈ ents, ((s.core q.1).inPort 0).elems.length = q.2.elems
    let owned (e : LayerEnt) : Prop := mayReach s (s.core core).stage.ctx e.shard (128 + 3 * e.region) = true ∨
      mayReach s (s.core core).stage.ctx e.shard (128 + (coefStates b + 1) * e.region) = true
    let sound (e : LayerEnt) : Prop := s.mem.mem.poisoned (e.shard / 128) = false ∧
      shardHeaderOk (s.mem.mem.word (e.shard / 128)) e (log32Masters x.options) (coefStates b) = true
    let stepOf (e : LayerEnt) : Nat := bits (s.mem.mem.word (e.shard / 128)).toNat 0 32
    let stopped (t : State) (n : StopName) : Prop := t.mem.mem = s.mem.mem ∧
      (∀ m ∈ ms, (t.core m).stage.st = .stopped ∧ (t.core m).upd.layer = (s.core m).upd.layer ∧
        (t.core m).upd.expectT = (s.core m).upd.expectT) ∧ CoreFaulted s t (s.core core).stage.ctx n
    let passed (t : State) (consumed : Bool) : Prop := t.mem.mem = s.mem.mem ∧
      (∀ m ∈ ms, (t.core m).upd.layer = (s.core m).upd.layer + 1 ∧ (t.core m).upd.expectT = (s.core m).upd.expectT ∧
        (t.core m).upd.updatesApplied = (s.core m).upd.updatesApplied ∧
        (consumed = true → (t.core m).inPort 0 = InPort.empty)) ∧
      (∀ k, k ∉ ms → Moved (s.core k) (t.core k))
    ms.head? = some m0 → ms.Nodup → (∀ m ∈ ms, (s.core m).stage.ctx = (s.core core).stage.ctx) →
    x.step.verdict = some v →
    ((1 < v ∨ updNlayers r.param ≤ i ∨ carried = true ∧ ¬ ready) → exec (.layerUpdate core) s = .next s) ∧
    (v ≤ 1 → i < updNlayers r.param → carried = true → ready → ¬ fits →
      Answers (.layerUpdate core) s fun t => stopped t .tensorLength) ∧
    (v ≤ 1 → i < updNlayers r.param → (carried = true → ready ∧ fits) →
      (frozen = true → Answers (.layerUpdate core) s fun t => passed t carried ∧
        (t.core m0).upd.frozenUpdates = u.frozenUpdates + (if v = 0 then 1 else 0)) ∧
      (frozen = false → v = 1 → Answers (.layerUpdate core) s fun t => passed t true) ∧
      (frozen = false → v = 0 → (∃ q ∈ ents, layerStalls s q.2 (coefStates b) = true) →
        exec (.layerUpdate core) s = .next s) ∧
      (frozen = false → v = 0 → (∀ q ∈ ents, layerStalls s q.2 (coefStates b) = false) →
        ((∃ q ∈ ents, ¬ owned q.2) → ∃ q ∈ ents, ¬ owned q.2 ∧
          exec (.layerUpdate core) s = .next (addressFault s q.1 q.2.shard)) ∧
        ((∀ q ∈ ents, owned q.2) → (∃ q ∈ ents, ¬ sound q.2) →
          Answers (.layerUpdate core) s fun t => stopped t .shardHeader) ∧
        ((∀ q ∈ ents, owned q.2 ∧ sound q.2) →
          ((∃ q ∈ ents, stepOf q.2 ≠ ex) → optAdopt x.options = false → Answers (.layerUpdate core) s fun t =>
            stopped t .stepSkew ∧ (t.core m0).upd.stepSkews = u.stepSkews + 1 ∧
            (t.core m0).upd.lastSkewLayer = BitVec.ofNat 16 layer) ∧
          ((∃ q ∈ ents, stepOf q.2 ≠ ex) → optAdopt x.options = true → Answers (.layerUpdate core) s fun t =>
            (t.core m0).upd.stepSkews = u.stepSkews + 1 ∧
            ∀ m ∈ ms, (t.core m).upd.layer = (s.core m).upd.layer + 1 ∧
              tgetD (t.core m).upd.expectT i 0 = tgetD x.tC layer 0 ∧
              (t.core m).upd.stepAdoptions = (s.core m).upd.stepAdoptions + 1 ∧
              (t.core m).upd.lastSkewLayer = BitVec.ofNat 16 layer ∧
              (t.core m).upd.updatesApplied = (s.core m).upd.updatesApplied ∧ (t.core m).inPort 0 = InPort.empty) ∧
          ((∀ q ∈ ents, stepOf q.2 = ex) → ex = 0xFFFFFFFF →
            Answers (.layerUpdate core) s fun t => stopped t .stepLimit) ∧
          ((∀ q ∈ ents, stepOf q.2 = ex) → ex ≠ 0xFFFFFFFF → Answers (.layerUpdate core) s fun t =>
            (∀ m ∈ ms, (t.core m).upd.layer = (s.core m).upd.layer + 1 ∧
              tgetD (t.core m).upd.expectT i 0 = BitVec.ofNat 32 (ex + 1) ∧
              (∀ j, j ≠ i → tgetD (t.core m).upd.expectT j 0 = tgetD (s.core m).upd.expectT j 0) ∧
              (t.core m).upd.updatesApplied = (s.core m).upd.updatesApplied + 1 ∧
              (t.core m).upd.lastLr = lrAt ((tget u.tables.scheds (coefSched b)).getD Blob.empty) (ex + 1) ∧
              (t.core m).inPort 0 = InPort.empty) ∧
            (∀ k, k ∉ ms → Moved (s.core k) (t.core k))))))) ∧
  (∀ (s : State) (core : Nat) (r : StageRec) (h : THdr), core < nCores →
    (s.core core).stage.info = some r → ((s.core core).inPort 0).hdr = some h → r.opclass = 5 →
    ((s.core core).stage.st ≠ .running ∨ outputFull s core = true ∨ ((s.core core).inPort 0).done = false ∨
      ((s.core core).inPort 1).done = false → exec (.lossTensor core) s = .next s) ∧
    ((s.core core).stage.st = .running → outputFull s core = false → ((s.core core).inPort 0).done = true →
      ((s.core core).inPort 1).done = true →
      (h.length = 0 → exec (.lossTensor core) s = .next (passEmpty s core h 0
        (((s.core core).inPort 0).hpoison || ((s.core core).inPort 1).hpoison) [0, 1] (h.c, h.w, h.h))) ∧
      (h.length ≠ 0 →
        let es := ((s.core core).inPort 1).elems
        let ce : Bool := lossFunc r.param = 0
        let outside : Bool := ce &&
          es.any fun y => !y.poison && y.code.toNat ≠ lossIgnore r.param && decide (y.code.toNat ≥ h.c)
        let ys := if ce then [] else chunks (max h.c 1) es
        (outside = true → exec (.lossTensor core) s = .next (stopStage s core .lossTarget 0)) ∧
        (outside = false → (boundStream s core 4).isSome = true → (boundStream s core 5).isSome = true →
          Answers (.lossTensor core) s fun t =>
            let rows := (chunks (max h.c 1) ((s.core core).inPort 0).elems).zipIdx.map fun q =>
              rowLoss r.param q.1 (es.getD q.2 ⟨0, false⟩) (ys.getD q.2 [])
            CoresMoved core s t ∧ (t.core core).inPort 0 = InPort.empty ∧ (t.core core).inPort 1 = InPort.empty ∧
            (t.core core).loss.ignoredRows = (s.core core).loss.ignoredRows + (if ce then
              BitVec.ofNat 32 (es.filter fun y => !y.poison && y.code.toNat = lossIgnore r.param).length else 0) ∧
            (∃ g, ((t.core core).outPort 0).outs = ((s.core core).outPort 0).outs ++ [g] ∧ g.length = h.length ∧
              g.vals.map (·.2) = rows.flatMap (·.2)) ∧
            ((t.core core).outPort 1).outs = ((s.core core).outPort 1).outs ++
              [⟨1, 1, 1, 1, h.sample, flagShaped, false, [(0, vecOut (rows.any (·.1.poison))
                (F32.mul (F32.sumA40 (rows.map fun q => q.1.code.setWidth 32)) (lossScale r.param)))]⟩]))))

/-! ### Links (09, 14) -/

/-- LANE_SIGNAL, LINK_TRAINED, LOSS_OF_SIGNAL, KEEPALIVE_TIMEOUT, ETH_LINK_LOSS. A link trains once it has a signal; a
Verhel link comes up with all its lanes, or a whole port as a half, and begins keying; an Ethernet link comes up with
all its lanes. A Verhel link that is lost discards what it held and destroys its keys; at a link to which a command
does not apply it changes nothing (R341, R342, R350, R351, R544). -/
def Obligations.LinksTrainAndFall : Prop :=
  (∀ (s : State) (h : Nat), h < 16 →
    ((s.link h).st = .down → (s.link h).mode ≠ .off → domainOn s (linkDomain h) = true →
      Answers (.laneSignal h) s fun t =>
      (t.link h).signal = true ∧ OneLink s t h ∧
      ((s.link h).retryWait = false → (s.link h).mismatchWait = false → (t.link h).st = .training) ∧
      ((s.link h).retryWait = true ∨ (s.link h).mismatchWait = true → (t.link h).st = .down)) ∧
    ((s.link h).st ≠ .down ∨ (s.link h).mode = .off ∨ domainOn s (linkDomain h) = false →
      exec (.laneSignal h) s = .next s)) ∧
  (∀ (s : State) (h : Nat) (lanes : BitVec 8), h < 16 → (s.link h).st = .training →
    let l := s.link h
    let need : BitVec 8 := if l.half then BitVec.ofNat 8 (halfLanes (h % 2)) else 0xFF
    let whole : Prop := lanes &&& need = need
    let part : Prop := l.half = false ∧ (lanes &&& 0x0F = 0x0F ∨ lanes &&& 0xF0 = 0xF0)
    Answers (.linkTrained h lanes) s fun t =>
      (t.link h).lanes = (if l.half then lanes &&& need else lanes) ∧
      (l.mode = .ethernet → whole → (t.link h).st = .ethUp) ∧
      (l.mode = .ethernet → ¬whole → (t.link h).st = .down) ∧
      (l.mode ≠ .ethernet → whole → (t.link h).st = .keying ∧ (t.link h).up4 = l.half ∧ (t.link h).degraded = false) ∧
      (l.mode ≠ .ethernet → ¬whole → part →
        (t.link h).st = .keying ∧ (t.link h).up4 = true ∧ (t.link h).degraded = true) ∧
      (l.mode ≠ .ethernet → ¬whole → ¬part → (t.link h).st = .down) ∧
      (∀ k, k ≠ h → OnlySends (s.link k) (t.link k))) ∧
  (∀ (s : State) (h : Nat), h < 16 → (s.link h).mode = .verhel → (s.link h).signal = true →
    Answers (.lossOfSignal h) s fun t =>
      (t.link h).st = .down ∧ (t.link h).signal = false ∧ WentDown h t ∧
      (t.link h).ctr.losEvents = (s.link h).ctr.losEvents + 1) ∧
  (∀ (s : State) (h : Nat), h < 16 → (s.link h).isUp = true →
    let l := s.link h
    Answers (.keepaliveTimeout h) s fun t =>
      (t.link h).st = (if l.signal && !l.retryWait && !l.mismatchWait then .training else .down) ∧ WentDown h t ∧
      (t.link h).ctr.keepaliveLosses = l.ctr.keepaliveLosses + 1) ∧
  (∀ (s : State) (h : Nat), h < 16 → (s.link h).st = .ethUp → Answers (.ethLinkLoss h) s fun t =>
    (t.link h).st = .down ∧ (t.link h).signal = false ∧
    (t.link h).ctr.losEvents = (s.link h).ctr.losEvents + 1 ∧
    (∀ k, k ≠ h → OnlySends (s.link k) (t.link k))) ∧
  (∀ (s : State) (h : Nat), h < 16 →
    (∀ lanes, (s.link h).st ≠ .training → exec (.linkTrained h lanes) s = .next (fabricStep s id)) ∧
    ((s.link h).mode ≠ .verhel ∨ (s.link h).signal = false → exec (.lossOfSignal h) s = .next (fabricStep s id)) ∧
    ((s.link h).isUp = false → exec (.keepaliveTimeout h) s = .next (fabricStep s id)) ∧
    ((s.link h).st ≠ .ethUp → exec (.ethLinkLoss h) s = .next (fabricStep s id)))

/-- FLIT_SLOT, FLIT_IDLE, FLIT_DATA. Every slot of a link that is up carries a flit: LEAVING, an ABORT, a keying
message, the replay under way, the next DATA flit of a lane with a credit, sealed under the hop key and held until it
is acknowledged, or an IDLE flit; a replayed flit is the flit first sent, and the sixteenth replay without an ACK
takes the link down. A receiver takes DATA flits in sequence only and asks for the rest with NAK; ACK, NAK and credits
are taken of IDLE flits and of accepted DATA flits; a flit whose tag fails, or that touches a codeword that is not
correctable, only counts (R343 to R349, R351, 14 R542). -/
def Obligations.FlitsAreHeldAndReplayed : Prop :=
  (∀ (s : State) (h : Nat), h < 16 →
    let l := s.link h
    let idle (lst : Nat) : Flit := sealFlit s h true l.idles
      (linkHeader 0 l.rxSeq l.nak 0 0 lst (grantOf l).1 (grantOf l).2 false) 0
    let lst : Nat := if fabricReady s then 1 else 0
    let key (m : Nat) (t : State) : Prop :=
      let b := keyMessage s h m
      let n := keyFragments b
      let i := l.frag % n
      let d := b.slice (240 * i) (min 240 (b.len - 240 * i))
      let v := packFields [(m, 8), (i, 8), (n, 8), (d.len, 16), (0, 24), (d.val, 1920)]
      Sent l ⟨linkHeader 0 0 false 0 2 (lstate s h) 0 0 false, BitVec.ofNat 1856 v,
        BitVec.ofNat 128 (v / 2 ^ 1856)⟩ (t.link h) ∧
        (t.link h).frag = (i + 1) % n ∧ OneLink s t h
    (0 < l.leaving → l.isUp = true → Answers (.flitSlot h) s fun t => Sent l (idle 2) (t.link h) ∧
      (t.link h).leaving = l.leaving - 1 ∧ OneLink s t h) ∧
    (l.leaving = 0 ∨ l.isUp = false → 0 < l.aborts → Answers (.flitSlot h) s fun t => key 3 t ∧
      (t.link h).aborts = l.aborts - 1) ∧
    (l.aborts = 0 → l.st = .keying → Answers (.flitSlot h) s fun t => key (if l.confirming then 2 else 1) t) ∧
    (l.aborts = 0 → l.st ≠ .keying → l.isUp = false → exec (.flitSlot h) s = .next s) ∧
    (l.leaving = 0 → l.aborts = 0 → l.isUp = true →
      (∀ i f, l.replay = some i → l.held[i]? = some f → f.replays + 1 ≠ 16 → Answers (.flitSlot h) s fun t =>
        Sent l f.flit (t.link h) ∧ OneLink s t h ∧ (t.link h).ctr.flitsReplayed = l.ctr.flitsReplayed + 1 ∧
        (t.link h).held = (l.held.modify i fun x => { x with replays := x.replays + 1 }) ∧ (t.link h).tx = l.tx ∧
        (t.link h).credits = l.credits ∧ (t.link h).replay = (if i + 1 < l.held.length then some (i + 1) else none)) ∧
      (∀ i f, l.replay = some i → l.held[i]? = some f → f.replays + 1 = 16 → Answers (.flitSlot h) s fun t =>
        WentDown h t ∧ (t.link h).out = some f.flit ∧ (t.link h).ctr.retryExhausted = l.ctr.retryExhausted + 1) ∧
      (∀ i, l.replay = some i → l.held[i]? = none → Answers (.flitSlot h) s fun t =>
        Sent l (idle lst) (t.link h) ∧ OneLink s t h ∧ (t.link h).held = l.held ∧ (t.link h).replay = none) ∧
      (l.replay = none → 2048 ≤ l.held.length → Answers (.flitSlot h) s fun t =>
        Sent l (idle lst) (t.link h) ∧ OneLink s t h ∧ (t.link h).held = l.held ∧ (t.link h).tx = l.tx ∧
        (t.link h).ctr.replayFull = l.ctr.replayFull + BitVec.ofNat 48 (slotCycles l)) ∧
      (∀ v b r, l.replay = none → l.held.length < 2048 → nextLane l = some v → tgetD l.tx v [] = b :: r →
        Answers (.flitSlot h) s fun t =>
          let f := sealFlit s h false l.datas (linkHeader ((l.txSeq + 1) % 4096) l.rxSeq l.nak v 1 lst (grantOf l).1
            (grantOf l).2 b.first) b.body
          Sent l f (t.link h) ∧ OneLink s t h ∧ (t.link h).held = l.held ++ [⟨(l.txSeq + 1) % 4096, f, 0⟩] ∧
          tgetD (t.link h).tx v [] = r ∧ tgetD (t.link h).credits v 0 = tgetD l.credits v 0 - 1 ∧
          (t.link h).txSeq = (l.txSeq + 1) % 4096 ∧ (t.link h).datas = l.datas + 1 ∧ (t.link h).idles = l.idles) ∧
      (l.replay = none → l.held.length < 2048 → nextLane l = none → Answers (.flitSlot h) s fun t =>
        Sent l (idle lst) (t.link h) ∧ OneLink s t h ∧ (t.link h).idles = l.idles + 1 ∧ (t.link h).held = l.held ∧
        (t.link h).tx = l.tx ∧ (t.link h).credits = l.credits ∧ (t.link h).txSeq = l.txSeq))) ∧
  (∀ (s : State) (h n : Nat) (f : Flit) (fec : Fec), h < 16 →
    let l := s.link h
    let a := hdrBits f.hdr 12 12
    let d := (a + 4096 - l.acked) % 4096
    let sound := (openFlit s h true n f fec).isSome
    (l.isUp = false → exec (.flitIdle h f n fec) s = .next (fabricStep s fun s => countFec s h fec)) ∧
    (l.isUp = true → Answers (.flitIdle h f n fec) s fun t =>
      (t.link h).ctr.fecCorrected = l.ctr.fecCorrected + BitVec.ofNat 48 fec.corrected ∧
      (t.link h).ctr.fecUncorrectable = l.ctr.fecUncorrectable + BitVec.ofNat 48 fec.uncorrectable ∧
      (t.link h).ctr.tagFailures = l.ctr.tagFailures + (if sound then 0 else 1)) ∧
    (l.isUp = true → sound = false → Answers (.flitIdle h f n fec) s fun t =>
      (t.link h).st = l.st ∧ (t.link h).held = l.held ∧ (t.link h).rxSeq = l.rxSeq) ∧
    (l.isUp = true → sound = true → hdrBits f.hdr 30 2 ≠ 2 → Answers (.flitIdle h f n fec) s fun t =>
      (0 < d → d ≤ l.held.length → (t.link h).acked = a ∧
        (t.link h).held = (l.held.drop d).map fun x => { x with replays := 0 }) ∧
      (d = 0 ∨ l.held.length < d → (t.link h).held = l.held ∧ (t.link h).acked = l.acked) ∧
      (a = l.acked → bit f.hdr.toNat 24 = true → l.replay = none → l.held ≠ [] → (t.link h).replay = some 0) ∧
      tgetD (t.link h).credits (hdrBits f.hdr 32 3) 0 = tgetD l.credits (hdrBits f.hdr 32 3) 0 + hdrBits f.hdr 35 12 ∧
      (t.link h).peerReady = decide (hdrBits f.hdr 30 2 = 1) ∧ (∀ k, k ≠ h → OnlySends (s.link k) (t.link k))) ∧
    (l.isUp = true → sound = true → hdrBits f.hdr 30 2 = 2 → Answers (.flitIdle h f n fec) s fun t => WentDown h t)) ∧
  (∀ (s : State) (h n : Nat) (f : Flit) (fec : Fec), h < 16 →
    let l := s.link h
    let vl := hdrBits f.hdr 25 3
    let first := bit f.hdr.toNat 47
    (l.isUp = false → exec (.flitData h f n fec) s = .next (fabricStep s fun s => countFec s h fec)) ∧
    (l.isUp = true → Answers (.flitData h f n fec) s fun t =>
      (t.link h).ctr.fecCorrected = l.ctr.fecCorrected + BitVec.ofNat 48 fec.corrected ∧
      (t.link h).ctr.fecUncorrectable = l.ctr.fecUncorrectable + BitVec.ofNat 48 fec.uncorrectable) ∧
    (l.isUp = true → openFlit s h false n f fec = none → Answers (.flitData h f n fec) s fun t =>
      (t.link h).ctr.tagFailures = l.ctr.tagFailures + 1 ∧ (t.link h).rxSeq = l.rxSeq ∧ (t.link h).rx = l.rx ∧
      (t.link h).asm = l.asm ∧ (t.link h).held = l.held) ∧
    (∀ body, l.isUp = true → openFlit s h false n f fec = some body →
      (hdrBits f.hdr 30 2 = 2 → Answers (.flitData h f n fec) s fun t => WentDown h t) ∧
      (hdrBits f.hdr 30 2 ≠ 2 → hdrBits f.hdr 0 12 ≠ (l.rxSeq + 1) % 4096 → Answers (.flitData h f n fec) s fun t =>
        (t.link h).nak = true ∧ (t.link h).rxSeq = l.rxSeq ∧ (t.link h).rx = l.rx ∧ (t.link h).asm = l.asm ∧
        (t.link h).held = l.held ∧ (t.link h).credits = l.credits) ∧
      (hdrBits f.hdr 30 2 ≠ 2 → hdrBits f.hdr 0 12 = (l.rxSeq + 1) % 4096 → Answers (.flitData h f n fec) s fun t =>
        let fs := (if first then [] else tgetD l.asm vl []) ++ [⟨first, body⟩]
        (t.link h).rxSeq = hdrBits f.hdr 0 12 ∧ (t.link h).nak = false ∧
        tgetD (t.link h).credits (hdrBits f.hdr 32 3) 0 = tgetD l.credits (hdrBits f.hdr 32 3) 0 + hdrBits f.hdr 35 12 ∧
        (assembled fs = none → tgetD (t.link h).asm vl [] = fs ∧ (t.link h).rx = l.rx) ∧
        (∀ p, assembled fs = some p → tgetD (t.link h).asm vl [] = [] ∧
          (p.kind ≥ 0xC ∨ p.hop ≠ p.nhops ∨ p.dst = s.fab.acc → (t.link h).rx = l.rx ++ [(vl, p)]) ∧
          (p.kind < 0xC → p.hop = p.nhops → p.dst ≠ s.fab.acc →
            (t.link h).rx = l.rx ∧ t.fab.misdelivered = s.fab.misdelivered + 1)))))

/-- KEY_OFFER, KEY_CONFIRM, KEY_ABORT, KEYING_TIMEOUT, KEYING_RETRY, FABRIC_MISMATCH_RETRY. A keying ends in NOT_READY
with the ephemeral key destroyed, or fails with its cause, 64 ABORT slots and a link that is down until its wait ends;
a link that is not keying, or that does not wait, stays as it is (R353, R543 to R545). -/
def Obligations.KeyingOpensLinks : Prop :=
  let failed (s : State) (h cause : Nat) (t : State) : Prop :=
    t.sec.keyingFailures = s.sec.keyingFailures + 1 ∧ t.sec.lastKeyFail = BitVec.ofNat 8 (h + 16 * cause) ∧
      (t.link h).st = .down ∧ (t.link h).aborts = 64 ∧ (t.link h).retryWait = true ∧ WentDown h t
  (∀ (s : State) (h : Nat) (n : BitVec 64) (g : BitVec 256) (k : BitVec 320), h < 16 → (s.link h).st = .keying →
    Answers (.keyOffer h n g false k) s (failed s h 1) ∧
    (g ≠ ownerDigest s → Answers (.keyOffer h n g true k) s (failed s h 2)) ∧
    (g = ownerDigest s → Answers (.keyOffer h n g true k) s fun t =>
      (t.link h).offer = some n ∧ (t.link h).peerSerial = n ∧ (t.link h).st = .keying ∧
      ((t.link h).confirming = true ↔ n.toNat < ownSerial s) ∧ (t.link h).confirmK = k ∧ (t.link h).frag = 0 ∧
      t.sec.keyingFailures = s.sec.keyingFailures)) ∧
  (∀ (s : State) (h : Nat) (n : BitVec 64), h < 16 → (s.link h).st = .keying → (s.link h).offer = some n →
    Answers (.keyConfirm h false) s (failed s h 3) ∧
    Answers (.keyConfirm h true) s fun t =>
      (t.link h).st = .notReady ∧ (t.link h).offer = none ∧ t.sec.keyings = s.sec.keyings + 1 ∧
      t.sec.keyingFailures = s.sec.keyingFailures ∧ KeyGone (.ephemeral h) t ∧
      tgetD (t.link h).grants 7 0 = tgetD (s.link h).grants 7 0 + 16) ∧
  (∀ (s : State) (h : Nat), h < 16 → (s.link h).st = .keying →
    Answers (.keyAbort h) s (failed s h 4) ∧ Answers (.keyingTimeout h) s (failed s h 5)) ∧
  (∀ (s : State) (h : Nat), h < 16 →
    let l := s.link h
    (l.retryWait = true → Answers (.keyingRetry h) s fun t =>
      (t.link h).retryWait = false ∧
      (t.link h).st = (if l.signal && l.st = .down && !l.mismatchWait then .training else l.st)) ∧
    (l.mismatchWait = true → Answers (.fabricMismatchRetry h) s fun t =>
      (t.link h).mismatchWait = false ∧
      (t.link h).st = (if l.signal && l.st = .down && !l.retryWait then .training else l.st))) ∧
  (∀ (s : State) (h : Nat), h < 16 →
    (∀ n g ok k, (s.link h).st ≠ .keying → exec (.keyOffer h n g ok k) s = .next (fabricStep s id)) ∧
    (∀ ok, (s.link h).st ≠ .keying ∨ (s.link h).offer = none → exec (.keyConfirm h ok) s = .next (fabricStep s id)) ∧
    ((s.link h).st ≠ .keying → exec (.keyAbort h) s = .next (fabricStep s id) ∧
      exec (.keyingTimeout h) s = .next (fabricStep s id)) ∧
    ((s.link h).retryWait = false → exec (.keyingRetry h) s = .next (fabricStep s id)) ∧
    ((s.link h).mismatchWait = false → exec (.fabricMismatchRetry h) s = .next (fabricStep s id)))

/-- HELLO, SYNC_OFFER, SYNC_RECORDS, SYNC_DONE, SYNC_NOT_READY, SYNC_BACKOFF. A HELLO of another fabric takes the link
down; else the partner is known and a sync is offered, or waits while another is outstanding and the device is not
fabric-ready. An offer is accepted unless it meets that same case, and answered NOT_READY in it; the records are
stored in their order; with the partner's DONE the next offer that waits is made; a NOT_READY answer starts a wait. A
command whose packet has not arrived does nothing (R353 to R355, R361). -/
def Obligations.SyncsExchangeRecords : Prop :=
  let offers (s : State) (h : Nat) (t : State) : Prop :=
    let others : Bool := linkNumbers.all fun o => o = h || !(s.link o).isUp || (s.link o).sync = .idle
    (syncBusy s h = false ∨ s.fab.accSt = .done ∧ others = true → (t.link h).sync = .offered) ∧
    (syncBusy s h = true → s.fab.accSt ≠ .done ∨ others = false → (t.link h).sync = .wanted)
  (∀ (s s1 : State) (h : Nat) (p : Pkt), h < 16 → takePacket s h 0xC = some (p, s1) →
    (p.payload.bits 64 32 ≠ fabricId s → Answers (.hello h) s fun t =>
      (t.link h).st = .down ∧ (t.link h).mismatchWait = true ∧ WentDown h t ∧
      (t.link h).ctr.fabricMismatches = (s.link h).ctr.fabricMismatches + 1) ∧
    (p.payload.bits 64 32 = fabricId s → Answers (.hello h) s fun t =>
      (t.link h).st = (s.link h).st ∧ (t.link h).peerSerial = BitVec.ofNat 64 (p.payload.bits 0 64) ∧
      (t.link h).peerAcc = BitVec.ofNat 16 (p.payload.bits 128 16) ∧
      (t.link h).peerLink = BitVec.ofNat 4 (p.payload.bits 146 4) ∧ offers s h t)) ∧
  (∀ (s s1 : State) (h : Nat) (p : Pkt), h < 16 → takeSync s h 0 = some (p, s1) →
    (fabricReady s = false → syncBusy s h = true → Answers (.syncOffer h) s fun t =>
      (t.link h).ctr.notReadySent = (s.link h).ctr.notReadySent + 1 ∧ (t.link h).sync = (s.link h).sync) ∧
    (fabricReady s = true ∨ syncBusy s h = false → Answers (.syncOffer h) s fun t =>
      (t.link h).sync = .running ∧ (t.link h).ctr.notReadySent = (s.link h).ctr.notReadySent ∧
      ((s.link h).sync ≠ .running → (t.link h).syncSent = true ∧ (t.link h).backoffK = 0) ∧
      ((s.link h).sync = .running → (t.link h).syncSent = (s.link h).syncSent ∧
        (t.link h).backoffK = (s.link h).backoffK))) ∧
  (∀ (s s1 : State) (h : Nat) (p : Pkt), h < 16 → takeSync s h 1 = some (p, s1) →
    exec (.syncRecords h) s = .next (fabricStep s fun _ => (blobRecords p.payload).foldl (fun u r => storeRecord u h r)
      (if (s.link h).sync = .offered then sendRecords s1 h else s1)) ∧
    (∀ r, blobRecords p.payload = [r] → recSerial r ≠ ownSerial s →
      let old := tget s.fab.lsdb (recSerial r)
      ((∃ o, old = some o ∧ recNewer r o = true) ∨ (old = none ∧ s.fab.lsdb.length < 16384) →
        Answers (.syncRecords h) s fun t => tget t.fab.lsdb (recSerial r) = some r) ∧
      (∀ o, old = some o → recNewer r o = false → Answers (.syncRecords h) s fun t => t.fab.lsdb = s.fab.lsdb))) ∧
  (∀ (s s1 : State) (h : Nat) (p : Pkt), h < 16 → takeSync s h 2 = some (p, s1) →
    Answers (.syncDone h) s (fun t => (t.link h).sync = .idle ∧ (t.link h).syncSent = false) ∧
    (∀ o, o ≠ h → o < 16 → (s.link o).isUp = true → (s.link o).sync = .wanted →
      (∀ k, k ≠ h → k ≠ o → (s.link k).sync = .idle) → Answers (.syncDone h) s fun t => (t.link o).sync = .offered)) ∧
  (∀ (s s1 : State) (h : Nat) (p : Pkt), h < 16 → takeSync s h 3 = some (p, s1) →
    ((s.link h).sync = .offered → Answers (.syncNotReady h) s fun t =>
      (t.link h).sync = .backoff ∧ (t.link h).backoffK = (s.link h).backoffK + 1 ∧
      (t.link h).ctr.backoffs = (s.link h).ctr.backoffs + 1) ∧
    ((s.link h).sync ≠ .offered → Answers (.syncNotReady h) s fun t =>
      (t.link h).sync = (s.link h).sync ∧ (t.link h).backoffK = (s.link h).backoffK)) ∧
  (∀ (s : State) (h : Nat), h < 16 →
    ((s.link h).sync = .backoff → Answers (.syncBackoff h) s fun t =>
      offers s h t ∧ (t.link h).backoffK = (s.link h).backoffK) ∧
    ((s.link h).sync ≠ .backoff → exec (.syncBackoff h) s = .next (fabricStep s id)) ∧
    (takePacket s h 0xC = none → exec (.hello h) s = .next (fabricStep s id)) ∧
    (takeSync s h 0 = none → exec (.syncOffer h) s = .next (fabricStep s id)) ∧
    (takeSync s h 1 = none → exec (.syncRecords h) s = .next (fabricStep s id)) ∧
    (takeSync s h 2 = none → exec (.syncDone h) s = .next (fabricStep s id)) ∧
    (takeSync s h 3 = none → exec (.syncNotReady h) s = .next (fabricStep s id)))

/-- ACCESSION_SETTLE, LSR, LSDB_RECORD_EXPIRY, ROUTE_RECOMPUTE, PACKET_FORWARD. A claim that stands becomes DONE; the
records of a flooded packet are stored in their order: a newer one replaces the one held, and one beyond 16,384 is
discarded and counted; an unreachable record expires; a recomputation installs the routes that the database gives; a
packet in transit leaves on the link that its route names with HOP raised, or is dropped where that link is not READY.
Without what it works on each changes nothing (R359, R361, R362, R366, R367). -/
def Obligations.RecordsAndRoutes : Prop :=
  (∀ (s : State), s.fab.accSt = .claiming → s.fab.flooded = true → Answers .accessionSettle s fun t =>
    t.fab.accSt = .done ∧ t.fab.acc = s.fab.acc) ∧
  (∀ (s s1 : State) (h : Nat) (p : Pkt), h < 16 → takePacket s h 0xD = some (p, s1) →
    exec (.lsr h) s = .next (fabricStep s fun _ => (blobRecords p.payload).foldl (fun u r => storeRecord u h r) s1) ∧
    (∀ r, blobRecords p.payload = [r] → recSerial r ≠ ownSerial s →
      let old := tget s.fab.lsdb (recSerial r)
      ((∃ o, old = some o ∧ recNewer r o = true) ∨ (old = none ∧ s.fab.lsdb.length < 16384) →
        Answers (.lsr h) s fun t => tget t.fab.lsdb (recSerial r) = some r) ∧
      (∀ o, old = some o → recNewer r o = false → Answers (.lsr h) s fun t => t.fab.lsdb = s.fab.lsdb) ∧
      (old = none → 16384 ≤ s.fab.lsdb.length → Answers (.lsr h) s fun t =>
        t.fab.lsdb = s.fab.lsdb ∧ t.fab.lsdbOverflows = s.fab.lsdbOverflows + 1))) ∧
  (∀ (u : State) (h : Nat) (r : BitVec 1728),
    let old := tget u.fab.lsdb (recSerial r)
    (recSerial r = ownSerial u → storeRecord u h r = u) ∧
    (recSerial r ≠ ownSerial u →
      ((∃ o, old = some o ∧ recNewer r o = true) ∨ (old = none ∧ u.fab.lsdb.length < 16384) →
        tget (storeRecord u h r).fab.lsdb (recSerial r) = some r ∧
        ∀ n, n ≠ ownSerial u → n ≠ recSerial r → tget (storeRecord u h r).fab.lsdb n = tget u.fab.lsdb n) ∧
      (∀ o, old = some o → recNewer r o = false → storeRecord u h r = u) ∧
      (old = none → 16384 ≤ u.fab.lsdb.length →
        storeRecord u h r = u.modFab fun x => { x with lsdbOverflows := x.lsdbOverflows + 1 }))) ∧
  (∀ (s : State) (n : Nat), n ≠ ownSerial s → (tget s.fab.lsdb n).isSome = true →
    ((reachable s).contains n = false → Answers (.lsdbRecordExpiry n) s fun t =>
      t.fab.lsdb = terase s.fab.lsdb n ∧ t.fab.dirty = true) ∧
    ((reachable s).contains n = true → Answers (.lsdbRecordExpiry n) s fun t => t.fab.lsdb = s.fab.lsdb)) ∧
  (∀ (s : State), s.fab.dirty = true → Answers .routeRecompute s fun t =>
    t.fab.routes = computeRoutes s ∧ t.fab.dirty = false ∧ t.fab.recomputes = s.fab.recomputes + 1 ∧
    t.fab.lsdb = s.fab.lsdb) ∧
  (∀ (s : State) (h vl : Nat) (p : Pkt), h < 16 →
    ((s.link h).rx.find? fun e => e.2.kind < 0xC && e.2.hop ≠ e.2.nhops) = some (vl, p) →
    let o := p.route p.hop
    let q : Pkt := ⟨BitVec.ofNat 256 (p.hdr.toNat - p.hop * 2 ^ 56 + (p.hop + 1) % 32 * 2 ^ 56), p.payload⟩
    let v := laneOf p.kind p.levelup p.hop
    let freed : Nat := if vl = 7 then 0 else p.flitCount
    ((s.link o).st = .ready → Answers (.packetForward h) s fun t =>
      tgetD (t.link o).tx v [] = tgetD (s.link o).tx v [] ++ q.flits ∧ (t.link h).rx = (s.link h).rx.erase (vl, p) ∧
      tgetD (t.link h).grants vl 0 = tgetD (s.link h).grants vl 0 + freed) ∧
    ((s.link o).st ≠ .ready → Answers (.packetForward h) s fun t =>
      (t.link o).ctr.droppedNoLink = (s.link o).ctr.droppedNoLink + 1 ∧ (t.link o).tx = (s.link o).tx ∧
      (t.link h).rx = (s.link h).rx.erase (vl, p) ∧
      tgetD (t.link h).grants vl 0 = tgetD (s.link h).grants vl 0 + freed)) ∧
  (∀ (s : State),
    (s.fab.accSt ≠ .claiming ∨ s.fab.flooded = false → exec .accessionSettle s = .next (fabricStep s id)) ∧
    (∀ h, h < 16 → takePacket s h 0xD = none → exec (.lsr h) s = .next (fabricStep s id)) ∧
    (∀ n, n = ownSerial s ∨ tget s.fab.lsdb n = none → exec (.lsdbRecordExpiry n) s = .next (fabricStep s id)) ∧
    (s.fab.dirty = false → exec .routeRecompute s = .next (orphanSessions s)) ∧
    (∀ h, h < 16 → ((s.link h).rx.find? fun e => e.2.kind < 0xC && e.2.hop ≠ e.2.nhops) = none →
      exec (.packetForward h) s = .next s))

/-! ### Packets at their destination (09) -/

/-- ACK, TRANSPORT_RETRANSMIT, WRITE, READ, READ_DATA. An ACK releases what it covers and as many of the packets that
wait as have room move up, numbered in order; a connection sends again everything it holds; a packet out of sequence
is not accepted, and a first packet opens its connection unless the limit is met. A remote access outside the granules
of its JOB is refused and counted and changes no byte; an allowed WRITE stores its bytes and no other, an allowed READ
is answered with them; the data or the refusal of a READ reaches the commit it is for (R369, R370, R373). -/
def Obligations.RemoteAccessesAreChecked : Prop :=
  (∀ (s s1 : State) (h : Nat) (p : Pkt), h < 16 → takePacket s h 5 = some (p, s1) →
    (findTx s p.src p.job p.channel = none → exec (.ack h) s = .next s1) ∧
    ∀ c, findTx s p.src p.job p.channel = some c →
      let left := c.held.filter fun k => !decide ((p.tseq - k.tseq).toNat < 2 ^ 31)
      let up := c.waiting.take (64 - left.length)
      Answers (.ack h) s fun t =>
        findTx t p.src p.job p.channel = some { c with
          held := left ++ up.mapIdx (fun i k => { k with tseq := c.next + BitVec.ofNat 32 i })
          waiting := c.waiting.drop up.length
          next := c.next + BitVec.ofNat 32 up.length } ∧
        t.fab.rx = s.fab.rx ∧ t.mem = s.mem ∧ t.ctxs = s.ctxs ∧ t.cores = s.cores) ∧
  (∀ (s : State) (n : Nat) (c : TxConn) (q : Path), s.fab.tx[n]? = some c → pathFor s c.peer c.flow.toNat = some q →
    Answers (.transportRetransmit n) s fun t =>
      t.fab.tx = s.fab.tx ∧ t.fab.retransmits = s.fab.retransmits + BitVec.ofNat 48 c.held.length) ∧
  (∀ (s : State) (n : Nat), s.fab.tx[n]? = none ∨ (∃ c, s.fab.tx[n]? = some c ∧ pathFor s c.peer c.flow.toNat = none) →
    exec (.transportRetransmit n) s = .next s) ∧
  (∀ (s : State) (h : Nat), h < 16 →
    (takePacket s h 5 = none → exec (.ack h) s = .next s) ∧
    (takePacket s h 2 = none → exec (.write h) s = .next s) ∧
    (takePacket s h 3 = none → exec (.read h) s = .next s) ∧
    (takePacket s h 4 = none → exec (.readData h) s = .next s) ∧
    (∀ p s0, takePacket s h 2 = some (p, s0) → rangeStalls s (p.payload.bits 0 44) (p.payload.len - 8) = true →
      exec (.write h) s = .next s) ∧
    ∀ p s0, takePacket s h 3 = some (p, s0) → rangeStalls s (p.payload.bits 0 44) p.operand = true →
      exec (.read h) s = .next s) ∧
  (∀ (s s0 : State) (h k : Nat) (p : Pkt), h < 16 → takePacket s h k = some (p, s0) →
    let here (c : RxConn) : Bool := c.peer = p.src && c.job = p.job && c.channel = p.channel
    let flow : BitVec 8 := match findTx s p.src p.job p.channel with
      | some c => c.flow
      | none => Config.freeValue 8 s.freeCtr
    let notAccepted (P : State → Prop) : Prop := ∃ t, P t ∧ t.mem = s.mem ∧ t.fab.tx = s.fab.tx ∧
      t.fab.remoteDenied = s.fab.remoteDenied ∧
      (k = 2 → rangeStalls s (p.payload.bits 0 44) (p.payload.len - 8) = false → exec (.write h) s = .next t) ∧
      (k = 3 → rangeStalls s (p.payload.bits 0 44) p.operand = false → exec (.read h) s = .next t) ∧
      (k = 4 → exec (.readData h) s = .next t)
    (∀ c, s.fab.rx.find? here = some c →
      (p.tseq = c.expect → ∃ s1, Delivered s h k p s1 ∧ s1.fab.rx.find? here = some { c with expect := c.expect + 1 }) ∧
      (p.tseq ≠ c.expect → notAccepted fun t => t.fab.rx = s.fab.rx)) ∧
    (s.fab.rx.find? here = none → connLimit ≤ connectionsOpen s → notAccepted fun t => t.fab.rx = s.fab.rx ∧
      ∀ c, jobCtx s p.job = some c → (t.ctx c).faults = (s.ctx c).faults + 1 ∧
        ((s.ctx c).fault = none → (t.ctx c).fault = some ⟨.connectionLimit, none, .fabric, 0⟩)) ∧
    (s.fab.rx.find? here = none → connectionsOpen s < connLimit →
      (p.tseq = 0 → ∃ s1, Delivered s h k p s1 ∧ s1.fab.rx = s.fab.rx ++ [⟨p.src, p.job, p.channel, 1, flow⟩]) ∧
      (p.tseq ≠ 0 → notAccepted fun t => t.fab.rx = s.fab.rx ++ [⟨p.src, p.job, p.channel, 0, flow⟩]))) ∧
  (∀ (s s1 : State) (h : Nat) (p : Pkt), h < 16 → Delivered s h 2 p s1 →
    let a := p.payload.bits 0 44
    let n := p.payload.len - 8
    let d := p.payload.slice 8 n
    rangeStalls s a n = false →
    (p.payload.len ≤ 8 → exec (.write h) s = .next s1) ∧
    (8 < p.payload.len → standbyMail s p d = true → ∀ c, jobCtx s p.job = some c → Answers (.write h) s fun t =>
      (t.ctx c).led.mail = (s.ctx c).led.mail ++ [Ctrl.parse d] ∧ t.mem = s.mem ∧
      t.fab.remoteDenied = s.fab.remoteDenied) ∧
    (8 < p.payload.len → standbyMail s p d = false → remoteOk s p.job a n = false → Answers (.write h) s fun t =>
      t.mem.mem = s.mem.mem ∧ t.fab.remoteDenied = s.fab.remoteDenied + 1) ∧
    (8 < p.payload.len → standbyMail s p d = false → remoteOk s p.job a n = true → s.mem.mem.wf = true →
      Answers (.write h) s fun t =>
        (∀ x, t.mem.mem.read x = if a ≤ x ∧
          x < a + n then BitVec.ofNat 8 (d.bits (8 * (x - a)) 8) else s.mem.mem.read x) ∧
        (∀ w, t.mem.mem.poisoned w = (s.mem.mem.poisoned w && !decide (a ≤ 128 * w ∧ 128 * w + 128 ≤ a + n))) ∧
        t.fab.remoteDenied = s.fab.remoteDenied)) ∧
  (∀ (s s1 : State) (h : Nat) (p : Pkt), h < 16 → Delivered s h 3 p s1 →
    let a := p.payload.bits 0 44
    let n := p.operand
    rangeStalls s a n = false →
    (n < 128 ∨ 4096 < n ∨ remoteOk s p.job a n = false → Answers (.read h) s fun t =>
      t.mem.mem = s.mem.mem ∧ t.fab.remoteDenied = s.fab.remoteDenied + 1) ∧
    (128 ≤ n → n ≤ 4096 → remoteOk s p.job a n = true →
      Answers (.read h) s (fun t => t.mem.mem = s.mem.mem ∧ t.fab.remoteDenied = s.fab.remoteDenied) ∧
      ((∀ w, a / 128 ≤ w → 128 * w < a + n → s.mem.mem.poisoned w = false) →
        exec (.read h) s = .next (answerRead s1 p false ⟨n, s.mem.mem.readNat a n⟩)))) ∧
  (∀ (s s1 : State) (h : Nat) (p : Pkt), h < 16 → Delivered s h 4 p s1 →
    (jobCtx s p.job = none → exec (.readData h) s = .next s1) ∧
    ∀ c, jobCtx s p.job = some c →
      (p.operand = 1 → ∀ k, (s.ctx c).led.commit = some k → Answers (.readData h) s fun t =>
        (t.ctx c).led.commit = some (if k.cause = 0 then { k with cause := 6 } else k) ∧ t.mem = s.mem) ∧
      (p.operand = 1 → (s.ctx c).led.commit = none → Answers (.readData h) s fun t =>
        (t.ctx c).led = (s.ctx c).led ∧ t.mem = s.mem) ∧
      (p.operand ≠ 1 → accRank (s.ctx c) p.src = none → exec (.readData h) s = .next s1) ∧
      (p.operand ≠ 1 → ∀ r, accRank (s.ctx c) p.src = some r → Answers (.readData h) s fun t =>
        (t.ctx c).led.reads = (match tget (s.ctx c).led.reads r with
          | some b => tset (s.ctx c).led.reads r (Blob.append b p.payload)
          | none => (s.ctx c).led.reads) ∧ t.mem = s.mem))

/-- STREAM, COLLECTIVE, CREDIT. The first packet of a fabric stream is its start-of-stream check: one that agrees
starts the end and, at a producer, gives it CAPACITY credits; one that does not is FABRIC_STREAM_MISMATCH. The words
of later packets join, in order, the queue of the consumer whose turn it is, of every consumer of a broadcast, or the
tensor that stripes are cut from; a broadcast is passed on along its tree; a CREDIT adds what the consumer has freed.
A word of the commit tree leaves its rank's leaf or the root's answer, which the root gives when every live leaf is
in. A packet for no stream of the device, or from no end of it, is dropped, and one of no context is denied (R370 to
R374, 10 R405). -/
def Obligations.StreamsCrossTheFabric : Prop :=
  let queue (r : StreamRec) (t : Stream) (k : Nat) : List SWord :=
    (t.buf k).unread ++ tgetD t.wait (if r.fanout = 1 then 0 else k) []
  let arrives (i : Instr) (s s1 : State) (p : Pkt) (c : Nat) : Prop :=
    (streamRec (s.ctx c) p.channel = none → exec i s = .next s1) ∧
    ∀ r, streamRec (s.ctx c) p.channel = some r →
      (((fabricEnds r).find? fun e => endPeer (s.ctx c) e.2 = some p.src) = none → exec i s = .next s1) ∧
      ∀ k e, ((fabricEnds r).find? fun e => endPeer (s.ctx c) e.2 = some p.src) = some (k, e) →
        (p.operand = 0 → p.payload = checkPayload r → Answers i s fun t =>
          ((t.stream c p.channel).end' k).started = true ∧
          ((t.stream c p.channel).end' k).credit =
            if k = farEnd then ((s.stream c p.channel).end' k).credit else r.capacity) ∧
        (p.operand = 0 → p.payload ≠ checkPayload r → exec i s = .next (fabricMismatch s1 c r k)) ∧
        (p.operand ≠ 0 → k ≠ farEnd → exec i s = .next s1) ∧
        (p.operand ≠ 0 → k = farEnd →
          let ws := payloadWords p.payload (p.operand % 32)
          let x := s.stream c p.channel
          let dest := if r.fanout = 2 then x.turn else 0
          Answers i s (fun t => ((t.stream c p.channel).end' farEnd).held = (x.end' farEnd).held + p.operand % 32) ∧
          (r.fanout < 2 ∨ r.fanout = 2 ∧ (∀ w ∈ ws.dropLast, w.last = false) → Answers i s fun t =>
            (∀ n, n < r.consumers.length → queue r (t.stream c p.channel) n =
              queue r x n ++ (if r.fanout = 1 ∨ n = dest then ws else [])) ∧
            (t.stream c p.channel).turn = (if r.fanout = 2 ∧ (ws.getLast?.any fun w => w.last)
              then (x.turn + 1) % r.consumers.length else x.turn)) ∧
          (r.fanout = 3 → (∀ w ∈ ws, w.last = false) → Answers i s fun t =>
            (t.stream c p.channel).got = x.got ++ ws))
  (∀ (s s1 : State) (h c : Nat) (p : Pkt), h < 16 → takeFor s h 0 = (s1, some (p, c)) → arrives (.stream h) s s1 p c) ∧
  (∀ (s s1 : State) (h c : Nat) (p : Pkt), h < 16 → takeFor s h 6 = (s1, some (p, c)) → p.channel ≠ treeChannel →
    (bit p.operand 23 = false → arrives (.collective h) s s1 p c) ∧
    (bit p.operand 23 = true → Answers (.collective h) s fun t =>
      t = forwardBroadcast s1 p c ∧ t.cores = s.cores ∧ t.mem.mem = s.mem.mem)) ∧
  (∀ (s s1 : State) (h c : Nat) (p : Pkt), h < 16 → takeFor s h 6 = (s1, some (p, c)) → p.channel = treeChannel →
    let l := (s.ctx c).led
    (payloadWords p.payload (p.operand % 32) = [] → exec (.collective h) s = .next s1) ∧
    ∀ w ws, payloadWords p.payload (p.operand % 32) = w :: ws →
      let d := THdr.parse w.bits
      (bit p.operand 23 = true → Answers (.collective h) s fun t => (t.ctx c).led =
        { l with commit := l.commit.map fun k => if k.c = d.sample then { k with answer := some d.use } else k }) ∧
      (bit p.operand 23 = false → accRank (s.ctx c) p.src = none → exec (.collective h) s = .next s1) ∧
      (bit p.operand 23 = false → ∀ r, accRank (s.ctx c) p.src = some r →
        let leaves := tset l.leaves r (d.sample, d.use)
        let live := (List.range l.ranks.length).filter fun r => !l.dropped.contains r
        let values (C : Nat) : List Nat := live.filterMap fun r => match tget leaves r with
          | some (C', v) => if C' = C then some v else none
          | none => none
        Answers (.collective h) s fun t => (t.ctx c).led = { l with
          leaves := leaves
          commit := l.commit.map fun k =>
            if commitRoot (s.ctx c) = (s.ctx c).rank.toNat ∧ k.answer = none ∧ (values k.c).length = live.length
            then { k with answer := some (((values k.c).find? (· ≠ 0)).getD 0) } else k })) ∧
  (∀ (s s1 : State) (h c : Nat) (p : Pkt), h < 16 → takeFor s h 1 = (s1, some (p, c)) →
    ((s.ctx c).image = none → exec (.credit h) s = .next s1) ∧
    ∀ im, (s.ctx c).image = some im → Answers (.credit h) s fun t =>
      let ends := (im.streams.zipIdx).flatMap fun e => (fabricEnds e.1).map fun k => (e.2, k.1, k.2)
      ∀ i k, ((t.stream c i).end' k).credit = ((s.stream c i).end' k).credit + p.operand * (ends.countP fun e =>
        decide (e.1 = i ∧ e.2.1 = k ∧ k ≠ farEnd) && decide (epPeerStream e.2.2 = p.channel) &&
          decide (endPeer (s.ctx c) e.2.2 = some p.src))) ∧
  (∀ (s : State) (h k : Nat) (i : Instr), h < 16 → (k, i) ∈ [(0, .stream h), (6, .collective h), (1, .credit h)] →
    (takePacket s h k = none → exec i s = .next s) ∧
    ∀ p s0, takePacket s h k = some (p, s0) →
      (jobCtx s p.job = none → Answers i s fun t => t.fab.remoteDenied = s.fab.remoteDenied + 1 ∧ t.mem = s.mem ∧
        t.ctxs = s.ctxs ∧ t.cores = s.cores ∧ t.fab.rx = s.fab.rx) ∧
      ((jobCtx s p.job).isSome = true → ∀ s1, acceptPacket s0 p = (s1, false) → exec i s = .next s1))

/-- MCAST, MCAST_SEND, LOAN, LOAN_DATA, NOTICE_LAGGED, NOTICE_DONE. A member writes each range at DEST + offset, in
order, and no other byte; a parent sends a child the next range it holds and detaches the children that lag beyond the
budget; a loan inside the granules of its JOB is answered, in turn, once its range is held, and any other is denied; a
lagging child borrows; a child's DONE is recorded, and a member that is done says so once. A command waits while a
tier it needs is away, and one for no session does nothing more (R376 to R378). -/
def Obligations.SessionsDeliverAndLend : Prop :=
  let finished (x : Session) : Bool :=
    x.doneSent || !(x.got < x.length || !x.verified || x.children.any fun k => !k.done)
  let answered (x : Session) (l : Loan) : Bool := decide (min (l.off + l.len) x.length ≤ x.got)
  let stored (s t : State) (a : Nat) (d : Blob) : Prop :=
    (∀ i, t.mem.mem.read i =
      if a ≤ i ∧ i < a + d.len then BitVec.ofNat 8 (d.val / 2 ^ (8 * (i - a))) else s.mem.mem.read i) ∧
    ∀ w, t.mem.mem.poisoned w = (s.mem.mem.poisoned w && !decide (a ≤ 128 * w ∧ 128 * w + 128 ≤ a + d.len))
  (∀ (s s1 : State) (h c : Nat) (p : Pkt), h < 16 → takeFor s h 7 = (s1, some (p, c)) →
    let n := p.operand % 65536
    let off := p.payload.bits 0 64
    let d := p.payload.slice 8 (p.payload.len - 8)
    (rangeStalls s (sessionRange s p).1 (sessionRange s p).2 = true → exec (.mcast h) s = .next s) ∧
    (rangeStalls s (sessionRange s p).1 (sessionRange s p).2 = false →
      (findSession s p.job n = none → exec (.mcast h) s = .next s1) ∧
      ∀ x, findSession s p.job n = some x →
        (off ≠ x.got ∨ x.length < off + d.len → exec (.mcast h) s = .next s1) ∧
        (off = x.got → off + d.len ≤ x.length → s.mem.mem.wf = true → Answers (.mcast h) s fun t =>
          stored s t (x.dest + off) d ∧
          let y : Session := { x with got := x.got + d.len }
          findSession t p.job n = some { y with
            loans := x.loans.dropWhile (answered y)
            doneSent := finished y } ∧
          t.fab.loansServed = s.fab.loansServed + BitVec.ofNat 32 (x.loans.takeWhile (answered y)).length))) ∧
  (∀ (s : State) (h : Nat), h < 16 → takePacket s h 7 = none → exec (.mcast h) s = .next s) ∧
  (∀ (s : State) (job : BitVec 32) (n k : Nat),
    (findSession s job n = none → exec (.mcastSend job n k) s = .next s) ∧
    ∀ x, findSession s job n = some x →
      (x.children[k]? = none → exec (.mcastSend job n k) s = .next s) ∧
      ∀ e, x.children[k]? = some e →
        let len := min rangeBytes (min x.got x.length - e.sent)
        let top := x.children.foldl (fun m c => if c.attached then max m c.sent else m) (e.sent + len)
        let room : Prop := ∀ u, findTx s e.acc job 0xFFD = some u → u.held.length < 64
        (e.attached = false ∨ len = 0 ∨ ¬ room ∨ rangeStalls s (x.dest + e.sent) len = true →
          exec (.mcastSend job n k) s = .next s) ∧
        (e.attached = true → len ≠ 0 → room → rangeStalls s (x.dest + e.sent) len = false →
          Answers (.mcastSend job n k) s fun t => t.mem.mem = s.mem.mem ∧
            ∃ y, findSession t job n = some y ∧ y.children[k]? = some { e with sent := e.sent + len } ∧ y.got = x.got ∧
            (∀ j f, j ≠ k → x.children[j]? = some f → y.children[j]? =
              some (if f.attached && decide (x.budget < top - f.sent) then { f with attached := false } else f)))) ∧
  (∀ (s s1 : State) (h : Nat) (p : Pkt), h < 16 → Delivered s h 8 p s1 →
    let n := p.operand % 65536
    let off := p.payload.bits 0 64
    let len := p.payload.bits 64 32
    let a := (sessionRange s p).1
    (rangeStalls s a (if a = 0 then 0 else len) = true → exec (.loan h) s = .next s) ∧
    (rangeStalls s a (if a = 0 then 0 else len) = false →
      (∀ v, n = 0xFFFF → (s.host.volumes.find? fun v => v.job = p.job) = some v → Answers (.loan h) s fun t =>
        t.fab.loansServed = s.fab.loansServed + 1 ∧ t.mem.mem = s.mem.mem) ∧
      (n = 0xFFFF → (s.host.volumes.find? fun v => v.job = p.job) = none → exec (.loan h) s = .next s1) ∧
      (n ≠ 0xFFFF → findSession s p.job n = none → exec (.loan h) s = .next s1) ∧
      ∀ x, n ≠ 0xFFFF → findSession s p.job n = some x →
        let y : Session := { x with loans := x.loans ++ [⟨p.src, off, len⟩] }
        (remoteOk s p.job (x.dest + off) (min len (x.length - off)) = false → Answers (.loan h) s fun t =>
          findSession t p.job n = some x ∧ t.fab.remoteDenied = s.fab.remoteDenied + 1 ∧ t.mem.mem = s.mem.mem) ∧
        (remoteOk s p.job (x.dest + off) (min len (x.length - off)) = true → Answers (.loan h) s fun t =>
          findSession t p.job n = some { x with loans := y.loans.dropWhile (answered x) } ∧
          t.fab.loansServed = s.fab.loansServed + BitVec.ofNat 32 (y.loans.takeWhile (answered x)).length ∧
          t.mem.mem = s.mem.mem))) ∧
  (∀ (s s1 : State) (h : Nat) (p : Pkt), h < 16 → Delivered s h 9 p s1 →
    let n := p.operand % 65536
    let off := p.payload.bits 0 64
    let d := p.payload.slice 8 (p.payload.len - 8)
    (rangeStalls s (sessionRange s p).1 (sessionRange s p).2 = true → exec (.loanData h) s = .next s) ∧
    (rangeStalls s (sessionRange s p).1 (sessionRange s p).2 = false →
      (n ≠ 0xFFFF → findSession s p.job n = none → exec (.loanData h) s = .next s1) ∧
      (∀ x, n ≠ 0xFFFF → findSession s p.job n = some x →
        (off = x.got → off + d.len ≤ x.length → s.mem.mem.wf = true → Answers (.loanData h) s fun t =>
          stored s t (x.dest + off) d ∧
          t.fab.loansTaken = s.fab.loansTaken +
            (if x.outstanding.any (fun o => o.1 + o.2 = off + d.len) then 1 else 0)) ∧
        (off ≠ x.got ∨ x.length < off + d.len → Answers (.loanData h) s fun t => t.mem.mem = s.mem.mem ∧
          (findSession t p.job n).map (·.got) = some x.got)) ∧
      (n = 0xFFFF → (s.fab.pulls.find? fun u => u.peer = p.src && u.job = p.job) = none →
        exec (.loanData h) s = .next s1) ∧
      ∀ u, n = 0xFFFF → (s.fab.pulls.find? fun u => u.peer = p.src && u.job = p.job) = some u →
        let i := off / loanBytes
        (tget u.out i = none → exec (.loanData h) s = .next s1) ∧
        ∀ b, tget u.out i = some b →
          let b' := Blob.append b d
          let total := if i = 0 ∧ u.headed = false then b'.bits 96 64 else (pullBlob u loanBytes).bits 96 64
          (off ≠ loanBytes * i + b.len → exec (.loanData h) s = .next s1) ∧
          (off = loanBytes * i + b.len → b'.len ≠ min loanBytes (total - loanBytes * i) →
            Answers (.loanData h) s fun t =>
            t.fab.pulls = s.fab.pulls.map (fun y => if y = u then { u with out := tset u.out i b' } else y) ∧
            t.fab.loansTaken = s.fab.loansTaken ∧ t.mem = s.mem) ∧
          (off = loanBytes * i + b.len → b'.len = min loanBytes (total - loanBytes * i) →
            Answers (.loanData h) s fun t =>
            t.fab.loansTaken = s.fab.loansTaken + 1 ∧ t.mem = s.mem))) ∧
  (∀ (s : State) (h : Nat), h < 16 →
    (takePacket s h 8 = none → exec (.loan h) s = .next s) ∧ (takePacket s h 9 = none →
      exec (.loanData h) s = .next s) ∧
    (∀ s1, takeNotice s h 1 = (s1, none) → exec (.noticeLagged h) s = .next s1) ∧
    ∀ s1, takeNotice s h 2 = (s1, none) → exec (.noticeDone h) s = .next (campaignSettle s1)) ∧
  (∀ (s s1 : State) (h : Nat) (p : Pkt), h < 16 → takeNotice s h 1 = (s1, some p) →
    (findSession s p.job (p.operand % 65536) = none → exec (.noticeLagged h) s = .next s1) ∧
    ∀ x, findSession s p.job (p.operand % 65536) = some x → Answers (.noticeLagged h) s fun t =>
      ∃ y, findSession t p.job (p.operand % 65536) = some y ∧ y.borrowing = true ∧ p.payload.bits 0 64 ≤ y.borrow ∧
        y.got = x.got ∧ t.mem = s.mem) ∧
  (∀ (s s1 : State) (h : Nat) (p : Pkt), h < 16 → takeNotice s h 2 = (s1, some p) →
    (findSession s p.job (p.operand % 65536) = none → exec (.noticeDone h) s = .next (campaignSettle s1)) ∧
    ∀ x, findSession s p.job (p.operand % 65536) = some x → Answers (.noticeDone h) s fun t =>
      let told (k : McastChild) : McastChild := if k.acc = p.src then { k with done := true } else k
      let y : Session := { x with children := x.children.map told }
      findSession t p.job (p.operand % 65536) = some { y with doneSent := finished y })

/-- ETH_FRAME, SEGMENT_OPEN, SEGMENT_DATA, SAMPLE, EXPORT_ACK, EXPORT_RESEND. What the decoder of a frame corrected or
could not is counted; on an Ethernet link the frame is dropped, pauses or resumes sending, teaches an address, asks
for the device's own, or brings a segment for a session of the link, which a relaying rank passes on. OPEN sets the
next byte expected; DATA is accepted in order, while it fits and when its tag agrees, and else discarded and counted;
a relay remembers whom it serves; an export advances with its acknowledgements and is sent again from the acknowledged
byte (R343, R379 to R384). -/
def Obligations.SegmentsAndExports : Prop :=
  (∀ (s : State) (h : Nat) (f : Blob) (fec : Fec) (lapsed : Bool), h < 16 →
    let i := Instr.ethFrame h f fec lapsed
    let u := countFec (if lapsed then ethResume s h else s) h fec
    let dropped : State := u.modLinkCtr h fun k => { k with ethDropped := k.ethDropped + 1 }
    Answers i s (fun t =>
      (t.link h).ctr.fecCorrected = (s.link h).ctr.fecCorrected + BitVec.ofNat 48 fec.corrected ∧
      (t.link h).ctr.fecUncorrectable = (s.link h).ctr.fecUncorrectable + BitVec.ofNat 48 fec.uncorrectable) ∧
    ((u.link h).st ≠ .ethUp → exec i s = .next u) ∧
    ((u.link h).st = .ethUp →
      (fec.touched = true → exec i s = .next dropped) ∧
      (fec.touched = false →
        (classify u h f = .drop → exec i s = .next dropped) ∧
        (∀ n, classify u h f = .pfc n → Answers i s fun t =>
          (t.link h).ctr.ethIn = (u.link h).ctr.ethIn + 1 ∧ (t.link h).ctr.pfc = (u.link h).ctr.pfc + 1 ∧
          (n ≠ 0 → (t.link h).paused = true ∧ (t.link h).ethHeld = (u.link h).ethHeld ∧
            (t.link h).eth = (u.link h).eth) ∧
          (n = 0 → (t.link h).paused = false ∧ (t.link h).ethHeld = [] ∧
            (t.link h).eth = (u.link h).eth ++ (u.link h).ethHeld)) ∧
        (∀ ip mac, classify u h f = .tell ip mac ∨ classify u h f = .ask ip mac → Answers i s fun t =>
          (t.link h).ctr.ethIn = (u.link h).ctr.ethIn + 1 ∧ (t.link h).arp.getLast? = some (ip, mac) ∧
          (classify u h f = .ask ip mac →
            (if (u.link h).paused then (t.link h).ethHeld else (t.link h).eth).getLast? = some (.answer ip mac))) ∧
        ∀ ip port d, classify u h f = .udp ip port d →
          let len := d.bits 160 16
          let entry := findEntry u fun x e => entryKind x e < 2 && entryLink x e = h &&
            entrySession x e = d.bits 32 32 &&
            entryAddress x e = ip && entryPort x e = port
          let server (x : Ctx) := u.fab.relays.find? fun r => r.1 = x.job && r.2.1 = d.bits 32 32
          (d.len < 32 + len ∨ d.bits 0 16 ≠ 0x5153 ∨ 5 < d.bits 16 4 ∨ entry = none → exec i s = .next dropped) ∧
          (32 + len ≤ d.len → d.bits 0 16 = 0x5153 → d.bits 16 4 ≤ 5 → ∀ c e, entry = some (c, e) →
            let x := u.ctx c
            (relays x (d.bits 32 32) = true → server x = none ∨ 4096 < 32 + len → exec i s = .next dropped) ∧
            (∀ j n a, relays x (d.bits 32 32) = true → server x = some (j, n, a) → 32 + len ≤ 4096 → exec i s =
              .next ((sendPacket u a x.job 0xFFE 0xA 0 (d.slice 0 (32 + len))).modLinkCtr h fun k =>
                { k with ethIn := k.ethIn + 1 })) ∧
            (relays x (d.bits 32 32) = false → d.bits 16 4 ∉ [0, 1, 5] → exec i s = .next dropped) ∧
            (relays x (d.bits 32 32) = false → d.bits 16 4 ∈ [0, 1, 5] → Answers i s fun t =>
              t.fab.segs = u.fab.segs ++ [⟨h, c, e, BitVec.ofNat 256 (d.bits 0 256), d.slice 32 len⟩] ∧
              (t.link h).ctr.ethIn = (u.link h).ctr.ethIn + 1))))) ∧
  (∀ (s : State) (src : Nat), src < 16 →
    ((s.fab.segs.find? fun g => g.src = src && g.typ = 0) = none → exec (.segmentOpen src) s = .next s) ∧
    ((s.fab.segs.find? fun g => g.src = src && g.typ = 1) = none → exec (.segmentData src) s = .next s) ∧
    ((s.fab.segs.find? fun g => g.src = src && g.typ = 5) = none → exec (.exportAck src) s = .next s)) ∧
  (∀ (s : State) (src : Nat) (g : Seg), src < 16 → (s.fab.segs.find? fun g => g.src = src && g.typ = 0) = some g →
    Answers (.segmentOpen src) s fun t => t.fab.segs = s.fab.segs.erase g ∧
      (t.ctx g.ctx).sessions = if entryExport (s.ctx g.ctx) g.entry then (s.ctx g.ctx).sessions
        else tset (s.ctx g.ctx).sessions g.entry ⟨g.seqNo, g.ackNo, Blob.empty, 0⟩) ∧
  (∀ (s : State) (src : Nat) (g : Seg), src < 16 → (s.fab.segs.find? fun g => g.src = src && g.typ = 1) = some g →
    let discarded : Prop := Answers (.segmentData src) s fun t =>
      (t.ctx g.ctx).sessions = (s.ctx g.ctx).sessions ∧ t.fab.segs = s.fab.segs.erase g ∧
      (t.link src).ctr.outOfOrder = (s.link src).ctr.outOfOrder + 1
    (tget (s.ctx g.ctx).sessions g.entry = none → discarded) ∧
    ∀ x, tget (s.ctx g.ctx).sessions g.entry = some x →
      (segPlain s g x = none → discarded) ∧
      ∀ d, segPlain s g x = some d →
        let next := (x.next + d.len) % 2 ^ 32
        let y : LoadSession := { x with
          next := next, wrap := x.wrap + (if next < x.next then 1 else 0), buf := Blob.append x.buf d, since :=
            (x.since + 1) % 8 }
        (g.seqNo ≠ x.next ∨ 2 ^ 20 < y.held → discarded) ∧
        (g.seqNo = x.next → y.held ≤ 2 ^ 20 → Answers (.segmentData src) s fun t =>
          (t.ctx g.ctx).sessions = tset (s.ctx g.ctx).sessions g.entry y ∧ t.fab.segs = s.fab.segs.erase g ∧
          (t.link src).ctr.outOfOrder = (s.link src).ctr.outOfOrder)) ∧
  (∀ (s : State) (h : Nat), h < 16 → (takePacket s h 0xA = none → exec (.sample h) s = .next s) ∧
    ∀ p s0 s1, takePacket s h 0xA = some (p, s0) → acceptPacket s0 p = (s1, false) → exec (.sample h) s = .next s1) ∧
  (∀ (s s1 : State) (h : Nat) (p : Pkt), h < 16 → Delivered s h 0xA p s1 →
    let d := p.payload
    (jobCtx s p.job = none → exec (.sample h) s = .next s1) ∧
    ∀ c, jobCtx s p.job = some c →
      let x := s.ctx c
      let entry := (List.range (entryCount x)).find? fun e => entryKind x e = 2 && entrySession x e = d.bits 32 32 &&
        rankAcc x (entryPeer x e) = some p.src
      (relays x (d.bits 32 32) = true → Answers (.sample h) s fun t =>
        t.fab.relays = (s.fab.relays.filter fun r => !(r.1 = p.job && r.2.1 = d.bits 32 32)) ++
          [(p.job, d.bits 32 32, p.src)] ∧ t.fab.segs = s.fab.segs) ∧
      (relays x (d.bits 32 32) = false → entry = none → exec (.sample h) s = .next s1) ∧
      (∀ e, relays x (d.bits 32 32) = false → entry = some e → Answers (.sample h) s fun t =>
        t.fab.segs = s.fab.segs ++
          [⟨h, c, e, BitVec.ofNat 256 (d.bits 0 256), d.slice 32 (min (d.bits 160 16) (d.len - 32))⟩])) ∧
  (∀ (s : State) (src : Nat) (g : Seg), src < 16 → (s.fab.segs.find? fun g => g.src = src && g.typ = 5) = some g →
    ((s.ctx g.ctx).exporting = none ∨ g.entry ≠ exportEntry (s.ctx g.ctx) → Answers (.exportAck src) s fun t =>
      t.fab.segs = s.fab.segs.erase g ∧ t.ctxs = s.ctxs) ∧
    ∀ r, (s.ctx g.ctx).exporting = some r → g.entry = exportEntry (s.ctx g.ctx) →
      let d := (g.ackNo + 2 ^ 32 - r.acked % 2 ^ 32) % 2 ^ 32
      (r.sent < r.acked + d → Answers (.exportAck src) s fun t =>
        t.fab.segs = s.fab.segs.erase g ∧ t.ctxs = s.ctxs) ∧
      (r.acked + d ≤ r.sent → r.acked + d ≠ r.data.len → Answers (.exportAck src) s fun t =>
        ((t.ctx g.ctx).exporting.map fun y => (y.data, y.acked)) = some (r.data, r.acked + d) ∧
        (t.ctx g.ctx).led.exports = (s.ctx g.ctx).led.exports) ∧
      (r.acked + d ≤ r.sent → r.acked + d = r.data.len → Answers (.exportAck src) s fun t =>
        (t.ctx g.ctx).exporting = none ∧ (t.ctx g.ctx).led.exports = (s.ctx g.ctx).led.exports + 1)) ∧
  (∀ (s : State) (c : Nat), c < nCtx →
    ((s.ctx c).exporting = none → exec (.exportResend c) s = .next s) ∧
    ∀ r, (s.ctx c).exporting = some r → Answers (.exportResend c) s fun t =>
      ((t.ctx c).exporting.map fun y => (y.data, y.acked)) = some (r.data, r.acked) ∧
      (r.acked ≤ r.sent → r.sent ≤ r.data.len → (t.ctx c).exporting = some r))

/-- COMMIT_START, SNAPSHOT_DONE, PARITY_COMPUTE, COPY_OBJECT, COMMIT_RECORD_WRITE, COMMIT_LEAF, SEALED, COMMIT_FAILED.
A commit goes into the slot that does not hold the last sealed one, digests every owned object, gathers what is
durable, and puts 0.0 into its leaf only when all of it is; SEALED makes it C_s and COMMIT_FAILED leaves the old one.
Each command waits while what it needs is not there (R393 to R405). -/
def Obligations.CommitsAreSealed : Prop :=
  (∀ (s : State) (c : Nat), c < nCtx →
    let x := s.ctx c
    let i := Instr.commitStart c
    let objects := objectsOf x.plan x.rank.toNat
    (x.led.waiting = none ∨ commitBlocked x = true ∨ (x.led.st ≠ .running ∧ x.led.st ≠ .committing) ∨
      snapshotStalls s x = true → exec i s = .next s) ∧
    ∀ C, x.led.waiting = some C → commitBlocked x = false → x.led.st = .running ∨ x.led.st = .committing →
      snapshotStalls s x = false →
      Answers i s (fun t => (t.ctx c).led.waiting = none ∧ (t.ctx c).led.st = .committing ∧
        ∃ k, (t.ctx c).led.commit = some k ∧ k.c = C ∧ k.slot = 1 - x.led.sealedSlot % 2 ∧ k.leaf = x.led.point.leaf ∧
          k.layers = x.led.point.layers ∧ k.batches = x.led.point.batches ∧ k.monitor = x.led.point.monitor ∧
          (x.led.point.cause ≠ 0 → k.cause = x.led.point.cause) ∧ ∀ o ∈ objects, (tget k.digests o).isSome = true) ∧
      (s.mem.mem.wf = true →
        (∀ o ∈ objects, 0 < objBytes x.plan o ∧ ∀ b, objAddr x.plan o ≤ b →
          b < objAddr x.plan o + objBytes x.plan o → ∀ off,
          ledgerAddr s x.job off ≠ b) → Answers i s fun t => ∃ k, (t.ctx c).led.commit = some k ∧
        (∀ o ∈ objects, tget k.digests o = some (sm3 (memRead s (objAddr x.plan o) (objBytes x.plan o)))) ∧
        (x.led.point.cause = 0 → (∀ o ∈ objects, objLayer x.plan o = 0xFFFF) →
          ((∃ o ∈ objects, s.mem.mem.poisonedRange (objAddr x.plan o) (objBytes x.plan o) = true) → k.cause = 1) ∧
          (x.led.taps = [] → (∀ o ∈ objects, s.mem.mem.poisonedRange (objAddr x.plan o) (objBytes x.plan o) = false) →
            k.cause = 0)))) ∧
  (∀ (s : State) (c : Nat), c < nCtx →
    ((s.ctx c).led.commit = none → exec (.snapshotDone c) s = .next s) ∧
    ∀ k, (s.ctx c).led.commit = some k →
      (ownDurable s (s.ctx c) k = false → exec (.snapshotDone c) s = .next s) ∧
      (ownDurable s (s.ctx c) k = true → Answers (.snapshotDone c) s fun t =>
        (t.ctx c).led = { (s.ctx c).led with commit := some { k with snapDone := true } } ∧ t.mem = s.mem)) ∧
  ((∀ (s : State) (c g : Nat), c < nCtx →
    let x := s.ctx c
    let i := Instr.parityCompute c g
    let need (r : Nat) : Nat := sumBytes x.plan (parityObjects x r)
    let ms := groupMembers x.plan g
    let mine := (heldParity x.plan x.rank.toNat).filter fun h => h.1 = g
    (x.led.commit = none ∨ mine = [] ∨ ledgerStalls s x.job = true → exec i s = .next s) ∧
    ∀ k, x.led.commit = some k → mine ≠ [] → ledgerStalls s x.job = false →
      ((∀ r ∈ ms, r ∈ x.led.dropped ∨ (tgetD x.led.reads r Blob.empty).len = need r) → Answers i s fun t =>
        t.mem = (mine.foldl (fun u h => ledgerWrite u x.job (parityOff x k.slot h) (parityOf h.2 (parityLen x g)
          (ms.map fun r => if x.led.dropped.contains r then Blob.empty else tgetD x.led.reads r Blob.empty))) s).mem ∧
        (t.ctx c).led = { x.led with commit := some { k with parity := k.parity ++ [g] }
                                     reads := x.led.reads.filter fun e => !ms.contains e.1 }) ∧
      (∀ r, r ∈ ms → r ∉ x.led.dropped → (tgetD x.led.reads r Blob.empty).len ≠ need r → Answers i s fun t =>
        ((rankAcc x r).isSome = true → (tget (t.ctx c).led.reads r).isSome = true) ∧
          (t.ctx c).led.commit = some k ∧ t.mem.mem = s.mem.mem)) ∧
   (∀ (len j : Nat) (ds : List Blob), j < len →
    (parityOf false len ds).byte j = ds.foldl (fun v d => Nat.xor v (d.byte j)) 0)) ∧
  (∀ (s : State) (c i : Nat), c < nCtx →
    let x := s.ctx c
    let partner := (tget x.led.partners i).bind (rankAcc x)
    (x.led.commit = none ∨ partner = none → exec (.copyObject c i) s = .next s) ∧
    ∀ k a, x.led.commit = some k → partner = some a →
      (objIsCopy x.plan i = false ∨ objOwner x.plan i ≠ x.rank.toNat ∨ k.snapDone = false ∨ i ∈ k.copied ∨
        ledgerStalls s x.job = true → exec (.copyObject c i) s = .next s) ∧
      (objIsCopy x.plan i = true → objOwner x.plan i = x.rank.toNat → k.snapDone = true → i ∉ k.copied →
        ledgerStalls s x.job = false → Answers (.copyObject c i) s fun t =>
          (t.ctx c).led.commit = some { k with copied := k.copied ++ [i] } ∧ t.mem = s.mem)) ∧
  (∀ (s : State) (c : Nat), c < nCtx →
    let x := s.ctx c
    (x.led.commit = none → exec (.commitRecordWrite c) s = .next s) ∧
    ∀ k, x.led.commit = some k →
      (k.snapDone = false ∨ k.record.isSome = true ∨ ledgerStalls s x.job = true →
        exec (.commitRecordWrite c) s = .next s) ∧
      (k.snapDone = true → k.record = none → ledgerStalls s x.job = false → Answers (.commitRecordWrite c) s fun t =>
        ∃ b, (t.ctx c).led.commit = some { k with record := some b } ∧
          b.bits 0 32 = x.job.toNat ∧ b.bits 32 32 = k.c % 2 ^ 32 ∧ b.bits 64 14 = x.rank.toNat ∧
          b.bits (8 * (b.len - 32)) 256 = (sm3 (b.slice 0 (b.len - 32))).toNat ∧
          t.mem = (ledgerWrite s x.job (recordOff x k.slot) b).mem)) ∧
  (∀ (s : State) (c : Nat), c < nCtx →
    let x := s.ctx c
    let leaf (k : Commit) (n : Nat) : State → Prop := fun t => ∃ a,
      (t.ctx c).led.commit = some { k with leaf := some n, cause := n, answer := a } ∧
      (commitRoot x ≠ x.rank.toNat → a = k.answer)
    (x.led.commit = none → exec (.commitLeaf c) s = .next s) ∧
    ∀ k, x.led.commit = some k →
      (k.leaf.isSome = true → exec (.commitLeaf c) s = .next s) ∧
      (k.leaf = none →
        (k.cause ≠ 0 → Answers (.commitLeaf c) s (leaf k k.cause)) ∧
        (k.cause = 0 → (∃ i ∈ wardObjects x, copyVerdict x k i = some false) → Answers (.commitLeaf c) s (leaf k 4)) ∧
        (k.cause = 0 → (∀ i ∈ wardObjects x, copyVerdict x k i ≠ some false) →
          let all : Prop := k.snapDone = true ∧ k.record.isSome = true ∧ (∀ i ∈ wardObjects x,
            copyVerdict x k i = some true) ∧
            (∀ h ∈ heldParity x.plan x.rank.toNat, h.1 ∈ k.parity) ∧
            ledgerDurable s x.job (slotOff x k.slot) (slotBytes x) = true
          (all → Answers (.commitLeaf c) s (leaf k 0)) ∧ (¬ all → exec (.commitLeaf c) s = .next s)))) ∧
  (∀ (x : Ctx) (k : Commit) (i : Nat) (d w : BitVec 256) (v : BitVec 32) (b : Blob),
    tget x.led.copies (2 * i + k.slot) = some d → tget x.led.wards (objOwner x.plan i) = some b → b.bits 32 32 = k.c →
    recordObject b i = some (w, v) → (copyVerdict x k i = some true ↔ d = w) ∧
      (copyVerdict x k i = some false ↔ d ≠ w)) ∧
  (∀ (s : State) (c : Nat), c < nCtx →
    ((s.ctx c).led.commit = none → exec (.sealed c) s = .next s) ∧
    ∀ k, (s.ctx c).led.commit = some k →
      (k.leaf ≠ some 0 ∨ k.answer.getD 0 ≠ 0 → exec (.sealed c) s = .next s) ∧
      (k.leaf = some 0 → k.answer.getD 0 = 0 → Answers (.sealed c) s fun t =>
        (t.ctx c).led.st = .running ∧ (t.ctx c).led.commit = none ∧ (t.ctx c).led.lastSealed = BitVec.ofNat 32 k.c ∧
        (t.ctx c).led.sealedSlot = k.slot ∧ (t.ctx c).led.sealed' = (s.ctx c).led.sealed' + 1 ∧
        (t.ctx c).led.sealedPartners = (s.ctx c).led.partners ∧
        (t.ctx c).tC = k.layers.foldl (fun m e => tset m e.1 e.2) (s.ctx c).tC ∧
        ⟨(s.ctx c).job, (s.ctx c).rank.toNat, k.slot, BitVec.ofNat 32 k.c⟩ ∈ t.ledger.jobs ∧
        t.ledger.generation = s.ledger.generation + 1)) ∧
  (∀ (s : State) (c cause rank : Nat), c < nCtx →
    ((s.ctx c).led.commit = none → exec (.commitFailed c cause rank) s = .next s) ∧
    ∀ k, (s.ctx c).led.commit = some k →
      (k.answer = some 0 → exec (.commitFailed c cause rank) s = .next s) ∧
      (k.answer ≠ some 0 → Answers (.commitFailed c cause rank) s fun t => t.mem = s.mem ∧
        (t.ctx c).led = { (s.ctx c).led with
          copies := (s.ctx c).led.copies.filter fun e => e.1 % 2 ≠ k.slot
          got := (s.ctx c).led.got.filter fun e => e.1 % 2 ≠ k.slot
          st := .running, commit := none, failed := (s.ctx c).led.failed + 1
          lastFail := BitVec.ofNat 18 (cause % 16 + 16 * (rank % 2 ^ 14)) }))

/-- LOST, FAULT, HALT, BIND, BIND_ACK. The coordinator drops a rank where it may and else recovers under a new
RECOVERY_SEQ with every failure known, halting the job once its retries are spent; a failure known already starts
nothing. The spare picked is the eligible one nearest to the anchor, then of the lowest accession number. HALT stops
every stage of the context; a spare takes the plan's granules and the rank or refuses; a refusal is not offered again.
Each command without its record, or with one of an older RECOVERY_SEQ, changes nothing else (R408 to R411, R416,
R420). -/
def Obligations.RecoveriesBegin : Prop :=
  (∀ (s : State) (c r : Nat) (tried : List Nat),
    let x := s.ctx c
    let may (a : Nat) : Prop := a ∈ planSpares x.plan ∧ spareEligible s x a = true ∧ a ∉ tried
    let hops (a : Nat) : Nat := ((anchorOf x r).bind fun b => if a = b then some 0 else hopsBetween s b a).getD 100
    (chooseSpare s c r tried = none ↔ ∀ a, ¬ may a) ∧
    ∀ a, chooseSpare s c r tried = some a →
      may a ∧ ∀ b, may b → hops a < hops b ∨ hops a = hops b ∧ a ≤ b) ∧
  (∀ (s s1 : State) (m : Option Ctrl) (c : Nat), c < nCtx → takeMail s c 1 = (s1, m) →
    let x := s1.ctx c
    (m = none → exec (.lost c) s = .next s1) ∧
    ∀ k, m = some k →
      let known : Prop := k.rank ∈ x.led.dropped ∨ ∃ v, x.led.recovery = some v ∧ k.rank ∈ v.unbound
      (known → exec (.lost c) s = .next s1) ∧
      (¬ known →
        (mayDrop s1 c k.rank = true → Answers (.lost c) s fun t =>
          (∀ r a, r ∈ liveRanks x → rankAcc x r = some a →
            (a, { typ := 9, seq := x.led.seq, src := x.rank.toNat, rank := k.rank }) ∈ (t.ctx c).led.sent) ∧
          (t.ctx c).led.recovery = x.led.recovery ∧ (t.ctx c).led.seq = x.led.seq ∧ (t.ctx c).led.st = x.led.st ∧
          t.mem = s1.mem ∧ t.cores = s1.cores) ∧
        (mayDrop s1 c k.rank = false → Answers (.lost c) s (Restarted s1 c [k.rank] [])))) ∧
  (∀ (s s1 : State) (m : Option Ctrl) (c : Nat), c < nCtx → takeMail s c 2 = (s1, m) →
    (m = none → exec (.fault c) s = .next s1) ∧
    ∀ k, m = some k → Answers (.fault c) s (Restarted s1 c [] (if k.arg = 1 then [] else [k.rank]))) ∧
  (∀ (s s1 : State) (m : Option Ctrl) (c : Nat), c < nCtx → takeMail s c 3 = (s1, m) →
    let old := (s.ctx c).led
    (m = none → exec (.halt c) s = .next s1) ∧
    ∀ k s2 b, m = some k → heed s1 c k = (s2, b) →
      let led := (s2.ctx c).led
      let idle : Prop := old.st = .none ∨ old.st = .standby ∨
        old.st = .recovering ∧ old.seq = led.seq ∧ old.heard = some k.src ∧ old.recovery = none
      let stays : Prop := old.st = .halted ∧ old.seq = led.seq
      (b = false ∨ idle → exec (.halt c) s = .next s2) ∧
      (b = true → ¬ idle → Answers (.halt c) s fun t =>
        (stays → (t.ctx c).led.st = .halted ∧ (t.ctx c).lastEvent = (s2.ctx c).lastEvent) ∧
        (¬ stays → (t.ctx c).led.st = .recovering ∧ (t.ctx c).lastEvent = .recovering) ∧
        (t.ctx c).led.commit = none ∧ (t.ctx c).led.waiting = none ∧ (t.ctx c).led.seq = led.seq ∧
        (t.ctx c).led.recoveries = led.recoveries + 1 ∧ (t.ctx c).led.recovery = led.recovery ∧
        (t.ctx c).streams = [] ∧
        (∀ n ∈ coresOf s c, (t.core n).stage.st = .stopped ∧ (t.core n).inp = []) ∧
        (∀ n, n ∉ coresOf s c → t.core n = s.core n))) ∧
  (∀ (s s1 : State) (m : Option Ctrl) (c : Nat), c < nCtx → takeMail s c 4 = (s1, m) →
    let x := s1.ctx c
    (m = none → exec (.bind c) s = .next s1) ∧
    ∀ k, m = some k →
      let ok (v : Volume) : Prop := volumeOf s1 x.job = some v ∧ x.st = .standby ∧ x.tear = none ∧
        s1.pins.resetRequested = false ∧ bindOk s1 c v k.rank = true
      (∀ v, ok v → Answers (.bind c) s fun t =>
        (t.ctx c).st = .creating ∧ (t.ctx c).rank = BitVec.ofNat 14 k.rank ∧ (t.ctx c).led.seq = k.seq ∧
        (∀ n ∈ planGranules (v.memPlan k.rank), (t.granule n).assigned = true ∧
          (t.granule n).context = BitVec.ofNat 4 c) ∧
        (∀ n, n ∉ planGranules (v.memPlan k.rank) → t.granule n = s.granule n) ∧
        ∀ a, rankAcc x k.src = some a →
          (a, { typ := 5, seq := k.seq, src := k.rank % 2 ^ 14, rank := k.rank, acc := s1.fab.acc, arg := 1 }) ∈
            (t.ctx c).led.sent) ∧
      ((∀ v, ¬ ok v) → Answers (.bind c) s fun t =>
        (t.ctx c).st = x.st ∧ (t.ctx c).rank = x.rank ∧ (t.ctx c).led.seq = k.seq ∧ t.mem = s.mem ∧
        ∀ a, rankAcc x k.src = some a →
          (a, { typ := 5, seq := k.seq, src := x.rank.toNat, rank := k.rank, acc := s1.fab.acc }) ∈
            (t.ctx c).led.sent)) ∧
  (∀ (s s1 : State) (m : Option Ctrl) (c : Nat), c < nCtx → takeMail s c 5 = (s1, m) →
    let x := s1.ctx c
    (m = none ∨ x.led.recovery = none → exec (.bindAck c) s = .next s1) ∧
    ∀ k v, m = some k → x.led.recovery = some v →
      let rebind : Ctrl :=
        { typ := 6, seq := x.led.seq, src := x.rank.toNat, rank := k.rank, acc := k.acc, step :=
          x.led.lastSealed.toNat }
      let told (t : State) : Prop := (k.acc, rebind) ∈ (t.ctx c).led.sent
      let kept (t : State) : Prop := (t.ctx c).led.seq = x.led.seq ∧ t.mem = s1.mem
      (v.offered ≠ some k.acc → exec (.bindAck c) s = .next s1) ∧
      (v.offered = some k.acc →
        (k.arg ≠ 1 → Answers (.bindAck c) s fun t =>
          Offered s1 c { v with tried := v.tried ++ [k.acc], offered := none } t ∧ kept t) ∧
        (k.arg = 1 → v.rejoin = false → Answers (.bindAck c) s fun t =>
          told t ∧ (∀ r a, r ∈ liveRanks x → rankAcc x r = some a → (a, rebind) ∈ (t.ctx c).led.sent) ∧
          Offered s1 c { v with unbound := v.unbound.drop 1, tried := [], offered := none } t ∧ kept t) ∧
        (k.arg = 1 → v.rejoin = true → Answers (.bindAck c) s fun t =>
          told t ∧ (t.ctx c).led.joining = some (k.rank, k.acc) ∧ (t.ctx c).led.recovery = none ∧ kept t)))

/-- REBIND, RESTORE_DONE, RESTORED, RESUME, DROP, RELEASE_RECORD, JOIN. A rank moves to another device and its old
connections close, and the spare that takes it loads the rank's image; an object is restored from the first source
whose digest matches and RESTORED answers; RESUME goes on from C_s once every rank has answered; a rank dropped may
join again; a former device releases its granules. A record of a lower rank is heard before one of a higher rank, and
each command without its record changes nothing else (R408, R410, R412 to R415, R417, R418, R421, R422). -/
def Obligations.RecoveriesEnd : Prop :=
  (∀ (s s1 : State) (c : Nat) (k : Ctrl) (b : Bool), heed s c k = (s1, b) →
    let l := (s.ctx c).led
    (b = false ↔ k.seq ≤ l.seq ∧ ∃ h, l.heard = some h ∧ h < k.src) ∧ (b = false → s1 = s) ∧
    (b = true → (l.seq < k.seq ∨ l.heard = none → (s1.ctx c).led.seq = k.seq) ∧ (s1.ctx c).led.heard = some k.src ∧
      (k.src < (s.ctx c).rank.toNat → (s1.ctx c).led.recovery = none ∧ (s1.ctx c).led.coordinator = false) ∧
      ((s.ctx c).rank.toNat ≤ k.src → (s1.ctx c).led.recovery = l.recovery ∧
        (s1.ctx c).led.coordinator = l.coordinator))) ∧
  (∀ (s s1 : State) (m : Option Ctrl) (c : Nat) (st : Tbl (List Nat)), c < nCtx → takeMail s c 6 = (s1, m) →
    (m = none → exec (.rebind c st) s = .next s1) ∧
    ∀ k s2 b, m = some k → heed s1 c k = (s2, b) →
      let x := s2.ctx c
      let spare : Prop := k.acc = s2.fab.acc ∧ x.standby = true ∧ x.rank.toNat = k.rank ∧ x.st = .creating
      let moved (t : State) : Prop := (t.ctx c).led.ranks = x.led.ranks.set k.rank k.acc ∧
        (t.ctx c).led.rebinds = x.led.rebinds + 1 ∧ (t.ctx c).led.rebound = true
      let sealedAt (t : State) : Prop := (t.ctx c).led.st = .recovering ∧ (t.ctx c).led.adopting = true ∧
        (t.ctx c).led.lastSealed = BitVec.ofNat 32 k.step ∧ (t.ctx c).led.hasSealed = true ∧
          (t.ctx c).led.sealedSlot = 0
      (b = false → exec (.rebind c st) s = .next s2) ∧
      (b = true → ¬ spare → Answers (.rebind c st) s fun t => moved t ∧ (t.ctx c).led.st = x.led.st ∧ t.mem = s2.mem ∧
        ∀ old, rankAcc x k.rank = some old → old ≠ k.acc → (t.ctx c).led.former = x.led.former ++ [old] ∧
          (∀ q ∈ t.fab.tx, q.peer ≠ old) ∧ ∀ q ∈ t.fab.rx, q.peer ≠ old) ∧
      (b = true → spare →
        (volumeOf s2 x.job = none → Answers (.rebind c st) s fun t => moved t ∧ sealedAt t ∧ t.mem = s2.mem) ∧
        ∀ v, volumeOf s2 x.job = some v → ∃ u, moved u ∧ sealedAt u ∧ (u.ctx c).led.queues = v.queuesOf x.rank.toNat ∧
          u.cores = s2.cores ∧
          (reserveLedger u c = none → Answers (.rebind c st) s fun t => moved t ∧ sealedAt t ∧ Restored u c 0xB t) ∧
          ∀ w, reserveLedger u c = some w →
            let L := loadInput w c (v.imageOf x.rank.toNat) st true
            (loadRefusal w c L ≠ none → Answers (.rebind c st) s fun t => moved t ∧ sealedAt t ∧ Restored w c 8 t) ∧
            (loadRefusal w c L = none → Answers (.rebind c st) s fun t =>
              (t.ctx c).image = some (parseImage L.img) ∧ (t.ctx c).rank = x.rank))) ∧
  (∀ (s : State) (c : Nat) (record : Blob) (data : Tbl (List Blob)) (copies images : Tbl Blob) (parity : List Blob),
    c < nCtx →
    let i : Instr := .restoreDone c record data copies images parity
    let x := s.ctx c
    let active : Prop := x.led.st = .recovering ∧ x.tear = none
    (¬ active ∨ x.st ≠ .free ∧ x.st ≠ .loaded → exec i s = .next s) ∧
    (active → x.st = .free →
      let gaveUp (t : State) : Prop := (t.ctx c).led.restoring = false ∧
        Told s c (coordinatorOf s c) { typ := 1, seq := 0, src := 0, rank := x.rank.toNat } t
      (volumeOf s x.job = none → Answers i s fun t => gaveUp t ∧ (t.ctx c).st = .free) ∧
      ∀ v, volumeOf s x.job = some v →
        let held : Prop := ∃ sh ∈ shelvesOf x.mask, ∃ d, shelfOwner s sh = some d ∧ d ≠ c
        let built := buildContext (s.modCtx c fun x => { x with st := .creating, step := {} }) c v x.rank.toNat true
        (held ∨ (∃ e, built = some (.error e)) → Answers i s fun t => gaveUp t ∧ (t.ctx c).st = .free) ∧
        (¬ held → built = none → exec i s = .next s) ∧
        (¬ held → ∀ s1, built = some (.ok s1) →
          let w := (match x.entry with | some e => stampEntry s1 e | none => s1).modCtx c fun y => { y with st :=
            .idle }
          let L := loadInput w c (v.imageOf x.rank.toNat) x.led.stripes true
          (loadRefusal w c L ≠ none → Answers i s fun t => gaveUp t ∧ (t.ctx c).st = .idle) ∧
          (loadRefusal w c L = none → Answers i s fun t => (t.ctx c).image = some (parseImage L.img) ∧
            (t.ctx c).rank = x.rank ∧ (t.ctx c).job = x.job ∧ (t.ctx c).mask = x.mask))) ∧
    (active → x.st = .loaded →
      let own := !x.led.adopting
      let r := if own then ownRecord' s c else record
      let objs := objectsOf x.plan x.rank.toNat
      let given (j : Nat) : List Blob := fromImage x r (ownImage' x r images parity) j ++ tgetD data j []
      let slot (j : Nat) : Blob := ledgerRead s x.job (ownOff x x.led.sealedSlot j) (objBytes x.plan j)
      let clean (j : Nat) : Prop := ledgerPoisoned s x.job (ownOff x x.led.sealedSlot j) (objBytes x.plan j) = false
      let from' (j : Nat) (b : Blob) : Prop :=
        ∃ d v, recordObject r j = some (d, v) ∧ b.len = objBytes x.plan j ∧ sm3 b = d
      (recordFor x r = false → Answers i s fun t => Restored s c 8 t ∧ t.mem = s.mem) ∧
      (recordFor x r = true →
        ((∀ j ∈ objs, ∃ b ∈ given j, from' j b) → Answers i s fun t => Restored s c 0 t ∧
          (t.ctx c).tC = recordSteps x r) ∧
        ((∃ j ∈ objs, recordObject r j = none ∨ own = false ∧ ∀ b ∈ given j, ¬ from' j b) → Answers i s fun t =>
          Restored s c 8 t) ∧
        (own = true → s.mem.mem.wf →
          (∀ j ∈ objs, clean j ∧ from' j (slot j) ∧
            ∀ a, objAddr x.plan j ≤ a → a < objAddr x.plan j + objBytes x.plan j → ∀ o, ledgerAddr s x.job o ≠ a) →
          Answers i s fun t => Restored s c 0 t ∧ (t.ctx c).tC = recordSteps x r ∧
            (t.ctx c).led.mismatches = x.led.mismatches) ∧
        ∀ j d v, objs = [j] → recordObject r j = some (d, v) →
          let src (l : List Blob) : Prop :=
            own = true ∧ clean j ∧ l = slot j :: given j ∨ ¬ (own = true ∧ clean j) ∧ l = given j
          (∀ l, src l → (∀ b ∈ l, ¬ from' j b) → Answers i s fun t => Restored s c 8 t ∧ t.mem = s.mem ∧
            (t.ctx c).led.mismatches = x.led.mismatches + BitVec.ofNat 32 l.length) ∧
          (∀ l b, src l → l.head? = some b → from' j b → Answers i s fun t => Restored s c 0 t ∧
            (objLayer x.plan j ≠ 0xFFFF → tget (t.ctx c).tC (objLayer x.plan j) = some v) ∧
            (own = true → updateLayers s c = [] → t.mem.mem =
              (ledgerWrite (memWrite s (objAddr x.plan j) b) x.job (ownOff x x.led.sealedSlot j) b).mem.mem))))) ∧
  (∀ (s s1 : State) (m : Option Ctrl) (c : Nat), c < nCtx → takeMail s c 7 = (s1, m) →
    let x := s1.ctx c
    (m = none → exec (.restored c) s = .next s1) ∧
    ∀ k, m = some k →
      (x.led.recovery = none → (∀ a, x.led.joining ≠ some (k.src, a)) → exec (.restored c) s = .next s1) ∧
      (∀ a, x.led.recovery = none → x.led.joining = some (k.src, a) → Answers (.restored c) s fun t =>
        (k.arg = 0 → (t.ctx c).led = { x.led with joinReady := true }) ∧
        (k.arg ≠ 0 → (t.ctx c).led = { x.led with joining := none }) ∧ t.mem = s1.mem) ∧
      ∀ v, x.led.recovery = some v →
        let answers := tset v.answers k.src k.arg
        let all : Prop := v.unbound = [] ∧ ∀ r ∈ liveRanks x, (tget answers r).isSome = true
        (v.rejoin = true → exec (.restored c) s = .next s1) ∧
        (v.rejoin = false →
          (k.arg ≠ 0 → Answers (.restored c) s fun t => HaltedJob c 8 x.unload t ∧ (t.ctx c).led.recovery = none) ∧
          (k.arg = 0 → all → Answers (.restored c) s fun t =>
            (t.ctx c).led.recovery = none ∧ (t.ctx c).led.coordinator = false ∧
            ∀ r a, r ∈ liveRanks x → rankAcc x r = some a →
              (a, { typ := 8, seq := x.led.seq, src := x.rank.toNat, step :=
                x.led.lastSealed.toNat }) ∈ (t.ctx c).led.sent) ∧
          (k.arg = 0 → ¬ all → Answers (.restored c) s fun t =>
            (t.ctx c).led = { x.led with recovery := some { v with answers := answers } } ∧ t.mem = s1.mem))) ∧
  (∀ (s s1 : State) (m : Option Ctrl) (c : Nat), c < nCtx → takeMail s c 8 = (s1, m) →
    (m = none → exec (.resume c) s = .next s1) ∧
    ∀ k s2 b, m = some k → heed s1 c k = (s2, b) →
      let x := s2.ctx c
      (b = false ∨ x.led.st ≠ .recovering ∨ x.st ≠ .loaded → exec (.resume c) s = .next s2) ∧
      (b = true → x.led.st = .recovering → x.st = .loaded → Answers (.resume c) s fun t =>
        RunsFrom s2 c (BitVec.ofNat 32 k.step) t ∧ (t.ctx c).led.resumeStep = BitVec.ofNat 32 k.step ∧
        (t.ctx c).led.resume = recordQueues (ownRecord' s2 c) ∧ (t.ctx c).led.retries = x.led.retries + 1 ∧
        (t.ctx c).led.localRollbacks = x.led.localRollbacks + (if x.led.rebound then 0 else 1) ∧
        (t.ctx c).led.lastSealed = x.led.lastSealed ∧ (t.ctx c).lastEvent = .resumed ∧ t.mem = s2.mem)) ∧
  (∀ (s s1 : State) (m : Option Ctrl) (c : Nat), c < nCtx → takeMail s c 9 = (s1, m) →
    (m = none → exec (.drop c) s = .next s1) ∧
    ∀ k s2 b, m = some k → heed s1 c k = (s2, b) →
      let x := s2.ctx c
      let v : Recovery := { unbound := [k.rank], faulted := [], rejoin := true }
      (b = false ∨ k.rank ∈ x.led.dropped → exec (.drop c) s = .next s2) ∧
      (b = true → k.rank ∉ x.led.dropped → Answers (.drop c) s fun t =>
        (t.ctx c).led.dropped = x.led.dropped ++ [k.rank] ∧ (t.ctx c).led.drops = x.led.drops + 1 ∧
        (t.ctx c).led.elasticDrops = x.led.elasticDrops + 1 ∧ (t.ctx c).led.elasticDegraded = true ∧
        (t.ctx c).led.st = x.led.st ∧ t.mem = s2.mem ∧
        (k.src = x.rank.toNat → x.led.recovery = none → Offered s2 c v t) ∧
        (k.src ≠ x.rank.toNat ∨ x.led.recovery ≠ none → (t.ctx c).led.recovery = x.led.recovery))) ∧
  (∀ (s : State) (job : BitVec 32),
    let mailed := (List.range nCtx).find? fun c => (s.ctx c).job = job && (s.ctx c).led.mail.any fun k => k.typ = 0xA
    (job ∉ s.ledger.releaseMail → mailed = none → exec (.releaseRecord job) s = .next s) ∧
    (job ∈ s.ledger.releaseMail ∨ mailed ≠ none → Answers (.releaseRecord job) s fun t =>
      t.ledger.releaseMail = s.ledger.releaseMail.erase job ∧
      (∀ c, job ∉ s.ledger.releaseMail → mailed = some c → ∀ k ∈ (t.ctx c).led.mail, k.typ ≠ 0xA) ∧
      (∀ j ∈ t.ledger.jobs, j.job ≠ job) ∧
      (∀ n ∈ ledgerGranules s job, (t.granule n).ledger = false ∧ (t.granule n).assigned = false ∧
        (t.granule n).scrubbed = false) ∧
      (∀ n, n ∉ ledgerGranules s job → t.granule n = s.granule n) ∧
      (ledgerGranules s job ≠ [] → t.ledger.releases = s.ledger.releases + 1))) ∧
  (∀ (s s1 : State) (m : Option Ctrl) (c : Nat), c < nCtx → takeMail s c 0xB = (s1, m) →
    (m = none → exec (.join c) s = .next s1) ∧
    ∀ k s2 b, m = some k → heed s1 c k = (s2, b) →
      let x := s2.ctx c
      let left := x.led.dropped.filter (· ≠ k.rank)
      let mine : Prop := k.acc = s2.fab.acc ∧ x.led.st = .recovering ∧ x.st = .loaded
      (b = false → exec (.join c) s = .next s2) ∧
      (b = true → Answers (.join c) s fun t => (t.ctx c).led.dropped = left ∧
        (t.ctx c).led.elasticDegraded = !left.isEmpty ∧ (t.ctx c).led.elasticJoins = x.led.elasticJoins + 1 ∧
        (t.ctx c).led.ranks = x.led.ranks.set k.rank k.acc ∧ t.mem = s2.mem ∧
        (mine → RunsFrom s2 c (BitVec.ofNat 32 k.step) t) ∧
        (¬ mine → (t.ctx c).led.st = x.led.st ∧ (t.ctx c).step = x.step ∧ t.cores = s2.cores)))

/-- COUNTER_LOW_HALF_READ, REGISTER_WRITE_IGNORED, HOT_RESET, FUNCTION_LEVEL_RESET, PCIE_LINK_DOWN, PERST_ASSERT,
PERST_RELEASE, CONFIGURATION_REQUEST, MSIX_UNMASK. A read of a low half latches the high half for its requester; a
write that nothing takes is counted; a link reset resets the rings and masks the vectors, and PERST_N holds the PCIe
block alone in reset (R20, R428, R429, R454, R465, R570). -/
def Obligations.HostBlockAndLinkResets : Prop :=
  (∀ (s : State) (req o : Nat), req < 2 → o % 4 = 0 → o < 0x10000000 →
    let served : Prop := (req = 0 ∧ s.host.live = true ∧ s.host.inReset = false) ∨ (req = 1 ∧ mgmtMode s ≠ .off)
    (∀ v, highHalf s o = some v → served → Answers (.counterLowHalfRead req o) s fun t =>
      tget (tgetD t.latches req []) (o + 4) = some v ∧
      (∀ q, q ≠ req → tgetD t.latches q [] = tgetD s.latches q []) ∧
      ∀ k, k ≠ o + 4 → tget (tgetD t.latches req []) k = tget (tgetD s.latches req []) k) ∧
    (highHalf s o = none ∨ ¬ served → exec (.counterLowHalfRead req o) s = .next s)) ∧
  (∀ s : State, highHalf s 0x7000008 = some (s.sec.serial.toNat / 2 ^ 32)) ∧
  (∀ s : State, s.host.live = true → s.host.inReset = false →
    let counted (o : Instr) : Prop := exec o s = .next { s with host := { s.host with writesIgnored :=
      s.host.writesIgnored + 1 } }
    (∀ o, o < 0x10000000 → counted (.registerWriteIgnored 2 o)) ∧
    (∀ o, o < 0x100 ∨ (0x300 ≤ o ∧ o < 0x10000) ∨ (0x180000 ≤ o ∧ o < 0x200000) → counted (.registerWriteIgnored 0 o)) ∧
    (∀ o, (0x100 ≤ o ∧ o < 0x300 ∧ o % 0x20 ≥ 4 ∧ ¬ (8 ≤ o % 0x20 ∧ o % 0x20 < 0xC) ∧ o % 0x20 ≠ 0x10 ∧
      o % 0x20 ≠ 0x11 ∧
      o % 0x20 ≠ 0x12 ∧ o % 0x20 ≠ 0x13) ∨ (0x10210 ≤ o ∧ o < 0x100000) → counted (.registerWriteIgnored 0 o)) ∧
    (∀ q k, q < 16 → k = 0 ∨ k = 8 ∨ k = 0x10 →
      exec (.registerWriteIgnored 0 (0x100 + 0x20 * q + k)) s = .next s) ∧
    (∀ o, (0x10000 ≤ o ∧ o < 0x10210) ∨ (0x100000 ≤ o ∧ o < 0x180000) → exec (.registerWriteIgnored 0 o) s = .next s)) ∧
  (∀ (s : State) (bar o : Nat), (bar = 0 ∧ o < 0x200000) ∨ (bar = 2 ∧ o < 0x10000000) →
    s.host.live = false ∨ s.host.inReset = true → exec (.registerWriteIgnored bar o) s = .next s) ∧
  (∀ (s : State) (i : Instr), i = .hotReset ∨ i = .functionLevelReset ∨ i = .pcieLinkDown →
    (s.host.inReset = true → exec i s = .next s) ∧
    (s.host.inReset = false → Answers i s fun t => (∀ q, t.ring q = Ring.reset) ∧
      t.host.linkResets = s.host.linkResets + 1 ∧ (∀ m ∈ t.host.msix, m.2.masked = true ∧ m.2.pba = false) ∧
      (∀ x ∈ t.host.taken, x.discard = true ∧ x.op ≠ 1 ∧ x.op ≠ 0x0A) ∧
      (∀ x ∈ s.host.taken, x.op ≠ 1 → x.op ≠ 0x0A → { x with discard := true } ∈ t.host.taken) ∧
      t.host.volumes = s.host.volumes ∧ t.host.cat = s.host.cat ∧ t.ctxs = s.ctxs ∧ t.bring = s.bring)) ∧
  (∀ s : State, exec .perstAssert s =
    .next { s with pins := { s.pins with perstN := false }, host := { s.host with inReset := true } }) ∧
  (∀ s : State, (s.pins.perstN = true → exec .perstRelease s = .next s) ∧ (s.pins.perstN = false →
    (s.pins.diesInReset = false → domainOn s 39 = true → Answers .perstRelease s fun t => t.pins.perstN = true ∧
      t.host.inReset = false ∧ t.host.linkResets = s.host.linkResets + 1 ∧ (∀ q, t.ring q = Ring.reset) ∧
      t.ctxs = s.ctxs ∧ t.bring = s.bring ∧ t.host.cat = s.host.cat) ∧
    (s.pins.diesInReset = true ∨ domainOn s 39 = false → exec .perstRelease s =
      .next { s with pins := { s.pins with perstN := true }, host := { s.host with inReset := true } }))) ∧
  (∀ (s : State) (settled : Bool) (a : CfgAnswer),
    (s.host.inReset = true ∧ a = .none) ∨
      (s.host.inReset = false ∧ (s.host.live && settled) = false ∧ a = .retry) ∨
      (s.host.inReset = false ∧ s.host.live = true ∧ settled = true ∧ a = .normal) →
    Answers (.configurationRequest settled) s fun t => t.host = { s.host with cfgAnswer := a }) ∧
  (∀ (s : State) (v : Nat), v < 33 →
    let m := tgetD s.host.msix v MsiX.reset
    (s.host.inReset = true → exec (.msixUnmask v) s = .next s) ∧
    (s.host.inReset = false → Answers (.msixUnmask v) s fun t =>
      tget t.host.msix v = some ⟨false, false, m.sent + (if m.pba then 1 else 0)⟩ ∧
      ∀ w, w ≠ v → tget t.host.msix w = tget s.host.msix w))

/-- CALL_DOORBELL, SLIP_TAKE, SLIP_END, RET_ACK, RING_RESET, RING_RESET_EFFECT. The doorbell makes call slips
available, the device takes the next one whose return slot is CONSUMED, refuses a wrong SEQ and an OP it does not
know, writes the result and raises the ring's vector, and the host's acknowledgement frees the slot. The end of a slip
may be what a RELEASE of the owner waits for (R430 to R435; 14 R513). -/
def Obligations.RingsCarrySlips : Prop :=
  (∀ (s : State) (q : Nat) (v : BitVec 32) (w : Tbl (BitVec 1024)), q < 16 →
    let served : Prop := s.host.live = true ∧ s.host.inReset = false
    let written (t : State) : Prop :=
      (t.ring q).calls = w.foldl (fun c e => tset c (e.1 % 256) e.2) (s.ring q).calls ∧
      (t.ring q).callSeq = (s.ring q).callSeq ∧ (t.ring q).rets = (s.ring q).rets ∧ ∀ p, p ≠ q → t.ring p = s.ring p
    (¬ served → exec (.callDoorbell q v w) s = .next s) ∧
    (served → (v - (s.ring q).callSeq).toNat ≤ 256 → Answers (.callDoorbell q v w) s fun t => written t ∧
      (t.ring q).bell = v + 1 ∧ (t.ring q).ackIgnored = (s.ring q).ackIgnored) ∧
    (served → 256 < (v - (s.ring q).callSeq).toNat → Answers (.callDoorbell q v w) s fun t => written t ∧
      (t.ring q).bell = (s.ring q).bell ∧ (t.ring q).ackIgnored = (s.ring q).ackIgnored + 1)) ∧
  (∀ (s : State) (q : Nat), q < 16 →
    let r := s.ring q
    let k := r.callSeq.toNat % 256
    let slip := tgetD r.calls k 0
    let op := bits slip.toNat 32 8
    let ready : Prop := s.host.inReset = false ∧ r.resetWaiting = false ∧ r.callSeq ≠ r.bell ∧ (r.ret k).st = .consumed
    (¬ ready → exec (.slipTake q) s = .next s) ∧
    (∀ result, ready →
      (slip.setWidth 32 ≠ r.callSeq ∧ result = some (.refused .slipSeq)) ∨
        (slip.setWidth 32 = r.callSeq ∧ (op = 0 ∨ 0x0B < op) ∧ result = some (.refused .badOp)) ∨
        (slip.setWidth 32 = r.callSeq ∧ op ≠ 0 ∧ op ≤ 0x0B ∧ result = none) →
      Answers (.slipTake q) s fun t => (t.ring q).callSeq = r.callSeq + 1 ∧ ((t.ring q).ret k).st = .pending ∧
        ((t.ring q).ret k).op = BitVec.ofNat 8 op ∧ ((t.ring q).ret k).seq = (r.ret k).seq ∧
        ((t.ring q).ret k).ctx = BitVec.ofNat 4 (bits slip.toNat 40 4) ∧
        (∀ j, j ≠ k → (t.ring q).ret j = r.ret j) ∧ (∀ p, p ≠ q → t.ring p = s.ring p) ∧
        t.host.taken = s.host.taken ++ [⟨s.host.takes, q, r.callSeq, slip, result, false, false⟩])) ∧
  (∀ (s : State) (q : Nat) (seq : BitVec 32), q < 16 →
    let ended := s.host.taken.find? fun t => t.ring = q && t.seq = seq && t.result.isSome
    (∀ u : State, u.sec.release = none → settleRelease u = u) ∧
    (ended = none → exec (.slipEnd q seq) s = .next (settleRelease s)) ∧
    ∀ x r, ended = some x → x.result = some r →
      (x.discard = false → s.host.busy = true → exec (.slipEnd q seq) s = .next (settleRelease s)) ∧
      (x.discard = true → ∃ u, exec (.slipEnd q seq) s = .next (settleRelease u) ∧ u.sec = s.sec ∧
        u.host.taken = s.host.taken.filter (fun y => y.number ≠ x.number) ∧ u.host.rings = s.host.rings) ∧
      (x.discard = false → s.host.busy = false → ∃ u, exec (.slipEnd q seq) s = .next (settleRelease u) ∧
        u.sec = s.sec ∧
        u.host.taken = s.host.taken.filter (fun y => y.number ≠ x.number) ∧ Raised s u q ∧
        (∀ p, p ≠ q → u.ring p = s.ring p) ∧
        (∀ a b e, r = .done a b e → let y := (u.ring q).ret (seq.toNat % 256)
          y.seq = seq ∧ y.st = .done ∧ y.name = none ∧ y.result0 = a ∧ y.result1 = b ∧ y.ext = e ∧
          (u.ring q).slipsDone = (s.ring q).slipsDone + 1 ∧ (u.ring q).slipsRefused = (s.ring q).slipsRefused) ∧
        (∀ n, r = .refused n → let y := (u.ring q).ret (seq.toNat % 256)
          y.seq = seq ∧ y.st = .refused ∧ y.name = some n ∧ y.result0 = 0 ∧ y.result1 = 0 ∧ y.ext = 0 ∧
          (u.ring q).slipsDone = (s.ring q).slipsDone ∧ (u.ring q).slipsRefused = (s.ring q).slipsRefused + 1))) ∧
  (∀ (s : State) (q : Nat) (v : BitVec 32), q < 16 →
    let served : Prop := s.host.live = true ∧ s.host.inReset = false
    let y := (s.ring q).ret (v.toNat % 256)
    (¬ served → exec (.retAck q v) s = .next s) ∧
    (served → (y.st = .done ∨ y.st = .refused) ∧ y.seq = v → Answers (.retAck q v) s fun t =>
      (t.ring q).ret (v.toNat % 256) = { y with st := .consumed } ∧ (t.ring q).ackIgnored = (s.ring q).ackIgnored ∧
      (∀ j, j ≠ v.toNat % 256 → (t.ring q).ret j = (s.ring q).ret j) ∧ ∀ p, p ≠ q → t.ring p = s.ring p) ∧
    (served → ¬((y.st = .done ∨ y.st = .refused) ∧ y.seq = v) → Answers (.retAck q v) s fun t =>
      (t.ring q).rets = (s.ring q).rets ∧ (t.ring q).ackIgnored = (s.ring q).ackIgnored + 1 ∧
      ∀ p, p ≠ q → t.ring p = s.ring p)) ∧
  (∀ (s : State) (q : Nat), q < 16 →
    let served : Prop := s.host.live = true ∧ s.host.inReset = false
    (¬ served → exec (.ringReset q) s = .next s) ∧
    (served → Answers (.ringReset q) s fun t =>
      t.ring q = { s.ring q with bell := (s.ring q).callSeq, resetWaiting := true } ∧ ∀ p, p ≠ q →
        t.ring p = s.ring p)) ∧
  (∀ (s : State) (q : Nat), q < 16 →
    let idle : Prop := ∀ u ∈ s.host.taken, u.ring = q → u.discard = true
    ((s.ring q).resetWaiting = true → idle → Answers (.ringResetEffect q) s fun t =>
      t.ring q = Ring.reset ∧ ∀ p, p ≠ q → t.ring p = s.ring p) ∧
    ((s.ring q).resetWaiting = false ∨ ¬ idle → exec (.ringResetEffect q) s = .next s))

/-- UPLOAD, PULL, PULL_UNAVAILABLE. A volume that fails a check of R538 is refused by that check's name and counted,
one already resident is not copied, another volume of a job that a context holds is refused, and a new one is kept
with its catalogue entry, for which unpinned entries not in use are weeded; a pull asks for the first chunk, then for
the other header parts, then for the sections that the device keeps, and ends with the volume once every chunk has
come, or refused when a loan has no answer; a slip that cannot run yet leaves the state alone (R439, R440, R451, R453,
R538). -/
def Obligations.VolumesComeIn : Prop :=
  (∀ (s : State) (v : Volume), volumeOf (keepVolume s v) v.job = some v ∧
    ∀ j, j ≠ v.job → volumeOf (keepVolume s v) j = volumeOf s j) ∧
  (∀ (s : State) (mib : Nat), (storeUsed s + mib ≤ storeMib s → makeRoom s mib = some s) ∧
    (∀ r, makeRoom s mib = some r → storeUsed r + mib ≤ storeMib r) ∧
    (storeMib s < storeUsed s + mib → weedable s = none → makeRoom s mib = none)) ∧
  (∀ (s : State) (job : BitVec 32) (k e : Nat) (y : CatEntry), entryOf s job k = some e → tget s.host.cat e = some y →
    ∃ r, ensureEntry s job k = some (e, r) ∧ r.host.volumes = s.host.volumes ∧
      r.host.cat = tset s.host.cat e { y with stamp := s.host.useCount + 1 }) ∧
  (∀ (s : State) (job : BitVec 32) (k : Nat), entryOf s job k = none →
    (∀ e, s.host.cat.length < 64 → ((List.range 64).find? fun e => (tget s.host.cat e).isNone) = some e →
      ∃ r, ensureEntry s job k = some (e, r) ∧ r.host.volumes = s.host.volumes ∧
        tget r.host.cat e = some ⟨job, k, false, s.host.useCount + 1⟩ ∧
        ∀ j, j ≠ e → tget r.host.cat j = tget s.host.cat j) ∧
    (64 ≤ s.host.cat.length → weedable s = none → ensureEntry s job k = none)) ∧
  (∀ (s : State) (q : Nat) (seq : BitVec 32) (raw : Blob) (dmaOk sigOk : Bool), q < 16 →
    (slipReady s q seq 1 = none → exec (.upload q seq raw dmaOk sigOk) s = .next (settleRelease s)) ∧
    ∀ x, Runs s q seq 1 x →
      (dmaOk = false → Settles (.upload q seq raw dmaOk sigOk) s fun t =>
        Ended t x.number (.refused .hostDma) ∧ t.host.volumes = s.host.volumes) ∧
      (dmaOk = true → Settles (.upload q seq raw dmaOk sigOk) s
        (VolumeTaken s x ⟨x.arg 1, bits raw.val 0 (8 * x.arg 1)⟩ sigOk fun _ _ => true))) ∧
  (∀ (s : State) (q : Nat) (seq : BitVec 32) (sigOk : Bool), q < 16 →
    (slipReady s q seq 2 = none → exec (.pull q seq sigOk) s = .next (settleRelease s)) ∧
    ∀ x, Runs s q seq 2 x →
      let peer := x.arg 0 % 65536
      let job := BitVec.ofNat 32 (x.arg 1)
      (findPull s peer job = none → Settles (.pull q seq sigOk) s fun t =>
        findPull t peer job = some ⟨peer, job, [], [(0, Blob.empty)], [], false⟩ ∧
        ∃ u ∈ t.host.taken, u.number = x.number ∧ u.running = true) ∧
      ∀ u, findPull s peer job = some u →
        let b := pullBlob u (volBytes (pullBlob u loanBytes))
        let same : Prop := ∃ v, volumeOf s job = some v ∧ v.digest = volDigest b
        let head : Prop := pullHas u (headChunks b) = true
        let sections : Prop := pullHas u (sectionChunks s b) = true
        (pullHas u [0] = false → exec (.pull q seq sigOk) s = .next (settleRelease s)) ∧
        (pullHas u [0] = true → u.headed = false →
          (¬ head → Settles (.pull q seq sigOk) s (ChunksAsked s u (headChunks b) false)) ∧
          (head → openRefusal s b sigOk ≠ none ∨ same → Settles (.pull q seq sigOk) s fun t =>
            VolumeTaken (dropPull s peer job) x b sigOk (fun _ _ => false) t ∧ findPull t peer job = none) ∧
          (head → openRefusal s b sigOk = none → ¬ same →
            Settles (.pull q seq sigOk) s (ChunksAsked s u (sectionChunks s b) true))) ∧
        (pullHas u [0] = true → u.headed = true →
          (u.want ≠ [] ∨ u.out ≠ [] → exec (.pull q seq sigOk) s = .next (settleRelease s)) ∧
          (u.want = [] → u.out = [] →
            (¬ sections → Settles (.pull q seq sigOk) s (ChunksAsked s u (sectionChunks s b) true)) ∧
            (sections → Settles (.pull q seq sigOk) s fun t =>
              VolumeTaken (dropPull s peer job) x b true (fun p => keeps p (volOwnImage s p)) t ∧
              findPull t peer job = none)))) ∧
  (∀ (s : State) (q : Nat) (seq : BitVec 32), q < 16 →
    (slipReady s q seq 2 = none → exec (.pullUnavailable q seq) s = .next (settleRelease s)) ∧
    ∀ x, Runs s q seq 2 x →
      let peer := x.arg 0 % 65536
      let job := BitVec.ofNat 32 (x.arg 1)
      ((∀ u, findPull s peer job = some u → u.out = []) → exec (.pullUnavailable q seq) s = .next (settleRelease s)) ∧
      (∀ u, findPull s peer job = some u → u.out ≠ [] → Settles (.pullUnavailable q seq) s fun t =>
        Ended t x.number (.refused .pullUnavailable) ∧ findPull t peer job = none))

/-- PIN, UNPIN, WEED, WAIT, READ_RESUME. At most 60 entries are pinned, and repeating PIN or UNPIN does nothing
further; an entry pinned or in use is weeded neither by WEED nor by the device, and the volume goes with the last
entry of its job, once no context holds it; a WAIT runs until the next event of its context; READ_RESUME answers up to
nine next batches; a slip that cannot run yet leaves the state alone (R434, R436, R449, R451, R452). -/
def Obligations.CatalogueAndWaits : Prop :=
  (∀ (s : State) (q : Nat) (seq : BitVec 32), q < 16 →
    (slipReady s q seq 7 = none → exec (.pin q seq) s = .next s) ∧
    (slipReady s q seq 8 = none → exec (.unpin q seq) s = .next s) ∧
    (slipReady s q seq 9 = none → exec (.weed q seq) s = .next s) ∧
    (slipReady s q seq 0x0A = none → exec (.wait q seq) s = .next s) ∧
    (slipReady s q seq 0x0B = none → exec (.readResume q seq) s = .next s)) ∧
  (∀ (s : State) (q : Nat) (seq : BitVec 32) (x : Taken), q < 16 → Runs s q seq 7 x →
    let e := x.arg 0 % 64
    let pinned := (s.host.cat.filter fun e => e.2.pinned).length
    (pinned < 60 → Answers (.pin q seq) s fun t => Ended t x.number (.done 0 0 0) ∧
      (∀ y, tget s.host.cat e = some y → tget t.host.cat e = some { y with pinned := true }) ∧
      (tget s.host.cat e = none → t.host.cat = s.host.cat) ∧
      ∀ j, j ≠ e → tget t.host.cat j = tget s.host.cat j) ∧
    (60 ≤ pinned → Answers (.pin q seq) s fun t =>
      Ended t x.number (.refused .cataloguePinned) ∧ t.host.cat = s.host.cat)) ∧
  (∀ (s : State) (q : Nat) (seq : BitVec 32) (x : Taken), q < 16 → Runs s q seq 8 x →
    let e := x.arg 0 % 64
    Answers (.unpin q seq) s fun t => Ended t x.number (.done 0 0 0) ∧
      (∀ y, tget s.host.cat e = some y → tget t.host.cat e = some { y with pinned := false }) ∧
      (tget s.host.cat e = none → t.host.cat = s.host.cat) ∧
      ∀ j, j ≠ e → tget t.host.cat j = tget s.host.cat j) ∧
  (∀ (s : State) (e : Nat), weedable s = some e →
    ∃ y, (e, y) ∈ s.host.cat ∧ y.pinned = false ∧ entryInUse s e = false) ∧
  (∀ (s : State) (q : Nat) (seq : BitVec 32) (x : Taken), q < 16 → Runs s q seq 9 x →
    let e := x.arg 0 % 64
    (tget s.host.cat e = none → Answers (.weed q seq) s fun t => Ended t x.number (.done 0 0 0) ∧
      t.host.cat = s.host.cat ∧ t.host.volumes = s.host.volumes ∧ t.host.weedings = s.host.weedings) ∧
    ∀ y, tget s.host.cat e = some y →
      (y.pinned = true ∨ entryInUse s e = true → Answers (.weed q seq) s fun t =>
        Ended t x.number (.refused .entryInUse) ∧ t.host.cat = s.host.cat ∧ t.host.volumes = s.host.volumes) ∧
      (y.pinned = false → entryInUse s e = false → Answers (.weed q seq) s fun t =>
        let last : Prop := (∀ z ∈ terase s.host.cat e, z.2.job ≠ y.job) ∧ ledgerCtx s y.job = none
        Ended t x.number (.done 0 0 0) ∧ t.host.cat = terase s.host.cat e ∧ t.host.weedings = s.host.weedings + 1 ∧
          (last → volumeOf t y.job = none ∧ KeyGone (.volume y.job) t ∧ KeyGone (.sample y.job) t ∧
            KeyGone (.exported y.job) t) ∧
          (¬ last → t.host.volumes = s.host.volumes ∧ t.sec = s.sec))) ∧
  (∀ (s : State) (q : Nat) (seq : BitVec 32) (x : Taken), q < 16 → Runs s q seq 0x0A x →
    Answers (.wait q seq) s fun t =>
    ∃ u ∈ t.host.taken, u.number = x.number ∧ u.running = true ∧ u.result = none) ∧
  (∀ (s : State) (q : Nat) (seq : BitVec 32) (x : Taken), q < 16 → Runs s q seq 0x0B x →
    ((s.ctx x.ctx).st = .free → Answers (.readResume q seq) s fun t => Ended t x.number (.refused .contextState)) ∧
    ((s.ctx x.ctx).st ≠ .free →
      let b := ((s.ctx x.ctx).led.resume.drop (x.arg 0 % 512)).take 9
      Answers (.readResume q seq) s fun t => ∃ ext, Ended t x.number (.done (BitVec.ofNat 64 b.length) 0 ext) ∧
        ∀ i p, b[i]? = some p → bits ext.toNat (64 * i) 8 = p.2.1 % 2 ^ 8 ∧
          (p.2.1 < 2 ^ 8 → p.1 < 2 → bits ext.toNat (64 * i + 8) 24 = p.1 ∧
            bits ext.toNat (64 * i + 32) 32 = p.2.2 % 2 ^ 32)))

/-- CREATE. The checks of R443 in their order, each with its refusal; the shelves asked for are woken first; a device
that the rank table does not name becomes standby; a rank's slot stays CREATING while a granule of its memory plan
awaits its fill, is refused with CONTEXT_MEMORY for a granule or data that cannot be its own and with LEDGER_SPACE
where too few granules are left for the ledger, releasing what it had assigned, and is IDLE otherwise (R391, R392,
R443, R445). -/
def Obligations.ContextsAreCreated : Prop :=
  (∀ (s : State) (q : Nat) (seq : BitVec 32), q < 16 → slipReady s q seq 3 = none → exec (.create q seq) s = .next s) ∧
  ∀ (s : State) (q : Nat) (seq : BitVec 32) (x : Taken), q < 16 → Runs s q seq 3 x →
    let c := x.ctx
    let job := BitVec.ofNat 32 (x.arg 0)
    let mask := BitVec.ofNat 12 (x.arg 0 / 2 ^ 32)
    let refused := fun n => Answers (.create q seq) s fun t => Ended t x.number (.refused n) ∧ t.ctxs = s.ctxs ∧
      t.mem = s.mem
    let goesOn : Prop := x.running = true ∧ (s.ctx c).st = .creating
    let running (t : State) : Prop := ∃ u ∈ t.host.taken, u.number = x.number ∧ u.running = true ∧ u.result = none
    let jobs := (List.range nCtx).any fun d => (s.ctx d).st ≠ .free && (s.ctx d).job = job
    let busy := (shelvesOf mask).any fun sh => (shelfOwner s sh).isSome
    let awake := (shelvesOf mask).all fun sh => shelfAwake s sh
    (¬ goesOn → (s.ctx c).st ≠ .free → refused .contextState) ∧
    (goesOn ∨ (s.ctx c).st = .free → volumeOf s job = none → refused .notResident) ∧
    ∀ v, volumeOf s job = some v →
      let table := (List.range ((v.jobWide 6).len / 2)).map fun r => (v.jobWide 6).bits (16 * r) 16
      let built (s0 : State) (rank : BitVec 14) : Prop :=
        let gs := planGranules (v.memPlan rank.toNat)
        let s1 := freshKey (assignGranules s0 c gs) (.ctxMem c)
        let data := dataSections v (v.imageOf rank.toNat) false
        let s2 := choosePartners (data.foldl (fun s d => writeData s d.addr d.data) s1) c
        let taken := gs.any (granuleTaken s)
        let awaits := gs.any fun n => !(s.granule n).scrubbed
        let outside := data.any fun d => !dataOwned s1 c d.addr d.data.len
        let gone (n : RefName) : Prop := Answers (.create q seq) s fun t =>
          Ended t x.number (.refused n) ∧ (t.ctx c).st = .free ∧ (t.ctx c).mask = 0 ∧ KeyGone (.ctxMem c) t
        let released (t : State) : Prop := ∀ n ∈ gs, (s.granule n).ledger = false → (t.granule n).assigned = false
        (taken = true → gone .contextMemory) ∧
        (taken = false → awaits = true → Answers (.create q seq) s fun t =>
          running t ∧ (t.ctx c).st = .creating ∧ t.mem = s.mem) ∧
        (taken = false → awaits = false → outside = true → gone .contextMemory ∧
          Answers (.create q seq) s released) ∧
        (taken = false → awaits = false → outside = false → reserveLedger s2 c = none → gone .ledgerSpace ∧
          Answers (.create q seq) s released) ∧
        (taken = false → awaits = false → outside = false → ∀ s3, reserveLedger s2 c = some s3 →
          Answers (.create q seq) s fun t =>
            Ended t x.number (.done (rank.setWidth 64) 0 0) ∧ (t.ctx c).st = .idle ∧ t.mem = s3.mem ∧
            ∀ n ∈ gs, (t.granule n).assigned = true ∧ (t.granule n).context = BitVec.ofNat 4 c)
      ((s.ctx c).st = .free → jobs = true → refused .jobPresent) ∧
      ((s.ctx c).st = .free → jobs = false → busy = true → refused .shelfBusy) ∧
      ((s.ctx c).st = .free → jobs = false → busy = false → awake = false → Answers (.create q seq) s fun t =>
        t = (shelvesOf mask).foldl wakeShelf (startSlip s x) ∧ running t ∧ t.ctxs = s.ctxs ∧ t.mem = s.mem) ∧
      ((s.ctx c).st = .free → jobs = false → busy = false → awake = true → ∀ n, planRefusal s v mask = some n →
        refused n) ∧
      ((s.ctx c).st = .free → jobs = false → busy = false → awake = true → planRefusal s v mask = none →
        s.fab.acc ∉ table → Answers (.create q seq) s fun t => Ended t x.number (.done 0x4000 0 0) ∧
          (t.ctx c).st = .standby ∧ (t.ctx c).led.st = .standby ∧ (t.ctx c).job = job ∧ (t.ctx c).mask = mask ∧
          t.mem = s.mem ∧ ∀ d, d ≠ c → t.ctx d = s.ctx d) ∧
      ((s.ctx c).st = .free → jobs = false → busy = false → awake = true → planRefusal s v mask = none →
        ∀ r, table.findIdx? (· = s.fab.acc) = some r →
          let s0 := (newContext (startSlip s x) c job mask v).modCtx c fun y =>
            { y with entry := entryOf s job (v.imageOf y.rank.toNat) }
          (s0.ctx c).st = .creating ∧ (s0.ctx c).job = job ∧ (s0.ctx c).mask = mask ∧ (s0.ctx c).led.ranks = table ∧
            built s0 (BitVec.ofNat 14 r)) ∧
      (goesOn → built (startSlip s x) (s.ctx c).rank)

/-- LOAD. A context that is not IDLE, or an image that fails a check of the loader, is refused; media islands that the
image needs are woken first; otherwise every stage is placed on its core with its counters cleared and the context is
loading, or LOADED where every stage is READY; a slip that cannot run yet, or that runs on while its context loads,
changes nothing but what follows every command of this kind (R205, R434, R444). -/
def Obligations.ImagesAreLoaded : Prop :=
  (∀ (s : State) (q : Nat) (seq : BitVec 32) (stripes : Tbl (List Nat)), q < 16 → slipReady s q seq 4 = none →
    exec (.load q seq stripes) s = .next (settle s s)) ∧
  ∀ (s : State) (q : Nat) (seq : BitVec 32) (stripes : Tbl (List Nat)) (x : Taken), q < 16 → Runs s q seq 4 x →
    let c := x.ctx
    let refused := fun n => Answers (.load q seq stripes) s fun t =>
      Ended t x.number (.refused n) ∧ t.cores = s.cores ∧ t.shelves = s.shelves
    let ready : Prop := (s.ctx c).st = .idle ∧ (s.ctx c).loading = false
    (¬ ready → x.running = true → exec (.load q seq stripes) s = .next (settle s s)) ∧
    (¬ ready → x.running = false → refused .contextState) ∧
    (ready → volumeOf s (s.ctx c).job = none → refused .notResident) ∧
    ∀ v, ready → volumeOf s (s.ctx c).job = some v →
      let image := v.imageOf (s.ctx c).rank.toNat
      (entryOf s (s.ctx c).job image = none → refused .notResident) ∧
      ∀ e, entryOf s (s.ctx c).job image = some e →
      let L := loadInput s c image stripes false
      let im := parseImage L.img
      (∀ n, loadRefusal s c L = some n → refused n) ∧
      (loadRefusal s c L = none → (∃ d ∈ mediaNeeds L, domainSettled s d = false) →
        exec (.load q seq stripes) s = .next (settle s (wakeDomains (startSlip s x) (mediaNeeds L)))) ∧
      (loadRefusal s c L = none → (∀ d ∈ mediaNeeds L, domainSettled s d = true) →
        Answers (.load q seq stripes) s fun t =>
          (t.ctx c).image = some im ∧ (t.ctx c).entry = some e ∧
          ((t.ctx c).loading = true ∨ (t.ctx c).st = .loaded) ∧
          (∀ i r n, im.stages[i]? = some r → lcoreOf (s.ctx c) r.lcore = some n →
            (∀ j r', im.stages[j]? = some r' → lcoreOf (s.ctx c) r'.lcore = some n → j = i) →
            t.core n = loadedCore s c L im i r) ∧
          ∀ n, (∀ r ∈ im.stages, lcoreOf (s.ctx c) r.lcore ≠ some n) → t.core n = s.core n)

/-- UNLOAD, DESTROY, TEARDOWN, TEARDOWN_DONE. An unload waits for the next end-of-step barrier and takes effect at
once where the ledger is HALTED; a teardown destroys the context's key, clears the cores and zero-fills the stores of
its shelves and ends in FREE, with its granules released, but LEDGER granules only by a DESTROY that says so; a slip
that cannot run yet, or that runs on, and a teardown that is not asked for, change nothing (R444, R446, R534). -/
def Obligations.ContextsAreTornDown : Prop :=
  (∀ (s : State) (q : Nat) (seq : BitVec 32), q < 16 →
    (slipReady s q seq 5 = none → exec (.unload q seq) s = .next (flushCredits s s)) ∧
    (slipReady s q seq 6 = none → exec (.destroy q seq) s = .next s) ∧
    ∀ x, x.running = true → (Runs s q seq 5 x → exec (.unload q seq) s = .next (flushCredits s s)) ∧
      (Runs s q seq 6 x → exec (.destroy q seq) s = .next s)) ∧
  (∀ (s : State) (q : Nat) (seq : BitVec 32) (x : Taken), q < 16 → Runs s q seq 5 x → x.running = false →
    let c := x.ctx
    ((s.ctx c).st ≠ .loaded → Answers (.unload q seq) s fun t =>
      Ended t x.number (.refused .contextState) ∧ t.cores = s.cores) ∧
    ((s.ctx c).st = .loaded → (s.ctx c).led.st ≠ .halted → Answers (.unload q seq) s fun t =>
      (t.ctx c).unload = true ∧ (t.ctx c).st = .loaded ∧ t.cores = s.cores ∧
      ∃ u ∈ t.host.taken, u.number = x.number ∧ u.running = true ∧ u.result = none) ∧
    ((s.ctx c).st = .loaded → (s.ctx c).led.st = .halted → Answers (.unload q seq) s fun t =>
      Ended t x.number (.done 0 0 0) ∧ (t.ctx c).st = .idle ∧ (t.ctx c).image = none ∧ (t.ctx c).led.st = .none ∧
      ∀ n, t.core n = if n < nCores ∧ (s.core n).stage.info.isSome = true ∧ (s.core n).stage.ctx = c
        then Core.unloaded (s.core n) else s.core n)) ∧
  (∀ (s : State) (q : Nat) (seq : BitVec 32) (x : Taken), q < 16 → Runs s q seq 6 x → x.running = false →
    let c := x.ctx
    ((s.ctx c).st = .free → Answers (.destroy q seq) s fun t =>
      Ended t x.number (.refused .contextState) ∧ t.ctxs = s.ctxs) ∧
    ((s.ctx c).st ≠ .free → Answers (.destroy q seq) s fun t =>
      (t.ctx c).tear = some ⟨.destroy (bit (x.arg 0) 0), ((s.ctx c).tear.map (·.started)).getD false⟩ ∧
      (t.ctx c).st = (s.ctx c).st ∧ ∃ u ∈ t.host.taken, u.number = x.number ∧ u.running = true ∧ u.result = none)) ∧
  (∀ (s : State) (c : Nat), c < nCtx →
    let due : Prop := (∃ r, (s.ctx c).tear = some r ∧ r.started = false) ∧ (s.ctx c).st ≠ .free
    (¬ due → exec (.teardown c) s = .next (flushCredits s s)) ∧
    (due → Answers (.teardown c) s fun t =>
      (t.ctx c).st = .teardown ∧
      (t.ctx c).teardowns = (s.ctx c).teardowns + 1 ∧ (t.ctx c).image = none ∧
      (t.ctx c).streams = [] ∧ (t.ctx c).nodes = [] ∧ KeyGone (.ctxMem c) t ∧
      (∀ n, (s.ctx c).mask.getLsbD (n / 12) = true → n < 144 → t.core n = Core.cleared) ∧
      (∀ n, (s.ctx c).mask.getLsbD (n / 12) = false → t.core n = s.core n) ∧
      ∀ sh ∈ shelvesOf (s.ctx c).mask, ∀ a,
        (shelfWindow sh ≤ a ∧ a < shelfWindow sh + 0x1800000 ∨
          carrelWindow (12 * sh) ≤ a ∧ a < carrelWindow (12 * sh + 12)) → t.mem.mem.read a = 0)) ∧
  ∀ (s : State) (c : Nat), c < nCtx →
    ((∀ r, (s.ctx c).tear = some r → r.started = false) → exec (.teardownDone c) s = .next (settleSlips s)) ∧
    ∀ r, (s.ctx c).tear = some r → r.started = true → Answers (.teardownDone c) s fun t =>
      (t.ctx c).st = .free ∧ Raised s t (16 + c) ∧
      (∀ n, (s.granule n).assigned = true → ownsGranule s c n = true → (t.granule n).assigned = false ∧
        (t.granule n).scrubbed = false) ∧
      (r.why ≠ .destroy true → ∀ n, (∀ g, (n, g) ∈ s.mem.granules → g.ledger = true) → t.granule n = s.granule n) ∧
      (r.why = .fault → (t.ctx c).lastEvent = .faulted ∧
        ((s.ctx c).led.st = .none ∨ (s.ctx c).led.st = .standby → (t.ctx c).mask = 0 ∧ (t.ctx c).tear = none) ∧
        ((s.ctx c).led.st ≠ .none → (s.ctx c).led.st ≠ .standby → (t.ctx c).mask = (s.ctx c).mask)) ∧
      ∀ rel, r.why = .destroy rel → (t.ctx c).lastEvent = .destroyed ∧ (t.ctx c).mask = 0 ∧ (t.ctx c).tear = none ∧
        (t.ctx c).led.st = .none ∧
        (rel = true → ∀ n ∈ ledgerGranules s (s.ctx c).job, (t.granule n).assigned = false) ∧
        ∀ x ∈ s.host.taken, x.op = 6 → x.ctx = c → x.running = true → x.result = none →
          Ended t x.number (.done 0 0 0)

/-- BRINGUP_START, PHASE_INPUT_END, PHASE_IMPRINT_END, PHASE_WAVES_END, PHASE_SELF_TEST_END, PHASE_YIELD_END,
PHASE_ACCESSION_END, LIMIT_EXCEEDED. A phase ends with its DC0 count and the next one runs; a folio that fails halts
phase 2 with its code; EPOCH rises by one; BUSY clears as phase 8 ends; the end of a phase that does not run, or that
waits for something, changes nothing (R457, R459, R460, R462 to R466, R477, R505). -/
def Obligations.PhasesOfBringUp : Prop :=
  (∀ (s : State) (n : BitVec 48) (clocks : Tbl Nat),
    (diesHeld s = true ∨ s.pins.diesInReset = false ∧ s.bring.phase ≠ 0 → exec .bringupStart s = .next s) ∧
    (¬ InPhase s 1 → exec (.phaseInputEnd n) s = .next s) ∧
    (¬ InPhase s 2 → exec (.phaseImprintEnd n) s = .next s) ∧
    (¬ InPhase s 4 ∨ s.bring.wave ≠ none ∨ s.bring.lastWave ≠ 8 → exec (.phaseWavesEnd n) s = .next s) ∧
    (¬ InPhase s 5 ∨ (∃ i, i < nSites ∧ (s.site i).failed = false ∧ (s.site i).tested = false) ∨
      (∃ sh, sh < 12 ∧ sh ∉ s.bring.shelfTested ∧ s.bring.domainFailed.getLsbD (shelfDomain sh) = false) →
      exec (.phaseSelfTestEnd n clocks) s = .next s) ∧
    (¬ InPhase s 7 ∨ s.bring.fwNext ≠ [] ∨ (∃ i, i < nSites ∧ (s.site i).failed = false ∧ (s.site i).verified = false) →
      exec (.phaseYieldEnd n) s = .next s) ∧
    (¬ InPhase s 8 ∨ fabricReady s = false ∧ allLinksOff s = false → exec (.phaseAccessionEnd n) s = .next s) ∧
    (s.bring.phase = 0 ∨ s.bring.phase = 0xF ∨ s.bring.halted = true → exec .limitExceeded s = .next s)) ∧
  (∀ s : State, diesHeld s = false → s.pins.diesInReset = true ∨ s.bring.phase = 0 →
    Answers .bringupStart s fun t => t.bring.phase = 1 ∧ t.pins.diesInReset = false ∧
      t.bring.wave = some ⟨0, [38, 78, 39], [], false, false⟩ ∧ t.power.resetCause = s.power.nextCause ∧
      ∀ d, d < 80 → domainOn t d = (domainOn s d || d = 38 || d = 39 || d = 78)) ∧
  (∀ (s : State) (n : BitVec 48), InPhase s 1 → Answers (.phaseInputEnd n) s fun t =>
    PhaseEnded t 1 n 2 ∧ t.bring.domainOn = s.bring.domainOn) ∧
  (∀ (s : State) (n : BitVec 48), InPhase s 2 →
    let f := (bootChoice (bootFolio s)).1
    let boots := fun b => (fwSlot s b).valid && s.sec.minSvn ≤ (fwSlot s b).facts.svn
    let copy := s.imprint.boot0.valid = true ∨ s.imprint.boot1.valid = true
    let slot := if boots f.slotB then f.slotB else !f.slotB
    (¬copy → Answers (.phaseImprintEnd n) s fun t => HaltedWith t 2 1) ∧
    (copy → boots false = false → boots true = false → Answers (.phaseImprintEnd n) s fun t => HaltedWith t 2 2) ∧
    (copy → boots slot = true → s.imprint.factoryValid = false → Answers (.phaseImprintEnd n) s fun t =>
      HaltedWith t 2 3) ∧
    (copy → boots slot = true → s.imprint.factoryValid = true → s.imprint.calValid = false →
      Answers (.phaseImprintEnd n) s fun t => HaltedWith t 2 4) ∧
    (copy → boots slot = true → s.imprint.factoryValid = true → s.imprint.calValid = true →
      Answers (.phaseImprintEnd n) s fun t =>
        PhaseEnded t 2 n 3 ∧ t.host.live = true ∧ t.bring.slotB = slot ∧ t.bring.recal = s.imprint.recalPending ∧
        t.bring.fwRolledBack = ((bootFolio s).trial && (bootFolio s).trialStarted) ∧
        ((bootFolio s).generation ≠ 0xFFFFFFFF →
          t.host.epoch = (bootFolio s).epoch + 1 ∧ (bootFolio t).epoch = (bootFolio s).epoch + 1))) ∧
  (∀ (s : State) (n : BitVec 48), InPhase s 4 → s.bring.wave = none → s.bring.lastWave = 8 →
    Answers (.phaseWavesEnd n) s fun t => PhaseEnded t 4 n 5) ∧
  (∀ (s : State) (n : BitVec 48) (clocks : Tbl Nat), InPhase s 5 →
    (∀ i, i < nSites → (s.site i).failed = true ∨ (s.site i).tested = true) →
    (∀ sh, sh < 12 → sh ∈ s.bring.shelfTested ∨ s.bring.domainFailed.getLsbD (shelfDomain sh) = true) →
    Answers (.phaseSelfTestEnd n clocks) s fun t => PhaseEnded t 5 n 6 ∧
      (s.bring.recal = false → t.imprint = s.imprint) ∧
      (s.bring.recal = true → t.imprint.calClock = clocks ∧ t.imprint.calOwner = true ∧ t.imprint.baselineEmpty = true ∧
        t.imprint.recalCount = s.imprint.recalCount + 1 ∧ t.imprint.recalPending = false)) ∧
  (∀ (s : State) (n : BitVec 48), InPhase s 7 → s.bring.fwNext = [] →
    (∀ i, i < nSites → (s.site i).failed = true ∨ (s.site i).verified = true) →
    Answers (.phaseYieldEnd n) s fun t => PhaseEnded t 7 n 8 ∧
      ∀ sh, sh < 12 → t.shelf sh = yieldMap (goodSites s sh) (s.shelf sh)) ∧
  (∀ (s : State) (n : BitVec 48), InPhase s 8 → fabricReady s = true ∨ allLinksOff s = true →
    Answers (.phaseAccessionEnd n) s fun t => PhaseEnded t 8 n 0xF ∧ t.host.busy = false ∧
      t.host.ready = (s.fab.accSt = .done && (s.host.ready || fabricReady s)) ∧
      (s.host.busy = true → Raised s t 32)) ∧
  ∀ s : State, s.bring.phase ≠ 0 → s.bring.phase ≠ 0xF → s.bring.halted = false →
    Answers .limitExceeded s fun t => t.bring.limitExceeded = (s.bring.limitExceeded || !s.bring.recal)

/-- PHASE_MEMORY_END, WAVE_SETTLED, WAVE_TIMEOUT. A restart is warm where the warm record stands, matches and every
CXL buffer has kept its contents; an HBM stack that fails halts phase 3; the next wave starts as one settles; a wave
that does not settle is tried domain by domain, and a domain that fails alone stays off with its sites, or halts the
bring-up; a command with no such phase or wave under way leaves the waves alone (R458, R467 to R470, R472, R497). -/
def Obligations.MemoryAndWaves : Prop :=
  (∀ (s : State) (n : BitVec 48) (trained retained : BitVec 4) (warmOk : Bool) (hbm : BitVec 8),
    (¬ InPhase s 3 ∨ s.bring.wave ≠ none ∨ s.bring.lastWave ≠ 1 →
      exec (.phaseMemoryEnd n trained retained warmOk hbm) s = .next s) ∧
    (s.bring.wave = none → exec .waveSettled s = .next s ∧
      exec .waveTimeout s = .next (cancelLoads (firmwareSettle s)))) ∧
  (∀ (s : State) (n : BitVec 48) (trained retained : BitVec 4) (warmOk : Bool) (hbm : BitVec 8), InPhase s 3 →
    s.bring.wave = none → s.bring.lastWave = 1 →
    (hbm ≠ 0xFF → Answers (.phaseMemoryEnd n trained retained warmOk hbm) s fun t => HaltedWith t 3 6) ∧
    (hbm = 0xFF → Answers (.phaseMemoryEnd n trained retained warmOk hbm) s fun t =>
      PhaseEnded t 3 n 4 ∧ t.bring.wave = some ⟨2, waveDomains 2, [], false, false⟩ ∧ t.bring.lastWave = 1 ∧
      (∀ k, k < 8 → (t.hbm k).st = .ready) ∧
      (∀ p, p < 4 → (t.cxl p).st = if trained.getLsbD p then .up else .failed) ∧
      (t.bring.warm = true ↔ (warmOk = true ∧ s.bring.recal = false ∧
        (∀ p, p < 4 → trained.getLsbD p = true ∧ retained.getLsbD p = true ∧ (s.cxl p).held = true) ∧
        ∃ w, s.bring.warmRec = some w ∧ w.epoch + 1 = s.host.epoch ∧ w.complete = true ∧
          w.calDigest = s.imprint.calDigest)) ∧
      (t.bring.warm = false → t.bring.sites = s.bring.sites) ∧
      (t.bring.warm = true → ∀ w i z, s.bring.warmRec = some w → tget w.sites i = some z → z.failed = true →
        (t.site i).failed = true ∧ (t.site i).cause = z.cause))) ∧
  (∀ (s : State) (w : WaveRun), s.bring.wave = some w →
    let ends : Prop := w.retrying = false ∨ w.retry = []
    let next : Prop := s.bring.phase = 4 ∧ 2 ≤ w.wave ∧ w.wave < 8 ∨ s.bring.phase = 3 ∧ w.wave = 0
    (ends → w.wake = false → next → Answers .waveSettled s fun t =>
      t.bring.wave = some ⟨w.wave + 1, waveDomains (w.wave + 1), [], false, false⟩ ∧
      t.bring.lastWave = BitVec.ofNat 4 w.wave ∧ ∀ d ∈ waveDomains (w.wave + 1), domainOn t d = true) ∧
    (ends → w.wake = false → ¬ next → Answers .waveSettled s fun t =>
      t.bring.wave = none ∧ t.bring.lastWave = BitVec.ofNat 4 w.wave ∧
      (w.wave ≠ 3 → t.bring.domainOn = s.bring.domainOn)) ∧
    (ends → w.wake = true → s.bring.waveQueue ≠ [] → Answers .waveSettled s fun t =>
      t.bring.wave = some ⟨s.bring.lastWave.toNat, s.bring.waveQueue.take 10, [], false, true⟩ ∧
      t.bring.waveQueue = s.bring.waveQueue.drop 10 ∧
      t.power.domainWakes = s.power.domainWakes + BitVec.ofNat 32 (s.bring.waveQueue.take 10).length) ∧
    (ends → w.wake = true → s.bring.waveQueue = [] → Answers .waveSettled s fun t =>
      t.bring.wave = none ∧ t.bring.waveQueue = [] ∧ t.bring.domainOn = s.bring.domainOn) ∧
    (∀ d r, w.retrying = true → w.retry = d :: r → d < 80 → Answers .waveSettled s fun t =>
      t.bring.wave = some { w with on := [d], retry := r } ∧ domainOn t d = true ∧
      ∀ e, e ≠ d → e < 80 → domainOn t e = domainOn s e)) ∧
  ∀ (s : State) (w : WaveRun), s.bring.wave = some w →
    (∀ d r, w.retrying = false → w.on = d :: r → d ∉ r → d < 80 → (∀ e ∈ r, e < 80) → Answers .waveTimeout s fun t =>
      t.bring.wave = some { w with on := [d], retry := r, retrying := true } ∧ domainOn t d = true ∧
      (∀ e ∈ r, domainOn t e = false) ∧ t.bring.waveRetries = s.bring.waveRetries + 1) ∧
    (∀ d, w.retrying = true → w.on = [d] → d ∈ waveDomains 0 ++ waveDomains 1 → Answers .waveTimeout s fun t =>
      HaltedWith t s.bring.phase 5) ∧
    (∀ d, w.retrying = true → w.on = [d] → d < 80 → d ∉ waveDomains 0 ++ waveDomains 1 → s.bring.halted = false →
      Answers .waveTimeout s fun t => t.bring.domainFailed.getLsbD d = true ∧
        ∀ i, i < nSites → siteDomain i = d ∨ shelfDomain (i / 13) = d → (t.site i).failed = true)

/-- SELF_TEST_RESULT, FW_BLOCK, FW_NAK, FW_NAK_TIMEOUT, FW_VERIFIED. A failed test fails the site with its cause, or
the sites of the shelf, or switches the media complex off; a block missed or damaged is asked for again; the third bad
unicast copy and a bad image fail the site; the cores start once every site has reported; a report that is not awaited
changes nothing (R471, R474 to R476). -/
def Obligations.TestsAndFirmware : Prop :=
  (∀ (s : State) (i : Nat) (cause : BitVec 4) (direct : Bool), i < 156 →
    let tests : Prop := (s.site i).failed = false ∧ (s.site i).tested = false ∧
      (InPhase s 5 ∨ i / 13 ∈ s.bring.wakes ∧ (s.site i).running = true)
    (¬ tests → exec (.selfTestResult i cause direct) s = .next s) ∧
    (tests → Answers (.selfTestResult i cause direct) s fun t =>
      (t.site i).tested = true ∧ (t.site i).failed = decide (cause ≠ 0) ∧ (cause ≠ 0 → (t.site i).cause = cause) ∧
      (direct = true → i % 13 < 12 → (s.site (i + 1)).failed = false →
        (t.site (i + 1)).failed = true ∧ (t.site (i + 1)).cause = 4) ∧
      ∀ j, j ≠ i → (j ≠ i + 1 ∨ direct = false) → t.site j = s.site j)) ∧
  (∀ (s : State) (sh : Nat) (cause : BitVec 4) (direct : Bool), sh < 12 →
    (¬ InPhase s 5 ∨ sh ∈ s.bring.shelfTested → exec (.selfTestResult (156 + sh) cause direct) s = .next s) ∧
    (InPhase s 5 → sh ∉ s.bring.shelfTested →
    Answers (.selfTestResult (156 + sh) cause direct) s fun t => sh ∈ t.bring.shelfTested ∧
      (cause = 0 → t.bring.sites = s.bring.sites) ∧
      (cause ≠ 0 → ∀ k, k < 13 → (t.site (sh * 13 + k)).failed = true ∧
        ((s.site (sh * 13 + k)).failed = false → (t.site (sh * 13 + k)).cause = cause)))) ∧
  (∀ (s : State) (x : Nat) (cause : BitVec 4) (direct : Bool), x < 2 →
    (¬ InPhase s 5 ∨ cause = 0 → exec (.selfTestResult (188 + x) cause direct) s = .next s) ∧
    (InPhase s 5 → cause ≠ 0 → Answers (.selfTestResult (188 + x) cause direct) s fun t =>
      x ∈ t.bring.mediaFailed ∧ ∀ d, d < 80 →
        domainOn t d = (domainOn s d && !decide (d = decodeDomain x ∨ d = streamsDomain x)))) ∧
  (∀ (s : State) (i b : Nat) (ok unicast : Bool), i < nSites → b < 32 →
    let x := s.site i
    let due : Prop := (tget s.bring.fwNext (i / 13)).isSome = true ∧ x.failed = false ∧ x.verified = false
    let expected := if x.next < fwBlocks s then some x.next else (List.range (fwBlocks s)).find? fun b => b ∉ x.blocks
    (¬ due → exec (.fwBlock i b ok unicast) s = .next (cancelLoads s) ∧ exec (.fwNak i b) s = .next s ∧
      exec (.fwNakTimeout i) s = .next s ∧ exec (.fwVerified i ok) s = .next (cancelLoads s)) ∧
    (due → ∀ sent, tget s.bring.fwNext (i / 13) = some sent →
      (b < x.next ∨ sent < b ∨ fwBlocks s ≤ b → exec (.fwBlock i b ok false) s = .next (cancelLoads s)) ∧
      (x.next ≤ b → b ≤ sent → b < fwBlocks s → Cancels (.fwBlock i b ok false) s fun t =>
        let asked := (List.range (b - x.next)).map (x.next + ·) ++ if ok then [] else [b]
        (t.site i).next = b + 1 ∧ (t.site i).naks = x.naks ++ asked ∧
        (t.site i).blocks = (if ok then setInsert x.blocks b else x.blocks) ∧
        t.bring.fwNaks = s.bring.fwNaks + BitVec.ofNat 32 asked.length ∧
        tget t.bring.fwNext (i / 13) = some (if b = sent then b + 1 else sent)) ∧
      (b ∉ x.unicasts → exec (.fwBlock i b ok true) s = .next (cancelLoads s)) ∧
      (b ∈ x.unicasts → Cancels (.fwBlock i b ok true) s fun t =>
        (ok = true → (t.site i).blocks = setInsert x.blocks b ∧ (t.site i).unicasts = x.unicasts.erase b) ∧
        (ok = false → x.fwFailures ≠ 2 → (t.site i).fwFailures = x.fwFailures + 1 ∧
          (t.site i).naks = x.naks ++ [b] ∧ (t.site i).failed = false ∧ t.bring.fwNaks = s.bring.fwNaks + 1) ∧
        (ok = false → x.fwFailures = 2 →
          (t.site i).failed = true ∧ (t.site i).cause = 5 ∧ t.bring.fwSiteFails = s.bring.fwSiteFails + 1)) ∧
      (b ∉ x.naks → exec (.fwNak i b) s = .next s) ∧
      (b ∈ x.naks → Answers (.fwNak i b) s fun t => (t.site i).naks = x.naks.erase b ∧
        (t.site i).unicasts = x.unicasts ++ (if b < sent then [b] else []) ∧
        t.bring.fwUnicasts = s.bring.fwUnicasts + if b < sent then 1 else 0) ∧
      (expected = none → exec (.fwNakTimeout i) s = .next s) ∧
      (∀ e, expected = some e → Answers (.fwNakTimeout i) s fun t =>
        (t.site i).naks = x.naks ++ [e] ∧ t.bring.fwNaks = s.bring.fwNaks + 1) ∧
      (x.blocks.length ≠ fwBlocks s → exec (.fwVerified i ok) s = .next (cancelLoads s)) ∧
      (x.blocks.length = fwBlocks s → Cancels (.fwVerified i ok) s fun t =>
        (ok = true → (t.site i).verified = true ∧ (t.site i).failed = false ∧
          (InPhase s 7 → (∀ j, j < nSites → j ≠ i → (s.site j).failed = true ∨ (s.site j).verified = true) →
            t.bring.fwNext = [] ∧ ∀ j, j < nSites → (s.site j).failed = false → (t.site j).running = true)) ∧
        (ok = false → (t.site i).failed = true ∧ (t.site i).cause = 5 ∧
          t.bring.fwSiteFails = s.bring.fwSiteFails + 1))))

/-- CORE_CHECK, SPARE_TEST_DONE. A core that fails its check is retired: its stage stops with CORE_FAILED and its
context faults, or the LOAD under way ends refused with CORE_RETIRED; a free spare is bound after its own test, or the
shelf is DEGRADED; a check of a site that has failed or is off changes nothing, and a spare's test ends only at a
boundary of the owning context (01 R36; R446, R478, R479, R489). -/
def Obligations.CoresAreRetired : Prop :=
  (∀ s : State, NoLoadOver s → cancelLoads s = s) ∧
  (∀ (s : State) (c : Nat), c < nCtx →
    (cancelLoads s).mem = s.mem ∧ (cancelLoads s).bring.sites = s.bring.sites ∧
    (((s.ctx c).st ≠ .idle ∨ (s.ctx c).loading = true ∨ (s.ctx c).image = none) →
      ((cancelLoads s).ctx c).st = (s.ctx c).st ∧ ((cancelLoads s).ctx c).image = (s.ctx c).image) ∧
    ((s.ctx c).st = .idle → (s.ctx c).loading = false → (s.ctx c).image ≠ none →
      ((cancelLoads s).ctx c).st = .idle ∧ ((cancelLoads s).ctx c).image = none ∧
      ∀ y ∈ s.host.taken, y.op = 4 → y.ctx = c → y.running = true → y.result = none →
        Ended (cancelLoads s) y.number (.refused .coreRetired))) ∧
  (∀ (s : State) (i : Nat), i < nSites →
    let checked : Prop := (s.site i).failed = false ∧ domainOn s (siteDomain i) = true ∧ 7 ≤ s.bring.phase.toNat
    (¬ checked → exec (.coreCheck i) s = .next (cancelLoads s)) ∧
    (checked → Cancels (.coreCheck i) s fun t =>
      (t.site i).failed = true ∧ (t.site i).cause = 8 ∧ (t.site i).running = false ∧
      (s.bring.phase = 8 ∨ s.bring.phase = 0xF → ∀ core, coreOfSite s i = some core →
        let free := decide ((s.shelf (i / 13)).spareSt = .free) &&
          !(s.shelf (i / 13)).lmap.any fun p => p.2.rebindPending
        let c := (s.core core).stage.ctx
        t.bring.retirements = s.bring.retirements + 1 ∧
        (lmapOf t core).retired = true ∧ (lmapOf t core).rebindPending = free ∧
        (t.shelf (i / 13)).spareSt = (if free then .free else .degraded) ∧
        ((s.core core).stage.info.isSome = true → (s.core core).stage.st ≠ .stopped →
          (t.core core).stage.st = .stopped ∧
          ((s.ctx c).st = .idle → (t.ctx c).st = .idle ∧ (t.ctx c).loading = false ∧
            (t.ctx c).image = (s.ctx c).image) ∧
          ((s.ctx c).st ≠ .idle → (t.ctx c).faults = (s.ctx c).faults + 1 ∧
            ((s.ctx c).fault = none → (t.ctx c).fault = some ⟨.coreFailed, some core, .retirement, 0⟩)))))) ∧
  ∀ (s : State) (sh : Nat) (ok : Bool), sh < nShelves →
    let test := s.bring.spareTests.find? fun c => c / 12 = sh
    (test = none ∨ atBoundary s sh = false → exec (.spareTestDone sh ok) s = .next s) ∧
    ∀ core, test = some core → atBoundary s sh = true → Answers (.spareTestDone sh ok) s fun t =>
      let m := tset (s.shelf sh).lmap (core % 12) ⟨(s.shelf sh).spareSite, false, false⟩
      let spare := sh * 13 + (s.shelf sh).spareSite.toNat
      (t.shelf sh).spareSite = 0xF ∧ core ∉ t.bring.spareTests ∧
      (ok = true → lmapOf t core = ⟨(s.shelf sh).spareSite, false, false⟩ ∧
        t.bring.spareBindings = s.bring.spareBindings + 1 ∧
        (t.shelf sh).spareSt = if m.any (fun p => p.2.retired) then .degraded else .bound) ∧
      (ok = false → (t.shelf sh).spareSt = .degraded ∧
        (t.site spare).failed = true ∧ (t.site spare).cause = 0xA ∧
        t.bring.spareTestFails = s.bring.spareTestFails + 1 ∧ (lmapOf t core).rebindPending = false)

/-- CAMPAIGN_OPEN, CAMPAIGN_PACKAGE_CHECK, CAMPAIGN_ACTIVATE, CAMPAIGN_ABORT. A member joins with a context, granules
and a session, or is REFUSED; it programs the package it has checked; the third failed attempt leaves it FAILED;
activation writes the boot folio, an abort leaves it (R482 to R486). -/
def Obligations.CampaignsRun : Prop :=
  (∀ (s : State) (r : Blob), Requested s r 6 false → r.len = 70 →
    let p := reqPayload r
    let serves := s.host.ready = true ∧ campaignRuns s = false ∧ cmpValid p = true
    (¬serves → Answers (.campaignOpen r) s fun t => Replied s t r 3 Blob.empty ∧ t.bring = s.bring ∧ t.fab = s.fab) ∧
    (serves → (tget s.imprint.writes (if s.bring.slotB then 1 else 2)).isSome = true →
      Answers (.campaignOpen r) s fun t => Replied s t r 5 Blob.empty ∧ t.bring = s.bring ∧ t.fab = s.fab) ∧
    (serves → tget s.imprint.writes (if s.bring.slotB then 1 else 2) = none →
      ((bootFolio s).trial = true ∨ freeCtxHigh s = none ∨ packageGranules s (cmpBytes p) = none →
        Answers (.campaignOpen r) s fun t => Replied s t r 0 Blob.empty ∧ t.bring.campaign.state = 5 ∧
          t.fab = s.fab ∧ t.ctxs = s.ctxs) ∧
      ∀ c gs, (bootFolio s).trial = false → freeCtxHigh s = some c → packageGranules s (cmpBytes p) = some gs →
        Answers (.campaignOpen r) s fun t => Replied s t r 0 Blob.empty ∧ t.bring.campaign.state = 1 ∧
          t.bring.campaign.slot = some c ∧ t.bring.campaign.id = cmpId p ∧ (t.ctx c).st = .idle ∧
          (t.ctx c).job = cmpId p ∧ (t.ctx c).mask = 0 ∧
          (∀ n ∈ gs, (t.granule n).assigned = true ∧ (t.granule n).context = BitVec.ofNat 4 c) ∧
          ∃ x, t.fab.sessions = s.fab.sessions ++ [x] ∧ x.job = cmpId p ∧ x.number = 0 ∧ x.parent = cmpParent p ∧
            x.children.map (·.acc) = cmpChildren p ∧ x.dest = granuleBase (gs.headD 0) ∧ x.length = cmpBytes p)) ∧
  (∀ (s : State) (sigOk backOk : Bool) (facts : PkgFacts),
    s.bring.campaign.state ≠ 1 ∨ (∀ x, findSession s s.bring.campaign.id 0 = some x → x.got < x.length ∧
      x.parent ≠ none) →
    exec (.campaignPackageCheck sigOk backOk facts) s = .next s) ∧
  (∀ (s : State) (sigOk backOk : Bool) (facts : PkgFacts) (x : Session), s.bring.campaign.state = 1 →
    findSession s s.bring.campaign.id 0 = some x → x.length ≤ x.got ∨ x.parent = none →
    let inactive := !s.bring.slotB
    let b := if x.parent = none then (fwSlot s inactive).data.slice 0 x.length else memRead s x.dest x.length
    let good := packageFits s b sigOk && (sm3 b) = BitVec.ofNat 256 ((⟨64,
      s.bring.campaign.record.toNat⟩ : Blob).bits 256 256) &&
      (x.parent.isSome || (fwSlot s inactive).data.len = x.length)
    (good = true → backOk = true → Answers (.campaignPackageCheck sigOk backOk facts) s fun t =>
      (t.bring.campaign.state = 2 ∨ x.parent = none ∧ t.bring.campaign.state = 3) ∧
      (x.parent ≠ none → fwSlot t inactive = { data := b, valid := true, facts := facts, digest := recDigest b }) ∧
      (x.parent = none → t.imprint = s.imprint)) ∧
    (good = false ∨ backOk = false → Answers (.campaignPackageCheck sigOk backOk facts) s fun t =>
      t.bring.campaign.attempts = s.bring.campaign.attempts + 1 ∧
      t.bring.campaign.state = if s.bring.campaign.attempts + 1 = 3 then 4 else 1)) ∧
  (∀ (s : State) (r : Blob), Requested s r 7 false → r.len = 10 →
    let id := (reqPayload r).bits 0 32
    (id ≠ s.bring.campaign.id.toNat → Answers (.campaignActivate r) s fun t =>
      Replied s t r 3 Blob.empty ∧ t.bring = s.bring ∧ t.imprint = s.imprint) ∧
    (id = s.bring.campaign.id.toNat → s.bring.campaign.state ≠ 2 → Answers (.campaignActivate r) s fun t =>
      Replied s t r 0 Blob.empty ∧ t.bring = s.bring ∧ t.imprint = s.imprint) ∧
    (id = s.bring.campaign.id.toNat → s.bring.campaign.state = 2 →
      Answers (.campaignActivate r) s fun t => Replied s t r 0 Blob.empty ∧ t.bring.campaign.state = 6 ∧
        (∀ c, s.bring.campaign.slot = some c → (s.ctx c).st ≠ .free →
          (t.ctx c).tear = some ⟨.destroy false, false⟩) ∧
        (s.imprint.boot0.valid = true ∨ s.imprint.boot1.valid = true → (bootFolio s).generation ≠ 0xFFFFFFFF →
          (bootFolio t).slotB = !s.bring.slotB ∧ (bootFolio t).trial = true ∧ (bootFolio t).trialStarted = false ∧
          (bootFolio t).lastCampaign = s.bring.campaign.id ∧ (bootFolio t).epoch = (bootFolio s).epoch))) ∧
  ∀ (s : State) (r : Blob), Requested s r 8 false → r.len = 10 →
    let id := (reqPayload r).bits 0 32
    (id ≠ s.bring.campaign.id.toNat → Answers (.campaignAbort r) s fun t =>
      Replied s t r 3 Blob.empty ∧ t.bring = s.bring ∧ t.imprint = s.imprint) ∧
    (id = s.bring.campaign.id.toNat → s.bring.campaign.state ≠ 6 → Answers (.campaignAbort r) s fun t =>
      Replied s t r 0 Blob.empty ∧ t.bring.campaign.state = 0 ∧ t.imprint = s.imprint ∧
      ∀ c, s.bring.campaign.slot = some c → (s.ctx c).st ≠ .free → (t.ctx c).tear = some ⟨.destroy false, false⟩) ∧
    (id = s.bring.campaign.id.toNat → s.bring.campaign.state = 6 → Answers (.campaignAbort r) s fun t =>
      Replied s t r 0 Blob.empty ∧ t.bring.campaign.state = 6 ∧ t.imprint = s.imprint ∧ t.ctxs = s.ctxs)

/-- PHASE_AGEING_END, MEASUREMENT_DONE. Each crossing of a step of slowdown raises LEVEL by one, and is met by the
guard, else by the clock, else by the site's failure or AGEING_LIMIT; a baseline starts every entry again, else each
island starts at its clock less the steps taken; an island that is not measured keeps its entry (R473, R474, R499,
R501, R502, R504, R507; LEVEL ends at 255, log entry 54). -/
def Obligations.AgeingIsPlanned : Prop :=
  (∀ (s : State) (n : BitVec 48) (results : Tbl (BitVec 16 × List Bool)),
    (¬ InPhase s 6 → exec (.phaseAgeingEnd n results) s = .next s) ∧
    (InPhase s 6 → Answers (.phaseAgeingEnd n results) s fun t => PhaseEnded t 6 n 7 ∧
      t.power.measurements = s.power.measurements + 1 ∧ t.power.wearWrites = s.power.wearWrites + 1 ∧
      (∀ sh, sh < 12 → tget t.bring.fwNext sh = some 0) ∧
      (s.imprint.baselineEmpty = true ∨ s.bring.wearReset = true →
        t.imprint.baselineEmpty = false ∧ t.power.sinceBase = 0 ∧ t.power.baseEpoch = s.host.epoch ∧
        ∀ i, i < 193 → t.wear i = { ({} : Wear) with clk := BitVec.ofNat 16 (planClock s i) }) ∧
      (s.imprint.baselineEmpty = false → s.bring.wearReset = false → ∀ i, i < 193 → (∀ r ∈ results, r.1 ≠ i) →
        t.wear i = { s.wear i with clk := BitVec.ofNat 16 (planClock s i - 100 * (s.wear i).lowered) }))) ∧
  (∀ (s : State) (results : Tbl (BitVec 16 × List Bool)),
    (s.power.measuring = false → exec (.measurementDone results) s = .next (cancelLoads s)) ∧
    (s.power.measuring = true → Cancels (.measurementDone results) s fun t =>
      t.power.measurements = s.power.measurements + 1 ∧ t.power.measuring = false ∧
      ∀ i, (∀ r ∈ results, r.1 ≠ i) → t.wear i = s.wear i)) ∧
  ∀ (s : State) (i : Nat) (sd : BitVec 16) (ok : Bool), s.power.measuring = true → measured s i = true →
    let w := s.wear i
    let crossing := (w.level.toNat + 1) * s.default 8 ≤ sd.toNat ∧ sd.toNat < (w.level.toNat + 2) * s.default 8 ∧
      w.level ≠ 255
    let guard := w.guard.toNat + 5 ≤ s.default 9 ∧ ok = true
    let clock := i < 168 ∧ s.default 10 + 100 ≤ w.clk.toNat
    let after := fun P => Cancels (.measurementDone [(i, sd, [ok])]) s fun t =>
      t.power.measurements = s.power.measurements + 1 ∧ t.power.measuring = false ∧ P t
    (sd.toNat < (w.level.toNat + 1) * s.default 8 ∨ w.level = 255 → after fun t => t.wear i = { w with s := sd }) ∧
    (crossing → guard → after fun t => t.power.guardRaises = s.power.guardRaises + 1 ∧
      t.wear i = { w with s := sd, level := w.level + 1, guard := w.guard + 5 }) ∧
    (crossing → ¬guard → clock → after fun t => t.power.clockLowered = s.power.clockLowered + 1 ∧
      t.wear i = { w with s := sd, level := w.level + 1, clk := w.clk - 100, lowered := w.lowered + 1 }) ∧
    (crossing → ¬guard → ¬clock → i < 156 → after fun t =>
      t.wear i = { w with s := sd, level := w.level + 1 } ∧ (t.site i).failed = true ∧
      ((s.site i).failed = false → (t.site i).cause = 6)) ∧
    (crossing → ¬guard → ¬clock → 156 ≤ i → after fun t =>
      t.wear i = { w with s := sd, level := w.level + 1, ageingLimit := true })

/-- GOVERNOR_EVALUATION, DOMAIN_IDLE_TIMEOUT. The governor lowers its ceiling by 100 MHz above the limit and raises it
after 16 evaluations below 95 %; a die at THROTTLE lowers its own; 115 °C trips; an idle domain is switched off (R493,
R494, R496, R574). -/
def Obligations.PowerIsGoverned : Prop :=
  (∀ (s : State) (watts mv : BitVec 32) (temps : Tbl (BitVec 8)), s.pins.diesInReset = false → 3 ≤ s.bring.phase.toNat →
    let read := temps.foldl (fun t (e : Nat × BitVec 8) => if e.1 < 193 then tset t e.1 e.2 else t) s.power.temps
    let temp := fun i => (tgetD read i (0 : BitVec 8)).toInt
    let throttle : Int := s.default 7
    let top := s.default 1 / 100 * 100
    let ceil := min s.power.govCeiling top
    let trips := ∃ i, i < 193 ∧ 115 ≤ temp i
    (trips → Answers (.governorEvaluation watts mv temps) s fun t => t.pins.tripLatched = true ∧
      t.pins.diesInReset = true ∧ t.pins.thermAlertN = false ∧ t.power.nextCause = 4) ∧
    (¬trips → Answers (.governorEvaluation watts mv temps) s fun t =>
      t.power.inputPowerW = watts ∧ t.power.inputMv = mv ∧ t.power.temps = read ∧
      (t.pins.thermAlertN = true ↔ ∀ i, i < 193 → temp i < throttle) ∧
      (s.default 0 < watts.toNat → 1100 ≤ ceil → t.power.govCeiling = ceil - 100 ∧
        t.power.govStepsDown = s.power.govStepsDown + 1 ∧ t.power.govBelow = 0) ∧
      (s.default 0 < watts.toNat → ceil < 1100 → t.power.govCeiling = ceil ∧ t.power.powerUnmet = true) ∧
      (watts.toNat ≤ s.default 0 → t.power.powerUnmet = false ∧
        (95 * s.default 0 ≤ 100 * watts.toNat → t.power.govCeiling = ceil ∧ t.power.govBelow = 0) ∧
        (100 * watts.toNat < 95 * s.default 0 → s.power.govBelow = 15 →
          t.power.govCeiling = min (ceil + 100) top ∧ t.power.govBelow = 0) ∧
        (100 * watts.toNat < 95 * s.default 0 → s.power.govBelow ≠ 15 →
          t.power.govCeiling = ceil ∧ t.power.govBelow = s.power.govBelow + 1)) ∧
      ∀ d, d < 2 → let c := tgetD s.power.thermal d (fusedClock s.variant)
        let hot := ∃ i, i < 193 ∧ islandDie i = d ∧ throttle ≤ temp i
        let cool := ∀ i, i < 193 → islandDie i = d → temp i + 5 ≤ throttle
        let now := tgetD t.power.thermal d (fusedClock s.variant)
        (hot → now = max 1000 (c - 100)) ∧
        (¬hot → cool → tgetD s.power.thermalBelow d 0 = 15 → now = min (fusedClock s.variant) (c + 100)) ∧
        (¬hot → ¬cool ∨ tgetD s.power.thermalBelow d 0 ≠ 15 → now = c))) ∧
  (∀ (s : State) (watts mv : BitVec 32) (temps : Tbl (BitVec 8)), s.pins.diesInReset = true ∨ s.bring.phase.toNat < 3 →
    exec (.governorEvaluation watts mv temps) s = .next s) ∧
  (∀ (s : State) (u : Nat), u < 16 →
    s.bring.phase ≠ 0xF ∨ s.default 5 = 0 ∨
    u < 12 ∧ ((shelfOwner s u).isSome = true ∨ u ∈ s.bring.wakes ∨ ∃ c ∈ s.bring.spareTests, c / 12 = u) ∨
    12 ≤ u ∧ u < 14 ∧ queueOpen s (u - 12) true = true ∨ 14 ≤ u ∧ queueOpen s (u - 14) false = true →
    exec (.domainIdleTimeout u) s = .next s) ∧
  ∀ (s : State), s.bring.phase = 0xF → s.default 5 ≠ 0 →
    let off := fun (t : State) (ds : List Nat) => (∀ d, d < 80 → domainOn t d = (domainOn s d && !decide (d ∈ ds))) ∧
      t.power.domainGatings = s.power.domainGatings + BitVec.ofNat 32 (ds.filter (domainOn s)).length
    (∀ u, u < 12 → shelfOwner s u = none → u ∉ s.bring.wakes → (∀ c ∈ s.bring.spareTests, c / 12 ≠ u) →
      Answers (.domainIdleTimeout u) s fun t => off t (coreDomains u) ∧
        ∀ k, k < 13 → (t.site (u * 13 + k)).running = false ∧ (t.site (u * 13 + k)).blocks = []) ∧
    (∀ x, x < 2 → queueOpen s x true = false →
      Answers (.domainIdleTimeout (12 + x)) s fun t => off t [decodeDomain x]) ∧
    ∀ x, x < 2 → queueOpen s x false = false → Answers (.domainIdleTimeout (14 + x)) s fun t => off t [streamsDomain x]

/-- MU_RECORD, MU_INPUT_LOSS, MU_INPUT_RETURN, MU_RECORD_TIMEOUT, MU_SEAL_OPEN, MU_RESEAL, MU_FIRMWARE_LOAD. A record
counts the energy whatever the dies do, and MU_TX sends its 72 bytes; the totals survive a loss of the input; the
firmware port is ignored while the seal is intact, and an unpowered unit does nothing but take its input again (R511,
R513, R514, R582). -/
def Obligations.MeteringUnitCounts : Prop :=
  (∀ (s : State) (energy power mv : BitVec 32) (ok : Bool), s.mu.powered = false →
    exec (.muRecord energy power mv ok) s = .next s) ∧
  (∀ (s : State) (energy power mv : BitVec 32) (ok : Bool), s.mu.powered = true →
    Answers (.muRecord energy power mv ok) s fun t => t = { s with mu := t.mu } ∧
      t.mu.seq = s.mu.seq + 1 ∧ t.mu.energyMj = s.mu.energyMj + energy.setWidth 64 ∧ t.mu.present = true ∧
      t.mu.sent = s.mu.sent + 1 ∧ t.mu.tx.len = 72 ∧ t.mu.tx.byte 0 = 0x5A ∧ t.mu.tx.byte 1 = 0xA5 ∧
      t.mu.tx.bits 16 32 = t.mu.seq.toNat ∧
      t.mu.window.seq = t.mu.seq ∧ t.mu.window.energyMj = t.mu.energyMj ∧ t.mu.window.powerMw = power ∧
      t.mu.window.voltageMv = mv ∧ (t.mu.window.inputPresent = true ↔ 36000 ≤ mv.toNat) ∧
        t.mu.window.selfCheckOk = ok ∧ t.mu.window.sealIntact = s.mu.sealIntact ∧
      t.mu.window.inputLosses = s.mu.inputLosses ∧ t.mu.window.fwVersion = s.mu.fwVersion ∧
      t.mu.window.fwDigest = s.mu.fwDigest ∧
      (t.mu.window.inClass = true ↔
        44000 ≤ mv.toNat ∧ mv.toNat ≤ 59500 ∧ 25000 ≤ power.toNat ∧ power.toNat ≤ 2700000)) ∧
  (∀ s : State, s.mu.powered = true → Answers .muInputLoss s fun t =>
    t = { s with mu := { s.mu with committed := some s.mu.energyMj, powered := false } }) ∧
  (∀ s : State, s.mu.powered = false → exec .muInputLoss s = .next s) ∧
  (∀ s : State, s.mu.powered = true → exec .muInputReturn s = .next s) ∧
  (∀ s : State, s.mu.powered = false → s.mu.committed = none → Answers .muInputReturn s fun t =>
    t = { s with mu := { s.mu with powered := true } }) ∧
  (∀ (s : State) (total : BitVec 64), s.mu.powered = false → s.mu.committed = some total →
    Answers .muInputReturn s fun t => t.mu = { s.mu with
      energyMj := total, inputLosses := s.mu.inputLosses + 1, committed := none, powered := true }) ∧
  (∀ s : State, Answers .muRecordTimeout s fun t => t = { s with mu := { s.mu with present := false } }) ∧
  (∀ s : State, Answers .muSealOpen s fun t => t = { s with mu := { s.mu with sealIntact := false } }) ∧
  (∀ s : State, Answers .muReseal s fun t => t = { s with mu := { s.mu with sealIntact := true } }) ∧
  (∀ (s : State) (version : BitVec 32) (digest : BitVec 256), s.mu.powered = true → s.mu.sealIntact = false →
    Answers (.muFirmwareLoad true version digest) s fun t =>
      t = { s with mu := { s.mu with fwVersion := version, fwDigest := digest } }) ∧
  ∀ (s : State) (ok : Bool) (version : BitVec 32) (digest : BitVec 256), s.mu.sealIntact = true ∨ ok = false ∨
    s.mu.powered = false →
    exec (.muFirmwareLoad ok version digest) s = .next s

/-- INPUT_OUT_OF_RANGE, MODULE_INSERTION, INPUT_SETTLED, MOD_RESET_ASSERT, RESET_DEADLINE, MOD_RESET_RELEASE,
TRIP_RELEASE, REGULATOR_FAULT. The dies are held in reset out of range, by MOD_RESET_N and by a trip, and a bring-up
begins when nothing holds them; the cause is kept (R491, R492, R565, R572, R573, R574). -/
def Obligations.InputAndResets : Prop :=
  (∀ (s : State) (mv : BitVec 32), s.pins.inserted = true → mv.toNat < 44000 ∨ 59500 < mv.toNat →
    Answers (.inputOutOfRange mv) s fun t => t.pins.inRange = false ∧ t.pins.pwrGood = false ∧
      t.pins.diesInReset = true ∧ t.power.nextCause = (if mv.toNat < 44000 then 2 else 3) ∧ t.bring.phase = 0 ∧
      ResetKeeps s t) ∧
  (∀ (s : State) (mv : BitVec 32), s.pins.inserted = false → Answers (.moduleInsertion mv) s fun t =>
    t.pins = { s.pins with inserted := true, pwrGood := false, diesInReset := true } ∧ t.power.inputMv = mv ∧
      t.power.nextCause = 0 ∧ (36000 ≤ mv.toNat → t.mu.powered = true) ∧ (mv.toNat < 36000 → t.mu = s.mu)) ∧
  (∀ s : State, s.pins.inserted = true → Answers .inputSettled s fun t =>
    t.pins.pwrGood = true ∧ t.pins.inRange = true ∧
      t.pins.diesInReset = (s.pins.diesInReset && (!s.pins.modResetN || s.pins.tripLatched))) ∧
  (∀ s : State, Answers .modResetAssert s fun t =>
    t.pins = { s.pins with modResetN := false, resetRequested := true } ∧
      t.power = { s.power with nextCause := 1 } ∧
      (s.pins.diesInReset = false → ∀ h, h < 16 → (s.link h).isUp = true → (t.link h).leaving = 64)) ∧
  (∀ s : State, s.pins.resetRequested = true → s.pins.diesInReset = false → Answers .resetDeadline s fun t =>
    t.pins.resetRequested = false ∧ ResetKeeps s t ∧
      (s.pins.modResetN = false ∨ s.pins.inRange = false ∨ s.pins.tripLatched = true →
        t.pins.diesInReset = true ∧ t.bring.phase = 0 ∧ t.power.nextCause = s.power.nextCause) ∧
      (s.pins.modResetN = true → s.pins.inRange = true → s.pins.tripLatched = false → Began s t)) ∧
  (∀ s : State, Answers .modResetRelease s fun t => t.pins.modResetN = true ∧
    (s.pins.diesInReset = true → s.pins.inRange = true → s.pins.tripLatched = false → Began s t) ∧
    (s.pins.diesInReset = false ∨ s.pins.inRange = false ∨ s.pins.tripLatched = true →
      t = { s with pins := { s.pins with modResetN := true } })) ∧
  (∀ s : State, s.pins.tripLatched = true → Answers .tripRelease s fun t =>
    t.pins.tripLatched = false ∧ t.pins.thermAlertN = true ∧
      (s.pins.diesInReset = true → s.pins.inRange = true → s.pins.modResetN = true → Began s t) ∧
      (s.pins.diesInReset = false ∨ s.pins.inRange = false ∨ s.pins.modResetN = false →
        t = { s with pins := { s.pins with tripLatched := false, thermAlertN := true } })) ∧
  (∀ s : State, s.pins.resetRequested = true → s.pins.diesInReset = true → Answers .resetDeadline s fun t =>
    t.pins.resetRequested = false ∧
      (s.pins.modResetN = true → s.pins.inRange = true → s.pins.tripLatched = false → Began s t) ∧
      (s.pins.modResetN = false ∨ s.pins.inRange = false ∨ s.pins.tripLatched = true →
        t = { s with pins := { s.pins with resetRequested := false } })) ∧
  (∀ (s : State) (mv : BitVec 32),
    (s.pins.inserted = false ∨ 44000 ≤ mv.toNat ∧ mv.toNat ≤ 59500 → exec (.inputOutOfRange mv) s = .next s) ∧
    (s.pins.inserted = true → exec (.moduleInsertion mv) s = .next s) ∧
    (s.pins.inserted = false → exec .inputSettled s = .next s) ∧
    (s.pins.resetRequested = false → exec .resetDeadline s = .next s) ∧
    (s.pins.tripLatched = false → exec .tripRelease s = .next s)) ∧
  ∀ s : State, Answers .regulatorFault s fun t => t = { s with pins := { s.pins with pwrGood := false } }

/-- ATTEST, ENROL, RELEASE, RECALIBRATE, KEY_SLOT_GRANT. A request that passes its checks acts once, and raises
OWNER_NONCE unless it is ATTEST; one that fails changes nothing but its result; while a RELEASE waits every one is
NOT_NOW; RELEASE empties the catalogue, the volume keys and the ledger directory once no volume is under way; a
waiting key takes the freed slot (R505, R527 to R530, R533, R534, R546). -/
def Obligations.OwnersAndAttestation : Prop :=
  (∀ (s : State) (r : Blob), Requested s r 3 false → r.len = 238 → s.sec.release.isSome = true →
    ∀ i, (∃ sig, i = Instr.attest r sig) ∨ (∃ ok, i = .enrol r ok) ∨ (∃ ok, i = .recalibrate r ok) ∨ (∃ ok,
      i = .release r ok) →
      Answers i s fun t => Replied s t r 3 Blob.empty ∧ t.imprint = s.imprint ∧ t.host = s.host ∧ t.sec = s.sec) ∧
  (∀ (s : State) (r : Blob), Requested s r 3 false → r.len = 238 → s.sec.release = none →
    let p := reqPayload r
    let o := ownerFolio s
    let key := BitVec.ofNat 512 (ownPayload p 0 512)
    let next := BitVec.ofNat 256 (ownPayload p 0 256)
    let formed := fun typ => ownType p = typ ∧ ownReserved p = 0 ∧ ownUnused p = 0 ∧ ownSerialOf p = s.sec.serial.toNat
    let owned := ownerInvalid s = false ∧ o.key.isSome = true
    let kept := fun (t : State) (f : OwnerFolio) => o.sequence ≠ 0xFFFFFFFF → ownerFolio t = f
    let idle := ∀ c, c < nCtx → (s.ctx c).st = .free
    let told := fun (t : State) (typ : Nat) => t.sec.reqType = BitVec.ofNat 8 typ ∧ t.sec.reqResult = 0
    (∀ sig, formed 1 → requestSigned s p true = true → Answers (.attest r sig) s fun t =>
      told t 1 ∧ t.sec.reports = s.sec.reports + 1 ∧ t.sec.report.len = 1440 ∧ t.imprint = s.imprint ∧
      t.sec.report = ⟨1440, reportBody s (ownPayload p 0 256) + 2 ^ 11008 * sig.toNat⟩ ∧
      Replied s t r 0 (Blob.append ⟨1, 0⟩ t.sec.report)) ∧
    (formed 2 → ownNonce p = o.nonce → requestSigned s p true = true → ownerInvalid s = false → o.key = none →
      idle → o.nextDigest = 0 ∨ keyDigest key = o.nextDigest →
      Answers (.enrol r true) s fun t => told t 2 ∧ Replied s t r 0 ⟨1, 0⟩ ∧
        kept t ⟨true, some key, o.nonce + 1, 0, o.sequence + 1⟩) ∧
    (formed 4 → ownNonce p = o.nonce → requestSigned s p true = true → owned →
      Answers (.recalibrate r true) s fun t => told t 4 ∧ Replied s t r 0 ⟨1, 0⟩ ∧ t.imprint.recalPending = true ∧
        kept t ⟨true, o.key, o.nonce + 1, o.nextDigest, o.sequence + 1⟩) ∧
    (formed 3 → ownNonce p = o.nonce → requestSigned s p true = true → owned → idle →
      (volumesUnderWay s s.host.takes = false → Answers (.release r true) s fun t =>
        told t 3 ∧ Replied s t r 0 ⟨1, 0⟩ ∧ kept t ⟨true, none, o.nonce + 1, next, o.sequence + 1⟩ ∧
        t.host.cat = [] ∧ t.host.volumes = [] ∧ t.ledger.jobs = [] ∧ t.imprint.ownerLayer = none ∧
        t.imprint.recalPending = false ∧ t.power.defaults = [] ∧ t.sec.release = none ∧
        ∀ v ∈ s.host.volumes, KeyGone (.volume v.job) t ∧ KeyGone (.sample v.job) t ∧ KeyGone (.exported v.job) t) ∧
      (volumesUnderWay s s.host.takes = true → Answers (.release r true) s fun t =>
        told t 3 ∧ t.sec.release = some (next, s.host.takes) ∧ t.mgmt.response = none ∧ t.mgmt.waiting = true ∧
        t.imprint = s.imprint ∧ t.host = s.host)) ∧
    ∀ x ∈ [(1, Instr.attest r 0, true), (2, .enrol r true, true), (2, .enrol r false, false), (3, .release r true,
      true),
        (3, .release r false, false), (4, .recalibrate r true, true), (4, .recalibrate r false, false)],
      ∀ code, requestResult s x.1 p x.2.2 = code → code ≠ 0 → Answers x.2.1 s fun t =>
        Replied s t r 0 ⟨1, code⟩ ∧ t.sec.reqResult = BitVec.ofNat 8 code ∧ t.imprint = s.imprint ∧ t.host = s.host ∧
        t.sec.slots = s.sec.slots ∧ t.sec.report = s.sec.report ∧ t.sec.release = none) ∧
  (∀ (s : State) (slot : Nat) (k : KeyId) (v : BitVec 256) (ks : List (KeyId × BitVec 256)), slot < 128 →
    s.sec.waiting = (k, v) :: ks →
    (∀ e, tget s.sec.slots slot = some e → e.key.fixed = false ∧ e.inUse = false) →
    Answers (.keySlotGrant slot) s fun t => t.sec.waiting = ks ∧
      tget t.sec.slots slot = some ⟨k, v, k.fixed, s.sec.clock + 1⟩ ∧
      ∀ j, j ≠ slot → tget t.sec.slots j = tget s.sec.slots j) ∧
  (∀ (s : State) (slot : Nat), slot < 128 → s.sec.waiting = [] → exec (.keySlotGrant slot) s = .next s) ∧
  ∀ (s : State) (slot : Nat) (e : KeySlot), slot < 128 → tget s.sec.slots slot = some e →
    e.key.fixed = true ∨ e.inUse = true → exec (.keySlotGrant slot) s = .next s

/-- IDENTIFY, READ_CONTROL, IMPRINT_WRITE, IMPRINT_COMMIT, REBUILD_BOOT, MANAGEMENT_RESPONSE_READ. A region is written
from OFFSET 0 upward and takes effect at a commit that verifies; a frame that fails its check or has another length
gets BAD_FRAME, an operation that is not served BAD_OPCODE; nobody answers in reset (R576 to R578, R580, R581). -/
def Obligations.ManagementRequests : Prop :=
  (∀ (s : State) (r : Blob), Requested s r 1 true → r.len = 6 → Answers (.identify r) s fun t =>
    Replied s t r 0 (identifyBlob s) ∧ t = { s with mgmt := t.mgmt } ∧ (identifyBlob s).len = 28 ∧
      (identifyBlob s).bits 32 64 = s.sec.serial.toNat ∧ (identifyBlob s).bits 96 32 = s.host.epoch.toNat) ∧
  (∀ (s : State) (r : Blob), Requested s r 2 true → r.len = 18 →
    let o := (reqPayload r).bits 0 64
    let n := (reqPayload r).bits 64 32
    let fits := o % 4 = 0 ∧ n % 4 = 0 ∧ 4 ≤ n ∧ n ≤ 4096 ∧ o + n ≤ 0x10000000
    let served := mgmtMode s = .firmware ∨ romBlock o n = true
    (¬fits → Answers (.readControl r) s fun t => Replied s t r 4 Blob.empty ∧ t = { s with mgmt := t.mgmt }) ∧
    (fits → ¬served → Answers (.readControl r) s fun t => Replied s t r 2 Blob.empty ∧ t = { s with mgmt := t.mgmt }) ∧
    (fits → served → n = 4 → Answers (.readControl r) s fun t => Replied s t r 0 ⟨4, (controlRead32 s 1 o).1⟩) ∧
    (fits → served → n ≠ 4 → Answers (.readControl r) s fun t =>
      Replied s t r 0 (controlBytes s o n) ∧ t = { s with mgmt := t.mgmt })) ∧
  (∀ (s : State) (r : Blob), Requested s r 4 true → 14 ≤ r.len → r.len ≤ 4102 →
    let region := (reqPayload r).byte 0
    let off := (reqPayload r).bits 32 32
    let d := (reqPayload r).slice 8 (r.len - 14)
    let slot := decide (region = 2)
    let told := fun status => Answers (.imprintWrite r) s fun t =>
      Replied s t r status Blob.empty ∧ t.imprint = s.imprint
    let open' := haltedWith s 2 = true ∨ 3 ≤ region ∨
      slotActive s slot = false ∧ (bootFolio s).trial = false ∧ campaignRuns s = false
    (mgmtMode s = .rom → region ≠ 1 → region ≠ 2 → told 2) ∧
    (mgmtMode s = .firmware ∨ region = 1 ∨ region = 2 →
    (region = 0 ∨ 4 < region → told 4) ∧
    (1 ≤ region → region ≤ 2 → haltedWith s 2 = false →
      (slotActive s slot = true → told 4) ∧
      (slotActive s slot = false → (bootFolio s).trial = true → told 3) ∧
      (slotActive s slot = false → (bootFolio s).trial = false → campaignRuns s = true → told 5)) ∧
    (1 ≤ region → region ≤ 4 → open' →
      (off = 0 → d.len ≤ regionBytes region → Answers (.imprintWrite r) s fun t => Replied s t r 0 Blob.empty ∧
        tget t.imprint.writes region = some d ∧ (region ≤ 2 → fwSlot t slot = { data := d }) ∧
        t.imprint.fabric = s.imprint.fabric ∧ t.imprint.ownerLayer = s.imprint.ownerLayer) ∧
      (∀ b, off ≠ 0 → tget s.imprint.writes region = some b → off = b.len → off + d.len ≤ regionBytes region →
        Answers (.imprintWrite r) s fun t => Replied s t r 0 Blob.empty ∧
          tget t.imprint.writes region = some (Blob.append b d) ∧
          (region ≤ 2 → fwSlot t slot = { data := Blob.append b d }) ∧
          t.imprint.fabric = s.imprint.fabric ∧ t.imprint.ownerLayer = s.imprint.ownerLayer) ∧
      (off ≠ 0 → (∀ b, tget s.imprint.writes region = some b → off ≠ b.len) → told 4) ∧
      (regionBytes region < off + d.len → told 4)))) ∧
  (∀ (s : State) (r : Blob) (sigOk : Bool) (facts : PkgFacts), Requested s r 5 true → r.len = 7 →
    let region := (reqPayload r).byte 0
    let slot := decide (region = 2)
    let c := Instr.imprintCommit r sigOk facts
    let done := fun (t : State) => Replied s t r 0 Blob.empty ∧ t.imprint.writes = terase s.imprint.writes region
    let fails := Answers c s fun t => Replied s t r 6 Blob.empty ∧ t.imprint = s.imprint ∧
      t.sec.colophonFailures = s.sec.colophonFailures + 1
    (mgmtMode s = .rom → region ≠ 1 → region ≠ 2 → Answers c s fun t =>
      Replied s t r 2 Blob.empty ∧ t.imprint = s.imprint) ∧
    (mgmtMode s = .firmware ∨ region = 1 ∨ region = 2 →
    (tget s.imprint.writes region = none → Answers c s fun t => Replied s t r 4 Blob.empty ∧ t.imprint = s.imprint) ∧
    ∀ b, tget s.imprint.writes region = some b →
      let signed := b.len ≠ 0 ∧ (recColophon b 0 8 = 0 ∨ sigOk = true)
      let takes := fun kind none' old => signed ∧ colophonFits s b kind false = true ∧ ownerSigned s b none' = true ∧
        newerRecord old b = true
      (region ≤ 2 →
        (packageFits s b sigOk = true → Answers c s fun t => done t ∧
          fwSlot t slot = { data := b, valid := true, facts := facts, digest := recDigest b }) ∧
        (packageFits s b sigOk = false → fails)) ∧
      (region = 3 →
        (takes 5 true s.imprint.fabric → Answers c s fun t => done t ∧ t.imprint.fabric = some b ∧ t.fab = s.fab) ∧
        (¬takes 5 true s.imprint.fabric → fails)) ∧
      (region = 4 →
        (takes 6 false s.imprint.ownerLayer → Answers c s fun t => done t ∧ t.imprint.ownerLayer = some b ∧
          t.power.defaults = (if layerTwice b then [] else layerValues b)) ∧
        (¬takes 6 false s.imprint.ownerLayer → fails)))) ∧
  (∀ (s : State) (r : Blob), Requested s r 9 true → r.len = 6 →
    let serves := haltedWith s 1 = true ∧ s.imprint.factoryValid = true
    let f : BootFolio :=
      { valid := true, generation := 1, slotB := !s.imprint.slotA.valid
        epoch := if wearValid s then (wearFolio s).epoch + 65536 else 0x80000000 }
    (serves → Answers (.rebuildBoot r) s fun t => Replied s t r 0 Blob.empty ∧ t.imprint.boot0 = f ∧
      t.imprint.boot1 = { f with generation := 2 } ∧ t.bring = s.bring) ∧
    (¬serves → Answers (.rebuildBoot r) s fun t => Replied s t r 3 Blob.empty ∧ t.imprint = s.imprint)) ∧
  (∀ s : State, mgmtMode s ≠ .off → Answers .managementResponseRead s fun t =>
    t = { s with mgmt := { s.mgmt with response := none, answers := s.mgmt.answers ++
      [s.mgmt.response.getD (mgmtMessage s.mgmt.opcode s.mgmt.tag 0xFF Blob.empty)] } }) ∧
  (∀ s : State, mgmtMode s = .off → exec .managementResponseRead s = .next s) ∧
  ∀ (s : State) (r : Blob) (sig : BitVec 512) (ok : Bool) (facts : PkgFacts),
    ∀ x ∈ [(Instr.identify r, 1, true, 6, 6), (.readControl r, 2, true, 18, 18), (.attest r sig, 3, false, 238, 238),
        (.enrol r ok, 3, false, 238, 238), (.recalibrate r ok, 3, false, 238, 238), (.release r ok, 3, false, 238, 238),
        (.imprintWrite r, 4, true, 14, 4102), (.imprintCommit r ok facts, 5, true, 7, 7),
        (.campaignOpen r, 6, false, 70, 70), (.campaignActivate r, 7, false, 10, 10), (.campaignAbort r, 8, false,
          10, 10),
        (.rebuildBoot r, 9, true, 6, 6)],
      (mgmtMode s = .off → exec x.1 s = .next s) ∧
      (mgmtMode s ≠ .off → reqIntact r = false → Answers x.1 s fun t =>
        Replied s t r 1 Blob.empty ∧ t = { s with mgmt := t.mgmt }) ∧
      (mgmtMode s ≠ .off → reqIntact r = true → reqOpcode r ≠ x.2.1 ∨ mgmtMode s = .rom ∧ x.2.2.1 = false →
        Answers x.1 s fun t => Replied s t r 2 Blob.empty ∧ t = { s with mgmt := t.mgmt }) ∧
      (Requested s r x.2.1 x.2.2.1 → 6 ≤ r.len → r.len < x.2.2.2.1 ∨ x.2.2.2.2 < r.len →
        Answers x.1 s fun t => Replied s t r 1 Blob.empty ∧ t = { s with mgmt := t.mgmt })

/-- SETDASA, ENTDAA, RSTDAA, SETNEWDA, GETPID, GETBCR, GETDCR, GETSTATUS, ENEC, DISEC. The port answers at its static
address until a dynamic one is assigned; the provisional ID holds the low 32 bits of SERIAL; in reset it answers
nothing (R575, R578). The status, BCR and DCR are the model's open values (log entry 60). -/
def Obligations.ManagementBus : Prop :=
  (∀ s : State, mgmtMode s ≠ .off →
    let static := BitVec.ofNat 7 (0x58 + 2 * s.pins.addrSel1.toNat + s.pins.addrSel0.toNat)
    (∀ d, s.mgmt.dyn = none → Answers (.setdasa static d) s fun t => t.mgmt = { s.mgmt with dyn := some d }) ∧
    (∀ a d, a ≠ static → exec (.setdasa a d) s = .next s) ∧
    (∀ d, s.mgmt.dyn = none → Answers (.entdaa d) s fun t => t.mgmt = { s.mgmt with dyn := some d }) ∧
    (∀ d, s.mgmt.dyn.isSome = true → Answers (.setnewda d) s fun t => t.mgmt = { s.mgmt with dyn := some d }) ∧
    (Answers .rstdaa s fun t => t.mgmt = { s.mgmt with dyn := none }) ∧
    (s.mgmt.dyn.isSome = true →
      (Answers .getpid s fun t => ∃ b, t.mgmt = { s.mgmt with answers := s.mgmt.answers ++ [b] } ∧ b.len = 6 ∧
        b.bits 0 32 = s.sec.serial.toNat % 2 ^ 32) ∧
      ∀ x ∈ [(Instr.getbcr, 1), (.getdcr, 1), (.getstatus, 2)], Answers x.1 s fun t =>
        ∃ b, t.mgmt = { s.mgmt with answers := s.mgmt.answers ++ [b] } ∧ b.len = x.2) ∧
    (s.mgmt.dyn.isSome = true → ∀ a d, exec (.setdasa a d) s = .next s ∧ exec (.entdaa d) s = .next s) ∧
    (s.mgmt.dyn = none → ∀ d, ∀ c ∈ [Instr.setnewda d, .getpid, .getbcr, .getdcr, .getstatus], exec c s = .next s) ∧
    ∀ mask : BitVec 8,
      (Answers (.enec mask) s fun t => t.mgmt = { s.mgmt with events := s.mgmt.events || mask.getLsbD 0 }) ∧
      (Answers (.disec mask) s fun t => t.mgmt = { s.mgmt with events := s.mgmt.events && !mask.getLsbD 0 })) ∧
  ∀ (s : State) (a d : BitVec 7) (mask : BitVec 8), mgmtMode s = .off →
    ∀ c ∈ [Instr.setdasa a d, .entdaa d, .setnewda d, .rstdaa, .getpid, .getbcr, .getdcr, .getstatus, .enec mask,
      .disec mask], exec c s = .next s

/-- What reset leaves: the registers whose tables give a value other than 0 read it, the fabric, media, HBM and CXL
blocks and the bring-up block read 0, every context is FREE, and no command waits; a byte of memory that nothing has
written reads 0 (the model's choice, log entry 5) (02 Table 2.9, 06 Tables 6.11 and 6.12, 11 Table 11.9, 12 R490, 13
Tables 13.5 and 13.7). -/
def Obligations.ResetValues : Prop :=
  let r := State.reset
  (∀ x ∈ [(0x7000004, 1), (0x3005800, 0x80), (0x900000C, 2400), (0x9000010, 3000), (0x9000014, 3000 + 3000 * 65536),
      (0x9002000, 2400), (0x9002010, 3000), (0x9002020, 8), (0x9002030, 0), (0x9002040, 8), (0x9002050, 1),
      (0x9002060, 26), (0x9002070, 100), (0x9002080, 50), (0x9002090, 40), (0x90020A0, 1600)],
    controlWord r x.1 = x.2) ∧
  (∀ q, q < 8 → controlWord r (0x224 + 0x40 * q) = 0x3F800000 ∧ controlWord r (0x8F224 + 0x40 * q) = 0x3F800000) ∧
  (∀ p, p < 8 → ∀ x ∈ portRegs r p, x.val = 0) ∧ (∀ c, c < 2 → ∀ x ∈ mediaRegs r c, x.val = 0) ∧
  (∀ h, h < 8 → ∀ x ∈ hbmRegs r h, x.val = 0) ∧ (∀ p, p < 4 → ∀ x ∈ cxlRegs r p, x.val = 0) ∧
  (∀ x ∈ bringRegs r, x.val = 0) ∧ (∀ c, c < 16 → (r.ctx c).st = .free) ∧
  (∀ a, r.mem.mem.read a = 0) ∧ r.pending = []
end

