-- ==== Sys2Proof/Laws/Memory.lean ====
section
/-!
SUPPORT. The laws of sparse tables and of memory: what a read gives after a write, and that every operation on memory
keeps its canonical form.
-/

namespace Sys2Proof

/-! ### Sparse tables -/

/-- A key just set reads as what was set. -/
@[simp] theorem tget_tset_self {α : Type} (t : Tbl α) (k : Nat) (v : α) : tget (tset t k v) k = some v := by
  induction t with
  | nil => simp [tset, tget]
  | cons e t ih =>
    obtain ⟨j, w⟩ := e
    simp only [tset]
    split
    · simp [tget]
    · split
      · simp [tget]
      · rename_i h
        simp [tget, Ne.symm h, ih]

/-- Setting one key leaves every other key alone. -/
@[simp] theorem tget_tset_other {α : Type} (t : Tbl α) (k j : Nat) (v : α) (h : j ≠ k) :
    tget (tset t k v) j = tget t j := by
  induction t with
  | nil => simp [tset, tget, Ne.symm h]
  | cons e t ih =>
    obtain ⟨i, w⟩ := e
    simp only [tset]
    split
    · simp [tget, Ne.symm h]
    · split
      · rename_i hk
        subst hk
        simp [tget, Ne.symm h]
      · simp only [tget]
        split
        · rfl
        · exact ih

@[simp] theorem tgetD_tset_self {α : Type} (t : Tbl α) (k : Nat) (v d : α) : tgetD (tset t k v) k d = v := by
  simp [tgetD]

@[simp] theorem tgetD_tset_other {α : Type} (t : Tbl α) (k j : Nat) (v d : α) (h : j ≠ k) :
    tgetD (tset t k v) j d = tgetD t j d := by
  simp [tgetD, h]

@[simp] theorem tgetD_tmod_self {α : Type} (t : Tbl α) (k : Nat) (d : α) (f : α → α) :
    tgetD (tmod t k d f) k d = f (tgetD t k d) := by
  simp [tmod]

@[simp] theorem tgetD_tmod_other {α : Type} (t : Tbl α) (k j : Nat) (d : α) (f : α → α) (h : j ≠ k) :
    tgetD (tmod t k d f) j d = tgetD t j d := by
  simp [tmod, h]

/-- A list that maps each number of a range to its own entry reads by key. -/
theorem tget_map_pair {α : Type} (l : List Nat) (f : Nat → α) (k : Nat) :
    tget (l.map fun p => (p, f p)) k = if k ∈ l then some (f k) else none := by
  induction l with
  | nil => simp [tget]
  | cons a l ih =>
    simp only [List.map_cons, tget, ih, List.mem_cons]
    by_cases h : a = k
    · subst h; simp
    · simp [h, Ne.symm h]

namespace Machine

/-! ### Reading after writing (06 R217) -/

/-- The byte just written reads as what was written, in a list of rising addresses. -/
theorem cellsRead_write_self (l : List Host.Cell) (a : Nat) (v : Byte) (h : cellsWf l) :
    cellsRead (cellsWrite l a v) a = v := by
  induction l with
  | nil => by_cases hv : v = unlistedByte <;> simp [cellsWrite, cellsRead, hv]
  | cons e t ih =>
    obtain ⟨b, w⟩ := e
    have ht : cellsWf t := by
      cases t with
      | nil => rfl
      | cons e2 t2 => simp [cellsWf] at h; exact h.2
    have none_below : ∀ (t : List Host.Cell) (b : Nat) (w : Byte) (a : Nat), cellsWf ((b, w) :: t) → a ≤ b →
        cellsRead t a = unlistedByte := by
      intro t
      induction t with
      | nil => intros; rfl
      | cons e3 t3 ih3 =>
        intro b w a hw hab
        obtain ⟨c, x⟩ := e3
        simp [cellsWf] at hw
        have hc : c ≠ a := by omega
        simp only [cellsRead, hc, if_false]
        exact ih3 c x a hw.2 (by omega)
    simp only [cellsWrite]
    by_cases h1 : a < b
    · by_cases hv : v = unlistedByte
      · have hb : b ≠ a := by omega
        simp [h1, hv, cellsRead, hb, none_below t b w a h (by omega)]
      · simp [h1, hv, cellsRead]
    · by_cases h2 : a = b
      · subst h2
        by_cases hv : v = unlistedByte
        · simp [hv, none_below t a w a h (le_refl _)]
        · simp [hv, cellsRead]
      · simp [h1, h2, cellsRead, Ne.symm h2, ih ht]

/-- Writing one byte leaves every other byte as it was. -/
theorem cellsRead_write_other (l : List Host.Cell) (a b : Nat) (v : Byte) (h : cellsWf l) (hab : b ≠ a) :
    cellsRead (cellsWrite l a v) b = cellsRead l b := by
  induction l with
  | nil => by_cases hv : v = unlistedByte <;> simp [cellsWrite, cellsRead, hv, Ne.symm hab]
  | cons e t ih =>
    obtain ⟨c, w⟩ := e
    have ht : cellsWf t := by
      cases t with
      | nil => rfl
      | cons e2 t2 => simp [cellsWf] at h; exact h.2
    simp only [cellsWrite]
    split
    · split
      · rfl
      · simp [cellsRead, Ne.symm hab]
    · split
      · rename_i h2
        subst h2
        split <;> simp [cellsRead, Ne.symm hab]
      · simp only [cellsRead]
        split
        · rfl
        · exact ih ht

/-! ### The canonical form -/

/-- The bytes listed after an address are all above it. -/
theorem cellsWf_cons (a : Nat) (v : Byte) (t : List Host.Cell) :
    cellsWf ((a, v) :: t) = true ↔ v ≠ unlistedByte ∧ (∀ e ∈ t.head?, a < e.1) ∧ cellsWf t = true := by
  cases t with
  | nil => simp [cellsWf]
  | cons e t => obtain ⟨b, w⟩ := e; simp [cellsWf, and_assoc]

/-- A write never lists an address below both the first listed and its own. -/
theorem cellsWrite_head (l : List Host.Cell) (a : Nat) (v : Byte) (c : Nat) (h : ∀ e ∈ l.head?, c < e.1)
    (hw : cellsWf l) (hc : c < a) : ∀ e ∈ (cellsWrite l a v).head?, c < e.1 := by
  cases l with
  | nil => by_cases hv : v = unlistedByte <;> simp [cellsWrite, hv, hc]
  | cons e t =>
    obtain ⟨b, w⟩ := e
    have hb : c < b := h (b, w) (by simp)
    simp only [cellsWrite]
    split
    · split <;> simp [hb, hc]
    · split
      · split
        · cases t with
          | nil => simp
          | cons e2 t2 =>
            obtain ⟨d, x⟩ := e2
            simp [cellsWf] at hw
            simp; omega
        · simp [hc]
      · simp [hb]

theorem cellsWf_write (l : List Host.Cell) (a : Nat) (v : Byte) (h : cellsWf l) : cellsWf (cellsWrite l a v) := by
  induction l with
  | nil => by_cases hv : v = unlistedByte <;> simp [cellsWrite, cellsWf, hv]
  | cons e t ih =>
    obtain ⟨b, w⟩ := e
    have h' := (cellsWf_cons b w t).1 h
    simp only [cellsWrite]
    split
    · split
      · exact h
      · rename_i h1 h2
        exact (cellsWf_cons _ _ _).2 ⟨h2, by simpa using h1, h⟩
    · split
      · split
        · exact h'.2.2
        · rename_i h1 h2 h3
          subst h2
          exact (cellsWf_cons _ _ _).2 ⟨h3, h'.2.1, h'.2.2⟩
      · rename_i h1 h2
        exact (cellsWf_cons _ _ _).2 ⟨h'.1, cellsWrite_head t a v b h'.2.1 h'.2.2 (by omega), ih h'.2.2⟩

theorem cellsWf_filter (l : List Host.Cell) (p : Host.Cell → Bool) (h : cellsWf l) : cellsWf (l.filter p) := by
  have above : ∀ (l : List Host.Cell) (a : Nat), cellsWf l → (∀ e ∈ l.head?, a < e.1) → ∀ e ∈ l, a < e.1 := by
    intro l
    induction l with
    | nil => simp
    | cons e t ih =>
      intro a hw hh x hx
      obtain ⟨b, w⟩ := e
      have h' := (cellsWf_cons b w t).1 hw
      have hb : a < b := hh (b, w) (by simp)
      rcases List.mem_cons.1 hx with rfl | hx
      · exact hb
      · exact lt_trans hb (ih b h'.2.2 h'.2.1 x hx)
  induction l with
  | nil => rfl
  | cons e t ih =>
    obtain ⟨b, w⟩ := e
    have h' := (cellsWf_cons b w t).1 h
    rw [List.filter_cons]
    split
    · refine (cellsWf_cons _ _ _).2 ⟨h'.1, ?_, ih h'.2.2⟩
      intro e he
      have := List.mem_of_mem_head? he
      exact above t b h'.2.2 h'.2.1 e (List.mem_of_mem_filter this)
    · exact ih h'.2.2

theorem risingWf_cons (a : Nat) (t : List Nat) :
    risingWf (a :: t) = true ↔ (∀ e ∈ t.head?, a < e) ∧ risingWf t = true := by
  cases t <;> simp [risingWf]

theorem risingWf_insert (l : List Nat) (n : Nat) (h : risingWf l) : risingWf (setInsert l n) := by
  have head : ∀ (l : List Nat) (c : Nat), (∀ e ∈ l.head?, c < e) → c < n → ∀ e ∈ (setInsert l n).head?, c < e := by
    intro l c hl hc
    cases l with
    | nil => simpa [setInsert] using hc
    | cons m t =>
      simp only [setInsert]
      have hm : c < m := hl m (by simp)
      split
      · simpa using hc
      · split <;> simpa using hm
  induction l with
  | nil => simp [setInsert, risingWf]
  | cons m t ih =>
    have h' := (risingWf_cons m t).1 h
    simp only [setInsert]
    split
    · exact (risingWf_cons _ _).2 ⟨by simpa, h⟩
    · split
      · exact h
      · exact (risingWf_cons _ _).2 ⟨head t m h'.1 (by omega), ih h'.2⟩

theorem risingWf_erase (l : List Nat) (n : Nat) (h : risingWf l) : risingWf (setErase l n) := by
  induction l with
  | nil => simp [setErase, risingWf]
  | cons m t ih =>
    have h' := (risingWf_cons m t).1 h
    simp only [setErase]
    split
    · exact h'.2
    · refine (risingWf_cons _ _).2 ⟨?_, ih h'.2⟩
      intro e he
      cases t with
      | nil => simp [setErase] at he
      | cons k u =>
        have hk : m < k := h'.1 k (by simp)
        simp only [setErase] at he
        split at he
        · cases u with
          | nil => simp at he
          | cons i v =>
            have h2 := h'.2
            simp [risingWf] at h2
            simp at he; omega
        · simp at he; omega

theorem risingWf_filter (l : List Nat) (p : Nat → Bool) (h : risingWf l) : risingWf (l.filter p) := by
  have above : ∀ (l : List Nat) (a : Nat), risingWf l → (∀ e ∈ l.head?, a < e) → ∀ e ∈ l, a < e := by
    intro l
    induction l with
    | nil => simp
    | cons b t ih =>
      intro a hw hh x hx
      have h' := (risingWf_cons b t).1 hw
      have hb : a < b := hh b (by simp)
      rcases List.mem_cons.1 hx with rfl | hx
      · exact hb
      · exact lt_trans hb (ih b h'.2 h'.1 x hx)
  induction l with
  | nil => rfl
  | cons b t ih =>
    have h' := (risingWf_cons b t).1 h
    rw [List.filter_cons]
    split
    · refine (risingWf_cons _ _).2 ⟨?_, ih h'.2⟩
      intro e he
      exact above t b h'.2 h'.1 e (List.mem_of_mem_filter (List.mem_of_mem_head? he))
    · exact ih h'.2

theorem Mem.wf_write (m : Mem) (a : Nat) (v : Byte) (h : m.wf) : (m.write a v).wf := by
  simp only [Mem.wf, Mem.write, Bool.and_eq_true] at *
  exact ⟨cellsWf_write _ _ _ h.1, h.2⟩

theorem Mem.wf_writeBytes (m : Mem) (base v n : Nat) (h : m.wf) : (m.writeBytes base v n).wf := by
  induction n with
  | zero => exact h
  | succ n ih => exact Mem.wf_write _ _ _ ih

theorem Mem.wf_writeNat (m : Mem) (a n v : Nat) (h : m.wf) : (m.writeNat a n v).wf := Mem.wf_writeBytes m a v n h

theorem Mem.wf_setWord (m : Mem) (w : Nat) (v : BitVec 1024) (p : Bool) (h : m.wf) : (m.setWord w v p).wf := by
  have h' := Mem.wf_writeBytes m (128 * w) v.toNat 128 h
  simp only [Mem.wf, Mem.setWord, Bool.and_eq_true] at *
  refine ⟨h'.1, ?_⟩
  split
  · exact risingWf_insert _ _ h'.2
  · exact risingWf_erase _ _ h'.2

theorem Mem.wf_zeroRange (m : Mem) (lo hi : Nat) (h : m.wf) : (m.zeroRange lo hi).wf := by
  simp only [Mem.wf, Mem.zeroRange, Bool.and_eq_true] at *
  exact ⟨cellsWf_filter _ _ h.1, risingWf_filter _ _ h.2⟩

theorem Mem.wf_undoWrites (m : Mem) (l : List CxlOp) (h : m.wf) : (undoWrites m l).wf := by
  induction l with
  | nil => exact h
  | cons o t ih => exact Mem.wf_setWord _ _ _ _ ih

/-- Reading the byte just written. -/
theorem Mem.read_write_self (m : Mem) (a : Nat) (v : Byte) (h : m.wf) : (m.write a v).read a = v := by
  simp only [Mem.wf, Bool.and_eq_true] at h
  exact cellsRead_write_self _ _ _ h.1

/-- Reading any other byte after a write. -/
theorem Mem.read_write_other (m : Mem) (a b : Nat) (v : Byte) (h : m.wf) (hab : b ≠ a) :
    (m.write a v).read b = m.read b := by
  simp only [Mem.wf, Bool.and_eq_true] at h
  exact cellsRead_write_other _ _ _ _ h.1 hab

/-- A run of bytes written leaves every byte outside it alone. -/
theorem Mem.read_writeBytes_other (m : Mem) (base v n b : Nat) (h : m.wf) (hb : b < base ∨ base + n ≤ b) :
    (m.writeBytes base v n).read b = m.read b := by
  induction n with
  | zero => rfl
  | succ n ih =>
    have hw := Mem.wf_writeBytes m base v n h
    simp only [Mem.writeBytes]
    rw [Mem.read_write_other _ _ _ _ hw (by omega)]
    exact ih (by omega)

/-- A run of bytes written reads back byte by byte. -/
theorem Mem.read_writeBytes_self (m : Mem) (base v n i : Nat) (h : m.wf) (hi : i < n) :
    (m.writeBytes base v n).read (base + i) = BitVec.ofNat 8 (v / 2 ^ (8 * i)) := by
  induction n with
  | zero => omega
  | succ n ih =>
    have hw := Mem.wf_writeBytes m base v n h
    simp only [Mem.writeBytes]
    by_cases h' : i = n
    · subst h'; exact Mem.read_write_self _ _ _ hw
    · rw [Mem.read_write_other _ _ _ _ hw (by omega)]
      exact ih (by omega)

/-- A whole word written leaves every byte outside it alone. -/
theorem Mem.read_setWord_other (m : Mem) (w : Nat) (v : BitVec 1024) (p : Bool) (b : Nat) (h : m.wf)
    (hb : b < 128 * w ∨ 128 * w + 128 ≤ b) : (m.setWord w v p).read b = m.read b := by
  have := Mem.read_writeBytes_other m (128 * w) v.toNat 128 b h hb
  simpa [Mem.setWord, Mem.read] using this

end Machine

end Sys2Proof
end

