-- ==== Sys2Proof/Laws/State.lean ====
section
/-!
SUPPORT. Each named update of the state, field by field: what it leaves alone, and what reads back.
-/

namespace Sys2Proof.Machine

/-! ### What an update leaves alone -/

@[simp] theorem setCore_variant (s : State) (n : Nat) (c : Core) : (s.setCore n c).variant = s.variant := rfl
@[simp] theorem setCore_shelves (s : State) (n : Nat) (c : Core) : (s.setCore n c).shelves = s.shelves := rfl
@[simp] theorem setCore_mem (s : State) (n : Nat) (c : Core) : (s.setCore n c).mem = s.mem := rfl
@[simp] theorem setCore_ctxs (s : State) (n : Nat) (c : Core) : (s.setCore n c).ctxs = s.ctxs := rfl
@[simp] theorem setCore_media (s : State) (n : Nat) (c : Core) : (s.setCore n c).media = s.media := rfl
@[simp] theorem setCore_host (s : State) (n : Nat) (c : Core) : (s.setCore n c).host = s.host := rfl
@[simp] theorem setCore_fab (s : State) (n : Nat) (c : Core) : (s.setCore n c).fab = s.fab := rfl
@[simp] theorem setCore_sec (s : State) (n : Nat) (c : Core) : (s.setCore n c).sec = s.sec := rfl
@[simp] theorem setCore_ledger (s : State) (n : Nat) (c : Core) : (s.setCore n c).ledger = s.ledger := rfl
@[simp] theorem setCore_bring (s : State) (n : Nat) (c : Core) : (s.setCore n c).bring = s.bring := rfl
@[simp] theorem setCore_power (s : State) (n : Nat) (c : Core) : (s.setCore n c).power = s.power := rfl
@[simp] theorem setCore_mu (s : State) (n : Nat) (c : Core) : (s.setCore n c).mu = s.mu := rfl
@[simp] theorem setCore_imprint (s : State) (n : Nat) (c : Core) : (s.setCore n c).imprint = s.imprint := rfl
@[simp] theorem setCore_pins (s : State) (n : Nat) (c : Core) : (s.setCore n c).pins = s.pins := rfl
@[simp] theorem setCore_mgmt (s : State) (n : Nat) (c : Core) : (s.setCore n c).mgmt = s.mgmt := rfl
@[simp] theorem setCore_latches (s : State) (n : Nat) (c : Core) : (s.setCore n c).latches = s.latches := rfl
@[simp] theorem setCore_freeCtr (s : State) (n : Nat) (c : Core) : (s.setCore n c).freeCtr = s.freeCtr := rfl
@[simp] theorem setCore_pending (s : State) (n : Nat) (c : Core) : (s.setCore n c).pending = s.pending := rfl
@[simp] theorem setCore_shelf (s : State) (n : Nat) (c : Core) (a : Nat) : (s.setCore n c).shelf a = s.shelf a := rfl
@[simp] theorem setCore_ctx (s : State) (n : Nat) (c : Core) (a : Nat) : (s.setCore n c).ctx a = s.ctx a := rfl
@[simp] theorem setCore_hbm (s : State) (n : Nat) (c : Core) (a : Nat) : (s.setCore n c).hbm a = s.hbm a := rfl
@[simp] theorem setCore_cxl (s : State) (n : Nat) (c : Core) (a : Nat) : (s.setCore n c).cxl a = s.cxl a := rfl
@[simp] theorem setCore_granule (s : State) (n : Nat) (c : Core) (a : Nat) : (s.setCore n c).granule a = s.granule a := rfl
@[simp] theorem setCore_complex (s : State) (n : Nat) (c : Core) (a : Nat) : (s.setCore n c).complex a = s.complex a := rfl
@[simp] theorem setCore_queue (s : State) (n : Nat) (c : Core) (a b : Nat) : (s.setCore n c).queue a b = s.queue a b := rfl
@[simp] theorem setCore_ring (s : State) (n : Nat) (c : Core) (a : Nat) : (s.setCore n c).ring a = s.ring a := rfl
@[simp] theorem setCore_link (s : State) (n : Nat) (c : Core) (a : Nat) : (s.setCore n c).link a = s.link a := rfl
@[simp] theorem setCore_site (s : State) (n : Nat) (c : Core) (a : Nat) : (s.setCore n c).site a = s.site a := rfl
@[simp] theorem setCore_wear (s : State) (n : Nat) (c : Core) (a : Nat) : (s.setCore n c).wear a = s.wear a := rfl
@[simp] theorem setCore_stream (s : State) (n : Nat) (c : Core) (a b : Nat) : (s.setCore n c).stream a b = s.stream a b := rfl
@[simp] theorem setCore_node (s : State) (n : Nat) (c : Core) (a b : Nat) : (s.setCore n c).node a b = s.node a b := rfl
@[simp] theorem modCore_variant (s : State) (n : Nat) (f : Core → Core) : (s.modCore n f).variant = s.variant := rfl
@[simp] theorem modCore_shelves (s : State) (n : Nat) (f : Core → Core) : (s.modCore n f).shelves = s.shelves := rfl
@[simp] theorem modCore_mem (s : State) (n : Nat) (f : Core → Core) : (s.modCore n f).mem = s.mem := rfl
@[simp] theorem modCore_ctxs (s : State) (n : Nat) (f : Core → Core) : (s.modCore n f).ctxs = s.ctxs := rfl
@[simp] theorem modCore_media (s : State) (n : Nat) (f : Core → Core) : (s.modCore n f).media = s.media := rfl
@[simp] theorem modCore_host (s : State) (n : Nat) (f : Core → Core) : (s.modCore n f).host = s.host := rfl
@[simp] theorem modCore_fab (s : State) (n : Nat) (f : Core → Core) : (s.modCore n f).fab = s.fab := rfl
@[simp] theorem modCore_sec (s : State) (n : Nat) (f : Core → Core) : (s.modCore n f).sec = s.sec := rfl
@[simp] theorem modCore_ledger (s : State) (n : Nat) (f : Core → Core) : (s.modCore n f).ledger = s.ledger := rfl
@[simp] theorem modCore_bring (s : State) (n : Nat) (f : Core → Core) : (s.modCore n f).bring = s.bring := rfl
@[simp] theorem modCore_power (s : State) (n : Nat) (f : Core → Core) : (s.modCore n f).power = s.power := rfl
@[simp] theorem modCore_mu (s : State) (n : Nat) (f : Core → Core) : (s.modCore n f).mu = s.mu := rfl
@[simp] theorem modCore_imprint (s : State) (n : Nat) (f : Core → Core) : (s.modCore n f).imprint = s.imprint := rfl
@[simp] theorem modCore_pins (s : State) (n : Nat) (f : Core → Core) : (s.modCore n f).pins = s.pins := rfl
@[simp] theorem modCore_mgmt (s : State) (n : Nat) (f : Core → Core) : (s.modCore n f).mgmt = s.mgmt := rfl
@[simp] theorem modCore_latches (s : State) (n : Nat) (f : Core → Core) : (s.modCore n f).latches = s.latches := rfl
@[simp] theorem modCore_freeCtr (s : State) (n : Nat) (f : Core → Core) : (s.modCore n f).freeCtr = s.freeCtr := rfl
@[simp] theorem modCore_pending (s : State) (n : Nat) (f : Core → Core) : (s.modCore n f).pending = s.pending := rfl
@[simp] theorem modCore_shelf (s : State) (n : Nat) (f : Core → Core) (a : Nat) : (s.modCore n f).shelf a = s.shelf a := rfl
@[simp] theorem modCore_ctx (s : State) (n : Nat) (f : Core → Core) (a : Nat) : (s.modCore n f).ctx a = s.ctx a := rfl
@[simp] theorem modCore_hbm (s : State) (n : Nat) (f : Core → Core) (a : Nat) : (s.modCore n f).hbm a = s.hbm a := rfl
@[simp] theorem modCore_cxl (s : State) (n : Nat) (f : Core → Core) (a : Nat) : (s.modCore n f).cxl a = s.cxl a := rfl
@[simp] theorem modCore_granule (s : State) (n : Nat) (f : Core → Core) (a : Nat) : (s.modCore n f).granule a = s.granule a := rfl
@[simp] theorem modCore_complex (s : State) (n : Nat) (f : Core → Core) (a : Nat) : (s.modCore n f).complex a = s.complex a := rfl
@[simp] theorem modCore_queue (s : State) (n : Nat) (f : Core → Core) (a b : Nat) : (s.modCore n f).queue a b = s.queue a b := rfl
@[simp] theorem modCore_ring (s : State) (n : Nat) (f : Core → Core) (a : Nat) : (s.modCore n f).ring a = s.ring a := rfl
@[simp] theorem modCore_link (s : State) (n : Nat) (f : Core → Core) (a : Nat) : (s.modCore n f).link a = s.link a := rfl
@[simp] theorem modCore_site (s : State) (n : Nat) (f : Core → Core) (a : Nat) : (s.modCore n f).site a = s.site a := rfl
@[simp] theorem modCore_wear (s : State) (n : Nat) (f : Core → Core) (a : Nat) : (s.modCore n f).wear a = s.wear a := rfl
@[simp] theorem modCore_stream (s : State) (n : Nat) (f : Core → Core) (a b : Nat) : (s.modCore n f).stream a b = s.stream a b := rfl
@[simp] theorem modCore_node (s : State) (n : Nat) (f : Core → Core) (a b : Nat) : (s.modCore n f).node a b = s.node a b := rfl
@[simp] theorem modEp_variant (s : State) (n q : Nat) (f : EpCtr → EpCtr) : (s.modEp n q f).variant = s.variant := rfl
@[simp] theorem modEp_shelves (s : State) (n q : Nat) (f : EpCtr → EpCtr) : (s.modEp n q f).shelves = s.shelves := rfl
@[simp] theorem modEp_mem (s : State) (n q : Nat) (f : EpCtr → EpCtr) : (s.modEp n q f).mem = s.mem := rfl
@[simp] theorem modEp_ctxs (s : State) (n q : Nat) (f : EpCtr → EpCtr) : (s.modEp n q f).ctxs = s.ctxs := rfl
@[simp] theorem modEp_media (s : State) (n q : Nat) (f : EpCtr → EpCtr) : (s.modEp n q f).media = s.media := rfl
@[simp] theorem modEp_host (s : State) (n q : Nat) (f : EpCtr → EpCtr) : (s.modEp n q f).host = s.host := rfl
@[simp] theorem modEp_fab (s : State) (n q : Nat) (f : EpCtr → EpCtr) : (s.modEp n q f).fab = s.fab := rfl
@[simp] theorem modEp_sec (s : State) (n q : Nat) (f : EpCtr → EpCtr) : (s.modEp n q f).sec = s.sec := rfl
@[simp] theorem modEp_ledger (s : State) (n q : Nat) (f : EpCtr → EpCtr) : (s.modEp n q f).ledger = s.ledger := rfl
@[simp] theorem modEp_bring (s : State) (n q : Nat) (f : EpCtr → EpCtr) : (s.modEp n q f).bring = s.bring := rfl
@[simp] theorem modEp_power (s : State) (n q : Nat) (f : EpCtr → EpCtr) : (s.modEp n q f).power = s.power := rfl
@[simp] theorem modEp_mu (s : State) (n q : Nat) (f : EpCtr → EpCtr) : (s.modEp n q f).mu = s.mu := rfl
@[simp] theorem modEp_imprint (s : State) (n q : Nat) (f : EpCtr → EpCtr) : (s.modEp n q f).imprint = s.imprint := rfl
@[simp] theorem modEp_pins (s : State) (n q : Nat) (f : EpCtr → EpCtr) : (s.modEp n q f).pins = s.pins := rfl
@[simp] theorem modEp_mgmt (s : State) (n q : Nat) (f : EpCtr → EpCtr) : (s.modEp n q f).mgmt = s.mgmt := rfl
@[simp] theorem modEp_latches (s : State) (n q : Nat) (f : EpCtr → EpCtr) : (s.modEp n q f).latches = s.latches := rfl
@[simp] theorem modEp_freeCtr (s : State) (n q : Nat) (f : EpCtr → EpCtr) : (s.modEp n q f).freeCtr = s.freeCtr := rfl
@[simp] theorem modEp_pending (s : State) (n q : Nat) (f : EpCtr → EpCtr) : (s.modEp n q f).pending = s.pending := rfl
@[simp] theorem modEp_shelf (s : State) (n q : Nat) (f : EpCtr → EpCtr) (a : Nat) : (s.modEp n q f).shelf a = s.shelf a := rfl
@[simp] theorem modEp_ctx (s : State) (n q : Nat) (f : EpCtr → EpCtr) (a : Nat) : (s.modEp n q f).ctx a = s.ctx a := rfl
@[simp] theorem modEp_hbm (s : State) (n q : Nat) (f : EpCtr → EpCtr) (a : Nat) : (s.modEp n q f).hbm a = s.hbm a := rfl
@[simp] theorem modEp_cxl (s : State) (n q : Nat) (f : EpCtr → EpCtr) (a : Nat) : (s.modEp n q f).cxl a = s.cxl a := rfl
@[simp] theorem modEp_granule (s : State) (n q : Nat) (f : EpCtr → EpCtr) (a : Nat) : (s.modEp n q f).granule a = s.granule a := rfl
@[simp] theorem modEp_complex (s : State) (n q : Nat) (f : EpCtr → EpCtr) (a : Nat) : (s.modEp n q f).complex a = s.complex a := rfl
@[simp] theorem modEp_queue (s : State) (n q : Nat) (f : EpCtr → EpCtr) (a b : Nat) : (s.modEp n q f).queue a b = s.queue a b := rfl
@[simp] theorem modEp_ring (s : State) (n q : Nat) (f : EpCtr → EpCtr) (a : Nat) : (s.modEp n q f).ring a = s.ring a := rfl
@[simp] theorem modEp_link (s : State) (n q : Nat) (f : EpCtr → EpCtr) (a : Nat) : (s.modEp n q f).link a = s.link a := rfl
@[simp] theorem modEp_site (s : State) (n q : Nat) (f : EpCtr → EpCtr) (a : Nat) : (s.modEp n q f).site a = s.site a := rfl
@[simp] theorem modEp_wear (s : State) (n q : Nat) (f : EpCtr → EpCtr) (a : Nat) : (s.modEp n q f).wear a = s.wear a := rfl
@[simp] theorem modEp_stream (s : State) (n q : Nat) (f : EpCtr → EpCtr) (a b : Nat) : (s.modEp n q f).stream a b = s.stream a b := rfl
@[simp] theorem modEp_node (s : State) (n q : Nat) (f : EpCtr → EpCtr) (a b : Nat) : (s.modEp n q f).node a b = s.node a b := rfl
@[simp] theorem setShelf_variant (s : State) (n : Nat) (x : Shelf) : (s.setShelf n x).variant = s.variant := rfl
@[simp] theorem setShelf_cores (s : State) (n : Nat) (x : Shelf) : (s.setShelf n x).cores = s.cores := rfl
@[simp] theorem setShelf_mem (s : State) (n : Nat) (x : Shelf) : (s.setShelf n x).mem = s.mem := rfl
@[simp] theorem setShelf_ctxs (s : State) (n : Nat) (x : Shelf) : (s.setShelf n x).ctxs = s.ctxs := rfl
@[simp] theorem setShelf_media (s : State) (n : Nat) (x : Shelf) : (s.setShelf n x).media = s.media := rfl
@[simp] theorem setShelf_host (s : State) (n : Nat) (x : Shelf) : (s.setShelf n x).host = s.host := rfl
@[simp] theorem setShelf_fab (s : State) (n : Nat) (x : Shelf) : (s.setShelf n x).fab = s.fab := rfl
@[simp] theorem setShelf_sec (s : State) (n : Nat) (x : Shelf) : (s.setShelf n x).sec = s.sec := rfl
@[simp] theorem setShelf_ledger (s : State) (n : Nat) (x : Shelf) : (s.setShelf n x).ledger = s.ledger := rfl
@[simp] theorem setShelf_bring (s : State) (n : Nat) (x : Shelf) : (s.setShelf n x).bring = s.bring := rfl
@[simp] theorem setShelf_power (s : State) (n : Nat) (x : Shelf) : (s.setShelf n x).power = s.power := rfl
@[simp] theorem setShelf_mu (s : State) (n : Nat) (x : Shelf) : (s.setShelf n x).mu = s.mu := rfl
@[simp] theorem setShelf_imprint (s : State) (n : Nat) (x : Shelf) : (s.setShelf n x).imprint = s.imprint := rfl
@[simp] theorem setShelf_pins (s : State) (n : Nat) (x : Shelf) : (s.setShelf n x).pins = s.pins := rfl
@[simp] theorem setShelf_mgmt (s : State) (n : Nat) (x : Shelf) : (s.setShelf n x).mgmt = s.mgmt := rfl
@[simp] theorem setShelf_latches (s : State) (n : Nat) (x : Shelf) : (s.setShelf n x).latches = s.latches := rfl
@[simp] theorem setShelf_freeCtr (s : State) (n : Nat) (x : Shelf) : (s.setShelf n x).freeCtr = s.freeCtr := rfl
@[simp] theorem setShelf_pending (s : State) (n : Nat) (x : Shelf) : (s.setShelf n x).pending = s.pending := rfl
@[simp] theorem setShelf_core (s : State) (n : Nat) (x : Shelf) (a : Nat) : (s.setShelf n x).core a = s.core a := rfl
@[simp] theorem setShelf_ctx (s : State) (n : Nat) (x : Shelf) (a : Nat) : (s.setShelf n x).ctx a = s.ctx a := rfl
@[simp] theorem setShelf_hbm (s : State) (n : Nat) (x : Shelf) (a : Nat) : (s.setShelf n x).hbm a = s.hbm a := rfl
@[simp] theorem setShelf_cxl (s : State) (n : Nat) (x : Shelf) (a : Nat) : (s.setShelf n x).cxl a = s.cxl a := rfl
@[simp] theorem setShelf_granule (s : State) (n : Nat) (x : Shelf) (a : Nat) : (s.setShelf n x).granule a = s.granule a := rfl
@[simp] theorem setShelf_complex (s : State) (n : Nat) (x : Shelf) (a : Nat) : (s.setShelf n x).complex a = s.complex a := rfl
@[simp] theorem setShelf_queue (s : State) (n : Nat) (x : Shelf) (a b : Nat) : (s.setShelf n x).queue a b = s.queue a b := rfl
@[simp] theorem setShelf_ring (s : State) (n : Nat) (x : Shelf) (a : Nat) : (s.setShelf n x).ring a = s.ring a := rfl
@[simp] theorem setShelf_link (s : State) (n : Nat) (x : Shelf) (a : Nat) : (s.setShelf n x).link a = s.link a := rfl
@[simp] theorem setShelf_site (s : State) (n : Nat) (x : Shelf) (a : Nat) : (s.setShelf n x).site a = s.site a := rfl
@[simp] theorem setShelf_wear (s : State) (n : Nat) (x : Shelf) (a : Nat) : (s.setShelf n x).wear a = s.wear a := rfl
@[simp] theorem setShelf_stream (s : State) (n : Nat) (x : Shelf) (a b : Nat) : (s.setShelf n x).stream a b = s.stream a b := rfl
@[simp] theorem setShelf_node (s : State) (n : Nat) (x : Shelf) (a b : Nat) : (s.setShelf n x).node a b = s.node a b := rfl
@[simp] theorem setShelf_epCtr (s : State) (n : Nat) (x : Shelf) (a b : Nat) : (s.setShelf n x).epCtr a b = s.epCtr a b := rfl
@[simp] theorem modShelf_variant (s : State) (n : Nat) (f : Shelf → Shelf) : (s.modShelf n f).variant = s.variant := rfl
@[simp] theorem modShelf_cores (s : State) (n : Nat) (f : Shelf → Shelf) : (s.modShelf n f).cores = s.cores := rfl
@[simp] theorem modShelf_mem (s : State) (n : Nat) (f : Shelf → Shelf) : (s.modShelf n f).mem = s.mem := rfl
@[simp] theorem modShelf_ctxs (s : State) (n : Nat) (f : Shelf → Shelf) : (s.modShelf n f).ctxs = s.ctxs := rfl
@[simp] theorem modShelf_media (s : State) (n : Nat) (f : Shelf → Shelf) : (s.modShelf n f).media = s.media := rfl
@[simp] theorem modShelf_host (s : State) (n : Nat) (f : Shelf → Shelf) : (s.modShelf n f).host = s.host := rfl
@[simp] theorem modShelf_fab (s : State) (n : Nat) (f : Shelf → Shelf) : (s.modShelf n f).fab = s.fab := rfl
@[simp] theorem modShelf_sec (s : State) (n : Nat) (f : Shelf → Shelf) : (s.modShelf n f).sec = s.sec := rfl
@[simp] theorem modShelf_ledger (s : State) (n : Nat) (f : Shelf → Shelf) : (s.modShelf n f).ledger = s.ledger := rfl
@[simp] theorem modShelf_bring (s : State) (n : Nat) (f : Shelf → Shelf) : (s.modShelf n f).bring = s.bring := rfl
@[simp] theorem modShelf_power (s : State) (n : Nat) (f : Shelf → Shelf) : (s.modShelf n f).power = s.power := rfl
@[simp] theorem modShelf_mu (s : State) (n : Nat) (f : Shelf → Shelf) : (s.modShelf n f).mu = s.mu := rfl
@[simp] theorem modShelf_imprint (s : State) (n : Nat) (f : Shelf → Shelf) : (s.modShelf n f).imprint = s.imprint := rfl
@[simp] theorem modShelf_pins (s : State) (n : Nat) (f : Shelf → Shelf) : (s.modShelf n f).pins = s.pins := rfl
@[simp] theorem modShelf_mgmt (s : State) (n : Nat) (f : Shelf → Shelf) : (s.modShelf n f).mgmt = s.mgmt := rfl
@[simp] theorem modShelf_latches (s : State) (n : Nat) (f : Shelf → Shelf) : (s.modShelf n f).latches = s.latches := rfl
@[simp] theorem modShelf_freeCtr (s : State) (n : Nat) (f : Shelf → Shelf) : (s.modShelf n f).freeCtr = s.freeCtr := rfl
@[simp] theorem modShelf_pending (s : State) (n : Nat) (f : Shelf → Shelf) : (s.modShelf n f).pending = s.pending := rfl
@[simp] theorem modShelf_core (s : State) (n : Nat) (f : Shelf → Shelf) (a : Nat) : (s.modShelf n f).core a = s.core a := rfl
@[simp] theorem modShelf_ctx (s : State) (n : Nat) (f : Shelf → Shelf) (a : Nat) : (s.modShelf n f).ctx a = s.ctx a := rfl
@[simp] theorem modShelf_hbm (s : State) (n : Nat) (f : Shelf → Shelf) (a : Nat) : (s.modShelf n f).hbm a = s.hbm a := rfl
@[simp] theorem modShelf_cxl (s : State) (n : Nat) (f : Shelf → Shelf) (a : Nat) : (s.modShelf n f).cxl a = s.cxl a := rfl
@[simp] theorem modShelf_granule (s : State) (n : Nat) (f : Shelf → Shelf) (a : Nat) : (s.modShelf n f).granule a = s.granule a := rfl
@[simp] theorem modShelf_complex (s : State) (n : Nat) (f : Shelf → Shelf) (a : Nat) : (s.modShelf n f).complex a = s.complex a := rfl
@[simp] theorem modShelf_queue (s : State) (n : Nat) (f : Shelf → Shelf) (a b : Nat) : (s.modShelf n f).queue a b = s.queue a b := rfl
@[simp] theorem modShelf_ring (s : State) (n : Nat) (f : Shelf → Shelf) (a : Nat) : (s.modShelf n f).ring a = s.ring a := rfl
@[simp] theorem modShelf_link (s : State) (n : Nat) (f : Shelf → Shelf) (a : Nat) : (s.modShelf n f).link a = s.link a := rfl
@[simp] theorem modShelf_site (s : State) (n : Nat) (f : Shelf → Shelf) (a : Nat) : (s.modShelf n f).site a = s.site a := rfl
@[simp] theorem modShelf_wear (s : State) (n : Nat) (f : Shelf → Shelf) (a : Nat) : (s.modShelf n f).wear a = s.wear a := rfl
@[simp] theorem modShelf_stream (s : State) (n : Nat) (f : Shelf → Shelf) (a b : Nat) : (s.modShelf n f).stream a b = s.stream a b := rfl
@[simp] theorem modShelf_node (s : State) (n : Nat) (f : Shelf → Shelf) (a b : Nat) : (s.modShelf n f).node a b = s.node a b := rfl
@[simp] theorem modShelf_epCtr (s : State) (n : Nat) (f : Shelf → Shelf) (a b : Nat) : (s.modShelf n f).epCtr a b = s.epCtr a b := rfl
@[simp] theorem modCheck_variant (s : State) (n : Nat) (f : CheckUnit → CheckUnit) : (s.modCheck n f).variant = s.variant := rfl
@[simp] theorem modCheck_cores (s : State) (n : Nat) (f : CheckUnit → CheckUnit) : (s.modCheck n f).cores = s.cores := rfl
@[simp] theorem modCheck_mem (s : State) (n : Nat) (f : CheckUnit → CheckUnit) : (s.modCheck n f).mem = s.mem := rfl
@[simp] theorem modCheck_ctxs (s : State) (n : Nat) (f : CheckUnit → CheckUnit) : (s.modCheck n f).ctxs = s.ctxs := rfl
@[simp] theorem modCheck_media (s : State) (n : Nat) (f : CheckUnit → CheckUnit) : (s.modCheck n f).media = s.media := rfl
@[simp] theorem modCheck_host (s : State) (n : Nat) (f : CheckUnit → CheckUnit) : (s.modCheck n f).host = s.host := rfl
@[simp] theorem modCheck_fab (s : State) (n : Nat) (f : CheckUnit → CheckUnit) : (s.modCheck n f).fab = s.fab := rfl
@[simp] theorem modCheck_sec (s : State) (n : Nat) (f : CheckUnit → CheckUnit) : (s.modCheck n f).sec = s.sec := rfl
@[simp] theorem modCheck_ledger (s : State) (n : Nat) (f : CheckUnit → CheckUnit) : (s.modCheck n f).ledger = s.ledger := rfl
@[simp] theorem modCheck_bring (s : State) (n : Nat) (f : CheckUnit → CheckUnit) : (s.modCheck n f).bring = s.bring := rfl
@[simp] theorem modCheck_power (s : State) (n : Nat) (f : CheckUnit → CheckUnit) : (s.modCheck n f).power = s.power := rfl
@[simp] theorem modCheck_mu (s : State) (n : Nat) (f : CheckUnit → CheckUnit) : (s.modCheck n f).mu = s.mu := rfl
@[simp] theorem modCheck_imprint (s : State) (n : Nat) (f : CheckUnit → CheckUnit) : (s.modCheck n f).imprint = s.imprint := rfl
@[simp] theorem modCheck_pins (s : State) (n : Nat) (f : CheckUnit → CheckUnit) : (s.modCheck n f).pins = s.pins := rfl
@[simp] theorem modCheck_mgmt (s : State) (n : Nat) (f : CheckUnit → CheckUnit) : (s.modCheck n f).mgmt = s.mgmt := rfl
@[simp] theorem modCheck_latches (s : State) (n : Nat) (f : CheckUnit → CheckUnit) : (s.modCheck n f).latches = s.latches := rfl
@[simp] theorem modCheck_freeCtr (s : State) (n : Nat) (f : CheckUnit → CheckUnit) : (s.modCheck n f).freeCtr = s.freeCtr := rfl
@[simp] theorem modCheck_pending (s : State) (n : Nat) (f : CheckUnit → CheckUnit) : (s.modCheck n f).pending = s.pending := rfl
@[simp] theorem modCheck_core (s : State) (n : Nat) (f : CheckUnit → CheckUnit) (a : Nat) : (s.modCheck n f).core a = s.core a := rfl
@[simp] theorem modCheck_ctx (s : State) (n : Nat) (f : CheckUnit → CheckUnit) (a : Nat) : (s.modCheck n f).ctx a = s.ctx a := rfl
@[simp] theorem modCheck_hbm (s : State) (n : Nat) (f : CheckUnit → CheckUnit) (a : Nat) : (s.modCheck n f).hbm a = s.hbm a := rfl
@[simp] theorem modCheck_cxl (s : State) (n : Nat) (f : CheckUnit → CheckUnit) (a : Nat) : (s.modCheck n f).cxl a = s.cxl a := rfl
@[simp] theorem modCheck_granule (s : State) (n : Nat) (f : CheckUnit → CheckUnit) (a : Nat) : (s.modCheck n f).granule a = s.granule a := rfl
@[simp] theorem modCheck_complex (s : State) (n : Nat) (f : CheckUnit → CheckUnit) (a : Nat) : (s.modCheck n f).complex a = s.complex a := rfl
@[simp] theorem modCheck_queue (s : State) (n : Nat) (f : CheckUnit → CheckUnit) (a b : Nat) : (s.modCheck n f).queue a b = s.queue a b := rfl
@[simp] theorem modCheck_ring (s : State) (n : Nat) (f : CheckUnit → CheckUnit) (a : Nat) : (s.modCheck n f).ring a = s.ring a := rfl
@[simp] theorem modCheck_link (s : State) (n : Nat) (f : CheckUnit → CheckUnit) (a : Nat) : (s.modCheck n f).link a = s.link a := rfl
@[simp] theorem modCheck_site (s : State) (n : Nat) (f : CheckUnit → CheckUnit) (a : Nat) : (s.modCheck n f).site a = s.site a := rfl
@[simp] theorem modCheck_wear (s : State) (n : Nat) (f : CheckUnit → CheckUnit) (a : Nat) : (s.modCheck n f).wear a = s.wear a := rfl
@[simp] theorem modCheck_stream (s : State) (n : Nat) (f : CheckUnit → CheckUnit) (a b : Nat) : (s.modCheck n f).stream a b = s.stream a b := rfl
@[simp] theorem modCheck_node (s : State) (n : Nat) (f : CheckUnit → CheckUnit) (a b : Nat) : (s.modCheck n f).node a b = s.node a b := rfl
@[simp] theorem modCheck_epCtr (s : State) (n : Nat) (f : CheckUnit → CheckUnit) (a b : Nat) : (s.modCheck n f).epCtr a b = s.epCtr a b := rfl
@[simp] theorem setCtx_variant (s : State) (n : Nat) (x : Ctx) : (s.setCtx n x).variant = s.variant := rfl
@[simp] theorem setCtx_cores (s : State) (n : Nat) (x : Ctx) : (s.setCtx n x).cores = s.cores := rfl
@[simp] theorem setCtx_shelves (s : State) (n : Nat) (x : Ctx) : (s.setCtx n x).shelves = s.shelves := rfl
@[simp] theorem setCtx_mem (s : State) (n : Nat) (x : Ctx) : (s.setCtx n x).mem = s.mem := rfl
@[simp] theorem setCtx_media (s : State) (n : Nat) (x : Ctx) : (s.setCtx n x).media = s.media := rfl
@[simp] theorem setCtx_host (s : State) (n : Nat) (x : Ctx) : (s.setCtx n x).host = s.host := rfl
@[simp] theorem setCtx_fab (s : State) (n : Nat) (x : Ctx) : (s.setCtx n x).fab = s.fab := rfl
@[simp] theorem setCtx_sec (s : State) (n : Nat) (x : Ctx) : (s.setCtx n x).sec = s.sec := rfl
@[simp] theorem setCtx_ledger (s : State) (n : Nat) (x : Ctx) : (s.setCtx n x).ledger = s.ledger := rfl
@[simp] theorem setCtx_bring (s : State) (n : Nat) (x : Ctx) : (s.setCtx n x).bring = s.bring := rfl
@[simp] theorem setCtx_power (s : State) (n : Nat) (x : Ctx) : (s.setCtx n x).power = s.power := rfl
@[simp] theorem setCtx_mu (s : State) (n : Nat) (x : Ctx) : (s.setCtx n x).mu = s.mu := rfl
@[simp] theorem setCtx_imprint (s : State) (n : Nat) (x : Ctx) : (s.setCtx n x).imprint = s.imprint := rfl
@[simp] theorem setCtx_pins (s : State) (n : Nat) (x : Ctx) : (s.setCtx n x).pins = s.pins := rfl
@[simp] theorem setCtx_mgmt (s : State) (n : Nat) (x : Ctx) : (s.setCtx n x).mgmt = s.mgmt := rfl
@[simp] theorem setCtx_latches (s : State) (n : Nat) (x : Ctx) : (s.setCtx n x).latches = s.latches := rfl
@[simp] theorem setCtx_freeCtr (s : State) (n : Nat) (x : Ctx) : (s.setCtx n x).freeCtr = s.freeCtr := rfl
@[simp] theorem setCtx_pending (s : State) (n : Nat) (x : Ctx) : (s.setCtx n x).pending = s.pending := rfl
@[simp] theorem setCtx_core (s : State) (n : Nat) (x : Ctx) (a : Nat) : (s.setCtx n x).core a = s.core a := rfl
@[simp] theorem setCtx_shelf (s : State) (n : Nat) (x : Ctx) (a : Nat) : (s.setCtx n x).shelf a = s.shelf a := rfl
@[simp] theorem setCtx_hbm (s : State) (n : Nat) (x : Ctx) (a : Nat) : (s.setCtx n x).hbm a = s.hbm a := rfl
@[simp] theorem setCtx_cxl (s : State) (n : Nat) (x : Ctx) (a : Nat) : (s.setCtx n x).cxl a = s.cxl a := rfl
@[simp] theorem setCtx_granule (s : State) (n : Nat) (x : Ctx) (a : Nat) : (s.setCtx n x).granule a = s.granule a := rfl
@[simp] theorem setCtx_complex (s : State) (n : Nat) (x : Ctx) (a : Nat) : (s.setCtx n x).complex a = s.complex a := rfl
@[simp] theorem setCtx_queue (s : State) (n : Nat) (x : Ctx) (a b : Nat) : (s.setCtx n x).queue a b = s.queue a b := rfl
@[simp] theorem setCtx_ring (s : State) (n : Nat) (x : Ctx) (a : Nat) : (s.setCtx n x).ring a = s.ring a := rfl
@[simp] theorem setCtx_link (s : State) (n : Nat) (x : Ctx) (a : Nat) : (s.setCtx n x).link a = s.link a := rfl
@[simp] theorem setCtx_site (s : State) (n : Nat) (x : Ctx) (a : Nat) : (s.setCtx n x).site a = s.site a := rfl
@[simp] theorem setCtx_wear (s : State) (n : Nat) (x : Ctx) (a : Nat) : (s.setCtx n x).wear a = s.wear a := rfl
@[simp] theorem setCtx_epCtr (s : State) (n : Nat) (x : Ctx) (a b : Nat) : (s.setCtx n x).epCtr a b = s.epCtr a b := rfl
@[simp] theorem modCtx_variant (s : State) (n : Nat) (f : Ctx → Ctx) : (s.modCtx n f).variant = s.variant := rfl
@[simp] theorem modCtx_cores (s : State) (n : Nat) (f : Ctx → Ctx) : (s.modCtx n f).cores = s.cores := rfl
@[simp] theorem modCtx_shelves (s : State) (n : Nat) (f : Ctx → Ctx) : (s.modCtx n f).shelves = s.shelves := rfl
@[simp] theorem modCtx_mem (s : State) (n : Nat) (f : Ctx → Ctx) : (s.modCtx n f).mem = s.mem := rfl
@[simp] theorem modCtx_media (s : State) (n : Nat) (f : Ctx → Ctx) : (s.modCtx n f).media = s.media := rfl
@[simp] theorem modCtx_host (s : State) (n : Nat) (f : Ctx → Ctx) : (s.modCtx n f).host = s.host := rfl
@[simp] theorem modCtx_fab (s : State) (n : Nat) (f : Ctx → Ctx) : (s.modCtx n f).fab = s.fab := rfl
@[simp] theorem modCtx_sec (s : State) (n : Nat) (f : Ctx → Ctx) : (s.modCtx n f).sec = s.sec := rfl
@[simp] theorem modCtx_ledger (s : State) (n : Nat) (f : Ctx → Ctx) : (s.modCtx n f).ledger = s.ledger := rfl
@[simp] theorem modCtx_bring (s : State) (n : Nat) (f : Ctx → Ctx) : (s.modCtx n f).bring = s.bring := rfl
@[simp] theorem modCtx_power (s : State) (n : Nat) (f : Ctx → Ctx) : (s.modCtx n f).power = s.power := rfl
@[simp] theorem modCtx_mu (s : State) (n : Nat) (f : Ctx → Ctx) : (s.modCtx n f).mu = s.mu := rfl
@[simp] theorem modCtx_imprint (s : State) (n : Nat) (f : Ctx → Ctx) : (s.modCtx n f).imprint = s.imprint := rfl
@[simp] theorem modCtx_pins (s : State) (n : Nat) (f : Ctx → Ctx) : (s.modCtx n f).pins = s.pins := rfl
@[simp] theorem modCtx_mgmt (s : State) (n : Nat) (f : Ctx → Ctx) : (s.modCtx n f).mgmt = s.mgmt := rfl
@[simp] theorem modCtx_latches (s : State) (n : Nat) (f : Ctx → Ctx) : (s.modCtx n f).latches = s.latches := rfl
@[simp] theorem modCtx_freeCtr (s : State) (n : Nat) (f : Ctx → Ctx) : (s.modCtx n f).freeCtr = s.freeCtr := rfl
@[simp] theorem modCtx_pending (s : State) (n : Nat) (f : Ctx → Ctx) : (s.modCtx n f).pending = s.pending := rfl
@[simp] theorem modCtx_core (s : State) (n : Nat) (f : Ctx → Ctx) (a : Nat) : (s.modCtx n f).core a = s.core a := rfl
@[simp] theorem modCtx_shelf (s : State) (n : Nat) (f : Ctx → Ctx) (a : Nat) : (s.modCtx n f).shelf a = s.shelf a := rfl
@[simp] theorem modCtx_hbm (s : State) (n : Nat) (f : Ctx → Ctx) (a : Nat) : (s.modCtx n f).hbm a = s.hbm a := rfl
@[simp] theorem modCtx_cxl (s : State) (n : Nat) (f : Ctx → Ctx) (a : Nat) : (s.modCtx n f).cxl a = s.cxl a := rfl
@[simp] theorem modCtx_granule (s : State) (n : Nat) (f : Ctx → Ctx) (a : Nat) : (s.modCtx n f).granule a = s.granule a := rfl
@[simp] theorem modCtx_complex (s : State) (n : Nat) (f : Ctx → Ctx) (a : Nat) : (s.modCtx n f).complex a = s.complex a := rfl
@[simp] theorem modCtx_queue (s : State) (n : Nat) (f : Ctx → Ctx) (a b : Nat) : (s.modCtx n f).queue a b = s.queue a b := rfl
@[simp] theorem modCtx_ring (s : State) (n : Nat) (f : Ctx → Ctx) (a : Nat) : (s.modCtx n f).ring a = s.ring a := rfl
@[simp] theorem modCtx_link (s : State) (n : Nat) (f : Ctx → Ctx) (a : Nat) : (s.modCtx n f).link a = s.link a := rfl
@[simp] theorem modCtx_site (s : State) (n : Nat) (f : Ctx → Ctx) (a : Nat) : (s.modCtx n f).site a = s.site a := rfl
@[simp] theorem modCtx_wear (s : State) (n : Nat) (f : Ctx → Ctx) (a : Nat) : (s.modCtx n f).wear a = s.wear a := rfl
@[simp] theorem modCtx_epCtr (s : State) (n : Nat) (f : Ctx → Ctx) (a b : Nat) : (s.modCtx n f).epCtr a b = s.epCtr a b := rfl
@[simp] theorem modLed_variant (s : State) (n : Nat) (f : Ledger → Ledger) : (s.modLed n f).variant = s.variant := rfl
@[simp] theorem modLed_cores (s : State) (n : Nat) (f : Ledger → Ledger) : (s.modLed n f).cores = s.cores := rfl
@[simp] theorem modLed_shelves (s : State) (n : Nat) (f : Ledger → Ledger) : (s.modLed n f).shelves = s.shelves := rfl
@[simp] theorem modLed_mem (s : State) (n : Nat) (f : Ledger → Ledger) : (s.modLed n f).mem = s.mem := rfl
@[simp] theorem modLed_media (s : State) (n : Nat) (f : Ledger → Ledger) : (s.modLed n f).media = s.media := rfl
@[simp] theorem modLed_host (s : State) (n : Nat) (f : Ledger → Ledger) : (s.modLed n f).host = s.host := rfl
@[simp] theorem modLed_fab (s : State) (n : Nat) (f : Ledger → Ledger) : (s.modLed n f).fab = s.fab := rfl
@[simp] theorem modLed_sec (s : State) (n : Nat) (f : Ledger → Ledger) : (s.modLed n f).sec = s.sec := rfl
@[simp] theorem modLed_ledger (s : State) (n : Nat) (f : Ledger → Ledger) : (s.modLed n f).ledger = s.ledger := rfl
@[simp] theorem modLed_bring (s : State) (n : Nat) (f : Ledger → Ledger) : (s.modLed n f).bring = s.bring := rfl
@[simp] theorem modLed_power (s : State) (n : Nat) (f : Ledger → Ledger) : (s.modLed n f).power = s.power := rfl
@[simp] theorem modLed_mu (s : State) (n : Nat) (f : Ledger → Ledger) : (s.modLed n f).mu = s.mu := rfl
@[simp] theorem modLed_imprint (s : State) (n : Nat) (f : Ledger → Ledger) : (s.modLed n f).imprint = s.imprint := rfl
@[simp] theorem modLed_pins (s : State) (n : Nat) (f : Ledger → Ledger) : (s.modLed n f).pins = s.pins := rfl
@[simp] theorem modLed_mgmt (s : State) (n : Nat) (f : Ledger → Ledger) : (s.modLed n f).mgmt = s.mgmt := rfl
@[simp] theorem modLed_latches (s : State) (n : Nat) (f : Ledger → Ledger) : (s.modLed n f).latches = s.latches := rfl
@[simp] theorem modLed_freeCtr (s : State) (n : Nat) (f : Ledger → Ledger) : (s.modLed n f).freeCtr = s.freeCtr := rfl
@[simp] theorem modLed_pending (s : State) (n : Nat) (f : Ledger → Ledger) : (s.modLed n f).pending = s.pending := rfl
@[simp] theorem modLed_core (s : State) (n : Nat) (f : Ledger → Ledger) (a : Nat) : (s.modLed n f).core a = s.core a := rfl
@[simp] theorem modLed_shelf (s : State) (n : Nat) (f : Ledger → Ledger) (a : Nat) : (s.modLed n f).shelf a = s.shelf a := rfl
@[simp] theorem modLed_hbm (s : State) (n : Nat) (f : Ledger → Ledger) (a : Nat) : (s.modLed n f).hbm a = s.hbm a := rfl
@[simp] theorem modLed_cxl (s : State) (n : Nat) (f : Ledger → Ledger) (a : Nat) : (s.modLed n f).cxl a = s.cxl a := rfl
@[simp] theorem modLed_granule (s : State) (n : Nat) (f : Ledger → Ledger) (a : Nat) : (s.modLed n f).granule a = s.granule a := rfl
@[simp] theorem modLed_complex (s : State) (n : Nat) (f : Ledger → Ledger) (a : Nat) : (s.modLed n f).complex a = s.complex a := rfl
@[simp] theorem modLed_queue (s : State) (n : Nat) (f : Ledger → Ledger) (a b : Nat) : (s.modLed n f).queue a b = s.queue a b := rfl
@[simp] theorem modLed_ring (s : State) (n : Nat) (f : Ledger → Ledger) (a : Nat) : (s.modLed n f).ring a = s.ring a := rfl
@[simp] theorem modLed_link (s : State) (n : Nat) (f : Ledger → Ledger) (a : Nat) : (s.modLed n f).link a = s.link a := rfl
@[simp] theorem modLed_site (s : State) (n : Nat) (f : Ledger → Ledger) (a : Nat) : (s.modLed n f).site a = s.site a := rfl
@[simp] theorem modLed_wear (s : State) (n : Nat) (f : Ledger → Ledger) (a : Nat) : (s.modLed n f).wear a = s.wear a := rfl
@[simp] theorem modLed_epCtr (s : State) (n : Nat) (f : Ledger → Ledger) (a b : Nat) : (s.modLed n f).epCtr a b = s.epCtr a b := rfl
@[simp] theorem modCommit_variant (s : State) (n : Nat) (f : Commit → Commit) : (s.modCommit n f).variant = s.variant := rfl
@[simp] theorem modCommit_cores (s : State) (n : Nat) (f : Commit → Commit) : (s.modCommit n f).cores = s.cores := rfl
@[simp] theorem modCommit_shelves (s : State) (n : Nat) (f : Commit → Commit) : (s.modCommit n f).shelves = s.shelves := rfl
@[simp] theorem modCommit_mem (s : State) (n : Nat) (f : Commit → Commit) : (s.modCommit n f).mem = s.mem := rfl
@[simp] theorem modCommit_media (s : State) (n : Nat) (f : Commit → Commit) : (s.modCommit n f).media = s.media := rfl
@[simp] theorem modCommit_host (s : State) (n : Nat) (f : Commit → Commit) : (s.modCommit n f).host = s.host := rfl
@[simp] theorem modCommit_fab (s : State) (n : Nat) (f : Commit → Commit) : (s.modCommit n f).fab = s.fab := rfl
@[simp] theorem modCommit_sec (s : State) (n : Nat) (f : Commit → Commit) : (s.modCommit n f).sec = s.sec := rfl
@[simp] theorem modCommit_ledger (s : State) (n : Nat) (f : Commit → Commit) : (s.modCommit n f).ledger = s.ledger := rfl
@[simp] theorem modCommit_bring (s : State) (n : Nat) (f : Commit → Commit) : (s.modCommit n f).bring = s.bring := rfl
@[simp] theorem modCommit_power (s : State) (n : Nat) (f : Commit → Commit) : (s.modCommit n f).power = s.power := rfl
@[simp] theorem modCommit_mu (s : State) (n : Nat) (f : Commit → Commit) : (s.modCommit n f).mu = s.mu := rfl
@[simp] theorem modCommit_imprint (s : State) (n : Nat) (f : Commit → Commit) : (s.modCommit n f).imprint = s.imprint := rfl
@[simp] theorem modCommit_pins (s : State) (n : Nat) (f : Commit → Commit) : (s.modCommit n f).pins = s.pins := rfl
@[simp] theorem modCommit_mgmt (s : State) (n : Nat) (f : Commit → Commit) : (s.modCommit n f).mgmt = s.mgmt := rfl
@[simp] theorem modCommit_latches (s : State) (n : Nat) (f : Commit → Commit) : (s.modCommit n f).latches = s.latches := rfl
@[simp] theorem modCommit_freeCtr (s : State) (n : Nat) (f : Commit → Commit) : (s.modCommit n f).freeCtr = s.freeCtr := rfl
@[simp] theorem modCommit_pending (s : State) (n : Nat) (f : Commit → Commit) : (s.modCommit n f).pending = s.pending := rfl
@[simp] theorem modCommit_core (s : State) (n : Nat) (f : Commit → Commit) (a : Nat) : (s.modCommit n f).core a = s.core a := rfl
@[simp] theorem modCommit_shelf (s : State) (n : Nat) (f : Commit → Commit) (a : Nat) : (s.modCommit n f).shelf a = s.shelf a := rfl
@[simp] theorem modCommit_hbm (s : State) (n : Nat) (f : Commit → Commit) (a : Nat) : (s.modCommit n f).hbm a = s.hbm a := rfl
@[simp] theorem modCommit_cxl (s : State) (n : Nat) (f : Commit → Commit) (a : Nat) : (s.modCommit n f).cxl a = s.cxl a := rfl
@[simp] theorem modCommit_granule (s : State) (n : Nat) (f : Commit → Commit) (a : Nat) : (s.modCommit n f).granule a = s.granule a := rfl
@[simp] theorem modCommit_complex (s : State) (n : Nat) (f : Commit → Commit) (a : Nat) : (s.modCommit n f).complex a = s.complex a := rfl
@[simp] theorem modCommit_queue (s : State) (n : Nat) (f : Commit → Commit) (a b : Nat) : (s.modCommit n f).queue a b = s.queue a b := rfl
@[simp] theorem modCommit_ring (s : State) (n : Nat) (f : Commit → Commit) (a : Nat) : (s.modCommit n f).ring a = s.ring a := rfl
@[simp] theorem modCommit_link (s : State) (n : Nat) (f : Commit → Commit) (a : Nat) : (s.modCommit n f).link a = s.link a := rfl
@[simp] theorem modCommit_site (s : State) (n : Nat) (f : Commit → Commit) (a : Nat) : (s.modCommit n f).site a = s.site a := rfl
@[simp] theorem modCommit_wear (s : State) (n : Nat) (f : Commit → Commit) (a : Nat) : (s.modCommit n f).wear a = s.wear a := rfl
@[simp] theorem modCommit_epCtr (s : State) (n : Nat) (f : Commit → Commit) (a b : Nat) : (s.modCommit n f).epCtr a b = s.epCtr a b := rfl
@[simp] theorem modStream_variant (s : State) (n i : Nat) (f : Stream → Stream) : (s.modStream n i f).variant = s.variant := rfl
@[simp] theorem modStream_cores (s : State) (n i : Nat) (f : Stream → Stream) : (s.modStream n i f).cores = s.cores := rfl
@[simp] theorem modStream_shelves (s : State) (n i : Nat) (f : Stream → Stream) : (s.modStream n i f).shelves = s.shelves := rfl
@[simp] theorem modStream_mem (s : State) (n i : Nat) (f : Stream → Stream) : (s.modStream n i f).mem = s.mem := rfl
@[simp] theorem modStream_media (s : State) (n i : Nat) (f : Stream → Stream) : (s.modStream n i f).media = s.media := rfl
@[simp] theorem modStream_host (s : State) (n i : Nat) (f : Stream → Stream) : (s.modStream n i f).host = s.host := rfl
@[simp] theorem modStream_fab (s : State) (n i : Nat) (f : Stream → Stream) : (s.modStream n i f).fab = s.fab := rfl
@[simp] theorem modStream_sec (s : State) (n i : Nat) (f : Stream → Stream) : (s.modStream n i f).sec = s.sec := rfl
@[simp] theorem modStream_ledger (s : State) (n i : Nat) (f : Stream → Stream) : (s.modStream n i f).ledger = s.ledger := rfl
@[simp] theorem modStream_bring (s : State) (n i : Nat) (f : Stream → Stream) : (s.modStream n i f).bring = s.bring := rfl
@[simp] theorem modStream_power (s : State) (n i : Nat) (f : Stream → Stream) : (s.modStream n i f).power = s.power := rfl
@[simp] theorem modStream_mu (s : State) (n i : Nat) (f : Stream → Stream) : (s.modStream n i f).mu = s.mu := rfl
@[simp] theorem modStream_imprint (s : State) (n i : Nat) (f : Stream → Stream) : (s.modStream n i f).imprint = s.imprint := rfl
@[simp] theorem modStream_pins (s : State) (n i : Nat) (f : Stream → Stream) : (s.modStream n i f).pins = s.pins := rfl
@[simp] theorem modStream_mgmt (s : State) (n i : Nat) (f : Stream → Stream) : (s.modStream n i f).mgmt = s.mgmt := rfl
@[simp] theorem modStream_latches (s : State) (n i : Nat) (f : Stream → Stream) : (s.modStream n i f).latches = s.latches := rfl
@[simp] theorem modStream_freeCtr (s : State) (n i : Nat) (f : Stream → Stream) : (s.modStream n i f).freeCtr = s.freeCtr := rfl
@[simp] theorem modStream_pending (s : State) (n i : Nat) (f : Stream → Stream) : (s.modStream n i f).pending = s.pending := rfl
@[simp] theorem modStream_core (s : State) (n i : Nat) (f : Stream → Stream) (a : Nat) : (s.modStream n i f).core a = s.core a := rfl
@[simp] theorem modStream_shelf (s : State) (n i : Nat) (f : Stream → Stream) (a : Nat) : (s.modStream n i f).shelf a = s.shelf a := rfl
@[simp] theorem modStream_hbm (s : State) (n i : Nat) (f : Stream → Stream) (a : Nat) : (s.modStream n i f).hbm a = s.hbm a := rfl
@[simp] theorem modStream_cxl (s : State) (n i : Nat) (f : Stream → Stream) (a : Nat) : (s.modStream n i f).cxl a = s.cxl a := rfl
@[simp] theorem modStream_granule (s : State) (n i : Nat) (f : Stream → Stream) (a : Nat) : (s.modStream n i f).granule a = s.granule a := rfl
@[simp] theorem modStream_complex (s : State) (n i : Nat) (f : Stream → Stream) (a : Nat) : (s.modStream n i f).complex a = s.complex a := rfl
@[simp] theorem modStream_queue (s : State) (n i : Nat) (f : Stream → Stream) (a b : Nat) : (s.modStream n i f).queue a b = s.queue a b := rfl
@[simp] theorem modStream_ring (s : State) (n i : Nat) (f : Stream → Stream) (a : Nat) : (s.modStream n i f).ring a = s.ring a := rfl
@[simp] theorem modStream_link (s : State) (n i : Nat) (f : Stream → Stream) (a : Nat) : (s.modStream n i f).link a = s.link a := rfl
@[simp] theorem modStream_site (s : State) (n i : Nat) (f : Stream → Stream) (a : Nat) : (s.modStream n i f).site a = s.site a := rfl
@[simp] theorem modStream_wear (s : State) (n i : Nat) (f : Stream → Stream) (a : Nat) : (s.modStream n i f).wear a = s.wear a := rfl
@[simp] theorem modStream_epCtr (s : State) (n i : Nat) (f : Stream → Stream) (a b : Nat) : (s.modStream n i f).epCtr a b = s.epCtr a b := rfl
@[simp] theorem modNode_variant (s : State) (n i : Nat) (f : TreeNode → TreeNode) : (s.modNode n i f).variant = s.variant := rfl
@[simp] theorem modNode_cores (s : State) (n i : Nat) (f : TreeNode → TreeNode) : (s.modNode n i f).cores = s.cores := rfl
@[simp] theorem modNode_shelves (s : State) (n i : Nat) (f : TreeNode → TreeNode) : (s.modNode n i f).shelves = s.shelves := rfl
@[simp] theorem modNode_mem (s : State) (n i : Nat) (f : TreeNode → TreeNode) : (s.modNode n i f).mem = s.mem := rfl
@[simp] theorem modNode_media (s : State) (n i : Nat) (f : TreeNode → TreeNode) : (s.modNode n i f).media = s.media := rfl
@[simp] theorem modNode_host (s : State) (n i : Nat) (f : TreeNode → TreeNode) : (s.modNode n i f).host = s.host := rfl
@[simp] theorem modNode_fab (s : State) (n i : Nat) (f : TreeNode → TreeNode) : (s.modNode n i f).fab = s.fab := rfl
@[simp] theorem modNode_sec (s : State) (n i : Nat) (f : TreeNode → TreeNode) : (s.modNode n i f).sec = s.sec := rfl
@[simp] theorem modNode_ledger (s : State) (n i : Nat) (f : TreeNode → TreeNode) : (s.modNode n i f).ledger = s.ledger := rfl
@[simp] theorem modNode_bring (s : State) (n i : Nat) (f : TreeNode → TreeNode) : (s.modNode n i f).bring = s.bring := rfl
@[simp] theorem modNode_power (s : State) (n i : Nat) (f : TreeNode → TreeNode) : (s.modNode n i f).power = s.power := rfl
@[simp] theorem modNode_mu (s : State) (n i : Nat) (f : TreeNode → TreeNode) : (s.modNode n i f).mu = s.mu := rfl
@[simp] theorem modNode_imprint (s : State) (n i : Nat) (f : TreeNode → TreeNode) : (s.modNode n i f).imprint = s.imprint := rfl
@[simp] theorem modNode_pins (s : State) (n i : Nat) (f : TreeNode → TreeNode) : (s.modNode n i f).pins = s.pins := rfl
@[simp] theorem modNode_mgmt (s : State) (n i : Nat) (f : TreeNode → TreeNode) : (s.modNode n i f).mgmt = s.mgmt := rfl
@[simp] theorem modNode_latches (s : State) (n i : Nat) (f : TreeNode → TreeNode) : (s.modNode n i f).latches = s.latches := rfl
@[simp] theorem modNode_freeCtr (s : State) (n i : Nat) (f : TreeNode → TreeNode) : (s.modNode n i f).freeCtr = s.freeCtr := rfl
@[simp] theorem modNode_pending (s : State) (n i : Nat) (f : TreeNode → TreeNode) : (s.modNode n i f).pending = s.pending := rfl
@[simp] theorem modNode_core (s : State) (n i : Nat) (f : TreeNode → TreeNode) (a : Nat) : (s.modNode n i f).core a = s.core a := rfl
@[simp] theorem modNode_shelf (s : State) (n i : Nat) (f : TreeNode → TreeNode) (a : Nat) : (s.modNode n i f).shelf a = s.shelf a := rfl
@[simp] theorem modNode_hbm (s : State) (n i : Nat) (f : TreeNode → TreeNode) (a : Nat) : (s.modNode n i f).hbm a = s.hbm a := rfl
@[simp] theorem modNode_cxl (s : State) (n i : Nat) (f : TreeNode → TreeNode) (a : Nat) : (s.modNode n i f).cxl a = s.cxl a := rfl
@[simp] theorem modNode_granule (s : State) (n i : Nat) (f : TreeNode → TreeNode) (a : Nat) : (s.modNode n i f).granule a = s.granule a := rfl
@[simp] theorem modNode_complex (s : State) (n i : Nat) (f : TreeNode → TreeNode) (a : Nat) : (s.modNode n i f).complex a = s.complex a := rfl
@[simp] theorem modNode_queue (s : State) (n i : Nat) (f : TreeNode → TreeNode) (a b : Nat) : (s.modNode n i f).queue a b = s.queue a b := rfl
@[simp] theorem modNode_ring (s : State) (n i : Nat) (f : TreeNode → TreeNode) (a : Nat) : (s.modNode n i f).ring a = s.ring a := rfl
@[simp] theorem modNode_link (s : State) (n i : Nat) (f : TreeNode → TreeNode) (a : Nat) : (s.modNode n i f).link a = s.link a := rfl
@[simp] theorem modNode_site (s : State) (n i : Nat) (f : TreeNode → TreeNode) (a : Nat) : (s.modNode n i f).site a = s.site a := rfl
@[simp] theorem modNode_wear (s : State) (n i : Nat) (f : TreeNode → TreeNode) (a : Nat) : (s.modNode n i f).wear a = s.wear a := rfl
@[simp] theorem modNode_epCtr (s : State) (n i : Nat) (f : TreeNode → TreeNode) (a b : Nat) : (s.modNode n i f).epCtr a b = s.epCtr a b := rfl
@[simp] theorem modEnd_variant (s : State) (n i k : Nat) (f : FabEnd → FabEnd) : (s.modEnd n i k f).variant = s.variant := rfl
@[simp] theorem modEnd_cores (s : State) (n i k : Nat) (f : FabEnd → FabEnd) : (s.modEnd n i k f).cores = s.cores := rfl
@[simp] theorem modEnd_shelves (s : State) (n i k : Nat) (f : FabEnd → FabEnd) : (s.modEnd n i k f).shelves = s.shelves := rfl
@[simp] theorem modEnd_mem (s : State) (n i k : Nat) (f : FabEnd → FabEnd) : (s.modEnd n i k f).mem = s.mem := rfl
@[simp] theorem modEnd_media (s : State) (n i k : Nat) (f : FabEnd → FabEnd) : (s.modEnd n i k f).media = s.media := rfl
@[simp] theorem modEnd_host (s : State) (n i k : Nat) (f : FabEnd → FabEnd) : (s.modEnd n i k f).host = s.host := rfl
@[simp] theorem modEnd_fab (s : State) (n i k : Nat) (f : FabEnd → FabEnd) : (s.modEnd n i k f).fab = s.fab := rfl
@[simp] theorem modEnd_sec (s : State) (n i k : Nat) (f : FabEnd → FabEnd) : (s.modEnd n i k f).sec = s.sec := rfl
@[simp] theorem modEnd_ledger (s : State) (n i k : Nat) (f : FabEnd → FabEnd) : (s.modEnd n i k f).ledger = s.ledger := rfl
@[simp] theorem modEnd_bring (s : State) (n i k : Nat) (f : FabEnd → FabEnd) : (s.modEnd n i k f).bring = s.bring := rfl
@[simp] theorem modEnd_power (s : State) (n i k : Nat) (f : FabEnd → FabEnd) : (s.modEnd n i k f).power = s.power := rfl
@[simp] theorem modEnd_mu (s : State) (n i k : Nat) (f : FabEnd → FabEnd) : (s.modEnd n i k f).mu = s.mu := rfl
@[simp] theorem modEnd_imprint (s : State) (n i k : Nat) (f : FabEnd → FabEnd) : (s.modEnd n i k f).imprint = s.imprint := rfl
@[simp] theorem modEnd_pins (s : State) (n i k : Nat) (f : FabEnd → FabEnd) : (s.modEnd n i k f).pins = s.pins := rfl
@[simp] theorem modEnd_mgmt (s : State) (n i k : Nat) (f : FabEnd → FabEnd) : (s.modEnd n i k f).mgmt = s.mgmt := rfl
@[simp] theorem modEnd_latches (s : State) (n i k : Nat) (f : FabEnd → FabEnd) : (s.modEnd n i k f).latches = s.latches := rfl
@[simp] theorem modEnd_freeCtr (s : State) (n i k : Nat) (f : FabEnd → FabEnd) : (s.modEnd n i k f).freeCtr = s.freeCtr := rfl
@[simp] theorem modEnd_pending (s : State) (n i k : Nat) (f : FabEnd → FabEnd) : (s.modEnd n i k f).pending = s.pending := rfl
@[simp] theorem modEnd_core (s : State) (n i k : Nat) (f : FabEnd → FabEnd) (a : Nat) : (s.modEnd n i k f).core a = s.core a := rfl
@[simp] theorem modEnd_shelf (s : State) (n i k : Nat) (f : FabEnd → FabEnd) (a : Nat) : (s.modEnd n i k f).shelf a = s.shelf a := rfl
@[simp] theorem modEnd_hbm (s : State) (n i k : Nat) (f : FabEnd → FabEnd) (a : Nat) : (s.modEnd n i k f).hbm a = s.hbm a := rfl
@[simp] theorem modEnd_cxl (s : State) (n i k : Nat) (f : FabEnd → FabEnd) (a : Nat) : (s.modEnd n i k f).cxl a = s.cxl a := rfl
@[simp] theorem modEnd_granule (s : State) (n i k : Nat) (f : FabEnd → FabEnd) (a : Nat) : (s.modEnd n i k f).granule a = s.granule a := rfl
@[simp] theorem modEnd_complex (s : State) (n i k : Nat) (f : FabEnd → FabEnd) (a : Nat) : (s.modEnd n i k f).complex a = s.complex a := rfl
@[simp] theorem modEnd_queue (s : State) (n i k : Nat) (f : FabEnd → FabEnd) (a b : Nat) : (s.modEnd n i k f).queue a b = s.queue a b := rfl
@[simp] theorem modEnd_ring (s : State) (n i k : Nat) (f : FabEnd → FabEnd) (a : Nat) : (s.modEnd n i k f).ring a = s.ring a := rfl
@[simp] theorem modEnd_link (s : State) (n i k : Nat) (f : FabEnd → FabEnd) (a : Nat) : (s.modEnd n i k f).link a = s.link a := rfl
@[simp] theorem modEnd_site (s : State) (n i k : Nat) (f : FabEnd → FabEnd) (a : Nat) : (s.modEnd n i k f).site a = s.site a := rfl
@[simp] theorem modEnd_wear (s : State) (n i k : Nat) (f : FabEnd → FabEnd) (a : Nat) : (s.modEnd n i k f).wear a = s.wear a := rfl
@[simp] theorem modEnd_epCtr (s : State) (n i k : Nat) (f : FabEnd → FabEnd) (a b : Nat) : (s.modEnd n i k f).epCtr a b = s.epCtr a b := rfl
@[simp] theorem modHbm_variant (s : State) (n : Nat) (f : Hbm → Hbm) : (s.modHbm n f).variant = s.variant := rfl
@[simp] theorem modHbm_cores (s : State) (n : Nat) (f : Hbm → Hbm) : (s.modHbm n f).cores = s.cores := rfl
@[simp] theorem modHbm_shelves (s : State) (n : Nat) (f : Hbm → Hbm) : (s.modHbm n f).shelves = s.shelves := rfl
@[simp] theorem modHbm_mem_mem (s : State) (n : Nat) (f : Hbm → Hbm) : (s.modHbm n f).mem.mem = s.mem.mem := rfl
@[simp] theorem modHbm_mem_cxl (s : State) (n : Nat) (f : Hbm → Hbm) : (s.modHbm n f).mem.cxl = s.mem.cxl := rfl
@[simp] theorem modHbm_mem_granules (s : State) (n : Nat) (f : Hbm → Hbm) : (s.modHbm n f).mem.granules = s.mem.granules := rfl
@[simp] theorem modHbm_mem_interleave (s : State) (n : Nat) (f : Hbm → Hbm) : (s.modHbm n f).mem.interleave = s.mem.interleave := rfl
@[simp] theorem modHbm_mem_systemGranules (s : State) (n : Nat) (f : Hbm → Hbm) : (s.modHbm n f).mem.systemGranules = s.mem.systemGranules := rfl
@[simp] theorem modHbm_mem_addressFaults (s : State) (n : Nat) (f : Hbm → Hbm) : (s.modHbm n f).mem.addressFaults = s.mem.addressFaults := rfl
@[simp] theorem modHbm_mem_ledgerLost (s : State) (n : Nat) (f : Hbm → Hbm) : (s.modHbm n f).mem.ledgerLost = s.mem.ledgerLost := rfl
@[simp] theorem modHbm_ctxs (s : State) (n : Nat) (f : Hbm → Hbm) : (s.modHbm n f).ctxs = s.ctxs := rfl
@[simp] theorem modHbm_media (s : State) (n : Nat) (f : Hbm → Hbm) : (s.modHbm n f).media = s.media := rfl
@[simp] theorem modHbm_host (s : State) (n : Nat) (f : Hbm → Hbm) : (s.modHbm n f).host = s.host := rfl
@[simp] theorem modHbm_fab (s : State) (n : Nat) (f : Hbm → Hbm) : (s.modHbm n f).fab = s.fab := rfl
@[simp] theorem modHbm_sec (s : State) (n : Nat) (f : Hbm → Hbm) : (s.modHbm n f).sec = s.sec := rfl
@[simp] theorem modHbm_ledger (s : State) (n : Nat) (f : Hbm → Hbm) : (s.modHbm n f).ledger = s.ledger := rfl
@[simp] theorem modHbm_bring (s : State) (n : Nat) (f : Hbm → Hbm) : (s.modHbm n f).bring = s.bring := rfl
@[simp] theorem modHbm_power (s : State) (n : Nat) (f : Hbm → Hbm) : (s.modHbm n f).power = s.power := rfl
@[simp] theorem modHbm_mu (s : State) (n : Nat) (f : Hbm → Hbm) : (s.modHbm n f).mu = s.mu := rfl
@[simp] theorem modHbm_imprint (s : State) (n : Nat) (f : Hbm → Hbm) : (s.modHbm n f).imprint = s.imprint := rfl
@[simp] theorem modHbm_pins (s : State) (n : Nat) (f : Hbm → Hbm) : (s.modHbm n f).pins = s.pins := rfl
@[simp] theorem modHbm_mgmt (s : State) (n : Nat) (f : Hbm → Hbm) : (s.modHbm n f).mgmt = s.mgmt := rfl
@[simp] theorem modHbm_latches (s : State) (n : Nat) (f : Hbm → Hbm) : (s.modHbm n f).latches = s.latches := rfl
@[simp] theorem modHbm_freeCtr (s : State) (n : Nat) (f : Hbm → Hbm) : (s.modHbm n f).freeCtr = s.freeCtr := rfl
@[simp] theorem modHbm_pending (s : State) (n : Nat) (f : Hbm → Hbm) : (s.modHbm n f).pending = s.pending := rfl
@[simp] theorem modHbm_core (s : State) (n : Nat) (f : Hbm → Hbm) (a : Nat) : (s.modHbm n f).core a = s.core a := rfl
@[simp] theorem modHbm_shelf (s : State) (n : Nat) (f : Hbm → Hbm) (a : Nat) : (s.modHbm n f).shelf a = s.shelf a := rfl
@[simp] theorem modHbm_ctx (s : State) (n : Nat) (f : Hbm → Hbm) (a : Nat) : (s.modHbm n f).ctx a = s.ctx a := rfl
@[simp] theorem modHbm_cxl (s : State) (n : Nat) (f : Hbm → Hbm) (a : Nat) : (s.modHbm n f).cxl a = s.cxl a := rfl
@[simp] theorem modHbm_granule (s : State) (n : Nat) (f : Hbm → Hbm) (a : Nat) : (s.modHbm n f).granule a = s.granule a := rfl
@[simp] theorem modHbm_complex (s : State) (n : Nat) (f : Hbm → Hbm) (a : Nat) : (s.modHbm n f).complex a = s.complex a := rfl
@[simp] theorem modHbm_queue (s : State) (n : Nat) (f : Hbm → Hbm) (a b : Nat) : (s.modHbm n f).queue a b = s.queue a b := rfl
@[simp] theorem modHbm_ring (s : State) (n : Nat) (f : Hbm → Hbm) (a : Nat) : (s.modHbm n f).ring a = s.ring a := rfl
@[simp] theorem modHbm_link (s : State) (n : Nat) (f : Hbm → Hbm) (a : Nat) : (s.modHbm n f).link a = s.link a := rfl
@[simp] theorem modHbm_site (s : State) (n : Nat) (f : Hbm → Hbm) (a : Nat) : (s.modHbm n f).site a = s.site a := rfl
@[simp] theorem modHbm_wear (s : State) (n : Nat) (f : Hbm → Hbm) (a : Nat) : (s.modHbm n f).wear a = s.wear a := rfl
@[simp] theorem modHbm_stream (s : State) (n : Nat) (f : Hbm → Hbm) (a b : Nat) : (s.modHbm n f).stream a b = s.stream a b := rfl
@[simp] theorem modHbm_node (s : State) (n : Nat) (f : Hbm → Hbm) (a b : Nat) : (s.modHbm n f).node a b = s.node a b := rfl
@[simp] theorem modHbm_epCtr (s : State) (n : Nat) (f : Hbm → Hbm) (a b : Nat) : (s.modHbm n f).epCtr a b = s.epCtr a b := rfl
@[simp] theorem modCxl_variant (s : State) (n : Nat) (f : Cxl → Cxl) : (s.modCxl n f).variant = s.variant := rfl
@[simp] theorem modCxl_cores (s : State) (n : Nat) (f : Cxl → Cxl) : (s.modCxl n f).cores = s.cores := rfl
@[simp] theorem modCxl_shelves (s : State) (n : Nat) (f : Cxl → Cxl) : (s.modCxl n f).shelves = s.shelves := rfl
@[simp] theorem modCxl_mem_mem (s : State) (n : Nat) (f : Cxl → Cxl) : (s.modCxl n f).mem.mem = s.mem.mem := rfl
@[simp] theorem modCxl_mem_hbm (s : State) (n : Nat) (f : Cxl → Cxl) : (s.modCxl n f).mem.hbm = s.mem.hbm := rfl
@[simp] theorem modCxl_mem_granules (s : State) (n : Nat) (f : Cxl → Cxl) : (s.modCxl n f).mem.granules = s.mem.granules := rfl
@[simp] theorem modCxl_mem_interleave (s : State) (n : Nat) (f : Cxl → Cxl) : (s.modCxl n f).mem.interleave = s.mem.interleave := rfl
@[simp] theorem modCxl_mem_systemGranules (s : State) (n : Nat) (f : Cxl → Cxl) : (s.modCxl n f).mem.systemGranules = s.mem.systemGranules := rfl
@[simp] theorem modCxl_mem_addressFaults (s : State) (n : Nat) (f : Cxl → Cxl) : (s.modCxl n f).mem.addressFaults = s.mem.addressFaults := rfl
@[simp] theorem modCxl_mem_ledgerLost (s : State) (n : Nat) (f : Cxl → Cxl) : (s.modCxl n f).mem.ledgerLost = s.mem.ledgerLost := rfl
@[simp] theorem modCxl_ctxs (s : State) (n : Nat) (f : Cxl → Cxl) : (s.modCxl n f).ctxs = s.ctxs := rfl
@[simp] theorem modCxl_media (s : State) (n : Nat) (f : Cxl → Cxl) : (s.modCxl n f).media = s.media := rfl
@[simp] theorem modCxl_host (s : State) (n : Nat) (f : Cxl → Cxl) : (s.modCxl n f).host = s.host := rfl
@[simp] theorem modCxl_fab (s : State) (n : Nat) (f : Cxl → Cxl) : (s.modCxl n f).fab = s.fab := rfl
@[simp] theorem modCxl_sec (s : State) (n : Nat) (f : Cxl → Cxl) : (s.modCxl n f).sec = s.sec := rfl
@[simp] theorem modCxl_ledger (s : State) (n : Nat) (f : Cxl → Cxl) : (s.modCxl n f).ledger = s.ledger := rfl
@[simp] theorem modCxl_bring (s : State) (n : Nat) (f : Cxl → Cxl) : (s.modCxl n f).bring = s.bring := rfl
@[simp] theorem modCxl_power (s : State) (n : Nat) (f : Cxl → Cxl) : (s.modCxl n f).power = s.power := rfl
@[simp] theorem modCxl_mu (s : State) (n : Nat) (f : Cxl → Cxl) : (s.modCxl n f).mu = s.mu := rfl
@[simp] theorem modCxl_imprint (s : State) (n : Nat) (f : Cxl → Cxl) : (s.modCxl n f).imprint = s.imprint := rfl
@[simp] theorem modCxl_pins (s : State) (n : Nat) (f : Cxl → Cxl) : (s.modCxl n f).pins = s.pins := rfl
@[simp] theorem modCxl_mgmt (s : State) (n : Nat) (f : Cxl → Cxl) : (s.modCxl n f).mgmt = s.mgmt := rfl
@[simp] theorem modCxl_latches (s : State) (n : Nat) (f : Cxl → Cxl) : (s.modCxl n f).latches = s.latches := rfl
@[simp] theorem modCxl_freeCtr (s : State) (n : Nat) (f : Cxl → Cxl) : (s.modCxl n f).freeCtr = s.freeCtr := rfl
@[simp] theorem modCxl_pending (s : State) (n : Nat) (f : Cxl → Cxl) : (s.modCxl n f).pending = s.pending := rfl
@[simp] theorem modCxl_core (s : State) (n : Nat) (f : Cxl → Cxl) (a : Nat) : (s.modCxl n f).core a = s.core a := rfl
@[simp] theorem modCxl_shelf (s : State) (n : Nat) (f : Cxl → Cxl) (a : Nat) : (s.modCxl n f).shelf a = s.shelf a := rfl
@[simp] theorem modCxl_ctx (s : State) (n : Nat) (f : Cxl → Cxl) (a : Nat) : (s.modCxl n f).ctx a = s.ctx a := rfl
@[simp] theorem modCxl_hbm (s : State) (n : Nat) (f : Cxl → Cxl) (a : Nat) : (s.modCxl n f).hbm a = s.hbm a := rfl
@[simp] theorem modCxl_granule (s : State) (n : Nat) (f : Cxl → Cxl) (a : Nat) : (s.modCxl n f).granule a = s.granule a := rfl
@[simp] theorem modCxl_complex (s : State) (n : Nat) (f : Cxl → Cxl) (a : Nat) : (s.modCxl n f).complex a = s.complex a := rfl
@[simp] theorem modCxl_queue (s : State) (n : Nat) (f : Cxl → Cxl) (a b : Nat) : (s.modCxl n f).queue a b = s.queue a b := rfl
@[simp] theorem modCxl_ring (s : State) (n : Nat) (f : Cxl → Cxl) (a : Nat) : (s.modCxl n f).ring a = s.ring a := rfl
@[simp] theorem modCxl_link (s : State) (n : Nat) (f : Cxl → Cxl) (a : Nat) : (s.modCxl n f).link a = s.link a := rfl
@[simp] theorem modCxl_site (s : State) (n : Nat) (f : Cxl → Cxl) (a : Nat) : (s.modCxl n f).site a = s.site a := rfl
@[simp] theorem modCxl_wear (s : State) (n : Nat) (f : Cxl → Cxl) (a : Nat) : (s.modCxl n f).wear a = s.wear a := rfl
@[simp] theorem modCxl_stream (s : State) (n : Nat) (f : Cxl → Cxl) (a b : Nat) : (s.modCxl n f).stream a b = s.stream a b := rfl
@[simp] theorem modCxl_node (s : State) (n : Nat) (f : Cxl → Cxl) (a b : Nat) : (s.modCxl n f).node a b = s.node a b := rfl
@[simp] theorem modCxl_epCtr (s : State) (n : Nat) (f : Cxl → Cxl) (a b : Nat) : (s.modCxl n f).epCtr a b = s.epCtr a b := rfl
@[simp] theorem modGranule_variant (s : State) (n : Nat) (f : Granule → Granule) : (s.modGranule n f).variant = s.variant := rfl
@[simp] theorem modGranule_cores (s : State) (n : Nat) (f : Granule → Granule) : (s.modGranule n f).cores = s.cores := rfl
@[simp] theorem modGranule_shelves (s : State) (n : Nat) (f : Granule → Granule) : (s.modGranule n f).shelves = s.shelves := rfl
@[simp] theorem modGranule_mem_mem (s : State) (n : Nat) (f : Granule → Granule) : (s.modGranule n f).mem.mem = s.mem.mem := rfl
@[simp] theorem modGranule_mem_hbm (s : State) (n : Nat) (f : Granule → Granule) : (s.modGranule n f).mem.hbm = s.mem.hbm := rfl
@[simp] theorem modGranule_mem_cxl (s : State) (n : Nat) (f : Granule → Granule) : (s.modGranule n f).mem.cxl = s.mem.cxl := rfl
@[simp] theorem modGranule_mem_interleave (s : State) (n : Nat) (f : Granule → Granule) : (s.modGranule n f).mem.interleave = s.mem.interleave := rfl
@[simp] theorem modGranule_mem_systemGranules (s : State) (n : Nat) (f : Granule → Granule) : (s.modGranule n f).mem.systemGranules = s.mem.systemGranules := rfl
@[simp] theorem modGranule_mem_addressFaults (s : State) (n : Nat) (f : Granule → Granule) : (s.modGranule n f).mem.addressFaults = s.mem.addressFaults := rfl
@[simp] theorem modGranule_mem_ledgerLost (s : State) (n : Nat) (f : Granule → Granule) : (s.modGranule n f).mem.ledgerLost = s.mem.ledgerLost := rfl
@[simp] theorem modGranule_ctxs (s : State) (n : Nat) (f : Granule → Granule) : (s.modGranule n f).ctxs = s.ctxs := rfl
@[simp] theorem modGranule_media (s : State) (n : Nat) (f : Granule → Granule) : (s.modGranule n f).media = s.media := rfl
@[simp] theorem modGranule_host (s : State) (n : Nat) (f : Granule → Granule) : (s.modGranule n f).host = s.host := rfl
@[simp] theorem modGranule_fab (s : State) (n : Nat) (f : Granule → Granule) : (s.modGranule n f).fab = s.fab := rfl
@[simp] theorem modGranule_sec (s : State) (n : Nat) (f : Granule → Granule) : (s.modGranule n f).sec = s.sec := rfl
@[simp] theorem modGranule_ledger (s : State) (n : Nat) (f : Granule → Granule) : (s.modGranule n f).ledger = s.ledger := rfl
@[simp] theorem modGranule_bring (s : State) (n : Nat) (f : Granule → Granule) : (s.modGranule n f).bring = s.bring := rfl
@[simp] theorem modGranule_power (s : State) (n : Nat) (f : Granule → Granule) : (s.modGranule n f).power = s.power := rfl
@[simp] theorem modGranule_mu (s : State) (n : Nat) (f : Granule → Granule) : (s.modGranule n f).mu = s.mu := rfl
@[simp] theorem modGranule_imprint (s : State) (n : Nat) (f : Granule → Granule) : (s.modGranule n f).imprint = s.imprint := rfl
@[simp] theorem modGranule_pins (s : State) (n : Nat) (f : Granule → Granule) : (s.modGranule n f).pins = s.pins := rfl
@[simp] theorem modGranule_mgmt (s : State) (n : Nat) (f : Granule → Granule) : (s.modGranule n f).mgmt = s.mgmt := rfl
@[simp] theorem modGranule_latches (s : State) (n : Nat) (f : Granule → Granule) : (s.modGranule n f).latches = s.latches := rfl
@[simp] theorem modGranule_freeCtr (s : State) (n : Nat) (f : Granule → Granule) : (s.modGranule n f).freeCtr = s.freeCtr := rfl
@[simp] theorem modGranule_pending (s : State) (n : Nat) (f : Granule → Granule) : (s.modGranule n f).pending = s.pending := rfl
@[simp] theorem modGranule_core (s : State) (n : Nat) (f : Granule → Granule) (a : Nat) : (s.modGranule n f).core a = s.core a := rfl
@[simp] theorem modGranule_shelf (s : State) (n : Nat) (f : Granule → Granule) (a : Nat) : (s.modGranule n f).shelf a = s.shelf a := rfl
@[simp] theorem modGranule_ctx (s : State) (n : Nat) (f : Granule → Granule) (a : Nat) : (s.modGranule n f).ctx a = s.ctx a := rfl
@[simp] theorem modGranule_hbm (s : State) (n : Nat) (f : Granule → Granule) (a : Nat) : (s.modGranule n f).hbm a = s.hbm a := rfl
@[simp] theorem modGranule_cxl (s : State) (n : Nat) (f : Granule → Granule) (a : Nat) : (s.modGranule n f).cxl a = s.cxl a := rfl
@[simp] theorem modGranule_complex (s : State) (n : Nat) (f : Granule → Granule) (a : Nat) : (s.modGranule n f).complex a = s.complex a := rfl
@[simp] theorem modGranule_queue (s : State) (n : Nat) (f : Granule → Granule) (a b : Nat) : (s.modGranule n f).queue a b = s.queue a b := rfl
@[simp] theorem modGranule_ring (s : State) (n : Nat) (f : Granule → Granule) (a : Nat) : (s.modGranule n f).ring a = s.ring a := rfl
@[simp] theorem modGranule_link (s : State) (n : Nat) (f : Granule → Granule) (a : Nat) : (s.modGranule n f).link a = s.link a := rfl
@[simp] theorem modGranule_site (s : State) (n : Nat) (f : Granule → Granule) (a : Nat) : (s.modGranule n f).site a = s.site a := rfl
@[simp] theorem modGranule_wear (s : State) (n : Nat) (f : Granule → Granule) (a : Nat) : (s.modGranule n f).wear a = s.wear a := rfl
@[simp] theorem modGranule_stream (s : State) (n : Nat) (f : Granule → Granule) (a b : Nat) : (s.modGranule n f).stream a b = s.stream a b := rfl
@[simp] theorem modGranule_node (s : State) (n : Nat) (f : Granule → Granule) (a b : Nat) : (s.modGranule n f).node a b = s.node a b := rfl
@[simp] theorem modGranule_epCtr (s : State) (n : Nat) (f : Granule → Granule) (a b : Nat) : (s.modGranule n f).epCtr a b = s.epCtr a b := rfl
@[simp] theorem setMem_variant (s : State) (m : Mem) : (s.setMem m).variant = s.variant := rfl
@[simp] theorem setMem_cores (s : State) (m : Mem) : (s.setMem m).cores = s.cores := rfl
@[simp] theorem setMem_shelves (s : State) (m : Mem) : (s.setMem m).shelves = s.shelves := rfl
@[simp] theorem setMem_mem_hbm (s : State) (m : Mem) : (s.setMem m).mem.hbm = s.mem.hbm := rfl
@[simp] theorem setMem_mem_cxl (s : State) (m : Mem) : (s.setMem m).mem.cxl = s.mem.cxl := rfl
@[simp] theorem setMem_mem_granules (s : State) (m : Mem) : (s.setMem m).mem.granules = s.mem.granules := rfl
@[simp] theorem setMem_mem_interleave (s : State) (m : Mem) : (s.setMem m).mem.interleave = s.mem.interleave := rfl
@[simp] theorem setMem_mem_systemGranules (s : State) (m : Mem) : (s.setMem m).mem.systemGranules = s.mem.systemGranules := rfl
@[simp] theorem setMem_mem_addressFaults (s : State) (m : Mem) : (s.setMem m).mem.addressFaults = s.mem.addressFaults := rfl
@[simp] theorem setMem_mem_ledgerLost (s : State) (m : Mem) : (s.setMem m).mem.ledgerLost = s.mem.ledgerLost := rfl
@[simp] theorem setMem_ctxs (s : State) (m : Mem) : (s.setMem m).ctxs = s.ctxs := rfl
@[simp] theorem setMem_media (s : State) (m : Mem) : (s.setMem m).media = s.media := rfl
@[simp] theorem setMem_host (s : State) (m : Mem) : (s.setMem m).host = s.host := rfl
@[simp] theorem setMem_fab (s : State) (m : Mem) : (s.setMem m).fab = s.fab := rfl
@[simp] theorem setMem_sec (s : State) (m : Mem) : (s.setMem m).sec = s.sec := rfl
@[simp] theorem setMem_ledger (s : State) (m : Mem) : (s.setMem m).ledger = s.ledger := rfl
@[simp] theorem setMem_bring (s : State) (m : Mem) : (s.setMem m).bring = s.bring := rfl
@[simp] theorem setMem_power (s : State) (m : Mem) : (s.setMem m).power = s.power := rfl
@[simp] theorem setMem_mu (s : State) (m : Mem) : (s.setMem m).mu = s.mu := rfl
@[simp] theorem setMem_imprint (s : State) (m : Mem) : (s.setMem m).imprint = s.imprint := rfl
@[simp] theorem setMem_pins (s : State) (m : Mem) : (s.setMem m).pins = s.pins := rfl
@[simp] theorem setMem_mgmt (s : State) (m : Mem) : (s.setMem m).mgmt = s.mgmt := rfl
@[simp] theorem setMem_latches (s : State) (m : Mem) : (s.setMem m).latches = s.latches := rfl
@[simp] theorem setMem_freeCtr (s : State) (m : Mem) : (s.setMem m).freeCtr = s.freeCtr := rfl
@[simp] theorem setMem_pending (s : State) (m : Mem) : (s.setMem m).pending = s.pending := rfl
@[simp] theorem setMem_core (s : State) (m : Mem) (a : Nat) : (s.setMem m).core a = s.core a := rfl
@[simp] theorem setMem_shelf (s : State) (m : Mem) (a : Nat) : (s.setMem m).shelf a = s.shelf a := rfl
@[simp] theorem setMem_ctx (s : State) (m : Mem) (a : Nat) : (s.setMem m).ctx a = s.ctx a := rfl
@[simp] theorem setMem_hbm (s : State) (m : Mem) (a : Nat) : (s.setMem m).hbm a = s.hbm a := rfl
@[simp] theorem setMem_cxl (s : State) (m : Mem) (a : Nat) : (s.setMem m).cxl a = s.cxl a := rfl
@[simp] theorem setMem_granule (s : State) (m : Mem) (a : Nat) : (s.setMem m).granule a = s.granule a := rfl
@[simp] theorem setMem_complex (s : State) (m : Mem) (a : Nat) : (s.setMem m).complex a = s.complex a := rfl
@[simp] theorem setMem_queue (s : State) (m : Mem) (a b : Nat) : (s.setMem m).queue a b = s.queue a b := rfl
@[simp] theorem setMem_ring (s : State) (m : Mem) (a : Nat) : (s.setMem m).ring a = s.ring a := rfl
@[simp] theorem setMem_link (s : State) (m : Mem) (a : Nat) : (s.setMem m).link a = s.link a := rfl
@[simp] theorem setMem_site (s : State) (m : Mem) (a : Nat) : (s.setMem m).site a = s.site a := rfl
@[simp] theorem setMem_wear (s : State) (m : Mem) (a : Nat) : (s.setMem m).wear a = s.wear a := rfl
@[simp] theorem setMem_stream (s : State) (m : Mem) (a b : Nat) : (s.setMem m).stream a b = s.stream a b := rfl
@[simp] theorem setMem_node (s : State) (m : Mem) (a b : Nat) : (s.setMem m).node a b = s.node a b := rfl
@[simp] theorem setMem_epCtr (s : State) (m : Mem) (a b : Nat) : (s.setMem m).epCtr a b = s.epCtr a b := rfl
@[simp] theorem modMemSys_variant (s : State) (f : MemSys → MemSys) : (s.modMemSys f).variant = s.variant := rfl
@[simp] theorem modMemSys_cores (s : State) (f : MemSys → MemSys) : (s.modMemSys f).cores = s.cores := rfl
@[simp] theorem modMemSys_shelves (s : State) (f : MemSys → MemSys) : (s.modMemSys f).shelves = s.shelves := rfl
@[simp] theorem modMemSys_ctxs (s : State) (f : MemSys → MemSys) : (s.modMemSys f).ctxs = s.ctxs := rfl
@[simp] theorem modMemSys_media (s : State) (f : MemSys → MemSys) : (s.modMemSys f).media = s.media := rfl
@[simp] theorem modMemSys_host (s : State) (f : MemSys → MemSys) : (s.modMemSys f).host = s.host := rfl
@[simp] theorem modMemSys_fab (s : State) (f : MemSys → MemSys) : (s.modMemSys f).fab = s.fab := rfl
@[simp] theorem modMemSys_sec (s : State) (f : MemSys → MemSys) : (s.modMemSys f).sec = s.sec := rfl
@[simp] theorem modMemSys_ledger (s : State) (f : MemSys → MemSys) : (s.modMemSys f).ledger = s.ledger := rfl
@[simp] theorem modMemSys_bring (s : State) (f : MemSys → MemSys) : (s.modMemSys f).bring = s.bring := rfl
@[simp] theorem modMemSys_power (s : State) (f : MemSys → MemSys) : (s.modMemSys f).power = s.power := rfl
@[simp] theorem modMemSys_mu (s : State) (f : MemSys → MemSys) : (s.modMemSys f).mu = s.mu := rfl
@[simp] theorem modMemSys_imprint (s : State) (f : MemSys → MemSys) : (s.modMemSys f).imprint = s.imprint := rfl
@[simp] theorem modMemSys_pins (s : State) (f : MemSys → MemSys) : (s.modMemSys f).pins = s.pins := rfl
@[simp] theorem modMemSys_mgmt (s : State) (f : MemSys → MemSys) : (s.modMemSys f).mgmt = s.mgmt := rfl
@[simp] theorem modMemSys_latches (s : State) (f : MemSys → MemSys) : (s.modMemSys f).latches = s.latches := rfl
@[simp] theorem modMemSys_freeCtr (s : State) (f : MemSys → MemSys) : (s.modMemSys f).freeCtr = s.freeCtr := rfl
@[simp] theorem modMemSys_pending (s : State) (f : MemSys → MemSys) : (s.modMemSys f).pending = s.pending := rfl
@[simp] theorem modMemSys_core (s : State) (f : MemSys → MemSys) (a : Nat) : (s.modMemSys f).core a = s.core a := rfl
@[simp] theorem modMemSys_shelf (s : State) (f : MemSys → MemSys) (a : Nat) : (s.modMemSys f).shelf a = s.shelf a := rfl
@[simp] theorem modMemSys_ctx (s : State) (f : MemSys → MemSys) (a : Nat) : (s.modMemSys f).ctx a = s.ctx a := rfl
@[simp] theorem modMemSys_complex (s : State) (f : MemSys → MemSys) (a : Nat) : (s.modMemSys f).complex a = s.complex a := rfl
@[simp] theorem modMemSys_queue (s : State) (f : MemSys → MemSys) (a b : Nat) : (s.modMemSys f).queue a b = s.queue a b := rfl
@[simp] theorem modMemSys_ring (s : State) (f : MemSys → MemSys) (a : Nat) : (s.modMemSys f).ring a = s.ring a := rfl
@[simp] theorem modMemSys_link (s : State) (f : MemSys → MemSys) (a : Nat) : (s.modMemSys f).link a = s.link a := rfl
@[simp] theorem modMemSys_site (s : State) (f : MemSys → MemSys) (a : Nat) : (s.modMemSys f).site a = s.site a := rfl
@[simp] theorem modMemSys_wear (s : State) (f : MemSys → MemSys) (a : Nat) : (s.modMemSys f).wear a = s.wear a := rfl
@[simp] theorem modMemSys_stream (s : State) (f : MemSys → MemSys) (a b : Nat) : (s.modMemSys f).stream a b = s.stream a b := rfl
@[simp] theorem modMemSys_node (s : State) (f : MemSys → MemSys) (a b : Nat) : (s.modMemSys f).node a b = s.node a b := rfl
@[simp] theorem modMemSys_epCtr (s : State) (f : MemSys → MemSys) (a b : Nat) : (s.modMemSys f).epCtr a b = s.epCtr a b := rfl
@[simp] theorem modComplex_variant (s : State) (n : Nat) (f : Complex → Complex) : (s.modComplex n f).variant = s.variant := rfl
@[simp] theorem modComplex_cores (s : State) (n : Nat) (f : Complex → Complex) : (s.modComplex n f).cores = s.cores := rfl
@[simp] theorem modComplex_shelves (s : State) (n : Nat) (f : Complex → Complex) : (s.modComplex n f).shelves = s.shelves := rfl
@[simp] theorem modComplex_mem (s : State) (n : Nat) (f : Complex → Complex) : (s.modComplex n f).mem = s.mem := rfl
@[simp] theorem modComplex_ctxs (s : State) (n : Nat) (f : Complex → Complex) : (s.modComplex n f).ctxs = s.ctxs := rfl
@[simp] theorem modComplex_host (s : State) (n : Nat) (f : Complex → Complex) : (s.modComplex n f).host = s.host := rfl
@[simp] theorem modComplex_fab (s : State) (n : Nat) (f : Complex → Complex) : (s.modComplex n f).fab = s.fab := rfl
@[simp] theorem modComplex_sec (s : State) (n : Nat) (f : Complex → Complex) : (s.modComplex n f).sec = s.sec := rfl
@[simp] theorem modComplex_ledger (s : State) (n : Nat) (f : Complex → Complex) : (s.modComplex n f).ledger = s.ledger := rfl
@[simp] theorem modComplex_bring (s : State) (n : Nat) (f : Complex → Complex) : (s.modComplex n f).bring = s.bring := rfl
@[simp] theorem modComplex_power (s : State) (n : Nat) (f : Complex → Complex) : (s.modComplex n f).power = s.power := rfl
@[simp] theorem modComplex_mu (s : State) (n : Nat) (f : Complex → Complex) : (s.modComplex n f).mu = s.mu := rfl
@[simp] theorem modComplex_imprint (s : State) (n : Nat) (f : Complex → Complex) : (s.modComplex n f).imprint = s.imprint := rfl
@[simp] theorem modComplex_pins (s : State) (n : Nat) (f : Complex → Complex) : (s.modComplex n f).pins = s.pins := rfl
@[simp] theorem modComplex_mgmt (s : State) (n : Nat) (f : Complex → Complex) : (s.modComplex n f).mgmt = s.mgmt := rfl
@[simp] theorem modComplex_latches (s : State) (n : Nat) (f : Complex → Complex) : (s.modComplex n f).latches = s.latches := rfl
@[simp] theorem modComplex_freeCtr (s : State) (n : Nat) (f : Complex → Complex) : (s.modComplex n f).freeCtr = s.freeCtr := rfl
@[simp] theorem modComplex_pending (s : State) (n : Nat) (f : Complex → Complex) : (s.modComplex n f).pending = s.pending := rfl
@[simp] theorem modComplex_core (s : State) (n : Nat) (f : Complex → Complex) (a : Nat) : (s.modComplex n f).core a = s.core a := rfl
@[simp] theorem modComplex_shelf (s : State) (n : Nat) (f : Complex → Complex) (a : Nat) : (s.modComplex n f).shelf a = s.shelf a := rfl
@[simp] theorem modComplex_ctx (s : State) (n : Nat) (f : Complex → Complex) (a : Nat) : (s.modComplex n f).ctx a = s.ctx a := rfl
@[simp] theorem modComplex_hbm (s : State) (n : Nat) (f : Complex → Complex) (a : Nat) : (s.modComplex n f).hbm a = s.hbm a := rfl
@[simp] theorem modComplex_cxl (s : State) (n : Nat) (f : Complex → Complex) (a : Nat) : (s.modComplex n f).cxl a = s.cxl a := rfl
@[simp] theorem modComplex_granule (s : State) (n : Nat) (f : Complex → Complex) (a : Nat) : (s.modComplex n f).granule a = s.granule a := rfl
@[simp] theorem modComplex_ring (s : State) (n : Nat) (f : Complex → Complex) (a : Nat) : (s.modComplex n f).ring a = s.ring a := rfl
@[simp] theorem modComplex_link (s : State) (n : Nat) (f : Complex → Complex) (a : Nat) : (s.modComplex n f).link a = s.link a := rfl
@[simp] theorem modComplex_site (s : State) (n : Nat) (f : Complex → Complex) (a : Nat) : (s.modComplex n f).site a = s.site a := rfl
@[simp] theorem modComplex_wear (s : State) (n : Nat) (f : Complex → Complex) (a : Nat) : (s.modComplex n f).wear a = s.wear a := rfl
@[simp] theorem modComplex_stream (s : State) (n : Nat) (f : Complex → Complex) (a b : Nat) : (s.modComplex n f).stream a b = s.stream a b := rfl
@[simp] theorem modComplex_node (s : State) (n : Nat) (f : Complex → Complex) (a b : Nat) : (s.modComplex n f).node a b = s.node a b := rfl
@[simp] theorem modComplex_epCtr (s : State) (n : Nat) (f : Complex → Complex) (a b : Nat) : (s.modComplex n f).epCtr a b = s.epCtr a b := rfl
@[simp] theorem modQueue_variant (s : State) (n q : Nat) (f : Queue → Queue) : (s.modQueue n q f).variant = s.variant := rfl
@[simp] theorem modQueue_cores (s : State) (n q : Nat) (f : Queue → Queue) : (s.modQueue n q f).cores = s.cores := rfl
@[simp] theorem modQueue_shelves (s : State) (n q : Nat) (f : Queue → Queue) : (s.modQueue n q f).shelves = s.shelves := rfl
@[simp] theorem modQueue_mem (s : State) (n q : Nat) (f : Queue → Queue) : (s.modQueue n q f).mem = s.mem := rfl
@[simp] theorem modQueue_ctxs (s : State) (n q : Nat) (f : Queue → Queue) : (s.modQueue n q f).ctxs = s.ctxs := rfl
@[simp] theorem modQueue_host (s : State) (n q : Nat) (f : Queue → Queue) : (s.modQueue n q f).host = s.host := rfl
@[simp] theorem modQueue_fab (s : State) (n q : Nat) (f : Queue → Queue) : (s.modQueue n q f).fab = s.fab := rfl
@[simp] theorem modQueue_sec (s : State) (n q : Nat) (f : Queue → Queue) : (s.modQueue n q f).sec = s.sec := rfl
@[simp] theorem modQueue_ledger (s : State) (n q : Nat) (f : Queue → Queue) : (s.modQueue n q f).ledger = s.ledger := rfl
@[simp] theorem modQueue_bring (s : State) (n q : Nat) (f : Queue → Queue) : (s.modQueue n q f).bring = s.bring := rfl
@[simp] theorem modQueue_power (s : State) (n q : Nat) (f : Queue → Queue) : (s.modQueue n q f).power = s.power := rfl
@[simp] theorem modQueue_mu (s : State) (n q : Nat) (f : Queue → Queue) : (s.modQueue n q f).mu = s.mu := rfl
@[simp] theorem modQueue_imprint (s : State) (n q : Nat) (f : Queue → Queue) : (s.modQueue n q f).imprint = s.imprint := rfl
@[simp] theorem modQueue_pins (s : State) (n q : Nat) (f : Queue → Queue) : (s.modQueue n q f).pins = s.pins := rfl
@[simp] theorem modQueue_mgmt (s : State) (n q : Nat) (f : Queue → Queue) : (s.modQueue n q f).mgmt = s.mgmt := rfl
@[simp] theorem modQueue_latches (s : State) (n q : Nat) (f : Queue → Queue) : (s.modQueue n q f).latches = s.latches := rfl
@[simp] theorem modQueue_freeCtr (s : State) (n q : Nat) (f : Queue → Queue) : (s.modQueue n q f).freeCtr = s.freeCtr := rfl
@[simp] theorem modQueue_pending (s : State) (n q : Nat) (f : Queue → Queue) : (s.modQueue n q f).pending = s.pending := rfl
@[simp] theorem modQueue_core (s : State) (n q : Nat) (f : Queue → Queue) (a : Nat) : (s.modQueue n q f).core a = s.core a := rfl
@[simp] theorem modQueue_shelf (s : State) (n q : Nat) (f : Queue → Queue) (a : Nat) : (s.modQueue n q f).shelf a = s.shelf a := rfl
@[simp] theorem modQueue_ctx (s : State) (n q : Nat) (f : Queue → Queue) (a : Nat) : (s.modQueue n q f).ctx a = s.ctx a := rfl
@[simp] theorem modQueue_hbm (s : State) (n q : Nat) (f : Queue → Queue) (a : Nat) : (s.modQueue n q f).hbm a = s.hbm a := rfl
@[simp] theorem modQueue_cxl (s : State) (n q : Nat) (f : Queue → Queue) (a : Nat) : (s.modQueue n q f).cxl a = s.cxl a := rfl
@[simp] theorem modQueue_granule (s : State) (n q : Nat) (f : Queue → Queue) (a : Nat) : (s.modQueue n q f).granule a = s.granule a := rfl
@[simp] theorem modQueue_ring (s : State) (n q : Nat) (f : Queue → Queue) (a : Nat) : (s.modQueue n q f).ring a = s.ring a := rfl
@[simp] theorem modQueue_link (s : State) (n q : Nat) (f : Queue → Queue) (a : Nat) : (s.modQueue n q f).link a = s.link a := rfl
@[simp] theorem modQueue_site (s : State) (n q : Nat) (f : Queue → Queue) (a : Nat) : (s.modQueue n q f).site a = s.site a := rfl
@[simp] theorem modQueue_wear (s : State) (n q : Nat) (f : Queue → Queue) (a : Nat) : (s.modQueue n q f).wear a = s.wear a := rfl
@[simp] theorem modQueue_stream (s : State) (n q : Nat) (f : Queue → Queue) (a b : Nat) : (s.modQueue n q f).stream a b = s.stream a b := rfl
@[simp] theorem modQueue_node (s : State) (n q : Nat) (f : Queue → Queue) (a b : Nat) : (s.modQueue n q f).node a b = s.node a b := rfl
@[simp] theorem modQueue_epCtr (s : State) (n q : Nat) (f : Queue → Queue) (a b : Nat) : (s.modQueue n q f).epCtr a b = s.epCtr a b := rfl
@[simp] theorem modHost_variant (s : State) (f : HostLink → HostLink) : (s.modHost f).variant = s.variant := rfl
@[simp] theorem modHost_cores (s : State) (f : HostLink → HostLink) : (s.modHost f).cores = s.cores := rfl
@[simp] theorem modHost_shelves (s : State) (f : HostLink → HostLink) : (s.modHost f).shelves = s.shelves := rfl
@[simp] theorem modHost_mem (s : State) (f : HostLink → HostLink) : (s.modHost f).mem = s.mem := rfl
@[simp] theorem modHost_ctxs (s : State) (f : HostLink → HostLink) : (s.modHost f).ctxs = s.ctxs := rfl
@[simp] theorem modHost_media (s : State) (f : HostLink → HostLink) : (s.modHost f).media = s.media := rfl
@[simp] theorem modHost_fab (s : State) (f : HostLink → HostLink) : (s.modHost f).fab = s.fab := rfl
@[simp] theorem modHost_sec (s : State) (f : HostLink → HostLink) : (s.modHost f).sec = s.sec := rfl
@[simp] theorem modHost_ledger (s : State) (f : HostLink → HostLink) : (s.modHost f).ledger = s.ledger := rfl
@[simp] theorem modHost_bring (s : State) (f : HostLink → HostLink) : (s.modHost f).bring = s.bring := rfl
@[simp] theorem modHost_power (s : State) (f : HostLink → HostLink) : (s.modHost f).power = s.power := rfl
@[simp] theorem modHost_mu (s : State) (f : HostLink → HostLink) : (s.modHost f).mu = s.mu := rfl
@[simp] theorem modHost_imprint (s : State) (f : HostLink → HostLink) : (s.modHost f).imprint = s.imprint := rfl
@[simp] theorem modHost_pins (s : State) (f : HostLink → HostLink) : (s.modHost f).pins = s.pins := rfl
@[simp] theorem modHost_mgmt (s : State) (f : HostLink → HostLink) : (s.modHost f).mgmt = s.mgmt := rfl
@[simp] theorem modHost_latches (s : State) (f : HostLink → HostLink) : (s.modHost f).latches = s.latches := rfl
@[simp] theorem modHost_freeCtr (s : State) (f : HostLink → HostLink) : (s.modHost f).freeCtr = s.freeCtr := rfl
@[simp] theorem modHost_pending (s : State) (f : HostLink → HostLink) : (s.modHost f).pending = s.pending := rfl
@[simp] theorem modHost_core (s : State) (f : HostLink → HostLink) (a : Nat) : (s.modHost f).core a = s.core a := rfl
@[simp] theorem modHost_shelf (s : State) (f : HostLink → HostLink) (a : Nat) : (s.modHost f).shelf a = s.shelf a := rfl
@[simp] theorem modHost_ctx (s : State) (f : HostLink → HostLink) (a : Nat) : (s.modHost f).ctx a = s.ctx a := rfl
@[simp] theorem modHost_hbm (s : State) (f : HostLink → HostLink) (a : Nat) : (s.modHost f).hbm a = s.hbm a := rfl
@[simp] theorem modHost_cxl (s : State) (f : HostLink → HostLink) (a : Nat) : (s.modHost f).cxl a = s.cxl a := rfl
@[simp] theorem modHost_granule (s : State) (f : HostLink → HostLink) (a : Nat) : (s.modHost f).granule a = s.granule a := rfl
@[simp] theorem modHost_complex (s : State) (f : HostLink → HostLink) (a : Nat) : (s.modHost f).complex a = s.complex a := rfl
@[simp] theorem modHost_queue (s : State) (f : HostLink → HostLink) (a b : Nat) : (s.modHost f).queue a b = s.queue a b := rfl
@[simp] theorem modHost_link (s : State) (f : HostLink → HostLink) (a : Nat) : (s.modHost f).link a = s.link a := rfl
@[simp] theorem modHost_site (s : State) (f : HostLink → HostLink) (a : Nat) : (s.modHost f).site a = s.site a := rfl
@[simp] theorem modHost_wear (s : State) (f : HostLink → HostLink) (a : Nat) : (s.modHost f).wear a = s.wear a := rfl
@[simp] theorem modHost_stream (s : State) (f : HostLink → HostLink) (a b : Nat) : (s.modHost f).stream a b = s.stream a b := rfl
@[simp] theorem modHost_node (s : State) (f : HostLink → HostLink) (a b : Nat) : (s.modHost f).node a b = s.node a b := rfl
@[simp] theorem modHost_epCtr (s : State) (f : HostLink → HostLink) (a b : Nat) : (s.modHost f).epCtr a b = s.epCtr a b := rfl
@[simp] theorem modRing_variant (s : State) (q : Nat) (f : Ring → Ring) : (s.modRing q f).variant = s.variant := rfl
@[simp] theorem modRing_cores (s : State) (q : Nat) (f : Ring → Ring) : (s.modRing q f).cores = s.cores := rfl
@[simp] theorem modRing_shelves (s : State) (q : Nat) (f : Ring → Ring) : (s.modRing q f).shelves = s.shelves := rfl
@[simp] theorem modRing_mem (s : State) (q : Nat) (f : Ring → Ring) : (s.modRing q f).mem = s.mem := rfl
@[simp] theorem modRing_ctxs (s : State) (q : Nat) (f : Ring → Ring) : (s.modRing q f).ctxs = s.ctxs := rfl
@[simp] theorem modRing_media (s : State) (q : Nat) (f : Ring → Ring) : (s.modRing q f).media = s.media := rfl
@[simp] theorem modRing_fab (s : State) (q : Nat) (f : Ring → Ring) : (s.modRing q f).fab = s.fab := rfl
@[simp] theorem modRing_sec (s : State) (q : Nat) (f : Ring → Ring) : (s.modRing q f).sec = s.sec := rfl
@[simp] theorem modRing_ledger (s : State) (q : Nat) (f : Ring → Ring) : (s.modRing q f).ledger = s.ledger := rfl
@[simp] theorem modRing_bring (s : State) (q : Nat) (f : Ring → Ring) : (s.modRing q f).bring = s.bring := rfl
@[simp] theorem modRing_power (s : State) (q : Nat) (f : Ring → Ring) : (s.modRing q f).power = s.power := rfl
@[simp] theorem modRing_mu (s : State) (q : Nat) (f : Ring → Ring) : (s.modRing q f).mu = s.mu := rfl
@[simp] theorem modRing_imprint (s : State) (q : Nat) (f : Ring → Ring) : (s.modRing q f).imprint = s.imprint := rfl
@[simp] theorem modRing_pins (s : State) (q : Nat) (f : Ring → Ring) : (s.modRing q f).pins = s.pins := rfl
@[simp] theorem modRing_mgmt (s : State) (q : Nat) (f : Ring → Ring) : (s.modRing q f).mgmt = s.mgmt := rfl
@[simp] theorem modRing_latches (s : State) (q : Nat) (f : Ring → Ring) : (s.modRing q f).latches = s.latches := rfl
@[simp] theorem modRing_freeCtr (s : State) (q : Nat) (f : Ring → Ring) : (s.modRing q f).freeCtr = s.freeCtr := rfl
@[simp] theorem modRing_pending (s : State) (q : Nat) (f : Ring → Ring) : (s.modRing q f).pending = s.pending := rfl
@[simp] theorem modRing_core (s : State) (q : Nat) (f : Ring → Ring) (a : Nat) : (s.modRing q f).core a = s.core a := rfl
@[simp] theorem modRing_shelf (s : State) (q : Nat) (f : Ring → Ring) (a : Nat) : (s.modRing q f).shelf a = s.shelf a := rfl
@[simp] theorem modRing_ctx (s : State) (q : Nat) (f : Ring → Ring) (a : Nat) : (s.modRing q f).ctx a = s.ctx a := rfl
@[simp] theorem modRing_hbm (s : State) (q : Nat) (f : Ring → Ring) (a : Nat) : (s.modRing q f).hbm a = s.hbm a := rfl
@[simp] theorem modRing_cxl (s : State) (q : Nat) (f : Ring → Ring) (a : Nat) : (s.modRing q f).cxl a = s.cxl a := rfl
@[simp] theorem modRing_granule (s : State) (q : Nat) (f : Ring → Ring) (a : Nat) : (s.modRing q f).granule a = s.granule a := rfl
@[simp] theorem modRing_complex (s : State) (q : Nat) (f : Ring → Ring) (a : Nat) : (s.modRing q f).complex a = s.complex a := rfl
@[simp] theorem modRing_queue (s : State) (q : Nat) (f : Ring → Ring) (a b : Nat) : (s.modRing q f).queue a b = s.queue a b := rfl
@[simp] theorem modRing_link (s : State) (q : Nat) (f : Ring → Ring) (a : Nat) : (s.modRing q f).link a = s.link a := rfl
@[simp] theorem modRing_site (s : State) (q : Nat) (f : Ring → Ring) (a : Nat) : (s.modRing q f).site a = s.site a := rfl
@[simp] theorem modRing_wear (s : State) (q : Nat) (f : Ring → Ring) (a : Nat) : (s.modRing q f).wear a = s.wear a := rfl
@[simp] theorem modRing_stream (s : State) (q : Nat) (f : Ring → Ring) (a b : Nat) : (s.modRing q f).stream a b = s.stream a b := rfl
@[simp] theorem modRing_node (s : State) (q : Nat) (f : Ring → Ring) (a b : Nat) : (s.modRing q f).node a b = s.node a b := rfl
@[simp] theorem modRing_epCtr (s : State) (q : Nat) (f : Ring → Ring) (a b : Nat) : (s.modRing q f).epCtr a b = s.epCtr a b := rfl
@[simp] theorem modTaken_variant (s : State) (f : Taken → Taken) : (s.modTaken f).variant = s.variant := rfl
@[simp] theorem modTaken_cores (s : State) (f : Taken → Taken) : (s.modTaken f).cores = s.cores := rfl
@[simp] theorem modTaken_shelves (s : State) (f : Taken → Taken) : (s.modTaken f).shelves = s.shelves := rfl
@[simp] theorem modTaken_mem (s : State) (f : Taken → Taken) : (s.modTaken f).mem = s.mem := rfl
@[simp] theorem modTaken_ctxs (s : State) (f : Taken → Taken) : (s.modTaken f).ctxs = s.ctxs := rfl
@[simp] theorem modTaken_media (s : State) (f : Taken → Taken) : (s.modTaken f).media = s.media := rfl
@[simp] theorem modTaken_fab (s : State) (f : Taken → Taken) : (s.modTaken f).fab = s.fab := rfl
@[simp] theorem modTaken_sec (s : State) (f : Taken → Taken) : (s.modTaken f).sec = s.sec := rfl
@[simp] theorem modTaken_ledger (s : State) (f : Taken → Taken) : (s.modTaken f).ledger = s.ledger := rfl
@[simp] theorem modTaken_bring (s : State) (f : Taken → Taken) : (s.modTaken f).bring = s.bring := rfl
@[simp] theorem modTaken_power (s : State) (f : Taken → Taken) : (s.modTaken f).power = s.power := rfl
@[simp] theorem modTaken_mu (s : State) (f : Taken → Taken) : (s.modTaken f).mu = s.mu := rfl
@[simp] theorem modTaken_imprint (s : State) (f : Taken → Taken) : (s.modTaken f).imprint = s.imprint := rfl
@[simp] theorem modTaken_pins (s : State) (f : Taken → Taken) : (s.modTaken f).pins = s.pins := rfl
@[simp] theorem modTaken_mgmt (s : State) (f : Taken → Taken) : (s.modTaken f).mgmt = s.mgmt := rfl
@[simp] theorem modTaken_latches (s : State) (f : Taken → Taken) : (s.modTaken f).latches = s.latches := rfl
@[simp] theorem modTaken_freeCtr (s : State) (f : Taken → Taken) : (s.modTaken f).freeCtr = s.freeCtr := rfl
@[simp] theorem modTaken_pending (s : State) (f : Taken → Taken) : (s.modTaken f).pending = s.pending := rfl
@[simp] theorem modTaken_core (s : State) (f : Taken → Taken) (a : Nat) : (s.modTaken f).core a = s.core a := rfl
@[simp] theorem modTaken_shelf (s : State) (f : Taken → Taken) (a : Nat) : (s.modTaken f).shelf a = s.shelf a := rfl
@[simp] theorem modTaken_ctx (s : State) (f : Taken → Taken) (a : Nat) : (s.modTaken f).ctx a = s.ctx a := rfl
@[simp] theorem modTaken_hbm (s : State) (f : Taken → Taken) (a : Nat) : (s.modTaken f).hbm a = s.hbm a := rfl
@[simp] theorem modTaken_cxl (s : State) (f : Taken → Taken) (a : Nat) : (s.modTaken f).cxl a = s.cxl a := rfl
@[simp] theorem modTaken_granule (s : State) (f : Taken → Taken) (a : Nat) : (s.modTaken f).granule a = s.granule a := rfl
@[simp] theorem modTaken_complex (s : State) (f : Taken → Taken) (a : Nat) : (s.modTaken f).complex a = s.complex a := rfl
@[simp] theorem modTaken_queue (s : State) (f : Taken → Taken) (a b : Nat) : (s.modTaken f).queue a b = s.queue a b := rfl
@[simp] theorem modTaken_link (s : State) (f : Taken → Taken) (a : Nat) : (s.modTaken f).link a = s.link a := rfl
@[simp] theorem modTaken_site (s : State) (f : Taken → Taken) (a : Nat) : (s.modTaken f).site a = s.site a := rfl
@[simp] theorem modTaken_wear (s : State) (f : Taken → Taken) (a : Nat) : (s.modTaken f).wear a = s.wear a := rfl
@[simp] theorem modTaken_stream (s : State) (f : Taken → Taken) (a b : Nat) : (s.modTaken f).stream a b = s.stream a b := rfl
@[simp] theorem modTaken_node (s : State) (f : Taken → Taken) (a b : Nat) : (s.modTaken f).node a b = s.node a b := rfl
@[simp] theorem modTaken_epCtr (s : State) (f : Taken → Taken) (a b : Nat) : (s.modTaken f).epCtr a b = s.epCtr a b := rfl
@[simp] theorem modFab_variant (s : State) (f : Fabric → Fabric) : (s.modFab f).variant = s.variant := rfl
@[simp] theorem modFab_cores (s : State) (f : Fabric → Fabric) : (s.modFab f).cores = s.cores := rfl
@[simp] theorem modFab_shelves (s : State) (f : Fabric → Fabric) : (s.modFab f).shelves = s.shelves := rfl
@[simp] theorem modFab_mem (s : State) (f : Fabric → Fabric) : (s.modFab f).mem = s.mem := rfl
@[simp] theorem modFab_ctxs (s : State) (f : Fabric → Fabric) : (s.modFab f).ctxs = s.ctxs := rfl
@[simp] theorem modFab_media (s : State) (f : Fabric → Fabric) : (s.modFab f).media = s.media := rfl
@[simp] theorem modFab_host (s : State) (f : Fabric → Fabric) : (s.modFab f).host = s.host := rfl
@[simp] theorem modFab_sec (s : State) (f : Fabric → Fabric) : (s.modFab f).sec = s.sec := rfl
@[simp] theorem modFab_ledger (s : State) (f : Fabric → Fabric) : (s.modFab f).ledger = s.ledger := rfl
@[simp] theorem modFab_bring (s : State) (f : Fabric → Fabric) : (s.modFab f).bring = s.bring := rfl
@[simp] theorem modFab_power (s : State) (f : Fabric → Fabric) : (s.modFab f).power = s.power := rfl
@[simp] theorem modFab_mu (s : State) (f : Fabric → Fabric) : (s.modFab f).mu = s.mu := rfl
@[simp] theorem modFab_imprint (s : State) (f : Fabric → Fabric) : (s.modFab f).imprint = s.imprint := rfl
@[simp] theorem modFab_pins (s : State) (f : Fabric → Fabric) : (s.modFab f).pins = s.pins := rfl
@[simp] theorem modFab_mgmt (s : State) (f : Fabric → Fabric) : (s.modFab f).mgmt = s.mgmt := rfl
@[simp] theorem modFab_latches (s : State) (f : Fabric → Fabric) : (s.modFab f).latches = s.latches := rfl
@[simp] theorem modFab_freeCtr (s : State) (f : Fabric → Fabric) : (s.modFab f).freeCtr = s.freeCtr := rfl
@[simp] theorem modFab_pending (s : State) (f : Fabric → Fabric) : (s.modFab f).pending = s.pending := rfl
@[simp] theorem modFab_core (s : State) (f : Fabric → Fabric) (a : Nat) : (s.modFab f).core a = s.core a := rfl
@[simp] theorem modFab_shelf (s : State) (f : Fabric → Fabric) (a : Nat) : (s.modFab f).shelf a = s.shelf a := rfl
@[simp] theorem modFab_ctx (s : State) (f : Fabric → Fabric) (a : Nat) : (s.modFab f).ctx a = s.ctx a := rfl
@[simp] theorem modFab_hbm (s : State) (f : Fabric → Fabric) (a : Nat) : (s.modFab f).hbm a = s.hbm a := rfl
@[simp] theorem modFab_cxl (s : State) (f : Fabric → Fabric) (a : Nat) : (s.modFab f).cxl a = s.cxl a := rfl
@[simp] theorem modFab_granule (s : State) (f : Fabric → Fabric) (a : Nat) : (s.modFab f).granule a = s.granule a := rfl
@[simp] theorem modFab_complex (s : State) (f : Fabric → Fabric) (a : Nat) : (s.modFab f).complex a = s.complex a := rfl
@[simp] theorem modFab_queue (s : State) (f : Fabric → Fabric) (a b : Nat) : (s.modFab f).queue a b = s.queue a b := rfl
@[simp] theorem modFab_ring (s : State) (f : Fabric → Fabric) (a : Nat) : (s.modFab f).ring a = s.ring a := rfl
@[simp] theorem modFab_site (s : State) (f : Fabric → Fabric) (a : Nat) : (s.modFab f).site a = s.site a := rfl
@[simp] theorem modFab_wear (s : State) (f : Fabric → Fabric) (a : Nat) : (s.modFab f).wear a = s.wear a := rfl
@[simp] theorem modFab_stream (s : State) (f : Fabric → Fabric) (a b : Nat) : (s.modFab f).stream a b = s.stream a b := rfl
@[simp] theorem modFab_node (s : State) (f : Fabric → Fabric) (a b : Nat) : (s.modFab f).node a b = s.node a b := rfl
@[simp] theorem modFab_epCtr (s : State) (f : Fabric → Fabric) (a b : Nat) : (s.modFab f).epCtr a b = s.epCtr a b := rfl
@[simp] theorem setLink_variant (s : State) (h : Nat) (l : Link) : (s.setLink h l).variant = s.variant := rfl
@[simp] theorem setLink_cores (s : State) (h : Nat) (l : Link) : (s.setLink h l).cores = s.cores := rfl
@[simp] theorem setLink_shelves (s : State) (h : Nat) (l : Link) : (s.setLink h l).shelves = s.shelves := rfl
@[simp] theorem setLink_mem (s : State) (h : Nat) (l : Link) : (s.setLink h l).mem = s.mem := rfl
@[simp] theorem setLink_ctxs (s : State) (h : Nat) (l : Link) : (s.setLink h l).ctxs = s.ctxs := rfl
@[simp] theorem setLink_media (s : State) (h : Nat) (l : Link) : (s.setLink h l).media = s.media := rfl
@[simp] theorem setLink_host (s : State) (h : Nat) (l : Link) : (s.setLink h l).host = s.host := rfl
@[simp] theorem setLink_sec (s : State) (h : Nat) (l : Link) : (s.setLink h l).sec = s.sec := rfl
@[simp] theorem setLink_ledger (s : State) (h : Nat) (l : Link) : (s.setLink h l).ledger = s.ledger := rfl
@[simp] theorem setLink_bring (s : State) (h : Nat) (l : Link) : (s.setLink h l).bring = s.bring := rfl
@[simp] theorem setLink_power (s : State) (h : Nat) (l : Link) : (s.setLink h l).power = s.power := rfl
@[simp] theorem setLink_mu (s : State) (h : Nat) (l : Link) : (s.setLink h l).mu = s.mu := rfl
@[simp] theorem setLink_imprint (s : State) (h : Nat) (l : Link) : (s.setLink h l).imprint = s.imprint := rfl
@[simp] theorem setLink_pins (s : State) (h : Nat) (l : Link) : (s.setLink h l).pins = s.pins := rfl
@[simp] theorem setLink_mgmt (s : State) (h : Nat) (l : Link) : (s.setLink h l).mgmt = s.mgmt := rfl
@[simp] theorem setLink_latches (s : State) (h : Nat) (l : Link) : (s.setLink h l).latches = s.latches := rfl
@[simp] theorem setLink_freeCtr (s : State) (h : Nat) (l : Link) : (s.setLink h l).freeCtr = s.freeCtr := rfl
@[simp] theorem setLink_pending (s : State) (h : Nat) (l : Link) : (s.setLink h l).pending = s.pending := rfl
@[simp] theorem setLink_core (s : State) (h : Nat) (l : Link) (a : Nat) : (s.setLink h l).core a = s.core a := rfl
@[simp] theorem setLink_shelf (s : State) (h : Nat) (l : Link) (a : Nat) : (s.setLink h l).shelf a = s.shelf a := rfl
@[simp] theorem setLink_ctx (s : State) (h : Nat) (l : Link) (a : Nat) : (s.setLink h l).ctx a = s.ctx a := rfl
@[simp] theorem setLink_hbm (s : State) (h : Nat) (l : Link) (a : Nat) : (s.setLink h l).hbm a = s.hbm a := rfl
@[simp] theorem setLink_cxl (s : State) (h : Nat) (l : Link) (a : Nat) : (s.setLink h l).cxl a = s.cxl a := rfl
@[simp] theorem setLink_granule (s : State) (h : Nat) (l : Link) (a : Nat) : (s.setLink h l).granule a = s.granule a := rfl
@[simp] theorem setLink_complex (s : State) (h : Nat) (l : Link) (a : Nat) : (s.setLink h l).complex a = s.complex a := rfl
@[simp] theorem setLink_queue (s : State) (h : Nat) (l : Link) (a b : Nat) : (s.setLink h l).queue a b = s.queue a b := rfl
@[simp] theorem setLink_ring (s : State) (h : Nat) (l : Link) (a : Nat) : (s.setLink h l).ring a = s.ring a := rfl
@[simp] theorem setLink_site (s : State) (h : Nat) (l : Link) (a : Nat) : (s.setLink h l).site a = s.site a := rfl
@[simp] theorem setLink_wear (s : State) (h : Nat) (l : Link) (a : Nat) : (s.setLink h l).wear a = s.wear a := rfl
@[simp] theorem setLink_stream (s : State) (h : Nat) (l : Link) (a b : Nat) : (s.setLink h l).stream a b = s.stream a b := rfl
@[simp] theorem setLink_node (s : State) (h : Nat) (l : Link) (a b : Nat) : (s.setLink h l).node a b = s.node a b := rfl
@[simp] theorem setLink_epCtr (s : State) (h : Nat) (l : Link) (a b : Nat) : (s.setLink h l).epCtr a b = s.epCtr a b := rfl
@[simp] theorem modLink_variant (s : State) (h : Nat) (f : Link → Link) : (s.modLink h f).variant = s.variant := rfl
@[simp] theorem modLink_cores (s : State) (h : Nat) (f : Link → Link) : (s.modLink h f).cores = s.cores := rfl
@[simp] theorem modLink_shelves (s : State) (h : Nat) (f : Link → Link) : (s.modLink h f).shelves = s.shelves := rfl
@[simp] theorem modLink_mem (s : State) (h : Nat) (f : Link → Link) : (s.modLink h f).mem = s.mem := rfl
@[simp] theorem modLink_ctxs (s : State) (h : Nat) (f : Link → Link) : (s.modLink h f).ctxs = s.ctxs := rfl
@[simp] theorem modLink_media (s : State) (h : Nat) (f : Link → Link) : (s.modLink h f).media = s.media := rfl
@[simp] theorem modLink_host (s : State) (h : Nat) (f : Link → Link) : (s.modLink h f).host = s.host := rfl
@[simp] theorem modLink_sec (s : State) (h : Nat) (f : Link → Link) : (s.modLink h f).sec = s.sec := rfl
@[simp] theorem modLink_ledger (s : State) (h : Nat) (f : Link → Link) : (s.modLink h f).ledger = s.ledger := rfl
@[simp] theorem modLink_bring (s : State) (h : Nat) (f : Link → Link) : (s.modLink h f).bring = s.bring := rfl
@[simp] theorem modLink_power (s : State) (h : Nat) (f : Link → Link) : (s.modLink h f).power = s.power := rfl
@[simp] theorem modLink_mu (s : State) (h : Nat) (f : Link → Link) : (s.modLink h f).mu = s.mu := rfl
@[simp] theorem modLink_imprint (s : State) (h : Nat) (f : Link → Link) : (s.modLink h f).imprint = s.imprint := rfl
@[simp] theorem modLink_pins (s : State) (h : Nat) (f : Link → Link) : (s.modLink h f).pins = s.pins := rfl
@[simp] theorem modLink_mgmt (s : State) (h : Nat) (f : Link → Link) : (s.modLink h f).mgmt = s.mgmt := rfl
@[simp] theorem modLink_latches (s : State) (h : Nat) (f : Link → Link) : (s.modLink h f).latches = s.latches := rfl
@[simp] theorem modLink_freeCtr (s : State) (h : Nat) (f : Link → Link) : (s.modLink h f).freeCtr = s.freeCtr := rfl
@[simp] theorem modLink_pending (s : State) (h : Nat) (f : Link → Link) : (s.modLink h f).pending = s.pending := rfl
@[simp] theorem modLink_core (s : State) (h : Nat) (f : Link → Link) (a : Nat) : (s.modLink h f).core a = s.core a := rfl
@[simp] theorem modLink_shelf (s : State) (h : Nat) (f : Link → Link) (a : Nat) : (s.modLink h f).shelf a = s.shelf a := rfl
@[simp] theorem modLink_ctx (s : State) (h : Nat) (f : Link → Link) (a : Nat) : (s.modLink h f).ctx a = s.ctx a := rfl
@[simp] theorem modLink_hbm (s : State) (h : Nat) (f : Link → Link) (a : Nat) : (s.modLink h f).hbm a = s.hbm a := rfl
@[simp] theorem modLink_cxl (s : State) (h : Nat) (f : Link → Link) (a : Nat) : (s.modLink h f).cxl a = s.cxl a := rfl
@[simp] theorem modLink_granule (s : State) (h : Nat) (f : Link → Link) (a : Nat) : (s.modLink h f).granule a = s.granule a := rfl
@[simp] theorem modLink_complex (s : State) (h : Nat) (f : Link → Link) (a : Nat) : (s.modLink h f).complex a = s.complex a := rfl
@[simp] theorem modLink_queue (s : State) (h : Nat) (f : Link → Link) (a b : Nat) : (s.modLink h f).queue a b = s.queue a b := rfl
@[simp] theorem modLink_ring (s : State) (h : Nat) (f : Link → Link) (a : Nat) : (s.modLink h f).ring a = s.ring a := rfl
@[simp] theorem modLink_site (s : State) (h : Nat) (f : Link → Link) (a : Nat) : (s.modLink h f).site a = s.site a := rfl
@[simp] theorem modLink_wear (s : State) (h : Nat) (f : Link → Link) (a : Nat) : (s.modLink h f).wear a = s.wear a := rfl
@[simp] theorem modLink_stream (s : State) (h : Nat) (f : Link → Link) (a b : Nat) : (s.modLink h f).stream a b = s.stream a b := rfl
@[simp] theorem modLink_node (s : State) (h : Nat) (f : Link → Link) (a b : Nat) : (s.modLink h f).node a b = s.node a b := rfl
@[simp] theorem modLink_epCtr (s : State) (h : Nat) (f : Link → Link) (a b : Nat) : (s.modLink h f).epCtr a b = s.epCtr a b := rfl
@[simp] theorem modLinkCtr_variant (s : State) (h : Nat) (f : LinkCtr → LinkCtr) : (s.modLinkCtr h f).variant = s.variant := rfl
@[simp] theorem modLinkCtr_cores (s : State) (h : Nat) (f : LinkCtr → LinkCtr) : (s.modLinkCtr h f).cores = s.cores := rfl
@[simp] theorem modLinkCtr_shelves (s : State) (h : Nat) (f : LinkCtr → LinkCtr) : (s.modLinkCtr h f).shelves = s.shelves := rfl
@[simp] theorem modLinkCtr_mem (s : State) (h : Nat) (f : LinkCtr → LinkCtr) : (s.modLinkCtr h f).mem = s.mem := rfl
@[simp] theorem modLinkCtr_ctxs (s : State) (h : Nat) (f : LinkCtr → LinkCtr) : (s.modLinkCtr h f).ctxs = s.ctxs := rfl
@[simp] theorem modLinkCtr_media (s : State) (h : Nat) (f : LinkCtr → LinkCtr) : (s.modLinkCtr h f).media = s.media := rfl
@[simp] theorem modLinkCtr_host (s : State) (h : Nat) (f : LinkCtr → LinkCtr) : (s.modLinkCtr h f).host = s.host := rfl
@[simp] theorem modLinkCtr_sec (s : State) (h : Nat) (f : LinkCtr → LinkCtr) : (s.modLinkCtr h f).sec = s.sec := rfl
@[simp] theorem modLinkCtr_ledger (s : State) (h : Nat) (f : LinkCtr → LinkCtr) : (s.modLinkCtr h f).ledger = s.ledger := rfl
@[simp] theorem modLinkCtr_bring (s : State) (h : Nat) (f : LinkCtr → LinkCtr) : (s.modLinkCtr h f).bring = s.bring := rfl
@[simp] theorem modLinkCtr_power (s : State) (h : Nat) (f : LinkCtr → LinkCtr) : (s.modLinkCtr h f).power = s.power := rfl
@[simp] theorem modLinkCtr_mu (s : State) (h : Nat) (f : LinkCtr → LinkCtr) : (s.modLinkCtr h f).mu = s.mu := rfl
@[simp] theorem modLinkCtr_imprint (s : State) (h : Nat) (f : LinkCtr → LinkCtr) : (s.modLinkCtr h f).imprint = s.imprint := rfl
@[simp] theorem modLinkCtr_pins (s : State) (h : Nat) (f : LinkCtr → LinkCtr) : (s.modLinkCtr h f).pins = s.pins := rfl
@[simp] theorem modLinkCtr_mgmt (s : State) (h : Nat) (f : LinkCtr → LinkCtr) : (s.modLinkCtr h f).mgmt = s.mgmt := rfl
@[simp] theorem modLinkCtr_latches (s : State) (h : Nat) (f : LinkCtr → LinkCtr) : (s.modLinkCtr h f).latches = s.latches := rfl
@[simp] theorem modLinkCtr_freeCtr (s : State) (h : Nat) (f : LinkCtr → LinkCtr) : (s.modLinkCtr h f).freeCtr = s.freeCtr := rfl
@[simp] theorem modLinkCtr_pending (s : State) (h : Nat) (f : LinkCtr → LinkCtr) : (s.modLinkCtr h f).pending = s.pending := rfl
@[simp] theorem modLinkCtr_core (s : State) (h : Nat) (f : LinkCtr → LinkCtr) (a : Nat) : (s.modLinkCtr h f).core a = s.core a := rfl
@[simp] theorem modLinkCtr_shelf (s : State) (h : Nat) (f : LinkCtr → LinkCtr) (a : Nat) : (s.modLinkCtr h f).shelf a = s.shelf a := rfl
@[simp] theorem modLinkCtr_ctx (s : State) (h : Nat) (f : LinkCtr → LinkCtr) (a : Nat) : (s.modLinkCtr h f).ctx a = s.ctx a := rfl
@[simp] theorem modLinkCtr_hbm (s : State) (h : Nat) (f : LinkCtr → LinkCtr) (a : Nat) : (s.modLinkCtr h f).hbm a = s.hbm a := rfl
@[simp] theorem modLinkCtr_cxl (s : State) (h : Nat) (f : LinkCtr → LinkCtr) (a : Nat) : (s.modLinkCtr h f).cxl a = s.cxl a := rfl
@[simp] theorem modLinkCtr_granule (s : State) (h : Nat) (f : LinkCtr → LinkCtr) (a : Nat) : (s.modLinkCtr h f).granule a = s.granule a := rfl
@[simp] theorem modLinkCtr_complex (s : State) (h : Nat) (f : LinkCtr → LinkCtr) (a : Nat) : (s.modLinkCtr h f).complex a = s.complex a := rfl
@[simp] theorem modLinkCtr_queue (s : State) (h : Nat) (f : LinkCtr → LinkCtr) (a b : Nat) : (s.modLinkCtr h f).queue a b = s.queue a b := rfl
@[simp] theorem modLinkCtr_ring (s : State) (h : Nat) (f : LinkCtr → LinkCtr) (a : Nat) : (s.modLinkCtr h f).ring a = s.ring a := rfl
@[simp] theorem modLinkCtr_site (s : State) (h : Nat) (f : LinkCtr → LinkCtr) (a : Nat) : (s.modLinkCtr h f).site a = s.site a := rfl
@[simp] theorem modLinkCtr_wear (s : State) (h : Nat) (f : LinkCtr → LinkCtr) (a : Nat) : (s.modLinkCtr h f).wear a = s.wear a := rfl
@[simp] theorem modLinkCtr_stream (s : State) (h : Nat) (f : LinkCtr → LinkCtr) (a b : Nat) : (s.modLinkCtr h f).stream a b = s.stream a b := rfl
@[simp] theorem modLinkCtr_node (s : State) (h : Nat) (f : LinkCtr → LinkCtr) (a b : Nat) : (s.modLinkCtr h f).node a b = s.node a b := rfl
@[simp] theorem modLinkCtr_epCtr (s : State) (h : Nat) (f : LinkCtr → LinkCtr) (a b : Nat) : (s.modLinkCtr h f).epCtr a b = s.epCtr a b := rfl
@[simp] theorem modSec_variant (s : State) (f : Sec → Sec) : (s.modSec f).variant = s.variant := rfl
@[simp] theorem modSec_cores (s : State) (f : Sec → Sec) : (s.modSec f).cores = s.cores := rfl
@[simp] theorem modSec_shelves (s : State) (f : Sec → Sec) : (s.modSec f).shelves = s.shelves := rfl
@[simp] theorem modSec_mem (s : State) (f : Sec → Sec) : (s.modSec f).mem = s.mem := rfl
@[simp] theorem modSec_ctxs (s : State) (f : Sec → Sec) : (s.modSec f).ctxs = s.ctxs := rfl
@[simp] theorem modSec_media (s : State) (f : Sec → Sec) : (s.modSec f).media = s.media := rfl
@[simp] theorem modSec_host (s : State) (f : Sec → Sec) : (s.modSec f).host = s.host := rfl
@[simp] theorem modSec_fab (s : State) (f : Sec → Sec) : (s.modSec f).fab = s.fab := rfl
@[simp] theorem modSec_ledger (s : State) (f : Sec → Sec) : (s.modSec f).ledger = s.ledger := rfl
@[simp] theorem modSec_bring (s : State) (f : Sec → Sec) : (s.modSec f).bring = s.bring := rfl
@[simp] theorem modSec_power (s : State) (f : Sec → Sec) : (s.modSec f).power = s.power := rfl
@[simp] theorem modSec_mu (s : State) (f : Sec → Sec) : (s.modSec f).mu = s.mu := rfl
@[simp] theorem modSec_imprint (s : State) (f : Sec → Sec) : (s.modSec f).imprint = s.imprint := rfl
@[simp] theorem modSec_pins (s : State) (f : Sec → Sec) : (s.modSec f).pins = s.pins := rfl
@[simp] theorem modSec_mgmt (s : State) (f : Sec → Sec) : (s.modSec f).mgmt = s.mgmt := rfl
@[simp] theorem modSec_latches (s : State) (f : Sec → Sec) : (s.modSec f).latches = s.latches := rfl
@[simp] theorem modSec_freeCtr (s : State) (f : Sec → Sec) : (s.modSec f).freeCtr = s.freeCtr := rfl
@[simp] theorem modSec_pending (s : State) (f : Sec → Sec) : (s.modSec f).pending = s.pending := rfl
@[simp] theorem modSec_core (s : State) (f : Sec → Sec) (a : Nat) : (s.modSec f).core a = s.core a := rfl
@[simp] theorem modSec_shelf (s : State) (f : Sec → Sec) (a : Nat) : (s.modSec f).shelf a = s.shelf a := rfl
@[simp] theorem modSec_ctx (s : State) (f : Sec → Sec) (a : Nat) : (s.modSec f).ctx a = s.ctx a := rfl
@[simp] theorem modSec_hbm (s : State) (f : Sec → Sec) (a : Nat) : (s.modSec f).hbm a = s.hbm a := rfl
@[simp] theorem modSec_cxl (s : State) (f : Sec → Sec) (a : Nat) : (s.modSec f).cxl a = s.cxl a := rfl
@[simp] theorem modSec_granule (s : State) (f : Sec → Sec) (a : Nat) : (s.modSec f).granule a = s.granule a := rfl
@[simp] theorem modSec_complex (s : State) (f : Sec → Sec) (a : Nat) : (s.modSec f).complex a = s.complex a := rfl
@[simp] theorem modSec_queue (s : State) (f : Sec → Sec) (a b : Nat) : (s.modSec f).queue a b = s.queue a b := rfl
@[simp] theorem modSec_ring (s : State) (f : Sec → Sec) (a : Nat) : (s.modSec f).ring a = s.ring a := rfl
@[simp] theorem modSec_link (s : State) (f : Sec → Sec) (a : Nat) : (s.modSec f).link a = s.link a := rfl
@[simp] theorem modSec_site (s : State) (f : Sec → Sec) (a : Nat) : (s.modSec f).site a = s.site a := rfl
@[simp] theorem modSec_wear (s : State) (f : Sec → Sec) (a : Nat) : (s.modSec f).wear a = s.wear a := rfl
@[simp] theorem modSec_stream (s : State) (f : Sec → Sec) (a b : Nat) : (s.modSec f).stream a b = s.stream a b := rfl
@[simp] theorem modSec_node (s : State) (f : Sec → Sec) (a b : Nat) : (s.modSec f).node a b = s.node a b := rfl
@[simp] theorem modSec_epCtr (s : State) (f : Sec → Sec) (a b : Nat) : (s.modSec f).epCtr a b = s.epCtr a b := rfl
@[simp] theorem modBring_variant (s : State) (f : Bringup → Bringup) : (s.modBring f).variant = s.variant := rfl
@[simp] theorem modBring_cores (s : State) (f : Bringup → Bringup) : (s.modBring f).cores = s.cores := rfl
@[simp] theorem modBring_shelves (s : State) (f : Bringup → Bringup) : (s.modBring f).shelves = s.shelves := rfl
@[simp] theorem modBring_mem (s : State) (f : Bringup → Bringup) : (s.modBring f).mem = s.mem := rfl
@[simp] theorem modBring_ctxs (s : State) (f : Bringup → Bringup) : (s.modBring f).ctxs = s.ctxs := rfl
@[simp] theorem modBring_media (s : State) (f : Bringup → Bringup) : (s.modBring f).media = s.media := rfl
@[simp] theorem modBring_host (s : State) (f : Bringup → Bringup) : (s.modBring f).host = s.host := rfl
@[simp] theorem modBring_fab (s : State) (f : Bringup → Bringup) : (s.modBring f).fab = s.fab := rfl
@[simp] theorem modBring_sec (s : State) (f : Bringup → Bringup) : (s.modBring f).sec = s.sec := rfl
@[simp] theorem modBring_ledger (s : State) (f : Bringup → Bringup) : (s.modBring f).ledger = s.ledger := rfl
@[simp] theorem modBring_power (s : State) (f : Bringup → Bringup) : (s.modBring f).power = s.power := rfl
@[simp] theorem modBring_mu (s : State) (f : Bringup → Bringup) : (s.modBring f).mu = s.mu := rfl
@[simp] theorem modBring_imprint (s : State) (f : Bringup → Bringup) : (s.modBring f).imprint = s.imprint := rfl
@[simp] theorem modBring_pins (s : State) (f : Bringup → Bringup) : (s.modBring f).pins = s.pins := rfl
@[simp] theorem modBring_mgmt (s : State) (f : Bringup → Bringup) : (s.modBring f).mgmt = s.mgmt := rfl
@[simp] theorem modBring_latches (s : State) (f : Bringup → Bringup) : (s.modBring f).latches = s.latches := rfl
@[simp] theorem modBring_freeCtr (s : State) (f : Bringup → Bringup) : (s.modBring f).freeCtr = s.freeCtr := rfl
@[simp] theorem modBring_pending (s : State) (f : Bringup → Bringup) : (s.modBring f).pending = s.pending := rfl
@[simp] theorem modBring_core (s : State) (f : Bringup → Bringup) (a : Nat) : (s.modBring f).core a = s.core a := rfl
@[simp] theorem modBring_shelf (s : State) (f : Bringup → Bringup) (a : Nat) : (s.modBring f).shelf a = s.shelf a := rfl
@[simp] theorem modBring_ctx (s : State) (f : Bringup → Bringup) (a : Nat) : (s.modBring f).ctx a = s.ctx a := rfl
@[simp] theorem modBring_hbm (s : State) (f : Bringup → Bringup) (a : Nat) : (s.modBring f).hbm a = s.hbm a := rfl
@[simp] theorem modBring_cxl (s : State) (f : Bringup → Bringup) (a : Nat) : (s.modBring f).cxl a = s.cxl a := rfl
@[simp] theorem modBring_granule (s : State) (f : Bringup → Bringup) (a : Nat) : (s.modBring f).granule a = s.granule a := rfl
@[simp] theorem modBring_complex (s : State) (f : Bringup → Bringup) (a : Nat) : (s.modBring f).complex a = s.complex a := rfl
@[simp] theorem modBring_queue (s : State) (f : Bringup → Bringup) (a b : Nat) : (s.modBring f).queue a b = s.queue a b := rfl
@[simp] theorem modBring_ring (s : State) (f : Bringup → Bringup) (a : Nat) : (s.modBring f).ring a = s.ring a := rfl
@[simp] theorem modBring_link (s : State) (f : Bringup → Bringup) (a : Nat) : (s.modBring f).link a = s.link a := rfl
@[simp] theorem modBring_wear (s : State) (f : Bringup → Bringup) (a : Nat) : (s.modBring f).wear a = s.wear a := rfl
@[simp] theorem modBring_stream (s : State) (f : Bringup → Bringup) (a b : Nat) : (s.modBring f).stream a b = s.stream a b := rfl
@[simp] theorem modBring_node (s : State) (f : Bringup → Bringup) (a b : Nat) : (s.modBring f).node a b = s.node a b := rfl
@[simp] theorem modBring_epCtr (s : State) (f : Bringup → Bringup) (a b : Nat) : (s.modBring f).epCtr a b = s.epCtr a b := rfl
@[simp] theorem modSite_variant (s : State) (i : Nat) (f : Site → Site) : (s.modSite i f).variant = s.variant := rfl
@[simp] theorem modSite_cores (s : State) (i : Nat) (f : Site → Site) : (s.modSite i f).cores = s.cores := rfl
@[simp] theorem modSite_shelves (s : State) (i : Nat) (f : Site → Site) : (s.modSite i f).shelves = s.shelves := rfl
@[simp] theorem modSite_mem (s : State) (i : Nat) (f : Site → Site) : (s.modSite i f).mem = s.mem := rfl
@[simp] theorem modSite_ctxs (s : State) (i : Nat) (f : Site → Site) : (s.modSite i f).ctxs = s.ctxs := rfl
@[simp] theorem modSite_media (s : State) (i : Nat) (f : Site → Site) : (s.modSite i f).media = s.media := rfl
@[simp] theorem modSite_host (s : State) (i : Nat) (f : Site → Site) : (s.modSite i f).host = s.host := rfl
@[simp] theorem modSite_fab (s : State) (i : Nat) (f : Site → Site) : (s.modSite i f).fab = s.fab := rfl
@[simp] theorem modSite_sec (s : State) (i : Nat) (f : Site → Site) : (s.modSite i f).sec = s.sec := rfl
@[simp] theorem modSite_ledger (s : State) (i : Nat) (f : Site → Site) : (s.modSite i f).ledger = s.ledger := rfl
@[simp] theorem modSite_power (s : State) (i : Nat) (f : Site → Site) : (s.modSite i f).power = s.power := rfl
@[simp] theorem modSite_mu (s : State) (i : Nat) (f : Site → Site) : (s.modSite i f).mu = s.mu := rfl
@[simp] theorem modSite_imprint (s : State) (i : Nat) (f : Site → Site) : (s.modSite i f).imprint = s.imprint := rfl
@[simp] theorem modSite_pins (s : State) (i : Nat) (f : Site → Site) : (s.modSite i f).pins = s.pins := rfl
@[simp] theorem modSite_mgmt (s : State) (i : Nat) (f : Site → Site) : (s.modSite i f).mgmt = s.mgmt := rfl
@[simp] theorem modSite_latches (s : State) (i : Nat) (f : Site → Site) : (s.modSite i f).latches = s.latches := rfl
@[simp] theorem modSite_freeCtr (s : State) (i : Nat) (f : Site → Site) : (s.modSite i f).freeCtr = s.freeCtr := rfl
@[simp] theorem modSite_pending (s : State) (i : Nat) (f : Site → Site) : (s.modSite i f).pending = s.pending := rfl
@[simp] theorem modSite_core (s : State) (i : Nat) (f : Site → Site) (a : Nat) : (s.modSite i f).core a = s.core a := rfl
@[simp] theorem modSite_shelf (s : State) (i : Nat) (f : Site → Site) (a : Nat) : (s.modSite i f).shelf a = s.shelf a := rfl
@[simp] theorem modSite_ctx (s : State) (i : Nat) (f : Site → Site) (a : Nat) : (s.modSite i f).ctx a = s.ctx a := rfl
@[simp] theorem modSite_hbm (s : State) (i : Nat) (f : Site → Site) (a : Nat) : (s.modSite i f).hbm a = s.hbm a := rfl
@[simp] theorem modSite_cxl (s : State) (i : Nat) (f : Site → Site) (a : Nat) : (s.modSite i f).cxl a = s.cxl a := rfl
@[simp] theorem modSite_granule (s : State) (i : Nat) (f : Site → Site) (a : Nat) : (s.modSite i f).granule a = s.granule a := rfl
@[simp] theorem modSite_complex (s : State) (i : Nat) (f : Site → Site) (a : Nat) : (s.modSite i f).complex a = s.complex a := rfl
@[simp] theorem modSite_queue (s : State) (i : Nat) (f : Site → Site) (a b : Nat) : (s.modSite i f).queue a b = s.queue a b := rfl
@[simp] theorem modSite_ring (s : State) (i : Nat) (f : Site → Site) (a : Nat) : (s.modSite i f).ring a = s.ring a := rfl
@[simp] theorem modSite_link (s : State) (i : Nat) (f : Site → Site) (a : Nat) : (s.modSite i f).link a = s.link a := rfl
@[simp] theorem modSite_wear (s : State) (i : Nat) (f : Site → Site) (a : Nat) : (s.modSite i f).wear a = s.wear a := rfl
@[simp] theorem modSite_stream (s : State) (i : Nat) (f : Site → Site) (a b : Nat) : (s.modSite i f).stream a b = s.stream a b := rfl
@[simp] theorem modSite_node (s : State) (i : Nat) (f : Site → Site) (a b : Nat) : (s.modSite i f).node a b = s.node a b := rfl
@[simp] theorem modSite_epCtr (s : State) (i : Nat) (f : Site → Site) (a b : Nat) : (s.modSite i f).epCtr a b = s.epCtr a b := rfl
@[simp] theorem modWear_variant (s : State) (i : Nat) (f : Wear → Wear) : (s.modWear i f).variant = s.variant := rfl
@[simp] theorem modWear_cores (s : State) (i : Nat) (f : Wear → Wear) : (s.modWear i f).cores = s.cores := rfl
@[simp] theorem modWear_shelves (s : State) (i : Nat) (f : Wear → Wear) : (s.modWear i f).shelves = s.shelves := rfl
@[simp] theorem modWear_mem (s : State) (i : Nat) (f : Wear → Wear) : (s.modWear i f).mem = s.mem := rfl
@[simp] theorem modWear_ctxs (s : State) (i : Nat) (f : Wear → Wear) : (s.modWear i f).ctxs = s.ctxs := rfl
@[simp] theorem modWear_media (s : State) (i : Nat) (f : Wear → Wear) : (s.modWear i f).media = s.media := rfl
@[simp] theorem modWear_host (s : State) (i : Nat) (f : Wear → Wear) : (s.modWear i f).host = s.host := rfl
@[simp] theorem modWear_fab (s : State) (i : Nat) (f : Wear → Wear) : (s.modWear i f).fab = s.fab := rfl
@[simp] theorem modWear_sec (s : State) (i : Nat) (f : Wear → Wear) : (s.modWear i f).sec = s.sec := rfl
@[simp] theorem modWear_ledger (s : State) (i : Nat) (f : Wear → Wear) : (s.modWear i f).ledger = s.ledger := rfl
@[simp] theorem modWear_bring (s : State) (i : Nat) (f : Wear → Wear) : (s.modWear i f).bring = s.bring := rfl
@[simp] theorem modWear_mu (s : State) (i : Nat) (f : Wear → Wear) : (s.modWear i f).mu = s.mu := rfl
@[simp] theorem modWear_imprint (s : State) (i : Nat) (f : Wear → Wear) : (s.modWear i f).imprint = s.imprint := rfl
@[simp] theorem modWear_pins (s : State) (i : Nat) (f : Wear → Wear) : (s.modWear i f).pins = s.pins := rfl
@[simp] theorem modWear_mgmt (s : State) (i : Nat) (f : Wear → Wear) : (s.modWear i f).mgmt = s.mgmt := rfl
@[simp] theorem modWear_latches (s : State) (i : Nat) (f : Wear → Wear) : (s.modWear i f).latches = s.latches := rfl
@[simp] theorem modWear_freeCtr (s : State) (i : Nat) (f : Wear → Wear) : (s.modWear i f).freeCtr = s.freeCtr := rfl
@[simp] theorem modWear_pending (s : State) (i : Nat) (f : Wear → Wear) : (s.modWear i f).pending = s.pending := rfl
@[simp] theorem modWear_core (s : State) (i : Nat) (f : Wear → Wear) (a : Nat) : (s.modWear i f).core a = s.core a := rfl
@[simp] theorem modWear_shelf (s : State) (i : Nat) (f : Wear → Wear) (a : Nat) : (s.modWear i f).shelf a = s.shelf a := rfl
@[simp] theorem modWear_ctx (s : State) (i : Nat) (f : Wear → Wear) (a : Nat) : (s.modWear i f).ctx a = s.ctx a := rfl
@[simp] theorem modWear_hbm (s : State) (i : Nat) (f : Wear → Wear) (a : Nat) : (s.modWear i f).hbm a = s.hbm a := rfl
@[simp] theorem modWear_cxl (s : State) (i : Nat) (f : Wear → Wear) (a : Nat) : (s.modWear i f).cxl a = s.cxl a := rfl
@[simp] theorem modWear_granule (s : State) (i : Nat) (f : Wear → Wear) (a : Nat) : (s.modWear i f).granule a = s.granule a := rfl
@[simp] theorem modWear_complex (s : State) (i : Nat) (f : Wear → Wear) (a : Nat) : (s.modWear i f).complex a = s.complex a := rfl
@[simp] theorem modWear_queue (s : State) (i : Nat) (f : Wear → Wear) (a b : Nat) : (s.modWear i f).queue a b = s.queue a b := rfl
@[simp] theorem modWear_ring (s : State) (i : Nat) (f : Wear → Wear) (a : Nat) : (s.modWear i f).ring a = s.ring a := rfl
@[simp] theorem modWear_link (s : State) (i : Nat) (f : Wear → Wear) (a : Nat) : (s.modWear i f).link a = s.link a := rfl
@[simp] theorem modWear_site (s : State) (i : Nat) (f : Wear → Wear) (a : Nat) : (s.modWear i f).site a = s.site a := rfl
@[simp] theorem modWear_stream (s : State) (i : Nat) (f : Wear → Wear) (a b : Nat) : (s.modWear i f).stream a b = s.stream a b := rfl
@[simp] theorem modWear_node (s : State) (i : Nat) (f : Wear → Wear) (a b : Nat) : (s.modWear i f).node a b = s.node a b := rfl
@[simp] theorem modWear_epCtr (s : State) (i : Nat) (f : Wear → Wear) (a b : Nat) : (s.modWear i f).epCtr a b = s.epCtr a b := rfl
@[simp] theorem modMgmt_variant (s : State) (f : Mgmt → Mgmt) : (s.modMgmt f).variant = s.variant := rfl
@[simp] theorem modMgmt_cores (s : State) (f : Mgmt → Mgmt) : (s.modMgmt f).cores = s.cores := rfl
@[simp] theorem modMgmt_shelves (s : State) (f : Mgmt → Mgmt) : (s.modMgmt f).shelves = s.shelves := rfl
@[simp] theorem modMgmt_mem (s : State) (f : Mgmt → Mgmt) : (s.modMgmt f).mem = s.mem := rfl
@[simp] theorem modMgmt_ctxs (s : State) (f : Mgmt → Mgmt) : (s.modMgmt f).ctxs = s.ctxs := rfl
@[simp] theorem modMgmt_media (s : State) (f : Mgmt → Mgmt) : (s.modMgmt f).media = s.media := rfl
@[simp] theorem modMgmt_host (s : State) (f : Mgmt → Mgmt) : (s.modMgmt f).host = s.host := rfl
@[simp] theorem modMgmt_fab (s : State) (f : Mgmt → Mgmt) : (s.modMgmt f).fab = s.fab := rfl
@[simp] theorem modMgmt_sec (s : State) (f : Mgmt → Mgmt) : (s.modMgmt f).sec = s.sec := rfl
@[simp] theorem modMgmt_ledger (s : State) (f : Mgmt → Mgmt) : (s.modMgmt f).ledger = s.ledger := rfl
@[simp] theorem modMgmt_bring (s : State) (f : Mgmt → Mgmt) : (s.modMgmt f).bring = s.bring := rfl
@[simp] theorem modMgmt_power (s : State) (f : Mgmt → Mgmt) : (s.modMgmt f).power = s.power := rfl
@[simp] theorem modMgmt_mu (s : State) (f : Mgmt → Mgmt) : (s.modMgmt f).mu = s.mu := rfl
@[simp] theorem modMgmt_imprint (s : State) (f : Mgmt → Mgmt) : (s.modMgmt f).imprint = s.imprint := rfl
@[simp] theorem modMgmt_pins (s : State) (f : Mgmt → Mgmt) : (s.modMgmt f).pins = s.pins := rfl
@[simp] theorem modMgmt_latches (s : State) (f : Mgmt → Mgmt) : (s.modMgmt f).latches = s.latches := rfl
@[simp] theorem modMgmt_freeCtr (s : State) (f : Mgmt → Mgmt) : (s.modMgmt f).freeCtr = s.freeCtr := rfl
@[simp] theorem modMgmt_pending (s : State) (f : Mgmt → Mgmt) : (s.modMgmt f).pending = s.pending := rfl
@[simp] theorem modMgmt_core (s : State) (f : Mgmt → Mgmt) (a : Nat) : (s.modMgmt f).core a = s.core a := rfl
@[simp] theorem modMgmt_shelf (s : State) (f : Mgmt → Mgmt) (a : Nat) : (s.modMgmt f).shelf a = s.shelf a := rfl
@[simp] theorem modMgmt_ctx (s : State) (f : Mgmt → Mgmt) (a : Nat) : (s.modMgmt f).ctx a = s.ctx a := rfl
@[simp] theorem modMgmt_hbm (s : State) (f : Mgmt → Mgmt) (a : Nat) : (s.modMgmt f).hbm a = s.hbm a := rfl
@[simp] theorem modMgmt_cxl (s : State) (f : Mgmt → Mgmt) (a : Nat) : (s.modMgmt f).cxl a = s.cxl a := rfl
@[simp] theorem modMgmt_granule (s : State) (f : Mgmt → Mgmt) (a : Nat) : (s.modMgmt f).granule a = s.granule a := rfl
@[simp] theorem modMgmt_complex (s : State) (f : Mgmt → Mgmt) (a : Nat) : (s.modMgmt f).complex a = s.complex a := rfl
@[simp] theorem modMgmt_queue (s : State) (f : Mgmt → Mgmt) (a b : Nat) : (s.modMgmt f).queue a b = s.queue a b := rfl
@[simp] theorem modMgmt_ring (s : State) (f : Mgmt → Mgmt) (a : Nat) : (s.modMgmt f).ring a = s.ring a := rfl
@[simp] theorem modMgmt_link (s : State) (f : Mgmt → Mgmt) (a : Nat) : (s.modMgmt f).link a = s.link a := rfl
@[simp] theorem modMgmt_site (s : State) (f : Mgmt → Mgmt) (a : Nat) : (s.modMgmt f).site a = s.site a := rfl
@[simp] theorem modMgmt_wear (s : State) (f : Mgmt → Mgmt) (a : Nat) : (s.modMgmt f).wear a = s.wear a := rfl
@[simp] theorem modMgmt_stream (s : State) (f : Mgmt → Mgmt) (a b : Nat) : (s.modMgmt f).stream a b = s.stream a b := rfl
@[simp] theorem modMgmt_node (s : State) (f : Mgmt → Mgmt) (a b : Nat) : (s.modMgmt f).node a b = s.node a b := rfl
@[simp] theorem modMgmt_epCtr (s : State) (f : Mgmt → Mgmt) (a b : Nat) : (s.modMgmt f).epCtr a b = s.epCtr a b := rfl

/-! ### What is written reads back, and its neighbours stay -/

@[simp] theorem core_setCore_self (s : State) (n : Nat) (c : Core) : (s.setCore n c).core n = c := by
  simp [State.core, State.setCore]
@[simp] theorem core_setCore_other (s : State) (n k : Nat) (c : Core) (h : k ≠ n) : (s.setCore n c).core k = s.core k := by
  simp [State.core, State.setCore, h]
@[simp] theorem core_modCore_self (s : State) (n : Nat) (f : Core → Core) : (s.modCore n f).core n = f (s.core n) := by
  simp [State.modCore]
@[simp] theorem core_modCore_other (s : State) (n k : Nat) (f : Core → Core) (h : k ≠ n) :
    (s.modCore n f).core k = s.core k := by simp [State.modCore, h]
@[simp] theorem shelf_setShelf_self (s : State) (n : Nat) (x : Shelf) : (s.setShelf n x).shelf n = x := by
  simp [State.shelf, State.setShelf]
@[simp] theorem shelf_setShelf_other (s : State) (n k : Nat) (x : Shelf) (h : k ≠ n) :
    (s.setShelf n x).shelf k = s.shelf k := by simp [State.shelf, State.setShelf, h]
@[simp] theorem shelf_modShelf_self (s : State) (n : Nat) (f : Shelf → Shelf) :
    (s.modShelf n f).shelf n = f (s.shelf n) := by simp [State.modShelf]
@[simp] theorem shelf_modShelf_other (s : State) (n k : Nat) (f : Shelf → Shelf) (h : k ≠ n) :
    (s.modShelf n f).shelf k = s.shelf k := by simp [State.modShelf, h]
@[simp] theorem ctx_setCtx_self (s : State) (n : Nat) (x : Ctx) : (s.setCtx n x).ctx n = x := by
  simp [State.ctx, State.setCtx]
@[simp] theorem ctx_setCtx_other (s : State) (n k : Nat) (x : Ctx) (h : k ≠ n) : (s.setCtx n x).ctx k = s.ctx k := by
  simp [State.ctx, State.setCtx, h]
@[simp] theorem ctx_modCtx_self (s : State) (n : Nat) (f : Ctx → Ctx) : (s.modCtx n f).ctx n = f (s.ctx n) := by
  simp [State.modCtx]
@[simp] theorem ctx_modCtx_other (s : State) (n k : Nat) (f : Ctx → Ctx) (h : k ≠ n) :
    (s.modCtx n f).ctx k = s.ctx k := by simp [State.modCtx, h]
@[simp] theorem ctx_modLed_self (s : State) (n : Nat) (f : Ledger → Ledger) :
    (s.modLed n f).ctx n = { s.ctx n with led := f (s.ctx n).led } := by simp [State.modLed]
@[simp] theorem ctx_modLed_other (s : State) (n k : Nat) (f : Ledger → Ledger) (h : k ≠ n) :
    (s.modLed n f).ctx k = s.ctx k := by simp [State.modLed, h]
@[simp] theorem hbm_modHbm_self (s : State) (n : Nat) (f : Hbm → Hbm) : (s.modHbm n f).hbm n = f (s.hbm n) := by
  simp [State.hbm, State.modHbm]
@[simp] theorem hbm_modHbm_other (s : State) (n k : Nat) (f : Hbm → Hbm) (h : k ≠ n) :
    (s.modHbm n f).hbm k = s.hbm k := by simp [State.hbm, State.modHbm, h]
@[simp] theorem cxl_modCxl_self (s : State) (n : Nat) (f : Cxl → Cxl) : (s.modCxl n f).cxl n = f (s.cxl n) := by
  simp [State.cxl, State.modCxl]
@[simp] theorem cxl_modCxl_other (s : State) (n k : Nat) (f : Cxl → Cxl) (h : k ≠ n) :
    (s.modCxl n f).cxl k = s.cxl k := by simp [State.cxl, State.modCxl, h]
@[simp] theorem granule_modGranule_self (s : State) (n : Nat) (f : Granule → Granule) :
    (s.modGranule n f).granule n = f (s.granule n) := by simp [State.granule, State.modGranule]
@[simp] theorem granule_modGranule_other (s : State) (n k : Nat) (f : Granule → Granule) (h : k ≠ n) :
    (s.modGranule n f).granule k = s.granule k := by simp [State.granule, State.modGranule, h]
@[simp] theorem mem_setMem (s : State) (m : Mem) : (s.setMem m).mem.mem = m := rfl
@[simp] theorem complex_modComplex_self (s : State) (n : Nat) (f : Complex → Complex) :
    (s.modComplex n f).complex n = f (s.complex n) := by simp [State.complex, State.modComplex]
@[simp] theorem queue_modQueue_self (s : State) (n q : Nat) (f : Queue → Queue) :
    (s.modQueue n q f).queue n q = f (s.queue n q) := by simp [State.queue, State.modQueue]
@[simp] theorem queue_modQueue_other (s : State) (n q k : Nat) (f : Queue → Queue) (h : k ≠ q) :
    (s.modQueue n q f).queue n k = s.queue n k := by simp [State.queue, State.modQueue, h]
@[simp] theorem host_modHost (s : State) (f : HostLink → HostLink) : (s.modHost f).host = f s.host := rfl
@[simp] theorem ring_modRing_self (s : State) (q : Nat) (f : Ring → Ring) : (s.modRing q f).ring q = f (s.ring q) := by
  simp [State.ring, State.modRing]
@[simp] theorem ring_modRing_other (s : State) (q k : Nat) (f : Ring → Ring) (h : k ≠ q) :
    (s.modRing q f).ring k = s.ring k := by simp [State.ring, State.modRing, h]
@[simp] theorem fab_modFab (s : State) (f : Fabric → Fabric) : (s.modFab f).fab = f s.fab := rfl
@[simp] theorem link_modLink_self (s : State) (h : Nat) (f : Link → Link) : (s.modLink h f).link h = f (s.link h) := by
  simp [State.link, State.modLink, State.setLink]
@[simp] theorem link_modLink_other (s : State) (h k : Nat) (f : Link → Link) (e : k ≠ h) :
    (s.modLink h f).link k = s.link k := by simp [State.link, State.modLink, State.setLink, e]
@[simp] theorem sec_modSec (s : State) (f : Sec → Sec) : (s.modSec f).sec = f s.sec := rfl
@[simp] theorem bring_modBring (s : State) (f : Bringup → Bringup) : (s.modBring f).bring = f s.bring := rfl
@[simp] theorem site_modSite_self (s : State) (i : Nat) (f : Site → Site) : (s.modSite i f).site i = f (s.site i) := by
  simp [State.site, State.modSite]
@[simp] theorem site_modSite_other (s : State) (i k : Nat) (f : Site → Site) (h : k ≠ i) :
    (s.modSite i f).site k = s.site k := by simp [State.site, State.modSite, h]
@[simp] theorem mgmt_modMgmt (s : State) (f : Mgmt → Mgmt) : (s.modMgmt f).mgmt = f s.mgmt := rfl
@[simp] theorem stream_modStream_self (s : State) (c i : Nat) (f : Stream → Stream) :
    (s.modStream c i f).stream c i = f (s.stream c i) := by simp [State.stream, State.modStream]
@[simp] theorem node_modNode_self (s : State) (c i : Nat) (f : TreeNode → TreeNode) :
    (s.modNode c i f).node c i = f (s.node c i) := by simp [State.node, State.modNode]
@[simp] theorem epCtr_modEp_self (s : State) (n q : Nat) (f : EpCtr → EpCtr) :
    (s.modEp n q f).epCtr n q = f (s.epCtr n q) := by simp [State.epCtr, State.modEp]

end Sys2Proof.Machine
end

