-- ==== Sys2Proof/Laws/Touch.lean ====
section
/-!
SUPPORT. How `Touches` composes, and what the named operations of the machine touch.
-/

namespace Sys2Proof.Machine

theorem Part.same_refl (p : Part) (s : State) : p.same s s := by
  cases p <;> simp [Part.same]

theorem Part.same_trans (p : Part) {s t u : State} (h : p.same s t) (k : p.same t u) : p.same s u := by
  cases p <;> simp_all [Part.same]

theorem Keeps.refl (s : State) : Keeps s s := ⟨rfl, rfl, rfl, rfl, rfl, rfl, le_refl _, rfl, id⟩

theorem Keeps.trans {s t u : State} (h : Keeps s t) (k : Keeps t u) : Keeps s u :=
  ⟨k.1.trans h.1, k.2.trans h.2, k.3.trans h.3, k.4.trans h.4, k.5.trans h.5, k.6.trans h.6, h.7.trans k.7,
    k.8.trans h.8, fun w => k.9 (h.9 w)⟩

theorem Touches.refl (ps : List Part) (s : State) : Touches ps s s := ⟨Keeps.refl s, fun p _ => p.same_refl s⟩

theorem Touches.mono {ps qs : List Part} {s t : State} (h : Touches qs s t) (hq : ∀ p ∈ qs, p ∈ ps) :
    Touches ps s t := ⟨h.1, fun p hp => h.2 p fun hc => hp (hq p hc)⟩

theorem Touches.trans {ps : List Part} {s t u : State} (h : Touches ps s t) (k : Touches ps t u) : Touches ps s u :=
  ⟨h.1.trans k.1, fun p hp => p.same_trans (h.2 p hp) (k.2 p hp)⟩

/-- One more operation after the state `t`. -/
theorem Touches.andThen {ps qs : List Part} {s t u : State} (k : Touches qs t u) (hq : ∀ p ∈ qs, p ∈ ps)
    (h : Touches ps s t) : Touches ps s u := h.trans (k.mono hq)

/-- A fold touches what each of its turns touches. -/
theorem Touches.foldl {α : Type} {ps : List Part} {s t : State} {f : State → α → State} {l : List α}
    (hf : ∀ s a, Touches ps s (f s a)) (h : Touches ps s t) : Touches ps s (l.foldl f t) := by
  induction l generalizing t with
  | nil => exact h
  | cons a l ih => exact ih (h.trans (hf t a))

/-- A fold over a pair whose first part is a state. -/
theorem Touches.foldlPair {α β : Type} {ps : List Part} {s : State} {t : State × β} {f : State × β → α → State × β}
    {l : List α} (hf : ∀ s a, Touches ps s.1 (f s a).1) (h : Touches ps s t.1) :
    Touches ps s (l.foldl f t).1 := by
  induction l generalizing t with
  | nil => exact h
  | cons a l ih => exact ih (h.trans (hf t a))

/-- A fold over a pair whose second part is a state. -/
theorem Touches.foldlSnd {α β : Type} {ps : List Part} {s : State} {t : β × State} {f : β × State → α → β × State}
    {l : List α} (hf : ∀ s a, Touches ps s.2 (f s a).2) (h : Touches ps s t.2) :
    Touches ps s (l.foldl f t).2 := by
  induction l generalizing t with
  | nil => exact h
  | cons a l ih => exact ih (h.trans (hf t a))

theorem Touches.ofEq {ps : List Part} {s t u : State} (e : u = t) (h : Touches ps s t) : Touches ps s u := e ▸ h

theorem Touches.ofPair {β : Type} {ps : List Part} {s t : State} {b : β} {e : State × β} (he : e = (t, b))
    (h : Touches ps s e.1) : Touches ps s t := by subst he; exact h

theorem Touches.ofPairSnd {β : Type} {ps : List Part} {s t : State} {b : β} {e : β × State} (he : e = (b, t))
    (h : Touches ps s e.2) : Touches ps s t := by subst he; exact h

theorem Touches.ofTriple {β γ : Type} {ps : List Part} {s t : State} {b : β} {c : γ} {e : β × γ × State}
    (he : e = (b, c, t)) (h : Touches ps s e.2.2) : Touches ps s t := by subst he; exact h

/-- A record written field by field over the state `t`, its bytes and granules among them untouched. -/
theorem Touches.mk' {ps : List Part} {s : State} (t : State) {a0 a1 a2 a3 a4 a5 a6 a7 a8 a9 a10 a11 a12 a13 a14 a15 a16 a17 a18}
    (h18 : a18 = t.pending) (h0 : a0 = t.variant) (h3 : a3 = t.mem)
    (h1 : a1 = t.cores ∨ .cores ∈ ps) (h2 : a2 = t.shelves ∨ .shelves ∈ ps)
    (h4 : a4 = t.ctxs ∨ .ctxs ∈ ps) (h5 : a5 = t.media ∨ .media ∈ ps) (h6 : a6 = t.host ∨ .host ∈ ps)
    (h7 : a7 = t.fab ∨ .fab ∈ ps) (h8 : a8 = t.sec) (h9 : a9 = t.ledger ∨ .ledger ∈ ps)
    (h10 : a10 = t.bring ∨ .bring ∈ ps) (h11 : a11 = t.power ∨ .power ∈ ps) (h12 : a12 = t.mu ∨ .mu ∈ ps)
    (h13 : a13 = t.imprint ∨ .imprint ∈ ps) (h14 : a14 = t.pins ∨ .pins ∈ ps) (h15 : a15 = t.mgmt ∨ .mgmt ∈ ps)
    (h16 : a16 = t.latches ∨ .latches ∈ ps) (h17 : a17 = t.freeCtr ∨ .freeCtr ∈ ps)
    (h : Touches ps s t) :
    Touches ps s (State.mk a0 a1 a2 a3 a4 a5 a6 a7 a8 a9 a10 a11 a12 a13 a14 a15 a16 a17 a18) := by
  refine h.trans ⟨⟨h0, by simp [h8], by simp [h8], by simp [h8], by simp [h8], by simp [h8], by simp [h8], h18, by simp [h3]⟩, ?_⟩
  intro p hp
  cases p <;> simp only [Part.same] <;> simp_all

end Sys2Proof.Machine
end

