-- ==== Sys2Proof/Laws/TouchOps.lean ====
section
/-!
SUPPORT. What each operation of Machine/Ops.lean touches.
-/

set_option linter.unusedTactic false
set_option linter.unreachableTactic false

namespace Sys2Proof.Machine

theorem touches_setCore (s : State) (n : Nat) (c : Core) : Touches [.cores] s (State.setCore s n c) := by
  unfold State.setCore
  repeat' first
    | with_reducible assumption
    | with_reducible exact Touches.refl _ _
    | decide
    | (with_reducible refine Touches.mk' _ rfl rfl rfl ?_ ?_ ?_ ?_ ?_ ?_ rfl ?_ ?_ ?_ ?_ ?_ ?_ ?_ ?_ ?_ ?_)
    | exact Or.inr (by decide)
    | exact Or.inl rfl

theorem touches_modCore (s : State) (n : Nat) (f : Core → Core) : Touches [.cores] s (State.modCore s n f) := by
  unfold State.modCore
  repeat' first
    | with_reducible assumption
    | with_reducible exact Touches.refl _ _
    | (apply Touches.andThen (qs := [.cores]); with_reducible exact touches_setCore _ _ _)
    | decide

theorem touches_setShelf (s : State) (n : Nat) (x : Shelf) : Touches [.shelves] s (State.setShelf s n x) := by
  unfold State.setShelf
  repeat' first
    | with_reducible assumption
    | with_reducible exact Touches.refl _ _
    | decide
    | (with_reducible refine Touches.mk' _ rfl rfl rfl ?_ ?_ ?_ ?_ ?_ ?_ rfl ?_ ?_ ?_ ?_ ?_ ?_ ?_ ?_ ?_ ?_)
    | exact Or.inr (by decide)
    | exact Or.inl rfl

theorem touches_modShelf (s : State) (n : Nat) (f : Shelf → Shelf) : Touches [.shelves] s (State.modShelf s n f) := by
  unfold State.modShelf
  repeat' first
    | with_reducible assumption
    | with_reducible exact Touches.refl _ _
    | (apply Touches.andThen (qs := [.shelves]); with_reducible exact touches_setShelf _ _ _)
    | decide

theorem touches_setCtx (s : State) (n : Nat) (c : Ctx) : Touches [.ctxs] s (State.setCtx s n c) := by
  unfold State.setCtx
  repeat' first
    | with_reducible assumption
    | with_reducible exact Touches.refl _ _
    | decide
    | (with_reducible refine Touches.mk' _ rfl rfl rfl ?_ ?_ ?_ ?_ ?_ ?_ rfl ?_ ?_ ?_ ?_ ?_ ?_ ?_ ?_ ?_ ?_)
    | exact Or.inr (by decide)
    | exact Or.inl rfl

theorem touches_modCtx (s : State) (n : Nat) (f : Ctx → Ctx) : Touches [.ctxs] s (State.modCtx s n f) := by
  unfold State.modCtx
  repeat' first
    | with_reducible assumption
    | with_reducible exact Touches.refl _ _
    | (apply Touches.andThen (qs := [.ctxs]); with_reducible exact touches_setCtx _ _ _)
    | decide

theorem touches_modHbm (s : State) (n : Nat) (f : Hbm → Hbm) : Touches [.tiers] s (s.modHbm n f) :=
  ⟨⟨rfl, rfl, rfl, rfl, rfl, rfl, le_refl _, rfl, id⟩, by intro p hp; cases p <;> simp_all [Part.same, State.modHbm]⟩

theorem touches_modCxl (s : State) (n : Nat) (f : Cxl → Cxl) : Touches [.tiers] s (s.modCxl n f) :=
  ⟨⟨rfl, rfl, rfl, rfl, rfl, rfl, le_refl _, rfl, id⟩, by intro p hp; cases p <;> simp_all [Part.same, State.modCxl]⟩

theorem touches_free (s : State) (w : Nat) : Touches [.freeCtr] s (State.free s w).2 := by
  unfold State.free
  repeat' first
    | with_reducible assumption
    | with_reducible exact Touches.refl _ _
    | decide
    | (with_reducible refine Touches.mk' _ rfl rfl rfl ?_ ?_ ?_ ?_ ?_ ?_ rfl ?_ ?_ ?_ ?_ ?_ ?_ ?_ ?_ ?_ ?_)
    | exact Or.inr (by decide)
    | exact Or.inl rfl

theorem touches_modGranule (s : State) (n : Nat) (f : Granule → Granule) : Touches [.granules] s (s.modGranule n f) :=
  ⟨⟨rfl, rfl, rfl, rfl, rfl, rfl, le_refl _, rfl, id⟩, by intro p hp; cases p <;> simp_all [Part.same, State.modGranule]⟩

theorem touches_setMem (s : State) (m : Mem) (h : s.mem.mem.wf → m.wf) : Touches [.bytes] s (s.setMem m) :=
  ⟨⟨rfl, rfl, rfl, rfl, rfl, rfl, le_refl _, rfl, h⟩, by intro p hp; cases p <;> simp_all [Part.same, State.setMem]⟩

theorem touches_raiseVector (s : State) (v : Nat) : Touches [.host] s (raiseVector s v) := by
  unfold raiseVector
  repeat' first
    | with_reducible assumption
    | with_reducible exact Touches.refl _ _
    | extract_lets
    | split
    | decide
    | (with_reducible refine Touches.mk' _ rfl rfl rfl ?_ ?_ ?_ ?_ ?_ ?_ rfl ?_ ?_ ?_ ?_ ?_ ?_ ?_ ?_ ?_ ?_)
    | exact Or.inr (by decide)
    | exact Or.inl rfl
    | dsimp +zetaDelta only

theorem touches_contextFault (s : State) (c : Nat) (f : FaultRec) : Touches [.ctxs] s (contextFault s c f) := by
  unfold contextFault
  repeat' first
    | with_reducible assumption
    | with_reducible exact Touches.refl _ _
    | (apply Touches.andThen (qs := [.ctxs]); with_reducible exact touches_modCtx _ _ _)
    | split
    | decide

theorem touches_stopStage (s : State) (core : Nat) (n : StopName) (addr : Nat) : Touches [.cores, .ctxs] s (stopStage s core n addr) := by
  unfold stopStage
  repeat' first
    | with_reducible assumption
    | with_reducible exact Touches.refl _ _
    | (apply Touches.andThen (qs := [.cores]); with_reducible exact touches_modCore _ _ _)
    | (apply Touches.andThen (qs := [.ctxs]); with_reducible exact touches_contextFault _ _ _)
    | extract_lets
    | decide
    | dsimp +zetaDelta only

theorem touches_addressFault (s : State) (core addr : Nat) : Touches [.cores, .tiers, .ctxs] s (addressFault s core addr) := by
  unfold addressFault
  refine Touches.andThen (touches_stopStage _ _ _ _) (by decide) ?_
  exact ⟨⟨rfl, rfl, rfl, rfl, rfl, rfl, le_refl _, rfl, id⟩, by intro p hp; cases p <;> simp_all [Part.same]⟩

end Sys2Proof.Machine
end

