-- ==== Sys2Proof/Laws/TouchSite.lean ====
section
/-!
SUPPORT. What each operation of Machine/Site.lean touches.
-/

set_option linter.unusedTactic false
set_option linter.unreachableTactic false

namespace Sys2Proof.Machine

theorem touches_modSite (s : State) (i : Nat) (f : Site → Site) : Touches [.bring] s (State.modSite s i f) := by
  unfold State.modSite
  repeat' first
    | with_reducible assumption
    | with_reducible exact Touches.refl _ _
    | decide
    | (with_reducible refine Touches.mk' _ rfl rfl rfl ?_ ?_ ?_ ?_ ?_ ?_ rfl ?_ ?_ ?_ ?_ ?_ ?_ ?_ ?_ ?_ ?_)
    | exact Or.inr (by decide)
    | exact Or.inl rfl

theorem touches_modBring (s : State) (f : Bringup → Bringup) : Touches [.bring] s (State.modBring s f) := by
  unfold State.modBring
  repeat' first
    | with_reducible assumption
    | with_reducible exact Touches.refl _ _
    | decide
    | (with_reducible refine Touches.mk' _ rfl rfl rfl ?_ ?_ ?_ ?_ ?_ ?_ rfl ?_ ?_ ?_ ?_ ?_ ?_ ?_ ?_ ?_ ?_)
    | exact Or.inr (by decide)
    | exact Or.inl rfl

theorem touches_writeWarm (s : State) (complete : Bool) : Touches [.bring] s (writeWarm s complete) := by
  unfold writeWarm
  repeat' first
    | with_reducible assumption
    | with_reducible exact Touches.refl _ _
    | (apply Touches.andThen (qs := [.bring]); with_reducible exact touches_modBring _ _)
    | split
    | decide

theorem touches_rewriteWarm (s : State) : Touches [.bring] s (rewriteWarm s) := by
  unfold rewriteWarm
  repeat' first
    | with_reducible assumption
    | with_reducible exact Touches.refl _ _
    | (apply Touches.andThen (qs := [.bring]); with_reducible exact touches_writeWarm _ _)
    | split
    | decide

theorem touches_rebindNow (s : State) (core : Nat) : Touches [.bring] s (rebindNow s core) := by
  unfold rebindNow
  repeat' first
    | with_reducible assumption
    | with_reducible exact Touches.refl _ _
    | (apply Touches.andThen (qs := [.bring]); with_reducible exact touches_modBring _ _)
    | split
    | decide

theorem touches_rebindShelf (s : State) (sh : Nat) : Touches [.bring] s (rebindShelf s sh) := by
  unfold rebindShelf
  repeat' first
    | with_reducible assumption
    | with_reducible exact Touches.refl _ _
    | (apply Touches.andThen (qs := [.bring]); with_reducible exact touches_rebindNow _ _)
    | decide
    | (with_reducible refine Touches.foldl ?_ ?_; intro _ _)

theorem touches_retireStage (s : State) (core : Nat) : Touches [.cores, .ctxs] s (retireStage s core) := by
  unfold retireStage
  repeat' first
    | with_reducible assumption
    | with_reducible exact Touches.refl _ _
    | (apply Touches.andThen (qs := [.cores]); with_reducible exact touches_modCore _ _ _)
    | (apply Touches.andThen (qs := [.ctxs]); with_reducible exact touches_modCtx _ _ _)
    | (apply Touches.andThen (qs := [.ctxs]); with_reducible exact touches_contextFault _ _ _)
    | extract_lets
    | split
    | decide
    | dsimp +zetaDelta only

theorem touches_spareLost (s : State) (sh : Nat) : Touches [.shelves, .bring, .freeCtr] s (spareLost s sh) := by
  unfold spareLost
  repeat' first
    | with_reducible assumption
    | with_reducible exact Touches.refl _ _
    | (apply Touches.andThen (qs := [.shelves]); with_reducible exact touches_modShelf _ _ _)
    | (apply Touches.andThen (qs := [.freeCtr]); with_reducible exact touches_free _ _)
    | (apply Touches.andThen (qs := [.bring]); with_reducible exact touches_modBring _ _)
    | split
    | decide
    | refine Touches.ofPair (by with_reducible assumption) ?_
    | refine Touches.ofPairSnd (by with_reducible assumption) ?_
    | refine Touches.ofTriple (by with_reducible assumption) ?_

theorem touches_siteFail (s : State) (i : Nat) (cause : BitVec 4) : Touches [.cores, .shelves, .ctxs, .bring, .freeCtr] s (siteFail s i cause) := by
  unfold siteFail
  repeat' first
    | with_reducible assumption
    | with_reducible exact Touches.refl _ _
    | (apply Touches.andThen (qs := [.shelves]); with_reducible exact touches_modShelf _ _ _)
    | (apply Touches.andThen (qs := [.freeCtr]); with_reducible exact touches_free _ _)
    | (apply Touches.andThen (qs := [.bring]); with_reducible exact touches_modSite _ _ _)
    | (apply Touches.andThen (qs := [.bring]); with_reducible exact touches_modBring _ _)
    | (apply Touches.andThen (qs := [.bring]); with_reducible exact touches_rewriteWarm _)
    | (apply Touches.andThen (qs := [.bring]); with_reducible exact touches_rebindNow _ _)
    | (apply Touches.andThen (qs := [.cores, .ctxs]); with_reducible exact touches_retireStage _ _)
    | (apply Touches.andThen (qs := [.shelves, .bring, .freeCtr]); with_reducible exact touches_spareLost _ _)
    | extract_lets
    | split
    | decide
    | refine Touches.ofPair (by with_reducible assumption) ?_
    | refine Touches.ofPairSnd (by with_reducible assumption) ?_
    | refine Touches.ofTriple (by with_reducible assumption) ?_
    | dsimp +zetaDelta only

theorem touches_spareTestDone (s : State) (sh : Nat) (ok : Bool) : Touches [.shelves, .bring] s (spareTestDone s sh ok) := by
  unfold spareTestDone
  repeat' first
    | with_reducible assumption
    | with_reducible exact Touches.refl _ _
    | (apply Touches.andThen (qs := [.shelves]); with_reducible exact touches_modShelf _ _ _)
    | (apply Touches.andThen (qs := [.bring]); with_reducible exact touches_modSite _ _ _)
    | (apply Touches.andThen (qs := [.bring]); with_reducible exact touches_modBring _ _)
    | (apply Touches.andThen (qs := [.bring]); with_reducible exact touches_rewriteWarm _)
    | extract_lets
    | split
    | decide
    | dsimp +zetaDelta only

theorem touches_siteFailBoot (s : State) (i : Nat) (cause : BitVec 4) : Touches [.bring] s (siteFailBoot s i cause) := by
  unfold siteFailBoot
  repeat' first
    | with_reducible assumption
    | with_reducible exact Touches.refl _ _
    | (apply Touches.andThen (qs := [.bring]); with_reducible exact touches_modSite _ _ _)
    | split
    | decide

theorem touches_failSite (s : State) (i : Nat) (cause : BitVec 4) : Touches [.cores, .shelves, .ctxs, .bring, .freeCtr] s (failSite s i cause) := by
  unfold failSite
  repeat' first
    | with_reducible assumption
    | with_reducible exact Touches.refl _ _
    | (apply Touches.andThen (qs := [.cores, .shelves, .ctxs, .bring, .freeCtr]); with_reducible exact touches_siteFail _ _ _)
    | (apply Touches.andThen (qs := [.bring]); with_reducible exact touches_siteFailBoot _ _ _)
    | split
    | decide

theorem touches_domainFailed (s : State) (d : Nat) : Touches [.cores, .shelves, .ctxs, .bring, .freeCtr] s (domainFailed s d) := by
  unfold domainFailed
  repeat' first
    | with_reducible assumption
    | with_reducible exact Touches.refl _ _
    | (apply Touches.andThen (qs := [.bring]); with_reducible exact touches_modBring _ _)
    | (apply Touches.andThen (qs := [.cores, .shelves, .ctxs, .bring, .freeCtr]); with_reducible exact touches_failSite _ _ _)
    | extract_lets
    | split
    | decide
    | (with_reducible refine Touches.foldl ?_ ?_; intro _ _)
    | dsimp +zetaDelta only

theorem touches_countCarrel (s : State) (core : Nat) (unc : Bool) : Touches [.shelves] s (countCarrel s core unc) := by
  unfold countCarrel
  repeat' first
    | with_reducible assumption
    | with_reducible exact Touches.refl _ _
    | (apply Touches.andThen (qs := [.shelves]); with_reducible exact touches_modShelf _ _ _)
    | extract_lets
    | split
    | decide
    | dsimp +zetaDelta only

theorem touches_carrelTrigger (s : State) (core : Nat) : Touches [.cores, .shelves, .ctxs, .bring, .freeCtr] s (carrelTrigger s core) := by
  unfold carrelTrigger
  repeat' first
    | with_reducible assumption
    | with_reducible exact Touches.refl _ _
    | (apply Touches.andThen (qs := [.cores, .shelves, .ctxs, .bring, .freeCtr]); with_reducible exact touches_failSite _ _ _)
    | extract_lets
    | split
    | decide
    | dsimp +zetaDelta only

theorem touches_storeEvent (s : State) (t : Tier) (e : Ecc) : Touches [.cores, .shelves, .ctxs, .bring, .freeCtr] s (storeEvent s t e) := by
  unfold storeEvent
  repeat' first
    | with_reducible assumption
    | with_reducible exact Touches.refl _ _
    | (apply Touches.andThen (qs := [.shelves]); with_reducible exact touches_modShelf _ _ _)
    | (apply Touches.andThen (qs := [.shelves]); with_reducible exact touches_countCarrel _ _ _)
    | (apply Touches.andThen (qs := [.cores, .shelves, .ctxs, .bring, .freeCtr]); with_reducible exact touches_carrelTrigger _ _)
    | split
    | decide

end Sys2Proof.Machine
end

