-- ==== Sys2Proof/Laws/TouchStream.lean ====
section
/-!
SUPPORT. What each operation of Machine/Stream.lean touches.
-/

set_option linter.unusedTactic false
set_option linter.unreachableTactic false

namespace Sys2Proof.Machine

theorem touches_modStream (s : State) (c i : Nat) (f : Stream → Stream) : Touches [.ctxs] s (State.modStream s c i f) := by
  unfold State.modStream
  repeat' first
    | with_reducible assumption
    | with_reducible exact Touches.refl _ _
    | (apply Touches.andThen (qs := [.ctxs]); with_reducible exact touches_modCtx _ _ _)
    | decide

theorem touches_wordMoved (s : State) (core : Nat) : Touches [.cores] s (wordMoved s core) := by
  unfold wordMoved
  repeat' first
    | with_reducible assumption
    | with_reducible exact Touches.refl _ _
    | (apply Touches.andThen (qs := [.cores]); with_reducible exact touches_modCore _ _ _)
    | decide

theorem touches_pump (s : State) (c i : Nat) : Touches [.cores, .ctxs] s (pump s c i) := by
  unfold pump
  repeat' first
    | with_reducible assumption
    | with_reducible exact Touches.refl _ _
    | (apply Touches.andThen (qs := [.ctxs]); with_reducible exact touches_modStream _ _ _ _)
    | (apply Touches.andThen (qs := [.cores]); with_reducible exact touches_wordMoved _ _)
    | extract_lets
    | split
    | decide
    | (with_reducible refine Touches.foldl ?_ ?_; intro _ _)
    | dsimp +zetaDelta only

theorem touches_bufferError (s : State) (c i k : Nat) (e : Ecc) : Touches [.cores, .shelves, .ctxs, .bring, .freeCtr] s (bufferError s c i k e) := by
  unfold bufferError
  repeat' first
    | with_reducible assumption
    | with_reducible exact Touches.refl _ _
    | (apply Touches.andThen (qs := [.cores, .shelves, .ctxs, .bring, .freeCtr]); with_reducible exact touches_storeEvent _ _ _)
    | (apply Touches.andThen (qs := [.ctxs]); with_reducible exact touches_modStream _ _ _ _)
    | extract_lets
    | split
    | decide
    | dsimp +zetaDelta only

theorem touches_streamAppend (s : State) (c i k : Nat) (ws : List SWord) : Touches [.ctxs] s (streamAppend s c i k ws) := by
  unfold streamAppend
  repeat' first
    | with_reducible assumption
    | with_reducible exact Touches.refl _ _
    | (apply Touches.andThen (qs := [.ctxs]); with_reducible exact touches_modStream _ _ _ _)
    | decide

theorem touches_streamPush (s : State) (c i : Nat) (h : THdr) (f : Fmt) (es : List Elem) (hpoison : Bool) : Touches [.cores, .ctxs] s (streamPush s c i h f es hpoison).1 := by
  unfold streamPush
  repeat' first
    | with_reducible assumption
    | with_reducible exact Touches.refl _ _
    | (apply Touches.andThen (qs := [.ctxs]); with_reducible exact touches_modStream _ _ _ _)
    | (apply Touches.andThen (qs := [.cores, .ctxs]); with_reducible exact touches_pump _ _ _)
    | (apply Touches.andThen (qs := [.ctxs]); with_reducible exact touches_streamAppend _ _ _ _ _)
    | extract_lets
    | split
    | decide
    | (with_reducible refine Touches.foldl ?_ ?_; intro _ _)
    | (with_reducible refine Touches.foldlPair ?_ ?_; intro _ _)
    | dsimp +zetaDelta only

theorem touches_modEp (s : State) (core q : Nat) (f : EpCtr → EpCtr) : Touches [.cores] s (State.modEp s core q f) := by
  unfold State.modEp
  repeat' first
    | with_reducible assumption
    | with_reducible exact Touches.refl _ _
    | (apply Touches.andThen (qs := [.cores]); with_reducible exact touches_modCore _ _ _)
    | decide

theorem touches_emitHead (s : State) (core p : Nat) : Touches [.cores, .ctxs] s (emitHead s core p) := by
  unfold emitHead
  repeat' first
    | with_reducible assumption
    | with_reducible exact Touches.refl _ _
    | (apply Touches.andThen (qs := [.cores]); with_reducible exact touches_modCore _ _ _)
    | (apply Touches.andThen (qs := [.cores, .ctxs]); with_reducible exact touches_stopStage _ _ _ _)
    | (apply Touches.andThen (qs := [.cores, .ctxs]); with_reducible exact touches_streamPush _ _ _ _ _ _ _)
    | (apply Touches.andThen (qs := [.cores]); with_reducible exact touches_modEp _ _ _ _)
    | extract_lets
    | split
    | decide
    | refine Touches.ofPair (by with_reducible assumption) ?_
    | refine Touches.ofPairSnd (by with_reducible assumption) ?_
    | refine Touches.ofTriple (by with_reducible assumption) ?_
    | dsimp +zetaDelta only

theorem touches_beginOut (s : State) (core p : Nat) (t : OutTensor) : Touches [.cores] s (beginOut s core p t) := by
  unfold beginOut
  repeat' first
    | with_reducible assumption
    | with_reducible exact Touches.refl _ _
    | (apply Touches.andThen (qs := [.cores]); with_reducible exact touches_modCore _ _ _)
    | extract_lets
    | split
    | decide
    | dsimp +zetaDelta only

theorem touches_putVals (s : State) (core p seq base : Nat) (vs : List OVal) : Touches [.cores] s (putVals s core p seq base vs) := by
  unfold putVals
  repeat' first
    | with_reducible assumption
    | with_reducible exact Touches.refl _ _
    | (apply Touches.andThen (qs := [.cores]); with_reducible exact touches_modCore _ _ _)
    | extract_lets
    | decide
    | (with_reducible refine Touches.foldl ?_ ?_; intro _ _)
    | dsimp +zetaDelta only

theorem touches_putFlags (s : State) (core p seq : Nat) (fl : BitVec 8) : Touches [.cores] s (putFlags s core p seq fl) := by
  unfold putFlags
  repeat' first
    | with_reducible assumption
    | with_reducible exact Touches.refl _ _
    | (apply Touches.andThen (qs := [.cores]); with_reducible exact touches_modCore _ _ _)
    | extract_lets
    | split
    | decide
    | dsimp +zetaDelta only

theorem touches_releaseIn (s : State) (core q : Nat) : Touches [.cores, .ctxs] s (releaseIn s core q) := by
  unfold releaseIn
  repeat' first
    | with_reducible assumption
    | with_reducible exact Touches.refl _ _
    | (apply Touches.andThen (qs := [.cores]); with_reducible exact touches_modCore _ _ _)
    | (apply Touches.andThen (qs := [.ctxs]); with_reducible exact touches_modStream _ _ _ _)
    | (apply Touches.andThen (qs := [.cores, .ctxs]); with_reducible exact touches_pump _ _ _)
    | extract_lets
    | split
    | decide
    | dsimp +zetaDelta only

end Sys2Proof.Machine
end

