-- ==== Sys2Proof/Laws/TouchArray.lean ====
section
/-!
SUPPORT. What each operation of Machine/Array.lean touches.
-/

set_option linter.unusedTactic false
set_option linter.unreachableTactic false

namespace Sys2Proof.Machine

theorem touches_rowEntry (s : State) (core : Nat) : Touches [.cores, .ctxs] s (rowEntry s core) := by
  unfold rowEntry
  repeat' first
    | with_reducible assumption
    | with_reducible exact Touches.refl _ _
    | (apply Touches.andThen (qs := [.cores]); with_reducible exact touches_modCore _ _ _)
    | (apply Touches.andThen (qs := [.cores, .ctxs]); with_reducible exact touches_stopStage _ _ _ _)
    | extract_lets
    | split
    | decide
    | dsimp +zetaDelta only

theorem touches_drainUnit (s : State) (core : Nat) : Touches [.cores] s (drainUnit s core) := by
  unfold drainUnit
  repeat' first
    | with_reducible assumption
    | with_reducible exact Touches.refl _ _
    | (apply Touches.andThen (qs := [.cores]); with_reducible exact touches_modCore _ _ _)
    | (apply Touches.andThen (qs := [.cores]); with_reducible exact touches_putVals _ _ _ _ _ _)
    | (apply Touches.andThen (qs := [.cores]); with_reducible exact touches_putFlags _ _ _ _ _)
    | extract_lets
    | split
    | decide
    | dsimp +zetaDelta only

theorem touches_beginPasses (s : State) (core : Nat) (r : StageRec) (h : THdr) (rows w hgt : Nat) (fl : BitVec 8) (hpoison : Bool) : Touches [.cores] s (beginPasses s core r h rows w hgt fl hpoison) := by
  unfold beginPasses
  repeat' first
    | with_reducible assumption
    | with_reducible exact Touches.refl _ _
    | (apply Touches.andThen (qs := [.cores]); with_reducible exact touches_beginOut _ _ _ _)
    | extract_lets
    | split
    | decide
    | (with_reducible refine Touches.foldl ?_ ?_; intro _ _)
    | dsimp +zetaDelta only

theorem touches_passEmpty (s : State) (core : Nat) (h : THdr) (fl : BitVec 8) (hpoison : Bool) (ins : List Nat) (shape : Nat × Nat × Nat) : Touches [.cores, .ctxs] s (passEmpty s core h fl hpoison ins shape) := by
  unfold passEmpty
  repeat' first
    | with_reducible assumption
    | with_reducible exact Touches.refl _ _
    | (apply Touches.andThen (qs := [.cores]); with_reducible exact touches_beginOut _ _ _ _)
    | (apply Touches.andThen (qs := [.cores, .ctxs]); with_reducible exact touches_releaseIn _ _ _)
    | extract_lets
    | split
    | decide
    | (with_reducible refine Touches.foldl ?_ ?_; intro _ _)
    | dsimp +zetaDelta only

theorem touches_startMatmul (s : State) (core : Nat) (r : StageRec) (h : THdr) : Touches [.cores, .ctxs] s (startMatmul s core r h) := by
  unfold startMatmul
  repeat' first
    | with_reducible assumption
    | with_reducible exact Touches.refl _ _
    | (apply Touches.andThen (qs := [.cores]); with_reducible exact touches_modCore _ _ _)
    | (apply Touches.andThen (qs := [.cores, .ctxs]); with_reducible exact touches_stopStage _ _ _ _)
    | (apply Touches.andThen (qs := [.cores, .ctxs]); with_reducible exact touches_releaseIn _ _ _)
    | (apply Touches.andThen (qs := [.cores]); with_reducible exact touches_beginPasses _ _ _ _ _ _ _ _ _)
    | extract_lets
    | split
    | decide
    | (with_reducible refine Touches.foldl ?_ ?_; intro _ _)
    | dsimp +zetaDelta only

theorem touches_startPass (s : State) (core : Nat) : Touches [.cores, .ctxs] s (startPass s core) := by
  unfold startPass
  repeat' first
    | with_reducible assumption
    | with_reducible exact Touches.refl _ _
    | (apply Touches.andThen (qs := [.cores]); with_reducible exact touches_modCore _ _ _)
    | (apply Touches.andThen (qs := [.cores, .ctxs]); with_reducible exact touches_startMatmul _ _ _ _)
    | extract_lets
    | split
    | decide
    | dsimp +zetaDelta only

theorem touches_endWindow (s : State) (core : Nat) : Touches [.cores, .ctxs] s (endWindow s core) := by
  unfold endWindow
  repeat' first
    | with_reducible assumption
    | with_reducible exact Touches.refl _ _
    | (apply Touches.andThen (qs := [.cores]); with_reducible exact touches_modCore _ _ _)
    | (apply Touches.andThen (qs := [.cores, .ctxs]); with_reducible exact touches_releaseIn _ _ _)
    | extract_lets
    | split
    | decide
    | dsimp +zetaDelta only

theorem touches_advance (s : State) (core : Nat) (r : StageRec) (pl : Plan) : Touches [.cores, .ctxs] s (advance s core r pl) := by
  unfold advance
  repeat' first
    | with_reducible assumption
    | with_reducible exact Touches.refl _ _
    | (apply Touches.andThen (qs := [.cores]); with_reducible exact touches_modCore _ _ _)
    | (apply Touches.andThen (qs := [.cores, .ctxs]); with_reducible exact touches_releaseIn _ _ _)
    | (apply Touches.andThen (qs := [.cores, .ctxs]); with_reducible exact touches_endWindow _ _)
    | extract_lets
    | split
    | decide
    | dsimp +zetaDelta only

theorem touches_issueFormed (s : State) (core : Nat) (r : StageRec) (pl : Plan) (es : List Elem) (products : Bool) (d : Dest) (t : Nat) (scaleA : F32) : Touches [.cores, .ctxs] s (issueFormed s core r pl es products d t scaleA) := by
  unfold issueFormed
  repeat' first
    | with_reducible assumption
    | with_reducible exact Touches.refl _ _
    | (apply Touches.andThen (qs := [.cores]); with_reducible exact touches_modCore _ _ _)
    | (apply Touches.andThen (qs := [.cores, .ctxs]); with_reducible exact touches_advance _ _ _ _)
    | extract_lets
    | split
    | decide
    | (with_reducible refine Touches.foldl ?_ ?_; intro _ _)
    | dsimp +zetaDelta only

theorem touches_formTaps (s : State) (core : Nat) (r : StageRec) : Touches [.cores] s (formTaps s core r) := by
  unfold formTaps
  repeat' first
    | with_reducible assumption
    | with_reducible exact Touches.refl _ _
    | (apply Touches.andThen (qs := [.cores]); with_reducible exact touches_modCore _ _ _)
    | extract_lets
    | split
    | decide
    | dsimp +zetaDelta only

theorem touches_lineError (s : State) (core key col : Nat) (e : Ecc) : Touches [.cores, .shelves, .ctxs, .bring, .freeCtr] s (lineError s core key col e) := by
  unfold lineError
  repeat' first
    | with_reducible assumption
    | with_reducible exact Touches.refl _ _
    | (apply Touches.andThen (qs := [.cores]); with_reducible exact touches_modCore _ _ _)
    | (apply Touches.andThen (qs := [.cores, .shelves, .ctxs, .bring, .freeCtr]); with_reducible exact touches_storeEvent _ _ _)
    | extract_lets
    | split
    | decide
    | dsimp +zetaDelta only

theorem touches_rowError (s : State) (core : Nat) (r : StageRec) (e : Ecc) : Touches [.cores, .shelves, .ctxs, .bring, .freeCtr] s (rowError s core r e) := by
  unfold rowError
  repeat' first
    | with_reducible assumption
    | with_reducible exact Touches.refl _ _
    | (apply Touches.andThen (qs := [.cores, .shelves, .ctxs, .bring, .freeCtr]); with_reducible exact touches_lineError _ _ _ _ _)
    | split
    | decide

theorem touches_issueRow (s : State) (core : Nat) (ecc : Ecc) : Touches [.cores, .shelves, .ctxs, .bring, .freeCtr] s (issueRow s core ecc) := by
  unfold issueRow
  repeat' first
    | with_reducible assumption
    | with_reducible exact Touches.refl _ _
    | (apply Touches.andThen (qs := [.cores, .ctxs]); with_reducible exact touches_startPass _ _)
    | (apply Touches.andThen (qs := [.cores, .ctxs]); with_reducible exact touches_advance _ _ _ _)
    | (apply Touches.andThen (qs := [.cores, .ctxs]); with_reducible exact touches_issueFormed _ _ _ _ _ _ _ _ _)
    | (apply Touches.andThen (qs := [.cores]); with_reducible exact touches_formTaps _ _ _)
    | (apply Touches.andThen (qs := [.cores, .shelves, .ctxs, .bring, .freeCtr]); with_reducible exact touches_rowError _ _ _ _)
    | extract_lets
    | split
    | decide
    | dsimp +zetaDelta only

theorem touches_tileError (s : State) (core : Nat) (r : StageRec) (t rank : Nat) (e : Ecc) : Touches [.cores, .shelves, .ctxs, .bring, .freeCtr] s (tileError s core r t rank e) := by
  unfold tileError
  repeat' first
    | with_reducible assumption
    | with_reducible exact Touches.refl _ _
    | (apply Touches.andThen (qs := [.cores]); with_reducible exact touches_modCore _ _ _)
    | (apply Touches.andThen (qs := [.cores, .shelves, .ctxs, .bring, .freeCtr]); with_reducible exact touches_storeEvent _ _ _)
    | extract_lets
    | split
    | decide
    | dsimp +zetaDelta only

theorem touches_loadStart (s : State) (core a b : Nat) (ecc : Ecc) : Touches [.cores, .shelves, .ctxs, .bring, .freeCtr] s (loadStart s core a b ecc) := by
  unfold loadStart
  repeat' first
    | with_reducible assumption
    | with_reducible exact Touches.refl _ _
    | (apply Touches.andThen (qs := [.cores]); with_reducible exact touches_modCore _ _ _)
    | (apply Touches.andThen (qs := [.cores, .shelves, .ctxs, .bring, .freeCtr]); with_reducible exact touches_tileError _ _ _ _ _ _)
    | extract_lets
    | split
    | decide
    | dsimp +zetaDelta only

theorem touches_loadDone (s : State) (core a : Nat) : Touches [.cores] s (loadDone s core a) := by
  unfold loadDone
  repeat' first
    | with_reducible assumption
    | with_reducible exact Touches.refl _ _
    | (apply Touches.andThen (qs := [.cores]); with_reducible exact touches_modCore _ _ _)
    | split
    | decide

end Sys2Proof.Machine
end

