-- ==== Sys2Proof/Laws/TouchWindow.lean ====
section
/-!
SUPPORT. What each operation of Machine/Window.lean touches.
-/

set_option linter.unusedTactic false
set_option linter.unreachableTactic false

namespace Sys2Proof.Machine

theorem touches_windowTensor (s : State) (core : Nat) : Touches [.cores, .ctxs] s (windowTensor s core) := by
  unfold windowTensor
  repeat' first
    | with_reducible assumption
    | with_reducible exact Touches.refl _ _
    | (apply Touches.andThen (qs := [.cores]); with_reducible exact touches_modCore _ _ _)
    | (apply Touches.andThen (qs := [.cores, .ctxs]); with_reducible exact touches_stopStage _ _ _ _)
    | (apply Touches.andThen (qs := [.cores]); with_reducible exact touches_beginPasses _ _ _ _ _ _ _ _ _)
    | (apply Touches.andThen (qs := [.cores, .ctxs]); with_reducible exact touches_passEmpty _ _ _ _ _ _ _)
    | extract_lets
    | split
    | decide
    | dsimp +zetaDelta only

theorem touches_inputRowArrival (s : State) (core : Nat) : Touches [.cores, .ctxs] s (inputRowArrival s core) := by
  unfold inputRowArrival
  repeat' first
    | with_reducible assumption
    | with_reducible exact Touches.refl _ _
    | (apply Touches.andThen (qs := [.cores]); with_reducible exact touches_modCore _ _ _)
    | (apply Touches.andThen (qs := [.cores, .ctxs]); with_reducible exact touches_endWindow _ _)
    | extract_lets
    | split
    | decide
    | dsimp +zetaDelta only

theorem touches_haloCopy (s : State) (core : Nat) (ecc : Ecc) : Touches [.cores, .shelves, .ctxs, .bring, .freeCtr] s (haloCopy s core ecc) := by
  unfold haloCopy
  repeat' first
    | with_reducible assumption
    | with_reducible exact Touches.refl _ _
    | (apply Touches.andThen (qs := [.cores]); with_reducible exact touches_modCore _ _ _)
    | (apply Touches.andThen (qs := [.cores, .shelves, .ctxs, .bring, .freeCtr]); with_reducible exact touches_lineError _ _ _ _ _)
    | extract_lets
    | split
    | decide
    | dsimp +zetaDelta only

theorem touches_poolPosition (s : State) (core : Nat) : Touches [.cores, .ctxs] s (poolPosition s core) := by
  unfold poolPosition
  repeat' first
    | with_reducible assumption
    | with_reducible exact Touches.refl _ _
    | (apply Touches.andThen (qs := [.cores]); with_reducible exact touches_modCore _ _ _)
    | (apply Touches.andThen (qs := [.cores, .ctxs]); with_reducible exact touches_stopStage _ _ _ _)
    | (apply Touches.andThen (qs := [.cores]); with_reducible exact touches_beginOut _ _ _ _)
    | (apply Touches.andThen (qs := [.cores]); with_reducible exact touches_putVals _ _ _ _ _ _)
    | (apply Touches.andThen (qs := [.cores, .ctxs]); with_reducible exact touches_releaseIn _ _ _)
    | (apply Touches.andThen (qs := [.cores, .ctxs]); with_reducible exact touches_passEmpty _ _ _ _ _ _ _)
    | extract_lets
    | split
    | decide
    | dsimp +zetaDelta only

theorem touches_boxDecode (s : State) (core : Nat) : Touches [.cores, .ctxs] s (boxDecode s core) := by
  unfold boxDecode
  repeat' first
    | with_reducible assumption
    | with_reducible exact Touches.refl _ _
    | (apply Touches.andThen (qs := [.cores]); with_reducible exact touches_modCore _ _ _)
    | (apply Touches.andThen (qs := [.cores, .ctxs]); with_reducible exact touches_stopStage _ _ _ _)
    | (apply Touches.andThen (qs := [.cores]); with_reducible exact touches_modEp _ _ _ _)
    | (apply Touches.andThen (qs := [.cores]); with_reducible exact touches_beginOut _ _ _ _)
    | (apply Touches.andThen (qs := [.cores]); with_reducible exact touches_putVals _ _ _ _ _ _)
    | (apply Touches.andThen (qs := [.cores, .ctxs]); with_reducible exact touches_releaseIn _ _ _)
    | (apply Touches.andThen (qs := [.cores, .ctxs]); with_reducible exact touches_passEmpty _ _ _ _ _ _ _)
    | extract_lets
    | split
    | decide
    | dsimp +zetaDelta only

theorem touches_nmsCandidate (s : State) (core : Nat) : Touches [.cores] s (nmsCandidate s core) := by
  unfold nmsCandidate
  repeat' first
    | with_reducible assumption
    | with_reducible exact Touches.refl _ _
    | (apply Touches.andThen (qs := [.cores]); with_reducible exact touches_modCore _ _ _)
    | (apply Touches.andThen (qs := [.cores]); with_reducible exact touches_modEp _ _ _ _)
    | extract_lets
    | split
    | decide
    | dsimp +zetaDelta only

theorem touches_nmsSelect (s : State) (core : Nat) : Touches [.cores, .ctxs] s (nmsSelect s core) := by
  unfold nmsSelect
  repeat' first
    | with_reducible assumption
    | with_reducible exact Touches.refl _ _
    | (apply Touches.andThen (qs := [.cores]); with_reducible exact touches_modCore _ _ _)
    | (apply Touches.andThen (qs := [.cores]); with_reducible exact touches_beginOut _ _ _ _)
    | (apply Touches.andThen (qs := [.cores, .ctxs]); with_reducible exact touches_releaseIn _ _ _)
    | (apply Touches.andThen (qs := [.cores, .ctxs]); with_reducible exact touches_passEmpty _ _ _ _ _ _ _)
    | extract_lets
    | split
    | decide
    | (with_reducible refine Touches.foldl ?_ ?_; intro _ _)
    | dsimp +zetaDelta only

end Sys2Proof.Machine
end

