-- ==== Sys2Proof/Laws/TouchStage.lean ====
section
/-!
SUPPORT. What each operation of Machine/Stage.lean touches.
-/

set_option linter.unusedTactic false
set_option linter.unreachableTactic false

namespace Sys2Proof.Machine

theorem touches_takeHeader (s : State) (core q : Nat) (w : SWord) : Touches [.cores, .ctxs] s (takeHeader s core q w) := by
  unfold takeHeader
  repeat' first
    | with_reducible assumption
    | with_reducible exact Touches.refl _ _
    | (apply Touches.andThen (qs := [.cores]); with_reducible exact touches_modCore _ _ _)
    | (apply Touches.andThen (qs := [.cores, .ctxs]); with_reducible exact touches_stopStage _ _ _ _)
    | (apply Touches.andThen (qs := [.cores]); with_reducible exact touches_modEp _ _ _ _)
    | extract_lets
    | split
    | decide
    | dsimp +zetaDelta only

theorem touches_takeData (s : State) (core q : Nat) (w : SWord) : Touches [.cores] s (takeData s core q w) := by
  unfold takeData
  repeat' first
    | with_reducible assumption
    | with_reducible exact Touches.refl _ _
    | (apply Touches.andThen (qs := [.cores]); with_reducible exact touches_modCore _ _ _)
    | (apply Touches.andThen (qs := [.cores]); with_reducible exact touches_modEp _ _ _ _)
    | extract_lets
    | split
    | decide
    | dsimp +zetaDelta only

theorem touches_keepStepLoss (s : State) (core : Nat) : Touches [.cores] s (keepStepLoss s core) := by
  unfold keepStepLoss
  repeat' first
    | with_reducible assumption
    | with_reducible exact Touches.refl _ _
    | (apply Touches.andThen (qs := [.cores]); with_reducible exact touches_modCore _ _ _)
    | extract_lets
    | split
    | decide
    | dsimp +zetaDelta only

theorem touches_takeWord (s : State) (core q : Nat) (w : SWord) : Touches [.cores, .ctxs] s (takeWord s core q w) := by
  unfold takeWord
  repeat' first
    | with_reducible assumption
    | with_reducible exact Touches.refl _ _
    | (apply Touches.andThen (qs := [.cores]); with_reducible exact touches_wordMoved _ _)
    | (apply Touches.andThen (qs := [.cores, .ctxs]); with_reducible exact touches_takeHeader _ _ _ _)
    | (apply Touches.andThen (qs := [.cores]); with_reducible exact touches_takeData _ _ _ _)
    | (apply Touches.andThen (qs := [.cores]); with_reducible exact touches_keepStepLoss _ _)
    | extract_lets
    | split
    | decide
    | dsimp +zetaDelta only

theorem touches_popWord (s : State) (c i k : Nat) : Touches [.cores, .ctxs] s (popWord s c i k) := by
  unfold popWord
  repeat' first
    | with_reducible assumption
    | with_reducible exact Touches.refl _ _
    | (apply Touches.andThen (qs := [.ctxs]); with_reducible exact touches_modStream _ _ _ _)
    | (apply Touches.andThen (qs := [.cores, .ctxs]); with_reducible exact touches_pump _ _ _)
    | extract_lets
    | split
    | decide
    | dsimp +zetaDelta only

theorem touches_passStart (s : State) (core : Nat) : Touches [.cores, .ctxs] s (passStart s core) := by
  unfold passStart
  repeat' first
    | with_reducible assumption
    | with_reducible exact Touches.refl _ _
    | (apply Touches.andThen (qs := [.cores, .ctxs]); with_reducible exact touches_startPass _ _)
    | split
    | decide

theorem touches_stagingFill (s : State) (core : Nat) : Touches [.cores] s (stagingFill s core) := by
  unfold stagingFill
  repeat' first
    | with_reducible assumption
    | with_reducible exact Touches.refl _ _
    | (apply Touches.andThen (qs := [.cores]); with_reducible exact touches_modCore _ _ _)
    | extract_lets
    | split
    | decide
    | dsimp +zetaDelta only

theorem touches_stagingFillDone (s : State) (core : Nat) : Touches [.cores] s (stagingFillDone s core) := by
  unfold stagingFillDone
  repeat' first
    | with_reducible assumption
    | with_reducible exact Touches.refl _ _
    | (apply Touches.andThen (qs := [.cores]); with_reducible exact touches_modCore _ _ _)
    | extract_lets
    | split
    | decide
    | dsimp +zetaDelta only

theorem touches_gatherIndex (s : State) (core : Nat) : Touches [.cores, .tiers, .ctxs] s (gatherIndex s core) := by
  unfold gatherIndex
  repeat' first
    | with_reducible assumption
    | with_reducible exact Touches.refl _ _
    | (apply Touches.andThen (qs := [.cores]); with_reducible exact touches_modCore _ _ _)
    | (apply Touches.andThen (qs := [.cores, .tiers, .ctxs]); with_reducible exact touches_addressFault _ _ _)
    | (apply Touches.andThen (qs := [.cores]); with_reducible exact touches_beginOut _ _ _ _)
    | (apply Touches.andThen (qs := [.cores]); with_reducible exact touches_putVals _ _ _ _ _ _)
    | (apply Touches.andThen (qs := [.cores, .ctxs]); with_reducible exact touches_releaseIn _ _ _)
    | (apply Touches.andThen (qs := [.cores, .ctxs]); with_reducible exact touches_passEmpty _ _ _ _ _ _ _)
    | extract_lets
    | split
    | decide
    | dsimp +zetaDelta only

theorem touches_routeTensor (s : State) (core : Nat) : Touches [.cores, .ctxs] s (routeTensor s core) := by
  unfold routeTensor
  repeat' first
    | with_reducible assumption
    | with_reducible exact Touches.refl _ _
    | (apply Touches.andThen (qs := [.cores]); with_reducible exact touches_modCore _ _ _)
    | (apply Touches.andThen (qs := [.cores]); with_reducible exact touches_beginOut _ _ _ _)
    | (apply Touches.andThen (qs := [.cores, .ctxs]); with_reducible exact touches_releaseIn _ _ _)
    | extract_lets
    | split
    | decide
    | (with_reducible refine Touches.foldl ?_ ?_; intro _ _)
    | dsimp +zetaDelta only

theorem touches_vectorElement (s : State) (core : Nat) : Touches [.cores, .tiers, .ctxs] s (vectorElement s core) := by
  unfold vectorElement
  repeat' first
    | with_reducible assumption
    | with_reducible exact Touches.refl _ _
    | (apply Touches.andThen (qs := [.cores]); with_reducible exact touches_modCore _ _ _)
    | (apply Touches.andThen (qs := [.cores, .tiers, .ctxs]); with_reducible exact touches_addressFault _ _ _)
    | (apply Touches.andThen (qs := [.cores]); with_reducible exact touches_beginOut _ _ _ _)
    | (apply Touches.andThen (qs := [.cores]); with_reducible exact touches_putVals _ _ _ _ _ _)
    | (apply Touches.andThen (qs := [.cores, .ctxs]); with_reducible exact touches_releaseIn _ _ _)
    | (apply Touches.andThen (qs := [.cores, .ctxs]); with_reducible exact touches_passEmpty _ _ _ _ _ _ _)
    | extract_lets
    | split
    | decide
    | (with_reducible refine Touches.foldl ?_ ?_; intro _ _)
    | dsimp +zetaDelta only

end Sys2Proof.Machine
end

