-- ==== Sys2Proof/Laws/TouchTree.lean ====
section
/-!
SUPPORT. What each operation of Machine/Tree.lean touches.
-/

set_option linter.unusedTactic false
set_option linter.unreachableTactic false

namespace Sys2Proof.Machine

theorem touches_modNode (s : State) (c n : Nat) (f : TreeNode → TreeNode) : Touches [.ctxs] s (State.modNode s c n f) := by
  unfold State.modNode
  repeat' first
    | with_reducible assumption
    | with_reducible exact Touches.refl _ _
    | (apply Touches.andThen (qs := [.ctxs]); with_reducible exact touches_modCtx _ _ _)
    | decide

theorem touches_treeTake (s : State) (c node k : Nat) (w : SWord) : Touches [.ctxs] s (treeTake s c node k w) := by
  unfold treeTake
  repeat' first
    | with_reducible assumption
    | with_reducible exact Touches.refl _ _
    | (apply Touches.andThen (qs := [.ctxs]); with_reducible exact touches_modNode _ _ _ _)
    | extract_lets
    | split
    | decide
    | dsimp +zetaDelta only

theorem touches_rootEmit (s : State) (c node : Nat) : Touches [.cores, .ctxs] s (rootEmit s c node) := by
  unfold rootEmit
  repeat' first
    | with_reducible assumption
    | with_reducible exact Touches.refl _ _
    | (apply Touches.andThen (qs := [.ctxs]); with_reducible exact touches_contextFault _ _ _)
    | (apply Touches.andThen (qs := [.cores, .ctxs]); with_reducible exact touches_streamPush _ _ _ _ _ _ _)
    | (apply Touches.andThen (qs := [.ctxs]); with_reducible exact touches_modNode _ _ _ _)
    | extract_lets
    | split
    | decide
    | refine Touches.ofPair (by with_reducible assumption) ?_
    | refine Touches.ofPairSnd (by with_reducible assumption) ?_
    | refine Touches.ofTriple (by with_reducible assumption) ?_
    | dsimp +zetaDelta only

theorem touches_treeNode (s : State) (c node : Nat) : Touches [.cores, .ctxs] s (treeNode s c node) := by
  unfold treeNode
  repeat' first
    | with_reducible assumption
    | with_reducible exact Touches.refl _ _
    | (apply Touches.andThen (qs := [.ctxs]); with_reducible exact touches_modNode _ _ _ _)
    | (apply Touches.andThen (qs := [.cores, .ctxs]); with_reducible exact touches_rootEmit _ _ _)
    | extract_lets
    | split
    | decide
    | (with_reducible refine Touches.foldl ?_ ?_; intro _ _)
    | dsimp +zetaDelta only

end Sys2Proof.Machine
end

