-- ==== Sys2Proof/Laws/TouchStall.lean ====
section
/-!
SUPPORT. What each operation of Machine/Stall.lean touches.
-/

set_option linter.unusedTactic false
set_option linter.unreachableTactic false

namespace Sys2Proof.Machine

theorem touches_stallCycle (s : State) (core : Nat) (advanced : Bool) (timed : BitVec 12) : Touches [.cores] s (stallCycle s core advanced timed) := by
  unfold stallCycle
  repeat' first
    | with_reducible assumption
    | with_reducible exact Touches.refl _ _
    | (apply Touches.andThen (qs := [.cores]); with_reducible exact touches_modCore _ _ _)
    | extract_lets
    | split
    | decide
    | dsimp +zetaDelta only

theorem touches_wedge (s : State) (core : Nat) : Touches [.cores, .shelves] s (wedge s core) := by
  unfold wedge
  repeat' first
    | with_reducible assumption
    | with_reducible exact Touches.refl _ _
    | (apply Touches.andThen (qs := [.cores]); with_reducible exact touches_modCore _ _ _)
    | (apply Touches.andThen (qs := [.shelves]); with_reducible exact touches_modShelf _ _ _)
    | extract_lets
    | split
    | decide
    | dsimp +zetaDelta only

theorem touches_wedgedReport (s : State) (shelf : Nat) : Touches [.shelves] s (wedgedReport s shelf) := by
  unfold wedgedReport
  repeat' first
    | with_reducible assumption
    | with_reducible exact Touches.refl _ _
    | (apply Touches.andThen (qs := [.shelves]); with_reducible exact touches_modShelf _ _ _)
    | extract_lets
    | split
    | decide
    | dsimp +zetaDelta only

theorem touches_escapeConfirm (s : State) (shelf : Nat) : Touches [.cores, .shelves, .ctxs] s (escapeConfirm s shelf) := by
  unfold escapeConfirm
  repeat' first
    | with_reducible assumption
    | with_reducible exact Touches.refl _ _
    | (apply Touches.andThen (qs := [.cores]); with_reducible exact touches_modCore _ _ _)
    | (apply Touches.andThen (qs := [.shelves]); with_reducible exact touches_modShelf _ _ _)
    | (apply Touches.andThen (qs := [.cores, .ctxs]); with_reducible exact touches_stopStage _ _ _ _)
    | (apply Touches.andThen (qs := [.ctxs]); with_reducible exact touches_modStream _ _ _ _)
    | (apply Touches.andThen (qs := [.cores, .ctxs]); with_reducible exact touches_pump _ _ _)
    | extract_lets
    | split
    | decide
    | (with_reducible refine Touches.foldl ?_ ?_; intro _ _)
    | dsimp +zetaDelta only

end Sys2Proof.Machine
end

