-- ==== Sys2Proof/Laws/TouchMemory.lean ====
section
/-!
SUPPORT. What each operation of Machine/Memory.lean touches.
-/

set_option linter.unusedTactic false
set_option linter.unreachableTactic false

namespace Sys2Proof.Machine

theorem touches_modMemSys (s : State) (f : MemSys → MemSys) (h : ∀ m, (f m).mem = m.mem) :
    Touches [.granules, .tiers] s (s.modMemSys f) :=
  ⟨⟨rfl, rfl, rfl, rfl, rfl, rfl, le_refl _, rfl, by simp [State.modMemSys, h]⟩,
   by intro p hp; cases p <;> simp_all [Part.same, State.modMemSys]⟩

theorem touches_modMemTiers (s : State) (f : MemSys → MemSys)
    (h : ∀ m, (f m).mem = m.mem ∧ (f m).granules = m.granules) : Touches [.tiers] s (s.modMemSys f) :=
  ⟨⟨rfl, rfl, rfl, rfl, rfl, rfl, le_refl _, rfl, by simp [State.modMemSys, h]⟩,
   by intro p hp; cases p <;> simp_all [Part.same, State.modMemSys]⟩

theorem touches_storePoison (s : State) (w : Nat) : Touches [.bytes] s (storePoison s w) := by
  refine touches_setMem s _ fun h => ?_
  simp only [Mem.wf, Bool.and_eq_true] at *
  exact ⟨h.1, risingWf_insert _ _ h.2⟩

theorem touches_eccEvent (s : State) (w : Nat) (e : Ecc) : Touches [.cores, .shelves, .bytes, .tiers, .ctxs, .bring, .freeCtr] s (eccEvent s w e) := by
  unfold eccEvent
  repeat' first
    | with_reducible assumption
    | with_reducible exact Touches.refl _ _
    | (apply Touches.andThen (qs := [.tiers]); with_reducible exact touches_modHbm _ _ _)
    | (apply Touches.andThen (qs := [.tiers]); with_reducible exact touches_modCxl _ _ _)
    | (apply Touches.andThen (qs := [.cores, .shelves, .ctxs, .bring, .freeCtr]); with_reducible exact touches_storeEvent _ _ _)
    | (apply Touches.andThen (qs := [.bytes]); with_reducible exact touches_storePoison _ _)
    | extract_lets
    | split
    | decide
    | dsimp +zetaDelta only

theorem touches_readWord (s : State) (w : Nat) (e : Ecc) : Touches [.cores, .shelves, .bytes, .tiers, .ctxs, .bring, .freeCtr] s (readWord s w e).2.2 := by
  unfold readWord
  repeat' first
    | with_reducible assumption
    | with_reducible exact Touches.refl _ _
    | (apply Touches.andThen (qs := [.tiers]); with_reducible exact touches_modCxl _ _ _)
    | (apply Touches.andThen (qs := [.freeCtr]); with_reducible exact touches_free _ _)
    | (apply Touches.andThen (qs := [.cores, .shelves, .bytes, .tiers, .ctxs, .bring, .freeCtr]); with_reducible exact touches_eccEvent _ _ _)
    | extract_lets
    | split
    | decide
    | refine Touches.ofPair (by with_reducible assumption) ?_
    | refine Touches.ofPairSnd (by with_reducible assumption) ?_
    | refine Touches.ofTriple (by with_reducible assumption) ?_
    | dsimp +zetaDelta only

theorem touches_writeWord (s : State) (w : Nat) (v : BitVec 1024) (poison : Bool) : Touches [.bytes, .tiers] s (writeWord s w v poison) := by
  unfold writeWord
  repeat' first
    | with_reducible assumption
    | with_reducible exact Touches.refl _ _
    | (apply Touches.andThen (qs := [.tiers]); with_reducible exact touches_modHbm _ _ _)
    | (apply Touches.andThen (qs := [.tiers]); with_reducible exact touches_modCxl _ _ _)
    | (apply Touches.andThen (qs := [.bytes]); with_reducible refine touches_setMem _ _ ?_)
    | extract_lets
    | split
    | decide
    | with_reducible exact Mem.wf_setWord _ _ _ _
    | with_reducible exact Mem.wf_zeroRange _ _ _
    | with_reducible exact Mem.wf_writeNat _ _ _ _
    | with_reducible exact Mem.wf_undoWrites _ _
    | dsimp +zetaDelta only

theorem touches_writeRange (s : State) (a n v : Nat) : Touches [.bytes, .tiers] s (writeRange s a n v) := by
  unfold writeRange
  repeat' first
    | with_reducible assumption
    | with_reducible exact Touches.refl _ _
    | (apply Touches.andThen (qs := [.bytes, .tiers]); with_reducible exact touches_writeWord _ _ _ _)
    | extract_lets
    | split
    | decide
    | (with_reducible refine Touches.foldl ?_ ?_; intro _ _)
    | dsimp +zetaDelta only

theorem touches_readRange (s : State) (a n : Nat) : Touches [.freeCtr] s (readRange s a n).2 := by
  unfold readRange
  split
  · exact Touches.refl _ _
  · refine Touches.foldlSnd (t := (0, s)) (fun t _ => ?_) (Touches.refl _ _)
    dsimp only
    split
    · exact (touches_free t.2 1024).mono (by decide)
    · exact Touches.refl _ _

theorem touches_memAccess (s : State) (who : Engine) (addr : Nat) (data : Option (BitVec 1024)) (poison : Bool) (e : Ecc) : Touches [.cores, .shelves, .bytes, .tiers, .ctxs, .bring, .freeCtr] s (memAccess s who addr data poison e) := by
  unfold memAccess
  repeat' first
    | with_reducible assumption
    | with_reducible exact Touches.refl _ _
    | (apply Touches.andThen (qs := [.cores, .tiers, .ctxs]); with_reducible exact touches_addressFault _ _ _)
    | (apply Touches.andThen (qs := [.cores, .shelves, .bytes, .tiers, .ctxs, .bring, .freeCtr]); with_reducible exact touches_readWord _ _ _)
    | (apply Touches.andThen (qs := [.bytes, .tiers]); with_reducible exact touches_writeWord _ _ _ _)
    | extract_lets
    | split
    | decide
    | refine Touches.ofPair (by with_reducible assumption) ?_
    | refine Touches.ofPairSnd (by with_reducible assumption) ?_
    | refine Touches.ofTriple (by with_reducible assumption) ?_
    | dsimp +zetaDelta only

theorem touches_patrolScrub (s : State) (stack : Nat) (e : Ecc) : Touches [.bytes, .tiers] s (patrolScrub s stack e) := by
  unfold patrolScrub
  repeat' first
    | with_reducible assumption
    | with_reducible exact Touches.refl _ _
    | (apply Touches.andThen (qs := [.tiers]); with_reducible exact touches_modHbm _ _ _)
    | (apply Touches.andThen (qs := [.bytes]); with_reducible exact touches_storePoison _ _)
    | extract_lets
    | split
    | decide
    | dsimp +zetaDelta only

theorem touches_granuleFillDone (s : State) (n : Nat) : Touches [.bytes, .granules] s (granuleFillDone s n) := by
  unfold granuleFillDone
  repeat' first
    | with_reducible assumption
    | with_reducible exact Touches.refl _ _
    | (apply Touches.andThen (qs := [.granules]); with_reducible exact touches_modGranule _ _ _)
    | (apply Touches.andThen (qs := [.bytes]); with_reducible refine touches_setMem _ _ ?_)
    | extract_lets
    | split
    | decide
    | with_reducible exact Mem.wf_setWord _ _ _ _
    | with_reducible exact Mem.wf_zeroRange _ _ _
    | with_reducible exact Mem.wf_writeNat _ _ _ _
    | with_reducible exact Mem.wf_undoWrites _ _
    | dsimp +zetaDelta only

theorem touches_releaseGranule (s : State) (n : Nat) : Touches [.granules] s (releaseGranule s n) := by
  unfold releaseGranule
  repeat' first
    | with_reducible assumption
    | with_reducible exact Touches.refl _ _
    | (apply Touches.andThen (qs := [.granules]); with_reducible exact touches_modGranule _ _ _)
    | decide

theorem touches_releaseGranules (s : State) (c : Nat) : Touches [.granules] s (releaseGranules s c) := by
  unfold releaseGranules
  repeat' first
    | with_reducible assumption
    | with_reducible exact Touches.refl _ _
    | (apply Touches.andThen (qs := [.granules]); with_reducible exact touches_releaseGranule _ _)
    | decide
    | (with_reducible refine Touches.foldl ?_ ?_; intro _ _)

theorem touches_cxlWriteDurable (s : State) (port : Nat) : Touches [.tiers] s (cxlWriteDurable s port) := by
  unfold cxlWriteDurable
  repeat' first
    | with_reducible assumption
    | with_reducible exact Touches.refl _ _
    | (apply Touches.andThen (qs := [.tiers]); with_reducible exact touches_modCxl _ _ _)
    | decide

theorem touches_cxlLinkFail (s : State) (port : Nat) : Touches [.bytes, .tiers] s (cxlLinkFail s port) := by
  unfold cxlLinkFail
  repeat' first
    | with_reducible assumption
    | with_reducible exact Touches.refl _ _
    | (apply Touches.andThen (qs := [.tiers]); with_reducible exact touches_modCxl _ _ _)
    | (apply Touches.andThen (qs := [.bytes]); with_reducible refine touches_setMem _ _ ?_)
    | extract_lets
    | split
    | decide
    | with_reducible exact Mem.wf_setWord _ _ _ _
    | with_reducible exact Mem.wf_zeroRange _ _ _
    | with_reducible exact Mem.wf_writeNat _ _ _ _
    | with_reducible exact Mem.wf_undoWrites _ _
    | dsimp +zetaDelta only

theorem touches_loseAll (s : State) (ns : List Nat) : Touches [.granules, .tiers, .ctxs] s (loseAll s ns) := by
  unfold loseAll
  extract_lets hit led s1
  refine Touches.foldl (fun _ _ => (touches_contextFault _ _ _).mono (by decide)) ?_
  apply Touches.mono (touches_modMemSys _ _ _)
  · decide
  · exact fun _ => rfl

theorem touches_loseGranules (s : State) (port : Nat) : Touches [.granules, .tiers, .ctxs] s (loseGranules s port) := by
  unfold loseGranules
  repeat' first
    | with_reducible assumption
    | with_reducible exact Touches.refl _ _
    | (apply Touches.andThen (qs := [.granules, .tiers, .ctxs]); with_reducible exact touches_loseAll _ _)
    | decide

theorem touches_cxlRetrainDone (s : State) (port : Nat) (ok : Bool) : Touches [.granules, .tiers, .ctxs] s (cxlRetrainDone s port ok) := by
  unfold cxlRetrainDone
  repeat' first
    | with_reducible assumption
    | with_reducible exact Touches.refl _ _
    | (apply Touches.andThen (qs := [.tiers]); with_reducible exact touches_modCxl _ _ _)
    | (apply Touches.andThen (qs := [.granules, .tiers, .ctxs]); with_reducible exact touches_loseGranules _ _)
    | split
    | decide

theorem touches_cxlReset (s : State) (port : Nat) (supply : Bool) : Touches [.bytes, .tiers, .freeCtr] s (cxlReset s port supply) := by
  unfold cxlReset
  repeat' first
    | with_reducible assumption
    | with_reducible exact Touches.refl _ _
    | (apply Touches.andThen (qs := [.tiers]); with_reducible exact touches_modCxl _ _ _)
    | (apply Touches.andThen (qs := [.freeCtr]); with_reducible exact touches_free _ _)
    | (apply Touches.andThen (qs := [.bytes]); with_reducible refine touches_setMem _ _ ?_)
    | extract_lets
    | split
    | decide
    | refine Touches.ofPair (by with_reducible assumption) ?_
    | refine Touches.ofPairSnd (by with_reducible assumption) ?_
    | refine Touches.ofTriple (by with_reducible assumption) ?_
    | (with_reducible refine Touches.foldl ?_ ?_; intro _ _)
    | (with_reducible refine Touches.foldlPair ?_ ?_; intro _ _)
    | with_reducible exact Mem.wf_setWord _ _ _ _
    | with_reducible exact Mem.wf_zeroRange _ _ _
    | with_reducible exact Mem.wf_writeNat _ _ _ _
    | with_reducible exact Mem.wf_undoWrites _ _
    | dsimp +zetaDelta only

end Sys2Proof.Machine
end

