-- ==== Sys2Proof/Laws/TouchPrefetch.lean ====
section
/-!
SUPPORT. What each operation of Machine/Prefetch.lean touches.
-/

set_option linter.unusedTactic false
set_option linter.unreachableTactic false

namespace Sys2Proof.Machine

theorem touches_modCheck (s : State) (sh : Nat) (f : CheckUnit → CheckUnit) : Touches [.shelves] s (State.modCheck s sh f) := by
  unfold State.modCheck
  repeat' first
    | with_reducible assumption
    | with_reducible exact Touches.refl _ _
    | (apply Touches.andThen (qs := [.shelves]); with_reducible exact touches_modShelf _ _ _)
    | decide

theorem touches_PfHeld_put (s : State) (sh d : Nat) (p : PfHeld) : Touches [.shelves] s (PfHeld.put s sh d p) := by
  unfold PfHeld.put
  repeat' first
    | with_reducible assumption
    | with_reducible exact Touches.refl _ _
    | (apply Touches.andThen (qs := [.shelves]); with_reducible exact touches_modShelf _ _ _)
    | decide

theorem touches_stopEnd (s : State) (c : Nat) (cores : List Nat) (n : StopName) (addr : Nat) : Touches [.cores, .tiers, .ctxs] s (stopEnd s c cores n addr) := by
  unfold stopEnd
  repeat' first
    | with_reducible assumption
    | with_reducible exact Touches.refl _ _
    | (apply Touches.andThen (qs := [.ctxs]); with_reducible exact touches_contextFault _ _ _)
    | (apply Touches.andThen (qs := [.cores, .ctxs]); with_reducible exact touches_stopStage _ _ _ _)
    | (apply Touches.andThen (qs := [.cores, .tiers, .ctxs]); with_reducible exact touches_addressFault _ _ _)
    | (apply Touches.andThen (qs := [.tiers]); with_reducible exact touches_modMemTiers _ _ fun _ => ⟨rfl, rfl⟩)
    | extract_lets
    | split
    | decide
    | refine Touches.ofPair (by with_reducible assumption) ?_
    | refine Touches.ofPairSnd (by with_reducible assumption) ?_
    | refine Touches.ofTriple (by with_reducible assumption) ?_
    | (with_reducible refine Touches.foldl ?_ ?_; intro _ _)
    | exact fun _ => rfl
    | dsimp +zetaDelta only

theorem touches_readEmit (s : State) (p : PfHeld) (w : SWord) : Touches [.cores, .tiers, .ctxs] s (readEmit s p w).1 := by
  unfold readEmit
  repeat' first
    | with_reducible assumption
    | with_reducible exact Touches.refl _ _
    | (apply Touches.andThen (qs := [.ctxs]); with_reducible exact touches_modStream _ _ _ _)
    | (apply Touches.andThen (qs := [.cores, .ctxs]); with_reducible exact touches_pump _ _ _)
    | (apply Touches.andThen (qs := [.ctxs]); with_reducible exact touches_streamAppend _ _ _ _ _)
    | (apply Touches.andThen (qs := [.cores, .ctxs]); with_reducible exact touches_streamPush _ _ _ _ _ _ _)
    | (apply Touches.andThen (qs := [.cores, .tiers, .ctxs]); with_reducible exact touches_stopEnd _ _ _ _ _)
    | extract_lets
    | split
    | decide
    | refine Touches.ofPair (by with_reducible assumption) ?_
    | refine Touches.ofPairSnd (by with_reducible assumption) ?_
    | refine Touches.ofTriple (by with_reducible assumption) ?_
    | dsimp +zetaDelta only

theorem touches_slotCheck (s : State) (sh d : Nat) (p : PfHeld) (h : THdr) (bad : Bool) (base : Nat) : Touches [.shelves] s (slotCheck s sh d p h bad base).2 := by
  unfold slotCheck
  repeat' first
    | with_reducible assumption
    | with_reducible exact Touches.refl _ _
    | (apply Touches.andThen (qs := [.shelves]); with_reducible exact touches_modCheck _ _ _)
    | extract_lets
    | split
    | decide
    | dsimp +zetaDelta only

theorem touches_slotRead (s : State) (sh : Nat) (p : PfHeld) (last : Bool) : Touches [.shelves] s (slotRead s sh p last) := by
  unfold slotRead
  repeat' first
    | with_reducible assumption
    | with_reducible exact Touches.refl _ _
    | (apply Touches.andThen (qs := [.shelves]); with_reducible exact touches_PfHeld_put _ _ _ _)
    | split
    | decide

theorem touches_readTurn (s : State) (sh d : Nat) (p : PfHeld) (e : Ecc) : Touches [.cores, .shelves, .bytes, .tiers, .ctxs, .bring, .freeCtr] s (readTurn s sh d p e) := by
  unfold readTurn
  repeat' first
    | with_reducible assumption
    | with_reducible exact Touches.refl _ _
    | (apply Touches.andThen (qs := [.shelves]); with_reducible exact touches_modShelf _ _ _)
    | (apply Touches.andThen (qs := [.cores, .shelves, .bytes, .tiers, .ctxs, .bring, .freeCtr]); with_reducible exact touches_readWord _ _ _)
    | (apply Touches.andThen (qs := [.shelves]); with_reducible exact touches_modCheck _ _ _)
    | (apply Touches.andThen (qs := [.shelves]); with_reducible exact touches_PfHeld_put _ _ _ _)
    | (apply Touches.andThen (qs := [.cores, .tiers, .ctxs]); with_reducible exact touches_stopEnd _ _ _ _ _)
    | (apply Touches.andThen (qs := [.cores, .tiers, .ctxs]); with_reducible exact touches_readEmit _ _ _)
    | (apply Touches.andThen (qs := [.shelves]); with_reducible exact touches_slotCheck _ _ _ _ _ _ _)
    | (apply Touches.andThen (qs := [.shelves]); with_reducible exact touches_slotRead _ _ _ _)
    | extract_lets
    | split
    | decide
    | refine Touches.ofPair (by with_reducible assumption) ?_
    | refine Touches.ofPairSnd (by with_reducible assumption) ?_
    | refine Touches.ofTriple (by with_reducible assumption) ?_
    | dsimp +zetaDelta only

theorem touches_writeCheck (s : State) (sh d : Nat) (p : PfHeld) (h : THdr) (ok : Bool) : Touches [.shelves, .bytes, .tiers] s (writeCheck s sh d p h ok) := by
  unfold writeCheck
  repeat' first
    | with_reducible assumption
    | with_reducible exact Touches.refl _ _
    | (apply Touches.andThen (qs := [.bytes, .tiers]); with_reducible exact touches_writeWord _ _ _ _)
    | (apply Touches.andThen (qs := [.shelves]); with_reducible exact touches_modCheck _ _ _)
    | extract_lets
    | split
    | decide
    | dsimp +zetaDelta only

theorem touches_writeTurn (s : State) (sh d k : Nat) (p : PfHeld) (r : StreamRec) (w : SWord) : Touches [.cores, .shelves, .bytes, .tiers, .ctxs] s (writeTurn s sh d k p r w) := by
  unfold writeTurn
  repeat' first
    | with_reducible assumption
    | with_reducible exact Touches.refl _ _
    | (apply Touches.andThen (qs := [.shelves]); with_reducible exact touches_modShelf _ _ _)
    | (apply Touches.andThen (qs := [.cores, .ctxs]); with_reducible exact touches_popWord _ _ _ _)
    | (apply Touches.andThen (qs := [.bytes, .tiers]); with_reducible exact touches_writeWord _ _ _ _)
    | (apply Touches.andThen (qs := [.shelves]); with_reducible exact touches_modCheck _ _ _)
    | (apply Touches.andThen (qs := [.shelves]); with_reducible exact touches_PfHeld_put _ _ _ _)
    | (apply Touches.andThen (qs := [.cores, .tiers, .ctxs]); with_reducible exact touches_stopEnd _ _ _ _ _)
    | (apply Touches.andThen (qs := [.shelves, .bytes, .tiers]); with_reducible exact touches_writeCheck _ _ _ _ _ _)
    | extract_lets
    | split
    | decide
    | dsimp +zetaDelta only

theorem touches_cutWrites (s : State) (c : Nat) : Touches [.shelves, .bytes, .tiers] s (cutWrites s c) := by
  unfold cutWrites
  repeat' first
    | with_reducible assumption
    | with_reducible exact Touches.refl _ _
    | (apply Touches.andThen (qs := [.shelves]); with_reducible exact touches_PfHeld_put _ _ _ _)
    | (apply Touches.andThen (qs := [.shelves, .bytes, .tiers]); with_reducible exact touches_writeCheck _ _ _ _ _ _)
    | split
    | decide
    | (with_reducible refine Touches.foldl ?_ ?_; intro _ _)

theorem touches_takeRequest (s : State) (sh : Nat) : Touches [.shelves] s (takeRequest s sh) := by
  unfold takeRequest
  repeat' first
    | with_reducible assumption
    | with_reducible exact Touches.refl _ _
    | (apply Touches.andThen (qs := [.shelves]); with_reducible exact touches_modShelf _ _ _)
    | extract_lets
    | split
    | decide
    | dsimp +zetaDelta only

theorem touches_fillTurn (s : State) (sh core : Nat) (area : Nat) (g : Staging) (e : Ecc) : Touches [.cores, .shelves, .bytes, .tiers, .ctxs, .bring, .freeCtr] s (fillTurn s sh core area g e) := by
  unfold fillTurn
  repeat' first
    | with_reducible assumption
    | with_reducible exact Touches.refl _ _
    | (apply Touches.andThen (qs := [.cores]); with_reducible exact touches_modCore _ _ _)
    | (apply Touches.andThen (qs := [.shelves]); with_reducible exact touches_modShelf _ _ _)
    | (apply Touches.andThen (qs := [.cores, .tiers, .ctxs]); with_reducible exact touches_addressFault _ _ _)
    | (apply Touches.andThen (qs := [.cores, .shelves, .bytes, .tiers, .ctxs, .bring, .freeCtr]); with_reducible exact touches_readWord _ _ _)
    | extract_lets
    | split
    | decide
    | refine Touches.ofPair (by with_reducible assumption) ?_
    | refine Touches.ofPairSnd (by with_reducible assumption) ?_
    | refine Touches.ofTriple (by with_reducible assumption) ?_
    | dsimp +zetaDelta only

theorem touches_serveRequest (s : State) (sh : Nat) (q : PfReq) (e : Ecc) : Touches [.cores, .shelves, .bytes, .tiers, .ctxs, .bring, .freeCtr] s (serveRequest s sh q e) := by
  unfold serveRequest
  repeat' first
    | with_reducible assumption
    | with_reducible exact Touches.refl _ _
    | (apply Touches.andThen (qs := [.cores, .shelves, .bytes, .tiers, .ctxs, .bring, .freeCtr]); with_reducible exact touches_readTurn _ _ _ _ _)
    | (apply Touches.andThen (qs := [.cores, .shelves, .bytes, .tiers, .ctxs]); with_reducible exact touches_writeTurn _ _ _ _ _ _ _)
    | (apply Touches.andThen (qs := [.cores, .shelves, .bytes, .tiers, .ctxs, .bring, .freeCtr]); with_reducible exact touches_fillTurn _ _ _ _ _ _)
    | split
    | decide

theorem touches_prefetchTurn (s : State) (sh : Nat) (e : Ecc) : Touches [.cores, .shelves, .bytes, .tiers, .ctxs, .bring, .freeCtr] s (prefetchTurn s sh e) := by
  unfold prefetchTurn
  repeat' first
    | with_reducible assumption
    | with_reducible exact Touches.refl _ _
    | (apply Touches.andThen (qs := [.shelves]); with_reducible exact touches_modShelf _ _ _)
    | (apply Touches.andThen (qs := [.shelves]); with_reducible exact touches_takeRequest _ _)
    | (apply Touches.andThen (qs := [.cores, .shelves, .bytes, .tiers, .ctxs, .bring, .freeCtr]); with_reducible exact touches_serveRequest _ _ _ _)
    | extract_lets
    | split
    | decide
    | dsimp +zetaDelta only

end Sys2Proof.Machine
end

