-- ==== Sys2Proof/Laws/TouchUpdate.lean ====
section
/-!
SUPPORT. What each operation of Machine/Update.lean touches.
-/

set_option linter.unusedTactic false
set_option linter.unreachableTactic false

namespace Sys2Proof.Machine

theorem touches_write32s (s : State) (a : Nat) (vs : List (BitVec 32 × Bool)) : Touches [.bytes, .tiers] s (write32s s a vs) := by
  unfold write32s
  repeat' first
    | with_reducible assumption
    | with_reducible exact Touches.refl _ _
    | (apply Touches.andThen (qs := [.bytes, .tiers]); with_reducible exact touches_writeWord _ _ _ _)
    | decide
    | (with_reducible refine Touches.foldl ?_ ?_; intro _ _)

theorem touches_setShardT (s : State) (e : LayerEnt) (t : Nat) : Touches [.bytes, .tiers] s (setShardT s e t) := by
  unfold setShardT
  repeat' first
    | with_reducible assumption
    | with_reducible exact Touches.refl _ _
    | (apply Touches.andThen (qs := [.bytes, .tiers]); with_reducible exact touches_writeWord _ _ _ _)
    | extract_lets
    | decide
    | dsimp +zetaDelta only

theorem touches_writeStored (s : State) (e : LayerEnt) (scale : F32) (use : Nat) (cs : List (Nat × Bool)) : Touches [.bytes, .tiers] s (writeStored s e scale use cs) := by
  unfold writeStored
  repeat' first
    | with_reducible assumption
    | with_reducible exact Touches.refl _ _
    | (apply Touches.andThen (qs := [.bytes, .tiers]); with_reducible exact touches_writeWord _ _ _ _)
    | extract_lets
    | split
    | decide
    | (with_reducible refine Touches.foldl ?_ ?_; intro _ _)
    | dsimp +zetaDelta only

theorem touches_writeTiled (s : State) (e : LayerEnt) (cs : List (Nat × Bool)) : Touches [.bytes, .tiers] s (writeTiled s e cs) := by
  unfold writeTiled
  repeat' first
    | with_reducible assumption
    | with_reducible exact Touches.refl _ _
    | (apply Touches.andThen (qs := [.bytes, .tiers]); with_reducible exact touches_writeWord _ _ _ _)
    | extract_lets
    | split
    | decide
    | (with_reducible refine Touches.foldl ?_ ?_; intro _ _)
    | dsimp +zetaDelta only

theorem touches_modUpd (s : State) (core : Nat) (f : UpdateUnit → UpdateUnit) : Touches [.cores] s (modUpd s core f) := by
  unfold modUpd
  repeat' first
    | with_reducible assumption
    | with_reducible exact Touches.refl _ _
    | (apply Touches.andThen (qs := [.cores]); with_reducible exact touches_modCore _ _ _)
    | decide

theorem touches_stopAll (s : State) (ms : List Nat) (n : StopName) : Touches [.cores, .ctxs] s (stopAll s ms n) := by
  unfold stopAll
  repeat' first
    | with_reducible assumption
    | with_reducible exact Touches.refl _ _
    | (apply Touches.andThen (qs := [.cores]); with_reducible exact touches_modCore _ _ _)
    | (apply Touches.andThen (qs := [.cores, .ctxs]); with_reducible exact touches_stopStage _ _ _ _)
    | split
    | decide
    | (with_reducible refine Touches.foldl ?_ ?_; intro _ _)

theorem touches_layerDone (s : State) (ms : List Nat) (consume : Bool) : Touches [.cores, .ctxs] s (layerDone s ms consume) := by
  unfold layerDone
  repeat' first
    | with_reducible assumption
    | with_reducible exact Touches.refl _ _
    | (apply Touches.andThen (qs := [.cores, .ctxs]); with_reducible exact touches_releaseIn _ _ _)
    | (apply Touches.andThen (qs := [.cores]); with_reducible exact touches_modUpd _ _ _)
    | split
    | decide
    | (with_reducible refine Touches.foldl ?_ ?_; intro _ _)

theorem touches_storeMember (s : State) (m : Nat) (e : LayerEnt) (b : Blob) (log32 : Bool) (lr : F32) (t : Nat) (es : List UElem) : Touches [.cores, .bytes, .tiers] s (storeMember s m e b log32 lr t es) := by
  unfold storeMember
  repeat' first
    | with_reducible assumption
    | with_reducible exact Touches.refl _ _
    | (apply Touches.andThen (qs := [.bytes, .tiers]); with_reducible exact touches_write32s _ _ _)
    | (apply Touches.andThen (qs := [.bytes, .tiers]); with_reducible exact touches_setShardT _ _ _)
    | (apply Touches.andThen (qs := [.bytes, .tiers]); with_reducible exact touches_writeStored _ _ _ _ _)
    | (apply Touches.andThen (qs := [.bytes, .tiers]); with_reducible exact touches_writeTiled _ _ _)
    | (apply Touches.andThen (qs := [.cores]); with_reducible exact touches_modUpd _ _ _)
    | extract_lets
    | split
    | decide
    | dsimp +zetaDelta only

theorem touches_layerUpdate (s : State) (core : Nat) : Touches [.cores, .bytes, .tiers, .ctxs] s (layerUpdate s core) := by
  unfold layerUpdate
  repeat' first
    | with_reducible assumption
    | with_reducible exact Touches.refl _ _
    | (apply Touches.andThen (qs := [.cores, .tiers, .ctxs]); with_reducible exact touches_addressFault _ _ _)
    | (apply Touches.andThen (qs := [.bytes, .tiers]); with_reducible exact touches_setShardT _ _ _)
    | (apply Touches.andThen (qs := [.cores]); with_reducible exact touches_modUpd _ _ _)
    | (apply Touches.andThen (qs := [.cores, .ctxs]); with_reducible exact touches_stopAll _ _ _)
    | (apply Touches.andThen (qs := [.cores, .ctxs]); with_reducible exact touches_layerDone _ _ _)
    | (apply Touches.andThen (qs := [.cores, .bytes, .tiers]); with_reducible exact touches_storeMember _ _ _ _ _ _ _ _)
    | extract_lets
    | split
    | decide
    | (with_reducible refine Touches.foldl ?_ ?_; intro _ _)
    | dsimp +zetaDelta only

theorem touches_lossTensor (s : State) (core : Nat) : Touches [.cores, .ctxs] s (lossTensor s core) := by
  unfold lossTensor
  repeat' first
    | with_reducible assumption
    | with_reducible exact Touches.refl _ _
    | (apply Touches.andThen (qs := [.cores]); with_reducible exact touches_modCore _ _ _)
    | (apply Touches.andThen (qs := [.cores, .ctxs]); with_reducible exact touches_stopStage _ _ _ _)
    | (apply Touches.andThen (qs := [.cores]); with_reducible exact touches_beginOut _ _ _ _)
    | (apply Touches.andThen (qs := [.cores, .ctxs]); with_reducible exact touches_releaseIn _ _ _)
    | (apply Touches.andThen (qs := [.cores, .ctxs]); with_reducible exact touches_passEmpty _ _ _ _ _ _ _)
    | extract_lets
    | split
    | decide
    | dsimp +zetaDelta only

end Sys2Proof.Machine
end

