-- ==== Sys2Proof/Laws/TouchShape.lean ====
section
/-!
SUPPORT. What each operation of Machine/Shape.lean touches.
-/

set_option linter.unusedTactic false
set_option linter.unreachableTactic false

namespace Sys2Proof.Machine


end Sys2Proof.Machine
end

