-- ==== Sys2Proof/Laws/TouchIntake.lean ====
section
/-!
SUPPORT. What each operation of Machine/Intake.lean touches.
-/

set_option linter.unusedTactic false
set_option linter.unreachableTactic false

namespace Sys2Proof.Machine

theorem touches_modComplex (s : State) (x : Nat) (f : Complex → Complex) : Touches [.media] s (State.modComplex s x f) := by
  unfold State.modComplex
  repeat' first
    | with_reducible assumption
    | with_reducible exact Touches.refl _ _
    | decide
    | (with_reducible refine Touches.mk' _ rfl rfl rfl ?_ ?_ ?_ ?_ ?_ ?_ rfl ?_ ?_ ?_ ?_ ?_ ?_ ?_ ?_ ?_ ?_)
    | exact Or.inr (by decide)
    | exact Or.inl rfl

theorem touches_modQueue (s : State) (x q : Nat) (f : Queue → Queue) : Touches [.media] s (State.modQueue s x q f) := by
  unfold State.modQueue
  repeat' first
    | with_reducible assumption
    | with_reducible exact Touches.refl _ _
    | (apply Touches.andThen (qs := [.media]); with_reducible exact touches_modComplex _ _ _)
    | decide

theorem touches_sendCredit (s : State) (x n : Nat) (closed : Bool) : Touches [.media, .freeCtr] s (sendCredit s x n closed) := by
  unfold sendCredit
  repeat' first
    | with_reducible assumption
    | with_reducible exact Touches.refl _ _
    | (apply Touches.andThen (qs := [.freeCtr]); with_reducible exact touches_free _ _)
    | (apply Touches.andThen (qs := [.media]); with_reducible exact touches_modComplex _ _ _)
    | (apply Touches.andThen (qs := [.media]); with_reducible exact touches_modQueue _ _ _ _)
    | extract_lets
    | decide
    | refine Touches.ofPair (by with_reducible assumption) ?_
    | refine Touches.ofPairSnd (by with_reducible assumption) ?_
    | refine Touches.ofTriple (by with_reducible assumption) ?_
    | dsimp +zetaDelta only

theorem touches_creditTimer (s : State) (x n : Nat) : Touches [.media, .freeCtr] s (creditTimer s x n) := by
  unfold creditTimer
  repeat' first
    | with_reducible assumption
    | with_reducible exact Touches.refl _ _
    | (apply Touches.andThen (qs := [.freeCtr]); with_reducible exact touches_free _ _)
    | (apply Touches.andThen (qs := [.media, .freeCtr]); with_reducible exact touches_sendCredit _ _ _ _)
    | extract_lets
    | split
    | decide
    | refine Touches.ofPair (by with_reducible assumption) ?_
    | refine Touches.ofPairSnd (by with_reducible assumption) ?_
    | refine Touches.ofTriple (by with_reducible assumption) ?_
    | dsimp +zetaDelta only

theorem touches_countCheck (s : State) (x : Nat) (r : Nat × Bool) : Touches [.media] s (countCheck s x r) := by
  unfold countCheck
  repeat' first
    | with_reducible assumption
    | with_reducible exact Touches.refl _ _
    | (apply Touches.andThen (qs := [.media]); with_reducible exact touches_modComplex _ _ _)
    | split
    | decide

theorem touches_finishDecode (s : State) (x n i : Nat) : Touches [.media] s (finishDecode s x n i) := by
  unfold finishDecode
  repeat' first
    | with_reducible assumption
    | with_reducible exact Touches.refl _ _
    | (apply Touches.andThen (qs := [.media]); with_reducible exact touches_modComplex _ _ _)
    | (apply Touches.andThen (qs := [.media]); with_reducible exact touches_modQueue _ _ _ _)
    | extract_lets
    | split
    | decide
    | dsimp +zetaDelta only

theorem touches_arriveDecoded (s : State) (x n i : Nat) : Touches [.media] s (arriveDecoded s x n i) := by
  unfold arriveDecoded
  repeat' first
    | with_reducible assumption
    | with_reducible exact Touches.refl _ _
    | (apply Touches.andThen (qs := [.media]); with_reducible exact touches_modQueue _ _ _ _)
    | (apply Touches.andThen (qs := [.media]); with_reducible exact touches_finishDecode _ _ _ _)
    | split
    | decide

theorem touches_stopQueue (s : State) (x n : Nat) (name : StopName) : Touches [.ctxs, .media] s (stopQueue s x n name) := by
  unfold stopQueue
  repeat' first
    | with_reducible assumption
    | with_reducible exact Touches.refl _ _
    | (apply Touches.andThen (qs := [.ctxs]); with_reducible exact touches_contextFault _ _ _)
    | (apply Touches.andThen (qs := [.media]); with_reducible exact touches_modQueue _ _ _ _)
    | decide

theorem touches_checkPosition (s : State) (x n i : Nat) : Touches [.media] s (checkPosition s x n i) := by
  unfold checkPosition
  repeat' first
    | with_reducible assumption
    | with_reducible exact Touches.refl _ _
    | (apply Touches.andThen (qs := [.media]); with_reducible exact touches_modQueue _ _ _ _)
    | (apply Touches.andThen (qs := [.media]); with_reducible exact touches_countCheck _ _ _)
    | (apply Touches.andThen (qs := [.media]); with_reducible exact touches_arriveDecoded _ _ _ _)
    | extract_lets
    | split
    | decide
    | dsimp +zetaDelta only

theorem touches_sampleRecord (s : State) (x : Nat) (hdr : BitVec 512) (payload : Blob) (poisoned : Bool) (info : StreamInfo) : Touches [.ctxs, .media, .freeCtr] s (sampleRecord s x hdr payload poisoned info) := by
  unfold sampleRecord
  repeat' first
    | with_reducible assumption
    | with_reducible exact Touches.refl _ _
    | (apply Touches.andThen (qs := [.freeCtr]); with_reducible exact touches_free _ _)
    | (apply Touches.andThen (qs := [.media]); with_reducible exact touches_modComplex _ _ _)
    | (apply Touches.andThen (qs := [.media]); with_reducible exact touches_modQueue _ _ _ _)
    | (apply Touches.andThen (qs := [.ctxs, .media]); with_reducible exact touches_stopQueue _ _ _ _)
    | (apply Touches.andThen (qs := [.media]); with_reducible exact touches_checkPosition _ _ _ _)
    | extract_lets
    | split
    | decide
    | refine Touches.ofPair (by with_reducible assumption) ?_
    | refine Touches.ofPairSnd (by with_reducible assumption) ?_
    | refine Touches.ofTriple (by with_reducible assumption) ?_
    | dsimp +zetaDelta only

theorem touches_substitution (s : State) (x n : Nat) : Touches [.media] s (substitution s x n) := by
  unfold substitution
  repeat' first
    | with_reducible assumption
    | with_reducible exact Touches.refl _ _
    | (apply Touches.andThen (qs := [.media]); with_reducible exact touches_modQueue _ _ _ _)
    | (apply Touches.andThen (qs := [.media]); with_reducible exact touches_checkPosition _ _ _ _)
    | extract_lets
    | split
    | decide
    | dsimp +zetaDelta only

theorem touches_decodeStart (s : State) (x n i : Nat) (yields : Decoded) (waited : BitVec 48) : Touches [.media] s (decodeStart s x n i yields waited) := by
  unfold decodeStart
  repeat' first
    | with_reducible assumption
    | with_reducible exact Touches.refl _ _
    | (apply Touches.andThen (qs := [.media]); with_reducible exact touches_modQueue _ _ _ _)
    | (apply Touches.andThen (qs := [.media]); with_reducible exact touches_arriveDecoded _ _ _ _)
    | extract_lets
    | split
    | decide
    | dsimp +zetaDelta only

theorem touches_queueEmit (s : State) (x n e : Nat) (fmt : Nat) (scale : F32) (t : OutTensor) : Touches [.cores, .ctxs, .media] s (queueEmit s x n e fmt scale t) := by
  unfold queueEmit
  repeat' first
    | with_reducible assumption
    | with_reducible exact Touches.refl _ _
    | (apply Touches.andThen (qs := [.cores, .ctxs]); with_reducible exact touches_streamPush _ _ _ _ _ _ _)
    | (apply Touches.andThen (qs := [.media]); with_reducible exact touches_modQueue _ _ _ _)
    | (apply Touches.andThen (qs := [.ctxs, .media]); with_reducible exact touches_stopQueue _ _ _ _)
    | extract_lets
    | split
    | decide
    | refine Touches.ofPair (by with_reducible assumption) ?_
    | refine Touches.ofPairSnd (by with_reducible assumption) ?_
    | refine Touches.ofTriple (by with_reducible assumption) ?_
    | dsimp +zetaDelta only

theorem touches_consumeHead (s : State) (x n : Nat) (cause kind : Nat) : Touches [.cores, .ctxs, .media] s (consumeHead s x n cause kind) := by
  unfold consumeHead
  repeat' first
    | with_reducible assumption
    | with_reducible exact Touches.refl _ _
    | (apply Touches.andThen (qs := [.media]); with_reducible exact touches_modQueue _ _ _ _)
    | (apply Touches.andThen (qs := [.cores, .ctxs, .media]); with_reducible exact touches_queueEmit _ _ _ _ _ _ _)
    | extract_lets
    | split
    | decide
    | dsimp +zetaDelta only

theorem touches_decodeDone (s : State) (x n i : Nat) : Touches [.cores, .ctxs, .media, .freeCtr] s (decodeDone s x n i) := by
  unfold decodeDone
  repeat' first
    | with_reducible assumption
    | with_reducible exact Touches.refl _ _
    | (apply Touches.andThen (qs := [.media, .freeCtr]); with_reducible exact touches_sendCredit _ _ _ _)
    | (apply Touches.andThen (qs := [.media]); with_reducible exact touches_finishDecode _ _ _ _)
    | (apply Touches.andThen (qs := [.cores, .ctxs, .media]); with_reducible exact touches_consumeHead _ _ _ _ _)
    | extract_lets
    | split
    | decide
    | dsimp +zetaDelta only

theorem touches_intakeTensorEmit (s : State) (x n : Nat) : Touches [.cores, .ctxs, .media] s (intakeTensorEmit s x n) := by
  unfold intakeTensorEmit
  repeat' first
    | with_reducible assumption
    | with_reducible exact Touches.refl _ _
    | (apply Touches.andThen (qs := [.media]); with_reducible exact touches_modQueue _ _ _ _)
    | (apply Touches.andThen (qs := [.cores, .ctxs, .media]); with_reducible exact touches_queueEmit _ _ _ _ _ _ _)
    | (apply Touches.andThen (qs := [.cores, .ctxs, .media]); with_reducible exact touches_consumeHead _ _ _ _ _)
    | extract_lets
    | split
    | decide
    | dsimp +zetaDelta only

theorem touches_lateCorrupt (s : State) (x n : Nat) : Touches [.cores, .ctxs, .media] s (lateCorrupt s x n) := by
  unfold lateCorrupt
  repeat' first
    | with_reducible assumption
    | with_reducible exact Touches.refl _ _
    | (apply Touches.andThen (qs := [.media]); with_reducible exact touches_modQueue _ _ _ _)
    | (apply Touches.andThen (qs := [.cores, .ctxs, .media]); with_reducible exact touches_queueEmit _ _ _ _ _ _ _)
    | (apply Touches.andThen (qs := [.cores, .ctxs, .media]); with_reducible exact touches_consumeHead _ _ _ _ _)
    | extract_lets
    | split
    | decide
    | dsimp +zetaDelta only

theorem touches_cropStart (s : State) (a b : F32) (crop n : Nat) : Touches [.freeCtr] s (cropStart s a b crop n).2 := by
  unfold cropStart
  repeat' first
    | with_reducible assumption
    | with_reducible exact Touches.refl _ _
    | (apply Touches.andThen (qs := [.freeCtr]); with_reducible exact touches_free _ _)
    | extract_lets
    | split
    | decide
    | refine Touches.ofPair (by with_reducible assumption) ?_
    | refine Touches.ofPairSnd (by with_reducible assumption) ?_
    | refine Touches.ofTriple (by with_reducible assumption) ?_
    | dsimp +zetaDelta only

theorem touches_roiSetTake (s : State) (x n : Nat) (waited : BitVec 48) : Touches [.cores, .ctxs, .media, .freeCtr] s (roiSetTake s x n waited) := by
  unfold roiSetTake
  repeat' first
    | with_reducible assumption
    | with_reducible exact Touches.refl _ _
    | (apply Touches.andThen (qs := [.cores, .ctxs]); with_reducible exact touches_popWord _ _ _ _)
    | (apply Touches.andThen (qs := [.media]); with_reducible exact touches_modQueue _ _ _ _)
    | (apply Touches.andThen (qs := [.ctxs, .media]); with_reducible exact touches_stopQueue _ _ _ _)
    | (apply Touches.andThen (qs := [.cores, .ctxs, .media]); with_reducible exact touches_queueEmit _ _ _ _ _ _ _)
    | (apply Touches.andThen (qs := [.freeCtr]); with_reducible exact touches_cropStart _ _ _ _ _)
    | extract_lets
    | split
    | decide
    | refine Touches.ofPair (by with_reducible assumption) ?_
    | refine Touches.ofPairSnd (by with_reducible assumption) ?_
    | refine Touches.ofTriple (by with_reducible assumption) ?_
    | (with_reducible refine Touches.foldl ?_ ?_; intro _ _)
    | (with_reducible refine Touches.foldlPair ?_ ?_; intro _ _)
    | dsimp +zetaDelta only

theorem touches_openQueue (s : State) (ctx x n : Nat) (d : Blob) : Touches [.media, .freeCtr] s (openQueue s ctx x n d) := by
  unfold openQueue
  repeat' first
    | with_reducible assumption
    | with_reducible exact Touches.refl _ _
    | (apply Touches.andThen (qs := [.media]); with_reducible exact touches_modComplex _ _ _)
    | (apply Touches.andThen (qs := [.media]); with_reducible exact touches_modQueue _ _ _ _)
    | (apply Touches.andThen (qs := [.media, .freeCtr]); with_reducible exact touches_sendCredit _ _ _ _)
    | extract_lets
    | split
    | decide
    | dsimp +zetaDelta only

theorem touches_closeQueue (s : State) (x n : Nat) (clear : Bool) : Touches [.media, .freeCtr] s (closeQueue s x n clear) := by
  unfold closeQueue
  repeat' first
    | with_reducible assumption
    | with_reducible exact Touches.refl _ _
    | (apply Touches.andThen (qs := [.media]); with_reducible exact touches_modComplex _ _ _)
    | (apply Touches.andThen (qs := [.media]); with_reducible exact touches_modQueue _ _ _ _)
    | (apply Touches.andThen (qs := [.media, .freeCtr]); with_reducible exact touches_sendCredit _ _ _ _)
    | extract_lets
    | split
    | decide
    | dsimp +zetaDelta only

theorem touches_closeQueues (s : State) (ctx : Nat) (clear : Bool) : Touches [.media, .freeCtr] s (closeQueues s ctx clear) := by
  unfold closeQueues
  repeat' first
    | with_reducible assumption
    | with_reducible exact Touches.refl _ _
    | (apply Touches.andThen (qs := [.media]); with_reducible exact touches_modComplex _ _ _)
    | (apply Touches.andThen (qs := [.media, .freeCtr]); with_reducible exact touches_closeQueue _ _ _ _)
    | extract_lets
    | split
    | decide
    | (with_reducible refine Touches.foldl ?_ ?_; intro _ _)
    | dsimp +zetaDelta only

end Sys2Proof.Machine
end

