-- ==== Sys2Proof/Laws/TouchCipher.lean ====
section
/-!
SUPPORT. What each operation of Machine/Cipher.lean touches.
-/

set_option linter.unusedTactic false
set_option linter.unreachableTactic false

namespace Sys2Proof.Machine


end Sys2Proof.Machine
end

