-- ==== Sys2Proof/Laws/TouchKeys.lean ====
section
/-!
SUPPORT. What each operation of Machine/Keys.lean touches.
-/

set_option linter.unusedTactic false
set_option linter.unreachableTactic false

namespace Sys2Proof.Machine

theorem fuses_want (x : Sec) (k : KeyId) (v : BitVec 256) (u : Bool) : (x.want k v u).serial = x.serial ∧
    (x.want k v u).siliconRev = x.siliconRev ∧ (x.want k v u).lifecycle = x.lifecycle ∧
    (x.want k v u).identity = x.identity ∧ (x.want k v u).publicKey = x.publicKey ∧
    x.minSvn ≤ (x.want k v u).minSvn := by
  unfold Sec.want
  extract_lets
  split
  · exact ⟨rfl, rfl, rfl, rfl, rfl, le_refl _⟩
  · split <;> exact ⟨rfl, rfl, rfl, rfl, rfl, le_refl _⟩

theorem touches_modSec (s : State) (f : Sec → Sec) (h : ∀ x, (f x).serial = x.serial ∧ (f x).siliconRev = x.siliconRev ∧
    (f x).lifecycle = x.lifecycle ∧ (f x).identity = x.identity ∧ (f x).publicKey = x.publicKey ∧
    x.minSvn ≤ (f x).minSvn) : Touches [.sec] s (s.modSec f) :=
  ⟨⟨rfl, (h _).1, (h _).2.1, (h _).2.2.1, (h _).2.2.2.1, (h _).2.2.2.2.1, (h _).2.2.2.2.2, rfl, id⟩,
   by intro p hp; cases p <;> simp_all [Part.same, State.modSec]⟩

theorem touches_wantKey (s : State) (k : KeyId) : Touches [.sec] s (wantKey s k) := by
  unfold wantKey
  repeat' first
    | with_reducible assumption
    | with_reducible exact Touches.refl _ _
    | (apply Touches.andThen (qs := [.sec]); with_reducible refine touches_modSec _ _ ?_)
    | decide
    | (refine fun (_ : Sec) => ?_; repeat' first
        | exact ⟨rfl, rfl, rfl, rfl, rfl, le_refl _⟩
        | exact ⟨rfl, rfl, rfl, rfl, rfl, le_max_left _ _⟩
        | exact fuses_want _ _ _ _
        | split)

theorem touches_makeKey (s : State) (k : KeyId) (v : BitVec 256) : Touches [.sec] s (makeKey s k v) := by
  unfold makeKey
  repeat' first
    | with_reducible assumption
    | with_reducible exact Touches.refl _ _
    | (apply Touches.andThen (qs := [.sec]); with_reducible refine touches_modSec _ _ ?_)
    | decide
    | (refine fun (_ : Sec) => ?_; repeat' first
        | exact ⟨rfl, rfl, rfl, rfl, rfl, le_refl _⟩
        | exact ⟨rfl, rfl, rfl, rfl, rfl, le_max_left _ _⟩
        | exact fuses_want _ _ _ _
        | split)

theorem touches_freshKey (s : State) (k : KeyId) : Touches [.sec, .freeCtr] s (freshKey s k) := by
  unfold freshKey
  repeat' first
    | with_reducible assumption
    | with_reducible exact Touches.refl _ _
    | (apply Touches.andThen (qs := [.freeCtr]); with_reducible exact touches_free _ _)
    | (apply Touches.andThen (qs := [.sec]); with_reducible exact touches_makeKey _ _ _)
    | extract_lets
    | decide
    | refine Touches.ofPair (by with_reducible assumption) ?_
    | refine Touches.ofPairSnd (by with_reducible assumption) ?_
    | refine Touches.ofTriple (by with_reducible assumption) ?_
    | dsimp +zetaDelta only

theorem touches_destroyKey (s : State) (k : KeyId) : Touches [.sec] s (destroyKey s k) := by
  unfold destroyKey
  repeat' first
    | with_reducible assumption
    | with_reducible exact Touches.refl _ _
    | (apply Touches.andThen (qs := [.sec]); with_reducible refine touches_modSec _ _ ?_)
    | decide
    | (refine fun (_ : Sec) => ?_; repeat' first
        | exact ⟨rfl, rfl, rfl, rfl, rfl, le_refl _⟩
        | exact ⟨rfl, rfl, rfl, rfl, rfl, le_max_left _ _⟩
        | exact fuses_want _ _ _ _
        | split)

theorem touches_keySlotGrant (s : State) (slot : Nat) : Touches [.sec] s (keySlotGrant s slot) := by
  unfold keySlotGrant
  repeat' first
    | with_reducible assumption
    | with_reducible exact Touches.refl _ _
    | (apply Touches.andThen (qs := [.sec]); with_reducible refine touches_modSec _ _ ?_)
    | extract_lets
    | split
    | decide
    | (refine fun (_ : Sec) => ?_; repeat' first
        | exact ⟨rfl, rfl, rfl, rfl, rfl, le_refl _⟩
        | exact ⟨rfl, rfl, rfl, rfl, rfl, le_max_left _ _⟩
        | exact fuses_want _ _ _ _
        | split)
    | dsimp +zetaDelta only

end Sys2Proof.Machine
end

