-- ==== Sys2Proof/Laws/TouchLink.lean ====
section
/-!
SUPPORT. What each operation of Machine/Link.lean touches.
-/

set_option linter.unusedTactic false
set_option linter.unreachableTactic false

namespace Sys2Proof.Machine

theorem touches_modFab (s : State) (f : Fabric → Fabric) : Touches [.fab] s (State.modFab s f) := by
  unfold State.modFab
  repeat' first
    | with_reducible assumption
    | with_reducible exact Touches.refl _ _
    | decide
    | (with_reducible refine Touches.mk' _ rfl rfl rfl ?_ ?_ ?_ ?_ ?_ ?_ rfl ?_ ?_ ?_ ?_ ?_ ?_ ?_ ?_ ?_ ?_)
    | exact Or.inr (by decide)
    | exact Or.inl rfl

theorem touches_setLink (s : State) (h : Nat) (l : Link) : Touches [.fab] s (State.setLink s h l) := by
  unfold State.setLink
  repeat' first
    | with_reducible assumption
    | with_reducible exact Touches.refl _ _
    | (apply Touches.andThen (qs := [.fab]); with_reducible exact touches_modFab _ _)
    | decide

theorem touches_modLink (s : State) (h : Nat) (f : Link → Link) : Touches [.fab] s (State.modLink s h f) := by
  unfold State.modLink
  repeat' first
    | with_reducible assumption
    | with_reducible exact Touches.refl _ _
    | (apply Touches.andThen (qs := [.fab]); with_reducible exact touches_setLink _ _ _)
    | decide

theorem touches_modLinkCtr (s : State) (h : Nat) (f : LinkCtr → LinkCtr) : Touches [.fab] s (State.modLinkCtr s h f) := by
  unfold State.modLinkCtr
  repeat' first
    | with_reducible assumption
    | with_reducible exact Touches.refl _ _
    | (apply Touches.andThen (qs := [.fab]); with_reducible exact touches_modLink _ _ _)
    | decide

theorem touches_enqueue (s : State) (h vl : Nat) (p : Pkt) : Touches [.fab] s (enqueue s h vl p) := by
  unfold enqueue
  repeat' first
    | with_reducible assumption
    | with_reducible exact Touches.refl _ _
    | (apply Touches.andThen (qs := [.fab]); with_reducible exact touches_modLink _ _ _)
    | decide

theorem touches_sendMgmt (s : State) (h kind operand : Nat) (payload : Blob) : Touches [.fab] s (sendMgmt s h kind operand payload) := by
  unfold sendMgmt
  repeat' first
    | with_reducible assumption
    | with_reducible exact Touches.refl _ _
    | (apply Touches.andThen (qs := [.fab]); with_reducible exact touches_enqueue _ _ _ _)
    | extract_lets
    | decide
    | dsimp +zetaDelta only

theorem touches_floodRecord (s : State) (from' : Option Nat) (r : BitVec 1728) : Touches [.fab] s (floodRecord s from' r) := by
  unfold floodRecord
  repeat' first
    | with_reducible assumption
    | with_reducible exact Touches.refl _ _
    | (apply Touches.andThen (qs := [.fab]); with_reducible exact touches_sendMgmt _ _ _ _ _)
    | split
    | decide
    | (with_reducible refine Touches.foldl ?_ ?_; intro _ _)

theorem touches_refreshOwn (s : State) : Touches [.fab] s (refreshOwn s) := by
  unfold refreshOwn
  repeat' first
    | with_reducible assumption
    | with_reducible exact Touches.refl _ _
    | (apply Touches.andThen (qs := [.fab]); with_reducible exact touches_modFab _ _)
    | (apply Touches.andThen (qs := [.fab]); with_reducible exact touches_floodRecord _ _ _)
    | extract_lets
    | split
    | decide
    | dsimp +zetaDelta only

theorem touches_tryReady (s : State) (h : Nat) : Touches [.fab] s (tryReady s h) := by
  unfold tryReady
  repeat' first
    | with_reducible assumption
    | with_reducible exact Touches.refl _ _
    | (apply Touches.andThen (qs := [.fab]); with_reducible exact touches_modLink _ _ _)
    | (apply Touches.andThen (qs := [.fab]); with_reducible exact touches_refreshOwn _)
    | extract_lets
    | split
    | decide
    | (with_reducible refine Touches.foldl ?_ ?_; intro _ _)
    | dsimp +zetaDelta only

theorem touches_tryReadyAll (s : State) : Touches [.fab] s (tryReadyAll s) := by
  unfold tryReadyAll
  repeat' first
    | with_reducible assumption
    | with_reducible exact Touches.refl _ _
    | (apply Touches.andThen (qs := [.fab]); with_reducible exact touches_tryReady _ _)
    | decide
    | (with_reducible refine Touches.foldl ?_ ?_; intro _ _)

theorem touches_linkDown (s : State) (h : Nat) : Touches [.fab, .sec] s (linkDown s h) := by
  unfold linkDown
  repeat' first
    | with_reducible assumption
    | with_reducible exact Touches.refl _ _
    | (apply Touches.andThen (qs := [.sec]); with_reducible exact touches_destroyKey _ _)
    | (apply Touches.andThen (qs := [.fab]); with_reducible exact touches_setLink _ _ _)
    | (apply Touches.andThen (qs := [.fab]); with_reducible exact touches_refreshOwn _)
    | (apply Touches.andThen (qs := [.fab]); with_reducible exact touches_tryReadyAll _)
    | extract_lets
    | split
    | decide
    | (with_reducible refine Touches.foldl ?_ ?_; intro _ _)
    | dsimp +zetaDelta only

theorem touches_linkOff (s : State) (h : Nat) : Touches [.fab, .sec] s (linkOff s h) := by
  unfold linkOff
  repeat' first
    | with_reducible assumption
    | with_reducible exact Touches.refl _ _
    | (apply Touches.andThen (qs := [.sec]); with_reducible exact touches_destroyKey _ _)
    | (apply Touches.andThen (qs := [.fab]); with_reducible exact touches_modLink _ _ _)
    | (apply Touches.andThen (qs := [.fab]); with_reducible exact touches_refreshOwn _)
    | extract_lets
    | decide
    | (with_reducible refine Touches.foldl ?_ ?_; intro _ _)
    | dsimp +zetaDelta only

theorem touches_laneSignal (s : State) (h : Nat) : Touches [.fab] s (laneSignal s h) := by
  unfold laneSignal
  repeat' first
    | with_reducible assumption
    | with_reducible exact Touches.refl _ _
    | (apply Touches.andThen (qs := [.fab]); with_reducible exact touches_setLink _ _ _)
    | extract_lets
    | split
    | decide
    | dsimp +zetaDelta only

theorem touches_linkTrained (s : State) (h : Nat) (trained : BitVec 8) : Touches [.fab, .sec, .freeCtr] s (linkTrained s h trained) := by
  unfold linkTrained
  repeat' first
    | with_reducible assumption
    | with_reducible exact Touches.refl _ _
    | (apply Touches.andThen (qs := [.sec, .freeCtr]); with_reducible exact touches_freshKey _ _)
    | (apply Touches.andThen (qs := [.fab]); with_reducible exact touches_setLink _ _ _)
    | extract_lets
    | split
    | decide
    | dsimp +zetaDelta only

theorem touches_lossOfSignal (s : State) (h : Nat) : Touches [.fab, .sec] s (lossOfSignal s h) := by
  unfold lossOfSignal
  repeat' first
    | with_reducible assumption
    | with_reducible exact Touches.refl _ _
    | (apply Touches.andThen (qs := [.fab]); with_reducible exact touches_setLink _ _ _)
    | (apply Touches.andThen (qs := [.fab, .sec]); with_reducible exact touches_linkDown _ _)
    | extract_lets
    | split
    | decide
    | dsimp +zetaDelta only

theorem touches_keepaliveTimeout (s : State) (h : Nat) : Touches [.fab, .sec] s (keepaliveTimeout s h) := by
  unfold keepaliveTimeout
  repeat' first
    | with_reducible assumption
    | with_reducible exact Touches.refl _ _
    | (apply Touches.andThen (qs := [.fab]); with_reducible exact touches_modLinkCtr _ _ _)
    | (apply Touches.andThen (qs := [.fab, .sec]); with_reducible exact touches_linkDown _ _)
    | extract_lets
    | split
    | decide
    | dsimp +zetaDelta only

theorem touches_ethLinkLoss (s : State) (h : Nat) : Touches [.fab] s (ethLinkLoss s h) := by
  unfold ethLinkLoss
  repeat' first
    | with_reducible assumption
    | with_reducible exact Touches.refl _ _
    | (apply Touches.andThen (qs := [.fab]); with_reducible exact touches_setLink _ _ _)
    | extract_lets
    | split
    | decide
    | dsimp +zetaDelta only

theorem touches_countFec (s : State) (h : Nat) (fec : Fec) : Touches [.fab] s (countFec s h fec) := by
  unfold countFec
  repeat' first
    | with_reducible assumption
    | with_reducible exact Touches.refl _ _
    | (apply Touches.andThen (qs := [.fab]); with_reducible exact touches_modLinkCtr _ _ _)
    | decide

theorem touches_sendIdle (s : State) (h : Nat) : Touches [.fab] s (sendIdle s h) := by
  unfold sendIdle
  repeat' first
    | with_reducible assumption
    | with_reducible exact Touches.refl _ _
    | (apply Touches.andThen (qs := [.fab]); with_reducible exact touches_setLink _ _ _)
    | extract_lets
    | decide
    | dsimp +zetaDelta only

theorem touches_sendReplay (s : State) (h i : Nat) (f : HeldFlit) : Touches [.fab, .sec] s (sendReplay s h i f) := by
  unfold sendReplay
  repeat' first
    | with_reducible assumption
    | with_reducible exact Touches.refl _ _
    | (apply Touches.andThen (qs := [.fab]); with_reducible exact touches_setLink _ _ _)
    | (apply Touches.andThen (qs := [.fab, .sec]); with_reducible exact touches_linkDown _ _)
    | extract_lets
    | split
    | decide
    | dsimp +zetaDelta only

theorem touches_sendData (s : State) (h v : Nat) : Touches [.fab] s (sendData s h v) := by
  unfold sendData
  repeat' first
    | with_reducible assumption
    | with_reducible exact Touches.refl _ _
    | (apply Touches.andThen (qs := [.fab]); with_reducible exact touches_setLink _ _ _)
    | extract_lets
    | split
    | decide
    | dsimp +zetaDelta only

theorem touches_sendKey (s : State) (h msg : Nat) : Touches [.fab] s (sendKey s h msg) := by
  unfold sendKey
  repeat' first
    | with_reducible assumption
    | with_reducible exact Touches.refl _ _
    | (apply Touches.andThen (qs := [.fab]); with_reducible exact touches_setLink _ _ _)
    | extract_lets
    | decide
    | dsimp +zetaDelta only

theorem touches_flitSlot (s : State) (h : Nat) : Touches [.fab, .sec] s (flitSlot s h) := by
  unfold flitSlot
  repeat' first
    | with_reducible assumption
    | with_reducible exact Touches.refl _ _
    | (apply Touches.andThen (qs := [.fab]); with_reducible exact touches_modLink _ _ _)
    | (apply Touches.andThen (qs := [.fab]); with_reducible exact touches_modLinkCtr _ _ _)
    | (apply Touches.andThen (qs := [.fab]); with_reducible exact touches_sendIdle _ _)
    | (apply Touches.andThen (qs := [.fab, .sec]); with_reducible exact touches_sendReplay _ _ _ _)
    | (apply Touches.andThen (qs := [.fab]); with_reducible exact touches_sendData _ _ _)
    | (apply Touches.andThen (qs := [.fab]); with_reducible exact touches_sendKey _ _ _)
    | extract_lets
    | split
    | decide
    | dsimp +zetaDelta only

theorem touches_leaveLink (s : State) (h : Nat) : Touches [.fab, .sec] s (leaveLink s h) := by
  unfold leaveLink
  repeat' first
    | with_reducible assumption
    | with_reducible exact Touches.refl _ _
    | (apply Touches.andThen (qs := [.fab]); with_reducible exact touches_modLink _ _ _)
    | (apply Touches.andThen (qs := [.fab, .sec]); with_reducible exact touches_flitSlot _ _)
    | split
    | decide
    | (with_reducible refine Touches.foldl ?_ ?_; intro _ _)

theorem touches_flitIdle (s : State) (h : Nat) (f : Flit) (count : Nat) (fec : Fec) : Touches [.fab, .sec] s (flitIdle s h f count fec) := by
  unfold flitIdle
  repeat' first
    | with_reducible assumption
    | with_reducible exact Touches.refl _ _
    | (apply Touches.andThen (qs := [.fab]); with_reducible exact touches_setLink _ _ _)
    | (apply Touches.andThen (qs := [.fab]); with_reducible exact touches_modLinkCtr _ _ _)
    | (apply Touches.andThen (qs := [.fab]); with_reducible exact touches_tryReady _ _)
    | (apply Touches.andThen (qs := [.fab, .sec]); with_reducible exact touches_linkDown _ _)
    | (apply Touches.andThen (qs := [.fab]); with_reducible exact touches_countFec _ _ _)
    | extract_lets
    | split
    | decide
    | dsimp +zetaDelta only

theorem touches_freeFlits (s : State) (h vl : Nat) (p : Pkt) : Touches [.fab] s (freeFlits s h vl p) := by
  unfold freeFlits
  repeat' first
    | with_reducible assumption
    | with_reducible exact Touches.refl _ _
    | (apply Touches.andThen (qs := [.fab]); with_reducible exact touches_modLink _ _ _)
    | split
    | decide

theorem touches_packetIn (s : State) (h vl : Nat) (p : Pkt) : Touches [.fab] s (packetIn s h vl p) := by
  unfold packetIn
  repeat' first
    | with_reducible assumption
    | with_reducible exact Touches.refl _ _
    | (apply Touches.andThen (qs := [.fab]); with_reducible exact touches_modFab _ _)
    | (apply Touches.andThen (qs := [.fab]); with_reducible exact touches_modLink _ _ _)
    | (apply Touches.andThen (qs := [.fab]); with_reducible exact touches_freeFlits _ _ _ _)
    | split
    | decide

theorem touches_flitData (s : State) (h : Nat) (f : Flit) (count : Nat) (fec : Fec) : Touches [.fab, .sec] s (flitData s h f count fec) := by
  unfold flitData
  repeat' first
    | with_reducible assumption
    | with_reducible exact Touches.refl _ _
    | (apply Touches.andThen (qs := [.fab]); with_reducible exact touches_setLink _ _ _)
    | (apply Touches.andThen (qs := [.fab]); with_reducible exact touches_modLinkCtr _ _ _)
    | (apply Touches.andThen (qs := [.fab]); with_reducible exact touches_tryReady _ _)
    | (apply Touches.andThen (qs := [.fab, .sec]); with_reducible exact touches_linkDown _ _)
    | (apply Touches.andThen (qs := [.fab]); with_reducible exact touches_countFec _ _ _)
    | (apply Touches.andThen (qs := [.fab]); with_reducible exact touches_packetIn _ _ _ _)
    | extract_lets
    | split
    | decide
    | dsimp +zetaDelta only

theorem touches_takePacket {s t : State} {h kind : Nat} {p : Pkt} (e : takePacket s h kind = some (p, t)) :
    Touches [.fab] s t := by
  unfold takePacket at e
  split at e
  · cases e
    refine Touches.andThen (touches_freeFlits _ _ _ _) (by decide) ?_
    exact (touches_modLink _ _ _).mono (by decide)
  · cases e

theorem touches_packetForward (s : State) (h : Nat) : Touches [.fab] s (packetForward s h) := by
  unfold packetForward
  repeat' first
    | with_reducible assumption
    | with_reducible exact Touches.refl _ _
    | (apply Touches.andThen (qs := [.fab]); with_reducible exact touches_modLink _ _ _)
    | (apply Touches.andThen (qs := [.fab]); with_reducible exact touches_modLinkCtr _ _ _)
    | (apply Touches.andThen (qs := [.fab]); with_reducible exact touches_enqueue _ _ _ _)
    | (apply Touches.andThen (qs := [.fab]); with_reducible exact touches_freeFlits _ _ _ _)
    | extract_lets
    | split
    | decide
    | dsimp +zetaDelta only

theorem touches_enterNotReady (s : State) (h : Nat) : Touches [.fab] s (enterNotReady s h) := by
  unfold enterNotReady
  repeat' first
    | with_reducible assumption
    | with_reducible exact Touches.refl _ _
    | (apply Touches.andThen (qs := [.fab]); with_reducible exact touches_modFab _ _)
    | (apply Touches.andThen (qs := [.fab]); with_reducible exact touches_modLink _ _ _)
    | (apply Touches.andThen (qs := [.fab]); with_reducible exact touches_sendMgmt _ _ _ _ _)
    | (apply Touches.andThen (qs := [.fab]); with_reducible exact touches_floodRecord _ _ _)
    | extract_lets
    | split
    | decide
    | dsimp +zetaDelta only

theorem touches_keyingFail (s : State) (h cause : Nat) : Touches [.fab, .sec] s (keyingFail s h cause) := by
  unfold keyingFail
  repeat' first
    | with_reducible assumption
    | with_reducible exact Touches.refl _ _
    | (apply Touches.andThen (qs := [.sec]); with_reducible refine touches_modSec _ _ ?_)
    | (apply Touches.andThen (qs := [.fab]); with_reducible exact touches_modLink _ _ _)
    | (apply Touches.andThen (qs := [.fab, .sec]); with_reducible exact touches_linkDown _ _)
    | extract_lets
    | decide
    | (refine fun (_ : Sec) => ?_; repeat' first
        | exact ⟨rfl, rfl, rfl, rfl, rfl, le_refl _⟩
        | exact ⟨rfl, rfl, rfl, rfl, rfl, le_max_left _ _⟩
        | exact fuses_want _ _ _ _
        | split)
    | dsimp +zetaDelta only

theorem touches_keyOffer (s : State) (h : Nat) (serial : BitVec 64) (digest : BitVec 256) (chainOk : Bool) (k : BitVec 320) : Touches [.fab, .sec] s (keyOffer s h serial digest chainOk k) := by
  unfold keyOffer
  repeat' first
    | with_reducible assumption
    | with_reducible exact Touches.refl _ _
    | (apply Touches.andThen (qs := [.sec]); with_reducible exact touches_wantKey _ _)
    | (apply Touches.andThen (qs := [.fab]); with_reducible exact touches_modLink _ _ _)
    | (apply Touches.andThen (qs := [.fab, .sec]); with_reducible exact touches_keyingFail _ _ _)
    | extract_lets
    | split
    | decide
    | dsimp +zetaDelta only

theorem touches_keyConfirm (s : State) (h : Nat) (ok : Bool) : Touches [.fab, .sec] s (keyConfirm s h ok) := by
  unfold keyConfirm
  repeat' first
    | with_reducible assumption
    | with_reducible exact Touches.refl _ _
    | (apply Touches.andThen (qs := [.sec]); with_reducible refine touches_modSec _ _ ?_)
    | (apply Touches.andThen (qs := [.sec]); with_reducible exact touches_makeKey _ _ _)
    | (apply Touches.andThen (qs := [.sec]); with_reducible exact touches_destroyKey _ _)
    | (apply Touches.andThen (qs := [.fab]); with_reducible exact touches_modLink _ _ _)
    | (apply Touches.andThen (qs := [.fab]); with_reducible exact touches_sendKey _ _ _)
    | (apply Touches.andThen (qs := [.fab]); with_reducible exact touches_enterNotReady _ _)
    | (apply Touches.andThen (qs := [.fab, .sec]); with_reducible exact touches_keyingFail _ _ _)
    | extract_lets
    | split
    | decide
    | (refine fun (_ : Sec) => ?_; repeat' first
        | exact ⟨rfl, rfl, rfl, rfl, rfl, le_refl _⟩
        | exact ⟨rfl, rfl, rfl, rfl, rfl, le_max_left _ _⟩
        | exact fuses_want _ _ _ _
        | split)
    | dsimp +zetaDelta only

theorem touches_keyAbort (s : State) (h : Nat) : Touches [.fab, .sec] s (keyAbort s h) := by
  unfold keyAbort
  repeat' first
    | with_reducible assumption
    | with_reducible exact Touches.refl _ _
    | (apply Touches.andThen (qs := [.fab, .sec]); with_reducible exact touches_keyingFail _ _ _)
    | split
    | decide

theorem touches_keyingTimeout (s : State) (h : Nat) : Touches [.fab, .sec] s (keyingTimeout s h) := by
  unfold keyingTimeout
  repeat' first
    | with_reducible assumption
    | with_reducible exact Touches.refl _ _
    | (apply Touches.andThen (qs := [.fab, .sec]); with_reducible exact touches_keyingFail _ _ _)
    | split
    | decide

theorem touches_keyingRetry (s : State) (h : Nat) : Touches [.fab] s (keyingRetry s h) := by
  unfold keyingRetry
  repeat' first
    | with_reducible assumption
    | with_reducible exact Touches.refl _ _
    | (apply Touches.andThen (qs := [.fab]); with_reducible exact touches_setLink _ _ _)
    | extract_lets
    | split
    | decide
    | dsimp +zetaDelta only

theorem touches_fabricMismatchRetry (s : State) (h : Nat) : Touches [.fab] s (fabricMismatchRetry s h) := by
  unfold fabricMismatchRetry
  repeat' first
    | with_reducible assumption
    | with_reducible exact Touches.refl _ _
    | (apply Touches.andThen (qs := [.fab]); with_reducible exact touches_setLink _ _ _)
    | extract_lets
    | split
    | decide
    | dsimp +zetaDelta only

end Sys2Proof.Machine
end

