-- ==== Sys2Proof/Laws/TouchFabric.lean ====
section
/-!
SUPPORT. What each operation of Machine/Fabric.lean touches.
-/

set_option linter.unusedTactic false
set_option linter.unreachableTactic false

namespace Sys2Proof.Machine

theorem touches_claimProvisional (s : State) : Touches [.fab] s (claimProvisional s) := by
  unfold claimProvisional
  repeat' first
    | with_reducible assumption
    | with_reducible exact Touches.refl _ _
    | (apply Touches.andThen (qs := [.fab]); with_reducible exact touches_modFab _ _)
    | (apply Touches.andThen (qs := [.fab]); with_reducible exact touches_refreshOwn _)
    | extract_lets
    | split
    | decide
    | dsimp +zetaDelta only

theorem touches_closeAllConnections (s : State) : Touches [.fab] s (closeAllConnections s) := by
  unfold closeAllConnections
  repeat' first
    | with_reducible assumption
    | with_reducible exact Touches.refl _ _
    | (apply Touches.andThen (qs := [.fab]); with_reducible exact touches_modFab _ _)
    | decide

theorem touches_checkConflict (s : State) : Touches [.fab] s (checkConflict s) := by
  unfold checkConflict
  repeat' first
    | with_reducible assumption
    | with_reducible exact Touches.refl _ _
    | (apply Touches.andThen (qs := [.fab]); with_reducible exact touches_modFab _ _)
    | (apply Touches.andThen (qs := [.fab]); with_reducible exact touches_claimProvisional _)
    | (apply Touches.andThen (qs := [.fab]); with_reducible exact touches_closeAllConnections _)
    | extract_lets
    | split
    | decide
    | dsimp +zetaDelta only

theorem touches_accessionSettle (s : State) : Touches [.fab] s (accessionSettle s) := by
  unfold accessionSettle
  repeat' first
    | with_reducible assumption
    | with_reducible exact Touches.refl _ _
    | (apply Touches.andThen (qs := [.fab]); with_reducible exact touches_modFab _ _)
    | (apply Touches.andThen (qs := [.fab]); with_reducible exact touches_refreshOwn _)
    | (apply Touches.andThen (qs := [.fab]); with_reducible exact touches_tryReadyAll _)
    | split
    | decide

theorem touches_storeRecord (s : State) (from' : Nat) (r : BitVec 1728) : Touches [.fab] s (storeRecord s from' r) := by
  unfold storeRecord
  repeat' first
    | with_reducible assumption
    | with_reducible exact Touches.refl _ _
    | (apply Touches.andThen (qs := [.fab]); with_reducible exact touches_modFab _ _)
    | (apply Touches.andThen (qs := [.fab]); with_reducible exact touches_modLink _ _ _)
    | (apply Touches.andThen (qs := [.fab]); with_reducible exact touches_floodRecord _ _ _)
    | (apply Touches.andThen (qs := [.fab]); with_reducible exact touches_checkConflict _)
    | extract_lets
    | split
    | decide
    | (with_reducible refine Touches.foldl ?_ ?_; intro _ _)
    | dsimp +zetaDelta only

theorem touches_lsr (s : State) (h : Nat) : Touches [.fab] s (lsr s h) := by
  unfold lsr
  repeat' first
    | with_reducible assumption
    | with_reducible exact Touches.refl _ _
    | (apply Touches.andThen (qs := [.fab]) (touches_takePacket (by with_reducible assumption)))
    | (apply Touches.andThen (qs := [.fab]); with_reducible exact touches_storeRecord _ _ _)
    | split
    | decide
    | refine Touches.ofPair (by with_reducible assumption) ?_
    | refine Touches.ofPairSnd (by with_reducible assumption) ?_
    | refine Touches.ofTriple (by with_reducible assumption) ?_
    | (with_reducible refine Touches.foldl ?_ ?_; intro _ _)

theorem touches_lsdbRecordExpiry (s : State) (serial : Nat) : Touches [.fab] s (lsdbRecordExpiry s serial) := by
  unfold lsdbRecordExpiry
  repeat' first
    | with_reducible assumption
    | with_reducible exact Touches.refl _ _
    | (apply Touches.andThen (qs := [.fab]); with_reducible exact touches_modFab _ _)
    | split
    | decide

theorem touches_sendSync (s : State) (h op : Nat) (b : Blob) : Touches [.fab] s (sendSync s h op b) := by
  unfold sendSync
  repeat' first
    | with_reducible assumption
    | with_reducible exact Touches.refl _ _
    | (apply Touches.andThen (qs := [.fab]); with_reducible exact touches_sendMgmt _ _ _ _ _)
    | decide

theorem touches_offerSync (s : State) (h : Nat) : Touches [.fab] s (offerSync s h) := by
  unfold offerSync
  repeat' first
    | with_reducible assumption
    | with_reducible exact Touches.refl _ _
    | (apply Touches.andThen (qs := [.fab]); with_reducible exact touches_modLink _ _ _)
    | (apply Touches.andThen (qs := [.fab]); with_reducible exact touches_sendSync _ _ _ _)
    | split
    | decide

theorem touches_sendRecords (s : State) (h : Nat) : Touches [.fab] s (sendRecords s h) := by
  unfold sendRecords
  repeat' first
    | with_reducible assumption
    | with_reducible exact Touches.refl _ _
    | (apply Touches.andThen (qs := [.fab]); with_reducible exact touches_modLink _ _ _)
    | (apply Touches.andThen (qs := [.fab]); with_reducible exact touches_sendSync _ _ _ _)
    | extract_lets
    | split
    | decide
    | (with_reducible refine Touches.foldl ?_ ?_; intro _ _)
    | dsimp +zetaDelta only

theorem touches_hello (s : State) (h : Nat) : Touches [.fab, .sec] s (hello s h) := by
  unfold hello
  repeat' first
    | with_reducible assumption
    | with_reducible exact Touches.refl _ _
    | (apply Touches.andThen (qs := [.fab]); with_reducible exact touches_modLink _ _ _)
    | (apply Touches.andThen (qs := [.fab, .sec]); with_reducible exact touches_linkDown _ _)
    | (apply Touches.andThen (qs := [.fab]) (touches_takePacket (by with_reducible assumption)))
    | (apply Touches.andThen (qs := [.fab]); with_reducible exact touches_offerSync _ _)
    | extract_lets
    | split
    | decide
    | refine Touches.ofPair (by with_reducible assumption) ?_
    | refine Touches.ofPairSnd (by with_reducible assumption) ?_
    | refine Touches.ofTriple (by with_reducible assumption) ?_
    | dsimp +zetaDelta only

theorem touches_takeSync {s t : State} {h op : Nat} {p : Pkt} (e : takeSync s h op = some (p, t)) :
    Touches [.fab] s t := by
  unfold takeSync at e
  split at e
  · cases e
    refine Touches.andThen (touches_freeFlits _ _ _ _) (by decide) ?_
    exact (touches_modLink _ _ _).mono (by decide)
  · cases e

theorem touches_syncOffer (s : State) (h : Nat) : Touches [.fab] s (syncOffer s h) := by
  unfold syncOffer
  repeat' first
    | with_reducible assumption
    | with_reducible exact Touches.refl _ _
    | (apply Touches.andThen (qs := [.fab]); with_reducible exact touches_modLinkCtr _ _ _)
    | (apply Touches.andThen (qs := [.fab]); with_reducible exact touches_sendSync _ _ _ _)
    | (apply Touches.andThen (qs := [.fab]); with_reducible exact touches_sendRecords _ _)
    | (apply Touches.andThen (qs := [.fab]) (touches_takeSync (by with_reducible assumption)))
    | split
    | decide
    | refine Touches.ofPair (by with_reducible assumption) ?_
    | refine Touches.ofPairSnd (by with_reducible assumption) ?_
    | refine Touches.ofTriple (by with_reducible assumption) ?_

theorem touches_syncRecords (s : State) (h : Nat) : Touches [.fab] s (syncRecords s h) := by
  unfold syncRecords
  repeat' first
    | with_reducible assumption
    | with_reducible exact Touches.refl _ _
    | (apply Touches.andThen (qs := [.fab]); with_reducible exact touches_storeRecord _ _ _)
    | (apply Touches.andThen (qs := [.fab]); with_reducible exact touches_sendRecords _ _)
    | (apply Touches.andThen (qs := [.fab]) (touches_takeSync (by with_reducible assumption)))
    | extract_lets
    | split
    | decide
    | refine Touches.ofPair (by with_reducible assumption) ?_
    | refine Touches.ofPairSnd (by with_reducible assumption) ?_
    | refine Touches.ofTriple (by with_reducible assumption) ?_
    | (with_reducible refine Touches.foldl ?_ ?_; intro _ _)
    | dsimp +zetaDelta only

theorem touches_syncDone (s : State) (h : Nat) : Touches [.fab] s (syncDone s h) := by
  unfold syncDone
  repeat' first
    | with_reducible assumption
    | with_reducible exact Touches.refl _ _
    | (apply Touches.andThen (qs := [.fab]); with_reducible exact touches_modLink _ _ _)
    | (apply Touches.andThen (qs := [.fab]); with_reducible exact touches_tryReadyAll _)
    | (apply Touches.andThen (qs := [.fab]); with_reducible exact touches_offerSync _ _)
    | (apply Touches.andThen (qs := [.fab]); with_reducible exact touches_sendRecords _ _)
    | (apply Touches.andThen (qs := [.fab]) (touches_takeSync (by with_reducible assumption)))
    | extract_lets
    | split
    | decide
    | refine Touches.ofPair (by with_reducible assumption) ?_
    | refine Touches.ofPairSnd (by with_reducible assumption) ?_
    | refine Touches.ofTriple (by with_reducible assumption) ?_
    | dsimp +zetaDelta only

theorem touches_syncNotReady (s : State) (h : Nat) : Touches [.fab] s (syncNotReady s h) := by
  unfold syncNotReady
  repeat' first
    | with_reducible assumption
    | with_reducible exact Touches.refl _ _
    | (apply Touches.andThen (qs := [.fab]); with_reducible exact touches_modLink _ _ _)
    | (apply Touches.andThen (qs := [.fab]) (touches_takeSync (by with_reducible assumption)))
    | split
    | decide
    | refine Touches.ofPair (by with_reducible assumption) ?_
    | refine Touches.ofPairSnd (by with_reducible assumption) ?_
    | refine Touches.ofTriple (by with_reducible assumption) ?_

theorem touches_syncBackoff (s : State) (h : Nat) : Touches [.fab] s (syncBackoff s h) := by
  unfold syncBackoff
  repeat' first
    | with_reducible assumption
    | with_reducible exact Touches.refl _ _
    | (apply Touches.andThen (qs := [.fab]); with_reducible exact touches_offerSync _ _)
    | split
    | decide

theorem touches_transmit (s : State) (kind dst channel flow : Nat) (p : Path) (tseq : BitVec 32) (payload : Blob) (job : BitVec 32) (operand : Nat) : Touches [.fab] s (transmit s kind dst channel flow p tseq payload job operand) := by
  unfold transmit
  repeat' first
    | with_reducible assumption
    | with_reducible exact Touches.refl _ _
    | (apply Touches.andThen (qs := [.fab]); with_reducible exact touches_modLinkCtr _ _ _)
    | (apply Touches.andThen (qs := [.fab]); with_reducible exact touches_enqueue _ _ _ _)
    | extract_lets
    | split
    | decide
    | dsimp +zetaDelta only

theorem touches_resend (s : State) (c : TxConn) : Touches [.fab] s (resend s c) := by
  unfold resend
  repeat' first
    | with_reducible assumption
    | with_reducible exact Touches.refl _ _
    | (apply Touches.andThen (qs := [.fab]); with_reducible exact touches_modFab _ _)
    | (apply Touches.andThen (qs := [.fab]); with_reducible exact touches_transmit _ _ _ _ _ _ _ _ _ _)
    | split
    | decide
    | (with_reducible refine Touches.foldl ?_ ?_; intro _ _)

theorem touches_connectionFault (s : State) (job : BitVec 32) : Touches [.ctxs] s (connectionFault s job) := by
  unfold connectionFault
  repeat' first
    | with_reducible assumption
    | with_reducible exact Touches.refl _ _
    | (apply Touches.andThen (qs := [.ctxs]); with_reducible exact touches_contextFault _ _ _)
    | split
    | decide

theorem touches_admitAll (n : Nat) (s : State) (c : TxConn) : Touches [.fab] s (admitAll n s c).1 := by
  induction n generalizing s c with
  | zero => exact Touches.refl _ _
  | succ n ih =>
    unfold admitAll
    repeat' first
      | with_reducible assumption
      | with_reducible exact Touches.refl _ _
      | (apply Touches.andThen (qs := [.fab]); with_reducible exact ih _ _)
      | (apply Touches.andThen (qs := [.fab]); with_reducible exact touches_transmit _ _ _ _ _ _ _ _ _ _)
      | extract_lets
      | split
      | decide
      | dsimp +zetaDelta only

theorem touches_putTx (s : State) (c : TxConn) : Touches [.fab] s (putTx s c) := by
  unfold putTx
  repeat' first
    | with_reducible assumption
    | with_reducible exact Touches.refl _ _
    | (apply Touches.andThen (qs := [.fab]); with_reducible exact touches_modFab _ _)
    | split
    | decide

theorem touches_reverseFlow (s : State) (peer : Nat) (job : BitVec 32) (channel : Nat) : Touches [.freeCtr] s (reverseFlow s peer job channel).2 := by
  unfold reverseFlow
  repeat' first
    | with_reducible assumption
    | with_reducible exact Touches.refl _ _
    | (apply Touches.andThen (qs := [.freeCtr]); with_reducible exact touches_free _ _)
    | split
    | decide
    | refine Touches.ofPair (by with_reducible assumption) ?_
    | refine Touches.ofPairSnd (by with_reducible assumption) ?_
    | refine Touches.ofTriple (by with_reducible assumption) ?_

theorem touches_sendPacket (s : State) (peer : Nat) (job : BitVec 32) (channel kind operand : Nat) (payload : Blob) : Touches [.ctxs, .fab, .freeCtr] s (sendPacket s peer job channel kind operand payload) := by
  unfold sendPacket
  repeat' first
    | with_reducible assumption
    | with_reducible exact Touches.refl _ _
    | (apply Touches.andThen (qs := [.fab]); with_reducible exact touches_modFab _ _)
    | (apply Touches.andThen (qs := [.ctxs]); with_reducible exact touches_connectionFault _ _)
    | (apply Touches.andThen (qs := [.fab]); with_reducible exact touches_admitAll _ _ _)
    | (apply Touches.andThen (qs := [.fab]); with_reducible exact touches_putTx _ _)
    | (apply Touches.andThen (qs := [.freeCtr]); with_reducible exact touches_reverseFlow _ _ _ _)
    | extract_lets
    | split
    | decide
    | refine Touches.ofPair (by with_reducible assumption) ?_
    | refine Touches.ofPairSnd (by with_reducible assumption) ?_
    | refine Touches.ofTriple (by with_reducible assumption) ?_
    | dsimp +zetaDelta only

theorem touches_sendAck (s : State) (p : Pkt) (flow : BitVec 8) (tseq : BitVec 32) : Touches [.fab] s (sendAck s p flow tseq) := by
  unfold sendAck
  repeat' first
    | with_reducible assumption
    | with_reducible exact Touches.refl _ _
    | (apply Touches.andThen (qs := [.fab]); with_reducible exact touches_transmit _ _ _ _ _ _ _ _ _ _)
    | split
    | decide

theorem touches_acceptPacket (s : State) (p : Pkt) : Touches [.ctxs, .fab, .freeCtr] s (acceptPacket s p).1 := by
  unfold acceptPacket
  repeat' first
    | with_reducible assumption
    | with_reducible exact Touches.refl _ _
    | (apply Touches.andThen (qs := [.freeCtr]); with_reducible exact touches_free _ _)
    | (apply Touches.andThen (qs := [.fab]); with_reducible exact touches_modFab _ _)
    | (apply Touches.andThen (qs := [.ctxs]); with_reducible exact touches_connectionFault _ _)
    | (apply Touches.andThen (qs := [.fab]); with_reducible exact touches_sendAck _ _ _ _)
    | extract_lets
    | split
    | decide
    | refine Touches.ofPair (by with_reducible assumption) ?_
    | refine Touches.ofPairSnd (by with_reducible assumption) ?_
    | refine Touches.ofTriple (by with_reducible assumption) ?_
    | dsimp +zetaDelta only

theorem touches_ack (s : State) (h : Nat) : Touches [.fab] s (ack s h) := by
  unfold ack
  repeat' first
    | with_reducible assumption
    | with_reducible exact Touches.refl _ _
    | (apply Touches.andThen (qs := [.fab]) (touches_takePacket (by with_reducible assumption)))
    | (apply Touches.andThen (qs := [.fab]); with_reducible exact touches_admitAll _ _ _)
    | (apply Touches.andThen (qs := [.fab]); with_reducible exact touches_putTx _ _)
    | extract_lets
    | split
    | decide
    | refine Touches.ofPair (by with_reducible assumption) ?_
    | refine Touches.ofPairSnd (by with_reducible assumption) ?_
    | refine Touches.ofTriple (by with_reducible assumption) ?_
    | dsimp +zetaDelta only

theorem touches_transportRetransmit (s : State) (n : Nat) : Touches [.fab] s (transportRetransmit s n) := by
  unfold transportRetransmit
  repeat' first
    | with_reducible assumption
    | with_reducible exact Touches.refl _ _
    | (apply Touches.andThen (qs := [.fab]); with_reducible exact touches_resend _ _)
    | split
    | decide

theorem touches_closeJob (s : State) (job : BitVec 32) : Touches [.fab] s (closeJob s job) := by
  unfold closeJob
  repeat' first
    | with_reducible assumption
    | with_reducible exact Touches.refl _ _
    | (apply Touches.andThen (qs := [.fab]); with_reducible exact touches_modFab _ _)
    | decide

theorem touches_closePeer (s : State) (peer : Nat) : Touches [.fab] s (closePeer s peer) := by
  unfold closePeer
  repeat' first
    | with_reducible assumption
    | with_reducible exact Touches.refl _ _
    | (apply Touches.andThen (qs := [.fab]); with_reducible exact touches_modFab _ _)
    | decide

theorem touches_installRoutes (s : State) : Touches [.fab] s (installRoutes s).1 := by
  unfold installRoutes
  repeat' first
    | with_reducible assumption
    | with_reducible exact Touches.refl _ _
    | (apply Touches.andThen (qs := [.fab]); with_reducible exact touches_modFab _ _)
    | (apply Touches.andThen (qs := [.fab]); with_reducible exact touches_resend _ _)
    | extract_lets
    | split
    | decide
    | (with_reducible refine Touches.foldl ?_ ?_; intro _ _)
    | (with_reducible refine Touches.foldlPair ?_ ?_; intro _ _)
    | dsimp +zetaDelta only

end Sys2Proof.Machine
end

