-- ==== Sys2Proof/Laws/TouchEther.lean ====
section
/-!
SUPPORT. What each operation of Machine/Ether.lean touches.
-/

set_option linter.unusedTactic false
set_option linter.unreachableTactic false

namespace Sys2Proof.Machine

theorem touches_ethPut (s : State) (h : Nat) (o : EthOut) : Touches [.fab] s (ethPut s h o) := by
  unfold ethPut
  repeat' first
    | with_reducible assumption
    | with_reducible exact Touches.refl _ _
    | (apply Touches.andThen (qs := [.fab]); with_reducible exact touches_modLink _ _ _)
    | split
    | decide

theorem touches_ethResume (s : State) (h : Nat) : Touches [.fab] s (ethResume s h) := by
  unfold ethResume
  repeat' first
    | with_reducible assumption
    | with_reducible exact Touches.refl _ _
    | (apply Touches.andThen (qs := [.fab]); with_reducible exact touches_modLink _ _ _)
    | (apply Touches.andThen (qs := [.fab]); with_reducible exact touches_ethPut _ _ _)
    | extract_lets
    | decide
    | (with_reducible refine Touches.foldl ?_ ?_; intro _ _)
    | dsimp +zetaDelta only

theorem touches_ethSend (s : State) (h ip port hdr : Nat) (data : Blob) : Touches [.fab] s (ethSend s h ip port hdr data) := by
  unfold ethSend
  repeat' first
    | with_reducible assumption
    | with_reducible exact Touches.refl _ _
    | (apply Touches.andThen (qs := [.fab]); with_reducible exact touches_modLink _ _ _)
    | (apply Touches.andThen (qs := [.fab]); with_reducible exact touches_ethPut _ _ _)
    | extract_lets
    | split
    | decide
    | dsimp +zetaDelta only

theorem touches_ethLearn (s : State) (h ip mac : Nat) : Touches [.fab] s (ethLearn s h ip mac) := by
  unfold ethLearn
  repeat' first
    | with_reducible assumption
    | with_reducible exact Touches.refl _ _
    | (apply Touches.andThen (qs := [.fab]); with_reducible exact touches_modLink _ _ _)
    | (apply Touches.andThen (qs := [.fab]); with_reducible exact touches_ethPut _ _ _)
    | extract_lets
    | split
    | decide
    | (with_reducible refine Touches.foldl ?_ ?_; intro _ _)
    | dsimp +zetaDelta only

theorem touches_sendSegment (s : State) (c e hdr : Nat) (data : Blob) : Touches [.ctxs, .fab, .freeCtr] s (sendSegment s c e hdr data) := by
  unfold sendSegment
  repeat' first
    | with_reducible assumption
    | with_reducible exact Touches.refl _ _
    | (apply Touches.andThen (qs := [.ctxs, .fab, .freeCtr]); with_reducible exact touches_sendPacket _ _ _ _ _ _ _)
    | (apply Touches.andThen (qs := [.fab]); with_reducible exact touches_ethSend _ _ _ _ _ _)
    | extract_lets
    | split
    | decide
    | dsimp +zetaDelta only

theorem touches_segmentIn (s : State) (h ip port : Nat) (d : Blob) : Touches [.ctxs, .fab, .freeCtr] s (segmentIn s h ip port d).1 := by
  unfold segmentIn
  repeat' first
    | with_reducible assumption
    | with_reducible exact Touches.refl _ _
    | (apply Touches.andThen (qs := [.fab]); with_reducible exact touches_modFab _ _)
    | (apply Touches.andThen (qs := [.ctxs, .fab, .freeCtr]); with_reducible exact touches_sendPacket _ _ _ _ _ _ _)
    | extract_lets
    | split
    | decide
    | dsimp +zetaDelta only

theorem touches_ethFrame (s : State) (h : Nat) (f : Blob) (fec : Fec) (lapsed : Bool) : Touches [.ctxs, .fab, .freeCtr] s (ethFrame s h f fec lapsed) := by
  unfold ethFrame
  repeat' first
    | with_reducible assumption
    | with_reducible exact Touches.refl _ _
    | (apply Touches.andThen (qs := [.fab]); with_reducible exact touches_modLink _ _ _)
    | (apply Touches.andThen (qs := [.fab]); with_reducible exact touches_modLinkCtr _ _ _)
    | (apply Touches.andThen (qs := [.fab]); with_reducible exact touches_countFec _ _ _)
    | (apply Touches.andThen (qs := [.fab]); with_reducible exact touches_ethPut _ _ _)
    | (apply Touches.andThen (qs := [.fab]); with_reducible exact touches_ethResume _ _)
    | (apply Touches.andThen (qs := [.fab]); with_reducible exact touches_ethLearn _ _ _ _)
    | (apply Touches.andThen (qs := [.ctxs, .fab, .freeCtr]); with_reducible exact touches_segmentIn _ _ _ _ _)
    | extract_lets
    | split
    | decide
    | refine Touches.ofPair (by with_reducible assumption) ?_
    | refine Touches.ofPairSnd (by with_reducible assumption) ?_
    | refine Touches.ofTriple (by with_reducible assumption) ?_
    | dsimp +zetaDelta only

theorem touches_sample (s : State) (h : Nat) : Touches [.ctxs, .fab, .freeCtr] s (sample s h) := by
  unfold sample
  repeat' first
    | with_reducible assumption
    | with_reducible exact Touches.refl _ _
    | (apply Touches.andThen (qs := [.fab]); with_reducible exact touches_modFab _ _)
    | (apply Touches.andThen (qs := [.fab]) (touches_takePacket (by with_reducible assumption)))
    | (apply Touches.andThen (qs := [.ctxs, .fab, .freeCtr]); with_reducible exact touches_acceptPacket _ _)
    | (apply Touches.andThen (qs := [.fab]); with_reducible exact touches_ethSend _ _ _ _ _ _)
    | extract_lets
    | split
    | decide
    | refine Touches.ofPair (by with_reducible assumption) ?_
    | refine Touches.ofPairSnd (by with_reducible assumption) ?_
    | refine Touches.ofTriple (by with_reducible assumption) ?_
    | dsimp +zetaDelta only

theorem touches_takeSegment {s t : State} {src typ : Nat} {g : Seg} (e : takeSegment s src typ = some (g, t)) :
    Touches [.fab] s t := by
  unfold takeSegment at e
  split at e
  · cases e
    exact touches_modFab _ _
  · cases e

theorem touches_segmentOpen (s : State) (src : Nat) : Touches [.ctxs, .fab] s (segmentOpen s src) := by
  unfold segmentOpen
  repeat' first
    | with_reducible assumption
    | with_reducible exact Touches.refl _ _
    | (apply Touches.andThen (qs := [.ctxs]); with_reducible exact touches_modCtx _ _ _)
    | (apply Touches.andThen (qs := [.fab]) (touches_takeSegment (by with_reducible assumption)))
    | split
    | decide
    | refine Touches.ofPair (by with_reducible assumption) ?_
    | refine Touches.ofPairSnd (by with_reducible assumption) ?_
    | refine Touches.ofTriple (by with_reducible assumption) ?_

theorem touches_sendSegAck (s : State) (c e : Nat) : Touches [.ctxs, .fab, .freeCtr] s (sendSegAck s c e) := by
  unfold sendSegAck
  repeat' first
    | with_reducible assumption
    | with_reducible exact Touches.refl _ _
    | (apply Touches.andThen (qs := [.freeCtr]); with_reducible exact touches_free _ _)
    | (apply Touches.andThen (qs := [.ctxs, .fab, .freeCtr]); with_reducible exact touches_sendSegment _ _ _ _ _)
    | extract_lets
    | split
    | decide
    | refine Touches.ofPair (by with_reducible assumption) ?_
    | refine Touches.ofPairSnd (by with_reducible assumption) ?_
    | refine Touches.ofTriple (by with_reducible assumption) ?_
    | dsimp +zetaDelta only

theorem touches_segmentData (s : State) (src : Nat) : Touches [.ctxs, .fab, .sec, .freeCtr] s (segmentData s src) := by
  unfold segmentData
  repeat' first
    | with_reducible assumption
    | with_reducible exact Touches.refl _ _
    | (apply Touches.andThen (qs := [.ctxs]); with_reducible exact touches_modCtx _ _ _)
    | (apply Touches.andThen (qs := [.sec]); with_reducible exact touches_wantKey _ _)
    | (apply Touches.andThen (qs := [.fab]); with_reducible exact touches_modLinkCtr _ _ _)
    | (apply Touches.andThen (qs := [.fab]) (touches_takeSegment (by with_reducible assumption)))
    | (apply Touches.andThen (qs := [.ctxs, .fab, .freeCtr]); with_reducible exact touches_sendSegAck _ _ _)
    | extract_lets
    | split
    | decide
    | refine Touches.ofPair (by with_reducible assumption) ?_
    | refine Touches.ofPairSnd (by with_reducible assumption) ?_
    | refine Touches.ofTriple (by with_reducible assumption) ?_
    | dsimp +zetaDelta only

theorem touches_sessionRecord (s : State) (c e : Nat) (poisoned : Bool) (info : StreamInfo) : Touches [.ctxs, .media, .freeCtr] s (sessionRecord s c e poisoned info) := by
  unfold sessionRecord
  repeat' first
    | with_reducible assumption
    | with_reducible exact Touches.refl _ _
    | (apply Touches.andThen (qs := [.ctxs]); with_reducible exact touches_modCtx _ _ _)
    | (apply Touches.andThen (qs := [.ctxs, .media, .freeCtr]); with_reducible exact touches_sampleRecord _ _ _ _ _ _)
    | split
    | decide

theorem touches_flushCredits (before after : State) : Touches [.ctxs, .fab, .freeCtr] after (flushCredits before after) := by
  unfold flushCredits
  repeat' first
    | with_reducible assumption
    | with_reducible exact Touches.refl _ _
    | (apply Touches.andThen (qs := [.ctxs, .fab, .freeCtr]); with_reducible exact touches_sendSegment _ _ _ _ _)
    | extract_lets
    | split
    | decide
    | (with_reducible refine Touches.foldl ?_ ?_; intro _ _)
    | dsimp +zetaDelta only

theorem touches_exportSend (c e limit : Nat) (n : Nat) (s : State) : Touches [.ctxs, .fab, .freeCtr] s (exportSend c e limit n s) := by
  induction n generalizing s with
  | zero => exact Touches.refl _ _
  | succ n ih =>
    unfold exportSend
    repeat' first
      | with_reducible assumption
      | with_reducible exact Touches.refl _ _
      | (apply Touches.andThen (qs := [.ctxs, .fab, .freeCtr]); with_reducible exact ih _)
      | (apply Touches.andThen (qs := [.ctxs]); with_reducible exact touches_modCtx _ _ _)
      | (apply Touches.andThen (qs := [.ctxs, .fab, .freeCtr]); with_reducible exact touches_sendSegment _ _ _ _ _)
      | extract_lets
      | split
      | decide
      | dsimp +zetaDelta only

theorem touches_exportFrom (s : State) (c at' window : Nat) : Touches [.ctxs, .fab, .freeCtr] s (exportFrom s c at' window) := by
  unfold exportFrom
  repeat' first
    | with_reducible assumption
    | with_reducible exact Touches.refl _ _
    | (apply Touches.andThen (qs := [.ctxs]); with_reducible exact touches_modCtx _ _ _)
    | (apply Touches.andThen (qs := [.ctxs, .fab, .freeCtr]); with_reducible exact touches_exportSend _ _ _ _ _)
    | extract_lets
    | split
    | decide
    | dsimp +zetaDelta only

theorem touches_exportAck (s : State) (src : Nat) : Touches [.ctxs, .fab, .freeCtr] s (exportAck s src) := by
  unfold exportAck
  repeat' first
    | with_reducible assumption
    | with_reducible exact Touches.refl _ _
    | (apply Touches.andThen (qs := [.ctxs]); with_reducible exact touches_modCtx _ _ _)
    | (apply Touches.andThen (qs := [.fab]) (touches_takeSegment (by with_reducible assumption)))
    | (apply Touches.andThen (qs := [.ctxs, .fab, .freeCtr]); with_reducible exact touches_exportFrom _ _ _ _)
    | extract_lets
    | split
    | decide
    | refine Touches.ofPair (by with_reducible assumption) ?_
    | refine Touches.ofPairSnd (by with_reducible assumption) ?_
    | refine Touches.ofTriple (by with_reducible assumption) ?_
    | dsimp +zetaDelta only

theorem touches_exportResend (s : State) (c : Nat) : Touches [.ctxs, .fab, .freeCtr] s (exportResend s c) := by
  unfold exportResend
  repeat' first
    | with_reducible assumption
    | with_reducible exact Touches.refl _ _
    | (apply Touches.andThen (qs := [.ctxs, .fab, .freeCtr]); with_reducible exact touches_exportFrom _ _ _ _)
    | split
    | decide

end Sys2Proof.Machine
end

