-- ==== Sys2Proof/Laws/TouchLedger.lean ====
section
/-!
SUPPORT. What each operation of Machine/Ledger.lean touches.
-/

set_option linter.unusedTactic false
set_option linter.unreachableTactic false

namespace Sys2Proof.Machine

theorem touches_modLed (s : State) (c : Nat) (f : Ledger → Ledger) : Touches [.ctxs] s (State.modLed s c f) := by
  unfold State.modLed
  repeat' first
    | with_reducible assumption
    | with_reducible exact Touches.refl _ _
    | (apply Touches.andThen (qs := [.ctxs]); with_reducible exact touches_modCtx _ _ _)
    | decide

theorem touches_modCommit (s : State) (c : Nat) (f : Commit → Commit) : Touches [.ctxs] s (State.modCommit s c f) := by
  unfold State.modCommit
  repeat' first
    | with_reducible assumption
    | with_reducible exact Touches.refl _ _
    | (apply Touches.andThen (qs := [.ctxs]); with_reducible exact touches_modLed _ _ _)
    | decide

theorem touches_chooseFor (s : State) (c i : Nat) : Touches [.ctxs] s (chooseFor s c i) := by
  unfold chooseFor
  repeat' first
    | with_reducible assumption
    | with_reducible exact Touches.refl _ _
    | (apply Touches.andThen (qs := [.ctxs]); with_reducible exact touches_modLed _ _ _)
    | extract_lets
    | split
    | decide
    | dsimp +zetaDelta only

theorem touches_choosePartners (s : State) (c : Nat) : Touches [.ctxs] s (choosePartners s c) := by
  unfold choosePartners
  repeat' first
    | with_reducible assumption
    | with_reducible exact Touches.refl _ _
    | (apply Touches.andThen (qs := [.ctxs]); with_reducible exact touches_chooseFor _ _ _)
    | (apply Touches.andThen (qs := [.ctxs]); with_reducible exact touches_modLed _ _ _)
    | extract_lets
    | dsimp +zetaDelta only
    | decide
    | (with_reducible refine Touches.foldl ?_ ?_; intro _ _)

theorem touches_memWrite (s : State) (a : Nat) (b : Blob) : Touches [.bytes, .tiers] s (memWrite s a b) := by
  unfold memWrite
  repeat' first
    | with_reducible assumption
    | with_reducible exact Touches.refl _ _
    | (apply Touches.andThen (qs := [.bytes, .tiers]); with_reducible exact touches_writeRange _ _ _ _)
    | decide

theorem touches_ledgerWrite (s : State) (job : BitVec 32) (off : Nat) (b : Blob) : Touches [.bytes, .tiers] s (ledgerWrite s job off b) := by
  unfold ledgerWrite
  repeat' first
    | with_reducible assumption
    | with_reducible exact Touches.refl _ _
    | (apply Touches.andThen (qs := [.bytes, .tiers]); with_reducible exact touches_memWrite _ _ _)
    | decide
    | (with_reducible refine Touches.foldl ?_ ?_; intro _ _)

theorem touches_sendWrite (s : State) (peer : Nat) (job : BitVec 32) (data : Blob) : Touches [.ctxs, .fab, .freeCtr] s (sendWrite s peer job data) := by
  unfold sendWrite
  repeat' first
    | with_reducible assumption
    | with_reducible exact Touches.refl _ _
    | (apply Touches.andThen (qs := [.freeCtr]); with_reducible exact touches_free _ _)
    | (apply Touches.andThen (qs := [.ctxs, .fab, .freeCtr]); with_reducible exact touches_sendPacket _ _ _ _ _ _ _)
    | extract_lets
    | decide
    | refine Touches.ofPair (by with_reducible assumption) ?_
    | refine Touches.ofPairSnd (by with_reducible assumption) ?_
    | refine Touches.ofTriple (by with_reducible assumption) ?_
    | dsimp +zetaDelta only

theorem touches_sendCtrlTo (s : State) (c : Nat) (acc : Nat) (k : Ctrl) : Touches [.ctxs, .fab, .freeCtr] s (sendCtrlTo s c acc k) := by
  unfold sendCtrlTo
  repeat' first
    | with_reducible assumption
    | with_reducible exact Touches.refl _ _
    | (apply Touches.andThen (qs := [.ctxs]); with_reducible exact touches_modLed _ _ _)
    | (apply Touches.andThen (qs := [.ctxs, .fab, .freeCtr]); with_reducible exact touches_sendWrite _ _ _ _)
    | extract_lets
    | split
    | decide
    | dsimp +zetaDelta only

theorem touches_sendCtrl (s : State) (c dst : Nat) (k : Ctrl) : Touches [.ctxs, .fab, .freeCtr] s (sendCtrl s c dst k) := by
  unfold sendCtrl
  repeat' first
    | with_reducible assumption
    | with_reducible exact Touches.refl _ _
    | (apply Touches.andThen (qs := [.ctxs, .fab, .freeCtr]); with_reducible exact touches_sendCtrlTo _ _ _ _)
    | split
    | decide

theorem touches_report (s : State) (c : Nat) (typ rank arg : Nat) : Touches [.ctxs, .fab, .freeCtr] s (report s c typ rank arg) := by
  unfold report
  repeat' first
    | with_reducible assumption
    | with_reducible exact Touches.refl _ _
    | (apply Touches.andThen (qs := [.ctxs, .fab, .freeCtr]); with_reducible exact touches_sendCtrl _ _ _ _)
    | decide

theorem touches_ledgerLost (before after : State) : Touches [.ctxs, .fab, .freeCtr] after (ledgerLost before after) := by
  unfold ledgerLost
  repeat' first
    | with_reducible assumption
    | with_reducible exact Touches.refl _ _
    | (apply Touches.andThen (qs := [.ctxs, .fab, .freeCtr]); with_reducible exact touches_report _ _ _ _ _)
    | extract_lets
    | split
    | decide
    | (with_reducible refine Touches.foldl ?_ ?_; intro _ _)
    | dsimp +zetaDelta only

theorem touches_routeRecompute (s : State) : Touches [.ctxs, .fab, .freeCtr] s (routeRecompute s) := by
  unfold routeRecompute
  repeat' first
    | with_reducible assumption
    | with_reducible exact Touches.refl _ _
    | (apply Touches.andThen (qs := [.freeCtr]); with_reducible exact touches_free _ _)
    | (apply Touches.andThen (qs := [.fab]); with_reducible exact touches_modFab _ _)
    | (apply Touches.andThen (qs := [.fab]); with_reducible exact touches_installRoutes _)
    | (apply Touches.andThen (qs := [.ctxs, .fab, .freeCtr]); with_reducible exact touches_report _ _ _ _ _)
    | extract_lets
    | split
    | decide
    | refine Touches.ofPair (by with_reducible assumption) ?_
    | refine Touches.ofPairSnd (by with_reducible assumption) ?_
    | refine Touches.ofTriple (by with_reducible assumption) ?_
    | (with_reducible refine Touches.foldl ?_ ?_; intro _ _)
    | dsimp +zetaDelta only

theorem touches_commitCause (s : State) (c cause : Nat) : Touches [.ctxs] s (commitCause s c cause) := by
  unfold commitCause
  repeat' first
    | with_reducible assumption
    | with_reducible exact Touches.refl _ _
    | (apply Touches.andThen (qs := [.ctxs]); with_reducible exact touches_modCommit _ _ _)
    | split
    | decide

theorem touches_snapshotObject (s : State) (c slot i : Nat) : Touches [.bytes, .tiers, .ctxs] s (snapshotObject s c slot i) := by
  unfold snapshotObject
  repeat' first
    | with_reducible assumption
    | with_reducible exact Touches.refl _ _
    | (apply Touches.andThen (qs := [.ctxs]); with_reducible exact touches_modLed _ _ _)
    | (apply Touches.andThen (qs := [.ctxs]); with_reducible exact touches_modCommit _ _ _)
    | (apply Touches.andThen (qs := [.bytes, .tiers]); with_reducible exact touches_ledgerWrite _ _ _ _)
    | (apply Touches.andThen (qs := [.ctxs]); with_reducible exact touches_commitCause _ _ _)
    | extract_lets
    | split
    | decide
    | dsimp +zetaDelta only

theorem touches_tapFinish (s : State) (c i : Nat) (b : Blob) : Touches [.bytes, .tiers, .ctxs] s (tapFinish s c i b) := by
  unfold tapFinish
  repeat' first
    | with_reducible assumption
    | with_reducible exact Touches.refl _ _
    | (apply Touches.andThen (qs := [.ctxs]); with_reducible exact touches_modLed _ _ _)
    | (apply Touches.andThen (qs := [.bytes, .tiers]); with_reducible exact touches_ledgerWrite _ _ _ _)
    | (apply Touches.andThen (qs := [.ctxs]); with_reducible exact touches_commitCause _ _ _)
    | extract_lets
    | split
    | decide
    | dsimp +zetaDelta only

theorem touches_commitPoint (s : State) (c C : Nat) : Touches [.ctxs] s (commitPoint s c C) := by
  unfold commitPoint
  repeat' first
    | with_reducible assumption
    | with_reducible exact Touches.refl _ _
    | (apply Touches.andThen (qs := [.ctxs]); with_reducible exact touches_modCtx _ _ _)
    | split
    | decide

theorem touches_commitSnapshot (s : State) (c : Nat) : Touches [.bytes, .tiers, .ctxs] s (commitSnapshot s c) := by
  unfold commitSnapshot
  repeat' first
    | with_reducible assumption
    | with_reducible exact Touches.refl _ _
    | (apply Touches.andThen (qs := [.ctxs]); with_reducible exact touches_modLed _ _ _)
    | (apply Touches.andThen (qs := [.bytes, .tiers, .ctxs]); with_reducible exact touches_snapshotObject _ _ _ _)
    | (apply Touches.andThen (qs := [.bytes, .tiers, .ctxs]); with_reducible exact touches_tapFinish _ _ _ _)
    | extract_lets
    | split
    | decide
    | (with_reducible refine Touches.foldl ?_ ?_; intro _ _)
    | dsimp +zetaDelta only

theorem touches_snapshotDone (s : State) (c : Nat) : Touches [.ctxs] s (snapshotDone s c) := by
  unfold snapshotDone
  repeat' first
    | with_reducible assumption
    | with_reducible exact Touches.refl _ _
    | (apply Touches.andThen (qs := [.ctxs]); with_reducible exact touches_modCommit _ _ _)
    | extract_lets
    | split
    | decide
    | dsimp +zetaDelta only

theorem touches_failLost (before after : State) (port : Nat) : Touches [.ctxs] after (failLost before after port) := by
  unfold failLost
  repeat' first
    | with_reducible assumption
    | with_reducible exact Touches.refl _ _
    | (apply Touches.andThen (qs := [.ctxs]); with_reducible exact touches_commitCause _ _ _)
    | extract_lets
    | split
    | decide
    | (with_reducible refine Touches.foldl ?_ ?_; intro _ _)
    | dsimp +zetaDelta only

theorem touches_tapWord (s : State) (c stream : Nat) (w : SWord) : Touches [.bytes, .tiers, .ctxs] s (tapWord s c stream w) := by
  unfold tapWord
  repeat' first
    | with_reducible assumption
    | with_reducible exact Touches.refl _ _
    | (apply Touches.andThen (qs := [.ctxs]); with_reducible exact touches_modCtx _ _ _)
    | (apply Touches.andThen (qs := [.ctxs]); with_reducible exact touches_modLed _ _ _)
    | (apply Touches.andThen (qs := [.bytes, .tiers, .ctxs]); with_reducible exact touches_tapFinish _ _ _ _)
    | extract_lets
    | split
    | decide
    | (with_reducible refine Touches.foldl ?_ ?_; intro _ _)
    | dsimp +zetaDelta only

theorem touches_sendWrites (s : State) (peer : Nat) (job : BitVec 32) (b : Blob) : Touches [.ctxs, .fab, .freeCtr] s (sendWrites s peer job b) := by
  unfold sendWrites
  repeat' first
    | with_reducible assumption
    | with_reducible exact Touches.refl _ _
    | (apply Touches.andThen (qs := [.ctxs, .fab, .freeCtr]); with_reducible exact touches_sendWrite _ _ _ _)
    | decide
    | (with_reducible refine Touches.foldl ?_ ?_; intro _ _)

theorem touches_copyObject (s : State) (c i : Nat) : Touches [.ctxs, .fab, .freeCtr] s (copyObject s c i) := by
  unfold copyObject
  repeat' first
    | with_reducible assumption
    | with_reducible exact Touches.refl _ _
    | (apply Touches.andThen (qs := [.ctxs]); with_reducible exact touches_modCommit _ _ _)
    | (apply Touches.andThen (qs := [.ctxs, .fab, .freeCtr]); with_reducible exact touches_sendWrites _ _ _ _)
    | extract_lets
    | split
    | decide
    | dsimp +zetaDelta only

theorem touches_parityReads (s : State) (c g : Nat) : Touches [.ctxs, .fab, .freeCtr] s (parityReads s c g) := by
  unfold parityReads
  repeat' first
    | with_reducible assumption
    | with_reducible exact Touches.refl _ _
    | (apply Touches.andThen (qs := [.freeCtr]); with_reducible exact touches_free _ _)
    | (apply Touches.andThen (qs := [.ctxs, .fab, .freeCtr]); with_reducible exact touches_sendPacket _ _ _ _ _ _ _)
    | (apply Touches.andThen (qs := [.ctxs]); with_reducible exact touches_modLed _ _ _)
    | extract_lets
    | split
    | decide
    | refine Touches.ofPair (by with_reducible assumption) ?_
    | refine Touches.ofPairSnd (by with_reducible assumption) ?_
    | refine Touches.ofTriple (by with_reducible assumption) ?_
    | (with_reducible refine Touches.foldl ?_ ?_; intro _ _)
    | dsimp +zetaDelta only

theorem touches_parityCompute (s : State) (c g : Nat) : Touches [.bytes, .tiers, .ctxs, .fab, .freeCtr] s (parityCompute s c g) := by
  unfold parityCompute
  repeat' first
    | with_reducible assumption
    | with_reducible exact Touches.refl _ _
    | (apply Touches.andThen (qs := [.ctxs]); with_reducible exact touches_modLed _ _ _)
    | (apply Touches.andThen (qs := [.ctxs]); with_reducible exact touches_modCommit _ _ _)
    | (apply Touches.andThen (qs := [.bytes, .tiers]); with_reducible exact touches_ledgerWrite _ _ _ _)
    | (apply Touches.andThen (qs := [.ctxs, .fab, .freeCtr]); with_reducible exact touches_parityReads _ _ _)
    | extract_lets
    | split
    | decide
    | (with_reducible refine Touches.foldl ?_ ?_; intro _ _)
    | dsimp +zetaDelta only

theorem touches_commitRecordWrite (s : State) (c : Nat) : Touches [.bytes, .tiers, .ctxs, .fab, .freeCtr] s (commitRecordWrite s c) := by
  unfold commitRecordWrite
  repeat' first
    | with_reducible assumption
    | with_reducible exact Touches.refl _ _
    | (apply Touches.andThen (qs := [.ctxs]); with_reducible exact touches_modCommit _ _ _)
    | (apply Touches.andThen (qs := [.bytes, .tiers]); with_reducible exact touches_ledgerWrite _ _ _ _)
    | (apply Touches.andThen (qs := [.ctxs, .fab, .freeCtr]); with_reducible exact touches_sendWrites _ _ _ _)
    | extract_lets
    | split
    | decide
    | dsimp +zetaDelta only

theorem touches_sendTree (s : State) (c r operand : Nat) (b : Blob) : Touches [.ctxs, .fab, .freeCtr] s (sendTree s c r operand b) := by
  unfold sendTree
  repeat' first
    | with_reducible assumption
    | with_reducible exact Touches.refl _ _
    | (apply Touches.andThen (qs := [.ctxs, .fab, .freeCtr]); with_reducible exact touches_sendPacket _ _ _ _ _ _ _)
    | split
    | decide

theorem touches_answerCommit (s : State) (c : Nat) : Touches [.ctxs, .fab, .freeCtr] s (answerCommit s c) := by
  unfold answerCommit
  repeat' first
    | with_reducible assumption
    | with_reducible exact Touches.refl _ _
    | (apply Touches.andThen (qs := [.ctxs]); with_reducible exact touches_modCommit _ _ _)
    | (apply Touches.andThen (qs := [.ctxs, .fab, .freeCtr]); with_reducible exact touches_sendTree _ _ _ _ _)
    | extract_lets
    | split
    | decide
    | (with_reducible refine Touches.foldl ?_ ?_; intro _ _)
    | dsimp +zetaDelta only

theorem touches_sendLeaf (s : State) (c v : Nat) : Touches [.ctxs, .fab, .freeCtr] s (sendLeaf s c v) := by
  unfold sendLeaf
  repeat' first
    | with_reducible assumption
    | with_reducible exact Touches.refl _ _
    | (apply Touches.andThen (qs := [.ctxs]); with_reducible exact touches_modLed _ _ _)
    | (apply Touches.andThen (qs := [.ctxs]); with_reducible exact touches_modCommit _ _ _)
    | (apply Touches.andThen (qs := [.ctxs, .fab, .freeCtr]); with_reducible exact touches_sendTree _ _ _ _ _)
    | (apply Touches.andThen (qs := [.ctxs, .fab, .freeCtr]); with_reducible exact touches_answerCommit _ _)
    | extract_lets
    | split
    | decide
    | dsimp +zetaDelta only

theorem touches_commitLeaf (s : State) (c : Nat) : Touches [.ctxs, .fab, .freeCtr] s (commitLeaf s c) := by
  unfold commitLeaf
  repeat' first
    | with_reducible assumption
    | with_reducible exact Touches.refl _ _
    | (apply Touches.andThen (qs := [.ctxs]); with_reducible exact touches_commitCause _ _ _)
    | (apply Touches.andThen (qs := [.ctxs, .fab, .freeCtr]); with_reducible exact touches_sendLeaf _ _ _)
    | extract_lets
    | split
    | decide
    | dsimp +zetaDelta only

theorem touches_directoryWrite (s : State) : Touches [.bytes, .tiers, .ledger] s (directoryWrite s) := by
  unfold directoryWrite
  repeat' first
    | with_reducible assumption
    | with_reducible exact Touches.refl _ _
    | (apply Touches.andThen (qs := [.bytes, .tiers]); with_reducible exact touches_memWrite _ _ _)
    | extract_lets
    | decide
    | (with_reducible refine Touches.mk' _ rfl rfl rfl ?_ ?_ ?_ ?_ ?_ ?_ rfl ?_ ?_ ?_ ?_ ?_ ?_ ?_ ?_ ?_ ?_)
    | exact Or.inr (by decide)
    | exact Or.inl rfl
    | dsimp +zetaDelta only

theorem touches_putJob (s : State) (j : LedgerJob) : Touches [.ledger] s (putJob s j) := by
  unfold putJob
  repeat' first
    | with_reducible assumption
    | with_reducible exact Touches.refl _ _
    | decide
    | (with_reducible refine Touches.mk' _ rfl rfl rfl ?_ ?_ ?_ ?_ ?_ ?_ rfl ?_ ?_ ?_ ?_ ?_ ?_ ?_ ?_ ?_ ?_)
    | exact Or.inr (by decide)
    | exact Or.inl rfl

theorem touches_releaseLedger (s : State) (job : BitVec 32) : Touches [.bytes, .granules, .tiers, .ledger] s (releaseLedger s job) := by
  unfold releaseLedger
  repeat' first
    | with_reducible assumption
    | with_reducible exact Touches.refl _ _
    | (apply Touches.andThen (qs := [.granules]); with_reducible exact touches_releaseGranule _ _)
    | (apply Touches.andThen (qs := [.bytes, .tiers, .ledger]); with_reducible exact touches_directoryWrite _)
    | extract_lets
    | split
    | decide
    | (with_reducible refine Touches.foldl ?_ ?_; intro _ _)
    | (with_reducible refine Touches.mk' _ rfl rfl rfl ?_ ?_ ?_ ?_ ?_ ?_ rfl ?_ ?_ ?_ ?_ ?_ ?_ ?_ ?_ ?_ ?_)
    | exact Or.inr (by decide)
    | exact Or.inl rfl
    | dsimp +zetaDelta only

theorem touches_exportStart (s : State) (c : Nat) : Touches [.ctxs, .fab, .sec, .freeCtr] s (exportStart s c) := by
  unfold exportStart
  repeat' first
    | with_reducible assumption
    | with_reducible exact Touches.refl _ _
    | (apply Touches.andThen (qs := [.ctxs]); with_reducible exact touches_modCtx _ _ _)
    | (apply Touches.andThen (qs := [.sec]); with_reducible exact touches_wantKey _ _)
    | (apply Touches.andThen (qs := [.ctxs, .fab, .freeCtr]); with_reducible exact touches_sendSegment _ _ _ _ _)
    | (apply Touches.andThen (qs := [.ctxs, .fab, .freeCtr]); with_reducible exact touches_exportFrom _ _ _ _)
    | extract_lets
    | split
    | decide
    | (with_reducible refine Touches.foldl ?_ ?_; intro _ _)
    | dsimp +zetaDelta only

theorem touches_sealed (s : State) (c : Nat) : Touches [.bytes, .tiers, .ctxs, .fab, .sec, .ledger, .freeCtr] s (sealed s c) := by
  unfold sealed
  repeat' first
    | with_reducible assumption
    | with_reducible exact Touches.refl _ _
    | (apply Touches.andThen (qs := [.ctxs]); with_reducible exact touches_modCtx _ _ _)
    | (apply Touches.andThen (qs := [.bytes, .tiers, .ledger]); with_reducible exact touches_directoryWrite _)
    | (apply Touches.andThen (qs := [.ledger]); with_reducible exact touches_putJob _ _)
    | (apply Touches.andThen (qs := [.ctxs, .fab, .sec, .freeCtr]); with_reducible exact touches_exportStart _ _)
    | extract_lets
    | split
    | decide
    | (with_reducible refine Touches.foldl ?_ ?_; intro _ _)
    | dsimp +zetaDelta only

theorem touches_commitFailed (s : State) (c cause rank : Nat) : Touches [.ctxs] s (commitFailed s c cause rank) := by
  unfold commitFailed
  repeat' first
    | with_reducible assumption
    | with_reducible exact Touches.refl _ _
    | (apply Touches.andThen (qs := [.ctxs]); with_reducible exact touches_modLed _ _ _)
    | split
    | decide

end Sys2Proof.Machine
end

