-- ==== Sys2Proof/Laws/TouchRemote.lean ====
section
/-!
SUPPORT. What each operation of Machine/Remote.lean touches.
-/

set_option linter.unusedTactic false
set_option linter.unreachableTactic false

namespace Sys2Proof.Machine

theorem touches_modEnd (s : State) (c i k : Nat) (f : FabEnd → FabEnd) : Touches [.ctxs, .fab] s (State.modEnd s c i k f) := by
  unfold State.modEnd
  repeat' first
    | with_reducible assumption
    | with_reducible exact Touches.refl _ _
    | (apply Touches.andThen (qs := [.ctxs]); with_reducible exact touches_modStream _ _ _ _)
    | decide
    | (with_reducible refine Touches.mk' _ rfl rfl rfl ?_ ?_ ?_ ?_ ?_ ?_ rfl ?_ ?_ ?_ ?_ ?_ ?_ ?_ ?_ ?_ ?_)
    | exact Or.inr (by decide)
    | exact Or.inl rfl

theorem touches_sendChecks (s : State) (c : Nat) : Touches [.ctxs, .fab, .freeCtr] s (sendChecks s c) := by
  unfold sendChecks
  repeat' first
    | with_reducible assumption
    | with_reducible exact Touches.refl _ _
    | (apply Touches.andThen (qs := [.ctxs, .fab, .freeCtr]); with_reducible exact touches_sendPacket _ _ _ _ _ _ _)
    | split
    | decide
    | (with_reducible refine Touches.foldl ?_ ?_; intro _ _)

theorem touches_fabricMismatch (s : State) (c : Nat) (r : StreamRec) (k : Nat) : Touches [.cores, .ctxs] s (fabricMismatch s c r k) := by
  unfold fabricMismatch
  repeat' first
    | with_reducible assumption
    | with_reducible exact Touches.refl _ _
    | (apply Touches.andThen (qs := [.ctxs]); with_reducible exact touches_contextFault _ _ _)
    | (apply Touches.andThen (qs := [.cores, .ctxs]); with_reducible exact touches_stopStage _ _ _ _)
    | extract_lets
    | split
    | decide
    | (with_reducible refine Touches.foldl ?_ ?_; intro _ _)
    | dsimp +zetaDelta only

theorem touches_arriveWord (s : State) (c i : Nat) (r : StreamRec) (w : SWord) : Touches [.cores, .tiers, .ctxs] s (arriveWord s c i r w) := by
  unfold arriveWord
  repeat' first
    | with_reducible assumption
    | with_reducible exact Touches.refl _ _
    | (apply Touches.andThen (qs := [.ctxs]); with_reducible exact touches_modStream _ _ _ _)
    | (apply Touches.andThen (qs := [.cores, .ctxs]); with_reducible exact touches_pump _ _ _)
    | (apply Touches.andThen (qs := [.ctxs]); with_reducible exact touches_streamAppend _ _ _ _ _)
    | (apply Touches.andThen (qs := [.cores, .ctxs]); with_reducible exact touches_streamPush _ _ _ _ _ _ _)
    | (apply Touches.andThen (qs := [.cores, .tiers, .ctxs]); with_reducible exact touches_stopEnd _ _ _ _ _)
    | extract_lets
    | split
    | decide
    | refine Touches.ofPair (by with_reducible assumption) ?_
    | refine Touches.ofPairSnd (by with_reducible assumption) ?_
    | refine Touches.ofTriple (by with_reducible assumption) ?_
    | dsimp +zetaDelta only

theorem touches_deny (s : State) : Touches [.fab] s (deny s) := by
  unfold deny
  repeat' first
    | with_reducible assumption
    | with_reducible exact Touches.refl _ _
    | (apply Touches.andThen (qs := [.fab]); with_reducible exact touches_modFab _ _)
    | decide

theorem touches_takeFor (s : State) (h kind : Nat) : Touches [.ctxs, .fab, .freeCtr] s (takeFor s h kind).1 := by
  unfold takeFor
  repeat' first
    | with_reducible assumption
    | with_reducible exact Touches.refl _ _
    | (apply Touches.andThen (qs := [.fab]) (touches_takePacket (by with_reducible assumption)))
    | (apply Touches.andThen (qs := [.ctxs, .fab, .freeCtr]); with_reducible exact touches_acceptPacket _ _)
    | (apply Touches.andThen (qs := [.fab]); with_reducible exact touches_deny _)
    | split
    | decide
    | refine Touches.ofPair (by with_reducible assumption) ?_
    | refine Touches.ofPairSnd (by with_reducible assumption) ?_
    | refine Touches.ofTriple (by with_reducible assumption) ?_

theorem touches_streamPacket (s : State) (p : Pkt) (c : Nat) : Touches [.cores, .bytes, .tiers, .ctxs, .fab] s (streamPacket s p c) := by
  unfold streamPacket
  repeat' first
    | with_reducible assumption
    | with_reducible exact Touches.refl _ _
    | (apply Touches.andThen (qs := [.bytes, .tiers, .ctxs]); with_reducible exact touches_tapWord _ _ _ _)
    | (apply Touches.andThen (qs := [.ctxs, .fab]); with_reducible exact touches_modEnd _ _ _ _ _)
    | (apply Touches.andThen (qs := [.cores, .ctxs]); with_reducible exact touches_fabricMismatch _ _ _ _)
    | (apply Touches.andThen (qs := [.cores, .tiers, .ctxs]); with_reducible exact touches_arriveWord _ _ _ _ _)
    | extract_lets
    | split
    | decide
    | (with_reducible refine Touches.foldl ?_ ?_; intro _ _)
    | dsimp +zetaDelta only

theorem touches_stream (s : State) (h : Nat) : Touches [.cores, .bytes, .tiers, .ctxs, .fab, .freeCtr] s (stream s h) := by
  unfold stream
  repeat' first
    | with_reducible assumption
    | with_reducible exact Touches.refl _ _
    | (apply Touches.andThen (qs := [.ctxs, .fab, .freeCtr]); with_reducible exact touches_takeFor _ _ _)
    | (apply Touches.andThen (qs := [.cores, .bytes, .tiers, .ctxs, .fab]); with_reducible exact touches_streamPacket _ _ _)
    | split
    | decide
    | refine Touches.ofPair (by with_reducible assumption) ?_
    | refine Touches.ofPairSnd (by with_reducible assumption) ?_
    | refine Touches.ofTriple (by with_reducible assumption) ?_

theorem touches_sendBroadcast (s : State) (c node operand : Nat) (b : Blob) : Touches [.ctxs, .fab, .freeCtr] s (sendBroadcast s c node operand b) := by
  unfold sendBroadcast
  repeat' first
    | with_reducible assumption
    | with_reducible exact Touches.refl _ _
    | (apply Touches.andThen (qs := [.ctxs, .fab, .freeCtr]); with_reducible exact touches_sendPacket _ _ _ _ _ _ _)
    | extract_lets
    | split
    | decide
    | (with_reducible refine Touches.foldl ?_ ?_; intro _ _)
    | dsimp +zetaDelta only

theorem touches_forwardBroadcast (s : State) (p : Pkt) (c : Nat) : Touches [.ctxs, .fab, .freeCtr] s (forwardBroadcast s p c) := by
  unfold forwardBroadcast
  repeat' first
    | with_reducible assumption
    | with_reducible exact Touches.refl _ _
    | (apply Touches.andThen (qs := [.ctxs, .fab, .freeCtr]); with_reducible exact touches_sendBroadcast _ _ _ _ _)
    | split
    | decide

theorem touches_barrierRoot (s : State) (c node : Nat) : Touches [.ctxs, .fab, .freeCtr] s (barrierRoot s c node) := by
  unfold barrierRoot
  repeat' first
    | with_reducible assumption
    | with_reducible exact Touches.refl _ _
    | (apply Touches.andThen (qs := [.ctxs]); with_reducible exact touches_modNode _ _ _ _)
    | (apply Touches.andThen (qs := [.ctxs, .fab, .freeCtr]); with_reducible exact touches_sendBroadcast _ _ _ _ _)
    | extract_lets
    | split
    | decide
    | dsimp +zetaDelta only

theorem touches_commitWord (s : State) (p : Pkt) (c : Nat) : Touches [.ctxs, .fab, .freeCtr] s (commitWord s p c) := by
  unfold commitWord
  repeat' first
    | with_reducible assumption
    | with_reducible exact Touches.refl _ _
    | (apply Touches.andThen (qs := [.ctxs]); with_reducible exact touches_modLed _ _ _)
    | (apply Touches.andThen (qs := [.ctxs]); with_reducible exact touches_modCommit _ _ _)
    | (apply Touches.andThen (qs := [.ctxs, .fab, .freeCtr]); with_reducible exact touches_answerCommit _ _)
    | extract_lets
    | split
    | decide
    | dsimp +zetaDelta only

theorem touches_collective (s : State) (h : Nat) : Touches [.cores, .bytes, .tiers, .ctxs, .fab, .freeCtr] s (collective s h) := by
  unfold collective
  repeat' first
    | with_reducible assumption
    | with_reducible exact Touches.refl _ _
    | (apply Touches.andThen (qs := [.ctxs, .fab, .freeCtr]); with_reducible exact touches_takeFor _ _ _)
    | (apply Touches.andThen (qs := [.cores, .bytes, .tiers, .ctxs, .fab]); with_reducible exact touches_streamPacket _ _ _)
    | (apply Touches.andThen (qs := [.ctxs, .fab, .freeCtr]); with_reducible exact touches_forwardBroadcast _ _ _)
    | (apply Touches.andThen (qs := [.ctxs, .fab, .freeCtr]); with_reducible exact touches_commitWord _ _ _)
    | split
    | decide
    | refine Touches.ofPair (by with_reducible assumption) ?_
    | refine Touches.ofPairSnd (by with_reducible assumption) ?_
    | refine Touches.ofTriple (by with_reducible assumption) ?_

theorem touches_credit (s : State) (h : Nat) : Touches [.ctxs, .fab, .freeCtr] s (credit s h) := by
  unfold credit
  repeat' first
    | with_reducible assumption
    | with_reducible exact Touches.refl _ _
    | (apply Touches.andThen (qs := [.ctxs, .fab]); with_reducible exact touches_modEnd _ _ _ _ _)
    | (apply Touches.andThen (qs := [.ctxs, .fab, .freeCtr]); with_reducible exact touches_takeFor _ _ _)
    | extract_lets
    | split
    | decide
    | refine Touches.ofPair (by with_reducible assumption) ?_
    | refine Touches.ofPairSnd (by with_reducible assumption) ?_
    | refine Touches.ofTriple (by with_reducible assumption) ?_
    | (with_reducible refine Touches.foldl ?_ ?_; intro _ _)
    | dsimp +zetaDelta only

theorem touches_sendStream (s : State) (c i k : Nat) (e : BitVec 32) : Touches [.cores, .ctxs, .fab, .freeCtr] s (sendStream s c i k e) := by
  unfold sendStream
  repeat' first
    | with_reducible assumption
    | with_reducible exact Touches.refl _ _
    | (apply Touches.andThen (qs := [.cores, .ctxs]); with_reducible exact touches_popWord _ _ _ _)
    | (apply Touches.andThen (qs := [.ctxs, .fab, .freeCtr]); with_reducible exact touches_sendPacket _ _ _ _ _ _ _)
    | (apply Touches.andThen (qs := [.ctxs, .fab]); with_reducible exact touches_modEnd _ _ _ _ _)
    | extract_lets
    | split
    | decide
    | (with_reducible refine Touches.foldl ?_ ?_; intro _ _)
    | dsimp +zetaDelta only

theorem touches_returnCredits (s : State) : Touches [.ctxs, .fab, .freeCtr] s (returnCredits s) := by
  unfold returnCredits
  repeat' first
    | with_reducible assumption
    | with_reducible exact Touches.refl _ _
    | (apply Touches.andThen (qs := [.ctxs, .fab, .freeCtr]); with_reducible exact touches_sendPacket _ _ _ _ _ _ _)
    | (apply Touches.andThen (qs := [.ctxs, .fab]); with_reducible exact touches_modEnd _ _ _ _ _)
    | extract_lets
    | split
    | decide
    | (with_reducible refine Touches.foldl ?_ ?_; intro _ _)
    | dsimp +zetaDelta only

theorem touches_answerRead (s : State) (p : Pkt) (denied : Bool) (b : Blob) : Touches [.ctxs, .fab, .freeCtr] s (answerRead s p denied b) := by
  unfold answerRead
  repeat' first
    | with_reducible assumption
    | with_reducible exact Touches.refl _ _
    | (apply Touches.andThen (qs := [.ctxs, .fab, .freeCtr]); with_reducible exact touches_sendPacket _ _ _ _ _ _ _)
    | decide

theorem touches_gatherRecord (s : State) (c : Nat) (r a : Nat) (d : Blob) : Touches [.ctxs] s (gatherRecord s c r a d) := by
  unfold gatherRecord
  repeat' first
    | with_reducible assumption
    | with_reducible exact Touches.refl _ _
    | (apply Touches.andThen (qs := [.ctxs]); with_reducible exact touches_modLed _ _ _)
    | extract_lets
    | split
    | decide
    | dsimp +zetaDelta only

theorem touches_copyArrived (s : State) (c : Nat) (off n : Nat) : Touches [.ctxs] s (copyArrived s c off n) := by
  unfold copyArrived
  repeat' first
    | with_reducible assumption
    | with_reducible exact Touches.refl _ _
    | (apply Touches.andThen (qs := [.ctxs]); with_reducible exact touches_modLed _ _ _)
    | extract_lets
    | split
    | decide
    | (with_reducible refine Touches.foldl ?_ ?_; intro _ _)
    | dsimp +zetaDelta only

theorem touches_write (s : State) (h : Nat) : Touches [.bytes, .tiers, .ctxs, .fab, .ledger, .freeCtr] s (write s h) := by
  unfold write
  repeat' first
    | with_reducible assumption
    | with_reducible exact Touches.refl _ _
    | (apply Touches.andThen (qs := [.bytes, .tiers]); with_reducible exact touches_writeRange _ _ _ _)
    | (apply Touches.andThen (qs := [.fab]) (touches_takePacket (by with_reducible assumption)))
    | (apply Touches.andThen (qs := [.ctxs, .fab, .freeCtr]); with_reducible exact touches_acceptPacket _ _)
    | (apply Touches.andThen (qs := [.ctxs]); with_reducible exact touches_modLed _ _ _)
    | (apply Touches.andThen (qs := [.fab]); with_reducible exact touches_deny _)
    | (apply Touches.andThen (qs := [.ctxs, .fab, .freeCtr]); with_reducible exact touches_answerRead _ _ _ _)
    | (apply Touches.andThen (qs := [.ctxs]); with_reducible exact touches_gatherRecord _ _ _ _ _)
    | (apply Touches.andThen (qs := [.ctxs]); with_reducible exact touches_copyArrived _ _ _ _)
    | extract_lets
    | split
    | decide
    | refine Touches.ofPair (by with_reducible assumption) ?_
    | refine Touches.ofPairSnd (by with_reducible assumption) ?_
    | refine Touches.ofTriple (by with_reducible assumption) ?_
    | (with_reducible refine Touches.mk' _ rfl rfl rfl ?_ ?_ ?_ ?_ ?_ ?_ rfl ?_ ?_ ?_ ?_ ?_ ?_ ?_ ?_ ?_ ?_)
    | exact Or.inr (by decide)
    | exact Or.inl rfl
    | dsimp +zetaDelta only

theorem touches_read (s : State) (h : Nat) : Touches [.ctxs, .fab, .freeCtr] s (read s h) := by
  unfold read
  repeat' first
    | with_reducible assumption
    | with_reducible exact Touches.refl _ _
    | (apply Touches.andThen (qs := [.freeCtr]); with_reducible exact touches_readRange _ _ _)
    | (apply Touches.andThen (qs := [.fab]) (touches_takePacket (by with_reducible assumption)))
    | (apply Touches.andThen (qs := [.ctxs, .fab, .freeCtr]); with_reducible exact touches_acceptPacket _ _)
    | (apply Touches.andThen (qs := [.fab]); with_reducible exact touches_deny _)
    | (apply Touches.andThen (qs := [.ctxs, .fab, .freeCtr]); with_reducible exact touches_answerRead _ _ _ _)
    | extract_lets
    | split
    | decide
    | refine Touches.ofPair (by with_reducible assumption) ?_
    | refine Touches.ofPairSnd (by with_reducible assumption) ?_
    | refine Touches.ofTriple (by with_reducible assumption) ?_
    | dsimp +zetaDelta only

theorem touches_readData (s : State) (h : Nat) : Touches [.ctxs, .fab, .freeCtr] s (readData s h) := by
  unfold readData
  repeat' first
    | with_reducible assumption
    | with_reducible exact Touches.refl _ _
    | (apply Touches.andThen (qs := [.fab]) (touches_takePacket (by with_reducible assumption)))
    | (apply Touches.andThen (qs := [.ctxs, .fab, .freeCtr]); with_reducible exact touches_acceptPacket _ _)
    | (apply Touches.andThen (qs := [.ctxs]); with_reducible exact touches_modLed _ _ _)
    | (apply Touches.andThen (qs := [.ctxs]); with_reducible exact touches_commitCause _ _ _)
    | split
    | decide
    | refine Touches.ofPair (by with_reducible assumption) ?_
    | refine Touches.ofPairSnd (by with_reducible assumption) ?_
    | refine Touches.ofTriple (by with_reducible assumption) ?_

theorem touches_putSession (s : State) (x : Session) : Touches [.fab] s (putSession s x) := by
  unfold putSession
  repeat' first
    | with_reducible assumption
    | with_reducible exact Touches.refl _ _
    | (apply Touches.andThen (qs := [.fab]); with_reducible exact touches_modFab _ _)
    | split
    | decide

theorem touches_serveLoans (job : BitVec 32) (k : Nat) (n : Nat) (s : State) : Touches [.ctxs, .fab, .freeCtr] s (serveLoans job k n s) := by
  induction n generalizing s with
  | zero => exact Touches.refl _ _
  | succ n ih =>
    unfold serveLoans
    repeat' first
      | with_reducible assumption
      | with_reducible exact Touches.refl _ _
      | (apply Touches.andThen (qs := [.ctxs, .fab, .freeCtr]); with_reducible exact ih _)
      | (apply Touches.andThen (qs := [.freeCtr]); with_reducible exact touches_readRange _ _ _)
      | (apply Touches.andThen (qs := [.fab]); with_reducible exact touches_modFab _ _)
      | (apply Touches.andThen (qs := [.ctxs, .fab, .freeCtr]); with_reducible exact touches_sendPacket _ _ _ _ _ _ _)
      | (apply Touches.andThen (qs := [.fab]); with_reducible exact touches_putSession _ _)
      | extract_lets
      | split
      | decide
      | refine Touches.ofPair (by with_reducible assumption) ?_
      | refine Touches.ofPairSnd (by with_reducible assumption) ?_
      | refine Touches.ofTriple (by with_reducible assumption) ?_
      | (with_reducible refine Touches.foldl ?_ ?_; intro _ _)
      | dsimp +zetaDelta only

theorem touches_tryDone (s : State) (job : BitVec 32) (n : Nat) : Touches [.ctxs, .fab, .freeCtr] s (tryDone s job n) := by
  unfold tryDone
  repeat' first
    | with_reducible assumption
    | with_reducible exact Touches.refl _ _
    | (apply Touches.andThen (qs := [.ctxs, .fab, .freeCtr]); with_reducible exact touches_sendPacket _ _ _ _ _ _ _)
    | (apply Touches.andThen (qs := [.fab]); with_reducible exact touches_putSession _ _)
    | extract_lets
    | split
    | decide
    | dsimp +zetaDelta only

theorem touches_borrowMore (job : BitVec 32) (k : Nat) (n : Nat) (s : State) : Touches [.ctxs, .fab, .freeCtr] s (borrowMore job k n s) := by
  induction n generalizing s with
  | zero => exact Touches.refl _ _
  | succ n ih =>
    unfold borrowMore
    repeat' first
      | with_reducible assumption
      | with_reducible exact Touches.refl _ _
      | (apply Touches.andThen (qs := [.ctxs, .fab, .freeCtr]); with_reducible exact ih _)
      | (apply Touches.andThen (qs := [.ctxs, .fab, .freeCtr]); with_reducible exact touches_sendPacket _ _ _ _ _ _ _)
      | (apply Touches.andThen (qs := [.fab]); with_reducible exact touches_putSession _ _)
      | extract_lets
      | split
      | decide
      | dsimp +zetaDelta only

theorem touches_startBorrow (s : State) (job : BitVec 32) (n off : Nat) : Touches [.ctxs, .fab, .freeCtr] s (startBorrow s job n off) := by
  unfold startBorrow
  repeat' first
    | with_reducible assumption
    | with_reducible exact Touches.refl _ _
    | (apply Touches.andThen (qs := [.fab]); with_reducible exact touches_putSession _ _)
    | (apply Touches.andThen (qs := [.ctxs, .fab, .freeCtr]); with_reducible exact touches_borrowMore _ _ _ _)
    | split
    | decide

theorem touches_memberWrite (s : State) (x : Session) (off : Nat) (d : Blob) : Touches [.bytes, .tiers, .ctxs, .fab, .freeCtr] s (memberWrite s x off d) := by
  unfold memberWrite
  repeat' first
    | with_reducible assumption
    | with_reducible exact Touches.refl _ _
    | (apply Touches.andThen (qs := [.bytes, .tiers]); with_reducible exact touches_writeRange _ _ _ _)
    | (apply Touches.andThen (qs := [.fab]); with_reducible exact touches_putSession _ _)
    | (apply Touches.andThen (qs := [.ctxs, .fab, .freeCtr]); with_reducible exact touches_serveLoans _ _ _ _)
    | (apply Touches.andThen (qs := [.ctxs, .fab, .freeCtr]); with_reducible exact touches_tryDone _ _ _)
    | extract_lets
    | split
    | decide
    | dsimp +zetaDelta only

theorem touches_mcast (s : State) (h : Nat) : Touches [.bytes, .tiers, .ctxs, .fab, .freeCtr] s (mcast s h) := by
  unfold mcast
  repeat' first
    | with_reducible assumption
    | with_reducible exact Touches.refl _ _
    | (apply Touches.andThen (qs := [.ctxs, .fab, .freeCtr]); with_reducible exact touches_takeFor _ _ _)
    | (apply Touches.andThen (qs := [.bytes, .tiers, .ctxs, .fab, .freeCtr]); with_reducible exact touches_memberWrite _ _ _ _)
    | split
    | decide
    | refine Touches.ofPair (by with_reducible assumption) ?_
    | refine Touches.ofPairSnd (by with_reducible assumption) ?_
    | refine Touches.ofTriple (by with_reducible assumption) ?_

theorem touches_detachLagging (s : State) (x : Session) (k top : Nat) : Touches [.ctxs, .fab, .freeCtr] s (detachLagging s x k top).1 := by
  unfold detachLagging
  repeat' first
    | with_reducible assumption
    | with_reducible exact Touches.refl _ _
    | (apply Touches.andThen (qs := [.fab]); with_reducible exact touches_modFab _ _)
    | (apply Touches.andThen (qs := [.ctxs, .fab, .freeCtr]); with_reducible exact touches_sendPacket _ _ _ _ _ _ _)
    | extract_lets
    | split
    | decide
    | (with_reducible refine Touches.foldl ?_ ?_; intro _ _)
    | (with_reducible refine Touches.foldlPair ?_ ?_; intro _ _)
    | dsimp +zetaDelta only

theorem touches_mcastSend (s : State) (job : BitVec 32) (n k : Nat) : Touches [.ctxs, .fab, .freeCtr] s (mcastSend s job n k) := by
  unfold mcastSend
  repeat' first
    | with_reducible assumption
    | with_reducible exact Touches.refl _ _
    | (apply Touches.andThen (qs := [.freeCtr]); with_reducible exact touches_readRange _ _ _)
    | (apply Touches.andThen (qs := [.ctxs, .fab, .freeCtr]); with_reducible exact touches_sendPacket _ _ _ _ _ _ _)
    | (apply Touches.andThen (qs := [.ctxs, .fab, .freeCtr]); with_reducible exact touches_credit _ _)
    | (apply Touches.andThen (qs := [.fab]); with_reducible exact touches_putSession _ _)
    | (apply Touches.andThen (qs := [.ctxs, .fab, .freeCtr]); with_reducible exact touches_detachLagging _ _ _ _)
    | extract_lets
    | split
    | decide
    | refine Touches.ofPair (by with_reducible assumption) ?_
    | refine Touches.ofPairSnd (by with_reducible assumption) ?_
    | refine Touches.ofTriple (by with_reducible assumption) ?_
    | (with_reducible refine Touches.foldl ?_ ?_; intro _ _)
    | dsimp +zetaDelta only

theorem touches_loan (s : State) (h : Nat) : Touches [.ctxs, .fab, .freeCtr] s (loan s h) := by
  unfold loan
  repeat' first
    | with_reducible assumption
    | with_reducible exact Touches.refl _ _
    | (apply Touches.andThen (qs := [.fab]); with_reducible exact touches_modFab _ _)
    | (apply Touches.andThen (qs := [.fab]) (touches_takePacket (by with_reducible assumption)))
    | (apply Touches.andThen (qs := [.ctxs, .fab, .freeCtr]); with_reducible exact touches_sendPacket _ _ _ _ _ _ _)
    | (apply Touches.andThen (qs := [.ctxs, .fab, .freeCtr]); with_reducible exact touches_acceptPacket _ _)
    | (apply Touches.andThen (qs := [.fab]); with_reducible exact touches_deny _)
    | (apply Touches.andThen (qs := [.fab]); with_reducible exact touches_putSession _ _)
    | (apply Touches.andThen (qs := [.ctxs, .fab, .freeCtr]); with_reducible exact touches_serveLoans _ _ _ _)
    | extract_lets
    | split
    | decide
    | refine Touches.ofPair (by with_reducible assumption) ?_
    | refine Touches.ofPairSnd (by with_reducible assumption) ?_
    | refine Touches.ofTriple (by with_reducible assumption) ?_
    | (with_reducible refine Touches.foldl ?_ ?_; intro _ _)
    | dsimp +zetaDelta only

theorem touches_pullMore (peer : Nat) (job : BitVec 32) (n : Nat) (s : State) : Touches [.ctxs, .fab, .freeCtr] s (pullMore peer job n s) := by
  induction n generalizing s with
  | zero => exact Touches.refl _ _
  | succ n ih =>
    unfold pullMore
    repeat' first
      | with_reducible assumption
      | with_reducible exact Touches.refl _ _
      | (apply Touches.andThen (qs := [.ctxs, .fab, .freeCtr]); with_reducible exact ih _)
      | (apply Touches.andThen (qs := [.fab]); with_reducible exact touches_modFab _ _)
      | (apply Touches.andThen (qs := [.ctxs, .fab, .freeCtr]); with_reducible exact touches_sendPacket _ _ _ _ _ _ _)
      | extract_lets
      | split
      | decide
      | dsimp +zetaDelta only

theorem touches_pullData (s : State) (u : Pull) (off : Nat) (d : Blob) : Touches [.ctxs, .fab, .freeCtr] s (pullData s u off d) := by
  unfold pullData
  repeat' first
    | with_reducible assumption
    | with_reducible exact Touches.refl _ _
    | (apply Touches.andThen (qs := [.fab]); with_reducible exact touches_modFab _ _)
    | (apply Touches.andThen (qs := [.ctxs, .fab, .freeCtr]); with_reducible exact touches_pullMore _ _ _ _)
    | extract_lets
    | split
    | decide
    | dsimp +zetaDelta only

theorem touches_loanData (s : State) (h : Nat) : Touches [.bytes, .tiers, .ctxs, .fab, .freeCtr] s (loanData s h) := by
  unfold loanData
  repeat' first
    | with_reducible assumption
    | with_reducible exact Touches.refl _ _
    | (apply Touches.andThen (qs := [.fab]); with_reducible exact touches_modFab _ _)
    | (apply Touches.andThen (qs := [.fab]) (touches_takePacket (by with_reducible assumption)))
    | (apply Touches.andThen (qs := [.ctxs, .fab, .freeCtr]); with_reducible exact touches_acceptPacket _ _)
    | (apply Touches.andThen (qs := [.fab]); with_reducible exact touches_putSession _ _)
    | (apply Touches.andThen (qs := [.ctxs, .fab, .freeCtr]); with_reducible exact touches_borrowMore _ _ _ _)
    | (apply Touches.andThen (qs := [.bytes, .tiers, .ctxs, .fab, .freeCtr]); with_reducible exact touches_memberWrite _ _ _ _)
    | (apply Touches.andThen (qs := [.ctxs, .fab, .freeCtr]); with_reducible exact touches_pullData _ _ _ _)
    | extract_lets
    | split
    | decide
    | refine Touches.ofPair (by with_reducible assumption) ?_
    | refine Touches.ofPairSnd (by with_reducible assumption) ?_
    | refine Touches.ofTriple (by with_reducible assumption) ?_
    | dsimp +zetaDelta only

theorem touches_takeNotice (s : State) (h code : Nat) : Touches [.ctxs, .fab, .freeCtr] s (takeNotice s h code).1 := by
  unfold takeNotice
  repeat' first
    | with_reducible assumption
    | with_reducible exact Touches.refl _ _
    | (apply Touches.andThen (qs := [.fab]); with_reducible exact touches_modLink _ _ _)
    | (apply Touches.andThen (qs := [.fab]); with_reducible exact touches_freeFlits _ _ _ _)
    | (apply Touches.andThen (qs := [.ctxs, .fab, .freeCtr]); with_reducible exact touches_acceptPacket _ _)
    | (apply Touches.andThen (qs := [.fab]); with_reducible exact touches_deny _)
    | extract_lets
    | split
    | decide
    | refine Touches.ofPair (by with_reducible assumption) ?_
    | refine Touches.ofPairSnd (by with_reducible assumption) ?_
    | refine Touches.ofTriple (by with_reducible assumption) ?_
    | dsimp +zetaDelta only

theorem touches_noticeLagged (s : State) (h : Nat) : Touches [.ctxs, .fab, .freeCtr] s (noticeLagged s h) := by
  unfold noticeLagged
  repeat' first
    | with_reducible assumption
    | with_reducible exact Touches.refl _ _
    | (apply Touches.andThen (qs := [.ctxs, .fab, .freeCtr]); with_reducible exact touches_startBorrow _ _ _ _)
    | (apply Touches.andThen (qs := [.ctxs, .fab, .freeCtr]); with_reducible exact touches_takeNotice _ _ _)
    | split
    | decide
    | refine Touches.ofPair (by with_reducible assumption) ?_
    | refine Touches.ofPairSnd (by with_reducible assumption) ?_
    | refine Touches.ofTriple (by with_reducible assumption) ?_

theorem touches_noticeDone (s : State) (h : Nat) : Touches [.ctxs, .fab, .freeCtr] s (noticeDone s h) := by
  unfold noticeDone
  repeat' first
    | with_reducible assumption
    | with_reducible exact Touches.refl _ _
    | (apply Touches.andThen (qs := [.fab]); with_reducible exact touches_putSession _ _)
    | (apply Touches.andThen (qs := [.ctxs, .fab, .freeCtr]); with_reducible exact touches_tryDone _ _ _)
    | (apply Touches.andThen (qs := [.ctxs, .fab, .freeCtr]); with_reducible exact touches_takeNotice _ _ _)
    | extract_lets
    | split
    | decide
    | refine Touches.ofPair (by with_reducible assumption) ?_
    | refine Touches.ofPairSnd (by with_reducible assumption) ?_
    | refine Touches.ofTriple (by with_reducible assumption) ?_
    | dsimp +zetaDelta only

theorem touches_borrowRoot (s : State) (x : Session) : Touches [.ctxs, .fab, .freeCtr] s (borrowRoot s x) := by
  unfold borrowRoot
  repeat' first
    | with_reducible assumption
    | with_reducible exact Touches.refl _ _
    | (apply Touches.andThen (qs := [.freeCtr]); with_reducible exact touches_free _ _)
    | (apply Touches.andThen (qs := [.fab]); with_reducible exact touches_putSession _ _)
    | (apply Touches.andThen (qs := [.ctxs, .fab, .freeCtr]); with_reducible exact touches_startBorrow _ _ _ _)
    | extract_lets
    | split
    | decide
    | refine Touches.ofPair (by with_reducible assumption) ?_
    | refine Touches.ofPairSnd (by with_reducible assumption) ?_
    | refine Touches.ofTriple (by with_reducible assumption) ?_
    | dsimp +zetaDelta only

theorem touches_orphanSessions (s : State) : Touches [.ctxs, .fab, .freeCtr] s (orphanSessions s) := by
  unfold orphanSessions
  repeat' first
    | with_reducible assumption
    | with_reducible exact Touches.refl _ _
    | (apply Touches.andThen (qs := [.ctxs, .fab, .freeCtr]); with_reducible exact touches_borrowRoot _ _)
    | split
    | decide
    | (with_reducible refine Touches.foldl ?_ ?_; intro _ _)

end Sys2Proof.Machine
end

