-- ==== Sys2Proof/Laws/TouchTrain.lean ====
section
/-!
SUPPORT. What each operation of Machine/Train.lean touches.
-/

set_option linter.unusedTactic false
set_option linter.unreachableTactic false

namespace Sys2Proof.Machine

theorem touches_snapCore (st : State × EpSnap) (n : Nat) : Touches [.cores] st.1 (snapCore st n).1 := by
  unfold snapCore
  repeat' first
    | with_reducible assumption
    | with_reducible exact Touches.refl _ _
    | (apply Touches.andThen (qs := [.cores]); with_reducible exact touches_modCore _ _ _)
    | extract_lets
    | decide
    | (with_reducible refine Touches.foldl ?_ ?_; intro _ _)
    | (with_reducible refine Touches.foldlPair ?_ ?_; intro _ _)
    | dsimp +zetaDelta only

theorem touches_snapQueue (st : State × EpSnap) (n : Nat × Nat) : Touches [.media] st.1 (snapQueue st n).1 := by
  unfold snapQueue
  repeat' first
    | with_reducible assumption
    | with_reducible exact Touches.refl _ _
    | (apply Touches.andThen (qs := [.media]); with_reducible exact touches_modQueue _ _ _ _)
    | extract_lets
    | decide
    | dsimp +zetaDelta only

theorem touches_verdictBarrier (s : State) (c : Nat) : Touches [.cores, .ctxs, .media] s (verdictBarrier s c) := by
  unfold verdictBarrier
  repeat' first
    | with_reducible assumption
    | with_reducible exact Touches.refl _ _
    | (apply Touches.andThen (qs := [.cores]); with_reducible exact touches_modCore _ _ _)
    | (apply Touches.andThen (qs := [.ctxs]); with_reducible exact touches_modCtx _ _ _)
    | (apply Touches.andThen (qs := [.cores]); with_reducible exact touches_snapCore _ _)
    | (apply Touches.andThen (qs := [.media]); with_reducible exact touches_snapQueue _ _)
    | extract_lets
    | split
    | decide
    | refine Touches.ofPair (by with_reducible assumption) ?_
    | refine Touches.ofPairSnd (by with_reducible assumption) ?_
    | refine Touches.ofTriple (by with_reducible assumption) ?_
    | (with_reducible refine Touches.foldl ?_ ?_; intro _ _)
    | (with_reducible refine Touches.foldlPair ?_ ?_; intro _ _)
    | dsimp +zetaDelta only

theorem touches_countSkipped (s : State) (c : Nat) : Touches [.cores] s (countSkipped s c) := by
  unfold countSkipped
  repeat' first
    | with_reducible assumption
    | with_reducible exact Touches.refl _ _
    | (apply Touches.andThen (qs := [.cores]); with_reducible exact touches_modUpd _ _ _)
    | split
    | decide
    | (with_reducible refine Touches.foldl ?_ ?_; intro _ _)

theorem touches_verdictReceived (s : State) (c code : Nat) : Touches [.cores, .ctxs, .fab, .freeCtr] s (verdictReceived s c code) := by
  unfold verdictReceived
  repeat' first
    | with_reducible assumption
    | with_reducible exact Touches.refl _ _
    | (apply Touches.andThen (qs := [.cores]); with_reducible exact touches_modCore _ _ _)
    | (apply Touches.andThen (qs := [.ctxs]); with_reducible exact touches_modCtx _ _ _)
    | (apply Touches.andThen (qs := [.ctxs, .fab, .freeCtr]); with_reducible exact touches_report _ _ _ _ _)
    | (apply Touches.andThen (qs := [.cores]); with_reducible exact touches_countSkipped _ _)
    | extract_lets
    | split
    | decide
    | dsimp +zetaDelta only

theorem touches_newStep (s : State) (c : Nat) : Touches [.cores, .ctxs, .media] s (newStep s c) := by
  unfold newStep
  repeat' first
    | with_reducible assumption
    | with_reducible exact Touches.refl _ _
    | (apply Touches.andThen (qs := [.cores]); with_reducible exact touches_modCore _ _ _)
    | (apply Touches.andThen (qs := [.ctxs]); with_reducible exact touches_modCtx _ _ _)
    | (apply Touches.andThen (qs := [.media]); with_reducible exact touches_modQueue _ _ _ _)
    | extract_lets
    | decide
    | (with_reducible refine Touches.foldl ?_ ?_; intro _ _)
    | dsimp +zetaDelta only

theorem touches_unloadNow (s : State) (c : Nat) : Touches [.cores, .shelves, .ctxs, .media, .bring, .freeCtr] s (unloadNow s c) := by
  unfold unloadNow
  repeat' first
    | with_reducible assumption
    | with_reducible exact Touches.refl _ _
    | (apply Touches.andThen (qs := [.cores]); with_reducible exact touches_modCore _ _ _)
    | (apply Touches.andThen (qs := [.shelves]); with_reducible exact touches_modShelf _ _ _)
    | (apply Touches.andThen (qs := [.ctxs]); with_reducible exact touches_modCtx _ _ _)
    | (apply Touches.andThen (qs := [.bring]); with_reducible exact touches_rebindShelf _ _)
    | (apply Touches.andThen (qs := [.media, .freeCtr]); with_reducible exact touches_closeQueues _ _ _)
    | extract_lets
    | decide
    | (with_reducible refine Touches.foldl ?_ ?_; intro _ _)
    | dsimp +zetaDelta only

theorem touches_joinAtBoundary (s : State) (c step : Nat) : Touches [.ctxs, .fab, .freeCtr] s (joinAtBoundary s c step) := by
  unfold joinAtBoundary
  repeat' first
    | with_reducible assumption
    | with_reducible exact Touches.refl _ _
    | (apply Touches.andThen (qs := [.ctxs]); with_reducible exact touches_modLed _ _ _)
    | (apply Touches.andThen (qs := [.ctxs, .fab, .freeCtr]); with_reducible exact touches_sendCtrlTo _ _ _ _)
    | (apply Touches.andThen (qs := [.ctxs, .fab, .freeCtr]); with_reducible exact touches_sendCtrl _ _ _ _)
    | extract_lets
    | split
    | decide
    | (with_reducible refine Touches.foldl ?_ ?_; intro _ _)
    | dsimp +zetaDelta only

theorem touches_endOfStepBarrier (s : State) (c : Nat) : Touches [.cores, .shelves, .ctxs, .media, .fab, .bring, .freeCtr] s (endOfStepBarrier s c) := by
  unfold endOfStepBarrier
  repeat' first
    | with_reducible assumption
    | with_reducible exact Touches.refl _ _
    | (apply Touches.andThen (qs := [.ctxs]); with_reducible exact touches_modCtx _ _ _)
    | (apply Touches.andThen (qs := [.ctxs]); with_reducible exact touches_commitPoint _ _ _)
    | (apply Touches.andThen (qs := [.cores, .ctxs, .media]); with_reducible exact touches_newStep _ _)
    | (apply Touches.andThen (qs := [.cores, .shelves, .ctxs, .media, .bring, .freeCtr]); with_reducible exact touches_unloadNow _ _)
    | (apply Touches.andThen (qs := [.ctxs, .fab, .freeCtr]); with_reducible exact touches_joinAtBoundary _ _ _)
    | extract_lets
    | split
    | decide
    | dsimp +zetaDelta only

end Sys2Proof.Machine
end

