-- ==== Sys2Proof/Laws/TouchImage.lean ====
section
/-!
SUPPORT. What each operation of Machine/Image.lean touches.
-/

set_option linter.unusedTactic false
set_option linter.unreachableTactic false

namespace Sys2Proof.Machine


end Sys2Proof.Machine
end

