-- ==== Sys2Proof/Laws/TouchLoadCheck.lean ====
section
/-!
SUPPORT. What each operation of Machine/LoadCheck.lean touches.
-/

set_option linter.unusedTactic false
set_option linter.unreachableTactic false

namespace Sys2Proof.Machine


end Sys2Proof.Machine
end

