-- ==== Sys2Proof/Laws/TouchLoad.lean ====
section
/-!
SUPPORT. What each operation of Machine/Load.lean touches.
-/

set_option linter.unusedTactic false
set_option linter.unreachableTactic false

namespace Sys2Proof.Machine

theorem touches_loadShelf (s : State) (c : Nat) (L : LoadIn) (im : Image) (k sh : Nat) : Touches [.shelves] s (loadShelf s c L im k sh) := by
  unfold loadShelf
  repeat' first
    | with_reducible assumption
    | with_reducible exact Touches.refl _ _
    | (apply Touches.andThen (qs := [.shelves]); with_reducible exact touches_modShelf _ _ _)
    | extract_lets
    | decide
    | dsimp +zetaDelta only

theorem touches_placeImage (s : State) (c : Nat) (L : LoadIn) : Touches [.cores, .shelves, .ctxs, .media, .freeCtr] s (placeImage s c L) := by
  unfold placeImage
  repeat' first
    | with_reducible assumption
    | with_reducible exact Touches.refl _ _
    | (apply Touches.andThen (qs := [.cores]); with_reducible exact touches_setCore _ _ _)
    | (apply Touches.andThen (qs := [.ctxs]); with_reducible exact touches_modCtx _ _ _)
    | (apply Touches.andThen (qs := [.media, .freeCtr]); with_reducible exact touches_openQueue _ _ _ _ _)
    | (apply Touches.andThen (qs := [.shelves]); with_reducible exact touches_loadShelf _ _ _ _ _ _)
    | extract_lets
    | split
    | decide
    | (with_reducible refine Touches.foldl ?_ ?_; intro _ _)
    | dsimp +zetaDelta only

theorem touches_modTaken (s : State) (f : Taken → Taken) : Touches [.host] s (State.modTaken s f) := by
  unfold State.modTaken
  repeat' first
    | with_reducible assumption
    | with_reducible exact Touches.refl _ _
    | decide
    | (with_reducible refine Touches.mk' _ rfl rfl rfl ?_ ?_ ?_ ?_ ?_ ?_ rfl ?_ ?_ ?_ ?_ ?_ ?_ ?_ ?_ ?_ ?_)
    | exact Or.inr (by decide)
    | exact Or.inl rfl

theorem touches_ctxEvent (s : State) (c : Nat) (e : CtxEvent) (step : BitVec 32) : Touches [.ctxs, .host] s (ctxEvent s c e step) := by
  unfold ctxEvent
  repeat' first
    | with_reducible assumption
    | with_reducible exact Touches.refl _ _
    | (apply Touches.andThen (qs := [.ctxs]); with_reducible exact touches_modCtx _ _ _)
    | (apply Touches.andThen (qs := [.host]); with_reducible exact touches_raiseVector _ _)
    | (apply Touches.andThen (qs := [.host]); with_reducible exact touches_modTaken _ _)
    | extract_lets
    | split
    | decide
    | dsimp +zetaDelta only

theorem touches_settleLoad (s : State) (c : Nat) : Touches [.ctxs, .host, .fab, .freeCtr] s (settleLoad s c) := by
  unfold settleLoad
  repeat' first
    | with_reducible assumption
    | with_reducible exact Touches.refl _ _
    | (apply Touches.andThen (qs := [.ctxs]); with_reducible exact touches_modCtx _ _ _)
    | (apply Touches.andThen (qs := [.ctxs]); with_reducible exact touches_modLed _ _ _)
    | (apply Touches.andThen (qs := [.ctxs]); with_reducible exact touches_commitPoint _ _ _)
    | (apply Touches.andThen (qs := [.ctxs, .fab, .freeCtr]); with_reducible exact touches_sendChecks _ _)
    | (apply Touches.andThen (qs := [.ctxs, .host]); with_reducible exact touches_ctxEvent _ _ _ _)
    | extract_lets
    | split
    | decide
    | dsimp +zetaDelta only

theorem touches_settleLoads (s : State) : Touches [.ctxs, .host, .fab, .freeCtr] s (settleLoads s) := by
  unfold settleLoads
  repeat' first
    | with_reducible assumption
    | with_reducible exact Touches.refl _ _
    | (apply Touches.andThen (qs := [.ctxs, .host, .fab, .freeCtr]); with_reducible exact touches_settleLoad _ _)
    | decide
    | (with_reducible refine Touches.foldl ?_ ?_; intro _ _)

end Sys2Proof.Machine
end

