-- ==== Sys2Proof/Laws/TouchWake.lean ====
section
/-!
SUPPORT. What each operation of Machine/Wake.lean touches.
-/

set_option linter.unusedTactic false
set_option linter.unreachableTactic false

namespace Sys2Proof.Machine

theorem touches_switchOn (s : State) (ds : List Nat) : Touches [.bring] s (switchOn s ds) := by
  unfold switchOn
  repeat' first
    | with_reducible assumption
    | with_reducible exact Touches.refl _ _
    | (apply Touches.andThen (qs := [.bring]); with_reducible exact touches_modBring _ _)
    | split
    | decide

theorem touches_switchOff (s : State) (ds : List Nat) : Touches [.bring] s (switchOff s ds) := by
  unfold switchOff
  repeat' first
    | with_reducible assumption
    | with_reducible exact Touches.refl _ _
    | (apply Touches.andThen (qs := [.bring]); with_reducible exact touches_modBring _ _)
    | decide

theorem touches_startWave (s : State) (w : Nat) (ds : List Nat) (wake : Bool) : Touches [.bring, .power] s (startWave s w ds wake) := by
  unfold startWave
  repeat' first
    | with_reducible assumption
    | with_reducible exact Touches.refl _ _
    | (apply Touches.andThen (qs := [.bring]); with_reducible exact touches_modBring _ _)
    | (apply Touches.andThen (qs := [.bring]); with_reducible exact touches_switchOn _ _)
    | extract_lets
    | split
    | decide
    | (with_reducible refine Touches.mk' _ rfl rfl rfl ?_ ?_ ?_ ?_ ?_ ?_ rfl ?_ ?_ ?_ ?_ ?_ ?_ ?_ ?_ ?_ ?_)
    | exact Or.inr (by decide)
    | exact Or.inl rfl
    | dsimp +zetaDelta only

theorem touches_halt' (s : State) (code : BitVec 8) : Touches [.host, .bring] s (halt' s code) := by
  unfold halt'
  repeat' first
    | with_reducible assumption
    | with_reducible exact Touches.refl _ _
    | (apply Touches.andThen (qs := [.bring]); with_reducible exact touches_modBring _ _)
    | extract_lets
    | decide
    | (with_reducible refine Touches.mk' _ rfl rfl rfl ?_ ?_ ?_ ?_ ?_ ?_ rfl ?_ ?_ ?_ ?_ ?_ ?_ ?_ ?_ ?_ ?_)
    | exact Or.inr (by decide)
    | exact Or.inl rfl
    | dsimp +zetaDelta only

theorem touches_startDistribution (s : State) (sh : Nat) : Touches [.bring] s (startDistribution s sh) := by
  unfold startDistribution
  repeat' first
    | with_reducible assumption
    | with_reducible exact Touches.refl _ _
    | (apply Touches.andThen (qs := [.bring]); with_reducible exact touches_modSite _ _ _)
    | (apply Touches.andThen (qs := [.bring]); with_reducible exact touches_modBring _ _)
    | extract_lets
    | split
    | decide
    | (with_reducible refine Touches.foldl ?_ ?_; intro _ _)
    | dsimp +zetaDelta only

theorem touches_wokenShelves (s : State) : Touches [.bring] s (wokenShelves s) := by
  unfold wokenShelves
  repeat' first
    | with_reducible assumption
    | with_reducible exact Touches.refl _ _
    | (apply Touches.andThen (qs := [.bring]); with_reducible exact touches_modBring _ _)
    | (apply Touches.andThen (qs := [.bring]); with_reducible exact touches_startDistribution _ _)
    | split
    | decide
    | (with_reducible refine Touches.foldl ?_ ?_; intro _ _)

theorem touches_nextWakeWave (s : State) : Touches [.bring, .power] s (nextWakeWave s) := by
  unfold nextWakeWave
  repeat' first
    | with_reducible assumption
    | with_reducible exact Touches.refl _ _
    | (apply Touches.andThen (qs := [.bring]); with_reducible exact touches_modBring _ _)
    | (apply Touches.andThen (qs := [.bring, .power]); with_reducible exact touches_startWave _ _ _ _)
    | extract_lets
    | split
    | decide
    | dsimp +zetaDelta only

theorem touches_wakeDomains (s : State) (ds : List Nat) : Touches [.bring, .power] s (wakeDomains s ds) := by
  unfold wakeDomains
  repeat' first
    | with_reducible assumption
    | with_reducible exact Touches.refl _ _
    | (apply Touches.andThen (qs := [.bring]); with_reducible exact touches_modBring _ _)
    | (apply Touches.andThen (qs := [.bring, .power]); with_reducible exact touches_nextWakeWave _)
    | extract_lets
    | decide
    | dsimp +zetaDelta only

theorem touches_wakeShelf (s : State) (sh : Nat) : Touches [.bring, .power] s (wakeShelf s sh) := by
  unfold wakeShelf
  repeat' first
    | with_reducible assumption
    | with_reducible exact Touches.refl _ _
    | (apply Touches.andThen (qs := [.bring]); with_reducible exact touches_modBring _ _)
    | (apply Touches.andThen (qs := [.bring, .power]); with_reducible exact touches_wakeDomains _ _)
    | split
    | decide

theorem touches_gatePorts (s : State) : Touches [.bring, .power] s (gatePorts s) := by
  unfold gatePorts
  repeat' first
    | with_reducible assumption
    | with_reducible exact Touches.refl _ _
    | (apply Touches.andThen (qs := [.bring]); with_reducible exact touches_switchOff _ _)
    | split
    | decide
    | (with_reducible refine Touches.foldl ?_ ?_; intro _ _)
    | (with_reducible refine Touches.mk' _ rfl rfl rfl ?_ ?_ ?_ ?_ ?_ ?_ rfl ?_ ?_ ?_ ?_ ?_ ?_ ?_ ?_ ?_ ?_)
    | exact Or.inr (by decide)
    | exact Or.inl rfl

theorem touches_waveEnd (s : State) (w : WaveRun) : Touches [.bring, .power] s (waveEnd s w) := by
  unfold waveEnd
  repeat' first
    | with_reducible assumption
    | with_reducible exact Touches.refl _ _
    | (apply Touches.andThen (qs := [.bring]); with_reducible exact touches_modBring _ _)
    | (apply Touches.andThen (qs := [.bring, .power]); with_reducible exact touches_startWave _ _ _ _)
    | (apply Touches.andThen (qs := [.bring]); with_reducible exact touches_wokenShelves _)
    | (apply Touches.andThen (qs := [.bring, .power]); with_reducible exact touches_nextWakeWave _)
    | (apply Touches.andThen (qs := [.bring, .power]); with_reducible exact touches_gatePorts _)
    | extract_lets
    | split
    | decide
    | dsimp +zetaDelta only

theorem touches_retryNext (s : State) (w : WaveRun) : Touches [.bring, .power] s (retryNext s w) := by
  unfold retryNext
  repeat' first
    | with_reducible assumption
    | with_reducible exact Touches.refl _ _
    | (apply Touches.andThen (qs := [.bring]); with_reducible exact touches_modBring _ _)
    | (apply Touches.andThen (qs := [.bring]); with_reducible exact touches_switchOn _ _)
    | (apply Touches.andThen (qs := [.bring, .power]); with_reducible exact touches_waveEnd _ _)
    | split
    | decide

theorem touches_waveSettled (s : State) : Touches [.bring, .power] s (waveSettled s) := by
  unfold waveSettled
  repeat' first
    | with_reducible assumption
    | with_reducible exact Touches.refl _ _
    | (apply Touches.andThen (qs := [.bring, .power]); with_reducible exact touches_waveEnd _ _)
    | (apply Touches.andThen (qs := [.bring, .power]); with_reducible exact touches_retryNext _ _)
    | split
    | decide

theorem touches_domainLost (s : State) (d : Nat) : Touches [.cores, .shelves, .ctxs, .host, .fab, .sec, .bring, .freeCtr] s (domainLost s d) := by
  unfold domainLost
  repeat' first
    | with_reducible assumption
    | with_reducible exact Touches.refl _ _
    | (apply Touches.andThen (qs := [.cores, .shelves, .ctxs, .bring, .freeCtr]); with_reducible exact touches_domainFailed _ _)
    | (apply Touches.andThen (qs := [.fab, .sec]); with_reducible exact touches_linkOff _ _)
    | (apply Touches.andThen (qs := [.fab, .sec]); with_reducible exact touches_leaveLink _ _)
    | (apply Touches.andThen (qs := [.host, .bring]); with_reducible exact touches_halt' _ _)
    | extract_lets
    | split
    | decide
    | (with_reducible refine Touches.foldl ?_ ?_; intro _ _)
    | dsimp +zetaDelta only

theorem touches_waveTimeout (s : State) : Touches [.cores, .shelves, .ctxs, .host, .fab, .sec, .bring, .power, .freeCtr] s (waveTimeout s) := by
  unfold waveTimeout
  repeat' first
    | with_reducible assumption
    | with_reducible exact Touches.refl _ _
    | (apply Touches.andThen (qs := [.bring]); with_reducible exact touches_modBring _ _)
    | (apply Touches.andThen (qs := [.bring]); with_reducible exact touches_switchOff _ _)
    | (apply Touches.andThen (qs := [.bring, .power]); with_reducible exact touches_retryNext _ _)
    | (apply Touches.andThen (qs := [.cores, .shelves, .ctxs, .host, .fab, .sec, .bring, .freeCtr]); with_reducible exact touches_domainLost _ _)
    | extract_lets
    | split
    | decide
    | (with_reducible refine Touches.foldl ?_ ?_; intro _ _)
    | dsimp +zetaDelta only

end Sys2Proof.Machine
end

