-- ==== Sys2Proof/Laws/TouchVolume.lean ====
section
/-!
SUPPORT. What each operation of Machine/Volume.lean touches.
-/

set_option linter.unusedTactic false
set_option linter.unreachableTactic false

namespace Sys2Proof.Machine

theorem touches_endWith (s : State) (t : Taken) (r : SlipResult) : Touches [.host] s (endWith s t r) := by
  unfold endWith
  repeat' first
    | with_reducible assumption
    | with_reducible exact Touches.refl _ _
    | (apply Touches.andThen (qs := [.host]); with_reducible exact touches_modTaken _ _)
    | split
    | decide

theorem touches_refuse (s : State) (t : Taken) (n : RefName) : Touches [.host] s (refuse s t n) := by
  unfold refuse
  repeat' first
    | with_reducible assumption
    | with_reducible exact Touches.refl _ _
    | (apply Touches.andThen (qs := [.host]); with_reducible exact touches_endWith _ _ _)
    | decide

theorem touches_startSlip (s : State) (t : Taken) : Touches [.host] s (startSlip s t) := by
  unfold startSlip
  repeat' first
    | with_reducible assumption
    | with_reducible exact Touches.refl _ _
    | (apply Touches.andThen (qs := [.host]); with_reducible exact touches_modTaken _ _)
    | split
    | decide

theorem touches_modHost (s : State) (f : HostLink → HostLink) : Touches [.host] s (State.modHost s f) := by
  unfold State.modHost
  repeat' first
    | with_reducible assumption
    | with_reducible exact Touches.refl _ _
    | decide
    | (with_reducible refine Touches.mk' _ rfl rfl rfl ?_ ?_ ?_ ?_ ?_ ?_ rfl ?_ ?_ ?_ ?_ ?_ ?_ ?_ ?_ ?_ ?_)
    | exact Or.inr (by decide)
    | exact Or.inl rfl

theorem touches_dropVolume (s : State) (job : BitVec 32) : Touches [.host, .sec] s (dropVolume s job) := by
  unfold dropVolume
  repeat' first
    | with_reducible assumption
    | with_reducible exact Touches.refl _ _
    | (apply Touches.andThen (qs := [.sec]); with_reducible exact touches_destroyKey _ _)
    | (apply Touches.andThen (qs := [.host]); with_reducible exact touches_modHost _ _)
    | extract_lets
    | split
    | decide
    | (with_reducible refine Touches.foldl ?_ ?_; intro _ _)
    | dsimp +zetaDelta only

theorem touches_weedEntry (s : State) (e : Nat) : Touches [.host, .sec] s (weedEntry s e) := by
  unfold weedEntry
  repeat' first
    | with_reducible assumption
    | with_reducible exact Touches.refl _ _
    | (apply Touches.andThen (qs := [.host]); with_reducible exact touches_modHost _ _)
    | (apply Touches.andThen (qs := [.host, .sec]); with_reducible exact touches_dropVolume _ _)
    | split
    | decide

theorem touches_weedUntil {met : State → Bool} {n : Nat} {s t : State} (e : weedUntil met n s = some t) :
    Touches [.host, .sec] s t := by
  induction n generalizing s with
  | zero =>
    unfold weedUntil at e
    split at e
    · cases e
      exact Touches.refl _ _
    · cases e
  | succ n ih =>
    unfold weedUntil at e
    split at e
    · cases e
      exact Touches.refl _ _
    · split at e
      · exact ((touches_weedEntry _ _).mono (by decide)).trans (ih e)
      · cases e

theorem touches_useStamp (s : State) : Touches [.host] s (useStamp s).2 := by
  unfold useStamp
  repeat' first
    | with_reducible assumption
    | with_reducible exact Touches.refl _ _
    | (apply Touches.andThen (qs := [.host]); with_reducible exact touches_modHost _ _)
    | decide

theorem touches_stampEntry (s : State) (e : Nat) : Touches [.host] s (stampEntry s e) := by
  unfold stampEntry
  repeat' first
    | with_reducible assumption
    | with_reducible exact Touches.refl _ _
    | (apply Touches.andThen (qs := [.host]); with_reducible exact touches_modHost _ _)
    | (apply Touches.andThen (qs := [.host]); with_reducible exact touches_useStamp _)
    | extract_lets
    | split
    | decide
    | refine Touches.ofPair (by with_reducible assumption) ?_
    | refine Touches.ofPairSnd (by with_reducible assumption) ?_
    | refine Touches.ofTriple (by with_reducible assumption) ?_
    | dsimp +zetaDelta only

theorem touches_ensureEntry {s t : State} {job : BitVec 32} {image k : Nat} (e : ensureEntry s job image = some (k, t)) :
    Touches [.host, .sec] s t := by
  unfold ensureEntry at e
  split at e
  · cases e
    exact (touches_stampEntry _ _).mono (by decide)
  · simp only [Option.bind_eq_some_iff, Option.map_eq_some_iff, Prod.mk.injEq] at e
    obtain ⟨s1, h1, _, _, _, rfl⟩ := e
    refine Touches.andThen (touches_stampEntry _ _) (by decide) ?_
    refine Touches.andThen (touches_modHost _ _) (by decide) ?_
    exact (touches_weedUntil h1).mono (by decide)

theorem touches_finishVolume (s : State) (t : Taken) (job : BitVec 32) (own : Option Nat) (new : Bool) : Touches [.host, .sec] s (finishVolume s t job own new) := by
  unfold finishVolume
  repeat' first
    | with_reducible assumption
    | with_reducible exact Touches.refl _ _
    | (apply Touches.andThen (qs := [.host]); with_reducible exact touches_endWith _ _ _)
    | (apply Touches.andThen (qs := [.host]); with_reducible exact touches_refuse _ _ _)
    | (apply Touches.andThen (qs := [.host]); with_reducible exact touches_useStamp _)
    | (apply Touches.andThen (qs := [.host, .sec]) (touches_ensureEntry (by with_reducible assumption)))
    | split
    | decide
    | refine Touches.ofPair (by with_reducible assumption) ?_
    | refine Touches.ofPairSnd (by with_reducible assumption) ?_
    | refine Touches.ofTriple (by with_reducible assumption) ?_

theorem touches_makeRoom {s t : State} {mib : Nat} (e : makeRoom s mib = some t) : Touches [.host, .sec] s t :=
  touches_weedUntil e

theorem touches_keepVolume (s : State) (v : Volume) : Touches [.host] s (keepVolume s v) := by
  unfold keepVolume
  repeat' first
    | with_reducible assumption
    | with_reducible exact Touches.refl _ _
    | (apply Touches.andThen (qs := [.host]); with_reducible exact touches_modHost _ _)
    | decide

theorem touches_undoRefused (s : State) (t : Taken) (job : BitVec 32) : Touches [.host, .sec] s (undoRefused s t job) := by
  unfold undoRefused
  repeat' first
    | with_reducible assumption
    | with_reducible exact Touches.refl _ _
    | (apply Touches.andThen (qs := [.host, .sec]); with_reducible exact touches_dropVolume _ _)
    | split
    | decide

theorem touches_addVolume (s : State) (t : Taken) (b : Blob) (have' : Nat → Bool) (own : Option Nat) (v : Volume) : Touches [.host, .sec] s (addVolume s t b have' own v) := by
  unfold addVolume
  repeat' first
    | with_reducible assumption
    | with_reducible exact Touches.refl _ _
    | (apply Touches.andThen (qs := [.sec]); with_reducible refine touches_modSec _ _ ?_)
    | (apply Touches.andThen (qs := [.host]); with_reducible exact touches_refuse _ _ _)
    | (apply Touches.andThen (qs := [.host, .sec]); with_reducible exact touches_finishVolume _ _ _ _ _)
    | (apply Touches.andThen (qs := [.host, .sec]) (touches_makeRoom (by with_reducible assumption)))
    | (apply Touches.andThen (qs := [.host]); with_reducible exact touches_keepVolume _ _)
    | (apply Touches.andThen (qs := [.host, .sec]); with_reducible exact touches_undoRefused _ _ _)
    | extract_lets
    | split
    | decide
    | refine Touches.ofPair (by with_reducible assumption) ?_
    | refine Touches.ofPairSnd (by with_reducible assumption) ?_
    | refine Touches.ofTriple (by with_reducible assumption) ?_
    | (refine fun (_ : Sec) => ?_; repeat' first
        | exact ⟨rfl, rfl, rfl, rfl, rfl, le_refl _⟩
        | exact ⟨rfl, rfl, rfl, rfl, rfl, le_max_left _ _⟩
        | exact fuses_want _ _ _ _
        | split)

theorem touches_replaceVolume (s : State) (job : BitVec 32) : Touches [.host, .sec] s (replaceVolume s job) := by
  unfold replaceVolume
  repeat' first
    | with_reducible assumption
    | with_reducible exact Touches.refl _ _
    | (apply Touches.andThen (qs := [.host]); with_reducible exact touches_modHost _ _)
    | (apply Touches.andThen (qs := [.host, .sec]); with_reducible exact touches_weedEntry _ _)
    | decide
    | (with_reducible refine Touches.foldl ?_ ?_; intro _ _)

theorem touches_admitVolume (s : State) (t : Taken) (b : Blob) (vk : BitVec 128) (have' : Blob → Nat → Bool) : Touches [.host, .sec] s (admitVolume s t b vk have') := by
  unfold admitVolume
  repeat' first
    | with_reducible assumption
    | with_reducible exact Touches.refl _ _
    | (apply Touches.andThen (qs := [.host]); with_reducible exact touches_refuse _ _ _)
    | (apply Touches.andThen (qs := [.host, .sec]); with_reducible exact touches_finishVolume _ _ _ _ _)
    | (apply Touches.andThen (qs := [.host, .sec]); with_reducible exact touches_addVolume _ _ _ _ _ _)
    | (apply Touches.andThen (qs := [.host, .sec]); with_reducible exact touches_replaceVolume _ _)
    | extract_lets
    | split
    | decide
    | dsimp +zetaDelta only

theorem touches_takeVolume (s : State) (t : Taken) (b : Blob) (sigOk : Bool) (have' : Blob → Nat → Bool) : Touches [.host, .sec] s (takeVolume s t b sigOk have') := by
  unfold takeVolume
  repeat' first
    | with_reducible assumption
    | with_reducible exact Touches.refl _ _
    | (apply Touches.andThen (qs := [.sec]); with_reducible refine touches_modSec _ _ ?_)
    | (apply Touches.andThen (qs := [.sec]); with_reducible exact touches_wantKey _ _)
    | (apply Touches.andThen (qs := [.host]); with_reducible exact touches_refuse _ _ _)
    | (apply Touches.andThen (qs := [.host, .sec]); with_reducible exact touches_admitVolume _ _ _ _ _)
    | extract_lets
    | split
    | decide
    | (refine fun (_ : Sec) => ?_; repeat' first
        | exact ⟨rfl, rfl, rfl, rfl, rfl, le_refl _⟩
        | exact ⟨rfl, rfl, rfl, rfl, rfl, le_max_left _ _⟩
        | exact fuses_want _ _ _ _
        | split)

theorem touches_upload (s : State) (ring : Nat) (seq : BitVec 32) (b : Blob) (dmaOk sigOk : Bool) : Touches [.host, .sec] s (upload s ring seq b dmaOk sigOk) := by
  unfold upload
  repeat' first
    | with_reducible assumption
    | with_reducible exact Touches.refl _ _
    | (apply Touches.andThen (qs := [.host]); with_reducible exact touches_refuse _ _ _)
    | (apply Touches.andThen (qs := [.host, .sec]); with_reducible exact touches_takeVolume _ _ _ _ _)
    | split
    | decide

theorem touches_askChunks (s : State) (u : Pull) (l : List Nat) (headed : Bool) : Touches [.ctxs, .fab, .freeCtr] s (askChunks s u l headed) := by
  unfold askChunks
  repeat' first
    | with_reducible assumption
    | with_reducible exact Touches.refl _ _
    | (apply Touches.andThen (qs := [.fab]); with_reducible exact touches_modFab _ _)
    | (apply Touches.andThen (qs := [.ctxs, .fab, .freeCtr]); with_reducible exact touches_pullMore _ _ _ _)
    | extract_lets
    | split
    | decide
    | dsimp +zetaDelta only

theorem touches_dropPull (s : State) (peer : Nat) (job : BitVec 32) : Touches [.fab] s (dropPull s peer job) := by
  unfold dropPull
  repeat' first
    | with_reducible assumption
    | with_reducible exact Touches.refl _ _
    | (apply Touches.andThen (qs := [.fab]); with_reducible exact touches_modFab _ _)
    | decide

theorem touches_pull (s : State) (ring : Nat) (seq : BitVec 32) (sigOk : Bool) : Touches [.ctxs, .host, .fab, .sec, .freeCtr] s (pull s ring seq sigOk) := by
  unfold pull
  repeat' first
    | with_reducible assumption
    | with_reducible exact Touches.refl _ _
    | (apply Touches.andThen (qs := [.fab]); with_reducible exact touches_modFab _ _)
    | (apply Touches.andThen (qs := [.ctxs, .fab, .freeCtr]); with_reducible exact touches_pullMore _ _ _ _)
    | (apply Touches.andThen (qs := [.host]); with_reducible exact touches_startSlip _ _)
    | (apply Touches.andThen (qs := [.host, .sec]); with_reducible exact touches_takeVolume _ _ _ _ _)
    | (apply Touches.andThen (qs := [.ctxs, .fab, .freeCtr]); with_reducible exact touches_askChunks _ _ _ _)
    | (apply Touches.andThen (qs := [.fab]); with_reducible exact touches_dropPull _ _ _)
    | extract_lets
    | split
    | decide
    | dsimp +zetaDelta only

theorem touches_pullUnavailable (s : State) (ring : Nat) (seq : BitVec 32) : Touches [.host, .fab] s (pullUnavailable s ring seq) := by
  unfold pullUnavailable
  repeat' first
    | with_reducible assumption
    | with_reducible exact Touches.refl _ _
    | (apply Touches.andThen (qs := [.host]); with_reducible exact touches_refuse _ _ _)
    | (apply Touches.andThen (qs := [.fab]); with_reducible exact touches_dropPull _ _ _)
    | extract_lets
    | split
    | decide
    | dsimp +zetaDelta only

theorem touches_setPin (s : State) (e : Nat) (p : Bool) : Touches [.host] s (setPin s e p) := by
  unfold setPin
  repeat' first
    | with_reducible assumption
    | with_reducible exact Touches.refl _ _
    | (apply Touches.andThen (qs := [.host]); with_reducible exact touches_modHost _ _)
    | split
    | decide

theorem touches_pin (s : State) (ring : Nat) (seq : BitVec 32) : Touches [.host] s (pin s ring seq) := by
  unfold pin
  repeat' first
    | with_reducible assumption
    | with_reducible exact Touches.refl _ _
    | (apply Touches.andThen (qs := [.host]); with_reducible exact touches_endWith _ _ _)
    | (apply Touches.andThen (qs := [.host]); with_reducible exact touches_refuse _ _ _)
    | (apply Touches.andThen (qs := [.host]); with_reducible exact touches_setPin _ _ _)
    | split
    | decide

theorem touches_unpin (s : State) (ring : Nat) (seq : BitVec 32) : Touches [.host] s (unpin s ring seq) := by
  unfold unpin
  repeat' first
    | with_reducible assumption
    | with_reducible exact Touches.refl _ _
    | (apply Touches.andThen (qs := [.host]); with_reducible exact touches_endWith _ _ _)
    | (apply Touches.andThen (qs := [.host]); with_reducible exact touches_setPin _ _ _)
    | split
    | decide

theorem touches_weed (s : State) (ring : Nat) (seq : BitVec 32) : Touches [.host, .sec] s (weed s ring seq) := by
  unfold weed
  repeat' first
    | with_reducible assumption
    | with_reducible exact Touches.refl _ _
    | (apply Touches.andThen (qs := [.host]); with_reducible exact touches_endWith _ _ _)
    | (apply Touches.andThen (qs := [.host]); with_reducible exact touches_refuse _ _ _)
    | (apply Touches.andThen (qs := [.host, .sec]); with_reducible exact touches_weedEntry _ _)
    | extract_lets
    | split
    | decide
    | dsimp +zetaDelta only

end Sys2Proof.Machine
end

