-- ==== Sys2Proof/Laws/TouchContext.lean ====
section
/-!
SUPPORT. What each operation of Machine/Context.lean touches.
-/

set_option linter.unusedTactic false
set_option linter.unreachableTactic false

namespace Sys2Proof.Machine

theorem touches_assignGranules (s : State) (c : Nat) (gs : List Nat) : Touches [.granules] s (assignGranules s c gs) := by
  unfold assignGranules
  repeat' first
    | with_reducible assumption
    | with_reducible exact Touches.refl _ _
    | (apply Touches.andThen (qs := [.granules]); with_reducible exact touches_modGranule _ _ _)
    | decide
    | (with_reducible refine Touches.foldl ?_ ?_; intro _ _)

theorem touches_writeData (s : State) (a : Nat) (b : Blob) : Touches [.bytes, .tiers] s (writeData s a b) := by
  unfold writeData
  repeat' first
    | with_reducible assumption
    | with_reducible exact Touches.refl _ _
    | (apply Touches.andThen (qs := [.bytes, .tiers]); with_reducible exact touches_writeRange _ _ _ _)
    | decide

theorem touches_reserveLedger {s t : State} {c : Nat} (e : reserveLedger s c = some t) : Touches [.bytes, .granules, .tiers, .sec, .ledger] s t := by
  unfold reserveLedger at e
  extract_lets at e
  split at e
  · cases e
  · cases e
    refine Touches.andThen (touches_directoryWrite _) (by decide) ?_
    refine Touches.foldl (fun _ _ => ?_) ((touches_wantKey _ _).mono (by decide))
    exact (touches_modGranule _ _ _).mono (by decide)

theorem touches_abandonCreate (s : State) (c : Nat) : Touches [.granules, .ctxs, .sec, .freeCtr] s (abandonCreate s c) := by
  unfold abandonCreate
  repeat' first
    | with_reducible assumption
    | with_reducible exact Touches.refl _ _
    | (apply Touches.andThen (qs := [.ctxs]); with_reducible exact touches_modCtx _ _ _)
    | (apply Touches.andThen (qs := [.freeCtr]); with_reducible exact touches_free _ _)
    | (apply Touches.andThen (qs := [.granules]); with_reducible exact touches_releaseGranules _ _)
    | (apply Touches.andThen (qs := [.sec]); with_reducible exact touches_destroyKey _ _)
    | extract_lets
    | decide
    | refine Touches.ofPair (by with_reducible assumption) ?_
    | refine Touches.ofPairSnd (by with_reducible assumption) ?_
    | refine Touches.ofTriple (by with_reducible assumption) ?_
    | dsimp +zetaDelta only

theorem touches_buildContext {s t : State} {c : Nat} {v : Volume} {rank : Nat} {constOnly : Bool}
    (e : buildContext s c v rank constOnly = some (.ok t)) : Touches [.bytes, .granules, .tiers, .sec, .freeCtr] s t := by
  unfold buildContext at e
  extract_lets at e
  split at e
  · cases e
  · split at e
    · cases e
    · split at e
      · cases e
      · cases e
        refine Touches.foldl (fun _ _ => ?_) ?_
        · exact (touches_writeData _ _ _).mono (by decide)
        · refine Touches.andThen (touches_freshKey _ _) (by decide) ?_
          exact (touches_assignGranules _ _ _).mono (by decide)

theorem touches_newContext (s : State) (c : Nat) (job : BitVec 32) (mask : BitVec 12) (v : Volume) : Touches [.ctxs] s (newContext s c job mask v) := by
  unfold newContext
  repeat' first
    | with_reducible assumption
    | with_reducible exact Touches.refl _ _
    | (apply Touches.andThen (qs := [.ctxs]); with_reducible exact touches_modCtx _ _ _)
    | extract_lets
    | split
    | decide
    | dsimp +zetaDelta only

theorem touches_reserveEnd {ps : List Part} {s u : State} {c : Nat} {t : Taken} {rank : BitVec 14} {o : Option State}
    (hp : ∀ p ∈ [.granules, .ctxs, .host, .sec, .bring, .freeCtr], p ∈ ps) (hu : Touches ps s u) (h : ∀ v, o = some v → Touches ps s v) :
    Touches ps s (reserveEnd u c t rank o) := by
  cases o with
  | none =>
    refine Touches.andThen (touches_refuse _ _ _) (fun p k => hp p (by revert k; revert p; decide)) ?_
    exact Touches.andThen (touches_abandonCreate _ _) (fun p k => hp p (by revert k; revert p; decide)) hu
  | some v =>
    refine Touches.andThen (touches_endWith _ _ _) (fun p k => hp p (by revert k; revert p; decide)) ?_
    refine Touches.foldl (fun _ _ => (touches_rebindShelf _ _).mono fun p k => hp p (by revert k; revert p; decide)) ?_
    exact Touches.andThen (touches_modCtx _ _ _) (fun p k => hp p (by revert k; revert p; decide)) (h v rfl)

theorem touches_continueCreate (s : State) (c : Nat) (t : Taken) (v : Volume) :
    Touches [.bytes, .granules, .tiers, .ctxs, .host, .sec, .ledger, .bring, .freeCtr] s (continueCreate s c t v) := by
  unfold continueCreate
  extract_lets x
  split
  · exact Touches.refl _ _
  · refine Touches.andThen (touches_refuse _ _ _) (by decide) ?_
    exact (touches_abandonCreate _ _).mono (by decide)
  · rename_i s1 h
    have h1 := (touches_buildContext h).mono (ps := [.bytes, .granules, .tiers, .ctxs, .host, .sec, .ledger, .bring, .freeCtr]) (by decide)
    refine touches_reserveEnd (by decide) h1 fun u hu => ?_
    refine Touches.andThen (touches_reserveLedger hu) (by decide) ?_
    exact Touches.andThen (touches_choosePartners _ _) (by decide) h1

theorem touches_create (s : State) (ring : Nat) (seq : BitVec 32) : Touches [.bytes, .granules, .tiers, .ctxs, .host, .sec, .ledger, .bring, .power, .freeCtr] s (create s ring seq) := by
  unfold create
  repeat' first
    | with_reducible assumption
    | with_reducible exact Touches.refl _ _
    | (apply Touches.andThen (qs := [.ctxs]); with_reducible exact touches_modCtx _ _ _)
    | (apply Touches.andThen (qs := [.bring, .power]); with_reducible exact touches_wakeShelf _ _)
    | (apply Touches.andThen (qs := [.host]); with_reducible exact touches_endWith _ _ _)
    | (apply Touches.andThen (qs := [.host]); with_reducible exact touches_refuse _ _ _)
    | (apply Touches.andThen (qs := [.host]); with_reducible exact touches_startSlip _ _)
    | (apply Touches.andThen (qs := [.ctxs]); with_reducible exact touches_newContext _ _ _ _ _)
    | (apply Touches.andThen (qs := [.bytes, .granules, .tiers, .ctxs, .host, .sec, .ledger, .bring, .freeCtr]); with_reducible exact touches_continueCreate _ _ _ _)
    | extract_lets
    | split
    | decide
    | (with_reducible refine Touches.foldl ?_ ?_; intro _ _)
    | dsimp +zetaDelta only

theorem touches_settleSlips (s : State) : Touches [.host, .freeCtr] s (settleSlips s) := by
  unfold settleSlips
  repeat' first
    | with_reducible assumption
    | with_reducible exact Touches.refl _ _
    | (apply Touches.andThen (qs := [.freeCtr]); with_reducible exact touches_free _ _)
    | (apply Touches.andThen (qs := [.host]); with_reducible exact touches_modTaken _ _)
    | extract_lets
    | split
    | decide
    | refine Touches.ofPair (by with_reducible assumption) ?_
    | refine Touches.ofPairSnd (by with_reducible assumption) ?_
    | refine Touches.ofTriple (by with_reducible assumption) ?_
    | dsimp +zetaDelta only

theorem touches_load (s : State) (ring : Nat) (seq : BitVec 32) (stripes : Tbl (List Nat)) : Touches [.cores, .shelves, .ctxs, .media, .host, .fab, .bring, .power, .freeCtr] s (load s ring seq stripes) := by
  unfold load
  repeat' first
    | with_reducible assumption
    | with_reducible exact Touches.refl _ _
    | (apply Touches.andThen (qs := [.ctxs]); with_reducible exact touches_modCtx _ _ _)
    | (apply Touches.andThen (qs := [.cores, .shelves, .ctxs, .media, .freeCtr]); with_reducible exact touches_placeImage _ _ _)
    | (apply Touches.andThen (qs := [.ctxs, .host, .fab, .freeCtr]); with_reducible exact touches_settleLoads _)
    | (apply Touches.andThen (qs := [.bring, .power]); with_reducible exact touches_wakeDomains _ _)
    | (apply Touches.andThen (qs := [.host]); with_reducible exact touches_refuse _ _ _)
    | (apply Touches.andThen (qs := [.host]); with_reducible exact touches_startSlip _ _)
    | (apply Touches.andThen (qs := [.host]); with_reducible exact touches_stampEntry _ _)
    | (apply Touches.andThen (qs := [.host, .freeCtr]); with_reducible exact touches_settleSlips _)
    | extract_lets
    | split
    | decide
    | dsimp +zetaDelta only

theorem touches_unload (s : State) (ring : Nat) (seq : BitVec 32) : Touches [.cores, .shelves, .ctxs, .media, .host, .bring, .freeCtr] s (unload s ring seq) := by
  unfold unload
  repeat' first
    | with_reducible assumption
    | with_reducible exact Touches.refl _ _
    | (apply Touches.andThen (qs := [.ctxs]); with_reducible exact touches_modCtx _ _ _)
    | (apply Touches.andThen (qs := [.cores, .shelves, .ctxs, .media, .bring, .freeCtr]); with_reducible exact touches_unloadNow _ _)
    | (apply Touches.andThen (qs := [.host]); with_reducible exact touches_refuse _ _ _)
    | (apply Touches.andThen (qs := [.host]); with_reducible exact touches_startSlip _ _)
    | (apply Touches.andThen (qs := [.host, .freeCtr]); with_reducible exact touches_settleSlips _)
    | extract_lets
    | split
    | decide
    | dsimp +zetaDelta only

theorem touches_destroy (s : State) (ring : Nat) (seq : BitVec 32) : Touches [.ctxs, .host, .freeCtr] s (destroy s ring seq) := by
  unfold destroy
  repeat' first
    | with_reducible assumption
    | with_reducible exact Touches.refl _ _
    | (apply Touches.andThen (qs := [.ctxs]); with_reducible exact touches_modCtx _ _ _)
    | (apply Touches.andThen (qs := [.freeCtr]); with_reducible exact touches_free _ _)
    | (apply Touches.andThen (qs := [.host]); with_reducible exact touches_refuse _ _ _)
    | (apply Touches.andThen (qs := [.host]); with_reducible exact touches_startSlip _ _)
    | extract_lets
    | split
    | decide
    | refine Touches.ofPair (by with_reducible assumption) ?_
    | refine Touches.ofPairSnd (by with_reducible assumption) ?_
    | refine Touches.ofTriple (by with_reducible assumption) ?_
    | dsimp +zetaDelta only

theorem touches_wait (s : State) (ring : Nat) (seq : BitVec 32) : Touches [.host] s (wait s ring seq) := by
  unfold wait
  repeat' first
    | with_reducible assumption
    | with_reducible exact Touches.refl _ _
    | (apply Touches.andThen (qs := [.host]); with_reducible exact touches_startSlip _ _)
    | split
    | decide

theorem touches_readResume (s : State) (ring : Nat) (seq : BitVec 32) : Touches [.host, .freeCtr] s (readResume s ring seq) := by
  unfold readResume
  repeat' first
    | with_reducible assumption
    | with_reducible exact Touches.refl _ _
    | (apply Touches.andThen (qs := [.freeCtr]); with_reducible exact touches_free _ _)
    | (apply Touches.andThen (qs := [.host]); with_reducible exact touches_endWith _ _ _)
    | (apply Touches.andThen (qs := [.host]); with_reducible exact touches_refuse _ _ _)
    | extract_lets
    | split
    | decide
    | refine Touches.ofPair (by with_reducible assumption) ?_
    | refine Touches.ofPairSnd (by with_reducible assumption) ?_
    | refine Touches.ofTriple (by with_reducible assumption) ?_
    | dsimp +zetaDelta only

theorem touches_zeroStores (s : State) (sh : Nat) : Touches [.bytes] s (zeroStores s sh) :=
  touches_setMem s _ fun h => Mem.wf_zeroRange _ _ _ (Mem.wf_zeroRange _ _ _ h)

theorem touches_resetShelf (s : State) (sh : Nat) : Touches [.cores, .shelves] s (resetShelf s sh) := by
  unfold resetShelf
  repeat' first
    | with_reducible assumption
    | with_reducible exact Touches.refl _ _
    | (apply Touches.andThen (qs := [.cores]); with_reducible exact touches_setCore _ _ _)
    | (apply Touches.andThen (qs := [.shelves]); with_reducible exact touches_modShelf _ _ _)
    | extract_lets
    | decide
    | (with_reducible refine Touches.foldl ?_ ?_; intro _ _)
    | dsimp +zetaDelta only

theorem touches_teardown (s : State) (c : Nat) : Touches [.cores, .shelves, .bytes, .tiers, .ctxs, .media, .fab, .sec, .bring, .freeCtr] s (teardown s c) := by
  unfold teardown
  repeat' first
    | with_reducible assumption
    | with_reducible exact Touches.refl _ _
    | (apply Touches.andThen (qs := [.ctxs]); with_reducible exact touches_modCtx _ _ _)
    | (apply Touches.andThen (qs := [.freeCtr]); with_reducible exact touches_free _ _)
    | (apply Touches.andThen (qs := [.bring]); with_reducible exact touches_rebindShelf _ _)
    | (apply Touches.andThen (qs := [.shelves, .bytes, .tiers]); with_reducible exact touches_cutWrites _ _)
    | (apply Touches.andThen (qs := [.media, .freeCtr]); with_reducible exact touches_closeQueues _ _ _)
    | (apply Touches.andThen (qs := [.sec]); with_reducible exact touches_destroyKey _ _)
    | (apply Touches.andThen (qs := [.fab]); with_reducible exact touches_modFab _ _)
    | (apply Touches.andThen (qs := [.fab]); with_reducible exact touches_closeJob _ _)
    | (apply Touches.andThen (qs := [.ctxs]); with_reducible exact touches_modCommit _ _ _)
    | (apply Touches.andThen (qs := [.bytes]); with_reducible exact touches_zeroStores _ _)
    | (apply Touches.andThen (qs := [.cores, .shelves]); with_reducible exact touches_resetShelf _ _)
    | extract_lets
    | split
    | decide
    | refine Touches.ofPair (by with_reducible assumption) ?_
    | refine Touches.ofPairSnd (by with_reducible assumption) ?_
    | refine Touches.ofTriple (by with_reducible assumption) ?_
    | (with_reducible refine Touches.foldl ?_ ?_; intro _ _)
    | dsimp +zetaDelta only

theorem touches_teardownDone (s : State) (c : Nat) : Touches [.bytes, .granules, .tiers, .ctxs, .host, .fab, .sec, .ledger, .freeCtr] s (teardownDone s c) := by
  unfold teardownDone
  repeat' first
    | with_reducible assumption
    | with_reducible exact Touches.refl _ _
    | (apply Touches.andThen (qs := [.ctxs]); with_reducible exact touches_modCtx _ _ _)
    | (apply Touches.andThen (qs := [.freeCtr]); with_reducible exact touches_free _ _)
    | (apply Touches.andThen (qs := [.granules]); with_reducible exact touches_releaseGranules _ _)
    | (apply Touches.andThen (qs := [.ctxs, .fab, .freeCtr]); with_reducible exact touches_report _ _ _ _ _)
    | (apply Touches.andThen (qs := [.bytes, .granules, .tiers, .ledger]); with_reducible exact touches_releaseLedger _ _)
    | (apply Touches.andThen (qs := [.ctxs, .host]); with_reducible exact touches_ctxEvent _ _ _ _)
    | (apply Touches.andThen (qs := [.host, .sec]); with_reducible exact touches_dropVolume _ _)
    | (apply Touches.andThen (qs := [.host, .freeCtr]); with_reducible exact touches_settleSlips _)
    | extract_lets
    | split
    | decide
    | refine Touches.ofPair (by with_reducible assumption) ?_
    | refine Touches.ofPairSnd (by with_reducible assumption) ?_
    | refine Touches.ofTriple (by with_reducible assumption) ?_
    | dsimp +zetaDelta only

end Sys2Proof.Machine
end

