-- ==== Sys2Proof/Laws/TouchRecovery.lean ====
section
/-!
SUPPORT. What each operation of Machine/Recovery.lean touches.
-/

set_option linter.unusedTactic false
set_option linter.unreachableTactic false

namespace Sys2Proof.Machine

theorem touches_takeMail (s : State) (c typ : Nat) : Touches [.ctxs] s (takeMail s c typ).1 := by
  unfold takeMail
  repeat' first
    | with_reducible assumption
    | with_reducible exact Touches.refl _ _
    | (apply Touches.andThen (qs := [.ctxs]); with_reducible exact touches_modLed _ _ _)
    | extract_lets
    | split
    | decide
    | dsimp +zetaDelta only

theorem touches_heed (s : State) (c : Nat) (k : Ctrl) : Touches [.ctxs] s (heed s c k).1 := by
  unfold heed
  repeat' first
    | with_reducible assumption
    | with_reducible exact Touches.refl _ _
    | (apply Touches.andThen (qs := [.ctxs]); with_reducible exact touches_modLed _ _ _)
    | extract_lets
    | split
    | decide
    | dsimp +zetaDelta only

theorem touches_sendAll (s : State) (c : Nat) (k : Ctrl) : Touches [.ctxs, .fab, .freeCtr] s (sendAll s c k) := by
  unfold sendAll
  repeat' first
    | with_reducible assumption
    | with_reducible exact Touches.refl _ _
    | (apply Touches.andThen (qs := [.ctxs, .fab, .freeCtr]); with_reducible exact touches_sendCtrl _ _ _ _)
    | decide
    | (with_reducible refine Touches.foldl ?_ ?_; intro _ _)

theorem touches_haltJob (s : State) (c cause : Nat) : Touches [.cores, .shelves, .ctxs, .media, .host, .bring, .freeCtr] s (haltJob s c cause) := by
  unfold haltJob
  repeat' first
    | with_reducible assumption
    | with_reducible exact Touches.refl _ _
    | (apply Touches.andThen (qs := [.ctxs]); with_reducible exact touches_modLed _ _ _)
    | (apply Touches.andThen (qs := [.cores, .shelves, .ctxs, .media, .bring, .freeCtr]); with_reducible exact touches_unloadNow _ _)
    | (apply Touches.andThen (qs := [.ctxs, .host]); with_reducible exact touches_ctxEvent _ _ _ _)
    | (apply Touches.andThen (qs := [.host, .freeCtr]); with_reducible exact touches_settleSlips _)
    | extract_lets
    | split
    | decide
    | dsimp +zetaDelta only

theorem touches_bindNext (s : State) (c : Nat) : Touches [.cores, .shelves, .ctxs, .media, .host, .fab, .bring, .freeCtr] s (bindNext s c) := by
  unfold bindNext
  repeat' first
    | with_reducible assumption
    | with_reducible exact Touches.refl _ _
    | (apply Touches.andThen (qs := [.ctxs]); with_reducible exact touches_modLed _ _ _)
    | (apply Touches.andThen (qs := [.ctxs, .fab, .freeCtr]); with_reducible exact touches_sendCtrlTo _ _ _ _)
    | (apply Touches.andThen (qs := [.cores, .shelves, .ctxs, .media, .host, .bring, .freeCtr]); with_reducible exact touches_haltJob _ _ _)
    | extract_lets
    | split
    | decide
    | dsimp +zetaDelta only

theorem touches_startRecovery (s : State) (c : Nat) (lost faulted : List Nat) : Touches [.cores, .shelves, .ctxs, .media, .host, .fab, .bring, .freeCtr] s (startRecovery s c lost faulted) := by
  unfold startRecovery
  repeat' first
    | with_reducible assumption
    | with_reducible exact Touches.refl _ _
    | (apply Touches.andThen (qs := [.ctxs]); with_reducible exact touches_modLed _ _ _)
    | (apply Touches.andThen (qs := [.ctxs, .fab, .freeCtr]); with_reducible exact touches_sendAll _ _ _)
    | (apply Touches.andThen (qs := [.cores, .shelves, .ctxs, .media, .host, .bring, .freeCtr]); with_reducible exact touches_haltJob _ _ _)
    | (apply Touches.andThen (qs := [.cores, .shelves, .ctxs, .media, .host, .fab, .bring, .freeCtr]); with_reducible exact touches_bindNext _ _)
    | extract_lets
    | split
    | decide
    | dsimp +zetaDelta only

theorem touches_lost (s : State) (c : Nat) : Touches [.cores, .shelves, .ctxs, .media, .host, .fab, .bring, .freeCtr] s (lost s c) := by
  unfold lost
  repeat' first
    | with_reducible assumption
    | with_reducible exact Touches.refl _ _
    | (apply Touches.andThen (qs := [.ctxs]); with_reducible exact touches_takeMail _ _ _)
    | (apply Touches.andThen (qs := [.ctxs, .fab, .freeCtr]); with_reducible exact touches_sendAll _ _ _)
    | (apply Touches.andThen (qs := [.cores, .shelves, .ctxs, .media, .host, .fab, .bring, .freeCtr]); with_reducible exact touches_startRecovery _ _ _ _)
    | extract_lets
    | split
    | decide
    | refine Touches.ofPair (by with_reducible assumption) ?_
    | refine Touches.ofPairSnd (by with_reducible assumption) ?_
    | refine Touches.ofTriple (by with_reducible assumption) ?_
    | dsimp +zetaDelta only

theorem touches_fault (s : State) (c : Nat) : Touches [.cores, .shelves, .ctxs, .media, .host, .fab, .bring, .freeCtr] s (fault s c) := by
  unfold fault
  repeat' first
    | with_reducible assumption
    | with_reducible exact Touches.refl _ _
    | (apply Touches.andThen (qs := [.ctxs]); with_reducible exact touches_takeMail _ _ _)
    | (apply Touches.andThen (qs := [.cores, .shelves, .ctxs, .media, .host, .fab, .bring, .freeCtr]); with_reducible exact touches_startRecovery _ _ _ _)
    | split
    | decide
    | refine Touches.ofPair (by with_reducible assumption) ?_
    | refine Touches.ofPairSnd (by with_reducible assumption) ?_
    | refine Touches.ofTriple (by with_reducible assumption) ?_

theorem touches_halt (s : State) (c : Nat) : Touches [.cores, .shelves, .bytes, .tiers, .ctxs, .media, .host, .freeCtr] s (halt s c) := by
  unfold halt
  repeat' first
    | with_reducible assumption
    | with_reducible exact Touches.refl _ _
    | (apply Touches.andThen (qs := [.cores]); with_reducible exact touches_modCore _ _ _)
    | (apply Touches.andThen (qs := [.shelves]); with_reducible exact touches_modShelf _ _ _)
    | (apply Touches.andThen (qs := [.ctxs]); with_reducible exact touches_modCtx _ _ _)
    | (apply Touches.andThen (qs := [.shelves, .bytes, .tiers]); with_reducible exact touches_cutWrites _ _)
    | (apply Touches.andThen (qs := [.media, .freeCtr]); with_reducible exact touches_closeQueues _ _ _)
    | (apply Touches.andThen (qs := [.ctxs, .host]); with_reducible exact touches_ctxEvent _ _ _ _)
    | (apply Touches.andThen (qs := [.ctxs]); with_reducible exact touches_takeMail _ _ _)
    | (apply Touches.andThen (qs := [.ctxs]); with_reducible exact touches_heed _ _ _)
    | extract_lets
    | split
    | decide
    | refine Touches.ofPair (by with_reducible assumption) ?_
    | refine Touches.ofPairSnd (by with_reducible assumption) ?_
    | refine Touches.ofTriple (by with_reducible assumption) ?_
    | (with_reducible refine Touches.foldl ?_ ?_; intro _ _)
    | dsimp +zetaDelta only

theorem touches_bind (s : State) (c : Nat) : Touches [.granules, .ctxs, .fab, .sec, .freeCtr] s (bind s c) := by
  unfold bind
  repeat' first
    | with_reducible assumption
    | with_reducible exact Touches.refl _ _
    | (apply Touches.andThen (qs := [.ctxs]); with_reducible exact touches_modCtx _ _ _)
    | (apply Touches.andThen (qs := [.sec, .freeCtr]); with_reducible exact touches_freshKey _ _)
    | (apply Touches.andThen (qs := [.ctxs]); with_reducible exact touches_modLed _ _ _)
    | (apply Touches.andThen (qs := [.ctxs, .fab, .freeCtr]); with_reducible exact touches_sendCtrl _ _ _ _)
    | (apply Touches.andThen (qs := [.granules]); with_reducible exact touches_assignGranules _ _ _)
    | (apply Touches.andThen (qs := [.ctxs]); with_reducible exact touches_takeMail _ _ _)
    | extract_lets
    | split
    | decide
    | refine Touches.ofPair (by with_reducible assumption) ?_
    | refine Touches.ofPairSnd (by with_reducible assumption) ?_
    | refine Touches.ofTriple (by with_reducible assumption) ?_
    | dsimp +zetaDelta only

theorem touches_bindAck (s : State) (c : Nat) : Touches [.cores, .shelves, .ctxs, .media, .host, .fab, .bring, .freeCtr] s (bindAck s c) := by
  unfold bindAck
  repeat' first
    | with_reducible assumption
    | with_reducible exact Touches.refl _ _
    | (apply Touches.andThen (qs := [.ctxs]); with_reducible exact touches_modLed _ _ _)
    | (apply Touches.andThen (qs := [.ctxs, .fab, .freeCtr]); with_reducible exact touches_sendCtrlTo _ _ _ _)
    | (apply Touches.andThen (qs := [.ctxs]); with_reducible exact touches_takeMail _ _ _)
    | (apply Touches.andThen (qs := [.ctxs, .fab, .freeCtr]); with_reducible exact touches_sendAll _ _ _)
    | (apply Touches.andThen (qs := [.cores, .shelves, .ctxs, .media, .host, .fab, .bring, .freeCtr]); with_reducible exact touches_bindNext _ _)
    | extract_lets
    | split
    | decide
    | refine Touches.ofPair (by with_reducible assumption) ?_
    | refine Touches.ofPairSnd (by with_reducible assumption) ?_
    | refine Touches.ofTriple (by with_reducible assumption) ?_
    | dsimp +zetaDelta only

theorem touches_replaceRank (s : State) (c r acc : Nat) : Touches [.ctxs, .fab] s (replaceRank s c r acc) := by
  unfold replaceRank
  repeat' first
    | with_reducible assumption
    | with_reducible exact Touches.refl _ _
    | (apply Touches.andThen (qs := [.fab]); with_reducible exact touches_closePeer _ _)
    | (apply Touches.andThen (qs := [.ctxs]); with_reducible exact touches_modLed _ _ _)
    | (apply Touches.andThen (qs := [.ctxs]); with_reducible exact touches_chooseFor _ _ _)
    | extract_lets
    | split
    | decide
    | (with_reducible refine Touches.foldl ?_ ?_; intro _ _)
    | dsimp +zetaDelta only

theorem touches_sendRestored (s : State) (c arg : Nat) : Touches [.ctxs, .fab, .freeCtr] s (sendRestored s c arg) := by
  unfold sendRestored
  repeat' first
    | with_reducible assumption
    | with_reducible exact Touches.refl _ _
    | (apply Touches.andThen (qs := [.ctxs, .fab, .freeCtr]); with_reducible exact touches_sendCtrl _ _ _ _)
    | extract_lets
    | decide
    | dsimp +zetaDelta only

theorem touches_loadForRestore {s : State} {c : Nat} {v : Volume} {stripes : Tbl (List Nat)} {t : State}
    (e : loadForRestore s c v stripes = some t) : Touches [.cores, .shelves, .ctxs, .media, .host, .fab, .freeCtr] s t := by
  unfold loadForRestore at e
  dsimp only at e
  generalize loadRefusal _ _ _ = o at e
  cases o with
  | some _ => exact absurd e (by simp)
  | none =>
    obtain rfl : _ = t := Option.some.inj e
    refine Touches.andThen (touches_settleLoads _) (by decide) ?_
    refine Touches.andThen (touches_modLed _ _ _) (by decide) ?_
    exact (touches_placeImage _ _ _).mono (by decide)

theorem touches_getD {ps : List Part} {s t : State} {o : Option State} (h : ∀ u, o = some u → Touches ps s u)
    (k : Touches ps s t) : Touches ps s (o.getD t) := by
  cases o with
  | none => exact k
  | some u => exact h u rfl

theorem touches_cancelLoad (s : State) (c : Nat) : Touches [.cores, .shelves, .ctxs, .media, .host, .fab, .bring, .freeCtr] s (cancelLoad s c) := by
  unfold cancelLoad
  repeat' first
    | with_reducible assumption
    | with_reducible exact Touches.refl _ _
    | (apply Touches.andThen (qs := [.ctxs]); with_reducible exact touches_modLed _ _ _)
    | (apply Touches.andThen (qs := [.ctxs, .fab, .freeCtr]); with_reducible exact touches_report _ _ _ _ _)
    | (apply Touches.andThen (qs := [.cores, .shelves, .ctxs, .media, .bring, .freeCtr]); with_reducible exact touches_unloadNow _ _)
    | (apply Touches.andThen (qs := [.host]); with_reducible exact touches_modTaken _ _)
    | (apply Touches.andThen (qs := [.ctxs, .fab, .freeCtr]); with_reducible exact touches_sendRestored _ _ _)
    | (apply Touches.andThen (qs := [.ctxs, .fab, .freeCtr]); with_reducible exact touches_flushCredits _ _)
    | extract_lets
    | split
    | decide
    | dsimp +zetaDelta only

theorem touches_cancelLoads (s : State) : Touches [.cores, .shelves, .ctxs, .media, .host, .fab, .bring, .freeCtr] s (cancelLoads s) := by
  unfold cancelLoads
  repeat' first
    | with_reducible assumption
    | with_reducible exact Touches.refl _ _
    | (apply Touches.andThen (qs := [.cores, .shelves, .ctxs, .media, .host, .fab, .bring, .freeCtr]); with_reducible exact touches_cancelLoad _ _)
    | decide
    | (with_reducible refine Touches.foldl ?_ ?_; intro _ _)

theorem touches_spareImage {ps : List Part} {s u : State} {c : Nat} {v : Volume} {stripes : Tbl (List Nat)} {o : Option State}
    (hp : ∀ p ∈ [.cores, .shelves, .ctxs, .media, .host, .fab, .freeCtr], p ∈ ps) (hu : Touches ps s u) (h : ∀ w, o = some w → Touches ps s w) :
    Touches ps s (spareImage u c v stripes o) := by
  cases o with
  | none => exact Touches.andThen (touches_sendRestored _ _ _) (fun p k => hp p (by revert k; revert p; decide)) hu
  | some w =>
    refine touches_getD (fun x hx => ?_) ?_
    · exact Touches.andThen (touches_loadForRestore hx) (fun p k => hp p (by revert k; revert p; decide)) (h w rfl)
    · exact Touches.andThen (touches_sendRestored _ _ _) (fun p k => hp p (by revert k; revert p; decide)) (h w rfl)

theorem touches_spareLoad (s : State) (c : Nat) (stripes : Tbl (List Nat)) : Touches [.cores, .shelves, .bytes, .granules, .tiers, .ctxs, .media, .host, .fab, .sec, .ledger, .freeCtr] s (spareLoad s c stripes) := by
  unfold spareLoad
  extract_lets x
  split
  · exact (touches_sendRestored _ _ _).mono (by decide)
  · extract_lets ds s0 s1
    have h0 : Touches [.cores, .shelves, .bytes, .granules, .tiers, .ctxs, .media, .host, .fab, .sec, .ledger, .freeCtr] s s0 := (touches_modLed _ _ _).mono (by decide)
    have h1 : Touches [.cores, .shelves, .bytes, .granules, .tiers, .ctxs, .media, .host, .fab, .sec, .ledger, .freeCtr] s s1 := Touches.foldl (fun _ _ => (touches_writeData _ _ _).mono (by decide))
      (Touches.andThen (touches_choosePartners _ _) (by decide) h0)
    exact touches_spareImage (by decide) h1 fun w hw => Touches.andThen (touches_reserveLedger hw) (by decide) h1

theorem touches_rebind (s : State) (c : Nat) (stripes : Tbl (List Nat)) : Touches [.cores, .shelves, .bytes, .granules, .tiers, .ctxs, .media, .host, .fab, .sec, .ledger, .freeCtr] s (rebind s c stripes) := by
  unfold rebind
  repeat' first
    | with_reducible assumption
    | with_reducible exact Touches.refl _ _
    | (apply Touches.andThen (qs := [.ctxs]); with_reducible exact touches_modLed _ _ _)
    | (apply Touches.andThen (qs := [.ctxs]); with_reducible exact touches_takeMail _ _ _)
    | (apply Touches.andThen (qs := [.ctxs]); with_reducible exact touches_heed _ _ _)
    | (apply Touches.andThen (qs := [.ctxs, .fab]); with_reducible exact touches_replaceRank _ _ _ _)
    | (apply Touches.andThen (qs := [.cores, .shelves, .bytes, .granules, .tiers, .ctxs, .media, .host, .fab, .sec, .ledger, .freeCtr]); with_reducible exact touches_spareLoad _ _ _)
    | extract_lets
    | split
    | decide
    | refine Touches.ofPair (by with_reducible assumption) ?_
    | refine Touches.ofPairSnd (by with_reducible assumption) ?_
    | refine Touches.ofTriple (by with_reducible assumption) ?_
    | dsimp +zetaDelta only

theorem touches_rebuildHeaders (s : State) (c : Nat) : Touches [.bytes, .tiers] s (rebuildHeaders s c) := by
  unfold rebuildHeaders
  repeat' first
    | with_reducible assumption
    | with_reducible exact Touches.refl _ _
    | (apply Touches.andThen (qs := [.bytes, .tiers]); with_reducible exact touches_writeWord _ _ _ _)
    | extract_lets
    | decide
    | (with_reducible refine Touches.foldl ?_ ?_; intro _ _)
    | dsimp +zetaDelta only

theorem touches_restoreObject (s : State) (c : Nat) (record : Blob) (own : Bool) (image : Option Blob) (data : Tbl (List Blob)) (i : Nat) : Touches [.bytes, .tiers, .ctxs] s (restoreObject s c record own image data i).1 := by
  unfold restoreObject
  repeat' first
    | with_reducible assumption
    | with_reducible exact Touches.refl _ _
    | (apply Touches.andThen (qs := [.ctxs]); with_reducible exact touches_modLed _ _ _)
    | (apply Touches.andThen (qs := [.bytes, .tiers]); with_reducible exact touches_memWrite _ _ _)
    | (apply Touches.andThen (qs := [.bytes, .tiers]); with_reducible exact touches_ledgerWrite _ _ _ _)
    | extract_lets
    | split
    | decide
    | dsimp +zetaDelta only

theorem touches_takeRoles (s : State) (c : Nat) (copies : Tbl Blob) (images : Tbl Blob) : Touches [.bytes, .tiers] s (takeRoles s c copies images) := by
  unfold takeRoles
  repeat' first
    | with_reducible assumption
    | with_reducible exact Touches.refl _ _
    | (apply Touches.andThen (qs := [.bytes, .tiers]); with_reducible exact touches_ledgerWrite _ _ _ _)
    | extract_lets
    | split
    | decide
    | (with_reducible refine Touches.foldl ?_ ?_; intro _ _)
    | dsimp +zetaDelta only

theorem touches_restoreAll (s : State) (c : Nat) (record : Option Blob) (data : Tbl (List Blob)) (copies images : Tbl Blob) (parity : List Blob) : Touches [.bytes, .tiers, .ctxs, .fab, .freeCtr] s (restoreAll s c record data copies images parity) := by
  unfold restoreAll
  repeat' first
    | with_reducible assumption
    | with_reducible exact Touches.refl _ _
    | (apply Touches.andThen (qs := [.ctxs]); with_reducible exact touches_modCtx _ _ _)
    | (apply Touches.andThen (qs := [.bytes, .tiers]); with_reducible exact touches_ledgerWrite _ _ _ _)
    | (apply Touches.andThen (qs := [.ctxs, .fab, .freeCtr]); with_reducible exact touches_sendRestored _ _ _)
    | (apply Touches.andThen (qs := [.bytes, .tiers]); with_reducible exact touches_rebuildHeaders _ _)
    | (apply Touches.andThen (qs := [.bytes, .tiers, .ctxs]); with_reducible exact touches_restoreObject _ _ _ _ _ _ _)
    | (apply Touches.andThen (qs := [.bytes, .tiers]); with_reducible exact touches_takeRoles _ _ _ _)
    | extract_lets
    | split
    | decide
    | refine Touches.ofPair (by with_reducible assumption) ?_
    | refine Touches.ofPairSnd (by with_reducible assumption) ?_
    | refine Touches.ofTriple (by with_reducible assumption) ?_
    | (with_reducible refine Touches.foldl ?_ ?_; intro _ _)
    | (with_reducible refine Touches.foldlPair ?_ ?_; intro _ _)
    | dsimp +zetaDelta only

theorem touches_recreate {s t : State} {c : Nat} (e : recreate s c = some t) : Touches [.cores, .shelves, .bytes, .granules, .tiers, .ctxs, .media, .host, .fab, .sec, .bring, .freeCtr] s t := by
  unfold recreate at e
  dsimp only at e
  have give : ∀ u, Touches [.cores, .shelves, .bytes, .granules, .tiers, .ctxs, .media, .host, .fab, .sec, .bring, .freeCtr] s u → Touches [.cores, .shelves, .bytes, .granules, .tiers, .ctxs, .media, .host, .fab, .sec, .bring, .freeCtr] s (report (u.modLed c fun l => { l with restoring := false }) c 1
      (s.ctx c).rank.toNat 0) := fun u h =>
    Touches.andThen (touches_report _ _ _ _ _) (by decide) (Touches.andThen (touches_modLed _ _ _) (by decide) h)
  have aband : Touches [.cores, .shelves, .bytes, .granules, .tiers, .ctxs, .media, .host, .fab, .sec, .bring, .freeCtr] s (abandonCreate s c) := (touches_abandonCreate _ _).mono (by decide)
  split at e
  · cases e
    exact give _ (Touches.refl _ _)
  · split at e
    · cases e
      exact give _ aband
    · split at e
      · cases e
      · cases e
        exact give _ aband
      · rename_i s1 hb
        have h1 : Touches [.cores, .shelves, .bytes, .granules, .tiers, .ctxs, .media, .host, .fab, .sec, .bring, .freeCtr] s s1 :=
          Touches.andThen (touches_buildContext hb) (by decide) ((touches_modCtx _ _ _).mono (by decide))
        have h3 : Touches [.cores, .shelves, .bytes, .granules, .tiers, .ctxs, .media, .host, .fab, .sec, .bring, .freeCtr] s ((match (s.ctx c).entry with | some k => stampEntry s1 k | none => s1).modCtx c
            fun x => { x with st := .idle }) := by
          refine Touches.andThen (touches_modCtx _ _ _) (by decide) ?_
          split
          · exact Touches.andThen (touches_stampEntry _ _) (by decide) h1
          · exact h1
        cases e
        exact touches_getD (fun u hu => Touches.andThen (touches_loadForRestore hu) (by decide) h3) (Touches.foldl (fun _ _ => (touches_rebindShelf _ _).mono (by decide)) (give _ h3))

theorem touches_restoreDone (s : State) (c : Nat) (record : Blob) (data : Tbl (List Blob)) (copies images : Tbl Blob)
    (parity : List Blob) :
    Touches [.cores, .shelves, .bytes, .granules, .tiers, .ctxs, .media, .host, .fab, .sec, .bring, .freeCtr] s (restoreDone s c record data copies images parity) := by
  unfold restoreDone
  extract_lets x
  split
  · exact Touches.refl _ _
  · split
    · exact touches_getD (fun u hu => (touches_recreate hu).mono (by decide)) (Touches.refl _ _)
    · exact (touches_restoreAll _ _ _ _ _ _ _).mono (by decide)
    · exact Touches.refl _ _

theorem touches_restored (s : State) (c : Nat) : Touches [.cores, .shelves, .ctxs, .media, .host, .fab, .bring, .freeCtr] s (restored s c) := by
  unfold restored
  repeat' first
    | with_reducible assumption
    | with_reducible exact Touches.refl _ _
    | (apply Touches.andThen (qs := [.ctxs]); with_reducible exact touches_modLed _ _ _)
    | (apply Touches.andThen (qs := [.ctxs]); with_reducible exact touches_takeMail _ _ _)
    | (apply Touches.andThen (qs := [.ctxs, .fab, .freeCtr]); with_reducible exact touches_sendAll _ _ _)
    | (apply Touches.andThen (qs := [.cores, .shelves, .ctxs, .media, .host, .bring, .freeCtr]); with_reducible exact touches_haltJob _ _ _)
    | extract_lets
    | split
    | decide
    | refine Touches.ofPair (by with_reducible assumption) ?_
    | refine Touches.ofPairSnd (by with_reducible assumption) ?_
    | refine Touches.ofTriple (by with_reducible assumption) ?_
    | dsimp +zetaDelta only

theorem touches_loadMonitor (s : State) (c : Nat) (record : Blob) : Touches [.cores] s (loadMonitor s c record) := by
  unfold loadMonitor
  repeat' first
    | with_reducible assumption
    | with_reducible exact Touches.refl _ _
    | (apply Touches.andThen (qs := [.cores]); with_reducible exact touches_modCore _ _ _)
    | split
    | decide

theorem touches_loadExpectT (s : State) (c : Nat) : Touches [.cores] s (loadExpectT s c) := by
  unfold loadExpectT
  repeat' first
    | with_reducible assumption
    | with_reducible exact Touches.refl _ _
    | (apply Touches.andThen (qs := [.cores]); with_reducible exact touches_modUpd _ _ _)
    | extract_lets
    | decide
    | (with_reducible refine Touches.foldl ?_ ?_; intro _ _)
    | dsimp +zetaDelta only

theorem touches_reopenQueues (s : State) (c : Nat) : Touches [.media, .freeCtr] s (reopenQueues s c) := by
  unfold reopenQueues
  repeat' first
    | with_reducible assumption
    | with_reducible exact Touches.refl _ _
    | (apply Touches.andThen (qs := [.media, .freeCtr]); with_reducible exact touches_openQueue _ _ _ _ _)
    | extract_lets
    | split
    | decide
    | (with_reducible refine Touches.foldl ?_ ?_; intro _ _)
    | dsimp +zetaDelta only

theorem touches_restartAt (s : State) (c : Nat) (step : BitVec 32) (record : Blob) : Touches [.cores, .ctxs, .media, .fab, .freeCtr] s (restartAt s c step record) := by
  unfold restartAt
  repeat' first
    | with_reducible assumption
    | with_reducible exact Touches.refl _ _
    | (apply Touches.andThen (qs := [.cores]); with_reducible exact touches_modCore _ _ _)
    | (apply Touches.andThen (qs := [.ctxs]); with_reducible exact touches_modCtx _ _ _)
    | (apply Touches.andThen (qs := [.ctxs, .fab, .freeCtr]); with_reducible exact touches_sendChecks _ _)
    | (apply Touches.andThen (qs := [.cores, .ctxs, .media]); with_reducible exact touches_newStep _ _)
    | (apply Touches.andThen (qs := [.cores]); with_reducible exact touches_loadMonitor _ _ _)
    | (apply Touches.andThen (qs := [.cores]); with_reducible exact touches_loadExpectT _ _)
    | (apply Touches.andThen (qs := [.media, .freeCtr]); with_reducible exact touches_reopenQueues _ _)
    | extract_lets
    | decide
    | (with_reducible refine Touches.foldl ?_ ?_; intro _ _)
    | dsimp +zetaDelta only

theorem touches_resume (s : State) (c : Nat) : Touches [.cores, .ctxs, .media, .host, .fab, .freeCtr] s (resume s c) := by
  unfold resume
  repeat' first
    | with_reducible assumption
    | with_reducible exact Touches.refl _ _
    | (apply Touches.andThen (qs := [.ctxs]); with_reducible exact touches_modLed _ _ _)
    | (apply Touches.andThen (qs := [.ctxs, .host]); with_reducible exact touches_ctxEvent _ _ _ _)
    | (apply Touches.andThen (qs := [.ctxs]); with_reducible exact touches_takeMail _ _ _)
    | (apply Touches.andThen (qs := [.ctxs]); with_reducible exact touches_heed _ _ _)
    | (apply Touches.andThen (qs := [.cores, .ctxs, .media, .fab, .freeCtr]); with_reducible exact touches_restartAt _ _ _ _)
    | extract_lets
    | split
    | decide
    | refine Touches.ofPair (by with_reducible assumption) ?_
    | refine Touches.ofPairSnd (by with_reducible assumption) ?_
    | refine Touches.ofTriple (by with_reducible assumption) ?_
    | dsimp +zetaDelta only

theorem touches_drop (s : State) (c : Nat) : Touches [.cores, .shelves, .ctxs, .media, .host, .fab, .bring, .freeCtr] s (drop s c) := by
  unfold drop
  repeat' first
    | with_reducible assumption
    | with_reducible exact Touches.refl _ _
    | (apply Touches.andThen (qs := [.ctxs]); with_reducible exact touches_modLed _ _ _)
    | (apply Touches.andThen (qs := [.ctxs]); with_reducible exact touches_takeMail _ _ _)
    | (apply Touches.andThen (qs := [.ctxs]); with_reducible exact touches_heed _ _ _)
    | (apply Touches.andThen (qs := [.cores, .shelves, .ctxs, .media, .host, .fab, .bring, .freeCtr]); with_reducible exact touches_bindNext _ _)
    | extract_lets
    | split
    | decide
    | refine Touches.ofPair (by with_reducible assumption) ?_
    | refine Touches.ofPairSnd (by with_reducible assumption) ?_
    | refine Touches.ofTriple (by with_reducible assumption) ?_
    | dsimp +zetaDelta only

theorem touches_join (s : State) (c : Nat) : Touches [.cores, .ctxs, .media, .fab, .freeCtr] s (join s c) := by
  unfold join
  repeat' first
    | with_reducible assumption
    | with_reducible exact Touches.refl _ _
    | (apply Touches.andThen (qs := [.ctxs]); with_reducible exact touches_modLed _ _ _)
    | (apply Touches.andThen (qs := [.ctxs]); with_reducible exact touches_takeMail _ _ _)
    | (apply Touches.andThen (qs := [.ctxs]); with_reducible exact touches_heed _ _ _)
    | (apply Touches.andThen (qs := [.ctxs, .fab]); with_reducible exact touches_replaceRank _ _ _ _)
    | (apply Touches.andThen (qs := [.cores, .ctxs, .media, .fab, .freeCtr]); with_reducible exact touches_restartAt _ _ _ _)
    | extract_lets
    | split
    | decide
    | refine Touches.ofPair (by with_reducible assumption) ?_
    | refine Touches.ofPairSnd (by with_reducible assumption) ?_
    | refine Touches.ofTriple (by with_reducible assumption) ?_
    | dsimp +zetaDelta only

theorem touches_releaseRecord (s : State) (job : BitVec 32) : Touches [.bytes, .granules, .tiers, .ctxs, .ledger] s (releaseRecord s job) := by
  unfold releaseRecord
  extract_lets mailed
  split
  · refine Touches.andThen (touches_releaseLedger _ _) (by decide) ?_
    exact ⟨⟨rfl, rfl, rfl, rfl, rfl, rfl, le_refl _, rfl, id⟩, by intro p hp; cases p <;> simp_all [Part.same]⟩
  · clear_value mailed
    cases mailed with
    | some c => exact Touches.andThen (touches_releaseLedger _ _) (by decide) ((touches_modLed _ _ _).mono (by decide))
    | none => exact Touches.refl _ _

theorem touches_recordsDone (s : State) (accs : List Nat) : Touches [.cores, .shelves, .ctxs, .media, .host, .fab, .bring, .freeCtr] s (recordsDone s accs) := by
  unfold recordsDone
  repeat' first
    | with_reducible assumption
    | with_reducible exact Touches.refl _ _
    | (apply Touches.andThen (qs := [.ctxs]); with_reducible exact touches_modLed _ _ _)
    | (apply Touches.andThen (qs := [.ctxs, .fab, .freeCtr]); with_reducible exact touches_sendCtrlTo _ _ _ _)
    | (apply Touches.andThen (qs := [.cores, .shelves, .ctxs, .media, .host, .fab, .bring, .freeCtr]); with_reducible exact touches_bindNext _ _)
    | extract_lets
    | split
    | decide
    | (with_reducible refine Touches.foldl ?_ ?_; intro _ _)
    | dsimp +zetaDelta only

theorem touches_afterRecords (before after : State) : Touches [.cores, .shelves, .ctxs, .media, .host, .fab, .bring, .freeCtr] after (afterRecords before after) := by
  unfold afterRecords
  repeat' first
    | with_reducible assumption
    | with_reducible exact Touches.refl _ _
    | (apply Touches.andThen (qs := [.ctxs, .fab, .freeCtr]); with_reducible exact touches_report _ _ _ _ _)
    | (apply Touches.andThen (qs := [.cores, .shelves, .ctxs, .media, .host, .fab, .bring, .freeCtr]); with_reducible exact touches_recordsDone _ _)
    | extract_lets
    | split
    | decide
    | (with_reducible refine Touches.foldl ?_ ?_; intro _ _)
    | dsimp +zetaDelta only

end Sys2Proof.Machine
end

