-- ==== Sys2Proof/Laws/TouchHost.lean ====
section
/-!
SUPPORT. What each operation of Machine/Host.lean touches.
-/

set_option linter.unusedTactic false
set_option linter.unreachableTactic false

namespace Sys2Proof.Machine

theorem touches_hostStatus (before after : State) : Touches [.host] after (hostStatus before after) := by
  unfold hostStatus
  repeat' first
    | with_reducible assumption
    | with_reducible exact Touches.refl _ _
    | (apply Touches.andThen (qs := [.host]); with_reducible exact touches_raiseVector _ _)
    | (apply Touches.andThen (qs := [.host]); with_reducible exact touches_modHost _ _)
    | extract_lets
    | split
    | decide
    | dsimp +zetaDelta only

theorem touches_linkReset (s : State) : Touches [.host] s (linkReset s) := by
  unfold linkReset
  repeat' first
    | with_reducible assumption
    | with_reducible exact Touches.refl _ _
    | (apply Touches.andThen (qs := [.host]); with_reducible exact touches_modHost _ _)
    | decide

theorem touches_hotReset (s : State) : Touches [.host] s (hotReset s) := by
  unfold hotReset
  repeat' first
    | with_reducible assumption
    | with_reducible exact Touches.refl _ _
    | (apply Touches.andThen (qs := [.host]); with_reducible exact touches_linkReset _)
    | split
    | decide

theorem touches_functionLevelReset (s : State) : Touches [.host] s (functionLevelReset s) := by
  unfold functionLevelReset
  repeat' first
    | with_reducible assumption
    | with_reducible exact Touches.refl _ _
    | (apply Touches.andThen (qs := [.host]); with_reducible exact touches_linkReset _)
    | split
    | decide

theorem touches_pcieLinkDown (s : State) : Touches [.host] s (pcieLinkDown s) := by
  unfold pcieLinkDown
  repeat' first
    | with_reducible assumption
    | with_reducible exact Touches.refl _ _
    | (apply Touches.andThen (qs := [.host]); with_reducible exact touches_linkReset _)
    | split
    | decide

theorem touches_holdPcie (s : State) : Touches [.host] s (holdPcie s) := by
  unfold holdPcie
  repeat' first
    | with_reducible assumption
    | with_reducible exact Touches.refl _ _
    | (apply Touches.andThen (qs := [.host]); with_reducible exact touches_modHost _ _)
    | decide

theorem touches_perstAssert (s : State) : Touches [.host, .pins] s (perstAssert s) := by
  unfold perstAssert
  repeat' first
    | with_reducible assumption
    | with_reducible exact Touches.refl _ _
    | (apply Touches.andThen (qs := [.host]); with_reducible exact touches_holdPcie _)
    | decide
    | (with_reducible refine Touches.mk' _ rfl rfl rfl ?_ ?_ ?_ ?_ ?_ ?_ rfl ?_ ?_ ?_ ?_ ?_ ?_ ?_ ?_ ?_ ?_)
    | exact Or.inr (by decide)
    | exact Or.inl rfl

theorem touches_perstRelease (s : State) : Touches [.host, .pins] s (perstRelease s) := by
  unfold perstRelease
  repeat' first
    | with_reducible assumption
    | with_reducible exact Touches.refl _ _
    | (apply Touches.andThen (qs := [.host]); with_reducible exact touches_linkReset _)
    | (apply Touches.andThen (qs := [.host]); with_reducible exact touches_holdPcie _)
    | extract_lets
    | split
    | decide
    | (with_reducible refine Touches.mk' _ rfl rfl rfl ?_ ?_ ?_ ?_ ?_ ?_ rfl ?_ ?_ ?_ ?_ ?_ ?_ ?_ ?_ ?_ ?_)
    | exact Or.inr (by decide)
    | exact Or.inl rfl
    | dsimp +zetaDelta only

theorem touches_configurationRequest (s : State) (settled : Bool) : Touches [.host] s (configurationRequest s settled) := by
  unfold configurationRequest
  repeat' first
    | with_reducible assumption
    | with_reducible exact Touches.refl _ _
    | (apply Touches.andThen (qs := [.host]); with_reducible exact touches_modHost _ _)
    | split
    | decide

theorem touches_modRing (s : State) (q : Nat) (f : Ring → Ring) : Touches [.host] s (State.modRing s q f) := by
  unfold State.modRing
  repeat' first
    | with_reducible assumption
    | with_reducible exact Touches.refl _ _
    | (apply Touches.andThen (qs := [.host]); with_reducible exact touches_modHost _ _)
    | decide

theorem touches_callDoorbell (s : State) (q : Nat) (value : BitVec 32) (writes : Tbl (BitVec 1024)) : Touches [.host] s (callDoorbell s q value writes) := by
  unfold callDoorbell
  repeat' first
    | with_reducible assumption
    | with_reducible exact Touches.refl _ _
    | (apply Touches.andThen (qs := [.host]); with_reducible exact touches_modRing _ _ _)
    | extract_lets
    | split
    | decide
    | (with_reducible refine Touches.foldl ?_ ?_; intro _ _)
    | (with_reducible refine Touches.foldlPair ?_ ?_; intro _ _)
    | dsimp +zetaDelta only

theorem touches_slipTake (s : State) (q : Nat) : Touches [.host] s (slipTake s q) := by
  unfold slipTake
  repeat' first
    | with_reducible assumption
    | with_reducible exact Touches.refl _ _
    | (apply Touches.andThen (qs := [.host]); with_reducible exact touches_modHost _ _)
    | (apply Touches.andThen (qs := [.host]); with_reducible exact touches_modRing _ _ _)
    | extract_lets
    | split
    | decide
    | dsimp +zetaDelta only

theorem touches_slipEnd (s : State) (q : Nat) (seq : BitVec 32) : Touches [.host] s (slipEnd s q seq) := by
  unfold slipEnd
  repeat' first
    | with_reducible assumption
    | with_reducible exact Touches.refl _ _
    | (apply Touches.andThen (qs := [.host]); with_reducible exact touches_raiseVector _ _)
    | (apply Touches.andThen (qs := [.host]); with_reducible exact touches_modHost _ _)
    | (apply Touches.andThen (qs := [.host]); with_reducible exact touches_modRing _ _ _)
    | extract_lets
    | split
    | decide
    | dsimp +zetaDelta only

theorem touches_retAck (s : State) (q : Nat) (value : BitVec 32) : Touches [.host] s (retAck s q value) := by
  unfold retAck
  repeat' first
    | with_reducible assumption
    | with_reducible exact Touches.refl _ _
    | (apply Touches.andThen (qs := [.host]); with_reducible exact touches_modRing _ _ _)
    | extract_lets
    | split
    | decide
    | dsimp +zetaDelta only

theorem touches_ringReset (s : State) (q : Nat) : Touches [.host] s (ringReset s q) := by
  unfold ringReset
  repeat' first
    | with_reducible assumption
    | with_reducible exact Touches.refl _ _
    | (apply Touches.andThen (qs := [.host]); with_reducible exact touches_modRing _ _ _)
    | split
    | decide

theorem touches_ringResetEffect (s : State) (q : Nat) : Touches [.host] s (ringResetEffect s q) := by
  unfold ringResetEffect
  repeat' first
    | with_reducible assumption
    | with_reducible exact Touches.refl _ _
    | (apply Touches.andThen (qs := [.host]); with_reducible exact touches_modRing _ _ _)
    | split
    | decide

theorem touches_msixUnmask (s : State) (v : Nat) : Touches [.host] s (msixUnmask s v) := by
  unfold msixUnmask
  repeat' first
    | with_reducible assumption
    | with_reducible exact Touches.refl _ _
    | (apply Touches.andThen (qs := [.host]); with_reducible exact touches_modHost _ _)
    | split
    | decide

theorem touches_registerWriteIgnored (s : State) (bar off : Nat) : Touches [.host] s (registerWriteIgnored s bar off) := by
  unfold registerWriteIgnored
  repeat' first
    | with_reducible assumption
    | with_reducible exact Touches.refl _ _
    | (apply Touches.andThen (qs := [.host]); with_reducible exact touches_modHost _ _)
    | split
    | decide

end Sys2Proof.Machine
end

