-- ==== Sys2Proof/Laws/TouchRecord.lean ====
section
/-!
SUPPORT. What each operation of Machine/Record.lean touches.
-/

set_option linter.unusedTactic false
set_option linter.unreachableTactic false

namespace Sys2Proof.Machine

theorem touches_countColophon (s : State) (ok : Bool) : Touches [.sec] s (countColophon s ok) := by
  unfold countColophon
  repeat' first
    | with_reducible assumption
    | with_reducible exact Touches.refl _ _
    | (apply Touches.andThen (qs := [.sec]); with_reducible refine touches_modSec _ _ ?_)
    | split
    | decide
    | (refine fun (_ : Sec) => ?_; repeat' first
        | exact ⟨rfl, rfl, rfl, rfl, rfl, le_refl _⟩
        | exact ⟨rfl, rfl, rfl, rfl, rfl, le_max_left _ _⟩
        | exact fuses_want _ _ _ _
        | split)

theorem touches_writeBoot (s : State) (f : BootFolio) : Touches [.imprint] s (writeBoot s f) := by
  unfold writeBoot
  repeat' first
    | with_reducible assumption
    | with_reducible exact Touches.refl _ _
    | extract_lets
    | split
    | decide
    | (with_reducible refine Touches.mk' _ rfl rfl rfl ?_ ?_ ?_ ?_ ?_ ?_ rfl ?_ ?_ ?_ ?_ ?_ ?_ ?_ ?_ ?_ ?_)
    | exact Or.inr (by decide)
    | exact Or.inl rfl
    | dsimp +zetaDelta only

theorem touches_setSlot (s : State) (b : Bool) (x : FwSlot) : Touches [.imprint] s (setSlot s b x) := by
  unfold setSlot
  repeat' first
    | with_reducible assumption
    | with_reducible exact Touches.refl _ _
    | split
    | decide
    | (with_reducible refine Touches.mk' _ rfl rfl rfl ?_ ?_ ?_ ?_ ?_ ?_ rfl ?_ ?_ ?_ ?_ ?_ ?_ ?_ ?_ ?_ ?_)
    | exact Or.inr (by decide)
    | exact Or.inl rfl

theorem touches_writeWear (s : State) : Touches [.power, .imprint] s (writeWear s) := by
  unfold writeWear
  repeat' first
    | with_reducible assumption
    | with_reducible exact Touches.refl _ _
    | extract_lets
    | split
    | decide
    | (with_reducible refine Touches.mk' _ rfl rfl rfl ?_ ?_ ?_ ?_ ?_ ?_ rfl ?_ ?_ ?_ ?_ ?_ ?_ ?_ ?_ ?_ ?_)
    | exact Or.inr (by decide)
    | exact Or.inl rfl
    | dsimp +zetaDelta only

theorem touches_writeOwner (s : State) (key : Option (BitVec 512)) (nonce : BitVec 32) (next : BitVec 256) : Touches [.imprint] s (writeOwner s key nonce next) := by
  unfold writeOwner
  repeat' first
    | with_reducible assumption
    | with_reducible exact Touches.refl _ _
    | extract_lets
    | split
    | decide
    | (with_reducible refine Touches.mk' _ rfl rfl rfl ?_ ?_ ?_ ?_ ?_ ?_ rfl ?_ ?_ ?_ ?_ ?_ ?_ ?_ ?_ ?_ ?_)
    | exact Or.inr (by decide)
    | exact Or.inl rfl
    | dsimp +zetaDelta only

theorem touches_applyLayer (s : State) : Touches [.bring, .power] s (applyLayer s) := by
  unfold applyLayer
  repeat' first
    | with_reducible assumption
    | with_reducible exact Touches.refl _ _
    | extract_lets
    | split
    | decide
    | (with_reducible refine Touches.mk' _ rfl rfl rfl ?_ ?_ ?_ ?_ ?_ ?_ rfl ?_ ?_ ?_ ?_ ?_ ?_ ?_ ?_ ?_ ?_)
    | exact Or.inr (by decide)
    | exact Or.inl rfl
    | dsimp +zetaDelta only

theorem touches_takeFolio (s : State) : Touches [.fab] s (takeFolio s) := by
  unfold takeFolio
  repeat' first
    | with_reducible assumption
    | with_reducible exact Touches.refl _ _
    | (apply Touches.andThen (qs := [.fab]); with_reducible exact touches_modFab _ _)
    | extract_lets
    | split
    | decide
    | dsimp +zetaDelta only

end Sys2Proof.Machine
end

