-- ==== Sys2Proof/Laws/TouchBoot.lean ====
section
/-!
SUPPORT. What each operation of Machine/Boot.lean touches.
-/

set_option linter.unusedTactic false
set_option linter.unreachableTactic false

namespace Sys2Proof.Machine

theorem touches_settleWrites (s : State) : Touches [.bytes, .tiers, .freeCtr] s (settleWrites s) := by
  unfold settleWrites
  repeat' first
    | with_reducible assumption
    | with_reducible exact Touches.refl _ _
    | (apply Touches.andThen (qs := [.bytes, .tiers, .freeCtr]); with_reducible exact touches_cxlReset _ _ _)
    | split
    | decide
    | (with_reducible refine Touches.foldl ?_ ?_; intro _ _)

theorem touches_dieReset (s : State) (supply : Bool) : Touches [.cores, .shelves, .bytes, .granules, .tiers, .ctxs, .media, .host, .fab, .sec, .ledger, .bring, .power, .imprint, .pins, .mgmt, .latches, .freeCtr] s (dieReset s supply) := by
  unfold dieReset
  extract_lets s1 cxl m kept
  have h : Touches [.bytes, .tiers, .freeCtr] s s1 := touches_settleWrites s
  have hk : s1.mem.mem.wf → kept.wf := by
    intro w
    simp only [Mem.wf, Bool.and_eq_true] at w
    cases supply
    · rfl
    · simp only [kept, Mem.wf, if_true, Bool.and_eq_true]
      exact ⟨cellsWf_filter _ _ w.1, risingWf_filter _ _ w.2⟩
  clear_value s1 cxl m kept
  refine ⟨⟨h.1.1, h.1.2, h.1.3, h.1.4, h.1.5, h.1.6, h.1.7, h.1.8, fun w => hk (h.1.9 w)⟩, ?_⟩
  intro p hp
  cases p <;> first
    | exact absurd (by decide) hp
    | exact h.2 .mu (by decide)

theorem touches_beginBringup (s : State) : Touches [.host, .bring, .power, .pins] s (beginBringup s) := by
  unfold beginBringup
  repeat' first
    | with_reducible assumption
    | with_reducible exact Touches.refl _ _
    | (apply Touches.andThen (qs := [.bring]); with_reducible exact touches_modBring _ _)
    | (apply Touches.andThen (qs := [.bring, .power]); with_reducible exact touches_startWave _ _ _ _)
    | (apply Touches.andThen (qs := [.host]); with_reducible exact touches_holdPcie _)
    | extract_lets
    | decide
    | (with_reducible refine Touches.mk' _ rfl rfl rfl ?_ ?_ ?_ ?_ ?_ ?_ rfl ?_ ?_ ?_ ?_ ?_ ?_ ?_ ?_ ?_ ?_)
    | exact Or.inr (by decide)
    | exact Or.inl rfl
    | dsimp +zetaDelta only

theorem touches_bringupStart (s : State) : Touches [.host, .bring, .power, .pins] s (bringupStart s) := by
  unfold bringupStart
  repeat' first
    | with_reducible assumption
    | with_reducible exact Touches.refl _ _
    | (apply Touches.andThen (qs := [.host, .bring, .power, .pins]); with_reducible exact touches_beginBringup _)
    | split
    | decide

theorem touches_endPhase (s : State) (p : Nat) (cycles : BitVec 48) (next : BitVec 4) : Touches [.bring] s (endPhase s p cycles next) := by
  unfold endPhase
  repeat' first
    | with_reducible assumption
    | with_reducible exact Touches.refl _ _
    | (apply Touches.andThen (qs := [.bring]); with_reducible exact touches_modBring _ _)
    | decide

theorem touches_phaseInputEnd (s : State) (cycles : BitVec 48) : Touches [.bring] s (phaseInputEnd s cycles) := by
  unfold phaseInputEnd
  repeat' first
    | with_reducible assumption
    | with_reducible exact Touches.refl _ _
    | (apply Touches.andThen (qs := [.bring]); with_reducible exact touches_endPhase _ _ _ _)
    | split
    | decide

theorem touches_firmwareRuns (s : State) (slotB fallback rolled : Bool) :
    Touches [.tiers, .host, .fab, .sec, .bring, .power] s (firmwareRuns s slotB fallback rolled) := by
  unfold firmwareRuns
  extract_lets s1 s2 w s3
  have h2 : Touches [.tiers, .host, .fab, .sec, .bring, .power] s s2 := by
    refine Touches.andThen (touches_takeFolio _) (by decide) ?_
    refine Touches.andThen (touches_applyLayer _) (by decide) ?_
    exact (touches_modBring _ _).mono (by decide)
  refine Touches.andThen (touches_wantKey _ _) (by decide) ?_
  refine Touches.andThen (touches_wantKey _ _) (by decide) ?_
  refine h2.trans ⟨⟨rfl, rfl, rfl, rfl, rfl, rfl, le_refl _, rfl, id⟩, ?_⟩
  intro p hp
  cases p <;> first
    | exact absurd (by decide) hp
    | rfl

theorem touches_phaseImprintEnd (s : State) (cycles : BitVec 48) : Touches [.tiers, .host, .fab, .sec, .bring, .power, .imprint] s (phaseImprintEnd s cycles) := by
  unfold phaseImprintEnd
  repeat' first
    | with_reducible assumption
    | with_reducible exact Touches.refl _ _
    | (apply Touches.andThen (qs := [.sec]); with_reducible refine touches_modSec _ _ ?_)
    | (apply Touches.andThen (qs := [.bring, .power]); with_reducible exact touches_startWave _ _ _ _)
    | (apply Touches.andThen (qs := [.host, .bring]); with_reducible exact touches_halt' _ _)
    | (apply Touches.andThen (qs := [.host]); with_reducible exact touches_hostStatus _ _)
    | (apply Touches.andThen (qs := [.imprint]); with_reducible exact touches_writeBoot _ _)
    | (apply Touches.andThen (qs := [.bring]); with_reducible exact touches_endPhase _ _ _ _)
    | (apply Touches.andThen (qs := [.tiers, .host, .fab, .sec, .bring, .power]); with_reducible exact touches_firmwareRuns _ _ _ _)
    | extract_lets
    | split
    | decide
    | (refine fun (_ : Sec) => ?_; repeat' first
        | exact ⟨rfl, rfl, rfl, rfl, rfl, le_refl _⟩
        | exact ⟨rfl, rfl, rfl, rfl, rfl, le_max_left _ _⟩
        | exact fuses_want _ _ _ _
        | split)
    | dsimp +zetaDelta only

theorem touches_trainCxl (s : State) (trained retained : BitVec 4) : Touches [.bytes, .tiers, .bring] s (trainCxl s trained retained) := by
  unfold trainCxl
  repeat' first
    | with_reducible assumption
    | with_reducible exact Touches.refl _ _
    | (apply Touches.andThen (qs := [.tiers]); with_reducible exact touches_modCxl _ _ _)
    | (apply Touches.andThen (qs := [.bytes]); with_reducible refine touches_setMem _ _ ?_)
    | (apply Touches.andThen (qs := [.bring]); with_reducible exact touches_modBring _ _)
    | extract_lets
    | split
    | decide
    | (with_reducible refine Touches.foldl ?_ ?_; intro _ _)
    | with_reducible exact Mem.wf_setWord _ _ _ _
    | with_reducible exact Mem.wf_zeroRange _ _ _
    | with_reducible exact Mem.wf_writeNat _ _ _ _
    | with_reducible exact Mem.wf_undoWrites _ _
    | dsimp +zetaDelta only

theorem touches_takeDirectory (s : State) : Touches [.granules, .ledger] s (takeDirectory s) := by
  unfold takeDirectory
  repeat' first
    | with_reducible assumption
    | with_reducible exact Touches.refl _ _
    | (apply Touches.andThen (qs := [.granules]); with_reducible exact touches_modGranule _ _ _)
    | (apply Touches.andThen (qs := [.ledger]); with_reducible exact touches_putJob _ _)
    | extract_lets
    | split
    | decide
    | (with_reducible refine Touches.foldl ?_ ?_; intro _ _)
    | (with_reducible refine Touches.mk' _ rfl rfl rfl ?_ ?_ ?_ ?_ ?_ ?_ rfl ?_ ?_ ?_ ?_ ?_ ?_ ?_ ?_ ?_ ?_)
    | exact Or.inr (by decide)
    | exact Or.inl rfl
    | dsimp +zetaDelta only

theorem touches_phaseMemoryEnd (s : State) (cycles : BitVec 48) (trained retained : BitVec 4) (warmOk : Bool) (hbmReady : BitVec 8) : Touches [.bytes, .granules, .tiers, .ctxs, .host, .ledger, .bring, .power] s (phaseMemoryEnd s cycles trained retained warmOk hbmReady) := by
  unfold phaseMemoryEnd
  repeat' first
    | with_reducible assumption
    | with_reducible exact Touches.refl _ _
    | (apply Touches.andThen (qs := [.tiers]); with_reducible exact touches_modHbm _ _ _)
    | (apply Touches.andThen (qs := [.bring]); with_reducible exact touches_modBring _ _)
    | (apply Touches.andThen (qs := [.granules, .tiers, .ctxs]); with_reducible exact touches_loseGranules _ _)
    | (apply Touches.andThen (qs := [.bring, .power]); with_reducible exact touches_startWave _ _ _ _)
    | (apply Touches.andThen (qs := [.host, .bring]); with_reducible exact touches_halt' _ _)
    | (apply Touches.andThen (qs := [.bring]); with_reducible exact touches_endPhase _ _ _ _)
    | (apply Touches.andThen (qs := [.bytes, .tiers, .bring]); with_reducible exact touches_trainCxl _ _ _)
    | (apply Touches.andThen (qs := [.granules, .ledger]); with_reducible exact touches_takeDirectory _)
    | (apply Touches.andThen (qs := [.granules, .tiers]); with_reducible exact touches_modMemSys _ _ fun _ => rfl)
    | extract_lets
    | split
    | decide
    | refine Touches.ofPair (by with_reducible assumption) ?_
    | refine Touches.ofPairSnd (by with_reducible assumption) ?_
    | refine Touches.ofTriple (by with_reducible assumption) ?_
    | (with_reducible refine Touches.foldl ?_ ?_; intro _ _)
    | exact fun _ => rfl
    | dsimp +zetaDelta only

theorem touches_phaseWavesEnd (s : State) (cycles : BitVec 48) : Touches [.bring] s (phaseWavesEnd s cycles) := by
  unfold phaseWavesEnd
  repeat' first
    | with_reducible assumption
    | with_reducible exact Touches.refl _ _
    | (apply Touches.andThen (qs := [.bring]); with_reducible exact touches_endPhase _ _ _ _)
    | split
    | decide

theorem touches_wakeTested (s : State) (sh : Nat) : Touches [.bring] s (wakeTested s sh) := by
  unfold wakeTested
  repeat' first
    | with_reducible assumption
    | with_reducible exact Touches.refl _ _
    | (apply Touches.andThen (qs := [.bring]); with_reducible exact touches_modBring _ _)
    | extract_lets
    | split
    | decide
    | dsimp +zetaDelta only

theorem touches_testSite (s : State) (i : Nat) (cause : BitVec 4) (direct : Bool) : Touches [.cores, .shelves, .ctxs, .bring, .freeCtr] s (testSite s i cause direct) := by
  unfold testSite
  repeat' first
    | with_reducible assumption
    | with_reducible exact Touches.refl _ _
    | (apply Touches.andThen (qs := [.bring]); with_reducible exact touches_modSite _ _ _)
    | (apply Touches.andThen (qs := [.cores, .shelves, .ctxs, .bring, .freeCtr]); with_reducible exact touches_failSite _ _ _)
    | extract_lets
    | split
    | decide
    | dsimp +zetaDelta only

theorem touches_selfTestResult (s : State) (unit' : Nat) (cause : BitVec 4) (direct : Bool) : Touches [.cores, .shelves, .ctxs, .bring, .freeCtr] s (selfTestResult s unit' cause direct) := by
  unfold selfTestResult
  repeat' first
    | with_reducible assumption
    | with_reducible exact Touches.refl _ _
    | (apply Touches.andThen (qs := [.bring]); with_reducible exact touches_modBring _ _)
    | (apply Touches.andThen (qs := [.cores, .shelves, .ctxs, .bring, .freeCtr]); with_reducible exact touches_failSite _ _ _)
    | (apply Touches.andThen (qs := [.bring]); with_reducible exact touches_switchOff _ _)
    | (apply Touches.andThen (qs := [.bring]); with_reducible exact touches_wakeTested _ _)
    | (apply Touches.andThen (qs := [.cores, .shelves, .ctxs, .bring, .freeCtr]); with_reducible exact touches_testSite _ _ _ _)
    | extract_lets
    | split
    | decide
    | (with_reducible refine Touches.foldl ?_ ?_; intro _ _)
    | dsimp +zetaDelta only

theorem touches_rewriteCal (s : State) : Touches [.imprint, .freeCtr] s (rewriteCal s) := by
  unfold rewriteCal
  repeat' first
    | with_reducible assumption
    | with_reducible exact Touches.refl _ _
    | (apply Touches.andThen (qs := [.freeCtr]); with_reducible exact touches_free _ _)
    | extract_lets
    | split
    | decide
    | refine Touches.ofPair (by with_reducible assumption) ?_
    | refine Touches.ofPairSnd (by with_reducible assumption) ?_
    | refine Touches.ofTriple (by with_reducible assumption) ?_
    | (with_reducible refine Touches.mk' _ rfl rfl rfl ?_ ?_ ?_ ?_ ?_ ?_ rfl ?_ ?_ ?_ ?_ ?_ ?_ ?_ ?_ ?_ ?_)
    | exact Or.inr (by decide)
    | exact Or.inl rfl
    | dsimp +zetaDelta only

theorem touches_recalibrated (s : State) (clocks : Tbl Nat) : Touches [.imprint, .freeCtr] s (recalibrated s clocks) := by
  unfold recalibrated
  repeat' first
    | with_reducible assumption
    | with_reducible exact Touches.refl _ _
    | (apply Touches.andThen (qs := [.imprint, .freeCtr]); with_reducible exact touches_rewriteCal _)
    | extract_lets
    | decide
    | (with_reducible refine Touches.mk' _ rfl rfl rfl ?_ ?_ ?_ ?_ ?_ ?_ rfl ?_ ?_ ?_ ?_ ?_ ?_ ?_ ?_ ?_ ?_)
    | exact Or.inr (by decide)
    | exact Or.inl rfl
    | dsimp +zetaDelta only

theorem touches_phaseSelfTestEnd (s : State) (cycles : BitVec 48) (clocks : Tbl Nat) : Touches [.bring, .imprint, .freeCtr] s (phaseSelfTestEnd s cycles clocks) := by
  unfold phaseSelfTestEnd
  repeat' first
    | with_reducible assumption
    | with_reducible exact Touches.refl _ _
    | (apply Touches.andThen (qs := [.bring]); with_reducible exact touches_endPhase _ _ _ _)
    | (apply Touches.andThen (qs := [.imprint, .freeCtr]); with_reducible exact touches_recalibrated _ _)
    | split
    | decide

theorem touches_modWear (s : State) (i : Nat) (f : Wear → Wear) : Touches [.power] s (State.modWear s i f) := by
  unfold State.modWear
  repeat' first
    | with_reducible assumption
    | with_reducible exact Touches.refl _ _
    | decide
    | (with_reducible refine Touches.mk' _ rfl rfl rfl ?_ ?_ ?_ ?_ ?_ ?_ rfl ?_ ?_ ?_ ?_ ?_ ?_ ?_ ?_ ?_ ?_)
    | exact Or.inr (by decide)
    | exact Or.inl rfl

theorem touches_startClocks (s : State) : Touches [.power] s (startClocks s) := by
  unfold startClocks
  repeat' first
    | with_reducible assumption
    | with_reducible exact Touches.refl _ _
    | (apply Touches.andThen (qs := [.power]); with_reducible exact touches_modWear _ _ _)
    | decide
    | (with_reducible refine Touches.foldl ?_ ?_; intro _ _)

theorem touches_replan (i sd : Nat) (n : Nat) (oks : List Bool) (s : State) : Touches [.cores, .shelves, .ctxs, .bring, .power, .freeCtr] s (replan i sd n oks s) := by
  induction n generalizing oks s with
  | zero => exact Touches.refl _ _
  | succ n ih =>
    unfold replan
    repeat' first
      | with_reducible assumption
      | with_reducible exact Touches.refl _ _
      | (apply Touches.andThen (qs := [.cores, .shelves, .ctxs, .bring, .power, .freeCtr]); with_reducible exact ih _ _)
      | (apply Touches.andThen (qs := [.cores, .shelves, .ctxs, .bring, .freeCtr]); with_reducible exact touches_failSite _ _ _)
      | (apply Touches.andThen (qs := [.power]); with_reducible exact touches_modWear _ _ _)
      | extract_lets
      | split
      | decide
      | (with_reducible refine Touches.mk' _ rfl rfl rfl ?_ ?_ ?_ ?_ ?_ ?_ rfl ?_ ?_ ?_ ?_ ?_ ?_ ?_ ?_ ?_ ?_)
      | exact Or.inr (by decide)
      | exact Or.inl rfl
      | dsimp +zetaDelta only

theorem touches_replanAll (s : State) (results : Tbl (BitVec 16 × List Bool)) : Touches [.cores, .shelves, .ctxs, .bring, .power, .freeCtr] s (replanAll s results) := by
  unfold replanAll
  repeat' first
    | with_reducible assumption
    | with_reducible exact Touches.refl _ _
    | (apply Touches.andThen (qs := [.power]); with_reducible exact touches_modWear _ _ _)
    | (apply Touches.andThen (qs := [.cores, .shelves, .ctxs, .bring, .power, .freeCtr]); with_reducible exact touches_replan _ _ _ _ _)
    | split
    | decide
    | refine Touches.ofPair (by with_reducible assumption) ?_
    | refine Touches.ofPairSnd (by with_reducible assumption) ?_
    | refine Touches.ofTriple (by with_reducible assumption) ?_
    | (with_reducible refine Touches.foldl ?_ ?_; intro _ _)

theorem touches_takeBaseline (s : State) : Touches [.power, .imprint, .freeCtr] s (takeBaseline s) := by
  unfold takeBaseline
  repeat' first
    | with_reducible assumption
    | with_reducible exact Touches.refl _ _
    | (apply Touches.andThen (qs := [.imprint, .freeCtr]); with_reducible exact touches_rewriteCal _)
    | (apply Touches.andThen (qs := [.power]); with_reducible exact touches_modWear _ _ _)
    | extract_lets
    | decide
    | (with_reducible refine Touches.foldl ?_ ?_; intro _ _)
    | (with_reducible refine Touches.mk' _ rfl rfl rfl ?_ ?_ ?_ ?_ ?_ ?_ rfl ?_ ?_ ?_ ?_ ?_ ?_ ?_ ?_ ?_ ?_)
    | exact Or.inr (by decide)
    | exact Or.inl rfl
    | dsimp +zetaDelta only

theorem touches_countMeasurement (s : State) : Touches [.power] s (countMeasurement s) := by
  unfold countMeasurement
  repeat' first
    | with_reducible assumption
    | with_reducible exact Touches.refl _ _
    | decide
    | (with_reducible refine Touches.mk' _ rfl rfl rfl ?_ ?_ ?_ ?_ ?_ ?_ rfl ?_ ?_ ?_ ?_ ?_ ?_ ?_ ?_ ?_ ?_)
    | exact Or.inr (by decide)
    | exact Or.inl rfl

theorem touches_phaseAgeingEnd (s : State) (cycles : BitVec 48) (results : Tbl (BitVec 16 × List Bool)) : Touches [.cores, .shelves, .ctxs, .bring, .power, .imprint, .freeCtr] s (phaseAgeingEnd s cycles results) := by
  unfold phaseAgeingEnd
  repeat' first
    | with_reducible assumption
    | with_reducible exact Touches.refl _ _
    | (apply Touches.andThen (qs := [.bring]); with_reducible exact touches_startDistribution _ _)
    | (apply Touches.andThen (qs := [.power, .imprint]); with_reducible exact touches_writeWear _)
    | (apply Touches.andThen (qs := [.bring]); with_reducible exact touches_endPhase _ _ _ _)
    | (apply Touches.andThen (qs := [.power]); with_reducible exact touches_startClocks _)
    | (apply Touches.andThen (qs := [.cores, .shelves, .ctxs, .bring, .power, .freeCtr]); with_reducible exact touches_replanAll _ _)
    | (apply Touches.andThen (qs := [.power, .imprint, .freeCtr]); with_reducible exact touches_takeBaseline _)
    | (apply Touches.andThen (qs := [.power]); with_reducible exact touches_countMeasurement _)
    | extract_lets
    | split
    | decide
    | (with_reducible refine Touches.foldl ?_ ?_; intro _ _)
    | dsimp +zetaDelta only

theorem touches_measurementDone (s : State) (results : Tbl (BitVec 16 × List Bool)) : Touches [.cores, .shelves, .ctxs, .bring, .power, .imprint, .freeCtr] s (measurementDone s results) := by
  unfold measurementDone
  repeat' first
    | with_reducible assumption
    | with_reducible exact Touches.refl _ _
    | (apply Touches.andThen (qs := [.power, .imprint]); with_reducible exact touches_writeWear _)
    | (apply Touches.andThen (qs := [.cores, .shelves, .ctxs, .bring, .power, .freeCtr]); with_reducible exact touches_replanAll _ _)
    | (apply Touches.andThen (qs := [.power]); with_reducible exact touches_countMeasurement _)
    | extract_lets
    | split
    | decide
    | dsimp +zetaDelta only

theorem touches_startMeasurement (s : State) : Touches [.power] s (startMeasurement s) := by
  unfold startMeasurement
  repeat' first
    | with_reducible assumption
    | with_reducible exact Touches.refl _ _
    | decide
    | (with_reducible refine Touches.mk' _ rfl rfl rfl ?_ ?_ ?_ ?_ ?_ ?_ rfl ?_ ?_ ?_ ?_ ?_ ?_ ?_ ?_ ?_ ?_)
    | exact Or.inr (by decide)
    | exact Or.inl rfl

theorem touches_startCores (s : State) (sh : Nat) : Touches [.bring] s (startCores s sh) := by
  unfold startCores
  repeat' first
    | with_reducible assumption
    | with_reducible exact Touches.refl _ _
    | (apply Touches.andThen (qs := [.bring]); with_reducible exact touches_modSite _ _ _)
    | split
    | decide
    | (with_reducible refine Touches.foldl ?_ ?_; intro _ _)

theorem touches_firmwareSettle (s : State) : Touches [.bring] s (firmwareSettle s) := by
  unfold firmwareSettle
  repeat' first
    | with_reducible assumption
    | with_reducible exact Touches.refl _ _
    | (apply Touches.andThen (qs := [.bring]); with_reducible exact touches_modBring _ _)
    | (apply Touches.andThen (qs := [.bring]); with_reducible exact touches_wakeTested _ _)
    | (apply Touches.andThen (qs := [.bring]); with_reducible exact touches_startCores _ _)
    | split
    | decide
    | (with_reducible refine Touches.foldl ?_ ?_; intro _ _)

theorem touches_firmwareFail (s : State) (i : Nat) : Touches [.cores, .shelves, .ctxs, .bring, .freeCtr] s (firmwareFail s i) := by
  unfold firmwareFail
  repeat' first
    | with_reducible assumption
    | with_reducible exact Touches.refl _ _
    | (apply Touches.andThen (qs := [.bring]); with_reducible exact touches_modBring _ _)
    | (apply Touches.andThen (qs := [.cores, .shelves, .ctxs, .bring, .freeCtr]); with_reducible exact touches_failSite _ _ _)
    | (apply Touches.andThen (qs := [.bring]); with_reducible exact touches_firmwareSettle _)
    | decide

theorem touches_sendNaks (s : State) (i : Nat) (bs : List Nat) : Touches [.bring] s (sendNaks s i bs) := by
  unfold sendNaks
  repeat' first
    | with_reducible assumption
    | with_reducible exact Touches.refl _ _
    | (apply Touches.andThen (qs := [.bring]); with_reducible exact touches_modSite _ _ _)
    | (apply Touches.andThen (qs := [.bring]); with_reducible exact touches_modBring _ _)
    | decide

theorem touches_multicastBlock (s : State) (i b : Nat) (ok : Bool) : Touches [.bring] s (multicastBlock s i b ok) := by
  unfold multicastBlock
  repeat' first
    | with_reducible assumption
    | with_reducible exact Touches.refl _ _
    | (apply Touches.andThen (qs := [.bring]); with_reducible exact touches_modSite _ _ _)
    | (apply Touches.andThen (qs := [.bring]); with_reducible exact touches_modBring _ _)
    | (apply Touches.andThen (qs := [.bring]); with_reducible exact touches_sendNaks _ _ _)
    | extract_lets
    | split
    | decide
    | dsimp +zetaDelta only

theorem touches_unicastBlock (s : State) (i b : Nat) (ok : Bool) : Touches [.cores, .shelves, .ctxs, .bring, .freeCtr] s (unicastBlock s i b ok) := by
  unfold unicastBlock
  repeat' first
    | with_reducible assumption
    | with_reducible exact Touches.refl _ _
    | (apply Touches.andThen (qs := [.bring]); with_reducible exact touches_modSite _ _ _)
    | (apply Touches.andThen (qs := [.cores, .shelves, .ctxs, .bring, .freeCtr]); with_reducible exact touches_firmwareFail _ _)
    | (apply Touches.andThen (qs := [.bring]); with_reducible exact touches_sendNaks _ _ _)
    | extract_lets
    | split
    | decide
    | dsimp +zetaDelta only

theorem touches_fwBlock (s : State) (i b : Nat) (ok unicast : Bool) : Touches [.cores, .shelves, .ctxs, .bring, .freeCtr] s (fwBlock s i b ok unicast) := by
  unfold fwBlock
  repeat' first
    | with_reducible assumption
    | with_reducible exact Touches.refl _ _
    | (apply Touches.andThen (qs := [.bring]); with_reducible exact touches_multicastBlock _ _ _ _)
    | (apply Touches.andThen (qs := [.cores, .shelves, .ctxs, .bring, .freeCtr]); with_reducible exact touches_unicastBlock _ _ _ _)
    | split
    | decide

theorem touches_fwNak (s : State) (i b : Nat) : Touches [.bring] s (fwNak s i b) := by
  unfold fwNak
  repeat' first
    | with_reducible assumption
    | with_reducible exact Touches.refl _ _
    | (apply Touches.andThen (qs := [.bring]); with_reducible exact touches_modSite _ _ _)
    | (apply Touches.andThen (qs := [.bring]); with_reducible exact touches_modBring _ _)
    | extract_lets
    | split
    | decide
    | dsimp +zetaDelta only

theorem touches_fwNakTimeout (s : State) (i : Nat) : Touches [.bring] s (fwNakTimeout s i) := by
  unfold fwNakTimeout
  repeat' first
    | with_reducible assumption
    | with_reducible exact Touches.refl _ _
    | (apply Touches.andThen (qs := [.bring]); with_reducible exact touches_sendNaks _ _ _)
    | split
    | decide

theorem touches_fwVerified (s : State) (i : Nat) (ok : Bool) : Touches [.cores, .shelves, .ctxs, .bring, .freeCtr] s (fwVerified s i ok) := by
  unfold fwVerified
  repeat' first
    | with_reducible assumption
    | with_reducible exact Touches.refl _ _
    | (apply Touches.andThen (qs := [.bring]); with_reducible exact touches_modSite _ _ _)
    | (apply Touches.andThen (qs := [.bring]); with_reducible exact touches_firmwareSettle _)
    | (apply Touches.andThen (qs := [.cores, .shelves, .ctxs, .bring, .freeCtr]); with_reducible exact touches_firmwareFail _ _)
    | split
    | decide

theorem touches_coreCheck (s : State) (i : Nat) : Touches [.cores, .shelves, .ctxs, .bring, .freeCtr] s (coreCheck s i) := by
  unfold coreCheck
  repeat' first
    | with_reducible assumption
    | with_reducible exact Touches.refl _ _
    | (apply Touches.andThen (qs := [.cores, .shelves, .ctxs, .bring, .freeCtr]); with_reducible exact touches_failSite _ _ _)
    | (apply Touches.andThen (qs := [.bring]); with_reducible exact touches_wakeTested _ _)
    | (apply Touches.andThen (qs := [.bring]); with_reducible exact touches_firmwareSettle _)
    | split
    | decide
    | (with_reducible refine Touches.foldl ?_ ?_; intro _ _)

theorem touches_claim (s : State) : Touches [.fab] s (claim s) := by
  unfold claim
  repeat' first
    | with_reducible assumption
    | with_reducible exact Touches.refl _ _
    | (apply Touches.andThen (qs := [.fab]); with_reducible exact touches_modFab _ _)
    | (apply Touches.andThen (qs := [.fab]); with_reducible exact touches_refreshOwn _)
    | (apply Touches.andThen (qs := [.fab]); with_reducible exact touches_claimProvisional _)
    | (apply Touches.andThen (qs := [.fab]); with_reducible exact touches_checkConflict _)
    | extract_lets
    | split
    | decide
    | dsimp +zetaDelta only

theorem touches_phaseYieldEnd (s : State) (cycles : BitVec 48) : Touches [.shelves, .fab, .bring] s (phaseYieldEnd s cycles) := by
  unfold phaseYieldEnd
  repeat' first
    | with_reducible assumption
    | with_reducible exact Touches.refl _ _
    | (apply Touches.andThen (qs := [.shelves]); with_reducible exact touches_modShelf _ _ _)
    | (apply Touches.andThen (qs := [.bring]); with_reducible exact touches_writeWarm _ _)
    | (apply Touches.andThen (qs := [.bring]); with_reducible exact touches_endPhase _ _ _ _)
    | (apply Touches.andThen (qs := [.fab]); with_reducible exact touches_claim _)
    | extract_lets
    | split
    | decide
    | (with_reducible refine Touches.foldl ?_ ?_; intro _ _)
    | dsimp +zetaDelta only

theorem touches_confirmTrial (s : State) : Touches [.sec, .imprint] s (confirmTrial s) := by
  unfold confirmTrial
  repeat' first
    | with_reducible assumption
    | with_reducible exact Touches.refl _ _
    | (apply Touches.andThen (qs := [.sec]); with_reducible refine touches_modSec _ _ ?_)
    | (apply Touches.andThen (qs := [.imprint]); with_reducible exact touches_writeBoot _ _)
    | extract_lets
    | split
    | decide
    | (refine fun (_ : Sec) => ?_; repeat' first
        | exact ⟨rfl, rfl, rfl, rfl, rfl, le_refl _⟩
        | exact ⟨rfl, rfl, rfl, rfl, rfl, le_max_left _ _⟩
        | exact fuses_want _ _ _ _
        | split)
    | dsimp +zetaDelta only

theorem touches_phaseAccessionEnd (s : State) (cycles : BitVec 48) : Touches [.host, .sec, .bring, .imprint] s (phaseAccessionEnd s cycles) := by
  unfold phaseAccessionEnd
  repeat' first
    | with_reducible assumption
    | with_reducible exact Touches.refl _ _
    | (apply Touches.andThen (qs := [.bring]); with_reducible exact touches_writeWarm _ _)
    | (apply Touches.andThen (qs := [.host]); with_reducible exact touches_modHost _ _)
    | (apply Touches.andThen (qs := [.host]); with_reducible exact touches_hostStatus _ _)
    | (apply Touches.andThen (qs := [.bring]); with_reducible exact touches_endPhase _ _ _ _)
    | (apply Touches.andThen (qs := [.sec, .imprint]); with_reducible exact touches_confirmTrial _)
    | extract_lets
    | split
    | decide
    | dsimp +zetaDelta only

theorem touches_limitExceeded (s : State) : Touches [.bring] s (limitExceeded s) := by
  unfold limitExceeded
  repeat' first
    | with_reducible assumption
    | with_reducible exact Touches.refl _ _
    | (apply Touches.andThen (qs := [.bring]); with_reducible exact touches_modBring _ _)
    | split
    | decide

end Sys2Proof.Machine
end

