-- ==== Sys2Proof/Laws/TouchPower.lean ====
section
/-!
SUPPORT. What each operation of Machine/Power.lean touches.
-/

set_option linter.unusedTactic false
set_option linter.unreachableTactic false

namespace Sys2Proof.Machine

theorem touches_warnDies (s : State) : Touches [.bytes, .tiers, .fab, .freeCtr] s (warnDies s) := by
  unfold warnDies
  repeat' first
    | with_reducible assumption
    | with_reducible exact Touches.refl _ _
    | (apply Touches.andThen (qs := [.fab]); with_reducible exact touches_modLink _ _ _)
    | (apply Touches.andThen (qs := [.bytes, .tiers, .freeCtr]); with_reducible exact touches_settleWrites _)
    | extract_lets
    | split
    | decide
    | (with_reducible refine Touches.foldl ?_ ?_; intro _ _)
    | dsimp +zetaDelta only

theorem touches_controlledReset (s : State) (cause : BitVec 4) (supply : Bool) : Touches [.cores, .shelves, .bytes, .granules, .tiers, .ctxs, .media, .host, .fab, .sec, .ledger, .bring, .power, .imprint, .pins, .mgmt, .latches, .freeCtr] s (controlledReset s cause supply) := by
  unfold controlledReset
  repeat' first
    | with_reducible assumption
    | with_reducible exact Touches.refl _ _
    | (apply Touches.andThen (qs := [.fab]); with_reducible exact touches_modLink _ _ _)
    | (apply Touches.andThen (qs := [.fab, .sec]); with_reducible exact touches_leaveLink _ _)
    | (apply Touches.andThen (qs := [.bytes, .tiers, .freeCtr]); with_reducible exact touches_settleWrites _)
    | (apply Touches.andThen (qs := [.cores, .shelves, .bytes, .granules, .tiers, .ctxs, .media, .host, .fab, .sec, .ledger, .bring, .power, .imprint, .pins, .mgmt, .latches, .freeCtr]); with_reducible exact touches_dieReset _ _)
    | extract_lets
    | split
    | decide
    | (with_reducible refine Touches.foldl ?_ ?_; intro _ _)
    | (with_reducible refine Touches.mk' _ rfl rfl rfl ?_ ?_ ?_ ?_ ?_ ?_ rfl ?_ ?_ ?_ ?_ ?_ ?_ ?_ ?_ ?_ ?_)
    | exact Or.inr (by decide)
    | exact Or.inl rfl
    | dsimp +zetaDelta only

theorem touches_governorStep (s : State) (watts : Nat) : Touches [.power] s (governorStep s watts) := by
  unfold governorStep
  repeat' first
    | with_reducible assumption
    | with_reducible exact Touches.refl _ _
    | extract_lets
    | split
    | decide
    | (with_reducible refine Touches.mk' _ rfl rfl rfl ?_ ?_ ?_ ?_ ?_ ?_ rfl ?_ ?_ ?_ ?_ ?_ ?_ ?_ ?_ ?_ ?_)
    | exact Or.inr (by decide)
    | exact Or.inl rfl
    | dsimp +zetaDelta only

theorem touches_thermalStep (s : State) (d : Nat) : Touches [.power] s (thermalStep s d) := by
  unfold thermalStep
  repeat' first
    | with_reducible assumption
    | with_reducible exact Touches.refl _ _
    | extract_lets
    | split
    | decide
    | (with_reducible refine Touches.mk' _ rfl rfl rfl ?_ ?_ ?_ ?_ ?_ ?_ rfl ?_ ?_ ?_ ?_ ?_ ?_ ?_ ?_ ?_ ?_)
    | exact Or.inr (by decide)
    | exact Or.inl rfl
    | dsimp +zetaDelta only

theorem touches_governorEvaluation (s : State) (watts : BitVec 32) (mv : BitVec 32) (temps : Tbl (BitVec 8)) : Touches [.cores, .shelves, .bytes, .granules, .tiers, .ctxs, .media, .host, .fab, .sec, .ledger, .bring, .power, .imprint, .pins, .mgmt, .latches, .freeCtr] s (governorEvaluation s watts mv temps) := by
  unfold governorEvaluation
  repeat' first
    | with_reducible assumption
    | with_reducible exact Touches.refl _ _
    | (apply Touches.andThen (qs := [.cores, .shelves, .bytes, .granules, .tiers, .ctxs, .media, .host, .fab, .sec, .ledger, .bring, .power, .imprint, .pins, .mgmt, .latches, .freeCtr]); with_reducible exact touches_controlledReset _ _ _)
    | (apply Touches.andThen (qs := [.power]); with_reducible exact touches_governorStep _ _)
    | (apply Touches.andThen (qs := [.power]); with_reducible exact touches_thermalStep _ _)
    | extract_lets
    | split
    | decide
    | (with_reducible refine Touches.foldl ?_ ?_; intro _ _)
    | (with_reducible refine Touches.foldlPair ?_ ?_; intro _ _)
    | (with_reducible refine Touches.mk' _ rfl rfl rfl ?_ ?_ ?_ ?_ ?_ ?_ rfl ?_ ?_ ?_ ?_ ?_ ?_ ?_ ?_ ?_ ?_)
    | exact Or.inr (by decide)
    | exact Or.inl rfl
    | dsimp +zetaDelta only

theorem touches_gate (s : State) (ds : List Nat) : Touches [.bring, .power] s (gate s ds) := by
  unfold gate
  repeat' first
    | with_reducible assumption
    | with_reducible exact Touches.refl _ _
    | (apply Touches.andThen (qs := [.bring]); with_reducible exact touches_switchOff _ _)
    | extract_lets
    | decide
    | (with_reducible refine Touches.mk' _ rfl rfl rfl ?_ ?_ ?_ ?_ ?_ ?_ rfl ?_ ?_ ?_ ?_ ?_ ?_ ?_ ?_ ?_ ?_)
    | exact Or.inr (by decide)
    | exact Or.inl rfl
    | dsimp +zetaDelta only

theorem touches_gateShelf (s : State) (sh : Nat) : Touches [.bring, .power] s (gateShelf s sh) := by
  unfold gateShelf
  repeat' first
    | with_reducible assumption
    | with_reducible exact Touches.refl _ _
    | (apply Touches.andThen (qs := [.bring]); with_reducible exact touches_modSite _ _ _)
    | (apply Touches.andThen (qs := [.bring, .power]); with_reducible exact touches_gate _ _)
    | decide
    | (with_reducible refine Touches.foldl ?_ ?_; intro _ _)

theorem touches_domainIdleTimeout (s : State) (u : Nat) : Touches [.bring, .power] s (domainIdleTimeout s u) := by
  unfold domainIdleTimeout
  repeat' first
    | with_reducible assumption
    | with_reducible exact Touches.refl _ _
    | (apply Touches.andThen (qs := [.bring, .power]); with_reducible exact touches_gate _ _)
    | (apply Touches.andThen (qs := [.bring, .power]); with_reducible exact touches_gateShelf _ _)
    | split
    | decide

theorem touches_muRecord (s : State) (energy : BitVec 32) (powerMw voltageMv : BitVec 32) (selfCheckOk : Bool) : Touches [.mu] s (muRecord s energy powerMw voltageMv selfCheckOk) := by
  unfold muRecord
  repeat' first
    | with_reducible assumption
    | with_reducible exact Touches.refl _ _
    | extract_lets
    | split
    | decide
    | (with_reducible refine Touches.mk' _ rfl rfl rfl ?_ ?_ ?_ ?_ ?_ ?_ rfl ?_ ?_ ?_ ?_ ?_ ?_ ?_ ?_ ?_ ?_)
    | exact Or.inr (by decide)
    | exact Or.inl rfl
    | dsimp +zetaDelta only

theorem touches_muInputLoss (s : State) : Touches [.mu] s (muInputLoss s) := by
  unfold muInputLoss
  repeat' first
    | with_reducible assumption
    | with_reducible exact Touches.refl _ _
    | split
    | decide
    | (with_reducible refine Touches.mk' _ rfl rfl rfl ?_ ?_ ?_ ?_ ?_ ?_ rfl ?_ ?_ ?_ ?_ ?_ ?_ ?_ ?_ ?_ ?_)
    | exact Or.inr (by decide)
    | exact Or.inl rfl

theorem touches_muInputReturn (s : State) : Touches [.mu] s (muInputReturn s) := by
  unfold muInputReturn
  repeat' first
    | with_reducible assumption
    | with_reducible exact Touches.refl _ _
    | extract_lets
    | split
    | decide
    | (with_reducible refine Touches.mk' _ rfl rfl rfl ?_ ?_ ?_ ?_ ?_ ?_ rfl ?_ ?_ ?_ ?_ ?_ ?_ ?_ ?_ ?_ ?_)
    | exact Or.inr (by decide)
    | exact Or.inl rfl
    | dsimp +zetaDelta only

theorem touches_muRecordTimeout (s : State) : Touches [.mu] s (muRecordTimeout s) := by
  unfold muRecordTimeout
  repeat' first
    | with_reducible assumption
    | with_reducible exact Touches.refl _ _
    | decide
    | (with_reducible refine Touches.mk' _ rfl rfl rfl ?_ ?_ ?_ ?_ ?_ ?_ rfl ?_ ?_ ?_ ?_ ?_ ?_ ?_ ?_ ?_ ?_)
    | exact Or.inr (by decide)
    | exact Or.inl rfl

theorem touches_muSealOpen (s : State) : Touches [.mu] s (muSealOpen s) := by
  unfold muSealOpen
  repeat' first
    | with_reducible assumption
    | with_reducible exact Touches.refl _ _
    | decide
    | (with_reducible refine Touches.mk' _ rfl rfl rfl ?_ ?_ ?_ ?_ ?_ ?_ rfl ?_ ?_ ?_ ?_ ?_ ?_ ?_ ?_ ?_ ?_)
    | exact Or.inr (by decide)
    | exact Or.inl rfl

theorem touches_muReseal (s : State) : Touches [.mu] s (muReseal s) := by
  unfold muReseal
  repeat' first
    | with_reducible assumption
    | with_reducible exact Touches.refl _ _
    | decide
    | (with_reducible refine Touches.mk' _ rfl rfl rfl ?_ ?_ ?_ ?_ ?_ ?_ rfl ?_ ?_ ?_ ?_ ?_ ?_ ?_ ?_ ?_ ?_)
    | exact Or.inr (by decide)
    | exact Or.inl rfl

theorem touches_muFirmwareLoad (s : State) (ok : Bool) (version : BitVec 32) (digest : BitVec 256) : Touches [.mu] s (muFirmwareLoad s ok version digest) := by
  unfold muFirmwareLoad
  repeat' first
    | with_reducible assumption
    | with_reducible exact Touches.refl _ _
    | split
    | decide
    | (with_reducible refine Touches.mk' _ rfl rfl rfl ?_ ?_ ?_ ?_ ?_ ?_ rfl ?_ ?_ ?_ ?_ ?_ ?_ ?_ ?_ ?_ ?_)
    | exact Or.inr (by decide)
    | exact Or.inl rfl

theorem touches_moduleInsertion (s : State) (mv : BitVec 32) : Touches [.power, .mu, .pins] s (moduleInsertion s mv) := by
  unfold moduleInsertion
  repeat' first
    | with_reducible assumption
    | with_reducible exact Touches.refl _ _
    | (apply Touches.andThen (qs := [.mu]); with_reducible exact touches_muInputReturn _)
    | extract_lets
    | split
    | decide
    | (with_reducible refine Touches.mk' _ rfl rfl rfl ?_ ?_ ?_ ?_ ?_ ?_ rfl ?_ ?_ ?_ ?_ ?_ ?_ ?_ ?_ ?_ ?_)
    | exact Or.inr (by decide)
    | exact Or.inl rfl
    | dsimp +zetaDelta only

theorem touches_inputSettled (s : State) : Touches [.pins] s (inputSettled s) := by
  unfold inputSettled
  repeat' first
    | with_reducible assumption
    | with_reducible exact Touches.refl _ _
    | extract_lets
    | split
    | decide
    | (with_reducible refine Touches.mk' _ rfl rfl rfl ?_ ?_ ?_ ?_ ?_ ?_ rfl ?_ ?_ ?_ ?_ ?_ ?_ ?_ ?_ ?_ ?_)
    | exact Or.inr (by decide)
    | exact Or.inl rfl
    | dsimp +zetaDelta only

theorem touches_inputOutOfRange (s : State) (mv : BitVec 32) : Touches [.cores, .shelves, .bytes, .granules, .tiers, .ctxs, .media, .host, .fab, .sec, .ledger, .bring, .power, .imprint, .pins, .mgmt, .latches, .freeCtr] s (inputOutOfRange s mv) := by
  unfold inputOutOfRange
  repeat' first
    | with_reducible assumption
    | with_reducible exact Touches.refl _ _
    | (apply Touches.andThen (qs := [.cores, .shelves, .bytes, .granules, .tiers, .ctxs, .media, .host, .fab, .sec, .ledger, .bring, .power, .imprint, .pins, .mgmt, .latches, .freeCtr]); with_reducible exact touches_controlledReset _ _ _)
    | extract_lets
    | split
    | decide
    | (with_reducible refine Touches.mk' _ rfl rfl rfl ?_ ?_ ?_ ?_ ?_ ?_ rfl ?_ ?_ ?_ ?_ ?_ ?_ ?_ ?_ ?_ ?_)
    | exact Or.inr (by decide)
    | exact Or.inl rfl
    | dsimp +zetaDelta only

theorem touches_regulatorFault (s : State) : Touches [.pins] s (regulatorFault s) := by
  unfold regulatorFault
  repeat' first
    | with_reducible assumption
    | with_reducible exact Touches.refl _ _
    | decide
    | (with_reducible refine Touches.mk' _ rfl rfl rfl ?_ ?_ ?_ ?_ ?_ ?_ rfl ?_ ?_ ?_ ?_ ?_ ?_ ?_ ?_ ?_ ?_)
    | exact Or.inr (by decide)
    | exact Or.inl rfl

theorem touches_modResetAssert (s : State) : Touches [.bytes, .tiers, .fab, .power, .pins, .freeCtr] s (modResetAssert s) := by
  unfold modResetAssert
  repeat' first
    | with_reducible assumption
    | with_reducible exact Touches.refl _ _
    | (apply Touches.andThen (qs := [.bytes, .tiers, .fab, .freeCtr]); with_reducible exact touches_warnDies _)
    | extract_lets
    | split
    | decide
    | (with_reducible refine Touches.mk' _ rfl rfl rfl ?_ ?_ ?_ ?_ ?_ ?_ rfl ?_ ?_ ?_ ?_ ?_ ?_ ?_ ?_ ?_ ?_)
    | exact Or.inr (by decide)
    | exact Or.inl rfl
    | dsimp +zetaDelta only

theorem touches_releaseDies (s : State) : Touches [.host, .bring, .power, .pins] s (releaseDies s) := by
  unfold releaseDies
  repeat' first
    | with_reducible assumption
    | with_reducible exact Touches.refl _ _
    | (apply Touches.andThen (qs := [.host, .bring, .power, .pins]); with_reducible exact touches_beginBringup _)
    | split
    | decide

theorem touches_resetDeadline (s : State) : Touches [.cores, .shelves, .bytes, .granules, .tiers, .ctxs, .media, .host, .fab, .sec, .ledger, .bring, .power, .imprint, .pins, .mgmt, .latches, .freeCtr] s (resetDeadline s) := by
  unfold resetDeadline
  repeat' first
    | with_reducible assumption
    | with_reducible exact Touches.refl _ _
    | (apply Touches.andThen (qs := [.cores, .shelves, .bytes, .granules, .tiers, .ctxs, .media, .host, .fab, .sec, .ledger, .bring, .power, .imprint, .pins, .mgmt, .latches, .freeCtr]); with_reducible exact touches_dieReset _ _)
    | (apply Touches.andThen (qs := [.host, .bring, .power, .pins]); with_reducible exact touches_releaseDies _)
    | split
    | decide
    | (with_reducible refine Touches.mk' _ rfl rfl rfl ?_ ?_ ?_ ?_ ?_ ?_ rfl ?_ ?_ ?_ ?_ ?_ ?_ ?_ ?_ ?_ ?_)
    | exact Or.inr (by decide)
    | exact Or.inl rfl

theorem touches_modResetRelease (s : State) : Touches [.host, .bring, .power, .pins] s (modResetRelease s) := by
  unfold modResetRelease
  repeat' first
    | with_reducible assumption
    | with_reducible exact Touches.refl _ _
    | (apply Touches.andThen (qs := [.host, .bring, .power, .pins]); with_reducible exact touches_releaseDies _)
    | decide
    | (with_reducible refine Touches.mk' _ rfl rfl rfl ?_ ?_ ?_ ?_ ?_ ?_ rfl ?_ ?_ ?_ ?_ ?_ ?_ ?_ ?_ ?_ ?_)
    | exact Or.inr (by decide)
    | exact Or.inl rfl

theorem touches_tripRelease (s : State) : Touches [.host, .bring, .power, .pins] s (tripRelease s) := by
  unfold tripRelease
  repeat' first
    | with_reducible assumption
    | with_reducible exact Touches.refl _ _
    | (apply Touches.andThen (qs := [.host, .bring, .power, .pins]); with_reducible exact touches_releaseDies _)
    | split
    | decide
    | (with_reducible refine Touches.mk' _ rfl rfl rfl ?_ ?_ ?_ ?_ ?_ ?_ rfl ?_ ?_ ?_ ?_ ?_ ?_ ?_ ?_ ?_ ?_)
    | exact Or.inr (by decide)
    | exact Or.inl rfl

end Sys2Proof.Machine
end

