-- ==== Sys2Proof/Laws/TouchMgmt.lean ====
section
/-!
SUPPORT. What each operation of Machine/Mgmt.lean touches.
-/

set_option linter.unusedTactic false
set_option linter.unreachableTactic false

namespace Sys2Proof.Machine

theorem touches_modMgmt (s : State) (f : Mgmt → Mgmt) : Touches [.mgmt] s (State.modMgmt s f) := by
  unfold State.modMgmt
  repeat' first
    | with_reducible assumption
    | with_reducible exact Touches.refl _ _
    | decide
    | (apply Touches.andThen (qs := [.imprint]); with_reducible exact touches_imprintSet _ _)
    | (with_reducible refine Touches.mk' _ rfl rfl rfl ?_ ?_ ?_ ?_ ?_ ?_ rfl ?_ ?_ ?_ ?_ ?_ ?_ ?_ ?_ ?_ ?_)
    | exact Or.inr (by decide)
    | exact Or.inl rfl

theorem touches_respond (s : State) (opcode tag status : Nat) (payload : Blob) : Touches [.mgmt] s (respond s opcode tag status payload) := by
  unfold respond
  repeat' first
    | with_reducible assumption
    | with_reducible exact Touches.refl _ _
    | (apply Touches.andThen (qs := [.mgmt]); with_reducible exact touches_modMgmt _ _)
    | split
    | decide

theorem touches_request {ps : List Part} (hm : .mgmt ∈ ps) {s : State} {r : Blob} {opcode : Nat} {rom : Bool}
    {lenOk : Nat → Bool} {op : State → Blob → State × Nat × Blob} (h : ∀ u p, Touches ps u (op u p).1) :
    Touches ps s (request s r opcode rom lenOk op) := by
  have hr : ∀ u a b c d, Touches ps u (respond u a b c d) := fun u a b c d =>
    (touches_respond u a b c d).mono (by simpa using hm)
  unfold request
  repeat' first
    | with_reducible exact Touches.refl _ _
    | exact (h _ _).trans (hr _ _ _ _ _)
    | exact hr _ _ _ _ _
    | extract_lets
    | split

theorem touches_statusOnly {ps : List Part} {s : State} {p : State × Nat} (h : Touches ps s p.1) :
    Touches ps s (statusOnly p).1 := h

/-- The imprint alone is written. -/
theorem touches_imprintSet (s : State) (x : Imprint) : Touches [.imprint] s { s with imprint := x } :=
  ⟨⟨rfl, rfl, rfl, rfl, rfl, rfl, le_refl _, rfl, id⟩, by intro p hp; cases p <;> simp_all [Part.same]⟩

theorem touches_managementResponseRead (s : State) : Touches [.mgmt] s (managementResponseRead s) := by
  unfold managementResponseRead
  repeat' first
    | with_reducible assumption
    | with_reducible exact Touches.refl _ _
    | (apply Touches.andThen (qs := [.mgmt]); with_reducible exact touches_modMgmt _ _)
    | split
    | decide

theorem touches_eraseRegion (s : State) (region : Nat) : Touches [.imprint] s (eraseRegion s region) := by
  unfold eraseRegion
  repeat' first
    | with_reducible assumption
    | with_reducible exact Touches.refl _ _
    | (apply Touches.andThen (qs := [.imprint]); with_reducible exact touches_setSlot _ _ _)
    | split
    | decide
    | (apply Touches.andThen (qs := [.imprint]); with_reducible exact touches_imprintSet _ _)
    | (with_reducible refine Touches.mk' _ rfl rfl rfl ?_ ?_ ?_ ?_ ?_ ?_ rfl ?_ ?_ ?_ ?_ ?_ ?_ ?_ ?_ ?_ ?_)
    | exact Or.inr (by decide)
    | exact Or.inl rfl

theorem touches_imprintWriteOp (s : State) (p : Blob) : Touches [.imprint] s (imprintWriteOp s p).1 := by
  unfold imprintWriteOp
  extract_lets region off d old s1
  have h1 : Touches [.imprint] s s1 := by
    unfold s1
    split
    · exact touches_eraseRegion _ _
    · exact Touches.refl _ _
  clear_value old s1
  split
  · exact Touches.refl _ _
  · split
    · exact Touches.refl _ _
    · split
      · exact Touches.refl _ _
      · extract_lets b' s2
        refine Touches.andThen (touches_imprintSet _ _) (by decide) ?_
        unfold s2
        split
        · exact Touches.andThen (touches_setSlot _ _ _) (by decide) h1
        · exact h1

theorem touches_imprintWrite (s : State) (r : Blob) : Touches [.imprint, .mgmt] s (imprintWrite s r) := by
  unfold imprintWrite
  repeat' first
    | with_reducible assumption
    | with_reducible exact Touches.refl _ _
    | with_reducible refine touches_request ?_ fun _ _ => ?_
    | with_reducible refine touches_statusOnly ?_
    | (apply Touches.andThen (qs := [.imprint]); with_reducible exact touches_imprintWriteOp _ _)
    | split
    | decide
    | refine Touches.ofPair (by with_reducible assumption) ?_
    | refine Touches.ofPairSnd (by with_reducible assumption) ?_
    | refine Touches.ofTriple (by with_reducible assumption) ?_

theorem touches_imprintCommitOp (s : State) (p : Blob) (sigOk : Bool) (facts : PkgFacts) : Touches [.sec, .bring, .power, .imprint] s (imprintCommitOp s p sigOk facts).1 := by
  unfold imprintCommitOp
  repeat' first
    | with_reducible assumption
    | with_reducible exact Touches.refl _ _
    | (apply Touches.andThen (qs := [.sec]); with_reducible exact touches_countColophon _ _)
    | (apply Touches.andThen (qs := [.imprint]); with_reducible exact touches_setSlot _ _ _)
    | (apply Touches.andThen (qs := [.bring, .power]); with_reducible exact touches_applyLayer _)
    | extract_lets
    | split
    | decide
    | (apply Touches.andThen (qs := [.imprint]); with_reducible exact touches_imprintSet _ _)
    | (with_reducible refine Touches.mk' _ rfl rfl rfl ?_ ?_ ?_ ?_ ?_ ?_ rfl ?_ ?_ ?_ ?_ ?_ ?_ ?_ ?_ ?_ ?_)
    | exact Or.inr (by decide)
    | exact Or.inl rfl
    | dsimp +zetaDelta only

theorem touches_imprintCommit (s : State) (r : Blob) (sigOk : Bool) (facts : PkgFacts) : Touches [.sec, .bring, .power, .imprint, .mgmt] s (imprintCommit s r sigOk facts) := by
  unfold imprintCommit
  repeat' first
    | with_reducible assumption
    | with_reducible exact Touches.refl _ _
    | with_reducible refine touches_request ?_ fun _ _ => ?_
    | with_reducible refine touches_statusOnly ?_
    | (apply Touches.andThen (qs := [.sec, .bring, .power, .imprint]); with_reducible exact touches_imprintCommitOp _ _ _ _)
    | split
    | decide
    | refine Touches.ofPair (by with_reducible assumption) ?_
    | refine Touches.ofPairSnd (by with_reducible assumption) ?_
    | refine Touches.ofTriple (by with_reducible assumption) ?_

theorem touches_rebuildBootOp (s : State) : Touches [.imprint] s (rebuildBootOp s).1 := by
  unfold rebuildBootOp
  repeat' first
    | with_reducible assumption
    | with_reducible exact Touches.refl _ _
    | extract_lets
    | split
    | decide
    | (apply Touches.andThen (qs := [.imprint]); with_reducible exact touches_imprintSet _ _)
    | (with_reducible refine Touches.mk' _ rfl rfl rfl ?_ ?_ ?_ ?_ ?_ ?_ rfl ?_ ?_ ?_ ?_ ?_ ?_ ?_ ?_ ?_ ?_)
    | exact Or.inr (by decide)
    | exact Or.inl rfl
    | dsimp +zetaDelta only

theorem touches_rebuildBoot (s : State) (r : Blob) : Touches [.imprint, .mgmt] s (rebuildBoot s r) := by
  unfold rebuildBoot
  repeat' first
    | with_reducible assumption
    | with_reducible exact Touches.refl _ _
    | with_reducible refine touches_request ?_ fun _ _ => ?_
    | with_reducible refine touches_statusOnly ?_
    | (apply Touches.andThen (qs := [.imprint]); with_reducible exact touches_rebuildBootOp _)
    | decide
    | refine Touches.ofPair (by with_reducible assumption) ?_
    | refine Touches.ofPairSnd (by with_reducible assumption) ?_
    | refine Touches.ofTriple (by with_reducible assumption) ?_

theorem touches_setdasa (s : State) (static dyn : BitVec 7) : Touches [.mgmt] s (setdasa s static dyn) := by
  unfold setdasa
  repeat' first
    | with_reducible assumption
    | with_reducible exact Touches.refl _ _
    | (apply Touches.andThen (qs := [.mgmt]); with_reducible exact touches_modMgmt _ _)
    | split
    | decide

theorem touches_entdaa (s : State) (dyn : BitVec 7) : Touches [.mgmt] s (entdaa s dyn) := by
  unfold entdaa
  repeat' first
    | with_reducible assumption
    | with_reducible exact Touches.refl _ _
    | (apply Touches.andThen (qs := [.mgmt]); with_reducible exact touches_modMgmt _ _)
    | split
    | decide

theorem touches_rstdaa (s : State) : Touches [.mgmt] s (rstdaa s) := by
  unfold rstdaa
  repeat' first
    | with_reducible assumption
    | with_reducible exact Touches.refl _ _
    | (apply Touches.andThen (qs := [.mgmt]); with_reducible exact touches_modMgmt _ _)
    | split
    | decide

theorem touches_setnewda (s : State) (dyn : BitVec 7) : Touches [.mgmt] s (setnewda s dyn) := by
  unfold setnewda
  repeat' first
    | with_reducible assumption
    | with_reducible exact Touches.refl _ _
    | (apply Touches.andThen (qs := [.mgmt]); with_reducible exact touches_modMgmt _ _)
    | split
    | decide

theorem touches_busAnswer (s : State) (b : Blob) : Touches [.mgmt] s (busAnswer s b) := by
  unfold busAnswer
  repeat' first
    | with_reducible assumption
    | with_reducible exact Touches.refl _ _
    | (apply Touches.andThen (qs := [.mgmt]); with_reducible exact touches_modMgmt _ _)
    | split
    | decide

theorem touches_getpid (s : State) : Touches [.mgmt] s (getpid s) := by
  unfold getpid
  repeat' first
    | with_reducible assumption
    | with_reducible exact Touches.refl _ _
    | (apply Touches.andThen (qs := [.mgmt]); with_reducible exact touches_busAnswer _ _)
    | decide

theorem touches_getbcr (s : State) : Touches [.mgmt] s (getbcr s) := by
  unfold getbcr
  repeat' first
    | with_reducible assumption
    | with_reducible exact Touches.refl _ _
    | (apply Touches.andThen (qs := [.mgmt]); with_reducible exact touches_busAnswer _ _)
    | decide

theorem touches_getdcr (s : State) : Touches [.mgmt] s (getdcr s) := by
  unfold getdcr
  repeat' first
    | with_reducible assumption
    | with_reducible exact Touches.refl _ _
    | (apply Touches.andThen (qs := [.mgmt]); with_reducible exact touches_busAnswer _ _)
    | decide

theorem touches_getstatus (s : State) : Touches [.mgmt, .freeCtr] s (getstatus s) := by
  unfold getstatus
  repeat' first
    | with_reducible assumption
    | with_reducible exact Touches.refl _ _
    | (apply Touches.andThen (qs := [.freeCtr]); with_reducible exact touches_free _ _)
    | (apply Touches.andThen (qs := [.mgmt]); with_reducible exact touches_busAnswer _ _)
    | extract_lets
    | split
    | decide
    | refine Touches.ofPair (by with_reducible assumption) ?_
    | refine Touches.ofPairSnd (by with_reducible assumption) ?_
    | refine Touches.ofTriple (by with_reducible assumption) ?_
    | dsimp +zetaDelta only

theorem touches_enec (s : State) (mask : BitVec 8) : Touches [.mgmt] s (enec s mask) := by
  unfold enec
  repeat' first
    | with_reducible assumption
    | with_reducible exact Touches.refl _ _
    | (apply Touches.andThen (qs := [.mgmt]); with_reducible exact touches_modMgmt _ _)
    | split
    | decide

theorem touches_disec (s : State) (mask : BitVec 8) : Touches [.mgmt] s (disec s mask) := by
  unfold disec
  repeat' first
    | with_reducible assumption
    | with_reducible exact Touches.refl _ _
    | (apply Touches.andThen (qs := [.mgmt]); with_reducible exact touches_modMgmt _ _)
    | split
    | decide

end Sys2Proof.Machine
end

