-- ==== Sys2Proof/Laws/TouchCampaign.lean ====
section
/-!
SUPPORT. What each operation of Machine/Campaign.lean touches.
-/

set_option linter.unusedTactic false
set_option linter.unreachableTactic false

namespace Sys2Proof.Machine

theorem touches_campaignJoin (s : State) (p : Blob) (o : Option Nat) (gs : Option (List Nat)) :
    Touches [.granules, .ctxs, .fab, .sec, .bring, .freeCtr] s (campaignJoin s p o gs) := by
  unfold campaignJoin
  repeat' first
    | with_reducible assumption
    | with_reducible exact Touches.refl _ _
    | (apply Touches.andThen (qs := [.ctxs]); with_reducible exact touches_modCtx _ _ _)
    | (apply Touches.andThen (qs := [.granules]); with_reducible exact touches_modGranule _ _ _)
    | (apply Touches.andThen (qs := [.bring]); with_reducible exact touches_modBring _ _)
    | (apply Touches.andThen (qs := [.sec, .freeCtr]); with_reducible exact touches_freshKey _ _)
    | (apply Touches.andThen (qs := [.fab]); with_reducible exact touches_modFab _ _)
    | extract_lets
    | split
    | decide
    | (with_reducible refine Touches.foldl ?_ ?_; intro _ _)
    | dsimp +zetaDelta only

theorem touches_campaignOpenOp (s : State) (p : Blob) : Touches [.granules, .ctxs, .fab, .sec, .bring, .freeCtr] s (campaignOpenOp s p).1 := by
  unfold campaignOpenOp
  repeat' first
    | with_reducible assumption
    | with_reducible exact Touches.refl _ _
    | (apply Touches.andThen (qs := [.granules, .ctxs, .fab, .sec, .bring, .freeCtr]); with_reducible exact touches_campaignJoin _ _ _ _)
    | split
    | decide
    | refine Touches.ofPair (by with_reducible assumption) ?_
    | refine Touches.ofPairSnd (by with_reducible assumption) ?_
    | refine Touches.ofTriple (by with_reducible assumption) ?_

theorem touches_campaignOpen (s : State) (r : Blob) : Touches [.granules, .ctxs, .fab, .sec, .bring, .mgmt, .freeCtr] s (campaignOpen s r) := by
  unfold campaignOpen
  repeat' first
    | with_reducible assumption
    | with_reducible exact Touches.refl _ _
    | with_reducible refine touches_request ?_ fun _ _ => ?_
    | with_reducible refine touches_statusOnly ?_
    | (apply Touches.andThen (qs := [.granules, .ctxs, .fab, .sec, .bring, .freeCtr]); with_reducible exact touches_campaignOpenOp _ _)
    | decide
    | refine Touches.ofPair (by with_reducible assumption) ?_
    | refine Touches.ofPairSnd (by with_reducible assumption) ?_
    | refine Touches.ofTriple (by with_reducible assumption) ?_

theorem touches_campaignSettle (s : State) : Touches [.bring] s (campaignSettle s) := by
  unfold campaignSettle
  repeat' first
    | with_reducible assumption
    | with_reducible exact Touches.refl _ _
    | (apply Touches.andThen (qs := [.bring]); with_reducible exact touches_modBring _ _)
    | split
    | decide

theorem touches_campaignAgain (s : State) (x : Session) : Touches [.ctxs, .fab, .bring, .freeCtr] s (campaignAgain s x) := by
  unfold campaignAgain
  repeat' first
    | with_reducible assumption
    | with_reducible exact Touches.refl _ _
    | (apply Touches.andThen (qs := [.bring]); with_reducible exact touches_modBring _ _)
    | (apply Touches.andThen (qs := [.fab]); with_reducible exact touches_putSession _ _)
    | (apply Touches.andThen (qs := [.ctxs, .fab, .freeCtr]); with_reducible exact touches_startBorrow _ _ _ _)
    | extract_lets
    | split
    | decide
    | dsimp +zetaDelta only

theorem touches_campaignPackageCheck (s : State) (sigOk backOk : Bool) (facts : PkgFacts) : Touches [.bytes, .tiers, .ctxs, .fab, .sec, .bring, .imprint, .freeCtr] s (campaignPackageCheck s sigOk backOk facts) := by
  unfold campaignPackageCheck
  repeat' first
    | with_reducible assumption
    | with_reducible exact Touches.refl _ _
    | (apply Touches.andThen (qs := [.bring]); with_reducible exact touches_modBring _ _)
    | (apply Touches.andThen (qs := [.bytes, .tiers]); with_reducible exact touches_memWrite _ _ _)
    | (apply Touches.andThen (qs := [.fab]); with_reducible exact touches_putSession _ _)
    | (apply Touches.andThen (qs := [.ctxs, .fab, .freeCtr]); with_reducible exact touches_serveLoans _ _ _ _)
    | (apply Touches.andThen (qs := [.ctxs, .fab, .freeCtr]); with_reducible exact touches_tryDone _ _ _)
    | (apply Touches.andThen (qs := [.sec]); with_reducible exact touches_countColophon _ _)
    | (apply Touches.andThen (qs := [.imprint]); with_reducible exact touches_setSlot _ _ _)
    | (apply Touches.andThen (qs := [.bring]); with_reducible exact touches_campaignSettle _)
    | (apply Touches.andThen (qs := [.ctxs, .fab, .bring, .freeCtr]); with_reducible exact touches_campaignAgain _ _)
    | extract_lets
    | split
    | decide
    | dsimp +zetaDelta only

theorem touches_tearFirmware (s : State) : Touches [.ctxs, .freeCtr] s (tearFirmware s) := by
  unfold tearFirmware
  repeat' first
    | with_reducible assumption
    | with_reducible exact Touches.refl _ _
    | (apply Touches.andThen (qs := [.ctxs]); with_reducible exact touches_modCtx _ _ _)
    | (apply Touches.andThen (qs := [.freeCtr]); with_reducible exact touches_free _ _)
    | split
    | decide
    | refine Touches.ofPair (by with_reducible assumption) ?_
    | refine Touches.ofPairSnd (by with_reducible assumption) ?_
    | refine Touches.ofTriple (by with_reducible assumption) ?_

theorem touches_campaignActivateOp (s : State) (p : Blob) : Touches [.ctxs, .bring, .imprint, .freeCtr] s (campaignActivateOp s p).1 := by
  unfold campaignActivateOp
  repeat' first
    | with_reducible assumption
    | with_reducible exact Touches.refl _ _
    | (apply Touches.andThen (qs := [.bring]); with_reducible exact touches_modBring _ _)
    | (apply Touches.andThen (qs := [.imprint]); with_reducible exact touches_writeBoot _ _)
    | (apply Touches.andThen (qs := [.ctxs, .freeCtr]); with_reducible exact touches_tearFirmware _)
    | extract_lets
    | split
    | decide
    | dsimp +zetaDelta only

theorem touches_campaignActivate (s : State) (r : Blob) : Touches [.ctxs, .bring, .imprint, .mgmt, .freeCtr] s (campaignActivate s r) := by
  unfold campaignActivate
  repeat' first
    | with_reducible assumption
    | with_reducible exact Touches.refl _ _
    | with_reducible refine touches_request ?_ fun _ _ => ?_
    | with_reducible refine touches_statusOnly ?_
    | (apply Touches.andThen (qs := [.ctxs, .bring, .imprint, .freeCtr]); with_reducible exact touches_campaignActivateOp _ _)
    | decide
    | refine Touches.ofPair (by with_reducible assumption) ?_
    | refine Touches.ofPairSnd (by with_reducible assumption) ?_
    | refine Touches.ofTriple (by with_reducible assumption) ?_

theorem touches_campaignAbortOp (s : State) (p : Blob) : Touches [.ctxs, .bring, .freeCtr] s (campaignAbortOp s p).1 := by
  unfold campaignAbortOp
  repeat' first
    | with_reducible assumption
    | with_reducible exact Touches.refl _ _
    | (apply Touches.andThen (qs := [.bring]); with_reducible exact touches_modBring _ _)
    | (apply Touches.andThen (qs := [.ctxs, .freeCtr]); with_reducible exact touches_tearFirmware _)
    | extract_lets
    | split
    | decide
    | dsimp +zetaDelta only

theorem touches_campaignAbort (s : State) (r : Blob) : Touches [.ctxs, .bring, .mgmt, .freeCtr] s (campaignAbort s r) := by
  unfold campaignAbort
  repeat' first
    | with_reducible assumption
    | with_reducible exact Touches.refl _ _
    | with_reducible refine touches_request ?_ fun _ _ => ?_
    | with_reducible refine touches_statusOnly ?_
    | (apply Touches.andThen (qs := [.ctxs, .bring, .freeCtr]); with_reducible exact touches_campaignAbortOp _ _)
    | decide
    | refine Touches.ofPair (by with_reducible assumption) ?_
    | refine Touches.ofPairSnd (by with_reducible assumption) ?_
    | refine Touches.ofTriple (by with_reducible assumption) ?_

end Sys2Proof.Machine
end

