-- ==== Sys2Proof/Laws/TouchSecure.lean ====
section
/-!
SUPPORT. What each operation of Machine/Secure.lean touches.
-/

set_option linter.unusedTactic false
set_option linter.unreachableTactic false

namespace Sys2Proof.Machine

theorem touches_recordResult (s : State) (typ r : Nat) : Touches [.sec] s (recordResult s typ r) := by
  unfold recordResult
  repeat' first
    | with_reducible assumption
    | with_reducible exact Touches.refl _ _
    | (apply Touches.andThen (qs := [.sec]); with_reducible refine touches_modSec _ _ ?_)
    | (apply Touches.andThen (qs := [.sec]); with_reducible exact touches_countColophon _ _)
    | decide
    | (refine fun (_ : Sec) => ?_; repeat' first
        | exact ⟨rfl, rfl, rfl, rfl, rfl, le_refl _⟩
        | exact ⟨rfl, rfl, rfl, rfl, rfl, le_max_left _ _⟩
        | exact fuses_want _ _ _ _
        | split)

theorem touches_ownerRequest {ps : List Part} (hs : .sec ∈ ps) (hm : .mgmt ∈ ps) {s : State} {r : Blob} {typ : Nat}
    {sigOk : Bool} {accept : State → Blob → State × Blob} (h : ∀ u p, Touches ps u (accept u p).1) :
    Touches ps s (ownerRequest s r typ sigOk accept) := by
  unfold ownerRequest
  refine touches_request hm fun u p => ?_
  have hr : ∀ u t c, Touches ps u (recordResult u t c) := fun u t c =>
    (touches_recordResult u t c).mono (by simpa using hs)
  split
  · exact Touches.refl _ _
  · extract_lets code s1
    have h1 : Touches ps u s1 := hr _ _ _
    clear_value s1 code
    by_cases hc : code = 0
    · simp only [hc, if_true]
      exact h1.trans (h _ _)
    · simp only [hc, if_false]
      exact h1

theorem touches_attest (s : State) (r : Blob) (sig : BitVec 512) : Touches [.ctxs, .fab, .sec, .mgmt, .freeCtr] s (attest s r sig) := by
  unfold attest
  repeat' first
    | with_reducible assumption
    | with_reducible exact Touches.refl _ _
    | (apply Touches.andThen (qs := [.sec]); with_reducible refine touches_modSec _ _ ?_)
    | (apply Touches.andThen (qs := [.sec]); with_reducible exact touches_wantKey _ _)
    | (apply Touches.andThen (qs := [.ctxs, .fab, .freeCtr]); with_reducible exact touches_report _ _ _ _ _)
    | with_reducible refine touches_ownerRequest ?_ ?_ fun _ _ => ?_
    | extract_lets
    | decide
    | refine Touches.ofPair (by with_reducible assumption) ?_
    | refine Touches.ofPairSnd (by with_reducible assumption) ?_
    | refine Touches.ofTriple (by with_reducible assumption) ?_
    | (refine fun (_ : Sec) => ?_; repeat' first
        | exact ⟨rfl, rfl, rfl, rfl, rfl, le_refl _⟩
        | exact ⟨rfl, rfl, rfl, rfl, rfl, le_max_left _ _⟩
        | exact fuses_want _ _ _ _
        | split)
    | dsimp +zetaDelta only

theorem touches_enrol (s : State) (r : Blob) (sigOk : Bool) : Touches [.sec, .imprint, .mgmt] s (enrol s r sigOk) := by
  unfold enrol
  repeat' first
    | with_reducible assumption
    | with_reducible exact Touches.refl _ _
    | (apply Touches.andThen (qs := [.imprint]); with_reducible exact touches_writeOwner _ _ _ _)
    | with_reducible refine touches_ownerRequest ?_ ?_ fun _ _ => ?_
    | decide
    | refine Touches.ofPair (by with_reducible assumption) ?_
    | refine Touches.ofPairSnd (by with_reducible assumption) ?_
    | refine Touches.ofTriple (by with_reducible assumption) ?_

theorem touches_recalibrate (s : State) (r : Blob) (sigOk : Bool) : Touches [.sec, .imprint, .mgmt] s (recalibrate s r sigOk) := by
  unfold recalibrate
  repeat' first
    | with_reducible assumption
    | with_reducible exact Touches.refl _ _
    | (apply Touches.andThen (qs := [.imprint]); with_reducible exact touches_writeOwner _ _ _ _)
    | with_reducible refine touches_ownerRequest ?_ ?_ fun _ _ => ?_
    | extract_lets
    | decide
    | refine Touches.ofPair (by with_reducible assumption) ?_
    | refine Touches.ofPairSnd (by with_reducible assumption) ?_
    | refine Touches.ofTriple (by with_reducible assumption) ?_
    | (apply Touches.andThen (qs := [.imprint]); with_reducible exact touches_imprintSet _ _)
    | (with_reducible refine Touches.mk' _ rfl rfl rfl ?_ ?_ ?_ ?_ ?_ ?_ rfl ?_ ?_ ?_ ?_ ?_ ?_ ?_ ?_ ?_ ?_)
    | exact Or.inr (by decide)
    | exact Or.inl rfl
    | dsimp +zetaDelta only

theorem touches_emptyLedger (s : State) : Touches [.bytes, .granules, .tiers, .ctxs, .ledger] s (emptyLedger s) := by
  unfold emptyLedger
  repeat' first
    | with_reducible assumption
    | with_reducible exact Touches.refl _ _
    | (apply Touches.andThen (qs := [.granules]); with_reducible exact touches_releaseGranule _ _)
    | (apply Touches.andThen (qs := [.ctxs]); with_reducible exact touches_modLed _ _ _)
    | (apply Touches.andThen (qs := [.bytes, .tiers, .ledger]); with_reducible exact touches_directoryWrite _)
    | (apply Touches.andThen (qs := [.bytes, .granules, .tiers, .ledger]); with_reducible exact touches_releaseLedger _ _)
    | extract_lets
    | decide
    | (with_reducible refine Touches.foldl ?_ ?_; intro _ _)
    | (apply Touches.andThen (qs := [.imprint]); with_reducible exact touches_imprintSet _ _)
    | (with_reducible refine Touches.mk' _ rfl rfl rfl ?_ ?_ ?_ ?_ ?_ ?_ rfl ?_ ?_ ?_ ?_ ?_ ?_ ?_ ?_ ?_ ?_)
    | exact Or.inr (by decide)
    | exact Or.inl rfl
    | dsimp +zetaDelta only

theorem touches_releaseNow (s : State) (next : BitVec 256) : Touches [.bytes, .granules, .tiers, .ctxs, .host, .sec, .ledger, .bring, .power, .imprint] s (releaseNow s next) := by
  unfold releaseNow
  repeat' first
    | with_reducible assumption
    | with_reducible exact Touches.refl _ _
    | (apply Touches.andThen (qs := [.sec]); with_reducible refine touches_modSec _ _ ?_)
    | (apply Touches.andThen (qs := [.sec]); with_reducible exact touches_destroyKey _ _)
    | (apply Touches.andThen (qs := [.host]); with_reducible exact touches_modHost _ _)
    | (apply Touches.andThen (qs := [.host, .sec]); with_reducible exact touches_weedEntry _ _)
    | (apply Touches.andThen (qs := [.imprint]); with_reducible exact touches_writeOwner _ _ _ _)
    | (apply Touches.andThen (qs := [.bring, .power]); with_reducible exact touches_applyLayer _)
    | (apply Touches.andThen (qs := [.bytes, .granules, .tiers, .ctxs, .ledger]); with_reducible exact touches_emptyLedger _)
    | extract_lets
    | decide
    | (with_reducible refine Touches.foldl ?_ ?_; intro _ _)
    | (apply Touches.andThen (qs := [.imprint]); with_reducible exact touches_imprintSet _ _)
    | (with_reducible refine Touches.mk' _ rfl rfl rfl ?_ ?_ ?_ ?_ ?_ ?_ rfl ?_ ?_ ?_ ?_ ?_ ?_ ?_ ?_ ?_ ?_)
    | exact Or.inr (by decide)
    | exact Or.inl rfl
    | (refine fun (_ : Sec) => ?_; repeat' first
        | exact ⟨rfl, rfl, rfl, rfl, rfl, le_refl _⟩
        | exact ⟨rfl, rfl, rfl, rfl, rfl, le_max_left _ _⟩
        | exact fuses_want _ _ _ _
        | split)
    | dsimp +zetaDelta only

theorem touches_settleRelease (s : State) : Touches [.bytes, .granules, .tiers, .ctxs, .host, .sec, .ledger, .bring, .power, .imprint, .mgmt] s (settleRelease s) := by
  unfold settleRelease
  repeat' first
    | with_reducible assumption
    | with_reducible exact Touches.refl _ _
    | (apply Touches.andThen (qs := [.mgmt]); with_reducible exact touches_respond _ _ _ _ _)
    | (apply Touches.andThen (qs := [.bytes, .granules, .tiers, .ctxs, .host, .sec, .ledger, .bring, .power, .imprint]); with_reducible exact touches_releaseNow _ _)
    | extract_lets
    | split
    | decide
    | dsimp +zetaDelta only

theorem touches_release (s : State) (r : Blob) (sigOk : Bool) : Touches [.bytes, .granules, .tiers, .ctxs, .host, .sec, .ledger, .bring, .power, .imprint, .mgmt] s (release s r sigOk) := by
  unfold release
  repeat' first
    | with_reducible assumption
    | with_reducible exact Touches.refl _ _
    | (apply Touches.andThen (qs := [.sec]); with_reducible refine touches_modSec _ _ ?_)
    | (apply Touches.andThen (qs := [.mgmt]); with_reducible exact touches_modMgmt _ _)
    | with_reducible refine touches_ownerRequest ?_ ?_ fun _ _ => ?_
    | (apply Touches.andThen (qs := [.bytes, .granules, .tiers, .ctxs, .host, .sec, .ledger, .bring, .power, .imprint, .mgmt]); with_reducible exact touches_settleRelease _)
    | extract_lets
    | split
    | decide
    | refine Touches.ofPair (by with_reducible assumption) ?_
    | refine Touches.ofPairSnd (by with_reducible assumption) ?_
    | refine Touches.ofTriple (by with_reducible assumption) ?_
    | (refine fun (_ : Sec) => ?_; repeat' first
        | exact ⟨rfl, rfl, rfl, rfl, rfl, le_refl _⟩
        | exact ⟨rfl, rfl, rfl, rfl, rfl, le_max_left _ _⟩
        | exact fuses_want _ _ _ _
        | split)
    | dsimp +zetaDelta only

end Sys2Proof.Machine
end

