-- ==== Sys2Proof/Laws/TouchRegisters.lean ====
section
/-!
SUPPORT. What each operation of Machine/Registers.lean touches.
-/

set_option linter.unusedTactic false
set_option linter.unreachableTactic false

namespace Sys2Proof.Machine

theorem touches_latchHigh (s : State) (req o : Nat) : Touches [.latches] s (latchHigh s req o) := by
  unfold latchHigh
  repeat' first
    | with_reducible assumption
    | with_reducible exact Touches.refl _ _
    | split
    | decide
    | (with_reducible refine Touches.mk' _ rfl rfl rfl ?_ ?_ ?_ ?_ ?_ ?_ rfl ?_ ?_ ?_ ?_ ?_ ?_ ?_ ?_ ?_ ?_)
    | exact Or.inr (by decide)
    | exact Or.inl rfl

theorem touches_counterLowHalfRead (s : State) (req o : Nat) : Touches [.latches] s (counterLowHalfRead s req o) := by
  unfold counterLowHalfRead
  repeat' first
    | with_reducible assumption
    | with_reducible exact Touches.refl _ _
    | (apply Touches.andThen (qs := [.latches]); with_reducible exact touches_latchHigh _ _ _)
    | split
    | decide

theorem touches_controlRead32 (s : State) (req o : Nat) : Touches [.latches] s (controlRead32 s req o).2 := by
  unfold controlRead32
  repeat' first
    | with_reducible assumption
    | with_reducible exact Touches.refl _ _
    | (apply Touches.andThen (qs := [.latches]); with_reducible exact touches_latchHigh _ _ _)
    | split
    | decide
    | (with_reducible refine Touches.mk' _ rfl rfl rfl ?_ ?_ ?_ ?_ ?_ ?_ rfl ?_ ?_ ?_ ?_ ?_ ?_ ?_ ?_ ?_ ?_)
    | exact Or.inr (by decide)
    | exact Or.inl rfl

theorem touches_identify (s : State) (r : Blob) : Touches [.mgmt] s (identify s r) := by
  unfold identify
  repeat' first
    | with_reducible assumption
    | with_reducible exact Touches.refl _ _
    | with_reducible refine touches_request ?_ fun _ _ => ?_
    | decide
    | refine Touches.ofPair (by with_reducible assumption) ?_
    | refine Touches.ofPairSnd (by with_reducible assumption) ?_
    | refine Touches.ofTriple (by with_reducible assumption) ?_

theorem touches_readControlOp (s : State) (p : Blob) : Touches [.latches] s (readControlOp s p).1 := by
  unfold readControlOp
  repeat' first
    | with_reducible assumption
    | with_reducible exact Touches.refl _ _
    | (apply Touches.andThen (qs := [.latches]); with_reducible exact touches_controlRead32 _ _ _)
    | extract_lets
    | split
    | decide
    | refine Touches.ofPair (by with_reducible assumption) ?_
    | refine Touches.ofPairSnd (by with_reducible assumption) ?_
    | refine Touches.ofTriple (by with_reducible assumption) ?_
    | dsimp +zetaDelta only

theorem touches_readControl (s : State) (r : Blob) : Touches [.mgmt, .latches] s (readControl s r) := by
  unfold readControl
  repeat' first
    | with_reducible assumption
    | with_reducible exact Touches.refl _ _
    | with_reducible refine touches_request ?_ fun _ _ => ?_
    | (apply Touches.andThen (qs := [.latches]); with_reducible exact touches_readControlOp _ _)
    | decide
    | refine Touches.ofPair (by with_reducible assumption) ?_
    | refine Touches.ofPairSnd (by with_reducible assumption) ?_
    | refine Touches.ofTriple (by with_reducible assumption) ?_

end Sys2Proof.Machine
end

