-- ==== Sys2Proof/Laws/TouchFlow.lean ====
section
/-!
SUPPORT. What each operation of Machine/Flow.lean touches.
-/

set_option linter.unusedTactic false
set_option linter.unreachableTactic false

namespace Sys2Proof.Machine

theorem touches_tapLocal (s : State) (c i k : Nat) (r : StreamRec) (w : SWord) : Touches [.bytes, .tiers, .ctxs] s (tapLocal s c i k r w) := by
  unfold tapLocal
  repeat' first
    | with_reducible assumption
    | with_reducible exact Touches.refl _ _
    | (apply Touches.andThen (qs := [.bytes, .tiers, .ctxs]); with_reducible exact touches_tapWord _ _ _ _)
    | split
    | decide

theorem touches_streamWord (s : State) (c i k : Nat) (ecc : Ecc) : Touches [.cores, .shelves, .bytes, .tiers, .ctxs, .fab, .bring, .freeCtr] s (streamWord s c i k ecc) := by
  unfold streamWord
  repeat' first
    | with_reducible assumption
    | with_reducible exact Touches.refl _ _
    | (apply Touches.andThen (qs := [.cores, .shelves, .ctxs, .bring, .freeCtr]); with_reducible exact touches_bufferError _ _ _ _ _)
    | (apply Touches.andThen (qs := [.cores, .ctxs]); with_reducible exact touches_takeWord _ _ _ _)
    | (apply Touches.andThen (qs := [.cores, .ctxs]); with_reducible exact touches_popWord _ _ _ _)
    | (apply Touches.andThen (qs := [.ctxs]); with_reducible exact touches_treeTake _ _ _ _ _)
    | (apply Touches.andThen (qs := [.cores, .ctxs, .fab, .freeCtr]); with_reducible exact touches_sendStream _ _ _ _ _)
    | (apply Touches.andThen (qs := [.bytes, .tiers, .ctxs]); with_reducible exact touches_tapLocal _ _ _ _ _ _)
    | extract_lets
    | split
    | decide
    | dsimp +zetaDelta only

theorem touches_measureAt (before after : State) : Touches [.power] after (measureAt before after) := by
  unfold measureAt
  repeat' first
    | with_reducible assumption
    | with_reducible exact Touches.refl _ _
    | (apply Touches.andThen (qs := [.power]); with_reducible exact touches_startMeasurement _)
    | split
    | decide

theorem touches_settle (before after : State) : Touches [.ctxs, .host, .fab, .power, .freeCtr] after (settle before after) := by
  unfold settle
  repeat' first
    | with_reducible assumption
    | with_reducible exact Touches.refl _ _
    | (apply Touches.andThen (qs := [.ctxs, .fab, .freeCtr]); with_reducible exact touches_flushCredits _ _)
    | (apply Touches.andThen (qs := [.ctxs, .host, .fab, .freeCtr]); with_reducible exact touches_settleLoads _)
    | (apply Touches.andThen (qs := [.host, .freeCtr]); with_reducible exact touches_settleSlips _)
    | (apply Touches.andThen (qs := [.power]); with_reducible exact touches_measureAt _ _)
    | decide

theorem touches_intakeStep {ps : List Part} (hp : ∀ p ∈ [.ctxs, .fab, .freeCtr], p ∈ ps) {s : State} {f : State → State}
    (h : Touches ps s (f s)) : Touches ps s (intakeStep s f) :=
  h.trans ((touches_flushCredits _ _).mono hp)

theorem touches_fabricStep {ps : List Part} (hp : ∀ p ∈ [.cores, .shelves, .ctxs, .media, .host, .fab, .bring, .freeCtr], p ∈ ps) {s : State} {f : State → State}
    (h : Touches ps s (f s)) : Touches ps s (fabricStep s f) :=
  h.trans (((touches_afterRecords _ _).mono (by decide)).trans (touches_hostStatus _ _ |>.mono (by decide)) |>.mono hp)

end Sys2Proof.Machine
end

