-- ==== Sys2Proof/Laws/TouchExec.lean ====
section
/-!
SUPPORT. The next state of a command from its outcome.
-/

namespace Sys2Proof.Machine

theorem next_of_withUnit {ok : Bool} {r t : State} (h : withUnit ok r = .next t) : r = t := by
  unfold withUnit at h
  split at h
  · exact Host.Outcome.next.inj h
  · cases h

theorem next_inj {r t : State} (h : (Host.Outcome.next r : Out) = .next t) : r = t := Host.Outcome.next.inj h

theorem withUnit_of {ok : Bool} {r : State} (h : ok = true) : withUnit ok r = .next r := by simp [withUnit, h]

end Sys2Proof.Machine
end

