-- ==== Sys2Proof/Laws/TouchBringCmd.lean ====
section
/-!
SUPPORT. What each command of Machine/CmdBring.lean touches.
-/

set_option linter.unusedTactic false
set_option linter.unreachableTactic false

namespace Sys2Proof.Machine

theorem touches_execBringupStart (s : State) (t : State) (h : execBringupStart s = .next t) :
    Touches [.host, .bring, .power, .pins] s t := by
  unfold execBringupStart at h
  obtain rfl := next_inj h
  repeat' first
    | with_reducible assumption
    | with_reducible exact Touches.refl _ _
    | (apply Touches.andThen (qs := [.host, .bring, .power, .pins]); with_reducible exact touches_bringupStart _)
    | decide

theorem touches_execPhaseInputEnd (cycles : BitVec 48) (s : State) (t : State) (h : execPhaseInputEnd cycles s = .next t) :
    Touches [.bring] s t := by
  unfold execPhaseInputEnd at h
  obtain rfl := next_inj h
  repeat' first
    | with_reducible assumption
    | with_reducible exact Touches.refl _ _
    | (apply Touches.andThen (qs := [.bring]); with_reducible exact touches_phaseInputEnd _ _)
    | decide

theorem touches_execPhaseImprintEnd (cycles : BitVec 48) (s : State) (t : State) (h : execPhaseImprintEnd cycles s = .next t) :
    Touches [.tiers, .host, .fab, .sec, .bring, .power, .imprint] s t := by
  unfold execPhaseImprintEnd at h
  obtain rfl := next_inj h
  repeat' first
    | with_reducible assumption
    | with_reducible exact Touches.refl _ _
    | (apply Touches.andThen (qs := [.tiers, .host, .fab, .sec, .bring, .power, .imprint]); with_reducible exact touches_phaseImprintEnd _ _)
    | decide

theorem touches_execPhaseMemoryEnd (cycles : BitVec 48) (trained : BitVec 4) (retained : BitVec 4) (warmOk : Bool) (hbmReady : BitVec 8) (s : State) (t : State) (h : execPhaseMemoryEnd cycles trained retained warmOk hbmReady s = .next t) :
    Touches [.bytes, .granules, .tiers, .ctxs, .host, .ledger, .bring, .power] s t := by
  unfold execPhaseMemoryEnd at h
  obtain rfl := next_inj h
  repeat' first
    | with_reducible assumption
    | with_reducible exact Touches.refl _ _
    | (apply Touches.andThen (qs := [.bytes, .granules, .tiers, .ctxs, .host, .ledger, .bring, .power]); with_reducible exact touches_phaseMemoryEnd _ _ _ _ _ _)
    | decide

theorem touches_execPhaseWavesEnd (cycles : BitVec 48) (s : State) (t : State) (h : execPhaseWavesEnd cycles s = .next t) :
    Touches [.bring] s t := by
  unfold execPhaseWavesEnd at h
  obtain rfl := next_inj h
  repeat' first
    | with_reducible assumption
    | with_reducible exact Touches.refl _ _
    | (apply Touches.andThen (qs := [.bring]); with_reducible exact touches_phaseWavesEnd _ _)
    | decide

theorem touches_execPhaseSelfTestEnd (cycles : BitVec 48) (clocks : Tbl Nat) (s : State) (t : State) (h : execPhaseSelfTestEnd cycles clocks s = .next t) :
    Touches [.bring, .imprint, .freeCtr] s t := by
  unfold execPhaseSelfTestEnd at h
  obtain rfl := next_inj h
  repeat' first
    | with_reducible assumption
    | with_reducible exact Touches.refl _ _
    | (apply Touches.andThen (qs := [.bring, .imprint, .freeCtr]); with_reducible exact touches_phaseSelfTestEnd _ _ _)
    | decide

theorem touches_execPhaseAgeingEnd (cycles : BitVec 48) (results : Tbl (BitVec 16 × List Bool)) (s : State) (t : State) (h : execPhaseAgeingEnd cycles results s = .next t) :
    Touches [.cores, .shelves, .ctxs, .bring, .power, .imprint, .freeCtr] s t := by
  unfold execPhaseAgeingEnd at h
  obtain rfl := next_inj h
  repeat' first
    | with_reducible assumption
    | with_reducible exact Touches.refl _ _
    | (apply Touches.andThen (qs := [.cores, .shelves, .ctxs, .bring, .power, .imprint, .freeCtr]); with_reducible exact touches_phaseAgeingEnd _ _ _)
    | decide

theorem touches_execPhaseYieldEnd (cycles : BitVec 48) (s : State) (t : State) (h : execPhaseYieldEnd cycles s = .next t) :
    Touches [.shelves, .fab, .bring] s t := by
  unfold execPhaseYieldEnd at h
  obtain rfl := next_inj h
  repeat' first
    | with_reducible assumption
    | with_reducible exact Touches.refl _ _
    | (apply Touches.andThen (qs := [.shelves, .fab, .bring]); with_reducible exact touches_phaseYieldEnd _ _)
    | decide

theorem touches_execPhaseAccessionEnd (cycles : BitVec 48) (s : State) (t : State) (h : execPhaseAccessionEnd cycles s = .next t) :
    Touches [.host, .sec, .bring, .imprint] s t := by
  unfold execPhaseAccessionEnd at h
  obtain rfl := next_inj h
  repeat' first
    | with_reducible assumption
    | with_reducible exact Touches.refl _ _
    | (apply Touches.andThen (qs := [.host, .sec, .bring, .imprint]); with_reducible exact touches_phaseAccessionEnd _ _)
    | decide

theorem touches_execWaveSettled (s : State) (t : State) (h : execWaveSettled s = .next t) :
    Touches [.bring, .power] s t := by
  unfold execWaveSettled at h
  obtain rfl := next_inj h
  repeat' first
    | with_reducible assumption
    | with_reducible exact Touches.refl _ _
    | (apply Touches.andThen (qs := [.bring, .power]); with_reducible exact touches_waveSettled _)
    | decide

theorem touches_execWaveTimeout (s : State) (t : State) (h : execWaveTimeout s = .next t) :
    Touches [.cores, .shelves, .ctxs, .media, .host, .fab, .sec, .bring, .power, .freeCtr] s t := by
  unfold execWaveTimeout at h
  obtain rfl := next_inj h
  repeat' first
    | with_reducible assumption
    | with_reducible exact Touches.refl _ _
    | (apply Touches.andThen (qs := [.cores, .shelves, .ctxs, .host, .fab, .sec, .bring, .power, .freeCtr]); with_reducible exact touches_waveTimeout _)
    | (apply Touches.andThen (qs := [.cores, .shelves, .ctxs, .media, .host, .fab, .bring, .freeCtr]); with_reducible exact touches_cancelLoads _)
    | (apply Touches.andThen (qs := [.bring]); with_reducible exact touches_firmwareSettle _)
    | decide

theorem touches_execLimitExceeded (s : State) (t : State) (h : execLimitExceeded s = .next t) :
    Touches [.bring] s t := by
  unfold execLimitExceeded at h
  obtain rfl := next_inj h
  repeat' first
    | with_reducible assumption
    | with_reducible exact Touches.refl _ _
    | (apply Touches.andThen (qs := [.bring]); with_reducible exact touches_limitExceeded _)
    | decide

theorem touches_execSelfTestResult (unit' : Nat) (cause : BitVec 4) (direct : Bool) (s : State) (t : State) (h : execSelfTestResult unit' cause direct s = .next t) :
    Touches [.cores, .shelves, .ctxs, .bring, .freeCtr] s t := by
  unfold execSelfTestResult at h
  obtain rfl := next_of_withUnit h
  repeat' first
    | with_reducible assumption
    | with_reducible exact Touches.refl _ _
    | (apply Touches.andThen (qs := [.cores, .shelves, .ctxs, .bring, .freeCtr]); with_reducible exact touches_selfTestResult _ _ _ _)
    | decide

theorem touches_execFwBlock (site : Nat) (block : Nat) (ok : Bool) (unicast : Bool) (s : State) (t : State) (h : execFwBlock site block ok unicast s = .next t) :
    Touches [.cores, .shelves, .ctxs, .media, .host, .fab, .bring, .freeCtr] s t := by
  unfold execFwBlock at h
  obtain rfl := next_of_withUnit h
  repeat' first
    | with_reducible assumption
    | with_reducible exact Touches.refl _ _
    | (apply Touches.andThen (qs := [.cores, .shelves, .ctxs, .media, .host, .fab, .bring, .freeCtr]); with_reducible exact touches_cancelLoads _)
    | (apply Touches.andThen (qs := [.cores, .shelves, .ctxs, .bring, .freeCtr]); with_reducible exact touches_fwBlock _ _ _ _ _)
    | decide

theorem touches_execFwNak (site : Nat) (block : Nat) (s : State) (t : State) (h : execFwNak site block s = .next t) :
    Touches [.bring] s t := by
  unfold execFwNak at h
  obtain rfl := next_of_withUnit h
  repeat' first
    | with_reducible assumption
    | with_reducible exact Touches.refl _ _
    | (apply Touches.andThen (qs := [.bring]); with_reducible exact touches_fwNak _ _ _)
    | decide

theorem touches_execFwNakTimeout (site : Nat) (s : State) (t : State) (h : execFwNakTimeout site s = .next t) :
    Touches [.bring] s t := by
  unfold execFwNakTimeout at h
  obtain rfl := next_of_withUnit h
  repeat' first
    | with_reducible assumption
    | with_reducible exact Touches.refl _ _
    | (apply Touches.andThen (qs := [.bring]); with_reducible exact touches_fwNakTimeout _ _)
    | decide

theorem touches_execFwVerified (site : Nat) (ok : Bool) (s : State) (t : State) (h : execFwVerified site ok s = .next t) :
    Touches [.cores, .shelves, .ctxs, .media, .host, .fab, .bring, .freeCtr] s t := by
  unfold execFwVerified at h
  obtain rfl := next_of_withUnit h
  repeat' first
    | with_reducible assumption
    | with_reducible exact Touches.refl _ _
    | (apply Touches.andThen (qs := [.cores, .shelves, .ctxs, .media, .host, .fab, .bring, .freeCtr]); with_reducible exact touches_cancelLoads _)
    | (apply Touches.andThen (qs := [.cores, .shelves, .ctxs, .bring, .freeCtr]); with_reducible exact touches_fwVerified _ _ _)
    | decide

theorem touches_execCoreCheck (site : Nat) (s : State) (t : State) (h : execCoreCheck site s = .next t) :
    Touches [.cores, .shelves, .ctxs, .media, .host, .fab, .bring, .freeCtr] s t := by
  unfold execCoreCheck at h
  obtain rfl := next_of_withUnit h
  repeat' first
    | with_reducible assumption
    | with_reducible exact Touches.refl _ _
    | (apply Touches.andThen (qs := [.cores, .shelves, .ctxs, .media, .host, .fab, .bring, .freeCtr]); with_reducible exact touches_cancelLoads _)
    | (apply Touches.andThen (qs := [.cores, .shelves, .ctxs, .bring, .freeCtr]); with_reducible exact touches_coreCheck _ _)
    | decide

theorem touches_execSpareTestDone (shelf : Nat) (ok : Bool) (s : State) (t : State) (h : execSpareTestDone shelf ok s = .next t) :
    Touches [.shelves, .bring] s t := by
  unfold execSpareTestDone at h
  obtain rfl := next_of_withUnit h
  repeat' first
    | with_reducible assumption
    | with_reducible exact Touches.refl _ _
    | (apply Touches.andThen (qs := [.shelves, .bring]); with_reducible exact touches_spareTestDone _ _ _)
    | decide

theorem touches_execCampaignOpen (request : Blob) (s : State) (t : State) (h : execCampaignOpen request s = .next t) :
    Touches [.granules, .ctxs, .fab, .sec, .bring, .mgmt, .freeCtr] s t := by
  unfold execCampaignOpen at h
  obtain rfl := next_inj h
  repeat' first
    | with_reducible assumption
    | with_reducible exact Touches.refl _ _
    | with_reducible refine touches_request ?_ fun _ _ => ?_
    | (apply Touches.andThen (qs := [.granules, .ctxs, .fab, .sec, .bring, .mgmt, .freeCtr]); with_reducible exact touches_campaignOpen _ _)
    | decide

theorem touches_execCampaignPackageCheck (sigOk : Bool) (backOk : Bool) (facts : PkgFacts) (s : State) (t : State) (h : execCampaignPackageCheck sigOk backOk facts s = .next t) :
    Touches [.bytes, .tiers, .ctxs, .fab, .sec, .bring, .imprint, .freeCtr] s t := by
  unfold execCampaignPackageCheck at h
  obtain rfl := next_inj h
  repeat' first
    | with_reducible assumption
    | with_reducible exact Touches.refl _ _
    | (apply Touches.andThen (qs := [.bytes, .tiers, .ctxs, .fab, .sec, .bring, .imprint, .freeCtr]); with_reducible exact touches_campaignPackageCheck _ _ _ _)
    | decide

theorem touches_execCampaignActivate (request : Blob) (s : State) (t : State) (h : execCampaignActivate request s = .next t) :
    Touches [.ctxs, .bring, .imprint, .mgmt, .freeCtr] s t := by
  unfold execCampaignActivate at h
  obtain rfl := next_inj h
  repeat' first
    | with_reducible assumption
    | with_reducible exact Touches.refl _ _
    | with_reducible refine touches_request ?_ fun _ _ => ?_
    | (apply Touches.andThen (qs := [.ctxs, .bring, .imprint, .mgmt, .freeCtr]); with_reducible exact touches_campaignActivate _ _)
    | decide

theorem touches_execCampaignAbort (request : Blob) (s : State) (t : State) (h : execCampaignAbort request s = .next t) :
    Touches [.ctxs, .bring, .mgmt, .freeCtr] s t := by
  unfold execCampaignAbort at h
  obtain rfl := next_inj h
  repeat' first
    | with_reducible assumption
    | with_reducible exact Touches.refl _ _
    | with_reducible refine touches_request ?_ fun _ _ => ?_
    | (apply Touches.andThen (qs := [.ctxs, .bring, .mgmt, .freeCtr]); with_reducible exact touches_campaignAbort _ _)
    | decide

end Sys2Proof.Machine
end

