-- ==== Sys2Proof/Laws/TouchCoreCmd.lean ====
section
/-!
SUPPORT. What each command of Machine/CmdCore.lean touches.
-/

set_option linter.unusedTactic false
set_option linter.unreachableTactic false

namespace Sys2Proof.Machine

theorem touches_execRowIssue (core : Nat) (ecc : Ecc) (s : State) (t : State) (h : execRowIssue core ecc s = .next t) :
    Touches [.cores, .shelves, .ctxs, .bring, .freeCtr] s t := by
  unfold execRowIssue at h
  obtain rfl := next_of_withUnit h
  repeat' first
    | with_reducible assumption
    | with_reducible exact Touches.refl _ _
    | (apply Touches.andThen (qs := [.cores, .shelves, .ctxs, .bring, .freeCtr]); with_reducible exact touches_issueRow _ _ _)
    | decide

theorem touches_execRowEntry (core : Nat) (s : State) (t : State) (h : execRowEntry core s = .next t) :
    Touches [.cores, .ctxs] s t := by
  unfold execRowEntry at h
  obtain rfl := next_of_withUnit h
  repeat' first
    | with_reducible assumption
    | with_reducible exact Touches.refl _ _
    | (apply Touches.andThen (qs := [.cores, .ctxs]); with_reducible exact touches_rowEntry _ _)
    | decide

theorem touches_execDrainUnit (core : Nat) (s : State) (t : State) (h : execDrainUnit core s = .next t) :
    Touches [.cores] s t := by
  unfold execDrainUnit at h
  obtain rfl := next_of_withUnit h
  repeat' first
    | with_reducible assumption
    | with_reducible exact Touches.refl _ _
    | (apply Touches.andThen (qs := [.cores]); with_reducible exact touches_drainUnit _ _)
    | decide

theorem touches_execWeightLoadStart (core : Nat) (array : Nat) (bank : Nat) (ecc : Ecc) (s : State) (t : State) (h : execWeightLoadStart core array bank ecc s = .next t) :
    Touches [.cores, .shelves, .ctxs, .bring, .freeCtr] s t := by
  unfold execWeightLoadStart at h
  obtain rfl := next_of_withUnit h
  repeat' first
    | with_reducible assumption
    | with_reducible exact Touches.refl _ _
    | (apply Touches.andThen (qs := [.cores, .shelves, .ctxs, .bring, .freeCtr]); with_reducible exact touches_loadStart _ _ _ _ _)
    | decide

theorem touches_execWeightLoadDone (core : Nat) (array : Nat) (s : State) (t : State) (h : execWeightLoadDone core array s = .next t) :
    Touches [.cores] s t := by
  unfold execWeightLoadDone at h
  obtain rfl := next_of_withUnit h
  repeat' first
    | with_reducible assumption
    | with_reducible exact Touches.refl _ _
    | (apply Touches.andThen (qs := [.cores]); with_reducible exact touches_loadDone _ _ _)
    | decide

theorem touches_execTreeNode (ctx : Nat) (node : Nat) (s : State) (t : State) (h : execTreeNode ctx node s = .next t) :
    Touches [.cores, .ctxs, .fab, .freeCtr] s t := by
  unfold execTreeNode at h
  obtain rfl := next_of_withUnit h
  repeat' first
    | with_reducible assumption
    | with_reducible exact Touches.refl _ _
    | (apply Touches.andThen (qs := [.cores, .ctxs]); with_reducible exact touches_treeNode _ _ _)
    | (apply Touches.andThen (qs := [.ctxs, .fab, .freeCtr]); with_reducible exact touches_barrierRoot _ _ _)
    | decide

theorem touches_execWindowTensor (core : Nat) (s : State) (t : State) (h : execWindowTensor core s = .next t) :
    Touches [.cores, .ctxs] s t := by
  unfold execWindowTensor at h
  obtain rfl := next_of_withUnit h
  repeat' first
    | with_reducible assumption
    | with_reducible exact Touches.refl _ _
    | (apply Touches.andThen (qs := [.cores, .ctxs]); with_reducible exact touches_windowTensor _ _)
    | decide

theorem touches_execInputRowArrival (core : Nat) (s : State) (t : State) (h : execInputRowArrival core s = .next t) :
    Touches [.cores, .ctxs] s t := by
  unfold execInputRowArrival at h
  obtain rfl := next_of_withUnit h
  repeat' first
    | with_reducible assumption
    | with_reducible exact Touches.refl _ _
    | (apply Touches.andThen (qs := [.cores, .ctxs]); with_reducible exact touches_inputRowArrival _ _)
    | decide

theorem touches_execHaloCopy (core : Nat) (ecc : Ecc) (s : State) (t : State) (h : execHaloCopy core ecc s = .next t) :
    Touches [.cores, .shelves, .ctxs, .bring, .freeCtr] s t := by
  unfold execHaloCopy at h
  obtain rfl := next_of_withUnit h
  repeat' first
    | with_reducible assumption
    | with_reducible exact Touches.refl _ _
    | (apply Touches.andThen (qs := [.cores, .shelves, .ctxs, .bring, .freeCtr]); with_reducible exact touches_haloCopy _ _ _)
    | decide

theorem touches_execPoolPosition (core : Nat) (s : State) (t : State) (h : execPoolPosition core s = .next t) :
    Touches [.cores, .ctxs] s t := by
  unfold execPoolPosition at h
  obtain rfl := next_of_withUnit h
  repeat' first
    | with_reducible assumption
    | with_reducible exact Touches.refl _ _
    | (apply Touches.andThen (qs := [.cores, .ctxs]); with_reducible exact touches_poolPosition _ _)
    | decide

theorem touches_execBoxDecode (core : Nat) (s : State) (t : State) (h : execBoxDecode core s = .next t) :
    Touches [.cores, .ctxs] s t := by
  unfold execBoxDecode at h
  obtain rfl := next_of_withUnit h
  repeat' first
    | with_reducible assumption
    | with_reducible exact Touches.refl _ _
    | (apply Touches.andThen (qs := [.cores, .ctxs]); with_reducible exact touches_boxDecode _ _)
    | decide

theorem touches_execNmsCandidate (core : Nat) (s : State) (t : State) (h : execNmsCandidate core s = .next t) :
    Touches [.cores] s t := by
  unfold execNmsCandidate at h
  obtain rfl := next_of_withUnit h
  repeat' first
    | with_reducible assumption
    | with_reducible exact Touches.refl _ _
    | (apply Touches.andThen (qs := [.cores]); with_reducible exact touches_nmsCandidate _ _)
    | decide

theorem touches_execNmsSelect (core : Nat) (s : State) (t : State) (h : execNmsSelect core s = .next t) :
    Touches [.cores, .ctxs] s t := by
  unfold execNmsSelect at h
  obtain rfl := next_of_withUnit h
  repeat' first
    | with_reducible assumption
    | with_reducible exact Touches.refl _ _
    | (apply Touches.andThen (qs := [.cores, .ctxs]); with_reducible exact touches_nmsSelect _ _)
    | decide

end Sys2Proof.Machine
end

