-- ==== Sys2Proof/Laws/TouchHostCmd.lean ====
section
/-!
SUPPORT. What each command of Machine/CmdHost.lean touches.
-/

set_option linter.unusedTactic false
set_option linter.unreachableTactic false

namespace Sys2Proof.Machine

theorem touches_execCounterLowHalfRead (requester : Nat) (offset : Nat) (s : State) (t : State) (h : execCounterLowHalfRead requester offset s = .next t) :
    Touches [.latches] s t := by
  unfold execCounterLowHalfRead at h
  obtain rfl := next_of_withUnit h
  repeat' first
    | with_reducible assumption
    | with_reducible exact Touches.refl _ _
    | (apply Touches.andThen (qs := [.latches]); with_reducible exact touches_counterLowHalfRead _ _ _)
    | decide

theorem touches_execRegisterWriteIgnored (bar : Nat) (offset : Nat) (s : State) (t : State) (h : execRegisterWriteIgnored bar offset s = .next t) :
    Touches [.host] s t := by
  unfold execRegisterWriteIgnored at h
  obtain rfl := next_of_withUnit h
  repeat' first
    | with_reducible assumption
    | with_reducible exact Touches.refl _ _
    | (apply Touches.andThen (qs := [.host]); with_reducible exact touches_registerWriteIgnored _ _ _)
    | decide

theorem touches_execHotReset (s : State) (t : State) (h : execHotReset s = .next t) :
    Touches [.host] s t := by
  unfold execHotReset at h
  obtain rfl := next_inj h
  repeat' first
    | with_reducible assumption
    | with_reducible exact Touches.refl _ _
    | (apply Touches.andThen (qs := [.host]); with_reducible exact touches_hotReset _)
    | decide

theorem touches_execFunctionLevelReset (s : State) (t : State) (h : execFunctionLevelReset s = .next t) :
    Touches [.host] s t := by
  unfold execFunctionLevelReset at h
  obtain rfl := next_inj h
  repeat' first
    | with_reducible assumption
    | with_reducible exact Touches.refl _ _
    | (apply Touches.andThen (qs := [.host]); with_reducible exact touches_functionLevelReset _)
    | decide

theorem touches_execPcieLinkDown (s : State) (t : State) (h : execPcieLinkDown s = .next t) :
    Touches [.host] s t := by
  unfold execPcieLinkDown at h
  obtain rfl := next_inj h
  repeat' first
    | with_reducible assumption
    | with_reducible exact Touches.refl _ _
    | (apply Touches.andThen (qs := [.host]); with_reducible exact touches_pcieLinkDown _)
    | decide

theorem touches_execPerstAssert (s : State) (t : State) (h : execPerstAssert s = .next t) :
    Touches [.host, .pins] s t := by
  unfold execPerstAssert at h
  obtain rfl := next_inj h
  repeat' first
    | with_reducible assumption
    | with_reducible exact Touches.refl _ _
    | (apply Touches.andThen (qs := [.host, .pins]); with_reducible exact touches_perstAssert _)
    | decide

theorem touches_execPerstRelease (s : State) (t : State) (h : execPerstRelease s = .next t) :
    Touches [.host, .pins] s t := by
  unfold execPerstRelease at h
  obtain rfl := next_inj h
  repeat' first
    | with_reducible assumption
    | with_reducible exact Touches.refl _ _
    | (apply Touches.andThen (qs := [.host, .pins]); with_reducible exact touches_perstRelease _)
    | decide

theorem touches_execCallDoorbell (ring : Nat) (value : BitVec 32) (writes : Tbl (BitVec 1024)) (s : State) (t : State) (h : execCallDoorbell ring value writes s = .next t) :
    Touches [.host] s t := by
  unfold execCallDoorbell at h
  obtain rfl := next_of_withUnit h
  repeat' first
    | with_reducible assumption
    | with_reducible exact Touches.refl _ _
    | (apply Touches.andThen (qs := [.host]); with_reducible exact touches_callDoorbell _ _ _ _)
    | decide

theorem touches_execSlipTake (ring : Nat) (s : State) (t : State) (h : execSlipTake ring s = .next t) :
    Touches [.host] s t := by
  unfold execSlipTake at h
  obtain rfl := next_of_withUnit h
  repeat' first
    | with_reducible assumption
    | with_reducible exact Touches.refl _ _
    | (apply Touches.andThen (qs := [.host]); with_reducible exact touches_slipTake _ _)
    | decide

theorem touches_execSlipEnd (ring : Nat) (seq : BitVec 32) (s : State) (t : State) (h : execSlipEnd ring seq s = .next t) :
    Touches [.bytes, .granules, .tiers, .ctxs, .host, .sec, .ledger, .bring, .power, .imprint, .mgmt] s t := by
  unfold execSlipEnd at h
  obtain rfl := next_of_withUnit h
  repeat' first
    | with_reducible assumption
    | with_reducible exact Touches.refl _ _
    | (apply Touches.andThen (qs := [.host]); with_reducible exact touches_slipEnd _ _ _)
    | (apply Touches.andThen (qs := [.bytes, .granules, .tiers, .ctxs, .host, .sec, .ledger, .bring, .power, .imprint, .mgmt]); with_reducible exact touches_settleRelease _)
    | decide

theorem touches_execRetAck (ring : Nat) (value : BitVec 32) (s : State) (t : State) (h : execRetAck ring value s = .next t) :
    Touches [.host] s t := by
  unfold execRetAck at h
  obtain rfl := next_of_withUnit h
  repeat' first
    | with_reducible assumption
    | with_reducible exact Touches.refl _ _
    | (apply Touches.andThen (qs := [.host]); with_reducible exact touches_retAck _ _ _)
    | decide

theorem touches_execRingReset (ring : Nat) (s : State) (t : State) (h : execRingReset ring s = .next t) :
    Touches [.host] s t := by
  unfold execRingReset at h
  obtain rfl := next_of_withUnit h
  repeat' first
    | with_reducible assumption
    | with_reducible exact Touches.refl _ _
    | (apply Touches.andThen (qs := [.host]); with_reducible exact touches_ringReset _ _)
    | decide

theorem touches_execRingResetEffect (ring : Nat) (s : State) (t : State) (h : execRingResetEffect ring s = .next t) :
    Touches [.host] s t := by
  unfold execRingResetEffect at h
  obtain rfl := next_of_withUnit h
  repeat' first
    | with_reducible assumption
    | with_reducible exact Touches.refl _ _
    | (apply Touches.andThen (qs := [.host]); with_reducible exact touches_ringResetEffect _ _)
    | decide

theorem touches_execUpload (ring : Nat) (seq : BitVec 32) (volume : Blob) (dmaOk : Bool) (sigOk : Bool) (s : State) (t : State) (h : execUpload ring seq volume dmaOk sigOk s = .next t) :
    Touches [.bytes, .granules, .tiers, .ctxs, .host, .sec, .ledger, .bring, .power, .imprint, .mgmt] s t := by
  unfold execUpload at h
  obtain rfl := next_of_withUnit h
  repeat' first
    | with_reducible assumption
    | with_reducible exact Touches.refl _ _
    | (apply Touches.andThen (qs := [.host, .sec]); with_reducible exact touches_upload _ _ _ _ _ _)
    | (apply Touches.andThen (qs := [.bytes, .granules, .tiers, .ctxs, .host, .sec, .ledger, .bring, .power, .imprint, .mgmt]); with_reducible exact touches_settleRelease _)
    | decide

theorem touches_execPull (ring : Nat) (seq : BitVec 32) (sigOk : Bool) (s : State) (t : State) (h : execPull ring seq sigOk s = .next t) :
    Touches [.bytes, .granules, .tiers, .ctxs, .host, .fab, .sec, .ledger, .bring, .power, .imprint, .mgmt, .freeCtr] s t := by
  unfold execPull at h
  obtain rfl := next_of_withUnit h
  repeat' first
    | with_reducible assumption
    | with_reducible exact Touches.refl _ _
    | (apply Touches.andThen (qs := [.ctxs, .host, .fab, .sec, .freeCtr]); with_reducible exact touches_pull _ _ _ _)
    | (apply Touches.andThen (qs := [.bytes, .granules, .tiers, .ctxs, .host, .sec, .ledger, .bring, .power, .imprint, .mgmt]); with_reducible exact touches_settleRelease _)
    | decide

theorem touches_execCreate (ring : Nat) (seq : BitVec 32) (s : State) (t : State) (h : execCreate ring seq s = .next t) :
    Touches [.bytes, .granules, .tiers, .ctxs, .host, .sec, .ledger, .bring, .power, .freeCtr] s t := by
  unfold execCreate at h
  obtain rfl := next_of_withUnit h
  repeat' first
    | with_reducible assumption
    | with_reducible exact Touches.refl _ _
    | (apply Touches.andThen (qs := [.bytes, .granules, .tiers, .ctxs, .host, .sec, .ledger, .bring, .power, .freeCtr]); with_reducible exact touches_create _ _ _)
    | decide

theorem touches_execLoad (ring : Nat) (seq : BitVec 32) (stripes : Tbl (List Nat)) (s : State) (t : State) (h : execLoad ring seq stripes s = .next t) :
    Touches [.cores, .shelves, .ctxs, .media, .host, .fab, .bring, .power, .freeCtr] s t := by
  unfold execLoad at h
  obtain rfl := next_of_withUnit h
  repeat' first
    | with_reducible assumption
    | with_reducible exact Touches.refl _ _
    | (apply Touches.andThen (qs := [.cores, .shelves, .ctxs, .media, .host, .fab, .bring, .power, .freeCtr]); with_reducible exact touches_load _ _ _ _)
    | (apply Touches.andThen (qs := [.ctxs, .host, .fab, .power, .freeCtr]); with_reducible exact touches_settle _ _)
    | decide

theorem touches_execUnload (ring : Nat) (seq : BitVec 32) (s : State) (t : State) (h : execUnload ring seq s = .next t) :
    Touches [.cores, .shelves, .ctxs, .media, .host, .fab, .bring, .freeCtr] s t := by
  unfold execUnload at h
  obtain rfl := next_of_withUnit h
  repeat' first
    | with_reducible assumption
    | with_reducible exact Touches.refl _ _
    | (apply Touches.andThen (qs := [.ctxs, .fab, .freeCtr]); with_reducible exact touches_flushCredits _ _)
    | (apply Touches.andThen (qs := [.cores, .shelves, .ctxs, .media, .host, .bring, .freeCtr]); with_reducible exact touches_unload _ _ _)
    | decide

theorem touches_execDestroy (ring : Nat) (seq : BitVec 32) (s : State) (t : State) (h : execDestroy ring seq s = .next t) :
    Touches [.ctxs, .host, .freeCtr] s t := by
  unfold execDestroy at h
  obtain rfl := next_of_withUnit h
  repeat' first
    | with_reducible assumption
    | with_reducible exact Touches.refl _ _
    | (apply Touches.andThen (qs := [.ctxs, .host, .freeCtr]); with_reducible exact touches_destroy _ _ _)
    | decide

theorem touches_execPin (ring : Nat) (seq : BitVec 32) (s : State) (t : State) (h : execPin ring seq s = .next t) :
    Touches [.host] s t := by
  unfold execPin at h
  obtain rfl := next_of_withUnit h
  repeat' first
    | with_reducible assumption
    | with_reducible exact Touches.refl _ _
    | (apply Touches.andThen (qs := [.host]); with_reducible exact touches_pin _ _ _)
    | decide

theorem touches_execUnpin (ring : Nat) (seq : BitVec 32) (s : State) (t : State) (h : execUnpin ring seq s = .next t) :
    Touches [.host] s t := by
  unfold execUnpin at h
  obtain rfl := next_of_withUnit h
  repeat' first
    | with_reducible assumption
    | with_reducible exact Touches.refl _ _
    | (apply Touches.andThen (qs := [.host]); with_reducible exact touches_unpin _ _ _)
    | decide

theorem touches_execWeed (ring : Nat) (seq : BitVec 32) (s : State) (t : State) (h : execWeed ring seq s = .next t) :
    Touches [.host, .sec] s t := by
  unfold execWeed at h
  obtain rfl := next_of_withUnit h
  repeat' first
    | with_reducible assumption
    | with_reducible exact Touches.refl _ _
    | (apply Touches.andThen (qs := [.host, .sec]); with_reducible exact touches_weed _ _ _)
    | decide

theorem touches_execWait (ring : Nat) (seq : BitVec 32) (s : State) (t : State) (h : execWait ring seq s = .next t) :
    Touches [.host] s t := by
  unfold execWait at h
  obtain rfl := next_of_withUnit h
  repeat' first
    | with_reducible assumption
    | with_reducible exact Touches.refl _ _
    | (apply Touches.andThen (qs := [.host]); with_reducible exact touches_wait _ _ _)
    | decide

theorem touches_execReadResume (ring : Nat) (seq : BitVec 32) (s : State) (t : State) (h : execReadResume ring seq s = .next t) :
    Touches [.host, .freeCtr] s t := by
  unfold execReadResume at h
  obtain rfl := next_of_withUnit h
  repeat' first
    | with_reducible assumption
    | with_reducible exact Touches.refl _ _
    | (apply Touches.andThen (qs := [.host, .freeCtr]); with_reducible exact touches_readResume _ _ _)
    | decide

theorem touches_execTeardown (ctx : Nat) (s : State) (t : State) (h : execTeardown ctx s = .next t) :
    Touches [.cores, .shelves, .bytes, .tiers, .ctxs, .media, .fab, .sec, .bring, .freeCtr] s t := by
  unfold execTeardown at h
  obtain rfl := next_of_withUnit h
  repeat' first
    | with_reducible assumption
    | with_reducible exact Touches.refl _ _
    | (apply Touches.andThen (qs := [.ctxs, .fab, .freeCtr]); with_reducible exact touches_flushCredits _ _)
    | (apply Touches.andThen (qs := [.cores, .shelves, .bytes, .tiers, .ctxs, .media, .fab, .sec, .bring, .freeCtr]); with_reducible exact touches_teardown _ _)
    | decide

theorem touches_execTeardownDone (ctx : Nat) (s : State) (t : State) (h : execTeardownDone ctx s = .next t) :
    Touches [.bytes, .granules, .tiers, .ctxs, .host, .fab, .sec, .ledger, .freeCtr] s t := by
  unfold execTeardownDone at h
  obtain rfl := next_of_withUnit h
  repeat' first
    | with_reducible assumption
    | with_reducible exact Touches.refl _ _
    | (apply Touches.andThen (qs := [.host, .freeCtr]); with_reducible exact touches_settleSlips _)
    | (apply Touches.andThen (qs := [.bytes, .granules, .tiers, .ctxs, .host, .fab, .sec, .ledger, .freeCtr]); with_reducible exact touches_teardownDone _ _)
    | decide

theorem touches_execMsixUnmask (vector : Nat) (s : State) (t : State) (h : execMsixUnmask vector s = .next t) :
    Touches [.host] s t := by
  unfold execMsixUnmask at h
  obtain rfl := next_of_withUnit h
  repeat' first
    | with_reducible assumption
    | with_reducible exact Touches.refl _ _
    | (apply Touches.andThen (qs := [.host]); with_reducible exact touches_msixUnmask _ _)
    | decide

theorem touches_execPullUnavailable (ring : Nat) (seq : BitVec 32) (s : State) (t : State) (h : execPullUnavailable ring seq s = .next t) :
    Touches [.bytes, .granules, .tiers, .ctxs, .host, .fab, .sec, .ledger, .bring, .power, .imprint, .mgmt] s t := by
  unfold execPullUnavailable at h
  obtain rfl := next_of_withUnit h
  repeat' first
    | with_reducible assumption
    | with_reducible exact Touches.refl _ _
    | (apply Touches.andThen (qs := [.host, .fab]); with_reducible exact touches_pullUnavailable _ _ _)
    | (apply Touches.andThen (qs := [.bytes, .granules, .tiers, .ctxs, .host, .sec, .ledger, .bring, .power, .imprint, .mgmt]); with_reducible exact touches_settleRelease _)
    | decide

theorem touches_execConfigurationRequest (settled : Bool) (s : State) (t : State) (h : execConfigurationRequest settled s = .next t) :
    Touches [.host] s t := by
  unfold execConfigurationRequest at h
  obtain rfl := next_inj h
  repeat' first
    | with_reducible assumption
    | with_reducible exact Touches.refl _ _
    | (apply Touches.andThen (qs := [.host]); with_reducible exact touches_configurationRequest _ _)
    | decide

end Sys2Proof.Machine
end

