-- ==== Sys2Proof/Laws/TouchLedgerCmd.lean ====
section
/-!
SUPPORT. What each command of Machine/CmdLedger.lean touches.
-/

set_option linter.unusedTactic false
set_option linter.unreachableTactic false

namespace Sys2Proof.Machine

theorem touches_execCommitStart (ctx : Nat) (s : State) (t : State) (h : execCommitStart ctx s = .next t) :
    Touches [.bytes, .tiers, .ctxs] s t := by
  unfold execCommitStart at h
  obtain rfl := next_of_withUnit h
  repeat' first
    | with_reducible assumption
    | with_reducible exact Touches.refl _ _
    | (apply Touches.andThen (qs := [.bytes, .tiers, .ctxs]); with_reducible exact touches_commitSnapshot _ _)
    | decide

theorem touches_execSnapshotDone (ctx : Nat) (s : State) (t : State) (h : execSnapshotDone ctx s = .next t) :
    Touches [.ctxs] s t := by
  unfold execSnapshotDone at h
  obtain rfl := next_of_withUnit h
  repeat' first
    | with_reducible assumption
    | with_reducible exact Touches.refl _ _
    | (apply Touches.andThen (qs := [.ctxs]); with_reducible exact touches_snapshotDone _ _)
    | decide

theorem touches_execParityCompute (ctx : Nat) (group : Nat) (s : State) (t : State) (h : execParityCompute ctx group s = .next t) :
    Touches [.bytes, .tiers, .ctxs, .fab, .freeCtr] s t := by
  unfold execParityCompute at h
  obtain rfl := next_of_withUnit h
  repeat' first
    | with_reducible assumption
    | with_reducible exact Touches.refl _ _
    | (apply Touches.andThen (qs := [.bytes, .tiers, .ctxs, .fab, .freeCtr]); with_reducible exact touches_parityCompute _ _ _)
    | decide

theorem touches_execCopyObject (ctx : Nat) (object : Nat) (s : State) (t : State) (h : execCopyObject ctx object s = .next t) :
    Touches [.ctxs, .fab, .freeCtr] s t := by
  unfold execCopyObject at h
  obtain rfl := next_of_withUnit h
  repeat' first
    | with_reducible assumption
    | with_reducible exact Touches.refl _ _
    | (apply Touches.andThen (qs := [.ctxs, .fab, .freeCtr]); with_reducible exact touches_copyObject _ _ _)
    | decide

theorem touches_execCommitRecordWrite (ctx : Nat) (s : State) (t : State) (h : execCommitRecordWrite ctx s = .next t) :
    Touches [.bytes, .tiers, .ctxs, .fab, .freeCtr] s t := by
  unfold execCommitRecordWrite at h
  obtain rfl := next_of_withUnit h
  repeat' first
    | with_reducible assumption
    | with_reducible exact Touches.refl _ _
    | (apply Touches.andThen (qs := [.bytes, .tiers, .ctxs, .fab, .freeCtr]); with_reducible exact touches_commitRecordWrite _ _)
    | decide

theorem touches_execCommitLeaf (ctx : Nat) (s : State) (t : State) (h : execCommitLeaf ctx s = .next t) :
    Touches [.ctxs, .fab, .freeCtr] s t := by
  unfold execCommitLeaf at h
  obtain rfl := next_of_withUnit h
  repeat' first
    | with_reducible assumption
    | with_reducible exact Touches.refl _ _
    | (apply Touches.andThen (qs := [.ctxs, .fab, .freeCtr]); with_reducible exact touches_commitLeaf _ _)
    | decide

theorem touches_execSealed (ctx : Nat) (s : State) (t : State) (h : execSealed ctx s = .next t) :
    Touches [.bytes, .tiers, .ctxs, .fab, .sec, .ledger, .freeCtr] s t := by
  unfold execSealed at h
  obtain rfl := next_of_withUnit h
  repeat' first
    | with_reducible assumption
    | with_reducible exact Touches.refl _ _
    | (apply Touches.andThen (qs := [.bytes, .tiers, .ctxs, .fab, .sec, .ledger, .freeCtr]); with_reducible exact touches_sealed _ _)
    | decide

theorem touches_execCommitFailed (ctx : Nat) (cause : Nat) (rank : Nat) (s : State) (t : State) (h : execCommitFailed ctx cause rank s = .next t) :
    Touches [.ctxs] s t := by
  unfold execCommitFailed at h
  obtain rfl := next_of_withUnit h
  repeat' first
    | with_reducible assumption
    | with_reducible exact Touches.refl _ _
    | (apply Touches.andThen (qs := [.ctxs]); with_reducible exact touches_commitFailed _ _ _ _)
    | decide

theorem touches_execLost (ctx : Nat) (s : State) (t : State) (h : execLost ctx s = .next t) :
    Touches [.cores, .shelves, .ctxs, .media, .host, .fab, .bring, .freeCtr] s t := by
  unfold execLost at h
  obtain rfl := next_of_withUnit h
  repeat' first
    | with_reducible assumption
    | with_reducible exact Touches.refl _ _
    | (apply Touches.andThen (qs := [.ctxs, .fab, .freeCtr]); with_reducible exact touches_flushCredits _ _)
    | (apply Touches.andThen (qs := [.cores, .shelves, .ctxs, .media, .host, .fab, .bring, .freeCtr]); with_reducible exact touches_lost _ _)
    | decide

theorem touches_execFault (ctx : Nat) (s : State) (t : State) (h : execFault ctx s = .next t) :
    Touches [.cores, .shelves, .ctxs, .media, .host, .fab, .bring, .freeCtr] s t := by
  unfold execFault at h
  obtain rfl := next_of_withUnit h
  repeat' first
    | with_reducible assumption
    | with_reducible exact Touches.refl _ _
    | (apply Touches.andThen (qs := [.ctxs, .fab, .freeCtr]); with_reducible exact touches_flushCredits _ _)
    | (apply Touches.andThen (qs := [.cores, .shelves, .ctxs, .media, .host, .fab, .bring, .freeCtr]); with_reducible exact touches_fault _ _)
    | decide

theorem touches_execHalt (ctx : Nat) (s : State) (t : State) (h : execHalt ctx s = .next t) :
    Touches [.cores, .shelves, .bytes, .tiers, .ctxs, .media, .host, .fab, .freeCtr] s t := by
  unfold execHalt at h
  obtain rfl := next_of_withUnit h
  repeat' first
    | with_reducible assumption
    | with_reducible exact Touches.refl _ _
    | (apply Touches.andThen (qs := [.ctxs, .fab, .freeCtr]); with_reducible exact touches_flushCredits _ _)
    | (apply Touches.andThen (qs := [.cores, .shelves, .bytes, .tiers, .ctxs, .media, .host, .freeCtr]); with_reducible exact touches_halt _ _)
    | decide

theorem touches_execBind (ctx : Nat) (s : State) (t : State) (h : execBind ctx s = .next t) :
    Touches [.granules, .ctxs, .fab, .sec, .freeCtr] s t := by
  unfold execBind at h
  obtain rfl := next_of_withUnit h
  repeat' first
    | with_reducible assumption
    | with_reducible exact Touches.refl _ _
    | (apply Touches.andThen (qs := [.granules, .ctxs, .fab, .sec, .freeCtr]); with_reducible exact touches_bind _ _)
    | decide

theorem touches_execBindAck (ctx : Nat) (s : State) (t : State) (h : execBindAck ctx s = .next t) :
    Touches [.cores, .shelves, .ctxs, .media, .host, .fab, .bring, .freeCtr] s t := by
  unfold execBindAck at h
  obtain rfl := next_of_withUnit h
  repeat' first
    | with_reducible assumption
    | with_reducible exact Touches.refl _ _
    | (apply Touches.andThen (qs := [.ctxs, .fab, .freeCtr]); with_reducible exact touches_flushCredits _ _)
    | (apply Touches.andThen (qs := [.cores, .shelves, .ctxs, .media, .host, .fab, .bring, .freeCtr]); with_reducible exact touches_bindAck _ _)
    | decide

theorem touches_execRebind (ctx : Nat) (stripes : Tbl (List Nat)) (s : State) (t : State) (h : execRebind ctx stripes s = .next t) :
    Touches [.cores, .shelves, .bytes, .granules, .tiers, .ctxs, .media, .host, .fab, .sec, .ledger, .freeCtr] s t := by
  unfold execRebind at h
  obtain rfl := next_of_withUnit h
  repeat' first
    | with_reducible assumption
    | with_reducible exact Touches.refl _ _
    | (apply Touches.andThen (qs := [.cores, .shelves, .bytes, .granules, .tiers, .ctxs, .media, .host, .fab, .sec, .ledger, .freeCtr]); with_reducible exact touches_rebind _ _ _)
    | decide

theorem touches_execRestoreDone (ctx : Nat) (record : Blob) (data : Tbl (List Blob)) (copies : Tbl Blob) (images : Tbl Blob) (parity : List Blob) (s : State) (t : State) (h : execRestoreDone ctx record data copies images parity s = .next t) :
    Touches [.cores, .shelves, .bytes, .granules, .tiers, .ctxs, .media, .host, .fab, .sec, .bring, .freeCtr] s t := by
  unfold execRestoreDone at h
  obtain rfl := next_of_withUnit h
  repeat' first
    | with_reducible assumption
    | with_reducible exact Touches.refl _ _
    | (apply Touches.andThen (qs := [.cores, .shelves, .bytes, .granules, .tiers, .ctxs, .media, .host, .fab, .sec, .bring, .freeCtr]); with_reducible exact touches_restoreDone _ _ _ _ _ _ _)
    | decide

theorem touches_execRestored (ctx : Nat) (s : State) (t : State) (h : execRestored ctx s = .next t) :
    Touches [.cores, .shelves, .ctxs, .media, .host, .fab, .bring, .freeCtr] s t := by
  unfold execRestored at h
  obtain rfl := next_of_withUnit h
  repeat' first
    | with_reducible assumption
    | with_reducible exact Touches.refl _ _
    | (apply Touches.andThen (qs := [.ctxs, .fab, .freeCtr]); with_reducible exact touches_flushCredits _ _)
    | (apply Touches.andThen (qs := [.cores, .shelves, .ctxs, .media, .host, .fab, .bring, .freeCtr]); with_reducible exact touches_restored _ _)
    | decide

theorem touches_execResume (ctx : Nat) (s : State) (t : State) (h : execResume ctx s = .next t) :
    Touches [.cores, .ctxs, .media, .host, .fab, .freeCtr] s t := by
  unfold execResume at h
  obtain rfl := next_of_withUnit h
  repeat' first
    | with_reducible assumption
    | with_reducible exact Touches.refl _ _
    | (apply Touches.andThen (qs := [.ctxs, .fab, .freeCtr]); with_reducible exact touches_flushCredits _ _)
    | (apply Touches.andThen (qs := [.cores, .ctxs, .media, .host, .fab, .freeCtr]); with_reducible exact touches_resume _ _)
    | decide

theorem touches_execDrop (ctx : Nat) (s : State) (t : State) (h : execDrop ctx s = .next t) :
    Touches [.cores, .shelves, .ctxs, .media, .host, .fab, .bring, .freeCtr] s t := by
  unfold execDrop at h
  obtain rfl := next_of_withUnit h
  repeat' first
    | with_reducible assumption
    | with_reducible exact Touches.refl _ _
    | (apply Touches.andThen (qs := [.cores, .shelves, .ctxs, .media, .host, .fab, .bring, .freeCtr]); with_reducible exact touches_drop _ _)
    | decide

theorem touches_execReleaseRecord (job : BitVec 32) (s : State) (t : State) (h : execReleaseRecord job s = .next t) :
    Touches [.bytes, .granules, .tiers, .ctxs, .ledger] s t := by
  unfold execReleaseRecord at h
  obtain rfl := next_inj h
  repeat' first
    | with_reducible assumption
    | with_reducible exact Touches.refl _ _
    | (apply Touches.andThen (qs := [.bytes, .granules, .tiers, .ctxs, .ledger]); with_reducible exact touches_releaseRecord _ _)
    | decide

theorem touches_execJoin (ctx : Nat) (s : State) (t : State) (h : execJoin ctx s = .next t) :
    Touches [.cores, .ctxs, .media, .fab, .freeCtr] s t := by
  unfold execJoin at h
  obtain rfl := next_of_withUnit h
  repeat' first
    | with_reducible assumption
    | with_reducible exact Touches.refl _ _
    | (apply Touches.andThen (qs := [.ctxs, .fab, .freeCtr]); with_reducible exact touches_flushCredits _ _)
    | (apply Touches.andThen (qs := [.cores, .ctxs, .media, .fab, .freeCtr]); with_reducible exact touches_join _ _)
    | decide

end Sys2Proof.Machine
end

