-- ==== Sys2Proof/Laws/TouchLinkCmd.lean ====
section
/-!
SUPPORT. What each command of Machine/CmdLink.lean touches.
-/

set_option linter.unusedTactic false
set_option linter.unreachableTactic false

namespace Sys2Proof.Machine

theorem touches_execLinkTrained (link : Nat) (lanes : BitVec 8) (s : State) (t : State) (h : execLinkTrained link lanes s = .next t) :
    Touches [.cores, .shelves, .ctxs, .media, .host, .fab, .sec, .bring, .freeCtr] s t := by
  unfold execLinkTrained at h
  obtain rfl := next_of_withUnit h
  repeat' first
    | with_reducible assumption
    | with_reducible exact Touches.refl _ _
    | (apply Touches.andThen (qs := [.fab, .sec, .freeCtr]); with_reducible exact touches_linkTrained _ _ _)
    | with_reducible refine touches_fabricStep ?_ ?_
    | decide

theorem touches_execLossOfSignal (link : Nat) (s : State) (t : State) (h : execLossOfSignal link s = .next t) :
    Touches [.cores, .shelves, .ctxs, .media, .host, .fab, .sec, .bring, .freeCtr] s t := by
  unfold execLossOfSignal at h
  obtain rfl := next_of_withUnit h
  repeat' first
    | with_reducible assumption
    | with_reducible exact Touches.refl _ _
    | (apply Touches.andThen (qs := [.fab, .sec]); with_reducible exact touches_lossOfSignal _ _)
    | with_reducible refine touches_fabricStep ?_ ?_
    | decide

theorem touches_execKeepaliveTimeout (link : Nat) (s : State) (t : State) (h : execKeepaliveTimeout link s = .next t) :
    Touches [.cores, .shelves, .ctxs, .media, .host, .fab, .sec, .bring, .freeCtr] s t := by
  unfold execKeepaliveTimeout at h
  obtain rfl := next_of_withUnit h
  repeat' first
    | with_reducible assumption
    | with_reducible exact Touches.refl _ _
    | (apply Touches.andThen (qs := [.fab, .sec]); with_reducible exact touches_keepaliveTimeout _ _)
    | with_reducible refine touches_fabricStep ?_ ?_
    | decide

theorem touches_execFlitSlot (link : Nat) (s : State) (t : State) (h : execFlitSlot link s = .next t) :
    Touches [.fab, .sec] s t := by
  unfold execFlitSlot at h
  obtain rfl := next_of_withUnit h
  repeat' first
    | with_reducible assumption
    | with_reducible exact Touches.refl _ _
    | (apply Touches.andThen (qs := [.fab, .sec]); with_reducible exact touches_flitSlot _ _)
    | decide

theorem touches_execFlitIdle (link : Nat) (flit : Flit) (count : Nat) (fec : Fec) (s : State) (t : State) (h : execFlitIdle link flit count fec s = .next t) :
    Touches [.cores, .shelves, .ctxs, .media, .host, .fab, .sec, .bring, .freeCtr] s t := by
  unfold execFlitIdle at h
  obtain rfl := next_of_withUnit h
  repeat' first
    | with_reducible assumption
    | with_reducible exact Touches.refl _ _
    | (apply Touches.andThen (qs := [.fab, .sec]); with_reducible exact touches_flitIdle _ _ _ _ _)
    | with_reducible refine touches_fabricStep ?_ ?_
    | decide

theorem touches_execFlitData (link : Nat) (flit : Flit) (count : Nat) (fec : Fec) (s : State) (t : State) (h : execFlitData link flit count fec s = .next t) :
    Touches [.cores, .shelves, .ctxs, .media, .host, .fab, .sec, .bring, .freeCtr] s t := by
  unfold execFlitData at h
  obtain rfl := next_of_withUnit h
  repeat' first
    | with_reducible assumption
    | with_reducible exact Touches.refl _ _
    | (apply Touches.andThen (qs := [.fab, .sec]); with_reducible exact touches_flitData _ _ _ _ _)
    | with_reducible refine touches_fabricStep ?_ ?_
    | decide

theorem touches_execKeyOffer (link : Nat) (serial : BitVec 64) (ownerDigest : BitVec 256) (chainOk : Bool) (k : BitVec 320) (s : State) (t : State) (h : execKeyOffer link serial ownerDigest chainOk k s = .next t) :
    Touches [.cores, .shelves, .ctxs, .media, .host, .fab, .sec, .bring, .freeCtr] s t := by
  unfold execKeyOffer at h
  obtain rfl := next_of_withUnit h
  repeat' first
    | with_reducible assumption
    | with_reducible exact Touches.refl _ _
    | (apply Touches.andThen (qs := [.fab, .sec]); with_reducible exact touches_keyOffer _ _ _ _ _ _)
    | with_reducible refine touches_fabricStep ?_ ?_
    | decide

theorem touches_execKeyConfirm (link : Nat) (ok : Bool) (s : State) (t : State) (h : execKeyConfirm link ok s = .next t) :
    Touches [.cores, .shelves, .ctxs, .media, .host, .fab, .sec, .bring, .freeCtr] s t := by
  unfold execKeyConfirm at h
  obtain rfl := next_of_withUnit h
  repeat' first
    | with_reducible assumption
    | with_reducible exact Touches.refl _ _
    | (apply Touches.andThen (qs := [.fab, .sec]); with_reducible exact touches_keyConfirm _ _ _)
    | with_reducible refine touches_fabricStep ?_ ?_
    | decide

theorem touches_execKeyAbort (link : Nat) (s : State) (t : State) (h : execKeyAbort link s = .next t) :
    Touches [.cores, .shelves, .ctxs, .media, .host, .fab, .sec, .bring, .freeCtr] s t := by
  unfold execKeyAbort at h
  obtain rfl := next_of_withUnit h
  repeat' first
    | with_reducible assumption
    | with_reducible exact Touches.refl _ _
    | (apply Touches.andThen (qs := [.fab, .sec]); with_reducible exact touches_keyAbort _ _)
    | with_reducible refine touches_fabricStep ?_ ?_
    | decide

theorem touches_execKeyingTimeout (link : Nat) (s : State) (t : State) (h : execKeyingTimeout link s = .next t) :
    Touches [.cores, .shelves, .ctxs, .media, .host, .fab, .sec, .bring, .freeCtr] s t := by
  unfold execKeyingTimeout at h
  obtain rfl := next_of_withUnit h
  repeat' first
    | with_reducible assumption
    | with_reducible exact Touches.refl _ _
    | (apply Touches.andThen (qs := [.fab, .sec]); with_reducible exact touches_keyingTimeout _ _)
    | with_reducible refine touches_fabricStep ?_ ?_
    | decide

theorem touches_execKeyingRetry (link : Nat) (s : State) (t : State) (h : execKeyingRetry link s = .next t) :
    Touches [.cores, .shelves, .ctxs, .media, .host, .fab, .bring, .freeCtr] s t := by
  unfold execKeyingRetry at h
  obtain rfl := next_of_withUnit h
  repeat' first
    | with_reducible assumption
    | with_reducible exact Touches.refl _ _
    | (apply Touches.andThen (qs := [.fab]); with_reducible exact touches_keyingRetry _ _)
    | with_reducible refine touches_fabricStep ?_ ?_
    | decide

theorem touches_execHello (link : Nat) (s : State) (t : State) (h : execHello link s = .next t) :
    Touches [.cores, .shelves, .ctxs, .media, .host, .fab, .sec, .bring, .freeCtr] s t := by
  unfold execHello at h
  obtain rfl := next_of_withUnit h
  repeat' first
    | with_reducible assumption
    | with_reducible exact Touches.refl _ _
    | (apply Touches.andThen (qs := [.fab, .sec]); with_reducible exact touches_hello _ _)
    | with_reducible refine touches_fabricStep ?_ ?_
    | decide

theorem touches_execFabricMismatchRetry (link : Nat) (s : State) (t : State) (h : execFabricMismatchRetry link s = .next t) :
    Touches [.cores, .shelves, .ctxs, .media, .host, .fab, .bring, .freeCtr] s t := by
  unfold execFabricMismatchRetry at h
  obtain rfl := next_of_withUnit h
  repeat' first
    | with_reducible assumption
    | with_reducible exact Touches.refl _ _
    | (apply Touches.andThen (qs := [.fab]); with_reducible exact touches_fabricMismatchRetry _ _)
    | with_reducible refine touches_fabricStep ?_ ?_
    | decide

theorem touches_execSyncOffer (link : Nat) (s : State) (t : State) (h : execSyncOffer link s = .next t) :
    Touches [.cores, .shelves, .ctxs, .media, .host, .fab, .bring, .freeCtr] s t := by
  unfold execSyncOffer at h
  obtain rfl := next_of_withUnit h
  repeat' first
    | with_reducible assumption
    | with_reducible exact Touches.refl _ _
    | (apply Touches.andThen (qs := [.fab]); with_reducible exact touches_syncOffer _ _)
    | with_reducible refine touches_fabricStep ?_ ?_
    | decide

theorem touches_execSyncRecords (link : Nat) (s : State) (t : State) (h : execSyncRecords link s = .next t) :
    Touches [.cores, .shelves, .ctxs, .media, .host, .fab, .bring, .freeCtr] s t := by
  unfold execSyncRecords at h
  obtain rfl := next_of_withUnit h
  repeat' first
    | with_reducible assumption
    | with_reducible exact Touches.refl _ _
    | (apply Touches.andThen (qs := [.fab]); with_reducible exact touches_syncRecords _ _)
    | with_reducible refine touches_fabricStep ?_ ?_
    | decide

theorem touches_execSyncDone (link : Nat) (s : State) (t : State) (h : execSyncDone link s = .next t) :
    Touches [.cores, .shelves, .ctxs, .media, .host, .fab, .bring, .freeCtr] s t := by
  unfold execSyncDone at h
  obtain rfl := next_of_withUnit h
  repeat' first
    | with_reducible assumption
    | with_reducible exact Touches.refl _ _
    | (apply Touches.andThen (qs := [.fab]); with_reducible exact touches_syncDone _ _)
    | with_reducible refine touches_fabricStep ?_ ?_
    | decide

theorem touches_execSyncNotReady (link : Nat) (s : State) (t : State) (h : execSyncNotReady link s = .next t) :
    Touches [.cores, .shelves, .ctxs, .media, .host, .fab, .bring, .freeCtr] s t := by
  unfold execSyncNotReady at h
  obtain rfl := next_of_withUnit h
  repeat' first
    | with_reducible assumption
    | with_reducible exact Touches.refl _ _
    | (apply Touches.andThen (qs := [.fab]); with_reducible exact touches_syncNotReady _ _)
    | with_reducible refine touches_fabricStep ?_ ?_
    | decide

theorem touches_execSyncBackoff (link : Nat) (s : State) (t : State) (h : execSyncBackoff link s = .next t) :
    Touches [.cores, .shelves, .ctxs, .media, .host, .fab, .bring, .freeCtr] s t := by
  unfold execSyncBackoff at h
  obtain rfl := next_of_withUnit h
  repeat' first
    | with_reducible assumption
    | with_reducible exact Touches.refl _ _
    | (apply Touches.andThen (qs := [.fab]); with_reducible exact touches_syncBackoff _ _)
    | with_reducible refine touches_fabricStep ?_ ?_
    | decide

theorem touches_execAccessionSettle (s : State) (t : State) (h : execAccessionSettle s = .next t) :
    Touches [.cores, .shelves, .ctxs, .media, .host, .fab, .bring, .freeCtr] s t := by
  unfold execAccessionSettle at h
  obtain rfl := next_inj h
  repeat' first
    | with_reducible assumption
    | with_reducible exact Touches.refl _ _
    | (apply Touches.andThen (qs := [.fab]); with_reducible exact touches_accessionSettle _)
    | with_reducible refine touches_fabricStep ?_ ?_
    | decide

theorem touches_execLsr (link : Nat) (s : State) (t : State) (h : execLsr link s = .next t) :
    Touches [.cores, .shelves, .ctxs, .media, .host, .fab, .bring, .freeCtr] s t := by
  unfold execLsr at h
  obtain rfl := next_of_withUnit h
  repeat' first
    | with_reducible assumption
    | with_reducible exact Touches.refl _ _
    | (apply Touches.andThen (qs := [.fab]); with_reducible exact touches_lsr _ _)
    | with_reducible refine touches_fabricStep ?_ ?_
    | decide

theorem touches_execLsdbRecordExpiry (serial : Nat) (s : State) (t : State) (h : execLsdbRecordExpiry serial s = .next t) :
    Touches [.cores, .shelves, .ctxs, .media, .host, .fab, .bring, .freeCtr] s t := by
  unfold execLsdbRecordExpiry at h
  obtain rfl := next_inj h
  repeat' first
    | with_reducible assumption
    | with_reducible exact Touches.refl _ _
    | (apply Touches.andThen (qs := [.fab]); with_reducible exact touches_lsdbRecordExpiry _ _)
    | with_reducible refine touches_fabricStep ?_ ?_
    | decide

theorem touches_execRouteRecompute (s : State) (t : State) (h : execRouteRecompute s = .next t) :
    Touches [.ctxs, .fab, .freeCtr] s t := by
  unfold execRouteRecompute at h
  obtain rfl := next_inj h
  repeat' first
    | with_reducible assumption
    | with_reducible exact Touches.refl _ _
    | (apply Touches.andThen (qs := [.ctxs, .fab, .freeCtr]); with_reducible exact touches_routeRecompute _)
    | (apply Touches.andThen (qs := [.ctxs, .fab, .freeCtr]); with_reducible exact touches_orphanSessions _)
    | decide

theorem touches_execPacketForward (link : Nat) (s : State) (t : State) (h : execPacketForward link s = .next t) :
    Touches [.fab] s t := by
  unfold execPacketForward at h
  obtain rfl := next_of_withUnit h
  repeat' first
    | with_reducible assumption
    | with_reducible exact Touches.refl _ _
    | (apply Touches.andThen (qs := [.fab]); with_reducible exact touches_packetForward _ _)
    | decide

theorem touches_execLaneSignal (link : Nat) (s : State) (t : State) (h : execLaneSignal link s = .next t) :
    Touches [.fab] s t := by
  unfold execLaneSignal at h
  obtain rfl := next_of_withUnit h
  repeat' first
    | with_reducible assumption
    | with_reducible exact Touches.refl _ _
    | (apply Touches.andThen (qs := [.fab]); with_reducible exact touches_laneSignal _ _)
    | decide

theorem touches_execEthLinkLoss (link : Nat) (s : State) (t : State) (h : execEthLinkLoss link s = .next t) :
    Touches [.cores, .shelves, .ctxs, .media, .host, .fab, .bring, .freeCtr] s t := by
  unfold execEthLinkLoss at h
  obtain rfl := next_of_withUnit h
  repeat' first
    | with_reducible assumption
    | with_reducible exact Touches.refl _ _
    | (apply Touches.andThen (qs := [.fab]); with_reducible exact touches_ethLinkLoss _ _)
    | with_reducible refine touches_fabricStep ?_ ?_
    | decide

end Sys2Proof.Machine
end

