-- ==== Sys2Proof/Laws/TouchMediaCmd.lean ====
section
/-!
SUPPORT. What each command of Machine/CmdMedia.lean touches.
-/

set_option linter.unusedTactic false
set_option linter.unreachableTactic false

namespace Sys2Proof.Machine

theorem touches_execSampleRecord (ctx : Nat) (entry : Nat) (poisoned : Bool) (info : StreamInfo) (s : State) (t : State) (h : execSampleRecord ctx entry poisoned info s = .next t) :
    Touches [.ctxs, .media, .fab, .freeCtr] s t := by
  unfold execSampleRecord at h
  obtain rfl := next_of_withUnit h
  repeat' first
    | with_reducible assumption
    | with_reducible exact Touches.refl _ _
    | (apply Touches.andThen (qs := [.ctxs, .media, .freeCtr]); with_reducible exact touches_sessionRecord _ _ _ _ _)
    | with_reducible refine touches_intakeStep ?_ ?_
    | decide

theorem touches_execDecodeStart (complex : Nat) (queue : Nat) (position : Nat) (yields : Decoded) (waited : BitVec 48) (s : State) (t : State) (h : execDecodeStart complex queue position yields waited s = .next t) :
    Touches [.ctxs, .media, .fab, .freeCtr] s t := by
  unfold execDecodeStart at h
  obtain rfl := next_of_withUnit h
  repeat' first
    | with_reducible assumption
    | with_reducible exact Touches.refl _ _
    | (apply Touches.andThen (qs := [.media]); with_reducible exact touches_decodeStart _ _ _ _ _ _)
    | with_reducible refine touches_intakeStep ?_ ?_
    | decide

theorem touches_execDecodeDone (complex : Nat) (queue : Nat) (position : Nat) (s : State) (t : State) (h : execDecodeDone complex queue position s = .next t) :
    Touches [.cores, .ctxs, .media, .fab, .freeCtr] s t := by
  unfold execDecodeDone at h
  obtain rfl := next_of_withUnit h
  repeat' first
    | with_reducible assumption
    | with_reducible exact Touches.refl _ _
    | (apply Touches.andThen (qs := [.cores, .ctxs, .media, .freeCtr]); with_reducible exact touches_decodeDone _ _ _ _)
    | with_reducible refine touches_intakeStep ?_ ?_
    | decide

theorem touches_execCreditTimer (complex : Nat) (queue : Nat) (s : State) (t : State) (h : execCreditTimer complex queue s = .next t) :
    Touches [.ctxs, .media, .fab, .freeCtr] s t := by
  unfold execCreditTimer at h
  obtain rfl := next_of_withUnit h
  repeat' first
    | with_reducible assumption
    | with_reducible exact Touches.refl _ _
    | (apply Touches.andThen (qs := [.media, .freeCtr]); with_reducible exact touches_creditTimer _ _ _)
    | with_reducible refine touches_intakeStep ?_ ?_
    | decide

theorem touches_execIntakeTensorEmit (complex : Nat) (queue : Nat) (s : State) (t : State) (h : execIntakeTensorEmit complex queue s = .next t) :
    Touches [.cores, .ctxs, .media, .fab, .freeCtr] s t := by
  unfold execIntakeTensorEmit at h
  obtain rfl := next_of_withUnit h
  repeat' first
    | with_reducible assumption
    | with_reducible exact Touches.refl _ _
    | (apply Touches.andThen (qs := [.cores, .ctxs, .media]); with_reducible exact touches_intakeTensorEmit _ _ _)
    | with_reducible refine touches_intakeStep ?_ ?_
    | decide

theorem touches_execLateCorrupt (complex : Nat) (queue : Nat) (s : State) (t : State) (h : execLateCorrupt complex queue s = .next t) :
    Touches [.cores, .ctxs, .media, .fab, .freeCtr] s t := by
  unfold execLateCorrupt at h
  obtain rfl := next_of_withUnit h
  repeat' first
    | with_reducible assumption
    | with_reducible exact Touches.refl _ _
    | (apply Touches.andThen (qs := [.cores, .ctxs, .media]); with_reducible exact touches_lateCorrupt _ _ _)
    | with_reducible refine touches_intakeStep ?_ ?_
    | decide

theorem touches_execRoiSetTake (complex : Nat) (queue : Nat) (waited : BitVec 48) (s : State) (t : State) (h : execRoiSetTake complex queue waited s = .next t) :
    Touches [.cores, .ctxs, .media, .fab, .freeCtr] s t := by
  unfold execRoiSetTake at h
  obtain rfl := next_of_withUnit h
  repeat' first
    | with_reducible assumption
    | with_reducible exact Touches.refl _ _
    | (apply Touches.andThen (qs := [.cores, .ctxs, .media, .freeCtr]); with_reducible exact touches_roiSetTake _ _ _ _)
    | (apply Touches.andThen (qs := [.ctxs, .fab, .freeCtr]); with_reducible exact touches_returnCredits _)
    | with_reducible refine touches_intakeStep ?_ ?_
    | decide

theorem touches_execSubstitution (complex : Nat) (queue : Nat) (s : State) (t : State) (h : execSubstitution complex queue s = .next t) :
    Touches [.ctxs, .media, .fab, .freeCtr] s t := by
  unfold execSubstitution at h
  obtain rfl := next_of_withUnit h
  repeat' first
    | with_reducible assumption
    | with_reducible exact Touches.refl _ _
    | (apply Touches.andThen (qs := [.media]); with_reducible exact touches_substitution _ _ _)
    | with_reducible refine touches_intakeStep ?_ ?_
    | decide

end Sys2Proof.Machine
end

