-- ==== Sys2Proof/Laws/TouchMemoryCmd.lean ====
section
/-!
SUPPORT. What each command of Machine/CmdMemory.lean touches.
-/

set_option linter.unusedTactic false
set_option linter.unreachableTactic false

namespace Sys2Proof.Machine

theorem touches_execMemAccess (engine : Engine) (addr : Nat) (data : Option (BitVec 1024)) (poison : Bool) (ecc : Ecc) (s : State) (t : State) (h : execMemAccess engine addr data poison ecc s = .next t) :
    Touches [.cores, .shelves, .bytes, .tiers, .ctxs, .media, .host, .fab, .bring, .freeCtr] s t := by
  unfold execMemAccess at h
  obtain rfl := next_of_withUnit h
  repeat' first
    | with_reducible assumption
    | with_reducible exact Touches.refl _ _
    | (apply Touches.andThen (qs := [.cores, .shelves, .bytes, .tiers, .ctxs, .bring, .freeCtr]); with_reducible exact touches_memAccess _ _ _ _ _ _)
    | (apply Touches.andThen (qs := [.cores, .shelves, .ctxs, .media, .host, .fab, .bring, .freeCtr]); with_reducible exact touches_cancelLoads _)
    | decide

theorem touches_execPatrolScrub (stack : Nat) (ecc : Ecc) (s : State) (t : State) (h : execPatrolScrub stack ecc s = .next t) :
    Touches [.bytes, .tiers] s t := by
  unfold execPatrolScrub at h
  obtain rfl := next_of_withUnit h
  repeat' first
    | with_reducible assumption
    | with_reducible exact Touches.refl _ _
    | (apply Touches.andThen (qs := [.bytes, .tiers]); with_reducible exact touches_patrolScrub _ _ _)
    | decide

theorem touches_execGranuleFillDone (granule : Nat) (s : State) (t : State) (h : execGranuleFillDone granule s = .next t) :
    Touches [.bytes, .granules] s t := by
  unfold execGranuleFillDone at h
  obtain rfl := next_of_withUnit h
  repeat' first
    | with_reducible assumption
    | with_reducible exact Touches.refl _ _
    | (apply Touches.andThen (qs := [.bytes, .granules]); with_reducible exact touches_granuleFillDone _ _)
    | decide

theorem touches_execCxlWriteDurable (port : Nat) (s : State) (t : State) (h : execCxlWriteDurable port s = .next t) :
    Touches [.tiers] s t := by
  unfold execCxlWriteDurable at h
  obtain rfl := next_of_withUnit h
  repeat' first
    | with_reducible assumption
    | with_reducible exact Touches.refl _ _
    | (apply Touches.andThen (qs := [.tiers]); with_reducible exact touches_cxlWriteDurable _ _)
    | decide

theorem touches_execCxlLinkFail (port : Nat) (s : State) (t : State) (h : execCxlLinkFail port s = .next t) :
    Touches [.bytes, .tiers, .ctxs] s t := by
  unfold execCxlLinkFail at h
  obtain rfl := next_of_withUnit h
  repeat' first
    | with_reducible assumption
    | with_reducible exact Touches.refl _ _
    | (apply Touches.andThen (qs := [.bytes, .tiers]); with_reducible exact touches_cxlLinkFail _ _)
    | (apply Touches.andThen (qs := [.ctxs]); with_reducible exact touches_failLost _ _ _)
    | decide

theorem touches_execCxlRetrainDone (port : Nat) (ok : Bool) (s : State) (t : State) (h : execCxlRetrainDone port ok s = .next t) :
    Touches [.granules, .tiers, .ctxs, .fab, .freeCtr] s t := by
  unfold execCxlRetrainDone at h
  obtain rfl := next_of_withUnit h
  repeat' first
    | with_reducible assumption
    | with_reducible exact Touches.refl _ _
    | (apply Touches.andThen (qs := [.granules, .tiers, .ctxs]); with_reducible exact touches_cxlRetrainDone _ _ _)
    | (apply Touches.andThen (qs := [.ctxs, .fab, .freeCtr]); with_reducible exact touches_ledgerLost _ _)
    | decide

theorem touches_execPrefetchTurn (shelf : Nat) (ecc : Ecc) (s : State) (t : State) (h : execPrefetchTurn shelf ecc s = .next t) :
    Touches [.cores, .shelves, .bytes, .tiers, .ctxs, .fab, .bring, .freeCtr] s t := by
  unfold execPrefetchTurn at h
  obtain rfl := next_of_withUnit h
  repeat' first
    | with_reducible assumption
    | with_reducible exact Touches.refl _ _
    | (apply Touches.andThen (qs := [.cores, .shelves, .bytes, .tiers, .ctxs, .bring, .freeCtr]); with_reducible exact touches_prefetchTurn _ _ _)
    | (apply Touches.andThen (qs := [.ctxs, .fab, .freeCtr]); with_reducible exact touches_returnCredits _)
    | decide

end Sys2Proof.Machine
end

