-- ==== Sys2Proof/Laws/TouchMgmtCmd.lean ====
section
/-!
SUPPORT. What each command of Machine/CmdMgmt.lean touches.
-/

set_option linter.unusedTactic false
set_option linter.unreachableTactic false

namespace Sys2Proof.Machine

theorem touches_execAttest (request : Blob) (signature : BitVec 512) (s : State) (t : State) (h : execAttest request signature s = .next t) :
    Touches [.ctxs, .fab, .sec, .mgmt, .freeCtr] s t := by
  unfold execAttest at h
  obtain rfl := next_inj h
  repeat' first
    | with_reducible assumption
    | with_reducible exact Touches.refl _ _
    | with_reducible refine touches_request ?_ fun _ _ => ?_
    | (apply Touches.andThen (qs := [.ctxs, .fab, .sec, .mgmt, .freeCtr]); with_reducible exact touches_attest _ _ _)
    | decide

theorem touches_execEnrol (request : Blob) (sigOk : Bool) (s : State) (t : State) (h : execEnrol request sigOk s = .next t) :
    Touches [.sec, .imprint, .mgmt] s t := by
  unfold execEnrol at h
  obtain rfl := next_inj h
  repeat' first
    | with_reducible assumption
    | with_reducible exact Touches.refl _ _
    | with_reducible refine touches_request ?_ fun _ _ => ?_
    | (apply Touches.andThen (qs := [.sec, .imprint, .mgmt]); with_reducible exact touches_enrol _ _ _)
    | decide

theorem touches_execRelease (request : Blob) (sigOk : Bool) (s : State) (t : State) (h : execRelease request sigOk s = .next t) :
    Touches [.bytes, .granules, .tiers, .ctxs, .host, .sec, .ledger, .bring, .power, .imprint, .mgmt] s t := by
  unfold execRelease at h
  obtain rfl := next_inj h
  repeat' first
    | with_reducible assumption
    | with_reducible exact Touches.refl _ _
    | with_reducible refine touches_request ?_ fun _ _ => ?_
    | (apply Touches.andThen (qs := [.bytes, .granules, .tiers, .ctxs, .host, .sec, .ledger, .bring, .power, .imprint, .mgmt]); with_reducible exact touches_release _ _ _)
    | decide

theorem touches_execRecalibrate (request : Blob) (sigOk : Bool) (s : State) (t : State) (h : execRecalibrate request sigOk s = .next t) :
    Touches [.sec, .imprint, .mgmt] s t := by
  unfold execRecalibrate at h
  obtain rfl := next_inj h
  repeat' first
    | with_reducible assumption
    | with_reducible exact Touches.refl _ _
    | with_reducible refine touches_request ?_ fun _ _ => ?_
    | (apply Touches.andThen (qs := [.sec, .imprint, .mgmt]); with_reducible exact touches_recalibrate _ _ _)
    | decide

theorem touches_execKeySlotGrant (slot : Nat) (s : State) (t : State) (h : execKeySlotGrant slot s = .next t) :
    Touches [.sec] s t := by
  unfold execKeySlotGrant at h
  obtain rfl := next_of_withUnit h
  repeat' first
    | with_reducible assumption
    | with_reducible exact Touches.refl _ _
    | (apply Touches.andThen (qs := [.sec]); with_reducible exact touches_keySlotGrant _ _)
    | decide

theorem touches_execIdentify (request : Blob) (s : State) (t : State) (h : execIdentify request s = .next t) :
    Touches [.mgmt] s t := by
  unfold execIdentify at h
  obtain rfl := next_inj h
  repeat' first
    | with_reducible assumption
    | with_reducible exact Touches.refl _ _
    | with_reducible refine touches_request ?_ fun _ _ => ?_
    | (apply Touches.andThen (qs := [.mgmt]); with_reducible exact touches_identify _ _)
    | decide

theorem touches_execReadControl (request : Blob) (s : State) (t : State) (h : execReadControl request s = .next t) :
    Touches [.mgmt, .latches] s t := by
  unfold execReadControl at h
  obtain rfl := next_inj h
  repeat' first
    | with_reducible assumption
    | with_reducible exact Touches.refl _ _
    | with_reducible refine touches_request ?_ fun _ _ => ?_
    | (apply Touches.andThen (qs := [.mgmt, .latches]); with_reducible exact touches_readControl _ _)
    | decide

theorem touches_execImprintWrite (request : Blob) (s : State) (t : State) (h : execImprintWrite request s = .next t) :
    Touches [.imprint, .mgmt] s t := by
  unfold execImprintWrite at h
  obtain rfl := next_inj h
  repeat' first
    | with_reducible assumption
    | with_reducible exact Touches.refl _ _
    | with_reducible refine touches_request ?_ fun _ _ => ?_
    | (apply Touches.andThen (qs := [.imprint, .mgmt]); with_reducible exact touches_imprintWrite _ _)
    | decide

theorem touches_execImprintCommit (request : Blob) (sigOk : Bool) (facts : PkgFacts) (s : State) (t : State) (h : execImprintCommit request sigOk facts s = .next t) :
    Touches [.sec, .bring, .power, .imprint, .mgmt] s t := by
  unfold execImprintCommit at h
  obtain rfl := next_inj h
  repeat' first
    | with_reducible assumption
    | with_reducible exact Touches.refl _ _
    | with_reducible refine touches_request ?_ fun _ _ => ?_
    | (apply Touches.andThen (qs := [.sec, .bring, .power, .imprint, .mgmt]); with_reducible exact touches_imprintCommit _ _ _ _)
    | decide

theorem touches_execRebuildBoot (request : Blob) (s : State) (t : State) (h : execRebuildBoot request s = .next t) :
    Touches [.imprint, .mgmt] s t := by
  unfold execRebuildBoot at h
  obtain rfl := next_inj h
  repeat' first
    | with_reducible assumption
    | with_reducible exact Touches.refl _ _
    | with_reducible refine touches_request ?_ fun _ _ => ?_
    | (apply Touches.andThen (qs := [.imprint, .mgmt]); with_reducible exact touches_rebuildBoot _ _)
    | decide

theorem touches_execManagementResponseRead (s : State) (t : State) (h : execManagementResponseRead s = .next t) :
    Touches [.mgmt] s t := by
  unfold execManagementResponseRead at h
  obtain rfl := next_inj h
  repeat' first
    | with_reducible assumption
    | with_reducible exact Touches.refl _ _
    | (apply Touches.andThen (qs := [.mgmt]); with_reducible exact touches_managementResponseRead _)
    | decide

theorem touches_execSetdasa (static : BitVec 7) (dyn : BitVec 7) (s : State) (t : State) (h : execSetdasa static dyn s = .next t) :
    Touches [.mgmt] s t := by
  unfold execSetdasa at h
  obtain rfl := next_inj h
  repeat' first
    | with_reducible assumption
    | with_reducible exact Touches.refl _ _
    | (apply Touches.andThen (qs := [.mgmt]); with_reducible exact touches_setdasa _ _ _)
    | decide

theorem touches_execEntdaa (dyn : BitVec 7) (s : State) (t : State) (h : execEntdaa dyn s = .next t) :
    Touches [.mgmt] s t := by
  unfold execEntdaa at h
  obtain rfl := next_inj h
  repeat' first
    | with_reducible assumption
    | with_reducible exact Touches.refl _ _
    | (apply Touches.andThen (qs := [.mgmt]); with_reducible exact touches_entdaa _ _)
    | decide

theorem touches_execRstdaa (s : State) (t : State) (h : execRstdaa s = .next t) :
    Touches [.mgmt] s t := by
  unfold execRstdaa at h
  obtain rfl := next_inj h
  repeat' first
    | with_reducible assumption
    | with_reducible exact Touches.refl _ _
    | (apply Touches.andThen (qs := [.mgmt]); with_reducible exact touches_rstdaa _)
    | decide

theorem touches_execSetnewda (dyn : BitVec 7) (s : State) (t : State) (h : execSetnewda dyn s = .next t) :
    Touches [.mgmt] s t := by
  unfold execSetnewda at h
  obtain rfl := next_inj h
  repeat' first
    | with_reducible assumption
    | with_reducible exact Touches.refl _ _
    | (apply Touches.andThen (qs := [.mgmt]); with_reducible exact touches_setnewda _ _)
    | decide

theorem touches_execGetpid (s : State) (t : State) (h : execGetpid s = .next t) :
    Touches [.mgmt] s t := by
  unfold execGetpid at h
  obtain rfl := next_inj h
  repeat' first
    | with_reducible assumption
    | with_reducible exact Touches.refl _ _
    | (apply Touches.andThen (qs := [.mgmt]); with_reducible exact touches_getpid _)
    | decide

theorem touches_execGetbcr (s : State) (t : State) (h : execGetbcr s = .next t) :
    Touches [.mgmt] s t := by
  unfold execGetbcr at h
  obtain rfl := next_inj h
  repeat' first
    | with_reducible assumption
    | with_reducible exact Touches.refl _ _
    | (apply Touches.andThen (qs := [.mgmt]); with_reducible exact touches_getbcr _)
    | decide

theorem touches_execGetdcr (s : State) (t : State) (h : execGetdcr s = .next t) :
    Touches [.mgmt] s t := by
  unfold execGetdcr at h
  obtain rfl := next_inj h
  repeat' first
    | with_reducible assumption
    | with_reducible exact Touches.refl _ _
    | (apply Touches.andThen (qs := [.mgmt]); with_reducible exact touches_getdcr _)
    | decide

theorem touches_execGetstatus (s : State) (t : State) (h : execGetstatus s = .next t) :
    Touches [.mgmt, .freeCtr] s t := by
  unfold execGetstatus at h
  obtain rfl := next_inj h
  repeat' first
    | with_reducible assumption
    | with_reducible exact Touches.refl _ _
    | (apply Touches.andThen (qs := [.mgmt, .freeCtr]); with_reducible exact touches_getstatus _)
    | decide

theorem touches_execEnec (mask : BitVec 8) (s : State) (t : State) (h : execEnec mask s = .next t) :
    Touches [.mgmt] s t := by
  unfold execEnec at h
  obtain rfl := next_inj h
  repeat' first
    | with_reducible assumption
    | with_reducible exact Touches.refl _ _
    | (apply Touches.andThen (qs := [.mgmt]); with_reducible exact touches_enec _ _)
    | decide

theorem touches_execDisec (mask : BitVec 8) (s : State) (t : State) (h : execDisec mask s = .next t) :
    Touches [.mgmt] s t := by
  unfold execDisec at h
  obtain rfl := next_inj h
  repeat' first
    | with_reducible assumption
    | with_reducible exact Touches.refl _ _
    | (apply Touches.andThen (qs := [.mgmt]); with_reducible exact touches_disec _ _)
    | decide

end Sys2Proof.Machine
end

