-- ==== Sys2Proof/Laws/TouchPacketCmd.lean ====
section
/-!
SUPPORT. What each command of Machine/CmdPacket.lean touches.
-/

set_option linter.unusedTactic false
set_option linter.unreachableTactic false

namespace Sys2Proof.Machine

theorem touches_execStream (link : Nat) (s : State) (t : State) (h : execStream link s = .next t) :
    Touches [.cores, .bytes, .tiers, .ctxs, .fab, .freeCtr] s t := by
  unfold execStream at h
  obtain rfl := next_of_withUnit h
  repeat' first
    | with_reducible assumption
    | with_reducible exact Touches.refl _ _
    | (apply Touches.andThen (qs := [.cores, .bytes, .tiers, .ctxs, .fab, .freeCtr]); with_reducible exact touches_stream _ _)
    | decide

theorem touches_execCredit (link : Nat) (s : State) (t : State) (h : execCredit link s = .next t) :
    Touches [.ctxs, .fab, .freeCtr] s t := by
  unfold execCredit at h
  obtain rfl := next_of_withUnit h
  repeat' first
    | with_reducible assumption
    | with_reducible exact Touches.refl _ _
    | (apply Touches.andThen (qs := [.ctxs, .fab, .freeCtr]); with_reducible exact touches_credit _ _)
    | decide

theorem touches_execWrite (link : Nat) (s : State) (t : State) (h : execWrite link s = .next t) :
    Touches [.bytes, .tiers, .ctxs, .fab, .ledger, .freeCtr] s t := by
  unfold execWrite at h
  obtain rfl := next_of_withUnit h
  repeat' first
    | with_reducible assumption
    | with_reducible exact Touches.refl _ _
    | (apply Touches.andThen (qs := [.bytes, .tiers, .ctxs, .fab, .ledger, .freeCtr]); with_reducible exact touches_write _ _)
    | decide

theorem touches_execRead (link : Nat) (s : State) (t : State) (h : execRead link s = .next t) :
    Touches [.ctxs, .fab, .freeCtr] s t := by
  unfold execRead at h
  obtain rfl := next_of_withUnit h
  repeat' first
    | with_reducible assumption
    | with_reducible exact Touches.refl _ _
    | (apply Touches.andThen (qs := [.ctxs, .fab, .freeCtr]); with_reducible exact touches_read _ _)
    | decide

theorem touches_execReadData (link : Nat) (s : State) (t : State) (h : execReadData link s = .next t) :
    Touches [.ctxs, .fab, .freeCtr] s t := by
  unfold execReadData at h
  obtain rfl := next_of_withUnit h
  repeat' first
    | with_reducible assumption
    | with_reducible exact Touches.refl _ _
    | (apply Touches.andThen (qs := [.ctxs, .fab, .freeCtr]); with_reducible exact touches_readData _ _)
    | decide

theorem touches_execAck (link : Nat) (s : State) (t : State) (h : execAck link s = .next t) :
    Touches [.fab] s t := by
  unfold execAck at h
  obtain rfl := next_of_withUnit h
  repeat' first
    | with_reducible assumption
    | with_reducible exact Touches.refl _ _
    | (apply Touches.andThen (qs := [.fab]); with_reducible exact touches_ack _ _)
    | decide

theorem touches_execCollective (link : Nat) (s : State) (t : State) (h : execCollective link s = .next t) :
    Touches [.cores, .bytes, .tiers, .ctxs, .fab, .freeCtr] s t := by
  unfold execCollective at h
  obtain rfl := next_of_withUnit h
  repeat' first
    | with_reducible assumption
    | with_reducible exact Touches.refl _ _
    | (apply Touches.andThen (qs := [.cores, .bytes, .tiers, .ctxs, .fab, .freeCtr]); with_reducible exact touches_collective _ _)
    | decide

theorem touches_execMcast (link : Nat) (s : State) (t : State) (h : execMcast link s = .next t) :
    Touches [.bytes, .tiers, .ctxs, .fab, .freeCtr] s t := by
  unfold execMcast at h
  obtain rfl := next_of_withUnit h
  repeat' first
    | with_reducible assumption
    | with_reducible exact Touches.refl _ _
    | (apply Touches.andThen (qs := [.bytes, .tiers, .ctxs, .fab, .freeCtr]); with_reducible exact touches_mcast _ _)
    | decide

theorem touches_execLoan (link : Nat) (s : State) (t : State) (h : execLoan link s = .next t) :
    Touches [.ctxs, .fab, .freeCtr] s t := by
  unfold execLoan at h
  obtain rfl := next_of_withUnit h
  repeat' first
    | with_reducible assumption
    | with_reducible exact Touches.refl _ _
    | (apply Touches.andThen (qs := [.ctxs, .fab, .freeCtr]); with_reducible exact touches_loan _ _)
    | decide

theorem touches_execLoanData (link : Nat) (s : State) (t : State) (h : execLoanData link s = .next t) :
    Touches [.bytes, .tiers, .ctxs, .fab, .freeCtr] s t := by
  unfold execLoanData at h
  obtain rfl := next_of_withUnit h
  repeat' first
    | with_reducible assumption
    | with_reducible exact Touches.refl _ _
    | (apply Touches.andThen (qs := [.bytes, .tiers, .ctxs, .fab, .freeCtr]); with_reducible exact touches_loanData _ _)
    | decide

theorem touches_execSample (link : Nat) (s : State) (t : State) (h : execSample link s = .next t) :
    Touches [.ctxs, .fab, .freeCtr] s t := by
  unfold execSample at h
  obtain rfl := next_of_withUnit h
  repeat' first
    | with_reducible assumption
    | with_reducible exact Touches.refl _ _
    | (apply Touches.andThen (qs := [.ctxs, .fab, .freeCtr]); with_reducible exact touches_sample _ _)
    | decide

theorem touches_execNoticeLagged (link : Nat) (s : State) (t : State) (h : execNoticeLagged link s = .next t) :
    Touches [.ctxs, .fab, .freeCtr] s t := by
  unfold execNoticeLagged at h
  obtain rfl := next_of_withUnit h
  repeat' first
    | with_reducible assumption
    | with_reducible exact Touches.refl _ _
    | (apply Touches.andThen (qs := [.ctxs, .fab, .freeCtr]); with_reducible exact touches_noticeLagged _ _)
    | decide

theorem touches_execNoticeDone (link : Nat) (s : State) (t : State) (h : execNoticeDone link s = .next t) :
    Touches [.ctxs, .fab, .bring, .freeCtr] s t := by
  unfold execNoticeDone at h
  obtain rfl := next_of_withUnit h
  repeat' first
    | with_reducible assumption
    | with_reducible exact Touches.refl _ _
    | (apply Touches.andThen (qs := [.ctxs, .fab, .freeCtr]); with_reducible exact touches_noticeDone _ _)
    | (apply Touches.andThen (qs := [.bring]); with_reducible exact touches_campaignSettle _)
    | decide

theorem touches_execTransportRetransmit (connection : Nat) (s : State) (t : State) (h : execTransportRetransmit connection s = .next t) :
    Touches [.fab] s t := by
  unfold execTransportRetransmit at h
  obtain rfl := next_inj h
  repeat' first
    | with_reducible assumption
    | with_reducible exact Touches.refl _ _
    | (apply Touches.andThen (qs := [.fab]); with_reducible exact touches_transportRetransmit _ _)
    | decide

theorem touches_execMcastSend (job : BitVec 32) (session : Nat) (child : Nat) (s : State) (t : State) (h : execMcastSend job session child s = .next t) :
    Touches [.ctxs, .fab, .freeCtr] s t := by
  unfold execMcastSend at h
  obtain rfl := next_inj h
  repeat' first
    | with_reducible assumption
    | with_reducible exact Touches.refl _ _
    | (apply Touches.andThen (qs := [.ctxs, .fab, .freeCtr]); with_reducible exact touches_mcastSend _ _ _ _)
    | decide

theorem touches_execEthFrame (link : Nat) (frame : Blob) (fec : Fec) (lapsed : Bool) (s : State) (t : State) (h : execEthFrame link frame fec lapsed s = .next t) :
    Touches [.ctxs, .fab, .freeCtr] s t := by
  unfold execEthFrame at h
  obtain rfl := next_of_withUnit h
  repeat' first
    | with_reducible assumption
    | with_reducible exact Touches.refl _ _
    | (apply Touches.andThen (qs := [.ctxs, .fab, .freeCtr]); with_reducible exact touches_ethFrame _ _ _ _ _)
    | decide

theorem touches_execSegmentOpen (source : Nat) (s : State) (t : State) (h : execSegmentOpen source s = .next t) :
    Touches [.ctxs, .fab] s t := by
  unfold execSegmentOpen at h
  obtain rfl := next_of_withUnit h
  repeat' first
    | with_reducible assumption
    | with_reducible exact Touches.refl _ _
    | (apply Touches.andThen (qs := [.ctxs, .fab]); with_reducible exact touches_segmentOpen _ _)
    | decide

theorem touches_execSegmentData (source : Nat) (s : State) (t : State) (h : execSegmentData source s = .next t) :
    Touches [.ctxs, .fab, .sec, .freeCtr] s t := by
  unfold execSegmentData at h
  obtain rfl := next_of_withUnit h
  repeat' first
    | with_reducible assumption
    | with_reducible exact Touches.refl _ _
    | (apply Touches.andThen (qs := [.ctxs, .fab, .sec, .freeCtr]); with_reducible exact touches_segmentData _ _)
    | decide

theorem touches_execExportAck (source : Nat) (s : State) (t : State) (h : execExportAck source s = .next t) :
    Touches [.ctxs, .fab, .freeCtr] s t := by
  unfold execExportAck at h
  obtain rfl := next_of_withUnit h
  repeat' first
    | with_reducible assumption
    | with_reducible exact Touches.refl _ _
    | (apply Touches.andThen (qs := [.ctxs, .fab, .freeCtr]); with_reducible exact touches_exportAck _ _)
    | decide

theorem touches_execExportResend (ctx : Nat) (s : State) (t : State) (h : execExportResend ctx s = .next t) :
    Touches [.ctxs, .fab, .freeCtr] s t := by
  unfold execExportResend at h
  obtain rfl := next_of_withUnit h
  repeat' first
    | with_reducible assumption
    | with_reducible exact Touches.refl _ _
    | (apply Touches.andThen (qs := [.ctxs, .fab, .freeCtr]); with_reducible exact touches_exportResend _ _)
    | decide

end Sys2Proof.Machine
end

