-- ==== Sys2Proof/Laws/TouchPowerCmd.lean ====
section
/-!
SUPPORT. What each command of Machine/CmdPower.lean touches.
-/

set_option linter.unusedTactic false
set_option linter.unreachableTactic false

namespace Sys2Proof.Machine

theorem touches_execInputOutOfRange (mv : BitVec 32) (s : State) (t : State) (h : execInputOutOfRange mv s = .next t) :
    Touches [.cores, .shelves, .bytes, .granules, .tiers, .ctxs, .media, .host, .fab, .sec, .ledger, .bring, .power, .imprint, .pins, .mgmt, .latches, .freeCtr] s t := by
  unfold execInputOutOfRange at h
  obtain rfl := next_inj h
  repeat' first
    | with_reducible assumption
    | with_reducible exact Touches.refl _ _
    | (apply Touches.andThen (qs := [.cores, .shelves, .bytes, .granules, .tiers, .ctxs, .media, .host, .fab, .sec, .ledger, .bring, .power, .imprint, .pins, .mgmt, .latches, .freeCtr]); with_reducible exact touches_inputOutOfRange _ _)
    | decide

theorem touches_execGovernorEvaluation (watts : BitVec 32) (mv : BitVec 32) (temps : Tbl (BitVec 8)) (s : State) (t : State) (h : execGovernorEvaluation watts mv temps s = .next t) :
    Touches [.cores, .shelves, .bytes, .granules, .tiers, .ctxs, .media, .host, .fab, .sec, .ledger, .bring, .power, .imprint, .pins, .mgmt, .latches, .freeCtr] s t := by
  unfold execGovernorEvaluation at h
  obtain rfl := next_inj h
  repeat' first
    | with_reducible assumption
    | with_reducible exact Touches.refl _ _
    | (apply Touches.andThen (qs := [.cores, .shelves, .bytes, .granules, .tiers, .ctxs, .media, .host, .fab, .sec, .ledger, .bring, .power, .imprint, .pins, .mgmt, .latches, .freeCtr]); with_reducible exact touches_governorEvaluation _ _ _ _)
    | decide

theorem touches_execDomainIdleTimeout (unit' : Nat) (s : State) (t : State) (h : execDomainIdleTimeout unit' s = .next t) :
    Touches [.bring, .power] s t := by
  unfold execDomainIdleTimeout at h
  obtain rfl := next_of_withUnit h
  repeat' first
    | with_reducible assumption
    | with_reducible exact Touches.refl _ _
    | (apply Touches.andThen (qs := [.bring, .power]); with_reducible exact touches_domainIdleTimeout _ _)
    | decide

theorem touches_execMeasurementDone (results : Tbl (BitVec 16 × List Bool)) (s : State) (t : State) (h : execMeasurementDone results s = .next t) :
    Touches [.cores, .shelves, .ctxs, .media, .host, .fab, .bring, .power, .imprint, .freeCtr] s t := by
  unfold execMeasurementDone at h
  obtain rfl := next_inj h
  repeat' first
    | with_reducible assumption
    | with_reducible exact Touches.refl _ _
    | (apply Touches.andThen (qs := [.cores, .shelves, .ctxs, .media, .host, .fab, .bring, .freeCtr]); with_reducible exact touches_cancelLoads _)
    | (apply Touches.andThen (qs := [.cores, .shelves, .ctxs, .bring, .power, .imprint, .freeCtr]); with_reducible exact touches_measurementDone _ _)
    | decide

theorem touches_execMuRecord (energy : BitVec 32) (powerMw : BitVec 32) (voltageMv : BitVec 32) (selfCheckOk : Bool) (s : State) (t : State) (h : execMuRecord energy powerMw voltageMv selfCheckOk s = .next t) :
    Touches [.mu] s t := by
  unfold execMuRecord at h
  obtain rfl := next_inj h
  repeat' first
    | with_reducible assumption
    | with_reducible exact Touches.refl _ _
    | (apply Touches.andThen (qs := [.mu]); with_reducible exact touches_muRecord _ _ _ _ _)
    | decide

theorem touches_execMuInputLoss (s : State) (t : State) (h : execMuInputLoss s = .next t) :
    Touches [.mu] s t := by
  unfold execMuInputLoss at h
  obtain rfl := next_inj h
  repeat' first
    | with_reducible assumption
    | with_reducible exact Touches.refl _ _
    | (apply Touches.andThen (qs := [.mu]); with_reducible exact touches_muInputLoss _)
    | decide

theorem touches_execMuInputReturn (s : State) (t : State) (h : execMuInputReturn s = .next t) :
    Touches [.mu] s t := by
  unfold execMuInputReturn at h
  obtain rfl := next_inj h
  repeat' first
    | with_reducible assumption
    | with_reducible exact Touches.refl _ _
    | (apply Touches.andThen (qs := [.mu]); with_reducible exact touches_muInputReturn _)
    | decide

theorem touches_execMuRecordTimeout (s : State) (t : State) (h : execMuRecordTimeout s = .next t) :
    Touches [.mu] s t := by
  unfold execMuRecordTimeout at h
  obtain rfl := next_inj h
  repeat' first
    | with_reducible assumption
    | with_reducible exact Touches.refl _ _
    | (apply Touches.andThen (qs := [.mu]); with_reducible exact touches_muRecordTimeout _)
    | decide

theorem touches_execMuSealOpen (s : State) (t : State) (h : execMuSealOpen s = .next t) :
    Touches [.mu] s t := by
  unfold execMuSealOpen at h
  obtain rfl := next_inj h
  repeat' first
    | with_reducible assumption
    | with_reducible exact Touches.refl _ _
    | (apply Touches.andThen (qs := [.mu]); with_reducible exact touches_muSealOpen _)
    | decide

theorem touches_execMuFirmwareLoad (ok : Bool) (version : BitVec 32) (digest : BitVec 256) (s : State) (t : State) (h : execMuFirmwareLoad ok version digest s = .next t) :
    Touches [.mu] s t := by
  unfold execMuFirmwareLoad at h
  obtain rfl := next_inj h
  repeat' first
    | with_reducible assumption
    | with_reducible exact Touches.refl _ _
    | (apply Touches.andThen (qs := [.mu]); with_reducible exact touches_muFirmwareLoad _ _ _ _)
    | decide

theorem touches_execModuleInsertion (mv : BitVec 32) (s : State) (t : State) (h : execModuleInsertion mv s = .next t) :
    Touches [.power, .mu, .pins] s t := by
  unfold execModuleInsertion at h
  obtain rfl := next_inj h
  repeat' first
    | with_reducible assumption
    | with_reducible exact Touches.refl _ _
    | (apply Touches.andThen (qs := [.power, .mu, .pins]); with_reducible exact touches_moduleInsertion _ _)
    | decide

theorem touches_execInputSettled (s : State) (t : State) (h : execInputSettled s = .next t) :
    Touches [.pins] s t := by
  unfold execInputSettled at h
  obtain rfl := next_inj h
  repeat' first
    | with_reducible assumption
    | with_reducible exact Touches.refl _ _
    | (apply Touches.andThen (qs := [.pins]); with_reducible exact touches_inputSettled _)
    | decide

theorem touches_execModResetAssert (s : State) (t : State) (h : execModResetAssert s = .next t) :
    Touches [.bytes, .tiers, .fab, .power, .pins, .freeCtr] s t := by
  unfold execModResetAssert at h
  obtain rfl := next_inj h
  repeat' first
    | with_reducible assumption
    | with_reducible exact Touches.refl _ _
    | (apply Touches.andThen (qs := [.bytes, .tiers, .fab, .power, .pins, .freeCtr]); with_reducible exact touches_modResetAssert _)
    | decide

theorem touches_execResetDeadline (s : State) (t : State) (h : execResetDeadline s = .next t) :
    Touches [.cores, .shelves, .bytes, .granules, .tiers, .ctxs, .media, .host, .fab, .sec, .ledger, .bring, .power, .imprint, .pins, .mgmt, .latches, .freeCtr] s t := by
  unfold execResetDeadline at h
  obtain rfl := next_inj h
  repeat' first
    | with_reducible assumption
    | with_reducible exact Touches.refl _ _
    | (apply Touches.andThen (qs := [.cores, .shelves, .bytes, .granules, .tiers, .ctxs, .media, .host, .fab, .sec, .ledger, .bring, .power, .imprint, .pins, .mgmt, .latches, .freeCtr]); with_reducible exact touches_resetDeadline _)
    | decide

theorem touches_execModResetRelease (s : State) (t : State) (h : execModResetRelease s = .next t) :
    Touches [.host, .bring, .power, .pins] s t := by
  unfold execModResetRelease at h
  obtain rfl := next_inj h
  repeat' first
    | with_reducible assumption
    | with_reducible exact Touches.refl _ _
    | (apply Touches.andThen (qs := [.host, .bring, .power, .pins]); with_reducible exact touches_modResetRelease _)
    | decide

theorem touches_execTripRelease (s : State) (t : State) (h : execTripRelease s = .next t) :
    Touches [.host, .bring, .power, .pins] s t := by
  unfold execTripRelease at h
  obtain rfl := next_inj h
  repeat' first
    | with_reducible assumption
    | with_reducible exact Touches.refl _ _
    | (apply Touches.andThen (qs := [.host, .bring, .power, .pins]); with_reducible exact touches_tripRelease _)
    | decide

theorem touches_execRegulatorFault (s : State) (t : State) (h : execRegulatorFault s = .next t) :
    Touches [.pins] s t := by
  unfold execRegulatorFault at h
  obtain rfl := next_inj h
  repeat' first
    | with_reducible assumption
    | with_reducible exact Touches.refl _ _
    | (apply Touches.andThen (qs := [.pins]); with_reducible exact touches_regulatorFault _)
    | decide

theorem touches_execMuReseal (s : State) (t : State) (h : execMuReseal s = .next t) :
    Touches [.mu] s t := by
  unfold execMuReseal at h
  obtain rfl := next_inj h
  repeat' first
    | with_reducible assumption
    | with_reducible exact Touches.refl _ _
    | (apply Touches.andThen (qs := [.mu]); with_reducible exact touches_muReseal _)
    | decide

end Sys2Proof.Machine
end

