-- ==== Sys2Proof/Laws/TouchStageCmd.lean ====
section
/-!
SUPPORT. What each command of Machine/CmdStage.lean touches.
-/

set_option linter.unusedTactic false
set_option linter.unreachableTactic false

namespace Sys2Proof.Machine

theorem touches_execStreamWord (ctx : Nat) (stream : Nat) (consumer : Nat) (ecc : Ecc) (s : State) (t : State) (h : execStreamWord ctx stream consumer ecc s = .next t) :
    Touches [.cores, .shelves, .bytes, .tiers, .ctxs, .fab, .bring, .freeCtr] s t := by
  unfold execStreamWord at h
  obtain rfl := next_of_withUnit h
  repeat' first
    | with_reducible assumption
    | with_reducible exact Touches.refl _ _
    | (apply Touches.andThen (qs := [.cores, .bytes, .tiers, .ctxs, .fab, .freeCtr]); with_reducible exact touches_stream _ _)
    | (apply Touches.andThen (qs := [.ctxs, .fab, .freeCtr]); with_reducible exact touches_returnCredits _)
    | (apply Touches.andThen (qs := [.cores, .shelves, .bytes, .tiers, .ctxs, .fab, .bring, .freeCtr]); with_reducible exact touches_streamWord _ _ _ _ _)
    | decide

theorem touches_execTensorHeaderEmit (core : Nat) (port : Nat) (s : State) (t : State) (h : execTensorHeaderEmit core port s = .next t) :
    Touches [.cores, .ctxs] s t := by
  unfold execTensorHeaderEmit at h
  obtain rfl := next_of_withUnit h
  repeat' first
    | with_reducible assumption
    | with_reducible exact Touches.refl _ _
    | (apply Touches.andThen (qs := [.cores, .ctxs]); with_reducible exact touches_emitHead _ _ _)
    | decide

theorem touches_execPassStart (core : Nat) (s : State) (t : State) (h : execPassStart core s = .next t) :
    Touches [.cores, .ctxs] s t := by
  unfold execPassStart at h
  obtain rfl := next_of_withUnit h
  repeat' first
    | with_reducible assumption
    | with_reducible exact Touches.refl _ _
    | (apply Touches.andThen (qs := [.cores, .ctxs]); with_reducible exact touches_passStart _ _)
    | decide

theorem touches_execStagingFill (core : Nat) (s : State) (t : State) (h : execStagingFill core s = .next t) :
    Touches [.cores] s t := by
  unfold execStagingFill at h
  obtain rfl := next_of_withUnit h
  repeat' first
    | with_reducible assumption
    | with_reducible exact Touches.refl _ _
    | (apply Touches.andThen (qs := [.cores]); with_reducible exact touches_stagingFill _ _)
    | decide

theorem touches_execStagingFillDone (core : Nat) (s : State) (t : State) (h : execStagingFillDone core s = .next t) :
    Touches [.cores, .ctxs, .host, .fab, .power, .freeCtr] s t := by
  unfold execStagingFillDone at h
  obtain rfl := next_of_withUnit h
  repeat' first
    | with_reducible assumption
    | with_reducible exact Touches.refl _ _
    | (apply Touches.andThen (qs := [.cores]); with_reducible exact touches_stagingFillDone _ _)
    | (apply Touches.andThen (qs := [.ctxs, .host, .fab, .power, .freeCtr]); with_reducible exact touches_settle _ _)
    | decide

theorem touches_execStallCycle (core : Nat) (advanced : Bool) (timed : BitVec 12) (s : State) (t : State) (h : execStallCycle core advanced timed s = .next t) :
    Touches [.cores] s t := by
  unfold execStallCycle at h
  obtain rfl := next_of_withUnit h
  repeat' first
    | with_reducible assumption
    | with_reducible exact Touches.refl _ _
    | (apply Touches.andThen (qs := [.cores]); with_reducible exact touches_stallCycle _ _ _ _)
    | decide

theorem touches_execWedged (core : Nat) (s : State) (t : State) (h : execWedged core s = .next t) :
    Touches [.cores, .shelves] s t := by
  unfold execWedged at h
  obtain rfl := next_of_withUnit h
  repeat' first
    | with_reducible assumption
    | with_reducible exact Touches.refl _ _
    | (apply Touches.andThen (qs := [.cores, .shelves]); with_reducible exact touches_wedge _ _)
    | decide

theorem touches_execWedgedReport (shelf : Nat) (s : State) (t : State) (h : execWedgedReport shelf s = .next t) :
    Touches [.shelves] s t := by
  unfold execWedgedReport at h
  obtain rfl := next_of_withUnit h
  repeat' first
    | with_reducible assumption
    | with_reducible exact Touches.refl _ _
    | (apply Touches.andThen (qs := [.shelves]); with_reducible exact touches_wedgedReport _ _)
    | decide

theorem touches_execEscapeConfirm (shelf : Nat) (s : State) (t : State) (h : execEscapeConfirm shelf s = .next t) :
    Touches [.cores, .shelves, .ctxs] s t := by
  unfold execEscapeConfirm at h
  obtain rfl := next_of_withUnit h
  repeat' first
    | with_reducible assumption
    | with_reducible exact Touches.refl _ _
    | (apply Touches.andThen (qs := [.cores, .shelves, .ctxs]); with_reducible exact touches_escapeConfirm _ _)
    | decide

theorem touches_execGatherIndex (core : Nat) (s : State) (t : State) (h : execGatherIndex core s = .next t) :
    Touches [.cores, .tiers, .ctxs] s t := by
  unfold execGatherIndex at h
  obtain rfl := next_of_withUnit h
  repeat' first
    | with_reducible assumption
    | with_reducible exact Touches.refl _ _
    | (apply Touches.andThen (qs := [.cores, .tiers, .ctxs]); with_reducible exact touches_gatherIndex _ _)
    | decide

theorem touches_execRouteTensor (core : Nat) (s : State) (t : State) (h : execRouteTensor core s = .next t) :
    Touches [.cores, .ctxs] s t := by
  unfold execRouteTensor at h
  obtain rfl := next_of_withUnit h
  repeat' first
    | with_reducible assumption
    | with_reducible exact Touches.refl _ _
    | (apply Touches.andThen (qs := [.cores, .ctxs]); with_reducible exact touches_routeTensor _ _)
    | decide

theorem touches_execVectorElement (core : Nat) (s : State) (t : State) (h : execVectorElement core s = .next t) :
    Touches [.cores, .tiers, .ctxs] s t := by
  unfold execVectorElement at h
  obtain rfl := next_of_withUnit h
  repeat' first
    | with_reducible assumption
    | with_reducible exact Touches.refl _ _
    | (apply Touches.andThen (qs := [.cores, .tiers, .ctxs]); with_reducible exact touches_vectorElement _ _)
    | decide

end Sys2Proof.Machine
end

