-- ==== Sys2Proof/Laws/TouchTrainCmd.lean ====
section
/-!
SUPPORT. What each command of Machine/CmdTrain.lean touches.
-/

set_option linter.unusedTactic false
set_option linter.unreachableTactic false

namespace Sys2Proof.Machine

theorem touches_execVerdictBarrier (ctx : Nat) (s : State) (t : State) (h : execVerdictBarrier ctx s = .next t) :
    Touches [.cores, .ctxs, .media] s t := by
  unfold execVerdictBarrier at h
  obtain rfl := next_of_withUnit h
  repeat' first
    | with_reducible assumption
    | with_reducible exact Touches.refl _ _
    | (apply Touches.andThen (qs := [.cores, .ctxs, .media]); with_reducible exact touches_verdictBarrier _ _)
    | decide

theorem touches_execVerdictReceived (ctx : Nat) (code : Nat) (s : State) (t : State) (h : execVerdictReceived ctx code s = .next t) :
    Touches [.cores, .ctxs, .fab, .freeCtr] s t := by
  unfold execVerdictReceived at h
  obtain rfl := next_of_withUnit h
  repeat' first
    | with_reducible assumption
    | with_reducible exact Touches.refl _ _
    | (apply Touches.andThen (qs := [.cores, .ctxs, .fab, .freeCtr]); with_reducible exact touches_verdictReceived _ _ _)
    | decide

theorem touches_execEndOfStepBarrier (ctx : Nat) (s : State) (t : State) (h : execEndOfStepBarrier ctx s = .next t) :
    Touches [.cores, .shelves, .ctxs, .media, .host, .fab, .bring, .power, .freeCtr] s t := by
  unfold execEndOfStepBarrier at h
  obtain rfl := next_of_withUnit h
  repeat' first
    | with_reducible assumption
    | with_reducible exact Touches.refl _ _
    | (apply Touches.andThen (qs := [.cores, .shelves, .ctxs, .media, .fab, .bring, .freeCtr]); with_reducible exact touches_endOfStepBarrier _ _)
    | (apply Touches.andThen (qs := [.ctxs, .host, .fab, .power, .freeCtr]); with_reducible exact touches_settle _ _)
    | decide

theorem touches_execLayerUpdate (core : Nat) (s : State) (t : State) (h : execLayerUpdate core s = .next t) :
    Touches [.cores, .bytes, .tiers, .ctxs] s t := by
  unfold execLayerUpdate at h
  obtain rfl := next_of_withUnit h
  repeat' first
    | with_reducible assumption
    | with_reducible exact Touches.refl _ _
    | (apply Touches.andThen (qs := [.cores, .bytes, .tiers, .ctxs]); with_reducible exact touches_layerUpdate _ _)
    | decide

theorem touches_execLossTensor (core : Nat) (s : State) (t : State) (h : execLossTensor core s = .next t) :
    Touches [.cores, .ctxs] s t := by
  unfold execLossTensor at h
  obtain rfl := next_of_withUnit h
  repeat' first
    | with_reducible assumption
    | with_reducible exact Touches.refl _ _
    | (apply Touches.andThen (qs := [.cores, .ctxs]); with_reducible exact touches_lossTensor _ _)
    | decide

end Sys2Proof.Machine
end

