-- ==== Sys2Proof/Laws/FactsContext.lean ====
section
/-!
SUPPORT. What leaves a context as it was: answers of commands, core updates, and the operations that a view of a context does not
see.
-/

open Sys2Proof Sys2Proof.Machine Sys2Proof.Claims

namespace Sys2Proof.Laws
theorem nxt {i : Instr} {s t : State} {P : State → Prop} (h : exec i s = .next t) (hp : P t) : Answers i s P := ⟨t, h, hp⟩
theorem coresBut_modCore (s : State) (n : Nat) (f : Core → Core) : CoresBut n s (s.modCore n f) := fun k h => core_modCore_other s n k f h
theorem foldl_tset {α : Type} : ∀ (vs : List α) (t : Tbl α) (base n : Nat) (k : Nat),
    tget ((vs.zipIdx n).foldl (fun m v => tset m (base + v.2) v.1) t) k =
      if base + n ≤ k ∧ k < base + n + vs.length then vs[k - base - n]? else tget t k
  | [], t, base, n, k => by simp
  | v :: vs, t, base, n, k => by
    simp only [List.zipIdx_cons, List.foldl_cons]
    rw [foldl_tset vs _ base (n+1) k]
    by_cases h : k = base + n
    · subst h; simp
    · rw [tget_tset_other _ _ _ _ h]
      by_cases h2 : base + (n + 1) ≤ k ∧ k < base + (n + 1) + vs.length
      · rw [if_pos h2, if_pos (by simp; omega)]
        have : k - base - n = (k - base - (n+1)) + 1 := by omega
        rw [this]; rfl
      · rw [if_neg h2, if_neg (by simp; omega)]
theorem tset_tset {α : Type} (t : Tbl α) (k : Nat) (v w : α) : tset (tset t k v) k w = tset t k w := by
  induction t with
  | nil => simp [tset]
  | cons e t ih =>
    obtain ⟨j, x⟩ := e
    simp only [tset]
    split
    · simp [tset]
    · split
      · simp [tset]
      · rename_i h1 h2; simp [tset, h1, h2, ih]
theorem modCore_modCore (s : State) (n : Nat) (f g : Core → Core) : (s.modCore n f).modCore n g = s.modCore n fun c => g (f c) := by
  simp [State.modCore, State.setCore, tset_tset, State.core]
theorem modCore_congr {s : State} {n : Nat} {f g : Core → Core} (h : f (s.core n) = g (s.core n)) : s.modCore n f = s.modCore n g := by
  simp [State.modCore, h]
theorem next_congr {s t : State} (h : s = t) : (Host.Outcome.next s : Out) = .next t := by rw [h]
theorem contextFault_ctx (s : State) (c : Nat) (f : FaultRec) : ((contextFault s c f).ctx c).faults = (s.ctx c).faults + 1 ∧
    ((s.ctx c).fault = none → ((contextFault s c f).ctx c).fault = some f) ∧ ((s.ctx c).tear = none → ((contextFault s c f).ctx c).tear = some ⟨.fault, false⟩) := by
  refine ⟨by simp [contextFault], ?_, ?_⟩ <;> intro h <;> simp [contextFault, h]
theorem stopStage_facts (s : State) (core : Nat) (n : StopName) (a : Nat) :
    CoresBut core s (stopStage s core n a) ∧ ((stopStage s core n a).core core).stage.st = .stopped ∧
    ((stopStage s core n a).ctx (s.core core).stage.ctx).faults = (s.ctx (s.core core).stage.ctx).faults + 1 ∧
    ((s.ctx (s.core core).stage.ctx).fault = none → ((stopStage s core n a).ctx (s.core core).stage.ctx).fault = some ⟨n, some core, stopSource n, a⟩) ∧ (stopStage s core n a).mem = s.mem := by
  unfold stopStage
  have := contextFault_ctx (s.modCore core fun c => { c with stage := { c.stage with st := .stopped }, arr := { c.arr with flight := [], held := none, snaps := [] } }) (s.core core).stage.ctx ⟨n, some core, stopSource n, a⟩
  refine ⟨fun k hk => ?_, ?_, this.1, this.2.1, rfl⟩
  · simp [contextFault, hk]
  · simp [contextFault]
end Sys2Proof.Laws

namespace Sys2Proof.Laws
/-- A part of every context kept. -/
def CK {α : Type} (g : Ctx → α) (s t : State) : Prop := ∀ c, g (t.ctx c) = g (s.ctx c)
variable {α : Type} {g : Ctx → α}
theorem CK.refl (s : State) : CK g s s := fun _ => rfl
theorem CK.trans {s t u : State} (h : CK g s t) (k : CK g t u) : CK g s u := fun c => (k c).trans (h c)
theorem CK.ofCtxs {s t : State} (h : t.ctxs = s.ctxs) : CK g s t := fun c => by simp only [State.ctx, h]
theorem CK.modCtx (s : State) (c : Nat) (f : Ctx → Ctx) (hf : ∀ x, g (f x) = g x) : CK g s (s.modCtx c f) := by
  intro k
  by_cases e : k = c
  · subst e; simp [hf]
  · simp [e]
theorem CK.foldl {β : Type} {f : State → β → State} (hf : ∀ s a, CK g s (f s a)) : ∀ (l : List β) (s : State), CK g s (l.foldl f s)
  | [], s => CK.refl s
  | a :: l, s => (hf s a).trans (CK.foldl hf l _)
def Blind (g : Ctx → α) : Prop := ∀ (x : Ctx) a b c, g { x with faults := a, fault := b, tear := c } = g x
theorem CK.contextFault (hb : Blind g) (s : State) (c : Nat) (f : FaultRec) : CK g s (contextFault s c f) :=
  CK.modCtx _ _ _ fun x => hb x _ _ _
theorem CK.sendPacket (hb : Blind g) (s : State) (a : Nat) (j : BitVec 32) (c k o : Nat) (b : Blob) : CK g s (sendPacket s a j c k o b) := by
  unfold Machine.sendPacket
  dsimp only
  split
  · exact CK.ofCtxs ((touches_putTx _ _).2 .ctxs (by decide) |>.trans ((touches_admitAll _ _ _).2 .ctxs (by decide)))
  · split
    · unfold connectionFault
      split
      · exact CK.contextFault hb _ _ _
      · exact CK.refl _
    · have e : (Machine.reverseFlow s a j c).2.ctxs = s.ctxs := (touches_reverseFlow _ _ _ _).2 .ctxs (by decide)
      exact CK.ofCtxs ((touches_putTx _ _).2 .ctxs (by decide) |>.trans (((touches_admitAll _ _ _).2 .ctxs (by decide)).trans e))
theorem CK.ethSend (s : State) (h ip port hdr : Nat) (d : Blob) : CK g s (ethSend s h ip port hdr d) :=
  CK.ofCtxs ((touches_ethSend s h ip port hdr d).2 .ctxs (by decide))
theorem CK.sendSegment (hb : Blind g) (s : State) (c e hdr : Nat) (d : Blob) : CK g s (sendSegment s c e hdr d) := by
  unfold Machine.sendSegment
  dsimp only
  split
  · split
    · exact CK.sendPacket hb _ _ _ _ _ _ _
    · exact CK.refl _
  · exact CK.ethSend _ _ _ _ _ _
theorem CK.flushCredits (hb : Blind g) (a b : State) : CK g b (flushCredits a b) := by
  unfold Machine.flushCredits
  exact CK.foldl (fun s x => CK.foldl (fun s r => CK.sendSegment hb _ _ _ _ _) _ _) _ _
theorem CK.sendChecks (hb : Blind g) (s : State) (c : Nat) : CK g s (sendChecks s c) := by
  unfold Machine.sendChecks
  split
  · exact CK.refl _
  · refine CK.foldl (fun s e => CK.foldl (fun s k => ?_) _ _) _ _
    split
    · exact CK.sendPacket hb _ _ _ _ _ _ _
    · exact CK.refl _
def LoadBlind (g : Ctx → α) : Prop := ∀ (x : Ctx) a b c d l, g { x with loading := a, st := b, standby := c, lastEvent := d, led := l } = g x
theorem CK.settleLoad (hb : Blind g) (hl : LoadBlind g) (s : State) (c : Nat) : CK g s (settleLoad s c) := by
  unfold Machine.settleLoad
  dsimp only
  have m1 : ∀ (s : State), CK g s (s.modCtx c fun x => { x with loading := false, st := .loaded }) := fun s =>
    CK.modCtx s c _ fun x => hl x false .loaded x.standby x.lastEvent x.led
  have m2 : ∀ (s : State), CK g s (s.modCtx c fun x => { x with standby := false }) := fun s =>
    CK.modCtx s c _ fun x => hl x x.loading x.st false x.lastEvent x.led
  have m3 : ∀ (s : State) (f : Machine.Ledger → Machine.Ledger), CK g s (s.modLed c f) := fun s f =>
    CK.modCtx s c _ fun x => hl x x.loading x.st x.standby x.lastEvent (f x.led)
  have m4 : ∀ (s : State) (e : CtxEvent) (n : BitVec 32), CK g s (ctxEvent s c e n) := fun s e n => by
    unfold Machine.ctxEvent
    refine (CK.modCtx s c (fun x => { x with lastEvent := e }) fun x => hl x x.loading x.st x.standby e x.led).trans ?_
    refine CK.ofCtxs ?_
    exact ((touches_modTaken _ _).2 .ctxs (by decide)).trans ((touches_raiseVector _ _).2 .ctxs (by decide))
  have m5 : ∀ (s : State) (n : Nat), CK g s (commitPoint s c n) := fun s n => by
    unfold Machine.commitPoint
    exact CK.modCtx s c _ fun x => hl x x.loading x.st x.standby x.lastEvent _
  split
  · exact CK.refl _
  · split
    · split
      · exact ((m1 _).trans (m2 _)).trans (m4 _ _ _)
      · exact m1 _
    · exact (((m1 _).trans (m3 _ _)).trans (CK.sendChecks hb _ _)).trans (m5 _ _)
theorem CK.settle (hb : Blind g) (hl : LoadBlind g) (a b : State) : CK g b (settle a b) := by
  unfold Machine.settle measureAt
  have h1 : CK g b (Machine.flushCredits a (settleSlips (settleLoads b))) := by
    refine CK.trans ?_ (CK.flushCredits hb _ _)
    refine CK.trans ?_ (CK.ofCtxs (by exact (touches_settleSlips _).2 .ctxs (by decide)))
    unfold settleLoads
    exact CK.foldl (fun s c => CK.settleLoad hb hl s c) _ _
  split
  · exact h1.trans (CK.ofCtxs rfl)
  · exact h1
theorem bs_modCore (s : State) (core q : Nat) (f : Core → Core) (hf : ∀ c, (f c).stage = c.stage) : boundStream (s.modCore core f) core q = boundStream s core q := by
  simp [boundStream, hf]
theorem beginOut_eq (s : State) (core p : Nat) (t : OutTensor) (hb : (boundStream s core (4 + p)).isSome = true) : beginOut s core p t = s.modCore core fun c => { c with out := tset c.out p { c.outPort p with outs := (c.outPort p).outs ++ [t] } } := by
  unfold beginOut; rw [if_pos hb]
theorem ctx_of {s t : State} (h : t.ctxs = s.ctxs) (c : Nat) : t.ctx c = s.ctx c := by simp only [State.ctx, h]
theorem core_of {s t : State} (h : t.cores = s.cores) (n : Nat) : t.core n = s.core n := by simp only [State.core, h]
end Sys2Proof.Laws

namespace Sys2Proof.Laws
end Sys2Proof.Laws
namespace Sys2Proof.Claims
theorem Moved.refl (a : Core) : Moved a a := .inl rfl
end Sys2Proof.Claims
namespace Sys2Proof.Laws
end Sys2Proof.Laws
namespace Sys2Proof.Claims
theorem Moved.trans {a b c : Core} (h : Moved a b) (k : Moved b c) : Moved a c := by
  rcases h with rfl | rfl
  · exact k
  · rcases k with rfl | rfl
    · exact .inr rfl
    · exact .inr rfl
end Sys2Proof.Claims
namespace Sys2Proof.Laws
end Sys2Proof.Laws
namespace Sys2Proof.Claims
theorem Moved.arr {a b : Core} (h : Moved a b) : b.arr = a.arr := by rcases h with rfl | rfl <;> rfl
end Sys2Proof.Claims
namespace Sys2Proof.Laws
theorem moved_word (s : State) (n k : Nat) : Moved (s.core k) ((wordMoved s n).core k) := by
  unfold wordMoved
  by_cases h : k = n
  · subst h; rw [core_modCore_self]; exact .inr rfl
  · rw [core_modCore_other _ _ _ _ h]; exact .inl rfl
theorem moved_pump (s : State) (c i k : Nat) : Moved (s.core k) ((pump s c i).core k) := by
  unfold pump
  split
  · exact .refl _
  · dsimp only
    split <;> split
    · split
      · exact moved_word (s.modStream _ _ _) _ _
      · exact .refl _
    · exact .refl _
    · split
      · exact moved_word (s.modStream _ _ _) _ _
      · exact .refl _
    · exact .refl _
def ArrKept (core : Nat) (s t : State) : Prop := CoresMoved core s t ∧ (t.core core).arr = (s.core core).arr
theorem ak_refl (core : Nat) (s : State) : ArrKept core s s := ⟨fun _ _ => .refl _, rfl⟩
theorem ak_trans {core : Nat} {s t u : State} (h : ArrKept core s t) (k : ArrKept core t u) : ArrKept core s u :=
  ⟨fun n hn => (h.1 n hn).trans (k.1 n hn), k.2.trans h.2⟩
theorem ak_mod {core : Nat} {s t : State} {f : Core → Core} (h : ArrKept core s t) (hf : ∀ c, (f c).arr = c.arr) : ArrKept core s (t.modCore core f) :=
  ⟨fun k hk => by rw [core_modCore_other _ _ _ _ hk]; exact h.1 k hk, by simp [hf, h.2]⟩
theorem ak_of {core : Nat} {s t : State} (h : ∀ k, Moved (s.core k) (t.core k)) : ArrKept core s t := ⟨fun k _ => h k, (h core).arr⟩
theorem ak_ite {core : Nat} {s t u : State} {p : Prop} [Decidable p] (h : ArrKept core s t) (g : ArrKept core s u) : ArrKept core s (if p then t else u) := by
  split <;> assumption
theorem ak_release {core : Nat} {s t : State} (q : Nat) (h : ArrKept core s t) : ArrKept core s (releaseIn t core q) := by
  refine ak_trans h ?_
  unfold releaseIn
  have h1 : ArrKept core t (t.modCore core fun c => { c with inp := tset c.inp q InPort.empty }) := ak_mod (ak_refl _ _) fun _ => rfl
  dsimp only
  split
  · split
    · exact h1
    · exact ak_trans h1 (ak_of fun k => moved_pump (State.modStream _ _ _ _) _ _ k)
  · exact h1
theorem ak_end {core : Nat} {s t : State} (h : ArrKept core s t) : ArrKept core s (endWindow t core) := by
  refine ak_trans h ?_
  unfold endWindow
  dsimp only
  split
  · split
    · exact ak_release 0 (ak_mod (ak_refl _ _) fun _ => rfl)
    · exact ak_refl _ _
  · exact ak_refl _ _
end Sys2Proof.Laws
end

