-- ==== Sys2Proof/Laws/FactsLink.lean ====
section
/-!
SUPPORT. What the operations of the fabric leave of each link, and what taking a packet does.
-/

open Sys2Proof Sys2Proof.Machine Sys2Proof.Claims

namespace Sys2Proof.Laws
end Sys2Proof.Laws
namespace Sys2Proof.Claims
theorem OnlySends.refl (a : Link) : OnlySends a a := ⟨a.tx, a.ctr.droppedNoLink, rfl⟩
end Sys2Proof.Claims
namespace Sys2Proof.Laws
end Sys2Proof.Laws
namespace Sys2Proof.Claims
theorem OnlySends.trans {a b c : Link} (h : OnlySends a b) (k : OnlySends b c) : OnlySends a c := by
  obtain ⟨t, d, rfl⟩ := h
  obtain ⟨t', d', rfl⟩ := k
  exact ⟨t', d', rfl⟩
end Sys2Proof.Claims
namespace Sys2Proof.Laws
structure FS (s t : State) : Prop where
  links : ∀ h, OnlySends (s.link h) (t.link h)
  fab : ∃ L T n, t.fab = { s.fab with links := L, tx := T, lostReports := n }
theorem link_of {s t : State} (h : t.fab = s.fab) (k : Nat) : t.link k = s.link k := by simp only [State.link, h]
theorem FS.of {s t : State} (h : t.fab = s.fab) : FS s t := ⟨fun k => by rw [link_of h]; exact .refl _, ⟨s.fab.links, s.fab.tx, s.fab.lostReports, by rw [h]⟩⟩
theorem FS.refl (s : State) : FS s s := FS.of rfl
theorem FS.trans {s t u : State} (h : FS s t) (k : FS t u) : FS s u := by
  refine ⟨fun x => (h.links x).trans (k.links x), ?_⟩
  obtain ⟨L, T, n, e⟩ := h.fab
  obtain ⟨L', T', n', e'⟩ := k.fab
  exact ⟨L', T', n', by rw [e', e]⟩
theorem FS.foldl {β : Type} {f : State → β → State} (hf : ∀ s a, FS s (f s a)) : ∀ (l : List β) (s : State), FS s (l.foldl f s)
  | [], s => FS.refl s
  | a :: l, s => (hf s a).trans (FS.foldl hf l _)
theorem link_modLink_self (s : State) (h : Nat) (f : Link → Link) : (s.modLink h f).link h = f (s.link h) := by
  simp [State.modLink, State.setLink, State.modFab, State.link]
theorem link_modLink_other (s : State) (h k : Nat) (f : Link → Link) (hk : k ≠ h) : (s.modLink h f).link k = s.link k := by
  simp only [State.modLink, State.setLink, State.modFab, State.link, tgetD]
  rw [tget_tset_other _ _ _ _ hk]
theorem FS.modLink (s : State) (h : Nat) (f : Link → Link) (hf : ∀ l, OnlySends l (f l)) : FS s (s.modLink h f) := by
  refine ⟨fun k => ?_, ⟨_, s.fab.tx, s.fab.lostReports, rfl⟩⟩
  by_cases e : k = h
  · subst e; rw [link_modLink_self]; exact hf _
  · rw [link_modLink_other _ _ _ _ e]; exact .refl _
theorem FS.enqueue (s : State) (h v : Nat) (p : Pkt) : FS s (enqueue s h v p) := FS.modLink _ _ _ fun l => ⟨_, l.ctr.droppedNoLink, rfl⟩
theorem FS.dropped (s : State) (h : Nat) : FS s (s.modLinkCtr h fun k => { k with droppedNoLink := k.droppedNoLink + 1 }) := FS.modLink _ _ _ fun l => ⟨l.tx, _, rfl⟩
theorem FS.sendMgmt (s : State) (h k o : Nat) (b : Blob) : FS s (sendMgmt s h k o b) := FS.enqueue _ _ _ _
theorem FS.floodRecord (s : State) (f : Option Nat) (r : BitVec 1728) : FS s (floodRecord s f r) := by
  unfold Machine.floodRecord
  refine FS.foldl (fun s h => ?_) _ _
  split
  · exact FS.sendMgmt _ _ _ _ _
  · exact FS.refl _
theorem FS.transmit (s : State) (a b c d : Nat) (p : Path) (t : BitVec 32) (x : Blob) (j : BitVec 32) (o : Nat) : FS s (transmit s a b c d p t x j o) := by
  unfold Machine.transmit
  dsimp only
  split
  · exact FS.dropped _ _
  · exact FS.enqueue _ _ _ _
theorem FS.admitAll : ∀ (n : Nat) (s : State) (c : TxConn), FS s (admitAll n s c).1
  | 0, s, c => FS.refl s
  | n + 1, s, c => by
    unfold Machine.admitAll
    split
    · dsimp only
      refine FS.trans ?_ (FS.admitAll n _ _)
      split
      · exact FS.transmit _ _ _ _ _ _ _ _ _ _
      · exact FS.refl _
    · exact FS.refl _
theorem FS.modTx (s : State) (g : List TxConn → List TxConn) : FS s (s.modFab fun x => { x with tx := g x.tx }) :=
  ⟨fun k => ⟨_, _, rfl⟩, ⟨s.fab.links, _, s.fab.lostReports, rfl⟩⟩
theorem FS.putTx (s : State) (c : TxConn) : FS s (putTx s c) := FS.modTx s _
theorem FS.sendPacket (s : State) (a : Nat) (j : BitVec 32) (c k o : Nat) (b : Blob) : FS s (sendPacket s a j c k o b) := by
  unfold Machine.sendPacket
  dsimp only
  split
  · exact (FS.admitAll _ _ _).trans (FS.putTx _ _)
  · split
    · exact FS.of ((touches_connectionFault _ _).2 .fab (by decide))
    · have e : (Machine.reverseFlow s a j c).2.fab = s.fab := (touches_reverseFlow _ _ _ _).2 .fab (by decide)
      exact ((FS.of e).trans (FS.modTx _ fun x => x ++ [_])).trans ((FS.admitAll _ _ _).trans (FS.putTx _ _))
theorem FS.sendWrite (s : State) (a : Nat) (j : BitVec 32) (b : Blob) : FS s (sendWrite s a j b) := by
  unfold Machine.sendWrite
  dsimp only
  exact FS.trans (t := (s.free 44).2) (FS.of rfl) (FS.sendPacket _ _ _ _ _ _ _)
theorem FS.modLed (s : State) (c : Nat) (f : Machine.Ledger → Machine.Ledger) : FS s (s.modLed c f) := FS.of rfl
theorem FS.sendCtrlTo (s : State) (c a : Nat) (k : Ctrl) : FS s (sendCtrlTo s c a k) := by
  unfold Machine.sendCtrlTo
  dsimp only
  split
  · exact FS.of rfl
  · exact FS.trans (t := s.modLed c fun l => { l with sent := l.sent ++ [(a, k)] }) (FS.of rfl) (FS.sendWrite _ _ _ _)
theorem FS.sendCtrl (s : State) (c d : Nat) (k : Ctrl) : FS s (sendCtrl s c d k) := by
  unfold Machine.sendCtrl
  split
  · exact FS.sendCtrlTo _ _ _ _
  · exact FS.refl _
theorem FS.report (s : State) (c a b d : Nat) : FS s (report s c a b d) := FS.sendCtrl _ _ _ _
theorem FS.haltJob (s : State) (c a : Nat) : FS s (haltJob s c a) := FS.of ((touches_haltJob s c a).2 .fab (by decide))
theorem FS.bindNext (s : State) (c : Nat) : FS s (bindNext s c) := by
  unfold Machine.bindNext
  split
  · exact FS.refl _
  · split
    · exact FS.refl _
    · split
      · dsimp only
        exact FS.trans (FS.modLed s c _) (FS.sendCtrlTo _ _ _ _)
      · dsimp only
        split
        · exact FS.modLed s c _
        · exact FS.trans (FS.modLed s c _) (FS.haltJob _ _ _)
theorem FS.recordsDone (s : State) (l : List Nat) : FS s (recordsDone s l) := by
  unfold Machine.recordsDone
  refine FS.foldl (fun s c => ?_) _ _
  dsimp only
  generalize hs1 : List.foldl _ s _ = s1
  have h1 : FS s s1 := by
    subst hs1
    refine FS.foldl (fun s a => ?_) _ _
    exact FS.trans (FS.modLed s c _) (FS.sendCtrlTo _ _ _ _)
  split
  · split
    · exact h1
    · exact h1.trans ((FS.bindNext _ _).trans (FS.modLed _ _ _))
  · exact h1
theorem FS.afterRecords (a b : State) : FS b (afterRecords a b) := by
  unfold Machine.afterRecords
  dsimp only
  refine FS.trans ?_ (FS.recordsDone _ _)
  split
  · refine FS.foldl (fun s c => ?_) _ _
    split
    · exact FS.refl _
    · exact FS.report _ _ _ _ _
  · exact FS.refl _
theorem FS.fabricStep (s : State) (f : State → State) : FS (f s) (fabricStep s f) := by
  unfold Machine.fabricStep
  exact (FS.afterRecords s (f s)).trans (FS.of ((touches_hostStatus _ _).2 .fab (by decide)))
/-- Links but for what sending changes. -/
def LS (s t : State) : Prop := ∀ h, OnlySends (s.link h) (t.link h)
theorem LS.trans {s t u : State} (h : LS s t) (k : LS t u) : LS s u := fun x => (h x).trans (k x)
theorem LS.refl (s : State) : LS s s := fun _ => .refl _
theorem LS.ofLinks {s t : State} (h : t.fab.links = s.fab.links) : LS s t := fun k => by simp only [State.link, h]; exact .refl _
theorem LS.refreshOwn (s : State) : LS s (refreshOwn s) := by
  unfold Machine.refreshOwn
  split
  · exact .refl _
  · split
    · split
      · exact .refl _
      · dsimp only
        refine LS.trans (t := s.modFab _) (LS.ofLinks ?_) (FS.floodRecord _ _ _).links
        rfl
    · dsimp only
      refine LS.trans (t := s.modFab _) (LS.ofLinks ?_) (FS.floodRecord _ _ _).links
      rfl
end Sys2Proof.Laws
namespace Sys2Proof.Claims
theorem OnlySends.st {a b : Link} (h : OnlySends a b) : b.st = a.st := by obtain ⟨_, _, rfl⟩ := h; rfl
end Sys2Proof.Claims
namespace Sys2Proof.Laws
theorem tryReady_other (s : State) (k h : Nat) (hs : (s.link h).st ≠ .notReady) : OnlySends (s.link h) ((tryReady s k).link h) := by
  unfold Machine.tryReady
  dsimp only
  split
  · rename_i hc
    refine OnlySends.trans ?_ (LS.refreshOwn _ h)
    by_cases e : h = k
    · subst e; simp at hc; exact absurd hc.1.1 hs
    · rw [link_modLink_other _ _ _ _ e]; exact .refl _
  · exact .refl _
theorem tryReadyAll_other (s : State) (h : Nat) (hs : (s.link h).st ≠ .notReady) : OnlySends (s.link h) ((tryReadyAll s).link h) := by
  unfold Machine.tryReadyAll
  generalize linkNumbers = l
  induction l generalizing s with
  | nil => exact .refl _
  | cons a l ih =>
    rw [List.foldl_cons]
    have := tryReady_other s a h hs
    exact this.trans (ih _ (by rw [this.st]; exact hs))
theorem wantKey_link (s : State) (k : KeyId) (h : Nat) : (wantKey s k).link h = s.link h := rfl
theorem destroyKey_link (s : State) (k : KeyId) (h : Nat) : (destroyKey s k).link h = s.link h := rfl
theorem setLink_self (s : State) (h : Nat) (l : Link) : (s.setLink h l).link h = l := by simp [State.setLink, State.modFab, State.link]
theorem linkDown_link (s : State) (h : Nat) : OnlySends ((s.link h).cleared (if (s.link h).signal && !(s.link h).retryWait && !(s.link h).mismatchWait then .training else .down)) ((linkDown s h).link h) := by
  unfold Machine.linkDown
  dsimp only
  have h1 : ∀ (x : State) (l : Link), (l.st ≠ .notReady) → OnlySends l ((tryReadyAll (Machine.refreshOwn (x.setLink h l))).link h) := by
    intro x l hl
    have a := LS.refreshOwn (x.setLink h l) h
    rw [setLink_self] at a
    exact a.trans (tryReadyAll_other _ _ (by rw [a.st]; exact hl))
  apply h1
  simp only [Link.cleared]; split <;> simp
end Sys2Proof.Laws
namespace Sys2Proof.Laws
theorem FO (s : State) (f : State → State) (h : Nat) : OnlySends ((f s).link h) ((fabricStep s f).link h) := (FS.fabricStep s f).links h
theorem secStep (s : State) (f : State → State) : (fabricStep s f).sec = (f s).sec :=
  ((touches_hostStatus _ _).2 .sec (by decide)).trans ((touches_afterRecords _ _).2 .sec (by decide))
theorem setLink_other (s : State) (h k : Nat) (l : Link) (hk : k ≠ h) : (s.setLink h l).link k = s.link k := by
  simp only [State.setLink, State.modFab, State.link, tgetD]; rw [tget_tset_other _ _ _ _ hk]
theorem slots_destroy (x : Sec) (k : KeyId) (p : Nat × KeySlot) : p ∈ (x.destroy k).slots ↔ p ∈ x.slots ∧ p.2.key ≠ k := by
  simp [Sec.destroy, List.mem_filter]
theorem linkDown_secEq (s : State) (h : Nat) : (linkDown s h).sec = (((s.sec.destroy (.hop h 0)).destroy (.hop h 1)).destroy (.ephemeral h)) := by
  unfold linkDown
  dsimp only
  rw [(touches_tryReadyAll _).2 .sec (by decide), (touches_refreshOwn _).2 .sec (by decide)]
  rfl
theorem linkDown_sec (s : State) (h : Nat) : KeyGone (.hop h 0) (linkDown s h) ∧ KeyGone (.hop h 1) (linkDown s h) ∧ KeyGone (.ephemeral h) (linkDown s h) := by
  have := linkDown_secEq s h
  unfold KeyGone
  rw [this]
  refine ⟨fun p hp => ?_, fun p hp => ?_, fun p hp => ?_⟩ <;> simp only [slots_destroy] at hp
  · exact hp.1.1.2
  · exact hp.1.2
  · exact hp.2
theorem wentDown (s s0 : State) (f : State → State) (h : Nat) (he : f s0 = linkDown s h) : WentDown h (fabricStep s0 f) ∧ 
   ((fabricStep s0 f).link h).st = (if (s.link h).signal && !(s.link h).retryWait && !(s.link h).mismatchWait then .training else .down) ∧
   ((fabricStep s0 f).link h).signal = (s.link h).signal ∧
   (∃ d, ((fabricStep s0 f).link h).ctr = { (s.link h).ctr with droppedNoLink := d }) ∧
   ((fabricStep s0 f).link h).aborts = (s.link h).aborts ∧ ((fabricStep s0 f).link h).retryWait = (s.link h).retryWait ∧ ((fabricStep s0 f).link h).mismatchWait = (s.link h).mismatchWait := by
  have a := (FS.fabricStep s0 f).links h
  rw [he] at a
  have b := (linkDown_link s h).trans a
  obtain ⟨t, d, e⟩ := b
  have k := linkDown_sec s h
  refine ⟨⟨by rw [e]; rfl, by rw [e]; rfl, by rw [e]; rfl, by rw [e]; rfl, ?_, ?_, ?_⟩, by rw [e]; rfl, ?_, ⟨d, by rw [e]; rfl⟩, by rw [e]; rfl, by rw [e]; rfl, by rw [e]; rfl⟩
  · unfold KeyGone; rw [secStep, he]; exact k.1
  · unfold KeyGone; rw [secStep, he]; exact k.2.1
  · unfold KeyGone; rw [secStep, he]; exact k.2.2
  · rw [e]; rfl
end Sys2Proof.Laws
namespace Sys2Proof.Laws
theorem takePacket_facts {s s1 : State} {h k : Nat} {p : Pkt} (e : takePacket s h k = some (p, s1)) : ∃ L, s1 = { s with fab := { s.fab with links := L } } := by
  unfold takePacket at e
  split at e
  · injection e with e
    injection e with e1 e2
    subst e2
    unfold freeFlits
    split <;> exact ⟨_, rfl⟩
  · cases e
structure OnlyFab (s t : State) : Prop where
  eq : t = { s with fab := t.fab }
  fs : FS s t
theorem OnlyFab.refl (s : State) : OnlyFab s s := ⟨rfl, FS.refl s⟩
theorem OnlyFab.trans {s t u : State} (h : OnlyFab s t) (k : OnlyFab t u) : OnlyFab s u := ⟨by rw [k.eq, h.eq], h.fs.trans k.fs⟩
theorem OnlyFab.transmit (s : State) (a b c d : Nat) (p : Path) (t : BitVec 32) (x : Blob) (j : BitVec 32) (o : Nat) : OnlyFab s (transmit s a b c d p t x j o) := by
  refine ⟨?_, FS.transmit _ _ _ _ _ _ _ _ _ _⟩
  unfold Machine.transmit
  dsimp only
  split
  · rfl
  · rfl
theorem transmit_tx (s : State) (a b c d : Nat) (p : Path) (t : BitVec 32) (x : Blob) (j : BitVec 32) (o : Nat) : ∃ L, (transmit s a b c d p t x j o).fab = { s.fab with links := L } := by
  unfold Machine.transmit
  dsimp only
  split
  · exact ⟨_, rfl⟩
  · exact ⟨_, rfl⟩
theorem ack_fab (s : State) (p : Pkt) (w : BitVec 8) (q : BitVec 32) : ∃ L, sendAck s p w q = { s with fab := { s.fab with links := L } } := by
  unfold sendAck
  split
  · rename_i q' _
    obtain ⟨L, e⟩ := transmit_tx s 5 p.src p.channel w.toNat q' q Blob.empty p.job (q.toNat % 2 ^ 24)
    have := (OnlyFab.transmit s 5 p.src p.channel w.toNat q' q Blob.empty p.job (q.toNat % 2 ^ 24)).eq
    refine ⟨L, ?_⟩
    rw [this, e]
  · exact ⟨s.fab.links, rfl⟩
theorem accepted_fab {s s1 : State} {p : Pkt} (e : acceptPacket s p = (s1, true)) : ∃ L R n, s1 = { s with fab := { s.fab with links := L, rx := R }, freeCtr := n } := by
  unfold acceptPacket at e
  split at e
  · split at e
    · injection e with e1 e2
      subst e1
      obtain ⟨L, h⟩ := ack_fab (s.modFab fun x => { x with
        rx := x.rx.map fun d => if d.peer = p.src && d.job = p.job && d.channel = p.channel
          then { d with expect := d.expect + 1 } else d }) p _ p.tseq
      exact ⟨L, _, s.freeCtr, h⟩
    · injection e with e1 e2; cases e2
  · split at e
    · injection e with e1 e2; cases e2
    · injection e with e1 e2
      subst e1
      cases findTx s p.src p.job p.channel with
      | some c =>
        obtain ⟨L, h⟩ := ack_fab (s.modFab fun x => { x with rx := x.rx ++ [⟨p.src, p.job, p.channel, if (decide (p.tseq = 0)) then 1 else 0, c.flow⟩] }) p c.flow (if (decide (p.tseq = 0)) then 0 else 0 - 1)
        exact ⟨L, _, s.freeCtr, h⟩
      | none =>
        obtain ⟨L, h⟩ := ack_fab ((s.free 8).2.modFab fun x => { x with rx := x.rx ++ [⟨p.src, p.job, p.channel, if (decide (p.tseq = 0)) then 1 else 0, (s.free 8).1⟩] }) p (s.free 8).1 (if (decide (p.tseq = 0)) then 0 else 0 - 1)
        exact ⟨L, _, s.freeCtr + 1, h⟩
theorem delivered_fab {s s1 : State} {h k : Nat} {p : Pkt} (e : Delivered s h k p s1) : ∃ L R n, s1 = { s with fab := { s.fab with links := L, rx := R }, freeCtr := n } := by
  obtain ⟨s0, h1, h2⟩ := e
  obtain ⟨L, e1⟩ := takePacket_facts h1
  obtain ⟨L', R, n, e2⟩ := accepted_fab h2
  exact ⟨L', R, n, by rw [e2, e1]⟩
end Sys2Proof.Laws
namespace Sys2Proof.Laws
theorem find_map {α : Type} (P : α → Bool) (g : α → α) (hg : ∀ a, P a = true → P (g a) = true) (l : List α) (c : α) (hf : l.find? P = some c) :
    (l.map fun d => if P d = true then g d else d).find? P = some (g c) := by
  induction l with
  | nil => cases hf
  | cons a l ih =>
    rw [List.map_cons]
    cases ha : P a with
    | true =>
      rw [List.find?_cons_of_pos ha] at hf
      injection hf with hf
      subst hf
      rw [if_pos rfl, List.find?_cons_of_pos (hg _ ha)]
    | false =>
      rw [List.find?_cons_of_neg (by simp [ha])] at hf
      rw [if_neg (by simp), List.find?_cons_of_neg (by simp [ha])]
      exact ih hf
end Sys2Proof.Laws
end

