-- ==== Sys2Proof/Laws/FactsControl.lean ====
section
/-!
SUPPORT. What sending control packets leaves, and what a halt and a bind do to a context.
-/

open Sys2Proof Sys2Proof.Machine Sys2Proof.Claims

namespace Sys2Proof.Laws
variable {α : Type} {g : Ctx → α}
theorem ctx_modLed (s : State) (c : Nat) (f : Machine.Ledger → Machine.Ledger) : (s.modLed c f).ctx c = { s.ctx c with led := f (s.ctx c).led } := by
  simp [State.modLed]
theorem ctx_modCommit (s : State) (c : Nat) (f : Commit → Commit) : (s.modCommit c f).ctx c = { s.ctx c with led := { (s.ctx c).led with commit := (s.ctx c).led.commit.map f } } := by
  unfold State.modCommit; rw [ctx_modLed]
def LB {α : Type} (g : Ctx → α) : Prop := ∀ (x : Ctx) a b, g { x with led := { x.led with sent := a, mail := b } } = g x
theorem CK.free (s : State) (w : Nat) : CK g s (s.free w).2 := CK.ofCtxs rfl
theorem CK.sendWrite (hb : Blind g) (s : State) (a : Nat) (j : BitVec 32) (b : Blob) : CK g s (sendWrite s a j b) :=
  (CK.free s 44).trans (CK.sendPacket hb _ _ _ _ _ _ _)
theorem CK.sendWrites (hb : Blind g) (s : State) (a : Nat) (j : BitVec 32) (b : Blob) : CK g s (sendWrites s a j b) :=
  CK.foldl (fun _ _ => CK.sendWrite hb _ _ _ _) _ _
theorem CK.modLed (s : State) (c : Nat) (f : Machine.Ledger → Machine.Ledger) (h : ∀ x : Ctx, g { x with led := f x.led } = g x) : CK g s (s.modLed c f) :=
  CK.modCtx _ _ _ h
theorem CK.sendCtrlTo (hb : Blind g) (hl : LB g) (s : State) (c a : Nat) (k : Ctrl) : CK g s (sendCtrlTo s c a k) := by
  unfold Machine.sendCtrlTo
  dsimp only
  split
  · exact (CK.modLed _ _ _ fun x => hl x _ _).trans (CK.modLed _ _ _ fun x => hl x _ _)
  · exact (CK.modLed _ _ _ fun x => hl x _ _).trans (CK.sendWrite hb _ _ _ _)
theorem CK.sendCtrl (hb : Blind g) (hl : LB g) (s : State) (c d : Nat) (k : Ctrl) : CK g s (sendCtrl s c d k) := by
  unfold Machine.sendCtrl
  split
  · exact CK.sendCtrlTo hb hl _ _ _ _
  · exact CK.refl _
theorem CK.sendAll (hb : Blind g) (hl : LB g) (s : State) (c : Nat) (k : Ctrl) : CK g s (sendAll s c k) :=
  CK.foldl (fun _ _ => CK.sendCtrl hb hl _ _ _ _) _ _
theorem CK.report (hb : Blind g) (hl : LB g) (s : State) (c a b d : Nat) : CK g s (report s c a b d) := CK.sendCtrl hb hl _ _ _ _
/-- A record sent stays in the log of records sent. -/
theorem sent_ctrlTo (s : State) (c a : Nat) (k : Ctrl) : ((sendCtrlTo s c a k).ctx c).led.sent = (s.ctx c).led.sent ++ [(a, k)] := by
  unfold Machine.sendCtrlTo
  dsimp only
  split
  · rw [ctx_modLed, ctx_modLed]
  · have := CK.sendWrite (g := fun x => x.led.sent) (fun _ _ _ _ => rfl) (s.modLed c fun l => { l with sent := l.sent ++ [(a, k)] }) a (s.ctx c).job (k.blob (s.ctx c).job) c
    refine Eq.trans this ?_
    rw [ctx_modLed]
theorem sent_ctrl (s : State) (c d a : Nat) (k : Ctrl) (h : rankAcc (s.ctx c) d = some a) : ((sendCtrl s c d k).ctx c).led.sent = (s.ctx c).led.sent ++ [(a, { k with seq := (s.ctx c).led.seq, src := (s.ctx c).rank.toNat })] := by
  unfold Machine.sendCtrl
  rw [h]
  exact sent_ctrlTo _ _ _ _
theorem lw_ctx (s : State) (job : BitVec 32) (o : Nat) (b : Blob) (c : Nat) : (ledgerWrite s job o b).ctx c = s.ctx c := ctx_of ((touches_ledgerWrite s job o b).2 .ctxs (by decide)) c
theorem mem_of {ps : List Part} {s t : State} (h : Touches ps s t) (h1 : .bytes ∉ ps) (h2 : .granules ∉ ps) (h3 : .tiers ∉ ps) : t.mem = s.mem := by
  have a : t.mem.mem = s.mem.mem := h.2 .bytes h1
  have b : t.mem.granules = s.mem.granules := h.2 .granules h2
  have d := h.2 .tiers h3
  obtain ⟨d1, d2, d3, d4, d5, d6⟩ := d
  generalize t.mem = x at *
  generalize s.mem = y at *
  cases x; cases y
  simp only at a b d1 d2 d3 d4 d5 d6
  simp [a, b, d1, d2, d3, d4, d5, d6]
theorem sub_sent (s : State) (c d : Nat) (k : Ctrl) (e : Nat × Ctrl) (h : e ∈ (s.ctx c).led.sent) : e ∈ ((sendCtrl s c d k).ctx c).led.sent := by
  cases ha : rankAcc (s.ctx c) d with
  | none => unfold Machine.sendCtrl; rw [ha]; exact h
  | some a => rw [sent_ctrl _ _ _ _ _ ha]; simp [h]
theorem sendAll_sent (s : State) (c : Nat) (k : Ctrl) (r a : Nat) (hr : r ∈ liveRanks (s.ctx c)) (ha : rankAcc (s.ctx c) r = some a) :
    (a, { k with seq := (s.ctx c).led.seq, src := (s.ctx c).rank.toNat }) ∈ ((sendAll s c k).ctx c).led.sent := by
  unfold sendAll
  have sub : ∀ (l : List Nat) (s : State) (e : Nat × Ctrl), e ∈ (s.ctx c).led.sent → e ∈ ((l.foldl (fun s r => sendCtrl s c r k) s).ctx c).led.sent := by
    intro l
    induction l with
    | nil => intro s e h; exact h
    | cons b l ih => intro s e h; exact ih _ _ (sub_sent _ _ _ _ _ h)
  revert hr ha
  generalize liveRanks (s.ctx c) = l
  induction l generalizing s with
  | nil => intro hr; simp at hr
  | cons b l ih =>
    intro hr ha
    rcases List.mem_cons.mp hr with h | h
    · subst h
      refine sub l _ _ ?_
      rw [sent_ctrl _ _ _ _ _ ha]; simp
    · have h1 : ((sendCtrl s c b k).ctx c).led.seq = (s.ctx c).led.seq := CK.sendCtrl (g := fun x => x.led.seq) (fun _ _ _ _ => rfl) (fun _ _ _ => rfl) s c b k c
      have h2 : ((sendCtrl s c b k).ctx c).rank = (s.ctx c).rank := CK.sendCtrl (g := fun x => x.rank) (fun _ _ _ _ => rfl) (fun _ _ _ => rfl) s c b k c
      have h3 : rankAcc ((sendCtrl s c b k).ctx c) r = rankAcc (s.ctx c) r := CK.sendCtrl (g := fun x => rankAcc x r) (fun _ _ _ _ => rfl) (fun _ _ _ => rfl) s c b k c
      have := ih (sendCtrl s c b k) h (h3.trans ha)
      rw [h1, h2] at this
      exact this
theorem halt_ctx (s : State) (c n : Nat) (h : (s.ctx c).unload = false) : (haltJob s c n).ctx c = { s.ctx c with led := { (s.ctx c).led with st := .halted, haltCause := BitVec.ofNat 4 n }, lastEvent := .halted } := by
  unfold haltJob
  dsimp only
  have e : (ctxEvent (s.modLed c fun l => { l with st := .halted, haltCause := BitVec.ofNat 4 n }) c .halted (s.ctx c).step.jobStep).ctx c = { s.ctx c with led := { (s.ctx c).led with st := .halted, haltCause := BitVec.ofNat 4 n }, lastEvent := .halted } := by
    unfold ctxEvent
    dsimp only
    have : ∀ (u : State) f, (u.modTaken f).ctx c = u.ctx c := fun _ _ => rfl
    rw [this]
    have : ∀ (u : State) v, (raiseVector u v).ctx c = u.ctx c := fun _ _ => rfl
    rw [this, ctx_modCtx_self, ctx_modLed]
    try rfl
  rw [if_neg (by rw [e]; simp [h]), e]
/-- What choosing a spare keeps. -/
theorem bind_facts (s : State) (c : Nat) (h : (s.ctx c).unload = false) : ((bindNext s c).ctx c).led.seq = (s.ctx c).led.seq ∧ ((bindNext s c).ctx c).led.coordinator = (s.ctx c).led.coordinator ∧
    (∀ e, e ∈ (s.ctx c).led.sent → e ∈ ((bindNext s c).ctx c).led.sent) ∧
    ∀ v, (s.ctx c).led.recovery = some v → ∃ w, ((bindNext s c).ctx c).led.recovery = some w ∧ w.unbound = v.unbound ∧ w.faulted = v.faulted ∧ (w.offered = v.offered ∧ v.unbound = [] ∨ ∀ a, w.offered = some a → a ∉ v.tried) := by
  unfold bindNext
  cases hr : (s.ctx c).led.recovery with
  | none => exact ⟨rfl, rfl, fun _ h => h, fun v hv => by cases hv⟩
  | some v =>
    dsimp only
    cases hu : v.unbound with
    | nil => exact ⟨rfl, rfl, fun _ h => h, fun w hw => ⟨v, hr, by cases hw; rfl, by cases hw; rfl, Or.inl ⟨by cases hw; rfl, by cases hw; exact hu⟩⟩⟩
    | cons r l =>
      dsimp only
      cases hs : chooseSpare s c r v.tried with
      | some a =>
        dsimp only
        generalize hm : State.modLed s c _ = s1
        have e1 : s1.ctx c = { s.ctx c with led := { (s.ctx c).led with recovery := some { v with offered := some a }, noSpare := false } } := by rw [← hm, ctx_modLed, ← hu]
        refine ⟨?_, ?_, fun e he => ?_, fun w hw => ⟨{ v with offered := some a }, ?_, ?_, ?_, Or.inr fun b hb => ?_⟩⟩
        · refine (CK.sendCtrlTo (g := fun x => x.led.seq) (fun _ _ _ _ => rfl) (fun _ _ _ => rfl) s1 c a _ c).trans ?_
          dsimp only; rw [e1]
        · refine (CK.sendCtrlTo (g := fun x => x.led.coordinator) (fun _ _ _ _ => rfl) (fun _ _ _ => rfl) s1 c a _ c).trans ?_
          dsimp only; rw [e1]
        · rw [sent_ctrlTo, e1]; simp [he]
        · refine (CK.sendCtrlTo (g := fun x => x.led.recovery) (fun _ _ _ _ => rfl) (fun _ _ _ => rfl) s1 c a _ c).trans ?_
          dsimp only; rw [e1]
        · cases hw; rfl
        · cases hw; rfl
        · cases hw
          cases hb
          intro hc
          unfold chooseSpare at hs
          dsimp only at hs
          have key : ∀ (l : List Nat) (m : Option Nat) (f : Option Nat → Nat → Option Nat), (∀ m a, f m a = some a ∨ f m a = m) → ∀ x, l.foldl f m = some x → m = some x ∨ x ∈ l := by
            intro l
            induction l with
            | nil => intro m f _ x h; exact Or.inl h
            | cons b l ih =>
              intro m f hf x h
              rcases ih _ f hf x h with h | h
              · rcases hf m b with g | g
                · rw [g] at h; cases h; simp
                · rw [g] at h; exact Or.inl h
              · exact Or.inr (List.mem_cons_of_mem _ h)
          have := key _ _ _ (by
            intro m a
            cases m with
            | none => exact Or.inl rfl
            | some b => dsimp only; split; exact Or.inl rfl; exact Or.inr rfl) _ hs
          simp [List.mem_filter, hc] at this
      | none =>
        dsimp only
        generalize hm : State.modLed s c _ = s1
        have e1 : s1.ctx c = { s.ctx c with led := { (s.ctx c).led with recovery := some { v with offered := none, tried := [] }, noSpare := true } } := by
          rw [← hm, ctx_modLed, ← hu]
        have fin : ∀ u : State, (∃ a b d, u.ctx c = { s1.ctx c with led := { (s1.ctx c).led with st := a, haltCause := b }, lastEvent := d }) → (u.ctx c).led.seq = (s.ctx c).led.seq ∧ (u.ctx c).led.coordinator = (s.ctx c).led.coordinator ∧
            (∀ e, e ∈ (s.ctx c).led.sent → e ∈ (u.ctx c).led.sent) ∧
            ∀ w, some v = some w → ∃ w', (u.ctx c).led.recovery = some w' ∧ w'.unbound = w.unbound ∧ w'.faulted = w.faulted ∧ (w'.offered = w.offered ∧ w.unbound = [] ∨ ∀ a, w'.offered = some a → a ∉ w.tried) := by
          rintro u ⟨a, b, d, e⟩
          rw [e, e1]
          refine ⟨rfl, rfl, fun _ h => h, fun w hw => ?_⟩
          cases hw
          exact ⟨_, rfl, rfl, rfl, Or.inr fun a h => by cases h⟩
        split
        · exact fin _ ⟨(s1.ctx c).led.st, (s1.ctx c).led.haltCause, (s1.ctx c).lastEvent, rfl⟩
        · exact fin _ ⟨_, _, _, halt_ctx _ _ _ (by rw [e1]; exact h)⟩
end Sys2Proof.Laws
end

