-- ==== Sys2Proof/Laws/FactsSlip.lean ====
section
/-!
SUPPORT. A slip that runs, its end, and packed fields.
-/

open Sys2Proof Sys2Proof.Machine Sys2Proof.Claims

namespace Sys2Proof.Laws
theorem ready_facts {s : State} {q : Nat} {seq : BitVec 32} {op : Nat} {x : Taken} (h : slipReady s q seq op = some x) : x ∈ s.host.taken ∧ x.result = none := by
  unfold slipReady at h
  split at h
  · cases h
  · rename_i t ht
    have key : ∀ (c : Bool), (if c then none else some t : Option Taken) = some x → t = x := by
      intro c hc; cases c
      · injection hc
      · cases hc
    have := key _ h
    subst this
    unfold findTaken at ht
    refine ⟨List.mem_of_find?_eq_some ht, ?_⟩
    have := List.find?_some ht
    simp only [Bool.and_eq_true] at this
    simpa using this.2
theorem endWith_ended {u : State} {x : Taken} (hm : x ∈ u.host.taken) (hr : x.result = none) (r : SlipResult) : Ended (endWith u x r) x.number r := by
  refine ⟨{ x with result := some r }, ?_, rfl, rfl⟩
  unfold endWith State.modTaken
  refine List.mem_map.mpr ⟨x, hm, ?_⟩
  simp [hr]
theorem endWith_host (u : State) (x : Taken) (r : SlipResult) : (endWith u x r).host.volumes = u.host.volumes ∧ (endWith u x r).host.cat = u.host.cat ∧ (endWith u x r).host.useCount = u.host.useCount ∧ (endWith u x r).sec = u.sec ∧ (endWith u x r).ctxs = u.ctxs ∧ (endWith u x r).fab = u.fab := ⟨rfl, rfl, rfl, rfl, rfl, rfl⟩
theorem find_mapf {β : Type} (P : β → Bool) (f : β → β) (h : ∀ a, P (f a) = P a) : ∀ l : List β, (l.map f).find? P = (l.find? P).map f
  | [] => rfl
  | a :: l => by
    rw [List.map_cons, List.find?_cons, List.find?_cons, h a, find_mapf P f h l]
    cases P a <;> rfl
theorem endWith_find {u : State} {x : Taken} (hr : x.result = none) (hfind : (u.host.taken.find? fun y => y.number = x.number) = some x) (r : SlipResult) : ((endWith u x r).host.taken.find? fun y => y.number = x.number) = some { x with result := some r } := by
  unfold endWith State.modTaken
  simp only
  rw [find_mapf _ _ (by intro a; split <;> rfl), hfind]
  simp [hr]
theorem packFields_lt : ∀ (l : List (Nat × Nat)), packFields l < 2 ^ (l.map (·.2)).sum
  | [] => by simp [packFields]
  | (v, w) :: t => by
    simp only [packFields, List.map_cons, List.sum_cons, Nat.pow_add]
    have h1 := packFields_lt t
    have h2 : v % 2 ^ w < 2 ^ w := Nat.mod_lt _ (Nat.two_pow_pos w)
    calc v % 2 ^ w + 2 ^ w * packFields t < 2 ^ w + 2 ^ w * packFields t := by omega
      _ = 2 ^ w * (packFields t + 1) := by rw [Nat.mul_add, Nat.mul_one, Nat.add_comm]
      _ ≤ _ := Nat.mul_le_mul_left _ h1
theorem bits_pack (v w lo n : Nat) (r : Nat) (h : lo + n ≤ w) : bits (v % 2 ^ w + 2 ^ w * r) lo n = bits v lo n := by
  unfold bits
  have e : 2 ^ w = 2 ^ lo * (2 ^ n * 2 ^ (w - lo - n)) := by rw [← Nat.pow_add, ← Nat.pow_add]; congr 1; omega
  rw [e, Nat.mul_assoc, Nat.add_mul_div_left _ _ (Nat.two_pow_pos lo), Nat.mul_assoc, Nat.add_mul_mod_self_left, Nat.mod_mul_right_div_self, Nat.mod_mul_right_mod]
theorem bits_skip (v w lo n : Nat) (r : Nat) : bits (v % 2 ^ w + 2 ^ w * r) (w + lo) n = bits r lo n := by
  unfold bits
  rw [Nat.pow_add, ← Nat.div_div_eq_div_mul, Nat.add_mul_div_left _ _ (Nat.two_pow_pos w), Nat.div_eq_of_lt (Nat.mod_lt _ (Nat.two_pow_pos w)), Nat.zero_add]
theorem noRelease {u : State} (h : u.sec.release = none) : settleRelease u = u := by unfold settleRelease; rw [h]
theorem want_release (s : State) (k : KeyId) : (wantKey s k).sec.release = s.sec.release ∧ (wantKey s k).sec.volumeRefusals = s.sec.volumeRefusals ∧ (wantKey s k).sec.colophonFailures = s.sec.colophonFailures := by
  unfold wantKey State.modSec Sec.want
  dsimp only
  split
  · exact ⟨rfl, rfl, rfl⟩
  · split <;> exact ⟨rfl, rfl, rfl⟩
end Sys2Proof.Laws
end

