-- ==== Sys2Proof/Laws/FactsSettle.lean ====
section
/-!
SUPPORT. Ended slips stay ended, and a loading context loads, while commands settle.
-/

open Sys2Proof Sys2Proof.Machine Sys2Proof.Claims

namespace Sys2Proof.Laws
theorem endWith_ctx (u : State) (x : Taken) (r : SlipResult) (c : Nat) : (endWith u x r).ctx c = u.ctx c := rfl
theorem startSlip_mem {s : State} {x : Taken} (hm : x ∈ s.host.taken) : { x with running := true } ∈ (startSlip s x).host.taken :=
  List.mem_map.mpr ⟨x, hm, by simp⟩
theorem ended' {u : State} {x y : Taken} (hm : y ∈ u.host.taken) (hn : y.number = x.number) (hr : y.result = none) (r : SlipResult) : Ended (endWith u x r) x.number r := by
  refine ⟨{ y with result := some r }, ?_, hn, rfl⟩
  unfold endWith State.modTaken
  refine List.mem_map.mpr ⟨y, hm, ?_⟩
  simp [hr, hn]
/-- Slips that have ended stay so. -/
def EK (s t : State) : Prop := ∀ n r, Ended s n r → Ended t n r
theorem EK.refl (s : State) : EK s s := fun _ _ h => h
theorem EK.trans {s t u : State} (h : EK s t) (k : EK t u) : EK s u := fun n r x => k n r (h n r x)
theorem EK.ofHost {s t : State} (h : t.host.taken = s.host.taken) : EK s t := fun n r x => by unfold Ended at *; rw [h]; exact x
theorem EK.modTaken (s : State) (f : Taken → Taken) (hf : ∀ t, t.result.isSome = true → f t = t) : EK s (s.modTaken f) := by
  rintro n r ⟨u, hu, h1, h2⟩
  exact ⟨u, List.mem_map.mpr ⟨u, hu, hf u (by rw [h2]; rfl)⟩, h1, h2⟩
theorem EK.foldl {β : Type} {f : State → β → State} (hf : ∀ s a, EK s (f s a)) : ∀ (l : List β) (s : State), EK s (l.foldl f s)
  | [], s => EK.refl s
  | a :: l, s => (hf s a).trans (EK.foldl hf l _)
theorem EK.touch {ps : List Part} {s t : State} (h : Touches ps s t) (hp : Part.host ∉ ps) : EK s t := EK.ofHost (by rw [show t.host = s.host from h.2 .host hp])
theorem EK.ctxEvent (s : State) (c : Nat) (e : CtxEvent) (n : BitVec 32) : EK s (ctxEvent s c e n) := by
  unfold Machine.ctxEvent
  dsimp only
  refine EK.trans (EK.ofHost ?_) (EK.modTaken _ _ ?_)
  · rfl
  · intro t ht
    cases hr : t.result with
    | none => rw [hr] at ht; cases ht
    | some a => simp
theorem EK.settleSlips (s : State) : EK s (settleSlips s) := by
  unfold Machine.settleSlips
  refine EK.modTaken _ _ ?_
  intro t ht
  dsimp only
  rw [if_pos (by rw [ht]; rfl)]
theorem EK.settleLoads (s : State) : EK s (settleLoads s) := by
  unfold Machine.settleLoads
  refine EK.foldl (fun s c => ?_) _ _
  unfold settleLoad
  dsimp only
  split
  · exact EK.refl _
  · split
    · split
      · exact EK.trans (EK.ofHost rfl) (EK.ctxEvent _ _ _ _)
      · exact EK.ofHost rfl
    · have h : ∀ X c, (sendChecks X c).host = X.host := fun X c => (touches_sendChecks X c).2 .host (by decide)
      refine EK.ofHost ?_
      show (sendChecks _ c).host.taken = _
      rw [h]; rfl
theorem EK.settle (a b : State) : EK b (settle a b) := by
  unfold Machine.settle
  exact (((EK.settleLoads b).trans (EK.settleSlips _)).trans (EK.touch (touches_flushCredits _ _) (by decide))).trans (EK.touch (touches_measureAt _ _) (by decide))
/-- A context that loads, or is loaded, stays so through what follows a load. -/
def LL (x : Ctx) : Prop := x.loading = true ∨ x.st = .loaded
theorem ll_ck {s t : State} (h : CK (fun x => (x.loading, x.st)) s t) (c : Nat) (k : LL (s.ctx c)) : LL (t.ctx c) := by
  have := h c
  simp only [Prod.mk.injEq] at this
  unfold LL; rw [this.1, this.2]; exact k
theorem ll_mod (s : State) (d : Nat) (f : Ctx → Ctx) (hf : ∀ x, LL x → LL (f x)) (c : Nat) (k : LL (s.ctx c)) : LL ((s.modCtx d f).ctx c) := by
  by_cases e : c = d
  · subst e; rw [ctx_modCtx_self]; exact hf _ k
  · rw [ctx_modCtx_other _ _ _ _ e]; exact k
theorem ll_event (s : State) (d : Nat) (e : CtxEvent) (n : BitVec 32) (c : Nat) (k : LL (s.ctx c)) : LL ((ctxEvent s d e n).ctx c) := by
  unfold Machine.ctxEvent
  dsimp only
  have h1 : ∀ (u : State) f, (u.modTaken f).ctx c = u.ctx c := fun _ _ => rfl
  have h2 : ∀ (u : State) v, (raiseVector u v).ctx c = u.ctx c := fun _ _ => rfl
  rw [h1, h2]
  exact ll_mod s d (fun x => { x with lastEvent := e }) (fun _ h => h) c k
theorem ll_settleLoad (s : State) (d c : Nat) (k : LL (s.ctx c)) : LL ((settleLoad s d).ctx c) := by
  unfold Machine.settleLoad
  dsimp only
  have m1 : LL ((s.modCtx d fun x => { x with loading := false, st := .loaded }).ctx c) := ll_mod _ _ _ (fun _ _ => Or.inr rfl) c k
  split
  · exact k
  · split
    · split
      · exact ll_event _ _ _ _ _ (ll_mod _ d (fun x => { x with standby := false }) (fun _ h => h) c m1)
      · exact m1
    · have ml : ∀ (u : State) f, LL (u.ctx c) → LL ((u.modLed d f).ctx c) := fun u f h => by
        unfold State.modLed
        exact ll_mod u d (fun x => { x with led := f x.led }) (fun _ h => h) c h
      have cp : ∀ (u : State) n, LL (u.ctx c) → LL ((commitPoint u d n).ctx c) := fun u n h => by
        unfold commitPoint
        apply ll_mod
        · exact fun _ h => h
        · exact h
      exact cp _ _ (ll_ck (CK.sendChecks (fun _ _ _ _ => rfl) _ _) c (ml _ _ m1))
theorem ll_settle (a b : State) (c : Nat) (k : LL (b.ctx c)) : LL ((settle a b).ctx c) := by
  unfold Machine.settle measureAt
  have h0 : ∀ (l : List Nat) (s : State), LL (s.ctx c) → LL ((l.foldl settleLoad s).ctx c) := by
    intro l
    induction l with
    | nil => intro s h; exact h
    | cons d l ih => intro s h; exact ih _ (ll_settleLoad _ _ _ h)
  have h1 : LL ((flushCredits a (settleSlips (settleLoads b))).ctx c) := by
    refine ll_ck (CK.flushCredits (fun _ _ _ _ => rfl) _ _) c ?_
    rw [ctx_of ((touches_settleSlips _).2 .ctxs (by decide))]
    exact h0 _ _ k
  split
  · exact h1
  · exact h1
end Sys2Proof.Laws
end

