-- ==== Sys2Proof/Laws/FactsBring.lean ====
section
/-!
SUPPORT. Phases and halts, domain masks, and what the operations of bring-up leave of its block.
-/

open Sys2Proof Sys2Proof.Machine Sys2Proof.Claims

namespace Sys2Proof.Laws
theorem in_phase {s : State} {p : BitVec 4} (h : InPhase s p) : inPhase s p = true := by
  unfold inPhase; simp [h.1, h.2.1, h.2.2]
theorem halted_facts (s : State) (n : BitVec 8) (p : BitVec 4) (h : s.bring.phase = p) : HaltedWith (halt' s n) p n := ⟨rfl, rfl, h, rfl⟩
end Sys2Proof.Laws
namespace Sys2Proof.Laws
theorem one_get (d k : Nat) (hk : k < 80) : ((1#80) <<< d).getLsbD k = decide (k = d) := by
  rw [BitVec.getLsbD_shiftLeft]
  by_cases h : k = d
  · subst h; simp [hk]
  · by_cases h2 : k < d
    · simp [h, h2]
    · have h3 : k - d ≠ 0 := by omega
      simp [h, h2, hk, BitVec.getLsbD_one, h3]
theorem mask_get (k : Nat) (hk : k < 80) : ∀ (ds : List Nat) (m : BitVec 80), (ds.foldl (fun m d => m ||| (1#80 <<< d)) m).getLsbD k = (m.getLsbD k || decide (k ∈ ds))
  | [], m => by simp
  | d :: ds, m => by
    rw [List.foldl_cons, mask_get k hk ds, BitVec.getLsbD_or, one_get d k hk, Bool.or_assoc]
    congr 1
    simp
theorem mask_mem (ds : List Nat) (k : Nat) (hk : k < 80) : (domainMask ds).getLsbD k = decide (k ∈ ds) := by
  unfold domainMask; rw [mask_get k hk]; simp
theorem on_get (s : State) (ds : List Nat) (k : Nat) (hk : k < 80) : (s.bring.domainOn ||| domainMask ds).getLsbD k = (domainOn s k || decide (k ∈ ds)) := by
  rw [BitVec.getLsbD_or, mask_mem ds k hk]; rfl
theorem off_get (s : State) (ds : List Nat) (k : Nat) (hk : k < 80) : (s.bring.domainOn &&& ~~~(domainMask ds)).getLsbD k = (domainOn s k && !decide (k ∈ ds)) := by
  rw [BitVec.getLsbD_and, BitVec.getLsbD_not, mask_mem ds k hk]; simp [hk, domainOn]
theorem wd_lt : ∀ w : Fin 9, ∀ d ∈ waveDomains w, d < 80 := by decide
/-- What sending firmware to sites changes in the bring-up block. -/
def FW (s t : State) : Prop := ∃ a b c, t.bring = { s.bring with sites := a, fwNext := b, wakes := c }
theorem FW.refl (s : State) : FW s s := ⟨s.bring.sites, s.bring.fwNext, s.bring.wakes, rfl⟩
theorem FW.trans {s t u : State} (h : FW s t) (k : FW t u) : FW s u := by
  obtain ⟨a, b, c, h⟩ := h
  obtain ⟨a', b', c', k⟩ := k
  exact ⟨a', b', c', by rw [k, h]⟩
theorem FW.after {s u : State} (h : FW s u) (f : Bringup → Bringup) (hf : ∀ b, ∃ x y z, f b = { b with sites := x, fwNext := y, wakes := z }) : FW s (u.modBring f) := by
  obtain ⟨x, y, z, e⟩ := hf u.bring
  exact h.trans ⟨x, y, z, e⟩
theorem FW.foldl {β : Type} {f : State → β → State} (hf : ∀ s a, FW s (f s a)) : ∀ (l : List β) (s : State), FW s (l.foldl f s)
  | [], s => FW.refl s
  | a :: l, s => (hf s a).trans (FW.foldl hf l _)
theorem FW.modSite (s : State) (i : Nat) (f : Site → Site) : FW s (s.modSite i f) := ⟨_, s.bring.fwNext, s.bring.wakes, rfl⟩
theorem FW.dist (s : State) (sh : Nat) : FW s (startDistribution s sh) := by
  unfold startDistribution
  dsimp only
  exact FW.after (FW.foldl (fun s t => FW.modSite _ _ _) _ _) _ fun b => ⟨_, _, _, rfl⟩
theorem FW.woken (s : State) : FW s (wokenShelves s) := by
  unfold wokenShelves
  refine FW.foldl (fun s sh => ?_) _ _
  split
  · split
    · exact ⟨_, _, _, rfl⟩
    · exact FW.dist _ _
  · exact FW.refl _
theorem FW.tested (s : State) (sh : Nat) : FW s (wakeTested s sh) := by
  unfold wakeTested
  dsimp only
  split
  · exact ⟨_, _, _, rfl⟩
  · exact FW.refl _
theorem FW.settle (s : State) : FW s (firmwareSettle s) := by
  unfold firmwareSettle
  split
  · split
    · exact FW.after (FW.foldl (fun s a => FW.foldl (fun s t => FW.modSite _ _ _) _ _) _ _) _ fun b => ⟨_, _, _, rfl⟩
    · exact FW.refl _
  · refine FW.foldl (fun s sh => ?_) _ _
    split
    · exact (FW.foldl (fun s t => FW.modSite _ _ _) _ _).trans (FW.tested _ _)
    · exact FW.refl _
/-- Failed sites stay failed. -/
def FK (s t : State) : Prop := ∀ i, (s.site i).failed = true → (t.site i).failed = true ∧ (t.site i).cause = (s.site i).cause
theorem FK.refl (s : State) : FK s s := fun _ h => ⟨h, rfl⟩
theorem FK.trans {s t u : State} (h : FK s t) (k : FK t u) : FK s u := fun i x => ⟨(k i (h i x).1).1, (k i (h i x).1).2.trans (h i x).2⟩
theorem FK.after {s u : State} (h : FK s u) (f : Bringup → Bringup) (hf : ∀ b, (f b).sites = b.sites) : FK s (u.modBring f) :=
  h.trans fun i x => by
    have : (u.modBring f).site i = u.site i := by
      unfold State.site
      rw [show (u.modBring f).bring.sites = u.bring.sites from hf _]
    rw [this]; exact ⟨x, rfl⟩
theorem FK.foldl {β : Type} {f : State → β → State} (hf : ∀ s a, FK s (f s a)) : ∀ (l : List β) (s : State), FK s (l.foldl f s)
  | [], s => FK.refl s
  | a :: l, s => (hf s a).trans (FK.foldl hf l _)
theorem FK.ofSites {s t : State} (h : t.bring.sites = s.bring.sites) : FK s t := fun i x => by
  have : t.site i = s.site i := by unfold State.site; rw [h]
  rw [this]; exact ⟨x, rfl⟩
theorem FK.modSite (s : State) (i : Nat) (f : Site → Site) (hf : ∀ x, x.failed = true → (f x).failed = true ∧ (f x).cause = x.cause) : FK s (s.modSite i f) := by
  intro k h
  by_cases e : k = i
  · subst e; rw [site_modSite_self]; exact hf _ h
  · rw [site_modSite_other _ _ _ _ e]; exact ⟨h, rfl⟩
theorem FK.dist (s : State) (sh : Nat) : FK s (startDistribution s sh) := by
  unfold startDistribution
  dsimp only
  refine FK.after (FK.foldl (fun s t => FK.modSite _ _ _ fun x hx => ?_) _ _) _ fun _ => rfl
  rw [if_pos hx]; exact ⟨hx, rfl⟩
theorem FK.woken (s : State) : FK s (wokenShelves s) := by
  unfold wokenShelves
  refine FK.foldl (fun s sh => ?_) _ _
  split
  · split
    · exact FK.ofSites rfl
    · exact FK.dist _ _
  · exact FK.refl _
theorem FK.cores (s : State) (sh : Nat) : FK s (startCores s sh) := by
  unfold startCores
  refine FK.foldl (fun s t => FK.modSite _ _ _ fun x hx => ?_) _ _
  rw [if_pos hx]; exact ⟨hx, rfl⟩
theorem FK.settle (s : State) : FK s (firmwareSettle s) := by
  unfold firmwareSettle
  split
  · split
    · exact FK.after (FK.foldl (fun s a => FK.cores s a) _ _) _ fun _ => rfl
    · exact FK.refl _
  · refine FK.foldl (fun s sh => ?_) _ _
    split
    · rename_i s' _ _ 
      refine (FK.cores s sh).trans ?_
      unfold wakeTested
      dsimp only
      split <;> exact FK.ofSites rfl
    · exact FK.refl _
/-- What a failing site keeps of the bring-up block. -/
def BK (s t : State) : Prop := t.bring.domainFailed = s.bring.domainFailed ∧ t.bring.phase = s.bring.phase ∧ t.bring.halted = s.bring.halted ∧ t.bring.fwSiteFails = s.bring.fwSiteFails
theorem BK.refl (s : State) : BK s s := ⟨rfl, rfl, rfl, rfl⟩
theorem BK.trans {s t u : State} (h : BK s t) (k : BK t u) : BK s u := ⟨k.1.trans h.1, k.2.1.trans h.2.1, k.2.2.1.trans h.2.2.1, k.2.2.2.trans h.2.2.2⟩
theorem BK.ofBring {s t : State} (h : t.bring = s.bring) : BK s t := by unfold BK; rw [h]; exact ⟨rfl, rfl, rfl, rfl⟩
theorem BK.foldl {β : Type} {f : State → β → State} (hf : ∀ s a, BK s (f s a)) : ∀ (l : List β) (s : State), BK s (l.foldl f s)
  | [], s => BK.refl s
  | a :: l, s => (hf s a).trans (BK.foldl hf l _)
theorem warm_keep (s : State) : BK s (rewriteWarm s) ∧ FK s (rewriteWarm s) := by
  unfold rewriteWarm
  split
  · unfold writeWarm
    split
    · exact ⟨⟨rfl, rfl, rfl, rfl⟩, FK.ofSites rfl⟩
    · exact ⟨BK.refl _, FK.refl _⟩
  · exact ⟨BK.refl _, FK.refl _⟩
theorem fail_site (s : State) (i : Nat) (n : BitVec 4) : FK s (failSite s i n) ∧ ((failSite s i n).site i).failed = true ∧ BK s (failSite s i n) ∧ ((s.site i).failed = false → ((failSite s i n).site i).cause = n) := by
  by_cases h0 : (s.site i).failed = true
  · have : failSite s i n = s := by
      unfold failSite siteFail siteFailBoot
      rw [if_pos h0, if_pos h0]
      split <;> rfl
    rw [this]
    exact ⟨FK.refl _, h0, BK.refl _, fun h => absurd h0 (by rw [h]; decide)⟩
  · have m : FK s (s.modSite i fun x => { x with cause := n, failed := true, running := false }) := by
      intro k h
      by_cases e : k = i
      · subst e; exact absurd h h0
      · rw [site_modSite_other _ _ _ _ e]; exact ⟨h, rfl⟩
    have m2 : ((s.modSite i fun x => { x with cause := n, failed := true, running := false }).site i).failed = true ∧ ((s.modSite i fun x => { x with cause := n, failed := true, running := false }).site i).cause = n := by
      rw [site_modSite_self]; exact ⟨rfl, rfl⟩
    have mb : BK s (s.modSite i fun x => { x with cause := n, failed := true, running := false }) := ⟨rfl, rfl, rfl, rfl⟩
    have fin : ∀ u v : State, FK s u → (u.site i).failed = true ∧ (u.site i).cause = n → BK s u → FK u v → BK u v →
        FK s v ∧ (v.site i).failed = true ∧ BK s v ∧ ((s.site i).failed = false → (v.site i).cause = n) := fun u v a b c d e =>
      ⟨a.trans d, (d i b.1).1, c.trans e, fun _ => (d i b.1).2.trans b.2⟩
    unfold failSite
    split
    · unfold siteFail
      rw [if_neg h0]
      dsimp only
      generalize State.modSite s i _ = s1 at m m2 mb ⊢
      split
      · generalize hu : (if (s1.shelf (i / 13)).spareSite.toNat = i % 13 then spareLost s1 (i / 13) else s1) = u
        have e : FK s1 u := by
          rw [← hu]
          split
          · exact FK.ofSites rfl
          · exact FK.refl _
        have eb : BK s1 u := by
          rw [← hu]
          split
          · exact ⟨rfl, rfl, rfl, rfl⟩
          · exact BK.refl _
        exact fin _ _ m m2 mb (e.trans (warm_keep u).2) (eb.trans (warm_keep u).1)
      · rename_i core _
        have rt : (retireStage s1 core).bring = s1.bring := (touches_retireStage _ _).2 .bring (by decide)
        generalize hu : State.modShelf _ (i / 13) _ = u
        have e : FK s1 u := FK.ofSites (by rw [← hu]; show (retireStage s1 core).bring.sites = _; rw [rt])
        have eb : BK s1 u := by
          rw [← hu]
          have : BK (retireStage s1 core) ((retireStage s1 core).modBring fun b => { b with retirements := b.retirements + 1 }) := ⟨rfl, rfl, rfl, rfl⟩
          exact (BK.ofBring rt).trans this
        have z1 := e.trans (warm_keep u).2
        have z3 := eb.trans (warm_keep u).1
        generalize rewriteWarm u = v at z1 z3 ⊢
        split
        · unfold rebindNow
          split
          · exact fin _ _ m m2 mb (z1.trans (FK.ofSites rfl)) (z3.trans ⟨rfl, rfl, rfl, rfl⟩)
          · exact fin _ _ m m2 mb z1 z3
        · exact fin _ _ m m2 mb z1 z3
    · unfold siteFailBoot
      rw [if_neg h0]
      exact fin _ _ m m2 mb (FK.refl _) (BK.refl _)
end Sys2Proof.Laws
end

