-- ==== Sys2Proof/Laws/FactsRequest.lean ====
section
/-!
SUPPORT. A request that is served, its response, granules owned by a context, and the boot folio.
-/

open Sys2Proof Sys2Proof.Machine Sys2Proof.Claims

namespace Sys2Proof.Laws
theorem request_eq {s : State} {r : Blob} {opcode : Nat} {rom : Bool} {lenOk : Nat → Bool} {op : State → Blob → State × Nat × Blob} (h : Requested s r opcode rom) (hl : lenOk (r.len - 6) = true) :
    request s r opcode rom lenOk op = respond (op s (reqPayload r)).1 (reqOpcode r) (reqTag r) (op s (reqPayload r)).2.1 (op s (reqPayload r)).2.2 := by
  obtain ⟨h1, h2, h3⟩ := h
  unfold request
  have hm : mgmtMode s ≠ .off := by rcases h3 with h | h; rw [h]; decide; rw [h.1]; decide
  cases hmm : mgmtMode s with
  | off => exact absurd hmm hm
  | rom =>
    dsimp only
    have hr : rom = true := by rcases h3 with h | h; rw [h] at hmm; cases hmm; exact h.2
    rw [if_neg (by rw [h1]; decide), if_neg (by simp [h2, hr]), if_neg (by rw [hl]; decide), ← h2]
  | firmware =>
    dsimp only
    rw [if_neg (by rw [h1]; decide), if_neg (by simp [h2]), if_neg (by rw [hl]; decide), ← h2]
theorem replied {s u : State} (h : u.mgmt = s.mgmt) (r : Blob) (n : Nat) (b : Blob) : Replied s (respond u (reqOpcode r) (reqTag r) n b) r n b := by
  refine ⟨rfl, ?_⟩
  show (if (u.mgmt.dyn.isSome && u.mgmt.events) = true then _ else _) = _
  rw [h]
  split <;> simp
theorem ctx_respond (u : State) (a b c : Nat) (d : Blob) (k : Nat) : (respond u a b c d).ctx k = u.ctx k := rfl
theorem bring_respond (u : State) (a b c : Nat) (d : Blob) : (respond u a b c d).bring = u.bring := rfl
theorem imprint_respond (u : State) (a b c : Nat) (d : Blob) : (respond u a b c d).imprint = u.imprint := rfl
def GO (c n : Nat) (s : State) : Prop := (s.granule n).assigned = true ∧ (s.granule n).context = BitVec.ofNat 4 c
theorem go_mod {s : State} {c n k : Nat} {f : Machine.Granule → Machine.Granule} (hf : ∀ g, (f g).assigned = true ∧ (f g).context = BitVec.ofNat 4 c) (h : GO c n s ∨ n = k) : GO c n (s.modGranule k f) := by
  by_cases e : n = k
  · subst e
    unfold GO
    rw [State.modGranule, State.granule, State.granule]
    simp only [tgetD, tget_tset_self, Option.getD_some]
    exact hf _
  · rcases h with h | h
    · unfold GO at h ⊢
      have : (s.modGranule k f).granule n = s.granule n := by
        unfold State.modGranule State.granule
        simp only [tgetD, tget_tset_other _ _ _ _ e]
      rw [this]; exact h
    · exact absurd h e
theorem go_fold {c n : Nat} {f : Machine.Granule → Machine.Granule} (hf : ∀ g, (f g).assigned = true ∧ (f g).context = BitVec.ofNat 4 c) : ∀ (gs : List Nat) (s : State), GO c n s ∨ n ∈ gs → GO c n (gs.foldl (fun s n => s.modGranule n f) s)
  | [], s, h => by simpa using h
  | k :: gs, s, h => by
    refine go_fold hf gs _ ?_
    by_cases e : GO c n s ∨ n = k
    · exact Or.inl (go_mod hf e)
    · push_neg at e
      rcases h with h | h
      · exact absurd h e.1
      · rcases List.mem_cons.mp h with h | h
        · exact absurd h e.2
        · exact Or.inr h
theorem go_of {c n : Nat} {s t : State} (e : t.mem.granules = s.mem.granules) (h : GO c n s) : GO c n t := by
  have : t.granule n = s.granule n := by simp only [State.granule, e]
  unfold GO; rw [this]; exact h
theorem write_boot (s : State) (f : BootFolio) (hv : s.imprint.boot0.valid = true ∨ s.imprint.boot1.valid = true) (hg : (bootFolio s).generation ≠ 0xFFFFFFFF) :
    bootFolio (writeBoot s f) = { f with valid := true, generation := (bootFolio s).generation + 1 } := by
  have lt : ∀ g : BitVec 32, g ≠ 0xFFFFFFFF → g.ult (g + 1) = true := by
    intro g hg
    rw [BitVec.ult]
    simp only [decide_eq_true_eq]
    have h1 : g.toNat ≠ 0xFFFFFFFF := fun e => hg (BitVec.eq_of_toNat_eq e)
    have h2 := g.isLt
    rw [BitVec.toNat_add]
    have h3 : (1 : BitVec 32).toNat = 1 := rfl
    rw [h3]
    omega
  unfold writeBoot bootFolio at *
  dsimp only at *
  by_cases hf : (s.imprint.boot0.valid && (!s.imprint.boot1.valid || s.imprint.boot1.generation.ult s.imprint.boot0.generation)) = true
  · rw [if_pos hf] at *
    rw [if_pos hf]
    dsimp only
    rw [if_neg]
    have := lt _ hg
    simp only [Bool.and_eq_true, not_and, Bool.not_eq_true]
    intro _
    simp only [Bool.not_true, Bool.false_or]
    rw [BitVec.ult] at this ⊢
    simp only [decide_eq_true_eq, decide_eq_false_iff_not] at *
    omega
  · rw [if_neg hf] at *
    rw [if_neg hf]
    dsimp only
    rw [if_pos]
    have := lt _ hg
    rw [this]; simp
theorem boot_of {s t : State} (h : t.imprint = s.imprint) : bootFolio t = bootFolio s := by unfold bootFolio; rw [h]
theorem tget_mem {α : Type} (t : Tbl α) (n : Nat) (v : α) (h : tget t n = some v) : (n, v) ∈ t := by
  induction t with
  | nil => simp [tget] at h
  | cons e t ih =>
    obtain ⟨j, w⟩ := e
    simp only [tget] at h
    split at h
    · rename_i hj
      injection h with h
      subst hj; subst h; simp
    · exact List.mem_cons_of_mem _ (ih h)
def GR (n : Nat) (s : State) : Prop := (s.granule n).assigned = false ∧ (s.granule n).scrubbed = false
theorem gr_release {s : State} {n k : Nat} (h : GR n s ∨ n = k) : GR n (releaseGranule s k) := by
  by_cases e : n = k
  · subst e
    unfold GR releaseGranule State.modGranule State.granule
    simp only [tgetD, tget_tset_self, Option.getD_some]
    exact ⟨trivial, trivial⟩
  · rcases h with h | h
    · unfold GR releaseGranule State.modGranule State.granule at *
      simp only [tgetD, tget_tset_other _ _ _ _ e] at *
      exact h
    · exact absurd h e
theorem gr_fold {α : Type} (f : α → Nat) (n : Nat) : ∀ (l : List α) (s : State), (GR n s ∨ ∃ a ∈ l, f a = n) → GR n (l.foldl (fun s a => releaseGranule s (f a)) s)
  | [], s, h => by simpa using h
  | k :: l, s, h => by
    refine gr_fold f n l _ ?_
    by_cases e : GR n s ∨ n = f k
    · exact Or.inl (gr_release e)
    · push_neg at e
      rcases h with h | ⟨a, ha, h⟩
      · exact absurd h e.1
      · rcases List.mem_cons.mp ha with h2 | h2
        · subst h2; exact absurd h.symm e.2
        · exact Or.inr ⟨a, h2, h⟩
theorem gr_of {n : Nat} {s t : State} (e : t.mem.granules = s.mem.granules) (h : GR n s) : GR n t := by
  have : t.granule n = s.granule n := by simp only [State.granule, e]
  unfold GR; rw [this]; exact h
theorem gr_ctx (s : State) (c n : Nat) (h1 : (s.granule n).assigned = true) (h : ownsGranule s c n = true) : GR n (releaseGranules s c) := by
  unfold releaseGranules
  refine gr_fold (fun p : Nat × Machine.Granule => p.1) n _ _ (Or.inr ?_)
  cases ht : tget s.mem.granules n with
  | none =>
    have : s.granule n = Granule.reset := by unfold State.granule tgetD; rw [ht]; rfl
    rw [this] at h1
    exact absurd h1 (by decide)
  | some g =>
    have e : s.granule n = g := by unfold State.granule tgetD; rw [ht]; rfl
    refine ⟨(n, g), List.mem_filter.mpr ⟨tget_mem _ _ _ ht, ?_⟩, rfl⟩
    unfold ownsGranule at h
    rw [e] at h
    simp only [Bool.and_eq_true, beq_iff_eq] at h
    simp [h]
theorem cellsRead_filter (l : List Host.Cell) (p : Nat → Bool) (a : Nat) : cellsRead (l.filter fun c => p c.1) a = if p a then cellsRead l a else 0 := by
  induction l with
  | nil => simp [cellsRead, unlistedByte]
  | cons e t ih =>
    obtain ⟨b, v⟩ := e
    simp only [List.filter_cons]
    split
    · rename_i h
      simp only [cellsRead, ih]
      by_cases e : b = a
      · subst e; simp [h]
      · simp [e]
    · rename_i h
      rw [ih]
      simp only [cellsRead]
      by_cases e : b = a
      · subst e; simp [h]
      · simp [e]
end Sys2Proof.Laws
end

