-- ==== Sys2Proof/Laws/FactsMoved.lean ====
section
/-!
SUPPORT. Cores whose words have moved, ports released, and folds over the cores of a stage.
-/

open Sys2Proof Sys2Proof.Machine Sys2Proof.Claims

namespace Sys2Proof.Laws
end Sys2Proof.Laws
namespace Sys2Proof.Claims
theorem Moved.inp {a b : Core} (h : Moved a b) : b.inp = a.inp := by rcases h with rfl | rfl <;> rfl
end Sys2Proof.Claims
namespace Sys2Proof.Laws
end Sys2Proof.Laws
namespace Sys2Proof.Claims
theorem Moved.takes {a b : Core} (h : Moved a b) : b.takes = a.takes := by rcases h with rfl | rfl <;> rfl
end Sys2Proof.Claims
namespace Sys2Proof.Laws
end Sys2Proof.Laws
namespace Sys2Proof.Claims
theorem Moved.out {a b : Core} (h : Moved a b) : b.out = a.out := by rcases h with rfl | rfl <;> rfl
end Sys2Proof.Claims
namespace Sys2Proof.Laws
end Sys2Proof.Laws
namespace Sys2Proof.Claims
theorem Moved.ctrs {a b : Core} (h : Moved a b) : b.ctrs = a.ctrs := by rcases h with rfl | rfl <;> rfl
end Sys2Proof.Claims
namespace Sys2Proof.Laws
end Sys2Proof.Laws
namespace Sys2Proof.Claims
theorem Moved.info {a b : Core} (h : Moved a b) : b.stage.info = a.stage.info := by rcases h with rfl | rfl <;> rfl
end Sys2Proof.Claims
namespace Sys2Proof.Laws
end Sys2Proof.Laws
namespace Sys2Proof.Claims
theorem Moved.stalls {a b : Core} (h : Moved a b) : b.stage.stalls = a.stage.stalls := by rcases h with rfl | rfl <;> rfl
end Sys2Proof.Claims
namespace Sys2Proof.Laws
end Sys2Proof.Laws
namespace Sys2Proof.Claims
theorem CoresMoved.trans {n : Nat} {s t u : State} (h : CoresMoved n s t) (g : CoresMoved n t u) : CoresMoved n s u :=
  fun k hk => (h k hk).trans (g k hk)
end Sys2Proof.Claims
namespace Sys2Proof.Laws
end Sys2Proof.Laws
namespace Sys2Proof.Claims
theorem CoresMoved.of {n : Nat} {s t : State} (h : ∀ k, Moved (s.core k) (t.core k)) : CoresMoved n s t := fun k _ => h k
end Sys2Proof.Claims
namespace Sys2Proof.Laws
end Sys2Proof.Laws
namespace Sys2Proof.Claims
theorem CoresMoved.but {n : Nat} {s t : State} (h : CoresBut n s t) : CoresMoved n s t := fun k hk => by rw [h k hk]; exact .refl _
end Sys2Proof.Claims
namespace Sys2Proof.Laws
end Sys2Proof.Laws
namespace Sys2Proof.Claims
theorem Moved.upd {a b : Core} (h : Moved a b) : b.upd = a.upd := by rcases h with rfl | rfl <;> rfl
end Sys2Proof.Claims
namespace Sys2Proof.Laws
end Sys2Proof.Laws
namespace Sys2Proof.Claims
theorem Moved.loss {a b : Core} (h : Moved a b) : b.loss = a.loss := by rcases h with rfl | rfl <;> rfl
end Sys2Proof.Claims
namespace Sys2Proof.Laws
end Sys2Proof.Laws
namespace Sys2Proof.Claims
theorem Moved.st {a b : Core} (h : Moved a b) : b.stage.st = a.stage.st := by rcases h with rfl | rfl <;> rfl
end Sys2Proof.Claims
namespace Sys2Proof.Laws
theorem release_facts (u : State) (core q : Nat) : CoresMoved core u (releaseIn u core q) ∧
    ((releaseIn u core q).core core).arr = (u.core core).arr ∧ ((releaseIn u core q).core core).out = (u.core core).out ∧
    ((releaseIn u core q).core core).inp = tset (u.core core).inp q InPort.empty := by
  have h1 : ∀ k, Moved ((u.modCore core fun c => { c with inp := tset c.inp q InPort.empty }).core k) ((releaseIn u core q).core k) := by
    intro k
    unfold releaseIn
    dsimp only
    split
    · split
      · exact .refl _
      · exact moved_pump (State.modStream _ _ _ _) _ _ k
    · exact .refl _
  refine ⟨fun k hk => ?_, ?_⟩
  · have := h1 k; rw [core_modCore_other _ _ _ _ hk] at this; exact this
  · have := h1 core
    rw [core_modCore_self] at this
    rcases this with h | h <;> rw [h] <;> exact ⟨rfl, rfl, rfl⟩
theorem release_self (u : State) (core q k : Nat) : Moved ((u.modCore core fun c => { c with inp := tset c.inp q InPort.empty }).core k) ((releaseIn u core q).core k) := by
  unfold releaseIn
  dsimp only
  split
  · split
    · exact .refl _
    · exact moved_pump (State.modStream _ _ _ _) _ _ k
  · exact .refl _
/-- A fold over distinct cores: what each step does to a view of its own core, it does once to each. -/
theorem fold_view {α β : Type} (K : Core → α) (key : β → Nat) (f : State → β → State) (g : β → α → α) (ho : ∀ s m k, k ≠ key m → K ((f s m).core k) = K (s.core k))
    (hs : ∀ s m, K ((f s m).core (key m)) = g m (K (s.core (key m)))) : ∀ (ms : List β) (s : State), (ms.map key).Nodup →
    (∀ k, k ∉ ms.map key → K ((ms.foldl f s).core k) = K (s.core k)) ∧ (∀ m ∈ ms, K ((ms.foldl f s).core (key m)) = g m (K (s.core (key m))))
  | [], s, _ => ⟨fun _ _ => rfl, fun _ h => absurd h (by simp)⟩
  | a :: l, s, h => by
    rw [List.map_cons, List.nodup_cons] at h
    obtain ⟨i1, i2⟩ := fold_view K key f g ho hs l (f s a) h.2
    refine ⟨fun k hk => ?_, fun m hm => ?_⟩
    · rw [List.map_cons, List.mem_cons, not_or] at hk
      rw [List.foldl_cons, i1 k hk.2, ho _ _ _ hk.1]
    · rw [List.foldl_cons]
      rcases List.mem_cons.1 hm with e | hm
      · subst e; rw [i1 _ h.1, hs]
      · rw [i2 m hm, ho]
        intro e
        exact h.1 (e ▸ List.mem_map_of_mem hm)
/-- A fold whose steps move only their own core moves no other. -/
theorem fold_moved {β : Type} (key : β → Nat) (f : State → β → State) (ho : ∀ s m k, k ≠ key m → Moved (s.core k) ((f s m).core k)) : ∀ (ms : List β) (s : State) (k : Nat), k ∉ ms.map key → Moved (s.core k) ((ms.foldl f s).core k)
  | [], s, _, _ => .refl _
  | a :: l, s, k, h => by
    rw [List.map_cons, List.mem_cons, not_or] at h
    rw [List.foldl_cons]
    exact (ho s a k h.1).trans (fold_moved key f ho l _ k h.2)
theorem step_idle {s u : State} (f : State → State) (h : f s = u) : fabricStep s f = fabricStep s (fun _ => u) := by
  unfold fabricStep; rw [h]
end Sys2Proof.Laws
end

