-- ==== Sys2Proof/Laws/FactsBytes.lean ====
section
/-!
SUPPORT. The bytes of a word and of a range of memory, and what writing or reading a range does to each.
-/

open Sys2Proof Sys2Proof.Machine Sys2Proof.Claims

namespace Sys2Proof.Laws
theorem mem_setInsert (l : List Nat) (n m : Nat) : (setInsert l n).contains m = (l.contains m || decide (m = n)) := by
  induction l with
  | nil => by_cases h : m = n <;> simp [setInsert, h]
  | cons a t ih =>
    simp only [setInsert]
    split
    · by_cases h : m = n <;> simp [h]
    · split
      · rename_i h; subst h; by_cases h : m = n <;> simp [h]
      · simp only [List.contains_cons, ih]; cases (m == a) <;> simp
theorem rising_tail {a : Nat} {t : List Nat} (h : risingWf (a :: t)) : risingWf t ∧ ∀ m ∈ t, a < m := by
  induction t generalizing a with
  | nil => simp [risingWf]
  | cons b t ih =>
    simp [risingWf] at h
    refine ⟨h.2, fun m hm => ?_⟩
    rcases List.mem_cons.1 hm with rfl | hm'
    · exact h.1
    · exact lt_trans h.1 ((ih h.2).2 m hm')
theorem mem_setErase (l : List Nat) (n m : Nat) (h : risingWf l) : (setErase l n).contains m = (l.contains m && decide (m ≠ n)) := by
  induction l with
  | nil => simp [setErase]
  | cons a t ih =>
    obtain ⟨h1, h2⟩ := rising_tail h
    simp only [setErase]
    split
    · rename_i e; subst e
      by_cases hm : m = n
      · subst hm
        simp
        intro hc; exact absurd (h2 m hc) (lt_irrefl _)
      · simp [hm]
    · rename_i e
      simp only [List.contains_cons, ih h1]
      by_cases hm : m = a
      · subst hm; simp [Ne.symm e]
      · have : (m == a) = false := by simpa using hm
        simp [this]
theorem setWord_poison (m : Mem) (w u : Nat) (v : BitVec 1024) (p : Bool) (h : m.wf) : (m.setWord w v p).poisoned u = if u = w then p else m.poisoned u := by
  have hp : (m.writeBytes (128 * w) v.toNat 128).poison = m.poison := by
    have : ∀ n, (m.writeBytes (128 * w) v.toNat n).poison = m.poison := by
      intro n; induction n with
      | zero => rfl
      | succ n ih => simpa [Mem.writeBytes, Mem.write] using ih
    exact this 128
  have hr : risingWf m.poison := by simp [Mem.wf] at h; exact h.2
  simp only [Mem.poisoned, Mem.setWord, hp]
  split
  · rw [mem_setInsert]; by_cases e : u = w <;> simp_all
  · rw [mem_setErase _ _ _ hr]; by_cases e : u = w <;> simp_all
theorem setWord_read_self (m : Mem) (w : Nat) (v : BitVec 1024) (p : Bool) (i : Nat) (h : m.wf) (hi : i < 128) : (m.setWord w v p).read (128 * w + i) = BitVec.ofNat 8 (v.toNat / 2 ^ (8 * i)) := by
  have := Mem.read_writeBytes_self m (128 * w) v.toNat 128 i h hi
  simpa [Mem.setWord, Mem.read] using this
theorem ww_bytes (s : State) (w : Nat) (v : BitVec 1024) (p : Bool) : (writeWord s w v p).mem.mem = s.mem.mem.setWord w v p := by
  unfold writeWord
  dsimp only
  split
  · split <;> rfl
  · rfl
  · rfl
/-- The number whose bytes are `f k, f (k+1), …`. -/
theorem bytes_testBit (f : Nat → Nat) (hf : ∀ i, f i < 256) : ∀ (n k b : Nat),
    ((List.range' k n).foldr (fun i acc => f i + 256 * acc) 0).testBit b = (decide (b / 8 < n) && (f (k + b / 8)).testBit (b % 8))
  | 0, k, b => by simp
  | n + 1, k, b => by
    have ih := bytes_testBit f hf n (k + 1) (b - 8)
    rw [List.range'_succ, List.foldr_cons, Nat.add_comm (f k)]
    generalize (List.range' (k + 1) n).foldr (fun i acc => f i + 256 * acc) 0 = R at ih ⊢
    have e := Nat.testBit_two_pow_mul_add (i := 8) R (hf k) b
    rw [show 256 * R + f k = 2 ^ 8 * R + f k from rfl, e]
    by_cases hb : b < 8
    · rw [if_pos hb, Nat.div_eq_of_lt hb, Nat.mod_eq_of_lt hb]; simp
    · rw [if_neg hb, ih]
      have h1 : b / 8 = (b - 8) / 8 + 1 := by omega
      have h2 : b % 8 = (b - 8) % 8 := by omega
      rw [h1, h2, show k + 1 + (b - 8) / 8 = k + ((b - 8) / 8 + 1) by omega]
      simp
theorem readNat_testBit (m : Mem) (a n b : Nat) : (m.readNat a n).testBit b = (decide (b / 8 < n) && (m.read (a + b / 8)).toNat.testBit (b % 8)) := by
  unfold Mem.readNat
  rw [List.range_eq_range', bytes_testBit (fun i => (m.read (a + i)).toNat) (fun i => (m.read (a + i)).isLt)]
  simp
theorem readNat_lt (m : Mem) (a n : Nat) : m.readNat a n < 2 ^ (8 * n) := by
  apply Nat.lt_pow_two_of_testBit
  intro i hi
  rw [readNat_testBit, decide_eq_false (by omega)]
  rfl
theorem word_toNat (m : Mem) (w : Nat) : (m.word w).toNat = m.readNat (128 * w) 128 := by
  have := readNat_lt m (128 * w) 128
  unfold Mem.word
  rw [BitVec.toNat_ofNat]
  exact Nat.mod_eq_of_lt this
/-- A field of a number replaced by another. -/
theorem splice_testBit (old at' q x b : Nat) (hx : x < 2 ^ q) : (old - bits old at' q * 2 ^ at' + x * 2 ^ at').testBit b =
    if at' ≤ b ∧ b < at' + q then x.testBit (b - at') else old.testBit b := by
  have e1 : old = old % 2 ^ at' + 2 ^ at' * (old / 2 ^ at' % 2 ^ q + 2 ^ q * (old / 2 ^ at' / 2 ^ q)) := by
    have := Nat.mod_add_div old (2 ^ at')
    have h2 := Nat.mod_add_div (old / 2 ^ at') (2 ^ q)
    rw [h2, this]
  have e2 : old - bits old at' q * 2 ^ at' + x * 2 ^ at' = 2 ^ at' * (2 ^ q * (old / 2 ^ at' / 2 ^ q) + x) + old % 2 ^ at' := by
    have : old = old % 2 ^ at' + (bits old at' q * 2 ^ at' + 2 ^ at' * (2 ^ q * (old / 2 ^ at' / 2 ^ q))) := by
      rw [Nat.mul_add, Nat.mul_comm (2 ^ at') (old / 2 ^ at' % 2 ^ q)] at e1
      exact e1
    rw [Nat.mul_add, Nat.mul_comm x]
    clear e1
    generalize bits old at' q * 2 ^ at' = B at *
    generalize 2 ^ at' * (2 ^ q * (old / 2 ^ at' / 2 ^ q)) = C at *
    generalize old % 2 ^ at' = L at *
    generalize 2 ^ at' * x = D
    omega
  rw [e2, Nat.testBit_two_pow_mul_add _ (Nat.mod_lt _ (Nat.two_pow_pos _))]
  by_cases h1 : b < at'
  · rw [if_pos h1, if_neg (by omega), Nat.testBit_mod_two_pow]; simp [h1]
  · rw [if_neg h1, Nat.testBit_two_pow_mul_add _ hx]
    by_cases h2 : b < at' + q
    · rw [if_pos (by omega), if_pos (by omega)]
    · rw [if_neg (by omega), if_neg (by omega), Nat.testBit_div_two_pow, Nat.testBit_div_two_pow]
      congr 1; omega
theorem bits_testBit (v lo q b : Nat) : (bits v lo q).testBit b = (decide (b < q) && v.testBit (lo + b)) := by
  unfold bits
  rw [Nat.testBit_mod_two_pow, Nat.testBit_div_two_pow, Nat.add_comm]
theorem bits_lt (v lo q : Nat) : bits v lo q < 2 ^ q := Nat.mod_lt _ (Nat.two_pow_pos _)
theorem ww_fab (s : State) (w : Nat) (v : BitVec 1024) (p : Bool) : (writeWord s w v p).fab = s.fab ∧ (writeWord s w v p).ctxs = s.ctxs ∧ (writeWord s w v p).ledger = s.ledger ∧ (writeWord s w v p).mem.granules = s.mem.granules := by
  have sm : ∀ (u : State) (m : Mem), u.fab = s.fab ∧ u.ctxs = s.ctxs ∧ u.ledger = s.ledger ∧ u.mem.granules = s.mem.granules →
      (u.setMem m).fab = s.fab ∧ (u.setMem m).ctxs = s.ctxs ∧ (u.setMem m).ledger = s.ledger ∧ (u.setMem m).mem.granules = s.mem.granules := fun _ _ h => h
  unfold writeWord
  refine sm _ _ ?_
  split
  · split <;> exact ⟨rfl, rfl, rfl, rfl⟩
  · exact ⟨rfl, rfl, rfl, rfl⟩
  · exact ⟨rfl, rfl, rfl, rfl⟩
/-- A range of bytes written: those bytes are the data's, every other byte is as it was, and a word is poisoned after it as
before, or not at all where the whole of it was written. -/
theorem writeRange_facts (s : State) (a n v : Nat) (h : s.mem.mem.wf) :
    (writeRange s a n v).fab = s.fab ∧ (writeRange s a n v).ctxs = s.ctxs ∧ (writeRange s a n v).ledger = s.ledger ∧
    (writeRange s a n v).mem.granules = s.mem.granules ∧
    (writeRange s a n v).mem.mem.wf ∧
    (∀ x, (writeRange s a n v).mem.mem.read x = if a ≤ x ∧ x < a + n then BitVec.ofNat 8 (v / 2 ^ (8 * (x - a))) else s.mem.mem.read x) ∧
    ∀ w, (writeRange s a n v).mem.mem.poisoned w = (s.mem.mem.poisoned w && !decide (a ≤ 128 * w ∧ 128 * w + 128 ≤ a + n)) := by
  unfold writeRange
  by_cases hn : n = 0
  · subst hn
    rw [if_pos rfl]
    refine ⟨rfl, rfl, rfl, rfl, h, fun x => (if_neg (by omega)).symm, fun w => ?_⟩
    rw [decide_eq_false (by omega)]; simp
  · rw [if_neg hn]
    have gen : ∀ (k : Nat), k ≤ (a + n - 1) / 128 - a / 128 + 1 → ∀ t, t = (List.range k).foldl (fun s i =>
      let w := a / 128 + i
      let lo := max a (128 * w)
      let k := min (a + n) (128 * w + 128) - lo
      let old := (s.mem.mem.word w).toNat
      let at' := 8 * (lo - 128 * w)
      let new := old - bits old at' (8 * k) * 2 ^ at' + bits v (8 * (lo - a)) (8 * k) * 2 ^ at'
      writeWord s w (BitVec.ofNat 1024 new) (k < 128 && s.mem.mem.poisoned w)) s →
      t.fab = s.fab ∧ t.ctxs = s.ctxs ∧ t.ledger = s.ledger ∧ t.mem.granules = s.mem.granules ∧ t.mem.mem.wf ∧
      (∀ x, t.mem.mem.read x = if (a ≤ x ∧ x < a + n) ∧ x / 128 < a / 128 + k then BitVec.ofNat 8 (v / 2 ^ (8 * (x - a))) else s.mem.mem.read x) ∧
      ∀ w, t.mem.mem.poisoned w = (s.mem.mem.poisoned w && !decide ((a ≤ 128 * w ∧ 128 * w + 128 ≤ a + n) ∧ w < a / 128 + k)) := by
      intro k
      induction k with
      | zero =>
        intro _ t ht
        subst ht
        refine ⟨rfl, rfl, rfl, rfl, h, fun x => (if_neg (by omega)).symm, fun w => ?_⟩
        rw [decide_eq_false (by omega)]; simp
      | succ k ih =>
        intro hk t ht
        rw [List.range_succ, List.foldl_append] at ht
        generalize hu : (List.range k).foldl _ s = u at ht
        obtain ⟨f1, f2, f3, f4, f5, f6, f7⟩ := ih (by omega) u hu.symm
        simp only [List.foldl_cons, List.foldl_nil] at ht
        generalize hw : a / 128 + k = w at ht
        generalize hlo : max a (128 * w) = lo at ht
        generalize hq : min (a + n) (128 * w + 128) - lo = q at ht
        have hww : w ≤ (a + n - 1) / 128 := by omega
        have hlo1 : 128 * w ≤ lo ∧ a ≤ lo ∧ (lo = a ∨ lo = 128 * w) := by omega
        have hq1 : lo + q = min (a + n) (128 * w + 128) := by omega
        obtain ⟨g1, g2, g3, g4⟩ := ww_fab u w (BitVec.ofNat 1024 ((u.mem.mem.word w).toNat - bits (u.mem.mem.word w).toNat (8 * (lo - 128 * w)) (8 * q) * 2 ^ (8 * (lo - 128 * w)) + bits v (8 * (lo - a)) (8 * q) * 2 ^ (8 * (lo - 128 * w)))) (q < 128 && u.mem.mem.poisoned w)
        rw [ht]
        refine ⟨g1.trans f1, g2.trans f2, g3.trans f3, g4.trans f4, ?_, fun x => ?_, fun y => ?_⟩
        · rw [ww_bytes]; exact Mem.wf_setWord _ _ _ _ f5
        · rw [ww_bytes]
          by_cases hx : 128 * w ≤ x ∧ x < 128 * w + 128
          · obtain ⟨j, rfl⟩ : ∃ j, x = 128 * w + j := ⟨x - 128 * w, by omega⟩
            rw [setWord_read_self _ _ _ _ _ f5 (by omega)]
            apply BitVec.eq_of_getLsbD_eq
            intro i hi
            rw [BitVec.getLsbD_ofNat, Nat.testBit_div_two_pow, BitVec.toNat_ofNat, Nat.testBit_mod_two_pow,
              splice_testBit _ _ _ _ _ (bits_lt _ _ _), bits_testBit, word_toNat, readNat_testBit]
            rw [show (i + 8 * j) / 8 = j by omega, show (i + 8 * j) % 8 = i by omega, f6]
            rw [show (128 * w + j) / 128 = w by omega]
            by_cases hin : a ≤ 128 * w + j ∧ 128 * w + j < a + n
            · rw [if_pos (by omega), if_pos ⟨hin, by omega⟩, BitVec.getLsbD_ofNat, Nat.testBit_div_two_pow]
              rw [decide_eq_true hi, decide_eq_true (p := i + 8 * j < 1024) (by omega), decide_eq_true (by omega)]
              simp only [Bool.true_and]
              congr 1; omega
            · rw [if_neg (by omega), if_neg (by omega), if_neg (by omega)]
              rw [decide_eq_true hi, decide_eq_true (p := i + 8 * j < 1024) (by omega), decide_eq_true (by omega)]
              simp [BitVec.getLsbD]
          · rw [Mem.read_setWord_other _ _ _ _ _ f5 (by omega), f6]
            by_cases hin : a ≤ x ∧ x < a + n
            · by_cases hd : x / 128 < a / 128 + k
              · rw [if_pos ⟨hin, hd⟩, if_pos ⟨hin, by omega⟩]
              · rw [if_neg (by omega), if_neg (by omega)]
            · rw [if_neg (by omega), if_neg (by omega)]
        · rw [ww_bytes, setWord_poison _ _ _ _ _ f5, f7, f7]
          by_cases hy : y = w
          · subst hy
            rw [if_pos rfl]
            rw [decide_eq_false (p := (a ≤ 128 * y ∧ 128 * y + 128 ≤ a + n) ∧ y < a / 128 + k) (by omega)]
            by_cases hf : a ≤ 128 * y ∧ 128 * y + 128 ≤ a + n
            · rw [decide_eq_false (by omega), decide_eq_true (by omega)]; simp
            · rw [decide_eq_true (p := q < 128) (by omega), decide_eq_false (by omega)]; simp
          · rw [if_neg hy]
            congr 2
            rw [decide_eq_decide]; omega
    obtain ⟨f1, f2, f3, f4, f5, f6, f7⟩ := gen _ (Nat.le_refl _) _ rfl
    refine ⟨f1, f2, f3, f4, f5, fun x => (f6 x).trans ?_, fun w => (f7 w).trans ?_⟩
    · by_cases hin : a ≤ x ∧ x < a + n
      · rw [if_pos hin, if_pos ⟨hin, by omega⟩]
      · rw [if_neg hin, if_neg (by omega)]
    · congr 2
      rw [decide_eq_decide]; omega
/-- What a range reads as when none of its words is poisoned: its bytes, and nothing changes. -/
theorem readRange_clean (s : State) (a n : Nat) (h : ∀ w, a / 128 ≤ w → 128 * w < a + n → s.mem.mem.poisoned w = false) :
    readRange s a n = (s.mem.mem.readNat a n, s) := by
  unfold readRange
  by_cases hn : n = 0
  · subst hn; rfl
  · rw [if_neg hn]
    have gen : ∀ k, k ≤ (a + n - 1) / 128 - a / 128 + 1 → (List.range k).foldl (fun (r : Nat × State) i =>
      let w := a / 128 + i
      let lo := max a (128 * w)
      let k := min (a + n) (128 * w + 128) - lo
      let f : Nat × State := if r.2.mem.mem.poisoned w then (let u := r.2.free 1024; (u.1.toNat, u.2)) else ((r.2.mem.mem.word w).toNat, r.2)
      (r.1 + bits f.1 (8 * (lo - 128 * w)) (8 * k) * 2 ^ (8 * (lo - a)), f.2)) (0, s) = (s.mem.mem.readNat a (if k = 0 then 0 else min (a + n) (128 * (a / 128 + k)) - a), s) := by
      intro k
      induction k with
      | zero => intro _; rfl
      | succ k ih =>
        intro hk
        rw [List.range_succ, List.foldl_append, ih (by omega)]
        simp only [List.foldl_cons, List.foldl_nil]
        rw [h _ (by omega) (by omega)]
        simp only [Bool.false_eq_true, if_false]
        congr 1
        rw [word_toNat]
        generalize hw : a / 128 + k = w
        generalize hlo : max a (128 * w) = lo
        generalize hm : (if k = 0 then 0 else min (a + n) (128 * w) - a) = m
        rw [if_neg (Nat.succ_ne_zero k)]
        have hlm : lo - a = m := by split at hm <;> omega
        have hlt : s.mem.mem.readNat a m < 2 ^ (8 * (lo - a)) := by rw [hlm]; exact readNat_lt _ _ _
        rw [Nat.add_comm, Nat.mul_comm (bits _ _ _)]
        apply Nat.eq_of_testBit_eq
        intro b
        rw [Nat.testBit_two_pow_mul_add _ hlt, bits_testBit, readNat_testBit, readNat_testBit, readNat_testBit]
        by_cases hb : b < 8 * (lo - a)
        · rw [if_pos hb, decide_eq_true (by omega), decide_eq_true (by omega)]
        · rw [if_neg hb]
          have e1 : 8 * (lo - 128 * w) + (b - 8 * (lo - a)) = b + 8 * a - 8 * (128 * w) := by omega
          rw [e1, show (b + 8 * a - 8 * (128 * w)) % 8 = b % 8 by omega, show 128 * w + (b + 8 * a - 8 * (128 * w)) / 8 = a + b / 8 by omega]
          by_cases hb2 : b / 8 < min (a + n) (128 * (a / 128 + (k + 1))) - a
          · rw [decide_eq_true hb2, decide_eq_true (by omega), decide_eq_true (by omega)]; simp
          · rw [decide_eq_false hb2, decide_eq_false (p := b - 8 * (lo - a) < _) (by omega)]; simp
    have := gen _ (Nat.le_refl _)
    rw [if_neg (by omega), show min (a + n) (128 * (a / 128 + ((a + n - 1) / 128 - a / 128 + 1))) - a = n by omega] at this
    exact this
/-- What reading a range leaves: everything but the counter of free values. -/
theorem readRange_state (s : State) (a n : Nat) : ∃ k, (readRange s a n).2 = { s with freeCtr := k } := by
  unfold readRange
  split
  · exact ⟨s.freeCtr, rfl⟩
  · have : ∀ (l : List Nat) (r : Nat × State), (∃ k, r.2 = { s with freeCtr := k }) → ∃ k, (l.foldl (fun (r : Nat × State) i =>
      let w := a / 128 + i
      let lo := max a (128 * w)
      let k := min (a + n) (128 * w + 128) - lo
      let f : Nat × State := if r.2.mem.mem.poisoned w then (let u := r.2.free 1024; (u.1.toNat, u.2)) else ((r.2.mem.mem.word w).toNat, r.2)
      (r.1 + bits f.1 (8 * (lo - 128 * w)) (8 * k) * 2 ^ (8 * (lo - a)), f.2)) r).2 = { s with freeCtr := k } := by
      intro l
      induction l with
      | nil => intro r h; exact h
      | cons i l ih =>
        rintro r ⟨k, hk⟩
        rw [List.foldl_cons]
        apply ih
        dsimp only
        split
        · exact ⟨k + 1, by rw [hk]; rfl⟩
        · exact ⟨k, hk⟩
    exact this _ _ ⟨s.freeCtr, rfl⟩
end Sys2Proof.Laws
end

