-- ==== Sys2Proof/Laws/FactsLedgerBytes.lean ====
section
/-!
SUPPORT. The bytes of a ledger slot and of a record, and ranges that agree byte for byte.
-/

open Sys2Proof Sys2Proof.Machine Sys2Proof.Claims

namespace Sys2Proof.Laws
theorem readNat_congr (m m' : Mem) (a n : Nat) (h : ∀ i, i < n → m.read (a + i) = m'.read (a + i)) : m.readNat a n = m'.readNat a n := by
  apply Nat.eq_of_testBit_eq
  intro b
  rw [readNat_testBit, readNat_testBit]
  by_cases hb : b / 8 < n
  · rw [h _ hb]
  · rw [decide_eq_false hb]; rfl
theorem poisonedRange_iff (m : Mem) (a n : Nat) : m.poisonedRange a n = true ↔ ∃ w, m.poisoned w = true ∧ a / 128 ≤ w ∧ 128 * w < a + n := by
  unfold Mem.poisonedRange Mem.poisoned
  simp only [List.any_eq_true, Bool.and_eq_true, decide_eq_true_eq, List.contains_iff_mem]
theorem pieces_in (off n : Nat) : ∀ p ∈ ledgerPieces off n, ∀ j, j < p.2 → (p.1 + j) / 2 ^ 26 = p.1 / 2 ^ 26 := by
  intro p hp j hj
  unfold ledgerPieces at hp
  split at hp
  · cases hp
  · obtain ⟨i, hi, rfl⟩ := List.mem_map.1 hp
    simp only [List.mem_range] at hi
    simp only at hj ⊢
    omega
/-- What a write to the ledger's granules leaves: every byte that none of its offsets names, and the poison of its word. -/
theorem ledgerWrite_frame (s : State) (job : BitVec 32) (off : Nat) (b : Blob) (h : s.mem.mem.wf) :
    (ledgerWrite s job off b).mem.mem.wf ∧ (ledgerWrite s job off b).mem.granules = s.mem.granules ∧
    (∀ x, (∀ o, ledgerAddr s job o ≠ x) → (ledgerWrite s job off b).mem.mem.read x = s.mem.mem.read x ∧
      (ledgerWrite s job off b).mem.mem.poisoned (x / 128) = s.mem.mem.poisoned (x / 128)) := by
  have la : ∀ t : State, t.mem.granules = s.mem.granules → ∀ o, ledgerAddr t job o = ledgerAddr s job o := by
    intro t ht o
    unfold ledgerAddr ledgerGranules
    rw [ht]
  unfold ledgerWrite
  have gen : ∀ (l : List (Nat × Nat)), (∀ p ∈ l, ∀ j, j < p.2 → (p.1 + j) / 2 ^ 26 = p.1 / 2 ^ 26) → ∀ t : State, t.mem.mem.wf → t.mem.granules = s.mem.granules →
      (l.foldl (fun s p => memWrite s (ledgerAddr s job p.1) (b.slice (p.1 - off) p.2)) t).mem.mem.wf ∧
      (l.foldl (fun s p => memWrite s (ledgerAddr s job p.1) (b.slice (p.1 - off) p.2)) t).mem.granules = s.mem.granules ∧
      (∀ x, (∀ o, ledgerAddr s job o ≠ x) → (l.foldl (fun s p => memWrite s (ledgerAddr s job p.1) (b.slice (p.1 - off) p.2)) t).mem.mem.read x = t.mem.mem.read x ∧
        (l.foldl (fun s p => memWrite s (ledgerAddr s job p.1) (b.slice (p.1 - off) p.2)) t).mem.mem.poisoned (x / 128) = t.mem.mem.poisoned (x / 128)) := by
    intro l
    induction l with
    | nil => intro _ t h1 h2; exact ⟨h1, h2, fun _ _ => ⟨rfl, rfl⟩⟩
    | cons p l ih =>
      intro hl t h1 h2
      have hp := hl p (by simp)
      obtain ⟨-, -, -, f4, f5, f6, f7⟩ := writeRange_facts t (ledgerAddr t job p.1) p.2 (b.slice (p.1 - off) p.2).val h1
      rw [List.foldl_cons]
      have hm : memWrite t (ledgerAddr t job p.1) (b.slice (p.1 - off) p.2) = writeRange t (ledgerAddr t job p.1) p.2 (b.slice (p.1 - off) p.2).val := rfl
      rw [hm]
      obtain ⟨a1, a2, a3⟩ := ih (fun q hq => hl q (List.mem_cons_of_mem _ hq)) _ f5 (f4.trans h2)
      have out : ∀ x, (∀ o, ledgerAddr s job o ≠ x) → ¬ (ledgerAddr t job p.1 ≤ x ∧ x < ledgerAddr t job p.1 + p.2) := by
        rintro x hx ⟨g1, g2⟩
        have hj : x - ledgerAddr t job p.1 < p.2 := by omega
        have e := hp _ hj
        refine hx (p.1 + (x - ledgerAddr t job p.1)) ?_
        rw [← la t h2]
        have e1 : ledgerAddr t job (p.1 + (x - ledgerAddr t job p.1)) = ledgerAddr t job p.1 + (x - ledgerAddr t job p.1) := by
          generalize x - ledgerAddr t job p.1 = j at e ⊢
          unfold ledgerAddr
          rw [e]
          have : (p.1 + j) % 2 ^ 26 = p.1 % 2 ^ 26 + j := by omega
          rw [this, Nat.add_assoc]
        rw [e1]; omega
      refine ⟨a1, a2, fun x hx => ?_⟩
      have hx' := out x hx
      obtain ⟨b1, b2⟩ := a3 x hx
      rw [b1, b2, f6, f7, if_neg hx']
      refine ⟨rfl, ?_⟩
      rw [decide_eq_false (by omega)]
      simp
  exact gen _ (pieces_in off b.len) s h rfl

/-- What a write to the ledger does: each byte is as it was or one of the data's, and no word is poisoned that was not. -/
theorem ledgerWrite_cases (s : State) (job : BitVec 32) (off : Nat) (b : Blob) (h : s.mem.mem.wf) :
    (∀ x, (ledgerWrite s job off b).mem.mem.read x = s.mem.mem.read x ∨
      ∃ k, k < b.len ∧ x = ledgerAddr s job (off + k) ∧ (ledgerWrite s job off b).mem.mem.read x = BitVec.ofNat 8 (b.val / 2 ^ (8 * k))) ∧
    ∀ w, (ledgerWrite s job off b).mem.mem.poisoned w = true → s.mem.mem.poisoned w = true := by
  have la : ∀ t : State, t.mem.granules = s.mem.granules → ∀ o, ledgerAddr t job o = ledgerAddr s job o := by
    intro t ht o
    unfold ledgerAddr ledgerGranules
    rw [ht]
  unfold ledgerWrite
  have gen : ∀ (l : List (Nat × Nat)), (∀ p ∈ l, off ≤ p.1 ∧ p.1 + p.2 ≤ off + b.len ∧ ∀ j, j < p.2 → (p.1 + j) / 2 ^ 26 = p.1 / 2 ^ 26) → ∀ t : State, t.mem.mem.wf → t.mem.granules = s.mem.granules →
      (∀ x, (l.foldl (fun s p => memWrite s (ledgerAddr s job p.1) (b.slice (p.1 - off) p.2)) t).mem.mem.read x = t.mem.mem.read x ∨
        ∃ k, k < b.len ∧ x = ledgerAddr s job (off + k) ∧ (l.foldl (fun s p => memWrite s (ledgerAddr s job p.1) (b.slice (p.1 - off) p.2)) t).mem.mem.read x = BitVec.ofNat 8 (b.val / 2 ^ (8 * k))) ∧
      ∀ w, (l.foldl (fun s p => memWrite s (ledgerAddr s job p.1) (b.slice (p.1 - off) p.2)) t).mem.mem.poisoned w = true → t.mem.mem.poisoned w = true := by
    intro l
    induction l with
    | nil => intro _ t _ _; exact ⟨fun _ => Or.inl rfl, fun _ h => h⟩
    | cons p l ih =>
      intro hl t h1 h2
      obtain ⟨p1, p2, p3⟩ := hl p (by simp)
      obtain ⟨-, -, -, f4, f5, f6, f7⟩ := writeRange_facts t (ledgerAddr t job p.1) p.2 (b.slice (p.1 - off) p.2).val h1
      rw [List.foldl_cons]
      have hm : memWrite t (ledgerAddr t job p.1) (b.slice (p.1 - off) p.2) = writeRange t (ledgerAddr t job p.1) p.2 (b.slice (p.1 - off) p.2).val := rfl
      rw [hm]
      obtain ⟨a1, a2⟩ := ih (fun q hq => hl q (List.mem_cons_of_mem _ hq)) _ f5 (f4.trans h2)
      refine ⟨fun x => ?_, fun w hw => ?_⟩
      · rcases a1 x with e | ⟨k, e⟩
        · by_cases hin : ledgerAddr t job p.1 ≤ x ∧ x < ledgerAddr t job p.1 + p.2
          · obtain ⟨j, rfl⟩ : ∃ j, x = ledgerAddr t job p.1 + j := ⟨x - ledgerAddr t job p.1, by omega⟩
            have hj : j < p.2 := by omega
            refine Or.inr ⟨p.1 - off + j, by omega, ?_, ?_⟩
            · rw [show off + (p.1 - off + j) = p.1 + j by omega, ← la t h2]
              have e := p3 j hj
              unfold ledgerAddr
              rw [e]
              have : (p.1 + j) % 2 ^ 26 = p.1 % 2 ^ 26 + j := by omega
              rw [this, Nat.add_assoc]
            · rw [e, f6, if_pos hin, show ledgerAddr t job p.1 + j - ledgerAddr t job p.1 = j by omega]
              apply BitVec.eq_of_getLsbD_eq
              intro i hi
              rw [BitVec.getLsbD_ofNat, BitVec.getLsbD_ofNat, Nat.testBit_div_two_pow, Nat.testBit_div_two_pow]
              show (_ && (bits b.val (8 * (p.1 - off)) (8 * p.2)).testBit _) = _
              rw [bits_testBit, decide_eq_true (p := i + 8 * j < 8 * p.2) (by omega), Bool.true_and]
              congr 2; omega
          · left; rw [e, f6, if_neg hin]
        · exact Or.inr ⟨k, e⟩
      · have := a2 w hw
        rw [f7, Bool.and_eq_true] at this
        exact this.1
  refine gen _ (fun p hp => ⟨?_, ?_, pieces_in _ _ p hp⟩) s h rfl
  · unfold ledgerPieces at hp
    split at hp
    · cases hp
    · obtain ⟨i, hi, rfl⟩ := List.mem_map.1 hp
      simp only; omega
  · unfold ledgerPieces at hp
    split at hp
    · cases hp
    · obtain ⟨i, hi, rfl⟩ := List.mem_map.1 hp
      simp only [List.mem_range] at hi
      simp only; omega
/-- What the ledger reads as, bit by bit. -/
theorem ledgerRead_facts (s : State) (job : BitVec 32) (off n : Nat) :
    (ledgerRead s job off n).len = n ∧ ∀ b, (ledgerRead s job off n).val.testBit b = (decide (b / 8 < n) && (s.mem.mem.read (ledgerAddr s job (off + b / 8))).toNat.testBit (b % 8)) := by
  unfold ledgerRead ledgerPieces
  by_cases hn : n = 0
  · subst hn
    rw [if_pos rfl]
    refine ⟨rfl, fun b => ?_⟩
    rw [decide_eq_false (by omega)]
    exact Nat.zero_testBit _
  · rw [if_neg hn]
    have gen : ∀ k, k ≤ (off + n - 1) / 2 ^ 26 - off / 2 ^ 26 + 1 → ∀ B, B = ((List.range k).map fun i =>
        let g := off / 2 ^ 26 + i
        let lo := max off (2 ^ 26 * g)
        (lo, min (off + n) (2 ^ 26 * g + 2 ^ 26) - lo)).foldl (fun b p => Blob.append b (memRead s (ledgerAddr s job p.1) p.2)) Blob.empty →
        B.len = (if k = 0 then 0 else min (off + n) (2 ^ 26 * (off / 2 ^ 26 + k)) - off) ∧ B.val < 2 ^ (8 * B.len) ∧
        ∀ b, B.val.testBit b = (decide (b / 8 < B.len) && (s.mem.mem.read (ledgerAddr s job (off + b / 8))).toNat.testBit (b % 8)) := by
      intro k
      induction k with
      | zero =>
        intro _ B hB
        subst hB
        refine ⟨rfl, Nat.one_pos, fun b => ?_⟩
        show Nat.testBit 0 b = (decide (b / 8 < 0) && _)
        simp
      | succ k ih =>
        intro hk B hB
        rw [List.range_succ, List.map_append, List.foldl_append] at hB
        generalize hA : (List.map _ (List.range k)).foldl _ Blob.empty = A at hB
        obtain ⟨i1, i2, i3⟩ := ih (by omega) A hA.symm
        simp only [List.map_cons, List.map_nil, List.foldl_cons, List.foldl_nil] at hB
        generalize hg : off / 2 ^ 26 + k = g at hB i1
        generalize hlo : max off (2 ^ 26 * g) = lo at hB
        generalize hq : min (off + n) (2 ^ 26 * g + 2 ^ 26) - lo = q at hB
        have hle : g ≤ (off + n - 1) / 2 ^ 26 := by omega
        have hAl : A.len = lo - off := by rw [i1]; split <;> omega
        have hlq : lo + q = min (off + n) (2 ^ 26 * g + 2 ^ 26) := by omega
        have hlen : B.len = A.len + q := by rw [hB]; rfl
        have hval : B.val = A.val + s.mem.mem.readNat (ledgerAddr s job lo) q * 2 ^ (8 * A.len) := by rw [hB]; rfl
        have hlt := readNat_lt s.mem.mem (ledgerAddr s job lo) q
        refine ⟨?_, ?_, fun b => ?_⟩
        · rw [hlen, if_neg (Nat.succ_ne_zero k), hAl]; omega
        · rw [hlen, hval, Nat.mul_add, Nat.pow_add]
          calc A.val + s.mem.mem.readNat (ledgerAddr s job lo) q * 2 ^ (8 * A.len) < 2 ^ (8 * A.len) + s.mem.mem.readNat (ledgerAddr s job lo) q * 2 ^ (8 * A.len) := Nat.add_lt_add_right i2 _
            _ = 2 ^ (8 * A.len) * (1 + s.mem.mem.readNat (ledgerAddr s job lo) q) := by ring
            _ ≤ 2 ^ (8 * A.len) * 2 ^ (8 * q) := Nat.mul_le_mul_left _ (by omega)
        · rw [hval, Nat.add_comm, Nat.mul_comm _ (2 ^ _), Nat.testBit_two_pow_mul_add _ i2, hlen]
          by_cases hb : b < 8 * A.len
          · rw [if_pos hb, i3, decide_eq_true (p := b / 8 < A.len) (by omega), decide_eq_true (p := b / 8 < A.len + q) (by omega)]
          · rw [if_neg hb, readNat_testBit]
            by_cases hb2 : b / 8 < A.len + q
            · rw [decide_eq_true hb2, decide_eq_true (p := (b - 8 * A.len) / 8 < q) (by omega), show (b - 8 * A.len) % 8 = b % 8 by omega]
              congr 3
              have hd : (off + b / 8) / 2 ^ 26 = lo / 2 ^ 26 := by omega
              have hd2 : (off + b / 8) % 2 ^ 26 = lo % 2 ^ 26 + (b - 8 * A.len) / 8 := by omega
              unfold ledgerAddr
              rw [hd, hd2, Nat.add_assoc]
            · rw [decide_eq_false hb2, decide_eq_false (p := (b - 8 * A.len) / 8 < q) (by omega)]; rfl
    obtain ⟨g1, g2, g3⟩ := gen _ (Nat.le_refl _) _ rfl
    have hl : _ = n := g1.trans (by rw [if_neg (by omega)]; omega)
    refine ⟨hl, fun b => (g3 b).trans ?_⟩
    rw [hl]
end Sys2Proof.Laws
end

