-- ==== Sys2Proof/Laws/FactsRecovery.lean ====
section
/-!
SUPPORT. Routes and costs, loads given up, resets of the dies, and what the operations of a recovery leave.
-/

open Sys2Proof Sys2Proof.Machine Sys2Proof.Claims

namespace Sys2Proof.Laws
/-- The costs and the paths of a search are those of the database. -/
theorem costs_db {s t : State} (h : t.fab.lsdb = s.fab.lsdb) (nodes : List Nat) : ∀ (n : Nat) (d : Tbl Nat), costsTo t nodes n d = costsTo s nodes n d
  | 0, _ => rfl
  | n + 1, d => by
    unfold costsTo
    dsimp only
    simp only [h]
    split
    · rfl
    · exact costs_db h nodes n _
theorem acc_db {s t : State} (h : t.fab.lsdb = s.fab.lsdb) (n : Nat) : accOf t n = accOf s n := by unfold accOf; rw [h]
theorem paths_db {s t : State} (h : t.fab.lsdb = s.fab.lsdb) (nodes : List Nat) (dst : Nat) (best : Tbl Nat) :
    ∀ (f a l : Nat) (d : Bool) (u : Nat) (seen : List Nat), pathsFrom t nodes dst best f a l d u seen = pathsFrom s nodes dst best f a l d u seen
  | 0, _, _, _, _, _ => rfl
  | f + 1, a, l, d, u, seen => by
    unfold pathsFrom
    dsimp only
    simp only [h, acc_db h]
    apply List.flatMap_congr
    intro e _
    simp only [paths_db h nodes dst best f]
theorem hops_db {s t : State} (h : t.fab.lsdb = s.fab.lsdb) (a b : Nat) : hopsBetween t a b = hopsBetween s a b := by
  have hr : ∀ n, routable t n = routable s n := by intro n; unfold routable; rw [h]
  have hs : ∀ a, serialOfAcc t a = serialOfAcc s a := by intro a; unfold serialOfAcc; rw [h]
  have hset : ∀ a b, routeSet t a b = routeSet s a b := by
    intro a b
    unfold routeSet
    simp only [hr, h, costs_db h, paths_db h]
  unfold hopsBetween
  simp only [hs, hset]
/-- What a choice of a spare reads of a context. -/
def spareView (x : Ctx) : List Nat × List Nat × (Nat → Option Nat) := (x.led.ranks, planSpares x.plan, anchorOf x)
theorem choose_same {s t : State} (c r : Nat) (tried : List Nat) (h1 : t.fab.lsdb = s.fab.lsdb) (h2 : t.fab.acc = s.fab.acc) (h3 : t.fab.routes = s.fab.routes)
    (h4 : spareView (t.ctx c) = spareView (s.ctx c)) : chooseSpare t c r tried = chooseSpare s c r tried := by
  simp only [spareView, Prod.mk.injEq] at h4
  obtain ⟨k1, k2, k3⟩ := h4
  have he : ∀ a, spareEligible t (t.ctx c) a = spareEligible s (s.ctx c) a := by
    intro a; unfold spareEligible; rw [k1, h1, h2, h3]
  unfold chooseSpare
  simp only [he, k2, k3, hops_db h1]
theorem fold_least (f : Nat → Nat) (l : List Nat) : ∀ (m : Option Nat),
    let z := l.foldl (fun (m : Option Nat) a => match m with
      | none => some a
      | some b => if f a < f b || (f a = f b && a < b) then some a else m) m
    (z = none ↔ m = none ∧ l = []) ∧ ∀ a, z = some a → (m = some a ∨ a ∈ l) ∧ ∀ b, m = some b ∨ b ∈ l → f a < f b ∨ f a = f b ∧ a ≤ b := by
  induction l with
  | nil => 
    intro m
    refine ⟨by simp, fun a ha => ⟨Or.inl ha, fun b hb => ?_⟩⟩
    rcases hb with hb | hb
    · rw [show m = some a from ha] at hb; cases hb; exact Or.inr ⟨rfl, Nat.le_refl _⟩
    · cases hb
  | cons x l ih =>
    intro m
    dsimp only [List.foldl_cons]
    cases m with
    | none =>
      obtain ⟨i1, i2⟩ := ih (some x)
      refine ⟨⟨fun h => ?_, fun h => by simp at h⟩, fun a ha => ?_⟩
      · have := i1.1 h; simp at this
      · obtain ⟨j1, j2⟩ := i2 a ha
        refine ⟨Or.inr ?_, fun b hb => j2 b ?_⟩
        · rcases j1 with j | j
          · cases j; simp
          · simp [j]
        · rcases hb with hb | hb
          · cases hb
          · rcases List.mem_cons.1 hb with hb | hb
            · exact Or.inl (by rw [hb])
            · exact Or.inr hb
    | some y =>
      dsimp only
      by_cases hc : (decide (f x < f y) || (decide (f x = f y) && decide (x < y))) = true
      · rw [if_pos hc]
        obtain ⟨i1, i2⟩ := ih (some x)
        have hc' : f x < f y ∨ f x = f y ∧ x < y := by simpa using hc
        refine ⟨⟨fun h => ?_, fun h => by simp at h⟩, fun a ha => ?_⟩
        · have := i1.1 h; simp at this
        · obtain ⟨j1, j2⟩ := i2 a ha
          refine ⟨Or.inr ?_, fun b hb => ?_⟩
          · rcases j1 with j | j
            · cases j; simp
            · simp [j]
          · rcases hb with hb | hb
            · cases hb
              have := j2 x (Or.inl rfl)
              omega
            · rcases List.mem_cons.1 hb with hb | hb
              · exact j2 b (Or.inl (by rw [hb]))
              · exact j2 b (Or.inr hb)
      · rw [if_neg hc]
        obtain ⟨i1, i2⟩ := ih (some y)
        have hc' : ¬ (f x < f y ∨ f x = f y ∧ x < y) := by simpa using hc
        refine ⟨⟨fun h => ?_, fun h => by simp at h⟩, fun a ha => ?_⟩
        · have := i1.1 h; simp at this
        · obtain ⟨j1, j2⟩ := i2 a ha
          refine ⟨?_, fun b hb => ?_⟩
          · rcases j1 with j | j
            · exact Or.inl j
            · exact Or.inr (by simp [j])
          · rcases hb with hb | hb
            · exact j2 b (Or.inl hb)
            · rcases List.mem_cons.1 hb with hb | hb
              · have := j2 y (Or.inl rfl)
                subst hb
                omega
              · exact j2 b (Or.inr hb)
theorem fold_same {α β : Type} {g : State → α} {f : State → β → State} (h : ∀ s a, g (f s a) = g s) : ∀ (l : List β) (s : State), g (l.foldl f s) = g s
  | [], _ => rfl
  | a :: l, s => (fold_same h l (f s a)).trans (h s a)
/-- What a halted job keeps. -/
theorem haltJob_facts (s : State) (c n : Nat) : HaltedJob c n (s.ctx c).unload (haltJob s c n) ∧
    ((haltJob s c n).ctx c).led.seq = (s.ctx c).led.seq ∧ ((haltJob s c n).ctx c).led.coordinator = (s.ctx c).led.coordinator ∧
    ((haltJob s c n).ctx c).led.heard = (s.ctx c).led.heard ∧ ((haltJob s c n).ctx c).led.joining = (s.ctx c).led.joining ∧
    ((haltJob s c n).ctx c).led.recovery = (s.ctx c).led.recovery ∧ ((haltJob s c n).ctx c).led.sent = (s.ctx c).led.sent ∧
    ((haltJob s c n).ctx c).led.noSpare = (s.ctx c).led.noSpare := by
  have e : (ctxEvent (s.modLed c fun l => { l with st := .halted, haltCause := BitVec.ofNat 4 n }) c .halted (s.ctx c).step.jobStep).ctx c = { s.ctx c with led := { (s.ctx c).led with st := .halted, haltCause := BitVec.ofNat 4 n }, lastEvent := .halted } := by
    unfold ctxEvent
    dsimp only
    have : ∀ (u : State) f, (u.modTaken f).ctx c = u.ctx c := fun _ _ => rfl
    rw [this]
    have : ∀ (u : State) v, (raiseVector u v).ctx c = u.ctx c := fun _ _ => rfl
    rw [this, ctx_modCtx_self, ctx_modLed]
  unfold haltJob
  dsimp only
  generalize ctxEvent _ c _ _ = s2 at e ⊢
  by_cases hu : (s.ctx c).unload = true
  · rw [if_pos (by rw [e]; exact hu), ctx_of ((touches_settleSlips _).2 .ctxs (by decide)) c]
    have hun : (unloadNow s2 c).ctx c = { s2.ctx c with st := .idle, unload := false, entry := none, image := none, streams := [], nodes := [], led := { (s2.ctx c).led with st := .none, commit := none, waiting := none } } := by
      unfold unloadNow
      dsimp only
      rw [ctx_of (fold_same (g := State.ctxs) (fun u n => (touches_rebindShelf u n).2 .ctxs (by decide)) _ _) c, ctx_modCtx_self]
      have e3 : (List.foldl (fun s sh => s.modShelf sh fun y => { y with pf := [], pfReqs := [], reports := [], confirming := none })
          (closeQueues (List.foldl (fun s n => s.modCore n Core.unloaded) s2 (coresOf s2 c)) c false) (shelvesOf (s2.ctx c).mask)).ctxs = s2.ctxs := by
        refine Eq.trans (by refine fold_same (g := State.ctxs) ?_ _ _; intro u n; rfl) ?_
        refine Eq.trans ((touches_closeQueues _ _ _).2 .ctxs (by decide)) ?_
        refine fold_same (g := State.ctxs) ?_ _ _
        intro u n; rfl
      rw [ctx_of e3 c]
    unfold HaltedJob
    rw [ctx_of ((touches_settleSlips _).2 .ctxs (by decide)) c, hun, e]
    exact ⟨⟨rfl, rfl, fun h => absurd hu (by rw [h]; simp), fun _ => ⟨rfl, rfl⟩⟩, rfl, rfl, rfl, rfl, rfl, rfl, rfl⟩
  · rw [if_neg (by rw [e]; exact hu)]
    unfold HaltedJob
    rw [e]
    exact ⟨⟨rfl, rfl, fun _ => rfl, fun h => absurd h hu⟩, rfl, rfl, rfl, rfl, rfl, rfl, rfl⟩

/-- What offering the next rank does. -/
theorem bindNext_facts (s : State) (c : Nat) (v : Recovery) (hr : (s.ctx c).led.recovery = some v) : Offered s c v (bindNext s c) ∧
    ((bindNext s c).ctx c).led.seq = (s.ctx c).led.seq ∧ ((bindNext s c).ctx c).led.coordinator = (s.ctx c).led.coordinator ∧
    ((bindNext s c).ctx c).led.heard = (s.ctx c).led.heard ∧ ((bindNext s c).ctx c).led.joining = (s.ctx c).led.joining ∧
    ∀ e, e ∈ (s.ctx c).led.sent → e ∈ ((bindNext s c).ctx c).led.sent := by
  unfold bindNext
  rw [hr]
  dsimp only
  unfold Offered
  cases hu : v.unbound with
  | nil => exact ⟨hr, rfl, rfl, rfl, rfl, fun _ h => h⟩
  | cons r l =>
    dsimp only
    cases hs : chooseSpare s c r v.tried with
    | some a =>
      dsimp only
      generalize hm : State.modLed s c _ = s1
      have e1 : s1.ctx c = { s.ctx c with led := { (s.ctx c).led with recovery := some { v with offered := some a }, noSpare := false } } := by rw [← hm, ctx_modLed, hu]
      have hk : ∀ {α : Type} {g : Ctx → α}, Blind g → LB g → ∀ k, g ((sendCtrlTo s1 c a k).ctx c) = g (s1.ctx c) := fun h1 h2 k => CK.sendCtrlTo h1 h2 s1 c a k c
      have q := fun k => hk (g := fun x => (x.led.seq, x.led.coordinator, x.led.heard, x.led.joining, x.led.recovery, x.led.noSpare)) (fun _ _ _ _ => rfl) (fun _ _ _ => rfl) k
      simp only [e1, Prod.mk.injEq] at q
      refine ⟨⟨?_, (q _).2.2.2.2.2, ?_⟩, (q _).1, (q _).2.1, (q _).2.2.1, (q _).2.2.2.1, fun e he => ?_⟩
      · rw [(q _).2.2.2.2.1, hu]
      · rw [(q _).1, sent_ctrlTo]; simp
      · rw [sent_ctrlTo, e1]; exact List.mem_append_left _ he
    | none =>
      dsimp only
      generalize hm : State.modLed s c _ = s1
      have e1 : s1.ctx c = { s.ctx c with led := { (s.ctx c).led with recovery := some { v with offered := none, tried := [] }, noSpare := true } } := by rw [← hm, ctx_modLed, hu]
      split
      · rename_i hj
        rw [e1, hu]
        exact ⟨⟨rfl, rfl, fun h => absurd hj (by rw [h]; simp)⟩, rfl, rfl, rfl, rfl, fun _ h => h⟩
      · obtain ⟨h0, h1, h2, h3, h4, h5, h6, h7⟩ := haltJob_facts s1 c 0xA
        rw [h1, h2, h3, h4, h5, h6, h7]
        rw [e1] at h0
        rw [e1, hu]
        exact ⟨⟨rfl, rfl, fun _ => h0⟩, rfl, rfl, rfl, rfl, fun _ h => h⟩
theorem FS.sendAll (s : State) (c : Nat) (k : Ctrl) : FS s (sendAll s c k) := FS.foldl (fun s r => FS.sendCtrl s c r k) _ _
theorem offered_congr {s u t : State} {c : Nat} {v : Recovery} (h1 : ∀ r tried, chooseSpare u c r tried = chooseSpare s c r tried) (h2 : (u.ctx c).rank = (s.ctx c).rank) (h3 : (u.ctx c).unload = (s.ctx c).unload) (h : Offered u c v t) : Offered s c v t := by
  unfold Offered at h ⊢
  simp only [h1, h2, h3] at h
  exact h
/-- What a recovery that starts with a record does. -/
theorem start_with (s : State) (c : Nat) (v : Recovery) (t : State)
    (ht : t = let s1 := s.modLed c fun l => { l with
        seq := l.seq + 1, heard := some (s.ctx c).rank.toNat, coordinator := true, recovery := some v, joining := none, rebound := false }
      let s2 := sendAll s1 c { typ := 3, seq := 0, src := 0 }
      if planRetry (s.ctx c).plan ≤ (s.ctx c).led.retries then haltJob s2 c 9 else bindNext s2 c) :
    (t.ctx c).led.seq = (s.ctx c).led.seq + 1 ∧ (t.ctx c).led.coordinator = true ∧ (t.ctx c).led.heard = some (s.ctx c).rank.toNat ∧
    (t.ctx c).led.joining = none ∧
    (∀ r a, r ∈ liveRanks (s.ctx c) → rankAcc (s.ctx c) r = some a →
      (a, { typ := 3, seq := (s.ctx c).led.seq + 1, src := (s.ctx c).rank.toNat }) ∈ (t.ctx c).led.sent) ∧
    (planRetry (s.ctx c).plan ≤ (s.ctx c).led.retries → (t.ctx c).led.recovery = some v ∧ HaltedJob c 9 (s.ctx c).unload t) ∧
    ((s.ctx c).led.retries < planRetry (s.ctx c).plan → Offered s c v t) := by
  dsimp only at ht
  generalize hm : State.modLed s c _ = s1 at ht
  have e1 : s1.ctx c = { s.ctx c with led := { (s.ctx c).led with seq := (s.ctx c).led.seq + 1, heard := some (s.ctx c).rank.toNat, coordinator := true, recovery := some v, joining := none, rebound := false } } := by rw [← hm, ctx_modLed]
  have f1 : s1.fab = s.fab := by rw [← hm]; rfl
  generalize hk : ({ typ := 3, seq := 0, src := 0 } : Ctrl) = k3 at ht
  have hsent : ∀ r a, r ∈ liveRanks (s.ctx c) → rankAcc (s.ctx c) r = some a → (a, { typ := 3, seq := (s.ctx c).led.seq + 1, src := (s.ctx c).rank.toNat }) ∈ ((sendAll s1 c k3).ctx c).led.sent := by
    intro r a h1 h2
    have := sendAll_sent s1 c k3 r a (by rw [e1]; exact h1) (by rw [e1]; exact h2)
    rw [e1, ← hk] at this
    rw [← hk]
    exact this
  have q := CK.sendAll (g := fun x => (x.led.seq, x.led.coordinator, x.led.heard, x.led.joining, x.led.recovery, x.unload, x.rank, spareView x)) (fun _ _ _ _ => rfl) (fun _ _ _ => rfl) s1 c k3 c
  obtain ⟨L, T, n, ef⟩ := (FS.sendAll s1 c k3).fab
  generalize sendAll s1 c k3 = s2 at ht hsent q ef
  simp only [e1, Prod.mk.injEq] at q
  obtain ⟨q1, q2, q3, q4, q5, q6, q7, q8⟩ := q
  subst ht
  by_cases hp : planRetry (s.ctx c).plan ≤ (s.ctx c).led.retries
  · rw [if_pos hp]
    obtain ⟨h0, h1, h2, h3, h4, h5, h6, h7⟩ := haltJob_facts s2 c 9
    rw [h1, h2, h3, h4, h5, h6]
    rw [q6] at h0
    exact ⟨q1, q2, q3, q4, hsent, fun _ => ⟨q5, h0⟩, fun h => absurd hp (by omega)⟩
  · rw [if_neg hp]
    obtain ⟨h0, h1, h2, h3, h4, h5⟩ := bindNext_facts s2 c v q5
    rw [h1, h2, h3, h4]
    refine ⟨q1, q2, q3, q4, fun r a g1 g2 => h5 _ (hsent r a g1 g2), fun h => absurd h hp, fun _ => offered_congr (fun r tried => ?_) q7 q6 h0⟩
    refine choose_same c r tried ?_ ?_ ?_ q8
    · rw [ef, f1]
    · rw [ef, f1]
    · rw [ef, f1]
theorem start_facts (s : State) (c : Nat) (lost faulted : List Nat) : Restarted s c lost faulted (startRecovery s c lost faulted) := by
  have hmem : (startRecovery s c lost faulted).mem = s.mem := mem_of (touches_startRecovery s c lost faulted) (by decide) (by decide) (by decide)
  have hsec : (startRecovery s c lost faulted).sec = s.sec := (touches_startRecovery s c lost faulted).2 .sec (by decide)
  obtain ⟨a1, a2, a3, a4, a5, a6, a7⟩ := start_with s c _ _ (show startRecovery s c lost faulted = _ from rfl)
  exact ⟨a1, a2, a3, a4, a5, a6, a7, hmem, hsec⟩
theorem flush_view (a b : State) (c : Nat) : ((flushCredits a b).ctx c).led = (b.ctx c).led ∧ ((flushCredits a b).ctx c).lastEvent = (b.ctx c).lastEvent ∧
    ((flushCredits a b).ctx c).st = (b.ctx c).st ∧ (flushCredits a b).mem = b.mem ∧ (flushCredits a b).sec = b.sec ∧ (flushCredits a b).cores = b.cores := by
  have q := CK.flushCredits (g := fun x => (x.led, x.lastEvent, x.st)) (fun _ _ _ _ => rfl) a b c
  simp only [Prod.mk.injEq] at q
  exact ⟨q.1, q.2.1, q.2.2, mem_of (touches_flushCredits _ _) (by decide) (by decide) (by decide), (touches_flushCredits _ _).2 .sec (by decide), (touches_flushCredits _ _).2 .cores (by decide)⟩
theorem halted_flush {c n : Nat} {u : Bool} {a b : State} (h : HaltedJob c n u b) : HaltedJob c n u (flushCredits a b) := by
  obtain ⟨f1, f2, f3, -⟩ := flush_view a b c
  unfold HaltedJob at h ⊢
  rw [f1, f2, f3]
  exact h
theorem offered_flush {s a b : State} {c : Nat} {v : Recovery} (h : Offered s c v b) : Offered s c v (flushCredits a b) := by
  obtain ⟨f1, -⟩ := flush_view a b c
  unfold Offered at h ⊢
  rw [f1]
  split at h
  · exact h
  · split at h
    · exact h
    · exact ⟨h.1, h.2.1, fun hj => halted_flush (h.2.2 hj)⟩
theorem restarted_flush {s a b : State} {c : Nat} {l f : List Nat} (h : Restarted s c l f b) : Restarted s c l f (flushCredits a b) := by
  obtain ⟨f1, _, _, f4, f5, _⟩ := flush_view a b c
  obtain ⟨h1, h2, h3, h4, h5, h6, h7, h8, h9⟩ := h
  refine ⟨?_, ?_, ?_, ?_, ?_, fun g => ⟨?_, halted_flush (h6 g).2⟩, fun g => offered_flush (h7 g), f4.trans h8, f5.trans h9⟩
  · rw [f1]; exact h1
  · rw [f1]; exact h2
  · rw [f1]; exact h3
  · rw [f1]; exact h4
  · rw [f1]; exact h5
  · rw [f1]; exact (h6 g).1
theorem flush_none {s t : State} (h : t.media = s.media) : flushCredits s t = t := by
  unfold flushCredits
  have : ∀ x, ((t.complex x).credits.drop (s.complex x).credits.length) = [] := by
    intro x; unfold State.complex; rw [h]; exact List.drop_length
  simp only [List.foldl_cons, List.foldl_nil, this]
theorem mail_media {s s1 : State} {m : Option Ctrl} {c n : Nat} (ht : takeMail s c n = (s1, m)) : s1.media = s.media := by
  have := touches_takeMail s c n
  rw [ht] at this
  exact this.2 .media (by decide)
/-- What cancelling the loads of retired cores changes of the bring-up and of the host block: only the rebindings that their
shelves have waiting, and how slips end. -/
def CL (s t : State) : Prop := (∃ sp, t.bring = { s.bring with spareTests := sp }) ∧ ∃ tk, t.host = { s.host with taken := tk }
theorem CL.refl (s : State) : CL s s := ⟨⟨_, rfl⟩, _, rfl⟩
theorem CL.trans {s t u : State} (a : CL s t) (b : CL t u) : CL s u := by
  obtain ⟨⟨x, a1⟩, y, a2⟩ := a
  obtain ⟨⟨z, b1⟩, w, b2⟩ := b
  exact ⟨⟨z, by rw [b1, a1]⟩, w, by rw [b2, a2]⟩
theorem CL.touch {ps : List Part} {s t : State} (h : Touches ps s t) (h1 : Part.bring ∉ ps) (h2 : Part.host ∉ ps) : CL s t :=
  ⟨⟨_, by rw [h.2 .bring h1]⟩, _, by rw [h.2 .host h2]⟩
theorem CL.rebindNow (s : State) (n : Nat) : CL s (rebindNow s n) := by
  unfold Machine.rebindNow
  split
  · exact ⟨⟨_, rfl⟩, _, rfl⟩
  · exact CL.refl s
theorem CL.foldl {β : Type} {f : State → β → State} (hf : ∀ s a, CL s (f s a)) : ∀ (l : List β) (s : State), CL s (l.foldl f s)
  | [], s => CL.refl s
  | a :: l, s => (hf s a).trans (CL.foldl hf l _)
theorem CL.unloadNow (s : State) (c : Nat) : CL s (unloadNow s c) := by
  unfold Machine.unloadNow
  dsimp only
  refine CL.trans ?_ (CL.foldl (fun s sh => CL.foldl (fun s n => CL.rebindNow s _) _ s) _ _)
  generalize hA : (coresOf s c).foldl (fun s n => s.modCore n Core.unloaded) s = A
  have tA : Touches [.cores] s A := by rw [← hA]; exact Touches.foldl (fun s a => touches_modCore _ _ _) (Touches.refl _ _)
  refine (CL.touch tA (by decide) (by decide)).trans ?_
  refine (CL.touch (touches_closeQueues A c false) (by decide) (by decide)).trans ?_
  generalize closeQueues A c false = B
  refine CL.trans ?_ ⟨⟨_, rfl⟩, _, rfl⟩
  exact CL.touch (Touches.foldl (ps := [.shelves]) (fun s a => touches_modShelf _ _ _) (Touches.refl _ _)) (by decide) (by decide)
theorem CL.cancelLoad (s : State) (c : Nat) : CL s (cancelLoad s c) := by
  unfold Machine.cancelLoad
  dsimp only
  split
  · exact CL.refl s
  · have h1 : CL s (flushCredits s (Machine.unloadNow s c)) := (CL.unloadNow s c).trans (CL.touch (touches_flushCredits _ _) (by decide) (by decide))
    generalize flushCredits s (Machine.unloadNow s c) = u at h1
    generalize hv : State.modTaken u _ = v
    have h2 : CL s v := h1.trans ⟨⟨_, by rw [← hv]; rfl⟩, _, by rw [← hv]; rfl⟩
    split
    · exact h2
    · have h3 : ∀ f, CL s (v.modLed c f) := fun f => h2.trans ⟨⟨_, rfl⟩, _, rfl⟩
      split
      · exact (h3 _).trans (CL.touch (touches_sendRestored _ _ _) (by decide) (by decide))
      · exact (h3 _).trans (CL.touch (touches_report _ _ _ _ _) (by decide) (by decide))
theorem CL.cancelLoads (s : State) : CL s (cancelLoads s) := CL.foldl CL.cancelLoad _ s
theorem cancel_id {s : State} (h : NoLoadOver s) : cancelLoads s = s := by
  unfold cancelLoads
  have key : ∀ l : List Nat, l.foldl cancelLoad s = s := by
    intro l
    induction l with
    | nil => rfl
    | cons c l ih =>
      rw [List.foldl_cons]
      have : cancelLoad s c = s := by
        unfold cancelLoad
        dsimp only
        rw [if_pos]
        by_cases h1 : (s.ctx c).st = .idle
        · cases h2 : (s.ctx c).image with
          | none => simp
          | some _ => simp [h c h1 (by rw [h2]; rfl)]
        · simp [h1]
      rw [this, ih]
  exact key _
theorem fold_cores (f : Core → Core) : ∀ (l : List Nat) (s : State), l.Nodup → (∀ k, (l.foldl (fun s n => s.modCore n f) s).core k = if k ∈ l then f (s.core k) else s.core k)
  | [], s, _, k => by simp
  | n :: l, s, h, k => by
    have hd := List.nodup_cons.mp h
    rw [List.foldl_cons, fold_cores f l _ hd.2 k]
    by_cases e : k = n
    · subst e
      rw [if_neg hd.1, if_pos (by simp), core_modCore_self]
    · rw [core_modCore_other _ _ _ _ e]
      by_cases m : k ∈ l
      · rw [if_pos m, if_pos (by simp [m])]
      · rw [if_neg m, if_neg (by simp [m, e])]
theorem unload_facts (s : State) (c : Nat) : ((unloadNow s c).ctx c).st = .idle ∧ ((unloadNow s c).ctx c).image = none ∧ ((unloadNow s c).ctx c).led.st = .none ∧ (unloadNow s c).host = s.host ∧ ∀ n, (unloadNow s c).core n = if n < nCores ∧ (s.core n).stage.info.isSome = true ∧ (s.core n).stage.ctx = c then Core.unloaded (s.core n) else s.core n := by
  unfold unloadNow
  dsimp only
  have rb : ∀ (l : List Nat) (u : State), Touches [.bring] u (l.foldl rebindShelf u) := fun l u => Touches.foldl (fun s a => touches_rebindShelf s a) (Touches.refl _ _)
  have e1 := fun l u => (rb l u).2 .ctxs (by decide)
  have e2 := fun l u => (rb l u).2 .host (by decide)
  have e3 := fun l u => (rb l u).2 .cores (by decide)
  generalize hu : State.modCtx _ c _ = u
  have sh : ∀ (l : List Nat) (w : State), let z := (l.foldl (fun s sh => s.modShelf sh fun y => { y with pf := [], pfReqs := [], reports := [], confirming := none }) w); z.host = w.host ∧ z.cores = w.cores := by
    intro l
    induction l with
    | nil => intro w; exact ⟨rfl, rfl⟩
    | cons a l ih => intro w; exact ⟨(ih _).1.trans rfl, (ih _).2.trans rfl⟩
  have fh : ∀ (l : List Nat) (w : State), (l.foldl (fun s n => s.modCore n Core.unloaded) w).host = w.host := by
    intro l
    induction l with
    | nil => intro w; rfl
    | cons a l ih => intro w; exact (ih _).trans rfl
  refine ⟨?_, ?_, ?_, ?_, fun n => ?_⟩
  · rw [ctx_of (e1 _ _), ← hu, ctx_modCtx_self]
  · rw [ctx_of (e1 _ _), ← hu, ctx_modCtx_self]
  · rw [ctx_of (e1 _ _), ← hu, ctx_modCtx_self]
  · refine (e2 _ _).trans ?_
    rw [← hu, modCtx_host, (sh _ _).1]
    exact ((touches_closeQueues _ _ _).2 .host (by decide)).trans (fh _ _)
  · rw [core_of (e3 _ _), ← hu, modCtx_core, core_of ((sh _ _).2.trans ((touches_closeQueues _ _ _).2 .cores (by decide)))]
    rw [fold_cores _ (coresOf s c) _ (by unfold coresOf; exact (List.nodup_range).filter _)]
    have : n ∈ coresOf s c ↔ n < nCores ∧ (s.core n).stage.info.isSome = true ∧ (s.core n).stage.ctx = c := by
      unfold coresOf
      simp [List.mem_filter]
    simp only [this]
theorem unload_other (s : State) (d c : Nat) (h : c ≠ d) : (unloadNow s d).ctx c = s.ctx c := by
  unfold unloadNow
  dsimp only
  have rb : ∀ (l : List Nat) (u : State), Touches [.bring] u (l.foldl rebindShelf u) := fun l u => Touches.foldl (fun s a => touches_rebindShelf s a) (Touches.refl _ _)
  rw [ctx_of ((rb _ _).2 .ctxs (by decide)), ctx_modCtx_other _ _ _ _ h]
  have sh : ∀ (l : List Nat) (f : Machine.Shelf → Machine.Shelf) (w : State), (l.foldl (fun s sh => s.modShelf sh f) w).ctxs = w.ctxs := by
    intro l f
    induction l with
    | nil => intro w; rfl
    | cons a l ih => intro w; exact (ih _).trans rfl
  have fh : ∀ (l : List Nat) (w : State), (l.foldl (fun s n => s.modCore n Core.unloaded) w).ctxs = w.ctxs := by
    intro l
    induction l with
    | nil => intro w; rfl
    | cons a l ih => intro w; exact (ih _).trans rfl
  exact ctx_of ((sh _ _ _).trans (((touches_closeQueues _ _ _).2 .ctxs (by decide)).trans (fh _ _))) c
theorem cns {i : Instr} {s u : State} {P : State → Prop} (hx : exec i s = .next (cancelLoads u)) (h : P u) : Cancels i s P := ⟨u, hx, h⟩
theorem reset_keeps (s : State) (b : Bool) : ResetKeeps s (dieReset s b) ∧ (dieReset s b).pins = { s.pins with diesInReset := true, resetRequested := false, thermAlertN := !s.pins.tripLatched } ∧ (dieReset s b).bring.phase = 0 ∧ (dieReset s b).power.nextCause = s.power.nextCause := by
  have hw := touches_settleWrites s
  generalize ht : dieReset s b = t
  unfold dieReset at ht
  generalize settleWrites s = w at ht hw
  have wp : w.pins = s.pins := hw.2 .pins (by decide)
  have wo : w.power = s.power := hw.2 .power (by decide)
  have wi : w.imprint = s.imprint := hw.2 .imprint (by decide)
  have wm : w.mu = s.mu := hw.2 .mu (by decide)
  have ws : w.sec = s.sec := hw.2 .sec (by decide)
  have wv : w.variant = s.variant := hw.keeps.variant
  have wq : w.pending = s.pending := hw.keeps.pending
  subst ht
  refine ⟨⟨wv, wm, ?_, wq, ?_, ?_⟩, ?_, rfl, ?_⟩
  · dsimp only; rw [wi]
  · dsimp only; rw [ws]
  · dsimp only; rw [ws]
  · dsimp only; rw [wp]
  · dsimp only; rw [wo]
/-- The fuses' serial number and the public key stay as they are. -/
def SecSame (s t : State) : Prop := t.sec.serial = s.sec.serial ∧ t.sec.publicKey = s.sec.publicKey
theorem SecSame.refl (s : State) : SecSame s s := ⟨rfl, rfl⟩
theorem SecSame.trans {s t u : State} (h : SecSame s t) (k : SecSame t u) : SecSame s u := ⟨k.1.trans h.1, k.2.trans h.2⟩
theorem SecSame.of {s t : State} (h : t.sec = s.sec) : SecSame s t := ⟨by rw [h], by rw [h]⟩
theorem SecSame.foldl {β : Type} {f : State → β → State} (hf : ∀ s a, SecSame s (f s a)) : ∀ (l : List β) (s : State), SecSame s (l.foldl f s)
  | [], s => SecSame.refl s
  | a :: l, s => (hf s a).trans (SecSame.foldl hf l _)
theorem SecSame.set (s : State) (h : Nat) (l : Link) : SecSame s (s.setLink h l) := ⟨rfl, rfl⟩
theorem SecSame.mod (s : State) (h : Nat) (f : Link → Link) : SecSame s (s.modLink h f) := ⟨rfl, rfl⟩
theorem SecSame.linkDown (s : State) (h : Nat) : SecSame s (linkDown s h) := by
  unfold Machine.linkDown
  dsimp only
  refine SecSame.trans (t := [KeyId.hop h 0, .hop h 1, .ephemeral h].foldl destroyKey s) (SecSame.foldl (f := destroyKey) (fun s k => ⟨rfl, rfl⟩) _ _) (SecSame.of ?_)
  exact ((touches_tryReadyAll _).2 .sec (by decide)).trans (((touches_refreshOwn _).2 .sec (by decide)).trans rfl)
theorem SecSame.replay (s : State) (h i : Nat) (f : HeldFlit) : SecSame s (sendReplay s h i f) := by
  unfold sendReplay
  dsimp only
  generalize Link.send _ _ = l
  split
  · exact (SecSame.set s h _).trans (SecSame.linkDown _ _)
  · exact SecSame.set s h _
theorem SecSame.slot (s : State) (h : Nat) : SecSame s (flitSlot s h) := by
  have id : ∀ u : State, SecSame u (sendIdle u h) := fun u => SecSame.of ((touches_sendIdle u h).2 .sec (by decide))
  have ky : ∀ (u : State) k, SecSame u (sendKey u h k) := fun u k => SecSame.of ((touches_sendKey u h k).2 .sec (by decide))
  have dt : ∀ (u : State) v, SecSame u (sendData u h v) := fun u v => SecSame.of ((touches_sendData u h v).2 .sec (by decide))
  have ct : ∀ (u : State) f, SecSame u (u.modLinkCtr h f) := fun u f => SecSame.of ((touches_modLinkCtr u h f).2 .sec (by decide))
  unfold flitSlot
  dsimp only
  split
  · exact (id s).trans (SecSame.mod _ _ _)
  split
  · exact (ky s 3).trans (SecSame.mod _ _ _)
  split
  · exact ky _ _
  split
  · exact SecSame.refl _
  generalize hv : State.modLinkCtr s h _ = v
  have sv : SecSame s v := by rw [← hv]; exact ct _ _
  split
  · split
    · exact sv.trans (SecSame.replay _ _ _ _)
    · exact sv.trans ((SecSame.mod _ _ _).trans (id _))
  · split
    · exact sv.trans (id _)
    · split
      · exact sv.trans (dt _ _)
      · exact sv.trans (id _)
theorem SecSame.leave (s : State) (h : Nat) : SecSame s (leaveLink s h) := by
  unfold leaveLink
  split
  · exact SecSame.refl _
  · exact (SecSame.mod _ _ _).trans (SecSame.foldl (fun s _ => SecSame.slot s h) _ _)
/-- A controlled reset, whatever flits leave before it. -/
theorem controlled (s : State) (c : BitVec 4) (b : Bool) : ResetKeeps s (controlledReset s c b) ∧ (controlledReset s c b).pins = { s.pins with diesInReset := true, resetRequested := false, thermAlertN := !s.pins.tripLatched } ∧ (controlledReset s c b).bring.phase = 0 ∧ (controlledReset s c b).power.nextCause = c := by
  unfold controlledReset
  dsimp only
  have f : ∃ w, (if s.pins.diesInReset = true then s else linkNumbers.foldl leaveLink (settleWrites s)) = w ∧ w.pins = s.pins ∧ w.variant = s.variant ∧ w.mu = s.mu ∧ w.imprint = s.imprint ∧ w.pending = s.pending ∧ SecSame s w := by
    refine ⟨_, rfl, ?_⟩
    split
    · exact ⟨rfl, rfl, rfl, rfl, rfl, SecSame.refl s⟩
    · have h1 := touches_settleWrites s
      have h2 : Touches [.fab, .sec] (settleWrites s) (linkNumbers.foldl leaveLink (settleWrites s)) := Touches.foldl (fun s h => touches_leaveLink s h) (Touches.refl _ _)
      exact ⟨(h2.2 .pins (by decide)).trans (h1.2 .pins (by decide)), h2.keeps.variant.trans h1.keeps.variant, (h2.2 .mu (by decide)).trans (h1.2 .mu (by decide)), (h2.2 .imprint (by decide)).trans (h1.2 .imprint (by decide)), h2.keeps.pending.trans h1.keeps.pending, (SecSame.of (h1.2 .sec (by decide))).trans (SecSame.foldl SecSame.leave _ _)⟩
  obtain ⟨w, hw, w1, w2, w3, w4, w5, w6⟩ := f
  rw [hw]
  generalize hu : State.mk .. = u
  have hu' : u.pins = s.pins ∧ u.variant = s.variant ∧ u.mu = s.mu ∧ u.imprint = s.imprint ∧ u.pending = s.pending ∧ SecSame s u ∧ u.power.nextCause = c := by
    rw [← hu]; exact ⟨w1, w2, w3, w4, w5, w6, rfl⟩
  obtain ⟨u1, u2, u3, u4, u5, u6, u7⟩ := hu'
  obtain ⟨⟨k1, k2, k3, k4, k5, k6⟩, kp, kb, kc⟩ := reset_keeps u b
  generalize dieReset u b = v at k1 k2 k3 k4 k5 k6 kp kb kc ⊢
  have tf : Touches [.fab] v (linkNumbers.foldl (fun t h => if (w.link h).out.isSome then t.modLink h fun l => { l with out := (w.link h).out } else t) v) := by
    refine Touches.foldl (fun t h => ?_) (Touches.refl _ _)
    split
    · exact touches_modLink _ _ _
    · exact Touches.refl _ _
  generalize List.foldl _ v linkNumbers = x at tf ⊢
  have xs : x.sec = v.sec := tf.2 .sec (by decide)
  exact ⟨⟨(tf.keeps.variant.trans k1).trans u2, ((tf.2 .mu (by decide)).trans k2).trans u3, by rw [tf.2 .imprint (by decide), k3, u4], (tf.keeps.pending.trans k4).trans u5, by rw [xs, k5, u6.1], by rw [xs, k6, u6.2]⟩, by rw [tf.2 .pins (by decide), kp, u1], by rw [tf.2 .bring (by decide)]; exact kb, by rw [tf.2 .power (by decide)]; exact kc.trans u7⟩
end Sys2Proof.Laws
end

