-- ==== Sys2Proof/Laws/FactsAgeing.lean ====
section
/-!
SUPPORT. Lemmas on ageing, the governor and gating, for the statements about them.
-/

open Sys2Proof Sys2Proof.Machine Sys2Proof.Claims

namespace Sys2Proof.Laws.Ageing

theorem replan_succ (i sd n : Nat) (oks : List Bool) (s : State) : replan i sd (n + 1) oks s =
    let w := s.wear i
    if sd < (w.level.toNat + 1) * s.default 8 || w.level = 255 then s
    else
      let s1 := s.modWear i fun w => { w with level := w.level + 1 }
      if w.guard.toNat + 5 ≤ s.default 9 && oks.headD false then
        replan i sd n oks.tail { (s1.modWear i fun w => { w with guard := w.guard + 5 }) with
          power := { (s1.modWear i fun w => { w with guard := w.guard + 5 }).power with
            guardRaises := s1.power.guardRaises + 1 } }
      else if clocked i && s.default 10 + 100 ≤ w.clk.toNat then
        let s2 := s1.modWear i fun w => { w with clk := w.clk - 100, lowered := w.lowered + 1 }
        replan i sd n oks.tail { s2 with power := { s2.power with clockLowered := s2.power.clockLowered + 1 } }
      else if i < 156 then failSite s1 i 6
      else replan i sd n oks.tail (s1.modWear i fun w => { w with ageingLimit := true }) := rfl
theorem wear_self (s : State) (i : Nat) (f : Wear → Wear) : (s.modWear i f).wear i = f (s.wear i) := by
  unfold State.modWear State.wear
  exact tgetD_tset_self _ _ _ _
theorem replan_stop {i sd n : Nat} {oks : List Bool} {s : State} (h : sd < ((s.wear i).level.toNat + 1) * s.default 8 ∨ (s.wear i).level = 255) : replan i sd (n + 1) oks s = s := by
  rw [replan_succ]
  dsimp only
  rw [if_pos (by simpa using h)]
/-- What a re-plan keeps. -/
def RP (s t : State) : Prop := t.power.measurements = s.power.measurements ∧ t.power.wearWrites = s.power.wearWrites ∧ t.power.measuring = s.power.measuring ∧ t.bring.halted = s.bring.halted
theorem RP.refl (s : State) : RP s s := ⟨rfl, rfl, rfl, rfl⟩
theorem RP.trans {s t u : State} (h : RP s t) (k : RP t u) : RP s u := ⟨k.1.trans h.1, k.2.1.trans h.2.1, k.2.2.1.trans h.2.2.1, k.2.2.2.trans h.2.2.2⟩
theorem RP.foldl {β : Type} {f : State → β → State} (hf : ∀ s a, RP s (f s a)) : ∀ (l : List β) (s : State), RP s (l.foldl f s)
  | [], s => RP.refl s
  | a :: l, s => (hf s a).trans (RP.foldl hf l _)
theorem RP.mod (s : State) (i : Nat) (f : Wear → Wear) : RP s (s.modWear i f) := ⟨rfl, rfl, rfl, rfl⟩
theorem RP.guard (s : State) (n : BitVec 32) : RP s { s with power := { s.power with guardRaises := n } } := ⟨rfl, rfl, rfl, rfl⟩
theorem RP.clock (s : State) (n : BitVec 32) : RP s { s with power := { s.power with clockLowered := n } } := ⟨rfl, rfl, rfl, rfl⟩
theorem wear_guard (s : State) (n : BitVec 32) (i : Nat) : State.wear { s with power := { s.power with guardRaises := n } } i = s.wear i := rfl
theorem wear_clock (s : State) (n : BitVec 32) (i : Nat) : State.wear { s with power := { s.power with clockLowered := n } } i = s.wear i := rfl
theorem RP.fail (s : State) (i : Nat) : RP s (failSite s i 6) := by
  have h3 : (failSite s i 6).power = s.power := (touches_failSite s i 6).2 .power (by decide)
  have h2 := (fail_site s i 6).2.2.1.2.2.1
  exact ⟨by rw [h3], by rw [h3], by rw [h3], h2⟩
theorem RP.replan (i sd : Nat) : ∀ (n : Nat) (oks : List Bool) (s : State), RP s (replan i sd n oks s)
  | 0, oks, s => RP.refl s
  | n + 1, oks, s => by
    rw [replan_succ]
    have g : ∀ (oks : List Bool) (u : State), RP s u → RP s (Machine.replan i sd n oks u) := fun oks u h => h.trans (RP.replan i sd n oks u)
    dsimp only
    split
    · exact RP.refl s
    · split
      · refine g _ _ ?_
        exact ⟨rfl, rfl, rfl, rfl⟩
      · split
        · refine g _ _ ?_
          exact ⟨rfl, rfl, rfl, rfl⟩
        · split
          · exact (RP.mod _ _ _).trans (RP.fail _ _)
          · refine g _ _ ?_
            exact ⟨rfl, rfl, rfl, rfl⟩
theorem RP.all (s : State) (l : Tbl (BitVec 16 × List Bool)) : RP s (replanAll s l) := by
  unfold replanAll
  refine RP.foldl (fun s r => ?_) _ _
  split
  · exact RP.trans ⟨rfl, rfl, rfl, rfl⟩ (RP.replan _ _ _ _ _)
  · exact RP.refl _
theorem dist_all : ∀ (l : List Nat) (s : State) (sh : Nat), (tget s.bring.fwNext sh = some 0 ∨ sh ∈ l) → tget (l.foldl startDistribution s).bring.fwNext sh = some 0
  | [], s, sh, h => by simpa using h
  | a :: l, s, sh, h => by
    rw [List.foldl_cons]
    refine dist_all l (startDistribution s a) sh ?_
    by_cases e : sh = a
    · left
      subst e
      exact tget_tset_self _ _ _
    · rcases h with h | h
      · left
        have hn : ∀ (l : List Nat) (u : State), (l.foldl (fun s t => s.modSite (a * 13 + t) fun x => if x.failed then x else { x with blocks := [], next := 0, naks := [], unicasts := [], verified := false, running := false, tested := false, fwFailures := 0 }) u).bring.fwNext = u.bring.fwNext := by
          intro l
          induction l with
          | nil => intro u; rfl
          | cons b l ih => intro u; exact (ih _).trans rfl
        show tget (tset (List.foldl _ s (List.range 13)).bring.fwNext a 0) sh = _
        rw [tget_tset_other _ _ _ _ e, hn]; exact h
      · rcases List.mem_cons.mp h with h | h
        · exact absurd h e
        · exact Or.inr h
theorem base_wear (clk : Nat → Nat) : ∀ (l : List Nat) (s : State) (i : Nat), (∀ u k, u.variant = s.variant → u.power.defaults = s.power.defaults → u.imprint = s.imprint → planClock u k = clk k) → i ∈ l →
    (l.foldl (fun s i => s.modWear i fun _ => { ({} : Wear) with clk := BitVec.ofNat 16 (planClock s i) }) s).wear i = { ({} : Wear) with clk := BitVec.ofNat 16 (clk i) } := by
  intro l
  have other : ∀ (l : List Nat) (s : State) (i : Nat), i ∉ l → (l.foldl (fun s i => s.modWear i fun _ => { ({} : Wear) with clk := BitVec.ofNat 16 (planClock s i) }) s).wear i = s.wear i := by
    intro l
    induction l with
    | nil => intro s i _; rfl
    | cons a l ih =>
      intro s i h
      rw [List.foldl_cons, ih _ _ (fun k => h (List.mem_cons_of_mem _ k))]
      unfold State.modWear State.wear
      exact tgetD_tset_other _ _ _ _ _ (fun e => h (by rw [e]; simp))
  induction l with
  | nil => intro s i _ h; cases h
  | cons a l ih =>
    intro s i hc h
    rw [List.foldl_cons]
    by_cases m : i ∈ l
    · exact ih _ i (fun u k h1 h2 h3 => hc u k h1 h2 h3) m
    · rw [other _ _ _ m]
      have e : i = a := by rcases List.mem_cons.mp h with h | h; exact h; exact absurd h m
      subst e
      rw [wear_self, hc s i rfl rfl rfl]
theorem base_same : ∀ (l : List Nat) (s : State), let z := (l.foldl (fun s i => s.modWear i fun _ => { ({} : Wear) with clk := BitVec.ofNat 16 (planClock s i) }) s); z.imprint = s.imprint ∧ z.power.sinceBase = s.power.sinceBase ∧ z.power.baseEpoch = s.power.baseEpoch ∧ z.host = s.host ∧ RP s z
  | [], s => ⟨rfl, rfl, rfl, rfl, RP.refl s⟩
  | a :: l, s => by
    obtain ⟨h1, h2, h3, h4, h5⟩ := base_same l (s.modWear a fun _ => { ({} : Wear) with clk := BitVec.ofNat 16 (planClock s a) })
    exact ⟨h1, h2, h3, h4, RP.trans ⟨rfl, rfl, rfl, rfl⟩ h5⟩
theorem write_wear (s : State) : (writeWear s).power = { s.power with wearWrites := s.power.wearWrites + 1, sinceWrite := 0 } ∧ (writeWear s).bring = s.bring ∧ (writeWear s).imprint.baselineEmpty = s.imprint.baselineEmpty := by
  unfold writeWear
  dsimp only
  refine ⟨rfl, rfl, ?_⟩
  split <;> rfl
theorem replan_other (i sd k : Nat) (hk : k ≠ i) : ∀ (n : Nat) (oks : List Bool) (s : State), (replan i sd n oks s).wear k = s.wear k
  | 0, oks, s => rfl
  | n + 1, oks, s => by
    have md : ∀ (u : State) f, (u.modWear i f).wear k = u.wear k := by
      intro u f
      unfold State.modWear State.wear
      exact tgetD_tset_other _ _ _ _ _ hk
    rw [replan_succ]
    have g : ∀ (oks : List Bool) (u : State), u.wear k = s.wear k → (Machine.replan i sd n oks u).wear k = s.wear k := fun oks u h => (replan_other i sd k hk n oks u).trans h
    dsimp only
    split
    · rfl
    · split
      · refine g _ _ ?_
        exact (wear_guard _ _ _).trans ((md _ _).trans (md _ _))
      · split
        · refine g _ _ ?_
          exact (wear_clock _ _ _).trans ((md _ _).trans (md _ _))
        · split
          · have : ∀ u : State, (failSite u i 6).wear k = u.wear k := by
              intro u
              unfold State.wear
              rw [(touches_failSite u i 6).2 .power (by decide)]
            exact (this _).trans (md _ _)
          · exact g _ _ ((md _ _).trans (md _ _))
theorem all_other (k : Nat) : ∀ (l : Tbl (BitVec 16 × List Bool)) (s : State), (∀ r ∈ l, r.1 ≠ k) → (replanAll s l).wear k = s.wear k
  | [], s, _ => rfl
  | a :: l, s, h => by
    have h1 := h a (List.mem_cons_self ..)
    have h2 : ∀ r ∈ l, r.1 ≠ k := fun r hr => h r (List.mem_cons_of_mem _ hr)
    refine (all_other k l _ h2).trans ?_
    dsimp only
    split
    · rw [replan_other _ _ _ (Ne.symm h1)]
      unfold State.modWear State.wear
      exact tgetD_tset_other _ _ _ _ _ (Ne.symm h1)
    · rfl
theorem start_wear (s : State) (k : Nat) (hk : k < 193) : (startClocks s).wear k = { s.wear k with clk := BitVec.ofNat 16 (planClock s k - 100 * (s.wear k).lowered) } := by
  have key : ∀ (l : List Nat) (u : State), l.Nodup → u.variant = s.variant → u.power.defaults = s.power.defaults → u.imprint = s.imprint →
      (l.foldl (fun s i => s.modWear i fun w => { w with clk := BitVec.ofNat 16 (planClock s i - 100 * w.lowered) }) u).wear k =
        if k ∈ l then { u.wear k with clk := BitVec.ofNat 16 (planClock s k - 100 * (u.wear k).lowered) } else u.wear k := by
    intro l
    induction l with
    | nil => intro u _ _ _ _; rfl
    | cons a l ih =>
      intro u nd h1 h2 h3
      obtain ⟨n1, n2⟩ := List.nodup_cons.1 nd
      rw [List.foldl_cons, ih (u.modWear a fun w => { w with clk := BitVec.ofNat 16 (planClock u a - 100 * w.lowered) }) n2 h1 h2 h3]
      have pc : planClock u k = planClock s k := by unfold planClock State.default; rw [h1, h2, h3]
      by_cases e : k = a
      · subst e
        rw [if_neg n1, if_pos (by simp), wear_self, pc]
      · have : ∀ f, (u.modWear a f).wear k = u.wear k := by
          intro f
          unfold State.modWear State.wear
          exact tgetD_tset_other _ _ _ _ _ e
        rw [this]
        have : (k ∈ a :: l) = (k ∈ l) := by simp [e]
        simp only [this]
  have := key (List.range 193) s List.nodup_range rfl rfl rfl
  rw [if_pos (List.mem_range.2 hk)] at this
  exact this
theorem gov_step (s : State) (n : Nat) :
    let ceil := min s.power.govCeiling (s.default 1 / 100 * 100)
    let p := (governorStep s n).power
    (∃ a b c d, governorStep s n = { s with power := { s.power with govCeiling := a, govStepsDown := b, govBelow := c, powerUnmet := d } }) ∧
      (s.default 0 < n → 1100 ≤ ceil → p.govCeiling = ceil - 100 ∧ p.govStepsDown = s.power.govStepsDown + 1 ∧ p.govBelow = 0) ∧
      (s.default 0 < n → ceil < 1100 → p.govCeiling = ceil ∧ p.powerUnmet = true) ∧
      (n ≤ s.default 0 → p.powerUnmet = false ∧
        (95 * s.default 0 ≤ 100 * n → p.govCeiling = ceil ∧ p.govBelow = 0) ∧
        (100 * n < 95 * s.default 0 → s.power.govBelow = 15 → p.govCeiling = min (ceil + 100) (s.default 1 / 100 * 100) ∧ p.govBelow = 0) ∧
        (100 * n < 95 * s.default 0 → s.power.govBelow ≠ 15 → p.govCeiling = ceil ∧ p.govBelow = s.power.govBelow + 1)) := by
  intro ceil p
  have hl : powerLimit s = s.default 0 := rfl
  have hc : ceilingTop s = s.default 1 / 100 * 100 := rfl
  have hp : p = (governorStep s n).power := rfl
  clear_value p
  unfold governorStep at hp ⊢
  dsimp only at hp ⊢
  rw [hl, hc] at hp ⊢
  by_cases h1 : s.default 0 < n
  · rw [if_pos h1] at hp ⊢
    by_cases h2 : 1100 ≤ ceil
    · rw [if_pos h2] at hp ⊢
      subst hp
      exact ⟨⟨_, _, _, _, rfl⟩, fun _ _ => ⟨rfl, rfl, rfl⟩, fun _ h => absurd h2 (by omega), fun h => absurd h1 (by omega)⟩
    · rw [if_neg h2] at hp ⊢
      subst hp
      exact ⟨⟨_, _, _, _, rfl⟩, fun _ h => absurd h h2, fun _ _ => ⟨rfl, rfl⟩, fun h => absurd h1 (by omega)⟩
  · rw [if_neg h1] at hp ⊢
    subst hp
    refine ⟨⟨_, _, _, _, rfl⟩, fun h => absurd h h1, fun h => absurd h h1, fun _ => ⟨rfl, fun h => ?_, fun h k => ?_, fun h k => ?_⟩⟩
    · dsimp only
      rw [if_neg (show ¬ 100 * n < 95 * s.default 0 by omega)]
      exact ⟨rfl, rfl⟩
    · dsimp only
      rw [if_pos h, k]
      exact ⟨rfl, rfl⟩
    · dsimp only
      rw [if_pos h, if_neg (by omega), if_neg (by omega)]
      exact ⟨rfl, rfl⟩
theorem therm_frame (s : State) (d : Nat) : ∃ a b c, thermalStep s d = { s with power := { s.power with thermal := a, thermalBelow := b, thermalSteps := c } } := by
  unfold thermalStep
  dsimp only
  split
  · exact ⟨_, _, _, rfl⟩
  · split
    · exact ⟨_, _, _, rfl⟩
    · exact ⟨_, _, _, rfl⟩
theorem therm_other (s : State) (d e : Nat) (h : e ≠ d) (x y : Nat) : tgetD (thermalStep s d).power.thermal e x = tgetD s.power.thermal e x ∧ tgetD (thermalStep s d).power.thermalBelow e y = tgetD s.power.thermalBelow e y := by
  unfold thermalStep
  dsimp only
  split
  · exact ⟨tgetD_tset_other _ _ _ _ _ h, tgetD_tset_other _ _ _ _ _ h⟩
  · split
    · exact ⟨tgetD_tset_other _ _ _ _ _ h, tgetD_tset_other _ _ _ _ _ h⟩
    · exact ⟨rfl, tgetD_tset_other _ _ _ _ _ h⟩
theorem therm_step (s : State) (d x : Nat) :
    let c := tgetD s.power.thermal d (fusedClock s.variant)
    let hot := ∃ i, i < 193 ∧ islandDie i = d ∧ (s.default 7 : Int) ≤ islandTemp s i
    let cool := ∀ i, i < 193 → islandDie i = d → islandTemp s i + 5 ≤ (s.default 7 : Int)
    let now := tgetD (thermalStep s d).power.thermal d (fusedClock s.variant)
    (hot → now = max 1000 (c - 100)) ∧
      (¬hot → cool → tgetD s.power.thermalBelow d 0 = 15 → now = min (fusedClock s.variant) (c + 100)) ∧
      (¬hot → ¬cool ∨ tgetD s.power.thermalBelow d 0 ≠ 15 → now = c) := by
  intro c hot cool now
  have hn : now = tgetD (thermalStep s d).power.thermal d (fusedClock s.variant) := rfl
  have hh : ((dieIslands d).any fun i => (s.default 7 : Int) ≤ islandTemp s i) = true ↔ hot := by
    simp only [dieIslands, List.any_eq_true, List.mem_filter, List.mem_range, decide_eq_true_eq]
    exact ⟨fun ⟨i, ⟨a, b⟩, c⟩ => ⟨i, a, b, c⟩, fun ⟨i, a, b, c⟩ => ⟨i, ⟨a, b⟩, c⟩⟩
  have hc : ((dieIslands d).all fun i => islandTemp s i + 5 ≤ (s.default 7 : Int)) = true ↔ cool := by
    simp only [dieIslands, List.all_eq_true, List.mem_filter, List.mem_range, decide_eq_true_eq]
    exact ⟨fun h i a b => h i ⟨a, b⟩, fun h i ⟨a, b⟩ => h i a b⟩
  clear_value hot cool now
  unfold thermalStep at hn
  dsimp only at hn
  by_cases h1 : hot
  · rw [if_pos (hh.mpr h1)] at hn
    refine ⟨fun _ => ?_, fun h => absurd h1 h, fun h => absurd h1 h⟩
    rw [hn]
    exact tgetD_tset_self _ _ _ _
  · rw [if_neg (show ¬ _ from fun h => h1 (hh.mp h))] at hn
    by_cases h2 : cool
    · by_cases h3 : tgetD s.power.thermalBelow d 0 = 15
      · rw [if_pos (by simp only [Bool.and_eq_true, decide_eq_true_eq]; exact ⟨hc.mpr h2, by rw [h3]⟩)] at hn
        refine ⟨fun h => absurd h h1, fun _ _ _ => ?_, fun _ h => h.elim (fun h => absurd h2 h) (fun h => absurd h3 h)⟩
        rw [hn]
        exact tgetD_tset_self _ _ _ _
      · rw [if_neg (by simp only [Bool.and_eq_true, decide_eq_true_eq]; rintro ⟨_, h⟩; omega)] at hn
        exact ⟨fun h => absurd h h1, fun _ _ h => absurd h h3, fun _ _ => hn⟩
    · rw [if_neg (by simp only [Bool.and_eq_true, decide_eq_true_eq]; rintro ⟨h, _⟩; exact h2 (hc.mp h))] at hn
      exact ⟨fun h => absurd h h1, fun _ h => absurd h h2, fun _ _ => hn⟩
theorem gate_off (s : State) (ds : List Nat) : (∀ d, d < 80 → domainOn (gate s ds) d = (domainOn s d && !decide (d ∈ ds))) ∧
    (gate s ds).power.domainGatings = s.power.domainGatings + BitVec.ofNat 32 (ds.filter (domainOn s)).length := by
  refine ⟨fun d hd => ?_, rfl⟩
  refine (off_get s (ds.filter (domainOn s)) d hd).trans ?_
  by_cases h : domainOn s d = true
  · rw [h]; simp [h]
  · have : domainOn s d = false := by simpa using h
    rw [this]; rfl
theorem gate_sites (sh : Nat) : ∀ (l : List Nat) (s : State),
    let z := l.foldl (fun s t => s.modSite (sh * 13 + t) fun x => { x with running := false, verified := false, blocks := [], next := 0, naks := [], unicasts := [] }) s
    z.bring.domainOn = s.bring.domainOn ∧ z.power = s.power ∧ ∀ k, k ∈ l ∨ ((s.site (sh * 13 + k)).running = false ∧ (s.site (sh * 13 + k)).blocks = []) →
      (z.site (sh * 13 + k)).running = false ∧ (z.site (sh * 13 + k)).blocks = []
  | [], s => ⟨rfl, rfl, fun k h => by simpa using h⟩
  | a :: l, s => by
    rw [List.foldl_cons]
    generalize hu : s.modSite (sh * 13 + a) _ = u
    obtain ⟨h1, h2, h3⟩ := gate_sites sh l u
    refine ⟨h1.trans (by rw [← hu]; rfl), h2.trans (by rw [← hu]; rfl), fun k hk => h3 k ?_⟩
    by_cases e : k = a
    · right
      subst e
      have : u.site (sh * 13 + k) = { s.site (sh * 13 + k) with running := false, verified := false, blocks := [], next := 0, naks := [], unicasts := [] } := by
        rw [← hu]
        unfold State.modSite State.site
        exact tgetD_tset_self _ _ _ _
      rw [this]; exact ⟨rfl, rfl⟩
    · rcases hk with h | h
      · left; rcases List.mem_cons.mp h with h | h
        · exact absurd h e
        · exact h
      · right
        have : u.site (sh * 13 + k) = s.site (sh * 13 + k) := by
          rw [← hu]
          unfold State.modSite State.site
          exact tgetD_tset_other _ _ _ _ _ (by omega)
        rw [this]; exact h
theorem trip_pins (s : State) : let t := controlledReset s 4 true
    (s.pins.tripLatched = true → t.pins.tripLatched = true ∧ t.pins.thermAlertN = false) ∧ t.pins.diesInReset = true ∧ t.power.nextCause = 4 := by
  intro t
  obtain ⟨_, a, _, c⟩ := controlled s 4 true
  refine ⟨fun h => ⟨?_, ?_⟩, ?_, c⟩
  · show (controlledReset s 4 true).pins.tripLatched = true
    rw [a]; exact h
  · show (controlledReset s 4 true).pins.thermAlertN = false
    rw [a, h]; rfl
  · show (controlledReset s 4 true).pins.diesInReset = true
    rw [a]

end Sys2Proof.Laws.Ageing
end

