-- ==== Sys2Proof/Laws/FactsArrays.lean ====
section
/-!
SUPPORT. Lemmas on rows, groups, drains and tile loads, for the statements about them.
-/

open Sys2Proof Sys2Proof.Machine Sys2Proof.Claims

namespace Sys2Proof.Laws.Arrays

theorem advance_facts (s : State) (core : Nat) (r : StageRec) (pl : Plan) : ArrKept core s (advance s core r pl) := by
  unfold advance
  dsimp only
  repeat' first
    | (with_reducible exact ak_refl _ _)
    | (with_reducible refine ak_ite ?_ ?_)
    | (with_reducible refine ak_release _ ?_)
    | (with_reducible refine ak_end ?_)
    | (with_reducible refine ak_mod ?_ (fun _ => rfl))
    | split
theorem boolNat_le (b : Bool) : boolNat b ≤ 1 := by cases b <;> decide
theorem boolNat_one (b : Bool) : decide (boolNat b = 1) = b := by cases b <;> decide
theorem tag_fields (g : Nat) (o k d p : Bool) (len b : Nat) (as : BitVec 4) (hl : len < 128) (hb : b < 2) :
    let t := mkTag g o k d p len b as
    tagOpen t = o ∧ tagKeep t = k ∧ tagDrain t = d ∧ tagProducts t = p ∧ tagLanes t = len + 1 ∧ tagBank t = b ∧ tagArrays t = as := by
  have h0 : as.toNat < 16 := as.isLt
  have e : ∃ a1 a2 a3 a4, a1 ≤ 1 ∧ a2 ≤ 1 ∧ a3 ≤ 1 ∧ a4 ≤ 1 ∧ decide (a1 = 1) = o ∧ decide (a2 = 1) = k ∧ decide (a3 = 1) = d ∧ decide (a4 = 1) = p ∧
   (mkTag g o k d p len b as).toNat =
    g % 4 + 4 * (a1 + 2 * (a2 + 2 * (a3 + 2 * (a4 + 2 * (len + 128 * (b + 2 * as.toNat)))))) := by
    refine ⟨boolNat o, boolNat k, boolNat d, boolNat p, boolNat_le o, boolNat_le k, boolNat_le d, boolNat_le p, boolNat_one o, boolNat_one k, boolNat_one d, boolNat_one p, ?_⟩
    have := boolNat_le o; have := boolNat_le k; have := boolNat_le d; have := boolNat_le p
    simp only [mkTag, packFields, BitVec.toNat_ofNat]
    omega
  have gb : ∀ i, (mkTag g o k d p len b as).getLsbD i = decide ((mkTag g o k d p len b as).toNat / 2 ^ i % 2 = 1) := by
    intro i; rw [BitVec.getLsbD, Nat.testBit_eq_decide_div_mod_eq]
  obtain ⟨a1, a2, a3, a4, h1, h2, h3, h4, e1, e2, e3, e4, e⟩ := e
  intro t
  simp only [t, tagOpen, tagKeep, tagDrain, tagProducts, tagLanes, tagBank, tagArrays, bits, gb, e]
  have hA : (g % 4 + 4 * (a1 + 2 * (a2 + 2 * (a3 + 2 * (a4 + 2 * (len + 128 * (b + 2 * as.toNat))))))) / 2 ^ 14 % 2 ^ 4 = as.toNat := by
    omega
  rw [hA, ← e1, ← e2, ← e3, ← e4]
  refine ⟨?_, ?_, ?_, ?_, ?_, ?_, ?_⟩
  · rw [decide_eq_decide]; omega
  · rw [decide_eq_decide]; omega
  · rw [decide_eq_decide]; omega
  · rw [decide_eq_decide]; omega
  · omega
  · omega
  · apply BitVec.eq_of_toNat_eq; simp
theorem latch (as : List Nat) (banks : Tbl Bank) (b : Nat) (a : Nat) (k : Bank) :
    (a, k) ∈ as.filterMap (fun a => (tget banks (2 * a + b)).map fun k => (a, k)) ↔ a ∈ as ∧ tget banks (2 * a + b) = some k := by
  simp only [List.mem_filterMap, Option.map_eq_some_iff, Prod.mk.injEq]
  constructor
  · rintro ⟨x, hx, y, hy, rfl, rfl⟩; exact ⟨hx, hy⟩
  · rintro ⟨h1, h2⟩; exact ⟨a, h1, k, h2, rfl, rfl⟩
theorem rowError_clean (s : State) (core : Nat) (r : StageRec) : rowError s core r .clean = s := by
  unfold rowError
  split
  · simp [lineError, storeEvent]
  · rfl
theorem issued (s2 : State) (core : Nat) (r : StageRec) (pl : Plan) (es : List Elem) (products : Bool) (d : Dest) (t : Nat) (sc : F32)
    (hl : products = true → 1 ≤ es.length ∧ es.length ≤ 128) :
    let u := (s2.core core).arr
    let q := (s2.core core).stage.seq
    let as := arraysOf r.arrays
    let drain := pl.drains && decide (t + 1 = pl.slices)
    let holds := !products || as.all fun a => bankHolds u a (t % 2) (bankKey r q pl.slices q.block) t
    let room := !drain || (outRoom s2 core d.port (16 * as.length) && drainClear u)
    (holds = true → room = true →
      let s' := issueFormed s2 core r pl es products d t sc
      let v := (s'.core core).arr
      CoresMoved core s2 s' ∧ v.held = none ∧ v.rowsIssued = u.rowsIssued + 1 ∧ v.groups = u.groups ∧
      v.banks = u.banks ∧ v.snaps = u.snaps ∧
      v.drainWait = (if drain then as.length else u.drainWait) - issueCycles u.mode ∧
      ∃ row, v.flight = u.flight ++ [row] ∧ row.acts = es ∧ row.scaleA = sc ∧ row.dest = d ∧
        (products = true → tagLanes row.tag = es.length) ∧ tagOpen row.tag = decide (t = 0) ∧
        tagKeep row.tag = pl.keep ∧ tagDrain row.tag = drain ∧ tagProducts row.tag = products ∧
        tagBank row.tag = t % 2 ∧ tagArrays row.tag = r.arrays ∧
        ∀ a k, (a, k) ∈ row.banks ↔ products = true ∧ a ∈ as ∧ tget u.banks (2 * a + t % 2) = some k) ∧
    (holds = false → issueFormed s2 core r pl es products d t sc = s2.modCore core fun c => { c with arr := { c.arr with held := some .bank } }) ∧
    (holds = true → room = false → issueFormed s2 core r pl es products d t sc = s2.modCore core fun c => { c with arr := { c.arr with held := some .output } }) := by
  intro u q as drain holds room
  have c1 : (products && !(as.all fun a => bankHolds u a (t % 2) (bankKey r q pl.slices q.block) t)) = !holds := by
    simp only [holds]; cases products <;> simp
  have c2 : (drain && !(outRoom s2 core d.port (16 * as.length) && drainClear u)) = !room := by
    simp only [room]; cases drain <;> simp
  have af := advance_facts
  have tf := tag_fields (s2.core core).stage.seq.p (decide (t = 0)) pl.keep drain products ((if products then es.length else 1) - 1) (t % 2) r.arrays
    (by cases products with
        | false => simp
        | true => have := hl rfl; simp; omega) (by omega)
  dsimp only at tf
  obtain ⟨t1, t2, t3, t4, t5, t6, t7⟩ := tf
  refine ⟨fun h1 h2 => ?_, fun h1 => ?_, fun h1 h2 => ?_⟩
  · simp only [issueFormed]
    simp only [u, q, as, drain] at c1 c2
    rw [if_neg (by rw [c1, h1]; simp), if_neg (by rw [c2, h2]; simp)]
    refine ⟨fun k hk => ?_, ?_⟩
    · refine Moved.trans (b := _) ?_ ((af _ _ _ _).1 k hk)
      rw [core_modCore_other _ _ _ _ hk]; exact .refl _
    · rw [(af _ _ _ _).2]
      simp only [core_modCore_self]
      refine ⟨trivial, rfl, rfl, rfl, rfl, rfl, _, rfl, rfl, rfl, rfl, ?_, t1, t2, t3, t4, t6, t7, ?_⟩
      · intro hp
        show tagLanes (mkTag _ _ _ _ _ _ _ _) = _
        rw [t5, hp]
        have := hl hp
        simp; omega
      · intro a k
        cases products with
        | false => simp
        | true => simp only [if_true, true_and]; exact latch _ _ _ _ _
  · simp only [issueFormed]
    simp only [u, q, as] at c1
    rw [if_pos (by rw [c1, h1]; rfl)]
  · simp only [issueFormed]
    simp only [u, q, as, drain] at c1 c2
    rw [if_neg (by rw [c1, h1]; simp), if_pos (by rw [c2, h2]; rfl)]
theorem tget_terase_other {α : Type} (t : Tbl α) (k j : Nat) (h : j ≠ k) : tget (terase t k) j = tget t j := by
  induction t with
  | nil => rfl
  | cons e t ih =>
    obtain ⟨n, v⟩ := e
    simp only [terase]
    split
    · rename_i hn; simp [tget, hn ▸ h.symm]
    · simp [tget, ih]

end Sys2Proof.Laws.Arrays
end

