-- ==== Sys2Proof/Laws/FactsCampaigns.lean ====
section
/-!
SUPPORT. Lemmas on campaigns, for the statements about them.
-/

open Sys2Proof Sys2Proof.Machine Sys2Proof.Claims

namespace Sys2Proof.Laws.Campaigns

theorem tear_facts (s : State) : (tearFirmware s).mgmt = s.mgmt ∧ (tearFirmware s).imprint = s.imprint ∧ (tearFirmware s).bring = s.bring ∧ ∀ c, s.bring.campaign.slot = some c → (s.ctx c).st ≠ .free → ((tearFirmware s).ctx c).tear = some ⟨.destroy false, false⟩ := by
  unfold tearFirmware
  cases hs : s.bring.campaign.slot with
  | none => exact ⟨rfl, rfl, rfl, fun c h => by cases h⟩
  | some c =>
    dsimp only
    by_cases hf : (s.ctx c).st = .free
    · rw [if_pos hf]
      exact ⟨rfl, rfl, rfl, fun k h hk => by cases h; exact absurd hf hk⟩
    · rw [if_neg hf]
      refine ⟨rfl, rfl, rfl, fun k h hk => ?_⟩
      cases h
      rw [ctx_modCtx_self]
theorem settle_state (s : State) (h : s.bring.campaign.state = 2) : (campaignSettle s).bring.campaign.state = 2 ∨ (∃ x, campaignSession s = some x ∧ x.parent = none) ∧ (campaignSettle s).bring.campaign.state = 3 := by
  unfold campaignSettle
  split
  · exact Or.inl h
  · rename_i x hx
    split
    · rename_i hc
      refine Or.inr ⟨⟨x, hx, ?_⟩, rfl⟩
      simp only [Bool.and_eq_true] at hc
      simpa using hc.1.2
    · exact Or.inl h
/-- The parent of a session. -/
def PK (j : BitVec 32) (n : Nat) (p : Option Nat) (s : State) : Prop := ∀ x, findSession s j n = some x → x.parent = p
theorem pk_of {j : BitVec 32} {n : Nat} {p : Option Nat} {s t : State} (h : t.fab.sessions = s.fab.sessions) (k : PK j n p s) : PK j n p t := by
  unfold PK findSession at *; rw [h]; exact k
theorem find_put (s : State) (y : Session) (j : BitVec 32) (n : Nat) : ∀ x, findSession (putSession s y) j n = some x → x = y ∧ y.job = j ∧ y.number = n ∨ findSession s j n = some x := by
  intro x h
  unfold findSession putSession at h
  unfold findSession
  change (List.find? _ (s.fab.sessions.map _)) = some x at h
  generalize s.fab.sessions = l at h ⊢
  induction l with
  | nil => cases h
  | cons a l ih =>
    rw [List.map_cons, List.find?_cons] at h
    rw [List.find?_cons]
    by_cases e : (decide (a.job = y.job) && decide (a.number = y.number)) = true
    · rw [if_pos e] at h
      by_cases m : (decide (y.job = j) && decide (y.number = n)) = true
      · rw [m] at h
        simp only at h
        injection h with h
        left
        simp only [Bool.and_eq_true, decide_eq_true_eq] at m
        exact ⟨h.symm, m⟩
      · have m' : (decide (y.job = j) && decide (y.number = n)) = false := by simpa using m
        rw [m'] at h
        simp only at h
        have ea : (decide (a.job = j) && decide (a.number = n)) = false := by
          simp only [Bool.and_eq_true, decide_eq_true_eq] at e
          rw [e.1, e.2]; exact m'
        rw [ea]
        exact ih h
    · rw [if_neg e] at h
      cases m : (decide (a.job = j) && decide (a.number = n)) with
      | true =>
        rw [m] at h
        simp only at h ⊢
        right; exact h
      | false =>
        rw [m] at h
        simp only at h ⊢
        exact ih h
theorem pk_put {j : BitVec 32} {n : Nat} {p : Option Nat} {s : State} {y : Session} (k : PK j n p s) (hy : y.job = j → y.number = n → y.parent = p) : PK j n p (putSession s y) := by
  intro x hx
  rcases find_put s y j n x hx with ⟨rfl, h1, h2⟩ | h
  · exact hy h1 h2
  · exact k x h
theorem pk_find {s : State} {j : BitVec 32} {n : Nat} {x : Session} (h : findSession s j n = some x) : x.job = j ∧ x.number = n := by
  unfold findSession at h
  have := List.find?_some h
  simpa using this
theorem send_sessions (s : State) (a : Nat) (j : BitVec 32) (c k o : Nat) (b : Blob) : (sendPacket s a j c k o b).fab.sessions = s.fab.sessions := by
  obtain ⟨_, l, t, r, h⟩ := FS.sendPacket s a j c k o b
  rw [h]
theorem pk_serve {j : BitVec 32} {n : Nat} {p : Option Nat} : ∀ (f : Nat) (s : State), PK j n p s → PK j n p (serveLoans j n f s)
  | 0, s, h => h
  | f + 1, s, h => by
    unfold serveLoans
    split
    · exact h
    · rename_i x hx
      split
      · exact h
      · rename_i l t hl
        split
        · exact h
        · dsimp only
          refine pk_serve f _ (pk_put (pk_of (s := s) ?_ h) fun _ _ => h x hx)
          show (List.foldl _ s _).fab.sessions = _
          have : ∀ (rs : List (Nat × Nat)) (u : State), (rs.foldl (fun s r =>
              let v := readRange s (x.dest + r.1) r.2
              sendPacket v.2 l.peer j 0xFFD 9 n (Blob.append ⟨8, r.1⟩ ⟨r.2, v.1⟩)) u).fab.sessions = u.fab.sessions := by
            intro rs
            induction rs with
            | nil => intro u; rfl
            | cons r rs ih => intro u; exact (ih _).trans ((send_sessions _ _ _ _ _ _ _).trans (congrArg (fun f : Fabric => f.sessions) ((touches_readRange _ _ _).2 .fab (by decide))))
          exact this _ _
theorem pk_done {j : BitVec 32} {n : Nat} {p : Option Nat} (s : State) (h : PK j n p s) : PK j n p (tryDone s j n) := by
  unfold tryDone
  split
  · exact h
  · rename_i x hx
    split
    · exact h
    · dsimp only
      have k : PK j n p (putSession s { x with doneSent := true }) := pk_put h fun _ _ => h x hx
      split
      · exact pk_of (send_sessions _ _ _ _ _ _ _) k
      · exact k

end Sys2Proof.Laws.Campaigns
end

