-- ==== Sys2Proof/Laws/FactsCatalogue.lean ====
section
/-!
SUPPORT. Lemmas on the catalogue, for the statements about them.
-/

open Sys2Proof Sys2Proof.Machine Sys2Proof.Claims

namespace Sys2Proof.Laws.Catalogue

theorem fold_weedable (s : State) : ∀ (l : List (Nat × CatEntry)) (m : Option (Nat × Nat)) (e v : Nat),
    l.foldl (fun (m : Option (Nat × Nat)) e => match m with
      | some (_, v) => if e.2.stamp.toNat < v then some (e.1, e.2.stamp.toNat) else m
      | none => some (e.1, e.2.stamp.toNat)) m = some (e, v) → (∃ w, m = some (e, w)) ∨ ∃ y, (e, y) ∈ l
  | [], m, e, v, h => Or.inl ⟨v, h⟩
  | a :: l, m, e, v, h => by
    rw [List.foldl_cons] at h
    rcases fold_weedable s l _ e v h with ⟨w, hw⟩ | ⟨y, hy⟩
    · have key : (∃ w, m = some (e, w)) ∨ a.1 = e := by
        cases m with
        | none =>
          right
          have := Option.some.inj hw
          exact congrArg Prod.fst this
        | some p =>
          dsimp only at hw
          split at hw
          · right
            exact congrArg Prod.fst (Option.some.inj hw)
          · left; exact ⟨w, hw⟩
      rcases key with h | h
      · exact Or.inl h
      · exact Or.inr ⟨a.2, by rw [← h]; simp⟩
    · exact Or.inr ⟨y, List.mem_cons_of_mem _ hy⟩
theorem set_none (s : State) (e : Nat) (p : Bool) (h : tget s.host.cat e = none) : setPin s e p = s := by
  unfold setPin; rw [h]
theorem setPin_facts (s : State) (e : Nat) (p : Bool) (y : CatEntry) (h : tget s.host.cat e = some y) : setPin s e p = s.modHost fun h => { h with cat := tset h.cat e { y with pinned := p } } := by
  unfold setPin; rw [h]
theorem pack_at : ∀ (l : List Nat) (i v : Nat) (lo w : Nat), l[i]? = some v → lo + w ≤ 64 → bits (packFields (l.map fun v => (v, 64))) (64 * i + lo) w = bits v lo w
  | [], i, v, lo, w, h, _ => by simp at h
  | a :: l, 0, v, lo, w, h, hw => by
    simp at h; subst h
    simp only [List.map_cons, packFields, Nat.mul_zero, Nat.zero_add]
    exact bits_pack _ _ _ _ _ hw
  | a :: l, i + 1, v, lo, w, h, hw => by
    simp at h
    simp only [List.map_cons, packFields]
    rw [show 64 * (i + 1) + lo = 64 + (64 * i + lo) by ring, bits_skip]
    exact pack_at l i v lo w h hw
theorem bits_trunc (n m lo w : Nat) (h : lo + w ≤ m) : bits (n % 2 ^ m) lo w = bits n lo w := by
  unfold bits
  have e : 2 ^ m = 2 ^ lo * (2 ^ w * 2 ^ (m - lo - w)) := by rw [← Nat.pow_add, ← Nat.pow_add]; congr 1; omega
  rw [e, Nat.mod_mul_right_div_self, Nat.mod_mul_right_mod]
theorem dropVolume_taken (u : State) (j : BitVec 32) : (dropVolume u j).host.taken = u.host.taken ∧ (dropVolume u j).host.cat = u.host.cat ∧ (dropVolume u j).host.weedings = u.host.weedings := by
  unfold dropVolume
  dsimp only
  split <;> exact ⟨rfl, rfl, rfl⟩
/-- What PIN and UNPIN do to the catalogue. -/
theorem setPin_cat (s : State) (e : Nat) (p : Bool) : (setPin s e p).host.taken = s.host.taken ∧
    (∀ y, tget s.host.cat e = some y → tget (setPin s e p).host.cat e = some { y with pinned := p }) ∧
    (tget s.host.cat e = none → (setPin s e p).host.cat = s.host.cat) ∧
    ∀ j, j ≠ e → tget (setPin s e p).host.cat j = tget s.host.cat j := by
  cases h : tget s.host.cat e with
  | none =>
    rw [set_none _ _ _ h]
    exact ⟨rfl, fun y hy => (by cases hy), fun _ => rfl, fun _ _ => rfl⟩
  | some y =>
    rw [setPin_facts _ _ _ _ h]
    exact ⟨rfl, fun z hz => (by cases hz; exact tget_tset_self _ _ _), fun hn => (by cases hn), fun j hj => tget_tset_other _ _ _ _ hj⟩

end Sys2Proof.Laws.Catalogue
end

