-- ==== Sys2Proof/Laws/FactsCommits.lean ====
section
/-!
SUPPORT. Lemmas on commits, for the statements about them.
-/

open Sys2Proof Sys2Proof.Machine Sys2Proof.Claims

namespace Sys2Proof.Laws.Commits

theorem cause_ctx (s : State) (c n : Nat) : ∃ g : Commit → Commit, (∀ k, ∃ m, g k = { k with cause := m } ∧ (k.cause ≠ 0 → m = k.cause) ∧ (k.cause = 0 → m = n)) ∧ commitCause s c n = s.modCommit c g :=
  ⟨_, fun k => by
    by_cases h : k.cause = 0
    · exact ⟨n, if_pos h, fun g => absurd h g, fun _ => rfl⟩
    · exact ⟨k.cause, if_neg h, fun _ => rfl, fun g => absurd g h⟩, rfl⟩
/-- The snapshot of objects so far: what stands of the ledger, and the commit. -/
structure SN (c : Nat) (s0 : State) (p : Commit) (done : List Nat) (t : State) : Prop where
  x : ∃ l, t.ctx c = { s0.ctx c with led := l } ∧ l.waiting = none ∧ l.st = .committing ∧ l.taps = (s0.ctx c).led.taps ∧ ∃ k, l.commit = some k ∧
    (∃ d z, k = { p with digests := d, cause := z } ∧ (p.cause ≠ 0 → z = p.cause)) ∧ (∀ i ∈ done, (tget k.digests i).isSome = true)
theorem SN.cause {c : Nat} {s0 : State} {p : Commit} {done : List Nat} {t : State} (h : SN c s0 p done t) (n : Nat) : SN c s0 p done (commitCause t c n) := by
  obtain ⟨g, hg, e⟩ := cause_ctx t c n
  obtain ⟨l, h1, h2, h3, h3', k, h4, ⟨d, z, h5, h6⟩, h8⟩ := h
  rw [e]
  obtain ⟨m, hm, hm1, -⟩ := hg k
  refine ⟨{ l with commit := l.commit.map g }, ?_, h2, h3, h3', g k, by rw [h4]; rfl, ⟨d, m, by rw [hm, h5], fun h0 => ?_⟩, by rw [hm]; exact h8⟩
  · rw [ctx_modCommit, h1]
  · have e1 : k.cause = p.cause := by rw [h5]; exact h6 h0
    rw [hm1 (by rw [e1]; exact h0), e1]
theorem SN.led {c : Nat} {s0 : State} {p : Commit} {done : List Nat} {t u : State} (h : SN c s0 p done t) (hu : u.ctx c = t.ctx c) : SN c s0 p done u := by
  obtain ⟨l, h1, h2⟩ := h
  exact ⟨l, hu.trans h1, h2⟩
theorem SN.ite {c : Nat} {s0 : State} {p : Commit} {done : List Nat} {t u : State} (b : Prop) [Decidable b] (h : SN c s0 p done t) (k : SN c s0 p done u) : SN c s0 p done (if b then t else u) := by
  split <;> assumption
theorem SN.obj {c : Nat} {s0 : State} {p : Commit} {done : List Nat} {t : State} (h : SN c s0 p done t) (n i : Nat) : SN c s0 p (i :: done) (snapshotObject t c n i) := by
  unfold snapshotObject
  dsimp only
  have h1 := SN.ite ((t.mem.mem.poisonedRange (objAddr (t.ctx c).plan i) (objBytes (t.ctx c).plan i)) = true) (h.cause 1) h
  generalize (if (t.mem.mem.poisonedRange _ _) = true then _ else _) = s1 at h1 ⊢
  have h2 := SN.ite ((decide (objLayer (t.ctx c).plan i ≠ 0xFFFF) && layerSkewed t c (objLayer (t.ctx c).plan i) (objAddr (t.ctx c).plan i) (objBytes (t.ctx c).plan i)) = true) (h1.cause 2) h1
  generalize (if (decide (objLayer (t.ctx c).plan i ≠ 0xFFFF) && layerSkewed t c (objLayer (t.ctx c).plan i) (objAddr (t.ctx c).plan i) (objBytes (t.ctx c).plan i)) = true then commitCause s1 c 2 else s1) = s2 at h2 ⊢
  generalize memRead t _ _ = b
  have h3 : SN c s0 p done (ledgerWrite s2 (t.ctx c).job (ownOff (t.ctx c) n i) b) := h2.led (lw_ctx _ _ _ _ _)
  generalize ledgerWrite s2 _ _ _ = s3 at h3 ⊢
  obtain ⟨l, e1, e2, e3, e3', k, e4, ⟨d, z, e5, e6⟩, e8⟩ := h3
  refine ⟨{ l with commit := l.commit.map fun k => { k with digests := tset k.digests i (sm3 b) }, snapshotBytes := l.snapshotBytes + BitVec.ofNat 48 b.len }, by rw [ctx_modLed, ctx_modCommit, e1], e2, e3, e3', { k with digests := tset k.digests i (sm3 b) }, by rw [e4]; rfl, ⟨tset d i (sm3 b), z, by rw [e5], e6⟩, ?_⟩
  intro j hj
  by_cases hji : j = i
  · subst hji; simp
  · show (tget (tset k.digests i (sm3 b)) j).isSome = true
    rw [tget_tset_other _ _ _ _ hji]
    exact e8 j (by simpa [hji] using hj)
theorem SN.objs {c : Nat} {s0 : State} {p : Commit} (n : Nat) : ∀ (l : List Nat) (done : List Nat) (t : State), SN c s0 p done t → ∃ d, (∀ i ∈ l ++ done, i ∈ d) ∧ SN c s0 p d (l.foldl (fun s i => snapshotObject s c n i) t)
  | [], done, t, h => ⟨done, by simp, h⟩
  | a :: l, done, t, h => by
    obtain ⟨d, h1, h2⟩ := SN.objs n l (a :: done) _ (h.obj n a)
    refine ⟨d, fun i hi => h1 i ?_, h2⟩
    simp only [List.cons_append, List.mem_cons, List.mem_append] at hi ⊢
    tauto
/-- The copying of taps keeps the commit but for its cause. -/
def TK (c : Nat) (s t : State) : Prop := (t.ctx c).led.waiting = (s.ctx c).led.waiting ∧ (t.ctx c).led.st = (s.ctx c).led.st ∧
  ∀ k, (s.ctx c).led.commit = some k → ∃ z, (k.cause ≠ 0 → z = k.cause) ∧ (t.ctx c).led.commit = some { k with cause := z }
theorem TK.refl (c : Nat) (s : State) : TK c s s := ⟨rfl, rfl, fun k hk => ⟨k.cause, fun _ => rfl, hk⟩⟩
theorem TK.trans {c : Nat} {s t u : State} (h : TK c s t) (g : TK c t u) : TK c s u := by
  refine ⟨g.1.trans h.1, g.2.1.trans h.2.1, fun k hk => ?_⟩
  obtain ⟨z, hz, hl⟩ := h.2.2 k hk
  obtain ⟨z', hz', hm⟩ := g.2.2 _ hl
  refine ⟨z', fun h0 => ?_, hm⟩
  have e1 : z = k.cause := hz h0
  have e2 : z' = z := hz' (by show z ≠ 0; rw [e1]; exact h0)
  rw [e2, e1]
theorem TK.tap (c : Nat) (s : State) (i : Nat) (b : Blob) : TK c s (tapFinish s c i b) := by
  unfold tapFinish
  dsimp only
  split
  · exact TK.refl _ _
  · rename_i k hk
    split
    · obtain ⟨g, hg, e⟩ := cause_ctx s c 3
      rw [e]
      refine ⟨by rw [ctx_modCommit], by rw [ctx_modCommit], fun k' hk' => ?_⟩
      obtain ⟨m, h1, h2, -⟩ := hg k'
      exact ⟨m, h2, by rw [ctx_modCommit, hk']; exact congrArg some h1⟩
    · refine ⟨by rw [ctx_modLed, lw_ctx], by rw [ctx_modLed, lw_ctx], fun k' hk' => ⟨k'.cause, fun _ => rfl, ?_⟩⟩
      rw [ctx_modLed, lw_ctx]
      exact hk'
theorem TK.foldl (c : Nat) : ∀ (l : List (Nat × Blob × Bool)) (s : State), TK c s (l.foldl (fun s e => if e.2.2 then tapFinish s c e.1 e.2.1 else s) s)
  | [], s => TK.refl _ _
  | a :: l, s => by
    rw [List.foldl_cons]
    refine TK.trans ?_ (TK.foldl c l _)
    split
    · exact TK.tap _ _ _ _
    · exact TK.refl _ _
theorem sealRecord_facts (b : Blob) : (sealRecord b).len = b.len + 32 ∧ (∀ lo w, lo + w ≤ 8 * b.len → (sealRecord b).bits lo w = b.bits lo w) ∧
    (b.val < 2 ^ (8 * b.len) → (sealRecord b).bits (8 * b.len) 256 = (sm3 b).toNat ∧ (sealRecord b).slice 0 b.len = b) := by
  refine ⟨rfl, fun lo w h => ?_, fun h => ⟨?_, ?_⟩⟩
  · unfold sealRecord Blob.append Blob.bits bits
    simp only
    have : 2 ^ (8 * b.len) = 2 ^ lo * (2 ^ w * 2 ^ (8 * b.len - lo - w)) := by rw [← Nat.pow_add, ← Nat.pow_add]; congr 1; omega
    rw [this, Nat.mul_left_comm, Nat.mul_comm (sm3 b).toNat, ← Nat.mul_assoc, ← Nat.mul_assoc, Nat.mul_assoc (2 ^ lo), Nat.mul_assoc (2 ^ lo), Nat.add_mul_div_left _ _ (Nat.two_pow_pos lo), Nat.mul_assoc, Nat.add_mul_mod_self_left]
  · unfold sealRecord Blob.append Blob.bits bits
    simp only
    rw [Nat.mul_comm, Nat.add_mul_div_left _ _ (Nat.two_pow_pos _), Nat.div_eq_of_lt h, Nat.zero_add, Nat.mod_eq_of_lt (sm3 b).isLt]
  · unfold sealRecord Blob.append Blob.slice bits
    simp only [Nat.mul_zero, Nat.pow_zero, Nat.div_one]
    rw [Nat.mul_comm, Nat.add_mul_mod_self_left, Nat.mod_eq_of_lt h]
theorem sum_flat {α : Type} (f : α → List (Nat × Nat)) (n : Nat) (h : ∀ a, ((f a).map (·.2)).sum = n) : ∀ l : List α, ((l.flatMap f).map (·.2)).sum = n * l.length
  | [] => by simp
  | a :: l => by
    rw [List.flatMap_cons, List.map_append, List.sum_append, h, sum_flat f n h l, List.length_cons, Nat.mul_add, Nat.mul_one, Nat.add_comm]
set_option maxRecDepth 8000 in
set_option exponentiation.threshold 600 in
theorem record_facts (s : State) (c : Nat) (k : Commit) : let b := commitRecord s c k
    b.bits 0 32 = (s.ctx c).job.toNat ∧ b.bits 32 32 = k.c % 2 ^ 32 ∧ b.bits 64 14 = (s.ctx c).rank.toNat ∧
      b.bits (8 * (b.len - 32)) 256 = (sm3 (b.slice 0 (b.len - 32))).toNat := by
  generalize hents : packFields ((objectsOf (s.ctx c).plan (s.ctx c).rank.toNat).flatMap (fun i => [(i, 32), (if objLayer (s.ctx c).plan i = 0xFFFF then 0 else (tgetD k.layers (objLayer (s.ctx c).plan i) 0).toNat, 32),
    (boolNat ((s.ctx c).led.fallback.contains i), 1), (0, 63), ((tgetD k.digests i 0).toNat, 256)]) ++ k.batches.flatMap (fun q => [(q.2.1, 8), (q.1, 1), (0, 23), (q.2.2, 32)])) = E
  have hE : E < 2 ^ (384 * (objectsOf (s.ctx c).plan (s.ctx c).rank.toNat).length + 64 * k.batches.length) := by
    rw [← hents]
    refine Nat.lt_of_lt_of_le (packFields_lt _) (Nat.pow_le_pow_right (by decide) (Nat.le_of_eq ?_))
    rw [List.map_append, List.sum_append, sum_flat _ 384 (fun a => rfl), sum_flat _ 64 (fun a => rfl)]
  generalize hh : packFields [((s.ctx c).job.toNat, 32), (k.c, 32), ((s.ctx c).rank.toNat, 14), (0, 2), ((objectsOf (s.ctx c).plan (s.ctx c).rank.toNat).length, 16), (k.batches.length, 10), (0, 22),
    (k.monitor.toNat, 128), ((s.ctx c).led.drops.toNat, 32), (0, 224)] = H
  have hH : H < 2 ^ 512 := by rw [← hh]; exact Nat.lt_of_lt_of_eq (packFields_lt _) (congrArg (2 ^ ·) (by simp))
  generalize hbd : (⟨64 + 48 * (objectsOf (s.ctx c).plan (s.ctx c).rank.toNat).length + 8 * k.batches.length, H + 2 ^ 512 * E⟩ : Blob) = body
  have hb : commitRecord s c k = sealRecord body := by
    unfold commitRecord
    dsimp only
    rw [hh, hents, hbd]
  have hlen : 64 ≤ body.len := by rw [← hbd]; show 64 ≤ 64 + _ + _; omega
  have hlt : body.val < 2 ^ (8 * body.len) := by
    rw [← hbd]
    show H + 2 ^ 512 * E < 2 ^ (8 * (64 + 48 * _ + 8 * k.batches.length))
    rw [show ∀ a b : Nat, 8 * (64 + 48 * a + 8 * b) = 512 + (384 * a + 64 * b) by intro a b; ring, Nat.pow_add]
    calc H + 2 ^ 512 * E < 2 ^ 512 + 2 ^ 512 * E := by omega
      _ = 2 ^ 512 * (E + 1) := by ring
      _ ≤ _ := Nat.mul_le_mul_left _ hE
  obtain ⟨l1, l2, l3⟩ := sealRecord_facts body
  intro b
  have hbb : b = sealRecord body := hb
  have fld : ∀ lo w, lo + w ≤ 512 → b.bits lo w = bits H lo w := by
    intro lo w hw
    rw [hbb, l2 lo w (by omega)]
    show bits body.val lo w = _
    rw [← hbd]
    have := bits_pack H 512 lo w E hw
    rw [Nat.mod_eq_of_lt hH] at this
    exact this
  refine ⟨?_, ?_, ?_, ?_⟩
  · rw [fld 0 32 (by decide), ← hh, packFields, bits_pack _ _ _ _ _ (by decide)]
    simp [bits, Nat.mod_eq_of_lt (s.ctx c).job.isLt]
  · rw [fld 32 32 (by decide), ← hh, packFields, bits_skip _ 32 0 32, packFields, bits_pack _ _ _ _ _ (by decide)]
    simp [bits]
  · rw [fld 64 14 (by decide), ← hh, packFields, bits_skip _ 32 32 14, packFields, bits_skip _ 32 0 14, packFields, bits_pack _ _ _ _ _ (by decide)]
    simp [bits, Nat.mod_eq_of_lt (s.ctx c).rank.isLt]
  · have e : b.len - 32 = body.len := by rw [hbb, l1]; omega
    rw [e, hbb, (l3 hlt).1, (l3 hlt).2]
theorem ofBytes_byte : ∀ (l : List Nat) (j : Nat), (Blob.ofBytes l).byte j = l.getD j 0 % 256
  | [], j => by simp [Blob.ofBytes, Blob.byte]
  | a :: l, 0 => by
    simp only [Blob.ofBytes, Blob.byte, List.foldr_cons, Nat.mul_zero, Nat.pow_zero, Nat.div_one, List.getD_cons_zero]
    omega
  | a :: l, j + 1 => by
    have := ofBytes_byte l j
    simp only [Blob.ofBytes, Blob.byte, List.foldr_cons, List.getD_cons_succ] at this ⊢
    rw [← this, show 8 * (j + 1) = 8 + 8 * j by ring, Nat.pow_add, ← Nat.div_div_eq_div_mul]
    congr 2
    omega
theorem xor_lt (a b : Nat) (ha : a < 256) (hb : b < 256) : Nat.xor a b < 256 := Nat.xor_lt_two_pow (n := 8) ha hb
theorem fold_xor (j : Nat) : ∀ (ds : List Blob) (n v : Nat), v < 256 → ((ds.zipIdx n).foldl (fun v d => Nat.xor v (if false = true then gfMul (qCoef d.2) (d.1.byte j) else d.1.byte j)) v) = ds.foldl (fun v d => Nat.xor v (d.byte j)) v ∧ ds.foldl (fun v d => Nat.xor v (d.byte j)) v < 256
  | [], n, v, h => ⟨rfl, h⟩
  | d :: ds, n, v, h => by
    have hb : d.byte j < 256 := Nat.mod_lt _ (by decide)
    have := fold_xor j ds (n + 1) (Nat.xor v (d.byte j)) (xor_lt _ _ h hb)
    simpa [List.zipIdx_cons] using this
def RK (c : Nat) (s t : State) : Prop := ∃ m, t.ctx c = { s.ctx c with led := { (s.ctx c).led with reads := m }, faults := (t.ctx c).faults, fault := (t.ctx c).fault, tear := (t.ctx c).tear } ∧ ∀ r, (tget (s.ctx c).led.reads r).isSome = true → (tget m r).isSome = true
theorem RK.refl (c : Nat) (s : State) : RK c s s := ⟨_, rfl, fun _ h => h⟩
theorem RK.trans {c : Nat} {s t u : State} (h : RK c s t) (k : RK c t u) : RK c s u := by
  obtain ⟨m, a, b⟩ := h
  obtain ⟨n, d, e⟩ := k
  refine ⟨n, ?_, fun r hr => e r ?_⟩
  · rw [d]; generalize (u.ctx c).faults = f1; generalize (u.ctx c).fault = f2; generalize (u.ctx c).tear = f3; rw [a]
  · rw [a]; exact b r hr
theorem RK.sends (c : Nat) {β : Type} (f : State → β → State) (hf : ∀ (α : Type) (g : Ctx → α), Blind g → ∀ s a, CK g s (f s a)) (l : List β) (s : State) : RK c s (l.foldl f s) := by
  have h := CK.foldl (hf _ (fun x => ({ x with faults := 0, fault := none, tear := none } : Ctx)) (fun _ _ _ _ => rfl)) l s c
  refine ⟨(s.ctx c).led.reads, ?_, fun _ h => h⟩
  generalize (l.foldl f s).ctx c = y at h ⊢
  generalize s.ctx c = x at h ⊢
  cases x
  cases y
  simp at h ⊢
  simp [h]
theorem reads_facts (c g : Nat) (s : State) : ∃ m, (parityReads s c g).ctx c = { s.ctx c with led := { (s.ctx c).led with reads := m }, faults := ((parityReads s c g).ctx c).faults, fault := ((parityReads s c g).ctx c).fault, tear := ((parityReads s c g).ctx c).tear } ∧
    (∀ r, (tget (s.ctx c).led.reads r).isSome = true → (tget m r).isSome = true) ∧ ∀ r ∈ groupMembers (s.ctx c).plan g, (s.ctx c).led.dropped.contains r = false → (rankAcc (s.ctx c) r).isSome = true → (tget m r).isSome = true := by
  unfold parityReads
  generalize groupMembers (s.ctx c).plan g = ms
  generalize hF : (fun (s : State) (r : Nat) => _) = F
  have step : ∀ s r, RK c s (F s r) ∧ ((s.ctx c).led.dropped.contains r = false → (rankAcc (s.ctx c) r).isSome = true → (tget ((F s r).ctx c).led.reads r).isSome = true) := by
    intro s r
    rw [← hF]
    dsimp only
    cases ha : rankAcc (s.ctx c) r with
    | none => exact ⟨RK.refl _ _, fun _ h => by simp at h⟩
    | some a =>
      dsimp only
      split
      · rename_i hb
        refine ⟨RK.refl _ _, fun h1 _ => ?_⟩
        rw [h1] at hb
        simpa using hb
      · generalize hl : List.range _ = l
        have h1 : RK c s (s.modLed c fun l => { l with reads := tset l.reads r Blob.empty }) := by
          refine ⟨tset (s.ctx c).led.reads r Blob.empty, by rw [ctx_modLed], fun q hq => ?_⟩
          by_cases hqr : q = r
          · subst hqr; simp
          · rw [tget_tset_other _ _ _ _ hqr]; exact hq
        have h2 := RK.sends c (fun (u : State) (i : Nat) => sendPacket (u.free 44).2 a (s.ctx c).job 0xFFC 3 (min 4096 (sumBytes (s.ctx c).plan (parityObjects (s.ctx c) r) - 4096 * i)) ⟨8, (u.free 44).1.toNat⟩)
          (fun α g hg u i => (CK.free u 44).trans (CK.sendPacket hg _ _ _ _ _ _ _)) l (s.modLed c fun l => { l with reads := tset l.reads r Blob.empty })
        refine ⟨h1.trans h2, fun _ _ => ?_⟩
        obtain ⟨m, e1, e2⟩ := h2
        have e3 := e2 r (by rw [ctx_modLed]; simp)
        have : ∀ (x : Ctx), x = { (s.modLed c fun l => { l with reads := tset l.reads r Blob.empty }).ctx c with led := { ((s.modLed c fun l => { l with reads := tset l.reads r Blob.empty }).ctx c).led with reads := m }, faults := x.faults, fault := x.fault, tear := x.tear } → (tget x.led.reads r).isSome = true := by
          intro x hx; rw [hx]; exact e3
        exact this _ e1
  clear hF
  induction ms generalizing s with
  | nil => exact ⟨_, rfl, fun _ h => h, fun r hr => by simp at hr⟩
  | cons a l ih =>
    obtain ⟨h1, h2⟩ := step s a
    obtain ⟨m, e1, e2, e3⟩ := ih (F s a)
    have h3 := h1.trans (⟨m, e1, e2⟩ : RK c (F s a) (l.foldl F (F s a)))
    obtain ⟨n, f1, f2⟩ := h3
    have hn : n = m := by
      have a1 := congrArg (fun x : Ctx => x.led.reads) e1
      have a2 := congrArg (fun x : Ctx => x.led.reads) f1
      exact a2.symm.trans a1
    subst hn
    obtain ⟨k, g1, g2⟩ := h1
    refine ⟨n, f1, f2, fun r hr hd hacc => ?_⟩
    rcases List.mem_cons.mp hr with h | h
    · subst h; exact e2 r (h2 hd hacc)
    · refine e3 r h ?_ ?_
      · rw [g1]; exact hd
      · rw [g1]; exact hacc
theorem expSend_led (c e limit : Nat) : ∀ (n : Nat) (s : State), ((exportSend c e limit n s).ctx c).led = (s.ctx c).led
  | 0, s => rfl
  | n + 1, s => by
    unfold exportSend
    split
    · rfl
    · dsimp only
      split
      · rfl
      · rw [expSend_led, ctx_modCtx_self]
        exact CK.sendSegment (g := fun x => x.led) (fun _ _ _ _ => rfl) _ _ _ _ _ c
theorem exp_led (s : State) (c : Nat) : ((exportStart s c).ctx c).led = (s.ctx c).led := by
  unfold exportStart
  dsimp only
  split
  · rfl
  · generalize hs1 : State.modCtx _ c _ = s1
    have h1 : (s1.ctx c).led = (s.ctx c).led := by rw [← hs1, ctx_modCtx_self]; rfl
    have h2 := CK.sendSegment (g := fun x => x.led) (fun _ _ _ _ => rfl) s1 c (exportEntry (s1.ctx c)) (segHeader 0 (entrySession (s1.ctx c) (exportEntry (s1.ctx c))) 0 0 0 0) Blob.empty c
    generalize sendSegment s1 c _ _ _ = s2 at h2 ⊢
    unfold exportFrom
    split
    · exact h2.trans h1
    · rw [expSend_led, ctx_modCtx_self]; exact h2.trans h1
/-- A snapshot over memory that it does not write: what it has digested so far. -/
structure DN (c : Nat) (s : State) (p : Commit) (objs done : List Nat) (t : State) : Prop where
  x : ∃ l k, t.ctx c = { s.ctx c with led := l } ∧ l.commit = some k ∧ t.mem.mem.wf ∧ t.mem.granules = s.mem.granules ∧
    (∀ o ∈ objs, memRead t (objAddr (s.ctx c).plan o) (objBytes (s.ctx c).plan o) = memRead s (objAddr (s.ctx c).plan o) (objBytes (s.ctx c).plan o) ∧
      t.mem.mem.poisonedRange (objAddr (s.ctx c).plan o) (objBytes (s.ctx c).plan o) = s.mem.mem.poisonedRange (objAddr (s.ctx c).plan o) (objBytes (s.ctx c).plan o)) ∧
    (∀ i ∈ done, tget k.digests i = some (sm3 (memRead s (objAddr (s.ctx c).plan i) (objBytes (s.ctx c).plan i)))) ∧
    (p.cause = 0 → (∀ o ∈ objs, objLayer (s.ctx c).plan o = 0xFFFF) →
      ((∃ i ∈ done, s.mem.mem.poisonedRange (objAddr (s.ctx c).plan i) (objBytes (s.ctx c).plan i) = true) → k.cause = 1) ∧
      ((∀ i ∈ done, s.mem.mem.poisonedRange (objAddr (s.ctx c).plan i) (objBytes (s.ctx c).plan i) = false) → k.cause = 0))
/-- What a cause leaves of the rest of a snapshot. -/
theorem cause_led {c : Nat} {t : State} {x : Ctx} {l : Machine.Ledger} {k : Commit} (h1 : t.ctx c = { x with led := l }) (h2 : l.commit = some k) (n : Nat) :
    (commitCause t c n).mem = t.mem ∧ ∃ l', (commitCause t c n).ctx c = { x with led := l' } ∧ l'.commit = some (if k.cause = 0 then { k with cause := n } else k) := by
  refine ⟨rfl, { l with commit := l.commit.map fun k => if k.cause = 0 then { k with cause := n } else k }, ?_, by rw [h2]; rfl⟩
  unfold commitCause
  rw [ctx_modCommit, h1]
/-- A write to the ledger leaves what an object apart from it reads as. -/
theorem apart_kept {s u v : State} {job : BitVec 32} (hg : u.mem.granules = s.mem.granules) (w3 : ∀ x, (∀ o, ledgerAddr u job o ≠ x) → v.mem.mem.read x = u.mem.mem.read x ∧ v.mem.mem.poisoned (x / 128) = u.mem.mem.poisoned (x / 128))
    (A B : Nat) (ap : ∀ b, A ≤ b → b < A + B → ∀ off, ledgerAddr s job off ≠ b) (h0 : 0 < B) :
    memRead v A B = memRead u A B ∧ v.mem.mem.poisonedRange A B = u.mem.mem.poisonedRange A B := by
  have hla : ∀ o, ledgerAddr u job o = ledgerAddr s job o := by
    intro o; unfold ledgerAddr ledgerGranules; rw [hg]
  refine ⟨?_, ?_⟩
  · unfold memRead
    congr 1
    apply readNat_congr
    intro j hj
    exact (w3 _ (fun off => by rw [hla]; exact ap _ (Nat.le_add_right _ _) (by omega) off)).1
  · rw [Bool.eq_iff_iff, poisonedRange_iff, poisonedRange_iff]
    have hw : ∀ w, A / 128 ≤ w → 128 * w < A + B → v.mem.mem.poisoned w = u.mem.mem.poisoned w := by
      intro w g1 g2
      have := (w3 (max A (128 * w)) (fun off => by rw [hla]; exact ap _ (by omega) (by omega) off)).2
      rw [show max A (128 * w) / 128 = w by omega] at this
      exact this
    constructor
    · rintro ⟨w, g0, g1, g2⟩; exact ⟨w, by rw [← hw w g1 g2]; exact g0, g1, g2⟩
    · rintro ⟨w, g0, g1, g2⟩; exact ⟨w, by rw [hw w g1 g2]; exact g0, g1, g2⟩
theorem DN.obj {c : Nat} {s : State} {p : Commit} {objs done : List Nat} {t : State} (h : DN c s p objs done t) (n i : Nat) (hi : i ∈ objs)
    (apart : ∀ o ∈ objs, 0 < objBytes (s.ctx c).plan o ∧ ∀ b, objAddr (s.ctx c).plan o ≤ b → b < objAddr (s.ctx c).plan o + objBytes (s.ctx c).plan o → ∀ off, ledgerAddr s (s.ctx c).job off ≠ b) :
    DN c s p objs (done ++ [i]) (snapshotObject t c n i) := by
  obtain ⟨l, k, h1, h2, h3, h4, h5, h6, h7⟩ := h
  have hpl : (t.ctx c).plan = (s.ctx c).plan := by rw [h1]
  have hjob : (t.ctx c).job = (s.ctx c).job := by rw [h1]
  unfold snapshotObject
  dsimp only
  rw [hpl, hjob, (h5 i hi).1, (h5 i hi).2]
  generalize hA : objAddr (s.ctx c).plan i = A at *
  generalize hB : objBytes (s.ctx c).plan i = B at *
  -- the cause of a poisoned object
  have s1 : ∃ l1 k1, (((if s.mem.mem.poisonedRange A B = true then commitCause t c 1 else t) : State).ctx c) = { s.ctx c with led := l1 } ∧ l1.commit = some k1 ∧
      ((if s.mem.mem.poisonedRange A B = true then commitCause t c 1 else t) : State).mem = t.mem ∧ k1.digests = k.digests ∧
      (k.cause ≠ 0 → k1.cause = k.cause) ∧ (k.cause = 0 → k1.cause = if s.mem.mem.poisonedRange A B = true then 1 else 0) := by
    by_cases hp : s.mem.mem.poisonedRange A B = true
    · rw [if_pos hp, if_pos hp]
      obtain ⟨m, l', e1, e2⟩ := cause_led h1 h2 1
      refine ⟨l', _, e1, e2, m, ?_, fun h0 => ?_, fun h0 => ?_⟩
      · split <;> rfl
      · rw [if_neg h0]
      · rw [if_pos h0]
    · rw [if_neg hp, if_neg hp]
      exact ⟨l, k, h1, h2, rfl, rfl, fun _ => rfl, fun h => h⟩
  generalize ((if s.mem.mem.poisonedRange A B = true then commitCause t c 1 else t) : State) = u1 at s1 ⊢
  obtain ⟨l1, k1, a1, a2, a3, a4, a5, a6⟩ := s1
  have s2 : ∃ l2 k2, (((if (decide (objLayer (s.ctx c).plan i ≠ 0xFFFF) && layerSkewed t c (objLayer (s.ctx c).plan i) A B) = true then commitCause u1 c 2 else u1) : State).ctx c) = { s.ctx c with led := l2 } ∧ l2.commit = some k2 ∧
      ((if (decide (objLayer (s.ctx c).plan i ≠ 0xFFFF) && layerSkewed t c (objLayer (s.ctx c).plan i) A B) = true then commitCause u1 c 2 else u1) : State).mem = t.mem ∧ k2.digests = k.digests ∧
      (objLayer (s.ctx c).plan i = 0xFFFF → k2.cause = k1.cause) := by
    split
    · rename_i hc
      obtain ⟨m, l', e1, e2⟩ := cause_led a1 a2 2
      refine ⟨l', _, e1, e2, m.trans a3, ?_, fun h => ?_⟩
      · split <;> exact a4
      · simp [h] at hc
    · exact ⟨l1, k1, a1, a2, a3, a4, fun _ => rfl⟩
  generalize ((if (decide (objLayer (s.ctx c).plan i ≠ 0xFFFF) && layerSkewed t c (objLayer (s.ctx c).plan i) A B) = true then commitCause u1 c 2 else u1) : State) = u2 at s2 ⊢
  obtain ⟨l2, k2, b1, b2, b3, b4, b5⟩ := s2
  have hw2 : u2.mem.mem.wf := by rw [b3]; exact h3
  obtain ⟨w1, w2, w3⟩ := ledgerWrite_frame u2 (s.ctx c).job (ownOff (t.ctx c) n i) (memRead s A B) hw2
  have b1' : (ledgerWrite u2 (s.ctx c).job (ownOff (t.ctx c) n i) (memRead s A B)).ctx c = { s.ctx c with led := l2 } := (lw_ctx _ _ _ _ _).trans b1
  generalize ledgerWrite u2 (s.ctx c).job (ownOff (t.ctx c) n i) (memRead s A B) = u3 at w1 w2 w3 b1' ⊢
  refine ⟨{ l2 with commit := l2.commit.map fun k => { k with digests := tset k.digests i (sm3 (memRead s A B)) }, snapshotBytes := l2.snapshotBytes + BitVec.ofNat 48 (memRead s A B).len }, { k2 with digests := tset k2.digests i (sm3 (memRead s A B)) }, ?_, by rw [b2]; rfl, w1, ?_, ?_, ?_, ?_⟩
  · rw [ctx_modLed, ctx_modCommit, b1']
  · exact w2.trans (by rw [b3]; exact h4)
  · intro o ho
    obtain ⟨ap0, ap⟩ := apart o ho
    obtain ⟨q1, q2⟩ := apart_kept (by rw [b3]; exact h4) w3 _ _ ap ap0
    have e3 : memRead u2 (objAddr (s.ctx c).plan o) (objBytes (s.ctx c).plan o) = memRead t (objAddr (s.ctx c).plan o) (objBytes (s.ctx c).plan o) := by
      unfold memRead; rw [b3]
    exact ⟨q1.trans (e3.trans (h5 o ho).1), q2.trans (by rw [b3]; exact (h5 o ho).2)⟩
  · intro j hj
    show tget (tset k2.digests i _) j = _
    by_cases hji : j = i
    · subst hji; rw [tget_tset_self, hA, hB]
    · rw [tget_tset_other _ _ _ _ hji, b4]
      exact h6 j ((List.mem_append.1 hj).resolve_right fun h => hji (List.mem_singleton.1 h))
  · intro h0 hl
    obtain ⟨c1, c2⟩ := h7 h0 hl
    show ((∃ j ∈ done ++ [i], _) → k2.cause = 1) ∧ ((∀ j ∈ done ++ [i], _) → k2.cause = 0)
    rw [b5 (hl i hi)]
    constructor
    · rintro ⟨j, hj, hp⟩
      by_cases hd : ∃ i ∈ done, s.mem.mem.poisonedRange (objAddr (s.ctx c).plan i) (objBytes (s.ctx c).plan i) = true
      · have := c1 hd
        rw [a5 (by rw [this]; decide), this]
      · have hz := c2 (fun i hi => by
          rw [← Bool.not_eq_true]; intro g; exact hd ⟨i, hi, g⟩)
        rw [a6 hz]
        have : j = i := by
          simp only [List.mem_append, List.mem_singleton] at hj
          rcases hj with hj | hj
          · exact absurd ⟨j, hj, hp⟩ hd
          · exact hj
        subst this
        rw [hA, hB] at hp
        rw [if_pos hp]
    · intro ha
      have hz := c2 (fun j hj => ha j (by simp [hj]))
      have hp := ha i (by simp)
      rw [hA, hB] at hp
      rw [a6 hz, hp]; rfl
theorem DN.objs {c : Nat} {s : State} {p : Commit} {objs : List Nat} (n : Nat)
    (apart : ∀ o ∈ objs, 0 < objBytes (s.ctx c).plan o ∧ ∀ b, objAddr (s.ctx c).plan o ≤ b → b < objAddr (s.ctx c).plan o + objBytes (s.ctx c).plan o → ∀ off, ledgerAddr s (s.ctx c).job off ≠ b) :
    ∀ (l done : List Nat) (t : State), (∀ i ∈ l, i ∈ objs) → DN c s p objs done t → DN c s p objs (done ++ l) (l.foldl (fun s i => snapshotObject s c n i) t)
  | [], done, t, _, h => by simpa using h
  | a :: l, done, t, hl, h => by
    have := DN.objs n apart l (done ++ [a]) _ (fun i hi => hl i (List.mem_cons_of_mem _ hi)) (h.obj n a (hl a (by simp)) apart)
    simpa using this
theorem expSend_tC (c e limit : Nat) : ∀ (n : Nat) (s : State), ((exportSend c e limit n s).ctx c).tC = (s.ctx c).tC
  | 0, s => rfl
  | n + 1, s => by
    unfold exportSend
    split
    · rfl
    · dsimp only
      split
      · rfl
      · rw [expSend_tC, ctx_modCtx_self]
        exact CK.sendSegment (g := fun x => x.tC) (fun _ _ _ _ => rfl) _ _ _ _ _ c
theorem exp_tC (s : State) (c : Nat) : ((exportStart s c).ctx c).tC = (s.ctx c).tC := by
  unfold exportStart
  dsimp only
  split
  · rfl
  · generalize hs1 : State.modCtx _ c _ = s1
    have h1 : (s1.ctx c).tC = (s.ctx c).tC := by rw [← hs1, ctx_modCtx_self]; rfl
    have h2 := CK.sendSegment (g := fun x => x.tC) (fun _ _ _ _ => rfl) s1 c (exportEntry (s1.ctx c)) (segHeader 0 (entrySession (s1.ctx c) (exportEntry (s1.ctx c))) 0 0 0 0) Blob.empty c
    generalize sendSegment s1 c _ _ _ = s2 at h2 ⊢
    unfold exportFrom
    split
    · exact h2.trans h1
    · rw [expSend_tC, ctx_modCtx_self]; exact h2.trans h1
/-- What answering a commit at its root leaves of the commit. -/
theorem answer_facts (s : State) (c : Nat) (k : Commit) (hk : (s.ctx c).led.commit = some k) :
    ∃ a, ((answerCommit s c).ctx c).led.commit = some { k with answer := a } := by
  unfold answerCommit
  dsimp only
  rw [hk]
  dsimp only
  split
  · exact ⟨k.answer, hk⟩
  · generalize hv : Option.getD _ 0 = v
    generalize hl : List.filter _ _ = live
    have fold : CK (fun x => x.led.commit) (s.modCommit c fun k => { k with answer := some v }) (live.foldl (fun s_1 r => if r = (s.ctx c).rank.toNat then s_1 else sendTree s_1 c r (2 ^ 23 + 2) (leafPayload k.c v)) (s.modCommit c fun k => { k with answer := some v })) := by
      refine CK.foldl (fun u r => ?_) _ _
      split
      · exact CK.refl _
      · unfold sendTree
        split
        · exact CK.sendPacket (fun _ _ _ _ => rfl) _ _ _ _ _ _ _
        · exact CK.refl _
    refine ⟨some v, (fold c).trans ?_⟩
    rw [ctx_modCommit, hk]
    rfl
/-- What reporting a leaf does to a commit. -/
theorem leaf_facts (s : State) (c : Nat) (k : Commit) (v : Nat) (hk : (s.ctx c).led.commit = some k) :
    ∃ a, ((sendLeaf s c v).ctx c).led.commit = some { k with leaf := some v, answer := a } ∧ (commitRoot (s.ctx c) ≠ (s.ctx c).rank.toNat → a = k.answer) := by
  unfold sendLeaf
  dsimp only
  rw [hk]
  dsimp only
  have h1 : ((s.modCommit c fun k => { k with leaf := some v }).ctx c).led.commit = some { k with leaf := some v } := by rw [ctx_modCommit, hk]; rfl
  split
  · rename_i hr
    obtain ⟨a, e⟩ := answer_facts ((s.modCommit c fun k => { k with leaf := some v }).modLed c fun l => { l with leaves := tset l.leaves (s.ctx c).rank.toNat (k.c, v) }) c { k with leaf := some v } (by rw [ctx_modLed]; exact h1)
    exact ⟨a, e, fun h => absurd hr h⟩
  · refine ⟨k.answer, ?_, fun _ => rfl⟩
    unfold sendTree
    split
    · exact (CK.sendPacket (g := fun x => x.led.commit) (fun _ _ _ _ => rfl) _ _ _ _ _ _ _ c).trans h1
    · exact h1

end Sys2Proof.Laws.Commits
end

