-- ==== Sys2Proof/Laws/FactsCreation.lean ====
section
/-!
SUPPORT. Lemmas on context creation and loads, for the statements about them.
-/

open Sys2Proof Sys2Proof.Machine Sys2Proof.Claims

namespace Sys2Proof.Laws.Creation

theorem go_reserve {s s1 : State} {c n : Nat} (h : reserveLedger s c = some s1) (k : GO c n s) : GO c n s1 := by
  unfold reserveLedger at h
  dsimp only at h
  split at h
  · cases h
  · injection h with h
    rw [← h]
    exact go_of ((touches_directoryWrite _).2 .granules (by decide)) (go_fold (fun g => ⟨rfl, rfl⟩) _ _ (Or.inl k))
theorem nawake : ∀ (l : List Nat) (f : Nat → Bool), (l.any fun a => !f a) = !l.all f := by
  intro l f; induction l <;> simp_all
/-- A slip whose CREATE runs on in a state. -/
structure Goes (s s0 : State) (x : Taken) (c : Nat) (rank : BitVec 14) : Prop where
  mem : s0.mem = s.mem
  taken : { x with running := true } ∈ s0.host.taken
  rank : (s0.ctx c).rank = rank
  st : (s0.ctx c).st = .creating
theorem abandon_facts (u : State) (c : Nat) : ((abandonCreate u c).ctx c).st = .free ∧ ((abandonCreate u c).ctx c).mask = 0 ∧ KeyGone (.ctxMem c) (abandonCreate u c) ∧ (abandonCreate u c).host = u.host ∧
    (abandonCreate u c).mem.granules = (releaseGranules u c).mem.granules := by
  unfold abandonCreate
  dsimp only
  refine ⟨by rw [ctx_modCtx_self], by rw [ctx_modCtx_self], fun p hp => ?_, ?_, rfl⟩
  · have hp' : p ∈ ((releaseGranules u c).sec.destroy (.ctxMem c)).slots := hp
    rw [slots_destroy] at hp'
    exact hp'.2
  · exact ((touches_releaseGranules u c).2 .host (by decide))
theorem writes_granules : ∀ (ds : List Section) (u : State), (ds.foldl (fun s d => writeData s d.addr d.data) u).mem.granules = u.mem.granules
  | [], _ => rfl
  | d :: ds, u => (writes_granules ds _).trans ((touches_writeRange _ _ _ _).2 .granules (by decide))
theorem writes_host : ∀ (ds : List Section) (u : State), (ds.foldl (fun s d => writeData s d.addr d.data) u).host = u.host
  | [], _ => rfl
  | d :: ds, u => (writes_host ds _).trans ((touches_writeRange _ _ _ _).2 .host (by decide))
/-- An assigned granule of a plan keeps what it was but for its owner. -/
def Own (c n : Nat) (g : Machine.Granule) (s : State) : Prop := s.granule n = { g with assigned := true, context := BitVec.ofNat 4 c }
theorem own_fold (c n : Nat) (g : Machine.Granule) : ∀ (gs : List Nat) (s : State), (Own c n g s ∨ (s.granule n = g ∧ n ∈ gs)) → Own c n g (assignGranules s c gs)
  | [], s, h => by
    rcases h with h | h
    · exact h
    · exact absurd h.2 (by simp)
  | k :: gs, s, h => by
    refine own_fold c n g gs _ ?_
    by_cases e : n = k
    · subst e
      left
      have : (s.modGranule n fun g => { g with assigned := true, context := BitVec.ofNat 4 c }).granule n = { s.granule n with assigned := true, context := BitVec.ofNat 4 c } := by
        unfold State.modGranule State.granule
        simp only [tgetD, tget_tset_self, Option.getD_some]
      unfold Own
      rw [this]
      rcases h with h | h
      · rw [h]
      · rw [h.1]
    · have : (s.modGranule k fun g => { g with assigned := true, context := BitVec.ofNat 4 c }).granule n = s.granule n := by
        unfold State.modGranule State.granule
        simp only [tgetD, tget_tset_other _ _ _ _ e]
      unfold Own at *
      rw [this]
      rcases h with h | ⟨h, h2⟩
      · exact Or.inl h
      · rcases List.mem_cons.1 h2 with h3 | h3
        · exact absurd h3 e
        · exact Or.inr ⟨h, h3⟩
theorem own_of {c n : Nat} {g : Machine.Granule} {s t : State} (e : t.mem.granules = s.mem.granules) (h : Own c n g s) : Own c n g t := by
  have : t.granule n = s.granule n := by simp only [State.granule, e]
  unfold Own; rw [this]; exact h
theorem own_released {c n : Nat} {g : Machine.Granule} {s : State} (hc : c < 16) (h : Own c n g s) (hl : g.ledger = false) (ht : (g.lost || g.system || g.retain) = false) : GR n (releaseGranules s c) := by
  unfold Own at h
  simp only [Bool.or_eq_false_iff] at ht
  refine gr_ctx s c n (by rw [h]) ?_
  unfold ownsGranule
  rw [h]
  simp [hl, ht]
  omega
theorem unassigned_fold (n : Nat) : ∀ (l : List (Nat × Machine.Granule)) (s : State), (s.granule n).assigned = false → ((l.foldl (fun s p => releaseGranule s p.1) s).granule n).assigned = false
  | [], s, h => h
  | p :: l, s, h => by
    refine unassigned_fold n l _ ?_
    unfold releaseGranule State.modGranule State.granule at *
    by_cases e : n = p.1
    · rw [e]; simp only [tgetD, tget_tset_self, Option.getD_some]
    · simp only [tgetD, tget_tset_other _ _ _ _ e] at *
      exact h
theorem place_cores (s : State) (c : Nat) (L : LoadIn) (x : Ctx) (im : Image) : ∀ (l : List (StageRec × Nat)) (u : State) (n : Nat),
    ((l.foldl (fun t p => match lcoreOf x p.1.lcore with | some n => t.setCore n (loadedCore s c L im p.2 p.1) | none => t) u).core n =
      if ∃ p ∈ l, lcoreOf x p.1.lcore = some n then ((l.foldl (fun t p => match lcoreOf x p.1.lcore with | some n => t.setCore n (loadedCore s c L im p.2 p.1) | none => t) u).core n) else u.core n) ∧
    (∀ p ∈ l, lcoreOf x p.1.lcore = some n → (∀ p' ∈ l, lcoreOf x p'.1.lcore = some n → p' = p) →
      (l.foldl (fun t p => match lcoreOf x p.1.lcore with | some n => t.setCore n (loadedCore s c L im p.2 p.1) | none => t) u).core n = loadedCore s c L im p.2 p.1) := by
  intro l
  induction l with
  | nil => intro u n; simp
  | cons q l ih =>
    intro u n
    generalize hv : (match lcoreOf x q.1.lcore with | some n => u.setCore n (loadedCore s c L im q.2 q.1) | none => u) = v
    have hfold : ((q :: l).foldl (fun t p => match lcoreOf x p.1.lcore with | some n => t.setCore n (loadedCore s c L im p.2 p.1) | none => t) u) = l.foldl (fun t p => match lcoreOf x p.1.lcore with | some n => t.setCore n (loadedCore s c L im p.2 p.1) | none => t) v := by
      rw [← hv]; rfl
    have vother : lcoreOf x q.1.lcore ≠ some n → v.core n = u.core n := by
      intro h
      rw [← hv]
      cases hq : lcoreOf x q.1.lcore with
      | none => rfl
      | some m => dsimp only; rw [hq] at h; rw [core_setCore_other _ _ _ _ (fun e => h (by rw [e]))]
    have vself : lcoreOf x q.1.lcore = some n → v.core n = loadedCore s c L im q.2 q.1 := by
      intro h
      rw [← hv, h]; dsimp only; rw [core_setCore_self]
    rw [hfold]
    obtain ⟨i1, i2⟩ := ih v n
    constructor
    · split
      · rfl
      · rename_i hne
        push_neg at hne
        rw [i1, if_neg (by push_neg; exact fun p hp => hne p (List.mem_cons_of_mem _ hp)), vother (hne q (by simp))]
    · intro p hp h1 h2
      rcases List.mem_cons.mp hp with e | e
      · subst e
        by_cases hin : ∃ p' ∈ l, lcoreOf x p'.1.lcore = some n
        · obtain ⟨p', hp', h3⟩ := hin
          have := h2 p' (List.mem_cons_of_mem _ hp') h3
          rw [this] at hp'
          exact i2 p hp' h1 fun r hr h4 => h2 r (List.mem_cons_of_mem _ hr) h4
        · rw [i1, if_neg hin, vself h1]
      · exact i2 p e h1 fun r hr h4 => h2 r (List.mem_cons_of_mem _ hr) h4
theorem stages_ctx (f : Nat → StageRec → Core) (x : Ctx) (c : Nat) : ∀ (l : List (StageRec × Nat)) (w : State), (l.foldl (fun t p => match lcoreOf x p.1.lcore with | some n => t.setCore n (f p.2 p.1) | none => t) w).ctx c = w.ctx c
  | [], w => rfl
  | p :: l, w => by
    refine (stages_ctx f x c l _).trans ?_
    show State.ctx (match lcoreOf x p.1.lcore with | some n => w.setCore n (f p.2 p.1) | none => w) c = _
    cases lcoreOf x p.1.lcore <;> rfl
theorem shelves_same (s : State) (c : Nat) (L : LoadIn) (im : Image) : ∀ (l : List (Nat × Nat)) (w : State), (l.foldl (fun s p => loadShelf s c L im p.2 p.1) w).ctx c = w.ctx c ∧ (l.foldl (fun s p => loadShelf s c L im p.2 p.1) w).cores = w.cores
  | [], w => ⟨rfl, rfl⟩
  | p :: l, w => ⟨(shelves_same s c L im l _).1.trans rfl, (shelves_same s c L im l _).2.trans rfl⟩
theorem queues_same (c : Nat) (g : Nat → Option Blob) : ∀ (l : List Nat) (w : State), (l.foldl (fun s n => match g n with | some d => openQueue s c (n / 256) (n % 256) d | none => s) w).ctx c = w.ctx c ∧ (l.foldl (fun s n => match g n with | some d => openQueue s c (n / 256) (n % 256) d | none => s) w).cores = w.cores
  | [], w => ⟨rfl, rfl⟩
  | p :: l, w => by
    have h2 : (match g p with | some d => openQueue w c (p / 256) (p % 256) d | none => w).ctx c = w.ctx c ∧ (match g p with | some d => openQueue w c (p / 256) (p % 256) d | none => w).cores = w.cores := by
      cases g p with
      | none => exact ⟨rfl, rfl⟩
      | some d => exact ⟨ctx_of ((touches_openQueue _ _ _ _ _).2 .ctxs (by decide)) c, (touches_openQueue _ _ _ _ _).2 .cores (by decide)⟩
    exact ⟨(queues_same c g l _).1.trans h2.1, (queues_same c g l _).2.trans h2.2⟩
theorem place_facts (u : State) (c : Nat) (L : LoadIn) (hL : L.restoring = false) : ((placeImage u c L).ctx c).image = some (parseImage L.img) ∧ ((placeImage u c L).ctx c).loading = true ∧ (placeImage u c L).cores = ((parseImage L.img).stages.zipIdx.foldl (fun t p => match lcoreOf (u.ctx c) p.1.lcore with | some n => t.setCore n (loadedCore u c L (parseImage L.img) p.2 p.1) | none => t) u).cores := by
  unfold placeImage
  dsimp only
  generalize parseImage L.img = im
  rw [if_neg (by rw [hL]; exact Bool.false_ne_true)]
  generalize loadedCore u c L im = lc
  generalize queueFor im L.queues = qf
  generalize namedQueues im = nq
  generalize lcoreOf (u.ctx c) = lf
  generalize hw : State.modCtx _ c _ = w
  have hw1 : (w.ctx c).image = some im := by rw [← hw, ctx_modCtx_self]
  have hw2 : (w.ctx c).loading = true := by rw [← hw, ctx_modCtx_self]
  have hw3 : w.cores = (im.stages.zipIdx.foldl (fun t p => match lf p.1.lcore with | some n => t.setCore n (lc p.2 p.1) | none => t) u).cores := by
    rw [← hw, modCtx_cores, (shelves_same u c L im _ _).2]
    try rfl
  have hq := queues_same c qf nq w
  exact ⟨(congrArg (fun z : Ctx => z.image) hq.1).trans hw1, (congrArg (fun z : Ctx => z.loading) hq.1).trans hw2, hq.2.trans hw3⟩

end Sys2Proof.Laws.Creation
end

