-- ==== Sys2Proof/Laws/FactsFabricStreams.lean ====
section
/-!
SUPPORT. Lemmas on fabric streams, for the statements about them.
-/

open Sys2Proof Sys2Proof.Machine Sys2Proof.Claims

namespace Sys2Proof.Laws.FabricStreams

theorem takeFor_facts {s s1 : State} {h k c : Nat} {p : Pkt} (e : takeFor s h k = (s1, some (p, c))) : ∃ L R n, s1 = { s with fab := { s.fab with links := L, rx := R }, freeCtr := n } := by
  unfold takeFor at e
  split at e
  · injection e with _ e; cases e
  · rename_i q s0 ht
    split at e
    · injection e with _ e; cases e
    · split at e
      · rename_i s2 ha
        injection e with e1 e2
        injection e2 with e2
        injection e2 with e2 e3
        subst e1 e2
        exact delivered_fab ⟨s0, ht, ha⟩
      · injection e with _ e; cases e
/-- The fabric ends of every stream kept. -/
def FE (s t : State) : Prop := ∀ c i, (t.stream c i).fab = (s.stream c i).fab
theorem FE.refl (s : State) : FE s s := fun _ _ => rfl
theorem FE.trans {s t u : State} (h : FE s t) (k : FE t u) : FE s u := fun c i => (k c i).trans (h c i)
theorem FE.foldl {β : Type} {f : State → β → State} (hf : ∀ s a, FE s (f s a)) : ∀ (l : List β) (s : State), FE s (l.foldl f s)
  | [], s => FE.refl s
  | a :: l, s => (hf s a).trans (FE.foldl hf l _)
theorem stream_modStream (s : State) (c i : Nat) (f : Stream → Stream) : (s.modStream c i f).stream c i = f (s.stream c i) := by
  simp [State.modStream, State.stream]
theorem stream_modStream_ne (s : State) (c i d j : Nat) (f : Stream → Stream) (h : ¬ (d = c ∧ j = i)) : (s.modStream c i f).stream d j = s.stream d j := by
  unfold State.modStream State.stream
  by_cases e : d = c
  · subst e
    have : j ≠ i := fun x => h ⟨rfl, x⟩
    simp [this]
  · rw [ctx_modCtx_other _ _ _ _ e]
theorem FE.modStream (s : State) (c i : Nat) (f : Stream → Stream) (hf : (f (s.stream c i)).fab = (s.stream c i).fab) : FE s (s.modStream c i f) := by
  intro d j
  by_cases e : d = c ∧ j = i
  · obtain ⟨rfl, rfl⟩ := e; rw [stream_modStream]; exact hf
  · rw [stream_modStream_ne _ _ _ _ _ _ e]
theorem FE.ofCtxs {s t : State} (h : t.ctxs = s.ctxs) : FE s t := fun c i => by unfold State.stream State.ctx; rw [h]
theorem FE.modCtx (s : State) (c : Nat) (f : Ctx → Ctx) (hf : ∀ x, (f x).streams = x.streams) : FE s (s.modCtx c f) := by
  intro d j
  unfold State.stream
  by_cases e : d = c
  · subst e; rw [ctx_modCtx_self, hf]
  · rw [ctx_modCtx_other _ _ _ _ e]
theorem FE.append (s : State) (c i k : Nat) (w : List SWord) : FE s (streamAppend s c i k w) := FE.modStream _ _ _ _ rfl
/-- The streams and the image of a context. -/
abbrev SV (x : Ctx) : Tbl Machine.Stream × Option Image := (x.streams, x.image)
theorem FE.ofCK {s t : State} (h : CK SV s t) : FE s t := fun c i => by
  have := h c
  unfold State.stream
  rw [(Prod.mk.inj this).1]
theorem sv_stream {s t : State} (h : CK SV s t) (c i : Nat) : t.stream c i = s.stream c i := by
  unfold State.stream
  rw [(Prod.mk.inj (h c)).1]
theorem sv_rec {s t : State} (h : CK SV s t) (c i : Nat) : streamRec (t.ctx c) i = streamRec (s.ctx c) i := by
  unfold streamRec
  rw [(Prod.mk.inj (h c)).2]
theorem sv_stopEnd (s : State) (c : Nat) (l : List Nat) (n : StopName) (a : Nat) (hn : n ≠ .addressFault) : CK SV s (stopEnd s c l n a) := by
  unfold stopEnd
  simp only [if_neg hn]
  split
  · exact CK.contextFault (fun _ _ _ _ => rfl) _ _ _
  · refine CK.foldl (fun s k => ?_) _ _
    unfold stopStage
    exact CK.trans (CK.ofCtxs rfl) (CK.contextFault (fun _ _ _ _ => rfl) _ _ _)
theorem sv_tap (s : State) (c i : Nat) (w : SWord) : CK SV s (tapWord s c i w) := by
  unfold tapWord
  dsimp only
  have h1 : CK SV s (if w.header = true then s.modCtx c fun x => { x with taps := tset x.taps i (tgetD (s.ctx c).taps i 0 + 1) } else s) := by
    split
    · exact CK.modCtx _ _ _ fun _ => rfl
    · exact CK.refl _
  split
  · exact h1
  · refine h1.trans (CK.foldl (fun s j => ?_) _ _)
    have hl : ∀ (s : State) (f : Machine.Ledger → Machine.Ledger), CK SV s (s.modLed c f) := fun s f => CK.modCtx _ _ _ fun _ => rfl
    have ht : ∀ (s : State) (b : Blob), CK SV s (tapFinish s c j b) := by
      intro s b
      unfold tapFinish
      dsimp only
      split
      · exact CK.refl _
      · split
        · exact hl _ _
        · refine CK.trans (CK.ofCtxs ?_) (hl _ _)
          exact (touches_ledgerWrite _ _ _ _).2 .ctxs (by decide)
    split
    · exact CK.trans (hl s _) (ht _ _)
    · exact hl s _
/-- What a consumer of a stream has still to read, what waits for its buffer included. -/
abbrev queueOf (r : StreamRec) (t : Machine.Stream) (k : Nat) : List SWord := (t.buf k).unread ++ tgetD t.wait (if r.fanout = 1 then 0 else k) []
/-- Everything of a stream but where its words stand. -/
def SameBut (r : StreamRec) (t t' : Machine.Stream) : Prop :=
  t'.fab = t.fab ∧ t'.got = t.got ∧ t'.turn = t.turn ∧ ∀ k, k < r.consumers.length → queueOf r t' k = queueOf r t k
theorem pumpOne_same (r : StreamRec) (hr : r.fanout ≠ 1) (on : Nat → Bool) (cap : Nat) (t : Machine.Stream) (k : Nat) : SameBut r t (pumpOne on cap t k) := by
  refine ⟨rfl, rfl, rfl, fun j _ => ?_⟩
  unfold queueOf pumpOne
  simp only [if_neg hr, Stream.buf]
  by_cases h : j = k
  · subst h
    simp only [tgetD_tset_self]
    unfold Buf.unread
    simp
  · simp only [tgetD_tset_other _ _ _ _ _ h]
theorem pumpShared_same (r : StreamRec) (hr : r.fanout = 1) (on : Bool) (cap : Nat) (t : Machine.Stream) : SameBut r t (pumpShared on cap r.consumers.length t) := by
  refine ⟨rfl, rfl, rfl, fun j hj => ?_⟩
  unfold queueOf pumpShared
  simp only [if_pos hr, Stream.buf]
  generalize (if on = true then cap - sharedUsed r.consumers.length t else 0) = room
  have gen : ∀ (n : Nat) (l : Tbl Buf), tgetD ((List.range n).foldl (fun bs k => tset bs k { tgetD t.bufs k {esc := [], words := []} with words := (tgetD t.bufs k {esc := [], words := []}).words ++ (tgetD t.wait 0 []).take room }) l) j {esc := [], words := []} =
      if j < n then { tgetD t.bufs j {esc := [], words := []} with words := (tgetD t.bufs j {esc := [], words := []}).words ++ (tgetD t.wait 0 []).take room } else tgetD l j {esc := [], words := []} := by
    intro n
    induction n with
    | zero => intro l; simp
    | succ n ih =>
      intro l
      rw [List.range_succ, List.foldl_append, List.foldl_cons, List.foldl_nil]
      by_cases h : j = n
      · subst h; rw [tgetD_tset_self, if_pos (by omega)]
      · rw [tgetD_tset_other _ _ _ _ _ h, ih]
        by_cases h2 : j < n
        · rw [if_pos h2, if_pos (by omega)]
        · rw [if_neg h2, if_neg (by omega)]
  rw [gen, if_pos hj, tgetD_tset_self]
  unfold Buf.unread
  simp
theorem SameBut.trans {r : StreamRec} {a b c : Machine.Stream} (h : SameBut r a b) (k : SameBut r b c) : SameBut r a c :=
  ⟨k.1.trans h.1, k.2.1.trans h.2.1, k.2.2.1.trans h.2.2.1, fun n hn => (k.2.2.2 n hn).trans (h.2.2.2 n hn)⟩
theorem pump_same (s : State) (c i : Nat) (r : StreamRec) (hr : streamRec (s.ctx c) i = some r) :
    SameBut r (s.stream c i) ((pump s c i).stream c i) ∧ streamRec ((pump s c i).ctx c) i = some r ∧ FE s (pump s c i) := by
  unfold Machine.pump
  simp only [hr]
  generalize hon : (fun k => endpointOn s (s.ctx c) r.producer && bufferOn s c r k) = on
  have key : ∀ t', SameBut r (s.stream c i) t' → ∀ core : Option Nat, ∀ b : Prop, ∀ _ : Decidable b,
      SameBut r (s.stream c i) ((if b then (match core with | some n => wordMoved (s.modStream c i fun _ => t') n | none => s.modStream c i fun _ => t') else s.modStream c i fun _ => t').stream c i) ∧
      streamRec ((if b then (match core with | some n => wordMoved (s.modStream c i fun _ => t') n | none => s.modStream c i fun _ => t') else s.modStream c i fun _ => t').ctx c) i = some r ∧
      FE s (if b then (match core with | some n => wordMoved (s.modStream c i fun _ => t') n | none => s.modStream c i fun _ => t') else s.modStream c i fun _ => t') := by
    intro t' h core b _
    have h1 : (s.modStream c i fun _ => t').stream c i = t' := stream_modStream _ _ _ _
    have h2 : streamRec ((s.modStream c i fun _ => t').ctx c) i = some r := by
      rw [← hr]; unfold State.modStream streamRec; rw [ctx_modCtx_self]
    have h3 : FE s (s.modStream c i fun _ => t') := FE.modStream _ _ _ _ h.1
    split
    · split
      · exact ⟨by show SameBut r _ ((s.modStream c i fun _ => t').stream c i); rw [h1]; exact h, h2, h3.trans (FE.ofCtxs rfl)⟩
      · exact ⟨by rw [h1]; exact h, h2, h3⟩
    · exact ⟨by rw [h1]; exact h, h2, h3⟩
  split
  · rename_i hf
    exact key _ (pumpShared_same r hf _ _ _) _ _ _
  · rename_i hf
    refine key _ ?_ _ _ _
    generalize s.stream c i = t
    have : ∀ (l : List Nat) (t : Machine.Stream), SameBut r t (l.foldl (pumpOne on r.capacity) t) := by
      intro l
      induction l with
      | nil => intro t; exact ⟨rfl, rfl, rfl, fun _ _ => rfl⟩
      | cons a l ih => intro t; rw [List.foldl_cons]; exact (pumpOne_same r hf _ _ _ _).trans (ih _)
    exact this _ _
theorem FE.pump (s : State) (c i : Nat) : FE s (pump s c i) := by
  cases h : streamRec (s.ctx c) i with
  | none => unfold Machine.pump; rw [h]; exact FE.refl _
  | some r => exact (pump_same s c i r h).2.2
theorem FE.push (s : State) (c i : Nat) (h : THdr) (f : Fmt) (es : List Elem) (b : Bool) : FE s (streamPush s c i h f es b).1 := by
  unfold streamPush
  split
  · exact FE.refl _
  · dsimp only
    split
    · split
      · exact FE.refl _
      · exact (FE.foldl (fun s k => FE.append _ _ _ _ _) _ _).trans (FE.pump _ _ _)
    · split
      · exact ((FE.append _ _ _ _ _).trans (FE.modStream _ _ _ _ rfl)).trans (FE.pump _ _ _)
      · exact (FE.append _ _ _ _ _).trans (FE.pump _ _ _)
theorem FE.arrive (s : State) (c i : Nat) (r : StreamRec) (w : SWord) : FE s (arriveWord s c i r w) := by
  unfold arriveWord
  split
  · dsimp only
    split
    · exact FE.modStream _ _ _ _ rfl
    · have h1 : FE s (s.modStream c i fun t => { t with got := [] }) := FE.modStream _ _ _ _ rfl
      split
      · split
        · refine FE.trans h1 ?_
          exact FE.push _ _ _ _ _ _ _
        · refine FE.trans ?_ (FE.ofCK (sv_stopEnd _ _ _ .shapeMissing _ (by decide)))
          exact h1
      · exact FE.modStream _ _ _ _ rfl
  · dsimp only
    split
    · exact ((FE.append _ _ _ _ _).trans (FE.modStream _ _ _ _ rfl)).trans (FE.pump _ _ _)
    · exact (FE.append _ _ _ _ _).trans (FE.pump _ _ _)
  · exact (FE.append _ _ _ _ _).trans (FE.pump _ _ _)
theorem rec_modStream (s : State) (c i : Nat) (f : Machine.Stream → Machine.Stream) : streamRec ((s.modStream c i f).ctx c) i = streamRec (s.ctx c) i := by
  unfold State.modStream streamRec; rw [ctx_modCtx_self]
theorem queue_append (r : StreamRec) (t : Machine.Stream) (k n : Nat) (w : List SWord) (hk : r.fanout = 1 → k = 0) :
    queueOf r { t with wait := tmod t.wait k [] (· ++ w) } n = queueOf r t n ++ (if r.fanout = 1 ∨ n = k then w else []) := by
  unfold queueOf
  simp only [Stream.buf]
  by_cases h1 : r.fanout = 1
  · rw [if_pos h1, if_pos (Or.inl h1), hk h1, tgetD_tmod_self, List.append_assoc]
  · rw [if_neg h1]
    by_cases h : n = k
    · subst h; rw [tgetD_tmod_self, if_pos (Or.inr rfl), List.append_assoc]
    · rw [tgetD_tmod_other _ _ _ _ _ h, if_neg (by tauto), List.append_nil]
/-- One word that c90 joins the queue of the consumer it is for. -/
theorem arrive_one (u : State) (c i : Nat) (r : StreamRec) (w : SWord) (hr : streamRec (u.ctx c) i = some r) (hf : r.fanout < 3) :
    streamRec ((arriveWord (tapWord u c i w) c i r w).ctx c) i = some r ∧
    (∀ n, n < r.consumers.length → queueOf r ((arriveWord (tapWord u c i w) c i r w).stream c i) n =
      queueOf r (u.stream c i) n ++ (if r.fanout = 1 ∨ n = (if r.fanout = 2 then (u.stream c i).turn else 0) then [w] else [])) ∧
    ((arriveWord (tapWord u c i w) c i r w).stream c i).turn =
      (if r.fanout = 2 ∧ w.last then ((u.stream c i).turn + 1) % r.consumers.length else (u.stream c i).turn) := by
  have hc := sv_tap u c i w
  rw [← sv_rec hc] at hr
  rw [← sv_stream hc]
  generalize tapWord u c i w = v at hr ⊢
  unfold arriveWord
  split
  · rename_i h; omega
  · rename_i h2
    dsimp only
    rw [if_pos h2]
    have ha : (streamAppend v c i (v.stream c i).turn [w]).stream c i = { v.stream c i with wait := tmod (v.stream c i).wait (v.stream c i).turn [] (· ++ [w]) } := stream_modStream _ _ _ _
    have hra : streamRec ((streamAppend v c i (v.stream c i).turn [w]).ctx c) i = some r := by unfold streamAppend; rw [rec_modStream]; exact hr
    cases hw : w.last
    · rw [if_neg (by simp), if_neg (by simp)]
      obtain ⟨⟨a1, a2, a3, a4⟩, b, -⟩ := pump_same _ c i r hra
      refine ⟨b, fun n hn => ?_, ?_⟩
      · rw [a4 n hn, ha]; exact queue_append r _ _ n _ (fun h => by omega)
      · rw [a3, ha]
    · rw [if_pos rfl, if_pos ⟨h2, rfl⟩]
      have hrb := (rec_modStream (streamAppend v c i (v.stream c i).turn [w]) c i fun t => { t with turn := ((v.stream c i).turn + 1) % r.consumers.length }).trans hra
      obtain ⟨⟨a1, a2, a3, a4⟩, b, -⟩ := pump_same _ c i r hrb
      refine ⟨b, fun n hn => ?_, ?_⟩
      · rw [a4 n hn, stream_modStream, ha]; exact queue_append r (v.stream c i) (v.stream c i).turn n [w] (fun h => by omega)
      · rw [a3, stream_modStream]
  · rename_i h3 h2
    have h2' : r.fanout ≠ 2 := h2
    rw [if_neg h2', if_neg (by tauto)]
    have ha : (streamAppend v c i 0 [w]).stream c i = { v.stream c i with wait := tmod (v.stream c i).wait 0 [] (· ++ [w]) } := stream_modStream _ _ _ _
    have hra : streamRec ((streamAppend v c i 0 [w]).ctx c) i = some r := by unfold streamAppend; rw [rec_modStream]; exact hr
    obtain ⟨⟨a1, a2, a3, a4⟩, b, -⟩ := pump_same _ c i r hra
    refine ⟨b, fun n hn => ?_, ?_⟩
    · rw [a4 n hn, ha]; exact queue_append r _ _ n _ (fun _ => rfl)
    · rw [a3, ha]
theorem arrive_all (c i : Nat) (r : StreamRec) (hf : r.fanout < 3) : ∀ (ws : List SWord) (u : State), streamRec (u.ctx c) i = some r →
    (r.fanout = 2 → ∀ w ∈ ws.dropLast, w.last = false) →
    (∀ n, n < r.consumers.length → queueOf r ((ws.foldl (fun s w => arriveWord (tapWord s c i w) c i r w) u).stream c i) n =
      queueOf r (u.stream c i) n ++ (if r.fanout = 1 ∨ n = (if r.fanout = 2 then (u.stream c i).turn else 0) then ws else [])) ∧
    ((ws.foldl (fun s w => arriveWord (tapWord s c i w) c i r w) u).stream c i).turn =
      (if r.fanout = 2 ∧ (ws.getLast?.any fun w => w.last) then ((u.stream c i).turn + 1) % r.consumers.length else (u.stream c i).turn)
  | [], u, hr, hw => ⟨fun n hn => by simp, by simp⟩
  | [w], u, hr, hw => by
    obtain ⟨-, b, d⟩ := arrive_one u c i r w hr hf
    exact ⟨b, d⟩
  | w :: w' :: ws, u, hr, hw => by
    obtain ⟨a, b, d⟩ := arrive_one u c i r w hr hf
    have hl : r.fanout = 2 → w.last = false := fun h => hw h w (by simp)
    have hd : ((arriveWord (tapWord u c i w) c i r w).stream c i).turn = (u.stream c i).turn := by
      rw [d, if_neg]; rintro ⟨h, g⟩; rw [hl h] at g; cases g
    obtain ⟨e, f⟩ := arrive_all c i r hf (w' :: ws) (arriveWord (tapWord u c i w) c i r w) a (fun h x hx => hw h x (by
      rw [List.dropLast_cons₂]; exact List.mem_cons_of_mem _ hx))
    rw [hd] at e f
    refine ⟨fun n hn => ?_, ?_⟩
    · rw [List.foldl_cons, e n hn, b n hn]
      by_cases h : r.fanout = 1 ∨ n = (if r.fanout = 2 then (u.stream c i).turn else 0)
      · rw [if_pos h, if_pos h, if_pos h]; simp
      · rw [if_neg h, if_neg h, if_neg h]; simp
    · rw [List.foldl_cons, f]; simp [List.getLast?_cons_cons]
theorem arrive_got (c i : Nat) (r : StreamRec) (hf : r.fanout = 3) : ∀ (ws : List SWord) (u : State), (∀ w ∈ ws, w.last = false) →
    ((ws.foldl (fun s w => arriveWord (tapWord s c i w) c i r w) u).stream c i).got = (u.stream c i).got ++ ws
  | [], u, _ => by simp
  | w :: ws, u, hw => by
    rw [List.foldl_cons, arrive_got c i r hf ws _ (fun x hx => hw x (List.mem_cons_of_mem _ hx))]
    have hc := sv_tap u c i w
    rw [← sv_stream hc]
    generalize tapWord u c i w = v
    have h1 : (arriveWord v c i r w) = v.modStream c i fun t => { t with got := (v.stream c i).got ++ [w] } := by
      unfold arriveWord
      rw [hf]
      dsimp only
      rw [hw w (by simp)]
      rfl
    rw [h1, stream_modStream]
    simp
theorem credit_fold (c : Nat) (op : Nat) (M : Nat × Nat × BitVec 32 → Bool) (i k : Nat) : ∀ (l : List (Nat × Nat × BitVec 32)) (s : State),
    (((l.foldl (fun s e => if (decide (e.2.1 ≠ farEnd) && M e) = true then s.modEnd c e.1 e.2.1 fun f => { f with credit := f.credit + op } else s) s).stream c i).end' k).credit =
      ((s.stream c i).end' k).credit + op * (l.countP fun e => decide (e.1 = i ∧ e.2.1 = k ∧ k ≠ farEnd) && M e)
  | [], s => by simp
  | a :: l, s => by
    rw [List.foldl_cons, credit_fold c op M i k l, List.countP_cons]
    by_cases h : (decide (a.2.1 ≠ farEnd) && M a) = true
    · rw [if_pos h]
      by_cases hk : a.1 = i ∧ a.2.1 = k
      · obtain ⟨h1, h2⟩ := hk
        have hm : (decide (a.1 = i ∧ a.2.1 = k ∧ k ≠ farEnd) && M a) = true := by
          simp only [Bool.and_eq_true, decide_eq_true_eq] at h ⊢
          exact ⟨⟨h1, h2, h2 ▸ h.1⟩, h.2⟩
        rw [hm]
        subst h1 h2
        unfold State.modEnd
        rw [stream_modStream]
        simp only [Stream.end', tgetD_tmod_self]
        simp only [if_true]
        rw [Nat.mul_add]; omega
      · have hm : (decide (a.1 = i ∧ a.2.1 = k ∧ k ≠ farEnd) && M a) = false := by
          simp only [Bool.and_eq_false_iff, decide_eq_false_iff_not]
          left; intro x; exact hk ⟨x.1, x.2.1⟩
        rw [hm]
        have : (((s.modEnd c a.1 a.2.1 fun f => { f with credit := f.credit + op }).stream c i).end' k).credit = ((s.stream c i).end' k).credit := by
          unfold State.modEnd
          by_cases hi : i = a.1
          · subst hi
            rw [stream_modStream]
            have hk2 : k ≠ a.2.1 := fun x => hk ⟨rfl, x.symm⟩
            simp only [Stream.end', tgetD_tmod_other _ _ _ _ _ hk2]
          · rw [stream_modStream_ne _ _ _ _ _ _ (fun x => hi x.2)]
        rw [this]; simp
    · rw [if_neg h]
      have hm : (decide (a.1 = i ∧ a.2.1 = k ∧ k ≠ farEnd) && M a) = false := by
        rw [Bool.eq_false_iff]
        intro x
        apply h
        simp only [Bool.and_eq_true, decide_eq_true_eq] at x ⊢
        exact ⟨x.1.2.1 ▸ x.1.2.2, x.2⟩
      rw [hm]; simp

end Sys2Proof.Laws.FabricStreams
end

