-- ==== Sys2Proof/Laws/FactsFlits.lean ====
section
/-!
SUPPORT. Lemmas on links and flits, for the statements about them.
-/

open Sys2Proof Sys2Proof.Machine Sys2Proof.Claims

namespace Sys2Proof.Laws.Flits

theorem freshKey_link (s : State) (k : KeyId) (h : Nat) : (freshKey s k).link h = s.link h := rfl
theorem tryReady_same (s : State) (h : Nat) : ∃ st g, OnlySends { (s.link h) with st := st, grants := g } ((tryReady s h).link h) := by
  unfold tryReady
  dsimp only
  split
  · refine ⟨.ready, (List.range 7).foldl (fun g v => tmod g v 0 (· + laneBuffer v)) (s.link h).grants, ?_⟩
    have := LS.refreshOwn (s.modLink h fun l => { l with st := .ready, grants := (List.range 7).foldl (fun g v => tmod g v 0 (· + laneBuffer v)) l.grants }) h
    rw [link_modLink_self] at this
    exact this
  · exact ⟨_, _, .refl _⟩
theorem codewords_two (lanes n : Nat) (v : Blob) : (v.len < 640 → codewords lanes 2 n v = ([], v, n)) ∧
    (640 ≤ v.len → v.len < 1280 → codewords lanes 2 n v = ([⟨n % lanes, n / lanes % 65536, BitVec.ofNat 5120 v.val⟩], v.slice 640 (v.len - 640), n + 1)) := by
  constructor
  · intro h
    show (if v.len < codeBytes then ([], v, n) else _) = _
    rw [if_pos (show v.len < codeBytes from h)]
  · intro h g
    have e : codewords lanes 1 (n + 1) (v.slice 640 (v.len - 640)) = ([], v.slice 640 (v.len - 640), n + 1) := by
      show (if (v.slice 640 (v.len - 640)).len < codeBytes then ([], v.slice 640 (v.len - 640), n + 1) else _) = _
      rw [if_pos]
      show v.len - 640 < 640
      omega
    show (if v.len < codeBytes then ([], v, n) else _) = _
    rw [if_neg (by show ¬ v.len < 640; omega)]
    show (_ :: (codewords lanes 1 (n + 1) (v.slice 640 (v.len - 640))).1, (codewords lanes 1 (n + 1) (v.slice 640 (v.len - 640))).2) = _
    rw [e]
theorem sent_send (l l' : Link) (f : Flit) (h1 : l'.frame = l.frame) (h2 : l'.codes = l.codes) (h3 : l'.up4 = l.up4) : Sent l f (l'.send f) := by
  unfold Sent Link.send
  rw [h1, h2, h3]
  dsimp only
  generalize Blob.append l.frame (flitBlob f) = v
  refine ⟨rfl, fun h => ?_, fun h g => ?_⟩
  · rw [(codewords_two _ _ v).1 h]; exact ⟨rfl, rfl, rfl⟩
  · rw [(codewords_two _ _ v).2 h g]; exact ⟨rfl, rfl, rfl⟩
theorem slotKey_of {s t : State} (h1 : t.sec = s.sec) (k : KeyId) : slotKey t k = slotKey s k := by unfold slotKey; rw [h1]
theorem sendDir_of {s t : State} {h : Nat} (h1 : t.sec = s.sec) (h2 : (t.link h).peerSerial = (s.link h).peerSerial) : sendDir t h = sendDir s h := by
  unfold sendDir ownSerial; rw [h1, h2]
theorem seal_of {s t : State} {h : Nat} (h1 : t.sec = s.sec) (h2 : (t.link h).peerSerial = (s.link h).peerSerial) (i : Bool) (n : Nat) (w : BitVec 64) (b : BitVec 1856) : sealFlit t h i n w b = sealFlit s h i n w b := by
  unfold sealFlit hopKey hopSalt
  rw [sendDir_of h1 h2]
  dsimp only
  rw [slotKey_of h1]
theorem open_of {s t : State} {h : Nat} (h1 : t.sec = s.sec) (h2 : (t.link h).peerSerial = (s.link h).peerSerial) (i : Bool) (n : Nat) (f : Flit) (e : Fec) : openFlit t h i n f e = openFlit s h i n f e := by
  unfold openFlit hopKey hopSalt
  rw [sendDir_of h1 h2]
  dsimp only
  rw [slotKey_of h1]
theorem fabricReady_of {s t : State} (h1 : t.fab.accSt = s.fab.accSt) (h2 : ∀ k, (t.link k).st = (s.link k).st ∧ (t.link k).sync = (s.link k).sync) : fabricReady t = fabricReady s := by
  unfold fabricReady
  rw [h1]
  simp only [Link.isUp, (h2 _).1, (h2 _).2]
theorem lstate_of {s t : State} {h : Nat} (h1 : t.fab.accSt = s.fab.accSt) (h2 : ∀ k, (t.link k).st = (s.link k).st ∧ (t.link k).sync = (s.link k).sync) (h3 : (t.link h).leaving = (s.link h).leaving) : lstate t h = lstate s h := by
  unfold lstate; rw [fabricReady_of h1 h2, h3]
end Sys2Proof.Laws.Flits
namespace Sys2Proof.Claims
open Sys2Proof.Laws Sys2Proof.Laws.Flits in
theorem OneLink.set (s : State) (h : Nat) (l : Link) : OneLink s (s.setLink h l) h := ⟨fun _ hk => setLink_other _ _ _ _ hk, rfl⟩
end Sys2Proof.Claims
namespace Sys2Proof.Laws.Flits
end Sys2Proof.Laws.Flits
namespace Sys2Proof.Claims
open Sys2Proof.Laws Sys2Proof.Laws.Flits in
theorem OneLink.mod (s : State) (h : Nat) (f : Link → Link) : OneLink s (s.modLink h f) h := OneLink.set s h _
end Sys2Proof.Claims
namespace Sys2Proof.Laws.Flits
end Sys2Proof.Laws.Flits
namespace Sys2Proof.Claims
open Sys2Proof.Laws Sys2Proof.Laws.Flits in
theorem OneLink.trans {s t u : State} {h : Nat} (a : OneLink s t h) (b : OneLink t u h) : OneLink s u h := ⟨fun k hk => (b.1 k hk).trans (a.1 k hk), b.2.trans a.2⟩
end Sys2Proof.Claims
namespace Sys2Proof.Laws.Flits
/-- An IDLE flit sent on a link whose view of the fabric is another state's. -/
theorem sendIdle_facts (s s1 : State) (h : Nat) (l1 : Link) (hl : s1.link h = l1) (h1 : s1.sec = s.sec) (h2 : l1.peerSerial = (s.link h).peerSerial) :
    let w := linkHeader 0 l1.rxSeq l1.nak 0 0 (lstate s1 h) (grantOf l1).1 (grantOf l1).2 false
    (sendIdle s1 h).link h = ({ l1 with idles := l1.idles + 1, grants := tmod l1.grants (grantOf l1).1 0 (· - (grantOf l1).2) }.send (sealFlit s h true l1.idles w 0)) ∧ OneLink s1 (sendIdle s1 h) h := by
  subst hl
  unfold sendIdle
  refine ⟨?_, OneLink.set _ _ _⟩
  rw [setLink_self, seal_of h1 h2]
theorem sendKey_facts (s : State) (h m : Nat) :
    let l := s.link h
    let b := keyMessage s h m
    let n := keyFragments b
    let i := l.frag % n
    let d := b.slice (240 * i) (min 240 (b.len - 240 * i))
    let v := packFields [(m, 8), (i, 8), (n, 8), (d.len, 16), (0, 24), (d.val, 1920)]
    (sendKey s h m).link h = ({ l with frag := (i + 1) % n }.send ⟨linkHeader 0 0 false 0 2 (lstate s h) 0 0 false, BitVec.ofNat 1856 v, BitVec.ofNat 128 (v / 2 ^ 1856)⟩) ∧ OneLink s (sendKey s h m) h := by
  unfold sendKey
  exact ⟨by rw [setLink_self], OneLink.set _ _ _⟩
/-- A flit slot of a link that is up, in no LEAVING and no ABORT. -/
theorem slot_run (s : State) (h : Nat) (hlv : (s.link h).leaving = 0) (hab : (s.link h).aborts = 0) (hup : (s.link h).isUp = true) :
    ∃ s1 c, s1.link h = { (s.link h) with ctr := c } ∧ c.flitsReplayed = (s.link h).ctr.flitsReplayed ∧ c.retryExhausted = (s.link h).ctr.retryExhausted ∧
      (2048 ≤ (s.link h).held.length → c.replayFull = (s.link h).ctr.replayFull + BitVec.ofNat 48 (slotCycles (s.link h))) ∧ OneLink s s1 h ∧
      (∀ k, (s1.link k).st = (s.link k).st ∧ (s1.link k).sync = (s.link k).sync) ∧ s1.fab.accSt = s.fab.accSt ∧
      flitSlot s h = (match (s.link h).replay with
        | some i =>
          match (s.link h).held[i]? with
          | some f => sendReplay s1 h i f
          | none => sendIdle (s1.modLink h fun l => { l with replay := none }) h
        | none =>
          if decide ((s.link h).held.length ≥ 2048) then sendIdle s1 h
          else
            match nextLane (s.link h) with
            | some v => sendData s1 h v
            | none => sendIdle s1 h) := by
  have hnk : (s.link h).st ≠ .keying := by
    intro e; simp [Link.isUp, e] at hup
  have hu : flitSlot s h = flitSlot s h := rfl
  conv at hu => rhs; unfold flitSlot
  simp only [hlv, hab, hup] at hu
  rw [if_neg (by simp), if_neg (by simp), if_neg hnk, if_neg (by simp)] at hu
  generalize hS : s.modLinkCtr h _ = s1 at hu
  obtain ⟨a, b, hl, hb⟩ : ∃ a b, s1.link h = { (s.link h) with ctr := { (s.link h).ctr with creditWait := a, replayFull := b } } ∧
      (2048 ≤ (s.link h).held.length → b = (s.link h).ctr.replayFull + BitVec.ofNat 48 (slotCycles (s.link h))) := by
    rw [← hS]
    refine ⟨_, _, by unfold State.modLinkCtr; exact link_modLink_self _ _ _, fun hf => ?_⟩
    simp [show (s.link h).held.length ≥ 2048 from hf]
  refine ⟨s1, (s1.link h).ctr, by rw [hl], by rw [hl], by rw [hl], fun hf => by rw [hl]; exact hb hf, ?_, ?_, by rw [← hS]; rfl, hu⟩
  · rw [← hS]; exact OneLink.mod _ _ _
  · intro k
    by_cases e : k = h
    · subst e; rw [hl]; exact ⟨rfl, rfl⟩
    · rw [← hS]; unfold State.modLinkCtr; rw [link_modLink_other _ _ _ _ e]; exact ⟨rfl, rfl⟩
theorem went_raw (s : State) (h : Nat) : WentDown h (linkDown s h) ∧
    OnlySends ((s.link h).cleared (if (s.link h).signal && !(s.link h).retryWait && !(s.link h).mismatchWait then .training else .down)) ((linkDown s h).link h) := by
  have b := linkDown_link s h
  have k := linkDown_sec s h
  refine ⟨?_, b⟩
  obtain ⟨t, d, e⟩ := b
  exact ⟨by rw [e]; rfl, by rw [e]; rfl, by rw [e]; rfl, by rw [e]; rfl, k.1, k.2.1, k.2.2⟩
theorem takeAck_facts (l : Link) (a : Nat) (n : Bool) : let d := (a + 4096 - l.acked) % 4096
   (0 < d → d ≤ l.held.length → (takeAck l a n).held = ((l.held.drop d).map fun x => { x with replays := 0 }) ∧ (takeAck l a n).acked = a) ∧
   (d = 0 ∨ l.held.length < d → (takeAck l a n).held = l.held ∧ (takeAck l a n).acked = l.acked) ∧
   ((takeAck l a n).credits = l.credits) ∧ (takeAck l a n).asm = l.asm ∧ (takeAck l a n).rx = l.rx := by
  intro d
  have gen : ∀ (P : Link → Prop), (0 < d → d ≤ l.held.length → ∀ r, P { l with held := (l.held.drop d).map fun x => { x with replays := 0 }, acked := a, replay := r }) → (d = 0 ∨ l.held.length < d → ∀ r, P { l with replay := r }) → P (takeAck l a n) := by
    intro P h1 h2
    unfold takeAck
    by_cases hc : 0 < d ∧ d ≤ l.held.length
    · have hb : (decide (0 < (a + 4096 - l.acked) % 4096) && decide ((a + 4096 - l.acked) % 4096 ≤ l.held.length)) = true := by simpa using hc
      simp only [hb, if_true]
      generalize (l.replay.bind _) = rr
      split
      · exact h1 hc.1 hc.2 _
      · exact h1 hc.1 hc.2 _
    · have hb : (decide (0 < (a + 4096 - l.acked) % 4096) && decide ((a + 4096 - l.acked) % 4096 ≤ l.held.length)) = false := by
        rw [Bool.eq_false_iff]; simpa using hc
      simp only [hb, Bool.false_eq_true, if_false]
      have hd : d = 0 ∨ l.held.length < d := by omega
      split
      · exact h2 hd _
      · exact h2 hd l.replay
  refine ⟨fun a1 a2 => ?_, fun a1 => ?_, ?_, ?_, ?_⟩
  · exact gen (fun x => x.held = ((l.held.drop d).map fun x => { x with replays := 0 }) ∧ x.acked = a) (fun _ _ _ => ⟨rfl, rfl⟩) (fun h => by omega)
  · exact gen (fun x => x.held = l.held ∧ x.acked = l.acked) (fun _ _ => by omega) (fun _ _ => ⟨rfl, rfl⟩)
  · exact gen (fun x => x.credits = l.credits) (fun _ _ _ => rfl) (fun _ _ => rfl)
  · exact gen (fun x => x.asm = l.asm) (fun _ _ _ => rfl) (fun _ _ => rfl)
  · exact gen (fun x => x.rx = l.rx) (fun _ _ _ => rfl) (fun _ _ => rfl)
theorem takeNak (l : Link) (hr : l.replay = none) (hh : l.held ≠ []) : (takeAck l l.acked true).replay = some 0 := by
  unfold takeAck
  have : (l.acked + 4096 - l.acked) % 4096 = 0 := by omega
  simp only [this]
  simp [hr, hh]
theorem refreshOwn_acc (s : State) : (refreshOwn s).fab.acc = s.fab.acc := by
  unfold refreshOwn
  split
  · rfl
  · split
    · split
      · rfl
      · dsimp only
        obtain ⟨_, _, _, e⟩ := (FS.floodRecord (s.modFab fun x => { x with seq := x.seq + 1, lsdb := tset x.lsdb (ownSerial s) (ownRecord s (s.fab.seq + 1)), dirty := true }) none (ownRecord s (s.fab.seq + 1))).fab
        rw [e]; rfl
    · dsimp only
      obtain ⟨_, _, _, e⟩ := (FS.floodRecord (s.modFab fun x => { x with lsdb := tset x.lsdb (ownSerial s) (ownRecord s s.fab.seq), dirty := true }) none (ownRecord s s.fab.seq)).fab
      rw [e]; rfl
theorem tryReady_acc (s : State) (h : Nat) : (tryReady s h).fab.acc = s.fab.acc := by
  unfold tryReady
  dsimp only
  split
  · rw [refreshOwn_acc]; rfl
  · rfl
theorem tryReady_ne (s : State) (k h : Nat) (e : h ≠ k) : OnlySends (s.link h) ((tryReady s k).link h) := by
  unfold Machine.tryReady
  dsimp only
  split
  · refine OnlySends.trans ?_ (LS.refreshOwn _ h)
    rw [link_modLink_other _ _ _ _ e]; exact .refl _
  · exact .refl _
theorem countFec_link (s : State) (h : Nat) (e : Fec) : (countFec s h e).link h = { (s.link h) with ctr := { (s.link h).ctr with fecCorrected := (s.link h).ctr.fecCorrected + BitVec.ofNat 48 e.corrected, fecUncorrectable := (s.link h).ctr.fecUncorrectable + BitVec.ofNat 48 e.uncorrectable } } := by
  unfold countFec State.modLinkCtr
  rw [link_modLink_self]
theorem countFec_other (s : State) (h k : Nat) (e : Fec) (hk : k ≠ h) : (countFec s h e).link k = s.link k := by
  unfold countFec State.modLinkCtr
  rw [link_modLink_other _ _ _ _ hk]
/-- The view of a link once an accepted flit's fields are taken. -/
def took (l : Link) (hdr : BitVec 64) : Link :=
  { takeCredit (takeAck l (hdrBits hdr 12 12) (bit hdr.toNat 24)) (hdrBits hdr 32 3) (hdrBits hdr 35 12) with peerReady := decide (hdrBits hdr 30 2 = 1) }
theorem countFec_sec (s : State) (h : Nat) (e : Fec) : (countFec s h e).sec = s.sec := by
  unfold countFec State.modLinkCtr State.modLink State.setLink State.modFab
  rfl
theorem countFec_open (s : State) (h n : Nat) (i : Bool) (f : Flit) (e : Fec) : openFlit (countFec s h e) h i n f e = openFlit s h i n f e := by
  apply open_of (countFec_sec s h e)
  rw [countFec_link]
theorem isUp_ctr (l : Link) (c : LinkCtr) : Link.isUp { l with ctr := c } = l.isUp := rfl
theorem idle_run (s : State) (h n : Nat) (f : Flit) (fec : Fec) (hup : (s.link h).isUp = true) :
    let s1 := countFec s h fec
    flitIdle s h f n fec = if (openFlit s h true n f fec).isNone = true then s1.modLinkCtr h fun k => { k with tagFailures := k.tagFailures + 1 }
      else if hdrBits f.hdr 30 2 = 2 then linkDown (s1.setLink h (took (s1.link h) f.hdr)) h else tryReady (s1.setLink h (took (s1.link h) f.hdr)) h := by
  have hL := countFec_link s h fec
  have hop := countFec_open s h n true f fec
  have hu0 : ((countFec s h fec).link h).isUp = true := by rw [hL, isUp_ctr]; exact hup
  unfold flitIdle
  dsimp only
  rw [if_neg (by rw [hu0]; simp), hop, took]
theorem idle_down (s : State) (h n : Nat) (f : Flit) (fec : Fec) (hup : (s.link h).isUp = false) : flitIdle s h f n fec = countFec s h fec := by
  have hL := countFec_link s h fec
  have hu0 : ((countFec s h fec).link h).isUp = false := by rw [hL, isUp_ctr]; exact hup
  unfold flitIdle
  dsimp only
  rw [if_pos (by rw [hu0]; rfl)]
/-- What taking an accepted flit's fields does to a link, and what it keeps. -/
theorem took_facts (l : Link) (c : LinkCtr) (hdr : BitVec 64) :
    let x := took { l with ctr := c } hdr
    let a := hdrBits hdr 12 12
    let d := (a + 4096 - l.acked) % 4096
    (0 < d → d ≤ l.held.length → x.acked = a ∧ x.held = ((l.held.drop d).map fun x => { x with replays := 0 })) ∧
      (d = 0 ∨ l.held.length < d → x.held = l.held ∧ x.acked = l.acked) ∧
      (a = l.acked → bit hdr.toNat 24 = true → l.replay = none → l.held ≠ [] → x.replay = some 0) ∧
      tgetD x.credits (hdrBits hdr 32 3) 0 = tgetD l.credits (hdrBits hdr 32 3) 0 + hdrBits hdr 35 12 ∧
      x.peerReady = decide (hdrBits hdr 30 2 = 1) ∧ x.ctr = c ∧ x.asm = l.asm ∧ x.rx = l.rx := by
  obtain ⟨f1, f2, f3, f4, f5⟩ := takeAck_facts { l with ctr := c } (hdrBits hdr 12 12) (bit hdr.toNat 24)
  refine ⟨fun a b => ⟨(f1 a b).2, (f1 a b).1⟩, f2, ?_, ?_, rfl, ?_, f4, f5⟩
  · intro a b e g
    show (takeAck { l with ctr := c } (hdrBits hdr 12 12) (bit hdr.toNat 24)).replay = _
    rw [a, b]; exact takeNak { l with ctr := c } e g
  · show tgetD (takeCredit (takeAck { l with ctr := c } (hdrBits hdr 12 12) (bit hdr.toNat 24)) (hdrBits hdr 32 3) (hdrBits hdr 35 12)).credits _ _ = _
    simp [takeCredit, f3]
  · show (takeAck { l with ctr := c } _ _).ctr = c
    unfold takeAck
    dsimp only
    repeat' split
    all_goals rfl
theorem data_run (s : State) (h n : Nat) (f : Flit) (fec : Fec) (hup : (s.link h).isUp = true) :
    let s1 := countFec s h fec
    let l := s1.link h
    flitData s h f n fec = match openFlit s h false n f fec with
      | none => s1.modLinkCtr h fun k => { k with tagFailures := k.tagFailures + 1 }
      | some body =>
        if hdrBits f.hdr 30 2 = 2 then linkDown s1 h
        else if hdrBits f.hdr 0 12 ≠ (l.rxSeq + 1) % 4096 then s1.setLink h { l with nak := true }
        else
          let vl := hdrBits f.hdr 25 3
          let first := bit f.hdr.toNat 47
          let l1 := took l f.hdr
          let fs := (if first then [] else tgetD l1.asm vl []) ++ [⟨first, body⟩]
          let l2 := { l1 with
            rxSeq := hdrBits f.hdr 0 12, nak := false
            grants := if vl = 7 then tmod l1.grants 7 0 (· + 1) else l1.grants }
          match assembled fs with
          | some p => packetIn (tryReady (s1.setLink h { l2 with asm := tset l2.asm vl [] }) h) h vl p
          | none => tryReady (s1.setLink h { l2 with asm := tset l2.asm vl fs }) h := by
  have hL := countFec_link s h fec
  have hop := countFec_open s h n false f fec
  have hu0 : ((countFec s h fec).link h).isUp = true := by rw [hL, isUp_ctr]; exact hup
  unfold flitData
  dsimp only
  rw [hu0, hop]
  cases openFlit s h false n f fec with
  | none => rfl
  | some body => rfl
theorem data_down (s : State) (h n : Nat) (f : Flit) (fec : Fec) (hup : (s.link h).isUp = false) : flitData s h f n fec = countFec s h fec := by
  have hL := countFec_link s h fec
  have hu0 : ((countFec s h fec).link h).isUp = false := by rw [hL, isUp_ctr]; exact hup
  unfold flitData
  dsimp only
  rw [hu0]
/-- What a packet's arrival does to its link: it waits there, or its credits are returned. -/
theorem packetIn_link (s : State) (h vl : Nat) (p : Pkt) :
    (p.kind ≥ 0xC ∨ p.hop ≠ p.nhops ∨ p.dst = s.fab.acc → (packetIn s h vl p).link h = { (s.link h) with rx := (s.link h).rx ++ [(vl, p)] }) ∧
    (p.kind < 0xC → p.hop = p.nhops → p.dst ≠ s.fab.acc → (packetIn s h vl p).fab.misdelivered = s.fab.misdelivered + 1 ∧
      ∃ g, (packetIn s h vl p).link h = { (s.link h) with grants := g }) := by
  constructor
  · intro hc
    unfold packetIn
    rw [if_neg, link_modLink_self]
    simp only [Bool.and_eq_true, decide_eq_true_eq]
    rintro ⟨⟨a, b⟩, c⟩
    rcases hc with z | z | z
    · omega
    · exact z b
    · exact c z
  · intro a b c
    unfold packetIn
    rw [if_pos (by simp [a, b, c])]
    refine ⟨?_, ?_⟩
    · show (freeFlits s h vl p).fab.misdelivered + 1 = _
      unfold freeFlits
      split <;> rfl
    · show ∃ g, (freeFlits s h vl p).link h = _
      unfold freeFlits
      split
      · exact ⟨_, rfl⟩
      · exact ⟨_, link_modLink_self _ _ _⟩
theorem fab_step (s : State) (f : State → State) : (fabricStep s f).fab.misdelivered = (f s).fab.misdelivered := by
  obtain ⟨L, T, n, e⟩ := (FS.fabricStep s f).fab
  rw [e]
theorem refreshOwn_mis (s : State) : (refreshOwn s).fab.misdelivered = s.fab.misdelivered := by
  unfold refreshOwn
  split
  · rfl
  · split
    · split
      · rfl
      · dsimp only
        obtain ⟨_, _, _, e⟩ := (FS.floodRecord (s.modFab fun x => { x with seq := x.seq + 1, lsdb := tset x.lsdb (ownSerial s) (ownRecord s (s.fab.seq + 1)), dirty := true }) none (ownRecord s (s.fab.seq + 1))).fab
        rw [e]; rfl
    · dsimp only
      obtain ⟨_, _, _, e⟩ := (FS.floodRecord (s.modFab fun x => { x with lsdb := tset x.lsdb (ownSerial s) (ownRecord s s.fab.seq), dirty := true }) none (ownRecord s s.fab.seq)).fab
      rw [e]; rfl
theorem tryReady_mis (s : State) (h : Nat) : (tryReady s h).fab.misdelivered = s.fab.misdelivered := by
  unfold tryReady
  dsimp only
  split
  · rw [refreshOwn_mis]; rfl
  · rfl
/-- A packet's arrival on the link just made READY: a view of the link that neither touches stands. -/
theorem packetIn_keeps {α : Type} (g : Link → α) (hg : ∀ (l : Link) a b c, g { l with st := a, grants := b, rx := c } = g l) (ho : ∀ a b, OnlySends a b → g b = g a)
    (s : State) (h vl : Nat) (p : Pkt) : g ((packetIn (tryReady s h) h vl p).link h) = g (s.link h) := by
  have k : g ((tryReady s h).link h) = g (s.link h) := by
    obtain ⟨st, gr, e⟩ := tryReady_same s h
    rw [ho _ _ e]
    exact hg (s.link h) st gr (s.link h).rx
  obtain ⟨a, b⟩ := packetIn_link (tryReady s h) h vl p
  by_cases hc : p.kind ≥ 0xC ∨ p.hop ≠ p.nhops ∨ p.dst = (tryReady s h).fab.acc
  · rw [a hc, ← k]
    exact hg ((tryReady s h).link h) _ _ _
  · simp only [not_or, Decidable.not_not] at hc
    obtain ⟨-, gr, e⟩ := b (by omega) hc.2.1 hc.2.2
    rw [e, ← k]
    exact hg ((tryReady s h).link h) _ gr _

end Sys2Proof.Laws.Flits
end

