-- ==== Sys2Proof/Laws/FactsGather.lean ====
section
/-!
SUPPORT. Lemmas on gathers, routes and vector stages, for the statements about them.
-/

open Sys2Proof Sys2Proof.Machine Sys2Proof.Claims

namespace Sys2Proof.Laws.Gather

theorem tget_zipIdx {α : Type} (F : α → OVal) : ∀ (l : List α) (n i : Nat), tget ((l.zipIdx n).map fun q => (q.2, F q.1)) (n + i) = l[i]?.map F
  | [], _, _ => rfl
  | a :: l, n, 0 => by simp [List.zipIdx_cons, tget]
  | a :: l, n, i + 1 => by
    have := tget_zipIdx F l (n + 1) i
    simp only [List.zipIdx_cons, List.map_cons, tget]
    rw [if_neg (by omega), ← Nat.add_assoc, Nat.add_right_comm]
    simpa using this
theorem drop_take_one {α : Type} (l : List α) (i : Nat) (e : α) (h : l[i]? = some e) : (l.drop i).take 1 = [e] := by
  rw [List.getElem?_eq_some_iff] at h
  obtain ⟨h1, h2⟩ := h
  rw [List.drop_eq_getElem_cons h1, h2]; simp
theorem zip2_map {α β γ δ : Type} (F : α → δ) : ∀ (xs : List α) (g : List β) (b : List γ), xs.length ≤ g.length → xs.length ≤ b.length →
    ((xs.zip g).zip b).map (fun q => F q.1.1) = xs.map F
  | [], _, _, _, _ => by simp
  | x :: xs, [], _, h, _ => by simp at h
  | x :: xs, _ :: _, [], _, h => by simp at h
  | x :: xs, y :: g, z :: b, h1, h2 => by
    simp only [List.zip_cons_cons, List.map_cons]
    rw [zip2_map F xs g b (by simpa using h1) (by simpa using h2)]
theorem zip2_assoc {α β γ δ : Type} (F : α → β → γ → δ) : ∀ (xs : List α) (g : List β) (b : List γ),
    ((xs.zip g).zip b).map (fun q => F q.1.1 q.1.2 q.2) = (xs.zip (g.zip b)).map fun q => F q.1 q.2.1 q.2.2
  | [], _, _ => by simp
  | x :: xs, [], _ => by simp
  | x :: xs, _ :: _, [] => by simp
  | x :: xs, y :: g, z :: b => by
    simp only [List.zip_cons_cons, List.map_cons, zip2_assoc F xs g b]
theorem vecRow4_length (eps : F32) (g b xs : List F32) : (vecRow 4 eps g b xs).length = xs.length := by simp [vecRow]

end Sys2Proof.Laws.Gather
end

