-- ==== Sys2Proof/Laws/FactsIntakeSteps.lean ====
section
/-!
SUPPORT. Lemmas on intake, for the statements about them.
-/

open Sys2Proof Sys2Proof.Machine Sys2Proof.Claims

namespace Sys2Proof.Laws.IntakeSteps

theorem q_media {s t : State} (h : t.media = s.media) (x n : Nat) : t.queue x n = s.queue x n := by
  simp only [State.queue, State.complex, h]
theorem fc (a b : State) : (flushCredits a b).media = b.media := (touches_flushCredits a b).2 .media (by decide)
theorem rcm (s : State) : (returnCredits s).media = s.media := (touches_returnCredits s).2 .media (by decide)
theorem cf (s : State) (c : Nat) (f : FaultRec) : (contextFault s c f).media = s.media := rfl
theorem cx {s t : State} (h : t.media = s.media) (x : Nat) : t.complex x = s.complex x := by simp only [State.complex, h]
theorem qfc (a b : State) (x n : Nat) : (flushCredits a b).queue x n = b.queue x n := q_media (fc a b) x n
theorem modQueue_q (s : State) (x n : Nat) (f : Queue → Queue) : (s.modQueue x n f).queue x n = f (s.queue x n) := queue_modQueue_self _ _ _ _
theorem modComplex_q (s : State) (x n : Nat) (f : Machine.Complex → Machine.Complex) (hf : ∀ c, (f c).queues = c.queues) : (s.modComplex x f).queue x n = s.queue x n := by
  simp [State.queue, hf]
theorem countCheck_q (s : State) (x n : Nat) (r : Nat × Bool) : (countCheck s x r).queue x n = s.queue x n := modComplex_q _ _ _ _ fun _ => rfl
theorem room_facts (q : Queue) (s : Sample) : ∃ h, q.room s = { s with heldMib := h } := by
  unfold Queue.room; dsimp only; split
  · exact ⟨_, rfl⟩
  · exact ⟨s.heldMib, rfl⟩
theorem getElem?_append_self {α : Type} (l : List α) (a : α) : (l ++ [a])[l.length]? = some a := by simp
theorem checkPosition_facts (s : State) (x n i : Nat) (p : Position) (hp : (s.queue x n).positions[i]? = some p) (hpre : predecoded p.cand.codec = false) :
   ((sampleChecks (s.queue x n).desc p.cand).1 = 0 → (checkPosition s x n i).queue x n = { (s.queue x n) with positions := (s.queue x n).positions.set i { p with cand := (s.queue x n).room p.cand } }) ∧
   ((sampleChecks (s.queue x n).desc p.cand).1 ≠ 0 → (checkPosition s x n i).queue x n = { (corruptPosition x n (s.queue x n) p (sampleChecks (s.queue x n).desc p.cand).1).1 with positions := (s.queue x n).positions.set i (corruptPosition x n (s.queue x n) p (sampleChecks (s.queue x n).desc p.cand).1).2 }) := by
  simp only [checkPosition, hp]
  constructor
  · intro h
    rw [if_neg (by simp [h])]
    have key : ((countCheck s x (sampleChecks (s.queue x n).desc p.cand)).modQueue x n fun q => { q with positions := q.positions.set i { p with cand := (s.queue x n).room p.cand } }).queue x n = { (s.queue x n) with positions := (s.queue x n).positions.set i { p with cand := (s.queue x n).room p.cand } } := by
      rw [modQueue_q, countCheck_q]
    obtain ⟨hh, e⟩ := room_facts (s.queue x n) p.cand
    have hc : ((s.queue x n).room p.cand).codec = p.cand.codec := by rw [e]; rfl
    unfold arriveDecoded
    split
    · rename_i p' hp'
      rw [key] at hp'
      have : (i < (s.queue x n).positions.length) := (List.getElem?_eq_some_iff.1 hp).1
      simp [this] at hp'
      subst hp'
      rw [if_neg (by simp [hc, hpre]), key]
    · exact key
  · intro h
    rw [if_pos h, modQueue_q]; rfl
theorem qset (s : State) (x n : Nat) (q : Queue) : (s.modQueue x n fun _ => q).queue x n = q := modQueue_q _ _ _ _
def heardOf (s : State) (x : Nat) (q : Queue) (p : Position) : Nat × Nat × List Nat :=
  if qModality q.desc ≤ 2 then (0, 0, []) else if p.cand.codec = 0x13 then
    (0, 0, (List.range (p.cand.bytes / 4)).map fun k => p.cand.data.bits (32 * k) 32)
  else (1, (textTokens q.desc (queueMerges s x q) p.cand.data).2, (textTokens q.desc (queueMerges s x q) p.cand.data).1)
def whyOf (s : State) (x : Nat) (q : Queue) (p : Position) : Nat :=
  match qModality q.desc with
  | 0 => if p.yields.frames = [] ∨ p.yields.cause ≠ 0 ∧ p.emitted = 0 then orDefault p.yields.cause causeTruncated else 0
  | 1 => if p.yields.cause ≠ 0 ∨ p.yields.frames = [] then orDefault p.yields.cause causeTruncated else 0
  | 2 => if p.yields.cause ≠ 0 then p.yields.cause
    else if qChannelMode q.desc = 1 ∧ p.cand.declChannels ≤ qChannelSel q.desc then causeShape else 0
  | _ => if qUtf8Reject q.desc = true ∧ (heardOf s x q p).2.1 ≠ 0 then causeUtf8 else 0
def doneOf (s : State) (x : Nat) (q : Queue) (p : Position) : Position := { p with
  phase := .decoded, cost := 0
  tokens := if qModality q.desc ≤ 2 then p.tokens else (placeTokens q.desc (heardOf s x q p).2.2).1 }
theorem orD (v : Nat) : orDefault v causeTruncated ≠ 0 := by
  unfold orDefault; split
  · decide
  · assumption
theorem finish_run (s : State) (x n i : Nat) (p : Position) (hp : (s.queue x n).positions[i]? = some p) :
    (whyOf s x (s.queue x n) p = 0 → ∃ a b c, (finishDecode s x n i).queue x n = { (s.queue x n) with
      freed := (s.queue x n).freed + p.cost, shortSamples := a, utf8Replaced := b, textTruncated := c
      positions := (s.queue x n).positions.set i (doneOf s x (s.queue x n) p) }) ∧
    (whyOf s x (s.queue x n) p ≠ 0 → (finishDecode s x n i).queue x n = { (corruptPosition x n (s.queue x n) p (whyOf s x (s.queue x n) p)).1 with
      positions := (s.queue x n).positions.set i (corruptPosition x n (s.queue x n) p (whyOf s x (s.queue x n) p)).2 }) := by
  generalize hq : s.queue x n = q at *
  unfold finishDecode whyOf
  dsimp only
  rw [hq, hp]
  dsimp only
  have d2 : qModality q.desc ≤ 2 → doneOf s x q p = { p with phase := .decoded, cost := 0 } := by
    intro h; unfold doneOf; rw [if_pos h]
  have hcs : qModality q.desc = 0 ∨ qModality q.desc = 1 ∨ qModality q.desc = 2 ∨ ∃ m, qModality q.desc = m + 3 := by
    rcases Nat.lt_or_ge (qModality q.desc) 3 with h | h
    · omega
    · exact .inr (.inr (.inr ⟨qModality q.desc - 3, by omega⟩))
  rcases hcs with hm | hm | hm | ⟨m, hm⟩
  · have := d2 (by omega)
    simp only [hm]
    by_cases h : p.yields.frames = [] ∨ p.yields.cause ≠ 0 ∧ p.emitted = 0
    · rw [if_pos h, if_pos (by simpa using h)]
      refine ⟨fun e => absurd e (orD _), fun _ => ?_⟩
      rw [qset]; rfl
    · rw [if_neg h, if_neg (by simpa using h)]
      refine ⟨fun _ => ?_, fun e => absurd rfl e⟩
      rw [qset, this]
      exact ⟨_, _, _, rfl⟩
  · have := d2 (by omega)
    simp only [hm]
    by_cases h : p.yields.cause ≠ 0 ∨ p.yields.frames = []
    · rw [if_pos h, if_pos (by simpa using h)]
      refine ⟨fun e => absurd e (orD _), fun _ => ?_⟩
      rw [qset]; rfl
    · rw [if_neg h, if_neg (by simpa using h)]
      refine ⟨fun _ => ?_, fun e => absurd rfl e⟩
      rw [qset, this]
      exact ⟨_, _, _, rfl⟩
  · have := d2 (by omega)
    simp only [hm]
    by_cases h : p.yields.cause ≠ 0
    · rw [if_pos h, if_pos h]
      refine ⟨fun e => absurd e h, fun _ => ?_⟩
      rw [qset]; rfl
    · rw [if_neg h, if_neg h]
      by_cases h2 : qChannelMode q.desc = 1 ∧ p.cand.declChannels ≤ qChannelSel q.desc
      · rw [if_pos h2, if_pos (by simpa using h2)]
        refine ⟨fun e => absurd e (by decide), fun _ => ?_⟩
        rw [qset]; rfl
      · rw [if_neg h2, if_neg (by simpa using h2)]
        refine ⟨fun _ => ?_, fun e => absurd rfl e⟩
        rw [qset, this]
        exact ⟨_, _, _, rfl⟩
  · simp only [hm]
    have hd : doneOf s x q p = { p with phase := .decoded, cost := 0, tokens := (placeTokens q.desc (heardOf s x q p).2.2).1 } := by
      unfold doneOf; rw [if_neg (show ¬ qModality q.desc ≤ 2 by omega)]
    have hh : (if p.cand.codec = 0x13 then ((List.range (p.cand.bytes / 4)).map fun k => p.cand.data.bits (32 * k) 32, 0)
        else textTokens q.desc (queueMerges s x q) p.cand.data) = ((heardOf s x q p).2.2, (heardOf s x q p).2.1) := by
      unfold heardOf
      rw [if_neg (show ¬ qModality q.desc ≤ 2 by omega)]
      split <;> rfl
    rw [hh]
    dsimp only
    by_cases h : qUtf8Reject q.desc = true ∧ (heardOf s x q p).2.1 ≠ 0
    · rw [if_pos h, if_pos (by simpa using h)]
      refine ⟨fun e => absurd e (by decide), fun _ => ?_⟩
      rw [qset]; rfl
    · rw [if_neg h, if_neg (by simpa using h)]
      refine ⟨fun _ => ?_, fun e => absurd rfl e⟩
      rw [qset, hd]
      exact ⟨_, _, _, rfl⟩
/-- What ending a decoding keeps of its sample. -/
def SameSample (p p' : Position) : Prop := p'.owner = p.owner ∧ p'.batch = p.batch ∧ p'.pos = p.pos ∧ p'.substituted = p.substituted
theorem finish_keeps (s : State) (x n i : Nat) (p : Position) (hp : (s.queue x n).positions[i]? = some p) :
    ∃ p', ((finishDecode s x n i).queue x n).positions = (s.queue x n).positions.set i p' ∧ SameSample p p' ∧
      ((finishDecode s x n i).queue x n).pool = (s.queue x n).pool ∧ ((finishDecode s x n i).queue x n).accepted = (s.queue x n).accepted ∧
      ((finishDecode s x n i).queue x n).expect = (s.queue x n).expect := by
  obtain ⟨h1, h2⟩ := finish_run s x n i p hp
  by_cases h : whyOf s x (s.queue x n) p = 0
  · obtain ⟨a, b, c, e⟩ := h1 h
    rw [e]; exact ⟨_, rfl, ⟨rfl, rfl, rfl, rfl⟩, rfl, rfl, rfl⟩
  · rw [h2 h]; exact ⟨_, rfl, ⟨rfl, rfl, rfl, rfl⟩, rfl, rfl, rfl⟩
theorem check_keeps (s : State) (x n i : Nat) (p : Position) (hp : (s.queue x n).positions[i]? = some p) :
    ∃ p', ((checkPosition s x n i).queue x n).positions = (s.queue x n).positions.set i p' ∧ SameSample p p' ∧
      ((checkPosition s x n i).queue x n).pool = (s.queue x n).pool ∧ ((checkPosition s x n i).queue x n).accepted = (s.queue x n).accepted ∧
      ((checkPosition s x n i).queue x n).expect = (s.queue x n).expect ∧
      ((sampleChecks (s.queue x n).desc p.cand).1 = 0 → predecoded p.cand.codec = false → p' = { p with cand := (s.queue x n).room p.cand } ∧ ((checkPosition s x n i).queue x n).corrupt = (s.queue x n).corrupt) ∧
      ((sampleChecks (s.queue x n).desc p.cand).1 ≠ 0 → p'.phase = .corrupt ∧ p'.cost = 0 ∧ ((checkPosition s x n i).queue x n).corrupt = (s.queue x n).corrupt + 1 ∧
        ((checkPosition s x n i).queue x n).lastCause = BitVec.ofNat 8 (sampleChecks (s.queue x n).desc p.cand).1) := by
  have lt : i < (s.queue x n).positions.length := (List.getElem?_eq_some_iff.1 hp).1
  by_cases hk : (sampleChecks (s.queue x n).desc p.cand).1 = 0
  · by_cases hd : predecoded p.cand.codec = false
    · have := (checkPosition_facts s x n i p hp hd).1 hk
      rw [this]
      exact ⟨_, rfl, ⟨rfl, rfl, rfl, rfl⟩, rfl, rfl, rfl, fun _ _ => ⟨rfl, rfl⟩, fun h => absurd hk h⟩
    · suffices h : ∃ p', ((checkPosition s x n i).queue x n).positions = (s.queue x n).positions.set i p' ∧ SameSample p p' ∧
          ((checkPosition s x n i).queue x n).pool = (s.queue x n).pool ∧ ((checkPosition s x n i).queue x n).accepted = (s.queue x n).accepted ∧
          ((checkPosition s x n i).queue x n).expect = (s.queue x n).expect by
        obtain ⟨p', h1, h2, h3, h4, h5⟩ := h
        exact ⟨p', h1, h2, h3, h4, h5, fun _ h => absurd h hd, fun h => absurd hk h⟩
      unfold checkPosition
      dsimp only
      rw [hp]
      dsimp only
      rw [if_neg (by simp [hk])]
      have key : ((countCheck s x (sampleChecks (s.queue x n).desc p.cand)).modQueue x n fun q => { q with positions := q.positions.set i { p with cand := (s.queue x n).room p.cand } }).queue x n = { (s.queue x n) with positions := (s.queue x n).positions.set i { p with cand := (s.queue x n).room p.cand } } := by
        rw [modQueue_q, countCheck_q]
      generalize ((countCheck s x (sampleChecks (s.queue x n).desc p.cand)).modQueue x n fun q => { q with positions := q.positions.set i { p with cand := (s.queue x n).room p.cand } }) = u at key ⊢
      unfold arriveDecoded
      rw [key]
      dsimp only
      have g : ((s.queue x n).positions.set i { p with cand := (s.queue x n).room p.cand })[i]? = some { p with cand := (s.queue x n).room p.cand } := by simp [lt]
      rw [g]
      dsimp only
      split
      · generalize hv : (u.modQueue x n fun q => { q with positions := q.positions.set i { p with cand := (s.queue x n).room p.cand, yields := ownYield ((s.queue x n).room p.cand) } }) = v
        have hvq : v.queue x n = { (s.queue x n) with positions := (s.queue x n).positions.set i { p with cand := (s.queue x n).room p.cand, yields := ownYield ((s.queue x n).room p.cand) } } := by
          rw [← hv, modQueue_q, key]; simp
        obtain ⟨p', a1, a2, a3, a4, a5⟩ := finish_keeps v x n i { p with cand := (s.queue x n).room p.cand, yields := ownYield ((s.queue x n).room p.cand) } (by rw [hvq]; simp [lt])
        rw [hvq] at a1 a3 a4 a5
        refine ⟨p', by rw [a1]; simp, a2, a3, a4, a5⟩
      · rw [key]
        exact ⟨_, rfl, ⟨rfl, rfl, rfl, rfl⟩, rfl, rfl, rfl⟩
  · unfold checkPosition
    dsimp only
    rw [hp]
    dsimp only
    rw [if_pos hk, modQueue_q]
    exact ⟨_, rfl, ⟨rfl, rfl, rfl, rfl⟩, rfl, rfl, rfl, fun h => absurd h hk, fun _ => ⟨rfl, rfl, rfl, rfl⟩⟩
theorem fcs (a b : State) (c : Nat) : ((flushCredits a b).ctx c).sessions = (b.ctx c).sessions :=
  CK.flushCredits (g := fun x => x.sessions) (fun _ _ _ _ => rfl) a b c
theorem ite_both {P : State → Prop} {b : Prop} [Decidable b] {u v : State} (h1 : P u) (h2 : P v) : P (if b then u else v) := by
  split <;> assumption
theorem sampleRecord_sess (s : State) (x : Nat) (h : BitVec 512) (b : Blob) (po : Bool) (i : StreamInfo) (c : Nat) : ((sampleRecord s x h b po i).ctx c).sessions = (s.ctx c).sessions := by
  have ctxsOf : ∀ (a b : State), b.ctxs = a.ctxs → (b.ctx c).sessions = (a.ctx c).sessions := fun a b h => by rw [ctx_of h]
  have fin : ∀ (u : State) m k, (finishDecode u x m k).ctxs = u.ctxs := fun u m k => (touches_finishDecode u x m k).2 .ctxs (by decide)
  unfold sampleRecord
  dsimp only
  split
  · rfl
  · split
    · rfl
    · refine ite_both (P := fun u => (u.ctx c).sessions = (s.ctx c).sessions) ?_ ?_
      · unfold stopQueue
        exact CK.contextFault (g := fun x => x.sessions) (fun _ _ _ _ => rfl) _ _ _ c
      · exact ctxsOf _ _ ((touches_checkPosition _ _ _ _).2 .ctxs (by decide))
def Im (x : Ctx) : Option Image := x.image
theorem im_stream (s : State) (c i : Nat) (f : Stream → Stream) : CK Im s (s.modStream c i f) := CK.modCtx _ _ _ fun _ => rfl
theorem im_moved (s : State) (k : Nat) : CK Im s (wordMoved s k) := CK.ofCtxs rfl
theorem im_pump (s : State) (c i : Nat) : CK Im s (pump s c i) := by
  unfold pump
  split
  · exact CK.refl _
  · dsimp only
    split <;> split
    · split
      · exact (im_stream _ _ _ _).trans (im_moved _ _)
      · exact im_stream _ _ _ _
    · exact im_stream _ _ _ _
    · split
      · exact (im_stream _ _ _ _).trans (im_moved _ _)
      · exact im_stream _ _ _ _
    · exact im_stream _ _ _ _
theorem im_pop (s : State) (c i k : Nat) : CK Im s (popWord s c i k) := (im_stream _ _ _ _).trans (im_pump _ _ _)
theorem im_append (s : State) (c i k : Nat) (ws : List SWord) : CK Im s (streamAppend s c i k ws) := im_stream _ _ _ _
theorem im_push (s : State) (c i : Nat) (h : THdr) (f : Fmt) (es : List Elem) (b : Bool) : CK Im s (streamPush s c i h f es b).1 := by
  unfold streamPush
  split
  · exact CK.refl _
  · dsimp only
    split
    · split
      · exact CK.refl _
      · exact (CK.foldl (fun s a => im_append _ _ _ _ _) _ _).trans (im_pump _ _ _)
    · split
      · exact ((im_append _ _ _ _ _).trans (im_stream _ _ _ _)).trans (im_pump _ _ _)
      · exact (im_append _ _ _ _ _).trans (im_pump _ _ _)
theorem push_ok (s : State) (c i : Nat) (h : THdr) (f : Fmt) (es : List Elem) (b : Bool) (hs : h.shaped = true) : (streamPush s c i h f es b).2 = true := by
  unfold streamPush
  split
  · rfl
  · dsimp only
    split
    · rw [if_neg (by simp [hs])]
    · split <;> rfl
theorem spm (s : State) (c i : Nat) (h : THdr) (f : Fmt) (es : List Elem) (b : Bool) : (streamPush s c i h f es b).1.media = s.media := (touches_streamPush s c i h f es b).2 .media (by decide)
theorem im_stop (s : State) (x n : Nat) (m : StopName) : CK Im s (stopQueue s x n m) := (CK.ofCtxs (s := s) (t := s.modQueue x n fun q => { q with st := .stopped }) rfl).trans (CK.contextFault (fun _ _ _ _ => rfl) _ _ _)
theorem qs_of {s u : State} {x n : Nat} (h : (u.queue x n).ctx = (s.queue x n).ctx) (k : CK Im s u) (e : Nat) : queueStream u x n e = queueStream s x n e := by
  unfold queueStream
  rw [h, show (u.ctx (s.queue x n).ctx).image = (s.ctx (s.queue x n).ctx).image from k _]
theorem mq2 (u : State) (x n : Nat) (f g : Queue → Queue) : (u.modQueue x n f).modQueue x n g = u.modQueue x n fun q => g (f q) := by
  simp [State.modQueue, State.modComplex, tset_tset, State.complex]
theorem qEmit (s : State) (x n e fmt : Nat) (scale : F32) (t : OutTensor) (f : Fmt) (hf : fmtOf fmt = some f) (hsh : t.flags.getLsbD 5 = true) :
    CK Im s (queueEmit s x n e fmt scale t) ∧
    (queueStream s x n e = none ∨ (∃ i r, queueStream s x n e = some (i, r) ∧ t.length ≤ r.maxLen) →
      ∃ o k, (queueEmit s x n e fmt scale t).queue x n = { (s.queue x n) with outs := o, ctrs := k, emitted := (s.queue x n).emitted + (if e < 2 then 1 else 0) }) ∧
    (∀ i r, queueStream s x n e = some (i, r) → r.maxLen < t.length → (queueEmit s x n e fmt scale t).queue x n = { (s.queue x n) with st := .stopped }) := by
  unfold queueEmit
  rw [hf]
  dsimp only
  generalize hem : emitUse f false _ _ _ _ _ t = em
  have hs1 : ∀ em : Emission, ∃ o k, (((s.modQueue x n fun q => { q with outs := tset q.outs e em.port, ctrs := tset q.ctrs e em.ctr }).modQueue x n fun q => { q with emitted := q.emitted + (if e < 2 then 1 else 0) }).queue x n) = { (s.queue x n) with outs := o, ctrs := k, emitted := (s.queue x n).emitted + (if e < 2 then 1 else 0) } := by
    intro em; rw [mq2, modQueue_q]; exact ⟨_, _, rfl⟩
  have im1 : ∀ em : Emission, CK Im s ((s.modQueue x n fun q => { q with outs := tset q.outs e em.port, ctrs := tset q.ctrs e em.ctr }).modQueue x n fun q => { q with emitted := q.emitted + (if e < 2 then 1 else 0) }) := fun em => CK.ofCtxs rfl
  cases hq : queueStream s x n e with
  | none =>
    dsimp only
    exact ⟨im1 em, fun _ => hs1 em, fun i r h => by cases h⟩
  | some ir =>
    obtain ⟨i, r⟩ := ir
    dsimp only
    by_cases hl : t.length > r.maxLen
    · rw [if_pos hl]
      refine ⟨im_stop _ _ _ _, ?_, ?_⟩
      · rintro (h | ⟨i', r', h, h2⟩)
        · cases h
        · cases h; omega
      · intro i' r' h _
        unfold stopQueue; rw [q_media (cf _ _ _), modQueue_q]
    · have ok : ∀ u c hh es, hh.flags = t.flags → (streamPush u c i hh f es false).2 = true := fun u c hh es e =>
        push_ok _ _ _ _ _ _ _ (by unfold THdr.shaped; rw [e]; exact hsh)
      rw [if_neg hl, ok _ _ _ _ rfl, if_pos rfl]
      refine ⟨(im1 em).trans (im_push _ _ _ _ _ _ _), fun _ => ?_, fun i' r' h h2 => ?_⟩
      · rw [q_media (spm _ _ _ _ _ _ _)]; exact hs1 em
      · cases h; omega
theorem qAny (s : State) (x n e fmt : Nat) (scale : F32) (t : OutTensor) (hsh : t.flags.getLsbD 5 = true) :
    ∃ o k st em, (queueEmit s x n e fmt scale t).queue x n = { (s.queue x n) with outs := o, ctrs := k, st := st, emitted := em } ∧ (2 ≤ e → em = (s.queue x n).emitted) := by
  cases hf : fmtOf fmt with
  | none =>
    unfold queueEmit; rw [hf]
    exact ⟨(s.queue x n).outs, (s.queue x n).ctrs, (s.queue x n).st, (s.queue x n).emitted, rfl, fun _ => rfl⟩
  | some f =>
    obtain ⟨_, h1, h2⟩ := qEmit s x n e fmt scale t f hf hsh
    by_cases hq : queueStream s x n e = none ∨ (∃ i r, queueStream s x n e = some (i, r) ∧ t.length ≤ r.maxLen)
    · obtain ⟨o, k, e1⟩ := h1 hq
      exact ⟨o, k, (s.queue x n).st, _, e1, fun h => by rw [if_neg (by omega)]; simp⟩
    · cases hs : queueStream s x n e with
      | none => exact absurd (.inl hs) hq
      | some ir =>
        obtain ⟨i, r⟩ := ir
        have : r.maxLen < t.length := by
          by_contra hc
          exact hq (.inr ⟨i, r, hs, by omega⟩)
        exact ⟨(s.queue x n).outs, (s.queue x n).ctrs, .stopped, (s.queue x n).emitted, h2 i r hs this, fun _ => rfl⟩
theorem flags_shaped (p : Position) : (positionFlags p).getLsbD 5 = true := by
  unfold positionFlags flagShaped flagSubstituted; cases p.substituted <;> decide
theorem consume_facts (u : State) (x n cause kind : Nat) (p : Position) (rest : List Position) (hp : (u.queue x n).positions = p :: rest) :
    ((consumeHead u x n cause kind).queue x n).positions = rest ∧ ((consumeHead u x n cause kind).queue x n).emitted = (u.queue x n).emitted ∧
    ((consumeHead u x n cause kind).queue x n).lateCorrupt = (u.queue x n).lateCorrupt ∧
    (p.pos + 1 ≠ qBatchSize (u.queue x n).desc → ((consumeHead u x n cause kind).queue x n).st = (u.queue x n).st ∧
      ((consumeHead u x n cause kind).queue x n).manifest = (u.queue x n).manifest ++ p.skips ++ [manifestRecord x n p cause kind p.emitted]) ∧
    (p.pos + 1 = qBatchSize (u.queue x n).desc → ((consumeHead u x n cause kind).queue x n).manifest = [] ∧
      ((consumeHead u x n cause kind).queue x n).nextBatch = (p.batch + 1) % 2 ^ 32) := by
  unfold consumeHead
  dsimp only
  rw [hp]
  dsimp only
  by_cases hl : p.pos + 1 = qBatchSize (u.queue x n).desc
  · have hd : decide (p.pos + 1 = qBatchSize (u.queue x n).desc) = true := by simp [hl]
    simp only [hd, if_true]
    generalize hv : u.modQueue x n _ = v
    have hvq := congrArg (fun z => z.queue x n) hv
    rw [modQueue_q] at hvq
    obtain ⟨o, k, st, em, h1, h2⟩ := qAny v x n 2 9 F32.one ⟨_, 1, _, 1, 0, flagShaped, false, _⟩ (show flagShaped.getLsbD 5 = true by decide)
    rw [h1, h2 (by omega), ← hvq]
    exact ⟨rfl, rfl, rfl, fun h => absurd hl h, fun _ => ⟨rfl, rfl⟩⟩
  · have hd : decide (p.pos + 1 = qBatchSize (u.queue x n).desc) = false := by simp [hl]
    simp only [hd, Bool.false_eq_true, if_false]
    rw [modQueue_q]
    exact ⟨rfl, rfl, rfl, fun _ => ⟨rfl, rfl⟩, fun h => absurd h hl⟩
def mainE (s : State) (x n : Nat) (q : Queue) (p : Position) (s0 : State) : State :=
  if qModality q.desc = 3 then
    queueEmit s0 x n 0 8 F32.one ⟨p.tokens.length, 1, p.tokens.length, 1, p.pos, positionFlags p, false,
      p.tokens.zipIdx.map fun v => (v.2, ⟨BitVec.ofNat 256 v.1, true, false, false⟩)⟩
  else
    match (sampleTensors s q p)[p.emitted]? with
    | none => s0
    | some sh => queueEmit s0 x n 0 (qFormat q.desc) (qScale q.desc) (shapedTensor sh p.pos (positionFlags p) false)
def wholeE (s : State) (x n : Nat) (q : Queue) (p : Position) (whole : Bool) (s1 : State) : State :=
  if whole = true then
    match (emittedFrames q.desc p.yields)[p.emitted]? with
    | none => s1
    | some f => queueEmit s1 x n 1 (qFormat q.desc) (qScale q.desc) (shapedTensor (shapePicture q.desc (jobSeed (s.ctx q.ctx)) p.cand.index true none f) p.pos (positionFlags p) false)
  else s1
def tailE (x n : Nat) (s2 : State) : State :=
  match (s2.queue x n).positions with
  | p2 :: _ => if (decide ((s2.queue x n).st = .opened) && headFinished (s2.queue x n) p2) = true then consumeHead s2 x n 0 0 else s2
  | [] => s2

end Sys2Proof.Laws.IntakeSteps
end

