-- ==== Sys2Proof/Laws/FactsLinkReset.lean ====
section
/-!
SUPPORT. Lemmas on a reset of the host link, for the statements about them.
-/

open Sys2Proof Sys2Proof.Machine Sys2Proof.Claims

namespace Sys2Proof.Laws.LinkReset

theorem linkReset_facts (s : State) : (∀ q, (linkReset s).ring q = Ring.reset) ∧
      (linkReset s).host.linkResets = s.host.linkResets + 1 ∧ (∀ m ∈ (linkReset s).host.msix, m.2.masked = true ∧ m.2.pba = false) ∧
      (∀ x ∈ (linkReset s).host.taken, x.discard = true ∧ x.op ≠ 1 ∧ x.op ≠ 0x0A) ∧
      (∀ x ∈ s.host.taken, x.op ≠ 1 → x.op ≠ 0x0A → { x with discard := true } ∈ (linkReset s).host.taken) ∧
      (linkReset s).host.volumes = s.host.volumes ∧ (linkReset s).host.cat = s.host.cat ∧ (linkReset s).ctxs = s.ctxs ∧ (linkReset s).bring = s.bring := by
  refine ⟨fun q => rfl, rfl, ?_, ?_, ?_, rfl, rfl, rfl, rfl⟩
  · intro m hm
    obtain ⟨y, _, rfl⟩ := List.mem_map.mp hm
    exact ⟨rfl, rfl⟩
  · intro x hx
    obtain ⟨y, hy, rfl⟩ := List.mem_map.mp hx
    have := (List.mem_filter.mp hy).2
    simp only [Bool.and_eq_true, decide_eq_true_eq] at this
    exact ⟨rfl, this⟩
  · intro x hx h1 h2
    refine List.mem_map.mpr ⟨x, List.mem_filter.mpr ⟨hx, ?_⟩, rfl⟩
    simp [h1, h2]

end Sys2Proof.Laws.LinkReset
end

