-- ==== Sys2Proof/Laws/FactsMetering.lean ====
section
/-!
SUPPORT. Lemmas on the Metering Unit, for the statements about them.
-/

open Sys2Proof Sys2Proof.Machine Sys2Proof.Claims

namespace Sys2Proof.Laws.Metering

theorem tx_bytes (q x c : Nat) (b : Blob) (f : Nat) (hb : b = Blob.append (Blob.append (Blob.ofBytes [0x5A, 0xA5]) ⟨68, f⟩) ⟨2, c⟩) (hf : f = q % 2 ^ 32 + 2 ^ 32 * x) :
    b.len = 72 ∧ b.byte 0 = 0x5A ∧ b.byte 1 = 0xA5 ∧ b.bits 16 32 = q % 2 ^ 32 := by
  have hv : b.val = 0x5A + 256 * 0xA5 + f * 2 ^ 16 + c * 2 ^ 560 := by rw [hb]; rfl
  have hl : b.len = 72 := by rw [hb]; rfl
  refine ⟨hl, ?_, ?_, ?_⟩
  · show b.val / 2 ^ 0 % 256 = _
    rw [hv]; omega
  · show b.val / 2 ^ 8 % 256 = _
    rw [hv]; omega
  · show b.val / 2 ^ 16 % 2 ^ 32 = _
    rw [hv, hf]; omega

end Sys2Proof.Laws.Metering
end

