-- ==== Sys2Proof/Laws/FactsOwners.lean ====
section
/-!
SUPPORT. Lemmas on owners, for the statements about them.
-/

open Sys2Proof Sys2Proof.Machine Sys2Proof.Claims

namespace Sys2Proof.Laws.Owners

theorem write_owner (s : State) (key : Option (BitVec 512)) (n : BitVec 32) (d : BitVec 256) (hv : ownerInvalid s = false) (hg : (ownerFolio s).sequence ≠ 0xFFFFFFFF) :
    ownerFolio (writeOwner s key n d) = ⟨true, key, n, d, (ownerFolio s).sequence + 1⟩ := by
  have lt : ∀ g : BitVec 32, g ≠ 0xFFFFFFFF → g.toNat < (g + 1).toNat := by
    intro g hg
    have h1 : g.toNat ≠ 0xFFFFFFFF := fun e => hg (BitVec.eq_of_toNat_eq e)
    have h2 := g.isLt
    rw [BitVec.toNat_add]
    have h3 : (1 : BitVec 32).toNat = 1 := rfl
    rw [h3]
    omega
  unfold writeOwner
  unfold ownerFolio at hg ⊢
  dsimp only at *
  by_cases hf : (s.imprint.owner0.valid && (!s.imprint.owner1.valid || s.imprint.owner1.sequence.ult s.imprint.owner0.sequence)) = true
  · simp only [hf, if_true] at hg ⊢
    rw [if_neg]
    have := lt _ hg
    simp only [Bool.not_true, Bool.false_or, Bool.and_eq_true, not_and, Bool.not_eq_true, BitVec.ult, decide_eq_false_iff_not]
    intro _; omega
  · have hf' : (s.imprint.owner0.valid && (!s.imprint.owner1.valid || s.imprint.owner1.sequence.ult s.imprint.owner0.sequence)) = false := by simpa using hf
    simp only [hf', Bool.false_eq_true, if_false] at hg ⊢
    rw [if_pos]
    have := lt _ hg
    simp only [Bool.true_and, BitVec.ult, Bool.or_eq_true, decide_eq_true_eq]
    exact Or.inr this
theorem want_facts (x : Sec) (k : KeyId) (v : BitVec 256) (b : Bool) : (x.want k v b).reports = x.reports ∧ (x.want k v b).reqType = x.reqType ∧ (x.want k v b).reqResult = x.reqResult := by
  unfold Sec.want
  dsimp only
  split
  · exact ⟨rfl, rfl, rfl⟩
  · split
    · exact ⟨rfl, rfl, rfl⟩
    · exact ⟨rfl, rfl, rfl⟩
theorem owner_ok {s : State} {r : Blob} {typ : Nat} {ok : Bool} {acc : State → Blob → State × Blob} (h : Requested s r 3 false) (hl : r.len = 238) (hr : s.sec.release = none) (hc : requestResult s typ (reqPayload r) ok = 0) :
    ownerRequest s r typ ok acc = respond (acc (recordResult s (ownType (reqPayload r)) 0) (reqPayload r)).1 (reqOpcode r) (reqTag r) 0 (Blob.append ⟨1, 0⟩ (acc (recordResult s (ownType (reqPayload r)) 0) (reqPayload r)).2) := by
  unfold ownerRequest
  rw [request_eq h (by rw [hl]; decide)]
  dsimp only
  rw [hr, if_neg (by decide), hc, if_pos rfl]
  rfl
theorem owner_no {s : State} {r : Blob} {typ : Nat} {ok : Bool} {acc : State → Blob → State × Blob} (h : Requested s r 3 false) (hl : r.len = 238) (hr : s.sec.release = none) {code : Nat} (hc : requestResult s typ (reqPayload r) ok = code) (h0 : code ≠ 0) :
    ownerRequest s r typ ok acc = respond (recordResult s (ownType (reqPayload r)) code) (reqOpcode r) (reqTag r) 0 ⟨1, code⟩ := by
  unfold ownerRequest
  rw [request_eq h (by rw [hl]; decide)]
  dsimp only
  rw [hr, if_neg (by decide), hc, if_neg h0]
  dsimp only
  have e : Blob.append ⟨1, code⟩ Blob.empty = ⟨1, code⟩ := by
    unfold Blob.append Blob.empty
    rw [Nat.zero_mul]; rfl
  rw [e]; rfl
theorem count_facts (s : State) (b : Bool) : ∃ n, countColophon s b = { s with sec := { s.sec with colophonFailures := n } } := by
  cases b
  · exact ⟨_, rfl⟩
  · exact ⟨s.sec.colophonFailures, rfl⟩
theorem record_facts (s : State) (typ c : Nat) : ∃ n, recordResult s typ c = { s with sec := { s.sec with colophonFailures := n, reqType := BitVec.ofNat 8 typ, reqResult := BitVec.ofNat 8 c } } := by
  obtain ⟨n, h⟩ := count_facts s (c ≠ 4)
  exact ⟨n, by unfold recordResult; rw [h]; rfl⟩
theorem free_all {s : State} : contextsFree s = true ↔ ∀ c, c < nCtx → (s.ctx c).st = .free := by
  unfold contextsFree
  simp only [List.all_eq_true, List.mem_range, decide_eq_true_eq]
theorem passes {s : State} {typ : Nat} {p : Blob} {ok : Bool} (h1 : ownType p = typ ∧ ownReserved p = 0 ∧ ownUnused p = 0 ∧ ownSerialOf p = s.sec.serial.toNat)
    (h2 : typ ≠ 1 → ownNonce p = (ownerFolio s).nonce) (h3 : requestSigned s p ok = true)
    (h4 : typ ≠ 1 → ownerInvalid s = false ∧ (typ = 2 → (ownerFolio s).key = none) ∧ (typ ≠ 2 → (ownerFolio s).key.isSome = true))
    (h5 : typ = 2 ∨ typ = 3 → ∀ c, c < nCtx → (s.ctx c).st = .free)
    (h6 : typ = 2 → (ownerFolio s).nextDigest = 0 ∨ keyDigest (BitVec.ofNat 512 (ownPayload p 0 512)) = (ownerFolio s).nextDigest) : requestResult s typ p ok = 0 := by
  unfold requestResult
  obtain ⟨a, b, c, d⟩ := h1
  dsimp only
  rw [if_neg (by simp [a, b, c]), if_neg (by rw [d]; exact fun h => h rfl)]
  by_cases t1 : typ = 1
  · rw [if_neg (by simp [t1]), h3, if_neg (by decide), if_pos t1]
  · obtain ⟨e, f, g⟩ := h4 t1
    rw [if_neg (by simp [h2 t1]), h3, if_neg (by decide), if_neg t1]
    by_cases t2 : typ = 2
    · rw [if_neg (by simp [e, t2, f t2]), if_neg (by simp [free_all.mpr (h5 (Or.inl t2))]), if_neg (by rcases h6 t2 with h | h <;> simp [h])]
    · rw [if_neg (by
        have := g t2
        cases hk : (ownerFolio s).key
        · rw [hk] at this; cases this
        · simp [e, t2]), if_neg (by
        by_cases t3 : typ = 3
        · simp [free_all.mpr (h5 (Or.inr t3))]
        · simp [t2, t3]), if_neg (by simp [t2])]
theorem gone_destroy {k j : KeyId} {s : State} (h : KeyGone k s ∨ k = j) : KeyGone k (destroyKey s j) := by
  intro p hp
  have := (slots_destroy s.sec j p).mp hp
  rcases h with h | h
  · exact h p this.1
  · rw [h]; exact this.2
theorem gone_all {k : KeyId} : ∀ (l : List KeyId) (s : State), KeyGone k s ∨ k ∈ l → KeyGone k (l.foldl destroyKey s)
  | [], s, h => by simpa using h
  | j :: l, s, h => by
    refine gone_all l _ ?_
    by_cases e : KeyGone k s ∨ k = j
    · exact Or.inl (gone_destroy e)
    · push_neg at e
      rcases h with h | h
      · exact absurd h e.1
      · rcases List.mem_cons.mp h with h | h
        · exact absurd h e.2
        · exact Or.inr h
theorem destroy_host : ∀ (l : List KeyId) (s : State), (l.foldl destroyKey s).host = s.host
  | [], s => rfl
  | j :: l, s => (destroy_host l _).trans rfl
def volKeys (j : BitVec 32) : List KeyId := [.volume j, .sample j, .exported j]
/-- The volume of a job is still listed, or its keys are gone. -/
def VG (j : BitVec 32) (s : State) : Prop := (∃ v ∈ s.host.volumes, v.job = j) ∨ ∀ k ∈ volKeys j, KeyGone k s
theorem drop_facts (s : State) (job : BitVec 32) : (dropVolume s job).host.cat = s.host.cat ∧ ∀ j, VG j s → VG j (dropVolume s job) := by
  unfold dropVolume
  dsimp only
  split
  · exact ⟨rfl, fun j h => h⟩
  · generalize hu : s.modHost _ = u
    have hc : u.host.cat = s.host.cat := by rw [← hu]; rfl
    have hs : u.sec = s.sec := by rw [← hu]; rfl
    have hvv : u.host.volumes = s.host.volumes.filter fun v => v.job ≠ job := by rw [← hu]; rfl
    have hl : [KeyId.volume job, .sample job, .exported job] = volKeys job := rfl
    rw [hl]
    refine ⟨by rw [destroy_host]; exact hc, fun j h => ?_⟩
    by_cases e : j = job
    · right
      intro k hk
      subst e
      exact gone_all _ _ (Or.inr hk)
    · rcases h with ⟨v, hv, hj⟩ | h
      · left
        refine ⟨v, ?_, hj⟩
        rw [destroy_host, hvv]
        exact List.mem_filter.mpr ⟨hv, by simp [hj, e]⟩
      · right
        intro k hk
        refine gone_all _ _ (Or.inl ?_)
        unfold KeyGone; rw [hs]; exact h k hk
theorem weed_facts (s : State) (e : Nat) (x : CatEntry) (t : Tbl CatEntry) (h : s.host.cat = (e, x) :: t) : (weedEntry s e).host.cat = t ∧ ∀ j, VG j s → VG j (weedEntry s e) := by
  unfold weedEntry
  have h1 : tget s.host.cat e = some x := by rw [h]; simp [tget]
  rw [h1]
  dsimp only
  generalize hu : s.modHost _ = u
  have hc : u.host.cat = t := by rw [← hu]; show terase s.host.cat e = t; rw [h]; simp [terase]
  have hg : ∀ j, VG j s → VG j u := by intro j h; rw [← hu]; exact h
  obtain ⟨a, b⟩ := drop_facts u x.job
  exact ⟨a.trans hc, fun j h => b j (hg j h)⟩
theorem weed_all : ∀ (l : Tbl CatEntry) (s : State), s.host.cat = l → (l.foldl (fun s e => weedEntry s e.1) s).host.cat = [] ∧ ∀ j, VG j s → VG j (l.foldl (fun s e => weedEntry s e.1) s)
  | [], s, h => ⟨h, fun j h => h⟩
  | (e, x) :: l, s, h => by
    obtain ⟨a, b⟩ := weed_facts s e x l h
    obtain ⟨c, d⟩ := weed_all l (weedEntry s e) a
    exact ⟨c, fun j h => d j (b j h)⟩
theorem kill_vols : ∀ (l : List (BitVec 32)) (s : State), (l.foldl (fun s j => [KeyId.volume j, .sample j, .exported j].foldl destroyKey s) s).host = s.host ∧
    ∀ j, (j ∈ l ∨ ∀ k ∈ volKeys j, KeyGone k s) → ∀ k ∈ volKeys j, KeyGone k (l.foldl (fun s j => [KeyId.volume j, .sample j, .exported j].foldl destroyKey s) s)
  | [], s => ⟨rfl, fun j h => by simpa using h⟩
  | a :: l, s => by
    rw [List.foldl_cons]
    have hl : [KeyId.volume a, .sample a, .exported a] = volKeys a := rfl
    rw [hl]
    obtain ⟨h1, h2⟩ := kill_vols l ((volKeys a).foldl destroyKey s)
    refine ⟨h1.trans (destroy_host _ _), fun j hj => h2 j ?_⟩
    by_cases e : j = a
    · right; subst e; exact fun k hk => gone_all _ _ (Or.inr hk)
    · rcases hj with hj | hj
      · rcases List.mem_cons.mp hj with h | h
        · exact absurd h e
        · exact Or.inl h
      · right; exact fun k hk => gone_all _ _ (Or.inl (hj k hk))
theorem empty_jobs (s : State) : (emptyLedger s).ledger.jobs = [] := by
  unfold emptyLedger
  dsimp only
  generalize hu : State.mk .. = u
  have hj : u.ledger.jobs = [] := by rw [← hu]
  unfold directoryWrite
  dsimp only
  have : ∀ (a : Nat) (b : Blob), (memWrite u a b).ledger = u.ledger := by
    intro a b
    exact (touches_memWrite u a b).2 .ledger (by decide)
  rw [this]; exact hj
theorem release_now (s : State) (next : BitVec 256) (hv : ownerInvalid s = false) :
    ∃ t, releaseNow s next = t ∧ ((ownerFolio s).sequence ≠ 0xFFFFFFFF → ownerFolio t = ⟨true, none, (ownerFolio s).nonce + 1, next, (ownerFolio s).sequence + 1⟩) ∧
        t.host.cat = [] ∧ t.host.volumes = [] ∧ t.ledger.jobs = [] ∧ t.imprint.ownerLayer = none ∧
        t.imprint.recalPending = false ∧ t.power.defaults = [] ∧ t.sec.release = none ∧ t.sec.reqType = s.sec.reqType ∧ t.sec.reqResult = s.sec.reqResult ∧ t.mgmt = s.mgmt ∧
        ∀ v ∈ s.host.volumes, ∀ k ∈ volKeys v.job, KeyGone k t := by
  refine ⟨_, rfl, ?_⟩
  unfold releaseNow
  dsimp only
  have wt : Touches [.host, .sec] s (s.host.cat.foldl (fun s e => weedEntry s e.1) s) := Touches.foldl (fun s a => touches_weedEntry s a.1) (Touches.refl _ _)
  obtain ⟨w1, w2⟩ := weed_all s.host.cat s rfl
  have wr : ∀ (l : Tbl CatEntry) (s : State), (l.foldl (fun s e => weedEntry s e.1) s).sec.reqType = s.sec.reqType ∧ (l.foldl (fun s e => weedEntry s e.1) s).sec.reqResult = s.sec.reqResult := by
    intro l
    induction l with
    | nil => intro s; exact ⟨rfl, rfl⟩
    | cons a l ih =>
      intro s
      obtain ⟨x, y⟩ := ih (weedEntry s a.1)
      have k : (weedEntry s a.1).sec.reqType = s.sec.reqType ∧ (weedEntry s a.1).sec.reqResult = s.sec.reqResult := by
        unfold weedEntry
        split
        · exact ⟨rfl, rfl⟩
        · unfold dropVolume
          dsimp only
          split
          · exact ⟨rfl, rfl⟩
          · exact ⟨rfl, rfl⟩
      exact ⟨x.trans k.1, y.trans k.2⟩
  have w3 := wr s.host.cat s
  generalize s.host.cat.foldl (fun s e => weedEntry s e.1) s = a at wt w1 w2 w3 ⊢
  obtain ⟨k1, k2⟩ := kill_vols (a.host.volumes.map (·.job)) a
  have kt : Touches [.sec] a ((a.host.volumes.map (·.job)).foldl (fun s j => [KeyId.volume j, .sample j, .exported j].foldl destroyKey s) a) :=
    Touches.foldl (fun s j => Touches.foldl (fun s k => touches_destroyKey s k) (Touches.refl _ _)) (Touches.refl _ _)
  have kr : ∀ (l : List (BitVec 32)) (s : State), (l.foldl (fun s j => [KeyId.volume j, .sample j, .exported j].foldl destroyKey s) s).sec.reqType = s.sec.reqType ∧ (l.foldl (fun s j => [KeyId.volume j, .sample j, .exported j].foldl destroyKey s) s).sec.reqResult = s.sec.reqResult := by
    intro l
    induction l with
    | nil => intro s; exact ⟨rfl, rfl⟩
    | cons a l ih =>
      intro s
      obtain ⟨x, y⟩ := ih ([KeyId.volume a, .sample a, .exported a].foldl destroyKey s)
      exact ⟨x.trans rfl, y.trans rfl⟩
  have k3 := kr (a.host.volumes.map (·.job)) a
  have kg : ∀ v ∈ s.host.volumes, ∀ k ∈ volKeys v.job, KeyGone k ((a.host.volumes.map (·.job)).foldl (fun s j => [KeyId.volume j, .sample j, .exported j].foldl destroyKey s) a) := by
    intro v hv
    refine k2 v.job ?_
    rcases w2 v.job (Or.inl ⟨v, hv, rfl⟩) with ⟨u, hu, hj⟩ | h
    · exact Or.inl (List.mem_map.mpr ⟨u, hu, hj⟩)
    · exact Or.inr h
  generalize (a.host.volumes.map (·.job)).foldl (fun s j => [KeyId.volume j, .sample j, .exported j].foldl destroyKey s) a = b at k1 kt k3 kg ⊢
  generalize hc : b.modHost _ = c
  have c1 : c.host = { b.host with volumes := [] } := by rw [← hc]; rfl
  have c2 : c.sec = b.sec ∧ c.imprint = b.imprint ∧ c.mgmt = b.mgmt := by rw [← hc]; exact ⟨rfl, rfl, rfl⟩
  have et := touches_emptyLedger c
  have ej := empty_jobs c
  generalize emptyLedger c = d at et ej ⊢
  have d1 : d.imprint = s.imprint := (et.2 .imprint (by decide)).trans (c2.2.1.trans ((kt.2 .imprint (by decide)).trans (wt.2 .imprint (by decide))))
  have d2 : d.sec = b.sec := (et.2 .sec (by decide)).trans c2.1
  have d3 : d.host = { b.host with volumes := [] } := (show d.host = c.host from et.2 .host (by decide)).trans c1
  have d4 : d.mgmt = s.mgmt := (et.2 .mgmt (by decide)).trans (c2.2.2.trans ((kt.2 .mgmt (by decide)).trans (wt.2 .mgmt (by decide))))
  have ha : applyLayer { d with imprint := { d.imprint with ownerLayer := none, recalPending := false } } = { d with imprint := { d.imprint with ownerLayer := none, recalPending := false }, power := { d.power with defaults := [] }, bring := { d.bring with ownerInvalid := false } } := rfl
  rw [ha]
  generalize he : State.mk .. = e
  have e1 : e.imprint = { s.imprint with ownerLayer := none, recalPending := false } := by rw [← he, ← d1]
  have e2 : e.sec = b.sec ∧ e.host = d.host ∧ e.mgmt = s.mgmt ∧ e.ledger = d.ledger ∧ e.power.defaults = [] := by rw [← he]; exact ⟨d2, rfl, d4, rfl, rfl⟩
  have eo : ownerFolio e = ownerFolio s ∧ ownerInvalid e = false := by
    unfold ownerFolio ownerInvalid at *
    rw [e1]; exact ⟨rfl, hv⟩
  have wo := write_owner e none ((ownerFolio e).nonce + 1) next eo.2
  rw [eo.1] at wo ⊢
  have tw := touches_writeOwner e none ((ownerFolio s).nonce + 1) next
  have wi : (writeOwner e none ((ownerFolio s).nonce + 1) next).imprint.ownerLayer = none ∧ (writeOwner e none ((ownerFolio s).nonce + 1) next).imprint.recalPending = false := by
    unfold writeOwner
    dsimp only
    rw [e1]
    split <;> exact ⟨rfl, rfl⟩
  generalize writeOwner e none ((ownerFolio s).nonce + 1) next = f at wo tw wi ⊢
  have f1 : f.host = e.host := tw.2 .host (by decide)
  have f2 : f.sec = e.sec := tw.2 .sec (by decide)
  have f3 : f.ledger = e.ledger := tw.2 .ledger (by decide)
  have f4 : f.power = e.power := tw.2 .power (by decide)
  have f5 : f.mgmt = e.mgmt := tw.2 .mgmt (by decide)
  refine ⟨wo, ?_, ?_, ?_, wi.1, wi.2, ?_, rfl, ?_, ?_, f5.trans e2.2.2.1, ?_⟩
  · show f.host.cat = []
    rw [f1, e2.2.1, d3, k1]; exact w1
  · show f.host.volumes = []
    rw [f1, e2.2.1, d3]
  · show f.ledger.jobs = []
    rw [f3, e2.2.2.2.1]; exact ej
  · show f.power.defaults = []
    rw [f4]; exact e2.2.2.2.2
  · show f.sec.reqType = _
    rw [f2, e2.1]; exact k3.1.trans w3.1
  · show f.sec.reqResult = _
    rw [f2, e2.1]; exact k3.2.trans w3.2
  · intro v hvm k hk p hp
    have hp' : p ∈ b.sec.slots := by
      have : p ∈ f.sec.slots := hp
      rw [f2, e2.1] at this; exact this
    exact kg v hvm k hk p hp'
theorem rec_all (s : State) (typ c : Nat) : ∃ u, recordResult s typ c = u ∧ u.imprint = s.imprint ∧ u.mgmt = s.mgmt ∧ u.host = s.host ∧ u.sec.reports = s.sec.reports ∧
    u.sec.report = s.sec.report ∧ u.sec.slots = s.sec.slots ∧ u.sec.release = s.sec.release ∧ u.sec.reqType = BitVec.ofNat 8 typ ∧ u.sec.reqResult = BitVec.ofNat 8 c ∧ (∀ x, reportBody u x = reportBody s x) := by
  obtain ⟨n, hn⟩ := record_facts s typ c
  exact ⟨_, rfl, by rw [hn], by rw [hn], by rw [hn], by rw [hn], by rw [hn], by rw [hn], by rw [hn], by rw [hn], by rw [hn], fun x => by rw [hn]; rfl⟩
theorem folio_of {s t : State} (h : t.imprint = s.imprint) : ownerFolio t = ownerFolio s ∧ ownerInvalid t = ownerInvalid s := by
  unfold ownerFolio ownerInvalid; rw [h]; exact ⟨rfl, rfl⟩
theorem append_empty (c : Nat) : Blob.append ⟨1, c⟩ Blob.empty = ⟨1, c⟩ := by
  unfold Blob.append Blob.empty
  rw [Nat.zero_mul]; rfl
/-- A response that was held back while a release waited. -/
theorem replied_again {s u : State} (r : Blob) (h1 : u.mgmt.dyn = s.mgmt.dyn) (h2 : u.mgmt.events = s.mgmt.events) (h3 : u.mgmt.interrupts = s.mgmt.interrupts) (n : Nat) (b : Blob) : Replied s (respond u (reqOpcode r) (reqTag r) n b) r n b := by
  refine ⟨rfl, ?_⟩
  show (if (u.mgmt.dyn.isSome && u.mgmt.events) = true then _ else _) = _
  rw [h1, h2, h3]
  split <;> simp
theorem under_way {s t : State} (h : t.host = s.host) (m : Nat) : volumesUnderWay t m = volumesUnderWay s m := by unfold volumesUnderWay; rw [h]

end Sys2Proof.Laws.Owners
end

