-- ==== Sys2Proof/Laws/FactsPhases.lean ====
section
/-!
SUPPORT. Lemmas on the phases of bring-up, for the statements about them.
-/

open Sys2Proof Sys2Proof.Machine Sys2Proof.Claims

namespace Sys2Proof.Laws.Phases

theorem mask0 : ∀ d : Fin 80, (domainMask (waveDomains 0)).getLsbD d = (d.1 = 38 || d.1 = 39 || d.1 = 78) := by decide
theorem hs_bring (a b : State) : (hostStatus a b).bring = b.bring := (touches_hostStatus a b).2 .bring (by decide)
theorem boots_of {s t : State} (h : t.imprint = s.imprint) (k : t.sec.minSvn = s.sec.minSvn) (b : Bool) : slotBoots t b = slotBoots s b := by
  unfold slotBoots fwSlot; rw [h, k]
theorem imprint_eq (s : State) (n : BitVec 48) (hp : inPhase s 2 = true) : phaseImprintEnd s n =
    let f := (bootChoice (bootFolio s)).1
    let s0 := s.modSec fun x => { x with colophonFailures := x.colophonFailures + BitVec.ofNat 32 (imprintFailures s) }
    if !s.imprint.boot0.valid && !s.imprint.boot1.valid then halt' s0 1
    else
      let slot := if !slotBoots s f.slotB then !f.slotB else f.slotB
      if !slotBoots s slot then halt' s0 2
      else if !s.imprint.factoryValid then halt' s0 3
      else if !s.imprint.calValid then halt' s0 4
      else
        let s1 := writeBoot s0 { f with epoch := f.epoch + 1 }
        let s2 := endPhase (firmwareRuns s1 slot (!slotBoots s f.slotB) (bootChoice (bootFolio s)).2) 2 n 3
        let s3 := if s2.bring.wave.isNone then startWave s2 1 (waveDomains 1) false else s2
        hostStatus s s3 := by
  unfold phaseImprintEnd
  rw [hp, if_neg (by decide)]
theorem layer_bring (s : State) : ∃ o, (applyLayer s).bring = { s.bring with ownerInvalid := o } ∧ (applyLayer s).imprint = s.imprint := by
  unfold applyLayer
  dsimp only
  split <;> exact ⟨_, rfl, rfl⟩
theorem firmware_facts (s : State) (b fb r : Bool) : let t := firmwareRuns s b fb r
    t.bring.slotB = b ∧ t.bring.recal = s.imprint.recalPending ∧ t.bring.fwRolledBack = r ∧ t.bring.halted = s.bring.halted ∧ t.host.live = true ∧
    t.host.epoch = (bootFolio s).epoch ∧ t.imprint = s.imprint := by
  intro t
  have ht : t = firmwareRuns s b fb r := rfl
  clear_value t
  unfold firmwareRuns at ht
  dsimp only at ht
  generalize hm : State.modBring s _ = s1 at ht
  obtain ⟨o, l1, l2⟩ := layer_bring s1
  have f1 : (takeFolio (applyLayer s1)).bring = (applyLayer s1).bring := (touches_takeFolio _).2 .bring (by decide)
  have f2 : (takeFolio (applyLayer s1)).imprint = s.imprint := ((touches_takeFolio _).2 .imprint (by decide)).trans (l2.trans (by rw [← hm]; rfl))
  generalize takeFolio (applyLayer s1) = s2 at ht f1 f2
  generalize h3 : State.mk .. = s3 at ht
  have wb : ∀ u k, (wantKey u k).bring = u.bring := fun u k => (touches_wantKey u k).2 .bring (by decide)
  have wh : ∀ u k, (wantKey u k).host = u.host := fun u k => (touches_wantKey u k).2 .host (by decide)
  have wi : ∀ u k, (wantKey u k).imprint = u.imprint := fun u k => (touches_wantKey u k).2 .imprint (by decide)
  have b3 : s3.bring = s2.bring := by rw [← h3]
  have i3 : s3.imprint = s.imprint := by rw [← h3]; exact f2
  have e3 : s3.host.live = true ∧ s3.host.epoch = (bootFolio s2).epoch := by rw [← h3]; exact ⟨rfl, rfl⟩
  have hbr : t.bring = { s1.bring with ownerInvalid := o } := by rw [ht, wb, wb, b3, f1, l1]
  refine ⟨?_, ?_, ?_, ?_, ?_, ?_, ?_⟩
  · rw [hbr, ← hm]; rfl
  · rw [hbr, ← hm]; rfl
  · rw [hbr, ← hm]; rfl
  · rw [hbr, ← hm]; rfl
  · rw [ht, wh, wh]; exact e3.1
  · rw [ht, wh, wh, e3.2, boot_of f2]
  · rw [ht, wi, wi, i3]
theorem yield_shelves : ∀ (l : List Nat) (u : State), l.Nodup → ∀ k, (l.foldl (fun u sh => u.modShelf sh (yieldMap (goodSites u sh))) u).shelf k = if k ∈ l then yieldMap (goodSites u k) (u.shelf k) else u.shelf k
  | [], u, _, k => by simp
  | n :: l, u, h, k => by
    have hd := List.nodup_cons.mp h
    rw [List.foldl_cons, yield_shelves l _ hd.2 k]
    have hg : goodSites (u.modShelf n (yieldMap (goodSites u n))) k = goodSites u k := rfl
    rw [hg]
    by_cases e : k = n
    · subst e
      rw [if_neg hd.1, if_pos (by simp), shelf_modShelf_self]
    · rw [shelf_modShelf_other _ _ _ _ e]
      by_cases m : k ∈ l
      · rw [if_pos m, if_pos (by simp [m])]
      · rw [if_neg m, if_neg (by simp [m, e])]

end Sys2Proof.Laws.Phases
end

