-- ==== Sys2Proof/Laws/FactsQueue.lean ====
section
/-!
SUPPORT. Lemmas on the queue of commands and the frame, for the statements about them.
-/

open Sys2Proof Sys2Proof.Machine Sys2Proof.Claims

namespace Sys2Proof.Laws.Queue

theorem withUnit_iff (b : Bool) (r : State) : (b = true → ∃ t, withUnit b r = .next t) ∧ (b = false → withUnit b r = .fault .noSuchUnit) := by
  cases b <;> simp [withUnit]
theorem next_iff (r : State) : (true = true → ∃ t, (Host.Outcome.next r : Out) = .next t) ∧ (true = false → (Host.Outcome.next r : Out) = .fault .noSuchUnit) := by simp
theorem p5a (i : Instr) (s t : State) (h : exec i s = .next t) : Touches (touchedBy i) s t := by
  cases i with
  | counterLowHalfRead _ _ => exact touches_execCounterLowHalfRead _ _ s t h
  | registerWriteIgnored _ _ => exact touches_execRegisterWriteIgnored _ _ s t h
  | rowIssue _ _ => exact touches_execRowIssue _ _ s t h
  | rowEntry _ => exact touches_execRowEntry _ s t h
  | drainUnit _ => exact touches_execDrainUnit _ s t h
  | weightLoadStart _ _ _ _ => exact touches_execWeightLoadStart _ _ _ _ s t h
  | weightLoadDone _ _ => exact touches_execWeightLoadDone _ _ s t h
  | treeNode _ _ => exact touches_execTreeNode _ _ s t h
  | windowTensor _ => exact touches_execWindowTensor _ s t h
  | inputRowArrival _ => exact touches_execInputRowArrival _ s t h
  | haloCopy _ _ => exact touches_execHaloCopy _ _ s t h
  | poolPosition _ => exact touches_execPoolPosition _ s t h
  | boxDecode _ => exact touches_execBoxDecode _ s t h
  | nmsCandidate _ => exact touches_execNmsCandidate _ s t h
  | nmsSelect _ => exact touches_execNmsSelect _ s t h
  | streamWord _ _ _ _ => exact touches_execStreamWord _ _ _ _ s t h
  | tensorHeaderEmit _ _ => exact touches_execTensorHeaderEmit _ _ s t h
  | passStart _ => exact touches_execPassStart _ s t h
  | stagingFill _ => exact touches_execStagingFill _ s t h
  | stagingFillDone _ => exact touches_execStagingFillDone _ s t h
  | stallCycle _ _ _ => exact touches_execStallCycle _ _ _ s t h
  | wedged _ => exact touches_execWedged _ s t h
  | wedgedReport _ => exact touches_execWedgedReport _ s t h
  | escapeConfirm _ => exact touches_execEscapeConfirm _ s t h
  | gatherIndex _ => exact touches_execGatherIndex _ s t h
  | routeTensor _ => exact touches_execRouteTensor _ s t h
  | vectorElement _ => exact touches_execVectorElement _ s t h
  | memAccess _ _ _ _ _ => exact touches_execMemAccess _ _ _ _ _ s t h
  | patrolScrub _ _ => exact touches_execPatrolScrub _ _ s t h
  | granuleFillDone _ => exact touches_execGranuleFillDone _ s t h
  | cxlWriteDurable _ => exact touches_execCxlWriteDurable _ s t h
  | cxlLinkFail _ => exact touches_execCxlLinkFail _ s t h
  | cxlRetrainDone _ _ => exact touches_execCxlRetrainDone _ _ s t h
  | prefetchTurn _ _ => exact touches_execPrefetchTurn _ _ s t h
  | sampleRecord _ _ _ _ => exact touches_execSampleRecord _ _ _ _ s t h
  | decodeStart _ _ _ _ _ => exact touches_execDecodeStart _ _ _ _ _ s t h
  | decodeDone _ _ _ => exact touches_execDecodeDone _ _ _ s t h
  | creditTimer _ _ => exact touches_execCreditTimer _ _ s t h
  | intakeTensorEmit _ _ => exact touches_execIntakeTensorEmit _ _ s t h
  | lateCorrupt _ _ => exact touches_execLateCorrupt _ _ s t h
  | roiSetTake _ _ _ => exact touches_execRoiSetTake _ _ _ s t h
  | substitution _ _ => exact touches_execSubstitution _ _ s t h
  | verdictBarrier _ => exact touches_execVerdictBarrier _ s t h
  | verdictReceived _ _ => exact touches_execVerdictReceived _ _ s t h
  | endOfStepBarrier _ => exact touches_execEndOfStepBarrier _ s t h
  | layerUpdate _ => exact touches_execLayerUpdate _ s t h
  | lossTensor _ => exact touches_execLossTensor _ s t h
  | linkTrained _ _ => exact touches_execLinkTrained _ _ s t h
  | lossOfSignal _ => exact touches_execLossOfSignal _ s t h
  | keepaliveTimeout _ => exact touches_execKeepaliveTimeout _ s t h
  | flitSlot _ => exact touches_execFlitSlot _ s t h
  | flitIdle _ _ _ _ => exact touches_execFlitIdle _ _ _ _ s t h
  | flitData _ _ _ _ => exact touches_execFlitData _ _ _ _ s t h
  | keyOffer _ _ _ _ _ => exact touches_execKeyOffer _ _ _ _ _ s t h
  | keyConfirm _ _ => exact touches_execKeyConfirm _ _ s t h
  | keyAbort _ => exact touches_execKeyAbort _ s t h
  | keyingTimeout _ => exact touches_execKeyingTimeout _ s t h
  | keyingRetry _ => exact touches_execKeyingRetry _ s t h
  | hello _ => exact touches_execHello _ s t h
  | fabricMismatchRetry _ => exact touches_execFabricMismatchRetry _ s t h
  | syncOffer _ => exact touches_execSyncOffer _ s t h
  | syncRecords _ => exact touches_execSyncRecords _ s t h
  | syncDone _ => exact touches_execSyncDone _ s t h
  | syncNotReady _ => exact touches_execSyncNotReady _ s t h
  | syncBackoff _ => exact touches_execSyncBackoff _ s t h
  | accessionSettle => exact touches_execAccessionSettle s t h
  | lsr _ => exact touches_execLsr _ s t h
  | lsdbRecordExpiry _ => exact touches_execLsdbRecordExpiry _ s t h
  | routeRecompute => exact touches_execRouteRecompute s t h
  | packetForward _ => exact touches_execPacketForward _ s t h
  | stream _ => exact touches_execStream _ s t h
  | credit _ => exact touches_execCredit _ s t h
  | write _ => exact touches_execWrite _ s t h
  | read _ => exact touches_execRead _ s t h
  | readData _ => exact touches_execReadData _ s t h
  | ack _ => exact touches_execAck _ s t h
  | collective _ => exact touches_execCollective _ s t h
  | mcast _ => exact touches_execMcast _ s t h
  | loan _ => exact touches_execLoan _ s t h
  | loanData _ => exact touches_execLoanData _ s t h
  | sample _ => exact touches_execSample _ s t h
  | noticeLagged _ => exact touches_execNoticeLagged _ s t h
  | noticeDone _ => exact touches_execNoticeDone _ s t h
  | transportRetransmit _ => exact touches_execTransportRetransmit _ s t h
  | mcastSend _ _ _ => exact touches_execMcastSend _ _ _ s t h
  | ethFrame _ _ _ _ => exact touches_execEthFrame _ _ _ _ s t h
  | segmentOpen _ => exact touches_execSegmentOpen _ s t h
  | segmentData _ => exact touches_execSegmentData _ s t h
  | exportAck _ => exact touches_execExportAck _ s t h
  | exportResend _ => exact touches_execExportResend _ s t h
  | commitStart _ => exact touches_execCommitStart _ s t h
  | snapshotDone _ => exact touches_execSnapshotDone _ s t h
  | parityCompute _ _ => exact touches_execParityCompute _ _ s t h
  | copyObject _ _ => exact touches_execCopyObject _ _ s t h
  | commitRecordWrite _ => exact touches_execCommitRecordWrite _ s t h
  | commitLeaf _ => exact touches_execCommitLeaf _ s t h
  | sealed _ => exact touches_execSealed _ s t h
  | commitFailed _ _ _ => exact touches_execCommitFailed _ _ _ s t h
  | lost _ => exact touches_execLost _ s t h
  | fault _ => exact touches_execFault _ s t h
  | halt _ => exact touches_execHalt _ s t h
  | bind _ => exact touches_execBind _ s t h
  | bindAck _ => exact touches_execBindAck _ s t h
  | rebind _ _ => exact touches_execRebind _ _ s t h
  | restoreDone _ _ _ _ _ _ => exact touches_execRestoreDone _ _ _ _ _ _ s t h
  | restored _ => exact touches_execRestored _ s t h
  | resume _ => exact touches_execResume _ s t h
  | drop _ => exact touches_execDrop _ s t h
  | releaseRecord _ => exact touches_execReleaseRecord _ s t h
  | join _ => exact touches_execJoin _ s t h
  | hotReset => exact touches_execHotReset s t h
  | functionLevelReset => exact touches_execFunctionLevelReset s t h
  | pcieLinkDown => exact touches_execPcieLinkDown s t h
  | perstAssert => exact touches_execPerstAssert s t h
  | perstRelease => exact touches_execPerstRelease s t h
  | callDoorbell _ _ _ => exact touches_execCallDoorbell _ _ _ s t h
  | slipTake _ => exact touches_execSlipTake _ s t h
  | slipEnd _ _ => exact touches_execSlipEnd _ _ s t h
  | retAck _ _ => exact touches_execRetAck _ _ s t h
  | ringReset _ => exact touches_execRingReset _ s t h
  | ringResetEffect _ => exact touches_execRingResetEffect _ s t h
  | upload _ _ _ _ _ => exact touches_execUpload _ _ _ _ _ s t h
  | pull _ _ _ => exact touches_execPull _ _ _ s t h
  | create _ _ => exact touches_execCreate _ _ s t h
  | load _ _ _ => exact touches_execLoad _ _ _ s t h
  | unload _ _ => exact touches_execUnload _ _ s t h
  | destroy _ _ => exact touches_execDestroy _ _ s t h
  | pin _ _ => exact touches_execPin _ _ s t h
  | unpin _ _ => exact touches_execUnpin _ _ s t h
  | weed _ _ => exact touches_execWeed _ _ s t h
  | wait _ _ => exact touches_execWait _ _ s t h
  | readResume _ _ => exact touches_execReadResume _ _ s t h
  | teardown _ => exact touches_execTeardown _ s t h
  | teardownDone _ => exact touches_execTeardownDone _ s t h
  | msixUnmask _ => exact touches_execMsixUnmask _ s t h
  | bringupStart => exact touches_execBringupStart s t h
  | phaseInputEnd _ => exact touches_execPhaseInputEnd _ s t h
  | phaseImprintEnd _ => exact touches_execPhaseImprintEnd _ s t h
  | phaseMemoryEnd _ _ _ _ _ => exact touches_execPhaseMemoryEnd _ _ _ _ _ s t h
  | phaseWavesEnd _ => exact touches_execPhaseWavesEnd _ s t h
  | phaseSelfTestEnd _ _ => exact touches_execPhaseSelfTestEnd _ _ s t h
  | phaseAgeingEnd _ _ => exact touches_execPhaseAgeingEnd _ _ s t h
  | phaseYieldEnd _ => exact touches_execPhaseYieldEnd _ s t h
  | phaseAccessionEnd _ => exact touches_execPhaseAccessionEnd _ s t h
  | waveSettled => exact touches_execWaveSettled s t h
  | waveTimeout => exact touches_execWaveTimeout s t h
  | limitExceeded => exact touches_execLimitExceeded s t h
  | selfTestResult _ _ _ => exact touches_execSelfTestResult _ _ _ s t h
  | fwBlock _ _ _ _ => exact touches_execFwBlock _ _ _ _ s t h
  | fwNak _ _ => exact touches_execFwNak _ _ s t h
  | fwNakTimeout _ => exact touches_execFwNakTimeout _ s t h
  | fwVerified _ _ => exact touches_execFwVerified _ _ s t h
  | coreCheck _ => exact touches_execCoreCheck _ s t h
  | spareTestDone _ _ => exact touches_execSpareTestDone _ _ s t h
  | campaignOpen _ => exact touches_execCampaignOpen _ s t h
  | campaignPackageCheck _ _ _ => exact touches_execCampaignPackageCheck _ _ _ s t h
  | campaignActivate _ => exact touches_execCampaignActivate _ s t h
  | campaignAbort _ => exact touches_execCampaignAbort _ s t h
  | inputOutOfRange _ => exact touches_execInputOutOfRange _ s t h
  | governorEvaluation _ _ _ => exact touches_execGovernorEvaluation _ _ _ s t h
  | domainIdleTimeout _ => exact touches_execDomainIdleTimeout _ s t h
  | measurementDone _ => exact touches_execMeasurementDone _ s t h
  | muRecord _ _ _ _ => exact touches_execMuRecord _ _ _ _ s t h
  | muInputLoss => exact touches_execMuInputLoss s t h
  | muInputReturn => exact touches_execMuInputReturn s t h
  | muRecordTimeout => exact touches_execMuRecordTimeout s t h
  | muSealOpen => exact touches_execMuSealOpen s t h
  | muFirmwareLoad _ _ _ => exact touches_execMuFirmwareLoad _ _ _ s t h
  | attest _ _ => exact touches_execAttest _ _ s t h
  | enrol _ _ => exact touches_execEnrol _ _ s t h
  | release _ _ => exact touches_execRelease _ _ s t h
  | recalibrate _ _ => exact touches_execRecalibrate _ _ s t h
  | keySlotGrant _ => exact touches_execKeySlotGrant _ s t h
  | moduleInsertion _ => exact touches_execModuleInsertion _ s t h
  | inputSettled => exact touches_execInputSettled s t h
  | modResetAssert => exact touches_execModResetAssert s t h
  | resetDeadline => exact touches_execResetDeadline s t h
  | modResetRelease => exact touches_execModResetRelease s t h
  | tripRelease => exact touches_execTripRelease s t h
  | identify _ => exact touches_execIdentify _ s t h
  | readControl _ => exact touches_execReadControl _ s t h
  | imprintWrite _ => exact touches_execImprintWrite _ s t h
  | imprintCommit _ _ _ => exact touches_execImprintCommit _ _ _ s t h
  | rebuildBoot _ => exact touches_execRebuildBoot _ s t h
  | managementResponseRead => exact touches_execManagementResponseRead s t h
  | setdasa _ _ => exact touches_execSetdasa _ _ s t h
  | entdaa _ => exact touches_execEntdaa _ s t h
  | rstdaa => exact touches_execRstdaa s t h
  | setnewda _ => exact touches_execSetnewda _ s t h
  | getpid => exact touches_execGetpid s t h
  | getbcr => exact touches_execGetbcr s t h
  | getdcr => exact touches_execGetdcr s t h
  | getstatus => exact touches_execGetstatus s t h
  | enec _ => exact touches_execEnec _ s t h
  | disec _ => exact touches_execDisec _ s t h
  | laneSignal _ => exact touches_execLaneSignal _ s t h
  | ethLinkLoss _ => exact touches_execEthLinkLoss _ s t h
  | regulatorFault => exact touches_execRegulatorFault s t h
  | pullUnavailable _ _ => exact touches_execPullUnavailable _ _ s t h
  | muReseal => exact touches_execMuReseal s t h
  | configurationRequest _ => exact touches_execConfigurationRequest _ s t h
theorem st (s t : State) (h : step s = .next t) : Keeps { s with pending := s.pending.tail } t := by
  rcases s with ⟨⟩
  rename_i q
  cases q with
  | nil => simp only [step] at h; cases h; exact Keeps.refl _
  | cons c r => exact (p5a c _ t h).1

end Sys2Proof.Laws.Queue
end

