-- ==== Sys2Proof/Laws/FactsRecoveryFinish.lean ====
section
/-!
SUPPORT. Lemmas on the end of a recovery, for the statements about them.
-/

open Sys2Proof Sys2Proof.Machine Sys2Proof.Claims

namespace Sys2Proof.Laws.RecoveryFinish

def FB (g : Ctx → α) : Prop := ∀ (x : Ctx) a b c d, g { x with led := { x.led with partners := a, fallback := b, feedShared := c, feedSharedObjects := d } } = g x
theorem CK.chooseFor (hb : FB g) (s : State) (c i : Nat) : CK g s (chooseFor s c i) := by
  unfold Machine.chooseFor
  dsimp only
  split
  · exact CK.refl _
  · split
    · split
      · exact CK.modLed _ _ _ fun x => hb x _ _ _ _
      · exact CK.refl _
    · split
      · exact CK.modLed _ _ _ fun x => hb x _ _ x.led.feedShared x.led.feedSharedObjects
      · exact CK.modLed _ _ _ fun x => hb x _ _ _ _
theorem replace_facts (s : State) (c r acc : Nat) :
    (∀ {α : Type} (g : Ctx → α), FB g → (∀ (x : Ctx) a b, g { x with led := { x.led with ranks := a, former := b } } = g x) → g ((replaceRank s c r acc).ctx c) = g (s.ctx c)) ∧
    ((replaceRank s c r acc).ctx c).led.ranks = (s.ctx c).led.ranks.set r acc ∧
    (replaceRank s c r acc).fab.acc = s.fab.acc ∧
    (∀ old, rankAcc (s.ctx c) r = some old → old ≠ acc → ((replaceRank s c r acc).ctx c).led.former = (s.ctx c).led.former ++ [old] ∧
      (∀ q ∈ (replaceRank s c r acc).fab.tx, q.peer ≠ old) ∧ ∀ q ∈ (replaceRank s c r acc).fab.rx, q.peer ≠ old) := by
  obtain ⟨s1, G, l, c1, hG, e⟩ : ∃ (s1 : State) (G : List Nat → List Nat) (l : List Nat), (s1.ctxs = s.ctxs ∧ s1.fab.acc = s.fab.acc) ∧
      (∀ old, rankAcc (s.ctx c) r = some old → old ≠ acc → (∀ f, G f = f ++ [old]) ∧ s1 = closePeer s old) ∧
      replaceRank s c r acc = l.foldl (fun s i => chooseFor s c i) (s1.modLed c fun l => { l with ranks := l.ranks.set r acc, former := G l.former }) := by
    unfold replaceRank
    dsimp only
    generalize List.filter _ _ = l
    cases ho : rankAcc (s.ctx c) r with
    | none => exact ⟨s, id, l, ⟨rfl, rfl⟩, (fun _ h => nomatch h), rfl⟩
    | some old =>
      by_cases h : old = acc
      · refine ⟨s, id, l, ⟨rfl, rfl⟩, fun o ho hne => ?_, ?_⟩
        · cases ho; exact absurd h hne
        · simp only [h, if_true]; rfl
      · refine ⟨closePeer s old, (· ++ [old]), l, ⟨rfl, rfl⟩, fun o ho hne => ?_, ?_⟩
        · cases ho; exact ⟨fun _ => rfl, rfl⟩
        · simp only [h, if_false]
  rw [e]
  generalize hs2 : State.modLed s1 c _ = s2
  have c2 : s2.ctx c = { s.ctx c with led := { (s.ctx c).led with ranks := (s.ctx c).led.ranks.set r acc, former := G (s.ctx c).led.former } } := by
    rw [← hs2, ctx_modLed, ctx_of c1.1]
  have f2 : s2.fab = s1.fab := by rw [← hs2]; rfl
  have h1 : ∀ {α : Type} {g : Ctx → α}, FB g → CK g s2 (l.foldl (fun s i => chooseFor s c i) s2) := fun hb => CK.foldl (fun _ _ => CK.chooseFor hb _ _ _) _ _
  have h2 : (l.foldl (fun s i => chooseFor s c i) s2).fab = s2.fab := by
    clear h1
    clear hs2 c2 f2 e
    induction l generalizing s2 with
    | nil => rfl
    | cons b l ih => exact (ih _).trans ((touches_chooseFor _ _ _).2 .fab (by decide))
  refine ⟨fun g hb hg => ?_, ?_, by rw [h2, f2]; exact c1.2, fun old ho hne => ⟨?_, ?_, ?_⟩⟩
  · refine (h1 hb c).trans ?_
    rw [c2]; exact hg _ _ _
  · refine (h1 (g := fun x => x.led.ranks) (fun _ _ _ _ _ => rfl) c).trans ?_
    dsimp only; rw [c2]
  · have := h1 (g := fun x => x.led.former) (fun _ _ _ _ _ => rfl) c
    dsimp only at this
    rw [this, c2, (hG old ho hne).1]
  · rw [h2, f2, (hG old ho hne).2]
    intro q hq
    have := (List.mem_filter.1 hq).2
    simpa using this
  · rw [h2, f2, (hG old ho hne).2]
    intro q hq
    have := (List.mem_filter.1 hq).2
    simpa using this
theorem restart_facts (s : State) (c : Nat) (step : BitVec 32) (r : Blob) : ((restartAt s c step r).ctx c).led = (s.ctx c).led ∧ ((restartAt s c step r).ctx c).step.jobStep = step ∧ ((restartAt s c step r).ctx c).st = (s.ctx c).st := by
  unfold restartAt
  dsimp only
  generalize hs1 : List.foldl _ _ (coresOf s c) = s1
  have c1 : s1.ctxs = s.ctxs := by
    rw [← hs1]
    generalize coresOf s c = l
    clear hs1
    induction l generalizing s with
    | nil => rfl
    | cons b l ih => exact (ih _).trans rfl
  generalize hs2 : State.modCtx s1 c _ = s2
  have c2 : s2.ctx c = { s.ctx c with step := { (s.ctx c).step with jobStep := step } } := by rw [← hs2, ctx_modCtx_self, ctx_of c1]
  have c3 : ((newStep s2 c).ctx c).led = (s.ctx c).led ∧ ((newStep s2 c).ctx c).step.jobStep = step ∧ ((newStep s2 c).ctx c).st = (s.ctx c).st := by
    unfold newStep
    dsimp only
    rw [ctx_modCtx_self]
    generalize hs3 : List.foldl _ _ (queuesOf s2 c) = s3
    have : s3.ctxs = s2.ctxs := by
      rw [← hs3]
      have a1 : ∀ (l : List (Nat × Nat)) (u : State), (l.foldl (fun s q => s.modQueue q.1 q.2 fun k => { k with outs := k.outs.map fun p => (p.1, { p.2 with draws := 0 }) }) u).ctxs = u.ctxs := by
        intro l
        induction l with
        | nil => intro u; rfl
        | cons b l ih => intro u; exact (ih _).trans rfl
      have a2 : ∀ (l : List Nat) (u : State), (l.foldl (fun s n => s.modCore n Core.newStep) u).ctxs = u.ctxs := by
        intro l
        induction l with
        | nil => intro u; rfl
        | cons b l ih => intro u; exact (ih _).trans rfl
      exact (a1 _ _).trans (a2 _ _)
    rw [ctx_of this, c2]
    exact ⟨rfl, rfl, rfl⟩
  generalize newStep s2 c = s4 at c3 ⊢
  have h5 := CK.sendChecks (g := fun x => (x.led, x.step.jobStep, x.st)) (fun _ _ _ _ => rfl) (reopenQueues (loadMonitor (loadExpectT s4 c) c r) c) c c
  simp only [Prod.mk.injEq] at h5
  have h6 : (reopenQueues (loadMonitor (loadExpectT s4 c) c r) c).ctxs = s4.ctxs := by
    refine ((touches_reopenQueues _ _).2 .ctxs (by decide)).trans (((touches_loadMonitor _ _ _).2 .ctxs (by decide)).trans ((touches_loadExpectT _ _).2 .ctxs (by decide)))
  rw [h5.1, h5.2.1, h5.2.2, ctx_of h6]
  exact c3
theorem mw_bytes (s t : State) (a : Nat) (b : Blob) (h : s.mem.mem = t.mem.mem) : (memWrite s a b).mem.mem = (memWrite t a b).mem.mem := by
  unfold memWrite writeRange
  split
  · exact h
  · generalize List.range _ = l
    induction l generalizing s t with
    | nil => exact h
    | cons i l ih => exact ih _ _ (by dsimp only; rw [ww_bytes, ww_bytes, h])
theorem lw_bytes (s t : State) (h : s.mem.mem = t.mem.mem) (g : s.mem.granules = t.mem.granules) (job : BitVec 32) (o : Nat) (b : Blob) : (ledgerWrite s job o b).mem.mem = (ledgerWrite t job o b).mem.mem := by
  unfold ledgerWrite
  generalize ledgerPieces _ _ = l
  induction l generalizing s t with
  | nil => exact h
  | cons i l ih =>
    have e : ∀ x, ledgerAddr s job x = ledgerAddr t job x := by intro x; unfold ledgerAddr ledgerGranules; rw [g]
    refine ih _ _ ?_ ?_
    · dsimp only; rw [e]; exact mw_bytes _ _ _ _ h
    · dsimp only; rw [(touches_memWrite _ _ _).2 .granules (by decide), (touches_memWrite _ _ _).2 .granules (by decide), g]
/-- What RESTORED does: it is sent, and nothing else of the context changes. -/
theorem restored_facts (s : State) (c n : Nat) : Restored s c n (sendRestored s c n) ∧
    ((sendRestored s c n).mem = s.mem) ∧ ∀ {α : Type} (g : Ctx → α), Blind g → LB g → g ((sendRestored s c n).ctx c) = g (s.ctx c) := by
  refine ⟨fun a ha => ?_, mem_of (touches_sendRestored s c n) (by decide) (by decide) (by decide), fun g hb hl => CK.sendCtrl hb hl s c _ _ c⟩
  unfold sendRestored
  dsimp only
  rw [sent_ctrl s c _ a _ ha]
  exact List.mem_append_right _ (List.mem_singleton.2 rfl)
theorem told_facts (s : State) (c d : Nat) (k : Ctrl) : Told s c d k (sendCtrl s c d k) := by
  intro a ha
  rw [sent_ctrl s c d a _ ha]
  exact List.mem_append_right _ (List.mem_singleton.2 rfl)
theorem CK.settleLoads {g : Ctx → α} (hb : Blind g) (hl : LoadBlind g) (s : State) : CK g s (settleLoads s) := by
  unfold Machine.settleLoads
  exact CK.foldl (fun s c => CK.settleLoad hb hl s c) _ _
/-- A restoring load that is not refused places its image. -/
theorem restoreLoad_facts (s : State) (c : Nat) (v : Volume) (stripes : Tbl (List Nat)) :
    let L := loadInput s c (v.imageOf (s.ctx c).rank.toNat) stripes true
    (loadRefusal s c L ≠ none → loadForRestore s c v stripes = none) ∧
    (loadRefusal s c L = none → ∃ t, loadForRestore s c v stripes = some t ∧ (t.ctx c).image = some (parseImage L.img) ∧
      (t.ctx c).rank = (s.ctx c).rank ∧ (t.ctx c).job = (s.ctx c).job ∧ (t.ctx c).mask = (s.ctx c).mask) := by
  intro L
  have e : loadForRestore s c v stripes = match loadRefusal s c L with
    | some _ => none
    | none => some (settleLoads ((placeImage s c L).modLed c fun l => { l with restoring := true })) := rfl
  rw [e]
  refine ⟨fun h => ?_, fun h => ?_⟩
  · cases hl : loadRefusal s c L with
    | none => exact absurd hl h
    | some _ => rfl
  · rw [h]
    refine ⟨_, rfl, ?_⟩
    have q := CK.settleLoads (g := fun x => (x.image, x.rank, x.job, x.mask)) (fun _ _ _ _ => rfl) (fun _ _ _ _ _ _ => rfl) ((placeImage s c L).modLed c fun l => { l with restoring := true }) c
    simp only [Prod.mk.injEq] at q
    rw [q.1, q.2.1, q.2.2.1, q.2.2.2, ctx_modLed]
    have hp : (placeImage s c L).ctx c = { s.ctx c with image := some (parseImage L.img), streams := [], nodes := rootNodes L.img (parseImage L.img), taps := [], options := L.options, loader := L.loader, loading := true, unload := false, led := { (s.ctx c).led with stripes := L.stripes } } := by
      unfold placeImage
      dsimp only
      rw [if_pos (show L.restoring = true from rfl), ctx_modCtx_self]
      generalize h2 : List.foldl _ (List.foldl _ s _) _ = s2
      have : s2.ctxs = s.ctxs := by
        rw [← h2]
        refine Eq.trans (by refine fold_same (g := State.ctxs) ?_ _ _; intro u n; exact (touches_loadShelf _ _ _ _ _ _).2 .ctxs (by decide)) ?_
        refine fold_same (g := State.ctxs) ?_ _ _
        intro u n
        split <;> rfl
      rw [ctx_of this c]
    rw [hp]
    exact ⟨rfl, rfl, rfl, rfl⟩
theorem data_same {α : Type} {g : State → α} (h : ∀ s a b, g (writeData s a b) = g s) : ∀ (l : List Section) (s : State), g (l.foldl (fun s d => writeData s d.addr d.data) s) = g s
  | [], _ => rfl
  | d :: l, s => (data_same h l _).trans (h s d.addr d.data)
theorem coord_same {s t : State} {c : Nat} (hf : t.fab.routes = s.fab.routes) (hr : (t.ctx c).rank = (s.ctx c).rank) (hk : (t.ctx c).led.ranks = (s.ctx c).led.ranks) : coordinatorOf t c = coordinatorOf s c := by
  have : ∀ r, canReach t c r = canReach s c r := by
    intro r; unfold canReach rankAcc; rw [hf, hr, hk]
  unfold coordinatorOf
  simp only [this, hr, hk]
/-- A recreation that is given up reports its rank lost. -/
theorem give_facts (s u : State) (c : Nat) (hf : u.fab.routes = s.fab.routes)
    (hv : ((u.ctx c).rank, (u.ctx c).led.ranks, (u.ctx c).led.seq) = ((s.ctx c).rank, (s.ctx c).led.ranks, (s.ctx c).led.seq)) :
    let t := report (u.modLed c fun l => { l with restoring := false }) c 1 (s.ctx c).rank.toNat 0
    ((t.ctx c).led.restoring = false ∧ Told s c (coordinatorOf s c) { typ := 1, seq := 0, src := 0, rank := (s.ctx c).rank.toNat } t) ∧
      (t.ctx c).st = (u.ctx c).st := by
  intro t
  simp only [Prod.mk.injEq] at hv
  obtain ⟨v1, v2, v3⟩ := hv
  have ht : t = report (u.modLed c fun l => { l with restoring := false }) c 1 (s.ctx c).rank.toNat 0 := rfl
  clear_value t
  subst ht
  generalize hu : State.modLed u c _ = u'
  have cu : u'.ctx c = { u.ctx c with led := { (u.ctx c).led with restoring := false } } := by rw [← hu, ctx_modLed]
  have fu : u'.fab = u.fab := by rw [← hu]; rfl
  have q := CK.report (g := fun x => (x.led.restoring, x.st)) (fun _ _ _ _ => rfl) (fun _ _ _ => rfl) u' c 1 (s.ctx c).rank.toNat 0 c
  rw [cu] at q
  simp only [Prod.mk.injEq] at q
  refine ⟨⟨q.1, ?_⟩, q.2⟩
  have hco : coordinatorOf u' c = coordinatorOf s c := coord_same (by rw [fu]; exact hf) (by rw [cu]; exact v1) (by rw [cu]; exact v2)
  have := told_facts u' c (coordinatorOf u' c) { typ := 1, seq := 0, src := 0, rank := (s.ctx c).rank.toNat, arg := 0 }
  intro a ha
  rw [hco] at this
  have h := this a (by rw [cu]; unfold rankAcc at ha ⊢; rw [v2]; exact ha)
  rw [cu] at h
  unfold report
  rw [hco]
  dsimp only at h ⊢
  rw [v1, v3] at h
  exact h
/-- What restoring keeps of a context and of the device. -/
def RV (s : State) (c : Nat) (A : Tbl (BitVec 32)) (t : State) : Prop :=
  (∃ m, t.ctx c = { s.ctx c with tC := A, led := { (s.ctx c).led with mismatches := m } }) ∧ t.fab = s.fab ∧ t.mem.granules = s.mem.granules
theorem RV.touch {s t u : State} {c : Nat} {A : Tbl (BitVec 32)} (h : RV s c A t) (k : Touches [.bytes, .tiers] t u) : RV s c A u := by
  obtain ⟨⟨m, h1⟩, h2, h3⟩ := h
  exact ⟨⟨m, (ctx_of (k.2 .ctxs (by decide)) c).trans h1⟩, (k.2 .fab (by decide)).trans h2, (k.2 .granules (by decide)).trans h3⟩
theorem RV.restored {s t : State} {c n : Nat} {A : Tbl (BitVec 32)} (h : RV s c A t) : Restored s c n (sendRestored t c n) := by
  obtain ⟨⟨m, h1⟩, h2, h3⟩ := h
  have := (restored_facts t c n).1
  have hco : coordinatorOf t c = coordinatorOf s c := coord_same (by rw [h2]) (by rw [h1]) (by rw [h1])
  intro a ha
  have h := this a (by rw [h1, hco]; exact ha)
  rw [h1] at h
  exact h
theorem RV.seen {s t : State} {c n : Nat} {A : Tbl (BitVec 32)} (h : RV s c A t) : ((sendRestored t c n).ctx c).tC = A ∧ ((sendRestored t c n).ctx c).led.mismatches = (t.ctx c).led.mismatches := by
  obtain ⟨_, _, e3⟩ := restored_facts t c n
  obtain ⟨⟨m, h1⟩, _, _⟩ := h
  refine ⟨(e3 (fun x => x.tC) (fun _ _ _ _ => rfl) (fun _ _ _ => rfl)).trans (by rw [h1]), e3 (fun x => x.led.mismatches) (fun _ _ _ _ => rfl) (fun _ _ _ => rfl)⟩
theorem match_iff (d : BitVec 256) (n : Nat) : ∀ l : List Blob, (∃ b, (firstMatch d n l).1 = some b) ↔ ∃ b ∈ l, b.len = n ∧ sm3 b = d
  | [] => by simp [firstMatch]
  | a :: l => by
    unfold firstMatch
    by_cases h : a.len = n ∧ sm3 a = d
    · rw [if_pos (by simpa using h)]; exact ⟨fun _ => ⟨a, by simp, h⟩, fun _ => ⟨a, rfl⟩⟩
    · rw [if_neg (by simpa using h)]
      refine (match_iff d n l).trans ⟨fun ⟨b, h1, h2⟩ => ⟨b, List.mem_cons_of_mem _ h1, h2⟩, fun ⟨b, h1, h2⟩ => ?_⟩
      rcases List.mem_cons.1 h1 with h1 | h1
      · subst h1; exact absurd h2 h
      · exact ⟨b, h1, h2⟩
theorem match_none (d : BitVec 256) (n : Nat) : ∀ l : List Blob, (∀ b ∈ l, ¬ (b.len = n ∧ sm3 b = d)) → firstMatch d n l = (none, l.length)
  | [], _ => rfl
  | a :: l, h => by
    unfold firstMatch
    rw [if_neg (by simpa using h a (by simp)), match_none d n l fun b hb => h b (List.mem_cons_of_mem _ hb)]
    rfl
/-- The sources of an object in their order, its own slot first where this rank has one that is whole. -/
def restoreSrc (t : State) (x : Ctx) (r : Blob) (own : Bool) (image : Option Blob) (data : Tbl (List Blob)) (i : Nat) : List Blob :=
  (if own && !ledgerPoisoned t x.job (ownOff x x.led.sealedSlot i) (objBytes x.plan i) then [ledgerRead t x.job (ownOff x x.led.sealedSlot i) (objBytes x.plan i)] else []) ++
    fromImage x r image i ++ tgetD data i []
theorem RV.object {s t : State} {c : Nat} {A : Tbl (BitVec 32)} (h : RV s c A t) (r : Blob) (own : Bool) (image : Option Blob) (data : Tbl (List Blob)) (i : Nat) :
    RV s c A (restoreObject t c r own image data i).1 ∧
    (recordObject r i = none → restoreObject t c r own image data i = (t, false)) ∧
    ∀ d v, recordObject r i = some (d, v) →
      (firstMatch d (objBytes (s.ctx c).plan i) (restoreSrc t (s.ctx c) r own image data i) = (none, (restoreSrc t (s.ctx c) r own image data i).length) →
        restoreObject t c r own image data i = (t.modLed c fun l => { l with mismatches := l.mismatches + BitVec.ofNat 32 (restoreSrc t (s.ctx c) r own image data i).length }, false)) ∧
      ∀ b q, firstMatch d (objBytes (s.ctx c).plan i) (restoreSrc t (s.ctx c) r own image data i) = (some b, q) →
        restoreObject t c r own image data i = (ledgerWrite (memWrite (t.modLed c fun l => { l with mismatches := l.mismatches + BitVec.ofNat 32 q }) (objAddr (s.ctx c).plan i) b) (s.ctx c).job (ownOff (s.ctx c) (s.ctx c).led.sealedSlot i) b, true) := by
  have h0 := h
  obtain ⟨⟨m, h1⟩, h2, h3⟩ := h
  have run : restoreObject t c r own image data i = match recordObject r i with
      | none => (t, false)
      | some (d, _) =>
        let q := firstMatch d (objBytes (s.ctx c).plan i) (restoreSrc t (s.ctx c) r own image data i)
        let s1 := t.modLed c fun l => { l with mismatches := l.mismatches + BitVec.ofNat 32 q.2 }
        match q.1 with
        | none => (s1, false)
        | some b => (ledgerWrite (memWrite s1 (objAddr (s.ctx c).plan i) b) (s.ctx c).job (ownOff (s.ctx c) (s.ctx c).led.sealedSlot i) b, true) := by
    unfold restoreObject restoreSrc
    dsimp only
    rw [h1]
    rfl
  have hmod : ∀ n, RV s c A (t.modLed c fun l => { l with mismatches := l.mismatches + BitVec.ofNat 32 n }) := by
    intro n
    refine ⟨⟨m + BitVec.ofNat 32 n, ?_⟩, h2, h3⟩
    rw [ctx_modLed, h1]
  refine ⟨?_, fun hn => by rw [run, hn], fun d v hd => ⟨fun hm => ?_, fun b q hm => ?_⟩⟩
  · rw [run]
    split
    · exact h0
    · dsimp only
      split
      · exact hmod _
      · exact (hmod _).touch ((touches_memWrite _ _ _).trans (touches_ledgerWrite _ _ _ _))
  · rw [run, hd]; dsimp only; rw [hm]
  · rw [run, hd]; dsimp only; rw [hm]
theorem fold_rest {P : State → Prop} (R : State → Nat → State × Bool) : ∀ (l : List Nat), (∀ t i, i ∈ l → P t → P (R t i).1) → ∀ st : State × Bool, P st.1 →
    P (l.foldl (fun (st : State × Bool) i => let o := R st.1 i; (o.1, st.2 && o.2)) st).1 ∧
    ((∀ i ∈ l, ∀ t, P t → (R t i).2 = true) → (l.foldl (fun (st : State × Bool) i => let o := R st.1 i; (o.1, st.2 && o.2)) st).2 = st.2) ∧
    ((∃ i ∈ l, ∀ t, P t → (R t i).2 = false) → (l.foldl (fun (st : State × Bool) i => let o := R st.1 i; (o.1, st.2 && o.2)) st).2 = false) ∧
    (st.2 = false → (l.foldl (fun (st : State × Bool) i => let o := R st.1 i; (o.1, st.2 && o.2)) st).2 = false)
  | [], _, st, h => ⟨h, fun _ => rfl, fun ⟨_, h, _⟩ => (by cases h), fun h => h⟩
  | a :: l, hP, st, h => by
    have h' := hP st.1 a (by simp) h
    obtain ⟨i1, i2, i3, i4⟩ := fold_rest R l (fun t i hi => hP t i (List.mem_cons_of_mem _ hi)) ((R st.1 a).1, st.2 && (R st.1 a).2) h'
    rw [List.foldl_cons]
    refine ⟨i1, fun hh => ?_, fun ⟨i, hi, hh⟩ => ?_, fun hh => i4 (by show (st.2 && _) = false; rw [hh]; rfl)⟩
    · refine (i2 fun i hi => hh i (List.mem_cons_of_mem _ hi)).trans ?_
      show (st.2 && _) = st.2
      rw [hh a (by simp) _ h, Bool.and_true]
    · rcases List.mem_cons.1 hi with hi | hi
      · subst hi
        exact i4 (by show (st.2 && _) = false; rw [hh _ h, Bool.and_false])
      · exact i3 ⟨i, hi, hh⟩
/-- What restarting a context leaves on its cores. -/
theorem expect_fold (V : Nat × Nat × LayerEnt → BitVec 32) : ∀ (l : List (Nat × Nat × LayerEnt)) (s : State),
    (∀ e ∈ l, ∀ f ∈ l, e.1 = f.1 → e.2.1 = f.2.1 → V e = V f) →
    (∀ n, ((l.foldl (fun s e => modUpd s e.1 fun u => { u with expectT := tset u.expectT e.2.1 (V e) }) s).core n).stage = (s.core n).stage ∧
      ((l.foldl (fun s e => modUpd s e.1 fun u => { u with expectT := tset u.expectT e.2.1 (V e) }) s).core n).loss = (s.core n).loss) ∧
    (∀ e, (e ∈ l ∨ tget (s.core e.1).upd.expectT e.2.1 = some (V e) ∧ ∀ f ∈ l, e.1 = f.1 → e.2.1 = f.2.1 → V e = V f) →
      tget ((l.foldl (fun s e => modUpd s e.1 fun u => { u with expectT := tset u.expectT e.2.1 (V e) }) s).core e.1).upd.expectT e.2.1 = some (V e))
  | [], s, _ => ⟨fun _ => ⟨rfl, rfl⟩, fun e h => by
      rcases h with h | h
      · cases h
      · exact h.1⟩
  | a :: l, s, hV => by
    obtain ⟨i1, i2⟩ := expect_fold V l (modUpd s a.1 fun u => { u with expectT := tset u.expectT a.2.1 (V a) }) (fun e he f hf => hV e (List.mem_cons_of_mem _ he) f (List.mem_cons_of_mem _ hf))
    rw [List.foldl_cons]
    refine ⟨fun n => ?_, fun e he => i2 e ?_⟩
    · obtain ⟨j1, j2⟩ := i1 n
      rw [j1, j2]
      unfold modUpd
      by_cases hn : n = a.1
      · subst hn; rw [core_modCore_self]; exact ⟨rfl, rfl⟩
      · rw [core_modCore_other _ _ _ _ hn]; exact ⟨rfl, rfl⟩
    · by_cases hin : e ∈ l
      · exact Or.inl hin
      · right
        have hVe : ∀ f ∈ l, e.1 = f.1 → e.2.1 = f.2.1 → V e = V f := by
          intro f hf
          rcases he with he | he
          · exact hV e he f (List.mem_cons_of_mem _ hf)
          · exact he.2 f (List.mem_cons_of_mem _ hf)
        refine ⟨?_, hVe⟩
        unfold modUpd
        by_cases hn : e.1 = a.1
        · rw [hn, core_modCore_self]
          show tget (tset _ a.2.1 (V a)) e.2.1 = _
          by_cases hi : e.2.1 = a.2.1
          · rw [hi, tget_tset_self]
            congr 1
            rcases he with he | he
            · exact hV a (by simp) e he hn.symm hi.symm
            · exact (he.2 a (by simp) hn hi).symm
          · rw [tget_tset_other _ _ _ _ hi]
            rcases he with he | he
            · rcases List.mem_cons.1 he with he | he
              · exact absurd (by rw [he]) hi
              · exact absurd he hin
            · rw [← hn]; exact he.1
        · rw [core_modCore_other _ _ _ _ hn]
          rcases he with he | he
          · rcases List.mem_cons.1 he with he | he
            · exact absurd (by rw [he]) hn
            · exact absurd he hin
          · exact he.1
theorem keys_id (l : List Nat) : l.map (fun n => n) = l := List.map_id' l
theorem cores_nodup (s : State) (c : Nat) : (coresOf s c).Nodup := List.Nodup.filter _ List.nodup_range
/-- A change of each core of a context, once. -/
theorem fold_ctx_cores {α : Type} (K : Core → α) (f : Core → Core) (s : State) (l : List Nat) (h : l.Nodup) :
    (∀ k, k ∉ l → K ((l.foldl (fun s n => s.modCore n f) s).core k) = K (s.core k)) ∧
    ∀ n ∈ l, (l.foldl (fun s n => s.modCore n f) s).core n = f (s.core n) := by
  have hn : (l.map (fun n => n)).Nodup := by rw [keys_id]; exact h
  have h1 := fold_view (K := fun x => x) (key := fun n : Nat => n) (f := fun s n => s.modCore n f) (g := fun _ x => f x) (fun s m k hk => core_modCore_other _ _ _ _ hk) (fun s m => core_modCore_self _ _ _) l s hn
  rw [keys_id] at h1
  exact ⟨fun k hk => congrArg K (h1.1 k hk), h1.2⟩
/-- What the choice of the layers and of the monitor of a context reads of a core. -/
theorem layers_same {s t : State} {c : Nat} (h : ∀ n, (t.core n).stage.info = (s.core n).stage.info ∧ (t.core n).stage.ctx = (s.core n).stage.ctx) :
    updateLayers t c = updateLayers s c ∧ monitorCore t c = monitorCore s c ∧ coresOf t c = coresOf s c := by
  refine ⟨?_, ?_, ?_⟩
  · unfold updateLayers; simp only [h]
  · unfold monitorCore; simp only [h]
  · unfold coresOf; simp only [h]
theorem layers_value (s : State) (c : Nat) : ∀ e ∈ updateLayers s c, ∃ r, (s.core e.1).stage.info = some r ∧ e.2.2 = LayerEnt.parse r.param e.2.1 := by
  intro e he
  unfold updateLayers at he
  rw [List.mem_flatMap] at he
  obtain ⟨n, _, hn⟩ := he
  split at hn
  · rename_i r hr
    split at hn
    · obtain ⟨i, _, rfl⟩ := List.mem_map.1 hn
      exact ⟨r, hr, rfl⟩
    · cases hn
  · cases hn
theorem restart_cores (s : State) (c : Nat) (step : BitVec 32) (r : Blob) :
    (∀ n ∈ coresOf s c, ((restartAt s c step r).core n).stage = freshStage (s.core n).stage) ∧
    (∀ e ∈ updateLayers s c, tget ((restartAt s c step r).core e.1).upd.expectT e.2.1 = some (tgetD (s.ctx c).tC e.2.2.layer 0)) ∧
    ∀ n, monitorCore s c = some n → ((restartAt s c step r).core n).loss.monitorN = BitVec.ofNat 32 (r.bits 128 32) ∧
      ((restartAt s c step r).core n).loss.monitorMean = BitVec.ofNat 32 (r.bits 160 32) ∧
      ((restartAt s c step r).core n).loss.monitorM2 = BitVec.ofNat 32 (r.bits 192 32) ∧
      ((restartAt s c step r).core n).loss.monitorVar = BitVec.ofNat 32 (r.bits 224 32) := by
  unfold restartAt
  dsimp only
  generalize hs1 : List.foldl _ _ (coresOf s c) = s1
  have c1 : s1.ctxs = s.ctxs := by rw [← hs1]; refine fold_same (g := State.ctxs) ?_ _ _; intro u n; rfl
  obtain ⟨k1, k2⟩ := fold_ctx_cores (fun x => x) (fun k => { k with stage := freshStage k.stage }) s (coresOf s c) (cores_nodup s c)
  rw [hs1] at k1 k2
  generalize hs2 : State.modCtx s1 c _ = s2
  have c2 : s2.ctx c = { s.ctx c with step := { (s.ctx c).step with jobStep := step } } := by rw [← hs2, ctx_modCtx_self, ctx_of c1]
  have k3 : ∀ n, s2.core n = s1.core n := by intro n; rw [← hs2]; rfl
  -- the cores of a new step
  have hnew : ∀ n, ((newStep s2 c).core n).stage = (s2.core n).stage ∧ ((newStep s2 c).core n).upd.expectT = (s2.core n).upd.expectT := by
    intro n
    unfold newStep
    dsimp only
    have e1 : ∀ (l : List (Nat × Nat)) (u : State), (l.foldl (fun s q => s.modQueue q.1 q.2 fun k => { k with outs := k.outs.map fun p => (p.1, { p.2 with draws := 0 }) }) u).cores = u.cores := by
      intro l u; refine fold_same (g := State.cores) ?_ _ _; intro u n; rfl
    have e2 : ∀ (u : State) f, (State.modCtx u c f).core n = u.core n := fun _ _ => rfl
    rw [e2, core_of (e1 _ _)]
    obtain ⟨h1, h2⟩ := fold_ctx_cores (fun x => x) Core.newStep s2 (coresOf s2 c) (cores_nodup s2 c)
    by_cases hn : n ∈ coresOf s2 c
    · rw [h2 n hn]; exact ⟨rfl, rfl⟩
    · have := h1 n hn
      rw [this]; exact ⟨rfl, rfl⟩
  have cnew : ((newStep s2 c).ctx c).tC = (s.ctx c).tC := by
    unfold newStep
    dsimp only
    rw [ctx_modCtx_self]
    generalize hs3 : List.foldl _ _ (queuesOf s2 c) = s3
    have : s3.ctxs = s2.ctxs := by
      rw [← hs3]
      refine Eq.trans (by refine fold_same (g := State.ctxs) ?_ _ _; intro u n; rfl) ?_
      refine fold_same (g := State.ctxs) ?_ _ _; intro u n; rfl
    rw [ctx_of this, c2]
  generalize newStep s2 c = s4 at hnew cnew ⊢
  have st4 : ∀ n, (s4.core n).stage = if n ∈ coresOf s c then freshStage (s.core n).stage else (s.core n).stage := by
    intro n
    rw [(hnew n).1, k3]
    by_cases hn : n ∈ coresOf s c
    · rw [if_pos hn, k2 n hn]
    · rw [if_neg hn]
      have := k1 n hn
      rw [this]
  have inf4 : ∀ n, (s4.core n).stage.info = (s.core n).stage.info ∧ (s4.core n).stage.ctx = (s.core n).stage.ctx := by
    intro n; rw [st4]; split <;> exact ⟨rfl, rfl⟩
  obtain ⟨l1, l2, _⟩ := layers_same (c := c) inf4
  have hV : ∀ e ∈ updateLayers s4 c, ∀ f ∈ updateLayers s4 c, e.1 = f.1 → e.2.1 = f.2.1 → tgetD (s4.ctx c).tC e.2.2.layer 0 = tgetD (s4.ctx c).tC f.2.2.layer 0 := by
    intro e he f hf h1 h2
    obtain ⟨r1, a1, a2⟩ := layers_value s4 c e he
    obtain ⟨r2, b1, b2⟩ := layers_value s4 c f hf
    rw [h1, b1] at a1
    cases a1
    rw [a2, b2, h2]
  obtain ⟨x1, x2⟩ := expect_fold (fun e => tgetD (s4.ctx c).tC e.2.2.layer 0) (updateLayers s4 c) s4 hV
  have hexp : loadExpectT s4 c = (updateLayers s4 c).foldl (fun s e => modUpd s e.1 fun u => { u with expectT := tset u.expectT e.2.1 (tgetD (s4.ctx c).tC e.2.2.layer 0) }) s4 := rfl
  rw [← hexp] at x1 x2
  generalize loadExpectT s4 c = s5 at x1 x2 ⊢
  have m5 : monitorCore s5 c = monitorCore s c := by
    rw [← l2]; exact (layers_same fun n => by rw [(x1 n).1]; exact ⟨rfl, rfl⟩).2.1
  have fin : ∀ n, (sendChecks (reopenQueues (loadMonitor s5 c r) c) c).core n = (loadMonitor s5 c r).core n := by
    intro n
    exact core_of (((touches_sendChecks _ _).2 .cores (by decide)).trans ((touches_reopenQueues _ _).2 .cores (by decide))) n
  simp only [fin]
  have lm : ∀ n, ((loadMonitor s5 c r).core n).stage = (s5.core n).stage ∧ ((loadMonitor s5 c r).core n).upd = (s5.core n).upd := by
    intro n
    unfold loadMonitor
    split
    · exact ⟨rfl, rfl⟩
    · rename_i m _
      by_cases hn : n = m
      · subst hn; rw [core_modCore_self]; exact ⟨rfl, rfl⟩
      · rw [core_modCore_other _ _ _ _ hn]; exact ⟨rfl, rfl⟩
  refine ⟨fun n hn => ?_, fun e he => ?_, fun n hn => ?_⟩
  · rw [(lm n).1, (x1 n).1, st4, if_pos hn]
  · rw [(lm _).2, ← cnew]
    exact x2 e (Or.inl (by rw [l1]; exact he))
  · unfold loadMonitor
    rw [m5, hn]
    dsimp only
    rw [core_modCore_self]
    exact ⟨rfl, rfl, rfl, rfl⟩
/-- What offering the next rank of a rejoin keeps. -/
theorem rejoin_keep {α : Type} {g : Ctx → α} (hb : Blind g) (hl : LB g) (hg : ∀ (x : Ctx) a b, g { x with led := { x.led with recovery := a, noSpare := b } } = g x) (s : State) (c : Nat) (v : Recovery)
    (hr : (s.ctx c).led.recovery = some v) (hj : v.rejoin = true) : g ((bindNext s c).ctx c) = g (s.ctx c) := by
  unfold bindNext
  rw [hr]
  dsimp only
  cases v.unbound with
  | nil => rfl
  | cons r l =>
    dsimp only
    cases hs : chooseSpare s c r v.tried with
    | some a =>
      dsimp only
      refine (CK.sendCtrlTo hb hl _ c a _ c).trans ?_
      rw [ctx_modLed]
      exact hg (s.ctx c) _ _
    | none =>
      dsimp only
      rw [if_pos hj, ctx_modLed]
      exact hg (s.ctx c) _ _

end Sys2Proof.Laws.RecoveryFinish
end

