-- ==== Sys2Proof/Laws/FactsRecoveryStart.lean ====
section
/-!
SUPPORT. Lemmas on the start of a recovery, for the statements about them.
-/

open Sys2Proof Sys2Proof.Machine Sys2Proof.Claims

namespace Sys2Proof.Laws.RecoveryStart



end Sys2Proof.Laws.RecoveryStart
end

