-- ==== Sys2Proof/Laws/FactsRegions.lean ====
section
/-!
SUPPORT. Lemmas on management requests and imprint regions, for the statements about them.
-/

open Sys2Proof Sys2Proof.Machine Sys2Proof.Claims

namespace Sys2Proof.Laws.Regions

theorem off_ne {s : State} (h : mgmtMode s ≠ .off) : mgmtMode s = .rom ∨ mgmtMode s = .firmware := by
  cases hm : mgmtMode s
  · exact absurd hm h
  · exact Or.inl rfl
  · exact Or.inr rfl
theorem req_off {s : State} {r : Blob} {o : Nat} {b : Bool} {l : Nat → Bool} {op : State → Blob → State × Nat × Blob} (h : mgmtMode s = .off) : request s r o b l op = s := by
  unfold request; rw [h]
theorem req_frame {s : State} {r : Blob} {o : Nat} {b : Bool} {l : Nat → Bool} {op : State → Blob → State × Nat × Blob} (h : mgmtMode s ≠ .off) (hr : reqIntact r = false) :
    request s r o b l op = respond s (reqOpcode r) (reqTag r) 1 Blob.empty := by
  unfold request
  rcases off_ne h with h | h <;> rw [h] <;> dsimp only <;> rw [hr] <;> rfl
theorem req_op {s : State} {r : Blob} {o : Nat} {b : Bool} {l : Nat → Bool} {op : State → Blob → State × Nat × Blob} (h : mgmtMode s ≠ .off) (hr : reqIntact r = true)
    (ho : reqOpcode r ≠ o ∨ mgmtMode s = .rom ∧ b = false) : request s r o b l op = respond s (reqOpcode r) (reqTag r) 2 Blob.empty := by
  unfold request
  rcases off_ne h with h | h <;> rw [h] <;> dsimp only <;> rw [hr, if_neg (by decide)]
  · rw [if_pos (by rcases ho with h | h <;> simp [h])]
  · rw [if_pos (by rcases ho with h' | h'; simp [h']; rw [h] at h'; cases h'.1)]
theorem said (s : State) (r : Blob) (n : Nat) (b : Blob) : Replied s (respond s (reqOpcode r) (reqTag r) n b) r n b ∧ respond s (reqOpcode r) (reqTag r) n b = { s with mgmt := (respond s (reqOpcode r) (reqTag r) n b).mgmt } := ⟨replied rfl _ _ _, rfl⟩
theorem pack_id (a b c d e f : Nat) (x : Blob) (h : x = ⟨28, packFields [(a, 32), (b, 64), (c, 32), (d, 32), (e, 32), (f, 32)]⟩) (hb : b < 2 ^ 64) (hc : c < 2 ^ 32) : x.bits 32 64 = b ∧ x.bits 96 32 = c := by
  have hv : x.val = a % 2 ^ 32 + 2 ^ 32 * (b % 2 ^ 64 + 2 ^ 64 * (c % 2 ^ 32 + 2 ^ 32 * packFields [(d, 32), (e, 32), (f, 32)])) := by rw [h]; rfl
  generalize packFields [(d, 32), (e, 32), (f, 32)] = z at hv
  constructor
  · show x.val / 2 ^ 32 % 2 ^ 64 = b
    rw [hv]; omega
  · show x.val / 2 ^ 96 % 2 ^ 32 = c
    rw [hv]; omega
theorem rom_false {s : State} {region : Nat} (h : mgmtMode s = .firmware ∨ region = 1 ∨ region = 2) : romRegion s region = false := by
  unfold romRegion
  rcases h with h | h | h <;> rw [h] <;> simp <;> decide
theorem slot_set (s : State) (b : Bool) (x : FwSlot) : fwSlot (setSlot s b x) b = x := by cases b <;> rfl
theorem slot_of {s t : State} (h : t.imprint.slotA = s.imprint.slotA ∧ t.imprint.slotB = s.imprint.slotB) (b : Bool) : fwSlot t b = fwSlot s b := by
  unfold fwSlot; rw [h.1, h.2]
theorem set_slot_facts (s : State) (b : Bool) (x : FwSlot) : (setSlot s b x).imprint.writes = s.imprint.writes ∧ (setSlot s b x).imprint.fabric = s.imprint.fabric ∧ (setSlot s b x).imprint.ownerLayer = s.imprint.ownerLayer ∧ (setSlot s b x).mgmt = s.mgmt := by
  cases b <;> exact ⟨rfl, rfl, rfl, rfl⟩
theorem erase_facts (s : State) (n : Nat) : (eraseRegion s n).imprint.fabric = s.imprint.fabric ∧ (eraseRegion s n).imprint.ownerLayer = s.imprint.ownerLayer ∧ (eraseRegion s n).mgmt = s.mgmt := by
  unfold eraseRegion
  split
  · exact (set_slot_facts _ _ _).2
  · exact ⟨rfl, rfl, rfl⟩
theorem write_op (s : State) (p : Blob) (region off : Nat) (d : Blob) (hr : p.byte 0 = region) (ho : p.bits 32 32 = off) (hd : p.slice 8 (p.len - 8) = d)
    (h : regionRefusal s region = none) (b : Blob) (hb : (if off = 0 then some Blob.empty else tget s.imprint.writes region) = some b) (h1 : off = b.len) (h2 : off + d.len ≤ regionBytes region) :
    ∃ u, imprintWriteOp s p = (u, 0) ∧ u.mgmt = s.mgmt ∧ tget u.imprint.writes region = some (Blob.append b d) ∧ (region ≤ 2 → fwSlot u (decide (region = 2)) = { data := Blob.append b d }) ∧
      u.imprint.fabric = s.imprint.fabric ∧ u.imprint.ownerLayer = s.imprint.ownerLayer := by
  unfold imprintWriteOp
  dsimp only
  rw [hr, ho, hd, h]
  dsimp only
  rw [hb]
  dsimp only
  rw [if_neg (by simp [h1]; omega)]
  have e : ∃ v, (if off = 0 then eraseRegion s region else s) = v ∧ v.imprint.fabric = s.imprint.fabric ∧ v.imprint.ownerLayer = s.imprint.ownerLayer ∧ v.mgmt = s.mgmt := by
    refine ⟨_, rfl, ?_⟩
    split
    · exact erase_facts _ _
    · exact ⟨rfl, rfl, rfl⟩
  obtain ⟨v, hv, v1, v2, v3⟩ := e
  rw [hv]
  by_cases hs : region ≤ 2
  · rw [if_pos hs]
    obtain ⟨a1, a2, a3, a4⟩ := set_slot_facts v (regionSlot region) { data := Blob.append b d }
    have a5 := slot_set v (regionSlot region) { data := Blob.append b d }
    generalize setSlot v _ _ = w at a1 a2 a3 a4 a5 ⊢
    exact ⟨_, rfl, a4.trans v3, tget_tset_self _ _ _, fun _ => a5, a2.trans v1, a3.trans v2⟩
  · rw [if_neg hs]
    exact ⟨_, rfl, v3, tget_tset_self _ _ _, fun h => absurd h hs, v1, v2⟩
theorem req_len {s : State} {r : Blob} {o : Nat} {b : Bool} {l : Nat → Bool} {op : State → Blob → State × Nat × Blob} (h : Requested s r o b) (hl : l (r.len - 6) = false) :
    request s r o b l op = respond s (reqOpcode r) (reqTag r) 1 Blob.empty := by
  obtain ⟨h1, h2, h3⟩ := h
  unfold request
  rcases h3 with h | ⟨h, hb⟩ <;> rw [h] <;> dsimp only <;> rw [h1, if_neg (by decide)]
  · rw [if_neg (by simp [h2]), if_pos (by rw [hl]; rfl)]
  · rw [if_neg (by simp [h2, hb]), if_pos (by rw [hl]; rfl)]

end Sys2Proof.Laws.Regions
end

