-- ==== Sys2Proof/Laws/FactsRemoteOps.lean ====
section
/-!
SUPPORT. Lemmas on remote accesses, for the statements about them.
-/

open Sys2Proof Sys2Proof.Machine Sys2Proof.Claims

namespace Sys2Proof.Laws.RemoteOps

theorem admit_tx : ∀ (n : Nat) (s : State) (c : TxConn), (admitAll n s c).1.fab.tx = s.fab.tx ∧ (admitAll n s c).2.peer = c.peer ∧ (admitAll n s c).2.job = c.job ∧ (admitAll n s c).2.channel = c.channel
  | 0, s, c => ⟨rfl, rfl, rfl, rfl⟩
  | n + 1, s, c => by
    unfold admitAll
    have tk : c.takeSlot.1.peer = c.peer ∧ c.takeSlot.1.job = c.job ∧ c.takeSlot.1.channel = c.channel := by
      unfold TxConn.takeSlot
      split
      · split <;> exact ⟨rfl, rfl, rfl⟩
      · exact ⟨rfl, rfl, rfl⟩
    split
    · rename_i c' k hk
      rw [hk] at tk
      dsimp only
      obtain ⟨a, b, d, e⟩ := admit_tx n (match pathFor s c.peer c.flow.toNat with
        | some p => transmit s k.kind c.peer c.channel c.flow.toNat p k.tseq k.payload c.job k.operand
        | none => s) c'
      refine ⟨a.trans ?_, b.trans tk.1, d.trans tk.2.1, e.trans tk.2.2⟩
      split
      · obtain ⟨L, e⟩ := transmit_tx s k.kind c.peer c.channel c.flow.toNat (by assumption) k.tseq k.payload c.job k.operand
        rw [e]
      · rfl
    · rename_i c' hk
      rw [hk] at tk
      exact ⟨rfl, tk⟩
theorem find_put (l : List TxConn) (c c' : TxConn) (peer : Nat) (job : BitVec 32) (ch : Nat) (hf : l.find? (fun d => d.peer = peer && d.job = job && d.channel = ch) = some c) (h1 : c'.peer = peer) (h2 : c'.job = job) (h3 : c'.channel = ch) :
    (l.map fun d => if d.peer = c'.peer && d.job = c'.job && d.channel = c'.channel then c' else d).find? (fun d => d.peer = peer && d.job = job && d.channel = ch) = some c' := by
  subst h1 h2 h3
  exact find_map (fun d : TxConn => decide (d.peer = c'.peer) && decide (d.job = c'.job) && decide (d.channel = c'.channel)) (fun _ => c') (fun _ _ => by simp) l c hf
theorem find_key (l : List TxConn) (c : TxConn) (peer : Nat) (job : BitVec 32) (ch : Nat) (hf : l.find? (fun d => d.peer = peer && d.job = job && d.channel = ch) = some c) : c.peer = peer ∧ c.job = job ∧ c.channel = ch := by
  have := List.find?_some hf
  simpa [and_assoc] using this
theorem commit_fold (s : State) (c : Nat) (f : Commit → Commit) : (s.modCommit c f).mem = s.mem ∧ (s.modCommit c f).fab = s.fab := ⟨rfl, rfl⟩
theorem gather_keeps (s : State) (c r a : Nat) (d : Blob) : (gatherRecord s c r a d).mem = s.mem ∧ (gatherRecord s c r a d).fab = s.fab := by
  unfold gatherRecord
  dsimp only
  have key : ∀ (b : Prop) [Decidable b] (x y : State), (x.mem = s.mem ∧ x.fab = s.fab) → (y.mem = s.mem ∧ y.fab = s.fab) → ((if b then x else y).mem = s.mem ∧ (if b then x else y).fab = s.fab) := by
    intro b _ x y hx hy; split <;> assumption
  exact key _ _ _ ⟨rfl, rfl⟩ ⟨rfl, rfl⟩
theorem copy_keeps (s : State) (c off n : Nat) : (copyArrived s c off n).mem = s.mem ∧ (copyArrived s c off n).fab = s.fab := by
  unfold copyArrived
  dsimp only
  generalize s.ctx c = x
  generalize wardObjects x = l
  have inner : ∀ (i : Nat) (l : List Nat) (u : State) (F : State → Nat → State), (∀ u t, (F u t).mem = u.mem ∧ (F u t).fab = u.fab) →
      (l.foldl F u).mem = u.mem ∧ (l.foldl F u).fab = u.fab := by
    intro i l
    induction l with
    | nil => intro u F h; exact ⟨rfl, rfl⟩
    | cons a l ih => intro u F h; rw [List.foldl_cons, (ih _ F h).1, (ih _ F h).2]; exact h _ _
  refine inner 0 l s _ fun u i => inner 0 _ u _ fun u t => ?_
  split <;> exact ⟨rfl, rfl⟩
theorem answer_mem (s : State) (p : Pkt) (d : Bool) (b : Blob) : (answerRead s p d b).mem = s.mem ∧ (answerRead s p d b).fab.remoteDenied = s.fab.remoteDenied := by
  have h := touches_answerRead s p d b
  have f : FS s (answerRead s p d b) := FS.sendPacket _ _ _ _ _ _ _
  obtain ⟨L, T, n, e⟩ := f.fab
  refine ⟨?_, by rw [e]⟩
  obtain ⟨a1, a2, a3, a4, a5, a6⟩ := h.2 .tiers (by decide)
  have a7 := h.2 .bytes (by decide)
  have a8 := h.2 .granules (by decide)
  simp only [Part.same] at a7 a8
  cases h1 : (answerRead s p d b).mem; cases h2 : s.mem
  rw [h1, h2] at a1 a2 a3 a4 a5 a6 a7 a8
  simp_all
theorem admit_all : ∀ (n : Nat) (s : State) (c : TxConn), 64 - c.held.length ≤ n →
    (admitAll n s c).2 = { c with
      held := c.held ++ (c.waiting.take (64 - c.held.length)).mapIdx (fun i k => { k with tseq := c.next + BitVec.ofNat 32 i })
      waiting := c.waiting.drop (c.waiting.take (64 - c.held.length)).length
      next := c.next + BitVec.ofNat 32 (c.waiting.take (64 - c.held.length)).length }
  | 0, s, c, h => by
    have : 64 - c.held.length = 0 := by omega
    rw [this]
    simp [admitAll]
  | n + 1, s, c, h => by
    unfold admitAll TxConn.takeSlot
    cases hw : c.waiting with
    | nil => cases c; simp_all
    | cons k l =>
      by_cases hl : c.held.length < 64
      · dsimp only
        rw [if_pos hl]
        dsimp only
        rw [admit_all n _ _ (by simp; omega)]
        dsimp only
        obtain ⟨m, hm⟩ : ∃ m, 64 - c.held.length = m + 1 := ⟨63 - c.held.length, by omega⟩
        rw [hm, List.length_append, List.length_singleton, show 64 - (c.held.length + 1) = m by omega]
        simp only [List.take_succ_cons, List.mapIdx_cons, List.length_cons, List.drop_succ_cons, List.append_assoc, List.singleton_append]
        have e : ∀ i : Nat, c.next + 1 + BitVec.ofNat 32 i = c.next + BitVec.ofNat 32 (i + 1) := by
          intro i; rw [BitVec.add_assoc, BitVec.ofNat_add, BitVec.add_comm (BitVec.ofNat 32 i)]
          rfl
        rw [e]
        congr 1
        congr 1
        congr 1
        · simp
        · congr 1; funext i k; rw [e]
      · have : 64 - c.held.length = 0 := by omega
        dsimp only
        rw [if_neg hl, this]
        cases c; simp_all
theorem admit_keeps (n : Nat) (s : State) (c : TxConn) : (admitAll n s c).1.fab.rx = s.fab.rx ∧ (admitAll n s c).1.mem = s.mem ∧ (admitAll n s c).1.ctxs = s.ctxs ∧ (admitAll n s c).1.cores = s.cores := by
  have h := touches_admitAll n s c
  obtain ⟨L, T, m, e⟩ := (FS.admitAll n s c).fab
  exact ⟨by rw [e], mem_of h (by decide) (by decide) (by decide), h.2 .ctxs (by decide), h.2 .cores (by decide)⟩
theorem stalls_of {s s0 : State} {h k : Nat} {p : Pkt} (f : Pkt → Nat × Nat) (ht : takePacket s h k = some (p, s0)) : packetStalls s h k f = rangeStalls s (f p).1 (f p).2 := by
  simp only [packetStalls, ht]
theorem refused {s s0 t : State} {h k : Nat} {p : Pkt} (hh : h < 16) (ht : takePacket s h k = some (p, s0)) (ha : acceptPacket s0 p = (t, false)) :
    (k = 2 → rangeStalls s (p.payload.bits 0 44) (p.payload.len - 8) = false → exec (.write h) s = .next t) ∧
    (k = 3 → rangeStalls s (p.payload.bits 0 44) p.operand = false → exec (.read h) s = .next t) ∧
    (k = 4 → exec (.readData h) s = .next t) := by
  refine ⟨fun e g => ?_, fun e g => ?_, fun e => ?_⟩
  · subst e
    rw [show exec (.write h) s = .next (write s h) by simp [exec, execWrite, withUnit, hh]]
    apply next_congr
    unfold write
    rw [stalls_of _ ht, if_neg (by rw [g]; simp)]
    simp only [ht, ha]
  · subst e
    rw [show exec (.read h) s = .next (Machine.read s h) by simp [exec, execRead, withUnit, hh]]
    apply next_congr
    unfold Machine.read
    rw [stalls_of _ ht, if_neg (by rw [g]; simp)]
    simp only [ht, ha]
  · subst e
    rw [show exec (.readData h) s = .next (readData s h) by simp [exec, execReadData, withUnit, hh]]
    apply next_congr
    simp only [readData, ht, ha]

end Sys2Proof.Laws.RemoteOps
end

