-- ==== Sys2Proof/Laws/FactsResets.lean ====
section
/-!
SUPPORT. Lemmas on resets of the dies, for the statements about them.
-/

open Sys2Proof Sys2Proof.Machine Sys2Proof.Claims

namespace Sys2Proof.Laws.Resets

theorem warn_leave : ∀ (l : List Nat) (u : State) (h : Nat), h ∈ l ∨ (u.link h).leaving = 64 → (u.link h).isUp = true →
    ((l.foldl (fun s h => if (s.link h).isUp then s.modLink h fun l => { l with leaving := 64 } else s) u).link h).leaving = 64
  | [], u, h, hm, hu => by simpa using hm
  | a :: l, u, h, hm, hu => by
    rw [List.foldl_cons]
    by_cases e : h = a
    · subst e
      rw [if_pos hu]
      have k : ((u.modLink h fun l => { l with leaving := 64 }).link h) = { u.link h with leaving := 64 } := by
        unfold State.modLink State.link; exact tgetD_tset_self _ _ _ _
      exact warn_leave l _ h (Or.inr (by rw [k])) (by rw [k]; exact hu)
    · have k : (if (u.link a).isUp then u.modLink a fun l => { l with leaving := 64 } else u).link h = u.link h := by
        split
        · unfold State.modLink State.link; exact tgetD_tset_other _ _ _ _ _ e
        · rfl
      refine warn_leave l _ h ?_ (by rw [k]; exact hu)
      rcases hm with hm | hm
      · rcases List.mem_cons.mp hm with hm | hm
        · exact absurd hm e
        · exact Or.inl hm
      · exact Or.inr (by rw [k]; exact hm)
theorem release (s : State) (h1 : s.pins.diesInReset = true) (h2 : s.pins.inRange = true) (h3 : s.pins.tripLatched = false) (h4 : s.pins.modResetN = true) :
    Began s (releaseDies s) ∧ (releaseDies s).pins = { s.pins with diesInReset := false } ∧ (releaseDies s).variant = s.variant ∧ (releaseDies s).mu = s.mu ∧ (releaseDies s).imprint = s.imprint ∧ (releaseDies s).pending = s.pending ∧ (releaseDies s).sec = s.sec := by
  have e : releaseDies s = beginBringup s := by
    unfold releaseDies
    rw [if_neg (by simp [diesHeld, h1, h2, h3, h4])]
  rw [e]
  exact ⟨⟨rfl, rfl, rfl, rfl⟩, rfl, rfl, rfl, rfl, rfl, rfl⟩
theorem hold (s : State) (h : s.pins.diesInReset = false ∨ s.pins.inRange = false ∨ s.pins.tripLatched = true ∨ s.pins.modResetN = false) : releaseDies s = s := by
  unfold releaseDies
  rw [if_pos]
  rcases h with h | h | h | h <;> simp [diesHeld, h]
theorem warned (v : State) : (warnDies v).pins = v.pins ∧ (warnDies v).power = v.power ∧ ∀ h, h < 16 → (v.link h).isUp = true → ((warnDies v).link h).leaving = 64 := by
  have hw := touches_warnDies v
  refine ⟨hw.2 .pins (by decide), hw.2 .power (by decide), fun h hh hup => ?_⟩
  unfold warnDies
  have hs := touches_settleWrites v
  have e : ∀ h, (settleWrites v).link h = v.link h := by intro h; unfold State.link; rw [show (settleWrites v).fab = v.fab from hs.2 .fab (by decide)]
  exact warn_leave linkNumbers (settleWrites v) h (Or.inl (List.mem_range.mpr hh)) (by rw [e]; exact hup)
theorem asserted (s v : State) (hv : v = { s with pins := { s.pins with modResetN := false, resetRequested := true }, power := { s.power with nextCause := 1 } }) :
    modResetAssert s = if s.pins.diesInReset then v else warnDies v := by rw [hv]; rfl

end Sys2Proof.Laws.Resets
end

