-- ==== Sys2Proof/Laws/FactsRings.lean ====
section
/-!
SUPPORT. Lemmas on rings, for the statements about them.
-/

open Sys2Proof Sys2Proof.Machine Sys2Proof.Claims

namespace Sys2Proof.Laws.Rings

theorem ring_modRing_self (s : State) (q : Nat) (f : Ring → Ring) : (s.modRing q f).ring q = f (s.ring q) := by
  simp [State.modRing, State.modHost, State.ring]
theorem ring_modRing_other (s : State) (q p : Nat) (f : Ring → Ring) (h : p ≠ q) : (s.modRing q f).ring p = s.ring p := by
  simp [State.modRing, State.modHost, State.ring, h]
theorem served_iff (s : State) : hostServed s = true ↔ s.host.live = true ∧ s.host.inReset = false := by
  simp [hostServed]

end Sys2Proof.Laws.Rings
end

