-- ==== Sys2Proof/Laws/FactsSegments.lean ====
section
/-!
SUPPORT. Lemmas on Ethernet segments and exports, for the statements about them.
-/

open Sys2Proof Sys2Proof.Machine Sys2Proof.Claims

namespace Sys2Proof.Laws.Segments

theorem takeSeg {s : State} {src typ : Nat} {g : Seg} (h : (s.fab.segs.find? fun g => g.src = src && g.typ = typ) = some g) :
    takeSegment s src typ = some (g, s.modFab fun f => { f with segs := f.segs.erase g }) := by
  unfold takeSegment; rw [h]
theorem link_modLinkCtr (s : State) (h : Nat) (f : LinkCtr → LinkCtr) : (s.modLinkCtr h f).link h = { s.link h with ctr := f (s.link h).ctr } := by
  unfold State.modLinkCtr; rw [link_modLink_self]
theorem link_modLinkCtr_other (s : State) (h k : Nat) (f : LinkCtr → LinkCtr) (hk : k ≠ h) : (s.modLinkCtr h f).link k = s.link k := by
  unfold State.modLinkCtr; rw [link_modLink_other _ _ _ _ hk]
/-- What putting frames keeps of the links. -/
def KL (s t : State) : Prop := ∀ k, (t.link k).ctr.ethIn = (s.link k).ctr.ethIn ∧ (t.link k).arp = (s.link k).arp ∧ (t.link k).ctr.outOfOrder = (s.link k).ctr.outOfOrder ∧
  (t.link k).ctr.fecCorrected = (s.link k).ctr.fecCorrected ∧ (t.link k).ctr.fecUncorrectable = (s.link k).ctr.fecUncorrectable ∧ (t.link k).ctr.pfc = (s.link k).ctr.pfc ∧ (t.link k).paused = (s.link k).paused
theorem KL.refl (s : State) : KL s s := fun _ => ⟨rfl, rfl, rfl, rfl, rfl, rfl, rfl⟩
theorem KL.trans {s t u : State} (h : KL s t) (k : KL t u) : KL s u := fun x => by
  obtain ⟨a1, a2, a3, a4, a5, a6, a7⟩ := h x
  obtain ⟨b1, b2, b3, b4, b5, b6, b7⟩ := k x
  exact ⟨b1.trans a1, b2.trans a2, b3.trans a3, b4.trans a4, b5.trans a5, b6.trans a6, b7.trans a7⟩
theorem KL.modLink (s : State) (h : Nat) (f : Link → Link) (hf : ∀ l, (f l).ctr.ethIn = l.ctr.ethIn ∧ (f l).arp = l.arp ∧ (f l).ctr.outOfOrder = l.ctr.outOfOrder ∧
  (f l).ctr.fecCorrected = l.ctr.fecCorrected ∧ (f l).ctr.fecUncorrectable = l.ctr.fecUncorrectable ∧ (f l).ctr.pfc = l.ctr.pfc ∧ (f l).paused = l.paused) : KL s (s.modLink h f) := by
  intro k
  by_cases hk : k = h
  · subst hk; rw [link_modLink_self]; exact hf _
  · rw [link_modLink_other _ _ _ _ hk]; exact ⟨rfl, rfl, rfl, rfl, rfl, rfl, rfl⟩
theorem KL.put (s : State) (h : Nat) (o : EthOut) : KL s (ethPut s h o) := KL.modLink _ _ _ fun l => by
  cases hp : l.paused <;> simp [hp]
theorem KL.ofFS {s t : State} (h : FS s t) : KL s t := fun k => by
  obtain ⟨_, _, e⟩ := h.links k; rw [e]; exact ⟨rfl, rfl, rfl, rfl, rfl, rfl, rfl⟩
theorem KL.ethSend (s : State) (h ip port hdr : Nat) (d : Blob) : KL s (ethSend s h ip port hdr d) := by
  unfold Machine.ethSend
  dsimp only
  split
  · exact KL.refl _
  · split
    · exact KL.put _ _ _
    · exact KL.trans (KL.modLink _ _ (fun l => { l with unresolved := l.unresolved ++ [.segment ip port hdr d] }) fun _ => ⟨rfl, rfl, rfl, rfl, rfl, rfl, rfl⟩) (KL.put _ _ _)
theorem KL.sendSegment (s : State) (c e hdr : Nat) (d : Blob) : KL s (sendSegment s c e hdr d) := by
  unfold Machine.sendSegment
  dsimp only
  split
  · split
    · exact KL.ofFS (FS.sendPacket _ _ _ _ _ _ _)
    · exact KL.refl _
  · exact KL.ethSend _ _ _ _ _ _
theorem KL.free (s : State) (w : Nat) : KL s (s.free w).2 := fun _ => ⟨rfl, rfl, rfl, rfl, rfl, rfl, rfl⟩
theorem KL.sendSegAck (s : State) (c e : Nat) : KL s (sendSegAck s c e) := by
  unfold Machine.sendSegAck
  dsimp only
  split
  · exact KL.sendSegment _ _ _ _ _
  · exact KL.trans (KL.free s 32) (KL.sendSegment _ _ _ _ _)
theorem KL.foldl {β : Type} {f : State → β → State} (hf : ∀ s a, KL s (f s a)) : ∀ (l : List β) (s : State), KL s (l.foldl f s)
  | [], s => KL.refl s
  | a :: l, s => (hf s a).trans (KL.foldl hf l _)
theorem learn_facts (s : State) (h ip mac : Nat) : ((ethLearn s h ip mac).link h).ctr.ethIn = (s.link h).ctr.ethIn ∧ ((ethLearn s h ip mac).link h).arp.getLast? = some (ip, mac) ∧
    ((ethLearn s h ip mac).link h).ctr.fecCorrected = (s.link h).ctr.fecCorrected ∧ ((ethLearn s h ip mac).link h).ctr.fecUncorrectable = (s.link h).ctr.fecUncorrectable ∧ ((ethLearn s h ip mac).link h).paused = (s.link h).paused := by
  unfold ethLearn
  dsimp only
  generalize hg : List.filter _ _ = go
  have h1 := KL.foldl (f := fun s o => ethPut s h o) (fun s o => KL.put s h o) go
    ((s.modLink h fun l =>
      { l with arp := (if 1024 ≤ (l.arp.filter fun p => decide (p.1 ≠ ip)).length then (l.arp.filter fun p => decide (p.1 ≠ ip)).drop 1 else (l.arp.filter fun p => decide (p.1 ≠ ip))) ++ [(ip, mac)] }).modLink h fun l => { l with unresolved := l.unresolved.filter fun o => !(match o with | .segment d _ _ _ => decide (nextHop s h d = ip) | _ => false) }) h
  refine ⟨Eq.trans h1.1 ?_, Eq.trans (congrArg List.getLast? h1.2.1) ?_, Eq.trans h1.2.2.2.1 ?_, Eq.trans h1.2.2.2.2.1 ?_, Eq.trans h1.2.2.2.2.2.2 ?_⟩
  · rw [link_modLink_self, link_modLink_self]
  · rw [link_modLink_self, link_modLink_self]
    simp
  · rw [link_modLink_self, link_modLink_self]
  · rw [link_modLink_self, link_modLink_self]
  · rw [link_modLink_self, link_modLink_self]
theorem CKseg {α : Type} {g : Ctx → α} (hb : Blind g) (s : State) (c e : Nat) : CK g s (Machine.sendSegAck s c e) := by
  unfold Machine.sendSegAck
  dsimp only
  split
  · exact CK.sendSegment hb _ _ _ _ _
  · exact CK.trans (CK.free s 32) (CK.sendSegment hb _ _ _ _ _)
/-- What resuming to send does at a link. -/
theorem resume_facts (s : State) (h : Nat) : ((ethResume s h).link h).paused = false ∧ ((ethResume s h).link h).ethHeld = [] ∧
    ((ethResume s h).link h).eth = (s.link h).eth ++ (s.link h).ethHeld ∧
    ((ethResume s h).link h).ctr.ethIn = (s.link h).ctr.ethIn ∧ ((ethResume s h).link h).ctr.pfc = (s.link h).ctr.pfc ∧
    ((ethResume s h).link h).ctr.fecCorrected = (s.link h).ctr.fecCorrected ∧ ((ethResume s h).link h).ctr.fecUncorrectable = (s.link h).ctr.fecUncorrectable := by
  unfold ethResume
  dsimp only
  have gen : ∀ (l : List EthOut) (u : State), (u.link h).paused = false → (u.link h).ethHeld = [] →
      ((l.foldl (fun s o => ethPut s h o) u).link h).paused = false ∧ ((l.foldl (fun s o => ethPut s h o) u).link h).ethHeld = [] ∧
      ((l.foldl (fun s o => ethPut s h o) u).link h).eth = (u.link h).eth ++ l := by
    intro l
    induction l with
    | nil => intro u h1 h2; exact ⟨h1, h2, by simp⟩
    | cons a l ih =>
      intro u h1 h2
      have hp : (ethPut u h a).link h = { u.link h with eth := (u.link h).eth ++ [a], ctr := { (u.link h).ctr with ethOut := (u.link h).ctr.ethOut + 1 } } := by
        unfold ethPut
        rw [link_modLink_self, if_neg (by rw [h1]; simp)]
      rw [List.foldl_cons]
      obtain ⟨a1, a2, a3⟩ := ih (ethPut u h a) (by rw [hp]; exact h1) (by rw [hp]; exact h2)
      refine ⟨a1, a2, ?_⟩
      rw [a3, hp]
      simp
  have hu := link_modLink_self s h fun l => { l with paused := false, ethHeld := [] }
  have k := KL.foldl (f := fun s o => ethPut s h o) (fun s o => KL.put s h o) (s.link h).ethHeld (s.modLink h fun l => { l with paused := false, ethHeld := [] }) h
  obtain ⟨a1, a2, a3⟩ := gen (s.link h).ethHeld (s.modLink h fun l => { l with paused := false, ethHeld := [] }) (by rw [hu]) (by rw [hu])
  rw [hu] at a3 k
  exact ⟨a1, a2, a3, k.1, k.2.2.2.2.2.1, k.2.2.2.1, k.2.2.2.2.1⟩
theorem exportSend_facts (c e limit : Nat) (D : Blob) (A m : Nat) (hm : m = min D.len limit) : ∀ (n : Nat) (s : State) (r : ExportRun), (s.ctx c).exporting = some r → r.data = D → r.acked = A →
    (∃ q, ((exportSend c e limit n s).ctx c).exporting = some q ∧ { q with sent := 0 } = { r with sent := 0 } ∧ (r.sent ≤ m → m ≤ n + r.sent → q.sent = m)) ∧ ((exportSend c e limit n s).ctx c).led.exports = (s.ctx c).led.exports
  | 0, s, r, h, h1, h2 => ⟨⟨r, h, rfl, fun h _ => by omega⟩, rfl⟩
  | n + 1, s, r, h, h1, h2 => by
    unfold exportSend
    rw [h]
    dsimp only
    split
    · rename_i h0
      refine ⟨⟨r, h, rfl, fun _ _ => ?_⟩, rfl⟩
      rw [h1] at h0
      have : 1 ≤ max 1 (segmentRoom s c e) := by omega
      omega
    · rename_i h0
      generalize hlen : min (max 1 (segmentRoom s c e)) (min r.data.len limit - r.sent) = len at h0 ⊢
      generalize hs : Machine.sendSegment s c e _ _ = s1
      have hx : (s1.ctx c).led.exports = (s.ctx c).led.exports := by
        rw [← hs]; exact CK.sendSegment (g := fun x => x.led.exports) (fun _ _ _ _ => rfl) _ _ _ _ _ c
      rw [h1] at hlen
      obtain ⟨⟨q, a, b, d⟩, f⟩ := exportSend_facts c e limit D A m hm n (s1.modCtx c fun x => { x with exporting := some { r with sent := r.sent + len } }) { r with sent := r.sent + len } (by rw [ctx_modCtx_self]) h1 h2
      refine ⟨⟨q, a, b, fun hh hk => d (by show r.sent + len ≤ m; omega) ?_⟩, ?_⟩
      · show m ≤ n + (r.sent + len)
        omega
      · rw [f, ctx_modCtx_self]; exact hx

end Sys2Proof.Laws.Segments
end

