-- ==== Sys2Proof/Laws/FactsSessions.lean ====
section
/-!
SUPPORT. Lemmas on multicast sessions, for the statements about them.
-/

open Sys2Proof Sys2Proof.Machine Sys2Proof.Claims

namespace Sys2Proof.Laws.Sessions

theorem takeFor_facts {s s1 : State} {h k c : Nat} {p : Pkt} (e : takeFor s h k = (s1, some (p, c))) : ∃ L R n, s1 = { s with fab := { s.fab with links := L, rx := R }, freeCtr := n } := by
  unfold takeFor at e
  split at e
  · injection e with _ e; cases e
  · rename_i q s0 ht
    split at e
    · injection e with _ e; cases e
    · split at e
      · rename_i s2 ha
        injection e with e1 e2
        injection e2 with e2
        injection e2 with e2 e3
        subst e1 e2
        exact delivered_fab ⟨s0, ht, ha⟩
      · injection e with _ e; cases e
theorem takeNotice_facts {s s1 : State} {h k : Nat} {p : Pkt} (e : takeNotice s h k = (s1, some p)) : ∃ L R n, s1 = { s with fab := { s.fab with links := L, rx := R }, freeCtr := n } := by
  unfold takeNotice at e
  split at e
  · injection e with _ e; cases e
  · rename_i vl q hq
    dsimp only at e
    split at e
    · injection e with _ e; cases e
    · split at e
      · rename_i s2 ha
        injection e with e1 e2
        subst e1
        obtain ⟨L, R, m, e3⟩ := accepted_fab ha
        have e4 : ∃ L', (freeFlits (s.modLink h fun l => { l with rx := l.rx.erase (vl, q) }) h vl q) = { s with fab := { s.fab with links := L' } } := by
          unfold freeFlits
          split <;> exact ⟨_, rfl⟩
        obtain ⟨L', e4⟩ := e4
        exact ⟨L, R, m, by rw [e3, e4]⟩
      · injection e with _ e; cases e
theorem find_sess (s : State) (x y : Session) (job : BitVec 32) (n : Nat) (h : findSession s job n = some x) (h1 : y.job = x.job) (h2 : y.number = x.number) : findSession (putSession s y) job n = some y := by
  unfold findSession at h
  have hk := List.find?_some h
  simp only [Bool.and_eq_true, decide_eq_true_eq] at hk
  unfold findSession putSession State.modFab
  simp only
  have hj : y.job = job := h1.trans hk.1
  have hn : y.number = n := h2.trans hk.2
  rw [← hj, ← hn] at h ⊢
  exact find_map (fun z : Session => decide (z.job = y.job) && decide (z.number = y.number)) (fun _ => y) (fun _ _ => by simp) _ _ h
theorem key_sess {s : State} {x : Session} {job : BitVec 32} {n : Nat} (h : findSession s job n = some x) : x.job = job ∧ x.number = n := by
  unfold findSession at h
  have hk := List.find?_some h
  simpa using hk
theorem sess_of {s t : State} (h : t.fab.sessions = s.fab.sessions) (job : BitVec 32) (n : Nat) : findSession t job n = findSession s job n := by unfold findSession; rw [h]
theorem sess_FS {s t : State} (h : FS s t) : t.fab.sessions = s.fab.sessions := by
  obtain ⟨L, T, n, e⟩ := h.fab; rw [e]
theorem stalls_of {s s0 : State} {h k : Nat} {p : Pkt} (f : Pkt → Nat × Nat) (ht : takePacket s h k = some (p, s0)) : packetStalls s h k f = rangeStalls s (f p).1 (f p).2 := by
  simp only [packetStalls, ht]
theorem takeFor_packet {s s1 : State} {h k c : Nat} {p : Pkt} (e : takeFor s h k = (s1, some (p, c))) : ∃ s0, takePacket s h k = some (p, s0) := by
  unfold takeFor at e
  split at e
  · injection e with _ e; cases e
  · rename_i q s0 ht
    split at e
    · injection e with _ e; cases e
    · split at e
      · injection e with e1 e2
        injection e2 with e2
        injection e2 with e2 e3
        subst e2
        exact ⟨s0, ht⟩
      · injection e with _ e; cases e
theorem bytes_send (s : State) (a : Nat) (j : BitVec 32) (c k o : Nat) (b : Blob) : (sendPacket s a j c k o b).mem = s.mem := mem_of (touches_sendPacket s a j c k o b) (by decide) (by decide) (by decide)
/-- Only packets have been sent. -/
structure PK (s t : State) : Prop where
  mem : t.mem = s.mem
  fab : ∃ L T n, t.fab = { s.fab with links := L, tx := T, lostReports := n }
theorem PK.refl (s : State) : PK s s := ⟨rfl, ⟨s.fab.links, s.fab.tx, s.fab.lostReports, rfl⟩⟩
theorem PK.trans {s t u : State} (h : PK s t) (k : PK t u) : PK s u := by
  obtain ⟨L, T, n, e⟩ := h.fab
  obtain ⟨L', T', n', e'⟩ := k.fab
  exact ⟨k.mem.trans h.mem, ⟨L', T', n', by rw [e', e]⟩⟩
theorem PK.send (s : State) (a : Nat) (j : BitVec 32) (c k o : Nat) (b : Blob) : PK s (sendPacket s a j c k o b) := ⟨bytes_send _ _ _ _ _ _ _, (FS.sendPacket _ _ _ _ _ _ _).fab⟩
theorem PK.read (s : State) (a n : Nat) : PK s (readRange s a n).2 := by
  obtain ⟨k, e⟩ := readRange_state s a n
  rw [e]
  exact ⟨rfl, ⟨s.fab.links, s.fab.tx, s.fab.lostReports, rfl⟩⟩
theorem PK.foldl {β : Type} {f : State → β → State} (hf : ∀ s a, PK s (f s a)) : ∀ (l : List β) (s : State), PK s (l.foldl f s)
  | [], s => PK.refl s
  | a :: l, s => (hf s a).trans (PK.foldl hf l _)
theorem PK.sessions {s t : State} (h : PK s t) : t.fab.sessions = s.fab.sessions := by obtain ⟨L, T, n, e⟩ := h.fab; rw [e]
theorem PK.served {s t : State} (h : PK s t) : t.fab.loansServed = s.fab.loansServed := by obtain ⟨L, T, n, e⟩ := h.fab; rw [e]
theorem PK.taken {s t : State} (h : PK s t) : t.fab.loansTaken = s.fab.loansTaken := by obtain ⟨L, T, n, e⟩ := h.fab; rw [e]
/-- What lending a session's loans does, as far as its range is held. -/
theorem serve_all (job : BitVec 32) (n : Nat) : ∀ (k : Nat) (s : State) (x : Session), findSession s job n = some x → x.loans.length ≤ k →
    findSession (serveLoans job n k s) job n = some { x with loans := x.loans.dropWhile fun l => decide (min (l.off + l.len) x.length ≤ x.got) } ∧
    (serveLoans job n k s).fab.loansServed = s.fab.loansServed + BitVec.ofNat 32 (x.loans.takeWhile fun l => decide (min (l.off + l.len) x.length ≤ x.got)).length ∧
    (serveLoans job n k s).mem = s.mem ∧ (serveLoans job n k s).fab.loansTaken = s.fab.loansTaken
  | 0, s, x, h, hk => by
    have : x.loans = [] := List.length_eq_zero_iff.1 (by omega)
    unfold serveLoans
    cases x; simp_all
  | k + 1, s, x, h, hk => by
    unfold serveLoans
    rw [h]
    dsimp only
    cases hl : x.loans with
    | nil => cases x; simp_all
    | cons a t =>
      dsimp only
      by_cases hg : x.got < min (a.off + a.len) x.length
      · rw [if_pos hg]
        have hd : decide (min (a.off + a.len) x.length ≤ x.got) = false := by simp only [decide_eq_false_iff_not]; omega
        simp only [List.dropWhile_cons, List.takeWhile_cons, hd, Bool.false_eq_true, if_false]
        exact ⟨by rw [h, ← hl], by simp⟩
      · rw [if_neg hg]
        have hd : decide (min (a.off + a.len) x.length ≤ x.got) = true := by simp only [decide_eq_true_eq]; omega
        simp only [List.dropWhile_cons, List.takeWhile_cons, hd, if_true]
        have pk := PK.foldl (f := fun s (r : Nat × Nat) =>
            let v := readRange s (x.dest + r.1) r.2
            sendPacket v.2 a.peer job 0xFFD 9 n (Blob.append ⟨8, r.1⟩ ⟨r.2, v.1⟩)) (fun s r => (PK.read _ _ _).trans (PK.send _ _ _ _ _ _ _)) (ranges a.off (min a.len (x.length - a.off))) s
        generalize hv : List.foldl _ s (ranges a.off (min a.len (x.length - a.off))) = v at pk ⊢
        have hf1 : findSession (v.modFab fun f => { f with loansServed := f.loansServed + 1 }) job n = some x := by
          rw [← h]; exact sess_of pk.sessions _ _
        have hf2 := find_sess _ x { x with loans := t } _ _ hf1 rfl rfl
        obtain ⟨a1, a2, a3, a4⟩ := serve_all job n k _ { x with loans := t } hf2 (by rw [hl] at hk; simp only [List.length_cons] at hk; show t.length ≤ k; omega)
        refine ⟨a1, a2.trans ?_, a3.trans pk.mem, a4.trans pk.taken⟩
        show v.fab.loansServed + 1 + _ = _
        rw [pk.served, List.length_cons, BitVec.add_assoc, BitVec.ofNat_add, BitVec.add_comm (BitVec.ofNat 32 _) (BitVec.ofNat 32 1)]
        rfl
/-- Where DONE stands after it has been tried. -/
theorem done_all (s : State) (job : BitVec 32) (n : Nat) (x : Session) (h : findSession s job n = some x) :
    findSession (tryDone s job n) job n = some { x with doneSent := x.doneSent || !(x.got < x.length || !x.verified || x.children.any fun k => !k.done) } ∧
    (tryDone s job n).mem = s.mem ∧ (tryDone s job n).fab.loansServed = s.fab.loansServed ∧ (tryDone s job n).fab.loansTaken = s.fab.loansTaken := by
  unfold tryDone
  rw [h]
  dsimp only
  by_cases hc : (decide (x.got < x.length) || !x.verified || x.doneSent || x.children.any fun k => !k.done) = true
  · rw [if_pos hc]
    refine ⟨?_, rfl, rfl, rfl⟩
    rw [h]
    have : (x.doneSent || !(decide (x.got < x.length) || !x.verified || x.children.any fun k => !k.done)) = x.doneSent := by
      revert hc
      cases x.doneSent <;> cases decide (x.got < x.length) <;> cases x.verified <;> cases (x.children.any fun k => !k.done) <;> simp
    rw [this]
  · rw [if_neg hc]
    have : (x.doneSent || !(decide (x.got < x.length) || !x.verified || x.children.any fun k => !k.done)) = true := by
      revert hc
      cases x.doneSent <;> cases decide (x.got < x.length) <;> cases x.verified <;> cases (x.children.any fun k => !k.done) <;> simp
    rw [this]
    have h1 := find_sess s x { x with doneSent := true } _ _ h rfl rfl
    split
    · rename_i a ha
      have pk := PK.send (putSession s { x with doneSent := true }) a job 0xFFF 0xB (0x020000 + n) ⟨8, x.length⟩
      exact ⟨(sess_of pk.sessions _ _).trans h1, pk.mem, pk.served, pk.taken⟩
    · exact ⟨h1, rfl, rfl, rfl⟩
/-- What a range that is in order does at a member. -/
theorem memberWrite_facts (s : State) (x : Session) (off : Nat) (d : Blob) (job : BitVec 32) (n : Nat) (hf : findSession s job n = some x) (h1 : off = x.got) (h2 : off + d.len ≤ x.length) (hw : s.mem.mem.wf) :
    (∀ i, (memberWrite s x off d).mem.mem.read i = if x.dest + off ≤ i ∧ i < x.dest + off + d.len then BitVec.ofNat 8 (d.val / 2 ^ (8 * (i - (x.dest + off)))) else s.mem.mem.read i) ∧
    (∀ w, (memberWrite s x off d).mem.mem.poisoned w = (s.mem.mem.poisoned w && !decide (x.dest + off ≤ 128 * w ∧ 128 * w + 128 ≤ x.dest + off + d.len))) ∧
    (let y := { x with got := x.got + d.len }
    findSession (memberWrite s x off d) job n = some { y with
      loans := x.loans.dropWhile (fun l => decide (min (l.off + l.len) y.length ≤ y.got))
      doneSent := y.doneSent || !(y.got < y.length || !y.verified || y.children.any fun k => !k.done) } ∧
    (memberWrite s x off d).fab.loansServed = s.fab.loansServed + BitVec.ofNat 32 (x.loans.takeWhile (fun l => decide (min (l.off + l.len) y.length ≤ y.got))).length) ∧
    (memberWrite s x off d).fab.loansTaken = s.fab.loansTaken := by
  obtain ⟨rfl, rfl⟩ := key_sess hf
  obtain ⟨f1, f2, f3, f4, f5, f6, f7⟩ := writeRange_facts s (x.dest + off) d.len d.val hw
  unfold memberWrite
  rw [if_neg (by simp [h1]; omega)]
  dsimp only
  have g1 : findSession (putSession (writeRange s (x.dest + off) d.len d.val) { x with got := x.got + d.len }) x.job x.number = some { x with got := x.got + d.len } :=
    find_sess _ x _ _ _ ((sess_of (congrArg Fabric.sessions f1) _ _).trans hf) rfl rfl
  have pm : ∀ (u : State) (y : Session), (putSession u y).mem = u.mem ∧ (putSession u y).fab.loansServed = u.fab.loansServed ∧ (putSession u y).fab.loansTaken = u.fab.loansTaken := fun _ _ => ⟨rfl, rfl, rfl⟩
  obtain ⟨p1, p2, p3⟩ := pm (writeRange s (x.dest + off) d.len d.val) { x with got := x.got + d.len }
  generalize putSession (writeRange s (x.dest + off) d.len d.val) { x with got := x.got + d.len } = u at g1 p1 p2 p3 ⊢
  obtain ⟨a1, a2, a3, a4⟩ := serve_all x.job x.number (x.loans.length + 1) u { x with got := x.got + d.len } g1 (Nat.le_succ _)
  obtain ⟨b1, b2, b3, b4⟩ := done_all _ _ _ _ a1
  refine ⟨fun i => ?_, fun w => ?_, ⟨b1, ?_⟩, ?_⟩
  · rw [b2, a3, p1]; exact f6 i
  · rw [b2, a3, p1]; exact f7 w
  · rw [b3, a2, p2, f1]
  · rw [b4, a4, p3, f1]
theorem memberWrite_idle (s : State) (x : Session) (off : Nat) (d : Blob) (h : off ≠ x.got ∨ x.length < off + d.len) : memberWrite s x off d = s := by
  unfold memberWrite
  rw [if_pos (by rcases h with h | h <;> simp [h])]
def det (f : McastChild) : McastChild := { f with attached := false }
theorem detach_facts (B top k : Nat) (x0 : Session) : ∀ (l : List (McastChild × Nat)) (st : State × Session),
    let F := fun (st : State × Session) (e : McastChild × Nat) =>
      if (decide (e.2 ≠ k) && e.1.attached && decide (B < top - e.1.sent)) = true then
        ((sendPacket st.1 e.1.acc x0.job 0xFFF 0xB (0x010000 + x0.number) ⟨8, e.1.sent⟩).modFab fun f => { f with laggedDetaches := f.laggedDetaches + 1 },
          { st.2 with children := st.2.children.modify e.2 fun c => { c with attached := false } })
      else st
    (l.foldl F st).1.fab.sessions = st.1.fab.sessions ∧ (l.foldl F st).1.mem.mem = st.1.mem.mem ∧ (∃ C, (l.foldl F st).2 = { st.2 with children := C } ∧
      ∀ j, C[j]? = if l.any (fun e => decide (e.2 = j) && (decide (e.2 ≠ k) && e.1.attached && decide (B < top - e.1.sent))) = true then st.2.children[j]?.map det else st.2.children[j]?)
  | [], st => ⟨rfl, rfl, st.2.children, rfl, fun j => rfl⟩
  | a :: l, st => by
    intro F
    obtain ⟨h1, h2, C, h3, h4⟩ := detach_facts B top k x0 l (F st a)
    simp only [List.foldl_cons]
    by_cases hc : (decide (a.2 ≠ k) && a.1.attached && decide (B < top - a.1.sent)) = true
    · have hF : F st a = ((sendPacket st.1 a.1.acc x0.job 0xFFF 0xB (0x010000 + x0.number) ⟨8, a.1.sent⟩).modFab fun f => { f with laggedDetaches := f.laggedDetaches + 1 },
          { st.2 with children := st.2.children.modify a.2 fun c => { c with attached := false } }) := if_pos hc
      refine ⟨?_, ?_, C, ?_, ?_⟩
      · refine Eq.trans h1 ?_
        rw [hF]
        have := sess_FS (FS.sendPacket st.1 a.1.acc x0.job 0xFFF 0xB (0x010000 + x0.number) ⟨8, a.1.sent⟩)
        exact this
      · refine Eq.trans h2 ?_
        rw [hF]; exact congrArg MemSys.mem (bytes_send _ _ _ _ _ _ _)
      · refine Eq.trans h3 ?_
        rw [hF]
      · intro j
        rw [h4 j, hF]
        simp only [List.any_cons, hc, Bool.and_true]
        by_cases hj : a.2 = j
        · subst hj
          simp only [decide_true, Bool.true_or, if_true, List.getElem?_modify_eq]
          split
          · cases st.2.children[a.2]? <;> rfl
          · cases st.2.children[a.2]? <;> rfl
        · simp only [hj, decide_false, Bool.false_or]
          rw [List.getElem?_modify_ne _ _ hj]
    · have hF : F st a = st := if_neg hc
      refine ⟨?_, ?_, C, ?_, ?_⟩
      · refine Eq.trans h1 ?_
        rw [hF]
      · refine Eq.trans h2 ?_
        rw [hF]
      · refine Eq.trans h3 ?_
        rw [hF]
      · intro j
        rw [h4 j, hF]
        have : (decide (a.2 = j) && (decide (a.2 ≠ k) && a.1.attached && decide (B < top - a.1.sent))) = false := by
          rw [Bool.eq_false_iff]; intro hh; rw [Bool.and_eq_true] at hh; exact hc hh.2
        simp only [List.any_cons, this, Bool.false_or]
theorem any_zip (B top k j : Nat) (C : List McastChild) (f : McastChild) (hj : j ≠ k) (hf : C[j]? = some f) : ∀ n, (C.zipIdx n).any (fun e => decide (e.2 = n + j) && (decide (e.2 ≠ n + k) && e.1.attached && decide (B < top - e.1.sent))) = (f.attached && decide (B < top - f.sent)) := by
  intro n
  rw [Bool.eq_iff_iff]
  simp only [List.any_eq_true, Bool.and_eq_true, decide_eq_true_eq]
  constructor
  · rintro ⟨⟨e, i⟩, hm, h1, h2⟩
    rw [List.mem_zipIdx_iff_le_and_getElem?_sub] at hm
    simp only at h1 h2
    subst h1
    rw [Nat.add_sub_cancel_left] at hm
    rw [hf] at hm
    obtain ⟨_, hm⟩ := hm
    injection hm with hm
    subst hm
    exact ⟨h2.1.2, h2.2⟩
  · intro h
    refine ⟨(f, n + j), ?_, rfl, ⟨by simpa using hj, h.1⟩, h.2⟩
    rw [List.mem_zipIdx_iff_le_and_getElem?_sub]
    simp [hf]
theorem borrow_PK (job : BitVec 32) (n : Nat) : ∀ (k : Nat) (s : State), (borrowMore job n k s).mem = s.mem ∧ (borrowMore job n k s).fab.loansTaken = s.fab.loansTaken
  | 0, s => ⟨rfl, rfl⟩
  | k + 1, s => by
    unfold borrowMore
    split
    · exact ⟨rfl, rfl⟩
    · rename_i x _
      dsimp only
      split
      · exact ⟨rfl, rfl⟩
      · split
        · exact ⟨rfl, rfl⟩
        · rename_i a _ _
          obtain ⟨h1, h2⟩ := borrow_PK job n k (putSession (sendPacket s a job 0xFFD 8 n ⟨12, packFields [(x.borrow, 64), (min loanBytes (x.length - x.borrow), 32)]⟩) { x with borrow := x.borrow + min loanBytes (x.length - x.borrow), outstanding := x.outstanding ++ [(x.borrow, min loanBytes (x.length - x.borrow))] })
          have pk := PK.send s a job 0xFFD 8 n ⟨12, packFields [(x.borrow, 64), (min loanBytes (x.length - x.borrow), 32)]⟩
          exact ⟨h1.trans pk.mem, h2.trans pk.taken⟩
theorem borrow_find (job : BitVec 32) (n : Nat) (x : Session) : ∀ (k : Nat) (s : State) (b : Nat) (o : List (Nat × Nat)), x.borrow ≤ b → findSession s job n = some { x with borrow := b, outstanding := o } →
    ∃ b' o', x.borrow ≤ b' ∧ findSession (borrowMore job n k s) job n = some { x with borrow := b', outstanding := o' }
  | 0, s, b, o, hb, h => ⟨b, o, hb, h⟩
  | k + 1, s, b, o, hb, h => by
    unfold borrowMore
    rw [h]
    dsimp only
    split
    · exact ⟨b, o, hb, h⟩
    · rename_i a _
      split
      · exact ⟨b, o, hb, h⟩
      · refine borrow_find job n x k _ (b + min loanBytes (x.length - b)) _ (by omega) (find_sess _ { x with borrow := b, outstanding := o } _ _ _ ?_ rfl rfl)
        rw [← h]
        exact sess_of (sess_FS (FS.sendPacket _ _ _ _ _ _ _)) _ _
theorem settle_fab (s : State) : (campaignSettle s).fab = s.fab := (touches_campaignSettle s).2 .fab (by decide)

end Sys2Proof.Laws.Sessions
end

