-- ==== Sys2Proof/Laws/FactsSites.lean ====
section
/-!
SUPPORT. Lemmas on site tests, firmware and retirement, for the statements about them.
-/

open Sys2Proof Sys2Proof.Machine Sys2Proof.Claims

namespace Sys2Proof.Laws.Sites

theorem other_site {s : State} (i k : Nat) (f : Site → Site) (h : k ≠ i) : (s.modSite i f).site k = s.site k := site_modSite_other _ _ _ _ h
theorem boot_fail {s : State} (h : mapsWritten s = false) (i : Nat) (n : BitVec 4) (hf : (s.site i).failed = false) : failSite s i n = s.modSite i fun x => { x with cause := n, failed := true, running := false } := by
  unfold failSite siteFailBoot
  rw [h, if_neg (by decide), hf, if_neg (by decide)]
theorem tested_sites (s : State) (sh : Nat) : (wakeTested s sh).bring.sites = s.bring.sites := by
  unfold wakeTested
  dsimp only
  split <;> rfl
theorem site_of {s t : State} (h : t.bring.sites = s.bring.sites) (i : Nat) : t.site i = s.site i := by unfold State.site; rw [h]
theorem site_bring (s : State) (f : Bringup → Bringup) (h : ∀ b, (f b).sites = b.sites) {i : Nat} : (s.modBring f).site i = s.site i := by
  unfold State.site
  rw [show (s.modBring f).bring.sites = s.bring.sites from h _]
theorem ins_mem : ∀ (l : List Nat) (a : Nat), a ∈ setInsert l a
  | [], a => by simp [setInsert]
  | m :: l, a => by
    unfold setInsert
    split
    · simp
    · split
      · rename_i h; simp [h]
      · exact List.mem_cons_of_mem _ (ins_mem l a)
theorem nak_facts (s : State) (i : Nat) (bs : List Nat) : (sendNaks s i bs).site i = { s.site i with naks := (s.site i).naks ++ bs } ∧ (sendNaks s i bs).bring.fwNaks = s.bring.fwNaks + BitVec.ofNat 32 bs.length ∧ (sendNaks s i bs).bring.fwNext = s.bring.fwNext := by
  refine ⟨?_, rfl, rfl⟩
  unfold sendNaks
  rw [site_bring (h := by intro b; rfl), site_modSite_self]
theorem dist_true {s : State} {i : Nat} (h1 : (tget s.bring.fwNext (i / 13)).isSome = true) (h2 : (s.site i).failed = false) (h3 : (s.site i).verified = false) : distributing s i = true := by
  unfold distributing; rw [h1, h2, h3]; rfl
theorem fw_fail (s : State) (i : Nat) (hf : (s.site i).failed = false) : ((firmwareFail s i).site i).failed = true ∧ ((firmwareFail s i).site i).cause = 5 ∧ (firmwareFail s i).bring.fwSiteFails = s.bring.fwSiteFails + 1 := by
  unfold firmwareFail
  obtain ⟨f1, f2, f3, f4⟩ := fail_site s i 5
  generalize failSite s i 5 = u at f1 f2 f3 f4 ⊢
  generalize hv : State.modBring u _ = v
  have v1 : v.site i = u.site i := site_of (by rw [← hv]; rfl) i
  have v2 : v.bring.fwSiteFails = s.bring.fwSiteFails + 1 := by rw [← hv, ← f3.2.2.2]; rfl
  have k := FK.settle v i (by rw [v1]; exact f2)
  obtain ⟨a, b, c, hw⟩ := FW.settle v
  exact ⟨k.1, k.2.trans (by rw [v1]; exact f4 hf), by rw [hw]; exact v2⟩
/-- Verified sites stay so. -/
def VK (s t : State) : Prop := ∀ i, (t.site i).verified = (s.site i).verified ∧ (t.site i).failed = (s.site i).failed
theorem VK.refl (s : State) : VK s s := fun _ => ⟨rfl, rfl⟩
theorem VK.trans {s t u : State} (h : VK s t) (k : VK t u) : VK s u := fun i => ⟨(k i).1.trans (h i).1, (k i).2.trans (h i).2⟩
theorem VK.foldl {β : Type} {f : State → β → State} (hf : ∀ s a, VK s (f s a)) : ∀ (l : List β) (s : State), VK s (l.foldl f s)
  | [], s => VK.refl s
  | a :: l, s => (hf s a).trans (VK.foldl hf l _)
theorem VK.cores (s : State) (sh : Nat) : VK s (startCores s sh) := by
  unfold startCores
  refine VK.foldl (fun s t k => ?_) _ _
  by_cases e : k = sh * 13 + t
  · subst e; rw [site_modSite_self]; split <;> exact ⟨rfl, rfl⟩
  · rw [site_modSite_other _ _ _ _ e]; exact ⟨rfl, rfl⟩
theorem VK.settle (s : State) : VK s (firmwareSettle s) := by
  unfold firmwareSettle
  split
  · split
    · intro i
      rw [site_bring (h := by intro b; rfl)]
      exact VK.foldl (fun s a => VK.cores s a) (List.range 12) s i
    · exact VK.refl _
  · refine VK.foldl (fun s sh => ?_) _ _
    split
    · intro i
      rw [site_of (tested_sites _ _)]
      exact VK.cores s sh i
    · exact VK.refl _
theorem cores_run (sh : Nat) : ∀ (l : List Nat) (s : State) (j : Nat), (s.site j).failed = false → ((s.site j).running = true ∨ ∃ t ∈ l, j = sh * 13 + t) →
    ((l.foldl (fun s t => s.modSite (sh * 13 + t) fun x => if x.failed then x else { x with running := true }) s).site j).running = true
  | [], s, j, _, h => by simpa using h
  | a :: l, s, j, hf, h => by
    rw [List.foldl_cons]
    refine cores_run sh l _ j ?_ ?_
    · by_cases e : j = sh * 13 + a
      · subst e; rw [site_modSite_self, if_neg (by rw [hf]; decide)]; exact hf
      · rw [site_modSite_other _ _ _ _ e]; exact hf
    · by_cases e : j = sh * 13 + a
      · left; subst e; rw [site_modSite_self, if_neg (by rw [hf]; decide)]
      · rw [site_modSite_other _ _ _ _ e]
        rcases h with h | ⟨t, ht, h⟩
        · exact Or.inl h
        · rcases List.mem_cons.mp ht with h2 | h2
          · subst h2; exact absurd h e
          · exact Or.inr ⟨t, h2, h⟩
theorem shelves_run : ∀ (l : List Nat) (s : State) (j : Nat), (s.site j).failed = false → ((s.site j).running = true ∨ j / 13 ∈ l) → ((l.foldl startCores s).site j).running = true
  | [], s, j, _, h => by simpa using h
  | a :: l, s, j, hf, h => by
    rw [List.foldl_cons]
    refine shelves_run l _ j (by rw [(VK.cores s a j).2]; exact hf) ?_
    by_cases m : (s.site j).running = true ∨ j / 13 = a
    · left
      unfold startCores
      refine cores_run a _ s j hf ?_
      rcases m with m | m
      · exact Or.inl m
      · exact Or.inr ⟨j % 13, List.mem_range.mpr (Nat.mod_lt _ (by decide)), by omega⟩
    · push_neg at m
      rcases h with h | h
      · exact absurd h (by simpa using m.1)
      · rcases List.mem_cons.mp h with h2 | h2
        · exact absurd h2 m.2
        · exact Or.inr h2
theorem fail_other (s : State) (i : Nat) (n : BitVec 4) (j : Nat) (h : j ≠ i) : (failSite s i n).site j = s.site j := by
  have warm : ∀ v : State, (rewriteWarm v).bring.sites = v.bring.sites := by
    intro v
    unfold rewriteWarm
    split
    · unfold writeWarm
      split <;> rfl
    · rfl
  unfold failSite
  split
  · unfold siteFail
    split
    · rfl
    · dsimp only
      have e1 := site_modSite_other s i j (fun x => { x with cause := n, failed := true, running := false }) h
      generalize State.modSite s i _ = s1 at e1 ⊢
      split
      · refine Eq.trans ?_ e1
        refine site_of ((warm _).trans ?_) j
        split <;> rfl
      · rename_i core _
        have rt : (retireStage s1 core).bring = s1.bring := (touches_retireStage _ _).2 .bring (by decide)
        refine Eq.trans ?_ e1
        generalize hu : State.modShelf _ (i / 13) _ = u
        have e : u.bring.sites = s1.bring.sites := by rw [← hu]; show (retireStage s1 core).bring.sites = _; rw [rt]
        split
        · refine site_of (Eq.trans ?_ ((warm u).trans e)) j
          unfold rebindNow
          split <;> rfl
        · exact site_of ((warm u).trans e) j
  · unfold siteFailBoot
    split
    · rfl
    · exact site_modSite_other _ _ _ _ h
theorem fail_tested (s : State) (i : Nat) (n : BitVec 4) : ((failSite s i n).site i).tested = (s.site i).tested := by
  have warm : ∀ v : State, (rewriteWarm v).bring.sites = v.bring.sites := by
    intro v
    unfold rewriteWarm
    split
    · unfold writeWarm
      split <;> rfl
    · rfl
  unfold failSite
  split
  · unfold siteFail
    split
    · rfl
    · dsimp only
      have e1 : ((s.modSite i (fun x => { x with cause := n, failed := true, running := false })).site i).tested = (s.site i).tested := by rw [site_modSite_self]
      generalize State.modSite s i _ = s1 at e1 ⊢
      split
      · refine Eq.trans ?_ e1
        refine congrArg Site.tested (site_of ((warm _).trans ?_) i)
        split <;> rfl
      · rename_i core _
        have rt : (retireStage s1 core).bring = s1.bring := (touches_retireStage _ _).2 .bring (by decide)
        refine Eq.trans ?_ e1
        generalize hu : State.modShelf _ (i / 13) _ = u
        have e : u.bring.sites = s1.bring.sites := by rw [← hu]; show (retireStage s1 core).bring.sites = _; rw [rt]
        split
        · refine congrArg Site.tested (site_of (Eq.trans ?_ ((warm u).trans e)) i)
          unfold rebindNow
          split <;> rfl
        · exact congrArg Site.tested (site_of ((warm u).trans e) i)
  · unfold siteFailBoot
    split
    · rfl
    · rw [site_modSite_self]
theorem exp_eq (s : State) (i : Nat) : expectedBlock s i = if (s.site i).next < fwBlocks s then some (s.site i).next else (List.range (fwBlocks s)).find? fun b => b ∉ (s.site i).blocks := by
  unfold expectedBlock
  dsimp only
  split
  · rfl
  · congr 1
    funext b
    simp
/-- Failed sites are left alone. -/
def UK (s t : State) : Prop := ∀ i, (s.site i).failed = true → t.site i = s.site i
theorem UK.refl (s : State) : UK s s := fun _ _ => rfl
theorem UK.trans {s t u : State} (h : UK s t) (k : UK t u) : UK s u := fun i x => (k i (by rw [h i x]; exact x)).trans (h i x)
theorem UK.foldl {β : Type} {f : State → β → State} (hf : ∀ s a, UK s (f s a)) : ∀ (l : List β) (s : State), UK s (l.foldl f s)
  | [], s => UK.refl s
  | a :: l, s => (hf s a).trans (UK.foldl hf l _)
theorem UK.cores (s : State) (sh : Nat) : UK s (startCores s sh) := by
  unfold startCores
  refine UK.foldl (fun s t k hk => ?_) _ _
  by_cases e : k = sh * 13 + t
  · subst e; rw [site_modSite_self, if_pos hk]
  · rw [site_modSite_other _ _ _ _ e]
theorem UK.settle (s : State) : UK s (firmwareSettle s) := by
  unfold firmwareSettle
  split
  · split
    · intro i hi
      rw [site_bring (h := by intro b; rfl)]
      exact UK.foldl (fun s a => UK.cores s a) (List.range 12) s i hi
    · exact UK.refl _
  · refine UK.foldl (fun s sh => ?_) _ _
    split
    · intro i hi
      rw [site_of (tested_sites _ _)]
      exact UK.cores s sh i hi
    · exact UK.refl _
theorem warm_eq (s : State) : ∃ w, rewriteWarm s = { s with bring := { s.bring with warmRec := w } } := by
  unfold rewriteWarm
  split
  · unfold writeWarm
    split
    · exact ⟨_, rfl⟩
    · exact ⟨s.bring.warmRec, rfl⟩
  · exact ⟨s.bring.warmRec, rfl⟩
theorem rebind_eq (s : State) (n : Nat) : ∃ l, rebindNow s n = { s with bring := { s.bring with spareTests := l } } := by
  unfold rebindNow
  split
  · exact ⟨_, rfl⟩
  · exact ⟨s.bring.spareTests, rfl⟩
theorem siteFail_core (s : State) (i : Nat) (n : BitVec 4) (core : Nat) (hf : (s.site i).failed = false) (hc : coreOfSite s i = some core) :
    let free : Bool := decide ((s.shelf (i / 13)).spareSt = .free) && !(s.shelf (i / 13)).lmap.any fun p => p.2.rebindPending
    (siteFail s i n).site i = { s.site i with cause := n, failed := true, running := false } ∧
    (siteFail s i n).bring.retirements = s.bring.retirements + 1 ∧
    (siteFail s i n).shelf (i / 13) = { s.shelf (i / 13) with
          lmap := tset (s.shelf (i / 13)).lmap (core % 12) { tgetD (s.shelf (i / 13)).lmap (core % 12) ⟨0xF, false, false⟩ with retired := true, rebindPending := free }
          spareSt := if free then (s.shelf (i / 13)).spareSt else .degraded } ∧
    (siteFail s i n).cores = (retireStage (s.modSite i fun x => { x with cause := n, failed := true, running := false }) core).cores ∧
    (siteFail s i n).ctxs = (retireStage (s.modSite i fun x => { x with cause := n, failed := true, running := false }) core).ctxs := by
  intro free
  unfold siteFail
  rw [if_neg (by rw [hf]; decide)]
  dsimp only
  rw [hc]
  dsimp only
  generalize hs1 : State.modSite s i _ = s1
  have e1 : s1.site i = { s.site i with cause := n, failed := true, running := false } := by rw [← hs1, site_modSite_self]
  have e2 : s1.shelves = s.shelves := by rw [← hs1]; rfl
  have e3 : s1.bring.retirements = s.bring.retirements := by rw [← hs1]; rfl
  have rt := touches_retireStage s1 core
  have r1 : (retireStage s1 core).bring = s1.bring := rt.2 .bring (by decide)
  have r2 : (retireStage s1 core).shelves = s1.shelves := rt.2 .shelves (by decide)
  generalize retireStage s1 core = s2 at r1 r2 ⊢
  generalize hs3 : State.modBring s2 _ = s3
  have s3s : s3.shelf (i / 13) = s.shelf (i / 13) := by rw [← hs3]; unfold State.shelf; show tgetD s2.shelves _ _ = _; rw [r2, e2]
  rw [s3s]
  generalize hs4 : State.modShelf s3 (i / 13) _ = s4
  have s4a : s4.site i = s1.site i := site_of (by rw [← hs4, ← hs3, ← r1]; rfl) i
  have s4b : s4.bring.retirements = s.bring.retirements + 1 := by rw [← hs4, ← hs3, ← e3, ← r1]; rfl
  have s4c : s4.cores = s2.cores ∧ s4.ctxs = s2.ctxs := by rw [← hs4, ← hs3]; exact ⟨rfl, rfl⟩
  have s4d := shelf_modShelf_self s3 (i / 13) (fun x => { x with
        lmap := tset x.lmap (core % 12) { tgetD x.lmap (core % 12) ⟨0xF, false, false⟩ with
          retired := true, rebindPending := free }
        spareSt := if free then x.spareSt else .degraded })
  rw [s3s] at s4d
  have s4e : s4.shelf (i / 13) = _ := (congrArg (fun z : State => z.shelf (i / 13)) hs4.symm).trans s4d
  obtain ⟨w, hw⟩ := warm_eq s4
  rw [hw]
  split
  · obtain ⟨l, hl⟩ := rebind_eq { s4 with bring := { s4.bring with warmRec := w } } core
    rw [hl]
    exact ⟨s4a.trans e1, s4b, s4e, s4c.1, s4c.2⟩
  · exact ⟨s4a.trans e1, s4b, s4e, s4c.1, s4c.2⟩
theorem CK.sendRestored' {α : Type} {g : Ctx → α} (hb : Blind g) (hl : LB g) (s : State) (c a : Nat) : CK g s (sendRestored s c a) := by
  unfold Machine.sendRestored
  dsimp only
  exact CK.sendCtrl hb hl _ _ _ _
/-- What giving up the LOADs of one context leaves of the others, and of one whose LOAD is not given up. -/
theorem cancel_other (s : State) (d c : Nat) (h : c ≠ d ∨ (s.ctx c).st ≠ .idle ∨ (s.ctx c).loading = true ∨ (s.ctx c).image = none) :
    ((cancelLoad s d).ctx c).st = (s.ctx c).st ∧ ((cancelLoad s d).ctx c).loading = (s.ctx c).loading ∧ ((cancelLoad s d).ctx c).image = (s.ctx c).image := by
  unfold cancelLoad
  dsimp only
  split
  · exact ⟨rfl, rfl, rfl⟩
  · rename_i hd
    simp only [Bool.or_eq_true, decide_eq_true_eq, not_or, Bool.not_eq_true, not_not] at hd
    have hne : c ≠ d := by
      intro e
      subst e
      rcases h with h | h | h | h
      · exact h rfl
      · exact h hd.1.1
      · rw [h] at hd; exact absurd hd.1.2 (by decide)
      · rw [h] at hd; exact absurd hd.2 (by decide)
    have hu : ((unloadNow s d).ctx c) = s.ctx c := unload_other s d c hne
    have hf := CK.flushCredits (g := fun x => (x.st, x.loading, x.image)) (fun _ _ _ _ => rfl) s (unloadNow s d) c
    rw [hu] at hf
    generalize flushCredits s (unloadNow s d) = u at hf
    generalize hv : State.modTaken u _ = v
    have ev : v.ctx c = u.ctx c := by rw [← hv]; rfl
    have fin : ∀ w : State, (fun x : Ctx => (x.st, x.loading, x.image)) (w.ctx c) = (fun x : Ctx => (x.st, x.loading, x.image)) (s.ctx c) → (w.ctx c).st = (s.ctx c).st ∧ (w.ctx c).loading = (s.ctx c).loading ∧ (w.ctx c).image = (s.ctx c).image := by
      intro w hw
      simp only [Prod.mk.injEq] at hw
      exact hw
    split
    · exact fin _ (by rw [ev]; exact hf)
    · have hm : ∀ f, (v.modLed d f).ctx c = u.ctx c := by
        intro f
        rw [← ev]
        exact ctx_modCtx_other _ _ _ _ hne
      split
      · refine fin _ (Eq.trans (CK.sendRestored' (g := fun x => (x.st, x.loading, x.image)) (fun _ _ _ _ => rfl) (fun _ _ _ => rfl) _ _ _ c) ?_)
        dsimp only; rw [hm]; exact hf
      · refine fin _ (Eq.trans (CK.report (g := fun x => (x.st, x.loading, x.image)) (fun _ _ _ _ => rfl) (fun _ _ _ => rfl) _ _ _ _ _ c) ?_)
        dsimp only; rw [hm]; exact hf
theorem cancel_self (s : State) (c : Nat) (h1 : (s.ctx c).st = .idle) (h2 : (s.ctx c).loading = false) (h3 : (s.ctx c).image ≠ none) :
    ((cancelLoad s c).ctx c).st = .idle ∧ ((cancelLoad s c).ctx c).image = none ∧
      ∀ y ∈ s.host.taken, y.op = 4 → y.ctx = c → y.running = true → y.result = none → Ended (cancelLoad s c) y.number (.refused .coreRetired) := by
  unfold cancelLoad
  dsimp only
  rw [if_neg (by rw [h1, h2]; simp [h3])]
  obtain ⟨u1, u2, u3, u4, _⟩ := unload_facts s c
  have hf := CK.flushCredits (g := fun x => (x.st, x.image)) (fun _ _ _ _ => rfl) s (unloadNow s c) c
  dsimp only at hf
  rw [u1, u2] at hf
  have hh : (flushCredits s (unloadNow s c)).host = s.host := ((touches_flushCredits _ _).2 .host (by decide)).trans u4
  generalize flushCredits s (unloadNow s c) = u at hf hh
  generalize hv : State.modTaken u _ = v
  have ev : v.ctx c = u.ctx c := by rw [← hv]; rfl
  have et : ∀ y ∈ s.host.taken, y.op = 4 → y.ctx = c → y.running = true → y.result = none → Ended v y.number (.refused .coreRetired) := by
    intro y hy a b d e
    refine ⟨{ y with result := some (.refused .coreRetired) }, ?_, rfl, rfl⟩
    rw [← hv]
    refine List.mem_map.2 ⟨y, by rw [hh]; exact hy, ?_⟩
    rw [if_pos (by simp [a, b, d, e])]
  have fin : ∀ w : State, (fun x : Ctx => (x.st, x.image)) (w.ctx c) = (.idle, none) → (w.ctx c).st = .idle ∧ (w.ctx c).image = none := by
    intro w hw
    simp only [Prod.mk.injEq] at hw
    exact hw
  split
  · have := fin v (by rw [ev]; exact hf)
    exact ⟨this.1, this.2, et⟩
  · have hm : ∀ f, (fun x : Ctx => (x.st, x.image)) ((v.modLed c f).ctx c) = (.idle, none) := by
      intro f
      rw [ctx_modLed, ev]; exact hf
    generalize hw : State.modLed v c _ = w
    have hm' : (fun x : Ctx => (x.st, x.image)) (w.ctx c) = (.idle, none) := by rw [← hw]; exact hm _
    have ht : w.host = v.host := by rw [← hw]; rfl
    split
    · have key : ∀ u : State, (fun x : Ctx => (x.st, x.image)) (u.ctx c) = (.idle, none) → ∀ a, ((sendRestored u c a).ctx c).st = .idle ∧ ((sendRestored u c a).ctx c).image = none :=
        fun u hu a => fin _ ((CK.sendRestored' (g := fun x => (x.st, x.image)) (fun _ _ _ _ => rfl) (fun _ _ _ => rfl) u c a c).trans hu)
      exact ⟨(key w hm' 8).1, (key w hm' 8).2, fun y a b d e f => EK.ofHost (congrArg _ (((touches_sendRestored w c 8).2 .host (by decide)).trans ht)) _ _ (et y a b d e f)⟩
    · have key : ∀ u : State, (fun x : Ctx => (x.st, x.image)) (u.ctx c) = (.idle, none) → ∀ a b d, ((report u c a b d).ctx c).st = .idle ∧ ((report u c a b d).ctx c).image = none :=
        fun u hu a b d => fin _ ((CK.report (g := fun x => (x.st, x.image)) (fun _ _ _ _ => rfl) (fun _ _ _ => rfl) u c a b d c).trans hu)
      exact ⟨(key w hm' 1 _ 0).1, (key w hm' 1 _ 0).2, fun y a b d e f => EK.ofHost (congrArg _ (((touches_report w c 1 (s.ctx c).rank.toNat 0).2 .host (by decide)).trans ht)) _ _ (et y a b d e f)⟩
/-- Slips of other contexts are left as they are. -/
theorem cancel_taken (s : State) (d : Nat) : ∃ f : Taken → Taken, (cancelLoad s d).host.taken = s.host.taken.map f ∧ (∀ y, y.result.isSome = true → f y = y) ∧ ∀ y, y.ctx ≠ d → f y = y := by
  unfold cancelLoad
  dsimp only
  split
  · exact ⟨id, by simp, fun _ _ => rfl, fun _ _ => rfl⟩
  · have hh : (flushCredits s (unloadNow s d)).host = s.host := ((touches_flushCredits _ _).2 .host (by decide)).trans (unload_facts s d).2.2.2.1
    generalize flushCredits s (unloadNow s d) = u at hh
    have key : ∀ w : State, w.host = (u.modTaken fun t => if t.op = 4 && t.ctx = d && t.running && t.result.isNone then { t with result := some (.refused .coreRetired) } else t).host → ∃ f : Taken → Taken, w.host.taken = s.host.taken.map f ∧ (∀ y, y.result.isSome = true → f y = y) ∧ ∀ y, y.ctx ≠ d → f y = y := by
      intro w hw
      refine ⟨fun t => if t.op = 4 && t.ctx = d && t.running && t.result.isNone then { t with result := some (.refused .coreRetired) } else t, ?_, ?_, ?_⟩
      · rw [hw, ← hh]; rfl
      · intro y hy
        have : y.result.isNone = false := by cases hr : y.result with
          | none => rw [hr] at hy; cases hy
          | some _ => rfl
        simp [this]
      · intro y hy
        simp [hy]
    split
    · exact key _ rfl
    · split
      · exact key _ (by rw [(touches_sendRestored _ _ _).2 .host (by decide)]; rfl)
      · exact key _ (by rw [(touches_report _ _ _ _ _).2 .host (by decide)]; rfl)
theorem cancel_ek (s : State) (d : Nat) : EK s (cancelLoad s d) := by
  obtain ⟨f, h1, h2, _⟩ := cancel_taken s d
  rintro n r ⟨u, hu, a, b⟩
  exact ⟨u, by rw [h1]; exact List.mem_map.2 ⟨u, hu, h2 u (by rw [b]; rfl)⟩, a, b⟩
theorem cancel_fold_keep (c : Nat) : ∀ (l : List Nat) (s : State), ((s.ctx c).st ≠ .idle ∨ (s.ctx c).loading = true ∨ (s.ctx c).image = none) →
    ((l.foldl cancelLoad s).ctx c).st = (s.ctx c).st ∧ ((l.foldl cancelLoad s).ctx c).image = (s.ctx c).image
  | [], s, _ => ⟨rfl, rfl⟩
  | d :: l, s, h => by
    obtain ⟨a, b, e⟩ := cancel_other s d c (Or.inr h)
    have := cancel_fold_keep c l (cancelLoad s d) (by rw [a, b, e]; exact h)
    exact ⟨this.1.trans a, this.2.trans e⟩
theorem cancel_fold_done (c : Nat) : ∀ (l : List Nat) (s : State), c ∈ l → (s.ctx c).st = .idle → (s.ctx c).loading = false → (s.ctx c).image ≠ none →
    ((l.foldl cancelLoad s).ctx c).st = .idle ∧ ((l.foldl cancelLoad s).ctx c).image = none ∧
      ∀ y ∈ s.host.taken, y.op = 4 → y.ctx = c → y.running = true → y.result = none → Ended (l.foldl cancelLoad s) y.number (.refused .coreRetired)
  | [], s, h, _, _, _ => by simp at h
  | d :: l, s, h, h1, h2, h3 => by
    by_cases e : c = d
    · subst e
      obtain ⟨a, b, k⟩ := cancel_self s c h1 h2 h3
      have := cancel_fold_keep c l (cancelLoad s c) (Or.inr (Or.inr b))
      refine ⟨this.1.trans a, this.2.trans b, fun y q1 q2 q3 q4 q5 => ?_⟩
      exact EK.foldl cancel_ek l _ _ _ (k y q1 q2 q3 q4 q5)
    · obtain ⟨a, b, k⟩ := cancel_other s d c (Or.inl e)
      obtain ⟨r1, r2, r3⟩ := cancel_fold_done c l (cancelLoad s d) (by rcases List.mem_cons.1 h with g | g; exact absurd g e; exact g) (a.trans h1) (b.trans h2) (by rw [k]; exact h3)
      refine ⟨r1, r2, fun y q1 q2 q3 q4 q5 => r3 y ?_ q2 q3 q4 q5⟩
      obtain ⟨f, f1, _, f3⟩ := cancel_taken s d
      rw [f1]
      exact List.mem_map.2 ⟨y, q1, f3 y (by rw [q3]; exact e)⟩

end Sys2Proof.Laws.Sites
end

