-- ==== Sys2Proof/Laws/FactsStreams.lean ====
section
/-!
SUPPORT. Lemmas on streams, passes and escapes, for the statements about them.
-/

open Sys2Proof Sys2Proof.Machine Sys2Proof.Claims

namespace Sys2Proof.Laws.Streams

theorem moved_tap (s : State) (c i k n : Nat) (r : StreamRec) (w : SWord) : Moved (s.core n) ((tapLocal s c i k r w).core n) := by
  unfold tapLocal
  split
  · rw [core_of ((touches_tapWord s c i w).2 .cores (by decide)) n]; exact .refl _
  · exact .refl _
theorem moved_pop (s : State) (c i k n : Nat) : Moved (s.core n) ((popWord s c i k).core n) := by
  unfold popWord
  exact moved_pump (State.modStream _ _ _ _) _ _ n
theorem wordMoved_but (s : State) (core : Nat) : CoresBut core s (wordMoved s core) := fun k hk => by simp [wordMoved, hk]
theorem keep_but (s : State) (core : Nat) : CoresBut core s (keepStepLoss s core) ∧ ((keepStepLoss s core).core core).stage = (s.core core).stage := by
  unfold keepStepLoss
  dsimp only
  split
  · split
    · exact ⟨coresBut_modCore _ _ _, by simp⟩
    · exact ⟨fun _ _ => rfl, rfl⟩
  · exact ⟨fun _ _ => rfl, rfl⟩
theorem keep_other (s : State) (core : Nat) (st : StageRec) (h : (s.core core).stage.info = some st) (ho : st.opclass ≠ 5) : keepStepLoss s core = s := by
  unfold keepStepLoss; dsimp only; rw [h]; split
  · rename_i h1 _; cases h1; simp [ho]
  · rfl
theorem headUnmapped_clean (s : State) (c i k : Nat) : bufferError s c i k .clean = s := by
  unfold bufferError
  split
  · rfl
  · dsimp only
    split
    · rfl
    · simp [storeEvent]
theorem tgetD_fold_tset {α : Type} (d : α) (F : Nat → α) : ∀ (l : List Nat) (m : Tbl α) (k : Nat),
    tgetD (l.foldl (fun m k => tset m k (F k)) m) k d = if k ∈ l then F k else tgetD m k d
  | [], m, k => by simp
  | a :: l, m, k => by
    rw [List.foldl_cons, tgetD_fold_tset d F l _ k]
    by_cases h : k ∈ l
    · simp [h]
    · by_cases e : k = a
      · subst e; simp [h]
      · simp [h, e]
theorem pumpOne_sum (on : Nat → Bool) (cap : Nat) (t : Stream) (a k : Nat) :
    ((pumpOne on cap t a).buf k).words ++ tgetD (pumpOne on cap t a).wait k [] = (t.buf k).words ++ tgetD t.wait k [] ∧ ((pumpOne on cap t a).buf k).esc = (t.buf k).esc := by
  by_cases h : k = a
  · subst h
    simp only [pumpOne, Stream.buf, tgetD_tset_self]
    exact ⟨by rw [List.append_assoc, List.take_append_drop], trivial⟩
  · simp [pumpOne, Stream.buf, h]
theorem pumpFold_sum (on : Nat → Bool) (cap k : Nat) : ∀ (l : List Nat) (t : Stream),
    ((l.foldl (pumpOne on cap) t).buf k).words ++ tgetD (l.foldl (pumpOne on cap) t).wait k [] = (t.buf k).words ++ tgetD t.wait k [] ∧ ((l.foldl (pumpOne on cap) t).buf k).esc = (t.buf k).esc
  | [], t => ⟨rfl, rfl⟩
  | a :: l, t => by
    have h1 := pumpOne_sum on cap t a k
    have := pumpFold_sum on cap k l (pumpOne on cap t a)
    exact ⟨this.1.trans h1.1, this.2.trans h1.2⟩
theorem pumpShared_sum (on : Bool) (cap n : Nat) (t : Stream) (k : Nat) (hk : k < n) :
    ((pumpShared on cap n t).buf k).words ++ tgetD (pumpShared on cap n t).wait 0 [] = (t.buf k).words ++ tgetD t.wait 0 [] ∧ ((pumpShared on cap n t).buf k).esc = (t.buf k).esc := by
  simp only [pumpShared, Stream.buf]
  rw [tgetD_fold_tset, if_pos (by simpa using hk)]
  simp only [tgetD_tset_self]
  exact ⟨by rw [List.append_assoc, List.take_append_drop], trivial⟩
theorem wordMoved_stream (s : State) (n c i : Nat) : (wordMoved s n).stream c i = s.stream c i := rfl
theorem pump_sum (s : State) (c i : Nat) (r : StreamRec) (h : streamRec (s.ctx c) i = some r) (j : Nat) (hj : r.fanout = 1 → j < r.consumers.length) :
    let k := if r.fanout = 1 then 0 else j
    (((pump s c i).stream c i).buf j).words ++ tgetD ((pump s c i).stream c i).wait k [] = ((s.stream c i).buf j).words ++ tgetD (s.stream c i).wait k [] ∧
    (((pump s c i).stream c i).buf j).esc = ((s.stream c i).buf j).esc := by
  obtain ⟨on, hs⟩ : ∃ on : Nat → Bool, (pump s c i).stream c i = if r.fanout = 1 then pumpShared (on 0) r.capacity r.consumers.length (s.stream c i) else (List.range r.consumers.length).foldl (pumpOne on r.capacity) (s.stream c i) := by
    refine ⟨fun k => endpointOn s (s.ctx c) r.producer && bufferOn s c r k, ?_⟩
    unfold Machine.pump
    simp only [h]
    repeat' split
    all_goals first
      | (rw [wordMoved_stream]; simp; done)
      | simp
  intro k
  rw [hs]
  by_cases hf : r.fanout = 1
  · simp only [k, hf, if_true]; exact pumpShared_sum _ _ _ _ _ (hj hf)
  · simp only [k, hf, if_false]; exact pumpFold_sum _ _ _ _ _
theorem streamRec_modStream (s : State) (c i : Nat) (f : Stream → Stream) (j : Nat) : streamRec ((s.modStream c i f).ctx c) j = streamRec (s.ctx c) j := by
  simp [State.modStream, streamRec]
theorem fold_append (c i : Nat) (F : Nat → List SWord) : ∀ (l : List Nat) (s : State), l.Nodup →
    let t := l.foldl (fun s k => streamAppend s c i k (F k)) s
    (∀ k, (t.stream c i).buf k = (s.stream c i).buf k) ∧ t.cores = s.cores ∧
    (∀ k, tgetD (t.stream c i).wait k [] = if k ∈ l then tgetD (s.stream c i).wait k [] ++ F k else tgetD (s.stream c i).wait k []) ∧
    (∀ j, streamRec (t.ctx c) j = streamRec (s.ctx c) j)
  | [], s, _ => ⟨fun _ => rfl, rfl, fun k => by simp, fun _ => rfl⟩
  | a :: l, s, nd => by
    have ⟨n1, n2⟩ := List.nodup_cons.1 nd
    obtain ⟨i1, i2, i3, i4⟩ := fold_append c i F l (streamAppend s c i a (F a)) n2
    refine ⟨fun k => (i1 k).trans ?_, i2, fun k => (i3 k).trans ?_, fun j => (i4 j).trans (streamRec_modStream _ _ _ _ _)⟩
    · simp only [streamAppend, stream_modStream_self]; rfl
    · simp only [streamAppend, stream_modStream_self, List.mem_cons]
      by_cases e : k = a
      · subst e; simp [n1]
      · simp [e]
theorem foldl_modCore_other (f : Wedge → Core → Core) : ∀ (l : List Wedge) (s : State) (n : Nat), n ∉ l.map (·.core) → (l.foldl (fun s v => s.modCore v.core (f v)) s).core n = s.core n
  | [], s, n, _ => rfl
  | a :: l, s, n, h => by
    simp only [List.map_cons, List.mem_cons, not_or] at h
    rw [List.foldl_cons, foldl_modCore_other f l _ n h.2]
    simp [h.1]
theorem foldl_modCore_mem (f : Wedge → Core → Core) : ∀ (l : List Wedge) (s : State), (l.map (·.core)).Nodup → ∀ v ∈ l, (l.foldl (fun s v => s.modCore v.core (f v)) s).core v.core = f v (s.core v.core)
  | [], _, _, v, hv => by cases hv
  | a :: l, s, nd, v, hv => by
    simp only [List.map_cons, List.nodup_cons] at nd
    rw [List.foldl_cons]
    rcases List.mem_cons.1 hv with rfl | hv'
    · rw [foldl_modCore_other f l _ _ nd.1]; simp
    · rw [foldl_modCore_mem f l _ nd.2 v hv']
      have : v.core ≠ a.core := by intro e; exact nd.1 (by rw [← e]; exact List.mem_map_of_mem hv')
      simp [this]
theorem foldl_modCore_other' (f : Wedge → Core → Core) : ∀ (l : List Wedge) (s : State), (l.foldl (fun s v => s.modCore v.core (f v)) s).ctxs = s.ctxs ∧ (l.foldl (fun s v => s.modCore v.core (f v)) s).shelves = s.shelves
  | [], s => ⟨rfl, rfl⟩
  | a :: l, s => by rw [List.foldl_cons]; exact foldl_modCore_other' f l _
def spilled (_ : Wedge) (c : Core) : Core := { c with stage := { c.stage with stalls := tset c.stage.stalls 11 (tgetD c.stage.stalls 11 0 + 1) } }
theorem stops (l : List Nat) (n : StopName) : ∀ (s : State) (k : Nat), k ∈ l ∨ (s.core k).stage.st = .stopped → ((l.foldl (fun s m => stopStage s m n 0) s).core k).stage.st = .stopped := by
  induction l with
  | nil => intro s k h; exact h.resolve_left (by simp)
  | cons a l ih =>
    intro s k h
    obtain ⟨f1, f2, -⟩ := stopStage_facts s a n 0
    refine ih _ k ?_
    by_cases e : k = a
    · subst e; exact .inr f2
    · rw [f1 k e]
      rcases h with h | h
      · exact .inl ((List.mem_cons.1 h).resolve_left e)
      · exact .inr h
theorem stops_shelves (l : List Nat) (n : StopName) : ∀ (s : State), (l.foldl (fun s m => stopStage s m n 0) s).shelves = s.shelves := by
  induction l with
  | nil => intro s; rfl
  | cons a l ih => intro s; rw [List.foldl_cons, ih]; simp [stopStage, contextFault]
theorem escape_esc (r : StreamRec) (k sh : Nat) (t : Stream) (j : Nat) (h : (r.fanout = 1 ∧ j < r.consumers.length) ∨ (r.fanout ≠ 1 ∧ j = k)) :
    ((escapeBuffer r k sh t).buf j).esc = (t.buf j).esc ++ (t.buf j).words.map fun x => (sh, x) := by
  simp only [escapeBuffer, Stream.buf]
  rw [tgetD_fold_tset _ (fun j => _), if_pos]
  rcases h with ⟨h1, h2⟩ | ⟨h1, h2⟩
  · simpa [h1] using h2
  · simp [h1, h2]
theorem modShelf_modShelf (s : State) (n : Nat) (f g : Shelf → Shelf) : (s.modShelf n f).modShelf n g = s.modShelf n fun c => g (f c) := by
  simp [State.modShelf, State.setShelf, tset_tset, State.shelf]

end Sys2Proof.Laws.Streams
end

