-- ==== Sys2Proof/Laws/FactsSyncs.lean ====
section
/-!
SUPPORT. Lemmas on keying, syncs and routes, for the statements about them.
-/

open Sys2Proof Sys2Proof.Machine Sys2Proof.Claims

namespace Sys2Proof.Laws.Syncs

theorem failed (s s0 : State) (h c : Nat) (f : State → State) (he : f s0 = keyingFail s h c) :
    (fabricStep s0 f).sec.keyingFailures = s.sec.keyingFailures + 1 ∧ (fabricStep s0 f).sec.lastKeyFail = BitVec.ofNat 8 (h + 16 * c) ∧
      ((fabricStep s0 f).link h).st = .down ∧ ((fabricStep s0 f).link h).aborts = 64 ∧ ((fabricStep s0 f).link h).retryWait = true ∧ WentDown h (fabricStep s0 f) := by
  have hk : keyingFail s h c = linkDown ((s.modSec fun x => { x with
    keyingFailures := x.keyingFailures + 1, lastKeyFail := BitVec.ofNat 8 (h + 16 * c) }).modLink h fun l => { l with aborts := 64, retryWait := true }) h := rfl
  obtain ⟨a, b, c1, d, e, f1, g⟩ := wentDown _ s0 f h (he.trans hk)
  rw [link_modLink_self] at b e f1
  refine ⟨?_, ?_, by rw [b]; simp, e, f1, a⟩
  · rw [secStep, he, hk, linkDown_secEq]; rfl
  · rw [secStep, he, hk, linkDown_secEq]; rfl
theorem want_keys (x : Sec) (k q : KeyId) (w : BitVec 256) (u : Bool) (hq : q ≠ k) (hg : ∀ p ∈ x.slots, p.2.key ≠ q) : ∀ p ∈ (x.want k w u).slots, p.2.key ≠ q := by
  have ht : ∀ (t : Tbl KeySlot) (i : Nat) (e : KeySlot), e.key ≠ q → (∀ p ∈ t, p.2.key ≠ q) → ∀ p ∈ tset t i e, p.2.key ≠ q := by
    intro t i e he
    induction t with
    | nil => intro _ p hp; simp [tset] at hp; subst hp; exact he
    | cons a t ih =>
      obtain ⟨j, v⟩ := a
      intro hg p hp
      simp only [tset] at hp
      split at hp
      · simp at hp
        rcases hp with rfl | rfl | hp
        · exact he
        · exact hg _ (by simp)
        · exact hg _ (by simp [hp])
      · split at hp
        · simp at hp
          rcases hp with rfl | hp
          · exact he
          · exact hg _ (by simp [hp])
        · simp at hp
          rcases hp with rfl | hp
          · exact hg _ (by simp)
          · exact ih (fun p hp => hg p (by simp [hp])) p hp
  unfold Sec.want
  dsimp only
  split
  · rename_i i e hf
    have : e.key = k := by simpa using List.find?_some hf
    exact ht _ _ _ (by simp [this]; exact hq.symm) hg
  · split
    · exact ht _ _ _ hq.symm hg
    · exact hg
theorem enter_facts (s : State) (h : Nat) : ∃ g, OnlySends { (s.link h) with st := .notReady, offer := none, confirming := false, grants := tmod (s.link h).grants 7 0 (· + laneBuffer 7), credits := g } ((enterNotReady s h).link h) ∧ (enterNotReady s h).sec = s.sec := by
  refine ⟨tmod (s.link h).credits 7 0 (· + 0), ?_, (touches_enterNotReady s h).2 .sec (by decide)⟩
  unfold enterNotReady
  have h1 : ∀ (s1 : State) (b : Blob) (l : Link), s1.link h = l → OnlySends l ((sendMgmt s1 h 0xC 0 b).link h) := by
    intro s1 b l e; rw [← e]; exact (FS.sendMgmt _ _ _ _ _).links h
  dsimp only
  have h2 : ∀ s2 : State, OnlySends (s2.link h) ((if (s2.fab.accSt = .claiming && !s2.fab.flooded) = true then
      match tget (s2.modFab fun x => { x with flooded := true }).fab.lsdb (ownSerial (s2.modFab fun x => { x with flooded := true })) with
      | some r => floodRecord (s2.modFab fun x => { x with flooded := true }) none r
      | none => s2.modFab fun x => { x with flooded := true }
    else s2).link h) := by
    intro s2
    split
    · split
      · exact (FS.floodRecord (s2.modFab fun x => { x with flooded := true }) none _).links h
      · exact .refl _
    · exact .refl _
  refine OnlySends.trans ?_ (h2 _)
  apply h1
  rw [link_modLink_self]
theorem take_free (s : State) (h vl : Nat) (q : Pkt) :
    let s1 := freeFlits (s.modLink h fun l => { l with rx := l.rx.erase (vl, q) }) h vl q
    ∃ r g, (s1.link h) = { (s.link h) with rx := r, grants := g } ∧ (∀ o, o ≠ h → s1.link o = s.link o) ∧ (∃ L, s1.fab = { s.fab with links := L }) ∧ s1.sec = s.sec := by
  intro s1
  have hs1 : freeFlits (s.modLink h fun l => { l with rx := l.rx.erase (vl, q) }) h vl q = s1 := rfl
  clear_value s1
  subst hs1
  unfold freeFlits
  split
  · refine ⟨(s.link h).rx.erase (vl, q), (s.link h).grants, ?_, ?_, ⟨_, rfl⟩, rfl⟩
    · rw [link_modLink_self]
    · intro o ho
      rw [link_modLink_other _ _ _ _ ho]
  · refine ⟨(s.link h).rx.erase (vl, q), tmod (s.link h).grants vl 0 (· + q.flitCount), ?_, ?_, ⟨_, rfl⟩, rfl⟩
    · rw [link_modLink_self, link_modLink_self]
    · intro o ho
      rw [link_modLink_other _ _ _ _ ho, link_modLink_other _ _ _ _ ho]
theorem takePkt_facts {s s1 : State} {h k : Nat} {p : Pkt} (e : takePacket s h k = some (p, s1)) : ∃ r g, (s1.link h) = { (s.link h) with rx := r, grants := g } ∧ (∀ o, o ≠ h → s1.link o = s.link o) ∧ (∃ L, s1.fab = { s.fab with links := L }) ∧ s1.sec = s.sec := by
  unfold takePacket at e
  split at e
  · rename_i vl q hq
    injection e with e
    injection e with e1 e2
    subst e2
    exact take_free s h vl q
  · cases e
theorem takeSync_facts {s s1 : State} {h k : Nat} {p : Pkt} (e : takeSync s h k = some (p, s1)) : ∃ r g, (s1.link h) = { (s.link h) with rx := r, grants := g } ∧ (∀ o, o ≠ h → s1.link o = s.link o) ∧ (∃ L, s1.fab = { s.fab with links := L }) ∧ s1.sec = s.sec := by
  unfold takeSync at e
  split at e
  · rename_i vl q hq
    injection e with e
    injection e with e1 e2
    subst e2
    exact take_free s h vl q
  · cases e
theorem syncBusy_of {s t : State} (h : Nat) (ho : ∀ o, o ≠ h → t.link o = s.link o) : syncBusy t h = syncBusy s h := by
  unfold syncBusy
  congr 1; funext o
  by_cases e : o = h
  · simp [e]
  · simp only [ho o e]
theorem offer_facts (s : State) (h : Nat) :
    let others : Bool := linkNumbers.all fun o => o = h || !(s.link o).isUp || (s.link o).sync = .idle
    ∃ y b, OnlySends { (s.link h) with sync := y, syncSent := b } ((offerSync s h).link h) ∧
    (syncBusy s h = false ∨ s.fab.accSt = .done ∧ others = true → y = .offered) ∧ (syncBusy s h = true → s.fab.accSt ≠ .done ∨ others = false → y = .wanted) := by
  intro others
  unfold offerSync
  split
  · rename_i hc
    rw [Bool.and_eq_true, Bool.not_eq_true', Bool.and_eq_false_iff, decide_eq_false_iff_not] at hc
    refine ⟨.wanted, (s.link h).syncSent, ?_, fun a => ?_, fun _ _ => rfl⟩
    · rw [link_modLink_self]; exact .refl _
    · exfalso
      rcases a with a | ⟨a, b⟩
      · exact absurd (hc.1.symm.trans a) (by simp)
      · rcases hc.2 with z | z
        · exact z a
        · exact absurd (b.symm.trans z) (by simp)
  · rename_i hc
    refine ⟨.offered, false, ?_, fun _ => rfl, fun a b => ?_⟩
    · have := (FS.sendMgmt (s.modLink h fun l => { l with sync := .offered, syncSent := false }) h 0xE 0 Blob.empty).links h
      rw [link_modLink_self] at this
      exact this
    · exfalso
      apply hc
      rw [Bool.and_eq_true, Bool.not_eq_true', Bool.and_eq_false_iff, decide_eq_false_iff_not]
      exact ⟨a, b⟩
theorem others_of {s t : State} (h : Nat) (ho : ∀ o, o ≠ h → t.link o = s.link o) :
    (linkNumbers.all fun o => decide (o = h) || !(t.link o).isUp || decide ((t.link o).sync = .idle)) = (linkNumbers.all fun o => decide (o = h) || !(s.link o).isUp || decide ((s.link o).sync = .idle)) := by
  congr 1; funext o
  by_cases e : o = h
  · simp [e]
  · simp only [ho o e]
theorem records_facts (s : State) (h : Nat) : OnlySends { (s.link h) with sync := .running, syncSent := true, backoffK := 0 } ((sendRecords s h).link h) ∧ (∃ L, (sendRecords s h).fab = { s.fab with links := L }) := by
  unfold sendRecords
  have gen : ∀ (l : List (List (BitVec 1728))) (s : State), LS s (l.foldl (fun s g => sendSync s h 1 (recordsBlob g)) s) ∧ ∃ L, (l.foldl (fun s g => sendSync s h 1 (recordsBlob g)) s).fab = { s.fab with links := L } := by
    intro l
    induction l with
    | nil => intro s; exact ⟨.refl _, ⟨_, rfl⟩⟩
    | cons a l ih =>
      intro s
      obtain ⟨b, L, e⟩ := ih (sendSync s h 1 (recordsBlob a))
      exact ⟨LS.trans (FS.sendMgmt _ _ _ _ _).links b, ⟨L, e⟩⟩
  obtain ⟨g1, L, g2⟩ := gen (sendRecords.chunks' 18 ((s.fab.lsdb.map (·.2)).length + 1) (s.fab.lsdb.map (·.2))) s
  dsimp only at g1 g2 ⊢
  generalize List.foldl _ s _ = u at *
  rw [link_modLink_self]
  obtain ⟨t, d, e⟩ := (g1 h).trans ((FS.sendMgmt u h 0xE 2 Blob.empty).links h)
  refine ⟨⟨t, d, ?_⟩, ⟨((sendSync u h 2 Blob.empty).modLink h fun l => { l with sync := .running, syncSent := true, backoffK := 0 }).fab.links, ?_⟩⟩
  · unfold sendSync
    rw [e]
  · have : ((sendSync u h 2 Blob.empty).modLink h fun l => { l with sync := .running, syncSent := true, backoffK := 0 }).fab = { u.fab with links := ((sendSync u h 2 Blob.empty).modLink h fun l => { l with sync := .running, syncSent := true, backoffK := 0 }).fab.links } := rfl
    rw [this, g2]
theorem fabricReady_eq {s t : State} (h1 : t.fab.accSt = s.fab.accSt) (h2 : ∀ k, (t.link k).st = (s.link k).st ∧ (t.link k).sync = (s.link k).sync) : fabricReady t = fabricReady s := by
  unfold fabricReady
  rw [h1]
  simp only [Link.isUp, (h2 _).1, (h2 _).2]
theorem fabStep {s : State} {f : State → State} : ∃ L T n, (fabricStep s f).fab = { (f s).fab with links := L, tx := T, lostReports := n } := (FS.fabricStep s f).fab
theorem refreshOwn_fab (s : State) : ∃ L q d db, (refreshOwn s).fab = { s.fab with links := L, seq := q, dirty := d, lsdb := db } ∧ ∀ n, n ≠ ownSerial s → tget db n = tget s.fab.lsdb n := by
  have h : ∀ (q : BitVec 32) (r : BitVec 1728), ∃ L q' d db, (floodRecord (s.modFab fun x => { x with seq := q, lsdb := tset x.lsdb (ownSerial s) r, dirty := true }) none r).fab = { s.fab with links := L, seq := q', dirty := d, lsdb := db } ∧ ∀ n, n ≠ ownSerial s → tget db n = tget s.fab.lsdb n := by
    intro q r
    have hl : ∀ (l : List Nat) (u : State), ∃ L, (l.foldl (fun s h => if (s.link h).isUp && (none : Option Nat) ≠ some h then sendMgmt s h 0xD 0 (recordsBlob [r]) else s) u).fab = { u.fab with links := L } := by
      intro l
      induction l with
      | nil => intro u; exact ⟨_, rfl⟩
      | cons a l ih =>
        intro u
        rw [List.foldl_cons]
        obtain ⟨L, e⟩ := ih (if (u.link a).isUp && (none : Option Nat) ≠ some a then sendMgmt u a 0xD 0 (recordsBlob [r]) else u)
        refine ⟨L, ?_⟩
        rw [e]
        split <;> rfl
    obtain ⟨L, e⟩ := hl linkNumbers (s.modFab fun x => { x with seq := q, lsdb := tset x.lsdb (ownSerial s) r, dirty := true })
    refine ⟨L, q, true, tset s.fab.lsdb (ownSerial s) r, ?_, fun n hn => tget_tset_other _ _ _ _ hn⟩
    unfold floodRecord
    rw [e]; rfl
  unfold refreshOwn
  split
  · exact ⟨s.fab.links, s.fab.seq, s.fab.dirty, s.fab.lsdb, rfl, fun _ _ => rfl⟩
  · split
    · split
      · exact ⟨s.fab.links, s.fab.seq, s.fab.dirty, s.fab.lsdb, rfl, fun _ _ => rfl⟩
      · exact h _ _
    · exact h s.fab.seq _
theorem claim_lsdb (s : State) (n : Nat) (hn : n ≠ ownSerial s) : tget (claimProvisional s).fab.lsdb n = tget s.fab.lsdb n := by
  unfold claimProvisional
  dsimp only
  split
  · rename_i i _
    obtain ⟨L, q, d, db, e, h⟩ := refreshOwn_fab (s.modFab fun x => { x with
      acc := 0xFF00 + i, provisional := true, accSt := .claiming, flooded := linkNumbers.any fun h => (s.link h).isUp })
    rw [e]; exact h n hn
  · rfl
theorem conflict_lsdb (s : State) (n : Nat) (hn : n ≠ ownSerial s) : tget (checkConflict s).fab.lsdb n = tget s.fab.lsdb n := by
  unfold checkConflict
  split
  · rfl
  · split
    · dsimp only
      rw [claim_lsdb]
      · split <;> rfl
      · have : ∀ u : State, u.sec = s.sec → n ≠ ownSerial u := by intro u hu; unfold ownSerial; rw [hu]; exact hn
        apply this
        split <;> rfl
    · rfl
theorem store_facts (s : State) (h : Nat) (r : BitVec 1728) (hn : recSerial r ≠ ownSerial s) :
    (((∃ o, tget s.fab.lsdb (recSerial r) = some o ∧ recNewer r o = true) ∨ (tget s.fab.lsdb (recSerial r) = none ∧ s.fab.lsdb.length < 16384)) → tget (storeRecord s h r).fab.lsdb (recSerial r) = some r ∧ ∀ n, n ≠ ownSerial s → n ≠ recSerial r → tget (storeRecord s h r).fab.lsdb n = tget s.fab.lsdb n) ∧
    (∀ o, tget s.fab.lsdb (recSerial r) = some o → recNewer r o = false → storeRecord s h r = s) ∧
    (tget s.fab.lsdb (recSerial r) = none → 16384 ≤ s.fab.lsdb.length → storeRecord s h r = s.modFab fun x => { x with lsdbOverflows := x.lsdbOverflows + 1 }) := by
  refine ⟨?_, ?_, ?_⟩
  · intro hc
    unfold storeRecord
    dsimp only
    rw [if_neg hn]
    have hnew : (match tget s.fab.lsdb (recSerial r) with | none => true | some o => recNewer r o) = true := by
      rcases hc with ⟨o, a, b⟩ | ⟨a, b⟩ <;> rw [a]
      exact b
    have hnew' : ∀ (b : Bool), b = true → (!b) = false := by intro b hb; subst hb; rfl
    rw [if_neg (by rcases hc with ⟨o, a, b⟩ | ⟨a, b⟩ <;> simp [a] <;> exact b), if_neg]
    · generalize hu : (linkNumbers.foldl (fun s h =>
        if (s.link h).isUp && (s.link h).peerSerial.toNat = recSerial r then
          s.modLink h fun l => { l with peerAcc := BitVec.ofNat 16 (recAcc r) } else s) (s.modFab fun x => { x with lsdb := tset x.lsdb (recSerial r) r, dirty := true })) = u
      have hu2 : u.fab.lsdb = tset s.fab.lsdb (recSerial r) r ∧ u.sec = s.sec := by
        subst hu
        have : ∀ (l : List Nat) (v : State), (l.foldl (fun s h =>
          if (s.link h).isUp && (s.link h).peerSerial.toNat = recSerial r then
          s.modLink h fun l => { l with peerAcc := BitVec.ofNat 16 (recAcc r) } else s) v).fab.lsdb = v.fab.lsdb ∧ (l.foldl (fun s h =>
          if (s.link h).isUp && (s.link h).peerSerial.toNat = recSerial r then
          s.modLink h fun l => { l with peerAcc := BitVec.ofNat 16 (recAcc r) } else s) v).sec = v.sec := by
          intro l
          induction l with
          | nil => intro v; exact ⟨rfl, rfl⟩
          | cons a l ih =>
            intro v
            rw [List.foldl_cons, (ih _).1, (ih _).2]
            split <;> exact ⟨rfl, rfl⟩
        exact ⟨(this _ _).1, (this _ _).2⟩
      obtain ⟨L, T, n', e⟩ := (FS.floodRecord u (some h) r).fab
      have hs : (floodRecord u (some h) r).sec = s.sec := ((touches_floodRecord u (some h) r).2 .sec (by decide)).trans hu2.2
      constructor
      · rw [conflict_lsdb _ _ (by unfold ownSerial; rw [hs]; exact hn), e]
        show tget u.fab.lsdb _ = _
        rw [hu2.1]; simp
      · intro n hn1 hn2
        rw [conflict_lsdb _ _ (by unfold ownSerial; rw [hs]; exact hn1), e]
        show tget u.fab.lsdb _ = _
        rw [hu2.1, tget_tset_other _ _ _ _ hn2]
    · rcases hc with ⟨o, a, b⟩ | ⟨a, b⟩ <;> rw [a]
      · simp
      · simp; omega
  · intro o ho hw
    unfold storeRecord
    dsimp only
    rw [if_neg hn]
    simp [ho, hw]
  · intro ho hw
    unfold storeRecord
    dsimp only
    rw [if_neg hn]
    simp [ho, hw]
theorem serial_of {s t : State} (h : t.sec = s.sec) : ownSerial t = ownSerial s := by unfold ownSerial; rw [h]
theorem tryReady_same' (s : State) (h : Nat) : ∃ st g, OnlySends { (s.link h) with st := st, grants := g } ((tryReady s h).link h) := by
  unfold tryReady
  dsimp only
  split
  · refine ⟨.ready, (List.range 7).foldl (fun g v => tmod g v 0 (· + laneBuffer v)) (s.link h).grants, ?_⟩
    have := LS.refreshOwn (s.modLink h fun l => { l with st := .ready, grants := (List.range 7).foldl (fun g v => tmod g v 0 (· + laneBuffer v)) l.grants }) h
    rw [link_modLink_self] at this
    exact this
  · exact ⟨_, _, .refl _⟩
theorem tryReady_off (s : State) (k h : Nat) (hk : h ≠ k) : OnlySends (s.link h) ((tryReady s k).link h) := by
  unfold tryReady
  dsimp only
  split
  · refine OnlySends.trans ?_ (LS.refreshOwn _ h)
    rw [link_modLink_other _ _ _ _ hk]; exact .refl _
  · exact .refl _
theorem sendRecords_other (s : State) (h k : Nat) (hk : k ≠ h) : OnlySends (s.link k) ((sendRecords s h).link k) := by
  unfold sendRecords
  dsimp only
  rw [link_modLink_other _ _ _ _ hk]
  refine OnlySends.trans ?_ ((FS.sendMgmt _ h 0xE 2 Blob.empty).links k)
  exact (FS.foldl (f := fun s g => sendSync s h 1 (recordsBlob g)) (fun s g => FS.sendMgmt _ _ _ _ _) _ _).links k
structure FR (s t : State) : Prop where
  routes : t.fab.routes = s.fab.routes
  dirty : t.fab.dirty = s.fab.dirty
  recomputes : t.fab.recomputes = s.fab.recomputes
  lsdb : t.fab.lsdb = s.fab.lsdb
theorem FR.refl (s : State) : FR s s := ⟨rfl, rfl, rfl, rfl⟩
theorem FR.trans {s t u : State} (h : FR s t) (k : FR t u) : FR s u := ⟨k.1.trans h.1, k.2.trans h.2, k.3.trans h.3, k.4.trans h.4⟩
theorem FR.ofFS {s t : State} (h : FS s t) : FR s t := by
  obtain ⟨L, T, n, e⟩ := h.fab
  exact ⟨by rw [e], by rw [e], by rw [e], by rw [e]⟩
theorem FR.foldl {β : Type} {f : State → β → State} (hf : ∀ s a, FR s (f s a)) : ∀ (l : List β) (s : State), FR s (l.foldl f s)
  | [], s => FR.refl s
  | a :: l, s => (hf s a).trans (FR.foldl hf l _)
theorem FR.putSession (s : State) (x : Session) : FR s (putSession s x) := ⟨rfl, rfl, rfl, rfl⟩
theorem FR.borrowMore (j : BitVec 32) (n : Nat) : ∀ (k : Nat) (s : State), FR s (borrowMore j n k s)
  | 0, s => FR.refl s
  | k + 1, s => by
    unfold Machine.borrowMore
    split
    · exact FR.refl _
    · dsimp only
      split
      · exact FR.refl _
      · split
        · exact FR.refl _
        · exact ((FR.ofFS (FS.sendPacket _ _ _ _ _ _ _)).trans (FR.putSession _ _)).trans (FR.borrowMore j n k _)
theorem FR.startBorrow (s : State) (j : BitVec 32) (n o : Nat) : FR s (startBorrow s j n o) := by
  unfold Machine.startBorrow
  split
  · exact FR.refl _
  · exact (FR.putSession _ _).trans (FR.borrowMore _ _ _ _)
theorem FR.borrowRoot (s : State) (x : Session) : FR s (borrowRoot s x) := by
  unfold Machine.borrowRoot
  dsimp only
  refine FR.trans ?_ (FR.startBorrow _ _ _ _)
  refine FR.trans ?_ (FR.putSession _ _)
  split
  · exact FR.refl _
  · exact ⟨rfl, rfl, rfl, rfl⟩
theorem FR.orphan (s : State) : FR s (orphanSessions s) := by
  unfold orphanSessions
  refine FR.foldl (fun s x => ?_) _ _
  split
  · split
    · exact FR.borrowRoot _ _
    · exact FR.refl _
  · exact FR.refl _
theorem FR.resend (s : State) (c : TxConn) : FR s (resend s c) := by
  unfold Machine.resend
  split
  · exact FR.refl _
  · refine FR.foldl (fun s x => ?_) _ _
    have := FR.ofFS (FS.transmit s x.kind c.peer c.channel c.flow.toNat (by assumption) x.tseq x.payload c.job x.operand)
    exact ⟨this.1, this.2, this.3, this.4⟩
theorem route_facts (s : State) (hd : s.fab.dirty = true) : FR (s.modFab fun x => { x with routes := computeRoutes s, dirty := false, recomputes := x.recomputes + 1 }) (routeRecompute s) := by
  unfold routeRecompute
  simp only [hd]
  rw [if_neg (by simp)]
  have h1 : FR (s.modFab fun x => { x with routes := computeRoutes s, dirty := false, recomputes := x.recomputes + 1 }) (installRoutes s).1 := by
    unfold installRoutes
    dsimp only
    refine FR.foldl (fun s x => ?_) _ _
    have key : ∀ (b : Prop) [Decidable b] (x y : State), FR s x → FR s y → FR s (if b then x else y) := by
      intro b _ x y hx hy; split <;> assumption
    exact key _ _ _ (FR.resend _ _) (FR.refl _)
  refine h1.trans ?_
  refine FR.foldl (fun s c => ?_) _ _
  split
  · exact FR.refl _
  · refine FR.foldl (fun s q => ?_) _ _
    split
    · have := FR.ofFS (FS.report s c 1 q 0)
      exact ⟨this.1, this.2, this.3, this.4⟩
    · exact FR.refl _

end Sys2Proof.Laws.Syncs
end

