-- ==== Sys2Proof/Laws/FactsTeardown.lean ====
section
/-!
SUPPORT. Lemmas on teardowns, for the statements about them.
-/

open Sys2Proof Sys2Proof.Machine Sys2Proof.Claims

namespace Sys2Proof.Laws.Teardown

theorem settleSlips_done {s : State} {x : Taken} (hm : x ∈ s.host.taken) (hr : x.result = none) (hrun : x.running = true) (v : SlipResult)
    (h : (x.op = 5 ∧ (s.ctx x.ctx).st = .idle ∨ x.op = 6 ∧ (s.ctx x.ctx).st = .free) ∧ v = .done 0 0 0) : Ended (settleSlips s) x.number v := by
  refine ⟨{ x with result := some v }, ?_, rfl, rfl⟩
  unfold settleSlips State.modTaken
  refine List.mem_map.mpr ⟨x, hm, ?_⟩
  dsimp only
  rw [if_neg (by simp [hr, hrun])]
  obtain ⟨h, rfl⟩ := h
  rcases h with ⟨h1, h2⟩ | ⟨h1, h2⟩
  · rw [if_neg (by simp [h1]), if_pos (by simp [h1, h2])]
  · rw [if_neg (by simp [h1]), if_neg (by simp [h1]), if_pos (by simp [h1, h2])]
theorem ready_op {s : State} {q : Nat} {seq : BitVec 32} {op : Nat} {x : Taken} (h : slipReady s q seq op = some x) : x.op = op := by
  unfold slipReady at h
  split at h
  · cases h
  · rename_i t ht
    have key : ∀ (c : Bool), (if c then none else some t : Option Taken) = some x → c = false ∧ t = x := by
      intro c hc; cases c
      · injection hc with e; exact ⟨rfl, e⟩
      · cases hc
    obtain ⟨k1, k2⟩ := key _ h
    subst k2
    simp only [Bool.or_eq_false_iff, decide_eq_false_iff_not, not_not] at k1
    exact k1.1.1.1.1.1.1
theorem set_fold (sh : Nat) : ∀ (l : List Nat) (s : State) (k : Nat), ((l.foldl (fun s n => s.setCore (12 * sh + n) Core.cleared) s).core k) = if ∃ n ∈ l, k = 12 * sh + n then Core.cleared else s.core k
  | [], s, k => by simp
  | n :: l, s, k => by
    rw [List.foldl_cons, set_fold sh l]
    by_cases e : ∃ n ∈ l, k = 12 * sh + n
    · rw [if_pos e, if_pos (by obtain ⟨a, h, h2⟩ := e; exact ⟨a, List.mem_cons_of_mem _ h, h2⟩)]
    · rw [if_neg e]
      by_cases m : k = 12 * sh + n
      · rw [if_pos ⟨n, by simp, m⟩, m, core_setCore_self]
      · rw [if_neg, core_setCore_other _ _ _ _ m]
        rintro ⟨a, h, h2⟩
        rcases List.mem_cons.mp h with h | h
        · subst h; exact m h2
        · exact e ⟨a, h, h2⟩
theorem shelf_reset (s : State) (sh k : Nat) : (zeroStores (resetShelf s sh) sh).core k = if k / 12 = sh then Core.cleared else s.core k := by
  have e1 : (zeroStores (resetShelf s sh) sh).cores = (resetShelf s sh).cores := (touches_zeroStores _ _).2 .cores (by decide)
  rw [core_of e1]
  unfold resetShelf
  dsimp only
  rw [modShelf_core, set_fold]
  congr 1
  apply propext
  constructor
  · rintro ⟨n, hn, h⟩
    have := List.mem_range.mp hn
    omega
  · intro h
    exact ⟨k % 12, List.mem_range.mpr (Nat.mod_lt _ (by decide)), by omega⟩
theorem shelves_reset : ∀ (l : List Nat) (s : State) (k : Nat), (l.foldl (fun s sh => zeroStores (resetShelf s sh) sh) s).core k = if k / 12 ∈ l then Core.cleared else s.core k
  | [], s, k => by simp
  | a :: l, s, k => by
    rw [List.foldl_cons, shelves_reset l, shelf_reset]
    by_cases h1 : k / 12 ∈ l <;> by_cases h2 : k / 12 = a <;> simp [h1, h2] <;> simp_all
theorem gr_ledger (s : State) (j : BitVec 32) (n : Nat) (h : GR n s) : GR n (releaseLedger s j) := by
  unfold releaseLedger
  dsimp only
  split
  · exact h
  · refine gr_of ((touches_directoryWrite _).2 .granules (by decide)) ?_
    refine gr_of (s := (ledgerGranules s j).foldl releaseGranule s) rfl ?_
    exact gr_fold (fun a => a) n _ _ (Or.inl h)
/-- A granule that no released entry names keeps its record. -/
theorem granule_kept : ∀ (l : List (Nat × Machine.Granule)) (s : State) (n : Nat), (∀ p ∈ l, p.1 ≠ n) → (l.foldl (fun s p => releaseGranule s p.1) s).granule n = s.granule n
  | [], _, _, _ => rfl
  | p :: l, s, n, h => by
    refine (granule_kept l _ n fun q hq => h q (List.mem_cons_of_mem _ hq)).trans ?_
    unfold releaseGranule State.modGranule State.granule
    simp only [tgetD, tget_tset_other _ _ _ _ (Ne.symm (h p (by simp)))]
theorem ledger_kept (s : State) (c n : Nat) (h : ∀ g, (n, g) ∈ s.mem.granules → g.ledger = true) : (releaseGranules s c).granule n = s.granule n := by
  unfold releaseGranules
  refine granule_kept _ _ _ fun p hp => ?_
  obtain ⟨h1, h2⟩ := List.mem_filter.1 hp
  intro e
  obtain ⟨k, g⟩ := p
  have e : k = n := e
  subst e
  have := h g h1
  simp [this] at h2
theorem tset_keeps {α : Type} : ∀ (t : Tbl α) (k n : Nat) (v w : α), (n, w) ∈ t → n ≠ k → (n, w) ∈ tset t k v
  | [], _, _, _, _, h, _ => by simp at h
  | (j, x) :: t, k, n, v, w, h, e => by
    unfold tset
    split
    · exact List.mem_cons_of_mem _ h
    · rcases List.mem_cons.1 h with g | g
      · injection g with g1 g2
        subst g1
        rw [if_neg (Ne.symm e), g2]
        exact List.mem_cons_self ..
      · split
        · exact List.mem_cons_of_mem _ g
        · exact List.mem_cons_of_mem _ (tset_keeps t k n v w g e)
theorem gr_or_kept (n : Nat) (g : Machine.Granule) : ∀ (l : List (Nat × Machine.Granule)) (s : State), (GR n s ∨ (n, g) ∈ s.mem.granules) → GR n (l.foldl (fun s p => releaseGranule s p.1) s) ∨ (n, g) ∈ (l.foldl (fun s p => releaseGranule s p.1) s).mem.granules
  | [], s, h => h
  | p :: l, s, h => by
    refine gr_or_kept n g l _ ?_
    by_cases e : n = p.1
    · exact Or.inl (gr_release (Or.inr e))
    · rcases h with h | h
      · exact Or.inl (gr_release (Or.inl h))
      · exact Or.inr (tset_keeps _ _ _ _ _ h e)
/-- The ledger's granules of a job are free once both their context's and they themselves have been released. -/
theorem gr_both (s : State) (c n : Nat) (j : BitVec 32) (h : n ∈ ledgerGranules s j) : GR n (releaseLedger (releaseGranules s c) j) := by
  unfold ledgerGranules at h
  obtain ⟨⟨n', g⟩, h1, h2⟩ := List.mem_map.1 h
  have h2 : n' = n := h2
  subst h2
  obtain ⟨h3, h4⟩ := List.mem_filter.1 h1
  have hk := gr_or_kept n' g (s.mem.granules.filter fun p => p.2.assigned && !p.2.ledger && !p.2.system && !p.2.retain &&
    p.2.context.toNat = c) s (Or.inr h3)
  rw [show (s.mem.granules.filter fun p => p.2.assigned && !p.2.ledger && !p.2.system && !p.2.retain && p.2.context.toNat = c).foldl (fun s p => releaseGranule s p.1) s = releaseGranules s c from rfl] at hk
  generalize releaseGranules s c = u at hk
  rcases hk with hk | hk
  · exact gr_ledger _ _ _ hk
  · have hin : n' ∈ ledgerGranules u j := List.mem_map.2 ⟨(n', g), List.mem_filter.2 ⟨hk, h4⟩, rfl⟩
    unfold releaseLedger
    dsimp only
    rw [if_neg]
    · refine gr_of ((touches_directoryWrite _).2 .granules (by decide)) ?_
      refine gr_of (s := (ledgerGranules u j).foldl releaseGranule u) rfl ?_
      exact gr_fold (fun a => a) n' _ _ (Or.inr ⟨n', hin, rfl⟩)
    · intro g
      rw [Bool.and_eq_true, List.isEmpty_iff] at g
      rw [g.1] at hin
      simp at hin
/-- Every byte of the stores of a list of shelves reads zero once they have been cleared. -/
def InStores (sh a : Nat) : Prop := shelfWindow sh ≤ a ∧ a < shelfWindow sh + 0x1800000 ∨
  carrelWindow (12 * sh) ≤ a ∧ a < carrelWindow (12 * sh + 12)
theorem zeroStores_read (s : State) (sh a : Nat) : ((InStores sh a ∨ s.mem.mem.read a = 0) → (zeroStores s sh).mem.mem.read a = 0) := by
  intro h
  have e : ∀ (m : Mem) lo hi, (m.zeroRange lo hi).read a = if (decide (a < lo) || decide (hi ≤ a)) then m.read a else 0 := by
    intro m lo hi
    exact cellsRead_filter m.cells (fun x => decide (x < lo) || decide (hi ≤ x)) a
  show ((s.mem.mem.zeroRange (shelfWindow sh) (shelfWindow sh + 0x1800000)).zeroRange (carrelWindow (12 * sh)) (carrelWindow (12 * sh + 12))).read a = 0
  rw [e, e]
  split
  · split
    · rename_i h1 h2
      simp only [Bool.or_eq_true, decide_eq_true_eq] at h1 h2
      rcases h with (h | h) | h
      · exact absurd h (by omega)
      · exact absurd h (by omega)
      · exact h
    · rfl
  · rfl
theorem stores_zero : ∀ (l : List Nat) (s : State) (a : Nat), ((∃ sh ∈ l, InStores sh a) ∨ s.mem.mem.read a = 0) → (l.foldl (fun s sh => zeroStores (resetShelf s sh) sh) s).mem.mem.read a = 0
  | [], s, a, h => by simpa using h
  | sh :: l, s, a, h => by
    have em : (resetShelf s sh).mem.mem = s.mem.mem := by
      have e := (touches_resetShelf s sh).same .bytes (by decide)
      simpa only [Part.same] using e
    rw [List.foldl_cons]
    refine stores_zero l (zeroStores (resetShelf s sh) sh) a ?_
    by_cases g : InStores sh a ∨ s.mem.mem.read a = 0
    · right
      exact zeroStores_read _ _ _ (by rw [em]; exact g)
    · push_neg at g
      rcases h with ⟨k, hk, h⟩ | h
      · rcases List.mem_cons.1 hk with e | e
        · subst e; exact absurd h g.1
        · exact Or.inl ⟨k, e, h⟩
      · exact absurd h g.2
theorem event_ctx (s : State) (c : Nat) (e : CtxEvent) (n : BitVec 32) : (ctxEvent s c e n).ctx c = { s.ctx c with lastEvent := e } := by
  unfold ctxEvent
  dsimp only
  have : ∀ (u : State) f, (u.modTaken f).ctx c = u.ctx c := fun _ _ => rfl
  rw [this]
  have : ∀ (u : State) v, (raiseVector u v).ctx c = u.ctx c := fun _ _ => rfl
  rw [this, ctx_modCtx_self]
theorem event_raised (s u : State) (c : Nat) (e : CtxEvent) (n : BitVec 32) (h : u.host.msix = s.host.msix) : Raised s (ctxEvent u c e n) (16 + c) := by
  unfold Raised
  dsimp only
  rw [← h]
  have : (ctxEvent u c e n).host.msix = tmod u.host.msix (16 + c) MsiX.reset fun m => if m.masked then { m with pba := true } else { m with sent := m.sent + 1 } := rfl
  rw [this, tmod, tget_tset_self]
theorem raised_of {s t u : State} {v : Nat} (h : t.host.msix = u.host.msix) (k : Raised s u v) : Raised s t v := by
  unfold Raised at *
  rw [h]; exact k
theorem drop_host (s : State) (j : BitVec 32) : (dropVolume s j).host.msix = s.host.msix ∧ (dropVolume s j).host.taken = s.host.taken ∧ (dropVolume s j).ctxs = s.ctxs := by
  unfold dropVolume
  dsimp only
  split <;> exact ⟨rfl, rfl, rfl⟩

end Sys2Proof.Laws.Teardown
end

