-- ==== Sys2Proof/Laws/FactsTiers.lean ====
section
/-!
SUPPORT. Lemmas on memory, CXL ports and prefetch, for the statements about them.
-/

open Sys2Proof Sys2Proof.Machine Sys2Proof.Claims

namespace Sys2Proof.Laws.Tiers

theorem nlo_of {s t : State} (h : NoLoadOver s) (e : t.ctxs = s.ctxs) : NoLoadOver t := fun c => by
  rw [ctx_of e]; exact h c
theorem readWord_ctxs (s : State) (w : Nat) (e : Ecc) (h : ∀ n, tierOf (128 * w) ≠ .carrel n) : (readWord s w e).2.2.ctxs = s.ctxs ∧ (readWord s w e).2.2.cores = s.cores := by
  have a : (eccEvent s w e).ctxs = s.ctxs ∧ (eccEvent s w e).cores = s.cores := by
    unfold eccEvent
    cases e <;> dsimp only
    · exact ⟨rfl, rfl⟩
    · split
      · exact ⟨rfl, rfl⟩
      · exact ⟨rfl, rfl⟩
      · unfold storeEvent
        split <;> first | exact ⟨rfl, rfl⟩ | (exfalso; simp_all)
    · split
      · exact ⟨rfl, rfl⟩
      · unfold storeEvent
        split <;> first | exact ⟨rfl, rfl⟩ | (exfalso; simp_all)
    · exact ⟨rfl, rfl⟩
  unfold readWord
  dsimp only
  have it : ∀ (b : Bool) (u : State) i (f : Cxl → Cxl), (if b = true then u.modCxl i f else u).ctxs = u.ctxs ∧ (if b = true then u.modCxl i f else u).cores = u.cores := by
    intro b u i f; cases b <;> exact ⟨rfl, rfl⟩
  split
  · exact ⟨(it _ _ _ _).1.trans a.1, (it _ _ _ _).2.trans a.2⟩
  · exact ⟨(it _ _ _ _).1.trans a.1, (it _ _ _ _).2.trans a.2⟩
theorem readWord_state (s : State) (w : Nat) (e : Ecc) : ∃ n, (readWord s w e).2.2 = { (if ((eccEvent s w e).mem.mem.poisoned w && !(decide (e = .linkLost) && decide (tierOf (128 * w) = .cxl)) && decide (tierOf (128 * w) = .cxl)) = true then
      (eccEvent s w e).modCxl (cxlPlace (128 * w)).1 fun x => { x with poisonIn := x.poisonIn + 1 } else eccEvent s w e) with freeCtr := n } ∧ (keyGone s w = false → n = (eccEvent s w e).freeCtr) := by
  unfold readWord
  dsimp only
  split
  · rename_i h
    exact ⟨_, rfl, fun h2 => by rw [h] at h2; cases h2⟩
  · refine ⟨(eccEvent s w e).freeCtr, ?_, fun _ => rfl⟩
    split <;> rfl
theorem fail_mem (s : State) (i : Nat) (n : BitVec 4) : (failSite s i n).mem.mem = s.mem.mem := (touches_failSite s i n).2 .bytes (by decide)
theorem store_mem (s : State) (t : Tier) (e : Ecc) : (storeEvent s t e).mem.mem = s.mem.mem := by
  unfold storeEvent
  split
  · rfl
  · rfl
  · rfl
  · unfold carrelTrigger
    dsimp only
    split
    · rw [fail_mem]; rfl
    · rfl
  · rfl
theorem ecc_mem (s : State) (w : Nat) (e : Ecc) : (eccEvent s w e).mem.mem = if e = .uncorrected then { s.mem.mem with poison := setInsert s.mem.mem.poison w } else s.mem.mem := by
  unfold eccEvent
  cases e <;> dsimp only
  · rfl
  · rw [if_neg (by decide)]
    split
    · rfl
    · rfl
    · exact store_mem _ _ _
  · rw [if_pos rfl]
    split
    · rfl
    · rw [store_mem]; rfl
  · rfl
theorem readWord_mem (s : State) (w : Nat) (e : Ecc) : (readWord s w e).2.2.mem.mem = if e = .uncorrected then { s.mem.mem with poison := setInsert s.mem.mem.poison w } else s.mem.mem := by
  obtain ⟨n, h, _⟩ := readWord_state s w e
  rw [h, ← ecc_mem]
  dsimp only
  split <;> rfl
theorem stop_over {s : State} (core : Nat) (n : StopName) (a : Nat) (h : NoLoadOver s) : NoLoadOver (stopStage s core n a) := by
  have : ∀ (u : State) (c : Nat) (f : FaultRec), NoLoadOver u → NoLoadOver (contextFault u c f) := by
    intro u c f hu k h1 h2
    have e1 := CK.contextFault (g := fun x => x.st) (fun _ _ _ _ => rfl) u c f k
    have e2 := CK.contextFault (g := fun x => x.image) (fun _ _ _ _ => rfl) u c f k
    have e3 := CK.contextFault (g := fun x => x.loading) (fun _ _ _ _ => rfl) u c f k
    dsimp only at e1 e2 e3
    rw [e1] at h1; rw [e2] at h2; rw [e3]
    exact hu k h1 h2
  unfold stopStage
  exact this _ _ _ (nlo_of h rfl)
theorem wm (s : State) (w : Nat) (v : BitVec 1024) (poison : Bool) : (writeWord s w v poison).mem.mem = s.mem.mem.setWord w v poison := by
  have k0 : ∀ (u : State) m, (u.setMem m).mem.mem = m := fun _ _ => rfl
  have k1 : ∀ i f, (s.modHbm i f).mem.mem = s.mem.mem := fun _ _ => rfl
  have k2 : ∀ i f, (s.modCxl i f).mem.mem = s.mem.mem := fun _ _ => rfl
  unfold writeWord
  dsimp only
  rw [k0]
  cases tierOf (128 * w) <;> dsimp only
  · cases poison
    · rw [if_neg (by decide)]
    · rw [if_pos rfl, k1]
  · rw [k2]
theorem writeWord_facts (s : State) (w : Nat) (v : BitVec 1024) (poison : Bool) : (writeWord s w v poison).mem.mem = s.mem.mem.setWord w v poison ∧
    (writeWord s w v poison).cores = s.cores ∧ (writeWord s w v poison).mem.granules = s.mem.granules ∧
    (tierOf (128 * w) = .hbm → ((writeWord s w v poison).hbm (hbmStack s (128 * w))).poisonStored =
          (s.hbm (hbmStack s (128 * w))).poisonStored + (if poison then 1 else 0)) ∧
    (tierOf (128 * w) = .cxl → ((writeWord s w v poison).cxl (cxlPlace (128 * w)).1).flight =
          (s.cxl (cxlPlace (128 * w)).1).flight ++ [⟨w, s.mem.mem.word w, s.mem.mem.poisoned w⟩]) := by
  have hh : ∀ (u : State) m n, (u.setMem m).hbm n = u.hbm n := fun _ _ _ => rfl
  have hc : ∀ (u : State) m n, (u.setMem m).cxl n = u.cxl n := fun _ _ _ => rfl
  refine ⟨wm _ _ _ _, (touches_writeWord _ _ _ _).2 .cores (by decide), (touches_writeWord _ _ _ _).2 .granules (by decide), ?_, ?_⟩ <;> unfold writeWord <;> dsimp only
  · intro ht
    rw [hh, ht]
    dsimp only
    cases poison
    · rw [if_neg (by decide)]; simp
    · rw [if_pos rfl, hbm_modHbm_self]; simp
  · intro ht
    rw [hc, ht]
    dsimp only
    rw [cxl_modCxl_self]
theorem foldl_contextFault (f : FaultRec) : ∀ (l : List Nat) (s : State), (l.foldl (fun s c => contextFault s c f) s).mem = s.mem
  | [], _ => rfl
  | a :: l, s => by rw [List.foldl_cons, foldl_contextFault f l]; rfl
theorem foldl_lost (F : Granule → Granule) : ∀ (l : List Nat) (m : Tbl Granule) (n : Nat), l.Nodup → tgetD (l.foldl (fun t n => tset t n (F (tgetD t n Granule.reset))) m) n Granule.reset = if n ∈ l then F (tgetD m n Granule.reset) else tgetD m n Granule.reset
  | [], m, n, _ => by simp
  | a :: l, m, n, h => by
    have ⟨h1, h2⟩ := List.nodup_cons.1 h
    rw [List.foldl_cons, foldl_lost F l _ n h2]
    by_cases e : n = a
    · subst e; simp [h1]
    · simp [e]
theorem lose' (s : State) (ns : List Nat) (nd : ns.Nodup) : (∀ n, (loseAll s ns).granule n = if n ∈ ns then { (s.granule n) with lost := true, scrubbed := false, filling := false } else s.granule n) ∧ (∀ q, (loseAll s ns).cxl q = s.cxl q) := by
  unfold loseAll
  dsimp only
  refine ⟨fun n => ?_, fun q => ?_⟩
  · unfold State.granule
    rw [foldl_contextFault]
    exact foldl_lost (fun g => { g with lost := true, scrubbed := false, filling := false }) ns s.mem.granules n nd
  · unfold State.cxl
    rw [foldl_contextFault]; rfl
theorem lose (s : State) (p : Nat) (nd : (portGranules p).Nodup) : (∀ n, (loseGranules s p).granule n = if n ∈ portGranules p then { (s.granule n) with lost := true, scrubbed := false, filling := false } else s.granule n) ∧ (∀ q, (loseGranules s p).cxl q = s.cxl q) := lose' s (portGranules p) nd
theorem take_facts (s : State) (sh : Nat) : ∃ T, takeRequest s sh = { s with shelves := T } ∧ ((takeRequest s sh).shelf sh).pfRead = (s.shelf sh).pfRead ∧
    ((takeRequest s sh).shelf sh).pfWritten = (s.shelf sh).pfWritten ∧ ((takeRequest s sh).shelf sh).pf = (s.shelf sh).pf ∧
    ((takeRequest s sh).shelf sh).check = (s.shelf sh).check ∧
    ((takeRequest s sh).shelf sh).pfReqs.length ≤ max 64 (s.shelf sh).pfReqs.length := by
  have m : ∀ f : Machine.Shelf → Machine.Shelf, (f (s.shelf sh)).pfRead = (s.shelf sh).pfRead → (f (s.shelf sh)).pfWritten = (s.shelf sh).pfWritten → (f (s.shelf sh)).pf = (s.shelf sh).pf →
      (f (s.shelf sh)).check = (s.shelf sh).check → (f (s.shelf sh)).pfReqs.length ≤ max 64 (s.shelf sh).pfReqs.length →
      ∃ T, s.modShelf sh f = { s with shelves := T } ∧ ((s.modShelf sh f).shelf sh).pfRead = (s.shelf sh).pfRead ∧ ((s.modShelf sh f).shelf sh).pfWritten = (s.shelf sh).pfWritten ∧
        ((s.modShelf sh f).shelf sh).pf = (s.shelf sh).pf ∧ ((s.modShelf sh f).shelf sh).check = (s.shelf sh).check ∧ ((s.modShelf sh f).shelf sh).pfReqs.length ≤ max 64 (s.shelf sh).pfReqs.length := by
    intro f h1 h2 h3 h4 h5
    refine ⟨_, rfl, ?_, ?_, ?_, ?_, ?_⟩ <;> rw [shelf_modShelf_self] <;> assumption
  have z : ∃ T, s = { s with shelves := T } ∧ (s.shelf sh).pfRead = (s.shelf sh).pfRead ∧ (s.shelf sh).pfWritten = (s.shelf sh).pfWritten ∧ (s.shelf sh).pf = (s.shelf sh).pf ∧ (s.shelf sh).check = (s.shelf sh).check ∧ (s.shelf sh).pfReqs.length ≤ max 64 (s.shelf sh).pfReqs.length := ⟨s.shelves, rfl, rfl, rfl, rfl, rfl, le_max_right _ _⟩
  unfold takeRequest
  dsimp only
  by_cases hl : (s.shelf sh).pfReqs.length ≥ 64
  · rw [if_pos hl]; exact z
  · rw [if_neg hl]
    have len : ∀ q, ((s.shelf sh).pfReqs ++ [q]).length ≤ max 64 (s.shelf sh).pfReqs.length := by
      intro q; simp; omega
    cases nextFrom (s.shelf sh).pfCore (fillsDue s sh) with
    | none =>
      cases nextFrom (s.shelf sh).pfEnd (endsDue s sh) with
      | none => exact z
      | some e => exact m _ rfl rfl rfl rfl (len _)
    | some n =>
      dsimp only
      split
      · exact m _ rfl rfl rfl rfl (len _)
      · exact m _ rfl rfl rfl rfl (len _)
theorem left_fact (l : List PfReq) (q : PfReq) (ended : Bool) (he : ended = false → 1 < q.left) (r : PfReq)
    (h : r ∈ l.filterMap fun r => if (r.fill != q.fill || decide (r.id ≠ q.id)) = true then some r else if ended = true then none else some { r with left := q.left - 1 })
    (h1 : r.fill = q.fill) (h2 : r.id = q.id) : 1 < q.left ∧ r.left = q.left - 1 := by
  rw [List.mem_filterMap] at h
  obtain ⟨x, _, hx⟩ := h
  by_cases c : (x.fill != q.fill || decide (x.id ≠ q.id)) = true
  · rw [if_pos c] at hx
    injection hx with hx
    subst hx
    simp [h1, h2] at c
  · rw [if_neg c] at hx
    cases hen : ended with
    | true => rw [hen, if_pos rfl] at hx; cases hx
    | false =>
      rw [hen, if_neg (by decide)] at hx
      injection hx with hx
      subst hx
      exact ⟨he hen, rfl⟩
theorem shelf_of {s t : State} (h : t.shelves = s.shelves) (n : Nat) : t.shelf n = s.shelf n := by simp only [State.shelf, h]
theorem emit_keeps (s : State) (p : PfHeld) (w : SWord) : ∃ g, (readEmit s p w).2 = { p with got := g } := by
  unfold readEmit
  split
  · exact ⟨p.got, rfl⟩
  · split
    · dsimp only
      split
      · exact ⟨_, rfl⟩
      · split
        · exact ⟨_, rfl⟩
        · exact ⟨_, rfl⟩
    · exact ⟨p.got, rfl⟩
    · exact ⟨p.got, rfl⟩
theorem readClean (s : State) (w : Nat) (h : keyGone s w = false) : ∃ m, (readWord s w .clean) = (s.mem.mem.word w, s.mem.mem.poisoned w, { s with mem := m }) ∧ m.mem = s.mem.mem := by
  unfold readWord
  rw [if_neg (by rw [h]; decide)]
  have : (decide (Ecc.clean = Ecc.linkLost) && decide (tierOf (128 * w) = .cxl)) = false := by simp
  have ec : eccEvent s w .clean = s := rfl
  rw [ec]
  rw [this, Bool.or_false]
  by_cases hb : (s.mem.mem.poisoned w && !false && decide (tierOf (128 * w) = Tier.cxl)) = true
  · rw [if_pos hb]; exact ⟨_, rfl, rfl⟩
  · rw [if_neg hb]; exact ⟨s.mem, rfl, rfl⟩

end Sys2Proof.Laws.Tiers
end

