-- ==== Sys2Proof/Laws/FactsTraining.lean ====
section
/-!
SUPPORT. Lemmas on barriers, updates and losses, for the statements about them.
-/

open Sys2Proof Sys2Proof.Machine Sys2Proof.Claims

namespace Sys2Proof.Laws.Training

theorem fb : ∀ a b c d e : Bool, (BitVec.ofNat 5 (packFields ([a,b,c,d,e].map fun f => (boolNat f, 1)))).getLsbD 0 = a ∧
  (BitVec.ofNat 5 (packFields ([a,b,c,d,e].map fun f => (boolNat f, 1)))).getLsbD 1 = b ∧
  (BitVec.ofNat 5 (packFields ([a,b,c,d,e].map fun f => (boolNat f, 1)))).getLsbD 2 = c ∧
  (BitVec.ofNat 5 (packFields ([a,b,c,d,e].map fun f => (boolNat f, 1)))).getLsbD 3 = d ∧
  (BitVec.ofNat 5 (packFields ([a,b,c,d,e].map fun f => (boolNat f, 1)))).getLsbD 4 = e := by decide
theorem lf (p : Nat → Nat) (a b c d e : Bool) (v : Nat) (hv : ([a,b,c,d,e].zipIdx).foldl (fun m f => if f.1 then max m (p f.2) else m) 0 = v)
   (w : BitVec 5) (h0 : w.getLsbD 0 = a) (h1 : w.getLsbD 1 = b) (h2 : w.getLsbD 2 = c) (h3 : w.getLsbD 3 = d) (h4 : w.getLsbD 4 = e) :
   (∀ k, k < 5 → w.getLsbD k = true → p k ≤ v) ∧ (v = 0 ∨ ∃ k, k < 5 ∧ w.getLsbD k = true ∧ p k = v) := by
  simp only [List.zipIdx_cons, List.zipIdx_nil, List.foldl_cons, List.foldl_nil, Nat.zero_add, Nat.reduceAdd] at hv
  have mono : ∀ (x : Bool) (m q : Nat), m ≤ (if x = true then max m q else m) := by
    intro x m q; cases x <;> simp
  have top : ∀ (x : Bool) (m q : Nat), x = true → q ≤ (if x = true then max m q else m) := by
    intro x m q h; subst h; simp
  constructor
  · intro k hk hw
    have : k = 0 ∨ k = 1 ∨ k = 2 ∨ k = 3 ∨ k = 4 := by omega
    rcases this with rfl|rfl|rfl|rfl|rfl
    · rw [hw] at h0; rw [← hv]
      exact (top a _ _ h0.symm).trans ((mono b _ _).trans ((mono c _ _).trans ((mono d _ _).trans (mono e _ _))))
    · rw [hw] at h1; rw [← hv]
      exact (top b _ _ h1.symm).trans ((mono c _ _).trans ((mono d _ _).trans (mono e _ _)))
    · rw [hw] at h2; rw [← hv]
      exact (top c _ _ h2.symm).trans ((mono d _ _).trans (mono e _ _))
    · rw [hw] at h3; rw [← hv]
      exact (top d _ _ h3.symm).trans (mono e _ _)
    · rw [hw] at h4; rw [← hv]
      exact top e _ _ h4.symm
  · have st : ∀ (x : Bool) (m q : Nat), (if x = true then max m q else m) = m ∨ (x = true ∧ (if x = true then max m q else m) = q) := by
      intro x m q; cases x <;> simp; omega
    rcases st e _ (p 4) with h | ⟨h, h'⟩
    swap
    · right; exact ⟨4, by omega, by rw [h4, h], by rw [← hv, h']⟩
    rw [h] at hv; clear h
    rcases st d _ (p 3) with h | ⟨h, h'⟩
    swap
    · right; exact ⟨3, by omega, by rw [h3, h], by rw [← hv, h']⟩
    rw [h] at hv; clear h
    rcases st c _ (p 2) with h | ⟨h, h'⟩
    swap
    · right; exact ⟨2, by omega, by rw [h2, h], by rw [← hv, h']⟩
    rw [h] at hv; clear h
    rcases st b _ (p 1) with h | ⟨h, h'⟩
    swap
    · right; exact ⟨1, by omega, by rw [h1, h], by rw [← hv, h']⟩
    rw [h] at hv; clear h
    rcases st a _ (p 0) with h | ⟨h, h'⟩
    swap
    · right; exact ⟨0, by omega, by rw [h0, h], by rw [← hv, h']⟩
    left; rw [← hv, h]
theorem snaps_ctxs (s : State) (l : List Nat) (q : List (Nat × Nat)) (e : EpSnap) : (q.foldl snapQueue (l.foldl snapCore (s, e))).1.ctxs = s.ctxs := by
  have h1 : ∀ (l : List Nat) (x : State × EpSnap), (l.foldl snapCore x).1.ctxs = x.1.ctxs := by
    intro l; induction l with
    | nil => intro x; rfl
    | cons a l ih => intro x; rw [List.foldl_cons, ih]; exact (touches_snapCore x a).2 .ctxs (by decide)
  have h2 : ∀ (l : List (Nat × Nat)) (x : State × EpSnap), (l.foldl snapQueue x).1.ctxs = x.1.ctxs := by
    intro l; induction l with
    | nil => intro x; rfl
    | cons a l ih => intro x; rw [List.foldl_cons, ih]; exact (touches_snapQueue x a).2 .ctxs (by decide)
  rw [h2, h1]
theorem step_report (s : State) (c d : Nat) (a b e : Nat) : ((report s c a b e).ctx d).step = (s.ctx d).step ∧ (report s c a b e).cores = s.cores := by
  refine ⟨?_, (touches_report s c a b e).2 .cores (by decide)⟩
  have hL : ∀ (s : State) (c : Nat) (f : Machine.Ledger → Machine.Ledger), CK (fun x => x.step) s (s.modLed c f) := fun s c f => CK.modCtx s c _ fun x => rfl
  have h2 : ∀ (s : State) (a : Nat) (j : BitVec 32) (b : Blob), CK (fun x => x.step) s (sendWrite s a j b) := by
    intro s a j b
    unfold Machine.sendWrite
    dsimp only
    refine CK.trans (t := (s.free 44).2) (CK.ofCtxs rfl) ?_
    exact CK.sendPacket (fun x _ _ _ => rfl) _ _ _ _ _ _ _
  have h3 : ∀ (s : State) (c acc : Nat) (k : Ctrl), CK (fun x => x.step) s (sendCtrlTo s c acc k) := by
    intro s c acc k
    unfold sendCtrlTo
    dsimp only
    split
    · exact (hL _ _ _).trans (hL _ _ _)
    · exact (hL _ _ _).trans (h2 _ _ _ _)
  unfold report sendCtrl
  split
  · exact h3 _ _ _ _ d
  · rfl
theorem modUpd_loss (s : State) (n : Nat) (f : UpdateUnit → UpdateUnit) (k : Nat) : ((modUpd s n f).core k).loss = (s.core k).loss := by
  unfold modUpd
  by_cases h : k = n
  · subst h; simp
  · simp [h]
theorem countSkipped_loss (s : State) (c : Nat) (k : Nat) : ((countSkipped s c).core k).loss = (s.core k).loss := by
  unfold countSkipped
  generalize coresOf s c = l
  induction l generalizing s with
  | nil => rfl
  | cons a l ih =>
    simp only [List.foldl_cons]
    rw [ih]
    split
    · split
      · exact modUpd_loss _ _ _ _
      · rfl
    · rfl
theorem fold_not (f : Core → Core) (n : Nat) : ∀ (l : List Nat) (s : State), n ∉ l → (l.foldl (fun s n => s.modCore n f) s).core n = s.core n
  | [], s, _ => rfl
  | a :: l, s, h => by
    simp only [List.mem_cons, not_or] at h
    rw [List.foldl_cons, fold_not f n l _ h.2, core_modCore_other _ _ _ _ h.1]
theorem fold_keeps {α : Type} (g : Core → α) (f : Core → Core) (hf : ∀ c, g (f c) = g c) (n : Nat) : ∀ (l : List Nat) (s : State), g ((l.foldl (fun s n => s.modCore n f) s).core n) = g (s.core n)
  | [], s => rfl
  | a :: l, s => by
    rw [List.foldl_cons, fold_keeps g f hf n l _]
    by_cases h : n = a
    · subst h; rw [core_modCore_self, hf]
    · rw [core_modCore_other _ _ _ _ h]
theorem fold_sets (P : Core → Prop) (f : Core → Core) (hf : ∀ c, P (f c)) (n : Nat) : ∀ (l : List Nat) (s : State), (n ∈ l ∨ P (s.core n)) → P ((l.foldl (fun s n => s.modCore n f) s).core n)
  | [], s, h => by simpa using h
  | a :: l, s, h => by
    rw [List.foldl_cons]
    apply fold_sets P f hf n l
    by_cases e : n = a
    · subst e; right; rw [core_modCore_self]; exact hf _
    · rw [core_modCore_other _ _ _ _ e]
      rcases h with h | h
      · simp [e] at h; exact .inl h
      · exact .inr h
theorem qfold_cores (l : List (Nat × Nat)) (f : Queue → Queue) (s : State) : (l.foldl (fun s q => s.modQueue q.1 q.2 f) s).cores = s.cores ∧ (l.foldl (fun s q => s.modQueue q.1 q.2 f) s).ctxs = s.ctxs := by
  induction l generalizing s with
  | nil => exact ⟨rfl, rfl⟩
  | cons a l ih => rw [List.foldl_cons]; exact ⟨(ih _).1, (ih _).2⟩
theorem cfold_ctxs (l : List Nat) (f : Core → Core) (s : State) : (l.foldl (fun s n => s.modCore n f) s).ctxs = s.ctxs := by
  induction l generalizing s with
  | nil => rfl
  | cons a l ih => rw [List.foldl_cons]; exact ih _
theorem step_joinAt (s : State) (c n : Nat) : CK (fun x => x.step) s (joinAtBoundary s c n) := by
  unfold joinAtBoundary
  split
  · exact CK.refl _
  · dsimp only
    split
    · exact CK.modLed _ _ _ fun _ => rfl
    · refine CK.trans (CK.trans (CK.modLed _ _ _ fun _ => rfl) (CK.foldl (fun s q => ?_) _ _)) (CK.sendCtrlTo (fun _ _ _ _ => rfl) (fun _ _ _ => rfl) _ _ _ _)
      split
      · exact CK.refl _
      · exact CK.sendCtrl (fun _ _ _ _ => rfl) (fun _ _ _ => rfl) _ _ _ _
theorem step_commitPoint (s : State) (c n : Nat) : CK (fun x => x.step) s (commitPoint s c n) := CK.modCtx _ _ _ fun _ => rfl
theorem step_unloadNow (s : State) (c : Nat) : CK (fun x => x.step) s (unloadNow s c) := by
  unfold unloadNow
  dsimp only
  have f1 : ∀ (l : List Nat) (f : Core → Core) (s : State), (l.foldl (fun s n => s.modCore n f) s).ctxs = s.ctxs := fun l f s => cfold_ctxs l f s
  have f2 : ∀ (l : List Nat) (f : Shelf → Shelf) (s : State), (l.foldl (fun s n => s.modShelf n f) s).ctxs = s.ctxs := by
    intro l f; induction l with
    | nil => intro s; rfl
    | cons a l ih => intro s; rw [List.foldl_cons, ih]; rfl
  have f3 : ∀ (l : List Nat) (s : State), (l.foldl rebindShelf s).ctxs = s.ctxs := by
    intro l; induction l with
    | nil => intro s; rfl
    | cons a l ih => intro s; rw [List.foldl_cons, ih]; exact (touches_rebindShelf _ _).2 .ctxs (by decide)
  refine CK.trans ?_ (CK.ofCtxs (f3 _ _))
  refine CK.trans ?_ (CK.modCtx _ c _ fun _ => rfl)
  refine CK.ofCtxs ?_
  rw [f2, (touches_closeQueues _ _ _).2 .ctxs (by decide), f1]
theorem mix_len (b : Blob) (l : List (LayerEnt × List UElem)) : (mixLayer b l).length = l.length := by
  unfold mixLayer
  split
  · simp
  · dsimp only
    split
    · simp
    · cases l <;> simp
  · rfl
theorem cnt (fs : List (List UFlag)) (u : UpdateUnit) : (countFlags u fs).expectT = u.expectT ∧ (countFlags u fs).layer = u.layer ∧ (countFlags u fs).updatesApplied = u.updatesApplied := by
  unfold countFlags
  induction fs generalizing u with
  | nil => exact ⟨rfl, rfl, rfl⟩
  | cons f fs ih =>
    simp only [List.foldl_cons]
    obtain ⟨a, b, c⟩ := ih (if f.contains .poison then { u with updatePoisoned := u.updatePoisoned + 1 }
    else if f.contains .nan then { u with updateNonfinite := u.updateNonfinite + 1 }
    else if f.contains .sat then { u with updateSaturations := u.updateSaturations + 1 } else u)
    rw [a, b, c]
    split
    · exact ⟨rfl, rfl, rfl⟩
    · split
      · exact ⟨rfl, rfl, rfl⟩
      · split <;> exact ⟨rfl, rfl, rfl⟩
theorem store1 (s : State) (m : Nat) (e : LayerEnt) (b : Blob) (log32 : Bool) (lr : F32) (t : Nat) (es : List UElem) :
    ∃ s' fs, s'.cores = s.cores ∧ storeMember s m e b log32 lr t es = modUpd s' m fun u => { countFlags u fs with updatesApplied := u.updatesApplied + 1, lastLr := lr } := by
  unfold storeMember
  refine ⟨_, _, ?_, rfl⟩
  have h1 : ∀ s a v, (write32s s a v).cores = s.cores := fun s a v => (touches_write32s s a v).2 .cores (by decide)
  have h2 : ∀ s e t, (setShardT s e t).cores = s.cores := fun s e t => (touches_setShardT s e t).2 .cores (by decide)
  have h3 : ∀ s e a b c, (writeStored s e a b c).cores = s.cores := fun s e a b c => (touches_writeStored s e a b c).2 .cores (by decide)
  have h4 : ∀ s e c, (writeTiled s e c).cores = s.cores := fun s e c => (touches_writeTiled s e c).2 .cores (by decide)
  have hi : ∀ (p : Prop) [Decidable p] (x y z : State), x.cores = z.cores → y.cores = z.cores → (if p then x else y).cores = z.cores := by
    intro p _ x y z hx hy; split <;> assumption
  have e1 : ∀ (p : Prop) [Decidable p] (x y : State), (if p then x else y).cores = if p then x.cores else y.cores := by
    intro p _ x y; split <;> rfl
  simp only [e1, h3, h4, h2, h1, ite_self]
theorem stopFold_facts (l : List Nat) (s : State) :
    let u := l.foldl (fun s k => s.modCore k fun c => { c with stage := { c.stage with st := .stopped } }) s
    u.mem = s.mem ∧ u.ctxs = s.ctxs ∧ (∀ k, (u.core k).upd = (s.core k).upd) ∧
      (∀ k, k ∈ l ∨ (s.core k).stage.st = .stopped → (u.core k).stage.st = .stopped) := by
  induction l generalizing s with
  | nil => exact ⟨rfl, rfl, fun _ => rfl, fun k h => by simpa using h⟩
  | cons a l ih =>
    obtain ⟨h1, h2, h3, h4⟩ := ih (s.modCore a fun c => { c with stage := { c.stage with st := .stopped } })
    rw [List.foldl_cons]
    refine ⟨h1, h2, fun k => (h3 k).trans ?_, fun k h => h4 k ?_⟩
    · by_cases e : k = a
      · subst e; simp
      · simp [e]
    · by_cases e : k = a
      · subst e; right; simp
      · rw [core_modCore_other _ _ _ _ e]
        rcases h with h | h
        · simp [e] at h; exact .inl h
        · exact .inr h
theorem stopAll_facts (s : State) (m : Nat) (l : List Nat) (n : StopName) :
    (stopAll s (m :: l) n).mem = s.mem ∧ (∀ k, ((stopAll s (m :: l) n).core k).upd = (s.core k).upd) ∧
      (∀ k ∈ m :: l, ((stopAll s (m :: l) n).core k).stage.st = .stopped) ∧
      CoreFaulted s (stopAll s (m :: l) n) (s.core m).stage.ctx n := by
  unfold stopAll
  obtain ⟨h1, h2, h3, h4⟩ := stopFold_facts l (stopStage s m n 0)
  obtain ⟨g1, g2, g3, g4, g5⟩ := stopStage_facts s m n 0
  refine ⟨h1.trans g5, fun k => (h3 k).trans ?_, fun k hk => h4 k ?_, ?_, fun h => ⟨m, ?_⟩⟩
  · by_cases e : k = m
    · subst e; simp [stopStage, contextFault]
    · rw [g1 k e]
  · rcases List.mem_cons.1 hk with e | e
    · subst e; exact .inr g2
    · exact .inl e
  · rw [ctx_of h2]; exact g3
  · rw [ctx_of h2]; exact g4 h
theorem modUpd_core (s : State) (n : Nat) (f : UpdateUnit → UpdateUnit) : (modUpd s n f).core n = { s.core n with upd := f (s.core n).upd } := by
  simp [modUpd]
theorem modUpd_other (s : State) (n k : Nat) (f : UpdateUnit → UpdateUnit) (h : k ≠ n) : (modUpd s n f).core k = s.core k := by
  simp [modUpd, h]
theorem layerDone_facts (s : State) (ms : List Nat) (b : Bool) (hn : ms.Nodup) :
    (layerDone s ms b).mem.mem = s.mem.mem ∧
    (∀ m ∈ ms, ((layerDone s ms b).core m).upd = { (s.core m).upd with layer := (s.core m).upd.layer + 1 } ∧
      ((layerDone s ms b).core m).inp = if b then tset (s.core m).inp 0 InPort.empty else (s.core m).inp) ∧
    (∀ k, k ∉ ms → Moved (s.core k) ((layerDone s ms b).core k)) := by
  unfold layerDone
  have hm : ∀ (s : State) (m k : Nat), k ≠ m → Moved (s.core k) ((modUpd (if b then releaseIn s m 0 else s) m fun u => { u with layer := u.layer + 1 }).core k) := by
    intro s m k h
    rw [modUpd_other _ _ _ _ h]
    split
    · exact (release_facts s m 0).1 k h
    · exact .refl _
  refine ⟨?_, ?_, ?_⟩
  · clear hn
    induction ms generalizing s with
    | nil => rfl
    | cons a l ih =>
      rw [List.foldl_cons, ih]
      show (if b then releaseIn s a 0 else s).mem.mem = s.mem.mem
      split
      · exact (touches_releaseIn s a 0).2 .bytes (by decide)
      · rfl
  · obtain ⟨-, h2⟩ := fold_view (fun c => (c.upd, c.inp)) (fun m : Nat => m) (fun s m => modUpd (if b then releaseIn s m 0 else s) m fun u => { u with layer := u.layer + 1 })
      (fun _ q => ({ q.1 with layer := q.1.layer + 1 }, if b then tset q.2 0 InPort.empty else q.2))
      (fun s m k h => by rw [(hm s m k h).upd, (hm s m k h).inp])
      (fun s m => by
        rw [modUpd_core]
        cases b with
        | true =>
          have := release_self s m 0 m
          simp only [if_true]
          rw [this.upd, this.inp, core_modCore_self]
        | false => rfl) ms s (by simpa using hn)
    intro m hk
    have := h2 m hk
    simp only [Prod.mk.injEq] at this
    exact this
  · intro k hk
    exact fold_moved (fun m : Nat => m) _ hm ms s k (by simpa using hk)
/-- The stores of a layer: every member counts its update and takes the rate. -/
theorem storeFold_facts (ms : List Nat) (es : List (LayerEnt × List UElem)) (he : ms.length = es.length) (hn : ms.Nodup) (b : Blob) (log32 : Bool) (lr : F32) (t : Nat) (s : State) :
    let u := (ms.zip es).foldl (fun s q => storeMember s q.1 q.2.1 b log32 lr t q.2.2) s
    (∀ k, k ∉ ms → u.core k = s.core k) ∧ (∀ m ∈ ms, (u.core m).upd.expectT = (s.core m).upd.expectT ∧
      (u.core m).upd.layer = (s.core m).upd.layer ∧ (u.core m).upd.updatesApplied = (s.core m).upd.updatesApplied + 1 ∧
      (u.core m).upd.lastLr = lr ∧ (u.core m).inp = (s.core m).inp) := by
  have hk : (ms.zip es).map (·.1) = ms := List.map_fst_zip (by omega)
  have hs : ∀ (s : State) (q : Nat × LayerEnt × List UElem) k, k ≠ q.1 → (storeMember s q.1 q.2.1 b log32 lr t q.2.2).core k = s.core k := by
    intro s q k h
    obtain ⟨s', fs, c, e⟩ := store1 s q.1 q.2.1 b log32 lr t q.2.2
    rw [e, modUpd_other _ _ _ _ h, core_of c]
  constructor
  · intro k hk'
    have gen : ∀ (l : List (Nat × LayerEnt × List UElem)) (s : State), k ∉ l.map (·.1) → (l.foldl (fun s q => storeMember s q.1 q.2.1 b log32 lr t q.2.2) s).core k = s.core k := by
      intro l; induction l with
      | nil => intro s _; rfl
      | cons a l ih =>
        intro s h
        rw [List.map_cons, List.mem_cons, not_or] at h
        rw [List.foldl_cons, ih _ h.2, hs _ _ _ h.1]
    exact gen _ _ (by rw [hk]; exact hk')
  · obtain ⟨-, h2⟩ := fold_view (fun c => (c.upd.expectT, c.upd.layer, c.upd.updatesApplied, c.upd.lastLr, c.inp)) (fun q : Nat × LayerEnt × List UElem => q.1)
      (fun s q => storeMember s q.1 q.2.1 b log32 lr t q.2.2)
      (fun _ v => (v.1, v.2.1, v.2.2.1 + 1, lr, v.2.2.2.2))
      (fun s q k h => by rw [hs s q k h])
      (fun s q => by
        obtain ⟨s', fs, c, e⟩ := store1 s q.1 q.2.1 b log32 lr t q.2.2
        obtain ⟨n1, n2, n3⟩ := cnt fs (s.core q.1).upd
        rw [e, modUpd_core, core_of c]
        simp only [n1, n2]) (ms.zip es) s (by rw [hk]; exact hn)
    intro m hm
    rw [← hk] at hm
    obtain ⟨q, hq, rfl⟩ := List.mem_map.1 hm
    have := h2 q hq
    simp only [Prod.mk.injEq] at this
    exact this
theorem updFold_facts (ms : List Nat) (hn : ms.Nodup) (f : UpdateUnit → UpdateUnit) (s : State) :
    let u := ms.foldl (fun s m => modUpd s m f) s
    (∀ k, k ∉ ms → u.core k = s.core k) ∧ (∀ m ∈ ms, u.core m = { s.core m with upd := f (s.core m).upd }) := by
  obtain ⟨h1, h2⟩ := fold_view (fun c => c) (fun m : Nat => m) (fun s m => modUpd s m f) (fun _ c => { c with upd := f c.upd })
    (fun s m k h => modUpd_other _ _ _ _ h) (fun s m => modUpd_core _ _ _) ms s (by simpa using hn)
  exact ⟨fun k hk => h1 k (by simpa using hk), h2⟩

end Sys2Proof.Laws.Training
end

