-- ==== Sys2Proof/Laws/FactsVolumes.lean ====
section
/-!
SUPPORT. Lemmas on job volumes, for the statements about them.
-/

open Sys2Proof Sys2Proof.Machine Sys2Proof.Claims

namespace Sys2Proof.Laws.Volumes

/-- What keeps the slips, the RELEASE that waits, the fabric state and the contexts. -/
structure VW (s t : State) : Prop where
  taken : t.host.taken = s.host.taken
  release : t.sec.release = s.sec.release
  fab : t.fab = s.fab
  ctxs : t.ctxs = s.ctxs
theorem VW.refl (s : State) : VW s s := ⟨rfl, rfl, rfl, rfl⟩
theorem VW.trans {s t u : State} (a : VW s t) (b : VW t u) : VW s u :=
  ⟨b.taken.trans a.taken, b.release.trans a.release, b.fab.trans a.fab, b.ctxs.trans a.ctxs⟩
theorem VW.dropVolume (s : State) (j : BitVec 32) : VW s (dropVolume s j) := by
  unfold Machine.dropVolume
  dsimp only
  split
  · exact VW.refl s
  · exact ⟨rfl, rfl, rfl, rfl⟩
theorem VW.weedEntry (s : State) (e : Nat) : VW s (weedEntry s e) := by
  unfold Machine.weedEntry
  split
  · exact VW.refl s
  · exact VW.trans (t := State.modHost s _) ⟨rfl, rfl, rfl, rfl⟩ (VW.dropVolume _ _)
theorem VW.weedUntil (met : State → Bool) : ∀ (n : Nat) (s r : State), weedUntil met n s = some r → VW s r ∧ met r = true
  | 0, s, r, h => by
    unfold Machine.weedUntil at h
    split at h
    · rename_i hm; cases h; exact ⟨VW.refl s, hm⟩
    · cases h
  | n + 1, s, r, h => by
    unfold Machine.weedUntil at h
    split at h
    · rename_i hm; cases h; exact ⟨VW.refl s, hm⟩
    · split at h
      · have := VW.weedUntil met n _ r h
        exact ⟨(VW.weedEntry s _).trans this.1, this.2⟩
      · cases h
theorem VW.stampEntry (s : State) (e : Nat) : VW s (stampEntry s e) := by
  unfold Machine.stampEntry useStamp
  dsimp only
  split <;> exact ⟨rfl, rfl, rfl, rfl⟩
theorem VW.ensureEntry {s r : State} {j : BitVec 32} {k e : Nat} (h : ensureEntry s j k = some (e, r)) : VW s r := by
  unfold Machine.ensureEntry at h
  split at h
  · injection h with h
    injection h with h1 h2
    rw [← h2]; exact VW.stampEntry s _
  · rw [Option.bind_eq_some_iff] at h
    obtain ⟨s1, h1, h2⟩ := h
    rw [Option.map_eq_some_iff] at h2
    obtain ⟨e', h3, h4⟩ := h2
    injection h4 with h5 h6
    rw [← h6]
    exact ((VW.weedUntil _ _ _ _ h1).1.trans (t := s1) (VW.trans (t := State.modHost s1 _) ⟨rfl, rfl, rfl, rfl⟩ (VW.stampEntry _ _)))
theorem VW.foldWeed : ∀ (l : List (Nat × CatEntry)) (s : State), VW s (l.foldl (fun s e => Machine.weedEntry s e.1) s)
  | [], s => VW.refl s
  | a :: l, s => by
    rw [List.foldl_cons]
    exact (VW.weedEntry s a.1).trans (VW.foldWeed l _)
theorem VW.replaceVolume (s : State) (j : BitVec 32) : VW s (replaceVolume s j) :=
  (VW.foldWeed _ s).trans ⟨rfl, rfl, rfl, rfl⟩
theorem VW.wantKey (s : State) (k : KeyId) : VW s (wantKey s k) :=
  ⟨rfl, (want_release s k).1, rfl, rfl⟩
theorem kept_find (s : State) (v : Volume) : volumeOf (keepVolume s v) v.job = some v := by
  unfold volumeOf keepVolume State.modHost
  simp only
  rw [List.find?_append, List.find?_eq_none.mpr]
  · simp
  · intro y hy
    have := (List.mem_filter.mp hy).2
    simpa using this
theorem find_filter_ne (l : List Volume) (j i : BitVec 32) (h : j ≠ i) : (l.filter fun u => u.job ≠ i).find? (fun u => u.job = j) = l.find? (fun u => u.job = j) := by
  induction l with
  | nil => rfl
  | cons a l ih =>
    rw [List.filter_cons]
    split
    · rw [List.find?_cons, List.find?_cons, ih]
    · rename_i hn
      simp at hn
      rw [ih, List.find?_cons]
      simp [hn, Ne.symm h]
theorem kept_other (s : State) (v : Volume) (j : BitVec 32) (h : j ≠ v.job) : volumeOf (keepVolume s v) j = volumeOf s j := by
  unfold volumeOf keepVolume State.modHost
  simp only
  rw [List.find?_append, find_filter_ne _ _ _ h]
  simp [Ne.symm h]
theorem undo_done {u : State} {x : Taken} {a b : BitVec 64} {e : BitVec 576} (hr : x.result = none) (hfind : (u.host.taken.find? fun y => y.number = x.number) = some x) (job : BitVec 32) :
    undoRefused (endWith u x (.done a b e)) x job = endWith u x (.done a b e) := by
  unfold undoRefused
  rw [endWith_find hr hfind]
  rfl
/-- A slip that runs, and whose record is still as it was. -/
structure Run (u : State) (x : Taken) : Prop where
  mem : x ∈ u.host.taken
  res : x.result = none
  find : (u.host.taken.find? fun y => y.number = x.number) = some x
theorem Run.keep {s t : State} {x : Taken} (h : Run s x) (w : VW s t) : Run t x :=
  ⟨by rw [w.taken]; exact h.mem, h.res, by rw [w.taken]; exact h.find⟩
theorem finish_given (r : State) (x : Taken) (job : BitVec 32) (own : Option Nat) (new : Bool) (h : Run r x) :
    EntryGiven r x job own (if new then 0x40#64 else 0) (finishVolume r x job own new) ∧ (finishVolume r x job own new).sec.release = r.sec.release ∧ (finishVolume r x job own new).fab = r.fab := by
  cases own with
  | none =>
    have e : finishVolume r x job none new = endWith (useStamp r).2 x (volumeResult job none new) := rfl
    rw [e]
    unfold volumeResult
    dsimp only
    rw [show (BitVec.ofNat 64 0 ||| (if new then 0x40#64 else 0)) = (if new then 0x40#64 else 0) by cases new <;> decide]
    exact ⟨⟨fun _ => ⟨endWith_ended (u := (useStamp r).2) h.mem h.res _, rfl, rfl⟩, fun k hk => by cases hk⟩, rfl, rfl⟩
  | some k =>
    unfold finishVolume
    dsimp only
    cases he : ensureEntry r job k with
    | none =>
      dsimp only
      exact ⟨⟨fun h => (by cases h), fun k' hk => by
        cases hk
        refine ⟨fun e r1 h1 => ?_, fun _ => ⟨endWith_ended h.mem h.res _, rfl⟩⟩
        rw [he] at h1; cases h1⟩, rfl, rfl⟩
    | some p =>
      obtain ⟨e, r1⟩ := p
      dsimp only
      have w := VW.ensureEntry he
      have h1 := h.keep w
      refine ⟨⟨fun h => (by cases h), fun k' hk => ?_⟩, ?_, ?_⟩
      · cases hk
        refine ⟨fun e' r1' h2 => ?_, fun h2 => ?_⟩
        · rw [he] at h2; cases h2
          exact ⟨endWith_ended h1.mem h1.res _, rfl, rfl⟩
        · rw [he] at h2; cases h2
      · exact w.release
      · exact w.fab
theorem drop_gone (s : State) (j : BitVec 32) (h : ∀ e ∈ s.host.cat, e.2.job ≠ j) (hl : ledgerCtx s j = none) : volumeOf (dropVolume s j) j = none := by
  unfold dropVolume
  dsimp only
  rw [if_neg (by
    rw [hl]
    simp only [Option.isSome_none, Bool.or_false, List.any_eq_true, decide_eq_true_eq, not_exists, not_and]
    exact h)]
  show (s.host.volumes.filter _).find? _ = none
  rw [List.find?_eq_none]
  intro z hz
  have := (List.mem_filter.mp hz).2
  simpa using this
theorem undo_ended (u : State) (x : Taken) (job : BitVec 32) {n : Nat} {r : SlipResult} (h : Ended u n r) : Ended (undoRefused u x job) n r := by
  unfold undoRefused
  split
  · obtain ⟨y, hy, h1⟩ := h
    exact ⟨y, by rw [(VW.dropVolume u job).taken]; exact hy, h1⟩
  · exact h
theorem undo_vw (u : State) (x : Taken) (job : BitVec 32) : VW u (undoRefused u x job) := by
  unfold undoRefused
  split
  · exact VW.dropVolume u job
  · exact VW.refl u
theorem added (r : State) (x : Taken) (p : Blob) (hv : Nat → Bool) (own : Option Nat) (v : Volume) (hown : v.ownImage = own) (h : Run r x) :
    VolumeAdded r x p hv v (addVolume r x p hv own v) ∧ (addVolume r x p hv own v).sec.release = r.sec.release ∧ (addVolume r x p hv own v).fab = r.fab := by
  subst hown
  unfold addVolume
  by_cases hb : sectionsBad p hv = true
  · rw [if_pos hb]
    exact ⟨⟨fun _ => ⟨endWith_ended (u := State.modSec r _) h.mem h.res _, rfl, rfl⟩, fun g => by rw [hb] at g; cases g⟩, rfl, rfl⟩
  · rw [if_neg hb]
    cases hm : makeRoom r v.mib with
    | none =>
      dsimp only
      exact ⟨⟨fun g => absurd g hb, fun _ => ⟨fun _ => ⟨endWith_ended h.mem h.res _, rfl⟩, fun r1 h1 => (by rw [hm] at h1; cases h1)⟩⟩, rfl, rfl⟩
    | some r1 =>
      dsimp only
      have w1 : VW r r1 := (VW.weedUntil _ _ _ _ hm).1
      have h1 := h.keep w1
      have h2 : Run (keepVolume r1 v) x := ⟨h1.mem, h1.res, h1.find⟩
      obtain ⟨f1, f2, f3⟩ := finish_given (keepVolume r1 v) x v.job v.ownImage true h2
      have uw := undo_vw (finishVolume (keepVolume r1 v) x v.job v.ownImage true) x v.job
      refine ⟨⟨fun g => absurd g hb, fun _ => ⟨fun g => (by rw [hm] at g; cases g), fun r1' hr1 => ?_⟩⟩, ?_, ?_⟩
      · rw [hm] at hr1; cases hr1
        refine ⟨fun k hk he => ?_, fun hno => ?_⟩
        · have e : finishVolume (keepVolume r1 v) x v.job v.ownImage true = refuse (keepVolume r1 v) x .catalogueFull := by
            unfold finishVolume; rw [hk]; dsimp only; rw [he]
          have e2 : undoRefused (refuse (keepVolume r1 v) x .catalogueFull) x v.job = dropVolume (refuse (keepVolume r1 v) x .catalogueFull) v.job := by
            unfold undoRefused refuse
            rw [endWith_find h2.res h2.find]
            rfl
          refine ⟨?_, fun hc hl => ?_⟩
          · rw [e]; exact undo_ended _ _ _ (endWith_ended h2.mem h2.res _)
          · rw [e, e2]; exact drop_gone _ _ hc hl
        · have e : undoRefused (finishVolume (keepVolume r1 v) x v.job v.ownImage true) x v.job = finishVolume (keepVolume r1 v) x v.job v.ownImage true := by
            cases ho : v.ownImage with
            | none =>
              have e : finishVolume (keepVolume r1 v) x v.job none true = endWith (useStamp (keepVolume r1 v)).2 x (volumeResult v.job none true) := rfl
              rw [e]
              unfold volumeResult
              exact undo_done h2.res (u := (useStamp (keepVolume r1 v)).2) h2.find _
            | some k =>
              cases he : ensureEntry (keepVolume r1 v) v.job k with
              | none => exact absurd he (hno k ho)
              | some q =>
                obtain ⟨e, r2⟩ := q
                have e : finishVolume (keepVolume r1 v) x v.job (some k) true = endWith r2 x (volumeResult v.job (some e) true) := by
                  unfold finishVolume; dsimp only; rw [he]
                rw [e]
                have h3 := h2.keep (VW.ensureEntry he)
                unfold volumeResult
                exact undo_done h3.res h3.find _
          rw [e]
          exact f1
      · rw [uw.release, f2]; exact w1.release
      · rw [uw.fab, f3]; exact w1.fab
theorem volume_taken (s : State) (x : Taken) (b : Blob) (sg : Bool) (hv : Blob → Nat → Bool) (h : Run s x) :
    VolumeTaken s x b sg hv (takeVolume s x b sg hv) ∧ (takeVolume s x b sg hv).sec.release = s.sec.release ∧ (takeVolume s x b sg hv).fab = s.fab := by
  unfold takeVolume
  cases ho : openRefusal s b sg with
  | some n =>
    dsimp only
    refine ⟨⟨fun m hm => ?_, fun g => ?_⟩, rfl, rfl⟩
    · rw [ho] at hm; cases hm
      exact ⟨endWith_ended (u := State.modSec s _) h.mem h.res _, rfl, rfl, rfl⟩
    · rw [ho] at g; cases g
  | none =>
    dsimp only
    have w : VW s (wantKey (wantKey s .identity) (.volume (volJob b))) := (VW.wantKey s _).trans (VW.wantKey _ _)
    have ht := h.keep w
    have ev : ∀ j, volumeOf (wantKey (wantKey s .identity) (.volume (volJob b))) j = volumeOf s j := fun _ => rfl
    have el : ∀ j, ledgerCtx (wantKey (wantKey s .identity) (.volume (volJob b))) j = ledgerCtx s j := fun _ => rfl
    have eo : ∀ z, volOwnImage (wantKey (wantKey s .identity) (.volume (volJob b))) z = volOwnImage s z := fun _ => rfl
    have evol : (wantKey (wantKey s .identity) (.volume (volJob b))).host.volumes = s.host.volumes := rfl
    unfold VolumeTaken
    dsimp only
    generalize wantKey (wantKey s .identity) (.volume (volJob b)) = r at *
    unfold admitVolume
    dsimp only
    rw [ev, eo]
    cases hvol : volumeOf s (volJob b) with
    | none =>
      dsimp only
      obtain ⟨a1, a2, a3⟩ := added r x (volPlain ((vkOf s b).getD 0) b) (hv (volPlain ((vkOf s b).getD 0) b)) (volOwnImage s (volPlain ((vkOf s b).getD 0) b)) (keptVolume ((vkOf s b).getD 0) b (volPlain ((vkOf s b).getD 0) b) (volOwnImage s (volPlain ((vkOf s b).getD 0) b))) rfl ht
      exact ⟨⟨fun n hn => (by rw [ho] at hn; cases hn), fun _ => ⟨fun u hu => (by cases hu), fun u hu => (by cases hu), fun _ => a1⟩⟩, a2.trans w.release, a3.trans w.fab⟩
    | some u =>
      dsimp only
      by_cases hd : u.digest = volDigest b
      · rw [if_pos hd]
        obtain ⟨a1, a2, a3⟩ := finish_given r x (volJob b) u.ownImage false ht
        refine ⟨⟨fun n hn => (by rw [ho] at hn; cases hn), fun _ => ⟨fun y hy _ => ?_, fun y hy hne => ?_, fun g => by cases g⟩⟩, a2.trans w.release, a3.trans w.fab⟩
        · cases hy; exact a1
        · cases hy; exact absurd hd hne
      · rw [if_neg hd, el]
        by_cases hl : (ledgerCtx s (volJob b)).isSome = true
        · rw [if_pos hl]
          refine ⟨⟨fun n hn => (by rw [ho] at hn; cases hn), fun _ => ⟨fun y hy he => ?_, fun y hy hne => ⟨fun _ => ⟨endWith_ended ht.mem ht.res _, ?_⟩, fun g => ?_⟩, fun g => by cases g⟩⟩, w.release, w.fab⟩
          · cases hy; exact absurd he hd
          · exact evol
          · rw [hl] at g; cases g
        · rw [if_neg hl]
          have w2 := VW.replaceVolume r (volJob b)
          obtain ⟨a1, a2, a3⟩ := added (replaceVolume r (volJob b)) x (volPlain ((vkOf s b).getD 0) b) (hv (volPlain ((vkOf s b).getD 0) b)) (volOwnImage s (volPlain ((vkOf s b).getD 0) b)) (keptVolume ((vkOf s b).getD 0) b (volPlain ((vkOf s b).getD 0) b) (volOwnImage s (volPlain ((vkOf s b).getD 0) b))) rfl (ht.keep w2)
          refine ⟨⟨fun n hn => (by rw [ho] at hn; cases hn), fun _ => ⟨fun y hy he => ?_, fun y hy hne => ⟨fun g => absurd g hl, fun _ => a1⟩, fun g => by cases g⟩⟩, a2.trans (w2.release.trans w.release), a3.trans (w2.fab.trans w.fab)⟩
          cases hy; exact absurd he hd
theorem tset_len {α : Type} : ∀ (l : Tbl α) (k : Nat) (v : α), (tset l k v).length ≤ l.length + 1
  | [], k, v => by simp [tset]
  | a :: l, k, v => by
    unfold tset
    have := tset_len l k v
    split
    · simp
    · split <;> simp <;> omega
/-- What a pull has of a list of chunks stays with it as more are asked for. -/
theorem pullMore_facts (peer : Nat) (job : BitVec 32) : ∀ (f : Nat) (s : State) (u : Pull), findPull s peer job = some u →
    ∃ y, findPull (pullMore peer job f s) peer job = some y ∧ y.headed = u.headed ∧ y.chunks = u.chunks ∧
      (∀ i, ((tget u.out i).isSome = true ∨ i ∈ u.want) → ((tget y.out i).isSome = true ∨ i ∈ y.want)) ∧
      (u.out.length ≤ 16 → y.out.length ≤ 16)
  | 0, s, u, h => ⟨u, h, rfl, rfl, fun _ h => h, fun h => h⟩
  | f + 1, s, u, h => by
    have h' : (s.fab.pulls.find? fun u => u.peer = peer && u.job = job) = some u := h
    rw [pullMore, h']
    dsimp only
    cases hw : u.want with
    | nil => exact ⟨u, h, rfl, rfl, fun i g => by rw [hw]; exact g, fun h => h⟩
    | cons i t =>
      dsimp only
      by_cases hl : 16 ≤ u.out.length
      · rw [if_pos hl]; exact ⟨u, h, rfl, rfl, fun j g => by rw [hw]; exact g, fun h => h⟩
      · rw [if_neg hl]
        generalize hs : sendPacket _ _ _ _ _ _ _ = w
        have ew : findPull w peer job = some { u with want := t, out := tset u.out i Blob.empty } := by
          rw [← hs]
          unfold findPull
          obtain ⟨L, T, n, e⟩ := (FS.sendPacket (s.modFab fun x => { x with pulls := x.pulls.map fun y => if y = u then { u with want := t, out := tset u.out i Blob.empty } else y }) peer job 0xFFD 8 0xFFFF ⟨12, packFields [(loanBytes * i, 64), (loanBytes, 32)]⟩).fab
          rw [e]
          show (s.fab.pulls.map _).find? _ = _
          rw [find_mapf _ _ (by intro a; split; (rename_i ha; rw [ha]); rfl), h']
          simp
        obtain ⟨y, a1, a2, a3, a4, a5⟩ := pullMore_facts peer job f w _ ew
        refine ⟨y, a1, a2, a3, fun j hj => a4 j ?_, fun _ => a5 ?_⟩
        · rcases hj with g | g
          · left
            by_cases e : j = i
            · subst e; rw [tget_tset_self]; rfl
            · rw [tget_tset_other _ _ _ _ e]; exact g
          · rcases List.mem_cons.1 g with g | g
            · left; rw [g, tget_tset_self]; rfl
            · right; exact g
        · have := tset_len u.out i Blob.empty
          show (tset u.out i Blob.empty).length ≤ 16
          omega
theorem pullMore_keep (peer : Nat) (job : BitVec 32) (f : Nat) (s : State) : (pullMore peer job f s).sec = s.sec ∧ (pullMore peer job f s).host = s.host :=
  ⟨(touches_pullMore _ _ _ _).2 .sec (by decide), (touches_pullMore _ _ _ _).2 .host (by decide)⟩
theorem asked (s : State) (u : Pull) (l : List Nat) (hd : Bool) (h : findPull s u.peer u.job = some u) : ChunksAsked s u l hd (askChunks s u l hd) ∧ (askChunks s u l hd).sec.release = s.sec.release := by
  unfold askChunks
  dsimp only
  generalize hs : State.modFab s _ = w
  have ew : findPull w u.peer u.job = some { u with want := u.want ++ (l.eraseDups.filter fun i => (tget u.chunks i).isNone && (tget u.out i).isNone && !u.want.contains i), headed := hd } := by
    rw [← hs]
    show (s.fab.pulls.map _).find? _ = _
    rw [find_mapf _ _ (by intro a; split <;> rfl)]
    rw [show s.fab.pulls.find? (fun y => decide (y.peer = u.peer) && decide (y.job = u.job)) = some u from h]
    simp
  obtain ⟨y, a1, a2, a3, a4, a5⟩ := pullMore_facts u.peer u.job 16 w _ ew
  have k := pullMore_keep u.peer u.job 16 w
  refine ⟨⟨y, a1, a2, a3, fun i hi => ?_, a5, ?_⟩, ?_⟩
  · by_cases hc : (tget u.chunks i).isSome = true
    · exact Or.inl hc
    · right
      apply a4
      by_cases ho : (tget u.out i).isSome = true
      · exact Or.inl ho
      · right
        dsimp only
        by_cases hw : i ∈ u.want
        · exact List.mem_append_left _ hw
        · apply List.mem_append_right
          rw [List.mem_filter]
          refine ⟨List.mem_eraseDups.2 hi, ?_⟩
          simp only [Bool.and_eq_true, Bool.not_eq_true', Option.isNone_iff_eq_none]
          refine ⟨⟨?_, ?_⟩, ?_⟩
          · simpa using hc
          · simpa using ho
          · simpa using hw
  · rw [k.2, ← hs]; rfl
  · rw [k.1, ← hs]; rfl
theorem settles {i : Instr} {s u : State} {P : State → Prop} (hx : exec i s = .next (settleRelease u)) (h1 : P u) (h2 : u.sec.release = s.sec.release) : Settles i s P := ⟨u, hx, h2, h1⟩
theorem findPull_names {s : State} {peer : Nat} {job : BitVec 32} {u : Pull} (h : findPull s peer job = some u) : u.peer = peer ∧ u.job = job := by
  unfold findPull at h
  have := List.find?_some h
  simpa using this
theorem dropped (s : State) (peer : Nat) (job : BitVec 32) : findPull (dropPull s peer job) peer job = none := by
  show (s.fab.pulls.filter _).find? _ = none
  rw [List.find?_eq_none]
  intro z hz hh
  have := (List.mem_filter.mp hz).2
  rw [hh] at this
  simp at this

end Sys2Proof.Laws.Volumes
end

