-- ==== Sys2Proof/Laws/FactsWaves.lean ====
section
/-!
SUPPORT. Lemmas on memory bring-up and waves, for the statements about them.
-/

open Sys2Proof Sys2Proof.Machine Sys2Proof.Claims

namespace Sys2Proof.Laws.Waves

theorem cxl_fold (f : Nat → Cxl → Cxl) : ∀ (l : List Nat) (s : State), l.Nodup → ∀ k, (l.foldl (fun s p => s.modCxl p (f p)) s).cxl k = if k ∈ l then f k (s.cxl k) else s.cxl k
  | [], s, _, k => by simp
  | n :: l, s, h, k => by
    have hd := List.nodup_cons.mp h
    rw [List.foldl_cons, cxl_fold f l _ hd.2 k]
    by_cases e : k = n
    · subst e
      rw [if_neg hd.1, if_pos (by simp), cxl_modCxl_self]
    · rw [cxl_modCxl_other _ _ _ _ e]
      by_cases m : k ∈ l
      · rw [if_pos m, if_pos (by simp [m])]
      · rw [if_neg m, if_neg (by simp [m, e])]
theorem hbm_fold (f : Nat → Hbm → Hbm) : ∀ (l : List Nat) (s : State), l.Nodup → ∀ k, (l.foldl (fun s p => s.modHbm p (f p)) s).hbm k = if k ∈ l then f k (s.hbm k) else s.hbm k
  | [], s, _, k => by simp
  | n :: l, s, h, k => by
    have hd := List.nodup_cons.mp h
    rw [List.foldl_cons, hbm_fold f l _ hd.2 k]
    by_cases e : k = n
    · subst e
      rw [if_neg hd.1, if_pos (by simp), hbm_modHbm_self]
    · rw [hbm_modHbm_other _ _ _ _ e]
      by_cases m : k ∈ l
      · rw [if_pos m, if_pos (by simp [m])]
      · rw [if_neg m, if_neg (by simp [m, e])]
theorem fold_bring {α : Type} {f : State → α → State} (hf : ∀ s a, (f s a).bring = s.bring ∧ (f s a).host = s.host) : ∀ (l : List α) (s : State), (l.foldl f s).bring = s.bring ∧ (l.foldl f s).host = s.host
  | [], s => ⟨rfl, rfl⟩
  | a :: l, s => ⟨(fold_bring hf l _).1.trans (hf s a).1, (fold_bring hf l _).2.trans (hf s a).2⟩
theorem fold_cxls {α : Type} {f : State → α → State} (hf : ∀ s a, (f s a).mem.cxl = s.mem.cxl) : ∀ (l : List α) (s : State), (l.foldl f s).mem.cxl = s.mem.cxl
  | [], s => rfl
  | a :: l, s => (fold_cxls hf l _).trans (hf s a)
theorem train_facts (s : State) (a b : BitVec 4) :
    (∀ p, p < 4 → ((trainCxl s a b).cxl p).st = (if a.getLsbD p then .up else .failed) ∧ ((trainCxl s a b).cxl p).retained = (a.getLsbD p && b.getLsbD p && (s.cxl p).held)) ∧
    ∃ w, (trainCxl s a b).bring = { s.bring with warmRec := w } ∧ (w = s.bring.warmRec ∨ w = none ∧ ∃ p, p < 4 ∧ ((trainCxl s a b).cxl p).retained = false) := by
  unfold trainCxl
  dsimp only
  have hf := cxl_fold (fun p x => { x with st := if a.getLsbD p then .up else .failed, retained := a.getLsbD p && b.getLsbD p && x.held, held := false }) (List.range 4) s List.nodup_range
  have hb := (fold_bring (f := fun s p => s.modCxl p fun x => { x with st := if a.getLsbD p then .up else .failed, retained := a.getLsbD p && b.getLsbD p && x.held, held := false }) (fun _ _ => ⟨rfl, rfl⟩) (List.range 4) s).1
  generalize (List.range 4).foldl (fun s p => s.modCxl p fun x => { x with st := if a.getLsbD p then .up else .failed, retained := a.getLsbD p && b.getLsbD p && x.held, held := false }) s = s1 at hf hb ⊢
  have base : ∀ p, p < 4 → (s1.cxl p).st = (if a.getLsbD p then .up else .failed) ∧ (s1.cxl p).retained = (a.getLsbD p && b.getLsbD p && (s.cxl p).held) := by
    intro p hp
    rw [hf p, if_pos (List.mem_range.mpr hp)]
    exact ⟨rfl, rfl⟩
  split
  · exact ⟨base, s.bring.warmRec, hb, Or.inl rfl⟩
  · rename_i hn
    refine ⟨fun p hp => base p hp, none, by rw [← hb]; rfl, Or.inr ⟨rfl, ?_⟩⟩
    by_cases h0 : (s1.cxl 0).retained = true
    · refine ⟨1, by decide, ?_⟩
      show (s1.cxl 1).retained = false
      cases h1 : (s1.cxl 1).retained
      · rfl
      · exact absurd (by rw [h0, h1]; rfl) hn
    · refine ⟨0, by decide, ?_⟩
      show (s1.cxl 0).retained = false
      simpa using h0
theorem loseAll_cxl (s : State) (ns : List Nat) : (loseAll s ns).mem.cxl = s.mem.cxl := by
  unfold loseAll
  dsimp only
  generalize List.filter _ (List.range nCtx) = hit
  exact (fold_cxls (f := fun s c => contextFault s c ⟨.granuleLost, none, .memory, 0⟩) (fun s a => rfl) _ _).trans rfl
theorem lose_facts (s : State) (p : Nat) : (loseGranules s p).mem.cxl = s.mem.cxl ∧ (loseGranules s p).bring = s.bring ∧ (loseGranules s p).host = s.host :=
  ⟨by unfold loseGranules; rw [loseAll_cxl], (touches_loseGranules s p).2 .bring (by decide), (touches_loseGranules s p).2 .host (by decide)⟩
theorem tget_failed (l : Tbl Site) (i : Nat) (z : Site) (h : tget l i = some z) (hz : z.failed = true) :
    tget ((l.filter fun p => p.2.failed).map fun p => (p.1, { ({} : Site) with cause := p.2.cause, failed := true, fwFailures := p.2.fwFailures })) i = some { ({} : Site) with cause := z.cause, failed := true, fwFailures := z.fwFailures } := by
  induction l with
  | nil => simp [tget] at h
  | cons e l ih =>
    obtain ⟨j, y⟩ := e
    simp only [tget] at h
    by_cases hj : j = i
    · rw [if_pos hj] at h
      injection h with h
      subst h; subst hj
      rw [List.filter_cons, if_pos hz]
      simp [tget]
    · rw [if_neg hj] at h
      by_cases hy : y.failed = true
      · rw [List.filter_cons, if_pos hy, List.map_cons]
        simp only [tget]
        rw [if_neg hj]
        exact ih h
      · rw [List.filter_cons, if_neg hy]
        exact ih h
theorem mem_phase {s : State} (h : InPhase s 3) (h1 : s.bring.wave = none) (h2 : s.bring.lastWave = 1) (n : BitVec 48) (a b : BitVec 4) (ok : Bool) (hbm : BitVec 8) :
    ∃ u : State, u.bring = { s.bring with warm := warmStart (trainCxl s a b) ok, warmRec := (trainCxl s a b).bring.warmRec, sites := if warmStart (trainCxl s a b) ok then excluded (trainCxl s a b) else s.bring.sites } ∧ u.host = s.host ∧
      (∀ p, p < 4 → (u.cxl p).st = ((trainCxl s a b).cxl p).st) ∧ (∀ k, k < 8 → (u.hbm k).st = if hbm.getLsbD k then .ready else .failed) ∧
      phaseMemoryEnd s n a b ok hbm = if hbm ≠ 0xFF then halt' u 6 else startWave (endPhase u 3 n 4) 2 (waveDomains 2) false := by
  unfold phaseMemoryEnd
  rw [if_neg (show ¬ ((!inPhase s 3 || s.bring.wave.isSome || decide (s.bring.lastWave ≠ 1)) = true) by rw [in_phase h, h1, h2]; decide)]
  dsimp only
  obtain ⟨t1, w, t2, t3⟩ := train_facts s a b
  have th : (trainCxl s a b).host = s.host := (touches_trainCxl _ _ _).2 .host (by decide)
  generalize trainCxl s a b = s1 at t1 t2 t3 th ⊢
  generalize hs2 : State.modBring s1 _ = s2
  have s2b : s2.bring = { s.bring with warm := warmStart s1 ok, warmRec := s1.bring.warmRec, sites := if warmStart s1 ok then excluded s1 else s.bring.sites } := by
    rw [← hs2]
    show ({ s1.bring with warm := _, sites := _ } : Bringup) = _
    rw [t2]
  have s2h : s2.host = s.host := by rw [← hs2]; exact th
  have s2c : s2.mem.cxl = s1.mem.cxl := by rw [← hs2]; rfl
  generalize granulesUnscrubbed s.power.systemGib = gt
  generalize hs3 : takeDirectory _ = s3
  have s3t := touches_takeDirectory (s2.modMemSys fun m => { m with granules := gt })
  rw [hs3] at s3t
  have s3b : s3.bring = s2.bring := (s3t.2 .bring (by decide)).trans rfl
  have s3h : s3.host = s2.host := (s3t.2 .host (by decide)).trans rfl
  have s3c : s3.mem.cxl = s2.mem.cxl := ((s3t.2 .tiers (by decide)).2.1).trans rfl
  generalize hs4 : List.foldl (fun s p => if (s.cxl p).st = .failed then loseGranules s p else s) s3 (List.range 4) = s4
  have f4 := fold_bring (f := fun s p => if (s.cxl p).st = .failed then loseGranules s p else s) (fun s a => by
    split
    · exact ⟨(lose_facts _ _).2.1, (lose_facts _ _).2.2⟩
    · exact ⟨rfl, rfl⟩) (List.range 4) s3
  have g4 := fold_cxls (f := fun s p => if (s.cxl p).st = .failed then loseGranules s p else s) (fun s a => by
    split
    · exact (lose_facts _ _).1
    · rfl) (List.range 4) s3
  rw [hs4] at f4 g4
  generalize hs5 : List.foldl (fun s k => s.modHbm k fun h => { h with st := if hbm.getLsbD k then .ready else .failed }) s4 (List.range 8) = s5
  have f5 := fold_bring (f := fun s k => s.modHbm k fun h => { h with st := if hbm.getLsbD k then .ready else .failed }) (fun s a => ⟨rfl, rfl⟩) (List.range 8) s4
  have g5 := fold_cxls (f := fun s k => s.modHbm k fun h => { h with st := if hbm.getLsbD k then .ready else .failed }) (fun s a => rfl) (List.range 8) s4
  have h5 := hbm_fold (fun k h => { h with st := if hbm.getLsbD k then .ready else .failed }) (List.range 8) s4 List.nodup_range
  rw [hs5] at f5 g5 h5
  refine ⟨s5, ?_, ?_, fun p hp => ?_, fun k hk => ?_, rfl⟩
  · rw [f5.1, f4.1, s3b, s2b]
  · rw [f5.2, f4.2, s3h, s2h]
  · have : s5.cxl p = s1.cxl p := by simp only [State.cxl, g5, g4, s3c, s2c]
    rw [this]
  · rw [h5 k, if_pos (List.mem_range.mpr hk)]
theorem FK.pairs (s : State) (l : List Nat) : (l.foldl (fun s h => linkOff (leaveLink s h) h) s).bring = s.bring := by
  induction l generalizing s with
  | nil => rfl
  | cons a l ih =>
    refine (ih _).trans ?_
    exact ((touches_linkOff _ _).2 .bring (by decide)).trans ((touches_leaveLink _ _).2 .bring (by decide))
theorem lost_facts (s : State) (d : Nat) (hd : d < 80) : (domainFailed s d).bring.domainFailed.getLsbD d = true ∧ (domainFailed s d).bring.phase = s.bring.phase ∧ (domainFailed s d).bring.halted = s.bring.halted ∧
    ∀ i, i < nSites → siteDomain i = d ∨ shelfDomain (i / 13) = d → ((domainFailed s d).site i).failed = true := by
  unfold domainFailed
  dsimp only
  generalize hu : State.modBring s _ = u
  have u1 : u.bring.domainFailed.getLsbD d = true := by
    rw [← hu]
    show (s.bring.domainFailed ||| (1#80 <<< d)).getLsbD d = true
    rw [BitVec.getLsbD_or, one_get d d hd]; simp
  have u2 : u.bring.phase = s.bring.phase ∧ u.bring.halted = s.bring.halted := by rw [← hu]; exact ⟨rfl, rfl⟩
  have bk := BK.foldl (f := fun s i => failSite s i 1) (fun s a => (fail_site s a 1).2.2.1) ((List.range nSites).filter fun i => siteDomain i = d || shelfDomain (i / 13) = d) u
  have all : ∀ (l : List Nat) (u : State) (i : Nat), i ∈ l → ((l.foldl (fun s i => failSite s i 1) u).site i).failed = true := by
    intro l
    induction l with
    | nil => intro u i h; cases h
    | cons a l ih =>
      intro u i h
      rw [List.foldl_cons]
      by_cases m : i ∈ l
      · exact ih _ _ m
      · have : i = a := by rcases List.mem_cons.mp h with h | h; exact h; exact absurd h m
        subst this
        exact FK.foldl (f := fun s i => failSite s i 1) (fun s a => (fail_site s a 1).1) l _ i (fail_site u i 1).2.1 |>.1
  refine ⟨?_, ?_, ?_, fun i hi h => all _ u i ?_⟩
  · rw [bk.1]; exact u1
  · rw [bk.2.1]; exact u2.1
  · rw [bk.2.2.1]; exact u2.2
  · simp only [List.mem_filter, List.mem_range, Bool.or_eq_true, decide_eq_true_eq]
    exact ⟨hi, h⟩
theorem retry_keep (s : State) (w : WaveRun) : FK s (retryNext s w) ∧ (retryNext s w).bring.domainFailed = s.bring.domainFailed := by
  have sw : ∀ u a b c, FK u (startWave u a b c) ∧ (startWave u a b c).bring.domainFailed = u.bring.domainFailed := by
    intro u a b c
    unfold startWave
    dsimp only
    split <;> exact ⟨FK.ofSites rfl, rfl⟩
  have nw : ∀ u, FK u (nextWakeWave u) ∧ (nextWakeWave u).bring.domainFailed = u.bring.domainFailed := by
    intro u
    unfold nextWakeWave
    split
    · exact ⟨FK.refl _, rfl⟩
    · dsimp only
      have := sw (u.modBring fun b => { b with waveQueue := b.waveQueue.drop 10 }) u.bring.lastWave.toNat (u.bring.waveQueue.take 10) true
      exact ⟨FK.trans (FK.ofSites rfl) this.1, this.2⟩
  have ww : ∀ u, FK u (wokenShelves u) ∧ (wokenShelves u).bring.domainFailed = u.bring.domainFailed := by
    intro u
    refine ⟨FK.woken u, ?_⟩
    obtain ⟨a, b, c, h⟩ := FW.woken u
    rw [h]
  have gp : ∀ u, FK u (gatePorts u) ∧ (gatePorts u).bring.domainFailed = u.bring.domainFailed := by
    intro u
    unfold gatePorts
    split
    · exact ⟨FK.refl _, rfl⟩
    · have : ∀ (l : List Nat) (u : State), FK u (l.foldl (fun s d => if (domainOn s d && (pairLinks d).all fun h => (s.link h).mode = .off) = true then { switchOff s [d] with power := { s.power with domainGatings := s.power.domainGatings + 1 } } else s) u) ∧ (l.foldl (fun s d => if (domainOn s d && (pairLinks d).all fun h => (s.link h).mode = .off) = true then { switchOff s [d] with power := { s.power with domainGatings := s.power.domainGatings + 1 } } else s) u).bring.domainFailed = u.bring.domainFailed := by
        intro l
        induction l with
        | nil => intro u; exact ⟨FK.refl _, rfl⟩
        | cons a l ih =>
          intro u
          rw [List.foldl_cons]
          split
          · have := ih { switchOff u [a] with power := { u.power with domainGatings := u.power.domainGatings + 1 } }
            exact ⟨fun i h => this.1 i h, this.2⟩
          · exact ih _
      exact this _ _
  unfold retryNext
  split
  · unfold waveEnd
    dsimp only
    generalize hu : State.modBring s _ = u
    have u1 : FK s u := FK.ofSites (by rw [← hu]; rfl)
    have u2 : u.bring.domainFailed = s.bring.domainFailed := by rw [← hu]; rfl
    split
    · exact ⟨(u1.trans (nw u).1).trans (ww _).1, (ww _).2.trans ((nw u).2.trans u2)⟩
    · have k : ∀ v, (v = gatePorts u ∨ v = u) → FK s v ∧ v.bring.domainFailed = s.bring.domainFailed := by
        rintro v (rfl | rfl)
        · exact ⟨u1.trans (gp u).1, (gp u).2.trans u2⟩
        · exact ⟨u1, u2⟩
      have k2 := k (if w.wave = 3 then gatePorts u else u) (by split; exact Or.inl rfl; exact Or.inr rfl)
      generalize (if w.wave = 3 then gatePorts u else u) = v at k2 ⊢
      split
      · exact ⟨k2.1.trans (sw _ _ _ _).1, (sw _ _ _ _).2.trans k2.2⟩
      · exact k2
  · exact ⟨FK.ofSites rfl, rfl⟩
theorem gate_keep (v : State) : (gatePorts v).bring.phase = v.bring.phase ∧ (gatePorts v).bring.lastWave = v.bring.lastWave ∧ (gatePorts v).bring.wave = v.bring.wave := by
  unfold gatePorts
  split
  · exact ⟨rfl, rfl, rfl⟩
  · have : ∀ (l : List Nat) (v : State), (l.foldl (fun s d => if (domainOn s d && (pairLinks d).all fun h => (s.link h).mode = .off) = true then { switchOff s [d] with power := { s.power with domainGatings := s.power.domainGatings + 1 } } else s) v).bring.phase = v.bring.phase ∧ (l.foldl (fun s d => if (domainOn s d && (pairLinks d).all fun h => (s.link h).mode = .off) = true then { switchOff s [d] with power := { s.power with domainGatings := s.power.domainGatings + 1 } } else s) v).bring.lastWave = v.bring.lastWave ∧ (l.foldl (fun s d => if (domainOn s d && (pairLinks d).all fun h => (s.link h).mode = .off) = true then { switchOff s [d] with power := { s.power with domainGatings := s.power.domainGatings + 1 } } else s) v).bring.wave = v.bring.wave := by
      intro l
      induction l with
      | nil => intro v; exact ⟨rfl, rfl, rfl⟩
      | cons a l ih =>
        intro v
        rw [List.foldl_cons]
        obtain ⟨h1, h2, h3⟩ := ih (if (domainOn v a && (pairLinks a).all fun h => (v.link h).mode = .off) = true then { switchOff v [a] with power := { v.power with domainGatings := v.power.domainGatings + 1 } } else v)
        rw [h1, h2, h3]
        split <;> exact ⟨rfl, rfl, rfl⟩
    exact this _ _

end Sys2Proof.Laws.Waves
end

