-- ==== Sys2Proof/Laws/FactsWindows.lean ====
section
/-!
SUPPORT. Lemmas on trees, the window engine and post-processing, for the statements about them.
-/

open Sys2Proof Sys2Proof.Machine Sys2Proof.Claims

namespace Sys2Proof.Laws.Windows

theorem tgetD_foldl_tmod {α : Type} (d : α) (f : α → α) : ∀ (l : List Nat) (m : Tbl α) (k : Nat), l.Nodup →
    tgetD (l.foldl (fun m k => tmod m k d f) m) k d = if k ∈ l then f (tgetD m k d) else tgetD m k d
  | [], m, k, _ => by simp
  | a :: l, m, k, h => by
    have ⟨h1, h2⟩ := List.nodup_cons.1 h
    rw [List.foldl_cons, tgetD_foldl_tmod d f l _ k h2]
    by_cases e : k = a
    · subst e; simp [h1]
    · simp [e]
theorem filterMap_map_some {α β : Type} (f : α → Option β) : ∀ (l : List α) (xs : List β), l.map f = xs.map some → l.filterMap f = xs
  | [], [], _ => rfl
  | a :: l, x :: xs, h => by
    simp only [List.map_cons, List.cons.injEq] at h
    simp [h.1, filterMap_map_some f l xs h.2]
  | [], _ :: _, h => by simp at h
  | _ :: _, [], h => by simp at h
theorem beginOut_keeps (s : State) (core p : Nat) (t : OutTensor) : CoresBut core s (beginOut s core p t) ∧ ((beginOut s core p t).core core).win = (s.core core).win ∧ ((beginOut s core p t).core core).arr = (s.core core).arr ∧ ((beginOut s core p t).core core).stage = (s.core core).stage := by
  unfold beginOut; split
  · exact ⟨coresBut_modCore _ _ _, by simp, by simp, by simp⟩
  · exact ⟨fun _ _ => rfl, rfl, rfl, rfl⟩
theorem foldl_beginOut (core : Nat) (mk : Nat → OutTensor) : ∀ (l : List Nat) (s : State),
   let s' := l.foldl (fun s p => beginOut s core p (mk p)) s
   CoresBut core s s' ∧ (s'.core core).win = (s.core core).win ∧ (s'.core core).arr = (s.core core).arr ∧ (s'.core core).stage = (s.core core).stage
  | [], s => ⟨fun _ _ => rfl, rfl, rfl, rfl⟩
  | a :: l, s => by
    have h1 := beginOut_keeps s core a (mk a)
    have h2 := foldl_beginOut core mk l (beginOut s core a (mk a))
    exact ⟨fun k hk => (h2.1 k hk).trans (h1.1 k hk), h2.2.1.trans h1.2.1, h2.2.2.1.trans h1.2.2.1, h2.2.2.2.trans h1.2.2.2⟩
theorem endWindow_open {s : State} {core : Nat} {t : WinTensor} (h : (s.core core).win.cur = some t) (hi : t.issued = false) : endWindow s core = s := by
  unfold endWindow
  dsimp only
  rw [h]
  split
  · rename_i h2; cases h2; simp [hi]
  · rfl
theorem lineError_cores (s : State) (up key col : Nat) (e : Ecc) (h : e ≠ .uncorrected) (k : Nat) : (lineError s up key col e).core k = s.core k := by
  unfold lineError
  simp only [h, ne_eq, not_false_eq_true, if_true]
  cases e
  · rfl
  · exact core_of ((touches_countCarrel s up false).2 .cores (by decide)) k
  · exact absurd rfl h
  · rfl
theorem tget_terase_other {α : Type} (t : Tbl α) (k j : Nat) (h : j ≠ k) : tget (terase t k) j = tget t j := by
  induction t with
  | nil => rfl
  | cons e t ih =>
    obtain ⟨n, v⟩ := e
    simp only [terase]
    split
    · rename_i hn; simp [tget, hn ▸ h.symm]
    · simp [tget, ih]
theorem nms_len (p : Blob) : ∀ (l : List Cand) (k : List (BitVec 256)), k.length ≤ postKeepMax p → (nmsKeep p l k).length ≤ postKeepMax p
  | [], k, h => h
  | x :: t, k, h => by
    simp only [nmsKeep]
    split
    · exact h
    · split
      · exact nms_len p t k h
      · exact nms_len p t _ (by simp; omega)
theorem tget_zipIdx {α : Type} (F : α → OVal) : ∀ (l : List α) (n i : Nat), tget ((l.zipIdx n).map fun q => (q.2, F q.1)) (n + i) = l[i]?.map F
  | [], _, _ => rfl
  | a :: l, n, 0 => by simp [List.zipIdx_cons, tget]
  | a :: l, n, i + 1 => by
    have := tget_zipIdx F l (n + 1) i
    simp only [List.zipIdx_cons, List.map_cons, tget]
    rw [if_neg (by omega), ← Nat.add_assoc, Nat.add_right_comm]
    simpa using this

end Sys2Proof.Laws.Windows
end

section
/-!
PROOF. The host control block and the resets of the PCIe block (O40): the reads by halves, the writes that nothing
takes, the link resets, PERST_N, configuration requests and the MSI-X vectors.
-/

open Sys2Proof Sys2Proof.Machine Sys2Proof.Claims Sys2Proof.Laws

namespace Sys2Proof.Laws.HostBlock

/-! ### Reads by halves (00 R20) -/

/-- Who is served a read of the control space: the host, requester 0, while its block takes accesses, and a management
controller, requester 1, while the management interface is on. -/
def ReadServed (s : State) (req : Nat) : Prop :=
  (req = 0 ∧ s.host.live = true ∧ s.host.inReset = false) ∨ (req = 1 ∧ mgmtMode s ≠ .off)

theorem exec_counterLowHalfRead (s : State) {req o : Nat} (hreq : req < 2) (halign : o % 4 = 0) (ho : o < 0x10000000) :
    exec (.counterLowHalfRead req o) s = .next (counterLowHalfRead s req o) :=
  withUnit_of (by simp [hreq, halign, ho])

theorem counterLowHalfRead_of_served {s : State} {req : Nat} (h : ReadServed s req) (o : Nat) :
    counterLowHalfRead s req o = latchHigh s req o :=
  if_pos (by simpa [ReadServed, hostServed] using h)

theorem counterLowHalfRead_of_not_served {s : State} {req : Nat} (h : ¬ ReadServed s req) (o : Nat) :
    counterLowHalfRead s req o = s :=
  if_neg (by simpa [ReadServed, hostServed] using h)

theorem latchHigh_of_none {s : State} {o : Nat} (h : highHalf s o = none) (req : Nat) : latchHigh s req o = s := by
  simp [latchHigh, h]

theorem latches_latchHigh {s : State} {o v : Nat} (h : highHalf s o = some v) (req : Nat) :
    (latchHigh s req o).latches = tset s.latches req (tset (tgetD s.latches req []) (o + 4) v) := by
  simp [latchHigh, h]

theorem counterLowHalfRead_idle {s : State} {req o : Nat} (h : highHalf s o = none ∨ ¬ ReadServed s req) :
    counterLowHalfRead s req o = s := by
  by_cases hs : ReadServed s req
  · rw [counterLowHalfRead_of_served hs, latchHigh_of_none (h.resolve_right (not_not_intro hs))]
  · exact counterLowHalfRead_of_not_served hs o

/-- The latch changes at one place: the high half, for the requester that read. -/
theorem latchHigh_latches_only {s : State} {o v : Nat} (h : highHalf s o = some v) (req : Nat) :
    tget (tgetD (latchHigh s req o).latches req []) (o + 4) = some v ∧
    (∀ q, q ≠ req → tgetD (latchHigh s req o).latches q [] = tgetD s.latches q []) ∧
    ∀ k, k ≠ o + 4 → tget (tgetD (latchHigh s req o).latches req []) k = tget (tgetD s.latches req []) k := by
  rw [latches_latchHigh h]
  refine ⟨by simp, fun q hq => tgetD_tset_other _ _ _ _ _ hq, fun k hk => ?_⟩
  rw [tgetD_tset_self, tget_tset_other _ _ _ _ hk]

/-- SERIAL lies at offset 8 of the host control block. -/
theorem regHolding_serial (s : State) : regHolding (hostRegs s) 8 = some ⟨8, 8, s.sec.serial.toNat⟩ := by
  simpa [regHolding, hostRegs, regRow] using Nat.mod_eq_of_lt s.sec.serial.isLt

theorem highHalf_serial (s : State) : highHalf s 0x7000008 = some (s.sec.serial.toNat / 2 ^ 32) := by
  have hblock : blockAt s 0x7000008 = (hostRegs s, 8) := by simp [blockAt]
  simp [highHalf, hblock, regHolding_serial]

/-! ### Writes that nothing takes (11 R428) -/

theorem exec_registerWriteIgnored (s : State) {bar o : Nat}
    (h : (bar = 0 ∧ o < 0x200000) ∨ (bar = 2 ∧ o < 0x10000000)) :
    exec (.registerWriteIgnored bar o) s = .next (registerWriteIgnored s bar o) :=
  withUnit_of (by simpa using h)

/-- The places of BAR0 that take writes: the WO registers of the rings, the MSI-X table and the call slots. -/
theorem bar0Takes_iff (o : Nat) : bar0Takes o = true ↔
    (0x100 ≤ o ∧ o < 0x300 ∧ (o % 0x20 < 4 ∨ (8 ≤ o % 0x20 ∧ o % 0x20 < 0xC) ∨ (0x10 ≤ o % 0x20 ∧ o % 0x20 < 0x14))) ∨
    (0x100000 ≤ o ∧ o < 0x180000) ∨ (0x10000 ≤ o ∧ o < 0x10210) := by
  simp [bar0Takes, and_assoc, or_assoc]

theorem exec_registerWriteIgnored_not_served {s : State} {bar o : Nat}
    (ho : (bar = 0 ∧ o < 0x200000) ∨ (bar = 2 ∧ o < 0x10000000)) (h : s.host.live = false ∨ s.host.inReset = true) :
    exec (.registerWriteIgnored bar o) s = .next s := by
  have hserved : hostServed s = false := by rcases h with h | h <;> simp [hostServed, h]
  rw [exec_registerWriteIgnored s ho]
  simp [registerWriteIgnored, hserved]

theorem exec_registerWriteIgnored_taken {s : State} {o : Nat} (ho : o < 0x200000) (h : bar0Takes o = true) :
    exec (.registerWriteIgnored 0 o) s = .next s := by
  rw [exec_registerWriteIgnored s (.inl ⟨rfl, ho⟩)]
  simp [registerWriteIgnored, h]

/-- The state after a write that was discarded and counted. -/
def writeCounted (s : State) : State := { s with host := { s.host with writesIgnored := s.host.writesIgnored + 1 } }

section
variable {s : State} {o : Nat} (hlive : s.host.live = true) (hreset : s.host.inReset = false)
include hlive hreset

theorem exec_registerWriteIgnored_bar0 (ho : o < 0x200000) (h : ¬ bar0Takes o = true) :
    exec (.registerWriteIgnored 0 o) s = .next (writeCounted s) := by
  rw [exec_registerWriteIgnored s (.inl ⟨rfl, ho⟩)]
  simp [registerWriteIgnored, hostServed, hlive, hreset, ho, h, writeCounted, State.modHost]

theorem exec_registerWriteIgnored_bar2 (ho : o < 0x10000000) :
    exec (.registerWriteIgnored 2 o) s = .next (writeCounted s) := by
  rw [exec_registerWriteIgnored s (.inr ⟨rfl, ho⟩)]
  simp [registerWriteIgnored, hostServed, hlive, hreset, ho, writeCounted, State.modHost]

end

/-! ### Link resets and PERST_N (11 R429, 12 R465, 16 R570) -/

theorem exec_linkReset {i : Instr} (hi : i = .hotReset ∨ i = .functionLevelReset ∨ i = .pcieLinkDown) (s : State) :
    exec i s = .next (if s.host.inReset then s else linkReset s) := by
  rcases hi with rfl | rfl | rfl <;> rfl

/-- The state with PERST_N at a level and the PCIe block in or out of reset. -/
def withPerst (s : State) (level held : Bool) : State :=
  { s with pins := { s.pins with perstN := level }, host := { s.host with inReset := held } }

theorem perstAssert_eq (s : State) : perstAssert s = withPerst s false true := by
  simp [perstAssert, holdPcie, pcieHeld, State.modHost, withPerst]

/-- PERST_N high, the PCIe block is held by the reset of the dies and by its domain alone. -/
theorem holdPcie_perst_high (s : State) : holdPcie { s with pins := { s.pins with perstN := true } } =
    withPerst s true (s.pins.diesInReset || !domainOn s 39) := by
  simp [holdPcie, pcieHeld, State.modHost, withPerst, domainOn]

theorem perstRelease_high {s : State} (h : s.pins.perstN = true) : perstRelease s = s := if_pos h

theorem perstRelease_low {s : State} (h : s.pins.perstN = false) : perstRelease s =
    if s.pins.diesInReset || !domainOn s 39 then withPerst s true true else linkReset (withPerst s true false) := by
  simp only [perstRelease, h, holdPcie_perst_high]
  cases s.pins.diesInReset || !domainOn s 39 <;> rfl

/-! ### Configuration requests and vectors (11 R454, 12 R465) -/

theorem cfgAnswer_configurationRequest {s : State} {settled : Bool} {a : CfgAnswer}
    (h : (s.host.inReset = true ∧ a = .none) ∨
      (s.host.inReset = false ∧ (s.host.live && settled) = false ∧ a = .retry) ∨
      (s.host.inReset = false ∧ s.host.live = true ∧ settled = true ∧ a = .normal)) :
    (configurationRequest s settled).host = { s.host with cfgAnswer := a } := by
  rcases h with ⟨hreset, rfl⟩ | ⟨hreset, hwait, rfl⟩ | ⟨hreset, hlive, rfl, rfl⟩
  · simp [configurationRequest, State.modHost, hreset]
  · simp [configurationRequest, State.modHost, hreset, hwait]
  · simp [configurationRequest, State.modHost, hreset, hlive]

theorem exec_msixUnmask (s : State) {v : Nat} (hv : v < 33) : exec (.msixUnmask v) s = .next (msixUnmask s v) :=
  withUnit_of (by simpa using hv)

theorem msixUnmask_inReset {s : State} (h : s.host.inReset = true) (v : Nat) : msixUnmask s v = s := if_pos h

theorem msix_msixUnmask {s : State} (h : s.host.inReset = false) (v : Nat) :
    (msixUnmask s v).host.msix = tmod s.host.msix v MsiX.reset fun m =>
      ⟨false, false, m.sent + (if m.pba then 1 else 0)⟩ := by
  have hsent (m : MsiX) : (if m.pba then m.sent + 1 else m.sent) = m.sent + (if m.pba then 1 else 0) := by
    cases m.pba <;> simp
  simp [msixUnmask, h, State.modHost, hsent]

theorem tget_msixUnmask_self {s : State} (h : s.host.inReset = false) (v : Nat) :
    let m := tgetD s.host.msix v MsiX.reset
    tget (msixUnmask s v).host.msix v = some ⟨false, false, m.sent + (if m.pba then 1 else 0)⟩ := by
  rw [msix_msixUnmask h]
  exact tget_tset_self _ _ _

theorem tget_msixUnmask_other {s : State} (h : s.host.inReset = false) {v w : Nat} (hw : w ≠ v) :
    tget (msixUnmask s v).host.msix w = tget s.host.msix w := by
  rw [msix_msixUnmask h]
  exact tget_tset_other _ _ _ _ hw

end Sys2Proof.Laws.HostBlock

namespace Sys2Proof.Claims

open Sys2Proof.Laws.HostBlock Sys2Proof.Laws.LinkReset in
/-- Settles O40. Each clause is the lemma on its command: the latch changes at the high half of the requester alone,
`bar0Takes` separates the writes that are counted from the others, the three link resets are one operation, and
the rise of PERST_N is that operation once nothing else holds the PCIe block. -/
theorem hostBlockAndLinkResets : Obligations.HostBlockAndLinkResets := by
  unfold Obligations.HostBlockAndLinkResets
  refine ⟨fun s req o hreq halign ho => ?_, highHalf_serial, fun s hlive hreset => ?_, fun s bar o ho h =>
    exec_registerWriteIgnored_not_served ho h, fun s i hi => ?_, fun s => congrArg _ (perstAssert_eq s), fun s => ?_,
    fun s settled a h => ⟨_, rfl, cfgAnswer_configurationRequest h⟩, fun s v hv => ?_⟩
  · have hexec := exec_counterLowHalfRead s hreq halign ho
    refine ⟨fun v hhigh hserved => ⟨_, hexec, ?_⟩, fun h => hexec.trans (congrArg _ (counterLowHalfRead_idle h))⟩
    rw [counterLowHalfRead_of_served hserved]
    exact latchHigh_latches_only hhigh req
  · refine ⟨fun o ho => exec_registerWriteIgnored_bar2 hlive hreset ho, fun o ho => ?_, fun o ho => ?_,
      fun q k hq hk => ?_, fun o ho => ?_⟩
    · exact exec_registerWriteIgnored_bar0 hlive hreset (by omega) (by rw [bar0Takes_iff]; omega)
    · exact exec_registerWriteIgnored_bar0 hlive hreset (by omega) (by rw [bar0Takes_iff]; omega)
    · exact exec_registerWriteIgnored_taken (by omega) (by rw [bar0Takes_iff]; omega)
    · exact exec_registerWriteIgnored_taken (by omega) (by rw [bar0Takes_iff]; omega)
  · have hexec := exec_linkReset hi s
    refine ⟨fun h => hexec.trans (congrArg _ (if_pos h)), fun h => ⟨_, hexec, ?_⟩⟩
    rw [if_neg (by simp [h])]
    exact linkReset_facts s
  · refine ⟨fun h => congrArg _ (perstRelease_high h), fun hlow => ⟨fun hdies hdomain => ⟨_, rfl, ?_⟩, fun hheld => ?_⟩⟩
    · rw [perstRelease_low hlow, if_neg (by simp [hdies, hdomain])]
      obtain ⟨hrings, hcount, -, -, -, -, hcat, hctxs, hbring⟩ := linkReset_facts (withPerst s true false)
      exact ⟨rfl, rfl, hcount, hrings, hctxs, hbring, hcat⟩
    · have hheld' : (s.pins.diesInReset || !domainOn s 39) = true := by simpa using hheld
      exact congrArg _ ((perstRelease_low hlow).trans (if_pos hheld'))
  · have hexec := exec_msixUnmask s hv
    exact ⟨fun h => hexec.trans (congrArg _ (msixUnmask_inReset h v)),
      fun h => ⟨_, hexec, tget_msixUnmask_self h v, fun w hw => tget_msixUnmask_other h hw⟩⟩

end Sys2Proof.Claims
end

section
/-!
PROOF. The units that commands name (O4): a command is one next state behind the check that its unit exists.
-/

open Sys2Proof Sys2Proof.Machine Sys2Proof.Claims

namespace Sys2Proof.Laws.Units

theorem next_eq_withUnit (r : State) : (Host.Outcome.next r : Out) = withUnit true r := rfl

theorem engineExists_eq_wf (e : Engine) : engineExists e = e.wf := by
  cases e <;> rfl

/-- Every command is guarded by `wellFormed` and by nothing else: the guard of its meaning is the one that
`wellFormed` gives for its operands. -/
theorem exec_eq_withUnit (i : Instr) (s : State) : ∃ r, exec i s = withUnit (wellFormed i) r := by
  cases i with
  -- Commands on a logical core.
  | rowIssue _ _ | rowEntry _ | drainUnit _ | windowTensor _ | inputRowArrival _ | haloCopy _ _ | poolPosition _
  | boxDecode _ | nmsCandidate _ | nmsSelect _ | passStart _ | stagingFill _ | stagingFillDone _
  | stallCycle _ _ _ | wedged _ | gatherIndex _ | routeTensor _ | vectorElement _ | layerUpdate _ | lossTensor _
  | weightLoadStart _ _ _ _ | weightLoadDone _ _ | tensorHeaderEmit _ _ => exact ⟨_, rfl⟩
  -- Commands on a link.
  | linkTrained _ _ | lossOfSignal _ | keepaliveTimeout _ | flitSlot _ | flitIdle _ _ _ _ | flitData _ _ _ _
  | keyOffer _ _ _ _ _ | keyConfirm _ _ | keyAbort _ | keyingTimeout _ | keyingRetry _ | hello _
  | fabricMismatchRetry _ | syncOffer _ | syncRecords _ | syncDone _ | syncNotReady _ | syncBackoff _ | lsr _
  | packetForward _ | stream _ | credit _ | write _ | read _ | readData _ | ack _ | collective _ | mcast _
  | loan _ | loanData _ | sample _ | noticeLagged _ | noticeDone _ | ethFrame _ _ _ _ | laneSignal _
  | ethLinkLoss _ => exact ⟨_, rfl⟩
  -- Commands on a context.
  | treeNode _ _ | streamWord _ _ _ _ | sampleRecord _ _ _ _ | verdictBarrier _ | endOfStepBarrier _
  | exportResend _ | commitStart _ | snapshotDone _ | parityCompute _ _ | copyObject _ _ | commitRecordWrite _
  | commitLeaf _ | sealed _ | commitFailed _ _ _ | lost _ | fault _ | halt _ | bind _ | bindAck _ | rebind _ _
  | restoreDone _ _ _ _ _ _ | restored _ | resume _ | drop _ | join _ | teardown _ | teardownDone _
  | verdictReceived _ _ => exact ⟨_, rfl⟩
  -- Commands on a ring of slips.
  | callDoorbell _ _ _ | slipTake _ | slipEnd _ _ | retAck _ _ | ringReset _ | ringResetEffect _
  | upload _ _ _ _ _ | pull _ _ _ | create _ _ | load _ _ _ | unload _ _ | destroy _ _ | pin _ _ | unpin _ _
  | weed _ _ | wait _ _ | readResume _ _ | pullUnavailable _ _ => exact ⟨_, rfl⟩
  -- Commands on an intake queue of a media complex.
  | decodeStart _ _ _ _ _ | decodeDone _ _ _ | creditTimer _ _ | intakeTensorEmit _ _ | lateCorrupt _ _
  | roiSetTake _ _ _ | substitution _ _ => exact ⟨_, rfl⟩
  -- Commands on a shelf, a site, a port or another unit of the module.
  | counterLowHalfRead _ _ | registerWriteIgnored _ _ | wedgedReport _ | escapeConfirm _ | prefetchTurn _ _
  | spareTestDone _ _ | patrolScrub _ _ | granuleFillDone _ | cxlWriteDurable _ | cxlLinkFail _
  | cxlRetrainDone _ _ | segmentOpen _ | segmentData _ | exportAck _ | msixUnmask _ | selfTestResult _ _ _
  | fwBlock _ _ _ _ | fwNak _ _ | fwNakTimeout _ | fwVerified _ _ | coreCheck _ | domainIdleTimeout _
  | keySlotGrant _ => exact ⟨_, rfl⟩
  -- The engine of an access is named by its core, or is the device.
  | memAccess e _ _ _ _ => exact ⟨_, congrArg (withUnit · _) (engineExists_eq_wf e)⟩
  -- Commands that name no unit run in every state.
  | accessionSettle | lsdbRecordExpiry _ | routeRecompute | transportRetransmit _ | mcastSend _ _ _
  | releaseRecord _ | hotReset | functionLevelReset | pcieLinkDown | perstAssert | perstRelease | bringupStart
  | phaseInputEnd _ | phaseImprintEnd _ | phaseMemoryEnd _ _ _ _ _ | phaseWavesEnd _ | phaseSelfTestEnd _ _
  | phaseAgeingEnd _ _ | phaseYieldEnd _ | phaseAccessionEnd _ | waveSettled | waveTimeout | limitExceeded
  | campaignOpen _ | campaignPackageCheck _ _ _ | campaignActivate _ | campaignAbort _ | inputOutOfRange _
  | governorEvaluation _ _ _ | measurementDone _ | muRecord _ _ _ _ | muInputLoss | muInputReturn
  | muRecordTimeout | muSealOpen | muFirmwareLoad _ _ _ | attest _ _ | enrol _ _ | release _ _ | recalibrate _ _
  | moduleInsertion _ | inputSettled | modResetAssert | resetDeadline | modResetRelease | tripRelease | identify _
  | readControl _ | imprintWrite _ | imprintCommit _ _ _ | rebuildBoot _ | managementResponseRead | setdasa _ _
  | entdaa _ | rstdaa | setnewda _ | getpid | getbcr | getdcr | getstatus | enec _ | disec _ | regulatorFault
  | muReseal | configurationRequest _ => exact ⟨_, next_eq_withUnit _⟩

end Sys2Proof.Laws.Units

namespace Sys2Proof.Claims

open Sys2Proof.Laws.Units Sys2Proof.Laws.Queue in
/-- Settles O4. The outcome of a command is decided by the guard alone (`exec_eq_withUnit`), and `withUnit` has only
these two outcomes. The stop with `noSuchUnit`, and the next state of a command whose subject is absent, are the model's
choice (log entry 32). -/
theorem commandsStopOnlyOnMissingUnits : Obligations.CommandsStopOnlyOnMissingUnits := by
  intro i s
  obtain ⟨r, hr⟩ := exec_eq_withUnit i s
  rw [hr]
  exact withUnit_iff (wellFormed i) r

end Sys2Proof.Claims
end

section
/-!
PROOF. Cores that are retired while the device runs, and the spares that take their place (O50).
-/

open Sys2Proof Sys2Proof.Machine Sys2Proof.Claims Sys2Proof.Laws Sys2Proof.Laws.Sites

namespace Sys2Proof.Laws.Retirement

/-! ### The site that fails (12 R478) -/

/-- A site once it has failed with a cause: it runs no more. -/
def failedSite (n : BitVec 4) (x : Site) : Site := { x with cause := n, failed := true, running := false }

@[simp] theorem failed_failedSite (n : BitVec 4) (x : Site) : (failedSite n x).failed = true := rfl
@[simp] theorem cause_failedSite (n : BitVec 4) (x : Site) : (failedSite n x).cause = n := rfl
@[simp] theorem running_failedSite (n : BitVec 4) (x : Site) : (failedSite n x).running = false := rfl

@[simp] theorem site_rewriteWarm (s : State) (j : Nat) : (rewriteWarm s).site j = s.site j := by
  obtain ⟨w, hw⟩ := warm_eq s
  rw [hw]
  rfl

@[simp] theorem shelf_rewriteWarm (s : State) (sh : Nat) : (rewriteWarm s).shelf sh = s.shelf sh := by
  obtain ⟨w, hw⟩ := warm_eq s
  rw [hw]
  rfl

@[simp] theorem spareTests_rewriteWarm (s : State) : (rewriteWarm s).bring.spareTests = s.bring.spareTests := by
  obtain ⟨w, hw⟩ := warm_eq s
  rw [hw]

@[simp] theorem spareTestFails_rewriteWarm (s : State) :
    (rewriteWarm s).bring.spareTestFails = s.bring.spareTestFails := by
  obtain ⟨w, hw⟩ := warm_eq s
  rw [hw]

@[simp] theorem site_spareLost (s : State) (sh j : Nat) : (spareLost s sh).site j = s.site j := rfl

/-- A site that serves no logical core, a spare or one left out, fails as a site alone. -/
theorem site_siteFail_of_no_core {s : State} {i : Nat} (n : BitVec 4) (hf : (s.site i).failed = false)
    (hc : coreOfSite s i = none) :
    (siteFail s i n).site i = failedSite n (s.site i) := by
  simp only [siteFail, hf, hc, Bool.false_eq_true, if_false, site_rewriteWarm]
  split <;> simp [failedSite]

/-- Before the yield maps and after them alike. -/
theorem site_failSite {s : State} {i : Nat} (n : BitVec 4) (hf : (s.site i).failed = false) :
    (failSite s i n).site i = failedSite n (s.site i) := by
  cases hm : mapsWritten s with
  | false => exact (congrArg (·.site i) (boot_fail hm i n hf)).trans (site_modSite_self ..)
  | true =>
    rw [failSite, if_pos hm]
    cases hc : coreOfSite s i with
    | none => exact site_siteFail_of_no_core n hf hc
    | some core => exact (siteFail_core s i n core hf hc).1

/-- The logical core that a site serves is one of the site's own shelf. -/
theorem shelf_of_coreOfSite {s : State} {i core : Nat} (h : coreOfSite s i = some core) : core / 12 = i / 13 := by
  obtain ⟨n, hn, rfl⟩ := Option.map_eq_some_iff.1 h
  have : n < 12 := List.mem_range.1 (List.mem_of_find?_eq_some hn)
  omega

/-! ### The stage of a retired core (12 R478, R489; 11 R446) -/

/-- The stage of a core has stopped, and the rows in its arrays are discarded. -/
def stageStopped (s : State) (core : Nat) : State :=
  s.modCore core fun c => { c with
    stage := { c.stage with st := .stopped }
    arr := { c.arr with flight := [], held := none, snaps := [] } }

section
variable {s : State} {core : Nat} (hinfo : (s.core core).stage.info.isSome = true)
  (hst : (s.core core).stage.st ≠ .stopped)
include hinfo hst

theorem retireStage_of_idle (h : (s.ctx (s.core core).stage.ctx).st = .idle) : retireStage s core =
    (stageStopped s core).modCtx (s.core core).stage.ctx fun x => { x with loading := false } := by
  obtain ⟨info, hinfo⟩ := Option.isSome_iff_exists.1 hinfo
  simp [retireStage, hinfo, hst, h, stageStopped]

theorem retireStage_of_not_idle (h : (s.ctx (s.core core).stage.ctx).st ≠ .idle) : retireStage s core =
    contextFault (stageStopped s core) (s.core core).stage.ctx ⟨.coreFailed, some core, .retirement, 0⟩ := by
  obtain ⟨info, hinfo⟩ := Option.isSome_iff_exists.1 hinfo
  simp [retireStage, hinfo, hst, h, stageStopped]

/-- The stage stops; a context that is at work faults, and one that is IDLE loads no longer. -/
theorem retireStage_facts :
    ((retireStage s core).core core).stage.st = .stopped ∧
    let c := (s.core core).stage.ctx
    ((s.ctx c).st = .idle → (retireStage s core).ctx c = { s.ctx c with loading := false }) ∧
    ((s.ctx c).st ≠ .idle → ((retireStage s core).ctx c).faults = (s.ctx c).faults + 1 ∧
      ((s.ctx c).fault = none →
        ((retireStage s core).ctx c).fault = some ⟨.coreFailed, some core, .retirement, 0⟩)) := by
  refine ⟨?_, fun h => ?_, fun h => ?_⟩
  · by_cases h : (s.ctx (s.core core).stage.ctx).st = .idle
    · simp [retireStage_of_idle hinfo hst h, stageStopped]
    · simp [retireStage_of_not_idle hinfo hst h, stageStopped, contextFault]
  · simp [retireStage_of_idle hinfo hst h, stageStopped]
  · rw [retireStage_of_not_idle hinfo hst h]
    obtain ⟨hfaults, hfault, -⟩ := contextFault_ctx (stageStopped s core) (s.core core).stage.ctx
      ⟨.coreFailed, some core, .retirement, 0⟩
    exact ⟨hfaults, hfault⟩

end

/-! ### CORE_CHECK (12 R478) -/

/-- A site that a check can fail: it has not failed, its domain is on, and its firmware is there to run. -/
def Checked (s : State) (i : Nat) : Prop :=
  (s.site i).failed = false ∧ domainOn s (siteDomain i) = true ∧ 7 ≤ s.bring.phase.toNat

/-- The distributions and the tests of woken shelves that waited for a failed site alone have ended. -/
def firmwareSettled (s : State) : State := (List.range 12).foldl wakeTested (firmwareSettle s)

theorem coreCheck_of_checked {s : State} {i : Nat} (h : Checked s i) :
    coreCheck s i = firmwareSettled (failSite s i 8) := by
  obtain ⟨hfailed, hdomain, hphase⟩ := h
  have : ¬ s.bring.phase.toNat < 7 := by omega
  simp [coreCheck, hfailed, hdomain, this, firmwareSettled]

theorem coreCheck_of_not_checked {s : State} {i : Nat} (h : ¬ Checked s i) : coreCheck s i = s := by
  refine if_pos ?_
  by_contra hgo
  simp only [Bool.or_eq_true, Bool.not_eq_true', decide_eq_true_eq, not_or, Bool.not_eq_true,
    Bool.not_eq_false, Nat.not_lt] at hgo
  obtain ⟨⟨hfailed, hdomain⟩, hphase⟩ := hgo
  exact h ⟨hfailed, hdomain, hphase⟩

theorem touches_firmwareSettled (s : State) : Touches [.bring] s (firmwareSettled s) :=
  Touches.foldl touches_wakeTested (touches_firmwareSettle s)

theorem firmwareSettled_keeps_failed (s : State) : UK s (firmwareSettled s) :=
  (UK.settle s).trans (UK.foldl (fun u sh j _ => site_of (tested_sites u sh) j) _ _)

theorem firmwareSettled_retirements (s : State) : (firmwareSettled s).bring.retirements = s.bring.retirements := by
  obtain ⟨a, b, c, h⟩ : FW s (firmwareSettled s) := (FW.settle s).trans (FW.foldl FW.tested _ _)
  rw [h]

theorem site_coreCheck {s : State} {i : Nat} (h : Checked s i) :
    (coreCheck s i).site i = failedSite 8 (s.site i) := by
  have hsite := site_failSite 8 h.1
  rw [coreCheck_of_checked h, firmwareSettled_keeps_failed _ i (by rw [hsite, failed_failedSite]), hsite]

section
variable {s : State} {i core : Nat} (h : Checked s i) (hmaps : s.bring.phase = 8 ∨ s.bring.phase = 0xF)
  (hcore : coreOfSite s i = some core)
include h hmaps

/-- Once the yield maps stand, the site fails as one of a device that runs. -/
theorem coreCheck_of_mapped : coreCheck s i = firmwareSettled (siteFail s i 8) := by
  have hwritten : mapsWritten s = true := by simpa [mapsWritten] using hmaps
  exact (coreCheck_of_checked h).trans (congrArg _ (if_pos hwritten))

include hcore

/-- The core is retired, and waits for the spare where it is free and no other core waits for it (01 R36, R37). -/
theorem coreCheck_retires :
    let free := decide ((s.shelf (i / 13)).spareSt = .free) && !(s.shelf (i / 13)).lmap.any fun p => p.2.rebindPending
    (coreCheck s i).bring.retirements = s.bring.retirements + 1 ∧
    (lmapOf (coreCheck s i) core).retired = true ∧ (lmapOf (coreCheck s i) core).rebindPending = free ∧
    ((coreCheck s i).shelf (i / 13)).spareSt = if free then .free else .degraded := by
  intro free
  obtain ⟨-, hcount, hshelf, -, -⟩ := siteFail_core s i 8 core h.1 hcore
  have touched := touches_firmwareSettled (siteFail s i 8)
  have hretire := firmwareSettled_retirements (siteFail s i 8)
  rw [← coreCheck_of_mapped h hmaps] at touched hretire
  have hshelf' := (Tiers.shelf_of (touched.same .shelves (by decide)) (i / 13)).trans hshelf
  have hlmap : lmapOf (coreCheck s i) core = { tgetD (s.shelf (i / 13)).lmap (core % 12) ⟨0xF, false, false⟩ with
      retired := true, rebindPending := free } := by
    rw [lmapOf, shelf_of_coreOfSite hcore, hshelf', tgetD_tset_self]
  refine ⟨hretire.trans hcount, by rw [hlmap], by rw [hlmap], ?_⟩
  rw [hshelf']
  cases hfree : free with
  | false => exact if_neg (ne_true_of_eq_false hfree)
  | true =>
    have hspare : (s.shelf (i / 13)).spareSt = .free := of_decide_eq_true (Bool.and_eq_true_iff.1 hfree).1
    exact (if_pos hfree).trans hspare

/-- What the check changes of the core and of the contexts is what the retirement of its stage does. -/
theorem coreCheck_retires_stage :
    (coreCheck s i).core core = (retireStage (s.modSite i (failedSite 8)) core).core core ∧
    ∀ c, (coreCheck s i).ctx c = (retireStage (s.modSite i (failedSite 8)) core).ctx c := by
  obtain ⟨-, -, -, hcores, hctxs⟩ := siteFail_core s i 8 core h.1 hcore
  have touched := touches_firmwareSettled (siteFail s i 8)
  rw [← coreCheck_of_mapped h hmaps] at touched
  exact ⟨core_of ((touched.same .cores (by decide)).trans hcores) core,
    ctx_of ((touched.same .ctxs (by decide)).trans hctxs)⟩

end

theorem exec_coreCheck (s : State) {i : Nat} (hi : i < nSites) :
    exec (.coreCheck i) s = .next (cancelLoads (coreCheck s i)) :=
  withUnit_of (by simpa using hi)

/-! ### SPARE_TEST_DONE (12 R479) -/

theorem exec_spareTestDone (s : State) {sh : Nat} (ok : Bool) (hsh : sh < nShelves) :
    exec (.spareTestDone sh ok) s = .next (spareTestDone s sh ok) :=
  withUnit_of (by simpa using hsh)

theorem spareTestDone_waits {s : State} {sh : Nat} (ok : Bool)
    (h : (s.bring.spareTests.find? fun c => c / 12 = sh) = none ∨ atBoundary s sh = false) :
    spareTestDone s sh ok = s := by
  unfold spareTestDone
  split
  · rfl
  · rename_i core hcore
    rw [hcore] at h
    exact if_pos (by simpa using h)

section
variable {s : State} {sh core : Nat} (htest : (s.bring.spareTests.find? fun c => c / 12 = sh) = some core)
include htest

theorem shelf_of_spareTest : core / 12 = sh := by
  simpa using List.find?_some htest

variable (hbound : atBoundary s sh = true)
include hbound

/-- A spare that passes takes the place of the core, and the shelf has no spare left. -/
theorem spareTestDone_passed :
    let m := tset (s.shelf sh).lmap (core % 12) ⟨(s.shelf sh).spareSite, false, false⟩
    (spareTestDone s sh true).shelf sh = { s.shelf sh with
      lmap := m, spareSite := 0xF, spareSt := if m.any fun p => p.2.retired then .degraded else .bound } ∧
    (spareTestDone s sh true).bring = { s.bring with
      spareTests := s.bring.spareTests.filter (· ≠ core), spareBindings := s.bring.spareBindings + 1 } := by
  simp [spareTestDone, htest, hbound]

/-- A spare that fails its test is a failed site, and the core stays without one. -/
theorem spareTestDone_failed :
    let x := s.shelf sh
    let spare := sh * 13 + x.spareSite.toNat
    let t := spareTestDone s sh false
    t.shelf sh = { x with
      lmap := tset x.lmap (core % 12) { tgetD x.lmap (core % 12) ⟨0xF, true, false⟩ with rebindPending := false }
      spareSite := 0xF, spareSt := .degraded } ∧
    t.site spare = failedSite 0xA (s.site spare) ∧
    t.bring.spareTests = s.bring.spareTests.filter (· ≠ core) ∧
    t.bring.spareTestFails = s.bring.spareTestFails + 1 := by
  simp only [spareTestDone, htest, hbound, Bool.not_true, Bool.false_eq_true, if_false]
  exact ⟨by simp, (site_rewriteWarm ..).trans (site_modSite_self s _ (failedSite 0xA)), by simp [State.modSite]⟩

end

/-! ### A shelf on which both commands act -/

/-- A device that runs, with every domain on and shelf 0 whole: its spare is free. -/
def wholeShelf : State :=
  { State.reset with
    shelves := [(0, yieldMap (List.range 13) Shelf.reset)]
    bring := { State.reset.bring with phase := 0xF, domainOn := BitVec.allOnes 80 } }

theorem checked_wholeShelf : Checked wholeShelf 0 ∧ coreOfSite wholeShelf 0 = some 0 := by
  unfold Checked
  decide

/-- The check of its site 0 puts the spare under test, and the shelf is at a boundary for its end. -/
theorem spareTest_coreCheck_wholeShelf : (coreCheck wholeShelf 0).bring.spareTests = [0] ∧
    atBoundary (coreCheck wholeShelf 0) 0 = true := by
  decide

end Sys2Proof.Laws.Retirement

namespace Sys2Proof.Claims

open Sys2Proof.Laws.Retirement Sys2Proof.Laws.Sites in
/-- Settles O50. A failed check is the failure of a site with cause 8: `siteFail_core` says what that leaves in the
shelf, `retireStage_facts` what it does to the stage and its context. The LOADs given up in the same command (log entry
80) are those of `cancel_fold_done`, and a spare's test has the two ends `spareTestDone_passed` and
`spareTestDone_failed`. -/
theorem coresAreRetired : Obligations.CoresAreRetired := by
  unfold Obligations.CoresAreRetired
  refine ⟨fun s => cancel_id, fun s c hc => ?_, fun s i hi => ?_, fun s sh ok hsh => ?_⟩
  · obtain ⟨⟨tests, hbring⟩, -⟩ := CL.cancelLoads s
    exact ⟨mem_of (touches_cancelLoads s) (by decide) (by decide) (by decide), by rw [hbring],
      cancel_fold_keep c _ s, cancel_fold_done c _ s (List.mem_range.2 hc)⟩
  · have hexec := exec_coreCheck s hi
    refine ⟨fun h => by rw [hexec, coreCheck_of_not_checked h], fun h => ⟨_, hexec, ?_⟩⟩
    have hsite := site_coreCheck h
    refine ⟨by simp [hsite], by simp [hsite], by simp [hsite], fun hmaps core hcore => ?_⟩
    obtain ⟨hcount, hretired, hpending, hspare⟩ := coreCheck_retires h hmaps hcore
    refine ⟨hcount, hretired, hpending, hspare, fun hinfo hst => ?_⟩
    obtain ⟨hcore', hctx⟩ := coreCheck_retires_stage h hmaps hcore
    obtain ⟨hstop, hidle, hwork⟩ := retireStage_facts (s := s.modSite i (failedSite 8)) hinfo hst
    rw [hcore', hctx]
    refine ⟨hstop, fun hc => ?_, hwork⟩
    have hloaded : (retireStage (s.modSite i (failedSite 8)) core).ctx (s.core core).stage.ctx =
      { s.ctx (s.core core).stage.ctx with loading := false } := hidle hc
    rw [hloaded]
    exact ⟨hc, rfl, rfl⟩
  · have hexec := exec_spareTestDone s ok hsh
    refine ⟨fun h => by rw [hexec, spareTestDone_waits ok h], fun core htest hbound => ⟨_, hexec, ?_⟩⟩
    have hcore := shelf_of_spareTest htest
    cases ok with
    | true =>
      obtain ⟨hshelf, hbring⟩ := spareTestDone_passed htest hbound
      refine ⟨by rw [hshelf], by simp [hbring], fun _ => ⟨?_, by rw [hbring], by rw [hshelf]⟩, nofun⟩
      rw [lmapOf, hcore, hshelf, tgetD_tset_self]
    | false =>
      obtain ⟨hshelf, hsite, htests, hcount⟩ := spareTestDone_failed htest hbound
      refine ⟨by rw [hshelf], by simp [htests], nofun, fun _ =>
        ⟨by rw [hshelf], by simp [hsite], by simp [hsite], hcount, ?_⟩⟩
      rw [lmapOf, hcore, hshelf, tgetD_tset_self]

end Sys2Proof.Claims
end

section
/-!
PROOF. What reset leaves in the registers (O59): where a register lies in its block, what its word reads in every state,
and the values of these words at reset.
-/

open Sys2Proof Sys2Proof.Machine Sys2Proof.Claims Sys2Proof.Laws

namespace Sys2Proof.Laws.ResetRegisters

/-! ### Where the registers of a list lie -/

/-- Every register of a list lies between two offsets. -/
def Within (lo hi : Nat) (rs : List Reg) : Prop := ∀ x ∈ rs, lo ≤ x.off ∧ x.off + x.bytes ≤ hi

section
variable {lo hi lo' hi' base w n k o : Nat} {rs ts : List Reg} {l : List (Nat × Nat)} {f : Nat → List Reg}

theorem Within.mono (h : Within lo hi rs) (hlo : lo' ≤ lo) (hhi : hi ≤ hi') : Within lo' hi' rs :=
  fun x hx => ⟨hlo.trans (h x hx).1, (h x hx).2.trans hhi⟩

theorem Within.append (h : Within lo hi rs) (h' : Within lo hi ts) : Within lo hi (rs ++ ts) :=
  List.forall_mem_append.2 ⟨h, h'⟩

theorem Within.regsAt (h : Within lo hi rs) (d : Nat) : Within (lo + d) (hi + d) (regsAt d rs) := by
  refine List.forall_mem_map.2 fun x hx => ?_
  obtain ⟨hlo, hhi⟩ := h x hx
  constructor <;> dsimp only <;> omega

theorem within_regRow (off : Nat) (l : List (Nat × Nat)) : Within off (off + (l.map (·.1)).sum) (regRow off l) := by
  induction l generalizing off with
  | nil => exact nofun
  | cons v t ih =>
    refine List.forall_mem_cons.2 ⟨by simp, (ih (off + v.1)).mono (by simp) (by simp [Nat.add_assoc])⟩

theorem within_map_reg32 (base n : Nat) (v : Nat → Nat) :
    Within base (base + 4 * n) ((List.range n).map fun i => reg32 (base + 4 * i) (v i)) := by
  refine List.forall_mem_map.2 fun i hi => ?_
  have hi := List.mem_range.1 hi
  constructor <;> simp only [reg32] <;> omega

theorem Within.flatMap_range (h : ∀ k < n, Within (base + w * k) (base + w * (k + 1)) (f k)) :
    Within base (base + w * n) ((List.range n).flatMap f) := by
  intro x hx
  obtain ⟨k, hk, hx⟩ := List.mem_flatMap.1 hx
  have hk := List.mem_range.1 hk
  have hend : w * (k + 1) ≤ w * n := Nat.mul_le_mul_left w hk
  exact (h k hk).mono (by omega) (by omega) x hx

/-! ### Which register holds an offset -/

theorem regHolding_append (rs ts : List Reg) (o : Nat) :
    regHolding (rs ++ ts) o = (regHolding rs o).or (regHolding ts o) := List.find?_append

theorem Within.regHolding_eq_none (h : Within lo hi rs) (ho : o < lo ∨ hi ≤ o) : regHolding rs o = none := by
  refine List.find?_eq_none.2 fun x hx => ?_
  have := h x hx
  simp only [Bool.and_eq_true, decide_eq_true_eq]
  omega

/-- The registers moved up by an offset answer there as they did before. -/
theorem regHolding_regsAt (d : Nat) (rs : List Reg) (o : Nat) :
    regHolding (regsAt d rs) (o + d) = (regHolding rs o).map fun x => { x with off := x.off + d } := by
  simp [regHolding, regsAt, List.find?_map, Nat.add_right_comm _ d]

/-- A list that ends below an offset does not matter for it. -/
theorem Within.regHolding_append (h : Within lo hi rs) (ho : hi ≤ o) (ts : List Reg) :
    regHolding (rs ++ ts) o = regHolding ts o := by
  rw [ResetRegisters.regHolding_append, h.regHolding_eq_none (.inr ho), Option.none_or]

/-- Of blocks laid at equal distances, the one at an offset answers. -/
theorem regHolding_flatMap_range (h : ∀ k < n, Within (base + w * k) (base + w * (k + 1)) (f k)) (hk : k < n)
    (hlo : base + w * k ≤ o) (hhi : o < base + w * (k + 1)) :
    regHolding ((List.range n).flatMap f) o = regHolding (f k) o := by
  induction n with
  | zero => omega
  | succ n ih =>
    have hbefore := Within.flatMap_range fun j hj => h j (Nat.lt_succ_of_lt hj)
    rw [List.range_succ, List.flatMap_append, List.flatMap_singleton]
    obtain hkn | rfl := Nat.lt_succ_iff_lt_or_eq.1 hk
    · have hnext : w * (k + 1) ≤ w * n := Nat.mul_le_mul_left w hkn
      rw [regHolding_append, ih (fun j hj => h j (Nat.lt_succ_of_lt hj)) hkn,
        (h n (Nat.lt_succ_self n)).regHolding_eq_none (.inl (by omega)), Option.or_none]
    · exact hbefore.regHolding_append hlo _

end

/-! ### The words of the control space, in every state -/

/-- A word is the low 32 bits of the register that begins at it. -/
theorem controlWord_of {s : State} {o i n v : Nat} {rs : List Reg} (hblock : blockAt s o = (rs, i))
    (hreg : regHolding rs i = some ⟨i, n, v⟩) : controlWord s o = v % 2 ^ 32 := by
  simp [controlWord, hblock, hreg, bits]

theorem blockAt_core (s : State) {core i : Nat} (hcore : core < nCores) (hi : i < 0x1000) :
    blockAt s (0x1000 * core + i) = (coreRegs s core, i) := by
  have hcore : core < 144 := hcore
  rw [blockAt, if_pos (by omega), show (0x1000 * core + i) / 0x1000 = core by omega,
    show (0x1000 * core + i) % 0x1000 = i by omega]

theorem blockAt_power (s : State) {i : Nat} (hi : i < 0x1000000) : blockAt s (0x9000000 + i) = (powerRegs s, i) := by
  simp only [blockAt]
  iterate 10 rw [if_neg (by omega)]
  rw [if_pos (by omega), Nat.add_sub_cancel_left]

/-- HOST_STATUS, at 04h of the host control block. -/
theorem controlWord_hostStatus (s : State) : controlWord s 0x7000004 = hostStatusValue s % 2 ^ 32 := by
  have hblock : blockAt s 0x7000004 = (hostRegs s, 4) := by simp [blockAt]
  have hreg : regHolding (hostRegs s) 4 = some ⟨4, 4, hostStatusValue s % 2 ^ 32⟩ := by
    simp [regHolding, hostRegs, regRow]
  rw [controlWord_of hblock hreg, Nat.mod_mod]

section
variable (s : State) {core q id : Nat}

/-- The effective power limit, the governor ceiling and the thermal ceilings of the dies (13 Table 13.7). -/
theorem controlWord_powerLimit : controlWord s 0x900000C = powerLimit s % 2 ^ 32 := by
  have hreg : regHolding (powerRegs s) 0xC = some ⟨0xC, 4, powerLimit s % 2 ^ 32⟩ := by
    simp [regHolding, powerRegs, regRow]
  rw [controlWord_of (blockAt_power s (i := 0xC) (by decide)) hreg, Nat.mod_mod]

theorem controlWord_govCeiling : controlWord s 0x9000010 = s.power.govCeiling % 65536 := by
  have hreg : regHolding (powerRegs s) 0x10 = some ⟨0x10, 4, s.power.govCeiling % 65536 % 2 ^ 32⟩ := by
    simp [regHolding, powerRegs, regRow]
  rw [controlWord_of (blockAt_power s (i := 0x10) (by decide)) hreg]
  omega

theorem controlWord_thermalCeilings :
    controlWord s 0x9000014 = (thermalCeiling s 0 + 65536 * thermalCeiling s 1) % 2 ^ 32 := by
  have hreg : regHolding (powerRegs s) 0x14 =
      some ⟨0x14, 4, (thermalCeiling s 0 + 65536 * thermalCeiling s 1) % 2 ^ 32⟩ := by
    simp [regHolding, powerRegs, regRow]
  rw [controlWord_of (blockAt_power s (i := 0x14) (by decide)) hreg, Nat.mod_mod]

theorem within_islandRegs (i : Nat) : Within (0x1000 + 0x10 * i) (0x1000 + 0x10 * (i + 1)) (islandRegs s i) :=
  (within_regRow _ _).mono le_rfl (by simp; omega)

theorem within_defaultRegs (id : Nat) : Within (0x2000 + 0x10 * id) (0x2000 + 0x10 * (id + 1)) (defaultRegs s id) :=
  (within_regRow _ _).mono le_rfl (by simp; omega)

/-- The effective value of a default is the first word of its four (13 R516). -/
theorem controlWord_default (hid : id < 11) : controlWord s (0x9002000 + 0x10 * id) = s.default id % 2 ^ 32 := by
  have hreg : regHolding (powerRegs s) (0x2000 + 0x10 * id) =
      some ⟨0x2000 + 0x10 * id, 4, s.default id % 2 ^ 32⟩ := by
    have hself : regHolding (defaultRegs s id) (0x2000 + 0x10 * id) =
        some ⟨0x2000 + 0x10 * id, 4, s.default id % 2 ^ 32⟩ := by
      simp [regHolding, defaultRegs, regRow]
    have hdefaults := regHolding_flatMap_range (fun k _ => within_defaultRegs s k) hid (Nat.le_refl _) (by omega)
    have hislands : Within 0x1000 (0x1000 + 0x10 * 193) ((List.range 193).flatMap (islandRegs s)) :=
      Within.flatMap_range fun k _ => within_islandRegs s k
    rw [powerRegs, regHolding_append, List.append_assoc, (within_regRow _ _).regHolding_append (by simp; omega),
      hislands.regHolding_append (by omega), hdefaults, hself, Option.some_or]
  have hblock := blockAt_power s (i := 0x2000 + 0x10 * id) (by omega)
  rw [← Nat.add_assoc] at hblock
  rw [controlWord_of hblock hreg, Nat.mod_mod]

/-! ### SCALE_IN_USE of a port (02 Table 2.9) -/

theorem within_arrayRegs (u : ArrayUnit) : Within 0 0x180 (arrayRegs u) :=
  (((within_regRow _ _).mono (by simp) (by simp)).append ((within_map_reg32 _ _ _).mono (by simp) (by simp))).append
    ((within_regRow _ _).mono (by simp) (by simp))

theorem within_windowRegs (u : WindowUnit) : Within 0 0x180 (windowRegs u) :=
  (within_regRow _ _).mono (by simp) (by simp)

theorem within_epRegs (k : EpCtr) (q : Nat) :
    Within (0x200 + 0x40 * q) (0x200 + 0x40 * (q + 1)) (regsAt (0x200 + 0x40 * q) (epRegs k)) :=
  ((within_regRow _ _).regsAt _).mono (by simp) (by simp; omega)

theorem regHolding_scaleInUse (hq : q < 8) : regHolding (stageRegs s core) (0x224 + 0x40 * q) =
    some ⟨0x224 + 0x40 * q, 4, (s.epCtr core q).scaleInUse.toNat % 2 ^ 32⟩ := by
  have hself : regHolding (regsAt (0x200 + 0x40 * q) (epRegs (s.epCtr core q))) (0x224 + 0x40 * q) =
      some ⟨0x224 + 0x40 * q, 4, (s.epCtr core q).scaleInUse.toNat % 2 ^ 32⟩ := by
    have hscale : regHolding (epRegs (s.epCtr core q)) 0x24 =
        some ⟨0x24, 4, (s.epCtr core q).scaleInUse.toNat % 2 ^ 32⟩ := by
      simp [regHolding, epRegs, regRow]
    rw [show 0x224 + 0x40 * q = 0x24 + (0x200 + 0x40 * q) by omega, regHolding_regsAt, hscale, Option.map_some]
  have hports := regHolding_flatMap_range (o := 0x224 + 0x40 * q)
    (fun k _ => within_epRegs (s.epCtr core k) k) hq (by omega) (by omega)
  rw [stageRegs]
  simp only [List.append_assoc]
  rw [(within_regRow _ _).regHolding_append (by simp; omega), regHolding_append, hports, hself, Option.some_or]

theorem controlWord_scaleInUse (hcore : core < nCores) (hq : q < 8) :
    controlWord s (0x1000 * core + (0x224 + 0x40 * q)) = (s.epCtr core q).scaleInUse.toNat := by
  have hreg : regHolding (coreRegs s core) (0x224 + 0x40 * q) =
      some ⟨0x224 + 0x40 * q, 4, (s.epCtr core q).scaleInUse.toNat % 2 ^ 32⟩ := by
    rw [coreRegs, if_pos hcore]
    simp only [List.append_assoc]
    rw [(within_arrayRegs _).regHolding_append (by omega), (within_windowRegs _).regHolding_append (by omega),
      regHolding_append, regHolding_scaleInUse s hq, Option.some_or]
  rw [controlWord_of (blockAt_core s hcore (by omega)) hreg, Nat.mod_mod]
  exact Nat.mod_eq_of_lt (s.epCtr core q).scaleInUse.isLt

end

/-! ### Blocks that read 0 -/

/-- Every register of a list reads 0. -/
def ReadsZero (rs : List Reg) : Prop := ∀ x ∈ rs, x.val = 0

theorem readsZero_nil : ReadsZero [] := nofun

theorem ReadsZero.append {rs ts : List Reg} (h : ReadsZero rs) (h' : ReadsZero ts) : ReadsZero (rs ++ ts) :=
  List.forall_mem_append.2 ⟨h, h'⟩

theorem readsZero_regRow {l : List (Nat × Nat)} (h : ∀ v ∈ l, v.2 = 0) (off : Nat) : ReadsZero (regRow off l) := by
  induction l generalizing off with
  | nil => exact nofun
  | cons v t ih =>
    obtain ⟨hv, ht⟩ := List.forall_mem_cons.1 h
    exact List.forall_mem_cons.2 ⟨by simp [hv], ih ht _⟩

theorem readsZero_map {f : Nat → Reg} {n : Nat} (h : ∀ i < n, (f i).val = 0) : ReadsZero ((List.range n).map f) :=
  List.forall_mem_map.2 fun i hi => h i (List.mem_range.1 hi)

/-! ### The values at reset -/

theorem link_reset (h : Nat) : State.reset.link h = {} := rfl

theorem complex_reset (x : Nat) : State.reset.complex x = {} := rfl

theorem hbm_reset (k : Nat) : State.reset.hbm k = Hbm.reset := rfl

theorem cxl_reset (p : Nat) : State.reset.cxl p = Cxl.reset := rfl

theorem domainOn_reset (d : Nat) : domainOn State.reset d = false := BitVec.getLsbD_zero

/-- The word of granule 4,608 shows RETAIN alone (06 Table 6.12). -/
theorem controlWord_retentionGranule_reset : controlWord State.reset 0x3005800 = 0x80 := by
  have hblock : blockAt State.reset 0x3005800 = (memoryRegs State.reset, 0x5800) := by simp [blockAt]
  have hreg : regHolding (memoryRegs State.reset) 0x5800 = some ⟨0x5800, 4, 0x80⟩ := by decide
  exact controlWord_of hblock hreg

theorem controlWord_scaleInUse_reset {core q : Nat} (hcore : core < nCores) (hq : q < 8) :
    controlWord State.reset (0x1000 * core + (0x224 + 0x40 * q)) = 0x3F800000 :=
  controlWord_scaleInUse State.reset hcore hq

theorem readsZero_linkRegs_reset (h : Nat) : ReadsZero (linkRegs (State.reset.link h)) := by
  rw [link_reset]
  exact readsZero_regRow (by decide) _

theorem readsZero_portRegs_reset {p : Nat} (hp : p < 8) : ReadsZero (portRegs State.reset p) := by
  have hfabric : ReadsZero (if p = 0 then fabricRegs State.reset else []) := by
    split
    · exact readsZero_regRow (by decide) _
    · exact readsZero_nil
  rw [portRegs, if_pos hp]
  exact ((readsZero_linkRegs_reset _).append readsZero_nil).append hfabric

theorem readsZero_mediaRegs_reset {x : Nat} (hx : x < 2) : ReadsZero (mediaRegs State.reset x) := by
  have hchannels : intakeChannels State.reset x = [] := rfl
  rw [mediaRegs, if_pos hx, hchannels, domainOn_reset, domainOn_reset, complex_reset]
  exact (((readsZero_regRow (by decide) _).append readsZero_nil).append (readsZero_regRow (by decide) _)).append
    readsZero_nil

theorem readsZero_hbmRegs_reset {k : Nat} (hk : k < 8) : ReadsZero (hbmRegs State.reset k) := by
  rw [hbmRegs, if_pos hk, hbm_reset]
  exact readsZero_regRow (by decide) _

theorem readsZero_cxlRegs_reset {p : Nat} (hp : p < 4) : ReadsZero (cxlRegs State.reset p) := by
  rw [cxlRegs, if_pos hp, cxl_reset]
  exact readsZero_regRow (by decide) _

theorem readsZero_bringRegs_reset : ReadsZero (bringRegs State.reset) := by
  refine ReadsZero.append (.append (.append (.append (readsZero_regRow (by decide) _) ?phases)
    (readsZero_regRow (by decide) _)) (readsZero_regRow (by decide) _)) ?sites
  case phases => exact readsZero_map fun _ _ => rfl
  case sites => exact readsZero_map fun _ _ => rfl

end Sys2Proof.Laws.ResetRegisters

namespace Sys2Proof.Claims

open Sys2Proof.Laws.ResetRegisters in
/-- Settles O59. The words with a value other than 0 are read by the lemmas on their registers. 2,400 W and 3,000 MHz
are the factory values of an OQT-5424, which the module is at reset (log entry 2). -/
theorem resetValues : Obligations.ResetValues := by
  have hdefault (id : Fin 11) :
      controlWord State.reset (0x9002000 + 0x10 * id) = factoryDefault .oqt5424 id % 2 ^ 32 :=
    controlWord_default State.reset id.isLt
  refine ⟨?_, fun q hq => ⟨?_, ?_⟩, fun _ => readsZero_portRegs_reset, fun _ => readsZero_mediaRegs_reset,
    fun _ => readsZero_hbmRegs_reset, fun _ => readsZero_cxlRegs_reset, readsZero_bringRegs_reset, fun _ _ => rfl,
    fun _ => rfl, rfl⟩
  · simp only [List.forall_mem_cons]
    exact ⟨controlWord_hostStatus _, controlWord_retentionGranule_reset, controlWord_powerLimit _,
      controlWord_govCeiling _, controlWord_thermalCeilings _, hdefault 0, hdefault 1, hdefault 2, hdefault 3,
      hdefault 4, hdefault 5, hdefault 6, hdefault 7, hdefault 8, hdefault 9, hdefault 10, nofun⟩
  · simpa [← Nat.add_assoc] using controlWord_scaleInUse_reset (core := 0) (by decide) hq
  · simpa [← Nat.add_assoc] using controlWord_scaleInUse_reset (core := 143) (by decide) hq

end Sys2Proof.Claims
end

section
/-!
PROOF. The issue of rows (O9).
-/

open Sys2Proof Sys2Proof.Machine Sys2Proof.Claims Sys2Proof.Laws

namespace Sys2Proof.Laws.RowIssue

section
variable {s : State} {core : Nat} {r : StageRec} {pl : Plan}

theorem exec_rowIssue (hcore : core < nCores) (e : Ecc) (s : State) :
    exec (.rowIssue core e) s = .next (issueRow s core e) :=
  withUnit_of (by simpa using hcore)

variable (hinfo : (s.core core).stage.info = some r) (hst : (s.core core).stage.st = .running)
include hinfo hst

/-- A pass that may begin by itself does so before its row issues. -/
theorem issueRow_startPass (hidle : (s.core core).stage.seq.active = false)
    (hself : r.npassM1 = 0 ∨ r.wsrc = true ∨ (s.core core).stage.seq.run = 0)
    (hinfo' : ((startPass s core).core core).stage.info = some r)
    (hst' : ((startPass s core).core core).stage.st = .running)
    (hactive : ((startPass s core).core core).stage.seq.active = true) (e : Ecc) :
    issueRow s core e = issueRow (startPass s core) core e := by
  have hbegins : (r.npassM1 = 0 || r.wsrc || (s.core core).stage.seq.run = 0) = true := by
    simpa [or_assoc] using hself
  simp only [issueRow, hinfo, hst, hidle, hinfo', hst', hactive]
  simp [hbegins]

variable (hactive : (s.core core).stage.seq.active = true) (hswitch : (s.core core).stage.switchLeft = 0)
  (hplan : planOf s core = some pl) (hrows : pl.rows ≠ 0) (hslices : pl.slices ≠ 0)
include hactive hswitch hplan hrows hslices

theorem issueRow_wait (hwait : (nextRow s core r pl).1 = .wait) (e : Ecc) : issueRow s core e = s := by
  simp [issueRow, hinfo, hst, hactive, hswitch, hplan, hrows, hslices, hwait]

/-- A row that is there is read from its buffers, and what was formed then issues: lanes after the window register has
taken their taps, a control row by itself. -/
theorem issueRow_formed {e : Ecc} {es : List Elem} {products : Bool} {d : Dest} {t : Nat} {sc : F32}
    (hthere : (nextRow s core r pl).1 ≠ .wait) (hst' : ((rowError s core r e).core core).stage.st = .running)
    (hrow : (products = true ∧ nextRow (rowError s core r e) core r pl = (.lanes es, d, t, sc)) ∨
      (products = false ∧ nextRow (rowError s core r e) core r pl = (.control, d, t, sc) ∧ es = [])) :
    issueRow s core e = issueFormed (if products then formTaps (rowError s core r e) core r else rowError s core r e)
      core r pl es products d t sc := by
  cases hfirst : (nextRow s core r pl).1 with
  | wait => exact absurd hfirst hthere
  | lanes _ | control =>
    obtain ⟨rfl, hnext⟩ | ⟨rfl, hnext, rfl⟩ := hrow <;>
      simp [issueRow, hinfo, hst, hactive, hswitch, hplan, hrows, hslices, hfirst, hst', hnext]

end

end Sys2Proof.Laws.RowIssue

namespace Sys2Proof.Claims

open Sys2Proof.Laws.RowIssue Sys2Proof.Laws.Arrays in
/-- Settles O9. Once a pass is under way, a row waits (`issueRow_wait`) or is the row that `issueFormed` issues or holds
(`issueRow_formed`), and what `issueFormed` does with it is the lemma `issued`. The room that a row which drains needs is
that of log entry 13, and the distance of its snapshot that of log entry 56. -/
theorem rowIssueTagsOneRow : Obligations.RowIssueTagsOneRow := by
  unfold Obligations.RowIssueTagsOneRow
  intro s core e r hcore hinfo hst
  refine ⟨fun hidle hself => ?_, fun hactive hswitch pl hplan hrows hslices => ⟨fun hwait => ?_, ?_, fun hthere => ?_⟩⟩
  · intro s0 hinfo' hst' hactive
    rw [exec_rowIssue hcore, exec_rowIssue hcore, issueRow_startPass hinfo hst hidle hself hinfo' hst' hactive]
  · rw [exec_rowIssue hcore, issueRow_wait hinfo hst hactive hswitch hplan hrows hslices hwait]
  · rintro rfl
    exact rowError_clean s core r
  · intro s1 hst' es products d t sc hrow
    have hformed := issueRow_formed hinfo hst hactive hswitch hplan hrows hslices hthere hst'
      (hrow.imp (fun h => ⟨h.1, h.2.1⟩) id)
    have hlanes : products = true → 1 ≤ es.length ∧ es.length ≤ 128 := by
      rintro rfl
      exact (hrow.resolve_right nofun).2.2
    obtain ⟨hissued, hbank, houtput⟩ := issued (if products then formTaps s1 core r else s1) core r pl es products d t sc
      hlanes
    have hexec : exec (.rowIssue core e) s = .next _ := (exec_rowIssue hcore e s).trans (congrArg _ hformed)
    exact ⟨fun h h' => ⟨_, hexec, hissued h h'⟩, fun h => hexec.trans (congrArg _ (hbank h)),
      fun h h' => hexec.trans (congrArg _ (houtput h h'))⟩

end Sys2Proof.Claims
end

section
/-!
PROOF. The entry of rows into the accumulation groups (O10).
-/

open Sys2Proof Sys2Proof.Machine Sys2Proof.Claims Sys2Proof.Laws

namespace Sys2Proof.Laws.RowEntry

/-! ### The arrays and the group of a tag -/

theorem tagGroup_lt (t : BitVec 32) : tagGroup t < 4 := Nat.mod_lt _ (by decide)

theorem nodup_arraysOf (m : BitVec 4) : (arraysOf m).Nodup := List.nodup_range.filter _

/-- Setting one group leaves the group of every other array or number. -/
theorem group_set_other (u : ArrayUnit) {a g b k : Nat} (v : Group) (far : BitVec 48) (hg : g < 4) (hk : k < 4)
    (h : a ≠ b ∨ g ≠ k) :
    ({ u with groups := tset u.groups (4 * b + k) v, farProducts := far } : ArrayUnit).group a g = u.group a g :=
  tgetD_tset_other _ _ _ _ _ (by omega)

theorem group_set_self (u : ArrayUnit) (b k : Nat) (v : Group) (far : BitVec 48) :
    ({ u with groups := tset u.groups (4 * b + k) v, farProducts := far } : ArrayUnit).group b k = v :=
  tgetD_tset_self _ _ _ _

/-! ### A row over its arrays (03 R117) -/

section
variable {m : AMode} {row : Row} {as : List Nat} {u v : ArrayUnit} {stop : Option StopName}

/-- A row that enters leaves the rows in flight, the banks, the snapshots and the counts alone. -/
theorem enterRow_keeps (h : enterRow m row as u = (v, stop)) :
    v.flight = u.flight ∧ v.banks = u.banks ∧ v.snaps = u.snaps ∧ v.rowsIssued = u.rowsIssued ∧
      v.drains = u.drains := by
  induction as generalizing u with
  | nil => cases h; exact ⟨rfl, rfl, rfl, rfl, rfl⟩
  | cons a as ih =>
    rw [enterRow] at h
    split at h
    · cases h; exact ⟨rfl, rfl, rfl, rfl, rfl⟩
    · have hrest := ih h
      exact hrest

theorem enterRow_group_other (h : enterRow m row as u = (v, stop)) {a g : Nat} (hg : g < 4)
    (hout : a ∉ as ∨ g ≠ tagGroup row.tag) : v.group a g = u.group a g := by
  induction as generalizing u with
  | nil => cases h; rfl
  | cons b as ih =>
    rw [List.mem_cons, not_or] at hout
    rw [enterRow] at h
    split at h
    · cases h; rfl
    · rw [ih h (hout.imp_left And.right), group_set_other u _ _ hg (tagGroup_lt _) (hout.imp_left And.left)]

/-- A row that no group stops on enters the group of its tag in each of its arrays, once. -/
theorem enterRow_enters (has : as.Nodup) (h : enterRow m row as u = (v, none)) {a : Nat} (ha : a ∈ as) :
    ∃ far, enterGroup m row (tget row.banks a) (u.group a (tagGroup row.tag)) =
      .ok (v.group a (tagGroup row.tag)) far := by
  induction as generalizing u with
  | nil => cases ha
  | cons b as ih =>
    obtain ⟨hb, has⟩ := List.nodup_cons.1 has
    rw [enterRow] at h
    split at h
    next => cases h
    next g far hentry =>
      obtain rfl | ha := List.mem_cons.1 ha
      · rw [enterRow_group_other h (tagGroup_lt _) (.inl hb), group_set_self]
        exact ⟨far, hentry⟩
      · obtain ⟨far', hentry'⟩ := ih has h ha
        rw [group_set_other u _ _ (tagGroup_lt _) (tagGroup_lt _) (.inl fun (e : a = b) => hb (e ▸ ha))] at hentry'
        exact ⟨far', hentry'⟩

end

/-! ### The snapshots of a DRAIN row (03 R123, R124) -/

theorem snapshots_arrays (row : Row) (u : ArrayUnit) :
    (snapshots row u).map (·.array) = arraysOf (tagArrays row.tag) := by
  simp [snapshots, Function.comp_def]

theorem snapshots_mem {row : Row} {u : ArrayUnit} {x : Snap} (h : x ∈ snapshots row u) :
    x.vals = (u.group x.array (tagGroup row.tag)).vals ∧
      x.longAccum = (u.group x.array (tagGroup row.tag)).longAccum := by
  obtain ⟨p, -, rfl⟩ := List.mem_map.1 h
  exact ⟨rfl, rfl⟩

/-! ### ROW_ENTRY -/

theorem exec_rowEntry {core : Nat} (hcore : core < nCores) (s : State) :
    exec (.rowEntry core) s = .next (rowEntry s core) :=
  withUnit_of (by simpa using hcore)

section
variable {s : State} {core : Nat} {row : Row} {rest : List Row} {u1 : ArrayUnit}
  (hflight : (s.core core).arr.flight = row :: rest)
include hflight

theorem rowEntry_waits (hwaits : (tagDrain row.tag && !(s.core core).arr.snaps.isEmpty) = true) :
    rowEntry s core = s := by
  simp only [rowEntry, hflight, hwaits, if_true]

variable (hwaits : (tagDrain row.tag && !(s.core core).arr.snaps.isEmpty) = false)
include hwaits

theorem rowEntry_stops {n : StopName} (henter : enterRow (s.core core).arr.mode row (arraysOf (tagArrays row.tag))
      { (s.core core).arr with flight := rest } = (u1, some n)) :
    rowEntry s core = stopStage (s.modCore core fun c => { c with arr := u1 }) core n 0 := by
  simp [rowEntry, hflight, hwaits, henter]

theorem rowEntry_enters (henter : enterRow (s.core core).arr.mode row (arraysOf (tagArrays row.tag))
      { (s.core core).arr with flight := rest } = (u1, none)) :
    rowEntry s core = s.modCore core fun c =>
      { c with arr := if tagDrain row.tag then { u1 with snaps := snapshots row u1 } else u1 } := by
  simp [rowEntry, hflight, hwaits, henter]

end

/-- A stage that stops discards its rows in flight and its pending snapshots, and keeps its groups (03 R127). -/
theorem arr_stopStage (s : State) (core : Nat) (n : StopName) (addr : Nat) :
    ((stopStage s core n addr).core core).arr = { (s.core core).arr with flight := [], held := none, snaps := [] } := by
  simp [stopStage, contextFault]

end Sys2Proof.Laws.RowEntry

namespace Sys2Proof.Claims

open Sys2Proof.Laws.RowEntry in
/-- Settles O10. The row that leaves the pipeline waits, stops its stage, or enters, and `enterRow_enters` and
`enterRow_group_other` say which groups it changes. That a DRAIN row waits for every snapshot of the one before it is the
model's reading of R125 (log entry 56). -/
theorem rowEntryUpdatesItsGroups : Obligations.RowEntryUpdatesItsGroups := by
  unfold Obligations.RowEntryUpdatesItsGroups
  intro s core row rest hcore hflight u as waits
  refine ⟨fun hwaits => ?_, fun u1 n hwaits henter => ?_, fun u1 hwaits henter => ?_⟩
  · rw [exec_rowEntry hcore, rowEntry_waits hflight hwaits]
  · refine ⟨_, exec_rowEntry hcore s, ?_⟩
    rw [rowEntry_stops hflight hwaits henter]
    obtain ⟨hbut, hst, hfaults, -⟩ := stopStage_facts (s.modCore core fun c => { c with arr := u1 }) core n 0
    refine ⟨fun k hk => ?_, hst, ?_⟩
    · rw [hbut k hk, core_modCore_other _ _ _ _ hk]
    · rw [arr_stopStage, core_modCore_self]
      exact ⟨rfl, rfl, rfl, by simpa using hfaults⟩
  · refine ⟨_, exec_rowEntry hcore s, ?_⟩
    rw [rowEntry_enters hflight hwaits henter]
    obtain ⟨hrest, hbanks, hsnaps, hissued, hdrains⟩ := enterRow_keeps henter
    have hother (a g : Nat) (_ : a < 4) (hg : g < 4) (hout : a ∉ as ∨ g ≠ tagGroup row.tag) :
        u1.group a g = u.group a g := enterRow_group_other henter hg hout
    have henters (a : Nat) (ha : a ∈ as) := enterRow_enters (nodup_arraysOf _) henter ha
    refine ⟨coresBut_modCore _ _ _, ?_⟩
    simp only [core_modCore_self]
    cases tagDrain row.tag with
    | false => exact ⟨hrest, hbanks, hissued, hdrains, trivial, hother, henters, fun _ => hsnaps, nofun⟩
    | true =>
      exact ⟨hrest, hbanks, hissued, hdrains, trivial, hother, henters, nofun, fun _ =>
        ⟨snapshots_arrays row u1, fun x hx => snapshots_mem hx⟩⟩

end Sys2Proof.Claims
end

section
/-!
PROOF. What one row does to one accumulation group (O11).
-/

open Sys2Proof Sys2Proof.Machine Sys2Proof.Claims

namespace Sys2Proof.Laws.GroupEntry

theorem bit_zero (i : Nat) : bit 0 i = false := by simp [bit]

/-- PRODUCTS adds and saturates (03 R122). -/
theorem addProducts_toNat (p : BitVec 28) (n : Nat) : (addProducts p n).toNat = min (p.toNat + n) 0x0FFFFFFF := by
  unfold addProducts
  split
  · rw [BitVec.toNat_ofNat]; omega
  · rw [BitVec.toNat_add, BitVec.toNat_ofNat]; omega

/-- The window sum and the far products of each column of a row. -/
def columnSums (m : AMode) (row : Row) (b : Bank) : List (Option Dy × Nat) :=
  (List.range 16).map fun j => columnSum .nearestEven (columnProducts m row b j)

/-- A column of a group after its window sum has entered: NaN stays, and a NaN sum makes NaN (03 R117; log entry 47). -/
def columnAfter (sum : Option Dy) (a : A40) : A40 :=
  match sum with
  | none => A40.nan
  | some d => if A40.isNaN a then A40.nan else A40.addTo .nearestEven a d

/-- The group after a row without poison has entered, outside BBF12 mode. -/
def groupAfter (m : AMode) (row : Row) (b : Bank) (g : Group) : Group :=
  ⟨(g.vals.zip (columnSums m row b)).map fun p => columnAfter p.2.1 p.1, addProducts g.products (tagLanes row.tag),
   g.longAccum || decide (g.products.toNat + tagLanes row.tag > 2 ^ 20), false, some (row.scaleA, b.scaleB)⟩

theorem enterGroup_products {m : AMode} {row : Row} {b : Bank} {g : Group} (hm : m ≠ .bbf12)
    (hproducts : tagProducts row.tag = true) (hopen : tagOpen row.tag = false) (hg : g.poisoned = false)
    (hpair : g.pair = none ∨ g.pair = some (row.scaleA, b.scaleB)) (hacts : row.acts.all (fun e => !e.poison) = true)
    (hb : b.poison = 0) :
    enterGroup m row (some b) g = .ok (groupAfter m row b g) ((columnSums m row b).map (·.2)).sum := by
  have hpair' : (g.pair.isSome && decide (g.pair ≠ some (row.scaleA, b.scaleB))) = false := by
    rcases hpair with h | h <;> simp [h]
  have hlanes : (row.acts.take (tagLanes row.tag)).any (·.poison) = false := by
    rw [List.any_eq_false]
    intro e he
    simpa using List.all_eq_true.1 hacts e (List.mem_of_mem_take he)
  have hbank : ((List.range 16).any fun j => (List.range (tagLanes row.tag)).any fun l =>
      bit b.poison (128 * j + l)) = false := by
    simp [hb, bit_zero]
  simp only [enterGroup, hproducts, hopen, hlanes, hbank, Bool.false_and, Bool.not_true, Bool.or_self,
    reduceIte, Bool.false_eq_true, hpair', hg, hm, decide_false, ne_eq, not_false_eq_true, decide_true, Bool.true_and]
  rfl

theorem groupAfter_columns (m : AMode) (row : Row) (b : Bank) {g : Group} (hg : g.vals.length = 16) :
    (groupAfter m row b g).vals.length = 16 ∧ ∀ j a, g.vals[j]? = some a →
      (groupAfter m row b g).vals[j]? =
        some (columnAfter (columnSum .nearestEven (columnProducts m row b j)).1 a) := by
  refine ⟨by simp [groupAfter, columnSums, hg], fun j a ha => ?_⟩
  have hj : j < 16 := hg ▸ (List.getElem?_eq_some_iff.1 ha).1
  have hsum : (columnSums m row b)[j]? = some (columnSum .nearestEven (columnProducts m row b j)) := by
    simp [columnSums, hj]
  have hzip : (g.vals.zip (columnSums m row b))[j]? = some (a, columnSum .nearestEven (columnProducts m row b j)) :=
    List.getElem?_zip_eq_some.2 ⟨ha, hsum⟩
  simp [groupAfter, hzip]

end Sys2Proof.Laws.GroupEntry

namespace Sys2Proof.Claims

open Sys2Proof.Laws.GroupEntry in
/-- Settles O11. Without poison and with its own scale pair a row stops on no group (`enterGroup_products`), and the
group after it is `groupAfter`, read column by column. That a NaN product makes its own column NaN and leaves the others
going on is log entry 47 (DEDUCED; R117 says only that the row leaves the group NaN). -/
theorem groupAddsTheRowsProducts : Obligations.GroupAddsTheRowsProducts := by
  unfold Obligations.GroupAddsTheRowsProducts
  intro m row b g hm hproducts hopen hg hlen hpair hacts hb
  obtain ⟨hlen', hcolumns⟩ := groupAfter_columns m row b hlen
  exact ⟨_, groupAfter m row b g, enterGroup_products hm hproducts hopen hg hpair hacts hb, addProducts_toNat _ _, rfl,
    rfl, rfl, hlen', hcolumns⟩

end Sys2Proof.Claims
end

section
/-!
PROOF. The drain unit and the weight loads (O12).
-/

open Sys2Proof Sys2Proof.Machine Sys2Proof.Claims Sys2Proof.Laws Sys2Proof.Laws.Arrays

namespace Sys2Proof.Laws.Drains

/-! ### DRAIN_UNIT (03 R124, R126) -/

theorem exec_drainUnit {core : Nat} (hcore : core < nCores) (s : State) :
    exec (.drainUnit core) s = .next (drainUnit s core) :=
  withUnit_of (by simpa using hcore)

/-- The drained values of a snapshot, in column order. -/
def drained (u : ArrayUnit) (x : Snap) : List OVal :=
  (x.vals.take x.dest.cols).map
    (drainValue (u.mode = .bbf12) (x.pair.getD (F32.one, F32.one)).1 (x.pair.getD (F32.one, F32.one)).2 x.poisoned)

/-- The array unit once its oldest snapshot, `x`, has been taken. -/
def snapTaken (u : ArrayUnit) (x : Snap) (rest : List Snap) : ArrayUnit :=
  { u with
    snaps := rest
    longAccumDrains := u.longAccumDrains + (if x.longAccum then 1 else 0)
    drains := u.drains + (if x.last then 1 else 0) }

/-- A tensor under construction once a snapshot has drained into it. -/
def tensorAfter (u : ArrayUnit) (x : Snap) (t : OutTensor) : OutTensor :=
  { t with
    flags := if x.longAccum then t.flags ||| flagLongAccum else t.flags
    vals := (drained u x).zipIdx.foldl (fun m v => tset m (x.dest.base + v.2) v.1) t.vals }

theorem tget_tensorAfter_drained (u : ArrayUnit) {x : Snap} (t : OutTensor) {j : Nat} {a : A40} (hj : j < x.dest.cols)
    (ha : x.vals[j]? = some a) : tget (tensorAfter u x t).vals (x.dest.base + j) =
      some (drainValue (u.mode = .bbf12) (x.pair.getD (F32.one, F32.one)).1 (x.pair.getD (F32.one, F32.one)).2
        x.poisoned a) := by
  have hlen : j < x.vals.length := (List.getElem?_eq_some_iff.1 ha).1
  have hin : x.dest.base + 0 ≤ x.dest.base + j ∧ x.dest.base + j < x.dest.base + 0 + (drained u x).length := by
    simp [drained]; omega
  rw [tensorAfter, foldl_tset, if_pos hin]
  simp [drained, hj, ha]

theorem tget_tensorAfter_other (u : ArrayUnit) {x : Snap} (t : OutTensor) {j : Nat}
    (hj : j < x.dest.base ∨ x.dest.base + x.dest.cols ≤ j) : tget (tensorAfter u x t).vals j = tget t.vals j := by
  have hout : ¬ (x.dest.base + 0 ≤ j ∧ j < x.dest.base + 0 + (drained u x).length) := by
    simp [drained]; omega
  rw [tensorAfter, foldl_tset, if_neg hout]

theorem getElem?_modify_eq_ite {α : Type} (l : List α) (f : α → α) (k i : Nat) :
    (l.modify k f)[i]? = if i = k then l[i]?.map f else l[i]? := by
  by_cases h : i = k
  · subst h
    simp
  · simp [h, Ne.symm h]

theorem outPort_putVals (s : State) (core p seq base : Nat) (vs : List OVal) :
    ((putVals s core p seq base vs).core core).outPort p = { (s.core core).outPort p with
      outs := ((s.core core).outPort p).outs.modify (seq - ((s.core core).outPort p).gone) fun t =>
        { t with vals := vs.zipIdx.foldl (fun m v => tset m (base + v.2) v.1) t.vals } } := by
  simp [putVals, Core.outPort]

theorem outPort_putFlags (s : State) (core p seq : Nat) (fl : BitVec 8) :
    ((putFlags s core p seq fl).core core).outPort p = { (s.core core).outPort p with
      outs := ((s.core core).outPort p).outs.modify (seq - ((s.core core).outPort p).gone) fun t =>
        { t with flags := t.flags ||| fl } } := by
  simp [putFlags, Core.outPort]

section
variable {s : State} {core : Nat} {x : Snap} {rest : List Snap} (hsnaps : (s.core core).arr.snaps = x :: rest)
include hsnaps

theorem drainUnit_full (hfull : portFull s core x.dest.port = true) : drainUnit s core = s := by
  simp [drainUnit, hsnaps, hfull]

variable (hroom : portFull s core x.dest.port = false)
include hroom

theorem drainUnit_takes : drainUnit s core =
    let s1 := putVals (s.modCore core fun c => { c with arr := snapTaken (s.core core).arr x rest }) core x.dest.port
      x.dest.seq x.dest.base (drained (s.core core).arr x)
    if x.longAccum then putFlags s1 core x.dest.port x.dest.seq flagLongAccum else s1 := by
  simp only [drainUnit, hsnaps, hroom]
  rfl

/-- Taking a snapshot changes its core alone, and there the array unit and the tensor at the snapshot's place. -/
theorem drainUnit_facts :
    CoresBut core s (drainUnit s core) ∧
    ((drainUnit s core).core core).arr = snapTaken (s.core core).arr x rest ∧
    ∀ i, (((drainUnit s core).core core).outPort x.dest.port).outs[i]? =
      if i = x.dest.seq - ((s.core core).outPort x.dest.port).gone
      then (((s.core core).outPort x.dest.port).outs[i]?).map (tensorAfter (s.core core).arr x)
      else ((s.core core).outPort x.dest.port).outs[i]? := by
  rw [drainUnit_takes hsnaps hroom]
  have hport : (((s.modCore core fun c => { c with arr := snapTaken (s.core core).arr x rest }).core core).outPort
      x.dest.port) = (s.core core).outPort x.dest.port := by
    rw [core_modCore_self]; rfl
  cases hlong : x.longAccum with
  | false =>
    refine ⟨fun k hk => by simp [putVals, hk], by simp [putVals], fun i => ?_⟩
    have htensor : tensorAfter (s.core core).arr x = fun t => { t with
        vals := (drained (s.core core).arr x).zipIdx.foldl (fun m v => tset m (x.dest.base + v.2) v.1) t.vals } := by
      funext t
      simp [tensorAfter, hlong]
    simp only [Bool.false_eq_true, if_false, outPort_putVals, hport, getElem?_modify_eq_ite, htensor]
  | true =>
    refine ⟨fun k hk => by simp [putVals, putFlags, hk], by simp [putVals, putFlags], fun i => ?_⟩
    have htensor : tensorAfter (s.core core).arr x =
        (fun t : OutTensor => { t with flags := t.flags ||| flagLongAccum }) ∘ fun t : OutTensor => { t with
          vals := (drained (s.core core).arr x).zipIdx.foldl (fun m v => tset m (x.dest.base + v.2) v.1) t.vals } := by
      funext t
      simp [tensorAfter, hlong]
    simp only [if_true, outPort_putFlags, outPort_putVals, hport, getElem?_modify_eq_ite, OutPort.gone, htensor]
    split_ifs
    · exact Option.map_map ..
    · rfl

end

/-! ### WEIGHT_LOAD_START (03 R129, R130) -/

theorem exec_weightLoadStart {core a b : Nat} (hcore : core < nCores) (ha : a < 4) (hb : b < 2) (e : Ecc) (s : State) :
    exec (.weightLoadStart core a b e) s = .next (loadStart s core a b e) :=
  withUnit_of (by simp [hcore, ha, hb])

theorem tileError_clean (s : State) (core : Nat) (r : StageRec) (t rank : Nat) :
    tileError s core r t rank .clean = s := by
  simp only [tileError, storeEvent, ne_eq, reduceCtorEq, not_false_eq_true, if_true]
  split
  · split <;> rfl
  · rfl

/-- A tile is the one of the slice and of the pass run that it is asked for. -/
theorem tileFor_names {c : Core} {r : StageRec} {t rank run : Nat} {k : Bank} (h : tileFor c r t rank run = some k) :
    k.run = run ∧ k.slice = t := by
  unfold tileFor at h
  split at h
  · simp only [Option.bind_eq_some_iff, Option.ite_none_right_eq_some, Option.some.injEq] at h
    obtain ⟨h1, -, -, rfl⟩ := h
    exact ⟨rfl, rfl⟩
  · simp only [Option.ite_none_right_eq_some, Option.map_eq_some_iff] at h
    obtain ⟨-, g, -, rfl⟩ := h
    exact ⟨rfl, rfl⟩

section
variable {s : State} {core a b : Nat} {r : StageRec} {pl : Plan} {t blk rank : Nat}
  (hinfo : (s.core core).stage.info = some r) (hplan : planOf s core = some pl)
  (hslice : nextSlice (s.core core) r pl b = some (t, blk)) (hrank : (arraysOf r.arrays).idxOf? a = some rank)
include hinfo hplan hslice hrank

theorem loadStart_waits (h : (s.core core).arr.loading ≠ [] ∨
      bankHolds (s.core core).arr a b (bankKey r (s.core core).stage.seq pl.slices blk) t = true ∨
      tileFor (s.core core) r t rank (bankKey r (s.core core).stage.seq pl.slices blk) = none) (e : Ecc) :
    loadStart s core a b e = s := by
  have hwaits : (!(s.core core).arr.loading.isEmpty ||
      bankHolds (s.core core).arr a b (bankKey r (s.core core).stage.seq pl.slices blk) t ||
      (tileFor (s.core core) r t rank (bankKey r (s.core core).stage.seq pl.slices blk)).isNone) = true := by
    simpa [or_assoc] using h
  simp only [loadStart, hinfo, hplan, hslice, hrank, if_pos hwaits]

theorem loadStart_begins {e : Ecc} {k : Bank} (hfree : (s.core core).arr.loading = [])
    (hholds : bankHolds (s.core core).arr a b (bankKey r (s.core core).stage.seq pl.slices blk) t = false)
    (hthere : (tileFor (s.core core) r t rank (bankKey r (s.core core).stage.seq pl.slices blk)).isSome = true)
    (hst : ((tileError s core r t rank e).core core).stage.st ≠ .stopped)
    (hk : tileFor ((tileError s core r t rank e).core core) r t rank
      (bankKey r (s.core core).stage.seq pl.slices blk) = some k) :
    loadStart s core a b e = (tileError s core r t rank e).modCore core fun c => { c with arr := { c.arr with
      banks := terase c.arr.banks (2 * a + b), loading := tset c.arr.loading a ⟨b, k⟩ } } := by
  simp only [loadStart, hinfo, hplan, hslice, hrank, hfree, hholds, hk]
  simp [Option.isSome_iff_ne_none.1 hthere, hst]

end

/-! ### WEIGHT_LOAD_DONE (03 R128, R129) -/

theorem exec_weightLoadDone {core a : Nat} (hcore : core < nCores) (ha : a < 4) (s : State) :
    exec (.weightLoadDone core a) s = .next (loadDone s core a) :=
  withUnit_of (by simp [hcore, ha])

theorem loadDone_eq {s : State} {core a : Nat} {l : TileLoad} (h : tget (s.core core).arr.loading a = some l) :
    loadDone s core a = s.modCore core fun c => { c with arr := { c.arr with
      banks := tset c.arr.banks (2 * a + l.bank) l.content, loading := terase c.arr.loading a } } :=
  modCore_congr (by simp [h])

end Sys2Proof.Laws.Drains

namespace Sys2Proof.Claims

open Sys2Proof.Laws.Drains in
/-- Settles O12. A drain is `drainUnit_facts` with the readings of `tensorAfter`, its tensor afterwards; a load begins by
`loadStart_begins`, with the tile that `tileFor_names`, and ends by `loadDone_eq`. -/
theorem drainAndWeightLoads : Obligations.DrainAndWeightLoads := by
  unfold Obligations.DrainAndWeightLoads
  refine ⟨fun s core x rest t hcore hsnaps => ?_,
    fun s core a b e r pl t blk rank hcore ha hb hinfo hplan hslice hrank => ?_, fun s core a l hcore ha hload => ?_⟩
  · intro u o k
    refine ⟨fun hfull => ?_, fun hroom ht => ⟨_, exec_drainUnit hcore s, ?_⟩⟩
    · rw [exec_drainUnit hcore, drainUnit_full hsnaps hfull]
    · obtain ⟨hbut, harr, houts⟩ := drainUnit_facts hsnaps hroom
      simp only [harr]
      refine ⟨hbut, rfl, rfl, rfl, rfl, fun i hi => (houts i).trans (if_neg hi), tensorAfter u x t, ?_, rfl, rfl,
        fun j a hj ha => tget_tensorAfter_drained u t hj ha, fun j hj => tget_tensorAfter_other u t hj⟩
      rw [houts, if_pos rfl]
      exact congrArg (Option.map _) ht
  · intro u run s1
    refine ⟨fun h => ?_, ?_, fun hfree hholds hthere hst k hk => ⟨_, exec_weightLoadStart hcore ha hb e s, ?_⟩⟩
    · rw [exec_weightLoadStart hcore ha hb, loadStart_waits hinfo hplan hslice hrank h]
    · rintro rfl
      exact tileError_clean s core r t rank
    · rw [loadStart_begins hinfo hplan hslice hrank hfree hholds hthere hst hk]
      obtain ⟨hrun, hslice'⟩ := tileFor_names hk
      simp only [core_modCore_self]
      exact ⟨coresBut_modCore _ _ _, rfl, rfl, hrun, hslice', fun n hn => tget_terase_other _ _ _ hn, rfl, rfl⟩
  · refine ⟨_, exec_weightLoadDone hcore ha s, ?_⟩
    rw [loadDone_eq hload]
    simp only [core_modCore_self]
    exact ⟨coresBut_modCore _ _ _, tget_tset_self _ _ _, trivial, fun k hk => tget_tset_other _ _ _ _ hk, trivial,
      trivial⟩

end Sys2Proof.Claims
end

section
/-!
PROOF. The nodes of reduction trees below a root (O13).
-/

open Sys2Proof Sys2Proof.Machine Sys2Proof.Claims Sys2Proof.Laws

namespace Sys2Proof.Laws.TreeNodes

/-! ### What an update of a node leaves alone -/

section
variable (s : State) (c i : Nat) (f : TreeNode → TreeNode)

@[simp] theorem node_modNode_other {k : Nat} (h : k ≠ i) : (s.modNode c i f).node c k = s.node c k := by
  simp [State.node, State.modNode, h]

@[simp] theorem image_modNode (k : Nat) : ((s.modNode c i f).ctx k).image = (s.ctx k).image := by
  by_cases h : k = c
  · subst h
    simp [State.modNode]
  · simp [State.modNode, h]

@[simp] theorem treeRec_modNode (k n : Nat) : treeRec ((s.modNode c i f).ctx k) n = treeRec (s.ctx k) n := by
  simp [treeRec]

@[simp] theorem rootStream_modNode (k n : Nat) :
    rootStream ((s.modNode c i f).ctx k) n = rootStream (s.ctx k) n := by
  simp [rootStream]

@[simp] theorem ctx_modNode_other {k : Nat} (h : k ≠ c) : (s.modNode c i f).ctx k = s.ctx k :=
  ctx_modCtx_other _ _ _ _ h

end

/-! ### The parts of a combination (03 R134) -/

/-- The child entry `ch` of a node is changed. -/
def modKid (s : State) (c n ch : Nat) (f : KidQ → KidQ) : State :=
  s.modNode c n fun t => { t with kids := tmod t.kids ch {} f }

/-- A change of each of a node's children `ks`. -/
def eachKid (ks : List Nat) (f : KidQ → KidQ) (kids : Tbl KidQ) : Tbl KidQ :=
  ks.foldl (fun m k => tmod m k {} f) kids

/-- A node once it has taken one element from each of its children `ks`. -/
def valuesTaken (ks : List Nat) (sat : Bool) (t : TreeNode) : TreeNode :=
  { t with
    pos := t.pos + 1
    kids := eachKid ks (fun q => { q with vals := q.vals.drop 1 }) t.kids
    ctr := if sat then t.ctr.addSat else t.ctr }

/-- A node once it has taken the headers of its children `ks`, with their last elements. -/
def headersTaken (ks : List Nat) (t : TreeNode) : TreeNode :=
  { t with pos := 0, kids := eachKid ks (fun q => { q with hdrs := q.hdrs.drop 1 }) t.kids }

theorem kid_modKid_self (s : State) (c n ch : Nat) (f : KidQ → KidQ) :
    ((modKid s c n ch f).node c n).kid ch = f ((s.node c n).kid ch) := by
  simp [modKid, TreeNode.kid]

@[simp] theorem node_modKid_other (s : State) (c n ch : Nat) (f : KidQ → KidQ) {k : Nat} (h : k ≠ n) :
    (modKid s c n ch f).node c k = s.node c k :=
  node_modNode_other _ _ _ _ h

section
variable {ks : List Nat} (hks : ks.Nodup) {k : Nat} (hk : k ∈ ks)
include hks hk

theorem kid_eachKid (f : KidQ → KidQ) (t : Tbl KidQ) : tgetD (eachKid ks f t) k {} = f (tgetD t k {}) := by
  rw [eachKid, Windows.tgetD_foldl_tmod _ _ _ _ _ hks, if_pos hk]

theorem kid_valuesTaken (sat : Bool) (t : TreeNode) :
    (valuesTaken ks sat t).kid k = { t.kid k with vals := (t.kid k).vals.drop 1 } :=
  kid_eachKid hks hk _ _

theorem kid_headersTaken (t : TreeNode) :
    (headersTaken ks t).kid k = { t.kid k with hdrs := (t.kid k).hdrs.drop 1 } :=
  kid_eachKid hks hk _ _

end

/-! ### An inner node -/

/-- A node whose value no stream takes emits no tensor of its own. -/
theorem rootEmit_inner {s : State} {c node : Nat} (h : rootStream (s.ctx c) node = none) : rootEmit s c node = s := by
  simp only [rootEmit, h]
  split
  next hroot => cases hroot
  next => rfl

/-- A node whose output is another node is no barrier root (08 R296). -/
theorem barrierRoot_inner {s : State} {c node : Nat} {d : TreeRec} (h : treeRec (s.ctx c) node = some d)
    (hkind : epKind d.out = 2) : barrierRoot s c node = s := by
  simp only [barrierRoot, h]
  split
  next heq _ _ => cases heq; simp [hkind]
  next => rfl

/-- The children of a node, by their entries. -/
def kidsOf (d : TreeRec) : List Nat := List.range (d.fanin + 1)

theorem nodup_kidsOf (d : TreeRec) : (kidsOf d).Nodup := List.nodup_range

section
variable (s : State) (c node : Nat) (d : TreeRec) (h : THdr) (xs : List (F32 × Bool))

/-- The header of a node's tensor goes to its parent before the first element. -/
def headerSent : State :=
  if (s.node c node).pos = 0
  then modKid s c (epNode d.out) (epChild d.out) fun q => { q with hdrs := q.hdrs ++ [h] } else s

/-- The value of the elements `xs` goes to the parent, and the elements leave the children. -/
def valueSent : State :=
  let r := nodeValue (s.ctx c) node d.op 0 xs
  modKid ((headerSent s c node d h).modNode c node (valuesTaken (kidsOf d) r.sat)) c (epNode d.out) (epChild d.out)
    fun q => { q with vals := q.vals ++ [(r.code.setWidth 32, r.poison)] }

/-- The state after a node below a root has combined the elements `xs` of its children under the header `h`. -/
def combined : State :=
  if (s.node c node).pos + 1 = h.length
  then (valueSent s c node d h xs).modNode c node (headersTaken (kidsOf d)) else valueSent s c node d h xs

@[simp] theorem treeRec_headerSent (n : Nat) : treeRec ((headerSent s c node d h).ctx c) n = treeRec (s.ctx c) n := by
  unfold headerSent
  split <;> simp [modKid]

@[simp] theorem rootStream_headerSent (n : Nat) :
    rootStream ((headerSent s c node d h).ctx c) n = rootStream (s.ctx c) n := by
  unfold headerSent
  split <;> simp [modKid]

theorem cores_headerSent : (headerSent s c node d h).cores = s.cores := by
  unfold headerSent
  split <;> simp [modKid]

theorem ctx_headerSent_other {k : Nat} (hk : k ≠ c) : (headerSent s c node d h).ctx k = s.ctx k := by
  unfold headerSent
  split <;> simp [modKid, hk]

theorem treeRec_combined (n : Nat) : treeRec ((combined s c node d h xs).ctx c) n = treeRec (s.ctx c) n := by
  unfold combined
  split <;> simp [valueSent, modKid]

theorem cores_combined : (combined s c node d h xs).cores = s.cores := by
  unfold combined
  split <;> simp [valueSent, modKid, cores_headerSent]

theorem ctx_combined_other {k : Nat} (hk : k ≠ c) : (combined s c node d h xs).ctx k = s.ctx k := by
  unfold combined
  split <;> simp [valueSent, modKid, ctx_headerSent_other, hk]

theorem kid_headerSent_parent : ((headerSent s c node d h).node c (epNode d.out)).kid (epChild d.out) =
    let parent := (s.node c (epNode d.out)).kid (epChild d.out)
    { parent with hdrs := parent.hdrs ++ if (s.node c node).pos = 0 then [h] else [] } := by
  unfold headerSent
  split
  · exact kid_modKid_self _ _ _ _ _
  · simp

variable {d} (hparent : epNode d.out ≠ node)
include hparent

theorem node_headerSent : (headerSent s c node d h).node c node = s.node c node := by
  unfold headerSent
  split
  · exact node_modKid_other _ _ _ _ _ hparent.symm
  · rfl

theorem node_valueSent : (valueSent s c node d h xs).node c node =
    valuesTaken (kidsOf d) (nodeValue (s.ctx c) node d.op 0 xs).sat (s.node c node) := by
  rw [valueSent, node_modKid_other _ _ _ _ _ hparent.symm, node_modNode_self, node_headerSent _ _ _ _ hparent]

theorem kid_valueSent_parent : ((valueSent s c node d h xs).node c (epNode d.out)).kid (epChild d.out) =
    let r := nodeValue (s.ctx c) node d.op 0 xs
    let parent := (s.node c (epNode d.out)).kid (epChild d.out)
    { parent with
      hdrs := parent.hdrs ++ if (s.node c node).pos = 0 then [h] else []
      vals := parent.vals ++ [(r.code.setWidth 32, r.poison)] } := by
  rw [valueSent, kid_modKid_self, node_modNode_other _ _ _ _ hparent, kid_headerSent_parent]

/-- What a combination leaves: the node without what it took, its parent's child entry with the value, and every core
and every other context as they were. -/
theorem combined_facts :
    let t := s.node c node
    let r := nodeValue (s.ctx c) node d.op 0 xs
    let last := decide (t.pos + 1 = h.length)
    let parent := (s.node c (epNode d.out)).kid (epChild d.out)
    let s' := combined s c node d h xs
    (s'.node c node).pos = (if last then 0 else t.pos + 1) ∧
    (∀ k ∈ kidsOf d, (s'.node c node).kid k = { t.kid k with
      vals := (t.kid k).vals.drop 1, hdrs := (t.kid k).hdrs.drop (if last then 1 else 0) }) ∧
    (s'.node c (epNode d.out)).kid (epChild d.out) = { parent with
      hdrs := parent.hdrs ++ (if t.pos = 0 then [h] else [])
      vals := parent.vals ++ [(r.code.setWidth 32, r.poison)] } ∧
    s'.cores = s.cores ∧ ∀ k, k ≠ c → s'.ctx k = s.ctx k := by
  intro t r last parent s'
  have hnode := node_valueSent s c node h xs hparent
  have hkid := kid_valueSent_parent s c node h xs hparent
  have hcores := cores_combined s c node d h xs
  have hctx (k : Nat) (hk : k ≠ c) := ctx_combined_other s c node d h xs hk
  by_cases hlast : t.pos + 1 = h.length
  · have hs' : s' = (valueSent s c node d h xs).modNode c node (headersTaken (kidsOf d)) := if_pos hlast
    have hnode' : s'.node c node = headersTaken (kidsOf d) (valuesTaken (kidsOf d) r.sat t) := by
      rw [hs', node_modNode_self, hnode]
    have hlast' : last = true := decide_eq_true hlast
    refine ⟨?_, fun k hk => ?_, ?_, hcores, hctx⟩
    · rw [hnode', hlast']; rfl
    · rw [hnode', hlast', kid_headersTaken (nodup_kidsOf d) hk, kid_valuesTaken (nodup_kidsOf d) hk]; rfl
    · rw [hs', node_modNode_other _ _ _ _ hparent, hkid]
  · have hs' : s' = valueSent s c node d h xs := if_neg hlast
    have hlast' : last = false := decide_eq_false hlast
    refine ⟨?_, fun k hk => ?_, ?_, hcores, hctx⟩
    · rw [hs', hnode, hlast']; rfl
    · rw [hs', hnode, hlast', kid_valuesTaken (nodup_kidsOf d) hk]; rfl
    · rw [hs', hkid]

end

/-! ### TREE_NODE -/

theorem exec_treeNode {c node : Nat} (hc : c < nCtx) (hnode : node < 65536) (s : State) :
    exec (.treeNode c node) s = .next (barrierRoot (treeNode s c node) c node) :=
  withUnit_of (by simp [hc, hnode])

theorem filter_kidLive {s : State} {c node : Nat} {d : TreeRec} (hlive : ∀ k ∈ kidsOf d, kidLive s c 64 node k = true) :
    ((kidsOf d).filter fun k => kidLive s c 64 node k) = kidsOf d :=
  List.filter_eq_self.2 hlive

section
variable {s : State} {c node : Nat} {d : TreeRec} (htree : treeRec (s.ctx c) node = some d)
include htree

theorem treeNode_idle (hruns : nodeRuns s (s.ctx c) d = false) : treeNode s c node = s := by
  simp [treeNode, htree, hruns]

variable (hlive : ∀ k ∈ kidsOf d, kidLive s c 64 node k = true)
include hlive

theorem treeNode_waits (hmissing : ∃ k ∈ kidsOf d, ((s.node c node).kid k).hdrs = []) : treeNode s c node = s := by
  obtain ⟨k, hk, hnone⟩ := hmissing
  have hfew : ((kidsOf d).filterMap fun k => ((s.node c node).kid k).hdrs.head?).length ≠ (kidsOf d).length := by
    intro h
    simpa [hnone] using List.filterMap_length_eq_length.1 h k hk
  have hrange : List.range (d.fanin + 1) = kidsOf d := rfl
  simp [treeNode, htree, hrange, filter_kidLive hlive, hfew]

theorem treeNode_combines {hs : List THdr} {xs : List (F32 × Bool)} (hkind : epKind d.out = 2)
    (hroot : rootStream (s.ctx c) node = none) (hruns : nodeRuns s (s.ctx c) d = true)
    (hhdrs : (kidsOf d).map (fun k => ((s.node c node).kid k).hdrs.head?) = hs.map some)
    (hvals : (kidsOf d).map (fun k => ((s.node c node).kid k).vals.head?) = xs.map some)
    (hpos : (s.node c node).pos < (treeHeader hs).length) :
    treeNode s c node = combined s c node d (treeHeader hs) xs := by
  have hkids : (kidsOf d).isEmpty = false := by simp [kidsOf]
  have hcount : hs.length = (kidsOf d).length := by simpa using (congrArg List.length hhdrs).symm
  have hheaders : (kidsOf d).filterMap (fun k => ((s.node c node).kid k).hdrs.head?) = hs :=
    Windows.filterMap_map_some _ _ _ hhdrs
  have hvalues : (kidsOf d).filterMap (fun k => ((s.node c node).kid k).vals.head?) = xs :=
    Windows.filterMap_map_some _ _ _ hvals
  have hnone : ∀ k ∈ kidsOf d, ((s.node c node).kid k).vals ≠ [] := by
    intro k hk h
    have hmem := List.mem_map_of_mem (f := fun k => ((s.node c node).kid k).vals.head?) hk
    rw [hvals] at hmem
    simp [h] at hmem
  have hany : ((kidsOf d).any fun k => decide (((s.node c node).kid k).vals = [])) = false := by
    simpa using hnone
  have hpart : ((kidsOf d).filter fun k => decide (((s.node c node).kid k).vals ≠ [])) = kidsOf d :=
    List.filter_eq_self.2 (by simpa using hnone)
  have hlen : (treeHeader hs).length ≠ 0 := by omega
  have hrange : List.range (d.fanin + 1) = kidsOf d := rfl
  simp only [treeNode, htree, hrange, filter_kidLive hlive, hheaders, hkids, hcount, hroot, hruns, hkind, hlen, hany,
    hpart, hvalues, Nat.sub_self, ne_eq, not_true_eq_false, decide_false, decide_true, Bool.not_true, Bool.or_self,
    Bool.false_eq_true, if_false, if_true, Bool.true_and]
  rw [rootEmit_inner]
  · rfl
  · split <;> simp [hroot]

end

end Sys2Proof.Laws.TreeNodes

namespace Sys2Proof.Claims

open Sys2Proof.Laws.TreeNodes in
/-- Settles O13. A node below a root is no barrier root (`barrierRoot_inner`), so TREE_NODE is `treeNode` alone, which
does nothing where its reduction unit is not powered (09 R374, `treeNode_idle`) or a child has no header
(`treeNode_waits`), and otherwise leaves the state `combined`. -/
theorem treeNodeCombinesInChildOrder : Obligations.TreeNodeCombinesInChildOrder := by
  unfold Obligations.TreeNodeCombinesInChildOrder
  intro s c node d hc hnode htree hkind hparent hroot t kids
  refine ⟨fun hruns => ?_, fun hlive hmissing => ?_, fun hs xs hruns hlive hhdrs hvals hpos =>
    ⟨_, exec_treeNode hc hnode s, ?_⟩⟩
  · rw [exec_treeNode hc hnode, treeNode_idle htree hruns, barrierRoot_inner htree hkind]
  · rw [exec_treeNode hc hnode, treeNode_waits htree hlive hmissing, barrierRoot_inner htree hkind]
  · rw [treeNode_combines htree hlive hkind hroot hruns hhdrs hvals hpos,
      barrierRoot_inner ((treeRec_combined ..).trans htree) hkind]
    exact combined_facts s c node _ xs hparent

end Sys2Proof.Claims
end

section
/-!
PROOF. States at which the statements on the arrays and the trees apply (O9 to O13): a MATMUL stage with one row to issue
and one tile to load, rows in flight, a snapshot to drain, and a tree node with one element at its child.
-/

open Sys2Proof Sys2Proof.Machine Sys2Proof.Claims

namespace Sys2Proof.Laws.ArrayExamples

/-! ### A stage with one row to issue and one tile to load -/

/-- A MATMUL stage of one pass with K = 1 on array 0, whose output no stream takes. -/
def oneLaneStage : StageRec where
  lcore := 0
  stage := 0
  member := 0
  opclass := 0
  mode := 1
  arrays := 1
  npassM1 := 0
  window := false
  post := false
  stagingKib := 0
  paramOff := 0
  paramLen := 4
  passFirst := 0
  scales := []
  streams := []
  param := ⟨4, 1⟩

/-- The header of a tensor of one element. -/
def oneElement : THdr where
  length := 1
  scale := F32.one
  format := 0
  flags := 0
  c := 1
  w := 1
  h := 1
  sample := 0
  use := 0

/-- A core whose stage runs its one pass, with the tensor at its port and its one tile staged. -/
def oneLaneCore : Core :=
  { Core.cleared with
    arr := { ArrayUnit.cleared with mode := .log8 }
    stage := { StageUnit.cleared with
      st := .running
      info := some oneLaneStage
      passes := [{ wdesc := 0, tiles := 1, accKeep := false, drainEnd := true, replay := false, outPort := 0 }]
      staging := [(0, { run := 0, pass := 0, tiles := [(0, 0, 0)], scaleB := F32.one, arrived := 16, full := true })]
      seq := { Sequencer.start with active := true } }
    inp := [(0, { hdr := some oneElement, elems := [⟨0, false⟩], hpoison := false, done := true })] }

def oneLane : State := State.reset.setCore 0 oneLaneCore

def oneLanePlan : Plan where
  rows := 1
  slices := 1
  passes := 1
  block := 1
  outCols := 16
  colBase := 0
  cols := 16
  outPort := 0
  drains := true
  keep := false

theorem planOf_oneLane : planOf oneLane 0 = some oneLanePlan := by decide

/-- The row at the sequencer of `oneLane` is there: one lane, of the first and last slice. -/
theorem nextRow_oneLane :
    nextRow oneLane 0 oneLaneStage oneLanePlan = (.lanes [⟨0, false⟩], ⟨0, 0, 0, 16⟩, 0, F32.one) := by
  decide

/-- Bank 0 of array 0 of `oneLane` wants the staged tile, which it does not hold. -/
theorem tile_oneLane : nextSlice (oneLane.core 0) oneLaneStage oneLanePlan 0 = some (0, 0) ∧
    (arraysOf oneLaneStage.arrays).idxOf? 0 = some 0 ∧ bankHolds (oneLane.core 0).arr 0 0 0 0 = false ∧
    (tileFor (oneLane.core 0) oneLaneStage 0 0 0).isSome = true := by
  decide

/-- Its row is held, for no bank has the tile. -/
theorem rowIssue_oneLane : exec (.rowIssue 0 .clean) oneLane =
    .next (oneLane.modCore 0 fun c => { c with arr := { c.arr with held := some .bank } }) := by
  have hclean : rowError oneLane 0 oneLaneStage .clean = oneLane := Arrays.rowError_clean _ _ _
  obtain ⟨-, -, hissue⟩ := (rowIssueTagsOneRow oneLane 0 .clean oneLaneStage (by decide) rfl rfl).2 rfl rfl oneLanePlan
    planOf_oneLane (by decide) (by decide)
  have hthere : (nextRow oneLane 0 oneLaneStage oneLanePlan).1 ≠ .wait := by rw [nextRow_oneLane]; nofun
  have hrow := hissue hthere
  simp only [hclean] at hrow
  obtain ⟨-, hheld, -⟩ := hrow rfl [⟨0, false⟩] true ⟨0, 0, 0, 16⟩ 0 F32.one (.inl ⟨rfl, nextRow_oneLane, by decide⟩)
  exact hheld (by decide)

/-- The load of that tile begins. -/
theorem weightLoadStart_oneLane : Answers (.weightLoadStart 0 0 0 .clean) oneLane fun s' =>
    (tget (s'.core 0).arr.loading 0).isSome = true := by
  obtain ⟨hslice, hrank, hholds, hthere⟩ := tile_oneLane
  obtain ⟨k, hk⟩ := Option.isSome_iff_exists.1 hthere
  obtain ⟨-, hclean, hbegins⟩ := drainAndWeightLoads.2.1 oneLane 0 0 0 .clean oneLaneStage oneLanePlan 0 0 0 (by decide)
    (by decide) (by decide) rfl planOf_oneLane hslice hrank
  simp only [hclean rfl] at hbegins
  obtain ⟨s', hexec, -, hloading, -⟩ := hbegins rfl hholds hthere (by decide) k hk
  refine ⟨s', hexec, ?_⟩
  simp [hloading]

/-! ### Rows in flight, and a snapshot -/

/-- A control row that opens and drains group 1 of array 0. -/
def drainRow : Row :=
  { tag := mkTag 1 true false true false 0 0 1, acts := [], scaleA := F32.one, banks := [], dest := ⟨0, 0, 0, 16⟩ }

/-- A tile of weights with code 0. -/
def zeroTile : Bank := { tile := 0, exps := 0, poison := 0, scaleB := F32.one, run := 0, slice := 0 }

/-- A row of one lane into group 0 of array 0. -/
def productRow : Row :=
  { tag := mkTag 0 false false false true 0 0 1, acts := [⟨0, false⟩], scaleA := F32.one
    banks := [(0, zeroTile)]
    dest := ⟨0, 0, 0, 16⟩ }

/-- Core 0 with one row in flight. -/
def oneRow (row : Row) (groups : Tbl Group) : State :=
  State.reset.setCore 0
    { Core.cleared with arr := { ArrayUnit.cleared with mode := .log8, flight := [row], groups := groups } }

/-- The control row enters and leaves the snapshot of array 0. -/
theorem rowEntry_drainRow : Answers (.rowEntry 0) (oneRow drainRow []) fun s' =>
    (s'.core 0).arr.flight = [] ∧ (s'.core 0).arr.snaps.map (·.array) = [0] := by
  obtain ⟨-, -, henters⟩ := rowEntryUpdatesItsGroups (oneRow drainRow []) 0 drainRow [] (by decide) rfl
  obtain ⟨s', hexec, -, hflight, -, -, -, -, -, -, -, hsnaps⟩ := henters _ rfl rfl
  exact ⟨s', hexec, hflight, (hsnaps (by decide)).1⟩

/-- A group that has taken rows under another scale pair stops the stage on a row of products (03 R121). -/
theorem rowEntry_productRow : Answers (.rowEntry 0)
    (oneRow productRow [(0, { Group.opened with pair := some (F32.posZero, F32.one) })]) fun s' =>
      (s'.core 0).stage.st = .stopped := by
  obtain ⟨-, hstops, -⟩ := rowEntryUpdatesItsGroups
    (oneRow productRow [(0, { Group.opened with pair := some (F32.posZero, F32.one) })]) 0 productRow [] (by decide) rfl
  obtain ⟨s', hexec, -, hst, -⟩ := hstops _ .accScaleMismatch rfl rfl
  exact ⟨s', hexec, hst⟩

/-- A group without rows takes the one lane of the row of products. -/
theorem enterGroup_productRow : ∃ far g, enterGroup .log8 productRow (tget productRow.banks 0) Group.opened = .ok g far ∧
    g.products = 1 := by
  obtain ⟨far, g, hentry, hproducts, -⟩ := groupAddsTheRowsProducts .log8 productRow zeroTile Group.opened (by decide)
    (by decide) (by decide) rfl rfl (.inl rfl) (by decide) rfl
  exact ⟨far, g, hentry, BitVec.eq_of_toNat_eq hproducts⟩

/-- The snapshot of array 0, the last of its DRAIN. -/
def oneSnapshot : Snap :=
  { array := 0, vals := List.replicate 16 A40.zero, longAccum := false, poisoned := false, pair := none
    dest := ⟨0, 0, 0, 16⟩, last := true }

/-- A core whose drain unit has the snapshot of one array to take, into a tensor of 16 elements. -/
def oneSnapCore : Core :=
  { Core.cleared with
    arr := { ArrayUnit.cleared with snaps := [oneSnapshot] }
    out := [(0, { OutPort.empty with outs := [⟨16, 16, 1, 1, 0, 0, false, []⟩] })] }

def oneSnap : State := State.reset.setCore 0 oneSnapCore

theorem drainUnit_oneSnap : Answers (.drainUnit 0) oneSnap fun s' =>
    (s'.core 0).arr.snaps = [] ∧ (s'.core 0).arr.drains = 1 := by
  obtain ⟨-, htakes⟩ := drainAndWeightLoads.1 oneSnap 0 oneSnapshot [] ⟨16, 16, 1, 1, 0, 0, false, []⟩ (by decide) rfl
  obtain ⟨s', hexec, -, hsnaps, -, hdrains, -⟩ := htakes (by decide) rfl
  exact ⟨s', hexec, hsnaps, hdrains⟩

/-! ### A tree node with an element at its only child -/

/-- Node 1, the sum of one child, whose output is child 0 of node 2. -/
def innerNode : TreeRec where
  node := 1
  fanin := 0
  op := 0
  shelf := 0
  fabric := true
  out := 0x22
  children := [0]

/-- Context 0 with node 1, at whose child a tensor of one element has come. -/
def oneChild : State :=
  ({ State.reset with bring := { State.reset.bring with domainOn := BitVec.allOnes 80 } } : State).setCtx 0
    { image := some ⟨1, [], [], [], [innerNode], []⟩
      nodes := [(1, { TreeNode.empty with kids := [(0, { hdrs := [oneElement], vals := [(F32.one, false)] })] })] }

theorem node_oneChild : treeRec (oneChild.ctx 0) 1 = some innerNode ∧ epKind innerNode.out = 2 ∧
    epNode innerNode.out ≠ 1 ∧ rootStream (oneChild.ctx 0) 1 = none ∧
    nodeRuns oneChild (oneChild.ctx 0) innerNode = true ∧ kidLive oneChild 0 64 1 0 = true := by
  decide

/-- The element and its header go up to node 2, and the header leaves node 1 with its last element. -/
theorem treeNode_oneChild : Answers (.treeNode 0 1) oneChild fun s' =>
    (s'.node 0 1).pos = 0 ∧ ((s'.node 0 1).kid 0).hdrs = [] ∧
      ((s'.node 0 2).kid 0).hdrs = [treeHeader [oneElement]] := by
  obtain ⟨htree, hkind, hparent, hroot, hruns, hlive⟩ := node_oneChild
  obtain ⟨-, -, hcombines⟩ := treeNodeCombinesInChildOrder oneChild 0 1 innerNode (by decide) (by decide) htree hkind
    hparent hroot
  obtain ⟨s', hexec, hpos, hkids, hup, -⟩ := hcombines [oneElement] [(F32.one, false)] hruns
    (by simpa [innerNode] using hlive) rfl rfl (by decide)
  refine ⟨s', hexec, hpos, ?_, ?_⟩
  · rw [hkids 0 (by decide)]
    rfl
  · exact congrArg KidQ.hdrs hup

end Sys2Proof.Laws.ArrayExamples
end

section
/-!
PROOF. The tensors and the rows of the window engine (O14): WINDOW_TENSOR, INPUT_ROW_ARRIVAL and HALO_COPY.
-/

open Sys2Proof Sys2Proof.Machine Sys2Proof.Claims Sys2Proof.Laws Sys2Proof.Laws.Windows

namespace Sys2Proof.Laws.WindowRows

/-! ### WINDOW_TENSOR (04 R145 to R149) -/

theorem exec_windowTensor {core : Nat} (hcore : core < nCores) (s : State) :
    exec (.windowTensor core) s = .next (windowTensor s core) :=
  withUnit_of (by simpa using hcore)

/-- The geometry word admits a tensor of this shape. -/
def FitsGeometry (w : WinDesc) (h : THdr) : Prop :=
  h.c = w.inC ∧ h.w ≤ w.maxW ∧ (w.inH = 0 ∨ h.h = w.inH)

/-- The axes on which reflect padding is not in force though the descriptor asks for it. -/
def shortAxes (w : WinDesc) (h : THdr) : Nat :=
  (if padInForce w.padMode w.padTop w.padBottom h.h ≠ w.padMode then 1 else 0) +
    (if padInForce w.padMode w.padLeft w.padRight h.w ≠ w.padMode then 1 else 0)

/-- A tensor just opened: its output size, the padding in force on each axis, and no row met. -/
def openedTensor (w : WinDesc) (h : THdr) : WinTensor where
  hdr := h
  oh := (w.outH h.h).toNat
  ow := (w.outW h.w).toNat
  padV := padInForce w.padMode w.padTop w.padBottom h.h
  padH := padInForce w.padMode w.padLeft w.padRight h.w
  nextRow := 0
  nextHalo := 0
  counted := 0
  issued := false

/-- The state in which the window engine of a core has opened a tensor. -/
def withTensor (s : State) (core : Nat) (w : WinDesc) (h : THdr) : State :=
  s.modCore core fun c => { c with win := { c.win with
    cur := some (openedTensor w h)
    padReflectShorts := c.win.padReflectShorts + BitVec.ofNat 32 (shortAxes w h) } }

theorem core_withTensor (s : State) (core : Nat) (w : WinDesc) (h : THdr) :
    (withTensor s core w h).core core = { s.core core with win := { (s.core core).win with
      cur := some (openedTensor w h)
      padReflectShorts := (s.core core).win.padReflectShorts + BitVec.ofNat 32 (shortAxes w h) } } :=
  core_modCore_self _ _ _

theorem beginPasses_keeps (s : State) (core : Nat) (r : StageRec) (h : THdr) (rows w hgt : Nat) (fl : BitVec 8)
    (hpoison : Bool) :
    let s' := beginPasses s core r h rows w hgt fl hpoison
    CoresBut core s s' ∧ (s'.core core).win = (s.core core).win ∧ (s'.core core).arr = (s.core core).arr ∧
      (s'.core core).stage = (s.core core).stage :=
  foldl_beginOut core _ _ s

section
variable {s : State} {core : Nat} {r : StageRec} {h : THdr}
  (hinfo : (s.core core).stage.info = some r) (hhdr : ((s.core core).inPort 0).hdr = some h)
  (hwindow : r.isWindow = true) (hidle : (s.core core).win.cur = none) (hst : (s.core core).stage.st = .running)
  (hh : h.h ≠ 0) (hw : h.w ≠ 0)
include hinfo hhdr hwindow hidle hst hh hw

theorem windowTensor_stops (hfits : ¬ FitsGeometry (WinDesc.parse r.param) h) :
    windowTensor s core = stopStage s core .windowGeometry 0 := by
  simp only [windowTensor, hinfo, hhdr, hwindow, hidle, hst]
  by_cases hc : h.c = (WinDesc.parse r.param).inC
  · have hsize : h.w > (WinDesc.parse r.param).maxW ∨
        ((WinDesc.parse r.param).inH ≠ 0 ∧ h.h ≠ (WinDesc.parse r.param).inH) := by
      simp only [FitsGeometry, hc, true_and] at hfits
      omega
    simp [hc, hh, hw, hsize]
  · simp [hc]

theorem windowTensor_opens (hfits : FitsGeometry (WinDesc.parse r.param) h)
    (hoh : 0 < (WinDesc.parse r.param).outH h.h) (how : 0 < (WinDesc.parse r.param).outW h.w) :
    windowTensor s core =
      let w := WinDesc.parse r.param
      let t := openedTensor w h
      let rows := (myRows (s.core core).stage r t.oh).2 - (myRows (s.core core).stage r t.oh).1
      beginPasses (withTensor s core w h) core r h (rows * t.ow) t.ow rows
        (if shortAxes w h > 0 then flagPadShort else 0) ((s.core core).inPort 0).hpoison := by
  obtain ⟨hc, hmaxW, hinH⟩ := hfits
  have hsize : ¬ (h.w > (WinDesc.parse r.param).maxW ∨
      ((WinDesc.parse r.param).inH ≠ 0 ∧ h.h ≠ (WinDesc.parse r.param).inH)) := by omega
  have hout : ¬ ((WinDesc.parse r.param).outH h.h ≤ 0 ∨ (WinDesc.parse r.param).outW h.w ≤ 0) := by omega
  simp only [windowTensor, hinfo, hhdr, hwindow, hidle, hst, hc, hh, hw, decide_false, Bool.or_false]
  rw [if_neg (by simp), if_neg (by simp), if_neg (by simpa using hsize), if_neg (by simpa using hout)]
  rfl

end

/-! ### INPUT_ROW_ARRIVAL (04 R154 to R156) -/

theorem exec_inputRowArrival {core : Nat} (hcore : core < nCores) (s : State) :
    exec (.inputRowArrival core) s = .next (inputRowArrival s core) :=
  withUnit_of (by simpa using hcore)

/-- The tensor once its next row has been met. -/
def rowMet (t : WinTensor) : WinTensor :=
  { t with nextRow := t.nextRow + 1, counted := max t.counted (t.nextRow + 1) }

/-- Some window of the stripe needs input row `x`. -/
def needsRow (c : Core) (r : StageRec) (t : WinTensor) (x : Nat) : Bool :=
  (WinDesc.parse r.param).rowNeeded (t.padV = 2) t.hdr.h (myRows c.stage r t.oh).1 (myRows c.stage r t.oh).2 x

/-- Some window of the running column tile needs input column `y`. -/
def needsCol (c : Core) (r : StageRec) (t : WinTensor) (y : Nat) : Bool :=
  let w := WinDesc.parse r.param
  let span := tileSpan w t.ow c.stage.seq.tile
  w.colNeeded (t.padH = 2) t.hdr.w span.1 span.2 y

/-- What the line buffers keep of the next row, input row `x`. -/
def storedRow (c : Core) (r : StageRec) (t : WinTensor) (x : Nat) : LineRow where
  cols := ((List.range t.hdr.w).filter (needsCol c r t)).map fun y =>
    (y, lanes (zeroCode (actFmt c.arr.mode)) (c.inPort 0).elems (t.nextRow * t.hdr.w * t.hdr.c + y * t.hdr.c) t.hdr.c)
  count := if belowNeeds c.stage r (WinDesc.parse r.param) t x then 2 else 1
  ownerDone := false
  halo := false

theorem tget_storedRow_cols (c : Core) (r : StageRec) (t : WinTensor) (x : Nat) {y : Nat} (hy : y < t.hdr.w) :
    tget (storedRow c r t x).cols y = if needsCol c r t y
      then some (lanes (zeroCode (actFmt c.arr.mode)) (c.inPort 0).elems
        (t.nextRow * t.hdr.w * t.hdr.c + y * t.hdr.c) t.hdr.c)
      else none := by
  rw [storedRow, tget_map_pair]
  simp [hy]

/-- The columns of the next row that no window of the stripe needs, counted when the row is met first. -/
def columnsSkipped (r : StageRec) (t : WinTensor) : BitVec 48 :=
  BitVec.ofNat 48 (if t.counted ≤ t.nextRow then ((List.range t.hdr.w).filter fun y =>
    !(WinDesc.parse r.param).colNeeded (t.padH = 2) t.hdr.w 0 t.ow y).length else 0)

section
variable {s : State} {core : Nat} {r : StageRec} {t : WinTensor} {x : Nat}
  (hinfo : (s.core core).stage.info = some r) (hcur : (s.core core).win.cur = some t) (hopen : t.issued = false)
  (hnext : (arrivingRows (s.core core).stage r (WinDesc.parse r.param) t)[t.nextRow]? = some x)
  (hwhole : t.nextRow * t.hdr.w * t.hdr.c + t.hdr.w * t.hdr.c ≤ ((s.core core).inPort 0).elems.length)
include hinfo hcur hopen hnext hwhole

theorem inputRowArrival_drops (hneeded : needsRow (s.core core) r t x = false) :
    inputRowArrival s core = s.modCore core fun c => { c with win := { c.win with
      cur := some (rowMet t), skippedRows := c.win.skippedRows + (if t.counted ≤ t.nextRow then 1 else 0) } } := by
  unfold needsRow at hneeded
  have hmet : inputRowArrival s core = endWindow (s.modCore core fun c => { c with win := { c.win with
      cur := some (rowMet t)
      skippedRows := c.win.skippedRows + (if t.counted ≤ t.nextRow then 1 else 0) } }) core := by
    simp [inputRowArrival, hinfo, hcur, hopen, hnext, Nat.not_lt.2 hwhole, hneeded, rowMet]
  rw [hmet]
  exact endWindow_open (t := rowMet t) (by rw [core_modCore_self]) hopen

variable (hneeded : needsRow (s.core core) r t x = true) (htaps : (WinDesc.parse r.param).oneTap = false)
include hneeded htaps

theorem inputRowArrival_waits (hfull : slotsFree (s.core core) r (WinDesc.parse r.param) t = 0) :
    inputRowArrival s core = s := by
  unfold needsRow at hneeded
  simp [inputRowArrival, hinfo, hcur, hopen, hnext, Nat.not_lt.2 hwhole, hneeded, htaps, hfull]

theorem inputRowArrival_stores (hfree : slotsFree (s.core core) r (WinDesc.parse r.param) t ≠ 0) :
    inputRowArrival s core = s.modCore core fun c => { c with win := { c.win with
      cur := some (rowMet t)
      lines := tset c.win.lines (lineKey (s.core core).stage.seq x) (storedRow (s.core core) r t x)
      skippedColumns := c.win.skippedColumns + columnsSkipped r t } } := by
  unfold needsRow at hneeded
  simp only [inputRowArrival, hinfo, hcur, hopen, hnext, Nat.not_lt.2 hwhole, hneeded, htaps, hfree, Bool.false_eq_true,
    if_false, Bool.not_true, Bool.or_false, ge_iff_le, decide_eq_true_eq, rowMet]
  exact modCore_congr rfl

end

/-! ### HALO_COPY (04 R161, R162) -/

theorem exec_haloCopy {core : Nat} (hcore : core < nCores) (e : Ecc) (s : State) :
    exec (.haloCopy core e) s = .next (haloCopy s core e) :=
  withUnit_of (by simpa using hcore)

/-- The line buffers of a row's owner once a neighbour has copied the row. -/
def countDropped (key : Nat) (l : LineRow) (ls : Tbl LineRow) : Tbl LineRow :=
  if l.count ≤ 1 then terase ls key else tset ls key { l with count := l.count - 1 }

theorem tget_countDropped_other (l : LineRow) (ls : Tbl LineRow) {key y : Nat} (hy : y ≠ key) :
    tget (countDropped key l ls) y = tget ls y := by
  unfold countDropped
  split
  · exact tget_terase_other _ _ _ hy
  · exact tget_tset_other _ _ _ _ hy

/-- A core takes the row that its neighbour `up` holds as `l` under `key`. -/
def rowCopied (s : State) (core up key : Nat) (l : LineRow) : State :=
  (s.modCore core fun c => { c with win := { c.win with
    lines := tset c.win.lines key ⟨l.cols, 1, false, true⟩
    cur := c.win.cur.map fun t => { t with nextHalo := t.nextHalo + 1 }
    haloCopies := c.win.haloCopies + 1 } }).modCore up fun u => { u with win := { u.win with
      lines := countDropped key l u.win.lines } }

theorem win_rowCopied_self (s : State) {core up : Nat} (key : Nat) (l : LineRow) (hup : up ≠ core) :
    ((rowCopied s core up key l).core core).win = { (s.core core).win with
      lines := tset (s.core core).win.lines key ⟨l.cols, 1, false, true⟩
      cur := (s.core core).win.cur.map fun t => { t with nextHalo := t.nextHalo + 1 }
      haloCopies := (s.core core).win.haloCopies + 1 } := by
  simp [rowCopied, hup.symm]

theorem lines_rowCopied_owner (s : State) {core up : Nat} (key : Nat) (l : LineRow) (hup : up ≠ core) :
    ((rowCopied s core up key l).core up).win.lines = countDropped key l (s.core up).win.lines := by
  simp [rowCopied, hup]

theorem core_rowCopied_other (s : State) {core up k : Nat} (key : Nat) (l : LineRow) (hk : k ≠ core) (hk' : k ≠ up) :
    (rowCopied s core up key l).core k = s.core k := by
  simp [rowCopied, hk, hk']

section
variable {s : State} {core up key : Nat} {r : StageRec}
  (hinfo : (s.core core).stage.info = some r) (hnext : nextHalo s core = some (up, key))
include hinfo hnext

theorem haloCopy_waits (h : tget (s.core up).win.lines key = none ∨ coreOn s core = false ∨ coreOn s up = false ∨
    lineSlots (WinDesc.parse r.param) ≤ (s.core core).win.lines.length) (e : Ecc) : haloCopy s core e = s := by
  simp only [haloCopy, hinfo, hnext]
  cases hline : tget (s.core up).win.lines key with
  | none => rfl
  | some l =>
    refine if_pos ?_
    obtain h | h | h | h := h
    · cases hline.symm.trans h
    all_goals simp [h]

theorem haloCopy_copies {l : LineRow} (hline : tget (s.core up).win.lines key = some l)
    (hfree : (s.core core).win.lines.length < lineSlots (WinDesc.parse r.param)) (hon : coreOn s core = true)
    (hup : coreOn s up = true) (e : Ecc) :
    haloCopy s core e =
      let s1 := lineError s up key ((l.cols.map (·.1)).headD 0) e
      rowCopied s1 core up key (tgetD (s1.core up).win.lines key l) := by
  simp [haloCopy, hinfo, hnext, hline, Nat.not_le.2 hfree, hon, hup, rowCopied, countDropped]

end

end Sys2Proof.Laws.WindowRows
namespace Sys2Proof.Claims

open Sys2Proof.Laws.WindowRows in
/-- Settles O14. A tensor that fits is opened by `windowTensor_opens`, and the outputs that then begin leave the window
engine alone; a row that is needed is stored by `inputRowArrival_stores`, one that is not leaves the tensor open, so
`endWindow` does nothing; a halo row is copied by `haloCopy_copies`, two updates of different cores. That a descriptor
with reflect padding has slots for its padded edges too is log entry 49. -/
theorem windowsTakeTensorsAndRows : Obligations.WindowsTakeTensorsAndRows := by
  unfold Obligations.WindowsTakeTensorsAndRows
  refine ⟨fun s core r h hcore hinfo hhdr hwindow hidle hst => ?_, fun s core r t x hcore hinfo hcur hopen => ?_,
    fun s core up key r e l hcore hinfo hnext hup => ?_⟩
  · intro w fits pv ph hh hw
    refine ⟨fun hfits => ?_, fun hfits hoh how => ⟨_, exec_windowTensor hcore s, ?_⟩⟩
    · rw [exec_windowTensor hcore, windowTensor_stops hinfo hhdr hwindow hidle hst hh hw hfits]
    · rw [windowTensor_opens hinfo hhdr hwindow hidle hst hh hw hfits hoh how]
      have hopened := core_withTensor s core w h
      obtain ⟨hbut, hwin, harr, hstage⟩ := beginPasses_keeps (withTensor s core w h) core r h _ _ _ _ _
      rw [hopened] at hwin harr hstage
      exact ⟨fun k hk => (hbut k hk).trans (core_modCore_other _ _ _ _ hk), harr, hstage, congrArg WindowUnit.cur hwin,
        congrArg WindowUnit.padReflectShorts hwin⟩
  · intro w c base hnext hwhole needed met
    refine ⟨fun hneeded => ?_, fun hneeded htaps hfull => ?_, fun hneeded htaps hfree => ?_⟩
    · rw [exec_inputRowArrival hcore, inputRowArrival_drops hinfo hcur hopen hnext hwhole hneeded]
      rfl
    · rw [exec_inputRowArrival hcore, inputRowArrival_waits hinfo hcur hopen hnext hwhole hneeded htaps hfull]
    · refine ⟨_, exec_inputRowArrival hcore s, ?_⟩
      rw [inputRowArrival_stores hinfo hcur hopen hnext hwhole hneeded htaps hfree]
      simp only [core_modCore_self]
      exact ⟨coresBut_modCore _ _ _, rfl, rfl, rfl, fun y hy => tget_tset_other _ _ _ _ hy, storedRow c r t x,
        tget_tset_self _ _ _, rfl, rfl, rfl, fun y hy => tget_storedRow_cols c r t x hy⟩
  · have hexec := exec_haloCopy hcore e s
    have hwaits := fun h => hexec.trans (congrArg _ (haloCopy_waits hinfo hnext h e))
    refine ⟨fun hline => hwaits (.inl hline), fun hoff => hwaits (.inr (hoff.imp_right .inl)),
      fun _ hfull => hwaits (.inr (.inr (.inr hfull))), fun hline hfree hon honUp => ?_⟩
    intro s1 l1
    refine ⟨fun he => lineError_cores s up key _ e he, _, hexec, ?_⟩
    rw [haloCopy_copies hinfo hnext hline hfree hon honUp e]
    have hwin := win_rowCopied_self s1 key l1 hup
    have howner := lines_rowCopied_owner s1 key l1 hup
    have hlines := congrArg WindowUnit.lines hwin
    refine ⟨fun k hk hk' => core_rowCopied_other s1 key l1 hk hk', ?_, congrArg WindowUnit.haloCopies hwin,
      congrArg WindowUnit.cur hwin, fun hlast => howner.trans (if_pos hlast), fun hmore => ?_, fun y hy => ⟨?_, ?_⟩⟩
    · exact (congrArg (tget · key) hlines).trans (tget_tset_self _ _ _)
    · have hcount : ¬ l1.count ≤ 1 := by omega
      exact (congrArg (tget · key) (howner.trans (if_neg hcount))).trans (tget_tset_self _ _ _)
    · exact (congrArg (tget · y) hlines).trans (tget_tset_other _ _ _ _ hy)
    · exact (congrArg (tget · y) howner).trans (tget_countDropped_other _ _ hy)

end Sys2Proof.Claims
end

section
/-!
PROOF. Global average pooling and box decoding (O15): POOL_POSITION and BOX_DECODE.
-/

open Sys2Proof Sys2Proof.Machine Sys2Proof.Claims Sys2Proof.Laws

namespace Sys2Proof.Laws.Pooling

/-! ### POOL_POSITION (04 R164, R165) -/

theorem exec_poolPosition {core : Nat} (hcore : core < nCores) (s : State) :
    exec (.poolPosition core) s = .next (poolPosition s core) :=
  withUnit_of (by simpa using hcore)

/-- The positions of a tensor. -/
def positions (h : THdr) : Nat := h.h * h.w

/-- The channel group that a pooling unit is at. -/
def group (c : Core) (h : THdr) : Nat := c.win.poolTaken / positions h

/-- The position of that group that it takes next. -/
def position (c : Core) (h : THdr) : Nat := c.win.poolTaken % positions h

/-- The channels of that group. -/
def groupWidth (c : Core) (h : THdr) : Nat := min 128 (h.c - 128 * group c h)

/-- The element of the input at which they stand. -/
def groupStart (c : Core) (h : THdr) : Nat := position c h * h.c + 128 * group c h

def groupElems (c : Core) (h : THdr) : List Elem :=
  ((c.inPort 0).elems.drop (groupStart c h)).take (groupWidth c h)

/-- The sums of a group with one position more. -/
def sumsWith (es : List Elem) (acc : List A40) : List A40 :=
  (acc.zip es).map fun q =>
    if q.2.poison || A40.isNaN q.1 || F32.isNaN (q.2.code.setWidth 32) then A40.nan
    else A40.addTo .nearestEven q.1 (F32.val (q.2.code.setWidth 32))

/-- The poison of a group's sums with one position more. -/
def poisonWith (es : List Elem) (bad : List Bool) : List Bool := (bad.zip es).map fun q => q.1 || q.2.poison

/-- The sums once the position at hand is added; the first of a group opens them at zero. -/
def nextSums (c : Core) (h : THdr) : List A40 :=
  sumsWith (groupElems c h) (if position c h = 0 then List.replicate (groupWidth c h) A40.zero else c.win.pool)

def nextPoison (c : Core) (h : THdr) : List Bool :=
  poisonWith (groupElems c h) (if position c h = 0 then List.replicate (groupWidth c h) false else c.win.poolPoison)

/-- The position at hand is the last of its group. -/
def endsGroup (c : Core) (h : THdr) : Bool := position c h + 1 = positions h

/-- It is the last of the tensor. -/
def endsTensor (c : Core) (h : THdr) : Bool :=
  endsGroup c h && 128 * group c h + groupWidth c h = h.c

/-- The tensor of means begins with the first position. -/
def meansBegun (s : State) (core : Nat) (h : THdr) : State :=
  if (s.core core).win.poolTaken = 0 then
    beginOut s core 0 ⟨h.c, h.c, 1, 1, h.sample, flagShaped ||| (if positions h > 2 ^ 23 then flagLongAccum else 0),
      ((s.core core).inPort 0).hpoison, []⟩
  else s

/-- The unit once the position at hand is in its sums. -/
def positionAdded (s : State) (core : Nat) (h : THdr) : State :=
  (meansBegun s core h).modCore core fun k => { k with
    win := { k.win with
      pool := nextSums (s.core core) h
      poolPoison := nextPoison (s.core core) h
      poolTaken := if endsTensor (s.core core) h then 0 else k.win.poolTaken + 1 }
    arr := { k.arr with longAccumDrains :=
      k.arr.longAccumDrains + (if endsTensor (s.core core) h && positions h > 2 ^ 23 then 1 else 0) } }

/-- The last position of a group puts the means of its channels. -/
def meansPut (s : State) (core : Nat) (h : THdr) : State :=
  let s2 := positionAdded s core h
  if endsGroup (s.core core) h then
    putVals s2 core 0 (nextOutSeq (s2.core core) 0 - 1) (128 * group (s.core core) h)
      (((nextSums (s.core core) h).zip (nextPoison (s.core core) h)).map fun q =>
        poolMean h.scale (F32.div F32.one (F32.ofNat (positions h))) q.1 q.2)
  else s2

/-- The last position of a tensor lets the input go. -/
def positionTaken (s : State) (core : Nat) (h : THdr) : State :=
  if endsTensor (s.core core) h then releaseIn (meansPut s core h) core 0 else meansPut s core h

/-- The empty tensor that a tensor of no elements gives. -/
def emptyPooled (s : State) (core : Nat) (h : THdr) : State :=
  passEmpty (s.modCore core fun k => { k with win := { k.win with convEmptyTensors := k.win.convEmptyTensors + 1 } })
    core h flagConvEmpty ((s.core core).inPort 0).hpoison [0] (0, 0, 0)

section
variable {s : State} {core : Nat} {r : StageRec} {h : THdr}
  (hinfo : (s.core core).stage.info = some r) (hhdr : ((s.core core).inPort 0).hdr = some h)
include hinfo hhdr

theorem poolPosition_eq : poolPosition s core =
    if r.opclass ≠ 2 || (s.core core).stage.st ≠ .running || outputFull s core then s
    else if positions h > 2 ^ 32 - 1 then stopStage s core .poolLength 0
    else if positions h = 0 || h.c = 0 then
      if !((s.core core).inPort 0).done then s else emptyPooled s core h
    else if ((s.core core).inPort 0).elems.length < groupStart (s.core core) h + groupWidth (s.core core) h then s
    else positionTaken s core h := by
  simp only [poolPosition, hinfo, hhdr]
  rfl

theorem poolPosition_waits (hwaits : r.opclass ≠ 2 ∨ (s.core core).stage.st ≠ .running ∨ outputFull s core = true ∨
    (positions h ≤ 2 ^ 32 - 1 ∧ positions h ≠ 0 ∧ h.c ≠ 0 ∧ ((s.core core).inPort 0).elems.length <
      groupStart (s.core core) h + groupWidth (s.core core) h) ∨
    (positions h ≤ 2 ^ 32 - 1 ∧ (positions h = 0 ∨ h.c = 0) ∧ ((s.core core).inPort 0).done = false)) :
    poolPosition s core = s := by
  rw [poolPosition_eq hinfo hhdr]
  obtain hunit | hunit | hunit | ⟨hlen, hn, hc, hshort⟩ | ⟨hlen, hnone, hdone⟩ := hwaits
  iterate 3 exact if_pos (by simp [hunit])
  · refine ite_eq_left_iff.2 fun _ => ?_
    rw [if_neg (Nat.not_lt.2 hlen), if_neg (by simp [hn, hc]), if_pos hshort]
  · refine ite_eq_left_iff.2 fun _ => ?_
    rw [if_neg (Nat.not_lt.2 hlen), if_pos (by simpa using hnone), if_pos (by simp [hdone])]

variable (hclass : r.opclass = 2) (hst : (s.core core).stage.st = .running) (hroom : outputFull s core = false)
include hclass hst hroom

theorem poolPosition_stops (hlen : 2 ^ 32 - 1 < positions h) :
    poolPosition s core = stopStage s core .poolLength 0 := by
  rw [poolPosition_eq hinfo hhdr, if_neg (by simp [hclass, hst, hroom]), if_pos hlen]

variable (hlen : positions h ≤ 2 ^ 32 - 1)
include hlen

theorem poolPosition_empty (hnone : positions h = 0 ∨ h.c = 0) (hdone : ((s.core core).inPort 0).done = true) :
    poolPosition s core = emptyPooled s core h := by
  rw [poolPosition_eq hinfo hhdr, if_neg (by simp [hclass, hst, hroom]), if_neg (Nat.not_lt.2 hlen),
    if_pos (by simpa using hnone), if_neg (by simp [hdone])]

theorem poolPosition_takes (hn : positions h ≠ 0) (hc : h.c ≠ 0)
    (hthere : groupStart (s.core core) h + groupWidth (s.core core) h ≤ ((s.core core).inPort 0).elems.length) :
    poolPosition s core = positionTaken s core h := by
  rw [poolPosition_eq hinfo hhdr, if_neg (by simp [hclass, hst, hroom]), if_neg (Nat.not_lt.2 hlen),
    if_neg (by simp [hn, hc]), if_neg (Nat.not_lt.2 hthere)]

end

/-- A position between the first and the last of its group only adds to the sums. -/
theorem positionTaken_between {s : State} {core : Nat} {h : THdr} (hfirst : 0 < position (s.core core) h)
    (hlast : position (s.core core) h + 1 < positions h) :
    positionTaken s core h = s.modCore core fun k => { k with win := { k.win with
      poolTaken := k.win.poolTaken + 1
      pool := sumsWith (groupElems (s.core core) h) k.win.pool
      poolPoison := poisonWith (groupElems (s.core core) h) k.win.poolPoison } } := by
  have htaken : (s.core core).win.poolTaken ≠ 0 := by
    intro h0
    simp [position, h0] at hfirst
  have hgroup : endsGroup (s.core core) h = false := decide_eq_false hlast.ne
  have hends : endsTensor (s.core core) h = false := by rw [endsTensor, hgroup, Bool.false_and]
  rw [positionTaken, hends, if_neg Bool.false_ne_true, meansPut, hgroup, if_neg Bool.false_ne_true, positionAdded,
    meansBegun, if_neg htaken]
  exact modCore_congr (by simp [hends, nextSums, nextPoison, hfirst.ne'])

/-! ### BOX_DECODE (04 R166, R167; log entry 14 for the input rows) -/

theorem exec_boxDecode {core : Nat} (hcore : core < nCores) (s : State) :
    exec (.boxDecode core) s = .next (boxDecode s core) :=
  withUnit_of (by simpa using hcore)

/-- The elements of the candidate at hand. -/
def boxElems (c : Core) (h : THdr) : List Elem := ((c.inPort 0).elems.drop (c.win.boxes * h.c)).take h.c

/-- Value `k` of the candidate at hand. -/
def boxValue (c : Core) (h : THdr) (k : Nat) : F32 :=
  (((boxElems c h)[k]?).map fun e : Elem => (e.code.setWidth 32 : F32)).getD F32.posZero

/-- The address of its anchor. -/
def anchorAt (s : State) (core : Nat) (r : StageRec) : Nat :=
  carrelWindow core + postAnchors r.param + 16 * (s.core core).win.boxes

/-- Its corners. -/
def boxCorners (s : State) (core : Nat) (r : StageRec) (h : THdr) : List F32 :=
  decodeBox r.param (boxValue (s.core core) h) fun k =>
    BitVec.ofNat 32 (s.mem.mem.readNat (anchorAt s core r + 4 * k) 4)

/-- One of its values or its anchor is poisoned. -/
def boxPoison (s : State) (core : Nat) (r : StageRec) (h : THdr) : Bool :=
  (boxElems (s.core core) h).any (·.poison) || (!postFmt r.param && s.mem.mem.poisonedRange (anchorAt s core r) 16)

/-- The candidate at hand has been read. -/
def boxTaken (s : State) (core : Nat) : State :=
  s.modCore core fun k => { k with win := { k.win with boxes := (s.core core).win.boxes + 1 } }

/-- The tensor of corners begins with the first candidate. -/
def cornersBegun (s : State) (core : Nat) (h : THdr) : State :=
  if (s.core core).win.boxes = 0 then
    beginOut (boxTaken s core) core 0 ⟨4 * (h.length / h.c), 4, h.length / h.c, 1, h.sample, flagShaped,
      ((s.core core).inPort 0).hpoison, []⟩
  else boxTaken s core

/-- The corners stand behind those of the candidate before, NaN where they are poisoned. -/
def cornersPut (s : State) (core : Nat) (r : StageRec) (h : THdr) : State :=
  let s2 := cornersBegun s core h
  putVals s2 core 0 (nextOutSeq (s2.core core) 0 - 1) (4 * (s.core core).win.boxes)
    ((boxCorners s core r h).map fun x =>
      oval (if boxPoison s core r h then F32.nan else x) (boxPoison s core r h))

/-- A candidate of a decoding stage: the last lets the input go. -/
def boxDecoded (s : State) (core : Nat) (r : StageRec) (h : THdr) : State :=
  if (s.core core).win.boxes + 1 = h.length / h.c then
    releaseIn ((cornersPut s core r h).modCore core fun k => { k with win := { k.win with boxes := 0 } }) core 0
  else cornersPut s core r h

/-- The record of a candidate of a fused stage, an infinity clamped. -/
def fusedRecord (s : State) (core : Nat) (r : StageRec) (h : THdr) : Elem :=
  ⟨candRecord ((boxCorners s core r h).map fun x => if F32.isInf x then F32.maxFinite (F32.sign x) else x)
      (if h.c > 4 then boxValue (s.core core) h 4 else F32.posZero)
      (if h.c > 5 then classOf (boxValue (s.core core) h 5) else 0),
    boxPoison s core r h⟩

/-- A candidate of a fused stage: an infinity counts where the candidate is not poisoned. -/
def boxKept (s : State) (core : Nat) (r : StageRec) (h : THdr) : State :=
  (if !boxPoison s core r h && (boxCorners s core r h).any F32.isInf then (boxTaken s core).modEp core 4 EpCtr.addSat
    else boxTaken s core).modCore core fun k => { k with win := { k.win with
      decoded := k.win.decoded ++ [fusedRecord s core r h] } }

section
variable {s : State} {core : Nat} {r : StageRec} (hinfo : (s.core core).stage.info = some r)
include hinfo

theorem boxDecode_idle (hidle : r.opclass ≠ 3 ∨ postOp r.param = 1 ∨ (s.core core).stage.st ≠ .running ∨
    outputFull s core = true ∨ ((s.core core).inPort 0).hdr = none) : boxDecode s core = s := by
  simp only [boxDecode, hinfo]
  cases hhdr : ((s.core core).inPort 0).hdr with
  | none => rfl
  | some h => exact if_pos (by simpa [hhdr, or_assoc] using hidle)

variable {h : THdr} (hhdr : ((s.core core).inPort 0).hdr = some h)
include hhdr

theorem boxDecode_eq : boxDecode s core =
    if r.opclass ≠ 3 || postOp r.param = 1 || (s.core core).stage.st ≠ .running || outputFull s core then s
    else if h.length = 0 then passEmpty s core h 0 ((s.core core).inPort 0).hpoison [0] (4, 0, 1)
    else if h.c < 4 then stopStage s core .tensorLength 0
    else if (s.core core).win.boxes ≥ h.length / h.c ||
      ((s.core core).inPort 0).elems.length < ((s.core core).win.boxes + 1) * h.c then s
    else if postOp r.param = 0 then boxDecoded s core r h
    else boxKept s core r h := by
  simp only [boxDecode, hinfo, hhdr]
  rfl

variable (hclass : r.opclass = 3) (hop : postOp r.param ≠ 1) (hst : (s.core core).stage.st = .running)
  (hroom : outputFull s core = false)
include hclass hop hst hroom

theorem boxDecode_empty (hlength : h.length = 0) :
    boxDecode s core = passEmpty s core h 0 ((s.core core).inPort 0).hpoison [0] (4, 0, 1) := by
  rw [boxDecode_eq hinfo hhdr, if_neg (by simp [hclass, hop, hst, hroom]), if_pos hlength]

variable (hlength : h.length ≠ 0)
include hlength

theorem boxDecode_stops (hc : h.c < 4) : boxDecode s core = stopStage s core .tensorLength 0 := by
  rw [boxDecode_eq hinfo hhdr, if_neg (by simp [hclass, hop, hst, hroom]), if_neg hlength, if_pos hc]

variable (hc : 4 ≤ h.c)
include hc

theorem boxDecode_waits (hwaits : h.length / h.c ≤ (s.core core).win.boxes ∨
    ((s.core core).inPort 0).elems.length < ((s.core core).win.boxes + 1) * h.c) : boxDecode s core = s := by
  rw [boxDecode_eq hinfo hhdr, if_neg (by simp [hclass, hop, hst, hroom]), if_neg hlength, if_neg (Nat.not_lt.2 hc),
    if_pos (by simpa using hwaits)]

theorem boxDecode_takes (hmore : (s.core core).win.boxes < h.length / h.c)
    (hthere : ((s.core core).win.boxes + 1) * h.c ≤ ((s.core core).inPort 0).elems.length) :
    boxDecode s core = if postOp r.param = 0 then boxDecoded s core r h else boxKept s core r h := by
  rw [boxDecode_eq hinfo hhdr, if_neg (by simp [hclass, hop, hst, hroom]), if_neg hlength, if_neg (Nat.not_lt.2 hc),
    if_neg (by simp [hmore, hthere])]

end

/-- A candidate between the first and the last of a tensor only puts its corners. -/
theorem boxDecoded_between {s : State} {core : Nat} {h : THdr} (r : StageRec) (hfirst : 0 < (s.core core).win.boxes)
    (hlast : (s.core core).win.boxes + 1 < h.length / h.c) :
    boxDecoded s core r h = putVals (boxTaken s core) core 0 (nextOutSeq (s.core core) 0 - 1)
      (4 * (s.core core).win.boxes) ((boxCorners s core r h).map fun x =>
        oval (if boxPoison s core r h then F32.nan else x) (boxPoison s core r h)) := by
  have hbegun : cornersBegun s core h = boxTaken s core := if_neg hfirst.ne'
  have hseq : nextOutSeq ((boxTaken s core).core core) 0 = nextOutSeq (s.core core) 0 := by
    rw [boxTaken, core_modCore_self]
    rfl
  rw [boxDecoded, if_neg hlast.ne, cornersPut, hbegun, hseq]

theorem boxKept_plain {s : State} {core : Nat} {r : StageRec} {h : THdr}
    (hplain : boxPoison s core r h = true ∨ (boxCorners s core r h).all (fun x => !F32.isInf x) = true) :
    boxKept s core r h = s.modCore core fun k => { k with win := { k.win with
      boxes := (s.core core).win.boxes + 1, decoded := k.win.decoded ++ [fusedRecord s core r h] } } := by
  have hcounts : (!boxPoison s core r h && (boxCorners s core r h).any F32.isInf) = false := by
    obtain hpoison | hfinite := hplain
    · rw [hpoison, Bool.not_true, Bool.false_and]
    · have hnone : (boxCorners s core r h).any F32.isInf = false := by simpa using hfinite
      rw [hnone, Bool.and_false]
  rw [boxKept, hcounts, if_neg Bool.false_ne_true, boxTaken, modCore_modCore]

theorem boxKept_saturates {s : State} {core : Nat} {r : StageRec} {h : THdr} (hclean : boxPoison s core r h = false)
    (hinf : (boxCorners s core r h).any F32.isInf = true) :
    boxKept s core r h = ((boxTaken s core).modEp core 4 EpCtr.addSat).modCore core fun k => { k with win :=
      { k.win with decoded := k.win.decoded ++ [fusedRecord s core r h] } } := by
  rw [boxKept, hclean, hinf, Bool.not_false, Bool.true_and, if_pos rfl]

end Sys2Proof.Laws.Pooling

namespace Sys2Proof.Claims

open Sys2Proof.Laws.Pooling in
/-- Settles O15. A position is `positionTaken`, which between the first and the last of a group only adds to the sums
(`positionTaken_between`); a candidate is `boxDecoded` or, of a fused stage, `boxKept`. That a decode takes rows of H×W
candidates is log entry 14, and the shape of an empty tensor of means or corners log entry 64. -/
theorem poolingAndBoxes : Obligations.PoolingAndBoxes := by
  unfold Obligations.PoolingAndBoxes
  refine ⟨fun s core r h hcore hinfo hhdr hclass hst hroom => ?_, fun s core r h hcore hinfo hhdr hwaits => ?_,
    fun s core r h hcore hinfo hhdr hclass hst hroom hlength hc => ?_,
    fun s core r h hcore hinfo hhdr hclass hop hst hroom => ?_, fun s core r hcore hinfo hidle => ?_⟩
  · intro c n g i w es add mark
    have hexec := exec_poolPosition hcore s
    refine ⟨fun hlen => ?_, fun hnone hlen hdone => ?_, fun hlen hc hfirst hlast hthere => ?_,
      fun hlen hn hc _ hthere => ?_⟩
    · exact hexec.trans (congrArg _ (poolPosition_stops hinfo hhdr hclass hst hroom hlen))
    · exact hexec.trans (congrArg _ (poolPosition_empty hinfo hhdr hclass hst hroom hlen hnone hdone))
    · have hn : n ≠ 0 := by omega
      exact hexec.trans (congrArg _ ((poolPosition_takes hinfo hhdr hclass hst hroom hlen hn hc hthere).trans
        (positionTaken_between hfirst hlast)))
    · refine hexec.trans (congrArg _ ((poolPosition_takes hinfo hhdr hclass hst hroom hlen hn hc hthere).trans ?_))
      simp only [positionTaken, meansPut, endsGroup, decide_eq_true_eq]
      rfl
  · exact (exec_poolPosition hcore s).trans (congrArg _ (poolPosition_waits hinfo hhdr hwaits))
  · intro c i hmore hthere es at' f b bad s1
    have htakes {s' : State} (hop : postOp r.param ≠ 1)
        (h' : (if postOp r.param = 0 then boxDecoded s core r h else boxKept s core r h) = s') :
        exec (.boxDecode core) s = .next s' :=
      (exec_boxDecode hcore s).trans (congrArg _
        ((boxDecode_takes hinfo hhdr hclass hop hst hroom hlength hc hmore hthere).trans h'))
    refine ⟨fun hop hfirst hlast => ?_, fun hop _ => ?_, fun hop hplain => ?_, fun hop hclean hinf => ?_⟩
    · exact htakes (by omega) ((if_pos hop).trans (boxDecoded_between r hfirst hlast))
    · exact htakes (by omega) (if_pos hop)
    · exact htakes (by omega) ((if_neg (by omega)).trans (boxKept_plain hplain))
    · have hrecord : fusedRecord s core r h = ⟨(fusedRecord s core r h).code, false⟩ := by
        rw [fusedRecord]
        exact congrArg _ hclean
      have hkept := boxKept_saturates hclean hinf
      rw [hrecord] at hkept
      exact htakes (by omega) ((if_neg (by omega)).trans hkept)
  · have hexec := exec_boxDecode hcore s
    exact ⟨fun hlength => hexec.trans (congrArg _ (boxDecode_empty hinfo hhdr hclass hop hst hroom hlength)),
      fun hlength hc => hexec.trans (congrArg _ (boxDecode_stops hinfo hhdr hclass hop hst hroom hlength hc)),
      fun hlength hc hwaits => hexec.trans (congrArg _
        (boxDecode_waits hinfo hhdr hclass hop hst hroom hlength hc hwaits))⟩
  · exact (exec_boxDecode hcore s).trans (congrArg _ (boxDecode_idle hinfo hidle))

end Sys2Proof.Claims
end

section
/-!
PROOF. Non-maximum suppression (O16): NMS_CANDIDATE and NMS_SELECT.
-/

open Sys2Proof Sys2Proof.Machine Sys2Proof.Claims Sys2Proof.Laws Sys2Proof.Laws.Windows

namespace Sys2Proof.Laws.Suppression

/-! ### NMS_CANDIDATE (04 R168, R169) -/

theorem exec_nmsCandidate {core : Nat} (hcore : core < nCores) (s : State) :
    exec (.nmsCandidate core) s = .next (nmsCandidate s core) :=
  withUnit_of (by simpa using hcore)

/-- The candidate that an NMS stage takes next: of the input tensor, or of the boxes decoded. -/
def nextCandidate (c : Core) (r : StageRec) : Option Elem :=
  if postOp r.param = 1 then (c.inPort 0).elems[c.win.candNext]? else c.win.decoded[c.win.candNext]?

/-- A corner or the score of a candidate is a NaN. -/
def hasNan (x : BitVec 256) : Bool :=
  [recX1 x, recY1 x, recX2 x, recY2 x, recScore x].any F32.isNaN

/-- The unit once a candidate that is not poisoned, or that comes too late, has been taken. -/
def candidateTaken (p : Blob) (x : BitVec 256) (u : WindowUnit) : WindowUnit :=
  if u.candNext ≥ 4096 then
    { u with candNext := u.candNext + 1, truncated := true, nmsDropped := u.nmsDropped + 1 }
  else if hasNan x then { u with candNext := u.candNext + 1, nmsInvalid := u.nmsInvalid + 1 }
  else if F32.lt (recScore x) (postScoreMin p) then { u with candNext := u.candNext + 1 }
  else { u with candNext := u.candNext + 1, cands := u.cands ++ [⟨recIndexed x u.candNext, u.candNext⟩] }

section
variable {s : State} {core : Nat} {r : StageRec} {h : THdr} {e : Elem}
  (hinfo : (s.core core).stage.info = some r) (hhdr : ((s.core core).inPort 0).hdr = some h)
include hinfo hhdr

theorem nmsCandidate_waits (hwaits : r.opclass ≠ 3 ∨ postOp r.param = 0 ∨ (s.core core).stage.st ≠ .running ∨
    candCount r h ≤ (s.core core).win.candNext ∨ nextCandidate (s.core core) r = none) : nmsCandidate s core = s := by
  unfold nextCandidate at hwaits
  simp only [nmsCandidate, hinfo, hhdr]
  obtain hunit | hunit | hunit | hcount | hnone := hwaits
  iterate 3 exact if_pos (by simp [hunit])
  · refine ite_eq_left_iff.2 fun _ => ?_
    split
    · rfl
    · exact if_pos hcount
  · rw [hnone]
    exact ite_self _

variable (hclass : r.opclass = 3) (hop : postOp r.param ≠ 0) (hst : (s.core core).stage.st = .running)
  (hcount : (s.core core).win.candNext < candCount r h) (hnext : nextCandidate (s.core core) r = some e)
include hclass hop hst hcount hnext

theorem nmsCandidate_poisoned (hfirst : (s.core core).win.candNext < 4096) (hpoison : e.poison = true) :
    nmsCandidate s core =
      let n := (s.core core).win.candNext
      let s1 := s.modCore core fun k => { k with win := { k.win with candNext := n + 1 } }
      if postOp r.param = 1 ∨ ((((s.core core).inPort 0).elems.drop (n * h.c)).take h.c).any (·.poison) = true then s1
      else s1.modEp core 0 fun k => k.addPoison 1 := by
  unfold nextCandidate at hnext
  simp [nmsCandidate, hinfo, hhdr, hclass, hop, hst, Nat.not_le.2 hcount, hnext, Nat.not_le.2 hfirst, hpoison]

theorem nmsCandidate_takes (hclean : 4096 ≤ (s.core core).win.candNext ∨ e.poison = false) :
    nmsCandidate s core = s.modCore core fun k => { k with win := candidateTaken r.param e.code k.win } := by
  have htake : nmsCandidate s core =
      let n := (s.core core).win.candNext
      let s1 := s.modCore core fun k => { k with win := { k.win with candNext := n + 1 } }
      if n ≥ 4096 then s1.modCore core fun k => { k with win := { k.win with
        truncated := true, nmsDropped := k.win.nmsDropped + 1 } }
      else if hasNan e.code then s1.modCore core fun k => { k with win := { k.win with
        nmsInvalid := k.win.nmsInvalid + 1 } }
      else if F32.lt (recScore e.code) (postScoreMin r.param) then s1
      else s1.modCore core fun k => { k with win := { k.win with
        cands := k.win.cands ++ [⟨recIndexed e.code n, n⟩] } } := by
    unfold nextCandidate at hnext
    obtain hlate | hpoison := hclean
    · simp [nmsCandidate, hinfo, hhdr, hclass, hop, hst, Nat.not_le.2 hcount, hnext, hlate]
    · simp [nmsCandidate, hinfo, hhdr, hclass, hop, hst, Nat.not_le.2 hcount, hnext, hpoison, hasNan]
  rw [htake]
  unfold candidateTaken
  by_cases hlate : (s.core core).win.candNext ≥ 4096
  · simp only [if_pos hlate, modCore_modCore]
    exact modCore_congr (by simp [hlate])
  · simp only [if_neg hlate, modCore_modCore]
    split_ifs <;> exact modCore_congr (by simp [*])

end

/-! ### A tensor that leaves at once -/

theorem win_releaseIn (s : State) (core q : Nat) : ((releaseIn s core q).core core).win = (s.core core).win := by
  have hmoved := release_self s core q core
  rw [core_modCore_self] at hmoved
  obtain h | h := hmoved <;> rw [h]

theorem inPort_releaseIn (s : State) (core q : Nat) : ((releaseIn s core q).core core).inPort q = InPort.empty := by
  obtain ⟨-, -, -, hinp⟩ := release_facts s core q
  rw [Core.inPort, hinp, tgetD_tset_self]

theorem outPort_releaseIn (s : State) (core q p : Nat) :
    ((releaseIn s core q).core core).outPort p = (s.core core).outPort p := by
  obtain ⟨-, -, hout, -⟩ := release_facts s core q
  rw [Core.outPort, hout, Core.outPort]

/-- A tensor that begins and ends at once, with an update of the window unit, and the input that it came from let go. -/
def emitted (s : State) (core : Nat) (t : OutTensor) (f : WindowUnit → WindowUnit) : State :=
  releaseIn ((beginOut s core 0 t).modCore core fun c => { c with win := f c.win }) core 0

theorem emitted_facts {s : State} {core : Nat} (hbound : (boundStream s core 4).isSome = true) (t : OutTensor)
    (f : WindowUnit → WindowUnit) :
    CoresMoved core s (emitted s core t f) ∧ ((emitted s core t f).core core).win = f (s.core core).win ∧
      ((emitted s core t f).core core).inPort 0 = InPort.empty ∧
      (((emitted s core t f).core core).outPort 0).outs = ((s.core core).outPort 0).outs ++ [t] := by
  obtain ⟨hmoved, -, -, -⟩ :=
    release_facts ((beginOut s core 0 t).modCore core fun c => { c with win := f c.win }) core 0
  obtain ⟨hbut, hwin, -, -⟩ := beginOut_keeps s core 0 t
  refine ⟨(CoresMoved.but fun k hk => ?_).trans hmoved, ?_, inPort_releaseIn _ _ _, ?_⟩
  · rw [core_modCore_other _ _ _ _ hk, hbut k hk]
  · rw [emitted, win_releaseIn, core_modCore_self, hwin]
  · rw [emitted, outPort_releaseIn, beginOut_eq _ _ _ _ hbound]
    simp [Core.outPort]

/-! ### NMS_SELECT (04 R170) -/

theorem exec_nmsSelect {core : Nat} (hcore : core < nCores) (s : State) :
    exec (.nmsSelect core) s = .next (nmsSelect s core) :=
  withUnit_of (by simpa using hcore)

/-- The records that leave, in the order of selection. -/
def keptRecords (r : StageRec) (u : WindowUnit) : List (BitVec 256) :=
  nmsKeep r.param (u.cands.foldl insertCand []) []

/-- The tensor of the records that leave. -/
def keptTensor (r : StageRec) (h : THdr) (hpoison : Bool) (u : WindowUnit) : OutTensor where
  length := (keptRecords r u).length
  c := 1
  w := (keptRecords r u).length
  h := 1
  sample := h.sample
  flags := flagShaped ||| (if u.truncated then flagNmsTruncated else 0)
  hpoison := hpoison
  vals := (keptRecords r u).zipIdx.map fun q => (q.2, ⟨q.1, true, false, false⟩)

theorem tget_keptTensor (r : StageRec) (h : THdr) (hpoison : Bool) (u : WindowUnit) (i : Nat) :
    tget (keptTensor r h hpoison u).vals i = ((keptRecords r u)[i]?).map fun x => ⟨x, true, false, false⟩ := by
  have hread := tget_zipIdx (fun x => (⟨x, true, false, false⟩ : OVal)) (keptRecords r u) 0 i
  rwa [Nat.zero_add] at hread

/-- The unit with the candidates of the running tensor gone, `n` records having been kept. -/
def candidatesGone (n : Nat) (u : WindowUnit) : WindowUnit :=
  { u with cands := [], candNext := 0, truncated := false, decoded := [], boxes := 0,
           nmsKept := u.nmsKept + BitVec.ofNat 32 n }

section
variable {s : State} {core : Nat} {r : StageRec} {h : THdr}
  (hinfo : (s.core core).stage.info = some r) (hhdr : ((s.core core).inPort 0).hdr = some h)
include hinfo hhdr

theorem nmsSelect_waits (hwaits : r.opclass ≠ 3 ∨ postOp r.param = 0 ∨ (s.core core).stage.st ≠ .running ∨
    outputFull s core = true ∨ ((s.core core).inPort 0).done = false ∨ (s.core core).win.candNext < candCount r h) :
    nmsSelect s core = s := by
  simp only [nmsSelect, hinfo, hhdr]
  exact if_pos (by simpa [or_assoc] using hwaits)

variable (hclass : r.opclass = 3) (hop : postOp r.param ≠ 0) (hst : (s.core core).stage.st = .running)
  (hroom : outputFull s core = false) (hdone : ((s.core core).inPort 0).done = true)
  (hcount : candCount r h ≤ (s.core core).win.candNext)
include hclass hop hst hroom hdone hcount

theorem nmsSelect_empty (hlength : h.length = 0) :
    nmsSelect s core = passEmpty s core h 0 ((s.core core).inPort 0).hpoison [0] (1, 0, 1) := by
  simp [nmsSelect, hinfo, hhdr, hclass, hop, hst, hroom, hdone, Nat.not_lt.2 hcount, hlength]

theorem nmsSelect_emits (hlength : h.length ≠ 0) :
    nmsSelect s core = emitted s core (keptTensor r h ((s.core core).inPort 0).hpoison (s.core core).win)
      (candidatesGone (keptRecords r (s.core core).win).length) := by
  simp [nmsSelect, hinfo, hhdr, hclass, hop, hst, hroom, hdone, Nat.not_lt.2 hcount, hlength, keptTensor, keptRecords,
    candidatesGone, emitted]

end

end Sys2Proof.Laws.Suppression

namespace Sys2Proof.Claims

open Sys2Proof.Laws.Suppression in
/-- Settles O16. A candidate is passed over by `nmsCandidate_poisoned` or taken as `candidateTaken` says, in the order
of the comparisons of R169; the records kept leave by `emitted_facts`, no more of them than KEEP_MAX by `nms_len`. Where
the words of a poisoned candidate are counted is log entry 50. -/
theorem suppressionKeepsTheBest : Obligations.SuppressionKeepsTheBest := by
  unfold Obligations.SuppressionKeepsTheBest
  refine ⟨fun s core r h e hcore hinfo hhdr hclass hop hst => ?_, fun s core r h hcore hinfo hhdr hwaits => ?_,
    fun s core r h hcore hinfo hhdr hclass hop hst hroom hdone hcount hbound => ?_,
    fun s core r h hcore hinfo hhdr hwaits => ?_⟩
  · intro n p nan hcount hnext
    have hexec := exec_nmsCandidate hcore s
    exact ⟨fun hfirst hpoison => hexec.trans (congrArg _
        (nmsCandidate_poisoned hinfo hhdr hclass hop hst hcount hnext hfirst hpoison)),
      fun hclean => hexec.trans (congrArg _ ((nmsCandidate_takes hinfo hhdr hclass hop hst hcount hnext hclean).trans
        (modCore_congr rfl)))⟩
  · exact (exec_nmsCandidate hcore s).trans (congrArg _ (nmsCandidate_waits hinfo hhdr hwaits))
  · have hexec := exec_nmsSelect hcore s
    refine ⟨fun hlength => ⟨_, hexec, ?_⟩, fun hlength => hexec.trans (congrArg _
      (nmsSelect_empty hinfo hhdr hclass hop hst hroom hdone hcount hlength))⟩
    rw [nmsSelect_emits hinfo hhdr hclass hop hst hroom hdone hcount hlength]
    obtain ⟨hmoved, hwin, hin, houts⟩ := emitted_facts hbound
      (keptTensor r h ((s.core core).inPort 0).hpoison (s.core core).win)
      (candidatesGone (keptRecords r (s.core core).win).length)
    exact ⟨hmoved, nms_len _ _ _ (Nat.zero_le _), congrArg WindowUnit.cands hwin, congrArg WindowUnit.candNext hwin,
      congrArg WindowUnit.decoded hwin, congrArg WindowUnit.boxes hwin, congrArg WindowUnit.nmsKept hwin, hin, _, houts,
      rfl, rfl, tget_keptTensor _ _ _ _⟩
  · exact (exec_nmsSelect hcore s).trans (congrArg _ (nmsSelect_waits hinfo hhdr hwaits))

end Sys2Proof.Claims
end

section
/-!
PROOF. States at which the statements on the window engine and post-processing apply (O14 to O16): a window stage with a
tensor at its port and a row of it, two stripes with a row to copy, a pooling stage, box decoding and suppression.
-/

open Sys2Proof Sys2Proof.Machine Sys2Proof.Claims

namespace Sys2Proof.Laws.WindowExamples

/-! ### Cores of one stage -/

/-- A stage of an opclass and a parameter block on image core `m`, member `m` of stage 0. -/
def stageOf (opclass m : Nat) (streams : List Nat) (param : Blob) : StageRec where
  lcore := m
  stage := 0
  member := m
  opclass := opclass
  mode := 1
  arrays := 1
  npassM1 := 0
  window := false
  post := false
  stagingKib := 0
  paramOff := 0
  paramLen := param.len
  passFirst := 0
  scales := []
  streams := streams
  param := param

/-- The header of a tensor of `c` channels, one column and `h` rows. -/
def tallTensor (c h : Nat) : THdr where
  length := c * h
  scale := F32.one
  format := 0
  flags := 0
  c := c
  w := 1
  h := h
  sample := 0
  use := 0

/-- A core that runs a stage, with a whole tensor at port 0. -/
def runningCore (r : StageRec) (h : THdr) (es : List Elem) (u : WindowUnit) : Core :=
  { Core.cleared with
    win := u
    stage := { StageUnit.cleared with st := .running, info := some r }
    inp := [(0, { hdr := some h, elems := es, hpoison := false, done := true })] }

def running (r : StageRec) (h : THdr) (es : List Elem) (u : WindowUnit) : State :=
  State.reset.setCore 0 (runningCore r h es u)

def zeroElem : Elem := ⟨0, false⟩

/-! ### A window of two rows and one column -/

/-- KH = 2, KW = 1, strides and dilations 1, no padding, IN_C = 1, MAX_W = 1, any height; both halo flags. -/
def twoRowWindow : Blob := ⟨16, 1 + 2 ^ 40 + 2 ^ 41 + 2 ^ 64 + 2 ^ 80⟩

/-- Its stage, on a tensor of two rows. -/
def windowState (u : WindowUnit) : State :=
  running (stageOf 1 0 [] twoRowWindow) (tallTensor 1 2) [zeroElem, zeroElem] u

theorem windowTensor_opens_twoRows : Answers (.windowTensor 0) (windowState WindowUnit.cleared) fun s' =>
    (s'.core 0).win.cur = some ⟨tallTensor 1 2, 1, 1, 0, 0, 0, 0, 0, false⟩ := by
  obtain ⟨-, hopens⟩ := windowsTakeTensorsAndRows.1 (windowState WindowUnit.cleared) 0 (stageOf 1 0 [] twoRowWindow)
    (tallTensor 1 2) (by decide) rfl rfl rfl rfl rfl (by decide) (by decide)
  obtain ⟨s', hexec, -, -, -, hcur, -⟩ := hopens (by decide) (by decide) (by decide)
  exact ⟨s', hexec, hcur⟩

/-- The same stage on a tensor of two channels, which does not fit the geometry word. -/
def twoChannels : State := running (stageOf 1 0 [] twoRowWindow) (tallTensor 2 2) [] WindowUnit.cleared

theorem windowTensor_stops_twoChannels :
    exec (.windowTensor 0) twoChannels = .next (stopStage twoChannels 0 .windowGeometry 0) :=
  (windowsTakeTensorsAndRows.1 twoChannels 0 (stageOf 1 0 [] twoRowWindow) (tallTensor 2 2) (by decide) rfl rfl rfl rfl
    rfl (by decide) (by decide)).1 (by decide)

/-- A window unit with a tensor of `h` rows open. -/
def tensorOpen (h : Nat) (lines : Tbl LineRow) : WindowUnit :=
  { WindowUnit.cleared with cur := some ⟨tallTensor 1 h, h - 1, 1, 0, 0, 0, 0, 0, false⟩, lines := lines }

/-- The first row takes a slot of the line buffers, with its one column. -/
theorem inputRowArrival_twoRows : Answers (.inputRowArrival 0) (windowState (tensorOpen 2 [])) fun s' =>
    ∃ l, tget (s'.core 0).win.lines 0 = some l ∧ (tget l.cols 0).isSome = true := by
  obtain ⟨-, -, hstores⟩ := windowsTakeTensorsAndRows.2.1 (windowState (tensorOpen 2 [])) 0
    (stageOf 1 0 [] twoRowWindow) ⟨tallTensor 1 2, 1, 1, 0, 0, 0, 0, 0, false⟩ 0 (by decide) rfl rfl rfl (by decide)
    (by decide)
  obtain ⟨s', hexec, -, -, -, -, -, l, hline, -, -, -, hcols⟩ := hstores (by decide) (by decide) (by decide)
  refine ⟨s', hexec, l, hline, ?_⟩
  rw [hcols 0 (by decide), if_pos (by decide)]
  rfl

/-- The line buffers of that filter have three slots, and three other rows hold them. -/
def fullLines : State := windowState (tensorOpen 2 ([7, 8, 9].map fun k => (65536 * k, ⟨[], 1, false, false⟩)))

theorem inputRowArrival_full : exec (.inputRowArrival 0) fullLines = .next fullLines :=
  (windowsTakeTensorsAndRows.2.1 fullLines 0 (stageOf 1 0 [] twoRowWindow)
    ⟨tallTensor 1 2, 1, 1, 0, 0, 0, 0, 0, false⟩ 0 (by decide) rfl rfl rfl (by decide) (by decide)).2.1 (by decide)
    (by decide) (by decide)

/-! ### Two stripes of a tensor of three rows -/

/-- The core of stripe `m`: output row `m` is its own. -/
def stripeCore (m : Nat) (lines : Tbl LineRow) : Core :=
  let c := runningCore (stageOf 1 m [] twoRowWindow) (tallTensor 1 3) [] (tensorOpen 3 lines)
  { c with stage := { c.stage with stripeFirst := [0, 1] } }

/-- Stripe 0 on core 0 holds input row 1, which both stripes need. -/
def twoStripes : State :=
  (({ State.reset with
    bring := { State.reset.bring with domainOn := BitVec.allOnes 80 }
    shelves := [(0, { Shelf.reset with lmap := [(0, ⟨0, false, false⟩), (1, ⟨1, false, false⟩)] })] } : State).setCtx 0
    { image := some ⟨1, [], [stageOf 1 0 [] twoRowWindow, stageOf 1 1 [] twoRowWindow], [], [], []⟩
      mask := 1 }).setCore 0 (stripeCore 0 [(1, ⟨[(0, [zeroElem])], 2, false, false⟩)]) |>.setCore 1 (stripeCore 1 [])

theorem nextHalo_twoStripes : nextHalo twoStripes 1 = some (0, 1) := by decide

/-- Stripe 1 copies the row, and the count of stripe 0 drops to its own use. -/
theorem haloCopy_twoStripes : Answers (.haloCopy 1 .clean) twoStripes fun s' =>
    tget (s'.core 1).win.lines 1 = some ⟨[(0, [zeroElem])], 1, false, true⟩ ∧
      tget (s'.core 0).win.lines 1 = some ⟨[(0, [zeroElem])], 1, false, false⟩ := by
  obtain ⟨-, -, -, hcopies⟩ := windowsTakeTensorsAndRows.2.2 twoStripes 1 0 1 (stageOf 1 1 [] twoRowWindow) .clean
    ⟨[(0, [zeroElem])], 2, false, false⟩ (by decide) rfl nextHalo_twoStripes (by decide)
  obtain ⟨-, s', hexec, -, hcopy, -, -, -, hcount, -⟩ := hcopies rfl (by decide) (by decide) (by decide)
  exact ⟨s', hexec, hcopy, hcount (by decide)⟩

/-! ### Pooling (04 R164, R165) -/

/-- A pooling stage on a tensor of one channel and `h` positions. -/
def pooling (h taken : Nat) : State :=
  running (stageOf 2 0 [] ⟨0, 0⟩) (tallTensor 1 h) (List.replicate h ⟨0x3F800000, false⟩)
    { WindowUnit.cleared with poolTaken := taken, pool := [A40.zero], poolPoison := [false] }

/-- The only position of a tensor lets the input go. -/
theorem poolPosition_onlyOne : Answers (.poolPosition 0) (pooling 1 0) fun s' =>
    (s'.core 0).inPort 0 = InPort.empty := by
  obtain ⟨-, -, -, hends⟩ := poolingAndBoxes.1 (pooling 1 0) 0 (stageOf 2 0 [] ⟨0, 0⟩) (tallTensor 1 1) (by decide) rfl
    rfl rfl rfl (by decide)
  refine ⟨_, hends (by decide) (by decide) (by decide) (.inl (by decide)) (by decide), ?_⟩
  rw [if_pos (by decide)]
  exact Suppression.inPort_releaseIn _ _ _

/-- The second of three only adds. -/
theorem poolPosition_second : Answers (.poolPosition 0) (pooling 3 1) fun s' =>
    (s'.core 0).win.poolTaken = 2 ∧ (s'.core 0).win.pool = [A40.addTo .nearestEven A40.zero (F32.val F32.one)] := by
  obtain ⟨-, -, hadds, -⟩ := poolingAndBoxes.1 (pooling 3 1) 0 (stageOf 2 0 [] ⟨0, 0⟩) (tallTensor 1 3) (by decide) rfl
    rfl rfl rfl (by decide)
  exact ⟨_, hadds (by decide) (by decide) (by decide) (by decide) (by decide), by decide, by decide⟩

/-- A pooling stage on a tensor of 2^32 positions. -/
def poolingTooLong : State := running (stageOf 2 0 [] ⟨0, 0⟩) (tallTensor 1 (2 ^ 32)) [] WindowUnit.cleared

theorem poolPosition_tooLong :
    exec (.poolPosition 0) poolingTooLong = .next (stopStage poolingTooLong 0 .poolLength 0) :=
  (poolingAndBoxes.1 poolingTooLong 0 (stageOf 2 0 [] ⟨0, 0⟩) (tallTensor 1 (2 ^ 32)) (by decide) rfl rfl rfl rfl
    (by decide)).1 (by decide)

/-! ### Box decoding (04 R166, R167) -/

/-- A decoding stage, of an operation and without anchors, on one candidate of four values. -/
def decoding (op : Nat) (es : List Elem) : State :=
  running (stageOf 3 0 [] ⟨32, op + 4⟩) (tallTensor 4 1) es WindowUnit.cleared

/-- The only candidate of a decoding stage lets the input go. -/
theorem boxDecode_onlyOne : Answers (.boxDecode 0) (decoding 0 (List.replicate 4 zeroElem)) fun s' =>
    (s'.core 0).inPort 0 = InPort.empty := by
  obtain ⟨-, hends, -⟩ := poolingAndBoxes.2.2.1 (decoding 0 (List.replicate 4 zeroElem)) 0 (stageOf 3 0 [] ⟨32, 4⟩)
    (tallTensor 4 1) (by decide) rfl rfl rfl rfl (by decide) (by decide) (by decide) (by decide) (by decide)
  refine ⟨_, hends (by decide) (.inl (by decide)), ?_⟩
  rw [if_pos (by decide)]
  exact Suppression.inPort_releaseIn _ _ _

/-- A poisoned candidate of a fused stage is kept with its poison. -/
theorem boxDecode_poisoned : Answers (.boxDecode 0) (decoding 2 (List.replicate 4 ⟨0, true⟩)) fun s' =>
    (s'.core 0).win.boxes = 1 ∧ (s'.core 0).win.decoded.map (·.poison) = [true] := by
  obtain ⟨-, -, hkeeps, -⟩ := poolingAndBoxes.2.2.1 (decoding 2 (List.replicate 4 ⟨0, true⟩)) 0
    (stageOf 3 0 [] ⟨32, 6⟩) (tallTensor 4 1) (by decide) rfl rfl rfl rfl (by decide) (by decide) (by decide)
    (by decide) (by decide)
  refine ⟨_, hkeeps (by decide) (.inl (by decide)), ?_, ?_⟩
  all_goals
    rw [core_modCore_self]
    rfl

/-! ### Suppression (04 R168 to R170) -/

/-- An NMS stage on one record, with KEEP_MAX = 1 and SCORE_MIN = 0. -/
def suppressing (e : Elem) : State :=
  running (stageOf 3 0 [] ⟨32, 1 + 2 ^ 5⟩) (tallTensor 1 1) [e] WindowUnit.cleared

theorem nmsCandidate_scoreZero : Answers (.nmsCandidate 0) (suppressing zeroElem) fun s' =>
    (s'.core 0).win.candNext = 1 ∧ (s'.core 0).win.cands = [⟨0, 0⟩] := by
  obtain ⟨-, htakes⟩ := suppressionKeepsTheBest.1 (suppressing zeroElem) 0 (stageOf 3 0 [] ⟨32, 1 + 2 ^ 5⟩)
    (tallTensor 1 1) zeroElem (by decide) rfl rfl rfl (by decide) rfl (by decide) (by decide)
  exact ⟨_, htakes (.inr rfl), by decide, by decide⟩

/-- A candidate of a fused stage whose values are clean, so that its anchor alone can have poisoned it. -/
def anchorPoisoned : State :=
  running (stageOf 3 0 [] ⟨32, 2⟩) (tallTensor 4 1) (List.replicate 4 zeroElem)
    { WindowUnit.cleared with decoded := [⟨0, true⟩] }

theorem nmsCandidate_anchorPoisoned : Answers (.nmsCandidate 0) anchorPoisoned fun s' =>
    (s'.core 0).win.candNext = 1 ∧ (s'.core 0).win.cands = [] ∧ (s'.epCtr 0 0).poisonedWords = 1 := by
  obtain ⟨hpoisoned, -⟩ := suppressionKeepsTheBest.1 anchorPoisoned 0 (stageOf 3 0 [] ⟨32, 2⟩) (tallTensor 4 1)
    ⟨0, true⟩ (by decide) rfl rfl rfl (by decide) rfl (by decide) (by decide)
  exact ⟨_, hpoisoned (by decide) rfl, by decide, by decide, by decide⟩

/-- An NMS stage that has taken its one candidate, with a stream at its output. -/
def oneCandidate : State :=
  (running (stageOf 3 0 [0, 0, 0, 0, 0] ⟨32, 1 + 2 ^ 5⟩) (tallTensor 1 1) [zeroElem]
    { WindowUnit.cleared with cands := [⟨0, 0⟩], candNext := 1 }).setCtx 0
    { image := some ⟨1, [], [], [⟨0, [], 0, 0, 0, false, 1, 1, 1⟩], [], []⟩ }

/-- Its record leaves in a tensor of one. -/
theorem nmsSelect_oneCandidate : Answers (.nmsSelect 0) oneCandidate fun s' =>
    (s'.core 0).win.nmsKept = 1 ∧ (s'.core 0).win.cands = [] ∧
      ((s'.core 0).outPort 0).outs.map (·.length) = [1] := by
  obtain ⟨hemits, -⟩ := suppressionKeepsTheBest.2.2.1 oneCandidate 0 (stageOf 3 0 [0, 0, 0, 0, 0] ⟨32, 1 + 2 ^ 5⟩)
    (tallTensor 1 1) (by decide) rfl rfl rfl (by decide) rfl (by decide) rfl (by decide) (by decide)
  obtain ⟨s', hexec, -, -, hcands, -, -, -, hkept, -, t, houts, hlength, -⟩ := hemits (by decide)
  refine ⟨s', hexec, hkept.trans (by decide), hcands, ?_⟩
  rw [houts, List.map_append, List.map_singleton, hlength]
  decide

end Sys2Proof.Laws.WindowExamples
end

section
/-!
PROOF. Words and tensors on streams (O17): STREAM_WORD at the ports of a core, and TENSOR_HEADER_EMIT.
-/

open Sys2Proof Sys2Proof.Machine Sys2Proof.Claims Sys2Proof.Laws Sys2Proof.Laws.Streams

namespace Sys2Proof.Laws.StreamWords

/-! ### A header at a port (05 R187 to R189) -/

/-- A port once a header word has come: the tensor is open, it counts for the step, and the stage runs. -/
def headerOpened (s : State) (core q : Nat) (w : SWord) : State :=
  (if w.poison then s.modEp core q fun k => k.addPoison 1 else s).modCore core fun c => { c with
    stage := { c.stage with st := .running }
    takes := tset c.takes q (tgetD c.takes q 0 + 1)
    taken := c.taken + (if q = 0 && (THdr.parse w.bits).length = 0 then 1 else 0)
    inp := tset c.inp q ⟨some (THdr.parse w.bits), [], w.poison, (THdr.parse w.bits).length = 0⟩ }

/-- SCALE_IN_USE of the port is the scale of its tensor. -/
def headerScaled (s : State) (core q : Nat) (w : SWord) : State :=
  (headerOpened s core q w).modEp core q fun k => { k with scaleInUse := (THdr.parse w.bits).scale }

section
variable {s : State} {core q : Nat} {w : SWord} {st : StageRec} (hinfo : (s.core core).stage.info = some st)
include hinfo

theorem takeHeader_eq : takeHeader s core q w =
    if !scaleAccepted st (THdr.parse w.bits) then stopStage (headerOpened s core q w) core .badScale 0
    else if needsShape st q && !(THdr.parse w.bits).shaped then
      stopStage (headerScaled s core q w) core .shapeMissing 0
    else if skewed (s.core core) st q (THdr.parse w.bits) then stopStage (headerScaled s core q w) core .tensorSkew 0
    else headerScaled s core q w := by
  simp only [takeHeader, hinfo]
  rfl

theorem takeHeader_accepts (hscale : scaleAccepted st (THdr.parse w.bits) = true)
    (hshape : needsShape st q = true → (THdr.parse w.bits).shaped = true)
    (hskew : skewed (s.core core) st q (THdr.parse w.bits) = false) :
    takeHeader s core q w = headerScaled s core q w := by
  rw [takeHeader_eq hinfo, if_neg (by simp [hscale]), if_neg (by simpa using hshape), if_neg (by simp [hskew])]

theorem takeHeader_stops (hbad : scaleAccepted st (THdr.parse w.bits) = false ∨
    (needsShape st q = true ∧ (THdr.parse w.bits).shaped = false) ∨
      skewed (s.core core) st q (THdr.parse w.bits) = true) :
    ((takeHeader s core q w).core core).stage.st = .stopped := by
  have hstops (u : State) (n : StopName) : ((stopStage u core n 0).core core).stage.st = .stopped := by
    obtain ⟨-, hst, -⟩ := stopStage_facts u core n 0
    exact hst
  rw [takeHeader_eq hinfo]
  split_ifs with hscale hshape hskew
  · exact hstops _ _
  · exact hstops _ _
  · exact hstops _ _
  · simp_all

end

/-- The core at which a header has come. -/
def withHeader (q : Nat) (w : SWord) (c : Core) : Core :=
  { c with
    stage := { c.stage with st := .running }
    takes := tset c.takes q (tgetD c.takes q 0 + 1)
    taken := c.taken + (if q = 0 && (THdr.parse w.bits).length = 0 then 1 else 0)
    inp := tset c.inp q ⟨some (THdr.parse w.bits), [], w.poison, (THdr.parse w.bits).length = 0⟩
    ctrs := tmod (if w.poison then tmod c.ctrs q EpCtr.zero fun k => k.addPoison 1 else c.ctrs) q EpCtr.zero fun k =>
      { k with scaleInUse := (THdr.parse w.bits).scale } }

theorem headerScaled_eq (s : State) (core q : Nat) (w : SWord) :
    headerScaled s core q w = s.modCore core (withHeader q w) := by
  rw [headerScaled, headerOpened, State.modEp]
  cases hpoison : w.poison
  · rw [if_neg Bool.false_ne_true, modCore_modCore]
    exact modCore_congr (by simp [withHeader, hpoison])
  · rw [if_pos rfl, State.modEp, modCore_modCore, modCore_modCore]
    exact modCore_congr (by simp [withHeader, hpoison])

theorem inPort_withHeader (q : Nat) (w : SWord) (c : Core) : (withHeader q w c).inPort q =
    ⟨some (THdr.parse w.bits), [], w.poison, decide ((THdr.parse w.bits).length = 0)⟩ := tgetD_tset_self _ _ _ _

theorem takes_withHeader (q : Nat) (w : SWord) (c : Core) :
    tgetD (withHeader q w c).takes q 0 = tgetD c.takes q 0 + 1 := tgetD_tset_self _ _ _ _

theorem scaleInUse_withHeader (q : Nat) (w : SWord) (c : Core) :
    (tgetD (withHeader q w c).ctrs q EpCtr.zero).scaleInUse = (THdr.parse w.bits).scale := by
  rw [withHeader, tgetD_tmod_self]

/-! ### A data word at a port (05 R181) -/

/-- The elements that a port takes from a data word. -/
def wordElems (st : StageRec) (q : Nat) (f : Fmt) (h : THdr) (p : InPort) (w : SWord) : List Elem :=
  (convIn (portForm st q f) f h.scale
    ((List.range (min (perWord f) (h.length - p.elems.length))).map (unpackElem f w.bits)) w.poison).map
      fun x => ⟨BitVec.ofNat 256 x.1.code, x.2⟩

theorem takeData_facts {s : State} {core q : Nat} {w : SWord} {st : StageRec} {h : THdr} {f : Fmt}
    (hinfo : (s.core core).stage.info = some st) (hhdr : ((s.core core).inPort q).hdr = some h)
    (hfmt : fmtOf h.format = some f) :
    let t := takeData s core q w
    CoresBut core s t ∧ (t.core core).stage = (s.core core).stage ∧
      (t.core core).inPort q = { (s.core core).inPort q with
        elems := ((s.core core).inPort q).elems ++ wordElems st q f h ((s.core core).inPort q) w, done := w.last } := by
  intro t
  simp only [t, takeData, hinfo, hhdr, hfmt, State.modEp, modCore_modCore]
  refine ⟨coresBut_modCore _ _ _, ?_, ?_⟩
  · rw [core_modCore_self]
  · rw [core_modCore_self]
    exact tgetD_tset_self _ _ _ _

/-! ### The word once the stage has it -/

/-- A stage of another class than LOSS keeps no step loss, and a word that has moved clears only WEDGED. -/
theorem takeWord_eq {s u : State} {core q : Nat} {w : SWord} {st : StageRec} (hother : st.opclass ≠ 5)
    (htaken : (if w.header then takeHeader s core q w else takeData s core q w) = u)
    (hinfo : (u.core core).stage.info = some st) : takeWord s core q w = wordMoved u core := by
  rw [takeWord, htaken, keep_other u core st hinfo hother, ite_self]

theorem st_takeWord (s : State) (core q : Nat) (w : SWord) : ((takeWord s core q w).core core).stage.st =
    ((if w.header then takeHeader s core q w else takeData s core q w).core core).stage.st := by
  rw [takeWord, (moved_word _ _ _).st]
  by_cases hq : q = 2
  · obtain ⟨-, hstage⟩ := keep_but (if w.header then takeHeader s core q w else takeData s core q w) core
    rw [if_pos hq, hstage]
  · rw [if_neg hq]

/-! ### STREAM_WORD -/

theorem exec_streamWord {c i k : Nat} (hc : c < nCtx) (hi : i < 4096) (hk : k < 16) (ecc : Ecc) (s : State) :
    exec (.streamWord c i k ecc) s = .next (returnCredits (streamWord s c i k ecc)) :=
  withUnit_of (by simp [hc, hi, hk])

theorem core_returnCredits (s : State) (n : Nat) : (returnCredits s).core n = s.core n :=
  core_of ((touches_returnCredits s).2 .cores (by decide)) n

/-- The word has left its buffer and, where the stream is tapped, been tapped. -/
def wordLeft (s : State) (c i k : Nat) (r : StreamRec) (w : SWord) : State := tapLocal (popWord s c i k) c i k r w

theorem moved_wordLeft (s : State) (c i k : Nat) (r : StreamRec) (w : SWord) (n : Nat) :
    Moved (s.core n) ((wordLeft s c i k r w).core n) :=
  (moved_pop s c i k n).trans (moved_tap _ c i k n r w)

section
variable {s : State} {c i k core : Nat} {r : StreamRec} {e : BitVec 32} {w : SWord}
  (hrec : streamRec (s.ctx c) i = some r)
include hrec

theorem streamWord_held (hheld : (s.ctx c).held = true) (ecc : Ecc) : streamWord s c i k ecc = s := by
  simp [streamWord, hrec, hheld]

variable (hconsumer : r.consumers[k]? = some e) (hhead : ((s.stream c i).buf k).head = some w) (hkind : epKind e = 0)
  (hcore : lcoreOf (s.ctx c) (epLcore e) = some core)
include hconsumer hhead hkind hcore

theorem streamWord_refused (hport : portTakes s core (epPort e) w = false) (ecc : Ecc) :
    streamWord s c i k ecc = s := by
  simp [streamWord, hrec, hconsumer, hhead, hkind, hcore, hport]

theorem streamWord_crosses {ecc : Ecc} {w1 : SWord} (hheld : (s.ctx c).held = false)
    (hend : endpointOn s (s.ctx c) e = true) (hbuf : bufferOn s c r k = true)
    (hport : portTakes s core (epPort e) w = true)
    (hport1 : portTakes (bufferError s c i k ecc) core (epPort e) w1 = true)
    (hhead1 : (((bufferError s c i k ecc).stream c i).buf k).head = some w1) :
    streamWord s c i k ecc = takeWord (wordLeft (bufferError s c i k ecc) c i k r w1) core (epPort e) w1 := by
  simp [streamWord, hrec, hheld, hconsumer, hhead, hend, hbuf, hkind, hcore, hport, hhead1, hport1, wordLeft]

end

/-- Beside what a word does to its port, a command that moves it only clears WEDGED. -/
theorem crossed_moved {s1 s2 u : State} {core : Nat} (hleft : ∀ n, Moved (s1.core n) (s2.core n))
    (hbut : CoresBut core s2 u) :
    CoresMoved core s1 (returnCredits (wordMoved u core)) ∧
      Moved (u.core core) ((returnCredits (wordMoved u core)).core core) := by
  refine ⟨fun n hn => ?_, ?_⟩
  · rw [core_returnCredits]
    refine (hleft n).trans ?_
    rw [← hbut n hn]
    exact moved_word u core n
  · rw [core_returnCredits]
    exact moved_word u core core

theorem inPort_of_moved {a b : Core} (h : Moved a b) (q : Nat) : b.inPort q = a.inPort q := by
  rw [Core.inPort, h.inp, Core.inPort]

theorem skewed_of_moved {a b : Core} (h : Moved a b) (st : StageRec) (q : Nat) (g : THdr) :
    skewed b st q g = skewed a st q g := by
  simp only [skewed, inPort_of_moved h]

section
variable {s1 s2 : State} {core q : Nat} {w : SWord} {st : StageRec} (hleft : ∀ n, Moved (s1.core n) (s2.core n))
  (hinfo : (s1.core core).stage.info = some st)
include hleft hinfo

/-- A data word that has crossed. -/
theorem takeWord_data (hother : st.opclass ≠ 5) (hdata : w.header = false) {h : THdr} {f : Fmt}
    (hhdr : ((s1.core core).inPort q).hdr = some h) (hfmt : fmtOf h.format = some f) :
    let t := returnCredits (takeWord s2 core q w)
    CoresMoved core s1 t ∧ (t.core core).inPort q = { (s1.core core).inPort q with
      elems := ((s1.core core).inPort q).elems ++ wordElems st q f h ((s1.core core).inPort q) w, done := w.last } := by
  have hin := inPort_of_moved (hleft core) q
  have hinfo2 := (hleft core).info.trans hinfo
  obtain ⟨hbut, hstage, hport⟩ := takeData_facts (w := w) hinfo2 (by rwa [hin]) hfmt
  have htake : takeWord s2 core q w = wordMoved (takeData s2 core q w) core :=
    takeWord_eq hother (by rw [hdata, if_neg Bool.false_ne_true]) (by rw [hstage, hinfo2])
  obtain ⟨hmoved, hself⟩ := crossed_moved hleft hbut
  rw [htake]
  exact ⟨hmoved, by rw [inPort_of_moved hself, hport, hin]⟩

variable (hheader : w.header = true)
include hheader

/-- A header word that has crossed and that the stage accepts. -/
theorem takeWord_header (hother : st.opclass ≠ 5) (hscale : scaleAccepted st (THdr.parse w.bits) = true)
    (hshape : needsShape st q = true → (THdr.parse w.bits).shaped = true)
    (hskew : skewed (s1.core core) st q (THdr.parse w.bits) = false) :
    let h := THdr.parse w.bits
    let t := returnCredits (takeWord s2 core q w)
    CoresMoved core s1 t ∧ (t.core core).inPort q = ⟨some h, [], w.poison, decide (h.length = 0)⟩ ∧
      (t.core core).stage.st = .running ∧ (t.epCtr core q).scaleInUse = h.scale ∧
      tgetD (t.core core).takes q 0 = tgetD (s1.core core).takes q 0 + 1 := by
  have hinfo2 := (hleft core).info.trans hinfo
  have haccepts := (takeHeader_accepts hinfo2 hscale hshape (by rwa [skewed_of_moved (hleft core)])).trans
    (headerScaled_eq s2 core q w)
  have htake : takeWord s2 core q w = wordMoved (s2.modCore core (withHeader q w)) core :=
    takeWord_eq hother (by rw [hheader, if_pos rfl, haccepts]) (by rw [core_modCore_self]; exact hinfo2)
  obtain ⟨hmoved, hself⟩ := crossed_moved hleft (coresBut_modCore s2 core (withHeader q w))
  rw [core_modCore_self] at hself
  rw [htake]
  refine ⟨hmoved, ?_, ?_, ?_, ?_⟩
  · rw [inPort_of_moved hself, inPort_withHeader]
  · rw [hself.st, withHeader]
  · rw [State.epCtr, hself.ctrs, scaleInUse_withHeader]
  · rw [hself.takes, takes_withHeader, (hleft core).takes]

/-- One that it does not accept stops it. -/
theorem takeWord_stops (hbad : scaleAccepted st (THdr.parse w.bits) = false ∨
    (needsShape st q = true ∧ (THdr.parse w.bits).shaped = false) ∨
      skewed (s1.core core) st q (THdr.parse w.bits) = true) :
    ((returnCredits (takeWord s2 core q w)).core core).stage.st = .stopped := by
  rw [core_returnCredits, st_takeWord, hheader, if_pos rfl]
  refine takeHeader_stops ((hleft core).info.trans hinfo) ?_
  rwa [skewed_of_moved (hleft core)]

end

end Sys2Proof.Laws.StreamWords

namespace Sys2Proof.Laws.StreamTensors

/-! ### Words that wait for their buffers (05 R184, R190) -/

/-- The words in a consumer's buffer, and behind them those that wait to enter it. -/
def wordsFor (t : Stream) (j k : Nat) : List SWord := (t.buf j).words ++ tgetD t.wait k []

/-- The waiting words that a consumer's buffer takes: of a broadcast those of its one buffer. -/
def waitingPlace (r : StreamRec) (j : Nat) : Nat := if r.fanout = 1 then 0 else j

/-- Words that join those that wait stay behind them while the buffers fill. -/
theorem wordsFor_pump {s u : State} {c i j : Nat} {r : StreamRec} {ws : List SWord}
    (hrec : streamRec (u.ctx c) i = some r) (hj : j < r.consumers.length)
    (hbuf : (u.stream c i).buf j = (s.stream c i).buf j)
    (hwait : tgetD (u.stream c i).wait (waitingPlace r j) [] =
      tgetD (s.stream c i).wait (waitingPlace r j) [] ++ ws) :
    wordsFor ((pump u c i).stream c i) j (waitingPlace r j) = ((s.stream c i).buf j).words ++
      (tgetD (s.stream c i).wait (waitingPlace r j) [] ++ ws) := by
  obtain ⟨hwords, -⟩ := pump_sum u c i r hrec j fun _ => hj
  exact hwords.trans (by rw [hbuf, ← hwait]; rfl)

/-- A whole tensor waits at the consumer of a single, broadcast or dealt stream. -/
def wholeQueued (s : State) (c i : Nat) (r : StreamRec) (ws : List SWord) : State :=
  let k := (s.stream c i).turn
  if r.fanout = 2 then
    (streamAppend s c i k ws).modStream c i fun t => { t with turn := (k + 1) % r.consumers.length }
  else streamAppend s c i 0 ws

theorem wholeQueued_facts {s : State} {c i j : Nat} {r : StreamRec} (ws : List SWord)
    (hj : r.fanout = 1 ∨ j = if r.fanout = 2 then (s.stream c i).turn else 0) :
    let u := wholeQueued s c i r ws
    u.cores = s.cores ∧ streamRec (u.ctx c) i = streamRec (s.ctx c) i ∧
      (u.stream c i).buf j = (s.stream c i).buf j ∧
      tgetD (u.stream c i).wait (waitingPlace r j) [] = tgetD (s.stream c i).wait (waitingPlace r j) [] ++ ws := by
  intro u
  by_cases hdeal : r.fanout = 2
  · have hj' : j = (s.stream c i).turn := by simpa [hdeal] using hj
    simp only [u, wholeQueued, hdeal, if_true, waitingPlace, streamAppend, hj']
    refine ⟨rfl, ?_, ?_, ?_⟩
    · rw [streamRec_modStream, streamRec_modStream]
    · simp [Stream.buf]
    · simp
  · have hk : waitingPlace r j = 0 := by
      by_cases hcast : r.fanout = 1
      · exact if_pos hcast
      · rw [waitingPlace, if_neg hcast, hj.resolve_left hcast, if_neg hdeal]
    simp only [u, wholeQueued, hdeal, if_false, hk, streamAppend]
    refine ⟨rfl, streamRec_modStream _ _ _ _ _, ?_, ?_⟩
    · simp [Stream.buf]
    · simp

/-- The elements of a striped tensor that consumer `k` gets. -/
def shareOf (g : Nat → Nat) (es : List Elem) (k : Nat) : List Elem := (es.zipIdx.filter fun q => g q.2 = k).map (·.1)

/-- Its words, after their header. -/
def shareWords (s : State) (c : Nat) (r : StreamRec) (h : THdr) (f : Fmt) (g : Nat → Nat) (es : List Elem)
    (hpoison : Bool) (k : Nat) : List SWord :=
  hdrSWord (shareHeader (stripedWindow s c r).isSome h (shareOf g es k).length) hpoison ::
    packTensor f (shareOf g es k)

/-- The shares of a striped tensor wait at its consumers. -/
def sharesQueued (s : State) (c i : Nat) (r : StreamRec) (ws : Nat → List SWord) : State :=
  (List.range r.consumers.length).foldl (fun s k => streamAppend s c i k (ws k)) s

theorem sharesQueued_facts (s : State) (c i : Nat) {r : StreamRec} (ws : Nat → List SWord) {j : Nat}
    (hj : j < r.consumers.length) :
    let u := sharesQueued s c i r ws
    u.cores = s.cores ∧ streamRec (u.ctx c) i = streamRec (s.ctx c) i ∧
      (u.stream c i).buf j = (s.stream c i).buf j ∧
      tgetD (u.stream c i).wait j [] = tgetD (s.stream c i).wait j [] ++ ws j := by
  obtain ⟨hbuf, hcores, hwait, hrec⟩ := fold_append c i ws (List.range r.consumers.length) s List.nodup_range
  exact ⟨hcores, hrec i, hbuf j, (hwait j).trans (if_pos (List.mem_range.2 hj))⟩

section
variable {s : State} {c i : Nat} {r : StreamRec} (hrec : streamRec (s.ctx c) i = some r) (h : THdr) (f : Fmt)
  (es : List Elem) (hpoison : Bool)
include hrec

theorem streamPush_whole (hshare : stripeMap s c r h = none) : streamPush s c i h f es hpoison =
    (pump (wholeQueued s c i r (hdrSWord h hpoison :: packTensor f es)) c i, true) := by
  simp only [streamPush, hrec, hshare, wholeQueued]
  split <;> rfl

variable {g : Nat → Nat} (hshare : stripeMap s c r h = some g)
include hshare

theorem streamPush_unshaped (hshaped : h.shaped = false) : streamPush s c i h f es hpoison = (s, false) := by
  simp [streamPush, hrec, hshare, hshaped]

theorem streamPush_shares (hshaped : h.shaped = true) : streamPush s c i h f es hpoison =
    (pump (sharesQueued s c i r (shareWords s c r h f g es hpoison)) c i, true) := by
  simp only [streamPush, hrec, hshare, hshaped]
  rfl

end

/-- A stream with shares is a stripe. -/
theorem fanout_of_stripeMap {s : State} {c : Nat} {r : StreamRec} {h : THdr} {g : Nat → Nat}
    (hshare : stripeMap s c r h = some g) : r.fanout = 3 := by
  by_contra hfanout
  rw [stripeMap, if_pos hfanout] at hshare
  cases hshare

theorem waitingPlace_of_stripeMap {s : State} {c : Nat} {r : StreamRec} {h : THdr} {g : Nat → Nat} {j : Nat}
    (hmap : stripeMap s c r h = some g) : waitingPlace r j = j :=
  if_neg (by rw [fanout_of_stripeMap hmap]; decide)

section
variable {s u : State} {c : Nat} (hctx : u.ctx c = s.ctx c) (hstage : ∀ n, (u.core n).stage = (s.core n).stage)
include hctx hstage

theorem stripedWindow_congr (r : StreamRec) : stripedWindow u c r = stripedWindow s c r := by
  simp only [stripedWindow, hctx, hstage]

/-- The shares of a tensor depend on the stages and on the shape in its header alone. -/
theorem stripeMap_congr (r : StreamRec) {h h' : THdr} (hc : h'.c = h.c) (hw : h'.w = h.w) (hh : h'.h = h.h) :
    stripeMap u c r h' = stripeMap s c r h := by
  have hmember : consumerMember u c r = consumerMember s c r := by
    funext k
    simp only [consumerMember, hctx, hstage]
  simp only [stripeMap, stripedWindow_congr hctx hstage, hmember, hc, hw, hh]

end

/-! ### TENSOR_HEADER_EMIT (05 R185 to R187) -/

theorem exec_tensorHeaderEmit {core p : Nat} (hcore : core < nCores) (hp : p < 4) (s : State) :
    exec (.tensorHeaderEmit core p) s = .next (emitHead s core p) :=
  withUnit_of (by simp [hcore, hp])

/-- The header of a tensor at an output port. -/
def portHeader (s : State) (core p : Nat) (r : StreamRec) (t : OutTensor) (scale : F32) : THdr :=
  ⟨t.length, scale, r.format, t.flags, t.c, t.w, t.h, t.sample, ((s.core core).outPort p).use.toNat⟩

/-- The shares of the tensor where its stream is a stripe. -/
def portShare (s : State) (core p : Nat) (r : StreamRec) (t : OutTensor) : Option (Nat → Nat) :=
  stripeMap s (s.core core).stage.ctx r (portHeader s core p r t F32.one)

/-- What the endpoint makes of the tensor. -/
def portEmission (s : State) (core p : Nat) (rec' : StageRec) (r : StreamRec) (t : OutTensor) (f : Fmt) : Emission :=
  let x := s.ctx (s.core core).stage.ctx
  emitUse f (rec'.mode = 5) (rec'.scales.getD p ⟨F32.one, false, false⟩)
    (srDraw (jobSeed x) (BitVec.ofNat 32 (x.rank.toNat * 65536 + rec'.lcore * 4 + p)) x.step.jobStep)
    ((portShare s core p r t).getD fun _ => 0) ((s.core core).outPort p) (s.epCtr core (4 + p)) t

/-- An empty tensor whose header was poisoned. -/
def emptyPoisoned (t : OutTensor) : Bool := t.hpoison && decide (t.length = 0)

/-- The counters of the endpoint after the use: the header words of such a tensor count as poisoned. -/
def portCounted (s : State) (core p : Nat) (rec' : StageRec) (r : StreamRec) (t : OutTensor) (f : Fmt) : EpCtr :=
  let e := portEmission s core p rec' r t f
  if emptyPoisoned t then e.ctr.addPoison (if (portShare s core p r t).isSome then r.consumers.length else 1)
  else e.ctr

/-- The endpoint has been used for the tensor. -/
def portUsed (s : State) (core p : Nat) (rec' : StageRec) (r : StreamRec) (t : OutTensor) (f : Fmt) : State :=
  (s.modCore core fun c => { c with out := tset c.out p (portEmission s core p rec' r t f).port }).modEp core (4 + p)
    fun _ => portCounted s core p rec' r t f

theorem portUsed_facts (s : State) (core p : Nat) (rec' : StageRec) (r : StreamRec) (t : OutTensor) (f : Fmt) :
    let u := portUsed s core p rec' r t f
    CoresBut core s u ∧ (∀ n, (u.core n).stage = (s.core n).stage) ∧ u.ctxs = s.ctxs ∧
      (u.core core).outPort p = (portEmission s core p rec' r t f).port ∧
      u.epCtr core (4 + p) = portCounted s core p rec' r t f := by
  intro u
  have hu : u = s.modCore core fun c => { c with
      out := tset c.out p (portEmission s core p rec' r t f).port
      ctrs := tmod c.ctrs (4 + p) EpCtr.zero fun _ => portCounted s core p rec' r t f } := by
    simp only [u, portUsed, State.modEp, modCore_modCore]
  rw [hu]
  refine ⟨coresBut_modCore _ _ _, fun n => ?_, rfl, ?_, ?_⟩
  · by_cases hn : n = core
    · rw [hn, core_modCore_self]
    · rw [core_modCore_other _ _ _ _ hn]
  · rw [core_modCore_self]
    exact tgetD_tset_self _ _ _ _
  · rw [State.epCtr, core_modCore_self, tgetD_tmod_self]

theorem streamRec_of_bound {s : State} {core q i : Nat} {r : StreamRec} (hbound : boundStream s core q = some (i, r)) :
    streamRec (s.ctx (s.core core).stage.ctx) i = some r := by
  obtain ⟨st, -, hst⟩ := Option.bind_eq_some_iff.1 hbound
  obtain ⟨j, -, hj⟩ := Option.bind_eq_some_iff.1 hst
  obtain ⟨r', hr', h⟩ := Option.map_eq_some_iff.1 hj
  cases h
  exact hr'

section
variable {s : State} {core p i : Nat} {r : StreamRec} (hbound : boundStream s core (4 + p) = some (i, r))
  (rec' : StageRec) (t : OutTensor) (f : Fmt)
include hbound

theorem streamRec_portUsed :
    streamRec ((portUsed s core p rec' r t f).ctx (s.core core).stage.ctx) i = some r := by
  obtain ⟨-, -, hctxs, -⟩ := portUsed_facts s core p rec' r t f
  rw [ctx_of hctxs, streamRec_of_bound hbound]

end

/-- The use of the endpoint leaves the shares of its tensor. -/
theorem stripeMap_portUsed (s : State) (core p : Nat) (rec' : StageRec) (r : StreamRec) (t : OutTensor) (f : Fmt) :
    stripeMap (portUsed s core p rec' r t f) (s.core core).stage.ctx r
      (portHeader s core p r t (portEmission s core p rec' r t f).scale) = portShare s core p r t := by
  obtain ⟨-, hstage, hctxs, -⟩ := portUsed_facts s core p rec' r t f
  exact stripeMap_congr (ctx_of hctxs _) hstage r rfl rfl rfl

/-- What a port that has sent its tensor leaves: its place at the head is free, its use counts, and its stream has the
words `ws` for consumer `j`. -/
def TensorSent (s s' : State) (core p i : Nat) (rec' : StageRec) (r : StreamRec) (t : OutTensor) (f : Fmt) (j : Nat)
    (ws : List SWord) : Prop :=
  let c := (s.core core).stage.ctx
  CoresMoved core s s' ∧ (s'.core core).outPort p = (portEmission s core p rec' r t f).port ∧
    s'.epCtr core (4 + p) = portCounted s core p rec' r t f ∧
    wordsFor (s'.stream c i) j (waitingPlace r j) =
      ((s.stream c i).buf j).words ++ (tgetD (s.stream c i).wait (waitingPlace r j) [] ++ ws)

/-- A state in which the words of a tensor wait sends it once they move into the buffers. -/
theorem tensorSent_pump {s v : State} {core p i j : Nat} {r : StreamRec} (rec' : StageRec) (t : OutTensor) (f : Fmt)
    {ws : List SWord} (hbound : boundStream s core (4 + p) = some (i, r)) (hj : j < r.consumers.length)
    (hqueued : let u := portUsed s core p rec' r t f
      let c := (s.core core).stage.ctx
      v.cores = u.cores ∧ streamRec (v.ctx c) i = streamRec (u.ctx c) i ∧
        (v.stream c i).buf j = (u.stream c i).buf j ∧
        tgetD (v.stream c i).wait (waitingPlace r j) [] = tgetD (u.stream c i).wait (waitingPlace r j) [] ++ ws) :
    TensorSent s (pump v (s.core core).stage.ctx i) core p i rec' r t f j ws := by
  obtain ⟨hcores, hrec, hbuf, hwait⟩ := hqueued
  obtain ⟨hbut, -, hctxs, hport, hctr⟩ := portUsed_facts s core p rec' r t f
  have hmoved (n : Nat) : Moved ((portUsed s core p rec' r t f).core n)
      ((pump v (s.core core).stage.ctx i).core n) := by
    rw [← core_of hcores n]
    exact moved_pump v _ _ n
  have hstream : (portUsed s core p rec' r t f).stream (s.core core).stage.ctx i =
      s.stream (s.core core).stage.ctx i := by
    rw [State.stream, ctx_of hctxs, State.stream]
  rw [hstream] at hbuf hwait
  refine ⟨fun n hn => ?_, ?_, ?_, ?_⟩
  · rw [← hbut n hn]
    exact hmoved n
  · rw [Core.outPort, (hmoved core).out, ← Core.outPort, hport]
  · rw [State.epCtr, (hmoved core).ctrs, ← State.epCtr, hctr]
  · exact wordsFor_pump (hrec.trans (streamRec_portUsed hbound rec' t f)) hj hbuf hwait

section
variable {s : State} {core p i : Nat} {rec' : StageRec} {r : StreamRec} {t : OutTensor} {rest : List OutTensor}
  (hinfo : (s.core core).stage.info = some rec') (hbound : boundStream s core (4 + p) = some (i, r))
  (houts : ((s.core core).outPort p).outs = t :: rest) (hcomplete : t.complete = true)
include hinfo hbound houts hcomplete

theorem emitHead_tooLong (hlong : r.maxLen < t.length) : emitHead s core p = stopStage s core .tensorLength 0 := by
  simp [emitHead, hinfo, hbound, houts, hcomplete, hlong]

variable (hlength : t.length ≤ r.maxLen)
include hlength

/-- A discarding leaf drops the tensor (08 R320). -/
theorem emitHead_drops (hskip : (tgetD (s.core core).leafSkips p []).contains ((s.core core).outPort p).stepNo = true) :
    emitHead s core p = s.modCore core fun c => { c with out := tmod c.out p OutPort.empty fun o =>
      { o with outs := o.outs.drop 1, dropped := o.dropped + 1, stepNo := o.stepNo + 1 } } := by
  simp only [emitHead, hinfo, hbound, houts, hcomplete, hskip]
  rw [if_neg (by simp), if_neg (Nat.not_lt.2 hlength), if_pos trivial]

variable (hskip : (tgetD (s.core core).leafSkips p []).contains ((s.core core).outPort p).stepNo = false) {f : Fmt}
  (hfmt : fmtOf r.format = some f)
include hskip hfmt

theorem emitHead_eq : emitHead s core p =
    let e := portEmission s core p rec' r t f
    let u := portUsed s core p rec' r t f
    let pushed := streamPush u (s.core core).stage.ctx i (portHeader s core p r t e.scale) f e.elems (emptyPoisoned t)
    if pushed.2 then pushed.1 else stopStage u core .shapeMissing 0 := by
  simp only [emitHead, hinfo, hbound, houts, hcomplete, hskip, hfmt]
  rw [if_neg (by simp), if_neg (Nat.not_lt.2 hlength), if_neg (by simp)]
  rfl

/-- A stripe that finds its tensor unshaped stops the stage. -/
theorem emitHead_unshaped (hshare : (portShare s core p r t).isSome = true)
    (hshaped : (portHeader s core p r t F32.one).shaped = false) :
    emitHead s core p = stopStage (portUsed s core p rec' r t f) core .shapeMissing 0 := by
  obtain ⟨g, hg⟩ := Option.isSome_iff_exists.1 hshare
  have hpush := streamPush_unshaped (streamRec_portUsed hbound rec' t f) _ f
    (portEmission s core p rec' r t f).elems (emptyPoisoned t) ((stripeMap_portUsed s core p rec' r t f).trans hg) hshaped
  rw [emitHead_eq hinfo hbound houts hcomplete hlength hskip hfmt]
  dsimp only
  rw [hpush, if_neg Bool.false_ne_true]

variable {j : Nat} (hj : j < r.consumers.length)
include hj

/-- A whole tensor reaches every consumer of a broadcast, the only one of a single stream, or the one whose turn it
is. -/
theorem emitHead_whole (hshare : portShare s core p r t = none) (hplace : r.fanout = 1 ∨
    j = if r.fanout = 2 then (s.stream (s.core core).stage.ctx i).turn else 0) :
    let e := portEmission s core p rec' r t f
    TensorSent s (emitHead s core p) core p i rec' r t f j
      (hdrSWord (portHeader s core p r t e.scale) (emptyPoisoned t) :: packTensor f e.elems) := by
  intro e
  obtain ⟨-, -, hctxs, -⟩ := portUsed_facts s core p rec' r t f
  have hpush := streamPush_whole (streamRec_portUsed hbound rec' t f) _ f e.elems (emptyPoisoned t)
    ((stripeMap_portUsed s core p rec' r t f).trans hshare)
  rw [emitHead_eq hinfo hbound houts hcomplete hlength hskip hfmt]
  dsimp only
  rw [hpush, if_pos rfl]
  refine tensorSent_pump rec' t f hbound hj (wholeQueued_facts _ ?_)
  rwa [State.stream, ctx_of hctxs, ← State.stream]

/-- Each consumer of a stripe gets its share under a header of its own. -/
theorem emitHead_shares {g : Nat → Nat} (hshare : portShare s core p r t = some g)
    (hshaped : (portHeader s core p r t F32.one).shaped = true) :
    let e := portEmission s core p rec' r t f
    TensorSent s (emitHead s core p) core p i rec' r t f j (shareWords s (s.core core).stage.ctx r
      (portHeader s core p r t e.scale) f g e.elems (emptyPoisoned t) j) := by
  intro e
  obtain ⟨-, hstage, hctxs, -⟩ := portUsed_facts s core p rec' r t f
  have hpush := streamPush_shares (streamRec_portUsed hbound rec' t f) _ f e.elems (emptyPoisoned t)
    ((stripeMap_portUsed s core p rec' r t f).trans hshare) hshaped
  have hwords : shareWords (portUsed s core p rec' r t f) (s.core core).stage.ctx =
      shareWords s (s.core core).stage.ctx := by
    funext
    simp only [shareWords, stripedWindow_congr (ctx_of hctxs (s.core core).stage.ctx) hstage]
  rw [emitHead_eq hinfo hbound houts hcomplete hlength hskip hfmt]
  dsimp only
  rw [hpush, if_pos rfl, hwords]
  refine tensorSent_pump rec' t f hbound hj ?_
  rw [waitingPlace_of_stripeMap hshare]
  exact sharesQueued_facts _ _ _ _ hj

end

end Sys2Proof.Laws.StreamTensors

namespace Sys2Proof.Claims

open Sys2Proof.Laws.StreamWords Sys2Proof.Laws.StreamTensors in
/-- Settles O17. A word that crosses has left its buffer (`streamWord_crosses`), and what the port does with it is the
lemma `takeWord_data`, `takeWord_header` or `takeWord_stops`; a tensor leaves its port as `emitHead_whole` or
`emitHead_shares` says, `TensorSent` holding what its port and its stream then are. That no word moves between HALT and
RESUME is log entry 63. -/
theorem wordsCrossStreams : Obligations.WordsCrossStreams := by
  unfold Obligations.WordsCrossStreams
  refine ⟨fun s c i k core ecc r e w hc hi hk hrec hconsumer hhead hkind hcore => ?_,
    fun s core p i rec' r t rest hcore hp hinfo hbound houts hcomplete => ?_⟩
  · intro q s1
    have hexec := exec_streamWord hc hi hk ecc s
    refine ⟨fun hheld => by rw [hexec, streamWord_held hrec hheld],
      fun hport => by rw [hexec, streamWord_refused hrec hconsumer hhead hkind hcore hport],
      fun hclean => by rw [show s1 = bufferError s c i k ecc from rfl, hclean, headUnmapped_clean],
      fun w1 st hheld hend hbuf hport hport1 hhead1 hinfo hother => ?_⟩
    intro port
    have hleft := moved_wordLeft s1 c i k r w1
    rw [streamWord_crosses hrec hconsumer hhead hkind hcore hheld hend hbuf hport hport1 hhead1] at hexec
    refine ⟨fun h f hdata hhdr hfmt => ⟨_, hexec, ?_⟩,
      fun hheader hscale hshape hskew => ⟨_, hexec, takeWord_header hleft hinfo hheader hother hscale hshape hskew⟩,
      fun hheader hbad => ⟨_, hexec, takeWord_stops hleft hinfo hheader hbad⟩⟩
    obtain ⟨hmoved, hin⟩ := takeWord_data hleft hinfo hother hdata hhdr hfmt
    refine ⟨hmoved, ?_, congrArg InPort.done hin, congrArg InPort.elems hin⟩
    exact (congrArg InPort.hdr hin).trans hhdr
  · intro c x o skip
    have hexec := exec_tensorHeaderEmit hcore hp s
    refine ⟨fun hlong => hexec.trans (congrArg _ (emitHead_tooLong hinfo hbound houts hcomplete hlong)),
      fun hlength hskip => ?_, fun f hlength hskip hfmt => ?_⟩
    · rw [emitHead_drops hinfo hbound houts hcomplete hlength hskip] at hexec
      refine ⟨_, hexec, coresBut_modCore _ _ _, fun _ _ => rfl, ?_⟩
      rw [core_modCore_self, Core.outPort, tgetD_tmod_self]
      exact congrArg (fun l => { o with outs := l, dropped := o.dropped + 1, stepNo := o.stepNo + 1 })
        (congrArg (List.drop 1) houts)
    · intro h1 share em h bad n
      have hsent {j : Nat} {ws : List SWord} (hsent : TensorSent s (emitHead s core p) core p i rec' r t f j ws) :
          CoresMoved core s (emitHead s core p) ∧ (((emitHead s core p).core core).outPort p).outs = rest ∧
          (((emitHead s core p).core core).outPort p).use = o.use + 1 ∧
          (emitHead s core p).epCtr core (4 + p) = (if bad then em.ctr.addPoison n else em.ctr) ∧
          wordsFor ((emitHead s core p).stream c i) j (waitingPlace r j) = ((s.stream c i).buf j).words ++
            (tgetD (s.stream c i).wait (waitingPlace r j) [] ++ ws) := by
        obtain ⟨hmoved, hport, hctr, hwords⟩ := hsent
        refine ⟨hmoved, ?_, ?_, hctr.trans ?_, hwords⟩
        · rw [hport]
          exact congrArg (List.drop 1) houts
        · rw [hport]
          rfl
        · change (if bad then _ else _) = _
          by_cases hbad : bad = true
          · rw [if_pos hbad, if_pos hbad]
            exact congrArg em.ctr.addPoison (if_pos hbad).symm
          · rw [if_neg hbad, if_neg hbad]
            rfl
      refine ⟨fun hshare hshaped => ?_, fun hshare j hj hplace => ⟨_, hexec, ?_⟩,
        fun g hshare hshaped j hj => ⟨_, hexec, ?_⟩⟩
      · rw [emitHead_unshaped hinfo hbound houts hcomplete hlength hskip hfmt hshare hshaped] at hexec
        obtain ⟨hbut, -⟩ := portUsed_facts s core p rec' r t f
        obtain ⟨hbut', hst, -⟩ := stopStage_facts (portUsed s core p rec' r t f) core .shapeMissing 0
        exact ⟨_, hexec, fun k hk => (hbut' k hk).trans (hbut k hk), hst⟩
      · exact hsent (emitHead_whole hinfo hbound houts hcomplete hlength hskip hfmt hj hshare hplace)
      · have hwords := hsent (emitHead_shares hinfo hbound houts hcomplete hlength hskip hfmt hj hshare hshaped)
        rwa [waitingPlace_of_stripeMap hshare] at hwords

end Sys2Proof.Claims
end

section
/-!
PROOF. Passes and staging areas of folded stages (O18): PASS_START, STAGING_FILL and STAGING_FILL_DONE.
-/

open Sys2Proof Sys2Proof.Machine Sys2Proof.Claims Sys2Proof.Laws

namespace Sys2Proof.Laws.Passes

/-! ### PASS_START (05 R199) -/

theorem exec_passStart {core : Nat} (hcore : core < nCores) (s : State) :
    exec (.passStart core) s = .next (passStart s core) :=
  withUnit_of (by simpa using hcore)

/-- A stage of several passes that has switched to the pass at its sequencer: to run 0 at once, to any other in 2
cycles. -/
def passBegun (run : Nat) (u : StageUnit) : StageUnit :=
  { u with
    area := u.seq.run % 2 = 1
    passNow := u.seq.pass
    switchLeft := if run = 0 then 0 else 2
    seq := { u.seq with active := true, block := 0, t := 0, p := 0, tile := 0 } }

section
variable {s : State} {core : Nat} {r : StageRec}
  (hinfo : (s.core core).stage.info = some r) (hst : (s.core core).stage.st = .running)
include hinfo hst

theorem passStart_waits (hfull : stagingFull (s.core core) r = false) : passStart s core = s := by
  simp [passStart, hst, startPass, hinfo, hfull]

variable (hidle : (s.core core).stage.seq.active = false) (hfull : stagingFull (s.core core) r = true)
  (hfolded : r.npassM1 ≠ 0)
include hidle hfull hfolded

theorem passStart_window (hwindow : r.isWindow = true) {t : WinTensor} (hcur : (s.core core).win.cur = some t)
    (hissued : t.issued = false) :
    passStart s core =
      s.modCore core fun c => { c with stage := passBegun (s.core core).stage.seq.run c.stage } := by
  simp [passStart, hst, startPass, hinfo, hidle, hfull, hwindow, hcur, hissued, hfolded, passBegun]

theorem passStart_matmul (hmatmul : r.isMatmul = true) (hwsrc : r.wsrc = false)
    (hhdr : ((s.core core).inPort 0).hdr.isSome = true) (hpass : (s.core core).stage.seq.pass ≠ 0) :
    passStart s core =
      s.modCore core fun c => { c with stage := passBegun (s.core core).stage.seq.run c.stage } := by
  obtain ⟨h, hh⟩ := Option.isSome_iff_exists.1 hhdr
  have hwindow : r.isWindow = false := by
    simp_all [StageRec.isMatmul, StageRec.isWindow]
  simp [passStart, hst, startPass, hinfo, hidle, hfull, hwindow, hmatmul, hwsrc, hh, hpass, hfolded, passBegun,
    modCore_modCore]

end

/-! ### STAGING_FILL (05 R196, R198) -/

theorem exec_stagingFill {core : Nat} (hcore : core < nCores) (s : State) :
    exec (.stagingFill core) s = .next (stagingFill s core) :=
  withUnit_of (by simpa using hcore)

/-- The fill of the area of run `k` begins. -/
def fillBegun (r : StageRec) (k : Nat) (u : StageUnit) : StageUnit :=
  { u with staging := tset u.staging (k % 2) ⟨k, k % r.npass, [], F32.one, 0, false⟩ }

section
variable {s : State} {core : Nat} {r : StageRec}
  (hinfo : (s.core core).stage.info = some r) (hst : (s.core core).stage.st = .running)
  (hactive : (s.core core).stage.seq.active = true) (hfolded : r.npassM1 ≠ 0)
  (hpasses : (s.core core).stage.passes ≠ [])
include hinfo hst hactive hfolded hpasses

theorem stagingFill_waits {g : Staging}
    (hg : tget (s.core core).stage.staging (((s.core core).stage.seq.run + 1) % 2) = some g)
    (hbusy : g.run = (s.core core).stage.seq.run + 1 ∨ g.full = false) : stagingFill s core = s := by
  simp [stagingFill, hinfo, hst, hactive, hfolded, hpasses, hg, hbusy]

theorem stagingFill_begins
    (hfree : ∀ g, tget (s.core core).stage.staging (((s.core core).stage.seq.run + 1) % 2) = some g →
      g.full = true ∧ g.run ≠ (s.core core).stage.seq.run + 1) :
    stagingFill s core =
      s.modCore core fun c => { c with stage := fillBegun r ((s.core core).stage.seq.run + 1) c.stage } := by
  cases hg : tget (s.core core).stage.staging (((s.core core).stage.seq.run + 1) % 2) with
  | none => simp [stagingFill, hinfo, hst, hactive, hfolded, hpasses, hg, fillBegun, passOfRun]
  | some g =>
    obtain ⟨hfull, hrun⟩ := hfree g hg
    simp [stagingFill, hinfo, hst, hactive, hfolded, hpasses, hg, hfull, hrun, fillBegun, passOfRun]

end

/-! ### STAGING_FILL_DONE (06 R250, 05 R197) -/

theorem exec_stagingFillDone {core : Nat} (hcore : core < nCores) (s : State) :
    exec (.stagingFillDone core) s = .next (settle s (stagingFillDone s core)) :=
  withUnit_of (by simpa using hcore)

/-- What settles after a command leaves every core. -/
theorem core_settle (before after : State) (n : Nat) : (settle before after).core n = after.core n :=
  core_of ((touches_settle before after).2 .cores (by decide)) n

/-- The staging area `a` is full, with the SCALEB of its pass; that of run 0 makes a loading stage READY. -/
def fillEnded (a : Nat) (g : Staging) (scaleb : F32) (u : StageUnit) : StageUnit :=
  { u with
    staging := tset u.staging a { g with full := true, scaleB := scaleb }
    st := if u.st = .config && g.run = 0 then .ready else u.st }

theorem stagingFillDone_ends {s : State} {core a : Nat} {g : Staging} {d : PfDesc}
    (hfind : ((s.core core).stage.staging.find? fun g => !g.2.full &&
      g.2.arrived = passWords (s.core core) g.2.pass) = some (a, g))
    (hdesc : passDesc (s.core core).stage g.pass = some d) :
    stagingFillDone s core = s.modCore core fun c => { c with stage := fillEnded a g d.scaleb c.stage } :=
  modCore_congr (by simp [hfind, hdesc, fillEnded])

end Sys2Proof.Laws.Passes

namespace Sys2Proof.Claims

open Sys2Proof.Laws.Passes in
/-- Settles O18. A pass begins as `passBegun` says, for a window (`passStart_window`) and for a MATMUL
(`passStart_matmul`); a fill begins as `fillBegun` and ends as `fillEnded` says, and what settles after its end leaves
every core (`core_settle`). -/
theorem passesAndStaging : Obligations.PassesAndStaging := by
  unfold Obligations.PassesAndStaging
  refine ⟨fun s core r hcore hinfo hst hidle => ⟨fun hfull => ?_, fun hfull hfolded hstarts => ?_⟩,
    fun s core r hcore hinfo hst hactive hfolded hpasses => ?_, fun s core a g d hcore hfind hdesc => ?_⟩
  · exact (exec_passStart hcore s).trans (congrArg _ (passStart_waits hinfo hst hfull))
  · refine (exec_passStart hcore s).trans (congrArg _ ?_)
    obtain ⟨hwindow, t, hcur, hissued⟩ | ⟨hmatmul, hwsrc, hhdr, hpass⟩ := hstarts
    · exact passStart_window hinfo hst hidle hfull hfolded hwindow hcur hissued
    · exact passStart_matmul hinfo hst hidle hfull hfolded hmatmul hwsrc hhdr hpass
  · have hexec := exec_stagingFill hcore s
    exact ⟨fun g hg hbusy => hexec.trans (congrArg _ (stagingFill_waits hinfo hst hactive hfolded hpasses hg hbusy)),
      fun hfree => hexec.trans (congrArg _ (stagingFill_begins hinfo hst hactive hfolded hpasses hfree))⟩
  · refine ⟨_, exec_stagingFillDone hcore s, fun k hk => ?_, ?_⟩
    · rw [core_settle, stagingFillDone, core_modCore_other _ _ _ _ hk]
    · rw [core_settle, stagingFillDone_ends hfind hdesc, core_modCore_self]
      refine ⟨tget_tset_self _ _ _, fun b hb => tget_tset_other _ _ _ _ hb, rfl, rfl, fun hconfig hrun => ?_,
        fun hrun => ?_⟩
      · simp [fillEnded, hconfig, hrun]
      · simp [fillEnded, hrun]

end Sys2Proof.Claims
end

section
/-!
PROOF. Stalls, wedged stages and the escape of full buffers (O19): STALL_CYCLE, WEDGED, WEDGED_REPORT and
ESCAPE_CONFIRM.
-/

open Sys2Proof Sys2Proof.Machine Sys2Proof.Claims Sys2Proof.Laws Sys2Proof.Laws.Streams

namespace Sys2Proof.Laws.Stalls

/-! ### STALL_CYCLE (05 R206, R207) -/

theorem exec_stallCycle {core : Nat} (hcore : core < nCores) (advanced : Bool) (timed : BitVec 12) (s : State) :
    exec (.stallCycle core advanced timed) s = .next (stallCycle s core advanced timed) :=
  withUnit_of (by simpa using hcore)

/-- The cause of a cycle is one of the table, which the state or only time shows. -/
theorem stallOf_holds {s : State} {core k : Nat} {timed : BitVec 12} (h : stallOf s core timed = some k) :
    k ∈ stallPriority ∧ (k ∈ stallCauses s core ∨ (timed &&& timedCauses).getLsbD k = true) := by
  refine ⟨List.mem_of_find?_eq_some h, ?_⟩
  simpa using List.find?_some h

/-- The counters of a running stage after a cycle: active where it has no cause, or stalled under its cause. -/
def cycleCounted (cause : Option Nat) (u : StageUnit) : StageUnit :=
  match cause with
  | none => { u with activeCycles := u.activeCycles + 1, outFullRun := 0, switchLeft := u.switchLeft - 1 }
  | some k => { u with
      stalls := tset u.stalls k (tgetD u.stalls k 0 + 1)
      outFullRun := if k = 1 then u.outFullRun + 1 else 0
      switchLeft := u.switchLeft - 1 }

/-- A core after a cycle: the rows of its drain unit have come one cycle nearer. -/
def cycleTaken (cause : Option Nat) (c : Core) : Core :=
  { c with
    arr := { c.arr with drainWait := c.arr.drainWait - 1 }
    stage := if c.stage.st = .running then cycleCounted cause c.stage else c.stage }

/-- A cycle leaves the state, the mark WEDGED and the sequencer of the stage; that of a running stage counts once. -/
theorem cycleTaken_stage (cause : Option Nat) (c : Core) :
    let a := c.stage
    let b := (cycleTaken cause c).stage
    b.st = a.st ∧ b.wedged = a.wedged ∧ b.seq = a.seq ∧ (a.st ≠ .running → b = a) ∧
      (a.st = .running → b.switchLeft = a.switchLeft - 1 ∧
        (cause = none → b.activeCycles = a.activeCycles + 1 ∧ b.stalls = a.stalls ∧ b.outFullRun = 0) ∧
        (∀ k, cause = some k → b.activeCycles = a.activeCycles ∧ tgetD b.stalls k 0 = tgetD a.stalls k 0 + 1 ∧
          (∀ j, j ≠ k → tgetD b.stalls j 0 = tgetD a.stalls j 0) ∧
          b.outFullRun = if k = 1 then a.outFullRun + 1 else 0)) := by
  intro a b
  by_cases hst : a.st = .running
  · have hb : b = cycleCounted cause a := if_pos hst
    rw [hb]
    cases cause with
    | none => exact ⟨rfl, rfl, rfl, fun h => absurd hst h, fun _ => ⟨rfl, fun _ => ⟨rfl, rfl, rfl⟩, nofun⟩⟩
    | some k =>
      refine ⟨rfl, rfl, rfl, fun h => absurd hst h, fun _ => ⟨rfl, nofun, ?_⟩⟩
      rintro _ ⟨⟩
      exact ⟨rfl, tgetD_tset_self _ _ _ _, fun j hj => tgetD_tset_other _ _ _ _ _ hj, rfl⟩
  · have hb : b = a := if_neg hst
    rw [hb]
    exact ⟨rfl, rfl, rfl, fun _ => rfl, fun h => absurd h hst⟩

/-- The cause under which a cycle counts: none while the stage advances and no switch is under way. -/
def causeOf (s : State) (core : Nat) (advanced : Bool) (timed : BitVec 12) : Option Nat :=
  if advanced && (s.core core).stage.switchLeft = 0 then none else stallOf s core timed

theorem stallCycle_eq (s : State) (core : Nat) (advanced : Bool) (timed : BitVec 12) :
    stallCycle s core advanced timed = s.modCore core (cycleTaken (causeOf s core advanced timed)) := by
  unfold stallCycle
  extract_lets cause
  rw [show causeOf s core advanced timed = cause from rfl]
  clear_value cause
  refine modCore_congr ?_
  by_cases hst : (s.core core).stage.st = .running
  · cases cause <;> simp [hst, cycleTaken, cycleCounted]
  · simp [hst, cycleTaken]

/-! ### WEDGED (05 R210) -/

theorem exec_wedged {core : Nat} (hcore : core < nCores) (s : State) :
    exec (.wedged core) s = .next (wedge s core) :=
  withUnit_of (by simpa using hcore)

/-- A stage has set WEDGED and sent its report, which replaces its older one at the detector. -/
def wedgeReported (s : State) (core i k : Nat) : State :=
  let n := (s.core core).stage.wedgedReports + 1
  (s.modCore core fun c => { c with stage := { c.stage with wedged := true, wedgedReports := n } }).modShelf (core / 12)
    fun x => { x with reports := (x.reports.filter fun v => v.core ≠ core) ++ [⟨core, i, k, n⟩] }

theorem wedge_waits {s : State} {core : Nat} (hrun : (s.core core).stage.outFullRun < 65536) : wedge s core = s :=
  if_pos (by simp [hrun])

theorem wedge_reports {s : State} {core i k : Nat} (hst : (s.core core).stage.st = .running)
    (hwedged : (s.core core).stage.wedged = false) (hrun : 65536 ≤ (s.core core).stage.outFullRun)
    (hfull : fullOutput s core = some (i, k)) : wedge s core = wedgeReported s core i k := by
  simp [wedge, hst, hwedged, Nat.not_lt.2 hrun, hfull, wedgeReported]

/-! ### WEDGED_REPORT (05 R211, R212) -/

theorem exec_wedgedReport {sh : Nat} (hsh : sh < nShelves) (s : State) :
    exec (.wedgedReport sh) s = .next (wedgedReport s sh) :=
  withUnit_of (by simpa using hsh)

/-- A cycle that a detector finds is its own to act on. -/
theorem lowestCore_of_cycleFor {s : State} {sh : Nat} {w : Wedge} {cyc : List Wedge}
    (h : cycleFor s sh w = some cyc) : lowestCore cyc / 12 = sh := by
  unfold cycleFor at h
  split at h
  · cases h
  · obtain ⟨cyc', -, hcyc⟩ := Option.bind_eq_some_iff.1 h
    split at hcyc
    · cases hcyc
      assumption
    · cases hcyc

section
variable {s : State} {sh : Nat}

theorem wedgedReport_confirming (h : (s.shelf sh).confirming.isSome = true) : wedgedReport s sh = s := if_pos h

theorem wedgedReport_noCycle (h : ∀ w ∈ (s.shelf sh).reports, cycleFor s sh w = none) : wedgedReport s sh = s := by
  have hnone : (s.shelf sh).reports.findSome? (cycleFor s sh) = none := by simpa using h
  simp [wedgedReport, hnone]

theorem wedgedReport_confirms {cyc : List Wedge} {w : Wedge} (hidle : (s.shelf sh).confirming = none)
    (hcycle : (s.shelf sh).reports.findSome? (cycleFor s sh) = some cyc)
    (hfirst : (s.shelf sh).reports.find? (fun w => cyc.contains w) = some w) :
    wedgedReport s sh = s.modShelf sh fun x => { x with confirming := some (cyc, w) } := by
  simp only [wedgedReport, hidle, hcycle, hfirst]
  rfl

end

/-! ### ESCAPE_CONFIRM (05 R212 to R214) -/

theorem exec_escapeConfirm {sh : Nat} (hsh : sh < nShelves) (s : State) :
    exec (.escapeConfirm sh) s = .next (escapeConfirm s sh) :=
  withUnit_of (by simpa using hsh)

/-- The cores of a cycle, the lowest first. -/
def cycleCores (cyc : List Wedge) : List Nat := (List.range nCores).filter fun n => cyc.any fun v => v.core = n

theorem mem_cycleCores {cyc : List Wedge} {v : Wedge} (hv : v ∈ cyc) (hcore : v.core < nCores) :
    v.core ∈ cycleCores cyc :=
  List.mem_filter.2 ⟨List.mem_range.2 hcore, List.any_eq_true.2 ⟨v, hv, by simp⟩⟩

/-- The stages of a cycle stop, and the confirmation is over. -/
def cycleStopped (s : State) (sh : Nat) (cyc : List Wedge) : State :=
  (cycleCores cyc).foldl (fun s n => stopStage s n .deadlockUnresolved 0)
    (s.modShelf sh fun x => { x with confirming := none })

/-- The detector that has moved a buffer into its escape region. -/
def escapeCounted (w : Wedge) (x : Shelf) : Shelf :=
  { x with confirming := none, escapes := x.escapes + 1, reports := x.reports.filter fun v => v ≠ w }

/-- The chosen buffer stands in the escape region, and each stage of the cycle counts one cycle of its spill. -/
def cycleSpilled (s : State) (sh c : Nat) (cyc : List Wedge) (w : Wedge) (r : StreamRec) : State :=
  cyc.foldl (fun s v => s.modCore v.core (spilled v))
    ((s.modShelf sh (escapeCounted w)).modStream c w.stream (escapeBuffer r w.consumer sh))

section
variable {s : State} {sh : Nat} {cyc : List Wedge} {w : Wedge} {r : StreamRec}
  (hconfirm : (s.shelf sh).confirming = some (cyc, w))
  (hrec : streamRec (s.ctx (s.core w.core).stage.ctx) w.stream = some r)
include hconfirm hrec

theorem escapeConfirm_eq : escapeConfirm s sh =
    if cyc.any fun v => !stillWedged s v then
      s.modShelf sh fun x => { x with confirming := none, cancels := x.cancels + 1 }
    else if (s.shelf sh).escapeSize.toNat * 8 <
        escapeUsed s sh + bufUsed r (s.stream (s.core w.core).stage.ctx w.stream) w.consumer then cycleStopped s sh cyc
    else pump (cycleSpilled s sh (s.core w.core).stage.ctx cyc w r) (s.core w.core).stage.ctx w.stream := by
  simp only [escapeConfirm, hconfirm, hrec, modShelf_modShelf]
  rfl

theorem escapeConfirm_cancels (hmoved : ∃ v ∈ cyc, stillWedged s v = false) :
    escapeConfirm s sh = s.modShelf sh fun x => { x with confirming := none, cancels := x.cancels + 1 } := by
  rw [escapeConfirm_eq hconfirm hrec, if_pos (by simpa using hmoved)]

variable (hwedged : ∀ v ∈ cyc, stillWedged s v = true)
include hwedged

theorem escapeConfirm_stops (hsmall : (s.shelf sh).escapeSize.toNat * 8 <
    escapeUsed s sh + bufUsed r (s.stream (s.core w.core).stage.ctx w.stream) w.consumer) :
    escapeConfirm s sh = cycleStopped s sh cyc := by
  rw [escapeConfirm_eq hconfirm hrec, if_neg (by simpa using hwedged), if_pos hsmall]

theorem escapeConfirm_moves (hroom : escapeUsed s sh + bufUsed r (s.stream (s.core w.core).stage.ctx w.stream)
    w.consumer ≤ (s.shelf sh).escapeSize.toNat * 8) :
    escapeConfirm s sh =
      pump (cycleSpilled s sh (s.core w.core).stage.ctx cyc w r) (s.core w.core).stage.ctx w.stream := by
  rw [escapeConfirm_eq hconfirm hrec, if_neg (by simpa using hwedged), if_neg (Nat.not_lt.2 hroom)]

end

theorem cycleStopped_facts (s : State) (sh : Nat) (cyc : List Wedge) :
    ((cycleStopped s sh cyc).shelf sh).confirming = none ∧
      ∀ v ∈ cyc, v.core < nCores → ((cycleStopped s sh cyc).core v.core).stage.st = .stopped := by
  refine ⟨?_, fun v hv hcore => stops _ _ _ _ (.inl (mem_cycleCores hv hcore))⟩
  have hshelves := stops_shelves (cycleCores cyc) .deadlockUnresolved (s.modShelf sh fun x =>
    { x with confirming := none })
  rw [cycleStopped, State.shelf, hshelves, ← State.shelf, shelf_modShelf_self]

section
variable (s : State) (sh c : Nat) (cyc : List Wedge) (w : Wedge) (r : StreamRec)

theorem shelf_cycleSpilled : (cycleSpilled s sh c cyc w r).shelf sh = escapeCounted w (s.shelf sh) := by
  obtain ⟨-, hshelves⟩ := foldl_modCore_other' spilled cyc
    ((s.modShelf sh (escapeCounted w)).modStream c w.stream (escapeBuffer r w.consumer sh))
  rw [cycleSpilled, State.shelf, hshelves]
  exact shelf_modShelf_self s sh _

theorem ctx_cycleSpilled (k : Nat) : (cycleSpilled s sh c cyc w r).ctx k =
    (s.modStream c w.stream (escapeBuffer r w.consumer sh)).ctx k := by
  obtain ⟨hctxs, -⟩ := foldl_modCore_other' spilled cyc
    ((s.modShelf sh (escapeCounted w)).modStream c w.stream (escapeBuffer r w.consumer sh))
  exact ctx_of hctxs k

theorem stream_cycleSpilled : (cycleSpilled s sh c cyc w r).stream c w.stream =
    escapeBuffer r w.consumer sh (s.stream c w.stream) := by
  rw [State.stream, ctx_cycleSpilled, ← State.stream, stream_modStream_self]

theorem stalls_cycleSpilled (hnodup : (cyc.map (·.core)).Nodup) {v : Wedge} (hv : v ∈ cyc) :
    tgetD ((cycleSpilled s sh c cyc w r).core v.core).stage.stalls 11 0 =
      tgetD (s.core v.core).stage.stalls 11 0 + 1 := by
  rw [cycleSpilled, foldl_modCore_mem spilled cyc _ hnodup v hv]
  exact tgetD_tset_self _ _ _ _

end

theorem shelf_pump (s : State) (c i sh : Nat) : (pump s c i).shelf sh = s.shelf sh :=
  congrArg (fun t => tgetD t sh _) ((touches_pump s c i).2 .shelves (by decide))

end Sys2Proof.Laws.Stalls

namespace Sys2Proof.Claims

open Sys2Proof.Laws.Stalls Sys2Proof.Laws.Streams in
/-- Settles O19. A cycle counts as `cycleCounted` says under the cause that `stallOf_holds` admits; a wedged stage
reports as `wedgeReported` says; a cycle of full buffers is found by the detector of its lowest core
(`lowestCore_of_cycleFor`), and its confirmation ends in one of the three ways of `escapeConfirm_eq`. The causes that
only time shows are log entry 57, and the order of reports log entry 61. -/
theorem stallsWedgesAndEscapes : Obligations.StallsWedgesAndEscapes := by
  unfold Obligations.StallsWedgesAndEscapes
  refine ⟨fun s core advanced timed hcore => ?_, fun s core i k hcore hst hwedged => ?_, fun s sh hsh => ?_,
    fun s sh cyc w r hsh hconfirm => ?_⟩
  · intro a cause
    refine ⟨fun k hk => stallOf_holds hk, _, (exec_stallCycle hcore advanced timed s).trans
      (congrArg _ (stallCycle_eq s core advanced timed)), ?_⟩
    simp only [core_modCore_self]
    obtain ⟨hst, hwedged, hseq, hidle, hruns⟩ := cycleTaken_stage cause (s.core core)
    exact ⟨coresBut_modCore _ _ _, hst, hwedged, hseq, rfl, hidle, hruns⟩
  · have hexec := exec_wedged hcore s
    refine ⟨fun hrun => hexec.trans (congrArg _ (wedge_waits hrun)), fun hrun hfull =>
      ⟨_, hexec.trans (congrArg _ (wedge_reports hst hwedged hrun hfull)), ?_⟩⟩
    simp only [wedgeReported, modShelf_core, core_modCore_self, shelf_modShelf_self, modCore_shelf]
    refine ⟨fun j hj => ?_, trivial, trivial, trivial, fun j hj => ?_⟩
    · simp [hj]
    · simp [hj]
  · have hexec := exec_wedgedReport hsh s
    refine ⟨fun h => hexec.trans (congrArg _ (wedgedReport_confirming h)),
      fun h => hexec.trans (congrArg _ (wedgedReport_noCycle h)), fun cyc w hidle hcycle hfirst => ⟨?_,
        hexec.trans (congrArg _ (wedgedReport_confirms hidle hcycle hfirst))⟩⟩
    obtain ⟨v, -, hv⟩ := List.exists_of_findSome?_eq_some hcycle
    exact lowestCore_of_cycleFor hv
  · intro c hrec used
    have hexec := exec_escapeConfirm hsh s
    refine ⟨fun hmoved => hexec.trans (congrArg _ (escapeConfirm_cancels hconfirm hrec hmoved)),
      fun hwedged hsmall => ⟨_, hexec.trans (congrArg _ (escapeConfirm_stops hconfirm hrec hwedged hsmall)),
        cycleStopped_facts s sh cyc⟩,
      fun hwedged hroom => ⟨_, hexec.trans (congrArg _ (escapeConfirm_moves hconfirm hrec hwedged hroom)), ?_⟩⟩
    have hshelf := shelf_cycleSpilled s sh c cyc w r
    refine ⟨?_, ?_, fun j hj => ?_, fun hnodup v hv => ?_⟩
    · rw [shelf_pump, hshelf, escapeCounted]
    · rw [shelf_pump, hshelf, escapeCounted]
    · have hrec' : streamRec ((cycleSpilled s sh c cyc w r).ctx c) w.stream = some r := by
        rw [ctx_cycleSpilled, streamRec_modStream, hrec]
      obtain ⟨-, hesc⟩ := pump_sum (cycleSpilled s sh c cyc w r) c w.stream r hrec' j fun hf =>
        (hj.resolve_right fun h => h.1 hf).2
      rw [hesc, stream_cycleSpilled, escape_esc _ _ _ _ _ hj]
    · rw [(moved_pump (cycleSpilled s sh c cyc w r) c w.stream v.core).stalls, stalls_cycleSpilled _ _ _ _ _ _ hnodup hv]

end Sys2Proof.Claims
end

section
/-!
PROOF. The classes GATHER, ROUTE and VECTOR (O20): GATHER_INDEX, ROUTE_TENSOR and VECTOR_ELEMENT.
-/

open Sys2Proof Sys2Proof.Machine Sys2Proof.Claims Sys2Proof.Laws Sys2Proof.Laws.Gather Sys2Proof.Laws.Suppression

namespace Sys2Proof.Laws.ValueStages

/-! ### GATHER_INDEX (05 R178) -/

theorem exec_gatherIndex {core : Nat} (hcore : core < nCores) (s : State) :
    exec (.gatherIndex core) s = .next (gatherIndex s core) :=
  withUnit_of (by simpa using hcore)

/-- The address of the table row of an index. -/
def rowAddr (core : Nat) (r : StageRec) (f : Fmt) (e : Elem) : Nat :=
  relocated r core (tableAddr r.param) + e.code.toNat * tableRowBytes f (gatherC r.param)

/-- An index names a row of the table that is to be read. -/
def readsRow (r : StageRec) (e : Elem) : Bool := !e.poison && !decide (gatherRows r.param ≤ e.code.toNat)

/-- The tensor of rows begins with the first index. -/
def rowsBegun (s : State) (core : Nat) (r : StageRec) (h : THdr) : State :=
  if (s.core core).vecPos = 0 then
    beginOut s core 0 ⟨h.length * gatherC r.param, gatherC r.param, h.length, 1, h.sample, flagShaped,
      ((s.core core).inPort 0).hpoison, []⟩
  else s

/-- The values of an index stand behind those of the index before, `beyond` indices being counted as out of range; the
last index lets the input go. -/
def rowEmitted (s : State) (core : Nat) (r : StageRec) (h : THdr) (vs : List OVal) (beyond : BitVec 32) : State :=
  let v := (s.core core).vecPos
  let s1 := rowsBegun s core r h
  let s2 := (putVals s1 core 0 (nextOutSeq (s1.core core) 0 - 1) (gatherC r.param * v) vs).modCore core fun c => { c with
    vecPos := if v + 1 = h.length then 0 else v + 1
    stage := { c.stage with gatherRange := c.stage.gatherRange + beyond } }
  if v + 1 = h.length then releaseIn s2 core 0 else s2

/-- The values of an index: NaN codes with poison, zero codes beyond the table, or the row's raw codes. -/
def rowValues (s : State) (core : Nat) (r : StageRec) (f : Fmt) (e : Elem) : List OVal :=
  (List.range (gatherC r.param)).map fun k =>
    if e.poison then ⟨BitVec.ofNat 256 (nanCode f), true, false, true⟩
    else if gatherRows r.param ≤ e.code.toNat then ⟨BitVec.ofNat 256 (zeroCode f), true, false, false⟩
    else let x := tableElem s.mem.mem f (rowAddr core r f e) k; ⟨x.code, true, false, x.poison⟩

section
variable {s : State} {core i : Nat} {r : StageRec} {h : THdr} {e : Elem} {st : StreamRec} {f : Fmt}
  (hinfo : (s.core core).stage.info = some r) (hhdr : ((s.core core).inPort 0).hdr = some h)
  (hbound : boundStream s core 4 = some (i, st)) (hfmt : fmtOf st.format = some f) (hclass : r.opclass = 7)
  (hst : (s.core core).stage.st = .running) (hroom : outputFull s core = false) (hlength : h.length ≠ 0)
  (helem : ((s.core core).inPort 0).elems[(s.core core).vecPos]? = some e)
include hinfo hhdr hbound hfmt hclass hst hroom hlength helem

theorem gatherIndex_eq : gatherIndex s core =
    let bytes := tableRowBytes f (gatherC r.param)
    if readsRow r e && gatherC r.param ≠ 0 && !stageReads s core (rowAddr core r f e) bytes then
      addressFault s core (rowAddr core r f e)
    else if readsRow r e && rangeStalls s (rowAddr core r f e) bytes then s
    else rowEmitted s core r h (rowValues s core r f e)
      (if !e.poison && decide (gatherRows r.param ≤ e.code.toNat) then 1 else 0) := by
  simp only [gatherIndex, hinfo, hhdr, hbound, hfmt, helem, decide_eq_true_eq]
  rw [if_neg (by simp [hclass, hst, hroom]), if_neg hlength]
  rfl

theorem gatherIndex_poisoned (hpoison : e.poison = true) : gatherIndex s core = rowEmitted s core r h
    ((List.range (gatherC r.param)).map fun _ => ⟨BitVec.ofNat 256 (nanCode f), true, false, true⟩) 0 := by
  rw [gatherIndex_eq hinfo hhdr hbound hfmt hclass hst hroom hlength helem]
  simp [readsRow, hpoison, rowValues]

variable (hclean : e.poison = false)
include hclean

theorem gatherIndex_beyond (hbeyond : gatherRows r.param ≤ e.code.toNat) : gatherIndex s core = rowEmitted s core r h
    ((List.range (gatherC r.param)).map fun _ => ⟨BitVec.ofNat 256 (zeroCode f), true, false, false⟩) 1 := by
  rw [gatherIndex_eq hinfo hhdr hbound hfmt hclass hst hroom hlength helem]
  simp [readsRow, hclean, hbeyond, rowValues]

variable (hrow : e.code.toNat < gatherRows r.param)
include hrow

theorem gatherIndex_faults (hwide : gatherC r.param ≠ 0)
    (hreads : stageReads s core (rowAddr core r f e) (tableRowBytes f (gatherC r.param)) = false) :
    gatherIndex s core = addressFault s core (rowAddr core r f e) := by
  rw [gatherIndex_eq hinfo hhdr hbound hfmt hclass hst hroom hlength helem]
  simp [readsRow, hclean, hrow, hwide, hreads]

variable (hreads : stageReads s core (rowAddr core r f e) (tableRowBytes f (gatherC r.param)) = true)
include hreads

theorem gatherIndex_waits (hstalls : rangeStalls s (rowAddr core r f e) (tableRowBytes f (gatherC r.param)) = true) :
    gatherIndex s core = s := by
  rw [gatherIndex_eq hinfo hhdr hbound hfmt hclass hst hroom hlength helem]
  simp [readsRow, hclean, hrow, hreads, hstalls]

theorem gatherIndex_reads (hruns : rangeStalls s (rowAddr core r f e) (tableRowBytes f (gatherC r.param)) = false) :
    gatherIndex s core = rowEmitted s core r h ((List.range (gatherC r.param)).map fun k =>
      let x := tableElem s.mem.mem f (rowAddr core r f e) k; ⟨x.code, true, false, x.poison⟩) 0 := by
  rw [gatherIndex_eq hinfo hhdr hbound hfmt hclass hst hroom hlength helem]
  simp [readsRow, hclean, hreads, hruns, rowValues, Nat.not_le.2 hrow]

end

/-! ### ROUTE_TENSOR that forwards (05 R186; log entry 15) -/

theorem exec_routeTensor {core : Nat} (hcore : core < nCores) (s : State) :
    exec (.routeTensor core) s = .next (routeTensor s core) :=
  withUnit_of (by simpa using hcore)

/-- The tensor at port 0 as an output: its elements, raw where they are integers or records, and its marks. -/
def forwardedTensor (p : InPort) (h : THdr) : OutTensor where
  length := p.elems.length
  c := if h.shaped then h.c else 0
  w := if h.shaped then h.w else 0
  h := if h.shaped then h.h else 0
  sample := h.sample
  flags := h.flags
  hpoison := p.hpoison
  vals := p.elems.zipIdx.map fun x => (x.2, routeVal (h.format = 8 || h.format = 9) x.1)

theorem tget_forwardedTensor (p : InPort) (h : THdr) (k : Nat) : tget (forwardedTensor p h).vals k =
    (p.elems[k]?).map fun e => ⟨e.code, h.format = 8 ∨ h.format = 9, false, e.poison⟩ := by
  have hread := tget_zipIdx (routeVal (h.format = 8 || h.format = 9)) p.elems 0 k
  rw [Nat.zero_add] at hread
  refine hread.trans (congrArg (Option.map · _) (funext fun e => ?_))
  simp [routeVal]

section
variable {s : State} {core : Nat} {r : StageRec} {h : THdr}
  (hinfo : (s.core core).stage.info = some r) (hmode : routeMode r.param = 0)
include hinfo hmode

theorem routeTensor_waits (hdone : ((s.core core).inPort 0).done = false) : routeTensor s core = s := by
  simp [routeTensor, hinfo, hmode, hdone]

variable (hhdr : ((s.core core).inPort 0).hdr = some h) (hclass : r.opclass = 8)
  (hst : (s.core core).stage.st = .running) (hroom : outputFull s core = false)
include hhdr hclass hst hroom

theorem routeTensor_forwards (hdone : ((s.core core).inPort 0).done = true) :
    routeTensor s core = emitted s core (forwardedTensor ((s.core core).inPort 0) h) id := by
  simp [routeTensor, hinfo, hhdr, hclass, hmode, hst, hroom, hdone, emitted, forwardedTensor]

end

theorem arr_emitted (s : State) (core : Nat) (t : OutTensor) (f : WindowUnit → WindowUnit) :
    ((emitted s core t f).core core).arr = (s.core core).arr := by
  obtain ⟨-, harr, -, -⟩ := release_facts ((beginOut s core 0 t).modCore core fun c => { c with win := f c.win }) core 0
  obtain ⟨-, -, harr', -⟩ := Windows.beginOut_keeps s core 0 t
  rw [emitted, harr, core_modCore_self, harr']

/-! ### VECTOR_ELEMENT (05 R179, Table 5.5) -/

theorem exec_vectorElement {core : Nat} (hcore : core < nCores) (s : State) :
    exec (.vectorElement core) s = .next (vectorElement s core) :=
  withUnit_of (by simpa using hcore)

/-- The elements that a function takes at once: a row of C, or one. -/
def elemsAtOnce (r : StageRec) (h : THdr) : Nat :=
  if 4 ≤ vecFunc r.param ∧ vecFunc r.param ≤ 6 then max h.c 1 else 1

/-- The ports that a function takes. -/
def vecPorts (r : StageRec) : List Nat := if vecFunc r.param ≤ 1 then [0, 1] else [0]

/-- The place of the first of them in the tensor. -/
def vecStart (c : Core) (r : StageRec) (h : THdr) : Nat := c.vecPos * elemsAtOnce r h

/-- The elements at hand on a port. -/
def vecElems (c : Core) (r : StageRec) (h : THdr) (q : Nat) : List Elem :=
  ((c.inPort q).elems.drop (vecStart c r h)).take (elemsAtOnce r h)

/-- The output tensor begins with the first element or row. -/
def vectorBegun (s : State) (core : Nat) (r : StageRec) (h : THdr) : State :=
  if (s.core core).vecPos = 0 then
    beginOut s core 0 (likeTensor h ((vecPorts r).any fun q => ((s.core core).inPort q).hpoison))
  else s

/-- The values of an element or row stand behind those before, `drop` draws having been used; the last lets the inputs
go. -/
def vectorEmitted (s : State) (core : Nat) (r : StageRec) (h : THdr) (outs : List OVal) (drop : Nat) : State :=
  let lo := vecStart (s.core core) r h
  let s1 := vectorBegun s core r h
  let s2 := (putVals s1 core 0 (nextOutSeq (s1.core core) 0 - 1) lo outs).modCore core fun c => { c with
    vecPos := if h.length ≤ lo + elemsAtOnce r h then 0 else c.vecPos + 1
    dropNext := c.dropNext + drop }
  if h.length ≤ lo + elemsAtOnce r h then (vecPorts r).foldl (fun s q => releaseIn s core q) s2 else s2

/-- The gains of the channels of a row. -/
def gains (s : State) (core : Nat) (r : StageRec) (h : THdr) : List Elem :=
  vecTable s.mem.mem (relocated r core (tableAddr r.param)) (elemsAtOnce r h)

/-- The biases, which stand behind them. -/
def biases (s : State) (core : Nat) (r : StageRec) (h : THdr) : List Elem :=
  vecTable s.mem.mem (relocated r core (tableAddr r.param) + 4 * elemsAtOnce r h) (elemsAtOnce r h)

/-- The bytes of gains, and of biases where the function has them. -/
def gainBytes (r : StageRec) (h : THdr) : Nat :=
  if vecFunc r.param = 5 then 4 * elemsAtOnce r h else 8 * elemsAtOnce r h

/-- The function reads gains from memory. -/
def readsGains (r : StageRec) : Bool := vecFunc r.param = 5 || vecFunc r.param = 6

theorem readsGains_iff {r : StageRec} : readsGains r = true ↔ vecFunc r.param = 5 ∨ vecFunc r.param = 6 := by
  simp [readsGains]

/-- The draw of a DROPOUT for the element at hand (08 R328). -/
def dropDrawn (s : State) (core : Nat) (r : StageRec) : Nat :=
  let x := s.ctx (s.core core).stage.ctx
  (dropDraw (jobSeed x) (BitVec.ofNat 32 (x.rank.toNat * 65536 + dropId r.param)) x.step.jobStep
    (s.core core).dropNext).toNat

/-- The values of a row function, poison in a row, its gains or its biases making poison. -/
def rowOuts (s : State) (core : Nat) (r : StageRec) (h : THdr) : List OVal :=
  let es := vecElems (s.core core) r h 0
  let f := vecFunc r.param
  (((vecRow f (vecEps r.param) ((gains s core r h).map eVal) ((biases s core r h).map eVal) (es.map eVal)).zip
    (gains s core r h)).zip (biases s core r h)).map fun q =>
      vecOut (es.any (·.poison) || (f ≠ 4 && q.1.2.poison) || (f = 6 && q.2.poison)) q.1.1

/-- The values of an element or row. -/
def vectorOuts (s : State) (core : Nat) (r : StageRec) (h : THdr) : List OVal :=
  let es := vecElems (s.core core) r h 0
  let f := vecFunc r.param
  if 4 ≤ f ∧ f ≤ 6 then rowOuts s core r h
  else if f = 7 then es.map fun e => vecOut e.poison
    (if dropDrawn s core r ≥ dropThr r.param then F32.mul (eVal e) (dropGain r.param) else F32.posZero)
  else if f ≤ 1 then (es.zip (vecElems (s.core core) r h 1)).map fun q =>
    vecOut (q.1.poison || q.2.poison) (vecElem f (eVal q.1) (eVal q.2))
  else es.map fun e => vecOut e.poison (vecElem f (eVal e) F32.posZero)

section
variable {s : State} {core : Nat} {r : StageRec} {h : THdr}
  (hinfo : (s.core core).stage.info = some r) (hhdr : ((s.core core).inPort 0).hdr = some h) (hclass : r.opclass = 4)
  (hst : (s.core core).stage.st = .running) (hroom : outputFull s core = false) (hlength : h.length ≠ 0)
  (htwo : vecFunc r.param ≤ 1 → ((s.core core).inPort 1).hdr.isSome = true)
include hinfo hhdr hclass hst hroom hlength htwo

theorem vectorElement_eq : vectorElement s core =
    let base := relocated r core (tableAddr r.param)
    let last := vecStart (s.core core) r h + elemsAtOnce r h
    if ((s.core core).inPort 0).elems.length < last ||
      (decide (vecFunc r.param ≤ 1) && ((s.core core).inPort 1).elems.length < last) then s
    else if readsGains r && !stageReads s core base (gainBytes r h) then addressFault s core base
    else if readsGains r && rangeStalls s base (gainBytes r h) then s
    else vectorEmitted s core r h (vectorOuts s core r h) (if vecFunc r.param = 7 then 1 else 0) := by
  have hnone : (decide (vecFunc r.param ≤ 1) && ((s.core core).inPort 1).hdr.isNone) = false := by
    simpa using htwo
  have hdrops (c : Core) : (if vecFunc r.param = 7 then c.dropNext + 1 else c.dropNext) =
      c.dropNext + if vecFunc r.param = 7 then 1 else 0 := by
    split <;> rfl
  simp only [vectorElement, hinfo, hhdr, decide_eq_true_eq, hdrops]
  rw [if_neg (by simp [hclass, hst, hroom, hnone]), if_neg hlength]
  simp only [Bool.and_eq_true, decide_eq_true_eq]
  rfl

theorem vectorElement_waits
    (hshort : ((s.core core).inPort 0).elems.length < vecStart (s.core core) r h + elemsAtOnce r h) :
    vectorElement s core = s := by
  rw [vectorElement_eq hinfo hhdr hclass hst hroom hlength htwo]
  exact if_pos (by simp [hshort])

variable (hthere : vecStart (s.core core) r h + elemsAtOnce r h ≤ ((s.core core).inPort 0).elems.length)
include hthere

theorem vectorElement_faults (hgains : readsGains r = true)
    (hreads : stageReads s core (relocated r core (tableAddr r.param)) (gainBytes r h) = false) :
    vectorElement s core = addressFault s core (relocated r core (tableAddr r.param)) := by
  have hone : ¬ vecFunc r.param ≤ 1 := by
    have hfunc := readsGains_iff.1 hgains
    omega
  rw [vectorElement_eq hinfo hhdr hclass hst hroom hlength htwo]
  simp [Nat.not_lt.2 hthere, hone, hgains, hreads]

theorem vectorElement_takes
    (hthere1 : vecFunc r.param ≤ 1 →
      vecStart (s.core core) r h + elemsAtOnce r h ≤ ((s.core core).inPort 1).elems.length)
    (hgains : readsGains r = true →
      stageReads s core (relocated r core (tableAddr r.param)) (gainBytes r h) = true ∧
        rangeStalls s (relocated r core (tableAddr r.param)) (gainBytes r h) = false) :
    vectorElement s core =
      vectorEmitted s core r h (vectorOuts s core r h) (if vecFunc r.param = 7 then 1 else 0) := by
  rw [vectorElement_eq hinfo hhdr hclass hst hroom hlength htwo]
  dsimp only
  rw [if_neg (by simpa using ⟨hthere, hthere1⟩), if_neg (by simpa using fun hg => (hgains hg).1),
    if_neg (by simpa using fun hg => (hgains hg).2)]

end

section
variable {s : State} {core : Nat} {r : StageRec} {h : THdr}

theorem vectorOuts_two (hf : vecFunc r.param ≤ 1) : vectorOuts s core r h =
    ((vecElems (s.core core) r h 0).zip (vecElems (s.core core) r h 1)).map fun q =>
      vecOut (q.1.poison || q.2.poison) (vecElem (vecFunc r.param) (eVal q.1) (eVal q.2)) := by
  rw [vectorOuts, if_neg (by omega), if_neg (by omega), if_pos hf]

theorem vectorOuts_one (hf : vecFunc r.param = 2 ∨ vecFunc r.param = 3) : vectorOuts s core r h =
    (vecElems (s.core core) r h 0).map fun e =>
      vecOut e.poison (vecElem (vecFunc r.param) (eVal e) F32.posZero) := by
  rw [vectorOuts, if_neg (by omega), if_neg (by omega), if_neg (by omega)]

theorem vectorOuts_dropout (hf : vecFunc r.param = 7) : vectorOuts s core r h =
    (vecElems (s.core core) r h 0).map fun e => vecOut e.poison
      (if dropDrawn s core r ≥ dropThr r.param then F32.mul (eVal e) (dropGain r.param) else F32.posZero) := by
  rw [vectorOuts, if_neg (by omega), if_pos hf]

theorem length_vecElems_le (c : Core) (r : StageRec) (h : THdr) (q : Nat) :
    (vecElems c r h q).length ≤ elemsAtOnce r h := List.length_take_le _ _

/-- A SOFTMAX row reads no table. -/
theorem vectorOuts_softmax (hf : vecFunc r.param = 4) : vectorOuts s core r h =
    (vecRow 4 (vecEps r.param) ((gains s core r h).map eVal) ((biases s core r h).map eVal)
      ((vecElems (s.core core) r h 0).map eVal)).map fun x =>
        vecOut ((vecElems (s.core core) r h 0).any (·.poison)) x := by
  rw [vectorOuts, if_pos (by omega), rowOuts]
  simp only [hf]
  refine Eq.trans ?_ (zip2_map _ _ (gains s core r h) (biases s core r h) ?_ ?_)
  · simp
  all_goals
    rw [vecRow4_length, List.length_map]
    simpa [gains, biases, vecTable] using length_vecElems_le _ _ _ _

theorem vectorOuts_rmsNorm (hf : vecFunc r.param = 5) : vectorOuts s core r h =
    ((vecRow 5 (vecEps r.param) ((gains s core r h).map eVal) ((biases s core r h).map eVal)
      ((vecElems (s.core core) r h 0).map eVal)).zip ((gains s core r h).zip (biases s core r h))).map fun q =>
        vecOut ((vecElems (s.core core) r h 0).any (·.poison) || q.2.1.poison) q.1 := by
  rw [vectorOuts, if_pos (by omega), rowOuts]
  simp only [hf]
  refine Eq.trans ?_ (zip2_assoc (fun x (g b : Elem) => vecOut (_ || g.poison) x) _ _ _)
  simp

theorem vectorOuts_layerNorm (hf : vecFunc r.param = 6) : vectorOuts s core r h =
    ((vecRow 6 (vecEps r.param) ((gains s core r h).map eVal) ((biases s core r h).map eVal)
      ((vecElems (s.core core) r h 0).map eVal)).zip ((gains s core r h).zip (biases s core r h))).map fun q =>
        vecOut ((vecElems (s.core core) r h 0).any (·.poison) || q.2.1.poison || q.2.2.poison) q.1 := by
  rw [vectorOuts, if_pos (by omega), rowOuts]
  simp only [hf]
  refine Eq.trans ?_ (zip2_assoc (fun x (g b : Elem) => vecOut (_ || g.poison || b.poison) x) _ _ _)
  simp

end

end Sys2Proof.Laws.ValueStages

namespace Sys2Proof.Claims

open Sys2Proof.Laws.ValueStages Sys2Proof.Laws.Suppression in
/-- Settles O20. An index gives its row by `gatherIndex_eq`, a forwarding stage emits `forwardedTensor`, and an element
or row gives the values of its function (`vectorElement_takes` with the lemma on `vectorOuts` of that function). That
the sample and marks of a tensor pass through a ROUTE stage is log entry 15, the header of an unshaped input log
entry 16. -/
theorem gatherRouteAndVector : Obligations.GatherRouteAndVector := by
  unfold Obligations.GatherRouteAndVector
  refine ⟨fun s core r h e i st f hcore hinfo hhdr hbound hfmt hclass hst hroom hlength helem => ?_,
    fun s core r h hcore hinfo hhdr hclass hmode hst hroom => ?_,
    fun s core r h hcore hinfo hhdr hclass hst hroom hlength => ?_⟩
  · intro n v a s1 emits
    have hexec := exec_gatherIndex hcore s
    refine ⟨fun hpoison => hexec.trans (congrArg _
        (gatherIndex_poisoned hinfo hhdr hbound hfmt hclass hst hroom hlength helem hpoison)),
      fun hclean hrow => ⟨fun hwide hreads => hexec.trans (congrArg _
          (gatherIndex_faults hinfo hhdr hbound hfmt hclass hst hroom hlength helem hclean hrow hwide hreads)),
        fun hreads hstalls => hexec.trans (congrArg _
          (gatherIndex_waits hinfo hhdr hbound hfmt hclass hst hroom hlength helem hclean hrow hreads hstalls)),
        fun hreads hruns => hexec.trans (congrArg _
          (gatherIndex_reads hinfo hhdr hbound hfmt hclass hst hroom hlength helem hclean hrow hreads hruns))⟩,
      fun hclean hbeyond => hexec.trans (congrArg _
        (gatherIndex_beyond hinfo hhdr hbound hfmt hclass hst hroom hlength helem hclean hbeyond))⟩
  · have hexec := exec_routeTensor hcore s
    refine ⟨fun hdone => hexec.trans (congrArg _ (routeTensor_waits hinfo hmode hdone)), fun hdone hbound =>
      ⟨_, hexec.trans (congrArg _ (routeTensor_forwards hinfo hmode hhdr hclass hst hroom hdone)), ?_⟩⟩
    obtain ⟨hmoved, -, hin, houts⟩ := emitted_facts hbound (forwardedTensor ((s.core core).inPort 0) h) id
    refine ⟨hmoved, hin, arr_emitted _ _ _ _, _, houts, rfl, rfl, fun hshaped => ?_, tget_forwardedTensor _ _⟩
    simp [forwardedTensor, hshaped]
  · intro c f n lo ins es bad base g b eps s1 emits
    have hexec := exec_vectorElement hcore s
    have htakes {outs : List OVal} {drop : Nat} (htwo : f ≤ 1 → ((s.core core).inPort 1).hdr.isSome = true)
        (hthere : lo + n ≤ (c.inPort 0).elems.length) (hthere1 : f ≤ 1 → lo + n ≤ (c.inPort 1).elems.length)
        (hgains : f = 5 ∨ f = 6 →
          stageReads s core base (gainBytes r h) = true ∧ rangeStalls s base (gainBytes r h) = false)
        (houts : vectorOuts s core r h = outs) (hdrop : (if f = 7 then 1 else 0) = drop) :
        exec (.vectorElement core) s = .next (emits outs drop) := by
      subst houts hdrop
      exact hexec.trans (congrArg _ (vectorElement_takes hinfo hhdr hclass hst hroom hlength htwo hthere hthere1
        fun hg => hgains (readsGains_iff.1 hg)))
    have hfive (hf : f = 5) : gainBytes r h = 4 * n := if_pos hf
    have hsix (hf : f = 6) : gainBytes r h = 8 * n := if_neg fun hf' : f = 5 => by omega
    refine ⟨fun hshort htwo => hexec.trans (congrArg _
      (vectorElement_waits hinfo hhdr hclass hst hroom hlength htwo hshort)), fun hthere => ⟨fun hf htwo hthere1 => ?_,
      fun hf => ?_, fun hf => ?_, fun hf hreads => ?_, fun hf hreads => ?_, fun hf hreads hruns => ?_,
      fun hf hreads hruns => ?_, fun hf => ?_⟩⟩
    · exact htakes (fun _ => htwo) hthere (fun _ => hthere1) (fun _ => by omega) (vectorOuts_two hf)
        (if_neg (by omega))
    · exact htakes (fun _ => by omega) hthere (fun _ => by omega) (fun _ => by omega) (vectorOuts_one hf)
        (if_neg (by omega))
    · exact htakes (fun _ => by omega) hthere (fun _ => by omega) (fun _ => by omega) (vectorOuts_softmax hf)
        (if_neg (by omega))
    · exact hexec.trans (congrArg _ (vectorElement_faults hinfo hhdr hclass hst hroom hlength (fun _ => by omega) hthere
        (readsGains_iff.2 (.inl hf)) (by rwa [hfive hf])))
    · exact hexec.trans (congrArg _ (vectorElement_faults hinfo hhdr hclass hst hroom hlength (fun _ => by omega) hthere
        (readsGains_iff.2 (.inr hf)) (by rwa [hsix hf])))
    · exact htakes (fun _ => by omega) hthere (fun _ => by omega) (fun _ => by rw [hfive hf]; exact ⟨hreads, hruns⟩)
        (vectorOuts_rmsNorm hf) (if_neg (by omega))
    · exact htakes (fun _ => by omega) hthere (fun _ => by omega) (fun _ => by rw [hsix hf]; exact ⟨hreads, hruns⟩)
        (vectorOuts_layerNorm hf) (if_neg (by omega))
    · exact htakes (fun _ => by omega) hthere (fun _ => by omega) (fun _ => by omega) (vectorOuts_dropout hf)
        (if_pos hf)

end Sys2Proof.Claims
end

section
/-!
PROOF. The load of an image (O45).
-/

open Sys2Proof Sys2Proof.Machine Sys2Proof.Claims Sys2Proof.Laws

namespace Sys2Proof.Laws.Loading

theorem exec_load {q : Nat} (hq : q < 16) (seq : BitVec 32) (stripes : Tbl (List Nat)) (s : State) :
    exec (.load q seq stripes) s = .next (settle s (load s q seq stripes)) :=
  withUnit_of (by simpa using hq)

/-! ### The ways of a LOAD that runs -/

/-- A context takes an image: it is IDLE and loads none. -/
def TakesImage (x : Ctx) : Prop := x.st = .idle ∧ x.loading = false

/-- A context once every stage of its image is placed, under the catalogue entry `e`. -/
def imagePlaced (s : State) (x : Taken) (e : Nat) (L : LoadIn) : State :=
  (placeImage (stampEntry (startSlip s x) e) x.ctx L).modCtx x.ctx fun y => { y with entry := some e }

section
variable {s : State} {q : Nat} {seq : BitVec 32} {x : Taken} (hready : slipReady s q seq 4 = some x)
  (stripes : Tbl (List Nat))
include hready

theorem load_busy (hbusy : ¬ TakesImage (s.ctx x.ctx)) :
    load s q seq stripes = if x.running then s else refuse s x .contextState := by
  simp only [load, hready]
  refine if_pos ?_
  simpa [TakesImage, imp_iff_not_or] using hbusy

variable (htakes : TakesImage (s.ctx x.ctx))
include htakes

theorem load_noVolume (hvolume : volumeOf s (s.ctx x.ctx).job = none) :
    load s q seq stripes = refuse s x .notResident := by
  obtain ⟨hst, hloading⟩ := htakes
  simp [load, hready, hst, hloading, hvolume]

variable {v : Volume} (hvolume : volumeOf s (s.ctx x.ctx).job = some v)
include hvolume

theorem load_noEntry (hentry : entryOf s (s.ctx x.ctx).job (v.imageOf (s.ctx x.ctx).rank.toNat) = none) :
    load s q seq stripes = refuse s x .notResident := by
  obtain ⟨hst, hloading⟩ := htakes
  simp [load, hready, hst, hloading, hvolume, hentry]

variable {e : Nat} (hentry : entryOf s (s.ctx x.ctx).job (v.imageOf (s.ctx x.ctx).rank.toNat) = some e)
  {L : LoadIn} (hinput : loadInput s x.ctx (v.imageOf (s.ctx x.ctx).rank.toNat) stripes false = L)
include hentry hinput

theorem load_fails {n : RefName} (hcheck : loadRefusal s x.ctx L = some n) :
    load s q seq stripes = refuse s x n := by
  obtain ⟨hst, hloading⟩ := htakes
  simp [load, hready, hst, hloading, hvolume, hentry, hinput, hcheck]

variable (hcheck : loadRefusal s x.ctx L = none)
include hcheck

theorem load_wakes (hasleep : ∃ d ∈ mediaNeeds L, domainSettled s d = false) :
    load s q seq stripes = wakeDomains (startSlip s x) (mediaNeeds L) := by
  obtain ⟨hst, hloading⟩ := htakes
  have hany : ((mediaNeeds L).any fun d => !domainSettled s d) = true := by simpa using hasleep
  simp only [load, hready, hvolume, hentry, hinput, hcheck]
  rw [if_neg (by simp [hst, hloading])]
  exact if_pos hany

theorem load_places (hawake : ∀ d ∈ mediaNeeds L, domainSettled s d = true) :
    load s q seq stripes = settleSlips (settleLoads (imagePlaced s x e L)) := by
  obtain ⟨hst, hloading⟩ := htakes
  have hany : ((mediaNeeds L).any fun d => !domainSettled s d) = false := by simpa using hawake
  simp only [load, hready, hvolume, hentry, hinput, hcheck]
  rw [if_neg (by simp [hst, hloading])]
  exact if_neg (by simpa using hany)

end

/-! ### What follows a LOAD -/

/-- A refused LOAD ends its slip and leaves every core and shelf. -/
theorem refuse_facts {s : State} {q : Nat} {seq : BitVec 32} {x : Taken} (hready : slipReady s q seq 4 = some x)
    (n : RefName) :
    Ended (settle s (refuse s x n)) x.number (.refused n) ∧ (settle s (refuse s x n)).cores = s.cores ∧
      (settle s (refuse s x n)).shelves = s.shelves := by
  obtain ⟨hmem, hresult⟩ := ready_facts hready
  obtain ⟨-, hsame⟩ := touches_settle s (refuse s x n)
  exact ⟨EK.settle s _ _ _ (endWith_ended hmem hresult _), hsame .cores (by decide), hsame .shelves (by decide)⟩

/-- What settles at the end of a load that has placed its image. -/
def loadSettled (s u : State) : State := settle s (settleSlips (settleLoads u))

theorem cores_loadSettled (s u : State) : (loadSettled s u).cores = u.cores := by
  obtain ⟨-, hsettle⟩ := touches_settle s (settleSlips (settleLoads u))
  obtain ⟨-, hslips⟩ := touches_settleSlips (settleLoads u)
  obtain ⟨-, hloads⟩ := touches_settleLoads u
  exact ((hsettle .cores (by decide)).trans (hslips .cores (by decide))).trans (hloads .cores (by decide))

/-- A part of every context that neither a fault nor the end of a load touches stays. -/
theorem ctx_loadSettled {α : Type} {g : Ctx → α} (hfault : Blind g) (hload : LoadBlind g) (s u : State) (c : Nat) :
    g ((loadSettled s u).ctx c) = g (u.ctx c) := by
  have hslips : CK g (settleLoads u) (settleSlips (settleLoads u)) :=
    CK.ofCtxs ((touches_settleSlips _).2 .ctxs (by decide))
  exact (((RecoveryFinish.CK.settleLoads hfault hload u).trans hslips).trans (CK.settle hfault hload s _)) c

/-- A context that loads goes on loading, or is LOADED. -/
theorem loads_loadSettled (s : State) {u : State} {c : Nat} (h : LL (u.ctx c)) : LL ((loadSettled s u).ctx c) := by
  have hloads (l : List Nat) : ∀ u : State, LL (u.ctx c) → LL ((l.foldl settleLoad u).ctx c) := by
    induction l with
    | nil => exact fun _ h => h
    | cons d l ih => exact fun u h => ih _ (ll_settleLoad u d c h)
  refine ll_settle s _ c ?_
  rw [ctx_of ((touches_settleSlips _).2 .ctxs (by decide))]
  exact hloads _ u h

/-! ### Where the stages stand -/

/-- The cores of an image depend on memory, the contexts and the volumes alone. -/
theorem loadedCore_congr {s u : State} (hmem : u.mem.mem = s.mem.mem) (hctxs : u.ctxs = s.ctxs)
    (hvolumes : u.host.volumes = s.host.volumes) (c : Nat) (L : LoadIn) : loadedCore u c L = loadedCore s c L := by
  have hsame : sameImage u c = sameImage s c := by
    funext k
    simp only [sameImage, volumeOf, hvolumes, ctx_of hctxs]
  funext im i r
  simp only [loadedCore, loadedT, hsame, hmem, ctx_of hctxs]

theorem volumes_stampEntry (s : State) (e : Nat) : (stampEntry s e).host.volumes = s.host.volumes := by
  simp only [stampEntry, useStamp]
  split <;> rfl

/-- The state in which the stages are placed has the memory, the contexts, the volumes and the cores from before. -/
theorem stamped_keeps (s : State) (x : Taken) (e : Nat) :
    let u := stampEntry (startSlip s x) e
    u.mem.mem = s.mem.mem ∧ u.ctxs = s.ctxs ∧ u.cores = s.cores ∧ u.host.volumes = s.host.volumes := by
  obtain ⟨-, hstamp⟩ := touches_stampEntry (startSlip s x) e
  exact ⟨hstamp .bytes (by decide), hstamp .ctxs (by decide), hstamp .cores (by decide), volumes_stampEntry _ e⟩

section
variable {s : State} {x : Taken} {e : Nat} {L : LoadIn} (hrestoring : L.restoring = false)
include hrestoring

theorem ctx_imagePlaced : ((imagePlaced s x e L).ctx x.ctx).image = some (parseImage L.img) ∧
    ((imagePlaced s x e L).ctx x.ctx).entry = some e ∧ ((imagePlaced s x e L).ctx x.ctx).loading = true := by
  obtain ⟨himage, hloading, -⟩ := Creation.place_facts (stampEntry (startSlip s x) e) x.ctx L hrestoring
  rw [imagePlaced, ctx_modCtx_self]
  exact ⟨himage, rfl, hloading⟩

/-- The only stage record of a core is placed on it; a core without one stays. -/
theorem core_imagePlaced (n : Nat) :
    (∀ i r, (parseImage L.img).stages[i]? = some r → lcoreOf (s.ctx x.ctx) r.lcore = some n →
      (∀ j r', (parseImage L.img).stages[j]? = some r' → lcoreOf (s.ctx x.ctx) r'.lcore = some n → j = i) →
      (imagePlaced s x e L).core n = loadedCore s x.ctx L (parseImage L.img) i r) ∧
    ((∀ r ∈ (parseImage L.img).stages, lcoreOf (s.ctx x.ctx) r.lcore ≠ some n) →
      (imagePlaced s x e L).core n = s.core n) := by
  obtain ⟨hmem, hctxs, hcores, hvolumes⟩ := stamped_keeps s x e
  obtain ⟨-, -, hplaced⟩ := Creation.place_facts (stampEntry (startSlip s x) e) x.ctx L hrestoring
  rw [loadedCore_congr hmem hctxs hvolumes, ctx_of hctxs] at hplaced
  obtain ⟨hother, hself⟩ := Creation.place_cores s x.ctx L (s.ctx x.ctx) (parseImage L.img)
    (parseImage L.img).stages.zipIdx (stampEntry (startSlip s x) e) n
  have hcore := core_of hplaced n
  refine ⟨fun i r hi hr honly => ?_, fun hnone => ?_⟩
  · refine hcore.trans (hself (r, i) (List.mem_zipIdx_iff_getElem?.2 hi) hr fun p hp hpn => ?_)
    obtain ⟨r', j⟩ := p
    have hj := List.mem_zipIdx_iff_getElem?.1 hp
    obtain rfl : j = i := honly j r' hj hpn
    rw [Prod.mk.injEq]
    exact ⟨Option.some.inj (hj.symm.trans hi), rfl⟩
  · refine (hcore.trans (hother.trans (if_neg ?_))).trans (core_of hcores n)
    rintro ⟨p, hp, hpn⟩
    exact hnone p.1 (List.fst_mem_of_mem_zipIdx hp) hpn

end

end Sys2Proof.Laws.Loading

namespace Sys2Proof.Claims

open Sys2Proof.Laws.Loading in
/-- Settles O45. A LOAD that runs goes one of the ways of the lemmas on `load`: refused, it ends its slip and leaves
every core and shelf (`refuse_facts`); placed, its stages stand where `core_imagePlaced` says, which what settles then
leaves. That an image without a catalogue entry is NOT_RESIDENT is log entry 79, the operand `stripes` log entry 67. -/
theorem imagesAreLoaded : Obligations.ImagesAreLoaded := by
  unfold Obligations.ImagesAreLoaded
  refine ⟨fun s q seq stripes hq hnone => ?_, fun s q seq stripes x hq hruns => ?_⟩
  · rw [exec_load hq, load, hnone]
  · intro c refused ready
    obtain ⟨hready, -⟩ := hruns
    have hexec := exec_load hq seq stripes s
    have hrefused {n : RefName} (h : load s q seq stripes = refuse s x n) : refused n :=
      ⟨_, hexec, by rw [h]; exact refuse_facts hready n⟩
    refine ⟨fun hbusy hrunning => ?_, fun hbusy hrunning => hrefused ?_,
      fun htakes hvolume => hrefused (load_noVolume hready stripes htakes hvolume),
      fun v htakes hvolume => ⟨fun hentry => hrefused (load_noEntry hready stripes htakes hvolume hentry),
        fun e hentry => ⟨fun n hcheck => hrefused (load_fails hready stripes htakes hvolume hentry rfl hcheck),
          fun hcheck hasleep => ?_, fun hcheck hawake => ?_⟩⟩⟩
    · rw [hexec, load_busy hready stripes hbusy, hrunning, if_pos rfl]
    · rw [load_busy hready stripes hbusy, hrunning, if_neg Bool.false_ne_true]
    · rw [hexec, load_wakes hready stripes htakes hvolume hentry rfl hcheck hasleep]
    · refine ⟨_, hexec, ?_⟩
      rw [load_places hready stripes htakes hvolume hentry rfl hcheck hawake]
      have hrestoring : (loadInput s c (v.imageOf (s.ctx c).rank.toNat) stripes false).restoring = false := rfl
      obtain ⟨himage, hentry', hloading⟩ := ctx_imagePlaced (s := s) (x := x) (e := e) hrestoring
      have hcores := core_of (cores_loadSettled s
        (imagePlaced s x e (loadInput s c (v.imageOf (s.ctx c).rank.toNat) stripes false)))
      refine ⟨?_, ?_, loads_loadSettled s (.inl hloading), fun i r n hi hr honly => (hcores n).trans ?_,
        fun n hnone => (hcores n).trans ?_⟩
      · exact (ctx_loadSettled (fun _ _ _ _ => rfl) (fun _ _ _ _ _ _ => rfl) s _ c).trans himage
      · exact (ctx_loadSettled (fun _ _ _ _ => rfl) (fun _ _ _ _ _ _ => rfl) s _ c).trans hentry'
      · exact (core_imagePlaced hrestoring n).1 i r hi hr honly
      · exact (core_imagePlaced hrestoring n).2 hnone

end Sys2Proof.Claims
end

section
/-!
PROOF. States at which the statements on streams and stages apply (O17 to O20, O45): a stage that takes a word and one
that sends a tensor, a folded stage, a wedged stage, GATHER, ROUTE and VECTOR stages, and an image that loads.
-/

open Sys2Proof Sys2Proof.Machine Sys2Proof.Claims Sys2Proof.Laws.WindowExamples

namespace Sys2Proof.Laws.StreamExamples

/-! ### A stage and its stream (05 R181) -/

/-- A VECTOR stage of RELU on image core 0, with the streams of its ports. -/
def reluStage (streams : List Nat) : StageRec := stageOf 4 0 streams ⟨16, 2⟩

/-- A stream of binary32 tensors of up to 4 elements from a peer into port 0 of image core 0. -/
def inStream : StreamRec := ⟨0x16, [0], 3, 1, 0, false, 0, 4, 4⟩

/-- Context 0 on shelf 0, with one stage and one stream whose buffer holds a word; every island runs. -/
def withStream (r : StageRec) (t : StreamRec) (x : Stream) (c : Core) : State :=
  (({ State.reset with
    bring := { State.reset.bring with domainOn := BitVec.allOnes 80 }
    shelves := [(0, { Shelf.reset with lmap := [(0, ⟨0, false, false⟩)] })] } : State).setCtx 0
    { image := some ⟨1, [], [r], [t], [], []⟩, mask := 1, streams := [(0, x)] }).setCore 0 c

/-- The header of a tensor of one binary32 element. -/
def oneValue (scale : F32) : THdr := { tallTensor 1 1 with format := 3, scale := scale }

/-- The stream with one word in its buffer. -/
def holding (w : SWord) : Stream := { Stream.empty with bufs := [(0, { words := [w] })] }

/-- The core of a stage that takes one tensor in a step. -/
def streamCore (st : StageSt) (p : InPort) : Core :=
  { Core.cleared with
    stage := { StageUnit.cleared with st := st, info := some (reluStage [0]), tps := 1 }
    inp := [(0, p)] }

/-- A port with the header of a tensor of one element. -/
def opened : InPort := ⟨some (oneValue F32.one), [], false, false⟩

theorem lt_wider {n k m : Nat} (h : n < 2 ^ k) (hk : k ≤ m) : n < 2 ^ m :=
  h.trans_le (Nat.pow_le_pow_right (by decide) hk)

set_option exponentiation.threshold 1024 in
/-- A word whose low 64 bits are given. -/
def word (n : Nat) (h : n < 2 ^ 64) : BitVec 1024 := BitVec.ofNatLT n (lt_wider h (by decide))

/-- The last data word of that tensor, the value 1.0. -/
def lastWord : SWord := ⟨word 0x3F800000 (by decide), false, true, false⟩

def dataComes : State := withStream (reluStage [0]) inStream (holding lastWord) (streamCore .running opened)

theorem streamWord_dataComes : Answers (.streamWord 0 0 0 .clean) dataComes fun s' =>
    ((s'.core 0).inPort 0).done = true ∧ ((s'.core 0).inPort 0).elems = [⟨0x3F800000, false⟩] := by
  obtain ⟨-, -, hclean, hcrosses⟩ := wordsCrossStreams.1 dataComes 0 0 0 0 .clean inStream 0 lastWord (by decide)
    (by decide) (by decide) rfl rfl rfl rfl (by decide)
  simp only [hclean rfl] at hcrosses
  obtain ⟨hdata, -⟩ := hcrosses lastWord (reluStage [0]) rfl (by decide) (by decide) (by decide) (by decide) rfl rfl
    (by decide)
  obtain ⟨s', hexec, -, -, hdone, helems⟩ := hdata (oneValue F32.one) .binary32 rfl rfl rfl
  exact ⟨s', hexec, hdone, helems.trans (by decide)⟩

/-- A header word waits for a stage that is READY. -/
def headerComes (h : THdr) : State :=
  withStream (reluStage [0]) inStream (holding (hdrSWord h false)) (streamCore .ready InPort.empty)

set_option exponentiation.threshold 1024 in
/-- The fields of a header fit its word. -/
theorem word_toNat (h : THdr) : h.word.toNat = packFields [(h.length, 32), (h.scale.toNat, 32), (h.format, 4), (0, 4),
    (h.flags.toNat % 64, 8), (h.c, 16), (h.w, 16), (h.h, 16), (h.sample, 32), (h.use, 32)] :=
  (BitVec.toNat_ofNat _ _).trans (Nat.mod_eq_of_lt (@lt_wider _ _ 1024 (packFields_lt _) (Nat.le_of_ble_eq_true rfl)))

theorem parse_one : THdr.parse (hdrSWord (oneValue F32.one) false).bits = oneValue F32.one := by
  rw [hdrSWord, THdr.parse, word_toNat]
  decide

theorem parse_zero : THdr.parse (hdrSWord (oneValue 0) false).bits = oneValue 0 := by
  rw [hdrSWord, THdr.parse, word_toNat]
  decide

/-- Its scale 1.0 is accepted. -/
theorem streamWord_headerComes : Answers (.streamWord 0 0 0 .clean) (headerComes (oneValue F32.one)) fun s' =>
    (s'.core 0).stage.st = .running ∧ ((s'.core 0).inPort 0).hdr = some (oneValue F32.one) := by
  obtain ⟨-, -, hclean, hcrosses⟩ := wordsCrossStreams.1 (headerComes (oneValue F32.one)) 0 0 0 0 .clean inStream 0
    (hdrSWord (oneValue F32.one) false) (by decide) (by decide) (by decide) rfl rfl rfl rfl (by decide)
  simp only [hclean rfl] at hcrosses
  obtain ⟨-, haccepts, -⟩ := hcrosses (hdrSWord (oneValue F32.one) false) (reluStage [0]) rfl (by decide) (by decide)
    (by decide) (by decide) rfl rfl (by decide)
  obtain ⟨s', hexec, -, hport, hst, -⟩ := haccepts rfl (by rw [parse_one]; decide) (by decide) (by decide)
  exact ⟨s', hexec, hst, (congrArg InPort.hdr hport).trans (congrArg some parse_one)⟩

/-- A scale of zero is none (02 R85), and stops it. -/
theorem streamWord_badScale : Answers (.streamWord 0 0 0 .clean) (headerComes (oneValue 0)) fun s' =>
    (s'.core 0).stage.st = .stopped := by
  obtain ⟨-, -, hclean, hcrosses⟩ := wordsCrossStreams.1 (headerComes (oneValue 0)) 0 0 0 0 .clean inStream 0
    (hdrSWord (oneValue 0) false) (by decide) (by decide) (by decide) rfl rfl rfl rfl (by decide)
  simp only [hclean rfl] at hcrosses
  obtain ⟨-, -, hstops⟩ := hcrosses (hdrSWord (oneValue 0) false) (reluStage [0]) rfl (by decide) (by decide)
    (by decide) (by decide) rfl rfl (by decide)
  exact hstops rfl (.inl (by rw [parse_zero]; decide))

/-! ### A tensor that leaves (05 R185 to R187) -/

/-- A stage with a tensor of one element, complete, at output port 0. -/
def sending (t : OutTensor) : State :=
  withStream (reluStage [0, 0, 0, 0, 0]) inStream Stream.empty
    { streamCore .running opened with
      stage := { (streamCore .running opened).stage with info := some (reluStage [0, 0, 0, 0, 0]) }
      out := [(0, { OutPort.empty with outs := [t] })] }

/-- A tensor of `n` elements of the value zero. -/
def zeros (n : Nat) : OutTensor :=
  ⟨n, 1, 1, n, 0, flagShaped, false, (List.range n).map fun i => (i, ⟨0, true, false, false⟩)⟩

theorem tensorHeaderEmit_one : Answers (.tensorHeaderEmit 0 0) (sending (zeros 1)) fun s' =>
    ((s'.core 0).outPort 0).outs = [] ∧ ((s'.core 0).outPort 0).use = 1 := by
  obtain ⟨-, -, hsends⟩ := wordsCrossStreams.2 (sending (zeros 1)) 0 0 0 (reluStage [0, 0, 0, 0, 0]) inStream
    (zeros 1) [] (by decide) (by decide) rfl rfl rfl (by decide)
  obtain ⟨-, hwhole, -⟩ := hsends .binary32 (by decide) (by decide) rfl
  obtain ⟨s', hexec, -, houts, huse, -⟩ := hwhole rfl 0 (by decide) (.inr rfl)
  exact ⟨s', hexec, houts, huse.trans (by decide)⟩

/-- The stream takes tensors of up to 4 elements. -/
theorem tensorHeaderEmit_tooLong : exec (.tensorHeaderEmit 0 0) (sending (zeros 5)) =
    .next (stopStage (sending (zeros 5)) 0 .tensorLength 0) :=
  (wordsCrossStreams.2 (sending (zeros 5)) 0 0 0 (reluStage [0, 0, 0, 0, 0]) inStream (zeros 5) []
    (by decide) (by decide) rfl rfl rfl (by decide)).1 (by decide)

/-! ### A folded stage (05 R196 to R199) -/

/-- A MATMUL stage of two passes, each with one tile. -/
def foldedStage : StageRec := { stageOf 0 0 [] ⟨16, 0⟩ with npassM1 := 1 }

/-- Run 1 of that stage, with its staging areas. -/
def folded (active : Bool) (staging : Tbl Staging) : State :=
  State.reset.setCore 0 { Core.cleared with
    stage := { StageUnit.cleared with
      st := .running
      info := some foldedStage
      passes := List.replicate 2 ⟨0, 1, false, true, false, 0⟩
      pfs := List.replicate 2 ⟨0, 0, 0, false, F32.one, 0, 1, 0⟩
      staging := staging
      seq := { Sequencer.start with run := 1, pass := 1, active := active } }
    inp := [(0, opened)] }

theorem passStart_full : Answers (.passStart 0) (folded false [(1, ⟨1, 1, [], F32.one, 0, true⟩)]) fun s' =>
    (s'.core 0).stage.seq.active = true ∧ (s'.core 0).stage.switchLeft = 2 := by
  obtain ⟨-, hswitches⟩ := passesAndStaging.1 (folded false [(1, ⟨1, 1, [], F32.one, 0, true⟩)]) 0 foldedStage
    (by decide) rfl rfl rfl
  exact ⟨_, hswitches (by decide) (by decide) (.inr (by decide)), by decide, by decide⟩

theorem passStart_waits : exec (.passStart 0) (folded false []) = .next (folded false []) :=
  (passesAndStaging.1 (folded false []) 0 foldedStage (by decide) rfl rfl rfl).1 (by decide)

/-- Run 1 is under way, and run 0 has left the other area. -/
theorem stagingFill_begins : Answers (.stagingFill 0) (folded true [(0, ⟨0, 0, [], F32.one, 0, true⟩)]) fun s' =>
    tget (s'.core 0).stage.staging 0 = some ⟨2, 0, [], F32.one, 0, false⟩ := by
  obtain ⟨-, hbegins⟩ := passesAndStaging.2.1 (folded true [(0, ⟨0, 0, [], F32.one, 0, true⟩)]) 0 foldedStage
    (by decide) rfl rfl rfl (by decide) (by decide)
  exact ⟨_, hbegins (by decide), by decide⟩

/-- The words of the tile of a pass have come. -/
def filled : Staging := ⟨2, 0, [], F32.one, passWords ((folded true []).core 0) 0, false⟩

theorem stagingFillDone_filled : Answers (.stagingFillDone 0) (folded true [(0, filled)]) fun s' =>
    (tget (s'.core 0).stage.staging 0).map (·.full) = some true := by
  obtain ⟨s', hexec, -, hfull, -⟩ := passesAndStaging.2.2 (folded true [(0, filled)]) 0 0 filled
    ⟨0, 0, 0, false, F32.one, 0, 1, 0⟩ (by decide) (by decide) (by decide)
  exact ⟨s', hexec, (congrArg (Option.map (·.full)) hfull).trans rfl⟩

/-! ### Stalls and wedges (05 R206 to R214) -/

/-- A RUNNING stage with nothing at its port. -/
def idleStage : State := running (reluStage []) (tallTensor 1 1) [] WindowUnit.cleared

theorem stallCycle_advanced : Answers (.stallCycle 0 true 0) idleStage fun s' =>
    (s'.core 0).stage.activeCycles = 1 := by
  obtain ⟨-, s', hexec, -, -, -, -, -, -, hruns⟩ := stallsWedgesAndEscapes.1 idleStage 0 true 0 (by decide)
  obtain ⟨-, hactive, -⟩ := hruns rfl
  obtain ⟨hcycles, -⟩ := hactive (by decide)
  exact ⟨s', hexec, hcycles.trans (by decide)⟩

/-- A stage whose stream to image core 0 has no room for one word more, for `n` cycles. -/
def blocked (n : Nat) : State :=
  withStream (reluStage [0, 0, 0, 0, 0]) { inStream with capacity := 1 }
    { holding lastWord with wait := [(0, [lastWord])] }
    { Core.cleared with
      stage := { StageUnit.cleared with st := .running, info := some (reluStage [0, 0, 0, 0, 0]), outFullRun := n } }

theorem wedged_reports : Answers (.wedged 0) (blocked 65536) fun s' =>
    (s'.core 0).stage.wedged = true ∧ (s'.shelf 0).reports = [⟨0, 0, 0, 1⟩] := by
  obtain ⟨-, hreports⟩ := stallsWedgesAndEscapes.2.1 (blocked 65536) 0 0 0 (by decide) rfl rfl
  obtain ⟨s', hexec, -, hwedged, -, hreport, -⟩ := hreports (by decide) (by decide)
  exact ⟨s', hexec, hwedged, hreport.trans (by decide)⟩

theorem wedged_waits : exec (.wedged 0) (blocked 65535) = .next (blocked 65535) :=
  (stallsWedgesAndEscapes.2.1 (blocked 65535) 0 0 0 (by decide) rfl rfl).1 (by decide)

/-- The shelf confirms a cycle whose stage has moved again meanwhile. -/
def movedAgain : State :=
  (blocked 0).modShelf 0 fun x => { x with confirming := some ([⟨0, 0, 0, 1⟩], ⟨0, 0, 0, 1⟩) }

theorem escapeConfirm_cancels : Answers (.escapeConfirm 0) movedAgain fun s' =>
    (s'.shelf 0).confirming = none ∧ (s'.shelf 0).cancels = 1 := by
  obtain ⟨hcancels, -⟩ := stallsWedgesAndEscapes.2.2.2 movedAgain 0 [⟨0, 0, 0, 1⟩] ⟨0, 0, 0, 1⟩
    { inStream with capacity := 1 } (by decide) rfl rfl
  exact ⟨_, hcancels ⟨⟨0, 0, 0, 1⟩, by decide⟩, by decide, by decide⟩

/-! ### GATHER, ROUTE and VECTOR (05 R178, R179, R186) -/

/-- A stage of an opclass and a parameter on a tensor of one element, with a stream at its output. -/
def valueStage (opclass : Nat) (param : Blob) (e : Elem) : State :=
  withStream (stageOf opclass 0 [0, 0, 0, 0, 0] param) inStream Stream.empty
    (runningCore (stageOf opclass 0 [0, 0, 0, 0, 0] param) (oneValue F32.one) [e] WindowUnit.cleared)

/-- A table of no row: every index is beyond it, and counts. -/
theorem gatherIndex_beyond : Answers (.gatherIndex 0) (valueStage 7 ⟨16, 2 ^ 20⟩ zeroElem) fun s' =>
    (s'.core 0).stage.gatherRange = 1 := by
  obtain ⟨-, -, hbeyond⟩ := gatherRouteAndVector.1 (valueStage 7 ⟨16, 2 ^ 20⟩ zeroElem) 0
    (stageOf 7 0 [0, 0, 0, 0, 0] ⟨16, 2 ^ 20⟩) (oneValue F32.one) zeroElem 0 inStream .binary32
    (by decide) rfl rfl rfl rfl rfl rfl (by decide) (by decide) rfl
  exact ⟨_, hbeyond rfl (by decide), by decide⟩

theorem routeTensor_forwards : Answers (.routeTensor 0) (valueStage 8 ⟨16, 0⟩ zeroElem) fun s' =>
    (s'.core 0).inPort 0 = InPort.empty ∧ ((s'.core 0).outPort 0).outs.map (·.length) = [1] := by
  obtain ⟨-, hforwards⟩ := gatherRouteAndVector.2.1 (valueStage 8 ⟨16, 0⟩ zeroElem) 0
    (stageOf 8 0 [0, 0, 0, 0, 0] ⟨16, 0⟩) (oneValue F32.one) (by decide) rfl rfl rfl (by decide) rfl (by decide)
  obtain ⟨s', hexec, -, hempty, -, t, houts, hlength, -⟩ := hforwards rfl (by decide)
  refine ⟨s', hexec, hempty, ?_⟩
  rw [houts, List.map_append, List.map_singleton, hlength]
  decide

/-- RELU of the last element lets the input go. -/
theorem vectorElement_relu : Answers (.vectorElement 0) (valueStage 4 ⟨16, 2⟩ zeroElem) fun s' =>
    (s'.core 0).inPort 0 = InPort.empty := by
  obtain ⟨-, hvalues⟩ := gatherRouteAndVector.2.2 (valueStage 4 ⟨16, 2⟩ zeroElem) 0
    (stageOf 4 0 [0, 0, 0, 0, 0] ⟨16, 2⟩) (oneValue F32.one) (by decide) rfl rfl rfl rfl (by decide) (by decide)
  obtain ⟨-, hrelu, -⟩ := hvalues (by decide)
  exact ⟨_, hrelu (by decide), by decide⟩

/-! ### An image that loads (05 R205, 11 R444) -/

/-- The image of one RELU stage on image core 0, with a stream from a peer at its input and none at its output. -/
def reluImage : Blob where
  len := 164
  val := packFields ([0x100014950514F, 0x10001, 0x8000000040, 0xA4000000A4, 0, 0, 0, 0, 0x40000000, 0x4000000A0, 0, 0, 0, 0,
    0xFFFFFFFFFFFF0000, 0xFFFFFFFFFFFFFFFF, 0x16, 0, 0x1300000000, 0x200000020, 2].map fun v => (v, 64))

/-- Its volume, for job 7 and rank 0. -/
def reluVolume : Volume :=
  ⟨7, [⟨2, false, 0, 0, reluImage⟩, ⟨3, false, 0, 0, ⟨8, 1⟩⟩], 0, 0, 0, none, Blob.empty, 0⟩

/-- A LOAD slip of context 0, the first of ring 0. -/
def loadSlip : Taken where
  number := 5
  ring := 0
  seq := 1
  slip := word 0x400000000 (by decide)
  result := none
  discard := false

/-- Context 0 of job 7 on shelf 0, in the state given, with the image in the catalogue. -/
def loadable (st : CtxSt) : State :=
  ({ State.reset with
    host := { State.reset.host with
      busy := false, volumes := [reluVolume], cat := [(3, ⟨7, 0, false, 0⟩)], taken := [loadSlip] }
    shelves := [(0, { Shelf.reset with lmap := [(0, ⟨0, false, false⟩)] })] } : State).setCtx 0
    { State.reset.ctx 0 with st := st, job := 7, mask := 1 }

theorem load_places : Answers (.load 0 1 []) (loadable .idle) fun t =>
    (t.ctx 0).image = some (parseImage reluImage) := by
  obtain ⟨-, -, -, hvolume⟩ := imagesAreLoaded.2 (loadable .idle) 0 1 [] loadSlip (by decide) ⟨by decide, by decide⟩
  obtain ⟨-, hentry⟩ := hvolume reluVolume ⟨by decide, by decide⟩ (by decide)
  obtain ⟨-, -, hplaces⟩ := hentry 3 (by decide)
  obtain ⟨t, hexec, himage, -⟩ := hplaces (by decide +kernel) (by decide +kernel)
  exact ⟨t, hexec, himage⟩

theorem load_contextState : Answers (.load 0 1 []) (loadable .loaded) fun t =>
    Ended t 5 (.refused .contextState) := by
  obtain ⟨-, hrefused, -⟩ := imagesAreLoaded.2 (loadable .loaded) 0 1 [] loadSlip (by decide) ⟨by decide, by decide⟩
  obtain ⟨t, hexec, hended, -⟩ := hrefused (by decide) rfl
  exact ⟨t, hexec, hended⟩

end Sys2Proof.Laws.StreamExamples
end

section
/-!
PROOF. The canonical form of memory, over one step and over a run from reset (O6, O7).
-/

open Sys2Proof Sys2Proof.Machine Sys2Proof.Claims

namespace Sys2Proof.Laws.CanonicalMemory

theorem step_keeps_wf {s t : State} (h : s.mem.mem.wf = true) (hstep : step s = .next t) : t.mem.mem.wf = true :=
  (Queue.st s t hstep).memory h

theorem wf_reset : State.reset.mem.mem.wf = true := by decide

/-- The steps of a run go on one by one, so what every step keeps, a run keeps. -/
theorem run_keeps_wf (n : Nat) {s t : State} (h : s.mem.mem.wf = true) (hrun : core.run n s = .next t) :
    t.mem.mem.wf = true := by
  induction n generalizing s with
  | zero =>
    obtain rfl : s = t := Host.Outcome.next.inj hrun
    exact h
  | succ n ih =>
    cases hstep : step s with
    | next u =>
      have hrest : core.run (n + 1) s = core.run n u := by
        simp only [Host.Core.run, core, hstep]
      exact ih (step_keeps_wf h hstep) (hrest ▸ hrun)
    | fault r => simp [Host.Core.run, core, hstep] at hrun
    | refused r => simp [Host.Core.run, core, hstep] at hrun

end Sys2Proof.Laws.CanonicalMemory

namespace Sys2Proof.Claims

open Sys2Proof.Laws.CanonicalMemory in
/-- Settles O6. A step changes memory by writes of bytes and words, by zero fills and by the undoing of writes in
flight, and each of these keeps the form (`Mem.wf_setWord` and the lemmas beside it); the frame of a command carries
that along all its operations (`Keeps.memory`). -/
theorem stepsKeepMemoryCanonical : Obligations.StepsKeepMemoryCanonical :=
  fun _ _ h hstep => step_keeps_wf h hstep

open Sys2Proof.Laws.CanonicalMemory in
/-- Settles O7. Memory at reset lists nothing, and a run is steps. -/
theorem memoryCanonicalFromReset : Obligations.MemoryCanonicalFromReset :=
  ⟨wf_reset, fun n cs _ hrun => run_keeps_wf (s := { State.reset with pending := cs }) n wf_reset hrun⟩

end Sys2Proof.Claims
end

section
/-!
PROOF. Accesses to words of memory (O21): MEM_ACCESS.
-/

open Sys2Proof Sys2Proof.Machine Sys2Proof.Claims Sys2Proof.Laws Sys2Proof.Laws.Tiers

namespace Sys2Proof.Laws.WordAccess

/-! ### The ways of an access (06 R217, R218) -/

/-- What an access that goes through makes of the state: the word is written, or read with its errors counted. -/
def accessed (s : State) (addr : Nat) (d : Option (BitVec 1024)) (poison : Bool) (e : Ecc) : State :=
  match d with
  | some v => writeWord s (addr / 128) v poison
  | none => (readWord s (addr / 128) e).2.2

theorem exec_memAccess {who : Engine} (hwho : engineExists who = true) (addr : Nat) (d : Option (BitVec 1024))
    (poison : Bool) (e : Ecc) (s : State) :
    exec (.memAccess who addr d poison e) s = .next (cancelLoads (memAccess s who addr d poison e)) :=
  withUnit_of hwho

section
variable {s : State} {who : Engine} {addr : Nat} {d : Option (BitVec 1024)}

theorem engineExists_of_accesses (h : Accesses s who addr d) : engineExists who = true := by
  cases who with
  | stage core => obtain ⟨⟨hcore, -⟩, -⟩ := h; simpa [engineExists] using hcore
  | prefetch core => obtain ⟨⟨hcore, -⟩, -⟩ := h; simpa [engineExists] using hcore
  | device => rfl

/-- The stage is there and has not stopped, as MEM_ACCESS looks for it. -/
theorem works_of_live {core : Nat} (h : StageLive s core) :
    ((s.core core).stage.info.isNone || decide ((s.core core).stage.st = .stopped)) = false := by
  obtain ⟨-, hinfo, hst⟩ := h
  simp [hst, ← Option.not_isSome, hinfo]

/-- An access that its engine may make goes through unless the tier stands still. -/
theorem memAccess_of_accesses (h : Accesses s who addr d) (poison : Bool) (e : Ecc) :
    memAccess s who addr d poison e = if tierStalls s addr = true then s else accessed s addr d poison e := by
  cases who with
  | stage core =>
    obtain ⟨hlive, hreach⟩ := h
    have hok : (d.isNone && decide (carrelWindow core ≤ addr) && decide (addr < carrelWindow core + 0x400000) ||
        mayReach s (s.core core).stage.ctx (128 * (addr / 128)) 128) = true := by
      rcases hreach with hreach | ⟨rfl, hlow, hhigh⟩
      · simp [hreach]
      · simp [hlow, hhigh]
    simp only [memAccess, works_of_live hlive, hok]
    rfl
  | prefetch core =>
    obtain ⟨hlive, hreach⟩ := h
    simp only [memAccess, works_of_live hlive, hreach]
    rfl
  | device =>
    obtain ⟨hmapped, hcontrol⟩ := h
    cases htier : tierOf addr with
    | unmapped => exact absurd htier hmapped
    | control => exact absurd htier hcontrol
    | hbm | cxl | shelf | carrel =>
      simp only [memAccess, htier]
      cases tierStalls s addr <;> rfl

theorem exec_memAccess_waits (h : Accesses s who addr d) (hstalls : tierStalls s addr = true) (poison : Bool)
    (e : Ecc) : exec (.memAccess who addr d poison e) s = .next (cancelLoads s) := by
  rw [exec_memAccess (engineExists_of_accesses h), memAccess_of_accesses h, if_pos hstalls]

theorem exec_memAccess_goes (h : Accesses s who addr d) (hmoves : tierStalls s addr = false) (poison : Bool)
    (e : Ecc) : exec (.memAccess who addr d poison e) s = .next (cancelLoads (accessed s addr d poison e)) := by
  rw [exec_memAccess (engineExists_of_accesses h), memAccess_of_accesses h, if_neg (ne_true_of_eq_false hmoves)]

/-- An access that the context of a stage may not make is a fault of the stage. -/
theorem memAccess_faults {core : Nat} (hwho : who = .stage core ∨ who = .prefetch core) (hlive : StageLive s core)
    (hreach : mayReach s (s.core core).stage.ctx (128 * (addr / 128)) 128 = false)
    (hown : who = .stage core → d = none → addr < carrelWindow core ∨ carrelWindow core + 0x400000 ≤ addr)
    (poison : Bool) (e : Ecc) : memAccess s who addr d poison e = addressFault s core addr := by
  rcases hwho with rfl | rfl
  · have hok : (d.isNone && decide (carrelWindow core ≤ addr) && decide (addr < carrelWindow core + 0x400000)) =
        false := by
      cases d with
      | some v => rfl
      | none => have := hown rfl rfl; simp; omega
    simp only [memAccess, works_of_live hlive, hreach, hok]
    rfl
  · simp only [memAccess, works_of_live hlive, hreach]
    rfl

theorem exec_memAccess_faults {core : Nat} (hwho : who = .stage core ∨ who = .prefetch core)
    (hlive : StageLive s core) (hreach : mayReach s (s.core core).stage.ctx (128 * (addr / 128)) 128 = false)
    (hown : who = .stage core → d = none → addr < carrelWindow core ∨ carrelWindow core + 0x400000 ≤ addr)
    (poison : Bool) (e : Ecc) :
    exec (.memAccess who addr d poison e) s = .next (cancelLoads (addressFault s core addr)) := by
  have hcore : core < nCores := hlive.1
  have hexists : engineExists who = true := by
    rcases hwho with rfl | rfl <;> simpa [engineExists] using hcore
  rw [exec_memAccess hexists, memAccess_faults hwho hlive hreach hown]

end

/-! ### A word written (06 R217, R227, R236) -/

theorem writeWord_word {s : State} (hwf : s.mem.mem.wf = true) (w : Nat) (v : BitVec 1024) (poison : Bool) :
    (∀ i, i < 128 → (writeWord s w v poison).mem.mem.read (128 * w + i) = BitVec.ofNat 8 (v.toNat / 2 ^ (8 * i))) ∧
    (∀ a, a < 128 * w ∨ 128 * w + 128 ≤ a → (writeWord s w v poison).mem.mem.read a = s.mem.mem.read a) ∧
    (writeWord s w v poison).mem.mem.poisoned w = poison ∧
    (∀ u, u ≠ w → (writeWord s w v poison).mem.mem.poisoned u = s.mem.mem.poisoned u) := by
  rw [ww_bytes]
  refine ⟨fun i hi => setWord_read_self _ _ _ _ _ hwf hi, fun a ha => Mem.read_setWord_other _ _ _ _ _ hwf ha, ?_,
    fun u hu => ?_⟩
  · rw [setWord_poison _ _ _ _ _ hwf, if_pos rfl]
  · rw [setWord_poison _ _ _ _ _ hwf, if_neg hu]

/-! ### A word read (06 R227, R228, R235, Table 6.5) -/

section
variable (s : State) (w : Nat) (e : Ecc)

theorem poisoned_eccEvent (u : Nat) : (eccEvent s w e).mem.mem.poisoned u =
    (s.mem.mem.poisoned u || (decide (e = .uncorrected) && decide (u = w))) := by
  rw [ecc_mem]
  by_cases h : e = .uncorrected
  · rw [if_pos h]
    exact (mem_setInsert _ _ _).trans (by simp [h, Mem.poisoned])
  · simp [h]

theorem hbm_readWord (k : Nat) : (readWord s w e).2.2.hbm k = (eccEvent s w e).hbm k := by
  obtain ⟨n, h, -⟩ := readWord_state s w e
  rw [h]
  split <;> rfl

theorem shelf_readWord (n : Nat) : (readWord s w e).2.2.shelf n = (eccEvent s w e).shelf n := by
  obtain ⟨m, h, -⟩ := readWord_state s w e
  rw [h]
  split <;> rfl

variable {s w e}

theorem readWord_clean (ht : tierOf (128 * w) ≠ .cxl) (hkey : keyGone s w = false) :
    (readWord s w .clean).2.2 = s := by
  obtain ⟨n, h, hn⟩ := readWord_state s w .clean
  rw [h, hn hkey]
  simp [ht, eccEvent]

theorem hbm_eccEvent (ht : tierOf (128 * w) = .hbm) :
    let h := s.hbm (hbmStack s (128 * w))
    (eccEvent s w e).hbm (hbmStack s (128 * w)) = { h with
      eccCorrected := h.eccCorrected + (if e = .corrected then 1 else 0)
      eccUncorrected := h.eccUncorrected + (if e = .uncorrected then 1 else 0) } := by
  cases e <;> simp [eccEvent, ht, storePoison]

theorem shelf_eccEvent {n : Nat} (ht : tierOf (128 * w) = .shelf n) :
    let x := s.shelf n
    (eccEvent s w e).shelf n = { x with
      sstoreCorrected := x.sstoreCorrected + (if e = .corrected then 1 else 0)
      sstoreUncorrected := x.sstoreUncorrected + (if e = .uncorrected then 1 else 0) } := by
  cases e <;> simp [eccEvent, ht, storePoison, storeEvent]

theorem cxl_readWord (ht : tierOf (128 * w) = .cxl) :
    let x := s.cxl (cxlPlace (128 * w)).1
    (readWord s w e).2.2.cxl (cxlPlace (128 * w)).1 = { x with
      corrected := x.corrected + (if e = .corrected then 1 else 0)
      poisonIn := x.poisonIn +
        (if e ≠ .linkLost ∧ (s.mem.mem.poisoned w = true ∨ e = .uncorrected) then 1 else 0) } := by
  obtain ⟨n, h, -⟩ := readWord_state s w e
  rw [h, poisoned_eccEvent]
  have hfree (u : State) : ({ u with freeCtr := n } : State).cxl (cxlPlace (128 * w)).1 =
    u.cxl (cxlPlace (128 * w)).1 := rfl
  rw [hfree]
  cases e <;> cases s.mem.mem.poisoned w <;> simp [eccEvent, ht, storePoison, storeEvent]

end

/-! ### An access that may not be made (06 R218; 05 R205; 11 R448) -/

theorem addressFault_facts (s : State) (core addr : Nat) :
    let c := (s.core core).stage.ctx
    let t := addressFault s core addr
    t.mem = { s.mem with addressFaults := s.mem.addressFaults + 1 } ∧ (t.core core).stage.st = .stopped ∧
      (t.ctx c).faults = (s.ctx c).faults + 1 ∧
      ((s.ctx c).fault = none → (t.ctx c).fault = some ⟨.addressFault, some core, .memory, addr⟩) := by
  obtain ⟨-, hst, hfaults, hfault, hmem⟩ := stopStage_facts
    { s with mem := { s.mem with addressFaults := s.mem.addressFaults + 1 } } core .addressFault addr
  exact ⟨hmem, hst, hfaults, hfault⟩

end Sys2Proof.Laws.WordAccess

namespace Sys2Proof.Claims

open Sys2Proof.Laws.WordAccess in
/-- Settles O21. An access that its engine may make waits or goes through (`memAccess_of_accesses`), and any other is
an address fault (`memAccess_faults`); what a word written and a word read leave is `writeWord_word`, `writeWord_facts`
and the lemmas on `readWord`. That a word lost with its link counts no POISON_IN is log entry 69, and that the LOAD of
a context that has lost a core ends in the same command is log entry 80. -/
theorem accessesMoveWholeWords : Obligations.AccessesMoveWholeWords := by
  unfold Obligations.AccessesMoveWholeWords
  intro s who addr hwf w
  refine ⟨fun d p e h hstalls => exec_memAccess_waits h hstalls p e, fun v poison e h hmoves =>
    cns (exec_memAccess_goes h hmoves poison e) ?_, fun p e h hmoves => cns (exec_memAccess_goes h hmoves p e) ?_,
    fun core d p e hwho hlive hreach hown => cns (exec_memAccess_faults hwho hlive hreach hown p e) ?_⟩
  · obtain ⟨hself, hother, hpoison, hpoisons⟩ := writeWord_word hwf w v poison
    obtain ⟨-, hcores, hgranules, hhbm, hcxl⟩ := writeWord_facts s w v poison
    exact ⟨hself, hother, hpoison, hpoisons, hcores, hgranules, hhbm, hcxl⟩
  · have hmem := readWord_mem s w e
    refine ⟨fun a => ?_, fun he => ?_, fun he => ?_, fun ht => ?_, fun ht => ?_, fun n ht => ?_, fun he ht hkey => ?_⟩
    · exact (congrArg (fun m => m.read a) hmem).trans (by split <;> rfl)
    · exact hmem.trans (if_neg he)
    · rw [accessed, hmem, ← ecc_mem, poisoned_eccEvent]
      simp [he]
    · rw [accessed, hbm_readWord, hbm_eccEvent ht]
      exact ⟨rfl, rfl⟩
    · rw [accessed, cxl_readWord ht]
      exact ⟨rfl, rfl⟩
    · rw [accessed, shelf_readWord, shelf_eccEvent ht]
      exact ⟨rfl, rfl⟩
    · rw [accessed, he, readWord_clean ht hkey]
  · obtain ⟨hmem, hst, hfaults, hfault⟩ := addressFault_facts s core addr
    intro c
    rw [hmem]
    exact ⟨rfl, rfl, hst, hfaults, hfault⟩

end Sys2Proof.Claims
end

section
/-!
PROOF. The patrol scrub, the fill of granules and the CXL ports (O22).
-/

open Sys2Proof Sys2Proof.Machine Sys2Proof.Claims Sys2Proof.Laws Sys2Proof.Laws.Tiers

namespace Sys2Proof.Laws.TierUpkeep

/-! ### PATROL_SCRUB (06 R232) -/

theorem exec_patrolScrub {k : Nat} (hk : k < 8) (e : Ecc) (s : State) :
    exec (.patrolScrub k e) s = .next (patrolScrub s k e) :=
  withUnit_of (by simpa using hk)

/-- The controller of a stack once its patrol has read a word. -/
def patrolled (h : Hbm) (e : Ecc) : Hbm := { h with
  patrolNext := if h.patrolNext + 1 = stackWords then 0 else h.patrolNext + 1
  patrolPasses := h.patrolPasses + (if h.patrolNext + 1 = stackWords then 1 else 0)
  eccCorrected := h.eccCorrected + (if e = .corrected then 1 else 0)
  patrolUncorrected := h.patrolUncorrected + (if e = .uncorrected then 1 else 0) }

section
variable {s : State} {k : Nat} (hready : (s.hbm k).st = .ready)
include hready

theorem patrolScrub_ready (e : Ecc) : patrolScrub s k e =
    let s1 := s.modHbm k fun h => patrolled h e
    if e = .uncorrected then storePoison s1 (stackAddr k (s.hbm k).patrolNext s.mem.interleave / 128) else s1 := by
  rw [patrolScrub, if_neg (not_not_intro hready)]
  simp [patrolled, State.modHbm]

theorem hbm_patrolScrub_self (e : Ecc) : (patrolScrub s k e).hbm k = patrolled (s.hbm k) e := by
  rw [patrolScrub_ready hready]
  by_cases he : e = .uncorrected <;> simp [he, storePoison]

theorem hbm_patrolScrub_other (e : Ecc) {j : Nat} (hj : j ≠ k) : (patrolScrub s k e).hbm j = s.hbm j := by
  rw [patrolScrub_ready hready]
  by_cases he : e = .uncorrected <;> simp [he, storePoison, hj]

theorem mem_patrolScrub_of_ne {e : Ecc} (he : e ≠ .uncorrected) : (patrolScrub s k e).mem.mem = s.mem.mem := by
  simp [patrolScrub_ready hready, he]

theorem mem_patrolScrub_uncorrected : (patrolScrub s k .uncorrected).mem.mem = { s.mem.mem with
    poison := setInsert s.mem.mem.poison (stackAddr k (s.hbm k).patrolNext s.mem.interleave / 128) } := by
  simp [patrolScrub_ready hready, storePoison]

end

/-! ### GRANULE_FILL_DONE (06 R225) -/

theorem exec_granuleFillDone {n : Nat} (hn : n < nGranules) (s : State) :
    exec (.granuleFillDone n) s = .next (granuleFillDone s n) :=
  withUnit_of (by simpa using hn)

theorem read_zeroRange (m : Mem) (lo hi a : Nat) :
    (m.zeroRange lo hi).read a = if a < lo ∨ hi ≤ a then m.read a else 0 := by
  simpa [Mem.read, Mem.zeroRange] using cellsRead_filter m.cells (fun a => decide (a < lo) || decide (hi ≤ a)) a

/-- A granule that waits for its fill and is not lost reads zero afterwards, and is SCRUBBED. -/
theorem granuleFillDone_fills {s : State} {n : Nat} (hfilling : (s.granule n).filling = true)
    (hlost : (s.granule n).lost = false) : granuleFillDone s n =
      (s.setMem (s.mem.mem.zeroRange (granuleBase n) (granuleBase n + 2 ^ 26))).modGranule n
        fun g => { g with filling := false, scrubbed := true } := by
  simp [granuleFillDone, hfilling, hlost]

/-! ### CXL_WRITE_DURABLE (06 R236) -/

theorem exec_cxlWriteDurable {p : Nat} (hp : p < 4) (s : State) :
    exec (.cxlWriteDurable p) s = .next (s.modCxl p fun x => { x with flight := x.flight.drop 1 }) :=
  withUnit_of (by simpa using hp)

/-! ### CXL_LINK_FAIL (06 R240) -/

theorem exec_cxlLinkFail {p : Nat} (hp : p < 4) (s : State) :
    exec (.cxlLinkFail p) s = .next (failLost s (cxlLinkFail s p) p) :=
  withUnit_of (by simpa using hp)

/-- No commit loses a write where the link did not run. -/
theorem failLost_of_not_up {before : State} {p : Nat} (h : (before.cxl p).st ≠ .up) (after : State) :
    failLost before after p = after := by
  refine List.foldl_fixed' (fun c => ?_) _
  dsimp only
  split
  · rfl
  · simp [h]

theorem cxlLinkFail_not_up {s : State} {p : Nat} (h : (s.cxl p).st ≠ .up) : cxlLinkFail s p = s := if_pos h

/-- A port whose link has failed, with its writes in flight counted and lost, in its one retrain. -/
def linkFailed (x : Cxl) : Cxl := { x with
  st := .training
  retrains := x.retrains + 1
  writesLost := x.writesLost + BitVec.ofNat 32 x.flight.length
  flight := [] }

theorem cxlLinkFail_up {s : State} {p : Nat} (h : (s.cxl p).st = .up) : cxlLinkFail s p =
    (s.setMem (undoWrites s.mem.mem (s.cxl p).flight)).modCxl p linkFailed := by
  rw [cxlLinkFail, if_neg (not_not_intro h)]
  rfl

theorem mem_failLost (before after : State) (p : Nat) : (failLost before after p).mem = after.mem :=
  mem_of (touches_failLost before after p) (by decide) (by decide) (by decide)

theorem cxl_failLost (before after : State) (p q : Nat) : (failLost before after p).cxl q = after.cxl q := by
  simp only [State.cxl, mem_failLost]

/-! ### CXL_RETRAIN_DONE (06 R239, R240) -/

theorem exec_cxlRetrainDone {p : Nat} (hp : p < 4) (ok : Bool) (s : State) :
    exec (.cxlRetrainDone p ok) s = .next (ledgerLost s (cxlRetrainDone s p ok)) :=
  withUnit_of (by simpa using hp)

theorem mem_ledgerLost (before after : State) : (ledgerLost before after).mem = after.mem :=
  mem_of (touches_ledgerLost before after) (by decide) (by decide) (by decide)

theorem cxl_ledgerLost (before after : State) (q : Nat) : (ledgerLost before after).cxl q = after.cxl q := by
  simp only [State.cxl, mem_ledgerLost]

theorem granule_ledgerLost (before after : State) (n : Nat) :
    (ledgerLost before after).granule n = after.granule n := by
  simp only [State.granule, mem_ledgerLost]

theorem nodup_portGranules (p : Nat) : (portGranules p).Nodup :=
  List.Nodup.map (fun a b (h : 4608 + p / 2 * 4096 + a = 4608 + p / 2 * 4096 + b) => by omega) List.nodup_range

theorem mem_portGranules {p i : Nat} (hi : i < 4096) : 4608 + p / 2 * 4096 + i ∈ portGranules p :=
  List.mem_map_of_mem (List.mem_range.2 hi)

section
variable {s : State} {p : Nat} (htraining : (s.cxl p).st = .training)
include htraining

theorem cxlRetrainDone_up : cxlRetrainDone s p true = s.modCxl p fun x => { x with st := .up } := by
  simp [cxlRetrainDone, htraining]

theorem cxlRetrainDone_failed :
    cxlRetrainDone s p false = loseGranules (s.modCxl p fun x => { x with st := .failed }) p := by
  simp [cxlRetrainDone, htraining]

end

end Sys2Proof.Laws.TierUpkeep

namespace Sys2Proof.Claims

open Sys2Proof.Laws.TierUpkeep in
/-- Settles O22. The patrol of a ready stack leaves its controller as `patrolled` says; a fill is a zero fill of the
granule (`read_zeroRange`); a link that fails undoes its writes in flight, and only they change memory; and a retrain
that fails loses the granules of its die (`lose`). That a lost write reverts to the word before it is log entry 69. -/
theorem patrolFillAndCxlPorts : Obligations.PatrolFillAndCxlPorts := by
  unfold Obligations.PatrolFillAndCxlPorts
  refine ⟨fun s k e hk hready => ⟨_, exec_patrolScrub hk e s, ?_⟩, fun s n hn _ hfilling hlost =>
    ⟨_, exec_granuleFillDone hn s, ?_⟩, fun s p hp => exec_cxlWriteDurable hp s, fun s p hp hup =>
    ⟨_, exec_cxlLinkFail hp s, ?_⟩, fun s p hp hdown => ?_, fun s p hp htraining =>
    ⟨⟨_, exec_cxlRetrainDone hp true s, ?_⟩, _, exec_cxlRetrainDone hp false s, ?_⟩⟩
  · dsimp only
    rw [hbm_patrolScrub_self hready]
    refine ⟨rfl, rfl, rfl, rfl, rfl, fun j hj => hbm_patrolScrub_other hready e hj, ?_, fun he => ?_, fun he => ?_⟩
    · by_cases he : e = .uncorrected
      · rw [he, mem_patrolScrub_uncorrected hready]
      · rw [mem_patrolScrub_of_ne hready he]
    · rw [mem_patrolScrub_of_ne hready he]
    · rw [he, mem_patrolScrub_uncorrected hready]
      exact (mem_setInsert _ _ _).trans (by simp)
  · rw [granuleFillDone_fills hfilling hlost]
    simp only [modGranule_mem_mem, mem_setMem, read_zeroRange, granule_modGranule_self, setMem_granule]
    refine ⟨fun a hlow hhigh => if_neg (by omega), fun a hout => if_pos hout, trivial, fun m hm => ?_⟩
    rw [granule_modGranule_other _ _ _ _ hm, setMem_granule]
  · simp only [cxl_failLost, mem_failLost, cxlLinkFail_up hup, cxl_modCxl_self, setMem_cxl]
    exact ⟨rfl, rfl, rfl, rfl, fun q hq => cxl_modCxl_other _ _ _ _ hq, rfl⟩
  · rw [exec_cxlLinkFail hp, cxlLinkFail_not_up hdown, failLost_of_not_up hdown]
  · simp only [cxl_ledgerLost, mem_ledgerLost, cxlRetrainDone_up htraining, cxl_modCxl_self]
    exact ⟨trivial, fun q hq => cxl_modCxl_other _ _ _ _ hq, rfl⟩
  · obtain ⟨hgranules, hports⟩ := lose (s.modCxl p fun x => { x with st := .failed }) p (nodup_portGranules p)
    simp only [cxl_ledgerLost, granule_ledgerLost, cxlRetrainDone_failed htraining, hports, cxl_modCxl_self,
      hgranules]
    exact ⟨trivial, fun i hi => by rw [if_pos (mem_portGranules hi)], fun n hn => if_neg hn⟩

end Sys2Proof.Claims
end

section
/-!
PROOF. The shelf prefetch engine (O23): PREFETCH_TURN.
-/

open Sys2Proof Sys2Proof.Machine Sys2Proof.Claims Sys2Proof.Laws Sys2Proof.Laws.Tiers

namespace Sys2Proof.Laws.Prefetching

/-! ### The turn of an engine (06 R244, R253) -/

theorem exec_prefetchTurn {sh : Nat} (hsh : sh < nShelves) (e : Ecc) (s : State) :
    exec (.prefetchTurn sh e) s = .next (returnCredits (prefetchTurn s sh e)) :=
  withUnit_of (by simpa using hsh)

/-- The engine has dropped the requests whose requester is gone, and has taken the request that is due. -/
def requestTaken (s : State) (sh : Nat) : State :=
  takeRequest (s.modShelf sh fun x => { x with pfReqs := x.pfReqs.filter (reqStands s sh) }) sh

/-- The requests of an engine once `q` has moved a word: it is one word shorter, or over. -/
def requestsAfter (q : PfReq) (ended : Bool) (l : List PfReq) : List PfReq :=
  l.filterMap fun r =>
    if r.fill != q.fill || r.id ≠ q.id then some r else if ended then none else some { r with left := q.left - 1 }

/-- A request has moved a word. -/
def requestServed (u : State) (sh : Nat) (q : PfReq) (e : Ecc) : State :=
  (serveRequest u sh q e).modShelf sh fun x => { x with
    pfReqs := requestsAfter q (q.left ≤ 1 || reqEnded (serveRequest u sh q e) sh q) x.pfReqs }

section
variable {s : State} {sh : Nat}

theorem prefetchTurn_off (hoff : domainOn s (shelfDomain sh) = false) (e : Ecc) : prefetchTurn s sh e = s := by
  simp [prefetchTurn, hoff]

variable (hon : domainOn s (shelfDomain sh) = true)
include hon

theorem prefetchTurn_idle
    (hnone : ((requestTaken s sh).shelf sh).pfReqs.find? (reqMoves (requestTaken s sh) sh) = none) (e : Ecc) :
    prefetchTurn s sh e = requestTaken s sh := by
  rw [requestTaken] at hnone
  simp only [prefetchTurn, hon, hnone]
  rfl

theorem prefetchTurn_serves {q : PfReq}
    (hfirst : ((requestTaken s sh).shelf sh).pfReqs.find? (reqMoves (requestTaken s sh) sh) = some q)
    (e : Ecc) : prefetchTurn s sh e = requestServed (requestTaken s sh) sh q e := by
  rw [requestTaken] at hfirst
  simp only [prefetchTurn, hon, hfirst]
  rfl

end

/-! ### What taking a request leaves alone -/

/-- Taking a request changes the requests and the round of an engine, and nothing else of the state. -/
theorem requestTaken_eq (s : State) (sh : Nat) : ∃ T, requestTaken s sh = { s with shelves := T } := by
  obtain ⟨T, h, -⟩ := take_facts (s.modShelf sh fun x => { x with pfReqs := x.pfReqs.filter (reqStands s sh) }) sh
  exact ⟨T, h⟩

theorem shelf_requestTaken (s : State) (sh : Nat) :
    ((requestTaken s sh).shelf sh).pfRead = (s.shelf sh).pfRead ∧
    ((requestTaken s sh).shelf sh).pfWritten = (s.shelf sh).pfWritten ∧
    ((requestTaken s sh).shelf sh).pf = (s.shelf sh).pf ∧
    ((requestTaken s sh).shelf sh).pfReqs.length ≤ max 64 (s.shelf sh).pfReqs.length := by
  obtain ⟨-, -, hread, hwritten, hpf, -, hlength⟩ :=
    take_facts (s.modShelf sh fun x => { x with pfReqs := x.pfReqs.filter (reqStands s sh) }) sh
  rw [shelf_modShelf_self] at hread hwritten hpf hlength
  refine ⟨hread, hwritten, hpf, hlength.trans (max_le_max_left _ (List.length_filter_le _ _))⟩

section
variable (s : State) (sh : Nat)

theorem mem_requestTaken : (requestTaken s sh).mem = s.mem := by
  obtain ⟨T, h⟩ := requestTaken_eq s sh
  rw [h]

theorem core_requestTaken (core : Nat) : (requestTaken s sh).core core = s.core core := by
  obtain ⟨T, h⟩ := requestTaken_eq s sh
  rw [h]
  rfl

theorem ctx_requestTaken (c : Nat) : (requestTaken s sh).ctx c = s.ctx c := by
  obtain ⟨T, h⟩ := requestTaken_eq s sh
  rw [h]
  rfl

theorem mayReach_requestTaken (c a n : Nat) : mayReach (requestTaken s sh) c a n = mayReach s c a n := by
  obtain ⟨T, h⟩ := requestTaken_eq s sh
  rw [h]
  rfl

theorem keyGone_requestTaken (w : Nat) : keyGone (requestTaken s sh) w = keyGone s w := by
  obtain ⟨T, h⟩ := requestTaken_eq s sh
  rw [h]
  rfl

theorem fillOf_requestTaken (core : Nat) : fillOf (requestTaken s sh) core = fillOf s core := by
  simp only [fillOf, core_requestTaken]

/-! ### What the end of the turn leaves alone -/

theorem cores_returnCredits : (returnCredits s).cores = s.cores :=
  (touches_returnCredits s).same .cores (by decide)

theorem shelf_returnCredits (n : Nat) : (returnCredits s).shelf n = s.shelf n :=
  shelf_of ((touches_returnCredits s).same .shelves (by decide)) n

theorem bytes_returnCredits : (returnCredits s).mem.mem = s.mem.mem :=
  (touches_returnCredits s).same .bytes (by decide)

end

/-! ### The word that a request moves -/

section
variable {u : State} {sh d : Nat}

theorem serveRequest_fill {core area : Nat} {g : Staging} (hfill : fillOf u core = some (area, g)) (left : Nat)
    (e : Ecc) : serveRequest u sh ⟨true, core, left⟩ e = fillTurn u sh core area g e := by
  simp [serveRequest, hfill]

variable {p : PfHeld} (hp : tget (u.shelf sh).pf d = some p)
include hp

theorem serveRequest_read (hop : p.desc.op = 1) (left : Nat) (e : Ecc) :
    serveRequest u sh ⟨false, d, left⟩ e = readTurn u sh d p e := by
  simp [serveRequest, hp, hop]

theorem serveRequest_write {k : Nat} {r : StreamRec} {w : SWord} (hop : p.desc.op ≠ 1)
    (hhead : writeHead u sh d p = some (k, r, w)) (left : Nat) (e : Ecc) :
    serveRequest u sh ⟨false, d, left⟩ e = writeTurn u sh d k p r w := by
  simp [serveRequest, hp, hop, hhead]

end

/-- The engine has served a request, and the consumers have returned their CREDIT. -/
def turnEnded (s : State) (sh : Nat) (q : PfReq) (e : Ecc) : State :=
  returnCredits (requestServed (requestTaken s sh) sh q e)

section
variable (s : State) (sh : Nat) (q : PfReq) (e : Ecc)

theorem core_turnEnded (k : Nat) : (turnEnded s sh q e).core k = (serveRequest (requestTaken s sh) sh q e).core k :=
  (core_of (cores_returnCredits (requestServed (requestTaken s sh) sh q e)) k).trans (modShelf_core _ _ _ _)

theorem bytes_turnEnded : (turnEnded s sh q e).mem.mem = (serveRequest (requestTaken s sh) sh q e).mem.mem := by
  rw [turnEnded, bytes_returnCredits, requestServed, modShelf_mem]

/-- But for its requests, the engine is as the word has left it. -/
theorem shelf_turnEnded : (turnEnded s sh q e).shelf sh =
    let u := serveRequest (requestTaken s sh) sh q e
    { u.shelf sh with pfReqs := requestsAfter q (q.left ≤ 1 || reqEnded u sh q) (u.shelf sh).pfReqs } := by
  rw [turnEnded, shelf_returnCredits, requestServed, shelf_modShelf_self]

variable {s sh q e}

/-- A request is over with its last word, and otherwise one word shorter. -/
theorem requests_turnEnded {r : PfReq} (h : r ∈ ((turnEnded s sh q e).shelf sh).pfReqs) (hfill : r.fill = q.fill)
    (hid : r.id = q.id) : 1 < q.left ∧ r.left = q.left - 1 := by
  rw [shelf_turnEnded] at h
  exact left_fact _ q _ (fun hend => by simpa using (Bool.or_eq_false_iff.1 hend).1) r h hfill hid

end

/-! ### A staging fill (06 R250) -/

/-- A fill with the next word of its tiles, the poison of the word beside it. -/
def wordStaged (c : Core) (g : Staging) (w : BitVec 1024) (poison : Bool) : Staging :=
  let tb := tileBytes (weightFmt c.arr.mode) / 128
  let u := g.arrived / tb
  let k := g.arrived % tb
  let t := tgetD g.tiles u (0, 0)
  { g with
    arrived := g.arrived + 1
    tiles := tset g.tiles u (t.1 + w.toNat * 2 ^ (1024 * k), t.2 + if poison then 2 ^ k else 0) }

theorem fillTurn_clean {u : State} {core : Nat} {g : Staging}
    (hreach : mayReach u (u.core core).stage.ctx (fillAddr (u.core core) g) 128 = true)
    (hkey : keyGone u (fillAddr (u.core core) g / 128) = false) (sh area : Nat) :
    let w := fillAddr (u.core core) g / 128
    ∃ m, m.mem = u.mem.mem ∧ fillTurn u sh core area g .clean =
      (({ u with mem := m } : State).modCore core fun c => { c with stage := { c.stage with
        staging := tset c.stage.staging area (wordStaged (u.core core) g (u.mem.mem.word w) (u.mem.mem.poisoned w)) }
        }).modShelf sh fun x => { x with pfRead := x.pfRead + 128 } := by
  obtain ⟨m, hread, hm⟩ := readClean u _ hkey
  refine ⟨m, hm, ?_⟩
  rw [fillTurn, hread, hreach]
  rfl

theorem fillTurn_facts {u : State} {core : Nat} {g : Staging}
    (hreach : mayReach u (u.core core).stage.ctx (fillAddr (u.core core) g) 128 = true)
    (hkey : keyGone u (fillAddr (u.core core) g / 128) = false) (sh area : Nat) :
    let w := fillAddr (u.core core) g / 128
    let t := fillTurn u sh core area g .clean
    CoresBut core u t ∧ (t.shelf sh).pfRead = (u.shelf sh).pfRead + 128 ∧
    (t.core core).arr = (u.core core).arr ∧ t.mem.mem = u.mem.mem ∧
    tget (t.core core).stage.staging area =
      some (wordStaged (u.core core) g (u.mem.mem.word w) (u.mem.mem.poisoned w)) := by
  obtain ⟨m, hm, hturn⟩ := fillTurn_clean hreach hkey sh area
  intro w t
  have ht : t = _ := hturn
  rw [ht, shelf_modShelf_self, modShelf_core, core_modCore_self]
  refine ⟨fun k hk => ?_, rfl, rfl, hm, tget_tset_self _ _ _⟩
  rw [modShelf_core, core_modCore_other _ _ _ _ hk]
  rfl

/-- The next word stands behind the words of its tile before it, and the other tiles stay. -/
theorem wordStaged_facts (c : Core) (g : Staging) (w : BitVec 1024) (poison : Bool) :
    let tb := tileBytes (weightFmt c.arr.mode) / 128
    let u := g.arrived / tb
    let g' := wordStaged c g w poison
    g'.arrived = g.arrived + 1 ∧ g'.full = g.full ∧
    (tgetD g'.tiles u (0, 0)).1 = (tgetD g.tiles u (0, 0)).1 + w.toNat * 2 ^ (1024 * (g.arrived % tb)) ∧
    (tgetD g'.tiles u (0, 0)).2 = (tgetD g.tiles u (0, 0)).2 + (if poison then 2 ^ (g.arrived % tb) else 0) ∧
    ∀ v, v ≠ u → tget g'.tiles v = tget g.tiles v := by
  intro tb u g'
  refine ⟨rfl, rfl, ?_, ?_, fun v hv => tget_tset_other _ _ _ _ hv⟩
  · exact congrArg Prod.fst (tgetD_tset_self g.tiles u _ (0, 0))
  · exact congrArg Prod.snd (tgetD_tset_self g.tiles u _ (0, 0))

/-! ### A memory endpoint that reads (06 R251; 15 R555, R556) -/

/-- A word of a slot has been read, and its channel of the check unit has absorbed it. -/
def wordRead (u : State) (m : MemSys) (sh d base : Nat) (w : BitVec 1024) : State :=
  (({ u with mem := m } : State).modShelf sh fun x => { x with pfRead := x.pfRead + 128 }).modCheck sh fun k =>
    (k.use d).absorb d base w

/-- A slot that has not been read to its end is not given back (06 R246). -/
theorem slotRead_unread (s : State) (sh : Nat) (p : PfHeld) : slotRead s sh p false = s := by
  simp only [slotRead, Bool.false_and, Bool.false_eq_true, if_false]
  split <;> rfl

section
variable {u : State} {p : PfHeld} {h : THdr} {r : StreamRec}
  (hstream : streamRec (u.ctx p.ctx) p.stream = some r) (hhdr : p.hdr = some h)
  (hreach : mayReach u p.ctx (slotAddr p.desc p.slot + 128 * p.word) 128 = true)
include hhdr hreach

include hstream in
/-- A word that is neither the first nor the last of its slot. -/
theorem readTurn_between (hfirst : p.word ≠ 0) (hlast : p.word + 1 ≠ storedWords h)
    (hkey : keyGone u ((slotAddr p.desc p.slot + 128 * p.word) / 128) = false) (sh d : Nat) :
    let base := slotAddr p.desc p.slot
    let w := u.mem.mem.word ((base + 128 * p.word) / 128)
    let poison := u.mem.mem.poisoned ((base + 128 * p.word) / 128)
    ∃ m, m.mem = u.mem.mem ∧ readTurn u sh d p .clean =
      let emitted := readEmit (wordRead u m sh d base w) p ⟨w, false, false, poison⟩
      PfHeld.put emitted.1 sh d
        { emitted.2 with word := p.word + 1, hdr := some h, bad := p.bad || poison } := by
  obtain ⟨m, hread, hm⟩ := readClean u _ hkey
  refine ⟨m, hm, ?_⟩
  simp only [readTurn, hstream, hreach, hread, hhdr, hfirst, hlast, decide_false, Bool.false_and, Bool.not_true,
    Bool.false_eq_true, if_false, Bool.or_false]
  rw [slotRead_unread]
  rfl

/-! ### A memory endpoint that writes (06 R251; 15 R555, R556) -/

/-- A word has left its stream for the slot, and its channel of the check unit has absorbed it. -/
def wordWritten (u : State) (sh d k : Nat) (p : PfHeld) (w : SWord) : State :=
  let base := slotAddr p.desc p.slot
  ((writeWord (popWord u p.ctx p.stream k) ((base + 128 * p.word) / 128) w.bits w.poison).modShelf sh fun x =>
    { x with pfWritten := x.pfWritten + 128 }).modCheck sh fun c => (c.use d).absorb d base w.bits

/-- A word that is neither the first nor the last of its tensor. -/
theorem writeTurn_between {w : SWord} (hfirst : w.header = false) (hlast : w.last = false) (sh d k : Nat) :
    writeTurn u sh d k p r w =
      PfHeld.put (wordWritten u sh d k p w) sh d { p with word := p.word + 1, bad := p.bad || w.poison } := by
  simp only [writeTurn, hfirst, hlast, hhdr, hreach, Bool.false_and, Bool.not_true, Bool.false_eq_true, if_false]
  rfl

end

/-! ### What a word moved leaves -/

section
variable (u : State) (sh d : Nat)

theorem bytes_put (p : PfHeld) : (PfHeld.put u sh d p).mem.mem = u.mem.mem := rfl

/-- A record of an endpoint put back changes nothing else of its engine. -/
theorem shelf_put (p : PfHeld) :
    (PfHeld.put u sh d p).shelf sh = { u.shelf sh with pf := tset (u.shelf sh).pf d p } :=
  shelf_modShelf_self _ _ _

theorem readEmit_facts (p : PfHeld) (w : SWord) :
    (readEmit u p w).1.mem.mem = u.mem.mem ∧ (readEmit u p w).1.shelf sh = u.shelf sh := by
  obtain ⟨-, hsame⟩ := touches_readEmit u p w
  exact ⟨hsame .bytes (by decide), shelf_of (hsame .shelves (by decide)) sh⟩

theorem pfRead_wordRead (m : MemSys) (base : Nat) (w : BitVec 1024) :
    ((wordRead u m sh d base w).shelf sh).pfRead = (u.shelf sh).pfRead + 128 := by
  rw [wordRead, State.modCheck, shelf_modShelf_self, shelf_modShelf_self]
  rfl

theorem wordWritten_facts (k : Nat) (p : PfHeld) (w : SWord) :
    (wordWritten u sh d k p w).mem.mem =
      u.mem.mem.setWord ((slotAddr p.desc p.slot + 128 * p.word) / 128) w.bits w.poison ∧
    ((wordWritten u sh d k p w).shelf sh).pfWritten = (u.shelf sh).pfWritten + 128 := by
  obtain ⟨-, hpop⟩ := touches_popWord u p.ctx p.stream k
  obtain ⟨-, hwrite⟩ := touches_writeWord (popWord u p.ctx p.stream k)
    ((slotAddr p.desc p.slot + 128 * p.word) / 128) w.bits w.poison
  have hbytes : (popWord u p.ctx p.stream k).mem.mem = u.mem.mem := hpop .bytes (by decide)
  have hshelves := (hwrite .shelves (by decide)).trans (hpop .shelves (by decide))
  simp only [wordWritten, State.modCheck, modShelf_mem, ww_bytes, hbytes, shelf_modShelf_self, shelf_of hshelves]
  exact ⟨trivial, trivial⟩

end

section
variable {u : State} {p : PfHeld} {h : THdr} (hhdr : p.hdr = some h)
  (hreach : mayReach u p.ctx (slotAddr p.desc p.slot + 128 * p.word) 128 = true)
include hhdr hreach

theorem readTurn_facts (hstream : (streamRec (u.ctx p.ctx) p.stream).isSome = true) (hfirst : p.word ≠ 0)
    (hlast : p.word + 1 ≠ storedWords h)
    (hkey : keyGone u ((slotAddr p.desc p.slot + 128 * p.word) / 128) = false) (sh d : Nat) :
    let t := readTurn u sh d p .clean
    let poison := u.mem.mem.poisoned ((slotAddr p.desc p.slot + 128 * p.word) / 128)
    t.mem.mem = u.mem.mem ∧ (t.shelf sh).pfRead = (u.shelf sh).pfRead + 128 ∧ ∃ g, tget (t.shelf sh).pf d =
      some { p with got := g, word := p.word + 1, hdr := some h, bad := p.bad || poison } := by
  obtain ⟨r, hr⟩ := Option.isSome_iff_exists.1 hstream
  obtain ⟨m, hm, hturn⟩ := readTurn_between hr hhdr hreach hfirst hlast hkey sh d
  intro t poison
  have ht : t = _ := hturn
  obtain ⟨hbytes, hshelf⟩ := readEmit_facts
    (wordRead u m sh d (slotAddr p.desc p.slot) (u.mem.mem.word ((slotAddr p.desc p.slot + 128 * p.word) / 128))) sh p
    ⟨u.mem.mem.word ((slotAddr p.desc p.slot + 128 * p.word) / 128), false, false, poison⟩
  obtain ⟨g, hg⟩ := emit_keeps
    (wordRead u m sh d (slotAddr p.desc p.slot) (u.mem.mem.word ((slotAddr p.desc p.slot + 128 * p.word) / 128))) p
    ⟨u.mem.mem.word ((slotAddr p.desc p.slot + 128 * p.word) / 128), false, false, poison⟩
  rw [ht, shelf_put, bytes_put, hbytes, hshelf, pfRead_wordRead, hg]
  exact ⟨hm, rfl, g, tget_tset_self _ _ _⟩

theorem writeTurn_facts {w : SWord} (hfirst : w.header = false) (hlast : w.last = false) (r : StreamRec)
    (sh d k : Nat) : let t := writeTurn u sh d k p r w
    t.mem.mem = u.mem.mem.setWord ((slotAddr p.desc p.slot + 128 * p.word) / 128) w.bits w.poison ∧
    (t.shelf sh).pfWritten = (u.shelf sh).pfWritten + 128 ∧
    tget (t.shelf sh).pf d = some { p with word := p.word + 1, bad := p.bad || w.poison } := by
  obtain ⟨hbytes, hwritten⟩ := wordWritten_facts u sh d k p w
  simp only [writeTurn_between hhdr hreach hfirst hlast, shelf_put, bytes_put]
  exact ⟨hbytes, hwritten, tget_tset_self _ _ _⟩

end

/-! ### The turns that move a word -/

section
variable {s : State} {sh : Nat}

theorem exec_prefetchTurn_serves (hsh : sh < nShelves) (hon : domainOn s (shelfDomain sh) = true) {q : PfReq}
    (hfirst : ((requestTaken s sh).shelf sh).pfReqs.find? (reqMoves (requestTaken s sh) sh) = some q) (e : Ecc) :
    exec (.prefetchTurn sh e) s = .next (turnEnded s sh q e) := by
  rw [exec_prefetchTurn hsh, prefetchTurn_serves hon hfirst, turnEnded]

theorem fill_turnEnded {core area : Nat} {g : Staging} (hfill : fillOf s core = some (area, g))
    (hreach : mayReach s (s.core core).stage.ctx (fillAddr (s.core core) g) 128 = true)
    (hkey : keyGone s (fillAddr (s.core core) g / 128) = false) (sh left : Nat) :
    let w := fillAddr (s.core core) g / 128
    let t := turnEnded s sh ⟨true, core, left⟩ .clean
    CoresBut core s t ∧ (t.shelf sh).pfRead = (s.shelf sh).pfRead + 128 ∧ (t.core core).arr = (s.core core).arr ∧
    t.mem.mem = s.mem.mem ∧ tget (t.core core).stage.staging area =
      some (wordStaged (s.core core) g (s.mem.mem.word w) (s.mem.mem.poisoned w)) := by
  rw [← fillOf_requestTaken s sh] at hfill
  rw [← mayReach_requestTaken s sh, ← core_requestTaken s sh] at hreach
  rw [← keyGone_requestTaken s sh, ← core_requestTaken s sh] at hkey
  obtain ⟨hread, -⟩ := shelf_requestTaken s sh
  obtain ⟨hcores, hpfRead, harr, hbytes, hstaging⟩ := fillTurn_facts hreach hkey sh area
  rw [← serveRequest_fill hfill left] at hcores hpfRead harr hbytes hstaging
  simp only [core_requestTaken, mem_requestTaken, hread, CoresBut] at hcores hpfRead harr hbytes hstaging
  simp only [core_turnEnded, bytes_turnEnded, shelf_turnEnded, CoresBut]
  exact ⟨hcores, hpfRead, harr, hbytes, hstaging⟩

variable {d : Nat} {p : PfHeld} {h : THdr} (hp : tget (s.shelf sh).pf d = some p) (hhdr : p.hdr = some h)
  (hreach : mayReach s p.ctx (slotAddr p.desc p.slot + 128 * p.word) 128 = true)
include hp hhdr hreach

theorem read_turnEnded (hop : p.desc.op = 1) (hstream : (streamRec (s.ctx p.ctx) p.stream).isSome = true)
    (hfirst : p.word ≠ 0) (hlast : p.word + 1 ≠ storedWords h)
    (hkey : keyGone s ((slotAddr p.desc p.slot + 128 * p.word) / 128) = false) (left : Nat) :
    let t := turnEnded s sh ⟨false, d, left⟩ .clean
    let poison := s.mem.mem.poisoned ((slotAddr p.desc p.slot + 128 * p.word) / 128)
    t.mem.mem = s.mem.mem ∧ (t.shelf sh).pfRead = (s.shelf sh).pfRead + 128 ∧ ∃ g, tget (t.shelf sh).pf d =
      some { p with got := g, word := p.word + 1, hdr := some h, bad := p.bad || poison } := by
  obtain ⟨hread, -, hpf, -⟩ := shelf_requestTaken s sh
  rw [← hpf] at hp
  rw [← mayReach_requestTaken s sh] at hreach
  rw [← ctx_requestTaken s sh] at hstream
  rw [← keyGone_requestTaken s sh] at hkey
  have hmoved := readTurn_facts hhdr hreach hstream hfirst hlast hkey sh d
  simp only [mem_requestTaken, hread] at hmoved
  simp only [bytes_turnEnded, shelf_turnEnded, serveRequest_read hp hop]
  exact hmoved

theorem write_turnEnded {k : Nat} {r : StreamRec} {w : SWord} (hop : p.desc.op ≠ 1)
    (hhead : writeHead (requestTaken s sh) sh d p = some (k, r, w)) (hfirst : w.header = false)
    (hlast : w.last = false) (left : Nat) (e : Ecc) :
    let t := turnEnded s sh ⟨false, d, left⟩ e
    t.mem.mem = s.mem.mem.setWord ((slotAddr p.desc p.slot + 128 * p.word) / 128) w.bits w.poison ∧
    (t.shelf sh).pfWritten = (s.shelf sh).pfWritten + 128 ∧
    tget (t.shelf sh).pf d = some { p with word := p.word + 1, bad := p.bad || w.poison } := by
  obtain ⟨-, hwritten, hpf, -⟩ := shelf_requestTaken s sh
  rw [← hpf] at hp
  rw [← mayReach_requestTaken s sh] at hreach
  have hmoved := writeTurn_facts hhdr hreach hfirst hlast r sh d k
  simp only [mem_requestTaken, hwritten] at hmoved
  simp only [bytes_turnEnded, shelf_turnEnded, serveRequest_write hp hop hhead]
  exact hmoved

end

end Sys2Proof.Laws.Prefetching

namespace Sys2Proof.Claims

open Sys2Proof.Laws.Prefetching in
/-- Settles O23. A turn of an engine that runs takes the request that is due (`requestTaken`), and the oldest request
that can move, moves one word (`exec_prefetchTurn_serves`); what the word leaves is `fill_turnEnded`, `read_turnEnded`
and `write_turnEnded`, and `requests_turnEnded` says when the request is over. That a turn is one word is log entry
17. -/
theorem prefetchTurnMovesOneWord : Obligations.PrefetchTurnMovesOneWord := by
  unfold Obligations.PrefetchTurnMovesOneWord
  intro s sh hsh
  refine ⟨fun e hoff => by rw [exec_prefetchTurn hsh, prefetchTurn_off hoff], fun s1 hs1 hon => ?_⟩
  obtain rfl : s1 = requestTaken s sh := hs1
  obtain ⟨hread, hwritten, hpf, hlength⟩ := shelf_requestTaken s sh
  refine ⟨hlength, fun e hnone => by rw [exec_prefetchTurn hsh, prefetchTurn_idle hon hnone],
    fun core left area g hfirst hfill hreach hkey => ⟨_, exec_prefetchTurn_serves hsh hon hfirst .clean, ?_⟩,
    fun d left p hfirst hp => ⟨fun e => ⟨_, exec_prefetchTurn_serves hsh hon hfirst e, fun r hr hfill hid =>
      requests_turnEnded hr hfill hid⟩, fun h hop hstream hhdr hfirstWord hlastWord hreach hkey =>
      ⟨_, exec_prefetchTurn_serves hsh hon hfirst .clean, ?_⟩, fun h k r w hop hhead hheader hlast hhdr hreach e =>
      ⟨_, exec_prefetchTurn_serves hsh hon hfirst e, ?_⟩⟩⟩
  · obtain ⟨hcores, hpfRead, harr, hbytes, hstaging⟩ := fill_turnEnded hfill hreach hkey sh left
    obtain ⟨harrived, hfull, hword, hpoison, hothers⟩ := wordStaged_facts (s.core core) g
      (s.mem.mem.word (fillAddr (s.core core) g / 128)) (s.mem.mem.poisoned (fillAddr (s.core core) g / 128))
    exact ⟨hcores, hpfRead, harr, hbytes, fun r hr hfill hid => requests_turnEnded hr hfill hid, _, hstaging, harrived,
      hfull, hword, hpoison, hothers⟩
  · obtain ⟨hbytes, hpfRead, got, hheld⟩ := read_turnEnded hp hhdr hreach hop hstream hfirstWord hlastWord hkey left
    exact ⟨hbytes, hpfRead, _, hheld, rfl, rfl, rfl, rfl⟩
  · exact write_turnEnded hp hhdr hreach hop hhead hheader hlast left e

end Sys2Proof.Claims
end

section
/-!
PROOF. States at which the statements on the memory tiers apply (O21 to O23): accesses to HBM and CXL words, the
patrol, a granule to fill, a CXL port, and a prefetch engine with a staging fill and with memory endpoints.
-/

open Sys2Proof Sys2Proof.Machine Sys2Proof.Claims Sys2Proof.Laws.WindowExamples Sys2Proof.Laws.StreamExamples

namespace Sys2Proof.Laws.TierExamples

/-- The islands of a state run, HBM stack 0 is ready, and granule 0 is assigned to context 0. -/
def awake (s : State) : State := { s with
  bring := { s.bring with domainOn := BitVec.allOnes 80 }
  mem := { s.mem with
    hbm := [(0, { Hbm.reset with st := .ready })]
    granules := [(0, { Granule.reset with assigned := true })] } }

/-! ### Accesses (06 R217, R218, R227, R236) -/

/-- A poisoned word goes to HBM: its poison is counted. -/
theorem memAccess_writesHbm : Cancels (.memAccess .device 0 (some 0) true .clean) (awake State.reset) fun t =>
    t.mem.mem.poisoned 0 = true ∧ (t.hbm 0).poisonStored = 1 := by
  obtain ⟨-, hwrites, -⟩ := accessesMoveWholeWords (awake State.reset) .device 0 (by decide)
  obtain ⟨t, hexec, -, -, hpoison, -, -, -, hhbm, -⟩ := hwrites 0 true .clean ⟨by decide, by decide⟩ (by decide)
  exact ⟨t, hexec, hpoison, (hhbm (by decide)).trans (by decide)⟩

/-- An uncorrected error is met: the word is poisoned from then on. -/
theorem memAccess_readsUncorrected : Cancels (.memAccess .device 0 none false .uncorrected) (awake State.reset) fun t =>
    t.mem.mem.poisoned 0 = true ∧ (t.hbm 0).eccUncorrected = 1 := by
  obtain ⟨-, -, hreads, -⟩ := accessesMoveWholeWords (awake State.reset) .device 0 (by decide)
  obtain ⟨t, hexec, -, -, hpoison, hhbm, -⟩ := hreads false .uncorrected ⟨by decide, by decide⟩ (by decide)
  obtain ⟨-, huncorrected⟩ := hhbm (by decide)
  exact ⟨t, hexec, hpoison rfl, huncorrected.trans (by decide)⟩

/-- At reset no stack is ready. -/
theorem memAccess_stalls :
    exec (.memAccess .device 0 none false .clean) State.reset = .next (cancelLoads State.reset) := by
  obtain ⟨hstalls, -⟩ := accessesMoveWholeWords State.reset .device 0 (by decide)
  exact hstalls none false .clean ⟨by decide, by decide⟩ (by decide)

/-- A stage whose context owns no granule of HBM. -/
theorem memAccess_faults : Cancels (.memAccess (.stage 0) 0 none false .clean) idleStage fun t =>
    t.mem.addressFaults = 1 ∧ (t.core 0).stage.st = .stopped := by
  obtain ⟨-, -, -, hfaults⟩ := accessesMoveWholeWords idleStage (.stage 0) 0 (by decide)
  obtain ⟨t, hexec, -, hcount, hst, -⟩ := hfaults 0 none false .clean (.inl rfl) ⟨by decide, rfl, by decide⟩ (by decide)
    fun _ _ => .inl (by decide)
  exact ⟨t, hexec, hcount.trans (by decide), hst⟩

/-! ### The patrol and fills (06 R225, R232) -/

/-- The patrol of stack 0 has come to the last word. -/
def patrolAtEnd : State := State.reset.modHbm 0 fun h => { h with st := .ready, patrolNext := stackWords - 1 }

theorem patrolScrub_passes : Answers (.patrolScrub 0 .uncorrected) patrolAtEnd fun t =>
    (t.hbm 0).patrolNext = 0 ∧ (t.hbm 0).patrolPasses = 1 ∧ (t.hbm 0).patrolUncorrected = 1 := by
  obtain ⟨t, hexec, hnext, hpasses, -, huncorrected, -⟩ :=
    patrolFillAndCxlPorts.1 patrolAtEnd 0 .uncorrected (by decide) (by decide)
  exact ⟨t, hexec, hnext.trans (by decide), hpasses.trans (by decide), huncorrected.trans (by decide)⟩

/-- Granule 5 waits for its fill, with a byte in it. -/
def toFill : State :=
  (State.reset.setMem ⟨[(granuleBase 5, 7)], []⟩).modGranule 5 fun g => { g with filling := true }

theorem granuleFillDone_zeroes : Answers (.granuleFillDone 5) toFill fun t =>
    t.mem.mem.read (granuleBase 5) = 0 ∧ (t.granule 5).scrubbed = true := by
  obtain ⟨t, hexec, hzero, -, hgranule, -⟩ :=
    patrolFillAndCxlPorts.2.1 toFill 5 (by decide) (by decide) (by decide) (by decide)
  exact ⟨t, hexec, hzero _ (by decide) (by decide), congrArg Granule.scrubbed hgranule⟩

/-! ### A CXL port (06 R236, R239, R240) -/

/-- CXL port 0, with a byte in its first word. -/
def cxlPort (st : CxlSt) (flight : List CxlOp) : State := awake
  ((State.reset.setMem ⟨[(0x8000000000, 7)], []⟩).modCxl 0 fun x => { x with st := st, flight := flight })

/-- A word goes to the port: it stays in flight. -/
theorem memAccess_writesCxl : Cancels (.memAccess .device 0x8000000000 (some 0) false .clean) (cxlPort .up []) fun t =>
    (t.cxl 0).flight.length = 1 := by
  obtain ⟨-, hwrites, -⟩ := accessesMoveWholeWords (cxlPort .up []) .device 0x8000000000 (by decide)
  obtain ⟨t, hexec, -, -, -, -, -, -, -, hcxl⟩ := hwrites 0 false .clean ⟨by decide, by decide⟩ (by decide)
  exact ⟨t, hexec, congrArg List.length (hcxl (by decide))⟩

/-- The byte was written by the write in flight: it is lost with it. -/
theorem cxlLinkFail_loses : Answers (.cxlLinkFail 0) (cxlPort .up [⟨0x100000000, 0, false⟩]) fun t =>
    (t.cxl 0).writesLost = 1 ∧ t.mem.mem.read 0x8000000000 = 0 := by
  obtain ⟨t, hexec, -, -, -, hlost, -, hmem⟩ :=
    patrolFillAndCxlPorts.2.2.2.1 (cxlPort .up [⟨0x100000000, 0, false⟩]) 0 (by decide) (by decide)
  refine ⟨t, hexec, hlost.trans (by decide), ?_⟩
  rw [hmem]
  exact (setWord_read_self ⟨[(0x8000000000, 7)], []⟩ 0x100000000 0 false 0 (by decide) (by decide)).trans
    (by rw [BitVec.ofNat_eq_ofNat, BitVec.toNat_zero, Nat.zero_div]; rfl)

theorem cxlLinkFail_idle : exec (.cxlLinkFail 0) (cxlPort .down []) = .next (cxlPort .down []) :=
  patrolFillAndCxlPorts.2.2.2.2.1 (cxlPort .down []) 0 (by decide) (by decide)

theorem cxlRetrainDone_loses : Answers (.cxlRetrainDone 0 false) (cxlPort .training []) fun t =>
    (t.cxl 0).st = .failed ∧ (t.granule 4608).lost = true := by
  obtain ⟨-, t, hexec, hst, hlost, -⟩ :=
    patrolFillAndCxlPorts.2.2.2.2.2 (cxlPort .training []) 0 (by decide) (by decide)
  exact ⟨t, hexec, hst, hlost 0 (by decide)⟩

/-! ### A prefetch engine (06 R250, R251, R253) -/

/-- The fill of a tile begins. -/
def begun : Staging := ⟨2, 0, [], F32.one, 0, false⟩

/-- A folded stage whose site runs, with that fill. -/
def fillDue : State := awake
  (({ State.reset with shelves := [(0, { Shelf.reset with lmap := [(0, ⟨0, false, false⟩)] })] } : State).setCore 0
    ((folded true [(0, begun)]).core 0))

theorem prefetchTurn_fills : Answers (.prefetchTurn 0 .clean) fillDue fun t =>
    (t.shelf 0).pfRead = 128 := by
  obtain ⟨-, hturn⟩ := prefetchTurnMovesOneWord fillDue 0 (by decide)
  obtain ⟨-, -, hfill, -⟩ := hturn _ rfl (by decide)
  obtain ⟨t, hexec, -, hread, -⟩ := hfill 0 16 0 begun (by decide) (by decide) (by decide) (by decide)
  exact ⟨t, hexec, hread.trans (by decide)⟩

/-- The header of a tensor of two data words. -/
def twoWords : THdr := { tallTensor 64 1 with format := 3 }

/-- Memory endpoint 0 of shelf 0, at the first data word of that tensor in slot 0. -/
def atEndpoint (op : Nat) : PfHeld where
  desc := ⟨0, 3, op, false, F32.one, 512, 1, 0⟩
  ctx := 0
  stream := 0
  word := 1
  hdr := some twoWords

/-- Context 0 with that endpoint and the stream that it feeds or empties. -/
def withEndpoint (op : Nat) (r : StreamRec) (x : Stream) : State :=
  (awake (withStream (reluStage [0]) r x Core.cleared)).modShelf 0 fun y => { y with pf := [(0, atEndpoint op)] }

/-- A stream from that endpoint into image core 0. -/
def fromMemory : StreamRec := { inStream with producer := 4, maxLen := 64 }

theorem prefetchTurn_reads : Answers (.prefetchTurn 0 .clean) (withEndpoint 1 fromMemory Stream.empty) fun t =>
    (t.shelf 0).pfRead = 128 ∧ (tget (t.shelf 0).pf 0).map (·.word) = some 2 := by
  obtain ⟨-, hturn⟩ := prefetchTurnMovesOneWord (withEndpoint 1 fromMemory Stream.empty) 0 (by decide)
  obtain ⟨-, -, -, hend⟩ := hturn _ rfl (by decide)
  obtain ⟨-, hreads, -⟩ := hend 0 16 (atEndpoint 1) (by decide) (by decide)
  obtain ⟨t, hexec, -, hread, q, hheld, hword, -⟩ := hreads twoWords rfl (by decide) rfl (by decide) (by decide)
    (by decide) (by decide)
  exact ⟨t, hexec, hread.trans (by decide), by rw [hheld]; exact congrArg some hword⟩

/-- A stream from image core 0 to that endpoint. -/
def toMemory : StreamRec := { inStream with producer := 1, consumers := [4], maxLen := 64 }

/-- The first data word of the tensor. -/
def dataWord : SWord := ⟨word 0x3F800000 (by decide), false, false, false⟩

theorem prefetchTurn_writes : Answers (.prefetchTurn 0 .clean) (withEndpoint 2 toMemory (holding dataWord)) fun t =>
    (t.shelf 0).pfWritten = 128 ∧ (tget (t.shelf 0).pf 0).map (·.word) = some 2 := by
  obtain ⟨-, hturn⟩ := prefetchTurnMovesOneWord (withEndpoint 2 toMemory (holding dataWord)) 0 (by decide)
  obtain ⟨-, -, -, hend⟩ := hturn _ rfl (by decide)
  obtain ⟨-, -, hwrites⟩ := hend 0 16 (atEndpoint 2) (by decide) (by decide)
  obtain ⟨t, hexec, -, hwritten, hheld⟩ := hwrites twoWords 0 toMemory dataWord (by decide) rfl rfl rfl rfl
    (by decide) .clean
  exact ⟨t, hexec, hwritten.trans (by decide), by rw [hheld]; rfl⟩

/-- At reset the island of the engine does not run. -/
theorem prefetchTurn_stopped : exec (.prefetchTurn 0 .clean) State.reset = .next (returnCredits State.reset) :=
  (prefetchTurnMovesOneWord State.reset 0 (by decide)).1 .clean (by decide)

end Sys2Proof.Laws.TierExamples
end

section
/-!
PROOF. Samples on their way to their queue and through their decoding (O24): SAMPLE_RECORD, DECODE_START, DECODE_DONE
and CREDIT_TIMER.
-/

open Sys2Proof Sys2Proof.Machine Sys2Proof.Claims Sys2Proof.Laws Sys2Proof.Laws.IntakeSteps

namespace Sys2Proof.Laws.SampleArrival

/-! ### Intake commands -/

section
variable (s : State) (f : State → State)

/-- The credit records that leave the module change no media complex. -/
theorem media_intakeStep : (intakeStep s f).media = (f s).media := fc s (f s)

theorem queue_intakeStep (x n : Nat) : (intakeStep s f).queue x n = (f s).queue x n := qfc s (f s) x n

theorem complex_intakeStep (x : Nat) : (intakeStep s f).complex x = (f s).complex x := cx (media_intakeStep s f) x

theorem sessions_intakeStep (c : Nat) : ((intakeStep s f).ctx c).sessions = ((f s).ctx c).sessions := fcs s (f s) c

end

/-! ### A sample reaches its queue (07 R263 to R266, R288; 09 R380, R381) -/

theorem exec_sampleRecord {c e : Nat} (hc : c < nCtx) (he : e < 256) (poisoned : Bool) (info : StreamInfo)
    (s : State) : exec (.sampleRecord c e poisoned info) s =
      .next (intakeStep s fun s => sessionRecord s c e poisoned info) :=
  withUnit_of (by simp [hc, he])

section
variable {s : State} {c e : Nat} (poisoned : Bool) (info : StreamInfo)

theorem sessionRecord_none (hnone : ∀ v, tget (s.ctx c).sessions e = some v → v.front = none) :
    sessionRecord s c e poisoned info = s := by
  rw [sessionRecord]
  cases hsession : tget (s.ctx c).sessions e with
  | none => rfl
  | some v => simp [hnone v hsession]

/-- The front record has left the stream of a session. -/
def recordTaken (s : State) (c e : Nat) (v : LoadSession) : State :=
  s.modCtx c fun x => { x with sessions := tset x.sessions e v.drop }

theorem sessionRecord_front {v : LoadSession} {hdr : BitVec 512} {payload : Blob}
    (hsession : tget (s.ctx c).sessions e = some v) (hfront : v.front = some (hdr, payload)) :
    sessionRecord s c e poisoned info =
      sampleRecord (recordTaken s c e v) (entryComplex (s.ctx c) e) hdr payload poisoned info := by
  simp [sessionRecord, hsession, hfront, recordTaken]

end

theorem queue_stopQueue (s : State) (x n : Nat) (name : StopName) :
    (stopQueue s x n name).queue x n = { s.queue x n with st := .stopped } :=
  (q_media (cf _ _ _) x n).trans (queue_modQueue_self _ _ _ _)

/-- The position behind a main sample that has come. -/
def expectAfter (d : Blob) (smp : Sample) : Nat × Nat :=
  if smp.pos + 1 < qBatchSize d then (smp.batch, smp.pos + 1) else ((smp.batch + 1) % 2 ^ 32, 0)

/-- The queue has accepted a sample. -/
def accepting (q : Queue) (smp : Sample) : Queue := { q with
  accepted := q.accepted + 1
  predecoded := q.predecoded + (if predecoded smp.codec then 1 else 0) }

/-- A main sample in order takes the next position; its checks are to come. -/
def joined (q : Queue) (smp : Sample) : Queue :=
  let cost := sampleCost (qModality q.desc) smp
  { accepting q smp with
    expect := some (expectAfter q.desc smp)
    nextBatch := if q.expect.isNone then smp.batch else q.nextBatch
    creditOverruns := q.creditOverruns +
      (if (cost ≠ 0 && cost > q.free && q.free < qCreditCap q.desc : Bool) then 1 else 0)
    positions := q.positions ++ [newPosition smp smp.batch smp.pos smp false cost []] }

/-- A reserve sample has joined the pool. -/
def pooled (q : Queue) (smp : Sample) : Queue := { accepting q smp with pool := q.pool ++ [q.room smp] }

section
variable {s : State} {x : Nat} {hdr : BitVec 512} {payload : Blob} {poisoned : Bool} {info : StreamInfo}

/-- A sample as its record brings it: without working memory. -/
abbrev broughtBy (hdr : BitVec 512) (payload : Blob) (poisoned : Bool) (info : StreamInfo) : Sample :=
  ⟨hdr, payload, poisoned, info, none⟩

variable {smp : Sample} (hsmp : smp = broughtBy hdr payload poisoned info)
  {n : Nat} (hn : n = smp.field 320 8)
include hsmp hn

theorem sampleRecord_closed (hclosed : (s.queue x n).st ≠ .opened) :
    sampleRecord s x hdr payload poisoned info =
      s.modComplex x fun c => { c with closedDrops := c.closedDrops + 1 } := by
  subst hn hsmp
  exact if_pos hclosed

variable (hopen : (s.queue x n).st = .opened)
include hopen

theorem queue_sampleRecord_reserve (hreserve : smp.reserve = true) :
    (sampleRecord s x hdr payload poisoned info).queue x n = pooled (s.queue x n) smp := by
  subst hn hsmp
  refine Eq.trans (congrArg (fun t : State => t.queue x _) ?_) (queue_modQueue_self s x _ fun q => pooled q _)
  exact (if_neg (not_not_intro hopen)).trans (if_pos hreserve)

theorem queue_sampleRecord_outOfOrder (hmain : smp.reserve = false)
    (horder : qBatchSize (s.queue x n).desc ≤ smp.pos ∨
      ∃ e, (s.queue x n).expect = some e ∧ e ≠ (smp.batch, smp.pos)) :
    (sampleRecord s x hdr payload poisoned info).queue x n = { s.queue x n with st := .stopped } := by
  subst hn hsmp
  refine Eq.trans (congrArg (fun t : State => t.queue x _) ?_) (queue_stopQueue s x _ .intakeOrder)
  refine (if_neg (not_not_intro hopen)).trans ((if_neg (by simp [hmain])).trans (if_pos ?_))
  rcases horder with hlate | ⟨e, hexpect, hother⟩
  · simp [hlate]
  · simp [hexpect, hother]

theorem sampleRecord_inOrder (hmain : smp.reserve = false) (hpos : smp.pos < qBatchSize (s.queue x n).desc)
    (horder : (s.queue x n).expect = none ∨ (s.queue x n).expect = some (smp.batch, smp.pos)) :
    sampleRecord s x hdr payload poisoned info =
      checkPosition (s.modQueue x n fun q => joined q smp) x n (s.queue x n).positions.length := by
  subst hn hsmp
  refine (if_neg (not_not_intro hopen)).trans ((if_neg (by simp [hmain])).trans ((if_neg ?_).trans rfl))
  rcases horder with hexpect | hexpect <;> simp [hexpect, hpos]

end

/-- A sample that has joined passes its checks and waits, or is found corrupt, at the last position. -/
theorem checkPosition_joined (s : State) (x n : Nat) (smp : Sample) :
    let q := s.queue x n
    let v := (checkPosition (s.modQueue x n fun q => joined q smp) x n q.positions.length).queue x n
    v.accepted = q.accepted + 1 ∧ v.pool = q.pool ∧ v.expect = some (expectAfter q.desc smp) ∧
    ∃ p, v.positions = q.positions ++ [p] ∧ p.batch = smp.batch ∧ p.pos = smp.pos ∧ p.substituted = false ∧
      ((sampleChecks q.desc smp).1 = 0 → predecoded smp.codec = false →
        p.phase = .waiting ∧ p.cost = sampleCost (qModality q.desc) smp ∧ v.corrupt = q.corrupt) ∧
      ((sampleChecks q.desc smp).1 ≠ 0 → p.phase = .corrupt ∧ p.cost = 0 ∧ v.corrupt = q.corrupt + 1 ∧
        v.lastCause = BitVec.ofNat 8 (sampleChecks q.desc smp).1) := by
  intro q v
  have hjoined : (s.modQueue x n fun q => joined q smp).queue x n = joined q smp := queue_modQueue_self _ _ _ _
  have hlast : (joined q smp).positions[q.positions.length]? =
      some (newPosition smp smp.batch smp.pos smp false (sampleCost (qModality q.desc) smp) []) :=
    getElem?_append_self _ _
  obtain ⟨p, hpositions, ⟨-, hbatch, hpos, hsub⟩, hpool, haccepted, hexpect, hsound, hcorrupt⟩ :=
    check_keeps (s.modQueue x n fun q => joined q smp) x n q.positions.length _ (by rw [hjoined]; exact hlast)
  simp only [hjoined] at hpositions hpool haccepted hexpect hsound hcorrupt
  refine ⟨haccepted, hpool, hexpect, p, hpositions.trans (by simp [joined]), hbatch, hpos, hsub,
    fun hchecks hcodec => ?_, hcorrupt⟩
  obtain ⟨rfl, hcount⟩ := hsound hchecks hcodec
  exact ⟨rfl, rfl, hcount⟩

/-! ### A sample decodes (07 R256, R266, R291) -/

theorem exec_decodeStart {x n : Nat} (hx : x < 2) (hn : n < 256) (i : Nat) (y : Decoded) (waited : BitVec 48)
    (s : State) : exec (.decodeStart x n i y waited) s =
      .next (intakeStep s fun s => decodeStart s x n i y waited) :=
  withUnit_of (by simp [hx, hn])

/-- The sample of a position holds its working memory and decodes. -/
def decodingNow (q : Queue) (p : Position) (y : Decoded) : Position := { p with
  cand := q.room p.cand
  phase := .decoding
  yields := if (q.room p.cand).codec ≤ 6 then codecYield (q.room p.cand) y else ownYield (q.room p.cand) }

/-- The queue has counted the wait for working memory. -/
def roomWaited (q : Queue) (p : Position) (waited : BitVec 48) : Queue :=
  if p.cand.heldMib.isNone then { q with roomWait := q.roomWait + waited } else q

theorem roomWaited_facts (q : Queue) (p : Position) (waited : BitVec 48) :
    (roomWaited q p waited).roomWait = q.roomWait + (if p.cand.heldMib.isNone then waited else 0) ∧
    (roomWaited q p waited).positions = q.positions := by
  rw [roomWaited]
  split <;> simp

/-- The sample at place `i` decodes. -/
def decodingAt (q : Queue) (i : Nat) (p : Position) (y : Decoded) (waited : BitVec 48) : Queue :=
  { roomWaited q p waited with positions := (roomWaited q p waited).positions.set i (decodingNow q p y) }

/-- What decoding gives does not turn on the working memory that a sample holds. -/
theorem decodingNow_eq (q : Queue) (p : Position) (y : Decoded) : decodingNow q p y = { p with
    phase := .decoding, cand := q.room p.cand
    yields := if p.cand.codec ≤ 6 then codecYield p.cand y else ownYield p.cand } := by
  obtain ⟨held, hroom⟩ := room_facts q p.cand
  rw [decodingNow, hroom]
  rfl

section
variable {s : State} {x n i : Nat} {p : Position} (hopen : (s.queue x n).st = .opened)
  (hp : (s.queue x n).positions[i]? = some p) (hphase : p.phase = .waiting)
  (hcodec : predecoded p.cand.codec = false) (y : Decoded) (waited : BitVec 48)
include hopen hp hphase hcodec

/-- The sample begins once its working memory and a decoder are free. -/
theorem decodeStart_eq : decodeStart s x n i y waited =
    if ((s.queue x n).room p.cand).heldMib.isNone then s
    else if decoderFree s x (qModality (s.queue x n).desc) ((s.queue x n).room p.cand) then
      s.modQueue x n fun q => decodingAt q i p y waited
    else s := by
  obtain ⟨held, hroom⟩ := room_facts (s.queue x n) p.cand
  have hroomCodec : predecoded ((s.queue x n).room p.cand).codec = false := by rw [hroom]; exact hcodec
  unfold decodeStart
  dsimp only
  rw [hp]
  refine (if_neg (by simp [hopen, hphase])).trans (if_congr Iff.rfl rfl ((if_neg (by simp [hroomCodec])).trans ?_))
  cases decoderFree s x (qModality (s.queue x n).desc) ((s.queue x n).room p.cand) <;> rfl

theorem decodeStart_waits (hwaits : ((s.queue x n).room p.cand).heldMib = none ∨
    decoderFree s x (qModality (s.queue x n).desc) ((s.queue x n).room p.cand) = false) :
    decodeStart s x n i y waited = s := by
  rw [decodeStart_eq hopen hp hphase hcodec]
  rcases hwaits with hroom | hfree
  · exact if_pos (by simp [hroom])
  · simp [hfree]

theorem queue_decodeStart (hroom : ((s.queue x n).room p.cand).heldMib.isSome = true)
    (hfree : decoderFree s x (qModality (s.queue x n).desc) ((s.queue x n).room p.cand) = true) :
    (decodeStart s x n i y waited).queue x n = decodingAt (s.queue x n) i p y waited := by
  rw [decodeStart_eq hopen hp hphase hcodec, if_neg (by simpa [Option.isSome_iff_ne_none] using hroom), if_pos hfree,
    queue_modQueue_self]

end

/-! ### Credit records (07 R287) -/

/-- The queue has told its loader what is FREE. -/
def creditTold (q : Queue) : Queue := { q with seq := q.seq + 1, freed := 0, lastFree := q.free }

theorem queue_sendCredit (s : State) (x n : Nat) (closed : Bool) :
    (sendCredit s x n closed).queue x n = creditTold (s.queue x n) :=
  (queue_modQueue_self _ _ _ _).trans (congrArg creditTold (modComplex_q _ _ _ _ fun _ => rfl))

theorem credits_sendCredit (s : State) (x n : Nat) (closed : Bool) :
    ((sendCredit s x n closed).complex x).credits =
      (s.complex x).credits ++ [(qLoader (s.queue x n).desc, creditRecord x n (s.queue x n) closed)] := by
  simp [sendCredit, State.modQueue]

theorem exec_creditTimer {x n : Nat} (hx : x < 2) (hn : n < 256) (s : State) :
    exec (.creditTimer x n) s = .next (intakeStep s fun s => creditTimer s x n) :=
  withUnit_of (by simp [hx, hn])

theorem creditTimer_changed {s : State} {x n : Nat} (hopen : (s.queue x n).st = .opened)
    (hchanged : (s.queue x n).free ≠ (s.queue x n).lastFree) : creditTimer s x n = sendCredit s x n false :=
  if_pos (by simp [hopen, hchanged])

theorem creditTimer_same {s : State} {x n : Nat}
    (hsame : (s.queue x n).st ≠ .opened ∨ (s.queue x n).free = (s.queue x n).lastFree) : creditTimer s x n = s :=
  if_neg (by rcases hsame with hclosed | hfree <;> simp [*])

/-! ### A decoding ends (07 R268 to R271, R281, R286) -/

theorem exec_decodeDone {x n : Nat} (hx : x < 2) (hn : n < 256) (i : Nat) (s : State) :
    exec (.decodeDone x n i) s = .next (intakeStep s fun s => decodeDone s x n i) :=
  withUnit_of (by simp [hx, hn])

/-- A queue that has freed a quantum tells its loader. -/
def quantumTold (quantum : Nat) (q : Queue) : Queue := if quantum ≤ q.freed then creditTold q else q

theorem positions_quantumTold (quantum : Nat) (q : Queue) : (quantumTold quantum q).positions = q.positions := by
  rw [quantumTold]
  split <;> rfl

theorem corrupt_quantumTold (quantum : Nat) (q : Queue) : (quantumTold quantum q).corrupt = q.corrupt ∧
    (quantumTold quantum q).lastCause = q.lastCause := by
  rw [quantumTold]
  split <;> exact ⟨rfl, rfl⟩

/-- The head of a list whose head has been replaced. -/
theorem head_set {l rest : List Position} {p a b : Position} (hp : l[0]? = some p) (h : l.set 0 a = b :: rest) :
    a = b := by
  cases l with
  | nil => simp at hp
  | cons c l => exact (List.cons.inj h).1

section
variable {s : State} {x n i : Nat} {p : Position} (hopen : (s.queue x n).st = .opened)
  (hp : (s.queue x n).positions[i]? = some p) (hphase : p.phase = .decoding)
include hopen hp hphase

/-- A sample that is not consumed leaves its queue as the end of its decoding does, with its credit record. -/
theorem queue_decodeDone {p' : Position}
    (hfinish : ((finishDecode s x n i).queue x n).positions = (s.queue x n).positions.set i p')
    (hstays : i = 0 → headFinished (s.queue x n) p' = false) : (decodeDone s x n i).queue x n =
      quantumTold (qQuantum (s.queue x n).desc) ((finishDecode s x n i).queue x n) := by
  generalize hq : s.queue x n = q at *
  unfold decodeDone
  simp only [hq, hp, hopen, hphase]
  rw [if_neg (by simp)]
  generalize hfin : finishDecode s x n i = u at *
  generalize htold : (if (u.queue x n).freed ≥ qQuantum q.desc then sendCredit u x n false else u) = v
  have hv : v.queue x n = quantumTold (qQuantum q.desc) (u.queue x n) := by
    rw [← htold, quantumTold]
    split
    · exact queue_sendCredit u x n false
    · rfl
  cases hpositions : (v.queue x n).positions with
  | nil => exact hv
  | cons p2 rest =>
    rw [hv, positions_quantumTold, hfinish] at hpositions
    rw [← hv]
    refine congrArg (fun t : State => t.queue x n) (if_neg ?_)
    suffices hmore : i = 0 → headFinished q p2 = false by simpa using hmore
    rintro rfl
    rw [← head_set hp hpositions]
    exact hstays rfl

/-- A sample decoded without an error stays at its place, and its cost is free. -/
theorem decodeDone_sound (hwhy : whyOf s x (s.queue x n) p = 0)
    (hstays : i = 0 → headFinished (s.queue x n) (doneOf s x (s.queue x n) p) = false) :
    let q := s.queue x n
    let v := (decodeDone s x n i).queue x n
    v.positions = q.positions.set i (doneOf s x q p) ∧ v.corrupt = q.corrupt ∧
    (q.freed + p.cost < qQuantum q.desc → v.freed = q.freed + p.cost ∧ v.seq = q.seq) ∧
    (qQuantum q.desc ≤ q.freed + p.cost → v.freed = 0 ∧ v.seq = q.seq + 1) := by
  obtain ⟨hsound, -⟩ := finish_run s x n i p hp
  obtain ⟨short, replaced, truncated, hfin⟩ := hsound hwhy
  intro q v
  have hv : v = _ := queue_decodeDone hopen hp hphase (congrArg Queue.positions hfin) hstays
  rw [hv, positions_quantumTold, (corrupt_quantumTold _ _).1, hfin]
  refine ⟨rfl, rfl, fun hless => ?_, fun hmore => ?_⟩
  · rw [quantumTold, if_neg (Nat.not_le.2 hless)]
    exact ⟨rfl, rfl⟩
  · rw [quantumTold, if_pos hmore]
    exact ⟨rfl, rfl⟩

/-- A sample that decoding finds corrupt is counted, and awaits a reserve sample at its place. -/
theorem decodeDone_corrupt (hwhy : whyOf s x (s.queue x n) p ≠ 0) :
    let q := s.queue x n
    let why := whyOf s x q p
    let v := (decodeDone s x n i).queue x n
    v.corrupt = q.corrupt + 1 ∧ v.lastCause = BitVec.ofNat 8 why ∧
    v.positions = q.positions.set i (corruptPosition x n q p why).2 := by
  obtain ⟨-, hcorrupt⟩ := finish_run s x n i p hp
  have hfin := hcorrupt hwhy
  intro q why v
  have hv : v = _ := queue_decodeDone hopen hp hphase (congrArg Queue.positions hfin) fun _ => rfl
  obtain ⟨hcount, hcause⟩ := corrupt_quantumTold (qQuantum q.desc) ((finishDecode s x n i).queue x n)
  rw [hv, hcount, hcause, positions_quantumTold, hfin]
  exact ⟨rfl, rfl, rfl⟩

end

end Sys2Proof.Laws.SampleArrival

namespace Sys2Proof.Claims

open Sys2Proof.Laws.SampleArrival in
/-- Settles O24. A whole front record leaves its session (`sessionRecord_front`) and reaches its queue by one of four
ways (`sampleRecord_closed`, `queue_sampleRecord_reserve`, `queue_sampleRecord_outOfOrder`, `sampleRecord_inOrder`); a
sample in order has its checks where it joins (`checkPosition_joined`). A waiting sample begins by `decodeStart_eq`,
and `decodeDone_sound` and `decodeDone_corrupt` say how its decoding ends. That a record out of batch order is not
accepted is log entry 70; what a decoder yields is an operand (log entry 24). -/
theorem samplesReachTheirQueue : Obligations.SamplesReachTheirQueue := by
  unfold Obligations.SamplesReachTheirQueue
  refine ⟨fun s c e poisoned info hc he => ⟨fun v hnone => ⟨_, exec_sampleRecord hc he poisoned info s, ?_⟩,
      fun v hdr payload hsession hfront => ⟨_, exec_sampleRecord hc he poisoned info s, ?_⟩⟩,
    fun s x n i y waited p hx hn hopen hp hphase hcodec =>
      ⟨fun hwaits => ⟨_, exec_decodeStart hx hn i y waited s, ?_⟩,
        fun hroom hfree => ⟨_, exec_decodeStart hx hn i y waited s, ?_⟩⟩,
    fun s x n i p hx hn hopen hp hphase =>
      ⟨fun hwhy hstays => ⟨_, exec_decodeDone hx hn i s, ?_⟩, fun hwhy => ⟨_, exec_decodeDone hx hn i s, ?_⟩⟩,
    fun s x n hx hn => ⟨fun hopen hchanged => ⟨_, exec_creditTimer hx hn s, ?_⟩,
      fun hsame => ⟨_, exec_creditTimer hx hn s, ?_⟩⟩⟩
  · have hstays : sessionRecord s c e poisoned info = s := sessionRecord_none poisoned info fun w hw => by
      rcases hnone with hnone | ⟨hsession, hnone⟩
      · simp [hnone] at hw
      · rwa [← Option.some.inj (hsession.symm.trans hw)]
    simp only [media_intakeStep, sessions_intakeStep, hstays]
    exact ⟨trivial, trivial⟩
  · simp only [sessions_intakeStep, media_intakeStep, queue_intakeStep,
      sessionRecord_front poisoned info hsession hfront, sampleRecord_sess]
    refine ⟨by simp [recordTaken], fun hclosed => ?_, fun hopen hreserve => ?_, fun hopen hmain horder => ?_,
      fun hopen hmain hpos horder => ?_⟩
    · rw [sampleRecord_closed (s := recordTaken s c e v) rfl rfl hclosed]
      rfl
    · have hpool := queue_sampleRecord_reserve (s := recordTaken s c e v) rfl rfl hopen hreserve
      rw [hpool]
      exact ⟨rfl, rfl, rfl, hopen⟩
    · have hstop := queue_sampleRecord_outOfOrder (s := recordTaken s c e v) rfl rfl hopen hmain horder
      rw [hstop]
      exact ⟨rfl, rfl, rfl⟩
    · rw [sampleRecord_inOrder (s := recordTaken s c e v) rfl rfl hopen hmain hpos horder]
      exact checkPosition_joined (recordTaken s c e v) _ _ _
  · simp only [media_intakeStep, decodeStart_waits hopen hp hphase hcodec y waited hwaits]
  · obtain ⟨hwait, hpositions⟩ := roomWaited_facts (s.queue x n) p waited
    simp only [queue_intakeStep, queue_decodeStart hopen hp hphase hcodec y waited hroom hfree, ← decodingNow_eq]
    exact ⟨hwait, congrArg (List.set · i _) hpositions⟩
  · simp only [queue_intakeStep]
    exact decodeDone_sound hopen hp hphase hwhy hstays
  · simp only [queue_intakeStep]
    obtain ⟨hcount, hcause, hpositions⟩ := decodeDone_corrupt hopen hp hphase hwhy
    exact ⟨hcount, hcause, _, hpositions, rfl, rfl, rfl⟩
  · simp only [queue_intakeStep, complex_intakeStep, creditTimer_changed hopen hchanged]
    exact ⟨congrArg Queue.seq (queue_sendCredit s x n false), congrArg Queue.lastFree (queue_sendCredit s x n false),
      credits_sendCredit s x n false⟩
  · simp only [media_intakeStep, creditTimer_same hsame]

end Sys2Proof.Claims
end

section
/-!
PROOF. Samples on their way out of their queue (O25): INTAKE_TENSOR_EMIT, LATE_CORRUPT, ROI_SET_TAKE and SUBSTITUTION.
-/

open Sys2Proof Sys2Proof.Machine Sys2Proof.Claims Sys2Proof.Laws Sys2Proof.Laws.IntakeSteps
  Sys2Proof.Laws.SampleArrival

namespace Sys2Proof.Laws.SampleDeparture

section
variable {x n : Nat} (hx : x < 2) (hn : n < 256) (s : State)
include hx hn

theorem exec_intakeTensorEmit : exec (.intakeTensorEmit x n) s = .next (intakeStep s fun s => intakeTensorEmit s x n) :=
  withUnit_of (by simp [hx, hn])

theorem exec_lateCorrupt : exec (.lateCorrupt x n) s = .next (intakeStep s fun s => lateCorrupt s x n) :=
  withUnit_of (by simp [hx, hn])

theorem exec_roiSetTake (waited : BitVec 48) : exec (.roiSetTake x n waited) s =
    .next (intakeStep s fun s => returnCredits (roiSetTake s x n waited)) :=
  withUnit_of (by simp [hx, hn])

theorem exec_substitution : exec (.substitution x n) s = .next (intakeStep s fun s => substitution s x n) :=
  withUnit_of (by simp [hx, hn])

end

/-! ### A tensor leaves an output (07 R274, 05 R187) -/

/-- The stream of an output, if it has one, takes tensors of `len` elements. -/
def StreamTakes (s : State) (x n e len : Nat) : Prop :=
  queueStream s x n e = none ∨ ∃ i r, queueStream s x n e = some (i, r) ∧ len ≤ r.maxLen

/-- A queue whose outputs stand as a tensor that has left them leaves them. -/
def sentQueue (q : Queue) (outs : Tbl OutPort) (ctrs : Tbl EpCtr) (emitted : BitVec 48) : Queue :=
  { q with outs := outs, ctrs := ctrs, emitted := emitted }

section
variable {s : State} {x n e fmt : Nat} {scale : F32} {t : OutTensor} {f : Fmt} (hfmt : fmtOf fmt = some f)
  (hshaped : t.flags.getLsbD 5 = true)
include hfmt hshaped

theorem image_queueEmit : CK Im s (queueEmit s x n e fmt scale t) := (qEmit s x n e fmt scale t f hfmt hshaped).1

theorem queue_queueEmit_fits (hfits : StreamTakes s x n e t.length) : ∃ outs ctrs,
    (queueEmit s x n e fmt scale t).queue x n =
      sentQueue (s.queue x n) outs ctrs ((s.queue x n).emitted + if e < 2 then 1 else 0) :=
  (qEmit s x n e fmt scale t f hfmt hshaped).2.1 hfits

theorem queue_queueEmit_tooLong {i : Nat} {r : StreamRec} (hstream : queueStream s x n e = some (i, r))
    (hlong : r.maxLen < t.length) :
    (queueEmit s x n e fmt scale t).queue x n = { s.queue x n with st := .stopped } :=
  (qEmit s x n e fmt scale t f hfmt hshaped).2.2 i r hstream hlong

end

/-- The streams of a queue are those of the image of its context. -/
theorem streamTakes_of {s u : State} {x n : Nat} (hctx : (u.queue x n).ctx = (s.queue x n).ctx) (himage : CK Im s u)
    {e len : Nat} (h : StreamTakes s x n e len) : StreamTakes u x n e len := by
  rw [StreamTakes, qs_of hctx himage]
  exact h

/-! ### The tensors of the head sample (07 R269, R274, R275) -/

/-- The next tensor of the head sample on the main output has `len` elements. -/
def MainTensor (s : State) (q : Queue) (p : Position) (len : Nat) : Prop :=
  qModality q.desc = 3 ∧ len = p.tokens.length ∨ qModality q.desc ≠ 3 ∧ ∃ sh f,
    (sampleTensors s q p)[p.emitted]? = some sh ∧ fmtOf (qFormat q.desc) = some f ∧ len = sh.vals.length

/-- The head sample has sent one more tensor. -/
def advanced (q : Queue) (p : Position) : Position := { p with
  emitted := p.emitted + 1
  regions := if p.emitted < qLag q.desc then p.emitted + 1 else p.regions }

/-- The next frame leaves whole on the region output too: it comes before its history (R275). -/
def wholeFrame (q : Queue) (p : Position) : Bool := qRoi q.desc && p.emitted < qLag q.desc

/-- A queue whose head sample has advanced. -/
def advancedQueue (q : Queue) (p : Position) (rest : List Position) : Queue :=
  { q with positions := advanced q p :: rest }

/-- The module once the head sample has advanced, before its tensors leave. -/
def headAdvanced (s : State) (x n : Nat) (p : Position) (rest : List Position) : State :=
  s.modQueue x n fun q => advancedQueue q p rest

section
variable (s : State) (x n : Nat) (p : Position) (rest : List Position)

theorem queue_headAdvanced : (headAdvanced s x n p rest).queue x n = advancedQueue (s.queue x n) p rest :=
  queue_modQueue_self _ _ _ _

theorem ctx_headAdvanced : ((headAdvanced s x n p rest).queue x n).ctx = (s.queue x n).ctx := by
  rw [queue_headAdvanced, advancedQueue]

theorem image_headAdvanced : CK Im s (headAdvanced s x n p rest) := CK.ofCtxs rfl

end

/-- The tensor of a text sample: its tokens. -/
def tokenTensor (p : Position) : OutTensor :=
  ⟨p.tokens.length, 1, p.tokens.length, 1, p.pos, positionFlags p, false,
    p.tokens.zipIdx.map fun v => (v.2, ⟨BitVec.ofNat 256 v.1, true, false, false⟩)⟩

/-- A frame that leaves whole on the region output. -/
def wholeShape (s : State) (q : Queue) (p : Position) (fr : Frame) : Shaped :=
  shapePicture q.desc (jobSeed (s.ctx q.ctx)) p.cand.index true none fr

section
variable {s : State} {x n : Nat} {q : Queue} {p : Position}

theorem mainE_eq {len : Nat} (hmain : MainTensor s q p len) : ∃ fmt scale t f, fmtOf fmt = some f ∧
    t.flags.getLsbD 5 = true ∧ t.length = len ∧ ∀ u, mainE s x n q p u = queueEmit u x n 0 fmt scale t := by
  rcases hmain with ⟨htext, rfl⟩ | ⟨hother, sh, f, htensor, hfmt, rfl⟩
  · exact ⟨8, F32.one, tokenTensor p, .u32, rfl, flags_shaped p, rfl, fun u => if_pos htext⟩
  · refine ⟨qFormat q.desc, qScale q.desc, shapedTensor sh p.pos (positionFlags p) false, f, hfmt, flags_shaped p, rfl,
      fun u => ?_⟩
    rw [mainE, if_neg hother, htensor]

theorem wholeE_eq {fr : Frame} {f : Fmt} (hframe : (emittedFrames q.desc p.yields)[p.emitted]? = some fr)
    (hfmt : fmtOf (qFormat q.desc) = some f) : ∃ fmt scale t, fmtOf fmt = some f ∧ t.flags.getLsbD 5 = true ∧
      t.length = (wholeShape s q p fr).vals.length ∧ ∀ u, wholeE s x n q p true u = queueEmit u x n 1 fmt scale t := by
  refine ⟨qFormat q.desc, qScale q.desc, shapedTensor (wholeShape s q p fr) p.pos (positionFlags p) false, hfmt,
    flags_shaped p, rfl, fun u => ?_⟩
  rw [wholeE, if_pos rfl, hframe]
  rfl

theorem wholeE_none (u : State) : wholeE s x n q p false u = u := rfl

end

theorem intakeTensorEmit_waits {s : State} {x n : Nat} {p : Position} {rest : List Position}
    (hhead : (s.queue x n).positions = p :: rest)
    (hwaits : queueRoom s x n 0 = false ∨ domainOn s (streamsDomain x) = false ∨
      (p.phase ≠ .decoded ∧ p.phase ≠ .decoding)) : intakeTensorEmit s x n = s := by
  unfold intakeTensorEmit
  dsimp only
  rw [hhead]
  refine if_pos ?_
  rcases hwaits with hroom | hoff | ⟨hdecoded, hdecoding⟩ <;> simp [*]

/-- The head sample of a queue is due to send a tensor: the queue is open, the sample is decoded or a video that
decodes, the streams run and have room, and its region set, if it waits for one, has come (R277). -/
structure HeadDue (s : State) (x n : Nat) (p : Position) (rest : List Position) : Prop where
  opened : (s.queue x n).st = .opened
  head : (s.queue x n).positions = p :: rest
  begun : p.phase = .decoded ∨ qModality (s.queue x n).desc = 0 ∧ p.phase = .decoding
  on : domainOn s (streamsDomain x) = true
  room : queueRoom s x n 0 = true
  more : p.emitted < tensorCount (s.queue x n) p
  regions : qRoi (s.queue x n).desc = true → qLag (s.queue x n).desc ≤ p.emitted → p.emitted < p.regions

theorem intakeTensorEmit_due {s : State} {x n : Nat} {p : Position} {rest : List Position}
    (hdue : HeadDue s x n p rest) : intakeTensorEmit s x n =
      tailE x n (wholeE s x n (s.queue x n) p (wholeFrame (s.queue x n) p)
        (mainE s x n (s.queue x n) p (headAdvanced s x n p rest))) := by
  obtain ⟨hopen, hhead, hbegun, hon, hroom, hmore, hregions⟩ := hdue
  unfold intakeTensorEmit
  dsimp only
  rw [hhead]
  refine (if_neg ?_).trans rfl
  rcases hbegun with hbegun | ⟨hvideo, hbegun⟩ <;> simpa [*] using hregions

section
variable {s : State} {x n len : Nat} {p : Position} (rest : List Position)
  (hmain : MainTensor s (s.queue x n) p len)
include hmain

/-- The tensors of the head sample leave, and each counts. -/
theorem queue_sent (hfits : StreamTakes s x n 0 len)
    (hwhole : wholeFrame (s.queue x n) p = true → ∃ fr f,
      (emittedFrames (s.queue x n).desc p.yields)[p.emitted]? = some fr ∧
      fmtOf (qFormat (s.queue x n).desc) = some f ∧
      StreamTakes s x n 1 (wholeShape s (s.queue x n) p fr).vals.length) :
    let q := s.queue x n
    ∃ outs ctrs, (wholeE s x n q p (wholeFrame q p) (mainE s x n q p (headAdvanced s x n p rest))).queue x n =
      sentQueue (advancedQueue q p rest) outs ctrs (q.emitted + 1 + if wholeFrame q p then 1 else 0) := by
  intro q
  obtain ⟨fmt, scale, t, f, hfmt, hshaped, rfl, hsends⟩ := mainE_eq (x := x) (n := n) hmain
  obtain ⟨outs, ctrs, hsent⟩ := queue_queueEmit_fits (scale := scale) hfmt hshaped
    (streamTakes_of (ctx_headAdvanced s x n p rest) (image_headAdvanced s x n p rest) hfits)
  have himage := (image_headAdvanced s x n p rest).trans
    (image_queueEmit (x := x) (n := n) (e := 0) (scale := scale) hfmt hshaped)
  rw [hsends]
  rw [queue_headAdvanced] at hsent
  cases hframe : wholeFrame q p with
  | false => exact ⟨outs, ctrs, hsent.trans (congrArg (sentQueue _ outs ctrs) (BitVec.add_zero _).symm)⟩
  | true =>
    obtain ⟨fr, g, hfr, hg, hfitsWhole⟩ := hwhole hframe
    obtain ⟨fmt', scale', t', hfmt', hshaped', hlength, hsendsWhole⟩ := wholeE_eq (s := s) (x := x) (n := n) hfr hg
    rw [← hlength] at hfitsWhole
    obtain ⟨outs', ctrs', hsent'⟩ := queue_queueEmit_fits (scale := scale') hfmt' hshaped'
      (streamTakes_of ((congrArg Queue.ctx hsent).trans rfl) himage hfitsWhole)
    rw [hsent] at hsent'
    rw [hsendsWhole]
    exact ⟨outs', ctrs', hsent'⟩

/-- A tensor that its stream does not take stops the queue. -/
theorem queue_sent_tooLong {i : Nat} {r : StreamRec} (hstream : queueStream s x n 0 = some (i, r))
    (hlong : r.maxLen < len) :
    (mainE s x n (s.queue x n) p (headAdvanced s x n p rest)).queue x n =
      { advancedQueue (s.queue x n) p rest with st := .stopped } := by
  obtain ⟨fmt, scale, t, f, hfmt, hshaped, rfl, hsends⟩ := mainE_eq (x := x) (n := n) hmain
  have hlooked := (qs_of (ctx_headAdvanced s x n p rest) (image_headAdvanced s x n p rest) 0).trans hstream
  rw [hsends, queue_queueEmit_tooLong hfmt hshaped hlooked hlong, queue_headAdvanced]

end

/-! ### The head sample once it has sent a tensor (07 R292) -/

section
variable {u : State} {x n : Nat} {p : Position} {rest : List Position} (hhead : (u.queue x n).positions = p :: rest)
include hhead

theorem tailE_stays (hstays : (u.queue x n).st ≠ .opened ∨ headFinished (u.queue x n) p = false) :
    tailE x n u = u := by
  rw [tailE, hhead]
  refine if_neg ?_
  rcases hstays with hclosed | hmore <;> simp [*]

theorem tailE_consumes (hopen : (u.queue x n).st = .opened) (hfinished : headFinished (u.queue x n) p = true) :
    tailE x n u = consumeHead u x n 0 0 := by
  rw [tailE, hhead]
  exact if_pos (by simp [hopen, hfinished])

end

section
variable {s : State} {x n len : Nat} {p : Position} {rest : List Position} (hdue : HeadDue s x n p rest)
  (hmain : MainTensor s (s.queue x n) p len)
include hdue hmain

/-- A sample whose tensor is too long for its stream stays at the head of a stopped queue. -/
theorem queue_intakeTensorEmit_tooLong {i : Nat} {r : StreamRec} (hstream : queueStream s x n 0 = some (i, r))
    (hlong : r.maxLen < len) (hframe : wholeFrame (s.queue x n) p = false) :
    (intakeTensorEmit s x n).queue x n = { advancedQueue (s.queue x n) p rest with st := .stopped } := by
  have hstopped := queue_sent_tooLong rest hmain hstream hlong
  rw [intakeTensorEmit_due hdue, hframe, wholeE_none,
    tailE_stays (congrArg Queue.positions hstopped) (.inl (by simp [hstopped])), hstopped]

variable (hfits : StreamTakes s x n 0 len)
  (hwhole : wholeFrame (s.queue x n) p = true → ∃ fr f,
    (emittedFrames (s.queue x n).desc p.yields)[p.emitted]? = some fr ∧ fmtOf (qFormat (s.queue x n).desc) = some f ∧
    StreamTakes s x n 1 (wholeShape s (s.queue x n) p fr).vals.length)
include hfits hwhole

/-- A sample with more to send stays at the head. -/
theorem queue_intakeTensorEmit_going (hgoing : headFinished (s.queue x n) (advanced (s.queue x n) p) = false) :
    ∃ outs ctrs, (intakeTensorEmit s x n).queue x n = sentQueue (advancedQueue (s.queue x n) p rest) outs ctrs
      ((s.queue x n).emitted + 1 + if wholeFrame (s.queue x n) p then 1 else 0) := by
  obtain ⟨outs, ctrs, hsent⟩ := queue_sent rest hmain hfits hwhole
  rw [intakeTensorEmit_due hdue, tailE_stays (congrArg Queue.positions hsent) (.inr (by rw [hsent]; exact hgoing))]
  exact ⟨outs, ctrs, hsent⟩

/-- A sample that has sent all is consumed. -/
theorem queue_intakeTensorEmit_finished
    (hfinished : headFinished (s.queue x n) (advanced (s.queue x n) p) = true)
    (hlast : p.pos + 1 ≠ qBatchSize (s.queue x n).desc) :
    let q := s.queue x n
    let v := (intakeTensorEmit s x n).queue x n
    v.emitted = q.emitted + 1 + (if wholeFrame q p then 1 else 0) ∧ v.positions = rest ∧ v.st = .opened ∧
    v.manifest = q.manifest ++ p.skips ++ [manifestRecord x n (advanced q p) 0 0 (p.emitted + 1)] := by
  obtain ⟨outs, ctrs, hsent⟩ := queue_sent rest hmain hfits hwhole
  have hhead := congrArg Queue.positions hsent
  obtain ⟨hpositions, hemitted, -, hmanifest, -⟩ := consume_facts _ x n 0 0 _ rest hhead
  rw [intakeTensorEmit_due hdue,
    tailE_consumes hhead (by rw [hsent]; exact hdue.opened) (by rw [hsent]; exact hfinished)]
  simp only [hsent] at hemitted hmanifest
  obtain ⟨hst, hrecords⟩ := hmanifest hlast
  exact ⟨hemitted, hpositions, hst.trans hdue.opened, hrecords⟩

end

/-! ### An error after the first tensor (07 R271) -/

/-- The head sample has sent one more tensor, and the queue has counted it under LATE_CORRUPT. -/
def lateQueue (q : Queue) (p : Position) (rest : List Position) : Queue :=
  { q with positions := { p with emitted := p.emitted + 1 } :: rest, lateCorrupt := q.lateCorrupt + 1 }

/-- The poisoned tensor of a late error leaves. -/
def latePlaced (s : State) (x n : Nat) (p : Position) (rest : List Position) (sh : Shaped) : State :=
  queueEmit (s.modQueue x n fun q => lateQueue q p rest) x n 0 (qFormat (s.queue x n).desc) (qScale (s.queue x n).desc)
    (shapedTensor sh p.pos (positionFlags p) true)

section
variable {s : State} {x n : Nat} {p : Position} {rest : List Position} {sh : Shaped}
  (hopen : (s.queue x n).st = .opened)

theorem queue_latePlaced {f : Fmt} (hfmt : fmtOf (qFormat (s.queue x n).desc) = some f)
    (hfits : StreamTakes s x n 0 sh.vals.length) : ∃ outs ctrs, (latePlaced s x n p rest sh).queue x n =
      sentQueue (lateQueue (s.queue x n) p rest) outs ctrs ((s.queue x n).emitted + 1) := by
  have hlate : (s.modQueue x n fun q => lateQueue q p rest).queue x n = lateQueue (s.queue x n) p rest :=
    queue_modQueue_self _ _ _ _
  have hctx : ((s.modQueue x n fun q => lateQueue q p rest).queue x n).ctx = (s.queue x n).ctx := by
    rw [hlate, lateQueue]
  obtain ⟨outs, ctrs, hsent⟩ := queue_queueEmit_fits (t := shapedTensor sh p.pos (positionFlags p) true)
    (scale := qScale (s.queue x n).desc) hfmt (flags_shaped p) (streamTakes_of hctx (CK.ofCtxs rfl) hfits)
  rw [hlate] at hsent
  exact ⟨outs, ctrs, hsent⟩

include hopen

theorem lateCorrupt_places (hhead : (s.queue x n).positions = p :: rest) (hvideo : qModality (s.queue x n).desc = 0)
    (hdecoded : p.phase = .decoded) (hcause : p.yields.cause ≠ 0) (hbegun : p.emitted ≠ 0)
    (hsent : tensorCount (s.queue x n) p ≤ p.emitted) (hroom : queueRoom s x n 0 = true)
    (hlast : (sampleTensors s (s.queue x n) p).getLast? = some sh)
    (hstays : ((latePlaced s x n p rest sh).queue x n).st = .opened) :
    lateCorrupt s x n = consumeHead (latePlaced s x n p rest sh) x n p.yields.cause 2 := by
  unfold lateCorrupt
  dsimp only
  rw [hhead]
  refine (if_neg (by simp [*])).trans ?_
  rw [hlast]
  exact if_pos hstays

end

/-! ### Regions of interest (07 R275 to R277) -/

/-- The words of a region set have left their buffer. -/
def wordsPopped (s : State) (c i k count : Nat) : State :=
  (List.range count).foldl (fun s _ => popWord s c i k) s

theorem queue_wordsPopped (s : State) (c i k count x n : Nat) : (wordsPopped s c i k count).queue x n = s.queue x n :=
  q_media ((Touches.foldl (fun u _ => touches_popWord u c i k) (Touches.refl _ s)).same .media (by decide)) x n

/-- SAMPLE of the header of a region set. -/
def setSample (ws : List SWord) : Nat := (ws.head?.map fun h => (THdr.parse h.bits).sample).getD 0

/-- The queue has taken the region set of its head sample. -/
def setTaken (q : Queue) (p : Position) (rest : List Position) (ws : List SWord) (waited : BitVec 48) : Queue :=
  { q with
    roiInvalid := q.roiInvalid + BitVec.ofNat 32 ((regionRecords ws).filter fun e => !regionUsable e).length
    roiWait := q.roiWait + waited
    positions := { p with regions := p.regions + 1 } :: rest }

/-- The crop of one region joins the tensor. -/
def cropStep (seed : BitVec 64) (d : Blob) (p : Position) (fr : Frame) (acc : State × List F32) (e : Elem) :
    State × List F32 :=
  let left := cropStart acc.1 (recF e.code 0) (recF e.code 64) (qRoiW d) fr.w
  let top := cropStart left.2 (recF e.code 32) (recF e.code 96) (qRoiH d) fr.h
  (top.2, acc.2 ++ (shapePicture d seed p.cand.index true (some (left.1, top.1, qRoiW d, qRoiH d)) fr).vals)

/-- The crops of the usable regions of a set, in one tensor. -/
def setCrops (seed : BitVec 64) (d : Blob) (p : Position) (fr : Frame) (ws : List SWord) (u : State) :
    State × List F32 :=
  (((regionRecords ws).filter regionUsable).take (qRoiMax d)).foldl (cropStep seed d p fr) (u, [])

/-- A crop takes at most free values. -/
theorem queue_setCrops (seed : BitVec 64) (d : Blob) (p : Position) (fr : Frame) (ws : List SWord) (u : State)
    (x n : Nat) : (setCrops seed d p fr ws u).1.queue x n = u.queue x n := by
  have hcrop (acc : State × List F32) (e : Elem) : Touches [.freeCtr] acc.1 (cropStep seed d p fr acc e).1 :=
    (touches_cropStart _ _ _ _ _).trans (touches_cropStart _ _ _ _ _)
  exact q_media ((Touches.foldlPair hcrop (Touches.refl _ u)).same .media (by decide)) x n

/-- The tensor of those crops. -/
def cropsTensor (d : Blob) (p : Position) (ws : List SWord) (vals : List F32) : OutTensor :=
  let good := ((regionRecords ws).filter regionUsable).take (qRoiMax d)
  shapedTensor ⟨qRoiW d, good.length * qRoiH d, if qGray d then 1 else 3, vals⟩ p.pos (positionFlags p) false

/-- The crops of the head sample's frame leave the region output. -/
def cropsSent (s : State) (x n : Nat) (p : Position) (fr : Frame) (ws : List SWord) (u : State) : State :=
  let d := (s.queue x n).desc
  let crops := setCrops (jobSeed (s.ctx (s.queue x n).ctx)) d p fr ws u
  queueEmit crops.1 x n 1 (qFormat d) (qScale d) (cropsTensor d p ws crops.2)

theorem queue_cropsSent (s : State) (x n : Nat) (p : Position) (fr : Frame) (ws : List SWord) (u : State) :
    ∃ outs ctrs st emitted, (cropsSent s x n p fr ws u).queue x n =
      { sentQueue (u.queue x n) outs ctrs emitted with st := st } := by
  generalize hcrops : setCrops (jobSeed (s.ctx (s.queue x n).ctx)) (s.queue x n).desc p fr ws u = crops
  obtain ⟨outs, ctrs, st, emitted, hsent, -⟩ := qAny crops.1 x n 1 (qFormat (s.queue x n).desc)
    (qScale (s.queue x n).desc) (cropsTensor (s.queue x n).desc p ws crops.2) (flags_shaped p)
  have hqueue : crops.1.queue x n = u.queue x n := by rw [← hcrops, queue_setCrops]
  rw [hqueue] at hsent
  rw [cropsSent, hcrops]
  exact ⟨outs, ctrs, st, emitted, hsent⟩

section
variable {s : State} {x n i k : Nat} {ws : List SWord} (hopen : (s.queue x n).st = .opened)
  (hroi : qRoi (s.queue x n).desc = true) (hstream : roiStream s x n = some (i, k))
  (hset : wholeTensor ((s.stream (s.queue x n).ctx i).buf k).unread = some ws) (waited : BitVec 48)
include hopen hroi hstream hset

theorem roiSetTake_owed (howed : (s.queue x n).roiDrop ≠ 0) : roiSetTake s x n waited =
    (wordsPopped s (s.queue x n).ctx i k ws.length).modQueue x n fun q => { q with roiDrop := q.roiDrop - 1 } := by
  unfold roiSetTake
  dsimp only
  rw [hstream]
  dsimp only
  rw [hset]
  exact (if_neg (by simp [*])).trans (if_pos howed)

variable {p : Position} {rest : List Position} {fr : Frame} (hnone : (s.queue x n).roiDrop = 0)
  (hhead : (s.queue x n).positions = p :: rest)
  (hframe : (emittedFrames (s.queue x n).desc p.yields)[p.regions]? = some fr)
  (hbegun : p.phase = .decoded ∨ p.phase = .decoding) (hlag : qLag (s.queue x n).desc ≤ p.regions)
  (hturn : p.regions = p.emitted) (hon : domainOn s (streamsDomain x) = true) (hroom : queueRoom s x n 1 = true)
include hnone hhead hframe hbegun hlag hturn hon hroom

theorem roiSetTake_due : roiSetTake s x n waited =
    let popped := wordsPopped s (s.queue x n).ctx i k ws.length
    if setSample ws ≠ p.pos then stopQueue popped x n .roiSkew
    else cropsSent s x n p fr ws (popped.modQueue x n fun q => setTaken q p rest ws waited) := by
  unfold roiSetTake
  dsimp only
  rw [hstream]
  dsimp only
  rw [hset]
  refine (if_neg (by simp [hopen, hroi])).trans ((if_neg (by simp [hnone])).trans ?_)
  rw [hhead]
  dsimp only
  rw [hframe]
  refine (if_neg ?_).trans rfl
  rw [hturn] at hlag
  rcases hbegun with hbegun | hbegun <;> simp [*]

theorem queue_roiSetTake_skewed (hother : setSample ws ≠ p.pos) :
    (roiSetTake s x n waited).queue x n = { s.queue x n with st := .stopped } := by
  have htake := roiSetTake_due hopen hroi hstream hset waited hnone hhead hframe hbegun hlag hturn hon hroom
  rw [htake.trans (if_pos hother), queue_stopQueue, queue_wordsPopped]

theorem queue_roiSetTake_taken (hown : setSample ws = p.pos) : ∃ outs ctrs st emitted,
    (roiSetTake s x n waited).queue x n =
      { sentQueue (setTaken (s.queue x n) p rest ws waited) outs ctrs emitted with st := st } := by
  have htake := roiSetTake_due hopen hroi hstream hset waited hnone hhead hframe hbegun hlag hturn hon hroom
  rw [htake.trans (if_neg (not_not_intro hown))]
  obtain ⟨outs, ctrs, st, emitted, hsent⟩ := queue_cropsSent s x n p fr ws
    ((wordsPopped s (s.queue x n).ctx i k ws.length).modQueue x n fun q => setTaken q p rest ws waited)
  rw [queue_modQueue_self, queue_wordsPopped] at hsent
  exact ⟨outs, ctrs, st, emitted, hsent⟩

end

/-! ### Substitution (07 R289, R290) -/

/-- A queue whose head waits for a reserve sample, counted once. -/
def reserveAwaited (q : Queue) (p : Position) (rest : List Position) : Queue :=
  { q with reserveWaits := q.reserveWaits + 1, positions := { p with waited := true } :: rest }

/-- The place of a corrupt sample with a reserve sample in it. -/
def refilled (q : Queue) (p : Position) (r : Sample) : Position :=
  newPosition p.owner p.batch p.pos r true (sampleCost (qModality q.desc) r) p.skips

/-- The oldest reserve sample has left the pool for that place. -/
def refilledQueue (q : Queue) (head : Position) (rest : List Position) (pool : List Sample) : Queue :=
  { q with positions := head :: rest, pool := pool }

/-- The module once the reserve sample is at the head, before its checks. -/
def headRefilled (s : State) (x n : Nat) (p : Position) (rest : List Position) (r : Sample) (pool : List Sample) :
    State :=
  s.modQueue x n fun q => refilledQueue q (refilled (s.queue x n) p r) rest pool

theorem queue_headRefilled (s : State) (x n : Nat) (p : Position) (rest : List Position) (r : Sample)
    (pool : List Sample) : (headRefilled s x n p rest r pool).queue x n =
      refilledQueue (s.queue x n) (refilled (s.queue x n) p r) rest pool := queue_modQueue_self _ _ _ _

section
variable {s : State} {x n : Nat} {p : Position} {rest : List Position} (hopen : (s.queue x n).st = .opened)
  (hhead : (s.queue x n).positions = p :: rest) (hcorrupt : p.phase = .corrupt)
include hopen hhead hcorrupt

theorem substitution_awaits (hempty : (s.queue x n).pool = []) (hfirst : p.waited = false) :
    substitution s x n = s.modQueue x n fun q => reserveAwaited q p rest := by
  unfold substitution
  dsimp only
  rw [hhead, hempty]
  exact if_neg (by simp [*])

omit hopen hcorrupt in
theorem substitution_awaiting (hempty : (s.queue x n).pool = []) (hagain : p.waited = true) :
    substitution s x n = s := by
  unfold substitution
  dsimp only
  rw [hhead, hempty]
  exact if_pos (by simp [hagain])

theorem substitution_refills {r : Sample} {pool : List Sample} (hpool : (s.queue x n).pool = r :: pool) :
    substitution s x n = checkPosition (headRefilled s x n p rest r pool) x n 0 := by
  unfold substitution
  dsimp only
  rw [hhead, hpool]
  exact if_neg (by simp [*])

/-- The reserve sample has its checks at the head of the queue. -/
theorem substitution_facts {r : Sample} {pool : List Sample} (hpool : (s.queue x n).pool = r :: pool) :
    let q := s.queue x n
    let v := (substitution s x n).queue x n
    v.pool = pool ∧ ∃ p', v.positions = p' :: rest ∧ p'.owner = p.owner ∧ p'.batch = p.batch ∧ p'.pos = p.pos ∧
      p'.substituted = true ∧
      ((sampleChecks q.desc r).1 = 0 → predecoded r.codec = false → p'.phase = .waiting ∧ p'.skips = p.skips ∧
        p'.cand.index = r.index) ∧
      ((sampleChecks q.desc r).1 ≠ 0 → p'.phase = .corrupt ∧ v.corrupt = q.corrupt + 1) := by
  obtain ⟨p', hpositions, ⟨howner, hbatch, hpos, hsub⟩, hkept, -, -, hsound, hfails⟩ :=
    check_keeps (headRefilled s x n p rest r pool) x n 0 (refilled (s.queue x n) p r) (by rw [queue_headRefilled]; rfl)
  rw [queue_headRefilled] at hpositions hkept hsound hfails
  rw [substitution_refills hopen hhead hcorrupt hpool]
  refine ⟨hkept, p', hpositions, howner, hbatch, hpos, hsub, fun hchecks hcodec => ?_, fun hchecks => ?_⟩
  · obtain ⟨hp', -⟩ := hsound hchecks hcodec
    obtain ⟨held, hroom⟩ := room_facts (refilledQueue (s.queue x n) (refilled (s.queue x n) p r) rest pool) r
    have hcand : p'.cand = { r with heldMib := held } := by rw [hp', ← hroom]; rfl
    exact ⟨by rw [hp']; rfl, by rw [hp']; rfl, by rw [hcand]; rfl⟩
  · obtain ⟨hphase, -, hcount, -⟩ := hfails hchecks
    exact ⟨hphase, hcount⟩

end

end Sys2Proof.Laws.SampleDeparture

namespace Sys2Proof.Claims

open Sys2Proof.Laws.SampleArrival Sys2Proof.Laws.SampleDeparture in
/-- Settles O25. The tensors of a head sample that is due (`HeadDue`) leave as `queue_sent` says, and the sample goes
on, is consumed or stops its queue (`queue_intakeTensorEmit_going`, `_finished`, `_tooLong`); a late error adds one
poisoned tensor (`queue_latePlaced`); a region set is discarded, stops the queue or is taken (`roiSetTake_owed`,
`roiSetTake_due`); and a reserve sample takes the place of the corrupt head (`substitution_facts`). That substitution
is at the head only is log entry 70. -/
theorem samplesLeaveTheirQueue : Obligations.SamplesLeaveTheirQueue := by
  unfold Obligations.SamplesLeaveTheirQueue
  refine ⟨fun s x n len p rest hx hn hopen hhead => ⟨fun hwaits => ⟨_, exec_intakeTensorEmit hx hn s, ?_⟩,
      fun hphase hon hroom hmore hset hmain => ⟨fun hfits hwhole =>
        ⟨fun hgoing => ⟨_, exec_intakeTensorEmit hx hn s, ?_⟩,
          fun hfinished hlast => ⟨_, exec_intakeTensorEmit hx hn s, ?_⟩⟩,
        fun i r hstream hlong hframe => ⟨_, exec_intakeTensorEmit hx hn s, ?_⟩⟩⟩,
    fun s x n p rest sh f hx hn hopen hhead hvideo hdecoded hcause hbegun hsent hroom hlast hfmt hfits =>
      ⟨_, exec_lateCorrupt hx hn s, ?_⟩,
    fun s x n i k waited ws hx hn hopen hroi hstream hset => ⟨fun howed => ⟨_, exec_roiSetTake hx hn s waited, ?_⟩,
      fun p rest fr hnone hhead hframe hbegun hlag hturn hon hroom => ⟨_, exec_roiSetTake hx hn s waited, ?_⟩⟩,
    fun s x n p rest hx hn hopen hhead hcorrupt => ⟨fun hempty hfirst => ⟨_, exec_substitution hx hn s, ?_⟩,
      fun hempty hagain => ⟨_, exec_substitution hx hn s, ?_⟩,
      fun r pool hpool => ⟨_, exec_substitution hx hn s, ?_⟩⟩⟩
  · simp only [media_intakeStep, intakeTensorEmit_waits hhead hwaits]
  · simp only [queue_intakeStep]
    obtain ⟨outs, ctrs, hsent⟩ := queue_intakeTensorEmit_going
      ⟨hopen, hhead, hphase, hon, hroom, hmore, hset⟩ hmain hfits hwhole hgoing
    rw [hsent]
    exact ⟨rfl, rfl, hopen⟩
  · simp only [queue_intakeStep]
    exact queue_intakeTensorEmit_finished ⟨hopen, hhead, hphase, hon, hroom, hmore, hset⟩ hmain hfits hwhole hfinished
      hlast
  · simp only [queue_intakeStep]
    rw [queue_intakeTensorEmit_tooLong ⟨hopen, hhead, hphase, hon, hroom, hmore, hset⟩ hmain hstream hlong hframe]
    exact ⟨rfl, rfl, rfl⟩
  · simp only [queue_intakeStep]
    obtain ⟨outs, ctrs, hplaced⟩ := queue_latePlaced (p := p) (rest := rest) hfmt hfits
    have hstays := (congrArg Queue.st hplaced).trans hopen
    obtain ⟨hpositions, hemitted, hlate, hmanifest, hbatch⟩ := consume_facts (latePlaced s x n p rest sh) x n
      p.yields.cause 2 _ rest (congrArg Queue.positions hplaced)
    rw [lateCorrupt_places hopen hhead hvideo hdecoded hcause hbegun hsent hroom hlast hstays]
    simp only [hplaced] at hemitted hlate hmanifest hbatch
    exact ⟨hlate, hpositions, hemitted, fun hpos => (hmanifest hpos).2, hbatch⟩
  · simp only [queue_intakeStep, q_media (rcm _), roiSetTake_owed hopen hroi hstream hset waited howed,
      queue_modQueue_self, queue_wordsPopped]
    exact ⟨trivial, trivial, trivial⟩
  · simp only [queue_intakeStep, q_media (rcm _)]
    refine ⟨fun hother => ?_, fun hown => ?_⟩
    · rw [queue_roiSetTake_skewed hopen hroi hstream hset waited hnone hhead hframe hbegun hlag hturn hon hroom hother]
      exact ⟨rfl, rfl, rfl⟩
    · obtain ⟨outs, ctrs, st, emitted, htaken⟩ := queue_roiSetTake_taken hopen hroi hstream hset waited hnone hhead
        hframe hbegun hlag hturn hon hroom hown
      rw [htaken]
      exact ⟨rfl, rfl, rfl⟩
  · simp only [queue_intakeStep, substitution_awaits hopen hhead hcorrupt hempty hfirst, queue_modQueue_self]
    exact ⟨rfl, rfl⟩
  · simp only [media_intakeStep, substitution_awaiting hhead hempty hagain]
  · simp only [queue_intakeStep]
    exact substitution_facts hopen hhead hcorrupt hpool

end Sys2Proof.Claims
end

section
/-!
PROOF. States at which the statements on intake apply (O24, O25): sessions with a record, a text queue and a video
queue at the steps of their samples, and streams into and out of a queue.
-/

open Sys2Proof Sys2Proof.Machine Sys2Proof.Claims Sys2Proof.Laws.IntakeSteps

namespace Sys2Proof.Laws.IntakeExamples

set_option exponentiation.threshold 1024

/-- Complex 0 with its queue 0; every domain runs. -/
def withQueue (q : Queue) : State := { State.reset with
  bring := { State.reset.bring with domainOn := BitVec.allOnes 80 }
  media := [(0, { queues := [(0, q)] })] }

/-- A text queue with batches of 2, 10 credits, a quantum of 2 and 64 MiB. -/
def textDesc : Blob := ⟨128, 3 + 8 * 2 ^ 4 + 2 * 2 ^ 8 + 10 * 2 ^ 40 + 2 * 2 ^ 56 + 64 * 2 ^ 192⟩

/-- A queue of context 0. -/
def emptyQueue (d : Blob) : Queue := { st := .opened, desc := d, lastFree := 10 }

/-! ### A record comes (07 R263 to R265) -/

/-- The header of text sample 1, empty, at a position of batch 0. -/
def textHeader (pos reserve check : Nat) : Nat :=
  1 + pos * 2 ^ 96 + reserve * 2 ^ 112 + 0xB * 2 ^ 120 + check * 2 ^ 288

/-- A session whose stream holds one record. -/
def session (hdr : Nat) : LoadSession := ⟨0, 0, ⟨64, hdr⟩, 0⟩

/-- Context 0 has that session at entry 0. -/
def withRecord (hdr : Nat) (q : Queue) : State :=
  (withQueue q).modCtx 0 fun x => { x with sessions := [(0, session hdr)] }

/-- The check value of that sample. -/
def textCheck : Nat := 3306475437

theorem sampleRecord_accepts :
    Answers (.sampleRecord 0 0 false {}) (withRecord (textHeader 0 0 textCheck) (emptyQueue textDesc)) fun t =>
      (t.queue 0 0).accepted = 1 ∧ ∃ p, (t.queue 0 0).positions = [p] ∧ p.phase = .waiting ∧ p.cost = 1 := by
  obtain ⟨-, hwhole⟩ := samplesReachTheirQueue.1 (withRecord (textHeader 0 0 textCheck) (emptyQueue textDesc))
    0 0 false {} (by decide) (by decide)
  obtain ⟨t, hexec, -, -, -, -, hinOrder⟩ := hwhole (session (textHeader 0 0 textCheck)) _ _ rfl rfl
  obtain ⟨haccepted, -, -, p, hpositions, -, -, -, hsound, -⟩ :=
    hinOrder (by decide) (by decide) (by decide) (by decide)
  obtain ⟨hphase, hcost, -⟩ := hsound (by decide +kernel) (by decide)
  exact ⟨t, hexec, haccepted, p, hpositions, hphase, hcost.trans (by decide)⟩

/-- At reset there is no session. -/
theorem sampleRecord_none : Answers (.sampleRecord 0 0 false {}) State.reset fun t => t.media = [] := by
  obtain ⟨hnone, -⟩ := samplesReachTheirQueue.1 State.reset 0 0 false {} (by decide) (by decide)
  obtain ⟨t, hexec, hmedia, -⟩ := hnone (session 0) (.inl rfl)
  exact ⟨t, hexec, hmedia⟩

theorem sampleRecord_drops : Answers (.sampleRecord 0 0 false {}) (withRecord (textHeader 0 0 textCheck) {}) fun t =>
    (t.complex 0).closedDrops = 1 := by
  obtain ⟨-, hwhole⟩ := samplesReachTheirQueue.1 (withRecord (textHeader 0 0 textCheck) {}) 0 0 false {}
    (by decide) (by decide)
  obtain ⟨t, hexec, -, hclosed, -⟩ := hwhole (session (textHeader 0 0 textCheck)) _ _ rfl rfl
  exact ⟨t, hexec, congrArg Complex.closedDrops (cx (hclosed (by decide)) 0)⟩

theorem sampleRecord_pools :
    Answers (.sampleRecord 0 0 false {}) (withRecord (textHeader 0 1 textCheck) (emptyQueue textDesc)) fun t =>
      (t.queue 0 0).pool.length = 1 := by
  obtain ⟨-, hwhole⟩ := samplesReachTheirQueue.1 (withRecord (textHeader 0 1 textCheck) (emptyQueue textDesc))
    0 0 false {} (by decide) (by decide)
  obtain ⟨t, hexec, -, -, hreserve, -⟩ := hwhole (session (textHeader 0 1 textCheck)) _ _ rfl rfl
  obtain ⟨-, hpool, -⟩ := hreserve (by decide) (by decide)
  exact ⟨t, hexec, congrArg List.length hpool⟩

/-- Position 2 is none of a batch of 2. -/
def beyondBatch : State := withRecord (textHeader 2 0 textCheck) (emptyQueue textDesc)

theorem sampleRecord_stops : Answers (.sampleRecord 0 0 false {}) beyondBatch fun t =>
    (t.queue 0 0).st = .stopped := by
  obtain ⟨-, hwhole⟩ := samplesReachTheirQueue.1 beyondBatch 0 0 false {} (by decide) (by decide)
  obtain ⟨t, hexec, -, -, -, horder, -⟩ := hwhole (session (textHeader 2 0 textCheck)) _ _ rfl rfl
  obtain ⟨hst, -⟩ := horder (by decide) (by decide) (.inl (by decide))
  exact ⟨t, hexec, hst⟩

/-- A word of the payload came poisoned. -/
theorem sampleRecord_poisoned :
    Answers (.sampleRecord 0 0 true {}) (withRecord (textHeader 0 0 textCheck) (emptyQueue textDesc)) fun t =>
      (t.queue 0 0).corrupt = 1 ∧ (t.queue 0 0).lastCause = 0xB := by
  obtain ⟨-, hwhole⟩ := samplesReachTheirQueue.1 (withRecord (textHeader 0 0 textCheck) (emptyQueue textDesc))
    0 0 true {} (by decide) (by decide)
  obtain ⟨t, hexec, -, -, -, -, hinOrder⟩ := hwhole (session (textHeader 0 0 textCheck)) _ _ rfl rfl
  obtain ⟨-, -, -, p, -, -, -, -, -, hcorrupt⟩ := hinOrder (by decide) (by decide) (by decide) (by decide)
  obtain ⟨-, -, hcount, hcause⟩ := hcorrupt (by decide)
  exact ⟨t, hexec, hcount, hcause⟩

/-! ### A sample decodes (07 R266, R281, R286, R291) -/

/-- The text sample. -/
def textSample : Sample := ⟨BitVec.ofNat 512 (textHeader 0 0 textCheck), Blob.empty, false, {}, none⟩

/-- The place of a sample in a phase, with its credit held. -/
def placed (smp : Sample) (phase : SamplePhase) : Position := { newPosition smp 0 0 smp false 1 [] with phase := phase }

/-- A queue with one sample. -/
def holdingSample (d : Blob) (p : Position) : Queue := { emptyQueue d with positions := [p] }

theorem decodeStart_begins :
    Answers (.decodeStart 0 0 0 {} 7) (withQueue (holdingSample textDesc (placed textSample .waiting))) fun t =>
      (t.queue 0 0).roomWait = 7 ∧ ((t.queue 0 0).positions.map (·.phase)) = [.decoding] := by
  obtain ⟨-, hdecodes⟩ := samplesReachTheirQueue.2.1
    (withQueue (holdingSample textDesc (placed textSample .waiting))) 0 0 0 {} 7
    (placed textSample .waiting) (by decide) (by decide) (by decide) rfl rfl (by decide)
  obtain ⟨t, hexec, hwait, hpositions⟩ := hdecodes (by decide) (by decide)
  exact ⟨t, hexec, hwait.trans (by decide), by rw [hpositions]; rfl⟩

/-- The queue has no working memory. -/
def noMemory : Blob := ⟨128, 3 + 8 * 2 ^ 4 + 2 * 2 ^ 8⟩

theorem decodeStart_waits :
    Answers (.decodeStart 0 0 0 {} 7) (withQueue (holdingSample noMemory (placed textSample .waiting))) fun t =>
      t.media = (withQueue (holdingSample noMemory (placed textSample .waiting))).media :=
  (samplesReachTheirQueue.2.1 (withQueue (holdingSample noMemory (placed textSample .waiting))) 0 0 0 {} 7
    (placed textSample .waiting) (by decide) (by decide) (by decide) rfl rfl (by decide)).1 (.inl (by decide))

/-- The text ends: its credit is free, and a quantum of 2 is not. -/
theorem decodeDone_frees :
    Answers (.decodeDone 0 0 1) (withQueue { emptyQueue textDesc with positions :=
      [placed textSample .waiting, placed textSample .decoding] }) fun t =>
      (t.queue 0 0).freed = 1 ∧ (t.queue 0 0).positions.map (·.phase) = [.waiting, .decoded] := by
  obtain ⟨hsound, -⟩ := samplesReachTheirQueue.2.2.1 (withQueue { emptyQueue textDesc with positions :=
    [placed textSample .waiting, placed textSample .decoding] }) 0 0 1 (placed textSample .decoding)
    (by decide) (by decide) (by decide) rfl rfl
  obtain ⟨t, hexec, hpositions, -, hless, -⟩ := hsound (by decide) (by decide)
  obtain ⟨hfreed, -⟩ := hless (by decide)
  exact ⟨t, hexec, hfreed, by rw [hpositions]; rfl⟩

/-- A video queue with batches of 2, of binary32 tensors, with `more` in the fields behind. -/
def videoDesc (more : Nat) : Blob := ⟨128, 3 * 2 ^ 4 + 2 * 2 ^ 8 + 64 * 2 ^ 192 + more⟩

/-- A video whose decoder gives no frame is truncated. -/
theorem decodeDone_truncated :
    Answers (.decodeDone 0 0 0) (withQueue (holdingSample (videoDesc 0) (placed textSample .decoding))) fun t =>
      (t.queue 0 0).corrupt = 1 ∧ (t.queue 0 0).lastCause = 4 := by
  obtain ⟨-, hcorrupt⟩ := samplesReachTheirQueue.2.2.1
    (withQueue (holdingSample (videoDesc 0) (placed textSample .decoding))) 0 0 0 (placed textSample .decoding)
    (by decide) (by decide) (by decide) rfl rfl
  obtain ⟨t, hexec, hcount, hcause, -⟩ := hcorrupt (by decide)
  exact ⟨t, hexec, hcount, hcause⟩

/-! ### Credit records (07 R287) -/

theorem creditTimer_tells :
    Answers (.creditTimer 0 0) (withQueue (holdingSample textDesc (placed textSample .waiting))) fun t =>
      (t.queue 0 0).seq = 1 ∧ (t.queue 0 0).lastFree = 9 := by
  obtain ⟨hchanged, -⟩ := samplesReachTheirQueue.2.2.2
    (withQueue (holdingSample textDesc (placed textSample .waiting))) 0 0 (by decide) (by decide)
  obtain ⟨t, hexec, hseq, hfree, -⟩ := hchanged (by decide) (by decide)
  exact ⟨t, hexec, hseq, hfree.trans (by decide)⟩

theorem creditTimer_same : Answers (.creditTimer 0 0) (withQueue (emptyQueue textDesc)) fun t =>
    t.media = (withQueue (emptyQueue textDesc)).media :=
  (samplesReachTheirQueue.2.2.2 (withQueue (emptyQueue textDesc)) 0 0 (by decide) (by decide)).2 (.inr (by decide))

/-! ### Tensors leave (07 R269, R271, R274, R275, R292) -/

/-- A picture of one point. -/
def picture : Frame := ⟨1, 1, [], 8, false, none, false, false⟩

/-- A decoded video of two frames that has sent `emitted` of them and ended with a cause. -/
def video (emitted cause : Nat) : Position := { placed textSample .decoded with
  yields := { frames := [picture, picture], cause := cause }
  emitted := emitted }

/-- The queue of that video. -/
def videoQueue (more emitted cause : Nat) : State :=
  withQueue (holdingSample (videoDesc more) (video emitted cause))

theorem intakeTensorEmit_sends : Answers (.intakeTensorEmit 0 0) (videoQueue 0 0 0) fun t =>
    (t.queue 0 0).emitted = 1 ∧ (t.queue 0 0).positions.map (·.emitted) = [1] := by
  obtain ⟨-, hdue⟩ := samplesLeaveTheirQueue.1 (videoQueue 0 0 0) 0 0 _ (video 0 0) [] (by decide) (by decide)
    (by decide) rfl
  obtain ⟨hfits, -⟩ := hdue (.inl rfl) (by decide) (by decide) (by decide) (by decide)
    (.inr ⟨by decide, _, .binary32, rfl, by decide, rfl⟩)
  obtain ⟨hgoing, -⟩ := hfits (.inl (by decide)) (fun hwhole => absurd hwhole (by decide))
  obtain ⟨t, hexec, hemitted, hpositions, -⟩ := hgoing (by decide)
  exact ⟨t, hexec, hemitted, by rw [hpositions]; rfl⟩

/-- A queue with ROI and a history of one frame: frame 0 leaves whole too. -/
theorem intakeTensorEmit_sendsWhole : Answers (.intakeTensorEmit 0 0) (videoQueue (2 ^ 476) 0 0) fun t =>
    (t.queue 0 0).emitted = 2 ∧ (t.queue 0 0).positions.map (·.regions) = [1] := by
  obtain ⟨-, hdue⟩ := samplesLeaveTheirQueue.1 (videoQueue (2 ^ 476) 0 0) 0 0 _ (video 0 0) [] (by decide) (by decide)
    (by decide) rfl
  obtain ⟨hfits, -⟩ := hdue (.inl rfl) (by decide) (by decide) (by decide) (by decide)
    (.inr ⟨by decide, _, .binary32, rfl, by decide, rfl⟩)
  obtain ⟨hgoing, -⟩ := hfits (.inl (by decide)) (fun _ => ⟨picture, .binary32, rfl, by decide, .inl (by decide)⟩)
  obtain ⟨t, hexec, hemitted, hpositions, -⟩ := hgoing (by decide)
  exact ⟨t, hexec, hemitted, by rw [hpositions]; rfl⟩

/-- A text of two tokens, decoded. -/
def text : Position := { placed textSample .decoded with tokens := [5, 7] }

/-- A text sends one tensor, and is consumed with it. -/
theorem intakeTensorEmit_consumes : Answers (.intakeTensorEmit 0 0) (withQueue (holdingSample textDesc text)) fun t =>
    (t.queue 0 0).positions = [] ∧ (t.queue 0 0).manifest.length = 1 := by
  obtain ⟨-, hdue⟩ := samplesLeaveTheirQueue.1 (withQueue (holdingSample textDesc text)) 0 0 _ text [] (by decide)
    (by decide) (by decide) rfl
  obtain ⟨hfits, -⟩ := hdue (.inl rfl) (by decide) (by decide) (by decide) (by decide) (.inl ⟨by decide, rfl⟩)
  obtain ⟨-, hfinished⟩ := hfits (.inl (by decide)) (fun hwhole => absurd hwhole (by decide))
  obtain ⟨t, hexec, -, hpositions, -, hmanifest⟩ := hfinished (by decide) (by decide)
  exact ⟨t, hexec, hpositions, congrArg List.length hmanifest⟩

/-- A stream between a channel of complex 0 and another endpoint, of tensors of one element. -/
def channelStream (producer consumer : BitVec 32) : StreamRec := ⟨producer, [consumer], 3, 1, 0, false, 0, 1, 4⟩

/-- Context 0 with one stream and the words in its buffer. -/
def withStream (r : StreamRec) (ws : List SWord) (s : State) : State := s.modCtx 0 fun x => { x with
  image := some ⟨1, [], [], [r], [], []⟩
  streams := [(0, { Stream.empty with bufs := [(0, { words := ws })] })] }

/-- The main output of the text queue, channel 0, feeds a stream. -/
def textOut : State := withStream (channelStream 5 0) [] (withQueue (holdingSample textDesc text))

/-- The two tokens are longer than its MAX_LEN. -/
theorem intakeTensorEmit_tooLong : Answers (.intakeTensorEmit 0 0) textOut fun t =>
    (t.queue 0 0).st = .stopped ∧ (t.queue 0 0).emitted = 0 := by
  obtain ⟨-, hdue⟩ := samplesLeaveTheirQueue.1 textOut 0 0 _ text [] (by decide) (by decide) (by decide) rfl
  obtain ⟨-, htooLong⟩ := hdue (.inl rfl) (by decide) (by decide) (by decide) (by decide) (.inl ⟨by decide, rfl⟩)
  obtain ⟨t, hexec, hst, -, hemitted⟩ := htooLong 0 (channelStream 5 0) (by decide) (by decide) (by decide)
  exact ⟨t, hexec, hst, hemitted⟩

theorem intakeTensorEmit_waits :
    Answers (.intakeTensorEmit 0 0) (withQueue (holdingSample textDesc (placed textSample .waiting))) fun t =>
      t.media = (withQueue (holdingSample textDesc (placed textSample .waiting))).media :=
  (samplesLeaveTheirQueue.1 (withQueue (holdingSample textDesc (placed textSample .waiting))) 0 0 0
    (placed textSample .waiting) [] (by decide) (by decide) (by decide) rfl).1 (.inr (.inr (by decide)))

/-- Both frames have left, and the payload ended early. -/
theorem lateCorrupt_places : Answers (.lateCorrupt 0 0) (videoQueue 0 2 4) fun t =>
    (t.queue 0 0).lateCorrupt = 1 ∧ (t.queue 0 0).emitted = 1 ∧ (t.queue 0 0).positions = [] := by
  obtain ⟨t, hexec, hlate, hpositions, hemitted, -⟩ := samplesLeaveTheirQueue.2.1 (videoQueue 0 2 4) 0 0 (video 2 4)
    [] _ .binary32 (by decide) (by decide) (by decide) rfl (by decide) rfl (by decide) (by decide) (by decide) (by decide)
    rfl (by decide) (.inl (by decide))
  exact ⟨t, hexec, hlate, hemitted, hpositions⟩

/-! ### Region sets (07 R276, R277) -/

/-- A region set of one record, poisoned, for a sample. -/
def regionSet (sample : Nat) : List SWord :=
  [⟨BitVec.ofNat 1024 (1 + sample * 2 ^ 128), true, false, false⟩, ⟨0, false, true, true⟩]

/-- A queue with ROI whose region input, channel 3, has that set. -/
def withRegions (sample : Nat) (q : Queue) : State :=
  withStream (channelStream 0 0x65) (regionSet sample) (withQueue q)

/-- A queue at frame 1 of its head, with sets owed by finished samples. -/
def roiQueue (owed : Nat) : Queue :=
  { holdingSample (videoDesc (2 ^ 476)) { video 1 0 with regions := 1 } with roiDrop := owed }

theorem roiSetTake_discards : Answers (.roiSetTake 0 0 3) (withRegions 0 (roiQueue 1)) fun t =>
    (t.queue 0 0).roiDrop = 0 := by
  obtain ⟨howed, -⟩ := samplesLeaveTheirQueue.2.2.1 (withRegions 0 (roiQueue 1)) 0 0 0 0 3 (regionSet 0) (by decide)
    (by decide) (by decide) (by decide) (by decide) rfl
  obtain ⟨t, hexec, hdrop, -⟩ := howed (by decide)
  exact ⟨t, hexec, hdrop⟩

theorem roiSetTake_takes : Answers (.roiSetTake 0 0 3) (withRegions 0 (roiQueue 0)) fun t =>
    (t.queue 0 0).roiWait = 3 ∧ (t.queue 0 0).roiInvalid = 1 ∧ (t.queue 0 0).positions.map (·.regions) = [2] := by
  obtain ⟨-, hdue⟩ := samplesLeaveTheirQueue.2.2.1 (withRegions 0 (roiQueue 0)) 0 0 0 0 3 (regionSet 0) (by decide)
    (by decide) (by decide) (by decide) (by decide) rfl
  obtain ⟨t, hexec, -, htaken⟩ := hdue { video 1 0 with regions := 1 } [] picture (by decide) rfl rfl (.inl rfl)
    (by decide) rfl (by decide) (by decide)
  obtain ⟨hpositions, hwait, hinvalid⟩ := htaken (by decide)
  exact ⟨t, hexec, hwait, hinvalid.trans (by decide), by rw [hpositions]; rfl⟩

theorem roiSetTake_stops : Answers (.roiSetTake 0 0 3) (withRegions 1 (roiQueue 0)) fun t =>
    (t.queue 0 0).st = .stopped := by
  obtain ⟨-, hdue⟩ := samplesLeaveTheirQueue.2.2.1 (withRegions 1 (roiQueue 0)) 0 0 0 0 3 (regionSet 1) (by decide)
    (by decide) (by decide) (by decide) (by decide) rfl
  obtain ⟨t, hexec, hskewed, -⟩ := hdue { video 1 0 with regions := 1 } [] picture (by decide) rfl rfl (.inl rfl)
    (by decide) rfl (by decide) (by decide)
  obtain ⟨hst, -⟩ := hskewed (by decide)
  exact ⟨t, hexec, hst⟩

/-! ### Substitution (07 R289, R290) -/

/-- The head of a queue is corrupt. -/
def corruptHead (waited : Bool) (pool : List Sample) : State :=
  withQueue { holdingSample textDesc { placed textSample .corrupt with waited := waited } with pool := pool }

theorem substitution_waits : Answers (.substitution 0 0) (corruptHead false []) fun t =>
    (t.queue 0 0).reserveWaits = 1 := by
  obtain ⟨hfirst, -⟩ := samplesLeaveTheirQueue.2.2.2 (corruptHead false []) 0 0 (placed textSample .corrupt) []
    (by decide) (by decide) (by decide) rfl rfl
  obtain ⟨t, hexec, hwaits, -⟩ := hfirst rfl rfl
  exact ⟨t, hexec, hwaits⟩

theorem substitution_waitsOnce : Answers (.substitution 0 0) (corruptHead true []) fun t =>
    t.media = (corruptHead true []).media :=
  (samplesLeaveTheirQueue.2.2.2 (corruptHead true []) 0 0 { placed textSample .corrupt with waited := true } []
    (by decide) (by decide) (by decide) rfl rfl).2.1 rfl rfl

theorem substitution_refills : Answers (.substitution 0 0) (corruptHead false [textSample]) fun t =>
    (t.queue 0 0).pool = [] ∧ ∃ p, (t.queue 0 0).positions = [p] ∧ p.substituted = true ∧ p.phase = .waiting := by
  obtain ⟨-, -, htakes⟩ := samplesLeaveTheirQueue.2.2.2 (corruptHead false [textSample]) 0 0
    (placed textSample .corrupt) [] (by decide) (by decide) (by decide) rfl rfl
  obtain ⟨t, hexec, hpool, p, hpositions, -, -, -, hsub, hsound, -⟩ := htakes textSample [] rfl
  obtain ⟨hphase, -⟩ := hsound (by decide +kernel) (by decide)
  exact ⟨t, hexec, hpool, p, hpositions, hsub, hphase⟩

end Sys2Proof.Laws.IntakeExamples
end

section
/-!
PROOF. The barriers of a step (O26).
-/

open Sys2Proof Sys2Proof.Machine Sys2Proof.Claims Sys2Proof.Laws

namespace Sys2Proof.Laws.StepEnds

/-! ### VERDICT_BARRIER (08 R296, R299, R334) -/

theorem exec_verdictBarrier {c : Nat} (hc : c < nCtx) (s : State) :
    exec (.verdictBarrier c) s = .next (verdictBarrier s c) :=
  withUnit_of (by simpa using hc)

/-- The counts of the step: the counters of the PHASE-0 stages and of the intake queues are snapshotted. -/
def stepTotals (s : State) (c : Nat) : EpSnap :=
  ((queuesOf s c).foldl snapQueue
    (((coresOf s c).filter fun n => (s.core n).stage.phase = 0).foldl snapCore (s, EpSnap.zero))).2

/-- LOSS_NONFINITE and LOSS_SPIKE of the context's monitor, where it has one. -/
def monitorFlags (s : State) (c : Nat) : Bool × Bool :=
  ((monitorLoss s c).map fun q =>
    monitorFires (((s.core q.1).stage.info.map (·.param)).getD Blob.empty) (s.core q.1).loss q.2.1 q.2.2).getD
    (false, false)

/-- A count lies above the limit of its source, and the source is watched. -/
def aboveLimit (o : Blob) (k : Nat) (count : BitVec 48) : Bool :=
  optLimit o k ≠ 0xFFFFFFFF && optLimit o k < count.toNat

theorem aboveLimit_iff {o : Blob} {k : Nat} {count : BitVec 48} :
    aboveLimit o k count = true ↔ optLimit o k ≠ 0xFFFFFFFF ∧ optLimit o k < count.toNat := by
  simp [aboveLimit]

/-- The sources that fire, in the order of FIRED. -/
def sources (s : State) (c : Nat) : List Bool :=
  let o := (s.ctx c).options
  let tot := stepTotals s c
  [aboveLimit o 0 (tot.nonfinite + tot.nanZeroed), aboveLimit o 1 tot.saturations, aboveLimit o 2 tot.poisonedWords,
    (monitorFlags s c).2, (monitorFlags s c).1]

/-- FIRED. -/
def firedWord (s : State) (c : Nat) : BitVec 5 :=
  BitVec.ofNat 5 (packFields ((sources s c).map fun f => (boolNat f, 1)))

/-- The leaf value: the largest policy among the sources that fire. -/
def leafPolicy (s : State) (c : Nat) : Nat :=
  (sources s c).zipIdx.foldl (fun m f => if f.1 then max m (optPolicy (s.ctx c).options f.2) else m) 0

section
variable {s : State} {c : Nat}

theorem getLsbD_firedWord :
    (firedWord s c).getLsbD 0 =
      aboveLimit (s.ctx c).options 0 ((stepTotals s c).nonfinite + (stepTotals s c).nanZeroed) ∧
    (firedWord s c).getLsbD 1 = aboveLimit (s.ctx c).options 1 (stepTotals s c).saturations ∧
    (firedWord s c).getLsbD 2 = aboveLimit (s.ctx c).options 2 (stepTotals s c).poisonedWords ∧
    (firedWord s c).getLsbD 3 = (monitorFlags s c).2 ∧ (firedWord s c).getLsbD 4 = (monitorFlags s c).1 :=
  Training.fb _ _ _ _ _

theorem leafPolicy_max :
    (∀ k, k < 5 → (firedWord s c).getLsbD k = true → optPolicy (s.ctx c).options k ≤ leafPolicy s c) ∧
      (leafPolicy s c = 0 ∨
        ∃ k, k < 5 ∧ (firedWord s c).getLsbD k = true ∧ optPolicy (s.ctx c).options k = leafPolicy s c) := by
  obtain ⟨h0, h1, h2, h3, h4⟩ := getLsbD_firedWord (s := s) (c := c)
  exact Training.lf (optPolicy (s.ctx c).options) _ _ _ _ _ _ rfl _ h0 h1 h2 h3 h4

theorem verdictBarrier_waits
    (hwait : stepRuns s c = false ∨ (s.ctx c).step.leaf ≠ none ∨ verdictReady s c = false) :
    verdictBarrier s c = s := by
  rw [verdictBarrier]
  refine if_pos ?_
  rcases hwait with hstill | hleaf | hunready
  · simp [hstill]
  · simp [Option.isSome_iff_ne_none.2 hleaf]
  · simp [hunready]

theorem step_verdictBarrier (hruns : stepRuns s c = true) (hleaf : (s.ctx c).step.leaf = none)
    (hready : verdictReady s c = true) : ((verdictBarrier s c).ctx c).step = { (s.ctx c).step with
      stepNonfinite := (stepTotals s c).nonfinite + (stepTotals s c).nanZeroed
      stepSaturations := (stepTotals s c).saturations
      stepPoisoned := (stepTotals s c).poisonedWords
      fired := firedWord s c
      leaf := some (leafPolicy s c) } := by
  rw [verdictBarrier]
  dsimp only
  rw [if_neg (by simp [hruns, hleaf, hready]), ctx_modCtx_self]
  have hsnaps := ctx_of (Training.snaps_ctxs s ((coresOf s c).filter fun n => (s.core n).stage.phase = 0)
    (queuesOf s c) EpSnap.zero) c
  cases hloss : monitorLoss s c with
  | none =>
    simp only [hsnaps, firedWord, leafPolicy, sources, monitorFlags, hloss]
    rfl
  | some q =>
    simp only [modCore_ctx, hsnaps, firedWord, leafPolicy, sources, monitorFlags, hloss]
    rfl

end

/-! ### VERDICT_RECEIVED (08 R335) -/

theorem exec_verdictReceived {c v : Nat} (hc : c < nCtx) (hv : v < 4) (s : State) :
    exec (.verdictReceived c v) s = .next (verdictReceived s c v) :=
  withUnit_of (by simpa using ⟨hc, hv⟩)

/-- The step with its verdict, counted. -/
def judged (v : Nat) (x : StepBlk) : StepBlk :=
  { x with
    verdict := some v
    verdictLast := BitVec.ofNat 7 (v + 4 * x.fired.toNat)
    stepsApplied := x.stepsApplied + (if v = 0 then 1 else 0)
    stepsSkipped := x.stepsSkipped + (if v = 1 then 1 else 0)
    stepRollbacks := x.stepRollbacks + (if v = 2 then 1 else 0) }

/-- The monitor takes the loss of a step that is applied, unless the monitor is among the sources that fired. -/
def lossAbsorbed (s : State) (c : Nat) (t : State) : State :=
  match monitorLoss s c with
  | some (m, l, _) =>
    if (s.ctx c).step.fired.getLsbD 3 || (s.ctx c).step.fired.getLsbD 4 then t
    else t.modCore m fun k => { k with
      loss := absorb (lossAlpha (((s.core m).stage.info.map (·.param)).getD Blob.empty)) l k.loss }
  | none => t

theorem ctx_lossAbsorbed (s : State) (c : Nat) (t : State) (d : Nat) : (lossAbsorbed s c t).ctx d = t.ctx d := by
  unfold lossAbsorbed
  split
  · split
    · rfl
    · rfl
  · rfl

theorem loss_lossAbsorbed {s : State} {c m : Nat} {l : F32} {p : Bool} (hloss : monitorLoss s c = some (m, l, p))
    (hspike : (s.ctx c).step.fired.getLsbD 3 = false) (hbad : (s.ctx c).step.fired.getLsbD 4 = false) (t : State) :
    ((lossAbsorbed s c t).core m).loss =
      absorb (lossAlpha (((s.core m).stage.info.map (·.param)).getD Blob.empty)) l (t.core m).loss := by
  rw [lossAbsorbed, hloss]
  dsimp only
  rw [hspike, hbad, if_neg (by decide), core_modCore_self]

section
variable {s : State} {c v : Nat}

theorem verdictReceived_idle
    (hidle : stepRuns s c = false ∨ (s.ctx c).step.leaf = none ∨ (s.ctx c).step.verdict ≠ none) :
    verdictReceived s c v = s := by
  rw [verdictReceived]
  refine if_pos ?_
  rcases hidle with hstill | hleaf | hverdict
  · simp [hstill]
  · simp [hleaf]
  · simp [Option.isSome_iff_ne_none.2 hverdict]

/-- What a verdict does beside the counts: an applied step feeds the monitor, a skipped one is counted at the UPDATE
stages, a rolled back one is reported to the coordinator. -/
def verdictFollowed (s : State) (c v : Nat) (t : State) : State :=
  if v = 0 then lossAbsorbed s c t else if v = 1 then countSkipped t c else report t c 2 0 1

theorem step_verdictFollowed (s : State) (c v : Nat) (t : State) (d : Nat) :
    ((verdictFollowed s c v t).ctx d).step = (t.ctx d).step := by
  unfold verdictFollowed
  split
  · rw [ctx_lossAbsorbed]
  · split
    · rw [ctx_of ((touches_countSkipped t c).2 .ctxs (by decide))]
    · exact (Training.step_report t c d 2 0 1).1

theorem loss_verdictFollowed (s : State) (c : Nat) (hv : v ≠ 0) (t : State) (n : Nat) :
    ((verdictFollowed s c v t).core n).loss = (t.core n).loss := by
  rw [verdictFollowed, if_neg hv]
  split
  · exact Training.countSkipped_loss t c n
  · rw [core_of (Training.step_report t c c 2 0 1).2]

theorem verdictReceived_takes {l : Nat} (hruns : stepRuns s c = true) (hleaf : (s.ctx c).step.leaf = some l)
    (hverdict : (s.ctx c).step.verdict = none) (hfits : verdictFits (s.ctx c) l v = true) :
    verdictReceived s c v =
      verdictFollowed s c v (s.modCtx c fun x => { x with step := judged v x.step }) := by
  rw [verdictReceived]
  dsimp only
  rw [if_neg (by simp [hruns, hleaf, hverdict, hfits])]
  rfl

end

/-! ### END_OF_STEP_BARRIER (08 R296 to R298) -/

theorem exec_endOfStepBarrier {c : Nat} (hc : c < nCtx) (s : State) :
    exec (.endOfStepBarrier c) s = .next (settle s (endOfStepBarrier s c)) :=
  withUnit_of (by simpa using hc)

theorem nodup_coresOf (s : State) (c : Nat) : (coresOf s c).Nodup := List.nodup_range.filter _

theorem core_newStep (s : State) (c n : Nat) :
    (newStep s c).core n = if n ∈ coresOf s c then (s.core n).newStep else s.core n := by
  have hqueues : (newStep s c).cores = ((coresOf s c).foldl (fun s n => s.modCore n Core.newStep) s).cores :=
    (Training.qfold_cores _ _ _).1
  obtain ⟨hothers, hown⟩ := fold_view id id (fun s n => s.modCore n Core.newStep) (fun _ => Core.newStep)
    (fun s m k hk => core_modCore_other s m k _ hk) (fun s m => core_modCore_self s m _) (coresOf s c) s
    (by simpa using nodup_coresOf s c)
  rw [core_of hqueues]
  split
  next hmem => exact hown n hmem
  next hmem => exact hothers n (by simpa using hmem)

theorem step_newStep (s : State) (c : Nat) :
    ((newStep s c).ctx c).step = { (s.ctx c).step with leaf := none, verdict := none, fired := 0 } := by
  rw [newStep]
  dsimp only
  rw [ctx_modCtx_self, ctx_of (Training.qfold_cores _ _ _).2, ctx_of (Training.cfold_ctxs _ _ _)]

/-- JOB_STEP after this step. -/
def jobStepNext (s : State) (c : Nat) : BitVec 32 := (s.ctx c).step.jobStep + 1

/-- The step that ends is one at which the plan commits. -/
def commitDue (s : State) (c : Nat) : Bool :=
  planN (s.ctx c).plan ≠ 0 && (jobStepNext s c).toNat % planN (s.ctx c).plan = 0

/-- The next step begins, with its number. -/
def stepBegun (s : State) (c : Nat) : State :=
  newStep (s.modCtx c fun x => { x with step := { x.step with jobStep := jobStepNext s c } }) c

/-- The commit point of a boundary, with the rank that rejoins there. -/
def boundaryPassed (s : State) (c : Nat) : State :=
  let n := (jobStepNext s c).toNat
  if commitDue s c then joinAtBoundary (commitPoint (stepBegun s c) c n) c n else stepBegun s c

theorem cores_boundaryPassed (s : State) (c : Nat) : (boundaryPassed s c).cores = (stepBegun s c).cores := by
  unfold boundaryPassed
  dsimp only
  split
  · rw [(touches_joinAtBoundary _ _ _).2 .cores (by decide), (touches_commitPoint _ _ _).2 .cores (by decide)]
  · rfl

theorem step_boundaryPassed (s : State) (c : Nat) :
    ((boundaryPassed s c).ctx c).step = ((stepBegun s c).ctx c).step := by
  unfold boundaryPassed
  dsimp only
  split
  · exact (Training.step_joinAt _ c _ c).trans (Training.step_commitPoint _ c _ c)
  · rfl

section
variable {s : State} {c : Nat}

theorem core_stepBegun (n : Nat) :
    (stepBegun s c).core n = if n ∈ coresOf s c then (s.core n).newStep else s.core n :=
  core_newStep _ c n

theorem step_stepBegun : ((stepBegun s c).ctx c).step =
    { (s.ctx c).step with jobStep := jobStepNext s c, leaf := none, verdict := none, fired := 0 } := by
  rw [stepBegun, step_newStep, ctx_modCtx_self]

theorem endOfStepBarrier_waits (hwait : stepRuns s c = false ∨ (s.ctx c).step.verdict = none ∨
    (s.ctx c).step.verdict = some 2 ∨ (coresOf s c).all (atStepEnd s) = false ∨ writesDone s c = false ∨
    updatesDone s c = false) : endOfStepBarrier s c = s := by
  rw [endOfStepBarrier]
  refine if_pos ?_
  rcases hwait with h | h | h | h | h | h <;> simp [h]

variable {v : Nat} (hruns : stepRuns s c = true) (hverdict : (s.ctx c).step.verdict = some v) (hv : v ≤ 1)
  (hstages : (coresOf s c).all (atStepEnd s) = true) (hwrites : writesDone s c = true)
  (hupdates : updatesDone s c = true) (hjoin : commitDue s c = true → joinHolds s c = false)
include hruns hverdict hv hstages hwrites hupdates hjoin

theorem endOfStepBarrier_ends : endOfStepBarrier s c =
    if (s.ctx c).unload then unloadNow (boundaryPassed s c) c else boundaryPassed s c := by
  have hheld : (commitDue s c && joinHolds s c) = false := by
    cases hdue : commitDue s c
    · rfl
    · exact hjoin hdue
  rw [endOfStepBarrier]
  dsimp only
  rw [if_neg (by simp only [hruns, hverdict, hv, hstages, hwrites, hupdates]; decide)]
  exact if_neg (ne_true_of_eq_false hheld)

theorem step_endOfStepBarrier : ((settle s (endOfStepBarrier s c)).ctx c).step =
    { (s.ctx c).step with jobStep := jobStepNext s c, leaf := none, verdict := none, fired := 0 } := by
  refine (CK.settle (g := fun x => x.step) (fun _ _ _ _ => rfl) (fun _ _ _ _ _ _ => rfl) s _ c).trans ?_
  rw [endOfStepBarrier_ends hruns hverdict hv hstages hwrites hupdates hjoin]
  have hpassed := (step_boundaryPassed s c).trans step_stepBegun
  split
  · exact (Training.step_unloadNow _ c c).trans hpassed
  · exact hpassed

theorem core_endOfStepBarrier (hstays : (s.ctx c).unload = false) (n : Nat) :
    (settle s (endOfStepBarrier s c)).core n = if n ∈ coresOf s c then (s.core n).newStep else s.core n := by
  rw [Passes.core_settle, endOfStepBarrier_ends hruns hverdict hv hstages hwrites hupdates hjoin, hstays,
    if_neg Bool.false_ne_true, core_of (cores_boundaryPassed s c), core_stepBegun]

end

end Sys2Proof.Laws.StepEnds

namespace Sys2Proof.Claims

open Sys2Proof.Laws.StepEnds in
/-- Settles O26. The barrier leaves the step as `step_verdictBarrier` says, its leaf being `leafPolicy_max`; a verdict
that fits (log entry 76) is taken by `verdictReceived_takes`; the end of a step is `step_endOfStepBarrier` for the
context and `core_endOfStepBarrier` for its cores. -/
theorem stepBarriers : Obligations.StepBarriers := by
  unfold Obligations.StepBarriers
  refine ⟨fun s c hc hruns hleaf hready => nxt (exec_verdictBarrier hc s) ?_, fun s c hc hwait => ?_,
    fun s c v l hc hruns hleaf hverdict hfits => ?_, fun s c v hc hv hidle => ?_,
    fun s c v hc hruns hverdict hv hstages hwrites hupdates => ?_, fun s c hc hwait => ?_⟩
  · intro o b
    have hstep : b = _ := step_verdictBarrier hruns hleaf hready
    obtain ⟨h0, h1, h2, h3, h4⟩ := getLsbD_firedWord (s := s) (c := c)
    obtain ⟨hmax, hattained⟩ := leafPolicy_max (s := s) (c := c)
    refine ⟨stepTotals s c, leafPolicy s c, ?_⟩
    rw [hstep]
    refine ⟨rfl, rfl, rfl, rfl, ?_, ?_, ?_, fun hnone => ?_, hmax, hattained, rfl, rfl⟩
    · exact (Bool.eq_iff_iff.1 h0).trans aboveLimit_iff
    · exact (Bool.eq_iff_iff.1 h1).trans aboveLimit_iff
    · exact (Bool.eq_iff_iff.1 h2).trans aboveLimit_iff
    · have hflags : monitorFlags s c = (false, false) := by simp [monitorFlags, hnone]
      exact ⟨h3.trans (by rw [hflags]), h4.trans (by rw [hflags])⟩
  · rw [exec_verdictBarrier hc, verdictBarrier_waits hwait]
  · have hcode : v < 4 := by
      simp only [verdictFits, Bool.and_eq_true, decide_eq_true_eq] at hfits
      omega
    refine nxt (exec_verdictReceived hc hcode s) ?_
    rw [verdictReceived_takes hruns hleaf hverdict hfits, step_verdictFollowed, ctx_modCtx_self]
    refine ⟨rfl, rfl, rfl, rfl, rfl, rfl, fun hnot n => loss_verdictFollowed s c hnot _ n,
      fun m l p hzero hloss hspike hbad => ?_⟩
    rw [verdictFollowed, if_pos hzero]
    exact loss_lossAbsorbed hloss hspike hbad _
  · rw [exec_verdictReceived hc hv, verdictReceived_idle hidle]
  · intro n due hjoin
    refine nxt (exec_endOfStepBarrier hc s) ?_
    rw [step_endOfStepBarrier hruns hverdict hv hstages hwrites hupdates hjoin]
    refine ⟨rfl, rfl, rfl, rfl, rfl, fun hstays => ⟨fun k hk => ?_, fun k hk => ?_⟩⟩
    · rw [core_endOfStepBarrier hruns hverdict hv hstages hwrites hupdates hjoin hstays, if_pos hk]
      exact ⟨rfl, rfl, rfl, rfl⟩
    · rw [core_endOfStepBarrier hruns hverdict hv hstages hwrites hupdates hjoin hstays, if_neg hk]
  · rw [exec_endOfStepBarrier hc, endOfStepBarrier_waits hwait]

end Sys2Proof.Claims
end

section
/-!
PROOF. The update of a layer (O27).
-/

open Sys2Proof Sys2Proof.Machine Sys2Proof.Claims Sys2Proof.Laws Sys2Proof.Laws.Training

namespace Sys2Proof.Laws.LayerUpdates

/-! ### LAYER_UPDATE (08 R316 to R320, R335) -/

theorem exec_layerUpdate {core : Nat} (hcore : core < nCores) (s : State) :
    exec (.layerUpdate core) s = .next (layerUpdate s core) :=
  withUnit_of (by simpa using hcore)

/-- The members of a stage with their entries of the layer that is next, which the first member counts. -/
def nextEnts (s : State) (ms : List Nat) (m0 : Nat) : List (Nat × LayerEnt) :=
  ms.map fun m => (m, LayerEnt.parse (((s.core m).stage.info.map (·.param)).getD Blob.empty) (s.core m0).upd.layer)

/-- The coefficient entry of a layer. -/
def nextCoefs (s : State) (m0 layer : Nat) : Blob := (tget (s.core m0).upd.tables.coefs layer).getD Blob.empty

/-- The T that the shards of the next layer are to bear. -/
def expectedT (s : State) (m0 : Nat) : Nat := (tgetD (s.core m0).upd.expectT (s.core m0).upd.layer 0).toNat

/-- The T that a shard bears. -/
def shardT (s : State) (e : LayerEnt) : Nat := bits (s.mem.mem.word (e.shard / 128)).toNat 0 32

/-- The context owns neither the whole span of a shard nor what its states need of it. -/
def shardForeign (s : State) (c states : Nat) (e : LayerEnt) : Bool :=
  !mayReach s c e.shard (128 + 3 * e.region) && !mayReach s c e.shard (128 + (states + 1) * e.region)

theorem shardForeign_eq_false_iff {s : State} {c states : Nat} {e : LayerEnt} : shardForeign s c states e = false ↔
    mayReach s c e.shard (128 + 3 * e.region) = true ∨ mayReach s c e.shard (128 + (states + 1) * e.region) = true := by
  rw [shardForeign, Bool.and_eq_false_iff, Bool.not_eq_false', Bool.not_eq_false']

/-- The header of a shard is poisoned or does not fit its layer. -/
def shardUnsound (s : State) (o : Blob) (states : Nat) (e : LayerEnt) : Bool :=
  s.mem.mem.poisoned (e.shard / 128) || !shardHeaderOk (s.mem.mem.word (e.shard / 128)) e (log32Masters o) states

theorem shardUnsound_eq_false_iff {s : State} {o : Blob} {states : Nat} {e : LayerEnt} :
    shardUnsound s o states e = false ↔ s.mem.mem.poisoned (e.shard / 128) = false ∧
      shardHeaderOk (s.mem.mem.word (e.shard / 128)) e (log32Masters o) states = true := by
  rw [shardUnsound, Bool.or_eq_false_iff, Bool.not_eq_false']

/-- An update that a frozen layer does not take is counted. -/
def frozenCounted (s : State) (m0 v : Nat) : State :=
  if v = 0 then modUpd s m0 fun u => { u with frozenUpdates := u.frozenUpdates + 1 } else s

/-- A skew is counted at the first member. -/
def skewCounted (s : State) (m0 layer : Nat) : State :=
  modUpd s m0 fun u => { u with stepSkews := u.stepSkews + 1, lastSkewLayer := BitVec.ofNat 16 layer }

/-- The update unit of every member takes a change, and its gradient is consumed. -/
def layerTaken (s : State) (ms : List Nat) (f : UpdateUnit → UpdateUnit) : State :=
  layerDone (ms.foldl (fun s m => modUpd s m f) s) ms true

/-- A member adopts T_C (08 R319). -/
def tAdopted (i layer : Nat) (tc : BitVec 32) (u : UpdateUnit) : UpdateUnit :=
  { u with
    expectT := tset u.expectT i tc
    stepAdoptions := u.stepAdoptions + 1
    lastSkewLayer := BitVec.ofNat 16 layer }

/-- A member expects T of its next shard. -/
def tExpected (i t : Nat) (u : UpdateUnit) : UpdateUnit := { u with expectT := tset u.expectT i (BitVec.ofNat 32 t) }

/-- Every member takes T_C, in its shard and as the T that it expects. -/
def layerAdopted (s : State) (c : Nat) (ms : List Nat) (m0 layer : Nat) : State :=
  let i := (s.core m0).upd.layer
  let tc := tgetD (s.ctx c).tC layer 0
  let s1 := (nextEnts s ms m0).foldl (fun s q => setShardT s q.2 tc.toNat) (skewCounted s m0 layer)
  layerTaken s1 ms (tAdopted i layer tc)

/-- The rate of the update that makes T. -/
def layerRate (s : State) (m0 layer t : Nat) : F32 :=
  lrAt ((tget (s.core m0).upd.tables.scheds (coefSched (nextCoefs s m0 layer))).getD Blob.empty) t

/-- The elements of every member's shard after the recurrence and the mixing. -/
def layerElems (s : State) (o : Blob) (ms : List Nat) (m0 layer t : Nat) : List (LayerEnt × List UElem) :=
  let b := nextCoefs s m0 layer
  mixLayer b ((nextEnts s ms m0).map fun q => (q.2, memberElems s q.1 q.2 b (log32Masters o)
    (biasCorr (coefBeta1 b) t) (biasCorr (coefBeta2 b) t)))

/-- Every member stores its shard with the next T, and expects that T from then on. -/
def layerStored (s : State) (o : Blob) (ms : List Nat) (m0 layer : Nat) : State :=
  let i := (s.core m0).upd.layer
  let b := nextCoefs s m0 layer
  let t := expectedT s m0 + 1
  let lr := layerRate s m0 layer t
  let s1 := (ms.zip (layerElems s o ms m0 layer t)).foldl (fun s q =>
    storeMember s q.1 q.2.1 b (log32Masters o) lr t q.2.2) s
  layerTaken s1 ms (tExpected i t)

/-- An applied step comes to the shards of a layer that is not frozen. -/
def shardsReached (s : State) (c : Nat) (ms : List Nat) (m0 layer : Nat) : State :=
  let o := (s.ctx c).options
  let states := coefStates (nextCoefs s m0 layer)
  let ents := nextEnts s ms m0
  if ents.any fun q => layerStalls s q.2 states then s
  else match ents.find? fun q => shardForeign s c states q.2 with
    | some q => addressFault s q.1 q.2.shard
    | none =>
      if ents.any fun q => shardUnsound s o states q.2 then stopAll s ms .shardHeader
      else if ents.any fun q => shardT s q.2 ≠ expectedT s m0 then
        if optAdopt o then layerAdopted s c ms m0 layer else stopAll (skewCounted s m0 layer) ms .stepSkew
      else if expectedT s m0 = 0xFFFFFFFF then stopAll s ms .stepLimit
      else layerStored s o ms m0 layer

/-- The gradients of the next layer come to the stage: it is not frozen, or its gradient is reduced all the same. -/
def carriesGradient (s : State) (o : Blob) (m0 layer : Nat) : Bool :=
  !coefFrozen (s.core m0).upd.tables layer || optReduceFrozen o

/-- A member runs and has its gradient. -/
def gradientReady (s : State) (m : Nat) : Bool := ((s.core m).inPort 0).done && (s.core m).stage.st = .running

/-- The length of a member's gradient is not that of its shard. -/
def gradientMisfits (s : State) (q : Nat × LayerEnt) : Bool := ((s.core q.1).inPort 0).elems.length ≠ q.2.elems

section
variable {s : State} {core m0 v : Nat} {r : StageRec} {ms : List Nat}
  (hinfo : (s.core core).stage.info = some r) (hclass : r.opclass = 6)
  (hms : stageMembers (s.ctx (s.core core).stage.ctx) r.stage = ms) (hhead : ms.head? = some m0)
  (hverdict : (s.ctx (s.core core).stage.ctx).step.verdict = some v)
include hinfo hclass hms hhead hverdict

theorem layerUpdate_eq : layerUpdate s core =
    let c := (s.core core).stage.ctx
    let i := (s.core m0).upd.layer
    let layer := updLayerNo r.param i
    let carried := carriesGradient s (s.ctx c).options m0 layer
    if 1 < v ∨ updNlayers r.param ≤ i then s
    else if carried && !ms.all (gradientReady s) then s
    else match (if carried then (nextEnts s ms m0).find? (gradientMisfits s) else none) with
      | some q => stopAll s (q.1 :: ms.filter (· ≠ q.1)) .tensorLength
      | none =>
        if coefFrozen (s.core m0).upd.tables layer then layerDone (frozenCounted s m0 v) ms carried
        else if v = 1 then layerDone s ms true
        else shardsReached s c ms m0 layer := by
  simp only [layerUpdate, hinfo, hms, hhead, hverdict]
  exact if_congr (by simp [hclass]) rfl rfl

theorem layerUpdate_waits (hwait : 1 < v ∨ updNlayers r.param ≤ (s.core m0).upd.layer ∨
    carriesGradient s (s.ctx (s.core core).stage.ctx).options m0 (updLayerNo r.param (s.core m0).upd.layer) = true ∧
      ms.all (gradientReady s) = false) : layerUpdate s core = s := by
  rw [layerUpdate_eq hinfo hclass hms hhead hverdict]
  dsimp only
  split
  · rfl
  next hgoes =>
    obtain ⟨hcarried, hunready⟩ := (or_assoc.2 hwait).resolve_left hgoes
    exact if_pos (by rw [hcarried, hunready]; rfl)

variable (hv : v ≤ 1) (hnext : (s.core m0).upd.layer < updNlayers r.param)
include hv hnext

theorem layerUpdate_misfits
    (hcarried : carriesGradient s (s.ctx (s.core core).stage.ctx).options m0
      (updLayerNo r.param (s.core m0).upd.layer) = true)
    (hready : ms.all (gradientReady s) = true) (hmisfits : ∃ q ∈ nextEnts s ms m0, gradientMisfits s q = true) :
    ∃ k ∈ ms, layerUpdate s core = stopAll s (k :: ms.filter (· ≠ k)) .tensorLength := by
  obtain ⟨q, hq⟩ := Option.isSome_iff_exists.1 (List.find?_isSome.2 hmisfits)
  obtain ⟨m, hm, rfl⟩ := List.mem_map.1 (List.mem_of_find?_eq_some hq)
  refine ⟨m, hm, ?_⟩
  rw [layerUpdate_eq hinfo hclass hms hhead hverdict]
  dsimp only
  rw [if_neg (by omega), hcarried, hready, if_neg (by decide), if_pos rfl, hq]

theorem layerUpdate_goes
    (hgoes : carriesGradient s (s.ctx (s.core core).stage.ctx).options m0
      (updLayerNo r.param (s.core m0).upd.layer) = true →
      ms.all (gradientReady s) = true ∧ ∀ q ∈ nextEnts s ms m0, gradientMisfits s q = false) :
    layerUpdate s core =
      let c := (s.core core).stage.ctx
      let layer := updLayerNo r.param (s.core m0).upd.layer
      if coefFrozen (s.core m0).upd.tables layer then
        layerDone (frozenCounted s m0 v) ms (carriesGradient s (s.ctx c).options m0 layer)
      else if v = 1 then layerDone s ms true
      else shardsReached s c ms m0 layer := by
  rw [layerUpdate_eq hinfo hclass hms hhead hverdict]
  dsimp only
  rw [if_neg (by omega)]
  cases hcarried : carriesGradient s (s.ctx (s.core core).stage.ctx).options m0
    (updLayerNo r.param (s.core m0).upd.layer)
  · rfl
  · obtain ⟨hready, hfits⟩ := hgoes hcarried
    have hnone : (nextEnts s ms m0).find? (gradientMisfits s) = none :=
      List.find?_eq_none.2 fun q hq => ne_true_of_eq_false (hfits q hq)
    rw [hready, hnone]
    rfl

end

theorem all_gradientReady_iff {s : State} {ms : List Nat} : ms.all (gradientReady s) = true ↔
    ∀ m ∈ ms, ((s.core m).inPort 0).done = true ∧ (s.core m).stage.st = .running := by
  simp [gradientReady]

theorem gradientMisfits_eq_false_iff {s : State} {q : Nat × LayerEnt} :
    gradientMisfits s q = false ↔ ((s.core q.1).inPort 0).elems.length = q.2.elems := by
  simp [gradientMisfits]

/-! ### What the stage comes to at the shards (08 R317 to R319) -/

section
variable {s : State} {c m0 layer : Nat} {ms : List Nat}

theorem shardsReached_stalls
    (hstalls : ∃ q ∈ nextEnts s ms m0, layerStalls s q.2 (coefStates (nextCoefs s m0 layer)) = true) :
    shardsReached s c ms m0 layer = s :=
  if_pos (List.any_eq_true.2 hstalls)

variable (hruns : ∀ q ∈ nextEnts s ms m0, layerStalls s q.2 (coefStates (nextCoefs s m0 layer)) = false)
include hruns

theorem shardsReached_foreign
    (hforeign : ∃ q ∈ nextEnts s ms m0, shardForeign s c (coefStates (nextCoefs s m0 layer)) q.2 = true) :
    ∃ q ∈ nextEnts s ms m0, shardForeign s c (coefStates (nextCoefs s m0 layer)) q.2 = true ∧
      shardsReached s c ms m0 layer = addressFault s q.1 q.2.shard := by
  obtain ⟨q, hq⟩ := Option.isSome_iff_exists.1 (List.find?_isSome.2 hforeign)
  refine ⟨q, List.mem_of_find?_eq_some hq, by simpa using List.find?_some hq, ?_⟩
  rw [shardsReached]
  rw [if_neg (by simpa using fun m e hm => hruns (m, e) hm), hq]

variable (howned : ∀ q ∈ nextEnts s ms m0, shardForeign s c (coefStates (nextCoefs s m0 layer)) q.2 = false)
include howned

theorem shardsReached_owned : shardsReached s c ms m0 layer =
    let o := (s.ctx c).options
    if (nextEnts s ms m0).any fun q => shardUnsound s o (coefStates (nextCoefs s m0 layer)) q.2 then
      stopAll s ms .shardHeader
    else if (nextEnts s ms m0).any fun q => shardT s q.2 ≠ expectedT s m0 then
      if optAdopt o then layerAdopted s c ms m0 layer else stopAll (skewCounted s m0 layer) ms .stepSkew
    else if expectedT s m0 = 0xFFFFFFFF then stopAll s ms .stepLimit
    else layerStored s o ms m0 layer := by
  have hnone : (nextEnts s ms m0).find?
      (fun q => shardForeign s c (coefStates (nextCoefs s m0 layer)) q.2) = none :=
    List.find?_eq_none.2 fun q hq => ne_true_of_eq_false (howned q hq)
  rw [shardsReached]
  dsimp only
  rw [if_neg (by simpa using fun m e hm => hruns (m, e) hm), hnone]

theorem shardsReached_unsound (hunsound : ∃ q ∈ nextEnts s ms m0,
    shardUnsound s (s.ctx c).options (coefStates (nextCoefs s m0 layer)) q.2 = true) :
    shardsReached s c ms m0 layer = stopAll s ms .shardHeader :=
  (shardsReached_owned hruns howned).trans (if_pos (List.any_eq_true.2 hunsound))

variable (hsound : ∀ q ∈ nextEnts s ms m0,
  shardUnsound s (s.ctx c).options (coefStates (nextCoefs s m0 layer)) q.2 = false)
include hsound

theorem shardsReached_skewed (hskewed : ∃ q ∈ nextEnts s ms m0, shardT s q.2 ≠ expectedT s m0) :
    shardsReached s c ms m0 layer = if optAdopt (s.ctx c).options then layerAdopted s c ms m0 layer
      else stopAll (skewCounted s m0 layer) ms .stepSkew := by
  rw [shardsReached_owned hruns howned]
  dsimp only
  rw [if_neg (by simpa using fun m e hm => hsound (m, e) hm), if_pos]
  simpa using hskewed

theorem shardsReached_expected (hexpected : ∀ q ∈ nextEnts s ms m0, shardT s q.2 = expectedT s m0) :
    shardsReached s c ms m0 layer = if expectedT s m0 = 0xFFFFFFFF then stopAll s ms .stepLimit
      else layerStored s (s.ctx c).options ms m0 layer := by
  rw [shardsReached_owned hruns howned]
  dsimp only
  rw [if_neg (by simpa using fun m e hm => hsound (m, e) hm),
    if_neg (by simpa using fun m e hm => hexpected (m, e) hm)]

end

/-! ### What a stage leaves -/

theorem core_modUpd (s : State) (n : Nat) (f : UpdateUnit → UpdateUnit) (k : Nat) : (modUpd s n f).core k =
    { s.core k with upd := if k = n then f (s.core k).upd else (s.core k).upd } := by
  split
  next he => rw [he, modUpd_core]
  next he => rw [modUpd_other _ _ _ _ he]

/-- Every member has stopped, its context has the fault, and nothing is stored. -/
def MembersStopped (s t : State) (ms : List Nat) (c : Nat) (n : StopName) : Prop :=
  t.mem.mem = s.mem.mem ∧
    (∀ m ∈ ms, (t.core m).stage.st = .stopped ∧ (t.core m).upd.layer = (s.core m).upd.layer ∧
      (t.core m).upd.expectT = (s.core m).upd.expectT) ∧ CoreFaulted s t c n

theorem membersStopped_stopAll {s : State} {k c : Nat} {ks ms : List Nat} (hall : ∀ m ∈ ms, m ∈ k :: ks)
    (hc : (s.core k).stage.ctx = c) (n : StopName) : MembersStopped s (stopAll s (k :: ks) n) ms c n := by
  obtain ⟨hmem, hupd, hst, hfault⟩ := stopAll_facts s k ks n
  rw [hc] at hfault
  exact ⟨by rw [hmem], fun m hm => ⟨hst m (hall m hm), by rw [hupd], by rw [hupd]⟩, hfault⟩

theorem membersStopped_of_head {s : State} {m0 c : Nat} {ms : List Nat} (hhead : ms.head? = some m0)
    (hc : (s.core m0).stage.ctx = c) (n : StopName) : MembersStopped s (stopAll s ms n) ms c n := by
  obtain ⟨ks, rfl⟩ := List.head?_eq_some_iff.1 hhead
  exact membersStopped_stopAll (fun _ hm => hm) hc n

theorem membersStopped_skewCounted {s t : State} {m0 layer c : Nat} {ms : List Nat} {n : StopName}
    (h : MembersStopped (skewCounted s m0 layer) t ms c n) : MembersStopped s t ms c n := by
  obtain ⟨hmem, hmembers, hfault⟩ := h
  refine ⟨hmem, fun m hm => ?_, hfault⟩
  obtain ⟨hst, hlayer, hexpect⟩ := hmembers m hm
  rw [hlayer, hexpect, skewCounted, core_modUpd]
  dsimp only
  split <;> exact ⟨hst, rfl, rfl⟩

/-- A skew stops every member, and the first has counted it. -/
theorem skewStopped_facts {s : State} {m0 layer c : Nat} {ms : List Nat} (hhead : ms.head? = some m0)
    (hc : (s.core m0).stage.ctx = c) :
    let t := stopAll (skewCounted s m0 layer) ms .stepSkew
    MembersStopped s t ms c .stepSkew ∧ (t.core m0).upd.stepSkews = (s.core m0).upd.stepSkews + 1 ∧
      (t.core m0).upd.lastSkewLayer = BitVec.ofNat 16 layer := by
  have hctx : ((skewCounted s m0 layer).core m0).stage.ctx = c := by
    rw [skewCounted, modUpd_core]
    exact hc
  refine ⟨membersStopped_skewCounted (membersStopped_of_head hhead hctx _), ?_⟩
  obtain ⟨ks, rfl⟩ := List.head?_eq_some_iff.1 hhead
  obtain ⟨-, hupd, -, -⟩ := stopAll_facts (skewCounted s m0 layer) m0 ks .stepSkew
  rw [hupd, skewCounted, modUpd_core]
  exact ⟨rfl, rfl⟩

/-- The members come to the next layer without an update, and their gradient is consumed where they had one. -/
def LayerPassed (s t : State) (ms : List Nat) (consumed : Bool) : Prop :=
  t.mem.mem = s.mem.mem ∧
    (∀ m ∈ ms, (t.core m).upd.layer = (s.core m).upd.layer + 1 ∧ (t.core m).upd.expectT = (s.core m).upd.expectT ∧
      (t.core m).upd.updatesApplied = (s.core m).upd.updatesApplied ∧
      (consumed = true → (t.core m).inPort 0 = InPort.empty)) ∧
    (∀ k, k ∉ ms → Moved (s.core k) (t.core k))

theorem layerPassed_layerDone (s : State) {ms : List Nat} (hnodup : ms.Nodup) (consumed : Bool) :
    LayerPassed s (layerDone s ms consumed) ms consumed := by
  obtain ⟨hmem, hmembers, hothers⟩ := layerDone_facts s ms consumed hnodup
  refine ⟨hmem, fun m hm => ?_, hothers⟩
  obtain ⟨hupd, hinp⟩ := hmembers m hm
  refine ⟨by rw [hupd], by rw [hupd], by rw [hupd], fun hconsumed => ?_⟩
  rw [Core.inPort, hinp, if_pos hconsumed, tgetD_tset_self]

theorem layerPassed_frozenCounted {s t : State} {m0 v : Nat} {ms : List Nat} {consumed : Bool} (hm0 : m0 ∈ ms)
    (h : LayerPassed (frozenCounted s m0 v) t ms consumed) : LayerPassed s t ms consumed := by
  unfold frozenCounted at h
  split at h
  · obtain ⟨hmem, hmembers, hothers⟩ := h
    refine ⟨hmem, fun m hm => ?_, fun k hk => ?_⟩
    · obtain ⟨hlayer, hexpect, happlied, hconsumed⟩ := hmembers m hm
      rw [hlayer, hexpect, happlied, core_modUpd]
      dsimp only
      split <;> exact ⟨rfl, rfl, rfl, hconsumed⟩
    · have hmoved := hothers k hk
      rwa [modUpd_other _ _ _ _ fun he : k = m0 => hk (he ▸ hm0)] at hmoved
  · exact h

theorem frozenUpdates_frozenCounted (s : State) (m0 v : Nat) : ((frozenCounted s m0 v).core m0).upd.frozenUpdates =
    (s.core m0).upd.frozenUpdates + (if v = 0 then 1 else 0) := by
  unfold frozenCounted
  split
  · rw [modUpd_core]
  · exact (BitVec.add_zero _).symm

theorem frozenUpdates_layerDone (s : State) {ms : List Nat} {m : Nat} (hnodup : ms.Nodup) (hm : m ∈ ms)
    (consumed : Bool) : ((layerDone s ms consumed).core m).upd.frozenUpdates = (s.core m).upd.frozenUpdates := by
  obtain ⟨-, hmembers, -⟩ := layerDone_facts s ms consumed hnodup
  rw [(hmembers m hm).1]

theorem layerTaken_facts (s : State) {ms : List Nat} (hnodup : ms.Nodup) (f : UpdateUnit → UpdateUnit) :
    (∀ m ∈ ms, ((layerTaken s ms f).core m).upd =
        { f (s.core m).upd with layer := (f (s.core m).upd).layer + 1 } ∧
      ((layerTaken s ms f).core m).inPort 0 = InPort.empty) ∧
    (∀ k, k ∉ ms → Moved (s.core k) ((layerTaken s ms f).core k)) := by
  obtain ⟨hothers, hown⟩ := updFold_facts ms hnodup f s
  obtain ⟨-, hmembers, hmoved⟩ := layerDone_facts (ms.foldl (fun s m => modUpd s m f) s) ms true hnodup
  refine ⟨fun m hm => ?_, fun k hk => ?_⟩
  · obtain ⟨hupd, hinp⟩ := hmembers m hm
    rw [layerTaken, hupd, Core.inPort, hinp, if_pos rfl, tgetD_tset_self, hown m hm]
    exact ⟨rfl, rfl⟩
  · have hk' := hmoved k hk
    rwa [hothers k hk] at hk'

theorem cores_foldl_setShardT (tc : Nat) (ents : List (Nat × LayerEnt)) (s : State) :
    (ents.foldl (fun s q => setShardT s q.2 tc) s).cores = s.cores := by
  induction ents generalizing s with
  | nil => rfl
  | cons q ents ih => rw [List.foldl_cons, ih, (touches_setShardT s q.2 tc).2 .cores (by decide)]

/-- Every member has taken T_C, and the first has counted the skew. -/
theorem layerAdopted_facts (s : State) (c m0 layer : Nat) {ms : List Nat} (hnodup : ms.Nodup) (hm0 : m0 ∈ ms) :
    let t := layerAdopted s c ms m0 layer
    (t.core m0).upd.stepSkews = (s.core m0).upd.stepSkews + 1 ∧
    ∀ m ∈ ms, (t.core m).upd.layer = (s.core m).upd.layer + 1 ∧
      tgetD (t.core m).upd.expectT (s.core m0).upd.layer 0 = tgetD (s.ctx c).tC layer 0 ∧
      (t.core m).upd.stepAdoptions = (s.core m).upd.stepAdoptions + 1 ∧
      (t.core m).upd.lastSkewLayer = BitVec.ofNat 16 layer ∧
      (t.core m).upd.updatesApplied = (s.core m).upd.updatesApplied ∧ (t.core m).inPort 0 = InPort.empty := by
  let tc := tgetD (s.ctx c).tC layer 0
  let u := (nextEnts s ms m0).foldl (fun s q => setShardT s q.2 tc.toNat) (skewCounted s m0 layer)
  have hcores (m : Nat) : u.core m = (skewCounted s m0 layer).core m := core_of (cores_foldl_setShardT _ _ _) m
  obtain ⟨hmembers, -⟩ := layerTaken_facts u hnodup (tAdopted (s.core m0).upd.layer layer tc)
  refine ⟨?_, fun m hm => ?_⟩
  · obtain ⟨hupd, -⟩ := hmembers m0 hm0
    rw [hcores, skewCounted, modUpd_core] at hupd
    exact congrArg UpdateUnit.stepSkews hupd
  · obtain ⟨hupd, hinp⟩ := hmembers m hm
    rw [hcores, skewCounted, core_modUpd] at hupd
    rw [layerAdopted, hupd]
    refine ⟨?_, tgetD_tset_self _ _ _ _, ?_, rfl, ?_, hinp⟩
    all_goals
      dsimp only [tAdopted]
      split <;> rfl

/-- Every member has stored its shard with the next T, and counted its update. -/
theorem layerStored_facts (s : State) (o : Blob) (m0 layer : Nat) {ms : List Nat} (hnodup : ms.Nodup) :
    let t := layerStored s o ms m0 layer
    let i := (s.core m0).upd.layer
    (∀ m ∈ ms, (t.core m).upd.layer = (s.core m).upd.layer + 1 ∧
      tgetD (t.core m).upd.expectT i 0 = BitVec.ofNat 32 (expectedT s m0 + 1) ∧
      (∀ j, j ≠ i → tgetD (t.core m).upd.expectT j 0 = tgetD (s.core m).upd.expectT j 0) ∧
      (t.core m).upd.updatesApplied = (s.core m).upd.updatesApplied + 1 ∧
      (t.core m).upd.lastLr = layerRate s m0 layer (expectedT s m0 + 1) ∧
      (t.core m).inPort 0 = InPort.empty) ∧
    (∀ k, k ∉ ms → Moved (s.core k) (t.core k)) := by
  have hlength : ms.length = (layerElems s o ms m0 layer (expectedT s m0 + 1)).length := by
    simp [layerElems, mix_len, nextEnts]
  obtain ⟨hothers, hstores⟩ := storeFold_facts ms _ hlength hnodup (nextCoefs s m0 layer) (log32Masters o)
    (layerRate s m0 layer (expectedT s m0 + 1)) (expectedT s m0 + 1) s
  obtain ⟨hmembers, hmoved⟩ := layerTaken_facts _ hnodup (tExpected (s.core m0).upd.layer (expectedT s m0 + 1))
  refine ⟨fun m hm => ?_, fun k hk => ?_⟩
  · obtain ⟨hexpect, hlayer, happlied, hrate, -⟩ := hstores m hm
    obtain ⟨hupd, hinp⟩ := hmembers m hm
    rw [layerStored, hupd]
    refine ⟨congrArg (· + 1) hlayer, tgetD_tset_self _ _ _ _, fun j hj => ?_, happlied, hrate, hinp⟩
    exact (tgetD_tset_other _ _ _ _ _ hj).trans (by rw [hexpect])
  · have hk' := hmoved k hk
    rwa [hothers k hk] at hk'

end Sys2Proof.Laws.LayerUpdates
end

section
/-!
PROOF. The loss of a tensor, with the update of a layer (O27).
-/

open Sys2Proof Sys2Proof.Machine Sys2Proof.Claims Sys2Proof.Laws

namespace Sys2Proof.Laws.LossTensors

/-! ### LOSS_TENSOR (08 R330) -/

theorem exec_lossTensor {core : Nat} (hcore : core < nCores) (s : State) :
    exec (.lossTensor core) s = .next (lossTensor s core) :=
  withUnit_of (by simpa using hcore)

/-- CROSS_ENTROPY, whose targets are classes. -/
def crossEntropy (r : StageRec) : Bool := lossFunc r.param = 0

/-- A class target lies outside the row, and it is not the one that is ignored. -/
def targetOutside (r : StageRec) (h : THdr) (es : List Elem) : Bool :=
  crossEntropy r && es.any fun y => !y.poison && y.code.toNat ≠ lossIgnore r.param && y.code.toNat ≥ h.c

/-- The losses and the gradients of the rows. -/
def lossRows (c : Core) (r : StageRec) (h : THdr) : List (OVal × List OVal) :=
  let es := (c.inPort 1).elems
  let ys := if crossEntropy r then [] else chunks (max h.c 1) es
  (chunks (max h.c 1) (c.inPort 0).elems).zipIdx.map fun q =>
    rowLoss r.param q.1 (es.getD q.2 ⟨0, false⟩) (ys.getD q.2 [])

/-- The rows that are ignored. -/
def rowsIgnored (c : Core) (r : StageRec) : Nat :=
  if crossEntropy r then ((c.inPort 1).elems.filter fun y => !y.poison && y.code.toNat = lossIgnore r.param).length
  else 0

/-- The tensor of gradients. -/
def gradientTensor (h : THdr) (rows : List (OVal × List OVal)) : OutTensor :=
  { likeTensor h false with vals := (rows.flatMap (·.2)).zipIdx.map fun q => (q.2, q.1) }

/-- The step loss as a tensor of one element. -/
def stepLossTensor (r : StageRec) (h : THdr) (rows : List (OVal × List OVal)) : OutTensor :=
  ⟨1, 1, 1, 1, h.sample, flagShaped, false, [(0, vecOut (rows.any (·.1.poison))
    (F32.mul (F32.sumA40 (rows.map fun q => q.1.code.setWidth 32)) (lossScale r.param)))]⟩

theorem length_gradientTensor (h : THdr) (rows : List (OVal × List OVal)) :
    (gradientTensor h rows).length = h.length := by
  unfold gradientTensor likeTensor
  split_ifs <;> rfl

theorem vals_gradientTensor (h : THdr) (rows : List (OVal × List OVal)) :
    (gradientTensor h rows).vals.map (·.2) = rows.flatMap (·.2) := by
  simp [gradientTensor, List.map_map, Function.comp_def]

/-- Ignored rows are counted. -/
def ignoredCounted (s : State) (core : Nat) (r : StageRec) : State :=
  s.modCore core fun c => { c with loss := { c.loss with
    ignoredRows := c.loss.ignoredRows + BitVec.ofNat 32 (rowsIgnored (s.core core) r) } }

/-- Two tensors begin at the output ports, and the two inputs are let go. -/
def bothEmitted (s : State) (core : Nat) (g l : OutTensor) : State :=
  releaseIn (releaseIn (beginOut (beginOut s core 0 g) core 1 l) core 0) core 1

section
variable {s : State} {core : Nat} {r : StageRec} {h : THdr}
  (hinfo : (s.core core).stage.info = some r) (hhdr : ((s.core core).inPort 0).hdr = some h)
include hinfo hhdr

theorem lossTensor_waits (hwait : (s.core core).stage.st ≠ .running ∨ outputFull s core = true ∨
    ((s.core core).inPort 0).done = false ∨ ((s.core core).inPort 1).done = false) : lossTensor s core = s := by
  simp only [lossTensor, hinfo, hhdr]
  refine if_pos ?_
  rcases hwait with hst | hfull | hshort | hshort
  · simp [hst]
  · simp [hfull]
  · simp [hshort]
  · simp [hshort]

variable (hclass : r.opclass = 5) (hst : (s.core core).stage.st = .running) (hroom : outputFull s core = false)
  (hdone0 : ((s.core core).inPort 0).done = true) (hdone1 : ((s.core core).inPort 1).done = true)
include hclass hst hroom hdone0 hdone1

theorem lossTensor_eq : lossTensor s core =
    if h.length = 0 then passEmpty s core h 0
      (((s.core core).inPort 0).hpoison || ((s.core core).inPort 1).hpoison) [0, 1] (h.c, h.w, h.h)
    else if targetOutside r h ((s.core core).inPort 1).elems then stopStage s core .lossTarget 0
    else
      let rows := lossRows (s.core core) r h
      bothEmitted (ignoredCounted s core r) core (gradientTensor h rows) (stepLossTensor r h rows) := by
  simp only [lossTensor, hinfo, hhdr]
  exact if_neg (by simp [hclass, hst, hroom, hdone0, hdone1])

end

theorem loss_releaseIn (s : State) (core q : Nat) : ((releaseIn s core q).core core).loss = (s.core core).loss := by
  rw [(release_self s core q core).loss, core_modCore_self]

/-- Both tensors stand behind those of their ports, and both inputs are free. -/
theorem bothEmitted_facts {s : State} {core : Nat} (hbound0 : (boundStream s core 4).isSome = true)
    (hbound1 : (boundStream s core 5).isSome = true) (g l : OutTensor) :
    let t := bothEmitted s core g l
    CoresMoved core s t ∧ (t.core core).inPort 0 = InPort.empty ∧ (t.core core).inPort 1 = InPort.empty ∧
      (t.core core).loss = (s.core core).loss ∧
      ((t.core core).outPort 0).outs = ((s.core core).outPort 0).outs ++ [g] ∧
      ((t.core core).outPort 1).outs = ((s.core core).outPort 1).outs ++ [l] := by
  obtain ⟨hbut0, -⟩ := Windows.beginOut_keeps s core 0 g
  obtain ⟨hbut1, -⟩ := Windows.beginOut_keeps (beginOut s core 0 g) core 1 l
  obtain ⟨hmoved0, -, -, hinp0⟩ := release_facts (beginOut (beginOut s core 0 g) core 1 l) core 0
  obtain ⟨hmoved1, -, -, hinp1⟩ := release_facts (releaseIn (beginOut (beginOut s core 0 g) core 1 l) core 0) core 1
  have hfirst := beginOut_eq s core 0 g hbound0
  have hsecond := beginOut_eq (beginOut s core 0 g) core 1 l
    (by rw [hfirst, bs_modCore _ _ _ _ (by exact fun _ => rfl)]; exact hbound1)
  refine ⟨(((CoresMoved.but hbut0).trans (.but hbut1)).trans hmoved0).trans hmoved1, ?_, ?_, ?_, ?_, ?_⟩
  · rw [bothEmitted, Core.inPort, hinp1, hinp0]
    simp
  · exact Suppression.inPort_releaseIn _ _ _
  · rw [bothEmitted, loss_releaseIn, loss_releaseIn, hsecond, core_modCore_self, hfirst, core_modCore_self]
  · rw [bothEmitted, Suppression.outPort_releaseIn, Suppression.outPort_releaseIn, hsecond, hfirst]
    simp [Core.outPort]
  · rw [bothEmitted, Suppression.outPort_releaseIn, Suppression.outPort_releaseIn, hsecond, hfirst]
    simp [Core.outPort]

/-- Beside the tensors and the inputs, the ignored rows have been counted. -/
theorem bothEmitted_ignoredCounted {s : State} {core : Nat} (hbound0 : (boundStream s core 4).isSome = true)
    (hbound1 : (boundStream s core 5).isSome = true) (r : StageRec) (g l : OutTensor) :
    let t := bothEmitted (ignoredCounted s core r) core g l
    CoresMoved core s t ∧ (t.core core).inPort 0 = InPort.empty ∧ (t.core core).inPort 1 = InPort.empty ∧
      (t.core core).loss.ignoredRows =
        (s.core core).loss.ignoredRows + BitVec.ofNat 32 (rowsIgnored (s.core core) r) ∧
      ((t.core core).outPort 0).outs = ((s.core core).outPort 0).outs ++ [g] ∧
      ((t.core core).outPort 1).outs = ((s.core core).outPort 1).outs ++ [l] := by
  have hbound (q : Nat) : boundStream (ignoredCounted s core r) core q = boundStream s core q :=
    bs_modCore s core q _ fun _ => rfl
  obtain ⟨hmoved, hin0, hin1, hloss, hout0, hout1⟩ := bothEmitted_facts (s := ignoredCounted s core r)
    (by rwa [hbound]) (by rwa [hbound]) g l
  refine ⟨(CoresMoved.but (coresBut_modCore s core _)).trans hmoved, hin0, hin1, ?_, ?_, ?_⟩
  · rw [hloss, ignoredCounted, core_modCore_self]
  · rw [hout0, ignoredCounted, core_modCore_self]
    rfl
  · rw [hout1, ignoredCounted, core_modCore_self]
    rfl

end Sys2Proof.Laws.LossTensors

namespace Sys2Proof.Claims

open Sys2Proof.Laws.LayerUpdates Sys2Proof.Laws.LossTensors in
/-- Settles O27. A stage that is ready takes its layer by `layerUpdate_goes`, a frozen layer and a skipped step passing
it by as `LayerPassed` says, and comes to its shards by the lemmas on `shardsReached`; a stop is `MembersStopped`. The
counts in every member's block and the stop on a poisoned header are log entry 67. A loss tensor emits both tensors as
`bothEmitted_facts` says. -/
theorem updatesAndLosses : Obligations.UpdatesAndLosses := by
  unfold Obligations.UpdatesAndLosses
  refine ⟨fun s core m0 v r hcore hinfo hclass => ?_, fun s core r h hcore hinfo hhdr hclass => ⟨fun hwait => ?_,
    fun hst hroom hdone0 hdone1 => ⟨fun hempty => ?_, fun hlength => ?_⟩⟩⟩
  · intro x ms u i ents layer b ex frozen carried ready fits owned sound stepOf stopped passed hhead hnodup hctx
      hverdict
    have hexec := exec_layerUpdate hcore s
    have hm0 : m0 ∈ ms := List.mem_of_mem_head? hhead
    have howned {e : LayerEnt} : owned e ↔ shardForeign s (s.core core).stage.ctx (coefStates b) e = false :=
      shardForeign_eq_false_iff.symm
    have hsound {e : LayerEnt} : sound e ↔ shardUnsound s x.options (coefStates b) e = false :=
      shardUnsound_eq_false_iff.symm
    refine ⟨fun hwait => ?_, fun hv hnext hcarried hready hmisfit => ?_, fun hv hnext hgoes => ?_⟩
    · refine hexec.trans (congrArg _ (layerUpdate_waits hinfo hclass rfl hhead hverdict ?_))
      exact hwait.imp_right (Or.imp_right (And.imp_right fun hunready =>
        Bool.eq_false_iff.2 (mt all_gradientReady_iff.1 hunready)))
    · have hmisfits : ∃ q ∈ nextEnts s ms m0, gradientMisfits s q = true := by
        by_contra hnone
        exact hmisfit fun q hq => gradientMisfits_eq_false_iff.1 (Bool.eq_false_iff.2 fun h => hnone ⟨q, hq, h⟩)
      obtain ⟨k, hk, hstops⟩ := layerUpdate_misfits hinfo hclass rfl hhead hverdict hv hnext hcarried
        (all_gradientReady_iff.2 hready) hmisfits
      refine nxt (hexec.trans (congrArg _ hstops)) (membersStopped_stopAll (fun m hm => ?_) (hctx k hk) _)
      by_cases he : m = k
      · exact he ▸ List.mem_cons_self
      · exact List.mem_cons_of_mem _ (List.mem_filter.2 ⟨hm, by simpa using he⟩)
    · have hgone := hexec.trans (congrArg _ (layerUpdate_goes hinfo hclass rfl hhead hverdict hv hnext
        fun hcarried => (hgoes hcarried).imp all_gradientReady_iff.2 fun hfits q hq =>
          gradientMisfits_eq_false_iff.2 (hfits q hq)))
      have hreached (hfrozen : frozen = false) (hzero : v = 0) := hgone.trans (congrArg _
        ((if_neg (ne_true_of_eq_false hfrozen)).trans (if_neg (by omega))))
      refine ⟨fun hfrozen => ?_, fun hfrozen hskip => ?_, fun hfrozen hzero hstalls => ?_,
        fun hfrozen hzero hruns => ⟨fun hforeign => ?_, fun hown hbad => ?_, fun hfine => ?_⟩⟩
      · refine nxt (hgone.trans (congrArg _ (if_pos hfrozen)))
          ⟨layerPassed_frozenCounted hm0 (layerPassed_layerDone _ hnodup _), ?_⟩
        rw [frozenUpdates_layerDone _ hnodup hm0, frozenUpdates_frozenCounted]
      · exact nxt (hgone.trans (congrArg _ ((if_neg (ne_true_of_eq_false hfrozen)).trans (if_pos hskip))))
          (layerPassed_layerDone _ hnodup _)
      · exact (hreached hfrozen hzero).trans (congrArg _ (shardsReached_stalls hstalls))
      · obtain ⟨q, hq, hout, hfault⟩ := shardsReached_foreign (c := (s.core core).stage.ctx) hruns
          (hforeign.imp fun q => And.imp_right fun h => Bool.eq_true_of_not_eq_false (mt howned.2 h))
        exact ⟨q, hq, fun h => Bool.eq_false_iff.1 (howned.1 h) hout,
          (hreached hfrozen hzero).trans (congrArg _ hfault)⟩
      · have hstops := shardsReached_unsound hruns (fun q hq => howned.1 (hown q hq))
          (hbad.imp fun q => And.imp_right fun h => Bool.eq_true_of_not_eq_false (mt hsound.2 h))
        exact nxt ((hreached hfrozen hzero).trans (congrArg _ hstops))
          (membersStopped_of_head hhead (hctx m0 hm0) _)
      · have howned' (q) (hq : q ∈ ents) := howned.1 (hfine q hq).1
        have hsound' (q) (hq : q ∈ ents) := hsound.1 (hfine q hq).2
        have hskewed (hskew : ∃ q ∈ ents, stepOf q.2 ≠ ex) := (hreached hfrozen hzero).trans
          (congrArg _ (shardsReached_skewed hruns howned' hsound' hskew))
        have hexpected (hall : ∀ q ∈ ents, stepOf q.2 = ex) := (hreached hfrozen hzero).trans
          (congrArg _ (shardsReached_expected hruns howned' hsound' hall))
        refine ⟨fun hskew hkeep => ?_, fun hskew hadopt => ?_, fun hall hlast => ?_, fun hall hlast => ?_⟩
        · exact nxt ((hskewed hskew).trans (congrArg _ (if_neg (ne_true_of_eq_false hkeep))))
            (skewStopped_facts hhead (hctx m0 hm0))
        · exact nxt ((hskewed hskew).trans (congrArg _ (if_pos hadopt)))
            (layerAdopted_facts s _ m0 layer hnodup hm0)
        · exact nxt ((hexpected hall).trans (congrArg _ (if_pos hlast)))
            (membersStopped_of_head hhead (hctx m0 hm0) _)
        · exact nxt ((hexpected hall).trans (congrArg _ (if_neg hlast)))
            (layerStored_facts s _ m0 layer hnodup)
  · rw [exec_lossTensor hcore, lossTensor_waits hinfo hhdr hwait]
  · rw [exec_lossTensor hcore, lossTensor_eq hinfo hhdr hclass hst hroom hdone0 hdone1, if_pos hempty]
  · intro es ce outside ys
    have hexec := (exec_lossTensor hcore s).trans (congrArg _
      ((lossTensor_eq hinfo hhdr hclass hst hroom hdone0 hdone1).trans (if_neg hlength)))
    refine ⟨fun houtside => hexec.trans (congrArg _ (if_pos houtside)), fun hinside hbound0 hbound1 =>
      nxt (hexec.trans (congrArg _ (if_neg (ne_true_of_eq_false hinside)))) ?_⟩
    intro rows
    obtain ⟨hmoved, hin0, hin1, hignored, hout0, hout1⟩ :=
      bothEmitted_ignoredCounted hbound0 hbound1 r (gradientTensor h rows) (stepLossTensor r h rows)
    refine ⟨hmoved, hin0, hin1, hignored.trans (congrArg _ ?_),
      ⟨_, hout0, length_gradientTensor h rows, vals_gradientTensor h rows⟩, hout1⟩
    exact apply_ite (BitVec.ofNat 32) _ _ _

end Sys2Proof.Claims
end

section
/-!
PROOF. States at which the statements on barriers, updates and losses apply (O26, O27).
-/

open Sys2Proof Sys2Proof.Machine Sys2Proof.Claims Sys2Proof.Laws Sys2Proof.Laws.WindowExamples

namespace Sys2Proof.Laws.TrainingExamples

/-- Context 0 on shelf 0 with stages and streams, a step under way; core 0 is given, every island runs and granule 0 is
its own. -/
def training (stages : List StageRec) (streams : List StreamRec) (options : Blob) (step : StepBlk) (k : Core) : State :=
  TierExamples.awake ((State.reset.setCtx 0
    { st := .loaded, image := some ⟨1, [], stages, streams, [], []⟩, mask := 1, options := options, step := step
      led := { st := .running } }).setCore 0 k)

/-! ### A layer (08 R316 to R320) -/

/-- One layer, of number 0: a shard of one element at an address, with no working copy. -/
def oneLayer (shard : Nat) : Blob where
  len := 56
  val := 1 + 2 ^ 80 + 2 ^ 100 + shard * 2 ^ 128 + 2 ^ 212 + 15 * 2 ^ 232

/-- An UPDATE stage of that layer on image core 0. -/
def updateStage (shard : Nat) : StageRec := stageOf 6 0 [] (oneLayer shard)

/-- Its core, with a gradient at port 0; the shard is to bear T, and the coefficient entry is given. -/
def updateCore (shard : Nat) (gradient : List Elem) (t : BitVec 32) (coefs : Nat) : Core :=
  { runningCore (updateStage shard) (tallTensor 1 1) gradient WindowUnit.cleared with
    upd := { UpdateUnit.cleared with tables := ⟨[(0, ⟨128, coefs⟩)], []⟩, expectT := [(0, t)] } }

/-- The bytes of a shard header of that layer that bears T = 5. -/
def shardFive : List Host.Cell := [(0, 5), (10, 0x10), (13, 1)]

/-- The stage has a verdict and a gradient, and memory holds a shard header at 0. -/
def updating (v : Nat) (options : Blob) (header : List Host.Cell) (k : Core) : State :=
  (training [updateStage 0] [] options { verdict := some v } k).setMem ⟨header, []⟩

/-- A gradient of one element. -/
def gradient : List Elem := [zeroElem]

theorem layerUpdate_waits : exec (.layerUpdate 0) (updating 2 Blob.empty shardFive (updateCore 0 gradient 5 0)) =
    .next (updating 2 Blob.empty shardFive (updateCore 0 gradient 5 0)) :=
  (updatesAndLosses.1 (updating 2 Blob.empty shardFive (updateCore 0 gradient 5 0)) 0 0 2 (updateStage 0) (by decide)
    rfl rfl (by decide) (by decide) (by decide) rfl).1 (.inl (by decide))

/-- A gradient of two elements is too long. -/
theorem layerUpdate_misfits :
    Answers (.layerUpdate 0) (updating 0 Blob.empty shardFive (updateCore 0 [zeroElem, zeroElem] 5 0)) fun t =>
      (t.core 0).stage.st = .stopped ∧ (t.ctx 0).faults = 1 := by
  obtain ⟨-, hmisfits, -⟩ := updatesAndLosses.1
    (updating 0 Blob.empty shardFive (updateCore 0 [zeroElem, zeroElem] 5 0)) 0 0 0 (updateStage 0) (by decide) rfl rfl
    (by decide) (by decide) (by decide) rfl
  obtain ⟨t, hexec, -, hmembers, hfaults, -⟩ :=
    hmisfits (by decide) (by decide) (by decide) (by decide +kernel) (by decide +kernel)
  obtain ⟨hst, -⟩ := hmembers 0 (by decide)
  exact ⟨t, hexec, hst, hfaults⟩

/-- A frozen layer takes no gradient. -/
theorem layerUpdate_frozen :
    Answers (.layerUpdate 0) (updating 0 Blob.empty shardFive (updateCore 0 [] 5 1)) fun t =>
      (t.core 0).upd.layer = 1 ∧ (t.core 0).upd.frozenUpdates = 1 ∧ t.mem.mem = ⟨shardFive, []⟩ := by
  obtain ⟨-, -, hgoes⟩ := updatesAndLosses.1 (updating 0 Blob.empty shardFive (updateCore 0 [] 5 1)) 0 0 0
    (updateStage 0) (by decide) rfl rfl (by decide) (by decide) (by decide) rfl
  obtain ⟨hfrozen, -⟩ := hgoes (by decide) (by decide) (fun hcarried => absurd hcarried (by decide))
  obtain ⟨t, hexec, ⟨hmem, hmembers, -⟩, hcount⟩ := hfrozen (by decide)
  obtain ⟨hlayer, -⟩ := hmembers 0 (by decide)
  exact ⟨t, hexec, hlayer, hcount, hmem⟩

theorem layerUpdate_skipped :
    Answers (.layerUpdate 0) (updating 1 Blob.empty shardFive (updateCore 0 gradient 5 0)) fun t =>
      (t.core 0).upd.layer = 1 ∧ (t.core 0).inPort 0 = InPort.empty ∧ t.mem.mem = ⟨shardFive, []⟩ := by
  obtain ⟨-, -, hgoes⟩ := updatesAndLosses.1 (updating 1 Blob.empty shardFive (updateCore 0 gradient 5 0)) 0 0 1
    (updateStage 0) (by decide) rfl rfl (by decide) (by decide) (by decide) rfl
  obtain ⟨-, hskipped, -⟩ := hgoes (by decide) (by decide) (fun _ => by decide +kernel)
  obtain ⟨t, hexec, hmem, hmembers, -⟩ := hskipped (by decide) rfl
  obtain ⟨hlayer, -, -, hempty⟩ := hmembers 0 (by decide)
  exact ⟨t, hexec, hlayer, hempty rfl, hmem⟩

/-- HBM is off. -/
def asleep : State :=
  { updating 0 Blob.empty shardFive (updateCore 0 gradient 5 0) with
    mem := { MemSys.reset with mem := ⟨shardFive, []⟩ } }

theorem layerUpdate_stalls : exec (.layerUpdate 0) asleep = .next asleep := by
  obtain ⟨-, -, hgoes⟩ := updatesAndLosses.1 asleep 0 0 0 (updateStage 0) (by decide) rfl rfl (by decide) (by decide)
    (by decide) rfl
  obtain ⟨-, -, hstalls, -⟩ := hgoes (by decide) (by decide) (fun _ => by decide +kernel)
  exact hstalls (by decide) rfl (by decide +kernel)

/-- The shard stands in granule 1, which the context does not own. -/
def foreign : State :=
  training [updateStage (2 ^ 26)] [] Blob.empty { verdict := some 0 } (updateCore (2 ^ 26) gradient 5 0)

theorem layerUpdate_foreign : exec (.layerUpdate 0) foreign = .next (addressFault foreign 0 (2 ^ 26)) := by
  obtain ⟨-, -, hgoes⟩ := updatesAndLosses.1 foreign 0 0 0 (updateStage (2 ^ 26)) (by decide) rfl rfl (by decide)
    (by decide) (by decide) rfl
  obtain ⟨-, -, -, hshards⟩ := hgoes (by decide) (by decide) (fun _ => by decide +kernel)
  obtain ⟨hforeign, -⟩ := hshards (by decide) rfl (by decide +kernel)
  obtain ⟨q, hq, -, hexec⟩ := hforeign (by decide +kernel)
  have hents : LayerUpdates.nextEnts foreign (stageMembers (foreign.ctx 0) 0) 0 =
      [(0, LayerEnt.parse (oneLayer (2 ^ 26)) 0)] := by
    decide +kernel
  have hq' : q ∈ LayerUpdates.nextEnts foreign (stageMembers (foreign.ctx 0) 0) 0 := hq
  rw [hents] at hq'
  obtain rfl := List.mem_singleton.1 hq'
  have hshard : (LayerEnt.parse (oneLayer (2 ^ 26)) 0).shard = 2 ^ 26 := by decide
  simpa only [hshard] using hexec

/-- Memory holds no shard header. -/
theorem layerUpdate_unsound :
    Answers (.layerUpdate 0) (updating 0 Blob.empty [] (updateCore 0 gradient 5 0)) fun t =>
      (t.core 0).stage.st = .stopped ∧ (t.core 0).upd.layer = 0 := by
  obtain ⟨-, -, hgoes⟩ := updatesAndLosses.1 (updating 0 Blob.empty [] (updateCore 0 gradient 5 0)) 0 0 0
    (updateStage 0) (by decide) rfl rfl (by decide) (by decide) (by decide) rfl
  obtain ⟨-, -, -, hshards⟩ := hgoes (by decide) (by decide) (fun _ => by decide +kernel)
  obtain ⟨-, hunsound, -⟩ := hshards (by decide) rfl (by decide +kernel)
  obtain ⟨t, hexec, -, hmembers, -⟩ := hunsound (by decide +kernel) (by decide +kernel)
  obtain ⟨hst, hlayer, -⟩ := hmembers 0 (by decide)
  exact ⟨t, hexec, hst, hlayer⟩

/-- The shard bears 5 where 4 is expected. -/
theorem layerUpdate_skewed :
    Answers (.layerUpdate 0) (updating 0 Blob.empty shardFive (updateCore 0 gradient 4 0)) fun t =>
      (t.core 0).stage.st = .stopped ∧ (t.core 0).upd.stepSkews = 1 := by
  obtain ⟨-, -, hgoes⟩ := updatesAndLosses.1 (updating 0 Blob.empty shardFive (updateCore 0 gradient 4 0)) 0 0 0
    (updateStage 0) (by decide) rfl rfl (by decide) (by decide) (by decide) rfl
  obtain ⟨-, -, -, hshards⟩ := hgoes (by decide) (by decide) (fun _ => by decide +kernel)
  obtain ⟨-, -, hfine⟩ := hshards (by decide) rfl (by decide +kernel)
  obtain ⟨hskewed, -⟩ := hfine (by decide +kernel)
  obtain ⟨t, hexec, ⟨-, hmembers, -⟩, hskews, -⟩ := hskewed (by decide +kernel) (by decide)
  obtain ⟨hst, -⟩ := hmembers 0 (by decide)
  exact ⟨t, hexec, hst, hskews⟩

/-- Training options with ADOPT. -/
def adoptOptions : Blob := ⟨64, 2 ^ 106⟩

theorem layerUpdate_adopts :
    Answers (.layerUpdate 0) (updating 0 adoptOptions shardFive (updateCore 0 gradient 4 0)) fun t =>
      (t.core 0).upd.layer = 1 ∧ tgetD (t.core 0).upd.expectT 0 0 = 0 ∧ (t.core 0).upd.stepAdoptions = 1 := by
  obtain ⟨-, -, hgoes⟩ := updatesAndLosses.1 (updating 0 adoptOptions shardFive (updateCore 0 gradient 4 0)) 0 0 0
    (updateStage 0) (by decide) rfl rfl (by decide) (by decide) (by decide) rfl
  obtain ⟨-, -, -, hshards⟩ := hgoes (by decide) (by decide) (fun _ => by decide +kernel)
  obtain ⟨-, -, hfine⟩ := hshards (by decide) rfl (by decide +kernel)
  obtain ⟨-, hadopts, -⟩ := hfine (by decide +kernel)
  obtain ⟨t, hexec, -, hmembers⟩ := hadopts (by decide +kernel) (by decide)
  obtain ⟨hlayer, hexpect, hadoptions, -⟩ := hmembers 0 (by decide)
  exact ⟨t, hexec, hlayer, hexpect, hadoptions⟩

/-- The header of that layer with the last T. -/
def shardLast : List Host.Cell := [(0, 255), (1, 255), (2, 255), (3, 255), (10, 0x10), (13, 1)]

theorem layerUpdate_stepLimit :
    Answers (.layerUpdate 0) (updating 0 Blob.empty shardLast (updateCore 0 gradient 0xFFFFFFFF 0)) fun t =>
      (t.core 0).stage.st = .stopped ∧ t.mem.mem = ⟨shardLast, []⟩ := by
  obtain ⟨-, -, hgoes⟩ := updatesAndLosses.1 (updating 0 Blob.empty shardLast (updateCore 0 gradient 0xFFFFFFFF 0)) 0 0
    0 (updateStage 0) (by decide) rfl rfl (by decide) (by decide) (by decide) rfl
  obtain ⟨-, -, -, hshards⟩ := hgoes (by decide) (by decide) (fun _ => by decide +kernel)
  obtain ⟨-, -, hfine⟩ := hshards (by decide) rfl (by decide +kernel)
  obtain ⟨-, -, hlimit, -⟩ := hfine (by decide +kernel)
  obtain ⟨t, hexec, hmem, hmembers, -⟩ := hlimit (by decide +kernel) (by decide)
  obtain ⟨hst, -⟩ := hmembers 0 (by decide)
  exact ⟨t, hexec, hst, hmem⟩

theorem layerUpdate_applies :
    Answers (.layerUpdate 0) (updating 0 Blob.empty shardFive (updateCore 0 gradient 5 0)) fun t =>
      (t.core 0).upd.layer = 1 ∧ tgetD (t.core 0).upd.expectT 0 0 = 6 ∧ (t.core 0).upd.updatesApplied = 1 ∧
        (t.core 0).inPort 0 = InPort.empty := by
  obtain ⟨-, -, hgoes⟩ := updatesAndLosses.1 (updating 0 Blob.empty shardFive (updateCore 0 gradient 5 0)) 0 0 0
    (updateStage 0) (by decide) rfl rfl (by decide) (by decide) (by decide) rfl
  obtain ⟨-, -, -, hshards⟩ := hgoes (by decide) (by decide) (fun _ => by decide)
  obtain ⟨-, -, hfine⟩ := hshards (by decide) rfl (by decide)
  obtain ⟨-, -, -, hstores⟩ := hfine (by decide +kernel)
  obtain ⟨t, hexec, hmembers, -⟩ := hstores (by decide +kernel) (by decide +kernel)
  obtain ⟨hlayer, hexpect, -, happlied, -, hempty⟩ := hmembers 0 (by decide)
  exact ⟨t, hexec, hlayer, hexpect.trans (by decide), happlied, hempty⟩

/-! ### A loss (08 R330) -/

/-- A LOSS stage on image core 0, by CROSS_ENTROPY with the class 255 ignored, with the streams 0 and 1 at its outputs
and a monitor where `monitor` is 1. -/
def lossStage (monitor : Nat) : StageRec :=
  stageOf 5 0 [2, 2, 2, 2, 0, 1] ⟨32, monitor * 2 ^ 4 + 0x3F800000 * 2 ^ 32 + 255 * 2 ^ 64⟩

/-- A stream of binary32 tensors of up to 4 elements out of a port of image core 0 to a peer. -/
def outStream (port : BitVec 32) : StreamRec := ⟨16 * port, [0x16], 3, 1, 0, false, 0, 4, 4⟩

/-- The stage has predictions at port 0 and targets at port 1. -/
def lossState (h : THdr) (predictions targets : List Elem) : State :=
  training [lossStage 0] [outStream 0, outStream 1] Blob.empty {}
    { runningCore (lossStage 0) h predictions WindowUnit.cleared with
      inp := [(0, ⟨some h, predictions, false, true⟩), (1, ⟨some h, targets, false, true⟩)] }

/-- One row of two classes whose target is ignored. -/
def ignoredRow : State := lossState (tallTensor 2 1) [zeroElem, zeroElem] [⟨255, false⟩]

theorem lossTensor_ignores : Answers (.lossTensor 0) ignoredRow fun t =>
    (t.core 0).loss.ignoredRows = 1 ∧ ((t.core 0).outPort 0).outs.map (·.length) = [2] ∧
      ((t.core 0).outPort 1).outs.map (·.length) = [1] := by
  obtain ⟨-, hdone⟩ := updatesAndLosses.2 ignoredRow 0 (lossStage 0) (tallTensor 2 1) (by decide) rfl rfl rfl
  obtain ⟨-, hvalues⟩ := hdone rfl (by decide) rfl rfl
  obtain ⟨-, hemits⟩ := hvalues (by decide)
  obtain ⟨t, hexec, -, -, -, hignored, ⟨g, hgradients, hlength, -⟩, hloss⟩ := hemits (by decide) (by decide) (by decide)
  refine ⟨t, hexec, hignored.trans (by decide), ?_, by rw [hloss]; rfl⟩
  rw [hgradients, List.map_append, List.map_singleton, hlength]
  rfl

/-- A target beyond the two classes. -/
def outsideTarget : State := lossState (tallTensor 2 1) [zeroElem, zeroElem] [⟨2, false⟩]

theorem lossTensor_outside :
    exec (.lossTensor 0) outsideTarget = .next (stopStage outsideTarget 0 .lossTarget 0) := by
  obtain ⟨-, hdone⟩ := updatesAndLosses.2 outsideTarget 0 (lossStage 0) (tallTensor 2 1) (by decide) rfl rfl rfl
  obtain ⟨-, hvalues⟩ := hdone rfl (by decide) rfl rfl
  exact (hvalues (by decide)).1 (by decide)

/-- Both tensors are empty. -/
def emptyLoss : State := lossState (tallTensor 2 0) [] []

theorem lossTensor_empty : exec (.lossTensor 0) emptyLoss =
    .next (passEmpty emptyLoss 0 (tallTensor 2 0) 0 false [0, 1] (2, 1, 0)) := by
  obtain ⟨-, hdone⟩ := updatesAndLosses.2 emptyLoss 0 (lossStage 0) (tallTensor 2 0) (by decide) rfl rfl rfl
  exact (hdone rfl (by decide) rfl rfl).1 rfl

/-- The targets have not come. -/
def targetsMissing : State := ignoredRow.modCore 0 fun c => { c with inp := tset c.inp 1 InPort.empty }

theorem lossTensor_waits : exec (.lossTensor 0) targetsMissing = .next targetsMissing :=
  (updatesAndLosses.2 targetsMissing 0 (lossStage 0) (tallTensor 2 1) (by decide) rfl rfl rfl).1
    (.inr (.inr (.inr rfl)))

/-! ### The barriers of a step (08 R296, R334, R335) -/

/-- A stage with a monitor at the end of its step, with a step loss. -/
def monitored (options : Blob) (step : StepBlk) (poison : Bool) : State :=
  training [lossStage 1] [] options step
    { Core.cleared with
      stage := { StageUnit.cleared with st := .running, info := some (lossStage 1) }
      loss := { LossUnit.cleared with stepLoss := some (F32.one, poison) } }

/-- The policy of LOSS_NONFINITE is ROLLBACK. -/
def rollbackOptions : Blob := ⟨64, 2 * 2 ^ 104⟩

/-- A poisoned loss fires LOSS_NONFINITE. -/
theorem verdictBarrier_fires : Answers (.verdictBarrier 0) (monitored rollbackOptions {} true) fun t =>
    (t.ctx 0).step.leaf = some 2 ∧ (t.ctx 0).step.fired = 16 := by
  refine nxt (StepEnds.exec_verdictBarrier (by decide) _) ?_
  rw [StepEnds.step_verdictBarrier (by decide) rfl (by decide +kernel)]
  exact ⟨by decide +kernel, by decide +kernel⟩

theorem verdictBarrier_leaf : Answers (.verdictBarrier 0) (monitored Blob.empty {} false) fun t =>
    (t.ctx 0).step.leaf.isSome = true ∧ (t.ctx 0).step.jobStep = 0 := by
  obtain ⟨t, hexec, tot, v, -, -, -, hleaf, -, -, -, -, -, -, hstep, -⟩ :=
    stepBarriers.1 (monitored Blob.empty {} false) 0 (by decide) (by decide) rfl (by decide +kernel)
  exact ⟨t, hexec, by rw [hleaf]; rfl, hstep⟩

/-- At reset no context runs a step. -/
theorem verdictBarrier_waits : exec (.verdictBarrier 0) State.reset = .next State.reset :=
  stepBarriers.2.1 State.reset 0 (by decide) (.inl (by decide))

theorem verdictReceived_applied :
    Answers (.verdictReceived 0 0) (monitored Blob.empty { leaf := some 0 } false) fun t =>
      (t.ctx 0).step.verdict = some 0 ∧ (t.ctx 0).step.stepsApplied = 1 ∧ (t.core 0).loss.monitorN = 1 := by
  obtain ⟨t, hexec, hverdict, -, -, happlied, -, -, -, habsorbed⟩ :=
    stepBarriers.2.2.1 (monitored Blob.empty { leaf := some 0 } false) 0 0 0 (by decide) (by decide) rfl rfl (by decide)
  have hloss := habsorbed 0 F32.one false rfl (by decide +kernel) rfl rfl
  exact ⟨t, hexec, hverdict, happlied, by rw [hloss]; decide +kernel⟩

theorem verdictReceived_rolledBack :
    Answers (.verdictReceived 0 2) (monitored Blob.empty { leaf := some 2 } true) fun t =>
      (t.ctx 0).step.stepRollbacks = 1 ∧ (t.core 0).loss.monitorN = 0 := by
  obtain ⟨t, hexec, -, -, -, -, -, hrollbacks, hkept, -⟩ :=
    stepBarriers.2.2.1 (monitored Blob.empty { leaf := some 2 } true) 0 2 2 (by decide) (by decide) rfl rfl (by decide)
  exact ⟨t, hexec, hrollbacks, by rw [hkept (by decide) 0]; rfl⟩

/-- The leaf has not been sent. -/
theorem verdictReceived_idle : exec (.verdictReceived 0 1) (monitored Blob.empty {} false) =
    .next (monitored Blob.empty {} false) :=
  stepBarriers.2.2.2.1 (monitored Blob.empty {} false) 0 1 (by decide) (by decide) (.inr (.inl rfl))

theorem endOfStepBarrier_advances :
    Answers (.endOfStepBarrier 0) (monitored Blob.empty { leaf := some 0, verdict := some 0 } false) fun t =>
      (t.ctx 0).step.jobStep = 1 ∧ (t.ctx 0).step.verdict = none ∧ (t.core 0).loss.stepLoss = none := by
  obtain ⟨t, hexec, hstep, -, hverdict, -, -, hcores⟩ :=
    stepBarriers.2.2.2.2.1 (monitored Blob.empty { leaf := some 0, verdict := some 0 } false) 0 0 (by decide)
      (by decide) rfl (by decide) (by decide +kernel) (by decide) (by decide +kernel)
      (fun hdue => absurd hdue (by decide))
  obtain ⟨hown, -⟩ := hcores rfl
  obtain ⟨-, -, hloss, -⟩ := hown 0 (by decide +kernel)
  exact ⟨t, hexec, hstep, hverdict, hloss⟩

/-- No verdict has come. -/
theorem endOfStepBarrier_waits : exec (.endOfStepBarrier 0) (monitored Blob.empty {} false) =
    .next (settle (monitored Blob.empty {} false) (monitored Blob.empty {} false)) :=
  stepBarriers.2.2.2.2.2 (monitored Blob.empty {} false) 0 (by decide) (.inr (.inl rfl))

end Sys2Proof.Laws.TrainingExamples
end

section
/-!
PROOF. Links that train and fall (O28): LANE_SIGNAL, LINK_TRAINED, LOSS_OF_SIGNAL, KEEPALIVE_TIMEOUT, ETH_LINK_LOSS.
-/

-- One declaration after another: side by side they need more threads than the memory of the check leaves room for.
set_option Elab.async false

open Sys2Proof Sys2Proof.Machine Sys2Proof.Claims Sys2Proof.Laws

namespace Sys2Proof.Laws.LinkTraining

/-! ### Fabric commands on a link -/

/-- A fabric command that leaves the state alone does what the empty command does. -/
theorem fabricStep_of_id {s : State} {f : State → State} (h : f s = s) : fabricStep s f = fabricStep s id := by
  unfold fabricStep
  rw [h]
  rfl

section
variable {h : Nat} (hh : h < 16) (s : State)
include hh

theorem exec_laneSignal : exec (.laneSignal h) s = .next (laneSignal s h) := withUnit_of (by simp [hh])

theorem exec_linkTrained (lanes : BitVec 8) :
    exec (.linkTrained h lanes) s = .next (fabricStep s fun s => linkTrained s h lanes) := withUnit_of (by simp [hh])

theorem exec_lossOfSignal : exec (.lossOfSignal h) s = .next (fabricStep s fun s => lossOfSignal s h) :=
  withUnit_of (by simp [hh])

theorem exec_keepaliveTimeout : exec (.keepaliveTimeout h) s = .next (fabricStep s fun s => keepaliveTimeout s h) :=
  withUnit_of (by simp [hh])

theorem exec_ethLinkLoss : exec (.ethLinkLoss h) s = .next (fabricStep s fun s => ethLinkLoss s h) :=
  withUnit_of (by simp [hh])

end

/-! ### LANE_SIGNAL (09 R341, R350) -/

theorem laneSignal_trains {s : State} {h : Nat} (hdown : (s.link h).st = .down) (hmode : (s.link h).mode ≠ .off)
    (hon : domainOn s (linkDomain h) = true) : laneSignal s h = s.setLink h { s.link h with
      signal := true
      st := if (s.link h).retryWait || (s.link h).mismatchWait then .down else .training } := by
  simp [laneSignal, hdown, hmode, hon]

theorem laneSignal_idle {s : State} {h : Nat}
    (hidle : (s.link h).st ≠ .down ∨ (s.link h).mode = .off ∨ domainOn s (linkDomain h) = false) :
    laneSignal s h = s := by
  refine if_pos ?_
  rcases hidle with hst | hmode | hon
  · simp [hst]
  · simp [hmode]
  · simp [hon]

/-! ### LINK_TRAINED (09 R341, R350) -/

/-- The lanes that a link has to train to come up whole: those of its port or of its half. -/
def neededLanes (l : Link) (h : Nat) : BitVec 8 := if l.half then BitVec.ofNat 8 (halfLanes (h % 2)) else 0xFF

/-- A whole port of which one half has trained. -/
def HalfTrained (l : Link) (lanes : BitVec 8) : Prop :=
  l.half = false ∧ (lanes &&& 0x0F = 0x0F ∨ lanes &&& 0xF0 = 0xF0)

/-- The lanes of a link among those that have trained. -/
def ownLanes (l : Link) (h : Nat) (lanes : BitVec 8) : BitVec 8 := if l.half then lanes &&& neededLanes l h else lanes

theorem neededLanes_eq (l : Link) (h : Nat) :
    neededLanes l h = BitVec.ofNat 8 (if l.half then halfLanes (h % 2) else 0xFF) := by
  unfold neededLanes
  split <;> rfl

theorem ownLanes_eq (l : Link) (h : Nat) (lanes : BitVec 8) :
    ownLanes l h lanes = if l.half then lanes &&& BitVec.ofNat 8 (halfLanes (h % 2)) else lanes := by
  cases hhalf : l.half <;> simp [ownLanes, neededLanes, hhalf]

section
variable {s : State} {h : Nat} {lanes : BitVec 8} (htraining : (s.link h).st = .training)
include htraining

theorem linkTrained_ethernet (heth : (s.link h).mode = .ethernet) :
    linkTrained s h lanes = s.setLink h { s.link h with
      lanes := ownLanes (s.link h) h lanes
      st := if lanes &&& neededLanes (s.link h) h = neededLanes (s.link h) h then .ethUp else .down } := by
  simp [linkTrained, htraining, heth, ownLanes_eq, neededLanes_eq]

/-- A Verhel link with all its lanes, or a whole port with one half, begins keying. -/
theorem linkTrained_keying (hmode : (s.link h).mode ≠ .ethernet)
    (hup : lanes &&& neededLanes (s.link h) h = neededLanes (s.link h) h ∨ HalfTrained (s.link h) lanes) :
    let whole : Bool := lanes &&& neededLanes (s.link h) h = neededLanes (s.link h) h
    linkTrained s h lanes = freshKey (s.setLink h { s.link h with
      lanes := ownLanes (s.link h) h lanes
      st := .keying
      up4 := (s.link h).half || !whole
      degraded := !whole }) (.ephemeral h) := by
  simp only [HalfTrained, neededLanes_eq] at hup
  simp only [linkTrained, htraining, hmode, ownLanes_eq, neededLanes_eq, ne_eq, not_true_eq_false, if_false]
  rw [if_pos (by simpa [-Nat.reduceMod] using hup)]

theorem linkTrained_down (hmode : (s.link h).mode ≠ .ethernet)
    (hwhole : ¬ lanes &&& neededLanes (s.link h) h = neededLanes (s.link h) h)
    (hpart : ¬ HalfTrained (s.link h) lanes) :
    linkTrained s h lanes = s.setLink h { s.link h with lanes := ownLanes (s.link h) h lanes, st := .down } := by
  simp only [HalfTrained, neededLanes_eq] at hwhole hpart
  simp only [linkTrained, htraining, hmode, ownLanes_eq, ne_eq, not_true_eq_false, if_false]
  rw [if_neg (by simpa [hwhole] using hpart)]

end

theorem linkTrained_idle {s : State} {h : Nat} (hst : (s.link h).st ≠ .training) (lanes : BitVec 8) :
    linkTrained s h lanes = s := if_pos hst

/-- Only the link that trains changes, in its lanes, its state and its width. -/
theorem linkTrained_links {s : State} {h : Nat} (htraining : (s.link h).st = .training) (lanes : BitVec 8) :
    ((linkTrained s h lanes).link h).lanes = ownLanes (s.link h) h lanes ∧
      ∀ k, k ≠ h → (linkTrained s h lanes).link k = s.link k := by
  by_cases heth : (s.link h).mode = .ethernet
  · rw [linkTrained_ethernet htraining heth, setLink_self]
    exact ⟨rfl, fun k hk => setLink_other _ _ _ _ hk⟩
  by_cases hup : lanes &&& neededLanes (s.link h) h = neededLanes (s.link h) h ∨ HalfTrained (s.link h) lanes
  · rw [linkTrained_keying htraining heth hup]
    rw [Flits.freshKey_link, setLink_self]
    exact ⟨rfl, fun k hk => (Flits.freshKey_link _ _ _).trans (setLink_other _ _ _ _ hk)⟩
  · obtain ⟨hwhole, hpart⟩ := not_or.mp hup
    rw [linkTrained_down htraining heth hwhole hpart, setLink_self]
    exact ⟨rfl, fun k hk => setLink_other _ _ _ _ hk⟩

/-! ### Links that are lost (09 R351, 14 R544) -/

theorem lossOfSignal_falls {s : State} {h : Nat} (hmode : (s.link h).mode = .verhel)
    (hsignal : (s.link h).signal = true) : lossOfSignal s h = linkDown (s.setLink h { s.link h with
      signal := false, ctr := { (s.link h).ctr with losEvents := (s.link h).ctr.losEvents + 1 } }) h := by
  simp [lossOfSignal, hmode, hsignal]

theorem lossOfSignal_idle {s : State} {h : Nat} (hidle : (s.link h).mode ≠ .verhel ∨ (s.link h).signal = false) :
    lossOfSignal s h = s := if_pos (by simpa using hidle)

theorem keepaliveTimeout_falls {s : State} {h : Nat} (hup : (s.link h).isUp = true) :
    keepaliveTimeout s h =
      linkDown (s.modLinkCtr h fun k => { k with keepaliveLosses := k.keepaliveLosses + 1 }) h := by
  simp [keepaliveTimeout, hup]

theorem keepaliveTimeout_idle {s : State} {h : Nat} (hdown : (s.link h).isUp = false) : keepaliveTimeout s h = s :=
  if_pos (by simp [hdown])

theorem ethLinkLoss_falls {s : State} {h : Nat} (hup : (s.link h).st = .ethUp) :
    ethLinkLoss s h = s.setLink h { s.link h with
      st := .down, signal := false, ctr := { (s.link h).ctr with losEvents := (s.link h).ctr.losEvents + 1 } } := by
  simp [ethLinkLoss, hup]

theorem ethLinkLoss_idle {s : State} {h : Nat} (hst : (s.link h).st ≠ .ethUp) : ethLinkLoss s h = s := if_pos hst

end Sys2Proof.Laws.LinkTraining

namespace Sys2Proof.Claims

open Sys2Proof.Laws.LinkTraining in
/-- Settles O28. Each command is one update of its link; a Verhel link that is lost goes through `linkDown`, and what
follows a fabric command only sends on the links. -/
theorem linksTrainAndFall : Obligations.LinksTrainAndFall := by
  unfold Obligations.LinksTrainAndFall
  refine ⟨fun s h hh => ⟨fun hdown hmode hon => nxt (exec_laneSignal hh s) ?_, fun hidle => ?_⟩,
    fun s h lanes hh htraining => nxt (exec_linkTrained hh s lanes) ?_,
    fun s h hh hmode hsignal => nxt (exec_lossOfSignal hh s) ?_,
    fun s h hh hup => nxt (exec_keepaliveTimeout hh s) ?_,
    fun s h hh hup => nxt (exec_ethLinkLoss hh s) ?_,
    fun s h hh => ⟨fun lanes hst => ?_, fun hidle => ?_, fun hdown => ?_, fun hst => ?_⟩⟩
  · rw [laneSignal_trains hdown hmode hon, setLink_self]
    refine ⟨rfl, OneLink.set _ _ _, fun hretry hmismatch => by simp [hretry, hmismatch], fun hwait => if_pos ?_⟩
    simpa using hwait
  · rw [exec_laneSignal hh, laneSignal_idle hidle]
  · obtain ⟨hlanes, hothers⟩ := linkTrained_links htraining lanes
    have hsends (k : Nat) : OnlySends ((linkTrained s h lanes).link k)
        ((fabricStep s fun s => linkTrained s h lanes).link k) := FO s _ k
    obtain ⟨tx, dropped, hlink⟩ := hsends h
    refine ⟨?_, fun heth hwhole => ?_, fun heth hwhole => ?_, fun hmode hwhole => ?_, fun hmode hwhole hpart => ?_,
      fun hmode hwhole hpart => ?_, fun k hk => ?_⟩
    · rw [hlink]
      exact hlanes
    · rw [hlink, linkTrained_ethernet htraining heth, setLink_self]
      exact if_pos hwhole
    · rw [hlink, linkTrained_ethernet htraining heth, setLink_self]
      exact if_neg hwhole
    · have hall : lanes &&& neededLanes (s.link h) h = neededLanes (s.link h) h := hwhole
      rw [hlink, linkTrained_keying htraining hmode (.inl hall), Flits.freshKey_link, setLink_self]
      simp [hall]
    · have hnotAll : ¬ lanes &&& neededLanes (s.link h) h = neededLanes (s.link h) h := hwhole
      rw [hlink, linkTrained_keying htraining hmode (.inr hpart), Flits.freshKey_link, setLink_self]
      simp [hnotAll]
    · rw [hlink, linkTrained_down htraining hmode hwhole hpart, setLink_self]
    · rw [← hothers k hk]
      exact hsends k
  · obtain ⟨hwent, hst, hlink, ⟨dropped, hctr⟩, -⟩ :=
      wentDown _ s (lossOfSignal · h) h (lossOfSignal_falls hmode hsignal)
    rw [setLink_self] at hst hlink hctr
    exact ⟨hst, hlink, hwent, by rw [hctr]⟩
  · obtain ⟨hwent, hst, -, ⟨dropped, hctr⟩, -⟩ :=
      wentDown _ s (keepaliveTimeout · h) h (keepaliveTimeout_falls hup)
    rw [Segments.link_modLinkCtr] at hst hctr
    exact ⟨hst, hwent, by rw [hctr]⟩
  · have hsends (k : Nat) : OnlySends ((ethLinkLoss s h).link k) ((fabricStep s fun s => ethLinkLoss s h).link k) :=
      FO s _ k
    rw [ethLinkLoss_falls hup] at hsends
    obtain ⟨tx, dropped, hlink⟩ := hsends h
    rw [setLink_self] at hlink
    refine ⟨by rw [hlink], by rw [hlink], by rw [hlink], fun k hk => ?_⟩
    rw [← setLink_other s h k _ hk]
    exact hsends k
  · rw [exec_linkTrained hh, fabricStep_of_id (linkTrained_idle hst lanes)]
  · rw [exec_lossOfSignal hh, fabricStep_of_id (lossOfSignal_idle hidle)]
  · rw [exec_keepaliveTimeout hh, fabricStep_of_id (keepaliveTimeout_idle hdown)]
  · rw [exec_ethLinkLoss hh, fabricStep_of_id (ethLinkLoss_idle hst)]

end Sys2Proof.Claims
end

section
/-!
PROOF. Keying (O30): KEY_OFFER, KEY_CONFIRM, KEY_ABORT, KEYING_TIMEOUT, KEYING_RETRY, FABRIC_MISMATCH_RETRY.
-/

-- One declaration after another: side by side they need more threads than the memory of the check leaves room for.
set_option Elab.async false

open Sys2Proof Sys2Proof.Machine Sys2Proof.Claims Sys2Proof.Laws Sys2Proof.Laws.LinkTraining

namespace Sys2Proof.Laws.Keying

section
variable {h : Nat} (hh : h < 16) (s : State)
include hh

theorem exec_keyOffer (n : BitVec 64) (g : BitVec 256) (ok : Bool) (k : BitVec 320) :
    exec (.keyOffer h n g ok k) s = .next (fabricStep s fun s => keyOffer s h n g ok k) := withUnit_of (by simp [hh])

theorem exec_keyConfirm (ok : Bool) :
    exec (.keyConfirm h ok) s = .next (fabricStep s fun s => keyConfirm s h ok) := withUnit_of (by simp [hh])

theorem exec_keyAbort : exec (.keyAbort h) s = .next (fabricStep s fun s => keyAbort s h) :=
  withUnit_of (by simp [hh])

theorem exec_keyingTimeout : exec (.keyingTimeout h) s = .next (fabricStep s fun s => keyingTimeout s h) :=
  withUnit_of (by simp [hh])

theorem exec_keyingRetry : exec (.keyingRetry h) s = .next (fabricStep s fun s => keyingRetry s h) :=
  withUnit_of (by simp [hh])

theorem exec_fabricMismatchRetry :
    exec (.fabricMismatchRetry h) s = .next (fabricStep s fun s => fabricMismatchRetry s h) :=
  withUnit_of (by simp [hh])

end

/-! ### KEY_OFFER (14 R543, R545) -/

/-- What an OFFER that is accepted leaves of a link: the partner's SERIAL, and who confirms first. -/
def offeredLink (l : Link) (own : Nat) (n : BitVec 64) (k : BitVec 320) : Link :=
  { l with offer := some n, peerSerial := n, confirming := n.toNat < own, frag := 0, confirmK := k }

section
variable {s : State} {h : Nat} (hkeying : (s.link h).st = .keying) (n : BitVec 64) (g : BitVec 256) (k : BitVec 320)
include hkeying

theorem keyOffer_badChain : keyOffer s h n g false k = keyingFail s h 1 := by
  simp [keyOffer, hkeying]

theorem keyOffer_otherOwner (howner : g ≠ ownerDigest s) : keyOffer s h n g true k = keyingFail s h 2 := by
  simp [keyOffer, hkeying, howner]

theorem keyOffer_accepted (howner : g = ownerDigest s) :
    keyOffer s h n g true k = (wantKey s .identity).modLink h fun l => offeredLink l (ownSerial s) n k := by
  simp [keyOffer, hkeying, howner, offeredLink]

end

theorem keyOffer_idle {s : State} {h : Nat} (hst : (s.link h).st ≠ .keying) (n : BitVec 64) (g : BitVec 256)
    (ok : Bool) (k : BitVec 320) : keyOffer s h n g ok k = s := if_pos hst

/-! ### KEY_CONFIRM (14 R543, R544) -/

/-- A key that takes a slot counts no keying. -/
theorem want_keyings (x : Sec) (k : KeyId) (v : BitVec 256) (u : Bool) :
    (x.want k v u).keyings = x.keyings ∧ (x.want k v u).keyingFailures = x.keyingFailures := by
  unfold Sec.want
  dsimp only
  split
  · exact ⟨rfl, rfl⟩
  · split <;> exact ⟨rfl, rfl⟩

/-- The security engine once a link has its hop keys: the ephemeral key is gone, and the keying counts. -/
def keyedSec (x : Sec) (h : Nat) (k : BitVec 320) : Sec :=
  let y := ((x.destroy (.ephemeral h)).want (.hop h 0) (hopBits k 0) true).want (.hop h 1) (hopBits k 1) true
  { y with keyings := y.keyings + 1 }

theorem keyings_keyedSec (x : Sec) (h : Nat) (k : BitVec 320) :
    (keyedSec x h k).keyings = x.keyings + 1 ∧ (keyedSec x h k).keyingFailures = x.keyingFailures := by
  simp [keyedSec, want_keyings, Sec.destroy]

/-- The hop keys do not bring the ephemeral key back. -/
theorem ephemeral_keyedSec (x : Sec) (h : Nat) (k : BitVec 320) :
    ∀ p ∈ (keyedSec x h k).slots, p.2.key ≠ .ephemeral h := by
  have hdestroyed : ∀ p ∈ (x.destroy (.ephemeral h)).slots, p.2.key ≠ .ephemeral h :=
    fun p hp => ((slots_destroy x (.ephemeral h) p).1 hp).2
  exact Syncs.want_keys _ _ _ _ _ (by simp) (Syncs.want_keys _ _ _ _ _ (by simp) hdestroyed)

/-- The module once a link has its hop keys, before it enters NOT_READY. -/
def keyedState (s : State) (h : Nat) : State :=
  { s with sec := keyedSec s.sec h (s.link h).confirmK }.modLink h fun l => { l with frag := 0 }

/-- The initiator, of the lower SERIAL, answers a CONFIRM with its own. -/
def confirmedState (s : State) (h : Nat) (n : BitVec 64) : State :=
  if ownSerial s < n.toNat then sendKey (keyedState s h) h 2 else keyedState s h

section
variable {s : State} {h : Nat} {n : BitVec 64} (hkeying : (s.link h).st = .keying) (hoffer : (s.link h).offer = some n)
include hkeying hoffer

theorem keyConfirm_wrong : keyConfirm s h false = keyingFail s h 3 := by
  simp [keyConfirm, hkeying, hoffer]

theorem keyConfirm_right : keyConfirm s h true = enterNotReady (confirmedState s h n) h := by
  simp only [keyConfirm, hkeying, hoffer]
  rfl

end

theorem keyConfirm_idle {s : State} {h : Nat} (hidle : (s.link h).st ≠ .keying ∨ (s.link h).offer = none) (ok : Bool) :
    keyConfirm s h ok = s := by
  unfold keyConfirm
  dsimp only
  split
  · next n hst hoffer => exact absurd hidle (by simp [hst, hoffer])
  · rfl

theorem sec_confirmedState (s : State) (h : Nat) (n : BitVec 64) :
    (confirmedState s h n).sec = keyedSec s.sec h (s.link h).confirmK := by
  unfold confirmedState
  split
  · exact (Flits.sendKey_facts (keyedState s h) h 2).2.2
  · rfl

theorem grants_confirmedState (s : State) (h : Nat) (n : BitVec 64) :
    ((confirmedState s h n).link h).grants = (s.link h).grants := by
  have hkeyed : ((keyedState s h).link h).grants = (s.link h).grants := by
    rw [keyedState, link_modLink_self]
    rfl
  unfold confirmedState
  split
  · rw [(Flits.sendKey_facts (keyedState s h) h 2).1]
    exact hkeyed
  · exact hkeyed

/-! ### The other commands (09 R353, 14 R545) -/

theorem keyAbort_fails {s : State} {h : Nat} (hkeying : (s.link h).st = .keying) : keyAbort s h = keyingFail s h 4 :=
  if_pos hkeying

theorem keyAbort_idle {s : State} {h : Nat} (hst : (s.link h).st ≠ .keying) : keyAbort s h = s := if_neg hst

theorem keyingTimeout_fails {s : State} {h : Nat} (hkeying : (s.link h).st = .keying) :
    keyingTimeout s h = keyingFail s h 5 := if_pos hkeying

theorem keyingTimeout_idle {s : State} {h : Nat} (hst : (s.link h).st ≠ .keying) : keyingTimeout s h = s := if_neg hst

theorem keyingRetry_ends {s : State} {h : Nat} (hwait : (s.link h).retryWait = true) :
    keyingRetry s h = s.setLink h { s.link h with
      retryWait := false
      st := if (s.link h).signal && (s.link h).st = .down && !(s.link h).mismatchWait then .training
        else (s.link h).st } := by
  simp [keyingRetry, hwait]

theorem keyingRetry_idle {s : State} {h : Nat} (hwait : (s.link h).retryWait = false) : keyingRetry s h = s :=
  if_pos (by simp [hwait])

theorem fabricMismatchRetry_ends {s : State} {h : Nat} (hwait : (s.link h).mismatchWait = true) :
    fabricMismatchRetry s h = s.setLink h { s.link h with
      mismatchWait := false
      st := if (s.link h).signal && (s.link h).st = .down && !(s.link h).retryWait then .training
        else (s.link h).st } := by
  simp [fabricMismatchRetry, hwait]

theorem fabricMismatchRetry_idle {s : State} {h : Nat} (hwait : (s.link h).mismatchWait = false) :
    fabricMismatchRetry s h = s := if_pos (by simp [hwait])

end Sys2Proof.Laws.Keying

namespace Sys2Proof.Claims

open Sys2Proof.Laws.LinkTraining Sys2Proof.Laws.Keying in
/-- Settles O30. Every failure is `keyingFail` with its cause; an OFFER changes its link alone, and a CONFIRM leads
through `confirmedState`, whose keys are `keyedSec`, into NOT_READY. -/
theorem keyingOpensLinks : Obligations.KeyingOpensLinks := by
  unfold Obligations.KeyingOpensLinks
  refine ⟨fun s h n g k hh hkeying => ⟨?_, fun howner => ?_, fun howner => ?_⟩,
    fun s h n hh hkeying hoffer => ⟨?_, ?_⟩, fun s h hh hkeying => ⟨?_, ?_⟩,
    fun s h hh => ⟨fun hwait => ?_, fun hwait => ?_⟩,
    fun s h hh => ⟨fun n g ok k hst => ?_, fun ok hidle => ?_, fun hst => ⟨?_, ?_⟩, fun hwait => ?_, fun hwait => ?_⟩⟩
  · exact nxt (exec_keyOffer hh s n g false k)
      (Syncs.failed s s h 1 (keyOffer · h n g false k) (keyOffer_badChain hkeying n g k))
  · exact nxt (exec_keyOffer hh s n g true k)
      (Syncs.failed s s h 2 (keyOffer · h n g true k) (keyOffer_otherOwner hkeying n g k howner))
  · refine nxt (exec_keyOffer hh s n g true k) ?_
    have haccepted := keyOffer_accepted hkeying n g k howner
    have hsends : OnlySends ((keyOffer s h n g true k).link h)
        ((fabricStep s fun s => keyOffer s h n g true k).link h) := FO s _ h
    rw [haccepted, Laws.link_modLink_self, wantKey_link] at hsends
    obtain ⟨tx, dropped, hlink⟩ := hsends
    rw [secStep, haccepted, hlink]
    exact ⟨rfl, rfl, hkeying, decide_eq_true_iff, rfl, rfl, (want_keyings _ _ _ _).2⟩
  · exact nxt (exec_keyConfirm hh s false)
      (Syncs.failed s s h 3 (keyConfirm · h false) (keyConfirm_wrong hkeying hoffer))
  · refine nxt (exec_keyConfirm hh s true) ?_
    have hright := keyConfirm_right hkeying hoffer
    have hsends : OnlySends ((keyConfirm s h true).link h) ((fabricStep s fun s => keyConfirm s h true).link h) :=
      FO s _ h
    obtain ⟨credits, henters, hsec⟩ := Syncs.enter_facts (confirmedState s h n) h
    rw [← hright] at henters hsec
    obtain ⟨tx, dropped, hlink⟩ := henters.trans hsends
    rw [sec_confirmedState] at hsec
    obtain ⟨hkeyings, hfailures⟩ := keyings_keyedSec s.sec h (s.link h).confirmK
    unfold KeyGone
    rw [secStep, hsec, hlink]
    refine ⟨rfl, rfl, hkeyings, hfailures, ephemeral_keyedSec s.sec h (s.link h).confirmK, ?_⟩
    rw [← grants_confirmedState s h n]
    exact tgetD_tmod_self ((confirmedState s h n).link h).grants 7 0 (· + laneBuffer 7)
  · exact nxt (exec_keyAbort hh s) (Syncs.failed s s h 4 (keyAbort · h) (keyAbort_fails hkeying))
  · exact nxt (exec_keyingTimeout hh s) (Syncs.failed s s h 5 (keyingTimeout · h) (keyingTimeout_fails hkeying))
  · refine nxt (exec_keyingRetry hh s) ?_
    have hsends : OnlySends ((keyingRetry s h).link h) ((fabricStep s fun s => keyingRetry s h).link h) := FO s _ h
    rw [keyingRetry_ends hwait, setLink_self] at hsends
    obtain ⟨tx, dropped, hlink⟩ := hsends
    rw [hlink]
    exact ⟨rfl, rfl⟩
  · refine nxt (exec_fabricMismatchRetry hh s) ?_
    have hsends : OnlySends ((fabricMismatchRetry s h).link h)
        ((fabricStep s fun s => fabricMismatchRetry s h).link h) := FO s _ h
    rw [fabricMismatchRetry_ends hwait, setLink_self] at hsends
    obtain ⟨tx, dropped, hlink⟩ := hsends
    rw [hlink]
    exact ⟨rfl, rfl⟩
  · rw [exec_keyOffer hh, fabricStep_of_id (keyOffer_idle hst n g ok k)]
  · rw [exec_keyConfirm hh, fabricStep_of_id (keyConfirm_idle hidle ok)]
  · rw [exec_keyAbort hh, fabricStep_of_id (f := (keyAbort · h)) (keyAbort_idle hst)]
  · rw [exec_keyingTimeout hh, fabricStep_of_id (f := (keyingTimeout · h)) (keyingTimeout_idle hst)]
  · rw [exec_keyingRetry hh, fabricStep_of_id (keyingRetry_idle hwait)]
  · rw [exec_fabricMismatchRetry hh, fabricStep_of_id (fabricMismatchRetry_idle hwait)]

end Sys2Proof.Claims
end

section
/-!
PROOF. HELLO and database syncs (O31): HELLO, SYNC_OFFER, SYNC_RECORDS, SYNC_DONE, SYNC_NOT_READY, SYNC_BACKOFF.
-/

-- One declaration after another: side by side they need more threads than the memory of the check leaves room for.
set_option Elab.async false

open Sys2Proof Sys2Proof.Machine Sys2Proof.Claims Sys2Proof.Laws Sys2Proof.Laws.LinkTraining

namespace Sys2Proof.Laws.SyncRecords

section
variable {h : Nat} (hh : h < 16) (s : State)
include hh

theorem exec_hello : exec (.hello h) s = .next (fabricStep s fun s => hello s h) := withUnit_of (by simp [hh])

theorem exec_syncOffer : exec (.syncOffer h) s = .next (fabricStep s fun s => syncOffer s h) :=
  withUnit_of (by simp [hh])

theorem exec_syncRecords : exec (.syncRecords h) s = .next (fabricStep s fun s => syncRecords s h) :=
  withUnit_of (by simp [hh])

theorem exec_syncDone : exec (.syncDone h) s = .next (fabricStep s fun s => syncDone s h) :=
  withUnit_of (by simp [hh])

theorem exec_syncNotReady : exec (.syncNotReady h) s = .next (fabricStep s fun s => syncNotReady s h) :=
  withUnit_of (by simp [hh])

theorem exec_syncBackoff : exec (.syncBackoff h) s = .next (fabricStep s fun s => syncBackoff s h) :=
  withUnit_of (by simp [hh])

end

/-! ### A packet leaves the receive buffer of a link -/

/-- A packet has been taken at a link: its receive buffer and the credits to return have changed, and nothing else. -/
structure Received (s s1 : State) (h : Nat) : Prop where
  link : ∃ rx grants, s1.link h = { s.link h with rx := rx, grants := grants }
  others : ∀ o, o ≠ h → s1.link o = s.link o
  fab : ∃ links, s1.fab = { s.fab with links := links }
  sec : s1.sec = s.sec

theorem received_of_takePacket {s s1 : State} {h k : Nat} {p : Pkt} (htake : takePacket s h k = some (p, s1)) :
    Received s s1 h := by
  obtain ⟨rx, grants, hlink, hothers, hfab, hsec⟩ := Syncs.takePkt_facts htake
  exact ⟨⟨rx, grants, hlink⟩, hothers, hfab, hsec⟩

theorem received_of_takeSync {s s1 : State} {h k : Nat} {p : Pkt} (htake : takeSync s h k = some (p, s1)) :
    Received s s1 h := by
  obtain ⟨rx, grants, hlink, hothers, hfab, hsec⟩ := Syncs.takeSync_facts htake
  exact ⟨⟨rx, grants, hlink⟩, hothers, hfab, hsec⟩

namespace Received

variable {s s1 : State} {h : Nat} (hr : Received s s1 h)
include hr

theorem fabricId_eq : fabricId s1 = fabricId s := by
  obtain ⟨links, hfab⟩ := hr.fab
  simp [fabricId, folioBits, hfab]

theorem ownSerial_eq : ownSerial s1 = ownSerial s := Syncs.serial_of hr.sec

theorem accSt_eq : s1.fab.accSt = s.fab.accSt := by
  obtain ⟨links, hfab⟩ := hr.fab
  rw [hfab]

theorem lsdb_eq : s1.fab.lsdb = s.fab.lsdb := by
  obtain ⟨links, hfab⟩ := hr.fab
  rw [hfab]

theorem sync_eq : (s1.link h).sync = (s.link h).sync := by
  obtain ⟨rx, grants, hlink⟩ := hr.link
  rw [hlink]

theorem syncBusy_eq : syncBusy s1 h = syncBusy s h := Syncs.syncBusy_of h hr.others

theorem fabricReady_eq : fabricReady s1 = fabricReady s := by
  refine Syncs.fabricReady_eq hr.accSt_eq fun k => ?_
  by_cases hk : k = h
  · obtain ⟨rx, grants, hlink⟩ := hr.link
    rw [hk, hlink]
    exact ⟨rfl, rfl⟩
  · rw [hr.others k hk]
    exact ⟨rfl, rfl⟩

end Received

/-! ### Offers (09 R354) -/

/-- No other link that is up has a sync to make or under way. -/
def othersIdle (s : State) (h : Nat) : Bool :=
  linkNumbers.all fun o => o = h || !(s.link o).isUp || (s.link o).sync = .idle

/-- A sync is offered on a link, or waits. -/
def Offers (s : State) (h : Nat) (y : SyncSt) : Prop :=
  (syncBusy s h = false ∨ s.fab.accSt = .done ∧ othersIdle s h = true → y = .offered) ∧
    (syncBusy s h = true → s.fab.accSt ≠ .done ∨ othersIdle s h = false → y = .wanted)

theorem offers_congr {s s1 : State} {h : Nat} {y : SyncSt} (hacc : s1.fab.accSt = s.fab.accSt)
    (hothers : ∀ o, o ≠ h → s1.link o = s.link o) (hoffers : Offers s1 h y) : Offers s h y := by
  unfold Offers othersIdle at *
  rwa [Syncs.syncBusy_of h hothers, hacc, Syncs.others_of h hothers] at hoffers

theorem offerSync_link (s : State) (h : Nat) : ∃ y sent,
    OnlySends { s.link h with sync := y, syncSent := sent } ((offerSync s h).link h) ∧ Offers s h y := by
  obtain ⟨y, sent, hlink, hoffered, hwanted⟩ := Syncs.offer_facts s h
  exact ⟨y, sent, hlink, hoffered, hwanted⟩

theorem offerSync_other (s : State) {h k : Nat} (hk : k ≠ h) : OnlySends (s.link k) ((offerSync s h).link k) := by
  unfold offerSync
  split
  · rw [link_modLink_other _ _ _ _ hk]
    exact .refl _
  · have hsends := (FS.sendMgmt (s.modLink h fun l => { l with sync := .offered, syncSent := false }) h 0xE 0
      Blob.empty).links k
    rw [link_modLink_other _ _ _ _ hk] at hsends
    exact hsends

/-! ### HELLO (09 R353) -/

section
variable {s s1 : State} {h : Nat} {p : Pkt} (htake : takePacket s h 0xC = some (p, s1))
include htake

theorem hello_mismatch (hid : p.payload.bits 64 32 ≠ fabricId s) :
    hello s h = linkDown (s1.modLink h fun l => { l with
      mismatchWait := true, ctr := { l.ctr with fabricMismatches := l.ctr.fabricMismatches + 1 } }) h := by
  rw [← (received_of_takePacket htake).fabricId_eq] at hid
  simp [hello, htake, hid]

/-- What HELLO tells of the partner. -/
def greeted (l : Link) (b : Blob) : Link := { l with
  peerSerial := BitVec.ofNat 64 (b.bits 0 64)
  peerAcc := BitVec.ofNat 16 (b.bits 128 16)
  peerLink := BitVec.ofNat 4 (b.bits 146 4) }

theorem hello_match (hid : p.payload.bits 64 32 = fabricId s) :
    hello s h = offerSync (s1.modLink h fun l => greeted l p.payload) h := by
  rw [← (received_of_takePacket htake).fabricId_eq] at hid
  simp [hello, htake, hid, greeted]

end

theorem hello_idle {s : State} {h : Nat} (htake : takePacket s h 0xC = none) : hello s h = s := by
  simp [hello, htake]

/-! ### SYNC_OFFER (09 R354) -/

section
variable {s s1 : State} {h : Nat} {p : Pkt} (htake : takeSync s h 0 = some (p, s1))
include htake

theorem syncOffer_refused (hready : fabricReady s = false) (hbusy : syncBusy s h = true) :
    syncOffer s h = (sendSync s1 h 3 Blob.empty).modLinkCtr h fun k =>
      { k with notReadySent := k.notReadySent + 1 } := by
  have hr := received_of_takeSync htake
  simp [syncOffer, htake, hr.fabricReady_eq, hr.syncBusy_eq, hready, hbusy]

theorem syncOffer_accepted (hfree : fabricReady s = true ∨ syncBusy s h = false) :
    syncOffer s h = if (s.link h).sync = .running then s1 else sendRecords s1 h := by
  have hr := received_of_takeSync htake
  have hnot : ¬ (fabricReady s = false ∧ syncBusy s h = true) := by
    rintro ⟨hready, hbusy⟩
    simp [hready, hbusy] at hfree
  simp [syncOffer, htake, hr.fabricReady_eq, hr.syncBusy_eq, hr.sync_eq, hnot]

end

theorem syncOffer_idle {s : State} {h : Nat} (htake : takeSync s h 0 = none) : syncOffer s h = s := by
  simp [syncOffer, htake]

/-! ### SYNC_RECORDS (09 R361) -/

/-- The device's own records go out first where its offer was outstanding. -/
def answered (s s1 : State) (h : Nat) : State := if (s.link h).sync = .offered then sendRecords s1 h else s1

theorem fab_answered (s s1 : State) (h : Nat) : ∃ links, (answered s s1 h).fab = { s1.fab with links := links } := by
  unfold answered
  split
  · exact (Syncs.records_facts s1 h).2
  · exact ⟨s1.fab.links, rfl⟩

theorem sec_answered (s s1 : State) (h : Nat) : (answered s s1 h).sec = s1.sec := by
  unfold answered
  split
  · exact (touches_sendRecords s1 h).2 .sec (by decide)
  · rfl

theorem syncRecords_eq {s s1 : State} {h : Nat} {p : Pkt} (htake : takeSync s h 1 = some (p, s1)) :
    syncRecords s h = (blobRecords p.payload).foldl (fun u r => storeRecord u h r) (answered s s1 h) := by
  simp [syncRecords, htake, (received_of_takeSync htake).sync_eq, answered]

theorem syncRecords_idle {s : State} {h : Nat} (htake : takeSync s h 1 = none) : syncRecords s h = s := by
  simp [syncRecords, htake]

/-- What follows a fabric command leaves the database alone. -/
theorem lsdb_fabricStep (s : State) (f : State → State) : (fabricStep s f).fab.lsdb = (f s).fab.lsdb := by
  obtain ⟨links, tx, lost, hfab⟩ := (FS.fabricStep s f).fab
  rw [hfab]

/-- One record of another device: the newer one is kept. -/
theorem storeRecord_lsdb {s u : State} (h : Nat) {r : BitVec 1728} (hlsdb : u.fab.lsdb = s.fab.lsdb)
    (hsec : u.sec = s.sec) (hserial : recSerial r ≠ ownSerial s) :
    ((∃ o, tget s.fab.lsdb (recSerial r) = some o ∧ recNewer r o = true) ∨
        (tget s.fab.lsdb (recSerial r) = none ∧ s.fab.lsdb.length < 16384) →
      tget (storeRecord u h r).fab.lsdb (recSerial r) = some r) ∧
    (∀ o, tget s.fab.lsdb (recSerial r) = some o → recNewer r o = false → storeRecord u h r = u) ∧
    (tget s.fab.lsdb (recSerial r) = none → 16384 ≤ s.fab.lsdb.length →
      storeRecord u h r = u.modFab fun x => { x with lsdbOverflows := x.lsdbOverflows + 1 }) := by
  rw [← Syncs.serial_of hsec] at hserial
  obtain ⟨hstored, hold, hfull⟩ := Syncs.store_facts u h r hserial
  rw [hlsdb] at hstored hold hfull
  exact ⟨fun hnew => (hstored hnew).1, hold, hfull⟩

/-! ### SYNC_DONE (09 R354, R361) -/

/-- A view of a link that neither READY nor sending changes. -/
structure Steady {α : Type} (g : Link → α) : Prop where
  sends : ∀ a b, OnlySends a b → g b = g a
  ready : ∀ (l : Link) st grants, g { l with st := st, grants := grants } = g l

theorem steady_tryReady {α : Type} {g : Link → α} (hg : Steady g) (s : State) (k h : Nat) :
    g ((tryReady s k).link h) = g (s.link h) := by
  by_cases hk : h = k
  · subst hk
    obtain ⟨st, grants, hlink⟩ := Flits.tryReady_same s h
    rw [hg.sends _ _ hlink, hg.ready]
  · exact hg.sends _ _ (Flits.tryReady_ne s k h hk)

theorem steady_tryReadyAll {α : Type} {g : Link → α} (hg : Steady g) (s : State) (h : Nat) :
    g ((tryReadyAll s).link h) = g (s.link h) := by
  unfold tryReadyAll
  induction linkNumbers generalizing s with
  | nil => rfl
  | cons k ks ih => rw [List.foldl_cons, ih, steady_tryReady hg]

theorem steady_sync : Steady Link.sync :=
  ⟨fun a b hsends => by obtain ⟨tx, dropped, rfl⟩ := hsends; rfl, fun _ _ _ => rfl⟩

theorem steady_syncSent : Steady Link.syncSent :=
  ⟨fun a b hsends => by obtain ⟨tx, dropped, rfl⟩ := hsends; rfl, fun _ _ _ => rfl⟩

/-- A sync has ended on a link. -/
def ended (s s1 : State) (h : Nat) : State :=
  (answered s s1 h).modLink h fun l => { l with sync := .idle, syncSent := false }

/-- The next offer that waits. -/
def nextOffer (s : State) : Option Nat := linkNumbers.find? fun o => (s.link o).isUp && (s.link o).sync = .wanted

/-- The next offer that waits, if one does, is made. -/
def offerNext (s : State) : Option Nat → State
  | some o => offerSync s o
  | none => s

theorem syncDone_eq {s s1 : State} {h : Nat} {p : Pkt} (htake : takeSync s h 2 = some (p, s1)) :
    syncDone s h = tryReadyAll (offerNext (ended s s1 h) (nextOffer (ended s s1 h))) := by
  simp only [syncDone, htake, (received_of_takeSync htake).sync_eq]
  rfl

theorem syncDone_idle {s : State} {h : Nat} (htake : takeSync s h 2 = none) : syncDone s h = s := by
  simp [syncDone, htake]

theorem ended_self (s s1 : State) (h : Nat) :
    ((ended s s1 h).link h).sync = .idle ∧ ((ended s s1 h).link h).syncSent = false := by
  rw [ended, link_modLink_self]
  exact ⟨rfl, rfl⟩

theorem ended_other {s s1 : State} {h k : Nat} (hr : Received s s1 h) (hk : k ≠ h) :
    OnlySends (s.link k) ((ended s s1 h).link k) := by
  rw [ended, link_modLink_other _ _ _ _ hk, ← hr.others k hk, answered]
  split
  · exact Syncs.sendRecords_other s1 h k hk
  · exact .refl _

theorem nextOffer_ne {s s1 : State} {h o : Nat} (hnext : nextOffer (ended s s1 h) = some o) : h ≠ o := by
  rintro rfl
  have hwanted := List.find?_some hnext
  simp [(ended_self s s1 h).1] at hwanted

/-- The link on which the sync ended stays idle. -/
theorem syncDone_self {α : Type} {g : Link → α} (hg : Steady g) {s s1 : State} {h : Nat} {p : Pkt}
    (htake : takeSync s h 2 = some (p, s1)) :
    g ((fabricStep s fun s => syncDone s h).link h) = g ((ended s s1 h).link h) := by
  have hstep : g ((fabricStep s fun s => syncDone s h).link h) = g ((syncDone s h).link h) := hg.sends _ _ (FO s _ h)
  rw [hstep, syncDone_eq htake, steady_tryReadyAll hg]
  cases hnext : nextOffer (ended s s1 h) with
  | some o => exact hg.sends _ _ (offerSync_other _ (nextOffer_ne hnext))
  | none => rfl

/-- Where one link waits to offer and no other has a sync, it is the next and nothing holds its offer. -/
theorem nextOffer_only {s s1 : State} {h o : Nat} (hr : Received s s1 h) (ho : o < 16) (hne : o ≠ h)
    (hup : (s.link o).isUp = true) (hwanted : (s.link o).sync = .wanted)
    (hidle : ∀ k, k ≠ h → k ≠ o → (s.link k).sync = .idle) :
    nextOffer (ended s s1 h) = some o ∧ syncBusy (ended s s1 h) o = false := by
  have hidle' (k : Nat) (hk : k ≠ o) : ((ended s s1 h).link k).sync = .idle := by
    by_cases hkh : k = h
    · rw [hkh]
      exact (ended_self s s1 h).1
    · rw [steady_sync.sends _ _ (ended_other hr hkh)]
      exact hidle k hkh hk
  have hends := ended_other (s1 := s1) hr hne
  have hwants : (((ended s s1 h).link o).isUp && decide (((ended s s1 h).link o).sync = .wanted)) = true := by
    rw [steady_sync.sends _ _ hends, hwanted, Link.isUp, hends.st, ← Link.isUp, hup]
    rfl
  constructor
  · cases hnext : nextOffer (ended s s1 h) with
    | none => exact absurd hwants (List.find?_eq_none.1 hnext o (by simpa [linkNumbers] using ho))
    | some k =>
      by_contra hk
      have hwantsToo := List.find?_some hnext
      simp [hidle' k (fun heq => hk (congrArg some heq))] at hwantsToo
  · rw [syncBusy, List.any_eq_false]
    intro k _
    by_cases hk : k = o
    · simp [hk]
    · simp [hidle' k hk]

/-! ### SYNC_NOT_READY and SYNC_BACKOFF (09 R355) -/

/-- A link waits before it repeats its offer. -/
def backedOff (l : Link) : Link := { l with
  sync := .backoff, backoffK := l.backoffK + 1, ctr := { l.ctr with backoffs := l.ctr.backoffs + 1 } }

theorem syncNotReady_eq {s s1 : State} {h : Nat} {p : Pkt} (htake : takeSync s h 3 = some (p, s1)) :
    syncNotReady s h = if (s.link h).sync ≠ .offered then s1 else s1.modLink h backedOff := by
  simp only [syncNotReady, htake, (received_of_takeSync htake).sync_eq]
  rfl

theorem syncNotReady_idle {s : State} {h : Nat} (htake : takeSync s h 3 = none) : syncNotReady s h = s := by
  simp [syncNotReady, htake]

theorem syncBackoff_offers {s : State} {h : Nat} (hsync : (s.link h).sync = .backoff) :
    syncBackoff s h = offerSync s h := if_pos hsync

theorem syncBackoff_idle {s : State} {h : Nat} (hsync : (s.link h).sync ≠ .backoff) : syncBackoff s h = s :=
  if_neg hsync

end Sys2Proof.Laws.SyncRecords

namespace Sys2Proof.Claims

open Sys2Proof.Laws.LinkTraining Sys2Proof.Laws.SyncRecords in
/-- Settles O31. A packet taken changes its link's receive buffer alone (`Received`); an offer is `offerSync`, a HELLO of
another fabric `linkDown`, and the records go through `storeRecord` one by one. -/
theorem syncsExchangeRecords : Obligations.SyncsExchangeRecords := by
  unfold Obligations.SyncsExchangeRecords
  refine ⟨fun s s1 h p hh htake => ⟨fun hid => nxt (exec_hello hh s) ?_, fun hid => nxt (exec_hello hh s) ?_⟩,
    fun s s1 h p hh htake => ⟨fun hready hbusy => nxt (exec_syncOffer hh s) ?_,
      fun hfree => nxt (exec_syncOffer hh s) ?_⟩,
    fun s s1 h p hh htake => ⟨?_, fun r hone hserial => ?_⟩,
    fun s s1 h p hh htake => ⟨nxt (exec_syncDone hh s) ?_, fun o hne ho hup hwanted hidle =>
      nxt (exec_syncDone hh s) ?_⟩,
    fun s s1 h p hh htake => ⟨fun hoffered => nxt (exec_syncNotReady hh s) ?_,
      fun hoffered => nxt (exec_syncNotReady hh s) ?_⟩,
    fun s h hh => ⟨fun hsync => nxt (exec_syncBackoff hh s) ?_, fun hsync => ?_, fun htake => ?_, fun htake => ?_,
      fun htake => ?_, fun htake => ?_, fun htake => ?_⟩⟩
  · have hr := received_of_takePacket htake
    obtain ⟨rx, grants, hlink⟩ := hr.link
    obtain ⟨hwent, hst, -, ⟨dropped, hctr⟩, -, -, hwait⟩ :=
      wentDown _ s (hello · h) h (hello_mismatch htake hid)
    rw [Laws.link_modLink_self, hlink] at hst hctr hwait
    exact ⟨by rw [hst]; simp, hwait, hwent, by rw [hctr]⟩
  · have hr := received_of_takePacket htake
    obtain ⟨rx, grants, hlink⟩ := hr.link
    have hsends : OnlySends ((hello s h).link h) ((fabricStep s fun s => hello s h).link h) := FO s _ h
    obtain ⟨y, sent, hoffer, hoffers⟩ := offerSync_link (s1.modLink h fun l => greeted l p.payload) h
    rw [← hello_match htake hid, Laws.link_modLink_self, hlink] at hoffer
    obtain ⟨tx, dropped, hfinal⟩ := hoffer.trans hsends
    have hy : ((fabricStep s fun s => hello s h).link h).sync = y := by rw [hfinal]
    rw [← hy] at hoffers
    refine ⟨by rw [hfinal]; rfl, by rw [hfinal]; rfl, by rw [hfinal]; rfl, by rw [hfinal]; rfl,
      offers_congr (s1 := s1.modLink h fun l => greeted l p.payload)
      hr.accSt_eq (fun o ho => ?_) hoffers⟩
    rw [Laws.link_modLink_other _ _ _ _ ho, hr.others o ho]
  · have hr := received_of_takeSync htake
    obtain ⟨rx, grants, hlink⟩ := hr.link
    have hsends : OnlySends ((syncOffer s h).link h) ((fabricStep s fun s => syncOffer s h).link h) := FO s _ h
    obtain ⟨tx', dropped', hsent⟩ := (FS.sendMgmt s1 h 0xE 3 Blob.empty).links h
    rw [syncOffer_refused htake hready hbusy, Segments.link_modLinkCtr, sendSync, hsent, hlink] at hsends
    obtain ⟨tx, dropped, hfinal⟩ := hsends
    rw [hfinal]
    exact ⟨rfl, rfl⟩
  · have hr := received_of_takeSync htake
    obtain ⟨rx, grants, hlink⟩ := hr.link
    have hsends : OnlySends ((syncOffer s h).link h) ((fabricStep s fun s => syncOffer s h).link h) := FO s _ h
    rw [syncOffer_accepted htake hfree] at hsends
    by_cases hrunning : (s.link h).sync = .running
    · rw [if_pos hrunning, hlink] at hsends
      obtain ⟨tx, dropped, hfinal⟩ := hsends
      rw [hfinal]
      exact ⟨hrunning, rfl, fun hnot => absurd hrunning hnot, fun _ => ⟨rfl, rfl⟩⟩
    · rw [if_neg hrunning] at hsends
      obtain ⟨tx, dropped, hfinal⟩ := (Syncs.records_facts s1 h).1.trans hsends
      rw [hfinal, hlink]
      exact ⟨rfl, rfl, fun _ => ⟨rfl, rfl⟩, fun hyes => absurd hyes hrunning⟩
  · rw [exec_syncRecords hh]
    exact congrArg Host.Outcome.next (congrArg (fun u => hostStatus s (afterRecords s u)) (syncRecords_eq htake))
  · have hr := received_of_takeSync htake
    obtain ⟨links, hfab⟩ := fab_answered s s1 h
    have hlsdb : (answered s s1 h).fab.lsdb = s.fab.lsdb := by rw [hfab, ← hr.lsdb_eq]
    have hstore := storeRecord_lsdb h hlsdb ((sec_answered s s1 h).trans hr.sec) hserial
    obtain ⟨hstored, hold, -⟩ := hstore
    have hrecord : syncRecords s h = storeRecord (answered s s1 h) h r := by rw [syncRecords_eq htake, hone]; rfl
    refine ⟨fun hnew => nxt (exec_syncRecords hh s) ?_, fun o hsome hnewer => nxt (exec_syncRecords hh s) ?_⟩
    · rw [lsdb_fabricStep, hrecord]
      exact hstored hnew
    · rw [lsdb_fabricStep, hrecord, hold o hsome hnewer, hlsdb]
  · exact ⟨(syncDone_self steady_sync htake).trans (ended_self s s1 h).1,
      (syncDone_self steady_syncSent htake).trans (ended_self s s1 h).2⟩
  · have hr := received_of_takeSync htake
    obtain ⟨hnext, hbusy⟩ := nextOffer_only hr ho hne hup hwanted hidle
    have hstep : ((fabricStep s fun s => syncDone s h).link o).sync = ((syncDone s h).link o).sync :=
      steady_sync.sends _ _ (FO s _ o)
    obtain ⟨y, sent, hoffer, hoffers⟩ := offerSync_link (ended s s1 h) o
    rw [hstep, syncDone_eq htake, hnext, offerNext, steady_tryReadyAll steady_sync, steady_sync.sends _ _ hoffer]
    exact hoffers.1 (.inl hbusy)
  · have hr := received_of_takeSync htake
    obtain ⟨rx, grants, hlink⟩ := hr.link
    have hsends : OnlySends ((syncNotReady s h).link h) ((fabricStep s fun s => syncNotReady s h).link h) := FO s _ h
    rw [syncNotReady_eq htake, if_neg (not_not_intro hoffered), Laws.link_modLink_self, hlink] at hsends
    obtain ⟨tx, dropped, hfinal⟩ := hsends
    rw [hfinal]
    exact ⟨rfl, rfl, rfl⟩
  · have hr := received_of_takeSync htake
    obtain ⟨rx, grants, hlink⟩ := hr.link
    have hsends : OnlySends ((syncNotReady s h).link h) ((fabricStep s fun s => syncNotReady s h).link h) := FO s _ h
    rw [syncNotReady_eq htake, if_pos hoffered, hlink] at hsends
    obtain ⟨tx, dropped, hfinal⟩ := hsends
    rw [hfinal]
    exact ⟨rfl, rfl⟩
  · have hsends : OnlySends ((syncBackoff s h).link h) ((fabricStep s fun s => syncBackoff s h).link h) := FO s _ h
    obtain ⟨y, sent, hoffer, hoffers⟩ := offerSync_link s h
    rw [← syncBackoff_offers hsync] at hoffer
    obtain ⟨tx, dropped, hfinal⟩ := hoffer.trans hsends
    have hy : ((fabricStep s fun s => syncBackoff s h).link h).sync = y := by rw [hfinal]
    rw [← hy] at hoffers
    exact ⟨hoffers, by rw [hfinal]⟩
  · rw [exec_syncBackoff hh, fabricStep_of_id (f := (syncBackoff · h)) (syncBackoff_idle hsync)]
  · rw [exec_hello hh, fabricStep_of_id (f := (hello · h)) (hello_idle htake)]
  · rw [exec_syncOffer hh, fabricStep_of_id (f := (syncOffer · h)) (syncOffer_idle htake)]
  · rw [exec_syncRecords hh, fabricStep_of_id (f := (syncRecords · h)) (syncRecords_idle htake)]
  · rw [exec_syncDone hh, fabricStep_of_id (f := (syncDone · h)) (syncDone_idle htake)]
  · rw [exec_syncNotReady hh, fabricStep_of_id (f := (syncNotReady · h)) (syncNotReady_idle htake)]

end Sys2Proof.Claims
end

section
/-!
PROOF. Records and routes (O32): ACCESSION_SETTLE, LSR, LSDB_RECORD_EXPIRY, ROUTE_RECOMPUTE, PACKET_FORWARD.
-/

-- One declaration after another: side by side they need more threads than the memory of the check leaves room for.
set_option Elab.async false

open Sys2Proof Sys2Proof.Machine Sys2Proof.Claims Sys2Proof.Laws Sys2Proof.Laws.LinkTraining
  Sys2Proof.Laws.SyncRecords

namespace Sys2Proof.Laws.Routing

theorem exec_lsr {h : Nat} (hh : h < 16) (s : State) : exec (.lsr h) s = .next (fabricStep s fun s => lsr s h) :=
  withUnit_of (by simp [hh])

theorem exec_packetForward {h : Nat} (hh : h < 16) (s : State) :
    exec (.packetForward h) s = .next (packetForward s h) := withUnit_of (by simp [hh])

/-! ### ACCESSION_SETTLE (09 R359) -/

/-- The claim of two states is the same. -/
def SameClaim (s t : State) : Prop := t.fab.accSt = s.fab.accSt ∧ t.fab.acc = s.fab.acc

theorem sameClaim_refreshOwn (s : State) : SameClaim s (refreshOwn s) := by
  obtain ⟨links, seq, dirty, lsdb, hfab, -⟩ := Syncs.refreshOwn_fab s
  unfold SameClaim
  rw [hfab]
  exact ⟨rfl, rfl⟩

theorem sameClaim_tryReady (s : State) (h : Nat) : SameClaim s (tryReady s h) := by
  unfold tryReady
  dsimp only
  split
  · exact sameClaim_refreshOwn (s.modLink h _)
  · exact ⟨rfl, rfl⟩

theorem sameClaim_tryReadyAll (s : State) : SameClaim s (tryReadyAll s) := by
  unfold tryReadyAll
  induction linkNumbers generalizing s with
  | nil => exact ⟨rfl, rfl⟩
  | cons h hs ih =>
    obtain ⟨hst, hacc⟩ := sameClaim_tryReady s h
    obtain ⟨hst', hacc'⟩ := ih (tryReady s h)
    exact ⟨hst'.trans hst, hacc'.trans hacc⟩

theorem sameClaim_fabricStep (s : State) (f : State → State) : SameClaim (f s) (fabricStep s f) := by
  obtain ⟨links, tx, lost, hfab⟩ := (FS.fabricStep s f).fab
  unfold SameClaim
  rw [hfab]
  exact ⟨rfl, rfl⟩

theorem accessionSettle_done {s : State} (hclaiming : s.fab.accSt = .claiming) (hflooded : s.fab.flooded = true) :
    (accessionSettle s).fab.accSt = .done ∧ (accessionSettle s).fab.acc = s.fab.acc := by
  have hsettles : accessionSettle s = tryReadyAll (refreshOwn (s.modFab fun x => { x with accSt := .done })) := by
    simp [accessionSettle, hclaiming, hflooded]
  rw [hsettles]
  obtain ⟨hst, hacc⟩ := sameClaim_refreshOwn (s.modFab fun x => { x with accSt := .done })
  obtain ⟨hst', hacc'⟩ := sameClaim_tryReadyAll (refreshOwn (s.modFab fun x => { x with accSt := .done }))
  exact ⟨hst'.trans hst, hacc'.trans hacc⟩

theorem accessionSettle_idle {s : State} (hidle : s.fab.accSt ≠ .claiming ∨ s.fab.flooded = false) :
    accessionSettle s = s := if_neg (by simpa [imp_iff_not_or] using hidle)

/-! ### LSR and LSDB_RECORD_EXPIRY (09 R361, R362) -/

theorem lsr_eq {s s1 : State} {h : Nat} {p : Pkt} (htake : takePacket s h 0xD = some (p, s1)) :
    lsr s h = (blobRecords p.payload).foldl (fun u r => storeRecord u h r) s1 := by
  simp [lsr, htake]

theorem lsr_idle {s : State} {h : Nat} (htake : takePacket s h 0xD = none) : lsr s h = s := by
  simp [lsr, htake]

theorem storeRecord_own {s : State} {r : BitVec 1728} (hown : recSerial r = ownSerial s) (h : Nat) :
    storeRecord s h r = s := if_pos hown

theorem lsdbRecordExpiry_expires {s : State} {n : Nat} (hother : n ≠ ownSerial s)
    (hheld : (tget s.fab.lsdb n).isSome = true) (hreach : (reachable s).contains n = false) :
    lsdbRecordExpiry s n = s.modFab fun x => { x with lsdb := terase x.lsdb n, dirty := true } :=
  if_pos (by rw [hreach, hheld]; simpa using hother)

theorem lsdbRecordExpiry_idle {s : State} {n : Nat}
    (hidle : n = ownSerial s ∨ tget s.fab.lsdb n = none ∨ (reachable s).contains n = true) :
    lsdbRecordExpiry s n = s := by
  refine if_neg ?_
  rcases hidle with hown | hnone | hreach
  · simp [hown]
  · simp [hnone]
  · rw [hreach]
    simp

/-! ### ROUTE_RECOMPUTE (09 R366) -/

theorem routeRecompute_idle {s : State} (hdirty : s.fab.dirty = false) : routeRecompute s = s :=
  if_pos (by simp [hdirty])

/-! ### PACKET_FORWARD (09 R367) -/

/-- A packet has left the receive buffer of a link, and its room is returned. -/
def departed (s : State) (h vl : Nat) (p : Pkt) : State :=
  freeFlits (s.modLink h fun l => { l with rx := l.rx.erase (vl, p) }) h vl p

/-- The flits of room that a packet leaves to return; those of VL7 went back as they came in (09 R349). -/
def freedFlits (vl : Nat) (p : Pkt) : Nat := if vl = 7 then 0 else p.flitCount

/-- A packet as it leaves for its next hop. -/
def nextHop (p : Pkt) : Pkt :=
  ⟨BitVec.ofNat 256 (p.hdr.toNat - p.hop * 2 ^ 56 + (p.hop + 1) % 32 * 2 ^ 56), p.payload⟩

theorem departed_self (s : State) (h vl : Nat) (p : Pkt) : ∃ grants, (departed s h vl p).link h =
    { s.link h with rx := (s.link h).rx.erase (vl, p), grants := grants } ∧
    tgetD grants vl 0 = tgetD (s.link h).grants vl 0 + freedFlits vl p := by
  unfold departed freeFlits freedFlits
  split
  · exact ⟨(s.link h).grants, by rw [link_modLink_self], rfl⟩
  · exact ⟨tmod (s.link h).grants vl 0 (· + p.flitCount), by rw [link_modLink_self, link_modLink_self], by simp⟩

theorem departed_other (s : State) {h o : Nat} (vl : Nat) (p : Pkt) (ho : o ≠ h) :
    (departed s h vl p).link o = s.link o := by
  unfold departed freeFlits
  split
  · rw [link_modLink_other _ _ _ _ ho]
  · rw [link_modLink_other _ _ _ _ ho, link_modLink_other _ _ _ _ ho]

/-- A view that a departing packet does not change. -/
theorem departed_view {α : Type} (g : Link → α)
    (hg : ∀ (l : Link) rx grants, g { l with rx := rx, grants := grants } = g l)
    (s : State) (h vl : Nat) (p : Pkt) (o : Nat) : g ((departed s h vl p).link o) = g (s.link o) := by
  by_cases ho : o = h
  · obtain ⟨grants, hlink, -⟩ := departed_self s h vl p
    rw [ho, hlink, hg]
  · rw [departed_other s vl p ho]

section
variable {s : State} {h vl : Nat} {p : Pkt}
  (hfind : ((s.link h).rx.find? fun e => e.2.kind < 0xC && e.2.hop ≠ e.2.nhops) = some (vl, p))
include hfind

theorem packetForward_leaves (hready : (s.link (p.route p.hop)).st = .ready) : packetForward s h =
    enqueue (departed s h vl p) (p.route p.hop) (laneOf p.kind p.levelup p.hop) (nextHop p) := by
  unfold packetForward
  rw [hfind]
  refine if_neg (not_not_intro ?_)
  rw [← hready]
  exact departed_view Link.st (fun _ _ _ => rfl) s h vl p _

theorem packetForward_drops (hready : (s.link (p.route p.hop)).st ≠ .ready) : packetForward s h =
    (departed s h vl p).modLinkCtr (p.route p.hop) fun k => { k with droppedNoLink := k.droppedNoLink + 1 } := by
  unfold packetForward
  rw [hfind]
  refine if_pos ?_
  rwa [← departed_view Link.st (fun _ _ _ => rfl) s h vl p] at hready

end

theorem packetForward_idle {s : State} {h : Nat}
    (hfind : ((s.link h).rx.find? fun e => e.2.kind < 0xC && e.2.hop ≠ e.2.nhops) = none) : packetForward s h = s := by
  unfold packetForward
  rw [hfind]

theorem tx_enqueue (s : State) (o v : Nat) (p : Pkt) :
    tgetD ((enqueue s o v p).link o).tx v [] = tgetD (s.link o).tx v [] ++ p.flits := by
  rw [enqueue, link_modLink_self]
  exact tgetD_tmod_self (s.link o).tx v [] (· ++ p.flits)

/-- Sending a packet on leaves a link's receive buffer and the credits to return. -/
theorem received_of_onlySends {a b : Link} (hsends : OnlySends a b) : b.rx = a.rx ∧ b.grants = a.grants := by
  obtain ⟨tx, dropped, rfl⟩ := hsends
  exact ⟨rfl, rfl⟩

end Sys2Proof.Laws.Routing

namespace Sys2Proof.Claims

open Sys2Proof.Laws.LinkTraining Sys2Proof.Laws.SyncRecords Sys2Proof.Laws.Routing in
/-- Settles O32. Records go through `storeRecord`, of which `Syncs.store_facts` says every case; a recomputation keeps
what `Syncs.FR` lists; a packet in transit is `departed` from its link and then joins another, or counts. -/
theorem recordsAndRoutes : Obligations.RecordsAndRoutes := by
  unfold Obligations.RecordsAndRoutes
  refine ⟨fun s hclaiming hflooded => nxt rfl ?_, fun s s1 h p hh htake => ⟨?_, fun r hone hserial => ?_⟩,
    fun u h r => ⟨fun hown => storeRecord_own hown h, fun hserial => Syncs.store_facts u h r hserial⟩,
    fun s n hother hheld => ⟨fun hreach => nxt rfl ?_, fun hreach => nxt rfl ?_⟩,
    fun s hdirty => nxt rfl ?_, fun s h vl p hh hfind => ⟨fun hready => nxt (exec_packetForward hh s) ?_,
      fun hready => nxt (exec_packetForward hh s) ?_⟩,
    fun s => ⟨fun hidle => ?_, fun h hh htake => ?_, fun n hidle => ?_, fun hdirty => ?_, fun h hh hfind => ?_⟩⟩
  · obtain ⟨hst, hacc⟩ := sameClaim_fabricStep s accessionSettle
    obtain ⟨hst', hacc'⟩ := accessionSettle_done hclaiming hflooded
    exact ⟨hst.trans hst', hacc.trans hacc'⟩
  · rw [exec_lsr hh]
    exact congrArg Host.Outcome.next (congrArg (fun u => hostStatus s (afterRecords s u)) (lsr_eq htake))
  · have hr := received_of_takePacket htake
    obtain ⟨links, hfab⟩ := hr.fab
    obtain ⟨hstored, hold, hfull⟩ := storeRecord_lsdb h hr.lsdb_eq hr.sec hserial
    have hrecord : lsr s h = storeRecord s1 h r := by rw [lsr_eq htake, hone]; rfl
    refine ⟨fun hnew => nxt (exec_lsr hh s) ?_, fun o hsome hnewer => nxt (exec_lsr hh s) ?_,
      fun hnone hlen => nxt (exec_lsr hh s) ?_⟩
    · rw [lsdb_fabricStep, hrecord]
      exact hstored hnew
    · rw [lsdb_fabricStep, hrecord, hold o hsome hnewer, hr.lsdb_eq]
    · obtain ⟨links', tx, lost, hstep⟩ := (FS.fabricStep s fun s => lsr s h).fab
      rw [hstep, hrecord, hfull hnone hlen]
      simp only [State.modFab, hfab]
      exact ⟨trivial, trivial⟩
  · obtain ⟨links, tx, lost, hstep⟩ := (FS.fabricStep s fun s => lsdbRecordExpiry s n).fab
    rw [hstep, lsdbRecordExpiry_expires hother hheld hreach]
    exact ⟨rfl, rfl⟩
  · rw [lsdb_fabricStep, lsdbRecordExpiry_idle (.inr (.inr hreach))]
  · obtain ⟨hroutes, hclean, hcount, hlsdb⟩ := (Syncs.route_facts s hdirty).trans (Syncs.FR.orphan _)
    exact ⟨hroutes, hclean, hcount, hlsdb⟩
  · rw [packetForward_leaves hfind hready]
    obtain ⟨grants, hlink, hfreed⟩ := departed_self s h vl p
    obtain ⟨hrx, hgrants⟩ := received_of_onlySends
      ((FS.enqueue (departed s h vl p) (p.route p.hop) (laneOf p.kind p.levelup p.hop) (nextHop p)).links h)
    rw [hrx, hgrants, hlink]
    refine ⟨?_, rfl, hfreed⟩
    rw [tx_enqueue, departed_view Link.tx (fun _ _ _ => rfl) s h vl p]
    rfl
  · rw [packetForward_drops hfind hready]
    obtain ⟨grants, hlink, hfreed⟩ := departed_self s h vl p
    obtain ⟨hrx, hgrants⟩ := received_of_onlySends ((FS.dropped (departed s h vl p) (p.route p.hop)).links h)
    rw [hrx, hgrants, hlink, Segments.link_modLinkCtr]
    refine ⟨?_, departed_view Link.tx (fun _ _ _ => rfl) s h vl p _, rfl, hfreed⟩
    rw [← departed_view (fun l => l.ctr.droppedNoLink) (fun _ _ _ => rfl) s h vl p]
  · exact congrArg Host.Outcome.next (fabricStep_of_id (accessionSettle_idle hidle))
  · rw [exec_lsr hh, fabricStep_of_id (f := (lsr · h)) (lsr_idle htake)]
  · exact congrArg Host.Outcome.next (fabricStep_of_id (f := (lsdbRecordExpiry · n))
      (lsdbRecordExpiry_idle (hidle.imp_right .inl)))
  · exact congrArg (fun u => Host.Outcome.next (orphanSessions u)) (routeRecompute_idle hdirty)
  · rw [exec_packetForward hh, packetForward_idle hfind]

end Sys2Proof.Claims
end

section
/-!
PROOF. Flits (O29): what a slot of a link carries (FLIT_SLOT), and what a flit received does (FLIT_IDLE, FLIT_DATA).
-/

-- One declaration after another: side by side they need more threads than the memory of the check leaves room for.
set_option Elab.async false

open Sys2Proof Sys2Proof.Machine Sys2Proof.Claims Sys2Proof.Laws Sys2Proof.Laws.LinkTraining
  Sys2Proof.Laws.SyncRecords

namespace Sys2Proof.Laws.FlitSlots

section
variable {h : Nat} (hh : h < 16) (s : State)
include hh

theorem exec_flitSlot : exec (.flitSlot h) s = .next (flitSlot s h) := withUnit_of (by simp [hh])

theorem exec_flitIdle (f : Flit) (n : Nat) (fec : Fec) :
    exec (.flitIdle h f n fec) s = .next (fabricStep s fun s => flitIdle s h f n fec) := withUnit_of (by simp [hh])

theorem exec_flitData (f : Flit) (n : Nat) (fec : Fec) :
    exec (.flitData h f n fec) s = .next (fabricStep s fun s => flitData s h f n fec) := withUnit_of (by simp [hh])

end

/-! ### Keying and leaving links (09 R345, R351; 14 R542) -/

/-- The data of the next fragment of a key message. -/
def keyBody (s : State) (h m : Nat) : Nat :=
  let b := keyMessage s h m
  let n := keyFragments b
  let i := (s.link h).frag % n
  let d := b.slice (240 * i) (min 240 (b.len - 240 * i))
  packFields [(m, 8), (i, 8), (n, 8), (d.len, 16), (0, 24), (d.val, 1920)]

/-- The next KEY flit of a message. -/
def keyFlit (s : State) (h m : Nat) : Flit :=
  ⟨linkHeader 0 0 false 0 2 (lstate s h) 0 0 false, BitVec.ofNat 1856 (keyBody s h m),
    BitVec.ofNat 128 (keyBody s h m / 2 ^ 1856)⟩

/-- The fragment that follows: after the last one the message begins again. -/
def nextFragment (s : State) (h m : Nat) : Nat :=
  ((s.link h).frag % keyFragments (keyMessage s h m) + 1) % keyFragments (keyMessage s h m)

theorem sendKey_link (s : State) (h m : Nat) :
    (sendKey s h m).link h = Link.send { s.link h with frag := nextFragment s h m } (keyFlit s h m) ∧
      OneLink s (sendKey s h m) h := Flits.sendKey_facts s h m

/-- A KEY flit has left, and the next fragment is due. -/
theorem keySent (s : State) (h m : Nat) : Sent (s.link h) (keyFlit s h m) ((sendKey s h m).link h) ∧
    ((sendKey s h m).link h).frag = nextFragment s h m ∧ OneLink s (sendKey s h m) h := by
  obtain ⟨hlink, hone⟩ := sendKey_link s h m
  refine ⟨?_, ?_, hone⟩
  · rw [hlink]
    exact Flits.sent_send _ { s.link h with frag := nextFragment s h m } _ rfl rfl rfl
  · rw [hlink]
    rfl

/-- An ABORT has left, and one less is due. -/
theorem abortSent (s : State) (h : Nat) :
    let t := (sendKey s h 3).modLink h fun l => { l with aborts := l.aborts - 1 }
    Sent (s.link h) (keyFlit s h 3) (t.link h) ∧ (t.link h).frag = nextFragment s h 3 ∧ OneLink s t h ∧
      (t.link h).aborts = (s.link h).aborts - 1 := by
  obtain ⟨hsent, hfrag, hone⟩ := keySent s h 3
  dsimp only
  rw [link_modLink_self]
  refine ⟨hsent, hfrag, hone.trans (OneLink.mod _ _ _), ?_⟩
  rw [(sendKey_link s h 3).1]
  rfl

theorem flitSlot_leaving {s : State} {h : Nat} (hleaving : 0 < (s.link h).leaving) (hup : (s.link h).isUp = true) :
    flitSlot s h = (sendIdle s h).modLink h fun l => { l with leaving := l.leaving - 1 } :=
  if_pos (by simp [hleaving, hup])

theorem flitSlot_aborting {s : State} {h : Nat} (hstays : (s.link h).leaving = 0 ∨ (s.link h).isUp = false)
    (haborts : 0 < (s.link h).aborts) :
    flitSlot s h = (sendKey s h 3).modLink h fun l => { l with aborts := l.aborts - 1 } := by
  unfold flitSlot
  dsimp only
  rw [if_neg (by rcases hstays with hzero | hdown <;> simp [*]), if_pos haborts]

theorem flitSlot_keying {s : State} {h : Nat} (haborts : (s.link h).aborts = 0) (hkeying : (s.link h).st = .keying) :
    flitSlot s h = sendKey s h (if (s.link h).confirming then 2 else 1) := by
  simp [flitSlot, Link.isUp, haborts, hkeying]

theorem flitSlot_off {s : State} {h : Nat} (haborts : (s.link h).aborts = 0) (hst : (s.link h).st ≠ .keying)
    (hdown : (s.link h).isUp = false) : flitSlot s h = s := by
  simp [flitSlot, haborts, hst, hdown]

/-! ### IDLE flits (09 R344, R347) -/

/-- The IDLE flit that a link sends now, with an LSTATE. -/
def idleFlit (s : State) (h lst : Nat) : Flit :=
  sealFlit s h true (s.link h).idles (linkHeader 0 (s.link h).rxSeq (s.link h).nak 0 0 lst (grantOf (s.link h)).1
    (grantOf (s.link h)).2 false) 0

/-- A link that has sent an IDLE flit. -/
def idledLink (l : Link) : Link :=
  { l with idles := l.idles + 1, grants := tmod l.grants (grantOf l).1 0 (· - (grantOf l).2) }

/-- LSTATE of a link that does not leave. -/
def openState (s : State) : Nat := if fabricReady s then 1 else 0

/-- A link that is up has begun a slot: it has counted its waits, and its replay may have ended. -/
structure SlotBegun (s s1 : State) (h : Nat) (c : LinkCtr) (replay : Option Nat) : Prop where
  link : s1.link h = { s.link h with ctr := c, replay := replay }
  one : OneLink s s1 h
  views : ∀ k, (s1.link k).st = (s.link k).st ∧ (s1.link k).sync = (s.link k).sync
  acc : s1.fab.accSt = s.fab.accSt

namespace SlotBegun

theorem refl (s : State) (h : Nat) : SlotBegun s s h (s.link h).ctr (s.link h).replay :=
  ⟨rfl, ⟨fun _ _ => rfl, rfl⟩, fun _ => ⟨rfl, rfl⟩, rfl⟩

variable {s s1 : State} {h : Nat} {c : LinkCtr} {replay : Option Nat} (hb : SlotBegun s s1 h c replay)
include hb

theorem endReplay : SlotBegun s (s1.modLink h fun l => { l with replay := none }) h c none := by
  refine ⟨by rw [link_modLink_self, hb.link], hb.one.trans (OneLink.mod _ _ _), fun k => ?_, hb.acc⟩
  by_cases hk : k = h
  · rw [hk, link_modLink_self]
    exact hb.views h
  · rw [link_modLink_other _ _ _ _ hk]
    exact hb.views k

theorem lstate_eq : lstate s1 h = lstate s h :=
  Flits.lstate_of hb.acc hb.views (by rw [hb.link])

theorem lstate_open (hstays : (s.link h).leaving = 0) : lstate s1 h = openState s := by
  rw [hb.lstate_eq]
  exact if_neg (by omega)

/-- An IDLE flit leaves in the slot. -/
theorem sendIdle_link : (sendIdle s1 h).link h =
    Link.send (idledLink { s.link h with ctr := c, replay := replay }) (idleFlit s h (lstate s1 h)) ∧
      OneLink s (sendIdle s1 h) h := by
  obtain ⟨hlink, hone⟩ := Flits.sendIdle_facts s s1 h _ hb.link hb.one.2 rfl
  exact ⟨hlink, hb.one.trans hone⟩

theorem sent_sendIdle : Sent (s.link h) (idleFlit s h (lstate s1 h)) ((sendIdle s1 h).link h) := by
  rw [hb.sendIdle_link.1]
  exact Flits.sent_send _ _ _ rfl rfl rfl

theorem sent_openIdle (hstays : (s.link h).leaving = 0) :
    Sent (s.link h) (idleFlit s h (openState s)) ((sendIdle s1 h).link h) ∧ OneLink s (sendIdle s1 h) h := by
  rw [← hb.lstate_open hstays]
  exact ⟨hb.sent_sendIdle, hb.sendIdle_link.2⟩

/-- Nothing but an IDLE flit has left: what the link holds, sends and may send is as it was. -/
theorem sendIdle_keeps : ((sendIdle s1 h).link h).held = (s.link h).held ∧
    ((sendIdle s1 h).link h).tx = (s.link h).tx ∧ ((sendIdle s1 h).link h).credits = (s.link h).credits ∧
    ((sendIdle s1 h).link h).txSeq = (s.link h).txSeq ∧ ((sendIdle s1 h).link h).replay = replay ∧
    ((sendIdle s1 h).link h).idles = (s.link h).idles + 1 ∧ ((sendIdle s1 h).link h).ctr = c ∧
    ((sendIdle s1 h).link h).leaving = (s.link h).leaving := by
  rw [hb.sendIdle_link.1]
  exact ⟨rfl, rfl, rfl, rfl, rfl, rfl, rfl, rfl⟩

end SlotBegun

/-! ### Replays (09 R346, R347) -/

/-- A link that sends the held flit at place `i` again. -/
def replayedLink (l : Link) (c : LinkCtr) (i : Nat) : Link := { l with
  held := l.held.modify i fun x => { x with replays := x.replays + 1 }
  replay := if i + 1 < l.held.length then some (i + 1) else none
  ctr := { c with flitsReplayed := c.flitsReplayed + 1 } }

/-- A link whose flit has been replayed for the sixteenth time. -/
def exhaustedLink (l : Link) (c : LinkCtr) (i : Nat) (f : Flit) : Link :=
  { (replayedLink l c i).send f with
    ctr := { c with flitsReplayed := c.flitsReplayed + 1, retryExhausted := c.retryExhausted + 1 } }

section
variable {s s1 : State} {h : Nat} {c : LinkCtr} {i : Nat} {f : HeldFlit} (hb : SlotBegun s s1 h c (some i))
include hb

theorem sendReplay_again (hleft : f.replays + 1 ≠ 16) :
    sendReplay s1 h i f = s1.setLink h ((replayedLink (s.link h) c i).send f.flit) := by
  unfold sendReplay
  simp only [hb.link, List.length_modify]
  exact if_neg hleft

theorem sendReplay_last (hlast : f.replays + 1 = 16) :
    sendReplay s1 h i f = linkDown (s1.setLink h (exhaustedLink (s.link h) c i f.flit)) h := by
  unfold sendReplay
  simp only [hb.link, List.length_modify]
  exact if_pos hlast

end

/-! ### DATA flits sent (09 R344 to R348) -/

/-- The DATA flit that a link sends for the first time on a lane. -/
def dataFlit (s : State) (h v lst : Nat) (b : FlitBody) : Flit :=
  sealFlit s h false (s.link h).datas (linkHeader (((s.link h).txSeq + 1) % 4096) (s.link h).rxSeq (s.link h).nak v 1
    lst (grantOf (s.link h)).1 (grantOf (s.link h)).2 b.first) b.body

section
variable {s s1 : State} {h v : Nat} {c : LinkCtr} {replay : Option Nat} {b : FlitBody} {r : List FlitBody}
  (hb : SlotBegun s s1 h c replay) (hstays : (s.link h).leaving = 0) (htx : tgetD (s.link h).tx v [] = b :: r)
include hb hstays htx

/-- A DATA flit has left for the first time: it is held, and its lane has one flit and one credit less. -/
theorem sendData_facts : let t := (sendData s1 h v).link h
    let f := dataFlit s h v (openState s) b
    Sent (s.link h) f t ∧ OneLink s (sendData s1 h v) h ∧
      t.held = (s.link h).held ++ [⟨((s.link h).txSeq + 1) % 4096, f, 0⟩] ∧ tgetD t.tx v [] = r ∧
      tgetD t.credits v 0 = tgetD (s.link h).credits v 0 - 1 ∧ t.txSeq = ((s.link h).txSeq + 1) % 4096 ∧
      t.datas = (s.link h).datas + 1 ∧ t.idles = (s.link h).idles := by
  have hpeer : (s1.link h).peerSerial = (s.link h).peerSerial := by rw [hb.link]
  intro t f
  have hsent : sendData s1 h v = s1.setLink h (Link.send { s.link h with
      ctr := c, replay := replay
      tx := tset (s.link h).tx v r
      credits := tmod (s.link h).credits v 0 (· - 1)
      txSeq := ((s.link h).txSeq + 1) % 4096
      datas := (s.link h).datas + 1
      grants := tmod (s.link h).grants (grantOf (s.link h)).1 0 (· - (grantOf (s.link h)).2)
      turn :=
        let cls := (laneClasses.find? fun vs => vs.contains v).getD []
        tset (s.link h).turn (cls.headD 0) (if cls.length = 2 && v = cls.headD 0 then 1 else 0)
      held := (s.link h).held ++ [⟨((s.link h).txSeq + 1) % 4096, f, 0⟩] } f) := by
    unfold sendData
    simp only [hb.link, htx, Flits.seal_of hb.one.2 hpeer, hb.lstate_open hstays]
    rfl
  have ht : t = _ := congrArg (State.link · h) hsent
  rw [setLink_self] at ht
  rw [ht]
  refine ⟨Flits.sent_send _ _ _ rfl rfl rfl, ?_, rfl, tgetD_tset_self _ _ _ _, ?_, rfl, rfl, rfl⟩
  · rw [hsent]
    exact hb.one.trans (OneLink.set _ _ _)
  · exact tgetD_tmod_self (s.link h).credits v 0 (· - 1)

end

/-! ### The slot of a link that is up (09 R345) -/

section
variable {s : State} {h : Nat} (hstays : (s.link h).leaving = 0) (haborts : (s.link h).aborts = 0)
  (hup : (s.link h).isUp = true)
include hstays haborts hup

theorem flitSlot_replay {i : Nat} (hreplay : (s.link h).replay = some i) : ∃ s1 c, SlotBegun s s1 h c (some i) ∧
    c.flitsReplayed = (s.link h).ctr.flitsReplayed ∧ c.retryExhausted = (s.link h).ctr.retryExhausted ∧
    (∀ f, (s.link h).held[i]? = some f → flitSlot s h = sendReplay s1 h i f) ∧
    ((s.link h).held[i]? = none →
      flitSlot s h = sendIdle (s1.modLink h fun l => { l with replay := none }) h) := by
  obtain ⟨s1, c, hlink, hreplayed, hexhausted, -, hone, hviews, hacc, hrun⟩ := Flits.slot_run s h hstays haborts hup
  refine ⟨s1, c, ⟨by rw [hlink, ← hreplay], hone, hviews, hacc⟩, hreplayed, hexhausted, fun f hf => ?_, fun hnone => ?_⟩
  · simp only [hrun, hreplay, hf]
  · simp only [hrun, hreplay, hnone]

theorem flitSlot_fresh (hreplay : (s.link h).replay = none) : ∃ s1 c, SlotBegun s s1 h c none ∧
    (2048 ≤ (s.link h).held.length → flitSlot s h = sendIdle s1 h ∧
      c.replayFull = (s.link h).ctr.replayFull + BitVec.ofNat 48 (slotCycles (s.link h))) ∧
    ((s.link h).held.length < 2048 → ∀ v, nextLane (s.link h) = some v → flitSlot s h = sendData s1 h v) ∧
    ((s.link h).held.length < 2048 → nextLane (s.link h) = none → flitSlot s h = sendIdle s1 h) := by
  obtain ⟨s1, c, hlink, -, -, hfull, hone, hviews, hacc, hrun⟩ := Flits.slot_run s h hstays haborts hup
  refine ⟨s1, c, ⟨by rw [hlink, ← hreplay], hone, hviews, hacc⟩, fun hlen => ⟨?_, hfull hlen⟩, fun hlen v hv => ?_,
    fun hlen hv => ?_⟩
  · simp only [hrun, hreplay, ge_iff_le, hlen, decide_true, if_true]
  · simp only [hrun, hreplay, hv, ge_iff_le, Nat.not_le.2 hlen, decide_false, Bool.false_eq_true, if_false]
  · simp only [hrun, hreplay, hv, ge_iff_le, Nat.not_le.2 hlen, decide_false, Bool.false_eq_true, if_false]

end

/-! ### Flits received (09 R343, R346 to R348) -/

/-- A link that has counted the codewords that its decoder met. -/
def fecLink (l : Link) (fec : Fec) : Link := { l with ctr := { l.ctr with
  fecCorrected := l.ctr.fecCorrected + BitVec.ofNat 48 fec.corrected
  fecUncorrectable := l.ctr.fecUncorrectable + BitVec.ofNat 48 fec.uncorrectable } }

theorem link_countFec (s : State) (h : Nat) (fec : Fec) : (countFec s h fec).link h = fecLink (s.link h) fec :=
  Flits.countFec_link s h fec

/-- The counters of a link that a flit received may change. -/
def flitCounts (l : Link) : BitVec 48 × BitVec 48 × BitVec 32 :=
  (l.ctr.fecCorrected, l.ctr.fecUncorrectable, l.ctr.tagFailures)

theorem flitCounts_of_onlySends {a b : Link} (hsends : OnlySends a b) : flitCounts b = flitCounts a := by
  obtain ⟨tx, dropped, rfl⟩ := hsends
  rfl

theorem steady_flitCounts : Steady flitCounts := ⟨fun _ _ => flitCounts_of_onlySends, fun _ _ _ => rfl⟩

theorem flitCounts_linkDown (s : State) (h : Nat) : flitCounts ((linkDown s h).link h) = flitCounts (s.link h) :=
  (flitCounts_of_onlySends (linkDown_link s h)).trans rfl

/-- Taking the fields of a flit counts nothing. -/
theorem flitCounts_took (l : Link) (hdr : BitVec 64) : flitCounts (Flits.took l hdr) = flitCounts l := by
  obtain ⟨-, -, -, -, -, hctr, -⟩ := Flits.took_facts l l.ctr hdr
  unfold flitCounts
  rw [hctr]

/-! ### FLIT_IDLE (09 R347, R351) -/

section
variable {s : State} {h : Nat} (n : Nat) (f : Flit) (fec : Fec) (hup : (s.link h).isUp = true)
include hup

theorem flitIdle_unsound (hsound : (openFlit s h true n f fec).isSome = false) : flitIdle s h f n fec =
    (countFec s h fec).modLinkCtr h fun k => { k with tagFailures := k.tagFailures + 1 } := by
  rw [Flits.idle_run s h n f fec hup]
  exact if_pos (by simpa using hsound)

variable {n f fec} (hsound : (openFlit s h true n f fec).isSome = true)
include hsound

theorem flitIdle_leaving (hleaving : hdrBits f.hdr 30 2 = 2) : flitIdle s h f n fec =
    linkDown ((countFec s h fec).setLink h (Flits.took (fecLink (s.link h) fec) f.hdr)) h := by
  rw [Flits.idle_run s h n f fec hup, link_countFec,
    if_neg (by simp [Option.isNone_iff_eq_none, Option.isSome_iff_ne_none.1 hsound])]
  exact if_pos hleaving

theorem flitIdle_taken (hstays : hdrBits f.hdr 30 2 ≠ 2) : flitIdle s h f n fec =
    tryReady ((countFec s h fec).setLink h (Flits.took (fecLink (s.link h) fec) f.hdr)) h := by
  rw [Flits.idle_run s h n f fec hup, link_countFec,
    if_neg (by simp [Option.isNone_iff_eq_none, Option.isSome_iff_ne_none.1 hsound])]
  exact if_neg hstays

end

/-- The counts of a link once its decoder has met a flit, of which some tags have failed. -/
def countsAfter (l : Link) (fec : Fec) (failures : BitVec 32) : BitVec 48 × BitVec 48 × BitVec 32 :=
  (l.ctr.fecCorrected + BitVec.ofNat 48 fec.corrected, l.ctr.fecUncorrectable + BitVec.ofNat 48 fec.uncorrectable,
    l.ctr.tagFailures + failures)

theorem flitCounts_fecLink (l : Link) (fec : Fec) : flitCounts (fecLink l fec) = countsAfter l fec 0 := by
  simp [flitCounts, fecLink, countsAfter]

theorem flitCounts_tagFailed (s : State) (h : Nat) (fec : Fec) :
    flitCounts (((countFec s h fec).modLinkCtr h fun k => { k with tagFailures := k.tagFailures + 1 }).link h) =
      countsAfter (s.link h) fec 1 := by
  rw [Segments.link_modLinkCtr, link_countFec]
  rfl

/-- An IDLE flit counts its codewords, and its tag where it fails. -/
theorem flitCounts_flitIdle {s : State} {h : Nat} (n : Nat) (f : Flit) (fec : Fec) (hup : (s.link h).isUp = true) :
    flitCounts ((flitIdle s h f n fec).link h) =
      countsAfter (s.link h) fec (if (openFlit s h true n f fec).isSome then 0 else 1) := by
  cases hsound : (openFlit s h true n f fec).isSome with
  | false =>
    rw [flitIdle_unsound n f fec hup hsound]
    exact flitCounts_tagFailed s h fec
  | true =>
    by_cases hleaving : hdrBits f.hdr 30 2 = 2
    · rw [flitIdle_leaving hup hsound hleaving, flitCounts_linkDown, setLink_self, flitCounts_took]
      exact flitCounts_fecLink _ _
    · rw [flitIdle_taken hup hsound hleaving, steady_tryReady steady_flitCounts, setLink_self, flitCounts_took]
      exact flitCounts_fecLink _ _

/-- What the fields of a flit act on: what is held and since when, the replay under way, the credits and LSTATE. -/
def takenView (l : Link) : List HeldFlit × Nat × Option Nat × Tbl Nat × Bool :=
  (l.held, l.acked, l.replay, l.credits, l.peerReady)

theorem steady_takenView : Steady takenView :=
  ⟨fun _ _ hsends => by obtain ⟨tx, dropped, rfl⟩ := hsends; rfl, fun _ _ _ => rfl⟩

/-! ### FLIT_DATA (09 R346 to R348, R367) -/

/-- The flits of a lane's packet with one more. -/
def joined (l : Link) (hdr : BitVec 64) (body : BitVec 1856) : List FlitBody :=
  (if bit hdr.toNat 47 then [] else tgetD l.asm (hdrBits hdr 25 3) []) ++ [⟨bit hdr.toNat 47, body⟩]

/-- A link that has accepted a DATA flit, with the flits that its lane now keeps. -/
def acceptedLink (l : Link) (hdr : BitVec 64) (kept : List FlitBody) : Link :=
  let t := Flits.took l hdr
  { t with
    rxSeq := hdrBits hdr 0 12
    nak := false
    grants := if hdrBits hdr 25 3 = 7 then tmod t.grants 7 0 (· + 1) else t.grants
    asm := tset t.asm (hdrBits hdr 25 3) kept }

/-- The flits that a lane keeps: none once they have made a packet. -/
def keptFlits (fs : List FlitBody) : Option Pkt → List FlitBody
  | some _ => []
  | none => fs

/-- The flits of a lane make a packet, which arrives, or wait for more. -/
def arrived (s : State) (h : Nat) (l : Link) (hdr : BitVec 64) (fs : List FlitBody) : Option Pkt → State
  | some p => packetIn (tryReady (s.setLink h (acceptedLink l hdr [])) h) h (hdrBits hdr 25 3) p
  | none => tryReady (s.setLink h (acceptedLink l hdr fs)) h

theorem asm_took (l : Link) (hdr : BitVec 64) : (Flits.took l hdr).asm = l.asm := by
  obtain ⟨-, -, -, -, -, -, hasm, -⟩ := Flits.took_facts l l.ctr hdr
  exact hasm

/-- A view that neither READY nor a packet's arrival changes. -/
theorem arrived_view {α : Type} {g : Link → α} (hg : Steady g) (hrx : ∀ (l : Link) rx, g { l with rx := rx } = g l)
    (s : State) (h : Nat) (l : Link) (hdr : BitVec 64) (fs : List FlitBody) (whole : Option Pkt) :
    g ((arrived s h l hdr fs whole).link h) = g (acceptedLink l hdr (keptFlits fs whole)) := by
  cases whole with
  | none =>
    rw [arrived, steady_tryReady hg, setLink_self]
    rfl
  | some p =>
    rw [arrived, Flits.packetIn_keeps g (fun l st grants rx => (hg.ready { l with rx := rx } st grants).trans (hrx l rx))
      hg.sends, setLink_self]
    rfl

section
variable {s : State} {h : Nat} (n : Nat) (f : Flit) (fec : Fec) (hup : (s.link h).isUp = true)
include hup

theorem flitData_unsound (hopen : openFlit s h false n f fec = none) : flitData s h f n fec =
    (countFec s h fec).modLinkCtr h fun k => { k with tagFailures := k.tagFailures + 1 } := by
  rw [Flits.data_run s h n f fec hup, hopen]

variable {n f fec} {body : BitVec 1856} (hopen : openFlit s h false n f fec = some body)
include hopen

theorem flitData_leaving (hleaving : hdrBits f.hdr 30 2 = 2) :
    flitData s h f n fec = linkDown (countFec s h fec) h := by
  rw [Flits.data_run s h n f fec hup, hopen]
  exact if_pos hleaving

variable (hstays : hdrBits f.hdr 30 2 ≠ 2)
include hstays

theorem flitData_outOfSequence (hseq : hdrBits f.hdr 0 12 ≠ ((s.link h).rxSeq + 1) % 4096) :
    flitData s h f n fec = (countFec s h fec).setLink h { fecLink (s.link h) fec with nak := true } := by
  rw [Flits.data_run s h n f fec hup, hopen, link_countFec]
  exact (if_neg hstays).trans (if_pos hseq)

variable (hseq : hdrBits f.hdr 0 12 = ((s.link h).rxSeq + 1) % 4096)
include hseq

theorem flitData_inSequence : flitData s h f n fec =
    arrived (countFec s h fec) h (fecLink (s.link h) fec) f.hdr (joined (s.link h) f.hdr body)
      (assembled (joined (s.link h) f.hdr body)) := by
  have hasm : (Flits.took (fecLink (s.link h) fec) f.hdr).asm = (s.link h).asm := asm_took _ _
  rw [Flits.data_run s h n f fec hup, hopen, link_countFec]
  refine ((if_neg hstays).trans (if_neg (not_not_intro hseq))).trans ?_
  simp only [joined, ← hasm]
  rfl

end

/-- A DATA flit counts its codewords, whatever becomes of it. -/
theorem fecCounts_flitData {s : State} {h : Nat} (n : Nat) (f : Flit) (fec : Fec) (hup : (s.link h).isUp = true) :
    ∃ failures, flitCounts ((flitData s h f n fec).link h) = countsAfter (s.link h) fec failures := by
  cases hopen : openFlit s h false n f fec with
  | none =>
    rw [flitData_unsound n f fec hup hopen]
    exact ⟨1, flitCounts_tagFailed s h fec⟩
  | some body =>
    refine ⟨0, (?_ : _ = flitCounts (fecLink (s.link h) fec)).trans (flitCounts_fecLink _ _)⟩
    by_cases hleaving : hdrBits f.hdr 30 2 = 2
    · rw [flitData_leaving hup hopen hleaving, flitCounts_linkDown, link_countFec]
    by_cases hseq : hdrBits f.hdr 0 12 = ((s.link h).rxSeq + 1) % 4096
    · rw [flitData_inSequence hup hopen hleaving hseq,
        arrived_view steady_flitCounts (fun _ _ => rfl)]
      exact flitCounts_took (fecLink (s.link h) fec) f.hdr
    · rw [flitData_outOfSequence hup hopen hleaving hseq, setLink_self]
      rfl

/-- The sequence of a link, its NAK, its credits and the flits of its lanes. -/
def sequenceView (l : Link) : Nat × Bool × Tbl Nat × Tbl (List FlitBody) := (l.rxSeq, l.nak, l.credits, l.asm)

theorem steady_sequenceView : Steady sequenceView :=
  ⟨fun _ _ hsends => by obtain ⟨tx, dropped, rfl⟩ := hsends; rfl, fun _ _ _ => rfl⟩

theorem steady_rx : Steady Link.rx :=
  ⟨fun _ _ hsends => by obtain ⟨tx, dropped, rfl⟩ := hsends; rfl, fun _ _ _ => rfl⟩

theorem rx_took (l : Link) (hdr : BitVec 64) : (Flits.took l hdr).rx = l.rx := by
  obtain ⟨-, -, -, -, -, -, -, hrx⟩ := Flits.took_facts l l.ctr hdr
  exact hrx

theorem credits_took (l : Link) (hdr : BitVec 64) : tgetD (Flits.took l hdr).credits (hdrBits hdr 32 3) 0 =
    tgetD l.credits (hdrBits hdr 32 3) 0 + hdrBits hdr 35 12 := by
  obtain ⟨-, -, -, hcredits, -⟩ := Flits.took_facts l l.ctr hdr
  exact hcredits

/-- What a packet's arrival does: the packet waits at its link, or is dropped as another device's (09 R367). -/
theorem arrived_packet (s : State) (h : Nat) (l : Link) (hdr : BitVec 64) (fs : List FlitBody) (p : Pkt) :
    let t := arrived s h l hdr fs (some p)
    (p.kind ≥ 0xC ∨ p.hop ≠ p.nhops ∨ p.dst = s.fab.acc → (t.link h).rx = l.rx ++ [(hdrBits hdr 25 3, p)]) ∧
      (p.kind < 0xC → p.hop = p.nhops → p.dst ≠ s.fab.acc →
        (t.link h).rx = l.rx ∧ t.fab.misdelivered = s.fab.misdelivered + 1) := by
  obtain ⟨hwaits, hdrops⟩ :=
    Flits.packetIn_link (tryReady (s.setLink h (acceptedLink l hdr [])) h) h (hdrBits hdr 25 3) p
  have hrx : ((tryReady (s.setLink h (acceptedLink l hdr [])) h).link h).rx = l.rx := by
    rw [steady_tryReady steady_rx, setLink_self]
    exact rx_took l hdr
  rw [Flits.tryReady_acc] at hwaits hdrops
  rw [Flits.tryReady_mis] at hdrops
  refine ⟨fun hmine => ?_, fun hkind hhop hdst => ?_⟩
  · rw [arrived, hwaits hmine, hrx]
  · obtain ⟨hcount, grants, hlink⟩ := hdrops hkind hhop hdst
    rw [arrived, hlink, hrx]
    exact ⟨rfl, hcount⟩

end Sys2Proof.Laws.FlitSlots

namespace Sys2Proof.Claims

open Sys2Proof.Laws.LinkTraining Sys2Proof.Laws.SyncRecords Sys2Proof.Laws.FlitSlots in
/-- Settles O29. A slot is one of `sendIdle`, `sendKey`, `sendReplay` and `sendData`, of each of which the section above
says what leaves; a flit received changes `takenView` and `sequenceView` as its fields say, and READY and what
follows leave both alone. -/
theorem flitsAreHeldAndReplayed : Obligations.FlitsAreHeldAndReplayed := by
  unfold Obligations.FlitsAreHeldAndReplayed
  refine ⟨fun s h hh => ⟨fun hleaving hup => nxt (exec_flitSlot hh s) ?_,
      fun hstays haborts => nxt (exec_flitSlot hh s) ?_, fun haborts hkeying => nxt (exec_flitSlot hh s) ?_,
      fun haborts hst hdown => ?_, fun hstays haborts hup => ⟨fun i f hreplay hheld hleft => ?_,
        fun i f hreplay hheld hlast => ?_, fun i hreplay hheld => ?_, fun hreplay hlen => ?_,
        fun v b r hreplay hlen hlane htx => ?_, fun hreplay hlen hlane => ?_⟩⟩,
    fun s h n f fec hh => ⟨fun hdown => ?_, fun hup => nxt (exec_flitIdle hh s f n fec) ?_,
      fun hup hsound => nxt (exec_flitIdle hh s f n fec) ?_,
      fun hup hsound hstays => nxt (exec_flitIdle hh s f n fec) ?_,
      fun hup hsound hleaving => nxt (exec_flitIdle hh s f n fec) ?_⟩,
    fun s h n f fec hh => ⟨fun hdown => ?_, fun hup => nxt (exec_flitData hh s f n fec) ?_,
      fun hup hopen => nxt (exec_flitData hh s f n fec) ?_, fun body hup hopen =>
        ⟨fun hleaving => nxt (exec_flitData hh s f n fec) ?_,
          fun hstays hseq => nxt (exec_flitData hh s f n fec) ?_,
          fun hstays hseq => nxt (exec_flitData hh s f n fec) ?_⟩⟩⟩
  · have hb := SlotBegun.refl s h
    have hlst : lstate s h = 2 := if_pos hleaving
    obtain ⟨-, -, -, -, -, -, -, hcount⟩ := hb.sendIdle_keeps
    rw [flitSlot_leaving hleaving hup, Laws.link_modLink_self, hcount]
    refine ⟨?_, rfl, hb.sendIdle_link.2.trans (OneLink.mod _ _ _)⟩
    have hsent := hb.sent_sendIdle
    rw [hlst] at hsent
    exact hsent
  · obtain ⟨hsent, hfrag, hone, hleft⟩ := abortSent s h
    rw [flitSlot_aborting hstays haborts]
    exact ⟨⟨hsent, hfrag, hone⟩, hleft⟩
  · rw [flitSlot_keying haborts hkeying]
    exact keySent s h _
  · rw [exec_flitSlot hh, flitSlot_off haborts hst hdown]
  · obtain ⟨s1, c, hb, hcount, -, hagain, -⟩ := flitSlot_replay hstays haborts hup hreplay
    refine nxt (exec_flitSlot hh s) ?_
    rw [hagain f hheld, sendReplay_again hb hleft, setLink_self]
    exact ⟨Flits.sent_send _ _ _ rfl rfl rfl, hb.one.trans (OneLink.set _ _ _), congrArg (· + 1) hcount, rfl, rfl,
      rfl, rfl⟩
  · obtain ⟨s1, c, hb, -, hcount, hagain, -⟩ := flitSlot_replay hstays haborts hup hreplay
    refine nxt (exec_flitSlot hh s) ?_
    obtain ⟨hwent, tx, dropped, hlink⟩ := Flits.went_raw (s1.setLink h (exhaustedLink (s.link h) c i f.flit)) h
    rw [setLink_self] at hlink
    rw [hagain f hheld, sendReplay_last hb hlast, hlink]
    exact ⟨hwent, rfl, congrArg (· + 1) hcount⟩
  · obtain ⟨s1, c, hb, -, -, -, hnone⟩ := flitSlot_replay hstays haborts hup hreplay
    refine nxt (exec_flitSlot hh s) ?_
    obtain ⟨hsent, hone⟩ := hb.endReplay.sent_openIdle hstays
    obtain ⟨hkept, -, -, -, hended, -⟩ := hb.endReplay.sendIdle_keeps
    rw [hnone hheld]
    exact ⟨hsent, hone, hkept, hended⟩
  · obtain ⟨s1, c, hb, hfull, -⟩ := flitSlot_fresh hstays haborts hup hreplay
    refine nxt (exec_flitSlot hh s) ?_
    obtain ⟨hslot, hcount⟩ := hfull hlen
    obtain ⟨hsent, hone⟩ := hb.sent_openIdle hstays
    obtain ⟨hkept, htx, -, -, -, -, hctr, -⟩ := hb.sendIdle_keeps
    rw [hslot]
    exact ⟨hsent, hone, hkept, htx, by rw [hctr, hcount]⟩
  · obtain ⟨s1, c, hb, -, hdata, -⟩ := flitSlot_fresh hstays haborts hup hreplay
    refine nxt (exec_flitSlot hh s) ?_
    rw [hdata hlen v hlane]
    exact sendData_facts hb hstays htx
  · obtain ⟨s1, c, hb, -, -, hidle⟩ := flitSlot_fresh hstays haborts hup hreplay
    refine nxt (exec_flitSlot hh s) ?_
    obtain ⟨hsent, hone⟩ := hb.sent_openIdle hstays
    obtain ⟨hkept, htx, hcredits, hseq, -, hidles, -⟩ := hb.sendIdle_keeps
    rw [hidle hlen hlane]
    exact ⟨hsent, hone, hidles, hkept, htx, hcredits, hseq⟩
  · rw [exec_flitIdle hh]
    exact congrArg (fun u => Host.Outcome.next (hostStatus s (afterRecords s u))) (Flits.idle_down s h n f fec hdown)
  · have hcounts := flitCounts_flitIdle n f fec hup
    rw [← flitCounts_of_onlySends (FO s (flitIdle · h f n fec) h)] at hcounts
    obtain ⟨hcorrected, hcounts⟩ := Prod.mk.inj hcounts
    obtain ⟨hnot, htags⟩ := Prod.mk.inj hcounts
    exact ⟨hcorrected, hnot, htags⟩
  · have hsends : OnlySends ((flitIdle s h f n fec).link h) ((fabricStep s fun s => flitIdle s h f n fec).link h) :=
      FO s _ h
    rw [flitIdle_unsound n f fec hup hsound, Segments.link_modLinkCtr, link_countFec] at hsends
    obtain ⟨tx, dropped, hlink⟩ := hsends
    rw [hlink]
    exact ⟨rfl, rfl, rfl⟩
  · have htaken := flitIdle_taken hup hsound hstays
    obtain ⟨hacked, hnotAcked, hnak, hcredits, hready, -⟩ :=
      Flits.took_facts (s.link h) (fecLink (s.link h) fec).ctr f.hdr
    have hview : takenView ((fabricStep s fun s => flitIdle s h f n fec).link h) =
        takenView (Flits.took (fecLink (s.link h) fec) f.hdr) := by
      rw [steady_takenView.sends _ _ (FO s (flitIdle · h f n fec) h), htaken, steady_tryReady steady_takenView,
        setLink_self]
    obtain ⟨hheld, hview⟩ := Prod.mk.inj hview
    obtain ⟨hackedSame, hview⟩ := Prod.mk.inj hview
    obtain ⟨hreplay, hview⟩ := Prod.mk.inj hview
    obtain ⟨hcreditsSame, hreadySame⟩ := Prod.mk.inj hview
    rw [hheld, hackedSame, hreplay, hcreditsSame, hreadySame]
    refine ⟨hacked, hnotAcked, hnak, hcredits, hready, fun k hk => ?_⟩
    have hother : OnlySends ((flitIdle s h f n fec).link k) ((fabricStep s fun s => flitIdle s h f n fec).link k) :=
      FO s _ k
    have hready := Flits.tryReady_ne ((countFec s h fec).setLink h (Flits.took (fecLink (s.link h) fec) f.hdr)) h k hk
    rw [← htaken, setLink_other _ _ _ _ hk, Flits.countFec_other _ _ _ _ hk] at hready
    exact hready.trans hother
  · exact (wentDown _ s (flitIdle · h f n fec) h (flitIdle_leaving hup hsound hleaving)).1
  · rw [exec_flitData hh]
    exact congrArg (fun u => Host.Outcome.next (hostStatus s (afterRecords s u))) (Flits.data_down s h n f fec hdown)
  · obtain ⟨failures, hcounts⟩ := fecCounts_flitData n f fec hup
    rw [← flitCounts_of_onlySends (FO s (flitData · h f n fec) h)] at hcounts
    obtain ⟨hcorrected, hcounts⟩ := Prod.mk.inj hcounts
    exact ⟨hcorrected, (Prod.mk.inj hcounts).1⟩
  · have hsends : OnlySends ((flitData s h f n fec).link h) ((fabricStep s fun s => flitData s h f n fec).link h) :=
      FO s _ h
    rw [flitData_unsound n f fec hup hopen, Segments.link_modLinkCtr, link_countFec] at hsends
    obtain ⟨tx, dropped, hlink⟩ := hsends
    rw [hlink]
    exact ⟨rfl, rfl, rfl, rfl, rfl⟩
  · exact (wentDown _ s (flitData · h f n fec) h (flitData_leaving hup hopen hleaving)).1
  · have hsends : OnlySends ((flitData s h f n fec).link h) ((fabricStep s fun s => flitData s h f n fec).link h) :=
      FO s _ h
    rw [flitData_outOfSequence hup hopen hstays hseq, setLink_self] at hsends
    obtain ⟨tx, dropped, hlink⟩ := hsends
    rw [hlink]
    exact ⟨rfl, rfl, rfl, rfl, rfl, rfl⟩
  · have haccepted := flitData_inSequence hup hopen hstays hseq
    have hview : sequenceView ((fabricStep s fun s => flitData s h f n fec).link h) =
        sequenceView (acceptedLink (fecLink (s.link h) fec) f.hdr
          (keptFlits (joined (s.link h) f.hdr body) (assembled (joined (s.link h) f.hdr body)))) := by
      rw [steady_sequenceView.sends _ _ (FO s (flitData · h f n fec) h), haccepted,
        arrived_view steady_sequenceView (fun _ _ => rfl)]
    have hrx : ((fabricStep s fun s => flitData s h f n fec).link h).rx = ((flitData s h f n fec).link h).rx :=
      steady_rx.sends _ _ (FO s (flitData · h f n fec) h)
    obtain ⟨hrxSeq, hview⟩ := Prod.mk.inj hview
    obtain ⟨hnak, hview⟩ := Prod.mk.inj hview
    obtain ⟨hcredits, hasm⟩ := Prod.mk.inj hview
    rw [hrxSeq, hnak, hcredits, hasm, hrx, Flits.fab_step, haccepted]
    refine ⟨rfl, rfl, credits_took (fecLink (s.link h) fec) f.hdr, fun hpart => ?_, fun p hwhole => ?_⟩
    · rw [show assembled (joined (s.link h) f.hdr body) = none from hpart]
      refine ⟨tgetD_tset_self _ _ _ _, ?_⟩
      rw [arrived, steady_tryReady steady_rx, setLink_self]
      exact rx_took _ _
    · rw [show assembled (joined (s.link h) f.hdr body) = some p from hwhole]
      obtain ⟨hwaits, hdrops⟩ := arrived_packet (countFec s h fec) h (fecLink (s.link h) fec) f.hdr
        (joined (s.link h) f.hdr body) p
      exact ⟨tgetD_tset_self _ _ _ _, hwaits, hdrops⟩

end Sys2Proof.Claims
end

section
/-!
PROOF. Remote accesses and their transport (O33): ACK, TRANSPORT_RETRANSMIT, WRITE, READ, READ_DATA.
-/

-- One declaration after another: side by side they need more threads than the memory of the check leaves room for.
set_option Elab.async false

open Sys2Proof Sys2Proof.Machine Sys2Proof.Claims Sys2Proof.Laws

namespace Sys2Proof.Laws.RemoteAccess

section
variable {h : Nat} (hh : h < 16) (s : State)
include hh

theorem exec_ack : exec (.ack h) s = .next (ack s h) := withUnit_of (by simp [hh])

theorem exec_write : exec (.write h) s = .next (write s h) := withUnit_of (by simp [hh])

theorem exec_read : exec (.read h) s = .next (read s h) := withUnit_of (by simp [hh])

theorem exec_readData : exec (.readData h) s = .next (readData s h) := withUnit_of (by simp [hh])

end

/-! ### What the transport leaves alone (09 R370) -/

/-- A packet has come as far as the transport: the links, the connections received on and the free values have
changed, and nothing else. -/
def Carried (s s1 : State) : Prop :=
  ∃ links rx n, s1 = { s with fab := { s.fab with links := links, rx := rx }, freeCtr := n }

theorem carried_of_takePacket {s s1 : State} {h k : Nat} {p : Pkt} (htake : takePacket s h k = some (p, s1)) :
    Carried s s1 := by
  obtain ⟨links, heq⟩ := takePacket_facts htake
  exact ⟨links, s.fab.rx, s.freeCtr, heq⟩

theorem carried_of_delivered {s s1 : State} {h k : Nat} {p : Pkt} (hdelivered : Delivered s h k p s1) :
    Carried s s1 := delivered_fab hdelivered

namespace Carried

variable {s s1 : State} (hc : Carried s s1)
include hc

theorem mem_eq : s1.mem = s.mem := by obtain ⟨links, rx, n, rfl⟩ := hc; rfl
theorem ctxs_eq : s1.ctxs = s.ctxs := by obtain ⟨links, rx, n, rfl⟩ := hc; rfl
theorem cores_eq : s1.cores = s.cores := by obtain ⟨links, rx, n, rfl⟩ := hc; rfl
theorem tx_eq : s1.fab.tx = s.fab.tx := by obtain ⟨links, rx, n, rfl⟩ := hc; rfl
theorem denied_eq : s1.fab.remoteDenied = s.fab.remoteDenied := by obtain ⟨links, rx, n, rfl⟩ := hc; rfl
theorem ctx_eq (c : Nat) : s1.ctx c = s.ctx c := by obtain ⟨links, rx, n, rfl⟩ := hc; rfl
theorem jobCtx_eq (job : BitVec 32) : jobCtx s1 job = jobCtx s job := by obtain ⟨links, rx, n, rfl⟩ := hc; rfl

theorem findTx_eq (peer : Nat) (job : BitVec 32) (channel : Nat) :
    findTx s1 peer job channel = findTx s peer job channel := by
  obtain ⟨links, rx, n, rfl⟩ := hc
  rfl

theorem standbyMail_eq (p : Pkt) (d : Blob) : standbyMail s1 p d = standbyMail s p d := by
  obtain ⟨links, rx, n, rfl⟩ := hc
  rfl

theorem remoteOk_eq (job : BitVec 32) (a n : Nat) : remoteOk s1 job a n = remoteOk s job a n := by
  obtain ⟨links, rx, m, rfl⟩ := hc
  rfl

end Carried

theorem rx_of_takePacket {s s1 : State} {h k : Nat} {p : Pkt} (htake : takePacket s h k = some (p, s1)) :
    s1.fab.rx = s.fab.rx := by
  obtain ⟨links, rfl⟩ := takePacket_facts htake
  rfl

theorem freeCtr_of_takePacket {s s1 : State} {h k : Nat} {p : Pkt} (htake : takePacket s h k = some (p, s1)) :
    s1.freeCtr = s.freeCtr := by
  obtain ⟨links, rfl⟩ := takePacket_facts htake
  rfl

/-! ### ACK and TRANSPORT_RETRANSMIT (09 R370) -/

/-- A connection once an ACK of `tseq` has come: what it covers is gone, and as many of the packets that wait as have
room follow, numbered in order. -/
def ackedConn (c : TxConn) (tseq : BitVec 32) : TxConn :=
  let left := c.held.filter fun k => !decide ((tseq - k.tseq).toNat < 2 ^ 31)
  let up := c.waiting.take (64 - left.length)
  { c with
    held := left ++ up.mapIdx (fun i k => { k with tseq := c.next + BitVec.ofNat 32 i })
    waiting := c.waiting.drop up.length
    next := c.next + BitVec.ofNat 32 up.length }

section
variable {s s1 : State} {h : Nat} {p : Pkt} (htake : takePacket s h 5 = some (p, s1))
include htake

theorem ack_unknown (hfind : findTx s p.src p.job p.channel = none) : ack s h = s1 := by
  rw [← (carried_of_takePacket htake).findTx_eq] at hfind
  simp only [Machine.ack, htake, hfind]

theorem ack_known {c : TxConn} (hfind : findTx s p.src p.job p.channel = some c) :
    findTx (ack s h) p.src p.job p.channel = some (ackedConn c p.tseq) ∧ (ack s h).fab.rx = s.fab.rx ∧
      (ack s h).mem = s.mem ∧ (ack s h).ctxs = s.ctxs ∧ (ack s h).cores = s.cores := by
  have hc := carried_of_takePacket htake
  rw [← hc.findTx_eq] at hfind
  have hack : ack s h = putTx (admitAll 64 s1 { c with
      held := c.held.filter fun k => !decide ((p.tseq - k.tseq).toNat < 2 ^ 31) }).1 (ackedConn c p.tseq) := by
    simp only [Machine.ack, htake, hfind]
    rw [RemoteOps.admit_all 64 s1 _ (Nat.sub_le _ _)]
    rfl
  obtain ⟨htx, -⟩ := RemoteOps.admit_tx 64 s1 { c with
    held := c.held.filter fun k => !decide ((p.tseq - k.tseq).toNat < 2 ^ 31) }
  obtain ⟨hrx, hmem, hctxs, hcores⟩ := RemoteOps.admit_keeps 64 s1 { c with
    held := c.held.filter fun k => !decide ((p.tseq - k.tseq).toNat < 2 ^ 31) }
  obtain ⟨hpeer, hjob, hchannel⟩ := RemoteOps.find_key _ c _ _ _ hfind
  rw [hack]
  refine ⟨?_, hrx.trans (rx_of_takePacket htake), hmem.trans hc.mem_eq, hctxs.trans hc.ctxs_eq,
    hcores.trans hc.cores_eq⟩
  rw [findTx, ← htx] at hfind
  exact RemoteOps.find_put _ c (ackedConn c p.tseq) p.src p.job p.channel hfind hpeer hjob hchannel

end

theorem ack_idle {s : State} {h : Nat} (htake : takePacket s h 5 = none) : ack s h = s := by
  simp [Machine.ack, htake]

/-- Packets sent again leave the connections, and each counts. -/
theorem resend_facts {s : State} {c : TxConn} {q : Path} (hpath : pathFor s c.peer c.flow.toNat = some q) :
    (resend s c).fab.tx = s.fab.tx ∧
      (resend s c).fab.retransmits = s.fab.retransmits + BitVec.ofNat 48 c.held.length := by
  have hone (u : State) (k : HeldPkt) :
      let v := (transmit u k.kind c.peer c.channel c.flow.toNat q k.tseq k.payload c.job k.operand).modFab fun x =>
        { x with retransmits := x.retransmits + 1 }
      v.fab.tx = u.fab.tx ∧ v.fab.retransmits = u.fab.retransmits + 1 := by
    obtain ⟨links, hsent⟩ := transmit_tx u k.kind c.peer c.channel c.flow.toNat q k.tseq k.payload c.job k.operand
    simp [State.modFab, hsent]
  unfold resend
  simp only [hpath]
  clear hpath
  induction c.held generalizing s with
  | nil => exact ⟨rfl, (BitVec.add_zero _).symm⟩
  | cons k ks ih =>
    obtain ⟨htx, hcount⟩ := hone s k
    obtain ⟨htx', hcount'⟩ := ih (s := (transmit s k.kind c.peer c.channel c.flow.toNat q k.tseq k.payload c.job
      k.operand).modFab fun x => { x with retransmits := x.retransmits + 1 })
    refine ⟨htx'.trans htx, hcount'.trans ?_⟩
    rw [hcount, List.length_cons, BitVec.ofNat_add, BitVec.add_assoc]
    exact congrArg (s.fab.retransmits + ·) (BitVec.add_comm _ _)

theorem transportRetransmit_eq {s : State} {n : Nat} {c : TxConn} (hc : s.fab.tx[n]? = some c) :
    transportRetransmit s n = resend s c := by
  simp only [transportRetransmit, hc]

theorem transportRetransmit_idle {s : State} {n : Nat}
    (hidle : s.fab.tx[n]? = none ∨ ∃ c, s.fab.tx[n]? = some c ∧ pathFor s c.peer c.flow.toNat = none) :
    transportRetransmit s n = s := by
  rcases hidle with hnone | ⟨c, hc, hpath⟩
  · simp only [transportRetransmit, hnone]
  · simp only [transportRetransmit_eq hc, resend, hpath]

/-! ### The receiver of a connection (09 R370) -/

/-- The connection of a packet. -/
def isConnOf (p : Pkt) (c : RxConn) : Bool := c.peer = p.src && c.job = p.job && c.channel = p.channel

/-- The FLOW of a connection that a packet opens: that of the reverse one, or a free value. -/
def openedFlow (s : State) (p : Pkt) : BitVec 8 :=
  match findTx s p.src p.job p.channel with
  | some c => c.flow
  | none => Config.freeValue 8 s.freeCtr

theorem acceptPacket_inSequence {s : State} {p : Pkt} {c : RxConn} (hfind : s.fab.rx.find? (isConnOf p) = some c)
    (hseq : p.tseq = c.expect) : ∃ s1, acceptPacket s p = (s1, true) ∧
      s1.fab.rx.find? (isConnOf p) = some { c with expect := c.expect + 1 } := by
  obtain ⟨links, hacked⟩ := ack_fab (s.modFab fun x => { x with
    rx := x.rx.map fun d => if isConnOf p d then { d with expect := d.expect + 1 } else d }) p c.flow p.tseq
  have haccepted : acceptPacket s p = (sendAck (s.modFab fun x => { x with
      rx := x.rx.map fun d => if isConnOf p d then { d with expect := d.expect + 1 } else d }) p c.flow p.tseq, true) := by
    unfold acceptPacket
    rw [show (s.fab.rx.find? fun c => c.peer = p.src && c.job = p.job && c.channel = p.channel) = some c from hfind]
    exact if_pos hseq
  refine ⟨_, haccepted, ?_⟩
  rw [hacked]
  exact find_map (isConnOf p) (fun d => { d with expect := d.expect + 1 }) (fun _ hmine => hmine) _ _ hfind

theorem acceptPacket_outOfSequence {s : State} {p : Pkt} {c : RxConn}
    (hfind : s.fab.rx.find? (isConnOf p) = some c) (hseq : p.tseq ≠ c.expect) :
    ∃ links, acceptPacket s p = ({ s with fab := { s.fab with links := links } }, false) := by
  obtain ⟨links, hacked⟩ := ack_fab s p c.flow (c.expect - 1)
  refine ⟨links, ?_⟩
  unfold acceptPacket
  rw [show (s.fab.rx.find? fun c => c.peer = p.src && c.job = p.job && c.channel = p.channel) = some c from hfind,
    ← hacked]
  exact if_neg hseq

section
variable {s : State} {p : Pkt} (hfind : s.fab.rx.find? (isConnOf p) = none)
include hfind

theorem acceptPacket_limit (hlimit : connLimit ≤ connectionsOpen s) :
    acceptPacket s p = (connectionFault s p.job, false) := by
  unfold acceptPacket
  rw [show (s.fab.rx.find? fun c => c.peer = p.src && c.job = p.job && c.channel = p.channel) = none from hfind]
  exact if_pos hlimit

theorem acceptPacket_opens (hroom : connectionsOpen s < connLimit) : ∃ links n, acceptPacket s p =
    ({ s with fab := { s.fab with links := links, rx := s.fab.rx ++
        [⟨p.src, p.job, p.channel, if p.tseq = 0 then 1 else 0, openedFlow s p⟩] }, freeCtr := n },
      decide (p.tseq = 0)) := by
  unfold acceptPacket openedFlow
  rw [show (s.fab.rx.find? fun c => c.peer = p.src && c.job = p.job && c.channel = p.channel) = none from hfind]
  dsimp only
  rw [if_neg (Nat.not_le.2 hroom)]
  simp only [decide_eq_true_eq]
  cases findTx s p.src p.job p.channel with
  | some c =>
    obtain ⟨links, hacked⟩ := ack_fab (s.modFab fun x => { x with
      rx := x.rx ++ [⟨p.src, p.job, p.channel, if p.tseq = 0 then 1 else 0, c.flow⟩] }) p c.flow
      (if p.tseq = 0 then 0 else 0 - 1)
    exact ⟨links, s.freeCtr, congrArg (·, decide (p.tseq = 0)) hacked⟩
  | none =>
    obtain ⟨links, hacked⟩ := ack_fab ((s.free 8).2.modFab fun x => { x with
      rx := x.rx ++ [⟨p.src, p.job, p.channel, if p.tseq = 0 then 1 else 0, (s.free 8).1⟩] }) p (s.free 8).1
      (if p.tseq = 0 then 0 else 0 - 1)
    exact ⟨links, s.freeCtr + 1, congrArg (·, decide (p.tseq = 0)) hacked⟩

end

theorem connectionFault_facts (s : State) (job : BitVec 32) :
    (connectionFault s job).fab = s.fab ∧ (connectionFault s job).mem = s.mem ∧
      ∀ c, jobCtx s job = some c → ((connectionFault s job).ctx c).faults = (s.ctx c).faults + 1 ∧
        ((s.ctx c).fault = none → ((connectionFault s job).ctx c).fault = some ⟨.connectionLimit, none, .fabric, 0⟩) := by
  have htouches := touches_connectionFault s job
  refine ⟨htouches.2 .fab (by decide), mem_of htouches (by decide) (by decide) (by decide), fun c hc => ?_⟩
  obtain ⟨hfaults, hfault, -⟩ := contextFault_ctx s c ⟨.connectionLimit, none, .fabric, 0⟩
  have hfaulted : connectionFault s job = contextFault s c ⟨.connectionLimit, none, .fabric, 0⟩ := by
    unfold connectionFault
    rw [hc]
  rw [hfaulted]
  exact ⟨hfaults, hfault⟩

/-! ### WRITE (09 R373; 10 R406) -/

/-- The address of a remote access. -/
def accessAddr (p : Pkt) : Nat := p.payload.bits 0 44

/-- The bytes of a WRITE. -/
def writtenBytes (p : Pkt) : Blob := p.payload.slice 8 (p.payload.len - 8)

theorem packetStalls_write {s s0 : State} {h : Nat} {p : Pkt} (htake : takePacket s h 2 = some (p, s0))
    (hruns : rangeStalls s (accessAddr p) (p.payload.len - 8) = false) :
    (packetStalls s h 2 fun p => (p.payload.bits 0 44, p.payload.len - 8)) = false :=
  (RemoteOps.stalls_of _ htake).trans hruns

section
variable {s s1 : State} {h : Nat} {p : Pkt} (hdelivered : Delivered s h 2 p s1)
  (hruns : rangeStalls s (accessAddr p) (p.payload.len - 8) = false)
include hdelivered hruns

theorem write_empty (hshort : p.payload.len ≤ 8) : write s h = s1 := by
  obtain ⟨s0, htake, haccept⟩ := hdelivered
  simp only [write, packetStalls_write htake hruns, htake, haccept, hshort, Bool.false_eq_true, if_false, if_true]

variable (hlong : 8 < p.payload.len)
include hlong

theorem write_standby (hmail : standbyMail s p (writtenBytes p) = true) {c : Nat} (hc : jobCtx s p.job = some c) :
    write s h = s1.modLed c fun l => { l with mail := l.mail ++ [Ctrl.parse (writtenBytes p)] } := by
  have hcarried := carried_of_delivered hdelivered
  rw [← hcarried.standbyMail_eq, writtenBytes] at hmail
  rw [← hcarried.jobCtx_eq] at hc
  obtain ⟨s0, htake, haccept⟩ := hdelivered
  simp only [write, packetStalls_write htake hruns, htake, haccept, Nat.not_le.2 hlong, hmail, hc, Bool.false_eq_true,
    if_false, if_true]
  rfl

variable (hmail : standbyMail s p (writtenBytes p) = false)
include hmail

theorem write_denied (hdenied : remoteOk s p.job (accessAddr p) (p.payload.len - 8) = false) :
    write s h = answerRead (deny s1) p true Blob.empty := by
  have hcarried := carried_of_delivered hdelivered
  rw [← hcarried.standbyMail_eq, writtenBytes] at hmail
  rw [← hcarried.remoteOk_eq, accessAddr] at hdenied
  obtain ⟨s0, htake, haccept⟩ := hdelivered
  simp only [write, packetStalls_write htake hruns, htake, haccept, Nat.not_le.2 hlong, hmail, hdenied, Bool.false_eq_true,
    if_false, Bool.not_false, if_true]

/-- What the ledger makes of the bytes leaves memory as the write has left it. -/
theorem write_stores (hallowed : remoteOk s p.job (accessAddr p) (p.payload.len - 8) = true) :
    let s2 := writeRange s1 (accessAddr p) (p.payload.len - 8) (writtenBytes p).val
    (write s h).mem = s2.mem ∧ (write s h).fab = s2.fab := by
  have hcarried := carried_of_delivered hdelivered
  rw [← hcarried.standbyMail_eq, writtenBytes] at hmail
  rw [← hcarried.remoteOk_eq, accessAddr] at hallowed
  obtain ⟨s0, htake, haccept⟩ := hdelivered
  simp only [write, packetStalls_write htake hruns, htake, haccept, Nat.not_le.2 hlong, hmail, hallowed, Bool.false_eq_true,
    if_false, Bool.not_true]
  rw [← accessAddr, ← writtenBytes]
  generalize writeRange s1 (accessAddr p) (p.payload.len - 8) (writtenBytes p).val = s2
  split
  · exact ⟨rfl, rfl⟩
  · next off _ =>
    split
    · split <;> exact ⟨rfl, rfl⟩
    · next c _ =>
      split
      · split <;> exact ⟨rfl, rfl⟩
      · split
        · obtain ⟨hmem, hfab⟩ := RemoteOps.copy_keeps s2 c off (p.payload.len - 8)
          obtain ⟨hmem', hfab'⟩ := RemoteOps.gather_keeps (copyArrived s2 c off (p.payload.len - 8)) c _ (accessAddr p)
            (writtenBytes p)
          exact ⟨hmem'.trans hmem, hfab'.trans hfab⟩
        · exact ⟨rfl, rfl⟩

end

theorem write_idle {s : State} {h : Nat} (htake : takePacket s h 2 = none) : write s h = s := by
  simp [write, packetStalls, htake]

theorem write_waits {s s0 : State} {h : Nat} {p : Pkt} (htake : takePacket s h 2 = some (p, s0))
    (hstalls : rangeStalls s (accessAddr p) (p.payload.len - 8) = true) : write s h = s :=
  if_pos ((RemoteOps.stalls_of _ htake).trans hstalls)

/-- A byte of a string of bytes. -/
theorem byte_eq (d : Blob) (i : Nat) : BitVec.ofNat 8 (d.bits (8 * i) 8) = BitVec.ofNat 8 (d.val / 2 ^ (8 * i)) := by
  apply BitVec.eq_of_toNat_eq
  simp [Blob.bits, bits]

/-! ### READ (09 R373) -/

theorem packetStalls_read {s s0 : State} {h : Nat} {p : Pkt} (htake : takePacket s h 3 = some (p, s0)) :
    (packetStalls s h 3 fun p => (p.payload.bits 0 44, p.operand)) = rangeStalls s (accessAddr p) p.operand :=
  RemoteOps.stalls_of _ htake

section
variable {s s1 : State} {h : Nat} {p : Pkt} (hdelivered : Delivered s h 3 p s1)
  (hruns : rangeStalls s (accessAddr p) p.operand = false)
include hdelivered hruns

theorem read_refused
    (hrefused : p.operand < 128 ∨ packetBytes < p.operand ∨ remoteOk s p.job (accessAddr p) p.operand = false) :
    Machine.read s h = answerRead (deny s1) p true Blob.empty := by
  rw [← (carried_of_delivered hdelivered).remoteOk_eq] at hrefused
  obtain ⟨s0, htake, haccept⟩ := hdelivered
  simp only [Machine.read, packetStalls_read htake, hruns, htake, haccept, Bool.false_eq_true, if_false]
  exact if_pos (by simpa [accessAddr, or_assoc] using hrefused)

theorem read_answered (hmin : 128 ≤ p.operand) (hmax : p.operand ≤ packetBytes)
    (hallowed : remoteOk s p.job (accessAddr p) p.operand = true) :
    Machine.read s h = answerRead (readRange s1 (accessAddr p) p.operand).2 p false
      ⟨p.operand, (readRange s1 (accessAddr p) p.operand).1⟩ := by
  rw [← (carried_of_delivered hdelivered).remoteOk_eq] at hallowed
  obtain ⟨s0, htake, haccept⟩ := hdelivered
  simp only [Machine.read, packetStalls_read htake, hruns, htake, haccept, Bool.false_eq_true, if_false]
  refine if_neg ?_
  rw [← accessAddr, hallowed]
  simpa using And.intro hmin hmax

end

theorem read_idle {s : State} {h : Nat} (htake : takePacket s h 3 = none) : Machine.read s h = s := by
  simp [Machine.read, packetStalls, htake]

theorem read_waits {s s0 : State} {h : Nat} {p : Pkt} (htake : takePacket s h 3 = some (p, s0))
    (hstalls : rangeStalls s (accessAddr p) p.operand = true) : Machine.read s h = s :=
  if_pos ((packetStalls_read htake).trans hstalls)

/-! ### READ_DATA (09 R373; 10 R401) -/

section
variable {s s1 : State} {h : Nat} {p : Pkt} (hdelivered : Delivered s h 4 p s1)
include hdelivered

theorem readData_noContext (hnone : jobCtx s p.job = none) : readData s h = s1 := by
  obtain ⟨s0, htake, haccept⟩ := hdelivered
  rw [← (carried_of_takePacket htake).jobCtx_eq] at hnone
  simp only [readData, htake, haccept, hnone]

variable {c : Nat} (hc : jobCtx s p.job = some c)
include hc

theorem readData_denied (hdenied : p.operand = 1) : readData s h = commitCause s1 c 6 := by
  obtain ⟨s0, htake, haccept⟩ := hdelivered
  rw [← (carried_of_takePacket htake).jobCtx_eq] at hc
  simp only [readData, htake, haccept, hc, hdenied, if_true]

variable (hdata : p.operand ≠ 1)
include hdata

theorem readData_noRank (hrank : accRank (s.ctx c) p.src = none) : readData s h = s1 := by
  rw [← (carried_of_delivered hdelivered).ctx_eq] at hrank
  obtain ⟨s0, htake, haccept⟩ := hdelivered
  rw [← (carried_of_takePacket htake).jobCtx_eq] at hc
  simp only [readData, htake, haccept, hc, hdata, if_false, hrank]

/-- Data joins what the ledger reads from a rank, where it reads from it. -/
def gatheredReads (l : Machine.Ledger) (r : Nat) (d : Blob) : Tbl Blob :=
  match tget l.reads r with
  | some b => tset l.reads r (Blob.append b d)
  | none => l.reads

theorem readData_gathers {r : Nat} (hrank : accRank (s.ctx c) p.src = some r) :
    readData s h = s1.modLed c fun l => { l with reads := gatheredReads l r p.payload } := by
  rw [← (carried_of_delivered hdelivered).ctx_eq] at hrank
  obtain ⟨s0, htake, haccept⟩ := hdelivered
  rw [← (carried_of_takePacket htake).jobCtx_eq] at hc
  simp only [readData, htake, haccept, hc, hdata, if_false, hrank]
  rfl

end

theorem readData_idle {s : State} {h : Nat} (htake : takePacket s h 4 = none) : readData s h = s := by
  simp [readData, htake]

/-- Without a commit there is none to fail. -/
theorem led_commitCause_none {s : State} {c : Nat} (hnone : (s.ctx c).led.commit = none) (cause : Nat) :
    ((commitCause s c cause).ctx c).led = (s.ctx c).led := by
  rw [commitCause, ctx_modCommit]
  generalize (s.ctx c).led = l at hnone
  cases l
  simp_all

theorem openedFlow_of_takePacket {s s1 : State} {h k : Nat} {p q : Pkt} (htake : takePacket s h k = some (q, s1)) :
    openedFlow s1 p = openedFlow s p := by
  rw [openedFlow, (carried_of_takePacket htake).findTx_eq, freeCtr_of_takePacket htake, openedFlow]

end Sys2Proof.Laws.RemoteAccess

namespace Sys2Proof.Claims

open Sys2Proof.Laws.RemoteAccess in
/-- Settles O33. A packet on its way to the transport changes nothing that the commands look at (`Carried`); the
transport accepts it, or answers one of the cases of `acceptPacket`; a WRITE is refused by `remoteOk` or is
`writeRange`, whose bytes no ledger command touches. -/
theorem remoteAccessesAreChecked : Obligations.RemoteAccessesAreChecked := by
  unfold Obligations.RemoteAccessesAreChecked
  refine ⟨fun s s1 h p hh htake => ⟨fun hfind => ?_, fun c hfind => nxt (exec_ack hh s) (ack_known htake hfind)⟩,
    fun s n c q hc hpath => nxt rfl ?_, fun s n hidle => congrArg Host.Outcome.next (transportRetransmit_idle hidle),
    fun s h hh => ⟨fun htake => ?_, fun htake => ?_, fun htake => ?_, fun htake => ?_, fun p s0 htake hstalls => ?_,
      fun p s0 htake hstalls => ?_⟩,
    fun s s0 h k p hh htake => ⟨fun c hfind => ⟨fun hseq => ?_, fun hseq => ?_⟩, fun hfind hlimit => ?_,
      fun hfind hroom => ⟨fun hseq => ?_, fun hseq => ?_⟩⟩,
    fun s s1 h p hh hdelivered hruns => ⟨fun hshort => ?_, fun hlong hmail c hc => nxt (exec_write hh s) ?_,
      fun hlong hmail hdenied => nxt (exec_write hh s) ?_, fun hlong hmail hallowed hwf => nxt (exec_write hh s) ?_⟩,
    fun s s1 h p hh hdelivered hruns => ⟨fun hrefused => nxt (exec_read hh s) ?_, fun hmin hmax hallowed =>
      ⟨nxt (exec_read hh s) ?_, fun hclean => ?_⟩⟩,
    fun s s1 h p hh hdelivered => ⟨fun hnone => ?_, fun c hc => ⟨fun hdenied k hk => nxt (exec_readData hh s) ?_,
      fun hdenied hnone => nxt (exec_readData hh s) ?_, fun hdata hrank => ?_,
      fun hdata r hrank => nxt (exec_readData hh s) ?_⟩⟩⟩
  · rw [exec_ack hh, ack_unknown htake hfind]
  · rw [transportRetransmit_eq hc]
    exact resend_facts hpath
  · rw [exec_ack hh, ack_idle htake]
  · rw [exec_write hh, write_idle htake]
  · rw [exec_read hh, read_idle htake]
  · rw [exec_readData hh, readData_idle htake]
  · rw [exec_write hh, write_waits htake hstalls]
  · rw [exec_read hh, read_waits htake hstalls]
  · rw [← rx_of_takePacket htake] at hfind
    obtain ⟨s1, haccept, hexpect⟩ := acceptPacket_inSequence hfind hseq
    exact ⟨s1, ⟨s0, htake, haccept⟩, hexpect⟩
  · have hcarried := carried_of_takePacket htake
    have hrx := rx_of_takePacket htake
    rw [← hrx] at hfind
    obtain ⟨links, haccept⟩ := acceptPacket_outOfSequence hfind hseq
    refine ⟨_, ?_, ?_, ?_, ?_, RemoteOps.refused hh htake haccept⟩
    exacts [hrx, hcarried.mem_eq, hcarried.tx_eq, hcarried.denied_eq]
  · have hcarried := carried_of_takePacket htake
    have hrx := rx_of_takePacket htake
    rw [connectionsOpen, ← hcarried.tx_eq, ← hrx] at hlimit
    rw [← hrx] at hfind
    have haccept := acceptPacket_limit hfind hlimit
    obtain ⟨hfab, hmem, hfault⟩ := connectionFault_facts s0 p.job
    refine ⟨_, ⟨by rw [hfab, hrx], fun c hc => ?_⟩, by rw [hmem, hcarried.mem_eq], by rw [hfab, hcarried.tx_eq],
      by rw [hfab, hcarried.denied_eq], RemoteOps.refused hh htake haccept⟩
    rw [← hcarried.jobCtx_eq] at hc
    rw [← hcarried.ctx_eq c]
    exact hfault c hc
  · have hcarried := carried_of_takePacket htake
    have hrx := rx_of_takePacket htake
    rw [connectionsOpen, ← hcarried.tx_eq, ← hrx] at hroom
    rw [← hrx] at hfind
    obtain ⟨links, n, haccept⟩ := acceptPacket_opens hfind hroom
    rw [decide_eq_true hseq, if_pos hseq, openedFlow_of_takePacket htake, hrx] at haccept
    exact ⟨_, ⟨s0, htake, haccept⟩, rfl⟩
  · have hcarried := carried_of_takePacket htake
    have hrx := rx_of_takePacket htake
    rw [connectionsOpen, ← hcarried.tx_eq, ← hrx] at hroom
    rw [← hrx] at hfind
    obtain ⟨links, n, haccept⟩ := acceptPacket_opens hfind hroom
    rw [decide_eq_false hseq, if_neg hseq, openedFlow_of_takePacket htake, hrx] at haccept
    refine ⟨_, ?_, ?_, ?_, ?_, RemoteOps.refused hh htake haccept⟩
    exacts [rfl, hcarried.mem_eq, hcarried.tx_eq, hcarried.denied_eq]
  · rw [exec_write hh, write_empty hdelivered hruns hshort]
  · have hcarried := carried_of_delivered hdelivered
    rw [write_standby hdelivered hruns hlong hmail hc, ctx_modLed, hcarried.ctx_eq]
    exact ⟨rfl, hcarried.mem_eq, hcarried.denied_eq⟩
  · have hcarried := carried_of_delivered hdelivered
    obtain ⟨hmem, hcount⟩ := RemoteOps.answer_mem (deny s1) p true Blob.empty
    rw [write_denied hdelivered hruns hlong hmail hdenied, hmem, hcount]
    exact ⟨congrArg MemSys.mem hcarried.mem_eq, congrArg (· + 1) hcarried.denied_eq⟩
  · have hcarried := carried_of_delivered hdelivered
    obtain ⟨hmem, hfab⟩ := write_stores hdelivered hruns hlong hmail hallowed
    rw [← hcarried.mem_eq] at hwf
    obtain ⟨hsame, -, -, -, -, hread, hpoison⟩ :=
      writeRange_facts s1 (accessAddr p) (p.payload.len - 8) (writtenBytes p).val hwf
    rw [hmem, hfab, hsame, ← hcarried.mem_eq]
    refine ⟨fun x => ?_, hpoison, hcarried.denied_eq⟩
    rw [hread, byte_eq]
    rfl
  · have hcarried := carried_of_delivered hdelivered
    obtain ⟨hmem, hcount⟩ := RemoteOps.answer_mem (deny s1) p true Blob.empty
    rw [read_refused hdelivered hruns hrefused, hmem, hcount]
    exact ⟨congrArg MemSys.mem hcarried.mem_eq, congrArg (· + 1) hcarried.denied_eq⟩
  · have hcarried := carried_of_delivered hdelivered
    rw [read_answered hdelivered hruns hmin hmax hallowed]
    obtain ⟨n, hread⟩ := readRange_state s1 (accessAddr p) p.operand
    obtain ⟨hmem, hcount⟩ := RemoteOps.answer_mem (readRange s1 (accessAddr p) p.operand).2 p false
      ⟨p.operand, (readRange s1 (accessAddr p) p.operand).1⟩
    rw [hmem, hcount, hread]
    exact ⟨congrArg MemSys.mem hcarried.mem_eq, hcarried.denied_eq⟩
  · have hcarried := carried_of_delivered hdelivered
    rw [← hcarried.mem_eq] at hclean
    rw [exec_read hh, read_answered hdelivered hruns hmin hmax hallowed, readRange_clean s1 (accessAddr p) _ hclean,
      hcarried.mem_eq]
    rfl
  · rw [exec_readData hh, readData_noContext hdelivered hnone]
  · have hcarried := carried_of_delivered hdelivered
    rw [readData_denied hdelivered hc hdenied, commitCause, ctx_modCommit, hcarried.ctx_eq, hk]
    exact ⟨rfl, hcarried.mem_eq⟩
  · have hcarried := carried_of_delivered hdelivered
    rw [← hcarried.ctx_eq] at hnone
    rw [readData_denied hdelivered hc hdenied, led_commitCause_none hnone, hcarried.ctx_eq]
    exact ⟨rfl, hcarried.mem_eq⟩
  · rw [exec_readData hh, readData_noRank hdelivered hc hdata hrank]
  · have hcarried := carried_of_delivered hdelivered
    rw [readData_gathers hdelivered hc hdata hrank, ctx_modLed, hcarried.ctx_eq]
    exact ⟨rfl, hcarried.mem_eq⟩

end Sys2Proof.Claims
end

section
/-!
PROOF. Fabric streams, collectives and credits (O34): STREAM, COLLECTIVE, CREDIT.
-/

-- One declaration after another: side by side they need more threads than the memory of the check leaves room for.
set_option Elab.async false

open Sys2Proof Sys2Proof.Machine Sys2Proof.Claims Sys2Proof.Laws Sys2Proof.Laws.RemoteAccess
  Sys2Proof.Laws.FabricStreams

namespace Sys2Proof.Laws.StreamPackets

section
variable {h : Nat} (hh : h < 16) (s : State)
include hh

theorem exec_stream : exec (.stream h) s = .next (stream s h) := withUnit_of (by simp [hh])

theorem exec_collective : exec (.collective h) s = .next (collective s h) := withUnit_of (by simp [hh])

theorem exec_credit : exec (.credit h) s = .next (credit s h) := withUnit_of (by simp [hh])

end

/-! ### Packets that are not for a context (09 R370, R373) -/

theorem carried_of_takeFor {s s1 : State} {h k c : Nat} {p : Pkt} (htake : takeFor s h k = (s1, some (p, c))) :
    Carried s s1 := takeFor_facts htake

theorem takeFor_none {s : State} {h k : Nat} (htake : takePacket s h k = none) : takeFor s h k = (s, none) := by
  simp only [takeFor, htake]

theorem takeFor_denied {s s0 : State} {h k : Nat} {p : Pkt} (htake : takePacket s h k = some (p, s0))
    (hjob : jobCtx s p.job = none) : takeFor s h k = (deny s0, none) := by
  rw [← (carried_of_takePacket htake).jobCtx_eq] at hjob
  simp only [takeFor, htake, hjob]

theorem takeFor_refused {s s0 s1 : State} {h k : Nat} {p : Pkt} (htake : takePacket s h k = some (p, s0))
    (hjob : (jobCtx s p.job).isSome = true) (haccept : acceptPacket s0 p = (s1, false)) :
    takeFor s h k = (s1, none) := by
  rw [← (carried_of_takePacket htake).jobCtx_eq] at hjob
  obtain ⟨c, hc⟩ := Option.isSome_iff_exists.1 hjob
  simp only [takeFor, htake, hc, haccept]

/-- A command with no packet for a context does no more than taking it did. -/
theorem exec_of_takeFor_none {h : Nat} (hh : h < 16) {s s1 : State} {k : Nat} {i : Instr}
    (hi : (k, i) ∈ [(0, Instr.stream h), (6, .collective h), (1, .credit h)]) (htake : takeFor s h k = (s1, none)) :
    exec i s = .next s1 := by
  simp only [List.mem_cons, Prod.mk.injEq, List.not_mem_nil, or_false] at hi
  rcases hi with ⟨rfl, rfl⟩ | ⟨rfl, rfl⟩ | ⟨rfl, rfl⟩
  · rw [exec_stream hh, stream, htake]
  · rw [exec_collective hh, collective, htake]
  · rw [exec_credit hh, credit, htake]

/-! ### Words for a stream (09 R370 to R372) -/

section
variable {s s1 : State} {h c : Nat} {p : Pkt}

theorem stream_packet (htake : takeFor s h 0 = (s1, some (p, c))) : stream s h = streamPacket s1 p c := by
  simp only [stream, htake]

theorem collective_packet (htake : takeFor s h 6 = (s1, some (p, c))) (htree : p.channel ≠ treeChannel)
    (hwords : bit p.operand 23 = false) : collective s h = streamPacket s1 p c := by
  simp only [collective, htake, htree, hwords, Bool.false_eq_true, if_false]

theorem collective_broadcast (htake : takeFor s h 6 = (s1, some (p, c))) (htree : p.channel ≠ treeChannel)
    (hroot : bit p.operand 23 = true) : collective s h = forwardBroadcast s1 p c := by
  simp only [collective, htake, htree, hroot, if_true, if_false]

theorem collective_tree (htake : takeFor s h 6 = (s1, some (p, c))) (htree : p.channel = treeChannel) :
    collective s h = commitWord s1 p c := by
  simp only [collective, htake, htree, if_true]

end

/-- An end that counts `n` more words as held. -/
def heldMore (n : Nat) (e : FabEnd) : FabEnd := { e with held := e.held + n }

/-- The end of a stream that a device's packets come to. -/
def endOf (x : Ctx) (r : StreamRec) (src : Nat) : Option (Nat × BitVec 32) :=
  (fabricEnds r).find? fun e => endPeer x e.2 = some src

theorem streamPacket_noStream {s : State} {p : Pkt} {c : Nat} (hnone : streamRec (s.ctx c) p.channel = none) :
    streamPacket s p c = s := by
  simp only [streamPacket, hnone]

section
variable {s : State} {p : Pkt} {c : Nat} {r : StreamRec} (hr : streamRec (s.ctx c) p.channel = some r)
include hr

theorem streamPacket_noEnd (hnone : endOf (s.ctx c) r p.src = none) : streamPacket s p c = s := by
  rw [endOf] at hnone
  simp only [streamPacket, hr, hnone]

variable {k : Nat} {e : BitVec 32} (hend : endOf (s.ctx c) r p.src = some (k, e))
include hend

theorem streamPacket_agrees (hfirst : p.operand = 0) (hcheck : p.payload = checkPayload r) : streamPacket s p c =
    s.modEnd c p.channel k fun e =>
      { e with started := true, credit := if k = farEnd then e.credit else r.capacity } := by
  rw [endOf] at hend
  simp only [streamPacket, hr, hend, hfirst, hcheck, if_true]

theorem streamPacket_mismatch (hfirst : p.operand = 0) (hcheck : p.payload ≠ checkPayload r) :
    streamPacket s p c = fabricMismatch s c r k := by
  rw [endOf] at hend
  simp only [streamPacket, hr, hend, hfirst, hcheck, if_true, if_false]

theorem streamPacket_noConsumer (hwords : p.operand ≠ 0) (hnear : k ≠ farEnd) : streamPacket s p c = s := by
  rw [endOf] at hend
  simp only [streamPacket, hr, hend, hwords, hnear, if_false, ne_eq, not_false_eq_true, if_true]

/-- The words join the stream one by one, once its end has counted them as held. -/
theorem streamPacket_words (hwords : p.operand ≠ 0) (hfar : k = farEnd) : streamPacket s p c =
    (payloadWords p.payload (p.operand % 32)).foldl (fun s w => arriveWord (tapWord s c p.channel w) c p.channel r w)
      (s.modEnd c p.channel farEnd (heldMore (p.operand % 32))) := by
  rw [endOf] at hend
  simp only [streamPacket, hr, hend, hwords, hfar, if_false, ne_eq, not_true_eq_false, payloadWords, List.length_map,
    List.length_range]
  rfl

end

theorem end_modEnd (s : State) (c i k : Nat) (f : FabEnd → FabEnd) :
    ((s.modEnd c i k f).stream c i).end' k = f ((s.stream c i).end' k) := by
  rw [State.modEnd, stream_modStream]
  exact tgetD_tmod_self (s.stream c i).fab k {} f

/-- Words that arrive leave the far end's account alone. -/
theorem held_words (s : State) (c i : Nat) (r : StreamRec) (ws : List SWord) :
    FE s (ws.foldl (fun s w => arriveWord (tapWord s c i w) c i r w) s) :=
  FE.foldl (fun u w => (FE.ofCK (sv_tap u c i w)).trans (FE.arrive _ c i r w)) ws s

/-! ### The commit tree (09 R374, 10 R402, R405) -/

/-- The ledger of the root, or of a rank, once the root's answer has come. -/
def answeredLed (l : Machine.Ledger) (d : THdr) : Machine.Ledger :=
  { l with commit := l.commit.map fun k => if k.c = d.sample then { k with answer := some d.use } else k }

/-- The ranks that the commit tree waits for. -/
def liveRanks (l : Machine.Ledger) : List Nat := (List.range l.ranks.length).filter fun r => !l.dropped.contains r

/-- The values of the leaves of a commit that have come. -/
def leafValues (l : Machine.Ledger) (leaves : Tbl (Nat × Nat)) (C : Nat) : List Nat :=
  (liveRanks l).filterMap fun r => match tget leaves r with
    | some (C', v) => if C' = C then some v else none
    | none => none

/-- The root can answer a commit: it has no answer yet, and a leaf of every live rank has come. -/
def Answerable (x : Ctx) (leaves : Tbl (Nat × Nat)) (k : Commit) : Prop :=
  commitRoot x = x.rank.toNat ∧ k.answer = none ∧ (leafValues x.led leaves k.c).length = (liveRanks x.led).length

/-- The root's answer: the greatest of the leaves. -/
def rootAnswer (x : Ctx) (leaves : Tbl (Nat × Nat)) (k : Commit) : Commit :=
  { k with answer := some (((leafValues x.led leaves k.c).find? (· ≠ 0)).getD 0) }

theorem led_sendTree (s : State) (c r operand : Nat) (b : Blob) : CK Ctx.led s (sendTree s c r operand b) := by
  unfold sendTree
  split
  · exact CK.sendPacket (fun _ _ _ _ => rfl) _ _ _ _ _ _ _
  · exact CK.refl _

section
variable {s : State} {c : Nat}

theorem answerCommit_none (hk : (s.ctx c).led.commit = none) : answerCommit s c = s := by
  simp only [answerCommit, hk]

variable {k : Commit} (hk : (s.ctx c).led.commit = some k)
include hk

theorem answerCommit_waits (hwaits : ¬ Answerable (s.ctx c) (s.ctx c).led.leaves k) : answerCommit s c = s := by
  simp only [answerCommit, hk]
  refine if_pos ?_
  simp only [ne_eq, Bool.or_eq_true, decide_eq_true_eq, Option.isSome_iff_ne_none]
  by_contra hno
  simp only [not_or, not_not] at hno
  obtain ⟨⟨hroot, hnone⟩, hlength⟩ := hno
  exact hwaits ⟨hroot, hnone, hlength⟩

theorem answerCommit_answers (hanswer : Answerable (s.ctx c) (s.ctx c).led.leaves k) :
    ((answerCommit s c).ctx c).led =
      { (s.ctx c).led with commit := some (rootAnswer (s.ctx c) (s.ctx c).led.leaves k) } := by
  obtain ⟨hroot, hnone, hlength⟩ := hanswer
  simp only [answerCommit, hk]
  rw [if_neg]
  · refine (CK.foldl (fun u r => ?_) _ _ c).trans ?_
    · split
      · exact CK.refl _
      · exact led_sendTree _ _ _ _ _
    · rw [ctx_modCommit, hk]
      rfl
  · simp only [ne_eq, Bool.or_eq_true, decide_eq_true_eq, hroot, hnone, not_true_eq_false, Option.isSome_none,
      Bool.false_eq_true, false_or]
    exact not_not.2 hlength

end

/-- What the root's look at its leaves leaves in the ledger. -/
theorem led_answerCommit (s : State) (c : Nat) : ((answerCommit s c).ctx c).led = { (s.ctx c).led with
    commit := (s.ctx c).led.commit.map fun k => if commitRoot (s.ctx c) = (s.ctx c).rank.toNat ∧ k.answer = none ∧
      (leafValues (s.ctx c).led (s.ctx c).led.leaves k.c).length = (liveRanks (s.ctx c).led).length
      then rootAnswer (s.ctx c) (s.ctx c).led.leaves k else k } := by
  cases hk : (s.ctx c).led.commit with
  | none =>
    rw [answerCommit_none hk, Option.map_none, ← hk]
  | some k =>
    rw [Option.map_some]
    split
    next hanswer => rw [answerCommit_answers hk hanswer]
    next hwaits => rw [answerCommit_waits hk hwaits, ← hk]

section
variable {s : State} {p : Pkt} {c : Nat}

theorem commitWord_empty (hnil : payloadWords p.payload (p.operand % 32) = []) : commitWord s p c = s := by
  simp only [commitWord, hnil]

variable {w : SWord} {ws : List SWord} (hwords : payloadWords p.payload (p.operand % 32) = w :: ws)
include hwords

theorem commitWord_answer (hroot : bit p.operand 23 = true) :
    ((commitWord s p c).ctx c).led = answeredLed (s.ctx c).led (THdr.parse w.bits) := by
  simp only [commitWord, hwords, hroot, if_true, ctx_modCommit]
  rfl

theorem commitWord_noRank (hleaf : bit p.operand 23 = false) (hrank : accRank (s.ctx c) p.src = none) :
    commitWord s p c = s := by
  simp only [commitWord, hwords, hleaf, hrank, Bool.false_eq_true, if_false]

theorem commitWord_leaf (hleaf : bit p.operand 23 = false) {r : Nat} (hrank : accRank (s.ctx c) p.src = some r) :
    let leaves := tset (s.ctx c).led.leaves r ((THdr.parse w.bits).sample, (THdr.parse w.bits).use)
    ((commitWord s p c).ctx c).led = { (s.ctx c).led with
      leaves := leaves
      commit := (s.ctx c).led.commit.map fun k => if commitRoot (s.ctx c) = (s.ctx c).rank.toNat ∧ k.answer = none ∧
        (leafValues (s.ctx c).led leaves k.c).length = (liveRanks (s.ctx c).led).length
        then rootAnswer (s.ctx c) leaves k else k } := by
  simp only [commitWord, hwords, hleaf, hrank, Bool.false_eq_true, if_false, led_answerCommit, ctx_modLed]
  rfl

end

/-! ### Credits (09 R371) -/

/-- The ends of the streams of a device that may take credits. -/
def creditEnds (im : Image) : List (Nat × Nat × BitVec 32) :=
  (im.streams.zipIdx).flatMap fun e => (fabricEnds e.1).map fun k => (e.2, k.1, k.2)

section
variable {s s1 : State} {h c : Nat} {p : Pkt} (htake : takeFor s h 1 = (s1, some (p, c)))
include htake

theorem credit_noImage (hnone : (s.ctx c).image = none) : credit s h = s1 := by
  rw [← (carried_of_takeFor htake).ctx_eq] at hnone
  simp only [credit, htake, hnone]

theorem credit_image {im : Image} (him : (s.ctx c).image = some im) (i k : Nat) :
    (((credit s h).stream c i).end' k).credit =
      ((s.stream c i).end' k).credit + p.operand * ((creditEnds im).countP fun e =>
      decide (e.1 = i ∧ e.2.1 = k ∧ k ≠ farEnd) && decide (epPeerStream e.2.2 = p.channel) &&
        decide (endPeer (s.ctx c) e.2.2 = some p.src)) := by
  have hctx := (carried_of_takeFor htake).ctx_eq c
  rw [← hctx] at him ⊢
  have hstream : s.stream c i = s1.stream c i := by rw [State.stream, ← hctx, State.stream]
  simp only [credit, htake, him, hstream, Bool.and_assoc]
  exact credit_fold c p.operand (fun e => decide (epPeerStream e.2.2 = p.channel) &&
    decide (endPeer (s1.ctx c) e.2.2 = some p.src)) i k (creditEnds im) s1

end

/-! ### The packets of a stream, by STREAM or by COLLECTIVE (09 R370 to R372) -/

theorem words_modEnd (s : State) (c i : Nat) (f : FabEnd → FabEnd) :
    (s.modEnd c i farEnd f).stream c i = { s.stream c i with fab := tmod (s.stream c i).fab farEnd {} f } :=
  stream_modStream _ _ _ _

section
variable {s : State} {p : Pkt} {c : Nat} {r : StreamRec} (hr : streamRec (s.ctx c) p.channel = some r)
  {e : BitVec 32} (hend : endOf (s.ctx c) r p.src = some (farEnd, e)) (hwords : p.operand ≠ 0)
include hr hend hwords

theorem streamPacket_held : (((streamPacket s p c).stream c p.channel).end' farEnd).held =
    ((s.stream c p.channel).end' farEnd).held + p.operand % 32 := by
  rw [streamPacket_words hr hend hwords rfl, Stream.end', held_words, ← Stream.end', end_modEnd]
  rfl

theorem streamPacket_queues (hfan : r.fanout < 3)
    (hlast : r.fanout = 2 → ∀ w ∈ (payloadWords p.payload (p.operand % 32)).dropLast, w.last = false) :
    (∀ n, n < r.consumers.length → queueOf r ((streamPacket s p c).stream c p.channel) n =
      queueOf r (s.stream c p.channel) n ++
        (if r.fanout = 1 ∨ n = (if r.fanout = 2 then (s.stream c p.channel).turn else 0)
          then payloadWords p.payload (p.operand % 32) else [])) ∧
    ((streamPacket s p c).stream c p.channel).turn =
      (if r.fanout = 2 ∧ ((payloadWords p.payload (p.operand % 32)).getLast?.any fun w => w.last)
        then ((s.stream c p.channel).turn + 1) % r.consumers.length else (s.stream c p.channel).turn) := by
  rw [streamPacket_words hr hend hwords rfl]
  have hrec := (rec_modStream s c p.channel fun t =>
    { t with fab := tmod t.fab farEnd {} (heldMore (p.operand % 32)) }).trans hr
  obtain ⟨hqueues, hturn⟩ := arrive_all c p.channel r hfan (payloadWords p.payload (p.operand % 32))
    (s.modEnd c p.channel farEnd (heldMore (p.operand % 32))) hrec hlast
  rw [words_modEnd] at hqueues hturn
  exact ⟨hqueues, hturn⟩

theorem streamPacket_got (hfan : r.fanout = 3)
    (hlast : ∀ w ∈ payloadWords p.payload (p.operand % 32), w.last = false) :
    ((streamPacket s p c).stream c p.channel).got =
      (s.stream c p.channel).got ++ payloadWords p.payload (p.operand % 32) := by
  rw [streamPacket_words hr hend hwords rfl, arrive_got c p.channel r hfan _ _ hlast, words_modEnd]

end

end Sys2Proof.Laws.StreamPackets

namespace Sys2Proof.Claims

open Sys2Proof.Laws Sys2Proof.Laws.RemoteAccess Sys2Proof.Laws.StreamPackets Sys2Proof.Laws.FabricStreams in
/-- Settles O34. A packet on its way to the transport changes no stream (`Carried`). STREAM and COLLECTIVE then do the
same to a stream (`harrives`): its words join the queues one by one (`arrive_all`, `arrive_got`), and its end counts
them. The commit tree's words change the ledger only, and the root's look at its leaves is `led_answerCommit`. -/
theorem streamsCrossTheFabric : Obligations.StreamsCrossTheFabric := by
  unfold Obligations.StreamsCrossTheFabric
  intro queue arrives
  have harrives (i : Instr) (s s1 : State) (p : Pkt) (c : Nat) (hc : Carried s s1)
      (hexec : exec i s = .next (streamPacket s1 p c)) : arrives i s s1 p c := by
    have hctx := hc.ctx_eq c
    have hstream : s.stream c p.channel = s1.stream c p.channel := by rw [State.stream, ← hctx, State.stream]
    refine ⟨fun hnone => ?_, fun r hr => ⟨fun hnone => ?_, fun k e hend => ⟨fun hfirst hcheck => nxt hexec ?_,
      fun hfirst hcheck => ?_, fun hwords hnear => ?_, fun hwords hfar => ⟨nxt hexec ?_, fun hfan => nxt hexec ?_,
      fun hfan hlast => nxt hexec ?_⟩⟩⟩⟩
    · rw [← hctx] at hnone
      rw [hexec, streamPacket_noStream hnone]
    · rw [← hctx] at hr hnone
      rw [hexec, streamPacket_noEnd hr hnone]
    · rw [← hctx] at hr hend
      rw [streamPacket_agrees hr hend hfirst hcheck, end_modEnd, hstream]
      exact ⟨rfl, rfl⟩
    · rw [← hctx] at hr hend
      rw [hexec, streamPacket_mismatch hr hend hfirst hcheck]
    · rw [← hctx] at hr hend
      rw [hexec, streamPacket_noConsumer hr hend hwords hnear]
    · subst hfar
      rw [← hctx] at hr hend
      rw [hstream]
      exact streamPacket_held hr hend hwords
    · subst hfar
      rw [← hctx] at hr hend
      rw [hstream]
      refine streamPacket_queues hr hend hwords (by omega) fun htwo => ?_
      rcases hfan with hless | ⟨-, hlast⟩
      · omega
      · exact hlast
    · subst hfar
      rw [← hctx] at hr hend
      rw [hstream]
      exact streamPacket_got hr hend hwords hfan hlast
  refine ⟨fun s s1 h c p hh htake => ?_, fun s s1 h c p hh htake htree => ⟨fun hwords => ?_, fun hroot => ?_⟩,
    fun s s1 h c p hh htake htree => ⟨fun hnil => ?_, fun w ws hwords => ⟨fun hroot => nxt (exec_collective hh s) ?_,
      fun hleaf hrank => ?_, fun hleaf r hrank => nxt (exec_collective hh s) ?_⟩⟩,
    fun s s1 h c p hh htake => ⟨fun hnone => ?_, fun im him => nxt (exec_credit hh s) ?_⟩,
    fun s h k i hh hi => ⟨fun htake => ?_, fun p s0 htake => ⟨fun hjob => ?_, fun hjob s1 haccept => ?_⟩⟩⟩
  · exact harrives _ _ _ _ _ (carried_of_takeFor htake) (by rw [exec_stream hh, stream_packet htake])
  · exact harrives _ _ _ _ _ (carried_of_takeFor htake)
      (by rw [exec_collective hh, collective_packet htake htree hwords])
  · have hc := carried_of_takeFor htake
    have htouched := touches_forwardBroadcast s1 p c
    refine nxt (exec_collective hh s) ⟨collective_broadcast htake htree hroot, ?_, ?_⟩
    · rw [collective_broadcast htake htree hroot, htouched.2 .cores (by decide), hc.cores_eq]
    · rw [collective_broadcast htake htree hroot, show (forwardBroadcast s1 p c).mem.mem = s1.mem.mem from
      htouched.2 .bytes (by decide), hc.mem_eq]
  · rw [exec_collective hh, collective_tree htake htree, commitWord_empty hnil]
  · rw [collective_tree htake htree, commitWord_answer hwords hroot, (carried_of_takeFor htake).ctx_eq]
    rfl
  · rw [← (carried_of_takeFor htake).ctx_eq] at hrank
    rw [exec_collective hh, collective_tree htake htree, commitWord_noRank hwords hleaf hrank]
  · have hctx := (carried_of_takeFor htake).ctx_eq c
    rw [← hctx] at hrank ⊢
    rw [collective_tree htake htree]
    exact commitWord_leaf hwords hleaf hrank
  · rw [exec_credit hh, credit_noImage htake hnone]
  · exact credit_image htake him
  · exact exec_of_takeFor_none hh hi (takeFor_none htake)
  · have hc := carried_of_takePacket htake
    refine nxt (exec_of_takeFor_none hh hi (takeFor_denied htake hjob)) ⟨?_, ?_, ?_, ?_, ?_⟩
    exacts [congrArg (· + 1) hc.denied_eq, hc.mem_eq, hc.ctxs_eq, hc.cores_eq,
      (show (deny s0).fab.rx = s0.fab.rx from rfl).trans (rx_of_takePacket htake)]
  · exact exec_of_takeFor_none hh hi (takeFor_refused htake hjob haccept)

end Sys2Proof.Claims
end

section
/-!
PROOF. Multicast sessions and loans (O35): MCAST, MCAST_SEND, LOAN, LOAN_DATA, NOTICE_LAGGED, NOTICE_DONE.
-/

-- One declaration after another: side by side they need more threads than the memory of the check leaves room for.
set_option Elab.async false

open Sys2Proof Sys2Proof.Machine Sys2Proof.Claims Sys2Proof.Laws Sys2Proof.Laws.RemoteAccess Sys2Proof.Laws.Sessions

namespace Sys2Proof.Laws.RemoteAccess.Carried

variable {s s1 : State} (hc : Carried s s1)
include hc

theorem sessions_eq : s1.fab.sessions = s.fab.sessions := by obtain ⟨links, rx, n, rfl⟩ := hc; rfl
theorem pulls_eq : s1.fab.pulls = s.fab.pulls := by obtain ⟨links, rx, n, rfl⟩ := hc; rfl
theorem served_eq : s1.fab.loansServed = s.fab.loansServed := by obtain ⟨links, rx, n, rfl⟩ := hc; rfl
theorem taken_eq : s1.fab.loansTaken = s.fab.loansTaken := by obtain ⟨links, rx, n, rfl⟩ := hc; rfl
theorem host_eq : s1.host = s.host := by obtain ⟨links, rx, n, rfl⟩ := hc; rfl

theorem findSession_eq (job : BitVec 32) (n : Nat) : findSession s1 job n = findSession s job n :=
  sess_of hc.sessions_eq job n

end Sys2Proof.Laws.RemoteAccess.Carried

namespace Sys2Proof.Laws.SessionPackets

section
variable {h : Nat} (hh : h < 16) (s : State)
include hh

theorem exec_mcast : exec (.mcast h) s = .next (mcast s h) := withUnit_of (by simp [hh])

theorem exec_loan : exec (.loan h) s = .next (loan s h) := withUnit_of (by simp [hh])

theorem exec_loanData : exec (.loanData h) s = .next (loanData s h) := withUnit_of (by simp [hh])

theorem exec_noticeLagged : exec (.noticeLagged h) s = .next (noticeLagged s h) := withUnit_of (by simp [hh])

theorem exec_noticeDone : exec (.noticeDone h) s = .next (campaignSettle (noticeDone s h)) :=
  withUnit_of (by simp [hh])

end

/-! ### The fields of a packet for a session (09 Table 9.12) -/

/-- The number of the session that a packet is for. -/
def sessionNumber (p : Pkt) : Nat := p.operand % 65536

/-- The offset of the range that a packet is about. -/
def rangeOffset (p : Pkt) : Nat := p.payload.bits 0 64

/-- The bytes that a packet of data carries. -/
def rangeData (p : Pkt) : Blob := p.payload.slice 8 (p.payload.len - 8)

/-! ### MCAST (09 R376) -/

theorem mcast_idle {s : State} {h : Nat} (htake : takePacket s h 7 = none) : mcast s h = s := by
  simp [mcast, packetStalls, takeFor, htake]

section
variable {s s1 : State} {h c : Nat} {p : Pkt} (htake : takeFor s h 7 = (s1, some (p, c)))
include htake

theorem packetStalls_mcast :
    packetStalls s h 7 (sessionRange s) = rangeStalls s (sessionRange s p).1 (sessionRange s p).2 := by
  obtain ⟨s0, htaken⟩ := takeFor_packet htake
  exact stalls_of _ htaken

theorem mcast_waits (hstalls : rangeStalls s (sessionRange s p).1 (sessionRange s p).2 = true) : mcast s h = s :=
  if_pos ((packetStalls_mcast htake).trans hstalls)

variable (hruns : rangeStalls s (sessionRange s p).1 (sessionRange s p).2 = false)
include hruns

theorem mcast_noSession (hnone : findSession s p.job (sessionNumber p) = none) : mcast s h = s1 := by
  rw [← (StreamPackets.carried_of_takeFor htake).findSession_eq, sessionNumber] at hnone
  simp only [mcast, packetStalls_mcast htake, hruns, htake, hnone, Bool.false_eq_true, if_false]

theorem mcast_session {x : Session} (hx : findSession s p.job (sessionNumber p) = some x) :
    mcast s h = memberWrite s1 x (rangeOffset p) (rangeData p) := by
  rw [← (StreamPackets.carried_of_takeFor htake).findSession_eq, sessionNumber] at hx
  simp only [mcast, packetStalls_mcast htake, hruns, htake, hx, Bool.false_eq_true, if_false, rangeOffset, rangeData]

end

/-! ### MCAST_SEND (09 R376) -/

/-- A child's connection can take another packet. -/
def hasRoom (s : State) (acc : Nat) (job : BitVec 32) : Bool :=
  match findTx s acc job 0xFFD with
  | some t => t.held.length < 64
  | none => true

theorem hasRoom_iff {s : State} {acc : Nat} {job : BitVec 32} :
    hasRoom s acc job = true ↔ ∀ u, findTx s acc job 0xFFD = some u → u.held.length < 64 := by
  unfold hasRoom
  cases findTx s acc job 0xFFD <;> simp

/-- How much of the parent's copy goes to a child next. -/
def nextLength (x : Session) (e : McastChild) : Nat := min rangeBytes (min x.got x.length - e.sent)

/-- How far the furthest attached child stands once a child at `start` is sent its range. -/
def furthest (x : Session) (start : Nat) : Nat :=
  x.children.foldl (fun m c => if c.attached then max m c.sent else m) start

theorem mcastSend_noSession {s : State} {job : BitVec 32} {n k : Nat} (hnone : findSession s job n = none) :
    mcastSend s job n k = s := by
  simp only [mcastSend, hnone]

section
variable {s : State} {job : BitVec 32} {n k : Nat} {x : Session} (hx : findSession s job n = some x)
include hx

theorem mcastSend_noChild (hnone : x.children[k]? = none) : mcastSend s job n k = s := by
  simp only [mcastSend, hx, hnone]

variable {e : McastChild} (he : x.children[k]? = some e)
include he

theorem mcastSend_eq : mcastSend s job n k =
    if !e.attached || decide (nextLength x e = 0) || !hasRoom s e.acc job || rangeStalls s (x.dest + e.sent)
      (nextLength x e) then s else
      let r := detachLagging s x k (furthest x (e.sent + nextLength x e))
      let v := readRange r.1 (x.dest + e.sent) (nextLength x e)
      putSession (sendPacket v.2 e.acc job 0xFFD 7 n (Blob.append ⟨8, e.sent⟩ ⟨nextLength x e, v.1⟩))
        { r.2 with children := r.2.children.modify k fun c => { c with sent := c.sent + nextLength x e } } := by
  simp only [mcastSend, hx, he]
  rfl

theorem mcastSend_idle (hidle : e.attached = false ∨ nextLength x e = 0 ∨ hasRoom s e.acc job = false ∨
    rangeStalls s (x.dest + e.sent) (nextLength x e) = true) : mcastSend s job n k = s := by
  rw [mcastSend_eq hx he]
  refine if_pos ?_
  rcases hidle with hdetached | hnothing | hfull | hstalls
  · simp [hdetached]
  · simp [hnothing]
  · simp [hfull]
  · simp [hstalls]

/-- A range for a child leaves the copy and its bytes as they are; the child is further, and those that lag are
detached. -/
theorem mcastSend_sends (hattached : e.attached = true) (hlen : nextLength x e ≠ 0)
    (hroom : hasRoom s e.acc job = true)
    (hruns : rangeStalls s (x.dest + e.sent) (nextLength x e) = false) :
    (mcastSend s job n k).mem.mem = s.mem.mem ∧ ∃ y, findSession (mcastSend s job n k) job n = some y ∧
      y.children[k]? = some { e with sent := e.sent + nextLength x e } ∧ y.got = x.got ∧
      ∀ j f, j ≠ k → x.children[j]? = some f → y.children[j]? =
        some (if f.attached && decide (x.budget < furthest x (e.sent + nextLength x e) - f.sent)
          then { f with attached := false } else f) := by
  rw [mcastSend_eq hx he, if_neg (by simp [hattached, hlen, hroom, hruns])]
  dsimp only
  obtain ⟨hsessions, hmem, C, hdetached, hchildren⟩ :=
    detach_facts x.budget (furthest x (e.sent + nextLength x e)) k x x.children.zipIdx (s, x)
  rw [show (x.children.zipIdx).foldl _ (s, x) = detachLagging s x k (furthest x (e.sent + nextLength x e)) from rfl]
    at hsessions hmem hdetached
  generalize detachLagging s x k (furthest x (e.sent + nextLength x e)) = r at hsessions hmem hdetached
  have hsent := (PK.read r.1 (x.dest + e.sent) (nextLength x e)).trans
    (PK.send _ e.acc job 0xFFD 7 n (Blob.append ⟨8, e.sent⟩
      ⟨nextLength x e, (readRange r.1 (x.dest + e.sent) (nextLength x e)).1⟩))
  have hkept : C[k]? = some e := by
    rw [hchildren k, if_neg, he]
    simp only [List.any_eq_true, Bool.and_eq_true, decide_eq_true_eq]
    rintro ⟨a, -, hself, ⟨hother, -⟩, -⟩
    exact hother hself
  refine ⟨(congrArg MemSys.mem hsent.mem).trans hmem, _,
    find_sess _ x _ job n ((sess_of (hsent.sessions.trans hsessions) job n).trans hx) ?_ ?_, ?_, ?_,
    fun j f hj hf => ?_⟩
  · rw [hdetached]
  · rw [hdetached]
  · rw [hdetached, List.getElem?_modify_eq, hkept]
    rfl
  · rw [hdetached]
  · have hlags := any_zip x.budget (furthest x (e.sent + nextLength x e)) k j x.children f hj hf 0
    simp only [Nat.zero_add] at hlags
    rw [hdetached, List.getElem?_modify_ne _ _ (Ne.symm hj), hchildren j, hlags, hf]
    split <;> rfl

end

/-! ### LOAN (09 R377) -/

/-- The length that a borrower asks for. -/
def askedLength (p : Pkt) : Nat := p.payload.bits 64 32

/-- How many bytes of a session's copy a LOAN asks for at most have to be at hand before it is taken. -/
def loanExtent (s : State) (p : Pkt) : Nat := if (sessionRange s p).1 = 0 then 0 else askedLength p

theorem loan_idle {s : State} {h : Nat} (htake : takePacket s h 8 = none) : loan s h = s := by
  simp [loan, packetStalls, htake]

section
variable {s s1 : State} {h : Nat} {p : Pkt} (hdelivered : Delivered s h 8 p s1)
include hdelivered

theorem packetStalls_loan : (packetStalls s h 8 fun p => (let r := sessionRange s p
    (r.1, if r.1 = 0 then 0 else p.payload.bits 64 32))) = rangeStalls s (sessionRange s p).1 (loanExtent s p) := by
  obtain ⟨s0, htake, -⟩ := hdelivered
  exact stalls_of _ htake

theorem loan_waits (hstalls : rangeStalls s (sessionRange s p).1 (loanExtent s p) = true) : loan s h = s :=
  if_pos ((packetStalls_loan hdelivered).trans hstalls)

variable (hruns : rangeStalls s (sessionRange s p).1 (loanExtent s p) = false)
include hruns

/-- A volume's range is answered from its resident copy. -/
theorem loan_volume (hvolume : sessionNumber p = 0xFFFF) {v : Volume}
    (hv : (s.host.volumes.find? fun v => v.job = p.job) = some v) :
    (loan s h).fab.loansServed = s.fab.loansServed + 1 ∧ (loan s h).mem.mem = s.mem.mem := by
  have hcarried := carried_of_delivered hdelivered
  rw [← hcarried.host_eq] at hv
  have hstalls := (packetStalls_loan hdelivered).trans hruns
  obtain ⟨s0, htake, haccept⟩ := hdelivered
  rw [sessionNumber] at hvolume
  have hloan : loan s h = ((ranges (rangeOffset p) (min (askedLength p) (v.raw.len - rangeOffset p))).foldl (fun s r =>
      sendPacket s p.src p.job 0xFFD 9 (sessionNumber p) (Blob.append ⟨8, r.1⟩ (v.raw.slice r.1 r.2))) s1).modFab
        fun f => { f with loansServed := f.loansServed + 1 } := by
    simp only [loan, hstalls, htake, haccept, hvolume, hv, Bool.false_eq_true, if_false, if_true, rangeOffset, askedLength,
      sessionNumber]
  have hsent := PK.foldl (f := fun s r =>
    sendPacket s p.src p.job 0xFFD 9 (sessionNumber p) (Blob.append ⟨8, r.1⟩ (v.raw.slice r.1 r.2)))
    (fun s r => PK.send _ _ _ _ _ _ _) (ranges (rangeOffset p) (min (askedLength p) (v.raw.len - rangeOffset p))) s1
  rw [hloan]
  exact ⟨congrArg (· + 1) (hsent.served.trans hcarried.served_eq),
    congrArg MemSys.mem (hsent.mem.trans hcarried.mem_eq)⟩

theorem loan_noVolume (hvolume : sessionNumber p = 0xFFFF)
    (hnone : (s.host.volumes.find? fun v => v.job = p.job) = none) : loan s h = s1 := by
  rw [← (carried_of_delivered hdelivered).host_eq] at hnone
  have hstalls := (packetStalls_loan hdelivered).trans hruns
  obtain ⟨s0, htake, haccept⟩ := hdelivered
  rw [sessionNumber] at hvolume
  simp only [loan, hstalls, htake, haccept, hvolume, hnone, Bool.false_eq_true, if_false, if_true]

variable (hsession : sessionNumber p ≠ 0xFFFF)
include hsession

theorem loan_noSession (hnone : findSession s p.job (sessionNumber p) = none) : loan s h = s1 := by
  rw [← (carried_of_delivered hdelivered).findSession_eq, sessionNumber] at hnone
  have hstalls := (packetStalls_loan hdelivered).trans hruns
  obtain ⟨s0, htake, haccept⟩ := hdelivered
  rw [sessionNumber] at hsession
  simp only [loan, hstalls, htake, haccept, hsession, hnone, Bool.false_eq_true, if_false]

variable {x : Session} (hx : findSession s p.job (sessionNumber p) = some x)
include hx

theorem loan_denied
    (hdenied : remoteOk s p.job (x.dest + rangeOffset p) (min (askedLength p) (x.length - rangeOffset p)) = false) :
    loan s h = deny s1 := by
  rw [← (carried_of_delivered hdelivered).findSession_eq, sessionNumber] at hx
  rw [← (carried_of_delivered hdelivered).remoteOk_eq, rangeOffset, askedLength] at hdenied
  have hstalls := (packetStalls_loan hdelivered).trans hruns
  obtain ⟨s0, htake, haccept⟩ := hdelivered
  rw [sessionNumber] at hsession
  simp only [loan, hstalls, htake, haccept, hsession, hx, hdenied, Bool.false_eq_true, if_false, Bool.not_false, if_true]

theorem loan_lends
    (hallowed : remoteOk s p.job (x.dest + rangeOffset p) (min (askedLength p) (x.length - rangeOffset p)) = true) :
    loan s h = serveLoans p.job (sessionNumber p) (x.loans.length + 1)
      (putSession s1 { x with loans := x.loans ++ [⟨p.src, rangeOffset p, askedLength p⟩] }) := by
  rw [← (carried_of_delivered hdelivered).findSession_eq, sessionNumber] at hx
  rw [← (carried_of_delivered hdelivered).remoteOk_eq, rangeOffset, askedLength] at hallowed
  have hstalls := (packetStalls_loan hdelivered).trans hruns
  obtain ⟨s0, htake, haccept⟩ := hdelivered
  rw [sessionNumber] at hsession
  simp only [loan, hstalls, htake, haccept, hsession, hx, hallowed, Bool.false_eq_true, if_false, Bool.not_true, rangeOffset,
    askedLength, sessionNumber]

end

/-! ### LOAN_DATA (09 R377, 11 R440) -/

theorem loanData_idle {s : State} {h : Nat} (htake : takePacket s h 9 = none) : loanData s h = s := by
  simp [loanData, packetStalls, htake]

section
variable {s s1 : State} {h : Nat} {p : Pkt} (hdelivered : Delivered s h 9 p s1)
include hdelivered

theorem packetStalls_loanData :
    packetStalls s h 9 (sessionRange s) = rangeStalls s (sessionRange s p).1 (sessionRange s p).2 := by
  obtain ⟨s0, htake, -⟩ := hdelivered
  exact stalls_of _ htake

theorem loanData_waits (hstalls : rangeStalls s (sessionRange s p).1 (sessionRange s p).2 = true) : loanData s h = s :=
  if_pos ((packetStalls_loanData hdelivered).trans hstalls)

variable (hruns : rangeStalls s (sessionRange s p).1 (sessionRange s p).2 = false)
include hruns

theorem loanData_noSession (hsession : sessionNumber p ≠ 0xFFFF)
    (hnone : findSession s p.job (sessionNumber p) = none) : loanData s h = s1 := by
  rw [← (carried_of_delivered hdelivered).findSession_eq, sessionNumber] at hnone
  have hstalls := (packetStalls_loanData hdelivered).trans hruns
  obtain ⟨s0, htake, haccept⟩ := hdelivered
  rw [sessionNumber] at hsession
  simp only [loanData, hstalls, htake, haccept, hsession, hnone, Bool.false_eq_true, if_false]

theorem loanData_noPull (hvolume : sessionNumber p = 0xFFFF)
    (hnone : (s.fab.pulls.find? fun u => u.peer = p.src && u.job = p.job) = none) : loanData s h = s1 := by
  rw [← (carried_of_delivered hdelivered).pulls_eq] at hnone
  have hstalls := (packetStalls_loanData hdelivered).trans hruns
  obtain ⟨s0, htake, haccept⟩ := hdelivered
  rw [sessionNumber] at hvolume
  simp only [loanData, hstalls, htake, haccept, hvolume, hnone, Bool.false_eq_true, if_false, if_true]

theorem loanData_pull (hvolume : sessionNumber p = 0xFFFF) {u : Pull}
    (hu : (s.fab.pulls.find? fun u => u.peer = p.src && u.job = p.job) = some u) :
    loanData s h = pullData s1 u (rangeOffset p) (rangeData p) := by
  rw [← (carried_of_delivered hdelivered).pulls_eq] at hu
  have hstalls := (packetStalls_loanData hdelivered).trans hruns
  obtain ⟨s0, htake, haccept⟩ := hdelivered
  rw [sessionNumber] at hvolume
  simp only [loanData, hstalls, htake, haccept, hvolume, hu, Bool.false_eq_true, if_false, if_true, rangeOffset, rangeData]

end

/-- A loan of a session ends with the data of a packet. -/
def endsLoan (x : Session) (p : Pkt) : Bool := x.outstanding.any fun o => o.1 + o.2 = rangeOffset p + (rangeData p).len

/-- The session without the loan that the data of a packet end. -/
def endedBy (x : Session) (p : Pkt) : Session :=
  { x with outstanding := x.outstanding.filter fun o => o.1 + o.2 ≠ rangeOffset p + (rangeData p).len }

/-- A loan that the data of a packet end is counted, and no longer outstanding. -/
def loanSettled (s : State) (x : Session) (p : Pkt) : State :=
  putSession (if endsLoan x p then s.modFab fun f => { f with loansTaken := f.loansTaken + 1 } else s) (endedBy x p)

theorem loanSettled_facts {s : State} {x : Session} {job : BitVec 32} {n : Nat}
    (hx : findSession s job n = some x) (p : Pkt) :
    findSession (loanSettled s x p) job n = some (endedBy x p) ∧ (loanSettled s x p).mem = s.mem ∧
      (loanSettled s x p).fab.loansTaken = s.fab.loansTaken + if endsLoan x p then 1 else 0 := by
  refine ⟨find_sess _ x _ job n ((sess_of ?_ job n).trans hx) rfl rfl, ?_⟩
  · split <;> rfl
  · unfold loanSettled
    split
    · exact ⟨rfl, rfl⟩
    · exact ⟨rfl, (BitVec.add_zero _).symm⟩

section
variable {s s1 : State} {h : Nat} {p : Pkt} (hdelivered : Delivered s h 9 p s1)
  (hruns : rangeStalls s (sessionRange s p).1 (sessionRange s p).2 = false) (hsession : sessionNumber p ≠ 0xFFFF)
  {x : Session} (hx : findSession s p.job (sessionNumber p) = some x)
include hdelivered hruns hsession hx

theorem loanData_session : loanData s h = borrowMore p.job (sessionNumber p) 16
    (memberWrite (loanSettled s1 x p) (endedBy x p)
      (rangeOffset p) (rangeData p)) := by
  rw [← (carried_of_delivered hdelivered).findSession_eq, sessionNumber] at hx
  have hstalls := (packetStalls_loanData hdelivered).trans hruns
  obtain ⟨s0, htake, haccept⟩ := hdelivered
  rw [sessionNumber] at hsession
  simp only [loanData, hstalls, htake, haccept, hsession, hx, Bool.false_eq_true, if_false]
  rfl

end

/-! ### Pulls of volumes (11 R440) -/

/-- Asking for more of a volume sends packets and marks chunks. -/
theorem pullMore_keeps (peer : Nat) (job : BitVec 32) (n : Nat) (s : State) :
    (pullMore peer job n s).mem = s.mem ∧ (pullMore peer job n s).fab.loansTaken = s.fab.loansTaken := by
  induction n generalizing s with
  | zero => exact ⟨rfl, rfl⟩
  | succ n ih =>
    unfold pullMore
    split
    · exact ⟨rfl, rfl⟩
    · split
      · exact ⟨rfl, rfl⟩
      · split
        · exact ⟨rfl, rfl⟩
        · obtain ⟨hmem, htaken⟩ := ih _
          exact ⟨hmem.trans (PK.send _ _ _ _ _ _ _).mem, htaken.trans (PK.send _ _ _ _ _ _ _).taken⟩

/-- How long a volume is, as its header says, once data have come at a chunk. -/
def volumeLength (u : Pull) (i : Nat) (b' : Blob) : Nat :=
  if i = 0 && !u.headed then b'.bits 96 64 else (pullBlob u loanBytes).bits 96 64

theorem volumeLength_eq (u : Pull) (i : Nat) (b' : Blob) : volumeLength u i b' =
    if i = 0 ∧ u.headed = false then b'.bits 96 64 else (pullBlob u loanBytes).bits 96 64 := by
  simp [volumeLength]

/-- The pull of a volume once a chunk of it is whole. -/
def chunkDone (u : Pull) (i : Nat) (b' : Blob) : Pull := { u with out := terase u.out i, chunks := tset u.chunks i b' }

/-- A pull in its new state, with the loan counted that it ends. -/
def putPull (s : State) (u u' : Pull) (ended : Bool) : State := s.modFab fun x => { x with
  pulls := x.pulls.map fun y => if y = u then u' else y
  loansTaken := x.loansTaken + if ended then 1 else 0 }

section
variable {s : State} {u : Pull} {off : Nat} {d : Blob}

theorem pullData_absent (hnone : tget u.out (off / loanBytes) = none) : pullData s u off d = s := by
  simp only [pullData, hnone]

variable {b : Blob} (hb : tget u.out (off / loanBytes) = some b)
include hb

theorem pullData_outOfPlace (hplace : off ≠ loanBytes * (off / loanBytes) + b.len) : pullData s u off d = s := by
  simp only [pullData, hb]
  exact if_pos hplace

variable (hplace : off = loanBytes * (off / loanBytes) + b.len)
include hplace

theorem pullData_more (hmore : (Blob.append b d).len ≠
      min loanBytes (volumeLength u (off / loanBytes) (Blob.append b d) - loanBytes * (off / loanBytes))) :
    pullData s u off d =
      putPull s u { u with out := tset u.out (off / loanBytes) (Blob.append b d) } false := by
  rw [volumeLength] at hmore
  simp only [pullData, hb, ← hplace, ne_eq, not_true_eq_false, if_false, hmore, decide_false, Bool.false_eq_true]
  rfl

theorem pullData_whole (hwhole : (Blob.append b d).len =
      min loanBytes (volumeLength u (off / loanBytes) (Blob.append b d) - loanBytes * (off / loanBytes))) :
    pullData s u off d =
      pullMore u.peer u.job 16 (putPull s u (chunkDone u (off / loanBytes) (Blob.append b d)) true) := by
  rw [volumeLength] at hwhole
  simp only [pullData, hb, ← hplace, ne_eq, not_true_eq_false, if_false, hwhole, decide_true, if_true]
  rfl

end

/-! ### The notices (09 R377, R378) -/

theorem noticeLagged_none {s s1 : State} {h : Nat} (htake : takeNotice s h 1 = (s1, none)) : noticeLagged s h = s1 := by
  simp only [noticeLagged, htake]

theorem noticeDone_none {s s1 : State} {h : Nat} (htake : takeNotice s h 2 = (s1, none)) : noticeDone s h = s1 := by
  simp only [noticeDone, htake]

theorem carried_of_takeNotice {s s1 : State} {h k : Nat} {p : Pkt} (htake : takeNotice s h k = (s1, some p)) :
    Carried s s1 := takeNotice_facts htake

/-- A session that begins to borrow at a byte. -/
def borrowingFrom (x : Session) (off : Nat) : Session := { x with borrowing := true, borrow := off, outstanding := [] }

theorem startBorrow_facts {s : State} {job : BitVec 32} {n off : Nat} {x : Session} (hx : findSession s job n = some x) :
    ∃ y, findSession (startBorrow s job n off) job n = some y ∧ y.borrowing = true ∧ off ≤ y.borrow ∧ y.got = x.got ∧
      (startBorrow s job n off).mem = s.mem := by
  obtain ⟨b, o, hb, hfind⟩ := borrow_find job n (borrowingFrom x off) 16 (putSession s (borrowingFrom x off)) off []
    (Nat.le_refl _) (find_sess s x _ job n hx rfl rfl)
  obtain ⟨hmem, -⟩ := borrow_PK job n 16 (putSession s (borrowingFrom x off))
  rw [startBorrow, hx]
  exact ⟨_, hfind, rfl, hb, rfl, hmem⟩

theorem startBorrow_noSession {s : State} {job : BitVec 32} {n off : Nat} (hnone : findSession s job n = none) :
    startBorrow s job n off = s := by
  simp only [startBorrow, hnone]

theorem noticeLagged_some {s s1 : State} {h : Nat} {p : Pkt} (htake : takeNotice s h 1 = (s1, some p)) :
    noticeLagged s h = startBorrow s1 p.job (sessionNumber p) (rangeOffset p) := by
  simp only [noticeLagged, htake, sessionNumber, rangeOffset]

/-- The children of a session once the DONE of a device is in. -/
def toldDone (x : Session) (acc : Nat) : Session :=
  { x with children := x.children.map fun k => if k.acc = acc then { k with done := true } else k }

section
variable {s s1 : State} {h : Nat} {p : Pkt} (htake : takeNotice s h 2 = (s1, some p))
include htake

theorem noticeDone_noSession (hnone : findSession s p.job (sessionNumber p) = none) : noticeDone s h = s1 := by
  rw [← (carried_of_takeNotice htake).findSession_eq, sessionNumber] at hnone
  simp only [noticeDone, htake, hnone]

theorem noticeDone_session {x : Session} (hx : findSession s p.job (sessionNumber p) = some x) :
    noticeDone s h = tryDone (putSession s1 (toldDone x p.src)) p.job (sessionNumber p) := by
  rw [← (carried_of_takeNotice htake).findSession_eq, sessionNumber] at hx
  simp only [noticeDone, htake, hx]
  rfl

end

end Sys2Proof.Laws.SessionPackets

namespace Sys2Proof.Claims

open Sys2Proof.Laws Sys2Proof.Laws.RemoteAccess Sys2Proof.Laws.StreamPackets Sys2Proof.Laws.SessionPackets
  Sys2Proof.Laws.Sessions in
/-- Settles O35. A packet on its way to the transport changes no session, volume or pull (`Carried`). A range that is in
order is one write and lets the session answer loans and say DONE (`memberWrite_facts`); loans are answered in turn
(`serve_all`); a borrower keeps its copy while it asks for more (`borrow_find`). -/
theorem sessionsDeliverAndLend : Obligations.SessionsDeliverAndLend := by
  unfold Obligations.SessionsDeliverAndLend
  intro finished answered stored
  refine ⟨fun s s1 h c p hh htake => ⟨fun hstalls => ?_, fun hruns => ⟨fun hnone => ?_, fun x hx => ⟨fun hidle => ?_,
      fun hplace hfits hwf => nxt (exec_mcast hh s) ?_⟩⟩⟩,
    fun s h hh htake => ?_,
    fun s job n k => ⟨fun hnone => ?_, fun x hx => ⟨fun hnone => ?_, fun e he => ⟨fun hidle => ?_,
      fun hattached hlen hroom hruns => nxt rfl ?_⟩⟩⟩,
    fun s s1 h p hh hdelivered => ⟨fun hstalls => ?_, fun hruns => ⟨fun v hvolume hv => nxt (exec_loan hh s) ?_,
      fun hvolume hnone => ?_, fun hsession hnone => ?_, fun x hsession hx => ⟨fun hdenied => nxt (exec_loan hh s) ?_,
      fun hallowed => nxt (exec_loan hh s) ?_⟩⟩⟩,
    fun s s1 h p hh hdelivered => ⟨fun hstalls => ?_, fun hruns => ⟨fun hsession hnone => ?_,
      fun x hsession hx => ⟨fun hplace hfits hwf => nxt (exec_loanData hh s) ?_,
        fun hidle => nxt (exec_loanData hh s) ?_⟩,
      fun hvolume hnone => ?_, fun u hvolume hu => ⟨fun hnone => ?_, fun b hb => ⟨fun hplace => ?_,
        fun hplace hmore => nxt (exec_loanData hh s) ?_, fun hplace hwhole => nxt (exec_loanData hh s) ?_⟩⟩⟩⟩,
    fun s h hh => ⟨fun htake => ?_, fun htake => ?_, fun s1 htake => ?_, fun s1 htake => ?_⟩,
    fun s s1 h p hh htake => ⟨fun hnone => ?_, fun x hx => nxt (exec_noticeLagged hh s) ?_⟩,
    fun s s1 h p hh htake => ⟨fun hnone => ?_, fun x hx => nxt (exec_noticeDone hh s) ?_⟩⟩
  · rw [exec_mcast hh, mcast_waits htake hstalls]
  · rw [exec_mcast hh, mcast_noSession htake hruns hnone]
  · rw [exec_mcast hh, mcast_session htake hruns hx, memberWrite_idle s1 x (rangeOffset p) (rangeData p) hidle]
  · have hc := carried_of_takeFor htake
    rw [mcast_session htake hruns hx]
    rw [← hc.mem_eq] at hwf
    rw [← hc.findSession_eq] at hx
    obtain ⟨hbytes, hpoison, ⟨hfind, hserved⟩, -⟩ :=
      memberWrite_facts s1 x (rangeOffset p) (rangeData p) p.job (sessionNumber p) hx hplace hfits hwf
    rw [hc.mem_eq] at hbytes hpoison
    rw [hc.served_eq] at hserved
    exact ⟨⟨hbytes, hpoison⟩, hfind, hserved⟩
  · rw [exec_mcast hh, mcast_idle htake]
  · exact congrArg Host.Outcome.next (mcastSend_noSession hnone)
  · exact congrArg Host.Outcome.next (mcastSend_noChild hx hnone)
  · refine congrArg Host.Outcome.next (mcastSend_idle hx he ?_)
    rw [← hasRoom_iff, Bool.not_eq_true] at hidle
    exact hidle
  · exact mcastSend_sends hx he hattached hlen (hasRoom_iff.2 hroom) hruns
  · rw [exec_loan hh, loan_waits hdelivered hstalls]
  · exact loan_volume hdelivered hruns hvolume hv
  · rw [exec_loan hh, loan_noVolume hdelivered hruns hvolume hnone]
  · rw [exec_loan hh, loan_noSession hdelivered hruns hsession hnone]
  · have hc := carried_of_delivered hdelivered
    rw [loan_denied hdelivered hruns hsession hx hdenied]
    exact ⟨(hc.findSession_eq _ _).trans hx, congrArg (· + 1) hc.denied_eq, congrArg MemSys.mem hc.mem_eq⟩
  · have hc := carried_of_delivered hdelivered
    rw [loan_lends hdelivered hruns hsession hx hallowed]
    rw [← hc.findSession_eq] at hx
    obtain ⟨hfind, hserved, hmem, -⟩ := serve_all p.job (sessionNumber p) (x.loans.length + 1)
      (putSession s1 { x with loans := x.loans ++ [⟨p.src, rangeOffset p, askedLength p⟩] }) _
      (find_sess s1 x _ _ _ hx rfl rfl) (by simp)
    refine ⟨hfind, hserved.trans ?_, congrArg MemSys.mem (hmem.trans hc.mem_eq)⟩
    rw [show (putSession s1 _).fab.loansServed = s1.fab.loansServed from rfl, hc.served_eq]
    rfl
  · rw [exec_loanData hh, loanData_waits hdelivered hstalls]
  · rw [exec_loanData hh, loanData_noSession hdelivered hruns hsession hnone]
  · have hc := carried_of_delivered hdelivered
    rw [loanData_session hdelivered hruns hsession hx]
    rw [← hc.findSession_eq] at hx
    obtain ⟨hfind, hmem, htaken⟩ := loanSettled_facts hx p
    rw [hc.mem_eq] at hmem
    rw [hc.taken_eq] at htaken
    rw [← hmem] at hwf
    obtain ⟨hbytes, hpoison, -, hcount⟩ := memberWrite_facts _ (endedBy x p) (rangeOffset p)
      (rangeData p) p.job (sessionNumber p) hfind hplace hfits hwf
    obtain ⟨hborrow, hborrowed⟩ := borrow_PK p.job (sessionNumber p) 16
      (memberWrite (loanSettled s1 x p) (endedBy x p) (rangeOffset p) (rangeData p))
    rw [← hborrow, hmem] at hbytes hpoison
    exact ⟨⟨hbytes, hpoison⟩, hborrowed.trans (hcount.trans htaken)⟩
  · have hc := carried_of_delivered hdelivered
    rw [loanData_session hdelivered hruns hsession hx,
      memberWrite_idle _ (endedBy x p) (rangeOffset p) (rangeData p) hidle]
    rw [← hc.findSession_eq] at hx
    obtain ⟨hfind, hmem, -⟩ := loanSettled_facts hx p
    rw [hc.mem_eq] at hmem
    obtain ⟨hborrow, -⟩ := borrow_PK p.job (sessionNumber p) 16 (loanSettled s1 x p)
    obtain ⟨borrow, out, -, hfind'⟩ := borrow_find p.job (sessionNumber p) (endedBy x p) 16 _ _ _
      (Nat.le_refl _) hfind
    refine ⟨congrArg MemSys.mem (hborrow.trans hmem), ?_⟩
    rw [show p.operand % 65536 = sessionNumber p from rfl, hfind']
    rfl
  · rw [exec_loanData hh, loanData_noPull hdelivered hruns hvolume hnone]
  · rw [exec_loanData hh, loanData_pull hdelivered hruns hvolume hu, pullData_absent (off := rangeOffset p) hnone]
  · rw [exec_loanData hh, loanData_pull hdelivered hruns hvolume hu,
      pullData_outOfPlace (off := rangeOffset p) hb hplace]
  · have hc := carried_of_delivered hdelivered
    rw [← volumeLength_eq] at hmore
    rw [loanData_pull hdelivered hruns hvolume hu,
      pullData_more (off := rangeOffset p) (d := rangeData p) hb hplace hmore]
    exact ⟨congrArg _ hc.pulls_eq, (BitVec.add_zero _).trans hc.taken_eq, hc.mem_eq⟩
  · have hc := carried_of_delivered hdelivered
    rw [← volumeLength_eq] at hwhole
    rw [loanData_pull hdelivered hruns hvolume hu,
      pullData_whole (off := rangeOffset p) (d := rangeData p) hb hplace hwhole]
    obtain ⟨hmem, htaken⟩ := pullMore_keeps u.peer u.job 16
      (putPull s1 u (chunkDone u (rangeOffset p / loanBytes) (Blob.append b (rangeData p))) true)
    exact ⟨htaken.trans (congrArg (· + 1) hc.taken_eq), hmem.trans hc.mem_eq⟩
  · rw [exec_loan hh, loan_idle htake]
  · rw [exec_loanData hh, loanData_idle htake]
  · rw [exec_noticeLagged hh, noticeLagged_none htake]
  · rw [exec_noticeDone hh, noticeDone_none htake]
  · have hc := carried_of_takeNotice htake
    rw [← hc.findSession_eq] at hnone
    rw [exec_noticeLagged hh, noticeLagged_some htake, startBorrow_noSession (n := sessionNumber p) hnone]
  · have hc := carried_of_takeNotice htake
    rw [← hc.findSession_eq] at hx
    rw [noticeLagged_some htake]
    obtain ⟨y, hfind, hborrowing, hfrom, hgot, hmem⟩ := startBorrow_facts (off := rangeOffset p) hx
    exact ⟨y, hfind, hborrowing, hfrom, hgot, hmem.trans hc.mem_eq⟩
  · rw [exec_noticeDone hh, noticeDone_noSession htake hnone]
  · have hc := carried_of_takeNotice htake
    rw [noticeDone_session htake hx]
    rw [← hc.findSession_eq] at hx
    obtain ⟨hfind, -⟩ := done_all _ p.job (sessionNumber p) _ (find_sess s1 x (toldDone x p.src) _ _ hx rfl rfl)
    exact (sess_of (congrArg Fabric.sessions (settle_fab _)) _ _).trans hfind

end Sys2Proof.Claims
end

section
/-!
PROOF. Ethernet frames, segments and exports (O36): ETH_FRAME, SEGMENT_OPEN, SEGMENT_DATA, SAMPLE, EXPORT_ACK,
EXPORT_RESEND.
-/

-- One declaration after another: side by side they need more threads than the memory of the check leaves room for.
set_option Elab.async false

open Sys2Proof Sys2Proof.Machine Sys2Proof.Claims Sys2Proof.Laws Sys2Proof.Laws.RemoteAccess Sys2Proof.Laws.Segments

namespace Sys2Proof.Laws.SegmentPackets

section
variable {h : Nat} (hh : h < 16) (s : State)
include hh

theorem exec_ethFrame (f : Blob) (fec : Fec) (lapsed : Bool) :
    exec (.ethFrame h f fec lapsed) s = .next (ethFrame s h f fec lapsed) := withUnit_of (by simp [hh])

theorem exec_segmentOpen : exec (.segmentOpen h) s = .next (segmentOpen s h) := withUnit_of (by simp [hh])

theorem exec_segmentData : exec (.segmentData h) s = .next (segmentData s h) := withUnit_of (by simp [hh])

theorem exec_sample : exec (.sample h) s = .next (sample s h) := withUnit_of (by simp [hh])

theorem exec_exportAck : exec (.exportAck h) s = .next (exportAck s h) := withUnit_of (by simp [hh])

end

theorem exec_exportResend {c : Nat} (hc : c < nCtx) (s : State) :
    exec (.exportResend c) s = .next (exportResend s c) := withUnit_of (by simp [hc])

/-! ### Frames leave a link (09 R379) -/

theorem fab_ethPut (s : State) (h : Nat) (o : EthOut) : ∃ links, (ethPut s h o).fab = { s.fab with links := links } :=
  ⟨_, rfl⟩

/-- A frame leaves, or waits for the pause to end. -/
theorem link_ethPut (s : State) (h : Nat) (o : EthOut) : (if (s.link h).paused then ((ethPut s h o).link h).ethHeld
    else ((ethPut s h o).link h).eth).getLast? = some o := by
  unfold ethPut
  rw [Laws.link_modLink_self]
  cases (s.link h).paused <;> simp

theorem fab_ethSend (s : State) (h ip port hdr : Nat) (d : Blob) :
    ∃ links, (ethSend s h ip port hdr d).fab = { s.fab with links := links } := by
  unfold ethSend
  dsimp only
  split
  · exact ⟨s.fab.links, rfl⟩
  · split
    · exact fab_ethPut _ _ _
    · exact fab_ethPut _ _ _

/-- The segments of the sample transport that have arrived stay while one is sent. -/
theorem segs_sendSegment (s : State) (c e hdr : Nat) (d : Blob) : (sendSegment s c e hdr d).fab.segs = s.fab.segs := by
  unfold sendSegment
  dsimp only
  split
  · split
    · obtain ⟨links, tx, n, hfab⟩ := (FS.sendPacket s _ (s.ctx c).job 0xFFE 0xA 0 (Blob.append ⟨32, hdr⟩ d)).fab
      rw [hfab]
    · rfl
  · obtain ⟨links, hfab⟩ :=
      fab_ethSend s (entryLink (s.ctx c) e) (entryAddress (s.ctx c) e) (entryPort (s.ctx c) e) hdr d
    rw [hfab]

theorem segs_sendSegAck (s : State) (c e : Nat) : (sendSegAck s c e).fab.segs = s.fab.segs := by
  unfold sendSegAck
  dsimp only
  split
  · exact segs_sendSegment _ _ _ _ _
  · exact segs_sendSegment _ _ _ _ _

/-! ### ETH_FRAME (09 R343, R379) -/

/-- The device once the decoder's counts are taken, and a pause that has lapsed is over. -/
def counted (s : State) (h : Nat) (fec : Fec) (lapsed : Bool) : State :=
  countFec (if lapsed then ethResume s h else s) h fec

/-- A frame dropped is counted. -/
def frameDropped (s : State) (h : Nat) : State := s.modLinkCtr h fun k => { k with ethDropped := k.ethDropped + 1 }

/-- A frame accepted is counted. -/
def frameIn (s : State) (h : Nat) : State := s.modLinkCtr h fun k => { k with ethIn := k.ethIn + 1 }

/-- A pause frame accepted is counted as such, too. -/
def pauseIn (s : State) (h : Nat) : State := (frameIn s h).modLinkCtr h fun k => { k with pfc := k.pfc + 1 }

section
variable {s : State} {h : Nat} {f : Blob} {fec : Fec} {lapsed : Bool}

theorem ethFrame_down (hdown : ((counted s h fec lapsed).link h).st ≠ .ethUp) :
    ethFrame s h f fec lapsed = counted s h fec lapsed := if_pos hdown

variable (hup : ((counted s h fec lapsed).link h).st = .ethUp)
include hup

theorem ethFrame_touched (htouched : fec.touched = true) :
    ethFrame s h f fec lapsed = frameDropped (counted s h fec lapsed) h := by
  rw [counted] at hup
  simp only [ethFrame, hup, htouched, ne_eq, not_true_eq_false, if_false, if_true]
  rfl

variable (hsound : fec.touched = false)
include hsound

theorem ethFrame_drop (hclass : classify (counted s h fec lapsed) h f = .drop) :
    ethFrame s h f fec lapsed = frameDropped (counted s h fec lapsed) h := by
  rw [counted] at hup hclass
  simp only [ethFrame, hup, hsound, hclass, ne_eq, not_true_eq_false, if_false, Bool.false_eq_true]
  rfl

theorem ethFrame_pfc {n : Nat} (hclass : classify (counted s h fec lapsed) h f = .pfc n) : ethFrame s h f fec lapsed =
    if n = 0 then ethResume (pauseIn (counted s h fec lapsed) h) h
    else (pauseIn (counted s h fec lapsed) h).modLink h fun l => { l with paused := true } := by
  rw [counted] at hup hclass
  simp only [ethFrame, hup, hsound, hclass, ne_eq, not_true_eq_false, if_false, Bool.false_eq_true]
  rfl

theorem ethFrame_tell {ip mac : Nat} (hclass : classify (counted s h fec lapsed) h f = .tell ip mac) :
    ethFrame s h f fec lapsed = ethLearn (frameIn (counted s h fec lapsed) h) h ip mac := by
  rw [counted] at hup hclass
  simp only [ethFrame, hup, hsound, hclass, ne_eq, not_true_eq_false, if_false, Bool.false_eq_true]
  rfl

theorem ethFrame_ask {ip mac : Nat} (hclass : classify (counted s h fec lapsed) h f = .ask ip mac) :
    ethFrame s h f fec lapsed =
      ethPut (ethLearn (frameIn (counted s h fec lapsed) h) h ip mac) h (.answer ip mac) := by
  rw [counted] at hup hclass
  simp only [ethFrame, hup, hsound, hclass, ne_eq, not_true_eq_false, if_false, Bool.false_eq_true]
  rfl

theorem ethFrame_udp {ip port : Nat} {d : Blob} (hclass : classify (counted s h fec lapsed) h f = .udp ip port d)
    {s1 : State} {ok : Bool} (hsegment : segmentIn (counted s h fec lapsed) h ip port d = (s1, ok)) :
    ethFrame s h f fec lapsed = if ok then frameIn s1 h else frameDropped s1 h := by
  rw [counted] at hup hclass hsegment
  simp only [ethFrame, hup, hsound, hclass, ne_eq, not_true_eq_false, if_false, Bool.false_eq_true, hsegment]
  cases ok <;> rfl

end

/-- The counts of a link's decoder. -/
def fecCounts (l : Link) : BitVec 48 × BitVec 48 := (l.ctr.fecCorrected, l.ctr.fecUncorrectable)

theorem fecCounts_of_KL {s t : State} (hkept : KL s t) (h : Nat) : fecCounts (t.link h) = fecCounts (s.link h) := by
  obtain ⟨-, -, -, hcorrected, huncorrectable, -, -⟩ := hkept h
  exact Prod.ext hcorrected huncorrectable

theorem fecCounts_modLinkCtr (s : State) (h : Nat) (f : LinkCtr → LinkCtr)
    (hf : ∀ k, (f k).fecCorrected = k.fecCorrected ∧ (f k).fecUncorrectable = k.fecUncorrectable) :
    fecCounts ((s.modLinkCtr h f).link h) = fecCounts (s.link h) := by
  rw [link_modLinkCtr]
  exact Prod.ext (hf _).1 (hf _).2

theorem fecCounts_ethResume (s : State) (h : Nat) : fecCounts ((ethResume s h).link h) = fecCounts (s.link h) := by
  obtain ⟨-, -, -, -, -, hcorrected, huncorrectable⟩ := resume_facts s h
  exact Prod.ext hcorrected huncorrectable

theorem fecCounts_ethLearn (s : State) (h ip mac : Nat) :
    fecCounts ((ethLearn s h ip mac).link h) = fecCounts (s.link h) := by
  obtain ⟨-, -, hcorrected, huncorrectable, -⟩ := learn_facts s h ip mac
  exact Prod.ext hcorrected huncorrectable

theorem fecCounts_frameIn (s : State) (h : Nat) : fecCounts ((frameIn s h).link h) = fecCounts (s.link h) :=
  fecCounts_modLinkCtr _ _ _ fun _ => ⟨rfl, rfl⟩

theorem fecCounts_frameDropped (s : State) (h : Nat) : fecCounts ((frameDropped s h).link h) = fecCounts (s.link h) :=
  fecCounts_modLinkCtr _ _ _ fun _ => ⟨rfl, rfl⟩

theorem fecCounts_pauseIn (s : State) (h : Nat) : fecCounts ((pauseIn s h).link h) = fecCounts (s.link h) :=
  (fecCounts_modLinkCtr _ h (fun k => { k with pfc := k.pfc + 1 }) fun _ => ⟨rfl, rfl⟩).trans (fecCounts_frameIn s h)

/-- A datagram of the sample transport leaves the counters of the links. -/
theorem segmentIn_KL (s : State) (h ip port : Nat) (d : Blob) : KL s (segmentIn s h ip port d).1 := by
  unfold segmentIn
  dsimp only
  split
  · exact KL.refl s
  · split
    · exact KL.refl s
    · split
      · split
        · split
          · exact KL.refl s
          · exact KL.ofFS (FS.sendPacket _ _ _ _ _ _ _)
        · exact KL.refl s
      · split
        · exact KL.refl s
        · exact KL.refl s

theorem fecCounts_counted (s : State) (h : Nat) (fec : Fec) (lapsed : Bool) :
    fecCounts ((counted s h fec lapsed).link h) = ((s.link h).ctr.fecCorrected + BitVec.ofNat 48 fec.corrected,
      (s.link h).ctr.fecUncorrectable + BitVec.ofNat 48 fec.uncorrectable) := by
  have hresumed : fecCounts ((if lapsed then ethResume s h else s).link h) = fecCounts (s.link h) := by
    split
    · exact fecCounts_ethResume s h
    · rfl
  obtain ⟨hcorrected, huncorrectable⟩ := Prod.mk.inj hresumed
  rw [counted, Flits.countFec_link, fecCounts, hcorrected, huncorrectable]

/-- Whatever a frame is, only its decoder counts codewords. -/
theorem fecCounts_ethFrame (s : State) (h : Nat) (f : Blob) (fec : Fec) (lapsed : Bool) :
    fecCounts ((ethFrame s h f fec lapsed).link h) = fecCounts ((counted s h fec lapsed).link h) := by
  by_cases hup : ((counted s h fec lapsed).link h).st = .ethUp
  · cases hsound : fec.touched
    · cases hclass : classify (counted s h fec lapsed) h f with
      | drop => rw [ethFrame_drop hup hsound hclass, fecCounts_frameDropped]
      | pfc n =>
        rw [ethFrame_pfc hup hsound hclass]
        split
        · rw [fecCounts_ethResume, fecCounts_pauseIn]
        · rw [Laws.link_modLink_self, ← fecCounts_pauseIn]
          rfl
      | ask ip mac =>
        rw [ethFrame_ask hup hsound hclass, fecCounts_of_KL (KL.put _ _ _), fecCounts_ethLearn, fecCounts_frameIn]
      | tell ip mac => rw [ethFrame_tell hup hsound hclass, fecCounts_ethLearn, fecCounts_frameIn]
      | udp ip port d =>
        rw [ethFrame_udp hup hsound hclass (Prod.mk.eta (p := segmentIn (counted s h fec lapsed) h ip port d)).symm]
        have hkept := fecCounts_of_KL (segmentIn_KL (counted s h fec lapsed) h ip port d) h
        split
        · exact (fecCounts_frameIn _ h).trans hkept
        · exact (fecCounts_frameDropped _ h).trans hkept
    · rw [ethFrame_touched hup hsound, fecCounts_frameDropped]
  · rw [ethFrame_down hup]

/-! ### What an accepted frame does (09 R379, R380, R383) -/

theorem link_frameIn (s : State) (h : Nat) :
    (frameIn s h).link h = { s.link h with ctr := { (s.link h).ctr with ethIn := (s.link h).ctr.ethIn + 1 } } :=
  link_modLinkCtr _ _ _

theorem link_pauseIn (s : State) (h : Nat) : (pauseIn s h).link h = { s.link h with
    ctr := { (s.link h).ctr with ethIn := (s.link h).ctr.ethIn + 1, pfc := (s.link h).ctr.pfc + 1 } } := by
  rw [pauseIn, link_modLinkCtr, link_frameIn]

/-- The session at a link, by its address and port, that a datagram is for. -/
def segmentEntry (s : State) (h ip port : Nat) (d : Blob) : Option (Nat × Nat) :=
  findEntry s fun x e => entryKind x e < 2 && entryLink x e = h && entrySession x e = d.bits 32 32 &&
    entryAddress x e = ip && entryPort x e = port

/-- The rank that the device relays a session for. -/
def relayServer (s : State) (x : Ctx) (d : Blob) : Option (BitVec 32 × Nat × Nat) :=
  s.fab.relays.find? fun r => r.1 = x.job && r.2.1 = d.bits 32 32

section
variable {s : State} {h ip port : Nat} {d : Blob}

theorem segmentIn_malformed (hbad : d.len < 32 + d.bits 160 16 ∨ d.bits 0 16 ≠ segMagic ∨ 5 < d.bits 16 4) :
    segmentIn s h ip port d = (s, false) := by
  refine if_pos ?_
  simpa [or_assoc] using hbad

theorem segmentIn_noEntry (hnone : segmentEntry s h ip port d = none) : segmentIn s h ip port d = (s, false) := by
  rw [segmentEntry] at hnone
  simp only [segmentIn, hnone, ite_self]

variable {c e : Nat} (hentry : segmentEntry s h ip port d = some (c, e))
include hentry

theorem segmentIn_noServer (hrelays : relays (s.ctx c) (d.bits 32 32) = true)
    (hserver : relayServer s (s.ctx c) d = none ∨ packetBytes < 32 + d.bits 160 16) :
    segmentIn s h ip port d = (s, false) := by
  rw [segmentEntry] at hentry
  rw [relayServer] at hserver
  rcases hserver with hnone | hlong
  · simp only [segmentIn, hentry, hrelays, hnone, if_true, ite_self]
  · simp only [segmentIn, hentry, hrelays, hlong, if_true]
    cases s.fab.relays.find? fun r => r.1 = (s.ctx c).job && r.2.1 = d.bits 32 32 with
    | none => simp only [ite_self]
    | some r => simp only [ite_self]

theorem segmentIn_otherType (hrelays : relays (s.ctx c) (d.bits 32 32) = false) (hother : d.bits 16 4 ∉ [0, 1, 5]) :
    segmentIn s h ip port d = (s, false) := by
  have hkind : [0, 1, 5].contains (d.bits 16 4) = false := by
    rw [Bool.eq_false_iff, ne_eq, List.contains_iff_mem]
    exact hother
  rw [segmentEntry] at hentry
  simp only [segmentIn, hentry, hrelays, hkind, Bool.not_false, Bool.false_eq_true, if_false, if_true, ite_self]

variable (hlen : 32 + d.bits 160 16 ≤ d.len) (hmagic : d.bits 0 16 = segMagic) (htype : d.bits 16 4 ≤ 5)
include hlen hmagic htype

theorem segmentIn_relayed (hrelays : relays (s.ctx c) (d.bits 32 32) = true) {job : BitVec 32} {n a : Nat}
    (hserver : relayServer s (s.ctx c) d = some (job, n, a)) (hfits : 32 + d.bits 160 16 ≤ packetBytes) :
    segmentIn s h ip port d =
      (sendPacket s a (s.ctx c).job 0xFFE 0xA 0 (d.slice 0 (32 + d.bits 160 16)), true) := by
  rw [segmentEntry] at hentry
  rw [relayServer] at hserver
  simp only [segmentIn, hentry, hrelays, hserver, Nat.not_lt.2 hfits, Nat.not_lt.2 hlen, Nat.not_lt.2 htype, hmagic,
    decide_false, ne_eq, not_true_eq_false, Bool.or_false, Bool.false_eq_true, if_true, if_false]

theorem segmentIn_kept (hrelays : relays (s.ctx c) (d.bits 32 32) = false) (hkind : d.bits 16 4 ∈ [0, 1, 5]) :
    segmentIn s h ip port d = (s.modFab fun f => { f with
      segs := f.segs ++ [⟨h, c, e, BitVec.ofNat 256 (d.bits 0 256), d.slice 32 (d.bits 160 16)⟩] }, true) := by
  rw [segmentEntry] at hentry
  simp only [segmentIn, hentry, hrelays, Nat.not_lt.2 hlen, Nat.not_lt.2 htype, hmagic, List.contains_iff_mem.2 hkind,
    decide_false, ne_eq, not_true_eq_false, Bool.or_false, Bool.false_eq_true, Bool.not_true, if_false]

end

/-! ### The segments that wait for their commands (09 R381) -/

theorem takeSegment_none {s : State} {src typ : Nat}
    (hnone : (s.fab.segs.find? fun g => g.src = src && g.typ = typ) = none) : takeSegment s src typ = none := by
  simp only [takeSegment, hnone]

/-- A segment is taken out of the queue. -/
def segmentTaken (s : State) (g : Seg) : State := s.modFab fun f => { f with segs := f.segs.erase g }

theorem takeSegment_some {s : State} {src typ : Nat} {g : Seg}
    (hg : (s.fab.segs.find? fun g => g.src = src && g.typ = typ) = some g) :
    takeSegment s src typ = some (g, segmentTaken s g) := takeSeg hg

/-! ### SEGMENT_OPEN (09 R381, 14 R541) -/

theorem segmentOpen_idle {s : State} {src : Nat} (hnone : (s.fab.segs.find? fun g => g.src = src && g.typ = 0) = none) :
    segmentOpen s src = s := by
  simp only [segmentOpen, takeSegment_none hnone]

section
variable {s : State} {src : Nat} {g : Seg} (hg : (s.fab.segs.find? fun g => g.src = src && g.typ = 0) = some g)
include hg

theorem segmentOpen_export (hexport : entryExport (s.ctx g.ctx) g.entry = true) :
    segmentOpen s src = segmentTaken s g := by
  simp only [segmentOpen, takeSegment_some hg]
  exact if_pos hexport

theorem segmentOpen_session (hload : entryExport (s.ctx g.ctx) g.entry = false) : segmentOpen s src =
    (segmentTaken s g).modCtx g.ctx fun x => { x with
      sessions := tset x.sessions g.entry ⟨g.seqNo, g.ackNo, Blob.empty, 0⟩ } := by
  simp only [segmentOpen, takeSegment_some hg]
  exact if_neg (Bool.eq_false_iff.1 hload)

end

/-! ### SEGMENT_DATA (09 R381, R382) -/

theorem segmentData_idle {s : State} {src : Nat} (hnone : (s.fab.segs.find? fun g => g.src = src && g.typ = 1) = none) :
    segmentData s src = s := by
  simp only [segmentData, takeSegment_none hnone]

/-- The device with the segment taken; the sample key is asked for where its session is encrypted. -/
def keyWanted (s : State) (g : Seg) : State :=
  if entryEncrypted (s.ctx g.ctx) g.entry then wantKey (segmentTaken s g) (.sample (s.ctx g.ctx).job)
  else segmentTaken s g

theorem keyWanted_facts (s : State) (g : Seg) :
    (keyWanted s g).fab = (segmentTaken s g).fab ∧ (keyWanted s g).ctxs = s.ctxs := by
  unfold keyWanted
  split
  · exact ⟨rfl, rfl⟩
  · exact ⟨rfl, rfl⟩

/-- Segment data that is not accepted is counted at its link, and answered with an ACK. -/
def segmentDiscarded (s : State) (src : Nat) (g : Seg) : State :=
  sendSegAck ((keyWanted s g).modLinkCtr src fun k => { k with outOfOrder := k.outOfOrder + 1 }) g.ctx g.entry

/-- An ACK leaves the sessions of its context, the segments that wait and the count of those out of order. -/
theorem sendSegAck_keeps (s : State) (c e k : Nat) :
    ((sendSegAck s c e).ctx c).sessions = (s.ctx c).sessions ∧ (sendSegAck s c e).fab.segs = s.fab.segs ∧
      ((sendSegAck s c e).link k).ctr.outOfOrder = (s.link k).ctr.outOfOrder := by
  obtain ⟨-, -, hcount, -⟩ := KL.sendSegAck s c e k
  exact ⟨CKseg (g := Ctx.sessions) (fun _ _ _ _ => rfl) s c e c, segs_sendSegAck s c e, hcount⟩

theorem segmentDiscarded_facts (s : State) (src : Nat) (g : Seg) :
    ((segmentDiscarded s src g).ctx g.ctx).sessions = (s.ctx g.ctx).sessions ∧
      (segmentDiscarded s src g).fab.segs = s.fab.segs.erase g ∧
      ((segmentDiscarded s src g).link src).ctr.outOfOrder = (s.link src).ctr.outOfOrder + 1 := by
  obtain ⟨hfab, hctxs⟩ := keyWanted_facts s g
  obtain ⟨hsessions, hsegs, hcount⟩ := sendSegAck_keeps
    ((keyWanted s g).modLinkCtr src fun k => { k with outOfOrder := k.outOfOrder + 1 }) g.ctx g.entry src
  rw [link_modLinkCtr, link_of hfab] at hcount
  exact ⟨hsessions.trans (congrArg Ctx.sessions (ctx_of hctxs _)), hsegs.trans (congrArg Fabric.segs hfab), hcount⟩

/-- The segment taken, and its session in its new state. -/
def sessionPut (s : State) (g : Seg) (y : LoadSession) : State :=
  (keyWanted s g).modCtx g.ctx fun x => { x with sessions := tset x.sessions g.entry y }

theorem sessionPut_facts (s : State) (src : Nat) (g : Seg) (y : LoadSession) :
    ((sessionPut s g y).ctx g.ctx).sessions = tset (s.ctx g.ctx).sessions g.entry y ∧
      (sessionPut s g y).fab.segs = s.fab.segs.erase g ∧
      ((sessionPut s g y).link src).ctr.outOfOrder = (s.link src).ctr.outOfOrder := by
  obtain ⟨hfab, hctxs⟩ := keyWanted_facts s g
  refine ⟨?_, congrArg Fabric.segs hfab, congrArg (fun l : Link => l.ctr.outOfOrder) (link_of hfab src)⟩
  rw [sessionPut, ctx_modCtx_self, ctx_of hctxs]

/-- A session once the data of a segment have joined it. -/
def joined (x : LoadSession) (d : Blob) : LoadSession :=
  { x with
    next := (x.next + d.len) % 2 ^ 32
    wrap := x.wrap + (if (x.next + d.len) % 2 ^ 32 < x.next then 1 else 0)
    buf := Blob.append x.buf d
    since := (x.since + 1) % 8 }

section
variable {s : State} {src : Nat} {g : Seg} (hg : (s.fab.segs.find? fun g => g.src = src && g.typ = 1) = some g)
include hg

theorem segmentData_noSession (hnone : tget (s.ctx g.ctx).sessions g.entry = none) :
    segmentData s src = segmentDiscarded s src g := by
  simp only [segmentData, takeSegment_some hg]
  rw [show tget ((segmentTaken s g).ctx g.ctx).sessions g.entry = none from hnone]
  rfl

variable {x : LoadSession} (hx : tget (s.ctx g.ctx).sessions g.entry = some x)
include hx

theorem segmentData_forged (hnone : segPlain s g x = none) : segmentData s src = segmentDiscarded s src g := by
  simp only [segmentData, takeSegment_some hg]
  rw [show tget ((segmentTaken s g).ctx g.ctx).sessions g.entry = some x from hx]
  dsimp only
  rw [show segPlain (segmentTaken s g) g x = none from hnone]
  rfl

variable {d : Blob} (hd : segPlain s g x = some d)
include hd

theorem segmentData_discarded (hbad : g.seqNo ≠ x.next ∨ sessionBuffer < (joined x d).held) :
    segmentData s src = segmentDiscarded s src g := by
  simp only [segmentData, takeSegment_some hg]
  rw [show tget ((segmentTaken s g).ctx g.ctx).sessions g.entry = some x from hx]
  dsimp only
  rw [show segPlain (segmentTaken s g) g x = some d from hd]
  refine if_pos ?_
  rw [joined] at hbad
  simpa using hbad

theorem segmentData_accepted (hseq : g.seqNo = x.next) (hroom : (joined x d).held ≤ sessionBuffer) :
    segmentData s src =
      if (joined x d).since = 0 then sendSegAck (sessionPut s g (joined x d)) g.ctx g.entry
      else sessionPut s g (joined x d) := by
  simp only [segmentData, takeSegment_some hg]
  rw [show tget ((segmentTaken s g).ctx g.ctx).sessions g.entry = some x from hx]
  dsimp only
  rw [show segPlain (segmentTaken s g) g x = some d from hd]
  refine if_neg ?_
  rw [joined] at hroom
  simpa using And.intro hseq hroom

end

/-! ### SAMPLE (09 R383) -/

theorem sample_idle {s : State} {h : Nat} (htake : takePacket s h 0xA = none) : sample s h = s := by
  simp only [sample, htake]

theorem sample_refused {s s0 s1 : State} {h : Nat} {p : Pkt} (htake : takePacket s h 0xA = some (p, s0))
    (haccept : acceptPacket s0 p = (s1, false)) : sample s h = s1 := by
  simp only [sample, htake, haccept]

/-- The entry of a relayed session that a SAMPLE packet is for. -/
def sampleEntry (x : Ctx) (p : Pkt) : Option Nat :=
  (List.range (entryCount x)).find? fun e => entryKind x e = 2 && entrySession x e = p.payload.bits 32 32 &&
    rankAcc x (entryPeer x e) = some p.src

/-- The rank behind a session is remembered. -/
def serverKnown (s : State) (p : Pkt) : State := s.modFab fun f => { f with
  relays := (f.relays.filter fun r => !(r.1 = p.job && r.2.1 = p.payload.bits 32 32)) ++
    [(p.job, p.payload.bits 32 32, p.src)] }

section
variable {s s1 : State} {h : Nat} {p : Pkt} (hdelivered : Delivered s h 0xA p s1)
include hdelivered

theorem sample_noContext (hnone : jobCtx s p.job = none) : sample s h = s1 := by
  rw [← (carried_of_delivered hdelivered).jobCtx_eq] at hnone
  obtain ⟨s0, htake, haccept⟩ := hdelivered
  simp only [sample, htake, haccept, hnone]

variable {c : Nat} (hc : jobCtx s p.job = some c)
include hc

/-- A relaying device remembers the rank, and sends the segment on by the session's link. -/
theorem sample_relays (hrelays : relays (s.ctx c) (p.payload.bits 32 32) = true) :
    ∃ links, (sample s h).fab = { (serverKnown s1 p).fab with links := links } := by
  have hcarried := carried_of_delivered hdelivered
  rw [← hcarried.ctx_eq] at hrelays
  rw [← hcarried.jobCtx_eq] at hc
  obtain ⟨s0, htake, haccept⟩ := hdelivered
  simp only [sample, htake, haccept, hc, hrelays, if_true]
  split
  · exact fab_ethSend _ _ _ _ _ _
  · exact ⟨s1.fab.links, rfl⟩

variable (hends : relays (s.ctx c) (p.payload.bits 32 32) = false)
include hends

theorem sample_noEntry (hnone : sampleEntry (s.ctx c) p = none) : sample s h = s1 := by
  have hcarried := carried_of_delivered hdelivered
  rw [← hcarried.ctx_eq] at hends hnone
  rw [← hcarried.jobCtx_eq] at hc
  obtain ⟨s0, htake, haccept⟩ := hdelivered
  rw [sampleEntry] at hnone
  simp only [sample, htake, haccept, hc, hends, hnone, Bool.false_eq_true, if_false]

theorem sample_kept {e : Nat} (he : sampleEntry (s.ctx c) p = some e) : sample s h = s1.modFab fun f => { f with
    segs := f.segs ++ [⟨h, c, e, BitVec.ofNat 256 (p.payload.bits 0 256),
      p.payload.slice 32 (min (p.payload.bits 160 16) (p.payload.len - 32))⟩] } := by
  have hcarried := carried_of_delivered hdelivered
  rw [← hcarried.ctx_eq] at hends he
  rw [← hcarried.jobCtx_eq] at hc
  obtain ⟨s0, htake, haccept⟩ := hdelivered
  rw [sampleEntry] at he
  simp only [sample, htake, haccept, hc, hends, he, Bool.false_eq_true, if_false]

end

/-! ### Exports (09 R384, 10 R423) -/

/-- Sending from a byte on keeps the data and what is acknowledged, and sends to the window's end. -/
theorem exportFrom_facts {s : State} {c : Nat} {r : ExportRun} (hr : (s.ctx c).exporting = some r) (start window : Nat) :
    ∃ q, ((exportFrom s c start window).ctx c).exporting = some q ∧ { q with sent := 0 } = { r with sent := 0 } ∧
      (start ≤ min r.data.len (r.acked + window) → q.sent = min r.data.len (r.acked + window)) ∧
      ((exportFrom s c start window).ctx c).led.exports = (s.ctx c).led.exports := by
  obtain ⟨⟨q, hq, hsame, hsent⟩, hexports⟩ := exportSend_facts c (exportEntry (s.ctx c)) (r.acked + window) r.data
    r.acked _ rfl (exportRounds r) (s.modCtx c fun x => { x with exporting := some { r with sent := start } })
    { r with sent := start } (by rw [ctx_modCtx_self]) rfl rfl
  rw [ctx_modCtx_self] at hexports
  have hfrom : exportFrom s c start window = exportSend c (exportEntry (s.ctx c)) (r.acked + window) (exportRounds r)
      (s.modCtx c fun x => { x with exporting := some { r with sent := start } }) := by
    simp only [exportFrom, hr]
  rw [hfrom]
  refine ⟨q, hq, hsame, fun hstart => hsent hstart ?_, hexports⟩
  rw [exportRounds]
  omega

theorem exportAck_idle {s : State} {src : Nat} (hnone : (s.fab.segs.find? fun g => g.src = src && g.typ = 5) = none) :
    exportAck s src = s := by
  simp only [exportAck, takeSegment_none hnone]

/-- How many bytes an acknowledgement covers. -/
def ackedBytes (g : Seg) (r : ExportRun) : Nat := (g.ackNo + 2 ^ 32 - r.acked % 2 ^ 32) % 2 ^ 32

/-- What is exported, with more of it acknowledged. -/
def exportAdvanced (s : State) (g : Seg) (r : ExportRun) : State :=
  (segmentTaken s g).modCtx g.ctx fun x => { x with exporting := some { r with acked := r.acked + ackedBytes g r } }

section
variable {s : State} {src : Nat} {g : Seg} (hg : (s.fab.segs.find? fun g => g.src = src && g.typ = 5) = some g)
include hg

theorem exportAck_stray (hstray : (s.ctx g.ctx).exporting = none ∨ g.entry ≠ exportEntry (s.ctx g.ctx)) :
    exportAck s src = segmentTaken s g := by
  simp only [exportAck, takeSegment_some hg]
  rw [show (segmentTaken s g).ctx g.ctx = s.ctx g.ctx from rfl]
  rcases hstray with hnone | hentry
  · simp only [hnone]
  · cases hrun : (s.ctx g.ctx).exporting with
    | none => rfl
    | some r => simp only [hentry, decide_false]

variable {r : ExportRun} (hr : (s.ctx g.ctx).exporting = some r) (hentry : g.entry = exportEntry (s.ctx g.ctx))
include hr hentry

theorem exportAck_beyond (hbeyond : r.sent < r.acked + ackedBytes g r) : exportAck s src = segmentTaken s g := by
  rw [ackedBytes] at hbeyond
  simp only [exportAck, takeSegment_some hg]
  rw [show (segmentTaken s g).ctx g.ctx = s.ctx g.ctx from rfl, hr, decide_eq_true hentry]
  exact if_pos hbeyond

variable (hcovered : r.acked + ackedBytes g r ≤ r.sent)
include hcovered

theorem exportAck_last (hlast : r.acked + ackedBytes g r = r.data.len) : exportAck s src =
    (exportAdvanced s g r).modCtx g.ctx fun x => { x with
      exporting := none, led := { x.led with exports := x.led.exports + 1 } } := by
  rw [ackedBytes] at hlast hcovered
  simp only [exportAck, takeSegment_some hg]
  rw [show (segmentTaken s g).ctx g.ctx = s.ctx g.ctx from rfl, hr, decide_eq_true hentry]
  exact (if_neg (Nat.not_lt.2 hcovered)).trans (if_pos hlast)

theorem exportAck_more (hmore : r.acked + ackedBytes g r ≠ r.data.len) :
    exportAck s src = exportFrom (exportAdvanced s g r) g.ctx r.sent (g.field 128 32) := by
  rw [ackedBytes] at hmore hcovered
  simp only [exportAck, takeSegment_some hg]
  rw [show (segmentTaken s g).ctx g.ctx = s.ctx g.ctx from rfl, hr, decide_eq_true hentry]
  exact (if_neg (Nat.not_lt.2 hcovered)).trans (if_neg hmore)

end

theorem exportResend_idle {s : State} {c : Nat} (hnone : (s.ctx c).exporting = none) : exportResend s c = s := by
  simp only [exportResend, hnone]

theorem exportResend_eq {s : State} {c : Nat} {r : ExportRun} (hr : (s.ctx c).exporting = some r) :
    exportResend s c = exportFrom s c r.acked (r.sent - r.acked) := by
  simp only [exportResend, hr]

/-- Two runs that differ at most in how much they have sent. -/
theorem sameRun_fields {q r : ExportRun} (hsame : { q with sent := 0 } = { r with sent := 0 }) :
    q.data = r.data ∧ q.acked = r.acked ∧ (q.sent = r.sent → q = r) := by
  cases q
  cases r
  simp only [ExportRun.mk.injEq] at hsame ⊢
  obtain ⟨hc, hslot, hdata, hacked, -⟩ := hsame
  exact ⟨hdata, hacked, fun hsent => ⟨hc, hslot, hdata, hacked, hsent⟩⟩

end Sys2Proof.Laws.SegmentPackets

namespace Sys2Proof.Claims

open Sys2Proof.Laws Sys2Proof.Laws.RemoteAccess Sys2Proof.Laws.Segments Sys2Proof.Laws.SegmentPackets in
/-- Settles O36. ETH_FRAME is one case per class of frame (`ethFrame_…`), and only the decoder counts codewords
(`fecCounts_ethFrame`); a datagram is one case of `segmentIn_…`. A segment that is taken is discarded
(`segmentDiscarded`) or joins its session (`joined`); data exported are kept while they are sent (`exportFrom_facts`). -/
theorem segmentsAndExports : Obligations.SegmentsAndExports := by
  unfold Obligations.SegmentsAndExports
  refine ⟨fun s h f fec lapsed hh => ⟨nxt (exec_ethFrame hh s f fec lapsed) ?_, fun hdown => ?_, fun hup =>
      ⟨fun htouched => ?_, fun hsound => ⟨fun hclass => ?_, fun n hclass => nxt (exec_ethFrame hh s f fec lapsed) ?_,
        fun ip mac hclass => nxt (exec_ethFrame hh s f fec lapsed) ?_, fun ip port d hclass => ⟨fun hbad => ?_,
          fun hlen hmagic htype c e hentry => ⟨fun hrelays hserver => ?_, fun j n a hrelays hserver hfits => ?_,
            fun hends hother => ?_, fun hends hkind => nxt (exec_ethFrame hh s f fec lapsed) ?_⟩⟩⟩⟩⟩,
    fun s src hh => ⟨fun hnone => ?_, fun hnone => ?_, fun hnone => ?_⟩,
    fun s src g hh hg => nxt (exec_segmentOpen hh s) ?_,
    fun s src g hh hg => ⟨fun hnone => nxt (exec_segmentData hh s) ?_, fun x hx =>
      ⟨fun hnone => nxt (exec_segmentData hh s) ?_, fun d hd => ⟨fun hbad => nxt (exec_segmentData hh s) ?_,
        fun hseq hroom => nxt (exec_segmentData hh s) ?_⟩⟩⟩,
    fun s h hh => ⟨fun htake => ?_, fun p s0 s1 htake haccept => ?_⟩,
    fun s s1 h p hh hdelivered => ⟨fun hnone => ?_, fun c hc => ⟨fun hrelays => nxt (exec_sample hh s) ?_,
      fun hends hnone => ?_, fun e hends he => nxt (exec_sample hh s) ?_⟩⟩,
    fun s src g hh hg => ⟨fun hstray => nxt (exec_exportAck hh s) ?_, fun r hr hentry =>
      ⟨fun hbeyond => nxt (exec_exportAck hh s) ?_, fun hcovered hmore => nxt (exec_exportAck hh s) ?_,
        fun hcovered hlast => nxt (exec_exportAck hh s) ?_⟩⟩,
    fun s c hc => ⟨fun hnone => ?_, fun r hr => nxt (exec_exportResend hc s) ?_⟩⟩
  · exact Prod.mk.inj ((fecCounts_ethFrame s h f fec lapsed).trans (fecCounts_counted s h fec lapsed))
  · rw [exec_ethFrame hh, ethFrame_down hdown]
    rfl
  · rw [exec_ethFrame hh, ethFrame_touched hup htouched]
    rfl
  · rw [exec_ethFrame hh, ethFrame_drop hup hsound hclass]
    rfl
  · rw [ethFrame_pfc hup hsound hclass]
    split
    next hzero =>
      obtain ⟨hpaused, hheld, heth, hin, hpfc, -⟩ := resume_facts (pauseIn (counted s h fec lapsed) h) h
      rw [link_pauseIn] at heth hin hpfc
      exact ⟨hin, hpfc, fun hpause => absurd hzero hpause, fun _ => ⟨hpaused, hheld, heth⟩⟩
    next hpause =>
      rw [Laws.link_modLink_self, link_pauseIn]
      exact ⟨rfl, rfl, fun _ => ⟨rfl, rfl, rfl⟩, fun hzero => absurd hzero hpause⟩
  · obtain ⟨hin, harp, -, -, hpaused⟩ := learn_facts (frameIn (counted s h fec lapsed) h) h ip mac
    rw [link_frameIn] at hin hpaused
    rcases hclass with htell | hask
    · rw [ethFrame_tell hup hsound htell]
      exact ⟨hin, harp, fun hask => by rw [show classify _ h f = .tell ip mac from htell] at hask; cases hask⟩
    · obtain ⟨hin', harp', -⟩ := KL.put (ethLearn (frameIn (counted s h fec lapsed) h) h ip mac) h (.answer ip mac) h
      have hanswer := link_ethPut (ethLearn (frameIn (counted s h fec lapsed) h) h ip mac) h (.answer ip mac)
      rw [hpaused] at hanswer
      rw [ethFrame_ask hup hsound hask, harp']
      exact ⟨hin'.trans hin, harp, fun _ => hanswer⟩
  · have hdropped : segmentIn (counted s h fec lapsed) h ip port d = (counted s h fec lapsed, false) := by
      rcases hbad with hshort | hmagic | htype | hnone
      · exact segmentIn_malformed (.inl hshort)
      · exact segmentIn_malformed (.inr (.inl hmagic))
      · exact segmentIn_malformed (.inr (.inr htype))
      · exact segmentIn_noEntry hnone
    rw [exec_ethFrame hh, ethFrame_udp hup hsound hclass hdropped]
    rfl
  · rw [exec_ethFrame hh, ethFrame_udp hup hsound hclass (segmentIn_noServer hentry hrelays hserver)]
    rfl
  · rw [exec_ethFrame hh,
      ethFrame_udp hup hsound hclass (segmentIn_relayed hentry hlen hmagic htype hrelays hserver hfits)]
    rfl
  · rw [exec_ethFrame hh, ethFrame_udp hup hsound hclass (segmentIn_otherType hentry hends hother)]
    rfl
  · rw [ethFrame_udp hup hsound hclass (segmentIn_kept hentry hlen hmagic htype hends hkind), if_pos rfl, link_frameIn]
    exact ⟨rfl, rfl⟩
  · rw [exec_segmentOpen hh, segmentOpen_idle hnone]
  · rw [exec_segmentData hh, segmentData_idle hnone]
  · rw [exec_exportAck hh, exportAck_idle hnone]
  · split
    next hexport =>
      rw [segmentOpen_export hg hexport]
      exact ⟨rfl, rfl⟩
    next hload =>
      rw [segmentOpen_session hg (Bool.eq_false_iff.2 hload), ctx_modCtx_self]
      exact ⟨rfl, rfl⟩
  · rw [segmentData_noSession hg hnone]
    exact segmentDiscarded_facts s src g
  · rw [segmentData_forged hg hx hnone]
    exact segmentDiscarded_facts s src g
  · rw [segmentData_discarded hg hx hd hbad]
    exact segmentDiscarded_facts s src g
  · rw [segmentData_accepted hg hx hd hseq hroom]
    obtain ⟨hsessions, hsegs, hcount⟩ := sessionPut_facts s src g (joined x d)
    split
    · obtain ⟨hsessions', hsegs', hcount'⟩ := sendSegAck_keeps (sessionPut s g (joined x d)) g.ctx g.entry src
      exact ⟨hsessions'.trans hsessions, hsegs'.trans hsegs, hcount'.trans hcount⟩
    · exact ⟨hsessions, hsegs, hcount⟩
  · rw [exec_sample hh, sample_idle htake]
  · rw [exec_sample hh, sample_refused htake haccept]
  · rw [exec_sample hh, sample_noContext hdelivered hnone]
  · obtain ⟨links, hfab⟩ := sample_relays hdelivered hc hrelays
    obtain ⟨links1, rx, n, rfl⟩ := carried_of_delivered hdelivered
    rw [hfab]
    exact ⟨rfl, rfl⟩
  · rw [exec_sample hh, sample_noEntry hdelivered hc hends hnone]
  · rw [sample_kept hdelivered hc hends he]
    obtain ⟨links, rx, n, rfl⟩ := carried_of_delivered hdelivered
    rfl
  · rw [exportAck_stray hg hstray]
    exact ⟨rfl, rfl⟩
  · rw [exportAck_beyond hg hr hentry hbeyond]
    exact ⟨rfl, rfl⟩
  · rw [exportAck_more hg hr hentry hcovered hmore]
    have hrun : ((exportAdvanced s g r).ctx g.ctx) = { s.ctx g.ctx with
        exporting := some { r with acked := r.acked + ackedBytes g r } } := ctx_modCtx_self _ _ _
    obtain ⟨q, hq, hsame, -, hexports⟩ := exportFrom_facts (s := exportAdvanced s g r) (c := g.ctx)
      (r := { r with acked := r.acked + ackedBytes g r }) (by rw [hrun]) r.sent (g.field 128 32)
    obtain ⟨hdata, hacked, -⟩ := sameRun_fields hsame
    rw [hrun] at hexports
    rw [hq, Option.map_some, hdata, hacked]
    exact ⟨rfl, hexports⟩
  · rw [exportAck_last hg hr hentry hcovered hlast, ctx_modCtx_self, exportAdvanced, ctx_modCtx_self]
    exact ⟨rfl, rfl⟩
  · rw [exec_exportResend hc, exportResend_idle hnone]
  · rw [exportResend_eq hr]
    obtain ⟨q, hq, hsame, hsent, -⟩ := exportFrom_facts hr r.acked (r.sent - r.acked)
    obtain ⟨hdata, hacked, heq⟩ := sameRun_fields hsame
    rw [hq, Option.map_some, hdata, hacked]
    exact ⟨rfl, fun hless hall => congrArg some (heq ((hsent (by omega)).trans (by omega)))⟩

end Sys2Proof.Claims
end

section
/-!
PROOF. States at which the statements on links, keying and the database sync apply (O28 to O32).
-/

-- One declaration after another: side by side they need more threads than the memory of the check leaves room for.
set_option Elab.async false

open Sys2Proof Sys2Proof.Machine Sys2Proof.Claims Sys2Proof.Laws

namespace Sys2Proof.Laws.LinkExamples

/-- The islands run, and link 0 is given. -/
def linked (l : Link) : State := (TierExamples.awake State.reset).setLink 0 l

theorem link_linked (l : Link) : (linked l).link 0 = l := by
  unfold linked State.link State.setLink
  exact tgetD_tset_self _ _ _ _

/-! ### Links come up and fall (09 R341, R342, R350, R351) -/

theorem laneSignal_trains :
    Answers (.laneSignal 0) (linked { mode := .verhel }) fun t => (t.link 0).st = .training := by
  obtain ⟨hsignal, -⟩ := linksTrainAndFall
  obtain ⟨hdown, -⟩ := hsignal (linked { mode := .verhel }) 0 (by decide)
  obtain ⟨t, hexec, -, -, htrains, -⟩ := hdown (by rw [link_linked]) (by rw [link_linked]; decide) (by decide)
  exact ⟨t, hexec, htrains (by rw [link_linked]) (by rw [link_linked])⟩

/-- A link whose keying failed stays down until its wait ends. -/
theorem laneSignal_waits :
    Answers (.laneSignal 0) (linked { mode := .verhel, retryWait := true }) fun t =>
      (t.link 0).st = .down ∧ (t.link 0).signal = true := by
  obtain ⟨hsignal, -⟩ := linksTrainAndFall
  obtain ⟨hdown, -⟩ := hsignal (linked { mode := .verhel, retryWait := true }) 0 (by decide)
  obtain ⟨t, hexec, hset, -, -, hwaits⟩ := hdown (by rw [link_linked]) (by rw [link_linked]; decide) (by decide)
  exact ⟨t, hexec, hwaits (.inl (by rw [link_linked])), hset⟩

/-- A link that trains. -/
def trainingLink (mode : LinkMode) : Link := { mode := mode, signal := true, st := .training }

theorem linkTrained_whole :
    Answers (.linkTrained 0 0xFF) (linked (trainingLink .verhel)) fun t =>
      (t.link 0).st = .keying ∧ (t.link 0).degraded = false := by
  obtain ⟨-, htrained, -⟩ := linksTrainAndFall
  obtain ⟨t, hexec, -, -, -, hwhole, -⟩ :=
    htrained (linked (trainingLink .verhel)) 0 0xFF (by decide) (by rw [link_linked]; rfl)
  obtain ⟨hkeying, -, hfine⟩ := hwhole (by rw [link_linked]; decide) (by rw [link_linked]; decide)
  exact ⟨t, hexec, hkeying, hfine⟩

/-- Four lanes of a whole port make a half. -/
theorem linkTrained_half :
    Answers (.linkTrained 0 0x0F) (linked (trainingLink .verhel)) fun t =>
      (t.link 0).st = .keying ∧ (t.link 0).up4 = true ∧ (t.link 0).degraded = true := by
  obtain ⟨-, htrained, -⟩ := linksTrainAndFall
  obtain ⟨t, hexec, -, -, -, -, hpart, -⟩ :=
    htrained (linked (trainingLink .verhel)) 0 0x0F (by decide) (by rw [link_linked]; rfl)
  exact ⟨t, hexec, hpart (by rw [link_linked]; decide) (by rw [link_linked]; decide) (by rw [link_linked]; decide)⟩

theorem linkTrained_fails :
    Answers (.linkTrained 0 0x07) (linked (trainingLink .verhel)) fun t => (t.link 0).st = .down := by
  obtain ⟨-, htrained, -⟩ := linksTrainAndFall
  obtain ⟨t, hexec, -, -, -, -, -, hnone, -⟩ :=
    htrained (linked (trainingLink .verhel)) 0 0x07 (by decide) (by rw [link_linked]; rfl)
  exact ⟨t, hexec, hnone (by rw [link_linked]; decide) (by rw [link_linked]; decide) (by rw [link_linked]; decide)⟩

theorem linkTrained_ethernet :
    Answers (.linkTrained 0 0xFF) (linked (trainingLink .ethernet)) fun t => (t.link 0).st = .ethUp := by
  obtain ⟨-, htrained, -⟩ := linksTrainAndFall
  obtain ⟨t, hexec, -, hup, -⟩ :=
    htrained (linked (trainingLink .ethernet)) 0 0xFF (by decide) (by rw [link_linked]; rfl)
  exact ⟨t, hexec, hup (by rw [link_linked]; rfl) (by rw [link_linked]; decide)⟩

/-- A Verhel link that is up. -/
def upLink : Link := { mode := .verhel, signal := true, st := .ready, lanes := 0xFF }

theorem lossOfSignal_down :
    Answers (.lossOfSignal 0) (linked upLink) fun t => (t.link 0).st = .down ∧ WentDown 0 t := by
  obtain ⟨-, -, hloss, -⟩ := linksTrainAndFall
  obtain ⟨t, hexec, hst, -, hwent, -⟩ := hloss (linked upLink) 0 (by decide) (by rw [link_linked]; rfl)
    (by rw [link_linked]; rfl)
  exact ⟨t, hexec, hst, hwent⟩

/-- A link that has only lost its keepalives trains again at once. -/
theorem keepaliveTimeout_retrains :
    Answers (.keepaliveTimeout 0) (linked upLink) fun t =>
      (t.link 0).st = .training ∧ WentDown 0 t ∧ (t.link 0).ctr.keepaliveLosses = 1 := by
  obtain ⟨-, -, -, hkeepalive, -⟩ := linksTrainAndFall
  obtain ⟨t, hexec, hst, hwent, hcount⟩ := hkeepalive (linked upLink) 0 (by decide) (by rw [link_linked]; rfl)
  rw [link_linked] at hst hcount
  exact ⟨t, hexec, hst, hwent, hcount⟩

theorem ethLinkLoss_down :
    Answers (.ethLinkLoss 0) (linked { mode := .ethernet, signal := true, st := .ethUp }) fun t =>
      (t.link 0).st = .down ∧ (t.link 0).ctr.losEvents = 1 := by
  obtain ⟨-, -, -, -, hloss, -⟩ := linksTrainAndFall
  obtain ⟨t, hexec, hst, -, hcount, -⟩ :=
    hloss (linked { mode := .ethernet, signal := true, st := .ethUp }) 0 (by decide) (by rw [link_linked])
  rw [link_linked] at hcount
  exact ⟨t, hexec, hst, hcount⟩

theorem linkTrained_idle : exec (.linkTrained 0 0xFF) (linked upLink) = .next (fabricStep (linked upLink) id) := by
  obtain ⟨-, -, -, -, -, hidle⟩ := linksTrainAndFall
  obtain ⟨htrained, -⟩ := hidle (linked upLink) 0 (by decide)
  exact htrained 0xFF (by rw [link_linked]; decide)

/-! ### Flits (09 R343 to R349) -/

/-- A flit of a given header. -/
def flitOf (hdr : BitVec 64) : Flit := ⟨hdr, 0, 0⟩

theorem flitSlot_leaving :
    Answers (.flitSlot 0) (linked { upLink with leaving := 64 }) fun t => (t.link 0).leaving = 63 := by
  obtain ⟨hslot, -⟩ := flitsAreHeldAndReplayed
  obtain ⟨hleaving, -⟩ := hslot (linked { upLink with leaving := 64 }) 0 (by decide)
  obtain ⟨t, hexec, -, hleft, -⟩ := hleaving (by rw [link_linked]; decide) (by rw [link_linked]; rfl)
  rw [link_linked] at hleft
  exact ⟨t, hexec, hleft⟩

theorem flitSlot_aborts :
    Answers (.flitSlot 0) (linked { mode := .verhel, aborts := 64 }) fun t => (t.link 0).aborts = 63 := by
  obtain ⟨hslot, -⟩ := flitsAreHeldAndReplayed
  obtain ⟨-, haborts, -⟩ := hslot (linked { mode := .verhel, aborts := 64 }) 0 (by decide)
  obtain ⟨t, hexec, -, hleft⟩ := haborts (.inl (by rw [link_linked])) (by rw [link_linked]; decide)
  rw [link_linked] at hleft
  exact ⟨t, hexec, hleft⟩

theorem flitSlot_down : exec (.flitSlot 0) (linked {}) = .next (linked {}) := by
  obtain ⟨hslot, -⟩ := flitsAreHeldAndReplayed
  obtain ⟨-, -, -, hdown, -⟩ := hslot (linked {}) 0 (by decide)
  exact hdown (by rw [link_linked]) (by rw [link_linked]; decide) (by rw [link_linked]; decide)

/-- A link that holds one flit, and replays it. -/
def replaying (replays : Nat) : Link :=
  { upLink with txSeq := 1, held := [⟨1, flitOf 0, replays⟩], replay := some 0 }

theorem flitSlot_replays :
    Answers (.flitSlot 0) (linked (replaying 0)) fun t =>
      (t.link 0).held = [⟨1, flitOf 0, 1⟩] ∧ (t.link 0).replay = none := by
  obtain ⟨hslot, -⟩ := flitsAreHeldAndReplayed
  obtain ⟨-, -, -, -, hup⟩ := hslot (linked (replaying 0)) 0 (by decide)
  rw [link_linked] at hup
  obtain ⟨hreplays, -⟩ := hup rfl rfl rfl
  obtain ⟨t, hexec, -, -, -, hheld, -, -, hnext⟩ := hreplays 0 ⟨1, flitOf 0, 0⟩ rfl rfl (by decide)
  exact ⟨t, hexec, hheld, hnext⟩

/-- The sixteenth replay without an ACK takes the link down. -/
theorem flitSlot_exhausted :
    Answers (.flitSlot 0) (linked (replaying 15)) fun t => WentDown 0 t ∧ (t.link 0).ctr.retryExhausted = 1 := by
  obtain ⟨hslot, -⟩ := flitsAreHeldAndReplayed
  obtain ⟨-, -, -, -, hup⟩ := hslot (linked (replaying 15)) 0 (by decide)
  rw [link_linked] at hup
  obtain ⟨-, hexhausted, -⟩ := hup rfl rfl rfl
  obtain ⟨t, hexec, hwent, -, hcount⟩ := hexhausted 0 ⟨1, flitOf 0, 15⟩ rfl rfl (by decide)
  exact ⟨t, hexec, hwent, hcount⟩

/-- A flit for lane 0 waits, with a credit. -/
def sending : Link := { upLink with tx := [(0, [⟨true, 5⟩])], credits := [(0, 1)] }

theorem flitSlot_sends :
    Answers (.flitSlot 0) (linked sending) fun t =>
      (t.link 0).held.length = 1 ∧ tgetD (t.link 0).tx 0 [] = [] ∧ tgetD (t.link 0).credits 0 0 = 0 ∧
        (t.link 0).txSeq = 1 := by
  obtain ⟨hslot, -⟩ := flitsAreHeldAndReplayed
  obtain ⟨-, -, -, -, hup⟩ := hslot (linked sending) 0 (by decide)
  rw [link_linked] at hup
  obtain ⟨-, -, -, -, hsends, -⟩ := hup rfl rfl rfl
  obtain ⟨t, hexec, -, -, hheld, htx, hcredits, hseq, -⟩ :=
    hsends 0 ⟨true, 5⟩ [] rfl (by decide) (by decide) rfl
  exact ⟨t, hexec, by rw [hheld]; rfl, htx, hcredits, hseq⟩

theorem flitSlot_idle : Answers (.flitSlot 0) (linked upLink) fun t => (t.link 0).idles = 1 := by
  obtain ⟨hslot, -⟩ := flitsAreHeldAndReplayed
  obtain ⟨-, -, -, -, hup⟩ := hslot (linked upLink) 0 (by decide)
  rw [link_linked] at hup
  obtain ⟨-, -, -, -, -, hidle⟩ := hup rfl rfl rfl
  obtain ⟨t, hexec, -, -, hidles, -⟩ := hidle rfl (by decide) (by decide)
  exact ⟨t, hexec, hidles⟩

/-- A flit as the partner sends it: its tag is right. -/
def peerFlit (s : State) (h n : Nat) (idle : Bool) (hdr : BitVec 64) : Flit :=
  let d := 1 - sendDir s h
  ⟨hdr, 0, gcmTag (sm4Keys (hopKey s h d)) (flitNonce (hopSalt s h d) idle n) ⟨8, hdr.toNat⟩
    ⟨flitBytes, (0 : BitVec 1856).toNat⟩⟩

theorem openFlit_peerFlit (s : State) (h n : Nat) (idle : Bool) (hdr : BitVec 64) :
    ∃ body, openFlit s h idle n (peerFlit s h n idle hdr) {} = some body := by
  refine Option.isSome_iff_exists.1 ?_
  unfold openFlit gcmOpen peerFlit
  simp only [Bool.false_eq_true, if_false, if_true, Option.map_some, Option.isSome_some]

theorem flitIdle_touched :
    Answers (.flitIdle 0 (flitOf 0) 0 { uncorrectable := 1, touched := true }) (linked upLink) fun t =>
      (t.link 0).ctr.tagFailures = 1 ∧ (t.link 0).ctr.fecUncorrectable = 1 := by
  obtain ⟨-, hidle, -⟩ := flitsAreHeldAndReplayed
  obtain ⟨-, hcounts, -⟩ := hidle (linked upLink) 0 0 (flitOf 0) { uncorrectable := 1, touched := true } (by decide)
  obtain ⟨t, hexec, -, huncorrectable, hfailures⟩ := hcounts (by rw [link_linked]; rfl)
  rw [link_linked] at huncorrectable hfailures
  exact ⟨t, hexec, hfailures, huncorrectable⟩

/-- An ACK of the one flit held. -/
theorem flitIdle_acked :
    Answers (.flitIdle 0 (peerFlit (linked { replaying 0 with replay := none }) 0 0 true (1 <<< 12)) 0 {})
      (linked { replaying 0 with replay := none }) fun t => (t.link 0).held = [] ∧ (t.link 0).acked = 1 := by
  obtain ⟨-, hidle, -⟩ := flitsAreHeldAndReplayed
  obtain ⟨body, hopen⟩ := openFlit_peerFlit (linked { replaying 0 with replay := none }) 0 0 true (1 <<< 12)
  obtain ⟨-, -, -, htaken, -⟩ := hidle (linked { replaying 0 with replay := none }) 0 0
    (peerFlit (linked { replaying 0 with replay := none }) 0 0 true (1 <<< 12)) {} (by decide)
  rw [link_linked, hopen] at htaken
  obtain ⟨t, hexec, hacked, -⟩ := htaken rfl rfl (show hdrBits (1 <<< 12) 30 2 ≠ 2 by decide)
  obtain ⟨hack, hheld⟩ := hacked (show 0 < (hdrBits (1 <<< 12) 12 12 + 4096 - 0) % 4096 by decide)
    (show (hdrBits (1 <<< 12) 12 12 + 4096 - 0) % 4096 ≤ 1 by decide)
  exact ⟨t, hexec, hheld, hack⟩

/-- The partner leaves. -/
theorem flitIdle_leaves :
    Answers (.flitIdle 0 (peerFlit (linked upLink) 0 0 true (2 <<< 30)) 0 {}) (linked upLink) fun t => WentDown 0 t := by
  obtain ⟨-, hidle, -⟩ := flitsAreHeldAndReplayed
  obtain ⟨body, hopen⟩ := openFlit_peerFlit (linked upLink) 0 0 true (2 <<< 30)
  obtain ⟨-, -, -, -, hleaves⟩ := hidle (linked upLink) 0 0 (peerFlit (linked upLink) 0 0 true (2 <<< 30)) {} (by decide)
  rw [link_linked, hopen] at hleaves
  exact hleaves rfl rfl (show hdrBits (2 <<< 30) 30 2 = 2 by decide)

theorem flitData_inSequence :
    Answers (.flitData 0 (peerFlit (linked upLink) 0 0 false 1) 0 {}) (linked upLink) fun t =>
      (t.link 0).rxSeq = 1 ∧ (t.link 0).nak = false := by
  obtain ⟨-, -, hdata⟩ := flitsAreHeldAndReplayed
  obtain ⟨body, hopen⟩ := openFlit_peerFlit (linked upLink) 0 0 false 1
  obtain ⟨-, -, -, hsound⟩ := hdata (linked upLink) 0 0 (peerFlit (linked upLink) 0 0 false 1) {} (by decide)
  rw [link_linked] at hsound
  obtain ⟨-, -, htaken⟩ := hsound body rfl hopen
  obtain ⟨t, hexec, hseq, hnak, -⟩ := htaken (show hdrBits 1 30 2 ≠ 2 by decide)
    (show hdrBits 1 0 12 = (0 + 1) % 4096 by decide)
  exact ⟨t, hexec, hseq, hnak⟩

theorem flitData_gap :
    Answers (.flitData 0 (peerFlit (linked upLink) 0 0 false 2) 0 {}) (linked upLink) fun t =>
      (t.link 0).rxSeq = 0 ∧ (t.link 0).nak = true := by
  obtain ⟨-, -, hdata⟩ := flitsAreHeldAndReplayed
  obtain ⟨body, hopen⟩ := openFlit_peerFlit (linked upLink) 0 0 false 2
  obtain ⟨-, -, -, hsound⟩ := hdata (linked upLink) 0 0 (peerFlit (linked upLink) 0 0 false 2) {} (by decide)
  rw [link_linked] at hsound
  obtain ⟨-, hgap, -⟩ := hsound body rfl hopen
  obtain ⟨t, hexec, hnak, hseq, -⟩ := hgap (show hdrBits 2 30 2 ≠ 2 by decide)
    (show hdrBits 2 0 12 ≠ (0 + 1) % 4096 by decide)
  exact ⟨t, hexec, hseq, hnak⟩

/-! ### Keying (14 R543 to R545) -/

/-- A link that is keying and has the partner's offer. -/
def keyingLink : Link := { mode := .verhel, signal := true, st := .keying, offer := some 5 }

theorem keyOffer_refused :
    Answers (.keyOffer 0 5 0 false 0) (linked keyingLink) fun t => (t.link 0).st = .down ∧ (t.link 0).aborts = 64 := by
  obtain ⟨hoffer, -⟩ := keyingOpensLinks
  obtain ⟨⟨t, hexec, -, -, hst, haborts, -⟩, -⟩ :=
    hoffer (linked keyingLink) 0 5 0 0 (by decide) (by rw [link_linked]; rfl)
  exact ⟨t, hexec, hst, haborts⟩

theorem keyOffer_taken :
    Answers (.keyOffer 0 5 (ownerDigest (linked keyingLink)) true 7) (linked keyingLink) fun t =>
      (t.link 0).offer = some 5 ∧ (t.link 0).st = .keying ∧ (t.link 0).confirmK = 7 := by
  obtain ⟨hoffer, -⟩ := keyingOpensLinks
  obtain ⟨-, -, htaken⟩ :=
    hoffer (linked keyingLink) 0 5 (ownerDigest (linked keyingLink)) 7 (by decide) (by rw [link_linked]; rfl)
  obtain ⟨t, hexec, hsaved, -, hst, -, hk, -⟩ := htaken rfl
  exact ⟨t, hexec, hsaved, hst, hk⟩

theorem keyConfirm_opens :
    Answers (.keyConfirm 0 true) (linked keyingLink) fun t =>
      (t.link 0).st = .notReady ∧ KeyGone (.ephemeral 0) t := by
  obtain ⟨-, hconfirm, -⟩ := keyingOpensLinks
  obtain ⟨-, t, hexec, hst, -, -, -, hgone, -⟩ :=
    hconfirm (linked keyingLink) 0 5 (by decide) (by rw [link_linked]; rfl) (by rw [link_linked]; rfl)
  exact ⟨t, hexec, hst, hgone⟩

theorem keyingTimeout_fails :
    Answers (.keyingTimeout 0) (linked keyingLink) fun t => (t.link 0).retryWait = true ∧ WentDown 0 t := by
  obtain ⟨-, -, hfails, -⟩ := keyingOpensLinks
  obtain ⟨-, t, hexec, -, -, -, -, hwait, hwent⟩ := hfails (linked keyingLink) 0 (by decide) (by rw [link_linked]; rfl)
  exact ⟨t, hexec, hwait, hwent⟩

theorem keyingRetry_trains :
    Answers (.keyingRetry 0) (linked { mode := .verhel, signal := true, retryWait := true }) fun t =>
      (t.link 0).st = .training ∧ (t.link 0).retryWait = false := by
  obtain ⟨-, -, -, hretry, -⟩ := keyingOpensLinks
  obtain ⟨hwaits, -⟩ := hretry (linked { mode := .verhel, signal := true, retryWait := true }) 0 (by decide)
  rw [link_linked] at hwaits
  obtain ⟨t, hexec, hwait, hst⟩ := hwaits rfl
  exact ⟨t, hexec, hst, hwait⟩

theorem keyAbort_idle : exec (.keyAbort 0) (linked upLink) = .next (fabricStep (linked upLink) id) := by
  obtain ⟨-, -, -, -, hidle⟩ := keyingOpensLinks
  obtain ⟨-, -, habort, -⟩ := hidle (linked upLink) 0 (by decide)
  obtain ⟨hnext, -⟩ := habort (by rw [link_linked]; decide)
  exact hnext

end Sys2Proof.Laws.LinkExamples
end

section
/-!
PROOF. States at which the statements on the database sync, records and routes apply (O31, O32).
-/

-- One declaration after another: side by side they need more threads than the memory of the check leaves room for.
set_option Elab.async false

open Sys2Proof Sys2Proof.Machine Sys2Proof.Claims Sys2Proof.Laws Sys2Proof.Laws.LinkExamples

namespace Sys2Proof.Laws.PacketExamples

/-- A packet at the end of its route, from device 0 and for job 0. -/
def arrivedPkt (kind channel operand : Nat) (payload : Blob) : Pkt :=
  ⟨BitVec.ofNat 256 (kind + channel * 2 ^ 36 + operand * 2 ^ 232), payload⟩

/-- A state whose link 0 is up and has received a packet. -/
def received (s : State) (l : Link) (p : Pkt) : State := s.setLink 0 { l with rx := [(0, p)] }

section
variable (s : State) (l : Link) (p : Pkt)

theorem link_received : (received s l p).link 0 = { l with rx := [(0, p)] } := by
  unfold received State.link State.setLink
  exact tgetD_tset_self _ _ _ _

theorem takePacket_received {k : Nat} (hkind : p.kind = k) (hhop : p.hop = p.nhops) :
    ∃ s1, takePacket (received s l p) 0 k = some (p, s1) := by
  unfold takePacket
  rw [link_received, List.find?_cons_of_pos (by simp [hkind, hhop])]
  exact ⟨_, rfl⟩

theorem takeSync_received {op : Nat} (hkind : p.kind = 0xE) (hop : p.operand % 4 = op) :
    ∃ s1, takeSync (received s l p) 0 op = some (p, s1) := by
  unfold takeSync
  rw [link_received, List.find?_cons_of_pos (by simp [hkind, hop])]
  exact ⟨_, rfl⟩

end

/-- The islands run, and nothing else is set up. -/
def idleState : State := TierExamples.awake State.reset

/-! ### The database sync (09 R353 to R355, R361) -/

/-- A HELLO of fabric 0, which is the device's own, from device 7. -/
def helloPkt : Pkt := arrivedPkt 0xC 0 0 ⟨20, 7⟩

/-- A HELLO of fabric 1. -/
def foreignHello : Pkt := arrivedPkt 0xC 0 0 ⟨20, 2 ^ 64⟩

theorem hello_foreign :
    Answers (.hello 0) (received idleState upLink foreignHello) fun t =>
      (t.link 0).st = .down ∧ (t.link 0).mismatchWait = true ∧ (t.link 0).ctr.fabricMismatches = 1 := by
  obtain ⟨hhello, -⟩ := syncsExchangeRecords
  obtain ⟨s1, htake⟩ := takePacket_received idleState upLink foreignHello (k := 0xC) (by decide)
    (by decide)
  obtain ⟨hforeign, -⟩ := hhello (received idleState upLink foreignHello) s1 0 foreignHello (by decide) htake
  obtain ⟨t, hexec, hst, hwait, -, hcount⟩ := hforeign (by decide)
  rw [link_received] at hcount
  exact ⟨t, hexec, hst, hwait, hcount⟩

theorem hello_greets :
    Answers (.hello 0) (received idleState upLink helloPkt) fun t =>
      (t.link 0).st = .ready ∧ (t.link 0).peerSerial = 7 ∧ (t.link 0).sync = .offered := by
  obtain ⟨hhello, -⟩ := syncsExchangeRecords
  obtain ⟨s1, htake⟩ := takePacket_received idleState upLink helloPkt (k := 0xC) (by decide) (by decide)
  obtain ⟨-, hown⟩ := hhello (received idleState upLink helloPkt) s1 0 helloPkt (by decide) htake
  obtain ⟨t, hexec, hst, hserial, -, -, hoffers, -⟩ := hown (by decide)
  rw [link_received] at hst
  exact ⟨t, hexec, hst, hserial.trans (by decide), hoffers (.inl (by decide))⟩

theorem syncOffer_accepted :
    Answers (.syncOffer 0) (received idleState upLink (arrivedPkt 0xE 0 0 Blob.empty)) fun t =>
      (t.link 0).sync = .running ∧ (t.link 0).syncSent = true := by
  obtain ⟨-, hoffer, -⟩ := syncsExchangeRecords
  obtain ⟨s1, htake⟩ := takeSync_received idleState upLink (arrivedPkt 0xE 0 0 Blob.empty) (op := 0) (by decide)
    (by decide)
  obtain ⟨-, haccepts⟩ :=
    hoffer (received idleState upLink (arrivedPkt 0xE 0 0 Blob.empty)) s1 0 _ (by decide) htake
  obtain ⟨t, hexec, hrunning, -, hsent, -⟩ := haccepts (.inr (by decide))
  obtain ⟨hall, -⟩ := hsent (by rw [link_received]; decide)
  exact ⟨t, hexec, hrunning, hall⟩

/-- A record of device 9. -/
def record9 : BitVec 1728 := BitVec.ofNat 1728 9

theorem mod_two_pow_of_lt_16 {n w : Nat} (hn : n < 16) (hw : 4 ≤ w) : n % 2 ^ w = n :=
  Nat.mod_eq_of_lt (Nat.lt_of_lt_of_le hn (Nat.pow_le_pow_right Nat.two_pos hw))

theorem toNat_ofNat_of_lt_16 {n w : Nat} (hn : n < 16) (hw : 4 ≤ w) : (BitVec.ofNat w n).toNat = n :=
  (BitVec.toNat_ofNat n w).trans (mod_two_pow_of_lt_16 hn hw)

theorem serial_record9 : recSerial record9 = 9 := by
  rw [recSerial, recBits, record9, toNat_ofNat_of_lt_16 (by decide) (by decide)]
  decide

theorem records_nine : blobRecords ⟨216, 9⟩ = [record9] := by
  show [BitVec.ofNat 1728 (bits 9 (1728 * 0) 1728)] = [BitVec.ofNat 1728 9]
  rw [bits, Nat.mul_zero, Nat.pow_zero, Nat.div_one, mod_two_pow_of_lt_16 (by decide) (by decide)]

/-- A packet with that record. -/
def recordPkt (kind operand : Nat) : Pkt := arrivedPkt kind 0 operand ⟨216, 9⟩

theorem syncRecords_stores :
    Answers (.syncRecords 0) (received idleState { upLink with sync := .running } (recordPkt 0xE 1)) fun t =>
      tget t.fab.lsdb 9 = some record9 := by
  obtain ⟨-, -, hrecords, -⟩ := syncsExchangeRecords
  obtain ⟨s1, htake⟩ := takeSync_received idleState { upLink with sync := .running } (recordPkt 0xE 1) (op := 1)
    (by decide) (by decide)
  obtain ⟨-, hone⟩ := hrecords (received idleState { upLink with sync := .running } (recordPkt 0xE 1)) s1 0 _ (by decide)
    htake
  obtain ⟨hstored, -⟩ := hone record9 records_nine (by rw [serial_record9]; decide)
  rw [serial_record9] at hstored
  obtain ⟨t, hexec, hstands⟩ := hstored (.inr ⟨by decide, by decide⟩)
  exact ⟨t, hexec, hstands⟩

theorem syncDone_ends :
    Answers (.syncDone 0) (received idleState { upLink with sync := .running } (arrivedPkt 0xE 0 2 Blob.empty)) fun t =>
      (t.link 0).sync = .idle := by
  obtain ⟨-, -, -, hdone, -⟩ := syncsExchangeRecords
  obtain ⟨s1, htake⟩ := takeSync_received idleState { upLink with sync := .running } (arrivedPkt 0xE 0 2 Blob.empty)
    (op := 2) (by decide) (by decide)
  obtain ⟨⟨t, hexec, hidle, -⟩, -⟩ := hdone
    (received idleState { upLink with sync := .running } (arrivedPkt 0xE 0 2 Blob.empty)) s1 0 _ (by decide) htake
  exact ⟨t, hexec, hidle⟩

theorem syncNotReady_waits :
    Answers (.syncNotReady 0) (received idleState { upLink with sync := .offered } (arrivedPkt 0xE 0 3 Blob.empty)) fun t =>
      (t.link 0).sync = .backoff ∧ (t.link 0).backoffK = 1 := by
  obtain ⟨-, -, -, -, hnotReady, -⟩ := syncsExchangeRecords
  obtain ⟨s1, htake⟩ := takeSync_received idleState { upLink with sync := .offered } (arrivedPkt 0xE 0 3 Blob.empty)
    (op := 3) (by decide) (by decide)
  obtain ⟨hoffered, -⟩ := hnotReady
    (received idleState { upLink with sync := .offered } (arrivedPkt 0xE 0 3 Blob.empty)) s1 0 _ (by decide) htake
  rw [link_received] at hoffered
  obtain ⟨t, hexec, hsync, hk, -⟩ := hoffered rfl
  exact ⟨t, hexec, hsync, hk⟩

theorem syncBackoff_offers :
    Answers (.syncBackoff 0) (linked { upLink with sync := .backoff }) fun t => (t.link 0).sync = .offered := by
  obtain ⟨-, -, -, -, -, hidle⟩ := syncsExchangeRecords
  obtain ⟨hbackoff, -⟩ := hidle (linked { upLink with sync := .backoff }) 0 (by decide)
  obtain ⟨t, hexec, ⟨hoffers, -⟩, -⟩ := hbackoff (by rw [link_linked])
  exact ⟨t, hexec, hoffers (.inl (by decide))⟩

theorem hello_idle : exec (.hello 0) (linked upLink) = .next (fabricStep (linked upLink) id) := by
  obtain ⟨-, -, -, -, -, hidle⟩ := syncsExchangeRecords
  obtain ⟨-, -, hnone, -⟩ := hidle (linked upLink) 0 (by decide)
  refine hnone ?_
  unfold takePacket
  rw [link_linked]
  rfl

/-! ### Records and routes (09 R359, R361, R362, R366, R367) -/

theorem accessionSettle_done :
    Answers .accessionSettle (idleState.modFab fun f => { f with accSt := .claiming, flooded := true }) fun t =>
      t.fab.accSt = .done := by
  obtain ⟨hsettle, -⟩ := recordsAndRoutes
  obtain ⟨t, hexec, hdone, -⟩ := hsettle (idleState.modFab fun f => { f with accSt := .claiming, flooded := true }) rfl rfl
  exact ⟨t, hexec, hdone⟩

theorem lsr_stores :
    Answers (.lsr 0) (received idleState upLink (recordPkt 0xD 0)) fun t => tget t.fab.lsdb 9 = some record9 := by
  obtain ⟨-, hlsr, -⟩ := recordsAndRoutes
  obtain ⟨s1, htake⟩ := takePacket_received idleState upLink (recordPkt 0xD 0) (k := 0xD) (by decide)
    (by decide)
  obtain ⟨-, hone⟩ := hlsr (received idleState upLink (recordPkt 0xD 0)) s1 0 _ (by decide) htake
  obtain ⟨hstored, -⟩ := hone record9 records_nine (by rw [serial_record9]; decide)
  rw [serial_record9] at hstored
  obtain ⟨t, hexec, hstands⟩ := hstored (.inr ⟨by decide, by decide⟩)
  exact ⟨t, hexec, hstands⟩

/-- A device that knows of device 9, and has no link to it. -/
def knowsNine : State := idleState.modFab fun f => { f with lsdb := [(9, record9)], dirty := true }

theorem lsdbRecordExpiry_expires :
    Answers (.lsdbRecordExpiry 9) knowsNine fun t => t.fab.lsdb = [] ∧ t.fab.dirty = true := by
  obtain ⟨-, -, -, hexpiry, -⟩ := recordsAndRoutes
  obtain ⟨hunreachable, -⟩ := hexpiry knowsNine 9 (by decide) (by decide)
  obtain ⟨t, hexec, hlsdb, hdirty⟩ := hunreachable (by decide)
  exact ⟨t, hexec, hlsdb.trans (by decide), hdirty⟩

theorem routeRecompute_installs :
    Answers .routeRecompute knowsNine fun t => t.fab.routes = computeRoutes knowsNine ∧ t.fab.recomputes = 1 := by
  obtain ⟨-, -, -, -, hroutes, -⟩ := recordsAndRoutes
  obtain ⟨t, hexec, hinstalled, -, hcount, -⟩ := hroutes knowsNine rfl
  exact ⟨t, hexec, hinstalled, hcount⟩

/-- A packet with one hop to go, by link 1. -/
def transitPkt : Pkt := ⟨BitVec.ofNat 256 (2 + 2 ^ 64 + 2 ^ 144), Blob.empty⟩

theorem packetForward_leaves :
    Answers (.packetForward 0) (received (idleState.setLink 1 upLink) upLink transitPkt) fun t =>
      (t.link 0).rx = [] ∧ (tgetD (t.link 1).tx 0 []).length = 1 := by
  obtain ⟨-, -, -, -, -, hforward, -⟩ := recordsAndRoutes
  obtain ⟨hready, -⟩ := hforward (received (idleState.setLink 1 upLink) upLink transitPkt) 0 0 transitPkt (by decide)
    (by rw [link_received]; decide)
  have hroute : transitPkt.route transitPkt.hop = 1 := by decide
  have hlane : laneOf transitPkt.kind transitPkt.levelup transitPkt.hop = 0 := by decide
  rw [hroute, hlane] at hready
  obtain ⟨t, hexec, htx, hrx, -⟩ := hready (by decide)
  rw [link_received] at hrx
  refine ⟨t, hexec, hrx.trans (by decide), ?_⟩
  rw [htx, List.length_append]
  decide

theorem packetForward_dropped :
    Answers (.packetForward 0) (received idleState upLink transitPkt) fun t =>
      (t.link 0).rx = [] ∧ (t.link 1).ctr.droppedNoLink = 1 := by
  obtain ⟨-, -, -, -, -, hforward, -⟩ := recordsAndRoutes
  obtain ⟨-, hdown⟩ := hforward (received idleState upLink transitPkt) 0 0 transitPkt (by decide)
    (by rw [link_received]; decide)
  have hroute : transitPkt.route transitPkt.hop = 1 := by decide
  rw [hroute] at hdown
  obtain ⟨t, hexec, hcount, -, hrx, -⟩ := hdown (by decide)
  rw [link_received] at hrx
  exact ⟨t, hexec, hrx.trans (by decide), hcount.trans (by decide)⟩

end Sys2Proof.Laws.PacketExamples
end

section
/-!
PROOF. States at which the statements on packets at their destination apply (O33 to O36).
-/

-- One declaration after another: side by side they need more threads than the memory of the check leaves room for.
set_option Elab.async false

open Sys2Proof Sys2Proof.Machine Sys2Proof.Claims Sys2Proof.Laws Sys2Proof.Laws.RemoteAccess Sys2Proof.Laws.LinkExamples
  Sys2Proof.Laws.PacketExamples

namespace Sys2Proof.Laws.DestinationExamples

/-! ### Packets that the transport accepts (09 R370) -/

theorem delivered_first {s s0 : State} {h k : Nat} {p : Pkt} (htake : takePacket s h k = some (p, s0))
    (hrx : s.fab.rx = []) (htx : s.fab.tx = []) (hseq : p.tseq = 0) : ∃ s1, Delivered s h k p s1 := by
  have hcarried := carried_of_takePacket htake
  have hempty := (rx_of_takePacket htake).trans hrx
  obtain ⟨links, n, haccept⟩ := acceptPacket_opens (s := s0) (p := p) (by rw [hempty]; rfl)
    (by rw [connectionsOpen, hcarried.tx_eq, htx, hempty]; decide)
  rw [decide_eq_true hseq] at haccept
  exact ⟨_, s0, htake, haccept⟩

theorem takeFor_of_delivered {s s1 : State} {h k c : Nat} {p : Pkt} (hdelivered : Delivered s h k p s1)
    (hjob : jobCtx s p.job = some c) : takeFor s h k = (s1, some (p, c)) := by
  obtain ⟨s0, htake, haccept⟩ := hdelivered
  rw [← (carried_of_takePacket htake).jobCtx_eq] at hjob
  simp only [takeFor, htake, hjob, haccept]

/-- Context 0 is loaded for job 0 and has granule 0; device 0 is the one rank of the job. -/
def jobState (x : Ctx) : State :=
  TierExamples.awake (State.reset.setCtx 0 { x with st := .loaded, led := { x.led with ranks := [0] } })

/-- That device has received a packet of a kind, as the first on its connection. -/
theorem delivered_received (x : Ctx) (p : Pkt) {k : Nat} (hkind : p.kind = k) (hhop : p.hop = p.nhops)
    (hseq : p.tseq = 0) : ∃ s1, Delivered (received (jobState x) upLink p) 0 k p s1 := by
  obtain ⟨s0, htake⟩ := takePacket_received (jobState x) upLink p hkind hhop
  exact delivered_first htake rfl rfl hseq

/-! ### Remote accesses (09 R370, R373) -/

/-- Device 0 holds one packet for the job, of TSEQ 0. -/
def oneHeld : TxConn := ⟨0, 0, 0, 0, 1, [⟨0, 2, 0, Blob.empty⟩], []⟩

theorem ack_releases :
    Answers (.ack 0) (received (idleState.modFab fun f => { f with tx := [oneHeld] }) upLink (arrivedPkt 5 0 0 Blob.empty))
      fun t => findTx t 0 0 0 = some { oneHeld with held := [] } := by
  obtain ⟨hack, -⟩ := remoteAccessesAreChecked
  obtain ⟨s1, htake⟩ := takePacket_received (idleState.modFab fun f => { f with tx := [oneHeld] }) upLink
    (arrivedPkt 5 0 0 Blob.empty) (k := 5) (by decide) (by decide)
  obtain ⟨-, hknown⟩ := hack (received (idleState.modFab fun f => { f with tx := [oneHeld] }) upLink
    (arrivedPkt 5 0 0 Blob.empty)) s1 0 _ (by decide) htake
  obtain ⟨t, hexec, hfind, -⟩ := hknown oneHeld (by decide)
  refine ⟨t, hexec, Eq.trans ?_ (hfind.trans (by decide))⟩
  rw [show (arrivedPkt 5 0 0 Blob.empty).src = 0 by decide,
    show (arrivedPkt 5 0 0 Blob.empty).job = 0 by decide,
    show (arrivedPkt 5 0 0 Blob.empty).channel = 0 by decide]

/-- A WRITE of one byte, ABh, at an address. -/
def writePkt (a : Nat) : Pkt := arrivedPkt 2 0 0 ⟨9, a + 0xAB * 2 ^ 64⟩

theorem write_stores :
    Answers (.write 0) (received (jobState {}) upLink (writePkt 0)) fun t => t.mem.mem.read 0 = 0xAB := by
  obtain ⟨-, -, -, -, -, hwrite, -⟩ := remoteAccessesAreChecked
  obtain ⟨s1, hdelivered⟩ := delivered_received {} (writePkt 0) (k := 2) (by decide) (by decide)
    (by decide)
  obtain ⟨-, -, -, hallowed⟩ := hwrite _ s1 0 _ (by decide) hdelivered (by decide)
  obtain ⟨t, hexec, hbytes, -⟩ := hallowed (by decide) (by decide) (by decide) (by decide)
  exact ⟨t, hexec, (hbytes 0).trans (by decide)⟩

/-- Granule 1 is not the job's. -/
theorem write_refused :
    Answers (.write 0) (received (jobState {}) upLink (writePkt (2 ^ 26))) fun t => t.fab.remoteDenied = 1 := by
  obtain ⟨-, -, -, -, -, hwrite, -⟩ := remoteAccessesAreChecked
  obtain ⟨s1, hdelivered⟩ := delivered_received {} (writePkt (2 ^ 26)) (k := 2) (by decide) (by decide)
    (by decide)
  obtain ⟨-, -, hdenied, -⟩ := hwrite _ s1 0 _ (by decide) hdelivered (by decide)
  obtain ⟨t, hexec, -, hcount⟩ := hdenied (by decide) (by decide) (by decide)
  exact ⟨t, hexec, hcount⟩

/-- A READ of a length at address 0. -/
def readPkt (n : Nat) : Pkt := arrivedPkt 3 0 n ⟨8, 0⟩

theorem read_answered :
    Answers (.read 0) (received (jobState {}) upLink (readPkt 128)) fun t => t.fab.remoteDenied = 0 := by
  obtain ⟨-, -, -, -, -, -, hread, -⟩ := remoteAccessesAreChecked
  obtain ⟨s1, hdelivered⟩ := delivered_received {} (readPkt 128) (k := 3) (by decide) (by decide)
    (by decide)
  obtain ⟨-, hallowed⟩ := hread _ s1 0 _ (by decide) hdelivered (by decide)
  obtain ⟨⟨t, hexec, -, hcount⟩, -⟩ := hallowed (by decide) (by decide) (by decide)
  exact ⟨t, hexec, hcount⟩

theorem read_tooShort :
    Answers (.read 0) (received (jobState {}) upLink (readPkt 127)) fun t => t.fab.remoteDenied = 1 := by
  obtain ⟨-, -, -, -, -, -, hread, -⟩ := remoteAccessesAreChecked
  obtain ⟨s1, hdelivered⟩ := delivered_received {} (readPkt 127) (k := 3) (by decide) (by decide)
    (by decide)
  obtain ⟨hrefused, -⟩ := hread _ s1 0 _ (by decide) hdelivered (by decide)
  obtain ⟨t, hexec, -, hcount⟩ := hrefused (.inl (by decide))
  exact ⟨t, hexec, hcount⟩

/-- A commit is under way. -/
def committing : Ctx := { led := { commit := some { c := 0, slot := 0 } } }

theorem readData_denied :
    Answers (.readData 0) (received (jobState committing) upLink (arrivedPkt 4 0 1 Blob.empty)) fun t =>
      (t.ctx 0).led.commit = some { c := 0, slot := 0, cause := 6 } := by
  obtain ⟨-, -, -, -, -, -, -, hdata⟩ := remoteAccessesAreChecked
  obtain ⟨s1, hdelivered⟩ := delivered_received committing (arrivedPkt 4 0 1 Blob.empty) (k := 4) (by decide)
    (by decide) (by decide)
  obtain ⟨-, hctx⟩ := hdata _ s1 0 _ (by decide) hdelivered
  obtain ⟨hdenied, -⟩ := hctx 0 (by decide)
  obtain ⟨t, hexec, hcause, -⟩ := hdenied (by decide) { c := 0, slot := 0 } rfl
  exact ⟨t, hexec, hcause⟩

/-! ### Streams across the fabric (09 R370 to R374) -/

/-- A stream from rank 0, over the fabric, to one consumer. -/
def fabricStream : StreamRec := ⟨6, [0], 0, 0, 0, false, 0, 0, 64⟩

/-- A context with that stream. -/
def streaming : Ctx := { image := some ⟨1, [], [], [fabricStream], [], []⟩ }

/-- A STREAM packet with words for stream 0. -/
def streamPkt (operand : Nat) (payload : Blob) : Pkt := arrivedPkt 0 0 operand payload

theorem stream_taken (operand : Nat) (payload : Blob) (hkind : (streamPkt operand payload).kind = 0)
    (hhop : (streamPkt operand payload).hop = (streamPkt operand payload).nhops)
    (hseq : (streamPkt operand payload).tseq = 0)
    (hjob : jobCtx (received (jobState streaming) upLink (streamPkt operand payload)) (streamPkt operand payload).job =
      some 0) :
    ∃ s1, takeFor (received (jobState streaming) upLink (streamPkt operand payload)) 0 0 =
      (s1, some (streamPkt operand payload, 0)) := by
  obtain ⟨s1, hdelivered⟩ := delivered_received streaming (streamPkt operand payload) hkind hhop hseq
  exact ⟨s1, takeFor_of_delivered hdelivered hjob⟩

theorem stream_starts :
    Answers (.stream 0) (received (jobState streaming) upLink (streamPkt 0 (checkPayload fabricStream))) fun t =>
      ((t.stream 0 0).end' farEnd).started = true := by
  obtain ⟨hstream, -⟩ := streamsCrossTheFabric
  obtain ⟨s1, htake⟩ := stream_taken 0 (checkPayload fabricStream) (by decide) (by decide)
    (by decide) (by decide)
  obtain ⟨-, hrec⟩ := hstream _ s1 0 0 _ (by decide) htake
  obtain ⟨-, hend⟩ := hrec fabricStream (by decide)
  obtain ⟨hagrees, -⟩ := hend farEnd 6 (by decide)
  rw [show (streamPkt 0 (checkPayload fabricStream)).channel = 0 by decide] at hagrees
  obtain ⟨t, hexec, hstarted, -⟩ := hagrees (by decide) (by decide)
  exact ⟨t, hexec, hstarted⟩

/-- One word joins the consumer's queue. -/
theorem stream_word :
    Answers (.stream 0) (received (jobState streaming) upLink (streamPkt 1 ⟨144, 0⟩)) fun t =>
      (FabricStreams.queueOf fabricStream (t.stream 0 0) 0).length = 1 := by
  obtain ⟨hstream, -⟩ := streamsCrossTheFabric
  obtain ⟨s1, htake⟩ := stream_taken 1 ⟨144, 0⟩ (by decide) (by decide) (by decide)
    (by decide)
  obtain ⟨-, hrec⟩ := hstream _ s1 0 0 _ (by decide) htake
  obtain ⟨-, hend⟩ := hrec fabricStream (by decide)
  obtain ⟨-, -, -, hwords⟩ := hend farEnd 6 (by decide)
  obtain ⟨-, hqueues, -⟩ := hwords (by decide) rfl
  rw [show (streamPkt 1 ⟨144, 0⟩).channel = 0 by decide] at hqueues
  obtain ⟨t, hexec, hjoined, -⟩ := hqueues (.inl (by decide))
  exact ⟨t, hexec, (congrArg List.length (hjoined 0 (by decide))).trans (by decide)⟩

theorem words_zero : payloadWords ⟨144, 0⟩ 1 = [⟨0, false, false, false⟩] := by
  simp only [payloadWords, Blob.bits, bits, Nat.zero_div, Nat.zero_mod]
  rfl

theorem header_zero : (THdr.parse 0).sample = 0 ∧ (THdr.parse 0).use = 0 := by
  have hzero : (0 : BitVec 1024).toNat = 0 := BitVec.toNat_zero
  simp only [THdr.parse, bits, hzero, Nat.zero_div, Nat.zero_mod, and_self]

/-- The one leaf of a commit is in, and its root answers. -/
theorem collective_answers :
    Answers (.collective 0) (received (jobState committing) upLink (arrivedPkt 6 treeChannel 1 ⟨144, 0⟩)) fun t =>
      (t.ctx 0).led.commit = some { c := 0, slot := 0, answer := some 0 } := by
  obtain ⟨-, -, htree, -⟩ := streamsCrossTheFabric
  obtain ⟨s1, hdelivered⟩ := delivered_received committing (arrivedPkt 6 treeChannel 1 ⟨144, 0⟩) (k := 6)
    (by decide) (by decide) (by decide)
  have htake := takeFor_of_delivered hdelivered (c := 0) (by decide)
  obtain ⟨-, hword⟩ := htree _ s1 0 0 _ (by decide) htake (by decide)
  obtain ⟨-, -, hleaf⟩ := hword ⟨0, false, false, false⟩ [] words_zero
  rw [header_zero.1, header_zero.2] at hleaf
  obtain ⟨t, hexec, hled⟩ := hleaf (by decide) 0 (by decide)
  exact ⟨t, hexec, (congrArg Machine.Ledger.commit hled).trans (by decide)⟩

/-- No context runs job 0. -/
theorem stream_denied :
    Answers (.stream 0) (received idleState upLink (streamPkt 0 Blob.empty)) fun t => t.fab.remoteDenied = 1 := by
  obtain ⟨-, -, -, -, hidle⟩ := streamsCrossTheFabric
  obtain ⟨s0, htake⟩ := takePacket_received idleState upLink (streamPkt 0 Blob.empty) (k := 0) (by decide)
    (by decide)
  obtain ⟨-, htaken⟩ := hidle (received idleState upLink (streamPkt 0 Blob.empty)) 0 0 (.stream 0) (by decide) (by simp)
  obtain ⟨hdenied, -⟩ := htaken _ s0 htake
  obtain ⟨t, hexec, hcount, -⟩ := hdenied (by decide)
  exact ⟨t, hexec, hcount⟩

/-! ### Sessions and loans (09 R376 to R378) -/

/-- A session of 8 bytes at 0 for the job, of which a member holds the first bytes, without a parent. -/
def session (got : Nat) (children : List McastChild) : Session :=
  { job := 0, number := 1, parent := none, children := children, dest := 0, length := 8, budget := 16, got := got }

/-- The device with that session has received a packet. -/
def inSession (x : Session) (p : Pkt) : State :=
  received ((jobState {}).modFab fun f => { f with sessions := [x] }) upLink p

theorem delivered_inSession (x : Session) (p : Pkt) {k : Nat} (hkind : p.kind = k) (hhop : p.hop = p.nhops)
    (hseq : p.tseq = 0) : ∃ s1, Delivered (inSession x p) 0 k p s1 := by
  obtain ⟨s0, htake⟩ := takePacket_received ((jobState {}).modFab fun f => { f with sessions := [x] }) upLink p hkind hhop
  exact delivered_first htake rfl rfl hseq

/-- The whole of the session: eight bytes, the first of them ABh. -/
def rangePkt : Pkt := arrivedPkt 7 0xFFD 1 ⟨16, 0xAB * 2 ^ 64⟩

theorem mcast_completes :
    Answers (.mcast 0) (inSession (session 0 []) rangePkt) fun t =>
      t.mem.mem.read 0 = 0xAB ∧ findSession t 0 1 = some { session 8 [] with doneSent := true } := by
  obtain ⟨hmcast, -⟩ := sessionsDeliverAndLend
  obtain ⟨s1, hdelivered⟩ := delivered_inSession (session 0 []) rangePkt (k := 7) (by decide) (by decide)
    (by decide)
  obtain ⟨-, hruns⟩ := hmcast _ s1 0 0 _ (by decide) (takeFor_of_delivered hdelivered (by decide))
  obtain ⟨-, hsession⟩ := hruns (by decide)
  obtain ⟨-, hwrites⟩ := hsession (session 0 []) (by decide)
  rw [show rangePkt.job = 0 by decide, show rangePkt.operand % 65536 = 1 by decide] at hwrites
  obtain ⟨t, hexec, ⟨hbytes, -⟩, hfind, -⟩ := hwrites (by decide) (by decide) (by decide)
  exact ⟨t, hexec, (hbytes 0).trans (by decide), hfind.trans (by decide)⟩

/-- A parent that holds the whole session sends its child the first range. -/
theorem mcastSend_sends :
    Answers (.mcastSend 0 1 0) (inSession (session 8 [{ acc := 0 }]) rangePkt) fun t =>
      ∃ y, findSession t 0 1 = some y ∧ y.children[0]? = some { acc := 0, sent := 8 } := by
  obtain ⟨-, -, hsend, -⟩ := sessionsDeliverAndLend
  obtain ⟨-, hsession⟩ := hsend (inSession (session 8 [{ acc := 0 }]) rangePkt) 0 1 0
  obtain ⟨-, hchild⟩ := hsession (session 8 [{ acc := 0 }]) (by decide)
  obtain ⟨-, hsends⟩ := hchild { acc := 0 } rfl
  have hnone : findTx (inSession (session 8 [{ acc := 0 }]) rangePkt) 0 0 0xFFD = none := by decide
  obtain ⟨t, hexec, -, y, hfind, hsent, -⟩ := hsends rfl (by decide)
    (fun u hu => by rw [hnone] at hu; cases hu) (by decide)
  exact ⟨t, hexec, y, hfind, hsent⟩

/-- A LOAN of the eight bytes. -/
def loanPkt : Pkt := arrivedPkt 8 0xFFD 1 ⟨12, 8 * 2 ^ 64⟩

/-- The device holds the range, and answers the loan. -/
theorem loan_answered :
    Answers (.loan 0) (inSession (session 8 []) loanPkt) fun t =>
      findSession t 0 1 = some (session 8 []) ∧ t.fab.loansServed = 1 := by
  obtain ⟨-, -, -, hloan, -⟩ := sessionsDeliverAndLend
  obtain ⟨s1, hdelivered⟩ := delivered_inSession (session 8 []) loanPkt (k := 8) (by decide) (by decide)
    (by decide)
  obtain ⟨-, hruns⟩ := hloan _ s1 0 _ (by decide) hdelivered
  obtain ⟨-, -, -, hsession⟩ := hruns (by decide)
  obtain ⟨-, hlends⟩ := hsession (session 8 []) (by decide) (by decide)
  rw [show loanPkt.job = 0 by decide, show loanPkt.operand % 65536 = 1 by decide] at hlends
  obtain ⟨t, hexec, hfind, hserved, -⟩ := hlends (by decide)
  exact ⟨t, hexec, hfind.trans (by decide), hserved.trans (by decide)⟩

/-- The device does not hold the range yet; the loan waits. -/
theorem loan_waits :
    Answers (.loan 0) (inSession (session 0 []) loanPkt) fun t =>
      findSession t 0 1 = some { session 0 [] with loans := [⟨0, 0, 8⟩] } ∧ t.fab.loansServed = 0 := by
  obtain ⟨-, -, -, hloan, -⟩ := sessionsDeliverAndLend
  obtain ⟨s1, hdelivered⟩ := delivered_inSession (session 0 []) loanPkt (k := 8) (by decide) (by decide)
    (by decide)
  obtain ⟨-, hruns⟩ := hloan _ s1 0 _ (by decide) hdelivered
  obtain ⟨-, -, -, hsession⟩ := hruns (by decide)
  obtain ⟨-, hlends⟩ := hsession (session 0 []) (by decide) (by decide)
  rw [show loanPkt.job = 0 by decide, show loanPkt.operand % 65536 = 1 by decide] at hlends
  obtain ⟨t, hexec, hfind, hserved, -⟩ := hlends (by decide)
  exact ⟨t, hexec, hfind.trans (by decide), hserved.trans (by decide)⟩

/-- Data of a loan are written like a range. -/
def loanDataPkt : Pkt := arrivedPkt 9 0xFFD 1 ⟨16, 0xAB * 2 ^ 64⟩

theorem loanData_written :
    Answers (.loanData 0) (inSession { session 0 [] with outstanding := [(0, 8)] } loanDataPkt) fun t =>
      t.mem.mem.read 0 = 0xAB ∧ t.fab.loansTaken = 1 := by
  obtain ⟨-, -, -, -, hdata, -⟩ := sessionsDeliverAndLend
  obtain ⟨s1, hdelivered⟩ := delivered_inSession { session 0 [] with outstanding := [(0, 8)] } loanDataPkt (k := 9)
    (by decide) (by decide) (by decide)
  obtain ⟨-, hruns⟩ := hdata _ s1 0 _ (by decide) hdelivered
  obtain ⟨-, hsession, -⟩ := hruns (by decide)
  obtain ⟨hwrites, -⟩ := hsession { session 0 [] with outstanding := [(0, 8)] } (by decide) (by decide)
  obtain ⟨t, hexec, ⟨hbytes, -⟩, htaken⟩ := hwrites (by decide) (by decide) (by decide)
  exact ⟨t, hexec, (hbytes 0).trans (by decide), htaken.trans (by decide)⟩

/-! ### Segments and exports (09 R379 to R384) -/

/-- A frame too short for an Ethernet header is dropped. -/
theorem ethFrame_dropped :
    exec (.ethFrame 0 Blob.empty {} false) (linked { mode := .ethernet, signal := true, st := .ethUp }) =
      .next ((countFec (linked { mode := .ethernet, signal := true, st := .ethUp }) 0 {}).modLinkCtr 0 fun k =>
        { k with ethDropped := k.ethDropped + 1 }) := by
  obtain ⟨hframe, -⟩ := segmentsAndExports
  obtain ⟨-, -, hup⟩ := hframe (linked { mode := .ethernet, signal := true, st := .ethUp }) 0 Blob.empty {} false
    (by decide)
  obtain ⟨-, hsound⟩ := hup (by decide)
  obtain ⟨hdrop, -⟩ := hsound rfl
  exact hdrop (by decide)

/-- A segment of a type for entry 0 of context 0, with SEQ and ACK. -/
def segmentOf (typ seq ack : Nat) (data : Blob) : Seg :=
  ⟨0, 0, 0, BitVec.ofNat 256 (segHeader typ 0 seq ack 0 data.len), data⟩

/-- The device has a segment. -/
def withSegment (x : Ctx) (g : Seg) : State := (jobState x).modFab fun f => { f with segs := [g] }

theorem segmentOpen_opens :
    Answers (.segmentOpen 0) (withSegment {} (segmentOf 0 5 0 Blob.empty)) fun t =>
      tget (t.ctx 0).sessions 0 = some ⟨5, 0, Blob.empty, 0⟩ := by
  obtain ⟨-, -, hopen, -⟩ := segmentsAndExports
  obtain ⟨t, hexec, -, hsessions⟩ := hopen (withSegment {} (segmentOf 0 5 0 Blob.empty)) 0 (segmentOf 0 5 0 Blob.empty)
    (by decide) (by decide)
  exact ⟨t, hexec, (congrArg (tget · 0) hsessions).trans (by decide)⟩

/-- A session that expects byte 5. -/
def expectsFive : Ctx := { sessions := [(0, ⟨5, 0, Blob.empty, 0⟩)] }

theorem segmentData_joins :
    Answers (.segmentData 0) (withSegment expectsFive (segmentOf 1 5 0 ⟨1, 0xAB⟩)) fun t =>
      tget (t.ctx 0).sessions 0 = some ⟨6, 0, ⟨1, 0xAB⟩, 1⟩ := by
  obtain ⟨-, -, -, hdata, -⟩ := segmentsAndExports
  obtain ⟨-, hsession⟩ := hdata (withSegment expectsFive (segmentOf 1 5 0 ⟨1, 0xAB⟩)) 0 (segmentOf 1 5 0 ⟨1, 0xAB⟩)
    (by decide) (by decide)
  obtain ⟨-, hplain⟩ := hsession ⟨5, 0, Blob.empty, 0⟩ (by decide)
  obtain ⟨-, haccepts⟩ := hplain ⟨1, 0xAB⟩ (by decide)
  obtain ⟨t, hexec, hsessions, -⟩ := haccepts (by decide) (by decide)
  exact ⟨t, hexec, (congrArg (tget · 0) hsessions).trans (by decide)⟩

/-- A segment that is not the next is discarded. -/
theorem segmentData_gap :
    Answers (.segmentData 0) (withSegment expectsFive (segmentOf 1 6 0 ⟨1, 0xAB⟩)) fun t =>
      (t.ctx 0).sessions = expectsFive.sessions ∧ (t.link 0).ctr.outOfOrder = 1 := by
  obtain ⟨-, -, -, hdata, -⟩ := segmentsAndExports
  obtain ⟨-, hsession⟩ := hdata (withSegment expectsFive (segmentOf 1 6 0 ⟨1, 0xAB⟩)) 0 (segmentOf 1 6 0 ⟨1, 0xAB⟩)
    (by decide) (by decide)
  obtain ⟨-, hplain⟩ := hsession ⟨5, 0, Blob.empty, 0⟩ (by decide)
  obtain ⟨hdiscards, -⟩ := hplain ⟨1, 0xAB⟩ (by decide)
  obtain ⟨t, hexec, hsessions, -, hcount⟩ := hdiscards (.inl (by decide))
  exact ⟨t, hexec, hsessions, hcount.trans (by decide)⟩

/-- Four bytes are exported, and all sent. -/
def exportedFour : ExportRun := ⟨0, 0, ⟨4, 0⟩, 0, 4⟩

theorem exportAck_ends :
    Answers (.exportAck 0) (withSegment { exporting := some exportedFour } (segmentOf 5 0 4 Blob.empty)) fun t =>
      (t.ctx 0).exporting = none ∧ (t.ctx 0).led.exports = 1 := by
  obtain ⟨-, -, -, -, -, -, hack, -⟩ := segmentsAndExports
  obtain ⟨-, hrun⟩ := hack (withSegment { exporting := some exportedFour } (segmentOf 5 0 4 Blob.empty)) 0
    (segmentOf 5 0 4 Blob.empty) (by decide) (by decide)
  obtain ⟨-, -, hlast⟩ := hrun exportedFour rfl (by decide)
  obtain ⟨t, hexec, hended, hcount⟩ := hlast (by decide) (by decide)
  exact ⟨t, hexec, hended, hcount.trans (by decide)⟩

theorem exportResend_repeats :
    Answers (.exportResend 0) (jobState { exporting := some exportedFour }) fun t =>
      (t.ctx 0).exporting = some exportedFour := by
  obtain ⟨-, -, -, -, -, -, -, hresend⟩ := segmentsAndExports
  obtain ⟨-, hrun⟩ := hresend (jobState { exporting := some exportedFour }) 0 (by decide)
  obtain ⟨t, hexec, -, hsame⟩ := hrun exportedFour rfl
  exact ⟨t, hexec, hsame (by decide) (by decide)⟩

end Sys2Proof.Laws.DestinationExamples
end

section
/-!
PROOF. The creation of a context and its checks (O44).
-/

-- One declaration after another: side by side they need more threads than the memory of the check leaves room for.
set_option Elab.async false

-- The definitions of this section serve its proofs alone: they are noncomputable, since code made for them would only
-- take room.

open Sys2Proof Sys2Proof.Machine Sys2Proof.Claims Sys2Proof.Laws

namespace Sys2Proof.Laws.ContextCreation

open Sys2Proof.Laws.Creation

/-- A command that ends in a state, as a rule of the model gives it, answers what holds of that state. -/
theorem answered {i : Instr} {s u t : State} {P : State → Prop} (hexec : exec i s = .next u) (heq : u = t) (h : P t) :
    Answers i s P := ⟨t, hexec.trans (congrArg _ heq), h⟩

theorem exec_create {q : Nat} (hq : q < 16) (s : State) (seq : BitVec 32) :
    exec (.create q seq) s = .next (create s q seq) :=
  withUnit_of (by simp [hq])

/-! ### The checks of CREATE in their order (11 R443) -/

/-- The job that a CREATE names. -/
noncomputable def jobOf (x : Taken) : BitVec 32 := BitVec.ofNat 32 (x.arg 0)

/-- The shelves that a CREATE asks for. -/
noncomputable def maskOf (x : Taken) : BitVec 12 := BitVec.ofNat 12 (x.arg 0 / 2 ^ 32)

/-- A CREATE runs on in a slot that it has made CREATING. -/
def GoesOn (s : State) (x : Taken) : Prop := x.running = true ∧ (s.ctx x.ctx).st = .creating

/-- A context of a job is there already. -/
noncomputable def jobPresent (s : State) (job : BitVec 32) : Bool :=
  (List.range nCtx).any fun d => (s.ctx d).st ≠ .free && (s.ctx d).job = job

/-- A shelf asked for has an owner. -/
noncomputable def shelfBusy (s : State) (mask : BitVec 12) : Bool :=
  (shelvesOf mask).any fun sh => (shelfOwner s sh).isSome

/-- Every shelf asked for is awake. -/
noncomputable def shelvesAwake (s : State) (mask : BitVec 12) : Bool := (shelvesOf mask).all fun sh => shelfAwake s sh

/-- What checks 1 to 4 say of a CREATE; one that goes on has passed them. -/
noncomputable def checked (s : State) (x : Taken) : Option RefName :=
  if x.running && (s.ctx x.ctx).st = .creating then none else createRefusal s x.ctx (jobOf x) (maskOf x)

/-- A slot that has passed its checks. -/
noncomputable def slotMade (s : State) (x : Taken) (v : Volume) : State :=
  newContext (startSlip s x) x.ctx (jobOf x) (maskOf x) v

/-- The slot of a rank knows the catalogue entry of its image. -/
noncomputable def ranked (s : State) (x : Taken) (v : Volume) (y : Ctx) : Ctx :=
  { y with entry := entryOf s (jobOf x) (v.imageOf y.rank.toNat) }

/-- The slot of the rank that names the device. -/
noncomputable def rankSlot (s : State) (x : Taken) (v : Volume) : State := (slotMade s x v).modCtx x.ctx (ranked s x v)

/-- A context stands by. -/
noncomputable def stoodBy (y : Ctx) : Ctx := { y with st := .standby, led := { y.led with st := .standby } }

/-- The slot is made, unless the plan of the volume fails a check, and its context built where a rank names the
device. -/
noncomputable def placed (s : State) (x : Taken) (v : Volume) : Option RefName → State
  | some n => refuse (startSlip s x) x n
  | none =>
    if ((slotMade s x v).ctx x.ctx).standby then endWith ((slotMade s x v).modCtx x.ctx stoodBy) x (.done 0x4000 0 0)
    else continueCreate (rankSlot s x v) x.ctx x v

/-- A CREATE that has passed checks 1 to 4 wakes its shelves, or places its slot. -/
noncomputable def passed (s : State) (x : Taken) (v : Volume) : State :=
  if (shelvesOf (maskOf x)).any fun sh => !shelfAwake s sh then (shelvesOf (maskOf x)).foldl wakeShelf (startSlip s x)
  else placed s x v (planRefusal s v (maskOf x))

/-- A CREATE after checks 1 to 4, with the volume of its job. -/
noncomputable def decided (s : State) (x : Taken) : Option RefName → Option Volume → State
  | some n, _ => refuse s x n
  | none, none => refuse s x .notResident
  | none, some v =>
    if (s.ctx x.ctx).st = .creating then continueCreate (startSlip s x) x.ctx x v else passed s x v

/-- A CREATE of the slip that is ready, if any. -/
noncomputable def created (s : State) : Option Taken → State
  | none => s
  | some x => decided s x (checked s x) (volumeOf s (jobOf x))

theorem create_eq (s : State) (q : Nat) (seq : BitVec 32) : create s q seq = created s (slipReady s q seq 3) := rfl

section
variable {s : State} {x : Taken}

theorem checked_goesOn (hgoes : GoesOn s x) : checked s x = none := if_pos (by simpa [GoesOn] using hgoes)

theorem checked_new (hnew : ¬ GoesOn s x) : checked s x = createRefusal s x.ctx (jobOf x) (maskOf x) :=
  if_neg (by simpa [GoesOn] using hnew)

/-- The refusal of a CREATE for a free slot whose job has a volume. -/
noncomputable def freeRefusal (present busy : Bool) : Option RefName :=
  if present then some .jobPresent else if busy then some .shelfBusy else none

theorem checked_absent (hvolume : volumeOf s (jobOf x) = none) (hst : (s.ctx x.ctx).st = .free) :
    checked s x = some .notResident :=
  (checked_new fun h => CtxSt.noConfusion (hst.symm.trans h.2)).trans
    ((if_neg (not_not.2 hst)).trans (if_pos (congrArg Option.isNone hvolume)))

theorem checked_free {v : Volume} {present busy : Bool} (hvolume : volumeOf s (jobOf x) = some v)
    (hst : (s.ctx x.ctx).st = .free) (hjobs : jobPresent s (jobOf x) = present)
    (hbusy : shelfBusy s (maskOf x) = busy) :
    checked s x = freeRefusal present busy := by
  refine (checked_new fun h => CtxSt.noConfusion (hst.symm.trans h.2)).trans ((if_neg (not_not.2 hst)).trans
    ((if_neg (Bool.eq_false_iff.1 (congrArg Option.isNone hvolume))).trans ?_))
  exact hjobs ▸ hbusy ▸ rfl

end

/-! ### A slip and its slot -/

/-- The slip of a CREATE ends; the contexts and memory stay. -/
def EndsAlone (s : State) (x : Taken) (r : SlipResult) (t : State) : Prop :=
  Ended t x.number r ∧ t.ctxs = s.ctxs ∧ t.mem = s.mem

/-- A slip runs: it has been started and has no result. -/
def Running (x : Taken) (t : State) : Prop :=
  ∃ u ∈ t.host.taken, u.number = x.number ∧ u.running = true ∧ u.result = none

/-- The rank table of a volume. -/
noncomputable def tableOf (v : Volume) : List Nat :=
  (List.range ((v.jobWide 6).len / 2)).map fun r => (v.jobWide 6).bits (16 * r) 16

/-- A new slot: CREATING for the job on the shelves asked for, under the rank that names the device. -/
noncomputable def newSlot (s : State) (x : Taken) (v : Volume) (y : Ctx) : Ctx :=
  { st := .creating, mask := maskOf x, job := jobOf x, lastEvent := y.lastEvent, teardowns := y.teardowns
    rank := BitVec.ofNat 14 (((tableOf v).findIdx? (· = s.fab.acc)).getD 0)
    standby := !(tableOf v).contains s.fab.acc
    faults := if y.job = jobOf x then y.faults else 0, fault := if y.job = jobOf x then y.fault else none
    plan := v.jobWide 5, loader := v.jobWide 7, options := v.jobWide 4
    led := { ranks := tableOf v, queues := v.queuesOf (((tableOf v).findIdx? (· = s.fab.acc)).getD 0) } }

theorem ctx_slotMade (s : State) (x : Taken) (v : Volume) :
    (slotMade s x v).ctx x.ctx = newSlot s x v ((startSlip s x).ctx x.ctx) :=
  ctx_modCtx_self (startSlip s x) x.ctx (newSlot s x v)

theorem other_slotMade (s : State) (x : Taken) (v : Volume) {d : Nat} (hd : d ≠ x.ctx) :
    (slotMade s x v).ctx d = s.ctx d := ctx_modCtx_other (startSlip s x) x.ctx d (newSlot s x v) hd

/-! ### The context is built (11 R443, R445) -/

/-- The granules of the memory plan of a rank. -/
noncomputable def granulesOf (v : Volume) (rank : Nat) : List Nat := planGranules (v.memPlan rank)

/-- The context has the granules of its rank's memory plan, under a new key. -/
noncomputable def granulesGiven (s : State) (c : Nat) (v : Volume) (rank : Nat) : State :=
  freshKey (assignGranules s c (granulesOf v rank)) (.ctxMem c)

/-- The data of the rank's image. -/
noncomputable def dataOf (v : Volume) (rank : Nat) : List Section := dataSections v (v.imageOf rank) false

/-- The data of the rank's image are in place. -/
noncomputable def dataWritten (s : State) (c : Nat) (v : Volume) (rank : Nat) : State :=
  (dataOf v rank).foldl (fun s d => writeData s d.addr d.data) (granulesGiven s c v rank)

/-- Some granule of the plan can never be the context's. -/
noncomputable def planTaken (s : State) (v : Volume) (rank : Nat) : Bool := (granulesOf v rank).any (granuleTaken s)

/-- Some granule of the plan awaits its fill. -/
noncomputable def planAwaits (s : State) (v : Volume) (rank : Nat) : Bool :=
  (granulesOf v rank).any fun n => !(s.granule n).scrubbed

/-- Some data reach past the memory that the context owns. -/
noncomputable def dataOutside (s : State) (c : Nat) (v : Volume) (rank : Nat) : Bool :=
  (dataOf v rank).any fun d => !dataOwned (granulesGiven s c v rank) c d.addr d.data.len

/-- A slot whose context is built reserves its ledger. -/
noncomputable def reserved (s : State) (x : Taken) (v : Volume) (rank : BitVec 14) : State :=
  reserveEnd (dataWritten s x.ctx v rank.toNat) x.ctx x rank
    (reserveLedger (choosePartners (dataWritten s x.ctx v rank.toNat) x.ctx) x.ctx)

/-- A slot is given up, and its slip refused. -/
noncomputable def givenUp (s : State) (x : Taken) (n : RefName) : State := refuse (abandonCreate s x.ctx) x n

/-- A slot is built: its plan has a granule that is taken, or one that awaits its fill, or its data reach outside. -/
noncomputable def builtBy (s : State) (x : Taken) (v : Volume) (rank : BitVec 14) : Bool → Bool → Bool → State
  | true, _, _ => givenUp s x .contextMemory
  | false, true, _ => s
  | false, false, true => givenUp s x .contextMemory
  | false, false, false => reserved s x v rank

theorem builtBy_congr {s : State} {x : Taken} {v : Volume} {rank : BitVec 14} {a a' b b' d d' : Bool} (ha : a = a')
    (hb : b = b') (hd : d = d') : builtBy s x v rank a b d = builtBy s x v rank a' b' d' := by
  rw [ha, hb, hd]

theorem continue_eq (s : State) (x : Taken) (v : Volume) : continueCreate s x.ctx x v =
    builtBy s x v (s.ctx x.ctx).rank (planTaken s v (s.ctx x.ctx).rank.toNat) (planAwaits s v (s.ctx x.ctx).rank.toNat)
      (dataOutside s x.ctx v (s.ctx x.ctx).rank.toNat) := by
  unfold continueCreate
  show (match (if planTaken s v _ = true then some (.error .contextMemory) else if planAwaits s v _ = true then none
    else if dataOutside s x.ctx v _ = true then some (.error .contextMemory)
    else some (.ok (dataWritten s x.ctx v _)) : Option (Except RefName State)) with
    | none => s | some (.error n) => _ | some (.ok s1) => _) = _
  cases planTaken s v _ <;> cases planAwaits s v _ <;> cases dataOutside s x.ctx v _ <;> rfl

/-- A slot is given up: the slip is refused, the slot is free, and its key is gone. -/
def Gone (x : Taken) (n : RefName) (t : State) : Prop :=
  Ended t x.number (.refused n) ∧ (t.ctx x.ctx).st = .free ∧ (t.ctx x.ctx).mask = 0 ∧ KeyGone (.ctxMem x.ctx) t

/-- The granules of a plan that were none of the ledger's are assigned to nobody. -/
def Released (s : State) (gs : List Nat) (t : State) : Prop :=
  ∀ n ∈ gs, (s.granule n).ledger = false → (t.granule n).assigned = false

/-- The context of a slip is IDLE, and has the granules of its plan. -/
def Idle (x : Taken) (rank : BitVec 14) (gs : List Nat) (s3 t : State) : Prop :=
  Ended t x.number (.done (rank.setWidth 64) 0 0) ∧ (t.ctx x.ctx).st = .idle ∧ t.mem = s3.mem ∧
    ∀ n ∈ gs, GO x.ctx n t

/-- A slip that has been started, and its number and result. -/
def Started (u : State) (x : Taken) : Prop := ∃ y ∈ u.host.taken, y.number = x.number ∧ y.result = none

theorem ended_of_started {u v : State} {x : Taken} (h : Started u x) (hhost : v.host = u.host) (r : SlipResult) :
    Ended (endWith v x r) x.number r := by
  obtain ⟨_, hmem, hnumber, hresult⟩ := h
  exact ended' (hhost ▸ hmem) hnumber hresult r

theorem gone_givenUp {u : State} {x : Taken} (h : Started u x) (n : RefName) : Gone x n (givenUp u x n) := by
  obtain ⟨hst, hmask, hkey, hhost, -⟩ := abandon_facts u x.ctx
  exact ⟨ended_of_started h hhost _, hst, hmask, hkey⟩

theorem granule_givenUp (u : State) (x : Taken) (r : RefName) (n : Nat) :
    (givenUp u x r).granule n = (releaseGranules u x.ctx).granule n := by
  obtain ⟨-, -, -, -, hgranules⟩ := abandon_facts u x.ctx
  exact congrArg (tgetD · n Granule.reset) hgranules

section
variable {s : State} {x : Taken} {v : Volume} {rank : Nat} (hfree : planTaken s v rank = false)

theorem host_dataWritten (s : State) (c : Nat) (v : Volume) (rank : Nat) : (dataWritten s c v rank).host = s.host :=
  (writes_host _ _).trans
    (((touches_freshKey _ _).2 .host (by decide)).trans ((touches_assignGranules _ _ _).2 .host (by decide)))

theorem started_dataWritten {c : Nat} (h : Started s x) : Started (dataWritten s c v rank) x := by
  unfold Started
  rwa [host_dataWritten]

theorem own_dataWritten (s : State) (c : Nat) {n : Nat} (hn : n ∈ granulesOf v rank) :
    Own c n (s.granule n) (dataWritten s c v rank) :=
  own_of ((writes_granules _ _).trans ((touches_freshKey _ _).2 .granules (by decide)))
    (own_fold c n _ _ s (.inr ⟨rfl, hn⟩))

include hfree

/-- The granules of a plan that is free. -/
theorem plan_free {n : Nat} (hn : n ∈ granulesOf v rank) : (s.granule n).assigned = false ∧
    ((s.granule n).lost || (s.granule n).system || (s.granule n).retain) = false := by
  have hbits : ∀ d a l y r : Bool, ¬ (d || a || l || y || r) = true → a = false ∧ (l || y || r) = false := by decide
  exact hbits _ _ _ _ _ (List.any_eq_false.1 hfree n hn)

/-- Granules that were free stay so when a slot that has none of them is given up. -/
theorem released_before (n : RefName) : Released s (granulesOf v rank) (givenUp s x n) := fun g hg _ =>
  (congrArg _ (granule_givenUp s x n g)).trans (unassigned_fold g _ s (plan_free hfree hg).1)

/-- The granules of the plan are released again where the ledger finds no room. -/
theorem released_after (n : RefName) :
    Released s (granulesOf v rank) (givenUp (dataWritten s x.ctx v rank) x n) := fun g hg hledger =>
  (congrArg _ (granule_givenUp _ x n g)).trans
    (own_released (Nat.mod_lt _ (by decide)) (own_dataWritten s x.ctx hg) hledger (plan_free hfree hg).2).1

end

/-- The ledger has its granules: the context is IDLE, and its slip ends with the rank. -/
theorem idle_reserveEnd {s u : State} {x : Taken} {rank : BitVec 14} {gs : List Nat} (hstarted : Started u x)
    (hgranules : ∀ n ∈ gs, GO x.ctx n u) : Idle x rank gs u (reserveEnd s x.ctx x rank (some u)) := by
  have hkept {α : Type} (g : State → α) (h : ∀ s sh, g (rebindShelf s sh) = g s) (w : State) :
      g ((shelvesOf (u.ctx x.ctx).mask).foldl rebindShelf w) = g w := fold_same h _ _
  have hmem := hkept State.mem fun s sh => mem_of (touches_rebindShelf s sh) (by decide) (by decide) (by decide)
  have hctx := hkept (fun w => w.ctx x.ctx) fun s sh => ctx_of ((touches_rebindShelf s sh).2 .ctxs (by decide)) x.ctx
  have hhost := hkept State.host fun s sh => (touches_rebindShelf s sh).2 .host (by decide)
  exact ⟨ended_of_started hstarted (hhost (u.modCtx x.ctx _)) _,
      congrArg Ctx.st ((hctx _).trans (ctx_modCtx_self _ _ _)), hmem _,
    fun n hn => go_of (congrArg MemSys.granules (hmem _)) (hgranules n hn)⟩

/-- What a CREATE answers once its slot is CREATING (11 R443), as O44 says it of the state in which it has become so. -/
def Built (i : Instr) (s : State) (x : Taken) (v : Volume) (s0 : State) (rank : BitVec 14) : Prop :=
  let gs := granulesOf v rank.toNat
  let taken := planTaken s0 v rank.toNat
  let awaits := planAwaits s0 v rank.toNat
  let outside := dataOutside s0 x.ctx v rank.toNat
  let s2 := choosePartners (dataWritten s0 x.ctx v rank.toNat) x.ctx
  let gone (n : RefName) : Prop := Answers i s (Gone x n)
  (taken = true → gone .contextMemory) ∧
  (taken = false → awaits = true → Answers i s fun t => Running x t ∧ (t.ctx x.ctx).st = .creating ∧ t.mem = s0.mem) ∧
  (taken = false → awaits = false → outside = true → gone .contextMemory ∧ Answers i s (Released s0 gs)) ∧
  (taken = false → awaits = false → outside = false → reserveLedger s2 x.ctx = none → gone .ledgerSpace ∧
    Answers i s (Released s0 gs)) ∧
  (taken = false → awaits = false → outside = false → ∀ s3, reserveLedger s2 x.ctx = some s3 →
    Answers i s (Idle x rank gs s3))

theorem reserved_none {s : State} {x : Taken} {v : Volume} {rank : BitVec 14}
    (hledger : reserveLedger (choosePartners (dataWritten s x.ctx v rank.toNat) x.ctx) x.ctx = none) :
    reserved s x v rank = givenUp (dataWritten s x.ctx v rank.toNat) x .ledgerSpace :=
  congrArg (reserveEnd _ x.ctx x rank) hledger

theorem idle_reserved {s s3 : State} {x : Taken} {v : Volume} {rank : BitVec 14} (hstarted : Started s x)
    (hledger : reserveLedger (choosePartners (dataWritten s x.ctx v rank.toNat) x.ctx) x.ctx = some s3) :
    Idle x rank (granulesOf v rank.toNat) s3 (reserved s x v rank) := by
  obtain ⟨y, hmem, hslip⟩ := hstarted
  have hhost : s3.host = s.host := ((touches_reserveLedger hledger).2 .host (by decide)).trans
    (((touches_choosePartners _ _).2 .host (by decide)).trans (host_dataWritten _ _ _ _))
  unfold reserved
  rw [hledger]
  refine idle_reserveEnd ⟨y, hhost ▸ hmem, hslip⟩ fun n hn =>
    go_reserve hledger (go_of ((touches_choosePartners _ _).2 .granules (by decide)) ?_)
  have hown := own_dataWritten s x.ctx hn
  exact ⟨congrArg Granule.assigned hown, congrArg Granule.context hown⟩

/-- The context of a slot that is CREATING is built, waits for a fill, or is given up. -/
theorem built_of_running {i : Instr} {s s0 : State} {x : Taken} {v : Volume} {rank : BitVec 14}
    (hexec : exec i s = .next (continueCreate s0 x.ctx x v)) (hrank : (s0.ctx x.ctx).rank = rank)
    (hrunning : Running x s0) (hst : (s0.ctx x.ctx).st = .creating) : Built i s x v s0 rank := by
  subst hrank
  have hstarted : Started s0 x := hrunning.imp fun _ h => ⟨h.1, h.2.1, h.2.2.2⟩
  unfold Built
  intro gs taken awaits outside s2 gone
  have hends {a b d : Bool} (ha : taken = a) (hb : awaits = b) (hd : outside = d) := hexec.trans (congrArg _
    ((continue_eq s0 x v).trans (builtBy_congr ha hb hd)))
  refine ⟨fun htaken => nxt (hends htaken rfl rfl) (gone_givenUp hstarted _),
    fun hfree hawaits => nxt (hends hfree hawaits rfl) ⟨hrunning, hst, rfl⟩,
    fun hfree hfilled houtside => ?_, fun hfree hfilled hinside hnone => ?_,
    fun hfree hfilled hinside s3 hs3 => nxt (hends hfree hfilled hinside) (idle_reserved hstarted hs3)⟩
  · have hgone := hends hfree hfilled houtside
    exact ⟨nxt hgone (gone_givenUp hstarted _), nxt hgone (released_before hfree _)⟩
  · have hgone := (hends hfree hfilled hinside).trans (congrArg _ (reserved_none hnone))
    exact ⟨nxt hgone (gone_givenUp (started_dataWritten hstarted) _), nxt hgone (released_after hfree _)⟩

/-! ### What a CREATE of a ready slip answers -/

theorem endsAlone {s u : State} {x : Taken} (h : Started u x) (hctxs : u.ctxs = s.ctxs) (hmem : u.mem = s.mem)
    (r : SlipResult) : EndsAlone s x r (endWith u x r) := ⟨ended_of_started h rfl r, hctxs, hmem⟩

section
variable {s : State} {x : Taken} {v : Volume}

theorem decided_congr {o p : Option RefName} {w u : Option Volume} (ho : o = p) (hw : w = u) :
    decided s x o w = decided s x p u := by rw [ho, hw]

theorem decided_free (hst : (s.ctx x.ctx).st = .free) : decided s x none (some v) = passed s x v :=
  if_neg fun h => CtxSt.noConfusion (hst.symm.trans h)

/-- The slip of a CREATE waits for its shelves to wake. -/
def Wakes (s : State) (x : Taken) (t : State) : Prop :=
  t = (shelvesOf (maskOf x)).foldl wakeShelf (startSlip s x) ∧ Running x t ∧ t.ctxs = s.ctxs ∧ t.mem = s.mem

theorem wakes_facts (h : Running x (startSlip s x)) (shs : List Nat) (hshs : shs = shelvesOf (maskOf x)) :
    Wakes s x (shs.foldl wakeShelf (startSlip s x)) := by
  have hkeep {α : Type} (g : State → α) (h : ∀ s sh, g (wakeShelf s sh) = g s) :
      g (shs.foldl wakeShelf (startSlip s x)) = g (startSlip s x) := fold_same h _ _
  refine ⟨hshs ▸ rfl, ?_, hkeep State.ctxs fun s sh => (touches_wakeShelf s sh).2 .ctxs (by decide),
    hkeep State.mem fun s sh => mem_of (touches_wakeShelf s sh) (by decide) (by decide) (by decide)⟩
  unfold Running
  rwa [hkeep State.host fun s sh => (touches_wakeShelf s sh).2 .host (by decide)]

theorem passed_wakes (hasleep : shelvesAwake s (maskOf x) = false) :
    passed s x v = (shelvesOf (maskOf x)).foldl wakeShelf (startSlip s x) :=
  if_pos ((nawake _ _).trans (congrArg (! ·) hasleep))

theorem passed_places {o : Option RefName} (hawake : shelvesAwake s (maskOf x) = true)
    (hplan : planRefusal s v (maskOf x) = o) : passed s x v = placed s x v o :=
  (if_neg (Bool.eq_false_iff.1 ((nawake _ _).trans (congrArg (! ·) hawake)))).trans (congrArg (placed s x v) hplan)

theorem named_of_findIdx {table : List Nat} {a r : Nat} (h : table.findIdx? (· = a) = some r) :
    table.contains a = true := by
  obtain ⟨hlt, hr, -⟩ := List.findIdx?_eq_some_iff_getElem.1 h
  exact List.contains_iff_mem.2 (of_decide_eq_true hr ▸ List.getElem_mem hlt)

/-- A device that no rank names stands by. -/
def StandsBy (s : State) (x : Taken) (t : State) : Prop :=
  Ended t x.number (.done 0x4000 0 0) ∧ (t.ctx x.ctx).st = .standby ∧ (t.ctx x.ctx).led.st = .standby ∧
    (t.ctx x.ctx).job = jobOf x ∧ (t.ctx x.ctx).mask = maskOf x ∧ t.mem = s.mem ∧ ∀ d, d ≠ x.ctx → t.ctx d = s.ctx d

theorem placed_standsBy (hstarted : Started (startSlip s x) x) (hunnamed : s.fab.acc ∉ tableOf v) :
    StandsBy s x (placed s x v none) := by
  have hstandby : ((slotMade s x v).ctx x.ctx).standby = true := (congrArg Ctx.standby (ctx_slotMade s x v)).trans
    (congrArg (! ·) (Bool.eq_false_iff.2 (mt List.contains_iff_mem.1 hunnamed)))
  have hctx := (ctx_modCtx_self (slotMade s x v) x.ctx stoodBy).trans (congrArg stoodBy (ctx_slotMade s x v))
  rw [show placed s x v none = _ from if_pos hstandby]
  exact ⟨ended_of_started hstarted rfl _, congrArg Ctx.st hctx, congrArg (fun y => y.led.st) hctx,
    congrArg Ctx.job hctx, congrArg Ctx.mask hctx, rfl, fun d hd =>
      (ctx_modCtx_other _ _ _ _ hd).trans (other_slotMade s x v hd)⟩

theorem ctx_rankSlot (s : State) (x : Taken) (v : Volume) :
    (rankSlot s x v).ctx x.ctx = ranked s x v (newSlot s x v ((startSlip s x).ctx x.ctx)) :=
  (ctx_modCtx_self _ _ _).trans (congrArg (ranked s x v) (ctx_slotMade s x v))

variable {r : Nat} (hnamed : (tableOf v).findIdx? (· = s.fab.acc) = some r)
include hnamed

/-- A slot made for the rank that names the device. -/
theorem rank_rankSlot : ((rankSlot s x v).ctx x.ctx).rank = BitVec.ofNat 14 r :=
  (congrArg Ctx.rank (ctx_rankSlot s x v)).trans (congrArg (fun o : Option Nat => BitVec.ofNat 14 (o.getD 0)) hnamed)

theorem placed_ranked : placed s x v none = continueCreate (rankSlot s x v) x.ctx x v :=
  if_neg (Bool.eq_false_iff.1 ((congrArg Ctx.standby (ctx_slotMade s x v)).trans
    (congrArg (! ·) (named_of_findIdx hnamed))))

end

section
variable {s : State} {q : Nat} {seq : BitVec 32} {x : Taken} (hq : q < 16) (hruns : Runs s q seq 3 x)
include hruns

theorem started_ready : Started s x :=
  have hready := ready_facts hruns.1
  ⟨x, hready.1, rfl, hready.2⟩

theorem running_start : Running x (startSlip s x) :=
  have hready := ready_facts hruns.1
  ⟨_, startSlip_mem hready.1, rfl, rfl, hready.2⟩

theorem started_start : Started (startSlip s x) x := (running_start hruns).imp fun _ h => ⟨h.1, h.2.1, h.2.2.2⟩

theorem refused_ends (n : RefName) : EndsAlone s x (.refused n) (refuse s x n) :=
  endsAlone (started_ready hruns) rfl rfl _

theorem ranked_built {i : Instr} {v : Volume} {r : Nat} (hexec : exec i s = .next (placed s x v none))
    (hnamed : (tableOf v).findIdx? (· = s.fab.acc) = some r) :
    ((rankSlot s x v).ctx x.ctx).st = .creating ∧ ((rankSlot s x v).ctx x.ctx).job = jobOf x ∧
      ((rankSlot s x v).ctx x.ctx).mask = maskOf x ∧ ((rankSlot s x v).ctx x.ctx).led.ranks = tableOf v ∧
      Built i s x v (rankSlot s x v) (BitVec.ofNat 14 r) := by
  have hctx := ctx_rankSlot s x v
  exact ⟨congrArg Ctx.st hctx, congrArg Ctx.job hctx, congrArg Ctx.mask hctx, congrArg (fun y => y.led.ranks) hctx,
    built_of_running (hexec.trans (congrArg _ (placed_ranked hnamed))) (rank_rankSlot hnamed) (running_start hruns)
      (congrArg Ctx.st hctx)⟩

include hq

theorem create_at {o : Option RefName} {w : Option Volume} (ho : checked s x = o) (hw : volumeOf s (jobOf x) = w) :
    exec (.create q seq) s = .next (decided s x o w) :=
  (exec_create hq s seq).trans (congrArg _ ((congrArg (created s) hruns.1).trans (decided_congr ho hw)))

theorem create_absent (hslot : GoesOn s x ∨ (s.ctx x.ctx).st = .free) (hvolume : volumeOf s (jobOf x) = none) :
    exec (.create q seq) s = .next (refuse s x .notResident) :=
  hslot.elim (fun hgoes => create_at hq hruns (checked_goesOn hgoes) hvolume)
    (fun hst => create_at hq hruns (checked_absent hvolume hst) rfl)

variable {v : Volume} (hvolume : volumeOf s (jobOf x) = some v) (hst : (s.ctx x.ctx).st = .free)
include hvolume hst

theorem create_free {present busy : Bool} (hjobs : jobPresent s (jobOf x) = present)
    (hbusy : shelfBusy s (maskOf x) = busy) :
    exec (.create q seq) s = .next (decided s x (freeRefusal present busy) (some v)) :=
  create_at hq hruns (checked_free hvolume hst hjobs hbusy) hvolume

variable (hjobs : jobPresent s (jobOf x) = false) (hbusy : shelfBusy s (maskOf x) = false)
include hjobs hbusy

theorem create_passes : exec (.create q seq) s = .next (passed s x v) :=
  (create_free hq hruns hvolume hst hjobs hbusy).trans (congrArg _ (decided_free hst))

theorem create_places {o : Option RefName} (hawake : shelvesAwake s (maskOf x) = true)
    (hplan : planRefusal s v (maskOf x) = o) : exec (.create q seq) s = .next (placed s x v o) :=
  (create_passes hq hruns hvolume hst hjobs hbusy).trans (congrArg _ (passed_places hawake hplan))

end

end Sys2Proof.Laws.ContextCreation

namespace Sys2Proof.Claims

open Sys2Proof.Laws Sys2Proof.Laws.Creation Sys2Proof.Laws.ContextCreation in
/-- Settles O44. A CREATE goes through its checks in their order (`create_eq`); a slot that it makes, or that it made
before, is built as `built_of_running` says. -/
theorem contextsAreCreated : Obligations.ContextsAreCreated := by
  unfold Obligations.ContextsAreCreated
  refine ⟨fun s q seq hq hnone => (exec_create hq s seq).trans (congrArg _ (congrArg (created s) hnone)), ?_⟩
  intro s q seq x hq hruns c job mask refused goesOn running jobs busy awake
  refine ⟨fun hnew hst => nxt (create_at hq hruns ((checked_new hnew).trans (if_pos hst)) rfl) (refused_ends hruns _),
    fun hslot hvolume => nxt (create_absent hq hruns hslot hvolume) (refused_ends hruns _), fun v hvolume => ?_⟩
  intro table built
  refine ⟨fun hst hjobs => nxt (create_free hq hruns hvolume hst hjobs rfl) (refused_ends hruns _),
    fun hst hjobs hbusy => nxt (create_free hq hruns hvolume hst hjobs hbusy) (refused_ends hruns _),
    fun hst hjobs hbusy hasleep => nxt ((create_passes hq hruns hvolume hst hjobs hbusy).trans
      (congrArg _ (passed_wakes hasleep))) (wakes_facts (running_start hruns) _ rfl),
    fun hst hjobs hbusy hawake n hplan => nxt (create_places hq hruns hvolume hst hjobs hbusy hawake hplan)
      (endsAlone (started_start hruns) rfl rfl _),
    fun hst hjobs hbusy hawake hplan hunnamed => nxt (create_places hq hruns hvolume hst hjobs hbusy hawake hplan)
      (placed_standsBy (started_start hruns) hunnamed),
    fun hst hjobs hbusy hawake hplan r hnamed => ranked_built hruns
      (create_places hq hruns hvolume hst hjobs hbusy hawake hplan) hnamed,
    fun hgoes => built_of_running ((create_at hq hruns (checked_goesOn hgoes) hvolume).trans
      (congrArg _ (if_pos hgoes.2))) rfl (running_start hruns) hgoes.2⟩

end Sys2Proof.Claims
end

section
/-!
PROOF. The commit commands (O37): COMMIT_START, SNAPSHOT_DONE, PARITY_COMPUTE, COPY_OBJECT, COMMIT_RECORD_WRITE,
COMMIT_LEAF, SEALED and COMMIT_FAILED.
-/

-- One declaration after another: side by side they need more threads than the memory of the check leaves room for.
set_option Elab.async false

-- The definitions of this section serve its proofs alone: they are noncomputable, since code made for them would only
-- take room.

open Sys2Proof Sys2Proof.Machine Sys2Proof.Claims Sys2Proof.Laws Sys2Proof.Laws.Commits

namespace Sys2Proof.Laws.CommitCommands

/-! ### A command that needs a commit -/

/-- A command that needs a commit does nothing where there is none. -/
noncomputable def withCommit (s : State) (f : Commit → State) : Option Commit → State
  | none => s
  | some k => f k

section
variable {i : Instr} {s t : State} {f : Commit → State} {o : Option Commit}

theorem idles (hexec : exec i s = .next (withCommit s f o)) (hnone : o = none) : exec i s = .next s :=
  hexec.trans (congrArg _ (congrArg (withCommit s f) hnone))

theorem acts {k : Commit} (hexec : exec i s = .next (withCommit s f o)) (hsome : o = some k) :
    exec i s = .next (f k) := hexec.trans (congrArg _ (congrArg (withCommit s f) hsome))

theorem idles_always (hexec : exec i s = .next (withCommit s f o)) (h : ∀ k, f k = s) : exec i s = .next s := by
  cases o
  · exact hexec
  · exact hexec.trans (congrArg _ (h _))

variable {p : Prop} [Decidable p] {u : State}

theorem goes_then (hexec : exec i s = .next (if p then t else u)) (h : p) : exec i s = .next t :=
  hexec.trans (congrArg _ (if_pos h))

theorem goes_else (hexec : exec i s = .next (if p then t else u)) (h : ¬ p) : exec i s = .next u :=
  hexec.trans (congrArg _ (if_neg h))

end

theorem led_modLed (s : State) (c : Nat) (f : Ledger → Ledger) : ((s.modLed c f).ctx c).led = f (s.ctx c).led :=
  congrArg Ctx.led (ctx_modLed s c f)

/-- A ledger block whose commit is another one. -/
noncomputable def ledWith (l : Ledger) (o : Option Commit) : Ledger := { l with commit := o }

theorem led_modCommit {s : State} {c : Nat} {k : Commit} (hk : (s.ctx c).led.commit = some k) (f : Commit → Commit) :
    ((s.modCommit c f).ctx c).led = ledWith (s.ctx c).led (some (f k)) :=
  (led_modLed s c fun l => ledWith l (l.commit.map f)).trans (congrArg (fun o => ledWith _ (o.map f)) hk)

/-! ### COMMIT_START (10 R393 to R395, R404) -/

/-- The commit that a snapshot begins: what stood at its commit point, in the slot that has no sealed commit. -/
noncomputable def begunCommit (l : Ledger) (C : Nat) : Commit := { l.point with c := C, slot := freeSlotOf l }

/-- The context commits. -/
noncomputable def begun (k : Commit) (l : Ledger) : Ledger :=
  { l with waiting := none, st := .committing, commit := some k }

/-- The objects that the rank of a context owns. -/
noncomputable def ownObjects (x : Ctx) : List Nat := objectsOf x.plan x.rank.toNat

/-- The owned objects are copied into the free slot, and digested. -/
noncomputable def objectsCopied (s : State) (c C : Nat) : State :=
  (ownObjects (s.ctx c)).foldl (fun u i => snapshotObject u c (freeSlotOf (s.ctx c).led) i)
    (s.modLed c (begun (begunCommit (s.ctx c).led C)))

/-- Taps that came whole while the snapshot waited are kept. -/
noncomputable def tapsKept (c : Nat) (taps : List (Nat × Blob × Bool)) (s : State) : State :=
  taps.foldl (fun u e => if e.2.2 then tapFinish u c e.1 e.2.1 else u) s

/-- A snapshot waits for the commit before it, for its context, or for memory. -/
noncomputable def snapshotWaits (s : State) (x : Ctx) : Bool :=
  commitBlocked x || (x.led.st ≠ .running && x.led.st ≠ .committing) || snapshotStalls s x

/-- The snapshot of the commit that waits for it, if any. -/
noncomputable def snapshotFor (s : State) (c : Nat) : Option Nat → State
  | none => s
  | some C => if snapshotWaits s (s.ctx c) then s else tapsKept c (s.ctx c).led.taps (objectsCopied s c C)

theorem exec_commitStart {c : Nat} (hc : c < nCtx) (s : State) :
    exec (.commitStart c) s = .next (snapshotFor s c (s.ctx c).led.waiting) :=
  show exec (.commitStart c) s = .next (commitSnapshot s c) from withUnit_of (decide_eq_true hc)

theorem snapshotWaits_iff (s : State) (x : Ctx) : snapshotWaits s x = true ↔
    commitBlocked x = true ∨ (x.led.st ≠ .running ∧ x.led.st ≠ .committing) ∨ snapshotStalls s x = true := by
  simp [snapshotWaits, or_assoc]

section
variable {c : Nat} (hc : c < nCtx) {s : State}
include hc

theorem commitStart_waits (h : (s.ctx c).led.waiting = none ∨ commitBlocked (s.ctx c) = true ∨
    ((s.ctx c).led.st ≠ .running ∧ (s.ctx c).led.st ≠ .committing) ∨ snapshotStalls s (s.ctx c) = true) :
    exec (.commitStart c) s = .next s := by
  refine (exec_commitStart hc s).trans (congrArg _ ?_)
  cases hwaiting : (s.ctx c).led.waiting with
  | none => rfl
  | some C => exact if_pos ((snapshotWaits_iff s _).2 (h.resolve_left (hwaiting ▸ Option.some_ne_none C)))

theorem commitStart_begins {C : Nat} (hwaiting : (s.ctx c).led.waiting = some C)
    (hfree : commitBlocked (s.ctx c) = false)
    (hst : (s.ctx c).led.st = .running ∨ (s.ctx c).led.st = .committing)
    (hsettled : snapshotStalls s (s.ctx c) = false) :
    exec (.commitStart c) s = .next (tapsKept c (s.ctx c).led.taps (objectsCopied s c C)) := by
  refine ((exec_commitStart hc s).trans (congrArg _ (congrArg (snapshotFor s c) hwaiting))).trans
    (congrArg _ (if_neg ?_))
  refine mt (snapshotWaits_iff s _).1 (not_or.2 ⟨Bool.eq_false_iff.1 hfree, not_or.2 ⟨fun hnot => ?_,
    Bool.eq_false_iff.1 hsettled⟩⟩)
  exact hst.elim hnot.1 hnot.2

end

/-- A context commits what a commit says but for its digests and a cause found later, with a digest for each of some
objects. -/
def Snapped (c : Nat) (p : Commit) (objs : List Nat) (t : State) : Prop :=
  (t.ctx c).led.waiting = none ∧ (t.ctx c).led.st = .committing ∧ ∃ k, (t.ctx c).led.commit = some k ∧
    k.c = p.c ∧ k.slot = p.slot ∧ k.leaf = p.leaf ∧ k.layers = p.layers ∧ k.batches = p.batches ∧
        k.monitor = p.monitor ∧
    (p.cause ≠ 0 → k.cause = p.cause) ∧ ∀ o ∈ objs, (tget k.digests o).isSome = true

theorem snapped_of {c : Nat} {s t u : State} {p : Commit} {done objs : List Nat} (hsnap : SN c s p done t)
    (htaps : TK c t u) (hall : ∀ o ∈ objs, o ∈ done) : Snapped c p objs u := by
  obtain ⟨l, hl⟩ := hsnap
  have hled := congrArg Ctx.led hl.1
  obtain ⟨k, hk⟩ := hl.2.2.2.2
  obtain ⟨digests, cause, hp⟩ := hk.2.1
  obtain ⟨cause', hcause', hcommit'⟩ := htaps.2.2 k ((congrArg Ledger.commit hled).trans hk.1)
  refine ⟨htaps.1.trans ((congrArg Ledger.waiting hled).trans hl.2.1),
    htaps.2.1.trans ((congrArg Ledger.st hled).trans hl.2.2.1), _, hcommit', (congrArg Commit.c hp.1 :),
        (congrArg Commit.slot hp.1 :),
    (congrArg Commit.leaf hp.1 :), (congrArg Commit.layers hp.1 :), (congrArg Commit.batches hp.1 :),
    (congrArg Commit.monitor hp.1 :), fun h => ?_,
    fun o ho => hk.2.2 o (hall o ho)⟩
  have hkept := (congrArg Commit.cause hp.1).trans (hp.2 h)
  exact (hcause' (hkept ▸ h)).trans hkept

theorem objectsCopied_SN (s : State) (c C : Nat) : ∃ done, (∀ i ∈ ownObjects (s.ctx c) ++ [], i ∈ done) ∧
    SN c s (begunCommit (s.ctx c).led C) done (objectsCopied s c C) :=
  SN.objs _ _ [] _ ⟨_, ctx_modLed _ _ _, rfl, rfl, rfl, _, rfl, ⟨_, _, rfl, fun _ => rfl⟩,
    fun _ h => absurd h List.not_mem_nil⟩

theorem snapped (s : State) (c C : Nat) : Snapped c (begunCommit (s.ctx c).led C) (ownObjects (s.ctx c))
    (tapsKept c (s.ctx c).led.taps (objectsCopied s c C)) := by
  obtain ⟨_, hall, hsnap⟩ := objectsCopied_SN s c C
  exact snapped_of hsnap (TK.foldl c _ _) fun i hi => hall i (List.mem_append_left _ hi)

/-- Each owned object stands in memory that the job's ledger does not use. -/
def ObjectsApart (s : State) (c : Nat) : Prop :=
  ∀ o ∈ ownObjects (s.ctx c), 0 < objBytes (s.ctx c).plan o ∧ ∀ b, objAddr (s.ctx c).plan o ≤ b →
    b < objAddr (s.ctx c).plan o + objBytes (s.ctx c).plan o → ∀ off, ledgerAddr s (s.ctx c).job off ≠ b

/-- Some object of a context stands in poisoned memory. -/
noncomputable def poisoned (s : State) (c o : Nat) : Bool :=
  s.mem.mem.poisonedRange (objAddr (s.ctx c).plan o) (objBytes (s.ctx c).plan o)

/-- A commit has the digests of objects as they stand in memory; over them poison, and only poison, fails it. -/
def Digested (s : State) (c : Nat) (cause : Nat) (objs : List Nat) (noTaps : Prop) (t : State) : Prop :=
  ∃ k, (t.ctx c).led.commit = some k ∧
    (∀ o ∈ objs, tget k.digests o = some (sm3 (memRead s (objAddr (s.ctx c).plan o) (objBytes (s.ctx c).plan o)))) ∧
    (cause = 0 → (∀ o ∈ objs, objLayer (s.ctx c).plan o = 0xFFFF) →
      ((∃ o ∈ objs, poisoned s c o = true) → k.cause = 1) ∧
      (noTaps → (∀ o ∈ objs, poisoned s c o = false) → k.cause = 0))

theorem digested_of {s t u : State} {c : Nat} {p : Commit} {objs : List Nat} {noTaps : Prop}
    (hdone : DN c s p objs objs t)
    (htaps : TK c t u) (hsame : noTaps → t = u) : Digested s c p.cause objs noTaps u := by
  obtain ⟨l, k, h⟩ := hdone
  have hcommit : (t.ctx c).led.commit = some k := (congrArg (fun x => x.led.commit) h.1).trans h.2.1
  obtain ⟨cause, hcause, hcommit'⟩ := htaps.2.2 k hcommit
  have hfacts := h.2.2.2.2.2
  refine ⟨_, hcommit', hfacts.1, fun hnone hlayers => ⟨fun hpoison => ?_, fun hnoTaps hclean => ?_⟩⟩
  · have hone := (hfacts.2 hnone hlayers).1 hpoison
    exact (hcause (hone ▸ Nat.one_ne_zero)).trans hone
  · have hkept := (congrArg (fun w => (w.ctx c).led.commit) (hsame hnoTaps)).symm.trans hcommit
    exact (congrArg Commit.cause (Option.some.inj (hcommit'.symm.trans hkept))).trans
        ((hfacts.2 hnone hlayers).2 hclean)

theorem digested {s : State} {c : Nat} (hwf : s.mem.mem.wf = true) (hapart : ObjectsApart s c) (C : Nat) :
    Digested s c (s.ctx c).led.point.cause (ownObjects (s.ctx c)) ((s.ctx c).led.taps = [])
      (tapsKept c (s.ctx c).led.taps (objectsCopied s c C)) := by
  exact digested_of (p := begunCommit (s.ctx c).led C) (DN.objs _ hapart (ownObjects (s.ctx c)) [] _ (fun _ hi => hi)
    ⟨_, _, ctx_modLed s c (begun (begunCommit (s.ctx c).led C)), rfl, hwf, rfl, fun _ _ => ⟨rfl, rfl⟩,
      fun _ h => absurd h List.not_mem_nil,
      fun hcause _ => ⟨fun h => h.elim fun _ h => absurd h.1 List.not_mem_nil,
        fun _ => hcause⟩⟩) (TK.foldl c _ _) fun htaps =>
    (congrArg (fun taps => tapsKept c taps (objectsCopied s c C)) htaps).symm

/-! ### SNAPSHOT_DONE (10 R393; 06 R236) -/

/-- The local snapshot counts as durable once it is. -/
noncomputable def snapshotDoneFor (s : State) (c : Nat) (k : Commit) : State :=
  if ownDurable s (s.ctx c) k then s.modCommit c fun k => { k with snapDone := true } else s

theorem exec_snapshotDone {c : Nat} (hc : c < nCtx) (s : State) :
    exec (.snapshotDone c) s = .next (withCommit s (snapshotDoneFor s c) (s.ctx c).led.commit) :=
  show exec (.snapshotDone c) s = .next (snapshotDone s c) from withUnit_of (decide_eq_true hc)

/-! ### PARITY_COMPUTE (10 R400, R421) -/

/-- The parities of a group that the rank of a context holds. -/
noncomputable def heldOf (x : Ctx) (g : Nat) : List (Nat × Bool) :=
  (heldParity x.plan x.rank.toNat).filter fun h => h.1 = g

/-- The image of a member that has been read. -/
noncomputable def readOf (x : Ctx) (r : Nat) : Blob := tgetD x.led.reads r Blob.empty

/-- Every member of a group was dropped, or its image has come. -/
noncomputable def imagesHere (x : Ctx) (g : Nat) : Bool := (groupMembers x.plan g).all fun r =>
  x.led.dropped.contains r || (readOf x r).len = sumBytes x.plan (parityObjects x r)

/-- The parities that are held are written into a slot; a dropped member is zero. -/
noncomputable def parityWritten (s : State) (x : Ctx) (k : Commit) (g : Nat) : State :=
  (heldOf x g).foldl (fun u h => ledgerWrite u x.job (parityOff x k.slot h) (parityOf h.2 (parityLen x g)
    ((groupMembers x.plan g).map fun r => if x.led.dropped.contains r then Blob.empty else readOf x r))) s

/-- A ledger block without the images of some members. -/
noncomputable def ledForget (ms : List Nat) (l : Ledger) : Ledger :=
  { l with reads := l.reads.filter fun e => !ms.contains e.1 }

/-- A group's parity for a commit, unless it waits. -/
noncomputable def parityFor (s : State) (c g : Nat) (k : Commit) : State :=
  if (heldOf (s.ctx c) g).isEmpty || ledgerStalls s (s.ctx c).job then s
  else if !imagesHere (s.ctx c) g then parityReads s c g
  else ((parityWritten s (s.ctx c) k g).modCommit c fun k => { k with parity := k.parity ++ [g] }).modLed c
    (ledForget (groupMembers (s.ctx c).plan g))

theorem exec_parityCompute {c : Nat} (hc : c < nCtx) (s : State) (g : Nat) :
    exec (.parityCompute c g) s = .next (withCommit s (parityFor s c g) (s.ctx c).led.commit) :=
  show exec (.parityCompute c g) s = .next (parityCompute s c g) from withUnit_of (decide_eq_true hc)

theorem isEmpty_or_iff {α : Type} {l : List α} {b : Bool} : (l.isEmpty || b) = true ↔ l = [] ∨ b = true := by simp

theorem contains_or_iff {l : List Nat} {r m n : Nat} : (l.contains r || decide (m = n)) = true ↔ r ∈ l ∨ m = n := by
  simp

section
variable {c g : Nat} (hc : c < nCtx) {s : State}
include hc

theorem parity_idles (h : (s.ctx c).led.commit = none ∨ heldOf (s.ctx c) g = [] ∨ ledgerStalls s (s.ctx c).job = true) :
    exec (.parityCompute c g) s = .next s :=
  h.elim (idles (exec_parityCompute hc s g)) fun h =>
    idles_always (exec_parityCompute hc s g) fun _ => if_pos (isEmpty_or_iff.2 h)

variable {k : Commit} (hk : (s.ctx c).led.commit = some k) (hheld : heldOf (s.ctx c) g ≠ [])
  (hsettled : ledgerStalls s (s.ctx c).job = false)
include hk hheld hsettled

theorem parity_goes {b : Bool} (hhere : imagesHere (s.ctx c) g = b) : exec (.parityCompute c g) s =
    .next (if !b then parityReads s c g else ((parityWritten s (s.ctx c) k g).modCommit c fun k =>
      { k with parity := k.parity ++ [g] }).modLed c (ledForget (groupMembers (s.ctx c).plan g))) :=
  hhere ▸ goes_else (acts (exec_parityCompute hc s g) hk) fun h =>
    (isEmpty_or_iff.1 h).elim hheld (Bool.eq_false_iff.1 hsettled)

end

theorem ctx_parityWritten (s : State) (x : Ctx) (k : Commit) (g c : Nat) : (parityWritten s x k g).ctx c = s.ctx c :=
  fold_same (g := fun u => u.ctx c) (fun _ _ => lw_ctx _ _ _ _ c) _ _

/-- P is the exclusive or of the members' images, byte by byte. -/
theorem byte_parityOf_P (ds : List Blob) {len j : Nat} (hj : j < len) :
    (parityOf false len ds).byte j = ds.foldl (fun v d => Nat.xor v (d.byte j)) 0 := by
  obtain ⟨hfold, hlt⟩ := fold_xor j ds 0 0 (by decide)
  unfold parityOf
  rw [ofBytes_byte, List.getD_eq_getElem?_getD, List.getElem?_map, List.getElem?_range hj, Option.map_some,
    Option.getD_some, hfold, Nat.mod_eq_of_lt hlt]

/-- The parities held are in their slot, and the images are forgotten. -/
theorem led_parityDone {s : State} {c : Nat} {k : Commit} (hk : (s.ctx c).led.commit = some k) (x : Ctx) (g : Nat)
    (f : Commit → Commit) (h : Ledger → Ledger) :
    ((((parityWritten s x k g).modCommit c f).modLed c h).ctx c).led = h (ledWith (s.ctx c).led (some (f k))) := by
  have hctx := congrArg Ctx.led (ctx_parityWritten s x k g c)
  exact (led_modLed _ c h).trans (congrArg h ((led_modCommit ((congrArg Ledger.commit hctx).trans hk) f).trans
    (congrArg (ledWith · _) hctx)))

/-- The image of a live member has been asked for; the commit and the bytes of memory stay. -/
def Asked (s : State) (c r : Nat) (k : Commit) (t : State) : Prop :=
  ((rankAcc (s.ctx c) r).isSome = true → (tget (t.ctx c).led.reads r).isSome = true) ∧
    (t.ctx c).led.commit = some k ∧ t.mem.mem = s.mem.mem

theorem asked_parityReads {s : State} {c g r : Nat} {k : Commit} (hk : (s.ctx c).led.commit = some k)
    (hr : r ∈ groupMembers (s.ctx c).plan g) (hlive : r ∉ (s.ctx c).led.dropped) :
    Asked s c r k (parityReads s c g) := by
  obtain ⟨_, h⟩ := reads_facts c g s
  exact ⟨fun hacc => (congrArg (fun x => (tget x.led.reads r).isSome) h.1).trans
      (h.2.2 r hr (Bool.eq_false_iff.2 (mt List.contains_iff_mem.1 hlive)) hacc),
    (congrArg (fun x => x.led.commit) h.1).trans hk, (touches_parityReads s c g).2 .bytes (by decide)⟩

/-! ### COPY_OBJECT (10 R396) -/

/-- The device of an object's partner. -/
noncomputable def partnerOf (x : Ctx) (i : Nat) : Option Nat := (tget x.led.partners i).bind (rankAcc x)

/-- A copy of an object waits, or is not for this rank to make. -/
noncomputable def copyWaits (s : State) (x : Ctx) (k : Commit) (i : Nat) : Bool :=
  !objIsCopy x.plan i || objOwner x.plan i ≠ x.rank.toNat || !k.snapDone || k.copied.contains i || ledgerStalls s x.job

/-- An object is copied to the device of its partner, unless it waits. -/
noncomputable def copyFor (s : State) (c i : Nat) : Option Commit → Option Nat → State
  | some k, some a =>
    if copyWaits s (s.ctx c) k i then s
    else
      (sendWrites s a (s.ctx c).job (ledgerRead s (s.ctx c).job (ownOff (s.ctx c) k.slot i)
        (objBytes (s.ctx c).plan i))).modCommit c fun k => { k with copied := k.copied ++ [i] }
  | _, _ => s

theorem copyWaits_iff {s : State} {x : Ctx} {k : Commit} {i : Nat} : copyWaits s x k i = true ↔
    objIsCopy x.plan i = false ∨ objOwner x.plan i ≠ x.rank.toNat ∨ k.snapDone = false ∨ i ∈ k.copied ∨
      ledgerStalls s x.job = true := by
  simp [copyWaits, or_assoc]

theorem copy_ready {s : State} {x : Ctx} {k : Commit} {i : Nat} (hcopy : objIsCopy x.plan i = true)
    (howner : objOwner x.plan i = x.rank.toNat) (hsnap : k.snapDone = true) (hnew : i ∉ k.copied)
    (hsettled : ledgerStalls s x.job = false) : ¬ copyWaits s x k i = true := by
  simp [copyWaits_iff, hcopy, howner, hsnap, hnew, hsettled]

section
variable {c : Nat} (hc : c < nCtx) {s : State} {i : Nat}
include hc

theorem exec_copyObject {o : Option Commit} {p : Option Nat} (ho : (s.ctx c).led.commit = o)
    (hp : partnerOf (s.ctx c) i = p) : exec (.copyObject c i) s = .next (copyFor s c i o p) := by
  subst ho hp
  exact show exec (.copyObject c i) s = .next (copyObject s c i) from withUnit_of (decide_eq_true hc)

theorem copy_idles (h : (s.ctx c).led.commit = none ∨ partnerOf (s.ctx c) i = none) :
    exec (.copyObject c i) s = .next s := by
  refine h.elim (fun h => exec_copyObject hc h rfl) fun h => (exec_copyObject hc rfl h).trans (congrArg _ ?_)
  cases (s.ctx c).led.commit <;> rfl

end

theorem mem_sendWrites (s : State) (a : Nat) (job : BitVec 32) (b : Blob) : (sendWrites s a job b).mem = s.mem :=
  mem_of (touches_sendWrites s a job b) (by decide) (by decide) (by decide)

theorem led_sendWrites (s : State) (a : Nat) (job : BitVec 32) (b : Blob) (c : Nat) :
    ((sendWrites s a job b).ctx c).led = (s.ctx c).led :=
  CK.sendWrites (g := fun x => x.led) (fun _ _ _ _ => rfl) s a job b c

/-! ### COMMIT_RECORD_WRITE (10 R401) -/

/-- The record is in its slot, and the commit has it. -/
noncomputable def recordKept (s : State) (c : Nat) (k : Commit) (b : Blob) : State :=
  (ledgerWrite s (s.ctx c).job (recordOff (s.ctx c) k.slot) b).modCommit c fun q => { q with record := some b }

/-- A byte string is sent to a device, if there is one. -/
noncomputable def sentTo (s : State) (job : BitVec 32) (b : Blob) : Option Nat → State
  | some a => sendWrites s a job b
  | none => s

/-- A record waits for the snapshot or for memory, or stands already. -/
noncomputable def recordWaits (s : State) (x : Ctx) (k : Commit) : Bool :=
  !k.snapDone || k.record.isSome || ledgerStalls s x.job

/-- The record is written and sent to the record partner, unless it waits. -/
noncomputable def recordFor (s : State) (c : Nat) (k : Commit) : State :=
  if recordWaits s (s.ctx c) k then s
  else sentTo (recordKept s c k (commitRecord s c k)) (s.ctx c).job (commitRecord s c k)
    ((recordPartner (s.ctx c) (s.ctx c).rank.toNat).bind (rankAcc (s.ctx c)))

theorem exec_commitRecordWrite {c : Nat} (hc : c < nCtx) (s : State) :
    exec (.commitRecordWrite c) s = .next (withCommit s (recordFor s c) (s.ctx c).led.commit) :=
  show exec (.commitRecordWrite c) s = .next (commitRecordWrite s c) from withUnit_of (decide_eq_true hc)

theorem recordWaits_iff {s : State} {x : Ctx} {k : Commit} : recordWaits s x k = true ↔
    k.snapDone = false ∨ k.record.isSome = true ∨ ledgerStalls s x.job = true := by
  simp [recordWaits, or_assoc]

theorem record_ready {s : State} {x : Ctx} {k : Commit} (hsnap : k.snapDone = true) (hnew : k.record = none)
    (hsettled : ledgerStalls s x.job = false) : ¬ recordWaits s x k = true := by
  simp [recordWaits_iff, hsnap, hnew, hsettled]

theorem sentTo_keeps (s : State) (job : BitVec 32) (b : Blob) (o : Option Nat) (c : Nat) :
    ((sentTo s job b o).ctx c).led = (s.ctx c).led ∧ (sentTo s job b o).mem = s.mem :=
  match o with
  | some a => ⟨led_sendWrites s a job b c, mem_sendWrites s a job b⟩
  | none => ⟨rfl, rfl⟩

/-- A commit has its record, which stands in its slot. -/
def Recorded (s : State) (c : Nat) (k : Commit) (t : State) : Prop :=
  ∃ b, (t.ctx c).led.commit = some { k with record := some b } ∧
    b.bits 0 32 = (s.ctx c).job.toNat ∧ b.bits 32 32 = k.c % 2 ^ 32 ∧ b.bits 64 14 = (s.ctx c).rank.toNat ∧
    b.bits (8 * (b.len - 32)) 256 = (sm3 (b.slice 0 (b.len - 32))).toNat ∧
    t.mem = (ledgerWrite s (s.ctx c).job (recordOff (s.ctx c) k.slot) b).mem

theorem recorded_sentTo {s : State} {c : Nat} {k : Commit} (hk : (s.ctx c).led.commit = some k) (o : Option Nat) :
    Recorded s c k (sentTo (recordKept s c k (commitRecord s c k)) (s.ctx c).job (commitRecord s c k) o) := by
  obtain ⟨hled, hmem⟩ := sentTo_keeps (recordKept s c k (commitRecord s c k)) (s.ctx c).job (commitRecord s c k) o c
  obtain ⟨hjob, hstep, hrank, htrailer⟩ := Commits.record_facts s c k
  exact ⟨_, congrArg Ledger.commit (hled.trans (led_modCommit ((congrArg (fun x => x.led.commit)
    (lw_ctx s _ _ _ c)).trans hk) _)), hjob, hstep, hrank, htrailer, hmem⟩

/-! ### COMMIT_LEAF (10 R402) -/

/-- A copy that the rank keeps for a ward differs from the ward's record. -/
noncomputable def copyFails (x : Ctx) (k : Commit) : Bool :=
  ((wardObjects x).map (copyVerdict x k)).any (· = some false)

/-- Everything of a commit that this rank keeps is durable, and every copy has the digest of its ward's record. -/
noncomputable def allDurable (s : State) (x : Ctx) (k : Commit) : Bool :=
  k.snapDone && k.record.isSome && ((wardObjects x).map (copyVerdict x k)).all (· = some true) &&
    ((heldParity x.plan x.rank.toNat).all fun h => k.parity.contains h.1) &&
    ledgerDurable s x.job (slotOff x k.slot) (slotBytes x)

/-- The leaf of a commit is sent, unless it was or has to wait. -/
noncomputable def leafFor (s : State) (c : Nat) (k : Commit) : State :=
  if k.leaf.isSome then s
  else if k.cause ≠ 0 then sendLeaf s c k.cause
  else if copyFails (s.ctx c) k then sendLeaf (commitCause s c 4) c 4
  else if allDurable s (s.ctx c) k then sendLeaf s c 0
  else s

theorem exec_commitLeaf {c : Nat} (hc : c < nCtx) (s : State) :
    exec (.commitLeaf c) s = .next (withCommit s (leafFor s c) (s.ctx c).led.commit) :=
  show exec (.commitLeaf c) s = .next (commitLeaf s c) from withUnit_of (decide_eq_true hc)

theorem copyFails_iff {x : Ctx} {k : Commit} :
    copyFails x k = true ↔ ∃ i ∈ wardObjects x, copyVerdict x k i = some false := by
  simp [copyFails]

theorem allDurable_iff {s : State} {x : Ctx} {k : Commit} : allDurable s x k = true ↔
    k.snapDone = true ∧ k.record.isSome = true ∧ (∀ i ∈ wardObjects x, copyVerdict x k i = some true) ∧
      (∀ h ∈ heldParity x.plan x.rank.toNat, h.1 ∈ k.parity) ∧
      ledgerDurable s x.job (slotOff x k.slot) (slotBytes x) = true := by
  simp [allDurable, and_assoc]

/-- The leaf of a commit holds a value, with its cause; only the root of the commit tree answers at once. -/
def LeafPut (s : State) (c : Nat) (k : Commit) (n : Nat) (t : State) : Prop :=
  ∃ a, (t.ctx c).led.commit = some { k with leaf := some n, cause := n, answer := a } ∧
    (commitRoot (s.ctx c) ≠ (s.ctx c).rank.toNat → a = k.answer)

/-- A leaf sent from a state whose commit has the cause holds it. -/
theorem leafPut_sendLeaf {s u : State} {c : Nat} {k : Commit} {n : Nat}
    (hk : (u.ctx c).led.commit = some { k with cause := n }) (hroot : commitRoot (u.ctx c) = commitRoot (s.ctx c))
    (hrank : (u.ctx c).rank = (s.ctx c).rank) : LeafPut s c k n (sendLeaf u c n) := by
  obtain ⟨a, hcommit, hanswer⟩ := leaf_facts u c _ n hk
  exact ⟨a, hcommit, hroot ▸ hrank ▸ hanswer⟩

/-- The root of the commit tree, as the ledger block of a context tells it. -/
noncomputable def rootOf (l : Ledger) : Nat := ((List.range l.ranks.length).find? fun r => !l.dropped.contains r).getD 0

theorem rank_modCommit (s : State) (c : Nat) (f : Commit → Commit) : ((s.modCommit c f).ctx c).rank = (s.ctx c).rank :=
  (congrArg Ctx.rank (ctx_modLed s c fun l => ledWith l (l.commit.map f)) :)

theorem leafPut_copyFails {s : State} {c : Nat} {k : Commit} (hk : (s.ctx c).led.commit = some k)
    (hcause : k.cause = 0) :
    LeafPut s c k 4 (sendLeaf (commitCause s c 4) c 4) :=
  have hled := led_modCommit hk fun k => if k.cause = 0 then { k with cause := 4 } else k
  leafPut_sendLeaf ((congrArg Ledger.commit hled).trans (congrArg some (if_pos hcause))) (congrArg rootOf hled :)
    (rank_modCommit _ _ _)

section
variable {s : State} {c : Nat} {k : Commit} (hk : (s.ctx c).led.commit = some k) (hleaf : k.leaf = none)
include hk hleaf

theorem leafPut_failed (hcause : k.cause ≠ 0) : LeafPut s c k k.cause (leafFor s c k) := by
  rw [show leafFor s c k = _ from (if_neg (hleaf ▸ Bool.false_ne_true)).trans (if_pos hcause)]
  exact leafPut_sendLeaf hk rfl rfl

/-- A leaf whose commit has no cause yet. -/
theorem leaf_sound (hc : c < nCtx) (hcause : k.cause = 0) :
    exec (.commitLeaf c) s = .next (if copyFails (s.ctx c) k then
    sendLeaf (commitCause s c 4) c 4 else if allDurable s (s.ctx c) k then sendLeaf s c 0 else s) :=
  goes_else (goes_else (acts (exec_commitLeaf hc s) hk) (hleaf ▸ Bool.false_ne_true)) (not_not.2 hcause)

end

theorem copyVerdict_iff {x : Ctx} {k : Commit} {i : Nat} {d w : BitVec 256} {v : BitVec 32} {b : Blob}
    (hcopy : tget x.led.copies (2 * i + k.slot) = some d) (hward : tget x.led.wards (objOwner x.plan i) = some b)
    (hcommit : b.bits 32 32 = k.c) (hobject : recordObject b i = some (w, v)) :
    (copyVerdict x k i = some true ↔ d = w) ∧ (copyVerdict x k i = some false ↔ d ≠ w) := by
  have hverdict : copyVerdict x k i = some (decide (d = w)) := by
    unfold copyVerdict
    rw [hcopy, hward]
    exact (if_pos hcommit).trans (congrArg _ hobject)
  rw [hverdict]
  simp

/-! ### SEALED (10 R402 to R405) -/

/-- The ledger block of a context whose commit is the last sealed one, C_s. -/
noncomputable def sealedLed (l : Ledger) (k : Commit) : Ledger :=
  { clearCopies l k.slot with
    st := .running, commit := none, lastSealed := BitVec.ofNat 32 k.c, hasSealed := true, sealedSlot := k.slot
    sealedPartners := l.partners, retries := 0, drops := 0, sealed' := l.sealed' + 1 }

/-- The layers of a context have the steps of the commit. -/
noncomputable def layersAt (x : Ctx) (k : Commit) : Tbl (BitVec 32) := k.layers.foldl (fun t e => tset t e.1 e.2) x.tC

/-- A context whose commit is C_s. -/
noncomputable def sealedCtx (k : Commit) (x : Ctx) : Ctx := { x with tC := layersAt x k, led := sealedLed x.led k }

/-- What the directory says of a sealed commit. -/
noncomputable def jobEntry (x : Ctx) (k : Commit) : LedgerJob := ⟨x.job, x.rank.toNat, k.slot, BitVec.ofNat 32 k.c⟩

/-- The directory names the sealed commit of a job. -/
noncomputable def sealedListed (s : State) (c : Nat) (k : Commit) : State :=
  directoryWrite (putJob (s.modCtx c (sealedCtx k)) (jobEntry (s.ctx c) k))

/-- The commit is sealed, unless its leaf or the answer is not 0.0. -/
noncomputable def sealedFor (s : State) (c : Nat) (k : Commit) : State :=
  if k.leaf ≠ some 0 || k.answer.getD 0 ≠ 0 then s else exportStart (sealedListed s c k) c

theorem exec_sealed {c : Nat} (hc : c < nCtx) (s : State) :
    exec (.sealed c) s = .next (withCommit s (sealedFor s c) (s.ctx c).led.commit) :=
  show exec (.sealed c) s = .next (sealed s c) from withUnit_of (decide_eq_true hc)

theorem jobs_directoryWrite (s : State) : (directoryWrite s).ledger.jobs = s.ledger.jobs :=
  (congrArg LedgerUnit.jobs ((touches_memWrite s _ _).2 .ledger (by decide)) :)

theorem generation_directoryWrite (s : State) : (directoryWrite s).ledger.generation = s.ledger.generation + 1 := rfl

/-- A commit is C_s, with its layers' steps, and the directory names it. -/
def Sealed (s : State) (c : Nat) (k : Commit) (t : State) : Prop :=
  (t.ctx c).led.st = .running ∧ (t.ctx c).led.commit = none ∧ (t.ctx c).led.lastSealed = BitVec.ofNat 32 k.c ∧
    (t.ctx c).led.sealedSlot = k.slot ∧ (t.ctx c).led.sealed' = (s.ctx c).led.sealed' + 1 ∧
    (t.ctx c).led.sealedPartners = (s.ctx c).led.partners ∧ (t.ctx c).tC = layersAt (s.ctx c) k ∧
    jobEntry (s.ctx c) k ∈ t.ledger.jobs ∧ t.ledger.generation = s.ledger.generation + 1

theorem sealed_exportStart (s : State) (c : Nat) (k : Commit) : Sealed s c k (exportStart (sealedListed s c k) c) := by
  have hctx := (ctx_of ((touches_directoryWrite (putJob (s.modCtx c (sealedCtx k)) (jobEntry (s.ctx c) k))).2 .ctxs
    (by decide)) c).trans (ctx_modCtx_self s c (sealedCtx k))
  have hled := (exp_led (sealedListed s c k) c).trans (congrArg Ctx.led hctx)
  have hledger := (touches_exportStart (sealedListed s c k) c).2 .ledger (by decide)
  exact ⟨congrArg Ledger.st hled, congrArg Ledger.commit hled, congrArg Ledger.lastSealed hled,
    congrArg Ledger.sealedSlot hled, congrArg Ledger.sealed' hled, congrArg Ledger.sealedPartners hled,
    (exp_tC _ c).trans (congrArg Ctx.tC hctx),
    ((congrArg LedgerUnit.jobs hledger).trans (jobs_directoryWrite _)).symm ▸
      List.mem_append_right _ (List.mem_singleton.2 rfl),
    (congrArg LedgerUnit.generation hledger).trans (generation_directoryWrite _)⟩

/-! ### COMMIT_FAILED (10 R402) -/

/-- The ledger block of a context whose commit failed. -/
noncomputable def failedLed (cause rank : Nat) (k : Commit) (l : Ledger) : Ledger :=
  { clearCopies l k.slot with
    st := .running, commit := none, failed := l.failed + 1
    lastFail := BitVec.ofNat 18 (cause % 16 + 16 * (rank % 2 ^ 14)) }

/-- The commit fails, unless the answer was 0.0. -/
noncomputable def failedFor (s : State) (c cause rank : Nat) (k : Commit) : State :=
  if k.answer = some 0 then s else s.modLed c (failedLed cause rank k)

theorem exec_commitFailed {c : Nat} (hc : c < nCtx) (s : State) (cause rank : Nat) :
    exec (.commitFailed c cause rank) s =
    .next (withCommit s (failedFor s c cause rank) (s.ctx c).led.commit) :=
  show exec (.commitFailed c cause rank) s = .next (commitFailed s c cause rank) from withUnit_of (decide_eq_true hc)

end Sys2Proof.Laws.CommitCommands

namespace Sys2Proof.Claims

open Sys2Proof.Laws Sys2Proof.Laws.Commits Sys2Proof.Laws.CommitCommands in
/-- Settles O37. The snapshot is followed object by object (`snapped`, and `digested` where the ledger does not overlap
the objects); each other command is the function of the commit that its `exec_` lemma names. -/
theorem commitsAreSealed : Obligations.CommitsAreSealed := by
  unfold Obligations.CommitsAreSealed
  refine ⟨?_, ?_, ⟨?_, fun len j ds hj => byte_parityOf_P ds hj⟩, ?_, ?_, ?_, ?_, ?_, ?_⟩
  · intro s c hc x i objects
    exact ⟨commitStart_waits hc, fun C hwaiting hfree hst hsettled =>
      ⟨nxt (commitStart_begins hc hwaiting hfree hst hsettled) (snapped s c C), fun hwf hapart =>
        nxt (commitStart_begins hc hwaiting hfree hst hsettled) (digested hwf hapart C)⟩⟩
  · exact fun s c hc => ⟨idles (exec_snapshotDone hc s), fun k hk =>
      ⟨fun hflight => goes_else (acts (exec_snapshotDone hc s) hk) (Bool.eq_false_iff.1 hflight),
        fun hdurable => nxt (goes_then (acts (exec_snapshotDone hc s) hk) hdurable) ⟨led_modCommit hk _, rfl⟩⟩⟩
  · intro s c g hc x i need ms mine
    exact ⟨parity_idles hc, fun k hk hheld hsettled => ⟨fun himages => nxt (parity_goes hc hk hheld hsettled
      (List.all_eq_true.2 fun r hr => contains_or_iff.2 (himages r hr))) ⟨rfl, led_parityDone hk _ _ _ _⟩,
      fun r hr hlive hshort => nxt (parity_goes hc hk hheld hsettled (b := false) (Bool.eq_false_iff.2 fun h =>
        (contains_or_iff.1 (List.all_eq_true.1 h r hr)).elim hlive hshort)) (asked_parityReads hk hr hlive)⟩⟩
  · intro s c i hc x partner
    exact ⟨copy_idles hc, fun k a hk hpartner => ⟨fun hwaits => goes_then (exec_copyObject hc hk hpartner)
      (copyWaits_iff.2 hwaits), fun hcopy howner hsnap hnew hsettled =>
      nxt (goes_else (exec_copyObject hc hk hpartner) (copy_ready hcopy howner hsnap hnew hsettled))
        ⟨congrArg Ledger.commit (led_modCommit ((congrArg Ledger.commit (led_sendWrites s a _ _ c)).trans hk) _),
          mem_sendWrites s a _ _⟩⟩⟩
  · intro s c hc x
    exact ⟨idles (exec_commitRecordWrite hc s), fun k hk => ⟨fun hwaits =>
      goes_then (acts (exec_commitRecordWrite hc s) hk) (recordWaits_iff.2 hwaits), fun hsnap hnew hsettled =>
      nxt (goes_else (acts (exec_commitRecordWrite hc s) hk) (record_ready hsnap hnew hsettled))
        (recorded_sentTo hk _)⟩⟩
  · intro s c hc x leaf
    refine ⟨idles (exec_commitLeaf hc s), fun k hk => ⟨goes_then (acts (exec_commitLeaf hc s) hk), fun hleaf =>
      ⟨fun hcause => nxt (acts (exec_commitLeaf hc s) hk) (leafPut_failed hk hleaf hcause),
        fun hcause hfails => nxt (goes_then (leaf_sound hk hleaf hc hcause) (copyFails_iff.2 hfails))
          (leafPut_copyFails hk hcause), fun hcause hsound => ?_⟩⟩⟩
    intro all
    have hgoes := goes_else (leaf_sound hk hleaf hc hcause)
      (mt copyFails_iff.1 fun ⟨i, hi, hfails⟩ => hsound i hi hfails)
    exact ⟨fun hall => nxt (goes_then hgoes (allDurable_iff.2 hall)) (leafPut_sendLeaf (hcause ▸ hk) rfl rfl),
      fun hnot => goes_else hgoes (mt allDurable_iff.1 hnot)⟩
  · exact fun x k i d w v b hcopy hward hcommit hobject => copyVerdict_iff hcopy hward hcommit hobject
  · exact fun s c hc => ⟨idles (exec_sealed hc s), fun k hk =>
      ⟨fun hwaits => goes_then (acts (exec_sealed hc s) hk) (by simpa using hwaits), fun hleaf hanswer =>
        nxt (goes_else (acts (exec_sealed hc s) hk) (by simp [hleaf, hanswer])) (sealed_exportStart s c k)⟩⟩
  · exact fun s c cause rank hc => ⟨idles (exec_commitFailed hc s cause rank), fun k hk =>
      ⟨goes_then (acts (exec_commitFailed hc s cause rank) hk), fun hanswer =>
        nxt (goes_else (acts (exec_commitFailed hc s cause rank) hk) hanswer) ⟨rfl, led_modLed s c _⟩⟩⟩

end Sys2Proof.Claims
end

section
/-!
PROOF. The start of a recovery (O38): the choice of a spare, LOST, FAULT, HALT, BIND and BIND_ACK.
-/

-- One declaration after another: side by side they need more threads than the memory of the check leaves room for.
set_option Elab.async false

-- The definitions of this section serve its proofs alone: they are noncomputable, since code made for them would only
-- take room.

open Sys2Proof Sys2Proof.Machine Sys2Proof.Claims Sys2Proof.Laws

namespace Sys2Proof.Laws.RecoveryCommands

/-! ### Records taken and heeded (10 R406, R407), and credits returned -/

theorem touches_of_takeMail {s s1 : State} {m : Option Ctrl} {c typ : Nat} (htake : takeMail s c typ = (s1, m)) :
    Touches [.ctxs] s s1 := .ofPair htake (touches_takeMail s c typ)

theorem touches_of_heed {s s1 : State} {k : Ctrl} {c : Nat} {b : Bool} (hheed : heed s c k = (s1, b)) :
    Touches [.ctxs] s s1 := .ofPair hheed (touches_heed s c k)

theorem mem_of_ctxs {s t : State} (h : Touches [.ctxs] s t) : t.mem = s.mem :=
  mem_of h (by decide) (by decide) (by decide)

/-- A command that takes a record does no more than take it where there is none. -/
noncomputable def withMail (g : State → Ctrl → State) : State × Option Ctrl → State
  | (s1, none) => s1
  | (s1, some k) => g s1 k

section
variable {i : Instr} {s s1 s2 t u : State} {c typ : Nat} {g : State → Ctrl → State} {m : Option Ctrl} {k : Ctrl}

theorem withMail_some (htake : takeMail s c typ = (s1, m)) (hm : m = some k) :
    withMail g (takeMail s c typ) = g s1 k := congrArg (withMail g) (htake.trans (congrArg _ hm))

theorem withMail_none (htake : takeMail s c typ = (s1, m)) (hm : m = none) : withMail g (takeMail s c typ) = s1 :=
  congrArg (withMail g) (htake.trans (congrArg _ hm))

theorem flushed (hexec : exec i s = .next (flushCredits s t)) (h : t = u) : exec i s = .next (flushCredits s u) :=
  hexec.trans (congrArg _ (congrArg _ h))

/-- Credits that no command of a recovery moved need no report. -/
theorem quiet (hexec : exec i s = .next (flushCredits s t)) (h : t = u) (hquiet : Touches [.ctxs] s u) :
    exec i s = .next u := (flushed hexec h).trans (congrArg _ (flush_none (hquiet.2 .media (by decide))))

theorem mail_none (hexec : exec i s = .next (flushCredits s (withMail g (takeMail s c typ))))
    (htake : takeMail s c typ = (s1, m)) (hm : m = none) : exec i s = .next s1 :=
  quiet hexec (withMail_none htake hm) (touches_of_takeMail htake)

end

theorem mem_flush (s t : State) : (flushCredits s t).mem = t.mem :=
  mem_of (touches_flushCredits s t) (by decide) (by decide) (by decide)

theorem core_flush (s t : State) : (flushCredits s t).core = t.core :=
  funext (core_of ((touches_flushCredits s t).2 .cores (by decide)))

theorem led_flush (s t : State) (c : Nat) : ((flushCredits s t).ctx c).led = (t.ctx c).led :=
  CK.flushCredits (g := fun x => x.led) (fun _ _ _ _ => rfl) s t c

/-! ### The choice of a spare (10 R411) -/

/-- The hops from the anchor of a rank to a device. -/
noncomputable def spareHops (s : State) (x : Ctx) (r a : Nat) : Nat :=
  ((anchorOf x r).bind fun b => if a = b then some 0 else hopsBetween s b a).getD 100

/-- A device may take a rank, and has not been tried. -/
def MayTake (s : State) (x : Ctx) (tried : List Nat) (a : Nat) : Prop :=
  a ∈ planSpares x.plan ∧ spareEligible s x a = true ∧ a ∉ tried

/-- The devices that may take a rank. -/
noncomputable def candidates (s : State) (x : Ctx) (tried : List Nat) : List Nat :=
  (planSpares x.plan).filter fun a => spareEligible s x a && !tried.contains a

theorem mem_candidates {s : State} {x : Ctx} {tried : List Nat} {a : Nat} :
    a ∈ candidates s x tried ↔ MayTake s x tried a := by
  simp [candidates, MayTake]

theorem chooseSpare_spec (s : State) (c r : Nat) (tried : List Nat) :
    (chooseSpare s c r tried = none ↔ ∀ a, ¬ MayTake s (s.ctx c) tried a) ∧
    ∀ a, chooseSpare s c r tried = some a → MayTake s (s.ctx c) tried a ∧ ∀ b, MayTake s (s.ctx c) tried b →
      spareHops s (s.ctx c) r a < spareHops s (s.ctx c) r b ∨
      spareHops s (s.ctx c) r a = spareHops s (s.ctx c) r b ∧ a ≤ b := by
  have hleast := fold_least (spareHops s (s.ctx c) r) (candidates s (s.ctx c) tried) none
  refine ⟨hleast.1.trans ?_, fun a ha => ?_⟩
  · exact (and_iff_right rfl).trans (List.eq_nil_iff_forall_not_mem.trans
      (forall_congr' fun a => not_congr mem_candidates))
  · have hchosen := hleast.2 a ha
    exact ⟨mem_candidates.1 (hchosen.1.resolve_left (Option.some_ne_none a).symm), fun b hb =>
      hchosen.2 b (.inr (mem_candidates.2 hb))⟩

/-- The choice of a spare reads the rank table, the plan and the routes alone. -/
theorem chooseSpare_congr {s t : State} {c : Nat} (hfab : FS s t) (hview : spareView (t.ctx c) = spareView (s.ctx c))
    (r : Nat) (tried : List Nat) : chooseSpare t c r tried = chooseSpare s c r tried := by
  obtain ⟨links, tx, n, hfab⟩ := hfab.fab
  exact choose_same c r tried (congrArg Fabric.lsdb hfab :) (congrArg Fabric.acc hfab :)
    (congrArg Fabric.routes hfab :) hview

/-! ### LOST and FAULT (10 R408, R409, R420) -/

/-- A rank is still to be bound. -/
noncomputable def unboundHas (o : Option Recovery) (r : Nat) : Bool :=
  match o with | some v => v.unbound.contains r | none => false

theorem unboundHas_iff {o : Option Recovery} {r : Nat} : unboundHas o r = true ↔ ∃ v, o = some v ∧ r ∈ v.unbound := by
  cases o <;> simp [unboundHas]

/-- The failure of a rank is known: it was dropped, or is still to be bound. -/
def Known (x : Ctx) (r : Nat) : Prop := r ∈ x.led.dropped ∨ ∃ v, x.led.recovery = some v ∧ r ∈ v.unbound

theorem known_iff {x : Ctx} {r : Nat} :
    (x.led.dropped.contains r || unboundHas x.led.recovery r) = true ↔ Known x r :=
  (Bool.or_eq_true _ _).to_iff.trans (or_congr List.contains_iff_mem unboundHas_iff)

/-- The record that tells of a rank that is dropped. -/
noncomputable def dropRecord (r : Nat) : Ctrl := { typ := 9, seq := 0, src := 0, rank := r }

/-- LOST with its record. -/
noncomputable def lostFor (c : Nat) (s : State) (k : Ctrl) : State :=
  if (s.ctx c).led.dropped.contains k.rank || unboundHas (s.ctx c).led.recovery k.rank then s
  else if mayDrop s c k.rank then sendAll s c (dropRecord k.rank) else startRecovery s c [k.rank] []

/-- FAULT with its record. -/
noncomputable def faultFor (c : Nat) (s : State) (k : Ctrl) : State :=
  startRecovery s c [] (if k.arg = 1 then [] else [k.rank])

section
variable {c : Nat} (hc : c < nCtx) (s : State)
include hc

theorem exec_lost : exec (.lost c) s = .next (flushCredits s (withMail (lostFor c) (takeMail s c 1))) :=
  show exec (.lost c) s = .next (flushCredits s (lost s c)) from withUnit_of (decide_eq_true hc)

theorem exec_fault : exec (.fault c) s = .next (flushCredits s (withMail (faultFor c) (takeMail s c 2))) :=
  show exec (.fault c) s = .next (flushCredits s (fault s c)) from withUnit_of (decide_eq_true hc)

end

/-- Every live rank is told that a rank is dropped; the recovery, memory and the cores stay. -/
def DropTold (s : State) (c rank : Nat) (t : State) : Prop :=
  (∀ r a, r ∈ liveRanks (s.ctx c) → rankAcc (s.ctx c) r = some a →
    (a, { typ := 9, seq := (s.ctx c).led.seq, src := (s.ctx c).rank.toNat, rank := rank }) ∈ (t.ctx c).led.sent) ∧
  (t.ctx c).led.recovery = (s.ctx c).led.recovery ∧ (t.ctx c).led.seq = (s.ctx c).led.seq ∧
  (t.ctx c).led.st = (s.ctx c).led.st ∧ t.mem = s.mem ∧ t.cores = s.cores

theorem dropTold_sendAll (s0 s : State) (c rank : Nat) :
    DropTold s c rank (flushCredits s0 (sendAll s c (dropRecord rank))) := by
  have hled := led_flush s0 (sendAll s c (dropRecord rank)) c
  have hkept := CK.sendAll (g := fun x => (x.led.recovery, x.led.seq, x.led.st)) (fun _ _ _ _ => rfl) (fun _ _ _ => rfl)
    s c (dropRecord rank) c
  exact ⟨fun r a hr ha => hled.symm ▸ sendAll_sent s c (dropRecord rank) r a hr ha,
    (congrArg Ledger.recovery hled).trans (congrArg Prod.fst hkept :),
    (congrArg Ledger.seq hled).trans (congrArg (·.2.1) hkept :), (congrArg Ledger.st hled).trans
    (congrArg (·.2.2) hkept :),
    (mem_flush _ _).trans (mem_of (touches_sendAll s c _) (by decide) (by decide) (by decide)),
    ((touches_flushCredits _ _).2 .cores (by decide)).trans ((touches_sendAll s c _).2 .cores (by decide))⟩

/-! ### HALT (10 R410, R416) -/

/-- HALT has nothing to stop: the context has no ledger that runs, or has stopped for this recovery already. -/
def HaltIdle (old led : Ledger) (src : Nat) : Prop :=
  old.st = .none ∨ old.st = .standby ∨
    old.st = .recovering ∧ old.seq = led.seq ∧ old.heard = some src ∧ old.recovery = none

/-- `HaltIdle`, as HALT tests it. -/
noncomputable def haltIdle (old led : Ledger) (src : Nat) : Bool :=
  old.st = .none || old.st = .standby || (old.st = .recovering && old.seq = led.seq && old.heard = some src &&
    old.recovery.isNone)

theorem haltIdle_iff {old led : Ledger} {src : Nat} : haltIdle old led src = true ↔ HaltIdle old led src := by
  simp [haltIdle, HaltIdle, or_assoc, and_assoc]

/-- The queues of a context are closed, its writes and prefetches cut. -/
noncomputable def queuesClosed (s : State) (c : Nat) : State := closeQueues (cutWrites s c) c false

/-- The cores and prefetch engines of a context are stopped. -/
noncomputable def workStopped (s : State) (c : Nat) : State :=
  (shelvesOf (s.ctx c).mask).foldl (fun u sh => u.modShelf sh fun k => k.halted c)
    ((coresOf (queuesClosed s c) c).foldl (fun u n => u.modCore n Core.halted) (queuesClosed s c))

/-- The ledger block once the work of its context is discarded. -/
noncomputable def haltedLed (stays : Bool) (l : Ledger) : Ledger :=
  { l with
    st := if stays then .halted else .recovering, commit := none, waiting := none, taps := [], copies := [], got := []
    wards := [], leaves := [], reads := [], incoming := [], rebound := false, recoveries := l.recoveries + 1 }

/-- The context once its work is discarded. -/
noncomputable def haltedCtx (stays : Bool) (x : Ctx) : Ctx :=
  { x with
    streams := []
    nodes := x.nodes.map fun n => (n.1, { n.2 with kids := [], pos := 0, out := { n.2.out with outs := [] } })
    taps := []
    led := haltedLed stays x.led }

/-- The context is stopped, and an event tells so where the job was not halted already. -/
noncomputable def haltDone (s : State) (c : Nat) (stays : Bool) : State :=
  if stays then (workStopped s c).modCtx c (haltedCtx stays)
  else ctxEvent ((workStopped s c).modCtx c (haltedCtx stays)) c .recovering (s.ctx c).step.jobStep

/-- A job that this recovery has halted stays so. -/
noncomputable def haltStays (old led : Ledger) : Bool := old.st = .halted && old.seq = led.seq

/-- HALT once its record was heeded or not. -/
noncomputable def haltHeeded (old : Ledger) (c src : Nat) : State × Bool → State
  | (s, false) => s
  | (s, true) =>
    if haltIdle old (s.ctx c).led src then s else haltDone s c (haltStays old (s.ctx c).led)

/-- HALT with its record. -/
noncomputable def haltFor (old : Ledger) (c : Nat) (s : State) (k : Ctrl) : State := haltHeeded old c k.src (heed s c k)

theorem exec_halt {c : Nat} (hc : c < nCtx) (s : State) :
    exec (.halt c) s = .next (flushCredits s (withMail (haltFor (s.ctx c).led c) (takeMail s c 3))) :=
  show exec (.halt c) s = .next (flushCredits s (halt s c)) from withUnit_of (decide_eq_true hc)

section
variable {s s1 s2 : State} {c : Nat} {m : Option Ctrl} {k : Ctrl} {b : Bool} (hc : c < nCtx)
  (htake : takeMail s c 3 = (s1, m)) (hm : m = some k) (hheed : heed s1 c k = (s2, b))
include hc htake hm hheed

theorem halt_stopped (hidle : b = false ∨ HaltIdle (s.ctx c).led (s2.ctx c).led k.src) :
    exec (.halt c) s = .next s2 := by
  refine quiet (exec_halt hc s) ((withMail_some htake hm).trans ((congrArg (haltHeeded _ c k.src) hheed).trans ?_))
    ((touches_of_takeMail htake).trans (touches_of_heed hheed))
  cases b with
  | false => rfl
  | true => exact if_pos (haltIdle_iff.2 (hidle.resolve_left Bool.noConfusion))

theorem halt_stops (hb : b = true) (hruns : ¬ HaltIdle (s.ctx c).led (s2.ctx c).led k.src) : exec (.halt c) s =
    .next (flushCredits s (haltDone s2 c (haltStays (s.ctx c).led (s2.ctx c).led))) := by
  subst hb
  exact flushed (exec_halt hc s) ((withMail_some htake hm).trans ((congrArg (haltHeeded _ c k.src) hheed).trans
    (if_neg (mt haltIdle_iff.1 hruns))))

end

theorem ctx_workStopped (s : State) (c : Nat) : (workStopped s c).ctx c = s.ctx c := by
  have hclosed : (queuesClosed s c).ctxs = s.ctxs :=
    ((touches_closeQueues _ _ _).2 .ctxs (by decide)).trans ((touches_cutWrites s c).2 .ctxs (by decide))
  exact (ctx_of ((fold_same (g := State.ctxs) (f := fun u sh => u.modShelf sh fun k => k.halted c)
    (fun _ _ => rfl) _ _).trans
    ((fold_same (g := State.ctxs) (f := fun u n => u.modCore n Core.halted) (fun _ _ => rfl) _ _).trans hclosed)) c)

/-- The cores of a context are stopped, and no other core. -/
def CoresStopped (s : State) (c : Nat) (t : State) : Prop :=
  (∀ n ∈ coresOf s c, (t.core n).stage.st = .stopped ∧ (t.core n).inp = []) ∧
    ∀ n, n ∉ coresOf s c → t.core n = s.core n

theorem coresOf_congr {s t : State} (h : t.core = s.core) (c : Nat) : coresOf t c = coresOf s c :=
  congrArg (fun core : Nat → Core =>
    (List.range nCores).filter fun n => (core n).stage.info.isSome && (core n).stage.ctx = c) h

theorem core_workStopped {s0 s : State} (h : s.cores = s0.cores) (c : Nat) : CoresStopped s0 c (workStopped s c) := by
  have hcore : (queuesClosed s c).core = s0.core := funext (core_of
    (((touches_closeQueues _ _ _).2 .cores (by decide)).trans (((touches_cutWrites s c).2 .cores (by decide)).trans h)))
  have hstopped := RecoveryFinish.fold_ctx_cores (fun k => k) Core.halted (queuesClosed s c) (coresOf s0 c)
    (RecoveryFinish.cores_nodup s0 c)
  have hshelves := funext (core_of (fold_same (g := State.cores) (f := fun u sh => u.modShelf sh fun k => k.halted c)
    (fun _ _ => rfl) (shelvesOf (s.ctx c).mask)
    ((coresOf s0 c).foldl (fun u n => u.modCore n Core.halted) (queuesClosed s c))))
  unfold workStopped
  rw [coresOf_congr hcore, CoresStopped, hshelves]
  exact ⟨fun n hn => hstopped.2 n hn ▸ ⟨rfl, rfl⟩, fun n hn => (hstopped.1 n hn).trans (congrFun hcore n)⟩

/-- A halt of a context: its ledger block, its event and its streams, and its cores. -/
theorem haltDone_facts {s0 s : State} (h : s.cores = s0.cores) (c : Nat) (stays : Bool) :
    ((haltDone s c stays).ctx c).led = haltedLed stays (s.ctx c).led ∧ ((haltDone s c stays).ctx c).streams = [] ∧
    ((haltDone s c stays).ctx c).lastEvent = (if stays then (s.ctx c).lastEvent else .recovering) ∧
    CoresStopped s0 c (haltDone s c stays) := by
  have hctx : ((workStopped s c).modCtx c (haltedCtx stays)).ctx c = haltedCtx stays (s.ctx c) :=
    (ctx_modCtx_self _ _ _).trans (congrArg (haltedCtx stays) (ctx_workStopped s c))
  cases stays with
  | true => exact ⟨congrArg Ctx.led hctx, congrArg Ctx.streams hctx, (congrArg Ctx.lastEvent hctx :),
      core_workStopped h c⟩
  | false =>
    have hevent := Teardown.event_ctx ((workStopped s c).modCtx c (haltedCtx false)) c .recovering
      (s.ctx c).step.jobStep
    exact ⟨(congrArg Ctx.led hevent :).trans (congrArg Ctx.led hctx),
      (congrArg Ctx.streams hevent :).trans (congrArg Ctx.streams hctx), (congrArg Ctx.lastEvent hevent :),
      core_workStopped h c⟩

/-- What a halt answers, of a context in which it stops work. -/
def Halted (s0 : State) (old : Ledger) (s : State) (c : Nat) (t : State) : Prop :=
  (old.st = .halted ∧ old.seq = (s.ctx c).led.seq →
    (t.ctx c).led.st = .halted ∧ (t.ctx c).lastEvent = (s.ctx c).lastEvent) ∧
  (¬ (old.st = .halted ∧ old.seq = (s.ctx c).led.seq) →
    (t.ctx c).led.st = .recovering ∧ (t.ctx c).lastEvent = .recovering) ∧
  (t.ctx c).led.commit = none ∧ (t.ctx c).led.waiting = none ∧ (t.ctx c).led.seq = (s.ctx c).led.seq ∧
  (t.ctx c).led.recoveries = (s.ctx c).led.recoveries + 1 ∧ (t.ctx c).led.recovery = (s.ctx c).led.recovery ∧
  (t.ctx c).streams = [] ∧ CoresStopped s0 c t

theorem haltStays_iff {old led : Ledger} : haltStays old led = true ↔ old.st = .halted ∧ old.seq = led.seq := by
  simp [haltStays]

theorem halted_flush {s0 s : State} (h : s.cores = s0.cores) (c : Nat) (old : Ledger) :
    Halted s0 old s c (flushCredits s0 (haltDone s c (haltStays old (s.ctx c).led))) := by
  have hview := CK.flushCredits (g := fun x => (x.led, x.lastEvent, x.streams)) (fun _ _ _ _ => rfl) s0
    (haltDone s c (haltStays old (s.ctx c).led)) c
  have hdone := haltDone_facts h c (haltStays old (s.ctx c).led)
  have hled := (congrArg Prod.fst hview :).trans hdone.1
  have hevent := (congrArg (fun v => v.2.1) hview :).trans hdone.2.2.1
  refine ⟨fun hstays => ?_, fun hruns => ?_, congrArg Ledger.commit hled, congrArg Ledger.waiting hled,
    (congrArg Ledger.seq hled :), congrArg Ledger.recoveries hled, (congrArg Ledger.recovery hled :),
    (congrArg (fun v => v.2.2) hview :).trans hdone.2.1, ?_⟩
  · exact ⟨(congrArg Ledger.st hled).trans (if_pos (haltStays_iff.2 hstays)),
      hevent.trans (if_pos (haltStays_iff.2 hstays))⟩
  · exact ⟨(congrArg Ledger.st hled).trans (if_neg (mt haltStays_iff.1 hruns)),
      hevent.trans (if_neg (mt haltStays_iff.1 hruns))⟩
  · rw [CoresStopped, core_flush]
    exact hdone.2.2.2

/-! ### BIND (10 R410, 11 R445) -/

/-- A spare can take a rank: its context stands by, and the plan's granules are free. -/
def CanBind (s : State) (c rank : Nat) (v : Volume) : Prop :=
  volumeOf s (s.ctx c).job = some v ∧ (s.ctx c).st = .standby ∧ (s.ctx c).tear = none ∧
    s.pins.resetRequested = false ∧ bindOk s c v rank = true

/-- What keeps a spare that has a volume from taking a rank. -/
noncomputable def bindBad (s : State) (c rank : Nat) (v : Volume) : Bool :=
  (s.ctx c).st ≠ .standby || (s.ctx c).tear.isSome || s.pins.resetRequested || !bindOk s c v rank

theorem bindBad_eq_false {s : State} {c rank : Nat} {v : Volume} (hvolume : volumeOf s (s.ctx c).job = some v) :
    bindBad s c rank v = false ↔ CanBind s c rank v := by
  simp [bindBad, CanBind, hvolume, and_assoc]

/-- A ledger block in another RECOVERY_SEQ. -/
noncomputable def seqSet (seq : BitVec 32) (l : Ledger) : Ledger := { l with seq := seq }

/-- The record by which a spare answers. -/
noncomputable def answerRecord (k : Ctrl) (acc ok : Nat) : Ctrl :=
  { typ := 5, seq := 0, src := 0, rank := k.rank, acc := acc, arg := ok }

/-- The answer of a spare to its coordinator. -/
noncomputable def bindAnswer (s : State) (c : Nat) (k : Ctrl) (ok : Nat) : State :=
  sendCtrl (s.modLed c (seqSet k.seq)) c k.src (answerRecord k s.fab.acc ok)

theorem granule_assignGranules_other (c : Nat) {n : Nat} (gs : List Nat) (hn : n ∉ gs) (s : State) :
    (assignGranules s c gs).granule n = s.granule n := by
  induction gs generalizing s with
  | nil => rfl
  | cons g gs ih =>
    rw [List.mem_cons, not_or] at hn
    exact (ih hn.2 _).trans (granule_modGranule_other _ _ _ _ hn.1)

/-- The spare has the granules of a rank's memory plan, under a new key. -/
noncomputable def granulesGiven (s : State) (c : Nat) (v : Volume) (rank : Nat) : State :=
  freshKey (assignGranules s c (planGranules (v.memPlan rank))) (.ctxMem c)

/-- A context has a rank, and is created for it. -/
noncomputable def ranked (rank : Nat) (x : Ctx) : Ctx := { x with rank := BitVec.ofNat 14 rank, st := .creating }

/-- The spare answers, with the rank where it can take it. -/
noncomputable def bindWith (c : Nat) (s : State) (k : Ctrl) : Option Volume → State
  | none => bindAnswer s c k 0
  | some v =>
    if bindBad s c k.rank v then bindAnswer s c k 0
    else bindAnswer ((granulesGiven s c v k.rank).modCtx c (ranked k.rank)) c k 1

/-- BIND with its record. -/
noncomputable def bindFor (c : Nat) (s : State) (k : Ctrl) : State := bindWith c s k (volumeOf s (s.ctx c).job)

section
variable {c : Nat} (hc : c < nCtx) {s : State}
include hc

theorem exec_bind : exec (.bind c) s = .next (withMail (bindFor c) (takeMail s c 4)) :=
  show exec (.bind c) s = .next (Machine.bind s c) from withUnit_of (decide_eq_true hc)

variable {s1 : State} {m : Option Ctrl} {k : Ctrl} (htake : takeMail s c 4 = (s1, m)) (hm : m = some k)
include htake hm

theorem bind_accepts {v : Volume} (hcan : CanBind s1 c k.rank v) : exec (.bind c) s =
    .next (bindAnswer ((granulesGiven s1 c v k.rank).modCtx c (ranked k.rank)) c k 1) :=
  (exec_bind hc).trans (congrArg _ ((withMail_some htake hm).trans ((congrArg (bindWith c s1 k) hcan.1).trans
    (if_neg (Bool.eq_false_iff.1 ((bindBad_eq_false hcan.1).2 hcan))))))

theorem bind_refuses (hcannot : ∀ v, ¬ CanBind s1 c k.rank v) : exec (.bind c) s = .next (bindAnswer s1 c k 0) := by
  refine (exec_bind hc).trans (congrArg _ ((withMail_some htake hm).trans ?_))
  cases hvolume : volumeOf s1 (s1.ctx c).job with
  | none => exact congrArg (bindWith c s1 k) hvolume
  | some v =>
    refine (congrArg (bindWith c s1 k) hvolume).trans (if_pos ?_)
    exact by_contra fun h => hcannot v ((bindBad_eq_false hvolume).1 (Bool.eq_false_iff.2 h))

end

/-- A spare has answered its coordinator; its state and its rank are as given. -/
def BindAnswered (s : State) (c : Nat) (k : Ctrl) (ok : Nat) (y : Ctx) (t : State) : Prop :=
  (t.ctx c).st = y.st ∧ (t.ctx c).rank = y.rank ∧ (t.ctx c).led.seq = k.seq ∧ t.mem = s.mem ∧
    ∀ a, rankAcc y k.src = some a →
      (a, { typ := 5, seq := k.seq, src := y.rank.toNat, rank := k.rank, acc := s.fab.acc, arg := ok }) ∈
        (t.ctx c).led.sent

theorem bindAnswered {s : State} {c : Nat} {y : Ctx} (hy : s.ctx c = y) (k : Ctrl) (ok : Nat) :
    BindAnswered s c k ok y (bindAnswer s c k ok) := by
  subst hy
  have hctx := ctx_modLed s c (seqSet k.seq)
  have hview := CK.sendCtrl (g := fun x => (x.st, x.rank, x.led.seq)) (fun _ _ _ _ => rfl) (fun _ _ _ => rfl)
    (s.modLed c (seqSet k.seq)) c k.src (answerRecord k s.fab.acc ok) c
  refine ⟨(congrArg Prod.fst hview :).trans (congrArg Ctx.st hctx :),
    (congrArg (·.2.1) hview :).trans (congrArg Ctx.rank hctx :),
    (congrArg (·.2.2) hview :).trans (congrArg (fun x => x.led.seq) hctx :),
    (mem_of (touches_sendCtrl (s.modLed c (seqSet k.seq)) _ _ _) (by decide) (by decide) (by decide) :),
    fun a ha => ?_⟩
  have hsent := sent_ctrl (s.modLed c (seqSet k.seq)) c k.src a (answerRecord k s.fab.acc ok)
    ((congrArg (rankAcc · k.src) hctx).trans ha)
  rw [bindAnswer, hsent, hctx]
  exact List.mem_append_right _ (List.mem_singleton.2 rfl)

/-- A spare that has taken a rank has the granules of its plan, and only those are assigned anew. -/
theorem granule_bindAnswer {s : State} {c : Nat} {v : Volume} {k : Ctrl} {t : State}
    (hmem : t.mem = ((granulesGiven s c v k.rank).modCtx c (ranked k.rank)).mem) (n : Nat) :
    (n ∈ planGranules (v.memPlan k.rank) → (t.granule n).assigned = true ∧ (t.granule n).context = BitVec.ofNat 4 c) ∧
    (n ∉ planGranules (v.memPlan k.rank) → t.granule n = s.granule n) := by
  have hsame : t.granule n = (assignGranules s c (planGranules (v.memPlan k.rank))).granule n :=
    congrArg (tgetD · n Granule.reset) ((congrArg MemSys.granules hmem).trans
      ((touches_freshKey (assignGranules s c _) (.ctxMem c)).2 .granules (by decide)))
  exact ⟨fun hn => (hsame.trans (Creation.own_fold c n _ _ s (.inr ⟨rfl, hn⟩))) ▸ ⟨rfl, rfl⟩, fun hn =>
    hsame.trans (granule_assignGranules_other c _ hn s)⟩

theorem ctx_ranked (s : State) (c : Nat) (v : Volume) (rank : Nat) :
    ((granulesGiven s c v rank).modCtx c (ranked rank)).ctx c = ranked rank (s.ctx c) :=
  (ctx_modCtx_self _ _ _).trans (congrArg (ranked rank) ((ctx_of ((touches_freshKey _ _).2 .ctxs (by decide)) c).trans
    (ctx_of ((touches_assignGranules _ _ _).2 .ctxs (by decide)) c)))

theorem acc_ranked (s : State) (c : Nat) (v : Volume) (rank : Nat) :
    ((granulesGiven s c v rank).modCtx c (ranked rank)).fab.acc = s.fab.acc :=
  (congrArg Fabric.acc (((touches_freshKey (assignGranules s c _) (.ctxMem c)).2 .fab (by decide)).trans
    ((touches_assignGranules s c (planGranules (v.memPlan rank))).2 .fab (by decide))) :)

/-- A spare has taken a rank, with the granules of its plan and no others, and has answered so. -/
def BindTaken (s0 s : State) (c : Nat) (v : Volume) (k : Ctrl) (t : State) : Prop :=
  (t.ctx c).st = .creating ∧ (t.ctx c).rank = BitVec.ofNat 14 k.rank ∧ (t.ctx c).led.seq = k.seq ∧
  (∀ n ∈ planGranules (v.memPlan k.rank), (t.granule n).assigned = true ∧ (t.granule n).context = BitVec.ofNat 4 c) ∧
  (∀ n, n ∉ planGranules (v.memPlan k.rank) → t.granule n = s0.granule n) ∧
  ∀ a, rankAcc (s.ctx c) k.src = some a →
    (a, { typ := 5, seq := k.seq, src := k.rank % 2 ^ 14, rank := k.rank, acc := s.fab.acc, arg := 1 }) ∈
      (t.ctx c).led.sent

theorem bindTaken {s0 s : State} (h0 : s.mem = s0.mem) (c : Nat) (v : Volume) (k : Ctrl) : BindTaken s0 s c v k
    (bindAnswer ((granulesGiven s c v k.rank).modCtx c (ranked k.rank)) c k 1) := by
  have h := bindAnswered (ctx_ranked s c v k.rank) k 1
  exact ⟨h.1, h.2.1, h.2.2.1, fun n => (granule_bindAnswer h.2.2.2.1 n).1, fun n hn =>
    ((granule_bindAnswer h.2.2.2.1 n).2 hn).trans (congrArg (fun w : MemSys => tgetD w.granules n Granule.reset) h0),
    acc_ranked s c v k.rank ▸ h.2.2.2.2⟩

/-! ### BIND_ACK (10 R410, R422) -/

/-- The record that tells of a rank's new device. -/
noncomputable def rebindRecord (x : Ctx) (k : Ctrl) : Ctrl :=
  { typ := 6, seq := x.led.seq, src := x.rank.toNat, rank := k.rank, acc := k.acc, step := x.led.lastSealed.toNat }

/-- A ledger block whose recovery is as given. -/
noncomputable def ledRecovery (v : Recovery) (l : Ledger) : Ledger := { l with recovery := some v }

/-- A spare that refused is not offered the rank again. -/
noncomputable def refusedBy (v : Recovery) (a : Nat) : Recovery := { v with tried := v.tried ++ [a], offered := none }

/-- The next rank is to be bound, once one is. -/
noncomputable def bound (v : Recovery) : Recovery :=
  { v with unbound := v.unbound.drop 1, tried := [], offered := none }

/-- A rank waits for a commit boundary to join. -/
noncomputable def ledJoining (k : Ctrl) (l : Ledger) : Ledger :=
  { l with joining := some (k.rank, k.acc), joinReady := false, recovery := none }

/-- The coordinator acts on the answer of a spare. -/
noncomputable def ackWith (c : Nat) (s : State) (k : Ctrl) : Option Recovery → State
  | none => s
  | some v =>
    if v.offered ≠ some k.acc then s
    else if k.arg ≠ 1 then bindNext (s.modLed c (ledRecovery (refusedBy v k.acc))) c
    else if v.rejoin then
      sendCtrlTo ((s.modLed c (ledRecovery (bound v))).modLed c (ledJoining k)) c k.acc (rebindRecord (s.ctx c) k)
    else bindNext (sendCtrlTo (sendAll (s.modLed c (ledRecovery (bound v))) c (rebindRecord (s.ctx c) k)) c k.acc
      (rebindRecord (s.ctx c) k)) c

/-- BIND_ACK with its record. -/
noncomputable def ackFor (c : Nat) (s : State) (k : Ctrl) : State := ackWith c s k (s.ctx c).led.recovery

theorem exec_bindAck {c : Nat} (hc : c < nCtx) (s : State) :
    exec (.bindAck c) s = .next (flushCredits s (withMail (ackFor c) (takeMail s c 5))) :=
  show exec (.bindAck c) s = .next (flushCredits s (bindAck s c)) from withUnit_of (decide_eq_true hc)

section
variable {c : Nat} (hc : c < nCtx) {s s1 : State} {m : Option Ctrl} (htake : takeMail s c 5 = (s1, m))
include hc htake

theorem ack_idle (h : m = none ∨ (s1.ctx c).led.recovery = none) : exec (.bindAck c) s = .next s1 := by
  cases m with
  | none => exact mail_none (exec_bindAck hc s) htake rfl
  | some k => exact quiet (exec_bindAck hc s) ((withMail_some htake rfl).trans
      (congrArg (ackWith c s1 k) (h.resolve_left (Option.some_ne_none k)))) (touches_of_takeMail htake)

variable {k : Ctrl} {v : Recovery} (hm : m = some k) (hv : (s1.ctx c).led.recovery = some v)
include hm hv

theorem ack_stray (h : v.offered ≠ some k.acc) : exec (.bindAck c) s = .next s1 :=
  quiet (exec_bindAck hc s) ((withMail_some htake hm).trans ((congrArg (ackWith c s1 k) hv).trans (if_pos h)))
    (touches_of_takeMail htake)

/-- The coordinator acts on the answer of the spare that was offered the rank. -/
theorem ack_offered {t : State} (hoffered : v.offered = some k.acc) (h : (if k.arg ≠ 1 then
      bindNext (s1.modLed c (ledRecovery (refusedBy v k.acc))) c
    else if v.rejoin then
      sendCtrlTo ((s1.modLed c (ledRecovery (bound v))).modLed c (ledJoining k)) c k.acc (rebindRecord (s1.ctx c) k)
    else bindNext (sendCtrlTo (sendAll (s1.modLed c (ledRecovery (bound v))) c (rebindRecord (s1.ctx c) k)) c k.acc
      (rebindRecord (s1.ctx c) k)) c) = t) : exec (.bindAck c) s = .next (flushCredits s t) :=
  flushed (exec_bindAck hc s) ((withMail_some htake hm).trans ((congrArg (ackWith c s1 k) hv).trans
    ((if_neg (not_not.2 hoffered)).trans h)))

end

/-- What an offer to a spare reads of a context, and the RECOVERY_SEQ. -/
noncomputable def offerView (x : Ctx) :
    Option Recovery × (List Nat × List Nat × (Nat → Option Nat)) × BitVec 14 × Bool × BitVec 32 :=
  (x.led.recovery, spareView x, x.rank, x.unload, x.led.seq)

/-- A spare is offered the rank that is first in a recovery, in the same RECOVERY_SEQ and over the same memory; the
records sent before stay sent. -/
def OfferMade (s : State) (c : Nat) (v : Recovery) (w t : State) : Prop :=
  Offered s c v t ∧ ((t.ctx c).led.seq = (s.ctx c).led.seq ∧ t.mem = s.mem) ∧
    ∀ e ∈ (w.ctx c).led.sent, e ∈ (t.ctx c).led.sent

theorem offerMade {s w : State} {c : Nat} {v : Recovery} (hfab : FS (s.modLed c (ledRecovery v)) w)
    (hview : offerView (w.ctx c) = offerView ((s.modLed c (ledRecovery v)).ctx c)) (hmem : w.mem = s.mem) (s0 : State) :
    OfferMade s c v w (flushCredits s0 (bindNext w c)) := by
  have hv := hview.trans (congrArg offerView (ctx_modLed s c (ledRecovery v)))
  have hnext := bindNext_facts w c v (congrArg Prod.fst hv)
  have hled := led_flush s0 (bindNext w c) c
  exact ⟨offered_flush (offered_congr (chooseSpare_congr ((FS.modLed s c (ledRecovery v)).trans hfab)
      (congrArg (·.2.1) hv))
      (congrArg (·.2.2.1) hv) (congrArg (·.2.2.2.1) hv) hnext.1),
    ⟨(congrArg Ledger.seq hled).trans (hnext.2.1.trans (congrArg (·.2.2.2.2) hv)), (mem_flush _ _).trans
      ((mem_of (touches_bindNext w c) (by decide) (by decide) (by decide)).trans hmem)⟩,
    fun e he => hled.symm ▸ hnext.2.2.2.2.2 e he⟩

/-- A spare and every live rank are told of a rank's new device. -/
def RebindTold (s : State) (c : Nat) (k : Ctrl) (t : State) : Prop :=
  (k.acc, rebindRecord (s.ctx c) k) ∈ (t.ctx c).led.sent ∧ ∀ r a, r ∈ liveRanks (s.ctx c) →
    rankAcc (s.ctx c) r = some a → (a, rebindRecord (s.ctx c) k) ∈ (t.ctx c).led.sent

theorem rebindTold (s : State) (c : Nat) (k : Ctrl) (v : Recovery) : RebindTold s c k (sendCtrlTo (sendAll
    (s.modLed c (ledRecovery v)) c (rebindRecord (s.ctx c) k)) c k.acc (rebindRecord (s.ctx c) k)) := by
  rw [RebindTold, sent_ctrlTo]
  refine ⟨List.mem_append_right _ (List.mem_singleton.2 rfl), fun r a hr ha => List.mem_append_left _ ?_⟩
  have hsent := sendAll_sent (s.modLed c (ledRecovery v)) c (rebindRecord (s.ctx c) k) r a
  rw [ctx_modLed] at hsent
  exact hsent hr ha

theorem mem_sendCtrlTo (s : State) (c a : Nat) (k : Ctrl) : (sendCtrlTo s c a k).mem = s.mem :=
  mem_of (touches_sendCtrlTo s c a k) (by decide) (by decide) (by decide)

theorem mem_sendAll (s : State) (c : Nat) (k : Ctrl) : (sendAll s c k).mem = s.mem :=
  mem_of (touches_sendAll s c k) (by decide) (by decide) (by decide)

/-- The next rank is offered once a rank's new device has been told of. -/
theorem rebind_offers (s0 s : State) (c : Nat) (k : Ctrl) (v : Recovery) :
    let w := sendCtrlTo (sendAll (s.modLed c (ledRecovery v)) c (rebindRecord (s.ctx c) k)) c k.acc
      (rebindRecord (s.ctx c) k)
    OfferMade s c v w (flushCredits s0 (bindNext w c)) :=
  offerMade ((FS.sendAll _ c _).trans (FS.sendCtrlTo _ c _ _))
    ((CK.sendAll (g := offerView) (fun _ _ _ _ => rfl) (fun _ _ _ => rfl) _ c _).trans
      (CK.sendCtrlTo (fun _ _ _ _ => rfl) (fun _ _ _ => rfl) _ c _ _) c)
    ((mem_sendCtrlTo _ _ _ _).trans (mem_sendAll _ _ _)) s0

/-- The spare of a dropped rank is told, and the rank waits for a commit boundary. -/
def JoinTold (s : State) (c : Nat) (k : Ctrl) (t : State) : Prop :=
  (k.acc, rebindRecord (s.ctx c) k) ∈ (t.ctx c).led.sent ∧ (t.ctx c).led.joining = some (k.rank, k.acc) ∧
    (t.ctx c).led.recovery = none ∧ (t.ctx c).led.seq = (s.ctx c).led.seq ∧ t.mem = s.mem

theorem joinTold (s0 s : State) (c : Nat) (k : Ctrl) (v : Recovery) : JoinTold s c k (flushCredits s0
    (sendCtrlTo ((s.modLed c (ledRecovery v)).modLed c (ledJoining k)) c k.acc (rebindRecord (s.ctx c) k))) := by
  have hled := led_flush s0 (sendCtrlTo ((s.modLed c (ledRecovery v)).modLed c (ledJoining k)) c k.acc
    (rebindRecord (s.ctx c) k)) c
  have hkept := CK.sendCtrlTo (g := fun x => (x.led.joining, x.led.recovery, x.led.seq)) (fun _ _ _ _ => rfl)
    (fun _ _ _ => rfl) ((s.modLed c (ledRecovery v)).modLed c (ledJoining k)) c k.acc (rebindRecord (s.ctx c) k) c
  have hset := (congrArg Ctx.led (ctx_modLed (s.modLed c (ledRecovery v)) c (ledJoining k)) :)
  have hseq := (congrArg (fun x => x.led.seq) (ctx_modLed s c (ledRecovery v)) :)
  rw [JoinTold, hled, sent_ctrlTo]
  exact ⟨List.mem_append_right _ (List.mem_singleton.2 rfl),
    (congrArg Prod.fst hkept :).trans (congrArg Ledger.joining hset),
    (congrArg (·.2.1) hkept :).trans (congrArg Ledger.recovery hset),
    ((congrArg (·.2.2) hkept :).trans (congrArg Ledger.seq hset :)).trans hseq,
    (mem_flush _ _).trans (mem_sendCtrlTo _ _ _ _)⟩

end Sys2Proof.Laws.RecoveryCommands

namespace Sys2Proof.Claims

open Sys2Proof.Laws Sys2Proof.Laws.RecoveryCommands in
/-- Settles O38. The spare chosen is the least of those that may take the rank (`chooseSpare_spec`); a recovery starts
as `start_facts` says, a halt stops the cores of its context alone (`haltDone_facts`), and a spare's answer decides
between the next offer (`offerMade`) and REBIND (`rebindTold`). The return of credits at the end of a command leaves
all of this. -/
theorem recoveriesBegin : Obligations.RecoveriesBegin := by
  unfold Obligations.RecoveriesBegin
  refine ⟨chooseSpare_spec, ?_, ?_, ?_, ?_, ?_⟩
  · intro s s1 m c hc htake x
    exact ⟨mail_none (exec_lost hc s) htake, fun k hm => ⟨fun hknown => quiet (exec_lost hc s)
        ((withMail_some htake hm).trans (if_pos (known_iff.2 hknown))) (touches_of_takeMail htake), fun hnew =>
      ⟨fun hmay => nxt (flushed (exec_lost hc s) ((withMail_some htake hm).trans
          ((if_neg (mt known_iff.1 hnew)).trans (if_pos hmay)))) (dropTold_sendAll s s1 c k.rank),
        fun hmust => nxt (flushed (exec_lost hc s) ((withMail_some htake hm).trans
          ((if_neg (mt known_iff.1 hnew)).trans (if_neg (Bool.eq_false_iff.1 hmust)))))
          (restarted_flush (start_facts s1 c [k.rank] []))⟩⟩⟩
  · exact fun s s1 m c hc htake => ⟨mail_none (exec_fault hc s) htake, fun k hm =>
      nxt (flushed (exec_fault hc s) (withMail_some htake hm)) (restarted_flush (start_facts s1 c [] _))⟩
  · intro s s1 m c hc htake old
    exact ⟨mail_none (exec_halt hc s) htake, fun k s2 b hm hheed => ⟨halt_stopped hc htake hm hheed, fun hb hruns =>
      nxt (halt_stops hc htake hm hheed hb hruns) (halted_flush
        (((touches_of_takeMail htake).2 .cores (by decide)).symm ▸ (touches_of_heed hheed).2 .cores
            (by decide)) c old)⟩⟩
  · intro s s1 m c hc htake x
    exact ⟨fun hm => (exec_bind hc).trans (congrArg _ (withMail_none htake hm)), fun k hm =>
      ⟨fun v hcan => nxt (bind_accepts hc htake hm hcan) (bindTaken (mem_of_ctxs (touches_of_takeMail htake)) c v k),
          fun hcannot => nxt (bind_refuses hc htake hm hcannot)
        ((mem_of_ctxs (touches_of_takeMail htake)) ▸ bindAnswered rfl k 0)⟩⟩
  · intro s s1 m c hc htake x
    exact ⟨ack_idle hc htake, fun k v hm hv => ⟨ack_stray hc htake hm hv, fun hoffered => ⟨fun hrefused =>
      have hmade := offerMade (FS.refl _) rfl rfl s
      nxt (ack_offered hc htake hm hv hoffered (if_pos hrefused)) ⟨hmade.1, hmade.2.1⟩, fun haccepts hbinds =>
      have hmade := rebind_offers s s1 c k (bound v)
      have htold := rebindTold s1 c k (bound v)
      nxt (ack_offered hc htake hm hv hoffered ((if_neg (not_not.2 haccepts)).trans
        (if_neg (Bool.eq_false_iff.1 hbinds)))) ⟨hmade.2.2 _ htold.1, fun r a hr ha => hmade.2.2 _ (htold.2 r a hr ha),
          hmade.1, hmade.2.1⟩, fun haccepts hjoins =>
      nxt (ack_offered hc htake hm hv hoffered ((if_neg (not_not.2 haccepts)).trans (if_pos hjoins)))
        (joinTold s s1 c k (bound v))⟩⟩⟩

end Sys2Proof.Claims
end
